-- ==== Sys2Proof/Word.lean ====
section
/-! DEFINITION. The word types of the ZH8 (00_scope.md: a byte is 8 bits, a word 32 bits, a double-word 64 bits). -/

namespace Sys2Proof

/-- A byte: 8 bits. -/
abbrev Byte := BitVec 8

/-- A word: 32 bits, the width of a register (R4). -/
abbrev Word := BitVec 32

/-- A double-word: 64 bits. -/
abbrev DWord := BitVec 64

/-- A master ID (R479): KIND in bits 15 to 12, INDEX in bits 11 to 0. -/
abbrev Master := BitVec 16

end Sys2Proof
end

