-- ==== Sys2Proof/Syntax.lean ====
section
/-! DEFINITION. The commands of the ZH8: one constructor for each row of the table of operations and events. -/

namespace Sys2Proof

/-- A command to the block, with its operands. Each constructor cites the rule that governs it. -/
inductive Instr where
  /-- R10. A write to a register that has no row of its own, applied by the field access types. -/
  | registerWrite (m : Master) (inst : Option (Fin 64)) (addr : BitVec 52) (size : Fin 4) (v : BitVec 64)
  /-- R6. A 32-bit read of the lower half, or of word 0, captures the rest of the register for the same master. -/
  | wideRegisterLowerRead (m : Master) (inst : Option (Fin 64)) (addr : BitVec 52)
  /-- R31. A master's access to the physical map is judged against the mapped ranges and their access cases. -/
  | fabricMemoryAccess (m : Master) (inst : Option (Fin 64)) (write : Bool) (addr : BitVec 64) (len : Fin 4097) (data : List Byte) (poison : Bool) (incarn : BitVec 8)
  /-- R31. An access held during a spare substitution completes against the spare once the spare carries the logical ID. -/
  | heldAccessRelease
  /-- R563. A PTP hardware clock adds its increment, or its slew tick, and carries nanoseconds into seconds. -/
  | ptpClockTick (clk : Fin 4)
  /-- R39. An azimuth sample from a flow stream is unwrapped into an ANGLE axis, or held back as BACKSTEP, or applied as a JUMP. -/
  | angleSample (stream : Fin 64)
  /-- R68. An edge on a PHASE_IN pin passes the synchroniser and filter, is stamped, and feeds the axes that use the pin. -/
  | phaseInEdge (pin : Fin 8) (level : Bool)
  /-- R42. A frame start raises the LINE axis frame count and zeroes its line, implying a frame end if one is open. -/
  | lineAxisFrameStart (stream : Fin 64)
  /-- R42. A line start moves the LINE axis line field forward, or is ignored with LINE_ORDER. -/
  | lineAxisLineStart (stream : Fin 64)
  /-- R42. A frame end sets the line field past the last started line, or is ignored with no open frame. -/
  | lineAxisFrameEnd (stream : Fin 64)
  /-- R46. A write of PHX_AXIS_LOAD replaces the value of an ANGLE, LINE or TRAVEL axis as a discontinuity, or is refused. -/
  | axisLoad (m : Master) (inst : Option (Fin 64)) (axis : Fin 16) (v : BitVec 64)
  /-- R45. An enabled axis that receives no update for TIMEOUT µs is marked stalled and records class N or D. -/
  | axisStall (axis : Fin 16)
  /-- R54. A write to a tack entry is accepted or refused by owner, lock and armed-state rules. -/
  | tackWrite (m : Master) (inst : Option (Fin 64)) (tack : Fin 4096) (reg : Fin 8) (v : BitVec 64)
  /-- R55. A write of ARM = 1 arms the tack or is refused with ARM_ERR. -/
  | tackArm (m : Master) (inst : Option (Fin 64)) (tack : Fin 4096) (cfg : BitVec 32)
  /-- R56. A write of ARM = 0 disarms the tack, letting a firing in the same cycle complete. -/
  | tackDisarm (m : Master) (inst : Option (Fin 64)) (tack : Fin 4096) (cfg : BitVec 32)
  /-- R57. An armed tack found reached fires or misses by its late policy, updates its status, and re-arms or disarms. -/
  | tackFire (tack : Fin 4096) (ecc : Fin 4)
  /-- R64. The dispatcher issues up to 4 queued non-pin actions to the fabric in tack order. -/
  | actionDispatch
  /-- R64. Tack evaluation paused by a full dispatch queue resumes with the next tack once the queue has room. -/
  | evaluationResume
  /-- R67. The pin placer drives a scheduled PHASE_OUT edge at its time, resolving conflicts in one 2 ns window. -/
  | phaseOutEdge (pin : Fin 16)
  /-- R71. A read of PHX_EVT_DATA returns and removes the head entry of the event FIFO. -/
  | phxEvtDataRead (m : Master) (inst : Option (Fin 64))
  /-- R79. A CSI-2 frame start packet opens a frame on a camera stream and is delivered to its LINE axis. -/
  | csi2FrameStart (port vc : Fin 16) (frame : BitVec 16) (err : BitVec 5)
  /-- R79. An image long packet is checked, counted as the next line of its stream and passed to the pipeline or engine. -/
  | csi2LongPacket (port vc : Fin 16) (dt : BitVec 6) (data : List Byte) (err : BitVec 5)
  /-- R79. A CSI-2 frame end closes the frame, the last band SHORT if needed, and is delivered or held to the LINE axis. -/
  | csi2FrameEnd (port vc : Fin 16) (err : BitVec 5)
  /-- R76. A line start, line end or generic short packet is counted per port and discarded. -/
  | csi2ShortPacket (port vc : Fin 16) (dt : BitVec 6) (err : BitVec 5)
  /-- R80. A flow frame from the switch is converted to an azimuth sample, placed in a sector and passed to the engine. -/
  | flowPacket (flow : Fin 64) (full : Bool)
  /-- R96. The engine starts a band or sector, takes its slot token and activates a committed program. -/
  | bandStart (stream : Fin 64)
  /-- R94. The engine starts one unit of a band, setting the input cursor and running from I0. -/
  | lseUnitStart (stream : Fin 64)
  /-- R95. END ends the unit and advances the address registers by UNIT_ADV. -/
  | lseEnd (stream : Fin 64)
  /-- R95. LOOP runs its body count times. -/
  | lseLoop (stream : Fin 64)
  /-- R95. GET loads n fields of w bits from the unit into lanes. -/
  | lseGet (stream : Fin 64)
  /-- R95. SKIP moves the input cursor by a signed bit count. -/
  | lseSkip (stream : Fin 64)
  /-- R95. ALU applies an operation with an immediate to every lane. -/
  | lseAlu (stream : Fin 64)
  /-- R95. CVT converts every lane to an element format with a rounding mode. -/
  | lseCvt (stream : Fin 64)
  /-- R95. PUT stores lanes into the destination slot, or writes nothing and flags BOUNDS when outside the extent. -/
  | lsePut (stream : Fin 64)
  /-- R95. ADDA adds a signed offset to an address register. -/
  | lseAdda (stream : Fin 64)
  /-- R88. When every write of a band is acknowledged the record is written, the token passes to the consumer and the held event is released. -/
  | bandComplete (stream : Fin 64)
  /-- R99. A stall longer than the unit time drops the band, returns its token and credits and releases its held event. -/
  | streamStallTimeout (stream : Fin 64)
  /-- R91. A write to SFE_STREAM_SLOTREL returns a slot token, or is ignored with REL_ERR. -/
  | slotRelease (m : Master) (inst : Option (Fin 64)) (stream : Fin 64) (v : BitVec 32)
  /-- R96. COMMIT validates the shadow program slot and schedules it for the next band start, or sets PROG_ERR. -/
  | commit (m : Master) (inst : Option (Fin 64)) (stream : Fin 64)
  /-- R98. CANCEL withdraws a pending commit. -/
  | cancel (m : Master) (inst : Option (Fin 64)) (stream : Fin 64)
  /-- R104. RESTART drops the band in progress, zeroes SEQ and raises the stream's incarnation. -/
  | restart (m : Master) (inst : Option (Fin 64)) (stream : Fin 64)
  /-- R98. A write to the shadow program slot is stored, or refused while a commit is pending. -/
  | shadowSlotWrite (m : Master) (inst : Option (Fin 64)) (stream word : Fin 64) (v : BitVec 32)
  /-- R105. Each 1 ms the engine occupancy OCC and PEAK are updated. -/
  | lseOccupancyWindow
  /-- R158. A write of CEL_CELL_KERNEL upper half starts LOADING, or is refused in a busy state. -/
  | kernelWrite (m : Master) (cell : Fin 256) (addr : BitVec 64)
  /-- R156. The descriptor and first code are fetched and checked; the cell becomes LOADED or returns to IDLE with KERNEL_INVALID. -/
  | kernelLoadDone (cell : Fin 256)
  /-- R157. When every group has ended and the cell is drained the cell reports completion and enters LOADED. -/
  | taskComplete (cell : Fin 256)
  /-- R160. SAVE stops every group at an instruction boundary, drains and writes the context image. -/
  | save (m : Master) (cell : Fin 256)
  /-- R160. The context image is written with MAGIC last and the cell enters IDLE. -/
  | saveComplete (cell : Fin 256)
  /-- R161. RESTORE loads the named kernel and reads a context image into the cell. -/
  | restore (m : Master) (cell : Fin 256)
  /-- R161. The image checks pass and the groups resume, or the cell returns to IDLE with RESTORE_FAILED. -/
  | restoreComplete (cell : Fin 256)
  /-- R177. ABORT stops and drains a running task, reporting ABORTED, or moves a HALTED cell to LOADED. -/
  | abort (m : Master) (cell : Fin 256)
  /-- R177. ACK moves a HALTED cell to LOADED. -/
  | ack (m : Master) (cell : Fin 256)
  /-- R163. A group raises a synchronous exception before the instruction changes state and the task begins to stop. -/
  | syncException (cell : Fin 256) (group : Fin 128)
  /-- R163. A fault found after issue by movement, lace-list or long work is attributed to its issuing group. -/
  | asyncException (cell : Fin 256)
  /-- R163. After an exception the cell finishes draining, enters HALTED and reports EXCEPTION. -/
  | cellHalt (cell : Fin 256)
  /-- R164. ELAPSED reaching WDOG × 1,024 raises an asynchronous WATCHDOG exception. -/
  | watchdog (cell : Fin 256)
  /-- R166. No progress for HANG × 65,536 cycles starts a failure substitution. -/
  | cellHang (cell : Fin 256)
  /-- R166. A cell control-logic checker failure starts a failure substitution with class D. -/
  | controlCheckerFail (cell : Fin 256)
  /-- R166. Every 3,600 s the CE and UE counts of the cells are cleared. -/
  | errorCountClear
  /-- R170. The failed cell is fenced, the incarnation raised, accesses held and the tile store copied to the spare. -/
  | failureSubstitution (cell : Fin 256) (wake lost : Bool) (bad : List (BitVec 18))
  /-- R172. The spare serves the logical ID, held accesses are released and the task outcome goes to the Clicker. -/
  | substitutionComplete (cell : Fin 256)
  /-- R171. The cell drains as for SAVE and its whole context moves to the spare. -/
  | plannedSubstitution (cell : Fin 256) (wake : Bool)
  /-- R174. A write of CEL_SUB_REQ requests a failure or planned substitution. -/
  | subReq (m : Master) (cell : Fin 256) (force : Bool)
  /-- R175. A START in CEL_MAINT begins the self-test of a FENCED physical cell, or is refused. -/
  | maintStart (m : Master) (panel : Fin 16) (phys : Fin 32)
  /-- R175. The maintenance test ends; the cell refills an ABSENT logical cell, becomes the spare, or FAILED. -/
  | maintDone (pass : Bool)
  /-- R187. SALU computes a 64-bit integer function into a scalar register. -/
  | salu (cell : Fin 256) (group : Fin 128)
  /-- R189. SMOVI loads a sign-extended 48-bit immediate. -/
  | smovi (cell : Fin 256) (group : Fin 128)
  /-- R189. SMOVHI sets bits 63:48 of a scalar register. -/
  | smovhi (cell : Fin 256) (group : Fin 128)
  /-- R189. SLD loads a scalar value from memory. -/
  | sld (cell : Fin 256) (group : Fin 128)
  /-- R189. SST stores a scalar value to memory. -/
  | sst (cell : Fin 256) (group : Fin 128)
  /-- R189. SRD reads the group number, GROUPS, REGS or the RUNNING cycle count. -/
  | srd (cell : Fin 256) (group : Fin 128)
  /-- R190. BR compares two scalars and branches when the condition holds. -/
  | br (cell : Fin 256) (group : Fin 128)
  /-- R190. JAL links and jumps PC-relative. -/
  | jal (cell : Fin 256) (group : Fin 128)
  /-- R190. JALR jumps to a register-relative target and links. -/
  | jalr (cell : Fin 256) (group : Fin 128)
  /-- R193. TALU computes a 32-bit integer function per active lane. -/
  | talu (cell : Fin 256) (group : Fin 128)
  /-- R193. TMOVI writes a 32-bit immediate into each active lane. -/
  | tmovi (cell : Fin 256) (group : Fin 128)
  /-- R192. FALU computes an FP32 function per active lane with correct rounding. -/
  | falu (cell : Fin 256) (group : Fin 128)
  /-- R194. TCVT converts one element per lane between formats with one rounding. -/
  | tcvt (cell : Fin 256) (group : Fin 128)
  /-- R195. TCMP sets a predicate per lane from a comparison. -/
  | tcmp (cell : Fin 256) (group : Fin 128)
  /-- R196. PLOG combines predicates per active lane. -/
  | plog (cell : Fin 256) (group : Fin 128)
  /-- R197. A VOTE function of PLOG reduces predicates of active lanes into a scalar. -/
  | vote (cell : Fin 256) (group : Fin 128)
  /-- R198. TLD loads a value per active lane from the tile store or the fabric. -/
  | tld (cell : Fin 256) (group : Fin 128) (err : Fin 5) (idx : BitVec 32)
  /-- R198. TST stores a value per active lane to the tile store or the fabric. -/
  | tst (cell : Fin 256) (group : Fin 128)
  /-- R199. TLANE shuffles values between lanes or reduces them into a scalar. -/
  | tlane (cell : Fin 256) (group : Fin 128)
  /-- R200. TSAMP samples the panel texture unit per lane with residency report. -/
  | tsamp (cell : Fin 256) (group : Fin 128)
  /-- R201. TATOM performs a 32-bit atomic read-modify-write per active lane. -/
  | tatom (cell : Fin 256) (group : Fin 128)
  /-- R207. BAR SYNC arrives at a barrier and waits for its phase to complete. -/
  | barSync (cell : Fin 256) (group : Fin 128)
  /-- R207. BAR ARRIVE arrives at a barrier without waiting. -/
  | barArrive (cell : Fin 256) (group : Fin 128)
  /-- R207. BAR WAIT waits for the phase in which the group arrived. -/
  | barWait (cell : Fin 256) (group : Fin 128)
  /-- R207. When every live group has arrived the barrier phase completes and waiting groups become ready. -/
  | barrierPhaseComplete (cell : Fin 256) (bar : Fin 16)
  /-- R208. WAIT holds the group until a completion counter is at or below N. -/
  | wait (cell : Fin 256) (group : Fin 128)
  /-- R208. FENCE holds the group until its tile-store, fabric or queue work is done. -/
  | fence (cell : Fin 256) (group : Fin 128)
  /-- R209. PWAIT waits until a phase axis reaches the target in a scalar. -/
  | pwait (cell : Fin 256) (group : Fin 128)
  /-- R209. The group waiting in PWAIT becomes ready once the phase engine finds its target reached. -/
  | pwaitReached (cell : Fin 256) (group : Fin 128)
  /-- R209. PREAD reads the current value of a phase axis. -/
  | pread (cell : Fin 256) (group : Fin 128)
  /-- R210. NOTIFY rings a hardware queue doorbell with a value. -/
  | notify (cell : Fin 256) (group : Fin 128)
  /-- R211. NOP does nothing. -/
  | sysNop (cell : Fin 256) (group : Fin 128)
  /-- R211. END ends the group. -/
  | sysEnd (cell : Fin 256) (group : Fin 128)
  /-- R211. BREAK raises the BREAK exception. -/
  | sysBreak (cell : Fin 256) (group : Fin 128)
  /-- R211. TRAP raises the TRAP exception with a code. -/
  | sysTrap (cell : Fin 256) (group : Fin 128)
  /-- R211. RDFL reads AFLAGS into a scalar. -/
  | rdfl (cell : Fin 256) (group : Fin 128)
  /-- R211. CLRFL clears selected AFLAGS bits. -/
  | clrfl (cell : Fin 256) (group : Fin 128)
  /-- R211. RDRES reads RESUME into a scalar. -/
  | rdres (cell : Fin 256) (group : Fin 128)
  /-- R211. WRRES writes RESUME from a scalar. -/
  | wrres (cell : Fin 256) (group : Fin 128)
  /-- R224. MMA accumulates A × B over K into an accumulator tile in exact or FP32 mode. -/
  | mma (cell : Fin 256) (group : Fin 128) (err : Fin 5) (idx : BitVec 32)
  /-- R227. MMAW accumulates with its A operand formed by the window walker for convolution or pooling. -/
  | mmaw (cell : Fin 256) (group : Fin 128)
  /-- R229. ACCRD reads an accumulator tile out to a destination region with bias, RELU and rounding. -/
  | accrd (cell : Fin 256) (group : Fin 128)
  /-- R228. ACCLD loads an accumulator tile in FP32 mode from a region. -/
  | accld (cell : Fin 256) (group : Fin 128)
  /-- R232. A tensor instruction's accumulation or last write is done and TQ falls by 1. -/
  | tensorComplete (cell : Fin 256)
  /-- R233. LACE queues a lace list on one of the cell's channels. -/
  | laceInstruction (cell : Fin 256) (group : Fin 128)
  /-- R238. A channel accepts a waiting lace list into its start queue. -/
  | laceListAccept (cell : Fin 256)
  /-- R236. A channel fetches and executes the next descriptor of its list, row by row. -/
  | laceDescriptorExecute (engine : Fin 272) (chan : Fin 4)
  /-- R236. After a descriptor's writes are acknowledged its signal value is written. -/
  | laceSignalWrite (engine : Fin 272) (chan : Fin 4)
  /-- R236. The last descriptor's writes and signal are acknowledged; MQ falls and the channel takes the next list. -/
  | laceListComplete (engine : Fin 272) (chan : Fin 4)
  /-- R240. TCOPY copies or converts a tile-store region. -/
  | tcopy (cell : Fin 256) (group : Fin 128)
  /-- R241. TRANS transposes a tile-store region. -/
  | trans (cell : Fin 256) (group : Fin 128)
  /-- R242. FILL writes a pattern over a region. -/
  | fill (cell : Fin 256) (group : Fin 128)
  /-- R243. A tile-store move's last write is performed and MQ falls by 1. -/
  | movementComplete (cell : Fin 256)
  /-- R246. SORT orders N records by key into DST. -/
  | sort (cell : Fin 256) (group : Fin 128)
  /-- R247. TOPK selects the K best keys with their indices. -/
  | topk (cell : Fin 256) (group : Fin 128)
  /-- R248. GATHER copies indexed table rows into the rows area. -/
  | gather (cell : Fin 256) (group : Fin 128)
  /-- R249. SCATTER stores or combines rows into indexed table rows in order. -/
  | scatter (cell : Fin 256) (group : Fin 128)
  /-- R250. ATTN computes single-head attention row by row. -/
  | attn (cell : Fin 256) (group : Fin 128)
  /-- R279. NMS scores, decodes and suppresses detection candidates and writes the output records and header. -/
  | nms (cell : Fin 256) (group : Fin 128)
  /-- R244. A long routine completes; RESUME is 0 and PC moves past it. -/
  | longRoutineComplete (cell : Fin 256)
  /-- R289. A write to CLC_SLOT_RELEASE releases a job, judged against the slot's state. -/
  | slotReleaseWrite (m : Master) (inst : Option (Fin 64)) (slot : Fin 4096) (param : BitVec 32)
  /-- R290. When a cell becomes free or a task ready the Clicker places ready tasks on free cells. -/
  | taskPlacement
  /-- R294. The Clicker handles a task outcome reported by a cell, ending or continuing the job. -/
  | taskOutcome
  /-- R296. A completion waiting in the Clicker buffer is posted once its queue accepts it. -/
  | completionBufferDrain
  /-- R285. A write of CLC_CLICK_CFG creates or changes a best-effort clicking, handing out or reclaiming cells, or aborts it with CLASS 0. -/
  | clickCfgWrite (m : Master) (click : Fin 64) (v : BitVec 32)
  /-- R311. A write of CLC_CLICK_SWITCH starts a model switch or is refused with LAST_SW. -/
  | clickSwitch (m : Master) (click : Fin 64) (v : BitVec 32)
  /-- R312. Running jobs of the switching clicking have finished or aborted; the SLC region is reallocated and resident segments loaded. -/
  | switchDrainDone (click : Fin 64)
  /-- R312. The warm pass ends; MODEL and N are set and the clicking becomes READY, or the switch fails. -/
  | switchDone (click : Fin 64)
  /-- R320. A switch write with UNBIND leaves no model bound. -/
  | unbind (m : Master) (click : Fin 64) (abort : Bool)
  /-- R317. At a checkpoint stage end the digest engine reads the tensor and delivers a digest to TWN. -/
  | checkpointDigest (side : Bool)
  /-- R491. TWN compares the two replica digests of a checkpoint and passes or records a mismatch. -/
  | digestCompare (slot : Fin 4096)
  /-- R491. The second digest does not arrive within TWL_TIMEOUT and the job ends REPLICA_LATE. -/
  | digestLate (slot : Fin 4096)
  /-- R310. FWP-MODEL recopies 4 KiB of a working or golden copy after a latent error, or fails the model. -/
  | modelRepair (addr : BitVec 64)
  /-- R306. An image is checked and copied to HBM and its model entry becomes READY, or is refused. -/
  | modelInstallationDone (model : Fin 32) (work kern : BitVec 52)
  /-- R331. A read of WPE_EPOCH_ACQ moves a FREE buffer to WRITING, or returns the WRITING one, or fails. -/
  | epochAcqRead (m : Master) (inst : Option (Fin 64))
  /-- R332. A publish write checks the header, numbers the epoch, feeds the change accumulators and makes it newest. -/
  | epochPublish (m : Master) (inst : Option (Fin 64)) (buf : Fin 4)
  /-- R332. A publish write with ABANDON returns the WRITING buffer to FREE. -/
  | epochAbandon (m : Master) (inst : Option (Fin 64)) (buf : Fin 4)
  /-- R336. The cycle tack firing makes the WPE apply shadows, pin epochs, latch state and start a run. -/
  | cycleStart
  /-- R342. The backward value and policy computation over the lattice completes. -/
  | wavefrontExpansionDone (err : Fin 3)
  /-- R346. Checks of the candidates complete and the best passing one becomes the plan, judged against CHG_PLAN. -/
  | planChosen
  /-- R350. The safety island submits a heel candidate address for the cycle. -/
  | heelSubmit (m : Master) (addr : BitVec 64)
  /-- R351. Checker 15 finishes checking a heel candidate, which passes, fails or is found stale. -/
  | heelCheckDone (fault : Bool)
  /-- R352. At D − 10 µs a passing candidate becomes the heel in force, or the hard heel is selected. -/
  | heelOutcome
  /-- R349. At the deadline tack the command is chosen, ages rise and a trajectory frame is sent. -/
  | deadlineTack
  /-- R359. The write of WPE_VS_T upper half commits the vehicle state as one set. -/
  | vehicleStateCommit (m : Master) (inst : Option (Fin 64)) (t : BitVec 64)
  /-- R359. SWAP requests the other goal buffer from the next cycle start. -/
  | goalSwap (m : Master) (inst : Option (Fin 64))
  /-- R361. The owner advances RAS_FE_TAIL and the front end reads commands up to it. -/
  | rasFeTailWrite (m : Master) (inst : Option (Fin 64)) (fe : Fin 2) (v : BitVec 16)
  /-- R362. Command NOP does nothing. -/
  | rasNop (fe : Fin 2)
  /-- R362. BEGIN_PASS opens a pass and reads its target descriptor. -/
  | beginPass (fe : Fin 2)
  /-- R365. DRAW bins and rasterises COUNT triangles. -/
  | draw (fe : Fin 2)
  /-- R367. END_PASS resolves visibility, writes buffers and work list and releases the slot. -/
  | endPass (fe : Fin 2)
  /-- R363. Command RELEASE releases a Clicker job as the owner. -/
  | release (fe : Fin 2)
  /-- R362. WAIT_MEM waits until a memory u64 reaches a value. -/
  | waitMem (fe : Fin 2)
  /-- R362. Every 1 µs a waiting WAIT_MEM re-reads its address. -/
  | waitMemPoll (fe : Fin 2)
  /-- R362. SIGNAL_MEM stores a value once earlier commands are consumed. -/
  | signalMem (fe : Fin 2)
  /-- R376. SPLAT projects points into a bird's-eye grid with ADD or MAX. -/
  | splat (fe : Fin 2)
  /-- R369. SKIP restarts a stopped front end after the failed command. -/
  | skipCmd (m : Master) (inst : Option (Fin 64)) (fe : Fin 2)
  /-- R385. FLUSH sets HEAD to TAIL on a stopped front end. -/
  | flush (m : Master) (inst : Option (Fin 64)) (fe : Fin 2)
  /-- R370. A waiting event entry is posted again once the queue's HEAD advances. -/
  | rasEventRetry (fe : Fin 2)
  /-- R382. Setting EN starts a pipe, which asks for a power-admission token. -/
  | dpyPipeEnable (m : Master) (inst : Option (Fin 64)) (pipe : Fin 4) (expect : Bool)
  /-- R382. Clearing EN stops output at the end of the current frame. -/
  | dpyPipeDisable (m : Master) (inst : Option (Fin 64)) (pipe : Fin 4) (expect : Bool)
  /-- R384. Line 0 of a frame starts scan-out of the buffer shown. -/
  | dpyFrameStart (pipe : Fin 4) (onTarget : Bool) (late : List (BitVec 16 × BitVec 16))
  /-- R384. At the start of line DL a miss is counted if no flip is pending and EXPECT is set. -/
  | dpyLineDl (pipe : Fin 4)
  /-- R384. At line V_ACTIVE a flip pending since line DL is latched. -/
  | dpyFlipLatch (pipe : Fin 4)
  /-- R384. A FLIP write makes a buffer pending, replacing any earlier pending flip. -/
  | dpyPipeFlip (m : Master) (inst : Option (Fin 64)) (pipe : Fin 4) (buf : Fin 4)
  /-- R383. The frame start leaves 1 µs of its lock target and LOCKED clears. -/
  | dpyLockLoss (pipe : Fin 4)
  /-- R386. GO in DPY_PIPE_SIDE sends a DP AUX command or DSI packet. -/
  | sideGo (m : Master) (inst : Option (Fin 64)) (pipe : Fin 4) (v : BitVec 32)
  /-- R386. The side-channel transfer ends and GO clears. -/
  | sideDone (pipe : Fin 4) (data : List Byte)
  /-- R379. An HPD or IRQ_HPD on a DisplayPort port raises HPD. -/
  | hpdEvent (pipe : Fin 4)
  /-- R399. A read of HBM, LPDDR or SEC-DED storage returns data, correcting or poisoning and recording errors. -/
  | memoryRead (m : Master) (inst : Option (Fin 64)) (addr : BitVec 64) (len : Fin 4097) (err : Fin 11) (off : Fin 4096) (syn : BitVec 16)
  /-- R400. A full or partial granule write replaces or merges data, keeping poison where found. -/
  | memoryWrite (m : Master) (inst : Option (Fin 64)) (addr : BitVec 64) (data : List Byte) (poison : Bool) (err : Fin 3) (off : Fin 4096) (syn : BitVec 16)
  /-- R403. The patrol scrubber reads its next granule and corrects or poisons it. -/
  | scrubRead (addr : BitVec 64) (err : Fin 3) (syn : BitVec 16)
  /-- R402. A scrub pass unfinished at 125 % of its period sets SCRUB_LATE and records class N. -/
  | scrubLate (kind : Fin 3)
  /-- R417. A request enters its master port, is stamped with its deadline and enters its label's hold queue. -/
  | fabricRequestIssue (port : Fin 32) (label : Fin 256) (m : Master) (inst : Option (Fin 64)) (addr : BitVec 64) (bytes : BitVec 13) (write : Bool) (deadline : Option (BitVec 16))
  /-- R420. The regulator releases the head request of a label once its tokens allow. -/
  | regulatorRelease (port : Fin 32) (label : Fin 256)
  /-- R426. A latency-critical request completes at its port and is judged against its deadline. -/
  | requestComplete (port : Fin 32) (label : Fin 256) (cause : Fin 5)
  /-- R426. At the end of a FLOOR_WIN window a backlogged port below its floor counts a floor miss. -/
  | floorWindowEnd (port : Fin 32) (label : Fin 256)
  /-- R430. A link failing replay 16 times retrains and resets sender credits. -/
  | linkRetrain (link : Fin 46)
  /-- R431. Every 1 ms the audit engine sends markers to snapshot every ledger, or counts a skip. -/
  | auditStart
  /-- R431. All markers have arrived and each valid ledger's sum is compared with its constant. -/
  | auditComplete
  /-- R431. An audit not complete within 200 µs sets AUDIT_LATE and records class N. -/
  | auditLate
  /-- R434. A write clears VALID of FAB_MISS_CAPTURE. -/
  | fabMissClr (m : Master) (inst : Option (Fin 64)) (v : BitVec 32)
  /-- R440. A cluster enters or leaves RETENTION or OFF, waking after its admission grant. -/
  | clusterStateChange (cluster : Fin 6) (st : Fin 3)
  /-- R451. A write of ATU_INV starts an invalidation of the selected scope. -/
  | atuInv (m : Master) (inst : Option (Fin 64)) (w : BitVec 64)
  /-- R451. Matching entries are removed and requests using them completed; BUSY clears. -/
  | atuInvDone
  /-- R470. RESET raises the generation and runs the instance reset sequence. -/
  | instanceReset (m : Master) (inst : Fin 64)
  /-- R470. REMOVE runs the reset sequence, disables queues and ends ABSENT. -/
  | instanceRemove (m : Master) (inst : Fin 64)
  /-- R445. ADD returns an ABSENT instance to READY with its generation raised. -/
  | instanceAdd (m : Master) (inst : Fin 64)
  /-- R470. Every request of the old generation has completed or been dropped; the instance becomes READY or ABSENT. -/
  | resetDrainDone (inst : Fin 64)
  /-- R452. A partner port link trains and comes up. -/
  | pcieLinkUp (port : Fin 4) (gen : Fin 8) (width : Fin 4) (flit : Bool)
  /-- R458. Link down or Hot Reset resets every VF instance of the port and fails outstanding requests. -/
  | pcieLinkDown (port : Fin 4)
  /-- R458. An FLR of a VF runs the reset sequence for its instance. -/
  | pcieFlr (port : Fin 4) (vf : Fin 64)
  /-- R458. Clearing or setting VF Enable or NumVFs removes or adds the affected instances. -/
  | vfEnableChange (port : Fin 4) (enable : Bool) (num : Fin 65)
  /-- R459. An inbound TLP is mapped to an instance, translated and issued, or answered UR/CA or dropped. -/
  | pcieInboundRequest (port : Fin 4) (fn : Fin 256) (rid : BitVec 16) (bar : Fin 3) (kind : Fin 5) (addr : BitVec 64) (len : Fin 4097) (data : List Byte) (ep : Bool) (tag : BitVec 14)
  /-- R456. An access to a partner window leaves as a TLP with the right requester ID and EP bit. -/
  | pcieOutboundRequest (m : Master) (inst : Option (Fin 64)) (port : Fin 4) (write : Bool) (addr : BitVec 40) (len : Fin 4097) (data : List Byte) (poison : Bool)
  /-- R453. An outbound non-posted request without completion within CTO ends in an error response. -/
  | pcieCompletionTimeout (port : Fin 4) (tag : BitVec 14)
  /-- R455. GO in PCI_CFG_ADDR sends a configuration request as root port. -/
  | pciCfgGo (m : Master) (port : Fin 4) (v : BitVec 32) (write : Bool)
  /-- R465. A doorbell advances TAIL or HEAD of a queue after its judgement. -/
  | hqmDoorbell (m : Master) (inst : Option (Fin 64)) (gen : BitVec 16) (v : BitVec 64)
  /-- R466. A hardware producer posts an entry, written and then TAIL advanced, or refused or discarded. -/
  | hqmPost (qid : Fin 524288) (gen : BitVec 16) (data : List Byte)
  /-- R466. A producer refused by a full queue posts again once HEAD advances. -/
  | hqmPostRetry (qid : Fin 524288)
  /-- R462. ENABLE takes a queue table entry into effect, or is refused. -/
  | qcmdEnable (m : Master) (inst : Option (Fin 64)) (qid : Fin 524288)
  /-- R462. DISABLE disables an empty queue, or is refused. -/
  | qcmdDisable (m : Master) (inst : Option (Fin 64)) (qid : Fin 524288)
  /-- R466. CLEAR_FAULT clears a FAULTED queue. -/
  | qcmdClearFault (m : Master) (inst : Option (Fin 64)) (qid : Fin 524288)
  /-- R478. REFCLK_100 out of range for 1 µs records class S and sets holding REFCLK. -/
  | refclkLoss
  /-- R478. REFCLK_100 back in range for 1 ms clears the REFCLK holding condition. -/
  | refclkRecover
  /-- R478. PTP_REFIN out of range for 10 µs records class D and moves the PTP PLL to REFCLK_100 in holdover. -/
  | ptpRefinFail
  /-- R568. PTP_REFIN in range for 1 ms moves the PTP PLL back and clears HOLDOVER. -/
  | ptpRefinRecover
  /-- R478. SAFE_XIN out of range for 2 µs records class L and moves the collector to the ring oscillator. -/
  | safeXinFail
  /-- R483. A pair comparator mismatch stops both copies, records class S or D and starts a retest. -/
  | lockstepMismatch (pair : Fin 6) (point : Fin 4) (bit : Fin 2048) (pc : BitVec 32)
  /-- R483. A pair's retest ends; it restarts with a0 = 1 or becomes FAILED. -/
  | pairRetestDone (pair : Fin 6) (pass : Bool)
  /-- R513. RETEST in TWN_PAIR_CTRL resets and tests a running or halted pair. -/
  | retest (m : Master) (pair : Fin 6)
  /-- R485. Disagreeing sampler chains are resolved by exchange and vote, or take 0 with class D. -/
  | inputVote (pair : Fin 6) (input : BitVec 16) (rounds : List (Bool × Bool))
  /-- R486. After SAFE reset release the sequencer tests SAFE_XIN, SRAM, comparators and samplers. -/
  | startupTest
  /-- R486. Passing pairs start, failing ones become FAILED, and TEST_DONE is set. -/
  | startupTestDone (pass : BitVec 6)
  /-- R488. A debugger's first access to a pair breaks its lockstep and records a fault. -/
  | debugSplit (pair : Fin 6)
  /-- R493. A fault event reaches the collector, is classified, recorded and drives the class states and pins. -/
  | faultEvent (rail : BitVec 2) (src : Fin 64) (cls access : Fin 8) (m : Master) (unit : BitVec 16) (info : BitVec 32) (addr : BitVec 64)
  /-- R495. QUIET ms without a class D fault ends class D. -/
  | classDExit
  /-- R496. Class S exits when quiet, unheld and permitted, or escalates to class L on the ninth exit within an hour. -/
  | classSExit
  /-- R496. An S_EXIT write requests the class S exit, or is refused. -/
  | sExit (m : Master)
  /-- R499. ALIVE_START starts ALIVE toggling, or is refused. -/
  | aliveStart (m : Master)
  /-- R499. Each ALIVE_HALF the pins toggle, unless a class S or L fault stops them. -/
  | aliveEdge
  /-- R499. The FAULT_CLASS hold after an N or C fault ends. -/
  | fcHoldExpire
  /-- R500. A KICK from an eligible pair restarts the island watchdog. -/
  | kick (m : Master)
  /-- R500. KICK_LIMIT µs without a kick records class S and restarts the interval. -/
  | islandWatchdogExpire
  /-- R500. A write of FLT_FWP_HB marks a heartbeat of the writing processor. -/
  | fwpHeartbeat (m : Master)
  /-- R500. HB_LIMIT ms without a heartbeat declares the processor dead and records class D. -/
  | heartbeatMiss (proc : Fin 6)
  /-- R501. A write of FLT_SW_REPORT records a software-reported fault. -/
  | swReport (m : Master) (data : BitVec 64)
  /-- R494. CLR_FIRST clears VALID of every first capture. -/
  | clrFirst (m : Master)
  /-- R503. A TAIL write consumes alarm records, after which a fold summary may be written. -/
  | alarmTailWrite (m : Master) (v : BitVec 9)
  /-- R506. The two-write unlock sequence unlocks the Awl, or sets UNLOCK_ERR. -/
  | awlUnlock (m : Master) (data : BitVec 32)
  /-- R506. 1 ms after an unlock without GO the Awl locks again. -/
  | awlUnlockTimeout
  /-- R507. GO starts an injection run on the target checker. -/
  | go (m : Master) (data : BitVec 32)
  /-- R507. The named checker's next check receives the injected fault with every real effect. -/
  | awlInjection (m : Master) (addr : BitVec 64) (point : Fin 4) (pc : BitVec 32)
  /-- R507. A run whose checker makes no check within 1 s ends without injecting. -/
  | awlRunTimeout
  /-- R509. A unit declared dead has its incarnation raised and issues nothing until old requests drain. -/
  | incarnationRaise (proc : Fin 6)
  /-- R599. PORST_N low or SAFE-rail undervoltage resets everything, including fuses, PUF and class L. -/
  | powerOnReset
  /-- R599. RESET_N or a COLD request resets all but fuse state and starts the start order. -/
  | coldReset (by_ : Option Master)
  /-- R601. An ISLAND reset records class S, resets the SAFE domain and reloads the island. -/
  | islandReset (m : Master)
  /-- R599. TRST_N or five TMS-high cycles reset the TAP. -/
  | tapReset
  /-- R522. The chosen image is read and checked by header, key hash, SVN, both signatures and segments. -/
  | imageVerify (readErr : Bool)
  /-- R531. FWP-BOOT checks the whole configuration record before applying it. -/
  | configRecordCheck
  /-- R532. Sections are applied, the collector applies TWN, FLT and AWL entries, and CFG_LOADED is set. -/
  | configRecordApply (cells : List (BitVec 17)) (images : List (List Byte))
  /-- R525. With no slot booting the ROM enters RECOVERY and serves mailbox 60 on port 0. -/
  | recoveryEnter
  /-- R536. GO on a mailbox hands the request to its handler, or answers BUSY or OVERRUN. -/
  | mbxGo (m : Master) (inst : Option (Fin 64)) (mbx : Fin 64)
  /-- R535. Writing 1 to DONE frees the mailbox for the next request. -/
  | mbxDone (m : Master) (inst : Option (Fin 64)) (mbx : Fin 64)
  /-- R535. The handler writes the response, sets DONE and sends the notification. -/
  | mbxResponse (mbx : Fin 64)
  /-- R540. HELLO negotiates major, minor and features. -/
  | hello (mbx : Fin 64)
  /-- R542. GET_INFO returns identity, slot, phase and build data. -/
  | getInfo (mbx : Fin 64)
  /-- R542. IMAGE_WRITE writes data into the non-running slot, first marking it BAD. -/
  | imageWrite (mbx : Fin 64)
  /-- R542. IMAGE_COMMIT verifies the written image and marks it TRIAL, optionally rebooting. -/
  | imageCommit (mbx : Fin 64)
  /-- R542. IMAGE_CONFIRM marks the running slot GOOD and may raise the SVN floor. -/
  | imageConfirm (mbx : Fin 64)
  /-- R542. FWP_RESTART requests a restart of a firmware processor. -/
  | fwpRestart (mbx : Fin 64)
  /-- R542. LOG_READ returns log entries of a processor. -/
  | logRead (mbx : Fin 64)
  /-- R542. TRACE_SET sets trace enable bits of a processor. -/
  | traceSet (mbx : Fin 64)
  /-- R542. PROFILE_SET asks FWP-PWR for a profile change. -/
  | profileSet (mbx : Fin 64)
  /-- R542. PROFILE_GET returns SYS_STATUS. -/
  | profileGet (mbx : Fin 64)
  /-- R542. CLICK_SET sets PRIO and WANT of a best-effort clicking. -/
  | clickSet (mbx : Fin 64)
  /-- R542. SLOT_SET configures a release slot. -/
  | slotSet (mbx : Fin 64)
  /-- R542. QUEUE_CTRL enables, disables or clears a hardware queue. -/
  | queueCtrl (mbx : Fin 64)
  /-- R542. S2_SET writes an instance's stage-2 root. -/
  | s2Set (mbx : Fin 64)
  /-- R542. INSTANCE_CTRL resets, removes or adds an instance. -/
  | instanceCtrl (mbx : Fin 64)
  /-- R542. PTP_STEP accepts or rejects a pending PTP step. -/
  | ptpStep (mbx : Fin 64)
  /-- R542. LINK_STATUS returns the status of the four partner ports. -/
  | linkStatus (mbx : Fin 64)
  /-- R542. FAULT_READ returns the captures and FLT_STATE of a class. -/
  | faultRead (mbx : Fin 64)
  /-- R542. MODEL_INSTALL starts installing a model image into the hot set. -/
  | modelInstall (mbx : Fin 64)
  /-- R542. MODEL_EVICT evicts a model. -/
  | modelEvict (mbx : Fin 64)
  /-- R542. MODEL_PIN pins or unpins a model. -/
  | modelPin (mbx : Fin 64)
  /-- R542. MODEL_SWITCH switches a clicking to a model. -/
  | modelSwitch (mbx : Fin 64)
  /-- R542. MODEL_STATUS returns the state of a model entry. -/
  | modelStatus (mbx : Fin 64)
  /-- R543. A dead processor's incarnation is raised, old requests drained, and it is reset and self-tested. -/
  | fwpProcessorRestart (proc : Fin 6)
  /-- R543. The reloaded processor reads its ledgers and returns to RUN, or is fenced after three failures. -/
  | fwpRestartDone (proc : Fin 6) (pass : Bool)
  /-- R549. SELFTEST starts the SELFTEST phase, which ends with SELFTEST_DONE. -/
  | selftest (m : Option Master)
  /-- R546. The log port writes an entry, replacing the oldest with a GAP entry when full. -/
  | logEntryWrite (proc : Fin 6) (kind level : Fin 4) (code : BitVec 16) (args : BitVec 128)
  /-- R546. A write of FWP_LOG_TAIL consumes entries, or is ignored with TAIL_STALE. -/
  | logTailWrite (m : Master) (proc : Fin 6) (v : BitVec 32)
  /-- R547. A new 1 ms trace window starts, admitting a TRACE_DROP entry after drops. -/
  | traceWindow (proc : Fin 6)
  /-- R551. A MAC receives a frame, checks it, stamps it and hands it to the switch. -/
  | ethFrameReceive (mac : Fin 16) (frame : List Byte) (secOk pass : Bool)
  /-- R555. A TX entry is read and sent, and its status written back before HEAD advances. -/
  | hostChannelTx (chan : Fin 64)
  /-- R559. A queued frame starts transmission when its gate is open and it fits before the close. -/
  | ethFrameTransmit (port : Fin 18) (cls : Fin 8) (preempted : Bool)
  /-- R559. A gate control list interval ends and the next entry's gate states apply. -/
  | gateIntervalExpire (port : Fin 14)
  /-- R559. SWAP makes the admin list the oper list at the first cycle start after CONFIG_TIME. -/
  | gclSwap (m : Master) (port : Fin 14)
  /-- R559. At the cycle start the pending admin list becomes the oper list. -/
  | gclSwapApply (port : Fin 14)
  /-- R571. A read of the first word of ETH_PORT_TXTS removes the FIFO entry. -/
  | ethPortTxtsRead (m : Master) (port : Fin 16) (wide : Bool)
  /-- R559. A MAC link goes up or down; at down its queued frames are dropped. -/
  | ethLinkChange (mac : Fin 16) (up : Bool)
  /-- R552. GO in ETH_MDIO performs a Clause 22 or 45 access. -/
  | mdioGo (m : Master) (v : BitVec 32)
  /-- R579. GO in ETH_TBL_ADDR reads or writes a switch table entry, refused during a pending swap. -/
  | ethTblGo (m : Master) (table : Fin 16) (index : BitVec 16)
  /-- R563. A write of PTP_CLK_INC changes the increment at the next edge, or is refused. -/
  | ptpClkIncWrite (m : Master) (inst : Option (Fin 64)) (clk : Fin 4) (v : BitVec 64)
  /-- R564. A write of PTP_CLK_ADJ starts a slew spread over TICKS edges, or is refused. -/
  | ptpClkAdjWrite (m : Master) (inst : Option (Fin 64)) (clk : Fin 4) (v : BitVec 64)
  /-- R564. The last slew tick completes the offset and ADJ_DONE is raised. -/
  | ptpSlewDone (clk : Fin 4)
  /-- R565. A write of PTP_CLK_STEP schedules a step or holds it pending beyond the limit. -/
  | ptpClkStepWrite (m : Master) (inst : Option (Fin 64)) (clk : Fin 4) (v : BitVec 64)
  /-- R565. At the next PTP_CLK edge an accepted step or set is applied, moving TIME axes and schedules. -/
  | ptpStepApply (clk : Fin 4)
  /-- R565. ACCEPT applies the pending step at the next edge. -/
  | accept (m : Master) (inst : Option (Fin 64)) (clk : Fin 4) (both : Bool)
  /-- R565. REJECT discards the pending step. -/
  | reject (m : Master) (inst : Option (Fin 64)) (clk : Fin 4)
  /-- R566. A write of PTP_CLK_SET_NS applies a set as a step, or the first set whatever its size. -/
  | ptpClkSet (m : Master) (inst : Option (Fin 64)) (clk : Fin 4) (ns : BitVec 30)
  /-- R569. PPS_OUT pulses when its clock reaches a whole second plus OFFSET. -/
  | ppsOutPulse
  /-- R569. A selected PPS_IN edge is stamped on its clock and raises PPS_IN. -/
  | ppsInEdge (level : Bool)
  /-- R575. A valid CAN frame is stamped, filtered to a channel or the gateway, or discarded. -/
  | canFrameReceive (ctrl : Fin 16) (buf : List Byte)
  /-- R576. A controller offers its lowest-ID buffer to arbitration and sends or retransmits it. -/
  | canFrameTransmit (ctrl : Fin 16) (outcome : Fin 3)
  /-- R576. A controller enters bus-off and records class D. -/
  | canBusOff (ctrl : Fin 16)
  /-- R576. After 128 × 11 recessive bits an AUTO_RECOVER controller leaves bus-off. -/
  | canBusOffRecovery (ctrl : Fin 16)
  /-- R581. RECOVER requests bus-off recovery. -/
  | recover (m : Master) (ctrl : Fin 16)
  /-- R578. A gateway stream sends its NTSCF frame when full or HOLD after its first message. -/
  | ntscfFrameSend (stream : Fin 64)
  /-- R585. A rail outside tolerance records class D or S, or a SAFE-rail undervoltage forces POWER_ON. -/
  | railDeparture (rail : Fin 14) (mv : BitVec 12)
  /-- R585. A group 3 rail not in tolerance 10 ms after PWRGRP3_EN records class L and stops boot. -/
  | group3RailTimeout
  /-- R588. An operation requests tokens and slew credit on an admission rail. -/
  | admissionRequest (kind : Fin 7) (unit : Fin 256)
  /-- R588. A queued request is granted once both its rail and parent have tokens and credit. -/
  | admissionGrant
  /-- R589. A wait beyond PWR_WAIT_LIMIT raises WAIT_LONG and records class N. -/
  | admissionWaitLong
  /-- R587. An operation's tokens return to its rail. -/
  | tokenReturn (kind : Fin 7) (unit : Fin 256)
  /-- R591. FWP-PWR requests a profile change, which is checked and started or refused. -/
  | profileReq (m : Master) (profile : Fin 8)
  /-- R592. Best-effort cells of gated panels and the harts are drained; the panels are gated. -/
  | profileDrainDone (wfi : Bool)
  /-- R593. WAIT_MS expires in step 2: tasks are aborted or the change is cancelled. -/
  | profileWaitTimeout
  /-- R583. An AVS rail reaches its new voltage at 1 mV/µs. -/
  | voltageRampDone
  /-- R592. The PANEL clocks reach the new frequency. -/
  | clockSlewDone
  /-- R387. An HBM stack retrains and releases its held accesses. -/
  | hbmRetrainDone (stack : Fin 4)
  /-- R592. A woken panel passes its wake check and its ledgers become VALID. -/
  | panelWakeDone (panel : Fin 16) (fail : BitVec 16)
  /-- R592. The new profile is set as TRANSITION clears and PROFILE_DONE is raised. -/
  | profileDone
  /-- R595. A PLL losing lock stops its domain and records class D or S. -/
  | pllLockLoss (dom : Fin 48)
  /-- R595. FWP-PWR relocks the PLL and restarts the domain. -/
  | pllRelock (dom : Fin 48)
  /-- R598. Every 10 µs the sensors are read and the governor applies warnings, throttling and trips. -/
  | thermalSample (readings : List (BitVec 17))
  /-- R598. Every 100 µs a throttled clock is lowered one step. -/
  | clockThrottleStep (clk : Fin 22)
  /-- R598. Every 1 ms after its cause has cooled a lowered clock is raised one step. -/
  | clockRaiseStep (clk : Fin 22)
  /-- R604. GO in SEC_FUSE_PROG blows a fuse bit and reads it back. -/
  | fuseProg (m : Master) (b : BitVec 12) (readsBack : Bool)
  /-- R610. UNWRAP loads a key slot from a wrapped key, or fails. -/
  | keyUnwrap (m : Master) (slot : Fin 16)
  /-- R610. CLEAR empties a key slot, unless an enabled window names it. -/
  | keyClear (m : Master) (slot : Fin 16)
  /-- R611. Enabling a decryption window is accepted or ignored with WIN_ERR. -/
  | secWinWrite (m : Master) (w : Fin 64) (v : BitVec 32)
  /-- R616. A read of SEC_PK_CLAIM claims the public-key engine when free. -/
  | pkClaim (m : Master)
  /-- R616. The holder releases the engine and its data area is cleared. -/
  | pkRelease (m : Master)
  /-- R613. Operation 0x01 signs a hash with P-256. -/
  | ecdsaSignP256 (m : Master) (keysrc : Bool)
  /-- R613. Operation 0x02 signs a hash with P-384. -/
  | ecdsaSignP384 (m : Master) (keysrc : Bool)
  /-- R613. Operation 0x03 verifies a P-256 signature. -/
  | ecdsaVerifyP256 (m : Master) (keysrc : Bool)
  /-- R613. Operation 0x04 verifies a P-384 signature. -/
  | ecdsaVerifyP384 (m : Master) (keysrc : Bool)
  /-- R613. Operation 0x05 computes P-256 ECDH. -/
  | ecdhP256 (m : Master) (keysrc : Bool)
  /-- R613. Operation 0x06 computes P-384 ECDH. -/
  | ecdhP384 (m : Master) (keysrc : Bool)
  /-- R613. Operation 0x07 computes d × G on P-256. -/
  | keygenP256 (m : Master) (keysrc : Bool)
  /-- R613. Operation 0x08 computes d × G on P-384. -/
  | keygenP384 (m : Master) (keysrc : Bool)
  /-- R613. Operation 0x09 computes X25519. -/
  | x25519 (m : Master) (keysrc : Bool)
  /-- R613. Operation 0x0A verifies an ML-DSA-65 signature. -/
  | mlDsa65Verify (m : Master) (keysrc : Bool)
  /-- R613. Operation 0x0B decapsulates an ML-KEM-768 ciphertext. -/
  | mlKem768Decapsulation (m : Master) (keysrc : Bool)
  /-- R615. A reserved OP completes at once with BAD_OP. -/
  | badOp (m : Master) (op : BitVec 8)
  /-- R615. After its fixed time the operation writes outputs and result and raises PK_DONE. -/
  | pkComplete
  /-- R617. NEW_CHAL places a fresh debug challenge in SEC_DBG_CHAL. -/
  | newChal (m : Master)
  /-- R617. SUBMIT checks the debug key and signature and sets DEBUG_UNLOCKED or counts a failure. -/
  | submit (m : Master) (key : BitVec 776) (r sg : BitVec 384)
  /-- R633. EXTEST takes control of the balls when unlocked, recording class S, or acts as BYPASS. -/
  | extest (data : BitVec 4164)
  /-- R632. SAMPLE/PRELOAD samples and preloads the boundary register. -/
  | samplePreload (data : BitVec 4164)
  /-- R635. IDCODE selects the device identification register. -/
  | idcode
  /-- R633. CLAMP holds the boundary outputs when unlocked. -/
  | clamp
  /-- R633. HIGHZ floats the outputs when unlocked. -/
  | highz
  /-- R631. EXTEST_PULSE drives AC test pulses on 1149.6 lanes when unlocked. -/
  | extestPulse (data : BitVec 4164)
  /-- R631. EXTEST_TRAIN drives a 1 MHz train on 1149.6 lanes when unlocked. -/
  | extestTrain (data : BitVec 4164)
  /-- R632. ECIDCODE selects the 64-bit chip ID register. -/
  | ecidcode
  /-- R634. DBG_AUTH carries debug challenge and submission commands through the TAP. -/
  | dbgAuth (data : BitVec 1552)
  /-- R634. DBG_PAIR accesses a pair's debug module when unlocked, splitting it on first access. -/
  | dbgPair (data : BitVec 44)
  /-- R632. BYPASS, and every unlisted opcode, selects the bypass register. -/
  | bypass (op : BitVec 12)
  /-- R627. A write of UART DATA queues a byte for transmission. -/
  | uartTxByte (m : Master) (unit : Fin 4) (data : Byte)
  /-- R626. A byte received on a UART enters its FIFO or sets overrun. -/
  | uartRxByte (unit : Fin 4) (data : Byte)
  /-- R627. GO starts an I²C controller transfer. -/
  | i2cCmdGo (m : Master) (unit : Fin 4) (v : BitVec 32)
  /-- R627. A write of SPI DATA starts a SPI word transfer. -/
  | spiDataWrite (m : Master) (unit : Fin 4) (v : BitVec 32)
  /-- R627. An edge on a GPIO input sets its interrupt status. -/
  | gpioEdge (pin : Fin 64) (level : Bool)
  /-- R627. GO starts an xSPI flash command. -/
  | xspiCmdGo (m : Master) (unit : Fin 2) (v : BitVec 32)
  /-- R627. A UFS doorbell bit submits a command slot. -/
  | ufsDoorbell (m : Master) (v : BitVec 32)
  /-- R627. A UFS command completes and sets its completion bit. -/
  | ufsCompletion (slot : Fin 32)
  /-- R103. A camera port receiver gains or loses sync on its lanes or trios, or completes deskew calibration, changing SFE_PORT_STATUS.SYNC and DESKEW. -/
  | phySyncChange (port : Fin 16) (sync deskew : Bool)
  /-- R430. A retraining fabric link finishes training, replays its unacknowledged flits and resets the sender credits to the receiver's free entries. -/
  | fabricLinkRetrainDone (link : Fin 46)
  /-- R478. SAFE_XIN comes back within range and CKG_REF_STATUS shows the return, while the collector stays on the ring oscillator. -/
  | safeXinReturn
  /-- R585. A supply rail comes within its tolerance, clearing its LOW or HIGH monitor flag and, for group 3 after PWRGRP3_EN, letting boot continue at step 6. -/
  | railWithinTolerance (rail : Fin 14) (mv : BitVec 12)
  /-- R456. A completion TLP from the link partner answers an outbound read or configuration request, returning data or error to the master, or is discarded as stale-generation. -/
  | pcieInboundCompletion (port : Fin 4) (tag : BitVec 14) (err ep : Bool) (data : List Byte)
  /-- R552. An MDIO access ends, its read data is stored and GO in ETH_MDIO clears. -/
  | mdioAccessDone (data : BitVec 16)
  /-- R627. An I²C transfer ends, setting NACK if the device did not acknowledge, and BUSY clears. -/
  | i2cTransferDone (unit : Fin 4) (nack : Bool) (data : List Byte)
  /-- R627. A SPI word transfer ends, the received word is in DATA and BUSY clears. -/
  | spiTransferDone (unit : Fin 4) (v : BitVec 32)
  /-- R627. An xSPI flash command ends, its data buffer is filled or written and GO clears. -/
  | xspiCommandDone (unit : Fin 2) (data : List Byte)
  deriving DecidableEq, Repr

end Sys2Proof
end

