-- ==== Sys2Proof/Config.lean ====
section
/-! DEFINITION. What the spec leaves open. Each constant has no body, so no statement can rest on its value; a meaning
that needs a fresh open value applies one to State.free and advances it. -/

namespace Sys2Proof.Config

/-- A fresh open value: bits the spec does not state (a random challenge, a nonce, a value read at a case the spec gives
no value for). The argument is the running count State.free. -/
opaque freeValue : Nat → Nat

/-- The 256-bit key that the unclonable function gives a part (R609): no master can read it. -/
opaque pufKey : Nat

/-- Whether the unclonable function reconstructs its key at power-on n (R609). -/
opaque pufReconstructs : Nat → Bool

/-- Where FWP-MODEL puts the relocated kernel descriptors of a model in the MHS area (R303): an address it chooses. -/
opaque kernelCopies : Nat → Nat

/-- The constant of a ledger that the spec does not give as a number (R428). -/
opaque ledgerConst : Nat → Nat

/-- The private key that the part derives from its unclonable key under the label ZH8-DEVID (R609): a P-384 scalar; the spec
does not give how the output of HKDF becomes a scalar. -/
opaque deviceKey : Nat

/-- The FP32 value that the texture unit returns for an 8-bit component of an SRGB8_4 texel (R371); the spec names the format and
gives no values. -/
opaque srgbToLinear : Nat → BitVec 32

end Sys2Proof.Config
end

