-- ==== Sys2Proof/Machine/Bits.lean ====
section
/-! DEFINITION. Bit fields, byte order and sign extension on plain numbers, shared by every meaning. -/

namespace Sys2Proof.Machine

/-- Bits hi to lo of x as a number (00_scope.md, bit ranges are written [msb:lsb]). -/
def bitsOf (x hi lo : Nat) : Nat := (x >>> lo) % 2 ^ (hi + 1 - lo)

/-- Bit n of x. -/
def bitOf (x n : Nat) : Bool := (x >>> n) % 2 == 1

/-- x with bits hi to lo replaced by the low bits of v. -/
def setBitsOf (x hi lo v : Nat) : Nat :=
  let w := hi + 1 - lo
  (x >>> (hi + 1)) <<< (hi + 1) ||| ((v % 2 ^ w) <<< lo) ||| x % 2 ^ lo

/-- 1 for true, 0 for false. -/
def b2n (b : Bool) : Nat := if b then 1 else 0

/-- The two's-complement reading of the low w bits of x (R14). -/
def toSigned (w x : Nat) : Int :=
  let m := x % 2 ^ w
  if m < 2 ^ (w - 1) then (m : Int) else (m : Int) - (2 ^ w : Nat)

/-- The w-bit two's-complement pattern of an integer (R14: arithmetic wraps modulo 2^w). -/
def ofSigned (w : Nat) (x : Int) : Nat := (x % (2 ^ w : Nat)).toNat

/-- The n bytes of x, least significant first (R4: little-endian). -/
def leBytes : Nat → Nat → List Byte
  | 0, _ => []
  | n + 1, x => BitVec.ofNat 8 x :: leBytes n (x >>> 8)

/-- The number whose bytes, least significant first, are given. -/
def leNat : List Byte → Nat
  | [] => 0
  | b :: bs => b.toNat + 256 * leNat bs

/-- The n bytes of x, most significant first (network order). -/
def beBytes (n x : Nat) : List Byte := (leBytes n x).reverse

/-- The number whose bytes, most significant first, are given. -/
def beNat (l : List Byte) : Nat := leNat l.reverse

/-- n zero bytes. -/
def zeroBytes (n : Nat) : List Byte := List.replicate n 0

/-- The n bytes of l from offset o; bytes past the end read 0. -/
def sliceBytes (l : List Byte) (o n : Nat) : List Byte :=
  let r := (l.drop o).take n
  r ++ zeroBytes (n - r.length)

/-- The little-endian number in the n bytes of l at offset o. -/
def leAt (l : List Byte) (o n : Nat) : Nat := leNat (sliceBytes l o n)

/-- The big-endian number in the n bytes of l at offset o. -/
def beAt (l : List Byte) (o n : Nat) : Nat := beNat (sliceBytes l o n)

/-- Rounds x up to a multiple of m. -/
def roundUp (x m : Nat) : Nat := (x + m - 1) / m * m

/-- Quotient rounded up. -/
def ceilDiv (x m : Nat) : Nat := (x + m - 1) / m

/-- Saturating sum: x + y, at most the ceiling m. -/
def satAdd (x y m : Nat) : Nat := min (x + y) m

/-- A value held inside a range. -/
def clampNat (x lo hi : Nat) : Nat := max lo (min x hi)

/-- A value held inside a signed range. -/
def clampInt (x lo hi : Int) : Int := max lo (min x hi)

/-- The list with position n replaced, unchanged when n is past the end. -/
def setAt {α : Type} (l : List α) (n : Nat) (v : α) : List α := l.set n v

/-- The list with position n changed by f. -/
def modAt {α : Type} (l : List α) (n : Nat) (f : α → α) : List α :=
  match l[n]? with
  | some v => l.set n (f v)
  | none => l

/-- The numbers of a list in rising order without repeats: insertion of one. -/
def insertNat (x : Nat) : List Nat → List Nat
  | [] => [x]
  | y :: r => if x < y then x :: y :: r else if x = y then y :: r else y :: insertNat x r

/-- The positions of the bits set among bits 0 to n - 1, rising. -/
def setBitsList (n x : Nat) : List Nat := (List.range n).filter fun k => bitOf x k

/-- How many of the bits 0 to n - 1 are set. -/
def popCount (n x : Nat) : Nat := (setBitsList n x).length

end Sys2Proof.Machine
end

