-- ==== Sys2Proof/Machine/RegDesc.lean ====
section
/-! DEFINITION. How a register table of the spec is written down: field access types (R10), widths, reset values, and
where in a block a register lies. The tables themselves are in the RegMap files. -/

namespace Sys2Proof.Machine

/-- The access types of R10, and ld: RO and loaded from the configuration record (R528). -/
inductive Acc where
  | rw | ro | w1c | w1s | wo | ld | shd
  deriving DecidableEq, Repr

/-- One field: bits hi to lo of its register, its access type and its reset value (R10, R13). -/
structure Fld where
  hi : Nat
  lo : Nat
  acc : Acc
  rst : Nat
  deriving DecidableEq, Repr

/-- One register or an array of registers: first offset in the block, up to two strides with their counts, the width in
bits, whether it is a buffer, data or operand area (accessed word by word, R7), and its fields. -/
structure RegDesc where
  off : Nat
  s1 : Nat
  n1 : Nat
  s2 : Nat
  n2 : Nat
  bits : Nat
  area : Bool
  flds : List Fld
  deriving DecidableEq, Repr

/-- A single register. -/
def reg1 (off bits : Nat) (flds : List Fld) : RegDesc := ⟨off, 0, 1, 0, 1, bits, false, flds⟩

/-- An array of n registers with stride s. -/
def regN (off s n bits : Nat) (flds : List Fld) : RegDesc := ⟨off, s, n, 0, 1, bits, false, flds⟩

/-- An array of n1 groups of n2 registers. -/
def regNN (off s1 n1 s2 n2 bits : Nat) (flds : List Fld) : RegDesc := ⟨off, s1, n1, s2, n2, bits, false, flds⟩

/-- A buffer, data or operand area of n1 items of the given width, stride s (R7: each word on its own). -/
def regArea (off s n bits : Nat) (acc : Acc) : RegDesc := ⟨off, s, n, 0, 1, bits, true, [⟨bits - 1, 0, acc, 0⟩]⟩

/-- A field of each access type. -/
def rw (hi lo : Nat) (rst : Nat := 0) : Fld := ⟨hi, lo, .rw, rst⟩
def ro (hi lo : Nat) (rst : Nat := 0) : Fld := ⟨hi, lo, .ro, rst⟩
def w1c (hi lo : Nat) : Fld := ⟨hi, lo, .w1c, 0⟩
def w1s (hi lo : Nat) : Fld := ⟨hi, lo, .w1s, 0⟩
def wo (hi lo : Nat) : Fld := ⟨hi, lo, .wo, 0⟩
def ld (hi lo : Nat) (rst : Nat := 0) : Fld := ⟨hi, lo, .ld, rst⟩
def shd (hi lo : Nat) (rst : Nat := 0) : Fld := ⟨hi, lo, .shd, rst⟩

/-- Where offset o falls in descriptor d: the indices in its two dimensions and the byte within the register. -/
def RegDesc.locate (d : RegDesc) (o : Nat) : Option (Nat × Nat × Nat) :=
  if o < d.off then none
  else
    let q := o - d.off
    let i := if d.n1 ≤ 1 then 0 else q / d.s1
    let q1 := if d.n1 ≤ 1 then q else q % d.s1
    let j := if d.n2 ≤ 1 then 0 else q1 / d.s2
    let q2 := if d.n2 ≤ 1 then q1 else q1 % d.s2
    if decide (i < d.n1 ∨ (i = 0 ∧ d.n1 ≤ 1)) && decide (j < d.n2 ∨ (j = 0 ∧ d.n2 ≤ 1)) && decide (q2 * 8 < d.bits) then some (i, j, q2) else none

/-- The register of a block table at offset o, with its indices and the byte within it. -/
def findReg : List RegDesc → Nat → Option (RegDesc × Nat × Nat × Nat)
  | [], _ => none
  | d :: r, o =>
    match d.locate o with
    | some (i, j, b) => some (d, i, j, b)
    | none => findReg r o

/-- The reset value of a whole register, composed from its fields. -/
def fldsReset : List Fld → Nat
  | [] => 0
  | f :: r => ((f.rst % 2 ^ (f.hi + 1 - f.lo)) <<< f.lo) ||| fldsReset r

/-- The bits of the 32-bit word k of a register that have access type a. -/
def accMask (a : Acc) : List Fld → Nat
  | [] => 0
  | f :: r => (if f.acc = a then (2 ^ (f.hi + 1 - f.lo) - 1) <<< f.lo else 0) ||| accMask a r

end Sys2Proof.Machine
end

