-- ==== Sys2Proof/Machine/RegMapCompute.lean ====
section
/-! DEFINITION. Register tables of the SFE, CEL, CLC, MHS, RAS and DPY blocks (03_sensor_front_end.md R105, R106;
05_cells.md R176 to R178; 09_jobs_and_models.md R319 to R322; 11_raster_and_display.md R385, R386). -/

namespace Sys2Proof.Machine

/-- SFE (R105, R106). -/
def sfeRegs : List RegDesc := [
  reg1 0x0 32 [w1c 5 0],
  reg1 0x4 32 [rw 5 0],
  regN 0x10 4 4 32 [ro 25 16, ro 9 0],
  regN 0x100 0x10 16 32 [ld 31 16, ld 6 6, ld 5 4, ld 2 1, ld 0 0],
  regN 0x104 0x10 16 32 [ro 1 1, ro 0 0],
  regN 0x108 0x10 16 32 [ro 31 0],
  regN 0x10C 0x10 16 32 [ro 31 0],
  regN 0x200 8 16 32 [ro 31 0],
  regN 0x204 8 16 32 [ro 31 0],
  regN 0x1000 0x40 64 32 [ld 31 30, ld 29 28, ld 27 27, ld 26 26, ld 25 24, ld 23 16, ld 15 10, ld 9 9],
  regN 0x1004 0x40 64 32 [ld 24 16, ld 13 0],
  regN 0x1008 0x40 64 32 [ld 25 0],
  regN 0x100C 0x40 64 32 [ld 31 0],
  regN 0x1010 0x40 64 32 [ld 31 0],
  regN 0x1014 0x40 64 32 [wo 2 2, wo 1 1, w1s 0 0],
  regN 0x1018 0x40 64 32 [ro 15 8, w1c 7 3, ro 2 0],
  regN 0x101C 0x40 64 32 [wo 3 0],
  regN 0x1020 0x40 64 32 [ro 31 0],
  regN 0x1024 0x40 64 32 [ro 31 0],
  regN 0x1028 0x40 64 32 [ro 31 0],
  regN 0x102C 0x40 64 32 [ro 31 0],
  regN 0x1030 0x40 64 64 [ld 51 6, ld 3 0],
  regN 0x1038 0x40 64 32 [ro 11 0],
  regN 0x103C 0x40 64 32 [],
  regNN 0x3000 0x40 64 0x10 4 64 [ld 63 0],
  regNN 0x3008 0x40 64 0x10 4 64 [ld 63 0],
  regArea 0x10000 0x100 64 2048 .rw,
  regArea 0x20000 0x100 64 2048 .ro]

/-- CEL (R176, R177, R178). -/
def celRegs : List RegDesc := [
  reg1 0x0 32 [w1c 5 0],
  reg1 0x4 32 [rw 5 0],
  reg1 0x8 32 [rw 31 24 0x10, rw 23 16 4, rw 15 8 0x40, ld 0 0],
  reg1 0xC 32 [wo 8 0],
  reg1 0x10 32 [ro 15 8, ro 1 1, ro 0 0],
  reg1 0x14 32 [ro 31 0],
  reg1 0x18 32 [ro 31 0],
  reg1 0x1C 32 [wo 9 0],
  reg1 0x20 32 [ro 12 8, ro 7 4, ro 2 2, ro 1 1, ro 0 0],
  regN 0x100 4 16 32 [ro 31 16, ro 5 5 1, ro 4 0 0x10],
  regN 0x200 4 272 32 [ro 23 16, ro 15 8, ro 7 4, ro 2 0],
  regN 0x800 0x20 16 256 [ro 255 0],
  regN 0x10000 0x100 256 32 [ro 31 24, ro 22 17, ro 16 9, ro 8 4, ro 3 0 1],
  regN 0x10004 0x100 256 32 [wo 3 0],
  regN 0x10008 0x100 256 64 [rw 51 6],
  regN 0x10010 0x100 256 64 [rw 51 12],
  regN 0x10018 0x100 256 32 [w1c 5 0],
  regN 0x1001C 0x100 256 32 [ro 31 29, ro 21 16, ro 14 0],
  regN 0x10020 0x100 256 64 [ro 63 0],
  regN 0x10028 0x100 256 64 [ro 63 0],
  regN 0x10030 0x100 256 64 [ro 63 0],
  regN 0x10038 0x100 256 32 [ro 31 0],
  regN 0x1003C 0x100 256 32 [ro 31 0],
  regN 0x10040 0x100 256 64 [ro 63 0],
  regN 0x10048 0x100 256 64 [ro 63 0],
  regN 0x10050 0x100 256 64 [ro 63 0],
  regN 0x10058 0x100 256 64 [ro 63 0],
  regNN 0x10060 0x100 256 4 40 32 [],
  regNN 0x20000 0x200 256 4 128 32 [ro 4 0]]

/-- CLC (R319 to R321). -/
def clcRegs : List RegDesc := [
  reg1 0x0 32 [rw 31 16 0x3E8, ro 1 1 1, ld 0 0],
  reg1 0x4 32 [ro 24 16, ro 8 0],
  reg1 0x8 32 [w1c 5 0],
  reg1 0xC 32 [rw 5 0],
  regN 0x10 4 4 32 [ro 31 0],
  regN 0x1000 0x80 64 32 [rw 31 28, rw 24 16, ld 14 9, ld 8 8, rw 7 2, rw 1 0],
  regN 0x1004 0x80 64 32 [ro 31 0],
  regN 0x1008 0x80 64 32 [wo 15 0],
  regN 0x100C 0x80 64 32 [ro 31 0],
  regN 0x1010 0x80 64 64 [rw 51 12, rw 7 0],
  regN 0x1018 0x80 64 32 [ro 31 0],
  regN 0x101C 0x80 64 32 [],
  regN 0x1020 0x80 64 256 [ld 255 0],
  regN 0x1040 0x80 64 256 [ro 255 0],
  regNN 0x1060 0x80 64 4 8 32 [],
  regN 0x40000 0x40 4096 32 [rw 25 18, rw 17 17, rw 16 15, rw 14 14, rw 13 8, ld 7 7, rw 6 1, rw 0 0],
  regN 0x40004 0x40 4096 32 [rw 18 0],
  regN 0x40008 0x40 4096 64 [rw 51 6],
  regN 0x40010 0x40 4096 64 [rw 51 6],
  regN 0x40018 0x40 4096 32 [wo 31 0],
  regN 0x4001C 0x40 4096 32 [ro 15 8, w1c 5 5, ro 4 4, ro 2 0],
  regN 0x40020 0x40 4096 32 [ro 31 0],
  regN 0x40024 0x40 4096 32 [ro 31 0],
  regN 0x40028 0x40 4096 32 [ro 31 0],
  regN 0x4002C 0x40 4096 32 [ro 31 0],
  regN 0x40030 0x40 4096 32 [rw 15 8, rw 7 0],
  regN 0x40034 0x40 4096 32 [rw 31 0],
  regNN 0x40038 0x40 4096 4 2 32 []]

/-- MHS (R322). -/
def mhsRegs : List RegDesc := [
  reg1 0x0 32 [w1c 4 0],
  reg1 0x4 32 [rw 4 0],
  reg1 0x8 32 [ro 23 16, ld 7 0],
  reg1 0x10 64 [ld 51 12],
  reg1 0x18 64 [ld 63 0],
  reg1 0x20 32 [ro 31 0],
  regN 0x1000 0x40 32 32 [rw 15 8, rw 4 4, rw 3 3, rw 2 0],
  regN 0x1004 0x40 32 32 [rw 31 0],
  regN 0x1008 0x40 32 64 [rw 51 12],
  regN 0x1010 0x40 32 64 [rw 51 12],
  regN 0x1018 0x40 32 64 [rw 63 0],
  regN 0x1020 0x40 32 32 [rw 31 0],
  regN 0x1024 0x40 32 32 [rw 31 0],
  regN 0x1028 0x40 32 64 [rw 63 0],
  regN 0x1030 0x40 32 32 [rw 31 0],
  regNN 0x1034 0x40 32 4 3 32 []]

/-- RAS (R385). -/
def rasRegs : List RegDesc := [
  reg1 0x0 32 [w1c 3 0],
  reg1 0x4 32 [rw 3 0],
  reg1 0x8 32 [ro 31 0],
  reg1 0xC 32 [ro 31 0],
  regN 0x100 0x40 2 32 [ld 31 31, ld 19 16, ld 15 8, ld 5 0],
  regN 0x108 0x40 2 64 [ld 51 12],
  regN 0x110 0x40 2 32 [rw 15 0],
  regN 0x114 0x40 2 32 [ro 15 0],
  regN 0x118 0x40 2 32 [ro 7 4, ro 2 0],
  regN 0x11C 0x40 2 32 [wo 1 0],
  regN 0x120 0x40 2 64 [ro 63 0],
  regN 0x128 0x40 2 32 [ro 31 0],
  regN 0x12C 0x40 2 32 [ro 31 0],
  regN 0x130 0x40 2 32 [ro 31 0],
  regN 0x134 0x40 2 32 [ld 31 31, ld 18 0],
  regN 0x138 0x40 2 32 [ro 31 0]]

/-- DPY (R386). -/
def dpyRegs : List RegDesc := [
  reg1 0x0 32 [w1c 28 24, w1c 20 16, w1c 12 8, w1c 4 0],
  reg1 0x4 32 [rw 28 24, rw 20 16, rw 12 8, rw 4 0],
  regN 0x1000 0x100 4 32 [rw 1 0],
  regN 0x1004 0x100 4 32 [ro 3 0],
  regN 0x1008 0x100 4 32 [ro 31 0],
  regN 0x100C 0x100 4 32 [wo 1 0],
  regN 0x1010 0x100 4 32 [ro 9 8, ro 4 4, ro 1 0],
  regN 0x1014 0x100 4 32 [rw 10 8, rw 4 4, rw 1 0],
  regN 0x1018 0x100 4 32 [rw 31 0],
  regNN 0x1020 0x100 4 8 4 64 [rw 51 12],
  regN 0x1040 0x100 4 32 [rw 31 0],
  regN 0x1044 0x100 4 32 [rw 31 0],
  regN 0x1048 0x100 4 32 [rw 31 0],
  regN 0x104C 0x100 4 32 [rw 31 0],
  regN 0x1050 0x100 4 32 [rw 31 0],
  regN 0x1054 0x100 4 32 [rw 15 0],
  regN 0x1058 0x100 4 32 [rw 9 8, rw 5 4, rw 2 0],
  regN 0x105C 0x100 4 32 [rw 17 8, rw 2 1, rw 0 0],
  regN 0x1060 0x100 4 32 [rw 31 0],
  regN 0x1068 0x100 4 64 [rw 63 0],
  regN 0x1070 0x100 4 32 [ro 31 0],
  regN 0x1074 0x100 4 32 [ro 31 0],
  regN 0x1078 0x100 4 32 [ro 31 0],
  regN 0x107C 0x100 4 32 [ld 15 8, ld 5 0],
  regN 0x1080 0x100 4 32 [rw 31 30, rw 28 24, rw 23 8, rw 7 0],
  regArea 0x1090 0x100 4 128 .rw]

end Sys2Proof.Machine
end

