-- ==== Sys2Proof/Machine/RegMapHost.lean ====
section
/-! DEFINITION. Register tables of the MEM, FAB, ATU, HQM and PCI blocks (12_memory.md R411; 13_fabric_and_conservation.md
R434 to R438; 14_hosts_and_tenants.md R473 to R475). -/

namespace Sys2Proof.Machine

/-- MEM (R411). -/
def memRegs : List RegDesc := [
  reg1 0x0 32 [w1c 7 0],
  reg1 0x4 32 [rw 7 0],
  reg1 0x8 32 [ld 0 0],
  reg1 0xC 32 [rw 19 16 8, ld 11 8, ld 3 0],
  reg1 0x10 32 [rw 10 0 240],
  reg1 0x14 32 [rw 10 0 480],
  reg1 0x18 32 [rw 5 0 10],
  reg1 0x1C 32 [rw 7 0 0xFF],
  reg1 0x20 32 [ro 26 24, ro 23 16, ro 15 8, ro 7 0],
  reg1 0x28 64 [ld 51 5, ld 3 0],
  reg1 0x30 32 [ro 31 0],
  reg1 0x34 32 [ro 31 0],
  regNN 0x40 0x10 4 4 4 32 [ro 31 0],
  regNN 0x80 0x10 4 4 4 32 [ro 31 0],
  regNN 0xC0 0x10 2 4 4 32 [ro 31 0],
  regN 0xE0 4 2 32 [ro 31 0],
  regN 0x100 4 4 32 [ld 19 19, ld 17 16, ld 15 8, ld 6 4, ld 1 0],
  regN 0x200 0x10 16 32 [ld 17 17, ld 16 16, ld 13 12, ld 10 0],
  regN 0x208 0x10 16 64 [ld 63 0],
  regN 0x400 0x10 16 64 [ld 51 12, ld 1 0],
  regN 0x408 0x10 16 64 [ld 51 12],
  regN 0x500 8 4 32 [ro 16 16, ro 8 0],
  regN 0x504 8 4 32 [ro 31 0]]

/-- FAB (R434 to R438). -/
def fabRegs : List RegDesc := [
  reg1 0x0 32 [ld 0 0],
  reg1 0x4 32 [ro 31 16, ro 0 0],
  reg1 0x8 32 [w1c 4 0],
  reg1 0xC 32 [rw 4 0],
  reg1 0x10 32 [ro 31 0],
  reg1 0x14 32 [ro 31 0],
  reg1 0x18 32 [ro 31 0],
  reg1 0x1C 32 [ro 31 0],
  reg1 0x20 256 [w1c 255 0],
  reg1 0x40 256 [ro 255 0],
  reg1 0x60 32 [wo 0 0],
  reg1 0x64 32 [ro 31 0],
  regN 0x1000 0x20 256 32 [rw 31 24 0x10, ld 23 23, ld 22 22, ld 21 16, ld 15 0],
  regN 0x1004 0x20 256 32 [ld 18 16, ld 15 0],
  regN 0x1008 0x20 256 32 [rw 31 0],
  regN 0x100C 0x20 256 32 [rw 31 0],
  regN 0x1010 0x20 256 64 [ro 63 0],
  regN 0x1018 0x20 256 32 [ro 31 0],
  regN 0x101C 0x20 256 32 [ro 31 0],
  regN 0x10000 8 8192 64 [ld 31 16, ld 15 0],
  regN 0x30000 0x20 256 32 [ro 2 0],
  regN 0x30004 0x20 256 32 [ro 31 0],
  regN 0x30008 0x20 256 32 [ro 31 0],
  regN 0x3000C 0x20 256 32 [ro 31 0],
  regN 0x30010 0x20 256 32 [ro 31 0],
  regN 0x30014 0x20 256 32 [ro 3 0],
  regN 0x30018 0x20 256 32 [ro 31 0],
  regN 0x3001C 0x20 256 32 [],
  regN 0x40000 0x40 16 512 [ro 511 0]]

/-- ATU (R473). -/
def atuRegs : List RegDesc := [
  reg1 0x0 32 [ld 0 0],
  reg1 0x4 32 [w1c 3 0],
  reg1 0x8 32 [rw 3 0],
  reg1 0x10 64 [ld 51 12],
  reg1 0x18 64 [wo 51 12, wo 13 8, wo 1 0],
  reg1 0x20 32 [ro 0 0],
  reg1 0x24 32 [ro 31 0],
  reg1 0x28 32 [ro 31 0],
  regN 0x1000 0x20 64 256 [ro 255 0],
  regN 0x10000 0x40 64 32 [ro 17 16, ld 15 12, ld 11 6, ld 5 4, ld 1 0],
  regN 0x10004 0x40 64 32 [ro 15 0],
  regN 0x10008 0x40 64 32 [w1c 8 8, wo 2 0],
  regN 0x10010 0x40 64 64 [rw 63 60, rw 43 0],
  regN 0x10018 0x40 64 64 [rw 63 60, rw 43 0],
  regN 0x10020 0x40 64 32 [ro 31 0]]

/-- HQM (R474). -/
def hqmRegs : List RegDesc := [
  reg1 0x0 32 [ld 0 0],
  reg1 0x4 32 [w1c 2 0],
  reg1 0x8 32 [rw 2 0],
  reg1 0x10 64 [ld 51 12],
  reg1 0x18 32 [wo 21 0],
  reg1 0x1C 32 [ro 1 0],
  reg1 0x20 32 [ro 31 0],
  reg1 0x24 32 [ro 31 0],
  reg1 0x28 64 [ro 63 29, ro 28 0],
  reg1 0x1000 64 [wo 63 0]]

/-- PCI (R475). -/
def pciRegs : List RegDesc := [
  reg1 0x0 32 [w1c 28 24, w1c 20 16, w1c 12 8, w1c 4 0],
  reg1 0x4 32 [rw 28 24, rw 20 16, rw 12 8, rw 4 0],
  regN 0x1000 0x1000 4 32 [ld 31 28, ld 27 24, ld 20 13, ld 12 7, ld 6 5, ld 4 2, ld 1 0],
  regN 0x1004 0x1000 4 32 [ro 23 23, ro 22 16, ro 14 8, ro 6 0],
  regN 0x1008 0x1000 4 32 [ro 31 0],
  regN 0x100C 0x1000 4 32 [ro 7 0],
  regN 0x1010 0x1000 4 32 [ro 31 0],
  regN 0x1014 0x1000 4 32 [ro 31 0],
  regN 0x1018 0x1000 4 32 [ro 31 0],
  regN 0x101C 0x1000 4 32 [ro 31 0],
  regN 0x1020 0x1000 4 32 [rw 31 31, rw 28 0],
  regN 0x1024 0x1000 4 32 [rw 31 0],
  regNN 0x1040 0x1000 4 4 8 32 [ld 31 31, ld 21 0],
  regNN 0x1100 0x1000 4 4 64 32 [ld 8 0]]

end Sys2Proof.Machine
end

