-- ==== Sys2Proof/Machine/RegMapIsland.lean ====
section
/-! DEFINITION. Register tables of the SYS, TWN, FLT and AWL blocks (01_device.md R33; 15_safety.md R513 to R515). -/

namespace Sys2Proof.Machine

/-- SYS (R33): every field is read-only. -/
def sysRegs : List RegDesc := [
  reg1 0x0 32 [ro 31 28 0x1, ro 27 12 0xA8D0, ro 11 1 0x54D, ro 0 0 1],
  reg1 0x4 32 [ro 8 8, ro 7 7, ro 6 4, ro 3 3, ro 2 0 1],
  reg1 0x8 32 [ro 15 8, ro 3 3 1, ro 2 2 1, ro 1 1, ro 0 0]]

/-- TWN (R513). -/
def twnRegs : List RegDesc := [
  reg1 0x0 32 [ro 24 24, ro 21 16, ro 13 8, ro 5 0],
  reg1 0x4 32 [w1c 6 0],
  reg1 0x8 32 [rw 6 0],
  reg1 0xC 32 [ld 10 8, ld 5 0],
  reg1 0x10 64 [rw 22 2],
  regN 0x100 0x20 6 32 [ro 5 5, ro 4 4, ro 2 0],
  regN 0x104 0x20 6 32 [wo 0 0],
  regN 0x108 0x20 6 32 [ro 31 0],
  regN 0x10C 0x20 6 32 [ro 31 0],
  regN 0x110 0x20 6 32 [ro 31 0],
  regN 0x118 0x20 6 64 [ro 63 32, ro 13 13, ro 12 2, ro 1 0],
  regN 0x400 8 8 32 [rw 26 16, rw 10 0],
  regN 0x404 8 8 32 [rw 31 31, rw 16 16, rw 15 0],
  regN 0x1000 0x40 64 32 [ld 31 31, ld 18 16 3, ld 14 12 4, ld 11 0],
  regN 0x1004 0x40 64 32 [ro 31 0],
  regN 0x1008 0x40 64 32 [ro 31 0],
  regN 0x100C 0x40 64 32 [ro 31 0],
  regN 0x1010 0x40 64 384 [ro 383 0]]

/-- FLT (R514). -/
def fltRegs : List RegDesc := [
  reg1 0x0 32 [rw 26 26, rw 25 16 1, rw 15 0 0xFA],
  reg1 0x4 32 [rw 31 24 0xA, rw 23 16 0xA, rw 15 0 0x2710],
  reg1 0x8 32 [wo 3 0],
  reg1 0xC 32 [ro 19 16, ro 10 10, w1c 9 9, ro 8 8, ro 7 7, ro 6 6, ro 5 5, ro 4 4, ro 3 3, ro 2 0],
  reg1 0x10 32 [w1c 8 0],
  reg1 0x14 32 [rw 8 0],
  reg1 0x18 32 [ro 15 0],
  reg1 0x1C 32 [ro 31 0],
  reg1 0x20 32 [ro 2 0],
  reg1 0x28 64 [ld 22 13],
  reg1 0x30 32 [ro 8 0],
  reg1 0x34 32 [rw 8 0],
  reg1 0x38 32 [ro 31 0],
  reg1 0x40 64 [ld 22 13, ld 3 0],
  reg1 0x48 32 [ro 31 0],
  reg1 0x4C 32 [ro 31 0],
  reg1 0x50 64 [wo 63 32, wo 31 8, wo 2 0],
  reg1 0x58 32 [wo 31 0],
  regN 0x100 4 64 32 [ro 31 0],
  regN 0x200 0x20 5 256 [ro 255 0],
  regN 0x300 0x20 5 256 [ro 255 0]]

/-- AWL (R515). -/
def awlRegs : List RegDesc := [
  reg1 0x0 32 [wo 31 0],
  reg1 0x4 32 [ro 31 16, w1c 4 4, ro 3 3, ro 1 1, ld 0 0],
  reg1 0x8 64 [rw 52 52, rw 47 32, rw 31 16, rw 15 8, rw 3 0],
  reg1 0x10 32 [rw 31 16, rw 9 8, w1s 0 0],
  reg1 0x14 32 [ro 31 0]]

end Sys2Proof.Machine
end

