-- ==== Sys2Proof/Machine/RegMapNet.lean ====
section
/-! DEFINITION. Register tables of the ETH, PTP and CAN blocks (17_network_and_time.md R579 to R581). -/

namespace Sys2Proof.Machine

/-- ETH (R579). -/
def ethRegs : List RegDesc := [
  reg1 0x0 32 [w1c 5 0],
  reg1 0x4 32 [rw 5 0],
  reg1 0x8 32 [ro 31 0],
  reg1 0xC 32 [ro 31 0],
  reg1 0x10 32 [ro 31 0],
  reg1 0x14 32 [ro 31 0],
  reg1 0x20 32 [rw 31 31, rw 17 17, rw 16 16, rw 15 15, rw 14 10, rw 9 5, rw 4 0],
  reg1 0x24 32 [rw 15 0],
  reg1 0x30 32 [rw 31 31, rw 19 4, rw 3 0],
  reg1 0x34 32 [ro 1 1, rw 0 0],
  regArea 0x40 0 1 512 .rw,
  regN 0x3000 0x20 64 32 [ld 28 28, ld 27 16, ld 15 8, ld 7 6, ld 5 0],
  regN 0x3004 0x20 64 32 [ld 31 0],
  regN 0x3008 0x20 64 32 [ld 31 0],
  regN 0x300C 0x20 64 32 [ld 31 0],
  regN 0x3010 0x20 64 64 [ld 63 0],
  regN 0x3018 0x20 64 32 [ld 15 0],
  regN 0x3800 4 64 32 [ro 31 0],
  regN 0x4000 0x20 64 32 [ld 27 16, ld 15 15, ld 14 14, ld 13 0],
  regN 0x4004 0x20 64 32 [ld 31 16, ld 15 0],
  regN 0x4008 0x20 64 64 [ld 63 0],
  regN 0x10000 0x1000 16 32 [ld 31 16, ld 13 12, ld 11 11, ld 10 10, ld 9 8, ld 7 4, ld 3 0],
  regN 0x10004 0x1000 16 32 [ro 7 4, ro 3 0],
  regN 0x10008 0x1000 16 64 [rw 63 32, rw 31 0],
  regN 0x10010 0x1000 16 256 [ro 255 0],
  regN 0x10030 0x1000 16 64 [rw 63 0],
  regN 0x10038 0x1000 16 32 [rw 31 0],
  regN 0x1003C 0x1000 16 32 [rw 24 16, ro 1 1, w1s 0 0],
  regN 0x10040 0x1000 16 64 [rw 63 0],
  regN 0x10048 0x1000 16 32 [ld 10 10, ld 9 8, ld 7 0],
  regNN 0x10080 0x1000 16 4 10 32 [ro 31 0]]

/-- PTP (R580). -/
def ptpRegs : List RegDesc := [
  reg1 0x0 32 [w1c 28 24, w1c 20 16, w1c 12 7, w1c 4 0],
  reg1 0x4 32 [rw 28 24, rw 20 16, rw 12 7, rw 4 0],
  reg1 0x10 32 [rw 31 16, rw 2 2, rw 1 0],
  reg1 0x14 32 [rw 29 0],
  reg1 0x18 32 [rw 3 3, rw 2 2, rw 1 0],
  reg1 0x20 128 [ro 127 0],
  regN 0x1000 0x80 4 32 [ld 14 14, ld 13 8, ld 0 0],
  regN 0x1004 0x80 4 32 [ro 15 8, ro 4 4, ro 3 3, ro 2 2, ro 1 1, ro 0 0],
  regN 0x1008 0x80 4 64 [rw 35 32 8, rw 31 0],
  regN 0x1010 0x80 4 128 [ro 127 0],
  regN 0x1020 0x80 4 64 [wo 63 0],
  regN 0x1028 0x80 4 64 [wo 47 0],
  regN 0x1030 0x80 4 32 [wo 29 0],
  regN 0x1034 0x80 4 32 [rw 31 0 1000000],
  regN 0x1038 0x80 4 64 [wo 63 0],
  regN 0x1040 0x80 4 64 [ro 63 0],
  regN 0x1048 0x80 4 32 [wo 1 0],
  regN 0x104C 0x80 4 32 [ro 31 0],
  regN 0x1050 0x80 4 32 [ro 31 0]]

/-- CAN (R581). -/
def canRegs : List RegDesc := [
  regN 0x1000 0x100 16 32 [ld 7 6, ld 5 5, ld 4 4, ld 3 3, ld 2 1, ld 0 0],
  regN 0x1004 0x100 16 32 [ld 31 0],
  regN 0x1008 0x100 16 32 [ld 31 0],
  regN 0x100C 0x100 16 32 [ld 31 0],
  regN 0x1010 0x100 16 32 [ld 8 8, ld 7 0],
  regN 0x1014 0x100 16 32 [ro 23 16, ro 15 8, ro 1 0],
  regN 0x1018 0x100 16 32 [wo 0 0],
  regN 0x101C 0x100 16 32 [rw 31 0],
  regN 0x1020 0x100 16 32 [ro 31 16, ro 15 0],
  regN 0x1024 0x100 16 32 [ro 31 0],
  regN 0x1028 0x100 16 32 [ro 31 0],
  regN 0x102C 0x100 16 32 [ro 31 0],
  regNN 0x10000 0x800 16 0x10 128 128 [ld 127 0],
  regN 0x80000 0x10 1024 128 [ld 127 0],
  regN 0x90000 0x20 64 256 [ld 255 0]]

end Sys2Proof.Machine
end

