-- ==== Sys2Proof/Machine/RegMapPhx.lean ====
section
/-! DEFINITION. Register table of the PHX block (02_phase_engine.md R49 to R51, R71, R72). -/

namespace Sys2Proof.Machine

/-- PHX (R49, R50, R51, R71, R72). -/
def phxRegs : List RegDesc := [
  reg1 0x0 32 [rw 31 16 0x40, ld 5 4, ld 0 0],
  reg1 0x4 32 [ro 24 16, ro 1 1, ro 0 0],
  reg1 0x8 32 [w1c 8 0],
  reg1 0xC 32 [rw 8 0],
  reg1 0x10 64 [ro 63 0],
  reg1 0x18 32 [ro 31 0],
  reg1 0x1C 32 [ro 31 0],
  reg1 0x20 32 [ro 31 0],
  reg1 0x24 32 [ro 31 0],
  reg1 0x28 32 [ro 31 0],
  regN 0x400 4 16 32 [ro 16 16, rw 14 14, rw 13 8, rw 2 2, rw 1 1, rw 0 0],
  regN 0x440 4 8 32 [ro 16 16, rw 7 4, rw 1 1, rw 0 0],
  regN 0x480 8 8 64 [ro 63 0],
  regN 0x1000 0x40 16 32 [ld 26 26, ld 25 25, ld 24 22, ld 21 19, ld 18 16, ld 13 8, ld 6 4, ld 3 3, ld 2 2, ld 1 0],
  regN 0x1004 0x40 16 32 [ld 31 0],
  regN 0x1008 0x40 16 32 [ld 31 0],
  regN 0x100C 0x40 16 32 [rw 16 16, rw 15 0],
  regN 0x1010 0x40 16 64 [ro 63 0],
  regN 0x1018 0x40 16 64 [wo 63 0],
  regN 0x1020 0x40 16 32 [ro 10 10, w1c 9 3, w1c 1 1, ro 0 0],
  regN 0x1024 0x40 16 32 [ro 31 0],
  regN 0x1028 0x40 16 32 [ro 31 0],
  regN 0x102C 0x40 16 32 [ro 31 0],
  regN 0x1030 0x40 16 32 [ld 31 0],
  regN 0x1034 0x40 16 32 [ld 15 0],
  regN 0x1038 0x40 16 32 [ro 15 0],
  regN 0x2000 8 64 64 [rw 51 12],
  reg1 0x2200 64 [rw 51 12],
  regN 0x40000 0x40 4096 64 [rw 63 0],
  regN 0x40008 0x40 4096 64 [rw 63 0],
  regN 0x40010 0x40 4096 32 [rw 22 22, rw 21 16, rw 15 12, rw 11 8, w1s 6 6, rw 5 0],
  regN 0x40014 0x40 4096 32 [rw 31 0],
  regN 0x40018 0x40 4096 32 [rw 31 0],
  regN 0x4001C 0x40 4096 32 [rw 31 0],
  regN 0x40020 0x40 4096 64 [ro 63 0],
  regN 0x40028 0x40 4096 32 [ro 19 16, ro 10 10, ro 9 9, w1c 8 0],
  regN 0x40030 0x40 4096 64 [ro 63 0],
  regN 0x40038 0x40 4096 32 [rw 31 0],
  regN 0x4003C 0x40 4096 32 [rw 31 0]]

end Sys2Proof.Machine
end

