-- ==== Sys2Proof/Machine/RegMapPlat.lean ====
section
/-! DEFINITION. Register tables of the FWP, PWR, CKG, SEC and PER blocks (16_firmware_and_boot.md R549;
18_power_clocks_reset.md R587, R602, R603; 19_security.md R618; 20_package_and_test.md R627). -/

namespace Sys2Proof.Machine

/-- FWP (R549). -/
def fwpRegs : List RegDesc := [
  reg1 0x0 32 [ro 6 6, ro 5 4, ro 2 0],
  reg1 0x4 32 [w1c 5 0],
  reg1 0x8 32 [rw 5 0],
  reg1 0xC 32 [wo 0 0],
  reg1 0x10 32 [ro 9 0],
  reg1 0x14 32 [ro 31 16 3, ro 15 0 2],
  reg1 0x18 32 [ro 15 0 1],
  reg1 0x20 64 [ro 63 0 0x7F],
  reg1 0x28 64 [ld 51 12],
  reg1 0x30 64 [ld 51 12],
  reg1 0x38 64 [ld 63 0],
  regN 0x100 0x40 6 32 [ro 19 16, ro 15 8, ro 2 0],
  regN 0x104 0x40 6 32 [ro 31 0],
  regN 0x108 0x40 6 64 [ld 51 16],
  regN 0x110 0x40 6 32 [ld 15 0],
  regN 0x114 0x40 6 32 [ro 31 0],
  regN 0x118 0x40 6 32 [rw 31 0],
  regN 0x11C 0x40 6 32 [ro 31 0],
  regN 0x120 0x40 6 32 [w1c 16 16, rw 15 0 1000],
  regN 0x124 0x40 6 32 [ro 31 0],
  regArea 0x1000 0x80 6 1024 .rw,
  regN 0x2000 0x40 64 32 [ld 11 8, ld 6 0],
  regN 0x2004 0x40 64 32 [ro 15 8, ro 3 3, w1c 2 1, ro 0 0],
  regN 0x2008 0x40 64 32 [wo 0 0],
  regN 0x2010 0x40 64 64 [rw 63 0],
  regN 0x2018 0x40 64 64 [ro 63 0],
  regN 0x2020 0x40 64 32 [ro 31 0],
  regArea 0x10000 0x2000 64 65536 .rw]

/-- One admission rail of PWR (R587, R602): loaded defaults of CEILING, SLEW, CAP and PARENT. -/
def admCfg (r ceiling slew cap parent : Nat) : RegDesc :=
  reg1 (0x1000 + r * 0x20) 32 [ld 31 26 parent, ld 25 18 slew, ld 17 11 cap, ld 10 0 ceiling]

/-- PWR (R587, R602). -/
def pwrRegs : List RegDesc := [
  reg1 0x0 32 [ld 0 0],
  reg1 0x4 32 [ro 4 0],
  reg1 0x8 32 [w1c 7 0],
  reg1 0xC 32 [rw 7 0],
  reg1 0x10 32 [wo 8 8, wo 2 0],
  reg1 0x14 32 [ro 31 4, ro 2 0],
  reg1 0x18 32 [rw 16 16 1, rw 15 0 50],
  reg1 0x1C 32 [ld 29 20 80, ld 19 10 125, ld 9 0 150],
  reg1 0x20 32 [rw 15 0 100],
  reg1 0x24 32 [ro 11 0],
  reg1 0x28 32 [ld 23 16 48, ld 15 8 80, ld 7 0 100],
  regN 0x40 4 56 32 [ro 16 0],
  reg1 0x140 32 [rw 31 24 30, rw 23 16 114, rw 15 8 113, rw 7 0 100],
  reg1 0x144 32 [ro 24 0],
  regN 0x180 4 14 32 [ro 13 0]] ++
  ((List.range 8).map fun r => admCfg r 128 40 32 16) ++
  ((List.range 8).map fun r => admCfg (8 + r) 128 40 32 17) ++
  [admCfg 16 880 100 64 0x3F, admCfg 17 880 100 64 0x3F, admCfg 18 60 20 24 22, admCfg 19 60 20 24 22,
  admCfg 20 60 20 24 22, admCfg 21 60 20 24 22, admCfg 22 320 40 48 0x3F] ++
  ((List.range 6).map fun r => admCfg (23 + r) 48 20 20 29) ++
  [admCfg 29 280 50 40 0x3F, admCfg 30 80 20 16 0x3F, admCfg 31 160 20 24 0x3F,
  regN 0x1004 0x20 32 32 [ro 31 20, ro 17 0],
  regN 0x1008 0x20 32 32 [ro 31 0],
  regN 0x100C 0x20 32 32 [ro 31 0],
  regN 0x1010 0x20 32 64 [ro 63 0],
  regN 0x1018 0x20 32 32 [ro 31 0]]

/-- CKG (R603). -/
def ckgRegs : List RegDesc := [
  reg1 0x0 32 [w1c 2 0],
  reg1 0x4 32 [rw 2 0],
  reg1 0x8 32 [wo 15 8, wo 1 0],
  reg1 0xC 32 [ro 31 16, ro 3 0],
  reg1 0x10 32 [ro 3 0],
  regN 0x100 8 48 32 [ro 18 0],
  regN 0x104 8 48 32 [ro 31 0]]

/-- SEC (R618). -/
def secRegs : List RegDesc := [
  reg1 0x0 32 [ro 14 8, ro 7 0],
  reg1 0x4 32 [w1c 4 0],
  reg1 0x8 32 [rw 4 0],
  reg1 0xC 32 [ld 0 0],
  reg1 0x10 32 [ro 31 16, ro 0 0],
  reg1 0x14 32 [wo 31 31, wo 8 0],
  reg1 0x18 32 [ro 31 16, ro 15 8, ro 0 0],
  reg1 0x1C 32 [wo 0 0],
  reg1 0x20 64 [rw 51 0],
  reg1 0x28 32 [rw 31 0],
  reg1 0x2C 32 [rw 7 0],
  reg1 0x40 32 [wo 31 31, wo 11 0],
  reg1 0x80 800 [ro 775 0],
  reg1 0x100 256 [ro 255 0],
  reg1 0x120 32 [wo 1 0],
  reg1 0x140 32 [wo 9 8, wo 3 0],
  reg1 0x144 32 [w1c 18 17, ro 16 0],
  reg1 0x150 320 [wo 319 0],
  regN 0x400 0x20 64 64 [rw 51 6],
  regN 0x408 0x20 64 32 [rw 31 0],
  regN 0x40C 0x20 64 32 [rw 31 31, w1c 30 30, rw 3 0],
  regN 0x410 0x20 64 96 [rw 95 0],
  reg1 0x1000 4096 [ro 4095 0],
  regArea 0x4000 0 1 131072 .rw]

/-- PER (R627). -/
def perRegs : List RegDesc := [
  regN 0x0 0x100 4 32 [rw 7 0],
  regN 0x4 0x100 4 32 [rw 31 31, rw 27 0],
  regN 0x8 0x100 4 32 [w1c 16 16, ro 15 0],
  regN 0x1000 0x100 4 32 [rw 31 31, rw 23 16, rw 11 0],
  regN 0x1004 0x100 4 32 [rw 1 0],
  regN 0x1008 0x100 4 32 [w1c 1 1, ro 0 0],
  regArea 0x1040 0x100 4 256 .rw,
  regN 0x2000 0x100 4 32 [rw 15 8, rw 6 0],
  regN 0x2004 0x100 4 32 [rw 31 0],
  regN 0x2008 0x100 4 32 [ro 0 0],
  reg1 0x3000 64 [rw 63 0],
  reg1 0x3008 64 [rw 63 0],
  reg1 0x3010 64 [ro 63 0],
  reg1 0x3018 64 [rw 63 0],
  reg1 0x3020 128 [rw 127 0],
  reg1 0x3030 64 [w1c 63 0],
  regN 0x4000 0x1000 2 32 [rw 23 8, rw 0 0],
  regN 0x4008 0x1000 2 64 [rw 63 0],
  regN 0x4010 0x1000 2 32 [rw 31 31, rw 15 0],
  regArea 0x4100 0x1000 2 2048 .rw,
  reg1 0x6000 32 [rw 2 0],
  reg1 0x6008 64 [rw 63 0],
  reg1 0x6010 32 [w1s 31 0],
  reg1 0x6014 32 [w1c 31 0]]

end Sys2Proof.Machine
end

