-- ==== Sys2Proof/Machine/RegMapWpe.lean ====
section
/-! DEFINITION. Register table of the WPE block (10_planning_engine.md R359). -/

namespace Sys2Proof.Machine

/-- WPE (R359). -/
def wpeRegs : List RegDesc := [
  reg1 0x0 32 [ld 31 24, ld 0 0],
  reg1 0x4 32 [ro 31 24, ro 23 16, ro 15 12 0xF, ro 11 8, ro 7 7, ro 6 6, ro 5 4 3, ro 3 2 3, ro 1 1, ro 0 0],
  reg1 0x8 32 [w1c 9 0],
  reg1 0xC 32 [rw 9 0],
  reg1 0x10 32 [ld 27 16, ld 11 0],
  reg1 0x14 32 [ld 20 20, ld 19 16, ld 12 8, ld 4 0],
  reg1 0x18 32 [ld 19 0],
  reg1 0x1C 32 [shd 31 16, shd 15 0],
  reg1 0x20 32 [shd 29 28 2, shd 26 24 7, shd 23 16 0xFE, shd 15 0],
  reg1 0x24 32 [rw 23 16 10, rw 11 8 2, rw 3 0 2],
  reg1 0x28 32 [ld 21 16, ld 13 8, ld 5 0],
  regN 0x30 8 3 64 [ld 51 12],
  reg1 0x48 32 [ld 31 0],
  reg1 0x4C 32 [ro 31 31, ro 30 30, ro 1 0],
  reg1 0x50 32 [wo 8 8, wo 1 0],
  reg1 0x54 32 [ro 13 12 3, ro 11 8, ro 7 4, ro 3 0],
  reg1 0x58 32 [ro 31 0],
  reg1 0x5C 32 [ro 31 16, ro 15 0],
  regN 0x60 8 2 64 [ld 51 12],
  reg1 0x70 32 [shd 5 5, shd 4 2, ro 1 1, w1s 0 0],
  reg1 0x78 64 [ld 51 12],
  reg1 0x80 32 [rw 31 0],
  reg1 0x84 32 [rw 31 0],
  reg1 0x88 32 [rw 15 0],
  reg1 0x8C 32 [rw 15 0],
  reg1 0x90 64 [rw 63 0],
  reg1 0x98 32 [rw 15 0 20000],
  reg1 0xA0 32 [ld 4 0],
  reg1 0xA4 32 [ld 31 16, ld 15 0],
  reg1 0xA8 32 [rw 15 0 6000],
  reg1 0xB0 32 [ld 31 31, ld 27 16, ld 12 10, ld 9 5, ld 4 0],
  reg1 0xB4 32 [ld 15 0],
  reg1 0xB8 64 [ld 47 0],
  regN 0x100 4 12 32 [ro 31 0],
  reg1 0x200 64 [wo 51 6],
  reg1 0x208 32 [ro 31 28, ro 22 22, ro 21 21, ro 20 20, ro 19 16 0xF, ro 15 12, ro 11 8, ro 7 4, ro 3 0],
  regN 0x400 8 16 64 [ld 63 32, ld 31 0],
  regN 0x800 16 64 128 [shd 127 0],
  reg1 0x1000 5984 [ro 5983 0]]

end Sys2Proof.Machine
end

