-- ==== Sys2Proof/Machine/RegMap.lean ====
section
/-! DEFINITION. The register blocks at their bases (01_device.md R17, R32) and the reset value of every register word
(R13). -/

namespace Sys2Proof.Machine

/-- Block numbers in the order of their bases (R32). -/
def bSYS : Nat := 0
def bPHX : Nat := 1
def bSFE : Nat := 2
def bCEL : Nat := 3
def bCLC : Nat := 4
def bMHS : Nat := 5
def bWPE : Nat := 6
def bRAS : Nat := 7
def bDPY : Nat := 8
def bMEM : Nat := 9
def bFAB : Nat := 10
def bATU : Nat := 11
def bHQM : Nat := 12
def bPCI : Nat := 13
def bTWN : Nat := 14
def bFLT : Nat := 15
def bAWL : Nat := 16
def bFWP : Nat := 17
def bETH : Nat := 18
def bPTP : Nat := 19
def bCAN : Nat := 20
def bPWR : Nat := 21
def bCKG : Nat := 22
def bSEC : Nat := 23
def bPER : Nat := 24

/-- First address of the register range (R27). -/
def csrBase : Nat := 0x10000000

/-- Base address of block k (R32). -/
def blkBase (k : Nat) : Nat := csrBase + 0x100000 * k

/-- The register table of block k. -/
def blockRegs : Nat → List RegDesc
  | 0 => sysRegs
  | 1 => phxRegs
  | 2 => sfeRegs
  | 3 => celRegs
  | 4 => clcRegs
  | 5 => mhsRegs
  | 6 => wpeRegs
  | 7 => rasRegs
  | 8 => dpyRegs
  | 9 => memRegs
  | 10 => fabRegs
  | 11 => atuRegs
  | 12 => hqmRegs
  | 13 => pciRegs
  | 14 => twnRegs
  | 15 => fltRegs
  | 16 => awlRegs
  | 17 => fwpRegs
  | 18 => ethRegs
  | 19 => ptpRegs
  | 20 => canRegs
  | 21 => pwrRegs
  | 22 => ckgRegs
  | 23 => secRegs
  | 24 => perRegs
  | _ => []

/-- The reset value of the register word at physical address a (R13); 0 where no register is assigned (R8). -/
def regReset (a : Nat) : Word :=
  if a < csrBase then 0
  else
    let k := (a - csrBase) / 0x100000
    let o := (a - csrBase) % 0x100000
    match findReg (blockRegs k) o with
    | none => 0
    | some (d, _, _, b) => BitVec.ofNat 32 (fldsReset d.flds >>> (8 * (b / 4 * 4)))

end Sys2Proof.Machine
end

