-- ==== Sys2Proof/Machine/State.lean ====
section
/-! DEFINITION. The state of the ZH8 as plain data. Everything a register shows lives in the register file regs; the
structures below hold what the spec gives the machine beside its registers. -/

namespace Sys2Proof.Machine

/-- Why the block stops: never. Every command of the table completes, and what the spec calls a fault is recorded in the fault
collector of the state, so this type has no constructor. -/
inductive Fault where
  deriving DecidableEq, Repr

/-- Why a command has no meaning. -/
inductive Refusal where
  /-- Raised by Dispatch for a command that has no meaning yet; safe. -/
  | notModelled (mnemonic : String)
  deriving DecidableEq, Repr

/-- The response to the last access of a master: an error response or not, and the bytes a read returns (R31). -/
structure Resp where
  err : Bool
  /-- The data returned carries poison (R398). -/
  poison : Bool
  data : List Byte
  deriving DecidableEq, Repr

/-- Something that leaves the block for the outside: the outbox holds them newest last. -/
inductive Output where
  /-- A frame handed to a MAC for its link partner: MAC, bytes with FCS. -/
  | eth (mac : Nat) (frame : List Byte)
  /-- A frame sent on a CAN bus: controller and CAN buffer. -/
  | can (ctrl : Nat) (frame : List Byte)
  /-- A message-signalled interrupt to a hart's interrupt file: hart, file and identity (R468). -/
  | imsic (hart file id : Nat)
  /-- An MSI-X message to a partner-port function: port, function, vector (R468). -/
  | msix (port fn vector : Nat)
  /-- A notification to a firmware processor (R468, R534). -/
  | fwpNotify (proc : Nat) (code : Nat)
  /-- A request forwarded to a link partner: port, function of its requester ID, EP bit, tag of a read, direction, address,
  length and bytes written (R30, R456). -/
  | pcie (port fn : Nat) (ep : Bool) (tag : Nat) (write : Bool) (addr len : Nat) (data : List Byte)
  /-- A completion to a link partner: port, tag, status (0 success, 1 Unsupported Request, 2 Completer Abort), EP bit, bytes
  (R459). -/
  | pcieCpl (port tag status : Nat) (ep : Bool) (data : List Byte)
  /-- A TLP of another kind, such as an error message or a vendor message: port and code. -/
  | pcieMsg (port code : Nat)
  /-- A level driven on a ball: a code for the ball and the level. -/
  | pin (ball : Nat) (level : Bool)
  /-- A byte or word sent on a low-speed interface: interface code, unit, value. -/
  | serial (iface unit value : Nat)
  /-- A command sent to an xSPI flash or a UFS device: interface, unit, operands. -/
  | storage (iface unit op addr : Nat)
  /-- An MDIO access on the management bus: the register word written (R552). -/
  | mdio (word data : Nat)
  /-- A voltage request on the AVSBus: rail and millivolts (R583). -/
  | avs (rail mv : Nat)
  /-- A packet or side-channel transfer of a display pipe: pipe, code, bytes. -/
  | display (pipe code : Nat) (data : List Byte)
  /-- Bits shifted out of the test access port: value and length (R632). -/
  | tdo (value bits : Nat)
  /-- An asynchronous input delivered to both copies of a pair (R484, R485): pair, input, value. -/
  | pairInput (pair input : Nat) (value : Bool)
  /-- A debug access to a pair (R634): pair and dmi value. -/
  | dmi (pair value : Nat)
  deriving DecidableEq, Repr

/-- The fault collector beside its registers (15_safety.md R493 to R505). -/
structure FltS where
  /-- Sequence number of the next record (R502). -/
  seq : Nat
  /-- Time at which the SAFE domain was last released from reset. -/
  safeRel : Nat
  /-- Times of the last class D and class S faults (R495, R496). -/
  dLast : Nat
  sLast : Nat
  /-- Source of the last class S fault (R497). -/
  sSrc : Nat
  /-- SAFE-domain times of the last exits of class S, newest first, at most 8 (R497). -/
  sExits : List Nat
  /-- Per source, one more than the 1 ms window of its last N or C record (R504). -/
  noticeWin : List (Nat × Nat)
  /-- Records written to the notice ring since reset (R504). -/
  noticeCnt : Nat
  /-- Folded alarms not yet summarised: count, highest class, last source, master, time and time flag (R503). -/
  foldCnt : Nat
  foldCls : Nat
  foldSrc : Nat
  foldMaster : Nat
  foldTime : Nat
  foldFlag : Nat
  /-- ALIVE_START was accepted since reset (R499). -/
  started : Bool
  /-- Levels of ALIVE_P and ALIVE_N (R499). -/
  aliveP : Bool
  aliveN : Bool
  /-- Time until which FAULT_CLASS shows a class C or class N fault (R499). -/
  cUntil : Nat
  nUntil : Nat
  /-- Start of the island watchdog interval (R500). -/
  kickFrom : Nat
  /-- Start of the heartbeat interval of each firmware processor (R500). -/
  hbFrom : List Nat
  deriving DecidableEq, Repr

/-- A digest waiting for its partner (R491): slot, release sequence number, checkpoint, side, digest, marks and time. -/
structure Digest where
  slot : Nat
  seq : Nat
  ckpt : Nat
  side : Bool
  digest : Nat
  poison : Bool
  readErr : Bool
  time : Nat
  deriving DecidableEq, Repr

/-- The Twiwin pairs and comparators beside their registers (R479 to R491). -/
structure TwnS where
  /-- Time of the last mismatch of each pair, none before the first (R483). -/
  mism : List (Option Nat)
  /-- The value a0 with which each pair last started (R483, R486). -/
  a0 : List Nat
  /-- Digests that wait for their partner (R491). -/
  digests : List Digest
  /-- A debugger's attach request waiting for the end of a test, per pair (R488). -/
  attachWait : List Bool
  /-- Pairs FAILED by R483, which only a cold or power-on reset ends (R600). -/
  dead : List Bool
  deriving DecidableEq, Repr

/-- The Awl beside its registers (R506 to R508). -/
structure AwlS where
  /-- Writer and time of a first unlock word, none when none is held. -/
  first : Option (Nat × Nat)
  /-- Time of the unlock. -/
  unlockAt : Nat
  /-- GO was written since the unlock. -/
  went : Bool
  /-- Start of the run. -/
  runAt : Nat
  /-- The faults of the check in hand carry INJECTED (R508). -/
  inj : Bool
  deriving DecidableEq, Repr

/-- A frame in a queue of the switch (17_network_and_time.md): its bytes without FCS, its ingress stamp and port, what it
owes on transmission, and whether its data was poisoned. -/
structure EthFrame where
  data : List Byte
  stamp : List Byte
  ingress : Nat
  /-- Host channel and TXQ index + 1 of a TX entry that waits for its stamp; 0 none. -/
  chan : Nat
  txIdx : Nat
  /-- The frame is a trajectory frame (R560). -/
  traj : Bool
  poison : Bool
  deriving DecidableEq, Repr

/-- The Ethernet block beside its registers (R550 to R562). -/
structure EthS where
  /-- Entries of the tables reached through ETH_TBL_ADDR: key table * 65536 + index, 64 bytes each (R579). -/
  tbl : List (Nat × List Byte)
  /-- Frames queued: key port * 8 + class (R558). -/
  queues : List (Nat × List EthFrame)
  /-- Oper gate control list of each port: gate states and interval in ns (R558). -/
  oper : List (Nat × List (Nat × Nat))
  /-- Oper base time and cycle of each port, set at the swap (R559). -/
  operBase : List (Nat × Nat)
  operCycle : List (Nat × Nat)
  /-- Entry of the oper list in force at each port. -/
  gateIdx : List (Nat × Nat)
  /-- Stamps waiting at each port: 24-byte entries as ETH_PORT_TXTS shows them (R571). -/
  txts : List (Nat × List (List Byte))
  /-- Flow token bucket: bytes in it times 1, and the time it was last filled (R557). -/
  bucket : Nat
  bucketAt : Nat
  /-- Packet numbers that the transmit association of each MACsec port has used (R562). -/
  pn : List (Nat × Nat)
  /-- MDIO access in progress (R552). -/
  mdioBusy : Bool
  /-- Clock time at which a pending swap takes place, by port (R559). -/
  swapAt : List (Nat × Nat)
  deriving DecidableEq, Repr

/-- One PTP clock beside its registers (R563 to R566). -/
structure PtpClk where
  /-- Increment written and not yet in force. -/
  incPend : Option Nat
  /-- Slew in progress: offset (signed, in ns), ticks, ticks done and units done. -/
  slewOn : Bool
  slewOfs : Int
  slewTicks : Nat
  slewK : Nat
  slewDone : Int
  /-- Step waiting for the applying edge. -/
  step : Option Int
  /-- Set waiting for the applying edge: seconds and nanoseconds. -/
  set : Option (Nat × Nat)
  /-- Master that wrote it. -/
  who : Nat
  deriving DecidableEq, Repr

/-- The PTP block beside its registers. -/
structure PtpS where
  /-- The four clocks. -/
  clk : List PtpClk
  /-- PPS_OUT has pulsed for every time up to this one, in ns (R569). -/
  ppsFrom : Nat
  /-- Level of PPS_IN. -/
  ppsIn : Bool
  deriving DecidableEq, Repr

/-- A CAN buffer waiting for arbitration: its bytes (R574) and where it came from. -/
structure CanBuf where
  buf : List Byte
  chan : Nat
  txIdx : Nat
  deriving DecidableEq, Repr

/-- The CAN block beside its registers (R573 to R578). -/
structure CanS where
  /-- Transmit buffers of each controller, oldest first, at most 32. -/
  tx : List (Nat × List CanBuf)
  /-- ACF messages collected by each gateway stream, oldest first, and when the first came. -/
  acf : List (Nat × List (List Byte))
  acfAt : List (Nat × Nat)
  /-- Sequence number of each stream's next NTSCF frame. -/
  acfSeq : List (Nat × Nat)
  /-- A bus-off controller was asked to recover. -/
  recReq : List (Nat × Bool)
  deriving DecidableEq, Repr

/-- A vehicle state committed as one set (R359). -/
structure VState where
  x : Int
  y : Int
  head : Nat
  speed : Nat
  t : Nat
  deriving DecidableEq, Repr

/-- A trajectory point (R355). -/
structure TPoint where
  tOfs : Nat
  x : Int
  y : Int
  head : Nat
  speed : Nat
  curv : Int
  accel : Int
  deriving DecidableEq, Repr

/-- A plan or a heel with its points, corridor (R346, R351) and age. -/
structure Traj where
  tRef : Nat
  pts : List TPoint
  corridor : BitVec 4096
  cost : Nat
  epoch : Nat
  age : Nat
  hard : Bool
  rerun : Bool
  deriving DecidableEq, Repr

/-- A heel candidate of the cycle (R350, R351): address, and its outcome when checked. -/
structure HeelCand where
  addr : Nat
  checked : Bool
  stale : Bool
  /-- The trajectory of a candidate that passed. -/
  traj : Option Traj
  deriving DecidableEq, Repr

/-- A planning run (R336 to R347). -/
structure PlanRun where
  tRef : Nat
  rerun : Bool
  /-- Pinned buffer and its epoch number. -/
  buf : Nat
  epoch : Nat
  vs : VState
  /-- The wavefront has been expanded. -/
  expanded : Bool
  deriving DecidableEq, Repr

/-- The planning engine beside its registers (10_planning_engine.md). -/
structure WpeS where
  /-- Numbers of the epochs in the three buffers. -/
  bufNum : List Nat
  /-- Origin and cell edge of the last published epoch, none before the first (R329). -/
  prevGeom : Option (Int × Int × Nat)
  /-- The change accumulators CHG_PLAN, CHG_HEEL, CHG_PF and CHG_HF (R333). -/
  chgPlan : BitVec 4096
  chgHeel : BitVec 4096
  chgPf : BitVec 4096
  chgHf : BitVec 4096
  /-- Committed and latched vehicle state. -/
  vs : Option VState
  latched : Option VState
  /-- Pending values of the SHD fields: register address to the bits of its SHD fields (R12). -/
  shadow : List (Nat × Nat)
  /-- The run in progress. -/
  run : Option PlanRun
  /-- Runs that have ended and wait for their cycle's deadline tack: T_REF, result and rerun. -/
  results : List (Nat × Nat × Bool)
  /-- The plan of the last run whose result was PLAN. -/
  fresh : Option Traj
  /-- Target of the current cycle (T0) and of its deadline tack; whether a cycle tack has fired; its heel outcome is
  fixed; it opened heel checking. -/
  t0 : Nat
  dTarget : Nat
  cycled : Bool
  fixed : Bool
  opened : Bool
  /-- The cycle tack has fired or missed, and the deadline tack has fired, and the WPE has not yet acted on it: target
  and whether it was missed (R335). -/
  cycleSig : Option (Nat × Bool)
  deadlineSig : Option Nat
  /-- The plan in force (R346). -/
  plan : Option Traj
  /-- The heel in force (R352). -/
  heel : Option Traj
  /-- Heel candidates of the cycle (R350). -/
  cands : List HeelCand
  /-- Candidates submitted for the next cycle. -/
  nextCands : List Nat
  /-- The heel engaged (R349). -/
  engaged : Option Traj
  /-- The last judged run was a rerun. -/
  lastRerun : Bool
  /-- Values of layer 1 after the expansion, index (y W + x) 8 + h (R342). -/
  values : Array Nat
  deriving DecidableEq, Repr

/-- A phase axis beside its registers (02_phase_engine.md R37 to R45). -/
structure AxisS where
  /-- ANGLE quadrature backlog, 64 bits (R40). -/
  backlog : Nat
  /-- The 16 further fraction bits of a TRAVEL axis (R43). -/
  frac : Nat
  /-- A frame of a LINE axis is open (R42). -/
  frameOpen : Bool
  /-- The last CAN counter of COUNTER mode, none before the first frame (R43). -/
  canBase : Option Nat
  /-- Time of the last update (R45). -/
  lastUpd : Nat
  /-- Held by an uncorrectable error of its state (R70). -/
  held : Bool
  deriving DecidableEq, Repr

/-- What an armed tack remembers (R57, R61, R63, R67). -/
structure TackS where
  /-- The target was already reached at arming with lateness above 0. -/
  lateArm : Bool
  /-- The target was reached, or crossed, through a discontinuity. -/
  disc : Bool
  /-- The event of a CHECK tack has happened since its reference point. -/
  event : Bool
  /-- Axis value of the evaluation that an exact placement counts from: at arming, or 64 ns ahead of a re-arming. -/
  armVal : Nat
  /-- The target was reached while the evaluation was paused (R64). -/
  paused : Bool
  deriving DecidableEq, Repr

/-- An action in the dispatch queue (R64). -/
structure PhxAct where
  tack : Nat
  action : Nat
  arg0 : Nat
  arg1 : Nat
  target : Nat
  owned : Bool
  owner : Nat
  /-- Generation of the owner when the tack fired. -/
  gen : Nat
  deriving DecidableEq, Repr

/-- An edge handed to the pin placer (R65, R67): pin, time domain (PTP clock 0 to 3, or 4 for the engine's own time), time
in ns, level and tack. -/
structure PinEdge where
  pin : Nat
  dom : Nat
  time : Nat
  level : Bool
  tack : Nat
  deriving DecidableEq, Repr

/-- The phase engine beside its registers (02_phase_engine.md). -/
structure PhxS where
  /-- The 16 axes (R37). -/
  axes : List AxisS
  /-- The armed tacks. -/
  tk : List (Nat × TackS)
  /-- Event FIFO, oldest first, at most 512 (R71). -/
  evt : List Nat
  /-- Dispatch queue, oldest first, at most 256 (R64). -/
  queue : List PhxAct
  /-- Edges handed to the pin placer (R67). -/
  edges : List PinEdge
  /-- Since when evaluation is paused by a full dispatch queue. -/
  pausedAt : Option Nat
  deriving DecidableEq, Repr

/-- An event of a sensor stream on its way to the axes that follow it (R42, R39, R88): kind 0 frame start, 1 line start, 2
frame end, 3 azimuth sample, with the line or sample; held behind the band with the sequence number it ends. -/
structure AxisEv where
  stream : Nat
  kind : Nat
  val : Nat
  held : Option Nat
  deriving DecidableEq, Repr

/-- A loop of the line-shift engine in progress (R95): counter, iterations left, first and last instruction of the body. -/
structure LseLoop where
  counter : Nat
  left : Nat
  first : Nat
  last : Nat
  deriving DecidableEq, Repr

/-- The context of a stream in its line-shift engine (R92, R94): address registers now and at the start of the unit, lanes,
the unit, the cursor in bits, the next instruction and the open loops. -/
structure LseCtx where
  a : List Nat
  aUnit : List Nat
  x : List Nat
  unit : List Byte
  bad : Bool
  cursor : Int
  pc : Nat
  loops : List LseLoop
  running : Bool
  deriving DecidableEq, Repr

/-- A band or sector in progress (R85, R86, R101). -/
structure SfeBand where
  seq : Nat
  /-- Start and end phase; source lines of the frame after which a camera band has all its input (R87). -/
  start : Nat
  stop : Nat
  need : Nat
  /-- Units that wait for the engine, with their poison. -/
  units : List (List Byte × Bool)
  count : Nat
  errs : Nat
  flags : Nat
  tFirst : Nat
  tLast : Nat
  tFsync : Nat
  frameNo : Nat
  /-- All input has arrived. -/
  closed : Bool
  /-- The engine has taken the slot token. -/
  started : Bool
  bytes : Nat
  deriving DecidableEq, Repr

/-- A sensor stream beside its registers. -/
structure SfeStream where
  /-- A frame is open (R79). -/
  frameOpen : Bool
  /-- Frames started, number and FSYNC time of the open frame, whether its firing was missing (R101). -/
  frames : Nat
  frameNo : Nat
  tFsync : Nat
  missing : Bool
  /-- Image packets of the open frame. -/
  lines : Nat
  /-- Lines of the open frame that have all exposures (R84), and lines of the lead that wait for them. -/
  merged : Nat
  waiting : List (List Byte × Bool × Nat)
  /-- Bytes of embedded data of the open frame, those that wait for the slot of the next band, and whether some were
  discarded (R77). -/
  emb : Nat
  embWait : List Byte
  embTrunc : Bool
  /-- The remap mesh read at the frame start was poisoned (R83, R400). -/
  meshBad : Bool
  /-- Unwrapped sample of a flow stream (R86). -/
  acc : Nat
  /-- SEQ of the next band (R101). -/
  seq : Nat
  /-- Bands in progress, oldest first. -/
  bands : List SfeBand
  /-- Input below this line, or below this sector end, belongs to a dropped band and is discarded (R99). -/
  skip : Nat
  /-- Context of the line-shift engine (R92). -/
  ctx : LseCtx
  /-- Since when the stream stalls (R99). -/
  stalled : Option Nat
  deriving DecidableEq, Repr

/-- The sensor front end beside its registers (03_sensor_front_end.md). -/
structure SfeS where
  /-- Events for the axes, oldest first. -/
  axisQ : List AxisEv
  /-- Firing time that an FSYNC action handed to a stream for its next frame start. -/
  fsync : List (Nat × Nat)
  /-- Streams that have been handed a firing time. -/
  fsyncSeen : List Nat
  /-- The streams that have left their reset state. -/
  streams : List (Nat × SfeStream)
  /-- Flow payloads handed over by the switch, oldest first (R80). -/
  flowQ : List (Nat × List Byte)
  /-- Instructions of each line-shift engine in the current 1 ms window (R105). -/
  cycles : List Nat
  /-- PIPE entry (R529) and defect positions of the streams, from the configuration record. -/
  pipe : List (Nat × List Byte)
  defects : List (Nat × List (Nat × Nat))
  /-- Per case and port or stream, one more than the one-second window of its last fault (R103). -/
  wins : List (Nat × Nat)
  deriving DecidableEq, Repr

/-- A request on the fabric (R416, R417): master port, label, bytes, write, master, issue time, absolute deadline (none for
best-effort), destination class, release time when released, and miss cause met on its way. -/
structure FabReq where
  port : Nat
  label : Nat
  bytes : Nat
  write : Bool
  master : Nat
  issue : Nat
  deadline : Option Nat
  cls : Nat
  released : Option Nat
  deriving DecidableEq, Repr

/-- The fabric beside its registers (13_fabric_and_conservation.md). -/
structure FabS where
  /-- Hold queues: key port * 256 + label, oldest first, at most 64 (R421). -/
  holdQ : List (Nat × List FabReq)
  /-- Requests released and not complete. -/
  flight : List FabReq
  /-- Token count of each regulator and when it was last brought up to date (R420); a regulator not listed is at its cap. -/
  tok : List (Nat × Int × Nat)
  /-- Floor window of each regulator (R423): start, bytes released in it, backlogged for the whole of it. -/
  floor : List (Nat × Nat × Nat × Bool)
  /-- Start of the audit in progress, whether it was found late, and the number of the last audit (R431). -/
  audit : Option Nat
  late : Bool
  auditNo : Nat
  /-- Time of the last audit period. -/
  auditAt : Nat
  /-- Ledgers whose mismatch has recorded class S (R432). -/
  mismS : List Nat
  /-- Differences that faults have put into live ledger counters: ledger and amount. -/
  skew : List (Nat × Int)
  /-- Ledgers with an uncorrectable counter error that the audit has not yet met (R433). -/
  bad : List Nat
  /-- Ledger records written (R438). -/
  lrecSeq : Nat
  /-- Links in training (R415). -/
  links : List Nat
  deriving DecidableEq, Repr

/-- An entry of the ATU's translation caches (R448): instance, virtual page, physical page and permission (1 read, 2 write,
4 execute). -/
structure AtuEntry where
  inst : Nat
  va : Nat
  pa : Nat
  perm : Nat
  deriving DecidableEq, Repr

/-- The ATU beside its registers (14_hosts_and_tenants.md R446 to R451, R470). -/
structure AtuS where
  /-- Entries of the translation caches (R448). -/
  tlb : List AtuEntry
  /-- Invalidations in progress or waiting, oldest first (R451). -/
  inv : List Nat
  /-- Fault records written. -/
  frecs : Nat
  /-- Instances in a reset sequence that waits for its drain (R470), and whether it is a removal. -/
  seqs : List (Nat × Bool)
  /-- Instances with an ADD that waits for its sequence (R471). -/
  adds : List Nat
  deriving DecidableEq, Repr

/-- A queue of the HQM in effect (R460 to R462). -/
structure HqmQ where
  base : Nat
  log2n : Nat
  esize : Nat
  flags : Nat
  owner : Nat
  label : Nat
  gen : Nat
  tail : Nat
  head : Nat
  notify : Nat
  faulted : Bool
  deriving DecidableEq, Repr

/-- A post refused by a full queue that its producer keeps (R466). -/
structure HqmPost where
  qid : Nat
  gen : Nat
  data : List Byte
  deriving DecidableEq, Repr

/-- The HQM beside its registers. -/
structure HqmS where
  /-- The queues enabled. -/
  queues : List (Nat × HqmQ)
  /-- Posts that their producers keep (R466). -/
  posts : List HqmPost
  deriving DecidableEq, Repr

/-- MSI-X of a virtual function (R453, R468): enabled, masked vectors, vectors pending. -/
structure MsixS where
  on : Bool
  masked : List Nat
  pend : List Nat
  deriving DecidableEq, Repr

/-- A non-posted request that a partner port waits for (R453, R456): tag, instance and generation of the master, bytes. -/
structure PciReq where
  port : Nat
  tag : Nat
  inst : Option Nat
  gen : Nat
  master : Nat
  len : Nat
  /-- A configuration request (R455). -/
  cfg : Bool
  /-- When it was sent. -/
  at_ : Nat
  /-- Port and tag of the inbound request that it serves, where it serves one (R459). -/
  back : Option (Nat × Nat)
  deriving DecidableEq, Repr

/-- The partner ports beside their registers (R452 to R459). -/
structure PciS where
  /-- Non-posted requests without completion (R453). -/
  out : List PciReq
  /-- FLRs in progress: port and instance. -/
  flr : List (Nat × Nat)
  /-- Next tag of each port. -/
  tags : List Nat
  /-- MSI-X of the virtual functions that have set it up. -/
  msix : List (Nat × MsixS)
  deriving DecidableEq, Repr

/-- What a group waits for (R206 to R209, R244). -/
inductive GWait where
  | none
  | barrier (b : Nat)
  | counter (code n : Nat)
  | fence (bits : Nat)
  | pwait (axis target : Nat)
  /-- Its long routine runs. -/
  | long
  deriving DecidableEq, Repr

/-- A thread group (R140, R159, R185, R206). Scalars, tile descriptors, thread registers (64 lanes) and predicates (a mask of
lanes) that no entry names are 0; the masks name the poisoned ones. -/
structure CGroup where
  /-- 0 not launched, 1 live, 2 ended. -/
  run : Nat
  /-- Address of the next instruction, and where it resumes (R206). -/
  pc : Nat
  resume : Nat
  /-- Scalars, tile descriptors, thread registers and predicates with their poison (R159). -/
  s : List (Nat × Nat)
  sBad : Nat
  td : List (Nat × Nat)
  tdBad : Nat
  t : List (Nat × List Nat)
  tBad : List (Nat × Nat)
  p : List (Nat × Nat)
  /-- Lanes whose predicate byte is poisoned. -/
  pBad : Nat
  /-- What it waits for. -/
  wait : GWait
  /-- Barriers at which the group has arrived in the open phase (R213). -/
  arrived : Nat
  /-- Completion counters TQ, MQ, LQ, FS and FL. -/
  tq : Nat
  mq : Nat
  lq : Nat
  fs : Nat
  fl : Nat
  deriving DecidableEq, Repr

/-- An accumulator element (R123, R127, R130, R159): the integer and its window, the flags NAN, POS_INF, NEG_INF and POISON
in bits 0 to 3, and the FP32 value. -/
structure AccEl where
  a : Int
  w : Int
  flags : Nat
  f : Nat
  deriving DecidableEq, Repr

/-- An accumulator tile (R223): mode 0 empty, 1 exact, 2 FP32; element (i, j) at 64 i + j, or no element listed when all are
zero. -/
structure AccTile where
  mode : Nat
  els : List AccEl
  deriving DecidableEq, Repr

/-- An instruction in a queue of a cell, with what it read at issue (R217): descriptors or scalars of DST, SRCA and SRCB,
further scalars, a walker descriptor, and whether a scalar operand was poisoned. -/
structure QOp where
  group : Nat
  pc : Nat
  word : Nat
  d : Nat
  a : Nat
  b : Nat
  x : Nat
  y : Nat
  walker : List Byte
  bad : Bool
  deriving DecidableEq, Repr

/-- A lace list (R233, R238): first descriptor, tile-store space, and the group and instruction or the tack that started it. -/
structure LaceList where
  addr : Nat
  tile : Bool
  group : Nat
  pc : Nat
  word : Nat
  tack : Option Nat
  /-- Instance whose requests it makes (none: physical addresses, R53). -/
  inst : Option Nat
  gen : Nat
  deriving DecidableEq, Repr

/-- A lace channel (R236, R238): the list that runs, its next descriptor (none once the last is done), the signal it owes
(address, value, tile-store space), and the lists that wait, at most 4. -/
structure LaceChan where
  cur : Option LaceList
  next : Option Nat
  sig : Option (Nat × Nat × Bool)
  queue : List LaceList
  deriving DecidableEq, Repr

/-- A fault found after issue (R163): cause, group, PC and word of the instruction, address. -/
structure CellExc where
  cause : Nat
  group : Nat
  pc : Nat
  word : Nat
  addr : Nat
  deriving DecidableEq, Repr

/-- A logical cell beside its registers (05_cells.md R155 to R165). -/
structure CellS where
  /-- Kernel descriptor in force and its address. -/
  kaddr : Nat
  desc : List Byte
  /-- Code words taken at LOADING that are not 0, by word index, and the 4 KiB pages of the code that could not be
  fetched. -/
  code : List (Nat × Nat)
  codeBad : List Nat
  /-- Why it loads: 0 not loading, 1 a kernel write, 2 a task that waits to be launched, 3 a restore. -/
  load : Nat
  /-- The thread groups that have been launched. -/
  groups : List (Nat × CGroup)
  /-- The four accumulators (R223). -/
  acc : List AccTile
  /-- The tensor, movement and long queues (R217). -/
  tq : List QOp
  mq : List QOp
  lq : List QOp
  /-- Faults found after issue, oldest first (R163). -/
  async : List CellExc
  /-- Why it drains: 0 not draining, 1 every group ended, 2 SAVE, 3 ABORT, 4 exception, 5 planned substitution. -/
  drain : Nat
  /-- RUNNING cycles before the last start of RUNNING, and the time of that start. -/
  elapsed : Nat
  since : Nat
  /-- Requests held while the cell is substituted (R173): control bits. -/
  heldCtrl : Nat
  /-- Task arguments s4 to s7 of the task to launch (R185). -/
  args : List Nat
  /-- Texture and sampler descriptors that the texture unit has read since LOADING, by address (R371). -/
  texs : List (Nat × List Byte)
  deriving DecidableEq, Repr

/-- A substitution (R170, R171): logical cell, kind 1 failure or 2 planned, trigger, old and new physical cell, start time,
words written poisoned, state of the cell when it began and flags. -/
structure CellSub where
  cell : Nat
  kind : Nat
  trigger : Nat
  oldPhys : Nat
  newPhys : Nat
  start : Nat
  poisoned : Nat
  was : Nat
  flags : Nat
  deriving DecidableEq, Repr

/-- The cells beside their registers. -/
structure CelS where
  /-- The logical cells that have left their reset state. -/
  cells : List (Nat × CellS)
  /-- Lace channels: key cell * 4 + channel, and 1024 + k for PHX channel k. -/
  lace : List (Nat × LaceChan)
  /-- Substitution running in each panel, and substitutions that wait. -/
  subs : List (Nat × CellSub)
  waiting : List CellSub
  /-- Substitution records written. -/
  srecs : Nat
  /-- Reports to the Clicker, oldest first: cell and status (R294, R295; 10 task restarted). -/
  reports : List (Nat × Nat)
  /-- Logical cells whose tile-store accesses are held (R31), and the accesses. -/
  held : List Nat
  deriving DecidableEq, Repr

/-- The MEM block beside its registers (12_memory.md). -/
structure MemS where
  /-- Sequence number of the next error record (R409). -/
  seq : Nat
  /-- Stacks (bits 0 to 3) and LPDDR controllers (bits 4 to 7) in self-refresh, and since when. -/
  selfRef : Nat
  srSince : Nat
  /-- Granules read in the current pass, and the start of the pass, for HBM, LPDDR and SLC (R402). -/
  scrubPos : List Nat
  scrubStart : List Nat
  /-- Granules and times of the last 64 CE records of each unit, newest first: units 0 to 3 stacks, 4 to 7 controllers,
  8 and 9 SLC halves (R410). -/
  ceLog : List (Nat × List (Nat × Nat))
  deriving DecidableEq, Repr

/-- A job's task (R288 to R292): release order, slot, side, stage, index, split and chunks, and where it is: 0 ready, 1 on
cell at, 2 saved in context slot at, 3 to be launched again on cell at before any other placement. -/
structure ClcTask where
  order : Nat
  slot : Nat
  side : Nat
  stage : Nat
  idx : Nat
  split : Nat
  c0 : Nat
  c1 : Nat
  place : Nat
  at_ : Nat
  /-- Order of its save. -/
  saved : Nat
  deriving DecidableEq, Repr

/-- One side of a job (R316): clicking, working area, current stage, tasks of the stage not complete, and whether the side
has ended, waits for a comparison before its next stage (HOLD), or has no stage left. -/
structure ClcSide where
  click : Nat
  work : Nat
  stage : Nat
  left : Nat
  ended : Bool
  holding : Bool
  deriving DecidableEq, Repr

/-- A release accepted and not started (R289). -/
structure ClcRel where
  slot : Nat
  seq : Nat
  param : Nat
  target : Nat
  /-- Owner and generation at release, none for a slot of the system. -/
  own : Option (Nat × Nat)
  order : Nat
  time : Nat
  deriving DecidableEq, Repr

/-- A running job (R288 to R295). -/
structure ClcJob where
  rel : ClcRel
  sides : List ClcSide
  /-- Model index of the clicking when the job started. -/
  model : Nat
  /-- Status of a job that ends early. -/
  stop : Option Nat
  restarts : Nat
  ckpts : Nat
  stage : Nat
  first : Nat
  last : Nat
  deriving DecidableEq, Repr

/-- A switch in progress (R311 to R313): model, ABORT mode, RESIDENT_ONLY, UNBIND, label, and whether the drain is done. -/
structure ClcSwitch where
  model : Nat
  abort : Bool
  resOnly : Bool
  unbind : Bool
  label : Nat
  drained : Bool
  deriving DecidableEq, Repr

/-- A completion in the Clicker's buffer (R296): queue, generation of the owner at release, entry. -/
structure ClcPost where
  qid : Nat
  gen : Option Nat
  data : List Byte
  deriving DecidableEq, Repr

/-- A checkpoint that its digest engine has still to read (R317): slot, release sequence, checkpoint index, side, tensor. -/
structure ClcCkpt where
  slot : Nat
  seq : Nat
  ckpt : Nat
  side : Bool
  addr : Nat
  bytes : Nat
  deriving DecidableEq, Repr

/-- The Clicker beside its registers (09_jobs_and_models.md). -/
structure ClcS where
  /-- Checkpoints that wait for their digest engine (R317). -/
  ckpts : List ClcCkpt
  /-- Tasks of the running jobs that are not complete (R288). -/
  tasks : List ClcTask
  /-- Jobs running, in order of their start (R288). -/
  jobs : List ClcJob
  /-- Releases accepted and not started (R289). -/
  pend : List ClcRel
  /-- The completion buffer, oldest first (R296). -/
  posts : List ClcPost
  /-- Switches in progress, by clicking (R311). -/
  switching : List (Nat × ClcSwitch)
  /-- Cells being reclaimed: cell, and the clicking that gets it + 1 (0 the free pool). -/
  reclaim : List (Nat × Nat)
  /-- Cells handed to a burst, by cell: the clicking. -/
  burst : List (Nat × Nat)
  /-- Bursts already counted as missed for the current ready tasks: clickings (R299). -/
  missed : List Nat
  /-- Order numbers given so far. -/
  order : Nat
  deriving DecidableEq, Repr

/-- MHS beside its registers: address of the relocated kernel descriptors of each model (R303). -/
structure MhsS where
  kbase : List (Nat × Nat)
  deriving DecidableEq, Repr

/-- An operation of the public-key engine in progress (R613 to R616): operation, KEYSRC, end time. -/
structure PkOp where
  op : Nat
  keysrc : Bool
  due : Nat
  /-- Its master was declared dead while it ran. -/
  abandon : Bool
  /-- It serves a debug submission (R617). -/
  debug : Bool
  deriving DecidableEq, Repr

/-- The SEC block beside its registers (19_security.md). -/
structure SecS where
  /-- Keys in the key slots (R610). -/
  slots : List (Nat × Nat)
  /-- Fuse bits blown (R604), bit k of the number for fuse bit k. -/
  fuses : Nat
  /-- Power-ons so far (R609). -/
  powerOns : Nat
  /-- Master that holds the public-key engine. -/
  holder : Option Nat
  /-- The operation in progress (R613). -/
  op : Option PkOp
  /-- A challenge stands that serves one submission (R617). -/
  chal : Bool
  /-- Public key of the submission being verified. -/
  dbgKey : List Byte
  deriving DecidableEq, Repr

/-- A triangle binned by a front end (R365): primitive ID, STATE bits, and per vertex X and Y in 1/256 pixel, Z and INV_W. -/
structure RasTri where
  prim : Nat
  st : Nat
  x : List Int
  y : List Int
  z : List Nat
  w : List Nat
  deriving DecidableEq, Repr

/-- A pass in progress (R364): PASS_ID, target descriptor, triangles in submission order, bin bytes used, and whether the
bin area was full. -/
structure RasPass where
  id : Nat
  desc : List Byte
  tris : List RasTri
  used : Nat
  full : Bool
  deriving DecidableEq, Repr

/-- A raster front end beside its registers (R361 to R370): the open pass, and event entries that wait, by TYPE. -/
structure RasFe where
  pass : Option RasPass
  events : List (Nat × List Byte)
  deriving DecidableEq, Repr

structure RasS where
  /-- The two front ends. -/
  fe : List RasFe
  deriving DecidableEq, Repr

/-- A display pipe beside its registers (R381 to R384): the last flip pending at the start of line DL, whether the buffer
shown was latched from a flip for the next frame, and the one-second window + 1 of its last underflow record. -/
structure DpyPipe where
  atDl : Bool
  latched : Bool
  win : Nat
  deriving DecidableEq, Repr

structure DpyS where
  /-- The four pipes. -/
  pipes : List DpyPipe
  deriving DecidableEq, Repr

/-- A request at power admission (R586): operation (0 panel wake, 1 array start, 2 HBM stack, 3 LPDDR controller, 4 cluster,
5 display pipe, 6 partner port), requester, rail, tokens, slew credit in uA, latency-critical, arrival, and whether its wait
has been reported as long. -/
structure AdmReq where
  kind : Nat
  unit : Nat
  rail : Nat
  tok : Nat
  step : Nat
  lc : Bool
  arrived : Nat
  long : Bool
  deriving DecidableEq, Repr

/-- An admission rail (R588): free tokens, and slew credit in uA at a time. A rail that is not listed has all of both. -/
structure AdmRail where
  free : Nat
  credit : Nat
  upd : Nat
  deriving DecidableEq, Repr

/-- A profile change (R592): target, step, start of its wait, panels it gates and wakes, stacks retrained and panels woken so
far. -/
structure ProfChg where
  target : Nat
  step : Nat
  since : Nat
  gated : Nat
  woken : Nat
  trained : Nat
  awake : Nat
  deriving DecidableEq, Repr

/-- A governed clock (R598): its ceiling in MHz (none: no ceiling), since when its cause is present and since when it has been
cool, times + 1, and since when it is at its floor with the cause present. -/
structure GovClk where
  ceil : Option Nat
  hot : Nat
  cool : Nat
  atFloor : Nat
  deriving DecidableEq, Repr

/-- The PWR block beside its registers (18_power_clocks_reset.md). -/
structure PwrS where
  /-- The admission rails that are not at rest (R588). -/
  rails : List (Nat × AdmRail)
  /-- Requests that wait at admission, oldest first (R587). -/
  queue : List AdmReq
  /-- Tokens held: key operation * 512 + requester. -/
  held : List (Nat × Nat)
  /-- The profile change in progress (R592). -/
  prof : Option ProfChg
  /-- Governed clocks: panels 0 to 15 and clusters 16 to 21. -/
  gov : List (Nat × GovClk)
  /-- Sensors at or above T_WARN, sensors that read invalid, and sensors at or above T_CRIT since a time. -/
  warn : Nat
  bad : Nat
  crit : List (Nat × Nat)
  /-- Dies (bits 0, 1) throttled by the die difference; stacks (bits 2 to 5) at 95 °C or above; class S and class L of the
  governor have been recorded (bits 6, 7). -/
  flags : Nat
  /-- When PWRGRP3_EN rose. -/
  grp3At : Nat
  /-- Since when, + 1, a voltage difference between adjacent islands lies above 200 mV (R596). -/
  diffAt : Nat
  deriving DecidableEq, Repr

/-- What a mailbox's message still waits for once it has been performed (R542). -/
inductive MbxWait where
  | none
  /-- The profile change in progress. -/
  | profile
  /-- The reset sequence of an instance. -/
  | inst (i : Nat)
  /-- The installation of a model. -/
  | install (model : Nat)
  /-- The switch of a clicking. -/
  | switch (click : Nat)
  deriving DecidableEq, Repr

/-- A message in a mailbox (R535 to R537): performed or not, the response, what it waits for, whether a cold reset follows
it, and the incarnation of the handling processor at GO. -/
structure MbxMsg where
  performed : Bool
  status : Nat
  payload : List Byte
  wait : MbxWait
  reboot : Bool
  incarn : Nat
  deriving DecidableEq, Repr

/-- The boot sequence, the firmware processors and the mailboxes beside their registers (16_firmware_and_boot.md). -/
structure FwpS where
  /-- Bytes of the two boot flashes that differ from 0xFF: key slot * 2^32 + offset. -/
  flash : List (Nat × Byte)
  /-- Where the start order stands (R523): 0 slots not yet chosen, 1 images to be verified, 4 record to be checked, 5 start-up
  test, 6 group 3 rails, 7 cell test and application, 8 stopped by R585, 9 done, 15 RECOVERY. -/
  boot : Nat
  /-- Candidate slots left (0 A, 1 B), the one being tried first. -/
  cands : List Nat
  /-- Of the running image: BUILD, SVN, slot SEQ. -/
  build : Nat
  svn : Nat
  seq : Nat
  /-- Segments 0 to 6 of the running image as they are retained (R543), and its configuration record. -/
  segs : List (List Byte)
  record : List Byte
  /-- SAFE domain: 0 in reset, 1 released, 2 under its start-up test, 3 tested. -/
  safe : Nat
  /-- Processors to be restarted, with the class of the record (R543). -/
  dead : List (Nat × Nat)
  /-- Mailboxes with a message, in the order of their GO writes, and the messages. -/
  order : List Nat
  mbx : List (Nat × MbxMsg)
  /-- Log entries of each processor held in local SRAM before CFG_LOADED, oldest first (R545). -/
  held : List (Nat × List (List Byte))
  /-- Trace window of each processor (R547): entries admitted, entries dropped and the first point dropped since the last
  TRACE_DROP entry. -/
  trace : List (Nat × (Nat × Nat × Nat))
  /-- EVENT codes of each processor in this millisecond: key processor * 65536 + code, entries asked for (R547). -/
  events : List (Nat × Nat)
  /-- Models that the configuration record binds to a clicking once they are installed (R530). -/
  binds : List (Nat × Nat)
  deriving DecidableEq, Repr

/-- The test access port (20_package_and_test.md R630 to R636). -/
structure TapS where
  /-- Instruction in force. -/
  ir : Nat
  /-- The last ball-controlling instruction was refused (R633). -/
  refused : Bool
  /-- Who drives the balls: 0 the device, 1 a ball-controlling instruction, 2 the same after a TAP reset, until COLD or POWER_ON. -/
  held : Nat
  /-- Boundary register as last updated, cell k in bit k. -/
  bsr : Nat
  deriving DecidableEq, Repr

/-- The low-speed interfaces beside their registers (20_package_and_test.md R626, R627). -/
structure PerS where
  /-- Receive and transmit FIFOs of each UART, oldest first, at most 64 bytes. -/
  rx : List (Nat × List Byte)
  tx : List (Nat × List Byte)
  deriving DecidableEq, Repr

/-- An access to a tile store held during a failure substitution (01_device.md R31). -/
structure HeldAcc where
  cell : Nat
  master : Nat
  write : Bool
  addr : Nat
  len : Nat
  data : List Byte
  poison : Bool
  /-- Port and tag of the inbound request that it serves, where it serves one (R459). -/
  back : Option (Nat × Nat)
  deriving DecidableEq, Repr

/-- The state of the ZH8. -/
structure State where
  /-- Commands waiting, first in first out. -/
  pending : List Instr
  /-- Register words that differ from their reset values: physical address and value. -/
  regs : List (Nat × Word)
  /-- Memory bytes that differ from 0. -/
  mem : List Host.Cell
  /-- First addresses of the poisoned granules, rising (R394: 8 bytes in SEC-DED storage, 32 bytes in HBM and LPDDR). -/
  poison : List Nat
  /-- Response to the last access. -/
  resp : Resp
  /-- Register halves and words held for a master: key master * 2^52 + address (R6, R7). -/
  holds : List (Nat × Word)
  /-- Register words captured for a master by a read of the lower half or word 0. -/
  caps : List (Nat × Word)
  /-- What has left the block, newest last. -/
  out : List Output
  /-- Time in quarter nanoseconds since power-on. -/
  now : Nat
  /-- Open values taken so far (Config.freeValue). -/
  free : Nat
  flt : FltS
  twn : TwnS
  awl : AwlS
  eth : EthS
  ptp : PtpS
  can : CanS
  wpe : WpeS
  mc : MemS
  phx : PhxS
  sfe : SfeS
  cel : CelS
  fab : FabS
  atu : AtuS
  hqm : HqmS
  pci : PciS
  clc : ClcS
  mhs : MhsS
  sec : SecS
  ras : RasS
  dpy : DpyS
  pwr : PwrS
  fwp : FwpS
  tap : TapS
  per : PerS
  /-- Accesses held, oldest first. -/
  heldAcc : List HeldAcc
  deriving DecidableEq, Repr

/-- Each block's state after a reset that reaches it. -/
def FltS.reset : FltS :=
  ⟨0, 0, 0, 0, 0, [], [], 0, 0, 0, 0, 0, 0, 0, false, false, true, 0, 0, 0, [0, 0, 0, 0, 0, 0]⟩

def TwnS.reset : TwnS :=
  ⟨[none, none, none, none, none, none], [0, 0, 0, 0, 0, 0], [], [false, false, false, false, false, false],
    [false, false, false, false, false, false]⟩

def AwlS.reset : AwlS := ⟨none, 0, false, 0, false⟩

def EthS.reset : EthS := ⟨[], [], [], [], [], [], [], 65536, 0, [], false, []⟩

def PtpClk.reset : PtpClk := ⟨none, false, 0, 0, 0, 0, none, none, 0⟩

def PtpS.reset : PtpS := ⟨[.reset, .reset, .reset, .reset], 0, false⟩

def CanS.reset : CanS := ⟨[], [], [], [], []⟩

def WpeS.reset : WpeS where
  bufNum := [0, 0, 0]
  prevGeom := none
  chgPlan := 0
  chgHeel := 0
  chgPf := 0
  chgHf := 0
  vs := none
  latched := none
  shadow := []
  run := none
  results := []
  fresh := none
  t0 := 0
  dTarget := 0
  cycled := false
  fixed := false
  opened := false
  cycleSig := none
  deadlineSig := none
  plan := none
  heel := none
  cands := []
  nextCands := []
  engaged := none
  lastRerun := false
  values := #[]

def MemS.reset : MemS := ⟨0, 0, 0, [0, 0, 0], [0, 0, 0], []⟩

def AxisS.reset : AxisS := ⟨0, 0, false, none, 0, false⟩

def PhxS.reset : PhxS := ⟨List.replicate 16 .reset, [], [], [], [], none⟩

def LseCtx.reset : LseCtx := ⟨[0, 0, 0, 0], [0, 0, 0, 0], List.replicate 32 0, [], false, 0, 0, [], false⟩

def SfeStream.reset : SfeStream :=
  ⟨false, 0, 0, 0, false, 0, 0, [], 0, [], false, false, 0, 0, [], 0, .reset, none⟩

def SfeS.reset : SfeS := ⟨[], [], [], [], [], [0, 0, 0, 0], [], [], []⟩

def FabS.reset : FabS := ⟨[], [], [], [], none, false, 0, 0, [], [], [], 0, []⟩

def AtuS.reset : AtuS := ⟨[], [], 0, [], []⟩

def HqmS.reset : HqmS := ⟨[], []⟩

def PciS.reset : PciS := ⟨[], [], [0, 0, 0, 0], []⟩

def CGroup.reset : CGroup := ⟨0, 0, 0, [], 0, [], 0, [], [], [], 0, .none, 0, 0, 0, 0, 0, 0⟩

def AccEl.zero : AccEl := ⟨0, -32768, 0, 0⟩

def CellS.reset : CellS :=
  ⟨0, [], [], [], 0, [], [⟨0, []⟩, ⟨0, []⟩, ⟨0, []⟩, ⟨0, []⟩], [], [], [], [], 0, 0, 0, 0, [], []⟩

def LaceChan.reset : LaceChan := ⟨none, none, none, []⟩

def CelS.reset : CelS := ⟨[], [], [], [], 0, [], []⟩

def ClcS.reset : ClcS := ⟨[], [], [], [], [], [], [], [], [], 0⟩

def MhsS.reset : MhsS := ⟨[]⟩

def SecS.reset : SecS := ⟨[], 0, 0, none, none, false, []⟩

def RasS.reset : RasS := ⟨[⟨none, []⟩, ⟨none, []⟩]⟩

def DpyS.reset : DpyS := ⟨List.replicate 4 ⟨false, false, 0⟩⟩

def PwrS.reset : PwrS := ⟨[], [], [], none, [], 0, 0, [], 0, 0, 0⟩

def FwpS.reset : FwpS := ⟨[], 0, [], 0, 0, 0, [], [], 0, [], [], [], [], [], [], []⟩

def TapS.reset : TapS := ⟨2, false, 0, 0⟩

def PerS.reset : PerS := ⟨[], []⟩

/-- The machine right after a power-on reset. -/
def State.reset : State where
  pending := []
  regs := []
  mem := []
  poison := []
  resp := ⟨false, false, []⟩
  holds := []
  caps := []
  out := []
  now := 0
  free := 0
  flt := .reset
  twn := .reset
  awl := .reset
  eth := .reset
  ptp := .reset
  can := .reset
  wpe := .reset
  mc := .reset
  phx := .reset
  sfe := .reset
  cel := .reset
  fab := .reset
  atu := .reset
  hqm := .reset
  pci := .reset
  clc := .reset
  mhs := .reset
  sec := .reset
  ras := .reset
  dpy := .reset
  pwr := .reset
  fwp := .reset
  tap := .reset
  per := .reset
  heldAcc := []

end Sys2Proof.Machine
end

