-- ==== Sys2Proof/Machine/Store.lean ====
section
/-! DEFINITION. Sparse stores in one canonical form: keys strictly rising, no entry equal to what an unlisted key reads
as. Memory and the register file are two such stores. -/

namespace Sys2Proof.Machine

/-- What key k reads as in store l, whose unlisted keys read as d k. -/
def stGet {α : Type} (d : Nat → α) : List (Nat × α) → Nat → α
  | [], k => d k
  | (k', v) :: r, k => if k < k' then d k else if k = k' then v else stGet d r k

/-- Store l with key k holding v, in canonical form. -/
def stPut {α : Type} [DecidableEq α] (d : Nat → α) : List (Nat × α) → Nat → α → List (Nat × α)
  | [], k, v => if v = d k then [] else [(k, v)]
  | (k', v') :: r, k, v =>
    if k < k' then (if v = d k then (k', v') :: r else (k, v) :: (k', v') :: r)
    else if k = k' then (if v = d k then r else (k, v) :: r)
    else (k', v') :: stPut d r k v

/-- The canonical form: every key above the bound lo given as an option, strictly rising, no default entry. -/
def stWf {α : Type} [DecidableEq α] (d : Nat → α) : Option Nat → List (Nat × α) → Bool
  | _, [] => true
  | lo, (k, v) :: r =>
    (match lo with | none => true | some b => decide (b < k)) && decide (v ≠ d k) && stWf d (some k) r

/-- The entries of a run of values from key a that differ from what their keys read as by default. -/
def stRun {α : Type} [DecidableEq α] (d : Nat → α) : Nat → List α → List (Nat × α)
  | _, [] => []
  | a, v :: r => if v = d a then stRun d (a + 1) r else (a, v) :: stRun d (a + 1) r

/-- Store l with the keys from a on holding the values vs, in canonical form. -/
def stPutRun {α : Type} [DecidableEq α] (d : Nat → α) (l : List (Nat × α)) (a : Nat) (vs : List α) : List (Nat × α) :=
  l.filter (fun p => decide (p.1 < a)) ++ stRun d a vs ++ l.filter (fun p => decide (a + vs.length ≤ p.1))

/-- The values of the n keys from a on. -/
def stGetRun {α : Type} (d : Nat → α) (l : List (Nat × α)) (a n : Nat) : List α :=
  (List.range n).map fun i => stGet d l (a + i)

/-- The value of key k in a finite map, none where it has none. -/
def fmGet {α : Type} : List (Nat × α) → Nat → Option α
  | [], _ => none
  | (k', v) :: r, k => if k < k' then none else if k = k' then some v else fmGet r k

/-- The finite map with key k set to v. -/
def fmPut {α : Type} : List (Nat × α) → Nat → α → List (Nat × α)
  | [], k, v => [(k, v)]
  | (k', v') :: r, k, v =>
    if k < k' then (k, v) :: (k', v') :: r else if k = k' then (k, v) :: r else (k', v') :: fmPut r k v

/-- The finite map without key k. -/
def fmDel {α : Type} : List (Nat × α) → Nat → List (Nat × α)
  | [], _ => []
  | (k', v') :: r, k => if k < k' then (k', v') :: r else if k = k' then r else (k', v') :: fmDel r k

/-- The value of key k, or d. -/
def fmGetD {α : Type} (d : α) (l : List (Nat × α)) (k : Nat) : α := (fmGet l k).getD d

/-- The finite map with the value of key k (d where it has none) changed by f. -/
def fmMod {α : Type} (d : α) (l : List (Nat × α)) (k : Nat) (f : α → α) : List (Nat × α) :=
  fmPut l k (f (fmGetD d l k))

/-- The finite map without the keys from a to b - 1. -/
def fmDelRange {α : Type} (l : List (Nat × α)) (a b : Nat) : List (Nat × α) :=
  l.filter fun p => decide (p.1 < a) || decide (b ≤ p.1)

/-- The keys of a finite map. -/
def fmKeys {α : Type} (l : List (Nat × α)) : List Nat := l.map Prod.fst

end Sys2Proof.Machine
end

