-- ==== Sys2Proof/Machine/Ops.lean ====
section
/-! DEFINITION. The named operations over the register file, memory, poison, the outbox and the free values, and what a
master ID says (15_safety.md R479). -/

namespace Sys2Proof.Machine

/-! Registers. -/

/-- The register word at address a. -/
def State.word (s : State) (a : Nat) : Nat := (stGet regReset s.regs a).toNat

/-- The register word at address a set to v. -/
def State.setWord (s : State) (a v : Nat) : State := { s with regs := stPut regReset s.regs a (BitVec.ofNat 32 v) }

/-- Bits hi to lo of the word at a. -/
def State.fld (s : State) (a hi lo : Nat) : Nat := bitsOf (s.word a) hi lo

/-- Bits hi to lo of the word at a set to v. -/
def State.setFld (s : State) (a hi lo v : Nat) : State := s.setWord a (setBitsOf (s.word a) hi lo v)

/-- Bit n of the word at a. -/
def State.bit (s : State) (a n : Nat) : Bool := bitOf (s.word a) n

/-- Bit n of the word at a set to b. -/
def State.setBit (s : State) (a n : Nat) (b : Bool) : State := s.setFld a n n (b2n b)

/-- The word at a with the bits of a mask set. -/
def State.orWord (s : State) (a mask : Nat) : State := s.setWord a (s.word a ||| mask)

/-- The 64-bit register at a. -/
def State.word64 (s : State) (a : Nat) : Nat := s.word a + 2 ^ 32 * s.word (a + 4)

/-- The 64-bit register at a set to v. -/
def State.setWord64 (s : State) (a v : Nat) : State := (s.setWord a v).setWord (a + 4) (v >>> 32)

/-- A wrapping 32-bit count at a, raised by n. -/
def State.bumpBy (s : State) (a n : Nat) : State := s.setWord a (s.word a + n)

/-- A wrapping 32-bit count at a, raised by 1. -/
def State.bump (s : State) (a : Nat) : State := s.bumpBy a 1

/-- A count in bits hi to lo, raised by 1, saturating. -/
def State.bumpSat (s : State) (a hi lo : Nat) : State :=
  let m := 2 ^ (hi + 1 - lo) - 1
  s.setFld a hi lo (min (s.fld a hi lo + 1) m)

/-- The n bytes of the registers from a (a multiple of 4) on. -/
def State.regBytes (s : State) (a n : Nat) : List Byte :=
  ((List.range ((n + 3) / 4)).flatMap fun i => leBytes 4 (s.word (a + 4 * i))).take n

/-- Register words from a on set from whole words. -/
def State.setWords (s : State) (a : Nat) : List Nat → State
  | [] => s
  | v :: r => (s.setWord a v).setWords (a + 4) r

/-- The words of a byte string, the last one filled with zeros. -/
def wordsOf (l : List Byte) : List Nat :=
  (List.range ((l.length + 3) / 4)).map fun i => leAt l (4 * i) 4

/-- The registers from a (a multiple of 4) on set from bytes; a last word that is not full is filled with zeros. -/
def State.setRegBytes (s : State) (a : Nat) (l : List Byte) : State := s.setWords a (wordsOf l)

/-- Every register word from a to b - 1 at its reset value. -/
def State.resetRegs (s : State) (a b : Nat) : State := { s with regs := fmDelRange s.regs a b }

/-- Every register of block k at its reset value (R13). -/
def State.resetBlock (s : State) (k : Nat) : State := s.resetRegs (blkBase k) (blkBase k + 0x100000)

/-! Memory. -/

/-- What a byte of memory that nothing has written reads as. DESIGN CHOICE 0 (log 2). -/
def memDefault (_ : Nat) : Byte := 0

/-- The byte at physical address a. -/
def State.byte (s : State) (a : Nat) : Byte := stGet memDefault s.mem a

/-- The n bytes from a on. -/
def State.bytes (s : State) (a n : Nat) : List Byte := stGetRun memDefault s.mem a n

/-- The little-endian number in the n bytes from a on. -/
def State.mnat (s : State) (a n : Nat) : Nat := leNat (s.bytes a n)

/-- Bytes in the granule that holds address a (12_memory.md R394): SEC-DED words below HBM, 32-byte granules above. -/
def granSize (a : Nat) : Nat := if a < 0x800000000 then 8 else 32

/-- First address of the granule that holds address a. -/
def granOf (a : Nat) : Nat := a / granSize a * granSize a

/-- Memory with the clean bytes l from a on: a granule written whole loses its poison (12_memory.md R398). -/
def State.store (s : State) (a : Nat) (l : List Byte) : State :=
  { s with mem := stPutRun memDefault s.mem a l,
           poison := s.poison.filter fun g => !(decide (a ≤ g) && decide (g + granSize g ≤ a + l.length)) }

/-- Memory with the n low bytes of v, least significant first, from a on. -/
def State.storeNat (s : State) (a n v : Nat) : State := s.store a (leBytes n v)

/-- Memory is in its canonical form. -/
def Memory.wf (m : List Host.Cell) : Bool := stWf memDefault none m

/-- Every byte from a to b - 1 at what unwritten memory reads as, and no poison there. -/
def State.clearMem (s : State) (a b : Nat) : State :=
  { s with mem := fmDelRange s.mem a b, poison := s.poison.filter fun g => decide (g < a) || decide (b ≤ g) }

/-- The granules that n bytes from a touch, in one kind of storage (12_memory.md R398). -/
def granules (a n : Nat) : List Nat :=
  if n = 0 then []
  else
    let z := granSize a
    (List.range ((a + n - 1) / z - a / z + 1)).map fun k => (a / z + k) * z

/-- One of the granules of n bytes from a is poisoned. -/
def State.poisoned (s : State) (a n : Nat) : Bool := (granules a n).any fun g => s.poison.contains g

/-! Responses, outbox and free values. -/

/-- The access is answered without error, returning data. -/
def State.respOk (s : State) (data : List Byte) : State := { s with resp := ⟨false, false, data⟩ }

/-- The access is answered with an error response and no data. -/
def State.respErr (s : State) : State := { s with resp := ⟨true, false, []⟩ }

/-- Something leaves the block. -/
def State.emit (s : State) (o : Output) : State := { s with out := s.out ++ [o] }

/-- A fresh open value and the state with the count advanced. -/
def State.takeFree (s : State) : Nat × State := (Config.freeValue s.free, { s with free := s.free + 1 })

/-- Time passes until t, if it is still to come: what an event at its due time implies (log 7). -/
def State.timeTo (s : State) (t : Nat) : State := { s with now := max s.now t }

/-- SAFE-domain time in ns since the last release of the SAFE domain (15_safety.md R502, R504). -/
def State.safeNs (s : State) : Nat := (s.now - s.flt.safeRel) / 4

/-! Master IDs (R479). -/

/-- KIND of a master ID. -/
def mKind (m : Master) : Nat := m.toNat / 4096

/-- INDEX of a master ID. -/
def mIdx (m : Master) : Nat := m.toNat % 4096

/-- Master IDs of units that act by themselves. -/
def mCell (c : Nat) : Master := BitVec.ofNat 16 c
def mFwp (p : Nat) : Master := BitVec.ofNat 16 (0x2000 + p)
def mPair (p : Nat) : Master := BitVec.ofNat 16 (0x3000 + p)
def mStream (s : Nat) : Master := BitVec.ofNat 16 (0x5000 + s)
def mPhx (k : Nat) : Master := BitVec.ofNat 16 (0x6000 + k)
def mWpe (k : Nat) : Master := BitVec.ofNat 16 (0x7000 + k)
def mRas (k : Nat) : Master := BitVec.ofNat 16 (0x8000 + k)
def mDpy (k : Nat) : Master := BitVec.ofNat 16 (0x9000 + k)
def mHqm : Master := 0xA000
def mClicker : Master := 0xA001
def mWalker : Master := 0xB000
def mDigest (d : Nat) : Master := BitVec.ofNat 16 (0xC000 + d)
def mCollector : Master := 0xD000
def mAudit : Master := 0xD001
def mTap : Master := 0xE000
def mScrub : Master := 0xFFFF

/-- A firmware processor. -/
def isFwp (m : Master) : Bool := mKind m == 2

/-- Firmware processor p. -/
def isFwpN (m : Master) (p : Nat) : Bool := m == mFwp p

/-- Pair n is ELIGIBLE (R488). -/
def State.eligible (s : State) (n : Nat) : Bool := s.bit (blkBase bTWN) (8 + n)

/-- A pair that is ELIGIBLE; a split pair carries bit 3 and is not. -/
def State.isEligiblePair (s : State) (m : Master) : Bool := mKind m == 3 && decide (mIdx m < 6) && s.eligible (mIdx m)

/-- The fault collector. -/
def isCollector (m : Master) : Bool := m == mCollector

/-- The safety island as a writer: an ELIGIBLE pair or the collector (R488). -/
def State.isIsland (s : State) (m : Master) : Bool := s.isEligiblePair m || isCollector m

/-- The safety island as a reader: any pair, the collector or the audit engine. -/
def isIslandAny (m : Master) : Bool := mKind m == 3 || mKind m == 0xD

/-- A master inside the Welt (R476, R477). -/
def insideWelt (m : Master) : Bool := isIslandAny m

/-- The safety island or a firmware processor, for a write. -/
def State.sysWriter (s : State) (m : Master) : Bool := s.isIsland m || isFwp m

/-- The safety island or a firmware processor, for a read. -/
def sysReader (m : Master) : Bool := isIslandAny m || isFwp m

/-- The access is by instance i. -/
def isInst (inst : Option (Fin 64)) (i : Nat) : Bool := match inst with | some k => k.val == i | none => false

end Sys2Proof.Machine
end

