-- ==== Sys2Proof/Machine/Collector.lean ====
section
/-! DEFINITION. The fault collector's own work (15_safety.md R492 to R505): counts, captures, records, class states and
pins. The heel's engagement follows in Fault.lean. -/

namespace Sys2Proof.Machine

/-- Register addresses of the collector (R514). -/
def rFlt (o : Nat) : Nat := blkBase bFLT + o
def rFltState : Nat := rFlt 0xC
def rFltIrq : Nat := rFlt 0x10
def rFltHold : Nat := rFlt 0x20

/-- Bits of FLT_STATE. -/
def stD : Nat := 3
def stS : Nat := 4
def stL : Nat := 5
def stAlive : Nat := 6
def stSafeN : Nat := 7
def stRing : Nat := 8
def stRefused : Nat := 9

/-- First address of the island SRAM (R27). -/
def sramBase : Nat := 0x8000000

/-- The codes of the balls named in Output.pin. -/
def ballSafeN : Nat := 0
def ballAliveP : Nat := 1
def ballAliveN : Nat := 2
def ballGrp3 : Nat := 3
def ballThermtrip : Nat := 4
def ballPps : Nat := 5
def ballFc : Nat := 8
def ballPhase : Nat := 16
def ballGpio : Nat := 64

/-- A fault as it reaches the collector (R493, R502). -/
structure FaultEv where
  src : Nat
  cls : Nat
  access : Nat
  master : Master
  unit : Nat
  info : Nat
  addr : Nat
  inj : Bool
  deriving DecidableEq, Repr

/-- PTP clock registers (17_network_and_time.md R580). -/
def rPtpClk (c o : Nat) : Nat := blkBase bPTP + 0x1000 + c * 0x80 + o

/-- The clock runs (R640). -/
def State.ptpOn (s : State) (c : Nat) : Bool := s.bit (rPtpClk c 0) 0

/-- Seconds, nanoseconds and fraction of a clock. -/
def State.ptpFrac (s : State) (c : Nat) : Nat := s.word (rPtpClk c 0x10)
def State.ptpNsec (s : State) (c : Nat) : Nat := s.fld (rPtpClk c 0x14) 29 0
def State.ptpSec (s : State) (c : Nat) : Nat := s.word (rPtpClk c 0x18) + 2 ^ 32 * s.fld (rPtpClk c 0x1C) 15 0

/-- The time of a clock in ns. -/
def State.ptpNs (s : State) (c : Nat) : Nat := 1000000000 * s.ptpSec c + s.ptpNsec c

/-- The PTP clock named by PHX_CTRL.STAMP_SRC. -/
def State.stampClock (s : State) : Nat := s.fld (blkBase bPHX) 5 4

/-- The time of a record: ns on the stamp clock, or SAFE-domain ns with the SAFE_TIME flag when that clock is not
running (R502, R640). -/
def State.recordTime (s : State) : Nat × Nat :=
  if s.ptpOn s.stampClock then (s.ptpNs s.stampClock % 2 ^ 64, 0) else (s.safeNs % 2 ^ 64, 2)

/-- The 32 bytes of a record or capture (R502). -/
def recBytes (seq src cls access flags : Nat) (master : Nat) (unit info addr time : Nat) : List Byte :=
  leBytes 4 seq ++ leBytes 1 src ++ leBytes 1 cls ++ leBytes 1 access ++ leBytes 1 flags ++ leBytes 2 master ++
    leBytes 2 unit ++ leBytes 4 info ++ leBytes 8 addr ++ leBytes 8 time

/-- Physical address of slot i of the alarm ring and of the notice ring (R503, R504). -/
def State.alarmSlot (s : State) (i : Nat) : Nat := sramBase + 0x2000 * s.fld (rFlt 0x28) 22 13 + (i % 256) * 32
def State.noticeSlot (s : State) (i : Nat) : Nat := sramBase + 0x2000 * s.fld (rFlt 0x40) 22 13 + i * 32

/-- Records in the notice ring when full: 2^k (R504). -/
def State.noticeSize (s : State) : Nat := 2 ^ (8 + s.fld (rFlt 0x40) 3 0)

/-- Records in the alarm ring: (HEAD - TAIL) mod 512 (R503). -/
def State.alarmFill (s : State) : Nat := (s.word (rFlt 0x30) + 512 - s.word (rFlt 0x34)) % 512

/-- Writes one alarm record at HEAD and advances it (R503). -/
def State.putAlarm (s : State) (rcd : List Byte) : State :=
  let h := s.word (rFlt 0x30)
  let s := (s.store (s.alarmSlot h) rcd).setWord (rFlt 0x30) ((h + 1) % 512)
  let s := s.orWord rFltIrq 1
  { s with flt.seq := (s.flt.seq + 1) % 2 ^ 32 }

/-- Writes one notice record, over the oldest when the ring is full (R504). -/
def State.putNotice (s : State) (rcd : List Byte) : State :=
  let n := s.flt.noticeCnt
  let size := s.noticeSize
  let s := (s.store (s.noticeSlot (n % size)) rcd).setWord (rFlt 0x48) s.flt.seq
  let s := if n ≥ size then (s.bump (rFlt 0x4C)).orWord rFltIrq 0x80 else s
  { s with flt.seq := (s.flt.seq + 1) % 2 ^ 32, flt.noticeCnt := n + 1 }

/-- The code FAULT_CLASS shows (R499). -/
def State.fcCode (s : State) : Nat :=
  if s.bit rFltState stL then 5
  else if s.bit rFltState stS then 4
  else if s.bit rFltState stD then 3
  else if s.now < s.flt.cUntil then 2
  else if s.now < s.flt.nUntil then 1
  else 0

/-- FAULT_CLASS follows the class states and holds. -/
def State.updateFc (s : State) : State := s.setFld rFltState 2 0 s.fcCode

/-- FLT_CFG2.FC_HOLD in quarter ns (units of 10 microseconds). -/
def State.fcHold (s : State) : Nat := 40000 * s.fld (rFlt 4) 23 16

/-- The windows of 1 ms of SAFE-domain time (R504). -/
def State.msWindow (s : State) : Nat := s.safeNs / 1000000

/-- The capture of a class: FLT_FIRST when it holds none, and FLT_LAST always (R494). -/
def State.capture (s : State) (cls : Nat) (rcd : List Byte) : State :=
  let k := cls - 1
  let rcd' := rcd.set 7 ((rcd.getD 7 0) ||| 0x80)
  let first := rFlt (0x200 + k * 0x20)
  let s := if s.bit (first + 4) 31 then s else s.setRegBytes first rcd'
  s.setRegBytes (rFlt (0x300 + k * 0x20)) rcd'

/-- The record of a fault, or its fold or limit; the flag is true when it has a record of its own (R503 to R505). -/
def State.recordFault (s : State) (ev : FaultEv) (time tf : Nat) : State × Bool :=
  let fl := b2n ev.inj ||| tf
  let rcd := recBytes s.flt.seq ev.src ev.cls ev.access fl ev.master.toNat ev.unit ev.info ev.addr time
  if ev.cls ≥ 3 then
    if s.alarmFill ≥ 256 then
      let s := (s.bump (rFlt 0x38)).orWord rFltIrq 2
      ({ s with flt.foldCnt := s.flt.foldCnt + 1, flt.foldCls := max s.flt.foldCls ev.cls, flt.foldSrc := ev.src,
                flt.foldMaster := ev.master.toNat, flt.foldTime := time, flt.foldFlag := tf }, false)
    else (s.putAlarm rcd, true)
  else if fmGetD 0 s.flt.noticeWin ev.src = s.msWindow + 1 then (s, false)
  else
    let w := s.msWindow + 1
    (({ s with flt.noticeWin := fmPut s.flt.noticeWin ev.src w }).putNotice rcd, true)

/-- The levels of the pins after a class S or L fault: SAFE_N low, ALIVE stopped (R499). -/
def State.pinsSafe (s : State) : State :=
  let s := if s.bit rFltState stSafeN then s.emit (.pin ballSafeN false) else s
  (s.setBit rFltState stSafeN false).setBit rFltState stAlive false

/-- The class states after a fault (R492, R495, R496, R499). -/
def State.classState (s : State) (ev : FaultEv) : State :=
  match ev.cls with
  | 1 => { s with flt.nUntil := s.now + s.fcHold }
  | 2 => { s with flt.cUntil := s.now + s.fcHold }
  | 3 =>
    let s := if s.bit rFltState stD then s else s.orWord rFltIrq 4
    { s.setBit rFltState stD true with flt.dLast := s.now }
  | 4 =>
    let s := if s.bit rFltState stS then s else s.orWord rFltIrq 0x10
    ({ s.setBit rFltState stS true with flt.sLast := s.now, flt.sSrc := ev.src }).pinsSafe
  | _ =>
    let s := if s.bit rFltState stL then s else s.orWord rFltIrq 0x40
    (s.setBit rFltState stL true).pinsSafe

/-- A fault reaches the collector: counts, record, captures, class states and pins. -/
def State.collect (s : State) (ev : FaultEv) : State :=
  let s := s.bump (rFlt (0x100 + (ev.src % 64) * 4))
  let (time, tf) := s.recordTime
  let seq0 := s.flt.seq
  let (s, own) := s.recordFault ev time tf
  let fl := b2n ev.inj ||| tf ||| (if own then 0 else 8)
  let cap := recBytes seq0 ev.src ev.cls ev.access fl ev.master.toNat ev.unit ev.info ev.addr time
  ((s.capture ev.cls cap).classState ev).updateFc

/-- The fold summary, written when the ring has room again (R503). -/
def State.foldSummary (s : State) : State :=
  if s.flt.foldCnt = 0 || decide (s.alarmFill ≥ 256) then s
  else
    let f := s.flt
    let rcd := recBytes f.seq f.foldSrc f.foldCls 0 (4 ||| f.foldFlag) f.foldMaster 0 f.foldCnt 0 f.foldTime
    { s.putAlarm rcd with
      flt := { (s.putAlarm rcd).flt with foldCnt := 0, foldCls := 0, foldSrc := 0, foldMaster := 0, foldTime := 0, foldFlag := 0 } }

end Sys2Proof.Machine
end

