-- ==== Sys2Proof/Machine/Crc.lean ====
section
/-! DEFINITION. The checksums the spec names: CRC-32C (R101, R328, R356), the Ethernet FCS (R551) and the CRC-64 of the
digest (R490). All are reflected in input and output. -/

namespace Sys2Proof.Machine

/-- One bit of a reflected CRC step with the reflected polynomial p. -/
def crcBits (p : Nat) : Nat → Nat → Nat
  | 0, c => c
  | k + 1, c => crcBits p k (if c % 2 = 1 then (c / 2) ^^^ p else c / 2)

/-- A reflected CRC register after the bytes of a list. -/
def crcRun (p : Nat) : List Byte → Nat → Nat
  | [], c => c
  | b :: r, c => crcRun p r (crcBits p 8 (c ^^^ b.toNat))

/-- CRC-32C (Castagnoli). -/
def crc32c (l : List Byte) : Nat := crcRun 0x82F63B78 l 0xFFFFFFFF ^^^ 0xFFFFFFFF

/-- The Ethernet frame check sequence of a frame, as the number whose bytes go out least significant first. -/
def crcFcs (l : List Byte) : Nat := crcRun 0xEDB88320 l 0xFFFFFFFF ^^^ 0xFFFFFFFF

/-- One step of the digest CRC-64 (R490): polynomial 0x42F0E1EBA9EA3693, reflected. -/
def crc64Run (l : List Byte) (c : Nat) : Nat := crcRun 0xC96C5795D7870F42 l c

end Sys2Proof.Machine
end

