-- ==== Sys2Proof/Machine/Num.lean ====
section
/-! DEFINITION. Number formats, rounding and arithmetic (04_number_formats.md R107 to R121, R132, and the functions of
R192). A finite value is a sign, a magnitude and a power of two, so every operation is exact until its one rounding. -/

namespace Sys2Proof.Machine

/-- A decoded value: NaN, an infinity by its sign, or plus or minus m times 2^e. A zero keeps its sign (R112). -/
inductive FVal where
  | nan
  | inf (neg : Bool)
  | fin (neg : Bool) (m : Nat) (e : Int)
  deriving DecidableEq, Repr

/-- The sticky flags of R121, as the bits of AFLAGS (R143). -/
def flagINV : Nat := 1
def flagOVF : Nat := 2
def flagUNF : Nat := 4
def flagINX : Nat := 8
def flagSPAN : Nat := 16

/-- A floating-point format of R107: exponent bits, mantissa bits, bias, and which special encodings it has. -/
structure FFmt where
  eb : Nat
  mb : Nat
  bias : Nat
  hasInf : Bool
  hasNan : Bool
  container : Nat
  deriving DecidableEq, Repr

/-- The float format of a format code (R107); none for the integer codes and the reserved ones. -/
def ffmt : Nat → Option FFmt
  | 0 => some ⟨8, 23, 127, true, true, 0⟩
  | 1 => some ⟨8, 10, 127, true, true, 13⟩
  | 2 => some ⟨8, 7, 127, true, true, 0⟩
  | 3 => some ⟨5, 10, 15, true, true, 0⟩
  | 4 => some ⟨5, 2, 15, true, true, 0⟩
  | 5 => some ⟨4, 3, 7, false, true, 0⟩
  | 6 => some ⟨3, 2, 3, false, false, 0⟩
  | 7 => some ⟨2, 3, 1, false, false, 0⟩
  | 8 => some ⟨2, 1, 1, false, false, 0⟩
  | _ => none

/-- Bits of one stored element of a format code (R107, R109); FP19 sits in a 32-bit container. -/
def elemBits : Nat → Nat
  | 0 => 32 | 1 => 32 | 2 => 16 | 3 => 16 | 4 => 8 | 5 => 8 | 6 => 6 | 7 => 6 | 8 => 4 | 9 => 8 | 10 => 4 | 11 => 2
  | _ => 0

/-- Codes 0xC to 0xF are reserved (R107). -/
def fmtValid (c : Nat) : Bool := decide (c ≤ 11)

/-- The canonical NaN of a format code (R112). -/
def canonNan : Nat → Nat
  | 0 => 0x7FC00000 | 1 => 0x7FC00000 | 2 => 0x7FC0 | 3 => 0x7E00 | 4 => 0x7E | 5 => 0x7F
  | _ => 0

/-- Decodes the bits of a float format (R108, R110). -/
def ffDecode (f : FFmt) (bits0 : Nat) : FVal :=
  let bits := bits0 >>> f.container
  let m := bits % 2 ^ f.mb
  let e := (bits >>> f.mb) % 2 ^ f.eb
  let neg := bitOf bits (f.mb + f.eb)
  let top := 2 ^ f.eb - 1
  if f.hasInf && decide (e = top) then (if m = 0 then .inf neg else .nan)
  else if !f.hasInf && f.hasNan && decide (e = top) && decide (m = 2 ^ f.mb - 1) then .nan
  else if e = 0 then .fin neg m (1 - (f.bias : Int) - f.mb)
  else .fin neg (m + 2 ^ f.mb) ((e : Int) - f.bias - f.mb)

/-- Decodes an element of any format code; the flag result is INV for the reserved TERN2 code (R111). -/
def numDecode (code bits : Nat) : FVal × Nat :=
  match ffmt code with
  | some f => (ffDecode f bits, 0)
  | none =>
    if code = 9 then
      let v := toSigned 8 bits
      (.fin (decide (v < 0)) v.natAbs 0, 0)
    else if code = 10 then
      let v := toSigned 4 bits
      (.fin (decide (v < 0)) v.natAbs 0, 0)
    else
      match bits % 4 with
      | 0 => (.fin false 0 0, 0)
      | 1 => (.fin false 1 0, 0)
      | 3 => (.fin true 1 0, 0)
      | _ => (.fin false 0 0, flagINV)

/-- m times 2^k for a signed k, dropping bits below one; the Bool says whether any bit dropped was set. -/
def shiftExp (m : Nat) (k : Int) : Nat × Bool :=
  match k with
  | .ofNat n => (m <<< n, false)
  | .negSucc n => (m >>> (n + 1), decide (m % 2 ^ (n + 1) ≠ 0))

/-- The STOCH bits of element i under seed s (R118). -/
def stochBits (s i : Nat) : Nat :=
  let z0 := (s % 2 ^ 64) ^^^ (0x9E3779B97F4A7C15 * i % 2 ^ 64)
  let z1 := (0xBF58476D1CE4E5B9 * (z0 ^^^ (z0 >>> 30))) % 2 ^ 64
  let z2 := (0x94D049BB133111EB * (z1 ^^^ (z1 >>> 27))) % 2 ^ 64
  let z3 := z2 ^^^ (z2 >>> 31)
  z3 >>> 32

/-- Rounds a magnitude to a multiple of 2^q by a rounding code (R117): the value is m times 2^e, a little more when
sticky is set (less than one further unit of m); r holds the STOCH bits. The result is the multiple and whether it is
inexact. -/
def roundTo (mode : Nat) (m : Nat) (e : Int) (sticky : Bool) (q : Int) (r : Nat) : Nat × Bool :=
  let (n, _) := shiftExp m (e - q)
  let k : Nat := (q - e).toNat
  let rem := m % 2 ^ k
  let inex := decide (rem ≠ 0) || sticky
  if !inex then (n, false)
  else
    let half2 := 2 * rem
    let up :=
      match mode with
      | 0 =>
        if k = 0 then false
        else if half2 > 2 ^ k then true
        else if half2 = 2 ^ k then (sticky || decide (n % 2 = 1))
        else false
      | 1 => false
      | 2 => decide (n % 2 = 0)
      | _ => decide (2 ^ 32 * rem / 2 ^ k + r ≥ 2 ^ 32)
    (if up then n + 1 else n, true)

/-- The largest finite magnitude of a float format: a count of units and the unit exponent (R107). -/
def ffMax (f : FFmt) : Nat × Int :=
  let top : Nat := if f.hasInf then 2 ^ f.eb - 2 else 2 ^ f.eb - 1
  let mant : Nat := if !f.hasInf && f.hasNan then 2 ^ f.mb - 2 else 2 ^ f.mb - 1
  (2 ^ f.mb + mant, (top : Int) - f.bias - f.mb)

/-- The encoding of n units of 2^q in a float format; n below 2^(mb + 1). -/
def ffEncode (f : FFmt) (neg : Bool) (n : Nat) (q : Int) : Nat :=
  let (n, q) := if n ≥ 2 ^ (f.mb + 1) then (n / 2, q + 1) else (n, q)
  let body :=
    if n < 2 ^ f.mb then n
    else (((q + f.mb + f.bias).toNat) <<< f.mb) + (n - 2 ^ f.mb)
  ((b2n neg <<< (f.eb + f.mb)) ||| body) <<< f.container

/-- The encoding of an infinity. -/
def ffInf (f : FFmt) (neg : Bool) : Nat :=
  ((b2n neg <<< (f.eb + f.mb)) ||| ((2 ^ f.eb - 1) <<< f.mb)) <<< f.container

/-- Rounds a finite magnitude to a float format (R117, R120): the encoding and the flags raised. -/
def ffRound (f : FFmt) (mode : Nat) (neg : Bool) (m : Nat) (e : Int) (sticky : Bool) (r : Nat) : Nat × Nat :=
  if m = 0 && !sticky then (ffEncode f neg 0 0, 0)
  else
    let E : Int := (Nat.log2 m : Int) + e
    let emin : Int := 1 - (f.bias : Int)
    let q : Int := (if E < emin then emin else E) - f.mb
    let (nmax, qmax) := ffMax f
    let (n0, lost) := shiftExp m (e - q)
    let inex := lost || sticky
    let big := decide (q > qmax) || (decide (q = qmax) && (decide (n0 > nmax) || (decide (n0 = nmax) && inex)))
    if big then
      let fl := flagOVF ||| flagINX
      let maxEnc := ffEncode f neg nmax qmax
      let wide := f.hasInf && decide (f.mb ≥ 7 ∨ f.eb = 5 ∧ f.mb = 10)
      if !wide then (maxEnc, fl)
      else
        match mode with
        | 0 =>
          -- infinity when |v| is at least max + ulp / 2
          let (h, _) := shiftExp m (e - (qmax - 1))
          if h ≥ 2 * nmax + 1 then (ffInf f neg, fl) else (maxEnc, fl)
        | 1 => (maxEnc, fl)
        | 2 => (maxEnc, fl)
        | _ =>
          let (h, _) := shiftExp m (e - (qmax - 32))
          let fr := h - 2 ^ 32 * nmax
          if fr + r ≥ 2 ^ 32 then (ffInf f neg, fl) else (maxEnc, fl)
    else
      let (n, ix) := roundTo mode m e sticky q r
      -- tininess is judged after rounding with an unbounded exponent range (R121)
      let tiny :=
        if E ≥ emin then false
        else
          let (n1, _) := roundTo mode m e sticky (E - f.mb) r
          !(decide (E = emin - 1) && decide (n1 = 2 ^ (f.mb + 1)))
      let fl := if ix then flagINX ||| (if tiny then flagUNF else 0) else 0
      (ffEncode f neg n q, fl)

/-- The range limit of an integer format code by sign: INT8, INT4, TERN2 (R107). -/
def intLimit (code : Nat) (neg : Bool) : Nat :=
  if code = 9 then (if neg then 128 else 127)
  else if code = 10 then (if neg then 8 else 7)
  else 1

/-- The encoding of an integer of magnitude n (R111). -/
def intEncode (code : Nat) (neg : Bool) (n : Nat) : Nat :=
  let w := if code = 9 then 8 else if code = 10 then 4 else 2
  if neg then (2 ^ w - n) % 2 ^ w else n % 2 ^ w

/-- Rounds a finite magnitude to an integer format (R117, R120). -/
def intRound (code mode : Nat) (neg : Bool) (m : Nat) (e : Int) (sticky : Bool) (r : Nat) : Nat × Nat :=
  let lim := intLimit code neg
  let (n0, lost) := shiftExp m e
  if decide (n0 > lim) || (decide (n0 = lim) && (lost || sticky)) then (intEncode code neg lim, flagOVF ||| flagINX)
  else
    let (n, ix) := roundTo mode m e sticky 0 r
    (intEncode code neg n, if ix then flagINX else 0)

/-- Rounds a finite magnitude to any format code; r are the STOCH bits. -/
def numRoundMag (code mode : Nat) (neg : Bool) (m : Nat) (e : Int) (sticky : Bool) (r : Nat) : Nat × Nat :=
  match ffmt code with
  | some f => ffRound f mode neg m e sticky r
  | none => intRound code mode neg m e sticky r

/-- Rounds any value to a format code by R117 and R120. -/
def numRound (code mode : Nat) (v : FVal) (r : Nat) : Nat × Nat :=
  match v with
  | .fin neg m e => numRoundMag code mode neg m e false r
  | .inf neg =>
    match ffmt code with
    | some f =>
      if f.hasInf then (ffInf f neg, 0)
      else let (n, q) := ffMax f; (ffEncode f neg n q, flagOVF)
    | none => (intEncode code neg (intLimit code neg), flagOVF)
  | .nan =>
    if code ≤ 5 then (canonNan code, 0) else (0, flagINV)

/-- Converts the bits of an element of format a to format b (R134). -/
def numConvert (a b mode bits r : Nat) : Nat × Nat :=
  let (v, f1) := numDecode a bits
  let (x, f2) := numRound b mode v r
  (x, f1 ||| f2)

/-- FP32 bits to a value. -/
def f32 (bits : Nat) : FVal := (numDecode 0 bits).1

/-- Is the value NaN. -/
def FVal.isNan : FVal → Bool
  | .nan => true
  | _ => false

/-- The sign of a value; NaN counts as positive. -/
def FVal.sign : FVal → Bool
  | .nan => false
  | .inf n => n
  | .fin n _ _ => n

/-- The value with its sign inverted. -/
def FVal.neg : FVal → FVal
  | .nan => .nan
  | .inf n => .inf (!n)
  | .fin n m e => .fin (!n) m e

/-- The magnitude as an integer of units 2^e0, for e0 at most e. -/
def scaledInt (neg : Bool) (m : Nat) (e e0 : Int) : Int :=
  let k := (e - e0).toNat
  if neg then -((m <<< k : Nat) : Int) else ((m <<< k : Nat) : Int)

/-- Exact sum; the flag is INV for opposite infinities. An exactly zero sum of unlike signs is +0 (RNE rule). -/
def FVal.add (a b : FVal) : FVal × Nat :=
  match a, b with
  | .nan, _ => (.nan, 0)
  | _, .nan => (.nan, 0)
  | .inf x, .inf y => if x = y then (.inf x, 0) else (.nan, flagINV)
  | .inf x, _ => (.inf x, 0)
  | _, .inf y => (.inf y, 0)
  | .fin n1 m1 e1, .fin n2 m2 e2 =>
    if m1 = 0 && m2 = 0 then (.fin (n1 && n2) 0 0, 0)
    else if m1 = 0 then (.fin n2 m2 e2, 0)
    else if m2 = 0 then (.fin n1 m1 e1, 0)
    else
      let e0 := min e1 e2
      let s := scaledInt n1 m1 e1 e0 + scaledInt n2 m2 e2 e0
      (.fin (decide (s < 0)) s.natAbs e0, 0)

/-- Exact product; the flag is INV for zero times infinity. -/
def FVal.mul (a b : FVal) : FVal × Nat :=
  match a, b with
  | .nan, _ => (.nan, 0)
  | _, .nan => (.nan, 0)
  | .inf x, .inf y => (.inf (xor x y), 0)
  | .inf x, .fin y m _ => if m = 0 then (.nan, flagINV) else (.inf (xor x y), 0)
  | .fin x m _, .inf y => if m = 0 then (.nan, flagINV) else (.inf (xor x y), 0)
  | .fin x m e, .fin y m' e' => (.fin (xor x y) (m * m') (e + e'), 0)

/-- Rounds an exact value to FP32 bits with flags. -/
def r32 (mode : Nat) (v : FVal) : Nat × Nat := numRound 0 mode v 0

/-- FP32 sum, difference, product and fused product-sum of bit patterns: result bits and flags (R132). -/
def fadd (mode a b : Nat) : Nat × Nat :=
  let (v, f) := (f32 a).add (f32 b)
  let (x, g) := r32 mode v
  (x, f ||| g)

def fsub (mode a b : Nat) : Nat × Nat :=
  let (v, f) := (f32 a).add (f32 b).neg
  let (x, g) := r32 mode v
  (x, f ||| g)

def fmul (mode a b : Nat) : Nat × Nat :=
  let (v, f) := (f32 a).mul (f32 b)
  let (x, g) := r32 mode v
  (x, f ||| g)

def ffma (mode a b c : Nat) : Nat × Nat :=
  let (p, f) := (f32 a).mul (f32 b)
  if p.isNan then (canonNan 0, f)
  else
    let (v, f2) := p.add (f32 c)
    let (x, g) := r32 mode v
    (x, f ||| f2 ||| g)

/-- FP32 quotient, correctly rounded; a finite non-zero value over zero is an infinity and sets no flag (R192). -/
def fdiv (mode a b : Nat) : Nat × Nat :=
  match f32 a, f32 b with
  | .nan, _ => (canonNan 0, 0)
  | _, .nan => (canonNan 0, 0)
  | .inf _, .inf _ => (canonNan 0, flagINV)
  | .inf x, .fin y _ _ => r32 mode (.inf (xor x y))
  | .fin x _ _, .inf y => r32 mode (.fin (xor x y) 0 0)
  | .fin x m e, .fin y m' e' =>
    if m' = 0 then (if m = 0 then (canonNan 0, flagINV) else r32 mode (.inf (xor x y)))
    else if m = 0 then r32 mode (.fin (xor x y) 0 0)
    else
      let q := (m <<< 80) / m'
      let st := decide ((m <<< 80) % m' ≠ 0)
      numRoundMag 0 mode (xor x y) q (e - e' - 80) st 0

/-- Integer square root by bits, from bit k downwards. -/
def isqrtGo (n : Nat) : Nat → Nat → Nat
  | 0, r => r
  | k + 1, r =>
    let c := r + 2 ^ k
    isqrtGo n k (if c * c ≤ n then c else r)

/-- The integer square root of n. -/
def isqrt (n : Nat) : Nat := isqrtGo n (Nat.log2 n / 2 + 1) 0

/-- FP32 square root, correctly rounded. -/
def fsqrt (mode a : Nat) : Nat × Nat :=
  match f32 a with
  | .nan => (canonNan 0, 0)
  | .inf n => if n then (canonNan 0, flagINV) else r32 mode (.inf false)
  | .fin n m e =>
    if m = 0 then r32 mode (.fin n 0 0)
    else if n then (canonNan 0, flagINV)
    else
      let (m2, e2) := if e % 2 = 0 then (m, e) else (2 * m, e - 1)
      let big := m2 <<< 100
      let q := isqrt big
      numRoundMag 0 mode false q (e2 / 2 - 50) (decide (q * q ≠ big)) 0

/-- The comparison of two values: none when one is NaN, else whether a < b, a = b (zeros are equal). -/
def FVal.cmp (a b : FVal) : Option Ordering :=
  match a, b with
  | .nan, _ => none
  | _, .nan => none
  | .inf x, .inf y => some (if x = y then .eq else if x then .lt else .gt)
  | .inf x, _ => some (if x then .lt else .gt)
  | _, .inf y => some (if y then .gt else .lt)
  | .fin n1 m1 e1, .fin n2 m2 e2 =>
    let e0 := min e1 e2
    let s := scaledInt n1 m1 e1 e0
    let t := scaledInt n2 m2 e2 e0
    some (if s < t then .lt else if s = t then .eq else .gt)

def flt (a b : Nat) : Bool := (f32 a).cmp (f32 b) == some .lt
def feq (a b : Nat) : Bool := (f32 a).cmp (f32 b) == some .eq
def fle (a b : Nat) : Bool := flt a b || feq a b

/-- FP32 minimum and maximum: a NaN yields the other operand, -0 is less than +0 (R192). -/
def fminmax (isMax : Bool) (a b : Nat) : Nat :=
  let va := f32 a
  let vb := f32 b
  if va.isNan then (if vb.isNan then canonNan 0 else b)
  else if vb.isNan then a
  else
    match va.cmp vb with
    | some .lt => if isMax then b else a
    | some .gt => if isMax then a else b
    | _ =>
      -- equal values: the sign decides
      if isMax then (if va.sign then b else a) else (if va.sign then a else b)

/-- The integral value next to a finite value, by a rounding code (R117) or floor (10) and ceiling (11). -/
def fintegral (mode a : Nat) : Nat × Nat :=
  match f32 a with
  | .nan => (canonNan 0, 0)
  | .inf n => r32 0 (.inf n)
  | .fin n m e =>
    if e ≥ 0 then r32 0 (.fin n m e)
    else
      let (q, lost) := shiftExp m e
      let res :=
        if mode = 10 then (if lost && n then q + 1 else q)
        else if mode = 11 then (if lost && !n then q + 1 else q)
        else (roundTo mode m e false 0 0).1
      let (x, _) := r32 0 (.fin n res 0)
      (x, if lost && decide (mode < 4) then flagINX else 0)

/-- An integer rounded to FP32 by RNE. -/
def fOfInt (v : Int) : Nat := (r32 0 (.fin (decide (v < 0)) v.natAbs 0)).1

/-- A non-negative fraction m times 2^e to FP32 by RNE. -/
def fOfFrac (m : Nat) (e : Int) : Nat := (r32 0 (.fin false m e)).1

/-- The integer part of an FP32 value, toward zero; NaN and infinities read as 0. -/
def fTruncInt (a : Nat) : Int :=
  match f32 a with
  | .fin n m e => let (q, _) := shiftExp m e; if n then -(q : Int) else (q : Int)
  | _ => 0

/-! The functions of one operand. Each computes its value in fixed point with at least 192 bits and rounds once; a
result that is not exact is rounded with the sticky bit set. -/

/-- The sum of 1 / (k 2^k) for k from n down to 1 in units of 2^-p: the logarithm of 2. -/
def ln2Fix (p : Nat) : Nat → Nat
  | 0 => 0
  | k + 1 => 2 ^ p / ((k + 1) * 2 ^ (k + 1)) + ln2Fix p k

/-- The arctangent of 1 / d in units of 2^-p: terms k from 0, alternating. -/
def atanInvFix (d p : Nat) : Nat → Nat → Nat → Bool → Int → Int
  | 0, _, _, _, acc => acc
  | fuel + 1, k, pw, neg, acc =>
    let t : Int := ((pw / (2 * k + 1) : Nat) : Int)
    atanInvFix d p fuel (k + 1) (pw / (d * d)) (!neg) (if neg then acc - t else acc + t)

/-- Two pi in units of 2^-p, by Machin's formula. -/
def twoPiFix (p : Nat) : Nat :=
  let a := atanInvFix 5 p (p / 4 + 4) 0 (2 ^ p / 5) false 0
  let b := atanInvFix 239 p (p / 14 + 4) 0 (2 ^ p / 239) false 0
  (8 * (4 * a - b)).toNat

/-- The exponential of x (units of 2^-p, below 1): the series from term k. -/
def expFix (p x : Nat) : Nat → Nat → Nat → Nat → Nat
  | 0, _, _, acc => acc
  | fuel + 1, k, t, acc =>
    let t' := t * x / 2 ^ p / k
    expFix p x fuel (k + 1) t' (acc + t')

/-- Sine or cosine series of x (units of 2^-p): the term t for index k, adding with alternating signs. -/
def trigFix (p x : Nat) : Nat → Nat → Nat → Bool → Int → Int
  | 0, _, _, _, acc => acc
  | fuel + 1, k, t, neg, acc =>
    let acc' := if neg then acc - (t : Int) else acc + (t : Int)
    let t' := t * x / 2 ^ p * x / 2 ^ p / ((k + 1) * (k + 2))
    trigFix p x fuel (k + 2) t' (!neg) acc'

/-- The area tangent series of z (units of 2^-p): sum of z^(2k+1) / (2k + 1). -/
def atanhFix (p z : Nat) : Nat → Nat → Nat → Nat → Nat
  | 0, _, _, acc => acc
  | fuel + 1, k, pw, acc => atanhFix p z fuel (k + 1) (pw * z / 2 ^ p * z / 2 ^ p) (acc + pw / (2 * k + 1))

/-- The sine of 2 pi times a fraction k / 2^n of the first eighth or so of a turn, cosine when c is set: a
magnitude in units of 2^-p. -/
def sincosFix (c : Bool) (k n p : Nat) : Nat :=
  let x := k * twoPiFix p / 2 ^ n
  let fuel := 80
  if c then (trigFix p x fuel 0 (2 ^ p) false 0).toNat else (trigFix p x fuel 1 x false 0).toNat

/-- The sine of 2 pi times k / 2^n (k below 2^n): sign, exactness, magnitude and its exponent. -/
def sinTurn (k n : Nat) : Bool × Bool × Nat × Int :=
  -- fold into the first quarter turn
  let full := 2 ^ n
  let neg := decide (2 * k ≥ full)
  let k1 := if neg then k - full / 2 else k
  let k2 := if 4 * k1 > full then full / 2 - k1 else k1
  if k2 = 0 then (neg, true, 0, 0)
  else if 4 * k2 = full then (neg, true, 1, 0)
  else
    let p := 208 + n
    if 8 * k2 ≤ full then (neg, false, sincosFix false k2 n p, -(p : Int))
    else
      let k3 := full - 4 * k2
      (neg, false, sincosFix true k3 (n + 2) p, -(p : Int))

/-- FSINT and FCOST of R192: sine and cosine of 2 pi A. -/
def fsincos (isCos : Bool) (a : Nat) : Nat × Nat :=
  match f32 a with
  | .nan => (canonNan 0, 0)
  | .inf _ => (canonNan 0, flagINV)
  | .fin neg m e =>
    if e ≥ 0 || decide (m = 0) then (if isCos then (0x3F800000, 0) else r32 0 (.fin neg 0 0))
    else
      let n := (-e).toNat + 2
      let k := (m * 4) % 2 ^ n
      if isCos then
        let k' := (k + 2 ^ n / 4) % 2 ^ n
        let (sg, ex, mm, ee) := sinTurn k' n
        if ex && decide (mm = 0) then (0, 0)
        else numRoundMag 0 0 sg mm ee (!ex) 0
      else
        let (sg, ex, mm, ee) := sinTurn k n
        if ex && decide (mm = 0) then r32 0 (.fin neg 0 0)
        else numRoundMag 0 0 (xor neg sg) mm ee (!ex) 0

def fsint (a : Nat) : Nat := (fsincos false a).1
def fcost (a : Nat) : Nat := (fsincos true a).1

/-- FRCP of R192. -/
def frcp (a : Nat) : Nat × Nat := fdiv 0 0x3F800000 a

/-- FRSQ of R192. -/
def frsq (a : Nat) : Nat × Nat :=
  match f32 a with
  | .nan => (canonNan 0, 0)
  | .inf n => if n then (canonNan 0, flagINV) else (0, 0)
  | .fin n m e =>
    if m = 0 then r32 0 (.inf n)
    else if n then (canonNan 0, flagINV)
    else
      let (m2, e2) := if e % 2 = 0 then (m, e) else (2 * m, e - 1)
      -- 1 / sqrt(m2 2^e2) = sqrt(2^200 / m2) 2^(-100 - e2/2)
      let num := 2 ^ 200
      let q := isqrt (num / m2)
      let ex := decide (q * q * m2 = num)
      numRoundMag 0 0 false q (-100 - e2 / 2) (!ex) 0

/-- FEX2 of R192. -/
def fex2 (a : Nat) : Nat × Nat :=
  match f32 a with
  | .nan => (canonNan 0, 0)
  | .inf n => if n then (0, 0) else r32 0 (.inf false)
  | .fin neg m e =>
    if m = 0 then (0x3F800000, 0)
    else if e ≥ 0 && decide (m <<< (min e.toNat 64) ≥ 4096) then
      (if neg then numRoundMag 0 0 false 1 (-4096) true 0 else numRoundMag 0 0 false 1 4096 true 0)
    else
      let v : Int := scaledInt neg m e (min e 0)
      let n := (-(min e 0)).toNat
      let ip : Int := v / (2 ^ n : Nat)
      let fr : Nat := (v % (2 ^ n : Nat)).toNat
      if ip ≥ 4096 then numRoundMag 0 0 false 1 4096 true 0
      else if ip < -4096 then numRoundMag 0 0 false 1 (-4096) true 0
      else if fr = 0 then numRoundMag 0 0 false 1 ip false 0
      else
        let p := 208 + n
        let x := fr * ln2Fix p (p + 8) / 2 ^ n
        let y := expFix p x 90 1 (2 ^ p) (2 ^ p)
        numRoundMag 0 0 false y (ip - p) true 0

/-- FLG2 of R192. -/
def flg2 (a : Nat) : Nat × Nat :=
  match f32 a with
  | .nan => (canonNan 0, 0)
  | .inf n => if n then (canonNan 0, flagINV) else r32 0 (.inf false)
  | .fin neg m e =>
    if m = 0 then r32 0 (.inf true)
    else if neg then (canonNan 0, flagINV)
    else
      let lg := Nat.log2 m
      let E : Int := (lg : Int) + e
      if m = 2 ^ lg then r32 0 (.fin (decide (E < 0)) E.natAbs 0)
      else
        let p := 256
        let z := (m - 2 ^ lg) * 2 ^ p / (m + 2 ^ lg)
        let lnm := 2 * atanhFix p z 90 0 z 0
        let l2 : Int := ((lnm * 2 ^ p / ln2Fix p (p + 8) : Nat) : Int)
        let t : Int := E * (2 ^ p : Nat) + l2
        -- the true value lies a little above t: for a negative result take one unit less of magnitude
        let mag := if t < 0 then (t + 1).natAbs else t.natAbs
        numRoundMag 0 0 (decide (t < 0)) mag (-(p : Int)) true 0

end Sys2Proof.Machine
end

