-- ==== Sys2Proof/Machine/Heel.lean ====
section
/-! DEFINITION. Trajectory points, the hard heel, trajectory frames and the heel's engagement (10_planning_engine.md R353
to R357; 17_network_and_time.md R560, R561). -/

namespace Sys2Proof.Machine

/-- A WPE register address. -/
def rWpe (o : Nat) : Nat := blkBase bWPE + o
def rWpeStatus : Nat := rWpe 4
def rWpeIrq : Nat := rWpe 8

/-- The 12 WPE counts in order from 0x100 (R359). -/
def rWpeCnt (k : Nat) : Nat := rWpe (0x100 + 4 * k)

/-- PHX registers of an axis and of a tack (02_phase_engine.md R49, R72). -/
def rPhx (o : Nat) : Nat := blkBase bPHX + o
def rAxis (n o : Nat) : Nat := rPhx (0x1000 + n * 0x40 + o)
def rTack (n o : Nat) : Nat := rPhx (0x40000 + n * 0x40 + o)

/-- The cycle tack, its axis and the cycle clock (R335). -/
def State.cycleTack (s : State) : Nat := s.fld (rWpe 0x10) 27 16
def State.deadlineTack (s : State) : Nat := s.fld (rWpe 0x10) 11 0
def State.tackAxis (s : State) (n : Nat) : Nat := s.fld (rTack n 0x10) 11 8
def State.cycleClock (s : State) : Nat := s.fld (rAxis (s.tackAxis s.cycleTack) 0) 13 8 % 4

/-- The 20 bytes of a trajectory point (R355). -/
def TPoint.bytes (p : TPoint) : List Byte :=
  leBytes 4 p.tOfs ++ leBytes 4 (ofSigned 32 p.x) ++ leBytes 4 (ofSigned 32 p.y) ++ leBytes 2 p.head ++
    leBytes 2 p.speed ++ leBytes 2 (ofSigned 16 p.curv) ++ leBytes 2 (ofSigned 16 p.accel)

/-- The point held in 20 bytes (R355). -/
def TPoint.ofBytes (l : List Byte) : TPoint :=
  ⟨leAt l 0 4, toSigned 32 (leAt l 4 4), toSigned 32 (leAt l 8 4), leAt l 12 2, leAt l 14 2,
    toSigned 16 (leAt l 16 2), toSigned 16 (leAt l 18 2)⟩

/-- A point field of a frame: 17 slots, unused ones 0 (R356). -/
def pointSlots (l : List TPoint) : List Byte := sliceBytes (l.flatMap TPoint.bytes) 0 340

/-- The hard heel from a vehicle state with deceleration a and the cycle's target (R353). -/
def hardPoints (v : VState) (a : Nat) : List TPoint :=
  let v0 := v.speed
  let tstop := (1000000 * v0 + a - 1) / a
  let dt := max 1 ((tstop + 15) / 16)
  let ang := fOfFrac v.head (-16)
  (List.range 17).map fun k =>
    let t := min (k * dt) tstop
    let sk : Int := Int.tdiv (1000000 * (2 * v0 * t) - a * t * t : Int) 2000000000000
    let sp : Int := Int.tdiv (1000000 * v0 - a * t : Int) 1000000
    let fx := fTruncInt (fmul 0 (fOfInt sk) (fcost ang)).1
    let fy := fTruncInt (fmul 0 (fOfInt sk) (fsint ang)).1
    ⟨t, toSigned 32 (ofSigned 32 (v.x + fx)), toSigned 32 (ofSigned 32 (v.y + fy)), v.head, ofSigned 16 sp, 0,
      if t < tstop then -(a : Int) else 0⟩

/-- The latched vehicle state; where none was ever latched the spec states no values and each is an open value. -/
def State.latchedOrFree (s : State) : VState × State :=
  match s.wpe.latched with
  | some v => (v, s)
  | none =>
    let (x, s) := s.takeFree
    let (y, s) := s.takeFree
    let (h, s) := s.takeFree
    let (v, s) := s.takeFree
    (⟨toSigned 32 x, toSigned 32 y, h % 65536, v % 65536, 0⟩, s)

/-- The hard heel of this moment (R353): EPOCH 0, no corridor. -/
def State.hardHeel (s : State) : Traj × State :=
  let (v, s) := s.latchedOrFree
  (⟨s.wpe.t0, hardPoints v (s.fld (rWpe 0xA8) 15 0), 0, 0, 0, 0, true, false⟩, s)

/-- A heel is valid: its age is below HEEL_MAX_AGE and its corridor meets no changed region (R352). -/
def State.heelValid (s : State) (h : Traj) : Bool :=
  decide (h.age < s.fld (rWpe 0x24) 11 8) && decide (h.corridor &&& s.wpe.chgHf = 0)

/-- The source address the switch gives a trajectory frame: the spec states none. -/
def trajSource (s : State) : Nat × State := s.takeFree

/-- Register addresses of the Ethernet block (R579). -/
def rEth (o : Nat) : Nat := blkBase bETH + o
def rEthPort (n o : Nat) : Nat := rEth (0x10000 + 0x1000 * n + o)

/-- The link of a MAC is up. -/
def State.ethLink (s : State) (n : Nat) : Bool := s.bit (rEthPort n 4) 0

/-- The frames queued at a class of a port. -/
def State.ethQueue (s : State) (port cls : Nat) : List EthFrame := fmGetD [] s.eth.queues (port * 8 + cls)

/-- A frame appended to a class of a port. -/
def State.ethEnqueue (s : State) (port cls : Nat) (f : EthFrame) : State :=
  { s with eth.queues := fmPut s.eth.queues (port * 8 + cls) (s.ethQueue port cls ++ [f]) }

/-- One port takes a trajectory frame, or refuses it when its link is down or its class-7 queue holds 4 (R560, R561);
the flag says it was taken. -/
def State.trajToPort (s : State) (port : Nat) (f : EthFrame) : State × Bool :=
  if s.ethLink port && decide ((s.ethQueue port 7).length < 4) then (s.ethEnqueue port 7 f, true)
  else (s.bump (rEth 0xC), false)

/-- The trajectory frame goes to PORT_A, and to PORT_B when DUP is 1; refused everywhere it is lost (R357, R561). -/
def State.trajSend (s : State) (payload : List Byte) (seq : Nat) : State :=
  let cfg := s.word (rWpe 0xB0)
  let dup := bitOf cfg 31
  let (sa, s) := trajSource s
  let tci := 8192 * bitsOf cfg 12 10 + bitsOf cfg 27 16
  let rtag := if dup then beBytes 2 0xF1C1 ++ zeroBytes 2 ++ beBytes 2 (seq % 65536) else []
  let frame := beBytes 6 (s.word64 (rWpe 0xB8)) ++ beBytes 6 sa ++ beBytes 2 0x8100 ++ beBytes 2 tci ++ rtag ++
    beBytes 2 (s.fld (rWpe 0xB4) 15 0) ++ payload
  let f : EthFrame := ⟨frame, [], 17, 0, 0, true, false⟩
  let (s, okA) := s.trajToPort (bitsOf cfg 4 0) f
  let (s, okB) := if dup then s.trajToPort (bitsOf cfg 9 5) f else (s, false)
  if okA || okB then s else (s.bump (rEth 0x10)).orWord (rEth 0) 8

/-- The payload of a trajectory frame without its CRC (R356). -/
def framePayload (cmd flags seq cycle result : Nat) (plan : Option Traj) (heel : Traj) (tSend clock : Nat) : List Byte :=
  let np := match plan with | some p => p.pts.length | none => 0
  let pl := plan.getD ⟨0, [], 0, 0, 0, 0, false, false⟩
  leBytes 2 1 ++ leBytes 1 cmd ++ leBytes 1 flags ++ leBytes 4 seq ++ leBytes 4 cycle ++ leBytes 1 result ++
    leBytes 1 np ++ leBytes 1 heel.pts.length ++ leBytes 1 (min pl.age 255) ++ leBytes 8 pl.tRef ++ leBytes 8 heel.tRef ++
    leBytes 8 tSend ++ leBytes 4 pl.epoch ++ leBytes 4 heel.epoch ++ leBytes 2 pl.cost ++ leBytes 1 (min heel.age 255) ++
    leBytes 1 clock ++ zeroBytes 12 ++ pointSlots pl.pts ++ pointSlots heel.pts

/-- Builds one trajectory frame, mirrors it in WPE_FRAME, counts it and hands it to the switch (R356, R357). -/
def State.wpeFrame (s : State) (cmd flags result : Nat) (plan : Option Traj) (heel : Traj) : State :=
  let seq := s.word (rWpeCnt 10)
  let clk := s.cycleClock
  let body := framePayload cmd flags seq (s.word (rWpeCnt 0)) result plan heel (s.ptpNs clk) clk
  let payload := body ++ leBytes 4 (crc32c body)
  let s := (s.setRegBytes (rWpe 0x1000) payload).bump (rWpeCnt 10)
  s.trajSend payload seq

/-- FLAGS of a frame (R356). -/
def frameFlags (engaged rerun extra : Bool) : Nat := b2n engaged + 2 * b2n rerun + 4 * b2n extra

/-- The extra frame sent while the heel is engaged (R354). -/
def State.wpeExtra (s : State) (h : Traj) : State :=
  let s := s.setFld rWpeStatus 31 24 0
  s.wpeFrame (if h.hard then 3 else 2) (frameFlags true s.wpe.lastRerun true) (s.fld rWpeStatus 23 16) s.wpe.plan h

/-- The heel engages (R354): the valid heel in force, or the hard heel, is latched and an extra frame goes out. -/
def State.heelEngage (s : State) : State :=
  let (h, s) :=
    match s.wpe.heel with
    | some h => if s.heelValid h then (h, s) else s.hardHeel
    | none => s.hardHeel
  let s := { s with wpe.engaged := some h }
  let s := (s.setBit rWpeStatus 6 true).orWord rWpeIrq 0x200
  s.wpeExtra h

/-- Engagement ends when the fault class exits (R354). -/
def State.heelRelease (s : State) : State := { s with wpe.engaged := none }.setBit rWpeStatus 6 false

end Sys2Proof.Machine
end

