-- ==== Sys2Proof/Machine/Fault.lean ====
section
/-! DEFINITION. Recording a fault, whole: the collector's work and the heel's engagement (15_safety.md R493, R638;
10_planning_engine.md R354). Every block reports through these operations. -/

namespace Sys2Proof.Machine

/-- Class S or L is ACTIVE. -/
def State.safeActive (s : State) : Bool := s.bit rFltState stS || s.bit rFltState stL

/-- A fault event: the collector takes it, and a class S or L fault engages the heel when none was ACTIVE (R354, R505). A
fault caused by an injection carries INJECTED (R508). -/
def State.faultEv (s : State) (ev : FaultEv) : State :=
  let was := s.safeActive
  let s := s.collect { ev with inj := ev.inj || s.awl.inj }
  if s.safeActive && !was then s.heelEngage else s

/-- A fault from a source with class, master, unit and detail. -/
def State.fault (s : State) (src cls : Nat) (master : Master) (unit info : Nat) : State :=
  s.faultEv ⟨src, cls, 0, master, unit, info, 0, false⟩

/-- A fault that names an address and an access type (R502: 1 read, 2 write, 3 fetch, 4 atomic). -/
def State.faultAt (s : State) (src cls : Nat) (master : Master) (unit info access addr : Nat) : State :=
  s.faultEv ⟨src, cls, access, master, unit, info, addr, false⟩

/-- The class N record of an access rule (R638): source 0x26 with master, access and address. -/
def State.accessFault (s : State) (m : Master) (access addr : Nat) : State := s.faultAt 0x26 1 m 0 0 access addr

/-- An access refused by an access rule: an error response, no write, a class N record. -/
def State.refuse (s : State) (m : Master) (access addr : Nat) : State := (s.accessFault m access addr).respErr

/-- A write ignored by a rule, with a class N record and no error response. -/
def State.ignoreWr (s : State) (m : Master) (addr : Nat) : State := (s.accessFault m 2 addr).respOk []

end Sys2Proof.Machine
end

