-- ==== Sys2Proof/Machine/MemMap.lean ====
section
/-! DEFINITION. The physical address map (01_device.md R27 to R31, R639) and what MEM's loaded registers say of it
(12_memory.md R388 to R393, R404, R406). -/

namespace Sys2Proof.Machine

/-- Register addresses of MEM, CEL, PCI, ATU, MHS and SYS that the map depends on. -/
def rMem (o : Nat) : Nat := blkBase bMEM + o
def rCel (o : Nat) : Nat := blkBase bCEL + o
def rCell (c o : Nat) : Nat := rCel (0x10000 + 0x100 * c + o)
def rPci (o : Nat) : Nat := blkBase bPCI + o
def rPciPort (n o : Nat) : Nat := rPci (0x1000 + 0x1000 * n + o)
def rAtu (o : Nat) : Nat := blkBase bATU + o
def rInst (i o : Nat) : Nat := rAtu (0x10000 + i * 0x40 + o)
def rMhs (o : Nat) : Nat := blkBase bMHS + o
def rModel (m o : Nat) : Nat := rMhs (0x1000 + m * 0x40 + o)
def rSys (o : Nat) : Nat := blkBase bSYS + o

/-- First addresses of the ranges of R27. -/
def tileBase : Nat := 0x200000000
def tileSize : Nat := 0x180000
def slcBase : Nat := 0x240000000
def hbmBase : Nat := 0x800000000
def lpBase : Nat := 0x4000000000
def portBase : Nat := 0x10000000000

/-- Where an address lies (R27, R29). -/
inductive AddrKind where
  | rom | sram | csr
  /-- The tile-store window of a logical cell. -/
  | tile (cell : Nat)
  | slc | hbm
  /-- An LPDDR region and the data offset in it. -/
  | lpddr (region ofs : Nat)
  | port (n : Nat)
  | unmapped
  deriving DecidableEq, Repr

/-- HBM ECC is STRONG. -/
def State.hbmStrong (s : State) : Bool := s.bit (rMem 8) 0

/-- Bytes of HBM data: 96 GiB, or 84 GiB in STRONG (R29, R388). -/
def State.hbmBytes (s : State) : Nat := if s.hbmStrong then 84 * 2 ^ 30 else 96 * 2 ^ 30

/-- Raw and usable bytes of LPDDR region r (R392); 0 for a region that does not exist. -/
def State.lpRaw (s : State) (r : Nat) : Nat :=
  if s.bit (rMem (0x200 + r * 16)) 17 then 2 ^ 28 * s.fld (rMem (0x200 + r * 16)) 10 0 else 0
def State.lpEcc (s : State) (r : Nat) : Bool := s.bit (rMem (0x200 + r * 16)) 16
def State.lpUsable (s : State) (r : Nat) : Nat := if s.lpEcc r then s.lpRaw r / 16 * 15 else s.lpRaw r

/-- The region, among the n from r on, that holds offset o of the usable space, and the offset in it. -/
def State.lpFind (s : State) : Nat → Nat → Nat → Option (Nat × Nat)
  | 0, _, _ => none
  | n + 1, r, o => if o < s.lpUsable r then some (r, o) else s.lpFind n (r + 1) (o - s.lpUsable r)

/-- Bytes of the SLC direct region (R405, R406). -/
def State.directBytes (s : State) : Nat := 2 ^ 24 * s.fld (rMem 0xC) 3 0

/-- The kind of a physical address (R27 to R29). -/
def State.addrKind (s : State) (a : Nat) : AddrKind :=
  if a < 0x40000 then .rom
  else if decide (0x8000000 ≤ a) && decide (a < 0x8800000) then .sram
  else if decide (csrBase ≤ a) && decide (a < 0x11900000) then .csr
  else if decide (tileBase ≤ a) && decide (a < tileBase + 256 * tileSize) then .tile ((a - tileBase) / tileSize)
  else if decide (slcBase ≤ a) && decide (a < slcBase + s.directBytes) then .slc
  else if decide (hbmBase ≤ a) && decide (a < hbmBase + s.hbmBytes) then .hbm
  else if decide (lpBase ≤ a) && decide (a < lpBase + 2 ^ 38) then
    match s.lpFind 16 0 (a - lpBase) with
    | some (r, d) => .lpddr r d
    | none => .unmapped
  else if decide (portBase ≤ a) && decide (a < 5 * portBase) then .port ((a - portBase) / portBase)
  else .unmapped

/-- The address holds stored data. -/
def AddrKind.isStorage : AddrKind → Bool
  | .sram | .tile _ | .slc | .hbm | .lpddr _ _ => true
  | _ => false

/-- HBM stack of an address (R388). -/
def hbmStack (a : Nat) : Nat := let o := a - hbmBase; ((o >>> 12) ^^^ (o >>> 22)) % 4

/-- The enabled controllers of an interleave group, ascending (R391). -/
def State.lpMembers (s : State) (g : Nat) : List Nat :=
  (List.range 4).filter fun n => decide (s.fld (rMem (0x100 + n * 4)) 1 0 ≠ 0) && decide (s.fld (rMem (0x100 + n * 4)) 17 16 = g)

/-- LPDDR controller that holds offset d of region r (R391, R392). -/
def State.lpCtrl (s : State) (r d : Nat) : Nat :=
  let g := s.fld (rMem (0x200 + r * 16)) 13 12
  let before := ((List.range r).filter fun q => decide (s.fld (rMem (0x200 + q * 16)) 13 12 = g)).foldl (fun x q => x + s.lpRaw q) 0
  let raw := before + if s.lpEcc r then 1024 * (d / 960) + d % 960 else d
  let ms := s.lpMembers g
  ms.getD (((raw >>> 12) ^^^ (raw >>> 20)) % max 1 ms.length) 0

/-- Home half of an HBM or LPDDR address, or half of an SLC direct byte (R404, R406). -/
def State.slcHalf (s : State) (a : Nat) : Nat :=
  match s.addrKind a with
  | .hbm => hbmStack a / 2
  | _ => (a >>> 12) % 2

/-- KIND and UNIT of an error record for an address (R409). -/
def State.memUnit (s : State) (a : Nat) : Nat × Nat :=
  match s.addrKind a with
  | .hbm => (0, hbmStack a)
  | .lpddr r d => (1, s.lpCtrl r d)
  | .slc => (2, s.slcHalf a)
  | .tile c => (3, c)
  | _ => (4, 0)

/-- The address lies in an LPDDR region with inline ECC OFF (R396). -/
def State.inlineOff (s : State) (a : Nat) : Bool :=
  match s.addrKind a with
  | .lpddr r _ => !s.lpEcc r
  | _ => false

/-- Tag of the critical range that holds an address: 0 none, 1 SAFETY, 2 PLAN; the island SRAM is SAFETY (R393). -/
def State.critTag (s : State) (a : Nat) : Nat :=
  if decide (sramBase ≤ a) && decide (a < sramBase + 0x800000) then 1
  else
    match (List.range 16).find? fun c =>
      decide (s.fld (rMem (0x400 + c * 16)) 1 0 ≠ 0) && decide (s.word64 (rMem (0x400 + c * 16)) / 4096 ≤ a / 4096) &&
        decide (a / 4096 ≤ s.word64 (rMem (0x408 + c * 16)) / 4096) with
    | some c => s.fld (rMem (0x400 + c * 16)) 1 0
    | none => 0

/-- The address lies in a critical range. -/
def State.critical (s : State) (a : Nat) : Bool := decide (s.critTag a ≠ 0)

/-- The address lies in the working or golden copy of a model (R403). -/
def State.modelAddr (s : State) (a : Nat) : Bool :=
  (List.range 32).any fun m =>
    let n := s.word64 (rModel m 0x18)
    let g := s.word64 (rModel m 8)
    let w := s.word64 (rModel m 0x10)
    decide (s.fld (rModel m 0) 2 0 ≠ 0) &&
      ((decide (g ≤ a) && decide (a < g + n)) || (decide (w ≤ a) && decide (a < w + n)))

/-- Index in the ownership map of an address (14_hosts_and_tenants.md R473). -/
def ownIndex (a : Nat) : Option Nat :=
  if decide (hbmBase ≤ a) && decide (a < 0x2000000000) then some ((a - hbmBase) >>> 21)
  else if decide (lpBase ≤ a) && decide (a < lpBase + 2 ^ 38) then some (49152 + ((a - lpBase) >>> 21))
  else if decide (slcBase ≤ a) && decide (a < slcBase + 2 ^ 28) then some (180224 + ((a - slcBase) >>> 21))
  else none

/-- Owner byte of an address; 0x7F where the map holds none (R403, R449). DEDUCED (log 22). -/
def State.owner (s : State) (a : Nat) : Nat :=
  match ownIndex a with
  | some k => (s.byte (s.word64 (rAtu 0x10) + k)).toNat
  | none => 0x7F

/-- A window of TWN_WIN admits an access to island SRAM by a master outside the Welt (15_safety.md R477, R513). -/
def State.sramWindow (s : State) (m : Master) (write : Bool) (a : Nat) : Bool :=
  (List.range 8).any fun w =>
    let lo := blkBase bTWN + 0x400 + w * 8
    let k := s.word (lo + 4)
    let pg := (a - sramBase) / 4096
    bitOf k 31 && bitOf k (mKind m) && (w ≠ 0 || s.fwp.safe ≠ 2 || m == mFwp 0) && (!write || bitOf k 16) &&
      decide (s.fld lo 10 0 ≤ pg) && decide (pg ≤ s.fld lo 10 0 + s.fld lo 26 16)

/-- A panel is power-gated (R31). -/
def State.panelGated (s : State) (p : Nat) : Bool := s.bit (rCel (0x100 + p * 4)) 5

/-- A partner-port window answers (R31): the port is enabled and its link is up. -/
def State.portUp (s : State) (n : Nat) : Bool := s.bit (rPciPort n 0) 0 && s.bit (rPciPort n 4) 0

/-- How an access to the map ends, before the block or storage is reached (R31). -/
inductive MapAnswer where
  | served
  /-- Error response, class N from source 0x26. -/
  | refused
  /-- Error response, class D from source 0x0E. -/
  | crossing
  deriving DecidableEq, Repr

/-- The answer of R31 to one access. A logical cell that is ABSENT has no tile store: DEDUCED (log 253). -/
def State.mapAnswer (s : State) (m : Master) (write : Bool) (a : Nat) : MapAnswer :=
  match s.addrKind a with
  | .rom => if write then .refused else .served
  | .sram => if insideWelt m || s.sramWindow m write a then .served else .crossing
  | .tile c => if s.panelGated (c / 16) || s.fld (rCell c 0) 3 0 = 0 then .refused else .served
  | .port n => if s.portUp n then .served else .refused
  | .unmapped => .refused
  | _ => .served

/-- Records a refused access to the map and answers it with an error (R31). -/
def State.mapRefuse (s : State) (m : Master) (access a : Nat) (ans : MapAnswer) : State :=
  match ans with
  | .served => s
  | .refused => s.refuse m access a
  | .crossing => (s.faultAt 0x0E 3 m 0 0 access a).respErr

end Sys2Proof.Machine
end

