-- ==== Sys2Proof/Machine/Fab.lean ====
section
/-! DEFINITION. Labels, regulators and guarantees of the fabric (13_fabric_and_conservation.md R413 to R427, R434 to
R436). -/

namespace Sys2Proof.Machine

def rFab (o : Nat) : Nat := blkBase bFAB + o
def rFabIrq : Nat := rFab 8
def rLbl (l o : Nat) : Nat := rFab (0x1000 + l * 0x20 + o)
def rReg (p l : Nat) : Nat := rFab (0x10000 + (256 * p + l) * 8)

/-- Destination class of an address (R422): 1 HBM, 2 LPDDR, 3 SLC direct or tile store, 4 host/IO die. -/
def State.destClass (s : State) (a : Nat) : Nat :=
  match s.addrKind a with
  | .hbm => 1
  | .lpddr _ _ => 2
  | .slc | .tile _ => 3
  | _ => 4

/-- A port's regulator of a label: key, rate, burst and cap (R420, R436). -/
def fabKey (p l : Nat) : Nat := 256 * p + l
def State.regRate (s : State) (p l : Nat) : Nat := s.fld (rReg p l) 15 0
def State.regBurst (s : State) (p l : Nat) : Nat := s.fld (rReg p l) 31 16
def State.regCap (s : State) (p l : Nat) : Int := (8000 * s.regBurst p l : Nat)

/-- The token count of a regulator now (R420): RATE is added every 0.5 ns, up to the cap. -/
def State.regTokens (s : State) (p l : Nat) : Int :=
  match fmGet s.fab.tok (fabKey p l) with
  | none => s.regCap p l
  | some (t, at_) => min (t + (s.regRate p l * (s.now / 2 - at_ / 2) : Nat)) (s.regCap p l)

def State.holdQueue (s : State) (p l : Nat) : List FabReq := fmGetD [] s.fab.holdQ (fabKey p l)

def State.setHoldQueue (s : State) (p l : Nat) (q : List FabReq) : State :=
  { s with fab.holdQ := if q.isEmpty then fmDel s.fab.holdQ (fabKey p l) else fmPut s.fab.holdQ (fabKey p l) q }

/-- A miss count of a label has become equal to THRESH (R427). -/
def State.guarThresh (s : State) (l count : Nat) : State :=
  let cfg := s.word (rLbl l 0)
  let th := bitsOf cfg 31 24
  if th ≠ 0 && count = th then
    let s := (s.orWord (rFab (0x20 + l / 32 * 4)) (2 ^ (l % 32))).orWord rFabIrq 1
    s.fault 0x16 (if bitOf cfg 23 then 3 else 1) 0 l 0
  else s

/-- FAB_MISS_CAPTURE takes the first miss (R426, R434). -/
def State.missCapture (s : State) (l p cause cls master late : Nat) : State :=
  let r := rFab 0x40
  if s.bit r 31 then s
  else
    let s := s.setWord r (l + 2 ^ 8 * p + 2 ^ 13 * cause + 2 ^ 16 * cls + 2 ^ 31)
    ((s.setWord (r + 4) master).setWord64 (r + 8) late).setWord64 (r + 16) s.recordTime.1

/-- A miss of a label is counted (R426, R427): o is the offset of its count. -/
def State.countMiss (s : State) (l o : Nat) : State :=
  let s := s.bump (rLbl l o)
  s.guarThresh l (s.word (rLbl l o))

/-- A request enters its master port (R417, R418, R421): rewritten to label 255 when it may not use its label, stamped with
its deadline and queued; a full queue accepts none. sys: a system master. -/
def State.fabIssue (s : State) (p l : Nat) (m : Master) (inst : Option (Fin 64)) (bytes : Nat) (write : Bool)
    (named : Option Nat) (cls : Nat) : State :=
  let cfg := s.word (rLbl l 0)
  let spoof := decide (l < 64) && bitOf cfg 22 && inst.isSome && !isInst inst (bitsOf cfg 21 16)
  let s := if spoof then ((s.bump (rLbl l 0x18)).orWord rFabIrq 0x10).fault 0x2A 1 m l 0 else s
  let named := if spoof then none else named
  let l := if spoof then 255 else l
  let q := s.holdQueue p l
  if q.length ≥ 64 then s
  else
    let own := named.getD 0
    let d := if own = 0 then s.fld (rLbl l 0) 15 0 else own
    let dl := if l < 64 then some (s.now + d * 64) else none
    s.setHoldQueue p l (q ++ [FabReq.mk p l bytes write m.toNat s.now dl cls none])

/-- The regulator's decision on the head of a label's hold queue (R420). -/
def execRegulatorRelease (port : Fin 32) (label : Fin 256) (s : State) : Host.Outcome State Fault Refusal :=
  let p := port.val
  let l := label.val
  match s.holdQueue p l with
  | [] => .next s
  | q :: rest =>
    let t := s.regTokens p l
    let cost : Int := (125 * q.bytes : Nat)
    let free := decide (s.regRate p l = 0)
    if (free && decide (l < 64)) || (!free && decide (t < min cost (s.regCap p l))) then .next s
    else
      let s := s.setHoldQueue p l rest
      let s := if free then s else { s with fab.tok := fmPut s.fab.tok (fabKey p l) (t - cost, s.now) }
      let hold := min ((s.now - q.issue) / 64) 0xFFFFFFFF
      let s := s.setWord (rLbl l 0x1C) (max hold (s.word (rLbl l 0x1C)))
      let (w0, n, full) := fmGetD (0, 0, false) s.fab.floor (fabKey p l)
      .next { s with
        fab.flight := s.fab.flight ++ [{ q with released := some s.now }],
        fab.floor := fmPut s.fab.floor (fabKey p l) (w0, n + q.bytes, full && !rest.isEmpty) }

/-- The oldest released request of a label completes at its port and is judged (R425, R426); cause: 0 none of the events of
R425, 2 substitution, 3 retrain, 4 link retry. -/
def execRequestComplete (port : Fin 32) (label : Fin 256) (cause : Fin 5) (s : State) : Host.Outcome State Fault Refusal :=
  let p := port.val
  let l := label.val
  match s.fab.flight.findIdx? fun q => decide (q.port = p) && decide (q.label = l) with
  | none => .next s
  | some i =>
    match s.fab.flight[i]? with
    | none => .next s
    | some q =>
      let s := { s with fab.flight := s.fab.flight.eraseIdx i }
      let s := s.setWord64 (rLbl l 0x10) (s.word64 (rLbl l 0x10) + q.bytes)
      match q.deadline with
      | none => .next s
      | some d =>
        if s.now ≤ d then .next s
        else
          let held := decide (q.released ≠ some q.issue)
          let c := if cause.val ≥ 2 then cause.val else if held then 1 else 0
          let s := s.missCapture l p c q.cls q.master ((s.now - d) / 4)
          .next (s.countMiss l 8)

/-- The end of a FLOOR_WIN window of a regulator (R423, R426). -/
def execFloorWindowEnd (port : Fin 32) (label : Fin 256) (s : State) : Host.Outcome State Fault Refusal :=
  let p := port.val
  let l := label.val
  if l ≥ 64 then .next s
  else
    let win := s.fld (rLbl l 4) 15 0
    let (w0, n, full) := fmGetD (0, 0, false) s.fab.floor (fabKey p l)
    let s := s.timeTo (w0 + 4000 * win)
    let s := { s with fab.floor := fmPut s.fab.floor (fabKey p l) (s.now, 0, !(s.holdQueue p l).isEmpty) }
    if full && n + s.regBurst p l * 64 < s.regRate p l * 16 * win then
      let m := match s.holdQueue p l with | q :: _ => q.master | [] => 0
      .next ((s.missCapture l p 5 (s.fld (rLbl l 4) 18 16) m 0).countMiss l 0xC)
    else .next s

/-- A link that has failed replay 16 times in a row retrains (R415, R430). Its record is class N: DESIGN CHOICE (log 70). -/
def execLinkRetrain (link : Fin 46) (s : State) : Host.Outcome State Fault Refusal :=
  if s.fab.links.contains link.val then .next s
  else
    .next (({ s with fab.links := insertNat link.val s.fab.links }.bump (rFab 0x1C)).fault 0x2A 1 0 link.val 0)

/-- A retraining link is trained: it replays, and the sender's credits are the receiver's free entries (R430). -/
def execFabricLinkRetrainDone (link : Fin 46) (s : State) : Host.Outcome State Fault Refusal :=
  .next { s with fab.links := s.fab.links.filter fun k => decide (k ≠ link.val),
                 fab.skew := fmDel s.fab.skew link.val }

/-- A write of FAB_MISS_CLR (R434). -/
def State.fabMissClr (s : State) (m : Master) (inst : Option (Fin 64)) (v : Nat) : State :=
  if inst.isSome || !s.sysWriter m then s.refuse m 2 (rFab 0x60)
  else (if bitOf v 0 then s.setBit (rFab 0x40) 31 false else s).respOk []

def execFabMissClr (m : Master) (inst : Option (Fin 64)) (v : BitVec 32) (s : State) : Host.Outcome State Fault Refusal :=
  .next (s.fabMissClr m inst v.toNat)

end Sys2Proof.Machine
end

