-- ==== Sys2Proof/Machine/Aes.lean ====
section
/-! DEFINITION. AES-256, its key wrap and the GCM tag, as the standards that R302, R610 and R611 name define them
(19_security.md R609 to R612). Bytes are numbers below 256. -/

namespace Sys2Proof.Machine

/-- Product in the field of AES: polynomial 0x11B. -/
def gmulGo : Nat → Nat → Nat → Nat → Nat
  | 0, _, _, acc => acc
  | k + 1, a, b, acc =>
    let acc := if b % 2 = 1 then acc ^^^ a else acc
    let a := if a ≥ 128 then (a * 2 % 256) ^^^ 0x1B else a * 2
    gmulGo k a (b / 2) acc

def gmul (a b : Nat) : Nat := gmulGo 8 a b 0

/-- The inverse in the field, 0 for 0: the 254th power. -/
def ginv (a : Nat) : Nat :=
  let a2 := gmul a a
  let a3 := gmul a2 a
  let a6 := gmul a3 a3
  let a12 := gmul a6 a6
  let a15 := gmul a12 a3
  let a30 := gmul a15 a15
  let a60 := gmul a30 a30
  let a120 := gmul a60 a60
  let a126 := gmul a120 a6
  let a127 := gmul a126 a
  gmul a127 a127

/-- A byte rotated left. -/
def rotl8 (x n : Nat) : Nat := (x * 2 ^ n + x / 2 ^ (8 - n)) % 256

def sbox (x : Nat) : Nat :=
  let b := ginv x
  b ^^^ rotl8 b 1 ^^^ rotl8 b 2 ^^^ rotl8 b 3 ^^^ rotl8 b 4 ^^^ 0x63

def invSbox (x : Nat) : Nat := ginv (rotl8 x 1 ^^^ rotl8 x 3 ^^^ rotl8 x 6 ^^^ 5)

/-- Lists of bytes XORed position by position. -/
def xorBytes (a b : List Nat) : List Nat := (a.zip b).map fun p => p.1 ^^^ p.2

/-- The words of the key schedule of AES-256 from word i on; the list holds the words so far, newest last. -/
def aesExpand : Nat → Nat → Nat → List (List Nat) → List (List Nat)
  | 0, _, _, ws => ws
  | k + 1, i, rc, ws =>
    let prev := ws.getD (i - 1) []
    let t :=
      if i % 8 = 0 then xorBytes ((prev.drop 1 ++ prev.take 1).map sbox) [rc, 0, 0, 0]
      else if i % 8 = 4 then prev.map sbox
      else prev
    aesExpand k (i + 1) (if i % 8 = 0 then gmul rc 2 else rc) (ws ++ [xorBytes (ws.getD (i - 8) []) t])

/-- The 15 round keys of 16 bytes of a 32-byte key. -/
def aesKeys (key : List Nat) : List (List Nat) :=
  let ws := aesExpand 52 8 1 ((List.range 8).map fun i => (key.drop (4 * i)).take 4)
  (List.range 15).map fun r => ((ws.drop (4 * r)).take 4).flatten

/-- Rows shifted: byte r of column c comes from column c + r. -/
def shiftRows (s : List Nat) : List Nat := (List.range 16).map fun i => s.getD ((i / 4 + i % 4) % 4 * 4 + i % 4) 0
def invShiftRows (s : List Nat) : List Nat := (List.range 16).map fun i => s.getD ((i / 4 + 4 - i % 4) % 4 * 4 + i % 4) 0

/-- Each column multiplied by the circulant of four coefficients. -/
def mixCols (k : List Nat) (s : List Nat) : List Nat :=
  (List.range 16).map fun i =>
    (List.range 4).foldl (fun acc j => acc ^^^ gmul (k.getD ((j + 4 - i % 4) % 4) 0) (s.getD (i / 4 * 4 + j) 0)) 0

/-- One block encrypted under round keys. -/
def aesEnc (ks : List (List Nat)) (b : List Nat) : List Nat :=
  let s := (List.range 13).foldl (fun s r => xorBytes (mixCols [2, 3, 1, 1] (shiftRows (s.map sbox))) (ks.getD (r + 1) []))
    (xorBytes b (ks.getD 0 []))
  xorBytes (shiftRows (s.map sbox)) (ks.getD 14 [])

/-- One block decrypted under round keys. -/
def aesDec (ks : List (List Nat)) (b : List Nat) : List Nat :=
  let s := (List.range 13).foldl (fun s r =>
      mixCols [14, 11, 13, 9] (xorBytes ((invShiftRows s).map invSbox) (ks.getD (13 - r) [])))
    (xorBytes b (ks.getD 14 []))
  xorBytes ((invShiftRows s).map invSbox) (ks.getD 0 [])

/-- Bytes of a number, most significant first, as numbers. -/
def beNats (n x : Nat) : List Nat := (beBytes n x).map fun b => b.toNat
/-- The number of bytes given as numbers, most significant first. -/
def natOfBe (l : List Nat) : Nat := l.foldl (fun n b => 256 * n + b) 0

/-- AES of a 16-byte block given and returned as a number. -/
def aesBlock (key x : Nat) : Nat := natOfBe (aesEnc (aesKeys (beNats 32 key)) (beNats 16 x))

/-- The steps of the key unwrap of RFC 3394 for n blocks, from step t down. -/
def unwrapGo (ks : List (List Nat)) (n : Nat) : Nat → Nat → List Nat → Nat × List Nat
  | 0, a, r => (a, r)
  | t + 1, a, r =>
    let i := t % n
    let b := natOfBe (aesDec ks (beNats 16 (2 ^ 64 * (a ^^^ (t + 1)) + r.getD i 0)))
    unwrapGo ks n t (b / 2 ^ 64) (setAt r i (b % 2 ^ 64))

/-- A 40-byte wrapped key under a key-encryption key: the 256-bit key, none when the integrity check fails. -/
def keyUnwrap (kek : Nat) (wrapped : List Byte) : Option Nat :=
  let w := wrapped.map fun b => b.toNat
  let r := (List.range 4).map fun i => natOfBe ((w.drop (8 + 8 * i)).take 8)
  let (a, r) := unwrapGo (aesKeys (beNats 32 kek)) 4 24 (natOfBe (w.take 8)) r
  if a = 0xA6A6A6A6A6A6A6A6 then some (r.foldl (fun n x => 2 ^ 64 * n + x) 0) else none

/-- The keystream block b of GCM under a 12-byte IV: counter 2 + b (R611). -/
def gcmStream (key iv b : Nat) : Nat := aesBlock key (2 ^ 32 * iv + (2 + b) % 2 ^ 32)

/-- Product in the field of GHASH: bit 127 of the number is the first bit. -/
def ghMulGo : Nat → Nat → Nat → Nat → Nat
  | 0, _, _, z => z
  | k + 1, x, v, z =>
    let z := if bitOf x k then z ^^^ v else z
    ghMulGo k x (if v % 2 = 1 then (v / 2) ^^^ (0xE1 * 2 ^ 120) else v / 2) z

def ghMul (x y : Nat) : Nat := ghMulGo 128 x y 0

/-- The 16-byte blocks of a byte string as numbers, the last filled with zeros. -/
def blocks16 (l : List Byte) : List Nat := (List.range (ceilDiv l.length 16)).map fun i => beAt l (16 * i) 16

/-- The GCM tag of a ciphertext with additional data. -/
def gcmTag (key iv : Nat) (aad ct : List Byte) : Nat :=
  let h := aesBlock key 0
  let y := (blocks16 aad ++ blocks16 ct ++ [2 ^ 64 * (aad.length * 8) + ct.length * 8]).foldl (fun y b => ghMul (y ^^^ b) h) 0
  y ^^^ aesBlock key (2 ^ 32 * iv + 1)

end Sys2Proof.Machine
end

