-- ==== Sys2Proof/Machine/Mem.lean ====
section
/-! DEFINITION. What MEM does with good and bad stored data (12_memory.md R394 to R410): error records, poison, reads and
writes. -/

namespace Sys2Proof.Machine

/-- An error record of MEM (R409): TYPE, KIND, UNIT, CLASS, ADDR, MASTER, INSTANCE, FLAGS and SYNDROME are given. -/
def State.memRecord (s : State) (type kind unit cls addr master owner flags syn : Nat) : State :=
  let q := s.mc.seq
  let base := s.word64 (rMem 0x28)
  let n := 2 ^ (base % 16)
  let slot := base / 32 % 2 ^ 47 * 32 + q % n * 32
  let rcd := leBytes 4 q ++ leBytes 1 type ++ leBytes 1 kind ++ leBytes 1 unit ++ leBytes 1 cls ++ leBytes 8 addr ++
    leBytes 2 master ++ leBytes 1 owner ++ leBytes 1 flags ++ leBytes 4 syn ++ leBytes 8 s.recordTime.1
  { (s.store slot rcd).setWord (rMem 0x30) q with mc.seq := (q + 1) % 2 ^ 32 }

/-- FLAGS of a record for an address (R409). -/
def State.memFlags (s : State) (a : Nat) : Nat :=
  b2n (s.critical a) + 2 * b2n (s.modelAddr a) + 4 * b2n (s.hbmStrong && decide (s.addrKind a = .hbm)) + 16 * b2n (s.inlineOff a)

/-- The record of an error at a granule. -/
def State.memRecordAt (s : State) (type cls a master syn : Nat) : State :=
  let g := granOf a
  let (kind, unit) := s.memUnit a
  s.memRecord type kind unit cls g master (s.owner a) (s.memFlags a) syn

/-- First register of the counts of a unit (R411): CE, UE, LATENT in order; the SLC has CE and UE only, and tile stores
have theirs at 0xE0. -/
def memCntBase (kind unit : Nat) : Nat :=
  match kind with
  | 0 => rMem (0x40 + unit % 4 * 16)
  | 1 => rMem (0x80 + unit % 4 * 16)
  | 2 => rMem (0xC0 + unit % 2 * 16)
  | _ => rMem 0xE0

/-- Key of a unit in the list of recent CE records (R410). -/
def ceKey (kind unit : Nat) : Nat := if kind = 0 then unit else if kind = 1 then 4 + unit else 8 + unit

/-- A correctable error: counted, class C, and recorded unless its granule has a record less than 1 s old (R399, R410). -/
def State.memCE (s : State) (type a : Nat) (m : Master) (access syn : Nat) : State :=
  let (kind, unit) := s.memUnit a
  let g := granOf a
  let s := if kind = 4 then s else s.bump (memCntBase kind unit)
  let past := fmGetD [] s.mc.ceLog (ceKey kind unit)
  let again := decide (kind < 3) && past.any fun p => decide (p.1 = g) && decide (s.now < p.2 + 4000000000)
  let s :=
    if again then s.bump (rMem 0x34)
    else
      let s := if kind < 3 then { s with mc.ceLog := fmPut s.mc.ceLog (ceKey kind unit) (((g, s.now) :: past).take 64) } else s
      (s.memRecordAt type 2 a m.toNat syn).orWord (rMem 0) 1
  s.faultAt 0x14 2 m unit 0 access g

/-- Entries of the poison list of LPDDR controller c (R396): the poisoned granules it holds in inline-ECC-OFF regions. -/
def State.plUsed (s : State) (c : Nat) : Nat :=
  (s.poison.filter fun g =>
    match s.addrKind g with
    | .lpddr r d => !s.lpEcc r && decide (s.lpCtrl r d = c)
    | _ => false).length

/-- A granule becomes poisoned; where its region is inline-ECC-OFF it enters the poison list, or the poison is lost when
the list is full (R395, R396). -/
def State.poisonGran (s : State) (a : Nat) (m : Master) : State :=
  let g := granOf a
  if s.poison.contains g then s
  else
    let put : State := { s with poison := insertNat g s.poison }
    match s.addrKind a with
    | .lpddr r d =>
      if s.lpEcc r then put
      else
        let c := s.lpCtrl r d
        if s.plUsed c < 256 then put
        else
          let s := (s.memRecordAt 8 3 a m.toNat 0).orWord (rMem 0) 0x20
          let s := (s.setBit (rMem (0x500 + c * 8)) 16 true).bump (rMem (0x504 + c * 8))
          s.faultAt 0x15 3 m c 0 2 g
    | _ => put

/-- Every granule of a range poisoned. -/
def State.poisonRange (s : State) (a n : Nat) (m : Master) : State := (granules a n).foldl (fun s g => s.poisonGran g m) s

/-- Class of an uncorrectable error: D in a critical range, otherwise N (R399). -/
def State.ueClass (s : State) (a : Nat) : Nat := if s.critical a then 3 else 1

/-- An uncorrectable error met by a read or a partial write: type 4 or 6 (R399, R400). -/
def State.memUE (s : State) (type a : Nat) (m : Master) (access syn : Nat) : State :=
  let (kind, unit) := s.memUnit a
  let cls := s.ueClass a
  let s := s.poisonGran a m
  let s := if kind = 4 then s else s.bump (memCntBase kind unit + 4)
  let s := (s.memRecordAt type cls a m.toNat syn).orWord (rMem 0) (if type = 6 then 8 else 2)
  s.faultAt 0x14 cls m unit 0 access (granOf a)

/-- The class N record of a hart that receives poison (14_hosts_and_tenants.md R442). -/
def State.hartPoison (s : State) (m : Master) (access a : Nat) : State :=
  if mKind m = 1 then s.faultAt 0x14 1 m 0 0 access a else s

/-- Bytes stored from a on, clean or poisoned, into granules without a new error (R398, R400): a granule written whole
takes the state of the data; a granule written in part and already poisoned stays poisoned, with a UE_PARTIAL record
outside inline-ECC-OFF regions. -/
def State.memPut (s : State) (m : Master) (a : Nat) (l : List Byte) (bad : Bool) : State :=
  let n := l.length
  let partialGrans := (granules a n).filter fun g => !(decide (a ≤ g) && decide (g + granSize g ≤ a + n))
  let met := partialGrans.filter fun g => s.poison.contains g && !bad && !s.inlineOff g
  let s := s.store a l
  let s := met.foldl (fun s g => s.memUE 6 g m 2 0) s
  if bad then s.poisonRange a n m else s

/-- Offset of a partner-port address in its window (R30). -/
def portOffset (a : Nat) : Nat := a % portBase

/-- n bytes that come from outside: open values. -/
def State.freeBytes (s : State) (n : Nat) : List Byte × State :=
  let (v, s) := s.takeFree
  (leBytes n v, s)

/-- A range cut at multiples of 64 bytes, where windows begin and end. -/
def pages64 : Nat → Nat → Nat → List (Nat × Nat)
  | 0, _, _ => []
  | fuel + 1, a, n =>
    if n = 0 then []
    else
      let k := min n (64 - a % 64)
      (a, k) :: pages64 fuel (a + k) (n - k)

/-! Decryption windows (19_security.md R611, R612). -/

def rSecWin (w o : Nat) : Nat := blkBase bSEC + 0x400 + w * 0x20 + o
def rSec (o : Nat) : Nat := blkBase bSEC + o

/-- The enabled window that holds an address. -/
def State.winAt (s : State) (a : Nat) : Option Nat :=
  (List.range 64).find? fun w =>
    s.bit (rSecWin w 0xC) 31 && decide (s.word64 (rSecWin w 0) ≤ a) && decide (a < s.word64 (rSecWin w 0) + s.word (rSecWin w 8))

/-- An enabled window meets a range. -/
def State.winMeets (s : State) (a n : Nat) : Bool :=
  (List.range 64).any fun w =>
    s.bit (rSecWin w 0xC) 31 && decide (s.word64 (rSecWin w 0) < a + n) && decide (a < s.word64 (rSecWin w 0) + s.word (rSecWin w 8))

/-- FWP-MODEL, which sees the ciphertext. -/
def isFwpModel (m : Master) : Bool := m == mFwp 5

/-- WIN_FAULT with its class. -/
def State.winFault (s : State) (m : Master) (cls w access a : Nat) : State :=
  (s.orWord (rSec 4) 8).faultAt 0x24 cls m w 0 access a

/-- The bytes of a window from a on, decrypted with the keystream of its slot's key. -/
def winBytes (key iv base a : Nat) (l : List Byte) : List Byte :=
  let o := a - base
  let ks := ((List.range (l.length / 16 + 2)).flatMap fun k => beBytes 16 (gcmStream key iv (o / 16 + k))).drop (o % 16)
  (l.zip ks).map fun p => p.1 ^^^ p.2

/-- A read of stored bytes as a master sees them: plaintext of the windows they lie in; poison where a slot is empty. -/
def State.windowRead (s : State) (m : Master) (a n : Nat) : State × (List Byte × Bool) :=
  let l := s.bytes a n
  let bad := s.poisoned a n
  if isFwpModel m || !s.winMeets a n then (s, (l, bad))
  else
    (pages64 (n / 64 + 2) a n).foldl (fun acc p =>
      let (s, l, bad) := acc
      let l' := s.bytes p.1 p.2
      match s.winAt p.1 with
      | none => (s, l ++ l', bad)
      | some w =>
        match fmGet s.sec.slots (s.fld (rSecWin w 0xC) 3 0) with
        | none => (s.winFault m 3 w 1 p.1, l ++ l', true)
        | some key => (s, l ++ winBytes key (beNat (s.regBytes (rSecWin w 0x10) 12)) (s.word64 (rSecWin w 0)) p.1 l', bad))
      (s, [], bad)

/-- A write by a unit of the ZH8 through the map: error responses follow R31, a partner-port window forwards (R30), and an
enabled decryption window takes FWP-MODEL's writes only (R612); the flag tells whether it was performed. Register blocks take
no such write: they are refused as an access of the unit. -/
def State.dmaWrite (s : State) (m : Master) (a : Nat) (l : List Byte) (bad : Bool) : State × Bool :=
  match s.mapAnswer m true a with
  | .served =>
    match s.addrKind a with
    | .port n => (s.emit (.pcie n 0 bad 0 true (portOffset a) l.length l), true)
    | .csr => (s.accessFault m 2 a, false)
    | _ =>
      if !isFwpModel m && s.winMeets a l.length then (s.winFault m 1 0 2 a, false) else (s.memPut m a l bad, true)
  | .refused => (s.accessFault m 2 a, false)
  | .crossing => (s.faultAt 0x0E 3 m 0 0 2 a, false)

/-- A read by a unit of the ZH8 through the map: bytes and whether they carry poison; none with an error response. What a
link partner returns and what the boot ROM holds is not stated: open values. -/
def State.dmaRead (s : State) (m : Master) (a n : Nat) : State × Option (List Byte × Bool) :=
  match s.mapAnswer m false a with
  | .served =>
    match s.addrKind a with
    | .port p =>
      let s := s.emit (.pcie p 0 false 0 false (portOffset a) n [])
      let (l, s) := s.freeBytes n
      (s, some (l, false))
    | .csr => (s.accessFault m 1 a, none)
    | .rom =>
      let (l, s) := s.freeBytes n
      (s, some (l, false))
    | _ => match s.windowRead m a n with | (s, r) => (s, some r)
  | .refused => (s.accessFault m 1 a, none)
  | .crossing => (s.faultAt 0x0E 3 m 0 0 1 a, none)

/-- A transfer split at 4 KiB boundaries (R639): the pieces as address and length, from a on. -/
def pages : Nat → Nat → Nat → List (Nat × Nat)
  | 0, _, _ => []
  | fuel + 1, a, n =>
    if n = 0 then []
    else
      let k := min n (4096 - a % 4096)
      (a, k) :: pages fuel (a + k) (n - k)

/-- A long read, piece by piece: none when any piece gets an error response. -/
def State.dmaReadLong (s : State) (m : Master) (a n : Nat) : State × Option (List Byte × Bool) :=
  (pages (n / 4096 + 2) a n).foldl (fun acc p =>
    match acc with
    | (s, none) => (s, none)
    | (s, some (l, bad)) =>
      match s.dmaRead m p.1 p.2 with
      | (s, some (l', bad')) => (s, some (l ++ l', bad || bad'))
      | (s, none) => (s, none)) (s, some ([], false))

/-- A long write, piece by piece: false when any piece got an error response; the others are performed. -/
def State.dmaWriteLong (s : State) (m : Master) (a : Nat) (l : List Byte) (bad : Bool) : State × Bool :=
  (pages (l.length / 4096 + 2) a l.length).foldl (fun acc p =>
    let (s, ok) := acc.1.dmaWrite m p.1 ((l.drop (p.1 - a)).take p.2) bad
    (s, acc.2 && ok)) (s, true)

end Sys2Proof.Machine
end

