-- ==== Sys2Proof/Machine/Atu.lean ====
section
/-! DEFINITION. Instances and the address translation unit (14_hosts_and_tenants.md R444 to R451, R469, R473). -/

namespace Sys2Proof.Machine

/-! Instances (R444, R445, R469). -/

def State.instKind (s : State) (i : Nat) : Nat := s.fld (rInst i 0) 1 0
def State.instPort (s : State) (i : Nat) : Nat := s.fld (rInst i 0) 5 4
def State.instVf (s : State) (i : Nat) : Nat := s.fld (rInst i 0) 11 6
def State.instState (s : State) (i : Nat) : Nat := s.fld (rInst i 0) 17 16
def State.instGen (s : State) (i : Nat) : Nat := s.fld (rInst i 4) 15 0

/-- The generation that a request of a master carries now (R416, R469); system masters carry none. -/
def State.genOf (s : State) (inst : Option (Fin 64)) : Nat := match inst with | some i => s.instGen i.val | none => 0

/-- An instance number as an instance operand. -/
def asInst (i : Nat) : Option (Fin 64) := some (Fin.ofNat 64 i)

/-! Translation (R446 to R450). Causes of failure: 1 invalid entry or reserved bits, 2 permission, 3 ownership, 4 walk read,
5 address beyond the mode's range; with the stage. Which of 1 and 2 names what is DEDUCED (log 80). -/

/-- What an access needs: 1 read, 2 write, 3 fetch, 4 atomic (R502). -/
def permBits : Nat → Nat
  | 1 => 1
  | 2 => 2
  | 3 => 4
  | _ => 3

/-- Owner of the cells' window: the instance of the clicking that holds cell c (R449). -/
def State.cellInst (s : State) (c : Nat) : Nat := s.fld (rCell c 0) 22 17

/-- The ownership rules of R449 for a physical address. -/
def State.ownOk (s : State) (i a : Nat) : Bool :=
  match s.addrKind a with
  | .hbm | .lpddr _ _ | .slc => let o := s.owner a; decide (o = i) || decide (o = 0x41)
  | .tile c => decide (s.cellInst c = i)
  | .port n => bitOf (s.word (rInst i 0)) (12 + n)
  | .csr => true
  | .rom | .sram => false
  | .unmapped => true

/-- A page-table entry read by a walk: memory that answers without poison (R447, R450). -/
def State.walkRead (s : State) (a : Nat) : Option Nat :=
  if (s.addrKind a).isStorage && decide (s.mapAnswer mWalker false a = .served) && !s.poisoned a 8 then some (s.mnat a 8) else none

/-- What one page-table entry says at a level: none where it is invalid. A leaf gives its frame, permissions and whether A
and D are set; a pointer gives the next table. -/
inductive Pte where
  | bad
  | next (ppn : Nat)
  | leaf (ppn perm : Nat) (user acc dirty napot : Bool)
  deriving DecidableEq, Repr

/-- Decodes a page-table entry at a level (RISC-V privileged architecture, Svnapot and Svpbmt). PRESUMED (log 81). -/
def pteOf (level e : Nat) : Pte :=
  let r := bitOf e 1
  let w := bitOf e 2
  let x := bitOf e 3
  let ppn := bitsOf e 53 10
  if !bitOf e 0 || (w && !r) || bitsOf e 60 54 ≠ 0 || bitsOf e 62 61 = 3 then .bad
  else if !r && !x then
    if bitOf e 4 || bitOf e 6 || bitOf e 7 || bitsOf e 63 61 ≠ 0 || level = 0 then .bad else .next ppn
  else if ppn % 2 ^ (9 * level) ≠ 0 then .bad
  else if bitOf e 63 && (level ≠ 0 || ppn % 16 ≠ 8) then .bad
  else .leaf ppn (b2n r + 2 * b2n w + 4 * b2n x) (bitOf e 4) (bitOf e 6) (bitOf e 7) (bitOf e 63)

/-- The physical page of a leaf for page number v. -/
def leafPage (level ppn v : Nat) (napot : Bool) : Nat :=
  if napot then ppn / 16 * 16 + v % 16 else ppn + v % 2 ^ (9 * level)

/-- A leaf permits an access (R446: A, and D for a write, must be set). -/
def leafPermits (perm acc : Nat) (a d : Bool) : Bool :=
  decide (perm &&& permBits acc = permBits acc) && a && (d || !decide (acc = 2 ∨ acc = 4))

/-- A stage-2 walk from a table at ppn for page v of the IPA: the physical page and permissions (R446, R447). -/
def State.walk2 (s : State) (i : Nat) (acc v : Nat) : Nat → Nat → Nat → Except Nat (Nat × Nat)
  | 0, _, _ => .error 1
  | fuel + 1, level, table =>
    let idx := if level = 3 then v / 2 ^ 27 % 2048 else v / 2 ^ (9 * level) % 512
    let a := 4096 * table + idx * 8
    if !s.ownOk i a then .error 3
    else
      match s.walkRead a with
      | none => .error 4
      | some e =>
        match pteOf level e with
        | .bad => .error 1
        | .next p => s.walk2 i acc v fuel (level - 1) p
        | .leaf p perm u ac d n =>
          if !u || !leafPermits perm acc ac d then .error 2 else .ok (leafPage level p v n, perm)

/-- Stage 2 of instance i for page v of the IPA: the physical page and permissions. -/
def State.stage2 (s : State) (i acc v : Nat) : Except Nat (Nat × Nat) :=
  let root := s.word64 (rInst i 0x10)
  if root / 2 ^ 60 = 0 then .ok (v, 7)
  else if v ≥ 2 ^ 38 then .error 5
  else s.walk2 i acc v 4 3 (root % 2 ^ 44)

/-- A stage-1 walk from a table at ppn (an intermediate physical page) for page v: the IPA page and permissions. The error
says the cause and its stage. -/
def State.walk1 (s : State) (i acc v : Nat) : Nat → Nat → Nat → Except (Nat × Nat) (Nat × Nat)
  | 0, _, _ => .error (1, 1)
  | fuel + 1, level, table =>
    match s.stage2 i 1 table with
    | .error c => .error (c, 2)
    | .ok (pt, _) =>
      let a := 4096 * pt + v / 2 ^ (9 * level) % 512 * 8
      if !s.ownOk i a then .error (3, 1)
      else
        match s.walkRead a with
        | none => .error (4, 1)
        | some e =>
          match pteOf level e with
          | .bad => .error (1, 1)
          | .next p => s.walk1 i acc v fuel (level - 1) p
          | .leaf p perm _ ac d n =>
            if !leafPermits perm acc ac d then .error (2, 1) else .ok (leafPage level p v n, perm)

/-- The walk of both stages for page v (R446); only stage 2 when s2only (R454). -/
def State.walkPage (s : State) (i acc v : Nat) (s2only : Bool) : Except (Nat × Nat) (Nat × Nat) :=
  let root := s.word64 (rInst i 0x18)
  let first : Except (Nat × Nat) (Nat × Nat) :=
    if s2only || root / 2 ^ 60 = 0 then .ok (v, 7)
    else if v < 2 ^ 35 || (2 ^ 52 - 2 ^ 35 ≤ v) then s.walk1 i acc (v % 2 ^ 36) 4 3 (root % 2 ^ 44)
    else .error (5, 1)
  match first with
  | .error e => .error e
  | .ok (v1, p1) =>
    match s.stage2 i acc v1 with
    | .error c => .error (c, 2)
    | .ok (p, p2) => .ok (p, p1 &&& p2)

/-- A fault of the ATU (R450, R473): record, counts, interrupt and fault. -/
def State.atuFault (s : State) (i : Nat) (m : Master) (acc va cause stage : Nat) : State :=
  let q := s.atu.frecs
  let rcd := leBytes 4 q ++ leBytes 1 i ++ leBytes 1 cause ++ leBytes 1 stage ++ [0] ++ leBytes 2 m.toNat ++ zeroBytes 6 ++
    leBytes 8 va ++ leBytes 8 s.recordTime.1
  let s := (s.setRegBytes (rAtu (0x1000 + q % 64 * 32)) rcd).setWord (rAtu 0x24) q
  let s := { s with atu.frecs := (q + 1) % 2 ^ 32 }
  let s := ((s.bump (rAtu 0x28)).bump (rInst i 0x20)).orWord (rAtu 4) (if cause = 3 then 3 else 1)
  s.faultAt 0x19 (if cause = 3 then 3 else 1) m i 0 acc va

/-- The cached translation of a page, when one is held for the access (R448). -/
def State.cachedPage (s : State) (i acc v : Nat) : Option Nat :=
  (s.atu.tlb.find? fun e => decide (e.inst = i) && decide (e.va = v) && decide (e.perm &&& permBits acc = permBits acc)).map fun e => e.pa

/-- One translation by instance i of the bytes from va on, which lie in one 4 KiB page: the physical address, or the fault
recorded. A page still cached from before a change of the tables may be used or not (R448, R451): an open value decides. -/
def State.xlatBy (s : State) (i : Nat) (m : Master) (acc va : Nat) (s2only : Bool) : State × Option Nat :=
  let v := va / 4096 % 2 ^ 52
  let fresh := s.walkPage i acc v s2only
  let old := if s2only then none else s.cachedPage i acc v
  let done (s : State) (p : Nat) : State × Option Nat :=
    let pa := 4096 * p + va % 4096
    if s.ownOk i pa then (s, some pa) else (s.atuFault i m acc va 3 2, none)
  match fresh, old with
  | .ok (p, perm), none =>
    done (if s2only then s else { s with atu.tlb := AtuEntry.mk i v p perm :: s.atu.tlb }) p
  | .ok (p, perm), some q =>
    if p = q then done s p
    else
      let (f, s) := s.takeFree
      if f % 2 = 0 then done s q
      else done { s with atu.tlb := AtuEntry.mk i v p perm :: (s.atu.tlb.filter fun e => !(decide (e.inst = i) && decide (e.va = v))) } p
  | .error (c, st), none => (s.atuFault i m acc va c st, none)
  | .error (c, st), some q =>
    let (f, s) := s.takeFree
    if f % 2 = 0 then done s q else (s.atuFault i m acc va c st, none)

/-- An access of a hart that acts for instance i: its own MMU has translated it (R446); an instance of a kind that no hart acts
for gets an access fault and a class N record (R444), and the ownership rules hold (R449). -/
def State.hartAccess (s : State) (i : Nat) (m : Master) (acc a : Nat) : State × Option Nat :=
  if s.instKind i ≠ 1 && s.instKind i ≠ 2 then (s.accessFault m acc a, none)
  else if s.ownOk i a then (s, some a)
  else (s.atuFault i m acc a 3 2, none)

/-- The physical address of an access: a system master's own address, a hart's as its MMU gave it, another instance master's
through the ATU (R446). -/
def State.xlat (s : State) (inst : Option (Fin 64)) (m : Master) (acc va : Nat) : State × Option Nat :=
  match inst with
  | none => (s, some va)
  | some i => if mKind m = 1 then s.hartAccess i.val m acc va else s.xlatBy i.val m acc va false

/-! Accesses through translation and map. The error says what failed: translation, or an error response (R31). -/

inductive AccErr where
  | translation | response
  deriving DecidableEq, Repr

/-- A read of n bytes within a page: the bytes and whether they carry poison. -/
def State.rdV (s : State) (inst : Option (Fin 64)) (m : Master) (acc va n : Nat) : State × Except AccErr (List Byte × Bool) :=
  match s.xlat inst m acc va with
  | (s, none) => (s, .error .translation)
  | (s, some pa) =>
    match s.dmaRead m pa n with
    | (s, none) => (s, .error .response)
    | (s, some r) => (s, .ok r)

/-- A write within a page; none on success. -/
def State.wrV (s : State) (inst : Option (Fin 64)) (m : Master) (va : Nat) (l : List Byte) (bad : Bool) : State × Option AccErr :=
  match s.xlat inst m 2 va with
  | (s, none) => (s, some .translation)
  | (s, some pa) =>
    match s.dmaWrite m pa l bad with
    | (s, true) => (s, none)
    | (s, false) => (s, some .response)

/-- A read of any length, page by page; the first failure ends it. -/
def State.rdLong (s : State) (inst : Option (Fin 64)) (m : Master) (va n : Nat) : State × Except AccErr (List Byte × Bool) :=
  (pages (n / 4096 + 2) va n).foldl (fun acc p =>
    match acc with
    | (s, .error e) => (s, .error e)
    | (s, .ok (l, b)) =>
      match s.rdV inst m 1 p.1 p.2 with
      | (s, .error e) => (s, .error e)
      | (s, .ok (l', b')) => (s, .ok (l ++ l', b || b'))) (s, .ok ([], false))

/-- A write of any length, page by page; the first failure ends it. -/
def State.wrLong (s : State) (inst : Option (Fin 64)) (m : Master) (va : Nat) (l : List Byte) (bad : Bool) :
    State × Option AccErr :=
  (pages (l.length / 4096 + 2) va l.length).foldl (fun acc p =>
    match acc with
    | (s, some e) => (s, some e)
    | (s, none) => s.wrV inst m p.1 ((l.drop (p.1 - va)).take p.2) bad) (s, none)

/-! Invalidation (R451, R473). -/

/-- An entry falls under an invalidation word. -/
def invHits (w : Nat) (e : AtuEntry) : Bool :=
  match w % 4 with
  | 0 => true
  | 3 => decide (e.inst = bitsOf w 13 8) && decide (e.va = bitsOf w 51 12)
  | _ => decide (e.inst = bitsOf w 13 8)

/-- A write of ATU_INV: an instance may invalidate its own stage-1 entries only; a second request waits (R451). -/
def State.atuInv (s : State) (m : Master) (inst : Option (Fin 64)) (w : Nat) : State :=
  let ok := match inst with
    | none => s.sysWriter m
    | some i => decide (w % 4 ≥ 2) && decide (bitsOf w 13 8 = i.val)
  if !ok then s.refuse m 2 (rAtu 0x18)
  else ({ s with atu.inv := s.atu.inv ++ [w] }.setBit (rAtu 0x20) 0 true).respOk []

def execAtuInv (m : Master) (inst : Option (Fin 64)) (w : BitVec 64) (s : State) : Host.Outcome State Fault Refusal :=
  .next (s.atuInv m inst w.toNat)

/-- The oldest invalidation completes: its entries are gone (R451). -/
def execAtuInvDone (s : State) : Host.Outcome State Fault Refusal :=
  match s.atu.inv with
  | [] => .next s
  | w :: rest =>
    let s := { s with atu.inv := rest, atu.tlb := s.atu.tlb.filter fun e => !invHits w e }
    .next ((s.setBit (rAtu 0x20) 0 (!rest.isEmpty)).orWord (rAtu 4) 8)

end Sys2Proof.Machine
end

