-- ==== Sys2Proof/Machine/PhxAxis.lean ====
section
/-! DEFINITION. Phase axes and the reaching of targets (02_phase_engine.md R37 to R48, R57 to R62). -/

namespace Sys2Proof.Machine

/-- PHX interrupt register. -/
def rPhxIrq : Nat := rPhx 8

/-- A 64-bit difference modulo 2^64. -/
def sub64 (a b : Nat) : Nat := (a + 2 ^ 64 - b % 2 ^ 64) % 2 ^ 64

/-- R47: an axis value a has reached a target t. -/
def reached (a t : Nat) : Bool := let d := sub64 t a; decide (d = 0) || decide (d ≥ 2 ^ 63)

/-- TYPE of an axis: 0 TIME, 1 ANGLE, 2 LINE, 3 TRAVEL; SRC and SEL (R72). -/
def State.axType (s : State) (n : Nat) : Nat := s.fld (rAxis n 0) 1 0
def State.axSrc (s : State) (n : Nat) : Nat := s.fld (rAxis n 0) 6 4
def State.axSel (s : State) (n : Nat) : Nat := s.fld (rAxis n 0) 13 8
def State.axEn (s : State) (n : Nat) : Bool := s.bit (rAxis n 0) 2
def State.axScale (s : State) (n : Nat) : Nat := s.word (rAxis n 4)
def State.axMax (s : State) (n : Nat) : Nat := s.word (rAxis n 8)
def State.axValue (s : State) (n : Nat) : Nat := s.word64 (rAxis n 0x10)
def State.axStalled (s : State) (n : Nat) : Bool := s.bit (rAxis n 0x20) 0

/-- The hidden state of an axis. -/
def State.axis (s : State) (n : Nat) : AxisS := s.phx.axes.getD n .reset
def State.modAxis (s : State) (n : Nat) (f : AxisS → AxisS) : State := { s with phx.axes := modAt s.phx.axes n f }

/-- Fields of a tack (R50). -/
def State.tkAxis (s : State) (n : Nat) : Nat := s.fld (rTack n 0x10) 11 8
def State.tkTarget (s : State) (n : Nat) : Nat := s.word64 (rTack n 0)
def State.tkStep (s : State) (n : Nat) : Nat := s.word64 (rTack n 8)

/-- A BIDIR tack on a TRAVEL axis (R50, R61). -/
def State.tkBidir (s : State) (n : Nat) : Bool := s.bit (rTack n 0x10) 1 && decide (s.axType (s.tkAxis n) = 3)

/-- The direction in which a tack fires at axis value a: none, forward (false) or backward (true) (R47, R61). -/
def State.tkDue (s : State) (n a : Nat) : Option Bool :=
  let t := s.tkTarget n
  if s.tkBidir n then
    if s.tkStep n = 0 then
      let side := s.bit (rTack n 0x28) 10
      if reached a t = side then none else some side
    else if reached a t then some false
    else if !reached a (sub64 t (s.tkStep n)) then some true
    else none
  else if reached a t then some false
  else none

/-- The armed tacks of axis n that a discontinuity from value a to value b reaches are marked, and the mark of one that b
leaves unreached goes (R57, R61); PHX_IRQ_STATUS shows STEPPED when there is one. -/
def State.markSteps (s : State) (n a b : Nat) : State :=
  let hit (k : Nat) : Bool := decide (s.tkAxis k = n) && (s.tkDue k a).isNone && (s.tkDue k b).isSome
  let any := s.phx.tk.any fun p => hit p.1
  let mark (p : Nat × TackS) : Nat × TackS :=
    if hit p.1 then (p.1, { p.2 with disc := true })
    else if decide (s.tkAxis p.1 = n) && (s.tkDue p.1 b).isNone then (p.1, { p.2 with disc := false })
    else p
  let s := { s with phx.tk := s.phx.tk.map mark }
  if any then s.orWord rPhxIrq 0x80 else s

/-- An axis takes a value; a discontinuity sets STEPPED and marks tacks (R44, R72). -/
def State.setAxis (s : State) (n v : Nat) (disc : Bool) : State :=
  let old := s.axValue n
  let s := s.setWord64 (rAxis n 0x10) (v % 2 ^ 64)
  if disc then (s.setBit (rAxis n 0x20) 6 true).markSteps n old (v % 2 ^ 64) else s

/-- An update reaches an axis: counted, and a stall ends (R45). -/
def State.axUpdate (s : State) (n : Nat) : State :=
  let s := (s.bump (rAxis n 0x28)).modAxis n fun x => { x with lastUpd := s.now }
  if s.axStalled n then s.setBit (rAxis n 0x20) 0 false else s

/-- An anomaly flag of PHX_AXIS_STATUS, which raises AXIS_ANOMALY. -/
def State.axAnomaly (s : State) (n bit : Nat) : State := (s.setBit (rAxis n 0x20) bit true).orWord rPhxIrq 0x40

/-- BACKSTEP and JUMP with their counts (R39, R40, R43). -/
def State.axBackstep (s : State) (n : Nat) : State := (s.axAnomaly n 3).bumpSat (rAxis n 0x2C) 15 0
def State.axJump (s : State) (n : Nat) : State := (s.axAnomaly n 4).bumpSat (rAxis n 0x2C) 31 16

/-- An enabled axis whose state is not held (R70). -/
def State.axLive (s : State) (n : Nat) : Bool := s.axEn n && !(s.axis n).held

/-- A TIME axis follows its clock (R38): ns of the clock modulo 2^64; disc for an accepted step. -/
def State.timeFollow (s : State) (n : Nat) (disc : Bool) : State :=
  (s.axUpdate n).setAxis n (s.ptpNs (s.axSel n % 4) % 2 ^ 64) disc

/-- The TIME axes that follow clock c take its value (R38, R62). -/
def State.timeAxes (s : State) (c : Nat) (disc : Bool) : State :=
  (List.range 16).foldl (fun s n =>
    if s.axLive n && decide (s.axType n = 0) && decide (s.axSel n % 4 = c) then s.timeFollow n disc else s) s

/-- A sample of 2^-32 turn on an ANGLE axis (R39). -/
def State.angleSample (s : State) (n a : Nat) : State :=
  let s := s.axUpdate n
  let v := s.axValue n
  let delta := (a + 2 ^ 32 - v % 2 ^ 32) % 2 ^ 32
  if delta ≥ 2 ^ 31 then s.axBackstep n
  else if delta > s.axMax n then (s.axJump n).setAxis n (v + delta) true
  else s.setAxis n (v + delta) false

/-- The backlog of an ANGLE axis, 64 bits saturating, shown at 32 bits (R40). -/
def State.setBacklog (s : State) (n b : Nat) : State :=
  let b := min b (2 ^ 64 - 1)
  (s.modAxis n fun x => { x with backlog := b }).setWord (rAxis n 0x24) (min b 0xFFFFFFFF)

/-- An amount added to the backlog: the crossing of MAXSTEP sets and counts BACKSTEP (R40, R41). -/
def State.addBacklog (s : State) (n d : Nat) : State :=
  let b := (s.axis n).backlog
  let s := s.setBacklog n (b + d)
  if b ≤ s.axMax n && (s.axis n).backlog > s.axMax n then s.axBackstep n else s

/-- A forward count of SCALE: it first reduces the backlog (R40). -/
def State.angleForward (s : State) (n : Nat) : State :=
  let b := (s.axis n).backlog
  let k := s.axScale n
  if b = 0 then s.setAxis n (s.axValue n + k) false
  else if b ≥ k then s.setBacklog n (b - k)
  else (s.setBacklog n 0).setAxis n (s.axValue n + (k - b)) false

/-- An index edge (R41). -/
def State.indexEdge (s : State) (n : Nat) : State :=
  let s := s.axUpdate n
  let v := s.axValue n
  let e := toSigned 32 (2 ^ 32 - v % 2 ^ 32)
  let big := decide (e.natAbs > s.axMax n)
  let s := if big then (s.axAnomaly n 5).bumpSat (rAxis n 0x38) 15 0 else s
  if e ≥ 0 then s.setAxis n (v + e.toNat) big
  else
    let s := s.addBacklog n e.natAbs
    if big then s.setAxis n v true else s

/-- A signed distance of k counts on a TRAVEL axis (R43). -/
def State.travelAdd (s : State) (n : Nat) (k : Int) : State :=
  let s := s.axUpdate n
  let d : Int := k * s.axScale n
  let x : Int := (65536 * s.axValue n + (s.axis n).frac : Nat)
  let y := ofSigned 80 (x + d)
  let jump := decide (d.natAbs > 65536 * s.axMax n)
  let s := if jump then s.axJump n else s
  let s := s.setBit (rAxis n 0x20) 10 (decide (k < 0))
  (s.modAxis n fun q => { q with frac := y % 65536 }).setAxis n (y / 65536) jump

/-- The value of a LINE axis at a frame end: one line after the last started one (R42). -/
def lineEndValue (v : Nat) : Nat := 2 ^ 20 * (v / 2 ^ 20) + min (v % 2 ^ 20 + 1) 0xFFFFF

/-- A frame start on a LINE axis: a missing frame end is implied first, and is no discontinuity (R42, R44). -/
def State.lineFrameStart (s : State) (n : Nat) : State :=
  let s := s.axUpdate n
  let s := if (s.axis n).frameOpen then (s.axAnomaly n 8).setAxis n (lineEndValue (s.axValue n)) false else s
  let v := s.axValue n
  (s.modAxis n fun x => { x with frameOpen := true }).setAxis n (2 ^ 20 * (v / 2 ^ 20 + 1)) true

/-- A line start on a LINE axis (R42). -/
def State.lineLineStart (s : State) (n l : Nat) : State :=
  let s := s.axUpdate n
  let v := s.axValue n
  let s := if l > 0xFFFFF then s.axAnomaly n 7 else s
  let l := min l 0xFFFFF
  if l > v % 2 ^ 20 then s.setAxis n (2 ^ 20 * (v / 2 ^ 20) + l) false else s.axAnomaly n 7

/-- A frame end on a LINE axis (R42). -/
def State.lineFrameEnd (s : State) (n : Nat) : State :=
  let s := s.axUpdate n
  if !(s.axis n).frameOpen then s.axAnomaly n 7
  else
    let v := s.axValue n
    (s.modAxis n fun x => { x with frameOpen := false }).setAxis n (lineEndValue v) false

/-- The axes of a type and source that follow SEL. -/
def State.axesOf (s : State) (type src sel : Nat) : List Nat :=
  (List.range 16).filter fun n =>
    s.axLive n && decide (s.axType n = type) && decide (s.axSrc n = src) && decide (s.axSel n = sel)

/-- A frame on a CAN controller reaches the TRAVEL axes that select it (R43): id, IDE, format and data. -/
def State.travelCan (s : State) (ctrl id fmt : Nat) (ide : Bool) (data : List Byte) : State :=
  (s.axesOf 3 0 ctrl).foldl (fun s n =>
    let c := s.word (rAxis n 0x30)
    let want := if bitsOf c 31 30 = 2 then bitsOf c 10 0 else bitsOf c 28 0
    let got := if fmt = 2 then id % 2048 else id
    if !(decide (want = got) && decide (bitsOf c 31 30 = fmt) && (decide (fmt = 2) || decide (bitOf c 29 = ide))) then s
    else
      let f := s.word (rAxis n 0x34)
      let first := bitsOf f 10 0
      let nb := bitsOf f 13 12 + 1
      let w := 8 * nb
      if data.length < first + nb then s.axAnomaly n 9
      else
        let v := if bitOf f 14 then beAt data first nb else leAt data first nb
        if bitOf f 15 then s.travelAdd n (toSigned w v)
        else
          match (s.axis n).canBase with
          | none => (s.axUpdate n).modAxis n fun x => { x with canBase := some v }
          | some b =>
            let k := toSigned w ((v + 2 ^ w - b) % 2 ^ w)
            (s.modAxis n fun x => { x with canBase := some v }).travelAdd n k) s

end Sys2Proof.Machine
end

