-- ==== Sys2Proof/Machine/Phx.lean ====
section
/-! DEFINITION. Tacks: writing, arming, firing, pins and the event FIFO, and the meanings of the phase engine's commands
(02_phase_engine.md R45 to R71). The actions of the dispatch queue are in PhxDispatch.lean. -/

namespace Sys2Proof.Machine

/-! Event FIFO (R71). -/

/-- PHX_EVT_DATA shows the head of the FIFO. -/
def State.syncEvt (s : State) : State := s.setWord64 (rPhx 0x10) (s.phx.evt.headD 0)

/-- An event enters the FIFO, or is lost when it is full. -/
def State.pushEvt (s : State) (kind n late : Nat) : State :=
  if s.phx.evt.length ≥ 512 then (s.bump (rPhx 0x18)).orWord rPhxIrq 0x100
  else
    let e := n + 2 ^ 12 * kind + 2 ^ 15 + 2 ^ 16 * s.tkAxis n + 2 ^ 32 * min late 0xFFFFFFFF
    { s with phx.evt := s.phx.evt ++ [e] }.syncEvt

/-- The newest entry of a tack that tells of a firing becomes an entry of a failed action; none there: one is added
(R58, R71: at most one entry a firing; log 44). -/
def State.failEvt (s : State) (n : Nat) : State :=
  let hit (e : Nat) : Bool := decide (e % 4096 = n) && decide (bitsOf e 14 12 ≤ 1)
  match s.phx.evt.reverse.findIdx? hit with
  | some k =>
    let i := s.phx.evt.length - 1 - k
    { s with phx.evt := modAt s.phx.evt i fun e => setBitsOf e 14 12 4 }.syncEvt
  | none => s.pushEvt 4 n (s.word64 (rTack n 0x20))

/-- An action of a tack fails (R58): flags and counts without the FIFO entry. -/
def State.failFlags (s : State) (n code : Nat) : State :=
  let s := (s.setBit (rTack n 0x28) 5 true).setFld (rTack n 0x28) 19 16 code
  (s.bump (rPhx 0x24)).orWord rPhxIrq 0x10

/-- An action fails after its firing has entered the FIFO. -/
def State.actionFail (s : State) (n code : Nat) : State := (s.failFlags n code).failEvt n

/-! Deadline checks (R63). -/

/-- An event reaches PHX: the CHECK tacks of that kind and object have seen it. -/
def State.phxEvent (s : State) (kind obj : Nat) : State :=
  let hit (k : Nat) : Bool :=
    decide (s.fld (rTack k 0x10) 15 12 = 8) && decide (s.fld (rTack k 0x14) 1 0 = kind) &&
      decide (s.word (rTack k 0x18) % 2 ^ (match kind with | 0 => 12 | 1 => 19 | 2 => 6 | _ => 2) = obj)
  { s with phx.tk := s.phx.tk.map fun p => if hit p.1 then (p.1, { p.2 with event := true }) else p }

/-! Owners (R54, R55, R71). -/

/-- The pin named by an action may be acted on by a tack: enabled, and not owned by another instance (R55). -/
def State.pinOk (s : State) (pin : Nat) (owned : Bool) (owner : Nat) : Bool :=
  let c := s.word (rPhx (0x400 + pin * 4))
  bitOf c 0 && (!bitOf c 14 || (owned && decide (bitsOf c 13 8 = owner)))

/-- The action drives a pin. -/
def pinAction (a : Nat) : Bool := a == 1 || a == 2 || a == 3 || a == 7

/-- A write of ARM = 1 with these settings is refused (R55). -/
def State.armBad (s : State) (n cfg : Nat) : Bool :=
  let ax := bitsOf cfg 11 8
  let act := bitsOf cfg 15 12
  let a0 := s.word (rTack n 0x14)
  let a1 := s.word (rTack n 0x18)
  let step := s.tkStep n
  !s.bit (rPhx 0) 0 || !s.axEn ax || decide (act > 8) ||
    (act == 8 && !([1, 3, 4, 5].contains (bitsOf a0 6 4))) ||
    decide (step ≥ 2 ^ 63) ||
    (pinAction act && !s.pinOk (a0 % 16) (bitOf cfg 22) (bitsOf cfg 21 16)) ||
    (decide (s.axType ax = 2) && decide (step / 2 ^ 20 ≠ 0)) ||
    ((act == 3 || act == 7) && decide (a1 < 2)) ||
    (act == 5 && decide (a0 % 512 ≥ 272))

/-- A tack disarms. -/
def State.disarm (s : State) (n : Nat) : State :=
  { s.setBit (rTack n 0x10) 0 false with phx.tk := fmDel s.phx.tk n }

/-- A repeating BIDIR tack moves T by whole steps until T - STEP is at most A and A is below T (R61). -/
def State.bidirPlace (s : State) (n a : Nat) : State :=
  let st := s.tkStep n
  let t := s.tkTarget n
  let d := toSigned 64 (sub64 a t)
  let j : Int := d / (st : Int) + 1
  s.setWord64 (rTack n 0) (ofSigned 64 ((t : Int) + j * st))

/-- An accepted arming: SIDE, the placing of a BIDIR lattice, and what the tack remembers (R55, R57, R61). -/
def State.armNow (s : State) (n : Nat) : State :=
  let a := s.axValue (s.tkAxis n)
  let bi := s.tkBidir n
  let s := if bi && s.tkStep n ≠ 0 then s.bidirPlace n a else s
  let s := if bi && s.tkStep n = 0 then s.setBit (rTack n 0x28) 10 (reached a (s.tkTarget n)) else s
  let t := s.tkTarget n
  let late := !bi && reached a t && decide (sub64 a t ≠ 0)
  { s.setBit (rTack n 0x10) 0 true with phx.tk := fmPut s.phx.tk n ⟨late, false, false, a, false⟩ }

/-- A master may write a tack entry at all (R54): a system writer, or the owner of an owned entry. -/
def State.tackWriter (s : State) (m : Master) (inst : Option (Fin 64)) (n : Nat) : Bool :=
  match inst with
  | none => s.sysWriter m
  | some i => s.bit (rTack n 0x10) 22 && decide (s.fld (rTack n 0x10) 21 16 = i.val)

/-- A tack write that R54 ignores. -/
def State.tackRefused (s : State) (m : Master) (n addr : Nat) : State :=
  ((s.setBit (rTack n 0x28) 8 true).bump (rPhx 0x28)).ignoreWr m addr

/-- A write that leaves a tack alone for want of any right: an error response for a master that is neither system nor
instance. -/
def State.tackStranger (s : State) (m : Master) (inst : Option (Fin 64)) : Bool := inst.isNone && !s.sysWriter m

/-- A write of TACK_CFG (R54 to R56): every field of the word, with ARM as given. -/
def State.tackCfgWrite (s : State) (m : Master) (inst : Option (Fin 64)) (n v : Nat) : State :=
  let addr := rTack n 0x10
  let old := s.word addr
  let mask := 0x7FFF3F -- bits 22:8, 5:0
  let travel := decide (s.axType (bitsOf v 11 8) = 3)
  let v := (if travel then v else setBitsOf v 1 1 0) &&& 0x7FFF7F
  let same := decide ((old &&& (mask - 1)) = (v &&& (mask - 1)))
  let lockSet := bitOf v 6 && !bitOf old 6
  let armed := bitOf old 0
  let owns := decide (bitsOf v 22 16 = bitsOf old 22 16)
  if s.tackStranger m inst then s.refuse m 2 addr
  else if !s.tackWriter m inst n || bitOf old 6 || (inst.isSome && !owns) || (armed && (!same || lockSet)) then
    s.tackRefused m n addr
  else
    let s := s.setWord addr ((v &&& (mask - 1)) ||| (old &&& 0x41) ||| (v &&& 0x40))
    if bitOf v 0 then
      if armed then s.respOk []
      else if s.armBad n v then (s.setBit (rTack n 0x28) 7 true).respOk []
      else (s.armNow n).respOk []
    else (if armed then s.disarm n else s).respOk []

/-- Offsets of the tack registers that TACK_WRITE names: TARGET, STEP, ARG0, ARG1, LIMIT, STATUS, FIRES, MISSES. -/
def tackOff (r : Nat) : Nat := [0x0, 0x8, 0x14, 0x18, 0x1C, 0x28, 0x38, 0x3C].getD r 0x2C

/-- A write of a tack register other than TACK_CFG (R54). -/
def State.tackRegWrite (s : State) (m : Master) (inst : Option (Fin 64)) (n r v : Nat) : State :=
  let o := tackOff r
  let addr := rTack n o
  let wide := decide (r < 2)
  let cur := if wide then s.word64 addr else s.word addr
  let v := if wide then v % 2 ^ 64 else v % 2 ^ 32
  let armed := s.bit (rTack n 0x10) 0
  let free := decide (r ≥ 5)
  if s.tackStranger m inst then s.refuse m 2 addr
  else if !s.tackWriter m inst n || s.bit (rTack n 0x10) 6 || (armed && !free && decide (v ≠ cur)) then s.tackRefused m n addr
  else if r = 5 then (s.setWord addr (cur - (cur &&& (v &&& 0x1FF)))).respOk []
  else if wide then (s.setWord64 addr v).respOk []
  else (s.setWord addr v).respOk []

/-! Firing (R57 to R61). -/

/-- Points of a LINE lattice from line l on to the first point of the next frame (R59). -/
def linePoints (step h l : Nat) : Nat := if l ≥ h || step = 0 then 1 else ceilDiv (h - l) step + 1

/-- next() of R59 on a LINE axis of height h. -/
def lineNext (step h t : Nat) : Nat :=
  let f := t / 2 ^ 20
  let l := t % 2 ^ 20
  if l ≥ h then (2 ^ 20 * (f + 1) + min step h) % 2 ^ 64 else (2 ^ 20 * f + min (l + step) h) % 2 ^ 64

/-- next() until the target is not reached: target and steps taken. -/
def lineRearm (step h a : Nat) : Nat → Nat → Nat → Nat × Nat
  | 0, t, k => (t, k)
  | fuel + 1, t, k =>
    let t := lineNext step h t
    if reached a t then lineRearm step h a fuel t (k + 1) else (t, k + 1)

/-- The next target of a repeating tack and how many lattice points it moves (R59, R61). Whole frames of a LINE axis that
lie behind are counted at once. -/
def State.rearm (s : State) (n a : Nat) (back : Bool) : Nat × Nat :=
  let t := s.tkTarget n
  let st := s.tkStep n
  let ax := s.tkAxis n
  if s.axType ax = 2 then
    let h := s.axScale ax
    let df := (a / 2 ^ 20 + 2 ^ 44 - t / 2 ^ 20) % 2 ^ 44
    if df ≤ 1 then lineRearm st h a (2 ^ 21) t 0
    else
      let k1 := linePoints st h (t % 2 ^ 20)
      let per := linePoints st h (min st h)
      let t2 := 2 ^ 20 * (t / 2 ^ 20 + df) + min st h
      let k2 := k1 + (df - 1) * per
      if reached a (t2 % 2 ^ 64) then lineRearm st h a (2 ^ 21) (t2 % 2 ^ 64) k2 else (t2 % 2 ^ 64, k2)
  else if back then
    let d := sub64 (sub64 t st) a
    let k := (d - 1) / st + 1
    (ofSigned 64 ((t : Int) - (k * st : Nat)), k)
  else
    let k := sub64 a t / st + 1
    ((t + k * st) % 2 ^ 64, k)

/-- After a firing or a miss a one-shot tack disarms and a repeating one moves on (R59); e is the axis value that the
next placement counts from. -/
def State.afterFire (s : State) (n a e : Nat) (back : Bool) : State :=
  if s.tkStep n = 0 then s.disarm n
  else
    let (t, k) := s.rearm n a back
    let s := s.setWord64 (rTack n 0) t
    let s := if k > 1 then (s.bumpBy (rTack n 0x3C) (k - 1)).setBit (rTack n 0x28) 4 true else s
    { s with phx.tk := fmPut s.phx.tk n ⟨false, false, false, e, false⟩ }

/-- LATE, MISSED and STEP_CROSSED describe the last outcome (R51). -/
def State.outcomeFlags (s : State) (n : Nat) (late missed disc : Bool) : State :=
  ((s.setBit (rTack n 0x28) 1 late).setBit (rTack n 0x28) 2 missed).setBit (rTack n 0x28) 3 disc

/-- The WPE is told of a firing or a miss of its two tacks (10_planning_engine.md R335). -/
def State.signalWpe (s : State) (n t : Nat) (missed : Bool) : State :=
  let s := if n = s.cycleTack then { s with wpe.cycleSig := some (t, missed) } else s
  if n = s.deadlineTack && !missed then { s with wpe.deadlineSig := some t } else s

/-- The time of a pin edge: domain and ns. An edge of a TIME axis lies at its target; when the evaluation after the
arming, within 16 ns of it (R55), comes after T - 32 ns with T still ahead, the edge lies 32 to 36 ns after that evaluation
(R67). Both times are open values. -/
def State.edgeTime (s : State) (n t a : Nat) : Nat × Nat × Bool × State :=
  let ax := s.tkAxis n
  if s.axType ax = 0 then
    let e := match fmGet s.phx.tk n with | some k => k.armVal | none => a
    let clk := s.axSel ax % 4
    let d := sub64 t e
    if reached e t then (clk, a, false, s)
    else if d ≥ 48 then (clk, t, false, s)
    else
      let (f, s) := s.takeFree
      let (g, s) := s.takeFree
      let k := f % min 17 d
      if d ≥ k + 32 then (clk, t, false, s) else (clk, e + k + 32 + g % 5, true, s)
  else (4, s.now / 4, false, s)

/-- Edges handed to the pin placer. -/
def State.addEdges (s : State) (l : List PinEdge) : State := { s with phx.edges := s.phx.edges ++ l }

/-- What comes of an action at its firing: done, failed with a code, or a failed check. -/
inductive ActResult where
  | done
  | failed (code : Nat)
  | checkFailed
  deriving DecidableEq, Repr

/-- The action of a firing (R52): pin actions go to the placer, the others but NONE and CHECK enter the dispatch queue. -/
def State.act (s : State) (n t a : Nat) : State × ActResult :=
  let cfg := s.word (rTack n 0x10)
  let act := bitsOf cfg 15 12
  let a0 := s.word (rTack n 0x14)
  let a1 := s.word (rTack n 0x18)
  let owned := bitOf cfg 22
  let owner := bitsOf cfg 21 16
  if pinAction act then
    let pin := a0 % 16
    let s := if act = 7 then { s with sfe.fsync := fmPut s.sfe.fsync (bitsOf a0 9 4) s.recordTime.1, sfe.fsyncSeen := insertNat (bitsOf a0 9 4) s.sfe.fsyncSeen } else s
    if !s.pinOk pin owned owner then (s, .failed 2)
    else
      let (dom, tm, lateEdge, s) := s.edgeTime n t a
      let s := if lateEdge then s.setWord64 (rTack n 0x20) (tm - t) else s
      let s := s.addEdges [PinEdge.mk pin dom tm (decide (act ≠ 2)) n]
      let s := if act = 3 || act = 7 then s.addEdges [PinEdge.mk pin dom (tm + a1) false n] else s
      (s, .done)
  else if act = 0 then (s, .done)
  else if act = 8 then
    let ok := match fmGet s.phx.tk n with | some k => k.event | none => false
    if ok then (s, .done)
    else
      let s := (s.setBit (rTack n 0x28) 6 true).orWord rPhxIrq 8
      let c := bitsOf a0 6 4
      (s.fault 0x1B (if c = 3 || c = 4 || c = 5 then c else 1) (mPhx 0) n 0, .checkFailed)
  else
    let gen := if owned then s.word (blkBase bATU + 0x10000 + owner * 0x40 + 4) % 65536 else 0
    let s := { s with phx.queue := s.phx.queue ++ [PhxAct.mk n act a0 a1 t owned owner gen] }
    (s.setFld (rPhx 4) 24 16 s.phx.queue.length, .done)

/-- A tack found due fires (R57, R58): flags, counts, action, FIFO entry and re-arming. -/
def State.fire (s : State) (n a t late e : Nat) (isLate disc back : Bool) : State :=
  let cfg := s.word (rTack n 0x10)
  let s := (s.outcomeFlags n isLate false disc).setBit (rTack n 0x28) 0 true
  let s := if s.tkBidir n then s.setBit (rTack n 0x28) 9 back else s
  let s := s.bump (rTack n 0x38)
  let s := (s.setWord64 (rTack n 0x20) late).setWord64 (rTack n 0x30) s.recordTime.1
  let (s, res) := s.act n t a
  let s := s.phxEvent 0 n
  let s := s.signalWpe n t false
  let s := if bitOf cfg 3 then s.orWord rPhxIrq 1 else s
  let s := if isLate && bitOf cfg 4 then s.orWord rPhxIrq 2 else s
  let lateRec := s.word64 (rTack n 0x20)
  let s :=
    match res with
    | .failed code => (s.failFlags n code).pushEvt 4 n lateRec
    | .checkFailed => s.pushEvt 3 n lateRec
    | .done =>
      if isLate && (bitOf cfg 3 || bitOf cfg 4) then s.pushEvt 1 n lateRec
      else if !isLate && bitOf cfg 3 then s.pushEvt 0 n lateRec
      else s
  s.afterFire n a e back

/-- A LATE tack beyond its limit under SKIP_LATE misses (R57, R58). -/
def State.miss (s : State) (n a t late : Nat) (disc back : Bool) : State :=
  let cfg := s.word (rTack n 0x10)
  let s := (s.outcomeFlags n false true disc).bump (rTack n 0x3C)
  let s := if s.tkBidir n then s.setBit (rTack n 0x28) 9 back else s
  let s := (s.setWord64 (rTack n 0x20) late).setWord64 (rTack n 0x30) s.recordTime.1
  let s := s.signalWpe n t true
  let s := if bitOf cfg 4 then (s.orWord rPhxIrq 4).pushEvt 2 n late else s
  let s := s.fault 0x1B (if bitOf cfg 5 then 3 else 1) (mPhx 0) n 0
  s.afterFire n a a back

/-- The entry of a tack, or the state of its axis, shows an ECC error (R70): 1 corrected, 2 uncorrectable in the entry, 3
uncorrectable in the axis state. -/
def State.phxEcc (s : State) (n err : Nat) : State :=
  let locked (k : Nat) : Bool := s.bit (rTack k 0x10) 6
  if err = 1 then s.fault 0x1B 2 (mPhx 0) n 0
  else if err = 2 then (s.disarm n).fault 0x1B (if locked n then 4 else 3) (mPhx 0) n 0
  else
    let ax := s.tkAxis n
    let ks := (fmKeys s.phx.tk).filter fun k => decide (s.tkAxis k = ax)
    let cls := if ks.any locked then 4 else 3
    let s := s.modAxis ax fun x => { x with held := true }
    (ks.foldl State.disarm s).fault 0x1B cls (mPhx 0) ax 0

/-- A firing on a TIME axis that the evaluation 64 ns ahead of its target found due: the axis then holds the target and
the lateness is 0 (R64, R67). Not one that was reached at arming, through a step, or while the evaluation was paused. -/
def State.firesExact (s : State) (n : Nat) (k : TackS) : Bool :=
  decide (s.axType (s.tkAxis n) = 0) && !k.lateArm && !k.disc && !k.paused

/-- An armed tack is evaluated (R57, R64). A tack of a stalled axis, and any tack while evaluation is paused, waits; a
non-pin action that meets a full dispatch queue pauses the evaluation. -/
def execTackFire (tack : Fin 4096) (ecc : Fin 4) (s : State) : Host.Outcome State Fault Refusal :=
  let n := tack.val
  if ecc.val ≥ 2 then .next (s.phxEcc n ecc.val)
  else
    let s := if ecc.val = 1 then s.phxEcc n 1 else s
    match fmGet s.phx.tk n with
    | none => .next s
    | some k =>
      let ax := s.tkAxis n
      let a := s.axValue ax
      if !s.bit (rPhx 0) 0 || !s.axEn ax || s.axStalled ax || s.phx.pausedAt.isSome then .next s
      else
        match s.tkDue n a with
        | none => .next s
        | some back =>
          let t := s.tkTarget n
          let st := s.tkStep n
          let exact := s.firesExact n k
          let a := if exact then t else a
          let e := if exact then sub64 t 64 else a
          let point := if back && st ≠ 0 then sub64 t st else t
          let late := if back then sub64 point a else sub64 a point
          let isLate := k.lateArm || k.disc
          let cfg := s.word (rTack n 0x10)
          let lim := s.word (rTack n 0x1C)
          let skip := isLate && decide (lim ≠ 0xFFFFFFFF) && decide (late > lim) && bitOf cfg 2
          let act := bitsOf cfg 15 12
          if skip then .next (s.miss n a t late k.disc back)
          else if (act == 4 || act == 5 || act == 6) && decide (s.phx.queue.length ≥ 256) then
            .next ({ s with phx.pausedAt := some s.now }.setBit (rPhx 4) 1 true)
          else .next (s.fire n a t late e isLate k.disc back)

/-- The armed tacks whose targets were reached during a pause of the evaluation are marked (R64). -/
def State.markPaused (s : State) : State :=
  { s with phx.tk := s.phx.tk.map fun p =>
      if (s.tkDue p.1 (s.axValue (s.tkAxis p.1))).isSome then (p.1, { p.2 with paused := true }) else p }

/-- Evaluation resumes once the dispatch queue has room (R64); the paused cycles of 8 ns are counted. -/
def execEvaluationResume (s : State) : Host.Outcome State Fault Refusal :=
  match s.phx.pausedAt with
  | none => .next s
  | some t =>
    if s.phx.queue.length ≥ 256 then .next s
    else .next (({ s.markPaused with phx.pausedAt := none }.setBit (rPhx 4) 1 false).bumpBy (rPhx 0x1C) ((s.now - t) / 32))

/-! Axis commands. -/

/-- Takes the next event of a stream and kind that is on its way to the axes, when it is not held. -/
def State.takeAxisEv (s : State) (stream kind : Nat) : Option (AxisEv × State) :=
  match s.sfe.axisQ.findIdx? fun e => decide (e.stream = stream) with
  | none => none
  | some i =>
    match s.sfe.axisQ[i]? with
    | none => none
    | some e =>
      if decide (e.kind = kind) && e.held.isNone then some (e, { s with sfe.axisQ := s.sfe.axisQ.eraseIdx i }) else none

/-- An azimuth sample of a flow stream reaches the ANGLE axes that follow it (R39). -/
def execAngleSample (stream : Fin 64) (s : State) : Host.Outcome State Fault Refusal :=
  match s.takeAxisEv stream.val 3 with
  | none => .next s
  | some (e, s) => .next ((s.axesOf 1 0 stream.val).foldl (fun s n => s.angleSample n (e.val % 2 ^ 32)) s)

def execLineAxisFrameStart (stream : Fin 64) (s : State) : Host.Outcome State Fault Refusal :=
  match s.takeAxisEv stream.val 0 with
  | none => .next s
  | some (_, s) => .next ((s.axesOf 2 0 stream.val).foldl State.lineFrameStart s)

def execLineAxisLineStart (stream : Fin 64) (s : State) : Host.Outcome State Fault Refusal :=
  match s.takeAxisEv stream.val 1 with
  | none => .next s
  | some (e, s) => .next ((s.axesOf 2 0 stream.val).foldl (fun s n => s.lineLineStart n e.val) s)

def execLineAxisFrameEnd (stream : Fin 64) (s : State) : Host.Outcome State Fault Refusal :=
  match s.takeAxisEv stream.val 2 with
  | none => .next s
  | some (_, s) => .next ((s.axesOf 2 0 stream.val).foldl State.lineFrameEnd s)

/-- The level of PHASE_IN pin p after the filter. -/
def State.inLevel (s : State) (p : Nat) : Bool := s.bit (rPhx (0x440 + p * 4)) 16

/-- A quadrature transition of pin p is forward (R40): A leads B, or the reverse with DIR_INV. -/
def State.quadForward (s : State) (n p : Nat) : Bool :=
  let cfg := s.word (rAxis n 0)
  let a := s.inLevel (bitsOf cfg 18 16)
  let b := s.inLevel (bitsOf cfg 21 19)
  let f := if decide (bitsOf cfg 18 16 = p) then a != b else b == a
  xor f (bitOf cfg 26)

/-- An accepted edge on a PHASE_IN pin feeds axis n (R40, R41, R43). -/
def State.pinToAxis (s : State) (n p : Nat) (level : Bool) : State :=
  let cfg := s.word (rAxis n 0)
  let pa := bitsOf cfg 18 16
  let pb := bitsOf cfg 21 19
  let counted := level || s.bit (rPhx (0x440 + p * 4)) 1
  let ty := bitsOf cfg 1 0
  let src := bitsOf cfg 6 4
  if ty = 1 && (src = 1 || src = 2) && bitOf cfg 25 && bitsOf cfg 24 22 = p then
    if counted then s.indexEdge n else s
  else if ty = 1 && src = 1 && pa = p then
    if counted then (s.axUpdate n).angleForward n else s
  else if ty = 1 && src = 2 && (pa = p || pb = p) then
    let s' := s.axUpdate n
    if s.quadForward n p then s'.angleForward n else s'.addBacklog n (s.axScale n)
  else if ty = 3 && src = 1 && pa = p then
    if counted then
      let back := xor (s.inLevel pb) (bitOf cfg 26)
      s.travelAdd n (if back then -1 else 1)
    else s
  else if ty = 3 && src = 2 && (pa = p || pb = p) then s.travelAdd n (if s.quadForward n p then 1 else -1)
  else s

/-- An edge that the filter of a PHASE_IN pin accepts (R68). -/
def execPhaseInEdge (pin : Fin 8) (level : Bool) (s : State) : Host.Outcome State Fault Refusal :=
  let p := pin.val
  let r := rPhx (0x440 + p * 4)
  if !s.bit r 0 || s.bit r 16 == level then .next s
  else
    let s := (s.setBit r 16 level).setWord64 (rPhx (0x480 + p * 8)) s.recordTime.1
    .next ((List.range 16).foldl (fun s n => if s.axLive n then s.pinToAxis n p level else s) s)

/-- PHX_AXIS_LOAD (R46). -/
def State.axisLoad (s : State) (m : Master) (inst : Option (Fin 64)) (n v : Nat) : State :=
  let a := rAxis n 0x18
  if inst.isSome || !s.sysWriter m || s.axType n = 0 || !s.bit (rAxis n 0) 3 then s.refuse m 2 a
  else
    let s := if s.axType n = 1 then s.setBacklog n 0 else s
    let s := s.modAxis n fun x => { x with frac := 0 }
    (s.setAxis n v true).respOk []

def execAxisLoad (m : Master) (inst : Option (Fin 64)) (axis : Fin 16) (v : BitVec 64) (s : State) :
    Host.Outcome State Fault Refusal :=
  .next (s.axisLoad m inst axis.val v.toNat)

/-- An enabled axis has received no update for TIMEOUT microseconds (R45). -/
def execAxisStall (axis : Fin 16) (s : State) : Host.Outcome State Fault Refusal :=
  let n := axis.val
  let c := s.word (rAxis n 0xC)
  if !s.axEn n || bitsOf c 15 0 = 0 || s.axStalled n then .next s
  else
    let s := s.timeTo ((s.axis n).lastUpd + 4000 * bitsOf c 15 0)
    let s := ((s.setBit (rAxis n 0x20) 0 true).setBit (rAxis n 0x20) 1 true).orWord rPhxIrq 0x20
    .next (s.fault 0x1B (if bitOf c 16 then 3 else 1) (mPhx 0) n 0)

/-! Tack writes. -/

def execTackWrite (m : Master) (inst : Option (Fin 64)) (tack : Fin 4096) (reg : Fin 8) (v : BitVec 64) (s : State) :
    Host.Outcome State Fault Refusal :=
  .next (s.tackRegWrite m inst tack.val reg.val v.toNat)

/-- A write of TACK_CFG with ARM = 1 (R55). -/
def execTackArm (m : Master) (inst : Option (Fin 64)) (tack : Fin 4096) (cfg : BitVec 32) (s : State) :
    Host.Outcome State Fault Refusal :=
  .next (s.tackCfgWrite m inst tack.val (cfg.toNat ||| 1))

/-- A write of TACK_CFG with ARM = 0 (R56). -/
def execTackDisarm (m : Master) (inst : Option (Fin 64)) (tack : Fin 4096) (cfg : BitVec 32) (s : State) :
    Host.Outcome State Fault Refusal :=
  .next (s.tackCfgWrite m inst tack.val (setBitsOf cfg.toNat 0 0 0))

/-- Every armed tack of instance i disarms (R69). -/
def State.disarmOwned (s : State) (i : Nat) : State :=
  ((fmKeys s.phx.tk).filter fun k => decide (s.fld (rTack k 0x10) 22 16 = 64 + i)).foldl State.disarm s

/-! Pins (R65, R67, R68). -/

/-- The logical level of a PHASE_OUT pin changes; the ball shows it, inverted with INV. -/
def State.driveOut (s : State) (pin : Nat) (level : Bool) : State :=
  let r := rPhx (0x400 + pin * 4)
  (s.setBit r 16 level).emit (.pin (ballPhase + pin) (xor level (s.bit r 2)))

/-- The earliest edge of a list. -/
def earliest : List PinEdge → Option PinEdge
  | [] => none
  | e :: r => match earliest r with | none => some e | some x => some (if e.time ≤ x.time then e else x)

/-- The earliest scheduled edge of a pin is driven at its time; of several tacks in its 2 ns window only the highest is
performed (R65). -/
def execPhaseOutEdge (pin : Fin 16) (s : State) : Host.Outcome State Fault Refusal :=
  let p := pin.val
  match earliest (s.phx.edges.filter fun e => decide (e.pin = p)) with
  | none => .next s
  | some e =>
    if e.dom < 4 && s.ptpOn e.dom && decide (s.ptpNs e.dom < e.time) then .next s
    else
      let s := if e.dom < 4 then s else s.timeTo (e.time * 4)
      let inWin (x : PinEdge) : Bool := decide (x.pin = p) && decide (x.dom = e.dom) && decide (x.time / 2 = e.time / 2)
      let win := s.phx.edges.filter inWin
      let top := win.foldl (fun k x => max k x.tack) 0
      let s := { s with phx.edges := s.phx.edges.filter fun x => !inWin x }
      let s := (win.filter fun x => decide (x.tack ≠ top)).foldl (fun s x => (s.bump (rPhx 0x20)).actionFail x.tack 1) s
      match win.find? fun x => decide (x.tack = top) with
      | none => .next s
      | some x => if s.bit (rPhx (0x400 + p * 4)) 0 then .next (s.driveOut p x.level) else .next (s.actionFail x.tack 2)

/-- A read of PHX_EVT_DATA removes the head (R71): an instance gets an error response. -/
def execPhxEvtDataRead (m : Master) (inst : Option (Fin 64)) (s : State) : Host.Outcome State Fault Refusal :=
  if inst.isSome || !sysReader m then .next (s.refuse m 1 (rPhx 0x10))
  else
    let v := s.phx.evt.headD 0
    .next ({ s with phx.evt := s.phx.evt.drop 1 }.syncEvt.respOk (leBytes 8 v))

end Sys2Proof.Machine
end

