-- ==== Sys2Proof/Machine/Hqm.lean ====
section
/-! DEFINITION. Hardware queues (14_hosts_and_tenants.md R460 to R468, R474). -/

namespace Sys2Proof.Machine

def rHqm (o : Nat) : Nat := blkBase bHQM + o

/-- First byte of the table entry of a queue (R460). -/
def State.qEntry (s : State) (q : Nat) : Nat := 4096 * (s.word64 (rHqm 0x10) / 4096) + q * 32

def HqmQ.size (q : HqmQ) : Nat := 2 ^ q.log2n
def HqmQ.count (q : HqmQ) : Nat := (q.tail + 2 ^ 17 - q.head) % 2 ^ 17
def HqmQ.entryBytes (q : HqmQ) : Nat := 16 * 2 ^ q.esize
def HqmQ.prodSys (q : HqmQ) : Bool := bitOf q.flags 1
def HqmQ.consSys (q : HqmQ) : Bool := bitOf q.flags 2

/-- Queue q with its HEAD, TAIL and GEN written back to the table (R460). -/
def State.setQueue (s : State) (q : Nat) (x : HqmQ) : State :=
  let a := s.qEntry q
  ({ s with hqm.queues := fmPut s.hqm.queues q x }.storeNat (a + 0xE) 2 x.gen).store (a + 0x10) (leBytes 4 x.tail ++ leBytes 4 x.head)

/-- A counted error of the HQM with its capture (R474): row is the case of R465 or R466, from 1. -/
def State.qerr (s : State) (q row : Nat) (m : Master) (inst : Option (Fin 64)) (v : Nat) : State :=
  let s := (s.bump (rHqm 0x24)).orWord (rHqm 4) 1
  let s := if s.bit (rHqm 0x28) 31 then s
    else
      s.setWord64 (rHqm 0x28) (q % 2 ^ 19 + 2 ^ 20 * row + 2 ^ 24 * (match inst with | some i => i.val | none => 0) + 2 ^ 31 +
        2 ^ 32 * (v % 2 ^ 32))
  s.fault 0x1A 1 m (q % 2 ^ 16) q

/-- A notification that names a target it may not reach is dropped and counted (R468). -/
def State.notifyDrop (s : State) : State := s.bump (rHqm 0x24)

/-- The notification of queue q (R468). -/
def State.notify (s : State) (x : HqmQ) : State :=
  let n := x.notify
  let target := bitsOf n 7 2
  let file := bitsOf n 10 8
  let id := bitsOf n 31 16
  match n % 4 with
  | 0 => s
  | 1 =>
    if target ≥ 48 || (file ≠ 0 && s.instKind x.owner ≠ 2) then s.notifyDrop else s.emit (.imsic target file id)
  | 2 =>
    let v := fmGetD (MsixS.mk false [] []) s.pci.msix x.owner
    if s.instKind x.owner ≠ 3 || !v.on then s.notifyDrop
    else if v.masked.contains id then
      { s with pci.msix := fmPut s.pci.msix x.owner { v with pend := insertNat id v.pend } }
    else s.emit (.msix (s.instPort x.owner) (s.instVf x.owner + 1) id)
  | _ => if target ≥ 6 then s.notifyDrop else s.emit (.fwpNotify target id)

/-- TAIL of queue q advances to index t (R465, R466, R468). -/
def State.advanceTail (s : State) (q : Nat) (x : HqmQ) (t : Nat) : State :=
  let was := x.count
  let s := s.setQueue q { x with tail := t }
  let s := if bitOf x.flags 3 && (was = 0 || bitOf x.flags 4) then s.notify x else s
  s.phxEvent 1 q

/-- A doorbell reaches the HQM (R463, R465); the flag says that it is answered with an error. A system master may ring
either side and is not compared; an index behind the one held is handled as one out of range: DEDUCED (log 83). -/
def State.doorbell (s : State) (m : Master) (inst : Option (Fin 64)) (gen q v : Nat) : State × Bool :=
  match fmGet s.hqm.queues q with
  | none => (s.qerr q 1 m inst v, true)
  | some x =>
    let head := bitOf v 31
    let sys := if head then x.consSys else x.prodSys
    let idx := v % 2 ^ 17
    if x.faulted then (s.qerr q 1 m inst v, true)
    else if inst.isSome && (!isInst inst x.owner || sys) then (s.qerr q 2 m inst v, true)
    else if inst.isSome && gen ≠ x.gen then (s.bump (rHqm 0x20), false)
    else
      let new := if head then (x.tail + 2 ^ 17 - idx) % 2 ^ 17 else (idx + 2 ^ 17 - x.head) % 2 ^ 17
      let back := if head then decide (new > x.count) else decide (new < x.count)
      if bitsOf v 30 17 ≠ 0 || new > x.size || back then (s.qerr q 4 m inst v, false)
      else if head then (s.setQueue q { x with head := idx }, false)
      else if idx = x.tail then (s, false)
      else (s.advanceTail q x idx, false)

/-- HQM_DOORBELL (R464, R474). -/
def execHqmDoorbell (m : Master) (inst : Option (Fin 64)) (gen : BitVec 16) (v : BitVec 64) (s : State) :
    Host.Outcome State Fault Refusal :=
  let (s, err) := s.doorbell m inst gen.toNat (v.toNat % 2 ^ 19) (v.toNat / 2 ^ 32)
  .next (if err then s.respErr else s.respOk [])

/-! Posting by hardware (R466). -/

/-- How a post ends. -/
inductive PostResult where
  | done | full | gone
  deriving DecidableEq, Repr

/-- A post of an entry with a generation to queue q. -/
def State.post (s : State) (q gen : Nat) (data : List Byte) : State × PostResult :=
  match fmGet s.hqm.queues q with
  | none => (s.qerr q 1 mHqm none 0, .gone)
  | some x =>
    let own := asInst x.owner
    if gen ≠ x.gen then (s.bump (rHqm 0x20), .gone)
    else if x.faulted || !x.prodSys then (s.qerr q 5 mHqm own 0, .gone)
    else if x.count ≥ x.size then (s, .full)
    else if data.length > x.entryBytes then (s.qerr q 3 mHqm own 0, .gone)
    else
      let a := x.base + x.tail % x.size * x.entryBytes
      match s.wrV own mHqm a (sliceBytes data 0 x.entryBytes) false with
      | (s, none) => (s.advanceTail q x ((x.tail + 1) % 2 ^ 17), .done)
      | (s, some _) => (((s.setQueue q { x with faulted := true }).orWord (rHqm 4) 2).qerr q 5 mHqm own 0, .gone)

/-- A hardware producer posts an entry; a full queue leaves it with the producer (R466). -/
def execHqmPost (qid : Fin 524288) (gen : BitVec 16) (data : List Byte) (s : State) : Host.Outcome State Fault Refusal :=
  match s.post qid.val gen.toNat data with
  | (s, .full) => .next { s with hqm.posts := s.hqm.posts ++ [HqmPost.mk qid.val gen.toNat data] }
  | (s, _) => .next s

/-- A producer that a full queue refused posts again (R466). -/
def execHqmPostRetry (qid : Fin 524288) (s : State) : Host.Outcome State Fault Refusal :=
  match s.hqm.posts.findIdx? fun p => decide (p.qid = qid.val) with
  | none => .next s
  | some i =>
    match s.hqm.posts[i]? with
    | none => .next s
    | some p =>
      match s.post p.qid p.gen p.data with
      | (s, .full) => .next s
      | (s, _) => .next { s with hqm.posts := s.hqm.posts.eraseIdx i }

/-! Queue commands (R460, R462, R466, R474). -/

/-- The table entry of a queue as the HQM takes it at ENABLE. -/
def qOfEntry (l : List Byte) : HqmQ :=
  ⟨leAt l 0 8 / 64 * 64, leAt l 8 1, leAt l 9 1, leAt l 0xA 1, leAt l 0xB 1, leAt l 0xC 1, leAt l 0xE 2, leAt l 0x10 4 % 2 ^ 17,
    leAt l 0x14 4 % 2 ^ 17, leAt l 0x18 8, false⟩

/-- A table entry is valid: every field in range, every reserved bit 0, and an owner of a kind (R460). DEDUCED (log 82). -/
def State.qValid (s : State) (l : List Byte) : Bool :=
  let n := leAt l 8 1
  decide (leAt l 0 8 % 64 = 0) && decide (leAt l 0 8 < 2 ^ 52) && decide (4 ≤ n) && decide (n ≤ 16) && decide (leAt l 9 1 ≤ 2) &&
    decide (leAt l 0xA 1 < 32) && decide (leAt l 0xB 1 < 64) && decide (leAt l 0xD 1 = 0) &&
    decide (leAt l 0x10 4 < 2 ^ 17) && decide (leAt l 0x14 4 < 2 ^ 17) && decide (bitsOf (leAt l 0x18 8) 15 11 = 0) &&
    decide (leAt l 0x1C 4 = 0) && decide (s.instKind (leAt l 0xB 1 % 64) ≠ 0)

/-- A command has ended, refused or not (R474). -/
def State.qcmdEnd (s : State) (refused : Bool) : State := (s.setBit (rHqm 0x1C) 1 refused).orWord (rHqm 4) 4

/-- A queue command: 0 ENABLE, 1 DISABLE, 2 CLEAR_FAULT; command 3 is refused. -/
def State.qcmd (s : State) (m : Master) (inst : Option (Fin 64)) (q cmd : Nat) : State :=
  if inst.isSome || !s.sysWriter m then s.refuse m 2 (rHqm 0x18)
  else
    let s := s.respOk []
    let old := fmGet s.hqm.queues q
    let a := s.qEntry q
    match cmd with
    | 0 =>
      let l := s.bytes a 32
      let x := qOfEntry l
      let busy := match old with | some o => decide (o.count ≠ 0) | none => false
      if !s.bit (rHqm 0) 0 || !s.qValid l || s.poisoned a 32 || x.count ≠ 0 || busy then s.qcmdEnd true
      else
        let x := { x with gen := s.instGen x.owner, flags := x.flags ||| 1 }
        ((s.setQueue q x).storeNat (a + 0xA) 1 x.flags).qcmdEnd false
    | 1 =>
      match old with
      | none => s.qcmdEnd false
      | some o =>
        if o.count ≠ 0 then s.qcmdEnd true
        else ({ s with hqm.queues := fmDel s.hqm.queues q }.storeNat (a + 0xA) 1 (o.flags / 2 * 2)).qcmdEnd false
    | 2 =>
      match old with
      | none => s.qcmdEnd false
      | some o => ({ s with hqm.queues := fmPut s.hqm.queues q { o with faulted := false } }).qcmdEnd false
    | _ => s.qcmdEnd true

def execQcmdEnable (m : Master) (inst : Option (Fin 64)) (qid : Fin 524288) (s : State) : Host.Outcome State Fault Refusal :=
  .next (s.qcmd m inst qid.val 0)

def execQcmdDisable (m : Master) (inst : Option (Fin 64)) (qid : Fin 524288) (s : State) : Host.Outcome State Fault Refusal :=
  .next (s.qcmd m inst qid.val 1)

def execQcmdClearFault (m : Master) (inst : Option (Fin 64)) (qid : Fin 524288) (s : State) :
    Host.Outcome State Fault Refusal :=
  .next (s.qcmd m inst qid.val 2)

/-! What an instance reset does to its queues (R470 steps 2 and 5). -/

/-- Every queue of instance i gets the instance's generation. -/
def State.queuesGen (s : State) (i : Nat) : State :=
  s.hqm.queues.foldl (fun s p => if p.2.owner = i then s.setQueue p.1 { p.2 with gen := s.instGen i } else s) s

/-- Every queue of instance i is emptied, and disabled on removal. -/
def State.queuesEmpty (s : State) (i : Nat) (remove : Bool) : State :=
  s.hqm.queues.foldl (fun s p =>
    if p.2.owner = i then
      let s := s.setQueue p.1 { p.2 with head := 0, tail := 0 }
      if remove then { s with hqm.queues := fmDel s.hqm.queues p.1 }.storeNat (s.qEntry p.1 + 0xA) 1 (p.2.flags / 2 * 2) else s
    else s) s

end Sys2Proof.Machine
end

