-- ==== Sys2Proof/Machine/Island.lean ====
section
/-! DEFINITION. The safety island: clock monitors, Twiwin pairs, class exits, ALIVE, watchdogs, software reports, rings
and the Awl's lock (15_safety.md R478 to R508). -/

namespace Sys2Proof.Machine

/-- TWN registers (R513). -/
def rTwn (o : Nat) : Nat := blkBase bTWN + o
def rPair (n o : Nat) : Nat := rTwn (0x100 + n * 0x20 + o)
def rTwnIrq : Nat := rTwn 4
def rCkg (o : Nat) : Nat := blkBase bCKG + o
def rAwl (o : Nat) : Nat := blkBase bAWL + o

/-- Pair n carries class S functions (TWN_CFG.CLASS_S_MASK). -/
def State.pairMask (s : State) (n : Nat) : Bool := s.bit (rTwn 0xC) n

/-- The holding condition PAIRS: fewer ELIGIBLE pairs of CLASS_S_MASK than MIN_PAIRS (R496). -/
def State.updatePairs (s : State) : State :=
  let n := popCount 6 (s.fld (rTwn 0) 13 8 &&& s.fld (rTwn 0xC) 5 0)
  s.setBit rFltHold 2 (decide (n < s.fld (rTwn 0xC) 10 8))

/-- STATE of a pair (R513): 0 RESET, 1 TESTING, 2 RUN, 3 HALTED, 4 FAILED, 5 SPLIT. -/
def State.pairState (s : State) (n : Nat) : Nat := s.fld (rPair n 0) 2 0

/-- A pair takes a state; ELIGIBLE exactly in RUN (R488). While the collector runs on the ring oscillator a pair that would run
stays stopped (R478). -/
def State.setPair (s : State) (n st : Nat) : State :=
  let st := if st = 2 && s.bit rFltState stRing then 3 else st
  let elig := decide (st = 2)
  let s := (s.setFld (rPair n 0) 2 0 st).setBit (rPair n 0) 4 elig
  let s := (s.setBit (rTwn 0) (8 + n) elig).setBit (rTwn 0) (16 + n) (decide (st = 4))
  s.updatePairs

/-- A pair is split by a debugger (R488). -/
def State.splitPair (s : State) (n : Nat) : State :=
  if s.pairState n = 5 then s
  else
    let s := ((s.setPair n 5).setBit (rPair n 0) 5 true).setBit (rTwn 0) n true
    let s := { s.orWord rTwnIrq 8 with twn.attachWait := setAt s.twn.attachWait n false }
    s.fault 0x0F (if s.pairMask n then 4 else 3) mTap n 0

/-- A debugger attaches to a pair: only after authentication, and after the end of a test (R488). -/
def State.attach (s : State) (n : Nat) : State :=
  if !s.bit (blkBase bSEC) 3 then s
  else if s.pairState n = 1 then { s with twn.attachWait := setAt s.twn.attachWait n true }
  else s.splitPair n

/-- An attach that waited for the end of a test happens now (R488). -/
def State.attachNow (s : State) (n : Nat) : State := if s.twn.attachWait.getD n false then s.attach n else s

/-- A lockstep mismatch of a running pair (R483). -/
def State.mismatch (s : State) (n point bit pc : Nat) (inj : Bool) : State :=
  if s.pairState n ≠ 2 then s
  else
    let again := match s.twn.mism.getD n none with | some t => decide (s.now - t < 14400000000000) | none => false
    let s := (s.orWord rTwnIrq 1).bump (rPair n 8)
    let cap := rPair n 0x18
    let s := if s.bit cap 13 then s else s.setWord64 cap (point % 4 + (bit % 2048) * 4 + 8192 + 2 ^ 32 * (pc % 2 ^ 32))
    let s := s.setPair n (if again then 4 else 1)
    let s := { s with twn.mism := setAt s.twn.mism n (some s.now),
                      twn.dead := if again then setAt s.twn.dead n true else s.twn.dead }
    s.faultEv ⟨n, if s.pairMask n then 4 else 3, 5, mPair n, n, point % 4 + (bit % 2048) * 4, 0, inj⟩

/-- A write of the TWN block by a master that may not make it (R513, R488). -/
def State.twnWriter (s : State) (m : Master) : Bool := s.isIsland m

/-! Clock monitors (R478). -/

/-- REFCLK_100 leaves its range (R478, R603). -/
def execRefclkLoss (s : State) : Host.Outcome State Fault Refusal :=
  let s := (s.setBit (rCkg 0x10) 0 false).orWord (rCkg 0) 2
  .next ((s.setBit rFltHold 0 true).fault 0x0B 4 mCollector 0 0)

/-- REFCLK_100 has been within range for 1 ms (R478). -/
def execRefclkRecover (s : State) : Host.Outcome State Fault Refusal :=
  .next ((s.setBit (rCkg 0x10) 0 true).setBit rFltHold 0 false)

/-- HOLDOVER of every clock, with its interrupt when it begins (R568). -/
def State.holdover (s : State) (b : Bool) : State :=
  (List.range 4).foldl (fun s c =>
    let s := s.setBit (rPtpClk c 4) 4 b
    if b then s.orWord (blkBase bPTP) (2 ^ (8 * c + 4)) else s) s

/-- PTP_REFIN leaves its range: class D, and the PTP PLL runs from REFCLK_100 in holdover (R478, R568). -/
def execPtpRefinFail (s : State) : Host.Outcome State Fault Refusal :=
  let s := ((s.setBit (rCkg 0x10) 1 false).setBit (rCkg 0x10) 3 true).orWord (rCkg 0) 4
  .next (s.holdover true |>.fault 0x0C 3 mCollector 0 0)

/-- PTP_REFIN has been within range for 1 ms: the PLL moves back (R568). -/
def execPtpRefinRecover (s : State) : Host.Outcome State Fault Refusal :=
  .next (((s.setBit (rCkg 0x10) 1 true).setBit (rCkg 0x10) 3 false).holdover false)

/-- SAFE_XIN leaves its range: class L, the collector runs on the ring oscillator, the pairs stop (R478). -/
def execSafeXinFail (s : State) : Host.Outcome State Fault Refusal :=
  let s := (s.setBit (rCkg 0x10) 2 false).setBit rFltState stRing true
  let s := (List.range 6).foldl (fun s n => if s.pairState n = 4 then s else s.setPair n 3) s
  .next (s.fault 0x0D 5 mCollector 0 0)

/-- SAFE_XIN returns: only CKG_REF_STATUS shows it (R478). -/
def execSafeXinReturn (s : State) : Host.Outcome State Fault Refusal := .next (s.setBit (rCkg 0x10) 2 true)

/-! Twiwin pairs. -/

/-- A comparator flags a difference (R481, R483). -/
def execLockstepMismatch (pair : Fin 6) (point : Fin 4) (bit : Fin 2048) (pc : BitVec 32) (s : State) :
    Host.Outcome State Fault Refusal :=
  .next (s.mismatch pair.val point.val bit.val pc.toNat false)

/-- A retest ends (R483): a passing pair starts with a0 = 1, a failing one is FAILED. -/
def execPairRetestDone (pair : Fin 6) (pass : Bool) (s : State) : Host.Outcome State Fault Refusal :=
  let n := pair.val
  if s.pairState n ≠ 1 then .next s
  else
    let s := s.orWord rTwnIrq 4
    let s :=
      if pass then
        { s.setPair n 2 with twn.a0 := setAt s.twn.a0 n 1 }.fault 7 1 (mPair n) n 0
      else { s.setPair n 4 with twn.dead := setAt s.twn.dead n true }.fault 7 3 (mPair n) n 0
    .next (s.attachNow n)

/-- TWN_PAIR_CTRL.RETEST: resets and tests a pair in RUN or HALTED (R513). -/
def execRetest (m : Master) (pair : Fin 6) (s : State) : Host.Outcome State Fault Refusal :=
  let n := pair.val
  if !s.twnWriter m then .next (s.refuse m 2 (rPair n 4))
  else
    let st := s.pairState n
    .next ((if st = 2 || st = 3 then s.setPair n 1 else s).respOk [])

/-- The value the rounds of the exchange agree on, at most 4 of them (R485). -/
def voteValue : Nat → List (Bool × Bool) → Option Bool
  | 0, _ => none
  | _, [] => none
  | k + 1, (a, b) :: r => if a = b then some a else voteValue k r

/-- The sampler chains of an input disagree: exchange and vote (R485). -/
def execInputVote (pair : Fin 6) (input : BitVec 16) (rounds : List (Bool × Bool)) (s : State) :
    Host.Outcome State Fault Refusal :=
  let n := pair.val
  let s := s.bump (rPair n 0xC)
  match voteValue 4 rounds with
  | some v => .next (s.emit (.pairInput n input.toNat v))
  | none =>
    let s := ((s.bump (rPair n 0x10)).orWord rTwnIrq 2).emit (.pairInput n input.toNat false)
    .next (s.fault 6 3 (mPair n) n 0)

/-- After a release of the SAFE domain: SAFE_XIN is found good, island SRAM is cleared, FWP-BOOT loads the island segment
through window 0, and every pair not FAILED by R483 is tested (R486, R524). -/
def execStartupTest (s : State) : Host.Outcome State Fault Refusal :=
  if s.fwp.safe ≠ 1 then .next s
  else
    let s := s.clearMem sramBase (sramBase + 0x800000)
    let s := { s with fwp.safe := 2 }.setBit (rTwn 0) 24 false
    let s := if s.bit rFltState stRing then s else s.setBit (rCkg 0x10) 2 true
    let s := (s.setWord (rTwn 0x400) 0x3F0000).setWord (rTwn 0x404) 0x80010004
    let s := s.store sramBase (s.fwp.segs.getD 6 [])
    .next ((List.range 6).foldl (fun s n => s.setPair n (if s.twn.dead.getD n false then 4 else 1)) s)

/-- Step 6 of the start order begins (R523, R584): FWP-PWR and FWP-FAULT start and PWRGRP3_EN rises; the group 3 rails are
still to come. What the collector could not be told before is recorded: slots that were rejected (R522), a BLANK part
(R605), and, after a POWER_ON reset, an unclonable key that was not reconstructed (R609). -/
def State.bootPower (s : State) : State :=
  let info := s.word (blkBase bFWP + 0x10)
  let s := [0, 1].foldl (fun s k =>
    let c := bitsOf info (4 * k + 3) (4 * k)
    if c = 0 then s else s.fault 0x27 3 (mFwp 0) k c) s
  let s := if s.bit (blkBase bSEC) 0 then s.fault 0x24 3 (mFwp 0) 0 0 else s
  let s := if s.bit (blkBase bSEC) 2 && s.fld (rCkg 0xC) 31 16 = 0 then s.fault 0x24 3 (mFwp 0) 1 0 else s
  let s := [1, 4].foldl (fun s p => s.setFld (blkBase bFWP + 0x100 + p * 0x40) 2 0 2) s
  let s := { s with fwp.boot := 6, pwr.grp3At := s.now, flt.hbFrom := s.flt.hbFrom.map fun _ => s.now }
  let s := (s.setBit (blkBase bPWR + 4) 4 true).emit (.pin ballGrp3 true)
  [11, 12, 13].foldl (fun s r => s.setBit (blkBase bPWR + 0x180 + 4 * r) 12 true) s

/-- A debugger's first access to a pair (R488). -/
def execDebugSplit (pair : Fin 6) (s : State) : Host.Outcome State Fault Refusal := .next (s.attach pair.val)

/-! Class exits. -/

/-- FLT_CFG.QUIET in quarter ns; 0 is taken as 1 (R514). -/
def State.quiet (s : State) : Nat := 4000000 * max 1 (s.fld (rFlt 0) 15 0)

/-- Class D ends after QUIET ms without a class D fault (R495). -/
def execClassDExit (s : State) : Host.Outcome State Fault Refusal :=
  if s.bit rFltState stD then
    let s := s.timeTo (s.flt.dLast + s.quiet)
    .next (((s.setBit rFltState stD false).bumpSat (rFlt 0x18) 15 0).orWord rFltIrq 8).updateFc
  else .next s

/-- The exits of class S within the last 3,600 s (R497). -/
def State.recentExits (s : State) : List Nat := s.flt.sExits.filter fun t => decide (s.now < t + 14400000000000)

/-- Class S may exit: quiet and unheld (R496). -/
def State.sExitReady (s : State) : Bool := decide (s.flt.sLast + s.quiet ≤ s.now) && decide (s.fld rFltHold 2 0 = 0)

/-- The exit of class S, or class L in place of the ninth exit within an hour (R496, R497). -/
def State.sExit (s : State) : State :=
  let past := s.recentExits
  if past.length ≥ 8 then s.fault s.flt.sSrc 5 mCollector 0 0
  else
    let s := { s with flt.sExits := (s.now :: past).take 8 }
    let s := (s.setBit rFltState stS false).setFld rFltState 19 16 (past.length + 1)
    let s := (s.bump (rFlt 0x1C)).orWord rFltIrq 0x20
    let s :=
      if s.bit rFltState stL then s
      else
        let s := s.heelRelease
        if s.flt.started then ((s.setBit rFltState stSafeN true).setBit rFltState stAlive true).emit (.pin ballSafeN true)
        else s
    s.updateFc

/-- The automatic exit of class S (R496, S_AUTO), when its quiet period ends. -/
def execClassSExit (s : State) : Host.Outcome State Fault Refusal :=
  if s.bit rFltState stS && decide (s.fld rFltHold 2 0 = 0) && s.bit (rFlt 0) 26 then
    .next (s.timeTo (s.flt.sLast + s.quiet)).sExit
  else .next s

/-- FLT_CTRL is written by a master that may not write it (R514). -/
def State.fltWriter (s : State) (m : Master) : Bool := s.isIsland m

/-- FLT_CTRL.S_EXIT (R496). -/
def State.sExitWrite (s : State) : State :=
  if s.bit rFltState stL then s.setBit rFltState stRefused true
  else if !s.bit rFltState stS then s
  else if s.sExitReady then s.sExit
  else s.setBit rFltState stRefused true

def execSExit (m : Master) (s : State) : Host.Outcome State Fault Refusal :=
  if s.fltWriter m then .next (s.sExitWrite.respOk []) else .next (s.refuse m 2 (rFlt 8))

/-- FLT_CTRL.ALIVE_START (R499). -/
def State.aliveStart (s : State) : State :=
  if !s.bit (blkBase bSYS + 4) 8 || !s.bit (rTwn 0) 24 || s.safeActive then s.setBit rFltState stRefused true
  else if s.flt.started then s
  else
    let s := { s with flt.started := true, flt.kickFrom := s.now }
    ((s.setBit rFltState stSafeN true).setBit rFltState stAlive true).emit (.pin ballSafeN true)

def execAliveStart (m : Master) (s : State) : Host.Outcome State Fault Refusal :=
  if s.fltWriter m then .next (s.aliveStart.respOk []) else .next (s.refuse m 2 (rFlt 8))

/-- An ALIVE edge falls due: both pins toggle, or hold after a class S or L fault (R499). -/
def execAliveEdge (s : State) : Host.Outcome State Fault Refusal :=
  if s.bit rFltState stAlive then
    let p := !s.flt.aliveP
    .next ((({ s with flt.aliveP := p, flt.aliveN := !p }).emit (.pin ballAliveP p)).emit (.pin ballAliveN (!p)))
  else .next s

/-- The hold of FAULT_CLASS after a class N or C fault ends (R499). -/
def execFcHoldExpire (s : State) : Host.Outcome State Fault Refusal :=
  .next (s.timeTo (if s.fld rFltState 2 0 = 2 then s.flt.cUntil else if s.fld rFltState 2 0 = 1 then s.flt.nUntil else 0)).updateFc

/-! Watchdogs and reports. -/

/-- FLT_CTRL.KICK (R500): a pair that is neither ELIGIBLE nor split is ignored. -/
def execKick (m : Master) (s : State) : Host.Outcome State Fault Refusal :=
  if s.isEligiblePair m then .next ({ s with flt.kickFrom := s.now }.respOk [])
  else if mKind m == 3 && decide (mIdx m < 6) then .next (s.respOk [])
  else if isCollector m then .next (s.respOk [])
  else .next (s.refuse m 2 (rFlt 8))

/-- FLT_CFG2.KICK_LIMIT in quarter ns; values below 100 are taken as 100 (R514). -/
def State.kickLimit (s : State) : Nat := 4000 * max 100 (s.fld (rFlt 4) 15 0)

/-- KICK_LIMIT without a kick: class S, and the interval starts again (R500). -/
def execIslandWatchdogExpire (s : State) : Host.Outcome State Fault Refusal :=
  if s.flt.started then
    let s := s.timeTo (s.flt.kickFrom + s.kickLimit)
    .next ({ s with flt.kickFrom := s.now }.faultEv ⟨0x0A, 4, 6, mCollector, 0, 0, 0, false⟩)
  else .next s

/-- FLT_FWP_HB: a heartbeat of the writing processor (R500). -/
def execFwpHeartbeat (m : Master) (s : State) : Host.Outcome State Fault Refusal :=
  if isFwp m && decide (mIdx m < 6) then
    .next ({ s with flt.hbFrom := setAt s.flt.hbFrom (mIdx m) s.now }.respOk [])
  else .next (s.refuse m 2 (rFlt 0x58))

/-- FLT_SW_REPORT (R501). -/
def execSwReport (m : Master) (data : BitVec 64) (s : State) : Host.Outcome State Fault Refusal :=
  let d := data.toNat
  let c := bitsOf d 2 0
  if !(isFwp m || s.isEligiblePair m) then .next (s.refuse m 2 (rFlt 0x50))
  else if c = 0 || c ≥ 6 then .next (s.ignoreWr m (rFlt 0x50))
  else
    let c := if c = 5 && !s.isEligiblePair m then 4 else c
    .next ((s.faultAt 0x29 c m 0 (bitsOf d 31 8) 0 (bitsOf d 63 32)).respOk [])

/-- FLT_CTRL.CLR_FIRST clears VALID of every first capture (R494, R514). -/
def State.clrFirst (s : State) : State :=
  (List.range 5).foldl (fun s k => s.setBit (rFlt (0x204 + k * 0x20)) 31 false) s

def execClrFirst (m : Master) (s : State) : Host.Outcome State Fault Refusal :=
  if s.fltWriter m then .next (s.clrFirst.respOk []) else .next (s.refuse m 2 (rFlt 8))

/-- FLT_ALARM_TAIL (R503): accepted when it consumes no more than the ring holds. -/
def execAlarmTailWrite (m : Master) (v : BitVec 9) (s : State) : Host.Outcome State Fault Refusal :=
  if !s.fltWriter m then .next (s.refuse m 2 (rFlt 0x34))
  else if (v.toNat + 512 - s.word (rFlt 0x34)) % 512 ≤ s.alarmFill then
    .next ((s.setWord (rFlt 0x34) v.toNat).foldSummary.respOk [])
  else .next (s.respOk [])

/-! The Awl's lock and runs (R506 to R508). -/

/-- A record of the Awl's own activity: class D after ALIVE_START, class N before (R508). -/
def State.awlRecord (s : State) (info : Nat) : State :=
  s.fault 0x25 (if s.flt.started then 3 else 1) mCollector 0 info

/-- An unlock that failed clears the unlock, sets UNLOCK_ERR and records class N (R506). -/
def State.awlBad (s : State) (m : Master) : State :=
  let s := { s with awl.first := none }
  ((s.setBit (rAwl 4) 1 false).setBit (rAwl 4) 4 true).fault 0x25 1 m 0 0

/-- AWL_UNLOCK (R506). -/
def execAwlUnlock (m : Master) (data : BitVec 32) (s : State) : Host.Outcome State Fault Refusal :=
  if mKind m == 3 && bitOf m.toNat 3 then .next (s.refuse m 2 (rAwl 0))
  else if !s.isEligiblePair m then .next ((s.awlBad m).refuse m 2 (rAwl 0))
  else if !s.bit (rAwl 4) 0 then .next ((s.awlBad m).respOk [])
  else if data.toNat = 0xA3C5 && s.awl.first.isNone then
    .next ({ s with awl.first := some (m.toNat, s.now) }.respOk [])
  else
    match s.awl.first with
    | some (w, t) =>
      if data.toNat = 0x5C3A && decide (w = m.toNat) && decide (s.now ≤ t + 4000) then
        let s := { s with awl := { s.awl with first := none, unlockAt := s.now, went := false } }
        .next (((s.setBit (rAwl 4) 1 true).awlRecord 1).respOk [])
      else .next ((s.awlBad m).respOk [])
    | none => .next ((s.awlBad m).respOk [])

/-- 1 ms after an unlock without GO the Awl locks (R506). -/
def execAwlUnlockTimeout (s : State) : Host.Outcome State Fault Refusal :=
  if s.bit (rAwl 4) 1 && !s.awl.went then
    .next ((s.timeTo (s.awl.unlockAt + 4000000)).setBit (rAwl 4) 1 false)
  else .next s

/-- AWL_CTRL with GO (R507, R515): starts a run while unlocked; while locked it is ignored and sets UNLOCK_ERR. -/
def execGo (m : Master) (data : BitVec 32) (s : State) : Host.Outcome State Fault Refusal :=
  let d := data.toNat
  if !s.isEligiblePair m then .next (s.refuse m 2 (rAwl 0x10))
  else
    let s := (s.setFld (rAwl 0x10) 31 16 (bitsOf d 31 16)).setFld (rAwl 0x10) 9 8 (bitsOf d 9 8)
    if !bitOf d 0 then .next (s.respOk [])
    else if !s.bit (rAwl 4) 1 || s.bit (rAwl 4) 3 then .next ((s.setBit (rAwl 4) 4 true).respOk [])
    else
      let n := if bitsOf d 9 8 = 0 then 1 else max 1 (bitsOf d 31 16)
      let s := (s.setBit (rAwl 4) 3 true).setFld (rAwl 4) 31 16 n
      let s := s.setBit (rAwl 0x10) 0 true
      .next (({ s with awl := { s.awl with went := true, runAt := s.now } }.awlRecord 2).respOk [])

/-- The run ends: BUSY and GO clear, the Awl locks (R506). -/
def State.awlEnd (s : State) : State :=
  (((s.setBit (rAwl 4) 3 false).setFld (rAwl 4) 31 16 0).setBit (rAwl 0x10) 0 false).setBit (rAwl 4) 1 false

/-- One injection of the run is performed: counted, recorded, and the run ends with its last (R507, R508). -/
def State.awlPerformed (s : State) : State :=
  let s := (s.bump (rAwl 0x14)).awlRecord 3
  let left := s.fld (rAwl 4) 31 16 - 1
  let s := s.setFld (rAwl 4) 31 16 left
  if left = 0 then s.awlEnd else s

/-- A run whose checker makes no check within 1 s ends without injecting (R515). -/
def execAwlRunTimeout (s : State) : Host.Outcome State Fault Refusal :=
  if s.bit (rAwl 4) 3 then .next (s.timeTo (s.awl.runAt + 4000000000)).awlEnd else .next s

/-- A fault event reaches the collector on its line (R493): rail 10 reports it, 01 reports nothing, and an invalid code
reports it and is a crossing fault besides (R476). Classes outside 1 to 5 name no event. -/
def execFaultEvent (rail : BitVec 2) (src : Fin 64) (cls access : Fin 8) (m : Master) (unit : BitVec 16) (info : BitVec 32)
    (addr : BitVec 64) (s : State) : Host.Outcome State Fault Refusal :=
  let c := cls.val
  if rail.toNat = 1 || decide (c = 0) || decide (c > 5) then .next s
  else
    let mark (s : State) : State := if src.val = 0x28 && decide (c ≥ 4) then s.setBit rFltState 10 true else s
    let ev (s : State) : State := mark (s.faultEv ⟨src.val, c, access.val, m, unit.toNat, info.toNat, addr.toNat, false⟩)
    if rail.toNat = 2 then .next (ev s)
    else
      let welt (s : State) : State := s.fault 0x0E 3 mCollector 0 0
      if c > 3 || (decide (c = 3) && decide (src.val ≤ 0x0E)) then .next (welt (ev s)) else .next (ev (welt s))

end Sys2Proof.Machine
end

