-- ==== Sys2Proof/Machine/CellBase.lean ====
section
/-! DEFINITION. Logical cells: states, issue of the next instruction, exceptions and drains (05_cells.md R157 to R165, R177;
06_cell_isa.md R179 to R185, R212 to R215). -/

namespace Sys2Proof.Machine

def rAflags (c g : Nat) : Nat := rCel (0x20000 + 0x200 * c + g * 4)
def rCelIrq : Nat := rCel 0
def rPhys (p i : Nat) : Nat := rCel (0x200 + (p * 17 + i) * 4)

/-- States of R157. -/
def csABSENT : Nat := 0
def csOFF : Nat := 1
def csIDLE : Nat := 2
def csLOADING : Nat := 3
def csLOADED : Nat := 4
def csRUNNING : Nat := 5
def csDRAINING : Nat := 6
def csHALTED : Nat := 7
def csSAVING : Nat := 8
def csRESTORING : Nat := 9
def csSUBST : Nat := 10

def State.cell (s : State) (c : Nat) : CellS := fmGetD .reset s.cel.cells c
def State.setCell (s : State) (c : Nat) (x : CellS) : State := { s with cel.cells := fmPut s.cel.cells c x }
def State.modCell (s : State) (c : Nat) (f : CellS → CellS) : State := s.setCell c (f (s.cell c))

/-- The group of a cell and its change. -/
def CellS.group (x : CellS) (g : Nat) : CGroup := fmGetD .reset x.groups g
def CellS.setGroup (x : CellS) (g : Nat) (q : CGroup) : CellS := { x with groups := fmPut x.groups g q }
def State.group (s : State) (c g : Nat) : CGroup := (s.cell c).group g
def State.setGroup (s : State) (c g : Nat) (q : CGroup) : State := s.modCell c fun x => x.setGroup g q

/-- Fields of the kernel descriptor in force (R155). -/
def CellS.codeBase (x : CellS) : Nat := leAt x.desc 0 8
def CellS.codeSize (x : CellS) : Nat := leAt x.desc 8 4
def CellS.entry (x : CellS) : Nat := leAt x.desc 0xC 4
def CellS.ngroups (x : CellS) : Nat := leAt x.desc 0x10 2
def CellS.nregs (x : CellS) : Nat := leAt x.desc 0x12 1
def CellS.restartable (x : CellS) : Bool := bitOf (leAt x.desc 0x13 1) 0
def CellS.wdog (x : CellS) : Nat := leAt x.desc 0x14 4
def CellS.param (x : CellS) : Nat := leAt x.desc 0x18 8

def State.cellState (s : State) (c : Nat) : Nat := s.fld (rCell c 0) 3 0

/-- Frequency of a cell's clock in MHz (R34, R603). -/
def State.panelMHz (s : State) (c : Nat) : Nat := s.fld (rCkg (0x100 + c / 16 * 8)) 15 0

/-- RUNNING cycles of the task so far (R159, R189). -/
def State.elapsed (s : State) (c : Nat) : Nat :=
  let x := s.cell c
  if s.cellState c = csRUNNING then x.elapsed + (s.now - x.since) * s.panelMHz c / 4000 else x.elapsed

/-- The live groups shown in CEL_CELL_STATE (R177). -/
def CellS.liveCount (x : CellS) : Nat := (x.groups.filter fun p => decide (p.2.run = 1)).length
def State.showLive (s : State) (c : Nat) : State := s.setFld (rCell c 0) 16 9 (s.cell c).liveCount

/-- A cell enters a state; leaving RUNNING it keeps its cycles, and CEL_PERF_ACTIVE counts them. -/
def State.enter (s : State) (c st : Nat) : State :=
  let old := s.cellState c
  let s :=
    if old = csRUNNING && st ≠ csRUNNING then
      let e := s.elapsed c
      let d := e - (s.cell c).elapsed
      (s.modCell c fun x => { x with elapsed := e }).setWord64 (rCell c 0x40) (s.word64 (rCell c 0x40) + d)
    else if old ≠ csRUNNING && st = csRUNNING then s.modCell c fun x => { x with since := s.now }
    else s
  s.setFld (rCell c 0) 3 0 st

/-- A CEL_ERR bit is set (R176, R177). -/
def State.cellErr (s : State) (c bit : Nat) : State := (s.setBit (rCell c 0x18) bit true).orWord rCelIrq 0x20

/-- A report to the Clicker (R294): statuses of R295, and 10 for a task restarted on a spare. -/
def State.report (s : State) (c status : Nat) : State := { s with cel.reports := s.cel.reports ++ [(c, status)] }

/-- Channel key of a cell's lace channel. -/
def laceKey (c ch : Nat) : Nat := c * 4 + ch
def State.chan (s : State) (k : Nat) : LaceChan := fmGetD .reset s.cel.lace k
def State.setChan (s : State) (k : Nat) (x : LaceChan) : State := { s with cel.lace := fmPut s.cel.lace k x }
def LaceChan.idle (x : LaceChan) : Bool := x.cur.isNone && x.queue.isEmpty

/-- The cell is drained (R158), but for groups that issue: queues empty and every lace channel done. -/
def State.drained (s : State) (c : Nat) : Bool :=
  let x := s.cell c
  x.tq.isEmpty && x.mq.isEmpty && x.lq.isEmpty && (List.range 4).all fun ch => (s.chan (laceKey c ch)).idle

/-- What follows when a drain ends: a SAVE goes on to SAVING (R160), an ABORT ends in LOADED and is reported (R177). The
other drains wait for their own events. -/
def State.afterDrain (s : State) (c : Nat) : State :=
  if s.cellState c = csDRAINING && s.drained c && (s.cell c).async.isEmpty then
    match (s.cell c).drain with
    | 2 => s.enter c csSAVING
    | 3 => ((s.modCell c fun x => { x with drain := 0 }).enter c csLOADED).report c 2
    | _ => s
  else s

/-- The cell begins to drain (R158, R163). -/
def State.drainFor (s : State) (c why : Nat) : State := (s.modCell c fun x => { x with drain := why }).enter c csDRAINING

/-! Exceptions (R163 to R165). -/

/-- An exception found by an instruction or after its issue: cause, address, lane. -/
structure Exc where
  cause : Nat
  addr : Nat
  lane : Option Nat
  deriving DecidableEq, Repr

def excILL : Nat := 1
def excFIELD : Nat := 2
def excRANGE : Nat := 3
def excBOUNDS : Nat := 4
def excALIGN : Nat := 5
def excXLAT : Nat := 6
def excACCESS : Nat := 7
def excPOISON : Nat := 8
def excWDOG : Nat := 9
def excFETCH : Nat := 0xA
def excBREAK : Nat := 0xB
def excTRAP : Nat := 0xC
def excDESC : Nat := 0xD

def Exc.of (cause : Nat) : Exc := ⟨cause, 0, none⟩
def Exc.at_ (cause addr : Nat) : Exc := ⟨cause, addr, none⟩
def Exc.lane_ (cause addr l : Nat) : Exc := ⟨cause, addr, some l⟩

/-- The capture registers take the first exception of a task; later ones are counted (R165). -/
def State.capture_ (s : State) (c g pc word : Nat) (e : Exc) (async : Bool) : State :=
  let r := rCell c 0x1C
  if s.bit r 31 then s.bump (rCell c 0x38)
  else
    let v := e.cause + 2 ^ 8 * g + 2 ^ 16 * (e.lane.getD 0) + 2 ^ 29 * b2n e.lane.isSome + 2 ^ 30 * b2n async + 2 ^ 31
    let s := ((s.setWord r v).setWord64 (rCell c 0x20) pc).setWord64 (rCell c 0x28) e.addr
    let s := (s.setWord64 (rCell c 0x30) word).orWord rCelIrq 1
    s.faultAt 0x10 1 (mCell c) c (e.cause + 256 * s.fld (rCell c 0) 31 24) 0 e.addr

/-- The task of cell c stops for an exception (R163): the groups stop and the cell drains; a save in progress is not
performed (R214). -/
def State.stopForExc (s : State) (c : Nat) : State :=
  let st := s.cellState c
  if st = csRUNNING || st = csDRAINING || st = csSAVING then s.drainFor c 4 else s

/-- A synchronous exception of group g at its next instruction. -/
def State.syncExc (s : State) (c g word : Nat) (e : Exc) : State :=
  (s.capture_ c g (s.group c g).pc word e false).stopForExc c

/-- An asynchronous exception attributed to a group and instruction. -/
def State.asyncExc (s : State) (c : Nat) (x : CellExc) : State :=
  (s.capture_ c x.group x.pc x.word ⟨x.cause, x.addr, none⟩ true).stopForExc c

/-- A fault found after issue waits to be raised. -/
def State.pendExc (s : State) (c : Nat) (x : CellExc) : State := s.modCell c fun k => { k with async := k.async ++ [x] }

/-! Issue (R147, R163, R184). -/

/-- What a group waits for holds no longer (R206 to R208). -/
def CGroup.ready (q : CGroup) : Bool :=
  match q.wait with
  | .none => true
  | .counter code n =>
    decide ((match code with | 0 => q.tq | 1 => q.mq | 2 => q.lq | 3 => q.fs | _ => q.fl) ≤ n)
  | .fence bits =>
    (!bitOf bits 1 || (q.fs = 0 && q.fl = 0)) && (!bitOf bits 2 || (q.tq = 0 && q.mq = 0 && q.lq = 0))
  | _ => false

/-- The word at a PC, or the exception of its fetch (R184). -/
def CellS.fetch (x : CellS) (pc : Nat) : Except Exc Nat :=
  if pc ≥ x.codeSize then .error (.at_ excFETCH (x.codeBase + pc))
  else if x.codeBad.contains (pc / 4096) then .error (.at_ excFETCH (x.codeBase + pc))
  else .ok (fmGetD 0 x.code (pc / 8))

/-- Group g of cell c may issue. -/
def State.canIssue (s : State) (c g : Nat) : Bool :=
  s.cellState c = csRUNNING && (s.group c g).run = 1 && (s.group c g).ready

/-- What an instruction knows of its cell and group beside the group's registers. -/
structure Ctx where
  c : Nat
  g : Nat
  nregs : Nat
  ngroups : Nat
  elapsed : Nat
  aflags : Nat
  /-- An open value for an operand that the instruction gives no field for. -/
  free : Nat
  deriving DecidableEq, Repr

def State.ctx (s : State) (c g : Nat) : Ctx :=
  ⟨c, g, (s.cell c).nregs, (s.cell c).ngroups, s.elapsed c, s.word (rAflags c g), Config.freeValue s.free⟩

/-- Flags raised by a group's instruction (R121, R143). -/
def State.raiseFlags (s : State) (c g fl : Nat) : State := if fl = 0 then s else s.orWord (rAflags c g) (fl % 32)

/-- The word that group g of cell c issues next, when it may issue and the word is of the kind asked for. -/
def State.nextWord (s : State) (c g : Nat) (want : Nat → Bool) : Option Nat :=
  if s.canIssue c g then
    match (s.cell c).fetch (s.group c g).pc with
    | .ok w => if want w then some w else none
    | .error _ => none
  else none

/-- Issues the next instruction of a group when it is of the kind asked for: an instruction that works on the group's own
state gives the group after it, with its next PC, and the flags it raises, or the exception that leaves all unchanged. -/
def State.issue (s : State) (c g : Nat) (want : Nat → Bool) (f : Ctx → CGroup → Nat → Except Exc (CGroup × Nat)) : State :=
  match s.nextWord c g want with
  | none => s
  | some w =>
    match f (s.ctx c g) { s.group c g with wait := .none } w with
    | .error e => s.syncExc c g w e
    | .ok (q, fl) => { (s.setGroup c g q).raiseFlags c g fl with free := s.free + 1 }

/-- The group past its instruction (R184). -/
def CGroup.past (q : CGroup) : CGroup := { q with pc := q.pc + 8 }

/-- Major opcode (R179) and function of bits 35 to 30. -/
def wOp (w : Nat) : Nat := bitsOf w 63 58
def wFn (w : Nat) : Nat := bitsOf w 35 30
def wDst (w : Nat) : Nat := bitsOf w 53 48
def wA (w : Nat) : Nat := bitsOf w 47 42
def wB (w : Nat) : Nat := bitsOf w 41 36
def wPred (w : Nat) : Nat := bitsOf w 57 54

/-! Registers of a group (R180, R181, R191). -/

def CGroup.sreg (q : CGroup) (n : Nat) : Nat := if n % 32 = 0 then 0 else fmGetD 0 q.s (n % 32)
def CGroup.sbad (q : CGroup) (n : Nat) : Bool := n % 32 ≠ 0 && bitOf q.sBad (n % 32)

/-- A mask with bit n as b. -/
def setMask (m n : Nat) (b : Bool) : Nat := if b then m ||| 2 ^ n else if bitOf m n then m - 2 ^ n else m

/-- A write of a scalar register; writes of s0 are discarded (R181). -/
def CGroup.setS (q : CGroup) (n v : Nat) (bad : Bool) : CGroup :=
  let k := n % 32
  if k = 0 then q else { q with s := fmPut q.s k (v % 2 ^ 64), sBad := setMask q.sBad k bad }

/-- The lanes of thread register n, and its poisoned lanes. -/
def CGroup.treg (q : CGroup) (n : Nat) : List Nat := fmGetD (List.replicate 64 0) q.t n
def CGroup.tbad (q : CGroup) (n : Nat) : Nat := fmGetD 0 q.tBad n

/-- A predicate as a mask of lanes; p0 reads 1 (R180). -/
def CGroup.pred (q : CGroup) (n : Nat) : Nat := if n = 0 then 2 ^ 64 - 1 else fmGetD 0 q.p n

def CGroup.setPred (q : CGroup) (n mask : Nat) : CGroup := if n = 0 then q else { q with p := fmPut q.p n mask }

/-- The lanes that execute a thread instruction (R180). -/
def CGroup.active (q : CGroup) (w : Nat) : Nat :=
  let p := q.pred (bitsOf w 56 54)
  if bitOf w 57 then 2 ^ 64 - 1 - p else p

/-- A source of a thread instruction: 64 lane values and the poisoned lanes (R181, R191). -/
def CGroup.lanes (q : CGroup) (code : Nat) : List Nat × Nat :=
  if code < 32 then (q.treg code, q.tbad code)
  else (List.replicate 64 (q.sreg code % 2 ^ 32), if q.sbad code then 2 ^ 64 - 1 else 0)

/-- Active lanes of a thread register written with values and poison; the other lanes keep theirs. -/
def CGroup.setT (q : CGroup) (n : Nat) (act : Nat) (vals : List Nat) (bad : Nat) : CGroup :=
  let old := q.treg n
  let new := ((List.range 64).zip (old.zip vals)).map fun p => if bitOf act p.1 then p.2.2 % 2 ^ 32 else p.2.1
  let ob := q.tbad n
  { q with t := fmPut q.t n new, tBad := fmPut q.tBad n ((bad &&& act) ||| (ob &&& (2 ^ 64 - 1 - act))) }

/-- The lowest lane of a mask. -/
def lowLane (m : Nat) : Nat := ((List.range 64).find? fun l => bitOf m l).getD 0

/-! Checks shared by instructions (R183). Fields are checked before register ranges: DESIGN CHOICE (log 91). -/

def need (b : Bool) (cause : Nat) : Except Exc Unit := if b then .ok () else .error (.of cause)

/-- The predicate field of an instruction that takes none. -/
def noPred (w : Nat) : Except Exc Unit := need (wPred w = 0) excFIELD

/-- The predicate of a thread instruction: not the reserved combination, and not poisoned (R167, R180). -/
def CGroup.predOk (q : CGroup) (w : Nat) : Except Exc Unit := do
  need (wPred w ≠ 8) excFIELD
  if bitsOf w 56 54 ≠ 0 && q.pBad ≠ 0 then .error (.lane_ excPOISON 0 (lowLane q.pBad)) else .ok ()

/-- A scalar register code, 0x00 to 0x1F. -/
def scalarCode (n : Nat) : Except Exc Unit := need (n < 32) excFIELD

/-- A source code of a thread instruction. -/
def Ctx.srcOk (x : Ctx) (n : Nat) : Except Exc Unit := need (n ≥ 32 || n < x.nregs) excRANGE

/-- A thread register as destination; scalar codes are reserved. -/
def dstField (n : Nat) : Except Exc Unit := need (n < 32) excFIELD
def Ctx.dstOk (x : Ctx) (n : Nat) : Except Exc Unit := need (n < x.nregs) excRANGE

/-- A group of k consecutive thread registers from n (R191). -/
def Ctx.groupOk (x : Ctx) (n k : Nat) : Except Exc Unit := do
  need (n % k = 0) excFIELD
  need (n + k ≤ x.nregs) excRANGE

end Sys2Proof.Machine
end

