-- ==== Sys2Proof/Machine/Flags.lean ====
section
/-! DEFINITION. The sticky arithmetic flags of R121, gathered over the lanes or elements of one instruction
(04_number_formats.md R121, 05_cells.md R143). -/

namespace Sys2Proof.Machine

/-- The flags raised by results of which only the lanes of a mask count (R180: an inactive lane performs nothing). -/
def laneFlags (act : Nat) (l : List (Nat × Nat)) : Nat :=
  ((List.range l.length).zip l).foldl (fun f p => if bitOf act p.1 then f ||| p.2.2 else f) 0

/-- The flags of every result. -/
def allFlags (l : List (Nat × Nat)) : Nat := l.foldl (fun f p => f ||| p.2) 0

/-- A flag raised when a condition holds. -/
def flagIf (b : Bool) (f : Nat) : Nat := if b then f else 0

end Sys2Proof.Machine
end

