-- ==== Sys2Proof/Machine/Operands.lean ====
section
/-! DEFINITION. Operand forms of scalar and thread instructions: layouts A, M and B, and the addresses of thread accesses
(06_cell_isa.md R179 to R183, R186, R191, R198). -/

namespace Sys2Proof.Machine

def wI (w : Nat) : Bool := bitOf w 29
def wRnd (w : Nat) : Nat := bitsOf w 28 27
def wType (w : Nat) : Nat := bitsOf w 26 24
def wC (w : Nat) : Nat := bitsOf w 23 18
def wImm24 (w : Nat) : Int := toSigned 24 w
def wOff32 (w : Nat) : Int := toSigned 32 w
def wSize (w : Nat) : Nat := bitsOf w 35 34
def wSX (w : Nat) : Bool := bitOf w 33
def wFab (w : Nat) : Bool := bitOf w 32

/-- Low w bits of a sum of a pattern and a signed offset. -/
def addOfs (w x : Nat) (o : Int) : Nat := ofSigned w ((x : Int) + o)

/-- Fields of layout A that must be 0: SRCB with an immediate, SRCC when unused, bits [17:0] without one (R183, R186). -/
def layoutA (w : Nat) (usesC : Bool) : Except Exc Unit :=
  if wI w then need (wB w = 0) excFIELD
  else need (w % 2 ^ 18 = 0 && (usesC || wC w = 0)) excFIELD

/-- The integer immediate of layout A in w bits, or the FP32 one (R186). -/
def immA (fp : Bool) (width w : Nat) : Nat := if fp then 256 * (w % 2 ^ 24) else ofSigned width (wImm24 w)

/-- An open value of one lane, for an operand that the form gives no field for. -/
def Ctx.freeLane (x : Ctx) (l : Nat) : Nat := (x.free >>> (64 * l)) % 2 ^ 32

/-- Source B of a thread instruction in layout A. -/
def CGroup.srcB (q : CGroup) (fp : Bool) (w : Nat) : List Nat × Nat :=
  if wI w then (List.replicate 64 (immA fp 32 w), 0) else q.lanes (wB w)

/-- Source C of a thread instruction in layout A; with an immediate there is no field for it, and its value is open. -/
def CGroup.srcC (q : CGroup) (x : Ctx) (w : Nat) : List Nat × Nat :=
  if wI w then ((List.range 64).map x.freeLane, 0) else q.lanes (wC w)

/-- The register checks of a thread instruction in layout A. -/
def Ctx.regsA (x : Ctx) (w : Nat) (usesB usesC : Bool) : Except Exc Unit := do
  x.srcOk (wA w)
  if usesB && !wI w then x.srcOk (wB w)
  if usesC && !wI w then x.srcOk (wC w)

/-- A predicate read as a source: a poisoned one in an active lane raises POISON_USE (R167). -/
def CGroup.predSrc (q : CGroup) (n act : Nat) : Except Exc Unit :=
  if n ≠ 0 && (q.pBad &&& act) ≠ 0 then .error (.lane_ excPOISON 0 (lowLane (q.pBad &&& act))) else .ok ()

/-- A lane source used for a predicate, an address or a descriptor: poison in an active lane raises POISON_USE (R167). -/
def cleanLanes (bad act : Nat) : Except Exc Unit :=
  if (bad &&& act) ≠ 0 then .error (.lane_ excPOISON 0 (lowLane (bad &&& act))) else .ok ()

/-- A scalar used where poison raises POISON_USE. -/
def CGroup.cleanS (q : CGroup) (n : Nat) : Except Exc Unit := need (!q.sbad n) excPOISON

/-- Values for the 64 lanes with the flags of each. -/
def lanes64 (f : Nat → Nat × Nat) : List (Nat × Nat) := (List.range 64).map f

/-- A thread result written to register n of the active lanes. -/
def CGroup.writeLanes (q : CGroup) (n act : Nat) (r : List (Nat × Nat)) (bad : Nat) : CGroup × Nat :=
  (q.setT n act (r.map Prod.fst) bad, laneFlags act r)

end Sys2Proof.Machine
end

