-- ==== Sys2Proof/Machine/CellAlu.lean ====
section
/-! DEFINITION. Scalar, thread, sync, phase and system instructions that work on registers (06_cell_isa.md R187 to R197,
R199, R206 to R211). -/

namespace Sys2Proof.Machine

/-! Integer functions (R187, R188). -/

/-- The range of a TYPE in w bits. -/
def satType (w t : Nat) (v : Int) : Nat :=
  if t = 1 then ofSigned w (clampInt v (-(2 ^ (w - 1) : Nat)) ((2 ^ (w - 1) : Nat) - 1))
  else ofSigned w (clampInt v 0 ((2 ^ w : Nat) - 1))

/-- The leading zeros of a in w bits. -/
def clz (w a : Nat) : Nat := if a = 0 then w else w - 1 - Nat.log2 a

/-- An integer function of R187 on w bits by TYPE t. -/
def intFn (w t fn a b c : Nat) : Nat :=
  let m := 2 ^ w
  let sa := toSigned w a
  let sb := toSigned w b
  let lt := if t = 1 then decide (sa < sb) else decide (a < b)
  let va : Int := if t = 1 then sa else a
  let vb : Int := if t = 1 then sb else b
  match fn with
  | 0x00 => (a + b) % m
  | 0x01 => ofSigned w ((a : Int) - b)
  | 0x02 => a * b % m
  | 0x03 => if t = 1 then ofSigned w (sa * sb / (m : Int)) else a * b / m
  | 0x04 => (a * b + c) % m
  | 0x05 => a &&& b
  | 0x06 => a ||| b
  | 0x07 => a ^^^ b
  | 0x08 => a * 2 ^ (b % w) % m
  | 0x09 => if t = 1 then ofSigned w (sa / (2 ^ (b % w) : Nat)) else a / 2 ^ (b % w)
  | 0x0A => if lt then a else b
  | 0x0B => if lt then b else a
  | 0x0C => b2n lt
  | 0x0D => b2n (decide (a = b))
  | 0x0E => clz w a
  | 0x0F => popCount w a
  | 0x10 =>
    let n := if bitsOf b 13 8 = 0 then w else bitsOf b 13 8
    let f := (a >>> (b % 64)) % 2 ^ n
    if t = 1 then ofSigned w (toSigned n f) else f % m
  | 0x11 =>
    let n := bitsOf b 13 8
    if n = 0 then c else setBitsOf c (b % 64 + n - 1) (b % 64) a % m
  | 0x12 => satType w t (va + vb)
  | 0x13 => satType w t (va - vb)
  | 0x14 => if b = 0 then m - 1 else if t = 1 then ofSigned w (sa.tdiv sb) else a / b
  | _ => if b = 0 then a else if t = 1 then ofSigned w (sa.tmod sb) else a % b

/-- The third source of an integer function: MAD and BFI. -/
def intUsesC (fn : Nat) : Bool := fn == 4 || fn == 0x11
/-- The functions of one source: CLZ and POPC. -/
def intUsesB (fn : Nat) : Bool := !(fn == 0xE || fn == 0xF)

/-- SALU (R187). -/
def salu (x : Ctx) (q : CGroup) (w : Nat) : Except Exc (CGroup × Nat) := do
  let fn := wFn w
  need (fn ≤ 0x15) excILL
  noPred w
  need (wType w ≤ 1 && wRnd w = 0) excFIELD
  layoutA w (intUsesC fn)
  scalarCode (wDst w)
  scalarCode (wA w)
  if !wI w then scalarCode (wB w)
  if intUsesC fn && !wI w then scalarCode (wC w)
  let b := if wI w then immA false 64 w else q.sreg (wB w)
  let c := if wI w then x.free % 2 ^ 64 else q.sreg (wC w)
  let bad := q.sbad (wA w) || (intUsesB fn && !wI w && q.sbad (wB w)) || (intUsesC fn && !wI w && q.sbad (wC w))
  pure ((q.setS (wDst w) (intFn 64 (wType w) fn (q.sreg (wA w)) b c) bad).past, 0)

def execSalu (cell : Fin 256) (group : Fin 128) (s : State) : Host.Outcome State Fault Refusal :=
  .next (s.issue cell group (fun w => wOp w == 1) salu)

/-- SMOVI (R189). -/
def smovi (_ : Ctx) (q : CGroup) (w : Nat) : Except Exc (CGroup × Nat) := do
  noPred w
  scalarCode (wDst w)
  pure ((q.setS (wDst w) (ofSigned 64 (toSigned 48 w)) false).past, 0)

def execSmovi (cell : Fin 256) (group : Fin 128) (s : State) : Host.Outcome State Fault Refusal :=
  .next (s.issue cell group (fun w => wOp w == 2) smovi)

/-- SMOVHI (R189). -/
def smovhi (_ : Ctx) (q : CGroup) (w : Nat) : Except Exc (CGroup × Nat) := do
  noPred w
  need (bitsOf w 47 16 = 0) excFIELD
  scalarCode (wDst w)
  pure ((q.setS (wDst w) (q.sreg (wDst w) % 2 ^ 48 + 2 ^ 48 * (w % 2 ^ 16)) (q.sbad (wDst w))).past, 0)

def execSmovhi (cell : Fin 256) (group : Fin 128) (s : State) : Host.Outcome State Fault Refusal :=
  .next (s.issue cell group (fun w => wOp w == 3) smovhi)

/-- SRD (R189). -/
def srd (x : Ctx) (q : CGroup) (w : Nat) : Except Exc (CGroup × Nat) := do
  noPred w
  need (wFn w ≤ 3 && w % 2 ^ 30 = 0) excFIELD
  scalarCode (wDst w)
  let v := match wFn w with | 0 => x.g | 1 => x.ngroups | 2 => x.nregs | _ => x.elapsed
  pure ((q.setS (wDst w) v false).past, 0)

def execSrd (cell : Fin 256) (group : Fin 128) (s : State) : Host.Outcome State Fault Refusal :=
  .next (s.issue cell group (fun w => wOp w == 8) srd)

/-! Branches (R184, R190). -/

/-- The condition of a branch on two 64-bit values. -/
def brCond (c a b : Nat) : Bool :=
  match c with
  | 0 => decide (a = b)
  | 1 => decide (a ≠ b)
  | 2 => decide (a < b)
  | 3 => decide (b ≤ a)
  | 4 => decide (toSigned 64 a < toSigned 64 b)
  | 5 => decide (toSigned 64 b ≤ toSigned 64 a)
  | 6 => decide (a = 0)
  | 7 => decide (a ≠ 0)
  | _ => true

/-- BR (R190). -/
def br (_ : Ctx) (q : CGroup) (w : Nat) : Except Exc (CGroup × Nat) := do
  let c := bitsOf w 35 32
  noPred w
  need (c ≤ 7 || c = 15) excFIELD
  need (wDst w = 0) excFIELD
  scalarCode (wA w)
  scalarCode (wB w)
  if c ≤ 7 then q.cleanS (wA w)
  if c ≤ 5 then q.cleanS (wB w)
  let target := addOfs 64 q.pc (wOff32 w * 8)
  if brCond c (q.sreg (wA w)) (q.sreg (wB w)) then
    if target % 8 = 0 then pure ({ q with pc := target }, 0) else .error (.at_ excALIGN target)
  else pure (q.past, 0)

def execBr (cell : Fin 256) (group : Fin 128) (s : State) : Host.Outcome State Fault Refusal :=
  .next (s.issue cell group (fun w => wOp w == 6) br)

/-- JUMP, KIND 0: JAL (R190). -/
def jal (_ : Ctx) (q : CGroup) (w : Nat) : Except Exc (CGroup × Nat) := do
  noPred w
  scalarCode (wDst w)
  let target := addOfs 64 q.pc (wOff32 w * 8)
  if target % 8 = 0 then pure ({ q.setS (wDst w) (q.pc + 8) false with pc := target }, 0) else .error (.at_ excALIGN target)

def execJal (cell : Fin 256) (group : Fin 128) (s : State) : Host.Outcome State Fault Refusal :=
  .next (s.issue cell group (fun w => wOp w == 7 && bitsOf w 35 32 == 0) jal)

/-- JUMP, KIND 1: JALR (R190): the target is computed before the link is written. -/
def jalr (_ : Ctx) (q : CGroup) (w : Nat) : Except Exc (CGroup × Nat) := do
  noPred w
  scalarCode (wDst w)
  scalarCode (wA w)
  q.cleanS (wA w)
  let target := addOfs 64 (q.sreg (wA w)) (wOff32 w * 8)
  if target % 8 = 0 then pure ({ q.setS (wDst w) (q.pc + 8) false with pc := target }, 0) else .error (.at_ excALIGN target)

def execJalr (cell : Fin 256) (group : Fin 128) (s : State) : Host.Outcome State Fault Refusal :=
  .next (s.issue cell group (fun w => wOp w == 7 && bitsOf w 35 32 == 1) jalr)

/-! Thread arithmetic (R191 to R194). -/

/-- TALU (R193). -/
def talu (x : Ctx) (q : CGroup) (w : Nat) : Except Exc (CGroup × Nat) := do
  let fn := wFn w
  let sel := fn == 0x16
  need (fn ≤ 0x16) excILL
  q.predOk w
  need (wType w ≤ 1 && wRnd w = 0) excFIELD
  layoutA w (intUsesC fn || sel)
  if sel && !wI w then need (wC w < 8) excFIELD
  dstField (wDst w)
  x.regsA w (intUsesB fn) (intUsesC fn)
  x.dstOk (wDst w)
  let act := q.active w
  let (a, ba) := q.lanes (wA w)
  let (b, bb) := q.srcB false w
  let (c, bc) := q.srcC x w
  let p := if wI w then x.free % 2 ^ 64 else q.pred (wC w % 8)
  let bp := if sel && !wI w && wC w ≠ 0 then q.pBad else 0
  let r := lanes64 fun l =>
    if sel then (if bitOf p l then a.getD l 0 else b.getD l 0, 0)
    else (intFn 32 (wType w) fn (a.getD l 0) (b.getD l 0) (c.getD l 0), 0)
  let bad := ba ||| (if intUsesB fn then bb else 0) ||| (if intUsesC fn then bc else 0) ||| bp
  let (q, fl) := q.writeLanes (wDst w) act r bad
  pure (q.past, fl)

def execTalu (cell : Fin 256) (group : Fin 128) (s : State) : Host.Outcome State Fault Refusal :=
  .next (s.issue cell group (fun w => wOp w == 0x10) talu)

/-- TMOVI (R193). -/
def tmovi (x : Ctx) (q : CGroup) (w : Nat) : Except Exc (CGroup × Nat) := do
  q.predOk w
  need (bitsOf w 35 32 = 0 && wA w = 0 && wB w = 0) excFIELD
  dstField (wDst w)
  x.dstOk (wDst w)
  let (q, fl) := q.writeLanes (wDst w) (q.active w) (lanes64 fun _ => (w % 2 ^ 32, 0)) 0
  pure (q.past, fl)

def execTmovi (cell : Fin 256) (group : Fin 128) (s : State) : Host.Outcome State Fault Refusal :=
  .next (s.issue cell group (fun w => wOp w == 0x11) tmovi)

/-- FP32 bits with the sign replaced; a NaN becomes canonical. -/
def fsignSet (a : Nat) (flip : Bool) : Nat :=
  if (f32 a).isNan then canonNan 0
  else if flip then (a + 2 ^ 31) % 2 ^ 32 else a % 2 ^ 31

/-- A function of R192 with its flags. -/
def fpFn (fn rnd a b c : Nat) : Nat × Nat :=
  match fn with
  | 0x00 => fadd rnd a b
  | 0x01 => fsub rnd a b
  | 0x02 => fmul rnd a b
  | 0x03 => ffma rnd a b c
  | 0x04 => (fminmax false a b, 0)
  | 0x05 => (fminmax true a b, 0)
  | 0x06 => (fsignSet a false, 0)
  | 0x07 => (fsignSet a true, 0)
  | 0x08 => fdiv rnd a b
  | 0x09 => fsqrt rnd a
  | 0x0A => frcp a
  | 0x0B => frsq a
  | 0x0C => fex2 a
  | 0x0D => flg2 a
  | 0x0E => fsincos false a
  | 0x0F => fsincos true a
  | 0x10 => fintegral 10 a
  | 0x11 => fintegral 11 a
  | _ => fintegral rnd a

/-- Functions that take RND, that use B, and that use C (R192). -/
def fpRounds (fn : Nat) : Bool := decide (fn ≤ 3) || fn == 8 || fn == 9 || fn == 0x12
def fpUsesB (fn : Nat) : Bool := decide (fn ≤ 5) || fn == 8
def fpUsesC (fn : Nat) : Bool := fn == 3

/-- FALU (R192). -/
def falu (x : Ctx) (q : CGroup) (w : Nat) : Except Exc (CGroup × Nat) := do
  let fn := wFn w
  need (fn ≤ 0x12) excILL
  q.predOk w
  need (wType w = 2) excFIELD
  need (if fpRounds fn then wRnd w ≠ 3 else wRnd w = 0) excFIELD
  layoutA w (fpUsesC fn)
  dstField (wDst w)
  x.regsA w (fpUsesB fn) (fpUsesC fn)
  x.dstOk (wDst w)
  let act := q.active w
  let (a, ba) := q.lanes (wA w)
  let (b, bb) := q.srcB true w
  let (c, bc) := q.srcC x w
  let r := lanes64 fun l => if bitOf act l then fpFn fn (wRnd w) (a.getD l 0) (b.getD l 0) (c.getD l 0) else (0, 0)
  let bad := ba ||| (if fpUsesB fn then bb else 0) ||| (if fpUsesC fn then bc else 0)
  let (q, fl) := q.writeLanes (wDst w) act r bad
  pure (q.past, fl)

def execFalu (cell : Fin 256) (group : Fin 128) (s : State) : Host.Outcome State Fault Refusal :=
  .next (s.issue cell group (fun w => wOp w == 0x12) falu)

/-- A value rounded to a 32-bit integer (R194): saturated with OVF and INX, an infinity with OVF, a NaN to 0 with INV. -/
def toInt32 (sgn : Bool) (mode : Nat) (v : FVal) (r : Nat) : Nat × Nat :=
  let lim (neg : Bool) : Nat := if sgn then (if neg then 2 ^ 31 else 2 ^ 31 - 1) else (if neg then 0 else 2 ^ 32 - 1)
  let enc (neg : Bool) (n : Nat) : Nat := if neg then ofSigned 32 (-(n : Int)) else n
  match v with
  | .nan => (0, flagINV)
  | .inf neg => (enc neg (lim neg), flagOVF)
  | .fin neg m e =>
    let (n0, lost) := shiftExp m e
    if decide (n0 > lim neg) || (decide (n0 = lim neg) && lost) then (enc neg (lim neg), flagOVF ||| flagINX)
    else
      let (n, ix) := roundTo mode m e false 0 r
      (enc neg n, flagIf ix flagINX)

/-- Bits of an element of a TCVT operand; a 32-bit integer occupies the register. -/
def cvtBits (isInt : Bool) (code : Nat) : Nat := if isInt then 32 else elemBits code

/-- Highest position of an element of w bits (R194). -/
def cvtTop (w : Nat) : Nat := if w = 6 then 3 else 32 / w - 1

/-- TCVT (R194). -/
def tcvt (x : Ctx) (q : CGroup) (w : Nat) : Except Exc (CGroup × Nat) := do
  let srcf := bitsOf w 35 32
  let dstf := bitsOf w 31 28
  let rnd := bitsOf w 27 26
  let isrc := bitOf w 25
  let idst := bitOf w 24
  let dpos := bitsOf w 23 20
  let spos := bitsOf w 19 16
  let idx := bitsOf w 15 10
  let sgn := bitOf w 9
  let sw := cvtBits isrc srcf
  let dw := cvtBits idst dstf
  q.predOk w
  need (w % 2 ^ 9 = 0 && (!isrc || srcf = 0) && (!idst || dstf = 0)) excFIELD
  need (fmtValid srcf && fmtValid dstf) excFIELD
  need (spos ≤ cvtTop sw && dpos ≤ cvtTop dw) excFIELD
  need (if rnd = 3 then decide (wB w ≥ 32 ∧ idx < 32) else decide (wB w = 0 ∧ idx = 0)) excFIELD
  dstField (wDst w)
  x.srcOk (wA w)
  if rnd = 3 then x.srcOk idx
  x.dstOk (wDst w)
  let act := q.active w
  let (a, ba) := q.lanes (wA w)
  let old := q.treg (wDst w)
  let ix := q.treg idx
  let seed := q.sreg (wB w)
  let r := lanes64 fun l =>
    let e := bitsOf (a.getD l 0) (spos * sw + sw - 1) (spos * sw)
    let (v, f1) : FVal × Nat :=
      if isrc then
        let n : Int := if sgn then toSigned 32 e else e
        (.fin (decide (n < 0)) n.natAbs 0, 0)
      else numDecode srcf e
    let st := if rnd = 3 then stochBits seed (ix.getD l 0) else 0
    let (z, f2) := if idst then toInt32 sgn rnd v st else numRound dstf rnd v st
    (setBitsOf (old.getD l 0) (dpos * dw + dw - 1) (dpos * dw) z, f1 ||| f2)
  let bad := ba ||| (if dw < 32 then q.tbad (wDst w) else 0) |||
    (if rnd = 3 then q.tbad idx ||| (if q.sbad (wB w) then 2 ^ 64 - 1 else 0) else 0)
  let (q, fl) := q.writeLanes (wDst w) act r bad
  pure (q.past, fl)

def execTcvt (cell : Fin 256) (group : Fin 128) (s : State) : Host.Outcome State Fault Refusal :=
  .next (s.issue cell group (fun w => wOp w == 0x13) tcvt)

/-! Predicates (R195 to R197). -/

/-- A mask of the lanes for which f holds. -/
def maskOf (f : Nat → Bool) : Nat := (List.range 64).foldl (fun m l => if f l then m + 2 ^ l else m) 0

/-- The lanes of a mask replaced by those of another under act. -/
def maskMerge (old new act : Nat) : Nat := maskOf fun l => if bitOf act l then bitOf new l else bitOf old l

/-- A comparison of R195. -/
def tcmpRel (t fn a b : Nat) : Bool :=
  let o : Option Ordering :=
    if t = 2 then (f32 a).cmp (f32 b)
    else if t = 1 then some (compare (toSigned 32 a) (toSigned 32 b))
    else some (compare a b)
  match o with
  | none => fn == 1 || fn == 6
  | some c =>
    match fn with
    | 0 => c == .eq
    | 1 => c != .eq
    | 2 => c == .lt
    | 3 => c != .gt
    | 4 => c == .gt
    | 5 => c != .lt
    | 7 => true
    | _ => false

/-- TCMP (R195). -/
def tcmp (x : Ctx) (q : CGroup) (w : Nat) : Except Exc (CGroup × Nat) := do
  let fn := wFn w
  let t := wType w
  need (fn ≤ 5 || (fn ≤ 7 && t ≠ 0 && t ≠ 1)) excILL
  q.predOk w
  need (t ≤ 2 && wRnd w ≠ 3 && wDst w < 8) excFIELD
  layoutA w false
  x.regsA w true false
  let act := q.active w
  let (a, ba) := q.lanes (wA w)
  let (b, bb) := q.srcB (t = 2) w
  cleanLanes (ba ||| bb) act
  if wRnd w ≠ 0 then q.predSrc (wDst w) act
  let old := q.pred (wDst w)
  let new := maskOf fun l =>
    let r := tcmpRel t fn (a.getD l 0) (b.getD l 0)
    match wRnd w with
    | 0 => r
    | 1 => bitOf old l && r
    | _ => bitOf old l || r
  pure ((q.setPred (wDst w) (maskMerge old new act)).past, 0)

def execTcmp (cell : Fin 256) (group : Fin 128) (s : State) : Host.Outcome State Fault Refusal :=
  .next (s.issue cell group (fun w => wOp w == 0x14) tcmp)

/-- PLOG of two predicates or of a scalar (R196). -/
def plog (_ : Ctx) (q : CGroup) (w : Nat) : Except Exc (CGroup × Nat) := do
  let fn := wFn w
  need (fn ≤ 6) excILL
  q.predOk w
  need (w % 2 ^ 30 = 0 && wDst w < 8) excFIELD
  let two := decide (fn ≤ 2)
  if fn ≤ 3 then need (wA w < 8) excFIELD
  if two then need (wB w < 8) excFIELD
  if fn = 6 then need (wA w ≥ 32) excFIELD
  let act := q.active w
  if fn ≤ 3 then q.predSrc (wA w) act
  if two then q.predSrc (wB w) act
  if fn = 6 then q.cleanS (wA w)
  let a := q.pred (wA w)
  let b := q.pred (wB w)
  let new := match fn with
    | 0 => a &&& b
    | 1 => a ||| b
    | 2 => a ^^^ b
    | 3 => 2 ^ 64 - 1 - a
    | 4 => 2 ^ 64 - 1
    | 5 => 0
    | _ => q.sreg (wA w)
  pure ((q.setPred (wDst w) (maskMerge (q.pred (wDst w)) new act)).past, 0)

def execPlog (cell : Fin 256) (group : Fin 128) (s : State) : Host.Outcome State Fault Refusal :=
  .next (s.issue cell group (fun w => wOp w == 0x15 && decide (wFn w < 0x10)) plog)

/-- The VOTE functions of PLOG (R197). -/
def vote (_ : Ctx) (q : CGroup) (w : Nat) : Except Exc (CGroup × Nat) := do
  let fn := wFn w
  need (0x10 ≤ fn && fn ≤ 0x13) excILL
  q.predOk w
  need (w % 2 ^ 30 = 0 && wDst w ≥ 32 && wA w < 8) excFIELD
  let act := q.active w
  let hit := q.pred (wA w) &&& act
  let v := match fn with
    | 0x10 => hit
    | 0x11 => b2n (decide (hit ≠ 0))
    | 0x12 => b2n (decide (hit = act))
    | _ => popCount 64 hit
  pure ((q.setS (wDst w) v (decide (wA w ≠ 0 ∧ q.pBad &&& act ≠ 0))).past, 0)

def execVote (cell : Fin 256) (group : Fin 128) (s : State) : Host.Outcome State Fault Refusal :=
  .next (s.issue cell group (fun w => wOp w == 0x15 && decide (0x10 ≤ wFn w ∧ wFn w ≤ 0x13)) vote)

/-! Lane exchanges and reductions (R199). -/

/-- One level of the pairwise tree of R130 over FP32 values, with flags. -/
def pairSums : List Nat → List Nat × Nat
  | a :: b :: r =>
    let (v, f) := fadd 0 a b
    let (l, g) := pairSums r
    (v :: l, f ||| g)
  | l => (l, 0)

/-- The pairwise tree of R130: levels until one value is left; +0 for an empty list. -/
def treeSum : Nat → List Nat → Nat × Nat
  | 0, l => (l.headD 0, 0)
  | fuel + 1, l =>
    match l with
    | [] => (0, 0)
    | [v] => (v, 0)
    | _ =>
      let (l', f) := pairSums l
      let (v, g) := treeSum fuel l'
      (v, f ||| g)

/-- The least or greatest of active lanes by TYPE; the value for no active lane (R199). -/
def laneExtreme (isMax : Bool) (t : Nat) (vals : List Nat) : Nat :=
  match t with
  | 2 => match vals with
    | [] => canonNan 0
    | v :: r => r.foldl (fun x y => fminmax isMax x y) (if (f32 v).isNan then canonNan 0 else v)
  | 1 => match vals with
    | [] => ofSigned 64 (if isMax then -(2 ^ 31 : Nat) else (2 ^ 31 : Nat) - 1)
    | v :: r =>
      ofSigned 64 (r.foldl (fun (x : Int) y => if isMax then max x (toSigned 32 y) else min x (toSigned 32 y)) (toSigned 32 v))
  | _ => match vals with
    | [] => if isMax then 0 else 2 ^ 32 - 1
    | v :: r => r.foldl (fun x y => if isMax then max x y else min x y) v

/-- Source lane of a shuffle. -/
def shufLane (fn imm l bl : Nat) : Nat :=
  match fn with
  | 0 => bl % 64
  | 1 => imm
  | 2 => l ^^^ imm
  | 3 => if imm ≤ l then l - imm else l
  | _ => if l + imm ≤ 63 then l + imm else l

/-- TLANE (R199). -/
def tlane (x : Ctx) (q : CGroup) (w : Nat) : Except Exc (CGroup × Nat) := do
  let fn := wFn w
  let t := wType w
  let imm := w % 64
  let red := decide (fn ≥ 0x10)
  need (fn ≤ 4 || (0x10 ≤ fn && fn ≤ 0x12)) excILL
  q.predOk w
  need (t ≤ 2 && bitsOf w 29 27 = 0 && bitsOf w 23 6 = 0) excFIELD
  if red then need (wDst w ≥ 32 && imm = 0) excFIELD else dstField (wDst w)
  x.srcOk (wA w)
  if fn = 0 then x.srcOk (wB w)
  if !red then x.dstOk (wDst w)
  let act := q.active w
  let (a, ba) := q.lanes (wA w)
  if red then
    let vals := (setBitsList 64 act).map fun l => a.getD l 0
    let (v, fl) :=
      if fn = 0x10 then
        if t = 2 then treeSum 7 ((List.range 64).map fun l => if bitOf act l then a.getD l 0 else 0)
        else if t = 1 then (ofSigned 64 (vals.foldl (fun (n : Int) v => n + toSigned 32 v) 0), 0)
        else (vals.foldl (· + ·) 0, 0)
      else (laneExtreme (fn = 0x12) t vals, 0)
    pure ((q.setS (wDst w) v (decide (ba &&& act ≠ 0))).past, fl)
  else
    let (b, bb) := if fn = 0 then q.lanes (wB w) else (List.replicate 64 0, 0)
    let src := fun l => shufLane fn imm l (b.getD l 0)
    let bad := maskOf fun l => bitOf ba (src l) || bitOf bb l
    let (q, fl) := q.writeLanes (wDst w) act (lanes64 fun l => (a.getD (src l) 0, 0)) bad
    pure (q.past, fl)

def execTlane (cell : Fin 256) (group : Fin 128) (s : State) : Host.Outcome State Fault Refusal :=
  .next (s.issue cell group (fun w => wOp w == 0x18) tlane)

/-! Barriers, counters and fences (R206 to R208). -/

/-- Checks of BAR: only FUNC and the barrier number are used. -/
def barOk (w : Nat) : Except Exc Unit := do
  noPred w
  need (bitsOf w 29 24 = 0 && w % 2 ^ 20 = 0) excFIELD

def wBar (w : Nat) : Nat := bitsOf w 23 20

/-- BAR SYNC. -/
def barSync (_ : Ctx) (q : CGroup) (w : Nat) : Except Exc (CGroup × Nat) := do
  barOk w
  pure ({ q.past with arrived := setMask q.arrived (wBar w) true, wait := .barrier (wBar w) }, 0)

def execBarSync (cell : Fin 256) (group : Fin 128) (s : State) : Host.Outcome State Fault Refusal :=
  .next (s.issue cell group (fun w => wOp w == 0x38 && wFn w == 0) barSync)

/-- BAR ARRIVE; a group that has arrived already stays at it until the phase completes. -/
def barArrive (_ : Ctx) (q : CGroup) (w : Nat) : Except Exc (CGroup × Nat) := do
  barOk w
  if bitOf q.arrived (wBar w) then pure (q, 0)
  else pure ({ q.past with arrived := setMask q.arrived (wBar w) true }, 0)

def execBarArrive (cell : Fin 256) (group : Fin 128) (s : State) : Host.Outcome State Fault Refusal :=
  .next (s.issue cell group (fun w => wOp w == 0x38 && wFn w == 1) barArrive)

/-- BAR WAIT. -/
def barWait (_ : Ctx) (q : CGroup) (w : Nat) : Except Exc (CGroup × Nat) := do
  barOk w
  if bitOf q.arrived (wBar w) then pure ({ q.past with wait := .barrier (wBar w) }, 0) else pure (q.past, 0)

def execBarWait (cell : Fin 256) (group : Fin 128) (s : State) : Host.Outcome State Fault Refusal :=
  .next (s.issue cell group (fun w => wOp w == 0x38 && wFn w == 2) barWait)

/-- Every live group of the cell has arrived at barrier b, and there is one. -/
def CellS.phaseDone (x : CellS) (b : Nat) : Bool :=
  (x.groups.any fun p => decide (p.2.run = 1)) &&
    x.groups.all fun p => decide (p.2.run ≠ 1) || bitOf p.2.arrived b

/-- The phase of barrier b completes: the waiting groups are ready, and no arrival is left (R207). -/
def CellS.closePhase (x : CellS) (b : Nat) : CellS :=
  { x with groups := x.groups.map fun p =>
      (p.1, { p.2 with arrived := setMask p.2.arrived b false, wait := if p.2.wait = .barrier b then .none else p.2.wait }) }

def execBarrierPhaseComplete (cell : Fin 256) (bar : Fin 16) (s : State) : Host.Outcome State Fault Refusal :=
  .next (if (s.cell cell).phaseDone bar then s.modCell cell fun x => x.closePhase bar else s)

/-- WAIT (R208). -/
def wait_ (_ : Ctx) (q : CGroup) (w : Nat) : Except Exc (CGroup × Nat) := do
  noPred w
  need (bitsOf w 23 20 ≤ 4 && bitsOf w 29 24 = 0 && bitsOf w 19 8 = 0) excFIELD
  pure ({ q.past with wait := .counter (bitsOf w 23 20) (w % 256) }, 0)

def execWait (cell : Fin 256) (group : Fin 128) (s : State) : Host.Outcome State Fault Refusal :=
  .next (s.issue cell group (fun w => wOp w == 0x39 && wFn w == 0) wait_)

/-- FENCE (R208). -/
def fence_ (_ : Ctx) (q : CGroup) (w : Nat) : Except Exc (CGroup × Nat) := do
  noPred w
  need (bitsOf w 22 20 ≠ 0 && bitsOf w 29 23 = 0 && w % 2 ^ 20 = 0) excFIELD
  pure ({ q.past with wait := .fence (bitsOf w 22 20) }, 0)

def execFence (cell : Fin 256) (group : Fin 128) (s : State) : Host.Outcome State Fault Refusal :=
  .next (s.issue cell group (fun w => wOp w == 0x39 && wFn w == 1) fence_)

/-! Phase instructions (R209). -/

/-- PWAIT on an axis whose value and enable are given: it is past when the target is reached, otherwise it waits at the
instruction. -/
def pwait (en : Nat → Bool) (val : Nat → Nat) (_ : Ctx) (q : CGroup) (w : Nat) : Except Exc (CGroup × Nat) := do
  let ax := bitsOf w 23 20
  noPred w
  scalarCode (wA w)
  need (en ax) excFIELD
  q.cleanS (wA w)
  if reached (val ax) (q.sreg (wA w)) then pure (q.past, 0)
  else pure ({ q with wait := .pwait ax (q.sreg (wA w)) }, 0)

def execPwait (cell : Fin 256) (group : Fin 128) (s : State) : Host.Outcome State Fault Refusal :=
  .next (s.issue cell group (fun w => wOp w == 0x3A && wFn w == 0) (pwait s.axEn s.axValue))

/-- The axis has reached the target that a group waits for: the group goes on after its PWAIT. -/
def execPwaitReached (cell : Fin 256) (group : Fin 128) (s : State) : Host.Outcome State Fault Refusal :=
  let q := s.group cell group
  match q.wait with
  | .pwait ax t =>
    .next (if s.cellState cell = csRUNNING && q.run = 1 && !s.axStalled ax && reached (s.axValue ax) t
      then s.setGroup cell group { q.past with wait := .none } else s)
  | _ => .next s

/-- PREAD (R209): the axis value at issue, 0 when the axis is not enabled. -/
def pread (en : Nat → Bool) (val : Nat → Nat) (_ : Ctx) (q : CGroup) (w : Nat) : Except Exc (CGroup × Nat) := do
  let ax := bitsOf w 23 20
  noPred w
  scalarCode (wDst w)
  pure ((q.setS (wDst w) (if en ax then val ax else 0) false).past, 0)

def execPread (cell : Fin 256) (group : Fin 128) (s : State) : Host.Outcome State Fault Refusal :=
  .next (s.issue cell group (fun w => wOp w == 0x3A && wFn w == 1) (pread s.axEn s.axValue))

/-! NOTIFY (R210). -/

/-- The checks of NOTIFY. -/
def notifyOk (_ : Ctx) (q : CGroup) (w : Nat) : Except Exc (CGroup × Nat) := do
  noPred w
  need (w % 2 ^ 36 = 0 && wDst w = 0) excFIELD
  scalarCode (wA w)
  scalarCode (wB w)
  q.cleanS (wA w)
  pure (q.past, 0)

/-- The doorbell of a NOTIFY that issues: the request is acknowledged at once, or its error response is pending. -/
def State.notify_ (s : State) (c g w : Nat) (q : CGroup) : State :=
  let i := s.cellInst c
  let (s, err) := s.doorbell (mCell c) (asInst i) (s.instGen i) (q.sreg (wA w) % 2 ^ 19) (q.sreg (wB w) % 2 ^ 32)
  if err then s.pendExc c ⟨excACCESS, g, q.pc, w, q.sreg (wA w) % 2 ^ 19⟩ else s

def execNotify (cell : Fin 256) (group : Fin 128) (s : State) : Host.Outcome State Fault Refusal :=
  match s.nextWord cell group (fun w => wOp w == 0x3B) with
  | none => .next s
  | some w =>
    let q := s.group cell group
    let s' := s.issue cell group (fun w => wOp w == 0x3B) notifyOk
    .next (match notifyOk (s.ctx cell group) q w with
      | .ok _ => s'.notify_ cell group w q
      | .error _ => s')

/-! System instructions (R211). -/

/-- The checks of a SYS function: which of DST, SRCA and the low bits it uses. -/
def sysOk (w : Nat) (dst srca : Bool) (low : Nat) : Except Exc Unit := do
  noPred w
  need (w % 2 ^ 30 / 2 ^ low = 0 && (dst || wDst w = 0) && (srca || wA w = 0) && wB w = 0) excFIELD
  if dst then scalarCode (wDst w)
  if srca then scalarCode (wA w)

def isSys (fn : Nat) (w : Nat) : Bool := wOp w == 0x3F && wFn w == fn

def sysNop (_ : Ctx) (q : CGroup) (w : Nat) : Except Exc (CGroup × Nat) := do
  sysOk w false false 0
  pure (q.past, 0)

def execSysNop (cell : Fin 256) (group : Fin 128) (s : State) : Host.Outcome State Fault Refusal :=
  .next (s.issue cell group (isSys 0) sysNop)

def sysEnd (_ : Ctx) (q : CGroup) (w : Nat) : Except Exc (CGroup × Nat) := do
  sysOk w false false 0
  pure ({ q.past with run := 2 }, 0)

/-- END (R211, R157): the group ends; when no group is left live the cell drains. -/
def State.endGroup (s : State) (c g : Nat) : State :=
  let s := (s.issue c g (isSys 1) sysEnd).showLive c
  if s.cellState c = csRUNNING && (s.cell c).liveCount = 0 then s.drainFor c 1 else s

def execSysEnd (cell : Fin 256) (group : Fin 128) (s : State) : Host.Outcome State Fault Refusal :=
  .next (match s.nextWord cell group (isSys 1) with
    | none => s
    | some _ => s.endGroup cell group)

def sysBreak (_ : Ctx) (_ : CGroup) (w : Nat) : Except Exc (CGroup × Nat) := do
  sysOk w false false 0
  .error (.of excBREAK)

def execSysBreak (cell : Fin 256) (group : Fin 128) (s : State) : Host.Outcome State Fault Refusal :=
  .next (s.issue cell group (isSys 2) sysBreak)

def sysTrap (_ : Ctx) (_ : CGroup) (w : Nat) : Except Exc (CGroup × Nat) := do
  sysOk w false false 16
  .error (.at_ excTRAP (w % 2 ^ 16))

def execSysTrap (cell : Fin 256) (group : Fin 128) (s : State) : Host.Outcome State Fault Refusal :=
  .next (s.issue cell group (isSys 3) sysTrap)

def rdfl (x : Ctx) (q : CGroup) (w : Nat) : Except Exc (CGroup × Nat) := do
  sysOk w true false 0
  pure ((q.setS (wDst w) (x.aflags % 32) false).past, 0)

def execRdfl (cell : Fin 256) (group : Fin 128) (s : State) : Host.Outcome State Fault Refusal :=
  .next (s.issue cell group (isSys 4) rdfl)

def clrfl (_ : Ctx) (q : CGroup) (w : Nat) : Except Exc (CGroup × Nat) := do
  sysOk w false false 5
  pure (q.past, 0)

/-- CLRFL (R211): AFLAGS loses the flags named. -/
def execClrfl (cell : Fin 256) (group : Fin 128) (s : State) : Host.Outcome State Fault Refusal :=
  .next (match s.nextWord cell group (isSys 5) with
    | none => s
    | some w =>
      let s' := s.issue cell group (isSys 5) clrfl
      match clrfl (s.ctx cell group) (s.group cell group) w with
      | .ok _ => s'.setWord (rAflags cell group) (s'.word (rAflags cell group) &&& (31 - w % 32))
      | .error _ => s')

def rdres (_ : Ctx) (q : CGroup) (w : Nat) : Except Exc (CGroup × Nat) := do
  sysOk w true false 0
  pure ((q.setS (wDst w) q.resume false).past, 0)

def execRdres (cell : Fin 256) (group : Fin 128) (s : State) : Host.Outcome State Fault Refusal :=
  .next (s.issue cell group (isSys 6) rdres)

/-- WRRES: a poisoned value for RESUME, which a long routine uses as a count, raises POISON_USE. -/
def wrres (_ : Ctx) (q : CGroup) (w : Nat) : Except Exc (CGroup × Nat) := do
  sysOk w false true 0
  q.cleanS (wA w)
  pure ({ q.past with resume := q.sreg (wA w) }, 0)

def execWrres (cell : Fin 256) (group : Fin 128) (s : State) : Host.Outcome State Fault Refusal :=
  .next (s.issue cell group (isSys 7) wrres)

end Sys2Proof.Machine
end

