-- ==== Sys2Proof/Machine/CellTile.lean ====
section
/-! DEFINITION. The tile store of a cell, tile descriptors, and the issue of queued instructions (07_tensor_and_long_ops.md
R216 to R222; 04_number_formats.md R109). -/

namespace Sys2Proof.Machine

/-! Tile store accesses of a cell (R144, R166, R167). -/

def tsTop : Nat := 0x180000
def tsAddr (c o : Nat) : Nat := tileBase + tileSize * c + o

def State.tsNat (s : State) (c o n : Nat) : Nat := s.mnat (tsAddr c o) n
def State.tsBytes (s : State) (c o n : Nat) : List Byte := s.bytes (tsAddr c o) n
def State.tsBad (s : State) (c o n : Nat) : Bool := s.poisoned (tsAddr c o) n

/-- A write of bytes by the cell. -/
def State.tsWrite (s : State) (c o : Nat) (l : List Byte) (bad : Bool) : State := s.memPut (mCell c) (tsAddr c o) l bad

/-- Bits [k w + w - 1 : k w] from a byte offset on: element k of a row (R109), with its poison. -/
def State.tsElem (s : State) (c o w k : Nat) : Nat × Bool :=
  let b := k * w
  (s.tsNat c (o + b / 8) 5 / 2 ^ (b % 8) % 2 ^ w, s.tsBad c (o + b / 8) ((b % 8 + w + 7) / 8))

/-- The first n elements of a row. -/
def State.tsRow (s : State) (c o w n : Nat) : List (Nat × Bool) := (List.range n).map fun k => s.tsElem c o w k

/-- The elements of a list packed from bit 0 on. -/
def packElems (w : Nat) : List (Nat × Bool) → Nat
  | [] => 0
  | p :: r => p.1 % 2 ^ w + packElems w r * 2 ^ w

/-- A row of elements written (R109); bits of the last byte beyond the row keep their value, and the words that hold a
poisoned element are poisoned (R167). -/
def State.tsWriteRow (s : State) (c o w : Nat) (l : List (Nat × Bool)) : State :=
  let n := (l.length * w + 7) / 8
  let old := s.tsNat c o n
  let v := setBitsOf old (l.length * w - 1) 0 (packElems w l)
  let s := if l.isEmpty then s else s.tsWrite c o (leBytes n v) false
  ((List.range l.length).zip l).foldl (fun s p =>
    if p.2.2 then s.poisonRange (tsAddr c (o + p.1 * w / 8)) ((p.1 * w % 8 + w + 7) / 8) (mCell c) else s) s

/-! Tile descriptors (R219 to R222). -/

def tdBase (t : Nat) : Nat := bitsOf t 20 0
def tdRows (t : Nat) : Nat := bitsOf t 26 21 + 1
def tdFmt (t : Nat) : Nat := bitsOf t 30 27
def tdSmode (t : Nat) : Nat := bitsOf t 32 31
def tdSparse (t : Nat) : Bool := bitOf t 33
def tdStride (t : Nat) : Nat := bitsOf t 55 35
def tdSstride (t : Nat) : Nat := bitsOf t 69 56
def tdSbase (t : Nat) : Nat := bitsOf t 90 70
def tdTscale (t : Nat) : Nat := bitsOf t 127 96

def CGroup.tdesc (q : CGroup) (n : Nat) : Nat := fmGetD 0 q.td n

/-- Bytes of a row of e elements (R220). -/
def rowBytes (fmt e : Nat) : Nat := if elemBits fmt = 6 then (e + 3) / 4 * 3 else (e * elemBits fmt + 7) / 8

/-- Byte offset of the metadata in a sparse row of k logical elements (R222). -/
def mofs (fmt k : Nat) : Nat := roundUp (rowBytes fmt (2 * ((k + 3) / 4))) 8

/-- Bytes of an operand row of k logical elements. -/
def operBytes (t k : Nat) : Nat :=
  if tdSparse t then mofs (tdFmt t) k + ((k + 3) / 4 + 1) / 2 else rowBytes (tdFmt t) k

/-- Alignment of BASE and STRIDE (R220). -/
def fmtAlign (fmt : Nat) : Nat :=
  match elemBits fmt with | 32 => 4 | 16 => 2 | 6 => 3 | _ => 1

/-- Elements in a block of a scale mode. -/
def blockOf (smode : Nat) : Nat := if smode = 1 then 32 else 16
def blocksIn (smode e : Nat) : Nat := if smode = 0 then 0 else ceilDiv e (blockOf smode)

/-- Format and mode codes that are reserved (R217). -/
def tdFieldOk (t : Nat) : Bool := fmtValid (tdFmt t) && decide (tdSmode t ≠ 3)

/-- The parts of a descriptor in range whatever uses it (R219 to R221), for rows of e elements. -/
def tdDescOk (t e : Nat) : Bool :=
  !bitOf t 34 && decide (bitsOf t 95 91 = 0) && decide (tdStride t < tsTop) && decide (tdSmode t ≠ 0 ∨ tdSbase t < tsTop) &&
    decide (tdSstride t ≥ blocksIn (tdSmode t) e)

/-- A scale mode is permitted with a format (R113). -/
def scaleOk (fmt smode : Nat) : Bool :=
  smode == 0 || (smode == 1 && decide (4 ≤ fmt ∧ fmt ≤ 11)) || (smode == 2 && decide (5 ≤ fmt ∧ fmt ≤ 11))

def tdAligned (t : Nat) : Bool := decide (tdBase t % fmtAlign (tdFmt t) = 0) && decide (tdStride t % fmtAlign (tdFmt t) = 0)

/-- The bytes of n rows of len bytes from base, stride apart, end inside the tile store. -/
def extentOk (base stride n len : Nat) : Bool := len == 0 || n == 0 || decide (base + (n - 1) * stride + len ≤ tsTop)

/-- The extents of a region whose rows take len bytes and e logical elements (R220). -/
def tdExtentOk (t e len : Nat) : Bool :=
  extentOk (tdBase t) (tdStride t) (tdRows t) len &&
    extentOk (tdSbase t) (tdSstride t) (tdRows t) (blocksIn (tdSmode t) e)

/-- Byte ranges [a, a + n) and [b, b + m) meet. -/
def overlap (a n b m : Nat) : Bool := decide (n ≠ 0 ∧ m ≠ 0 ∧ a < b + m ∧ b < a + n)

/-- A row of one region meets a row of another. -/
def rowsMeet (b1 s1 r1 n1 b2 s2 r2 n2 : Nat) : Bool :=
  (List.range r1).any fun i => (List.range r2).any fun j => overlap (b1 + i * s1) n1 (b2 + j * s2) n2

/-- A destination of rows of e elements: rows do not overlap each other or the scale plane (R220). -/
def dstOkDesc (t e : Nat) : Bool :=
  let rb := rowBytes (tdFmt t) e
  decide (tdStride t ≥ rb) &&
    !rowsMeet (tdBase t) (tdStride t) (tdRows t) rb (tdSbase t) (tdSstride t) (tdRows t) (blocksIn (tdSmode t) e)

/-! Issue into a queue (R148, R206, R216, R217, R244). -/

inductive QSel where
  | tensor | move | long
  deriving DecidableEq, Repr

/-- The queue, or the counter of the group, is full: the instruction waits in issue. -/
def CellS.qFull (x : CellS) (q : CGroup) : QSel → Bool
  | .tensor => decide (x.tq.length ≥ 8 ∨ q.tq ≥ 255)
  | .move => decide (x.mq.length ≥ 16 ∨ q.mq ≥ 255)
  | .long => decide (x.lq.length ≥ 2 ∨ q.lq ≥ 255)

/-- The group after the issue: past the instruction, or held at a long one. -/
def CGroup.queued (q : CGroup) : QSel → CGroup
  | .tensor => { q.past with tq := q.tq + 1 }
  | .move => { q.past with mq := q.mq + 1 }
  | .long => { q with lq := q.lq + 1, wait := .long }

def CellS.enq (x : CellS) (op : QOp) : QSel → CellS
  | .tensor => { x with tq := x.tq ++ [op] }
  | .move => { x with mq := x.mq ++ [op] }
  | .long => { x with lq := x.lq ++ [op] }

/-- Issues the next instruction of a group into a queue, when it is of the kind asked for and the queue has a place. -/
def State.issueTo (s : State) (c g : Nat) (want : Nat → Bool) (sel : QSel) (f : CGroup → Nat → Except Exc QOp) : State :=
  match s.nextWord c g want with
  | none => s
  | some w =>
    let q := { s.group c g with wait := .none }
    if (s.cell c).qFull q sel then s
    else
      match f q w with
      | .error e => s.syncExc c g w e
      | .ok op => (s.setGroup c g (q.queued sel)).modCell c fun x => x.enq op sel

/-- A scalar operand code of R216: 0x20 to 0x3F. -/
def scalarOp (n : Nat) : Except Exc Unit := need (n ≥ 32) excFIELD
/-- A tile descriptor code, and an accumulator code. -/
def tdOp (n : Nat) : Except Exc Unit := need (n < 16) excFIELD
def accOp (n : Nat) : Except Exc Unit := need (0x10 ≤ n && n < 0x14) excFIELD

/-- A descriptor register that is poisoned raises POISON_USE (R167). -/
def CGroup.cleanTd (q : CGroup) (n : Nat) : Except Exc Unit := need (!bitOf q.tdBad n) excPOISON

/-- The op of a queued instruction, before its operands are filled in. -/
def QOp.base (g : Nat) (q : CGroup) (w : Nat) : QOp := ⟨g, q.pc, w, 0, 0, 0, 0, 0, [], false⟩

/-- A queue has done an instruction of a group: the counter falls (R206), and a drain may end. -/
def State.qDone (s : State) (c g : Nat) (sel : QSel) : State :=
  let s := s.setGroup c g (match sel with
    | .tensor => { s.group c g with tq := (s.group c g).tq - 1 }
    | .move => { s.group c g with mq := (s.group c g).mq - 1 }
    | .long => { s.group c g with lq := (s.group c g).lq - 1 })
  s.afterDrain c

/-- An asynchronous fault of a queued instruction. -/
def State.opFault (s : State) (c : Nat) (op : QOp) (cause addr : Nat) : State :=
  s.pendExc c ⟨cause, op.group, op.pc, op.word, addr⟩

end Sys2Proof.Machine
end

