-- ==== Sys2Proof/Machine/CellMma.lean ====
section
/-! DEFINITION. Reductions of the matrix array: exact accumulation, tree reduction and sparse operands
(04_number_formats.md R113 to R115, R122 to R133; 07_tensor_and_long_ops.md R222, R226). -/

namespace Sys2Proof.Machine

/-- A block scale (R114): kind 0 zero, 1 NaN, 2 the value g times 2^x; whether its sign was 1; its poison. -/
structure BScale where
  kind : Nat
  g : Nat
  x : Int
  neg : Bool
  bad : Bool
  deriving DecidableEq, Repr

/-- The scale of an operand in mode NONE, and one that is treated as zero. -/
def BScale.one : BScale := ⟨2, 1, 0, false, false⟩
def BScale.zero : BScale := ⟨0, 0, 0, false, false⟩

/-- The scale that a byte gives under a scale mode. -/
def scaleOf (smode byte : Nat) (bad : Bool) : BScale :=
  if smode = 1 then (if byte = 255 then ⟨1, 0, 0, false, bad⟩ else ⟨2, 1, (byte : Int) - 127, false, bad⟩)
  else
    let e := bitsOf byte 6 3
    let m := byte % 8
    let neg := bitOf byte 7
    if e = 15 && m = 7 then ⟨1, 0, 0, neg, bad⟩
    else if e = 0 then (if m = 0 then ⟨0, 0, 0, neg, bad⟩ else ⟨2, m, -9, neg, bad⟩)
    else ⟨2, 8 + m, (e : Int) - 10, neg, bad⟩

/-- A row of an operand: format, elements along K with poison, and the scale of each block. -/
structure ORow where
  fmt : Nat
  els : List (Nat × Bool)
  scales : List BScale
  deriving DecidableEq, Repr

/-- The unit exponent L of an element format (R122). -/
def fmtL : Nat → Int
  | 4 => -16 | 5 => -9 | 6 => -4 | 7 => -3 | 8 => -1
  | _ => 0

/-- Two elements multiplied in an exact reduction: the integer product, and which of NAN (1), POS_INF (2), NEG_INF (4) and
INV (8) it raises (R127). -/
def exactProd (fa a fb b : Nat) : Int × Nat :=
  match (numDecode fa a).1, (numDecode fb b).1 with
  | .nan, _ => (0, 1)
  | _, .nan => (0, 1)
  | .inf x, .inf y => (0, if xor x y then 4 else 2)
  | .inf x, .fin y m _ => (0, if m = 0 then 9 else if xor x y then 4 else 2)
  | .fin x m _, .inf y => (0, if m = 0 then 9 else if xor x y then 4 else 2)
  | .fin x m e, .fin y n f => (scaledInt x m e (fmtL fa) * scaledInt y n f (fmtL fb), 0)

/-- A shift that rounds to odd (R123); the flag tells that bits were dropped. -/
def rtoShift (x : Int) (n : Int) : Int × Bool :=
  match n with
  | .ofNat k => (x * (2 ^ k : Nat), false)
  | .negSucc k =>
    let m := x.natAbs / 2 ^ (k + 1)
    let lost := decide (x.natAbs % 2 ^ (k + 1) ≠ 0)
    let m' := if lost then m ||| 1 else m
    (if x < 0 then -(m' : Int) else (m' : Int), lost)

/-- A flag bit joined to the flags of an element; both infinities raise INV. -/
def joinInf (fl k : Nat) : Nat × Nat :=
  let n := fl ||| (k &&& 7)
  (n, flagIf (bitOf k 3) flagINV ||| flagIf (n &&& 6 = 6 && fl &&& 6 ≠ 6) flagINV)

/-- One block added to an exact accumulator element (R123 to R127). -/
def exactBlock (fa fb : Nat) (el : AccEl) (ea eb : List (Nat × Bool)) (sa sb : BScale) : AccEl × Nat :=
  let pois := (ea.any fun p => p.2) || (eb.any fun p => p.2) || sa.bad || sb.bad
  let el := if pois then { el with flags := el.flags ||| 8 } else el
  if sa.kind = 1 || sb.kind = 1 then ({ el with flags := el.flags ||| 1 }, 0)
  else if sa.kind = 0 || sb.kind = 0 then (el, 0)
  else
    let ps := (ea.zip eb).map fun p => exactProd fa p.1.1 fb p.2.1
    let sum := ps.foldl (fun (t : Int) p => t + p.1) 0
    let (fl, inv) := ps.foldl (fun (acc : Nat × Nat) p => let (n, f) := joinInf acc.1 p.2; (n, acc.2 ||| f)) (el.flags, 0)
    let sx := sa.x + sb.x
    let lf := fmtL fa + fmtL fb
    let base := sx - 40 + lf
    let (a1, w1, l1) :=
      if base > el.w then let (a, l) := rtoShift el.a (el.w - base); (a, base, l) else (el.a, el.w, false)
    let (p, l2) := rtoShift (((sa.g * sb.g : Nat) : Int) * sum) (sx + lf - w1)
    let a2 := a1 + p
    let big := decide (a2.natAbs ≥ 2 ^ 127)
    (⟨a2, w1, if big then fl ||| 1 else fl, el.f⟩, inv ||| flagIf (l1 || l2) flagSPAN ||| flagIf big flagOVF)

/-- The blocks of a reduction, from block b on. -/
def exactBlocks (bs : Nat) (ra rb : ORow) : Nat → Nat → AccEl → AccEl × Nat
  | 0, _, el => (el, 0)
  | n + 1, b, el =>
    let (el, f) := exactBlock ra.fmt rb.fmt el ((ra.els.drop (b * bs)).take bs) ((rb.els.drop (b * bs)).take bs)
      (ra.scales.getD b .one) (rb.scales.getD b .one)
    let (el, g) := exactBlocks bs ra rb n (b + 1) el
    (el, f ||| g)

/-- The FP32 products of a chunk (R129), with flags. -/
def fpProds (fa fb : Nat) (l : List ((Nat × Bool) × (Nat × Bool))) : List (Nat × Nat) :=
  l.map fun p =>
    let (v, f) := (numDecode fa p.1.1).1.mul (numDecode fb p.2.1).1
    let (x, g) := r32 0 v
    (x, f ||| g)

/-- The reduction of R130 over FP32 values: chunks of 32 added in order. -/
def reduce32 : Nat → Nat → List Nat → Nat × Nat
  | 0, c, _ => (c, 0)
  | fuel + 1, c, l =>
    match l with
    | [] => (c, 0)
    | _ =>
      let (v, f) := treeSum 6 (l.take 32)
      let (c, g) := fadd 0 c v
      let (c, h) := reduce32 fuel c (l.drop 32)
      (c, f ||| g ||| h)

/-- reduce of R130 over a list. -/
def reduceRne (c : Nat) (l : List Nat) : Nat × Nat := reduce32 (l.length / 32 + 1) c l

/-- One element of the accumulator after a reduction over K (R224). -/
def reduceEl (exact : Bool) (bs : Nat) (ra rb : ORow) (el : AccEl) : AccEl × Nat :=
  if exact then exactBlocks bs ra rb (ceilDiv ra.els.length (max 1 bs)) 0 el
  else
    let prods := fpProds ra.fmt rb.fmt (ra.els.zip rb.els)
    let (v, f) := reduceRne el.f (prods.map Prod.fst)
    let pois := (ra.els.any fun p => p.2) || (rb.els.any fun p => p.2)
    ({ el with f := v, flags := if pois && !ra.els.isEmpty then el.flags ||| 8 else el.flags }, f ||| allFlags prods)

/-- Flags that reading an operand raises (R111, R114). -/
def rowFlags (r : ORow) : Nat :=
  (r.els.foldl (fun f p => f ||| (numDecode r.fmt p.1).2) 0) ||| flagIf (r.scales.any fun b => b.neg) flagINV

/-- The elements of a tile: 4,096, all zero when none is listed. -/
def AccTile.all (t : AccTile) : List AccEl := if t.els.isEmpty then List.replicate 4096 .zero else t.els

/-- The accumulator after a multiply: rows of A by rows of B over K elements (R224, R226). -/
def mmaTile (exact : Bool) (k bs : Nat) (as_ bs_ : List ORow) (zero : Bool) (t : AccTile) : AccTile × Nat :=
  let start := if zero || t.mode = 0 then List.replicate 4096 AccEl.zero else t.all
  let mode := if exact then 1 else 2
  if k = 0 then (⟨mode, start⟩, 0)
  else
    let rs := ((List.range 4096).zip start).map fun p =>
      match as_[p.1 / 64]?, bs_[p.1 % 64]? with
      | some ra, some rb => reduceEl exact bs ra rb p.2
      | _, _ => (p.2, 0)
    let fl := rs.foldl (fun f p => f ||| p.2) 0
    (⟨mode, rs.map Prod.fst⟩, (as_ ++ bs_).foldl (fun f r => f ||| rowFlags r) fl)

/-! Operands from tile descriptors (R219 to R222). -/

/-- The scales of row r. -/
def State.tdScales (s : State) (c t r k : Nat) : List BScale :=
  if tdSmode t = 0 then []
  else
    (List.range (blocksIn (tdSmode t) k)).map fun b =>
      let o := tdSbase t + r * tdSstride t + b
      scaleOf (tdSmode t) (s.tsNat c o 1) (s.tsBad c o 1)

/-- The logical elements of a sparse row, and whether a group's order raises INV (R222). -/
def State.sparseRow (s : State) (c o fmt k : Nat) : List (Nat × Bool) × Bool :=
  let w := elemBits fmt
  let mo := o + mofs fmt k
  let groups := (List.range ((k + 3) / 4)).map fun g =>
    let (m, mb) := s.tsElem c mo 4 g
    let (v0, b0) := s.tsElem c o w (2 * g)
    let (v1, b1) := s.tsElem c o w (2 * g + 1)
    let i0 := m % 4
    let i1 := m / 4
    ((List.range 4).map (fun j =>
      if j = i0 then (v0, b0 || mb) else if j = i1 && i0 < i1 then (v1, b1 || mb) else (0, mb)), decide (i1 ≤ i0))
  (((groups.map Prod.fst).flatten).take k, groups.any fun p => p.2)

/-- Row r of an operand, with INV of a sparse one. -/
def State.tdRow (s : State) (c t r k : Nat) : ORow × Nat :=
  let o := tdBase t + r * tdStride t
  let sc := s.tdScales c t r k
  if tdSparse t then
    let (l, inv) := s.sparseRow c o (tdFmt t) k
    (⟨tdFmt t, l, sc⟩, flagIf inv flagINV)
  else (⟨tdFmt t, s.tsRow c o (elemBits (tdFmt t)) k, sc⟩, 0)

/-- Every row of an operand. -/
def State.tdRowsOf (s : State) (c t k : Nat) : List ORow × Nat :=
  let rs := (List.range (tdRows t)).map fun r => s.tdRow c t r k
  (rs.map Prod.fst, rs.foldl (fun f p => f ||| p.2) 0)

/-! The checks of R225. -/

/-- Both formats are exact. -/
def exactFmts (fa fb : Nat) : Bool := decide (4 ≤ fa ∧ 4 ≤ fb)

/-- Formats and scale modes that R225 permits together. -/
def pairOk (fa sa fb sb : Nat) : Bool :=
  scaleOk fa sa && scaleOk fb sb &&
    ((exactFmts fa fb && (sa == 0 || sb == 0 || sa == sb)) ||
      (fa == fb && decide (1 ≤ fa ∧ fa ≤ 3) && sa == 0 && sb == 0))

/-- Block size of a reduction; one block where neither operand has scales. -/
def blockSize (sa sb k : Nat) : Nat := if sa = 0 && sb = 0 then max 1 k else blockOf (max sa sb)

end Sys2Proof.Machine
end

