-- ==== Sys2Proof/Machine/CellWalk.lean ====
section
/-! DEFINITION. The window walker: descriptor checks, implicit unrolling, padding, pooling and the zero-compressed format
(08_window_operators.md R256 to R272). -/

namespace Sys2Proof.Machine

/-! The descriptor (R256). -/

def wkIn (w : List Byte) : Nat := leAt w 0 4
def wkPix (w : List Byte) : Nat := leAt w 4 4
def wkRow (w : List Byte) : Nat := leAt w 8 4
def wkW (w : List Byte) : Nat := leAt w 0xC 2
def wkH (w : List Byte) : Nat := leAt w 0xE 2
def wkC (w : List Byte) : Nat := leAt w 0x10 2
def wkFmt (w : List Byte) : Nat := leAt w 0x12 1 % 16
def wkSmode (w : List Byte) : Nat := bitsOf (leAt w 0x12 1) 5 4
def wkOp (w : List Byte) : Nat := leAt w 0x13 1 % 4
def wkCip (w : List Byte) : Bool := bitOf (leAt w 0x13 1) 2
def wkZc (w : List Byte) : Bool := bitOf (leAt w 0x13 1) 3
def wkKh (w : List Byte) : Nat := leAt w 0x14 1 % 16 + 1
def wkKw (w : List Byte) : Nat := leAt w 0x14 1 / 16 + 1
def wkSy (w : List Byte) : Nat := leAt w 0x15 1 % 8 + 1
def wkSx (w : List Byte) : Nat := bitsOf (leAt w 0x15 1) 5 3 + 1
def wkDy (w : List Byte) : Nat := leAt w 0x16 1 % 16 + 1
def wkDx (w : List Byte) : Nat := leAt w 0x16 1 / 16 + 1
def wkPm (w : List Byte) : Nat := leAt w 0x17 1 % 4
def wkPt (w : List Byte) : Nat := leAt w 0x18 1
def wkPb (w : List Byte) : Nat := leAt w 0x19 1
def wkPl (w : List Byte) : Nat := leAt w 0x1A 1
def wkPr (w : List Byte) : Nat := leAt w 0x1B 1
def wkKy0 (w : List Byte) : Nat := leAt w 0x1C 1
def wkKx0 (w : List Byte) : Nat := leAt w 0x1D 1
def wkOy0 (w : List Byte) : Nat := leAt w 0x20 2
def wkOx0 (w : List Byte) : Nat := leAt w 0x22 2
def wkOw (w : List Byte) : Nat := leAt w 0x24 2
def wkM (w : List Byte) : Nat := leAt w 0x26 1 + 1
def wkPadv (w : List Byte) : Nat := leAt w 0x28 4
def wkPads (w : List Byte) : Nat := leAt w 0x2C 1
def wkSbase (w : List Byte) : Nat := leAt w 0x30 4
def wkSpix (w : List Byte) : Nat := leAt w 0x34 4
def wkSrow (w : List Byte) : Nat := leAt w 0x38 4

def wkPool (w : List Byte) : Bool := decide (wkOp w ≥ 2)
def wkT (w : List Byte) : Bool := wkOp w == 1
/-- Element width, and bytes of a pixel's channel data. -/
def wkBits (w : List Byte) : Nat := elemBits (wkFmt w)
def wkBytes (w : List Byte) : Nat := wkC w * wkBits w / 8
/-- K of the instruction (R260). -/
def wkK (w : List Byte) : Nat := wkKh w * wkKw w * wkC w

/-- Height and width that coordinates refer to (R263). -/
def wkHL (w : List Byte) : Nat := if wkT w then (wkH w - 1) * wkSy w + 1 else wkH w
def wkWL (w : List Byte) : Nat := if wkT w then (wkW w - 1) * wkSx w + 1 else wkW w

/-- Coordinates of tap (ty, tx) of output position i (R260). -/
def wkCoord (w : List Byte) (i ty tx : Nat) : Int × Int :=
  let lin := wkOy0 w * wkOw w + wkOx0 w + i
  let oy := lin / max 1 (wkOw w)
  let ox := lin % max 1 (wkOw w)
  let sy := if wkT w then 1 else wkSy w
  let sx := if wkT w then 1 else wkSx w
  (((oy * sy + (wkKy0 w + ty) * wkDy w : Nat) : Int) - wkPt w, ((ox * sx + (wkKx0 w + tx) * wkDx w : Nat) : Int) - wkPl w)

/-- The taps of the window in K order, and the positions with their taps. -/
def wkTaps (w : List Byte) : List (Nat × Nat) :=
  (List.range (wkKh w)).flatMap fun ty => (List.range (wkKw w)).map fun tx => (ty, tx)
def wkAll (w : List Byte) : List (Int × Int) :=
  (List.range (wkM w)).flatMap fun i => (wkTaps w).map fun p => wkCoord w i p.1 p.2

/-- What a coordinate reads: an input pixel, padding of PMODE ZERO or an inserted zero, or constant padding (R261, R263). -/
inductive WkPix where
  | pixel (y x : Nat) (pad : Bool)
  | zero
  | const
  deriving DecidableEq, Repr

/-- A coordinate reflected about the edges of a dimension of n. -/
def mirror (n : Nat) (v : Int) : Nat :=
  if v < 0 then (-v).toNat else if v ≥ n then (2 * ((n : Int) - 1) - v).toNat else v.toNat

def wkPixOf (w : List Byte) (p : Int × Int) : WkPix :=
  let inside := decide (0 ≤ p.1 ∧ p.1 < wkHL w ∧ 0 ≤ p.2 ∧ p.2 < wkWL w)
  if inside then
    if wkT w then
      if p.1.toNat % wkSy w = 0 && p.2.toNat % wkSx w = 0 then .pixel (p.1.toNat / wkSy w) (p.2.toNat / wkSx w) false else .zero
    else .pixel p.1.toNat p.2.toNat false
  else
    match wkPm w with
    | 0 => .zero
    | 1 => .const
    | 2 => .pixel (mirror (wkH w) p.1) (mirror (wkW w) p.2) true
    | _ => .pixel (clampInt p.1 0 ((wkH w : Int) - 1)).toNat (clampInt p.2 0 ((wkW w : Int) - 1)).toNat true

/-- First byte of a pixel, and of its scales. -/
def wkAddr (w : List Byte) (y x : Nat) : Nat := wkIn w + y * wkRow w + x * wkPix w
def wkScaleAddr (w : List Byte) (y x : Nat) : Nat := wkSbase w + y * wkSrow w + x * wkSpix w

/-! Issue checks (R272). The scale mode and format of B matter only outside the pooling modes. -/

/-- Reserved codes: ILLEGAL_FIELD. -/
def wkFieldOk (w : List Byte) : Bool := fmtValid (wkFmt w) && decide (wkSmode w ≠ 3)

/-- The fields in range (R256, R259 to R265). -/
def wkDescOk (w : List Byte) (zero : Bool) (fb sb : Nat) : Bool :=
  decide (wkFmt w ≠ 0) &&
    (if wkPool w then wkSmode w == 0 else pairOk (wkFmt w) (wkSmode w) fb sb) &&
    decide (leAt w 0 4 < 2 ^ 21 ∧ wkPix w < tsTop ∧ wkRow w < tsTop ∧ leAt w 0x12 1 < 64 ∧ leAt w 0x13 1 < 16 ∧
      leAt w 0x15 1 < 64 ∧ leAt w 0x17 1 < 4 ∧ leAt w 0x1E 2 = 0 ∧ leAt w 0x27 1 = 0 ∧ leAt w 0x2D 3 = 0 ∧
      wkPadv w < 2 ^ wkBits w ∧ wkSbase w < 2 ^ 21) &&
    decide (wkW w ≠ 0 ∧ wkH w ≠ 0 ∧ wkOw w ≠ 0 ∧ wkC w ≠ 0 ∧ wkOx0 w < wkOw w ∧ leAt w 0x26 1 < 64) &&
    decide (wkPt w ≤ 16 ∧ wkPb w ≤ 16 ∧ wkPl w ≤ 16 ∧ wkPr w ≤ 16 ∧ wkKy0 w ≤ 30 ∧ wkKx0 w ≤ 30) &&
    (wkPool w || decide (wkKh w ≤ 7 ∧ wkKw w ≤ 7)) &&
    decide (wkKy0 w + wkKh w ≤ 31 ∧ wkKx0 w + wkKw w ≤ 31) &&
    decide (wkC w * wkBits w % 8 = 0) && (wkBits w != 6 || wkC w % 4 == 0) &&
    (wkSmode w == 0 || wkC w % blockOf (wkSmode w) == 0) &&
    (wkZc w || decide (wkPix w ≥ wkBytes w)) &&
    (!wkT w || decide (wkPm w ≤ 1)) &&
    (wkPm w != 2 || decide (wkPt w < wkH w ∧ wkPb w < wkH w ∧ wkPl w < wkW w ∧ wkPr w < wkW w)) &&
    ((wkAll w).all fun p => decide (-(wkPt w : Int) ≤ p.1 ∧ p.1 ≤ (wkHL w : Int) - 1 + wkPb w ∧ -(wkPl w : Int) ≤ p.2 ∧
      p.2 ≤ (wkWL w : Int) - 1 + wkPr w)) &&
    (!wkPool w || (zero && decide (wkC w ≤ 64 ∧ wkKy0 w = 0 ∧ wkKx0 w = 0))) &&
    (!wkZc w || decide (wkBytes w % 64 = 0 ∧ wkPix w ≥ 72 * (wkBytes w / 64) ∧ wkPix w % 8 = 0))

def wkAligned (w : List Byte) : Bool :=
  let a := fmtAlign (wkFmt w)
  decide (wkIn w % a = 0 ∧ wkPix w % a = 0 ∧ wkRow w % a = 0)

/-- Every pixel and scale byte that the instruction reads lies in the tile store. -/
def wkBoundsOk (w : List Byte) : Bool :=
  let len := if wkZc w then 72 * (wkBytes w / 64) else wkBytes w
  (wkAll w).all fun p =>
    match wkPixOf w p with
    | .pixel y x _ =>
      decide (wkAddr w y x + len ≤ tsTop) &&
        (wkSmode w == 0 || decide (wkScaleAddr w y x + blocksIn (wkSmode w) (wkC w) ≤ tsTop))
    | _ => true

/-! Zero-compressed data (R269 to R271). -/

/-- The expanded bytes of one record: bytes of DATA where the mask says so. -/
def zcBytes : Nat → Nat → Nat → List Byte → List Byte
  | 0, _, _, _ => []
  | n + 1, i, mask, data =>
    if bitOf mask i then data.headD 0 :: zcBytes n (i + 1) mask data.tail else 0 :: zcBytes n (i + 1) mask data

/-- Length of the record that a mask begins. -/
def zcLen (mask : Nat) : Nat := 8 + 8 * ceilDiv (popCount 64 mask) 8

/-- The expanded bytes of g records from a byte string, with their poison; bytes past its end read 0 (R271). -/
def zcExpand (l : List Byte) (bad : Nat → Nat → Bool) : Nat → Nat → List (Byte × Bool)
  | 0, _ => []
  | g + 1, o =>
    let mask := leAt l o 8
    let n := zcLen mask
    let b := bad o n
    (zcBytes 64 0 mask (sliceBytes l (o + 8) 64)).map (fun x => (x, b)) ++ zcExpand l bad g (o + n)

/-- The channel elements of a pixel. -/
def State.wkPixel (s : State) (c : Nat) (w : List Byte) (y x : Nat) : List (Nat × Bool) :=
  let a := wkAddr w y x
  if wkZc w then
    let l := zcExpand (s.tsBytes c a (wkPix w)) (fun o n => s.tsBad c (a + o) (min n (wkPix w - o))) (wkBytes w / 64) 0
    let v := leNat (l.map Prod.fst)
    (List.range (wkC w)).map fun k =>
      let b := k * wkBits w
      (v / 2 ^ b % 2 ^ wkBits w, ((l.drop (b / 8)).take ((b % 8 + wkBits w + 7) / 8)).any fun p => p.2)
  else s.tsRow c a (wkBits w) (wkC w)

/-- The scales of a pixel's channel blocks. -/
def State.wkScales (s : State) (c : Nat) (w : List Byte) (y x : Nat) : List BScale :=
  (List.range (blocksIn (wkSmode w) (wkC w))).map fun b =>
    scaleOf (wkSmode w) (s.tsNat c (wkScaleAddr w y x + b) 1) (s.tsBad c (wkScaleAddr w y x + b) 1)

/-- The elements and block scales that one tap gives (R261 to R263). -/
def State.wkTap (s : State) (c : Nat) (w : List Byte) (p : Int × Int) : List (Nat × Bool) × List BScale :=
  let nb := blocksIn (wkSmode w) (wkC w)
  match wkPixOf w p with
  | .pixel y x pad => ((s.wkPixel c w y x).map fun e => (e.1, e.2 && (!pad || decide (wkPm w ≥ 2))), s.wkScales c w y x)
  | .zero => (List.replicate (wkC w) (0, false), List.replicate nb .zero)
  | .const => (List.replicate (wkC w) (wkPadv w, false), List.replicate nb (scaleOf (wkSmode w) (wkPads w) false))

/-- Row i of the A operand (R260). -/
def State.wkARow (s : State) (c : Nat) (w : List Byte) (i : Nat) : ORow :=
  let ts := (wkTaps w).map fun p => s.wkTap c w (wkCoord w i p.1 p.2)
  ⟨wkFmt w, (ts.map Prod.fst).flatten, (ts.map Prod.snd).flatten⟩

/-! Pooling (R265, R266). -/

/-- One pooled element: the taps that count, as FP32 with poison and flags. -/
def poolEl (isMax : Bool) (taps : List (Nat × Bool × Nat)) : AccEl × Nat :=
  let vals := taps.map Prod.fst
  let pois := taps.any fun p => p.2.1
  let fl := taps.foldl (fun f p => f ||| p.2.2) 0
  if vals.isEmpty then (.zero, 0)
  else
    let (v, f) :=
      if isMax then (laneExtreme true 2 vals, 0)
      else
        let (sum, f) := reduceRne 0 vals
        let (q, g) := fdiv 0 sum (fOfInt vals.length)
        (q, f ||| g)
    ({ AccEl.zero with f := v, flags := if pois then 8 else 0 }, fl ||| f)

/-- The tile of a pooling MMAW, in FP32 mode. -/
def State.poolTile (s : State) (c : Nat) (w : List Byte) : AccTile × Nat :=
  let rows := (List.range (wkM w)).map fun i =>
    ((wkTaps w).filter (fun p => wkCip w ||
      (match wkPixOf w (wkCoord w i p.1 p.2) with | .pixel _ _ pad => !pad | _ => false))).map fun p =>
        (s.wkTap c w (wkCoord w i p.1 p.2)).1
  let rs := (List.range 4096).map fun e =>
    match rows[e / 64]? with
    | some taps =>
      if e % 64 < wkC w then
        poolEl (wkOp w == 2) (taps.map fun t =>
          let x := t.getD (e % 64) (0, false)
          let (v, f) := numDecode (wkFmt w) x.1
          ((r32 0 v).1, x.2, f))
      else (.zero, 0)
    | none => (.zero, 0)
  (⟨2, rs.map Prod.fst⟩, rs.foldl (fun f p => f ||| p.2) 0)

end Sys2Proof.Machine
end

