-- ==== Sys2Proof/Machine/CellTensor.lean ====
section
/-! DEFINITION. The tensor instructions MMA, MMAW, ACCRD and ACCLD, and their completion (07_tensor_and_long_ops.md R223 to
R232). -/

namespace Sys2Proof.Machine

/-! The mode that a tile will have (R223). -/

/-- The mode that an op in the tensor queue leaves its tile in. -/
def opMode (op : QOp) (acc m : Nat) : Nat :=
  match wOp op.word with
  | 0x20 => if op.d = acc then (if exactFmts (tdFmt op.a) (tdFmt op.b) then 1 else 2) else m
  | 0x21 =>
    if op.d = acc then (if wkPool op.walker then 2 else if exactFmts (wkFmt op.walker) (tdFmt op.b) then 1 else 2) else m
  | 0x22 => if op.a = acc && !bitOf op.word 18 then 0 else m
  | _ => if op.d = acc then 2 else m

def CellS.modeAt (x : CellS) (acc : Nat) : Nat :=
  x.tq.foldl (fun m op => opMode op acc m) ((x.acc.getD acc ⟨0, []⟩).mode)

/-- The descriptor register that a code names. -/
def CGroup.tdOf (q : CGroup) (n : Nat) : Nat := q.tdesc n

/-- The mode check of MMA and MMAW. -/
def modeOk (zero exact : Bool) (m : Nat) : Except Exc Unit :=
  need (zero || m = 0 || m = (if exact then 1 else 2)) excFIELD

/-! Issue (R217). Order: operation, fields, poison, descriptor, alignment, bounds. DESIGN CHOICE (log 98). -/

/-- A scalar operand is clean. -/
def CGroup.cleanOp (q : CGroup) (n : Nat) : Except Exc Unit := q.cleanS n

/-- MMA (R224, R225). -/
def mma (x : CellS) (g : Nat) (q : CGroup) (w : Nat) : Except Exc QOp := do
  let d := wDst w
  let (a, b) := (q.tdOf (wA w), q.tdOf (wB w))
  let zero := bitOf w 29
  noPred w
  accOp d
  tdOp (wA w)
  tdOp (wB w)
  scalarOp (wFn w)
  need (w % 2 ^ 29 = 0) excFIELD
  need (tdFieldOk a && tdFieldOk b) excFIELD
  modeOk zero (exactFmts (tdFmt a) (tdFmt b)) (x.modeAt (d - 16))
  q.cleanTd (wA w)
  q.cleanTd (wB w)
  q.cleanOp (wFn w)
  let k := q.sreg (wFn w)
  need (k ≤ 2 ^ 23) excDESC
  need (pairOk (tdFmt a) (tdSmode a) (tdFmt b) (tdSmode b)) excDESC
  need (!tdSparse a && (!tdSparse b || (4 ≤ tdFmt b && tdFmt b ≤ 10))) excDESC
  need (tdDescOk a k && tdDescOk b k) excDESC
  need (tdAligned a && tdAligned b) excALIGN
  need (tdExtentOk a k (operBytes a k) && tdExtentOk b k (operBytes b k)) excBOUNDS
  pure { QOp.base g q w with d := d - 16, a := a, b := b, x := k }

/-- The issue of an MMA. -/
def State.issueMma (s : State) (c g : Nat) : State :=
  s.issueTo c g (fun w => wOp w == 0x20) .tensor (mma (s.cell c) g)

/-- MMAW (R227, R257, R272); rd and bad read the tile store at issue. -/
def mmaw (rd : Nat → List Byte) (bad : Nat → Bool) (x : CellS) (g : Nat) (q : CGroup) (w : Nat) : Except Exc QOp := do
  let d := wDst w
  let b := q.tdOf (wB w)
  let zero := bitOf w 29
  noPred w
  accOp d
  scalarOp (wA w)
  tdOp (wB w)
  need (wFn w = 0 && w % 2 ^ 29 = 0) excFIELD
  q.cleanOp (wA w)
  let o := q.sreg (wA w)
  need (o % 64 = 0) excALIGN
  need (o + 64 ≤ tsTop) excBOUNDS
  need (!bad o) excPOISON
  let k := rd o
  need (wkFieldOk k) excFIELD
  if !wkPool k then
    need (tdFieldOk b) excFIELD
    modeOk zero (exactFmts (wkFmt k) (tdFmt b)) (x.modeAt (d - 16))
    q.cleanTd (wB w)
    need (!tdSparse b || (4 ≤ tdFmt b && tdFmt b ≤ 10)) excDESC
    need (tdDescOk b (wkK k)) excDESC
  need (wkDescOk k zero (tdFmt b) (tdSmode b)) excDESC
  need (wkAligned k) excALIGN
  if !wkPool k then need (tdAligned b) excALIGN
  need (wkBoundsOk k) excBOUNDS
  if !wkPool k then need (tdExtentOk b (wkK k) (operBytes b (wkK k))) excBOUNDS
  pure { QOp.base g q w with d := d - 16, b := b, walker := k }

def execMmaw (cell : Fin 256) (group : Fin 128) (s : State) : Host.Outcome State Fault Refusal :=
  .next (s.issueTo cell group (fun w => wOp w == 0x21) .tensor
    (mmaw (fun o => s.tsBytes cell o 64) (fun o => s.tsBad cell o 64) (s.cell cell) group))

/-- The scalar of a STOCH operand field, or none needed. -/
def stochField (rnd n : Nat) : Except Exc Unit := need (if rnd = 3 then n ≥ 32 else n = 0) excFIELD

/-- ACCRD (R229, R231): x holds t_a and t_b, y the seed and the two index registers. -/
def accrd (x : CellS) (g : Nat) (q : CGroup) (w : Nat) : Except Exc QOp := do
  let rnd := bitsOf w 29 28
  let ncol := bitsOf w 27 22 + 1
  let bias := bitOf w 21
  let idx := bitsOf w 17 12
  let taEn := bitOf w 11
  let tbEn := bitOf w 6
  noPred w
  tdOp (wDst w)
  accOp (wA w)
  if bias then tdOp (wB w) else need (wB w = 0) excFIELD
  stochField rnd (wFn w)
  stochField rnd idx
  need (rnd ≠ 3 || idx % 2 = 0) excFIELD
  need (w % 4 = 0) excFIELD
  let d := q.tdOf (wDst w)
  let b := q.tdOf (wB w)
  need (tdFieldOk d && (!bias || tdFieldOk b)) excFIELD
  need (x.modeAt (wA w - 16) ≠ 2 || (!bias && !taEn && !tbEn)) excFIELD
  q.cleanTd (wDst w)
  if bias then q.cleanTd (wB w)
  if taEn then q.cleanTd (bitsOf w 10 7)
  if tbEn then q.cleanTd (bitsOf w 5 2)
  need (tdSmode d ≤ 1 && !tdSparse d && scaleOk (tdFmt d) (tdSmode d)) excDESC
  need (tdSmode d = 0 || ncol = 32 || ncol = 64) excDESC
  need (tdDescOk d ncol && dstOkDesc d ncol) excDESC
  if bias then
    need ((tdFmt b = 0 || tdFmt b = 2 || tdFmt b = 3) && tdSmode b = 0 && !tdSparse b && tdDescOk b ncol) excDESC
    need (bitOf w 20 || tdRows d ≤ tdRows b) excDESC
  need (tdAligned d && (!bias || tdAligned b)) excALIGN
  need (tdExtentOk d ncol (rowBytes (tdFmt d) ncol)) excBOUNDS
  need (!bias || tdExtentOk b ncol (rowBytes (tdFmt b) ncol)) excBOUNDS
  let ta := if taEn then tdTscale (q.tdOf (bitsOf w 10 7)) else 0x3F800000
  let tb := if tbEn then tdTscale (q.tdOf (bitsOf w 5 2)) else 0x3F800000
  let seedBad := rnd = 3 && (q.sbad (wFn w) || q.sbad idx || q.sbad (idx + 1))
  pure { QOp.base g q w with
    d := d, a := wA w - 16, b := b, x := ta + 2 ^ 32 * tb,
    y := q.sreg (wFn w) + 2 ^ 64 * q.sreg idx + 2 ^ 128 * q.sreg (idx + 1), bad := seedBad }

def execAccrd (cell : Fin 256) (group : Fin 128) (s : State) : Host.Outcome State Fault Refusal :=
  .next (s.issueTo cell group (fun w => wOp w == 0x22) .tensor (accrd (s.cell cell) group))

/-- ACCLD (R228). -/
def accld (g : Nat) (q : CGroup) (w : Nat) : Except Exc QOp := do
  noPred w
  accOp (wDst w)
  tdOp (wA w)
  need (wB w = 0 && bitsOf w 35 28 = 0 && !bitOf w 21 && w % 2 ^ 20 = 0) excFIELD
  let a := q.tdOf (wA w)
  let ncol := bitsOf w 27 22 + 1
  need (tdFieldOk a) excFIELD
  q.cleanTd (wA w)
  need ((tdFmt a = 0 || tdFmt a = 2 || tdFmt a = 3) && tdSmode a = 0 && !tdSparse a && tdDescOk a ncol) excDESC
  need (tdAligned a) excALIGN
  need (tdExtentOk a ncol (rowBytes (tdFmt a) ncol)) excBOUNDS
  pure { QOp.base g q w with d := wDst w - 16, a := a }

def execAccld (cell : Fin 256) (group : Fin 128) (s : State) : Host.Outcome State Fault Refusal :=
  .next (s.issueTo cell group (fun w => wOp w == 0x23) .tensor (accld group))

/-! Execution. -/

def CellS.tile (x : CellS) (n : Nat) : AccTile := x.acc.getD n ⟨0, []⟩
def State.setTile (s : State) (c n : Nat) (t : AccTile) : State := s.modCell c fun x => { x with acc := setAt x.acc n t }

/-- An MMA at the head of the queue. -/
def State.runMma (s : State) (c : Nat) (op : QOp) : State :=
  let (ra, fa) := s.tdRowsOf c op.a op.x
  let (rb, fb) := s.tdRowsOf c op.b op.x
  let ex := exactFmts (tdFmt op.a) (tdFmt op.b)
  let (t, fl) := mmaTile ex op.x (blockSize (tdSmode op.a) (tdSmode op.b) op.x) ra rb (bitOf op.word 29) ((s.cell c).tile op.d)
  (s.setTile c op.d t).raiseFlags c op.group (fl ||| (if op.x = 0 then 0 else fa ||| fb))

/-- An MMAW at the head of the queue. -/
def State.runMmaw (s : State) (c : Nat) (op : QOp) : State :=
  let w := op.walker
  if wkPool w then
    let (t, fl) := s.poolTile c w
    (s.setTile c op.d t).raiseFlags c op.group fl
  else
    let k := wkK w
    let ra := (List.range (wkM w)).map fun i => s.wkARow c w i
    let (rb, fb) := s.tdRowsOf c op.b k
    let ex := exactFmts (wkFmt w) (tdFmt op.b)
    let (t, fl) := mmaTile ex k (blockSize (wkSmode w) (tdSmode op.b) k) ra rb (bitOf op.word 29) ((s.cell c).tile op.d)
    (s.setTile c op.d t).raiseFlags c op.group (fl ||| fb)

/-- An ACCLD at the head of the queue. -/
def State.runAccld (s : State) (c : Nat) (op : QOp) : State :=
  let ncol := bitsOf op.word 27 22 + 1
  let fmt := tdFmt op.a
  let els := (List.range 4096).map fun e =>
    let i := if bitOf op.word 20 then 0 else e / 64
    if e % 64 < ncol && i < tdRows op.a then
      let (v, b) := s.tsElem c (tdBase op.a + i * tdStride op.a) (elemBits fmt) (e % 64)
      { AccEl.zero with f := (r32 0 (numDecode fmt v).1).1, flags := if b then 8 else 0 }
    else .zero
  s.setTile c op.d ⟨2, els⟩

/-- The value of an exact element (R127). -/
def AccEl.exactVal (e : AccEl) : FVal :=
  if bitOf e.flags 0 || e.flags &&& 6 = 6 then .nan
  else if bitOf e.flags 1 then .inf false
  else if bitOf e.flags 2 then .inf true
  else .fin (decide (e.a < 0)) e.a.natAbs e.w

/-- V of one element (R128, R230) with flags. -/
def accV (mode ta tb : Nat) (c : FVal) (e : AccEl) : FVal × Nat :=
  match mode with
  | 2 => (f32 e.f, 0)
  | 1 =>
    let (v, f1) := e.exactVal.mul (f32 ta)
    let (v, f2) := v.mul (f32 tb)
    let (v, f3) := v.add c
    (v, f1 ||| f2 ||| f3)
  | _ => (c, 0)

/-- RELU (R230). -/
def reluV (v : FVal) : FVal :=
  match v with
  | .fin true _ _ => .fin false 0 0
  | .inf true => .fin false 0 0
  | v => v

/-- emaxp of a format (R231). -/
def emaxp : Nat → Int
  | 4 => 15 | 5 => 8 | 6 => 4 | 7 => 2 | 8 => 2 | 9 => 6 | 10 => 2
  | _ => 0

/-- floor(log2 |v|) of a finite non-zero value. -/
def FVal.lg (v : FVal) : Option Int :=
  match v with
  | .fin _ m e => if m = 0 then none else some ((Nat.log2 m : Int) + e)
  | _ => none

/-- The exponent of a block of output values (R231). -/
def blockExp (fmt : Nat) (l : List FVal) : Int :=
  match l.filterMap FVal.lg with
  | [] => -127
  | a :: r => clampInt ((r.foldl max a) - emaxp fmt) (-127) 127

/-- A value divided by 2^x. -/
def FVal.scale (v : FVal) (x : Int) : FVal :=
  match v with
  | .fin n m e => .fin n m (e - x)
  | v => v

/-- Row i of an ACCRD written; the flags of its elements. -/
def State.accRow (s : State) (c : Nat) (op : QOp) (t : AccTile) (i : Nat) : State :=
  let w := op.word
  let fmt := tdFmt op.d
  let rnd := bitsOf w 29 28
  let ncol := bitsOf w 27 22 + 1
  let vs := (List.range ncol).map fun j =>
    let e := if t.els.isEmpty then AccEl.zero else t.els.getD (i * 64 + j) .zero
    let (cb, bb) :=
      if bitOf w 21 then
        let (v, b) := s.tsElem c (tdBase op.b + (if bitOf w 20 then 0 else i) * tdStride op.b) (elemBits (tdFmt op.b)) j
        ((numDecode (tdFmt op.b) v).1, b)
      else (FVal.fin false 0 0, false)
    let (v, f) := accV t.mode (op.x % 2 ^ 32) (op.x / 2 ^ 32) cb e
    (if bitOf w 19 then reluV v else v, f, bb || bitOf e.flags 3 || op.bad)
  let nb := blocksIn (tdSmode op.d) ncol
  let xs := (List.range nb).map fun b => blockExp fmt (((vs.drop (b * 32)).take 32).map Prod.fst)
  let outs := ((List.range ncol).zip vs).map fun p =>
    let v := if nb = 0 then p.2.1 else p.2.1.scale (xs.getD (p.1 / 32) 0)
    let ix := (op.y / 2 ^ 64 % 2 ^ 64 + i * (op.y / 2 ^ 128) + p.1) % 2 ^ 64
    let (z, f) := numRound fmt rnd v (if rnd = 3 then stochBits (op.y % 2 ^ 64) ix else 0)
    ((z, p.2.2.2), p.2.2.1 ||| f)
  let s := s.tsWriteRow c (tdBase op.d + i * tdStride op.d) (elemBits fmt) (outs.map Prod.fst)
  let s := if nb = 0 then s else
    s.tsWriteRow c (tdSbase op.d + i * tdSstride op.d) 8 ((List.range nb).map fun b =>
      ((xs.getD b 0 + 127).toNat, ((vs.drop (b * 32)).take 32).any fun p => p.2.2))
  s.raiseFlags c op.group (allFlags (outs.map fun p => (0, p.2)))

/-- An ACCRD at the head of the queue. -/
def State.runAccrd (s : State) (c : Nat) (op : QOp) : State :=
  let t := (s.cell c).tile op.a
  let s := (List.range (tdRows op.d)).foldl (fun s i => s.accRow c op t i) s
  if bitOf op.word 18 then s else s.setTile c op.a ⟨0, []⟩

/-- The tensor instruction at the head of a cell's queue is done (R232). -/
def State.tensorDone (s : State) (c : Nat) : State :=
  match (s.cell c).tq with
  | [] => s
  | op :: rest =>
    let s := match wOp op.word with
      | 0x20 => s.runMma c op
      | 0x21 => s.runMmaw c op
      | 0x22 => s.runAccrd c op
      | _ => s.runAccld c op
    (s.modCell c fun x => { x with tq := rest }).qDone c op.group .tensor

def execTensorComplete (cell : Fin 256) (s : State) : Host.Outcome State Fault Refusal := .next (s.tensorDone cell)

end Sys2Proof.Machine
end

