-- ==== Sys2Proof/Machine/CellMove.lean ====
section
/-! DEFINITION. Tile-store moves TCOPY, TRANS and FILL and their completion (07_tensor_and_long_ops.md R240 to R243). -/

namespace Sys2Proof.Machine

/-- TCOPY (R240). -/
def tcopy (g : Nat) (q : CGroup) (w : Nat) : Except Exc QOp := do
  noPred w
  tdOp (wA w)
  tdOp (wDst w)
  scalarOp (wB w)
  let rnd := bitsOf w 35 34
  need (rnd ≠ 3 && w % 2 ^ 34 = 0) excFIELD
  let a := q.tdesc (wA w)
  let d := q.tdesc (wDst w)
  need (tdFieldOk a && tdFieldOk d) excFIELD
  q.cleanTd (wA w)
  q.cleanTd (wDst w)
  q.cleanS (wB w)
  let e := q.sreg (wB w)
  need (1 ≤ e && e ≤ 2 ^ 23) excDESC
  need (tdSmode a = 0 && tdSmode d = 0 && !tdSparse a && !tdSparse d && tdRows a = tdRows d) excDESC
  need (tdDescOk a e && tdDescOk d e && dstOkDesc d e) excDESC
  need (tdAligned a && tdAligned d) excALIGN
  need (tdExtentOk a e (rowBytes (tdFmt a) e) && tdExtentOk d e (rowBytes (tdFmt d) e)) excBOUNDS
  pure { QOp.base g q w with d := d, a := a, x := e }

def execTcopy (cell : Fin 256) (group : Fin 128) (s : State) : Host.Outcome State Fault Refusal :=
  .next (s.issueTo cell group (fun w => wOp w == 0x31) .move (tcopy group))

/-- The formats that TRANS moves: 8, 16 or 32 bits per element. -/
def transFmt (f : Nat) : Bool := decide (f ≤ 5 ∨ f = 9)

/-- TRANS (R241). -/
def trans_ (g : Nat) (q : CGroup) (w : Nat) : Except Exc QOp := do
  noPred w
  tdOp (wA w)
  tdOp (wDst w)
  scalarOp (wB w)
  need (w % 2 ^ 36 = 0) excFIELD
  let a := q.tdesc (wA w)
  let d := q.tdesc (wDst w)
  need (tdFieldOk a && tdFieldOk d) excFIELD
  q.cleanTd (wA w)
  q.cleanTd (wDst w)
  q.cleanS (wB w)
  let e := q.sreg (wB w)
  let r := tdRows a
  need (1 ≤ e && e ≤ 64) excDESC
  need (tdSmode a = 0 && tdSmode d = 0 && tdFmt a = tdFmt d && transFmt (tdFmt a) && tdRows d = e) excDESC
  need (tdDescOk a e && tdDescOk d r && dstOkDesc d r) excDESC
  need (!rowsMeet (tdBase a) (tdStride a) r (rowBytes (tdFmt a) e) (tdBase d) (tdStride d) e (rowBytes (tdFmt d) r)) excDESC
  need (tdAligned a && tdAligned d) excALIGN
  need (tdExtentOk a e (rowBytes (tdFmt a) e) && tdExtentOk d r (rowBytes (tdFmt d) r)) excBOUNDS
  pure { QOp.base g q w with d := d, a := a, x := e }

def execTrans (cell : Fin 256) (group : Fin 128) (s : State) : Host.Outcome State Fault Refusal :=
  .next (s.issueTo cell group (fun w => wOp w == 0x32) .move (trans_ group))

/-- FILL (R242). -/
def fill (g : Nat) (q : CGroup) (w : Nat) : Except Exc QOp := do
  noPred w
  tdOp (wDst w)
  scalarOp (wA w)
  scalarOp (wB w)
  let d := q.tdesc (wDst w)
  need (tdFieldOk d) excFIELD
  q.cleanTd (wDst w)
  q.cleanS (wA w)
  let e := q.sreg (wA w) % 2 ^ 24
  need (tdSmode d = 0 && tdDescOk d e && dstOkDesc d e) excDESC
  need (tdAligned d) excALIGN
  need (tdExtentOk d e (rowBytes (tdFmt d) e)) excBOUNDS
  pure { QOp.base g q w with d := d, x := e, y := q.sreg (wB w), bad := q.sbad (wB w) }

def execFill (cell : Fin 256) (group : Fin 128) (s : State) : Host.Outcome State Fault Refusal :=
  .next (s.issueTo cell group (fun w => wOp w == 0x33) .move (fill group))

/-- A TCOPY done: rows in ascending order, each read in full before it is written. -/
def State.runTcopy (s : State) (c : Nat) (op : QOp) : State :=
  let fa := tdFmt op.a
  let fd := tdFmt op.d
  (List.range (tdRows op.a)).foldl (fun s r =>
    let row := s.tsRow c (tdBase op.a + r * tdStride op.a) (elemBits fa) op.x
    let out := if fa = fd then row.map (fun p => (p, 0)) else
      row.map fun p => let (z, f) := numConvert fa fd (bitsOf op.word 35 34) p.1 0; ((z, p.2), f)
    (s.tsWriteRow c (tdBase op.d + r * tdStride op.d) (elemBits fd) (out.map Prod.fst)).raiseFlags c op.group
      (out.foldl (fun f p => f ||| p.2) 0)) s

/-- A TRANS done: element (i, j) becomes element (j, i). -/
def State.runTrans (s : State) (c : Nat) (op : QOp) : State :=
  let b := elemBits (tdFmt op.a)
  let src := (List.range (tdRows op.a)).map fun i => s.tsRow c (tdBase op.a + i * tdStride op.a) b op.x
  (List.range op.x).foldl (fun s j =>
    s.tsWriteRow c (tdBase op.d + j * tdStride op.d) b (src.map fun row => row.getD j (0, false))) s

/-- A FILL done. -/
def State.runFill (s : State) (c : Nat) (op : QOp) : State :=
  let b := elemBits (tdFmt op.d)
  (List.range (tdRows op.d)).foldl (fun s r =>
    s.tsWriteRow c (tdBase op.d + r * tdStride op.d) b (List.replicate op.x (op.y % 2 ^ b, op.bad))) s

/-- The tile-store move at the head of a cell's movement queue is done (R243); a LACE there waits for its channel. -/
def State.moveDone (s : State) (c : Nat) : State :=
  match (s.cell c).mq with
  | [] => s
  | op :: rest =>
    if wOp op.word = 0x30 then s
    else
      let s := match wOp op.word with
        | 0x31 => s.runTcopy c op
        | 0x32 => s.runTrans c op
        | _ => s.runFill c op
      (s.modCell c fun x => { x with mq := rest }).qDone c op.group .move

def execMovementComplete (cell : Fin 256) (s : State) : Host.Outcome State Fault Refusal := .next (s.moveDone cell)

end Sys2Proof.Machine
end

