-- ==== Sys2Proof/Machine/CellLong.lean ====
section
/-! DEFINITION. The long routines SORT, TOPK, GATHER, SCATTER and ATTN, how they complete and how they stop
(07_tensor_and_long_ops.md R244 to R255). -/

namespace Sys2Proof.Machine

/-! Data in the tile store or on the fabric. -/

/-- The instance of a cell's fabric accesses (R152). -/
def State.cellInstOp (s : State) (c : Nat) : Option (Fin 64) := asInst (s.cellInst c)

/-- The exception of a failed fabric access. -/
def accCause : AccErr → Nat
  | .translation => excXLAT
  | .response => excACCESS

/-- A read of at most one page by a cell, in the tile store or through the ATU: bytes and poison, or cause and address. -/
def State.rdLoc (s : State) (c : Nat) (tile : Bool) (a n : Nat) : State × Except (Nat × Nat) (List Byte × Bool) :=
  if tile then (if a + n ≤ tsTop then (s, .ok (s.tsBytes c a n, s.tsBad c a n)) else (s, .error (excBOUNDS, a)))
  else
    match s.rdV (s.cellInstOp c) (mCell c) 1 a n with
    | (s, .ok r) => (s, .ok r)
    | (s, .error e) => (s, .error (accCause e, a))

/-- A write of at most one page by a cell. -/
def State.wrLoc (s : State) (c : Nat) (tile : Bool) (a : Nat) (l : List Byte) (bad : Bool) : State × Option (Nat × Nat) :=
  if tile then (if a + l.length ≤ tsTop then (s.tsWrite c a l bad, none) else (s, some (excBOUNDS, a)))
  else
    match s.wrV (s.cellInstOp c) (mCell c) a l bad with
    | (s, none) => (s, none)
    | (s, some e) => (s, some (accCause e, a))

/-- The pieces of a byte range that lie in one 8-byte word each: address and length. -/
def words8 : Nat → Nat → Nat → List (Nat × Nat)
  | 0, _, _ => []
  | fuel + 1, a, n =>
    if n = 0 then [] else let k := min n (8 - a % 8); (a, k) :: words8 fuel (a + k) (n - k)

def pieces (a n : Nat) : List (Nat × Nat) := words8 (n / 8 + 2) a n

/-- A read of any length: the bytes with the poison of each. -/
def State.rdAll (s : State) (c : Nat) (tile : Bool) (a n : Nat) : State × Except (Nat × Nat) (List (Byte × Bool)) :=
  (pieces a n).foldl (fun acc p =>
    match acc with
    | (s, .error e) => (s, .error e)
    | (s, .ok l) =>
      match s.rdLoc c tile p.1 p.2 with
      | (s, .error e) => (s, .error e)
      | (s, .ok (b, bad)) => (s, .ok (l ++ b.map fun x => (x, bad)))) (s, .ok [])

/-- A write of any length, its bytes with their poison; the first failure ends it. -/
def State.wrAll (s : State) (c : Nat) (tile : Bool) (a : Nat) (l : List (Byte × Bool)) : State × Option (Nat × Nat) :=
  (pieces a l.length).foldl (fun acc p =>
    match acc with
    | (s, some e) => (s, some e)
    | (s, none) =>
      let part := (l.drop (p.1 - a)).take p.2
      s.wrLoc c tile p.1 (part.map Prod.fst) (part.any fun x => x.2)) (s, none)

/-- Every page of a range translates for a write; the first failure otherwise. -/
def State.wrCheck (s : State) (c : Nat) (tile : Bool) (a n : Nat) : State × Option (Nat × Nat) :=
  if tile then (s, if a + n ≤ tsTop then none else some (excBOUNDS, a))
  else
    (pages (n / 4096 + 2) a n).foldl (fun acc p =>
      match acc with
      | (s, some e) => (s, some e)
      | (s, none) =>
        match s.xlat (s.cellInstOp c) (mCell c) 2 p.1 with
        | (s, some _) => (s, none)
        | (s, none) => (s, some (excXLAT, p.1))) (s, none)

/-- Bytes that are clean. -/
def cleanBytes (l : List Byte) : List (Byte × Bool) := l.map fun b => (b, false)

/-- Open values written over a range: what a routine that stopped may have changed, and its work space. -/
def State.openRange (s : State) (c : Nat) (tile : Bool) (a n : Nat) : State :=
  let (l, s) := s.freeBytes n
  (s.wrAll c tile a (cleanBytes l)).1

/-! Issue (R244). -/

/-- A long instruction with its function; x holds the offset of the parameter block. -/
def longOp (g : Nat) (q : CGroup) (w : Nat) : Except Exc QOp := do
  noPred w
  scalarOp (wA w)
  need (w % 2 ^ 30 = 0 && wDst w = 0 && wB w = 0) excFIELD
  q.cleanS (wA w)
  let o := q.sreg (wA w)
  need (o % 64 = 0) excALIGN
  need (o < tsTop) excBOUNDS
  pure { QOp.base g q w with x := o }

def isLong (op fn w : Nat) : Bool := wOp w == op && wFn w == fn

def execSort (cell : Fin 256) (group : Fin 128) (s : State) : Host.Outcome State Fault Refusal :=
  .next (s.issueTo cell group (isLong 0x3C 0) .long (longOp group))
def execTopk (cell : Fin 256) (group : Fin 128) (s : State) : Host.Outcome State Fault Refusal :=
  .next (s.issueTo cell group (isLong 0x3C 1) .long (longOp group))
def execGather (cell : Fin 256) (group : Fin 128) (s : State) : Host.Outcome State Fault Refusal :=
  .next (s.issueTo cell group (isLong 0x3D 0) .long (longOp group))
def execScatter (cell : Fin 256) (group : Fin 128) (s : State) : Host.Outcome State Fault Refusal :=
  .next (s.issueTo cell group (isLong 0x3D 1) .long (longOp group))
def execAttn (cell : Fin 256) (group : Fin 128) (s : State) : Host.Outcome State Fault Refusal :=
  .next (s.issueTo cell group (isLong 0x3E 0) .long (longOp group))
def execNms (cell : Fin 256) (group : Fin 128) (s : State) : Host.Outcome State Fault Refusal :=
  .next (s.issueTo cell group (isLong 0x3E 1) .long (longOp group))

/-! Runs. A run starts at element RESUME and goes on to the end, or to the element at which it is stopped; it gives the
first element not committed, and the fault met there. -/

structure LRun where
  st : State
  next : Nat
  fault : Option (Nat × Nat)
  deriving DecidableEq, Repr

/-- Reserved bytes of a parameter block are 0. -/
def zeroAt (l : List Byte) (o n : Nat) : Bool := leAt l o n == 0

/-- A list of ranges in the tile store ends inside it. -/
def allInTs (l : List (Nat × Nat)) : Bool := l.all fun p => p.2 == 0 || decide (p.1 + p.2 ≤ tsTop)

/-- Two of the ranges of a list meet. -/
def anyMeet : List (Nat × Nat) → Bool
  | [] => false
  | p :: r => (r.any fun q => overlap p.1 p.2 q.1 q.2) || anyMeet r

/-! SORT and TOPK (R245 to R247). -/

/-- The rank of a key: greater keys have greater ranks. -/
def keyRank (type k : Nat) : Nat :=
  let fp (w code : Nat) : Nat :=
    let b := k % 2 ^ w
    if ((numDecode code b).1).isNan then 2 ^ w
    else if bitOf b (w - 1) then 2 ^ w - 1 - b else b + 2 ^ (w - 1)
  match type with
  | 0 => k % 2 ^ 32
  | 1 => (k + 2 ^ 31) % 2 ^ 32
  | 2 => fp 32 0
  | 3 => k % 2 ^ 16
  | 4 => (k % 2 ^ 16 + 2 ^ 15) % 2 ^ 16
  | 5 => fp 16 3
  | _ => fp 16 2

/-- Insertion behind every entry that is not after it. -/
def insertBy {α : Type} (before : α → α → Bool) (x : α) : List α → List α
  | [] => [x]
  | y :: r => if before x y then x :: y :: r else y :: insertBy before x r

/-- A stable sort. -/
def sortBy {α : Type} (before : α → α → Bool) (l : List α) : List α := l.foldl (fun acc x => insertBy before x acc) []

/-- Value bytes of a record. -/
def sortVal (b : List Byte) : Nat := match bitsOf (leAt b 5 1) 2 1 with | 0 => 0 | 1 => 4 | _ => 8

/-- What a parameter block of SORT fails on. -/
def sortCheck (b : List Byte) : Option Nat :=
  let n := leAt b 0 4
  let r := (4 + sortVal b) * n
  let areas := [(leAt b 8 4, r), (leAt b 0xC 4, r), (leAt b 0x10 4, r)]
  if !(decide (1 ≤ n ∧ n ≤ 131072 ∧ leAt b 4 1 ≤ 6 ∧ bitsOf (leAt b 5 1) 2 1 ≠ 3 ∧ leAt b 5 1 < 8) && zeroAt b 6 2 &&
      zeroAt b 0x14 44 && !anyMeet areas) then some excDESC
  else if !allInTs areas then some excBOUNDS else none

/-- The bytes that a stopped SORT may have changed. -/
def State.sortOpen (s : State) (c : Nat) (b : List Byte) : State :=
  let r := (4 + sortVal b) * leAt b 0 4
  (s.openRange c true (leAt b 0xC 4) r).openRange c true (leAt b 0x10 4) r

/-- SORT to its end. -/
def State.runSort (s : State) (c : Nat) (b : List Byte) : LRun :=
  match sortCheck b with
  | some e => ⟨s, 0, some (e, 0)⟩
  | none =>
    let n := leAt b 0 4
    let z := 4 + sortVal b
    let src := leAt b 8 4
    match (List.range n).find? fun i => s.tsBad c (src + i * z) 4 with
    | some i => ⟨s.sortOpen c b, 0, some (excPOISON, src + i * z)⟩
    | none =>
      let recs := (List.range n).map fun i =>
        (keyRank (leAt b 4 1) (s.tsNat c (src + i * z) 4),
          (pieces (src + i * z) z).flatMap fun p => (s.tsBytes c p.1 p.2).map fun x => (x, s.tsBad c p.1 p.2))
      let desc := bitOf (leAt b 5 1) 0
      let out := sortBy (fun x y => if desc then decide (y.1 < x.1) else decide (x.1 < y.1)) recs
      let s := (s.wrAll c true (leAt b 0xC 4) (out.flatMap Prod.snd)).1
      ⟨s.openRange c true (leAt b 0x10 4) (z * n), 0, none⟩

/-- Bytes of a key in a TOPK source. -/
def keyBytes (type : Nat) : Nat := if type ≤ 2 then 4 else 2

def topkCheck (b : List Byte) : Option Nat :=
  let n := leAt b 0 4
  let k := leAt b 6 2
  let dst := (leAt b 0x10 4, 8 * min n k)
  if !(decide (1 ≤ n ∧ n ≤ 16777216 ∧ leAt b 4 1 ≤ 6 ∧ leAt b 5 1 < 4 ∧ 1 ≤ k ∧ k ≤ 4096) && zeroAt b 0x1C 36) then some excDESC
  else if !allInTs (if bitOf (leAt b 5 1) 1 then [dst] else [(leAt b 8 8, n * keyBytes (leAt b 4 1)), dst]) then some excBOUNDS
  else none

/-- The selection committed: the records and COUNT. -/
def State.topkCommit (s : State) (c o : Nat) (b : List Byte) (sel : List (Nat × Nat)) : State :=
  let s := (s.wrAll c true (leAt b 0x10 4) (cleanBytes (sel.flatMap fun p => leBytes 4 p.1 ++ leBytes 4 p.2))).1
  s.tsWrite c (o + 0x18) (leBytes 4 sel.length) false

/-- Keys consumed one at a time from e on, n of them. -/
def State.topkGo (s : State) (c : Nat) (b : List Byte) : Nat → Nat → List (Nat × Nat) → State × Nat × List (Nat × Nat) × Option (Nat × Nat)
  | 0, e, sel => (s, e, sel, none)
  | n + 1, e, sel =>
    let type := leAt b 4 1
    let z := keyBytes type
    let a := leAt b 8 8 + e * z
    match s.rdLoc c (!bitOf (leAt b 5 1) 1) a z with
    | (s, .error f) => (s, e, sel, some f)
    | (s, .ok (l, bad)) =>
      if bad then (s, e, sel, some (excPOISON, a))
      else
        let small := bitOf (leAt b 5 1) 0
        let before := fun (x y : Nat × Nat) =>
          if small then decide (keyRank type x.1 < keyRank type y.1) else decide (keyRank type y.1 < keyRank type x.1)
        let sel := (insertBy before (leNat l, (leAt b 0x14 4 + e) % 2 ^ 32) sel).take (leAt b 6 2)
        s.topkGo c b n (e + 1) sel

/-- TOPK from element e0 to the element given. -/
def State.runTopk (s : State) (c o : Nat) (b : List Byte) (e0 stop : Nat) : LRun :=
  match topkCheck b with
  | some e => ⟨s, e0, some (e, 0)⟩
  | none =>
    let n := min (leAt b 0 4) stop
    if n ≤ e0 then ⟨s, e0, none⟩
    else
      let old := if e0 = 0 then [] else
        (List.range (min (leAt b 0x18 4) (leAt b 6 2))).map fun i =>
          (s.tsNat c (leAt b 0x10 4 + 8 * i) 4, s.tsNat c (leAt b 0x10 4 + 8 * i + 4) 4)
      let (s, e, sel, f) := s.topkGo c b (n - e0) e0 old
      ⟨s.topkCommit c o b sel, e, f⟩

/-! GATHER and SCATTER (R248, R249). -/

def gsCheck (b : List Byte) : Option Nat :=
  let n := leAt b 0 4
  let rb := leAt b 4 4
  let tab := if bitOf (leAt b 0x1C 1) 0 && leAt b 0x10 4 ≠ 0
    then [(leAt b 8 8, (leAt b 0x10 4 - 1) * leAt b 0x28 8 + rb)] else []
  if !(decide (1 ≤ n ∧ n ≤ 1048576 ∧ 4 ≤ rb ∧ rb ≤ 65536 ∧ rb % 4 = 0 ∧ leAt b 0x1C 1 < 8 ∧ leAt b 0x28 8 ≥ rb) &&
      zeroAt b 0x1D 3 && zeroAt b 0x24 4 && zeroAt b 0x30 16) then some excDESC
  else if !allInTs ([(leAt b 0x14 4, 4 * n), (leAt b 0x18 4, rb * n)] ++ tab) then some excBOUNDS
  else none

/-- Address of a table row. -/
def tabRow (b : List Byte) (t : Nat) : Nat := leAt b 8 8 + t * leAt b 0x28 8

/-- Element i of a GATHER: the state, whether the index was out of range, and a fault before any write. -/
def State.gatherEl (s : State) (c : Nat) (b : List Byte) (i : Nat) : State × Bool × Option (Nat × Nat) :=
  let ia := leAt b 0x14 4 + 4 * i
  let rb := leAt b 4 4
  let dst := leAt b 0x18 4 + i * rb
  if s.tsBad c ia 4 then (s, false, some (excPOISON, ia))
  else
    let t := s.tsNat c ia 4
    if t ≥ leAt b 0x10 4 then ((s.wrAll c true dst (cleanBytes (zeroBytes rb))).1, true, none)
    else
      match s.rdAll c (bitOf (leAt b 0x1C 1) 0) (tabRow b t) rb with
      | (s, .error f) => (s, false, some f)
      | (s, .ok l) => ((s.wrAll c true dst l).1, false, none)

/-- A word combined by a SCATTER operation (R249), with flags. -/
def scatterWord (op x y : Nat) : Nat × Nat :=
  match op with
  | 1 => fadd 0 x y
  | 2 => ((x + y) % 2 ^ 32, 0)
  | 3 => (fminmax true x y, 0)
  | _ => (y, 0)

/-- Element i of a SCATTER. -/
def State.scatterEl (s : State) (c g : Nat) (b : List Byte) (i : Nat) : State × Bool × Option (Nat × Nat) :=
  let ia := leAt b 0x14 4 + 4 * i
  let rb := leAt b 4 4
  let tile := bitOf (leAt b 0x1C 1) 0
  let op := bitsOf (leAt b 0x1C 1) 2 1
  if s.tsBad c ia 4 then (s, false, some (excPOISON, ia))
  else
    let t := s.tsNat c ia 4
    if t ≥ leAt b 0x10 4 then (s, true, none)
    else
      let a := tabRow b t
      match s.rdAll c true (leAt b 0x18 4 + i * rb) rb with
      | (s, .error f) => (s, false, some f)
      | (s, .ok row) =>
        match s.wrCheck c tile a rb with
        | (s, some f) => (s, false, some f)
        | (s, none) =>
          if op = 0 then
            let (s, f) := s.wrAll c tile a row
            (s, false, f)
          else
            match s.rdAll c tile a rb with
            | (s, .error f) => (s, false, some f)
            | (s, .ok old) =>
              let ws := (List.range (rb / 4)).map fun k =>
                let x := (old.drop (4 * k)).take 4
                let y := (row.drop (4 * k)).take 4
                let (v, f) := scatterWord op (leNat (x.map Prod.fst)) (leNat (y.map Prod.fst))
                ((leBytes 4 v).map fun z => (z, (x ++ y).any fun p => p.2), f)
              let (s, f) := s.wrAll c tile a (ws.flatMap Prod.fst)
              ((s.raiseFlags c g (ws.foldl (fun m p => m ||| p.2) 0)), false, f)

/-- Elements one at a time from e on, n of them; the count of indices out of range. -/
def State.gsGo (s : State) (el : State → Nat → State × Bool × Option (Nat × Nat)) : Nat → Nat → Nat →
    State × Nat × Nat × Option (Nat × Nat)
  | 0, e, oob => (s, e, oob, none)
  | n + 1, e, oob =>
    match el s e with
    | (s, _, some f) => (s, e, oob, some f)
    | (s, out, none) => s.gsGo el n (e + 1) (if out then oob + 1 else oob)

/-- GATHER or SCATTER from element e0 to the element given. -/
def State.runGs (s : State) (c g o : Nat) (b : List Byte) (scatter : Bool) (e0 stop : Nat) : LRun :=
  match gsCheck b with
  | some e => ⟨s, e0, some (e, 0)⟩
  | none =>
    let n := min (leAt b 0 4) stop
    if n ≤ e0 then ⟨s, e0, none⟩
    else
      let (s, e, oob, f) := s.gsGo (fun s i => if scatter then s.scatterEl c g b i else s.gatherEl c b i) (n - e0) e0
        (if e0 = 0 then 0 else leAt b 0x20 4)
      ⟨s.tsWrite c (o + 0x20) (leBytes 4 oob) false, e, f⟩

/-! ATTN (R250). -/

def attnCheck (b : List Byte) : Option Nat :=
  let (lq, lk, d, dv) := (leAt b 0 2, leAt b 2 2, leAt b 4 2, leAt b 6 2)
  let qf := leAt b 0x20 1
  let fl := leAt b 0x22 1
  let wq := elemBits qf / 8
  let wo := elemBits (leAt b 0x21 1) / 8
  let area (o st n e : Nat) : Nat × Nat := (leAt b o 4, (n - 1) * leAt b st 2 + e)
  if !(decide (1 ≤ lq ∧ lq ≤ 4096 ∧ 1 ≤ lk ∧ lk ≤ 4096 ∧ 1 ≤ d ∧ d ≤ 256 ∧ 1 ≤ dv ∧ dv ≤ 256) &&
      [0, 2, 3].contains qf && [0, 2, 3, 5].contains (leAt b 0x21 1) && decide (fl < 16 ∧ fl / 4 ≠ 3) &&
      zeroAt b 0x23 1 && zeroAt b 0x30 16) then some excDESC
  else if !allInTs ([area 8 0x28 lq (d * wq), area 0xC 0x2A lk (d * wq), area 0x10 0x2C lk (dv * wq), area 0x14 0x2E lq (dv * wo)] ++
      (if bitOf fl 1 then [(leAt b 0x18 4, lq * lk * 4)] else [])) then some excBOUNDS
  else none

/-- A row of FP32 values converted from the format of an ATTN operand, with poison. -/
def State.attnRow (s : State) (c o fmt n : Nat) : List (Nat × Bool) :=
  (s.tsRow c o (elemBits fmt) n).map fun p => ((r32 0 (numDecode fmt p.1).1).1, p.2)

/-- Products rounded to FP32, then reduced, with flags (R250). -/
def dot32 (a b : List Nat) : Nat × Nat :=
  let ps := (a.zip b).map fun p => fmul 0 p.1 p.2
  let (v, f) := reduceRne 0 (ps.map Prod.fst)
  (v, f ||| allFlags ps)

/-- The scores of one query row against the keys, with flags and poison of all. -/
def attnScores (b : List Byte) (r : Nat) (q : List Nat) (ks : List (List Nat)) (mk : List Nat) : List Nat × Nat :=
  let causal := bitOf (leAt b 0x22 1) 0
  let coff := toSigned 32 (leAt b 0x24 4)
  let rs := ((List.range ks.length).zip ks).map fun p =>
    let (v, f) := dot32 q p.2
    let (v, g) := fmul 0 v (leAt b 0x1C 4)
    let (v, h) := if bitOf (leAt b 0x22 1) 1 then fadd 0 v (mk.getD p.1 0) else (v, 0)
    if causal && decide ((p.1 : Int) > (r : Int) + coff) then (0xFF800000, f ||| g ||| h) else (v, f ||| g ||| h)
  (rs.map Prod.fst, allFlags rs)

/-- One output row: element bits with poison, and flags. -/
def attnOut (b : List Byte) (e : List Nat) (vs : List (List (Nat × Bool))) (pois : Bool) : List (Nat × Bool) × Nat :=
  let dv := leAt b 6 2
  let ofmt := leAt b 0x21 1
  let rnd := bitsOf (leAt b 0x22 1) 3 2
  let m := laneExtreme true 2 e
  let col (c : Nat) : List (Nat × Bool) := vs.map fun r => r.getD c (0, false)
  let bad (c : Nat) : Bool := pois || (col c).any fun p => p.2
  if f32 m = .inf true then ((List.range dv).map fun c => (0, bad c), 0)
  else
    let es := e.map fun x =>
      let (d, f) := fsub 0 x m
      let (y, g) := fmul 0 d 0x3FB8AA3B
      let (z, h) := fex2 y
      (z, f ||| g ||| h)
    let ev := es.map Prod.fst
    let (l, fl) := reduceRne 0 ev
    let outs := (List.range dv).map fun c =>
      let (n, f) := dot32 ev ((col c).map Prod.fst)
      let (q, g) := fdiv 0 n l
      let (z, h) := numRound ofmt rnd (f32 q) 0
      ((z, bad c), f ||| g ||| h)
    (outs.map Prod.fst, outs.foldl (fun f p => f ||| p.2) (fl ||| allFlags es))

/-- Query rows one at a time from r on, n of them. -/
def State.attnGo (s : State) (c g : Nat) (b : List Byte) : Nat → Nat → State
  | 0, _ => s
  | n + 1, r =>
    let lk := leAt b 2 2
    let d := leAt b 4 2
    let qf := leAt b 0x20 1
    let q := s.attnRow c (leAt b 8 4 + r * leAt b 0x28 2) qf d
    let ks := (List.range lk).map fun j => s.attnRow c (leAt b 0xC 4 + j * leAt b 0x2A 2) qf d
    let vs := (List.range lk).map fun j => s.attnRow c (leAt b 0x10 4 + j * leAt b 0x2C 2) qf (leAt b 6 2)
    let mk := if bitOf (leAt b 0x22 1) 1 then s.tsRow c (leAt b 0x18 4 + r * lk * 4) 32 lk else []
    let pois := (q ++ mk ++ ks.flatten).any fun p => p.2
    let (e, f1) := attnScores b r (q.map Prod.fst) (ks.map fun k => k.map Prod.fst) (mk.map Prod.fst)
    let (out, f2) := attnOut b e vs pois
    let s := s.tsWriteRow c (leAt b 0x14 4 + r * leAt b 0x2E 2) (elemBits (leAt b 0x21 1)) out
    (s.raiseFlags c g (f1 ||| f2)).attnGo c g b n (r + 1)

/-- ATTN from row e0 to the row given. -/
def State.runAttn (s : State) (c g : Nat) (b : List Byte) (e0 stop : Nat) : LRun :=
  match attnCheck b with
  | some e => ⟨s, e0, some (e, 0)⟩
  | none =>
    let n := min (leAt b 0 2) stop
    if n ≤ e0 then ⟨s, e0, none⟩ else ⟨s.attnGo c g b (n - e0) e0, n, none⟩

end Sys2Proof.Machine
end

