-- ==== Sys2Proof/Machine/CellNms.lean ====
section
/-! DEFINITION. The detection post-processor NMS (08_window_operators.md R273 to R282), and how long routines complete and
stop (07_tensor_and_long_ops.md R244, R252 to R255). -/

namespace Sys2Proof.Machine

/-! FP32 values that carry the flags raised on their way. -/

abbrev FV := Nat × Nat

def FV.of (v : Nat) : FV := (v, 0)
def fv2 (f : Nat → Nat → Nat × Nat) (a b : FV) : FV := let (v, g) := f a.1 b.1; (v, a.2 ||| b.2 ||| g)
def vadd : FV → FV → FV := fv2 (fadd 0)
def vsub : FV → FV → FV := fv2 (fsub 0)
def vmul : FV → FV → FV := fv2 (fmul 0)
def vdiv : FV → FV → FV := fv2 (fdiv 0)
def vmin : FV → FV → FV := fv2 fun a b => (fminmax false a b, 0)
def vmax : FV → FV → FV := fv2 fun a b => (fminmax true a b, 0)
def fv1 (f : Nat → Nat × Nat) (a : FV) : FV := let (v, g) := f a.1; (v, a.2 ||| g)
/-- ex(u) of R275. -/
def vex (u : FV) : FV := fv1 fex2 (vmul u (FV.of 0x3FB8AA3B))
def vhalf : FV := FV.of 0x3F000000

/-! Scores and candidates (R275). -/

structure Cand where
  box : Nat
  cls : Nat
  score : Nat
  deriving DecidableEq, Repr

/-- The score of a raw element. -/
def nmsScore (b : List Byte) (raw : Nat) : FV :=
  let (v, f) := numDecode (leAt b 8 1) raw
  let x := vmul ((r32 0 v).1, f) (FV.of (leAt b 0x64 4))
  if bitOf (leAt b 7 1) 0 then vdiv (FV.of 0x3F800000) (vadd (FV.of 0x3F800000) (vex (fsignSet x.1 true, x.2))) else x

/-- Rank order: higher score, lower box, lower class. -/
def candBefore (x y : Cand) : Bool :=
  flt y.score x.score || (feq x.score y.score && (decide (x.box < y.box) || (decide (x.box = y.box) && decide (x.cls < y.cls))))

/-- The scores of box i from class k on, n of them: candidates and flags, or a fault. -/
def State.nmsBox (s : State) (c : Nat) (b : List Byte) (i : Nat) : Nat → Nat → List Cand → Nat →
    State × Except (Nat × Nat) (List Cand × Nat)
  | 0, _, acc, fl => (s, .ok (acc, fl))
  | n + 1, k, acc, fl =>
    if bitOf (leAt b 7 1) 2 && k = 0 then s.nmsBox c b i n 1 acc fl
    else
      let z := elemBits (leAt b 8 1) / 8
      let a := leAt b 0x10 8 + i * leAt b 0x38 4 + k * z
      match s.rdLoc c (!bitOf (leAt b 7 1) 3) a z with
      | (s, .error f) => (s, .error f)
      | (s, .ok (l, bad)) =>
        if bad then (s, .error (excPOISON, a))
        else
          let v := nmsScore b (leNat l)
          s.nmsBox c b i n (k + 1) (if fle (leAt b 0x40 4) v.1 then acc ++ [⟨i, k, v.1⟩] else acc) (fl ||| v.2)

/-- The candidates of n boxes from i on. -/
def State.nmsCands (s : State) (c : Nat) (b : List Byte) : Nat → Nat → List Cand → Nat →
    State × Except (Nat × Nat) (List Cand × Nat)
  | 0, _, acc, fl => (s, .ok (acc, fl))
  | n + 1, i, acc, fl =>
    match s.nmsBox c b i (leAt b 4 2) 0 [] 0 with
    | (s, .error f) => (s, .error f)
    | (s, .ok (l, g)) => s.nmsCands c b n (i + 1) (acc ++ l) (fl ||| g)

/-! Boxes (R274, R276). -/

/-- Values of a kind's anchor record and regression row. -/
def anchorVals : Nat → Nat | 0 => 4 | 1 => 3 | 2 => 6 | _ => 8
def deltaVals : Nat → Nat | 0 => 4 | 1 => 4 | 2 => 5 | _ => 7

/-- The box of a kind from anchor a and regression d: its values, before the clip. -/
def decodeBox (b : List Byte) (a d : List FV) : List FV :=
  let A (i : Nat) : FV := a.getD i (0, 0)
  let D (i : Nat) : FV := d.getD i (0, 0)
  let V (i : Nat) : FV := FV.of (leAt b (0x48 + 4 * i) 4)
  match leAt b 6 1 with
  | 0 =>
    let cx := vadd (A 0) (vmul (vmul (D 0) (V 0)) (A 2))
    let cy := vadd (A 1) (vmul (vmul (D 1) (V 1)) (A 3))
    let w := vmul (A 2) (vex (vmul (D 2) (V 2)))
    let h := vmul (A 3) (vex (vmul (D 3) (V 3)))
    [vsub cx (vmul w vhalf), vsub cy (vmul h vhalf), vadd cx (vmul w vhalf), vadd cy (vmul h vhalf)]
  | 1 =>
    [vsub (A 0) (vmul (D 0) (A 2)), vsub (A 1) (vmul (D 1) (A 2)), vadd (A 0) (vmul (D 2) (A 2)), vadd (A 1) (vmul (D 3) (A 2))]
  | 2 =>
    [vadd (A 0) (vmul (D 0) (A 5)), vadd (A 1) (vmul (D 1) (A 5)), vmul (A 2) (vex (D 2)), vmul (A 3) (vex (D 3)),
      vadd (A 4) (D 4)]
  | _ =>
    [vadd (A 0) (vmul (D 0) (A 7)), vadd (A 1) (vmul (D 1) (A 7)), vadd (A 2) (vmul (D 2) (A 5)), vmul (A 3) (vex (D 3)),
      vmul (A 4) (vex (D 4)), vmul (A 5) (vex (D 5)), vadd (A 6) (D 6)]

/-- The clip of kinds 0 and 1. -/
def clipBox (b : List Byte) (v : List FV) : List FV :=
  if bitOf (leAt b 7 1) 1 && decide (leAt b 6 1 ≤ 1) then
    ((List.range 4).zip v).map fun p => vmin (vmax p.2 (FV.of 0)) (FV.of (leAt b (if p.1 % 2 = 0 then 0x58 else 0x5C) 4))
  else v

def isFin32 (v : Nat) : Bool := match f32 v with | .fin _ _ _ => true | _ => false

/-- A box is valid (R276). -/
def boxValid (kind : Nat) (v : List Nat) : Bool :=
  let X (i : Nat) : Nat := v.getD i 0
  v.all isFin32 &&
    (match kind with
     | 2 => flt 0 (X 2) && flt 0 (X 3)
     | 3 => flt 0 (X 3) && flt 0 (X 4)
     | _ => flt (X 0) (X 2) && flt (X 1) (X 3))

/-- The box of index i: its values with flags, or a fault. -/
def State.nmsDecode (s : State) (c : Nat) (b : List Byte) (i : Nat) : State × Except (Nat × Nat) (List Nat × Nat) :=
  let kind := leAt b 6 1
  let tile := !bitOf (leAt b 7 1) 3
  let df := leAt b 9 1
  let z := elemBits df / 8
  let da := leAt b 0x18 8 + i * leAt b 0x3C 4
  let aa := leAt b 0x20 8 + i * 32
  match s.rdAll c tile aa (4 * anchorVals kind) with
  | (s, .error f) => (s, .error f)
  | (s, .ok al) =>
    match s.rdAll c tile da (z * deltaVals kind) with
    | (s, .error f) => (s, .error f)
    | (s, .ok dl) =>
      if al.any fun p => p.2 then (s, .error (excPOISON, aa))
      else if dl.any fun p => p.2 then (s, .error (excPOISON, da))
      else
        let ab := al.map Prod.fst
        let db := dl.map Prod.fst
        let a := (List.range (anchorVals kind)).map fun k => FV.of (leAt ab (4 * k) 4)
        let d := (List.range (deltaVals kind)).map fun k => FV.of (r32 0 (numDecode df (leAt db (z * k) z)).1).1
        let v := clipBox b (decodeBox b a d)
        (s, .ok (v.map Prod.fst, v.foldl (fun f p => f ||| p.2) 0))

/-- The boxes of a list of indices. -/
def State.nmsBoxes (s : State) (c : Nat) (b : List Byte) : List Nat → List (Nat × List Nat) → Nat →
    State × Except (Nat × Nat) (List (Nat × List Nat) × Nat)
  | [], acc, fl => (s, .ok (acc, fl))
  | i :: r, acc, fl =>
    match s.nmsDecode c b i with
    | (s, .error f) => (s, .error f)
    | (s, .ok (v, g)) => s.nmsBoxes c b r (fmPut acc i v) (fl ||| g)

/-! Overlap (R277, R278). -/

/-- Overlap of axis-aligned boxes. -/
def overAxis (iou : Nat) (p q : List Nat) : Bool × Nat :=
  let P (i : Nat) : FV := FV.of (p.getD i 0)
  let Q (i : Nat) : FV := FV.of (q.getD i 0)
  let iw := vsub (vmin (P 2) (Q 2)) (vmax (P 0) (Q 0))
  let ih := vsub (vmin (P 3) (Q 3)) (vmax (P 1) (Q 1))
  let inter : FV := if flt 0 iw.1 && flt 0 ih.1 then vmul iw ih else (0, iw.2 ||| ih.2)
  let ap := vmul (vsub (P 2) (P 0)) (vsub (P 3) (P 1))
  let aq := vmul (vsub (Q 2) (Q 0)) (vsub (Q 3) (Q 1))
  let u := vsub (vadd ap aq) inter
  let t := vmul (FV.of iou) u
  (flt t.1 inter.1, t.2 ||| inter.2)

abbrev Pt2 := FV × FV

/-- The nmsCorners of a rotated box given as cx, cy, w, l, theta. -/
def nmsCorners (v : List Nat) : List Pt2 :=
  let B (i : Nat) : FV := FV.of (v.getD i 0)
  let t := vmul (B 4) (FV.of 0x3E22F983)
  let cs := fv1 (fsincos true) t
  let sn := fv1 (fsincos false) t
  let hl := vmul (B 3) vhalf
  let hw := vmul (B 2) vhalf
  let neg (a : FV) : FV := (fsignSet a.1 true, a.2)
  [(hl, hw), (neg hl, hw), (neg hl, neg hw), (hl, neg hw)].map fun uv =>
    (vadd (B 0) (vsub (vmul uv.1 cs) (vmul uv.2 sn)), vadd (B 1) (vadd (vmul uv.1 sn) (vmul uv.2 cs)))

def nmsSide (e0 e1 p : Pt2) : FV :=
  vsub (vmul (vsub e1.1 e0.1) (vsub p.2 e0.2)) (vmul (vsub e1.2 e0.2) (vsub p.1 e0.1))

def cutPt (s r : Pt2) (ss sr : FV) : Pt2 :=
  let f := vdiv ss (vsub ss sr)
  (vadd s.1 (vmul f (vsub r.1 s.1)), vadd s.2 (vmul f (vsub r.2 s.2)))

/-- The polygon clipped by one edge; the vertex before the first is prev. -/
def clipEdge (e0 e1 : Pt2) : List Pt2 → Pt2 → List Pt2
  | [], _ => []
  | r :: rest, prev =>
    let sr := nmsSide e0 e1 r
    let ss := nmsSide e0 e1 prev
    let out :=
      if fle 0 sr.1 then (if flt ss.1 0 then [cutPt prev r ss sr, r] else [r])
      else if fle 0 ss.1 then [cutPt prev r ss sr] else []
    out ++ clipEdge e0 e1 rest r

/-- The area of a polygon (R278). -/
def polyArea (l : List Pt2) : FV :=
  if l.length < 3 then (0, 0)
  else
    let n := l.length
    let z : Pt2 := ((0, 0), (0, 0))
    let acc := (List.range n).foldl (fun (acc : FV) j =>
      let a := l.getD j z
      let b := l.getD ((j + 1) % n) z
      vadd acc (vsub (vmul a.1 b.2) (vmul b.1 a.2))) (0, 0)
    vmul (fsignSet acc.1 false, acc.2) vhalf

/-- Overlap of rotated boxes. -/
def overRot (iou : Nat) (p q : List Nat) : Bool × Nat :=
  let qc := nmsCorners q
  let z : Pt2 := ((0, 0), (0, 0))
  let poly := (List.range 4).foldl (fun (poly : List Pt2) k =>
    clipEdge (qc.getD k z) (qc.getD ((k + 1) % 4) z) poly (poly.getLastD z)) (nmsCorners p)
  let inter := polyArea poly
  let P (i : Nat) : FV := FV.of (p.getD i 0)
  let Q (i : Nat) : FV := FV.of (q.getD i 0)
  let u := vsub (vadd (vmul (P 2) (P 3)) (vmul (Q 2) (Q 3))) inter
  let t := vmul (FV.of iou) u
  (flt t.1 inter.1, t.2 ||| inter.2)

/-- The values of a box that the overlap test uses: kind 3 without cz and h. -/
def bevOf (kind : Nat) (v : List Nat) : List Nat :=
  if kind = 3 then [v.getD 0 0, v.getD 1 0, v.getD 3 0, v.getD 4 0, v.getD 6 0] else v

def overlapBox (b : List Byte) (p q : List Nat) : Bool × Nat :=
  let kind := leAt b 6 1
  if kind ≤ 1 then overAxis (leAt b 0x44 4) p q else overRot (leAt b 0x44 4) (bevOf kind p) (bevOf kind q)

/-! Suppression (R279). -/

/-- A candidate against the kept ones in order: suppressed or not, with flags. -/
def suppressed (b : List Byte) (boxes : List (Nat × List Nat)) (p : Cand) : List Cand → Bool × Nat
  | [] => (false, 0)
  | q :: r =>
    let (o, f) := overlapBox b (fmGetD [] boxes p.box) (fmGetD [] boxes q.box)
    if o then (true, f) else let (o, g) := suppressed b boxes p r; (o, f ||| g)

/-- The list of one class in rank order: kept, entries dropped by PER_CLASS, flags. -/
def keepClass (b : List Byte) (boxes : List (Nat × List Nat)) : List Cand → List Cand → Nat → List Cand × Nat × Nat
  | [], kept, fl => (kept, 0, fl)
  | p :: r, kept, fl =>
    if kept.length = leAt b 0x60 2 then (kept, (p :: r).length, fl)
    else
      let (o, f) := suppressed b boxes p kept
      keepClass b boxes r (if o then kept else kept ++ [p]) (fl ||| f)

/-- A record of the output (R280). -/
def nmsRecord (boxes : List (Nat × List Nat)) (p : Cand) : List Byte :=
  let v := fmGetD [] boxes p.box
  leBytes 4 p.score ++ leBytes 4 p.box ++ leBytes 2 p.cls ++ zeroBytes 6 ++ (List.range 8).flatMap fun i => leBytes 4 (v.getD i 0)

/-- The tile-store areas of a call. -/
def nmsAreas (b : List Byte) : List (Nat × Nat) :=
  let fl := leAt b 7 1
  let n := leAt b 0 4
  let kind := leAt b 6 1
  (if bitOf fl 3 then [] else
    [(leAt b 0x10 8, (n - 1) * leAt b 0x38 4 + leAt b 4 2 * (elemBits (leAt b 8 1) / 8)),
     (leAt b 0x18 8, (n - 1) * leAt b 0x3C 4 + deltaVals kind * (elemBits (leAt b 9 1) / 8)), (leAt b 0x20 8, 32 * n)]) ++
  (if bitOf fl 4 then [] else [(leAt b 0x30 8, 64 * leAt b 0xC 4)]) ++
  (if bitOf fl 5 then [] else [(leAt b 0x28 8, 64 + 48 * leAt b 0x62 2)])

def nmsCheck (b : List Byte) : Option Nat :=
  let fl := leAt b 7 1
  let pc := leAt b 0x60 2
  let kp := leAt b 0x62 2
  if !(decide (1 ≤ leAt b 0 4 ∧ leAt b 0 4 ≤ 65536 ∧ 1 ≤ leAt b 4 2 ∧ leAt b 4 2 ≤ 1024 ∧ leAt b 6 1 ≤ 3 ∧ fl < 64) &&
      (!bitOf fl 1 || decide (leAt b 6 1 ≤ 1)) && [0, 2, 3, 5, 9].contains (leAt b 8 1) && [0, 2, 3].contains (leAt b 9 1) &&
      zeroAt b 0xA 2 && zeroAt b 0x68 24 && decide (1 ≤ leAt b 0xC 4 ∧ leAt b 0xC 4 ≤ 65536) &&
      fle 0 (leAt b 0x44 4) && fle (leAt b 0x44 4) 0x3F800000 && decide (1 ≤ pc ∧ pc ≤ 4096 ∧ 1 ≤ kp ∧ kp ≤ 4096) &&
      !anyMeet (nmsAreas b)) then some excDESC
  else if !allInTs (nmsAreas b) then some excBOUNDS else none

/-- Header of the output. -/
def nmsHeader (count pairs dropped invalid capped done : Nat) : List Byte :=
  leBytes 4 count ++ leBytes 4 pairs ++ leBytes 4 dropped ++ leBytes 4 invalid ++ leBytes 4 capped ++ leBytes 4 done ++ zeroBytes 40

/-- What the stages after the scores give: candidates to output in order, and counts. -/
structure NmsOut where
  recs : List Cand
  capped : Nat
  flags : Nat
  deriving DecidableEq, Repr

/-- Suppression of the valid candidates, in rank order (R279). -/
def nmsSuppress (b : List Byte) (boxes : List (Nat × List Nat)) (valid : List Cand) : NmsOut :=
  let per := (List.range (leAt b 4 2)).map fun k => keepClass b boxes (valid.filter fun p => decide (p.cls = k)) [] 0
  let final := sortBy candBefore ((per.map Prod.fst).flatten)
  let keep := leAt b 0x62 2
  ⟨final.take keep, per.foldl (fun n p => n + p.2.1) 0 + (final.length - keep), per.foldl (fun f p => f ||| p.2.2) 0⟩

/-- SCRATCH holds open values once a call has used it. -/
def State.nmsOpen (s : State) (c : Nat) (b : List Byte) : State :=
  s.openRange c (!bitOf (leAt b 7 1) 4) (leAt b 0x30 8) (64 * leAt b 0xC 4)

/-- The output records and the final header. -/
def State.nmsWrite (s : State) (c : Nat) (b : List Byte) (boxes : List (Nat × List Nat)) (o : NmsOut) (pairs dropped invalid : Nat) :
    LRun :=
  let tile := !bitOf (leAt b 7 1) 5
  let out := leAt b 0x28 8
  match s.wrAll c tile (out + 64) (cleanBytes (o.recs.flatMap (nmsRecord boxes))) with
  | (s, some f) => ⟨s, 0, some f⟩
  | (s, none) =>
    let (s, f) := s.wrAll c tile out (cleanBytes (nmsHeader o.recs.length pairs dropped invalid o.capped 1))
    ⟨s, 0, f⟩

/-- NMS to its end. -/
def State.runNms (s : State) (c g : Nat) (b : List Byte) : LRun :=
  match nmsCheck b with
  | some e => ⟨s, 0, some (e, 0)⟩
  | none =>
    match s.wrAll c (!bitOf (leAt b 7 1) 5) (leAt b 0x28 8) (cleanBytes (zeroBytes 64)) with
    | (s, some f) => ⟨s, 0, some f⟩
    | (s, none) =>
      let s := s.nmsOpen c b
      match s.nmsCands c b (leAt b 0 4) 0 [] 0 with
      | (s, .error f) => ⟨s, 0, some f⟩
      | (s, .ok (cands, f1)) =>
        let ranked := sortBy candBefore cands
        let kept := ranked.take (leAt b 0xC 4)
        match s.nmsBoxes c b (kept.foldl (fun l p => insertNat p.box l) []) [] 0 with
        | (s, .error f) => ⟨s.raiseFlags c g f1, 0, some f⟩
        | (s, .ok (boxes, f2)) =>
          let ok := fun (p : Cand) => boxValid (leAt b 6 1) (fmGetD [] boxes p.box)
          let valid := kept.filter ok
          let o := nmsSuppress b boxes valid
          (s.raiseFlags c g (f1 ||| f2 ||| o.flags)).nmsWrite c b boxes o ranked.length (ranked.length - kept.length)
            (kept.length - valid.length)

/-! Completion and stop (R244, R252 to R255). -/

/-- Bytes of the parameter block of a long instruction. -/
def blockLen (w : Nat) : Nat := if isLong 0x3E 1 w then 128 else 64

/-- The routine at the head of the queue runs to the element given, or to its end; a block that is poisoned or leaves the
tile store faults before it starts. -/
def State.runLong (s : State) (c : Nat) (op : QOp) (stop : Nat) : LRun :=
  let e0 := (s.group c op.group).resume
  let n := blockLen op.word
  if op.x + n > tsTop then ⟨s, e0, some (excBOUNDS, op.x)⟩
  else if s.tsBad c op.x n then ⟨s, e0, some (excPOISON, op.x)⟩
  else
    let b := s.tsBytes c op.x n
    match wOp op.word, wFn op.word with
    | 0x3C, 0 => s.runSort c b
    | 0x3C, _ => s.runTopk c op.x b e0 stop
    | 0x3D, 0 => s.runGs c op.group op.x b false e0 stop
    | 0x3D, _ => s.runGs c op.group op.x b true e0 stop
    | 0x3E, 0 => s.runAttn c op.group b e0 stop
    | _, _ => s.runNms c op.group b

/-- SORT and NMS are not element-restartable. -/
def restartableOp (w : Nat) : Bool := !(isLong 0x3C 0 w || isLong 0x3E 1 w)

/-- A fault that is reported before the routine starts leaves RESUME unchanged. -/
def beforeStart (f : Nat × Nat) (e0 next : Nat) : Bool := (f.1 == excDESC || f.1 == excBOUNDS) && e0 == next

/-- The long routine at the head of a cell's queue ends: at its end RESUME is 0 and PC is past it; at a fault RESUME names
the element, and the fault is pending. -/
def State.longDone (s : State) (c : Nat) : State :=
  match (s.cell c).lq with
  | [] => s
  | op :: rest =>
    let r := s.runLong c op (2 ^ 64)
    let s := r.st.modCell c fun x => { x with lq := rest }
    let q := s.group c op.group
    let s := match r.fault with
      | none => s.setGroup c op.group { q.past with resume := 0, wait := .none }
      | some f =>
        let keep := beforeStart f (s.group c op.group).resume r.next
        (s.setGroup c op.group { q with resume := if restartableOp op.word then r.next else if keep then q.resume else 0 }).opFault c
          op f.1 f.2
    s.qDone c op.group .long

def execLongRoutineComplete (cell : Fin 256) (s : State) : Host.Outcome State Fault Refusal := .next (s.longDone cell)

/-- Open values where an abandoned SORT or NMS may have written (R254). -/
def State.longOpen (s : State) (c : Nat) (op : QOp) : State :=
  let b := s.tsBytes c op.x (blockLen op.word)
  if isLong 0x3C 0 op.word then (if (sortCheck b).isNone then s.sortOpen c b else s)
  else if (nmsCheck b).isNone then
    let s := (s.nmsOpen c b).openRange c (!bitOf (leAt b 7 1) 5) (leAt b 0x28 8 + 64) (48 * leAt b 0x62 2)
    (s.openRange c (!bitOf (leAt b 7 1) 5) (leAt b 0x28 8) 20)
  else s

/-- Every long routine of a cell stops (R253): the running one at the first element boundary at or after the one given, the
waiting ones before their first element; their groups stand at the instruction. -/
def State.stopLong (s : State) (c done : Nat) : State :=
  match (s.cell c).lq with
  | [] => s
  | op :: rest =>
    let s :=
      if restartableOp op.word then
        let r := s.runLong c op done
        let q := r.st.group c op.group
        let s := r.st.setGroup c op.group { q with resume := r.next, wait := .none, lq := q.lq - 1 }
        match r.fault with
        | some f => s.opFault c op f.1 f.2
        | none => s
      else
        let s := s.longOpen c op
        let q := s.group c op.group
        s.setGroup c op.group { q with resume := 0, wait := .none, lq := q.lq - 1 }
    let s := rest.foldl (fun s o =>
      let q := s.group c o.group
      s.setGroup c o.group { q with wait := .none, lq := q.lq - 1 }) s
    s.modCell c fun x => { x with lq := [] }

end Sys2Proof.Machine
end

