-- ==== Sys2Proof/Machine/CellImage.lean ====
section
/-! DEFINITION. Kernel loading, launch, and the context image of a cell (05_cells.md R155 to R162; 06_cell_isa.md R185,
R213). -/

namespace Sys2Proof.Machine

/-! Kernel descriptor and code (R155, R156). -/

/-- A kernel descriptor keeps R155. -/
def kdescOk (b : List Byte) : Bool :=
  let regs := leAt b 0x12 1
  let size := leAt b 8 4
  let entry := leAt b 0xC 4
  let g := leAt b 0x10 2
  decide (leAt b 0 8 < 2 ^ 52 ∧ leAt b 0 8 % 8 = 0 ∧ size % 8 = 0 ∧ 8 ≤ size ∧ size ≤ 16777216 ∧ entry % 8 = 0 ∧ entry < size) &&
    [16, 20, 24, 28, 32].contains regs && decide (1 ≤ g ∧ g ≤ min 128 (131072 / (64 * max 1 regs)) ∧ leAt b 0x13 1 < 2) &&
    zeroAt b 0x20 32

/-- The physical address of a code byte, without recording a fault: none where the fetch would fail. -/
def State.probe (s : State) (i : Nat) (va : Nat) : Option Nat :=
  match s.walkPage i 3 (va / 4096 % 2 ^ 52) false with
  | .ok (p, _) =>
    let pa := 4096 * p + va % 4096
    if s.ownOk i pa && (s.addrKind pa).isStorage && decide (s.mapAnswer (mCell 0) false pa = .served) then some pa else none
  | .error _ => none

/-- The code words of a kernel that are not 0, and its 4 KiB pages that cannot be fetched. A code page is one of the
code itself, so its bytes may lie in two pages of memory. -/
def State.codeOf (s : State) (c : Nat) (b : List Byte) : List (Nat × Nat) × List Nat :=
  let i := s.cellInst c
  let base := leAt b 0 8
  let n := leAt b 8 4 / 8
  let ws := (List.range n).map fun k =>
    (k, match s.probe i (base + 8 * k) with
      | some pa => if s.poisoned pa 8 then none else some (s.mnat pa 8)
      | none => none)
  (ws.filterMap fun p => match p.2 with | some v => if v = 0 then none else some (p.1, v) | none => none,
    ws.foldl (fun l p => if p.2.isNone then insertNat (p.1 / 512) l else l) [])

/-- The descriptor at an address and the first code line: the bytes, or the CEL_ERR bit that names the failure (2 KDESC,
3 FETCH). -/
def State.fetchKernel (s : State) (c addr : Nat) : State × Except Nat (List Byte) :=
  match s.rdV (s.cellInstOp c) (mCell c) 1 addr 64 with
  | (s, .error _) => (s, .error 3)
  | (s, .ok (b, bad)) =>
    if bad then (s, .error 3)
    else if !kdescOk b then (s, .error 2)
    else
      match s.rdV (s.cellInstOp c) (mCell c) 3 (leAt b 0 8) 8 with
      | (s, .error _) => (s, .error 3)
      | (s, .ok (_, bad)) => if bad then (s, .error 3) else (s, .ok b)

/-- The kernel takes its place in the cell. -/
def State.takeKernel (s : State) (c addr : Nat) (b : List Byte) : State :=
  let (code, bad) := s.codeOf c b
  s.modCell c fun x => { x with kaddr := addr, desc := b, code := code, codeBad := bad }

/-! Launch (R157, R185). -/

/-- The state of group g at launch. -/
def launchGroup (x : CellS) (g : Nat) : CGroup :=
  let sr := ((List.range 4).map fun k => (4 + k, x.args.getD k 0)).filter fun p => p.2 ≠ 0
  { CGroup.reset with
    run := 1, pc := x.entry,
    s := ([(1, x.param), (2, g), (3, x.ngroups)].filter fun p => p.2 ≠ 0) ++ sr,
    t := [(0, List.range 64), (1, (List.range 64).map fun l => g * 64 + l)] }

/-- A task is launched: every group at ENTRY, tiles empty, flags 0, no exception captured (R143, R165, R223). -/
def State.launch (s : State) (c : Nat) (args : List Nat) : State :=
  let s := s.modCell c fun x => { x with args := args }
  let x := s.cell c
  let s := s.setCell c { x with
    groups := (List.range x.ngroups).map fun g => (g, launchGroup x g)
    acc := [⟨0, []⟩, ⟨0, []⟩, ⟨0, []⟩, ⟨0, []⟩], async := [], drain := 0, elapsed := 0, load := 0 }
  let s := (List.range 128).foldl (fun s g => s.setWord (rAflags c g) 0) s
  ((s.setBit (rCell c 0x1C) 31 false).enter c csRUNNING).showLive c

/-! The context image (R159, R162). -/

def imgSize : Nat := 0x2A0000
def imgMagic : Nat := 0x5843485A

/-- Bytes with one poison mark. -/
def markBytes (bad : Bool) (l : List Byte) : List (Byte × Bool) := l.map fun b => (b, bad)

/-- The wait condition word of a group (R213). -/
def waitWord (q : CGroup) : Nat :=
  (match q.wait with | .barrier b => 1 + b * 16 | _ => 0) + 2 ^ 16 * (q.arrived % 2 ^ 16)

/-- Group state, 64 bytes. -/
def State.imgGroup (s : State) (c g : Nat) : List (Byte × Bool) :=
  let q := s.group c g
  markBytes false (leBytes 8 q.pc ++ leBytes 8 q.resume ++ leBytes 4 (s.word (rAflags c g)) ++ leBytes 4 q.run ++
    leBytes 8 (waitWord q) ++ zeroBytes 32)

/-- Predicate bytes of a group. -/
def imgPreds (q : CGroup) : List (Byte × Bool) :=
  (List.range 64).map fun l =>
    (BitVec.ofNat 8 ((List.range 8).foldl (fun v n => v + (if bitOf (q.pred n) l then 2 ^ n else 0)) 0), bitOf q.pBad l)

def imgScalars (q : CGroup) : List (Byte × Bool) := (List.range 32).flatMap fun n => markBytes (q.sbad n) (leBytes 8 (q.sreg n))
def imgTds (q : CGroup) : List (Byte × Bool) := (List.range 16).flatMap fun n => markBytes (bitOf q.tdBad n) (leBytes 16 (q.tdesc n))

/-- An accumulator element, 32 bytes. -/
def imgAcc (mode : Nat) (e : AccEl) : List (Byte × Bool) :=
  markBytes (bitOf e.flags 3) ((if mode = 1 then leBytes 16 (ofSigned 128 e.a) else leBytes 4 e.f ++ zeroBytes 12) ++
    leBytes 2 (if mode = 1 then ofSigned 16 e.w else 0) ++ leBytes 1 e.flags ++ leBytes 1 mode ++ zeroBytes 12)

def imgTile (t : AccTile) : List (Byte × Bool) := t.all.flatMap (imgAcc t.mode)

/-- The thread registers of a group. -/
def imgThreads (nregs : Nat) (q : CGroup) : List (Byte × Bool) :=
  (List.range nregs).flatMap fun n => (List.range 64).flatMap fun l =>
    markBytes (bitOf (q.tbad n) l) (leBytes 4 ((q.treg n).getD l 0))

/-- A section filled with zeros to a length. -/
def padTo (n : Nat) (l : List (Byte × Bool)) : List (Byte × Bool) := l ++ markBytes false (zeroBytes (n - l.length))

/-- Everything behind the header. -/
def State.imgBody (s : State) (c : Nat) : List (Byte × Bool) :=
  let x := s.cell c
  let gs := (List.range 128).map fun g => s.group c g
  ((List.range 128).flatMap fun g => s.imgGroup c g) ++ gs.flatMap imgPreds ++ markBytes false (zeroBytes 0x3000) ++
    gs.flatMap imgScalars ++ gs.flatMap imgTds ++ markBytes false (zeroBytes 0x8000) ++ padTo 0x80000 (x.acc.flatMap imgTile) ++
    padTo 0x80000 ((gs.take x.ngroups).flatMap (imgThreads x.nregs)) ++
    (List.range (tsTop / 8)).flatMap fun k => markBytes (s.tsBad c (8 * k) 8) (s.tsBytes c (8 * k) 8)

/-- The header with a CRC field. -/
def State.imgHeader (s : State) (c crc : Nat) : List Byte :=
  let x := s.cell c
  leBytes 4 imgMagic ++ leBytes 2 1 ++ leBytes 1 x.nregs ++ leBytes 1 (leAt x.desc 0x13 1) ++ leBytes 2 x.ngroups ++ zeroBytes 2 ++
    leBytes 4 imgSize ++ leBytes 8 x.kaddr ++ leBytes 8 (s.elapsed c) ++ leBytes 4 crc ++ zeroBytes 4060

/-- An image written at a base: body, header without MAGIC, MAGIC last; the flag says that every write succeeded. -/
def State.writeParts (s : State) (c base : Nat) (body hdr : List (Byte × Bool)) : State × Bool :=
  match s.wrAll c false (base + 0x1000) body with
  | (s, some _) => (s, false)
  | (s, none) =>
    match s.wrAll c false (base + 4) (hdr.drop 4) with
    | (s, some _) => (s, false)
    | (s, none) =>
      let (s, f) := s.wrAll c false base (hdr.take 4)
      (s, f.isNone)

/-- The image of a cell is written where CEL_IMG says, its checksum over header and body. -/
def State.writeImage (s : State) (c : Nat) : State × Bool :=
  let body := s.imgBody c
  let crc := crc32c (s.imgHeader c 0 ++ body.map Prod.fst)
  s.writeParts c (s.word64 (rCell c 0x10)) body (cleanBytes (s.imgHeader c crc))

/-- MAGIC written as 0 when a SAVE is accepted (R214). -/
def State.clearMagic (s : State) (c : Nat) : State := (s.wrAll c false (s.word64 (rCell c 0x10)) (cleanBytes (zeroBytes 4))).1

/-! Reading an image. -/

def imgNat (l : List (Byte × Bool)) (o n : Nat) : Nat := leAt (l.map Prod.fst) o n
def imgBad (l : List (Byte × Bool)) (o n : Nat) : Bool := ((l.drop o).take n).any fun p => p.2

/-- A group from the sections of an image: g of the group state, predicates, scalars, descriptors and thread registers. -/
def groupOfImage (l : List (Byte × Bool)) (nregs g : Nat) : CGroup :=
  let o := 0x1000 + g * 64
  let ww := imgNat l (o + 24) 8
  let preds := (l.drop (0x3000 + g * 64)).take 64
  let sc := (l.drop (0x8000 + 256 * g)).take 256
  let td := (l.drop (0x10000 + 256 * g)).take 256
  let th := (l.drop (0xA0000 + 256 * (g * nregs))).take (256 * nregs)
  { run := imgNat l (o + 20) 4, pc := imgNat l o 8, resume := imgNat l (o + 8) 8,
    s := (List.range 32).filterMap fun n => if n = 0 ∨ imgNat sc (8 * n) 8 = 0 then none else some (n, imgNat sc (8 * n) 8),
    sBad := (List.range 32).foldl (fun m n => setMask m n (imgBad sc (8 * n) 8)) 0,
    td := (List.range 16).map fun n => (n, imgNat td (16 * n) 16),
    tdBad := (List.range 16).foldl (fun m n => setMask m n (imgBad td (16 * n) 16)) 0,
    t := (List.range nregs).map fun n => (n, (List.range 64).map fun k => imgNat th ((n * 64 + k) * 4) 4),
    tBad := (List.range nregs).map fun n => (n, maskOf fun k => imgBad th ((n * 64 + k) * 4) 4),
    p := (List.range 8).map fun n => (n, maskOf fun k => bitOf (imgNat preds k 1) n),
    pBad := maskOf fun k => imgBad preds k 1,
    wait := if ww % 16 = 1 then .barrier (bitsOf ww 7 4) else .none,
    arrived := bitsOf ww 31 16, tq := 0, mq := 0, lq := 0, fs := 0, fl := 0 }

/-- An accumulator tile from its 128 KiB. -/
def tileOfImage (l : List (Byte × Bool)) : AccTile :=
  let mode := imgNat l 19 1
  ⟨mode, (List.range 4096).map fun e =>
    let b := (l.drop (e * 32)).take 32
    let fl := imgNat b 18 1 % 16
    let fl := if imgBad b 0 32 then fl ||| 8 else fl
    if mode = 1 then ⟨toSigned 128 (imgNat b 0 16), toSigned 16 (imgNat b 16 2), fl, 0⟩
    else { AccEl.zero with f := imgNat b 0 4, flags := fl }⟩

/-- The CEL_ERR bit that an image fails on, against the descriptor of its kernel (R161): 4 CTX_FMT, 5 CTX_CRC. -/
def imgCheck (l : List (Byte × Bool)) (b : List Byte) : Option Nat :=
  let raw := l.map Prod.fst
  if imgBad l 0 0x1000 || imgNat l 0 4 ≠ imgMagic || imgNat l 4 2 ≠ 1 || imgNat l 0xC 4 ≠ imgSize ||
      imgNat l 6 1 ≠ leAt b 0x12 1 || imgNat l 8 2 ≠ leAt b 0x10 2 then some 4
  else if crc32c (raw.take 0x20 ++ zeroBytes 4 ++ raw.drop 0x24) ≠ imgNat l 0x20 4 then some 5
  else none

/-- The cell takes the state of an image. -/
def State.applyImage (s : State) (c : Nat) (l : List (Byte × Bool)) : State :=
  let x := s.cell c
  let gs := (List.range x.ngroups).map fun g => (g, groupOfImage l x.nregs g)
  let s := s.setCell c { x with
    groups := gs, acc := (List.range 4).map fun n => tileOfImage ((l.drop (0x20000 + 0x20000 * n)).take 0x20000),
    tq := [], mq := [], lq := [], async := [], drain := 0, elapsed := imgNat l 0x18 8 }
  let s := (List.range 128).foldl (fun s g => s.setWord (rAflags c g) (imgNat l (0x1000 + g * 64 + 16) 4 % 32)) s
  (s.wrAll c true 0 (l.drop 0x120000)).1

end Sys2Proof.Machine
end

