-- ==== Sys2Proof/Machine/CellCtl.lean ====
section
/-! DEFINITION. Control of cells: kernel writes, save and restore, abort, halts, the watchdog, substitution and maintenance
(05_cells.md R156 to R178; 06_cell_isa.md R212, R214). -/

namespace Sys2Proof.Machine

/-- Writers and readers of the CEL block (R176). -/
def State.celWriter (s : State) (m : Master) : Bool := s.sysWriter m || m == mClicker
def celReader (m : Master) : Bool := sysReader m || m == mClicker

/-! Kernel loading. -/

/-- States in which a kernel write is accepted (R157). -/
def kernelStates (st : Nat) : Bool := st == csIDLE || st == csLOADED || st == csHALTED

/-- A kernel write: why 1 a plain write, 2 a task that waits to be launched. -/
def State.kernelWrite (s : State) (c addr why : Nat) : State :=
  let st := s.cellState c
  if kernelStates st then
    let s := s.setWord64 (rCell c 8) (addr / 64 % 2 ^ 46 * 64)
    (s.modCell c fun x => { x with load := why, texs := [] }).enter c csLOADING
  else s.cellErr c (if st = csABSENT || st = csOFF then 1 else 0)

def execKernelWrite (m : Master) (cell : Fin 256) (addr : BitVec 64) (s : State) : Host.Outcome State Fault Refusal :=
  .next (if s.celWriter m then (s.kernelWrite cell addr.toNat 1).respOk [] else s.refuse m 2 (rCell cell 8))

/-- The load ends (R156): the kernel is in place, and a waiting task is launched; or the cell is IDLE and reports
KERNEL_INVALID. -/
def State.loadDone (s : State) (c : Nat) : State :=
  if s.cellState c ≠ csLOADING then s
  else
    match s.fetchKernel c (s.word64 (rCell c 8)) with
    | (s, .error bit) =>
      (((s.cellErr c bit).modCell c fun x => { x with load := 0, groups := [] }).enter c csIDLE).report c 3
    | (s, .ok b) =>
      let why := (s.cell c).load
      let s := (s.takeKernel c (s.word64 (rCell c 8)) b).modCell c fun x => { x with load := 0, groups := [] }
      let s := s.enter c csLOADED
      if why = 2 then s.launch c (s.cell c).args else s

def execKernelLoadDone (cell : Fin 256) (s : State) : Host.Outcome State Fault Refusal := .next (s.loadDone cell)

/-- Every group has ended and the cell is drained (R157). -/
def execTaskComplete (cell : Fin 256) (s : State) : Host.Outcome State Fault Refusal :=
  .next (if s.cellState cell = csDRAINING && (s.cell cell).drain = 1 && s.drained cell && (s.cell cell).async.isEmpty then
    ((s.modCell cell fun x => { x with drain := 0 }).enter cell csLOADED).report cell 0 else s)

/-! Stops (R160, R177, R212, R253). Where a running routine stops is an open value. -/

/-- Every group of a running task stops for a reason, and the cell drains. -/
def State.stopTask (s : State) (c why : Nat) : State :=
  let (done, s) := s.takeFree
  ((s.stopLong c done).drainFor c why).afterDrain c

/-- SAVE (R160). -/
def State.saveReq (s : State) (c : Nat) : State :=
  let st := s.cellState c
  if st = csSUBST then s.modCell c fun x => { x with heldCtrl := x.heldCtrl ||| 1 }
  else if st = csRUNNING then (s.clearMagic c).stopTask c 2
  else if st = csLOADED then (s.clearMagic c).enter c csSAVING
  else s.cellErr c 1

def execSave (m : Master) (cell : Fin 256) (s : State) : Host.Outcome State Fault Refusal :=
  .next (if s.celWriter m then (s.saveReq cell).respOk [] else s.refuse m 2 (rCell cell 4))

/-- The image is written with MAGIC last, and the cell is IDLE (R160). -/
def State.saveDone (s : State) (c : Nat) : State :=
  if s.cellState c ≠ csSAVING then s
  else
    let (s, ok) := s.writeImage c
    let s := if ok then s else s.cellErr c 3
    ((s.modCell c fun x => { x with groups := [], drain := 0 }).enter c csIDLE).showLive c

def execSaveComplete (cell : Fin 256) (s : State) : Host.Outcome State Fault Refusal := .next (s.saveDone cell)

/-- RESTORE (R161). -/
def State.restoreReq (s : State) (c : Nat) : State :=
  let st := s.cellState c
  if st = csSUBST then s.modCell c fun x => { x with heldCtrl := x.heldCtrl ||| 2 }
  else if st = csIDLE || st = csLOADED then s.enter c csRESTORING
  else s.cellErr c 1

def execRestore (m : Master) (cell : Fin 256) (s : State) : Host.Outcome State Fault Refusal :=
  .next (if s.celWriter m then (s.restoreReq cell).respOk [] else s.refuse m 2 (rCell cell 4))

/-- A restore that fails: CEL_ERR shows why, and the task is reported RESTORE_FAILED. -/
def State.restoreFail (s : State) (c bit : Nat) : State :=
  (((s.cellErr c bit).modCell c fun x => { x with groups := [] }).enter c csIDLE).report c 4

/-- The restore ends (R161): the groups resume where they stopped, and an image without a task leaves the cell LOADED. -/
def State.restoreDone (s : State) (c : Nat) : State :=
  if s.cellState c ≠ csRESTORING then s
  else
    match s.rdAll c false (s.word64 (rCell c 0x10)) imgSize with
    | (s, .error _) => s.restoreFail c 3
    | (s, .ok l) =>
      if imgBad l 0 0x1000 || imgNat l 0 4 ≠ imgMagic then s.restoreFail c 4
      else
        match s.fetchKernel c (imgNat l 0x10 8) with
        | (s, .error bit) => s.restoreFail c bit
        | (s, .ok b) =>
          match imgCheck l b with
          | some bit => s.restoreFail c bit
          | none =>
            let s := ((s.takeKernel c (imgNat l 0x10 8) b).applyImage c l).setBit (rCell c 0x1C) 31 false
            let x := s.cell c
            if x.groups.any fun p => decide (p.2.run ≠ 0) then
              let s := (s.enter c csRUNNING).showLive c
              if (s.cell c).liveCount = 0 then s.drainFor c 1 else s
            else (s.enter c csLOADED).showLive c

def execRestoreComplete (cell : Fin 256) (s : State) : Host.Outcome State Fault Refusal := .next (s.restoreDone cell)

/-- ABORT (R177). -/
def State.abortReq (s : State) (c : Nat) : State :=
  let st := s.cellState c
  if st = csRUNNING then s.stopTask c 3
  else if st = csHALTED then s.enter c csLOADED
  else s.cellErr c 1

def execAbort (m : Master) (cell : Fin 256) (s : State) : Host.Outcome State Fault Refusal :=
  .next (if s.celWriter m then (s.abortReq cell).respOk [] else s.refuse m 2 (rCell cell 4))

/-- ACK (R177). -/
def State.ackReq (s : State) (c : Nat) : State := if s.cellState c = csHALTED then s.enter c csLOADED else s.cellErr c 1

def execAck (m : Master) (cell : Fin 256) (s : State) : Host.Outcome State Fault Refusal :=
  .next (if s.celWriter m then (s.ackReq cell).respOk [] else s.refuse m 2 (rCell cell 4))

/-- The next asynchronous fault of a cell is raised (R163). -/
def State.raiseAsync (s : State) (c : Nat) : State :=
  match (s.cell c).async with
  | [] => s
  | e :: r => (s.modCell c fun x => { x with async := r }).asyncExc c e

def execAsyncException (cell : Fin 256) (s : State) : Host.Outcome State Fault Refusal := .next (s.raiseAsync cell)

/-- After an exception the cell finishes draining, enters HALTED and reports EXCEPTION (R163). -/
def State.haltCell (s : State) (c : Nat) : State :=
  if s.cellState c = csDRAINING && (s.cell c).drain = 4 then
    let s := if (s.cell c).lq.isEmpty then s else
      let (done, s) := s.takeFree
      s.stopLong c done
    if s.drained c && (s.cell c).async.isEmpty then
      ((s.modCell c fun x => { x with drain := 0 }).enter c csHALTED).report c 1
    else s
  else s

def execCellHalt (cell : Fin 256) (s : State) : Host.Outcome State Fault Refusal := .next (s.haltCell cell)

/-- The kernel watchdog (R164): ELAPSED reaches WDOG times 1,024 while the cell is RUNNING. -/
def State.watchdog (s : State) (c : Nat) : State :=
  let x := s.cell c
  let f := s.panelMHz c
  if s.cellState c = csRUNNING && x.wdog ≠ 0 && f ≠ 0 then
    let s := s.timeTo (x.since + ceilDiv (4000 * (1024 * x.wdog - x.elapsed)) f)
    match x.groups.find? fun p => decide (p.2.run = 1) with
    | some (g, q) => s.asyncExc c ⟨excWDOG, g, q.pc, match x.fetch q.pc with | .ok w => w | .error _ => 0, 0⟩
    | none => s
  else s

def execWatchdog (cell : Fin 256) (s : State) : Host.Outcome State Fault Refusal := .next (s.watchdog cell)

/-! Substitution (R168 to R174). -/

def State.phys (s : State) (c : Nat) : Nat := s.fld (rCell c 0) 8 4
def rPanelSt (p : Nat) : Nat := rCel (0x100 + p * 4)
def State.physState (s : State) (p i : Nat) : Nat := s.fld (rPhys p i) 2 0
def State.setPhysState (s : State) (p i st : Nat) : State := s.setFld (rPhys p i) 2 0 st

/-- The spare shown for a panel: its lowest physical cell that is SPARE, 0x1F with none. -/
def State.showSpare (s : State) (p : Nat) : State :=
  s.setFld (rPanelSt p) 4 0 (((List.range 17).find? fun i => decide (s.physState p i = 1)).getD 0x1F)

/-- A logical cell becomes ABSENT (R157, R173). -/
def State.makeAbsent (s : State) (c : Nat) : State :=
  let s := (s.enter c csABSENT).setFld (rCell c 0) 8 4 0x1F
  let s := s.setBit (rPanelSt (c / 16)) (16 + c % 16) true
  s.orWord rCelIrq 4

/-- The asked-for substitutions that are the first of their panel, beside none that copies: they are in progress too (R170,
R174). A cell that failed with AUTO 0 waits for a request and counts neither as in progress nor as queued. -/
def State.leadSubs (s : State) : List CellSub × Nat :=
  let act := s.cel.waiting.filter fun x => decide (x.kind = 2) || decide (s.cellState x.cell ≠ csABSENT)
  let free (x : CellSub) : Bool := !(s.cel.subs.any fun p => decide (p.1 = x.cell / 16))
  (act.foldl (fun l x => if free x && !(l.any fun y => decide (y.cell / 16 = x.cell / 16)) then l ++ [x] else l) [], act.length)

/-- CEL_SUB_STATUS shows the substitutions in progress and waiting (R176). -/
def State.showSubs (s : State) : State :=
  let r := rCel 0x10
  let (lead, n) := s.leadSubs
  let s := s.setBit r 0 (!s.cel.subs.isEmpty || !lead.isEmpty)
  let s := s.setBit r 1 (decide (lead.length < n))
  match (s.cel.subs.map fun p => p.2.cell) ++ lead.map fun x => x.cell with
  | c :: _ => s.setFld r 15 8 c
  | [] => s

/-- Time of a substitution record. -/
def State.subTime (s : State) : Nat := s.recordTime.1

/-- A substitution record is written (R178), counted, and shown. -/
def State.subRecord (s : State) (x : CellSub) (kind incarn : Nat) : State :=
  let q := s.cel.srecs
  let rcd := leBytes 4 q ++ leBytes 1 x.cell ++ leBytes 1 x.oldPhys ++ leBytes 1 x.newPhys ++ leBytes 1 incarn ++
    leBytes 1 kind ++ leBytes 1 x.trigger ++ leBytes 2 x.flags ++ leBytes 4 x.poisoned ++ leBytes 8 x.start ++ leBytes 8 s.subTime
  let s := (s.setRegBytes (rCel (0x800 + q % 16 * 32)) rcd).setWord (rCel 0x18) q
  let s := { s with cel.srecs := (q + 1) % 2 ^ 32 }
  (s.bump (rCel 0x14)).orWord rCelIrq 2

/-- The incarnation of a logical cell is raised by 1, wrapping (R169). -/
def State.raiseIncarn (s : State) (c : Nat) : State := s.setFld (rCell c 0) 31 24 (s.fld (rCell c 0) 31 24 + 1)

/-- A task is lost or to be restarted when its cell fails in one of these states. -/
def hadTask (x : CellS) (st : Nat) : Bool :=
  st == csRUNNING || st == csDRAINING || (st == csSAVING && x.groups.any fun p => decide (p.2.run = 1))

/-- Everything that ran on a cell is gone. -/
def State.dropWork (s : State) (c : Nat) : State :=
  let s := (s.modCell c fun x => { x with groups := [], tq := [], mq := [], lq := [], async := [], drain := 0 }).showLive c
  { s with cel.lace := s.cel.lace.filter fun p => !(decide (c * 4 ≤ p.1) && decide (p.1 < c * 4 + 4) && decide (p.1 < 1024)) }

/-- A physical cell has failed or is to be replaced at once (R170, R174): it is fenced, the incarnation raised and accesses
held; the substitution waits for its panel, or with AUTO 0 for a request. -/
def State.failCell (s : State) (c trigger src : Nat) : State :=
  let st := s.cellState c
  if st = csABSENT || st = csOFF || st = csSUBST then s
  else
    let p := s.phys c
    let auto := s.bit (rCel 8) 0 || trigger == 0
    let x := s.cell c
    let s := (s.faultAt src 3 (mCell c) c trigger 0 0).setPhysState (c / 16) p 2
    let had := hadTask x st
    let s := (s.raiseIncarn c).dropWork c
    let sub : CellSub := ⟨c, 1, trigger, p, 0x1F, s.subTime, 0, if had then csRUNNING else st, 0⟩
    let s := { s with cel.held := insertNat c s.cel.held, cel.waiting := s.cel.waiting ++ [sub] }
    if auto then (s.enter c csSUBST).showSubs
    else
      let s := if had then s.report c 5 else s
      (s.makeAbsent c).showSubs

/-- A planned substitution is asked for; one that waits or runs already stays. A count at its limit asks only with AUTO 1,
and is recorded either way (R166, R174). -/
def State.planSub (s : State) (c trigger cls : Nat) : State :=
  let st := s.cellState c
  if st = csABSENT || st = csOFF || st = csSUBST || s.cel.waiting.any fun x => decide (x.cell = c) then s
  else
    let s := if trigger = 0 then s else s.faultAt 0x11 cls (mCell c) c trigger 0 0
    if trigger ≠ 0 && !s.bit (rCel 8) 0 then s
    else { s with cel.waiting := s.cel.waiting ++ [CellSub.mk c 2 trigger (s.phys c) 0x1F s.subTime 0 st 0] }.showSubs

/-- A group that waits on no sync or phase event (R166). -/
def CGroup.stuck (q : CGroup) : Bool :=
  match q.wait with
  | .none => true
  | .long => true
  | _ => false

/-- A hang (R166): RUNNING, with a live group that waits for nothing, and HANG not 0. -/
def execCellHang (cell : Fin 256) (s : State) : Host.Outcome State Fault Refusal :=
  let stuck := (s.cell cell).groups.any fun p =>
    decide (p.2.run = 1) && p.2.stuck
  .next (if s.cellState cell = csRUNNING && s.fld (rCel 8) 31 24 ≠ 0 && stuck then s.failCell cell 2 0x11 else s)

def execControlCheckerFail (cell : Fin 256) (s : State) : Host.Outcome State Fault Refusal := .next (s.failCell cell 1 0x11)

/-- The hourly clear of the CE and UE counts (R166). -/
def execErrorCountClear (s : State) : Host.Outcome State Fault Refusal :=
  .next ((List.range (16 * 17)).foldl (fun s k => s.setFld (rCel (0x200 + k * 4)) 23 8 0) s)

/-- CE and UE of the cell's storage (R166): 1 CE, 2 UE; the counts reach their limits once. -/
def State.countStorage (s : State) (c kind : Nat) : State :=
  let r := rPhys (c / 16) (s.phys c)
  if kind = 1 then
    let s := s.bumpSat r 15 8
    let s := s.faultAt 0x11 2 (mCell c) c 0 0 0
    if s.fld (rCel 8) 15 8 ≠ 0 && s.fld r 15 8 = s.fld (rCel 8) 15 8 then s.planSub c 4 1 else s
  else
    let s := s.bumpSat r 23 16
    let s := s.faultAt 0x11 1 (mCell c) c 0 0 0
    if s.fld (rCel 8) 23 16 ≠ 0 && s.fld r 23 16 = s.fld (rCel 8) 23 16 then s.planSub c 3 3 else s

/-- An error in the storage of a cell: 0 none, 1 corrected or refetched, 2 a tile-store word, 3 a thread register of group
g, 4 an accumulator element, uncorrectable; n names which. -/
def State.storageErr (s : State) (c g kind n : Nat) : State :=
  match kind with
  | 0 => s
  | 1 => s.countStorage c 1
  | 2 =>
    let a := tsAddr c (n % (tsTop / 8) * 8)
    (s.memUE 4 a (mCell c) 1 0).countStorage c 2
  | 3 =>
    let q := s.group c g
    (s.setGroup c g { q with tBad := fmPut q.tBad (n / 64 % 32) (q.tbad (n / 64 % 32) ||| 2 ^ (n % 64)) }).countStorage c 2
  | _ =>
    let t := (s.cell c).tile (n / 4096 % 4)
    (s.setTile c (n / 4096 % 4) { t with els := modAt t.all (n % 4096) fun (e : AccEl) => { e with flags := e.flags ||| 8 } }).countStorage c 2

/-- MMA with an error of the cell's storage met on its way (R166). -/
def execMma (cell : Fin 256) (group : Fin 128) (err : Fin 5) (idx : BitVec 32) (s : State) : Host.Outcome State Fault Refusal :=
  .next ((s.storageErr cell group err idx.toNat).issueMma cell group)

/-- The waiting substitution of a cell, of a kind, when its panel has none running. -/
def State.waitingSub (s : State) (c kind : Nat) : Option CellSub :=
  if (s.cel.subs.any fun p => decide (p.1 = c / 16)) then none
  else s.cel.waiting.find? fun x => decide (x.cell = c) && decide (x.kind = kind)

def State.dropWaiting (s : State) (c : Nat) : State :=
  { s with cel.waiting := s.cel.waiting.filter fun x => decide (x.cell ≠ c) }

/-- A substitution that finds no spare, or whose spare fails its wake check: the logical cell is ABSENT (R173). -/
def State.subFails (s : State) (x : CellSub) (flags : Nat) : State :=
  let s := s.dropWaiting x.cell
  let s := if x.kind = 2 then (s.setPhysState (x.cell / 16) x.oldPhys 2).dropWork x.cell else s
  let s := if x.was = csRUNNING then s.report x.cell 5 else s
  let x := { x with newPhys := 0x1F, flags := x.flags + flags + (if x.was = csRUNNING then 16 else 0) }
  let s := (s.makeAbsent x.cell).subRecord x x.kind (s.fld (rCell x.cell 0) 31 24)
  (s.faultAt 0x12 3 (mCell x.cell) x.cell flags 0 0).showSubs

/-- The spare of a panel wakes; none where there is none, or where it fails its check (R170). -/
def State.wakeSpare (s : State) (x : CellSub) (wake : Bool) : State × Option Nat :=
  let p := x.cell / 16
  let sp := s.fld (rPanelSt p) 4 0
  if sp ≥ 17 then (s.subFails x 1, none)
  else if !wake then (((s.setPhysState p sp 4).showSpare p).subFails x 64, none)
  else (s, some sp)

/-- The failure substitution that waits for a cell runs: the spare wakes and the tile store is copied, words that cannot be
read poisoned, every word when the store is lost (R170). -/
def execFailureSubstitution (cell : Fin 256) (wake lost : Bool) (bad : List (BitVec 18)) (s : State) :
    Host.Outcome State Fault Refusal :=
  .next (match s.waitingSub cell 1 with
    | none => s
    | some x =>
      if s.cellState cell ≠ csSUBST then s
      else
        match s.wakeSpare x wake with
        | (s, none) => s
        | (s, some sp) =>
          let ws := if lost then List.range (tsTop / 8) else (bad.map fun b => b.toNat).filter fun w => decide (w < tsTop / 8)
          let s := ws.foldl (fun s w => s.poisonGran (tsAddr cell (8 * w)) (mCell cell)) s
          let n := (ws.foldl (fun l w => insertNat w l) []).length
          let x := { x with newPhys := sp, poisoned := n, flags := x.flags + (if n ≠ 0 then 2 else 0) + (if lost then 4 else 0) }
          { s.dropWaiting cell with cel.subs := fmPut s.cel.subs (cell / 16) x }.showSubs)

/-- The planned substitution that waits for a cell (R171): a running task stops and drains, then the context moves. -/
def execPlannedSubstitution (cell : Fin 256) (wake : Bool) (s : State) : Host.Outcome State Fault Refusal :=
  let c : Nat := cell
  .next (match s.waitingSub c 2 with
    | none => s
    | some x =>
      let st := s.cellState c
      let start (s : State) (was : Nat) : State :=
        let x := { x with was := was }
        match s.wakeSpare x wake with
        | (s, none) => s
        | (s, some sp) =>
          let s := { s with cel.held := insertNat c s.cel.held }
          let s := { s.dropWaiting c with cel.subs := fmPut s.cel.subs (c / 16) { x with newPhys := sp, flags := x.flags + 32 } }
          (s.enter c csSUBST).showSubs
      if st = csRUNNING then s.stopTask c 5
      else if st = csDRAINING && (s.cell c).drain = 5 && s.drained c && (s.cell c).async.isEmpty then start s csRUNNING
      else if st = csIDLE || st = csLOADED || st = csHALTED then start s st
      else s)

/-- The end of a substitution: the spare serves the logical ID, held accesses and requests go on, the task outcome is given
(R171 to R173). -/
def State.subDone (s : State) (c : Nat) : State :=
  match fmGet s.cel.subs (c / 16) with
  | none => s
  | some x =>
    if x.cell ≠ c then s
    else
      let p := c / 16
      let s := { s with cel.subs := fmDel s.cel.subs p, cel.held := s.cel.held.filter fun k => decide (k ≠ c) }
      let s := (s.setPhysState p x.oldPhys 2).setFld (rPhys p x.newPhys) 7 4 (c % 16)
      let s := (((s.setPhysState p x.newPhys 0).setFld (rCell c 0) 8 4 x.newPhys).setBit (rPanelSt p) (16 + c % 16) false).showSpare p
      let s := if x.kind = 2 then s.raiseIncarn c else s
      let restart := (s.cell c).restartable
      let (s, x) :=
        if x.kind = 2 then
          ((s.modCell c fun k => { k with drain := 0 }).enter c x.was, x)
        else if x.was = csRUNNING then
          let s := s.enter c csLOADED
          if restart then (s.report c 10, { x with flags := x.flags + 8 }) else (s.report c 5, { x with flags := x.flags + 16 })
        else (s.enter c x.was, x)
      let s := (s.subRecord x x.kind (s.fld (rCell c 0) 31 24)).showSubs
      let hc := (s.cell c).heldCtrl
      let s := s.modCell c fun k => { k with heldCtrl := 0 }
      let s := if bitOf hc 0 then s.saveReq c else s
      if bitOf hc 1 then s.restoreReq c else s

def execSubstitutionComplete (cell : Fin 256) (s : State) : Host.Outcome State Fault Refusal := .next (s.subDone cell)

/-- A write of CEL_SUB_REQ (R173, R174). A cell that is ABSENT because it failed with AUTO 0 is substituted now. -/
def State.subReq (s : State) (c : Nat) (force : Bool) : State :=
  let st := s.cellState c
  if st = csABSENT && (s.cel.waiting.any fun x => decide (x.cell = c ∧ x.kind = 1)) then
    let s := { s with cel.waiting := s.cel.waiting.map fun (x : CellSub) => if x.cell = c ∧ x.was = csRUNNING then { x with was := csLOADED } else x }
    ((s.enter c csSUBST).setBit (rPanelSt (c / 16)) (16 + c % 16) false).showSubs
  else if st = csABSENT || st = csOFF then s.cellErr c 1
  else if force then s.failCell c 0 0x12 else s.planSub c 0 1

def execSubReq (m : Master) (cell : Fin 256) (force : Bool) (s : State) : Host.Outcome State Fault Refusal :=
  .next (if s.sysWriter m then (s.subReq cell force).respOk [] else s.refuse m 2 (rCel 0xC))

/-! Maintenance (R175). -/

def State.maintStart (s : State) (p i : Nat) : State :=
  let r := rCel 0x20
  if s.bit r 0 then s.setBit r 2 true
  else
    let s := (s.setFld r 12 8 i).setFld r 7 4 p
    if i < 17 && s.physState p i = 2 then ((s.setFld r 2 0 1).setPhysState p i 3) else s.setFld r 2 0 4

def execMaintStart (m : Master) (panel : Fin 16) (phys : Fin 32) (s : State) : Host.Outcome State Fault Refusal :=
  .next (if s.sysWriter m then (s.maintStart panel phys).respOk [] else s.refuse m 2 (rCel 0x1C))

/-- The test ends: the cell fills an ABSENT logical cell, or becomes the spare, or is FAILED. -/
def State.maintDone (s : State) (pass : Bool) : State :=
  let r := rCel 0x20
  if !s.bit r 0 then s
  else
    let p := s.fld r 7 4
    let i := s.fld r 12 8
    let s := (s.setFld r 2 0 (if pass then 2 else 4)).orWord rCelIrq 0x10
    if !pass then s.setPhysState p i 4
    else
      match (List.range 16).find? fun j => decide (s.cellState (p * 16 + j) = csABSENT) with
      | none => (s.setPhysState p i 1).showSpare p
      | some j =>
        let c := p * 16 + j
        let s := (s.dropWaiting c).raiseIncarn c
        let s := ((s.setPhysState p i 0).setFld (rPhys p i) 7 4 j).setFld (rCell c 0) 8 4 i
        let s := (s.setBit (rPanelSt p) (16 + j) false).enter c (if s.panelGated p then csOFF else csIDLE)
        let s := { s with cel.held := s.cel.held.filter fun k => decide (k ≠ c) }
        s.subRecord ⟨c, 1, 5, 0x1F, i, s.subTime, 0, csABSENT, 0⟩ 1 (s.fld (rCell c 0) 31 24)

def execMaintDone (pass : Bool) (s : State) : Host.Outcome State Fault Refusal := .next (s.maintDone pass)

end Sys2Proof.Machine
end

