-- ==== Sys2Proof/Machine/Mhs.lean ====
section
/-! DEFINITION. Clickings as the Clicker's registers show them, and model images: their header and tables, their tags, the
SLC allocation, repair and installation (09_jobs_and_models.md R283 to R287, R301 to R310, R322). -/

namespace Sys2Proof.Machine

def rClc (o : Nat) : Nat := blkBase bCLC + o
def rClick (k o : Nat) : Nat := rClc (0x1000 + k * 0x80 + o)
def rRelSlot (n o : Nat) : Nat := rClc (0x40000 + n * 0x40 + o)
def rClcIrq : Nat := rClc 8

/-! Clickings. -/

def State.clickClass (s : State) (k : Nat) : Nat := s.fld (rClick k 0) 1 0
def State.clickInst (s : State) (k : Nat) : Nat := s.fld (rClick k 0) 7 2
def State.clickWant (s : State) (k : Nat) : Nat := s.fld (rClick k 0) 24 16
def State.clickPrio (s : State) (k : Nat) : Nat := s.fld (rClick k 0) 31 28
def State.clickPartner (s : State) (k : Nat) : Nat := s.fld (rClick k 0) 14 9
def State.clickState (s : State) (k : Nat) : Nat := s.fld (rClick k 4) 3 0
def State.setClickState (s : State) (k v : Nat) : State := s.setFld (rClick k 4) 3 0 v
def State.clickN (s : State) (k : Nat) : Nat := s.fld (rClick k 4) 12 4
def State.clickModel (s : State) (k : Nat) : Nat := s.fld (rClick k 4) 26 22
def State.clickBound (s : State) (k : Nat) : Bool := s.bit (rClick k 4) 27
def State.setLastSw (s : State) (k v : Nat) : State := s.setFld (rClick k 4) 31 28 v

/-- Masks of logical cells: reserved, and held now. -/
def State.clickRes (s : State) (k : Nat) : Nat := leNat (s.regBytes (rClick k 0x20) 32)
def State.clickNow (s : State) (k : Nat) : Nat := leNat (s.regBytes (rClick k 0x40) 32)

/-- The clicking that holds a cell. -/
def State.cellClick (s : State) (c : Nat) : Option Nat := (List.range 64).find? fun k => bitOf (s.clickNow k) c

/-- Cells that clickings hold. -/
def State.heldMask (s : State) : Nat := (List.range 64).foldl (fun m k => m ||| s.clickNow k) 0

/-- CLC_STATUS.FREE: cells that belong to no clicking. -/
def State.showFree (s : State) : State := s.setFld (rClc 4) 8 0 (256 - popCount 256 s.heldMask)

/-- The cells of clicking k become a mask. -/
def State.setNow (s : State) (k mask : Nat) : State :=
  ((s.setRegBytes (rClick k 0x40) (leBytes 32 mask)).setFld (rClick k 4) 21 13 (popCount 256 mask)).showFree

/-- A cell can work: it is neither ABSENT nor OFF. -/
def State.cellUsable (s : State) (c : Nat) : Bool := s.cellState c ≠ csABSENT && s.cellState c ≠ csOFF

/-! Model images (R301 to R305). -/

def State.modelState (s : State) (m : Nat) : Nat := s.fld (rModel m 0) 2 0
def State.setModelState (s : State) (m v : Nat) : State := s.setFld (rModel m 0) 2 0 v
def State.modelGold (s : State) (m : Nat) : Nat := s.word64 (rModel m 8)
def State.modelWork (s : State) (m : Nat) : Nat := s.word64 (rModel m 0x10)
def State.modelBytes (s : State) (m : Nat) : Nat := s.word64 (rModel m 0x18)

/-- A field of the image header of model m, in its working copy. -/
def State.hdr (s : State) (m o n : Nat) : Nat := s.mnat (s.modelWork m + o) n

def State.mdlEnc (s : State) (m : Nat) : Bool := bitOf (s.hdr m 6 2) 0
def State.mdlMin (s : State) (m : Nat) : Nat := s.hdr m 0x18 2
def State.mdlMax (s : State) (m : Nat) : Nat := s.hdr m 0x1A 2
def State.mdlQuantum (s : State) (m : Nat) : Nat := max 1 (s.hdr m 0x1C 2)
def State.mdlStages (s : State) (m : Nat) : Nat := s.hdr m 0x1E 2
def State.mdlSegs (s : State) (m : Nat) : Nat := s.hdr m 0x20 2

/-- First byte of an entry of the segment, stage and checkpoint tables of model m. -/
def State.segAt (s : State) (m i : Nat) : Nat := s.modelWork m + s.hdr m 0x28 4 + i * 48
def State.stageAt (s : State) (m i : Nat) : Nat := s.modelWork m + s.hdr m 0x2C 4 + i * 32
def State.ckptAt (s : State) (m i : Nat) : Nat := s.modelWork m + s.hdr m 0x34 4 + i * 16

/-- A segment: offset, bytes, kind, HOT, tile-store offset. -/
structure Seg where
  off : Nat
  bytes : Nat
  kind : Nat
  hot : Bool
  ts : Nat
  tag : List Byte
  deriving DecidableEq, Repr

def segOf (l : List Byte) : Seg :=
  ⟨leAt l 0 8, leAt l 8 4, leAt l 0xC 1, bitOf (leAt l 0xD 1) 0, leAt l 0x10 4, sliceBytes l 0x20 16⟩

def State.segs (s : State) (m : Nat) : List Seg :=
  (List.range (s.mdlSegs m)).map fun i => segOf (s.bytes (s.segAt m i) 48)

/-- The IV of segment i: the image IV with its last 4 bytes XORed with i (R302). -/
def segIv (iv : List Byte) (i : Nat) : Nat := beNat iv ^^^ i % 2 ^ 32

/-- Address of the relocated descriptor of a kernel (R303). -/
def State.kernelAddr (s : State) (m k : Nat) : Nat := fmGetD (Config.kernelCopies m) s.mhs.kbase m + k * 64

/-- The tag of a segment matches its bytes (R302): the GCM tag of the ciphertext, or CRC-32C. -/
def tagOk (enc : Bool) (key : Option Nat) (iv i : Nat) (g : Seg) (l : List Byte) : Bool :=
  if enc then
    match key with
    | some k => decide (beNat g.tag = gcmTag k (iv ^^^ i % 2 ^ 32) [] l)
    | none => false
  else decide (leAt g.tag 0 4 = crc32c l) && decide (leAt g.tag 4 12 = 0)

/-- A range of bytes lies inside another. -/
def insideOf (o n hi : Nat) : Bool := decide (o + n ≤ hi)

/-- Two ranges share no byte. -/
def apart (o n o' n' : Nat) : Bool := decide (o + n ≤ o') || decide (o' + n' ≤ o)

/-- No two of a list of ranges share a byte. -/
def allApart : List (Nat × Nat) → Bool
  | [] => true
  | p :: r => (r.all fun q => apart p.1 p.2 q.1 q.2) && allApart r

/-- A segment entry keeps R302 against the end of the tables and of the image. -/
def segOk (l : List Byte) (tabEnd img : Nat) (enc : Bool) : Bool :=
  let g := segOf l
  decide (g.off % 4096 = 0 ∧ tabEnd ≤ g.off ∧ g.bytes % 64 = 0 ∧ 64 ≤ g.bytes ∧ g.kind ≤ 2 ∧ leAt l 0xD 1 < 2) &&
    insideOf g.off g.bytes img && zeroAt l 0xE 2 && zeroAt l 0x14 12 &&
    (if g.kind = 0 then decide (g.ts % 64 = 0) && insideOf g.ts g.bytes tsTop else decide (g.ts = 0)) &&
    (enc || decide (leAt g.tag 4 12 = 0))

/-- A stage entry keeps R304. -/
def stageOk (l : List Byte) (nkern nckpt : Nat) : Bool :=
  let fl := leAt l 2 2
  let tasks := leAt l 4 4
  let k := leAt l 8 4
  let sm := leAt l 0xC 2
  decide (leAt l 0 2 < nkern ∧ fl < 16 ∧ 1 ≤ tasks ∧ tasks ≤ 65535) &&
    (if bitOf fl 2 then decide (32 ≤ k ∧ k ≤ 8388608 ∧ 1 ≤ sm ∧ sm ≤ 64) else decide (k = 0 ∧ sm = 1)) &&
    (if bitOf fl 0 then decide (leAt l 0xE 2 < nckpt) else decide (leAt l 0xE 2 = 0)) && zeroAt l 0x10 16

/-- A checkpoint entry keeps R305. -/
def ckptOk (l : List Byte) (work : Nat) : Bool :=
  let n := leAt l 8 4
  decide (n % 64 = 0 ∧ 64 ≤ n ∧ n ≤ 67108864) && insideOf (leAt l 0 8) n work && zeroAt l 12 4

/-- The header keeps R301. -/
def headerOk (h : List Byte) (img : Nat) : Bool :=
  let fl := leAt h 6 2
  let mn := leAt h 0x18 2
  let mx := leAt h 0x1A 2
  let q := leAt h 0x1C 2
  let nseg := leAt h 0x20 2
  let nst := leAt h 0x1E 2
  let nk := leAt h 0x22 2
  let nc := leAt h 0x24 2
  let tabEnd := leAt h 0x38 4
  let table (o n : Nat) : Bool := decide (o % 64 = 0 ∧ 256 ≤ o) && insideOf o n tabEnd
  decide (leAt h 0 4 = 0x494D485A ∧ leAt h 4 2 = 1 ∧ fl < 4 ∧ leAt h 8 8 = img ∧ img % 4096 = 0 ∧ leAt h 0x10 4 ≠ 0) &&
    decide (1 ≤ mn ∧ mn ≤ mx ∧ mx ≤ 256 ∧ 1 ≤ q ∧ q ≤ 256) && decide (mn % max 1 q = 0 ∧ mx % max 1 q = 0) &&
    decide (1 ≤ nst ∧ nst ≤ 255 ∧ 1 ≤ nseg ∧ nseg ≤ 1024 ∧ 1 ≤ nk ∧ nk ≤ 256 ∧ nc ≤ 255) &&
    decide (bitOf fl 1 = decide (nc ≠ 0)) && (bitOf fl 0 || decide (leAt h 0x26 2 = 0)) && decide (leAt h 0x26 2 < 16) &&
    table (leAt h 0x28 4) (nseg * 48) && table (leAt h 0x2C 4) (nst * 32) && table (leAt h 0x30 4) (nk * 64) &&
    (if nc = 0 then decide (leAt h 0x34 4 = 0) else table (leAt h 0x34 4) (nc * 16)) &&
    decide (tabEnd ≤ 2 ^ 20) && insideOf 0 tabEnd img && zeroAt h 0x3C 4 && zeroAt h 0x54 156

/-- The checks of R306 on a whole image. -/
def imageOk (l : List Byte) (keys : Nat → Option Nat) : Bool :=
  let h := sliceBytes l 0 256
  let img := l.length
  let enc := bitOf (leAt h 6 2) 0
  let key := keys (leAt h 0x26 2)
  let tabEnd := leAt h 0x38 4
  let nseg := leAt h 0x20 2
  let nk := leAt h 0x22 2
  let nc := leAt h 0x24 2
  let ent (o i n : Nat) : List Byte := sliceBytes l (leAt h o 4 + i * n) n
  let gs := (List.range nseg).map fun i => segOf (ent 0x28 i 48)
  let ivn := beNat (sliceBytes h 0x48 12)
  let cover := l.take 0xF0 ++ (l.drop 256).take (tabEnd - 256)
  headerOk h img &&
    ((List.range nseg).all fun i => segOk (ent 0x28 i 48) tabEnd img enc) &&
    ((List.range (leAt h 0x1E 2)).all fun i => stageOk (ent 0x2C i 32) nk nc) &&
    ((List.range nc).all fun i => ckptOk (ent 0x34 i 16) (leAt h 0x40 8)) &&
    ((List.range nk).all fun i => kdescOk (ent 0x30 i 64)) &&
    allApart (gs.map fun (g : Seg) => (g.off, g.bytes)) &&
    allApart ((gs.filter fun (g : Seg) => decide (g.kind = 0)).map fun (g : Seg) => (g.ts, g.bytes)) &&
    (if enc then
      match key with
      | some k => decide (beNat (sliceBytes h 0xF0 16) = gcmTag k (ivn ^^^ 0xFFFFFFFF) cover [])
      | none => false
    else decide (leAt h 0xF0 4 = crc32c cover) && decide (leAt h 0xF4 12 = 0)) &&
    ((List.range nseg).zip gs).all fun p => tagOk enc key ivn p.1 p.2 (sliceBytes l p.2.off p.2.bytes)

/-! The SLC model region (R309). -/

/-- Order in which models are served: bound to latency-critical clickings, bound to best-effort ones, then other READY ones
by use. -/
def State.slcOrder (s : State) : List Nat :=
  let bound (cls : Nat) := ((List.range 64).filter fun k => decide (s.clickClass k = cls) && s.clickBound k).map fun k => s.clickModel k
  let rest := (List.range 32).filter fun m => decide (s.modelState m = 2)
  let byUse := rest.foldl (fun (l : List Nat) m =>
    (l.takeWhile fun x => decide (s.word64 (rModel x 0x28) ≥ s.word64 (rModel m 0x28))) ++ [m] ++
      (l.dropWhile fun x => decide (s.word64 (rModel x 0x28) ≥ s.word64 (rModel m 0x28)))) []
  (bound 1 ++ bound 2 ++ byUse).foldl (fun l m => if l.contains m then l else l ++ [m]) []

/-- HOT bytes placed for a model with a budget, whole segments in table order: placed and what is left, and whether all
found room. -/
def placeHot : List Seg → Nat → Nat → Bool → Nat × Nat × Bool
  | [], left, used, all => (used, left, all)
  | g :: r, left, used, all =>
    if !g.hot then placeHot r left used all
    else if g.bytes ≤ left then placeHot r (left - g.bytes) (used + g.bytes) all
    else placeHot r left used false

/-- The allocation is revised (R309); MHS_MODEL_SLC is in MiB, rounded up. -/
def State.slcRealloc (s : State) : State :=
  let s := (List.range 32).foldl (fun s m => (s.setWord (rModel m 0x20) 0).setBit (rModel m 0) 4 false) s
  let total := 2 ^ 20 * s.fld (rMhs 8) 7 0
  let (s, left) := s.slcOrder.foldl (fun acc m =>
    let (s, left) := acc
    if s.modelState m ≠ 2 then (s, left)
    else
      let (used, left', all) := placeHot (s.segs m) left 0 true
      ((s.setWord (rModel m 0x20) (ceilDiv used (2 ^ 20))).setBit (rModel m 0) 4 all, left')) (s, total)
  s.setFld (rMhs 8) 23 16 (ceilDiv (total - left) (2 ^ 20))

/-- A use of a model: a switch or a release (R308). -/
def State.useModel (s : State) (m : Nat) : State := s.setWord64 (rModel m 0x28) s.recordTime.1

/-! Resident segments (R287, R312). -/

/-- The RESIDENT segments of a model loaded into a cell's tile store. -/
def State.loadResident (s : State) (m c : Nat) : State :=
  (s.segs m).foldl (fun (s : State) (g : Seg) =>
    if g.kind ≠ 0 then s
    else
      match s.dmaReadLong mClicker (s.modelWork m + g.off) g.bytes with
      | (s, some (l, bad)) => s.tsWrite c g.ts l bad
      | (s, none) => s) s

/-- A cell joins a clicking: it serves the clicking's instance and receives the resident segments of a bound model. -/
def State.joinCell (s : State) (k c : Nat) : State :=
  let s := (s.setNow k (s.clickNow k ||| 2 ^ c)).setFld (rCell c 0) 22 17 (s.clickInst k)
  if s.clickBound k then s.loadResident (s.clickModel k) c else s

/-- A cell leaves its clicking for the free pool. -/
def State.leaveCell (s : State) (k c : Nat) : State :=
  let s := s.setNow k (setMask (s.clickNow k) c false)
  { s.setFld (rCell c 0) 22 17 0 with clc.burst := fmDel s.clc.burst c }

end Sys2Proof.Machine
end

