-- ==== Sys2Proof/Machine/Clc.lean ====
section
/-! DEFINITION. Jobs: release, stages, completion and Twiwin-L comparison (09_jobs_and_models.md R288 to R297, R314 to R321;
15_safety.md R490, R491). -/

namespace Sys2Proof.Machine

def State.slotClick (s : State) (n : Nat) : Nat := s.fld (rRelSlot n 0) 6 1
def State.slotTwl (s : State) (n : Nat) : Bool := s.bit (rRelSlot n 0) 7
def State.slotDepth (s : State) (n : Nat) : Nat := s.fld (rRelSlot n 0) 16 15 + 1

/-- The TWN_TWL entry of a slot: a Twiwin-L slot with one runs on both sides. DEDUCED (log 121). -/
def State.twlEntry (s : State) (n : Nat) : Option Nat :=
  (List.range 64).find? fun t => s.bit (rTwn (0x1000 + t * 0x40)) 31 && decide (s.fld (rTwn (0x1000 + t * 0x40)) 11 0 = n)
def State.twlOn (s : State) (n : Nat) : Bool := s.slotTwl n && (s.twlEntry n).isSome

/-- Owner of a slot with its generation (R295). -/
def State.slotOwner (s : State) (n : Nat) : Option (Nat × Nat) :=
  if s.bit (rRelSlot n 0) 14 then some (s.fld (rRelSlot n 0) 13 8, s.instGen (s.fld (rRelSlot n 0) 13 8)) else none

def State.modJob (s : State) (slot : Nat) (f : ClcJob → ClcJob) : State :=
  { s with clc.jobs := s.clc.jobs.map fun (j : ClcJob) => if j.rel.slot = slot then f j else j }
def State.jobOf (s : State) (slot : Nat) : Option ClcJob := s.clc.jobs.find? fun (j : ClcJob) => decide (j.rel.slot = slot)
def State.pendOf (s : State) (slot : Nat) : List ClcRel := s.clc.pend.filter fun (r : ClcRel) => decide (r.slot = slot)

/-- CLC_SLOT_STATUS shows whether a job runs and how many releases wait. -/
def State.showSlot (s : State) (n : Nat) : State :=
  (s.setBit (rRelSlot n 0x1C) 4 (s.jobOf n).isSome).setFld (rRelSlot n 0x1C) 2 0 (min 4 (s.pendOf n).length)

/-! Completions (R295, R296). -/

/-- The 32-byte entry. -/
def completion (r : ClcRel) (status stage restarts ckpts tEnd : Nat) : List Byte :=
  leBytes 4 r.seq ++ leBytes 2 r.slot ++ leBytes 1 status ++ leBytes 1 stage ++ leBytes 4 r.param ++ leBytes 2 restarts ++
    leBytes 2 ckpts ++ leBytes 8 r.time ++ leBytes 8 tEnd

/-- A post to a completion queue under the generation the owner had at release; a slot of the system posts under the queue's
own generation. -/
def State.postCq (s : State) (p : ClcPost) : State × PostResult :=
  let gen := match p.gen with
    | some g => g
    | none => match fmGet s.hqm.queues p.qid with | some x => x.gen | none => 0
  s.post p.qid gen p.data

/-- A completion is posted, or waits in the buffer behind those that wait (R296). -/
def State.complete (s : State) (r : ClcRel) (status stage restarts ckpts : Nat) : State :=
  let p : ClcPost :=
    ⟨s.fld (rRelSlot r.slot 4) 18 0, r.own.map Prod.snd, completion r status stage restarts ckpts s.recordTime.1⟩
  let s := s.setFld (rRelSlot r.slot 0x1C) 15 8 status
  let s := if status = 0 || status = 6 then s else s.orWord rClcIrq 1
  let wait (s : State) : State := { s with clc.posts := s.clc.posts ++ [p] }.bump (rClc 0x1C)
  if !s.clc.posts.isEmpty then wait s
  else
    match s.postCq p with
    | (s, .full) => wait s
    | (s, _) => s

def State.drainPosts : Nat → State → State
  | 0, s => s
  | fuel + 1, s =>
    match s.clc.posts with
    | [] => s
    | p :: r =>
      match s.postCq p with
      | (s, .full) => s
      | (s, _) => State.drainPosts fuel { s with clc.posts := r }

/-! Stages (R290 to R292). -/

/-- Cells of a clicking that are free: IDLE or LOADED, holding no task, not being reclaimed (R290). -/
def State.cellFree (s : State) (k c : Nat) : Bool :=
  bitOf (s.clickNow k) c && (s.cellState c = csIDLE || s.cellState c = csLOADED) &&
    !(s.clc.tasks.any fun (t : ClcTask) => (t.place = 1 || t.place = 3) && t.at_ = c) && !(s.clc.reclaim.any fun p => p.1 = c)

def State.freeCells (s : State) (k : Nat) : List Nat := (List.range 256).filter fun c => s.cellFree k c

/-- The split of a stage (R292). -/
def splitOf (repro : Bool) (k splitMax tasks free : Nat) : Nat :=
  if repro || splitMax ≤ 1 then 1 else max 1 (min splitMax (min (free / max 1 tasks) (ceilDiv k 32)))

/-- The tasks of a stage of one side of a job. -/
def State.stageTasks (s : State) (j : ClcJob) (side : Nat) (x : ClcSide) (stage : Nat) : List ClcTask :=
  let a := s.stageAt j.model stage
  let fl := s.mnat (a + 2) 2
  let n := s.mnat (a + 4) 4
  let n := if bitOf fl 3 then n * s.clickN x.click / s.mdlQuantum j.model else n
  let k := s.mnat (a + 8) 4
  let split := bitOf fl 2
  let sp := if split then
      splitOf (!s.bit (rSys 8) 0 || s.slotTwl j.rel.slot) k (s.mnat (a + 0xC) 2) n (s.freeCells x.click).length
    else 1
  let c := ceilDiv k 32
  (List.range n).flatMap fun i => (List.range sp).map fun q =>
    ClcTask.mk j.rel.order j.rel.slot side stage i q (if split then q * c / sp else 0) (if split then (q + 1) * c / sp else 0) 0 0 0

/-- A side of a job starts its next stage, from the given one on; past the last stage it ends. -/
def State.startStage (s : State) (slot side stage : Nat) : State :=
  match s.jobOf slot with
  | none => s
  | some j =>
    match j.sides[side]? with
    | none => s
    | some x =>
      if stage > j.last then
        s.modJob slot fun j => { j with sides := modAt j.sides side fun x => { x with ended := true, holding := false } }
      else
        let ts := s.stageTasks j side x stage
        let s := { s with clc.tasks := s.clc.tasks ++ ts }
        s.modJob slot fun j => { j with
          stage := max j.stage stage
          sides := modAt j.sides side fun x => { x with stage := stage, left := ts.length, holding := false } }

/-- Every task of a stage of a side is complete: its checkpoint is read (R317), and the next stage starts unless it waits
for the comparison. -/
def State.stageDone (s : State) (slot side : Nat) : State :=
  match s.jobOf slot with
  | none => s
  | some j =>
    match j.sides[side]? with
    | none => s
    | some x =>
      let a := s.stageAt j.model x.stage
      let fl := s.mnat (a + 2) 2
      let ck := bitOf fl 0 && decide (j.sides.length = 2)
      let idx := s.mnat (a + 0xE) 2
      let c := s.ckptAt j.model idx
      let s := if ck then
          { s with clc.ckpts := s.clc.ckpts ++ [ClcCkpt.mk slot j.rel.seq idx (side = 1) (x.work + s.mnat c 8) (s.mnat (c + 8) 4)] }
        else s
      if ck && bitOf fl 1 then s.modJob slot fun j => { j with sides := modAt j.sides side fun x => { x with holding := true } }
      else s.startStage slot side (x.stage + 1)

/-! Releases (R289). -/

/-- A job starts: on the clicking of its slot, and for a Twiwin-L slot that is ON on its partner too. -/
def State.startJob (s : State) (r : ClcRel) : State :=
  let n := r.slot
  let k := s.slotClick n
  let m := s.clickModel k
  let first := s.fld (rRelSlot n 0x30) 7 0
  let last := s.fld (rRelSlot n 0x30) 15 8
  if last < first || last ≥ s.mdlStages m then (s.complete r 3 0 0 0).showSlot n
  else
    let mk (k work : Nat) : ClcSide := ⟨k, work, first, 0, false, false⟩
    let sides := mk k (s.word64 (rRelSlot n 8)) ::
      (if s.twlOn n then [mk (s.clickPartner k) (s.word64 (rRelSlot n 0x10))] else [])
    let s := { s with clc.jobs := s.clc.jobs ++ [ClcJob.mk r sides m none 0 0 first first last] }
    let s := s.startStage n 0 first
    (if sides.length = 2 then s.startStage n 1 first else s).showSlot n

/-- No new job may start: the completion buffer is full (R296). -/
def State.postsFull (s : State) : Bool := decide (s.clc.posts.length ≥ 256)

/-- Pending releases start when their slot runs no job. -/
def State.startPending (s : State) : State :=
  s.clc.pend.foldl (fun s (r : ClcRel) =>
    if (s.jobOf r.slot).isNone && !s.postsFull && s.clickState (s.slotClick r.slot) = 2 then
      ({ s with clc.pend := s.clc.pend.filter fun (q : ClcRel) => decide (q.order ≠ r.order) }).startJob r
    else s) s

/-- A release is refused (R289). -/
def State.relRefuse (s : State) (n : Nat) (m : Master) : State :=
  ((s.setBit (rRelSlot n 0x1C) 5 true).bump (rRelSlot n 0x24)).orWord rClcIrq 2 |>.accessFault m 2 (rRelSlot n 0x18)

/-- A release of slot n is judged (R289): the flag says that it was accepted. -/
def State.release (s : State) (n : Nat) (m : Master) (may : Bool) (param target : Nat) : State × Bool :=
  let k := s.slotClick n
  let need := s.word (rRelSlot n 0x34)
  if !s.bit (rRelSlot n 0) 0 || !may || s.clickState k ≠ 2 || (need ≠ 0 && need ≠ s.word (rModel (s.clickModel k) 4)) then
    (s.relRefuse n m, false)
  else
    let waiting := s.pendOf n
    let busy := (s.jobOf n).isSome || s.postsFull || !waiting.isEmpty
    if busy && decide (waiting.length ≥ s.slotDepth n) && !s.bit (rRelSlot n 0) 17 then (s.relRefuse n m, false)
    else
      let s := s.bump (rRelSlot n 0x20)
      let r : ClcRel := ⟨n, s.word (rRelSlot n 0x20), param, target, s.slotOwner n, s.clc.order, s.recordTime.1⟩
      let s := ({ s with clc.order := s.clc.order + 1 }).useModel (s.clickModel k)
      if !busy then (s.startJob r, true)
      else
        let s := if waiting.length ≥ s.slotDepth n then
            match waiting with
            | [] => s
            | o :: _ =>
              { s with clc.pend := s.clc.pend.filter fun (q : ClcRel) => decide (q.order ≠ o.order) }.bump (rRelSlot n 0x28)
          else s
        ({ s with clc.pend := s.clc.pend ++ [r] }.showSlot n, true)

/-- A release by a tack: an owned tack must be owned by the slot's owner. -/
def State.releaseTack (s : State) (n : Nat) (m : Master) (owner : Option Nat) (param target : Nat) : State × Bool :=
  let may := match owner with
    | none => true
    | some i => s.bit (rRelSlot n 0) 14 && decide (s.fld (rRelSlot n 0) 13 8 = i)
  s.release n m may param target

/-- CLC_SLOT_RELEASE (R289, R319). -/
def execSlotReleaseWrite (m : Master) (inst : Option (Fin 64)) (slot : Fin 4096) (param : BitVec 32) (s : State) :
    Host.Outcome State Fault Refusal :=
  let owner := s.bit (rRelSlot slot 0) 14 && isInst inst (s.fld (rRelSlot slot 0) 13 8)
  let may := owner || (inst.isNone && s.sysWriter m)
  let (s, _) := s.release slot m may param.toNat 0
  .next (if may then s.respOk [] else s.respErr)

/-! The end of a job (R294, R295, R318). -/

/-- A job is to end early with a status; the first one stands. -/
def State.stopJob (s : State) (slot status : Nat) : State :=
  s.modJob slot fun j => if j.stop.isSome then j else { j with stop := some status }

/-- Jobs of the slots of clicking k. -/
def State.jobsOn (s : State) (k : Nat) : List ClcJob := s.clc.jobs.filter fun (j : ClcJob) => j.sides.any fun x => decide (x.click = k)

/-- Every job of clicking k is to end. -/
def State.stopClick (s : State) (k status : Nat) : State :=
  (s.jobsOn k).foldl (fun s (j : ClcJob) => s.stopJob j.rel.slot status) s

/-- Pending releases of clicking k end CANCELLED (R312). -/
def State.cancelPending (s : State) (k : Nat) : State :=
  let mine := s.clc.pend.filter fun (r : ClcRel) => decide (s.slotClick r.slot = k)
  let s := { s with clc.pend := s.clc.pend.filter fun (r : ClcRel) => decide (s.slotClick r.slot ≠ k) }
  mine.foldl (fun s (r : ClcRel) => (s.complete r 6 0 0 0).showSlot r.slot) s

/-- Tasks of jobs that end early: those not on a cell are dropped, saved images abandoned, running ones aborted; a task that
waits for its kernel is not launched. -/
def State.enforceStops (s : State) : State :=
  let dead (t : ClcTask) : Bool := match s.jobOf t.slot with | some j => j.stop.isSome | none => true
  let ts := s.clc.tasks.filter dead
  let s := { s with clc.tasks := s.clc.tasks.filter fun (t : ClcTask) => !dead t || (t.place = 1) }
  ts.foldl (fun s (t : ClcTask) =>
    if t.place ≠ 1 then s
    else
      let st := s.cellState t.at_
      let gone (s : State) : State :=
        { s with clc.tasks := s.clc.tasks.filter fun (q : ClcTask) => !(q.place = 1 && q.at_ = t.at_) }
      if st = csRUNNING then s.abortReq t.at_
      else if st = csLOADING && (s.cell t.at_).load = 2 then gone (s.modCell t.at_ fun x => { x with load := 1 })
      else if (st = csIDLE || st = csOFF) && (s.clc.reclaim.any fun p => p.1 = t.at_) then gone s
      else s) s

/-- Tasks of a job. -/
def State.tasksOf (s : State) (slot : Nat) : List ClcTask := s.clc.tasks.filter fun (t : ClcTask) => decide (t.slot = slot)

/-- Jobs that have ended post their completions; a job of two sides ends when both have. -/
def State.finishJobs (s : State) : State :=
  s.clc.jobs.foldl (fun s (j : ClcJob) =>
    let n := j.rel.slot
    let done := (s.tasksOf n).isEmpty && (j.stop.isSome || (j.sides.all fun x => x.ended) &&
      !(s.clc.ckpts.any fun (c : ClcCkpt) => c.slot = n && c.seq = j.rel.seq) &&
      !(s.twn.digests.any fun (d : Digest) => d.slot = n && d.seq = j.rel.seq))
    if !done then s
    else
      let s := { s with
        clc.jobs := s.clc.jobs.filter fun (q : ClcJob) => decide (q.rel.slot ≠ n)
        clc.ckpts := s.clc.ckpts.filter fun (c : ClcCkpt) => !(c.slot = n && c.seq = j.rel.seq)
        twn.digests := s.twn.digests.filter fun (d : Digest) => !(d.slot = n && d.seq = j.rel.seq) }
      (s.complete j.rel (j.stop.getD 0) j.stage j.restarts j.ckpts).showSlot n) s

/-- A READY clicking that falls below its model's CELLS_MIN becomes FAULTED (R314). -/
def State.clickFault (s : State) (k : Nat) : State :=
  ((s.setClickState k 4).orWord rClcIrq 8).stopClick k 9

def State.checkMin (s : State) (k : Nat) : State :=
  if s.clickState k = 2 && popCount 256 (s.clickNow k) < s.mdlMin (s.clickModel k) then
    (s.clickFault k).fault 0x12 3 mClicker k 0
  else s

/-! Reclaiming (R298 to R300). -/

/-- Context slots of clicking k: base, count, and the lowest free one. -/
def State.ctxBase (s : State) (k : Nat) : Nat := 4096 * (s.word64 (rClick k 0x10) / 4096) % 2 ^ 52
def State.ctxSlots (s : State) (k : Nat) : Nat := s.fld (rClick k 0x10) 7 0

/-- Clicking whose task t is. -/
def State.taskClick (s : State) (t : ClcTask) : Nat :=
  match s.jobOf t.slot with
  | some j => match j.sides[t.side]? with | some x => x.click | none => 64
  | none => 64

def State.freeCtx (s : State) (k : Nat) : Option Nat :=
  (List.range (s.ctxSlots k)).find? fun i =>
    !(s.clc.tasks.any fun (t : ClcTask) =>
      s.taskClick t = k && ((t.place = 2 && t.at_ = i) || (t.place = 1 && t.saved = i + 1)))

/-- The task on a cell. -/
def State.taskOn (s : State) (c : Nat) : Option ClcTask := s.clc.tasks.find? fun (t : ClcTask) => t.place = 1 && t.at_ = c

/-- A task changes: the one with this cell. -/
def State.modTaskOn (s : State) (c : Nat) (f : ClcTask → ClcTask) : State :=
  { s with clc.tasks := s.clc.tasks.map fun (t : ClcTask) => if t.place = 1 && t.at_ = c then f t else t }

/-- A reclaim of cell c of clicking k begins, for a destination (R298): a running task is saved with preemption ON, and
awaited with it OFF. -/
def State.reclaimCell (s : State) (k c dest : Nat) : State :=
  let s := { s with clc.reclaim := s.clc.reclaim ++ [(c, dest)] }.bump (rClc 0x10)
  if (s.taskOn c).isSome && s.bit (rSys 8) 3 && s.cellState c = csRUNNING then
    match s.freeCtx k with
    | none => s
    | some i =>
      let s := s.modTaskOn c fun t => { t with saved := i + 1 }
      (s.setWord64 (rCell c 0x10) (s.ctxBase k + imgSize * i)).saveReq c
  else s

/-- A cell of a clicking can be a victim; running ones need a context slot (R299). -/
def State.victimOk (s : State) (k c : Nat) (mayRun : Bool) : Bool :=
  bitOf (s.clickNow k) c && !(s.clc.reclaim.any fun p => p.1 = c) &&
    (s.cellFree k c || (mayRun && (s.taskOn c).isSome && (s.cellState c = csRUNNING) && (s.freeCtx k).isSome))

/-- The victim for a burst: idle before running, lower PRIO, higher clicking, higher logical ID (R299). -/
def State.victim (s : State) : Option (Nat × Nat) :=
  let be := (List.range 64).filter fun k => decide (s.clickClass k = 2)
  let cands := be.flatMap fun k => ((List.range 256).filter fun c => s.victimOk k c true).map fun c =>
    ((if s.cellFree k c then 0 else 2 ^ 30) + 2 ^ 20 * s.clickPrio k + 2 ^ 10 * (63 - k) + (255 - c), k, c)
  match cands with
  | [] => none
  | x :: r => let b := r.foldl (fun b y => if y.1 < b.1 then y else b) x; some (b.2.1, b.2.2)

/-- Reclaims whose cell is free at last: the task's save stands, and the cell goes on to its destination while it is still
wanted there (R300). -/
def State.finishReclaims (s : State) (wanted : State → Nat → Bool) : State :=
  s.clc.reclaim.foldl (fun s p =>
    let c := p.1
    let st := s.cellState c
    let busy := match s.taskOn c with | some _ => st ≠ csIDLE | none => false
    if (st = csIDLE || st = csLOADED || st = csABSENT) && !busy && !(s.cel.reports.any fun q => q.1 = c) then
      let s := { s with clc.reclaim := s.clc.reclaim.filter fun q => q.1 ≠ c }
      let s := match s.taskOn c, s.cellClick c with
        | some _, some k =>
          let s := (s.modTaskOn c fun t => { t with place := 2, at_ := t.saved - 1, saved := s.clc.order }).bump (rClick k 0xC)
          { s with clc.order := s.clc.order + 1 }
        | _, _ => s
      let s := match s.cellClick c with | some k => s.leaveCell k c | none => s
      if p.2 ≠ 0 && s.cellUsable c && wanted s (p.2 - 1) then
        { s.joinCell (p.2 - 1) c with clc.burst := fmPut s.clc.burst c (p.2 - 1) }
      else s
    else s) s

/-! Placement (R290, R291). -/

/-- s4 to s7 of a task. -/
def taskArgs (r : ClcRel) (t : ClcTask) (work : Nat) : List Nat :=
  [r.param + 2 ^ 32 * r.seq, r.target,
    t.idx % 2 ^ 16 + 2 ^ 16 * (t.stage % 256) + 2 ^ 24 * (t.c0 % 2 ^ 19) + 2 ^ 43 * (t.c1 % 2 ^ 19), work]

/-- Task t is launched on cell c, its kernel loaded first when the cell holds another. -/
def State.placeTask (s : State) (t : ClcTask) (c : Nat) : State :=
  match s.jobOf t.slot with
  | none => s
  | some j =>
    match j.sides[t.side]? with
    | none => s
    | some x =>
      let s := { s with clc.tasks := s.clc.tasks.map fun (q : ClcTask) => if q = t then { q with place := 1, at_ := c, saved := 0 } else q }
      let addr := s.kernelAddr j.model (s.mnat (s.stageAt j.model t.stage) 2)
      let args := taskArgs j.rel t x.work
      if s.cellState c = csLOADED && (s.cell c).kaddr = addr then s.launch c args
      else (s.modCell c fun q => { q with args := args }).kernelWrite c addr 2

/-- Whether task a goes before task b. -/
def ClcTask.before (a b : ClcTask) : Bool :=
  let key (t : ClcTask) : Nat := ((65536 * (256 * (4096 * t.order + t.slot) + t.stage) + t.idx) * 64 + t.split) * 2 + t.side
  decide (key a < key b)

/-- The least of a list of tasks. -/
def minTask : List ClcTask → Option ClcTask
  | [] => none
  | t :: r => some (r.foldl (fun b x => if x.before b then x else b) t)

/-- Ready tasks of clicking k. -/
def State.readyOf (s : State) (k : Nat) : List ClcTask :=
  s.clc.tasks.filter fun (t : ClcTask) => t.place = 0 && s.taskClick t = k

/-- The oldest saved task of clicking k. -/
def State.savedOf (s : State) (k : Nat) : Option ClcTask :=
  (s.clc.tasks.filter fun (t : ClcTask) => t.place = 2 && s.taskClick t = k).foldl (fun (b : Option ClcTask) t =>
    match b with | some x => if t.saved < x.saved then some t else b | none => some t) none

/-- Tasks of clicking k are placed while it has a free cell: those that restart on a spare first, then saved ones, then new
ones. -/
def State.placeClick : Nat → Nat → State → State
  | 0, _, s => s
  | fuel + 1, k, s =>
    match s.clc.tasks.find? fun (t : ClcTask) => t.place = 3 && s.taskClick t = k &&
        (s.cellState t.at_ = csLOADED || s.cellState t.at_ = csIDLE) with
    | some t => State.placeClick fuel k (s.placeTask t t.at_)
    | none =>
      match s.freeCells k with
      | [] => s
      | c :: _ =>
        match s.savedOf k with
        | some t =>
          let s := { s with clc.tasks := s.clc.tasks.map fun (q : ClcTask) => if q = t then { q with place := 1, at_ := c, saved := 0 } else q }
          State.placeClick fuel k ((s.setWord64 (rCell c 0x10) (s.ctxBase k + imgSize * t.at_)).restoreReq c)
        | none =>
          match minTask (s.readyOf k) with
          | none => s
          | some t => State.placeClick fuel k (s.placeTask t c)

/-- Clickings in the order of placement: latency-critical ascending, then best-effort by PRIO. -/
def State.placeOrder (s : State) : List Nat :=
  (List.range 64).filter (fun k => decide (s.clickClass k = 1)) ++
    (List.range 16).flatMap fun q => (List.range 64).filter fun k => decide (s.clickClass k = 2 ∧ s.clickPrio k = 15 - q)

def State.placeAll (s : State) : State := s.placeOrder.foldl (fun s k => State.placeClick 257 k s) s

/-! Bursts, handouts and returns (R284 to R287). -/

def State.poolCells (s : State) : List Nat :=
  let m := s.heldMask
  (List.range 256).filter fun c => !bitOf m c && s.cellUsable c && !(s.clc.reclaim.any fun p => p.1 = c)

/-- Clicking k still has a ready task that no cell took. -/
def State.hungry (s : State) (k : Nat) : Bool := !(s.readyOf k).isEmpty

/-- The clicking is a side of a Twiwin-L pair, which takes no burst cells. -/
def State.twlClick (s : State) (k : Nat) : Bool :=
  s.bit (rClick k 0) 8 || (List.range 64).any fun j => s.bit (rClick j 0) 8 && decide (s.clickPartner j = k)

/-- Burst cells for clicking k, up to what its ready tasks and BURST allow (R286). -/
def State.takeBurst : Nat → Nat → State → State
  | 0, _, s => s
  | fuel + 1, k, s =>
    let mine := (s.clc.burst.filter fun p => p.2 = k).length + (s.clc.reclaim.filter fun p => p.2 = k + 1).length
    let coming := (s.clc.reclaim.filter fun p => p.2 = k + 1).length + (s.freeCells k).length
    if (s.readyOf k).length ≤ coming || mine ≥ s.clickWant k then s
    else
      match s.poolCells with
      | c :: _ => State.takeBurst fuel k { s.joinCell k c with clc.burst := fmPut s.clc.burst c k }
      | [] =>
        match s.victim with
        | some (v, c) => State.takeBurst fuel k (s.reclaimCell v c (k + 1))
        | none =>
          if s.clc.missed.contains k then s else { s with clc.missed := k :: s.clc.missed }.bump (rClc 0x14)

def State.bursts (s : State) : State :=
  if !s.bit (rSys 8) 3 then s
  else (List.range 64).foldl (fun s k =>
    if s.clickClass k = 1 && !s.twlClick k && s.clickState k = 2 && s.hungry k then State.takeBurst 257 k s
    else { s with clc.missed := s.clc.missed.filter fun q => q ≠ k }) s

/-- Burst cells without a task go back when their clicking has no ready task (R286). -/
def State.burstReturns (s : State) : State :=
  s.clc.burst.foldl (fun s p => if s.cellFree p.2 p.1 && !s.hungry p.2 then s.leaveCell p.2 p.1 else s) s

/-- Best-effort clickings above WANT give cells back: idle ones at once, running ones by reclaim, higher logical IDs first. -/
def State.shrink : Nat → Nat → State → State
  | 0, _, s => s
  | fuel + 1, k, s =>
    let held := (List.range 256).filter fun c => bitOf (s.clickNow k) c && !(s.clc.reclaim.any fun p => p.1 = c)
    let want := if s.clickClass k = 2 then s.clickWant k else 0
    if held.length ≤ want then s
    else
      match (held.filter fun c => s.cellFree k c).getLast? with
      | some c => State.shrink fuel k (s.leaveCell k c)
      | none =>
        match (held.filter fun c => s.victimOk k c true || (!s.bit (rSys 8) 3 && (s.taskOn c).isSome)).getLast? with
        | some c => State.shrink fuel k (s.reclaimCell k c 0)
        | none => s

/-- Free cells are handed out by descending PRIO, then ascending clicking (R285). -/
def State.handOut (s : State) : State :=
  s.placeOrder.foldl (fun s k =>
    if s.clickClass k ≠ 2 then s
    else ((s.poolCells).take (s.clickWant k - popCount 256 (s.clickNow k))).foldl (fun s c => s.joinCell k c) s) s

/-- Reserved cells stand in their clicking unless ABSENT; an ABSENT cell is in no clicking (R284, R285). -/
def State.refreshHeld (s : State) : State :=
  (List.range 64).foldl (fun s k =>
    let now := s.clickNow k
    let lost := (List.range 256).foldl (fun m c => if s.cellState c = csABSENT then m ||| 2 ^ c else m) 0
    let res := if s.clickClass k = 1 then s.clickRes k else 0
    let new := (now ||| res) &&& (2 ^ 256 - 1 - lost)
    let s := if new = now then s else
      let s := s.setNow k new
      (List.range 256).foldl (fun s c => if bitOf new c && !bitOf now c then s.joinCell k c else s) s
    if s.clickClass k = 1 || s.clickClass k = 2 then s.checkMin k else s) s

/-- CLC_STATUS.SAVED. -/
def State.showSaved (s : State) : State :=
  s.setFld (rClc 4) 24 16 (s.clc.tasks.filter fun (t : ClcTask) => t.place = 2).length

/-- One round of the Clicker's work. -/
def State.clickerRound (s : State) : State :=
  let s := s.refreshHeld.enforceStops
  let s := s.finishReclaims fun s k => s.hungry k && (s.freeCells k).isEmpty
  let s := s.finishJobs.startPending
  let s := s.placeAll.bursts.placeAll
  let s := (List.range 64).foldl (fun s k => if s.clickClass k = 1 then s else State.shrink 257 k s) s.burstReturns
  s.handOut.placeAll.showSaved.showFree

/-- TASK_PLACEMENT (R290): the Clicker places tasks while CLC_CTRL.EN is 1. -/
def execTaskPlacement (s : State) : Host.Outcome State Fault Refusal :=
  .next (if s.bit (rClc 0) 0 then s.clickerRound else s)

/-! Outcomes (R294). -/

/-- The oldest report of a cell is handled. -/
def State.outcome (s : State) (c status : Nat) : State :=
  match s.taskOn c with
  | none => if status = 1 && (s.cellClick c).isSome then s.ackReq c else s
  | some t =>
    let drop (s : State) : State := { s with clc.tasks := s.clc.tasks.filter fun (q : ClcTask) => q ≠ t }
    match status with
    | 0 =>
      let s := (drop s).bump (rClick (s.taskClick t) 0x18)
      match s.jobOf t.slot with
      | none => s
      | some j =>
        let s := s.modJob t.slot fun j => { j with sides := modAt j.sides t.side fun x => { x with left := x.left - 1 } }
        let more := match j.sides[t.side]? with | some x => decide (x.left > 1) | none => true
        if more || j.stop.isSome then s else s.stageDone t.slot t.side
    | 1 => ((drop s).stopJob t.slot 1).ackReq c
    | 10 =>
      let s := { s with clc.tasks := s.clc.tasks.map fun (q : ClcTask) => if q = t then { q with place := 3, saved := 0 } else q }
      (s.modJob t.slot fun j => { j with restarts := j.restarts + 1 }).bump (rClc 0x18)
    | st => (drop s).stopJob t.slot st

/-- A task outcome reported by a cell (R294). -/
def execTaskOutcome (s : State) : Host.Outcome State Fault Refusal :=
  .next (match s.cel.reports with
    | [] => s
    | (c, st) :: r => ((({ s with cel.reports := r }).outcome c st).enforceStops).finishJobs)

/-- COMPLETION_BUFFER_DRAIN (R296). -/
def execCompletionBufferDrain (s : State) : Host.Outcome State Fault Refusal :=
  .next ((State.drainPosts (s.clc.posts.length + 1) s).startPending)

/-- What an instance reset does to the Clicker (R297). -/
def State.clickerInstAbort (s : State) (i : Nat) : State :=
  let s := { s with clc.pend := s.clc.pend.filter fun (r : ClcRel) => decide (s.clickInst (s.slotClick r.slot) ≠ i) }
  let s := (List.range 64).foldl (fun s k =>
    if s.clickClass k ≠ 0 && s.clickInst k = i then s.stopClick k 2 else s) s
  let sw := s.clc.switching.map fun (p : Nat × ClcSwitch) => if s.clickInst p.1 = i then (p.1, { p.2 with abort := true }) else p
  let s := { s with clc.switching := sw }
  s.enforceStops.finishJobs

/-! Twiwin-L checkpoints (R317, R318, R490, R491). -/

/-- The digest of a tensor: words of 8 bytes, little-endian. -/
def digestOf (l : List Byte) : Nat :=
  let n := l.length / 8
  let sum := (List.range n).foldl (fun t i => (t + leAt l (8 * i) 8 * (2 * i + 1)) % 2 ^ 64) 0
  2 ^ 64 * sum + (crc64Run l (2 ^ 64 - 1) ^^^ (2 ^ 64 - 1))

/-- The digest engine of a die reads its oldest checkpoint and hands the digest to TWN. -/
def execCheckpointDigest (side : Bool) (s : State) : Host.Outcome State Fault Refusal :=
  .next (match s.clc.ckpts.find? fun (c : ClcCkpt) => c.side == side with
    | none => s
    | some c =>
      let s := { s with clc.ckpts := s.clc.ckpts.erase c }
      match s.dmaReadLong (mDigest (b2n side)) c.addr c.bytes with
      | (s, some (l, bad)) =>
        { s with twn.digests := s.twn.digests ++ [Digest.mk c.slot c.seq c.ckpt side (digestOf l) bad false s.now] }
      | (s, none) => { s with twn.digests := s.twn.digests ++ [Digest.mk c.slot c.seq c.ckpt side 0 false true s.now] })

/-- The first failing comparison of an entry is captured (R513). -/
def State.twlCapture (s : State) (t seq ckpt cause da db : Nat) : State :=
  let a := rTwn (0x1000 + t * 0x40 + 0x10)
  if s.fld (a + 4) 31 24 ≠ 0 then s
  else s.setRegBytes a (leBytes 4 seq ++ leBytes 2 ckpt ++ leBytes 1 cause ++ leBytes 1 1 ++ zeroBytes 8 ++ leBytes 16 da ++ leBytes 16 db)

/-- A comparison that fails: cause 1 DIFF, 2 POISON, 3 READ, 4 LATE. -/
def State.twlFail (s : State) (slot seq ckpt cause da db : Nat) : State :=
  let late := cause = 4
  let s := match s.twlEntry slot with
    | none => s
    | some t =>
      let r := rTwn (0x1000 + t * 0x40)
      let s := (s.bump (r + if late then 0xC else 8)).twlCapture t seq ckpt cause da db
      s.fault (if late then 9 else 8) (if late then s.fld r 18 16 else s.fld r 14 12) (mDigest 0) slot (ckpt + 2 ^ 16 * cause)
  let s := (s.orWord rTwnIrq (if late then 0x20 else 0x10)).orWord rClcIrq (if late then 0x20 else 0x10)
  ((s.stopJob slot (if late then 8 else 7)).enforceStops).finishJobs

/-- A comparison that passes: the checkpoint counts, and sides that wait for it go on. -/
def State.twlPass (s : State) (slot : Nat) : State :=
  let s := match s.twlEntry slot with | some t => s.bump (rTwn (0x1000 + t * 0x40 + 4)) | none => s
  let s := (s.modJob slot fun j => { j with ckpts := j.ckpts + 1 }).bump (rRelSlot slot 0x2C)
  let s := match s.jobOf slot with
    | none => s
    | some j => (List.range j.sides.length).foldl (fun s i =>
      match j.sides[i]? with
      | some (x : ClcSide) => if x.holding then s.startStage slot i (x.stage + 1) else s
      | none => s) s
  s.finishJobs

/-- TWN compares the two digests of a slot's oldest checkpoint that has both (R491). -/
def execDigestCompare (slot : Fin 4096) (s : State) : Host.Outcome State Fault Refusal :=
  let mine := s.twn.digests.filter fun (d : Digest) => d.slot = slot.val
  let pair := mine.findSome? fun (d : Digest) =>
    (mine.find? fun (e : Digest) => e.seq = d.seq && e.ckpt = d.ckpt && e.side && !d.side).map fun e => (d, e)
  .next (match pair with
    | none => s
    | some (a, b) =>
      let s := { s with twn.digests := (s.twn.digests.erase a).erase b }
      let cause := if a.poison || b.poison then 2 else if a.readErr || b.readErr then 3 else if a.digest = b.digest then 0 else 1
      if cause = 0 then s.twlPass slot else s.twlFail slot a.seq a.ckpt cause a.digest b.digest)

/-- The second digest of a checkpoint has not come within TWL_TIMEOUT (R318, R491). -/
def execDigestLate (slot : Fin 4096) (s : State) : Host.Outcome State Fault Refusal :=
  let mine := s.twn.digests.filter fun (d : Digest) => d.slot = slot.val
  let lone := mine.find? fun (d : Digest) => !(mine.any fun (e : Digest) => e.seq = d.seq && e.ckpt = d.ckpt && e.side != d.side)
  .next (match lone with
    | none => s
    | some d =>
      let s := { s.timeTo (d.time + 4000 * s.fld (rClc 0) 31 16) with twn.digests := s.twn.digests.erase d }
      s.twlFail slot d.seq d.ckpt 4 (if d.side then 0 else d.digest) (if d.side then d.digest else 0))

end Sys2Proof.Machine
end

