-- ==== Sys2Proof/Machine/Ras.lean ====
section
/-! DEFINITION. The raster front ends: commands, passes, visibility, splats and events (11_raster_and_display.md R360 to R370,
R375, R376, R385). -/

namespace Sys2Proof.Machine

def rFe (f o : Nat) : Nat := blkBase bRAS + 0x100 + f * 0x40 + o
def rRasIrq : Nat := blkBase bRAS

def State.feOwner (s : State) (f : Nat) : Option (Fin 64) := asInst (s.fld (rFe f 0) 5 0)
def State.feOf (s : State) (f : Nat) : RasFe := s.ras.fe.getD f ⟨none, []⟩
def State.setFe (s : State) (f : Nat) (x : RasFe) : State := { s with ras.fe := setAt s.ras.fe f x }
def State.setPass (s : State) (f : Nat) (p : Option RasPass) : State := s.setFe f { s.feOf f with pass := p }

/-- The front end has a command to consume: enabled, not stopped, its raster path powered (R21, R360). -/
def State.feRuns (s : State) (f : Nat) : Bool :=
  s.bit (rFe f 0) 31 && !s.bit (rFe f 0x18) 2 && s.fld (rSys 4) 2 0 ≠ 3 && s.fld (rFe f 0x14) 15 0 ≠ s.fld (rFe f 0x10) 15 0

/-- Address of the command at HEAD (R361). -/
def State.feCmdAddr (s : State) (f : Nat) : Nat :=
  4096 * (s.word64 (rFe f 8) / 4096) + s.fld (rFe f 0x14) 15 0 % 2 ^ s.fld (rFe f 0) 19 16 * 32

/-- STATUS.BUSY follows HEAD, TAIL and ERR. -/
def State.feShow (s : State) (f : Nat) : State := s.setBit (rFe f 0x18) 0 (s.feRuns f)

/-- The command at HEAD is consumed. -/
def State.feNext (s : State) (f : Nat) : State :=
  ((s.setFld (rFe f 0x14) 15 0 (s.fld (rFe f 0x14) 15 0 + 1)).setBit (rFe f 0x18) 1 false).feShow f

/-! Events (R370). -/

/-- The queue that takes the events of a front end, when it may. -/
def State.feQueue (s : State) (f : Nat) : Option (Nat × HqmQ) :=
  let q := s.fld (rFe f 0x34) 18 0
  if !s.bit (rFe f 0x34) 31 then none
  else
    match fmGet s.hqm.queues q with
    | some x => if x.prodSys && x.esize = 1 && x.owner = s.fld (rFe f 0) 5 0 then some (q, x) else none
    | none => none

/-- An event of a front end: merged into a waiting entry of its TYPE, posted, kept, or discarded. -/
def State.feEvent (s : State) (f type code pass : Nat) : State :=
  let fe := s.feOf f
  let rcd (n : Nat) : List Byte := leBytes 1 type ++ leBytes 1 code ++ leBytes 2 n ++ leBytes 4 (s.fld (rFe f 0x14) 15 0) ++
    leBytes 4 pass ++ zeroBytes 4 ++ leBytes 8 (s.feCmdAddr f) ++ leBytes 8 s.recordTime.1
  match fmGet fe.events type with
  | some l =>
    s.setFe f { fe with events := fmPut fe.events type (l.take 2 ++ leBytes 2 (min 0xFFFF (leAt l 2 2 + 1)) ++ l.drop 4) }
  | none =>
    match s.feQueue f with
    | none => s.bump (rFe f 0x38)
    | some (q, x) =>
      match s.post q x.gen (rcd 1) with
      | (s, .full) => s.setFe f { s.feOf f with events := fmPut (s.feOf f).events type (rcd 1) }
      | (s, .done) => s
      | (s, .gone) => s.bump (rFe f 0x38)

/-- Waiting entries are posted again. -/
def State.feRetry (s : State) (f : Nat) : State :=
  (s.feOf f).events.foldl (fun s p =>
    let drop (s : State) : State := s.setFe f { s.feOf f with events := fmDel (s.feOf f).events p.1 }
    match s.feQueue f with
    | none => (drop s).bump (rFe f 0x38)
    | some (q, x) =>
      match s.post q x.gen p.2 with
      | (s, .full) => s
      | (s, .done) => drop s
      | (s, .gone) => (drop s).bump (rFe f 0x38)) s

def execRasEventRetry (fe : Fin 2) (s : State) : Host.Outcome State Fault Refusal := .next (s.feRetry fe)

/-- The front end stops at its command (R369): error code 1 opcode, 2 field, 3 pass order, 4 translation, 5 access. -/
def State.feError (s : State) (f code : Nat) : State :=
  let id := match (s.feOf f).pass with | some p => p.id | none => 0
  let s := (s.setFld (rFe f 0x18) 7 4 code).setFld (rFe f 0x18) 2 0 4
  let s := ((s.setWord64 (rFe f 0x20) (s.feCmdAddr f)).orWord rRasIrq (2 ^ f)).fault 0x1E 1 (mRas f) f code
  let s := s.feEvent f 1 code id
  if code ≥ 4 then s.setPass f none else s

def accCode : AccErr → Nat
  | .translation => 4
  | .response => 5

/-- The command at HEAD when the front end runs and it has the opcode asked for. A command with a reserved opcode, one that
cannot be read, or one with a byte that must be 0 stops the front end, whichever command was asked for. -/
def State.feFetch (s : State) (f want : Nat) : State × Option (List Byte) :=
  if !s.feRuns f then (s, none)
  else
    match s.rdV (s.feOwner f) (mRas f) 1 (s.feCmdAddr f) 32 with
    | (s, .error e) => (s.feError f (accCode e), none)
    | (s, .ok (l, bad)) =>
      let op := leAt l 0 1
      if bad then (s.feError f 5, none)
      else if op > 7 then (s.feError f 1, none)
      else if op ≠ want then (s, none)
      else (s, some l)

/-- Runs a command: the bytes that must be 0 are checked first; the meaning gives the state after it, or an error code. -/
def State.feRun (s : State) (f want : Nat) (zeros : List (Nat × Nat)) (go : State → List Byte → State × Nat) : State :=
  match s.feFetch f want with
  | (s, none) => s
  | (s, some l) =>
    if !zeroAt l 1 3 || zeros.any fun p => !zeroAt l p.1 p.2 then s.feError f 2
    else
      match go s l with
      | (s, 0) => s.feNext f
      | (s, e) => s.feError f e

/-- RAS_FE_TAIL (R361, R385). -/
def execRasFeTailWrite (m : Master) (inst : Option (Fin 64)) (fe : Fin 2) (v : BitVec 16) (s : State) :
    Host.Outcome State Fault Refusal :=
  .next (if isInst inst (s.fld (rFe fe 0) 5 0) || (inst.isNone && s.sysWriter m) then
    ((s.setFld (rFe fe 0x10) 15 0 v.toNat).feShow fe).respOk []
    else s.refuse m 2 (rFe fe 0x10))

def execRasNop (fe : Fin 2) (s : State) : Host.Outcome State Fault Refusal :=
  .next (s.feRun fe 0 [(4, 28)] fun s _ => (s, 0))

/-- The target descriptor keeps R364. -/
def targetOk (d : List Byte) : Bool :=
  decide (1 ≤ leAt d 0 2 ∧ leAt d 0 2 ≤ 16384 ∧ 1 ≤ leAt d 2 2 ∧ leAt d 2 2 ≤ 16384) && zeroAt d 0x28 24

def execBeginPass (fe : Fin 2) (s : State) : Host.Outcome State Fault Refusal :=
  .next (s.feRun fe 1 [(0x10, 16)] fun s l =>
    if leAt l 8 8 % 64 ≠ 0 then (s, 2)
    else if (s.feOf fe).pass.isSome then (s, 3)
    else
      match s.rdV (s.feOwner fe) (mRas fe) 1 (leAt l 8 8) 64 with
      | (s, .error e) => (s, accCode e)
      | (s, .ok (d, bad)) =>
        if bad then (s, 5) else if !targetOk d then (s, 2)
        else (s.setPass fe (some ⟨leAt l 4 4, d, [], 0, false⟩), 0))

/-! Triangles (R365). -/

/-- An FP32 value as an integer multiple of 2^-149 when finite. -/
def fixOf (a : Nat) : Option Int :=
  match f32 a with
  | .fin neg m e => some (scaledInt neg m e (-149))
  | _ => none

/-- n / d rounded to the nearest integer, ties to even. -/
def rneDiv (n d : Int) : Int :=
  let q := n / d
  let r := n % d
  if 2 * r < d then q else if 2 * r > d then q + 1 else if q % 2 = 0 then q else q + 1

/-- A coordinate in 1/256 pixel, none where it is not finite or lies outside plus or minus 32,768. -/
def snapCoord (a : Nat) : Option Int :=
  match fixOf a with
  | none => none
  | some v => if v > 32768 * 2 ^ 149 || v < -32768 * 2 ^ 149 then none else some (rneDiv v (2 ^ 141))

def triArea (t : RasTri) : Int :=
  let x (i : Nat) := t.x.getD i 0
  let y (i : Nat) := t.y.getD i 0
  (x 1 - x 0) * (y 2 - y 0) - (x 2 - x 0) * (y 1 - y 0)

/-- A triangle from its 48 bytes; none where it is culled. Counter-clockwise is seen with Y downwards: PRESUMED (log 140). -/
def triOf (l : List Byte) (prim st : Nat) : Option RasTri :=
  let v (i o : Nat) : Nat := leAt l (16 * i + o) 4
  let xs := [0, 1, 2].map fun i => snapCoord (v i 0)
  let ys := [0, 1, 2].map fun i => snapCoord (v i 4)
  let fin := [0, 1, 2].all fun i => (fixOf (v i 8)).isSome && match fixOf (v i 12) with | some w => decide (w > 0) | none => false
  if !fin || xs.any Option.isNone || ys.any Option.isNone then none
  else
    let t : RasTri := ⟨prim, st, xs.map fun x => x.getD 0, ys.map fun y => y.getD 0, [v 0 8, v 1 8, v 2 8], [v 0 12, v 1 12, v 2 12]⟩
    let a := triArea t
    let front := if bitOf st 4 then decide (a < 0) else decide (a > 0)
    let cull := bitsOf st 3 2
    if a = 0 || (cull = 1 && !front) || (cull = 2 && front) then none else some t

/-- Tiles of 32 by 32 pixels that the bounding box touches, inside the target: columns and rows. -/
def triTiles (t : RasTri) (w h : Nat) : (Nat × Nat) × (Nat × Nat) :=
  let lo (l : List Int) : Int := l.foldl min (l.headD 0)
  let hi (l : List Int) : Int := l.foldl max (l.headD 0)
  let rng (l : List Int) (n : Nat) : Nat × Nat :=
    let a := max 0 (lo l / 8192)
    let b := min (n - 1 : Int) (hi l / 8192)
    if b < a then (0, 0) else (a.toNat, b.toNat + 1)
  (rng t.x (ceilDiv w 32), rng t.y (ceilDiv h 32))

/-- STATE keeps R362. -/
def drawStateOk (st : Nat) : Bool := decide (st < 256 ∧ bitsOf st 3 2 ≠ 3 ∧ bitsOf st 7 5 ≤ 4)

/-- A triangle is binned, or dropped once the bin area is full (R364, R369). -/
def State.binTri (s : State) (f : Nat) (p : RasPass) (t : RasTri) : State × RasPass × Option AccErr :=
  let tiles := triTiles t (leAt p.desc 0 2) (leAt p.desc 2 2)
  let n := 64 + 8 * ((tiles.1.2 - tiles.1.1) * (tiles.2.2 - tiles.2.1))
  if p.full then (s, p, none)
  else if p.used + n > leAt p.desc 0x1C 4 then
    (((s.orWord rRasIrq 4).fault 0x1E 1 (mRas f) f 0), { p with full := true }, none)
  else
    let (l, s) := s.freeBytes n
    match s.wrLong (s.feOwner f) (mRas f) (leAt p.desc 0x20 8 + p.used) l false with
    | (s, some e) => (s, p, some e)
    | (s, none) => (s, { p with tris := p.tris ++ [t], used := p.used + n }, none)

/-- The triangles of a DRAW in order, until an access fails (R362, R365): first index, triangles left. -/
def State.drawTris (s : State) (f base start st : Nat) (p : RasPass) (i : Nat) : Nat → State × RasPass × Option AccErr
  | 0 => (s, p, none)
  | n + 1 =>
    match s.rdLong (s.feOwner f) (mRas f) (base + i * 48) 48 with
    | (s, .error e) => (s, p, some e)
    | (s, .ok (v, bad)) =>
      match if bad then none else triOf v ((start + i) % 2 ^ 32) st with
      | none => (s.bump (rFe f 0x28)).drawTris f base start st p (i + 1) n
      | some t =>
        match s.binTri f p t with
        | (s, p, some e) => (s, p, some e)
        | (s, p, none) => s.drawTris f base start st p (i + 1) n

def execDraw (fe : Fin 2) (s : State) : Host.Outcome State Fault Refusal :=
  .next (s.feRun fe 2 [(0x18, 8)] fun s l =>
    let n := leAt l 4 4
    let st := leAt l 0x10 4
    if n = 0 || n > 16777216 || leAt l 8 8 % 16 ≠ 0 || !drawStateOk st then (s, 2)
    else
      match (s.feOf fe).pass with
      | none => (s, 3)
      | some p =>
        match s.drawTris fe (leAt l 8 8) (leAt l 0x14 4) st p 0 n with
        | (s, p, e) => (s.setPass fe (some p), match e with | some e => accCode e | none => 0))

/-! Visibility (R365 to R367). -/

/-- An exact quotient of integers rounded to FP32 by RNE. -/
def fOfQuot (n d : Int) : Nat :=
  let neg := decide (n < 0) != decide (d < 0)
  let a := 2 ^ 200 * n.natAbs
  let b := max 1 d.natAbs
  (numRoundMag 0 0 neg (a / b) (-200) (a % b ≠ 0) 0).1

/-- The edge function of an edge at a point, and whether a point on the edge is covered (top-left rule), for a triangle of
positive area. -/
def edgeAt (ax ay bx by' px py : Int) : Int := (bx - ax) * (py - ay) - (by' - ay) * (px - ax)
def topLeft (ax ay bx by' : Int) : Bool := (by' = ay && bx > ax) || by' < ay

/-- What triangle t gives at pixel (x, y): none where it does not cover the centre, else z, B1 and B2. The quotients are
rounded once: DEDUCED (log 141). -/
def triAt (t : RasTri) (x y : Nat) : Option (Nat × Nat × Nat) :=
  let a := triArea t
  let px : Int := 256 * x + 128
  let py : Int := 256 * y + 128
  let i1 := if a > 0 then 1 else 2
  let i2 := if a > 0 then 2 else 1
  let v (i : Nat) : Int × Int := (t.x.getD i 0, t.y.getD i 0)
  let e (p q : Nat) : Int := edgeAt (v p).1 (v p).2 (v q).1 (v q).2 px py
  let inside (p q : Nat) : Bool := e p q > 0 || (e p q = 0 && topLeft (v p).1 (v p).2 (v q).1 (v q).2)
  if !(inside 0 i1 && inside i1 i2 && inside i2 0) then none
  else
    let area : Int := a.natAbs
    let wa := e i2 0
    let wb := e 0 i1
    let w1 := if i1 = 1 then wa else wb
    let w2 := if i1 = 1 then wb else wa
    let w0 := area - w1 - w2
    let s1 := fOfQuot w1 area
    let s2 := fOfQuot w2 area
    let z (i : Nat) := t.z.getD i 0
    let zz := (fadd 0 (fadd 0 (z 0) (fmul 0 s1 (fsub 0 (z 1) (z 0)).1).1).1 (fmul 0 s2 (fsub 0 (z 2) (z 0)).1).1).1
    let iw (i : Nat) : Int := (fixOf (t.w.getD i 0)).getD 1
    let den := w0 * iw 0 + w1 * iw 1 + w2 * iw 2
    let b (w k : Int) : Nat := (clampInt (rneDiv (65536 * (w * k)) (max 1 den)) 0 65535).toNat
    some (zz, b w1 (iw 1), b w2 (iw 2))

/-- DEPTH_FUNC (R362). -/
def depthTest (st z d : Nat) : Bool :=
  match bitsOf st 7 5 with
  | 0 => flt z d
  | 1 => fle z d
  | 2 => flt d z
  | 3 => fle d z
  | _ => true

/-- A pixel after the OPAQUE triangles: depth and the visible triangle with its barycentrics. -/
def pixelVis (ts : List RasTri) (zc x y : Nat) : Nat × Option (Nat × Nat × Nat) :=
  ts.foldl (fun (acc : Nat × Option (Nat × Nat × Nat)) t =>
    if !bitOf t.st 0 then acc
    else
      match triAt t x y with
      | none => acc
      | some (z, b1, b2) =>
        if depthTest t.st z acc.1 then (if bitOf t.st 1 then z else acc.1, some (t.prim, b1, b2)) else acc) (zc, none)

/-- What a tile yields: visibility bytes, fragment records in order, and whether an OPAQUE triangle is visible. -/
def tileVis (p : RasPass) (tx ty : Nat) : List Byte × List (List Byte) × Bool :=
  let w := leAt p.desc 0 2
  let h := leAt p.desc 2 2
  let zc := leAt p.desc 4 4
  let ts := p.tris.filter fun t =>
    let r := triTiles t w h
    decide (r.1.1 ≤ tx ∧ tx < r.1.2 ∧ r.2.1 ≤ ty ∧ ty < r.2.2)
  let inTarget (k : Nat) : Bool := decide (tx * 32 + k % 32 < w) && decide (ty * 32 + k / 32 < h)
  let px := (List.range 1024).map fun k =>
    if inTarget k then pixelVis ts zc (tx * 32 + k % 32) (ty * 32 + k / 32) else (zc, none)
  let vis := px.flatMap fun q =>
    match q.2 with
    | some (id, b1, b2) => leBytes 4 id ++ leBytes 2 b1 ++ leBytes 2 b2
    | none => leBytes 4 0xFFFFFFFF ++ zeroBytes 4
  let frags := (ts.filter fun t => !bitOf t.st 0).flatMap fun t =>
    ((List.range 1024).zip px).filterMap fun q =>
      if !inTarget q.1 then none
      else
        match triAt t (tx * 32 + q.1 % 32) (ty * 32 + q.1 / 32) with
        | none => none
        | some (z, b1, b2) =>
          if depthTest t.st z q.2.1 then
            some (leBytes 4 t.prim ++ leBytes 2 b1 ++ leBytes 2 b2 ++ leBytes 2 q.1 ++ zeroBytes 6)
          else none
  (vis, frags, px.any fun q => q.2.isSome)

/-- What END_PASS has written so far: next fragment record, work-list entries, overflows met, access error. -/
structure PassOut where
  s : State
  next : Nat
  list : List Byte
  fragOvf : Bool
  err : Option AccErr
  deriving DecidableEq

/-- One tile's outputs (R367, R369). -/
def passTile (f : Nat) (p : RasPass) (n : Nat) (o : PassOut) : PassOut :=
  if o.err.isSome then o
  else
    let tw := ceilDiv (leAt p.desc 0 2) 32
    let (vis, frags, opq) := tileVis p (n % tw) (n / tw)
    let room := leAt p.desc 0x18 4 - o.next
    let kept := frags.take room
    let ovf := decide (frags.length > room)
    let s := if ovf then (o.s.bumpBy (rFe f 0x2C) (frags.length - room)).orWord rRasIrq 4 else o.s
    match s.wrLong (s.feOwner f) (mRas f) (leAt p.desc 8 8 + 8192 * n) vis false with
    | (s, some e) => { o with s := s, err := some e }
    | (s, none) =>
      match s.wrLong (s.feOwner f) (mRas f) (leAt p.desc 0x10 8 + o.next * 16) kept.flatten false with
      | (s, some e) => { o with s := s, err := some e }
      | (s, none) =>
        let ent := if opq || !frags.isEmpty then
            leBytes 4 n ++ leBytes 4 o.next ++ leBytes 4 kept.length ++ leBytes 4 (b2n opq + 2 * b2n ovf + 4 * b2n p.full)
          else []
        { o with s := s, next := o.next + kept.length, list := o.list ++ ent, fragOvf := o.fragOvf || ovf }

/-- The outputs of every tile of a pass, in tile order (R367). -/
def State.passTiles (s : State) (f : Nat) (p : RasPass) : PassOut :=
  (List.range (ceilDiv (leAt p.desc 0 2) 32 * ceilDiv (leAt p.desc 2 2) 32)).foldl (fun o k => passTile f p k o)
    ⟨s, 0, [], false, none⟩

/-- A release made by a front end as a master of its owner (R363). -/
def State.feRelease (s : State) (f slot param : Nat) : State :=
  (s.release slot (mRas f) (s.bit (rRelSlot slot 0) 14 && decide (s.fld (rRelSlot slot 0) 13 8 = s.fld (rFe f 0) 5 0)) param 0).1

def execEndPass (fe : Fin 2) (s : State) : Host.Outcome State Fault Refusal :=
  .next (s.feRun fe 3 [(6, 2), (0x10, 16)] fun s l =>
    let slot := leAt l 4 2
    if slot ≥ 4096 || leAt l 8 8 % 64 ≠ 0 then (s, 2)
    else
      match (s.feOf fe).pass with
      | none => (s, 3)
      | some p =>
        let o := s.passTiles fe p
        match o.err with
        | some e => (o.s, accCode e)
        | none =>
          match o.s.wrLong (s.feOwner fe) (mRas fe) (leAt l 8 8 + 16) o.list false with
          | (s, some e) => (s, accCode e)
          | (s, none) =>
            match s.wrLong (s.feOwner fe) (mRas fe) (leAt l 8 8) (leBytes 4 (o.list.length / 16) ++ zeroBytes 12) false with
            | (s, some e) => (s, accCode e)
            | (s, none) =>
              let bin := p.full && !o.list.isEmpty
              let s := (s.setPass fe none).bump (rFe fe 0x30)
              let s := if bin || o.fragOvf then s.feEvent fe 2 (b2n bin + 2 * b2n o.fragOvf) p.id else s
              (s.feRelease fe slot p.id, 0))

def execRelease (fe : Fin 2) (s : State) : Host.Outcome State Fault Refusal :=
  .next (s.feRun fe 4 [(6, 2), (0xC, 20)] fun s l =>
    if leAt l 4 2 ≥ 4096 then (s, 2) else (s.feRelease fe (leAt l 4 2) (leAt l 8 4), 0))

/-- WAIT_MEM reads its address: consumed once the value is reached, else WAITING (R362). -/
def State.waitMem (s : State) (f : Nat) (polling : Bool) : State :=
  if s.bit (rFe f 0x18) 1 != polling then s
  else
    match s.feFetch f 5 with
    | (s, none) => s
    | (s, some l) =>
      if !zeroAt l 1 7 || !zeroAt l 0x18 8 || leAt l 8 8 % 8 ≠ 0 then s.feError f 2
      else
        match s.rdV (s.feOwner f) (mRas f) 1 (leAt l 8 8) 8 with
        | (s, .error e) => s.feError f (accCode e)
        | (s, .ok (v, bad)) =>
          if bad then s.feError f 5 else if leNat v ≥ leAt l 0x10 8 then s.feNext f else s.setBit (rFe f 0x18) 1 true

def execWaitMem (fe : Fin 2) (s : State) : Host.Outcome State Fault Refusal := .next (s.waitMem fe false)
def execWaitMemPoll (fe : Fin 2) (s : State) : Host.Outcome State Fault Refusal := .next (s.waitMem fe true)

def execSignalMem (fe : Fin 2) (s : State) : Host.Outcome State Fault Refusal :=
  .next (s.feRun fe 6 [(4, 4), (0x18, 8)] fun s l =>
    if leAt l 8 8 % 8 ≠ 0 then (s, 2)
    else
      match s.wrV (s.feOwner fe) (mRas fe) (leAt l 8 8) (sliceBytes l 0x10 8) false with
      | (s, some e) => (s, accCode e)
      | (s, none) => (s, 0))

/-! Splats (R375, R376). -/

/-- The descriptor keeps R375. -/
def splatOk (d : List Byte) : Bool :=
  let n := leAt d 8 4
  let c := leAt d 0xC 2
  let fm := leAt d 0xE 1
  let fl := leAt d 0xF 1
  decide (1 ≤ n ∧ n ≤ 16777216 ∧ 1 ≤ c ∧ c ≤ 256 ∧ fl < 8) && (fm == 0 || fm == 2 || fm == 3) && !(bitOf fl 1 && bitOf fl 2) &&
    decide (1 ≤ leAt d 0x1C 2 ∧ leAt d 0x1C 2 ≤ 4096 ∧ 1 ≤ leAt d 0x1E 2 ∧ leAt d 0x1E 2 ≤ 4096) &&
    decide (4 * (c + b2n (bitOf fl 2)) ≤ leAt d 0x28 4) && zeroAt d 0x2C 4 && zeroAt d 0x50 16

/-- The floor of an FP32 value, none where it is not finite. -/
def floorOf (a : Nat) : Option Int := (fixOf a).map fun v => v / 2 ^ 149

/-- Cells and weights of a point (R376). -/
def splatCells (bil : Bool) (gx gy : Nat) : List (Option (Int × Int) × Nat) :=
  if !bil then
    [((match floorOf gx, floorOf gy with | some x, some y => some (x, y) | _, _ => none), 0x3F800000)]
  else
    let ax := (fsub 0 gx 0x3F000000).1
    let ay := (fsub 0 gy 0x3F000000).1
    match floorOf ax, floorOf ay with
    | some x, some y =>
      let fx := (fsub 0 ax (fOfInt x)).1
      let fy := (fsub 0 ay (fOfInt y)).1
      let nx := (fsub 0 0x3F800000 fx).1
      let ny := (fsub 0 0x3F800000 fy).1
      [(some (x, y), (fmul 0 nx ny).1), (some (x + 1, y), (fmul 0 fx ny).1), (some (x, y + 1), (fmul 0 nx fy).1),
        (some (x + 1, y + 1), (fmul 0 fx fy).1)]
    | _, _ => [(none, 0), (none, 0), (none, 0), (none, 0)]

/-- One contribution to a cell: every channel updated from the feature row, and the weight sum with WSUM. -/
def State.splatCell (s : State) (f : Nat) (d : List Byte) (cx cy wt : Nat) (feats : List Nat) (bad : Bool) : State × Option AccErr :=
  let fl := leAt d 0xF 1
  let vals := if bitOf fl 2 then feats ++ [0] else feats
  let a := leAt d 0x20 8 + (cy * leAt d 0x1C 2 + cx) * leAt d 0x28 4
  match s.rdLong (s.feOwner f) (mRas f) a (4 * vals.length) with
  | (s, .error e) => (s, some e)
  | (s, .ok (l, tbad)) =>
    let new := ((List.range vals.length).zip vals).flatMap fun q =>
      let t := leAt l (4 * q.1) 4
      let v := if q.1 ≥ feats.length then (fadd 0 t wt).1
        else if bitOf fl 1 then fminmax true t (fmul 0 wt q.2).1 else (fadd 0 t (fmul 0 wt q.2).1).1
      leBytes 4 v
    s.wrLong (s.feOwner f) (mRas f) a new (bad || tbad)

/-- One point of a splat. -/
def State.splatPoint (s : State) (f : Nat) (d : List Byte) (i : Nat) : State × Option AccErr :=
  match s.rdLong (s.feOwner f) (mRas f) (leAt d 0 8 + i * 16) 16 with
  | (s, .error e) => (s, some e)
  | (s, .ok (p, pbad)) =>
    let g (k : Nat) := leAt d (0x30 + 4 * k) 4
    let dd := leAt p 8 4
    let q0 := (fmul 0 (leAt p 0 4) dd).1
    let q1 := (fmul 0 (leAt p 4 4) dd).1
    let row (r : Nat) : Nat :=
      (fadd 0 (fadd 0 (fadd 0 (fmul 0 (g (4 * r)) q0).1 (fmul 0 (g (4 * r + 1)) q1).1).1 (fmul 0 (g (4 * r + 2)) dd).1).1 (g (4 * r + 3))).1
    let fm := leAt d 0xE 1
    let c := leAt d 0xC 2
    let eb := elemBits fm / 8
    match s.rdLong (s.feOwner f) (mRas f) (leAt d 0x10 8 + leAt p 12 4 * leAt d 0x18 4) (c * eb) with
    | (s, .error e) => (s, some e)
    | (s, .ok (fb, fbad)) =>
      let feats := (List.range c).map fun k => (numConvert fm 0 0 (leAt fb (k * eb) eb) 0).1
      (splatCells (bitOf (leAt d 0xF 1) 0) (row 0) (row 1)).foldl (fun (acc : State × Option AccErr) q =>
        match acc with
        | (s, some e) => (s, some e)
        | (s, none) =>
          match q.1 with
          | some (x, y) =>
            if x < 0 || y < 0 || x ≥ leAt d 0x1C 2 || y ≥ leAt d 0x1E 2 || pbad then (s.bump (blkBase bRAS + 0xC), none)
            else s.splatCell f d x.toNat y.toNat q.2 feats fbad
          | none => (s.bump (blkBase bRAS + 0xC), none)) (s, none)

/-- The points of a splat in order, until an access fails. -/
def State.splatPoints (s : State) (f : Nat) (d : List Byte) : State × Option AccErr :=
  (List.range (leAt d 8 4)).foldl (fun (acc : State × Option AccErr) i =>
    match acc with | (s, some e) => (s, some e) | (s, none) => s.splatPoint f d i) (s, none)

def execSplat (fe : Fin 2) (s : State) : Host.Outcome State Fault Refusal :=
  .next (s.feRun fe 7 [(4, 4), (0x10, 16)] fun s l =>
    if leAt l 8 8 % 64 ≠ 0 then (s, 2)
    else
      match s.rdLong (s.feOwner fe) (mRas fe) (leAt l 8 8) 96 with
      | (s, .error e) => (s, accCode e)
      | (s, .ok (d, bad)) =>
        if bad then (s, 5) else if !splatOk d then (s, 2)
        else
          match s.splatPoints fe d with
          | (s, e) => (s, match e with | some e => accCode e | none => 0))

/-! Restart (R369, R385). -/

/-- Who may write RAS_FE_CTRL. -/
def State.feWriter (s : State) (m : Master) (inst : Option (Fin 64)) (f : Nat) : Bool :=
  isInst inst (s.fld (rFe f 0) 5 0) || (inst.isNone && s.sysWriter m)

/-- The stop ends, at a HEAD. -/
def State.feRestart (s : State) (f head : Nat) : State :=
  if !s.bit (rFe f 0x18) 2 then s
  else ((s.setFld (rFe f 0x14) 15 0 head).setFld (rFe f 0x18) 7 0 0).feShow f

def execSkipCmd (m : Master) (inst : Option (Fin 64)) (fe : Fin 2) (s : State) : Host.Outcome State Fault Refusal :=
  .next (if s.feWriter m inst fe then (s.feRestart fe (s.fld (rFe fe 0x14) 15 0 + 1)).respOk [] else s.refuse m 2 (rFe fe 0x1C))

def execFlush (m : Master) (inst : Option (Fin 64)) (fe : Fin 2) (s : State) : Host.Outcome State Fault Refusal :=
  .next (if s.feWriter m inst fe then (s.feRestart fe (s.fld (rFe fe 0x10) 15 0)).respOk [] else s.refuse m 2 (rFe fe 0x1C))

/-- An instance reset abandons the current command and the pass of its front ends (R369). -/
def State.feInstReset (s : State) (i : Nat) : State :=
  [0, 1].foldl (fun s f =>
    if s.fld (rFe f 0) 5 0 ≠ i || !s.bit (rFe f 0) 31 then s
    else
      let s := (s.setFe f ⟨none, []⟩).setFld (rFe f 0x18) 7 0 0
      (s.setFld (rFe f 0x14) 15 0 (s.fld (rFe f 0x10) 15 0)).feShow f) s

end Sys2Proof.Machine
end

