-- ==== Sys2Proof/Machine/Dpy.lean ====
section
/-! DEFINITION. Display pipes: scan-out, flips, lock and the side channel (11_raster_and_display.md R378 to R386). -/

namespace Sys2Proof.Machine

def rPipe (n o : Nat) : Nat := blkBase bDPY + 0x1000 + 0x100 * n + o
def rDpyIrq : Nat := blkBase bDPY

def State.dpyOf (s : State) (n : Nat) : DpyPipe := s.dpy.pipes.getD n ⟨false, false, 0⟩
def State.setDpy (s : State) (n : Nat) (x : DpyPipe) : State := { s with dpy.pipes := setAt s.dpy.pipes n x }
def State.pipeOwner (s : State) (n : Nat) : Option (Fin 64) := asInst (s.fld (rPipe n 0x7C) 5 0)
def State.pipeState (s : State) (n : Nat) : Nat := s.fld (rPipe n 4) 1 0

/-- Who may write a pipe's registers (R386): its owner, a firmware processor or the safety island. -/
def State.pipeWriter (s : State) (m : Master) (inst : Option (Fin 64)) (n : Nat) : Bool :=
  isInst inst (s.fld (rPipe n 0x7C) 5 0) || (inst.isNone && s.sysWriter m)

/-- DPY_PIPE_CTRL written with EN 1: the pipe waits for its power-admission token (R382). -/
def State.pipeEnable (s : State) (n : Nat) (expect : Bool) : State :=
  let s := s.setFld (rPipe n 0) 1 0 (1 + 2 * b2n expect)
  if s.pipeState n = 0 then s.setFld (rPipe n 4) 1 0 1 else s

def execDpyPipeEnable (m : Master) (inst : Option (Fin 64)) (pipe : Fin 4) (expect : Bool) (s : State) :
    Host.Outcome State Fault Refusal :=
  .next (if s.pipeWriter m inst pipe then (s.pipeEnable pipe expect).respOk [] else s.refuse m 2 (rPipe pipe 0))

/-- The pipe is OFF: its lanes carry nothing (R380, R382). -/
def State.dpyOff (s : State) (n : Nat) : State := (s.setFld (rPipe n 4) 3 0 0).emit (.display n 0 [])

/-- DPY_PIPE_CTRL written with EN 0: a pipe that scans out stops at the end of its frame. -/
def State.pipeDisable (s : State) (n : Nat) (expect : Bool) : State :=
  let s := s.setFld (rPipe n 0) 1 0 (2 * b2n expect)
  if s.pipeState n = 3 then s else if s.pipeState n = 0 then s else s.dpyOff n

def execDpyPipeDisable (m : Master) (inst : Option (Fin 64)) (pipe : Fin 4) (expect : Bool) (s : State) :
    Host.Outcome State Fault Refusal :=
  .next (if s.pipeWriter m inst pipe then (s.pipeDisable pipe expect).respOk [] else s.refuse m 2 (rPipe pipe 0))

/-! Pixels (R381). -/

/-- A half-precision component scaled to an integer of bpc bits. -/
def halfToInt (h bpc : Nat) : Nat :=
  match (numDecode 3 h).1 with
  | .nan => 0
  | .inf neg => if neg then 0 else 2 ^ bpc - 1
  | .fin neg m e =>
    if neg then 0
    else
      let v := scaledInt false m e (-60)
      (rneDiv (min v (2 ^ 60) * (2 ^ bpc - 1)) (2 ^ 60)).toNat

def to10 (v : Nat) : Nat := v * 4 + v / 64
def to8 (v : Nat) : Nat := min ((v + 2) / 4) 255

/-- Components R, G, B of a stored pixel, in bpc bits. -/
def pixelOf (fmt bpc : Nat) (l : List Byte) : List Nat :=
  match fmt with
  | 0 => [leAt l 2 1, leAt l 1 1, leAt l 0 1].map fun v => if bpc = 10 then to10 v else v
  | 1 => let w := leAt l 0 4; [bitsOf w 29 20, bitsOf w 19 10, bitsOf w 9 0].map fun v => if bpc = 8 then to8 v else v
  | _ => [leAt l 0 2, leAt l 2 2, leAt l 4 2].map fun v => halfToInt v bpc

def pixelBytes (fmt : Nat) : Nat := if fmt = 2 then 8 else 4

/-- One line of the buffer at a base: components as 16-bit numbers; an access that fails goes out black and makes the line an
underflow, as do the pixels from k on when they are not fetched in time. -/
def State.scanLine (s : State) (n base line k : Nat) : State × List Byte × Bool :=
  let fmt := s.fld (rPipe n 0x14) 1 0
  let bpc := if s.bit (rPipe n 0x14) 4 then 10 else 8
  let w := s.fld (rPipe n 0x40) 15 0
  let pb := pixelBytes fmt
  match s.rdLong (s.pipeOwner n) (mDpy n) (base + line * s.word (rPipe n 0x18)) (w * pb) with
  | (s, .error _) => (s, zeroBytes (6 * w), true)
  | (s, .ok (l, _)) =>
    (s, (List.range w).flatMap fun x =>
      if x ≥ k then zeroBytes 6 else (pixelOf fmt bpc (sliceBytes l (x * pb) pb)).flatMap fun v => leBytes 2 v, decide (k < w))

/-- A line that underflows is counted; the first in each one-second window is recorded (R381). -/
def State.underflow (s : State) (n : Nat) : State :=
  let s := (s.bump (rPipe n 0x74)).orWord rDpyIrq (2 ^ (8 * n + 1))
  let w := s.safeNs / 1000000000 + 1
  if (s.dpyOf n).win = w then s else (s.setDpy n { s.dpyOf n with win := w }).fault 0x1E 1 (mDpy n) n 1

/-- The mode's frame time lies further than PPM from PERIOD (R383). -/
def State.lockOut (s : State) (n : Nat) : Bool :=
  let frame := 1000000 * (s.fld (rPipe n 0x40) 31 16 * s.fld (rPipe n 0x48) 31 16)
  let pclk := s.word (rPipe n 0x50)
  let per := s.word (rPipe n 0x60) * pclk
  let d := if frame ≥ per then frame - per else per - frame
  decide (1000000 * d > per * min 500 (s.fld (rPipe n 0x5C) 17 8))

/-- The frame start leaves its lock target (R383). -/
def State.lockLoss (s : State) (n : Nat) : State :=
  if s.bit (rPipe n 4) 2 then (s.setBit (rPipe n 4) 2 false).orWord rDpyIrq (2 ^ (8 * n + 2)) else s

/-- LOCKED and LOCK_FAIL at a frame start that is within 1 microsecond of its target, or not. -/
def State.lockFrame (s : State) (n : Nat) (onTarget : Bool) : State :=
  let en := s.bit (rPipe n 0x5C) 0
  let s := s.setBit (rPipe n 4) 3 (en && s.lockOut n)
  if en && onTarget && !s.lockOut n then s.setBit (rPipe n 4) 2 true else s.lockLoss n

/-- Line 0 of a frame: scan-out of the buffer shown, lines fetched late given as line and first pixel lost (R381, R384). A
pipe whose EN was cleared stops here. -/
def State.dpyFrame (s : State) (n : Nat) (onTarget : Bool) (late : List (Nat × Nat)) : State :=
  let st := s.pipeState n
  if st < 2 then s
  else if !s.bit (rPipe n 0) 0 then s.dpyOff n
  else
    let s := (s.setFld (rPipe n 4) 1 0 3).setWord (rPipe n 8) (65536 * ((s.fld (rPipe n 8) 31 16 + 1) % 65536))
    let s := s.lockFrame n onTarget
    let x := s.dpyOf n
    let s := if x.latched then (s.setDpy n { x with latched := false }).phxEvent 3 n else s
    let base := 4096 * (s.word64 (rPipe n (0x20 + 8 * s.fld (rPipe n 0x10) 9 8)) / 4096)
    (List.range (s.fld (rPipe n 0x48) 15 0)).foldl (fun s line =>
      let k := match late.find? fun p => p.1 = line with | some p => p.2 | none => 65536
      match s.scanLine n base line k with
      | (s, l, under) =>
        let s := if s.fld (rPipe n 0x14) 10 8 = 0 && n ≥ 2 then
            let (v, s) := s.freeBytes (2 * s.fld (rPipe n 0x40) 15 0)
            s.emit (.display n 2 v)
          else s.emit (.display n 1 l)
        if under then s.underflow n else s) s

def execDpyFrameStart (pipe : Fin 4) (onTarget : Bool) (late : List (BitVec 16 × BitVec 16)) (s : State) :
    Host.Outcome State Fault Refusal :=
  .next (s.dpyFrame pipe onTarget (late.map fun p => (p.1.toNat, p.2.toNat)))

/-- The start of line DL: a miss without a pending flip; a pending one is to be latched (R384). -/
def State.lineDl (s : State) (n : Nat) : State :=
  if s.pipeState n ≠ 3 then s
  else
    let s := s.setFld (rPipe n 8) 15 0 (s.fld (rPipe n 0x54) 15 0)
    let pend := s.bit (rPipe n 0x10) 4
    let s := s.setDpy n { s.dpyOf n with atDl := pend }
    if !pend && s.bit (rPipe n 0) 1 then (s.bump (rPipe n 0x70)).orWord rDpyIrq (2 ^ (8 * n)) else s

def execDpyLineDl (pipe : Fin 4) (s : State) : Host.Outcome State Fault Refusal := .next (s.lineDl pipe)

/-- The start of line V_ACTIVE: a flip pending at line DL is latched (R384). -/
def State.flipLatch (s : State) (n : Nat) : State :=
  if s.pipeState n ≠ 3 then s
  else
    let s := s.setFld (rPipe n 8) 15 0 (s.fld (rPipe n 0x48) 15 0)
    let x := s.dpyOf n
    if x.atDl && s.bit (rPipe n 0x10) 4 then
      let s := (s.setFld (rPipe n 0x10) 9 8 (s.fld (rPipe n 0x10) 1 0)).setBit (rPipe n 0x10) 4 false
      s.setDpy n { x with atDl := false, latched := true }
    else s

def execDpyFlipLatch (pipe : Fin 4) (s : State) : Host.Outcome State Fault Refusal := .next (s.flipLatch pipe)

/-- DPY_PIPE_FLIP (R384, R386): a flip written after line DL is not latched in this frame, whatever it replaces. -/
def State.flip (s : State) (n b : Nat) : State :=
  let s := s.setDpy n { s.dpyOf n with atDl := false }
  let s := if s.bit (rPipe n 0x10) 4 then s.bump (rPipe n 0x78) else s
  (s.setFld (rPipe n 0x10) 1 0 b).setBit (rPipe n 0x10) 4 true

def execDpyPipeFlip (m : Master) (inst : Option (Fin 64)) (pipe : Fin 4) (buf : Fin 4) (s : State) :
    Host.Outcome State Fault Refusal :=
  .next (if s.pipeWriter m inst pipe then (s.flip pipe buf).respOk [] else s.refuse m 2 (rPipe pipe 0xC))

/-- LOCKED clears (R383). -/
def execDpyLockLoss (pipe : Fin 4) (s : State) : Host.Outcome State Fault Refusal := .next (s.lockLoss pipe)

/-! The side channel (R379, R380, R386). -/

/-- A write of DPY_PIPE_SIDE: with GO the transfer starts. -/
def State.sideGo (s : State) (n v : Nat) : State :=
  let s := s.setWord (rPipe n 0x80) (v % 2 ^ 24 + 2 ^ 24 * bitsOf v 28 24 + 2 ^ 30 * bitsOf v 31 30)
  if bitOf v 31 then s.emit (.display n 3 (leBytes 4 v ++ s.regBytes (rPipe n 0x90) 16)) else s

def execSideGo (m : Master) (inst : Option (Fin 64)) (pipe : Fin 4) (v : BitVec 32) (s : State) :
    Host.Outcome State Fault Refusal :=
  .next (if s.pipeWriter m inst pipe then
      (if s.bit (rPipe pipe 0x80) 31 then s.respOk [] else (s.sideGo pipe v.toNat).respOk [])
    else s.refuse m 2 (rPipe pipe 0x80))

/-- The transfer ends; a read leaves its bytes in the data area. -/
def State.sideDone (s : State) (n : Nat) (data : List Byte) : State :=
  if !s.bit (rPipe n 0x80) 31 then s
  else
    let s := if s.bit (rPipe n 0x80) 30 then
        s.setRegBytes (rPipe n 0x90) (data.take (min 16 (s.fld (rPipe n 0x80) 28 24 + 1)) ++
          (s.regBytes (rPipe n 0x90) 16).drop (min data.length (min 16 (s.fld (rPipe n 0x80) 28 24 + 1))))
      else s
    (s.setBit (rPipe n 0x80) 31 false).orWord rDpyIrq (2 ^ (8 * n + 4))

def execSideDone (pipe : Fin 4) (data : List Byte) (s : State) : Host.Outcome State Fault Refusal := .next (s.sideDone pipe data)

/-- HPD or IRQ_HPD on a DisplayPort port. -/
def execHpdEvent (pipe : Fin 4) (s : State) : Host.Outcome State Fault Refusal :=
  .next (if pipe.val < 2 then s.orWord rDpyIrq (2 ^ (8 * pipe.val + 3)) else s)

end Sys2Proof.Machine
end

