-- ==== Sys2Proof/Machine/Mbx.lean ====
section
/-! DEFINITION. The firmware processors' state, their logs and trace, and the tongue mailboxes' hardware
(16_firmware_and_boot.md R516, R534 to R537, R543 to R549). -/

namespace Sys2Proof.Machine

def rFwp (o : Nat) : Nat := blkBase bFWP + o
def rFwpIrq : Nat := rFwp 4
def rProc (p o : Nat) : Nat := rFwp (0x100 + p * 0x40 + o)
def rMbx (m o : Nat) : Nat := rFwp (0x2000 + m * 0x40 + o)
/-- Request and response area of a mailbox (R534). -/
def mbxReq (m : Nat) : Nat := rFwp (0x10000 + 0x2000 * m)
def mbxRsp (m : Nat) : Nat := rFwp (0x11000 + 0x2000 * m)

/-- FWP_STATE.PHASE: 0 ROM, 1 START, 2 SERVICE, 3 SELFTEST, 4 RECOVERY. -/
def State.phase (s : State) : Nat := s.fld (rFwp 0) 2 0

/-- STATE of a processor: 0 OFF, 1 START, 2 RUN, 3 RESTARTING, 4 FENCED. -/
def State.procState (s : State) (p : Nat) : Nat := s.fld (rProc p 0) 2 0
def State.setProc (s : State) (p v : Nat) : State := s.setFld (rProc p 0) 2 0 v
def State.procIncarn (s : State) (p : Nat) : Nat := s.fld (rProc p 0) 15 8

/-- The processor handles messages: it runs, or the ROM serves RECOVERY for FWP-BOOT (R525, R537). -/
def State.procUp (s : State) (p : Nat) : Bool := decide (s.procState p = 2) || (p == 0 && decide (s.phase = 4))

/-! Logs and trace (R545 to R547). -/

/-- Entries of a processor's ring. -/
def State.logSize (s : State) (p : Nat) : Nat :=
  let z := s.word (rProc p 0x10) % 65536
  2048 * (if z = 0 then 64 else z)

/-- Address of the ring slot of an entry. -/
def State.logSlot (s : State) (p seq : Nat) : Nat := 65536 * (s.word64 (rProc p 8) / 65536) + seq % s.logSize p * 32

/-- The 32 bytes of an entry. -/
def logBytes (seq kind level code time : Nat) (args : List Nat) : List Byte :=
  leBytes 4 seq ++ leBytes 1 kind ++ leBytes 1 level ++ leBytes 2 code ++ leBytes 8 time ++
    ([0, 1, 2, 3].flatMap fun k => leBytes 4 (args.getD k 0))

/-- The ring is in memory: CFG_LOADED is set (R545). -/
def State.logLive (s : State) : Bool := s.bit (blkBase bSYS + 4) 8

/-- Entry seq of a processor's log. -/
def State.logGet (s : State) (p seq : Nat) : List Byte :=
  if s.logLive then s.bytes (s.logSlot p seq) 32
  else (fmGetD [] s.fwp.held p).getD ((seq + 2 ^ 32 - s.word (rProc p 0x18)) % 2 ^ 32) []

def State.logPut (s : State) (p seq : Nat) (e : List Byte) : State :=
  if s.logLive then s.store (s.logSlot p seq) e
  else
    let l := fmGetD [] s.fwp.held p
    let i := (seq + 2 ^ 32 - s.word (rProc p 0x18)) % 2 ^ 32
    { s with fwp.held := fmPut s.fwp.held p (if i < l.length then setAt l i e else l ++ [e]) }

/-- TAIL advances by one entry. -/
def State.logDrop (s : State) (p : Nat) : State :=
  let s := s.setWord (rProc p 0x18) (s.word (rProc p 0x18) + 1)
  if s.logLive then s else { s with fwp.held := fmPut s.fwp.held p ((fmGetD [] s.fwp.held p).drop 1) }

/-- The oldest entries of a full ring become a GAP entry (R546). LEVEL and CODE of a GAP entry are open. -/
def State.logGap (s : State) (p : Nat) : State :=
  let isGap (e : List Byte) : Bool := decide (leAt e 4 1 = 1)
  let old := s.logGet p (s.word (rProc p 0x18))
  let c := if isGap old then leAt old 0x10 4 else 1
  let s := s.logDrop p
  let t := s.word (rProc p 0x18)
  let e := s.logGet p t
  if isGap e then
    (s.logPut p t (sliceBytes e 0 0x10 ++ leBytes 4 (min (leAt e 0x10 4 + c) 0xFFFFFFFF) ++ sliceBytes e 0x14 12)).bumpBy (rProc p 0x1C) c
  else
    let (f, s) := s.takeFree
    (s.logPut p t (logBytes t 1 (f % 4) (f / 4 % 65536) s.recordTime.1 [c + 1])).bumpBy (rProc p 0x1C) (c + 1)

/-- The log port writes an entry (R546). -/
def State.logEntry (s : State) (p kind level code : Nat) (args : List Nat) : State :=
  let n := if s.logLive then s.logSize p else 1024
  let h := s.word (rProc p 0x14)
  let full := decide ((h + 2 ^ 32 - s.word (rProc p 0x18)) % 2 ^ 32 ≥ n)
  let s := if full then (s.logGap p).orWord rFwpIrq 4 else s
  (s.logPut p h (logBytes h kind level code s.recordTime.1 args)).setWord (rProc p 0x14) (h + 1)

def State.setTrace (s : State) (p : Nat) (x : Nat × Nat × Nat) : State := { s with fwp.trace := fmPut s.fwp.trace p x }

/-- A trace point passed or an event logged (R547). -/
def State.logWrite (s : State) (p kind level code : Nat) (args : List Nat) : State :=
  match kind with
  | 0 =>
    let k := 65536 * p + code
    let n := fmGetD 0 s.fwp.events k
    let s := { s with fwp.events := fmPut s.fwp.events k (n + 1) }
    if n < 4 then s.logEntry p 0 level code args else s
  | 2 =>
    if code ≥ 1024 || !s.bit (rFwp (0x1000 + p * 0x80 + code / 32 * 4)) (code % 32) then s
    else
      let (adm, drops, first) := fmGetD (0, 0, 0) s.fwp.trace p
      if adm < s.fld (rProc p 0x20) 15 0 then (s.setTrace p (adm + 1, drops, first)).logEntry p 2 level code args
      else
        let s := (s.bump (rProc p 0x24)).orWord rFwpIrq 8
        s.setTrace p (adm, drops + 1, if drops = 0 then code else first)
  | _ => s

def execLogEntryWrite (proc : Fin 6) (kind level : Fin 4) (code : BitVec 16) (args : BitVec 128) (s : State) :
    Host.Outcome State Fault Refusal :=
  .next (s.logWrite proc kind level code.toNat ([0, 1, 2, 3].map fun k => bitsOf args.toNat (32 * k + 31) (32 * k)))

/-- A new 1 ms window (R547): what the last one dropped is told, and the events beyond four of a code in one entry each, with
their count in ARG0. -/
def State.traceWindow (s : State) (p : Nat) : State :=
  let (_, drops, first) := fmGetD (0, 0, 0) s.fwp.trace p
  let s := if drops ≠ 0 && decide (s.fld (rProc p 0x20) 15 0 ≥ 1) then
      (s.setTrace p (1, 0, 0)).logEntry p 3 0 0 [drops, first]
    else s.setTrace p (0, drops, first)
  let mine := s.fwp.events.filter fun e => decide (e.1 / 65536 = p)
  let s := { s with fwp.events := s.fwp.events.filter fun e => decide (e.1 / 65536 ≠ p) }
  mine.foldl (fun s e => if e.2 > 4 then s.logEntry p 0 0 (e.1 % 65536) [e.2 - 4] else s) s

def execTraceWindow (proc : Fin 6) (s : State) : Host.Outcome State Fault Refusal := .next (s.traceWindow proc)

/-- A write of FWP_LOG_TAIL (R546). -/
def execLogTailWrite (m : Master) (proc : Fin 6) (v : BitVec 32) (s : State) : Host.Outcome State Fault Refusal :=
  let p : Nat := proc
  let a := rProc p 0x18
  if !s.sysWriter m then .next (s.refuse m 2 a)
  else
    let t := s.word a
    let n := (v.toNat + 2 ^ 32 - t) % 2 ^ 32
    if n > (s.word (rProc p 0x14) + 2 ^ 32 - t) % 2 ^ 32 then .next ((s.setBit (rProc p 0x20) 16 true).respOk [])
    else
      let s := if s.logLive then s else { s with fwp.held := fmPut s.fwp.held p ((fmGetD [] s.fwp.held p).drop n) }
      .next ((s.setWord a v.toNat).respOk [])

/-! Mailboxes (R534 to R537). -/

def State.mbxOwner (s : State) (b : Nat) : Nat := s.fld (rMbx b 0) 5 0

/-- The mailbox may be used: enabled, or mailbox 60 in RECOVERY (R525). -/
def State.mbxOn (s : State) (b : Nat) : Bool := s.bit (rMbx b 0) 6 || (b == 60 && decide (s.phase = 4))

/-- A master that may ring a mailbox: a system master or its owner (R549). -/
def State.mbxUser (s : State) (m : Master) (inst : Option (Fin 64)) (b : Nat) : Bool :=
  (inst.isNone && s.sysWriter m) || (s.mbxOn b && isInst inst (s.mbxOwner b))

/-- A field of the request header or payload. -/
def State.reqAt (s : State) (b o n : Nat) : Nat := leNat (sliceBytes (s.regBytes (mbxReq b + o / 4 * 4) (n + 4)) (o % 4) n)

/-- MSG_ID of a request and the processor that handles it. -/
def State.mbxId (s : State) (b : Nat) : Nat := s.reqAt b 4 2
def mbxHandler (id : Nat) : Nat := if id < 0x600 then id / 256 else 0

/-- The owner of a mailbox as the holder of a notification target (R468). -/
def State.mbxNotify (s : State) (b : Nat) : State :=
  s.notify ⟨0, 0, 0, 0, s.mbxOwner b, 0, 0, 0, 0, s.word64 (rMbx b 0x10), false⟩

/-- The firmware's minor for a major: stated for its own major only. -/
def State.minorFor (s : State) (major : Nat) : Nat × State :=
  if major = 1 then (let (f, s) := s.takeFree; (f % 65536, s)) else (s.fld (rFwp 0x14) 31 16, s)

/-- The response of a mailbox is written, DONE set and the notification sent (R535). -/
def State.mbxAnswer (s : State) (b status : Nat) (payload : List Byte) (incarn : Nat) : State :=
  let id := s.mbxId b
  let major := s.reqAt b 0 2
  let neg := s.word (rMbx b 0x20)
  let (minor, s) := if bitOf neg 31 && decide (neg % 65536 = major) then (bitsOf neg 30 16, s) else s.minorFor major
  let mask := if id = 1 then s.word64 (rFwp 0x20) else s.word64 (rMbx b 0x18)
  let hdr := leBytes 2 major ++ leBytes 2 minor ++ leBytes 2 id ++ leBytes 2 status ++ leBytes 8 (s.reqAt b 8 8 &&& mask) ++
    leBytes 4 (s.reqAt b 0x10 4) ++ leBytes 4 payload.length ++ leBytes 2 (s.instGen (s.mbxOwner b)) ++ leBytes 1 incarn ++ zeroBytes 5
  let s := s.setRegBytes (mbxRsp b) (hdr ++ payload)
  let s := ({ s with fwp.order := s.fwp.order.filter (fun k => k ≠ b), fwp.mbx := fmDel s.fwp.mbx b } : State)
  ((s.setBit (rMbx b 4) 1 true).setFld (rMbx b 4) 15 8 (status % 256)).mbxNotify b

/-- GO (R536, R537). -/
def State.mbxGo (s : State) (b : Nat) : State :=
  if s.bit (rMbx b 4) 0 then (s.setBit (rMbx b 4) 2 true).orWord rFwpIrq 0x10
  else if !s.mbxOn b then s
  else
    let p := mbxHandler (s.mbxId b)
    let up := s.procUp p
    let s := (s.setBit (rMbx b 4) 0 true).setBit (rMbx b 4) 3 (!up)
    if up then
      { s with fwp.order := s.fwp.order ++ [b], fwp.mbx := fmPut s.fwp.mbx b ⟨false, 0, [], .none, false, s.procIncarn p⟩ }
    else s.mbxAnswer b 1 [] (s.procIncarn p)

def execMbxGo (m : Master) (inst : Option (Fin 64)) (mbx : Fin 64) (s : State) : Host.Outcome State Fault Refusal :=
  if s.mbxUser m inst mbx then .next ((s.mbxGo mbx).respOk []) else .next (s.refuse m 2 (rMbx mbx 8))

/-- DONE is written with 1: the mailbox is free for the next request (R535, R536). -/
def State.mbxFree (s : State) (b : Nat) : State :=
  if s.bit (rMbx b 4) 1 then (s.setBit (rMbx b 4) 1 false).setBit (rMbx b 4) 0 false else s

def execMbxDone (m : Master) (inst : Option (Fin 64)) (mbx : Fin 64) (s : State) : Host.Outcome State Fault Refusal :=
  if s.mbxUser m inst mbx then .next ((s.mbxFree mbx).respOk []) else .next (s.refuse m 2 (rMbx mbx 4))

/-- The negotiated state of a mailbox is cleared (R540). -/
def State.mbxForget (s : State) (b : Nat) : State := (s.setWord64 (rMbx b 0x18) 0).setWord (rMbx b 0x20) 0

/-- A change of phase (R540). -/
def State.setPhase (s : State) (v : Nat) : State := (List.range 64).foldl State.mbxForget (s.setFld (rFwp 0) 2 0 v)

/-- The owner of mailboxes is reset or removed (R536): pending requests are answered INTERRUPTED. -/
def State.mbxAbandon (s : State) (i : Nat) : State :=
  (List.range 64).foldl (fun s b =>
    if s.bit (rMbx b 0) 6 && decide (s.mbxOwner b = i) then
      let s := if s.fwp.order.contains b then s.mbxAnswer b 8 [] (s.procIncarn (mbxHandler (s.mbxId b))) else s
      s.mbxForget b
    else s) s

/-- A processor is declared dead (R537, R544): the message it handles is answered INTERRUPTED by the hardware, those that wait
for it BUSY. -/
def State.mbxDown (s : State) (p : Nat) : State :=
  s.fwp.order.foldl (fun s b =>
    if mbxHandler (s.mbxId b) = p then
      match fmGet s.fwp.mbx b with
      | some x =>
        if x.performed then s.mbxAnswer b 8 [] (s.procIncarn p) else (s.setBit (rMbx b 4) 3 true).mbxAnswer b 1 [] (s.procIncarn p)
      | none => s
    else s) s

/-! Declaring dead and restarting (R500, R509 to R511, R543, R544). -/

/-- A restart is asked for with the class of its record (R543). -/
def State.procDie (s : State) (p cls : Nat) : State :=
  if s.procState p = 0 || s.procState p = 3 || s.procState p = 4 || s.fwp.dead.any (fun d => d.1 = p) then s
  else { s with fwp.dead := s.fwp.dead ++ [(p, cls)] }.fault 0x23 cls (mFwp p) p 0

/-- HB_LIMIT ms without a heartbeat (R500); a limit of 0 is taken as 1 (R514). -/
def execHeartbeatMiss (proc : Fin 6) (s : State) : Host.Outcome State Fault Refusal :=
  let p : Nat := proc
  if s.procState p ≠ 2 then .next s
  else
    let s := s.timeTo (s.flt.hbFrom.getD p 0 + 4000000 * max 1 (s.fld (rFlt 4) 31 24))
    .next ((s.orWord rFltIrq 0x100).procDie p 3)

/-- An operation of the public-key engine that a processor holds will end ABANDONED (R616). -/
def State.pkAbandon (s : State) (p : Nat) : State :=
  if s.sec.holder = some (mFwp p).toNat then { s with sec.op := s.sec.op.map fun o => { o with abandon := true } } else s

/-- The incarnation of a dead processor is raised: STATE RESTARTING (R509, R543). -/
def State.procRaise (s : State) (p : Nat) : State :=
  if !s.fwp.dead.any (fun d => d.1 = p) || s.procState p = 3 then s
  else
    let s := (s.setFld (rProc p 0) 15 8 (s.procIncarn p + 1)).setProc p 3
    let s := if p = 5 then
        (List.range 32).foldl (fun s m => if s.fld (blkBase bMHS + 0x1000 + m * 0x40) 2 0 = 1 then s.setFld (blkBase bMHS + 0x1000 + m * 0x40) 2 0 0 else s) s
      else s
    (s.pkAbandon p).mbxDown p

/-- FWP_PROCESSOR_RESTART (R543): the incarnation raised, requests of the old one drained, core and SRAM under test. -/
def execFwpProcessorRestart (proc : Fin 6) (s : State) : Host.Outcome State Fault Refusal := .next (s.procRaise proc)

/-- INCARNATION_RAISE (R509) for a firmware processor; a cell, a partner port and a sensor stream have theirs raised by the
command that declares them dead (log 231). -/
def execIncarnationRaise (proc : Fin 6) (s : State) : Host.Outcome State Fault Refusal := .next (s.procRaise proc)

/-- The restart ends (R511, R543), once no request of the old incarnation is left (R510): the processor runs again, is tested again, or is fenced after three failures. -/
def State.procRestarted (s : State) (p : Nat) (pass : Bool) : State :=
  let mine (q : FabReq) : Bool := q.master == (mFwp p).toNat
  if s.procState p ≠ 3 || s.fab.flight.any mine || s.fab.holdQ.any (fun l => l.2.any mine) then s
  else
    let done (s : State) : State := { s with fwp.dead := s.fwp.dead.filter fun d => d.1 ≠ p }
    if pass then
      let s := (s.setProc p 2).setFld (rProc p 0) 19 16 0
      let s := ((done s).bump (rProc p 4)).orWord rFwpIrq 1
      { s with flt.hbFrom := setAt s.flt.hbFrom p s.now }
    else
      let n := s.fld (rProc p 0) 19 16 + 1
      let s := s.setFld (rProc p 0) 19 16 n
      if n < 3 then s else (((done s).setProc p 4).orWord rFwpIrq 2).fault 0x23 4 (mFwp p) p n

def execFwpRestartDone (proc : Fin 6) (pass : Bool) (s : State) : Host.Outcome State Fault Refusal :=
  .next (s.procRestarted proc pass)

/-- The self-test phase (R540, R549): some m writes FWP_CTRL.SELFTEST, none ends the phase. -/
def execSelftest (m : Option Master) (s : State) : Host.Outcome State Fault Refusal :=
  match m with
  | some m =>
    if !s.isIsland m then .next (s.refuse m 2 (rFwp 0xC))
    else .next ((if s.phase = 2 then s.setPhase 3 else s).respOk [])
  | none => .next (if s.phase = 3 then (s.setPhase 2).orWord rFwpIrq 0x20 else s)

end Sys2Proof.Machine
end

