-- ==== Sys2Proof/Machine/SfeBase.lean ====
section
/-! DEFINITION. Sensor streams: their registers, bands, slots, records and drops (03_sensor_front_end.md R78 to R106). -/

namespace Sys2Proof.Machine

def rSfe (o : Nat) : Nat := blkBase bSFE + o
def rSfePort (p o : Nat) : Nat := rSfe (0x100 + p * 16 + o)
def rStream (n o : Nat) : Nat := rSfe (0x1000 + n * 0x40 + o)
def rSlot (n k o : Nat) : Nat := rSfe (0x3000 + n * 0x40 + k * 16 + o)
def rShadow (n w : Nat) : Nat := rSfe (0x10000 + 0x100 * n + w * 4)
def rActive (n w : Nat) : Nat := rSfe (0x20000 + 0x100 * n + w * 4)

/-- Stream n and its change. -/
def State.stream (s : State) (n : Nat) : SfeStream := fmGetD .reset s.sfe.streams n
def State.setStream (s : State) (n : Nat) (x : SfeStream) : State := { s with sfe.streams := fmPut s.sfe.streams n x }

/-- Fields of SFE_STREAM_CFG (R106). -/
def State.stKind (s : State) (n : Nat) : Nat := s.fld (rStream n 0) 31 30
def State.stPath (s : State) (n : Nat) : Nat := s.fld (rStream n 0) 29 28
def State.stMember (s : State) (n : Nat) : Bool := s.bit (rStream n 0) 27
def State.stSlots (s : State) (n : Nat) : Nat := s.fld (rStream n 0) 25 24 + 1
def State.stLabel (s : State) (n : Nat) : Nat := s.fld (rStream n 0) 23 16

/-- Interrupt bits of SFE_IRQ_STATUS (R105). -/
def rSfeIrq : Nat := rSfe 0

/-- A class N fault of the SFE for a case of R103, once in each one-second window of R504 for each port or stream. -/
def State.sfeCase (s : State) (case unit : Nat) (m : Master) : State :=
  let key := case * 64 + unit
  let w := s.safeNs / 1000000000 + 1
  if fmGetD 0 s.sfe.wins key = w then s
  else { s with sfe.wins := fmPut s.sfe.wins key w }.fault 0x1C 1 m unit 0

/-- The consumer of stream n (R91): the instance CONSUMER, or the island and the firmware processors when CONS_SYS is 1. -/
def State.consumer (s : State) (m : Master) (inst : Option (Fin 64)) (n : Nat) : Bool :=
  if s.bit (rStream n 0) 9 then inst.isNone && s.sysWriter m else isInst inst (s.fld (rStream n 0) 15 10)

/-- Frame height H of a camera stream: PHX_AXIS_SCALE of the LINE axis that follows it; the largest where none does.
DEDUCED (log 52). -/
def State.frameHeight (s : State) (n : Nat) : Nat :=
  match s.axesOf 2 0 n with
  | x :: _ => s.axScale x % 2 ^ 20
  | [] => 0xFFFFF

/-- Events on their way to the axes of stream n (R88). -/
def State.axEvent (s : State) (n kind val : Nat) (held : Option Nat) : State :=
  { s with sfe.axisQ := s.sfe.axisQ ++ [AxisEv.mk n kind val held] }

/-- The event held behind the band with sequence number q of stream n is released (R88). -/
def State.releaseEvent (s : State) (n q : Nat) : State :=
  { s with sfe.axisQ := s.sfe.axisQ.map fun e => if e.stream = n && e.held = some q then { e with held := none } else e }

/-! Slot tokens (R90): SFE_STREAM_SLOTS shows free, held by the consumer and in use by the engine. -/

def slotState (w k : Nat) : Nat := if bitOf w k then 1 else if bitOf w (4 + k) then 2 else if bitOf w (8 + k) then 3 else 0

/-- Slot k of stream n to a state: 1 free, 2 with the consumer, 3 in use by the engine. -/
def State.setSlot (s : State) (n k v : Nat) : State :=
  let r := rStream n 0x38
  ((s.setBit r k (decide (v = 1))).setBit r (4 + k) (decide (v = 2))).setBit r (8 + k) (decide (v = 3))

def State.slotOf (s : State) (n k : Nat) : Nat := slotState (s.word (rStream n 0x38)) k

/-- Every slot of a stream in the free pool: what the configuration record leaves (R90). DEDUCED (log 50). -/
def State.freeSlots (s : State) (n : Nat) : State :=
  (List.range (s.stSlots n)).foldl (fun s k => s.setSlot n k 1) s

/-- Slots that the consumer instance i holds return when it is reset or removed (R91). -/
def State.returnSlots (s : State) (i : Nat) : State :=
  (List.range 64).foldl (fun s n =>
    if s.word (rStream n 0) / 2 ^ 9 % 2 = 0 && s.fld (rStream n 0) 15 10 = i && s.stKind n ≠ 0 then
      (List.range 4).foldl (fun s k => if s.slotOf n k = 2 then s.setSlot n k 1 else s) s
    else s) s

/-! Band records (R101). -/

/-- Flags of a band record. -/
def bfDROPPED : Nat := 1
def bfSHORT : Nat := 2
def bfSTALLED : Nat := 4
def bfCRC : Nat := 8
def bfLEN : Nat := 0x10
def bfLATE : Nat := 0x20
def bfBOUNDS : Nat := 0x40
def bfNEW : Nat := 0x80
def bfEMB : Nat := 0x100
def bfFSYNC : Nat := 0x200
def bfOVERFLOW : Nat := 0x400

/-- The record of a band goes to the ring of its stream, and HEAD names it. -/
def State.bandRecord (s : State) (n : Nat) (b : SfeBand) (flags : Nat) : State :=
  let inc := s.fld (rStream n 0x18) 15 8
  let body := leBytes 4 b.seq ++ leBytes 2 flags ++ leBytes 1 (b.seq % s.stSlots n) ++ leBytes 1 inc ++
    leBytes 8 b.start ++ leBytes 8 b.stop ++ leBytes 8 b.tFirst ++ leBytes 8 b.tLast ++ leBytes 8 b.tFsync ++
    leBytes 4 b.bytes ++ leBytes 2 (min b.count 0xFFFF) ++ leBytes 2 (min b.errs 0xFFFF) ++ leBytes 2 b.frameNo ++
    leBytes 2 0
  let ring := s.word64 (rStream n 0x30)
  let a := ring / 64 % 2 ^ 46 * 64 + b.seq % 2 ^ (ring % 16) * 64
  (s.dmaWrite (mStream n) a (body ++ leBytes 4 (crc32c body)) false).1.setWord (rStream n 0x20) b.seq

/-- The stream's stall, if any, ends (R99). -/
def State.endStall (s : State) (n : Nat) : State :=
  let x := s.stream n
  match x.stalled with
  | none => s
  | some _ =>
    (s.setStream n { x with stalled := none, bands := modAt x.bands 0 fun b => { b with flags := b.flags ||| bfSTALLED } }).setBit
      (rStream n 0x18) 2 false

/-- A stall begins, unless one is already running. -/
def State.beginStall (s : State) (n : Nat) : State :=
  let x := s.stream n
  match x.stalled with
  | some _ => s
  | none => (s.setStream n { x with stalled := some s.now }).setBit (rStream n 0x18) 2 true

/-- The band in front of stream n is dropped (R99): token back, record with DROPPED, held event released, counted. Input of
the band that still arrives is discarded up to its end. -/
def State.dropBand (s : State) (n reason : Nat) : State :=
  let x := s.stream n
  match x.bands with
  | [] => s
  | b :: rest =>
    let s := if b.started then s.setSlot n (b.seq % s.stSlots n) 1 else s
    let end_ := if s.stKind n = 1 then b.stop % 2 ^ 20 else b.stop
    let s := s.bandRecord n b (b.flags ||| bfDROPPED ||| reason)
    let s := s.setStream n { x with bands := rest, stalled := none, ctx := { x.ctx with running := false },
                                    skip := if b.closed then x.skip else end_ }
    let s := (s.setBit (rStream n 0x18) 2 false).setBit (rStream n 0x18) 0 false
    let s := ((s.releaseEvent n b.seq).bump (rStream n 0x24)).setBit (rStream n 0x18) 7 true
    (s.orWord rSfeIrq 1).fault 0x1C (if s.bit (rStream n 0) 26 then 3 else 1) (mStream n) n 0

/-- Drops every band of stream n in progress, oldest first; the fuel is their number. -/
def State.dropAll (s : State) (n : Nat) : Nat → State
  | 0 => s
  | k + 1 => (s.dropBand n 0).dropAll n k

end Sys2Proof.Machine
end

