-- ==== Sys2Proof/Machine/SfeIn.lean ====
section
/-! DEFINITION. What arrives at the sensor front end: CSI-2 packets and flow payloads (03_sensor_front_end.md R76 to R88,
R100, R103). -/

namespace Sys2Proof.Machine

/-- The camera stream of a port and virtual channel (R78). -/
def State.camStream (s : State) (port vc : Nat) : Option Nat :=
  (List.range 64).find? fun n => s.stKind n = 1 && s.fld (rStream n 8) 3 0 = port && s.fld (rStream n 8) 7 4 = vc

/-- A camera port receives: enabled, in camera use and in sync (R73, R75, R105). -/
def State.portReceives (s : State) (p : Nat) : Bool :=
  s.bit (rSfePort p 0) 0 && s.fld (rSfePort p 0) 2 1 ≤ 1 && s.bit (rSfePort p 4) 0

/-- A count of SFE_PORT_ERRCNT rises (R103, R105): k 0 HDR_CORR, 1 HDR_UNCORR, 2 CRC, 3 PHY_ERR. -/
def State.portError (s : State) (p k : Nat) : State :=
  let s' := if s.fld (rSfePort p 8) (8 * k + 7) (8 * k) < 0xFF then (s.bumpSat (rSfePort p 8) (8 * k + 7) (8 * k)).orWord rSfeIrq 4 else s
  s'.sfeCase k p (mStream 0)

/-- What the errors of a packet leave of it (R103): err bit 0 header corrected, 1 header not correctable, 2 payload CRC
mismatch, 3 PHY lost sync, 4 the stream's buffer share is full (R100). False: the packet is discarded. -/
def State.packetErr (s : State) (p err : Nat) : State × Bool :=
  let s := if bitOf err 0 then s.portError p 0 else s
  if bitOf err 1 then (s.portError p 1, false)
  else if bitOf err 3 then (s.portError p 3, false)
  else if bitOf err 2 then (s.portError p 2, true)
  else (s, true)

/-- A packet that no stream takes (R77, R103). -/
def State.unmatched (s : State) (p : Nat) : State := (s.bump (rSfePort p 12)).sfeCase 4 p (mStream 0)

/-- Bytes of a line of w pixels in packet order, by data type (R77). The packing of each type is that of CSI-2: PRESUMED
(log 51). -/
def lineBytes (dt w : Nat) : Nat :=
  match dt with
  | 0x2B => (w * 10 + 7) / 8
  | 0x2C => (w * 12 + 7) / 8
  | 0x2D => (w * 14 + 7) / 8
  | 0x2E => w * 2
  | 0x2F => (w * 20 + 7) / 8
  | 0x27 => w * 3
  | 0x1E => w * 2
  | 0x1F => (w * 20 + 7) / 8
  | 0x24 => w * 3
  | _ => w

/-- Elements of a line: how many, and bytes of each, as delivered to the pipeline or engine (R77). -/
def lineElems (dt w : Nat) : Nat × Nat :=
  match dt with
  | 0x2F => (w, 4)
  | 0x27 => (w, 4)
  | 0x1E => (2 * w, 1)
  | 0x1F => (2 * w, 2)
  | 0x24 => (3 * w, 1)
  | 0x2A => (w, 2)
  | 0x2B => (w, 2)
  | 0x2C => (w, 2)
  | 0x2D => (w, 2)
  | 0x2E => (w, 2)
  | _ => (w, 1)

/-- Groups of packed samples: k samples in g bytes, the high 8 bits of each first, then their low bits from the least
significant bit on. -/
def unpackGroups (k g low : Nat) : Nat → List Byte → List Nat
  | 0, _ => []
  | fuel + 1, l =>
    if l.isEmpty then []
    else
      let tail := leAt l k (g - k)
      ((List.range k).map fun i => leAt l i 1 * 2 ^ low + bitsOf tail (low * i + low - 1) (low * i)) ++
        unpackGroups k g low fuel (l.drop g)

/-- The elements of a line (R77). How CSI-2 packs RAW16, RAW20 and RAW24 the spec does not say: open values. -/
def State.lineValues (s : State) (dt w : Nat) (l : List Byte) : List Byte × State :=
  let (n, z) := lineElems dt w
  match dt with
  | 0x2A => (((List.range n).map fun i => leAt l i 1).flatMap (leBytes 2), s)
  | 0x2B => (((unpackGroups 4 5 2 w l).take n).flatMap (leBytes 2), s)
  | 0x1F => (((unpackGroups 4 5 2 n l).take n).flatMap (leBytes 2), s)
  | 0x2C => (((unpackGroups 2 3 4 w l).take n).flatMap (leBytes 2), s)
  | 0x2D => (((unpackGroups 4 7 6 w l).take n).flatMap (leBytes 2), s)
  | 0x2E => s.freeBytes (n * z)
  | 0x2F => s.freeBytes (n * z)
  | 0x27 => s.freeBytes (n * z)
  | _ => (sliceBytes l 0 n, s)

/-! The image pipelines (R82 to R84, R529). -/

/-- The PIPE entry of a stream; all zero where the record has none. -/
def State.pipeOf (s : State) (n : Nat) : List Byte := fmGetD (zeroBytes 64) s.sfe.pipe n

/-- Vertical decimation and remap reach of a stream on a pipeline path. -/
def State.vdec (s : State) (n : Nat) : Nat :=
  if s.stPath n ≠ 0 && bitOf (leAt (s.pipeOf n) 1 1) 6 then max 1 (leAt (s.pipeOf n) 0x1E 1) else 1
def State.reach (s : State) (n : Nat) : Nat :=
  if s.stPath n ≠ 0 && bitOf (leAt (s.pipeOf n) 1 1) 5 then leAt (s.pipeOf n) 0x1F 1 else 0

/-- The black level of position (x, y) taken off 16-bit elements, saturating at 0 (R83). -/
def blackLine (pipe : List Byte) (y : Nat) (l : List Byte) : List Byte :=
  ((List.range (l.length / 2)).map fun x =>
    leAt l (2 * x) 2 - leAt pipe (4 + 4 * (y % 2 * 2 + x % 2)) 4 % 2 ^ 24).flatMap (leBytes 2)

/-- Planes and width of a pipeline's output line (R83). -/
def State.pipeGeom (s : State) (n dt w : Nat) : Nat × Nat :=
  let p := s.pipeOf n
  let en := leAt p 1 1
  let planes := if bitOf en 3 then (if bitOf en 4 then 1 else 3) else if dt = 0x24 then 3 else if dt = 0x1E || dt = 0x1F then 2 else 1
  (planes, if bitOf en 6 then w * leAt p 0x1C 2 / 256 else w)

/-- The output line of source line y: exact where only stages whose result the spec states are on; otherwise the elements
are open values, one 16-bit element per plane per pixel (R83). -/
def State.pipeLine (s : State) (n dt w y : Nat) (l : List Byte) : List Byte × State :=
  let p := s.pipeOf n
  let en := leAt p 1 1
  let exact := dt = 0x2A || dt = 0x2B || dt = 0x2C || dt = 0x2D
  if exact && en % 128 / 2 = 0 && (fmGetD [] s.sfe.defects n).isEmpty then
    (if bitOf en 0 then blackLine p y l else l, s)
  else
    let (k, ow) := s.pipeGeom n dt w
    s.freeBytes (k * ow * 2)

/-! Frames and lines. -/

/-- The band that ends at phase e of a stream, when it is still in progress. -/
def SfeStream.bandAt (x : SfeStream) (e : Nat) : Option Nat := (x.bands.find? fun b => decide (b.stop = e)).map fun b => b.seq

/-- Open bands of the frame closed, SHORT where lines are missing (R101, R103). -/
def closeBands (x : SfeStream) : SfeStream :=
  { x with bands := x.bands.map fun (b : SfeBand) =>
      if b.closed then b
      else { b with closed := true, flags := if x.merged < b.stop % 2 ^ 20 then b.flags ||| bfSHORT else b.flags } }

/-- What a frame end waits behind: the newest band in progress (R88). -/
def SfeStream.lastBand (x : SfeStream) : Option Nat := x.bands.getLast?.map fun b => b.seq

/-- The lead of the HDR group of a stream (R84). -/
def State.leadOf (s : State) (n : Nat) : Nat := if s.stMember n then s.fld (rStream n 8) 25 20 else n

/-- Stream k is a member of the group of a lead. -/
def State.memberOf (s : State) (k lead : Nat) : Bool :=
  s.stKind k = 1 && s.stMember k && decide (s.leadOf k = lead)

/-- A lead's new frame: members whose frame has ended have delivered no line of it yet (R84). -/
def State.membersAnew (s : State) (lead : Nat) : State :=
  (List.range 64).foldl (fun s k =>
    if s.memberOf k lead && !(s.stream k).frameOpen then s.setStream k { s.stream k with lines := 0 } else s) s

/-- The frame of a stream lacks lines below H (R103). -/
def State.frameShort (s : State) (n : Nat) : Bool := (s.stream n).frameOpen && decide ((s.stream n).lines < s.frameHeight (s.leadOf n))

/-- A frame start of stream n (R79, R101, R103). -/
def State.frameStart (s : State) (n frameNo : Nat) : State :=
  let s := if (s.stream n).frameOpen then s.sfeCase 10 n (mStream n) else s
  let x := closeBands (s.stream n)
  let held := if x.frameOpen then x.lastBand else none
  let fs := fmGet s.sfe.fsync n
  let p := s.pipeOf n
  let mesh := s.stPath n ≠ 0 && bitOf (leAt p 1 1) 5 && s.poisoned (leAt p 0x20 8) (leAt p 0x28 2 * leAt p 0x2A 2 * 8)
  let x := { x with frameOpen := true, frames := x.frames + 1, frameNo := frameNo, tFsync := fs.getD 0,
                    missing := fs.isNone && s.sfe.fsyncSeen.contains n, lines := 0, merged := 0, waiting := [], emb := 0,
                    embTrunc := false, skip := 0, meshBad := mesh }
  let s := { s with sfe.fsync := fmDel s.sfe.fsync n }.setStream n x
  if s.stMember n then s else (s.membersAnew n).axEvent n 0 0 held

/-- A frame end of stream n (R79, R88, R103). -/
def State.frameEnd (s : State) (n : Nat) : State :=
  let s := if !(s.stream n).frameOpen then s.sfeCase 11 n (mStream n) else if s.frameShort n then s.sfeCase 9 n (mStream n) else s
  let x := s.stream n
  if s.stMember n then s.setStream n { x with frameOpen := false }
  else if x.frameOpen then
    let x := closeBands x
    (s.setStream n { x with frameOpen := false }).axEvent n 2 0 x.lastBand
  else s.axEvent n 2 0 none

/-- Flags that a frame gives its bands. -/
def SfeStream.frameFlags (x : SfeStream) : Nat := (if x.missing then bfFSYNC else 0) ||| (if x.embTrunc then bfEMB else 0)

/-- Source line y of stream n, whole, enters its band (R85, R87). -/
def State.lineIn (s : State) (n y : Nat) (l : List Byte) (lenErr crcErr : Bool) : State :=
  let h := s.frameHeight n
  let geom := s.word (rStream n 4)
  let w := bitsOf geom 13 0
  let bh := max 1 (bitsOf geom 24 16)
  let dt := s.fld (rStream n 8) 13 8
  let x := s.stream n
  if y < x.skip then s
  else
    let t := s.recordTime.1
    let j := y / bh
    let e := min ((j + 1) * bh) h
    let stop := 2 ^ 20 * x.frames + e
    let fl := (if lenErr then bfLEN else 0) ||| (if crcErr then bfCRC else 0) ||| x.frameFlags
    let (vals, s) := s.lineValues dt w l
    let (out, s) := if s.stPath n = 0 then (vals, s) else s.pipeLine n dt w y vals
    let units := if (y + 1) % s.vdec n = 0 then [(out, x.meshBad)] else []
    let x := if x.bands.any fun b => decide (b.stop = stop) then x
      else
        { x with seq := (x.seq + 1) % 2 ^ 32,
                 bands := x.bands ++ [SfeBand.mk x.seq (2 ^ 20 * x.frames + j * bh) stop (min (e + s.reach n) h) [] 0 0 0 t t
                   x.tFsync x.frameNo false false 0] }
    let x := { x with bands := x.bands.map fun (b : SfeBand) =>
        if b.stop = stop then
          { b with units := b.units ++ units, count := b.count + 1, errs := b.errs + b2n (lenErr || crcErr),
                   flags := b.flags ||| fl, tLast := t }
        else b }
    let x := { x with bands := x.bands.map fun (b : SfeBand) => if b.stop / 2 ^ 20 = x.frames && b.need ≤ y + 1 then { b with closed := true } else b }
    let s := s.setStream n x
    if lenErr || crcErr then s.bump (rStream n 0x28) else s

/-- How many lines every exposure of a group has delivered (R84). -/
def State.mergedLines (s : State) (lead : Nat) : Nat :=
  (List.range 64).foldl (fun a k => if s.memberOf k lead then min a (s.stream k).lines else a) (s.stream lead).lines

/-- Lines of the lead that have all their exposures are passed on, in order; each then starts for the LINE axis, from line
1 on (R79, R84), held behind a band that ends there (R88). -/
def State.passLines (s : State) (lead upTo : Nat) : Nat → State
  | 0 => s
  | fuel + 1 =>
    let x := s.stream lead
    match x.waiting with
    | [] => s
    | (l, crc, len) :: r =>
      if x.merged ≥ upTo then s
      else
        let s := s.setStream lead { x with waiting := r, merged := x.merged + 1 }
        let s := if x.merged = 0 then s else s.axEvent lead 1 x.merged (x.bandAt (2 ^ 20 * x.frames + x.merged))
        (s.lineIn lead x.merged l (decide (len = 1)) crc).passLines lead upTo fuel

/-- An image line of stream n (R79, R84, R103). -/
def State.imageLine (s : State) (n : Nat) (data : List Byte) (crcErr : Bool) : State :=
  let x := s.stream n
  let y := x.lines
  let h := s.frameHeight (s.leadOf n)
  let w := s.fld (rStream n 4) 13 0
  let dt := s.fld (rStream n 8) 13 8
  let len := lineBytes dt w
  let lenErr := decide (data.length ≠ len)
  let s := if lenErr then s.sfeCase 5 n (mStream n) else s
  if y ≥ h then
    -- lines beyond H - 1 are discarded: LEN_ERR in the record of the frame's last band
    let x := { x with lines := y + 1, bands := modAt x.bands (x.bands.length - 1) fun (b : SfeBand) => { b with flags := b.flags ||| bfLEN } }
    (s.setStream n x).sfeCase 6 n (mStream n)
  else
    let x := { x with lines := y + 1,
                      waiting := if s.stMember n then [] else x.waiting ++ [(sliceBytes data 0 len, crcErr, b2n lenErr)] }
    let s := s.setStream n x
    let lead := s.leadOf n
    s.passLines lead (s.mergedLines lead) (s.stream lead).waiting.length

/-- Embedded data of stream n (R77): written to the first 4 KiB of the slot of the open band, or kept for the next one. -/
def State.embedded (s : State) (n : Nat) (data : List Byte) : State :=
  let x := s.stream n
  let l := data.take (4096 - x.emb)
  let cut := decide (data.length > l.length)
  let x' := { x with emb := x.emb + l.length, embTrunc := x.embTrunc || cut,
                     bands := if cut then x.bands.map fun (b : SfeBand) => if b.stop / 2 ^ 20 = x.frames then { b with flags := b.flags ||| bfEMB } else b else x.bands }
  match x.bands with
  | b :: _ =>
    if b.started then
      let a := s.word64 (rSlot n (b.seq % s.stSlots n) 0) + x.emb
      ((s.setStream n x').dmaWrite (mStream n) a l false).1
    else s.setStream n { x' with embWait := x.embWait ++ l }
  | [] => s.setStream n { x' with embWait := x.embWait ++ l }

/-! Commands. -/

/-- A frame start packet (R79). -/
def execCsi2FrameStart (port vc : Fin 16) (frame : BitVec 16) (err : BitVec 5) (s : State) :
    Host.Outcome State Fault Refusal :=
  let p := port.val
  if !s.portReceives p then .next s
  else
    let (s, ok) := s.packetErr p (err.toNat % 16)
    if !ok then .next s
    else
      match s.camStream p vc.val with
      | none => .next (s.unmatched p)
      | some n => .next (s.frameStart n frame.toNat)

/-- A frame end packet (R79). -/
def execCsi2FrameEnd (port vc : Fin 16) (err : BitVec 5) (s : State) : Host.Outcome State Fault Refusal :=
  let p := port.val
  if !s.portReceives p then .next s
  else
    let (s, ok) := s.packetErr p (err.toNat % 16)
    if !ok then .next s
    else
      match s.camStream p vc.val with
      | none => .next (s.unmatched p)
      | some n => .next (s.frameEnd n)

/-- A line start, line end or generic short packet: types 0x02 and 0x03, and 0x08 to 0x0F (R76). -/
def execCsi2ShortPacket (port vc : Fin 16) (dt : BitVec 6) (err : BitVec 5) (s : State) :
    Host.Outcome State Fault Refusal :=
  let p := port.val
  if !s.portReceives p then .next s
  else
    let (s, ok) := s.packetErr p (err.toNat % 16)
    let t := dt.toNat
    if !ok then .next s
    else if t = 2 || t = 3 then .next (s.bump (rSfe (0x204 + p * 8)))
    else if 8 ≤ t && t < 16 then .next (s.bump (rSfe (0x200 + p * 8)))
    else if (s.camStream p vc.val).isNone then .next (s.unmatched p)
    else .next s

/-- A long packet (R77, R79, R100, R103). -/
def execCsi2LongPacket (port vc : Fin 16) (dt : BitVec 6) (data : List Byte) (err : BitVec 5) (s : State) :
    Host.Outcome State Fault Refusal :=
  let p := port.val
  if !s.portReceives p then .next s
  else
    let (s, ok) := s.packetErr p err.toNat
    if !ok then .next s
    else
      match s.camStream p vc.val with
      | none => .next (s.unmatched p)
      | some n =>
        let src := s.word (rStream n 8)
        let open_ := (s.stream n).frameOpen
        if dt.toNat = 0x12 && bitOf src 14 && open_ then .next (s.embedded n data)
        else if dt.toNat = bitsOf src 13 8 && open_ then
          let s := if bitOf err.toNat 4 then s.dropBand n bfOVERFLOW else s
          .next (s.imageLine n data (bitOf err.toNat 2))
        else .next (s.unmatched p)

/-- The azimuth field of a payload (R80). -/
def azimuth (src : Nat) (l : List Byte) : Option Nat :=
  let o := bitsOf src 19 6
  let n := if bitOf src 20 then 4 else 2
  if o + n ≤ l.length then some (if bitOf src 21 then beAt l o n else leAt l o n) else none

/-- A flow packet that is discarded (R80, R81). -/
def State.flowDiscard (s : State) (n : Nat) : State :=
  ((s.bump (rStream n 0x28)).orWord rSfeIrq 8).sfeCase 7 n (mStream n)

/-- A payload of stream n with sample a of 2^-32 turn (R86, R87, R88). -/
def State.flowIn (s : State) (n a : Nat) (l : List Byte) : State :=
  let x := s.stream n
  let delta := (a + 2 ^ 32 - x.acc % 2 ^ 32) % 2 ^ 32
  let back := decide (delta ≥ 2 ^ 31)
  let geom := s.word (rStream n 4)
  let size := 2 ^ (32 - bitsOf geom 18 16)
  let acc := if back then x.acc else x.acc + delta
  let t := s.recordTime.1
  let start := acc / size * size
  let unit := (l.drop (bitsOf geom 13 0), false)
  let openB := x.bands.getLast?.filter fun b => !b.closed
  -- a sample of a later sector completes the open one, and is held behind it
  let ends := match openB with | some b => decide (b.stop ≤ acc) | none => false
  let s := s.axEvent n 3 a (if ends then openB.map fun b => b.seq else none)
  let x := { x with acc := acc, bands := if ends then modAt x.bands (x.bands.length - 1) fun (b : SfeBand) => { b with closed := true } else x.bands }
  if acc < x.skip then s.setStream n x
  else if openB.isSome && !ends then
    let late := match openB with
      | some b => back && decide ((acc : Int) - (2 ^ 32 - delta : Nat) < (b.start : Int))
      | none => false
    let s := if late then s.sfeCase 8 n (mStream n) else s
    s.setStream n { x with bands := modAt x.bands (x.bands.length - 1) fun (b : SfeBand) =>
        { b with units := b.units ++ [unit], count := b.count + 1, tLast := t,
                 flags := if late then b.flags ||| bfLATE else b.flags } }
  else
    s.setStream n { x with seq := (x.seq + 1) % 2 ^ 32,
                           bands := x.bands ++ [SfeBand.mk x.seq start (start + size) 0 [unit] 1 0 0 t t 0 0 false false 0] }

/-- The oldest payload that the switch has handed over for a flow reaches its stream (R80); err bit 4: the stream's buffer
share is full (R100). -/
def execFlowPacket (flow : Fin 64) (full : Bool) (s : State) : Host.Outcome State Fault Refusal :=
  match s.sfe.flowQ.findIdx? fun p => decide (p.1 = flow.val) with
  | none => .next s
  | some i =>
    let l := (s.sfe.flowQ.getD i (0, [])).2
    let s := { s with sfe.flowQ := s.sfe.flowQ.eraseIdx i }
    match (List.range 64).find? fun n => s.stKind n = 2 && s.fld (rStream n 8) 5 0 = flow.val with
    | none => .next s
    | some n =>
      match azimuth (s.word (rStream n 8)) l with
      | none => .next (s.flowDiscard n)
      | some raw =>
        let m := s.word (rStream n 0xC)
        if raw ≥ m then .next (s.flowDiscard n)
        else
          let s := if full then s.dropBand n bfOVERFLOW else s
          .next (s.flowIn n (2 ^ 32 * raw / m % 2 ^ 32) l)

/-- A port's receiver gains or loses sync, or completes deskew calibration (R103, R105). -/
def execPhySyncChange (port : Fin 16) (sync deskew : Bool) (s : State) : Host.Outcome State Fault Refusal :=
  let p := port.val
  if !(s.bit (rSfePort p 0) 0 && s.fld (rSfePort p 0) 2 1 ≤ 1) then .next s
  else .next ((s.setBit (rSfePort p 4) 0 sync).setBit (rSfePort p 4) 1 deskew)

end Sys2Proof.Machine
end

