-- ==== Sys2Proof/Machine/Sfe.lean ====
section
/-! DEFINITION. The line-shift engines: programs, instructions, bands and stalls (03_sensor_front_end.md R90 to R104). -/

namespace Sys2Proof.Machine

/-! Programs (R93 to R96). -/

/-- Opcode of an instruction word. -/
def lseOp (w : Nat) : Nat := bitsOf w 31 27

/-- The format codes CVT accepts (R95). -/
def lseFmt (c : Nat) : Bool := c == 0 || c == 2 || c == 3 || c == 4 || c == 5 || c == 9

/-- An instruction word breaks a rule on its own (R96). -/
def lseBadWord (w : Nat) : Bool :=
  decide (lseOp w ≥ 8) || (decide (lseOp w = 5) && (!lseFmt (bitsOf w 26 23) || decide (bitsOf w 22 21 = 3))) ||
    (decide (lseOp w = 6) && decide (bitsOf w 21 20 = 3))

/-- Counter and body of the loop at instruction i, none where it is no LOOP. -/
def lseLoopAt (prog : List Nat) (i : Nat) : Option (Nat × Nat × Nat) :=
  let w := prog.getD i 0
  if lseOp w = 1 then some (bitsOf w 26 25, i + 1, i + 1 + bitsOf w 11 6) else none

/-- The loops whose body holds instruction i. -/
def lseEnclosing (prog : List Nat) (i : Nat) : List (Nat × Nat × Nat) :=
  (List.range i).filterMap fun k =>
    match lseLoopAt prog k with
    | some (c, f, l) => if f ≤ i && i ≤ l then some (c, f, l) else none
    | none => none

/-- The loop at instruction i breaks a rule: its body runs past I47, past an END or past an enclosing body, it is nested
more than 4 deep, or its counter is in use around it (R96). -/
def lseBadLoop (prog : List Nat) (i : Nat) : Bool :=
  match lseLoopAt prog i with
  | none => false
  | some (c, f, l) =>
    let out := lseEnclosing prog i
    decide (l > 47) || ((List.range (l + 1 - f)).any fun k => decide (lseOp (prog.getD (f + k) 0) = 0)) ||
      decide (out.length ≥ 4) || out.any fun o => decide (o.1 = c) || decide (o.2.2 < l)

/-- A shadow slot is valid (R96); the argument holds its 48 instructions. -/
def lseValid (prog : List Nat) : Bool :=
  let lastEnd := (List.range 48).foldl (fun a i => match lseLoopAt prog i with | some (_, _, l) => max a (l + 1) | none => a) 0
  !(prog.any lseBadWord) && !((List.range 48).any (lseBadLoop prog)) &&
    (List.range 48).any fun i => decide (lastEnd ≤ i) && decide (lseOp (prog.getD i 0) = 0)

/-- The 48 instructions of a program slot whose first word is at a. -/
def State.lseProg (s : State) (a : Nat) : List Nat := (List.range 48).map fun i => s.word (a + 0x40 + 4 * i)

/-- The shadow slot of stream n copied to its active slot. -/
def State.activate (s : State) (n : Nat) : State :=
  (List.range 64).foldl (fun s w => s.setWord (rActive n w) (s.word (rShadow n w))) s

/-! Instructions (R94, R95). -/

/-- The next instruction after pc, with the open loops (R95): a body that ends starts again while iterations are left. -/
def lseNext (pc : Nat) : List LseLoop → Nat × List LseLoop
  | [] => (pc + 1, [])
  | l :: r =>
    if l.last = pc then
      if l.left > 1 then (l.first, { l with left := l.left - 1 } :: r) else lseNext pc r
    else (pc + 1, l :: r)

/-- Moves a context past its instruction. -/
def LseCtx.advance (c : LseCtx) : LseCtx :=
  let (pc, loops) := lseNext c.pc c.loops
  { c with pc := pc, loops := loops }

/-- The field of w bits of a unit at bit position p; bits outside the unit read 0. -/
def unitBits (u : List Byte) (p : Int) (w : Nat) : Nat :=
  let first := (p - p % 8) / 8
  let v := leNat ((List.range (w / 8 + 2)).map fun (i : Nat) =>
    let k := first + i
    if k < 0 then 0 else u.getD k.toNat 0)
  v >>> (p % 8).toNat % 2 ^ w

/-- An instruction of stream n counts one cycle of its engine (R92, R105). -/
def State.lseCycle (s : State) (n : Nat) : State := { s with sfe.cycles := modAt s.sfe.cycles (n / 16) (· + 1) }

/-- The instruction that stream n runs next, when it has the opcode asked for. -/
def State.lseWord (s : State) (n op : Nat) : Option Nat :=
  let c := (s.stream n).ctx
  let w := s.word (rActive n (16 + c.pc))
  let w := if c.pc ≥ 48 then 0 else w
  if c.running && decide (lseOp w = op) then some w else none

/-- Runs one instruction on the context of stream n. -/
def State.lseRun (s : State) (n : Nat) (f : LseCtx → LseCtx) : State :=
  let x := s.stream n
  (s.setStream n { x with ctx := (f x.ctx).advance }).lseCycle n

/-- n lanes of w bits from the unit (R95). -/
def LseCtx.get (c : LseCtx) (n w : Nat) (signed : Bool) : LseCtx :=
  let lane (i : Nat) : Nat :=
    let v := unitBits c.unit (c.cursor + (i * w : Nat)) w
    if signed then ofSigned 32 (toSigned w v) else v
  { c with x := (List.range 32).map fun i => if i < n then lane i else c.x.getD i 0, cursor := c.cursor + (n * w : Nat) }

/-- The ALU operation on one lane with a signed immediate (R95). Minimum and maximum compare as signed: DEDUCED (log 53). -/
def lseAlu (op lane : Nat) (imm : Int) : Nat :=
  let a := toSigned 32 lane
  let k := ofSigned 32 imm % 32
  match op with
  | 0 => ofSigned 32 (a + imm)
  | 1 => ofSigned 32 (a - imm)
  | 2 => ofSigned 32 (a * imm)
  | 3 => ofSigned 32 (a / (2 ^ k : Nat))
  | 4 => (lane <<< k) % 2 ^ 32
  | 5 => ofSigned 32 (min a imm)
  | 6 => ofSigned 32 (max a imm)
  | _ => lane &&& ofSigned 32 imm

/-- One lane times 2^e in a format (R95, R117, R120). -/
def lseCvt (fmt mode lane : Nat) (signed : Bool) (e : Int) : Nat :=
  let v : Int := if signed then toSigned 32 lane else lane
  (numRound fmt mode (.fin (decide (v < 0)) v.natAbs e) 0).1

/-- The address stride of a PUT (R95). -/
def State.lseStride (s : State) (n w : Nat) : Nat :=
  if bitOf w 17 then s.word (rActive n (8 + bitsOf w 19 18)) else 2 ^ bitsOf w 21 20

/-- The offsets in its slot that a PUT of stream n stores to, one for each lane, modulo 2^32 (R94, R95). -/
def State.putOffsets (s : State) (n w : Nat) : List Nat :=
  let a := (s.stream n).ctx.a.getD (bitsOf w 19 18) 0
  (List.range (bitsOf w 26 22 + 1)).map fun i => (a + i * s.lseStride n w) % 2 ^ 32


/-- The slot that the band in front of stream n uses. -/
def State.curSlot (s : State) (n : Nat) : Nat :=
  match (s.stream n).bands with
  | b :: _ => b.seq % s.stSlots n
  | [] => 0

/-- The fabric has no write credit for the stream's label: its hold queue at the SFE's port is full (R99, R421). -/
def State.noCredit (s : State) (n : Nat) : Bool :=
  decide (64 ≤ (fmGetD [] s.fab.holdQ (26 * 256 + s.stLabel n)).length)

/-! Commands. -/

/-- The engine starts the first unit of a band (R90, R94, R96, R98, R99). -/
def execBandStart (stream : Fin 64) (s : State) : Host.Outcome State Fault Refusal :=
  let n := stream.val
  let x := s.stream n
  match x.bands with
  | [] => .next s
  | b :: _ =>
    let k := b.seq % s.stSlots n
    if b.started || (b.units.isEmpty && !b.closed) then .next s
    else if s.slotOf n k ≠ 1 then .next (s.beginStall n)
    else
      let pend := s.bit (rStream n 0x18) 1
      let s := if pend then ((s.activate n).setBit (rStream n 0x18) 1 false).setBit (rStream n 0x14) 0 false else s
      let a := (List.range 4).map fun i => s.word (rActive n i)
      let s := (s.setSlot n k 3).setBit (rStream n 0x18) 0 true
      let s := s.setStream n { x with
        bands := modAt x.bands 0 fun b => { b with started := true, flags := if pend then b.flags ||| bfNEW else b.flags },
        ctx := { x.ctx with a := a, running := false }, embWait := [] }
      if x.embWait.isEmpty then .next s
      else .next (s.dmaWrite (mStream n) (s.word64 (rSlot n k 0) + (x.emb - x.embWait.length)) x.embWait false).1

/-- The engine starts a unit (R94). -/
def execLseUnitStart (stream : Fin 64) (s : State) : Host.Outcome State Fault Refusal :=
  let n := stream.val
  let x := s.stream n
  match x.bands with
  | [] => .next s
  | b :: rest =>
    match b.units with
    | [] => .next s
    | (u, bad) :: us =>
      if !b.started || x.ctx.running then .next s
      else
        .next (s.setStream n { x with
          bands := { b with units := us } :: rest,
          ctx := { x.ctx with aUnit := x.ctx.a, unit := u, bad := bad, cursor := 0, pc := 0, loops := [], running := true } })

/-- END (R94, R95). -/
def execLseEnd (stream : Fin 64) (s : State) : Host.Outcome State Fault Refusal :=
  let n := stream.val
  match s.lseWord n 0 with
  | none => .next s
  | some _ =>
    let x := s.stream n
    let keep := s.bit (rActive n 12) 0
    let a := if keep then x.ctx.a
      else (List.range 4).map fun i => (x.ctx.aUnit.getD i 0 + s.word (rActive n (4 + i))) % 2 ^ 32
    .next ((s.setStream n { x with ctx := { x.ctx with a := a, running := false, loops := [] } }).lseCycle n)

/-- LOOP (R95). -/
def execLseLoop (stream : Fin 64) (s : State) : Host.Outcome State Fault Refusal :=
  let n := stream.val
  match s.lseWord n 1 with
  | none => .next s
  | some w =>
    let x := s.stream n
    let c := x.ctx
    let l := LseLoop.mk (bitsOf w 26 25) (bitsOf w 24 12 + 1) (c.pc + 1) (c.pc + 1 + bitsOf w 11 6)
    .next ((s.setStream n { x with ctx := { c with pc := c.pc + 1, loops := l :: c.loops } }).lseCycle n)

/-- GET (R95). -/
def execLseGet (stream : Fin 64) (s : State) : Host.Outcome State Fault Refusal :=
  match s.lseWord stream.val 2 with
  | none => .next s
  | some w => .next (s.lseRun stream.val fun c => c.get (bitsOf w 26 22 + 1) (bitsOf w 21 17 + 1) (bitOf w 16))

/-- SKIP (R95). -/
def execLseSkip (stream : Fin 64) (s : State) : Host.Outcome State Fault Refusal :=
  match s.lseWord stream.val 3 with
  | none => .next s
  | some w => .next (s.lseRun stream.val fun c => { c with cursor := c.cursor + toSigned 24 w })

/-- ALU (R95). -/
def execLseAlu (stream : Fin 64) (s : State) : Host.Outcome State Fault Refusal :=
  match s.lseWord stream.val 4 with
  | none => .next s
  | some w => .next (s.lseRun stream.val fun c => { c with x := c.x.map fun v => lseAlu (bitsOf w 26 24) v (toSigned 24 w) })

/-- CVT (R95). -/
def execLseCvt (stream : Fin 64) (s : State) : Host.Outcome State Fault Refusal :=
  match s.lseWord stream.val 5 with
  | none => .next s
  | some w =>
    .next (s.lseRun stream.val fun c =>
      { c with x := c.x.map fun v => lseCvt (bitsOf w 26 23) (bitsOf w 22 21) v (bitOf w 20) (toSigned 8 (bitsOf w 19 12)) })

/-- PUT (R95, R97, R99). -/
def execLsePut (stream : Fin 64) (s : State) : Host.Outcome State Fault Refusal :=
  let n := stream.val
  match s.lseWord n 6 with
  | none => .next s
  | some w =>
    let r := bitsOf w 19 18
    let inc (c : LseCtx) : LseCtx :=
      if bitOf w 16 then
        { c with a := modAt c.a r fun v => (v + (bitsOf w 26 22 + 1) * s.lseStride n w) % 2 ^ 32 }
      else c
    let k := s.curSlot n
    let ext := s.word64 (rSlot n k 8)
    let size := 2 ^ bitsOf w 21 20
    if !(s.putOffsets n w).all fun o => decide (o + size ≤ ext) then
      let s := s.lseRun n inc
      let x := s.stream n
      let s := s.setStream n { x with bands := modAt x.bands 0 fun b => { b with flags := b.flags ||| bfBOUNDS } }
      .next (((s.setBit (rStream n 0x18) 6 true).orWord rSfeIrq 0x20).fault 0x1C 1 (mStream n) n 0)
    else if s.noCredit n then .next (s.beginStall n)
    else
      let base := s.word64 (rSlot n k 0)
      let c := (s.stream n).ctx
      let offs := s.putOffsets n w
      let s := s.endStall n
      let s := (offs.zip c.x).foldl (fun s p => (s.dmaWrite (mStream n) (base + p.1) (leBytes size p.2) c.bad).1) s
      let s := s.lseRun n inc
      let x := s.stream n
      .next (s.setStream n { x with bands := modAt x.bands 0 fun b => { b with bytes := b.bytes + offs.length * size } })

/-- ADDA (R95). -/
def execLseAdda (stream : Fin 64) (s : State) : Host.Outcome State Fault Refusal :=
  match s.lseWord stream.val 7 with
  | none => .next s
  | some w =>
    .next (s.lseRun stream.val fun c =>
      { c with a := modAt c.a (bitsOf w 26 25) fun v => ofSigned 32 ((v : Int) + toSigned 25 w) })

/-- A band or sector whose units are all written is complete (R87, R88, R90, R101). -/
def execBandComplete (stream : Fin 64) (s : State) : Host.Outcome State Fault Refusal :=
  let n := stream.val
  match (s.stream n).bands with
  | [] => .next s
  | b :: _ =>
    if !(b.started && b.closed && b.units.isEmpty && !(s.stream n).ctx.running) then .next s
    else
      let s := s.endStall n
      let x := s.stream n
      let b := x.bands.headD b
      let s := s.bandRecord n b b.flags
      let s := (s.setSlot n (b.seq % s.stSlots n) 2).setBit (rStream n 0x18) 0 false
      let s := s.setStream n { x with bands := x.bands.drop 1 }
      let s := if b.flags &&& bfSTALLED ≠ 0 then s.bump (rStream n 0x2C) else s
      .next ((s.releaseEvent n b.seq).phxEvent 2 n)

/-- A stall has lasted longer than the unit time (R99). -/
def execStreamStallTimeout (stream : Fin 64) (s : State) : Host.Outcome State Fault Refusal :=
  let n := stream.val
  match (s.stream n).stalled with
  | none => .next s
  | some t => .next ((s.timeTo (t + 4 * s.word (rStream n 0x10) + 1)).dropBand n 0)

/-- A write of SFE_STREAM_SLOTREL (R91). -/
def State.slotRelease (s : State) (m : Master) (inst : Option (Fin 64)) (n v : Nat) : State :=
  let bad (s : State) : State :=
    ((s.setBit (rStream n 0x18) 5 true).orWord rSfeIrq 0x10).ignoreWr m (rStream n 0x1C)
  if !s.consumer m inst n then bad s
  else
    let named := setBitsList 4 v
    let refused := named.any fun k => decide (s.slotOf n k ≠ 2)
    let s := named.foldl (fun s k => if s.slotOf n k = 2 then s.setSlot n k 1 else s) s
    if refused then bad s else s.respOk []

def execSlotRelease (m : Master) (inst : Option (Fin 64)) (stream : Fin 64) (v : BitVec 32) (s : State) :
    Host.Outcome State Fault Refusal :=
  .next (s.slotRelease m inst stream.val v.toNat)

/-- COMMIT of stream n (R96, R98); a commit that is already pending stays. -/
def State.sfeCommit (s : State) (n : Nat) : State :=
  if s.bit (rStream n 0x18) 1 then s
  else if lseValid (s.lseProg (rShadow n 0)) then (s.setBit (rStream n 0x18) 1 true).setBit (rStream n 0x14) 0 true
  else ((s.setBit (rStream n 0x18) 3 true).orWord rSfeIrq 2).setBit (rStream n 0x14) 0 false

/-- CANCEL of stream n (R98). -/
def State.sfeCancel (s : State) (n : Nat) : State := (s.setBit (rStream n 0x18) 1 false).setBit (rStream n 0x14) 0 false

/-- RESTART of stream n (R104). -/
def State.sfeRestart (s : State) (n : Nat) : State :=
  let s := s.dropAll n (s.stream n).bands.length
  let x := s.stream n
  (s.setStream n { x with seq := 0 }).setFld (rStream n 0x18) 15 8 (s.fld (rStream n 0x18) 15 8 + 1)

/-- A write of SFE_STREAM_CTRL (R106): CANCEL before COMMIT; a bit that its writer may not write is ignored with a class N
fault. -/
def State.sfeCtrl (s : State) (m : Master) (inst : Option (Fin 64)) (n v : Nat) : State :=
  let fw := inst.isNone && isFwp m
  let mayC := s.consumer m inst n || fw
  let mayR := inst.isNone && s.sysWriter m
  let bad := (v % 4 ≠ 0 && !mayC) || (bitOf v 2 && !mayR)
  let s := if bitOf v 1 && mayC then s.sfeCancel n else s
  let s := if bitOf v 0 && mayC then s.sfeCommit n else s
  let s := if bitOf v 2 && mayR then s.sfeRestart n else s
  if bad then s.ignoreWr m (rStream n 0x14) else s.respOk []

def execCommit (m : Master) (inst : Option (Fin 64)) (stream : Fin 64) (s : State) : Host.Outcome State Fault Refusal :=
  .next (s.sfeCtrl m inst stream.val 1)

def execCancel (m : Master) (inst : Option (Fin 64)) (stream : Fin 64) (s : State) : Host.Outcome State Fault Refusal :=
  .next (s.sfeCtrl m inst stream.val 2)

def execRestart (m : Master) (inst : Option (Fin 64)) (stream : Fin 64) (s : State) : Host.Outcome State Fault Refusal :=
  .next (s.sfeCtrl m inst stream.val 4)

/-- A write to a word of a shadow slot (R98): by a system master or the consumer; other masters are refused. DEDUCED
(log 54). -/
def State.shadowWrite (s : State) (m : Master) (inst : Option (Fin 64)) (n w v : Nat) : State :=
  let a := rShadow n w
  if !(s.consumer m inst n || (inst.isNone && s.sysWriter m)) then s.refuse m 2 a
  else if s.bit (rStream n 0x18) 1 then ((s.setBit (rStream n 0x18) 4 true).accessFault m 2 a).respOk []
  else (s.setWord a v).respOk []

def execShadowSlotWrite (m : Master) (inst : Option (Fin 64)) (stream word : Fin 64) (v : BitVec 32) (s : State) :
    Host.Outcome State Fault Refusal :=
  .next (s.shadowWrite m inst stream.val word.val v.toNat)

/-- The end of a 1 ms window: OCC of each engine in units of 1/1,000 of the window's 800,000 SENSOR cycles, and PEAK
(R92, R105). -/
def execLseOccupancyWindow (s : State) : Host.Outcome State Fault Refusal :=
  let s := s.timeTo (4000000 * (s.now / 4000000 + 1))
  let s := (List.range 4).foldl (fun s e =>
    let occ := min (s.sfe.cycles.getD e 0 / 800) 1000
    let r := rSfe (0x10 + 4 * e)
    (s.setFld r 9 0 occ).setFld r 25 16 (max occ (s.fld r 25 16))) s
  .next { s with sfe.cycles := [0, 0, 0, 0] }

end Sys2Proof.Machine
end

