-- ==== Sys2Proof/Machine/WpeWorld.lean ====
section
/-! DEFINITION. The world the planning engine works on (10_planning_engine.md R323 to R334): epoch buffers, headers,
changed regions, pins and occupancy. -/

namespace Sys2Proof.Machine

/-- Grid size and layers (R323, WPE_GRID_CFG), and layer duration in microseconds. -/
def State.gridW64 (s : State) : Nat := s.fld (rWpe 0x14) 4 0
def State.gridH64 (s : State) : Nat := s.fld (rWpe 0x14) 12 8
def State.gridW (s : State) : Nat := 64 * s.gridW64
def State.gridH (s : State) : Nat := 64 * s.gridH64
def State.gridL (s : State) : Nat := s.fld (rWpe 0x14) 19 16 + 1
def State.gridDt (s : State) : Nat := s.fld (rWpe 0x18) 19 0

/-- Base and size in bytes of an epoch buffer (R327). -/
def State.epochBase (s : State) (b : Nat) : Nat := s.word64 (rWpe (0x30 + b * 8))
def State.epochSize (s : State) : Nat := 4096 * s.word (rWpe 0x48)

/-- An epoch header (R328). -/
structure EpochHdr where
  number : Nat
  version : Nat
  kind : Nat
  layers : Nat
  w : Nat
  h : Nat
  res : Nat
  flags : Nat
  ox : Int
  oy : Int
  tLayer0 : Nat
  treeOfs : Nat
  treeNodes : Nat
  tx : Int
  ty : Int
  tz : Int
  depth : Nat
  vox : Nat
  groundZ : Int
  deriving DecidableEq, Repr

/-- The fields of a header held in bytes (R328). -/
def EpochHdr.ofBytes (l : List Byte) : EpochHdr where
  number := leAt l 0 4
  version := leAt l 4 2
  kind := leAt l 6 1
  layers := leAt l 7 1
  w := leAt l 8 2
  h := leAt l 10 2
  res := leAt l 12 2
  flags := leAt l 14 2
  ox := toSigned 32 (leAt l 16 4)
  oy := toSigned 32 (leAt l 20 4)
  tLayer0 := leAt l 24 8
  treeOfs := leAt l 0x20 4
  treeNodes := leAt l 0x24 4
  tx := toSigned 32 (leAt l 0x28 4)
  ty := toSigned 32 (leAt l 0x2C 4)
  tz := toSigned 32 (leAt l 0x30 4)
  depth := leAt l 0x34 1
  vox := leAt l 0x36 2
  groundZ := toSigned 32 (leAt l 0x38 4)

/-- The header of a buffer. -/
def State.epochHdr (s : State) (b : Nat) : EpochHdr := .ofBytes (s.bytes (s.epochBase b) 256)

/-- The checks of a publish (R328, R332) on the 256 header bytes: fields, sizes, reserved bytes and the CRC. -/
def State.hdrOk (s : State) (l : List Byte) : Bool :=
  let h := EpochHdr.ofBytes l
  let treeOk :=
    if h.kind = 0 then
      decide (h.treeOfs = 0) && decide (h.treeNodes = 0) && decide (h.depth = 0) && decide (h.vox = 0)
    else
      s.bit (rWpe 0x14) 20 && decide (h.treeOfs % 4096 = 0) && decide (1 ≤ h.treeNodes) && decide (h.treeNodes ≤ 1048576) &&
        decide (1 ≤ h.depth) && decide (h.depth ≤ 10) && decide (200 ≤ h.vox) &&
        decide (h.treeOfs + 8 * h.treeNodes ≤ s.epochSize)
  let zeros := ((sliceBytes l 0x35 1) ++ sliceBytes l 0x3C 192).all fun b => decide (b = 0)
  let crc := crc32c (zeroBytes 4 ++ sliceBytes l 4 248)
  decide (h.version = 1) && decide (h.kind ≤ 1) && decide (h.layers = s.gridL) && decide (h.w = s.gridW) &&
    decide (h.h = s.gridH) && decide (100 ≤ h.res) && decide (h.res ≤ 500) && decide (h.flags ≤ 1) && treeOk && zeros &&
    decide (crc = leAt l 0xFC 4)

/-! Buffer states and pins (R330 to R334). -/

/-- State of buffer b: 0 FREE, 1 WRITING, 2 PUBLISHED; its pins; the newest buffer, 3 none. -/
def State.bufState (s : State) (b : Nat) : Nat := s.fld (rWpe 0x54) (4 * b + 1) (4 * b)
def State.bufPlanPin (s : State) (b : Nat) : Bool := s.bit (rWpe 0x54) (4 * b + 2)
def State.bufHeelPin (s : State) (b : Nat) : Bool := s.bit (rWpe 0x54) (4 * b + 3)
def State.newest (s : State) : Nat := s.fld (rWpe 0x54) 13 12

def State.setBuf (s : State) (b st : Nat) : State := s.setFld (rWpe 0x54) (4 * b + 1) (4 * b) st

/-- Published buffers that are neither newest nor pinned become FREE (R330). -/
def State.settle (s : State) : State :=
  (List.range 3).foldl (fun s b =>
    if decide (s.bufState b = 2) && decide (s.newest ≠ b) && !s.bufPlanPin b && !s.bufHeelPin b then s.setBuf b 0 else s) s

/-- The plan pin or the heel pin moves to a buffer, 3 for none; WPE_STATUS shows it. -/
def State.movePlanPin (s : State) (b : Nat) : State :=
  let s := (List.range 3).foldl (fun s k => s.setBit (rWpe 0x54) (4 * k + 2) (k == b)) s
  (s.setFld rWpeStatus 3 2 b).settle

def State.moveHeelPin (s : State) (b : Nat) : State :=
  let s := (List.range 3).foldl (fun s k => s.setBit (rWpe 0x54) (4 * k + 3) (k == b)) s
  (s.setFld rWpeStatus 5 4 b).settle

/-- The planner, or the heel checker, pins the newest epoch and clears its change accumulator (R333). -/
def State.pinPlan (s : State) : State := { s.movePlanPin s.newest with wpe.chgPlan := 0 }
def State.pinHeel (s : State) : State := { s.moveHeelPin s.newest with wpe.chgHeel := 0 }

/-- The changed regions of a published buffer (R329); every region for the first epoch (log 30). -/
def State.changedRegions (s : State) (b : Nat) : BitVec 4096 :=
  let h := s.epochHdr b
  let same := match s.wpe.prevGeom with | some g => decide (g = (h.ox, h.oy, h.res)) | none => false
  if bitOf h.flags 0 || !same then BitVec.allOnes 4096
  else BitVec.ofNat 4096 (leNat (s.bytes (s.epochBase b + 0x100) 512))

/-- One more publish error: counted, raised and recorded class N (R332, R334). -/
def State.pubErr (s : State) (m : Master) : State :=
  ((s.bumpSat (rWpe 0x5C) 31 16).orWord rWpeIrq 0x20).fault 0x1D 1 m 0 0

/-! Occupancy (R324, R342). -/

/-- Occupancy byte of a cell of a layer of a buffer; a poisoned byte reads 255. -/
def State.occAt (s : State) (b layer x y : Nat) : Nat :=
  let a := s.epochBase b + 0x1000 + (layer * s.gridH + y) * s.gridW + x
  if s.poisoned a 1 then 255 else (s.byte a).toNat

/-- The layers of an epoch between its T_LAYER0 and a reference time (R337). -/
def State.layerShift (s : State) (tRef tLayer0 : Nat) : Nat := (tRef - tLayer0) / (1000 * s.gridDt)

/-- Region number of a cell (R329). -/
def State.regionOf (s : State) (x y : Nat) : Nat := y / max 1 s.gridH64 * 64 + x / max 1 s.gridW64

/-- Storage answers for a whole range of the planner's areas (R358). -/
def State.rangeOk (s : State) (m : Master) (write : Bool) (a n : Nat) : Bool :=
  let ok (x : Nat) : Bool := decide (s.mapAnswer m write x = .served) && (s.addrKind x).isStorage
  ok a && ok (a + n - 1)

end Sys2Proof.Machine
end

