-- ==== Sys2Proof/Machine/WpePlan.lean ====
section
/-! DEFINITION. Primitives, the backward expansion, rollouts and the footprint checks (10_planning_engine.md R339 to R346,
R325, R326). -/

namespace Sys2Proof.Machine

/-- A motion primitive (R340). -/
structure Prim where
  dx : Int
  dy : Int
  mx : Int
  my : Int
  h2 : Nat
  valid : Bool
  base : Nat
  len : Nat
  curv : Int
  deriving DecidableEq, Repr

/-- Primitive p of heading h. -/
def State.prim (s : State) (h p : Nat) : Prim :=
  let l := s.regBytes (rWpe (0x800 + (h * 8 + p) * 16)) 16
  let c := leAt l 4 1
  ⟨toSigned 8 (leAt l 0 1), toSigned 8 (leAt l 1 1), toSigned 8 (leAt l 2 1), toSigned 8 (leAt l 3 1), c % 8, bitOf c 7,
    leAt l 6 2, leAt l 8 2, toSigned 16 (leAt l 10 2)⟩

/-- The whole primitive table, index h * 8 + p. -/
def State.prims (s : State) : Array Prim := Array.ofFn fun k : Fin 64 => s.prim (k.val / 8) (k.val % 8)

/-- A state of the lattice: cell and heading. -/
structure LState where
  x : Int
  y : Int
  h : Nat
  deriving DecidableEq, Repr

/-- The grid a run works on: sizes and a read of the occupancy of the layers t + SHIFT (R342). -/
structure Grid where
  w : Nat
  h : Nat
  l : Nat
  deriving DecidableEq, Repr

/-- A position is inside the grid. -/
def Grid.has (g : Grid) (x y : Int) : Bool :=
  decide (0 ≤ x) && decide (x < g.w) && decide (0 ≤ y) && decide (y < g.h)

def Grid.cell (g : Grid) (x y : Int) : Nat := y.toNat * g.w + x.toNat

/-- The cost of one motion, none when the tests of R342 refuse it: occupancy of the layer and values of the next layer are
given by cell. -/
def primCost (g : Grid) (occ : Array Nat) (vn : Array Nat) (wocc unknown : Nat) (s : LState) (p : Prim) : Option Nat :=
  let x2 := s.x + p.dx
  let y2 := s.y + p.dy
  let xm := s.x + p.mx
  let ym := s.y + p.my
  if !p.valid || !g.has x2 y2 || !g.has xm ym then none
  else
    let o := max (occ.getD (g.cell x2 y2) 255) (occ.getD (g.cell xm ym) 255)
    if o ≥ 254 then none
    else
      let v := vn.getD (g.cell x2 y2 * 8 + p.h2) 0xFFFF
      if v = 0xFFFF then none
      else
        let oc := if o = 253 then unknown else o * wocc
        some (min (p.base + oc + v) 0xFFFE)

/-- Value and policy of one state: ties keep the lower primitive (R342). -/
def relax (g : Grid) (pr : Array Prim) (occ vn : Array Nat) (wocc unknown : Nat) (s : LState) : Nat × Nat :=
  (List.range 8).foldl (fun (best : Nat × Nat) p =>
    match pr[s.h * 8 + p]? with
    | none => best
    | some q =>
      match primCost g occ vn wocc unknown s q with
      | some c => if c < best.1 then (c, p) else best
      | none => best) (0xFFFF, 8)

/-- Values and policies of one layer, by state index within the layer. -/
def relaxLayer (g : Grid) (pr : Array Prim) (occ vn : Array Nat) (wocc unknown : Nat) : Array (Nat × Nat) :=
  Array.ofFn fun k : Fin (g.w * g.h * 8) =>
    relax g pr occ vn wocc unknown ⟨(k.val / 8 % g.w : Nat), (k.val / 8 / g.w : Nat), k.val % 8⟩

/-- The policy bytes of a layer: two states a byte, the even one in the low half (R342). -/
def policyBytes (a : Array (Nat × Nat)) : List Byte :=
  (List.range (a.size / 2)).map fun i =>
    BitVec.ofNat 8 ((a.getD (2 * i) (0, 8)).2 + 16 * (a.getD (2 * i + 1) (0, 8)).2)

/-- The occupancy of layer t of a run, by cell (R342). -/
def State.occLayer (s : State) (g : Grid) (buf shift t : Nat) : Array Nat :=
  Array.ofFn fun k : Fin (g.w * g.h) => s.occAt buf (min (t + shift) (g.l - 1)) (k.val % g.w) (k.val / g.w)

/-- Terminal values from the goal field (R341). -/
def State.terminal (s : State) (g : Grid) (goal : Nat) : Array Nat :=
  let gc := s.word (rWpe 0x70)
  let hdev := s.fld (rWpe 0x20) 15 0
  Array.ofFn fun k : Fin (g.w * g.h * 8) =>
    let h := k.val % 8
    let v := s.mnat (goal + 2 * (k.val / 8)) 2
    if v = 0xFFFF then 0xFFFF
    else
      let gh := bitsOf gc 4 2
      let d := if h ≥ gh then h - gh else gh - h
      let hd := min d (8 - d)
      min (v + if bitOf gc 5 then hdev * hd else 0) 0xFFFE

/-- The layers n - 1 down to 0 (R342): policies go to the policy area; the values of the layer above layer 0 are kept. -/
def State.expandLayers (s : State) (g : Grid) (pr : Array Prim) (buf shift area : Nat) :
    Nat → Array Nat → State × Array Nat
  | 0, vn => (s, vn)
  | t + 1, vn =>
    let wocc := s.fld (rWpe 0x1C) 15 0
    let unk := s.fld (rWpe 0x1C) 31 16
    let a := relaxLayer g pr (s.occLayer g buf shift t) vn wocc unk
    let s := s.store (area + t * g.w * g.h * 4) (policyBytes a)
    if t = 0 then (s, vn) else s.expandLayers g pr buf shift area t (a.map Prod.fst)

/-- The start state of a run (R339). -/
def startState (h : EpochHdr) (v : VState) : LState :=
  ⟨(v.x - h.ox) / (h.res : Int), (v.y - h.oy) / (h.res : Int), (v.head + 0x1000) / 8192 % 8⟩

/-- The policy stored for a state of layer t; none when its byte is poisoned (R343). -/
def State.policyAt (s : State) (g : Grid) (t : Nat) (q : LState) : Option Nat :=
  let i := (t * g.h * g.w + g.cell q.x q.y) * 8 + q.h
  let a := s.word64 (rWpe 0x78) + i / 2
  if s.poisoned a 1 then none
  else
    let b := (s.byte a).toNat
    some (if i % 2 = 0 then b % 16 else b / 16)

/-- Where a primitive leads. -/
def LState.step (q : LState) (p : Prim) : LState := ⟨q.x + p.dx, q.y + p.dy, p.h2⟩

/-- The states and leaving primitives of layers t to L - 1 after the start, following the policies (R343); none abandons
the candidate: poison, a policy that names no valid primitive, or a way out of the grid. -/
def State.follow (s : State) (g : Grid) (pr : Array Prim) : Nat → Nat → LState → Option (List (LState × Prim))
  | 0, _, _ => some []
  | n + 1, t, q =>
    if !g.has q.x q.y then none
    else
      match s.policyAt g t q with
      | none => none
      | some k =>
        if k ≥ 8 then none
        else
          match pr[q.h * 8 + k]? with
          | none => none
          | some p =>
            if !p.valid || !g.has (q.x + p.dx) (q.y + p.dy) then none
            else
              match s.follow g pr n (t + 1) (q.step p) with
              | none => none
              | some r => some ((q, p) :: r)

/-- Saturates a value to u16 or s16. -/
def satU16 (x : Nat) : Nat := min x 0xFFFF
def satS16 (x : Int) : Int := clampInt x (-32768) 32767

/-- The trajectory points of a rollout (R344): the states with the primitives that leave them, and the last state. -/
def rolloutPoints (h : EpochHdr) (v : VState) (dt : Nat) (legs : List (LState × Prim)) (last : LState) : List TPoint :=
  let n := legs.length
  let states := legs.map Prod.fst ++ [last]
  let prims := legs.map Prod.snd
  let spd (k : Nat) : Nat := match prims[k]? with | some p => satU16 (1000000 * p.len / dt) | none => 0
  let speed (k : Nat) : Nat := if k = 0 then v.speed else if k < n then spd k else if n ≤ 1 then v.speed else spd (n - 1)
  let acc (k : Nat) : Int :=
    if k < n then satS16 (Int.tdiv (1000000 * ((speed (k + 1) : Int) - speed k)) dt) else 0
  (List.range (n + 1)).map fun k =>
    match states[k]? with
    | none => ⟨0, 0, 0, 0, 0, 0, 0⟩
    | some q =>
      let pos (o c : Int) : Int := toSigned 32 (ofSigned 32 (o + c * h.res + (h.res / 2 : Nat)))
      let curv := match prims[k]? with | some p => p.curv | none => 0
      if k = 0 then ⟨0, v.x, v.y, v.head, v.speed, curv, acc 0⟩
      else ⟨k * dt, pos h.ox q.x, pos h.oy q.y, 0x2000 * q.h, speed k, curv, acc k⟩

/-! Footprint checks (R345). -/

/-- A point of the plane in FP32. -/
structure FPoint where
  x : Nat
  y : Nat
  deriving DecidableEq, Repr

/-- FP32 operations by RNE without their flags. -/
def fa (a b : Nat) : Nat := (fadd 0 a b).1
def fs (a b : Nat) : Nat := (fsub 0 a b).1
def fm (a b : Nat) : Nat := (fmul 0 a b).1

/-- side() of R278: twice the signed area, positive to the left of the edge. -/
def side (e0 e1 p : FPoint) : Nat := fs (fm (fs e1.x e0.x) (fs p.y e0.y)) (fm (fs e1.y e0.y) (fs p.x e0.x))

/-- The footprint's vertices, s32 mm each (WPE_VEH.NVERT of them). -/
def State.footVerts (s : State) : List FPoint :=
  (List.range (s.fld (rWpe 0xA0) 4 0)).map fun v =>
    ⟨fOfInt (toSigned 32 (s.word (rWpe (0x400 + v * 8)))), fOfInt (toSigned 32 (s.word (rWpe (0x404 + v * 8))))⟩

/-- The footprint placed at pose i of 9 between two points (R345): positions and headings move by eighths. -/
def placed (verts : List FPoint) (a b : TPoint) (i : Nat) : List FPoint :=
  let f := fOfFrac i (-3)
  let mv (p q : Int) : Nat := fa (fOfInt p) (fm (fs (fOfInt q) (fOfInt p)) f)
  let px := mv a.x b.x
  let py := mv a.y b.y
  let d : Int := ((b.head + 0x18000 - a.head) % 0x10000 : Nat) - 0x8000
  let turn (n : Int) : Nat := (r32 0 (.fin (decide (n < 0)) n.natAbs (-16))).1
  let hd := fa (turn a.head) (fm (turn d) f)
  let c := fcost hd
  let sn := fsint hd
  verts.map fun v => ⟨fa px (fs (fm v.x c) (fm v.y sn)), fa py (fa (fm v.x sn) (fm v.y c))⟩

/-- A point lies inside the polygon or on an edge: side is at least 0 for every edge. -/
def inPoly (poly : List FPoint) (p : FPoint) : Bool :=
  (poly.zip (poly.drop 1 ++ poly.take 1)).all fun e => fle 0 (side e.1 e.2 p)

/-- The smallest and largest integers around a list of FP32 values. -/
def fRange (l : List Nat) : Int × Int :=
  l.foldl (fun (r : Int × Int) a => let k := fTruncInt a; (min r.1 (k - 1), max r.2 (k + 1)))
    (match l with | [] => (0, 0) | a :: _ => (fTruncInt a, fTruncInt a))

/-- FP32 centre of a cell along one axis: one rounding of ORIGIN + c RES + RES / 2. -/
def cellCentre (o : Int) (res : Nat) (c : Int) : Nat :=
  let n : Int := 2 * (o + c * res) + res
  (r32 0 (.fin (decide (n < 0)) n.natAbs (-1))).1

/-- Integers from a to b. -/
def intRange (a b : Int) : List Int := (List.range (b - a + 1).toNat).map fun k : Nat => a + (k : Int)

/-- The cells covered by one placed polygon, inside the grid or not: those whose centre is in it. Cells around its box,
with a margin for the rounding of centres, are tried. -/
def coveredCells (h : EpochHdr) (poly : List FPoint) : List (Int × Int) :=
  let (x0, x1) := fRange (poly.map FPoint.x)
  let (y0, y1) := fRange (poly.map FPoint.y)
  let lo (v o : Int) : Int := (v - o) / (h.res : Int) - 4
  let hi (v o : Int) : Int := (v - o) / (h.res : Int) + 4
  (intRange (lo y0 h.oy) (hi y1 h.oy)).flatMap fun y =>
    ((intRange (lo x0 h.ox) (hi x1 h.ox)).filter fun x =>
      inPoly poly ⟨cellCentre h.ox h.res x, cellCentre h.oy h.res y⟩).map fun x => (x, y)

/-! The voxel tree (R325, R326). -/

/-- A box to test: exact bounds in FP32 for X and Y, integers for Z. -/
structure TBox where
  xs : List Nat
  ys : List Nat
  z0 : Int
  z1 : Int
  deriving DecidableEq, Repr

/-- The FP32 value exceeds, or lies below, an integer. -/
def fGt (a : Nat) (n : Int) : Bool := (f32 a).cmp (.fin (decide (n < 0)) n.natAbs 0) == some .gt
def fLt (a : Nat) (n : Int) : Bool := (f32 a).cmp (.fin (decide (n < 0)) n.natAbs 0) == some .lt

/-- A cube overlaps the box with positive volume. -/
def TBox.meets (b : TBox) (x y z e : Int) : Bool :=
  b.xs.any (fun v => fGt v x) && b.xs.any (fun v => fLt v (x + e)) && b.ys.any (fun v => fGt v y) &&
    b.ys.any (fun v => fLt v (y + e)) && decide (b.z0 < z + e) && decide (z < b.z1)

/-- Reads the tree from a node at a level: whether a FULL octant meets the box, and the octants taken as FULL by R326. -/
def State.treeHit (s : State) (h : EpochHdr) (base : Nat) (b : TBox) : Nat → Nat → Nat → Int → Int → Int → Bool × Nat
  | 0, _, _, _, _, _ => (true, 1)
  | fuel + 1, level, node, x, y, z =>
    let edge : Int := (h.vox * 2 ^ (h.depth - level) : Nat)
    if !b.meets x y z edge then (false, 0)
    else if node ≥ h.treeNodes || level ≥ h.depth || s.poisoned (base + 8 * node) 8 then (true, 1)
    else
      let w := s.mnat (base + 8 * node) 8
      let child := w % 256
      let full := w / 256 % 256
      let half := edge / 2
      (List.range 8).foldl (fun (acc : Bool × Nat) i =>
        let cx := if bitOf i 0 then x + half else x
        let cy := if bitOf i 1 then y + half else y
        let cz := if bitOf i 2 then z + half else z
        if !b.meets cx cy cz half then acc
        else if bitOf child i && bitOf full i then (true, acc.2 + 1)
        else if bitOf full i then (true, acc.2)
        else if bitOf child i then
          let k := popCount i child
          let r := s.treeHit h base b fuel (level + 1) (w / 2 ^ 32 + k) cx cy cz
          (acc.1 || r.1, acc.2 + r.2)
        else acc) (false, 0)

/-- What a check found: whether everything passed, the covered regions, and the tree errors met. -/
structure Check where
  ok : Bool
  corridor : Nat
  errs : Nat
  deriving DecidableEq, Repr

/-- One placed polygon against layers (R345). -/
def State.checkPose (s : State) (h : EpochHdr) (buf : Nat) (layers : List Nat) (poly : List FPoint) (c : Check) : Check :=
  let g : Grid := ⟨s.gridW, s.gridH, s.gridL⟩
  let limit := s.fld (rWpe 0x20) 23 16
  let c := (coveredCells h poly).foldl (fun (c : Check) p =>
    if !g.has p.1 p.2 then { c with ok := false }
    else
      let x := p.1.toNat
      let y := p.2.toNat
      let bad := layers.any fun t => decide (s.occAt buf t x y ≥ limit)
      { c with ok := c.ok && !bad, corridor := c.corridor ||| 2 ^ s.regionOf x y }) c
  if h.kind = 1 then
    let veh := s.word (rWpe 0xA4)
    let box : TBox := ⟨poly.map FPoint.x, poly.map FPoint.y, h.groundZ + (bitsOf veh 15 0 : Nat), h.groundZ + (bitsOf veh 31 16 : Nat)⟩
    let r := s.treeHit h (s.epochBase buf + h.treeOfs) box 11 0 0 h.tx h.ty h.tz
    { c with ok := c.ok && !r.1, errs := c.errs + r.2 }
  else c

/-- The 9 poses of a segment. -/
def State.checkSegment (s : State) (h : EpochHdr) (buf : Nat) (layers : List Nat) (a b : TPoint) (c : Check) : Check :=
  (List.range 9).foldl (fun c i => s.checkPose h buf layers (placed s.footVerts a b i) c) c

/-- The segments of a plan: segment k against layer k + SHIFT (R345). -/
def State.checkPlan (s : State) (h : EpochHdr) (buf shift : Nat) (pts : List TPoint) : Check :=
  ((List.range (pts.length - 1)).zip (pts.zip (pts.drop 1))).foldl
    (fun c p => s.checkSegment h buf [min (p.1 + shift) (s.gridL - 1)] p.2.1 p.2.2 c) ⟨true, 0, 0⟩

/-- Layer of a time in ns, held inside the layers (R351; log 31). -/
def State.layerOf (s : State) (h : EpochHdr) (t : Nat) : Nat := min ((t - h.tLayer0) / (1000 * s.gridDt)) (s.gridL - 1)

/-- The layers that a span of time overlaps. -/
def State.layersOf (s : State) (h : EpochHdr) (t0 t1 : Nat) : List Nat :=
  let a := s.layerOf h t0
  let b := max a (s.layerOf h (t1 - 1))
  (List.range (b - a + 1)).map (a + ·)

/-- A heel candidate: segments against every layer their times overlap, the final pose from its time on (R351). -/
def State.checkHeel (s : State) (h : EpochHdr) (buf tRef : Nat) (pts : List TPoint) : Check :=
  let tm (p : TPoint) : Nat := tRef + 1000 * p.tOfs
  let c := (pts.zip (pts.drop 1)).foldl
    (fun c p => s.checkSegment h buf (s.layersOf h (tm p.1) (tm p.2)) p.1 p.2 c) ⟨true, 0, 0⟩
  match pts.getLast? with
  | none => { c with ok := false }
  | some p =>
    let a := s.layerOf h (tm p)
    s.checkPose h buf ((List.range (s.gridL - a)).map (a + ·)) (placed s.footVerts p p 0) c

end Sys2Proof.Machine
end

