-- ==== Sys2Proof/Machine/Wpe.lean ====
section
/-! DEFINITION. Meanings of the planning engine's commands (10_planning_engine.md R329 to R359). -/

namespace Sys2Proof.Machine

/-- A master of the instance named in bits hi to lo of WPE_OWNERS (R359). -/
def State.wpeOwner (s : State) (inst : Option (Fin 64)) (hi lo : Nat) : Bool := isInst inst (s.fld (rWpe 0x28) hi lo)

/-- WPE_STATUS shows the plan, the heel and the run (R359). -/
def State.wpeSync (s : State) : State :=
  let w := s.wpe
  let s := s.setBit rWpeStatus 0 w.run.isSome
  let s := s.setBit rWpeStatus 1 (match w.run with | some r => r.rerun | none => false)
  let s := s.setBit rWpeStatus 7 w.plan.isSome
  let s := s.setFld rWpeStatus 11 8 (match w.plan with | some p => min p.age 15 | none => 0)
  s.setFld rWpeStatus 15 12 (match w.heel with | some h => min h.age 14 | none => 15)

/-! Epochs (R331 to R334). -/

/-- A read of WPE_EPOCH_ACQ (R331). -/
def execEpochAcqRead (m : Master) (inst : Option (Fin 64)) (s : State) : Host.Outcome State Fault Refusal :=
  if !(sysReader m || s.wpeOwner inst 5 0) then .next (s.refuse m 1 (rWpe 0x4C))
  else
    match (List.range 3).find? fun b => decide (s.bufState b = 1) with
    | some b =>
      let v := b + 2 ^ 30 + 2 ^ 31
      .next ((s.setWord (rWpe 0x4C) v).respOk (leBytes 4 v))
    | none =>
      match (List.range 3).find? fun b => decide (s.bufState b = 0) with
      | some b =>
        let v := b + 2 ^ 31
        .next (((s.setBuf b 1).setWord (rWpe 0x4C) v).respOk (leBytes 4 v))
      | none =>
        let s := (s.bumpSat (rWpe 0x5C) 15 0).orWord rWpeIrq 0x40
        .next ((s.setWord (rWpe 0x4C) 0).respOk (leBytes 4 0))

/-- Regions added to every change accumulator (R333). -/
def State.addChanges (s : State) (c : BitVec 4096) : State :=
  { s with wpe := { s.wpe with chgPlan := s.wpe.chgPlan ||| c, chgHeel := s.wpe.chgHeel ||| c,
                               chgPf := s.wpe.chgPf ||| c, chgHf := s.wpe.chgHf ||| c } }

/-- The plan in force is withdrawn when its corridor meets CHG_PF (R348). -/
def State.judgePlan (s : State) : State :=
  match s.wpe.plan with
  | some p => if p.corridor &&& s.wpe.chgPf = 0 then s else { s with wpe.plan := none }
  | none => s

/-- A publish that meets the engaged heel's corridor replaces it by a hard heel and sends an extra frame (R354). -/
def State.judgeEngaged (s : State) (c : BitVec 4096) : State :=
  match s.wpe.engaged with
  | some e =>
    if e.corridor &&& c = 0 then s
    else
      let (h, s) := s.hardHeel
      { s with wpe.engaged := some h }.wpeExtra h
  | none => s

/-- An accepted publish of buffer b (R332). -/
def State.publish (s : State) (b : Nat) : State :=
  let last := s.word (rWpe 0x58)
  let num := if last = 0xFFFFFFFF then 1 else last + 1
  let hd := s.epochHdr b
  let chg := s.changedRegions b
  let s := s.store (s.epochBase b) (leBytes 4 num)
  let s := (s.setWord (rWpe 0x58) num).addChanges chg
  let s := { s with wpe := { s.wpe with bufNum := setAt s.wpe.bufNum b num, prevGeom := some (hd.ox, hd.oy, hd.res) } }
  let s := ((s.setBuf b 2).setFld (rWpe 0x54) 13 12 b).settle
  (s.judgePlan.judgeEngaged chg).wpeSync

/-- A write of WPE_EPOCH_PUB without ABANDON (R332, R334). -/
def execEpochPublish (m : Master) (inst : Option (Fin 64)) (buf : Fin 4) (s : State) : Host.Outcome State Fault Refusal :=
  let b := buf.val
  if !(s.sysWriter m || s.wpeOwner inst 5 0) then .next (s.refuse m 2 (rWpe 0x50))
  else if b = 3 || s.bufState b ≠ 1 then .next ((s.pubErr m).respOk [])
  else if s.rangeOk (mWpe 0) false (s.epochBase b) 0x300 && !s.poisoned (s.epochBase b) 0x300 &&
      s.hdrOk (s.bytes (s.epochBase b) 256) then
    .next ((s.publish b).respOk [])
  else .next (((s.setBuf b 0).pubErr m).respOk [])

/-- A write of WPE_EPOCH_PUB with ABANDON (R332): a buffer that is not WRITING is left as it is. -/
def execEpochAbandon (m : Master) (inst : Option (Fin 64)) (buf : Fin 4) (s : State) : Host.Outcome State Fault Refusal :=
  let b := buf.val
  if !(s.sysWriter m || s.wpeOwner inst 5 0) then .next (s.refuse m 2 (rWpe 0x50))
  else .next ((if b < 3 && s.bufState b = 1 then s.setBuf b 0 else s).respOk [])

/-! Runs (R336, R337). -/

/-- A run ends with a result (R337): an ERROR records class D. -/
def State.endRun (s : State) (r : PlanRun) (code : Nat) : State :=
  let s := { s with wpe := { s.wpe with run := none, results := (r.tRef, code, r.rerun) :: s.wpe.results } }
  (if code = 8 then (s.orWord rWpeIrq 0x80).fault 0x1D 3 (mWpe 0) 0 8 else s).wpeSync

/-- The vehicle state is latched (R336). -/
def State.latchVs (s : State) : State := { s with wpe.latched := if s.wpe.vs.isSome then s.wpe.vs else s.wpe.latched }

/-- A run starts for the cycle with target tRef: state latched, newest epoch pinned; codes 2 to 5 end it at once (R336,
R337). -/
def State.startRun (s : State) (tRef : Nat) (rerun : Bool) : State :=
  let s := s.latchVs.pinPlan
  let s := if rerun then s.bump (rWpeCnt 3) else s
  let b := s.newest
  let dead (s : State) (code : Nat) : State :=
    { s with wpe := { s.wpe with run := none, results := (tRef, code, rerun) :: s.wpe.results } }.wpeSync
  if b = 3 then dead s 2
  else
    let h := s.epochHdr b
    if s.layerShift tRef h.tLayer0 > s.fld (rWpe 0x20) 29 28 then dead s 3
    else
      match s.wpe.vs with
      | none => dead s 4
      | some v =>
        if (tRef : Int) - v.t > 1000 * s.fld (rWpe 0x98) 15 0 then dead s 4
        else
          let q := startState h v
          if !(Grid.has ⟨s.gridW, s.gridH, s.gridL⟩ q.x q.y) then dead s 5
          else { s with wpe.run := some ⟨tRef, rerun, b, s.wpe.bufNum.getD b 0, v, false⟩ }.wpeSync

/-- The mask of the SHD fields of a register of WPE. -/
def shdMask (a : Nat) : Nat :=
  match findReg (blockRegs bWPE) (a - blkBase bWPE) with
  | some (d, _, _, b) => accMask .shd d.flds >>> (8 * (b / 4 * 4))
  | none => 0

/-- Pending SHD values take effect (R12, R336). -/
def State.applyShadow (s : State) : State :=
  let s := s.wpe.shadow.foldl (fun s p =>
    let k := shdMask p.1 % 2 ^ 32
    s.setWord p.1 ((s.word p.1 &&& (k ^^^ 0xFFFFFFFF)) ||| (p.2 &&& k))) s
  { s with wpe.shadow := [] }

/-- A pending goal swap takes effect (R336, R359). -/
def State.applySwap (s : State) : State :=
  if s.bit (rWpe 0x70) 0 then (s.setBit (rWpe 0x70) 1 (!s.bit (rWpe 0x70) 1)).setBit (rWpe 0x70) 0 false else s

/-- A run or a result belongs to the cycle with target t. -/
def State.cycleTaken (s : State) (t : Nat) : Bool :=
  (match s.wpe.run with | some r => decide (r.tRef = t) | none => false) || s.wpe.results.any fun r => decide (r.1 = t)

/-- The cycle tack has fired or missed (R336; R337 NO_CYCLE). -/
def execCycleStart (s : State) : Host.Outcome State Fault Refusal :=
  match s.wpe.cycleSig with
  | none => .next s
  | some (t0, missed) =>
    let s := { s with wpe.cycleSig := none }
    if !s.bit (rWpe 0) 0 then .next s
    else
      let dt := s.word64 (rTack s.deadlineTack 0)
      let s := { s with wpe := { s.wpe with t0 := t0, dTarget := dt, cycled := true, fixed := false, opened := !missed } }
      if missed then .next s
      else
        let s := (s.bump (rWpeCnt 0)).applyShadow.applySwap
        let cands := s.wpe.nextCands
        let s := { s with wpe := { s.wpe with cands := cands.map fun a => HeelCand.mk a false false none, nextCands := [] } }
        let s := s.setWord (rWpe 0x208) (0xF0000 + (2 ^ cands.length - 1))
        let s := s.pinHeel
        .next (if s.cycleTaken t0 then s else s.startRun t0 false).wpeSync

/-- The backward expansion ends (R341, R342). err: 1 a corrected and 2 an uncorrectable error of the value store (R358). -/
def execWavefrontExpansionDone (err : Fin 3) (s : State) : Host.Outcome State Fault Refusal :=
  match s.wpe.run with
  | none => .next s
  | some r =>
    if r.expanded then .next s
    else
      let s := if err.val = 1 then s.fault 0x1D 2 (mWpe 0) 0 0 else s
      let g : Grid := ⟨s.gridW, s.gridH, s.gridL⟩
      let n := g.w * g.h
      let goal := s.word64 (rWpe (0x60 + (if s.bit (rWpe 0x70) 1 then 8 else 0)))
      let area := s.word64 (rWpe 0x78)
      if err.val = 2 || !s.rangeOk (mWpe 0) false (s.epochBase r.buf) (0x1000 + n * g.l) ||
          !s.rangeOk (mWpe 0) false goal (2 * n) || !s.rangeOk (mWpe 0) true area (4 * n * g.l) then .next (s.endRun r 8)
      else
        let h := s.epochHdr r.buf
        let shift := s.layerShift r.tRef h.tLayer0
        let (s, v1) := s.expandLayers g s.prims r.buf shift area g.l (s.terminal g goal)
        .next ({ s with wpe := { s.wpe with run := some { r with expanded := true }, values := v1 } }.wpeSync)

/-- A candidate among ranked ones: by cost, then by primitive (R343). -/
def rankInsert (c : Nat × Nat) : List (Nat × Nat) → List (Nat × Nat)
  | [] => [c]
  | d :: r => if c.2 < d.2 ∨ (c.2 = d.2 ∧ c.1 < d.1) then c :: d :: r else d :: rankInsert c r

/-- The candidates of a run: primitive and cost, best first (R343). -/
def State.rankCandidates (s : State) (g : Grid) (pr : Array Prim) (r : PlanRun) (q : LState) (shift : Nat) :
    List (Nat × Nat) :=
  let occ := s.occLayer g r.buf shift 0
  let cs := (List.range 8).filterMap fun p =>
    match pr[q.h * 8 + p]? with
    | none => none
    | some x => (primCost g occ s.wpe.values (s.fld (rWpe 0x1C) 15 0) (s.fld (rWpe 0x1C) 31 16) q x).map fun c => (p, c)
  (cs.foldl (fun acc c => rankInsert c acc) []).take (s.fld (rWpe 0x20) 26 24 + 1)

/-- Rolls out and checks the candidates in order; the first whose segments all pass is the plan. Tree errors of every
check made are added up (R343 to R346). -/
def State.choosePlan (s : State) (g : Grid) (pr : Array Prim) (r : PlanRun) (h : EpochHdr) (q : LState) (shift : Nat) :
    List (Nat × Nat) → Option (List TPoint × Nat × Nat) × Nat
  | [] => (none, 0)
  | (p, cost) :: rest =>
    match pr[q.h * 8 + p]? with
    | none => s.choosePlan g pr r h q shift rest
    | some x =>
      match s.follow g pr (g.l - 1) 1 (q.step x) with
      | none => s.choosePlan g pr r h q shift rest
      | some legs =>
        let legs := (q, x) :: legs
        let last := match legs.getLast? with | some (a, b) => a.step b | none => q
        let pts := rolloutPoints h r.vs s.gridDt legs last
        let c := s.checkPlan h r.buf shift pts
        if c.ok then (some (pts, c.corridor, cost), c.errs)
        else
          let (res, e) := s.choosePlan g pr r h q shift rest
          (res, e + c.errs)

/-- Tree octants read as FULL are counted and raised (R326). -/
def State.treeErrs (s : State) (n : Nat) : State := if n = 0 then s else (s.bumpBy (rWpeCnt 11) n).orWord rWpeIrq 0x100

/-- The checks of the candidates end and the plan is chosen; a STALE plan starts a rerun at once (R346, R347). -/
def execPlanChosen (s : State) : Host.Outcome State Fault Refusal :=
  match s.wpe.run with
  | none => .next s
  | some r =>
    if !r.expanded then .next s
    else
      let g : Grid := ⟨s.gridW, s.gridH, s.gridL⟩
      let h := s.epochHdr r.buf
      let shift := s.layerShift r.tRef h.tLayer0
      let q := startState h r.vs
      let pr := s.prims
      let (res, errs) := s.choosePlan g pr r h q shift (s.rankCandidates g pr r q shift)
      let s := s.treeErrs errs
      match res with
      | none => .next (s.endRun r 6)
      | some (pts, corr, cost) =>
        let corridor := BitVec.ofNat 4096 corr
        if corridor &&& s.wpe.chgPlan = 0 then
          let t : Traj := ⟨r.tRef, pts, corridor, cost, r.epoch, 0, false, r.rerun⟩
          let s := { s with wpe := { s.wpe with plan := some t, fresh := some t, chgPf := s.wpe.chgPlan } }
          .next (s.endRun r 0)
        else
          let s := ((s.endRun r 1).bump (rWpeCnt 2)).orWord rWpeIrq 1
          .next (s.startRun (r.tRef + 500000) true)

/-! The heel (R350 to R353). -/

/-- WPE_HEEL_STATUS. -/
def rHeelSt : Nat := rWpe 0x208

/-- A write of WPE_HEEL_SUBMIT (R350): for the current cycle until its outcome is fixed, for the next one afterwards. -/
def execHeelSubmit (m : Master) (addr : BitVec 64) (s : State) : Host.Outcome State Fault Refusal :=
  if !s.isIsland m then .next (s.refuse m 2 (rWpe 0x200))
  else
    let a := bitsOf addr.toNat 51 6 * 64
    if s.wpe.opened && !s.wpe.fixed then
      let n := s.wpe.cands.length
      if n ≥ 4 then .next ((s.setBit rHeelSt 22 true).respOk [])
      else
        let s := { s with wpe.cands := s.wpe.cands ++ [HeelCand.mk a false false none] }
        .next ((s.setBit rHeelSt n true).respOk [])
    else if s.wpe.nextCands.length ≥ 4 then .next ((s.setBit rHeelSt 22 true).respOk [])
    else .next ({ s with wpe.nextCands := s.wpe.nextCands ++ [a] }.respOk [])

/-- A heel candidate read from memory: its reference time and points, or REASON 1 or 2 (R350, R351). -/
def State.readHeel (s : State) (a : Nat) : Except Nat (Nat × List TPoint) :=
  if !s.rangeOk (mWpe 16) false a 16 || s.poisoned a 16 then .error 1
  else
    let n := s.mnat (a + 8) 1
    if n < 2 || n > 17 || s.mnat (a + 9) 7 ≠ 0 then .error 1
    else if !s.rangeOk (mWpe 16) false a (16 + 20 * n) || s.poisoned a (16 + 20 * n) then .error 1
    else
      let pts := (List.range n).map fun k => TPoint.ofBytes (s.bytes (a + 16 + 20 * k) 20)
      if !((pts.zip (pts.drop 1)).all fun p => decide (p.1.tOfs < p.2.tOfs)) then .error 1
      else if (match pts.getLast? with | some p => decide (p.speed = 0) | none => false) then .ok (s.mnat a 8, pts)
      else .error 2

/-- At least 30 microseconds remain before the heel outcome is fixed (R351). -/
def State.heelTimeLeft (s : State) : Bool := decide (s.ptpNs s.cycleClock + 30000 + 10000 ≤ s.wpe.dTarget)

/-- A candidate is stale: counted and raised (R351). -/
def State.heelStale (s : State) : State := (s.bump (rWpeCnt 8)).orWord rWpeIrq 0x10

/-- Checker 15 finishes checking the next candidate (R351). A checker fault fails it with REASON 1 and class D (R358). -/
def execHeelCheckDone (fault : Bool) (s : State) : Host.Outcome State Fault Refusal :=
  let cs := s.wpe.cands
  let b := s.fld rWpeStatus 5 4
  if s.wpe.fixed || !s.wpe.opened || b = 3 || (cs.any fun c => c.traj.isSome) then .next s
  else
    match (List.range cs.length).find? fun i => match cs[i]? with | some c => !c.checked | none => false with
    | none => .next s
    | some i =>
      let a := match cs[i]? with | some c => c.addr | none => 0
      let failed (s : State) (reason : Nat) : State :=
        let s := { s with wpe.cands := setAt cs i (HeelCand.mk a true false none) }
        (s.setBit rHeelSt (8 + i) true).setFld rHeelSt 31 28 reason
      if fault then .next ((failed s 1).fault 0x1D 3 (mWpe 16) 15 0)
      else
        match s.readHeel a with
        | .error r => .next (failed s r)
        | .ok (tRef, pts) =>
          let h := s.epochHdr b
          let c := s.checkHeel h b tRef pts
          let s := s.treeErrs c.errs
          if !c.ok then .next (failed s 3)
          else
            let corridor := BitVec.ofNat 4096 c.corridor
            let t : Traj := ⟨tRef, pts, corridor, 0, s.wpe.bufNum.getD b 0, 0, false, false⟩
            if corridor &&& s.wpe.chgHeel = 0 then
              let s := { s with wpe.cands := setAt cs i (HeelCand.mk a true false (some t)) }
              .next (s.setBit rHeelSt (4 + i) true)
            else if s.heelTimeLeft then .next (s.heelStale.pinHeel)
            else
              let s := { s with wpe.cands := setAt cs i (HeelCand.mk a true true (some t)) }
              .next ((s.heelStale.setBit rHeelSt (4 + i) true).setBit rHeelSt 21 true)

/-- The heel in force is valid (R352). -/
def State.heelOk (s : State) : Bool := match s.wpe.heel with | some h => s.heelValid h | none => false

/-- No new heel: the hard heel is selected when the heel in force is invalid (R352). -/
def State.heelFallback (s : State) : State :=
  if s.heelOk then s
  else
    let s := ((s.bump (rWpeCnt 9)).orWord rWpeIrq 8).setBit rHeelSt 20 true
    s.fault 0x1D 4 (mWpe 0) 0 0

/-- At D - 10 microseconds the heel outcome is fixed (R351, R352). -/
def execHeelOutcome (s : State) : Host.Outcome State Fault Refusal :=
  if !s.wpe.cycled || s.wpe.fixed then .next s
  else
    let s := { s with wpe.fixed := true }
    if !s.wpe.opened then .next s.heelFallback.wpeSync
    else
      let cs := s.wpe.cands
      let un := (List.range cs.length).foldl (fun v i =>
        match cs[i]? with | some c => if c.checked then v else v + 2 ^ i | none => v) 0
      let s := s.setFld rHeelSt 15 12 un
      match (List.range cs.length).find? fun i => match cs[i]? with | some c => c.traj.isSome | none => false with
      | none => .next s.heelFallback.wpeSync
      | some i =>
        match (match cs[i]? with | some c => (c.traj, c.stale) | none => (none, true)) with
        | (none, _) => .next s.heelFallback.wpeSync
        | (some t, stale) =>
          if stale then .next s.heelFallback.wpeSync
          else if t.corridor &&& s.wpe.chgHeel = 0 then
            let s := { s with wpe := { s.wpe with heel := some t, chgHf := s.wpe.chgHeel } }
            .next (((s.bump (rWpeCnt 7)).setFld rHeelSt 19 16 i).moveHeelPin 3).wpeSync
          else .next (s.heelStale.setBit rHeelSt 21 true).heelFallback.wpeSync

/-! The deadline tack (R348, R349, R356). -/

/-- The result of the current cycle at its deadline tack, and whether its run was a rerun (R337). -/
def State.judgeRun (s : State) : Nat × Bool × State :=
  let t0 := s.wpe.t0
  let late := match s.wpe.run with | some r => decide (r.tRef = t0) | none => false
  let s := match s.wpe.run with | some r => if r.tRef = t0 then s.endRun r 7 else s | none => s
  match s.wpe.results.find? fun r => decide (r.1 = t0) with
  | some (_, code, rr) =>
    (if late then 7 else code, rr, { s with wpe.results := s.wpe.results.filter fun r => decide (t0 < r.1) })
  | none => (9, false, s)

/-- The ages of plan and heel rise after the frame (R348, R352). -/
def State.ageAll (s : State) : State :=
  { s with wpe := { s.wpe with plan := s.wpe.plan.map (fun p => { p with age := p.age + 1 }),
                               heel := s.wpe.heel.map (fun h => { h with age := h.age + 1 }) } }

/-- The heel a frame carries while none is engaged: the heel in force when valid, else the hard heel (R356). -/
def State.carriedHeel (s : State) : Traj × State :=
  match s.wpe.heel with
  | some h => if s.heelValid h then (h, s) else s.hardHeel
  | none => s.hardHeel

/-- The deadline tack has fired: command, frame and ages (R349). -/
def execDeadlineTack (s : State) : Host.Outcome State Fault Refusal :=
  match s.wpe.deadlineSig with
  | none => .next s
  | some _ =>
    let s := { s with wpe.deadlineSig := none }
    if !s.bit (rWpe 0) 0 then .next s
    else
      let (code, rr, s) := s.judgeRun
      let s := { s with wpe.lastRerun := rr }.setFld rWpeStatus 23 16 code
      let fresh := decide (code = 0)
      let s := if fresh then s else (s.bump (rWpeCnt 4)).orWord rWpeIrq 2
      let carried := if fresh then s.wpe.fresh else s.wpe.plan
      let held := match s.wpe.plan with | some p => decide (p.age ≤ s.fld (rWpe 0x24) 3 0) | none => false
      let s :=
        match s.wpe.engaged with
        | some e =>
          let s := (s.bump (rWpeCnt 6)).setFld rWpeStatus 31 24 0
          s.wpeFrame (if e.hard then 3 else 2) (frameFlags true rr false) code carried e
        | none =>
          let (h, s) := s.carriedHeel
          if fresh then
            ((s.bump (rWpeCnt 1)).setFld rWpeStatus 31 24 0).wpeFrame 0 (frameFlags false rr false) code carried h
          else if held then
            ((s.bump (rWpeCnt 5)).setFld rWpeStatus 31 24 0).wpeFrame 1 (frameFlags false rr false) code carried h
          else
            let s := ((s.bump (rWpeCnt 6)).orWord rWpeIrq 4).bumpSat rWpeStatus 31 24
            let n := s.fld (rWpe 0x24) 23 16
            let s := if n ≠ 0 && s.fld rWpeStatus 31 24 = n then s.fault 0x1D 3 (mWpe 0) 0 0 else s
            s.wpeFrame 2 (frameFlags false rr false) code carried h
      .next s.ageAll.wpeSync

/-! Vehicle state and goal (R359). -/

/-- The write of the upper half of WPE_VS_T commits the vehicle state as one set (R359). -/
def execVehicleStateCommit (m : Master) (inst : Option (Fin 64)) (t : BitVec 64) (s : State) :
    Host.Outcome State Fault Refusal :=
  if !(s.sysWriter m || s.wpeOwner inst 21 16) then .next (s.refuse m 2 (rWpe 0x90))
  else
    let s := s.setWord64 (rWpe 0x90) t.toNat
    let v : VState := ⟨toSigned 32 (s.word (rWpe 0x80)), toSigned 32 (s.word (rWpe 0x84)), s.fld (rWpe 0x88) 15 0,
      s.fld (rWpe 0x8C) 15 0, t.toNat⟩
    .next ({ s with wpe.vs := some v }.respOk [])

/-- WPE_GOAL_CTRL.SWAP (R359): the other goal buffer from the next cycle start. -/
def execGoalSwap (m : Master) (inst : Option (Fin 64)) (s : State) : Host.Outcome State Fault Refusal :=
  if !(s.sysWriter m || s.wpeOwner inst 13 8) then .next (s.refuse m 2 (rWpe 0x70))
  else .next ((s.setBit (rWpe 0x70) 0 true).respOk [])

end Sys2Proof.Machine
end

