-- ==== Sys2Proof/Machine/Inst.lean ====
section
/-! DEFINITION. Instance reset and partner ports (14_hosts_and_tenants.md R444, R445, R452 to R459, R469 to R471, R475). -/

namespace Sys2Proof.Machine

def State.setInstState (s : State) (i v : Nat) : State := s.setFld (rInst i 0) 17 16 v
def State.instErr (s : State) (i : Nat) : State := s.setBit (rInst i 8) 8 true

/-! The reset sequence (R470, R471). -/

/-- Steps 1 to 7 for instance i; the sequence then waits for its drain. -/
def State.instSequence (s : State) (i : Nat) (remove : Bool) : State :=
  match s.atu.seqs.find? fun p => p.1 = i with
  | some (_, was) =>
    if remove && !was then
      let seqs := s.atu.seqs.map fun (p : Nat × Bool) => if p.1 = i then (i, true) else p
      { s.setInstState i 3 with atu.seqs := seqs }.queuesEmpty i true
    else s
  | none =>
    let s := (s.setInstState i (if remove then 3 else 2)).setFld (rInst i 4) 15 0 (s.instGen i + 1)
    let s := { s with atu.seqs := s.atu.seqs ++ [(i, remove)] }.mbxAbandon i
    let s := ((s.queuesGen i).disarmOwned i).returnSlots i
    let s := if s.wpeOwner (asInst i) 5 0 then
        [0, 1, 2].foldl (fun s b => if s.bufState b = 1 then s.setBuf b 0 else s) s
      else s
    let s := ((s.feInstReset i).clickerInstAbort i).queuesEmpty i remove
    { s with
      atu.tlb := s.atu.tlb.filter fun e => decide (e.inst ≠ i)
      pci.msix := if s.instKind i = 3 then fmDel s.pci.msix i else s.pci.msix }

/-- Work of the older generation remains: running tasks of the instance, or requests on a partner link (R470 step 8). -/
def State.instBusy (s : State) (i : Nat) : Bool :=
  ((List.range 64).any fun k => s.clickClass k ≠ 0 && s.clickInst k = i && !(s.jobsOn k).isEmpty) ||
    s.pci.out.any fun q => q.inst = some i && decide (q.gen ≠ s.instGen i)

/-- ADD (R445): an ABSENT instance of a kind becomes READY under a new generation; one in a sequence waits for its end. -/
def State.instAdd (s : State) (i : Nat) : State :=
  if s.instKind i = 0 then s.instErr i
  else
    match s.instState i with
    | 0 => (s.setInstState i 1).setFld (rInst i 4) 15 0 (s.instGen i + 1)
    | 1 => s
    | _ => { s with atu.adds := insertNat i s.atu.adds }

/-- Step 9. -/
def State.instDrained (s : State) (i : Nat) : State :=
  match s.atu.seqs.find? fun p => p.1 = i with
  | none => s
  | some (_, remove) =>
    if s.instBusy i then s
    else
      let s := { s with atu.seqs := s.atu.seqs.filter fun p => p.1 ≠ i }
      let s := (s.setInstState i (if remove then 0 else 1)).orWord (rAtu 4) 4
      let fl := s.pci.flr.filter fun p => p.2 = i
      let s := { s with pci.flr := s.pci.flr.filter fun p => p.2 ≠ i }
      let s := fl.foldl (fun s p =>
        if s.pci.flr.any fun q => q.1 = p.1 then s else s.setBit (rPciPort p.1 4) 23 false) s
      if s.atu.adds.contains i then { s with atu.adds := s.atu.adds.filter fun k => k ≠ i }.instAdd i else s

def execResetDrainDone (inst : Fin 64) (s : State) : Host.Outcome State Fault Refusal := .next (s.instDrained inst)

/-- RESET or REMOVE of an instance: an ABSENT one takes none. -/
def State.instReset (s : State) (i : Nat) (remove : Bool) : State :=
  if s.instState i = 0 then s.instErr i else s.instSequence i remove

def execInstanceReset (m : Master) (inst : Fin 64) (s : State) : Host.Outcome State Fault Refusal :=
  .next (if s.sysWriter m then (s.instReset inst false).respOk [] else s.refuse m 2 (rInst inst 8))

def execInstanceRemove (m : Master) (inst : Fin 64) (s : State) : Host.Outcome State Fault Refusal :=
  .next (if s.sysWriter m then (s.instReset inst true).respOk [] else s.refuse m 2 (rInst inst 8))

def execInstanceAdd (m : Master) (inst : Fin 64) (s : State) : Host.Outcome State Fault Refusal :=
  .next (if s.sysWriter m then (s.instAdd inst).respOk [] else s.refuse m 2 (rInst inst 8))

/-! Partner ports. -/

def rPciIrq : Nat := rPci 0
def State.portIrq (s : State) (n k : Nat) : State := s.orWord rPciIrq (2 ^ (8 * n + k))

/-- Instances that are virtual functions of port n. -/
def State.portVfs (s : State) (n : Nat) : List Nat :=
  (List.range 64).filter fun i => decide (s.instKind i = 3) && decide (s.instPort i = n)

/-- The link of an enabled port is up (R452): generation, width and FLIT mode are what it trained to, within its limits. The
LTSSM code is open. -/
def State.linkUp (s : State) (n gen width : Nat) (flit : Bool) : State :=
  if !s.bit (rPciPort n 0) 0 || s.bit (rPciPort n 4) 0 then s
  else
    let (l, s) := s.takeFree
    let g := min gen (s.fld (rPciPort n 0) 4 2)
    let w := min width (s.fld (rPciPort n 0) 6 5)
    let s := s.setFld (rPciPort n 4) 6 0 (1 + g * 2 + w * 16 + b2n (flit || g = 6) * 64)
    (s.setFld (rPciPort n 4) 14 8 l).portIrq n 0

def execPcieLinkUp (port : Fin 4) (gen : Fin 8) (width : Fin 4) (flit : Bool) (s : State) : Host.Outcome State Fault Refusal :=
  .next (s.linkUp port gen width flit)

/-- A completion owed to a link partner leaves (R459): Unsupported Request (1) and Completer Abort (2) are counted. -/
def State.sendCpl (s : State) (n tag status : Nat) (ep : Bool) (data : List Byte) : State :=
  let s := if status = 0 then s else s.bump (rPciPort n 0x18)
  s.emit (.pcieCpl n tag status ep data)

/-- The inbound request that an access served, if one waits, is answered with the access's response (R459). -/
def State.sendBack (s : State) (back : Option (Nat × Nat)) : State :=
  match back with
  | none => s
  | some (n, tag) => if s.resp.err then s.sendCpl n tag 2 false [] else s.sendCpl n tag 0 s.resp.poison s.resp.data

/-- Link down or Hot Reset (R458, R511): the port's incarnation is raised, its virtual functions are reset, and requests that
wait for its partner end with an error response. -/
def State.linkDown (s : State) (n : Nat) : State :=
  if !s.bit (rPciPort n 4) 0 then s
  else
    let (l, s) := s.takeFree
    let s := ((s.setFld (rPciPort n 4) 6 0 0).setFld (rPciPort n 4) 14 8 l).portIrq n 1
    let s := s.setFld (rPciPort n 0xC) 7 0 (s.fld (rPciPort n 0xC) 7 0 + 1)
    let lost := s.pci.out.filter fun q => decide (q.port = n)
    let s := { s with pci.out := s.pci.out.filter fun q => decide (q.port ≠ n) }
    let s := lost.foldl (fun s q => s.respErr.sendBack q.back) s
    let s := s.setBit (rPciPort n 0x20) 31 false
    (s.portVfs n).foldl (fun s i => if s.instState i = 0 then s else s.instSequence i false) s

def execPcieLinkDown (port : Fin 4) (s : State) : Host.Outcome State Fault Refusal := .next (s.linkDown port)

/-- An FLR of a virtual function (R458). -/
def State.flrOf (s : State) (n vf : Nat) : State :=
  match (s.portVfs n).find? fun i => s.instVf i = vf with
  | none => s
  | some i =>
    if s.instState i = 0 then s
    else
      let s := (s.setBit (rPciPort n 4) 23 true).portIrq n 2
      { s with pci.flr := s.pci.flr ++ [(n, i)] }.instSequence i false

def execPcieFlr (port : Fin 4) (vf : Fin 64) (s : State) : Host.Outcome State Fault Refusal := .next (s.flrOf port vf)

/-- SR-IOV control changes (R458): functions below NumVFs while VF Enable is set are present. -/
def State.vfChange (s : State) (n : Nat) (en : Bool) (num : Nat) : State :=
  let k := if en then num else 0
  let s := s.setFld (rPciPort n 4) 22 16 k
  (s.portVfs n).foldl (fun s i =>
    if s.instVf i < k then (if s.instState i = 1 then s else s.instAdd i)
    else if s.instState i = 0 then s else s.instSequence i true) s

def execVfEnableChange (port : Fin 4) (enable : Bool) (num : Fin 65) (s : State) : Host.Outcome State Fault Refusal :=
  .next (s.vfChange port enable num)

/-- The function whose requester ID an outbound request carries (R456): 0 for PF0 or the root port, VF + 1. -/
def State.reqFn (s : State) (inst : Option (Fin 64)) (n : Nat) : Nat :=
  match inst with
  | some i => if s.instKind i = 3 && s.instPort i = n then s.instVf i + 1 else 0
  | none => 0

/-- Poisoned TLPs received ([15:0]) or sent ([31:16]). -/
def State.epCount (s : State) (n : Nat) (sent : Bool) : State :=
  if sent then s.bumpSat (rPciPort n 0x1C) 31 16 else s.bumpSat (rPciPort n 0x1C) 15 0

/-- A request leaves for the link partner; a read waits for its completion under a fresh tag. -/
def State.outbound (s : State) (m : Master) (inst : Option (Fin 64)) (n : Nat) (write : Bool) (addr len : Nat) (data : List Byte)
    (bad : Bool) : State :=
  let fn := s.reqFn inst n
  let tag := s.pci.tags.getD n 0
  let s := if write && bad then s.epCount n true else s
  let s := s.emit (.pcie n fn (write && bad) (if write then 0 else tag) write addr len data)
  if write then s.respOk []
  else
    { s with
      pci.tags := setAt s.pci.tags n ((tag + 1) % 1024)
      pci.out := s.pci.out ++ [PciReq.mk n tag (inst.map fun i => i.val) (s.genOf inst) m.toNat len false s.now none] }

/-- An access to a partner-port window (R30, R31, R456). -/
def execPcieOutboundRequest (m : Master) (inst : Option (Fin 64)) (port : Fin 4) (write : Bool) (addr : BitVec 40) (len : Fin 4097)
    (data : List Byte) (poison : Bool) (s : State) : Host.Outcome State Fault Refusal :=
  let a := portBase * (port.val + 1) + addr.toNat
  .next (match s.xlat inst m (if write then 2 else 1) a with
    | (s, none) => s.respErr
    | (s, some pa) =>
      match s.addrKind pa with
      | .port n =>
        if s.portUp n then s.outbound m inst n write (portOffset pa) (if write then data.length else len) (if write then data else []) poison
        else s.refuse m (if write then 2 else 1) pa
      | _ => s.respErr)

/-- A read ends without a completion within CTO (R453, R475). -/
def State.cplTimeout (s : State) (n tag : Nat) : State :=
  match s.pci.out.find? fun q => q.port = n && q.tag = tag with
  | none => s
  | some q =>
    let cto := min 50 (2 ^ s.fld (rPciPort n 0) 27 24)
    let s := { s.timeTo (q.at_ + 4000000 * cto) with pci.out := s.pci.out.erase q }
    if q.cfg then ((s.setBit (rPciPort n 0x20) 31 false).setWord (rPciPort n 0x24) 0xFFFFFFFF).portIrq n 3
    else (s.respErr.sendBack q.back).portIrq n 3

def execPcieCompletionTimeout (port : Fin 4) (tag : BitVec 14) (s : State) : Host.Outcome State Fault Refusal :=
  .next (s.cplTimeout port tag.toNat)

/-- A completion from the link partner (R456, R469): one of an older generation is dropped and counted; an error or data
reaches the master, poisoned data poisoned. -/
def State.inboundCpl (s : State) (n tag : Nat) (err ep : Bool) (data : List Byte) : State :=
  match s.pci.out.find? fun q => q.port = n && q.tag = tag with
  | none => s
  | some q =>
    let s := { s with pci.out := s.pci.out.erase q }
    let s := if ep then s.epCount n false else s
    if q.cfg then
      let s := s.setBit (rPciPort n 0x20) 31 false
      if err then s.setWord (rPciPort n 0x24) 0xFFFFFFFF
      else if data.isEmpty then s else s.setWord (rPciPort n 0x24) (leAt data 0 4)
    else
      let stale := match q.inst with | some i => decide (s.instGen i ≠ q.gen) | none => false
      if stale then s.bump (rPciPort n 0x10)
      else (if err then s.respErr else { s with resp := ⟨false, ep, sliceBytes data 0 q.len⟩ } : State).sendBack q.back

def execPcieInboundCompletion (port : Fin 4) (tag : BitVec 14) (err ep : Bool) (data : List Byte) (s : State) :
    Host.Outcome State Fault Refusal :=
  .next (s.inboundCpl port tag.toNat err ep data)

/-- GO in PCI_CFG_ADDR (R455): a root port whose link is up sends the configuration request, a write with PCI_CFG_DATA or a
read; without a link it ends at once as after an Unsupported Request. -/
def State.cfgGo (s : State) (m : Master) (n v : Nat) (write : Bool) : State :=
  let s := s.setWord (rPciPort n 0x20) (v % 2 ^ 29)
  if !bitOf v 31 || !s.bit (rPciPort n 0) 1 then s
  else if !s.portUp n then s.setWord (rPciPort n 0x24) 0xFFFFFFFF
  else
    let tag := s.pci.tags.getD n 0
    let s := (s.setBit (rPciPort n 0x20) 31 true).emit
      (.pcie n 0 false tag write (v % 2 ^ 29) 4 (if write then s.regBytes (rPciPort n 0x24) 4 else []))
    { s with
      pci.tags := setAt s.pci.tags n ((tag + 1) % 1024)
      pci.out := s.pci.out ++ [PciReq.mk n tag none 0 m.toNat 4 true s.now none] }

def execPciCfgGo (m : Master) (port : Fin 4) (v : BitVec 32) (write : Bool) (s : State) : Host.Outcome State Fault Refusal :=
  .next (if s.sysWriter m then
      (if s.bit (rPciPort port 0x20) 31 then s.respOk [] else (s.cfgGo m port v.toNat write).respOk [])
    else s.refuse m 2 (rPciPort port 0x20))

end Sys2Proof.Machine
end

