-- ==== Sys2Proof/Machine/Pwr.lean ====
section
/-! DEFINITION. Power admission, profile changes, the thermal governor and clock losses (18_power_clocks_reset.md R582 to
R598, R602, R603; 14_hosts_and_tenants.md R440). -/

namespace Sys2Proof.Machine

def rPwr (o : Nat) : Nat := blkBase bPWR + o
def rPwrIrq : Nat := rPwr 8
def rAdm (r o : Nat) : Nat := rPwr (0x1000 + r * 0x20 + o)
def rDom (d : Nat) : Nat := rCkg (0x100 + d * 8)

/-! Admission rails (R587, R588). -/

def State.admCeiling (s : State) (r : Nat) : Nat := s.fld (rAdm r 0) 10 0
def State.admCap (s : State) (r : Nat) : Nat := 250000 * s.fld (rAdm r 0) 17 11
def State.admSlew (s : State) (r : Nat) : Nat := 250 * s.fld (rAdm r 0) 25 18
def State.admParent (s : State) (r : Nat) : Option Nat := let p := s.fld (rAdm r 0) 31 26; if p < 32 then some p else none

/-- A rail now: its credit has grown by SLEW since it was last touched, up to CAP. -/
def State.admRail (s : State) (r : Nat) : AdmRail :=
  match fmGet s.pwr.rails r with
  | none => ⟨s.admCeiling r, s.admCap r, s.now⟩
  | some x => { x with credit := min (x.credit + s.admSlew r * (s.now - x.upd)) (s.admCap r), upd := s.now }

def State.setRail (s : State) (r : Nat) (x : AdmRail) : State := { s with pwr.rails := fmPut s.pwr.rails r x }

/-- PWR_ADM_STATUS of a rail at this time (R602). -/
def State.admStatus (s : State) (r : Nat) : Nat :=
  let x := s.admRail r
  x.free % 2048 + 2 ^ 12 * min 63 ((s.pwr.queue.filter fun q => decide (q.rail = r)).length) + 2 ^ 20 * min 4095 (x.credit / 10000)

/-- fits and take of R588. -/
def State.admFits (s : State) (r : Nat) (q : AdmReq) : Bool :=
  let x := s.admRail r
  decide (q.tok ≤ x.free) && decide (q.step ≤ x.credit)

def State.admTake (s : State) (r : Nat) (q : AdmReq) : State :=
  let x := s.admRail r
  s.setRail r { x with free := x.free - q.tok, credit := x.credit - q.step }

/-- Order of a rail's queue: latency-critical first, then arrival, then requester. -/
def AdmReq.before (a b : AdmReq) : Bool :=
  if a.lc ≠ b.lc then a.lc
  else if a.arrived ≠ b.arrived then decide (a.arrived < b.arrived)
  else decide (512 * a.kind + a.unit < 512 * b.kind + b.unit)

def admFirst : List AdmReq → Option AdmReq
  | [] => none
  | a :: r => match admFirst r with | none => some a | some b => some (if b.before a then b else a)

/-- Insertion in the order of a pass: priority, arrival, rail. -/
def admInsert (a : AdmReq) : List AdmReq → List AdmReq
  | [] => [a]
  | b :: r =>
    let less := if a.lc ≠ b.lc then a.lc else if a.arrived ≠ b.arrived then decide (a.arrived < b.arrived) else decide (a.rail ≤ b.rail)
    if less then a :: b :: r else b :: admInsert a r

def State.admHeads (s : State) : List AdmReq :=
  (List.range 32).foldr (fun r l =>
    match admFirst (s.pwr.queue.filter fun q => decide (q.rail = r)) with | some q => admInsert q l | none => l) []

def admKey (kind unit : Nat) : Nat := 512 * kind + unit
def State.admHeld (s : State) (kind unit : Nat) : Nat := fmGetD 0 s.pwr.held (admKey kind unit)

/-- PWR_HC_STATE of a cluster. -/
def State.hcState (s : State) (n : Nat) : Nat := s.fld (rPwr 0x24) (2 * n + 1) (2 * n)
def State.setHc (s : State) (n v : Nat) : State :=
  (s.setFld (rPwr 0x24) (2 * n + 1) (2 * n) v).setBit (rDom (26 + n)) 17 (decide (v ≠ 0))

/-- What a grant lets begin (R586). -/
def State.admBegin (s : State) (q : AdmReq) : State :=
  match q.kind with
  | 1 => s.bumpBy (rCell q.unit 0x50) ((s.now - q.arrived) * s.panelMHz q.unit / 4000)
  | 2 => { s with mc.selfRef := setBitsOf s.mc.selfRef q.unit q.unit 0 }
  | 3 => { s with mc.selfRef := setBitsOf s.mc.selfRef (4 + q.unit) (4 + q.unit) 0 }
  | 5 => s.setFld (rPipe q.unit 4) 1 0 2
  | _ => s

/-- A grant (R588, R589): tokens and credit taken from the rail and its parent, waits counted. -/
def State.admGrant (s : State) (q : AdmReq) : State :=
  let s := s.admTake q.rail q
  let s := match s.admParent q.rail with | some p => s.admTake p q | none => s
  let s := { s with pwr.queue := s.pwr.queue.filter (fun x => decide (x ≠ q)),
                    pwr.held := fmPut s.pwr.held (admKey q.kind q.unit) (s.admHeld q.kind q.unit + q.tok) }
  let w := (s.now - q.arrived) / 4
  let s := if s.now ≤ q.arrived then s
    else
      let s := (s.bump (rAdm q.rail 8)).setWord (rAdm q.rail 0xC) (max (s.word (rAdm q.rail 0xC)) (min w 0xFFFFFFFF))
      s.setWord64 (rAdm q.rail 0x10) (s.word64 (rAdm q.rail 0x10) + w)
  s.admBegin q

/-- One pass over the heads. -/
def State.admPass (s : State) : State × Bool :=
  s.admHeads.foldl (fun (p : State × Bool) q =>
    let s := p.1
    if s.admFits q.rail q && (match s.admParent q.rail with | none => true | some x => s.admFits x q) then (s.admGrant q, true)
    else p) (s, false)

/-- Passes until one grants nothing. -/
def State.admLoop : Nat → State → State
  | 0, s => s
  | n + 1, s => match s.admPass with | (s, true) => State.admLoop n s | (s, false) => s

/-- A requester that has stopped withdraws its request (R590). -/
def State.admStopped (s : State) (q : AdmReq) : Bool :=
  match q.kind with
  | 1 => let st := s.cellState q.unit; !(st == csRUNNING || st == csDRAINING)
  | 5 => s.pipeState q.unit ≠ 1
  | 6 => !s.bit (rPciPort q.unit 0) 0
  | _ => false

def State.admWithdraw (s : State) : State :=
  let gone := s.pwr.queue.filter s.admStopped
  let s := { s with pwr.queue := s.pwr.queue.filter fun q => !s.admStopped q }
  gone.foldl (fun s q => s.bump (rAdm q.rail 0x18)) s

/-- The evaluation of a tick (R588). -/
def State.admTick (s : State) : State := let s := s.admWithdraw; State.admLoop (s.pwr.queue.length + 1) s

/-- WAKE_TOK and ISTEP of a profile (R586, R602). -/
def State.wakeTok (s : State) (prof : Nat) : Nat :=
  let w := s.word (rPwr 0x28)
  match prof with | 0 => bitsOf w 7 0 | 1 => bitsOf w 15 8 | _ => bitsOf w 23 16
def State.istep (s : State) (prof : Nat) : Nat :=
  let w := s.word (rPwr 0x1C)
  10000 * (match prof with | 0 => bitsOf w 9 0 | 1 => bitsOf w 19 10 | _ => bitsOf w 29 20)

/-- The profile in force (R33). -/
def State.profile (s : State) : Nat := s.fld (rSys 4) 2 0

/-- The profile that a change in progress goes to, or the one in force. -/
def State.profNext (s : State) : Nat := match s.pwr.prof with | some c => c.target | none => s.profile

/-- The request of an operation (R586, R589): none when the operation is not to begin now. -/
def State.admRequest (s : State) (kind unit : Nat) : Option AdmReq :=
  let req (rail tok step : Nat) (lc : Bool) : Option AdmReq := some ⟨kind, unit, rail, tok, step, lc, s.now, false⟩
  match kind with
  | 0 =>
    let have_ := s.admHeld 0 unit
    let want := s.wakeTok s.profNext
    if unit ≥ 16 || s.pwr.prof.isNone || want ≤ have_ then none
    else req unit (want - have_) (if have_ = 0 then 4000000 else 0) true
  | 1 =>
    if unit ≥ 256 then none
    else req (unit / 16) 0 (s.istep s.profile) (match s.cellClick unit with | some k => s.clickClass k == 1 | none => false)
  | 2 => if unit < 4 && bitOf s.mc.selfRef unit then req (18 + unit) 40 6000000 true else none
  | 3 => if unit < 4 && bitOf s.mc.selfRef (4 + unit) then req 30 16 2000000 true else none
  | 4 => if unit < 6 && s.hcState unit ≠ 0 && s.admHeld 4 unit = 0 then req (23 + unit) 40 5000000 true else none
  | 5 =>
    if unit < 4 && s.pipeState unit = 1 then req 31 8 1000000 (decide (s.fld (rPipe unit 0x7C) 15 8 < 64)) else none
  | 6 =>
    if unit < 4 && s.bit (rPciPort unit 0) 0 && s.fld (rPciPort unit 0) 4 2 = 6 && s.admHeld 6 unit = 0 then
      req 31 24 3000000 (decide (s.fld (rPciPort unit 0) 20 13 < 64))
    else none
  | _ => none

/-- ADMISSION_REQUEST (R586): each requester has one request outstanding at most. It is evaluated in its own tick. -/
def execAdmissionRequest (kind : Fin 7) (unit : Fin 256) (s : State) : Host.Outcome State Fault Refusal :=
  if s.pwr.queue.any fun q => q.kind == kind.val && q.unit == unit.val then .next s
  else
    match s.admRequest kind unit with
    | none => .next s
    | some q => .next { s with pwr.queue := s.pwr.queue ++ [q] }

/-- ADMISSION_GRANT (R588): the evaluation of the tick. -/
def execAdmissionGrant (s : State) : Host.Outcome State Fault Refusal := .next s.admTick

/-- ADMISSION_WAIT_LONG (R589): a request has waited longer than PWR_WAIT_LIMIT. -/
def execAdmissionWaitLong (s : State) : Host.Outcome State Fault Refusal :=
  match s.pwr.queue.find? fun q => !q.long with
  | none => .next s
  | some q =>
    let s := s.timeTo (q.arrived + 4000 * s.fld (rPwr 0x20) 15 0 + 1)
    let s := { s with pwr.queue := s.pwr.queue.map fun x => if x = q then { x with long := true } else x }
    .next ((s.orWord rPwrIrq 1).fault 0x22 1 mCollector q.rail q.unit)

/-- Tokens of an operation go back to its rail and the rail's parent (R586, R587). -/
def State.admReturn (s : State) (kind unit rail n : Nat) : State :=
  let give (s : State) (r : Nat) : State := let x := s.admRail r; s.setRail r { x with free := x.free + n }
  let s := give s rail
  let s := match s.admParent rail with | some p => give s p | none => s
  let left := s.admHeld kind unit - n
  { s with pwr.held := if left = 0 then fmDel s.pwr.held (admKey kind unit) else fmPut s.pwr.held (admKey kind unit) left }

def admRailOf (kind unit : Nat) : Nat :=
  match kind with | 0 => unit | 1 => unit / 16 | 2 => 18 + unit | 3 => 30 | 4 => 23 + unit | _ => 31

/-- Whether the event that returns an operation's tokens has come (R586): a stack or controller enters self-refresh by this
very event. -/
def State.returnDue (s : State) (kind unit : Nat) : Bool :=
  match kind with
  | 0 => s.panelGated unit
  | 2 => true
  | 3 => true
  | 4 => s.hcState unit ≠ 0
  | 5 => s.pipeState unit = 0
  | 6 => !s.bit (rPciPort unit 4) 0 || s.fld (rPciPort unit 4) 3 1 < 6
  | _ => false

/-- TOKEN_RETURN (R586, R587). -/
def execTokenReturn (kind : Fin 7) (unit : Fin 256) (s : State) : Host.Outcome State Fault Refusal :=
  let k := kind.val
  let u := unit.val
  let s := if k = 2 && u < 4 then { s with mc.selfRef := setBitsOf s.mc.selfRef u u 1, mc.srSince := s.now }
    else if k = 3 && u < 4 then { s with mc.selfRef := setBitsOf s.mc.selfRef (4 + u) (4 + u) 1, mc.srSince := s.now } else s
  let n := s.admHeld k u
  if n = 0 || !s.returnDue k u then .next s else .next (s.admReturn k u (admRailOf k u) n)

/-- CLUSTER_STATE_CHANGE (R440): to 0 RUN after its grant, 1 RETENTION or 2 OFF. -/
def State.clusterChange (s : State) (n st : Nat) : State :=
  if st = 0 then (if s.hcState n = 0 || s.admHeld 4 n = 0 then s else s.setHc n 0)
  else
    let s := s.setHc n st
    let k := s.admHeld 4 n
    if k = 0 then s else s.admReturn 4 n (23 + n) k

def execClusterStateChange (cluster : Fin 6) (st : Fin 3) (s : State) : Host.Outcome State Fault Refusal :=
  .next (s.clusterChange cluster st)

/-! Clocks (R34, R595, R598). -/

/-- Cell clock of a profile in MHz (R21). -/
def profMHz (prof : Nat) : Nat := match prof with | 0 => 1800 | 1 => 1600 | _ => 1000
/-- Voltage of the cell rails in mV (R582). -/
def profMv (prof : Nat) : Nat := match prof with | 0 => 850 | 1 => 780 | _ => 650
/-- HBM pin rate in Mb/s (R387). -/
def profPin (prof : Nat) : Nat := if prof ≤ 1 then 9600 else 6400

def State.domMHz (s : State) (d : Nat) : Nat := s.fld (rDom d) 15 0

/-- A panel's clock changes: the cells that run keep the cycles they have counted. -/
def State.setPanelMHz (s : State) (p f : Nat) : State :=
  let s := (List.range 16).foldl (fun s j =>
    let c := p * 16 + j
    if s.cellState c = csRUNNING then
      let e := s.elapsed c
      s.modCell c fun x => { x with elapsed := e, since := s.now }
    else s) s
  s.setFld (rDom p) 15 0 f

def State.govClk (s : State) (d : Nat) : GovClk := fmGetD ⟨none, 0, 0, 0⟩ s.pwr.gov d

/-- A panel's clock of a profile, under the governor's ceiling (R598). -/
def State.panelTarget (s : State) (p prof : Nat) : Nat :=
  match (s.govClk p).ceil with | some c => min c (profMHz prof) | none => profMHz prof

/-- PWR_GOV_STATUS: the lowest ceilings in force, and ACTIVE. -/
def State.showGov (s : State) : State :=
  let low (lo n full : Nat) : Nat :=
    (List.range n).foldl (fun m k => match (s.govClk (lo + k)).ceil with | some c => min m (c / 100) | none => m) full
  let any := s.pwr.gov.any fun p => p.2.ceil.isSome
  let v := low 0 8 (profMHz s.profile / 100) + 2 ^ 8 * low 8 8 (profMHz s.profile / 100) + 2 ^ 16 * low 16 6 32 + 2 ^ 24 * b2n any
  (s.setWord (rPwr 0x144) (if any then v else 0)).setBit (rPwr 4) 3 any

/-! Profile changes (R591 to R594). -/

/-- Panels a profile powers off (R21): in SAFE-HOLD those without a cell of a Twiwin-L clicking. -/
def State.profGated (s : State) (prof : Nat) : Nat :=
  match prof with
  | 2 => 0xF0F0
  | 3 =>
    let keep := (List.range 64).foldl (fun m k => if s.twlClick k then m ||| s.clickNow k else m) 0
    (List.range 16).foldl (fun m p => if bitsOf keep (p * 16 + 15) (p * 16) = 0 then m ||| 2 ^ p else m) 0
  | _ => 0

/-- Panels gated now. -/
def State.gatedMask (s : State) : Nat := (List.range 16).foldl (fun m p => if s.panelGated p then m ||| 2 ^ p else m) 0

/-- Cells of a mask of panels. -/
def panelCells (mask : Nat) : List Nat := (List.range 256).filter fun c => bitOf mask (c / 16)

/-- The RATE sum of the latency-critical labels of destination classes HBM and ANY, in units of 16 MB/s (R422). -/
def State.hbmRates (s : State) : Nat :=
  (List.range 64).foldl (fun n l =>
    let t := s.fld (rLbl l 4) 18 16
    if t ≤ 1 then (List.range 32).foldl (fun n p => n + s.regRate p l) n else n) 0

/-- 40 % of the HBM peak of a profile, in units of 16 MB/s. -/
def hbmLimit (prof : Nat) : Nat := if prof ≤ 1 then 122500 else 82500

/-- The reason a change is refused: a change in progress (R594), else the first of R591's table; 0 when none holds. -/
def State.profRefusal (s : State) (t : Nat) : Nat :=
  let lc (k : Nat) : Bool := s.clickClass k == 1
  if s.pwr.prof.isSome then 4
  else if t = 2 && (List.range 64).any (fun k => lc k && ((panelCells 0xF0F0).any fun c => bitOf (s.clickNow k) c)) then 1
  else if t = 3 && (List.range 64).any (fun k => lc k && !s.twlClick k && !(s.jobsOn k).isEmpty) then 2
  else if s.hbmRates > hbmLimit t then 3
  else if (List.range 16).any (fun p => match (s.govClk p).ceil with | some c => decide (c < profMHz t) | none => false) then 5
  else if t < 3 && s.bit rFltState stL then 7
  else 0

/-- A refusal (R591). -/
def State.profRefuse (s : State) (code : Nat) : State :=
  ((s.setFld (rPwr 0x14) 15 8 code).orWord rPwrIrq 4).fault 0x22 1 (mFwp 1) 0 code

/-- The step of a change is shown. -/
def State.setProf (s : State) (c : ProfChg) : State := ({ s with pwr.prof := some c } : State).setFld (rPwr 0x14) 7 4 c.step

/-- The change goes on to the next step that applies after a step (R592). -/
def State.profStep (s : State) (c : ProfChg) (after : Nat) : State :=
  let now := s.profile
  let v0 := profMv now
  let v1 := profMv c.target
  let powered := (List.range 16).filter fun p => !s.panelGated p
  let next :=
    if after < 4 && v1 > v0 then 4
    else if after < 5 && powered.any (fun p => s.domMHz p ≠ s.panelTarget p c.target) then 5
    else if after < 6 && v1 < v0 then 6
    else if after < 7 && profPin now ≠ profPin c.target then 7
    else if after < 8 && c.woken ≠ 0 then 8
    else 9
  let s := if next = 4 || next = 6 then (s.emit (.avs 12 v1)).emit (.avs 13 v1) else s
  s.setProf { c with step := next }

/-- A change begins (R592): best-effort cells of the panels it gates are reclaimed. -/
def State.profStart (s : State) (t : Nat) : State :=
  let old := s.gatedMask
  let new := s.profGated t
  let c : ProfChg := ⟨t, 2, s.now, new &&& (0xFFFF - old), old &&& (0xFFFF - new), 0, 0⟩
  let s := ((s.setBit (rSys 4) 3 true).setBit (rPwr 4) 0 true).setFld (rPwr 0x14) 2 0 t
  let s := (List.range 64).foldl (fun s k =>
    if s.clickClass k ≠ 2 then s
    else (panelCells c.gated).foldl (fun s x =>
      if bitOf (s.clickNow k) x && !(s.clc.reclaim.any fun p => p.1 = x) then s.reclaimCell k x 0 else s) s) s
  let s := if t = 3 then [0, 1, 2, 3].foldl (fun s n => s.linkDown n) s else s
  if c.gated = 0 && t ≠ 3 then s.profStep c 3 else s.setProf c

/-- A write of PWR_PROFILE_REQ with GO (R591). -/
def State.profReq (s : State) (t : Nat) : State :=
  let code := s.profRefusal t
  if t = s.profile && s.pwr.prof.isNone then
    (s.setFld (rPwr 0x14) 31 16 (s.fld (rPwr 0x14) 31 16 + 1)).orWord rPwrIrq 2 |>.setFld (rPwr 0x14) 2 0 t
  else if code ≠ 0 then s.profRefuse code
  else s.profStart t

def execProfileReq (m : Master) (profile : Fin 8) (s : State) : Host.Outcome State Fault Refusal :=
  if m ≠ mFwp 1 then .next (s.refuse m 2 (rPwr 0x10))
  else if profile.val > 3 then .next (s.respOk [])
  else .next ((s.profReq profile.val).respOk [])

/-- A cell that a panel to be gated must wait for (R173, R592). -/
def State.cellBusy (s : State) (c : Nat) : Bool :=
  let st := s.cellState c
  (s.taskOn c).isSome || st == csLOADING || st == csRUNNING || st == csDRAINING || st == csSAVING || st == csRESTORING ||
    st == csSUBST || (s.clc.reclaim.any fun p => p.1 = c)

/-- The change in progress when it is at a step: it holds there while FWP-PWR restarts or is fenced (R544, R594). -/
def State.profAt (s : State) (step : Nat) : Option ProfChg :=
  if s.fld (blkBase bFWP + 0x140) 2 0 ≥ 3 then none else s.pwr.prof.filter fun c => decide (c.step = step)

/-- Panels are gated: cells OFF, ledgers EXCLUDED, WAKE_TOK returned (R430, R592 step 3). -/
def State.gatePanel (s : State) (p : Nat) : State :=
  let s := s.setBit (rPanelSt p) 5 true
  let s := (List.range 16).foldl (fun s j => if s.cellState (p * 16 + j) = csABSENT then s else s.enter (p * 16 + j) csOFF) s
  let s := ((s.setBit (rFab (0x30014 + (48 + p) * 0x20)) 3 true).setBit (rFab (0x30014 + (84 + p) * 0x20)) 3 true).setBit (rDom p) 17 true
  let n := s.admHeld 0 p
  if n = 0 then s else s.admReturn 0 p p n

/-- PROFILE_DRAIN_DONE (R592 steps 2 and 3): wfi: in SAFE-HOLD, the harts of HC1 to HC5 are in WFI. -/
def State.drainProf (s : State) (wfi : Bool) : State :=
  match s.profAt 2 with
  | none => s
  | some c =>
    if (panelCells c.gated).any (fun x => s.cellBusy x) || (c.target = 3 && !wfi) then s
    else
      let s := (setBitsList 16 c.gated).foldl (fun s p => s.gatePanel p) s
      let s := if c.target = 3 then
          let s := [1, 2, 3, 4, 5].foldl (fun s n => if s.hcState n = 2 then s else s.clusterChange n 2) s
          [0, 1, 2, 3].foldl (fun s n => if s.pipeState n = 0 then s else s.dpyOff n) s
        else s
      s.profStep c 3

def execProfileDrainDone (wfi : Bool) (s : State) : Host.Outcome State Fault Refusal := .next (s.drainProf wfi)

/-- The change ends without its target. -/
def State.profCancel (s : State) (code : Nat) : State :=
  let s := ((s.setBit (rSys 4) 3 false).setBit (rPwr 4) 0 false).setFld (rPwr 0x14) 7 4 0
  ({ s with pwr.prof := none } : State).profRefuse code

/-- A drain that is forced (R593): the tasks on the cells to be gated end early, and in SAFE-HOLD HC1 to HC5 go off. -/
def State.forceDrain (s : State) (c : ProfChg) : State :=
  let s := (List.range 64).foldl (fun s k =>
    if s.clickClass k = 2 && (panelCells c.gated).any (fun x => bitOf (s.clickNow k) x && (s.taskOn x).isSome) then
      (panelCells c.gated).foldl (fun s x => match s.taskOn x with | some t => s.stopJob t.slot 2 | none => s) s
    else s) s
  let s := s.enforceStops
  if c.target = 3 then [1, 2, 3, 4, 5].foldl (fun s n => if s.hcState n = 2 then s else s.clusterChange n 2) s else s

/-- PROFILE_WAIT_TIMEOUT (R593). -/
def execProfileWaitTimeout (s : State) : Host.Outcome State Fault Refusal :=
  match s.profAt 2 with
  | none => .next s
  | some c =>
    let cfg := s.word (rPwr 0x18)
    let s := s.timeTo (c.since + 4000000 * bitsOf cfg 15 0)
    .next (if bitOf cfg 16 then s.forceDrain c else s.profCancel 6)

/-- VOLTAGE_RAMP_DONE (R583, R590, R592 steps 4 and 6): a raise has waited for the extra WAKE_TOK of powered panels; after a
lowering the difference is returned. -/
def execVoltageRampDone (s : State) : Host.Outcome State Fault Refusal :=
  match s.profAt 4, s.profAt 6 with
  | some c, _ =>
    let powered := (List.range 16).filter fun p => !s.panelGated p
    if powered.any (fun p => decide (s.admHeld 0 p < s.wakeTok c.target)) then .next s else .next (s.profStep c 4)
  | none, some c =>
    let w := s.wakeTok c.target
    let s := (List.range 16).foldl (fun s p =>
      if !s.panelGated p && decide (w < s.admHeld 0 p) then s.admReturn 0 p p (s.admHeld 0 p - w) else s) s
    .next (s.profStep c 6)
  | none, none => .next s

/-- CLOCK_SLEW_DONE (R592 step 5, R594). -/
def execClockSlewDone (s : State) : Host.Outcome State Fault Refusal :=
  match s.profAt 5 with
  | none => .next s
  | some c =>
    let s := (List.range 16).foldl (fun s p => if s.panelGated p then s else s.setPanelMHz p (s.panelTarget p c.target)) s
    .next (s.profStep c 5)

/-- HBM_RETRAIN_DONE (R387, R592 step 7): one stack at a time; its controller clock follows the rate. -/
def execHbmRetrainDone (stack : Fin 4) (s : State) : Host.Outcome State Fault Refusal :=
  match s.profAt 7 with
  | none => .next s
  | some c =>
    let c := { c with trained := setBitsOf c.trained stack stack 1 }
    let s := s.setFld (rDom (18 + stack)) 15 0 (if profPin c.target = 9600 then 1200 else 800)
    .next (if c.trained = 15 then s.profStep c 7 else s.setProf c)

/-- A woken panel: clock running, cells IDLE, ledgers VALID (R592 step 8). Cells of mask fail do not pass their wake check and
are substituted (R594). -/
def State.wakePanel (s : State) (p prof fail : Nat) : State :=
  let s := (s.setBit (rPanelSt p) 5 false).setBit (rDom p) 17 false
  let s := s.setFld (rDom p) 15 0 (s.panelTarget p prof)
  let s := (List.range 16).foldl (fun s j => if s.cellState (p * 16 + j) = csOFF then s.enter (p * 16 + j) csIDLE else s) s
  let s := (s.setBit (rFab (0x30014 + (48 + p) * 0x20)) 3 false).setBit (rFab (0x30014 + (84 + p) * 0x20)) 3 false
  (setBitsList 16 fail).foldl (fun s j => s.failCell (p * 16 + j) 1 0x11) s

/-- PANEL_WAKE_DONE (R592 step 8): after the panel's grant. -/
def execPanelWakeDone (panel : Fin 16) (fail : BitVec 16) (s : State) : Host.Outcome State Fault Refusal :=
  let p := panel.val
  match s.profAt 8 with
  | none => .next s
  | some c =>
    if !bitOf c.woken p || bitOf c.awake p || decide (s.admHeld 0 p < s.wakeTok c.target) then .next s
    else
      let c := { c with awake := setBitsOf c.awake p p 1 }
      let s := s.wakePanel p c.target fail.toNat
      .next (if c.awake = c.woken then s.profStep c 8 else s.setProf c)

/-- PROFILE_DONE (R592 step 9). -/
def execProfileDone (s : State) : Host.Outcome State Fault Refusal :=
  match s.profAt 9 with
  | none => .next s
  | some c =>
    let s := ((s.setFld (rSys 4) 2 0 c.target).setBit (rSys 4) 3 false).setFld (rPwr 4) 2 1 c.target
    let s := ((s.setBit (rPwr 4) 0 false).setFld (rPwr 0x14) 7 4 0).orWord rPwrIrq 2
    .next { s.setFld (rPwr 0x14) 31 16 (s.fld (rPwr 0x14) 31 16 + 1) with pwr.prof := none }

/-! Losses of lock (R595). -/

/-- PLL_LOCK_LOSS: the domain stops. -/
def execPllLockLoss (dom : Fin 48) (s : State) : Host.Outcome State Fault Refusal :=
  let d := dom.val
  let s := ((s.setBit (rDom d) 16 false).setBit (rDom d) 18 true).bump (rDom d + 4)
  let cls := if (35 ≤ d ∧ d ≤ 42) ∨ d = 47 then 3 else 4
  .next ((s.orWord (rCkg 0) 1).fault 0x22 cls mCollector d 0)

/-- PLL_RELOCK: the domain restarts; the cells of a PANEL domain are treated as failed (R170). -/
def execPllRelock (dom : Fin 48) (s : State) : Host.Outcome State Fault Refusal :=
  let d := dom.val
  if !s.bit (rDom d) 18 then .next s
  else
    let s := (s.setBit (rDom d) 16 true).setBit (rDom d) 18 false
    .next (if d < 16 then (List.range 16).foldl (fun s j => s.failCell (d * 16 + j) 1 0x11) s else s)

/-! The thermal governor (R597, R598). -/

/-- Temperature of sensor t in 1/16 °C; its neighbour's when it is invalid. -/
def State.temp (s : State) (t : Nat) : Int :=
  let u := if s.bit (rPwr (0x40 + 4 * t)) 16 then t else t ^^^ 1
  if s.bit (rPwr (0x40 + 4 * u)) 16 then toSigned 16 (s.word (rPwr (0x40 + 4 * u))) else 0

/-- Sensors of a governed clock: two of a panel with the four of its die's SLC, or two of a cluster. -/
def govSensors (d : Nat) : List Nat :=
  if d < 8 then [2 * d, 2 * d + 1, 16, 17, 18, 19]
  else if d < 16 then [20 + 2 * (d - 8), 21 + 2 * (d - 8), 36, 37, 38, 39]
  else [40 + 2 * (d - 16), 41 + 2 * (d - 16)]

def maxInt : List Int → Int
  | [] => -32768
  | x :: r => max x (maxInt r)

/-- Hottest panel sensor of a die. -/
def State.dieTemp (s : State) (die : Nat) : Int := maxInt ((List.range 16).map fun k => s.temp (20 * die + k))

def State.thCfg (s : State) (hi lo : Nat) : Int := (s.fld (rPwr 0x140) hi lo : Nat) * 16

/-- A cause that lowers a governed clock is present. -/
def State.govCause (s : State) (d : Nat) : Bool :=
  let throt := (govSensors d).any fun t => decide (s.temp t ≥ s.thCfg 15 8)
  let die := d / 8
  throt || (d < 16 && (bitOf s.pwr.flags die || bitOf s.pwr.flags (2 + 2 * die) || bitOf s.pwr.flags (3 + 2 * die)))

/-- Every cause of a governed clock is 5 °C or more below its threshold. -/
def State.govCool (s : State) (d : Nat) : Bool :=
  !s.govCause d && ((govSensors d).all fun t => decide (s.temp t ≤ s.thCfg 15 8 - 80)) &&
    (d ≥ 16 || ([52 + 2 * (d / 8), 53 + 2 * (d / 8)].all fun t => decide (s.temp t ≤ 1440)))

def State.setGov (s : State) (d : Nat) (x : GovClk) : State := { s with pwr.gov := fmPut s.pwr.gov d x }

/-- Floor and step of a governed clock in MHz. -/
def govFloor (d : Nat) : Nat := if d < 16 then 1000 else 1600
def govStep (d : Nat) : Nat := if d < 16 then 100 else 200
/-- Its clock domain. -/
def govDom (d : Nat) : Nat := if d < 16 then d else 26 + (d - 16)
/-- The profile's clock. -/
def State.govFull (s : State) (d : Nat) : Nat := if d < 16 then profMHz s.profile else 3200

/-- Class S of the governor, once per stay in the condition. -/
def State.thermCrit (s : State) (info : Nat) : State :=
  if bitOf s.pwr.flags 6 then s
  else (({ s with pwr.flags := setBitsOf s.pwr.flags 6 6 1 } : State).orWord rPwrIrq 0x20).fault 0x22 4 mCollector 0 info

/-- THERMAL_SAMPLE (R597, R598): the readings of the 56 sensors, bit 16 VALID. -/
def State.thermal (s : State) (l : List (BitVec 17)) : State :=
  let s := (List.range 56).foldl (fun s t =>
    match l[t]? with
    | none => s
    | some v => if bitOf v.toNat 16 then s.setWord (rPwr (0x40 + 4 * t)) v.toNat else s.setBit (rPwr (0x40 + 4 * t)) 16 false) s
  let mask (f : Nat → Bool) : Nat := (List.range 56).foldl (fun m t => if f t then m ||| 2 ^ t else m) 0
  let bad := mask fun t => !s.bit (rPwr (0x40 + 4 * t)) 16
  let s : State := (setBitsList 56 (bad &&& (2 ^ 56 - 1 - s.pwr.bad))).foldl (fun s t => s.fault 0x22 1 mCollector t 1) s
  let warn := mask fun t => decide (s.temp t ≥ s.thCfg 7 0)
  let s : State := (setBitsList 56 (warn &&& (2 ^ 56 - 1 - s.pwr.warn))).foldl (fun s t =>
    (s.orWord rPwrIrq 8).fault 0x22 1 mCollector t 0) s
  let a := s.dieTemp 0
  let b := s.dieTemp 1
  let lim := s.thCfg 31 24
  let die (k : Nat) (hot cold : Int) : Bool :=
    if bitOf s.pwr.flags k then decide (hot - cold > lim - 80) else decide (hot - cold > lim)
  let d0 := die 0 a b
  let d1 := die 1 b a
  let hbm (n : Nat) : Bool := decide (s.temp (52 + n) ≥ 1520)
  let old := s.pwr.flags
  let flags := b2n d0 + 2 * b2n d1 + 4 * b2n (hbm 0) + 8 * b2n (hbm 1) + 16 * b2n (hbm 2) + 32 * b2n (hbm 3)
  let s : State := { s with pwr.bad := bad, pwr.warn := warn, pwr.flags := flags + old / 64 * 64 }
  let s : State := if (d0 && !bitOf old 0) || (d1 && !bitOf old 1) then (s.orWord rPwrIrq 0x80).fault 0x22 3 mCollector (b2n d1) 2 else s
  let s : State := [0, 1, 2, 3].foldl (fun s n => if hbm n && !bitOf old (2 + n) then s.fault 0x22 3 mCollector (52 + n) 3 else s) s
  let s : State := (List.range 22).foldl (fun s d =>
    let g := s.govClk d
    let hot := if s.govCause d then (if g.hot = 0 then s.now + 1 else g.hot) else 0
    let cool := if s.govCool d then (if g.cool = 0 then s.now + 1 else g.cool) else 0
    let atFloor := if s.govCause d && decide (s.domMHz (govDom d) ≤ govFloor d) && g.ceil.isSome then
        (if g.atFloor = 0 then s.now + 1 else g.atFloor) else 0
    s.setGov d { g with hot := hot, cool := cool, atFloor := atFloor }) s
  let crit := (List.range 56).filterMap fun t =>
    if s.temp t ≥ s.thCfg 23 16 then some (t, fmGetD s.now s.pwr.crit t) else none
  let s : State := { s with pwr.crit := crit }
  let isCrit := crit.any (fun (p : Nat × Nat) => decide (s.now - p.2 ≥ 4000000)) || (List.range 56).any (fun (t : Nat) => decide ((1840 : Int) ≤ s.temp t)) ||
    [52, 53, 54, 55].any (fun (t : Nat) => decide ((1680 : Int) ≤ s.temp t)) ||
    s.pwr.gov.any (fun (p : Nat × GovClk) => p.2.atFloor ≠ 0 && decide (s.now + 1 - p.2.atFloor ≥ 40000000))
  let s : State := if isCrit then s.thermCrit 4 else { s with pwr.flags := setBitsOf s.pwr.flags 6 6 0 }
  if (List.range 56).any (fun (t : Nat) => decide (s.temp t ≥ 2000)) then
    if bitOf s.pwr.flags 7 then s
    else (({ s with pwr.flags := setBitsOf s.pwr.flags 7 7 1 } : State).emit (.pin ballThermtrip false)).fault 0x22 5 mCollector 0 5
  else s

def execThermalSample (readings : List (BitVec 17)) (s : State) : Host.Outcome State Fault Refusal := .next (s.thermal readings)

/-- A governed clock takes a frequency. -/
def State.setGovMHz (s : State) (d f : Nat) : State :=
  if d < 16 then (if s.panelGated d then s else s.setPanelMHz d f) else s.setFld (rDom (govDom d)) 15 0 f

/-- CLOCK_THROTTLE_STEP (R598): a clock whose cause is present is lowered by one step, not below its floor. -/
def execClockThrottleStep (clk : Fin 22) (s : State) : Host.Outcome State Fault Refusal :=
  let d := clk.val
  if !s.govCause d then .next s
  else
    let g := s.govClk d
    let f := s.domMHz (govDom d)
    let s := if g.ceil.isSome then s else (s.orWord rPwrIrq 0x10).fault 0x22 3 mCollector d 6
    let f' := max (govFloor d) (f - govStep d)
    .next (((s.setGov d { g with ceil := some f', cool := 0 }).setGovMHz d f').showGov)

/-- CLOCK_RAISE_STEP (R598): 1 ms after its cause has cooled a lowered clock is raised by one step. -/
def execClockRaiseStep (clk : Fin 22) (s : State) : Host.Outcome State Fault Refusal :=
  let d := clk.val
  let g := s.govClk d
  match g.ceil with
  | none => .next s
  | some c =>
    if g.cool = 0 then .next s
    else
      let s := s.timeTo (g.cool - 1 + 4000000)
      let c' := c + govStep d
      let full := s.govFull d
      .next (((s.setGov d { g with ceil := if c' ≥ full then none else some c', cool := s.now + 1 }).setGovMHz d (min c' full)).showGov)

end Sys2Proof.Machine
end

