-- ==== Sys2Proof/Machine/CfgCheck.lean ====
section
/-! DEFINITION. The configuration record: its layout, what it may name, how its entries are applied, and the rules of every
chapter under which a record is invalid (16_firmware_and_boot.md R526 to R532). -/

namespace Sys2Proof.Machine

/-! Layout (R526, R527). -/

/-- A section: type, flags, offset and bytes of its payload. -/
structure CfgSect where
  type : Nat
  flags : Nat
  ofs : Nat
  n : Nat
  deriving DecidableEq, Repr

/-- The n items of z bytes of a byte string. -/
def itemsOf (l : List Byte) (z : Nat) : List (List Byte) := (List.range (l.length / z)).map fun i => sliceBytes l (i * z) z

def cfgSects (r : List Byte) : List CfgSect :=
  (List.range (leAt r 6 2)).map fun i =>
    let o := leAt r 0x18 4 + 16 * i
    ⟨leAt r o 2, leAt r (o + 2) 2, leAt r (o + 4) 4, leAt r (o + 8) 4⟩

def CfgSect.data (x : CfgSect) (r : List Byte) : List Byte := sliceBytes r x.ofs x.n

/-- The first rule broken: section index (0xFFFF for header and directory) and byte offset in the record. -/
abbrev CfgBad := Option (Nat × Nat)

def firstBad : List CfgBad → CfgBad
  | [] => none
  | some b :: _ => some b
  | none :: r => firstBad r

def badIf (c : Bool) (sect ofs : Nat) : CfgBad := if c then some (sect, ofs) else none

def allZero (l : List Byte) : Bool := l.all fun b => b == 0

/-- The header (R526). -/
def cfgHeader (r : List Byte) : CfgBad :=
  let b (c : Bool) (o : Nat) : CfgBad := badIf c 0xFFFF o
  firstBad [
    b (decide (leAt r 0 4 ≠ 0x4443485A)) 0, b (decide (leAt r 4 2 ≠ 1)) 4,
    b (decide (leAt r 6 2 = 0) || decide (leAt r 6 2 > 1024)) 6, b (decide (leAt r 8 4 ≠ r.length)) 8,
    b (decide (leAt r 0xC 1 > 2)) 0xC, b (decide (leAt r 0xD 1 ≥ 16)) 0xD, b (!allZero (sliceBytes r 0xE 2)) 0xE,
    b (decide (leAt r 0x18 4 % 16 ≠ 0) || decide (leAt r 0x18 4 + 16 * leAt r 6 2 > r.length)) 0x18,
    b (!allZero (sliceBytes r 0x1C 36)) 0x1C]

/-- The directory (R526, R527): types known, sections within the record and apart. -/
def cfgDir (r : List Byte) : CfgBad :=
  let l := cfgSects r
  firstBad ((List.range l.length).map fun i =>
    let x := l.getD i ⟨0, 0, 0, 0⟩
    let o := leAt r 0x18 4 + 16 * i
    let b (c : Bool) (k : Nat) : CfgBad := badIf c i (o + k)
    firstBad [
      b (decide (x.type = 0) || decide (x.type > 5)) 0,
      b (if x.type = 2 then decide (x.flags > 1) else decide (x.flags ≠ 0)) 2,
      b (decide (x.ofs % 8 ≠ 0) || decide (x.ofs + x.n > r.length)) 4,
      b ((List.range i).any fun j =>
        let y := l.getD j ⟨0, 0, 0, 0⟩
        decide (x.ofs < y.ofs + y.n) && decide (y.ofs < x.ofs + x.n)) 4,
      b (!allZero (sliceBytes r (o + 12) 4)) 12])

/-! REGLOAD (R528). -/

/-- Bits of the register word at block offset o of block k that an entry may name: loaded and RW fields, and the words of the
tack table with LOCK. -/
def cfgMask (k o : Nat) : Nat :=
  match findReg (blockRegs k) o with
  | none => 0
  | some (d, _, _, b) =>
    let m := accMask .ld d.flds ||| accMask .rw d.flds ||| accMask .shd d.flds
    let m := if k = bPHX && decide (0x40000 ≤ o) && decide (o < 0x80000) then m ||| accMask .w1s d.flds else m
    bitsOf (m >>> (8 * (b / 4 * 4))) 31 0

/-- The entries of a REGLOAD section: offset from the start of the register range, and value. -/
def cfgLoads (l : List Byte) : List (Nat × Nat) := (itemsOf l 8).map fun e => (leAt e 0 4, leAt e 4 4)

/-- Every REGLOAD entry of a record, in order. -/
def cfgAllLoads (r : List Byte) : List (Nat × Nat) :=
  (cfgSects r).flatMap fun x => if x.type = 1 then cfgLoads (x.data r) else []

/-- The entry lies in the TWN, FLT or AWL block. -/
def cfgIsland (ofs : Nat) : Bool :=
  let k := ofs / 0x100000
  k == bTWN || k == bFLT || k == bAWL

/-- An entry names something it may name; a register of 64 bits takes its lower half just before its upper one. -/
def cfgLoadOk (prev : Option Nat) (next : Option Nat) (ofs : Nat) : Bool :=
  let k := ofs / 0x100000
  let o := ofs % 0x100000
  decide (ofs % 4 = 0) && decide (k ≠ bSYS) && decide (k ≤ bPER) && decide (cfgMask k o ≠ 0) &&
    (match findReg (blockRegs k) o with
      | some (d, _, _, b) =>
        if d.bits = 64 && !d.area then (if b / 4 = 0 then next == some (ofs + 4) else prev == some (ofs - 4)) else true
      | none => false)

/-- The REGLOAD entries of section i (R528). -/
def cfgRegload (r : List Byte) (i : Nat) (x : CfgSect) : CfgBad :=
  let l := cfgLoads (x.data r)
  let key (j : Nat) : Option Nat := l[j]?.map Prod.fst
  firstBad (badIf (decide (x.n % 8 ≠ 0)) i x.ofs ::
    (List.range l.length).map fun j =>
      badIf (!cfgLoadOk (if j = 0 then none else key (j - 1)) (key (j + 1)) ((key j).getD 0)) i (x.ofs + 8 * j))

/-- Two entries for the same ADDR (R528). -/
def cfgTwice : List Nat → Bool
  | [] => false
  | a :: r => r.contains a || cfgTwice r

/-! Other sections (R528 to R530). -/

/-- DEST, length and whether it writes zeros. -/
def blobOf (x : CfgSect) (r : List Byte) : Nat × Nat × Bool :=
  let d := x.data r
  if bitOf x.flags 0 then (leAt d 0 8, leAt d 8 8, true) else (leAt d 0 8, x.n - 8, false)

/-- A span lies wholly in island SRAM, HBM or LPDDR. -/
def State.inMemory (s : State) (a n : Nat) : Bool :=
  let last := a + max n 1 - 1
  match s.addrKind a with
  | .sram => decide (last < 0x8800000)
  | .hbm => decide (last < hbmBase + s.hbmBytes)
  | .lpddr _ _ => match s.addrKind last with | .lpddr _ _ => true | _ => false
  | _ => false

def cfgBlob (v : State) (r : List Byte) (i : Nat) (x : CfgSect) : CfgBad :=
  let (a, n, z) := blobOf x r
  firstBad [badIf (if z then decide (x.n ≠ 16) else decide (x.n < 8)) i x.ofs,
    badIf (decide (a % 64 ≠ 0) || !v.inMemory a n) i x.ofs]

def cfgBlobsApart (r : List Byte) : CfgBad :=
  let l := cfgSects r
  firstBad ((List.range l.length).map fun i =>
    let x := l.getD i ⟨0, 0, 0, 0⟩
    if x.type ≠ 2 then none
    else
      let (a, n, _) := blobOf x r
      badIf ((List.range i).any fun j =>
        let y := l.getD j ⟨0, 0, 0, 0⟩
        decide (y.type = 2) && (let (b, k, _) := blobOf y r; decide (a < b + k) && decide (b < a + n))) i x.ofs)

/-- One PIPE entry (R529). -/
def pipeOk (v : State) (e : List Byte) : Bool :=
  let en := leAt e 1 1
  let pat := leAt e 2 2
  let n := leAt e 0 1
  let ow := v.fld (rStream n 4) 13 0 * leAt e 0x1C 2 / 256
  decide (n < 64) && decide (v.stPath n ≠ 0) && decide (en < 128) &&
    ([0, 1, 2, 3].all fun k => decide (bitsOf pat (3 * k + 2) (3 * k) ≤ 4)) && decide (pat < 4096) &&
    ([0, 1, 2, 3].all fun k => decide (leAt e (4 + 4 * k) 4 < 2 ^ 24)) && decide (leAt e 0x14 4 < 2 ^ 24) &&
    ([0, 1, 2].all fun k => decide (leAt e (0x18 + k) 1 ≤ 8)) && decide (leAt e 0x1B 1 = 0) &&
    decide (32 ≤ leAt e 0x1C 2) && decide (leAt e 0x1C 2 ≤ 256) && [1, 2, 4].contains (leAt e 0x1E 1) &&
    decide (leAt e 0x1F 1 ≤ 64) && (!bitOf en 5 || decide (leAt e 0x28 2 = ceilDiv ow 16 + 1)) && allZero (sliceBytes e 0x2C 20)

def cfgItems (f : List Byte → Bool) (z : Nat) (r : List Byte) (i : Nat) (x : CfgSect) : CfgBad :=
  let l := itemsOf (x.data r) z
  firstBad (badIf (decide (x.n % z ≠ 0)) i x.ofs ::
    (List.range l.length).map fun j => badIf (!f (l.getD j [])) i (x.ofs + z * j))

/-- A DEFECTS section (R527). -/
def cfgDefects (r : List Byte) (i : Nat) (x : CfgSect) : CfgBad :=
  let d := x.data r
  let c := leAt d 4 4
  badIf (decide (leAt d 0 1 ≥ 64) || decide (leAt d 1 3 ≠ 0) || decide (c = 0) || decide (c > 8192) || decide (x.n ≠ 8 + 4 * c)) i x.ofs

/-- A MODELS entry (R530). -/
def modelEntryOk (v : State) (e : List Byte) : Bool :=
  decide (leAt e 0 1 < 32) && decide (leAt e 1 1 < 2) && (decide (leAt e 2 1 < 64) || decide (leAt e 2 1 = 0xFF)) &&
    decide (leAt e 4 4 = 0) && decide (leAt e 0x10 8 % 4096 = 0) && decide (leAt e 0x18 8 % 4096 = 0) &&
    (match v.addrKind (leAt e 0x18 8) with | .lpddr _ _ => true | _ => false) && allZero (sliceBytes e 0x20 8)

def cfgSection (v : State) (r : List Byte) (i : Nat) (x : CfgSect) : CfgBad :=
  match x.type with
  | 1 => cfgRegload r i x
  | 2 => cfgBlob v r i x
  | 3 => cfgItems (pipeOk v) 64 r i x
  | 4 => cfgDefects r i x
  | _ => cfgItems (modelEntryOk v) 40 r i x

/-! Applying an entry (R528, R532). -/

/-- A register word takes the bits of an entry that the entry may set. -/
def State.cfgWord (s : State) (ofs v : Nat) : State :=
  let a := csrBase + ofs
  let m := cfgMask (ofs / 0x100000) (ofs % 0x100000)
  s.setWord a ((s.word a &&& (0xFFFFFFFF - m)) ||| (v &&& m))

/-- The registers as the whole record leaves them: what the rules of the other chapters are judged on. -/
def State.cfgView (s : State) (r : List Byte) : State := (cfgAllLoads r).foldl (fun s p => s.cfgWord p.1 p.2) s

/-! The rules of the other chapters, over that view. -/

/-- Axes (02_phase_engine.md R40, R72). -/
def State.cfgAxes (v : State) : Bool :=
  (List.range 16).all fun n =>
    let c := v.word (rAxis n 0)
    let ty := bitsOf c 1 0
    let src := bitsOf c 6 4
    let sel := bitsOf c 13 8
    (match ty with
      | 0 => decide (src = 0) && decide (sel ≤ 3)
      | 1 => decide (src ≤ 2)
      | 2 => decide (src = 0)
      | _ => decide (src ≤ 2) && (decide (src ≠ 0) || decide (sel ≤ 15))) &&
    (!bitOf c 25 || (decide (bitsOf c 24 22 ≠ bitsOf c 21 19) && decide (bitsOf c 24 22 ≠ bitsOf c 18 16)))

/-- Sensor ports (03_sensor_front_end.md R74): rates in 10 Mb/s or 10 Msym/s. -/
def State.cfgPorts (v : State) : Bool :=
  (List.range 16).all fun p =>
    let c := v.word (rSfePort p 0)
    let w := bitsOf c 5 4
    let rate := bitsOf c 31 16
    !bitOf c 0 ||
      (match bitsOf c 2 1 with
        | 0 => decide (w ≠ 2) && decide (8 ≤ rate) && decide (rate ≤ 450) && decide ((w + 1) * rate ≤ 1800)
        | 1 => decide (w ≠ 3) && decide (8 ≤ rate) && decide (rate ≤ 600)
        | 2 => decide (14 ≤ p)
        | _ => false)

/-- A list without repeats. -/
def noTwice (l : List Nat) : Bool := !cfgTwice l

/-- A span lies in one cell's tile-store window or in the SLC direct window. -/
def State.slotPlace (v : State) (a n : Nat) : Bool :=
  let last := a + max n 1 - 1
  match v.addrKind a, v.addrKind last with
  | .tile c, .tile d => c == d
  | .slc, .slc => true
  | _, _ => false

/-- The sum of width times line rate of a pipeline's streams is at most 3.2 Gpixel/s: a fraction of pixels per ns (R82). -/
def State.pipeRate (v : State) (path : Nat) : Nat × Nat :=
  (List.range 64).foldl (fun (p : Nat × Nat) n =>
    if v.stKind n = 1 && v.stPath n = path then
      (p.1 * v.word (rStream n 0x10) + v.fld (rStream n 4) 13 0 * p.2, p.2 * v.word (rStream n 0x10))
    else p) (0, 1)

/-- Streams (R78, R80, R82, R90). -/
def State.cfgStreams (v : State) : Bool :=
  let all := List.range 64
  let cams := all.filter fun n => v.stKind n == 1
  let flows := all.filter fun n => v.stKind n == 2
  let src (n : Nat) : Nat := v.word (rStream n 8)
  ((List.range 16).all fun p => decide ((cams.filter fun n => decide (bitsOf (src n) 3 0 = p)).length ≤ 4)) &&
    noTwice (cams.map fun n => bitsOf (src n) 7 0) && noTwice (flows.map fun n => bitsOf (src n) 5 0) &&
    (flows.all fun n => decide (bitsOf (src n) 19 6 ≤ if bitOf (src n) 20 then 8996 else 8998)) &&
    ([1, 2].all fun k => let p := v.pipeRate k; decide (p.2 ≠ 0) && decide (5 * p.1 ≤ 16 * p.2)) &&
    (cams.all fun n => decide (v.stPath n = 0) || decide (v.fld (rStream n 4) 13 0 ≤ 8192)) &&
    (all.all fun n =>
      decide (v.stKind n = 0) || v.stMember n ||
        ((List.range (v.stSlots n)).all fun k => v.slotPlace (v.word64 (rSlot n k 0)) (v.word64 (rSlot n k 8))))

/-- Reserved sets and Twiwin-L slots (09_jobs_and_models.md R286, R315; 15_safety.md R489). -/
def State.cfgClicks (v : State) : Bool :=
  let lc := (List.range 64).filter fun k => v.clickClass k == 1
  (lc.all fun k => decide (v.clickRes k ≠ 0) && (lc.all fun j => j == k || decide (v.clickRes k &&& v.clickRes j = 0))) &&
  (let twl := (List.range 4096).filter v.slotTwl
   let entries (n : Nat) : Nat := ((List.range 64).filter fun t =>
     v.bit (rTwn (0x1000 + t * 0x40)) 31 && decide (v.fld (rTwn (0x1000 + t * 0x40)) 11 0 = n)).length
   let pairs := twl.flatMap fun n => [v.slotClick n, v.clickPartner (v.slotClick n)]
   decide (twl.length ≤ 64) &&
   (twl.all fun n =>
     let a := v.slotClick n
     let b := v.clickPartner a
     decide (v.clickClass a = 1) && decide (v.clickClass b = 1) && !v.bit (rClick a 0) 8 && v.bit (rClick b 0) 8 &&
       decide (v.clickRes a < 2 ^ 128) && decide (v.clickRes b % 2 ^ 128 = 0) &&
       decide (popCount 256 (v.clickRes a) = popCount 256 (v.clickRes b)) &&
       decide (2 ^ 128 * v.clickRes a &&& v.clickRes b = 2 ^ 128 * v.clickRes a) &&
       decide (v.clickWant a = 0) && decide (v.clickWant b = 0) &&
       decide (v.word64 (rRelSlot n 8) ≠ v.word64 (rRelSlot n 0x10)) && decide (entries n = 1)) &&
   ((List.range 4096).all fun n => v.slotTwl n || !v.bit (rRelSlot n 0) 0 || !pairs.contains (v.slotClick n)))

/-- Footprint vertices (10_planning_engine.md R345). -/
def State.footVertex (v : State) (k : Nat) : Int × Int :=
  (toSigned 32 (v.word (rWpe (0x400 + 8 * k))), toSigned 32 (v.word (rWpe (0x404 + 8 * k))))

/-- The footprint is convex and counter-clockwise: every vertex lies on the left of every edge, or on it, and turns add up to
one revolution of positive area. -/
def State.footOk (v : State) (n : Nat) : Bool :=
  let cross (i j k : Nat) : Int :=
    let (x0, y0) := v.footVertex i
    let (x1, y1) := v.footVertex j
    let (x2, y2) := v.footVertex k
    (x1 - x0) * (y2 - y0) - (y1 - y0) * (x2 - x0)
  ((List.range n).all fun i => (List.range n).all fun k => decide (cross i ((i + 1) % n) k ≥ 0)) &&
    ((List.range n).any fun i => decide (cross i ((i + 1) % n) ((i + 2) % n) > 0))

/-- A span lies in ranges of one tag. -/
def State.inTag (v : State) (tag a n : Nat) : Bool :=
  (List.range 16).any fun c =>
    decide (v.fld (rMem (0x400 + c * 16)) 1 0 = tag) && decide (v.word64 (rMem (0x400 + c * 16)) / 4096 ≤ a / 4096) &&
      decide ((a + max n 1 - 1) / 4096 ≤ v.word64 (rMem (0x408 + c * 16)) / 4096)

/-- WPE, when the record enables it (R323, R335, R359, R393, R560). -/
def State.cfgWpe (v : State) : Bool :=
  if !v.bit (rWpe 0) 0 then true
  else
    let c := v.cycleTack
    let d := v.deadlineTack
    let tc := v.word64 (rTack c 0)
    let td := v.word64 (rTack d 0)
    let tack (n : Nat) : Bool :=
      let w := v.word (rTack n 0x10)
      !bitOf w 22 && bitOf w 6 && decide (v.word64 (rTack n 8) = 500000)
    let g := v.word (rWpe 0x14)
    let cells := 64 * bitsOf g 4 0 * (64 * bitsOf g 12 8)
    let tx := v.word (rWpe 0xB0)
    let port (p : Nat) : Bool := decide (p < 14) && !v.bit (rEthPort p 0x48) 7
    let nv := v.fld (rWpe 0xA0) 4 0
    tack c && tack d && decide (v.tackAxis c = v.tackAxis d) && decide (v.fld (rAxis (v.tackAxis c) 0) 1 0 = 0) &&
      decide (tc + 300000 ≤ td) && decide (td ≤ tc + 480000) && !v.bit (rTack d 0x10) 2 && decide (d < c) &&
      decide (v.fld (rWpe 0) 31 24 < 64) && decide (1 ≤ bitsOf g 4 0) && decide (bitsOf g 4 0 ≤ 16) &&
      decide (1 ≤ bitsOf g 12 8) && decide (bitsOf g 12 8 ≤ 16) &&
      decide (10000 ≤ v.fld (rWpe 0x18) 19 0) && decide (v.fld (rWpe 0x18) 19 0 ≤ 1000000) &&
      decide (1 ≤ v.fld (rWpe 0x24) 11 8) && decide (1000 ≤ v.fld (rWpe 0xA8) 15 0) && decide (v.fld (rWpe 0xA8) 15 0 ≤ 32000) &&
      decide (3 ≤ nv) && decide (nv ≤ 16) && v.footOk nv && decide (v.fld (rWpe 0xA4) 15 0 < v.fld (rWpe 0xA4) 31 16) &&
      ([0, 1, 2].all fun k => v.inTag 2 (v.word64 (rWpe (0x30 + 8 * k))) (4096 * v.word (rWpe 0x48))) &&
      ([0, 1].all fun k => v.inTag 2 (v.word64 (rWpe (0x60 + 8 * k))) (2 * cells)) &&
      v.inTag 2 (v.word64 (rWpe 0x78)) (4 * cells * (bitsOf g 19 16 + 1)) &&
      decide (bitsOf tx 12 10 = 7) && port (bitsOf tx 4 0) && (!bitOf tx 31 || port (bitsOf tx 9 5))

/-- The usable space of the LPDDR regions before region r. -/
def State.lpStart (v : State) (r : Nat) : Nat := (List.range r).foldl (fun x q => x + v.lpUsable q) lpBase

/-- A critical range keeps R393: in HBM, LPDDR or island SRAM, and apart from LPDDR regions without inline ECC. -/
def State.critOk (v : State) (c : Nat) : Bool :=
  if v.fld (rMem (0x400 + c * 16)) 1 0 = 0 then true
  else
    let a := 4096 * (v.word64 (rMem (0x400 + c * 16)) / 4096)
    let b := 4096 * (v.word64 (rMem (0x408 + c * 16)) / 4096) + 4096
    decide (a < b) && v.inMemory a (b - a) &&
      ((List.range 16).all fun r =>
        decide (v.lpRaw r = 0) || v.lpEcc r || decide (b ≤ v.lpStart r) || decide (v.lpStart r + v.lpUsable r ≤ a))

/-- MEM (12_memory.md R26, R393, R405, R412). -/
def State.cfgMem (v : State) : Bool :=
  let cfg (n : Nat) : Nat := v.word (rMem (0x100 + n * 4))
  let mib := v.fld (rMhs 8) 7 0
  let way := v.word (rMem 0xC)
  ((List.range 4).all fun g =>
    let ms := v.lpMembers g
    let raw := ms.foldl (fun x n => x + 2 ^ 30 * bitsOf (cfg n) 15 8) 0
    let regs := (List.range 16).foldl (fun x r => if v.fld (rMem (0x200 + r * 16)) 13 12 = g then x + v.lpRaw r else x) 0
    decide (ms.length ≠ 3) && decide (raw = regs) &&
      (ms.all fun n =>
        let c := cfg n
        [8, 12, 16, 24, 32, 48, 64].contains (bitsOf c 15 8) && decide (bitsOf c 6 4 ≤ if bitsOf c 1 0 = 1 then 1 else 2) &&
          decide (bitsOf c 1 0 = bitsOf (cfg (ms.getD 0 0)) 1 0) && decide (bitsOf c 6 4 = bitsOf (cfg (ms.getD 0 0)) 6 4) &&
          decide (bitsOf c 15 8 = bitsOf (cfg (ms.getD 0 0)) 15 8) && bitOf c 19 == bitOf (cfg (ms.getD 0 0)) 19)) &&
    ((List.range 16).all v.critOk) &&
    decide (mib % 16 = 0) && decide (bitsOf way 11 8 * 16 = mib) && decide (mib + bitsOf way 3 0 * 16 ≤ 224)

/-- Data rate of an LPDDR controller in units of 16 MB/s: 16 bytes of data for each transfer on a pin (R390). -/
def lpRate (c : Nat) : Nat :=
  match bitsOf c 1 0 with
  | 0 => 0
  | 1 => [5500, 6400].getD (bitsOf c 6 4) 0
  | 2 => [7500, 8533, 9600].getD (bitsOf c 6 4) 0
  | _ => [8533, 9600, 10667].getD (bitsOf c 6 4) 0

/-- RATE sum of the latency-critical labels whose TARGET is one of a list, at every port. -/
def State.lblRates (v : State) (targets : List Nat) : Nat :=
  (List.range 64).foldl (fun n l =>
    if targets.contains (v.fld (rLbl l 4) 18 16) then (List.range 32).foldl (fun n p => n + v.regRate p l) n else n) 0

/-- A latency-critical label is in use: it has a rate at some port, or a deadline. -/
def State.lblUsed (v : State) (l : Nat) : Bool :=
  decide (v.fld (rLbl l 0) 15 0 ≠ 0) || ((List.range 32).any fun p => decide (v.regRate p l ≠ 0))

/-- FAB (13_fabric_and_conservation.md R422), in the boot profile. -/
def State.cfgFab (v : State) (prof : Nat) : Bool :=
  ((List.range 64).all fun l =>
    !v.lblUsed l ||
      (decide (v.fld (rLbl l 0) 15 0 ≠ 0) && ((List.range 32).any fun p => decide (v.regRate p l ≠ 0)) &&
        decide (v.fld (rLbl l 4) 18 16 ≤ 4))) &&
    decide (v.lblRates [0, 1] ≤ hbmLimit prof) &&
    (let lp := (List.range 4).foldl (fun x n => x + lpRate (v.word (rMem (0x100 + n * 4)))) 0
     decide (v.lblRates [2] = 0) || decide (5 * v.lblRates [0, 2] ≤ 2 * lp)) &&
    ((List.range 16).all fun p => decide ((List.range 64).foldl (fun n l => n + v.regRate p l) 0 ≤ 62500)) &&
    ((List.range 32).all fun p => (List.range 256).all fun l => decide (v.regBurst p l ≤ 4096))

/-- TWN, FLT and ETH (15_safety.md R487, R504; 17_network_and_time.md R562). -/
def State.cfgOther (v : State) : Bool :=
  decide (v.fld (rTwn 0xC) 10 8 ≤ popCount 6 (v.fld (rTwn 0xC) 5 0)) && decide (v.fld (rFlt 0x40) 3 0 ≤ 6) &&
    ((List.range 14).all fun n => !(v.bit (rEthPort n 0) 10 && v.bit (rEthPort n 0) 11))

/-- The largest TOK and STEP of the requests at an admission rail (18_power_clocks_reset.md R586): a panel holds its WAKE_TOK,
the Serdes rail serves four pipes and four ports, the LPDDR rail four controllers. -/
def State.railTok (v : State) (r : Nat) : Nat :=
  if r < 16 then max (v.wakeTok 0) (max (v.wakeTok 1) (v.wakeTok 2))
  else if r < 18 then 0 else if r < 22 then 40 else if r = 22 then 0 else if r < 29 then 40 else if r = 29 then 0
  else if r = 30 then 64 else 128

def State.railStep (v : State) (r : Nat) : Nat :=
  if r < 16 then max 4000000 (max (v.istep 0) (max (v.istep 1) (v.istep 2)))
  else if r < 18 then 0 else if r < 22 then 6000000 else if r = 22 then 0 else if r < 29 then 5000000 else if r = 29 then 0
  else if r = 30 then 2000000 else 3000000

/-- PWR (R587). -/
def State.cfgPwr (v : State) : Bool :=
  (List.range 32).all fun r =>
    let kids := (List.range 32).filter fun k => v.admParent k == some r
    decide (v.railStep r ≤ v.admCap r) && (match v.admParent r with | some p => decide (v.railStep r ≤ v.admCap p) | none => true) &&
      decide (v.railTok r ≤ v.admCeiling r) && decide (kids.foldl (fun n k => n + v.railTok k) 0 ≤ v.admCeiling r)

/-- Every rule of the other chapters. -/
def State.cfgRules (v : State) (prof : Nat) : Bool :=
  v.cfgAxes && v.cfgPorts && v.cfgStreams && v.cfgClicks && v.cfgWpe && v.cfgMem && v.cfgFab prof && v.cfgOther && v.cfgPwr

/-- The check of step 4 (R531): the first rule that a record breaks. A rule of another chapter has no byte of its own: section
0xFFFF, offset 0 (log 221). -/
def State.cfgCheck (s : State) (r : List Byte) : CfgBad :=
  match firstBad [cfgHeader r] with
  | some b => some b
  | none =>
    match cfgDir r with
    | some b => some b
    | none =>
      let l := cfgSects r
      let v := s.cfgView r
      firstBad [
        firstBad ((List.range l.length).map fun i => cfgSection v r i (l.getD i ⟨0, 0, 0, 0⟩)),
        badIf (cfgTwice ((cfgAllLoads r).map Prod.fst)) 0xFFFF 0,
        cfgBlobsApart r,
        badIf (!v.cfgRules (leAt r 0xC 1)) 0xFFFF 0]

end Sys2Proof.Machine
end

