-- ==== Sys2Proof/Machine/Audit.lean ====
section
/-! DEFINITION. Requests entering the fabric, and the ledgers and their audit (13_fabric_and_conservation.md R417, R418,
R428 to R433, R437, R438; 14_hosts_and_tenants.md R446). -/

namespace Sys2Proof.Machine

/-- A request of a master enters its port (R417, R446): an instance's is translated first, and a fault of the ATU ends it. -/
def execFabricRequestIssue (port : Fin 32) (label : Fin 256) (m : Master) (inst : Option (Fin 64)) (addr : BitVec 64)
    (bytes : BitVec 13) (write : Bool) (deadline : Option (BitVec 16)) (s : State) : Host.Outcome State Fault Refusal :=
  match s.xlat inst m (if write then 2 else 1) addr.toNat with
  | (s, none) => .next s
  | (s, some pa) =>
    .next (s.fabIssue port label m inst bytes.toNat write (deadline.map fun d => d.toNat) (s.destClass pa))

/-! Ledgers (R428). -/

def rLedger (g o : Nat) : Nat := rFab (0x30000 + g * 0x20 + o)

/-- KIND of a ledger: 0 where none is named. -/
def ledgerKind (g : Nat) : Nat :=
  if g < 46 then 1
  else if g < 48 then 0
  else if g < 80 then 2
  else if g < 101 then 3
  else if g < 128 then 0
  else if g < 193 then 4
  else if g < 200 then 0
  else if g < 232 then 5
  else if decide (240 ≤ g) && decide (g < 248) then 6
  else 0

/-- Queues of an instance. -/
def State.instQueues (s : State) (i : Nat) : List HqmQ := (s.hqm.queues.filter fun p => decide (p.2.owner = i)).map Prod.snd

/-- Slots of the MEM record ring (12_memory.md R409). -/
def State.memRing (s : State) : Nat := 2 ^ s.fld (rMem 0x28) 3 0

/-- The constant of a ledger; those of the LINK, REQ and DMA pools are not stated (Config.ledgerConst). -/
def State.ledgerConst (s : State) (g : Nat) : Nat :=
  match ledgerKind g with
  | 4 => if g = 192 then 256 else (s.instQueues (g - 128)).foldl (fun n q => n + q.size) 0
  | 5 => s.admCeiling (g - 200)
  | 6 => if g = 246 then 256 else if g = 247 then s.memRing else s.logSize (g - 240)
  | _ => Config.ledgerConst g % 2 ^ 32

/-- Tokens granted on an admission rail, its children's included (R587). -/
def State.granted (s : State) (r : Nat) : Nat :=
  s.pwr.held.foldl (fun n p =>
    let rail := admRailOf (p.1 / 512) (p.1 % 512)
    if rail = r || s.admParent rail = some r then n + p.2 else n) 0

/-- Units of a ledger that are out, as issued and in flight. -/
def State.ledgerOut (s : State) (g : Nat) : Nat × Nat :=
  match ledgerKind g with
  | 2 =>
    let p := g - 48
    ((s.fab.flight.filter fun q => decide (q.port = p)).length +
      (s.fab.holdQ.filter fun q => decide (q.1 / 256 = p)).foldl (fun n q => n + q.2.length) 0, 0)
  | 4 => (if g = 192 then s.clc.posts.length else (s.instQueues (g - 128)).foldl (fun n q => n + q.count) 0, 0)
  | 5 => (s.granted (g - 200), 0)
  | 6 =>
    if g = 246 then (0, s.alarmFill)
    else if g = 247 then (0, min s.mc.seq s.memRing)
    else
      let p := g - 240
      (0, (s.word (rProc p 0x14) + 2 ^ 32 - s.word (rProc p 0x18)) % 2 ^ 32)
  | _ => (0, 0)

/-- The held term: free units as the pool's owner counts them, with what faults have put into the counter. -/
def State.ledgerHeld (s : State) (g : Nat) : Nat :=
  let (i, f) := s.ledgerOut g
  let base : Int := if ledgerKind g = 5 then (s.admRail (g - 200)).free else (s.ledgerConst g : Int) - i - f
  ofSigned 32 (base + fmGetD 0 s.fab.skew g)

/-- Every ledger of R428 exists from the load of the record on (R437). -/
def State.ledgersLoad (s : State) : State :=
  (List.range 256).foldl (fun s g =>
    if ledgerKind g = 0 then s
    else ((s.setFld (rLedger g 0) 2 0 (ledgerKind g)).setWord (rLedger g 4) (s.ledgerConst g)).setBit (rLedger g 0x14) 0 true) s

/-- A ledger that the audit reads: VALID, not INVALID, not EXCLUDED. -/
def State.audited (s : State) (g : Nat) : Bool :=
  s.bit (rLedger g 0x14) 0 && !s.bit (rLedger g 0x14) 1 && !s.bit (rLedger g 0x14) 3

/-- An uncorrectable error in a ledger's counters (R433). -/
def State.ledgerInvalid (s : State) (g : Nat) : State :=
  let s := { s with fab.bad := s.fab.bad.filter fun k => decide (k ≠ g) }
  ((s.setBit (rLedger g 0x14) 1 true).orWord rFabIrq 4).fault 0x18 3 mAudit g 0

/-- A ledger record (R438). -/
def State.ledgerRecord (s : State) (g audit const held issued flight : Nat) : State :=
  let q := s.fab.lrecSeq
  let diff := (held + issued + flight + 2 ^ 32 - const) % 2 ^ 32
  let rcd := leBytes 4 q ++ leBytes 1 g ++ leBytes 1 (ledgerKind g) ++ zeroBytes 2 ++ leBytes 4 audit ++ leBytes 4 const ++
    leBytes 4 held ++ leBytes 4 issued ++ leBytes 4 flight ++ leBytes 4 diff ++ leBytes 8 s.recordTime.1 ++ zeroBytes 24
  let s := (s.setRegBytes (rFab (0x40000 + q % 16 * 64)) rcd).setWord (rFab 0x64) q
  { s with fab.lrecSeq := (q + 1) % 2 ^ 32 }

/-- A sum that differs from the constant (R432): class S once until a reset that reaches FAB. -/
def State.ledgerMismatch (s : State) (g : Nat) : State :=
  let s := s.orWord rFabIrq 2
  if s.fab.mismS.contains g then s
  else { s with fab.mismS := insertNat g s.fab.mismS }.fault 0x17 4 mAudit g 0

/-- The audit of one ledger (R431 step 5). -/
def State.auditLedger (s : State) (no g : Nat) : State :=
  if !s.audited g then s
  else if s.fab.bad.contains g then s.ledgerInvalid g
  else
    let c := s.ledgerConst g
    let h := s.ledgerHeld g
    let (i, f) := s.ledgerOut g
    let s := (s.setWord (rLedger g 4) c).setWord (rLedger g 8) h
    let s := ((s.setWord (rLedger g 0xC) i).setWord (rLedger g 0x10) f).setWord (rLedger g 0x18) no
    let bad := decide ((h + i + f) % 2 ^ 32 ≠ c % 2 ^ 32)
    let s := s.setBit (rLedger g 0x14) 2 bad
    if bad then (s.ledgerRecord g no c h i f).ledgerMismatch g else s

/-! The audit engine (R431). -/

/-- The timer of 1 ms: an audit starts, or a period is skipped. The engine rests while the SAFE domain is in reset (R601). -/
def execAuditStart (s : State) : Host.Outcome State Fault Refusal :=
  if s.fwp.safe = 0 then .next s
  else
    let s := s.timeTo (s.fab.auditAt + 4000000)
    let s := { s with fab.auditAt := s.now }
    .next (match s.fab.audit with
      | some _ => s.bump (rFab 0x18)
      | none => { s with fab.audit := some s.now, fab.late := false }.setBit (rFab 4) 0 true)

/-- Every marker has arrived; one that waits on a retraining link or a held path delays the end. -/
def execAuditComplete (s : State) : Host.Outcome State Fault Refusal :=
  if s.fab.audit.isNone || !s.fab.links.isEmpty || !s.cel.held.isEmpty then .next s
  else
    let s := s.bump (rFab 0x10)
    let no := s.word (rFab 0x10)
    let s := (List.range 256).foldl (fun s g => s.auditLedger no g) s
    let s := (s.setBit (rFab 4) 0 false).setFld (rFab 4) 31 16 no
    .next { s with fab.audit := none, fab.auditNo := no }

/-- 200 microseconds without an end: once for each audit. -/
def execAuditLate (s : State) : Host.Outcome State Fault Refusal :=
  match s.fab.audit with
  | none => .next s
  | some t =>
    if s.fab.late then .next s
    else
      let s := s.timeTo (t + 800000)
      .next ((({ s with fab.late := true }.orWord rFabIrq 8).bump (rFab 0x14)).fault 0x17 1 mAudit 0 0)

end Sys2Proof.Machine
end

