-- ==== Sys2Proof/Machine/ClcSwitch.lean ====
section
/-! DEFINITION. Creating and switching clickings, model repair and installation (09_jobs_and_models.md R285, R306 to R314,
R320). -/

namespace Sys2Proof.Machine

/-! Models. -/

/-- A model becomes FAILED: class D; clickings bound to it become FAULTED (R310). -/
def State.modelFail (s : State) (m : Nat) (unbindToo : Bool) : State :=
  let s := ((s.setModelState m 4).orWord (rMhs 0) 0x10).fault 0x15 3 (mFwp 5) m 0
  if !unbindToo then s
  else (List.range 64).foldl (fun s k => if s.clickBound k && s.clickModel k = m then s.clickFault k else s) s

/-- The 4 KiB page of a model's copy that holds an address, copied again from the other copy (R310, R403); the flag says that
it now reads without error. -/
def State.repairPage (s : State) (m a : Nat) (golden : Bool) : State × Bool :=
  let a := 4096 * (a / 4096)
  let src := if golden then s.modelWork m + (a - s.modelGold m) else s.modelGold m + (a - s.modelWork m)
  if s.poisoned src 4096 then (s.modelFail m true, false)
  else
    let s := s.memPut (mFwp 5) a (s.bytes src 4096) false
    (((s.bump (rMhs 0x20)).bump (rModel m 0x24)).orWord (rMhs 0) 8, true)

/-- FWP-MODEL repairs the page of a latent error (R310, R403). -/
def execModelRepair (addr : BitVec 64) (s : State) : Host.Outcome State Fault Refusal :=
  let a := addr.toNat
  let has (base : Nat → Nat) : Option Nat :=
    (List.range 32).find? fun m => decide (s.modelState m = 2) && decide (base m ≤ a) && decide (a < base m + s.modelBytes m)
  .next (if !s.poisoned (4096 * (a / 4096)) 4096 then s
    else
      match has s.modelWork with
      | some m => (s.repairPage m a false).1
      | none =>
        match has s.modelGold with
        | some m => (s.repairPage m a true).1
        | none => s)

/-- Decryption windows are opened for the segments of an encrypted working copy, lowest window first (R611). -/
def State.openWindows (s : State) (m : Nat) : State :=
  let iv := s.bytes (s.modelWork m + 0x48) 12
  let slot := s.hdr m 0x26 2
  ((List.range (s.mdlSegs m)).zip (s.segs m)).foldl (fun (s : State) (p : Nat × Seg) =>
    match (List.range 64).find? fun w => !s.bit (rSecWin w 0xC) 31 with
    | none => s
    | some w =>
      let s := (s.setWord64 (rSecWin w 0) (s.modelWork m + p.2.off)).setWord (rSecWin w 8) p.2.bytes
      (s.setRegBytes (rSecWin w 0x10) (beBytes 12 (segIv iv p.1))).setWord (rSecWin w 0xC) (slot % 16 + 2 ^ 31)) s

/-- The windows into a range are closed. -/
def State.closeWindows (s : State) (a n : Nat) : State :=
  (List.range 64).foldl (fun s w =>
    if s.bit (rSecWin w 0xC) 31 && decide (a ≤ s.word64 (rSecWin w 0)) && decide (s.word64 (rSecWin w 0) < a + n) then
      s.setBit (rSecWin w 0xC) 31 false
    else s) s

/-- A model leaves the hot set (R307, R308). -/
def State.evictModel (s : State) (m : Nat) : State :=
  let s := s.closeWindows (s.modelWork m) (s.modelBytes m)
  let s := { s.setModelState m 0 with mhs.kbase := fmDel s.mhs.kbase m }
  (s.orWord (rMhs 0) 4).slcRealloc

/-- A range lies in the MHS HBM area and shares no byte with another model's copies. -/
def State.mhsRoom (s : State) (m a n : Nat) : Bool :=
  let base := s.word64 (rMhs 0x10)
  decide (base ≤ a) && decide (a + n ≤ base + s.word64 (rMhs 0x18)) &&
    (List.range 32).all fun q =>
      q = m || s.modelState q = 0 || s.modelState q = 1 ||
        (apart a n (s.modelWork q) (s.modelBytes q) && apart a n (s.kernelAddr q 0) (s.hdr q 0x22 2 * 64))

/-- The kernel descriptors of a model, relocated (R303). -/
def State.relocate (s : State) (m dst : Nat) : State :=
  (List.range (s.hdr m 0x22 2)).foldl (fun s i =>
    let d := s.bytes (s.modelWork m + s.hdr m 0x30 4 + i * 64) 64
    let d := leBytes 8 (leAt d 0 8 + s.modelWork m) ++ sliceBytes d 8 16 ++ leBytes 8 (leAt d 0x18 8 + s.modelWork m) ++ sliceBytes d 0x20 32
    s.memPut (mFwp 5) (dst + i * 64) d false) s

/-- FWP-MODEL ends an installation, with the places it chose for the working copy and the kernel descriptors (R306). -/
def State.installDone (s : State) (m work kern : Nat) : State :=
  let n := s.modelBytes m
  let gold := s.modelGold m
  let img := s.bytes gold n
  let nk := leAt img 0x22 2 * 64
  if s.modelState m ≠ 1 then s
  else if s.poisoned gold n || !imageOk img (fmGet s.sec.slots) then (s.setModelState m 0).orWord (rMhs 0) 2
  else if work % 4096 ≠ 0 || kern % 64 ≠ 0 || !s.mhsRoom m work n || !s.mhsRoom m kern nk || !apart work n kern nk then s
  else
    let s := (s.memPut (mFwp 5) work img false).setWord64 (rModel m 0x10) work
    let s := { s with mhs.kbase := fmPut s.mhs.kbase m kern }
    let s := (s.setWord (rModel m 4) (leAt img 0x10 4)).setWord (rModel m 0x30) (leAt img 0x14 4)
    let s := (s.relocate m kern).setModelState m 2
    let s := if bitOf (leAt img 6 2) 0 then s.openWindows m else s
    ((s.useModel m).orWord (rMhs 0) 1).slcRealloc

/-! CLC_CLICK_CFG (R285, R320). -/

/-- A clicking loses what it had: jobs end ABORTED, pending releases are cancelled; its cells go back as they end. -/
def State.emptyClick (s : State) (k : Nat) : State :=
  let s := ((s.cancelPending k).stopClick k 2).enforceStops
  let s := if s.clickBound k then s.setFld (rModel (s.clickModel k) 0) 15 8 (s.fld (rModel (s.clickModel k) 0) 15 8 - 1) else s
  let s := { s with clc.switching := fmDel s.clc.switching k }
  ((s.setBit (rClick k 4) 27 false).setClickState k 0).finishJobs

/-- A write of CLC_CLICK_CFG. -/
def State.clickCfg (s : State) (k v : Nat) : State :=
  let cls := v % 4
  if s.clickClass k = 1 || cls = 1 || cls = 3 then s
  else
    let was := s.clickClass k
    let s := s.setWord (rClick k 0) (setBitsOf (setBitsOf (setBitsOf (s.word (rClick k 0)) 31 28 (bitsOf v 31 28)) 24 16 (bitsOf v 24 16)) 7 0 (v % 256))
    let s := if cls = 0 && was ≠ 0 then s.emptyClick k else if cls = 2 && was = 0 then s.setClickState k 1 else s
    let s := (List.range 256).foldl (fun s c => if bitOf (s.clickNow k) c then s.setFld (rCell c 0) 22 17 (s.clickInst k) else s) s
    (State.shrink 257 k s).handOut.showFree

def execClickCfgWrite (m : Master) (click : Fin 64) (v : BitVec 32) (s : State) : Host.Outcome State Fault Refusal :=
  .next (if s.sysWriter m then (s.clickCfg click v.toNat).respOk [] else s.refuse m 2 (rClick click 0))

/-! Switching (R311 to R313). -/

/-- Cells that count for a switch: reserved ones present, or those held. -/
def State.switchCells (s : State) (k : Nat) : Nat :=
  if s.clickClass k = 1 then ((List.range 256).filter fun c => bitOf (s.clickRes k) c && s.cellState c ≠ csABSENT).length
  else popCount 256 (s.clickNow k)

/-- The sides that switch with clicking k. -/
def State.switchSides (s : State) (k : Nat) : List Nat :=
  if s.twlClick k && !s.bit (rClick k 0) 8 then [k, s.clickPartner k] else [k]

/-- LAST_SW of a switch that is refused, 0 when it is accepted (R311). -/
def State.switchCheck (s : State) (k m : Nat) (unbind : Bool) : Nat :=
  let n := s.switchCells k
  let q := s.mdlQuantum m
  if !unbind && s.modelState m ≠ 2 then 2
  else if !unbind && (n < s.mdlMin m || n > s.mdlMax m || n % q ≠ 0) then 3
  else if !unbind && (List.range (s.mdlStages m)).any fun i =>
      bitOf (s.mnat (s.stageAt m i + 2) 2) 3 && decide (s.mnat (s.stageAt m i + 4) 4 * n / q > 65535) then 4
  else if (fmGet s.clc.switching k).isSome then 7
  else if s.bit (rClick k 0) 8 then 8
  else 0

/-- A switch starts (R312 steps 1 and 2). -/
def State.switchStart (s : State) (k : Nat) (x : ClcSwitch) : State :=
  (s.switchSides k).foldl (fun s j =>
    let s := ((s.setClickState j 3).cancelPending j)
    let s := { s with clc.switching := fmPut s.clc.switching j x }
    if x.abort then (s.stopClick j 2).enforceStops.finishJobs else s) s

/-- A clicking no longer has a model. -/
def State.unbindClick (s : State) (k : Nat) : State :=
  if s.clickBound k then
    let m := s.clickModel k
    (s.setFld (rModel m 0) 15 8 (s.fld (rModel m 0) 15 8 - 1)).setBit (rClick k 4) 27 false
  else s

/-- A switch ends without a model, with LAST_SW. -/
def State.switchEnd (s : State) (k st last : Nat) : State :=
  let s := { s with clc.switching := fmDel s.clc.switching k }
  ((s.setClickState k st).setLastSw k last).orWord rClcIrq 4

/-- The drain of a switch is done (R312 steps 2 to 4): burst cells go back, the old model is unbound, the SLC model region is
reallocated and the resident segments are loaded; UNBIND ends here. -/
def State.drainDone (s : State) (k : Nat) : State :=
  let sides := s.switchSides k
  match fmGet s.clc.switching k with
  | none => s
  | some x =>
    if x.drained || sides.any fun j => !(s.jobsOn j).isEmpty then s
    else
      let s := sides.foldl (fun s j =>
        (s.clc.burst.foldl (fun s p => if p.2 = j then s.leaveCell j p.1 else s) s).unbindClick j) s
      let s := s.slcRealloc
      if x.unbind then sides.foldl (fun s j => s.switchEnd j 1 1) s
      else
        sides.foldl (fun s j =>
          let s := { s with clc.switching := fmPut s.clc.switching j { x with drained := true } }
          (List.range 256).foldl (fun s c => if bitOf (s.clickNow j) c then s.loadResident x.model c else s) s) s

/-- A switch requested by a system master or by FWP-MODEL (R311). -/
def State.switchReq (s : State) (k m : Nat) (abort resOnly unbind : Bool) (label : Nat) : State :=
  match s.switchCheck k m unbind with
  | 0 =>
    let s := s.switchStart k ⟨m, abort, resOnly, unbind, label, false⟩
    if unbind then s.drainDone k else s
  | e => (s.setLastSw k e).orWord rClcIrq 4

/-- An installation ends; a model of the configuration record is pinned or bound as its entry says, or its failure is recorded
(16_firmware_and_boot.md R530). The label of that switch is not stated: 255 (log 232). -/
def State.installBound (s : State) (m work kern : Nat) : State :=
  let was := s.modelState m
  let s := s.installDone m work kern
  match fmGet s.fwp.binds m with
  | none => s
  | some k =>
    if was ≠ 1 || s.modelState m = 1 then s
    else
      let s := { s with fwp.binds := fmDel s.fwp.binds m }
      if s.modelState m ≠ 2 then s.fault 0x27 3 (mFwp 5) m 0
      else if k < 64 then (if s.clickClass k = 1 then s.setBit (rModel m 0) 3 true else s).switchReq k m false false false 255
      else s

def execModelInstallationDone (model : Fin 32) (work kern : BitVec 52) (s : State) : Host.Outcome State Fault Refusal :=
  .next (s.installBound model work.toNat kern.toNat)

def execClickSwitch (m : Master) (click : Fin 64) (v : BitVec 32) (s : State) : Host.Outcome State Fault Refusal :=
  let w := v.toNat
  .next (if s.sysWriter m then (s.switchReq click (w % 32) (bitOf w 5) (bitOf w 6) (bitOf w 7) (bitsOf w 15 8)).respOk []
    else s.refuse m 2 (rClick click 8))

/-- A switch write with UNBIND: the clicking ends without a model, at once when it runs no job. -/
def execUnbind (m : Master) (click : Fin 64) (abort : Bool) (s : State) : Host.Outcome State Fault Refusal :=
  .next (if s.sysWriter m then (s.switchReq click 0 abort false true 0).respOk [] else s.refuse m 2 (rClick click 8))

def execSwitchDrainDone (click : Fin 64) (s : State) : Host.Outcome State Fault Refusal := .next (s.drainDone click)

/-- The warm pass over the segments of a model: pages that carry poison are repaired, tags are checked. LAST_SW of a failure,
0 for none (R312, R313). -/
def State.warmPass (s : State) (m : Nat) : State × Nat :=
  let iv := beNat (s.bytes (s.modelWork m + 0x48) 12)
  let key := fmGet s.sec.slots (s.hdr m 0x26 2)
  ((List.range (s.mdlSegs m)).zip (s.segs m)).foldl (fun (acc : State × Nat) (p : Nat × Seg) =>
    if acc.2 ≠ 0 then acc
    else
      let a := acc.1.modelWork m + p.2.off
      let (s, ok) := (List.range (ceilDiv p.2.bytes 4096)).foldl (fun (q : State × Bool) i =>
        if q.2 && q.1.poisoned (a + 4096 * i) 4096 then q.1.repairPage m (a + 4096 * i) false else q) (acc.1, true)
      if !ok then (s, 6)
      else if tagOk (s.mdlEnc m) key iv p.1 p.2 (s.bytes a p.2.bytes) then (s, 0)
      else (s.modelFail m false, 5)) (s, 0)

/-- The warm pass ends (R312 steps 5 and 6, R313). -/
def State.switchDone (s : State) (k : Nat) : State :=
  let sides := s.switchSides k
  match fmGet s.clc.switching k with
  | none => s
  | some x =>
    if !x.drained then s
    else if sides.any fun j => s.switchCells j < s.mdlMin x.model then
      sides.foldl (fun s j => ((s.switchEnd j 4 3).orWord rClcIrq 8).fault 0x12 3 mClicker j 0) s
    else
      let (s, e) := if x.resOnly then (s, 0) else s.warmPass x.model
      if e ≠ 0 then sides.foldl (fun s j => s.switchEnd j 1 e) s
      else
        let s := sides.foldl (fun s j =>
          let n := s.switchCells j
          let s := (s.switchEnd j 2 1).setFld (rClick j 4) 12 4 n
          let s := (s.setFld (rClick j 4) 26 22 x.model).setBit (rClick j 4) 27 true
          s.setFld (rModel x.model 0) 15 8 (s.fld (rModel x.model 0) 15 8 + 1)) s
        (s.useModel x.model).slcRealloc

def execSwitchDone (click : Fin 64) (s : State) : Host.Outcome State Fault Refusal := .next (s.switchDone click)

end Sys2Proof.Machine
end

