-- ==== Sys2Proof/Machine/MemOps.lean ====
section
/-! DEFINITION. Commands on memory: reads, writes and scrubbing with the errors they meet (12_memory.md R394 to R411). -/

namespace Sys2Proof.Machine

/-- An error of the SLC at an address of HBM or LPDDR (R408): a record of KIND SLC. -/
def State.slcRecord (s : State) (type cls a : Nat) (m : Master) (syn : Nat) (known : Bool) : State :=
  s.memRecord type 2 (s.slcHalf a) cls (if known then a / 8 * 8 else 0) m.toNat (if known then s.owner a else 0x7F)
    (if known then s.memFlags a else 8) syn

/-- Count k of the SLC half of an address (R411): 0 CE, 1 UE, 2 refetch, 3 tag. -/
def State.slcCount (s : State) (a k : Nat) : State := s.bump (rMem (0xC0 + s.slcHalf a * 16 + 4 * k))

/-- A correctable error of the SLC at an address of HBM or LPDDR: counted, class C, and recorded unless its word has a record less
than 1 s old (R408, R410). -/
def State.slcCE (s : State) (a : Nat) (m : Master) (syn : Nat) : State :=
  let k := ceKey 2 (s.slcHalf a)
  let g := a / 8 * 8
  let past := fmGetD [] s.mc.ceLog k
  let s := s.slcCount a 0
  let s :=
    if past.any fun p => decide (p.1 = g) && decide (s.now < p.2 + 4000000000) then s.bump (rMem 0x34)
    else (({ s with mc.ceLog := fmPut s.mc.ceLog k (((g, s.now) :: past).take 64) }).slcRecord 1 2 a m syn true).orWord (rMem 0) 1
  s.faultAt 0x14 2 m (s.slcHalf a) 0 1 a

/-- A line whose address cannot be named is lost: 64 bytes somewhere in HBM read as open values from then on (R408). -/
def State.loseLine (s : State) : State :=
  let (a, s) := s.takeFree
  let (l, s) := s.freeBytes 64
  s.store (hbmBase + a % (s.hbmBytes / 64) * 64) l

/-- What a read meets on its way (R397, R399, R408), at one address: 0 nothing, 1 CE, 2 UE, 3 link corrected, 4 three link
failures, 5 SLC UE in a clean line, 6 SLC UE in a dirty line, 7 SLC tag of a clean line, 8 SLC tag of a dirty line, 9 SLC CE,
10 on-die ECC correction of HBM. The flag says that the reader receives poison without the granule being poisoned. -/
def State.readError (s : State) (m : Master) (a err syn : Nat) : State × Bool :=
  let k := s.addrKind a
  let isHbm := decide (k = .hbm)
  let isLp := match k with | .lpddr _ _ => true | _ => false
  let (_, unit) := s.memUnit a
  match err with
  | 1 => (if s.inlineOff a then s else s.memCE 1 a m 1 syn, false)
  | 2 => (if s.inlineOff a || s.poison.contains (granOf a) then s else s.memUE 4 a m 1 syn, false)
  | 3 => (if isLp then s.bumpSat (rMem (0x8C + unit * 16)) 15 0 else s, false)
  | 4 =>
    if !isLp then (s, false)
    else
      let s := ((s.memRecordAt 7 1 a m.toNat syn).orWord (rMem 0) 0x10).bumpSat (rMem (0x8C + unit * 16)) 31 16
      (s.faultAt 0x14 1 m unit 0 1 (granOf a), true)
  | 5 => (if isHbm || isLp then (s.slcCount a 2).faultAt 0x14 2 m (s.slcHalf a) 0 1 a else s, false)
  | 6 =>
    if !(isHbm || isLp) then (s, false)
    else
      let cls := s.ueClass a
      let s := ((s.poisonGran a m).slcRecord 4 cls a m syn true).slcCount a 1
      ((s.orWord (rMem 0) 2).faultAt 0x14 cls m (s.slcHalf a) 0 1 a, false)
  | 7 =>
    if !(isHbm || isLp) then (s, false)
    else (((s.slcRecord 9 2 a m syn true).slcCount a 3).orWord (rMem 0) 0x80 |>.faultAt 0x14 2 m (s.slcHalf a) 0 1 a, false)
  | 8 =>
    if !(isHbm || isLp) then (s, false)
    else (((s.slcRecord 9 4 a m syn false).slcCount a 3).orWord (rMem 0) 0x80 |>.loseLine |>.faultAt 0x14 4 m (s.slcHalf a) 0 1 0, false)
  | 9 =>
    if !(isHbm || isLp) then (s, false)
    else (s.slcCE a m syn, false)
  | 10 => (if isHbm then s.bump (rMem (0x4C + unit * 16)) else s, false)
  | _ => (s, false)

/-- An access to the tile-store window of a cell under substitution is held (R31): none when it is not. -/
def State.holdTile (s : State) (m : Master) (write : Bool) (a n : Nat) (l : List Byte) (bad : Bool) : Option State :=
  match s.addrKind a with
  | .tile c =>
    if s.cel.held.contains c && !s.panelGated (c / 16) then
      some { s with heldAcc := s.heldAcc ++ [HeldAcc.mk c m.toNat write a n l bad none], resp := ⟨false, false, []⟩ }
    else none
  | _ => none

/-- A read of n bytes of storage at physical address a, with an error at offset off. -/
def State.readPa (s : State) (m : Master) (a n err off syn : Nat) : State :=
  let (s, link) := if off < n then s.readError m (a + off) err syn else (s, false)
  let (s, l, bad) := s.windowRead m a n
  let s := if bad || link then s.hartPoison m 1 a else s
  { s with resp := ⟨mKind m = 1 && (bad || link), bad || link, l⟩ }

/-- A read of stored bytes (R399): n bytes within a page, an error at offset off. -/
def State.memoryRead (s : State) (m : Master) (inst : Option (Fin 64)) (va n err off syn : Nat) : State :=
  match s.xlat inst m 1 va with
  | (s, none) => s.respErr
  | (s, some a) =>
    match s.holdTile m false a n [] false with
    | some s => s
    | none =>
      match s.mapAnswer m false a with
      | .served => if !(s.addrKind a).isStorage then s else s.readPa m a n err off syn
      | ans => s.mapRefuse m 1 a ans

def execMemoryRead (m : Master) (inst : Option (Fin 64)) (addr : BitVec 64) (len : Fin 4097) (err : Fin 11) (off : Fin 4096)
    (syn : BitVec 16) (s : State) : Host.Outcome State Fault Refusal :=
  .next (s.memoryRead m inst addr.toNat len err off syn.toNat)

/-- A write of bytes to storage at physical address a (R400, R612); the granule at offset off, written in part, may hold a
correctable (1) or uncorrectable (2) error. -/
def State.writePa (s : State) (m : Master) (a : Nat) (l : List Byte) (bad : Bool) (err off syn : Nat) : State :=
  if !isFwpModel m && s.winMeets a l.length then (s.winFault m 1 0 2 a).respErr
  else
    let g := granOf (a + off)
    let partly := decide (off < l.length) && !(decide (a ≤ g) && decide (g + granSize g ≤ a + l.length)) && !s.inlineOff g
    let s := if !partly || s.poison.contains g then s
      else if err = 1 then s.memCE 3 g m 2 syn
      else if err = 2 then s.poisonGran g m
      else s
    (s.memPut m a l bad).respOk []

/-- A write of stored bytes (R400). -/
def State.memoryWrite (s : State) (m : Master) (inst : Option (Fin 64)) (va : Nat) (l : List Byte) (bad : Bool) (err off syn : Nat) :
    State :=
  match s.xlat inst m 2 va with
  | (s, none) => s.respErr
  | (s, some a) =>
    match s.holdTile m true a l.length l bad with
    | some s => s
    | none =>
      match s.mapAnswer m true a with
      | .served => if !(s.addrKind a).isStorage then s else s.writePa m a l bad err off syn
      | ans => s.mapRefuse m 2 a ans

def execMemoryWrite (m : Master) (inst : Option (Fin 64)) (addr : BitVec 64) (data : List Byte) (poison : Bool) (err : Fin 3)
    (off : Fin 4096) (syn : BitVec 16) (s : State) : Host.Outcome State Fault Refusal :=
  .next (s.memoryWrite m inst addr.toNat data poison err off syn.toNat)

/-! Patrol scrubbing (R402, R403). -/

/-- Period register, period in minutes and granules of a pass: 0 HBM, 1 LPDDR, 2 SLC and island SRAM. -/
def State.scrubPeriod (s : State) (k : Nat) : Nat := s.fld (rMem (0x10 + 4 * k)) (if k = 2 then 5 else 10) 0
def State.scrubTotal (s : State) (k : Nat) : Nat :=
  match k with
  | 0 => s.hbmBytes / 32
  | 1 => ((List.range 16).foldl (fun n r => if s.lpEcc r then n + s.lpUsable r else n) 0) / 32
  | _ => (2 ^ 28 + 2 ^ 23) / 8

/-- The kind of storage of an address, for the scrubber. -/
def State.scrubKind (s : State) (a : Nat) : Option Nat :=
  match s.addrKind a with
  | .hbm => some 0
  | .lpddr r _ => if s.lpEcc r then some 1 else none
  | .slc | .sram => some 2
  | _ => none

/-- The storage of an address is in self-refresh. -/
def State.inSelfRef (s : State) (a : Nat) : Bool :=
  match s.addrKind a with
  | .hbm => bitOf s.mc.selfRef (hbmStack a)
  | .lpddr r d => bitOf s.mc.selfRef (4 + s.lpCtrl r d)
  | _ => false

/-- One granule more of a pass is done. -/
def State.scrubStep (s : State) (k : Nat) : State :=
  let n := s.mc.scrubPos.getD k 0 + 1
  let total := max 1 (s.scrubTotal k)
  if n ≥ total then
    let s := { s with mc.scrubPos := setAt s.mc.scrubPos k 0, mc.scrubStart := setAt s.mc.scrubStart k s.now }
    (s.setFld (rMem 0x20) (8 * k + 7) (8 * k) 0).setBit (rMem 0x20) (24 + k) false
  else { s with mc.scrubPos := setAt s.mc.scrubPos k n }.setFld (rMem 0x20) (8 * k + 7) (8 * k) (256 * n / total)

/-- A latent uncorrectable error (R403). -/
def State.latentUE (s : State) (a syn : Nat) : State :=
  let cls := s.ueClass a
  let (kind, unit) := s.memUnit a
  let s := s.poisonGran a mScrub
  let s := if kind < 2 then s.bump (memCntBase kind unit + 8) else if kind = 2 then s.bump (memCntBase kind unit + 4) else s
  ((s.memRecordAt 5 cls a mScrub.toNat syn).orWord (rMem 0) 4).faultAt 0x15 cls mScrub unit 0 1 (granOf a)

/-- The scrubber reads a granule and finds nothing (0), a correctable (1) or an uncorrectable error (2). -/
def State.scrubRead (s : State) (a err syn : Nat) : State :=
  match s.scrubKind a with
  | none => s
  | some k =>
    if s.scrubPeriod k = 0 || s.inSelfRef a then s
    else
      let s := if s.poison.contains (granOf a) then s
        else if err = 1 then s.memCE 2 a mScrub 1 syn else if err = 2 then s.latentUE a syn else s
      s.scrubStep k

def execScrubRead (addr : BitVec 64) (err : Fin 3) (syn : BitVec 16) (s : State) : Host.Outcome State Fault Refusal :=
  .next (s.scrubRead addr.toNat err syn.toNat)

/-- A pass has not finished within 125 % of its period (R402). -/
def State.scrubLate (s : State) (k : Nat) : State :=
  if s.scrubPeriod k = 0 || s.bit (rMem 0x20) (24 + k) then s
  else
    let s := s.timeTo (s.mc.scrubStart.getD k 0 + 60000000000 * s.scrubPeriod k * 5)
    let s := ((s.setBit (rMem 0x20) (24 + k) true).memRecord 10 k 0 1 0 mScrub.toNat 0x7F 0 0).orWord (rMem 0) 0x40
    s.fault 0x15 1 mScrub k 0

def execScrubLate (kind : Fin 3) (s : State) : Host.Outcome State Fault Refusal := .next (s.scrubLate kind)

end Sys2Proof.Machine
end

