-- ==== Sys2Proof/Machine/Awl.lean ====
section
/-! DEFINITION. Injections of the Awl (15_safety.md R507, R508). -/

namespace Sys2Proof.Machine

/-- What a SEC-DED or symbol checker makes of the inverted check bits: 0 no error, 1 corrected, 2 uncorrectable (R507: two bits
are uncorrectable). -/
def injKind (bits : Nat) : Nat := min 2 (popCount 16 bits)

/-- An ECC check of SOURCE at UNIT, with check bits of which some are inverted: none where that source has no such checker, or
the check at hand is not of that unit (log 260). -/
def State.injectEcc (s : State) (src unit bits : Nat) (m : Master) (a : Nat) : Option State :=
  let k := injKind bits
  match src with
  | 0x11 => if unit < 256 then some (s.storageErr unit 0 k (a % tsTop / 8)) else none
  | 0x14 =>
    if (s.memUnit a).2 = unit && (s.addrKind a).isStorage && !s.inlineOff a then
      some (s.readPa m (granOf a) (granSize a) k 0 bits)
    else none
  | 0x15 => if (s.memUnit a).2 = unit && (s.scrubKind a).isSome then some (s.scrubRead a k bits) else none
  | 0x17 | 0x18 =>
    if unit < 256 && s.bit (rLedger unit 0x14) 0 then
      some (if k = 0 then s else if k = 1 then s.fault 0x18 2 mAudit unit 0 else s.ledgerInvalid unit)
    else none
  | 0x1B => if unit < 4096 then some (if k = 0 then s else s.phxEcc unit k) else none
  | 0x1D =>
    match s.wpe.run with
    | some r => if r.expanded then none else
        some (if k = 0 then s else if k = 1 then s.fault 0x1D 2 (mWpe 0) 0 0 else s.endRun r 8)
    | none => none
  | 0x28 =>
    some (if k = 0 then s else if k = 1 then s.fault 0x28 2 mCollector 0 0
      else (s.setBit rFltState 10 true).fault 0x28 4 mCollector 0 0)
  | _ => none

/-- The comparison of Twiwin-L entry t with bit b of the B-side digest inverted: none where no two digests are at hand. -/
def State.injectTwl (s : State) (t b : Nat) : Option State :=
  let cfg := s.word (rTwn (0x1000 + t * 0x40))
  if t ≥ 64 || !bitOf cfg 31 then none
  else
    let slot := bitsOf cfg 11 0
    let mine := s.twn.digests.filter fun (d : Digest) => d.slot = slot
    match mine.findSome? fun (d : Digest) =>
      (mine.find? fun (e : Digest) => e.seq = d.seq && e.ckpt = d.ckpt && e.side && !d.side) with
    | none => none
    | some e =>
      let flip := s.twn.digests.map fun (d : Digest) => if d = e then { d with digest := d.digest ^^^ 2 ^ b } else d
      match execDigestCompare (Fin.ofNat 4096 slot) { s with twn := { s.twn with digests := flip } } with
      | .next t => some t
      | _ => none

/-- The audit at hand ends with the held term of ledger g one more than its counter. -/
def State.injectLedger (s : State) (g : Nat) : Option State :=
  if g ≥ 256 || s.fab.audit.isNone || !s.fab.links.isEmpty || !s.cel.held.isEmpty || !s.audited g then none
  else
    let k := fmGetD 0 s.fab.skew g
    match execAuditComplete { s with fab.skew := fmPut s.fab.skew g (k + 1) } with
    | .next t => some { t with fab.skew := if k = 0 then fmDel t.fab.skew g else fmPut t.fab.skew g k }
    | _ => none

/-- What AWL_INJECT_TARGET asks for happens, when it can; none where it names nothing that can. -/
def State.injectTarget (s : State) (m : Master) (addr point pc : Nat) : Option State :=
  let t := s.word64 (rAwl 8)
  let src := bitsOf t 15 8
  let unit := bitsOf t 31 16
  let b := bitsOf t 47 32
  match t % 16 with
  | 0 => s.injectEcc src unit b m addr
  | 1 => if unit < 6 && s.pairState unit = 2 then some (s.mismatch unit point (b % 2048) pc true) else none
  | 2 => s.injectTwl unit (b % 128)
  | 3 => s.injectLedger unit
  | _ => none

/-- AWL_INJECTION: the named checker makes its next check, by master m at address a, or at comparison point and instruction of a
pair. Where it makes none, nothing happens. -/
def execAwlInjection (m : Master) (addr : BitVec 64) (point : Fin 4) (pc : BitVec 32) (s : State) :
    Host.Outcome State Fault Refusal :=
  if !s.bit (rAwl 4) 3 then .next s
  else
    match ({ s with awl.inj := true } : State).injectTarget m addr.toNat point pc.toNat with
    | none => .next s
    | some t => .next ({ t with awl.inj := false } : State).awlPerformed

end Sys2Proof.Machine
end

