-- ==== Sys2Proof/Machine/Ptp.lean ====
section
/-! DEFINITION. The PTP hardware clocks and the PPS pins (17_network_and_time.md R563 to R569, R640). -/

namespace Sys2Proof.Machine

def rPtp (o : Nat) : Nat := blkBase bPTP + o
def rPtpIrq : Nat := rPtp 0

def State.pclk (s : State) (c : Nat) : PtpClk := s.ptp.clk.getD c .reset
def State.modPclk (s : State) (c : Nat) (f : PtpClk → PtpClk) : State := { s with ptp.clk := modAt s.ptp.clk c f }

/-- Interrupt i of clock c. -/
def State.ptpIrq (s : State) (c i : Nat) : State := s.orWord rPtpIrq (2 ^ (8 * c + i))

/-- A refused write or rejected step is counted. -/
def State.ptpCount (s : State) (c : Nat) : State := s.bump (rPtpClk c 0x50)

/-- The time of a clock in units of 2^-32 ns. -/
def State.ptpQ (s : State) (c : Nat) : Nat := 2 ^ 32 * s.ptpNs c + s.ptpFrac c

/-- A clock set to a time in units of 2^-32 ns; SEC wraps at 2^48. -/
def State.setPtpQ (s : State) (c q : Nat) : State :=
  let ns := q / 2 ^ 32
  let sec := ns / 1000000000
  ((s.setWord (rPtpClk c 0x10) (q % 2 ^ 32)).setFld (rPtpClk c 0x14) 29 0 (ns % 1000000000)).setWord (rPtpClk c 0x18) sec
    |>.setFld (rPtpClk c 0x1C) 15 0 (sec / 2 ^ 32)

/-- A time stamp on clock c (R556): ns to add and fraction; all zero with VALID 0 on a clock that does not run (R640). -/
def State.ptpStamp (s : State) (c : Nat) (q : Nat) : List Byte :=
  let steps := s.fld (rPtpClk c 4) 15 8
  if s.ptpOn c then
    let ns := q / 2 ^ 32
    leBytes 4 (q % 2 ^ 32) ++ leBytes 4 (ns % 1000000000) ++ leBytes 6 (ns / 1000000000) ++ leBytes 1 steps ++ leBytes 1 (c + 128)
  else zeroBytes 14 ++ leBytes 1 steps ++ leBytes 1 c

/-- Increment limits (R563): 7.0 and 9.0 ns. -/
def incMin : Nat := 7 * 2 ^ 32
def incMax : Nat := 9 * 2 ^ 32

/-- What the slew adds up to after tick k (R564). -/
def slewDue (ofs : Int) (ticks k : Nat) : Int := ofs * (2 ^ 32 : Nat) * k / ticks

/-- PTP_CLOCK_TICK (R563, R564): one PTP_CLK edge of a running clock. -/
def execPtpClockTick (clk : Fin 4) (s : State) : Host.Outcome State Fault Refusal :=
  let c := clk.val
  if !s.ptpOn c then .next s
  else
    let k := s.pclk c
    let s := match k.incPend with
      | some v => (s.setWord64 (rPtpClk c 8) v).modPclk c fun x => { x with incPend := none }
      | none => s
    let inc := s.word64 (rPtpClk c 8)
    let slewing := k.slewOn && decide (k.slewK < k.slewTicks)
    let due := if slewing then slewDue k.slewOfs k.slewTicks (k.slewK + 1) else k.slewDone
    let add : Int := (inc : Int) + (due - k.slewDone)
    let s := if slewing then s.modPclk c fun x => { x with slewK := x.slewK + 1, slewDone := due } else s
    .next ((s.setPtpQ c (s.ptpQ c + add.toNat)).timeAxes c false)

/-- PTP_SLEW_DONE (R564): the last tick has completed the offset. -/
def execPtpSlewDone (clk : Fin 4) (s : State) : Host.Outcome State Fault Refusal :=
  let c := clk.val
  let k := s.pclk c
  if !(k.slewOn && decide (k.slewK = k.slewTicks)) then .next s
  else .next (((s.modPclk c fun x => { x with slewOn := false }).setBit (rPtpClk c 4) 1 false).ptpIrq c 3)

/-- Who may write clock c (R567): FWP-NET and the safety island every register, the owner instance the timing registers. -/
def State.ptpWriter (s : State) (m : Master) (inst : Option (Fin 64)) (c : Nat) (ctrl : Bool) : Bool :=
  match inst with
  | some i => !ctrl && s.bit (rPtpClk c 0) 14 && decide (s.fld (rPtpClk c 0) 13 8 = i.val)
  | none => m == mFwp 3 || s.isIsland m

/-- PTP_CLK_INC_WRITE (R563, R640). -/
def execPtpClkIncWrite (m : Master) (inst : Option (Fin 64)) (clk : Fin 4) (v : BitVec 64) (s : State) :
    Host.Outcome State Fault Refusal :=
  let c := clk.val
  if !s.ptpWriter m inst c false then .next (s.refuse m 2 (rPtpClk c 8))
  else
    let s := s.respOk []
    let v := v.toNat % 2 ^ 36
    if !s.ptpOn c || v < incMin || incMax < v then .next (s.ptpCount c)
    else .next (s.modPclk c fun x => { x with incPend := some v })

/-- PTP_CLK_ADJ_WRITE (R564, R640): OFFSET in [31:0], TICKS in [63:32]. The increment in force is the one that the next edge
uses. -/
def execPtpClkAdjWrite (m : Master) (inst : Option (Fin 64)) (clk : Fin 4) (v : BitVec 64) (s : State) :
    Host.Outcome State Fault Refusal :=
  let c := clk.val
  if !s.ptpWriter m inst c false then .next (s.refuse m 2 (rPtpClk c 0x38))
  else
    let s := s.respOk []
    let ofs := toSigned 32 v.toNat
    let ticks := v.toNat / 2 ^ 32
    let inc := (s.pclk c).incPend.getD (s.word64 (rPtpClk c 8))
    let f : Int := ofs * (2 ^ 32 : Nat)
    let tot : Int := (inc * ticks : Nat) + f
    if !s.ptpOn c || ticks = 0 || decide (2000 * f.natAbs > ticks * inc) || decide (tot < (incMin * ticks : Nat)) ||
        decide (tot > (incMax * ticks : Nat)) then .next (s.ptpCount c)
    else
      .next ((s.modPclk c fun x =>
        { x with slewOn := true, slewOfs := ofs, slewTicks := ticks, slewK := 0, slewDone := 0 }).setBit (rPtpClk c 4) 1 true)

/-- A step held as pending (R565). -/
def State.ptpHold (s : State) (c : Nat) (d : Int) (m : Master) : State :=
  ((s.setWord64 (rPtpClk c 0x40) (ofSigned 64 d)).setBit (rPtpClk c 4) 0 true).ptpIrq c 0 |>.fault 0x20 1 m c 0

/-- The pending step ends. -/
def State.ptpUnhold (s : State) (c : Nat) : State := (s.setWord64 (rPtpClk c 0x40) 0).setBit (rPtpClk c 4) 0 false

/-- A further step or set is ignored: while one is pending, or while one awaits its edge (R565). -/
def State.ptpBlocked (s : State) (c : Nat) : Option State :=
  if s.bit (rPtpClk c 4) 0 then some (s.ptpIrq c 2)
  else if (s.pclk c).step.isSome || (s.pclk c).set.isSome then some ((s.ptpIrq c 2).ptpCount c)
  else none

/-- PTP_CLK_STEP_WRITE (R565, R640). -/
def execPtpClkStepWrite (m : Master) (inst : Option (Fin 64)) (clk : Fin 4) (v : BitVec 64) (s : State) :
    Host.Outcome State Fault Refusal :=
  let c := clk.val
  if !s.ptpWriter m inst c false then .next (s.refuse m 2 (rPtpClk c 0x20))
  else
    let s := s.respOk []
    let d := v.toInt
    if !s.ptpOn c then .next (s.ptpCount c)
    else if d = 0 then .next s
    else
      match s.ptpBlocked c with
      | some s => .next s
      | none =>
        if d.natAbs ≤ s.word (rPtpClk c 0x34) then .next (s.modPclk c fun x => { x with step := some d, who := m.toNat })
        else .next (s.ptpHold c d m)

/-- PTP_CLK_SET (R566, R640): the write of PTP_CLK_SET_NS. -/
def execPtpClkSet (m : Master) (inst : Option (Fin 64)) (clk : Fin 4) (ns : BitVec 30) (s : State) :
    Host.Outcome State Fault Refusal :=
  let c := clk.val
  if !s.ptpWriter m inst c false then .next (s.refuse m 2 (rPtpClk c 0x30))
  else
    let s := s.respOk []
    if !s.ptpOn c then .next (s.ptpCount c)
    else
      match s.ptpBlocked c with
      | some s => .next s
      | none =>
        if ns.toNat ≥ 1000000000 then .next ((s.ptpIrq c 2).ptpCount c)
        else .next (s.modPclk c fun x => { x with set := some (s.word64 (rPtpClk c 0x28) % 2 ^ 48, ns.toNat), who := m.toNat })

/-- ACCEPT (R565): for the register write and for the mailbox command. -/
def State.ptpAccept (s : State) (c : Nat) : State :=
  if s.bit (rPtpClk c 4) 0 then
    s.modPclk c fun x => { x with step := some (toSigned 64 (s.word64 (rPtpClk c 0x40))) }
  else s.ptpCount c

/-- REJECT (R565). -/
def State.ptpReject (s : State) (c : Nat) : State :=
  if s.bit (rPtpClk c 4) 0 then ((s.ptpUnhold c).modPclk c fun x => { x with step := none }).ptpCount c else s.ptpCount c

def execAccept (m : Master) (inst : Option (Fin 64)) (clk : Fin 4) (both : Bool) (s : State) : Host.Outcome State Fault Refusal :=
  if !s.ptpWriter m inst clk true then .next (s.refuse m 2 (rPtpClk clk 0x48))
  else if both then .next ((s.ptpCount clk).respOk [])
  else .next ((s.ptpAccept clk).respOk [])

def execReject (m : Master) (inst : Option (Fin 64)) (clk : Fin 4) (s : State) : Host.Outcome State Fault Refusal :=
  if !s.ptpWriter m inst clk true then .next (s.refuse m 2 (rPtpClk clk 0x48)) else .next ((s.ptpReject clk).respOk [])

/-! Gate schedules that follow a clock (R558, R559): the entry in force at a position of the cycle. -/

/-- The entry of a gate list at a position, the last one to the end of the cycle. -/
def gateEntry : List (Nat × Nat) → Nat → Nat → Nat
  | [], _, i => i
  | [_], _, i => i
  | p :: r, pos, i => if pos < p.2 then i else gateEntry r (pos - p.2) (i + 1)

/-- The cycle position of a port: (t - BASE_TIME) mod CYCLE. -/
def State.gatePos (s : State) (port : Nat) : Nat :=
  let cyc := fmGetD 0 s.eth.operCycle port
  let t : Int := if s.ptpOn (s.fld (rEthPort port 0) 13 12) then s.ptpNs (s.fld (rEthPort port 0) 13 12) else 0
  if cyc = 0 then 0 else ((t - (fmGetD 0 s.eth.operBase port : Nat)) % (cyc : Int)).toNat

/-- The entry that the position calls for. -/
def State.gateNow (s : State) (port : Nat) : Nat := gateEntry (fmGetD [] s.eth.oper port) (s.gatePos port) 0

/-- The gates of a port take the entry of the position. -/
def State.gateFollow (s : State) (port : Nat) : State :=
  { s with eth.gateIdx := fmPut s.eth.gateIdx port (s.gateNow port) }

/-- An accepted step moves the schedules on the clock (R559). -/
def State.gatesStep (s : State) (c : Nat) : State :=
  (List.range 14).foldl (fun s p =>
    if decide (s.fld (rEthPort p 0) 13 12 = c) && (fmGetD [] s.eth.oper p).length > 0 then
      (s.gateFollow p).bump (rEthPort p 0x94)
    else s) s

/-- A step or set is applied (R565, R566): the new time in units of 2^-32 ns. -/
def State.ptpApplied (s : State) (c : Nat) (q : Int) : State :=
  if q < 0 || decide (q ≥ (2 ^ 32 * (2 ^ 48 * 1000000000) : Nat)) then (s.setBit (rPtpClk c 4) 3 true).ptpIrq c 2
  else
    let s := (s.setPtpQ c q.toNat).setBit (rPtpClk c 4) 3 false
    let s := (s.setFld (rPtpClk c 4) 15 8 (s.fld (rPtpClk c 4) 15 8 + 1)).bump (rPtpClk c 0x4C)
    ((s.ptpIrq c 1).timeAxes c true).gatesStep c

/-- PTP_STEP_APPLY (R565, R566): an accepted step, or a set, at its edge. -/
def execPtpStepApply (clk : Fin 4) (s : State) : Host.Outcome State Fault Refusal :=
  let c := clk.val
  let k := s.pclk c
  let s := s.modPclk c fun x => { x with step := none, set := none }
  match k.step with
  | some d =>
    let s := s.ptpUnhold c
    .next (s.ptpApplied c ((s.ptpQ c : Int) + d * (2 ^ 32 : Nat)))
  | none =>
    match k.set with
    | none => .next s
    | some (sec, ns) =>
      let t := 1000000000 * sec + ns
      let d : Int := (t : Int) - s.ptpNs c
      if !s.bit (rPtpClk c 4) 2 then .next ((s.setBit (rPtpClk c 4) 2 true).ptpApplied c (2 ^ 32 * t : Nat))
      else if d = 0 then .next s
      else if d.natAbs > s.word (rPtpClk c 0x34) then .next (s.ptpHold c d (BitVec.ofNat 16 k.who))
      else .next (s.ptpApplied c (2 ^ 32 * t : Nat))

/-- PPS_OUT_PULSE (R569): the clock has reached a whole second plus OFFSET that has not pulsed yet. -/
def execPpsOutPulse (s : State) : Host.Outcome State Fault Refusal :=
  let cfg := s.word (rPtp 0x10)
  let c := cfg % 4
  let ofs := s.fld (rPtp 0x14) 29 0
  let t := s.ptpNs c
  if !bitOf cfg 2 || !s.ptpOn c || ofs ≥ 1000000000 || t < ofs then .next s
  else
    let target := 1000000000 * ((t - ofs) / 1000000000) + ofs
    if target ≤ s.ptp.ppsFrom then .next s
    else .next (({ s with ptp.ppsFrom := target }.emit (.pin ballPps true)).emit (.pin ballPps false))

/-- PPS_IN_EDGE (R569): the level of PPS_IN changes; a selected edge is stamped with 1 ns resolution. -/
def execPpsInEdge (level : Bool) (s : State) : Host.Outcome State Fault Refusal :=
  let cfg := s.word (rPtp 0x18)
  if s.ptp.ppsIn = level then .next s
  else
    let s := { s with ptp.ppsIn := level }
    if !bitOf cfg 2 || level = bitOf cfg 3 then .next s
    else .next ((s.setRegBytes (rPtp 0x20) (s.ptpStamp (cfg % 4) (2 ^ 32 * s.ptpNs (cfg % 4)))).orWord rPtpIrq 0x80)

end Sys2Proof.Machine
end

