-- ==== Sys2Proof/Machine/EthBase.lean ====
section
/-! DEFINITION. What the network blocks share: frame fields, host channels and the receive side of a channel
(17_network_and_time.md R553 to R556, R570). -/

namespace Sys2Proof.Machine

/-- FWP-NET or the safety island (R579, R581). -/
def State.netMaster (s : State) (m : Master) : Bool := m == mFwp 3 || s.isIsland m
def netReader (m : Master) : Bool := m == mFwp 3 || isIslandAny m

def rChan (c o : Nat) : Nat := rEth (0x3000 + c * 0x20 + o)
def rCan (n o : Nat) : Nat := blkBase bCAN + 0x1000 + 0x100 * n + o

/-! Frame fields. -/

/-- The frame carries an 802.1Q tag. -/
def fTagged (f : List Byte) : Bool := beAt f 12 2 == 0x8100
/-- VID of a frame, 0 untagged; PCP likewise. -/
def fVid (f : List Byte) : Nat := if fTagged f then beAt f 14 2 % 4096 else 0
def fPcp (f : List Byte) : Nat := if fTagged f then beAt f 14 2 / 8192 else 0
/-- Offset of the EtherType. -/
def fTypeOff (f : List Byte) : Nat := if fTagged f then 16 else 12
def fType (f : List Byte) : Nat := beAt f (fTypeOff f) 2
/-- DA and SA, first byte on the wire most significant. -/
def fDa (f : List Byte) : Nat := beAt f 0 6
def fSa (f : List Byte) : Nat := beAt f 6 6
def fMcast (f : List Byte) : Bool := bitOf (fDa f) 40

/-- Offset of the UDP header of an IPv4 or IPv6 frame. -/
def fUdp (f : List Byte) : Option Nat :=
  let o := fTypeOff f + 2
  if fType f = 0x0800 && beAt f (o + 9) 1 == 17 then some (o + beAt f o 1 % 16 * 4)
  else if fType f = 0x86DD && beAt f (o + 6) 1 == 17 then some (o + 40)
  else none

/-- Destination port. -/
def fUdpPort (f : List Byte) : Option Nat := (fUdp f).map fun u => beAt f (u + 2) 2

/-- The payload of a flow frame: after the UDP header, as long as the header says, or after the EtherType (R80). -/
def fFlowPayload (f : List Byte) : List Byte :=
  match fUdp f with
  | some u => let n := beAt f (u + 4) 2; if 8 ≤ n ∧ u + n ≤ f.length then (f.drop (u + 8)).take (n - 8) else f.drop (u + 8)
  | none => f.drop (fTypeOff f + 2)

/-! Stamps of a MAC (R570): the clock's time when the first bit crosses the ball, with the board's correction. -/

/-- The stamp of a port now: ns and fraction with a signed correction of 2^-16 ns from ETH_PORT_TSCORR. -/
def State.macTime (s : State) (port : Nat) (ingress : Bool) : Nat :=
  let c := s.fld (rEthPort port 0) 13 12
  let corr := toSigned 32 (s.word (rEthPort port (if ingress then 0xC else 8)))
  ((s.ptpQ c : Int) + 65536 * corr).toNat

def State.macStamp (s : State) (port : Nat) (ingress : Bool) : List Byte :=
  s.ptpStamp (s.fld (rEthPort port 0) 13 12) (s.macTime port ingress)

/-! Host channels (R554, R555). -/

/-- Entry fields. -/
def eFlags (ts can trunc poison done : Bool) : Nat := b2n ts + 2 * b2n can + 4 * b2n trunc + 8 * b2n poison + 16 * b2n done

/-- A received frame or CAN buffer is written to a channel's owner: port, VID, stamp. -/
def State.chanRx (s : State) (c : Nat) (can : Bool) (data : List Byte) (poison : Bool) (port vid : Nat) (stamp : List Byte) : State :=
  let own := s.fld (rChan c 0) 5 0
  let i := asInst own
  let fq := s.word (rChan c 8) % 2 ^ 19
  match fmGet s.hqm.queues fq with
  | none => s.bump (rEth (0x3800 + c * 4))
  | some x =>
    if x.count = 0 || x.faulted then s.bump (rEth (0x3800 + c * 4))
    else
      match s.rdV i mHqm 1 (x.base + x.head % x.size * x.entryBytes) 32 with
      | (s, r) =>
        let s := s.setQueue fq { x with head := (x.head + 1) % 2 ^ 17 }
        let gen := s.instGen own
        let put (s : State) (buf len flags status : Nat) : State :=
          let e := leBytes 8 buf ++ leBytes 2 len ++ leBytes 2 flags ++ leBytes 1 status ++ leBytes 1 port ++ leBytes 2 vid ++ stamp
          let rq := s.word (rChan c 0xC) % 2 ^ 19
          match s.post rq gen e with
          | (s, .full) => { s with hqm.posts := s.hqm.posts ++ [HqmPost.mk rq gen e] }
          | (s, _) => s
        match r with
        | .error _ => put s 0 0 (eFlags false can false false true) 3
        | .ok (e, _) =>
          let buf := leAt e 0 8
          let size := leAt e 8 2
          let l := data.take size
          let trunc := decide (size < data.length)
          match s.wrLong i mHqm buf l poison with
          | (s, none) => put s buf l.length (eFlags false can trunc poison true) 0
          | (s, some _) => put s buf 0 (eFlags false can trunc poison true) 3

/-- The TX entry at HEAD of a channel's TXQ is completed and HEAD advances (R555): status, stamp. -/
def State.chanTxDone (s : State) (c status : Nat) (stamp : List Byte) : State :=
  let i := asInst (s.fld (rChan c 0) 5 0)
  let tq := s.word (rChan c 4) % 2 ^ 19
  match fmGet s.hqm.queues tq with
  | none => s
  | some x =>
    let a := x.base + x.head % x.size * x.entryBytes
    let s := match s.rdV i mHqm 1 a 32 with
      | (s, .ok (e, b)) =>
        let fl := leAt e 0xA 2 ||| 16
        let fl := if status = 2 then fl ||| 8 else fl
        let e := sliceBytes e 0 0xA ++ leBytes 2 fl ++ leBytes 1 status ++ sliceBytes e 0xD 3 ++ sliceBytes stamp 0 16
        (s.wrV i mHqm a e b).1
      | (s, .error _) => s
    match fmGet s.hqm.queues tq with
    | some x => s.setQueue tq { x with head := (x.head + 1) % 2 ^ 17 }
    | none => s

end Sys2Proof.Machine
end

