-- ==== Sys2Proof/Machine/Can.lean ====
section
/-! DEFINITION. CAN controllers and the gateway (17_network_and_time.md R573 to R578, R581). -/

namespace Sys2Proof.Machine

/-! Buffers (R574). -/

def cbId (b : List Byte) : Nat := leAt b 0 4
def cbFmt (b : List Byte) : Nat := leAt b 4 1
def cbData (b : List Byte) : List Byte := (b.drop 16).take (leAt b 6 2)
def cbIde (b : List Byte) : Bool := bitOf (cbId b) 29

/-- Arbitration order: base identifier, IDE, extension. -/
def cbRank (b : List Byte) : Nat :=
  let id := cbId b % 2 ^ 29
  if cbFmt b ≠ 2 && cbIde b then 2 ^ 19 * (id / 2 ^ 18) + 2 ^ 18 + id % 2 ^ 18 else 2 ^ 19 * (id % 2048)

def State.canTx (s : State) (n : Nat) : List CanBuf := fmGetD [] s.can.tx n
def State.canOn (s : State) (n : Nat) : Bool := s.bit (rCan n 0) 0
def State.canFmt (s : State) (n : Nat) : Nat := s.fld (rCan n 0) 2 1
def State.canState (s : State) (n : Nat) : Nat := s.fld (rCan n 0x14) 1 0

/-- A frame dropped at a controller. -/
def State.canDrop (s : State) (n : Nat) : State := s.bump (rCan n 0x24)

/-- A buffer queued on a controller, dropped when its 32 buffers are full. -/
def State.canQueue (s : State) (n : Nat) (b : CanBuf) : State :=
  if (s.canTx n).length ≥ 32 then s.canDrop n else { s with can.tx := fmPut s.can.tx n (s.canTx n ++ [b]) }

/-- A buffer bound for a controller through the gateway (R577): FD of 8 bytes or fewer as classic; what the controller cannot
carry is dropped. -/
def State.canRoute (s : State) (n : Nat) (b : List Byte) : State :=
  if !s.canOn n then s.canDrop n
  else if cbFmt b ≤ s.canFmt n then s.canQueue n ⟨b, 0, 0⟩
  else if cbFmt b = 1 && leAt b 6 2 ≤ 8 then
    s.canQueue n ⟨b.take 4 ++ [(0 : Byte), BitVec.ofNat 8 (leAt b 5 1 / 2 * 2 % 4)] ++ b.drop 6, 0, 0⟩
  else s.canDrop n

/-! Messages of IEEE 1722 (R578; PRESUMED, log 186). -/

/-- An ACF_CAN message with its time stamp. -/
def acfMsg (bus : Nat) (b : List Byte) (ts : Nat) : List Byte :=
  let data := cbData b
  let pad := (4 - data.length % 4) % 4
  let n := (16 + data.length + pad) / 4
  let fl := pad * 64 + 32 + 16 * b2n (bitOf (cbId b) 30) + 8 * b2n (cbIde b) + 4 * b2n (bitOf (leAt b 5 1) 0) +
    2 * b2n (cbFmt b == 1) + b2n (bitOf (leAt b 5 1) 1)
  beBytes 2 (1 * 512 + n) ++ beBytes 1 fl ++ beBytes 1 (bus % 32) ++ beBytes 8 (ts % 2 ^ 64) ++ beBytes 4 (cbId b % 2 ^ 29) ++
    data ++ zeroBytes pad

/-- The CAN buffer of an ACF message, with its bus. -/
def acfBuf (l : List Byte) : Nat × List Byte :=
  let brief := beAt l 0 1 / 2 == 2
  let fl := beAt l 2 1
  let o := if brief then 4 else 12
  let n := beAt l 0 2 % 512 * 4 - (o + 4) - fl / 64
  let id := beAt l o 4 % 2 ^ 29 + 2 ^ 29 * b2n (bitOf fl 3) + 2 ^ 30 * b2n (bitOf fl 4)
  (beAt l 3 1 % 32, leBytes 4 id ++ leBytes 1 (b2n (bitOf fl 1)) ++ leBytes 1 (b2n (bitOf fl 2) + 2 * b2n (bitOf fl 0)) ++
    leBytes 2 n ++ zeroBytes 8 ++ sliceBytes l (o + 4) n)

/-- The ACF messages of a payload: ACF_CAN and ACF_CAN_BRIEF. -/
def acfSplit : Nat → List Byte → List (List Byte)
  | 0, _ => []
  | fuel + 1, l =>
    let n := beAt l 0 2 % 512 * 4
    if l.length < 8 || n < 8 then []
    else if beAt l 0 1 / 2 = 1 || beAt l 0 1 / 2 = 2 then l.take n :: acfSplit fuel (l.drop n)
    else acfSplit fuel (l.drop n)

/-! Gateway streams (R578). -/

def rGws (g o : Nat) : Nat := blkBase bCAN + 0x90000 + g * 0x20 + o

/-- Bytes of a stream's settings. -/
def State.gws (s : State) (g : Nat) : List Byte := s.regBytes (rGws g 0) 32

/-- A frame collected by a stream. -/
def State.acfAdd (s : State) (g : Nat) (msg : List Byte) : State :=
  let l := fmGetD [] s.can.acf g
  let s := if l = [] then { s with can.acfAt := fmPut s.can.acfAt g s.now } else s
  { s with can.acf := fmPut s.can.acf g (l ++ [msg]) }

/-- An NTSCF payload that a stream matches is unpacked (R578). -/
def State.ntscfIn (s : State) (g : Nat) (payload : List Byte) : State :=
  let mask := leAt (s.gws g) 16 2
  (acfSplit 400 payload).foldl (fun s m =>
    let (bus, b) := acfBuf m
    if bus < 16 && bitOf mask bus then s.canRoute bus b else s.canDrop (bus % 16)) s

/-! Reception (R575, R577). -/

def rFilter (n f : Nat) : Nat := blkBase bCAN + 0x10000 + 0x800 * n + f * 0x10
def rGwe (e : Nat) : Nat := blkBase bCAN + 0x80000 + e * 0x10

/-- The first filter that matches: its destination byte. -/
def State.canFilter (s : State) (n : Nat) (b : List Byte) : Option Nat :=
  let id := cbId b % 2 ^ 29
  ((List.range 128).map fun f => s.regBytes (rFilter n f) 16).find? (fun l =>
    let mask := leAt l 4 4
    let k := leAt l 8 1
    bitOf (leAt l 9 1) 7 && decide (id &&& mask = leAt l 0 4 % 2 ^ 29 &&& mask) && decide (cbIde b = bitOf k 0) &&
      bitOf k (1 + cbFmt b)) |>.map fun l => leAt l 9 1

/-- The first gateway entry that matches. -/
def State.gwMatch (s : State) (n : Nat) (b : List Byte) : Option (List Byte) :=
  let id := cbId b % 2 ^ 30
  ((List.range 1024).map fun e => s.regBytes (rGwe e) 16).find? fun l =>
    bitOf (leAt l 13 1) 0 && decide (leAt l 8 1 % 16 = n) && bitOf (leAt l 9 1) (cbFmt b) &&
      decide (id &&& leAt l 4 4 = leAt l 0 4 % 2 ^ 30 &&& leAt l 4 4)

/-- A frame at the gateway (R577). -/
def State.gateway (s : State) (n : Nat) (b : List Byte) (stamp : List Byte) : State :=
  match s.gwMatch n b with
  | none => s.canDrop n
  | some e =>
    let s := (setBitsList 16 (leAt e 10 2)).foldl (fun s d => s.canRoute d b) s
    let g := leAt e 12 1
    let ts := 1000000000 * leAt stamp 8 6 + leAt stamp 4 4
    let s := if g < 64 && cbFmt b ≠ 2 && leAt (s.gws g) 21 1 % 2 = 1 then s.acfAdd g (acfMsg n b ts) else s
    if !bitOf (leAt e 13 1) 1 then s
    else
      match (List.range 64).find? fun c => s.fld (rChan c 0) 7 6 = 2 && s.bit (rChan c 0x18) n with
      | some c => s.chanRx c true b false n 0 stamp
      | none => s

/-- CAN_FRAME_RECEIVE (R575): a valid frame on an enabled controller, of a format that it carries. -/
def execCanFrameReceive (ctrl : Fin 16) (buf : List Byte) (s : State) : Host.Outcome State Fault Refusal :=
  let n := ctrl.val
  if !s.canOn n || s.canFmt n < cbFmt buf then .next s
  else
    let s := s.bump (rCan n 0x28)
    let s := s.travelCan n (cbId buf % 2 ^ 29) (cbFmt buf) (cbIde buf) (cbData buf)
    let c := s.fld (rCan n 0) 7 6
    let t : Int := (s.ptpNs c / 5 * 5 : Nat) + toSigned 32 (s.word (rCan n 0x1C))
    let stamp := s.ptpStamp c (2 ^ 32 * t.toNat)
    match s.canFilter n buf with
    | none => .next (s.canDrop n)
    | some d =>
      if bitOf d 6 then .next (s.gateway n buf stamp)
      else .next (s.chanRx (d % 64) true buf false n 0 stamp)

/-! Transmission (R576). -/

/-- The buffer with the lowest identifier, the oldest of equal ones: its position. -/
def canBest : List CanBuf → Nat → Option (Nat × Nat)
  | [], _ => none
  | b :: r, i =>
    match canBest r (i + 1) with
    | none => some (i, cbRank b.buf)
    | some (j, k) => if cbRank b.buf ≤ k then some (i, cbRank b.buf) else some (j, k)

/-- The error state that follows a transmit error count (R576): passive above 127. -/
def State.canTec (s : State) (n v : Nat) : State :=
  let s := s.setFld (rCan n 0x14) 15 8 (min v 255)
  if s.canState n = 2 then s
  else if v > 127 || s.fld (rCan n 0x14) 23 16 > 127 then
    if s.canState n = 1 then s else (s.setFld (rCan n 0x14) 1 0 1).fault 0x21 1 mCollector n 0
  else s.setFld (rCan n 0x14) 1 0 0

/-- CAN_FRAME_TRANSMIT (R576): outcome 0 sent, 1 arbitration lost, 2 an error. -/
def execCanFrameTransmit (ctrl : Fin 16) (outcome : Fin 3) (s : State) : Host.Outcome State Fault Refusal :=
  let n := ctrl.val
  if !s.canOn n || s.canState n = 2 || s.bit (rCan n 0) 3 || s.bit (rCan n 0) 4 then .next s
  else
    match canBest (s.canTx n) 0 with
    | none => .next s
    | some (i, _) =>
      let b := (s.canTx n).getD i ⟨[], 0, 0⟩
      match outcome.val with
      | 0 =>
        let s := { s with can.tx := fmPut s.can.tx n ((s.canTx n).eraseIdx i) }
        let s := ((s.bump (rCan n 0x2C)).canTec n (s.fld (rCan n 0x14) 15 8 - 1)).emit (.can n b.buf)
        let c := s.fld (rCan n 0) 7 6
        let t : Int := (s.ptpNs c / 5 * 5 : Nat) + toSigned 32 (s.word (rCan n 0x1C))
        .next (if b.txIdx = 0 then s else s.chanTxDone b.chan 0 (s.ptpStamp c (2 ^ 32 * t.toNat)))
      | 1 => .next (s.bumpSat (rCan n 0x20) 31 16)
      | _ => .next ((s.bumpSat (rCan n 0x20) 15 0).canTec n (s.fld (rCan n 0x14) 15 8 + 8))

/-- CAN_BUS_OFF (R576). -/
def execCanBusOff (ctrl : Fin 16) (s : State) : Host.Outcome State Fault Refusal :=
  let n := ctrl.val
  if !s.canOn n || s.canState n = 2 then .next s
  else .next (((s.setFld (rCan n 0x14) 1 0 2).setFld (rCan n 0x14) 15 8 255).fault 0x21 3 mCollector n 1)

/-- CAN_BUS_OFF_RECOVERY (R576): after 128 × 11 recessive bits, with AUTO_RECOVER or on request. -/
def execCanBusOffRecovery (ctrl : Fin 16) (s : State) : Host.Outcome State Fault Refusal :=
  let n := ctrl.val
  if s.canState n ≠ 2 || !(s.bit (rCan n 0) 5 || fmGetD false s.can.recReq n) then .next s
  else .next ({ s with can.recReq := fmDel s.can.recReq n }.setWord (rCan n 0x14) 0)

/-- RECOVER (R581). -/
def execRecover (m : Master) (ctrl : Fin 16) (s : State) : Host.Outcome State Fault Refusal :=
  let n := ctrl.val
  if !s.netMaster m then .next (s.refuse m 2 (rCan n 0x18))
  else if s.canState n ≠ 2 then .next (s.respOk [])
  else .next ({ s with can.recReq := fmPut s.can.recReq n true }.respOk [])

end Sys2Proof.Machine
end

