-- ==== Sys2Proof/Machine/Eth.lean ====
section
/-! DEFINITION. The MACs, the switch, its schedules and tables, and the gateway's Ethernet side
(17_network_and_time.md R550 to R562, R570 to R572, R578, R579). -/

namespace Sys2Proof.Machine

/-! Tables (R579). The layouts are the model's own (log 181). -/

def tblCount (t : Nat) : Nat := [16384, 4095, 1024, 256, 128, 128, 128, 3584, 544].getD t 0

/-- An entry of a table, zeros where nothing was written. -/
def State.tblEntry (s : State) (t i : Nat) : List Byte := fmGetD (zeroBytes 64) s.eth.tbl (65536 * t + i)
def State.setTbl (s : State) (t i : Nat) (l : List Byte) : State :=
  { s with eth.tbl := fmPut s.eth.tbl (65536 * t + i) (sliceBytes l 0 64) }

/-- Filtering database: the entry of an address in a VLAN. -/
def State.fdbFind (s : State) (mac vid : Nat) : Option (Nat × List Byte) :=
  s.eth.tbl.find? fun p => p.1 < 65536 && bitOf (leAt p.2 12 1) 1 && decide (beAt p.2 0 6 = mac) && decide (leAt p.2 6 2 = vid)

/-- A source address is learned on a port unless a static entry holds it; a full database learns nothing. -/
def State.fdbLearn (s : State) (mac vid port : Nat) : State :=
  let e := beBytes 6 mac ++ leBytes 2 vid ++ leBytes 4 (2 ^ port) ++ leBytes 1 2
  match s.fdbFind mac vid with
  | some (i, l) => if bitOf (leAt l 12 1) 0 then s else s.setTbl 0 i e
  | none =>
    match (List.range 16384).find? fun i => !bitOf (leAt (s.tblEntry 0 i) 12 1) 1 with
    | some i => s.setTbl 0 i e
    | none => s

/-! Egress (R553, R560). -/

/-- The frame as it leaves a port: its tag removed, or added, by the VLAN's untagged set. -/
def egressTag (f : List Byte) (untag : Bool) : List Byte :=
  if fTagged f && untag then f.take 12 ++ f.drop 16 else f

/-- The class of a frame at a port: its PCP, but 6 for PCP 7 on the ports of the trajectory stream (R560; log 182). -/
def State.ethClass (s : State) (port : Nat) (f : List Byte) : Nat :=
  let cfg := s.word (rWpe 0xB0)
  if fPcp f = 7 && (port == bitsOf cfg 4 0 || port == bitsOf cfg 9 5) then 6 else fPcp f

/-- A frame forwarded to port 16: the lowest ETH channel whose VID and DA filter it matches (R554). -/
def State.toHost (s : State) (f : List Byte) (poison : Bool) (ingress : Nat) (stamp : List Byte) : State :=
  let hit (c : Nat) : Bool :=
    s.fld (rChan c 0) 7 6 == 1 && s.fld (rChan c 0) 27 16 == fVid f &&
      (s.word64 (rChan c 0x10) % 2 ^ 48 == fDa f || (fMcast f && s.bit (rChan c 0) 28))
  match (List.range 64).find? hit with
  | some c => s.chanRx c false (egressTag f (bitOf (leAt (s.tblEntry 1 (fVid f)) 4 4) 16)) poison ingress (fVid f) stamp
  | none => s.bump (rEth 0x14)

/-- A frame forwarded by IEEE 802.1Q from a port: the ports it goes to, as a mask. -/
def State.ethPorts (s : State) (ingress : Nat) (f : List Byte) : Nat :=
  let v := s.tblEntry 1 (fVid f)
  let member := leAt v 0 4 % 2 ^ 17
  let dest := match s.fdbFind (fDa f) (fVid f) with | some (_, l) => leAt l 8 4 | none => 2 ^ 17 - 1
  if fVid f = 4095 || (ingress < 17 && !bitOf member ingress) then 0 else setBitsOf (member &&& dest) ingress ingress 0

/-- A frame enters the ports of a mask. -/
def State.ethForward (s : State) (ports : Nat) (fr : EthFrame) : State :=
  let un := leAt (s.tblEntry 1 (fVid fr.data)) 4 4
  (setBitsList 17 ports).foldl (fun s p =>
    if p = 16 then s.toHost fr.data fr.poison fr.ingress fr.stamp
    else if !s.ethLink p then s.bump (rEthPort p 0xA4)
    else s.ethEnqueue p (s.ethClass p fr.data) { fr with data := egressTag fr.data (bitOf un p) }) s

/-- Learning of a source address on a VLAN that learns (R553). -/
def State.ethLearn (s : State) (f : List Byte) (ingress : Nat) : State :=
  if bitOf (leAt (s.tblEntry 1 (fVid f)) 8 1) 0 && !bitOf (fSa f) 40 then s.fdbLearn (fSa f) (fVid f) ingress else s

/-- Forwarding with learning (R553). -/
def State.ethSwitch (s : State) (fr : EthFrame) : State :=
  (s.ethLearn fr.data fr.ingress).ethForward (s.ethPorts fr.ingress fr.data) fr

/-! Reception (R551, R553, R557, R578). -/

/-- PTP messages: EtherType 0x88F7 and UDP ports 319 and 320. -/
def fIsPtp (f : List Byte) : Bool := fType f == 0x88F7 || fUdpPort f == some 319 || fUdpPort f == some 320

/-- Offset of the PTP header of a PTP message. -/
def fPtpOff (f : List Byte) : Option Nat :=
  if fType f = 0x88F7 then some (fTypeOff f + 2)
  else if fUdpPort f == some 319 || fUdpPort f == some 320 then (fUdp f).map fun u => u + 8 else none

/-- The flow entry that a frame matches (R557). -/
def State.flowMatch (s : State) (mac : Nat) (f : List Byte) : Option Nat :=
  (List.range 64).find? fun e =>
    let a := rEth (0x4000 + e * 0x20)
    let w := s.word a
    let t := s.word (a + 4)
    bitOf w 15 && mac < 14 && bitOf w mac && decide (bitsOf w 27 16 = fVid f) && decide (s.word64 (a + 8) % 2 ^ 48 = fDa f) &&
      decide (t % 65536 = fType f) && (!(t % 65536 == 0x0800 || t % 65536 == 0x86DD) || fUdpPort f == some (t / 65536))

/-- The token bucket of all flows: 5 bytes per ns, 64 KiB deep (R557). -/
def State.flowBucket (s : State) : Nat := min 65536 (s.eth.bucket + (s.now - s.eth.bucketAt) * 5 / 4)

/-- A frame of a flow is handed to the SFE or discarded. -/
def State.flowGive (s : State) (flow : Nat) (f : List Byte) : State :=
  let p := fFlowPayload f
  let b := s.flowBucket
  let s := { s with eth.bucketAt := s.now, eth.bucket := b }
  if p.length ≤ b then { s with eth.bucket := b - p.length, sfe.flowQ := s.sfe.flowQ ++ [(flow, p)] }
  else (s.bump (rEth 8)).orWord (rEth 0) 0x10

/-- The gateway stream that an NTSCF frame matches (R578): EtherType 0x22F0, subtype 0x82, DA, VID and stream ID. -/
def State.ntscfMatch (s : State) (f : List Byte) : Option Nat :=
  let o := fTypeOff f + 2
  if fType f ≠ 0x22F0 || beAt f o 1 ≠ 0x82 then none
  else
    (List.range 64).find? fun g =>
      let w := s.gws g
      leAt w 21 1 % 2 == 1 && decide (w.take 6 = f.take 6) && decide (leAt w 6 2 % 4096 = fVid f) &&
        decide ((w.drop 8).take 8 = sliceBytes f (o + 4) 8)

/-- A frame of a MAC at the switch: trap, classifier, gateway, forwarding. -/
def State.ethIngress (s : State) (mac : Nat) (f : List Byte) (poison pass : Bool) : State :=
  let fr : EthFrame := ⟨f, s.macStamp mac true, mac, 0, 0, false, poison⟩
  if fIsPtp f then s.ethEnqueue 17 0 fr
  else
    let fwd (s : State) : State :=
      match s.ntscfMatch f with
      | some g => s.ntscfIn g (f.drop (fTypeOff f + 14))
      | none => if pass then s.ethSwitch fr else s
    match s.flowMatch mac f with
    | some e =>
      let s := s.flowGive e f
      if s.bit (rEth (0x4000 + e * 0x20)) 14 then fwd s else s
    | none => fwd s

/-- MACsec protects a MAC (R550, R562). -/
def State.macsec (s : State) (n : Nat) : Bool := 8 ≤ n && n ≤ 13 && s.bit (rEthPort n 0) 11

/-- ETH_FRAME_RECEIVE (R551): the frame with its FCS; secOk: it passes MACsec, and is given without its SecTAG and ICV; pass:
the 802.1Qci filters and the 802.1CB recovery, whose table layouts the spec does not give, let it through (log 183). -/
def execEthFrameReceive (mac : Fin 16) (frame : List Byte) (secOk pass : Bool) (s : State) : Host.Outcome State Fault Refusal :=
  let n := mac.val
  if !s.ethLink n then .next s
  else if frame.length < 64 || s.fld (rEthPort n 0) 31 16 < frame.length ||
      decide (crcFcs (frame.take (frame.length - 4)) ≠ leAt frame (frame.length - 4) 4) then .next (s.bump (rEthPort n 0x88))
  else
    let s := s.bump (rEthPort n 0x80)
    let f := frame.take (frame.length - 4)
    if fType f = 0x8808 then .next s
    else if s.macsec n && !secOk then .next (s.bump (rEthPort n 0x9C))
    else .next (s.ethIngress n f false pass)

/-! Schedules (R558, R559). -/

/-- The oper list of a port; a port without one has every gate open. -/
def State.operList (s : State) (port : Nat) : List (Nat × Nat) := fmGetD [] s.eth.oper port

/-- The gate of a class is open in the entry in force. -/
def State.gateOpen (s : State) (port cls : Nat) : Bool :=
  let l := s.operList port
  if l = [] then true else bitOf (l.getD (fmGetD 0 s.eth.gateIdx port) (255, 0)).1 cls

/-- Time that a class's gate stays open across a run of entries. -/
def openRun (cls : Nat) : List (Nat × Nat) → Nat
  | [] => 0
  | p :: r => if bitOf p.1 cls then p.2 + openRun cls r else 0

/-- The list with its last entry lasting to the end of the cycle. -/
def fullList (l : List (Nat × Nat)) (cyc : Nat) : List (Nat × Nat) :=
  let sum := (l.dropLast).foldl (fun n p => n + p.2) 0
  match l.getLast? with
  | some p => l.dropLast ++ [(p.1, max p.2 (cyc - sum))]
  | none => l

/-- The ns until the gate of a class closes, none when it never does. -/
def State.gateLeft (s : State) (port cls : Nat) : Option Nat :=
  let l := fullList (s.operList port) (fmGetD 0 s.eth.operCycle port)
  if l.all fun p => bitOf p.1 cls then none
  else
    let i := fmGetD 0 s.eth.gateIdx port
    let done := s.gatePos port - (l.take i).foldl (fun n p => n + p.2) 0
    some (openRun cls (l.drop i ++ l) - done)

/-- The longest open interval of a class, none when its gate never closes. -/
def State.gateMax (s : State) (port cls : Nat) : Option Nat :=
  let l := fullList (s.operList port) (fmGetD 0 s.eth.operCycle port)
  if l.all fun p => bitOf p.1 cls then none
  else some ((List.range l.length).foldl (fun m i => max m (openRun cls (l.drop i ++ l))) 0)

/-- Mb/s of a rate code (log 180). -/
def rateMbps (code : Nat) : Nat := [10, 100, 1000, 2500, 5000, 10000, 25000, 100000].getD code 10

/-- ns that a frame of n bytes takes with preamble and gap. -/
def State.txNs (s : State) (port n : Nat) : Nat := ceilDiv (8000 * (n + 20)) (rateMbps (s.fld (rEthPort port 0) 7 4))

/-- Bytes on the wire of a queued frame: padded to 60, with FCS. -/
def wireLen (f : List Byte) : Nat := max 60 f.length + 4

/-! Transmission (R551, R559, R562, R570 to R572). -/

/-- A stamp of a departing PTP event message enters the FIFO of its port (R571). -/
def State.syncTxts (s : State) (port : Nat) : State :=
  s.setRegBytes (rEthPort port 0x10) (sliceBytes ((fmGetD [] s.eth.txts port).headD []) 0 32)

def State.pushTxts (s : State) (port : Nat) (stamp f : List Byte) (o : Nat) : State :=
  let l := fmGetD [] s.eth.txts port
  if l.length ≥ 64 then (s.bump (rEthPort port 0x98)).orWord (rEth 0) 4
  else
    let e := sliceBytes stamp 0 16 ++ leBytes 2 (beAt f (o + 30) 2) ++ leBytes 1 (beAt f o 1 % 16) ++ leBytes 1 (beAt f (o + 4) 1) ++
      leBytes 1 1
    { s with eth.txts := fmPut s.eth.txts port (l ++ [e]) }.syncTxts port

/-- The ones' complement sum of 16-bit words. -/
def onesSum (l : List Byte) : Nat :=
  let t := ((List.range ((l.length + 1) / 2)).map fun i => beAt l (2 * i) 2).foldl (· + ·) 0
  let t := t % 65536 + t / 65536
  t % 65536 + t / 65536

/-- A one-step Sync with its egress time (R572). -/
def oneStep (f stamp : List Byte) (o : Nat) : List Byte :=
  let corr := (beAt f (o + 8) 8 + leAt stamp 0 4 / 65536) % 2 ^ 64
  let g := f.take (o + 8) ++ beBytes 8 corr ++ (f.drop (o + 16)).take 18 ++ beBytes 6 (leAt stamp 8 6) ++ beBytes 4 (leAt stamp 4 4) ++
    f.drop (o + 44)
  match fUdp f with
  | none => g
  | some u =>
    let c := beAt f (u + 6) 2
    if c = 0 then g
    else
      let t := (65535 - c) + (65535 - onesSum (f.drop (u + 8))) + onesSum (g.drop (u + 8))
      let t := t % 65536 + t / 65536
      let t := t % 65536 + t / 65536
      let c' := 65535 - t
      g.take (u + 6) ++ beBytes 2 (if c' = 0 then 65535 else c') ++ g.drop (u + 8)

/-- PTP event messages: types 0 to 3; over UDP, port 319. -/
def fEventOff (f : List Byte) : Option Nat :=
  if fUdpPort f == some 320 then none
  else (fPtpOff f).filter fun o => decide (beAt f o 1 % 16 < 4)

/-- The last packet number of an association is reached (R562). -/
def State.pnLast (s : State) (port : Nat) : Bool := decide (fmGetD 0 s.eth.pn port ≥ 2 ^ 32 - 1)

/-- The frame on the wire of a MACsec port: SecTAG, ciphertext and ICV, whose bytes are open (log 184). -/
def State.macsecFrame (s : State) (port : Nat) (f : List Byte) : List Byte × State :=
  let pn := fmGetD 0 s.eth.pn port + 1
  let (l, s) := s.freeBytes (f.length - 12 + 12 + 16)
  (f.take 12 ++ beBytes 2 0x88E5 ++ l, { s with eth.pn := fmPut s.eth.pn port pn })

/-- A frame leaves a MAC. -/
def State.ethSend (s : State) (port : Nat) (fr : EthFrame) : State :=
  if s.macsec port && s.pnLast port then
    let s := (s.bump (rEthPort port 0x9C)).orWord (rEth 0) 2
    if fr.txIdx = 0 then s else s.chanTxDone fr.chan 1 []
  else
    let stamp := s.macStamp port false
    let f := sliceBytes fr.data 0 (max 60 fr.data.length)
    let (s, f) := match fEventOff f with
      | none => (s, f)
      | some o =>
        let sync := beAt f o 1 % 16 == 0
        if s.bit (rEthPort port 0) 10 && sync && !bitOf (beAt f (o + 6) 1) 1 && decide (o + 44 ≤ fr.data.length) then
          (s, oneStep f stamp o)
        else if s.bit (rEthPort port 0) 10 && !sync then (s, f)
        else (s.pushTxts port stamp f o, f)
    let (f, s) := if s.macsec port then s.macsecFrame port f else (f, s)
    let fcs := crcFcs f
    let s := s.bump (rEthPort port 0x84)
    let s := if fr.poison then s.bump (rEthPort port 0x8C) else s
    let s := s.emit (.eth port (f ++ leBytes 4 (if fr.poison then 2 ^ 32 - 1 - fcs else fcs)))
    if fr.txIdx = 0 then s else s.chanTxDone fr.chan 0 stamp

/-- The head of a class removed. -/
def State.ethPop (s : State) (port cls : Nat) : State :=
  { s with eth.queues := fmPut s.eth.queues (port * 8 + cls) ((s.ethQueue port cls).drop 1) }

/-- The frame at the head of a class may start now (R559). -/
def State.ethReady (s : State) (port cls : Nat) : Bool :=
  match (s.ethQueue port cls).head? with
  | none => false
  | some fr =>
    s.gateOpen port cls && (match s.gateLeft port cls with | none => true | some t => decide (s.txNs port (wireLen fr.data) ≤ t))

/-- ETH_FRAME_TRANSMIT (R559): the head of a class starts when no higher class may; a frame that no open interval holds is
dropped; port 17 hands a trapped frame to FWP-NET. A preemptable frame may be preempted on its way. -/
def execEthFrameTransmit (port : Fin 18) (cls : Fin 8) (preempted : Bool) (s : State) : Host.Outcome State Fault Refusal :=
  let p := port.val
  let k := cls.val
  match (s.ethQueue p k).head? with
  | none => .next s
  | some fr =>
    if p ≥ 16 then .next (s.ethPop p k)
    else if !s.ethLink p then .next s
    else if (match s.gateMax p k with | none => false | some t => decide (t < s.txNs p (wireLen fr.data))) then
      let s := (s.ethPop p k).bump (rEthPort p 0x90)
      .next (if fr.txIdx = 0 then s else s.chanTxDone fr.chan 4 [])
    else if !s.ethReady p k || (List.range 8).any (fun h => k < h && s.ethReady p h) then .next s
    else
      let s := if preempted && bitOf (s.word (rEthPort p 0x48)) k then s.bump (rEthPort p 0xA0) else s
      .next ((s.ethPop p k).ethSend p fr)

/-! Host channel transmission (R555). -/

/-- A frame waits for the stamp of a channel's entry. -/
def State.chanWaits (s : State) (c : Nat) : Bool :=
  s.eth.queues.any (fun p => p.2.any fun f => f.chan == c && f.txIdx != 0) ||
    s.can.tx.any (fun p => p.2.any fun b => b.chan == c && b.txIdx != 0)

/-- HOST_CHANNEL_TX (R555): the entry at HEAD of a channel's TXQ. -/
def execHostChannelTx (chan : Fin 64) (s : State) : Host.Outcome State Fault Refusal :=
  let c := chan.val
  let kind := s.fld (rChan c 0) 7 6
  let own := asInst (s.fld (rChan c 0) 5 0)
  match fmGet s.hqm.queues (s.word (rChan c 4) % 2 ^ 19) with
  | none => .next s
  | some x =>
    if x.count = 0 || x.faulted || s.chanWaits c || !(kind == 1 || kind == 2) then .next s
    else
      match s.rdV own mHqm 1 (x.base + x.head % x.size * x.entryBytes) 32 with
      | (s, .error _) => .next (s.chanTxDone c 3 [])
      | (s, .ok (_, true)) => .next (s.chanTxDone c 2 [])
      | (s, .ok (e, false)) =>
        let len := leAt e 8 2
        let ts := bitOf (leAt e 0xA 2) 0
        match s.rdLong own mHqm (leAt e 0 8) len with
        | (s, .error _) => .next (s.chanTxDone c 3 [])
        | (s, .ok (_, true)) => .next (s.chanTxDone c 2 [])
        | (s, .ok (f, false)) =>
          if kind = 2 then
            let n := leAt e 0xD 1
            if n ≥ 16 || !s.bit (rChan c 0x18) (n % 16) || s.canFmt (n % 16) < cbFmt f || !s.canOn (n % 16) then
              .next ((s.canDrop (n % 16)).chanTxDone c 6 [])
            else if (s.canTx n).length ≥ 32 then .next s
            else
              let s := { s with can.tx := fmPut s.can.tx n (s.canTx n ++ [CanBuf.mk f c (b2n ts)]) }
              .next (if ts then s else s.chanTxDone c 0 [])
          else
            let ports := s.ethPorts 16 f
            if len < 14 then .next (s.chanTxDone c 1 [])
            else if len > 9212 then .next (s.chanTxDone c 4 [])
            else if ports = 0 then .next (s.chanTxDone c 1 [])
            else if (setBitsList 16 ports).all (fun p => !s.ethLink p) && !bitOf ports 16 then .next (s.chanTxDone c 5 [])
            else
              let first := (setBitsList 16 ports).find? fun p => s.ethLink p
              let fr : EthFrame := ⟨f, zeroBytes 16, 16, c, 0, false, false⟩
              match (if ts then first else none) with
              | none => .next ((s.ethSwitch fr).chanTxDone c 0 [])
              | some p =>
                let un := leAt (s.tblEntry 1 (fVid f)) 4 4
                let s := (s.ethLearn f 16).ethForward (setBitsOf ports p p 0) fr
                .next (s.ethEnqueue p (s.ethClass p f) { fr with data := egressTag f (bitOf un p), txIdx := 1 })

/-- GATE_INTERVAL_EXPIRE (R559): the entry in force follows the position. -/
def execGateIntervalExpire (port : Fin 14) (s : State) : Host.Outcome State Fault Refusal :=
  if s.operList port = [] then .next s else .next (s.gateFollow port)

/-- The time of a port's clock in ns (R640: 0 when it does not run). -/
def State.portNs (s : State) (port : Nat) : Nat :=
  let c := s.fld (rEthPort port 0) 13 12
  if s.ptpOn c then s.ptpNs c else 0

/-- GCL_SWAP (R559): the first cycle start at or after CONFIG_TIME, or the next one when that is past. -/
def execGclSwap (m : Master) (port : Fin 14) (s : State) : Host.Outcome State Fault Refusal :=
  let p := port.val
  if !s.netMaster m then .next (s.refuse m 2 (rEthPort p 0x3C))
  else if s.bit (rEthPort p 0x3C) 1 then .next (s.respOk [])
  else
    let base := s.word64 (rEthPort p 0x30)
    let cyc := s.word (rEthPort p 0x38)
    let t := max (s.word64 (rEthPort p 0x40)) (s.portNs p)
    let at_ : Int := if cyc = 0 then t else (base : Int) + -((-((t : Int) - base)) / (cyc : Int)) * cyc
    .next ({ s with eth.swapAt := fmPut s.eth.swapAt p at_.toNat }.setBit (rEthPort p 0x3C) 1 true |>.respOk [])

/-- The admin list of a port: its length from ETH_GCL_CTRL. -/
def State.adminList (s : State) (port : Nat) : List (Nat × Nat) :=
  (List.range (min 256 (s.fld (rEthPort port 0x3C) 24 16))).map fun e =>
    let l := s.tblEntry 7 (256 * port + e)
    (leAt l 0 1, leAt l 4 4)

/-- GCL_SWAP_APPLY (R559): at the cycle start. -/
def execGclSwapApply (port : Fin 14) (s : State) : Host.Outcome State Fault Refusal :=
  let p := port.val
  match fmGet s.eth.swapAt p with
  | none => .next s
  | some t =>
    if s.portNs p < t then .next s
    else
      let s := { s with eth.swapAt := fmDel s.eth.swapAt p, eth.oper := fmPut s.eth.oper p (s.adminList p),
                        eth.operBase := fmPut s.eth.operBase p (s.word64 (rEthPort p 0x30)),
                        eth.operCycle := fmPut s.eth.operCycle p (s.word (rEthPort p 0x38)) }
      .next ((s.setBit (rEthPort p 0x3C) 1 false).gateFollow p)

/-- ETH_PORT_TXTS_READ (R571, R579): a read of n bytes from the first word on removes the entry; the rest of the entry is
captured for the master (R7). -/
def execEthPortTxtsRead (m : Master) (port : Fin 16) (wide : Bool) (s : State) : Host.Outcome State Fault Refusal :=
  let p := port.val
  let a := rEthPort p 0x10
  if !netReader m then .next (s.refuse m 1 a)
  else
    let l := s.regBytes a 32
    let caps := (List.range 8).foldl (fun c k => fmPut c (2 ^ 52 * m.toNat + a + 4 * k) (BitVec.ofNat 32 (leAt l (4 * k) 4))) s.caps
    let s := { s with caps := caps, eth.txts := fmPut s.eth.txts p ((fmGetD [] s.eth.txts p).drop 1) }
    .next ((s.syncTxts p).respOk (l.take (if wide then 8 else 4)))

/-- ETH_LINK_CHANGE (R559): at link down the frames queued at the port are dropped. -/
def execEthLinkChange (mac : Fin 16) (up : Bool) (s : State) : Host.Outcome State Fault Refusal :=
  let n := mac.val
  if s.ethLink n = up then .next s
  else
    let s := (s.setBit (rEthPort n 4) 0 up).orWord (rEth 0) 1
    if up then .next (s.setFld (rEthPort n 4) 7 4 (s.fld (rEthPort n 0) 7 4))
    else
      .next ((List.range 8).foldl (fun s k =>
        let q := s.ethQueue n k
        let s := { s with eth.queues := fmDel s.eth.queues (n * 8 + k) }
        q.foldl (fun s f =>
          let s := s.bump (rEthPort n 0xA4)
          if f.txIdx = 0 then s else s.chanTxDone f.chan 5 []) s) s)

/-! Management bus and tables (R552, R579). -/

/-- MDIO_GO (R552): an access begins; a GO while one runs has no effect. -/
def execMdioGo (m : Master) (v : BitVec 32) (s : State) : Host.Outcome State Fault Refusal :=
  if !s.netMaster m then .next (s.refuse m 2 (rEth 0x20))
  else if s.eth.mdioBusy then .next (s.respOk [])
  else
    let s := s.setWord (rEth 0x20) (v.toNat &&& 0x3FFFF ||| 0x80000000)
    .next (({ s with eth.mdioBusy := true }.emit (.mdio (v.toNat &&& 0x3FFFF) (s.word (rEth 0x24)))).respOk [])

/-- MDIO_ACCESS_DONE (R552). -/
def execMdioAccessDone (data : BitVec 16) (s : State) : Host.Outcome State Fault Refusal :=
  if !s.eth.mdioBusy then .next s
  else
    let s := if s.bit (rEth 0x20) 17 then s.setFld (rEth 0x24) 15 0 data.toNat else s
    .next ({ s with eth.mdioBusy := false }.setBit (rEth 0x20) 31 false)

/-- ETH_TBL_GO (R559, R579): a write of ETH_TBL_ADDR with GO. -/
def execEthTblGo (m : Master) (table : Fin 16) (index : BitVec 16) (s : State) : Host.Outcome State Fault Refusal :=
  if !s.netMaster m then .next (s.refuse m 2 (rEth 0x30))
  else
    let t := table.val
    let i := index.toNat
    let s := (s.setWord (rEth 0x30) (t + i * 16)).respOk []
    let write := s.bit (rEth 0x34) 0
    if i ≥ tblCount t then .next (s.orWord (rEth 0) 0x20)
    else if !write then
      let l := s.tblEntry t i
      .next (s.setRegBytes (rEth 0x40) (if t = 8 then zeroBytes 32 ++ l.drop 32 else l))
    else if t = 7 && s.bit (rEthPort (i / 256) 0x3C) 1 then .next ((s.orWord (rEth 0) 0x20).fault 0x20 1 m (i / 256) 7)
    else .next (s.setTbl t i (s.regBytes (rEth 0x40) 64))

/-! The gateway towards Ethernet (R578). -/

/-- NTSCF_FRAME_SEND (R578): the frame is full, or HOLD has passed since its first message. -/
def execNtscfFrameSend (stream : Fin 64) (s : State) : Host.Outcome State Fault Refusal :=
  let g := stream.val
  let l := fmGetD [] s.can.acf g
  if l = [] then .next s
  else
    let w := s.gws g
    let maxMsg := max 1 (leAt w 18 1)
    let s := if l.length ≥ maxMsg then s else s.timeTo (fmGetD 0 s.can.acfAt g + 4000 * leAt w 19 2)
    let msgs := (l.take maxMsg).flatMap fun x => x
    let rest := l.drop maxMsg
    let seq := fmGetD 0 s.can.acfSeq g
    let (sa, s) := s.takeFree
    let tci := 8192 * (leAt w 6 2 / 4096 % 8) + leAt w 6 2 % 4096
    let f := w.take 6 ++ beBytes 6 sa ++ beBytes 2 0x8100 ++ beBytes 2 tci ++ beBytes 2 0x22F0 ++ beBytes 1 0x82 ++
      beBytes 2 (32768 + msgs.length % 2048) ++ beBytes 1 seq ++ (w.drop 8).take 8 ++ msgs
    let s := { s with can.acf := if rest = [] then fmDel s.can.acf g else fmPut s.can.acf g rest,
                      can.acfAt := fmPut s.can.acfAt g s.now, can.acfSeq := fmPut s.can.acfSeq g ((seq + 1) % 256) }
    .next (s.ethSwitch ⟨f, zeroBytes 16, 17, 0, 0, false, false⟩)

end Sys2Proof.Machine
end

