-- ==== Sys2Proof/Machine/Sha.lean ====
section
/-! DEFINITION. The hash functions that the spec names: SHA-384 with HMAC and HKDF (19_security.md R607, R609, R617), and
SHA-3 and SHAKE for ML-DSA and ML-KEM (R614), as FIPS 180-4, RFC 5869 and FIPS 202 define them. -/

namespace Sys2Proof.Machine

/-! SHA-384. -/

/-- The first primes, by trial division. -/
def firstPrimes (n : Nat) : List Nat :=
  (((List.range 500).drop 2).filter fun p => !(((List.range p).drop 2).any fun d => p % d == 0)).take n

/-- The k-th integer root of x, by bits from bit b downwards. -/
def rootGo (k x : Nat) : Nat → Nat → Nat
  | 0, r => r
  | b + 1, r => rootGo k x b (if (r + 2 ^ b) ^ k ≤ x then r + 2 ^ b else r)

/-- The 80 round constants: fraction bits of the cube roots of the first primes. -/
def shaK : List Nat := (firstPrimes 80).map fun p => rootGo 3 (2 ^ 192 * p) 70 0 % 2 ^ 64

/-- The initial value of SHA-384: fraction bits of the square roots of the ninth to sixteenth primes. -/
def sha384Init : List Nat := ((firstPrimes 16).drop 8).map fun p => rootGo 2 (2 ^ 128 * p) 70 0 % 2 ^ 64

def rotr64 (x n : Nat) : Nat := x / 2 ^ n + x % 2 ^ n * 2 ^ (64 - n)

/-- The message schedule: words so far, newest first. -/
def shaSched : Nat → List Nat → List Nat
  | 0, w => w
  | k + 1, w =>
    let a := w.getD 14 0
    let b := w.getD 1 0
    let s0 := rotr64 a 1 ^^^ rotr64 a 8 ^^^ a / 2 ^ 7
    let s1 := rotr64 b 19 ^^^ rotr64 b 61 ^^^ b / 2 ^ 6
    shaSched k ((w.getD 15 0 + s0 + w.getD 6 0 + s1) % 2 ^ 64 :: w)

/-- One round on the state a to h. -/
def shaRound (v : List Nat) (kw : Nat) : List Nat :=
  match v with
  | [a, b, c, d, e, f, g, h] =>
    let t1 := h + (rotr64 e 14 ^^^ rotr64 e 18 ^^^ rotr64 e 41) + ((e &&& f) ^^^ ((2 ^ 64 - 1 - e) &&& g)) + kw
    let t2 := (rotr64 a 28 ^^^ rotr64 a 34 ^^^ rotr64 a 39) + ((a &&& b) ^^^ (a &&& c) ^^^ (b &&& c))
    [(t1 + t2) % 2 ^ 64, a, b, c, (d + t1) % 2 ^ 64, e, f, g]
  | v => v

/-- One block of 16 words. -/
def shaBlock (hv : List Nat) (blk : List Nat) : List Nat :=
  let w := (shaSched 64 blk.reverse).reverse
  let v := (w.zip shaK).foldl (fun v p => shaRound v (p.1 + p.2)) hv
  (hv.zip v).map fun p => (p.1 + p.2) % 2 ^ 64

/-- SHA-384 of a byte string. -/
def sha384 (m : List Byte) : List Byte :=
  let z := (240 - (m.length + 1) % 128) % 128
  let l := m ++ [0x80] ++ zeroBytes z ++ beBytes 16 (m.length * 8)
  let blocks := (List.range (l.length / 128)).map fun i =>
    let b := (l.drop (128 * i)).take 128
    (List.range 16).map fun j => beAt b (8 * j) 8
  ((blocks.foldl shaBlock sha384Init).flatMap fun x => beBytes 8 x).take 48

/-- HMAC with SHA-384 (RFC 2104). -/
def hmac384 (key m : List Byte) : List Byte :=
  let k := if key.length > 128 then sha384 key else key
  let k := k ++ zeroBytes (128 - k.length)
  let pad (c : Byte) := k.map fun b => b ^^^ c
  sha384 (pad 0x5C ++ sha384 (pad 0x36 ++ m))

/-- HKDF with SHA-384, no salt, one output block: n bytes for a label (RFC 5869). -/
def hkdf384 (ikm label : List Byte) (n : Nat) : List Byte :=
  (hmac384 (hmac384 (zeroBytes 48) ikm) (label ++ [1])).take n

/-- The bytes of an ASCII label. -/
def asciiBytes (s : String) : List Byte := s.toList.map fun c => BitVec.ofNat 8 c.toNat

/-! Keccak. -/

/-- The round constant bits: an LFSR of polynomial x^8 + x^6 + x^5 + x^4 + 1. -/
def rcStep (r : Nat) : Nat := (r * 2 % 256) ^^^ (if r ≥ 128 then 0x71 else 0)

/-- Round constants of n rounds from LFSR state r. -/
def keccakRC : Nat → Nat → List Nat
  | 0, _ => []
  | n + 1, r =>
    let go := (List.range 7).foldl (fun (p : Nat × Nat) j =>
      (if p.2 % 2 = 1 then p.1 ||| 2 ^ (2 ^ j - 1) else p.1, rcStep p.2)) (0, r)
    go.1 :: keccakRC n go.2

/-- Rotation offsets and lane order of the rho and pi steps: target lane and rotation, walked from lane (1, 0). -/
def rhoPi : Nat → Nat → Nat × Nat → List (Nat × Nat × Nat)
  | 0, _, _ => []
  | n + 1, t, (x, y) => (x + 5 * y, y + 5 * ((2 * x + 3 * y) % 5), (t + 1) * (t + 2) / 2 % 64) :: rhoPi n (t + 1) (y, (2 * x + 3 * y) % 5)

def rotl64 (x n : Nat) : Nat := x * 2 ^ n % 2 ^ 64 + x / 2 ^ (64 - n)

/-- One round on 25 lanes. -/
def keccakRound (a : Array Nat) (rc : Nat) : Array Nat :=
  let c := (List.range 5).map fun x => (List.range 5).foldl (fun v y => v ^^^ a.getD (x + 5 * y) 0) 0
  let d := (List.range 5).map fun x => c.getD ((x + 4) % 5) 0 ^^^ rotl64 (c.getD ((x + 1) % 5) 0) 1
  let a := (Array.range 25).map fun i => a.getD i 0 ^^^ d.getD (i % 5) 0
  let b := (rhoPi 24 0 (1, 0)).foldl (fun (b : Array Nat) p => b.setIfInBounds p.2.1 (rotl64 (a.getD p.1 0) p.2.2)) a
  let r := (Array.range 25).map fun i =>
    let x := i % 5
    let y := i / 5 * 5
    b.getD i 0 ^^^ ((2 ^ 64 - 1 - b.getD ((x + 1) % 5 + y) 0) &&& b.getD ((x + 2) % 5 + y) 0)
  r.setIfInBounds 0 (r.getD 0 0 ^^^ rc)

def keccakF (a : Array Nat) : Array Nat := (keccakRC 24 1).foldl keccakRound a

/-- A block of the rate absorbed. -/
def absorb (a : Array Nat) (blk : List Byte) : Array Nat :=
  keccakF ((Array.range 25).map fun i => a.getD i 0 ^^^ (if 8 * i < blk.length then leAt blk (8 * i) 8 else 0))

/-- n blocks of output squeezed. -/
def squeeze (rate : Nat) : Nat → Array Nat → List Byte
  | 0, _ => []
  | n + 1, a => ((a.toList.flatMap fun x => leBytes 8 x).take rate) ++ squeeze rate n (keccakF a)

/-- The sponge: rate in bytes, domain suffix, message, output bytes. -/
def sponge (rate suffix : Nat) (m : List Byte) (n : Nat) : List Byte :=
  let z := (rate - (m.length + 1) % rate) % rate
  let l := m ++ [BitVec.ofNat 8 suffix] ++ zeroBytes z
  let l := l.dropLast ++ [(l.getLastD 0) ^^^ 0x80]
  let a := (List.range (l.length / rate)).foldl (fun a i => absorb a ((l.drop (rate * i)).take rate)) (Array.replicate 25 0)
  (squeeze rate (ceilDiv n rate) a).take n

def sha3_256 (m : List Byte) : List Byte := sponge 136 6 m 32
def sha3_512 (m : List Byte) : List Byte := sponge 72 6 m 64
def shake128 (m : List Byte) (n : Nat) : List Byte := sponge 168 0x1F m n
def shake256 (m : List Byte) (n : Nat) : List Byte := sponge 136 0x1F m n

end Sys2Proof.Machine
end

