-- ==== Sys2Proof/Machine/Ec.lean ====
section
/-! DEFINITION. The elliptic-curve operations of the public-key engine (19_security.md R613 to R615): ECDSA, ECDH and key
generation on P-256 and P-384 (FIPS 186-5), and X25519 (RFC 7748). -/

namespace Sys2Proof.Machine

/-- x to the n modulo m, over the b low bits of n. -/
def powMod (m : Nat) : Nat → Nat → Nat → Nat
  | 0, _, _ => 1 % m
  | b + 1, x, n => (if n % 2 = 1 then x else 1) * powMod m b (x * x % m) (n / 2) % m

/-- The inverse modulo a prime below 2^400, 0 for 0. -/
def invMod (p x : Nat) : Nat := powMod p 400 (x % p) (p - 2)

/-- A short Weierstrass curve with a = -3: field, b, base point, order, bytes of an integer. -/
structure Curve where
  p : Nat
  b : Nat
  gx : Nat
  gy : Nat
  n : Nat
  size : Nat
  deriving DecidableEq, Repr

def p256 : Curve :=
  ⟨2 ^ 256 - 2 ^ 224 + 2 ^ 192 + 2 ^ 96 - 1,
    0x5ac635d8aa3a93e7b3ebbd55769886bc651d06b0cc53b0f63bce3c3e27d2604b,
    0x6b17d1f2e12c4247f8bce6e563a440f277037d812deb33a0f4a13945d898c296,
    0x4fe342e2fe1a7f9b8ee7eb4a7c0f9e162bce33576b315ececbb6406837bf51f5,
    0xffffffff00000000ffffffffffffffffbce6faada7179e84f3b9cac2fc632551, 32⟩

def p384 : Curve :=
  ⟨2 ^ 384 - 2 ^ 128 - 2 ^ 96 + 2 ^ 32 - 1,
    0xb3312fa7e23ee7e4988e056be3f82d19181d9c6efe8141120314088f5013875ac656398d8a2ed19d2a85c8edd3ec2aef,
    0xaa87ca22be8b05378eb1c71ef320ad746e1d3b628ba79b9859f741e082542a385502f25dbf55296c3a545e3872760ab7,
    0x3617de4a96262c6f5d9e98bf9292dc29f8f41dbd289a147ce9da3113b5f0b8c00a60b1ce1d7e819d7a431d7c90ea0e5f,
    0xffffffffffffffffffffffffffffffffffffffffffffffffc7634d81f4372ddf581a0db248b0a77aecec196accc52973, 48⟩

/-- A point, none at infinity. -/
abbrev Pt := Option (Nat × Nat)

def Curve.on (c : Curve) (x y : Nat) : Bool := decide (y * y % c.p = (x * x * x + (c.p - 3) * x + c.b) % c.p)

/-- Sum of points. -/
def Curve.add (c : Curve) : Pt → Pt → Pt
  | none, q => q
  | q, none => q
  | some (x1, y1), some (x2, y2) =>
    if x1 = x2 && (y1 + y2) % c.p = 0 then none
    else
      let l := if x1 = x2 then (3 * x1 * x1 + c.p - 3) * invMod c.p (2 * y1) % c.p
        else (y2 + c.p - y1) * invMod c.p (x2 + c.p - x1) % c.p
      let x3 := (l * l + 2 * c.p - x1 - x2) % c.p
      some (x3, (l * (x1 + c.p - x3) + c.p - y1) % c.p)

/-- The multiple of a point by the low b bits of k. -/
def Curve.mul (c : Curve) : Nat → Nat → Pt → Pt
  | 0, _, _ => none
  | b + 1, k, q => let r := c.mul b (k / 2) (c.add q q); if k % 2 = 1 then c.add q r else r

def Curve.g (c : Curve) : Pt := some (c.gx, c.gy)

/-- The signature of a hash value under key d with nonce k: r and s. -/
def Curve.sign (c : Curve) (h d k : Nat) : Nat × Nat :=
  let r := match c.mul 400 k c.g with | some (x, _) => x % c.n | none => 0
  (r, invMod c.n k * ((h + r * d) % c.n) % c.n)

/-- A signature verifies. -/
def Curve.verify (c : Curve) (h r s x y : Nat) : Bool :=
  let w := invMod c.n s
  match c.add (c.mul 400 (h * w % c.n) c.g) (c.mul 400 (r * w % c.n) (some (x, y))) with
  | some (px, _) => decide (px % c.n = r)
  | none => false

/-! X25519. -/

def p25519 : Nat := 2 ^ 255 - 19

/-- The Montgomery ladder of RFC 7748, from bit t down: (x2, z2, x3, z3). -/
def ladder (x1 k : Nat) : Nat → Nat × Nat × Nat × Nat → Nat × Nat × Nat × Nat
  | 0, v => v
  | t + 1, (x2, z2, x3, z3) =>
    let p := p25519
    let sw := bitOf k t
    let (x2, x3) := if sw then (x3, x2) else (x2, x3)
    let (z2, z3) := if sw then (z3, z2) else (z2, z3)
    let a := (x2 + z2) % p
    let aa := a * a % p
    let b := (x2 + p - z2) % p
    let bb := b * b % p
    let e := (aa + p - bb) % p
    let da := (x3 + p - z3) % p * a % p
    let cb := (x3 + z3) % p * b % p
    let x3 := (da + cb) * (da + cb) % p
    let z3 := x1 * ((da + p - cb) * (da + p - cb) % p) % p
    let x2 := aa * bb % p
    let z2 := e * ((aa + 121665 * e) % p) % p
    let (x2, x3) := if sw then (x3, x2) else (x2, x3)
    let (z2, z3) := if sw then (z3, z2) else (z2, z3)
    ladder x1 k t (x2, z2, x3, z3)

/-- X25519 of a scalar, clamped, and a u coordinate below the prime. -/
def x25519 (k u : Nat) : Nat :=
  let k := setBitsOf (setBitsOf k 2 0 0) 255 254 1
  let (x2, z2, _, _) := ladder u k 255 (1, 0, u, 1)
  x2 * invMod p25519 z2 % p25519

end Sys2Proof.Machine
end

