-- ==== Sys2Proof/Machine/Lattice.lean ====
section
/-! DEFINITION. ML-KEM-768 decapsulation and ML-DSA-65 verification (19_security.md R613 to R615), as FIPS 203 and FIPS 204
define them. A polynomial is its list of 256 coefficients; a transformed polynomial is its list of values. -/

namespace Sys2Proof.Machine

/-! Bits and sampling. -/

/-- b to the power e modulo m, e below 2^n. -/
def powModGo (m : Nat) : Nat → Nat → Nat → Nat
  | 0, _, _ => 1 % m
  | n + 1, b, e => let h := powModGo m n (b * b % m) (e / 2); if e % 2 = 1 then h * b % m else h

/-- The powers of g modulo m, n of them from g^0 on, newest first. -/
def powList (m g : Nat) : Nat → List Nat → List Nat
  | 0, l => l
  | n + 1, l => powList m g n ((l.headD 1 * g % m) :: l)

/-- The n integers of d bits packed in a byte string, least significant bit first. -/
def unpackBits (d n : Nat) (l : List Byte) : List Nat :=
  let x := leNat l
  (List.range n).map fun i => x >>> (d * i) % 2 ^ d

/-- Integers of d bits packed into bytes. -/
def packBits (d : Nat) (l : List Nat) : List Byte :=
  leBytes (d * l.length / 8) (l.foldr (fun v x => x * 2 ^ d + v) 0)

/-- The number of k bits read backwards. -/
def revBits (k x : Nat) : Nat := (List.range k).foldl (fun r i => r * 2 + x >>> i % 2) 0

/-- The first n accepted values of 12 or 23 bits of a byte stream, below q. -/
def sampleTake (n : Nat) (l : List Nat) : List Nat :=
  let r := l.take n
  r ++ List.replicate (n - r.length) 0

/-- Polynomials added and subtracted modulo q. -/
def polyAdd (q : Nat) (a b : List Nat) : List Nat := List.zipWith (fun x y => (x + y) % q) a b
def polySub (q : Nat) (a b : List Nat) : List Nat := List.zipWith (fun x y => (x + q - y % q) % q) a b

/-- The value of a coefficient list at x modulo q. -/
def polyEval (q x : Nat) (l : List Nat) : Nat := l.foldr (fun c r => (r * x + c) % q) 0

/-- Groups of n of a list, k of them. -/
def groupsOf {α : Type} (n k : Nat) (l : List α) : List (List α) := (List.range k).map fun i => (l.drop (n * i)).take n

/-! ML-KEM-768. -/

def kemQ : Nat := 3329

/-- The roots of the 128 quadratic factors. -/
def kemGamma : List Nat := (List.range 128).map fun i => powModGo kemQ 9 17 (2 * revBits 7 i + 1)

/-- The coefficients of even and of odd index. -/
def evens (l : List Nat) : List Nat := (groupsOf 2 128 l).map fun g => g.getD 0 0
def odds (l : List Nat) : List Nat := (groupsOf 2 128 l).map fun g => g.getD 1 0

/-- Transform: the remainders modulo the quadratic factors. -/
def kemNtt (f : List Nat) : List Nat :=
  let e := evens f
  let o := odds f
  kemGamma.flatMap fun g => [polyEval kemQ g e, polyEval kemQ g o]

/-- Inverse transform. 3303 is the inverse of 128. -/
def kemInv (f : List Nat) : List Nat :=
  let inv := kemGamma.map fun g => powModGo kemQ 12 g 3327
  let sum (v : List Nat) : List Nat :=
    ((List.range 128).foldl (fun (p : List Nat × List Nat) _ =>
      (p.1 ++ [3303 * p.2.foldl (· + ·) 0 % kemQ], List.zipWith (fun x g => x * g % kemQ) p.2 inv)) ([], v)).1
  (List.zip (sum (evens f)) (sum (odds f))).flatMap fun p => [p.1, p.2]

/-- Product of transformed polynomials. -/
def kemMul (a b : List Nat) : List Nat :=
  (List.zip kemGamma (List.zip (groupsOf 2 128 a) (groupsOf 2 128 b))).flatMap fun p =>
    let a0 := p.2.1.getD 0 0
    let a1 := p.2.1.getD 1 0
    let b0 := p.2.2.getD 0 0
    let b1 := p.2.2.getD 1 0
    [(a0 * b0 + a1 * b1 % kemQ * p.1) % kemQ, (a0 * b1 + a1 * b0) % kemQ]

/-- The sum of products of two vectors of transformed polynomials. -/
def kemDot (a b : List (List Nat)) : List Nat :=
  (List.zipWith kemMul a b).foldl (polyAdd kemQ) (List.replicate 256 0)

/-- A uniform transformed polynomial of the matrix, entry of row i and column j. -/
def kemSample (rho : List Byte) (i j : Nat) : List Nat :=
  let l := shake128 (rho ++ [BitVec.ofNat 8 j, BitVec.ofNat 8 i]) 1008
  sampleTake 256 ((unpackBits 12 672 l).filter fun v => v < kemQ)

/-- A polynomial of the centred binomial distribution of parameter 2 from 128 bytes. -/
def kemNoise (r : List Byte) (n : Nat) : List Nat :=
  (unpackBits 4 256 (shake256 (r ++ [BitVec.ofNat 8 n]) 128)).map fun v =>
    (kemQ + v % 2 + v / 2 % 2 - v / 4 % 2 - v / 8) % kemQ

def kemCompress (d x : Nat) : Nat := (x * 2 ^ d * 2 + kemQ) / (2 * kemQ) % 2 ^ d
def kemExpand (d y : Nat) : Nat := (kemQ * y * 2 + 2 ^ d) / 2 ^ (d + 1)

/-- The ciphertext of a 32-byte message under an encapsulation key and randomness. -/
def kemEncrypt (ek m r : List Byte) : List Byte :=
  let t := (groupsOf 384 3 ek).map fun p => (unpackBits 12 256 p).map (· % kemQ)
  let rho := (ek.drop 1152).take 32
  let y := (List.range 3).map fun i => kemNtt (kemNoise r i)
  let u := (List.range 3).flatMap fun i =>
    let p := polyAdd kemQ (kemInv (kemDot ((List.range 3).map fun j => kemSample rho j i) y)) (kemNoise r (3 + i))
    packBits 10 (p.map (kemCompress 10))
  let mu := (unpackBits 1 256 m).map (kemExpand 1)
  let v := polyAdd kemQ (polyAdd kemQ (kemInv (kemDot t y)) (kemNoise r 6)) mu
  u ++ packBits 4 (v.map (kemCompress 4))

/-- The hash embedded in a decapsulation key matches its encapsulation key (FIPS 203, R615). -/
def kemKeyOk (dk : List Byte) : Bool :=
  sha3_256 ((dk.drop 1152).take 1184) == (dk.drop 2336).take 32

/-- The shared key, implicit rejection included. -/
def kemDecaps (dk c : List Byte) : List Byte :=
  let s := (groupsOf 384 3 dk).map fun p => (unpackBits 12 256 p).map (· % kemQ)
  let ek := (dk.drop 1152).take 1184
  let h := (dk.drop 2336).take 32
  let z := (dk.drop 2368).take 32
  let u := (groupsOf 320 3 c).map fun p => kemNtt ((unpackBits 10 256 p).map (kemExpand 10))
  let v := (unpackBits 4 256 ((c.drop 960).take 128)).map (kemExpand 4)
  let m := packBits 1 ((polySub kemQ v (kemInv (kemDot s u))).map (kemCompress 1))
  let g := sha3_512 (m ++ h)
  if kemEncrypt ek m (g.drop 32) = c then g.take 32 else shake256 (z ++ c) 32

/-! ML-DSA-65. -/

def dsaQ : Nat := 8380417

/-- The points at which a transformed polynomial is evaluated. -/
def dsaZeta : List Nat := (List.range 256).map fun i => powModGo dsaQ 10 1753 (2 * revBits 8 i + 1)

def dsaNtt (f : List Nat) : List Nat := dsaZeta.map fun g => polyEval dsaQ g f

/-- Inverse transform. 8347681 is the inverse of 256. -/
def dsaInv (f : List Nat) : List Nat :=
  let inv := dsaZeta.map fun g => powModGo dsaQ 23 g (dsaQ - 2)
  ((List.range 256).foldl (fun (p : List Nat × List Nat) _ =>
    (p.1 ++ [8347681 * p.2.foldl (· + ·) 0 % dsaQ], List.zipWith (fun x g => x * g % dsaQ) p.2 inv)) ([], f)).1

def dsaMul (a b : List Nat) : List Nat := List.zipWith (fun x y => x * y % dsaQ) a b

/-- A uniform transformed polynomial of the matrix, entry of row r and column c. -/
def dsaSample (rho : List Byte) (r c : Nat) : List Nat :=
  let l := shake128 (rho ++ [BitVec.ofNat 8 c, BitVec.ofNat 8 r]) 1008
  sampleTake 256 (((unpackBits 24 336 l).map (· % 2 ^ 23)).filter fun v => v < dsaQ)

/-- One coefficient of the challenge: position i, the stream that is left, and the sign bits that are left. -/
def ballStep (p : List Nat × List Byte × Nat) (i : Nat) : List Nat × List Byte × Nat :=
  match p.2.1.dropWhile fun b => decide (b.toNat > i) with
  | [] => p
  | b :: r =>
    ((p.1.set i (p.1.getD b.toNat 0)).set b.toNat (if p.2.2 % 2 = 1 then dsaQ - 1 else 1), r, p.2.2 / 2)

/-- The challenge polynomial with 49 coefficients of 1 or -1. -/
def dsaBall (ct : List Byte) : List Nat :=
  let l := shake256 ct 544
  ((List.range 49).foldl (fun p k => ballStep p (207 + k)) (List.replicate 256 0, l.drop 8, leNat (l.take 8))).1

/-- The hint positions of the six polynomials, none for a malformed encoding. -/
def dsaHintGo (y : List Nat) : Nat → Nat → List (List Nat) → Option (List (List Nat))
  | 0, idx, l => if (y.take 55).drop idx |>.all (· == 0) then some l else none
  | n + 1, idx, l =>
    let e := y.getD (60 - n) 0
    if e < idx ∨ 55 < e then none
    else
      let p := (y.take e).drop idx
      if (List.zip p (p.drop 1)).all (fun (x : Nat × Nat) => x.1 < x.2) then dsaHintGo y n e (l ++ [p]) else none

def dsaHints (l : List Byte) : Option (List (List Nat)) := dsaHintGo (l.map (·.toNat)) 6 0 []

/-- The high part of a coefficient, adjusted by its hint. -/
def dsaUseHint (h : Bool) (r : Nat) : Nat :=
  let g := 523776
  let low := r % g
  let r0 : Int := if low > 261888 then (low : Int) - g else low
  let wrap := ((r : Int) - r0) = dsaQ - 1
  let r1 : Nat := if wrap then 0 else (((r : Int) - r0) / g).toNat
  let r0 := if wrap then r0 - 1 else r0
  if !h then r1 else if r0 > 0 then (r1 + 1) % 16 else (r1 + 15) % 16

/-- An ML-DSA-65 signature verifies over a message with a context. -/
def dsaVerify (pk sig ctx m : List Byte) : Bool :=
  match dsaHints ((sig.drop 3248).take 61) with
  | none => false
  | some hints =>
    let rho := pk.take 32
    let t1 := (groupsOf 320 6 (pk.drop 32)).map fun p => (unpackBits 10 256 p).map fun v => 8192 * v
    let ct := sig.take 48
    let z := (groupsOf 640 5 (sig.drop 48)).map fun p => (unpackBits 20 256 p).map fun (v : Nat) => (524288 : Int) - (v : Int)
    let small := z.all fun p => p.all fun v => decide (v.natAbs < 524092)
    let mu := shake256 (shake256 pk 64 ++ [0, BitVec.ofNat 8 ctx.length] ++ ctx ++ m) 64
    let c := dsaNtt (dsaBall ct)
    let zh := z.map fun p => dsaNtt (p.map fun (v : Int) => (v % (dsaQ : Int)).toNat)
    let w := (List.range 6).flatMap fun r =>
      let az := (List.range 5).foldl (fun a k => polyAdd dsaQ a (dsaMul (dsaSample rho r k) (zh.getD k [])))
        (List.replicate 256 0)
      let v := dsaInv (polySub dsaQ az (dsaMul c (dsaNtt (t1.getD r []))))
      let hs := hints.getD r []
      packBits 4 ((List.zip (List.range 256) v).map fun p => dsaUseHint (hs.contains p.1) p.2)
    small && decide (shake256 (mu ++ w) 48 = ct)

end Sys2Proof.Machine
end

