-- ==== Sys2Proof/Machine/Sec.lean ====
section
/-! DEFINITION. SEC: fuses, key slots, decryption windows, the public-key engine and debug authentication
(19_security.md R604 to R618). -/

namespace Sys2Proof.Machine

/-! Fuses (R604, R605): packed in the order of the table from bit 0 (log 25). -/

def fuseField (f lo n : Nat) : Nat := f >>> lo % 2 ^ n

def State.lifecycle (s : State) : Nat := fuseField s.sec.fuses 0 2
def State.rootKeyHash (s : State) : Nat := fuseField s.sec.fuses 2 384
def State.debugKeyHash (s : State) : Nat := fuseField s.sec.fuses 386 384
/-- The floor is the number of bits blown. -/
def State.svnFloor (s : State) : Nat := popCount 64 (fuseField s.sec.fuses 770 64)
def State.devSerial (s : State) : Nat := fuseField s.sec.fuses 868 64

/-- The part is BLANK (R605). -/
def State.isBlank (s : State) : Bool := s.lifecycle == 0

/-- The registers that show fuse fields (R604, R618; PCI_PORT_ID of 14_hosts_and_tenants.md; SYS_STATUS.ORDER_E). PUF_HELPER
reads 0. -/
def State.showFuses (s : State) : State :=
  let s := s.setRegBytes (rSec 0x1000) (leBytes 120 (s.sec.fuses % 2 ^ 932))
  let s := (s.setFld (rSec 0) 14 8 s.svnFloor).setBit (rSec 0) 4 (bitOf s.sec.fuses 834)
  let s := s.setBit (rSys 4) 7 (bitOf s.sec.fuses 867)
  (List.range 4).foldl (fun s n => s.setWord (rPciPort n 8) (fuseField s.sec.fuses 835 32)) s

/-- FUSE_ERR (R604, R605). -/
def State.fuseErr (s : State) (info : Nat) : State := (s.orWord (rSec 0) 0x80).orWord (rSec 4) 0x10 |>.fault 0x24 3 (mFwp 0) 0 info

/-- A bit may be programmed (R604, R605): LIFECYCLE once and with both hashes set, the hashes and the fields of production
before SECURED, the rest at any time. -/
def State.fuseAllowed (s : State) (b : Nat) : Bool :=
  if b < 2 then s.isBlank && decide (s.rootKeyHash ≠ 0) && decide (s.debugKeyHash ≠ 0)
  else if decide (770 ≤ b) && decide (b ≤ 834) then true
  else if b < 2980 then s.isBlank
  else false

/-- One fuse bit blown; whether it reads back as blown. -/
def State.blow (s : State) (b : Nat) (ok : Bool) : State :=
  if ok then ({ s with sec.fuses := setBitsOf s.sec.fuses b b 1 } : State).showFuses else s.fuseErr b

/-- FUSE_PROG (R604, R605): FWP-BOOT only. -/
def execFuseProg (m : Master) (b : BitVec 12) (readsBack : Bool) (s : State) : Host.Outcome State Fault Refusal :=
  if m ≠ mFwp 0 then .next (s.refuse m 2 (rSec 0x40))
  else if !s.fuseAllowed b.toNat then .next ((s.orWord (rSec 0) 0x80).orWord (rSec 4) 0x10 |>.respOk [])
  else .next ((s.blow b.toNat readsBack).respOk [])

/-! Key slots (R609, R610). -/

/-- The key-encryption key (R609). DEDUCED: HKDF without salt, the label as info, 32 bytes. -/
def kek : Nat := beNat (hkdf384 (beBytes 32 Config.pufKey) (asciiBytes "ZH8-KEK") 32)

/-- FWP-MODEL or the safety island (R610). -/
def State.keyMaster (s : State) (m : Master) : Bool := isFwpModel m || s.isIsland m

/-- An enabled window names a slot. -/
def State.slotNamed (s : State) (k : Nat) : Bool :=
  (List.range 64).any fun w => s.bit (rSecWin w 0xC) 31 && decide (s.fld (rSecWin w 0xC) 3 0 = k)

/-- A load or clear that a window or an access rule does not permit (R610). -/
def State.keyRefused (s : State) (m : Master) (k : Nat) : State := ((s.orWord (rSec 0x144) 0x40000).fault 0x24 1 m 0 k).respOk []

/-- KEY_UNWRAP (R610). -/
def execKeyUnwrap (m : Master) (slot : Fin 16) (s : State) : Host.Outcome State Fault Refusal :=
  if !s.keyMaster m then .next (s.refuse m 2 (rSec 0x140))
  else if s.slotNamed slot then .next (s.keyRefused m slot)
  else
    let key := if s.bit (rSec 0) 2 then none else keyUnwrap kek (s.regBytes (rSec 0x150) 40)
    match key with
    | some key => .next (({ s with sec.slots := fmPut s.sec.slots slot key } : State).setBit (rSec 0x144) slot true |>.respOk [])
    | none => .next (((s.orWord (rSec 0x144) 0x20000).orWord (rSec 4) 2).fault 0x24 1 m 0 slot |>.respOk [])

/-- KEY_CLEAR (R610). -/
def execKeyClear (m : Master) (slot : Fin 16) (s : State) : Host.Outcome State Fault Refusal :=
  if !s.keyMaster m then .next (s.refuse m 2 (rSec 0x140))
  else if s.slotNamed slot then .next (s.keyRefused m slot)
  else .next (({ s with sec.slots := fmDel s.sec.slots slot } : State).setBit (rSec 0x144) slot false |>.respOk [])

/-- A window's rules (R611): multiples of 64, within HBM, apart from every other enabled window. -/
def State.winOk (s : State) (w : Nat) : Bool :=
  let b := s.word64 (rSecWin w 0)
  let n := s.word (rSecWin w 8)
  decide (b % 64 = 0) && decide (n % 64 = 0) && decide (hbmBase ≤ b) && decide (b + n ≤ hbmBase + s.hbmBytes) &&
    ((List.range 64).all fun v =>
      v == w || !s.bit (rSecWin v 0xC) 31 || decide (b + n ≤ s.word64 (rSecWin v 0)) ||
        decide (s.word64 (rSecWin v 0) + s.word (rSecWin v 8) ≤ b))

/-- SEC_WIN_WRITE (R611): a write of the window's control word. -/
def execSecWinWrite (m : Master) (w : Fin 64) (v : BitVec 32) (s : State) : Host.Outcome State Fault Refusal :=
  let a := rSecWin w 0xC
  if !s.sysWriter m then .next (s.refuse m 2 a)
  else if bitOf v.toNat 31 && !s.winOk w then .next ((s.orWord a 0x40000000).respOk [])
  else
    let err := s.bit a 30 && !bitOf v.toNat 30
    .next (((s.setWord a 0).setFld a 3 0 v.toNat).setBit a 31 (bitOf v.toNat 31) |>.setBit a 30 err |>.respOk [])

/-! The public-key engine (R613 to R616). -/

/-- A master that may reach the engine: a firmware processor, the safety island, or the TAP (R616 to R618). -/
def State.pkMaster (s : State) (m : Master) : Bool := s.sysWriter m || m == mTap

/-- The engine is busy. -/
def State.pkBusy (s : State) : Bool := s.bit (rSec 0x18) 0

/-- The operand area cleared (R616). -/
def State.pkClear (s : State) : State := s.resetRegs (rSec 0x4000) (rSec 0x8000)

/-- The claim given up (R616). -/
def State.pkFree (s : State) : State := ({ s with sec.holder := none } : State).pkClear

/-- PK_CLAIM (R616): a read of SEC_PK_CLAIM. -/
def execPkClaim (m : Master) (s : State) : Host.Outcome State Fault Refusal :=
  if !(sysReader m || m == mTap) then .next (s.refuse m 1 (rSec 0x10))
  else
    match s.sec.holder with
    | none => .next (({ s with sec.holder := some m.toNat } : State).respOk (leBytes 4 (1 + 65536 * m.toNat)))
    | some h => .next (s.respOk (leBytes 4 (65536 * (h % 65536))))

/-- A write of the engine's registers that its rule lets through (R616). -/
def State.pkMay (s : State) (m : Master) : Bool := s.sec.holder == some m.toNat && !s.pkBusy

/-- PK_RELEASE (R616). -/
def execPkRelease (m : Master) (s : State) : Host.Outcome State Fault Refusal :=
  if !s.pkMaster m then .next (s.refuse m 2 (rSec 0x1C))
  else if !s.pkMay m then .next (s.ignoreWr m (rSec 0x1C))
  else .next (s.pkFree.respOk [])

/-- Cycles of an operation (R613). -/
def State.pkCycles (s : State) (op : Nat) : Nat :=
  match op with
  | 1 => 420000 | 2 => 1050000 | 3 => 780000 | 4 => 1960000 | 5 => 400000 | 6 => 1000000
  | 7 => 400000 | 8 => 1000000 | 9 => 360000
  | 10 => 210000 + 40 * ceilDiv (66 + s.fld (rSec 0x2C) 7 0 + s.word (rSec 0x28)) 136
  | _ => 95000

/-- An operation begins: it ends after its fixed time (R613). -/
def State.pkStart (s : State) (op : Nat) (keysrc debug : Bool) : State :=
  let o : PkOp := ⟨op, keysrc, s.now + 4 * s.pkCycles op, false, debug⟩
  ({ s with sec.op := some o } : State).setBit (rSec 0x18) 0 true

/-- A write of SEC_PK_CMD with GO (R614, R616). -/
def State.pkCmd (s : State) (m : Master) (op : Nat) (keysrc : Bool) : State :=
  if !s.pkMaster m then s.refuse m 2 (rSec 0x14)
  else if !s.pkMay m then s.ignoreWr m (rSec 0x14)
  else (s.pkStart op keysrc false).respOk []

def execEcdsaSignP256 (m : Master) (keysrc : Bool) (s : State) : Host.Outcome State Fault Refusal := .next (s.pkCmd m 1 keysrc)
def execEcdsaSignP384 (m : Master) (keysrc : Bool) (s : State) : Host.Outcome State Fault Refusal := .next (s.pkCmd m 2 keysrc)
def execEcdsaVerifyP256 (m : Master) (keysrc : Bool) (s : State) : Host.Outcome State Fault Refusal := .next (s.pkCmd m 3 keysrc)
def execEcdsaVerifyP384 (m : Master) (keysrc : Bool) (s : State) : Host.Outcome State Fault Refusal := .next (s.pkCmd m 4 keysrc)
def execEcdhP256 (m : Master) (keysrc : Bool) (s : State) : Host.Outcome State Fault Refusal := .next (s.pkCmd m 5 keysrc)
def execEcdhP384 (m : Master) (keysrc : Bool) (s : State) : Host.Outcome State Fault Refusal := .next (s.pkCmd m 6 keysrc)
def execKeygenP256 (m : Master) (keysrc : Bool) (s : State) : Host.Outcome State Fault Refusal := .next (s.pkCmd m 7 keysrc)
def execKeygenP384 (m : Master) (keysrc : Bool) (s : State) : Host.Outcome State Fault Refusal := .next (s.pkCmd m 8 keysrc)
def execX25519 (m : Master) (keysrc : Bool) (s : State) : Host.Outcome State Fault Refusal := .next (s.pkCmd m 9 keysrc)
def execMlDsa65Verify (m : Master) (keysrc : Bool) (s : State) : Host.Outcome State Fault Refusal := .next (s.pkCmd m 10 keysrc)
def execMlKem768Decapsulation (m : Master) (keysrc : Bool) (s : State) : Host.Outcome State Fault Refusal :=
  .next (s.pkCmd m 11 keysrc)

/-- Completion (R615, R616): the operand area cleared, outputs written, result, count and PK_DONE. -/
def State.pkFinish (s : State) (code : Nat) (outs : List (Nat × List Byte)) : State :=
  let s := ({ s with sec.op := none } : State).pkClear
  let s := if code = 0 then outs.foldl (fun s p => s.setRegBytes (rSec (0x4000 + p.1)) p.2) s else s
  let s := (s.setBit (rSec 0x18) 0 false).setFld (rSec 0x18) 15 8 code
  (s.setFld (rSec 0x18) 31 16 (s.fld (rSec 0x18) 31 16 + 1)).orWord (rSec 4) 1

/-- BAD_OP (R615): a reserved OP. -/
def execBadOp (m : Master) (op : BitVec 8) (s : State) : Host.Outcome State Fault Refusal :=
  if 1 ≤ op.toNat ∧ op.toNat ≤ 11 then .next s
  else if !s.pkMaster m then .next (s.refuse m 2 (rSec 0x14))
  else if !s.pkMay m then .next (s.ignoreWr m (rSec 0x14))
  else .next ((s.pkFinish 8 []).respOk [])

/-- The first code of a list of conditions in R615's order; 0 when none holds. -/
def firstCode : List (Bool × Nat) → Nat
  | [] => 0
  | (b, k) :: r => if b then k else firstCode r

/-- n bytes of the operand area at an offset. -/
def State.pkData (s : State) (o n : Nat) : List Byte := s.regBytes (rSec (0x4000 + o)) n

/-- The device identity key (R609). -/
def devKey : Nat := Config.deviceKey % (p384.n - 1) + 1

/-- The result of an elliptic-curve operation on a curve of k bytes: kind 0 sign, 1 verify, 2 ECDH, 3 key generation. -/
def State.pkCurve (s : State) (c : Curve) (k kind : Nat) (keysrc p384op : Bool) : State × Nat × List (Nat × List Byte) :=
  let num (o : Nat) : Nat := beNat (s.pkData o k)
  let h := num 0
  let d := if keysrc then devKey else num 0x40
  let q := s.pkData 0x80 (2 * k + 1)
  let x := beNat ((q.drop 1).take k)
  let y := beNat ((q.drop (k + 1)).take k)
  let r := num 0x140
  let sg := num 0x180
  let hasQ := kind == 1 || kind == 2
  let badKey := keysrc && !(p384op && (kind == 0 || kind == 2))
  let code := firstCode [
    (badKey || (hasQ && decide (q.getD 0 0 ≠ (4 : Byte))), 6),
    ((kind != 1 && decide (c.n ≤ d)) || (kind == 1 && (decide (c.n ≤ r) || decide (c.n ≤ sg))) ||
      (hasQ && (decide (c.p ≤ x) || decide (c.p ≤ y))), 3),
    (hasQ && !c.on x y, 4),
    ((kind != 1 && d == 0) || (kind == 1 && (r == 0 || sg == 0)), 2),
    (keysrc && s.bit (rSec 0) 2, 7),
    (kind == 1 && !c.verify h r sg x y, 1)]
  if code ≠ 0 then (s, code, [])
  else if kind = 0 then
    let (nonce, s) := s.takeFree
    let (r, sg) := c.sign h d (nonce % c.n)
    (s, 0, [(0x3000, beBytes k r), (0x3040, beBytes k sg)])
  else if kind = 1 then (s, 0, [])
  else
    match c.mul 400 d (if kind = 2 then some (x, y) else c.g) with
    | some (x, y) =>
      (s, 0, if kind = 2 then [(0x3000, beBytes k x)] else [(0x3080, [(4 : Byte)] ++ beBytes k x ++ beBytes k y)])
    | none => (s, 0, [])

/-- The result of X25519. -/
def State.pkX25519 (s : State) (keysrc : Bool) : Nat × List (Nat × List Byte) :=
  let u := leNat (s.pkData 0x80 32)
  let v := x25519 (leNat (s.pkData 0x40 32)) u
  let code := firstCode [(keysrc, 6), (decide (p25519 ≤ u % 2 ^ 255), 3), (v == 0, 5)]
  (code, [(0x3000, leBytes 32 v)])

/-- The result of ML-DSA-65 verification: the message is read by the holder with SYS = 1. -/
def State.pkDsa (s : State) (m : Master) (keysrc : Bool) : State × Nat :=
  match s.dmaReadLong m (s.word64 (rSec 0x20) % 2 ^ 52) (s.word (rSec 0x28)) with
  | (s, some (msg, false)) =>
    let ok := dsaVerify (s.pkData 0 1952) (s.pkData 0x800 3309) (s.pkData 0x1800 (s.fld (rSec 0x2C) 7 0)) msg
    (s, firstCode [(keysrc, 6), (!ok, 1)])
  | (s, _) => (s, 6)

/-- The result of ML-KEM-768 decapsulation. -/
def State.pkKem (s : State) (keysrc : Bool) : Nat × List (Nat × List Byte) :=
  let dk := s.pkData 0 2400
  if keysrc || !kemKeyOk dk then (6, []) else (0, [(0x3000, kemDecaps dk (s.pkData 0x1000 1088))])

/-- Result code and outputs of an operation. -/
def State.pkResult (s : State) (o : PkOp) : State × Nat × List (Nat × List Byte) :=
  match o.op with
  | 1 => s.pkCurve p256 32 0 o.keysrc false
  | 2 => s.pkCurve p384 48 0 o.keysrc true
  | 3 => s.pkCurve p256 32 1 o.keysrc false
  | 4 => s.pkCurve p384 48 1 o.keysrc true
  | 5 => s.pkCurve p256 32 2 o.keysrc false
  | 6 => s.pkCurve p384 48 2 o.keysrc true
  | 7 => s.pkCurve p256 32 3 o.keysrc false
  | 8 => s.pkCurve p384 48 3 o.keysrc true
  | 9 => (s, s.pkX25519 o.keysrc)
  | 10 => match s.pkDsa (BitVec.ofNat 16 (s.sec.holder.getD 0)) o.keysrc with | (s, c) => (s, c, [])
  | _ => (s, s.pkKem o.keysrc)

/-- A failed debug submission (R617). -/
def State.dbgFail (s : State) : State :=
  (((s.bumpSat (rSec 0) 6 5).orWord (rSec 4) 4).fault 0x24 1 mTap 0 0)

/-- PK_COMPLETE (R615 to R617). -/
def execPkComplete (s : State) : Host.Outcome State Fault Refusal :=
  match s.sec.op with
  | none => .next s
  | some o =>
    let s := s.timeTo o.due
    let (s, code, outs) := s.pkResult o
    if o.abandon then .next ((s.pkFinish 9 []).pkFree)
    else
      let s := s.pkFinish code outs
      if !o.debug then .next s
      else
        let s := s.pkFree
        if code = 0 then .next ((s.orWord (rSec 0) 8).fault 0x24 1 mTap 0 1) else .next s.dbgFail

/-! Debug authentication (R617). -/

/-- NEW_CHAL (R617): 32 random bytes. -/
def State.newChal (s : State) (m : Master) : State :=
  if !s.pkMaster m then s.refuse m 2 (rSec 0x120)
  else
    let (l, s) := s.freeBytes 32
    ((s.setRegBytes (rSec 0x100) l).respOk [] : State) |> fun s => { s with sec.chal := true }

def execNewChal (m : Master) (s : State) : Host.Outcome State Fault Refusal := .next (s.newChal m)

/-- The hash that a submission signs (R617). -/
def State.chalHash (s : State) : List Byte :=
  sha384 (s.regBytes (rSec 0x100) 32 ++ leBytes 4 (s.word (rSys 0)) ++ leBytes 8 s.devSerial)

/-- A submission (R617): refused at once; failed by its key or for want of a challenge; or its verification begins with the
engine claimed as master 0xE000. It waits while the engine serves another master. -/
def State.submit (s : State) (m : Master) (key : List Byte) (r sg : Nat) : State :=
  if !s.pkMaster m then s.refuse m 2 (rSec 0x120)
  else if bitOf s.sec.fuses 834 || decide (s.fld (rSec 0) 6 5 ≥ 3) then s.respErr
  else if s.sec.holder.isSome then s
  else if !s.sec.chal then s.dbgFail.respOk []
  else
    let s := { s with sec.chal := false }
    if !s.isBlank && decide (beNat (sha384 key) ≠ s.debugKeyHash) then s.dbgFail.respOk []
    else
      let s := { s with sec.holder := some mTap.toNat, sec.dbgKey := key }
      let s := s.setRegBytes (rSec 0x4000) s.chalHash
      let s := (s.setRegBytes (rSec 0x4080) key).setRegBytes (rSec 0x4140) (beBytes 48 r)
      ((s.setRegBytes (rSec 0x4180) (beBytes 48 sg)).pkStart 4 false true).respOk []

def execSubmit (m : Master) (key : BitVec 776) (r sg : BitVec 384) (s : State) : Host.Outcome State Fault Refusal :=
  .next (s.submit m (beBytes 97 key.toNat) r.toNat sg.toNat)

/-! Resets (R599, R605, R609, R610, R616). -/

/-- SEC after a reset that reaches it: registers at their reset values, slots empty, fuses kept and shown; the keys of the
unclonable function exist unless it failed. -/
def State.secReset (s : State) (pufOk : Bool) : State :=
  let s := s.resetBlock bSEC
  let s := ({ s with sec.slots := [], sec.holder := none, sec.op := none, sec.chal := false, sec.dbgKey := [] } : State).showFuses
  let s := if s.isBlank then s.orWord (rSec 0) 1 else s
  if pufOk then
    let s := s.orWord (rSec 0) 2
    match p384.mul 400 devKey p384.g with
    | some (x, y) => s.setRegBytes (rSec 0x80) ([(4 : Byte)] ++ beBytes 48 x ++ beBytes 48 y)
    | none => s
  else s.orWord (rSec 0) 4

end Sys2Proof.Machine
end

