-- ==== Sys2Proof/Machine/Flash.lean ====
section
/-! DEFINITION. The boot flashes, their control records, and the check of a boot image (16_firmware_and_boot.md R517 to R522;
19_security.md R605, R607). -/

namespace Sys2Proof.Machine

/-! Flash contents. -/

/-- What an erased byte reads as. DESIGN CHOICE (log 233). -/
def flashDefault (_ : Nat) : Byte := 0xFF

/-- The n bytes of the flash of slot k (0 A, 1 B) from offset o. -/
def State.flashBytes (s : State) (k o n : Nat) : List Byte := stGetRun flashDefault s.fwp.flash (2 ^ 32 * k + o) n

def State.flashPut (s : State) (k o : Nat) (l : List Byte) : State :=
  { s with fwp.flash := stPutRun flashDefault s.fwp.flash (2 ^ 32 * k + o) l }

/-! Control records (R517). -/

def ctlOk (l : List Byte) : Bool :=
  decide (leAt l 0 4 = 0x4C43485A) && decide (leAt l 4 2 = 1) && decide (1 ≤ leAt l 6 1) && decide (leAt l 6 1 ≤ 3) &&
    decide (leAt l 0x3C 4 = leNat (leBytes 4 (crc32c (l.take 0x3C))))

/-- The control record of a slot: copy 0 when it is valid, else copy 1. -/
def State.slotCtl (s : State) (k : Nat) : Option (List Byte) :=
  let c0 := s.flashBytes k 0 64
  let c1 := s.flashBytes k 0x1000 64
  if ctlOk c0 then some c0 else if ctlOk c1 then some c1 else none

def ctlState (l : List Byte) : Nat := leAt l 6 1
def ctlTries (l : List Byte) : Nat := leAt l 7 1
def ctlSeq (l : List Byte) : Nat := leAt l 8 4
def ctlOfs (l : List Byte) : Nat := leAt l 0xC 4
def ctlBytesOf (l : List Byte) : Nat := leAt l 0x10 4

/-- The 64 bytes of a control record. -/
def ctlRecord (state tries seq ofs bytes : Nat) : List Byte :=
  let l := leBytes 4 0x4C43485A ++ leBytes 2 1 ++ leBytes 1 state ++ leBytes 1 tries ++ leBytes 4 seq ++ leBytes 4 ofs ++
    leBytes 4 bytes ++ zeroBytes 40
  l ++ leBytes 4 (crc32c l)

/-- A control record is written: copy 1 first, then copy 0. -/
def State.ctlWrite (s : State) (k : Nat) (l : List Byte) : State := (s.flashPut k 0x1000 l).flashPut k 0 l

/-- The slot's record with another STATE and TRIES. -/
def State.ctlMark (s : State) (k state tries : Nat) : State :=
  match s.slotCtl k with
  | some l => s.ctlWrite k (ctlRecord state tries (ctlSeq l) (ctlOfs l) (ctlBytesOf l))
  | none => s

/-! Slot selection (R518). -/

def ctlCand (l : List Byte) : Bool := ctlState l == 1 || (ctlState l == 2 && decide (ctlTries l ≥ 1))

/-- Rejection code of a slot before any attempt: 1 no valid record, 2 BAD or out of tries, 0 a candidate. -/
def State.slotRej (s : State) (k : Nat) : Nat :=
  match s.slotCtl k with
  | none => 1
  | some l => if ctlCand l then 0 else 2

/-- The candidates: by SEQ, highest first, equal ones A first. -/
def State.slotCands (s : State) : List Nat :=
  match s.slotRej 0, s.slotRej 1 with
  | 0, 0 =>
    match s.slotCtl 0, s.slotCtl 1 with
    | some a, some b => if ctlSeq a ≥ ctlSeq b then [0, 1] else [1, 0]
    | _, _ => []
  | 0, _ => [0]
  | _, 0 => [1]
  | _, _ => []

/-- The ROM reads the control records and orders the candidates. -/
def State.bootSelect (s : State) : State :=
  let s := s.setWord (rFwp 0x10) (s.slotRej 0 + s.slotRej 1 * 16)
  { s with fwp.boot := 1, fwp.cands := s.slotCands }

/-- The first candidate fails with a code (R518). -/
def State.slotFail (s : State) (code : Nat) : State :=
  match s.fwp.cands with
  | [] => s
  | k :: r => { s.setFld (rFwp 0x10) (4 * k + 3) (4 * k) code with fwp.cands := r, fwp.boot := 1 }

/-! The image (R519 to R522). -/

/-- Code 4: the header, with the control record. -/
def imgHeaderOk (h ctl : List Byte) : Bool :=
  let n := leAt h 8 4
  decide (leAt h 0 4 = 0x4252485A) && decide (leAt h 4 2 = 1) && decide (leAt h 6 2 = 0) && decide (n % 4096 = 0) &&
    decide (0x4000 ≤ n) && decide (n ≤ 0x10000000) && decide (n = ctlBytesOf ctl) && decide (leAt h 0xC 4 = n - 4096) &&
    decide (leAt h 0x1C 2 = 8) && allZero (sliceBytes h 0x1E 226) && decide (ctlOfs ctl % 0x10000 = 0) && decide (0x10000 ≤ ctlOfs ctl)

/-- A segment of the table: offset, bytes, target, load, entry, CRC. -/
structure ImgSeg where
  ofs : Nat
  n : Nat
  target : Nat
  load : Nat
  entry : Nat
  crc : Nat
  deriving DecidableEq, Repr

def imgSegs (img : List Byte) : List ImgSeg :=
  (List.range 8).map fun i =>
    let e := sliceBytes img (0x100 + 32 * i) 32
    ⟨leAt e 0 4, leAt e 4 4, leAt e 8 1, leAt e 0xC 4, leAt e 0x10 4, leAt e 0x14 4⟩

/-- The most that a target takes. -/
def segLimit (t : Nat) : Nat := if t = 0 then 0xC0000 else if t < 6 then 0x100000 else if t = 6 then 0x40000 else 0x1000000

/-- One entry agrees with R521. ENTRY lies within the segment as it is loaded: DEDUCED (log 234). -/
def imgSegOk (img : List Byte) (sigOfs : Nat) (x : ImgSeg) : Bool :=
  decide (x.ofs % 64 = 0) && decide (64 ≤ x.n) && decide (x.target < 8) && decide (x.n ≤ segLimit x.target) &&
    decide (0x1000 ≤ x.ofs) && decide (x.ofs + x.n ≤ sigOfs) &&
    (if x.target < 6 then
      decide (x.load % 64 = 0) && decide (x.load + x.n ≤ segLimit x.target) && decide (x.load ≤ x.entry) && decide (x.entry < x.load + x.n)
    else decide (x.load = 0) && decide (x.entry = 0)) &&
    decide (crc32c (sliceBytes img x.ofs x.n) % 2 ^ 32 = x.crc)

/-- Code 9: the segment table and every CRC. -/
def imgSegsOk (img : List Byte) (sigOfs : Nat) : Bool :=
  let l := imgSegs img
  let pad := (List.range 8).all fun i => allZero (sliceBytes img (0x109 + 32 * i) 3) && allZero (sliceBytes img (0x118 + 32 * i) 8)
  allZero (sliceBytes img 0x200 256) && pad && (l.all fun x => imgSegOk img sigOfs x) &&
    ((List.range 8).all fun t => (l.filter fun x => decide (x.target = t)).length == 1) &&
    ((List.range 8).all fun i => (List.range i).all fun j =>
      match l[i]?, l[j]? with
      | some x, some y => decide (x.ofs + x.n ≤ y.ofs) || decide (y.ofs + y.n ≤ x.ofs)
      | _, _ => true)

/-- Code 7: ECDSA P-384 over the digest. -/
def imgEcdsaOk (img m : List Byte) (sigOfs : Nat) : Bool :=
  let x := beAt img 0x301 48
  let y := beAt img 0x331 48
  let r := beAt img sigOfs 48
  let g := beAt img (sigOfs + 48) 48
  decide (leAt img 0x300 1 = 4) && decide (x < p384.p) && decide (y < p384.p) && p384.on x y && decide (0 < r) && decide (r < p384.n) &&
    decide (0 < g) && decide (g < p384.n) && p384.verify (beNat m) r g x y

/-- Code 8: ML-DSA-65 over the digest, empty context. -/
def imgDsaOk (img m : List Byte) (sigOfs : Nat) : Bool :=
  dsaVerify (sliceBytes img 0x380 1952) (sliceBytes img (sigOfs + 0x60) 3309) [] m

/-- The first of codes 4 to 9 that an image fails, 0 for none (R522). A BLANK part skips 5 and 6 (R605). -/
def State.imgCode (s : State) (img ctl : List Byte) : Nat :=
  let sigOfs := leAt img 0xC 4
  if !imgHeaderOk (img.take 256) ctl then 4
  else
    let m := sha384 (img.take sigOfs)
    firstCode [
      (!s.isBlank && decide (beNat (sha384 (sliceBytes img 0x300 0x820)) ≠ s.rootKeyHash), 5),
      (!s.isBlank && decide (leAt img 0x10 4 < s.svnFloor), 6),
      (!imgEcdsaOk img m sigOfs, 7), (!imgDsaOk img m sigOfs, 8), (!imgSegsOk img sigOfs, 9)]

/-- The payload of the segment for a target. -/
def imgTarget (img : List Byte) (t : Nat) : List Byte :=
  match (imgSegs img).find? fun x => decide (x.target = t) with
  | some x => sliceBytes img x.ofs x.n
  | none => []

/-- The image of a slot as its control record places it; a length that no image has is not read. -/
def State.slotImage (s : State) (k : Nat) (ctl : List Byte) : List Byte :=
  s.flashBytes k (ctlOfs ctl) (if ctlBytesOf ctl ≤ 0x10000000 then ctlBytesOf ctl else 0)

end Sys2Proof.Machine
end

