-- ==== Sys2Proof/Machine/Boot.lean ====
section
/-! DEFINITION. Resets, supply rails, the start order and the application of the configuration record
(18_power_clocks_reset.md R582 to R585, R596, R599 to R601; 16_firmware_and_boot.md R518, R523 to R525, R528 to R532;
05_cells.md R168; 19_security.md R605, R609). -/

namespace Sys2Proof.Machine

/-! Resets (R599, R600). -/

/-- What a COLD reset leaves, with the cause of the reset: fuses, flashes, class L, the history of class S exits, COLD_COUNT,
the collector's stay on the ring oscillator (R478), pin levels, and what belongs to the model. -/
def State.coldState (s : State) (cause : Nat) : State :=
  let l := s.bit rFltState stL
  let ring := s.bit rFltState stRing
  let xin := s.bit (rCkg 0x10) 2
  let cnt := s.fld (rCkg 0xC) 31 16
  let gpio := s.word64 (blkBase bPER + 0x3010)
  let s := if s.bit rFltState stSafeN then s.emit (.pin ballSafeN false) else s
  let r := { State.reset with
    pending := s.pending
    out := s.out
    resp := s.resp
    now := s.now
    free := s.free
    flt := { FltS.reset with sExits := s.flt.sExits, safeRel := s.now }
    ptp := { PtpS.reset with ppsIn := s.ptp.ppsIn }
    fwp := { FwpS.reset with flash := s.fwp.flash }
    sec := { SecS.reset with fuses := s.sec.fuses, powerOns := s.sec.powerOns }
    tap := { s.tap with held := if s.tap.held = 2 then 0 else s.tap.held } }
  let r := (r.setWord (rCkg 0xC) (cause % 16 + 2 ^ 16 * cnt)).setWord64 (blkBase bPER + 0x3010) gpio
  let r := ((r.setBit rFltState stL l).setBit rFltState stRing ring).updateFc
  let r := r.setBit (rCkg 0x10) 2 (ring && xin)
  (r.secReset (Config.pufReconstructs r.sec.powerOns)).bootSelect

/-- A COLD reset: COLD_COUNT counts it. -/
def State.coldReset (s : State) (cause : Nat) : State := (s.bumpSat (rCkg 0xC) 31 16).coldState cause

/-- A POWER_ON reset: the history of class S exits, class L and COLD_COUNT go too, and the TAP; the unclonable key is
reconstructed anew; PWRGRP3_EN falls (R584). -/
def State.powerOnReset (s : State) (cause : Nat) : State :=
  let s := if s.bit (rPwr 4) 4 then s.emit (.pin ballGrp3 false) else s
  let s := ((s.setWord (rCkg 0xC) 0).setBit rFltState stL false).setBit rFltState stRing false
  let s := { s with flt.sExits := [], tap := .reset, sec.powerOns := s.sec.powerOns + 1 }
  s.coldState cause

/-- The collector writes the TWN, FLT and AWL entries of a record, and AWL_STATUS.ALLOWED (R528, R532). -/
def State.cfgCollector (s : State) (r : List Byte) : State :=
  let s := (cfgAllLoads r).foldl (fun s p => if cfgIsland p.1 then s.cfgWord p.1 p.2 else s) s
  (s.setBit (rAwl 4) 0 (bitOf (leAt r 0xD 1) 3)).updatePairs

/-- A register word of the island takes the bits of an entry that are marked loaded, a window of TWN_WIN all of them (R532). -/
def State.cfgAgain (s : State) (ofs v : Nat) : State :=
  let k := ofs / 0x100000
  let o := ofs % 0x100000
  if k = bTWN && decide (0x400 ≤ o) && decide (o < 0x440) then s.cfgWord ofs v
  else
    match findReg (blockRegs k) o with
    | none => s
    | some (d, _, _, b) =>
      let m := bitsOf (accMask .ld d.flds >>> (8 * (b / 4 * 4))) 31 0
      s.setWord (csrBase + ofs) ((s.word (csrBase + ofs) &&& (0xFFFFFFFF - m)) ||| (v &&& m))

/-- At a later release of the SAFE domain the collector writes the loaded fields and the windows again (R532, R601). -/
def State.cfgReload (s : State) (r : List Byte) : State :=
  let s := (cfgAllLoads r).foldl (fun s p => if cfgIsland p.1 then s.cfgAgain p.1 p.2 else s) s
  (s.setBit (rAwl 4) 0 (bitOf (leAt r 0xD 1) 3)).updatePairs

/-- The record in FWP_CFG_COPY. -/
def State.cfgCopy (s : State) : List Byte :=
  let a := s.word64 (rFwp 0x28)
  s.bytes a (min (s.mnat (a + 8) 4) 0x1000000)

/-- An ISLAND reset (R601): class S from source 0x28, the SAFE domain reset, its loaded fields written again, class S ACTIVE. -/
def State.islandReset (s : State) (m : Master) : State :=
  let s := s.fault 0x28 4 m 0 0
  let l := s.bit rFltState stL
  let ring := s.bit rFltState stRing
  let s := ((s.resetBlock bTWN).resetBlock bFLT).resetBlock bAWL
  let s := { s with
    twn := { TwnS.reset with dead := s.twn.dead }
    flt := { FltS.reset with sExits := s.flt.sExits, safeRel := s.now, sSrc := 0x28, sLast := s.now, hbFrom := s.flt.hbFrom.map fun _ => s.now }
    awl := .reset
    fwp.safe := 1
    fab.audit := none
    fab.auditAt := s.now }
  let s := (s.setBit (rFab 4) 0 false).setFld (rCkg 0xC) 3 0 4
  let s := if s.bit (rSys 4) 8 then s.cfgReload s.cfgCopy else s
  (((s.setBit rFltState stS true).setBit rFltState stL l).setBit rFltState stRing ring).updateFc

/-- The start-up test ends: passing pairs start with a0 = 0, failing ones are FAILED, one record each (R486). The boot window
closes, and after an ISLAND reset the collector writes window 0 of the record again (R524, R601). -/
def execStartupTestDone (pass : BitVec 6) (s : State) : Host.Outcome State Fault Refusal :=
  if s.fwp.safe ≠ 2 then .next s
  else
  let s := ({ s with fwp.safe := 3 }.setWord (rTwn 0x400) 0).setWord (rTwn 0x404) 0
  let s := (List.range 6).foldl (fun s n =>
    if s.pairState n ≠ 1 then s
    else if bitOf pass.toNat n then
      { s.setPair n 2 with twn.a0 := setAt s.twn.a0 n 0 }.fault 7 1 (mPair n) n 0
    else (s.setPair n 4).fault 7 3 (mPair n) n 0) s
  let s := s.setBit (rTwn 0) 24 true
  let s := if s.bit (rSys 4) 8 then s.cfgReload s.cfgCopy else s
  let s := (List.range 6).foldl State.attachNow s
  .next (if s.fwp.boot = 5 then s.bootPower else s)

/-- A TAP reset: IDCODE; a ball-controlling instruction lets go only at the next COLD or POWER_ON reset (R633). -/
def State.tapReset (s : State) : State :=
  { s with tap := { s.tap with ir := 2, refused := false, held := if s.tap.held = 1 then 2 else s.tap.held } }

/-- POWER_ON_RESET: PORST_N low. -/
def execPowerOnReset (s : State) : Host.Outcome State Fault Refusal := .next (s.powerOnReset 0)

/-- A write of CKG_RESET with TYPE COLD (R599). -/
def State.coldWrite (s : State) (m : Master) : State :=
  if s.isEligiblePair m then s.coldReset 2
  else if isFwp m then s.coldReset 3
  else s.ignoreWr m (rCkg 8)

/-- COLD_RESET: RESET_N low when no master is named, else CKG_RESET with TYPE COLD. -/
def execColdReset (by_ : Option Master) (s : State) : Host.Outcome State Fault Refusal :=
  .next (match by_ with | none => s.coldReset 1 | some m => s.coldWrite m)

/-- A write of CKG_RESET with TYPE ISLAND: an ELIGIBLE pair or FWP-FAULT. -/
def State.islandWrite (s : State) (m : Master) : State :=
  if s.isEligiblePair m || m == mFwp 4 then (s.islandReset m).respOk [] else s.ignoreWr m (rCkg 8)

def execIslandReset (m : Master) (s : State) : Host.Outcome State Fault Refusal := .next (s.islandWrite m)

def execTapReset (s : State) : Host.Outcome State Fault Refusal := .next s.tapReset

/-! Start order, steps 1 to 4 (R518, R522, R523, R531). -/

/-- FWP-BOOT runs the firmware of an image: steps 2 and 3. -/
def State.bootRun (s : State) (k : Nat) (img : List Byte) (trial : Bool) (seq : Nat) : State :=
  let s := { s with
    fwp.boot := 4
    fwp.build := leAt img 0x18 4
    fwp.svn := leAt img 0x10 4
    fwp.seq := seq
    fwp.segs := (List.range 7).map fun t => imgTarget img t
    fwp.record := imgTarget img 7 }
  let s := (s.setProc 0 2).setPhase 1
  let s := (s.setFld (rFwp 0) 5 4 (k + 1)).setBit (rFwp 0) 6 trial
  let s := (s.setFld (rFwp 0x14) 15 0 (leAt img 0x14 2)).setFld (rFwp 0x14) 31 16 (leAt img 0x16 2)
  s.setFld (rSys 4) 6 4 (k + 1)

/-- The ROM tries the first candidate (R518): a TRIAL slot spends one of its tries first. -/
def State.imageVerify (s : State) (readErr : Bool) : State :=
  let s := if s.fwp.boot = 0 then s.bootSelect else s
  match s.fwp.boot, s.fwp.cands with
  | 1, k :: _ =>
    match s.slotCtl k with
    | none => s.slotFail 1
    | some ctl =>
      let s := s.setBit (rFwp 0x10) (8 + k) true
      let trial := ctlState ctl == 2
      let s := if trial then s.ctlMark k 2 (ctlTries ctl - 1) else s
      if readErr then s.slotFail 3
      else
        let img := s.slotImage k ctl
        match s.imgCode img ctl with
        | 0 => s.bootRun k img trial (ctlSeq ctl)
        | e => s.slotFail e
  | _, _ => s

/-- IMAGE_VERIFY: readErr tells that the image could not be read, retry included. -/
def execImageVerify (readErr : Bool) (s : State) : Host.Outcome State Fault Refusal := .next (s.imageVerify readErr)

/-- Step 4 (R531): an invalid record gives control back to the ROM, with an EVENT entry. -/
def State.recordCheck (s : State) : State :=
  if s.fwp.boot ≠ 4 then s
  else
    match s.cfgCheck s.fwp.record with
    | none => { s with fwp.boot := 5, fwp.safe := 1, flt.safeRel := s.now }
    | some (sect, o) =>
      let (f, s) := s.takeFree
      let s := s.logWrite 0 0 (f % 4) (f / 4 % 65536) [sect, o]
      let s := (s.slotFail 10).setPhase 0
      ((s.setFld (rFwp 0) 6 4 0).setFld (rSys 4) 6 4 0).setProc 0 0

def execConfigRecordCheck (s : State) : Host.Outcome State Fault Refusal := .next s.recordCheck

/-- RECOVERY_ENTER (R525): no candidate is left; port 0 is an endpoint at Gen3 and up to x8. -/
def State.recoveryEnter (s : State) : State :=
  let s := if s.fwp.boot = 0 then s.bootSelect else s
  if s.fwp.boot ≠ 1 || !s.fwp.cands.isEmpty then s
  else
    let s := { s.setPhase 4 with fwp.boot := 15 }
    s.setFld (rPciPort 0 0) 6 0 (1 + 3 * 4 + 3 * 32)

def execRecoveryEnter (s : State) : Host.Outcome State Fault Refusal := .next s.recoveryEnter

/-! Rails (R582, R584, R585, R596). -/

def rVmon (v : Nat) : Nat := rPwr (0x180 + 4 * v)

/-- Nominal voltage in mV, in the order of PWR_VMON; at step 6 of the start order the cell rails rise to the boot profile's. -/
def State.railMv (s : State) (v : Nat) : Nat :=
  if v ≥ 12 then profMv (if s.fwp.boot = 6 then leAt s.fwp.record 0xC 1 else s.profile) else [800, 1800, 1800, 1800, 1200, 750, 750, 750, 1100, 500, 750, 900].getD v 0

/-- Tolerance in percent. -/
def railTol (v : Nat) : Nat := [3, 5, 5, 3, 3, 3, 3, 3, 3, 3, 2, 3, 2, 2].getD v 0

/-- The rail's group is due to be up: group 3 from step 6 on. -/
def State.railDue (s : State) (v : Nat) : Bool := decide (v < 11) || s.bit (rPwr 4) 4

def State.railLow (s : State) (v mv : Nat) : Bool := decide (100 * mv < s.railMv v * (100 - railTol v))
def State.railHigh (s : State) (v mv : Nat) : Bool := decide (100 * mv > s.railMv v * (100 + railTol v))

/-- PWR_VMON shows a measurement. -/
def State.showRail (s : State) (v mv : Nat) : State :=
  ((s.setFld (rVmon v) 11 0 mv).setBit (rVmon v) 12 (s.railLow v mv)).setBit (rVmon v) 13 (s.railHigh v mv)

/-- Voltage of a rail as last measured; one never measured is at its nominal value. -/
def State.railNow (s : State) (v : Nat) : Nat := if s.fld (rVmon v) 11 0 = 0 then s.railMv v else s.fld (rVmon v) 11 0

/-- The largest difference between adjacent islands (R596): VDD_CELL and VDD_FAB of a die, VDD_FAB and VDD_HIO, VDD_HC and
VDD_HIO, VDD_SAFE and VDD_HIO. -/
def State.railDiff (s : State) : Nat :=
  let d (a b : Nat) : Nat := max (s.railNow a) (s.railNow b) - min (s.railNow a) (s.railNow b)
  [d 12 6, d 13 7, d 6 5, d 7 5, d 11 5, d 0 5].foldl max 0

/-- The difference is judged: class D above 200 mV, class S above 250 mV or when it lasts 100 microseconds. -/
def State.judgeDiff (s : State) (v : Nat) : State :=
  let n := s.railDiff
  if n ≤ 200 then { s with pwr.diffAt := 0 }
  else
    let first := decide (s.pwr.diffAt = 0)
    let s := if first then { s with pwr.diffAt := s.now + 1 } else s
    if n > 250 || decide (s.pwr.diffAt + 400000 ≤ s.now + 1) then s.fault 0x22 4 mCollector v n
    else if first then s.fault 0x22 3 mCollector v n
    else s

/-- RAIL_DEPARTURE: a measurement outside the tolerance that has lasted as R585 asks. -/
def execRailDeparture (rail : Fin 14) (mv : BitVec 12) (s : State) : Host.Outcome State Fault Refusal :=
  let v := rail.val
  let x := mv.toNat
  if !s.railDue v || !(s.railLow v x || s.railHigh v x) then .next s
  else
    let s := (s.showRail v x).orWord rPwrIrq 0x40
    let low := decide (x * 10 < s.railMv v * 9)
    if low && decide (v < 2) then .next (s.powerOnReset 5)
    else .next ((s.fault 0x22 (if low then 4 else 3) mCollector v x).judgeDiff v)

/-- Clocks at the boot profile (step 6; R21, R34): the clock of an LPDDR controller is not stated. -/
def State.bootClocks (s : State) : State :=
  let prof := leAt s.fwp.record 0xC 1
  let v := s.cfgView s.fwp.record
  let s := { (s.setFld (rSys 4) 2 0 prof).setFld (rPwr 4) 2 1 prof with fwp.boot := 7 }
  let s := ((s.emit (.avs 11 900)).emit (.avs 12 (profMv prof))).emit (.avs 13 (profMv prof))
  let off := s.profGated prof
  let s := (List.range 16).foldl (fun s p => s.setWord (rDom p) (profMHz prof + 2 ^ 16 + (if bitOf off p then 2 ^ 17 else 0))) s
  let dom (s : State) (d f : Nat) : State := s.setWord (rDom d) (f + 2 ^ 16)
  let s := [16, 17].foldl (fun s d => dom s d 2000) s
  let s := [18, 19, 20, 21].foldl (fun s d => dom s d (if profPin prof = 9600 then 1200 else 800)) s
  let s := [0, 1, 2, 3].foldl (fun s n =>
    if v.fld (rMem (0x100 + 4 * n)) 1 0 = 0 then dom s (22 + n) 0
    else (let (f, s) := s.takeFree; dom s (22 + n) (f % 65536))) s
  let s := (List.range 6).foldl (fun s n => dom s (26 + n) 3200) s
  let s := dom (dom (dom s 32 1200) 33 1000) 34 2000
  let s := (List.range 4).foldl (fun s n => dom s (39 + n) 1000) s
  let s := dom (dom (dom (dom s 43 800) 44 125) 45 800) 46 200
  s.setFld (rCkg 0x10) 1 0 3

/-- RAIL_WITHIN_TOLERANCE: with the last group 3 rail within tolerance boot goes on at step 6. -/
def execRailWithinTolerance (rail : Fin 14) (mv : BitVec 12) (s : State) : Host.Outcome State Fault Refusal :=
  let v := rail.val
  let x := mv.toNat
  if !s.railDue v || s.railLow v x || s.railHigh v x then .next s
  else
    let s := (s.showRail v x).judgeDiff v
    let up := [11, 12, 13].all fun r => s.fld (rVmon r) 13 12 = 0
    .next (if s.fwp.boot = 6 && up then s.bootClocks else s)

/-- GROUP3_RAIL_TIMEOUT (R585): class L, and boot stops. -/
def execGroup3RailTimeout (s : State) : Host.Outcome State Fault Refusal :=
  if s.fwp.boot ≠ 6 || ([11, 12, 13].all fun r => s.fld (rVmon r) 13 12 = 0) then .next s
  else
    let s := s.timeTo (s.pwr.grp3At + 40000000)
    .next (({ s with fwp.boot := 8 } : State).fault 0x22 5 mCollector 0 0)

/-! Steps 7 to 10 (R168, R523, R528 to R532). -/

/-- The cell test of a panel: which physical cells pass; a panel that is not powered keeps its cells untested in order
(log 236). -/
def State.cellTest (s : State) (p : Nat) (pass : BitVec 17) (on : Bool) : State :=
  let good := if on then setBitsList 17 pass.toNat else List.range 17
  let s := (List.range 17).foldl (fun s i =>
    match good.findIdx? (fun g => decide (g = i)) with
    | some j => if j < 16 then (s.setPhysState p i 0).setFld (rPhys p i) 7 4 j else s.setPhysState p i 1
    | none => s.setPhysState p i 4) s
  let s := if on then s.setBit (rPanelSt p) 5 false else s
  let s := (List.range 16).foldl (fun s j =>
    let c := p * 16 + j
    match good[j]? with
    | some i => (s.setFld (rCell c 0) 8 4 i).enter c (if on then csIDLE else csOFF)
    | none => s.makeAbsent c) s
  let s := s.showSpare p
  if good.length < 16 then s.fault 0x12 3 (mFwp 0) p good.length else s

/-- One REGLOAD entry outside the island's blocks (R528): TACK_CFG acts as a write of it does. -/
def State.applyLoad (s : State) (ofs v : Nat) : State :=
  let o := ofs % 0x100000
  if cfgIsland ofs then s
  else if decide (ofs / 0x100000 = bPHX) && decide (0x40000 ≤ o) && decide (o < 0x80000) && decide (o % 0x40 = 0x10) then
    s.tackCfgWrite (mFwp 0) none ((o - 0x40000) / 0x40) v
  else s.cfgWord ofs v

/-- One section (R527 to R529); MODELS entries wait for step 10. -/
def State.applySect (s : State) (r : List Byte) (x : CfgSect) : State :=
  let d := x.data r
  match x.type with
  | 1 => (cfgLoads d).foldl (fun s p => s.applyLoad p.1 p.2) s
  | 2 =>
    let (a, n, z) := blobOf x r
    if z then s.clearMem a (a + n) else s.memPut (mFwp 0) a (d.drop 8) false
  | 3 => (itemsOf d 64).foldl (fun s e => { s with sfe.pipe := fmPut s.sfe.pipe (leAt e 0 1) e }) s
  | 4 =>
    let l := (itemsOf (d.drop 8) 4).map fun e => (leAt e 0 2, leAt e 2 2)
    { s with sfe.defects := fmPut s.sfe.defects (leAt d 0 1) l }
  | _ => s

/-- SYS_MODE (R24, R33), from MODES and the loaded registers. -/
def State.showModes (s : State) (modes : Nat) : State :=
  let jobs := ((List.range 4096).filter fun n => s.bit (rRelSlot n 0) 0 && s.twlOn n).length
  let ecc := (List.range 16).any fun r => decide (s.lpRaw r ≠ 0) && s.lpEcc r
  let s := s.setWord (rSys 8) (b2n (bitOf modes 0) + 2 * b2n (bitOf modes 1) + 4 * b2n ecc + 8 * b2n (bitOf modes 2) + 256 * min jobs 255)
  s.setBit (rClc 0) 1 (bitOf modes 2)

/-- Clickings as the record leaves them (R284, R285): reserved cells present are theirs, free cells are handed out. -/
def State.loadClicks (s : State) : State :=
  let s := (List.range 64).foldl (fun s k => if s.clickClass k = 0 then s else s.setClickState k 1) s
  let s := (List.range 64).foldl (fun s k =>
    if s.clickClass k ≠ 1 then s
    else (List.range 256).foldl (fun s c => if bitOf (s.clickRes k) c && s.cellState c ≠ csABSENT then s.joinCell k c else s) s) s
  s.handOut.showFree

/-- Queues that the record's table enables (R460, R533). -/
def State.loadQueues (s : State) : State :=
  let t := 4096 * (s.word64 (rHqm 0x10) / 4096)
  if !s.bit (rHqm 0) 0 then s
  else
    let qs := s.mem.filterMap fun p =>
      if decide (t ≤ p.1) && decide (p.1 < t + 2 ^ 24) && decide ((p.1 - t) % 32 = 0xA) && bitOf p.2.toNat 0 then some ((p.1 - t) / 32) else none
    qs.foldl (fun s q =>
      let l := s.bytes (s.qEntry q) 32
      let x := qOfEntry l
      if s.qValid l && x.count = 0 then s.setQueue q { x with gen := s.instGen x.owner } else s) s

/-- Panels that are powered hold their WAKE_TOK (R586). -/
def State.loadTokens (s : State) : State :=
  (List.range 16).foldl (fun s p =>
    if s.panelGated p then s
    else
      let q : AdmReq := ⟨0, p, p, s.wakeTok s.profile, 0, false, s.now, false⟩
      let s := s.admTake p q
      let s := match s.admParent p with | some r => s.admTake r q | none => s
      { s with pwr.held := fmPut s.pwr.held (admKey 0 p) q.tok }) s

/-- Log entries held in local SRAM go to the rings (R545). -/
def State.loadLogs (s : State) : State :=
  let s := s.fwp.held.foldl (fun s p =>
    let t := s.word (rProc p.1 0x18)
    ((List.range p.2.length).zip p.2).foldl (fun s (e : Nat × List Byte) => s.store (s.logSlot p.1 (t + e.1)) e.2) s) s
  { s with fwp.held := [] }

/-- A MODELS entry with the image read from UFS: it is copied to GOLD and installed; a missing or short one fails (R530). -/
def State.loadModel (s : State) (e : List Byte) (img : Option (List Byte)) : State :=
  let m := leAt e 0 1
  let n := leAt e 0x10 8
  match img with
  | some l =>
    if l.length = n then
      let s := s.memPut (mFwp 5) (leAt e 0x18 8) l false
      let s := (s.setWord64 (rModel m 8) (leAt e 0x18 8)).setWord64 (rModel m 0x18) n
      let s := (s.setModelState m 1).setBit (rModel m 0) 3 (bitOf (leAt e 1 1) 0)
      { s with fwp.binds := fmPut s.fwp.binds m (leAt e 2 1) }
    else s.fault 0x27 3 (mFwp 5) m 0
  | none => s.fault 0x27 3 (mFwp 5) m 0

def State.loadModels (s : State) (r : List Byte) (images : List (List Byte)) : State :=
  let es := (cfgSects r).flatMap fun x => if x.type = 5 then itemsOf (x.data r) 40 else []
  ((List.range es.length).zip es).foldl (fun s (p : Nat × List Byte) => s.loadModel p.2 images[p.1]?) s

/-- The pairs eligible when the record is loaded (15_safety.md R487). -/
def State.checkPairs (s : State) : State :=
  let n := popCount 6 (s.fld (rTwn 0) 13 8 &&& s.fld (rTwn 0xC) 5 0)
  if n < s.fld (rTwn 0xC) 10 8 then s.fault 7 5 mCollector n 0 else s

/-- Steps 7 to 10: cell test, sections, the record's copy, the collector's entries, CFG_LOADED, and the processors. -/
def State.applyRecord (s : State) (cells : List (BitVec 17)) (images : List (List Byte)) : State :=
  let r := s.fwp.record
  let off := s.profGated s.profile
  let s := (List.range 16).foldl (fun s p => s.cellTest p (cells.getD p 0x1FFFF) (!bitOf off p)) s
  let s := (cfgSects r).foldl (fun s x => s.applySect r x) s
  let s := s.memPut (mFwp 0) (s.word64 (rFwp 0x28)) r false
  let s := ((s.cfgCollector r).showModes (leAt r 0xD 1)).setBit (rSys 4) 8 true
  let s := (List.range 64).foldl (fun s i => if s.instKind i = 0 then s else s.setFld (rInst i 0) 17 16 1) s
  let s := (((s.loadClicks.loadQueues).loadTokens).loadLogs).ledgersLoad
  let s := (setBitsList 16 off).foldl (fun s p => (s.setBit (rLedger (48 + p) 0x14) 3 true).setBit (rLedger (84 + p) 0x14) 3 true) s
  let s := s.checkPairs
  let s := [2, 3, 5].foldl (fun s p => s.setProc p 2) s
  let s := { s.setPhase 2 with fwp.boot := 9, flt.hbFrom := s.flt.hbFrom.map fun _ => s.now }
  (s.loadModels r images).respOk []

/-- CONFIG_RECORD_APPLY: which physical cells of each panel pass the cell test, and the model images as the UFS device holds
them. -/
def execConfigRecordApply (cells : List (BitVec 17)) (images : List (List Byte)) (s : State) : Host.Outcome State Fault Refusal :=
  if s.fwp.boot ≠ 7 then .next s else .next (s.applyRecord cells images)

end Sys2Proof.Machine
end

