-- ==== Sys2Proof/Machine/FwpCmd.lean ====
section
/-! DEFINITION. The commands of the tongue mailboxes (16_firmware_and_boot.md R538 to R542; 19_security.md R606, R608, R610;
09_jobs_and_models.md R308, R311). -/

namespace Sys2Proof.Machine

/-! Requests and answers (R535, R538, R540, R541). -/

/-- The payload of a request, as many bytes as LENGTH says. -/
def State.mbxPay (s : State) (b : Nat) : List Byte := s.regBytes (mbxReq b + 0x20) (min (s.reqAt b 0x14 4) 4064)

/-- A command performed, with its answer. -/
def ansOf (status : Nat) (payload : List Byte) : MbxMsg := ⟨true, status, payload, .none, false, 0⟩
def ansOk (payload : List Byte) : MbxMsg := ansOf 0 payload
/-- BAD_FIELD: the offset counts from the start of the message (log 237). -/
def ansBad (o : Nat) : MbxMsg := ansOf 4 (leBytes 4 (0x20 + o))
def ansDenied : MbxMsg := ansOf 5 []
def ansRefused (code : Nat) : MbxMsg := ansOf 6 (leBytes 4 code)

/-- REFUSED where the spec gives the block no reason code: an open one. -/
def State.ansRefusedOpen (s : State) : State × MbxMsg := let (f, s) := s.takeFree; (s, ansRefused (f % 2 ^ 32))

/-- Permissions of a mailbox: 8 SYSCTL, 9 UPDATE, 10 HOST, 11 LOG. -/
def State.mbxPerm (s : State) (b k : Nat) : Bool := s.bit (rMbx b 0) k

/-- An object of instance i is the owner's, or HOST is granted. -/
def State.mbxOwns (s : State) (b i : Nat) : Bool := decide (i = s.mbxOwner b) || s.mbxPerm b 10

/-- The major is accepted (R540). -/
def State.mbxVersionOk (s : State) (b id : Nat) : Bool :=
  let major := s.reqAt b 0 2
  let top := s.fld (rFwp 0x14) 15 0
  if id = 1 then
    if s.phase = 2 then decide (s.fld (rFwp 0x18) 15 0 ≤ major) && decide (major ≤ top) else decide (major = top)
  else if id = 2 then true
  else s.bit (rMbx b 0x20) 31 && decide (s.fld (rMbx b 0x20) 15 0 = major)

/-- The VERSION answer: the majors accepted in this phase. -/
def State.mbxVersion (s : State) : MbxMsg :=
  let top := s.fld (rFwp 0x14) 15 0
  ansOf 2 (leBytes 2 (if s.phase = 2 then s.fld (rFwp 0x18) 15 0 else top) ++ leBytes 2 top)

/-- Message IDs of a phase. -/
def mbxKnown (phase id : Nat) : Bool :=
  if phase = 4 then [1, 2, 0x10, 0x11].contains id
  else [1, 2, 0x10, 0x11, 0x12, 0x20, 0x21, 0x22, 0x101, 0x102, 0x201, 0x202, 0x203, 0x204, 0x205, 0x301, 0x302, 0x401, 0x501,
    0x502, 0x503, 0x504, 0x505].contains id

/-- The mailbox whose message the handler of an ID takes next: the oldest not yet performed (R537). -/
def State.mbxNext (s : State) (p : Nat) : Option Nat :=
  s.fwp.order.find? fun b =>
    decide (mbxHandler (s.mbxId b) = p) && (match fmGet s.fwp.mbx b with | some x => !x.performed | none => false)

/-- A message has been performed. -/
def State.mbxPerformed (s : State) (b : Nat) (x : MbxMsg) : State :=
  match fmGet s.fwp.mbx b with
  | some y => { s with fwp.mbx := fmPut s.fwp.mbx b { x with incarn := y.incarn } }
  | none => s

/-- A command of the table: performed when its message is the next of its running handler; perm names the permission it
needs. -/
def State.mbxRun (s : State) (b id : Nat) (perm : Option Nat) (f : State → State × MbxMsg) : Host.Outcome State Fault Refusal :=
  let p := mbxHandler id
  if s.mbxId b ≠ id || !s.procUp p || s.mbxNext p ≠ some b || !mbxKnown s.phase id then .next s
  else if !s.mbxVersionOk b id then .next (s.mbxPerformed b s.mbxVersion)
  else
    let allowed := match perm with | some k => s.mbxPerm b k || s.phase == 4 | none => true
    if !allowed then .next (s.mbxPerformed b ansDenied)
    else
      let (s, x) := f s
      .next (s.mbxPerformed b x)

/-! FWP-BOOT: 0x0001 to 0x0022. -/

/-- HELLO (R540). -/
def State.hello (s : State) (b : Nat) : State × MbxMsg :=
  let major := s.reqAt b 0 2
  let (minor, s) := s.minorFor major
  let s := s.setWord (rMbx b 0x20) (major + 2 ^ 16 * (minor % 2 ^ 15) + 2 ^ 31)
  let s := s.setWord64 (rMbx b 0x18) (s.reqAt b 8 8 &&& s.word64 (rFwp 0x20))
  (s, ansOk (leBytes 2 (s.word (rFwp 0x18)) ++ leBytes 2 (s.word (rFwp 0x14)) ++ leBytes 8 (s.word64 (rFwp 0x20))))

def execHello (mbx : Fin 64) (s : State) : Host.Outcome State Fault Refusal := s.mbxRun mbx 1 none fun s => s.hello mbx

def State.getInfo (s : State) : MbxMsg :=
  ansOk (leBytes 4 (s.word (rSys 0)) ++ leBytes 1 (s.fld (rFwp 0) 5 4) ++ leBytes 1 s.phase ++ zeroBytes 2 ++ leBytes 4 s.fwp.build ++
    leBytes 4 s.fwp.svn ++ leBytes 4 (leAt s.fwp.record 0x10 4) ++ leBytes 4 (leAt s.fwp.record 0x14 4) ++ leBytes 4 s.fwp.seq)

def execGetInfo (mbx : Fin 64) (s : State) : Host.Outcome State Fault Refusal := s.mbxRun mbx 2 none fun s => (s, s.getInfo)

/-- The slot that IMAGE_WRITE and IMAGE_COMMIT act on: the one not running; in RECOVERY A, or B when only A had a read error. -/
def State.updateSlot (s : State) : Nat :=
  match s.fld (rFwp 0) 5 4 with
  | 1 => 1
  | 2 => 0
  | _ => if s.fld (rFwp 0x10) 3 0 = 3 && s.fld (rFwp 0x10) 7 4 ≠ 3 then 1 else 0

/-- Where a written image lies in its flash. DESIGN CHOICE (log 238): the spec lets the firmware choose. -/
def newImageOfs : Nat := 0x10000

/-- IMAGE_WRITE: the slot is BAD from its first write on. -/
def State.imageWrite (s : State) (b : Nat) : State × MbxMsg :=
  let l := s.mbxPay b
  let o := leAt l 0 4
  let n := leAt l 4 4
  if n = 0 || n > 4048 || l.length < 8 + n then (s, ansBad 4)
  else if o + n > 0x10000000 then (s, ansBad 0)
  else
    let k := s.updateSlot
    let s := match s.slotCtl k with | some c => if ctlState c = 3 then s else s.ctlMark k 3 0 | none => s
    (s.flashPut k (newImageOfs + o) (sliceBytes l 8 n), ansOk [])

def execImageWrite (mbx : Fin 64) (s : State) : Host.Outcome State Fault Refusal :=
  s.mbxRun mbx 0x10 (some 9) fun s => s.imageWrite mbx

/-- The SEQ of a newly written slot: one more than the highest of any valid control record, or 1. -/
def State.newSeq (s : State) : Nat :=
  match s.slotCtl 0, s.slotCtl 1 with
  | some a, some c => max (ctlSeq a) (ctlSeq c) + 1
  | some a, none => ctlSeq a + 1
  | none, some c => ctlSeq c + 1
  | none, none => 1

/-- IMAGE_COMMIT: codes 4 to 9, and 10 outside RECOVERY; the record is judged as a boot would judge it, from reset values. -/
def State.imageCommit (s : State) (b : Nat) : State × MbxMsg :=
  let l := s.mbxPay b
  let tries := leAt l 4 1
  let fl := leAt l 5 1
  if tries = 0 || tries > 7 then (s, ansBad 4)
  else if s.phase = 4 && !bitOf fl 0 then (s, ansBad 5)
  else
    let k := s.updateSlot
    let ctl := ctlRecord 2 tries s.newSeq newImageOfs (leAt l 0 4)
    let img := s.slotImage k ctl
    let code := s.imgCode img ctl
    let code := if code = 0 && s.phase ≠ 4 && (State.reset.cfgCheck (imgTarget img 7)).isSome then 10 else code
    if code ≠ 0 then (s, ansRefused code) else (s.ctlWrite k ctl, { ansOk [0] with reboot := bitOf fl 0 })

def execImageCommit (mbx : Fin 64) (s : State) : Host.Outcome State Fault Refusal :=
  s.mbxRun mbx 0x11 (some 9) fun s => s.imageCommit mbx

/-- Fuse bits of the floor blown up to a level (R606). -/
def State.raiseFloor (s : State) : Nat → State
  | 0 => s
  | n + 1 => if s.svnFloor ≤ n then (s.raiseFloor n).blow (770 + n) true else s

/-- IMAGE_CONFIRM: the running slot is GOOD; the floor rises to the image's SVN. -/
def State.imageConfirm (s : State) : State × MbxMsg :=
  let k := s.fld (rFwp 0) 5 4
  if k = 0 then s.ansRefusedOpen
  else
    let s := match s.slotCtl (k - 1) with | some c => s.ctlMark (k - 1) 1 (ctlTries c) | none => s
    ((s.setBit (rFwp 0) 6 false).raiseFloor (min s.fwp.svn 64), ansOk [])

def execImageConfirm (mbx : Fin 64) (s : State) : Host.Outcome State Fault Refusal :=
  s.mbxRun mbx 0x12 (some 9) State.imageConfirm

/-- FWP_RESTART (R542, R543). -/
def State.fwpRestart (s : State) (b : Nat) : State × MbxMsg :=
  let p := leAt (s.mbxPay b) 0 1
  if p = 0 || p > 5 then (s, ansBad 0) else (s.procDie p 1, ansOk [])

def execFwpRestart (mbx : Fin 64) (s : State) : Host.Outcome State Fault Refusal :=
  s.mbxRun mbx 0x20 (some 8) fun s => s.fwpRestart mbx

/-- LOG_READ: entries from SEQ on, of those between TAIL and HEAD. -/
def State.logRead (s : State) (b : Nat) : MbxMsg :=
  let l := s.mbxPay b
  let p := leAt l 0 1
  let n := leAt l 8 2
  if p > 5 then ansBad 0
  else if n = 0 || n > 126 then ansBad 8
  else
    let seq := leAt l 4 4
    let t := s.word (rProc p 0x18)
    let have_ := (s.word (rProc p 0x14) + 2 ^ 32 - t) % 2 ^ 32
    let at_ := (seq + 2 ^ 32 - t) % 2 ^ 32
    let k := min n (have_ - at_)
    ansOk (leBytes 2 k ++ zeroBytes 2 ++ ((List.range k).flatMap fun i => sliceBytes (s.logGet p ((seq + i) % 2 ^ 32)) 0 32))

def execLogRead (mbx : Fin 64) (s : State) : Host.Outcome State Fault Refusal :=
  s.mbxRun mbx 0x21 (some 11) fun s => (s, s.logRead mbx)

/-- TRACE_SET: bits of FWP_TRACE_EN. -/
def State.traceSet (s : State) (b : Nat) : State × MbxMsg :=
  let l := s.mbxPay b
  let p := leAt l 0 1
  let o := leAt l 2 2
  let n := leAt l 4 2
  if p > 5 then (s, ansBad 0)
  else if o > 1023 then (s, ansBad 2)
  else if n = 0 || o + n > 1024 then (s, ansBad 4)
  else
    let bits := leNat (l.drop 8)
    let a := rFwp (0x1000 + p * 0x80)
    let cur := leNat (s.regBytes a 128)
    (s.setRegBytes a (leBytes 128 (setBitsOf cur (o + n - 1) o bits)), ansOk [])

def execTraceSet (mbx : Fin 64) (s : State) : Host.Outcome State Fault Refusal :=
  s.mbxRun mbx 0x22 (some 11) fun s => s.traceSet mbx

/-! FWP-PWR: 0x0101, 0x0102. -/

/-- PROFILE_SET: FWP-PWR asks for the profile; the answer waits for the end of the change. -/
def State.profileSet (s : State) (b : Nat) : State × MbxMsg :=
  let t := leAt (s.mbxPay b) 0 1
  if t > 3 then (s, ansBad 0)
  else
    let same := decide (t = s.profile) && s.pwr.prof.isNone
    let code := if same then 0 else s.profRefusal t
    let s := s.profReq t
    if code ≠ 0 then (s, ansRefused code) else (s, { ansOk (leBytes 1 t) with wait := .profile })

def execProfileSet (mbx : Fin 64) (s : State) : Host.Outcome State Fault Refusal :=
  s.mbxRun mbx 0x101 (some 8) fun s => s.profileSet mbx

def execProfileGet (mbx : Fin 64) (s : State) : Host.Outcome State Fault Refusal :=
  s.mbxRun mbx 0x102 none fun s => (s, ansOk (leBytes 4 (s.word (rSys 4))))

/-! FWP-SCHED: 0x0201 to 0x0205. -/

/-- CLICK_SET: PRIO and WANT of a best-effort clicking of the owner's. -/
def State.clickSet (s : State) (b : Nat) : State × MbxMsg :=
  let l := s.mbxPay b
  let k := leAt l 0 1
  let prio := leAt l 1 1
  let want := leAt l 2 2
  if k > 63 || s.clickClass k ≠ 2 then (s, ansBad 0)
  else if prio > 15 then (s, ansBad 1)
  else if want > 256 then (s, ansBad 2)
  else if !s.mbxOwns b (s.clickInst k) then (s, ansDenied)
  else (s.clickCfg k (setBitsOf (setBitsOf (s.word (rClick k 0)) 31 28 prio) 24 16 want), ansOk [])

def execClickSet (mbx : Fin 64) (s : State) : Host.Outcome State Fault Refusal :=
  s.mbxRun mbx 0x201 none fun s => s.clickSet mbx

/-- SLOT_SET: a release slot of the owner's; CLICK, owner and label stay. -/
def State.slotSet (s : State) (b : Nat) : State × MbxMsg :=
  let l := s.mbxPay b
  let n := leAt l 0 2
  let depth := leAt l 2 1
  if n > 4095 then (s, ansBad 0)
  else if depth = 0 || depth > 4 then (s, ansBad 2)
  else if leAt l 3 1 > 1 then (s, ansBad 3)
  else if leAt l 4 4 > 0x7FFFF then (s, ansBad 4)
  else if leAt l 8 8 % 64 ≠ 0 || leAt l 8 8 ≥ 2 ^ 52 then (s, ansBad 8)
  else if leAt l 16 8 % 64 ≠ 0 || leAt l 16 8 ≥ 2 ^ 52 then (s, ansBad 16)
  else if leAt l 24 1 > leAt l 25 1 then (s, ansBad 24)
  else if leAt l 32 1 > 1 then (s, ansBad 32)
  else
    let mine := match s.slotOwner n with | some (i, _) => s.mbxOwns b i | none => s.mbxPerm b 10
    if !mine then (s, ansDenied)
    else
      let s := s.setFld (rRelSlot n 0) 17 15 (depth - 1 + leAt l 3 1 * 4)
      let s := (s.setWord (rRelSlot n 4) (leAt l 4 4)).setWord64 (rRelSlot n 8) (leAt l 8 8)
      let s := (s.setWord64 (rRelSlot n 0x10) (leAt l 16 8)).setFld (rRelSlot n 0x30) 15 0 (leAt l 24 2)
      ((s.setWord (rRelSlot n 0x34) (leAt l 28 4)).setFld (rRelSlot n 0) 0 0 (leAt l 32 1), ansOk [])

def execSlotSet (mbx : Fin 64) (s : State) : Host.Outcome State Fault Refusal :=
  s.mbxRun mbx 0x202 none fun s => s.slotSet mbx

/-- QUEUE_CTRL: FWP-SCHED writes the table entry for ENABLE, then the queue command. -/
def State.queueCtrl (s : State) (b : Nat) : State × MbxMsg :=
  let l := s.mbxPay b
  let q := leAt l 0 4
  let cmd := leAt l 4 1
  let e := sliceBytes l 8 32
  if q > 0x7FFFF then (s, ansBad 0)
  else if cmd > 2 then (s, ansBad 4)
  else
    let old := fmGet s.hqm.queues q
    let mine := (match old with | some x => s.mbxOwns b x.owner | none => true) && (cmd ≠ 0 || s.mbxOwns b (leAt e 0xB 1))
    if !mine then (s, ansDenied)
    else
      let busy := match old with | some o => decide (o.count ≠ 0) | none => false
      let s := if cmd = 0 && !busy then s.memPut (mFwp 2) (s.qEntry q) e false else s
      let s := s.qcmd (mFwp 2) none q cmd
      if s.bit (rHqm 0x1C) 1 then s.ansRefusedOpen else (s, ansOk [])

def execQueueCtrl (mbx : Fin 64) (s : State) : Host.Outcome State Fault Refusal :=
  s.mbxRun mbx 0x203 none fun s => s.queueCtrl mbx

/-- S2_SET: the stage-2 root of an instance; a reserved MODE is out of range. -/
def State.s2Set (s : State) (b : Nat) : State × MbxMsg :=
  let l := s.mbxPay b
  let i := leAt l 0 1
  let v := leAt l 8 8
  if i > 63 then (s, ansBad 0)
  else if v / 2 ^ 60 ≠ 0 && v / 2 ^ 60 ≠ 9 then (s, ansBad 8)
  else (s.setWord64 (rInst i 0x10) (2 ^ 60 * (v / 2 ^ 60) + v % 2 ^ 44), ansOk [])

def execS2Set (mbx : Fin 64) (s : State) : Host.Outcome State Fault Refusal :=
  s.mbxRun mbx 0x204 (some 10) fun s => s.s2Set mbx

/-- INSTANCE_CTRL: 0 RESET, 1 REMOVE, 2 ADD; the answer waits for the sequence. -/
def State.instanceCtrl (s : State) (b : Nat) : State × MbxMsg :=
  let l := s.mbxPay b
  let i := leAt l 0 1
  let op := leAt l 1 1
  if i > 63 then (s, ansBad 0)
  else if op > 2 then (s, ansBad 1)
  else if !s.mbxOwns b i then (s, ansDenied)
  else if op < 2 then
    if s.instState i = 0 then (s.instReset i (op = 1)).ansRefusedOpen
    else (s.instReset i (op = 1), { ansOk [] with wait := .inst i })
  else if s.instKind i = 0 then (s.instAdd i).ansRefusedOpen
  else (s.instAdd i, { ansOk [] with wait := .inst i })

def execInstanceCtrl (mbx : Fin 64) (s : State) : Host.Outcome State Fault Refusal :=
  s.mbxRun mbx 0x205 none fun s => s.instanceCtrl mbx

/-! FWP-NET and FWP-FAULT: 0x0301, 0x0302, 0x0401. -/

/-- PTP_STEP: a step that waits for a decision. -/
def State.ptpStepCmd (s : State) (b : Nat) : State × MbxMsg :=
  let l := s.mbxPay b
  let c := leAt l 0 1
  let d := leAt l 1 1
  if c > 3 then (s, ansBad 0)
  else if d > 1 then (s, ansBad 1)
  else
    let held := s.bit (rPtpClk c 4) 0
    let s := if d = 1 then s.ptpAccept c else s.ptpReject c
    if held then (s, ansOk []) else s.ansRefusedOpen

def execPtpStep (mbx : Fin 64) (s : State) : Host.Outcome State Fault Refusal :=
  s.mbxRun mbx 0x301 (some 8) fun s => s.ptpStepCmd mbx

def execLinkStatus (mbx : Fin 64) (s : State) : Host.Outcome State Fault Refusal :=
  s.mbxRun mbx 0x302 none fun s => (s, ansOk ([0, 1, 2, 3].flatMap fun n => leBytes 4 (s.word (rPciPort n 4))))

def State.faultRead (s : State) (b : Nat) : MbxMsg :=
  let c := leAt (s.mbxPay b) 0 1
  if c = 0 || c > 5 then ansBad 0
  else ansOk (s.regBytes (rFlt (0x200 + (c - 1) * 0x20)) 32 ++ s.regBytes (rFlt (0x300 + (c - 1) * 0x20)) 32 ++ leBytes 4 (s.word rFltState))

def execFaultRead (mbx : Fin 64) (s : State) : Host.Outcome State Fault Refusal :=
  s.mbxRun mbx 0x401 none fun s => (s, s.faultRead mbx)

/-! FWP-MODEL: 0x0501 to 0x0505. -/

/-- Memory that the ownership map gives to the mailbox's owner or marks shared (R449). -/
def State.mbxMemory (s : State) (b a n : Nat) : Bool :=
  s.mbxPerm b 10 ||
    ((List.range ((a + max n 1 - 1) / 2 ^ 21 - a / 2 ^ 21 + 1)).all fun k =>
      let o := s.owner (max a (2 ^ 21 * (a / 2 ^ 21 + k)))
      decide (o = s.mbxOwner b) || decide (o = 0x41))

/-- A model whose golden copy is the owner's. -/
def State.mbxModel (s : State) (b m : Nat) : Bool := s.mbxMemory b (s.modelGold m) (s.modelBytes m)

/-- A READY model that may be evicted: unpinned and unbound (R308). -/
def State.evictable (s : State) (m : Nat) : Bool :=
  decide (s.modelState m = 2) && !s.bit (rModel m 0) 3 && decide (s.fld (rModel m 0) 15 8 = 0)

/-- The least recently used model that may be evicted. -/
def State.lruModel (s : State) : Option Nat :=
  (List.range 32).foldl (fun best m =>
    if !s.evictable m then best
    else match best with
      | some k => if s.word64 (rModel m 0x28) < s.word64 (rModel k 0x28) then some m else best
      | none => some m) none

/-- Bytes of the MHS area that models take: working copies, and what installations in progress will take. -/
def State.mhsUsed (s : State) : Nat :=
  (List.range 32).foldl (fun n m => if s.modelState m = 0 then n else n + s.modelBytes m) 0

/-- Models are evicted until n bytes and a table entry are free, or none is left to evict; the entry, if there is room. -/
def State.makeRoom (n : Nat) : Nat → State → State × Option Nat
  | 0, s => (s, none)
  | fuel + 1, s =>
    let slot := (List.range 32).find? fun m => decide (s.modelState m = 0)
    if slot.isSome && s.mhsUsed + n ≤ s.word64 (rMhs 0x18) then (s, slot)
    else
      match s.lruModel with
      | some m => State.makeRoom n fuel (s.evictModel m)
      | none => (s, none)

/-- MODEL_INSTALL: the entry is INSTALLING; the answer waits for the end. -/
def State.modelInstall (s : State) (b : Nat) : State × MbxMsg :=
  let l := s.mbxPay b
  let a := leAt l 0 8
  let n := leAt l 8 8
  let lp := match s.addrKind a with | .lpddr _ _ => true | _ => false
  if a % 4096 ≠ 0 || !lp || !s.inMemory a n then (s, ansBad 0)
  else if n = 0 || n % 4096 ≠ 0 then (s, ansBad 8)
  else if !s.mbxMemory b a n then (s, ansDenied)
  else
    let enc := bitOf (s.mnat (a + 6) 2) 0
    if enc && !bitOf (s.word64 (rMbx b 0x18)) 3 then (s, ansDenied)
    else if !enc && s.bit (rSec 0xC) 0 then (s, ansRefused 0x24)
    else if enc && (fmGet s.sec.slots (s.mnat (a + 0x26) 2)).isNone then s.ansRefusedOpen
    else
      match State.makeRoom n 33 s with
      | (s, none) => (s, ansOf 7 [])
      | (s, some m) =>
        let s := (s.setWord64 (rModel m 8) a).setWord64 (rModel m 0x18) n
        let s := (s.setModelState m 1).setBit (rModel m 0) 3 (bitOf (leAt l 16 1) 0)
        (s, { ansOk (leBytes 1 m) with wait := .install m })

def execModelInstall (mbx : Fin 64) (s : State) : Host.Outcome State Fault Refusal :=
  s.mbxRun mbx 0x501 none fun s => s.modelInstall mbx

/-- MODEL_EVICT: a pinned or bound model is never evicted (R307). -/
def State.modelEvict (s : State) (b : Nat) : State × MbxMsg :=
  let m := leAt (s.mbxPay b) 0 1
  if m > 31 then (s, ansBad 0)
  else if s.modelState m = 0 || !s.mbxModel b m then (s, ansDenied)
  else if s.evictable m then (s.evictModel m, ansOk []) else s.ansRefusedOpen

def execModelEvict (mbx : Fin 64) (s : State) : Host.Outcome State Fault Refusal :=
  s.mbxRun mbx 0x502 none fun s => s.modelEvict mbx

/-- Bytes of the pinned models. -/
def State.pinnedBytes (s : State) : Nat :=
  (List.range 32).foldl (fun n m => if s.modelState m ≠ 0 && s.bit (rModel m 0) 3 then n + s.modelBytes m else n) 0

/-- MODEL_PIN: refused when the pinned models would exceed the HBM area (R308). -/
def State.modelPin (s : State) (b : Nat) : State × MbxMsg :=
  let l := s.mbxPay b
  let m := leAt l 0 1
  let pin := leAt l 1 1
  if m > 31 then (s, ansBad 0)
  else if pin > 1 then (s, ansBad 1)
  else if s.modelState m = 0 || !s.mbxModel b m then (s, ansDenied)
  else
    let t := s.setBit (rModel m 0) 3 (pin = 1)
    if pin = 1 && t.pinnedBytes > s.word64 (rMhs 0x18) then s.ansRefusedOpen else (t, ansOk [])

def execModelPin (mbx : Fin 64) (s : State) : Host.Outcome State Fault Refusal :=
  s.mbxRun mbx 0x503 none fun s => s.modelPin mbx

/-- MODEL_SWITCH (R311): FWP-MODEL writes the switch; the answer waits for its end. -/
def State.modelSwitch (s : State) (b : Nat) : State × MbxMsg :=
  let l := s.mbxPay b
  let k := leAt l 0 1
  let m := leAt l 1 1
  let fl := leAt l 2 1
  if k > 63 || s.clickClass k = 0 then (s, ansBad 0)
  else if m > 31 then (s, ansBad 1)
  else if !s.mbxOwns b (s.clickInst k) || (s.modelState m ≠ 0 && !s.mbxModel b m) then (s, ansDenied)
  else
    let code := s.switchCheck k m false
    let s := s.switchReq k m (bitOf fl 0) (bitOf fl 1) false (leAt l 3 1)
    if code ≠ 0 then (s, ansRefused code) else (s, { ansOk [] with wait := .switch k })

def execModelSwitch (mbx : Fin 64) (s : State) : Host.Outcome State Fault Refusal :=
  s.mbxRun mbx 0x504 none fun s => s.modelSwitch mbx

def State.modelStatus (s : State) (b : Nat) : MbxMsg :=
  let m := leAt (s.mbxPay b) 0 1
  if m > 31 then ansBad 0
  else if s.modelState m ≠ 0 && !s.mbxModel b m then ansDenied
  else ansOk (leBytes 4 (s.word (rModel m 0)) ++ leBytes 4 (s.word (rModel m 4)) ++ leBytes 4 (s.word (rModel m 0x24)))

def execModelStatus (mbx : Fin 64) (s : State) : Host.Outcome State Fault Refusal :=
  s.mbxRun mbx 0x505 none fun s => (s, s.modelStatus mbx)

/-! MBX_RESPONSE (R535, R536). -/

/-- The answer of a message performed, once what it waits for has ended. -/
def State.mbxFinal (s : State) (x : MbxMsg) : State × Option MbxMsg :=
  match x.wait with
  | .none => (s, some x)
  | .profile =>
    if s.pwr.prof.isSome then (s, none)
    else if leNat x.payload = s.profile then (s, some (ansOk [])) else (s, some (ansRefused (s.fld (rPwr 0x14) 15 8)))
  | .inst i => (s, if s.atu.seqs.any fun p => p.1 = i then none else some x)
  | .install m =>
    match s.modelState m with
    | 1 => (s, none)
    | 2 => (s, some x)
    | _ => match s.ansRefusedOpen with | (s, y) => (s, some y)
  | .switch k =>
    if (fmGet s.clc.switching k).isSome then (s, none)
    else
      let last := s.fld (rClick k 4) 31 28
      (s, some (if last = 1 then ansOk (leBytes 1 1) else ansRefused last))

/-- The response is written; with REBOOT a cold reset follows. -/
def State.mbxRespond (s : State) (b : Nat) : State :=
  match fmGet s.fwp.mbx b with
  | none => s
  | some x =>
    let id := s.mbxId b
    let p := mbxHandler id
    if !s.procUp p || x.incarn ≠ s.procIncarn p then s
    else if x.performed then
      match s.mbxFinal x with
      | (s, some y) =>
        let s := s.mbxAnswer b y.status y.payload (s.procIncarn p)
        if x.reboot then s.coldReset 3 else s
      | (s, none) => s
    else if mbxKnown s.phase id || s.mbxNext p ≠ some b then s
    else if s.mbxVersionOk b id then s.mbxAnswer b 3 [] (s.procIncarn p)
    else s.mbxAnswer b 2 s.mbxVersion.payload (s.procIncarn p)

def execMbxResponse (mbx : Fin 64) (s : State) : Host.Outcome State Fault Refusal := .next (s.mbxRespond mbx)

end Sys2Proof.Machine
end

