-- ==== Sys2Proof/Machine/Per.lean ====
section
/-! DEFINITION. The low-speed interfaces and the test access port (20_package_and_test.md R626, R627, R630 to R636). -/

namespace Sys2Proof.Machine

def rPer (o : Nat) : Nat := blkBase bPER + o
def rUart (n o : Nat) : Nat := rPer (0x100 * n + o)
def rI2c (n o : Nat) : Nat := rPer (0x1000 + 0x100 * n + o)
def rSpi (n o : Nat) : Nat := rPer (0x2000 + 0x100 * n + o)
def rXspi (n o : Nat) : Nat := rPer (0x4000 + 0x1000 * n + o)
def rUfs (o : Nat) : Nat := rPer (0x6000 + o)

/-! UART. -/

def State.uartRx (s : State) (n : Nat) : List Byte := fmGetD [] s.per.rx n
def State.uartTx (s : State) (n : Nat) : List Byte := fmGetD [] s.per.tx n

/-- STATUS shows the levels of the FIFOs. -/
def State.showUart (s : State) (n : Nat) : State :=
  (s.setFld (rUart n 8) 7 0 (s.uartRx n).length).setFld (rUart n 8) 15 8 (s.uartTx n).length

/-- Bytes of an enabled UART leave in order. The time they take is not modelled (log 250). -/
def State.uartSend (s : State) (n : Nat) : State :=
  if s.bit (rUart n 4) 31 then
    let s := (s.uartTx n).foldl (fun s b => s.emit (.serial 0 n b.toNat)) s
    { s with per.tx := fmDel s.per.tx n }.showUart n
  else s

/-- A write of DATA: a byte joins the transmit FIFO; a full one takes none (log 250). -/
def State.uartWrite (s : State) (n : Nat) (b : Byte) : State :=
  let l := s.uartTx n
  let s := if l.length < 64 then { s with per.tx := fmPut s.per.tx n (l ++ [b]) } else s
  (s.showUart n).uartSend n

def execUartTxByte (m : Master) (unit : Fin 4) (data : Byte) (s : State) : Host.Outcome State Fault Refusal :=
  .next (if s.sysWriter m then (s.uartWrite unit data).respOk [] else s.refuse m 2 (rUart unit 0))

/-- A byte received by an enabled UART; with 64 in the FIFO it is lost and overrun is set. -/
def execUartRxByte (unit : Fin 4) (data : Byte) (s : State) : Host.Outcome State Fault Refusal :=
  let n := unit.val
  let l := s.uartRx n
  .next (if !s.bit (rUart n 4) 31 then s
    else if l.length ≥ 64 then s.setBit (rUart n 8) 16 true
    else { s with per.rx := fmPut s.per.rx n (l ++ [data]) }.showUart n)

/-- A read of DATA takes the oldest byte received; of an empty FIFO it is an open value. -/
def State.uartRead (s : State) (n : Nat) : State × Nat :=
  match s.uartRx n with
  | [] => let (f, s) := s.takeFree; (s, f % 256)
  | b :: r => ({ s with per.rx := fmPut s.per.rx n r }.showUart n, b.toNat)

/-! I2C and SPI. -/

/-- A write of CMD; GO starts a transfer unless one is in progress. -/
def State.i2cWrite (s : State) (n v : Nat) : State :=
  if s.bit (rI2c n 8) 0 then s
  else
    let s := s.setWord (rI2c n 0) (v &&& 0x80FF0FFF)
    if bitOf v 31 then (s.setBit (rI2c n 8) 0 true).emit (.serial 1 n (v % 2 ^ 24)) else s

def execI2cCmdGo (m : Master) (unit : Fin 4) (v : BitVec 32) (s : State) : Host.Outcome State Fault Refusal :=
  .next (if s.sysWriter m then (s.i2cWrite unit v.toNat).respOk [] else s.refuse m 2 (rI2c unit 0))

/-- A transfer ends: a read leaves its bytes in the buffer. -/
def execI2cTransferDone (unit : Fin 4) (nack : Bool) (data : List Byte) (s : State) : Host.Outcome State Fault Refusal :=
  let n := unit.val
  if !s.bit (rI2c n 8) 0 then .next s
  else
    let s := (s.setBit (rI2c n 8) 0 false).setBit (rI2c n 0) 31 false
    .next (if nack then s.setBit (rI2c n 8) 1 true
      else if s.bit (rI2c n 0) 11 then s.setRegBytes (rI2c n 0x40) (sliceBytes data 0 (min (s.fld (rI2c n 0) 23 16 + 1) 32)) else s)

/-- Bits of a SPI word. -/
def State.spiBits (s : State) (n : Nat) : Nat := min 32 (max 8 (s.fld (rSpi n 0) 6 2 + 1))

/-- A write of DATA starts a word transfer unless one is in progress. -/
def State.spiWrite (s : State) (n v : Nat) : State :=
  if s.bit (rSpi n 8) 0 then s
  else ((s.setWord (rSpi n 4) v).setBit (rSpi n 8) 0 true).emit (.serial 2 n (v % 2 ^ s.spiBits n))

def execSpiDataWrite (m : Master) (unit : Fin 4) (v : BitVec 32) (s : State) : Host.Outcome State Fault Refusal :=
  .next (if s.sysWriter m then (s.spiWrite unit v.toNat).respOk [] else s.refuse m 2 (rSpi unit 4))

def execSpiTransferDone (unit : Fin 4) (v : BitVec 32) (s : State) : Host.Outcome State Fault Refusal :=
  let n := unit.val
  .next (if s.bit (rSpi n 8) 0 then (s.setWord (rSpi n 4) (v.toNat % 2 ^ s.spiBits n)).setBit (rSpi n 8) 0 false else s)

/-! GPIO. -/

def State.gpioDir (s : State) : Nat := s.word64 (rPer 0x3000)

/-- The level of an input changes; GPIO_IRQ_CFG says which edges count. -/
def execGpioEdge (pin : Fin 64) (level : Bool) (s : State) : Host.Outcome State Fault Refusal :=
  let k := pin.val
  let a := rPer (0x3010 + k / 32 * 4)
  if s.bit a (k % 32) == level then .next s
  else
    let s := s.setBit a (k % 32) level
    let cfg := s.fld (rPer (0x3020 + k / 16 * 4)) (2 * (k % 16) + 1) (2 * (k % 16))
    .next (if (level && bitOf cfg 0) || (!level && bitOf cfg 1) then s.setBit (rPer (0x3030 + k / 32 * 4)) (k % 32) true else s)

/-! xSPI and UFS. -/

def State.xspiWrite (s : State) (n v : Nat) : State :=
  if s.bit (rXspi n 0x10) 31 then s
  else
    let s := s.setWord (rXspi n 0x10) (v &&& 0x8000FFFF)
    if bitOf v 31 then s.emit (.storage 0 n (v % 2 ^ 16) (s.word64 (rXspi n 8))) else s

def execXspiCmdGo (m : Master) (unit : Fin 2) (v : BitVec 32) (s : State) : Host.Outcome State Fault Refusal :=
  .next (if s.sysWriter m then (s.xspiWrite unit v.toNat).respOk [] else s.refuse m 2 (rXspi unit 0x10))

/-- A flash command ends: one that reads fills the buffer with what the flash returned. -/
def execXspiCommandDone (unit : Fin 2) (data : List Byte) (s : State) : Host.Outcome State Fault Refusal :=
  let n := unit.val
  .next (if s.bit (rXspi n 0x10) 31 then (s.setRegBytes (rXspi n 0x100) (data.take 256)).setBit (rXspi n 0x10) 31 false else s)

/-- A write of the UFS doorbell: each bit newly set submits its slot. -/
def State.ufsRing (s : State) (v : Nat) : State :=
  let old := s.word (rUfs 0x10)
  let s := s.setWord (rUfs 0x10) (old ||| v)
  (setBitsList 32 v).foldl (fun s k => if bitOf old k then s else s.emit (.storage 1 k 0 (s.word64 (rUfs 8)))) s

def execUfsDoorbell (m : Master) (v : BitVec 32) (s : State) : Host.Outcome State Fault Refusal :=
  .next (if s.sysWriter m then (s.ufsRing v.toNat).respOk [] else s.refuse m 2 (rUfs 0x10))

def execUfsCompletion (slot : Fin 32) (s : State) : Host.Outcome State Fault Refusal :=
  let k := slot.val
  .next (if s.bit (rUfs 0x10) k then (s.setBit (rUfs 0x10) k false).setBit (rUfs 0x14) k true else s)

/-! Test access port. Each command selects its instruction and shifts its data register once: data goes in, the outbox shows
what comes out, instruction capture first (log 251). -/

def State.unlocked (s : State) : Bool := s.bit (rSec 0) 3

/-- What Capture-IR loads (R632). -/
def State.irCapture (s : State) : Nat := 1 + 4 * b2n s.unlocked + 8 * b2n s.tap.refused

/-- An instruction is selected. -/
def State.tapSelect (s : State) (op : Nat) : State :=
  let s := s.emit (.tdo s.irCapture 12)
  { s with tap := { s.tap with ir := op } }

/-- A ball-controlling instruction (R633): it takes control, or it is refused and acts as BYPASS; the flag says it took
control. -/
def State.tapTake (s : State) (op : Nat) : State × Bool :=
  let s := s.tapSelect op
  if s.unlocked || s.isBlank then
    let was := decide (s.tap.held = 1)
    let s := { s with tap := { s.tap with refused := false, held := 1 } }
    (if was then s else s.fault 0x0F 4 mTap 0 op, true)
  else ({ s with tap := { s.tap with refused := true } }, false)

/-- The bypass register: one bit, 0 at capture. -/
def State.tapBypass (s : State) : State := s.emit (.tdo 0 1)

/-- The boundary register is captured from the balls, whose levels are open values, and updated (R636). -/
def State.tapBoundary (s : State) (data : Nat) : State :=
  let (f, s) := s.takeFree
  let s := s.emit (.tdo (f % 2 ^ 4164) 4164)
  { s with tap := { s.tap with bsr := data % 2 ^ 4164 } }

/-- EXTEST and its AC forms. -/
def State.tapExtest (s : State) (op data : Nat) : State :=
  match s.tapTake op with
  | (s, true) => s.tapBoundary data
  | (s, false) => s.tapBypass

def execExtest (data : BitVec 4164) (s : State) : Host.Outcome State Fault Refusal := .next (s.tapExtest 0 data.toNat)

def execSamplePreload (data : BitVec 4164) (s : State) : Host.Outcome State Fault Refusal :=
  .next ((s.tapSelect 1).tapBoundary data.toNat)

/-- IDCODE (R635): 0x1A8D0A9B. -/
def execIdcode (s : State) : Host.Outcome State Fault Refusal := .next ((s.tapSelect 2).emit (.tdo 0x1A8D0A9B 32))

def execClamp (s : State) : Host.Outcome State Fault Refusal := .next (s.tapTake 3).1.tapBypass
def execHighz (s : State) : Host.Outcome State Fault Refusal := .next (s.tapTake 4).1.tapBypass

def execExtestPulse (data : BitVec 4164) (s : State) : Host.Outcome State Fault Refusal := .next (s.tapExtest 5 data.toNat)
def execExtestTrain (data : BitVec 4164) (s : State) : Host.Outcome State Fault Refusal := .next (s.tapExtest 6 data.toNat)

def execEcidcode (s : State) : Host.Outcome State Fault Refusal := .next ((s.tapSelect 7).emit (.tdo s.devSerial 64))

/-- What Capture-DR of DBG_AUTH loads (R634). -/
def State.dbgCapture (s : State) : Nat :=
  let busy := match s.sec.op with | some o => o.debug | none => false
  b2n s.unlocked + 2 * b2n busy + s.fld (rSec 0) 6 5 * 4 + 2 ^ 8 * leNat (s.regBytes (rSec 0x100) 32)

/-- DBG_AUTH (R634): CMD 1 asks for a challenge, 2 submits a key and a signature. The response of no access changes. -/
def State.dbgAuth (s : State) (d : Nat) : State :=
  let old := s.resp
  let s := (s.tapSelect 0x10).emit (.tdo s.dbgCapture 1552)
  let key := leBytes 97 (bitsOf d 783 8)
  let sig := leBytes 96 (bitsOf d 1551 784)
  let s := match d % 256 with
    | 1 => s.newChal mTap
    | 2 => s.submit mTap key (beNat (sig.take 48)) (beNat (sig.drop 48))
    | _ => s
  { s with resp := old }

def execDbgAuth (data : BitVec 1552) (s : State) : Host.Outcome State Fault Refusal := .next (s.dbgAuth data.toNat)

/-- DBG_PAIR (R634): honoured while unlocked; the first access splits the pair, at the end of its test if one runs. -/
def State.dbgPair (s : State) (d : Nat) : State :=
  let p := bitsOf d 43 41
  let (f, s) := s.takeFree
  let s := (s.tapSelect 0x11).emit (.tdo (f % 2 ^ 44) 44)
  if !s.unlocked || p > 5 then s
  else
    let s := s.attach p
    if s.pairState p = 5 then s.emit (.dmi p (d % 2 ^ 41)) else s

def execDbgPair (data : BitVec 44) (s : State) : Host.Outcome State Fault Refusal := .next (s.dbgPair data.toNat)

/-- BYPASS, and every opcode that R632 does not list. -/
def execBypass (op : BitVec 12) (s : State) : Host.Outcome State Fault Refusal :=
  let o := op.toNat
  .next (if o < 8 || o = 0x10 || o = 0x11 then s else (s.tapSelect o).tapBypass)

end Sys2Proof.Machine
end

