-- ==== Sys2Proof/Machine/RegAcc.lean ====
section
/-! DEFINITION. Who may read and write the registers of each block. A block's own rule is named at its case: R33 SYS, R71 PHX,
R176 CEL, R319 CLC, R322 MHS, R359 WPE, R385 RAS, R386 DPY, R411 MEM, R434 FAB, R473 ATU, R474 HQM, R475 PCI, R513 TWN, R514
FLT, R515 AWL, R549 FWP, R567 and R580 PTP, R579 ETH, R581 CAN, R602 PWR, R603 CKG, R616 to R618 SEC, R627 PER. The SFE block has
no rule of its own beyond those of single registers. -/

namespace Sys2Proof.Machine

/-- Offset o lies in n items of a stride from b on: the item and the offset in it. -/
def itemAt (o b stride n : Nat) : Option (Nat × Nat) :=
  if decide (b ≤ o) && decide (o < b + stride * n) then some ((o - b) / stride, (o - b) % stride) else none

/-- Registers of SEC that the TAP may use: the engine (R616) and debug authentication (R617). -/
def tapSec (o : Nat) : Bool :=
  (decide (0x10 ≤ o) && decide (o < 0x30)) || (decide (0x100 ≤ o) && decide (o < 0x124)) ||
    (decide (0x4000 ≤ o) && decide (o < 0x8000))

/-- The mailbox of instance inst at an offset of its registers or areas (R549): the mailbox and the offset from 0 of its
registers, or 0x1000 more than the offset in its areas. -/
def State.ownMbx (s : State) (inst : Option (Fin 64)) (o : Nat) : Option Nat :=
  let own (b : Nat) : Bool := s.mbxOn b && isInst inst (s.mbxOwner b)
  match itemAt o 0x2000 0x40 64, itemAt o 0x10000 0x2000 64 with
  | some (b, r), _ => if own b then some r else none
  | _, some (b, r) => if own b then some (0x1000 + r) else none
  | _, _ => none

/-- A master may read the register at offset o of block k. -/
def State.mayRead (s : State) (m : Master) (inst : Option (Fin 64)) (k o : Nat) : Bool :=
  let sys := inst.isNone && sysReader m
  match k with
  | 0 => true
  | 1 => sys || (inst.isSome && !(decide (0x10 ≤ o) && decide (o < 0x18)))
  | 2 => true
  | 3 => inst.isNone && celReader m
  | 4 =>
    sys || match itemAt o 0x40000 0x40 4096 with
      | some (n, r) => r == 0x1C && s.bit (rRelSlot n 0) 14 && isInst inst (s.fld (rRelSlot n 0) 13 8)
      | none => false
  | 5 => sys || (inst.isNone && m == mClicker)
  | 6 =>
    sys || (o == 0x4C && s.wpeOwner inst 5 0) ||
      (inst.isSome && (o == 4 || o == 0x54 || o == 0x58 || (decide (0x1000 ≤ o) && decide (o < 0x12EC))))
  | 7 =>
    sys || match itemAt o 0x100 0x40 2 with
      | some (f, _) => isInst inst (s.fld (rFe f 0) 5 0)
      | none => false
  | 8 =>
    sys || match itemAt o 0x1000 0x100 4 with
      | some (n, _) => isInst inst (s.fld (rPipe n 0x7C) 5 0)
      | none => false
  | 11 =>
    sys || match itemAt o 0x10000 0x40 64 with
      | some (i, _) => isInst inst i
      | none => false
  | 17 =>
    sys || match s.ownMbx inst o with
      | some r => r < 8 || (decide (0x10 ≤ r) && decide (r < 0x24)) || decide (0x1000 ≤ r)
      | none => false
  | 18 | 20 => inst.isNone && netReader m
  | 19 =>
    match inst with
    | none => sys
    | some _ =>
      match itemAt o 0x1000 0x80 4 with
      | some (c, r) => s.ptpWriter m inst c false && decide (r < 0x54)
      | none => false
  | 23 => sys || (inst.isNone && m == mTap && tapSec o)
  | _ => sys

/-- A master may write the register at offset o of block k. Where a rule judges the value written, or answers without an error
response, the register's own operation judges. -/
def State.mayWrite (s : State) (m : Master) (inst : Option (Fin 64)) (k o : Nat) : Bool :=
  let sys := inst.isNone && s.sysWriter m
  let island := inst.isNone && s.isIsland m
  match k with
  | 0 => true
  | 1 =>
    sys || decide (0x40000 ≤ o) ||
      match inst, itemAt o 0x400 4 16, itemAt o 0x2000 8 64 with
      | some _, some _, _ => true
      | some i, _, some (j, _) => i.val == j
      | _, _, _ => false
  | 2 => true
  | 3 => inst.isNone && s.celWriter m
  | 4 =>
    sys || match itemAt o 0x40000 0x40 4096 with
      | some (n, r) => r == 0x18 && s.bit (rRelSlot n 0) 14 && isInst inst (s.fld (rRelSlot n 0) 13 8)
      | none => false
  | 5 => inst.isNone && (isFwpModel m || s.isIsland m)
  | 6 =>
    if o = 0xA8 || o = 0x200 || o = 0x204 then island
    else sys || (o == 0x50 && s.wpeOwner inst 5 0) || (o == 0x70 && s.wpeOwner inst 13 8) ||
      (decide (0x80 ≤ o) && decide (o < 0x9C) && s.wpeOwner inst 21 16)
  | 7 =>
    sys || match itemAt o 0x100 0x40 2 with
      | some (f, r) => (r == 0x10 || r == 0x1C) && s.feWriter m inst f
      | none => false
  | 8 =>
    sys || match itemAt o 0x1000 0x100 4 with
      | some (n, _) => s.pipeWriter m inst n
      | none => false
  | 11 =>
    sys || (inst.isSome && (o == 0x18 || o == 0x1C)) ||
      match itemAt o 0x10000 0x40 64 with
      | some (i, r) => (r == 0x18 || r == 0x1C) && isInst inst i
      | none => false
  | 12 => sys || (inst.isSome && (o == 0x1000 || o == 0x1004))
  | 14 => island
  | 15 => island || (inst.isNone && (o == 8 || o == 0x50 || o == 0x54 || o == 0x58))
  | 16 => inst.isNone && (s.isEligiblePair m || o == 0)
  | 17 =>
    sys || match s.ownMbx inst o with
      | some r => r == 4 || r == 8 || r == 0x10 || r == 0x14 || (decide (0x1000 ≤ r) && decide (r < 0x2000))
      | none => false
  | 18 | 20 => inst.isNone && s.netMaster m
  | 19 =>
    match inst with
    | none => s.netMaster m
    | some _ =>
      match itemAt o 0x1000 0x80 4 with
      | some (c, r) =>
        s.ptpWriter m inst c false &&
          ((decide (8 ≤ r) && decide (r < 0x10)) || (decide (0x20 ≤ r) && decide (r < 0x34)) || (decide (0x38 ≤ r) && decide (r < 0x40)))
      | none => false
  | 21 => if o = 0x10 then inst.isNone && m == mFwp 1 else sys
  | 23 =>
    if o = 0x40 then inst.isNone && m == mFwp 0
    else if o = 0x140 then inst.isNone && s.keyMaster m
    else sys || (inst.isNone && m == mTap && tapSec o)
  | _ => sys

end Sys2Proof.Machine
end

