-- ==== Sys2Proof/Machine/RegHook.lean ====
section
/-! DEFINITION. Registers whose write or read does more than its fields' access types say: the operation of each, by block. A hook
answers none for a register that has no operation of its own. -/

namespace Sys2Proof.Machine

/-- The next state of an outcome. -/
def nextOr (s : State) : Host.Outcome State Fault Refusal → State
  | .next t => t
  | _ => s

/-! Field access types (R9, R10). -/

/-- Bits hi to lo as a mask. -/
def fldMask (f : Fld) : Nat := (2 ^ (f.hi + 1 - f.lo) - 1) <<< f.lo

/-- A register's value after a write of v (R9, R10): reserved and RO bits keep their value. The value written to a WO field is
kept for the action defined for it; a read does not show it. -/
def fldsWrite (old v : Nat) : List Fld → Nat
  | [] => old
  | f :: r =>
    let w := v &&& fldMask f
    let old := match f.acc with
      | .rw | .wo | .shd => setBitsOf old f.hi f.lo (v >>> f.lo)
      | .w1c => setBitsOf old f.hi f.lo ((old >>> f.lo) &&& ((w >>> f.lo) ^^^ (fldMask f >>> f.lo)))
      | .w1s => old ||| w
      | .ro | .ld => old
    fldsWrite old v r

/-- The fields that word k of a register holds, at their places in the word. -/
def wordFlds (k : Nat) (l : List Fld) : List Fld :=
  l.filterMap fun f =>
    if f.hi < 32 * k ∨ 32 * k + 31 < f.lo then none
    else some ⟨min f.hi (32 * k + 31) - 32 * k, max f.lo (32 * k) - 32 * k, f.acc, 0⟩

/-- A write of words from address a on by their fields; an SHD field waits for its boundary (R12). -/
def State.putWords (s : State) (flds : List Fld) (a k : Nat) : List Nat → State
  | [] => s
  | v :: r =>
    let fl := wordFlds k flds
    let now := fl.filter fun f => decide (f.acc ≠ .shd)
    let s := s.setWord (a + 4 * k) (fldsWrite (s.word (a + 4 * k)) v now)
    let s := if fl.any fun f => decide (f.acc = .shd) then { s with wpe.shadow := fmPut s.wpe.shadow (a + 4 * k) v } else s
    s.putWords flds a (k + 1) r

/-- A write of a whole register at address a, by its fields. -/
def State.putReg (s : State) (d : RegDesc) (a v : Nat) : State := s.putWords d.flds a 0 (wordsOf (leBytes (d.bits / 8) v))

/-! Writes. -/

/-- PHX_OUT_CFG (R68, R71): a disabled pin shows IDLE, an enabled one keeps its level; INV acts on the ball. -/
def State.outCfgWrite (s : State) (m : Master) (inst : Option (Fin 64)) (p v : Nat) : State :=
  let a := rPhx (0x400 + p * 4)
  let own := match inst with
    | none => true
    | some i => s.bit a 14 && decide (s.fld a 13 8 = i.val) && bitOf v 14 && decide (bitsOf v 13 8 = i.val)
  if !own then s.refuse m 2 a
  else
    let was := xor (s.bit a 16) (s.bit a 2)
    let s := s.setWord a (fldsWrite (s.word a) v [rw 14 14, rw 13 8, rw 2 2, rw 1 1, rw 0 0])
    let s := if s.bit a 0 then s else s.setBit a 16 (s.bit a 1)
    let lv := xor (s.bit a 16) (s.bit a 2)
    (if lv == was then s else s.emit (.pin (ballPhase + p) lv)).respOk []

def State.wrPhx (s : State) (m : Master) (inst : Option (Fin 64)) (o v : Nat) : Option State :=
  match itemAt o 0x40000 0x40 4096, itemAt o 0x1000 0x40 16, itemAt o 0x400 4 16 with
  | some (n, r), _, _ =>
    if r = 0x10 then some (s.tackCfgWrite m inst n v)
    else if r = 0x20 || r = 0x2C || r = 0x30 then none
    else (([0x0, 0x8, 0x14, 0x18, 0x1C, 0x28, 0x38, 0x3C] : List Nat).idxOf? r).map fun k => s.tackRegWrite m inst n k v
  | _, some (n, r), _ => if r = 0x18 then some (s.axisLoad m inst n v) else none
  | _, _, some (p, _) => some (s.outCfgWrite m inst p v)
  | _, _, _ => none

def State.wrSfe (s : State) (m : Master) (inst : Option (Fin 64)) (o v : Nat) : Option State :=
  match itemAt o 0x1000 0x40 64, itemAt o 0x10000 0x100 64 with
  | some (n, r), _ =>
    if r = 0x14 then some (s.sfeCtrl m inst n v) else if r = 0x1C then some (s.slotRelease m inst n v) else none
  | _, some (n, r) => some (s.shadowWrite m inst n (r / 4) v)
  | _, _ => none

/-- CEL_CELL_CTRL (R177): its requests in bit order. -/
def State.cellCtrl (s : State) (c v : Nat) : State :=
  let s := if bitOf v 0 then s.saveReq c else s
  let s := if bitOf v 1 then s.restoreReq c else s
  let s := if bitOf v 2 then s.abortReq c else s
  (if bitOf v 3 then s.ackReq c else s).respOk []

def State.wrCel (s : State) (m : Master) (o v : Nat) : Option State :=
  if o = 0xC then some (if s.sysWriter m then (s.subReq (v % 256) (bitOf v 8)).respOk [] else s.refuse m 2 (rCel o))
  else if o = 0x1C then
    some (if !s.sysWriter m then s.refuse m 2 (rCel o)
      else if bitOf v 9 then (s.maintStart (v % 16) (bitsOf v 8 4)).respOk [] else s.respOk [])
  else
    match itemAt o 0x10000 0x100 256 with
    | some (c, r) =>
      if r = 4 then some (s.cellCtrl c v) else if r = 8 then some ((s.kernelWrite c v 1).respOk []) else none
    | none => none

def State.wrClc (s : State) (m : Master) (inst : Option (Fin 64)) (o v : Nat) : Option State :=
  match itemAt o 0x1000 0x80 64, itemAt o 0x40000 0x40 4096 with
  | some (k, r), _ =>
    if r = 0 then some ((s.clickCfg k v).respOk [])
    else if r = 8 then
      some ((s.switchReq k (v % 32) (bitOf v 5) (bitOf v 6) (bitOf v 7) (bitsOf v 15 8)).respOk [])
    else none
  | _, some (n, r) =>
    if r = 0x18 then some (nextOr s (execSlotReleaseWrite m inst (Fin.ofNat 4096 n) (BitVec.ofNat 32 v) s)) else none
  | _, _ => none

def State.wrWpe (s : State) (m : Master) (inst : Option (Fin 64)) (o v : Nat) : Option State :=
  if o = 0x50 then
    some (nextOr s (if bitOf v 8 then execEpochAbandon m inst (Fin.ofNat 4 v) s else execEpochPublish m inst (Fin.ofNat 4 v) s))
  else if o = 0x90 then some (nextOr s (execVehicleStateCommit m inst (BitVec.ofNat 64 v) s))
  else if o = 0x200 then some (nextOr s (execHeelSubmit m (BitVec.ofNat 64 v) s))
  else none

def State.wrRas (s : State) (m : Master) (inst : Option (Fin 64)) (o v : Nat) : Option State :=
  match itemAt o 0x100 0x40 2 with
  | some (f, r) =>
    if r = 0x10 then some (nextOr s (execRasFeTailWrite m inst (Fin.ofNat 2 f) (BitVec.ofNat 16 v) s))
    else if r = 0x1C then
      let s := if bitOf v 0 then s.feRestart f (s.fld (rFe f 0x14) 15 0 + 1) else s
      some ((if bitOf v 1 then s.feRestart f (s.fld (rFe f 0x10) 15 0) else s).respOk [])
    else none
  | none => none

def State.wrDpy (s : State) (o v : Nat) : Option State :=
  match itemAt o 0x1000 0x100 4 with
  | some (n, r) =>
    if r = 0 then some ((if bitOf v 0 then s.pipeEnable n (bitOf v 1) else s.pipeDisable n (bitOf v 1)).respOk [])
    else if r = 0xC then some ((s.flip n (Fin.ofNat 4 v)).respOk [])
    else if r = 0x80 && s.bit (rPipe n 0x80) 31 then some (s.respOk [])
    else if r = 0x80 && bitOf v 31 then some ((s.sideGo n v).respOk [])
    else none
  | none => none

/-- A scrub period of 0 is written by the safety island only (R402). -/
def State.wrMem (s : State) (m : Master) (o v : Nat) : Option State :=
  if (o = 0x10 || o = 0x14 || o = 0x18) && v % (if o = 0x18 then 64 else 2048) = 0 && !s.isIsland m then
    some (s.refuse m 2 (rMem o))
  else none

/-- FAB: a count written equal to the threshold has become equal to it (R427). -/
def State.wrFab (s : State) (m : Master) (inst : Option (Fin 64)) (o v : Nat) : Option State :=
  if o = 0x60 then some (s.fabMissClr m inst v)
  else
    match itemAt o 0x1000 0x20 256 with
    | some (l, r) =>
      if r = 8 || r = 0xC then
        let was := s.word (rFab o)
        let s := s.setWord (rFab o) v
        some ((if was = v then s else s.guarThresh l v).respOk [])
      else none
    | none => none

/-- ATU_INST_CTRL, ATU_INST_S1 and ATU_INST_S2 (R473). -/
def State.wrAtu (s : State) (m : Master) (inst : Option (Fin 64)) (o v : Nat) : Option State :=
  if o = 0x18 then some (s.atuInv m inst v)
  else
    match itemAt o 0x10000 0x40 64 with
    | some (i, r) =>
      if r = 8 then
        let s := if bitOf v 8 then s.setBit (rInst i 8) 8 false else s
        let s := if bitOf v 0 then s.instReset i false else s
        let s := if bitOf v 1 then s.instReset i true else s
        some ((if bitOf v 2 then s.instAdd i else s).respOk [])
      else if (r = 0x10 || r = 0x18) && v / 2 ^ 60 ≠ 0 && v / 2 ^ 60 ≠ 9 then some ((s.instErr i).respOk [])
      else none
    | none => none

def State.wrHqm (s : State) (m : Master) (inst : Option (Fin 64)) (o v : Nat) : Option State :=
  if o = 0x18 then some (if bitsOf v 21 20 = 3 then s.respOk [] else s.qcmd m inst (v % 2 ^ 19) (bitsOf v 21 20))
  else if o = 0x1000 then
    some (nextOr s (execHqmDoorbell m inst (BitVec.ofNat 16 (s.genOf inst)) (BitVec.ofNat 64 v) s))
  else none

/-- PCI_CFG_ADDR: the registers give no direction, so an open value chooses it (log 161). -/
def State.wrPci (s : State) (m : Master) (o v : Nat) : Option State :=
  match itemAt o 0x1000 0x1000 4 with
  | some (n, r) =>
    if r = 0x20 then
      let (f, s) := s.takeFree
      some (nextOr s (execPciCfgGo m (Fin.ofNat 4 n) (BitVec.ofNat 32 v) (f % 2 == 1) s))
    else none
  | none => none

def State.wrTwn (s : State) (m : Master) (o v : Nat) : Option State :=
  match itemAt o 0x100 0x20 6 with
  | some (n, r) =>
    if r = 4 then some (if bitOf v 0 then nextOr s (execRetest m (Fin.ofNat 6 n) s) else s.respOk []) else none
  | none => none

/-- FLT_CTRL (R514): its actions in bit order. A pair that is neither ELIGIBLE nor split may write a KICK, which is ignored
(R500). -/
def State.fltCtrl (s : State) (m : Master) (v : Nat) : State :=
  if !s.fltWriter m then
    (if v % 16 = 4 && mKind m == 3 && decide (mIdx m < 6) then s.respOk [] else s.refuse m 2 (rFlt 8))
  else
    let s := if bitOf v 0 then s.aliveStart else s
    let s := if bitOf v 1 then s.sExitWrite else s
    let s := if bitOf v 2 then nextOr s (execKick m s) else s
    (if bitOf v 3 then s.clrFirst else s).respOk []

def State.wrFlt (s : State) (m : Master) (o v : Nat) : Option State :=
  if o = 8 then some (s.fltCtrl m v)
  else if o = 0x34 then some (nextOr s (execAlarmTailWrite m (BitVec.ofNat 9 v) s))
  else if o = 0x50 then some (nextOr s (execSwReport m (BitVec.ofNat 64 v) s))
  else if o = 0x58 then some (nextOr s (execFwpHeartbeat m s))
  else none

def State.wrAwl (s : State) (m : Master) (o v : Nat) : Option State :=
  if o = 0 then some (nextOr s (execAwlUnlock m (BitVec.ofNat 32 v) s))
  else if o = 8 then (if s.bit (rAwl 4) 1 then none else some (s.respOk []))
  else if o = 0x10 then some (nextOr s (execGo m (BitVec.ofNat 32 v) s))
  else none

/-- FWP: control, logs, and mailboxes, whose owner may write 1 to DONE only, and whose request area is read-only while PENDING
(R536, R549). -/
def State.wrFwp (s : State) (m : Master) (inst : Option (Fin 64)) (o v : Nat) : Option State :=
  if o = 0xC then some (if bitOf v 0 then nextOr s (execSelftest (some m) s)
    else if s.isIsland m then s.respOk [] else s.refuse m 2 (rFwp o))
  else
    match itemAt o 0x100 0x40 6, itemAt o 0x2000 0x40 64, itemAt o 0x10000 0x2000 64 with
    | some (p, r), _, _ => if r = 0x18 then some (nextOr s (execLogTailWrite m (Fin.ofNat 6 p) (BitVec.ofNat 32 v) s)) else none
    | _, some (b, r), _ =>
      if r = 4 then
        let s := if bitOf v 2 && inst.isNone then s.setBit (rMbx b 4) 2 false else s
        some ((if bitOf v 1 then s.mbxFree b else s).respOk [])
      else if r = 8 then some ((if bitOf v 0 then s.mbxGo b else s).respOk [])
      else none
    | _, _, some (b, r) =>
      if decide (r < 0x1000) && s.bit (rMbx b 4) 0 then some (((s.setBit (rMbx b 4) 2 true).orWord rFwpIrq 0x10).respOk [])
      else none
    | _, _, _ => none

def State.wrEth (s : State) (m : Master) (o v : Nat) : Option State :=
  if o = 0x20 then
    some (if s.eth.mdioBusy then s.respOk []
      else if bitOf v 31 then nextOr s (execMdioGo m (BitVec.ofNat 32 v) s) else (s.setWord (rEth 0x20) (v &&& 0x3FFFF)).respOk [])
  else if o = 0x30 then
    some (if bitOf v 31 then nextOr s (execEthTblGo m (Fin.ofNat 16 v) (BitVec.ofNat 16 (v / 16)) s)
      else (s.setWord (rEth 0x30) (v % 2 ^ 20)).respOk [])
  else
    match itemAt o 0x10000 0x1000 16 with
    | some (p, r) =>
      if r = 0x3C then
        let s := s.setFld (rEthPort p 0x3C) 24 16 (bitsOf v 24 16)
        some (if bitOf v 0 && p < 14 then nextOr s (execGclSwap m (Fin.ofNat 14 p) s) else s.respOk [])
      else none
    | none => none

def State.wrPtp (s : State) (m : Master) (inst : Option (Fin 64)) (o v : Nat) : Option State :=
  match itemAt o 0x1000 0x80 4 with
  | some (c, r) =>
    let k : Fin 4 := Fin.ofNat 4 c
    if r = 8 then some (nextOr s (execPtpClkIncWrite m inst k (BitVec.ofNat 64 v) s))
    else if r = 0x20 then some (nextOr s (execPtpClkStepWrite m inst k (BitVec.ofNat 64 v) s))
    else if r = 0x30 then some (nextOr s (execPtpClkSet m inst k (BitVec.ofNat 30 v) s))
    else if r = 0x38 then some (nextOr s (execPtpClkAdjWrite m inst k (BitVec.ofNat 64 v) s))
    else if r = 0x48 then
      some (if bitOf v 0 then nextOr s (execAccept m inst k (bitOf v 1) s)
        else if bitOf v 1 then nextOr s (execReject m inst k s) else s.respOk [])
    else none
  | none => none

/-- After a write of PTP_PPS_OUT_CFG or OFS, pulses follow from the clock's time now on (R569). -/
def State.afterPtp (s : State) (o : Nat) : State :=
  if o = 0x10 || o = 0x14 then { s with ptp.ppsFrom := s.ptpNs (s.fld (blkBase bPTP + 0x10) 1 0) } else s

def State.wrCan (s : State) (m : Master) (o v : Nat) : Option State :=
  match itemAt o 0x1000 0x100 16 with
  | some (n, r) =>
    if r = 0x18 then some (if bitOf v 0 then nextOr s (execRecover m (Fin.ofNat 16 n) s) else s.respOk []) else none
  | none => none

def State.wrPwr (s : State) (m : Master) (o v : Nat) : Option State :=
  if o = 0x10 then some (if bitOf v 8 then nextOr s (execProfileReq m (Fin.ofNat 8 v) s) else s.respOk []) else none

/-- CKG_RESET (R603): a write without the key is ignored, with a class N fault. -/
def State.wrCkg (s : State) (m : Master) (o v : Nat) : Option State :=
  if o = 8 then
    some (if bitsOf v 15 8 ≠ 0xA5 then s.ignoreWr m (rCkg 8)
      else match v % 4 with
        | 1 => s.coldWrite m
        | 2 => s.islandWrite m
        | _ => s.respOk [])
  else none

/-- SEC: the engine's registers belong to its holder while it is not busy (R616). What a SUBMIT through SEC_DBG_CTRL submits, and
whether a fuse programmed through the register reads back, are open values. -/
def State.wrSec (s : State) (m : Master) (o v : Nat) : Option State :=
  if o = 0x14 then
    some (if !s.pkMay m then s.ignoreWr m (rSec o)
      else if !bitOf v 31 then s.respOk []
      else if 1 ≤ v % 256 ∧ v % 256 ≤ 11 then s.pkCmd m (v % 256) (bitOf v 8)
      else nextOr s (execBadOp m (BitVec.ofNat 8 v) s))
  else if o = 0x1C then some (if bitOf v 0 then nextOr s (execPkRelease m s) else s.respOk [])
  else if o = 0x20 || o = 0x28 || (decide (0x4000 ≤ o) && decide (o < 0x8000)) then
    (if s.pkMay m then none else some (s.ignoreWr m (rSec o)))
  else if o = 0x40 then
    (if bitOf v 31 then
      let (f, s) := s.takeFree
      some (nextOr s (execFuseProg m (BitVec.ofNat 12 v) (f % 2 == 1) s))
    else some (s.respOk []))
  else if o = 0x120 then
    let s := (if bitOf v 0 then s.newChal m else s).respOk []
    (if bitOf v 1 then
      let (f, s) := s.takeFree
      some (s.submit m (beBytes 97 f) (f / 2 ^ 776 % 2 ^ 384) (f / 2 ^ 1160 % 2 ^ 384))
    else some s)
  else if o = 0x140 then
    let s := if bitOf v 8 then nextOr s (execKeyUnwrap m (Fin.ofNat 16 v) s) else s.respOk []
    some (if bitOf v 9 then nextOr s (execKeyClear m (Fin.ofNat 16 v) s) else s)
  else
    match itemAt o 0x400 0x20 64 with
    | some (w, r) => if r = 0xC then some (nextOr s (execSecWinWrite m (Fin.ofNat 64 w) (BitVec.ofNat 32 v) s)) else none
    | none => none

/-- The level that the ZH8 drives on GPIO pin k: none for an input, and for an open drain that is not pulled low. -/
def State.gpioLevel (s : State) (k : Nat) : Option Bool :=
  let b (o : Nat) : Bool := s.bit (rPer (o + k / 32 * 4)) (k % 32)
  if !b 0x3000 then none else if b 0x3018 && b 0x3008 then none else some (b 0x3008)

/-- PER registers after a write by their fields: GPIO levels that changed are driven, an enabled UART sends. -/
def State.afterPer (old s : State) (o : Nat) : State :=
  if decide (0x3000 ≤ o) && decide (o < 0x3020) then
    (List.range 64).foldl (fun s k =>
      match s.gpioLevel k with
      | some l => if old.gpioLevel k = some l then s else s.emit (.pin (ballGpio + k) l)
      | none => s) s
  else match itemAt o 0 0x100 4 with
    | some (n, r) => if r = 4 then s.uartSend n else s
    | none => s

def State.wrPer (s : State) (o v : Nat) : Option State :=
  match itemAt o 0 0x100 4, itemAt o 0x1000 0x100 4, itemAt o 0x2000 0x100 4, itemAt o 0x4000 0x1000 2 with
  | some (n, r), _, _, _ => if r = 0 then some ((s.uartWrite n (BitVec.ofNat 8 v)).respOk []) else none
  | _, some (n, r), _, _ => if r = 0 then some ((s.i2cWrite n v).respOk []) else none
  | _, _, some (n, r), _ => if r = 4 then some ((s.spiWrite n v).respOk []) else none
  | _, _, _, some (n, r) => if r = 0x10 then some ((s.xspiWrite n v).respOk []) else none
  | _, _, _, _ => if o = 0x6010 then some ((s.ufsRing v).respOk []) else none

/-- The operation of a register that has one, for a write of a whole register at offset o of block k. -/
def State.wrHook (s : State) (m : Master) (inst : Option (Fin 64)) (k o v : Nat) : Option State :=
  match k with
  | 1 => s.wrPhx m inst o v
  | 2 => s.wrSfe m inst o v
  | 3 => s.wrCel m o v
  | 4 => s.wrClc m inst o v
  | 6 => s.wrWpe m inst o v
  | 7 => s.wrRas m inst o v
  | 8 => s.wrDpy o v
  | 9 => s.wrMem m o v
  | 10 => s.wrFab m inst o v
  | 11 => s.wrAtu m inst o v
  | 12 => s.wrHqm m inst o v
  | 13 => s.wrPci m o v
  | 14 => s.wrTwn m o v
  | 15 => s.wrFlt m o v
  | 16 => s.wrAwl m o v
  | 17 => s.wrFwp m inst o v
  | 18 => s.wrEth m o v
  | 19 => s.wrPtp m inst o v
  | 20 => s.wrCan m o v
  | 21 => s.wrPwr m o v
  | 22 => s.wrCkg m o v
  | 23 => s.wrSec m o v
  | 24 => s.wrPer o v
  | _ => none

/-- A whole register at address a written with v: its own operation, or its fields. -/
def State.regApply (s : State) (m : Master) (inst : Option (Fin 64)) (k o v : Nat) (d : RegDesc) : State :=
  match s.wrHook m inst k o v with
  | some t => t
  | none =>
    let t := s.putReg d (blkBase k + o) v
    let t := if k = bPTP then t.afterPtp o else if k = bPER then s.afterPer t o else t
    t.respOk []

/-! Reads. -/

/-- The data that an outcome's response holds. -/
def State.respNat (s : State) : Nat := leNat s.resp.data

/-- The operation of a register that a read changes, or that is computed: the value and the state (R7, R71, R105, R331, R474,
R437, R411, R497, R602, R616, R627). -/
def State.rdHook (s : State) (m : Master) (inst : Option (Fin 64)) (k o : Nat) : Option (State × Nat) :=
  let via (t : State) : Option (State × Nat) := some (t, t.respNat)
  match k with
  | 1 => if o = 0x10 then via (nextOr s (execPhxEvtDataRead m inst s)) else none
  | 2 =>
    (itemAt o 0x10 4 4).map fun _ => (s.setFld (blkBase bSFE + o) 25 16 0, s.word (blkBase bSFE + o))
  | 6 => if o = 0x4C then via (nextOr s (execEpochAcqRead m inst s)) else none
  | 9 =>
    match itemAt o 0x500 8 4 with
    | some (c, 0) => some (s, min 256 (s.plUsed c) + (s.word (rMem o) &&& 0x10000))
    | _ => none
  | 10 =>
    match itemAt o 0x30000 0x20 256 with
    | some (g, r) => if r = 4 && ledgerKind g = 4 then some (s, s.ledgerConst g % 2 ^ 32) else none
    | none => none
  | 15 => if o = 0xC then some (s, setBitsOf (s.word rFltState) 19 16 (min 8 s.recentExits.length)) else none
  | 12 => if o = 0x28 then some (s.setWord64 (rHqm 0x28) 0, s.word64 (rHqm 0x28)) else none
  | 21 =>
    match itemAt o 0x1000 0x20 32 with
    | some (r, q) => if q = 4 then some (s, s.admStatus r) else none
    | none => none
  | 23 =>
    if o = 0x10 then via (nextOr s (execPkClaim m s))
    else if decide (0x7000 ≤ o) && decide (o < 0x8000) && s.pkBusy then some (s, 0)
    else none
  | 24 =>
    match itemAt o 0 0x100 4 with
    | some (n, 0) => some (s.uartRead n)
    | _ => none
  | _ => none

/-- The bits of a register that a read shows: WO fields read 0 (R10). -/
def showMask (d : RegDesc) : Nat := (2 ^ d.bits - 1) ^^^ accMask .wo d.flds

/-- The value of a whole register at offset o of block k as a read by m shows it. -/
def State.regValue (s : State) (m : Master) (inst : Option (Fin 64)) (k o : Nat) (d : RegDesc) : State × Nat :=
  match s.rdHook m inst k o with
  | some r => r
  | none => (s, leNat (s.regBytes (blkBase k + o) (roundUp (d.bits / 8) 4)) &&& showMask d)

end Sys2Proof.Machine
end

