-- ==== Sys2Proof/Machine/RegAccess.lean ====
section
/-! DEFINITION. Accesses to the register range (00_scope.md R4 to R12) and to the whole physical map (01_device.md R27 to R31,
R639). -/

namespace Sys2Proof.Machine

/-- The key of a word held or captured for a master (R6, R7). -/
def holdKey (m : Master) (a : Nat) : Nat := 2 ^ 52 * m.toNat + a

/-- A register made of words that take effect each on its own: W1C and W1S registers above 64 bits (R7). -/
def RegDesc.byWord (d : RegDesc) : Bool := d.flds.any fun f => decide (f.acc = .w1c ∨ f.acc = .w1s)

/-- One word of a register as a register of its own. -/
def RegDesc.wordOf (d : RegDesc) (k : Nat) : RegDesc := ⟨0, 0, 1, 0, 1, 32, d.area, wordFlds k d.flds⟩

/-- The value that a part not written by a master takes when the register takes effect (R6, R7): the value in effect, 0 for WO
fields; the bits of W1C and W1S fields act on nothing. -/
def State.unheld (s : State) (d : RegDesc) (a k : Nat) : Nat :=
  let fl := wordFlds k d.flds
  s.word (a + 4 * k) &&& ((2 ^ 32 - 1) ^^^ (accMask .wo fl ||| accMask .w1c fl ||| accMask .w1s fl))

/-- Words 0 to n - 1 of a register as a master has written them since it last wrote the last word. -/
def State.heldWords (s : State) (m : Master) (d : RegDesc) (a n : Nat) : List Nat :=
  (List.range n).map fun k =>
    match fmGet s.holds (holdKey m (a + 4 * k)) with
    | some v => v.toNat
    | none => s.unheld d a k

/-- The holding of a register for a master ends. -/
def State.dropHolds (s : State) (m : Master) (a n : Nat) : State :=
  { s with holds := fmDelRange s.holds (holdKey m a) (holdKey m (a + 4 * n)) }

/-- The number whose 32-bit words are given, the lowest first. -/
def ofWords : List Nat → Nat
  | [] => 0
  | v :: r => v % 2 ^ 32 + 2 ^ 32 * ofWords r

/-- A 32-bit write at offset o (a multiple of 4) of block k (R6 to R10). -/
def State.write32 (s : State) (m : Master) (inst : Option (Fin 64)) (k o v : Nat) : State :=
  let a := blkBase k + o
  if !s.mayWrite m inst k o then s.refuse m 2 a
  else
    match findReg (blockRegs k) o with
    | none => s.ignoreWr m a
    | some (d, _, _, b) =>
      let w := b / 4
      if d.area || decide (d.bits > 64 ∧ d.byWord) then s.regApply m inst k o v (d.wordOf w)
      else if d.bits ≤ 32 then s.regApply m inst k o v d
      else
        let n := ceilDiv d.bits 32
        let base := a - 4 * w
        if w + 1 < n then { s with holds := fmPut s.holds (holdKey m a) (BitVec.ofNat 32 v) }.respOk []
        else
          let l := s.heldWords m d base (n - 1) ++ [v]
          (s.dropHolds m base (n - 1)).regApply m inst k (o - 4 * w) (ofWords l) d

/-- A 64-bit write at offset o (a multiple of 8): one write of a 64-bit register, or two 32-bit writes (R6). -/
def State.write64 (s : State) (m : Master) (inst : Option (Fin 64)) (k o v : Nat) : State :=
  let two (s : State) : State :=
    let s1 := s.write32 m inst k o (v % 2 ^ 32)
    let s2 := s1.write32 m inst k (o + 4) (v / 2 ^ 32)
    if s1.resp.err then s2.respErr else s2
  match findReg (blockRegs k) o with
  | some (d, _, _, b) =>
    if decide (d.bits = 64) && b == 0 && !d.area then
      if !s.mayWrite m inst k o then s.refuse m 2 (blkBase k + o)
      else (s.dropHolds m (blkBase k + o) 1).regApply m inst k o v d
    else two s
  | none => two s

/-- A write of 2^size bytes at an address of the register range (R5). -/
def State.regWrite (s : State) (m : Master) (inst : Option (Fin 64)) (a size v : Nat) : State :=
  let k := (a - csrBase) / 0x100000
  let o := (a - csrBase) % 0x100000
  if size = 2 && a % 4 = 0 then s.write32 m inst k o (v % 2 ^ 32)
  else if size = 3 && a % 8 = 0 then s.write64 m inst k o (v % 2 ^ 64)
  else s.refuse m 2 a

/-- The words after the first of a register of n words are captured for a master (R6, R7). -/
def State.captureWords (s : State) (m : Master) (a n v : Nat) : State :=
  let ks := (List.range n).filter fun k => decide (k ≠ 0)
  { s with caps := ks.foldl (fun c k => fmPut c (holdKey m (a + 4 * k)) (BitVec.ofNat 32 (v >>> (32 * k)))) s.caps }

/-- A 32-bit read at offset o of block k: the word, or none with an error response (R6 to R8, R10). -/
def State.read32 (s : State) (m : Master) (inst : Option (Fin 64)) (k o : Nat) : State × Option Nat :=
  let a := blkBase k + o
  if !s.mayRead m inst k o then (s.refuse m 1 a, none)
  else
    match findReg (blockRegs k) o with
    | none => (s.accessFault m 1 a, some 0)
    | some (d, _, _, b) =>
      let w := b / 4
      let one (s : State) (d : RegDesc) : State × Option Nat := let (t, v) := s.regValue m inst k o d; (t, some (v % 2 ^ 32))
      if d.area then one s (d.wordOf w)
      else if d.bits ≤ 32 then one s d
      else if k = bETH && (itemAt o 0x10000 0x1000 16).any (fun p => p.2 == 0x10) then
        let t := nextOr s (execEthPortTxtsRead m (Fin.ofNat 16 ((o - 0x10000) / 0x1000)) false s)
        (t, some t.respNat)
      else if w = 0 then
        let (t, v) := s.regValue m inst k o d
        (t.captureWords m a (ceilDiv d.bits 32) v, some (v % 2 ^ 32))
      else
        match fmGet s.caps (holdKey m a) with
        | some v => (if d.bits = 64 then { s with caps := fmDel s.caps (holdKey m a) } else s, some v.toNat)
        | none => one s (d.wordOf w)

/-- A 64-bit read at offset o: one read of a 64-bit register, or two 32-bit reads, the lower first. -/
def State.read64 (s : State) (m : Master) (inst : Option (Fin 64)) (k o : Nat) : State × Option Nat :=
  let two (s : State) : State × Option Nat :=
    let (s, lo) := s.read32 m inst k o
    let (s, hi) := s.read32 m inst k (o + 4)
    (s, lo.bind fun l => hi.map fun h => l + 2 ^ 32 * h)
  match findReg (blockRegs k) o with
  | some (d, _, _, b) =>
    if decide (d.bits = 64) && b == 0 && !d.area then
      if !s.mayRead m inst k o then (s.refuse m 1 (blkBase k + o), none)
      else let (t, v) := s.regValue m inst k o d; (t, some v)
    else two s
  | none => two s

/-- A read of 2^size bytes at an address of the register range (R5). -/
def State.regRead (s : State) (m : Master) (inst : Option (Fin 64)) (a size : Nat) : State :=
  let k := (a - csrBase) / 0x100000
  let o := (a - csrBase) % 0x100000
  let ans (n : Nat) (r : State × Option Nat) : State :=
    match r with
    | (s, some v) => s.respOk (leBytes n v)
    | (s, none) => s.respErr
  if size = 2 && a % 4 = 0 then ans 4 (s.read32 m inst k o)
  else if size = 3 && a % 8 = 0 then ans 8 (s.read64 m inst k o)
  else s.refuse m 1 a

/-- The address lies in the register range. -/
def inCsr (a : Nat) : Bool := decide (csrBase ≤ a) && decide (a < csrBase + 25 * 0x100000)

/-- REGISTER_WRITE (R5 to R12). Outside the register range there is no register, and nothing happens. -/
def execRegisterWrite (m : Master) (inst : Option (Fin 64)) (addr : BitVec 52) (size : Fin 4) (v : BitVec 64) (s : State) :
    Host.Outcome State Fault Refusal :=
  .next (if inCsr addr.toNat then s.regWrite m inst addr.toNat size v.toNat else s)

/-- WIDE_REGISTER_LOWER_READ: a 32-bit read, which of a wide register's first word captures the rest (R6, R7). -/
def execWideRegisterLowerRead (m : Master) (inst : Option (Fin 64)) (addr : BitVec 52) (s : State) :
    Host.Outcome State Fault Refusal :=
  .next (if inCsr addr.toNat then s.regRead m inst addr.toNat 2 else s)

/-! The whole map. -/

/-- log2 of an access size of 1, 2, 4 or 8 bytes; another size is no register access (R5). -/
def sizeLog (n : Nat) : Nat := if n = 1 then 0 else if n = 2 then 1 else if n = 4 then 2 else if n = 8 then 3 else 4

/-- One request for physical address a, whole inside or whole outside each range (R639), judged by the map (R30, R31). -/
def State.mapAccess (s : State) (m : Master) (inst : Option (Fin 64)) (write : Bool) (a n : Nat) (l : List Byte) (bad : Bool) : State :=
  match s.holdTile m write a n l bad with
  | some s => s
  | none =>
    match s.mapAnswer m write a with
    | .served =>
      match s.addrKind a with
      | .csr => if write then s.regWrite m inst a (sizeLog n) (leNat l) else s.regRead m inst a (sizeLog n)
      | .port p => ({ s with resp := ⟨false, false, []⟩ } : State).outbound m inst p write (portOffset a) n l bad
      | .rom =>
        let (d, s) := s.freeBytes n
        s.respOk d
      | _ => if write then s.writePa m a l bad 0 0 0 else s.readPa m a n 0 0 0
    | ans => s.mapRefuse m (if write then 2 else 1) a ans

/-- One request of a transfer that starts at va: the bytes of l that fall to the piece p. -/
def State.accessPage (s : State) (m : Master) (inst : Option (Fin 64)) (write : Bool) (va : Nat) (l : List Byte) (bad : Bool)
    (p : Nat × Nat) : State :=
  match s.xlat inst m (if write then 2 else 1) p.1 with
  | (s, none) => s.respErr
  | (s, some a) => s.mapAccess m inst write a p.2 ((l.drop (p.1 - va)).take p.2) bad

/-- The requests of a transfer (R639), in order: an error response to any of them is the transfer's, and the others are
performed; a read returns the bytes of all. -/
def State.accessPages (s : State) (m : Master) (inst : Option (Fin 64)) (write : Bool) (va : Nat) (l : List Byte) (bad : Bool) :
    List (Nat × Nat) → Resp → State
  | [], r => { s with resp := r }
  | p :: rest, r =>
    let s := s.accessPage m inst write va l bad p
    let e := r.err || s.resp.err
    s.accessPages m inst write va l bad rest ⟨e, r.poison || s.resp.poison, if e then [] else r.data ++ s.resp.data⟩

/-- A transfer of a master: one request, or several where it meets a multiple of 4 KiB. -/
def State.access (s : State) (m : Master) (inst : Option (Fin 64)) (write : Bool) (va n : Nat) (l : List Byte) (bad : Bool) : State :=
  match pages (n / 4096 + 2) va n with
  | [p] =>
    match s.xlat inst m (if write then 2 else 1) va with
    | (s, none) => s.respErr
    | (s, some a) => s.mapAccess m inst write a p.2 l bad
  | ps => s.accessPages m inst write va l bad ps ⟨false, false, []⟩

/-- The incarnation in effect of the unit that a master ID names, where the unit carries one (R511). -/
def State.incarnOf (s : State) (m : Master) : Option Nat :=
  match mKind m with
  | 0 => if mIdx m < 256 then some (s.fld (rCell (mIdx m) 0) 31 24) else none
  | 2 => if mIdx m < 6 then some (s.fld (rProc (mIdx m) 0) 15 8) else none
  | 4 => some (s.fld (rPciPort (mIdx m / 1024) 0xC) 7 0)
  | 5 => if mIdx m < 64 then some (s.fld (rStream (mIdx m) 0x18) 15 8) else none
  | _ => none

/-- Traffic of an older incarnation is dropped and counted, with a class D record (R169, R509). -/
def State.staleDrop (s : State) (m : Master) (incarn : Nat) : State :=
  let s := if mKind m = 0 then (s.bump (rCell (mIdx m) 0x3C)).orWord (rCel 0) 8 else s
  s.fault 0x13 3 m (mIdx m) incarn

/-- FABRIC_MEMORY_ACCESS (R27 to R31, R477, R509): a transfer of a master through translation and map. -/
def execFabricMemoryAccess (m : Master) (inst : Option (Fin 64)) (write : Bool) (addr : BitVec 64) (len : Fin 4097)
    (data : List Byte) (poison : Bool) (incarn : BitVec 8) (s : State) : Host.Outcome State Fault Refusal :=
  .next (match s.incarnOf m with
    | some k =>
      if k ≠ incarn.toNat then s.staleDrop m incarn.toNat
      else s.access m inst write addr.toNat (if write then data.length else len) data poison
    | none => s.access m inst write addr.toNat (if write then data.length else len) data poison)

/-- HELD_ACCESS_RELEASE (R31): the oldest access whose cell is no longer under substitution completes. -/
def execHeldAccessRelease (s : State) : Host.Outcome State Fault Refusal :=
  match s.heldAcc.find? fun h => !s.cel.held.contains h.cell with
  | none => .next s
  | some h =>
    let s := { s with heldAcc := s.heldAcc.erase h }
    .next ((s.mapAccess (BitVec.ofNat 16 h.master) none h.write h.addr h.len h.data h.poison).sendBack h.back)

end Sys2Proof.Machine
end

