-- ==== Sys2Proof/Machine/CellFab.lean ====
section
/-! DEFINITION. Accesses that a unit makes by itself through translation and map, register blocks included (01_device.md R27 to
R31, R639; 05_cells.md R152). -/

namespace Sys2Proof.Machine

/-- A read of n bytes of one page at a physical address. -/
def State.rdPhys (s : State) (inst : Option (Fin 64)) (m : Master) (a n : Nat) : State × Except AccErr (List Byte × Bool) :=
  match s.addrKind a with
  | .csr =>
    let t := s.regRead m inst a (sizeLog n)
    ({ t with resp := s.resp }, if t.resp.err then .error .response else .ok (t.resp.data, false))
  | _ =>
    match s.dmaRead m a n with
    | (s, none) => (s, .error .response)
    | (s, some r) => (s, .ok r)

/-- A write of one page at a physical address; none on success. -/
def State.wrPhys (s : State) (inst : Option (Fin 64)) (m : Master) (a : Nat) (l : List Byte) (bad : Bool) : State × Option AccErr :=
  match s.addrKind a with
  | .csr =>
    let t := s.regWrite m inst a (sizeLog l.length) (leNat l)
    ({ t with resp := s.resp }, if t.resp.err then some .response else none)
  | _ =>
    match s.dmaWrite m a l bad with
    | (s, true) => (s, none)
    | (s, false) => (s, some .response)

/-- A read of one page at the address of the access. -/
def State.rdAt (s : State) (inst : Option (Fin 64)) (m : Master) (va n : Nat) : State × Except AccErr (List Byte × Bool) :=
  match s.xlat inst m 1 va with
  | (s, none) => (s, .error .translation)
  | (s, some pa) => s.rdPhys inst m pa n

/-- A write of one page; none on success. -/
def State.wrAt (s : State) (inst : Option (Fin 64)) (m : Master) (va : Nat) (l : List Byte) (bad : Bool) : State × Option AccErr :=
  match s.xlat inst m 2 va with
  | (s, none) => (s, some .translation)
  | (s, some pa) => s.wrPhys inst m pa l bad

/-- A read of any length, page by page; the first failure ends it. -/
def State.rdWide (s : State) (inst : Option (Fin 64)) (m : Master) (va n : Nat) : State × Except AccErr (List Byte × Bool) :=
  (pages (n / 4096 + 2) va n).foldl (fun acc p =>
    match acc with
    | (s, .error e) => (s, .error e)
    | (s, .ok (l, b)) =>
      match s.rdAt inst m p.1 p.2 with
      | (s, .error e) => (s, .error e)
      | (s, .ok (l', b')) => (s, .ok (l ++ l', b || b'))) (s, .ok ([], false))

/-- A write of any length, page by page; the first failure ends it. -/
def State.wrWide (s : State) (inst : Option (Fin 64)) (m : Master) (va : Nat) (l : List Byte) (bad : Bool) : State × Option AccErr :=
  (pages (l.length / 4096 + 2) va l.length).foldl (fun acc p =>
    match acc with
    | (s, some e) => (s, some e)
    | (s, none) => s.wrAt inst m p.1 ((l.drop (p.1 - va)).take p.2) bad) (s, none)

/-- The tile store that a physical address lies in is held during a failure substitution (R31). -/
def State.heldPa (s : State) (a : Nat) : Bool :=
  match s.addrKind a with
  | .tile c => s.cel.held.contains c && !s.panelGated (c / 16)
  | _ => false

/-- An access would be held: its unit waits. -/
def State.heldVa (s : State) (inst : Option (Fin 64)) (m : Master) (acc va n : Nat) : Bool :=
  (pages (n / 4096 + 2) va n).any fun p =>
    match s.xlat inst m acc p.1 with
    | (s, some a) => s.heldPa a
    | (_, none) => false

end Sys2Proof.Machine
end

