-- ==== Sys2Proof/Machine/CellLace.lean ====
section
/-! DEFINITION. Lace lists (07_tensor_and_long_ops.md R233 to R239; 08_window_operators.md R269, R270). Engines 0 to 255 are
those of the logical cells, with four channels each; engine 256 + k is PHX lace channel k. -/

namespace Sys2Proof.Machine

/-- LACE (R233): the operand keeps the address of the first descriptor. -/
def laceIns (g : Nat) (q : CGroup) (w : Nat) : Except Exc QOp := do
  noPred w
  scalarOp (wA w)
  need (wDst w = 0 && wB w = 0 && w % 2 ^ 33 = 0) excFIELD
  q.cleanS (wA w)
  need (q.sreg (wA w) % 64 = 0) excALIGN
  pure { QOp.base g q w with a := q.sreg (wA w) }

def execLaceInstruction (cell : Fin 256) (group : Fin 128) (s : State) : Host.Outcome State Fault Refusal :=
  .next (s.issueTo cell group (fun w => wOp w == 0x30) .move (laceIns group))

/-- A LACE at the head of the movement queue moves to its channel when the start queue has a place (R238). -/
def State.laceAccept (s : State) (c : Nat) : State :=
  match (s.cell c).mq with
  | [] => s
  | op :: rest =>
    let k := laceKey c (bitsOf op.word 35 34)
    let ch := s.chan k
    if wOp op.word ≠ 0x30 || ch.queue.length ≥ 4 then s
    else
      let i := s.cellInst c
      let l : LaceList := ⟨op.a, bitOf op.word 33, op.group, op.pc, op.word, none, some i, s.instGen i⟩
      (s.modCell c fun x => { x with mq := rest }).setChan k { ch with queue := ch.queue ++ [l] }

def execLaceListAccept (cell : Fin 256) (s : State) : Host.Outcome State Fault Refusal := .next (s.laceAccept cell)

/-! Engines. -/

/-- The channel of an engine. -/
def engineKey (e ch : Nat) : Nat := if e < 256 then laceKey e ch else 1024 + (e - 256)

/-- The master that an engine's requests name (15_safety.md R479). -/
def engineMaster (e : Nat) : Master := if e < 256 then mCell e else mPhx (1 + (e - 256))

def LaceList.inst_ (l : LaceList) : Option (Fin 64) := l.inst.bind asInst

/-- Why a list stops (R239), as a cause of R164, with the address. -/
structure LaceErr where
  cause : Nat
  addr : Nat
  deriving DecidableEq, Repr

def AccErr.lace (e : AccErr) (addr : Nat) : LaceErr :=
  match e with
  | .translation => ⟨excXLAT, addr⟩
  | .response => ⟨excACCESS, addr⟩

/-- A list stops: an exception of the group that issued its LACE, or a class N record with engine and tack. -/
def State.laceStop (s : State) (e k : Nat) (l : LaceList) (x : LaceErr) : State :=
  let ch := s.chan k
  let s := s.setChan k { ch with cur := none, next := none, sig := none }
  match l.tack with
  | some t => (s.faultAt 0x1B 1 (engineMaster e) e t 0 x.addr).afterDrain e
  | none => s.pendExc e ⟨x.cause, l.group, l.pc, l.word, x.addr⟩

/-- A space of an engine: the tile store of its cell, or fabric addresses (R234). -/
def spaceAddr (tile : Bool) (a : Nat) : Nat := if tile then a % 2 ^ 64 else a % 2 ^ 52

/-- Bytes with the poison of each, and a list of them in runs of equal poison. -/
abbrev PBytes := List (Byte × Bool)

def withBad (l : List Byte) (bad : Nat → Bool) : PBytes := ((List.range l.length).zip l).map fun p => (p.2, bad p.1)

def runsOf : PBytes → List (List Byte × Bool)
  | [] => []
  | (b, f) :: r =>
    match runsOf r with
    | (l, g) :: t => if f = g then (b :: l, g) :: t else ([b], f) :: (l, g) :: t
    | [] => [([b], f)]

/-- A read of one page with the poison of each byte: that of its granule, or of the whole where the source keeps none. -/
def State.rdAtP (s : State) (inst : Option (Fin 64)) (m : Master) (va n : Nat) : State × Except AccErr PBytes :=
  match s.xlat inst m 1 va with
  | (s, none) => (s, .error .translation)
  | (s, some pa) =>
    match s.rdPhys inst m pa n with
    | (s, .error e) => (s, .error e)
    | (s, .ok (l, bad)) =>
      let all := bad && !s.poisoned pa n
      (s, .ok (withBad l fun i => bad && (all || s.poisoned (pa + i) 1)))

/-- A read of any length with poison. -/
def State.rdWideP (s : State) (inst : Option (Fin 64)) (m : Master) (va n : Nat) : State × Except AccErr PBytes :=
  (pages (n / 4096 + 2) va n).foldl (fun (acc : State × Except AccErr PBytes) p =>
    match acc with
    | (s, .error e) => (s, .error e)
    | (s, .ok l) =>
      match s.rdAtP inst m p.1 p.2 with
      | (s, .error e) => (s, .error e)
      | (s, .ok l') => (s, .ok (l ++ l'))) (s, .ok [])

/-- A read in a space; in the tile store it ends inside. -/
def State.laceRd (s : State) (e : Nat) (l : LaceList) (tile : Bool) (a n : Nat) : State × Except LaceErr PBytes :=
  if tile then
    if a + n ≤ tsTop then (s, .ok (withBad (s.tsBytes e a n) fun i => s.tsBad e (a + i) 1)) else (s, .error ⟨excBOUNDS, a⟩)
  else
    match s.rdWideP l.inst_ (engineMaster e) a n with
    | (s, .ok r) => (s, .ok r)
    | (s, .error x) => (s, .error (x.lace a))

/-- A write in a space of bytes of one poison. -/
def State.laceWrRun (s : State) (e : Nat) (l : LaceList) (tile : Bool) (a : Nat) (b : List Byte) (bad : Bool) :
    State × Option LaceErr :=
  if tile then
    if a + b.length ≤ tsTop then (s.tsWrite e a b bad, none) else (s, some ⟨excBOUNDS, a⟩)
  else
    match s.wrWide l.inst_ (engineMaster e) a b bad with
    | (s, none) => (s, none)
    | (s, some x) => (s, some (x.lace a))

/-- A write in a space: poisoned bytes are written poisoned (R236, R398). -/
def State.laceWr (s : State) (e : Nat) (l : LaceList) (tile : Bool) (a : Nat) (b : PBytes) : State × Option LaceErr :=
  let go := (runsOf b).foldl (fun (acc : State × Nat × Option LaceErr) p =>
    match acc with
    | (s, a, some x) => (s, a, some x)
    | (s, a, none) =>
      let (s, x) := s.laceWrRun e l tile a p.1 p.2
      (s, a + p.1.length, x)) (s, a, none)
  (go.1, go.2.2)

/-! Descriptors (R234, R235). -/

def ldSrc (d : List Byte) : Nat := leAt d 0 8
def ldDst (d : List Byte) : Nat := leAt d 8 8
def ldBytes (d : List Byte) : Nat := leAt d 0x10 4
def ldRows (d : List Byte) : Nat := leAt d 0x14 4
def ldSstride (d : List Byte) : Int := toSigned 32 (leAt d 0x18 4)
def ldDstride (d : List Byte) : Int := toSigned 32 (leAt d 0x1C 4)
def ldCtrl (d : List Byte) : Nat := leAt d 0x20 2
def ldStile (d : List Byte) : Bool := bitOf (ldCtrl d) 0
def ldDtile (d : List Byte) : Bool := bitOf (ldCtrl d) 1
def ldCodec (d : List Byte) : Nat := bitsOf (ldCtrl d) 3 2
def ldWide (d : List Byte) : Bool := bitOf (ldCtrl d) 4
def ldChain (d : List Byte) : Nat := bitsOf (ldCtrl d) 6 5
def ldSig (d : List Byte) : Bool := bitOf (ldCtrl d) 8
def ldNext (d : List Byte) : Nat := leAt d 0x28 8
def ldSigAddr (d : List Byte) : Nat := leAt d 0x30 8
def ldSigValue (d : List Byte) : Nat := leAt d 0x38 8

/-- A descriptor that an engine may execute (R239, first row). -/
def laceDescOk (phx : Bool) (d : List Byte) : Bool :=
  decide (ldCtrl d < 512) && decide (ldCodec d ≠ 3) && decide (ldChain d ≠ 3) && decide (leAt d 0x22 6 = 0) &&
    decide (1 ≤ ldBytes d ∧ ldBytes d ≤ 16777216) && decide (1 ≤ ldRows d ∧ ldRows d ≤ 1048576) &&
    decide (ldCodec d = 0 ∨ ldBytes d % 64 = 0) && decide (ldChain d ≠ 2 ∨ ldNext d % 64 = 0) &&
    decide (!ldSig d ∨ ldSigAddr d % 8 = 0) && !(phx && (ldStile d || ldDtile d))

/-- Address of row r from a base and a signed stride (R236). -/
def rowAddr (tile : Bool) (base : Nat) (stride : Int) (r : Nat) : Nat :=
  spaceAddr tile (ofSigned 64 ((base : Int) + (r : Int) * stride))

/-- The rows of one side lie inside the tile store; the ends of the range are its first and last row. -/
def rowsInside (base : Nat) (stride : Int) (rows bytes : Nat) : Bool :=
  [0, rows - 1].all fun r =>
    let a := (base : Int) + (r : Int) * stride
    decide (0 ≤ a) && decide (a + (bytes : Int) ≤ (tsTop : Int))

/-- The first tile-store address out of bounds that a descriptor names, before it is executed (R239). The length of a compressed
side is not known then: its start is checked. -/
def laceBounds (d : List Byte) : Option Nat :=
  let sOk := !ldStile d || (if ldCodec d = 2 then decide (ldSrc d < tsTop) else rowsInside (ldSrc d) (ldSstride d) (ldRows d) (ldBytes d))
  let dOk := !ldDtile d || (if ldCodec d = 1 then decide (ldDst d < tsTop) else rowsInside (ldDst d) (ldDstride d) (ldRows d) (ldBytes d))
  let gOk := !(ldSig d && ldDtile d) || decide (ldSigAddr d + 8 ≤ tsTop)
  if !sOk then some (ldSrc d) else if !dOk then some (ldDst d) else if !gOk then some (ldSigAddr d) else none

/-! The codec (R269, R270). -/

/-- Bytes of a record with n present bytes. -/
def recordBytes (n : Nat) : Nat := 8 + 8 * ((n + 7) / 8)

/-- The byte i of a granule is present. -/
def present (wide : Bool) (g : List Byte) (i : Nat) : Bool :=
  if wide then decide (leAt g (i / 2 * 2) 2 ≠ 0) else decide (leAt g i 1 ≠ 0)

/-- The record of a 64-byte granule. -/
def compressGranule (wide : Bool) (g : List Byte) : List Byte :=
  let on := (List.range 64).filter (present wide g)
  let data := on.flatMap fun i => sliceBytes g i 1
  leBytes 8 (on.foldl (fun m i => m + 2 ^ i) 0) ++ data ++ zeroBytes (recordBytes on.length - 8 - data.length)

/-- A granule from its mask and data. -/
def expandGranule (mask : Nat) (data : List Byte) : List Byte :=
  (List.range 64).flatMap fun i => if bitOf mask i then sliceBytes data (popCount i mask) 1 else [0]

/-- The records of a row, granule by granule; a granule with a poisoned byte gives a poisoned record. -/
def compressRow (wide : Bool) (l : PBytes) : PBytes :=
  (List.range (l.length / 64)).flatMap fun k =>
    let g := (l.drop (64 * k)).take 64
    let bad := g.any fun p => p.2
    (compressGranule wide (g.map Prod.fst)).map fun b => (b, bad)

/-- The next granule of a compressed stream at a source address, and the address after its record; a poisoned record gives a
poisoned granule. Every stream is well formed under R270: DEDUCED (log 263). -/
def State.laceExpand (s : State) (e : Nat) (l : LaceList) (tile : Bool) (a : Nat) : State × Except LaceErr (PBytes × Nat) :=
  match s.laceRd e l tile a 8 with
  | (s, .error x) => (s, .error x)
  | (s, .ok m) =>
    let mask := leNat (m.map Prod.fst)
    let n := recordBytes (popCount 64 mask) - 8
    match s.laceRd e l tile (a + 8) n with
    | (s, .error x) => (s, .error x)
    | (s, .ok r) =>
      let bad := (m ++ r).any fun p => p.2
      (s, .ok ((expandGranule mask (r.map Prod.fst)).map fun b => (b, bad), a + 8 + n))

/-! Execution of one descriptor (R236, R237): rows in ascending order; a failure ends it, and what was written stays. -/

/-- The source bytes of row r; pos is where a compressed stream stands. -/
def State.laceRowIn (s : State) (e : Nat) (l : LaceList) (d : List Byte) (r pos : Nat) : State × Except LaceErr (PBytes × Nat) :=
  if ldCodec d = 2 then
    (List.range (ldBytes d / 64)).foldl (fun (acc : State × Except LaceErr (PBytes × Nat)) _ =>
      match acc with
      | (s, .error x) => (s, .error x)
      | (s, .ok (b, p)) =>
        match s.laceExpand e l (ldStile d) p with
        | (s, .error x) => (s, .error x)
        | (s, .ok (g, p)) => (s, .ok (b ++ g, p))) (s, .ok ([], pos))
  else
    match s.laceRd e l (ldStile d) (rowAddr (ldStile d) (ldSrc d) (ldSstride d) r) (ldBytes d) with
    | (s, .error x) => (s, .error x)
    | (s, .ok b) => (s, .ok (if ldCodec d = 1 then compressRow (ldWide d) b else b, pos))

/-- How far a descriptor has come: the state, the source position of a compressed stream, bytes written by compression, and a
failure. -/
structure LaceRun where
  s : State
  pos : Nat
  out : Nat
  err : Option LaceErr

/-- Row r of a descriptor. -/
def LaceRun.row (x : LaceRun) (e : Nat) (l : LaceList) (d : List Byte) (r : Nat) : LaceRun :=
  match x.err with
  | some _ => x
  | none =>
    match x.s.laceRowIn e l d r x.pos with
    | (s, .error er) => ⟨s, x.pos, x.out, some er⟩
    | (s, .ok (b, pos)) =>
      let a := if ldCodec d = 1 then spaceAddr (ldDtile d) (ldDst d + x.out)
        else rowAddr (ldDtile d) (ldDst d) (ldDstride d) r
      let (s, er) := s.laceWr e l (ldDtile d) a b
      ⟨s, pos, x.out + b.length, er⟩

def State.laceRun (s : State) (e : Nat) (l : LaceList) (d : List Byte) : LaceRun :=
  (List.range (ldRows d)).foldl (fun x r => LaceRun.row x e l d r) ⟨s, spaceAddr (ldStile d) (ldSrc d), 0, none⟩

/-- The descriptor after one at address a. -/
def ldFollow (a : Nat) (d : List Byte) : Option Nat :=
  match ldChain d with
  | 0 => none
  | 1 => some (a + 64)
  | _ => some (ldNext d)

/-- A descriptor fetched from address a of a list's space: the bytes, or why it is not executed. -/
def State.laceFetch (s : State) (e : Nat) (l : LaceList) (a : Nat) : State × Except LaceErr (List Byte) :=
  match s.laceRd e l l.tile (spaceAddr l.tile a) 64 with
  | (s, .error x) => (s, .error x)
  | (s, .ok b) =>
    let d := b.map Prod.fst
    if b.any fun p => p.2 then (s, .error ⟨excPOISON, a⟩)
    else if !laceDescOk (decide (e ≥ 256)) d then (s, .error ⟨excDESC, a⟩)
    else
      match laceBounds d with
      | some o => (s, .error ⟨excBOUNDS, o⟩)
      | none => (s, .ok d)

/-- A list whose descriptor or first rows lie in a held tile store waits (R31). -/
def State.laceHeld (s : State) (e : Nat) (l : LaceList) (a : Nat) : Bool :=
  let m := engineMaster e
  (!l.tile && s.heldVa l.inst_ m 1 (spaceAddr false a) 64) ||
    match s.laceFetch e l a with
    | (s, .ok d) =>
      (!ldStile d && s.heldVa l.inst_ m 1 (spaceAddr false (ldSrc d)) (ldBytes d)) ||
        (!ldDtile d && s.heldVa l.inst_ m 2 (spaceAddr false (ldDst d)) (ldBytes d))
    | _ => false

/-- The next list of an idle channel starts. -/
def LaceChan.start (ch : LaceChan) : LaceChan :=
  match ch.cur, ch.queue with
  | none, l :: r => { ch with cur := some l, next := some l.addr, queue := r }
  | _, _ => ch

/-- A channel fetches and executes its next descriptor. The cell whose engine it is must not be under substitution. -/
def State.laceExec (s : State) (e c : Nat) : State :=
  let k := engineKey e c
  let ch := (s.chan k).start
  match ch.cur, ch.next, ch.sig with
  | some l, some a, none =>
    if (decide (e < 256) && s.cel.held.contains e) || s.laceHeld e l a then s
    else
      let s := s.setChan k ch
      match s.laceFetch e l a with
      | (s, .error x) => s.laceStop e k l x
      | (s, .ok d) =>
        let r := s.laceRun e l d
        match r.err with
        | some x => r.s.laceStop e k l x
        | none =>
          let sig := if ldSig d then
              some (ldSigAddr d, if ldCodec d = 1 then r.out else ldSigValue d, ldDtile d)
            else none
          r.s.setChan k { r.s.chan k with next := ldFollow a d, sig := sig }
  | _, _, _ => s

def execLaceDescriptorExecute (engine : Fin 272) (chan : Fin 4) (s : State) : Host.Outcome State Fault Refusal :=
  .next (s.laceExec engine chan)

/-- The signal that a channel owes is written (R236). -/
def State.laceSignal (s : State) (e c : Nat) : State :=
  let k := engineKey e c
  match (s.chan k).cur, (s.chan k).sig with
  | some l, some (a, v, tile) =>
    let va := spaceAddr tile a
    if !tile && s.heldVa l.inst_ (engineMaster e) 2 va 8 then s
    else
      match s.laceWrRun e l tile va (leBytes 8 v) false with
      | (s, some x) => s.laceStop e k l x
      | (s, none) => s.setChan k { s.chan k with sig := none }
  | _, _ => s

def execLaceSignalWrite (engine : Fin 272) (chan : Fin 4) (s : State) : Host.Outcome State Fault Refusal :=
  .next (s.laceSignal engine chan)

/-- A list whose last descriptor and signal are written is complete: MQ of its group falls (R233), and the channel is free for
the next list. -/
def State.laceDone (s : State) (e c : Nat) : State :=
  let k := engineKey e c
  let ch := s.chan k
  match ch.cur, ch.next, ch.sig with
  | some l, none, none =>
    let s := s.setChan k { ch with cur := none }
    match l.tack with
    | none => s.qDone e l.group .move
    | some _ => if e < 256 then s.afterDrain e else s
  | _, _, _ => s

def execLaceListComplete (engine : Fin 272) (chan : Fin 4) (s : State) : Host.Outcome State Fault Refusal :=
  .next (s.laceDone engine chan)

/-! Lists that tacks start (R52, R53, R238). -/

/-- A LACE action of a tack starts a list: false where it is refused. -/
def State.laceTack (s : State) (e tack : Nat) (owner : Option Nat) (gen idx : Nat) : State × Bool :=
  let base := match owner with
    | some i => s.word64 (rPhx (0x2000 + i * 8))
    | none => s.word64 (rPhx 0x2200)
  let l : LaceList := ⟨4096 * (base / 4096) + idx * 64, false, 0, 0, 0, some tack, owner, gen⟩
  let k := engineKey e 3
  let ch := s.chan k
  let st := s.cellState e
  let mine := match owner with | some i => decide (s.cellInst e = i) | none => true
  let ok := decide (ch.queue.length < 4) &&
    (decide (e ≥ 256) || ((decide (st = csRUNNING) || decide (st = csLOADED)) && mine))
  if ok then (s.setChan k { ch with queue := ch.queue ++ [l] }, true) else (s, false)

end Sys2Proof.Machine
end

