-- ==== Sys2Proof/Machine/CellMem.lean ====
section
/-! DEFINITION. Loads, stores and atomics of scalar and thread instructions (06_cell_isa.md R186, R189, R198, R201, R203,
R215). Every access is complete when its instruction is: the completion counters of fabric accesses never rise (log 265). -/

namespace Sys2Proof.Machine

/-- What comes of an instruction that accesses memory: it waits in issue, raises an exception, or is done. -/
inductive MemRes where
  | wait
  | exc (s : State) (e : Exc)
  | done (s : State)

/-- Issues the next instruction of a group when it is of the kind asked for and accesses memory. -/
def State.issueMem (s : State) (c g : Nat) (want : Nat → Bool) (f : State → CGroup → Nat → MemRes) : State :=
  match s.nextWord c g want with
  | none => s
  | some w =>
    match f s { s.group c g with wait := .none } w with
    | .wait => s
    | .exc t e => t.syncExc c g w e
    | .done t => t

/-- The instance that a cell's traffic carries (R152). -/
def State.cellOwn (s : State) (c : Nat) : Option (Fin 64) := asInst (s.cellInst c)

/-- A fabric access answered with an error is reported after its issue (R215). -/
def State.lateAccess (s : State) (c g : Nat) (q : CGroup) (w addr : Nat) : State :=
  s.pendExc c ⟨excACCESS, g, q.pc, w, addr⟩

/-! Layout M. -/

/-- Bytes of an access. -/
def accBytes (w : Nat) : Nat := 2 ^ wSize w

/-- A loaded value widened to w bits (R186). -/
def widen (sx : Bool) (bytes width v : Nat) : Nat := if sx then ofSigned width (toSigned (8 * bytes) v) else v % 2 ^ (8 * bytes)

/-- A tile-store access: aligned and inside (R189, R198). -/
def tsAccess (a n : Nat) : Except Nat Unit :=
  if a % n ≠ 0 then .error excALIGN else if a + n > tsTop then .error excBOUNDS else .ok ()

/-! Scalar accesses (R189). -/

/-- The checks of SLD and SST, which give the address. -/
def scalarMem (store : Bool) (q : CGroup) (w : Nat) : Except Exc Nat := do
  noPred w
  need (bitsOf w 31 24 = 0) excFIELD
  scalarCode (wA w)
  if store then need (wDst w = 0 && !wSX w && wB w < 32) excFIELD else need (wB w = 0 && wDst w < 32) excFIELD
  q.cleanS (wA w)
  let a := addOfs 64 (q.sreg (wA w)) (wImm24 w)
  if wFab w then (if a % accBytes w = 0 then pure a else .error (.at_ excALIGN a))
  else
    match tsAccess a (accBytes w) with
    | .ok _ => pure a
    | .error e => .error (.at_ e a)

/-- SLD. -/
def State.sld (s : State) (c g : Nat) (q : CGroup) (w : Nat) : MemRes :=
  match scalarMem false q w with
  | .error e => .exc s e
  | .ok a =>
    let n := accBytes w
    let put (s : State) (v : Nat) (bad : Bool) : MemRes :=
      .done (s.setGroup c g (q.setS (wDst w) (widen (wSX w) n 64 v) bad).past)
    if !wFab w then put s (s.tsNat c a n) (s.tsBad c a n)
    else
      match s.xlat (s.cellOwn c) (mCell c) 1 a with
      | (t, none) => .exc t (.at_ excXLAT a)
      | (t, some pa) =>
        if s.heldPa pa then .wait
        else
          match t.rdPhys (s.cellOwn c) (mCell c) pa n with
          | (t, .ok (l, bad)) => put t (leNat l) bad
          | (t, .error _) => .done ((t.setGroup c g q.past).lateAccess c g q w a)

def execSld (cell : Fin 256) (group : Fin 128) (s : State) : Host.Outcome State Fault Refusal :=
  .next (s.issueMem cell group (fun w => wOp w == 4) fun s q w => s.sld cell group q w)

/-- SST. -/
def State.sst (s : State) (c g : Nat) (q : CGroup) (w : Nat) : MemRes :=
  match scalarMem true q w with
  | .error e => .exc s e
  | .ok a =>
    let l := leBytes (accBytes w) (q.sreg (wB w))
    let bad := q.sbad (wB w)
    let past (s : State) : State := s.setGroup c g q.past
    if !wFab w then .done (past (s.tsWrite c a l bad))
    else
      match s.xlat (s.cellOwn c) (mCell c) 2 a with
      | (t, none) => .exc t (.at_ excXLAT a)
      | (t, some pa) =>
        if s.heldPa pa then .wait
        else
          match t.wrPhys (s.cellOwn c) (mCell c) pa l bad with
          | (t, none) => .done (past t)
          | (t, some _) => .done ((past t).lateAccess c g q w a)

def execSst (cell : Fin 256) (group : Fin 128) (s : State) : Host.Outcome State Fault Refusal :=
  .next (s.issueMem cell group (fun w => wOp w == 5) fun s q w => s.sst cell group q w)

/-! Thread accesses (R198). -/

/-- One lane's access: lane, its address as the instruction forms it, and where it goes (a physical address). -/
structure LaneAcc where
  lane : Nat
  addr : Nat
  pa : Nat
  deriving DecidableEq, Repr

/-- The lanes set in a mask, rising. -/
def lanesOf (m : Nat) : List Nat := setBitsList 64 m

/-- The address of lane l before checks. -/
def CGroup.laneAddr (q : CGroup) (fab : Bool) (w l : Nat) : Nat :=
  let a := (q.lanes (wA w)).1.getD l 0
  if fab then addOfs 64 (q.sreg (wA w) + (q.lanes (wB w)).1.getD l 0) (wImm24 w) else addOfs 64 a (wImm24 w)

/-- The register checks of an address: thread or scalar in the tile store, scalar base and lane index on the fabric. -/
def addrRegs (x : Ctx) (fab : Bool) (w : Nat) : Except Exc Unit :=
  if fab then do
    scalarOp (wA w)
    x.srcOk (wB w)
  else x.srcOk (wA w)

/-- Poison in a register that forms an active lane's address raises POISON_USE (R167). -/
def CGroup.addrClean (q : CGroup) (fab : Bool) (w act : Nat) : Except Exc Unit := do
  cleanLanes (q.lanes (wA w)).2 act
  if fab then cleanLanes (q.lanes (wB w)).2 act

/-- The accesses of the active lanes of n bytes each: the lowest lane that faults gives the exception (R215). -/
def State.laneAccs (s : State) (c : Nat) (q : CGroup) (fab : Bool) (w act acc n : Nat) : State × Except Exc (List LaneAcc) :=
  (lanesOf act).foldl (fun (r : State × Except Exc (List LaneAcc)) l =>
    match r with
    | (s, .error e) => (s, .error e)
    | (s, .ok done) =>
      let a := q.laneAddr fab w l
      if fab then
        if a % n ≠ 0 then (s, .error (.lane_ excALIGN a l))
        else
          match s.xlat (s.cellOwn c) (mCell c) acc a with
          | (s, none) => (s, .error (.lane_ excXLAT a l))
          | (s, some pa) => (s, .ok (done ++ [LaneAcc.mk l a pa]))
      else
        match tsAccess a n with
        | .error e => (s, .error (.lane_ e a l))
        | .ok _ => (s, .ok (done ++ [LaneAcc.mk l a (tsAddr c a)]))) (s, .ok [])

/-- One access to be held makes the instruction wait (R31). -/
def State.accsHeld (s : State) (fab : Bool) (l : List LaneAcc) : Bool := fab && l.any fun x => s.heldPa x.pa

/-- A read of one lane's bytes: the tile store of the cell, or the fabric. -/
def State.laneRd (s : State) (c : Nat) (fab : Bool) (x : LaneAcc) (n : Nat) : State × Except AccErr (Nat × Bool) :=
  if fab then
    match s.rdPhys (s.cellOwn c) (mCell c) x.pa n with
    | (s, .ok (l, bad)) => (s, .ok (leNat l, bad))
    | (s, .error e) => (s, .error e)
  else (s, .ok (s.tsNat c x.addr n, s.tsBad c x.addr n))

/-- A write of one lane's bytes. -/
def State.laneWr (s : State) (c : Nat) (fab : Bool) (x : LaneAcc) (l : List Byte) (bad : Bool) : State × Option AccErr :=
  if fab then s.wrPhys (s.cellOwn c) (mCell c) x.pa l bad else (s.tsWrite c x.addr l bad, none)

/-- What the loads of the lanes gave: values by address read so far, and the first error. Lanes that name one address share a
request (R203). -/
structure LoadRun where
  s : State
  got : List (Nat × (Nat × Bool))
  err : Option Nat

def LoadRun.load (x : LoadRun) (c : Nat) (fab : Bool) (n : Nat) (a : LaneAcc) : LoadRun :=
  if (fmGet x.got a.pa).isSome then x
  else
    match x.s.laneRd c fab a n with
    | (s, .ok v) => { x with s := s, got := fmPut x.got a.pa v }
    | (s, .error _) => { x with s := s, err := x.err <|> some a.addr }

/-- Per-lane values of a list of lanes, 0 elsewhere. -/
def byLane (l : List (Nat × Nat)) : List Nat := (List.range 64).map fun k => ((l.find? fun p => p.1 = k).map Prod.snd).getD 0
def badMask (l : List (Nat × Bool)) : Nat := l.foldl (fun m p => if p.2 then m ||| 2 ^ p.1 else m) 0

/-- The checks of TLD and TST. -/
def threadMem (x : Ctx) (store : Bool) (q : CGroup) (w : Nat) : Except Exc Unit := do
  need (bitsOf w 31 24 = 0) excFIELD
  dstField (wDst w)
  if store then need (!wSX w && (wFab w || wB w = 0)) excFIELD
  addrRegs x (wFab w) w
  if wSize w = 3 then x.groupOk (wDst w) 2 else x.dstOk (wDst w)
  q.predOk w
  q.addrClean (wFab w) w (q.active w)

/-- TLD. -/
def State.tld (s : State) (c g : Nat) (q : CGroup) (w : Nat) : MemRes :=
  let n := accBytes w
  let fab := wFab w
  let act := q.active w
  match threadMem (s.ctx c g) false q w with
  | .error e => .exc s e
  | .ok _ =>
    match s.laneAccs c q fab w act 1 n with
    | (t, .error e) => .exc t e
    | (t, .ok l) =>
      if s.accsHeld fab l then .wait
      else
        let r := l.foldl (fun r a => LoadRun.load r c fab n a) ⟨t, [], none⟩
        match r.err with
        | some a => .done ((r.s.setGroup c g q.past).lateAccess c g q w a)
        | none =>
          let vs := l.map fun a => (a.lane, fmGetD (0, false) r.got a.pa)
          let bad := badMask (vs.map fun p => (p.1, p.2.2))
          let width := if wSize w = 3 then 64 else 32
          let wide := vs.map fun p => (p.1, widen (wSX w) n width p.2.1)
          let q1 := q.setT (wDst w) act (byLane wide) bad
          let q2 := if wSize w = 3 then q1.setT (wDst w + 1) act (byLane (wide.map fun p => (p.1, p.2 / 2 ^ 32))) bad else q1
          .done (r.s.setGroup c g q2.past)

/-- TLD, with an error of the cell's storage met on its way (R166). -/
def execTld (cell : Fin 256) (group : Fin 128) (err : Fin 5) (idx : BitVec 32) (s : State) : Host.Outcome State Fault Refusal :=
  .next ((s.storageErr cell group err idx.toNat).issueMem cell group (fun w => wOp w == 0x16) fun s q w => s.tld cell group q w)

/-- The stores of the lanes: of several lanes with one address the highest one's value is stored (R145). -/
def State.storeLanes (s : State) (c : Nat) (fab : Bool) (l : List (LaneAcc × List Byte × Bool)) : State × Option Nat :=
  let last (x : LaneAcc) : Bool := !l.any fun y => decide (y.1.addr = x.addr) && decide (x.lane < y.1.lane)
  (l.filter fun x => last x.1).foldl (fun (r : State × Option Nat) x =>
    match r.1.laneWr c fab x.1 x.2.1 x.2.2 with
    | (s, none) => (s, r.2)
    | (s, some _) => (s, r.2 <|> some x.1.addr)) (s, none)

/-- TST. -/
def State.tst (s : State) (c g : Nat) (q : CGroup) (w : Nat) : MemRes :=
  let n := accBytes w
  let fab := wFab w
  match threadMem (s.ctx c g) true q w with
  | .error e => .exc s e
  | .ok _ =>
    match s.laneAccs c q fab w (q.active w) 2 n with
    | (t, .error e) => .exc t e
    | (t, .ok l) =>
      if s.accsHeld fab l then .wait
      else
        let d := wDst w
        let val (k : Nat) : Nat := (q.treg d).getD k 0 + (if wSize w = 3 then 2 ^ 32 * (q.treg (d + 1)).getD k 0 else 0)
        let bad (k : Nat) : Bool := bitOf (q.tbad d) k || (wSize w = 3 && bitOf (q.tbad (d + 1)) k)
        match t.storeLanes c fab (l.map fun a => (a, leBytes n (val a.lane), bad a.lane)) with
        | (t, none) => .done (t.setGroup c g q.past)
        | (t, some a) => .done ((t.setGroup c g q.past).lateAccess c g q w a)

def execTst (cell : Fin 256) (group : Fin 128) (s : State) : Host.Outcome State Fault Refusal :=
  .next (s.issueMem cell group (fun w => wOp w == 0x17) fun s q w => s.tst cell group q w)

/-! Atomics (R201). -/

/-- The new word of an atomic function other than CAS. -/
def atomFn (fn old v : Nat) : Nat :=
  match fn with
  | 0 => (old + v) % 2 ^ 32
  | 1 => min old v
  | 2 => if toSigned 32 v < toSigned 32 old then v else old
  | 3 => max old v
  | 4 => if toSigned 32 old < toSigned 32 v then v else old
  | 5 => old &&& v
  | 6 => old ||| v
  | 7 => old ^^^ v
  | _ => v

/-- An atomic of one lane at the fabric: on storage and the tile stores. A link partner performs ADD, XCHG and CAS, and what it
returns is open; another destination answers with an error: DEDUCED (log 266). -/
def State.atomFab (s : State) (c : Nat) (fn pa v cmp : Nat) (bad : Bool) : State × Except AccErr (Nat × Bool) :=
  let m := mCell c
  match s.addrKind pa with
  | .csr | .rom | .unmapped => (s.accessFault m 4 pa, .error .response)
  | .port p =>
    if s.portUp p && (fn = 0 || fn = 8 || fn = 9) then
      let s := s.emit (.pcie p (s.reqFn (s.cellOwn c) p) bad 0 true (portOffset pa) 4 (leBytes 4 v))
      let (l, s) := s.freeBytes 4
      (s, .ok (leNat l, false))
    else (s.accessFault m 4 pa, .error .response)
  | _ =>
    match s.dmaRead m pa 4 with
    | (s, none) => (s, .error .response)
    | (s, some (l, was)) =>
      let old := leNat l
      let new := if fn = 9 then v else atomFn fn old v
      if fn = 9 && old ≠ cmp then (s, .ok (old, was))
      else
        match s.dmaWrite m pa (leBytes 4 new) (bad || (was && fn ≠ 8 && fn ≠ 9)) with
        | (s, true) => (s, .ok (old, was))
        | (s, false) => (s, .error .response)

/-- An atomic of one lane in the tile store. -/
def State.atomTs (s : State) (c : Nat) (fn a v cmp : Nat) (bad : Bool) : State × Except AccErr (Nat × Bool) :=
  let old := s.tsNat c a 4
  let was := s.tsBad c a 4
  if fn = 9 && old ≠ cmp then (s, .ok (old, was))
  else (s.tsWrite c a (leBytes 4 (if fn = 9 then v else atomFn fn old v)) (bad || (was && fn ≠ 8 && fn ≠ 9)), .ok (old, was))

/-- The checks of TATOM. -/
def atomChecks (x : Ctx) (q : CGroup) (w : Nat) : Except Exc Unit := do
  need (wFn w ≤ 9) excILL
  need (bitsOf w 28 24 = 0) excFIELD
  dstField (wDst w)
  need (wDst w % (if wFn w = 9 then 4 else 2) = 0) excFIELD
  addrRegs x (bitOf w 29) w
  x.groupOk (wDst w) (if wFn w = 9 then 4 else 2)
  q.predOk w
  q.addrClean (bitOf w 29) w (q.active w)

/-- What the atomics of the lanes gave, lane by lane in rising order, and the first error. -/
structure AtomRun where
  s : State
  got : List (Nat × (Nat × Bool))
  err : Option Nat

/-- TATOM. -/
def State.tatom (s : State) (c g : Nat) (q : CGroup) (w : Nat) : MemRes :=
  let fab := bitOf w 29
  let fn := wFn w
  let d := wDst w
  let act := q.active w
  match atomChecks (s.ctx c g) q w with
  | .error e => .exc s e
  | .ok _ =>
    match s.laneAccs c q fab w act 4 4 with
    | (t, .error e) => .exc t e
    | (t, .ok l) =>
      if s.accsHeld fab l then .wait
      else
        let v (k : Nat) : Nat := (q.treg (if fn = 9 then d + 3 else d + 1)).getD k 0
        let cmp (k : Nat) : Nat := (q.treg (d + 2)).getD k 0
        let bad (k : Nat) : Bool :=
          if fn = 9 then bitOf (q.tbad (d + 2)) k || bitOf (q.tbad (d + 3)) k else bitOf (q.tbad (d + 1)) k
        let r := l.foldl (fun (r : AtomRun) a =>
          let k := a.lane
          match (if fab then r.s.atomFab c fn a.pa (v k) (cmp k) (bad k) else r.s.atomTs c fn a.addr (v k) (cmp k) (bad k)) with
          | (s, .ok x) => { r with s := s, got := r.got ++ [(k, x)] }
          | (s, .error _) => { r with s := s, err := r.err <|> some a.addr }) ⟨t, [], none⟩
        match r.err with
        | some a => .done ((r.s.setGroup c g q.past).lateAccess c g q w a)
        | none =>
          let q1 := q.setT d act (byLane (r.got.map fun p => (p.1, p.2.1))) (badMask (r.got.map fun p => (p.1, p.2.2)))
          .done (r.s.setGroup c g q1.past)

def execTatom (cell : Fin 256) (group : Fin 128) (s : State) : Host.Outcome State Fault Refusal :=
  .next (s.issueMem cell group (fun w => wOp w == 0x1A) fun s q w => s.tatom cell group q w)

end Sys2Proof.Machine
end

