-- ==== Sys2Proof/Machine/CellTex.lean ====
section
/-! DEFINITION. Texture samples: TSAMP (06_cell_isa.md R200; 11_raster_and_display.md R371 to R374). What the texture unit computes
where the spec gives no formula (the level from lane differences, anisotropic taps, the order of the sums, the rounding of a
coordinate to 2^-8, the component and order of GATHER4) is open: DESIGN CHOICE (log 267). -/

namespace Sys2Proof.Machine

def rRasTexErr : Nat := blkBase bRAS + 8

/-! Open values of one sample: the k-th number or bit of an instruction's open value. -/

def openNum (f k : Nat) : Nat := (f >>> (128 + 64 * k)) % 2 ^ 64
def openBit (f k : Nat) : Bool := bitOf (openNum f k) 0

/-! Fixed-point readings of FP32 values. -/

/-- An FP32 value times k, rounded down, or up where it is inexact and up is set; none for NaN and infinities. -/
def texFix (a k : Nat) (up : Bool) : Option Int :=
  match f32 a with
  | .fin neg m e =>
    let n := m * k
    let (q, rest) := if e ≥ 0 then (n * 2 ^ e.toNat, false) else (n / 2 ^ (-e).toNat, decide (n % 2 ^ (-e).toNat ≠ 0))
    let lo : Int := if neg then (if rest then -(q : Int) - 1 else -(q : Int)) else q
    some (if rest && up then lo + 1 else lo)
  | _ => none

/-- The same, with an open number below m for a value that has none. -/
def texFixOpen (a k m f j : Nat) : Int := (texFix a k (openBit f j)).getD ((openNum f j % m : Nat) : Int)

/-! Texture descriptors (R371, R372). -/

def txBase (d : List Byte) : Nat := leAt d 0 8
def txW (d : List Byte) : Nat := leAt d 8 2
def txH (d : List Byte) : Nat := leAt d 0xA 2
def txLayers (d : List Byte) : Nat := leAt d 0xC 2
def txMips (d : List Byte) : Nat := leAt d 0xE 1
def txFmt (d : List Byte) : Nat := leAt d 0xF 1
def txRmap (d : List Byte) : Nat := leAt d 0x10 8
def txLtiles (d : List Byte) : Nat := leAt d 0x18 4
def txLstride (d : List Byte) : Nat := leAt d 0x1C 4

/-- Bytes of a texel, and tile width and height, of a texel format. -/
def txBytes (f : Nat) : Nat := [1, 2, 4, 4, 2, 2, 4, 8, 4, 8, 16].getD f 1
def txTw (f : Nat) : Nat := [256, 256, 128, 128, 256, 256, 128, 128, 128, 128, 64].getD f 1
def txTh (f : Nat) : Nat := [256, 128, 128, 128, 128, 128, 128, 64, 128, 64, 64].getD f 1

/-- Width and height of mip m. -/
def mipW (d : List Byte) (m : Nat) : Nat := max 1 (txW d >>> m)
def mipH (d : List Byte) (m : Nat) : Nat := max 1 (txH d >>> m)

/-- Tiles across and down of mip m, and tiles before it in a layer. -/
def mipTx (d : List Byte) (m : Nat) : Nat := ceilDiv (mipW d m) (txTw (txFmt d))
def mipTy (d : List Byte) (m : Nat) : Nat := ceilDiv (mipH d m) (txTh (txFmt d))
def mipOfs (d : List Byte) (m : Nat) : Nat := (List.range m).foldl (fun n j => n + mipTx d j * mipTy d j) 0

/-- A descriptor without reserved values or fields out of range (R374). -/
def txOk (d : List Byte) : Bool :=
  decide (txBase d % 65536 = 0) && decide (txBase d < 2 ^ 52) && decide (1 ≤ txW d ∧ txW d ≤ 16384) &&
    decide (1 ≤ txH d ∧ txH d ≤ 16384) && decide (1 ≤ txLayers d ∧ txLayers d ≤ 2048) && decide (1 ≤ txMips d ∧ txMips d ≤ 15) &&
    decide (txFmt d ≤ 10) && decide (mipOfs d (txMips d) ≤ txLtiles d)

/-- Number of the tile of a texel in its layer (R372). -/
def texTile (d : List Byte) (m x y : Nat) : Nat := mipOfs d m + y / txTh (txFmt d) * mipTx d m + x / txTw (txFmt d)

/-- Address of a texel. -/
def texAddr (d : List Byte) (m l x y : Nat) : Nat :=
  let f := txFmt d
  txBase d + 65536 * (l * txLtiles d + texTile d m x y) + (y % txTh f * txTw f + x % txTw f) * txBytes f

def one32 : Nat := 0x3F800000

/-- A texel as four FP32 components: G and B read 0 where absent, and A reads 1 (R371). -/
def texComps (f v : Nat) : List Nat :=
  let byte (k : Nat) : Nat := bitsOf v (8 * k + 7) (8 * k)
  let half (k : Nat) : Nat := bitsOf v (16 * k + 15) (16 * k)
  let u8 (k : Nat) : Nat := (fdiv 0 (fOfInt (byte k)) (fOfInt 255)).1
  let f16 (k : Nat) : Nat := (numConvert 3 0 0 (half k) 0).1
  let w (k : Nat) : Nat := bitsOf v (32 * k + 31) (32 * k)
  let srgb (k : Nat) : Nat := (Config.srgbToLinear (byte k)).toNat
  match f with
  | 0 => [u8 0, 0, 0, one32]
  | 1 => [u8 0, u8 1, 0, one32]
  | 2 => [u8 0, u8 1, u8 2, u8 3]
  | 3 => [srgb 0, srgb 1, srgb 2, u8 3]
  | 4 => [(fdiv 0 (fOfInt (half 0)) (fOfInt 65535)).1, 0, 0, one32]
  | 5 => [f16 0, 0, 0, one32]
  | 6 => [f16 0, f16 1, 0, one32]
  | 7 => [f16 0, f16 1, f16 2, f16 3]
  | 8 => [w 0, 0, 0, one32]
  | 9 => [w 0, w 1, 0, one32]
  | _ => [w 0, w 1, w 2, w 3]

/-! Samplers (R373). -/

def smMag (p : List Byte) : Nat := bitsOf (leAt p 0 1) 1 0
def smMin (p : List Byte) : Nat := bitsOf (leAt p 0 1) 3 2
def smMip (p : List Byte) : Nat := bitsOf (leAt p 0 1) 5 4
def smAniso (p : List Byte) : Nat := leAt p 1 1
def smU (p : List Byte) : Nat := bitsOf (leAt p 2 1) 1 0
def smV (p : List Byte) : Nat := bitsOf (leAt p 2 1) 3 2
def smBias (p : List Byte) : Int := toSigned 16 (leAt p 4 2)
def smMinLod (p : List Byte) : Nat := leAt p 8 2
def smMaxLod (p : List Byte) : Nat := leAt p 0xA 2
def smBorder (p : List Byte) : List Nat :=
  match leAt p 0xC 1 with
  | 0 => [0, 0, 0, 0]
  | 1 => [0, 0, 0, one32]
  | _ => [one32, one32, one32, one32]

/-- A sampler descriptor without reserved values. What another one samples is not stated: its results are open. -/
def smOk (p : List Byte) : Bool :=
  decide (leAt p 0 1 < 64) && decide (smMag p ≤ 1 ∧ smMin p ≤ 1 ∧ smMip p ≤ 2) && decide (1 ≤ smAniso p ∧ smAniso p ≤ 16) &&
    decide (leAt p 2 1 < 16) && decide (leAt p 3 1 = 0) && decide (leAt p 6 2 = 0) && decide (leAt p 0xC 1 ≤ 2) &&
    decide (leAt p 0xD 3 = 0)

/-- A texel coordinate under an address mode: wrap, clamp, mirror; none for the border. -/
def texCoord (mode : Nat) (x : Int) (n : Nat) : Option Nat :=
  match mode with
  | 0 => some (x % (n : Int)).toNat
  | 1 => some (clampInt x 0 ((n : Int) - 1)).toNat
  | 2 =>
    let k := (x % (2 * n : Int)).toNat
    some (if k < n then k else 2 * n - 1 - k)
  | _ => if 0 ≤ x ∧ x < (n : Int) then some x.toNat else none

/-! Taps. -/

/-- A texel to be read: mip, layer, coordinates before the address mode, and its weight in units of 2^-24. -/
structure Tap where
  mip : Nat
  layer : Nat
  x : Int
  y : Int
  weight : Nat
  deriving DecidableEq, Repr

/-- What a tap gives: components, poison, residency. -/
structure Texel where
  comps : List Nat
  bad : Bool
  resident : Bool
  deriving DecidableEq, Repr

/-- A tap is read: the residency map first, then the texel (R372, R374). -/
def State.readTap (s : State) (c : Nat) (d p : List Byte) (t : Tap) : State × Except AccErr Texel :=
  match texCoord (smU p) t.x (mipW d t.mip), texCoord (smV p) t.y (mipH d t.mip) with
  | some x, some y =>
    let n := texTile d t.mip x y
    let inst := s.cellOwn c
    let fetch (s : State) : State × Except AccErr Texel :=
      match s.rdAt inst (mCell c) (texAddr d t.mip t.layer x y) (txBytes (txFmt d)) with
      | (s, .ok (l, bad)) => (s, .ok ⟨texComps (txFmt d) (leNat l), bad, true⟩)
      | (s, .error e) => (s, .error e)
    if txRmap d = 0 then fetch s
    else
      match s.rdAt inst (mCell c) (txRmap d + t.layer * txLstride d + n / 8) 1 with
      | (s, .error e) => (s, .error e)
      | (s, .ok (l, bad)) =>
        if bitOf (leNat l) (n % 8) then
          match fetch s with
          | (s, .ok x) => (s, .ok { x with bad := x.bad || bad })
          | r => r
        else (s, .ok ⟨[0, 0, 0, 0], bad, false⟩)
  | _, _ => (s, .ok ⟨smBorder p, false, true⟩)

/-- The taps of a lane in order; the first error ends them. -/
def State.readTaps (s : State) (c : Nat) (d p : List Byte) (l : List Tap) : State × Except AccErr (List (Tap × Texel)) :=
  l.foldl (fun (r : State × Except AccErr (List (Tap × Texel))) t =>
    match r with
    | (s, .error e) => (s, .error e)
    | (s, .ok done) =>
      match s.readTap c d p t with
      | (s, .ok x) => (s, .ok (done ++ [(t, x)]))
      | (s, .error e) => (s, .error e)) (s, .ok [])

/-- A nearest tap, or the four taps of a linear filter, at coordinates in 1/256 texel, each with a share of a weight. -/
def filterTaps (linear : Bool) (mip layer : Nat) (qx qy : Int) (share : Nat) : List Tap :=
  if linear then
    let x := qx - 128
    let y := qy - 128
    let fx := (x % 256).toNat
    let fy := (y % 256).toNat
    [(0, 0, (256 - fx) * (256 - fy)), (1, 0, fx * (256 - fy)), (0, 1, (256 - fx) * fy), (1, 1, fx * fy)].map fun k =>
      ⟨mip, layer, x / 256 + k.1, y / 256 + k.2.1, k.2.2 * share⟩
  else [⟨mip, layer, qx / 256, qy / 256, 65536 * share⟩]

/-- The registers of a lane's sample. -/
structure TexIn where
  u : Nat
  v : Nat
  lod : Nat
  layer : Nat

/-- The level in 1/256 of a lane (R200): explicit, with the sampler's bias, or open where it comes from lane differences. -/
def texLevel (d p : List Byte) (mode : Nat) (i : TexIn) (f : Nat) : Nat :=
  let top := 256 * txMips d
  let raw : Int := if mode = 1 then texFixOpen i.lod 256 (top + 1) f 2 + smBias p else (openNum f 2 % (top + 1) : Nat)
  let lo : Int := min (smMinLod p) (smMaxLod p)
  (clampInt raw (max 0 lo) (smMaxLod p)).toNat

/-- The mips of a level with their shares of 256. -/
def texMips (d p : List Byte) (level : Nat) : List (Nat × Nat) :=
  let top := txMips d - 1
  match smMip p with
  | 0 => [(min top ((level + 128) / 256), 256)]
  | 1 =>
    let lo := min top (level / 256)
    let fr := if level / 256 ≥ top then 0 else level % 256
    if fr = 0 then [(lo, 256)] else [(lo, 256 - fr), (lo + 1, fr)]
  | _ => [(0, 256)]

/-- The taps of one lane by function: 0 SAMPLE, 1 FETCH, 2 GATHER4. -/
def texTaps (d p : List Byte) (fn mode : Nat) (i : TexIn) (f : Nat) : List Tap :=
  let level := texLevel d p mode i f
  let lay := texFixOpen i.layer 1 (txLayers d) f 3
  let layer := if 0 ≤ lay ∧ lay < (txLayers d : Int) then lay.toNat else openNum f 3 % txLayers d
  let q (a n j : Nat) : Int := texFixOpen a (256 * n) (256 * n) f j
  if fn = 1 then
    let m := min (txMips d - 1) ((level + 128) / 256)
    [⟨m, layer, texFixOpen i.u 1 (mipW d m) f 0, texFixOpen i.v 1 (mipH d m) f 1, 2 ^ 24⟩]
  else if fn = 2 then
    let m := ((texMips d p level).headD (0, 256)).1
    filterTaps true m layer (q i.u (mipW d m) 0) (q i.v (mipH d m) 1) 256
  else
    let linear := decide ((if level = 0 then smMag p else smMin p) = 1)
    (texMips d p level).flatMap fun k => filterTaps linear k.1 layer (q i.u (mipW d k.1) 0) (q i.v (mipH d k.1) 1) k.2

/-- A component of a filtered sample: the weights and sums are FP32 with RNE (R373). Where the result depends on the order of the
sums, which is not stated, it is open. -/
def texSum (l : List (Nat × Nat)) (free : Nat) : Nat :=
  match l.filter fun p => decide (p.1 ≠ 0) with
  | [p] => if l.length = 1 then p.2 else (fmul 0 one32 p.2).1
  | _ =>
    let ps := l.map fun p => (fmul 0 (fOfFrac p.1 (-24)) p.2).1
    let fin (v : Nat) : Bool := decide (v / 2 ^ 23 % 256 ≠ 255)
    let live := ps.filter fun v => decide (v % 2 ^ 31 ≠ 0)
    if live.length ≤ 1 || ps.any fun v => !fin v then ps.foldl (fun a v => (fadd 0 a v).1) (2 ^ 31) else free % 2 ^ 32

/-- The four results of a lane. -/
def texResult (fn f : Nat) (aniso : Bool) (l : List (Tap × Texel)) : List Nat :=
  let comp (k : Nat) (t : Texel) : Nat := t.comps.getD k 0
  if fn = 2 then
    let k := openNum f 4 % 4
    let turn := openNum f 5 % 4
    (List.range 4).map fun j =>
      match l[if openBit f 6 then (turn + 4 - j) % 4 else (turn + j) % 4]? with
      | some t => comp k t.2
      | none => 0
  else (List.range 4).map fun k => if aniso then openNum f (8 + k) % 2 ^ 32 else texSum (l.map fun t => (t.1.weight, comp k t.2)) (openNum f (8 + k))

/-- The checks of TSAMP. -/
def tsampChecks (x : Ctx) (q : CGroup) (w : Nat) : Except Exc Unit := do
  need (wFn w ≤ 2) excILL
  need (bitsOf w 29 24 = 0 && w % 128 = 0 && bitsOf w 11 10 ≠ 3) excFIELD
  dstField (wDst w)
  need (wA w < 32 && wB w ≥ 32 && wDst w % 4 = 0 && wA w % 4 = 0) excFIELD
  x.groupOk (wA w) 4
  x.groupOk (wDst w) 4
  q.predOk w
  let act := q.active w
  cleanLanes (if q.sbad (wB w) then 2 ^ 64 - 1 else 0) act
  cleanLanes (q.tbad (wA w) ||| q.tbad (wA w + 1) ||| q.tbad (wA w + 3)) act
  if bitsOf w 11 10 ≠ 0 then cleanLanes (q.tbad (wA w + 2)) act

/-- A descriptor as the texture unit holds it since LOADING (R371), or as it reads it now. -/
def State.texDesc (s : State) (c a n : Nat) : State × Except AccErr (List Byte × Bool) :=
  match fmGet (s.cell c).texs a with
  | some l => (s, .ok (l, false))
  | none =>
    match s.rdAt (s.cellOwn c) (mCell c) a n with
    | (s, .ok (l, bad)) => (if bad then s else s.modCell c fun x => { x with texs := fmPut x.texs a l }, .ok (l, bad))
    | (s, .error e) => (s, .error e)

/-- An error of a descriptor or texel read is reported with ASYNC (R374). -/
def State.texFail (s : State) (c g : Nat) (q : CGroup) (w a : Nat) (e : AccErr) : State :=
  (s.setGroup c g q.past).pendExc c ⟨match e with | .translation => excXLAT | .response => excACCESS, g, q.pc, w, a⟩

/-- The results of the lanes so far: four values, poison and residency by lane. -/
structure TexRun where
  s : State
  got : List (Nat × (List Nat × Bool × Bool))
  err : Option AccErr

/-- Results written to the active lanes, with their poison and the residency predicate. -/
def CGroup.texOut (q : CGroup) (w act : Nat) (got : List (Nat × (List Nat × Bool × Bool))) : CGroup :=
  let bad := badMask (got.map fun p => (p.1, p.2.2.1))
  let q := (List.range 4).foldl (fun (q : CGroup) k =>
    q.setT (wDst w + k) act (byLane (got.map fun p => (p.1, p.2.1.getD k 0))) bad) q
  let r := bitsOf w 9 7
  let res := badMask (got.map fun p => (p.1, p.2.2.2))
  if r = 0 then q else q.setPred r ((q.pred r &&& (2 ^ 64 - 1 - act)) ||| (res &&& act))

/-- The samples of the lanes with valid descriptors. -/
def State.texLanes (s : State) (c : Nat) (q : CGroup) (w act : Nat) (d p : List Byte) : TexRun :=
  (lanesOf act).foldl (fun (r : TexRun) l =>
    if r.err.isSome then r
    else
      let (f, t) := r.s.takeFree
      let i : TexIn := ⟨(q.treg (wA w)).getD l 0, (q.treg (wA w + 1)).getD l 0, (q.treg (wA w + 2)).getD l 0, (q.treg (wA w + 3)).getD l 0⟩
      match t.readTaps c d p (texTaps d p (wFn w) (bitsOf w 11 10) i f) with
      | (t, .error e) => { r with s := t, err := some e }
      | (t, .ok l') =>
        let aniso := decide (smAniso p > 1) && wFn w = 0 && bitsOf w 11 10 ≠ 1
        let bad := l'.any fun x => x.2.bad
        let res := l'.all fun x => x.2.resident
        { r with s := t, got := r.got ++ [(l, (texResult (wFn w) f aniso l', bad, res))] }) ⟨s, [], none⟩

/-- The same outcome in every active lane. -/
def sameLanes (act : Nat) (v : Nat → List Nat) (res : Bool) : List (Nat × (List Nat × Bool × Bool)) :=
  (lanesOf act).map fun l => (l, (v l, false, res))

/-- TSAMP. -/
def State.tsamp (s : State) (c g : Nat) (q : CGroup) (w : Nat) : MemRes :=
  match tsampChecks (s.ctx c g) q w with
  | .error e => .exc s e
  | .ok _ =>
    let act := q.active w
    let b := q.sreg (wB w)
    let da := addOfs 64 b (bitsOf w 23 16 * 32)
    let pa := addOfs 64 b (0x2000 + bitsOf w 15 12 * 16)
    let put (s : State) (got : List (Nat × (List Nat × Bool × Bool))) : MemRes := .done (s.setGroup c g (q.texOut w act got).past)
    if act = 0 then .done (s.setGroup c g q.past)
    else
      match s.texDesc c da 32 with
      | (s, .error e) => .done (s.texFail c g q w da e)
      | (s, .ok (d, bad)) =>
        if bad then .exc s (.lane_ excPOISON da (lowLane act))
        else if !txOk d then put ((s.bump rRasTexErr).orWord (blkBase bRAS) 8) (sameLanes act (fun _ => [0, 0, 0, 0]) false)
        else
          match s.texDesc c pa 16 with
          | (s, .error e) => .done (s.texFail c g q w pa e)
          | (s, .ok (p, bad)) =>
            if bad then .exc s (.lane_ excPOISON pa (lowLane act))
            else if !smOk p then
              let (f, s) := s.takeFree
              put s (sameLanes act (fun l => (List.range 4).map fun k => openNum f (4 * l + k) % 2 ^ 32) (openBit f 256))
            else
              let r := s.texLanes c q w act d p
              match r.err with
              | some e => .done (r.s.texFail c g q w (txBase d) e)
              | none => put r.s r.got

def execTsamp (cell : Fin 256) (group : Fin 128) (s : State) : Host.Outcome State Fault Refusal :=
  .next (s.issueMem cell group (fun w => wOp w == 0x19) fun s q w => s.tsamp cell group q w)

end Sys2Proof.Machine
end

