-- ==== Sys2Proof/Machine/CellExc.lean ====
section
/-! DEFINITION. Synchronous exceptions: SYNC_EXCEPTION (05_cells.md R163 to R165; 06_cell_isa.md R182 to R184). -/

namespace Sys2Proof.Machine

/-- The next instruction of a group, whatever it is, issued by its own meaning; none where the word is no instruction. -/
def State.runWord (s : State) (c : Fin 256) (g : Fin 128) (w : Nat) : Option (Host.Outcome State Fault Refusal) :=
  match wOp w with
  | 0x01 => some (execSalu c g s)
  | 0x02 => some (execSmovi c g s)
  | 0x03 => some (execSmovhi c g s)
  | 0x04 => some (execSld c g s)
  | 0x05 => some (execSst c g s)
  | 0x06 => some (execBr c g s)
  | 0x07 => if bitsOf w 35 32 = 0 then some (execJal c g s) else if bitsOf w 35 32 = 1 then some (execJalr c g s) else none
  | 0x08 => some (execSrd c g s)
  | 0x10 => some (execTalu c g s)
  | 0x11 => some (execTmovi c g s)
  | 0x12 => some (execFalu c g s)
  | 0x13 => some (execTcvt c g s)
  | 0x14 => some (execTcmp c g s)
  | 0x15 => if wFn w < 0x10 then some (execPlog c g s) else if wFn w ≤ 0x13 then some (execVote c g s) else none
  | 0x16 => some (execTld c g 0 0 s)
  | 0x17 => some (execTst c g s)
  | 0x18 => some (execTlane c g s)
  | 0x19 => some (execTsamp c g s)
  | 0x1A => some (execTatom c g s)
  | 0x20 => some (execMma c g 0 0 s)
  | 0x21 => some (execMmaw c g s)
  | 0x22 => some (execAccrd c g s)
  | 0x23 => some (execAccld c g s)
  | 0x30 => some (execLaceInstruction c g s)
  | 0x31 => some (execTcopy c g s)
  | 0x32 => some (execTrans c g s)
  | 0x33 => some (execFill c g s)
  | 0x38 =>
    match wFn w with
    | 0 => some (execBarSync c g s) | 1 => some (execBarArrive c g s) | 2 => some (execBarWait c g s) | _ => none
  | 0x39 => match wFn w with | 0 => some (execWait c g s) | 1 => some (execFence c g s) | _ => none
  | 0x3A => match wFn w with | 0 => some (execPwait c g s) | 1 => some (execPread c g s) | _ => none
  | 0x3B => some (execNotify c g s)
  | 0x3C => match wFn w with | 0 => some (execSort c g s) | 1 => some (execTopk c g s) | _ => none
  | 0x3D => match wFn w with | 0 => some (execGather c g s) | 1 => some (execScatter c g s) | _ => none
  | 0x3E => match wFn w with | 0 => some (execAttn c g s) | 1 => some (execNms c g s) | _ => none
  | 0x3F =>
    match wFn w with
    | 0 => some (execSysNop c g s) | 1 => some (execSysEnd c g s) | 2 => some (execSysBreak c g s)
    | 3 => some (execSysTrap c g s) | 4 => some (execRdfl c g s) | 5 => some (execClrfl c g s)
    | 6 => some (execRdres c g s) | 7 => some (execWrres c g s) | _ => none
  | _ => none

/-- The exception of a word that no instruction has: a reserved kind of jump is a field value out of range, any other word a
reserved major opcode or function (R183). -/
def reservedWord (w : Nat) : Exc := .of (if wOp w = 7 then excFIELD else excILL)

/-- An exception has been captured or counted for the cell (R165). -/
def State.excSeen (s t : State) (c : Nat) : Bool :=
  decide (s.word (rCell c 0x1C) ≠ t.word (rCell c 0x1C)) || decide (s.word (rCell c 0x38) ≠ t.word (rCell c 0x38))

/-- The next instruction of a group raises its exception: a fetch that fails, a reserved word, or an instruction whose own checks
fail. A group whose next instruction raises none is left alone. -/
def State.syncException (s : State) (c : Fin 256) (g : Fin 128) : State :=
  if !s.canIssue c g then s
  else
    match (s.cell c).fetch (s.group c g).pc with
    | .error e => s.syncExc c g 0 e
    | .ok w =>
      match s.runWord c g w with
      | none => s.syncExc c g w (reservedWord w)
      | some (.next t) => if s.excSeen t c then t else s
      | some _ => s

def execSyncException (cell : Fin 256) (group : Fin 128) (s : State) : Host.Outcome State Fault Refusal :=
  .next (s.syncException cell group)

end Sys2Proof.Machine
end

