-- ==== Sys2Proof/Machine/PcieIn.lean ====
section
/-! DEFINITION. Requests from a link partner (14_hosts_and_tenants.md R454 to R459, R464, R639; 16_firmware_and_boot.md R534).
What the PCIe base specification leaves to the receiver, and how an atomic is sized, is PRESUMED (log 261). -/

namespace Sys2Proof.Machine

/-- Kinds of inbound request: 0 read, 1 posted write, 2 FetchAdd, 3 Swap, 4 CAS. -/
def inAcc (kind : Nat) : Nat := if kind = 0 then 1 else if kind = 1 then 2 else 4

/-- A request fails (R459): a posted write is dropped and counted, another is answered with Unsupported Request (1) or Completer
Abort (2). -/
def State.inFail (s : State) (n tag status : Nat) (posted : Bool) : State :=
  if posted then (s.bump (rPciPort n 0x14)).portIrq n 4 else s.sendCpl n tag status false []

/-- The response of an access answers its request (R459). -/
def State.inAnswer (s : State) (n tag : Nat) (posted : Bool) : State :=
  if s.resp.err then s.inFail n tag 2 posted
  else if posted then s
  else s.sendCpl n tag 0 s.resp.poison s.resp.data

/-- Operand bytes of an atomic: half of the data of a CAS, all of the others' (R453). -/
def atomBytes (kind : Nat) (l : List Byte) : Nat := if kind = 4 then l.length / 2 else l.length

/-- An atomic that PCIe defines: of 32 or 64 bits, a CAS also of 128, naturally aligned (R453). -/
def atomOk (kind a : Nat) (l : List Byte) : Bool :=
  let w := atomBytes kind l
  (w == 4 || w == 8 || (kind == 4 && w == 16)) && decide (a % w = 0) && decide (kind ≠ 4 ∨ l.length = 2 * w)

/-- The new value of an atomic. -/
def atomNew (kind w old : Nat) (l : List Byte) : Nat :=
  if kind = 2 then (old + leNat l) % 2 ^ (8 * w)
  else if kind = 3 then leNat l
  else if old = leNat (l.take w) then leNat (l.drop w) else old

/-- An atomic on storage: the old value is returned and the new one written. Another destination performs none. -/
def State.atomicAt (s : State) (m : Master) (kind a : Nat) (l : List Byte) (bad : Bool) : State :=
  if !(s.addrKind a).isStorage then s.refuse m 4 a
  else
    match s.mapAnswer m true a with
    | .served =>
      let w := atomBytes kind l
      let t := s.readPa m a w 0 0 0
      let old := t.resp
      let t := t.writePa m a (leBytes w (atomNew kind w (leNat old.data) l)) (bad || old.poison) 0 0 0
      if t.resp.err then t else { t with resp := old }
    | ans => s.mapRefuse m 4 a ans

/-- An access held or forwarded for a request takes the request's tag with it. -/
def State.tagLast (s : State) (held waits n tag : Nat) : State :=
  let s := if s.heldAcc.length > held then
      { s with heldAcc := modAt s.heldAcc held fun (h : HeldAcc) => { h with back := some (n, tag) } } else s
  if s.pci.out.length > waits then
    { s with pci.out := modAt s.pci.out waits fun (q : PciReq) => { q with back := some (n, tag) } } else s

/-- A request of instance i at physical address a. -/
def State.inAccess (s : State) (m : Master) (inst : Option (Fin 64)) (n tag kind a len : Nat) (l : List Byte) (ep : Bool) : State :=
  let held := s.heldAcc.length
  let waits := s.pci.out.length
  let t := if kind < 2 then s.mapAccess m inst (kind = 1) a (if kind = 1 then l.length else len) l ep else s.atomicAt m kind a l ep
  if kind ≠ 1 && (t.heldAcc.length > held || t.pci.out.length > waits) then t.tagLast held waits n tag
  else t.inAnswer n tag (kind = 1)

/-- A translated request of instance i: through stage 2 only for a VF's aperture, through both stages at a root port. -/
def State.inXlat (s : State) (m : Master) (i n tag kind va len : Nat) (l : List Byte) (ep s2only : Bool) : State :=
  match s.xlatBy i m (inAcc kind) va s2only with
  | (s, none) => s.inFail n tag 1 (kind = 1)
  | (s, some pa) => s.inAccess m (asInst i) n tag kind pa len l ep

/-- A register access through BAR0; an atomic finds no register. -/
def State.inReg (s : State) (m : Master) (inst : Option (Fin 64)) (n tag kind a len : Nat) (l : List Byte) : State :=
  let s := match kind with
    | 0 => s.regRead m inst a (sizeLog len)
    | 1 => s.regWrite m inst a (sizeLog l.length) (leNat l)
    | _ => s.refuse m 4 a
  s.inAnswer n tag (kind = 1)

/-- Offsets that read 0 and ignore writes. -/
def State.inZero (s : State) (n tag kind len : Nat) (l : List Byte) : State :=
  (s.respOk (if kind = 1 then [] else zeroBytes (if kind = 0 then len else atomBytes kind l))).inAnswer n tag (kind = 1)

/-- PF0 BAR0 (R534): request and response area and registers of mailbox 60 + n, FWP_STATE and PCI_PORT_STATUS, with the rights
of the mailbox's owner. -/
def State.inPf0 (s : State) (m : Master) (n tag kind o len : Nat) (l : List Byte) : State :=
  let b := 60 + n
  let inst := asInst (s.mbxOwner b)
  if o < 0x1000 then s.inReg m inst n tag kind (mbxReq b + o) len l
  else if o < 0x2000 then s.inReg m inst n tag kind (mbxRsp b + (o - 0x1000)) len l
  else if decide (0x2000 ≤ o) && decide (o < 0x2040) then s.inReg m inst n tag kind (rMbx b (o - 0x2000)) len l
  else if kind = 0 && decide (0x3000 ≤ o) && decide (o < 0x3008) then
    let both := leBytes 4 (s.word (rFwp 0)) ++ leBytes 4 (s.word (rPciPort n 4))
    (s.respOk (sliceBytes both (o - 0x3000) len)).inAnswer n tag false
  else s.inZero n tag kind len l

/-- BAR0 of a VF (R454, R464): the doorbell at offset 0. -/
def State.inVfBar0 (s : State) (m : Master) (i n tag kind o len : Nat) (l : List Byte) : State :=
  if o < 8 then s.inReg m (asInst i) n tag kind (rHqm (0x1000 + o)) len l else s.inZero n tag kind len l

/-- The instance of a requester ID at a root port (R455). -/
def State.ridInst (s : State) (n rid : Nat) : Nat :=
  match (List.range 8).find? fun e => s.bit (rPciPort n (0x40 + e * 4)) 31 && decide (s.fld (rPciPort n (0x40 + e * 4)) 15 0 = rid) with
  | some e => s.fld (rPciPort n (0x40 + e * 4)) 21 16
  | none => s.fld (rPciPort n 0) 12 7

/-- An inbound request at port n. At an endpoint fn is the function addressed (0 PF0, VF + 1), bar its BAR and addr the offset
in it; at a root port rid is the requester ID and addr the address. -/
def State.inbound (s : State) (n fn rid bar kind addr len : Nat) (l : List Byte) (ep : Bool) (tag : Nat) : State :=
  let posted := decide (kind = 1)
  if !s.portUp n then s
  else
    let s := if ep then s.epCount n false else s
    if kind ≥ 2 && !atomOk kind addr l then s.inFail n tag 1 posted
    else if s.bit (rPciPort n 0) 1 then
      let m : Master := BitVec.ofNat 16 (0x4000 + 1024 * n + rid % 256)
      let i := s.ridInst n rid
      if s.instState i ≠ 1 then s.inFail n tag 1 posted else s.inXlat m i n tag kind addr len l ep false
    else
      let m : Master := BitVec.ofNat 16 (0x4000 + 1024 * n + fn)
      if fn = 0 then (if bar = 0 && addr < 2 ^ 20 then s.inPf0 m n tag kind addr len l else s.inFail n tag 1 posted)
      else
        match (s.portVfs n).find? fun i => decide (s.instVf i + 1 = fn) with
        | none => s.inFail n tag 1 posted
        | some i =>
          if s.instState i ≠ 1 then s.inFail n tag 1 posted
          else if bar = 0 && addr < 2 ^ 16 then s.inVfBar0 m i n tag kind addr len l
          else if bar = 2 && addr < 2 ^ (30 + s.fld (rPciPort n 0) 31 28) then s.inXlat m i n tag kind addr len l ep true
          else s.inFail n tag 1 posted

def execPcieInboundRequest (port : Fin 4) (fn : Fin 256) (rid : BitVec 16) (bar : Fin 3) (kind : Fin 5) (addr : BitVec 64)
    (len : Fin 4097) (data : List Byte) (ep : Bool) (tag : BitVec 14) (s : State) : Host.Outcome State Fault Refusal :=
  .next (s.inbound port fn rid.toNat bar kind addr.toNat len data ep tag.toNat)

end Sys2Proof.Machine
end

