-- ==== Sys2Proof/Machine/PhxDispatch.lean ====
section
/-! DEFINITION. The dispatch of tack actions (02_phase_engine.md R52, R53, R64; 14_hosts_and_tenants.md R464;
09_jobs_and_models.md R289; 07_tensor_and_long_ops.md R238). -/

namespace Sys2Proof.Machine

/-- The owner and generation that an action carries; an unowned tack acts for the system. -/
def PhxAct.inst (a : PhxAct) : Option (Fin 64) := if a.owned then asInst a.owner else none
def PhxAct.own (a : PhxAct) : Option Nat := if a.owned then some a.owner else none

/-- A job or a lace list of an owner whose generation has been raised since the firing is refused: DEDUCED (log 264). -/
def State.actStale (s : State) (a : PhxAct) : Bool := a.owned && decide (a.gen ≠ s.instGen a.owner)

/-- One action is performed, or fails with its code (R51): 3 refused by the target, 4 error response. -/
def State.doAction (s : State) (a : PhxAct) : State :=
  if a.action = 4 then
    let (s, err) := s.doorbell (mPhx 0) a.inst a.gen (a.arg0 % 2 ^ 19) a.arg1
    if err then s.actionFail a.tack 4 else s
  else if s.actStale a then s.actionFail a.tack 3
  else if a.action = 5 then
    let (s, ok) := s.laceTack (a.arg0 % 512) a.tack a.own a.gen a.arg1
    if ok then s else s.actionFail a.tack 3
  else
    let (s, ok) := s.releaseTack (a.arg0 % 4096) (mPhx 0) a.own a.arg1 a.target
    if ok then s else s.actionFail a.tack 3

/-- A LACE action for the engine of a cell under failure substitution is held (R170). -/
def State.actHeld (s : State) (a : PhxAct) : Bool := a.action == 5 && s.cel.held.contains (a.arg0 % 512)

/-- The dispatcher issues up to 4 actions, in the order of the queue; a held action keeps its place. -/
def execActionDispatch (s : State) : Host.Outcome State Fault Refusal :=
  let go := s.phx.queue.take 4
  let kept := go.filter s.actHeld
  let s0 := { s with phx.queue := kept ++ s.phx.queue.drop 4 }
  let s1 := s0.setFld (rPhx 4) 24 16 s0.phx.queue.length
  .next ((go.filter fun a => !s.actHeld a).foldl State.doAction s1)

end Sys2Proof.Machine
end

