-- ==== Sys2Proof/Machine/Dispatch.lean ====
section
/-! DEFINITION. One arm for each command: a direct call of its meaning, or a refusal by name. -/

namespace Sys2Proof.Machine

/-- The effect of a command on everything but the queue. -/
def exec (i : Instr) (s : State) : Host.Outcome State Fault Refusal :=
  match i with
  | .registerWrite m inst addr size v => Sys2Proof.Machine.execRegisterWrite m inst addr size v s
  | .wideRegisterLowerRead m inst addr => Sys2Proof.Machine.execWideRegisterLowerRead m inst addr s
  | .fabricMemoryAccess m inst write addr len data poison incarn => Sys2Proof.Machine.execFabricMemoryAccess m inst write addr len data poison incarn s
  | .heldAccessRelease => Sys2Proof.Machine.execHeldAccessRelease s
  | .ptpClockTick clk => Sys2Proof.Machine.execPtpClockTick clk s
  | .angleSample stream => Sys2Proof.Machine.execAngleSample stream s
  | .phaseInEdge pin level => Sys2Proof.Machine.execPhaseInEdge pin level s
  | .lineAxisFrameStart stream => Sys2Proof.Machine.execLineAxisFrameStart stream s
  | .lineAxisLineStart stream => Sys2Proof.Machine.execLineAxisLineStart stream s
  | .lineAxisFrameEnd stream => Sys2Proof.Machine.execLineAxisFrameEnd stream s
  | .axisLoad m inst axis v => Sys2Proof.Machine.execAxisLoad m inst axis v s
  | .axisStall axis => Sys2Proof.Machine.execAxisStall axis s
  | .tackWrite m inst tack reg v => Sys2Proof.Machine.execTackWrite m inst tack reg v s
  | .tackArm m inst tack cfg => Sys2Proof.Machine.execTackArm m inst tack cfg s
  | .tackDisarm m inst tack cfg => Sys2Proof.Machine.execTackDisarm m inst tack cfg s
  | .tackFire tack ecc => Sys2Proof.Machine.execTackFire tack ecc s
  | .actionDispatch => Sys2Proof.Machine.execActionDispatch s
  | .evaluationResume => Sys2Proof.Machine.execEvaluationResume s
  | .phaseOutEdge pin => Sys2Proof.Machine.execPhaseOutEdge pin s
  | .phxEvtDataRead m inst => Sys2Proof.Machine.execPhxEvtDataRead m inst s
  | .csi2FrameStart port vc frame err => Sys2Proof.Machine.execCsi2FrameStart port vc frame err s
  | .csi2LongPacket port vc dt data err => Sys2Proof.Machine.execCsi2LongPacket port vc dt data err s
  | .csi2FrameEnd port vc err => Sys2Proof.Machine.execCsi2FrameEnd port vc err s
  | .csi2ShortPacket port vc dt err => Sys2Proof.Machine.execCsi2ShortPacket port vc dt err s
  | .flowPacket flow full => Sys2Proof.Machine.execFlowPacket flow full s
  | .bandStart stream => Sys2Proof.Machine.execBandStart stream s
  | .lseUnitStart stream => Sys2Proof.Machine.execLseUnitStart stream s
  | .lseEnd stream => Sys2Proof.Machine.execLseEnd stream s
  | .lseLoop stream => Sys2Proof.Machine.execLseLoop stream s
  | .lseGet stream => Sys2Proof.Machine.execLseGet stream s
  | .lseSkip stream => Sys2Proof.Machine.execLseSkip stream s
  | .lseAlu stream => Sys2Proof.Machine.execLseAlu stream s
  | .lseCvt stream => Sys2Proof.Machine.execLseCvt stream s
  | .lsePut stream => Sys2Proof.Machine.execLsePut stream s
  | .lseAdda stream => Sys2Proof.Machine.execLseAdda stream s
  | .bandComplete stream => Sys2Proof.Machine.execBandComplete stream s
  | .streamStallTimeout stream => Sys2Proof.Machine.execStreamStallTimeout stream s
  | .slotRelease m inst stream v => Sys2Proof.Machine.execSlotRelease m inst stream v s
  | .commit m inst stream => Sys2Proof.Machine.execCommit m inst stream s
  | .cancel m inst stream => Sys2Proof.Machine.execCancel m inst stream s
  | .restart m inst stream => Sys2Proof.Machine.execRestart m inst stream s
  | .shadowSlotWrite m inst stream word v => Sys2Proof.Machine.execShadowSlotWrite m inst stream word v s
  | .lseOccupancyWindow => Sys2Proof.Machine.execLseOccupancyWindow s
  | .kernelWrite m cell addr => Sys2Proof.Machine.execKernelWrite m cell addr s
  | .kernelLoadDone cell => Sys2Proof.Machine.execKernelLoadDone cell s
  | .taskComplete cell => Sys2Proof.Machine.execTaskComplete cell s
  | .save m cell => Sys2Proof.Machine.execSave m cell s
  | .saveComplete cell => Sys2Proof.Machine.execSaveComplete cell s
  | .restore m cell => Sys2Proof.Machine.execRestore m cell s
  | .restoreComplete cell => Sys2Proof.Machine.execRestoreComplete cell s
  | .abort m cell => Sys2Proof.Machine.execAbort m cell s
  | .ack m cell => Sys2Proof.Machine.execAck m cell s
  | .syncException cell group => Sys2Proof.Machine.execSyncException cell group s
  | .asyncException cell => Sys2Proof.Machine.execAsyncException cell s
  | .cellHalt cell => Sys2Proof.Machine.execCellHalt cell s
  | .watchdog cell => Sys2Proof.Machine.execWatchdog cell s
  | .cellHang cell => Sys2Proof.Machine.execCellHang cell s
  | .controlCheckerFail cell => Sys2Proof.Machine.execControlCheckerFail cell s
  | .errorCountClear => Sys2Proof.Machine.execErrorCountClear s
  | .failureSubstitution cell wake lost bad => Sys2Proof.Machine.execFailureSubstitution cell wake lost bad s
  | .substitutionComplete cell => Sys2Proof.Machine.execSubstitutionComplete cell s
  | .plannedSubstitution cell wake => Sys2Proof.Machine.execPlannedSubstitution cell wake s
  | .subReq m cell force => Sys2Proof.Machine.execSubReq m cell force s
  | .maintStart m panel phys => Sys2Proof.Machine.execMaintStart m panel phys s
  | .maintDone pass => Sys2Proof.Machine.execMaintDone pass s
  | .salu cell group => Sys2Proof.Machine.execSalu cell group s
  | .smovi cell group => Sys2Proof.Machine.execSmovi cell group s
  | .smovhi cell group => Sys2Proof.Machine.execSmovhi cell group s
  | .sld cell group => Sys2Proof.Machine.execSld cell group s
  | .sst cell group => Sys2Proof.Machine.execSst cell group s
  | .srd cell group => Sys2Proof.Machine.execSrd cell group s
  | .br cell group => Sys2Proof.Machine.execBr cell group s
  | .jal cell group => Sys2Proof.Machine.execJal cell group s
  | .jalr cell group => Sys2Proof.Machine.execJalr cell group s
  | .talu cell group => Sys2Proof.Machine.execTalu cell group s
  | .tmovi cell group => Sys2Proof.Machine.execTmovi cell group s
  | .falu cell group => Sys2Proof.Machine.execFalu cell group s
  | .tcvt cell group => Sys2Proof.Machine.execTcvt cell group s
  | .tcmp cell group => Sys2Proof.Machine.execTcmp cell group s
  | .plog cell group => Sys2Proof.Machine.execPlog cell group s
  | .vote cell group => Sys2Proof.Machine.execVote cell group s
  | .tld cell group err idx => Sys2Proof.Machine.execTld cell group err idx s
  | .tst cell group => Sys2Proof.Machine.execTst cell group s
  | .tlane cell group => Sys2Proof.Machine.execTlane cell group s
  | .tsamp cell group => Sys2Proof.Machine.execTsamp cell group s
  | .tatom cell group => Sys2Proof.Machine.execTatom cell group s
  | .barSync cell group => Sys2Proof.Machine.execBarSync cell group s
  | .barArrive cell group => Sys2Proof.Machine.execBarArrive cell group s
  | .barWait cell group => Sys2Proof.Machine.execBarWait cell group s
  | .barrierPhaseComplete cell bar => Sys2Proof.Machine.execBarrierPhaseComplete cell bar s
  | .wait cell group => Sys2Proof.Machine.execWait cell group s
  | .fence cell group => Sys2Proof.Machine.execFence cell group s
  | .pwait cell group => Sys2Proof.Machine.execPwait cell group s
  | .pwaitReached cell group => Sys2Proof.Machine.execPwaitReached cell group s
  | .pread cell group => Sys2Proof.Machine.execPread cell group s
  | .notify cell group => Sys2Proof.Machine.execNotify cell group s
  | .sysNop cell group => Sys2Proof.Machine.execSysNop cell group s
  | .sysEnd cell group => Sys2Proof.Machine.execSysEnd cell group s
  | .sysBreak cell group => Sys2Proof.Machine.execSysBreak cell group s
  | .sysTrap cell group => Sys2Proof.Machine.execSysTrap cell group s
  | .rdfl cell group => Sys2Proof.Machine.execRdfl cell group s
  | .clrfl cell group => Sys2Proof.Machine.execClrfl cell group s
  | .rdres cell group => Sys2Proof.Machine.execRdres cell group s
  | .wrres cell group => Sys2Proof.Machine.execWrres cell group s
  | .mma cell group err idx => Sys2Proof.Machine.execMma cell group err idx s
  | .mmaw cell group => Sys2Proof.Machine.execMmaw cell group s
  | .accrd cell group => Sys2Proof.Machine.execAccrd cell group s
  | .accld cell group => Sys2Proof.Machine.execAccld cell group s
  | .tensorComplete cell => Sys2Proof.Machine.execTensorComplete cell s
  | .laceInstruction cell group => Sys2Proof.Machine.execLaceInstruction cell group s
  | .laceListAccept cell => Sys2Proof.Machine.execLaceListAccept cell s
  | .laceDescriptorExecute engine chan => Sys2Proof.Machine.execLaceDescriptorExecute engine chan s
  | .laceSignalWrite engine chan => Sys2Proof.Machine.execLaceSignalWrite engine chan s
  | .laceListComplete engine chan => Sys2Proof.Machine.execLaceListComplete engine chan s
  | .tcopy cell group => Sys2Proof.Machine.execTcopy cell group s
  | .trans cell group => Sys2Proof.Machine.execTrans cell group s
  | .fill cell group => Sys2Proof.Machine.execFill cell group s
  | .movementComplete cell => Sys2Proof.Machine.execMovementComplete cell s
  | .sort cell group => Sys2Proof.Machine.execSort cell group s
  | .topk cell group => Sys2Proof.Machine.execTopk cell group s
  | .gather cell group => Sys2Proof.Machine.execGather cell group s
  | .scatter cell group => Sys2Proof.Machine.execScatter cell group s
  | .attn cell group => Sys2Proof.Machine.execAttn cell group s
  | .nms cell group => Sys2Proof.Machine.execNms cell group s
  | .longRoutineComplete cell => Sys2Proof.Machine.execLongRoutineComplete cell s
  | .slotReleaseWrite m inst slot param => Sys2Proof.Machine.execSlotReleaseWrite m inst slot param s
  | .taskPlacement => Sys2Proof.Machine.execTaskPlacement s
  | .taskOutcome => Sys2Proof.Machine.execTaskOutcome s
  | .completionBufferDrain => Sys2Proof.Machine.execCompletionBufferDrain s
  | .clickCfgWrite m click v => Sys2Proof.Machine.execClickCfgWrite m click v s
  | .clickSwitch m click v => Sys2Proof.Machine.execClickSwitch m click v s
  | .switchDrainDone click => Sys2Proof.Machine.execSwitchDrainDone click s
  | .switchDone click => Sys2Proof.Machine.execSwitchDone click s
  | .unbind m click abort => Sys2Proof.Machine.execUnbind m click abort s
  | .checkpointDigest side => Sys2Proof.Machine.execCheckpointDigest side s
  | .digestCompare slot => Sys2Proof.Machine.execDigestCompare slot s
  | .digestLate slot => Sys2Proof.Machine.execDigestLate slot s
  | .modelRepair addr => Sys2Proof.Machine.execModelRepair addr s
  | .modelInstallationDone model work kern => Sys2Proof.Machine.execModelInstallationDone model work kern s
  | .epochAcqRead m inst => Sys2Proof.Machine.execEpochAcqRead m inst s
  | .epochPublish m inst buf => Sys2Proof.Machine.execEpochPublish m inst buf s
  | .epochAbandon m inst buf => Sys2Proof.Machine.execEpochAbandon m inst buf s
  | .cycleStart => Sys2Proof.Machine.execCycleStart s
  | .wavefrontExpansionDone err => Sys2Proof.Machine.execWavefrontExpansionDone err s
  | .planChosen => Sys2Proof.Machine.execPlanChosen s
  | .heelSubmit m addr => Sys2Proof.Machine.execHeelSubmit m addr s
  | .heelCheckDone fault => Sys2Proof.Machine.execHeelCheckDone fault s
  | .heelOutcome => Sys2Proof.Machine.execHeelOutcome s
  | .deadlineTack => Sys2Proof.Machine.execDeadlineTack s
  | .vehicleStateCommit m inst t => Sys2Proof.Machine.execVehicleStateCommit m inst t s
  | .goalSwap m inst => Sys2Proof.Machine.execGoalSwap m inst s
  | .rasFeTailWrite m inst fe v => Sys2Proof.Machine.execRasFeTailWrite m inst fe v s
  | .rasNop fe => Sys2Proof.Machine.execRasNop fe s
  | .beginPass fe => Sys2Proof.Machine.execBeginPass fe s
  | .draw fe => Sys2Proof.Machine.execDraw fe s
  | .endPass fe => Sys2Proof.Machine.execEndPass fe s
  | .release fe => Sys2Proof.Machine.execRelease fe s
  | .waitMem fe => Sys2Proof.Machine.execWaitMem fe s
  | .waitMemPoll fe => Sys2Proof.Machine.execWaitMemPoll fe s
  | .signalMem fe => Sys2Proof.Machine.execSignalMem fe s
  | .splat fe => Sys2Proof.Machine.execSplat fe s
  | .skipCmd m inst fe => Sys2Proof.Machine.execSkipCmd m inst fe s
  | .flush m inst fe => Sys2Proof.Machine.execFlush m inst fe s
  | .rasEventRetry fe => Sys2Proof.Machine.execRasEventRetry fe s
  | .dpyPipeEnable m inst pipe expect => Sys2Proof.Machine.execDpyPipeEnable m inst pipe expect s
  | .dpyPipeDisable m inst pipe expect => Sys2Proof.Machine.execDpyPipeDisable m inst pipe expect s
  | .dpyFrameStart pipe onTarget late => Sys2Proof.Machine.execDpyFrameStart pipe onTarget late s
  | .dpyLineDl pipe => Sys2Proof.Machine.execDpyLineDl pipe s
  | .dpyFlipLatch pipe => Sys2Proof.Machine.execDpyFlipLatch pipe s
  | .dpyPipeFlip m inst pipe buf => Sys2Proof.Machine.execDpyPipeFlip m inst pipe buf s
  | .dpyLockLoss pipe => Sys2Proof.Machine.execDpyLockLoss pipe s
  | .sideGo m inst pipe v => Sys2Proof.Machine.execSideGo m inst pipe v s
  | .sideDone pipe data => Sys2Proof.Machine.execSideDone pipe data s
  | .hpdEvent pipe => Sys2Proof.Machine.execHpdEvent pipe s
  | .memoryRead m inst addr len err off syn => Sys2Proof.Machine.execMemoryRead m inst addr len err off syn s
  | .memoryWrite m inst addr data poison err off syn => Sys2Proof.Machine.execMemoryWrite m inst addr data poison err off syn s
  | .scrubRead addr err syn => Sys2Proof.Machine.execScrubRead addr err syn s
  | .scrubLate kind => Sys2Proof.Machine.execScrubLate kind s
  | .fabricRequestIssue port label m inst addr bytes write deadline => Sys2Proof.Machine.execFabricRequestIssue port label m inst addr bytes write deadline s
  | .regulatorRelease port label => Sys2Proof.Machine.execRegulatorRelease port label s
  | .requestComplete port label cause => Sys2Proof.Machine.execRequestComplete port label cause s
  | .floorWindowEnd port label => Sys2Proof.Machine.execFloorWindowEnd port label s
  | .linkRetrain link => Sys2Proof.Machine.execLinkRetrain link s
  | .auditStart => Sys2Proof.Machine.execAuditStart s
  | .auditComplete => Sys2Proof.Machine.execAuditComplete s
  | .auditLate => Sys2Proof.Machine.execAuditLate s
  | .fabMissClr m inst v => Sys2Proof.Machine.execFabMissClr m inst v s
  | .clusterStateChange cluster st => Sys2Proof.Machine.execClusterStateChange cluster st s
  | .atuInv m inst w => Sys2Proof.Machine.execAtuInv m inst w s
  | .atuInvDone => Sys2Proof.Machine.execAtuInvDone s
  | .instanceReset m inst => Sys2Proof.Machine.execInstanceReset m inst s
  | .instanceRemove m inst => Sys2Proof.Machine.execInstanceRemove m inst s
  | .instanceAdd m inst => Sys2Proof.Machine.execInstanceAdd m inst s
  | .resetDrainDone inst => Sys2Proof.Machine.execResetDrainDone inst s
  | .pcieLinkUp port gen width flit => Sys2Proof.Machine.execPcieLinkUp port gen width flit s
  | .pcieLinkDown port => Sys2Proof.Machine.execPcieLinkDown port s
  | .pcieFlr port vf => Sys2Proof.Machine.execPcieFlr port vf s
  | .vfEnableChange port enable num => Sys2Proof.Machine.execVfEnableChange port enable num s
  | .pcieInboundRequest port fn rid bar kind addr len data ep tag => Sys2Proof.Machine.execPcieInboundRequest port fn rid bar kind addr len data ep tag s
  | .pcieOutboundRequest m inst port write addr len data poison => Sys2Proof.Machine.execPcieOutboundRequest m inst port write addr len data poison s
  | .pcieCompletionTimeout port tag => Sys2Proof.Machine.execPcieCompletionTimeout port tag s
  | .pciCfgGo m port v write => Sys2Proof.Machine.execPciCfgGo m port v write s
  | .hqmDoorbell m inst gen v => Sys2Proof.Machine.execHqmDoorbell m inst gen v s
  | .hqmPost qid gen data => Sys2Proof.Machine.execHqmPost qid gen data s
  | .hqmPostRetry qid => Sys2Proof.Machine.execHqmPostRetry qid s
  | .qcmdEnable m inst qid => Sys2Proof.Machine.execQcmdEnable m inst qid s
  | .qcmdDisable m inst qid => Sys2Proof.Machine.execQcmdDisable m inst qid s
  | .qcmdClearFault m inst qid => Sys2Proof.Machine.execQcmdClearFault m inst qid s
  | .refclkLoss => Sys2Proof.Machine.execRefclkLoss s
  | .refclkRecover => Sys2Proof.Machine.execRefclkRecover s
  | .ptpRefinFail => Sys2Proof.Machine.execPtpRefinFail s
  | .ptpRefinRecover => Sys2Proof.Machine.execPtpRefinRecover s
  | .safeXinFail => Sys2Proof.Machine.execSafeXinFail s
  | .lockstepMismatch pair point bit pc => Sys2Proof.Machine.execLockstepMismatch pair point bit pc s
  | .pairRetestDone pair pass => Sys2Proof.Machine.execPairRetestDone pair pass s
  | .retest m pair => Sys2Proof.Machine.execRetest m pair s
  | .inputVote pair input rounds => Sys2Proof.Machine.execInputVote pair input rounds s
  | .startupTest => Sys2Proof.Machine.execStartupTest s
  | .startupTestDone pass => Sys2Proof.Machine.execStartupTestDone pass s
  | .debugSplit pair => Sys2Proof.Machine.execDebugSplit pair s
  | .faultEvent rail src cls access m unit info addr => Sys2Proof.Machine.execFaultEvent rail src cls access m unit info addr s
  | .classDExit => Sys2Proof.Machine.execClassDExit s
  | .classSExit => Sys2Proof.Machine.execClassSExit s
  | .sExit m => Sys2Proof.Machine.execSExit m s
  | .aliveStart m => Sys2Proof.Machine.execAliveStart m s
  | .aliveEdge => Sys2Proof.Machine.execAliveEdge s
  | .fcHoldExpire => Sys2Proof.Machine.execFcHoldExpire s
  | .kick m => Sys2Proof.Machine.execKick m s
  | .islandWatchdogExpire => Sys2Proof.Machine.execIslandWatchdogExpire s
  | .fwpHeartbeat m => Sys2Proof.Machine.execFwpHeartbeat m s
  | .heartbeatMiss proc => Sys2Proof.Machine.execHeartbeatMiss proc s
  | .swReport m data => Sys2Proof.Machine.execSwReport m data s
  | .clrFirst m => Sys2Proof.Machine.execClrFirst m s
  | .alarmTailWrite m v => Sys2Proof.Machine.execAlarmTailWrite m v s
  | .awlUnlock m data => Sys2Proof.Machine.execAwlUnlock m data s
  | .awlUnlockTimeout => Sys2Proof.Machine.execAwlUnlockTimeout s
  | .go m data => Sys2Proof.Machine.execGo m data s
  | .awlInjection m addr point pc => Sys2Proof.Machine.execAwlInjection m addr point pc s
  | .awlRunTimeout => Sys2Proof.Machine.execAwlRunTimeout s
  | .incarnationRaise proc => Sys2Proof.Machine.execIncarnationRaise proc s
  | .powerOnReset => Sys2Proof.Machine.execPowerOnReset s
  | .coldReset by_ => Sys2Proof.Machine.execColdReset by_ s
  | .islandReset m => Sys2Proof.Machine.execIslandReset m s
  | .tapReset => Sys2Proof.Machine.execTapReset s
  | .imageVerify readErr => Sys2Proof.Machine.execImageVerify readErr s
  | .configRecordCheck => Sys2Proof.Machine.execConfigRecordCheck s
  | .configRecordApply cells images => Sys2Proof.Machine.execConfigRecordApply cells images s
  | .recoveryEnter => Sys2Proof.Machine.execRecoveryEnter s
  | .mbxGo m inst mbx => Sys2Proof.Machine.execMbxGo m inst mbx s
  | .mbxDone m inst mbx => Sys2Proof.Machine.execMbxDone m inst mbx s
  | .mbxResponse mbx => Sys2Proof.Machine.execMbxResponse mbx s
  | .hello mbx => Sys2Proof.Machine.execHello mbx s
  | .getInfo mbx => Sys2Proof.Machine.execGetInfo mbx s
  | .imageWrite mbx => Sys2Proof.Machine.execImageWrite mbx s
  | .imageCommit mbx => Sys2Proof.Machine.execImageCommit mbx s
  | .imageConfirm mbx => Sys2Proof.Machine.execImageConfirm mbx s
  | .fwpRestart mbx => Sys2Proof.Machine.execFwpRestart mbx s
  | .logRead mbx => Sys2Proof.Machine.execLogRead mbx s
  | .traceSet mbx => Sys2Proof.Machine.execTraceSet mbx s
  | .profileSet mbx => Sys2Proof.Machine.execProfileSet mbx s
  | .profileGet mbx => Sys2Proof.Machine.execProfileGet mbx s
  | .clickSet mbx => Sys2Proof.Machine.execClickSet mbx s
  | .slotSet mbx => Sys2Proof.Machine.execSlotSet mbx s
  | .queueCtrl mbx => Sys2Proof.Machine.execQueueCtrl mbx s
  | .s2Set mbx => Sys2Proof.Machine.execS2Set mbx s
  | .instanceCtrl mbx => Sys2Proof.Machine.execInstanceCtrl mbx s
  | .ptpStep mbx => Sys2Proof.Machine.execPtpStep mbx s
  | .linkStatus mbx => Sys2Proof.Machine.execLinkStatus mbx s
  | .faultRead mbx => Sys2Proof.Machine.execFaultRead mbx s
  | .modelInstall mbx => Sys2Proof.Machine.execModelInstall mbx s
  | .modelEvict mbx => Sys2Proof.Machine.execModelEvict mbx s
  | .modelPin mbx => Sys2Proof.Machine.execModelPin mbx s
  | .modelSwitch mbx => Sys2Proof.Machine.execModelSwitch mbx s
  | .modelStatus mbx => Sys2Proof.Machine.execModelStatus mbx s
  | .fwpProcessorRestart proc => Sys2Proof.Machine.execFwpProcessorRestart proc s
  | .fwpRestartDone proc pass => Sys2Proof.Machine.execFwpRestartDone proc pass s
  | .selftest m => Sys2Proof.Machine.execSelftest m s
  | .logEntryWrite proc kind level code args => Sys2Proof.Machine.execLogEntryWrite proc kind level code args s
  | .logTailWrite m proc v => Sys2Proof.Machine.execLogTailWrite m proc v s
  | .traceWindow proc => Sys2Proof.Machine.execTraceWindow proc s
  | .ethFrameReceive mac frame secOk pass => Sys2Proof.Machine.execEthFrameReceive mac frame secOk pass s
  | .hostChannelTx chan => Sys2Proof.Machine.execHostChannelTx chan s
  | .ethFrameTransmit port cls preempted => Sys2Proof.Machine.execEthFrameTransmit port cls preempted s
  | .gateIntervalExpire port => Sys2Proof.Machine.execGateIntervalExpire port s
  | .gclSwap m port => Sys2Proof.Machine.execGclSwap m port s
  | .gclSwapApply port => Sys2Proof.Machine.execGclSwapApply port s
  | .ethPortTxtsRead m port wide => Sys2Proof.Machine.execEthPortTxtsRead m port wide s
  | .ethLinkChange mac up => Sys2Proof.Machine.execEthLinkChange mac up s
  | .mdioGo m v => Sys2Proof.Machine.execMdioGo m v s
  | .ethTblGo m table index => Sys2Proof.Machine.execEthTblGo m table index s
  | .ptpClkIncWrite m inst clk v => Sys2Proof.Machine.execPtpClkIncWrite m inst clk v s
  | .ptpClkAdjWrite m inst clk v => Sys2Proof.Machine.execPtpClkAdjWrite m inst clk v s
  | .ptpSlewDone clk => Sys2Proof.Machine.execPtpSlewDone clk s
  | .ptpClkStepWrite m inst clk v => Sys2Proof.Machine.execPtpClkStepWrite m inst clk v s
  | .ptpStepApply clk => Sys2Proof.Machine.execPtpStepApply clk s
  | .accept m inst clk both => Sys2Proof.Machine.execAccept m inst clk both s
  | .reject m inst clk => Sys2Proof.Machine.execReject m inst clk s
  | .ptpClkSet m inst clk ns => Sys2Proof.Machine.execPtpClkSet m inst clk ns s
  | .ppsOutPulse => Sys2Proof.Machine.execPpsOutPulse s
  | .ppsInEdge level => Sys2Proof.Machine.execPpsInEdge level s
  | .canFrameReceive ctrl buf => Sys2Proof.Machine.execCanFrameReceive ctrl buf s
  | .canFrameTransmit ctrl outcome => Sys2Proof.Machine.execCanFrameTransmit ctrl outcome s
  | .canBusOff ctrl => Sys2Proof.Machine.execCanBusOff ctrl s
  | .canBusOffRecovery ctrl => Sys2Proof.Machine.execCanBusOffRecovery ctrl s
  | .recover m ctrl => Sys2Proof.Machine.execRecover m ctrl s
  | .ntscfFrameSend stream => Sys2Proof.Machine.execNtscfFrameSend stream s
  | .railDeparture rail mv => Sys2Proof.Machine.execRailDeparture rail mv s
  | .group3RailTimeout => Sys2Proof.Machine.execGroup3RailTimeout s
  | .admissionRequest kind unit => Sys2Proof.Machine.execAdmissionRequest kind unit s
  | .admissionGrant => Sys2Proof.Machine.execAdmissionGrant s
  | .admissionWaitLong => Sys2Proof.Machine.execAdmissionWaitLong s
  | .tokenReturn kind unit => Sys2Proof.Machine.execTokenReturn kind unit s
  | .profileReq m profile => Sys2Proof.Machine.execProfileReq m profile s
  | .profileDrainDone wfi => Sys2Proof.Machine.execProfileDrainDone wfi s
  | .profileWaitTimeout => Sys2Proof.Machine.execProfileWaitTimeout s
  | .voltageRampDone => Sys2Proof.Machine.execVoltageRampDone s
  | .clockSlewDone => Sys2Proof.Machine.execClockSlewDone s
  | .hbmRetrainDone stack => Sys2Proof.Machine.execHbmRetrainDone stack s
  | .panelWakeDone panel fail => Sys2Proof.Machine.execPanelWakeDone panel fail s
  | .profileDone => Sys2Proof.Machine.execProfileDone s
  | .pllLockLoss dom => Sys2Proof.Machine.execPllLockLoss dom s
  | .pllRelock dom => Sys2Proof.Machine.execPllRelock dom s
  | .thermalSample readings => Sys2Proof.Machine.execThermalSample readings s
  | .clockThrottleStep clk => Sys2Proof.Machine.execClockThrottleStep clk s
  | .clockRaiseStep clk => Sys2Proof.Machine.execClockRaiseStep clk s
  | .fuseProg m b readsBack => Sys2Proof.Machine.execFuseProg m b readsBack s
  | .keyUnwrap m slot => Sys2Proof.Machine.execKeyUnwrap m slot s
  | .keyClear m slot => Sys2Proof.Machine.execKeyClear m slot s
  | .secWinWrite m w v => Sys2Proof.Machine.execSecWinWrite m w v s
  | .pkClaim m => Sys2Proof.Machine.execPkClaim m s
  | .pkRelease m => Sys2Proof.Machine.execPkRelease m s
  | .ecdsaSignP256 m keysrc => Sys2Proof.Machine.execEcdsaSignP256 m keysrc s
  | .ecdsaSignP384 m keysrc => Sys2Proof.Machine.execEcdsaSignP384 m keysrc s
  | .ecdsaVerifyP256 m keysrc => Sys2Proof.Machine.execEcdsaVerifyP256 m keysrc s
  | .ecdsaVerifyP384 m keysrc => Sys2Proof.Machine.execEcdsaVerifyP384 m keysrc s
  | .ecdhP256 m keysrc => Sys2Proof.Machine.execEcdhP256 m keysrc s
  | .ecdhP384 m keysrc => Sys2Proof.Machine.execEcdhP384 m keysrc s
  | .keygenP256 m keysrc => Sys2Proof.Machine.execKeygenP256 m keysrc s
  | .keygenP384 m keysrc => Sys2Proof.Machine.execKeygenP384 m keysrc s
  | .x25519 m keysrc => Sys2Proof.Machine.execX25519 m keysrc s
  | .mlDsa65Verify m keysrc => Sys2Proof.Machine.execMlDsa65Verify m keysrc s
  | .mlKem768Decapsulation m keysrc => Sys2Proof.Machine.execMlKem768Decapsulation m keysrc s
  | .badOp m op => Sys2Proof.Machine.execBadOp m op s
  | .pkComplete => Sys2Proof.Machine.execPkComplete s
  | .newChal m => Sys2Proof.Machine.execNewChal m s
  | .submit m key r sg => Sys2Proof.Machine.execSubmit m key r sg s
  | .extest data => Sys2Proof.Machine.execExtest data s
  | .samplePreload data => Sys2Proof.Machine.execSamplePreload data s
  | .idcode => Sys2Proof.Machine.execIdcode s
  | .clamp => Sys2Proof.Machine.execClamp s
  | .highz => Sys2Proof.Machine.execHighz s
  | .extestPulse data => Sys2Proof.Machine.execExtestPulse data s
  | .extestTrain data => Sys2Proof.Machine.execExtestTrain data s
  | .ecidcode => Sys2Proof.Machine.execEcidcode s
  | .dbgAuth data => Sys2Proof.Machine.execDbgAuth data s
  | .dbgPair data => Sys2Proof.Machine.execDbgPair data s
  | .bypass op => Sys2Proof.Machine.execBypass op s
  | .uartTxByte m unit data => Sys2Proof.Machine.execUartTxByte m unit data s
  | .uartRxByte unit data => Sys2Proof.Machine.execUartRxByte unit data s
  | .i2cCmdGo m unit v => Sys2Proof.Machine.execI2cCmdGo m unit v s
  | .spiDataWrite m unit v => Sys2Proof.Machine.execSpiDataWrite m unit v s
  | .gpioEdge pin level => Sys2Proof.Machine.execGpioEdge pin level s
  | .xspiCmdGo m unit v => Sys2Proof.Machine.execXspiCmdGo m unit v s
  | .ufsDoorbell m v => Sys2Proof.Machine.execUfsDoorbell m v s
  | .ufsCompletion slot => Sys2Proof.Machine.execUfsCompletion slot s
  | .phySyncChange port sync deskew => Sys2Proof.Machine.execPhySyncChange port sync deskew s
  | .fabricLinkRetrainDone link => Sys2Proof.Machine.execFabricLinkRetrainDone link s
  | .safeXinReturn => Sys2Proof.Machine.execSafeXinReturn s
  | .railWithinTolerance rail mv => Sys2Proof.Machine.execRailWithinTolerance rail mv s
  | .pcieInboundCompletion port tag err ep data => Sys2Proof.Machine.execPcieInboundCompletion port tag err ep data s
  | .mdioAccessDone data => Sys2Proof.Machine.execMdioAccessDone data s
  | .i2cTransferDone unit nack data => Sys2Proof.Machine.execI2cTransferDone unit nack data s
  | .spiTransferDone unit v => Sys2Proof.Machine.execSpiTransferDone unit v s
  | .xspiCommandDone unit data => Sys2Proof.Machine.execXspiCommandDone unit data s

end Sys2Proof.Machine
end

