-- ==== Sys2Proof/WellFormed.lean ====
section
/-! DEFINITION. Which commands the interfaces of the ZH8 can carry: the lengths of the byte strings and lists that a command
brings. The other operands are bounded by their types. -/

namespace Sys2Proof

/-- n bytes from an address lie in one 4 KiB page (01_device.md R639). -/
def inOnePage (addr n : Nat) : Bool := decide (addr % 4096 + n ≤ 4096)

/-- A command that an interface can carry. -/
def Instr.wellFormed : Instr → Bool
  -- at most 4 voting rounds (15_safety.md R485)
  | .inputVote _ _ rounds => decide (rounds.length ≤ 4)
  -- a long packet counts its bytes in 16 bits (03_sensor_front_end.md R76)
  | .csi2LongPacket _ _ _ data _ => decide (data.length < 65536)
  -- words of a tile store of 1.5 MiB (05_cells.md R170)
  | .failureSubstitution _ _ _ bad => bad.all fun k => decide (k.toNat < 196608)
  -- one request lies in one page (01_device.md R639)
  | .memoryWrite _ _ addr data _ _ _ _ => decide (1 ≤ data.length) && inOnePage addr.toNat data.length
  | .memoryRead _ _ addr len _ _ _ => decide (1 ≤ len.val) && inOnePage addr.toNat len
  | .pcieOutboundRequest _ _ _ write addr len data _ => inOnePage addr.toNat (if write then data.length else len)
  | .fabricMemoryAccess _ _ write _ len data _ _ => decide ((if write then data.length else len.val) ≤ 4096)
  -- payloads of 512 bytes, reads of 4,096 (14_hosts_and_tenants.md R453)
  | .pcieInboundRequest _ _ _ _ kind addr len data _ _ =>
    if kind = 0 then inOnePage addr.toNat len else decide (data.length ≤ 512) && inOnePage addr.toNat data.length
  | .pcieInboundCompletion _ _ _ _ data => decide (data.length ≤ 4096)
  -- a header of 16 bytes and up to 2,048 of data (17_network_and_time.md R574)
  | .canFrameReceive _ buf => decide (16 ≤ buf.length) && decide (buf.length ≤ 16 + 2048)
  -- 56 sensors (18_power_clocks_reset.md R597)
  | .thermalSample readings => decide (readings.length = 56)
  -- 16 panels and 32 models (16_firmware_and_boot.md R530, R531)
  | .configRecordApply cells images => decide (cells.length = 16) && decide (images.length ≤ 32)
  -- buffers of the low-speed interfaces (20_package_and_test.md R627)
  | .i2cTransferDone _ _ data => decide (data.length ≤ 32)
  | .xspiCommandDone _ data => decide (data.length ≤ 256)
  -- the operands of these are bounded by their types
  | .registerWrite .. | .wideRegisterLowerRead .. | .heldAccessRelease | .ptpClockTick .. | .angleSample ..
  | .phaseInEdge .. | .lineAxisFrameStart .. | .lineAxisLineStart .. | .lineAxisFrameEnd .. | .axisLoad .. | .axisStall ..
  | .tackWrite .. | .tackArm .. | .tackDisarm .. | .tackFire .. | .actionDispatch | .evaluationResume | .phaseOutEdge ..
  | .phxEvtDataRead .. | .csi2FrameStart .. | .csi2FrameEnd .. | .csi2ShortPacket .. | .flowPacket .. | .bandStart ..
  | .lseUnitStart .. | .lseEnd .. | .lseLoop .. | .lseGet .. | .lseSkip .. | .lseAlu .. | .lseCvt .. | .lsePut ..
  | .lseAdda .. | .bandComplete .. | .streamStallTimeout .. | .slotRelease .. | .commit .. | .cancel .. | .restart ..
  | .shadowSlotWrite .. | .lseOccupancyWindow | .kernelWrite .. | .kernelLoadDone .. | .taskComplete .. | .save ..
  | .saveComplete .. | .restore .. | .restoreComplete .. | .abort .. | .ack .. | .syncException .. | .asyncException ..
  | .cellHalt .. | .watchdog .. | .cellHang .. | .controlCheckerFail .. | .errorCountClear | .substitutionComplete ..
  | .plannedSubstitution .. | .subReq .. | .maintStart .. | .maintDone .. | .salu .. | .smovi .. | .smovhi .. | .sld ..
  | .sst .. | .srd .. | .br .. | .jal .. | .jalr .. | .talu .. | .tmovi .. | .falu .. | .tcvt .. | .tcmp .. | .plog ..
  | .vote .. | .tld .. | .tst .. | .tlane .. | .tsamp .. | .tatom .. | .barSync .. | .barArrive .. | .barWait ..
  | .barrierPhaseComplete .. | .wait .. | .fence .. | .pwait .. | .pwaitReached .. | .pread .. | .notify .. | .sysNop ..
  | .sysEnd .. | .sysBreak .. | .sysTrap .. | .rdfl .. | .clrfl .. | .rdres .. | .wrres .. | .mma .. | .mmaw .. | .accrd ..
  | .accld .. | .tensorComplete .. | .laceInstruction .. | .laceListAccept .. | .laceDescriptorExecute ..
  | .laceSignalWrite .. | .laceListComplete .. | .tcopy .. | .trans .. | .fill .. | .movementComplete .. | .sort ..
  | .topk .. | .gather .. | .scatter .. | .attn .. | .nms .. | .longRoutineComplete .. | .slotReleaseWrite ..
  | .taskPlacement | .taskOutcome | .completionBufferDrain | .clickCfgWrite .. | .clickSwitch .. | .switchDrainDone ..
  | .switchDone .. | .unbind .. | .checkpointDigest .. | .digestCompare .. | .digestLate .. | .modelRepair ..
  | .modelInstallationDone .. | .epochAcqRead .. | .epochPublish .. | .epochAbandon .. | .cycleStart
  | .wavefrontExpansionDone .. | .planChosen | .heelSubmit .. | .heelCheckDone .. | .heelOutcome | .deadlineTack
  | .vehicleStateCommit .. | .goalSwap .. | .rasFeTailWrite .. | .rasNop .. | .beginPass .. | .draw .. | .endPass ..
  | .release .. | .waitMem .. | .waitMemPoll .. | .signalMem .. | .splat .. | .skipCmd .. | .flush .. | .rasEventRetry ..
  | .dpyPipeEnable .. | .dpyPipeDisable .. | .dpyFrameStart .. | .dpyLineDl .. | .dpyFlipLatch .. | .dpyPipeFlip ..
  | .dpyLockLoss .. | .sideGo .. | .sideDone .. | .hpdEvent .. | .scrubRead .. | .scrubLate .. | .fabricRequestIssue ..
  | .regulatorRelease .. | .requestComplete .. | .floorWindowEnd .. | .linkRetrain .. | .auditStart | .auditComplete
  | .auditLate | .fabMissClr .. | .clusterStateChange .. | .atuInv .. | .atuInvDone | .instanceReset .. | .instanceRemove ..
  | .instanceAdd .. | .resetDrainDone .. | .pcieLinkUp .. | .pcieLinkDown .. | .pcieFlr .. | .vfEnableChange ..
  | .pcieCompletionTimeout .. | .pciCfgGo .. | .hqmDoorbell .. | .hqmPost .. | .hqmPostRetry .. | .qcmdEnable ..
  | .qcmdDisable .. | .qcmdClearFault .. | .refclkLoss | .refclkRecover | .ptpRefinFail | .ptpRefinRecover | .safeXinFail
  | .lockstepMismatch .. | .pairRetestDone .. | .retest .. | .startupTest | .startupTestDone .. | .debugSplit ..
  | .faultEvent .. | .classDExit | .classSExit | .sExit .. | .aliveStart .. | .aliveEdge | .fcHoldExpire | .kick ..
  | .islandWatchdogExpire | .fwpHeartbeat .. | .heartbeatMiss .. | .swReport .. | .clrFirst .. | .alarmTailWrite ..
  | .awlUnlock .. | .awlUnlockTimeout | .go .. | .awlInjection .. | .awlRunTimeout | .incarnationRaise .. | .powerOnReset
  | .coldReset .. | .islandReset .. | .tapReset | .imageVerify .. | .configRecordCheck | .recoveryEnter | .mbxGo ..
  | .mbxDone .. | .mbxResponse .. | .hello .. | .getInfo .. | .imageWrite .. | .imageCommit .. | .imageConfirm ..
  | .fwpRestart .. | .logRead .. | .traceSet .. | .profileSet .. | .profileGet .. | .clickSet .. | .slotSet ..
  | .queueCtrl .. | .s2Set .. | .instanceCtrl .. | .ptpStep .. | .linkStatus .. | .faultRead .. | .modelInstall ..
  | .modelEvict .. | .modelPin .. | .modelSwitch .. | .modelStatus .. | .fwpProcessorRestart .. | .fwpRestartDone ..
  | .selftest .. | .logEntryWrite .. | .logTailWrite .. | .traceWindow .. | .ethFrameReceive .. | .hostChannelTx ..
  | .ethFrameTransmit .. | .gateIntervalExpire .. | .gclSwap .. | .gclSwapApply .. | .ethPortTxtsRead .. | .ethLinkChange ..
  | .mdioGo .. | .ethTblGo .. | .ptpClkIncWrite .. | .ptpClkAdjWrite .. | .ptpSlewDone .. | .ptpClkStepWrite ..
  | .ptpStepApply .. | .accept .. | .reject .. | .ptpClkSet .. | .ppsOutPulse | .ppsInEdge .. | .canFrameTransmit ..
  | .canBusOff .. | .canBusOffRecovery .. | .recover .. | .ntscfFrameSend .. | .railDeparture .. | .group3RailTimeout
  | .admissionRequest .. | .admissionGrant | .admissionWaitLong | .tokenReturn .. | .profileReq .. | .profileDrainDone ..
  | .profileWaitTimeout | .voltageRampDone | .clockSlewDone | .hbmRetrainDone .. | .panelWakeDone .. | .profileDone
  | .pllLockLoss .. | .pllRelock .. | .clockThrottleStep .. | .clockRaiseStep .. | .fuseProg .. | .keyUnwrap ..
  | .keyClear .. | .secWinWrite .. | .pkClaim .. | .pkRelease .. | .ecdsaSignP256 .. | .ecdsaSignP384 ..
  | .ecdsaVerifyP256 .. | .ecdsaVerifyP384 .. | .ecdhP256 .. | .ecdhP384 .. | .keygenP256 .. | .keygenP384 .. | .x25519 ..
  | .mlDsa65Verify .. | .mlKem768Decapsulation .. | .badOp .. | .pkComplete | .newChal .. | .submit .. | .extest ..
  | .samplePreload .. | .idcode | .clamp | .highz | .extestPulse .. | .extestTrain .. | .ecidcode | .dbgAuth ..
  | .dbgPair .. | .bypass .. | .uartTxByte .. | .uartRxByte .. | .i2cCmdGo .. | .spiDataWrite .. | .gpioEdge ..
  | .xspiCmdGo .. | .ufsDoorbell .. | .ufsCompletion .. | .phySyncChange .. | .fabricLinkRetrainDone .. | .safeXinReturn
  | .railWithinTolerance .. | .mdioAccessDone .. | .spiTransferDone .. => true

end Sys2Proof
end

