-- ==== Sys2Proof/Safety.lean ====
section
/-! DEFINITION. What the statements call a good state: stores in canonical form, and a queue of commands that the interfaces can
carry. No command ends in a fault or a refusal, so every run goes on. -/

namespace Sys2Proof.Machine

/-- The register file is in canonical form: addresses strictly rising, no word at its reset value. -/
def regsWf (l : List (Nat × Word)) : Bool := stWf regReset none l

/-- Memory and register file are in their canonical forms. -/
def State.canonical (s : State) : Bool := Memory.wf s.mem && regsWf s.regs

/-- Every command that waits is one that an interface can carry. -/
def State.queueOk (s : State) : Bool := s.pending.all Instr.wellFormed

/-- A command at a state answers a next state of which p holds. -/
def Runs (c : Instr) (s : State) (p : State → Prop) : Prop := ∃ t, exec c s = .next t ∧ p t

/-- Every register but those at the addresses listed reads the same in both states. -/
def RegsBut (l : List Nat) (s t : State) : Prop := ∀ a, a ∉ l → t.word a = s.word a

/-- Every byte of memory reads the same in both states. -/
def SameMemory (s t : State) : Prop := ∀ a, t.byte a = s.byte a

/-- Every byte of memory but the n from a on reads the same in both states. -/
def MemoryBut (a n : Nat) (s t : State) : Prop := ∀ b, b < a ∨ a + n ≤ b → t.byte b = s.byte b

/-- Group g of cell c may issue, and the word at its PC is w. -/
abbrev State.atWord (s : State) (c g w : Nat) : Prop := s.canIssue c g = true ∧ (s.cell c).fetch (s.group c g).pc = .ok w

/-- Nothing but group g of cell c and its sticky flags differs: no memory, no other register, no other cell, no other group. -/
def GroupOnly (c g : Nat) (s t : State) : Prop :=
  t.mem = s.mem ∧ RegsBut [rAflags c g] s t ∧ (∀ k, k ≠ c → t.cell k = s.cell k) ∧ ∀ h, h ≠ g → t.group c h = s.group c h

/-- The scalar registers of a group other than n are the same. -/
def ScalarsBut (n : Nat) (q r : CGroup) : Prop := ∀ k, k % 32 ≠ n % 32 → r.sreg k = q.sreg k

/-- The thread registers of a group other than n are the same. -/
def ThreadsBut (n : Nat) (q r : CGroup) : Prop := ∀ k, k ≠ n → r.treg k = q.treg k

/-- What left the block between two states. -/
def Emitted (l : List Output) (s t : State) : Prop := t.out = s.out ++ l

/-- A fault of a source and class was recorded between two states: its count has risen by one, and class D, S or L is ACTIVE. -/
def Faulted (src cls : Nat) (s t : State) : Prop :=
  t.word (rFlt (0x100 + src * 4)) = (s.word (rFlt (0x100 + src * 4)) + 1) % 2 ^ 32 ∧
  (cls = 3 → t.bit rFltState stD = true) ∧ (cls = 4 → t.bit rFltState stS = true) ∧ (cls = 5 → t.bit rFltState stL = true)

/-- The message in mailbox b is the next of its handler, which runs, and asks for this command of the phase. -/
abbrev State.mbxHead (s : State) (b id : Nat) : Prop :=
  s.mbxId b = id ∧ s.procUp (mbxHandler id) = true ∧ s.mbxNext (mbxHandler id) = some b ∧ mbxKnown s.phase id = true

/-- The permission a command needs is granted, or RECOVERY needs none. -/
abbrev State.mbxMay (s : State) (b : Nat) (perm : Option Nat) : Prop :=
  (match perm with | some k => s.mbxPerm b k || s.phase == 4 | none => true) = true

/-- The message in mailbox b is to be performed: next, of an accepted version, permitted. -/
abbrev State.mbxReady (s : State) (b id : Nat) (perm : Option Nat) : Prop :=
  s.mbxHead b id ∧ s.mbxVersionOk b id = true ∧ s.mbxMay b perm

/-- The message in mailbox b has been performed and holds its answer. -/
def Answered (b status : Nat) (payload : List Byte) (wait : MbxWait) (t : State) : Prop :=
  ∃ x, fmGet t.fwp.mbx b = some x ∧ x.performed = true ∧ x.status = status ∧ x.payload = payload ∧ x.wait = wait

end Sys2Proof.Machine
end

