-- ==== Sys2Proof/Certificates/Slice0/Obligations.lean ====
section
/-! DEFINITION. What the provers are to prove of the model. Each statement cites the rules of spec/ that it rests on in
OBLIGATIONS.json. Runs c s p says that the command c at state s answers a next state of which p holds. -/

open Sys2Proof Sys2Proof.Machine

/-- A step takes the command at the front of the queue and is exec of it on the state with the queue's rest; on an empty queue time
passes by one unit (the model's choice, log 7). -/
def Obligations.StepRunsTheFrontCommand : Prop :=
  (∀ (c : Instr) (rest : List Instr) (s : State), step { s with pending := c :: rest } = exec c { s with pending := rest }) ∧
  ∀ s : State, s.pending = [] → step s = .next { s with now := s.now + 1 }

/-- The spec gives every row of the table an effect in every state: no command, and no step, stops the machine. -/
def Obligations.EveryCommandAnswersANextState : Prop :=
  (∀ (c : Instr) (s : State), ∃ t, exec c s = .next t) ∧ ∀ s : State, ∃ t, step s = .next t

/-- The machine right after reset: an empty queue, every register word at the reset value that its table gives (R13), canonical
stores, and memory that reads 0 (the model's choice, log 2). -/
def Obligations.ResetStateIsCanonical : Prop :=
  State.reset.pending = [] ∧ State.reset.canonical = true ∧ State.reset.queueOk = true ∧
  (∀ a, State.reset.word a = (regReset a).toNat) ∧ ∀ a, State.reset.byte a = 0

/-- The canonical form of memory and of the register file is kept by every step of every state, whatever command is at the front. -/
def Obligations.EveryStepKeepsTheCanonicalForm : Prop :=
  ∀ s t : State, s.canonical = true → step s = .next t → t.canonical = true

/-- A fuse is one-time programmable: through every step of every state a blown bit stays blown. -/
def Obligations.BlownFusesStayBlown : Prop :=
  ∀ (s t : State) (k : Nat), bitOf s.sec.fuses k = true → step s = .next t → bitOf t.sec.fuses k = true

/-- A command leaves the rest of the queue alone and adds nothing to it; the model's time (log 7) does not decrease. -/
def Obligations.StepConsumesOneCommandAndTimeNeverRunsBack : Prop :=
  ∀ s t : State, step s = .next t →
    t.pending = s.pending.tail ∧ s.now ≤ t.now ∧ (s.queueOk = true → t.queueOk = true)

/-- Phase axes: events, loads, stalls and ticks. -/
def Obligations.AxisEventsMoveTheirAxis : Prop :=
  (∀ (s : State) (stream : Fin 64) (n : Fin 16) (e : AxisEv) (rest : List AxisEv), s.canonical = true → s.sfe.axisQ = e :: rest →
    e.stream = stream.val → e.kind = 3 → e.held = none → s.axesOf 1 0 stream.val = [n.val] →
    (e.val % 2 ^ 32 + 2 ^ 32 - s.axValue n % 2 ^ 32) % 2 ^ 32 < 2 ^ 31 →
    (e.val % 2 ^ 32 + 2 ^ 32 - s.axValue n % 2 ^ 32) % 2 ^ 32 ≤ s.axMax n →
    Runs (.angleSample stream) s fun t =>
      t.axValue n = (s.axValue n + (e.val % 2 ^ 32 + 2 ^ 32 - s.axValue n % 2 ^ 32) % 2 ^ 32) % 2 ^ 64 ∧ t.sfe.axisQ = rest ∧ t.mem = s.mem) ∧
  (∀ (s : State) (stream : Fin 64) (n : Fin 16) (e : AxisEv) (rest : List AxisEv), s.canonical = true → s.sfe.axisQ = e :: rest →
    e.stream = stream.val → e.kind = 0 → e.held = none → s.axesOf 2 0 stream.val = [n.val] →
    Runs (.lineAxisFrameStart stream) s fun t =>
      t.axValue n = 2 ^ 20 * (s.axValue n / 2 ^ 20 + 1) % 2 ^ 64 ∧ t.sfe.axisQ = rest ∧ t.mem = s.mem) ∧
  (∀ (s : State) (stream : Fin 64) (n : Fin 16) (e : AxisEv) (rest : List AxisEv), s.canonical = true → s.sfe.axisQ = e :: rest →
    e.stream = stream.val → e.kind = 1 → e.held = none → s.axesOf 2 0 stream.val = [n.val] → e.val ≤ 0xFFFFF →
    s.axValue n % 2 ^ 20 < e.val →
    Runs (.lineAxisLineStart stream) s fun t =>
      t.axValue n = 2 ^ 20 * (s.axValue n / 2 ^ 20) + e.val ∧ t.sfe.axisQ = rest ∧ t.mem = s.mem) ∧
  (∀ (s : State) (stream : Fin 64) (n : Fin 16) (e : AxisEv) (rest : List AxisEv), s.canonical = true → s.sfe.axisQ = e :: rest →
    e.stream = stream.val → e.kind = 2 → e.held = none → s.axesOf 2 0 stream.val = [n.val] → (s.axis n).frameOpen = true →
    Runs (.lineAxisFrameEnd stream) s fun t =>
      t.axValue n = 2 ^ 20 * (s.axValue n / 2 ^ 20) + min (s.axValue n % 2 ^ 20 + 1) 0xFFFFF ∧ t.sfe.axisQ = rest ∧ t.mem = s.mem) ∧
  (∀ (s : State) (pin : Fin 8) (level : Bool), s.canonical = true → s.bit (rPhx (0x440 + pin * 4)) 0 = true →
    s.bit (rPhx (0x440 + pin * 4)) 16 = !level → (∀ n < 16, s.axLive n = false) →
    Runs (.phaseInEdge pin level) s fun t =>
      t.bit (rPhx (0x440 + pin * 4)) 16 = level ∧ t.word64 (rPhx (0x480 + pin * 8)) = s.recordTime.1 ∧ t.mem = s.mem) ∧
  (∀ (s : State) (m : Master) (axis : Fin 16) (v : BitVec 64), s.canonical = true → s.sysWriter m = true → s.axType axis ≠ 0 →
    s.bit (rAxis axis 0) 3 = true →
    Runs (.axisLoad m none axis v) s fun t => t.axValue axis = v.toNat ∧ t.resp = ⟨false, false, []⟩ ∧ t.mem = s.mem) ∧
  (∀ (s : State) (axis : Fin 16), s.axEn axis = true → s.fld (rAxis axis 0xC) 15 0 ≠ 0 → s.axStalled axis = false →
    s.bit (rAxis axis 0xC) 16 = false →
    exec (.axisStall axis) s = .next (((((s.timeTo ((s.axis axis).lastUpd + 4000 * s.fld (rAxis axis 0xC) 15 0)).setBit
      (rAxis axis 0x20) 0 true).setBit (rAxis axis 0x20) 1 true).orWord rPhxIrq 0x20).fault 0x1B 1 (mPhx 0) axis 0)) ∧
  (∀ (s : State) (clk : Fin 4), s.ptpOn clk = true → (s.pclk clk).incPend = none → (s.pclk clk).slewOn = false →
    exec (.ptpClockTick clk) s = .next ((s.setPtpQ clk (s.ptpQ clk + s.word64 (rPtpClk clk 8))).timeAxes clk false))

/-- Writes of tack entries by a system writer. -/
def Obligations.TackWritesAndArming : Prop :=
  (∀ (s : State) (m : Master) (tack : Fin 4096) (v : BitVec 64), s.canonical = true → s.sysWriter m = true →
    s.bit (rTack tack 0x10) 6 = false → s.bit (rTack tack 0x10) 0 = false →
    Runs (.tackWrite m none tack 0 v) s fun t =>
      t.tkTarget tack = v.toNat ∧ t.resp = ⟨false, false, []⟩ ∧ t.mem = s.mem ∧ RegsBut [rTack tack 0, rTack tack 4] s t) ∧
  (∀ (s : State) (m : Master) (tack : Fin 4096) (v : BitVec 64), s.sysWriter m = true →
    s.bit (rTack tack 0x10) 0 = true → v.toNat ≠ s.tkTarget tack →
    exec (.tackWrite m none tack 0 v) s =
      .next (((s.setBit (rTack tack 0x28) 8 true).bump (rPhx 0x28)).ignoreWr m (rTack tack 0))) ∧
  (∀ (s : State) (m : Master) (tack : Fin 4096) (cfg : BitVec 32), s.canonical = true → s.sysWriter m = true →
    s.bit (rTack tack 0x10) 0 = false → s.bit (rTack tack 0x10) 6 = false → s.axType (bitsOf cfg.toNat 11 8) ≠ 3 →
    (s.setWord (rTack tack 0x10) (cfg.toNat &&& 0x7FFF7C)).armBad tack ((cfg.toNat ||| 1) &&& 0x7FFF7D) = false →
    Runs (.tackArm m none tack cfg) s fun t =>
      t.bit (rTack tack 0x10) 0 = true ∧ (fmGet t.phx.tk tack).isSome = true ∧ t.resp = ⟨false, false, []⟩ ∧ t.mem = s.mem) ∧
  (∀ (s : State) (m : Master) (tack : Fin 4096) (cfg : BitVec 32), s.canonical = true → s.sysWriter m = true →
    s.bit (rTack tack 0x10) 0 = false → s.bit (rTack tack 0x10) 6 = false → s.axType (bitsOf cfg.toNat 11 8) ≠ 3 →
    s.axEn (bitsOf cfg.toNat 11 8) = false →
    Runs (.tackArm m none tack cfg) s fun t =>
      t.bit (rTack tack 0x10) 0 = false ∧ t.bit (rTack tack 0x28) 7 = true ∧ t.phx.tk = s.phx.tk ∧ t.mem = s.mem) ∧
  (∀ (s : State) (m : Master) (tack : Fin 4096), s.canonical = true → s.sysWriter m = true → s.bit (rTack tack 0x10) 0 = true →
    s.bit (rTack tack 0x10) 6 = false → s.word (rTack tack 0x10) &&& 0x7FFF7F = s.word (rTack tack 0x10) →
    s.axType (s.tkAxis tack) = 3 →
    Runs (.tackDisarm m none tack (BitVec.ofNat 32 (s.word (rTack tack 0x10)))) s fun t =>
      t.bit (rTack tack 0x10) 0 = false ∧ t.phx.tk = fmDel s.phx.tk tack ∧ t.resp = ⟨false, false, []⟩ ∧ t.mem = s.mem)

/-- The only armed tack's firing, dispatch, pin edges and events of the phase engine. -/
def Obligations.TacksFireAndActionsAreDispatched : Prop :=
  (∀ (s : State) (tack : Fin 4096) (k : TackS), s.canonical = true → s.phx.tk = [(tack.val, k)] → s.bit (rPhx 0) 0 = true →
    s.axEn (s.tkAxis tack) = true → s.axType (s.tkAxis tack) = 1 → s.axStalled (s.tkAxis tack) = false → s.phx.pausedAt = none →
    reached (s.axValue (s.tkAxis tack)) (s.tkTarget tack) = true → s.tkStep tack = 0 → s.fld (rTack tack 0x10) 15 12 = 0 →
    s.fld (rTack tack 0x10) 4 2 = 0 → k.lateArm = false → k.disc = false →
    Runs (.tackFire tack 0) s fun t =>
      t.bit (rTack tack 0x28) 0 = true ∧ t.word (rTack tack 0x38) = (s.word (rTack tack 0x38) + 1) % 2 ^ 32 ∧
      t.bit (rTack tack 0x10) 0 = false ∧ t.phx.tk = [] ∧ t.mem = s.mem) ∧
  (∀ (s : State) (a : PhxAct), s.phx.queue = [a] → s.actHeld a = false →
    exec .actionDispatch s =
      .next ((({ s with phx.queue := [] } : State).setFld (rPhx 4) 24 16 0).doAction a)) ∧
  (∀ (s : State) (t0 : Nat), s.canonical = true → s.phx.pausedAt = some t0 → s.phx.queue.length < 256 →
    Runs .evaluationResume s fun t =>
      t.phx.pausedAt = none ∧ t.bit (rPhx 4) 1 = false ∧
      t.word (rPhx 0x1C) = (s.word (rPhx 0x1C) + (s.now - t0) / 32) % 2 ^ 32 ∧ t.mem = s.mem) ∧
  (∀ (s : State) (pin : Fin 16) (e : PinEdge), s.canonical = true → s.phx.edges = [e] → e.pin = pin.val → e.dom = 4 →
    s.bit (rPhx (0x400 + pin * 4)) 0 = true →
    Runs (.phaseOutEdge pin) s fun t =>
      t.bit (rPhx (0x400 + pin * 4)) 16 = e.level ∧ t.phx.edges = [] ∧ t.now = max s.now (e.time * 4) ∧
      Emitted [.pin (ballPhase + pin) (xor e.level (s.bit (rPhx (0x400 + pin * 4)) 2))] s t ∧ t.mem = s.mem) ∧
  (∀ (s : State) (m : Master) (v : Nat) (r : List Nat), sysReader m = true → s.phx.evt = v :: r →
    exec (.phxEvtDataRead m none) s =
      .next ((({ s with phx.evt := r } : State).setWord64 (rPhx 0x10) (r.headD 0)).respOk (leBytes 8 v))) ∧
  (∀ (s : State) (m : Master) (i : Fin 64), exec (.phxEvtDataRead m (some i)) s = .next (s.refuse m 1 (rPhx 0x10)))

/-- Camera packets and flow payloads. -/
def Obligations.SensorPacketsReachTheirStream : Prop :=
  (∀ (s : State) (port vc : Fin 16) (frame : BitVec 16) (n : Nat), s.portReceives port = true → s.camStream port vc = some n →
    s.stMember n = false → (s.stream n).frameOpen = false →
    Runs (.csi2FrameStart port vc frame 0) s fun t =>
      (t.stream n).frameOpen = true ∧ (t.stream n).frameNo = frame.toNat ∧ (t.stream n).frames = (s.stream n).frames + 1 ∧
      (t.stream n).lines = 0 ∧ t.sfe.axisQ = s.sfe.axisQ ++ [AxisEv.mk n 0 0 none] ∧ t.regs = s.regs ∧ t.mem = s.mem) ∧
  (∀ (s : State) (port vc : Fin 16) (n : Nat), s.portReceives port = true → s.camStream port vc = some n →
    s.stMember n = false → (s.stream n).frameOpen = true →
    Runs (.csi2FrameEnd port vc 0) s fun t =>
      (t.stream n).frameOpen = false ∧
      t.sfe.axisQ = s.sfe.axisQ ++ [AxisEv.mk n 2 0 ((s.stream n).bands.getLast?.map fun b => b.seq)] ∧ t.regs = s.regs ∧ t.mem = s.mem) ∧
  (∀ (s : State) (port vc : Fin 16) (dt : BitVec 6) (data : List Byte) (n : Nat), s.portReceives port = true →
    s.camStream port vc = some n → (s.stream n).frameOpen = true → dt.toNat = s.fld (rStream n 8) 13 8 →
    (dt = 0x12 → s.bit (rStream n 8) 14 = false) →
    exec (.csi2LongPacket port vc dt data 0) s = .next (s.imageLine n data false)) ∧
  (∀ (s : State) (port vc : Fin 16) (dt : BitVec 6) (data : List Byte), s.portReceives port = true → s.camStream port vc = none →
    exec (.csi2LongPacket port vc dt data 0) s = .next ((s.bump (rSfePort port 12)).sfeCase 4 port (mStream 0))) ∧
  (∀ (s : State) (port vc : Fin 16), s.canonical = true → s.portReceives port = true →
    Runs (.csi2ShortPacket port vc 2 0) s (fun t =>
      t.word (rSfe (0x204 + port * 8)) = (s.word (rSfe (0x204 + port * 8)) + 1) % 2 ^ 32 ∧
      RegsBut [rSfe (0x204 + port * 8)] s t ∧ t.mem = s.mem) ∧
    Runs (.csi2ShortPacket port vc 0xF 0) s (fun t =>
      t.word (rSfe (0x200 + port * 8)) = (s.word (rSfe (0x200 + port * 8)) + 1) % 2 ^ 32 ∧
      RegsBut [rSfe (0x200 + port * 8)] s t ∧ t.mem = s.mem)) ∧
  (∀ (s : State) (flow n : Fin 64) (l : List Byte) (rest : List (Nat × List Byte)) (raw : Nat), s.sfe.flowQ = (flow.val, l) :: rest →
    ((List.range 64).find? fun k => s.stKind k = 2 && s.fld (rStream k 8) 5 0 = flow.val) = some n.val →
    azimuth (s.word (rStream n 8)) l = some raw → raw < s.word (rStream n 0xC) →
    exec (.flowPacket flow false) s =
      .next (({ s with sfe.flowQ := rest } : State).flowIn n (2 ^ 32 * raw / s.word (rStream n 0xC) % 2 ^ 32) l))

/-- The line-shift engine, instruction by instruction. -/
def Obligations.LineShiftEngineRunsItsProgram : Prop :=
  (∀ (s : State) (n : Fin 64) (b : SfeBand) (rest : List SfeBand) (u : List Byte) (bad : Bool) (us : List (List Byte × Bool)),
    (s.stream n).bands = b :: rest → b.units = (u, bad) :: us → b.started = true → (s.stream n).ctx.running = false →
    Runs (.lseUnitStart n) s fun t =>
      (t.stream n).ctx.unit = u ∧ (t.stream n).ctx.bad = bad ∧ (t.stream n).ctx.cursor = 0 ∧ (t.stream n).ctx.pc = 0 ∧
      (t.stream n).ctx.running = true ∧ (t.stream n).bands = { b with units := us } :: rest ∧ t.regs = s.regs ∧ t.mem = s.mem) ∧
  (∀ (s : State) (n : Fin 64) (w : Nat), s.lseWord n 0 = some w →
    Runs (.lseEnd n) s fun t =>
      (t.stream n).ctx.running = false ∧ (t.stream n).ctx.loops = [] ∧
      (s.bit (rActive n 12) 0 = true → (t.stream n).ctx.a = (s.stream n).ctx.a) ∧
      (s.bit (rActive n 12) 0 = false → (t.stream n).ctx.a =
        (List.range 4).map fun i => ((s.stream n).ctx.aUnit.getD i 0 + s.word (rActive n (4 + i))) % 2 ^ 32) ∧
      t.regs = s.regs ∧ t.mem = s.mem) ∧
  (∀ (s : State) (n : Fin 64) (w : Nat), s.lseWord n 1 = some w →
    Runs (.lseLoop n) s fun t =>
      (t.stream n).ctx.pc = (s.stream n).ctx.pc + 1 ∧
      (t.stream n).ctx.loops = LseLoop.mk (bitsOf w 26 25) (bitsOf w 24 12 + 1) ((s.stream n).ctx.pc + 1)
        ((s.stream n).ctx.pc + 1 + bitsOf w 11 6) :: (s.stream n).ctx.loops ∧ t.regs = s.regs ∧ t.mem = s.mem) ∧
  (∀ (s : State) (n : Fin 64) (w : Nat), s.lseWord n 2 = some w →
    Runs (.lseGet n) s fun t =>
      (t.stream n).ctx.x = ((s.stream n).ctx.get (bitsOf w 26 22 + 1) (bitsOf w 21 17 + 1) (bitOf w 16)).x ∧
      (t.stream n).ctx.cursor = (s.stream n).ctx.cursor + ((bitsOf w 26 22 + 1) * (bitsOf w 21 17 + 1) : Nat) ∧
      t.regs = s.regs ∧ t.mem = s.mem) ∧
  (∀ (s : State) (n : Fin 64) (w : Nat), s.lseWord n 3 = some w →
    Runs (.lseSkip n) s fun t =>
      (t.stream n).ctx.cursor = (s.stream n).ctx.cursor + toSigned 24 w ∧ (t.stream n).ctx.x = (s.stream n).ctx.x ∧
      t.regs = s.regs ∧ t.mem = s.mem) ∧
  (∀ (s : State) (n : Fin 64) (w : Nat), s.lseWord n 4 = some w →
    Runs (.lseAlu n) s fun t =>
      (t.stream n).ctx.x = ((s.stream n).ctx.x.map fun v => lseAlu (bitsOf w 26 24) v (toSigned 24 w)) ∧
      t.sfe.cycles = modAt s.sfe.cycles (n / 16) (· + 1) ∧ t.regs = s.regs ∧ t.mem = s.mem) ∧
  (∀ (s : State) (n : Fin 64) (w : Nat), s.lseWord n 5 = some w →
    Runs (.lseCvt n) s fun t =>
      (t.stream n).ctx.x = ((s.stream n).ctx.x.map fun v =>
        lseCvt (bitsOf w 26 23) (bitsOf w 22 21) v (bitOf w 20) (toSigned 8 (bitsOf w 19 12))) ∧ t.regs = s.regs ∧ t.mem = s.mem) ∧
  (∀ (s : State) (n : Fin 64) (w v : Nat) (xs : List Nat), s.lseWord n 6 = some w → bitsOf w 26 22 = 0 →
    (s.stream n).ctx.x = v :: xs → (s.stream n).stalled = none → s.noCredit n = false →
    (s.stream n).ctx.a.getD (bitsOf w 19 18) 0 % 2 ^ 32 + 2 ^ bitsOf w 21 20 ≤ s.word64 (rSlot n (s.curSlot n) 8) →
    Runs (.lsePut n) s fun t =>
      t.mem = (s.dmaWrite (mStream n) (s.word64 (rSlot n (s.curSlot n) 0) + (s.stream n).ctx.a.getD (bitsOf w 19 18) 0 % 2 ^ 32)
        (leBytes (2 ^ bitsOf w 21 20) v) (s.stream n).ctx.bad).1.mem) ∧
  (∀ (s : State) (n : Fin 64) (w : Nat), s.lseWord n 7 = some w →
    Runs (.lseAdda n) s fun t =>
      (t.stream n).ctx.a = (modAt (s.stream n).ctx.a (bitsOf w 26 25) fun v => ofSigned 32 ((v : Int) + toSigned 25 w)) ∧
      (t.stream n).ctx.x = (s.stream n).ctx.x ∧ t.regs = s.regs ∧ t.mem = s.mem)

/-- Bands, slots and the control registers of a sensor stream. -/
def Obligations.BandsSlotsAndStreamControl : Prop :=
  (∀ (s : State) (n : Fin 64) (b : SfeBand) (rest : List SfeBand), s.canonical = true → (s.stream n).bands = b :: rest →
    b.started = false → b.units ≠ [] → s.slotOf n (b.seq % s.stSlots n) = 1 → s.bit (rStream n 0x18) 1 = false →
    (s.stream n).embWait = [] →
    Runs (.bandStart n) s fun t =>
      t.slotOf n (b.seq % s.stSlots n) = 3 ∧ t.bit (rStream n 0x18) 0 = true ∧
      (t.stream n).bands = { b with started := true } :: rest ∧ t.mem = s.mem) ∧
  (∀ (s : State) (n : Fin 64) (b : SfeBand) (rest : List SfeBand), s.canonical = true → (s.stream n).bands = b :: rest →
    b.started = true → b.closed = true → b.units = [] → (s.stream n).ctx.running = false → (s.stream n).stalled = none →
    Runs (.bandComplete n) s fun t => (t.stream n).bands = rest ∧ t.word (rStream n 0x20) = b.seq % 2 ^ 32) ∧
  (∀ (s : State) (n : Fin 64) (t0 : Nat), (s.stream n).stalled = some t0 →
    exec (.streamStallTimeout n) s = .next ((s.timeTo (t0 + 4 * s.word (rStream n 0x10) + 1)).dropBand n 0)) ∧
  (∀ (s : State) (m : Master) (inst : Option (Fin 64)) (n : Fin 64) (k : Fin 4), s.canonical = true → s.consumer m inst n = true →
    s.slotOf n k = 2 →
    Runs (.slotRelease m inst n (BitVec.ofNat 32 (2 ^ k.val))) s fun t =>
      t.slotOf n k = 1 ∧ t.resp = ⟨false, false, []⟩ ∧ t.mem = s.mem ∧ RegsBut [rStream n 0x38] s t) ∧
  (∀ (s : State) (m : Master) (inst : Option (Fin 64)) (n : Fin 64), s.canonical = true → s.consumer m inst n = true →
    s.bit (rStream n 0x18) 1 = false → lseValid (s.lseProg (rShadow n 0)) = true →
    Runs (.commit m inst n) s fun t =>
      t.bit (rStream n 0x18) 1 = true ∧ t.bit (rStream n 0x14) 0 = true ∧ t.resp = ⟨false, false, []⟩ ∧ t.mem = s.mem) ∧
  (∀ (s : State) (m : Master) (inst : Option (Fin 64)) (n : Fin 64), s.canonical = true → s.consumer m inst n = true →
    Runs (.cancel m inst n) s fun t =>
      t.bit (rStream n 0x18) 1 = false ∧ t.bit (rStream n 0x14) 0 = false ∧ t.resp = ⟨false, false, []⟩ ∧ t.mem = s.mem) ∧
  (∀ (s : State) (m : Master) (n : Fin 64), s.canonical = true → s.sysWriter m = true → (s.stream n).bands = [] →
    Runs (.restart m none n) s fun t =>
      t.fld (rStream n 0x18) 15 8 = (s.fld (rStream n 0x18) 15 8 + 1) % 256 ∧ (t.stream n).seq = 0 ∧
      t.resp = ⟨false, false, []⟩ ∧ t.mem = s.mem) ∧
  (∀ (s : State) (m : Master) (n w : Fin 64) (v : BitVec 32), s.canonical = true → s.sysWriter m = true →
    s.bit (rStream n 0x18) 1 = false →
    Runs (.shadowSlotWrite m none n w v) s fun t =>
      t.word (rShadow n w) = v.toNat ∧ t.resp = ⟨false, false, []⟩ ∧ t.mem = s.mem ∧ RegsBut [rShadow n w] s t) ∧
  (∀ (s : State) (c0 c1 c2 c3 : Nat), s.canonical = true → s.sfe.cycles = [c0, c1, c2, c3] →
    Runs .lseOccupancyWindow s fun t =>
      t.fld (rSfe 0x10) 9 0 = min (c0 / 800) 1000 ∧ t.fld (rSfe 0x14) 9 0 = min (c1 / 800) 1000 ∧
      t.fld (rSfe 0x18) 9 0 = min (c2 / 800) 1000 ∧ t.fld (rSfe 0x1C) 9 0 = min (c3 / 800) 1000 ∧
      t.sfe.cycles = [0, 0, 0, 0] ∧ t.mem = s.mem)

/-- R5: narrower and misaligned accesses of the register range. faultAt 0x26 1 is the class N record of the collector (R638). -/
def Obligations.RegisterAccessesAreNaturallyAligned : Prop :=
  (∀ (s : State) (m : Master) (inst : Option (Fin 64)) (k o : Nat) (size : Fin 4) (v : BitVec 64), k < 25 → o < 0x100000 →
    (size.val < 2 ∨ o % 2 ^ size.val ≠ 0) →
    ∃ t, exec (.registerWrite m inst (BitVec.ofNat 52 (blkBase k + o)) size v) s = .next t ∧
      t = (s.faultAt 0x26 1 m 0 0 2 (blkBase k + o)).respErr ∧ t.resp.err = true) ∧
  (∀ (s : State) (m : Master) (inst : Option (Fin 64)) (k o : Nat), k < 25 → o < 0x100000 → o % 4 ≠ 0 →
    ∃ t, exec (.wideRegisterLowerRead m inst (BitVec.ofNat 52 (blkBase k + o))) s = .next t ∧
      t = (s.faultAt 0x26 1 m 0 0 1 (blkBase k + o)).respErr ∧ t.resp.err = true) ∧
  (∀ (s : State) (m : Master) (k o n : Nat) (inc : BitVec 8), k < 25 → o < 0x100000 → 0 < n → n < 4 → o % 4096 + n ≤ 4096 →
    s.incarnOf m = none →
    ∃ t, exec (.fabricMemoryAccess m none false (BitVec.ofNat 64 (blkBase k + o)) (Fin.ofNat 4097 n) [] false inc) s = .next t ∧
      t = (s.faultAt 0x26 1 m 0 0 1 (blkBase k + o)).respErr ∧ t.resp.err = true)

/-- R8: offsets to which no register is assigned. faultAt 0x26 1 is the class N record of the collector (R638). -/
def Obligations.UnassignedOffsetsReadZeroAndIgnoreWrites : Prop :=
  ∀ (s : State) (m : Master) (inst : Option (Fin 64)) (k o : Nat), k < 25 → o < 0x100000 → o % 4 = 0 →
    findReg (blockRegs k) o = none →
    (s.mayRead m inst k o = true →
      ∃ t, exec (.wideRegisterLowerRead m inst (BitVec.ofNat 52 (blkBase k + o))) s = .next t ∧
        t = (s.faultAt 0x26 1 m 0 0 1 (blkBase k + o)).respOk [0, 0, 0, 0] ∧ t.resp = ⟨false, false, [0, 0, 0, 0]⟩) ∧
    ∀ v : BitVec 64, s.mayWrite m inst k o = true →
      ∃ t, exec (.registerWrite m inst (BitVec.ofNat 52 (blkBase k + o)) 2 v) s = .next t ∧
        t = (s.faultAt 0x26 1 m 0 0 2 (blkBase k + o)).respOk [] ∧ t.resp = ⟨false, false, []⟩

/-- Register writes by field access type, refusals, and the halves of 64-bit registers. -/
def Obligations.RegisterFieldsFollowTheirAccessTypes : Prop :=
  (∀ (old v hi lo r k : Nat), lo ≤ hi →
    (lo ≤ k ∧ k ≤ hi →
      bitOf (fldsWrite old v [⟨hi, lo, .rw, r⟩]) k = bitOf v k ∧ bitOf (fldsWrite old v [⟨hi, lo, .wo, r⟩]) k = bitOf v k ∧
      bitOf (fldsWrite old v [⟨hi, lo, .w1c, r⟩]) k = (bitOf old k && !bitOf v k) ∧
      bitOf (fldsWrite old v [⟨hi, lo, .w1s, r⟩]) k = (bitOf old k || bitOf v k) ∧
      bitOf (fldsWrite old v [⟨hi, lo, .ro, r⟩]) k = bitOf old k) ∧
    (k < lo ∨ hi < k → ∀ a, bitOf (fldsWrite old v [⟨hi, lo, a, r⟩]) k = bitOf old k)) ∧
  (∀ (s : State) (m : Master) (inst : Option (Fin 64)) (k o i j : Nat) (v : BitVec 64) (d : RegDesc), s.canonical = true →
    k < 25 → k ≠ bPTP → k ≠ bPER → o < 0x100000 → o % 4 = 0 → findReg (blockRegs k) o = some (d, i, j, 0) → d.bits = 32 →
    d.area = false → (d.flds.all fun f => decide (f.acc ≠ .shd)) = true → s.mayWrite m inst k o = true →
    s.wrHook m inst k o (v.toNat % 2 ^ 32) = none →
    Runs (.registerWrite m inst (BitVec.ofNat 52 (blkBase k + o)) 2 v) s fun t =>
      t.word (blkBase k + o) = fldsWrite (s.word (blkBase k + o)) (v.toNat % 2 ^ 32) (wordFlds 0 d.flds) % 2 ^ 32 ∧
      t.resp = ⟨false, false, []⟩ ∧ t.mem = s.mem ∧ RegsBut [blkBase k + o] s t) ∧
  (∀ (s : State) (m : Master) (inst : Option (Fin 64)) (k o : Nat) (v : BitVec 64), k < 25 → o < 0x100000 → o % 4 = 0 →
    s.mayWrite m inst k o = false →
    exec (.registerWrite m inst (BitVec.ofNat 52 (blkBase k + o)) 2 v) s = .next (s.refuse m 2 (blkBase k + o))) ∧
  (∀ (s : State) (m : Master) (inst : Option (Fin 64)) (k o i j r : Nat) (v : BitVec 64) (d : RegDesc), s.canonical = true →
    k < 25 → k ≠ bPTP → k ≠ bPER → o + 4 < 0x100000 → o % 8 = 0 → findReg (blockRegs k) o = some (d, i, j, 0) → d.bits = 64 →
    d.area = false → d.flds = [⟨63, 0, .rw, r⟩] → s.mayWrite m inst k o = true →
    Runs (.registerWrite m inst (BitVec.ofNat 52 (blkBase k + o)) 2 v) s fun t =>
      fmGet t.holds (holdKey m (blkBase k + o)) = some (BitVec.ofNat 32 v.toNat) ∧ t.regs = s.regs ∧ t.mem = s.mem) ∧
  (∀ (s : State) (m : Master) (inst : Option (Fin 64)) (k o i j r : Nat) (u : Word) (v : BitVec 64) (d : RegDesc),
    s.canonical = true → k < 25 → k ≠ bPTP → k ≠ bPER → o + 4 < 0x100000 → o % 8 = 0 →
    findReg (blockRegs k) (o + 4) = some (d, i, j, 4) → d.bits = 64 → d.area = false → d.flds = [⟨63, 0, .rw, r⟩] →
    s.mayWrite m inst k (o + 4) = true → fmGet s.holds (holdKey m (blkBase k + o)) = some u →
    ({ s with holds := fmDelRange s.holds (holdKey m (blkBase k + o)) (holdKey m (blkBase k + o + 4)) } : State).wrHook m inst k o
      (u.toNat + 2 ^ 32 * (v.toNat % 2 ^ 32)) = none →
    Runs (.registerWrite m inst (BitVec.ofNat 52 (blkBase k + (o + 4))) 2 v) s fun t =>
      t.word64 (blkBase k + o) = u.toNat + 2 ^ 32 * (v.toNat % 2 ^ 32) ∧ t.resp = ⟨false, false, []⟩ ∧ t.mem = s.mem ∧
      RegsBut [blkBase k + o, blkBase k + o + 4] s t) ∧
  (∀ (s : State) (m : Master) (inst : Option (Fin 64)) (k o i j : Nat) (d : RegDesc), k < 25 → k ≠ bETH → o + 4 < 0x100000 →
    o % 8 = 0 → findReg (blockRegs k) o = some (d, i, j, 0) → d.bits = 64 → d.area = false →
    (d.flds.all fun f => decide (f.acc ≠ .wo)) = true → s.mayRead m inst k o = true → s.rdHook m inst k o = none →
    Runs (.wideRegisterLowerRead m inst (BitVec.ofNat 52 (blkBase k + o))) s fun t =>
      t.resp = ⟨false, false, leBytes 4 (s.word (blkBase k + o))⟩ ∧ t.regs = s.regs ∧ t.mem = s.mem ∧
      fmGet t.caps (holdKey m (blkBase k + o + 4)) = some (BitVec.ofNat 32 (s.word (blkBase k + o + 4)))) ∧
  ∀ (s : State) (m : Master) (inst : Option (Fin 64)) (k o i j : Nat) (u : Word) (d : RegDesc), k < 25 → k ≠ bETH →
    o < 0x100000 → o % 8 = 4 → findReg (blockRegs k) o = some (d, i, j, 4) → d.bits = 64 → d.area = false →
    s.mayRead m inst k o = true → fmGet s.caps (holdKey m (blkBase k + o)) = some u →
    Runs (.wideRegisterLowerRead m inst (BitVec.ofNat 52 (blkBase k + o))) s fun t =>
      t.resp = ⟨false, false, leBytes 4 u.toNat⟩ ∧ t.caps = fmDel s.caps (holdKey m (blkBase k + o)) ∧ t.regs = s.regs ∧
      t.mem = s.mem

/-- FABRIC_MEMORY_ACCESS by a system master, and the release of a held access. -/
def Obligations.TransfersReachMemoryAndHeldAccesses : Prop :=
  (∀ (s : State) (m : Master) (a n : Nat) (inc : BitVec 8), s.incarnOf m = none → a < 2 ^ 52 → 0 < n → a % 4096 + n ≤ 4096 →
    s.addrKind a = .hbm → s.winMeets a n = false → s.poisoned a n = false →
    Runs (.fabricMemoryAccess m none false (BitVec.ofNat 64 a) (Fin.ofNat 4097 n) [] false inc) s fun t =>
      t.resp = ⟨false, false, s.bytes a n⟩ ∧ t.mem = s.mem ∧ t.regs = s.regs) ∧
  (∀ (s : State) (m : Master) (a : Nat) (len : Fin 4097) (l : List Byte) (inc : BitVec 8), s.canonical = true →
    s.incarnOf m = none → a < 2 ^ 52 → l ≠ [] → a % 4096 + l.length ≤ 4096 → s.addrKind a = .hbm → s.winMeets a l.length = false →
    s.poison = [] →
    Runs (.fabricMemoryAccess m none true (BitVec.ofNat 64 a) len l false inc) s fun t =>
      t.bytes a l.length = l ∧ MemoryBut a l.length s t ∧ t.regs = s.regs ∧ t.resp = ⟨false, false, []⟩ ∧ t.poison = []) ∧
  (∀ (s : State) (m : Master) (inst : Option (Fin 64)) (w : Bool) (a : BitVec 64) (len : Fin 4097) (l : List Byte) (p : Bool)
    (inc : BitVec 8) (k : Nat), s.incarnOf m = some k → k ≠ inc.toNat →
    exec (.fabricMemoryAccess m inst w a len l p inc) s = .next (s.staleDrop m inc.toNat)) ∧
  (∀ (s : State) (m : Master) (a n : Nat) (inc : BitVec 8), s.incarnOf m = none → a < 2 ^ 64 → 0 < n → a % 4096 + n ≤ 4096 →
    s.addrKind a = .unmapped →
    exec (.fabricMemoryAccess m none false (BitVec.ofNat 64 a) (Fin.ofNat 4097 n) [] false inc) s = .next (s.refuse m 1 a)) ∧
  (∀ (s : State) (m : Master) (a c n : Nat) (inc : BitVec 8), s.incarnOf m = none → a < 2 ^ 52 → 0 < n → a % 4096 + n ≤ 4096 →
    s.addrKind a = .tile c → s.cel.held.contains c = true → s.panelGated (c / 16) = false →
    Runs (.fabricMemoryAccess m none false (BitVec.ofNat 64 a) (Fin.ofNat 4097 n) [] false inc) s fun t =>
      t.heldAcc = s.heldAcc ++ [HeldAcc.mk c m.toNat false a n [] false none] ∧ t.mem = s.mem ∧ t.regs = s.regs) ∧
  (∀ s : State, (s.heldAcc.all fun h => s.cel.held.contains h.cell) = true → exec .heldAccessRelease s = .next s) ∧
  ∀ (s : State) (h : HeldAcc) (r : List HeldAcc), s.heldAcc = h :: r → s.cel.held.contains h.cell = false →
    exec .heldAccessRelease s = .next ((({ s with heldAcc := r } : State).mapAccess (BitVec.ofNat 16 h.master) none h.write h.addr
      h.len h.data h.poison).sendBack h.back)

/-- Control writes of a cell and the events that end a load, a task, a save and a restore. -/
def Obligations.CellsLoadSaveAndRestore : Prop :=
  (∀ (s : State) (m : Master) (c : Fin 256) (a : BitVec 64), s.canonical = true → s.celWriter m = true →
    kernelStates (s.cellState c) = true →
    Runs (.kernelWrite m c a) s fun t =>
      t.cellState c = csLOADING ∧ t.word64 (rCell c 8) = a.toNat / 64 % 2 ^ 46 * 64 ∧ (t.cell c).load = 1 ∧
      t.resp = ⟨false, false, []⟩ ∧ t.mem = s.mem ∧ RegsBut [rCell c 0, rCell c 8, rCell c 0xC] s t) ∧
  (∀ (s : State) (m : Master) (c : Fin 256) (a : BitVec 64), s.canonical = true → s.celWriter m = true →
    kernelStates (s.cellState c) = false →
    Runs (.kernelWrite m c a) s fun t =>
      t.bit (rCell c 0x18) (if s.cellState c = csABSENT ∨ s.cellState c = csOFF then 1 else 0) = true ∧
      t.cellState c = s.cellState c ∧ t.cel.cells = s.cel.cells ∧ t.mem = s.mem ∧ RegsBut [rCell c 0x18, rCelIrq] s t) ∧
  (∀ (s : State) (m : Master) (c : Fin 256) (a : BitVec 64), s.celWriter m = false →
    exec (.kernelWrite m c a) s = .next (s.refuse m 2 (rCell c 8)) ∧
    exec (.save m c) s = .next (s.refuse m 2 (rCell c 4)) ∧ exec (.restore m c) s = .next (s.refuse m 2 (rCell c 4)) ∧
    exec (.abort m c) s = .next (s.refuse m 2 (rCell c 4)) ∧ exec (.ack m c) s = .next (s.refuse m 2 (rCell c 4))) ∧
  (∀ (s u : State) (c : Fin 256) (bit : Nat), s.canonical = true → s.cellState c = csLOADING →
    s.fetchKernel c (s.word64 (rCell c 8)) = (u, .error bit) →
    exec (.kernelLoadDone c) s =
      .next ((((u.cellErr c bit).modCell c fun x => { x with load := 0, groups := [] }).enter c csIDLE).report c 3)) ∧
  (∀ (s u : State) (c : Fin 256) (b : List Byte), s.cellState c = csLOADING →
    s.fetchKernel c (s.word64 (rCell c 8)) = (u, .ok b) → (u.cell c).load = 1 →
    exec (.kernelLoadDone c) s =
      .next (((u.takeKernel c (u.word64 (rCell c 8)) b).modCell c fun x => { x with load := 0, groups := [] }).enter c csLOADED)) ∧
  (∀ (s : State) (c : Fin 256), s.canonical = true → s.cellState c = csDRAINING → (s.cell c).drain = 1 → s.drained c = true →
    (s.cell c).async = [] →
    Runs (.taskComplete c) s fun t =>
      t.cellState c = csLOADED ∧ t.cel.reports = s.cel.reports ++ [(c.val, 0)] ∧ (t.cell c).drain = 0 ∧ t.mem = s.mem ∧
      RegsBut [rCell c 0] s t) ∧
  (∀ (s : State) (m : Master) (c : Fin 256), s.celWriter m = true → s.cellState c = csLOADED →
    exec (.save m c) s = .next (((s.clearMagic c).enter c csSAVING).respOk [])) ∧
  (∀ (s : State) (m : Master) (c : Fin 256), s.celWriter m = true → s.cellState c = csRUNNING →
    exec (.save m c) s = .next (((s.clearMagic c).stopTask c 2).respOk []) ∧
    exec (.abort m c) s = .next ((s.stopTask c 3).respOk [])) ∧
  (∀ (s : State) (m : Master) (c : Fin 256), s.canonical = true → s.celWriter m = true → s.cellState c = csIDLE →
    Runs (.save m c) s fun t => t.bit (rCell c 0x18) 1 = true ∧ t.cellState c = csIDLE ∧ t.cel.cells = s.cel.cells ∧ t.mem = s.mem) ∧
  (∀ (s : State) (c : Fin 256), s.canonical = true → s.cellState c = csSAVING →
    Runs (.saveComplete c) s fun t =>
      t.cellState c = csIDLE ∧ (t.cell c).groups = [] ∧ (t.cell c).drain = 0 ∧ t.mem = (s.writeImage c).1.mem) ∧
  (∀ (s : State) (m : Master) (c : Fin 256), s.canonical = true → s.celWriter m = true →
    s.cellState c = csIDLE ∨ s.cellState c = csLOADED →
    Runs (.restore m c) s fun t =>
      t.cellState c = csRESTORING ∧ t.cel = s.cel ∧ t.mem = s.mem ∧ RegsBut [rCell c 0] s t) ∧
  (∀ (s u : State) (c : Fin 256) (e : Nat × Nat), s.canonical = true → s.cellState c = csRESTORING →
    s.rdAll c false (s.word64 (rCell c 0x10)) imgSize = (u, .error e) →
    Runs (.restoreComplete c) s fun t =>
      t.cellState c = csIDLE ∧ t.bit (rCell c 0x18) 3 = true ∧ (t.cell c).groups = [] ∧
      t.cel.reports = u.cel.reports ++ [(c.val, 4)] ∧ t.mem = u.mem) ∧
  (∀ (s u v : State) (c : Fin 256) (l : List (Byte × Bool)) (b : List Byte), s.cellState c = csRESTORING →
    s.rdAll c false (s.word64 (rCell c 0x10)) imgSize = (u, .ok l) → imgBad l 0 0x1000 = false → imgNat l 0 4 = imgMagic →
    u.fetchKernel c (imgNat l 0x10 8) = (v, .ok b) → imgCheck l b = none →
    (((((v.takeKernel c (imgNat l 0x10 8) b).applyImage c l).setBit (rCell c 0x1C) 31 false).cell c).groups.all
      fun p => decide (p.2.run = 0)) = true →
    exec (.restoreComplete c) s =
      .next (((((v.takeKernel c (imgNat l 0x10 8) b).applyImage c l).setBit (rCell c 0x1C) 31 false).enter c csLOADED).showLive c)) ∧
  (∀ (s : State) (m : Master) (c : Fin 256), s.canonical = true → s.celWriter m = true → s.cellState c = csHALTED →
    (Runs (.ack m c) s fun t => t.cellState c = csLOADED ∧ t.cel = s.cel ∧ t.mem = s.mem ∧ RegsBut [rCell c 0] s t) ∧
    Runs (.abort m c) s fun t => t.cellState c = csLOADED ∧ t.cel = s.cel ∧ t.mem = s.mem ∧ RegsBut [rCell c 0] s t) ∧
  (∀ (s : State) (m : Master) (c : Fin 256), s.canonical = true → s.celWriter m = true → s.cellState c ≠ csHALTED →
    Runs (.ack m c) s fun t =>
      t.bit (rCell c 0x18) 1 = true ∧ t.cellState c = s.cellState c ∧ t.mem = s.mem ∧ RegsBut [rCell c 0x18, rCelIrq] s t) ∧
  ∀ (s : State) (c : Fin 256), s.cellState c = csIDLE →
    exec (.kernelLoadDone c) s = .next s ∧ exec (.taskComplete c) s = .next s ∧ exec (.saveComplete c) s = .next s ∧
    exec (.restoreComplete c) s = .next s

/-- Exceptions of cells and what follows them. -/
def Obligations.CellExceptionsStopTheTask : Prop :=
  (∀ (s : State) (c : Fin 256) (g : Fin 128), s.canIssue c g = false → exec (.syncException c g) s = .next s) ∧
  (∀ (s : State) (c : Fin 256) (g : Fin 128) (e : Exc), s.canIssue c g = true → (s.cell c).fetch (s.group c g).pc = .error e →
    exec (.syncException c g) s = .next (s.syncExc c g 0 e)) ∧
  (∀ (s : State) (c : Fin 256) (g : Fin 128) (w : Nat), s.canIssue c g = true → (s.cell c).fetch (s.group c g).pc = .ok w →
    s.runWord c g w = none → exec (.syncException c g) s = .next (s.syncExc c g w (reservedWord w))) ∧
  (∀ (s t : State) (c : Fin 256) (g : Fin 128) (w : Nat), s.canIssue c g = true → (s.cell c).fetch (s.group c g).pc = .ok w →
    s.runWord c g w = some (.next t) →
    (s.excSeen t c = true → exec (.syncException c g) s = .next t) ∧
    (s.excSeen t c = false → exec (.syncException c g) s = .next s)) ∧
  (∀ (s : State) (c : Fin 256) (g : Fin 128) (e : Exc), s.canonical = true → s.canIssue c g = true →
    (s.cell c).fetch (s.group c g).pc = .error e → s.bit (rCell c 0x1C) 31 = true →
    Runs (.syncException c g) s fun t =>
      t.cellState c = csDRAINING ∧ (t.cell c).drain = 4 ∧ t.word (rCell c 0x38) = (s.word (rCell c 0x38) + 1) % 2 ^ 32 ∧
      t.mem = s.mem ∧ RegsBut [rCell c 0, rCell c 0x38, rCell c 0x40, rCell c 0x44] s t) ∧
  (∀ (s : State) (c : Fin 256) (e : CellExc) (r : List CellExc), (s.cell c).async = e :: r →
    exec (.asyncException c) s = .next ((s.modCell c fun x => { x with async := r }).asyncExc c e)) ∧
  (∀ (s : State) (c : Fin 256) (e : CellExc) (r : List CellExc), s.canonical = true → (s.cell c).async = e :: r →
    s.bit (rCell c 0x1C) 31 = true → s.cellState c = csRUNNING →
    Runs (.asyncException c) s fun t =>
      t.cellState c = csDRAINING ∧ (t.cell c).async = r ∧ t.word (rCell c 0x38) = (s.word (rCell c 0x38) + 1) % 2 ^ 32 ∧
      t.mem = s.mem ∧ RegsBut [rCell c 0, rCell c 0x38, rCell c 0x40, rCell c 0x44] s t) ∧
  (∀ (s : State) (c : Fin 256), (s.cell c).async = [] → exec (.asyncException c) s = .next s) ∧
  (∀ (s : State) (c : Fin 256), s.canonical = true → s.cellState c = csDRAINING → (s.cell c).drain = 4 → s.drained c = true →
    (s.cell c).async = [] →
    Runs (.cellHalt c) s fun t =>
      t.cellState c = csHALTED ∧ t.cel.reports = s.cel.reports ++ [(c.val, 1)] ∧ t.mem = s.mem ∧ RegsBut [rCell c 0] s t) ∧
  (∀ (s : State) (c : Fin 256), s.cellState c ≠ csDRAINING → exec (.cellHalt c) s = .next s) ∧
  (∀ (s : State) (c : Fin 256) (g : Nat) (q : CGroup) (r : List (Nat × CGroup)), s.cellState c = csRUNNING →
    (s.cell c).wdog ≠ 0 → s.panelMHz c ≠ 0 → (s.cell c).groups = (g, q) :: r → q.run = 1 →
    exec (.watchdog c) s = .next
      ((s.timeTo ((s.cell c).since + ceilDiv (4000 * (1024 * (s.cell c).wdog - (s.cell c).elapsed)) (s.panelMHz c))).asyncExc c
        ⟨excWDOG, g, q.pc, match (s.cell c).fetch q.pc with | .ok w => w | .error _ => 0, 0⟩)) ∧
  (∀ (s : State) (c : Fin 256), s.cellState c ≠ csRUNNING ∨ (s.cell c).wdog = 0 → exec (.watchdog c) s = .next s) ∧
  ∀ s : State, s.canonical = true →
    Runs .errorCountClear s fun t =>
      (∀ k, k < 272 → t.fld (rCel (0x200 + k * 4)) 23 8 = 0 ∧ t.fld (rCel (0x200 + k * 4)) 7 0 = s.fld (rCel (0x200 + k * 4)) 7 0 ∧
        t.fld (rCel (0x200 + k * 4)) 31 24 = s.fld (rCel (0x200 + k * 4)) 31 24) ∧
      (∀ a, (∀ k, k < 272 → a ≠ rCel (0x200 + k * 4)) → t.word a = s.word a) ∧ t.mem = s.mem

/-- Substitution and maintenance of physical cells. -/
def Obligations.FailedCellsAreSubstitutedAndMaintained : Prop :=
  (∀ (s : State) (c : Fin 256) (g : Nat) (q : CGroup) (r : List (Nat × CGroup)), s.cellState c = csRUNNING →
    s.fld (rCel 8) 31 24 ≠ 0 → (s.cell c).groups = (g, q) :: r → q.run = 1 → q.stuck = true →
    exec (.cellHang c) s = .next (s.failCell c 2 0x11)) ∧
  (∀ (s : State) (c : Fin 256), s.cellState c = csABSENT ∨ s.cellState c = csOFF ∨ s.cellState c = csSUBST →
    exec (.controlCheckerFail c) s = .next s ∧ exec (.cellHang c) s = .next s) ∧
  (∀ (s : State) (c : Fin 256), s.canonical = true → s.cellState c = csIDLE →
    Runs (.controlCheckerFail c) s fun t =>
      t.cel.held.contains c.val = true ∧ (t.cel.waiting.getLast?.map fun x => (x.cell, x.kind, x.trigger)) = some (c.val, 1, 1) ∧
      t.fld (rCell c 0) 31 24 = (s.fld (rCell c 0) 31 24 + 1) % 256 ∧
      (t.cell c).groups = [] ∧ (t.cell c).tq = [] ∧ (t.cell c).mq = [] ∧ (t.cell c).lq = []) ∧
  (∀ (s : State) (c : Fin 256) (wake lost : Bool) (bad : List (BitVec 18)), s.waitingSub c 1 = none →
    exec (.failureSubstitution c wake lost bad) s = .next s) ∧
  (∀ (s : State) (c : Fin 256) (wake lost : Bool) (bad : List (BitVec 18)) (x : CellSub), s.waitingSub c 1 = some x →
    s.cellState c = csSUBST → x.cell = c.val → s.fld (rPanelSt (c / 16)) 4 0 ≥ 17 →
    exec (.failureSubstitution c wake lost bad) s = .next (s.subFails x 1)) ∧
  (∀ (s : State) (c : Fin 256) (x : CellSub), s.canonical = true → s.waitingSub c 1 = some x → s.cellState c = csSUBST →
    x.cell = c.val → s.fld (rPanelSt (c / 16)) 4 0 < 17 → x.flags = 0 → s.cel.subs = [] →
    Runs (.failureSubstitution c true false []) s fun t =>
      t.cel.subs = [(c.val / 16, { x with newPhys := s.fld (rPanelSt (c / 16)) 4 0, poisoned := 0 })] ∧
      t.waitingSub c 1 = none ∧ t.cellState c = csSUBST ∧ t.bit (rCel 0x10) 0 = true ∧ t.fld (rCel 0x10) 15 8 = c.val ∧
      t.mem = s.mem ∧ RegsBut [rCel 0x10] s t) ∧
  (∀ (s : State) (c : Fin 256) (wake : Bool) (x : CellSub), s.waitingSub c 2 = some x → s.cellState c = csRUNNING →
    exec (.plannedSubstitution c wake) s = .next (s.stopTask c 5)) ∧
  (∀ (s : State) (c : Fin 256) (x : CellSub), s.canonical = true → s.waitingSub c 2 = some x → x.cell = c.val →
    s.cellState c = csIDLE ∨ s.cellState c = csLOADED ∨ s.cellState c = csHALTED → s.fld (rPanelSt (c / 16)) 4 0 < 17 →
    Runs (.plannedSubstitution c true) s fun t =>
      t.cellState c = csSUBST ∧ t.cel.held.contains c.val = true ∧
      fmGet t.cel.subs (c / 16) = some { x with was := s.cellState c, newPhys := s.fld (rPanelSt (c / 16)) 4 0, flags := x.flags + 32 } ∧
      t.mem = s.mem ∧ RegsBut [rCell c 0, rCel 0x10] s t) ∧
  (∀ (s : State) (c : Fin 256), fmGet s.cel.subs (c / 16) = none → exec (.substitutionComplete c) s = .next s) ∧
  (∀ (s : State) (c : Fin 256) (x : CellSub), s.canonical = true → s.cel.subs = [(c.val / 16, x)] → x.cell = c.val → x.oldPhys < 17 →
    x.newPhys < 17 → x.oldPhys ≠ x.newPhys → x.was = csIDLE → (s.cell c).heldCtrl = 0 → x.kind = 1 → s.cellState c = csSUBST →
    Runs (.substitutionComplete c) s fun t =>
      t.cellState c = csIDLE ∧ t.phys c = x.newPhys ∧ t.physState (c / 16) x.oldPhys = 2 ∧ t.physState (c / 16) x.newPhys = 0 ∧
      t.fld (rPhys (c / 16) x.newPhys) 7 4 = c.val % 16 ∧ t.cel.subs = [] ∧ t.cel.held.contains c.val = false ∧
      t.cel.srecs = (s.cel.srecs + 1) % 2 ^ 32 ∧ t.word (rCel 0x14) = (s.word (rCel 0x14) + 1) % 2 ^ 32 ∧ t.mem = s.mem) ∧
  (∀ (s : State) (m : Master) (c : Fin 256) (force : Bool), s.sysWriter m = true → s.cellState c = csIDLE →
    exec (.subReq m c force) s = .next ((if force then s.failCell c 0 0x12 else s.planSub c 0 1).respOk [])) ∧
  (∀ (s : State) (m : Master) (c : Fin 256) (force : Bool), s.canonical = true → s.sysWriter m = true → s.cellState c = csOFF →
    Runs (.subReq m c force) s fun t =>
      t.bit (rCell c 0x18) 1 = true ∧ t.cel = s.cel ∧ t.mem = s.mem ∧ RegsBut [rCell c 0x18, rCelIrq] s t) ∧
  (∀ (s : State) (m : Master) (c : Fin 256) (force : Bool) (p : Fin 16) (i : Fin 32), s.sysWriter m = false →
    exec (.subReq m c force) s = .next (s.refuse m 2 (rCel 0xC)) ∧ exec (.maintStart m p i) s = .next (s.refuse m 2 (rCel 0x1C))) ∧
  (∀ (s : State) (m : Master) (p : Fin 16) (i : Fin 32), s.canonical = true → s.sysWriter m = true → s.bit (rCel 0x20) 0 = false →
    i.val < 17 → s.physState p i = 2 →
    Runs (.maintStart m p i) s fun t =>
      t.fld (rCel 0x20) 2 0 = 1 ∧ t.fld (rCel 0x20) 7 4 = p.val ∧ t.fld (rCel 0x20) 12 8 = i.val ∧ t.physState p i = 3 ∧
      t.mem = s.mem ∧ RegsBut [rCel 0x20, rPhys p i] s t) ∧
  (∀ (s : State) (m : Master) (p : Fin 16) (i : Fin 32), s.canonical = true → s.sysWriter m = true → s.bit (rCel 0x20) 0 = false →
    ¬(i.val < 17 ∧ s.physState p i = 2) →
    Runs (.maintStart m p i) s fun t => t.fld (rCel 0x20) 2 0 = 4 ∧ t.mem = s.mem ∧ RegsBut [rCel 0x20] s t) ∧
  (∀ (s : State) (m : Master) (p : Fin 16) (i : Fin 32), s.canonical = true → s.sysWriter m = true → s.bit (rCel 0x20) 0 = true →
    Runs (.maintStart m p i) s fun t => t.bit (rCel 0x20) 2 = true ∧ t.mem = s.mem ∧ RegsBut [rCel 0x20] s t) ∧
  (∀ (s : State) (pass : Bool), s.bit (rCel 0x20) 0 = false → exec (.maintDone pass) s = .next s) ∧
  (∀ s : State, s.canonical = true → s.bit (rCel 0x20) 0 = true → s.fld (rCel 0x20) 12 8 < 17 →
    Runs (.maintDone false) s fun t =>
      t.fld (rCel 0x20) 2 0 = 4 ∧ t.bit rCelIrq 4 = true ∧ t.physState (s.fld (rCel 0x20) 7 4) (s.fld (rCel 0x20) 12 8) = 4 ∧
      t.mem = s.mem ∧ RegsBut [rCel 0x20, rCelIrq, rPhys (s.fld (rCel 0x20) 7 4) (s.fld (rCel 0x20) 12 8)] s t) ∧
  ∀ s : State, s.canonical = true → s.bit (rCel 0x20) 0 = true → s.fld (rCel 0x20) 12 8 < 17 →
    ((List.range 16).all fun j => decide (s.cellState (s.fld (rCel 0x20) 7 4 * 16 + j) ≠ csABSENT)) = true →
    Runs (.maintDone true) s fun t =>
      t.fld (rCel 0x20) 2 0 = 2 ∧ t.bit rCelIrq 4 = true ∧ t.physState (s.fld (rCel 0x20) 7 4) (s.fld (rCel 0x20) 12 8) = 1 ∧
      t.mem = s.mem

/-- Scalar instructions (opcodes 1 to 8) of group g of cell c. -/
def Obligations.ScalarInstructionsComputeTheirResults : Prop :=
  (∀ (s : State) (c : Fin 256) (g : Fin 128) (w : Nat), s.atWord c g w → wOp w = 1 → wFn w ≤ 0x15 → wPred w = 0 → wType w ≤ 1 →
    wRnd w = 0 → layoutA w (intUsesC (wFn w)) = .ok () → wDst w < 32 → wA w < 32 → (wI w = false → wB w < 32) →
    (intUsesC (wFn w) = true → wI w = false → wC w < 32) →
    Runs (.salu c g) s fun t =>
      let q := s.group c g
      (t.group c g).pc = q.pc + 8 ∧
      (t.group c g).sreg (wDst w) = (if wDst w = 0 then 0 else intFn 64 (wType w) (wFn w) (q.sreg (wA w))
        (if wI w then immA false 64 w else q.sreg (wB w)) (if wI w then Config.freeValue s.free % 2 ^ 64 else q.sreg (wC w)) % 2 ^ 64) ∧
      ScalarsBut (wDst w) q (t.group c g) ∧ (t.group c g).t = q.t ∧ (t.group c g).p = q.p ∧ GroupOnly c g s t) ∧
  (∀ (s : State) (c : Fin 256) (g : Fin 128) (w : Nat), s.atWord c g w → wOp w = 2 → wPred w = 0 → wDst w < 32 →
    Runs (.smovi c g) s fun t =>
      (t.group c g).pc = (s.group c g).pc + 8 ∧ (t.group c g).sreg (wDst w) = (if wDst w = 0 then 0 else ofSigned 64 (toSigned 48 w) % 2 ^ 64) ∧
      ScalarsBut (wDst w) (s.group c g) (t.group c g) ∧ GroupOnly c g s t) ∧
  (∀ (s : State) (c : Fin 256) (g : Fin 128) (w : Nat), s.atWord c g w → wOp w = 3 → wPred w = 0 → bitsOf w 47 16 = 0 → wDst w < 32 →
    Runs (.smovhi c g) s fun t =>
      (t.group c g).pc = (s.group c g).pc + 8 ∧
      (t.group c g).sreg (wDst w) = (if wDst w = 0 then 0 else (s.group c g).sreg (wDst w) % 2 ^ 48 + 2 ^ 48 * (w % 2 ^ 16)) ∧
      ScalarsBut (wDst w) (s.group c g) (t.group c g) ∧ GroupOnly c g s t) ∧
  (∀ (s : State) (c : Fin 256) (g : Fin 128) (w : Nat), s.atWord c g w → wOp w = 8 → wPred w = 0 → wFn w ≤ 3 → w % 2 ^ 30 = 0 → wDst w < 32 →
    Runs (.srd c g) s fun t =>
      (t.group c g).pc = (s.group c g).pc + 8 ∧
      (t.group c g).sreg (wDst w) = (if wDst w = 0 then 0 else
        (if wFn w = 0 then g.val else if wFn w = 1 then (s.cell c).ngroups else if wFn w = 2 then (s.cell c).nregs else s.elapsed c) % 2 ^ 64) ∧
      ScalarsBut (wDst w) (s.group c g) (t.group c g) ∧ GroupOnly c g s t) ∧
  (∀ (s : State) (c : Fin 256) (g : Fin 128) (w a : Nat), s.atWord c g w → wOp w = 4 → wFab w = false →
    scalarMem false (s.group c g) w = .ok a →
    Runs (.sld c g) s fun t =>
      (t.group c g).pc = (s.group c g).pc + 8 ∧
      (t.group c g).sreg (wDst w) = (if wDst w = 0 then 0 else widen (wSX w) (accBytes w) 64 (s.tsNat c a (accBytes w)) % 2 ^ 64) ∧
      ScalarsBut (wDst w) (s.group c g) (t.group c g) ∧ GroupOnly c g s t) ∧
  (∀ (s : State) (c : Fin 256) (g : Fin 128) (w a : Nat), s.canonical = true → s.poison = [] → s.atWord c g w → wOp w = 5 →
    wFab w = false → scalarMem true (s.group c g) w = .ok a → (s.group c g).sbad (wB w) = false →
    Runs (.sst c g) s fun t =>
      (t.group c g).pc = (s.group c g).pc + 8 ∧ t.bytes (tsAddr c a) (accBytes w) = leBytes (accBytes w) ((s.group c g).sreg (wB w)) ∧
      MemoryBut (tsAddr c a) (accBytes w) s t ∧ (t.group c g).s = (s.group c g).s ∧ t.regs = s.regs ∧
      (∀ h, h ≠ g.val → t.group c h = s.group c h)) ∧
  (∀ (s t u : State) (c : Fin 256) (g : Fin 128) (w a pa : Nat) (l : List Byte) (bad : Bool), s.atWord c g w → wOp w = 4 →
    wFab w = true → scalarMem false (s.group c g) w = .ok a → s.xlat (s.cellOwn c) (mCell c) 1 a = (t, some pa) →
    s.heldPa pa = false → t.rdPhys (s.cellOwn c) (mCell c) pa (accBytes w) = (u, .ok (l, bad)) →
    exec (.sld c g) s = .next (u.setGroup c g
      (({ s.group c g with wait := .none }).setS (wDst w) (widen (wSX w) (accBytes w) 64 (leNat l)) bad).past)) ∧
  (∀ (s t u : State) (c : Fin 256) (g : Fin 128) (w a pa : Nat), s.atWord c g w → wOp w = 5 → wFab w = true →
    scalarMem true (s.group c g) w = .ok a → s.xlat (s.cellOwn c) (mCell c) 2 a = (t, some pa) → s.heldPa pa = false →
    t.wrPhys (s.cellOwn c) (mCell c) pa (leBytes (accBytes w) ((s.group c g).sreg (wB w))) ((s.group c g).sbad (wB w)) = (u, none) →
    exec (.sst c g) s = .next (u.setGroup c g (CGroup.past { s.group c g with wait := .none }))) ∧
  (∀ (s : State) (c : Fin 256) (g : Fin 128) (w : Nat), s.atWord c g w → wOp w = 6 → wPred w = 0 → wDst w = 0 → wA w < 32 → wB w < 32 →
    bitsOf w 35 32 ≤ 7 ∨ bitsOf w 35 32 = 15 → (bitsOf w 35 32 ≤ 7 → (s.group c g).sbad (wA w) = false) →
    (bitsOf w 35 32 ≤ 5 → (s.group c g).sbad (wB w) = false) →
    let taken := brCond (bitsOf w 35 32) ((s.group c g).sreg (wA w)) ((s.group c g).sreg (wB w))
    let target := addOfs 64 (s.group c g).pc (wOff32 w * 8)
    (taken = false ∨ target % 8 = 0 →
      Runs (.br c g) s fun t =>
        (t.group c g).pc = (if taken then target else (s.group c g).pc + 8) ∧ (t.group c g).s = (s.group c g).s ∧ GroupOnly c g s t) ∧
    (taken = true → target % 8 ≠ 0 → exec (.br c g) s = .next (s.syncExc c g w (.at_ excALIGN target)))) ∧
  (∀ (s : State) (c : Fin 256) (g : Fin 128) (w : Nat), s.atWord c g w → wOp w = 7 → bitsOf w 35 32 = 0 → wPred w = 0 → wDst w < 32 →
    addOfs 64 (s.group c g).pc (wOff32 w * 8) % 8 = 0 →
    Runs (.jal c g) s fun t =>
      (t.group c g).pc = addOfs 64 (s.group c g).pc (wOff32 w * 8) ∧
      (t.group c g).sreg (wDst w) = (if wDst w = 0 then 0 else ((s.group c g).pc + 8) % 2 ^ 64) ∧
      ScalarsBut (wDst w) (s.group c g) (t.group c g) ∧ GroupOnly c g s t) ∧
  (∀ (s : State) (c : Fin 256) (g : Fin 128) (w : Nat), s.atWord c g w → wOp w = 7 → bitsOf w 35 32 = 1 → wPred w = 0 → wDst w < 32 →
    wA w < 32 → (s.group c g).sbad (wA w) = false → addOfs 64 ((s.group c g).sreg (wA w)) (wOff32 w * 8) % 8 = 0 →
    Runs (.jalr c g) s fun t =>
      (t.group c g).pc = addOfs 64 ((s.group c g).sreg (wA w)) (wOff32 w * 8) ∧
      (t.group c g).sreg (wDst w) = (if wDst w = 0 then 0 else ((s.group c g).pc + 8) % 2 ^ 64) ∧
      ScalarsBut (wDst w) (s.group c g) (t.group c g) ∧ GroupOnly c g s t) ∧
  (∀ (s : State) (c : Fin 256) (g : Fin 128) (w : Nat) (e : Exc), s.atWord c g w →
    let q : CGroup := { s.group c g with wait := .none }
    (wOp w = 1 → salu (s.ctx c g) q w = .error e → exec (.salu c g) s = .next (s.syncExc c g w e)) ∧
    (wOp w = 2 → smovi (s.ctx c g) q w = .error e → exec (.smovi c g) s = .next (s.syncExc c g w e)) ∧
    (wOp w = 3 → smovhi (s.ctx c g) q w = .error e → exec (.smovhi c g) s = .next (s.syncExc c g w e)) ∧
    (wOp w = 4 → scalarMem false q w = .error e → exec (.sld c g) s = .next (s.syncExc c g w e)) ∧
    (wOp w = 5 → scalarMem true q w = .error e → exec (.sst c g) s = .next (s.syncExc c g w e)) ∧
    (wOp w = 8 → srd (s.ctx c g) q w = .error e → exec (.srd c g) s = .next (s.syncExc c g w e))) ∧
  ∀ (s : State) (c : Fin 256) (g : Fin 128), s.canIssue c g = false →
    exec (.salu c g) s = .next s ∧ exec (.sld c g) s = .next s ∧ exec (.sst c g) s = .next s ∧ exec (.br c g) s = .next s ∧
    exec (.jal c g) s = .next s ∧ exec (.jalr c g) s = .next s

/-- Thread instructions on registers (opcodes 0x10 to 0x15 and 0x18) of group g of cell c. -/
def Obligations.ThreadInstructionsComputeInActiveLanes : Prop :=
  (∀ (s : State) (c : Fin 256) (g : Fin 128) (w : Nat), s.atWord c g w → wOp w = 0x10 → wFn w ≤ 0x15 →
    (s.group c g).predOk w = .ok () → wType w ≤ 1 → wRnd w = 0 → layoutA w (intUsesC (wFn w)) = .ok () → wDst w < 32 →
    (s.ctx c g).regsA w (intUsesB (wFn w)) (intUsesC (wFn w)) = .ok () → wDst w < (s.cell c).nregs →
    ((s.group c g).treg (wDst w)).length = 64 →
    Runs (.talu c g) s fun t =>
      let q := s.group c g
      (∀ l, l < 64 → ((t.group c g).treg (wDst w)).getD l 0 = if bitOf (q.active w) l then
          intFn 32 (wType w) (wFn w) ((q.lanes (wA w)).1.getD l 0) ((q.srcB false w).1.getD l 0) ((q.srcC (s.ctx c g) w).1.getD l 0) % 2 ^ 32
        else (q.treg (wDst w)).getD l 0) ∧
      ThreadsBut (wDst w) q (t.group c g) ∧ (t.group c g).pc = q.pc + 8 ∧ (t.group c g).s = q.s ∧ (t.group c g).p = q.p ∧
      GroupOnly c g s t) ∧
  (∀ (s : State) (c : Fin 256) (g : Fin 128) (w : Nat), s.atWord c g w → wOp w = 0x10 → wFn w = 0x16 →
    (s.group c g).predOk w = .ok () → wType w ≤ 1 → wRnd w = 0 → wI w = false → w % 2 ^ 18 = 0 → wC w < 8 → wDst w < 32 →
    (s.ctx c g).regsA w true false = .ok () → wDst w < (s.cell c).nregs → ((s.group c g).treg (wDst w)).length = 64 →
    Runs (.talu c g) s fun t =>
      let q := s.group c g
      (∀ l, l < 64 → ((t.group c g).treg (wDst w)).getD l 0 = if bitOf (q.active w) l then
          (if bitOf (q.pred (wC w)) l then (q.lanes (wA w)).1.getD l 0 else (q.lanes (wB w)).1.getD l 0) % 2 ^ 32
        else (q.treg (wDst w)).getD l 0) ∧
      ThreadsBut (wDst w) q (t.group c g) ∧ (t.group c g).pc = q.pc + 8 ∧ GroupOnly c g s t) ∧
  (∀ (s : State) (c : Fin 256) (g : Fin 128) (w : Nat), s.atWord c g w → wOp w = 0x11 → (s.group c g).predOk w = .ok () →
    bitsOf w 35 32 = 0 → wA w = 0 → wB w = 0 → wDst w < 32 → wDst w < (s.cell c).nregs → ((s.group c g).treg (wDst w)).length = 64 →
    Runs (.tmovi c g) s fun t =>
      let q := s.group c g
      (∀ l, l < 64 → ((t.group c g).treg (wDst w)).getD l 0 =
        if bitOf (q.active w) l then w % 2 ^ 32 else (q.treg (wDst w)).getD l 0) ∧
      ThreadsBut (wDst w) q (t.group c g) ∧ (t.group c g).pc = q.pc + 8 ∧ GroupOnly c g s t) ∧
  (∀ (s : State) (c : Fin 256) (g : Fin 128) (w : Nat), s.canonical = true → s.atWord c g w → wOp w = 0x12 → wFn w ≤ 0x12 →
    (s.group c g).predOk w = .ok () → wType w = 2 → (if fpRounds (wFn w) then wRnd w ≠ 3 else wRnd w = 0) →
    layoutA w (fpUsesC (wFn w)) = .ok () → wDst w < 32 → (s.ctx c g).regsA w (fpUsesB (wFn w)) (fpUsesC (wFn w)) = .ok () →
    wDst w < (s.cell c).nregs → ((s.group c g).treg (wDst w)).length = 64 →
    Runs (.falu c g) s fun t =>
      let q := s.group c g
      (∀ l, l < 64 →
        let r := fpFn (wFn w) (wRnd w) ((q.lanes (wA w)).1.getD l 0) ((q.srcB true w).1.getD l 0) ((q.srcC (s.ctx c g) w).1.getD l 0)
        ((t.group c g).treg (wDst w)).getD l 0 = (if bitOf (q.active w) l then r.1 % 2 ^ 32 else (q.treg (wDst w)).getD l 0) ∧
        (bitOf (q.active w) l = true → ∀ k, k < 5 → bitOf r.2 k = true → t.bit (rAflags c g) k = true)) ∧
      ThreadsBut (wDst w) q (t.group c g) ∧ (t.group c g).pc = q.pc + 8 ∧ GroupOnly c g s t) ∧
  (∀ (s : State) (c : Fin 256) (g : Fin 128) (w : Nat) (r : CGroup × Nat), s.atWord c g w → wOp w = 0x13 →
    tcvt (s.ctx c g) { s.group c g with wait := .none } w = .ok r → bitsOf w 27 26 ≠ 3 → bitOf w 25 = false → bitOf w 24 = false →
    ((s.group c g).treg (wDst w)).length = 64 →
    Runs (.tcvt c g) s fun t =>
      let q := s.group c g
      let sw := elemBits (bitsOf w 35 32)
      let dw := elemBits (bitsOf w 31 28)
      (∀ l, l < 64 → ((t.group c g).treg (wDst w)).getD l 0 = if bitOf (q.active w) l then
          setBitsOf ((q.treg (wDst w)).getD l 0) (bitsOf w 23 20 * dw + dw - 1) (bitsOf w 23 20 * dw)
            (numRound (bitsOf w 31 28) (bitsOf w 27 26) (numDecode (bitsOf w 35 32)
              (bitsOf ((q.lanes (wA w)).1.getD l 0) (bitsOf w 19 16 * sw + sw - 1) (bitsOf w 19 16 * sw))).1 0).1 % 2 ^ 32
        else (q.treg (wDst w)).getD l 0) ∧
      ThreadsBut (wDst w) q (t.group c g) ∧ (t.group c g).pc = q.pc + 8) ∧
  (∀ (s : State) (c : Fin 256) (g : Fin 128) (w : Nat) (r : CGroup × Nat), s.atWord c g w → wOp w = 0x14 →
    tcmp (s.ctx c g) { s.group c g with wait := .none } w = .ok r → wDst w ≠ 0 →
    Runs (.tcmp c g) s fun t =>
      let q := s.group c g
      (∀ l, l < 64 →
        let rel := tcmpRel (wType w) (wFn w) ((q.lanes (wA w)).1.getD l 0) ((q.srcB (wType w = 2) w).1.getD l 0)
        let old := bitOf (q.pred (wDst w)) l
        bitOf ((t.group c g).pred (wDst w)) l = if bitOf (q.active w) l then
          (if wRnd w = 0 then rel else if wRnd w = 1 then old && rel else old || rel) else old) ∧
      (t.group c g).t = q.t ∧ (t.group c g).s = q.s ∧ (t.group c g).pc = q.pc + 8 ∧ GroupOnly c g s t) ∧
  (∀ (s : State) (c : Fin 256) (g : Fin 128) (w : Nat) (r : CGroup × Nat), s.atWord c g w → wOp w = 0x15 → wFn w ≤ 6 →
    plog (s.ctx c g) { s.group c g with wait := .none } w = .ok r → wDst w ≠ 0 →
    Runs (.plog c g) s fun t =>
      let q := s.group c g
      (∀ l, l < 64 →
        let a := bitOf (q.pred (wA w)) l
        let b := bitOf (q.pred (wB w)) l
        bitOf ((t.group c g).pred (wDst w)) l = if bitOf (q.active w) l then
          (if wFn w = 0 then a && b else if wFn w = 1 then a || b else if wFn w = 2 then xor a b
            else if wFn w = 4 then true else if wFn w = 5 then false else if wFn w = 6 then bitOf (q.sreg (wA w)) l
            else bitOf (2 ^ 64 - 1 - q.pred (wA w)) l)
          else bitOf (q.pred (wDst w)) l) ∧
      (t.group c g).t = q.t ∧ (t.group c g).s = q.s ∧ (t.group c g).pc = q.pc + 8 ∧ GroupOnly c g s t) ∧
  (∀ (s : State) (c : Fin 256) (g : Fin 128) (w : Nat), s.atWord c g w → wOp w = 0x15 → 0x10 ≤ wFn w → wFn w ≤ 0x13 →
    (s.group c g).predOk w = .ok () → w % 2 ^ 30 = 0 → 32 < wDst w → wDst w < 64 → wA w < 8 →
    Runs (.vote c g) s fun t =>
      let q := s.group c g
      let hit := q.pred (wA w) &&& q.active w
      (t.group c g).sreg (wDst w) = (if wFn w = 0x10 then hit else if wFn w = 0x11 then b2n (decide (hit ≠ 0))
        else if wFn w = 0x12 then b2n (decide (hit = q.active w)) else popCount 64 hit) % 2 ^ 64 ∧
      ScalarsBut (wDst w) q (t.group c g) ∧ (t.group c g).pc = q.pc + 8 ∧ GroupOnly c g s t) ∧
  (∀ (s : State) (c : Fin 256) (g : Fin 128) (w : Nat) (r : CGroup × Nat), s.atWord c g w → wOp w = 0x18 → wFn w ≤ 4 →
    tlane (s.ctx c g) { s.group c g with wait := .none } w = .ok r → ((s.group c g).treg (wDst w)).length = 64 →
    Runs (.tlane c g) s fun t =>
      let q := s.group c g
      (∀ l, l < 64 → ((t.group c g).treg (wDst w)).getD l 0 = if bitOf (q.active w) l then
          (q.lanes (wA w)).1.getD (shufLane (wFn w) (w % 64) l (if wFn w = 0 then (q.lanes (wB w)).1.getD l 0 else 0)) 0 % 2 ^ 32
        else (q.treg (wDst w)).getD l 0) ∧
      ThreadsBut (wDst w) q (t.group c g) ∧ (t.group c g).pc = q.pc + 8 ∧ GroupOnly c g s t) ∧
  (∀ (s : State) (c : Fin 256) (g : Fin 128) (w : Nat) (r : CGroup × Nat), s.atWord c g w → wOp w = 0x18 → wFn w = 0x10 →
    wType w = 0 → tlane (s.ctx c g) { s.group c g with wait := .none } w = .ok r → 32 < wDst w → wDst w < 64 →
    Runs (.tlane c g) s fun t =>
      let q := s.group c g
      (t.group c g).sreg (wDst w) =
        (((List.range 64).filter fun l => bitOf (q.active w) l).map fun l => (q.lanes (wA w)).1.getD l 0).sum % 2 ^ 64 ∧
      ScalarsBut (wDst w) q (t.group c g) ∧ (t.group c g).pc = q.pc + 8 ∧ GroupOnly c g s t) ∧
  ∀ (s : State) (c : Fin 256) (g : Fin 128) (w : Nat) (e : Exc), s.atWord c g w →
    let q : CGroup := { s.group c g with wait := .none }
    (wOp w = 0x10 → talu (s.ctx c g) q w = .error e → exec (.talu c g) s = .next (s.syncExc c g w e)) ∧
    (wOp w = 0x11 → tmovi (s.ctx c g) q w = .error e → exec (.tmovi c g) s = .next (s.syncExc c g w e)) ∧
    (wOp w = 0x12 → falu (s.ctx c g) q w = .error e → exec (.falu c g) s = .next (s.syncExc c g w e)) ∧
    (wOp w = 0x13 → tcvt (s.ctx c g) q w = .error e → exec (.tcvt c g) s = .next (s.syncExc c g w e)) ∧
    (wOp w = 0x14 → tcmp (s.ctx c g) q w = .error e → exec (.tcmp c g) s = .next (s.syncExc c g w e)) ∧
    (wOp w = 0x15 → wFn w < 0x10 → plog (s.ctx c g) q w = .error e → exec (.plog c g) s = .next (s.syncExc c g w e)) ∧
    (wOp w = 0x15 → 0x10 ≤ wFn w → wFn w ≤ 0x13 → vote (s.ctx c g) q w = .error e →
      exec (.vote c g) s = .next (s.syncExc c g w e)) ∧
    (wOp w = 0x18 → tlane (s.ctx c g) q w = .error e → exec (.tlane c g) s = .next (s.syncExc c g w e))

/-- Thread accesses (opcodes 0x16, 0x17, 0x19, 0x1A) of group g of cell c. -/
def Obligations.ThreadLoadsStoresAndAtomics : Prop :=
  (∀ (s : State) (c : Fin 256) (g : Fin 128) (w : Nat) (ix : BitVec 32), s.atWord c g w → wOp w = 0x16 → wFab w = false →
    wSize w < 3 → threadMem (s.ctx c g) false (s.group c g) w = .ok () → ((s.group c g).treg (wDst w)).length = 64 →
    (∀ l, l < 64 → bitOf ((s.group c g).active w) l = true → tsAccess ((s.group c g).laneAddr false w l) (accBytes w) = .ok ()) →
    Runs (.tld c g 0 ix) s fun t =>
      let q := s.group c g
      (∀ l, l < 64 → ((t.group c g).treg (wDst w)).getD l 0 = if bitOf (q.active w) l then
          widen (wSX w) (accBytes w) 32 (s.tsNat c (q.laneAddr false w l) (accBytes w)) % 2 ^ 32
        else (q.treg (wDst w)).getD l 0) ∧
      ThreadsBut (wDst w) q (t.group c g) ∧ (t.group c g).pc = q.pc + 8 ∧ GroupOnly c g s t) ∧
  (∀ (s : State) (c : Fin 256) (g : Fin 128) (w l a : Nat) (e : Nat) (ix : BitVec 32), s.atWord c g w → wOp w = 0x16 → wFab w = false →
    threadMem (s.ctx c g) false (s.group c g) w = .ok () → l < 64 → (s.group c g).active w = 2 ^ l →
    (s.group c g).laneAddr false w l = a → tsAccess a (accBytes w) = .error e →
    exec (.tld c g 0 ix) s = .next (s.syncExc c g w (.lane_ e a l))) ∧
  (∀ (s : State) (c : Fin 256) (g : Fin 128) (w : Nat), s.canonical = true → s.poison = [] → s.atWord c g w → wOp w = 0x17 →
    wFab w = false → wSize w < 3 → threadMem (s.ctx c g) true (s.group c g) w = .ok () → (s.group c g).tbad (wDst w) = 0 →
    (∀ l, l < 64 → bitOf ((s.group c g).active w) l = true → tsAccess ((s.group c g).laneAddr false w l) (accBytes w) = .ok ()) →
    Runs (.tst c g) s fun t =>
      let q := s.group c g
      (∀ l, l < 64 → bitOf (q.active w) l = true →
        (∀ k, l < k → k < 64 → bitOf (q.active w) k = true → q.laneAddr false w k ≠ q.laneAddr false w l) →
        t.bytes (tsAddr c (q.laneAddr false w l)) (accBytes w) = leBytes (accBytes w) ((q.treg (wDst w)).getD l 0)) ∧
      (∀ a, (∀ l, l < 64 → bitOf (q.active w) l = true →
          a < tsAddr c (q.laneAddr false w l) ∨ tsAddr c (q.laneAddr false w l) + accBytes w ≤ a) → t.byte a = s.byte a) ∧
      t.regs = s.regs ∧ (t.group c g).t = q.t ∧ (t.group c g).s = q.s ∧ (t.group c g).pc = q.pc + 8) ∧
  (∀ (s : State) (c : Fin 256) (g : Fin 128) (w l a : Nat), s.canonical = true → s.poison = [] → s.atWord c g w → wOp w = 0x1A →
    bitOf w 29 = false → wFn w ≠ 9 → atomChecks (s.ctx c g) (s.group c g) w = .ok () → l < 64 → (s.group c g).active w = 2 ^ l →
    (s.group c g).laneAddr false w l = a → tsAccess a 4 = .ok () → (s.group c g).tbad (wDst w + 1) = 0 →
    ((s.group c g).treg (wDst w)).length = 64 →
    Runs (.tatom c g) s fun t =>
      let q := s.group c g
      t.bytes (tsAddr c a) 4 = leBytes 4 (atomFn (wFn w) (s.tsNat c a 4) ((q.treg (wDst w + 1)).getD l 0)) ∧
      MemoryBut (tsAddr c a) 4 s t ∧ ((t.group c g).treg (wDst w)).getD l 0 = s.tsNat c a 4 ∧
      (∀ k, k < 64 → k ≠ l → ((t.group c g).treg (wDst w)).getD k 0 = (q.treg (wDst w)).getD k 0) ∧
      ThreadsBut (wDst w) q (t.group c g) ∧ t.regs = s.regs ∧ (t.group c g).pc = q.pc + 8) ∧
  (∀ (s : State) (c : Fin 256) (g : Fin 128) (w l a : Nat), s.canonical = true → s.poison = [] → s.atWord c g w → wOp w = 0x1A →
    bitOf w 29 = false → wFn w = 9 → atomChecks (s.ctx c g) (s.group c g) w = .ok () → l < 64 → (s.group c g).active w = 2 ^ l →
    (s.group c g).laneAddr false w l = a → tsAccess a 4 = .ok () → (s.group c g).tbad (wDst w + 2) = 0 →
    (s.group c g).tbad (wDst w + 3) = 0 → ((s.group c g).treg (wDst w)).length = 64 →
    Runs (.tatom c g) s fun t =>
      let q := s.group c g
      t.bytes (tsAddr c a) 4 = (if s.tsNat c a 4 = (q.treg (wDst w + 2)).getD l 0 then leBytes 4 ((q.treg (wDst w + 3)).getD l 0)
        else s.bytes (tsAddr c a) 4) ∧
      MemoryBut (tsAddr c a) 4 s t ∧ ((t.group c g).treg (wDst w)).getD l 0 = s.tsNat c a 4 ∧
      ThreadsBut (wDst w) q (t.group c g) ∧ t.regs = s.regs ∧ (t.group c g).pc = q.pc + 8) ∧
  (∀ (s : State) (c : Fin 256) (g : Fin 128) (w : Nat), s.atWord c g w → wOp w = 0x19 →
    tsampChecks (s.ctx c g) (s.group c g) w = .ok () → (s.group c g).active w = 0 →
    Runs (.tsamp c g) s fun t =>
      (t.group c g).pc = (s.group c g).pc + 8 ∧ (t.group c g).t = (s.group c g).t ∧ (t.group c g).p = (s.group c g).p ∧
      GroupOnly c g s t) ∧
  (∀ (s u v : State) (c : Fin 256) (g : Fin 128) (w : Nat) (d p : List Byte), s.atWord c g w → wOp w = 0x19 →
    let q : CGroup := { s.group c g with wait := .none }
    tsampChecks (s.ctx c g) q w = .ok () → q.active w ≠ 0 →
    s.texDesc c (addOfs 64 (q.sreg (wB w)) (bitsOf w 23 16 * 32)) 32 = (u, .ok (d, false)) → txOk d = true →
    u.texDesc c (addOfs 64 (q.sreg (wB w)) (0x2000 + bitsOf w 15 12 * 16)) 16 = (v, .ok (p, false)) → smOk p = true →
    (v.texLanes c q w (q.active w) d p).err = none →
    exec (.tsamp c g) s = .next ((v.texLanes c q w (q.active w) d p).s.setGroup c g
      (q.texOut w (q.active w) (v.texLanes c q w (q.active w) d p).got).past)) ∧
  ∀ (s : State) (c : Fin 256) (g : Fin 128) (w : Nat) (ix : BitVec 32) (e : Exc), s.atWord c g w →
    let q : CGroup := { s.group c g with wait := .none }
    (wOp w = 0x16 → threadMem (s.ctx c g) false q w = .error e → exec (.tld c g 0 ix) s = .next (s.syncExc c g w e)) ∧
    (wOp w = 0x17 → threadMem (s.ctx c g) true q w = .error e → exec (.tst c g) s = .next (s.syncExc c g w e)) ∧
    (wOp w = 0x1A → atomChecks (s.ctx c g) q w = .error e → exec (.tatom c g) s = .next (s.syncExc c g w e)) ∧
    (wOp w = 0x19 → tsampChecks (s.ctx c g) q w = .error e → exec (.tsamp c g) s = .next (s.syncExc c g w e))

/-- Sync and phase instructions (opcodes 0x38 to 0x3B) of group g of cell c. -/
def Obligations.BarriersCountersAndPhaseInstructions : Prop :=
  (∀ (s : State) (c : Fin 256) (g : Fin 128) (w : Nat), s.atWord c g w → wOp w = 0x38 → barOk w = .ok () →
    (wFn w = 0 → Runs (.barSync c g) s fun t =>
      (t.group c g).wait = .barrier (wBar w) ∧ bitOf (t.group c g).arrived (wBar w) = true ∧
      (t.group c g).pc = (s.group c g).pc + 8 ∧ GroupOnly c g s t) ∧
    (wFn w = 1 → bitOf (s.group c g).arrived (wBar w) = false → Runs (.barArrive c g) s fun t =>
      (t.group c g).wait = .none ∧ bitOf (t.group c g).arrived (wBar w) = true ∧ (t.group c g).pc = (s.group c g).pc + 8 ∧
      GroupOnly c g s t) ∧
    (wFn w = 1 → bitOf (s.group c g).arrived (wBar w) = true → Runs (.barArrive c g) s fun t =>
      (t.group c g).pc = (s.group c g).pc ∧ (t.group c g).arrived = (s.group c g).arrived ∧ GroupOnly c g s t) ∧
    (wFn w = 2 → Runs (.barWait c g) s fun t =>
      (t.group c g).wait = (if bitOf (s.group c g).arrived (wBar w) then .barrier (wBar w) else .none) ∧
      (t.group c g).arrived = (s.group c g).arrived ∧ (t.group c g).pc = (s.group c g).pc + 8 ∧ GroupOnly c g s t)) ∧
  (∀ (s : State) (c : Fin 256) (b : Fin 16), (s.cell c).phaseDone b = true →
    Runs (.barrierPhaseComplete c b) s fun t =>
      ((t.cell c).groups.all fun p => !bitOf p.2.arrived b && decide (p.2.wait ≠ .barrier b)) = true ∧
      ((t.cell c).groups.map Prod.fst) = ((s.cell c).groups.map Prod.fst) ∧
      ((t.cell c).groups.map fun p => p.2.pc) = ((s.cell c).groups.map fun p => p.2.pc) ∧ t.regs = s.regs ∧ t.mem = s.mem ∧
      ∀ k, k ≠ c.val → t.cell k = s.cell k) ∧
  (∀ (s : State) (c : Fin 256) (b : Fin 16), (s.cell c).phaseDone b = false → exec (.barrierPhaseComplete c b) s = .next s) ∧
  (∀ (s : State) (c : Fin 256) (g : Fin 128) (w : Nat), s.atWord c g w → wOp w = 0x39 → wPred w = 0 →
    (wFn w = 0 → bitsOf w 23 20 ≤ 4 → bitsOf w 29 24 = 0 → bitsOf w 19 8 = 0 → Runs (.wait c g) s fun t =>
      (t.group c g).wait = .counter (bitsOf w 23 20) (w % 256) ∧ (t.group c g).pc = (s.group c g).pc + 8 ∧ GroupOnly c g s t) ∧
    (wFn w = 1 → bitsOf w 22 20 ≠ 0 → bitsOf w 29 23 = 0 → w % 2 ^ 20 = 0 → Runs (.fence c g) s fun t =>
      (t.group c g).wait = .fence (bitsOf w 22 20) ∧ (t.group c g).pc = (s.group c g).pc + 8 ∧ GroupOnly c g s t)) ∧
  (∀ (s : State) (c : Fin 256) (g : Fin 128) (w : Nat), s.atWord c g w → wOp w = 0x3A → wFn w = 0 → wPred w = 0 → wA w < 32 →
    s.axEn (bitsOf w 23 20) = true → (s.group c g).sbad (wA w) = false →
    Runs (.pwait c g) s fun t =>
      (if reached (s.axValue (bitsOf w 23 20)) ((s.group c g).sreg (wA w)) then
        (t.group c g).pc = (s.group c g).pc + 8 ∧ (t.group c g).wait = .none
      else (t.group c g).pc = (s.group c g).pc ∧ (t.group c g).wait = .pwait (bitsOf w 23 20) ((s.group c g).sreg (wA w))) ∧
      (t.group c g).s = (s.group c g).s ∧ GroupOnly c g s t) ∧
  (∀ (s : State) (c : Fin 256) (g : Fin 128) (ax tg : Nat), (s.group c g).wait = .pwait ax tg → s.cellState c = csRUNNING →
    (s.group c g).run = 1 → s.axStalled ax = false → reached (s.axValue ax) tg = true →
    Runs (.pwaitReached c g) s fun t =>
      (t.group c g).wait = .none ∧ (t.group c g).pc = (s.group c g).pc + 8 ∧ GroupOnly c g s t) ∧
  (∀ (s : State) (c : Fin 256) (g : Fin 128) (ax tg : Nat), (s.group c g).wait = .pwait ax tg →
    s.axStalled ax = true ∨ reached (s.axValue ax) tg = false → exec (.pwaitReached c g) s = .next s) ∧
  (∀ (s : State) (c : Fin 256) (g : Fin 128) (w : Nat), s.atWord c g w → wOp w = 0x3A → wFn w = 1 → wPred w = 0 → wDst w < 32 →
    Runs (.pread c g) s fun t =>
      (t.group c g).sreg (wDst w) = (if wDst w = 0 then 0 else
        if s.axEn (bitsOf w 23 20) then s.axValue (bitsOf w 23 20) % 2 ^ 64 else 0) ∧
      ScalarsBut (wDst w) (s.group c g) (t.group c g) ∧ (t.group c g).pc = (s.group c g).pc + 8 ∧ GroupOnly c g s t) ∧
  ∀ (s u : State) (c : Fin 256) (g : Fin 128) (w : Nat) (err : Bool), s.atWord c g w → wOp w = 0x3B → wPred w = 0 → w % 2 ^ 36 = 0 →
    wDst w = 0 → wA w < 32 → wB w < 32 → (s.group c g).sbad (wA w) = false →
    let q : CGroup := { s.group c g with wait := .none }
    let v : State := { s.setGroup c g q.past with free := s.free + 1 }
    v.doorbell (mCell c) (asInst (v.cellInst c)) (v.instGen (v.cellInst c)) (q.sreg (wA w) % 2 ^ 19) (q.sreg (wB w) % 2 ^ 32) = (u, err) →
    exec (.notify c g) s = .next (if err then u.pendExc c ⟨excACCESS, g, q.pc, w, q.sreg (wA w) % 2 ^ 19⟩ else u)

/-- System instructions (opcode 0x3F) of group g of cell c. -/
def Obligations.SystemInstructionsOfCells : Prop :=
  (∀ (s : State) (c : Fin 256) (g : Fin 128) (w : Nat), s.atWord c g w → isSys 0 w = true → sysOk w false false 0 = .ok () →
    Runs (.sysNop c g) s fun t =>
      (t.group c g).pc = (s.group c g).pc + 8 ∧ (t.group c g).s = (s.group c g).s ∧ (t.group c g).t = (s.group c g).t ∧
      GroupOnly c g s t) ∧
  (∀ (s : State) (c : Fin 256) (g : Fin 128) (w : Nat), s.canonical = true → s.atWord c g w → isSys 1 w = true →
    sysOk w false false 0 = .ok () → (s.cell c).groups = [(g.val, s.group c g)] →
    Runs (.sysEnd c g) s fun t =>
      (t.group c g).run = 2 ∧ t.cellState c = csDRAINING ∧ (t.cell c).drain = 1 ∧ t.fld (rCell c 0) 16 9 = 0 ∧ t.mem = s.mem ∧
      RegsBut [rCell c 0, rCell c 0x40, rCell c 0x44] s t) ∧
  (∀ (s : State) (c : Fin 256) (g : Fin 128) (w : Nat) (h : Nat) (r : CGroup), s.canonical = true → s.atWord c g w → isSys 1 w = true →
    sysOk w false false 0 = .ok () → g.val < h → h < 128 → r.run = 1 → (s.cell c).groups = [(g.val, s.group c g), (h, r)] →
    Runs (.sysEnd c g) s fun t =>
      (t.group c g).run = 2 ∧ (t.group c g).pc = (s.group c g).pc ∧ t.cellState c = csRUNNING ∧ t.fld (rCell c 0) 16 9 = 1 ∧
      t.group c h = r ∧ t.mem = s.mem ∧ RegsBut [rCell c 0] s t) ∧
  (∀ (s : State) (c : Fin 256) (g : Fin 128) (w : Nat), s.atWord c g w → isSys 2 w = true → sysOk w false false 0 = .ok () →
    exec (.sysBreak c g) s = .next (s.syncExc c g w (.of excBREAK))) ∧
  (∀ (s : State) (c : Fin 256) (g : Fin 128) (w : Nat), s.atWord c g w → isSys 3 w = true → sysOk w false false 16 = .ok () →
    exec (.sysTrap c g) s = .next (s.syncExc c g w (.at_ excTRAP (w % 2 ^ 16)))) ∧
  (∀ (s : State) (c : Fin 256) (g : Fin 128) (w : Nat), s.atWord c g w → isSys 4 w = true → sysOk w true false 0 = .ok () →
    Runs (.rdfl c g) s fun t =>
      (t.group c g).sreg (wDst w) = (if wDst w = 0 then 0 else s.word (rAflags c g) % 32) ∧ t.regs = s.regs ∧
      ScalarsBut (wDst w) (s.group c g) (t.group c g) ∧ (t.group c g).pc = (s.group c g).pc + 8 ∧ GroupOnly c g s t) ∧
  (∀ (s : State) (c : Fin 256) (g : Fin 128) (w : Nat), s.canonical = true → s.atWord c g w → isSys 5 w = true →
    sysOk w false false 5 = .ok () →
    Runs (.clrfl c g) s fun t =>
      (∀ k, k < 5 → t.bit (rAflags c g) k = (s.bit (rAflags c g) k && !bitOf w k)) ∧ (t.group c g).s = (s.group c g).s ∧
      (t.group c g).pc = (s.group c g).pc + 8 ∧ GroupOnly c g s t) ∧
  (∀ (s : State) (c : Fin 256) (g : Fin 128) (w : Nat), s.atWord c g w → isSys 6 w = true → sysOk w true false 0 = .ok () →
    Runs (.rdres c g) s fun t =>
      (t.group c g).sreg (wDst w) = (if wDst w = 0 then 0 else (s.group c g).resume % 2 ^ 64) ∧
      ScalarsBut (wDst w) (s.group c g) (t.group c g) ∧ (t.group c g).pc = (s.group c g).pc + 8 ∧ GroupOnly c g s t) ∧
  (∀ (s : State) (c : Fin 256) (g : Fin 128) (w : Nat), s.atWord c g w → isSys 7 w = true → sysOk w false true 0 = .ok () →
    (s.group c g).sbad (wA w) = false →
    Runs (.wrres c g) s fun t =>
      (t.group c g).resume = (s.group c g).sreg (wA w) ∧ (t.group c g).s = (s.group c g).s ∧
      (t.group c g).pc = (s.group c g).pc + 8 ∧ GroupOnly c g s t) ∧
  (∀ (s : State) (c : Fin 256) (g : Fin 128) (w : Nat), s.atWord c g w → wPred w ≠ 0 →
    (isSys 0 w = true → exec (.sysNop c g) s = .next (s.syncExc c g w (.of excFIELD))) ∧
    (isSys 2 w = true → exec (.sysBreak c g) s = .next (s.syncExc c g w (.of excFIELD))) ∧
    (isSys 7 w = true → exec (.wrres c g) s = .next (s.syncExc c g w (.of excFIELD)))) ∧
  ∀ (s : State) (c : Fin 256) (g : Fin 128), s.canIssue c g = false →
    exec (.sysEnd c g) s = .next s ∧ exec (.sysNop c g) s = .next s ∧ exec (.clrfl c g) s = .next s ∧ exec (.rdfl c g) s = .next s

/-- Issue of queued instructions of group g of cell c: what one issue to a queue does, and that each command is one. -/
def Obligations.QueuedInstructionsIssueInOrder : Prop :=
  let issues (i : Instr) (s : State) (c g w : Nat) (sel : QSel) (f : CGroup → Nat → Except Exc QOp) : Prop :=
    let q : CGroup := { s.group c g with wait := .none }
    ((s.cell c).qFull q sel = true → exec i s = .next s) ∧
    ((s.cell c).qFull q sel = false →
      (∀ e, f q w = .error e → exec i s = .next (s.syncExc c g w e)) ∧
      ∀ op, f q w = .ok op → Runs i s fun t =>
        (match sel with
          | .tensor => (t.cell c).tq = (s.cell c).tq ++ [op] ∧ (t.group c g).tq = q.tq + 1 ∧ (t.group c g).pc = q.pc + 8 ∧
              (t.group c g).wait = .none ∧ (t.cell c).mq = (s.cell c).mq ∧ (t.cell c).lq = (s.cell c).lq
          | .move => (t.cell c).mq = (s.cell c).mq ++ [op] ∧ (t.group c g).mq = q.mq + 1 ∧ (t.group c g).pc = q.pc + 8 ∧
              (t.group c g).wait = .none ∧ (t.cell c).tq = (s.cell c).tq ∧ (t.cell c).lq = (s.cell c).lq
          | .long => (t.cell c).lq = (s.cell c).lq ++ [op] ∧ (t.group c g).lq = q.lq + 1 ∧ (t.group c g).pc = q.pc ∧
              (t.group c g).wait = .long ∧ (t.cell c).tq = (s.cell c).tq ∧ (t.cell c).mq = (s.cell c).mq) ∧
        (t.group c g).s = q.s ∧ (t.group c g).t = q.t ∧ t.regs = s.regs ∧ t.mem = s.mem ∧ (∀ k, k ≠ c → t.cell k = s.cell k) ∧
        ∀ h, h ≠ g → t.group c h = s.group c h)
  ∀ (s : State) (c : Fin 256) (g : Fin 128) (w : Nat), s.atWord c g w →
    (wOp w = 0x20 → ∀ ix, issues (.mma c g 0 ix) s c g w .tensor (mma (s.cell c) g)) ∧
    (wOp w = 0x21 → issues (.mmaw c g) s c g w .tensor (mmaw (fun o => s.tsBytes c o 64) (fun o => s.tsBad c o 64) (s.cell c) g)) ∧
    (wOp w = 0x22 → issues (.accrd c g) s c g w .tensor (accrd (s.cell c) g)) ∧
    (wOp w = 0x23 → issues (.accld c g) s c g w .tensor (accld g)) ∧
    (wOp w = 0x30 → issues (.laceInstruction c g) s c g w .move (laceIns g)) ∧
    (wOp w = 0x31 → issues (.tcopy c g) s c g w .move (tcopy g)) ∧
    (wOp w = 0x32 → issues (.trans c g) s c g w .move (trans_ g)) ∧
    (wOp w = 0x33 → issues (.fill c g) s c g w .move (fill g)) ∧
    (isLong 0x3C 0 w = true → issues (.sort c g) s c g w .long (longOp g)) ∧
    (isLong 0x3C 1 w = true → issues (.topk c g) s c g w .long (longOp g)) ∧
    (isLong 0x3D 0 w = true → issues (.gather c g) s c g w .long (longOp g)) ∧
    (isLong 0x3D 1 w = true → issues (.scatter c g) s c g w .long (longOp g)) ∧
    (isLong 0x3E 0 w = true → issues (.attn c g) s c g w .long (longOp g)) ∧
    (isLong 0x3E 1 w = true → issues (.nms c g) s c g w .long (longOp g))

/-- Completion of the operations at the heads of the queues of cell c. -/
def Obligations.QueuedOperationsCompleteInOrder : Prop :=
  (∀ (s : State) (c : Fin 256) (op : QOp) (r : List QOp), (s.cell c).tq = op :: r → s.cellState c = csRUNNING →
    exec (.tensorComplete c) s = .next
      (((if wOp op.word = 0x20 then s.runMma c op else if wOp op.word = 0x21 then s.runMmaw c op
        else if wOp op.word = 0x22 then s.runAccrd c op else s.runAccld c op).modCell c fun x => { x with tq := r }).qDone c
          op.group .tensor)) ∧
  (∀ (s : State) (c : Fin 256) (op : QOp) (r : List QOp), s.canonical = true → (s.cell c).tq = op :: r → s.cellState c = csRUNNING →
    wOp op.word = 0x20 → op.d < (s.cell c).acc.length →
    let m := mmaTile (exactFmts (tdFmt op.a) (tdFmt op.b)) op.x (blockSize (tdSmode op.a) (tdSmode op.b) op.x)
      (s.tdRowsOf c op.a op.x).1 (s.tdRowsOf c op.b op.x).1 (bitOf op.word 29) ((s.cell c).tile op.d)
    Runs (.tensorComplete c) s fun t =>
      (t.cell c).tile op.d = m.1 ∧ (∀ n, n ≠ op.d → (t.cell c).tile n = (s.cell c).tile n) ∧ (t.cell c).tq = r ∧
      (t.group c op.group).tq = (s.group c op.group).tq - 1 ∧
      (∀ k, k < 5 → bitOf m.2 k = true → t.bit (rAflags c op.group) k = true) ∧ t.mem = s.mem ∧
      RegsBut [rAflags c op.group] s t) ∧
  (∀ (s : State) (c : Fin 256) (op : QOp) (r : List QOp), (s.cell c).tq = op :: r → s.cellState c = csRUNNING →
    wOp op.word = 0x23 → op.d < (s.cell c).acc.length →
    Runs (.tensorComplete c) s fun t =>
      ((t.cell c).tile op.d).mode = 2 ∧ ((t.cell c).tile op.d).els.length = 4096 ∧
      (∀ n, n ≠ op.d → (t.cell c).tile n = (s.cell c).tile n) ∧ (t.cell c).tq = r ∧ t.mem = s.mem ∧ t.regs = s.regs) ∧
  (∀ (s : State) (c : Fin 256), (s.cell c).tq = [] → exec (.tensorComplete c) s = .next s) ∧
  (∀ (s : State) (c : Fin 256), (s.cell c).mq = [] → exec (.movementComplete c) s = .next s) ∧
  (∀ (s : State) (c : Fin 256), (s.cell c).lq = [] → exec (.longRoutineComplete c) s = .next s) ∧
  (∀ (s : State) (c : Fin 256) (op : QOp) (r : List QOp), (s.cell c).mq = op :: r → wOp op.word = 0x30 →
    exec (.movementComplete c) s = .next s) ∧
  (∀ (s : State) (c : Fin 256) (op : QOp) (r : List QOp), (s.cell c).mq = op :: r → wOp op.word ≠ 0x30 →
    exec (.movementComplete c) s = .next
      (((if wOp op.word = 0x31 then s.runTcopy c op else if wOp op.word = 0x32 then s.runTrans c op else s.runFill c op).modCell c
        fun x => { x with mq := r }).qDone c op.group .move)) ∧
  (∀ (s : State) (c : Fin 256) (op : QOp) (r : List QOp), s.canonical = true → s.poison = [] → (s.cell c).mq = op :: r →
    s.cellState c = csRUNNING → wOp op.word = 0x33 → elemBits (tdFmt op.d) = 32 → tdRows op.d = 1 → 0 < op.x → op.bad = false →
    Runs (.movementComplete c) s fun t =>
      (∀ k, k < op.x → t.bytes (tsAddr c (tdBase op.d + 4 * k)) 4 = leBytes 4 op.y) ∧
      MemoryBut (tsAddr c (tdBase op.d)) (4 * op.x) s t ∧ (t.cell c).mq = r ∧
      (t.group c op.group).mq = (s.group c op.group).mq - 1 ∧ t.regs = s.regs) ∧
  (∀ (s : State) (c : Fin 256) (op : QOp) (r : List QOp), (s.cell c).lq = op :: r → (s.runLong c op (2 ^ 64)).fault = none →
    ((s.runLong c op (2 ^ 64)).st).cellState c = csRUNNING →
    Runs (.longRoutineComplete c) s fun t =>
      (t.cell c).lq = r ∧ (t.group c op.group).resume = 0 ∧ (t.group c op.group).wait = .none ∧
      (t.group c op.group).pc = (((s.runLong c op (2 ^ 64)).st).group c op.group).pc + 8 ∧
      t.mem = ((s.runLong c op (2 ^ 64)).st).mem ∧ t.regs = ((s.runLong c op (2 ^ 64)).st).regs) ∧
  ∀ (s : State) (c : Fin 256) (op : QOp) (r : List QOp) (f : Nat × Nat), (s.cell c).lq = op :: r →
    (s.runLong c op (2 ^ 64)).fault = some f → ((s.runLong c op (2 ^ 64)).st).cellState c = csRUNNING → restartableOp op.word = true →
    Runs (.longRoutineComplete c) s fun t =>
      (t.cell c).lq = r ∧ (t.group c op.group).resume = (s.runLong c op (2 ^ 64)).next ∧
      (t.cell c).async = ((s.runLong c op (2 ^ 64)).st.cell c).async ++ [⟨f.1, op.group, op.pc, op.word, f.2⟩]

/-- Lace engines of cells (0 to 255) and the engines beside them (256 to 271). -/
def Obligations.LaceListsRunDescriptorByDescriptor : Prop :=
  (∀ (s : State) (c : Fin 256) (op : QOp) (r : List QOp), (s.cell c).mq = op :: r → wOp op.word = 0x30 →
    ((s.chan (laceKey c (bitsOf op.word 35 34))).queue.length < 4 →
      Runs (.laceListAccept c) s fun t =>
        (t.cell c).mq = r ∧ t.regs = s.regs ∧ t.mem = s.mem ∧
        (t.chan (laceKey c (bitsOf op.word 35 34))).queue = (s.chan (laceKey c (bitsOf op.word 35 34))).queue ++
          [⟨op.a, bitOf op.word 33, op.group, op.pc, op.word, none, some (s.cellInst c), s.instGen (s.cellInst c)⟩] ∧
        ∀ k, k ≠ laceKey c (bitsOf op.word 35 34) → t.chan k = s.chan k) ∧
    ((s.chan (laceKey c (bitsOf op.word 35 34))).queue.length ≥ 4 → exec (.laceListAccept c) s = .next s)) ∧
  (∀ (s : State) (c : Fin 256), (s.cell c).mq = [] → exec (.laceListAccept c) s = .next s) ∧
  (∀ (s : State) (e : Fin 272) (ch : Fin 4) (l : LaceList) (a : Nat), s.canonical = true → s.poison = [] → e.val < 256 →
    (s.chan (engineKey e ch)).cur = some l → (s.chan (engineKey e ch)).next = some a → (s.chan (engineKey e ch)).sig = none →
    s.cel.held.contains e.val = false → l.tile = true → a + 64 ≤ tsTop →
    let d := s.tsBytes e a 64
    laceDescOk false d = true → laceBounds d = none → ldStile d = true → ldDtile d = true → ldCodec d = 0 → ldRows d = 1 →
    ldChain d = 0 → ldSig d = false →
    Runs (.laceDescriptorExecute e ch) s fun t =>
      t.bytes (tsAddr e (ldDst d)) (ldBytes d) = s.bytes (tsAddr e (ldSrc d)) (ldBytes d) ∧
      MemoryBut (tsAddr e (ldDst d)) (ldBytes d) s t ∧ (t.chan (engineKey e ch)).next = none ∧
      (t.chan (engineKey e ch)).cur = some l ∧ (t.chan (engineKey e ch)).sig = none ∧ t.regs = s.regs) ∧
  (∀ (s u : State) (e : Fin 272) (ch : Fin 4) (l : LaceList) (a : Nat) (x : LaceErr),
    (s.chan (engineKey e ch)).cur = some l → (s.chan (engineKey e ch)).next = some a → (s.chan (engineKey e ch)).sig = none →
    (e.val < 256 → s.cel.held.contains e.val = false) → s.laceHeld e l a = false →
    (s.setChan (engineKey e ch) (s.chan (engineKey e ch))).laceFetch e l a = (u, .error x) →
    exec (.laceDescriptorExecute e ch) s = .next (u.laceStop e (engineKey e ch) l x)) ∧
  (∀ (s : State) (e : Fin 272) (ch : Fin 4),
    (e.val < 256 ∧ s.cel.held.contains e.val = true) ∨ ((s.chan (engineKey e ch)).cur = none ∧ (s.chan (engineKey e ch)).queue = []) ∨
      (s.chan (engineKey e ch)).cur.isSome = true ∧ (s.chan (engineKey e ch)).sig.isSome = true →
    exec (.laceDescriptorExecute e ch) s = .next s) ∧
  (∀ (s : State) (e : Fin 272) (ch : Fin 4) (l : LaceList) (a v : Nat), s.canonical = true → s.poison = [] →
    (s.chan (engineKey e ch)).cur = some l → (s.chan (engineKey e ch)).sig = some (a, v, true) → a + 8 ≤ tsTop →
    Runs (.laceSignalWrite e ch) s fun t =>
      t.bytes (tsAddr e a) 8 = leBytes 8 v ∧ MemoryBut (tsAddr e a) 8 s t ∧ (t.chan (engineKey e ch)).sig = none ∧
      (t.chan (engineKey e ch)).cur = some l ∧ t.regs = s.regs) ∧
  (∀ (s : State) (e : Fin 272) (ch : Fin 4), (s.chan (engineKey e ch)).sig = none → exec (.laceSignalWrite e ch) s = .next s) ∧
  (∀ (s : State) (e : Fin 272) (ch : Fin 4) (l : LaceList), e.val < 256 → (s.chan (engineKey e ch)).cur = some l →
    (s.chan (engineKey e ch)).next = none → (s.chan (engineKey e ch)).sig = none → l.tack = none → s.cellState e = csRUNNING →
    Runs (.laceListComplete e ch) s fun t =>
      (t.chan (engineKey e ch)).cur = none ∧ (t.group e l.group).mq = (s.group e l.group).mq - 1 ∧
      (t.chan (engineKey e ch)).queue = (s.chan (engineKey e ch)).queue ∧ t.regs = s.regs ∧ t.mem = s.mem) ∧
  ∀ (s : State) (e : Fin 272) (ch : Fin 4),
    (s.chan (engineKey e ch)).cur = none ∨ (s.chan (engineKey e ch)).next ≠ none ∨ (s.chan (engineKey e ch)).sig ≠ none →
    exec (.laceListComplete e ch) s = .next s

/-- Jobs of the Clicker and the Twiwin-L comparisons of their checkpoints. -/
def Obligations.ReleasesTasksAndComparisonsOfJobs : Prop :=
  (∀ (s : State) (m : Master) (n : Fin 4096) (p : BitVec 32), s.sysWriter m = true →
    s.bit (rRelSlot n 0) 0 = false ∨ s.clickState (s.slotClick n) ≠ 2 →
    exec (.slotReleaseWrite m none n p) s = .next ((s.relRefuse n m).respOk [])) ∧
  (∀ (s : State) (m : Master) (i : Fin 64) (n : Fin 4096) (p : BitVec 32), s.bit (rRelSlot n 0) 14 = false →
    exec (.slotReleaseWrite m (some i) n p) s = .next ((s.relRefuse n m).respErr)) ∧
  (∀ (s : State) (m : Master) (n : Fin 4096) (p : BitVec 32) (j : ClcJob), s.canonical = true → s.sysWriter m = true →
    s.bit (rRelSlot n 0) 0 = true → s.bit (rRelSlot n 0) 14 = false → s.clickState (s.slotClick n) = 2 → s.word (rRelSlot n 0x34) = 0 →
    s.jobOf n = some j → s.clc.pend = [] →
    Runs (.slotReleaseWrite m none n p) s fun t =>
      (t.clc.pend.map fun r => (r.slot, r.seq, r.param, r.order)) = [(n.val, (s.word (rRelSlot n 0x20) + 1) % 2 ^ 32, p.toNat, s.clc.order)] ∧
      t.word (rRelSlot n 0x20) = (s.word (rRelSlot n 0x20) + 1) % 2 ^ 32 ∧ t.clc.order = s.clc.order + 1 ∧ t.clc.jobs = s.clc.jobs ∧
      t.fld (rRelSlot n 0x1C) 2 0 = 1 ∧ t.resp = ⟨false, false, []⟩ ∧ t.mem = s.mem) ∧
  (∀ s : State, s.bit (rClc 0) 0 = false → exec .taskPlacement s = .next s) ∧
  (∀ s : State, s.bit (rClc 0) 0 = true → exec .taskPlacement s = .next s.clickerRound) ∧
  (∀ s : State, s.cel.reports = [] → exec .taskOutcome s = .next s) ∧
  (∀ (s : State) (c st : Nat) (r : List (Nat × Nat)), s.cel.reports = (c, st) :: r → s.clc.tasks = [] → s.clc.jobs = [] → st ≠ 1 →
    exec .taskOutcome s = .next { s with cel.reports := r }) ∧
  (∀ (s : State) (c : Nat) (r : List (Nat × Nat)) (k : ClcTask) (j : ClcJob), s.canonical = true → s.cel.reports = (c, 10) :: r →
    s.clc.tasks = [k] → k.place = 1 → k.at_ = c → s.clc.jobs = [j] → j.rel.slot = k.slot → j.stop = none →
    Runs .taskOutcome s fun t =>
      t.clc.tasks = [{ k with place := 3, saved := 0 }] ∧ t.clc.jobs = [{ j with restarts := j.restarts + 1 }] ∧
      t.cel.reports = r ∧ t.word (rClc 0x18) = (s.word (rClc 0x18) + 1) % 2 ^ 32 ∧ t.mem = s.mem ∧ RegsBut [rClc 0x18] s t) ∧
  (∀ s : State, s.clc.posts = [] → s.clc.pend = [] → exec .completionBufferDrain s = .next s) ∧
  (∀ (s u : State) (p : ClcPost) (r : PostResult), s.clc.posts = [p] → s.postCq p = (u, r) → u.clc.pend = [] →
    exec .completionBufferDrain s = .next (match r with | .full => u | _ => { u with clc.posts := [] })) ∧
  (∀ (s : State) (side : Bool), (s.clc.ckpts.all fun c => c.side != side) = true → exec (.checkpointDigest side) s = .next s) ∧
  (∀ (s u : State) (side : Bool) (c : ClcCkpt) (l : List Byte) (bad : Bool), s.clc.ckpts = [c] → c.side = side →
    ({ s with clc.ckpts := [] } : State).dmaReadLong (mDigest (b2n side)) c.addr c.bytes = (u, some (l, bad)) →
    exec (.checkpointDigest side) s = .next { u with
      twn.digests := u.twn.digests ++ [Digest.mk c.slot c.seq c.ckpt side (digestOf l) bad false u.now] }) ∧
  (∀ (s : State) (n : Fin 4096) (a b : Digest), s.twn.digests = [a, b] → a.slot = n.val → b.slot = n.val → a.seq = b.seq →
    a.ckpt = b.ckpt → a.side = false → b.side = true →
    let u : State := { s with twn.digests := [] }
    (a.poison = false → b.poison = false → a.readErr = false → b.readErr = false →
      exec (.digestCompare n) s = .next (if a.digest = b.digest then u.twlPass n else u.twlFail n a.seq a.ckpt 1 a.digest b.digest)) ∧
    (a.poison = true ∨ b.poison = true → exec (.digestCompare n) s = .next (u.twlFail n a.seq a.ckpt 2 a.digest b.digest)) ∧
    (a.poison = false → b.poison = false → a.readErr = true ∨ b.readErr = true →
      exec (.digestCompare n) s = .next (u.twlFail n a.seq a.ckpt 3 a.digest b.digest))) ∧
  ∀ (s : State) (n : Fin 4096) (d : Digest), s.twn.digests = [d] → d.slot = n.val →
    exec (.digestCompare n) s = .next s ∧
    exec (.digestLate n) s = .next (({ s.timeTo (d.time + 4000 * s.fld (rClc 0) 31 16) with twn.digests := [] } : State).twlFail n d.seq
      d.ckpt 4 (if d.side then 0 else d.digest) (if d.side then d.digest else 0))

/-- Clickings and models. -/
def Obligations.ClickingsSwitchAndModelsInstall : Prop :=
  (∀ (s : State) (m : Master) (k : Fin 64) (v : BitVec 32) (b : Bool), s.sysWriter m = false →
    exec (.clickCfgWrite m k v) s = .next (s.refuse m 2 (rClick k 0)) ∧
    exec (.clickSwitch m k v) s = .next (s.refuse m 2 (rClick k 8)) ∧ exec (.unbind m k b) s = .next (s.refuse m 2 (rClick k 8))) ∧
  (∀ (s : State) (m : Master) (k : Fin 64) (v : BitVec 32), s.sysWriter m = true →
    s.clickClass k = 1 ∨ v.toNat % 4 = 1 ∨ v.toNat % 4 = 3 → exec (.clickCfgWrite m k v) s = .next (s.respOk [])) ∧
  (∀ (s : State) (m : Master) (k : Fin 64) (v : BitVec 32), s.sysWriter m = true → s.clickClass k = 2 → v.toNat % 4 = 2 →
    s.clickNow k = 0 →
    let u := s.setWord (rClick k 0) (setBitsOf (setBitsOf (setBitsOf (s.word (rClick k 0)) 31 28 (bitsOf v.toNat 31 28)) 24 16
      (bitsOf v.toNat 24 16)) 7 0 (v.toNat % 256))
    exec (.clickCfgWrite m k v) s = .next (((State.shrink 257 k u).handOut.showFree).respOk [])) ∧
  (∀ (s : State) (m : Master) (k : Fin 64) (v : BitVec 32), s.canonical = true → s.sysWriter m = true →
    s.switchCheck k (v.toNat % 32) (bitOf v.toNat 7) ≠ 0 →
    Runs (.clickSwitch m k v) s fun t =>
      t.fld (rClick k 4) 31 28 = s.switchCheck k (v.toNat % 32) (bitOf v.toNat 7) ∧ t.bit rClcIrq 2 = true ∧
      t.clickState k = s.clickState k ∧ t.clc = s.clc ∧ t.resp = ⟨false, false, []⟩ ∧ t.mem = s.mem ∧
      RegsBut [rClick k 4, rClcIrq] s t) ∧
  (∀ (s : State) (m : Master) (k : Fin 64) (v : BitVec 32), s.canonical = true → s.sysWriter m = true →
    s.switchCheck k (v.toNat % 32) false = 0 → bitOf v.toNat 7 = false → bitOf v.toNat 5 = false → s.twlClick k = false →
    s.clc.pend = [] →
    Runs (.clickSwitch m k v) s fun t =>
      t.clickState k = 3 ∧
      fmGet t.clc.switching k = some ⟨v.toNat % 32, false, bitOf v.toNat 6, false, bitsOf v.toNat 15 8, false⟩ ∧
      t.resp = ⟨false, false, []⟩ ∧ t.mem = s.mem ∧ RegsBut [rClick k 4] s t) ∧
  (∀ (s : State) (m : Master) (k : Fin 64), s.sysWriter m = true → s.switchCheck k 0 true = 0 → s.twlClick k = false →
    s.clc.pend = [] → s.clc.burst = [] → s.clc.jobs = [] →
    let u : State := { s.setClickState k 3 with clc.switching := fmPut s.clc.switching k ⟨0, false, false, true, 0, false⟩ }
    exec (.unbind m k false) s = .next (((u.unbindClick k).slcRealloc.switchEnd k 1 1).respOk [])) ∧
  (∀ (s : State) (k : Fin 64), fmGet s.clc.switching k = none →
    exec (.switchDrainDone k) s = .next s ∧ exec (.switchDone k) s = .next s) ∧
  (∀ (s : State) (k : Fin 64) (x : ClcSwitch), fmGet s.clc.switching k = some x → s.twlClick k = false →
    (s.jobsOn k).isEmpty = false ∨ x.drained = true → exec (.switchDrainDone k) s = .next s) ∧
  (∀ (s : State) (k : Fin 64) (x : ClcSwitch), s.canonical = true → fmGet s.clc.switching k = some x → s.twlClick k = false →
    (s.jobsOn k).isEmpty = true → x.drained = false → x.unbind = false → s.clc.burst = [] → s.clickNow k = 0 →
    Runs (.switchDrainDone k) s fun t =>
      fmGet t.clc.switching k = some { x with drained := true } ∧ t.clickBound k = false ∧ t.clickState k = s.clickState k ∧ t.mem = s.mem) ∧
  (∀ (s : State) (k : Fin 64) (x : ClcSwitch), fmGet s.clc.switching k = some x → x.drained = false →
    exec (.switchDone k) s = .next s) ∧
  (∀ (s : State) (k : Fin 64) (x : ClcSwitch), s.canonical = true → s.clc.switching = [(k.val, x)] → s.twlClick k = false →
    x.drained = true → x.resOnly = true → s.mdlMin x.model ≤ s.switchCells k → x.model < 32 → s.switchCells k ≤ 256 →
    Runs (.switchDone k) s fun t =>
      t.clickState k = 2 ∧ t.clickBound k = true ∧ t.clickModel k = x.model ∧ t.clickN k = s.switchCells k ∧
      t.fld (rClick k 4) 31 28 = 1 ∧ t.clc.switching = [] ∧ t.mem = s.mem) ∧
  (∀ (s : State) (a : BitVec 64), s.poisoned (4096 * (a.toNat / 4096)) 4096 = false → exec (.modelRepair a) s = .next s) ∧
  (∀ (s : State) (a : BitVec 64) (m : Nat), s.canonical = true → s.poisoned (4096 * (a.toNat / 4096)) 4096 = true →
    ((List.range 32).find? fun m => decide (s.modelState m = 2) && decide (s.modelWork m ≤ a.toNat) &&
      decide (a.toNat < s.modelWork m + s.modelBytes m)) = some m →
    s.poisoned (s.modelGold m + (4096 * (a.toNat / 4096) - s.modelWork m)) 4096 = false →
    Runs (.modelRepair a) s fun t =>
      t.bytes (4096 * (a.toNat / 4096)) 4096 = s.bytes (s.modelGold m + (4096 * (a.toNat / 4096) - s.modelWork m)) 4096 ∧
      MemoryBut (4096 * (a.toNat / 4096)) 4096 s t ∧ t.poisoned (4096 * (a.toNat / 4096)) 4096 = false ∧
      t.word (rModel m 0x24) = (s.word (rModel m 0x24) + 1) % 2 ^ 32 ∧ t.bit (rMhs 0) 3 = true ∧
      RegsBut [rMhs 0x20, rModel m 0x24, rMhs 0] s t) ∧
  (∀ (s : State) (m : Fin 32) (w k : BitVec 52), fmGet s.fwp.binds m = none → s.modelState m ≠ 1 →
    exec (.modelInstallationDone m w k) s = .next s) ∧
  (∀ (s : State) (m : Fin 32) (w k : BitVec 52), s.canonical = true → fmGet s.fwp.binds m = none → s.modelState m = 1 →
    s.poisoned (s.modelGold m) (s.modelBytes m) = true ∨
      imageOk (s.bytes (s.modelGold m) (s.modelBytes m)) (fmGet s.sec.slots) = false →
    Runs (.modelInstallationDone m w k) s fun t =>
      t.modelState m = 0 ∧ t.bit (rMhs 0) 1 = true ∧ t.mem = s.mem ∧ RegsBut [rModel m 0, rMhs 0] s t) ∧
  ∀ (s : State) (m : Fin 32) (w k : BitVec 52), s.canonical = true → fmGet s.fwp.binds m = none → s.modelState m = 1 → s.poison = [] →
    let img := s.bytes (s.modelGold m) (s.modelBytes m)
    imageOk img (fmGet s.sec.slots) = true → w.toNat % 4096 = 0 → k.toNat % 64 = 0 →
    s.mhsRoom m w.toNat (s.modelBytes m) = true → s.mhsRoom m k.toNat (leAt img 0x22 2 * 64) = true →
    apart w.toNat (s.modelBytes m) k.toNat (leAt img 0x22 2 * 64) = true →
    Runs (.modelInstallationDone m w k) s fun t =>
      t.modelState m = 2 ∧ t.modelWork m = w.toNat ∧ t.word (rModel m 4) = leAt img 0x10 4 ∧ t.bytes w.toNat (s.modelBytes m) = img ∧
      fmGet t.mhs.kbase m = some k.toNat ∧ t.bit (rMhs 0) 0 = true

/-- The world model's buffers and the inputs of the planner. -/
def Obligations.EpochsInputsAndCyclesOfThePlanner : Prop :=
  (∀ (s : State) (m : Master) (inst : Option (Fin 64)) (b : Nat), s.canonical = true →
    (sysReader m || s.wpeOwner inst 5 0) = true → b < 3 → s.bufState b = 1 → (∀ k, k < b → s.bufState k ≠ 1) →
    Runs (.epochAcqRead m inst) s fun t =>
      t.resp = ⟨false, false, leBytes 4 (0xC0000000 + b)⟩ ∧ t.word (rWpe 0x4C) = 0xC0000000 + b ∧ RegsBut [rWpe 0x4C] s t ∧
      t.mem = s.mem ∧ t.wpe = s.wpe) ∧
  (∀ (s : State) (m : Master) (inst : Option (Fin 64)) (b : Nat), s.canonical = true →
    (sysReader m || s.wpeOwner inst 5 0) = true → b < 3 → (∀ k, k < 3 → s.bufState k ≠ 1) → s.bufState b = 0 →
    (∀ k, k < b → s.bufState k ≠ 0) →
    Runs (.epochAcqRead m inst) s fun t =>
      t.resp = ⟨false, false, leBytes 4 (0x80000000 + b)⟩ ∧ t.bufState b = 1 ∧ (∀ k, k < 3 → k ≠ b → t.bufState k = s.bufState k) ∧
      t.newest = s.newest ∧ RegsBut [rWpe 0x4C, rWpe 0x54] s t ∧ t.mem = s.mem) ∧
  (∀ (s : State) (m : Master) (inst : Option (Fin 64)), s.canonical = true →
    (sysReader m || s.wpeOwner inst 5 0) = true → (∀ k, k < 3 → s.bufState k ≠ 1 ∧ s.bufState k ≠ 0) →
    Runs (.epochAcqRead m inst) s fun t =>
      t.resp = ⟨false, false, [0, 0, 0, 0]⟩ ∧ t.word (rWpe 0x4C) = 0 ∧ t.bit rWpeIrq 6 = true ∧
      t.fld (rWpe 0x5C) 15 0 = min (s.fld (rWpe 0x5C) 15 0 + 1) 0xFFFF ∧
      RegsBut [rWpe 0x4C, rWpe 0x5C, rWpeIrq] s t ∧ t.mem = s.mem) ∧
  (∀ (s : State) (m : Master) (inst : Option (Fin 64)) (b : Fin 4) (d : BitVec 64) (tv : BitVec 64), s.sysWriter m = false →
    s.wpeOwner inst 5 0 = false → s.wpeOwner inst 13 8 = false → s.wpeOwner inst 21 16 = false →
    (sysReader m = false → exec (.epochAcqRead m inst) s = .next (s.refuse m 1 (rWpe 0x4C))) ∧
    exec (.epochPublish m inst b) s = .next (s.refuse m 2 (rWpe 0x50)) ∧
    exec (.epochAbandon m inst b) s = .next (s.refuse m 2 (rWpe 0x50)) ∧
    exec (.vehicleStateCommit m inst tv) s = .next (s.refuse m 2 (rWpe 0x90)) ∧
    exec (.goalSwap m inst) s = .next (s.refuse m 2 (rWpe 0x70)) ∧
    (s.isIsland m = false → exec (.heelSubmit m d) s = .next (s.refuse m 2 (rWpe 0x200)))) ∧
  (∀ (s : State) (m : Master) (inst : Option (Fin 64)) (b : Fin 4), (s.sysWriter m || s.wpeOwner inst 5 0) = true →
    b.val = 3 ∨ s.bufState b ≠ 1 →
    exec (.epochPublish m inst b) s = .next ((s.pubErr m).respOk []) ∧ exec (.epochAbandon m inst b) s = .next (s.respOk [])) ∧
  (∀ (s : State) (m : Master) (inst : Option (Fin 64)) (b : Fin 4), s.canonical = true → (s.sysWriter m || s.wpeOwner inst 5 0) = true →
    b.val < 3 → s.bufState b = 1 →
    (Runs (.epochAbandon m inst b) s fun t =>
      t.bufState b = 0 ∧ (∀ k, k < 3 → k ≠ b → t.bufState k = s.bufState k) ∧ t.newest = s.newest ∧ RegsBut [rWpe 0x54] s t ∧
      t.mem = s.mem ∧ t.wpe = s.wpe ∧ t.resp = ⟨false, false, []⟩) ∧
    (s.rangeOk (mWpe 0) false (s.epochBase b) 0x300 = false ∨ s.poisoned (s.epochBase b) 0x300 = true ∨
        s.hdrOk (s.bytes (s.epochBase b) 256) = false →
      exec (.epochPublish m inst b) s = .next (((s.setBuf b 0).pubErr m).respOk []))) ∧
  (∀ (s : State) (m : Master) (inst : Option (Fin 64)) (b : Fin 4), s.canonical = true → (s.sysWriter m || s.wpeOwner inst 5 0) = true →
    b.val < 3 → s.bufState b = 1 → s.rangeOk (mWpe 0) false (s.epochBase b) 0x300 = true →
    s.poison = [] → s.hdrOk (s.bytes (s.epochBase b) 256) = true → s.wpe.engaged = none →
    let n := if s.word (rWpe 0x58) = 0xFFFFFFFF then 1 else s.word (rWpe 0x58) + 1
    Runs (.epochPublish m inst b) s fun t =>
      t.word (rWpe 0x58) = n ∧ t.bytes (s.epochBase b) 4 = leBytes 4 n ∧ MemoryBut (s.epochBase b) 4 s t ∧ t.newest = b.val ∧
      t.bufState b = 2 ∧ t.wpe.chgPlan = s.wpe.chgPlan ||| s.changedRegions b ∧ t.wpe.chgHf = s.wpe.chgHf ||| s.changedRegions b ∧
      RegsBut [rWpe 0x58, rWpe 0x54, rWpeStatus] s t ∧ t.resp = ⟨false, false, []⟩) ∧
  (∀ (s : State) (m : Master) (inst : Option (Fin 64)) (tv : BitVec 64), s.canonical = true →
    (s.sysWriter m || s.wpeOwner inst 21 16) = true →
    Runs (.vehicleStateCommit m inst tv) s fun t =>
      t.wpe = { s.wpe with vs := some ⟨toSigned 32 (s.word (rWpe 0x80)), toSigned 32 (s.word (rWpe 0x84)), s.word (rWpe 0x88) % 65536,
        s.word (rWpe 0x8C) % 65536, tv.toNat⟩ } ∧
      t.word64 (rWpe 0x90) = tv.toNat ∧ RegsBut [rWpe 0x90, rWpe 0x94] s t ∧ t.mem = s.mem ∧ t.resp = ⟨false, false, []⟩) ∧
  (∀ (s : State) (m : Master) (inst : Option (Fin 64)), s.canonical = true → (s.sysWriter m || s.wpeOwner inst 13 8) = true →
    Runs (.goalSwap m inst) s fun t =>
      t.bit (rWpe 0x70) 0 = true ∧ t.bit (rWpe 0x70) 1 = s.bit (rWpe 0x70) 1 ∧ RegsBut [rWpe 0x70] s t ∧ t.mem = s.mem ∧
      t.wpe = s.wpe ∧ t.resp = ⟨false, false, []⟩) ∧
  (∀ (s : State), s.wpe.cycleSig = none → exec .cycleStart s = .next s) ∧
  (∀ (s : State) (x : Nat × Bool), s.wpe.cycleSig = some x → s.bit (rWpe 0) 0 = false →
    exec .cycleStart s = .next { s with wpe.cycleSig := none }) ∧
  (∀ (s : State) (t0 : Nat), s.wpe.cycleSig = some (t0, true) → s.bit (rWpe 0) 0 = true →
    Runs .cycleStart s fun t =>
      t.wpe = { s.wpe with cycleSig := none, t0 := t0, dTarget := s.word64 (rTack s.deadlineTack 0), cycled := true,
                           fixed := false, opened := false } ∧ t.regs = s.regs ∧ t.mem = s.mem) ∧
  (∀ (s : State) (t0 : Nat), s.canonical = true → s.wpe.cycleSig = some (t0, false) → s.bit (rWpe 0) 0 = true →
    (∀ p ∈ s.wpe.shadow, p.1 ≠ rWpeCnt 0 ∧ p.1 ≠ rWpe 0x70) → s.wpe.nextCands.length ≤ 4 →
    Runs .cycleStart s fun t =>
      t.wpe.cycleSig = none ∧ t.wpe.t0 = t0 ∧ t.wpe.opened = true ∧ t.wpe.fixed = false ∧ t.wpe.shadow = [] ∧ t.wpe.nextCands = [] ∧
      t.wpe.cands = s.wpe.nextCands.map (fun a => HeelCand.mk a false false none) ∧
      t.word (rWpeCnt 0) = (s.word (rWpeCnt 0) + 1) % 2 ^ 32 ∧ t.word (rWpe 0x208) = 0xF0000 + (2 ^ s.wpe.nextCands.length - 1) ∧
      t.bit (rWpe 0x70) 0 = false ∧ t.bit (rWpe 0x70) 1 = (s.bit (rWpe 0x70) 1 ^^ s.bit (rWpe 0x70) 0) ∧ t.mem = s.mem) ∧
  (∀ (s : State) (m : Master) (d : BitVec 64), s.canonical = true → s.isIsland m = true → s.wpe.opened = true → s.wpe.fixed = false →
    Runs (.heelSubmit m d) s fun t =>
      (s.wpe.cands.length < 4 → t.wpe = { s.wpe with cands := s.wpe.cands ++ [HeelCand.mk (64 * bitsOf d.toNat 51 6) false false none] } ∧
        t.bit rHeelSt s.wpe.cands.length = true) ∧
      (4 ≤ s.wpe.cands.length → t.wpe = s.wpe ∧ t.bit rHeelSt 22 = true) ∧
      RegsBut [rHeelSt] s t ∧ t.mem = s.mem ∧ t.resp = ⟨false, false, []⟩) ∧
  (∀ (s : State) (m : Master) (d : BitVec 64), s.canonical = true → s.isIsland m = true → s.wpe.opened = false ∨ s.wpe.fixed = true →
    Runs (.heelSubmit m d) s fun t =>
      (s.wpe.nextCands.length < 4 → t.wpe = { s.wpe with nextCands := s.wpe.nextCands ++ [64 * bitsOf d.toNat 51 6] } ∧ t.regs = s.regs) ∧
      (4 ≤ s.wpe.nextCands.length → t.wpe = s.wpe ∧ t.bit rHeelSt 22 = true) ∧
      RegsBut [rHeelSt] s t ∧ t.mem = s.mem ∧ t.resp = ⟨false, false, []⟩)

/-- What the planner commands. -/
def Obligations.PlansHeelsAndFramesOfTheCycle : Prop :=
  (∀ (s : State) (e : Fin 3), s.wpe.run = none → exec (.wavefrontExpansionDone e) s = .next s ∧ exec .planChosen s = .next s) ∧
  (∀ (s : State) (e : Fin 3) (r : PlanRun), s.wpe.run = some r →
    (r.expanded = true → exec (.wavefrontExpansionDone e) s = .next s) ∧ (r.expanded = false → exec .planChosen s = .next s)) ∧
  (∀ (s : State) (r : PlanRun), s.wpe.run = some r → r.expanded = false →
    Runs (.wavefrontExpansionDone 2) s fun t =>
      t.wpe.run = none ∧ t.wpe.results = (r.tRef, 8, r.rerun) :: s.wpe.results ∧ t.wpe.plan = s.wpe.plan ∧ t.wpe.heel = s.wpe.heel) ∧
  (∀ (s : State) (e : Fin 3) (r : PlanRun), s.wpe.run = some r → r.expanded = false → e.val ≠ 2 →
    let s1 := if e.val = 1 then s.fault 0x1D 2 (mWpe 0) 0 0 else s
    let g : Grid := ⟨s1.gridW, s1.gridH, s1.gridL⟩
    let goal := s1.word64 (rWpe (0x60 + (if s1.bit (rWpe 0x70) 1 then 8 else 0)))
    let area := s1.word64 (rWpe 0x78)
    s1.rangeOk (mWpe 0) false (s1.epochBase r.buf) (0x1000 + g.w * g.h * g.l) = true →
    s1.rangeOk (mWpe 0) false goal (2 * (g.w * g.h)) = true → s1.rangeOk (mWpe 0) true area (4 * (g.w * g.h) * g.l) = true →
    let x := s1.expandLayers g s1.prims r.buf (s1.layerShift r.tRef (s1.epochHdr r.buf).tLayer0) area g.l (s1.terminal g goal)
    Runs (.wavefrontExpansionDone e) s fun t =>
      t.wpe = { s1.wpe with run := some { r with expanded := true }, values := x.2 } ∧ t.mem = x.1.mem ∧ RegsBut [rWpeStatus] s1 t) ∧
  (∀ (s : State) (r : PlanRun), s.wpe.run = some r → r.expanded = true →
    let g : Grid := ⟨s.gridW, s.gridH, s.gridL⟩
    let h := s.epochHdr r.buf
    let shift := s.layerShift r.tRef h.tLayer0
    let q := startState h r.vs
    let c := s.choosePlan g s.prims r h q shift (s.rankCandidates g s.prims r q shift)
    (c.1 = none → Runs .planChosen s fun t =>
      t.wpe = { s.wpe with run := none, results := (r.tRef, 6, r.rerun) :: s.wpe.results } ∧ t.mem = s.mem ∧
      RegsBut [rWpeStatus, rWpeCnt 11, rWpeIrq] s t) ∧
    (∀ pts corr cost, c.1 = some (pts, corr, cost) → BitVec.ofNat 4096 corr &&& s.wpe.chgPlan = 0 →
      let p : Traj := ⟨r.tRef, pts, BitVec.ofNat 4096 corr, cost, r.epoch, 0, false, r.rerun⟩
      Runs .planChosen s fun t =>
        t.wpe = { s.wpe with run := none, results := (r.tRef, 0, r.rerun) :: s.wpe.results, plan := some p, fresh := some p,
                             chgPf := s.wpe.chgPlan } ∧
        t.bit rWpeStatus 7 = true ∧ t.mem = s.mem ∧ RegsBut [rWpeStatus, rWpeCnt 11, rWpeIrq] s t) ∧
    ∀ pts corr cost, c.1 = some (pts, corr, cost) → BitVec.ofNat 4096 corr &&& s.wpe.chgPlan ≠ 0 →
      exec .planChosen s = .next (((((s.treeErrs c.2).endRun r 1).bump (rWpeCnt 2)).orWord rWpeIrq 1).startRun (r.tRef + 500000) true)) ∧
  (∀ (s : State) (f : Bool), s.wpe.fixed = true ∨ s.wpe.opened = false ∨ s.fld rWpeStatus 5 4 = 3 ∨
    (s.wpe.cands.any fun c => c.traj.isSome) = true → exec (.heelCheckDone f) s = .next s) ∧
  (∀ (s : State) (f : Bool) (i a : Nat), s.canonical = true → s.wpe.fixed = false → s.wpe.opened = true → s.fld rWpeStatus 5 4 ≠ 3 →
    (s.wpe.cands.all fun c => c.traj.isNone) = true → s.wpe.cands[i]? = some ⟨a, false, false, none⟩ → i < 4 →
    (∀ k, k < i → ∃ c, s.wpe.cands[k]? = some c ∧ c.checked = true) →
    let bad := setAt s.wpe.cands i (HeelCand.mk a true false none)
    (f = true → Runs (.heelCheckDone f) s fun t =>
      t.wpe.cands = bad ∧ t.bit rHeelSt (8 + i) = true ∧ t.fld rHeelSt 31 28 = 1 ∧ t.wpe.heel = s.wpe.heel) ∧
    (∀ r, f = false → s.readHeel a = .error r → r < 16 → Runs (.heelCheckDone f) s fun t =>
      t.wpe = { s.wpe with cands := bad } ∧ t.bit rHeelSt (8 + i) = true ∧ t.fld rHeelSt 31 28 = r ∧ RegsBut [rHeelSt] s t ∧
      t.mem = s.mem) ∧
    ∀ tRef pts, f = false → s.readHeel a = .ok (tRef, pts) →
      let b := s.fld rWpeStatus 5 4
      let c := s.checkHeel (s.epochHdr b) b tRef pts
      (c.ok = false → Runs (.heelCheckDone f) s fun t =>
        t.wpe = { s.wpe with cands := bad } ∧ t.bit rHeelSt (8 + i) = true ∧ t.fld rHeelSt 31 28 = 3 ∧ t.mem = s.mem ∧
        RegsBut [rHeelSt, rWpeCnt 11, rWpeIrq] s t) ∧
      (c.ok = true → BitVec.ofNat 4096 c.corridor &&& s.wpe.chgHeel = 0 → Runs (.heelCheckDone f) s fun t =>
        t.wpe = { s.wpe with cands := setAt s.wpe.cands i (HeelCand.mk a true false
          (some ⟨tRef, pts, BitVec.ofNat 4096 c.corridor, 0, s.wpe.bufNum.getD b 0, 0, false, false⟩)) } ∧
        t.bit rHeelSt (4 + i) = true ∧ t.mem = s.mem ∧ RegsBut [rHeelSt, rWpeCnt 11, rWpeIrq] s t)) ∧
  (∀ (s : State), s.wpe.cycled = false ∨ s.wpe.fixed = true → exec .heelOutcome s = .next s) ∧
  (∀ (s : State), s.canonical = true → s.wpe.cycled = true → s.wpe.fixed = false →
    s.wpe.opened = false ∨ (s.wpe.cands.all fun c => c.traj.isNone) = true →
    Runs .heelOutcome s fun t =>
      t.wpe.fixed = true ∧ t.wpe.heel = s.wpe.heel ∧
      (s.heelOk = true → t.wpe = { s.wpe with fixed := true } ∧ t.mem = s.mem ∧ RegsBut [rHeelSt, rWpeStatus] s t) ∧
      (s.heelOk = false → t.bit rHeelSt 20 = true ∧ t.word (rWpeCnt 9) = (s.word (rWpeCnt 9) + 1) % 2 ^ 32)) ∧
  (∀ (s : State) (i : Nat) (c : HeelCand) (h : Traj), s.canonical = true → s.wpe.cycled = true → s.wpe.fixed = false →
    s.wpe.opened = true → s.wpe.cands[i]? = some c → c.traj = some h → c.stale = false → i < 4 →
    (∀ k, k < i → ∃ d, s.wpe.cands[k]? = some d ∧ d.traj = none) → h.corridor &&& s.wpe.chgHeel = 0 →
    Runs .heelOutcome s fun t =>
      t.wpe = { s.wpe with fixed := true, heel := some h, chgHf := s.wpe.chgHeel } ∧ t.fld rHeelSt 19 16 = i ∧
      t.word (rWpeCnt 7) = (s.word (rWpeCnt 7) + 1) % 2 ^ 32 ∧ t.fld rWpeStatus 5 4 = 3 ∧
      t.mem = s.mem ∧ RegsBut [rHeelSt, rWpeCnt 7, rWpeStatus, rWpe 0x54] s t) ∧
  (∀ (s : State), s.wpe.deadlineSig = none → exec .deadlineTack s = .next s) ∧
  (∀ (s : State) (x : Nat), s.wpe.deadlineSig = some x → s.bit (rWpe 0) 0 = false →
    exec .deadlineTack s = .next { s with wpe.deadlineSig := none }) ∧
  ∀ (s : State) (x code : Nat) (rr : Bool), s.canonical = true → s.wpe.deadlineSig = some x → s.bit (rWpe 0) 0 = true → s.wpe.run = none →
    s.wpe.results = [(s.wpe.t0, code, rr)] → code < 256 →
    Runs .deadlineTack s fun t =>
      t.wpe.deadlineSig = none ∧ t.wpe.lastRerun = rr ∧ t.wpe.plan = s.wpe.plan.map (fun p => { p with age := p.age + 1 }) ∧
      t.wpe.heel = s.wpe.heel.map (fun h => { h with age := h.age + 1 }) ∧ t.fld rWpeStatus 23 16 = code ∧
      t.word (rWpeCnt 10) = (s.word (rWpeCnt 10) + 1) % 2 ^ 32 ∧
      (code ≠ 0 → t.word (rWpeCnt 4) = (s.word (rWpeCnt 4) + 1) % 2 ^ 32) ∧
      (code = 0 → t.mem = s.mem ∧ t.word (rWpeCnt 4) = s.word (rWpeCnt 4) ∧
        (s.wpe.engaged = none → t.word (rWpeCnt 1) = (s.word (rWpeCnt 1) + 1) % 2 ^ 32 ∧ t.word (rWpeCnt 6) = s.word (rWpeCnt 6)))

/-- Front ends and their rings. -/
def Obligations.FrontEndsConsumeTheirCommandsInOrder : Prop :=
  (∀ (s : State) (m : Master) (inst : Option (Fin 64)) (f : Fin 2) (v : BitVec 16), s.canonical = true → s.feWriter m inst f = true →
    Runs (.rasFeTailWrite m inst f v) s fun t =>
      t.fld (rFe f 0x10) 15 0 = v.toNat ∧ t.bit (rFe f 0x18) 0 = t.feRuns f ∧ RegsBut [rFe f 0x10, rFe f 0x18] s t ∧ t.mem = s.mem ∧
      t.ras = s.ras ∧ t.resp = ⟨false, false, []⟩) ∧
  (∀ (s : State) (m : Master) (inst : Option (Fin 64)) (f : Fin 2) (v : BitVec 16), s.feWriter m inst f = false →
    exec (.rasFeTailWrite m inst f v) s = .next (s.refuse m 2 (rFe f 0x10)) ∧
    exec (.skipCmd m inst f) s = .next (s.refuse m 2 (rFe f 0x1C)) ∧ exec (.flush m inst f) s = .next (s.refuse m 2 (rFe f 0x1C))) ∧
  (∀ (s : State) (f : Fin 2), s.feRuns f = false →
    exec (.rasNop f) s = .next s ∧ exec (.beginPass f) s = .next s ∧ exec (.draw f) s = .next s ∧ exec (.endPass f) s = .next s ∧
    exec (.release f) s = .next s ∧ exec (.waitMem f) s = .next s ∧ exec (.waitMemPoll f) s = .next s ∧
    exec (.signalMem f) s = .next s ∧ exec (.splat f) s = .next s) ∧
  (∀ (s u : State) (f : Fin 2) (l : List Byte), s.canonical = true → s.feFetch f 0 = (u, some l) → zeroAt l 1 31 = true →
    Runs (.rasNop f) s fun t =>
      t.fld (rFe f 0x14) 15 0 = (u.fld (rFe f 0x14) 15 0 + 1) % 65536 ∧ t.bit (rFe f 0x18) 2 = u.bit (rFe f 0x18) 2 ∧
      RegsBut [rFe f 0x14, rFe f 0x18] u t ∧ t.mem = s.mem ∧ t.ras = s.ras) ∧
  (∀ (s u : State) (f : Fin 2) (l : List Byte), s.feFetch f 0 = (u, some l) → zeroAt l 1 31 = false →
    Runs (.rasNop f) s fun t =>
      t = u.feError f 2 ∧ t.fld (rFe f 0x14) 15 0 = u.fld (rFe f 0x14) 15 0) ∧
  (∀ (s u : State) (f : Fin 2) (l : List Byte), s.feFetch f 4 = (u, some l) → zeroAt l 1 3 = true → zeroAt l 6 2 = true →
    zeroAt l 0xC 20 = true →
    exec (.release f) s = .next (if leAt l 4 2 < 4096 then (u.feRelease f (leAt l 4 2) (leAt l 8 4)).feNext f else u.feError f 2)) ∧
  (∀ (s : State) (f : Fin 2), s.bit (rFe f 0x18) 1 = true → exec (.waitMem f) s = .next s) ∧
  (∀ (s : State) (f : Fin 2), s.bit (rFe f 0x18) 1 = false → exec (.waitMemPoll f) s = .next s) ∧
  (∀ (s u v : State) (f : Fin 2) (l d : List Byte) (waits : Bool), s.canonical = true → s.bit (rFe f 0x18) 1 = waits →
    s.feFetch f 5 = (u, some l) → zeroAt l 1 7 = true → zeroAt l 0x18 8 = true → leAt l 8 8 % 8 = 0 →
    u.rdV (u.feOwner f) (mRas f) 1 (leAt l 8 8) 8 = (v, .ok (d, false)) →
    Runs (if waits then .waitMemPoll f else .waitMem f) s fun t =>
      (leAt l 0x10 8 ≤ leNat d →
        t.fld (rFe f 0x14) 15 0 = (v.fld (rFe f 0x14) 15 0 + 1) % 65536 ∧ t.bit (rFe f 0x18) 1 = false) ∧
      (leNat d < leAt l 0x10 8 →
        t.fld (rFe f 0x14) 15 0 = v.fld (rFe f 0x14) 15 0 ∧ t.bit (rFe f 0x18) 1 = true ∧ t.bit (rFe f 0x18) 2 = v.bit (rFe f 0x18) 2) ∧
      RegsBut [rFe f 0x14, rFe f 0x18] v t ∧ t.mem = v.mem ∧ t.ras = v.ras) ∧
  (∀ (s u v : State) (f : Fin 2) (l : List Byte) (e : Option AccErr), s.canonical = true → s.feFetch f 6 = (u, some l) →
    zeroAt l 1 7 = true → zeroAt l 0x18 8 = true → leAt l 8 8 % 8 = 0 →
    u.wrV (u.feOwner f) (mRas f) (leAt l 8 8) (sliceBytes l 0x10 8) false = (v, e) →
    Runs (.signalMem f) s fun t =>
      (e = none → t.fld (rFe f 0x14) 15 0 = (v.fld (rFe f 0x14) 15 0 + 1) % 65536 ∧ RegsBut [rFe f 0x14, rFe f 0x18] v t ∧
        t.mem = v.mem ∧ t.ras = v.ras) ∧
      (∀ x, e = some x → t = v.feError f (accCode x))) ∧
  (∀ (s : State) (m : Master) (inst : Option (Fin 64)) (f : Fin 2), s.canonical = true → s.feWriter m inst f = true →
    (s.bit (rFe f 0x18) 2 = false → exec (.skipCmd m inst f) s = .next (s.respOk []) ∧ exec (.flush m inst f) s = .next (s.respOk [])) ∧
    (s.bit (rFe f 0x18) 2 = true →
      (Runs (.skipCmd m inst f) s fun t =>
        t.fld (rFe f 0x14) 15 0 = (s.fld (rFe f 0x14) 15 0 + 1) % 65536 ∧ t.fld (rFe f 0x18) 7 1 = 0 ∧
        RegsBut [rFe f 0x14, rFe f 0x18] s t ∧ t.mem = s.mem ∧ t.ras = s.ras) ∧
      Runs (.flush m inst f) s fun t =>
        t.fld (rFe f 0x14) 15 0 = s.fld (rFe f 0x10) 15 0 ∧ t.fld (rFe f 0x18) 7 0 = 0 ∧
        RegsBut [rFe f 0x14, rFe f 0x18] s t ∧ t.mem = s.mem ∧ t.ras = s.ras)) ∧
  (∀ (s : State) (f : Fin 2), (s.feOf f).events = [] → exec (.rasEventRetry f) s = .next s) ∧
  ∀ (s : State) (f : Fin 2) (ty : Nat) (l : List Byte), s.canonical = true → s.ras.fe.length = 2 → (s.feOf f).events = [(ty, l)] →
    (s.feQueue f = none → Runs (.rasEventRetry f) s fun t =>
      (t.feOf f).events = [] ∧ t.word (rFe f 0x38) = (s.word (rFe f 0x38) + 1) % 2 ^ 32 ∧ RegsBut [rFe f 0x38] s t ∧ t.mem = s.mem) ∧
    ∀ q x u r, s.feQueue f = some (q, x) → s.post q x.gen l = (u, r) →
      exec (.rasEventRetry f) s = .next (match r with
        | .full => u
        | .done => u.setFe f { u.feOf f with events := fmDel (u.feOf f).events ty }
        | .gone => (u.setFe f { u.feOf f with events := fmDel (u.feOf f).events ty }).bump (rFe f 0x38))

/-- Passes and splats. -/
def Obligations.FrontEndsDrawPassesAndSplats : Prop :=
  (∀ (s u : State) (f : Fin 2) (l : List Byte), s.feFetch f 1 = (u, some l) → zeroAt l 1 3 = true → zeroAt l 0x10 16 = true →
    leAt l 8 8 % 64 = 0 →
    (∀ p, (u.feOf f).pass = some p → Runs (.beginPass f) s fun t => t = u.feError f 3 ∧ (t.feOf f).pass = some p) ∧
    ∀ v d, (u.feOf f).pass = none → u.rdV (u.feOwner f) (mRas f) 1 (leAt l 8 8) 64 = (v, .ok (d, false)) →
      (targetOk d = true → v.ras.fe.length = 2 → v.canonical = true → Runs (.beginPass f) s fun t =>
        (t.feOf f).pass = some ⟨leAt l 4 4, d, [], 0, false⟩ ∧ (t.feOf f).events = (v.feOf f).events ∧
        t.fld (rFe f 0x14) 15 0 = (v.fld (rFe f 0x14) 15 0 + 1) % 65536 ∧ RegsBut [rFe f 0x14, rFe f 0x18] v t ∧ t.mem = v.mem) ∧
      (targetOk d = false → exec (.beginPass f) s = .next (v.feError f 2))) ∧
  (∀ (s u : State) (f : Fin 2) (l : List Byte), s.feFetch f 2 = (u, some l) → zeroAt l 1 3 = true → zeroAt l 0x18 8 = true →
    1 ≤ leAt l 4 4 → leAt l 4 4 ≤ 16777216 → leAt l 8 8 % 16 = 0 → drawStateOk (leAt l 0x10 4) = true →
    ((u.feOf f).pass = none → exec (.draw f) s = .next (u.feError f 3)) ∧
    ∀ p v q e, (u.feOf f).pass = some p → u.drawTris f (leAt l 8 8) (leAt l 0x14 4) (leAt l 0x10 4) p 0 (leAt l 4 4) = (v, q, e) →
      (e = none → v.ras.fe.length = 2 → v.canonical = true → Runs (.draw f) s fun t =>
        (t.feOf f).pass = some q ∧ t.fld (rFe f 0x14) 15 0 = (v.fld (rFe f 0x14) 15 0 + 1) % 65536 ∧
        RegsBut [rFe f 0x14, rFe f 0x18] v t ∧ t.mem = v.mem) ∧
      (∀ x, e = some x → v.ras.fe.length = 2 → Runs (.draw f) s fun t =>
        t = (v.setPass f (some q)).feError f (accCode x) ∧ (t.feOf f).pass = none)) ∧
  (∀ (s u : State) (f : Fin 2) (l : List Byte), s.feFetch f 3 = (u, some l) → zeroAt l 1 3 = true → zeroAt l 6 2 = true →
    zeroAt l 0x10 16 = true → leAt l 4 2 < 4096 → leAt l 8 8 % 64 = 0 →
    ((u.feOf f).pass = none → exec (.endPass f) s = .next (u.feError f 3)) ∧
    ∀ p v w, (u.feOf f).pass = some p → (u.passTiles f p).err = none →
      (u.passTiles f p).s.wrLong (u.feOwner f) (mRas f) (leAt l 8 8 + 16) (u.passTiles f p).list false = (v, none) →
      v.wrLong (v.feOwner f) (mRas f) (leAt l 8 8) (leBytes 4 ((u.passTiles f p).list.length / 16) ++ zeroBytes 12) false = (w, none) →
      let full := p.full && !(u.passTiles f p).list.isEmpty
      let x := (w.setPass f none).bump (rFe f 0x30)
      let y := if full || (u.passTiles f p).fragOvf then x.feEvent f 2 (b2n full + 2 * b2n (u.passTiles f p).fragOvf) p.id else x
      w.ras.fe.length = 2 → Runs (.endPass f) s fun t =>
        t = (y.feRelease f (leAt l 4 2) p.id).feNext f ∧ (t.feOf f).pass = none) ∧
  ∀ (s u v : State) (f : Fin 2) (l d : List Byte), s.feFetch f 7 = (u, some l) → zeroAt l 1 7 = true → zeroAt l 0x10 16 = true →
    leAt l 8 8 % 64 = 0 → u.rdLong (u.feOwner f) (mRas f) (leAt l 8 8) 96 = (v, .ok (d, false)) →
    (splatOk d = false → exec (.splat f) s = .next (v.feError f 2)) ∧
    (∀ w, splatOk d = true → v.splatPoints f d = (w, none) → w.canonical = true → Runs (.splat f) s fun t =>
      t.fld (rFe f 0x14) 15 0 = (w.fld (rFe f 0x14) 15 0 + 1) % 65536 ∧ RegsBut [rFe f 0x14, rFe f 0x18] w t ∧ t.mem = w.mem ∧
      t.ras = w.ras) ∧
    ∀ w x, splatOk d = true → v.splatPoints f d = (w, some x) → exec (.splat f) s = .next (w.feError f (accCode x))

/-- Display pipes. -/
def Obligations.DisplayPipesScanFlipAndLock : Prop :=
  (∀ (s : State) (m : Master) (inst : Option (Fin 64)) (p b : Fin 4) (x : Bool) (v : BitVec 32), s.pipeWriter m inst p = false →
    exec (.dpyPipeEnable m inst p x) s = .next (s.refuse m 2 (rPipe p 0)) ∧
    exec (.dpyPipeDisable m inst p x) s = .next (s.refuse m 2 (rPipe p 0)) ∧
    exec (.dpyPipeFlip m inst p b) s = .next (s.refuse m 2 (rPipe p 0xC)) ∧
    exec (.sideGo m inst p v) s = .next (s.refuse m 2 (rPipe p 0x80))) ∧
  (∀ (s : State) (m : Master) (inst : Option (Fin 64)) (p : Fin 4) (x : Bool), s.canonical = true → s.pipeWriter m inst p = true →
    (Runs (.dpyPipeEnable m inst p x) s fun t =>
      t.bit (rPipe p 0) 0 = true ∧ t.bit (rPipe p 0) 1 = x ∧ t.pipeState p = (if s.pipeState p = 0 then 1 else s.pipeState p) ∧
      RegsBut [rPipe p 0, rPipe p 4] s t ∧ t.mem = s.mem ∧ t.out = s.out ∧ t.dpy = s.dpy ∧ t.resp = ⟨false, false, []⟩) ∧
    Runs (.dpyPipeDisable m inst p x) s fun t =>
      t.bit (rPipe p 0) 0 = false ∧ t.bit (rPipe p 0) 1 = x ∧ t.pipeState p = (if s.pipeState p = 3 then 3 else 0) ∧
      RegsBut [rPipe p 0, rPipe p 4] s t ∧ t.mem = s.mem ∧ t.dpy = s.dpy ∧ t.resp = ⟨false, false, []⟩) ∧
  (∀ (s : State) (m : Master) (inst : Option (Fin 64)) (p b : Fin 4), s.canonical = true → s.dpy.pipes.length = 4 →
    s.pipeWriter m inst p = true → Runs (.dpyPipeFlip m inst p b) s fun t =>
      t.fld (rPipe p 0x10) 1 0 = b.val ∧ t.bit (rPipe p 0x10) 4 = true ∧ t.fld (rPipe p 0x10) 9 8 = s.fld (rPipe p 0x10) 9 8 ∧
      t.word (rPipe p 0x78) = (s.word (rPipe p 0x78) + b2n (s.bit (rPipe p 0x10) 4)) % 2 ^ 32 ∧
      t.dpyOf p = { s.dpyOf p with atDl := false } ∧ (∀ q, q ≠ p.val → t.dpyOf q = s.dpyOf q) ∧
      RegsBut [rPipe p 0x10, rPipe p 0x78] s t ∧ t.mem = s.mem) ∧
  (∀ (s : State) (p : Fin 4) (x : Bool) (l : List (BitVec 16 × BitVec 16)), s.pipeState p < 2 → exec (.dpyFrameStart p x l) s = .next s) ∧
  (∀ (s : State) (p : Fin 4) (x : Bool) (l : List (BitVec 16 × BitVec 16)), s.canonical = true → 2 ≤ s.pipeState p →
    s.bit (rPipe p 0) 0 = false →
    Runs (.dpyFrameStart p x l) s fun t =>
      t.pipeState p = 0 ∧ t.fld (rPipe p 4) 3 0 = 0 ∧ RegsBut [rPipe p 4] s t ∧ t.mem = s.mem ∧ t.dpy = s.dpy) ∧
  (∀ (s : State) (p : Fin 4) (x : Bool) (l : List (BitVec 16 × BitVec 16)), s.canonical = true → 2 ≤ s.pipeState p →
    s.bit (rPipe p 0) 0 = true → s.fld (rPipe p 0x48) 15 0 = 0 → (s.dpyOf p).latched = false →
    Runs (.dpyFrameStart p x l) s fun t =>
      t.pipeState p = 3 ∧ t.word (rPipe p 8) = 65536 * ((s.fld (rPipe p 8) 31 16 + 1) % 65536) ∧
      t.bit (rPipe p 4) 2 = (s.bit (rPipe p 0x5C) 0 && x && !s.lockOut p) ∧ t.bit (rPipe p 4) 3 = (s.bit (rPipe p 0x5C) 0 && s.lockOut p) ∧
      RegsBut [rPipe p 4, rPipe p 8, rDpyIrq] s t ∧ t.mem = s.mem ∧ t.dpy = s.dpy) ∧
  (∀ (s : State) (p : Fin 4), s.pipeState p ≠ 3 → exec (.dpyLineDl p) s = .next s ∧ exec (.dpyFlipLatch p) s = .next s) ∧
  (∀ (s : State) (p : Fin 4), s.canonical = true → s.pipeState p = 3 → s.dpy.pipes.length = 4 →
    (Runs (.dpyLineDl p) s fun t =>
      t.fld (rPipe p 8) 15 0 = s.fld (rPipe p 0x54) 15 0 ∧ t.fld (rPipe p 8) 31 16 = s.fld (rPipe p 8) 31 16 ∧
      t.dpyOf p = { s.dpyOf p with atDl := s.bit (rPipe p 0x10) 4 } ∧
      t.word (rPipe p 0x70) = (s.word (rPipe p 0x70) + b2n (!s.bit (rPipe p 0x10) 4 && s.bit (rPipe p 0) 1)) % 2 ^ 32 ∧
      RegsBut [rPipe p 8, rPipe p 0x70, rDpyIrq] s t ∧ t.mem = s.mem) ∧
    Runs (.dpyFlipLatch p) s fun t =>
      let go := (s.dpyOf p).atDl && s.bit (rPipe p 0x10) 4
      t.fld (rPipe p 8) 15 0 = s.fld (rPipe p 0x48) 15 0 ∧
      t.fld (rPipe p 0x10) 9 8 = (if go then s.fld (rPipe p 0x10) 1 0 else s.fld (rPipe p 0x10) 9 8) ∧
      t.bit (rPipe p 0x10) 4 = (s.bit (rPipe p 0x10) 4 && !go) ∧
      t.dpyOf p = (if go then { s.dpyOf p with atDl := false, latched := true } else s.dpyOf p) ∧
      RegsBut [rPipe p 8, rPipe p 0x10] s t ∧ t.mem = s.mem) ∧
  (∀ (s : State) (p : Fin 4), s.canonical = true →
    (s.bit (rPipe p 4) 2 = false → exec (.dpyLockLoss p) s = .next s) ∧
    Runs (.dpyLockLoss p) s fun t =>
      t.bit (rPipe p 4) 2 = false ∧ (s.bit (rPipe p 4) 2 = true → t.bit rDpyIrq (8 * p.val + 2) = true) ∧ t.pipeState p = s.pipeState p ∧
      RegsBut [rPipe p 4, rDpyIrq] s t ∧ t.mem = s.mem ∧ t.dpy = s.dpy) ∧
  (∀ (s : State) (m : Master) (inst : Option (Fin 64)) (p : Fin 4) (v : BitVec 32), s.canonical = true → s.pipeWriter m inst p = true →
    (s.bit (rPipe p 0x80) 31 = true → exec (.sideGo m inst p v) s = .next (s.respOk [])) ∧
    (s.bit (rPipe p 0x80) 31 = false → Runs (.sideGo m inst p v) s fun t =>
      t.fld (rPipe p 0x80) 31 30 = bitsOf v.toNat 31 30 ∧ t.fld (rPipe p 0x80) 28 24 = bitsOf v.toNat 28 24 ∧
      t.fld (rPipe p 0x80) 23 0 = v.toNat % 2 ^ 24 ∧ RegsBut [rPipe p 0x80] s t ∧ t.mem = s.mem ∧
      t.out.length = s.out.length + b2n (bitOf v.toNat 31) ∧ t.resp = ⟨false, false, []⟩)) ∧
  (∀ (s : State) (p : Fin 4) (d : List Byte), s.canonical = true →
    (s.bit (rPipe p 0x80) 31 = false → exec (.sideDone p d) s = .next s) ∧
    (s.bit (rPipe p 0x80) 31 = true → Runs (.sideDone p d) s fun t =>
      t.bit (rPipe p 0x80) 31 = false ∧ t.bit rDpyIrq (8 * p.val + 4) = true ∧
      (s.bit (rPipe p 0x80) 30 = true → d.length = 16 → s.fld (rPipe p 0x80) 28 24 = 15 → t.regBytes (rPipe p 0x90) 16 = d) ∧
      (s.bit (rPipe p 0x80) 30 = false → RegsBut [rPipe p 0x80, rDpyIrq] s t) ∧ t.mem = s.mem ∧ t.dpy = s.dpy)) ∧
  ∀ (s : State) (p : Fin 4), s.canonical = true →
    (2 ≤ p.val → exec (.hpdEvent p) s = .next s) ∧
    (p.val < 2 → Runs (.hpdEvent p) s fun t => t.bit rDpyIrq (8 * p.val + 3) = true ∧ RegsBut [rDpyIrq] s t ∧ t.mem = s.mem)

/-- Memory commands. -/
def Obligations.MemoryReadsWritesAndScrubbing : Prop :=
  (∀ (s u : State) (m : Master) (inst : Option (Fin 64)) (a : BitVec 64) (n : Fin 4097) (e : Fin 11) (o : Fin 4096) (y : BitVec 16),
    s.xlat inst m 1 a.toNat = (u, none) → exec (.memoryRead m inst a n e o y) s = .next u.respErr) ∧
  (∀ (s u : State) (m : Master) (inst : Option (Fin 64)) (a : BitVec 64) (l : List Byte) (b : Bool) (e : Fin 3) (o : Fin 4096)
    (y : BitVec 16), s.xlat inst m 2 a.toNat = (u, none) → exec (.memoryWrite m inst a l b e o y) s = .next u.respErr) ∧
  (∀ (s u : State) (m : Master) (inst : Option (Fin 64)) (a : BitVec 64) (n : Fin 4097) (e : Fin 11) (o : Fin 4096) (y : BitVec 16)
    (p : Nat), s.xlat inst m 1 a.toNat = (u, some p) →
    (∀ v, u.holdTile m false p n [] false = some v → exec (.memoryRead m inst a n e o y) s = .next v) ∧
    (u.holdTile m false p n [] false = none → u.mapAnswer m false p ≠ .served →
      Runs (.memoryRead m inst a n e o y) s fun t => t = u.mapRefuse m 1 p (u.mapAnswer m false p) ∧ t.resp.err = true) ∧
    (u.holdTile m false p n [] false = none → u.mapAnswer m false p = .served → (u.addrKind p).isStorage = true →
      u.winMeets p n = false → e.val = 0 ∨ n.val ≤ o.val → mKind m ≠ 1 ∨ u.poisoned p n = false →
      exec (.memoryRead m inst a n e o y) s = .next { u with resp := ⟨false, u.poisoned p n, u.bytes p n⟩ })) ∧
  (∀ (s u : State) (m : Master) (inst : Option (Fin 64)) (a : BitVec 64) (n : Fin 4097) (o : Fin 4096) (y : BitVec 16) (p : Nat),
    s.xlat inst m 1 a.toNat = (u, some p) → u.mapAnswer m false p = .served → u.addrKind p = .hbm → u.winMeets p n = false →
    o.val < n.val → u.addrKind (p + o) = .hbm → u.poison = [] →
    Runs (.memoryRead m inst a n 2 o y) s fun t =>
      t.resp.poison = true ∧ t.poison.contains (granOf (p + o)) = true ∧ t.bit (rMem 0) 1 = true ∧ t.atu = u.atu) ∧
  (∀ (s u : State) (m : Master) (inst : Option (Fin 64)) (a : BitVec 64) (l : List Byte) (b : Bool) (e : Fin 3) (o : Fin 4096)
    (y : BitVec 16) (p : Nat), s.xlat inst m 2 a.toNat = (u, some p) →
    (∀ v, u.holdTile m true p l.length l b = some v → exec (.memoryWrite m inst a l b e o y) s = .next v) ∧
    (u.holdTile m true p l.length l b = none → u.mapAnswer m true p ≠ .served →
      Runs (.memoryWrite m inst a l b e o y) s fun t => t = u.mapRefuse m 2 p (u.mapAnswer m true p) ∧ t.resp.err = true) ∧
    (u.holdTile m true p l.length l b = none → u.mapAnswer m true p = .served → (u.addrKind p).isStorage = true →
      isFwpModel m = false → u.winMeets p l.length = true →
      exec (.memoryWrite m inst a l b e o y) s = .next (u.winFault m 1 0 2 p).respErr) ∧
    (u.holdTile m true p l.length l b = none → u.mapAnswer m true p = .served → (u.addrKind p).isStorage = true →
      isFwpModel m = true ∨ u.winMeets p l.length = false → u.poison = [] → e.val = 0 →
      Runs (.memoryWrite m inst a l b e o y) s fun t =>
        t.resp = ⟨false, false, []⟩ ∧
        (b = false → t.bytes p l.length = l ∧ MemoryBut p l.length u t ∧ t.regs = u.regs ∧ t.poison = [] ∧ t.atu = u.atu) ∧
        (b = true → u.addrKind p = .hbm → l ≠ [] → t.poisoned p l.length = true))) ∧
  (∀ (s : State) (a : BitVec 64) (e : Fin 3) (y : BitVec 16), s.scrubKind a.toNat = none → exec (.scrubRead a e y) s = .next s) ∧
  (∀ (s : State) (a : BitVec 64) (e : Fin 3) (y : BitVec 16) (k : Nat), s.scrubKind a.toNat = some k →
    s.scrubPeriod k = 0 ∨ s.inSelfRef a.toNat = true → exec (.scrubRead a e y) s = .next s) ∧
  (∀ (s : State) (a : BitVec 64) (e : Fin 3) (y : BitVec 16) (k : Nat), s.scrubKind a.toNat = some k → s.scrubPeriod k ≠ 0 →
    s.inSelfRef a.toNat = false →
    Runs (.scrubRead a e y) s fun t =>
      let n := s.mc.scrubPos.getD k 0 + 1
      t.mc.scrubPos = setAt s.mc.scrubPos k (if n ≥ max 1 (s.scrubTotal k) then 0 else n) ∧
      (e.val = 0 → RegsBut [rMem 0x20] s t ∧ t.mem = s.mem ∧ t.poison = s.poison) ∧
      (e.val = 2 → s.addrKind a.toNat = .hbm → t.poison.contains (granOf a.toNat) = true)) ∧
  ∀ (s : State) (k : Fin 3), s.canonical = true →
    (s.scrubPeriod k = 0 ∨ s.bit (rMem 0x20) (24 + k) = true → exec (.scrubLate k) s = .next s) ∧
    (s.scrubPeriod k ≠ 0 → s.bit (rMem 0x20) (24 + k) = false → Runs (.scrubLate k) s fun t =>
      t.bit (rMem 0x20) (24 + k) = true ∧ t.bit (rMem 0) 6 = true ∧ t.mc.scrubPos = s.mc.scrubPos ∧
      t.now = max s.now (s.mc.scrubStart.getD k 0 + 60000000000 * s.scrubPeriod k * 5))

/-- The fabric. -/
def Obligations.FabricRequestsLinksAndAudits : Prop :=
  (∀ (s u : State) (p : Fin 32) (l : Fin 256) (m : Master) (inst : Option (Fin 64)) (a : BitVec 64) (n : BitVec 13) (w : Bool)
    (d : Option (BitVec 16)),
    (s.xlat inst m (if w then 2 else 1) a.toNat = (u, none) → exec (.fabricRequestIssue p l m inst a n w d) s = .next u) ∧
    ∀ pa, s.xlat inst m (if w then 2 else 1) a.toNat = (u, some pa) → inst = none ∨ u.bit (rLbl l 0) 22 = false ∨ 64 ≤ l.val →
      (64 ≤ (u.holdQueue p l).length → exec (.fabricRequestIssue p l m inst a n w d) s = .next u) ∧
      ((u.holdQueue p l).length < 64 → Runs (.fabricRequestIssue p l m inst a n w d) s fun t =>
        let own := (d.map fun x => x.toNat).getD 0
        t.holdQueue p l = u.holdQueue p l ++ [⟨p, l, n.toNat, w, m.toNat, u.now,
          if l.val < 64 then some (u.now + 64 * (if own = 0 then u.fld (rLbl l 0) 15 0 else own)) else none, u.destClass pa, none⟩] ∧
        (∀ k, k ≠ fabKey p l → fmGet t.fab.holdQ k = fmGet u.fab.holdQ k) ∧ t.fab.flight = u.fab.flight ∧ t.regs = u.regs ∧
        t.mem = u.mem)) ∧
  (∀ (s : State) (p : Fin 32) (l : Fin 256), s.holdQueue p l = [] → exec (.regulatorRelease p l) s = .next s) ∧
  (∀ (s : State) (p : Fin 32) (l : Fin 256) (q : FabReq) (r : List FabReq), s.canonical = true → s.holdQueue p l = q :: r →
    (s.regRate p l = 0 ∧ l.val < 64 ∨ s.regRate p l ≠ 0 ∧ s.regTokens p l < min ((125 * q.bytes : Nat) : Int) (s.regCap p l) →
      exec (.regulatorRelease p l) s = .next s) ∧
    (s.regRate p l = 0 ∧ 64 ≤ l.val ∨ s.regRate p l ≠ 0 ∧ min ((125 * q.bytes : Nat) : Int) (s.regCap p l) ≤ s.regTokens p l →
      Runs (.regulatorRelease p l) s fun t =>
        t.fab.flight = s.fab.flight ++ [{ q with released := some s.now }] ∧ t.fab.holdQ = (s.setHoldQueue p l r).fab.holdQ ∧
        t.word (rLbl l 0x1C) = max (min ((s.now - q.issue) / 64) 0xFFFFFFFF) (s.word (rLbl l 0x1C)) ∧
        (s.regRate p l ≠ 0 → fmGet t.fab.tok (fabKey p l) = some (s.regTokens p l - ((125 * q.bytes : Nat) : Int), s.now)) ∧
        (s.regRate p l = 0 → t.fab.tok = s.fab.tok) ∧ RegsBut [rLbl l 0x1C] s t ∧ t.mem = s.mem)) ∧
  (∀ (s : State) (p : Fin 32) (l : Fin 256) (c : Fin 5), (∀ q ∈ s.fab.flight, ¬(q.port = p.val ∧ q.label = l.val)) →
    exec (.requestComplete p l c) s = .next s) ∧
  (∀ (s : State) (p : Fin 32) (l : Fin 256) (c : Fin 5) (q : FabReq) (x y : List FabReq), s.canonical = true →
    s.fab.flight = x ++ q :: y → (∀ r ∈ x, ¬(r.port = p.val ∧ r.label = l.val)) → q.port = p.val → q.label = l.val →
    Runs (.requestComplete p l c) s fun t =>
      t.fab.flight = x ++ y ∧ t.word64 (rLbl l 0x10) = (s.word64 (rLbl l 0x10) + q.bytes) % 2 ^ 64 ∧
      ((∀ d, q.deadline = some d → s.now ≤ d) → RegsBut [rLbl l 0x10, rLbl l 0x14] s t ∧ t.mem = s.mem) ∧
      (∀ d, q.deadline = some d → d < s.now → t.word (rLbl l 8) = (s.word (rLbl l 8) + 1) % 2 ^ 32 ∧ t.bit (rFab 0x40) 31 = true)) ∧
  (∀ (s : State) (p : Fin 32) (l : Fin 256), 64 ≤ l.val → exec (.floorWindowEnd p l) s = .next s) ∧
  (∀ (s : State) (p : Fin 32) (l : Fin 256) (w n : Nat) (b : Bool), s.canonical = true → l.val < 64 →
    fmGet s.fab.floor (fabKey p l) = some (w, n, b) →
    let short := b && decide (n + 64 * s.regBurst p l < 16 * (s.regRate p l * s.fld (rLbl l 4) 15 0))
    Runs (.floorWindowEnd p l) s fun t =>
      t.now = max s.now (w + 4000 * s.fld (rLbl l 4) 15 0) ∧ fmGet t.fab.floor (fabKey p l) = some (t.now, 0, !(s.holdQueue p l).isEmpty) ∧
      (short = false → t.regs = s.regs ∧ t.mem = s.mem) ∧
      (short = true → t.word (rLbl l 0xC) = (s.word (rLbl l 0xC) + 1) % 2 ^ 32 ∧ t.bit (rFab 0x40) 31 = true)) ∧
  (∀ (s : State) (k : Fin 46), s.canonical = true →
    (s.fab.links.contains k.val = true → exec (.linkRetrain k) s = .next s) ∧
    (s.fab.links.contains k.val = false → Runs (.linkRetrain k) s fun t =>
      t.fab.links = insertNat k s.fab.links ∧ t.word (rFab 0x1C) = (s.word (rFab 0x1C) + 1) % 2 ^ 32)) ∧
  (∀ (s : State) (k : Fin 46), Runs (.fabricLinkRetrainDone k) s fun t =>
    t.fab.links = s.fab.links.filter (fun j => decide (j ≠ k.val)) ∧ t.fab.skew = fmDel s.fab.skew k ∧ t.fab.flight = s.fab.flight ∧
    t.regs = s.regs ∧ t.mem = s.mem) ∧
  (∀ (s : State), s.canonical = true →
    (s.fwp.safe = 0 → exec .auditStart s = .next s) ∧
    (s.fwp.safe ≠ 0 → Runs .auditStart s fun t =>
      t.now = max s.now (s.fab.auditAt + 4000000) ∧ t.fab.auditAt = t.now ∧ RegsBut [rFab 0x18, rFab 4] s t ∧ t.mem = s.mem ∧
      (s.fab.audit = none → t.fab.audit = some t.now ∧ t.fab.late = false ∧ t.bit (rFab 4) 0 = true ∧
        t.word (rFab 0x18) = s.word (rFab 0x18)) ∧
      (s.fab.audit ≠ none → t.fab.audit = s.fab.audit ∧ t.word (rFab 0x18) = (s.word (rFab 0x18) + 1) % 2 ^ 32))) ∧
  (∀ (s : State), s.fab.audit = none ∨ s.fab.links ≠ [] ∨ s.cel.held ≠ [] → exec .auditComplete s = .next s) ∧
  (∀ (s : State) (g : Nat), s.canonical = true → s.fab.audit ≠ none → s.fab.links = [] → s.cel.held = [] → g < 256 →
    (∀ h, h < 256 → h ≠ g → s.audited h = false) → s.fab.bad.contains g = false →
    let u := s.bump (rFab 0x10)
    Runs .auditComplete s fun t =>
      t.word (rFab 0x10) = (s.word (rFab 0x10) + 1) % 2 ^ 32 ∧ t.fab.audit = none ∧ t.fab.auditNo = t.word (rFab 0x10) ∧
      t.bit (rFab 4) 0 = false ∧ t.fld (rFab 4) 31 16 = t.word (rFab 0x10) % 65536 ∧
      (s.audited g = false → RegsBut [rFab 0x10, rFab 4] s t ∧ t.mem = s.mem) ∧
      (s.audited g = true →
        t.word (rLedger g 4) = u.ledgerConst g % 2 ^ 32 ∧ t.word (rLedger g 0x18) = t.word (rFab 0x10) ∧
        t.bit (rLedger g 0x14) 2 =
          decide ((u.ledgerHeld g + (u.ledgerOut g).1 + (u.ledgerOut g).2) % 2 ^ 32 ≠ u.ledgerConst g % 2 ^ 32))) ∧
  (∀ (s : State), s.fab.audit = none ∨ s.fab.late = true → exec .auditLate s = .next s) ∧
  (∀ (s : State) (x : Nat), s.canonical = true → s.fab.audit = some x → s.fab.late = false →
    Runs .auditLate s fun t =>
      t.fab.late = true ∧ t.now = max s.now (x + 800000) ∧ t.word (rFab 0x14) = (s.word (rFab 0x14) + 1) % 2 ^ 32 ∧
      t.bit rFabIrq 3 = true ∧ t.fab.audit = some x) ∧
  (∀ (s : State) (m : Master) (inst : Option (Fin 64)) (v : BitVec 32),
    (inst ≠ none ∨ s.sysWriter m = false → exec (.fabMissClr m inst v) s = .next (s.refuse m 2 (rFab 0x60))) ∧
    (s.canonical = true → inst = none → s.sysWriter m = true → Runs (.fabMissClr m inst v) s fun t =>
      t.bit (rFab 0x40) 31 = (s.bit (rFab 0x40) 31 && !bitOf v.toNat 0) ∧ t.fld (rFab 0x40) 30 0 = s.fld (rFab 0x40) 30 0 ∧
      RegsBut [rFab 0x40] s t ∧ t.mem = s.mem ∧ t.resp = ⟨false, false, []⟩)) ∧
  ∀ (s : State) (c : Fin 6) (x : Fin 3), s.canonical = true →
    (x.val = 0 → s.hcState c = 0 ∨ s.admHeld 4 c = 0 → exec (.clusterStateChange c x) s = .next s) ∧
    (x.val ≠ 0 ∨ s.hcState c ≠ 0 ∧ s.admHeld 4 c ≠ 0 → Runs (.clusterStateChange c x) s fun t =>
      t.hcState c = x.val ∧ t.bit (rDom (26 + c)) 17 = decide (x.val ≠ 0) ∧ (∀ k, k < 6 → k ≠ c.val → t.hcState k = s.hcState k) ∧
      t.pwr = (if x.val = 0 ∨ s.admHeld 4 c = 0 then s.pwr else ((s.setHc c x).admReturn 4 c (23 + c) (s.admHeld 4 c)).pwr) ∧
      RegsBut [rPwr 0x24, rDom (26 + c)] s t ∧ t.mem = s.mem)

/-- Instances and partner links. -/
def Obligations.InstancesInvalidationsAndLinks : Prop :=
  (∀ (s : State) (m : Master) (inst : Option (Fin 64)) (w : BitVec 64), s.canonical = true →
    let ok := match inst with
      | none => s.sysWriter m
      | some i => decide (2 ≤ w.toNat % 4) && decide (bitsOf w.toNat 13 8 = i.val)
    (ok = false → exec (.atuInv m inst w) s = .next (s.refuse m 2 (rAtu 0x18))) ∧
    (ok = true → Runs (.atuInv m inst w) s fun t =>
      t.atu = { s.atu with inv := s.atu.inv ++ [w.toNat] } ∧ t.bit (rAtu 0x20) 0 = true ∧ RegsBut [rAtu 0x20] s t ∧ t.mem = s.mem ∧
      t.resp = ⟨false, false, []⟩)) ∧
  (∀ (s : State), s.atu.inv = [] → exec .atuInvDone s = .next s) ∧
  (∀ (s : State) (w : Nat) (r : List Nat), s.canonical = true → s.atu.inv = w :: r →
    Runs .atuInvDone s fun t =>
      t.atu = { s.atu with inv := r, tlb := s.atu.tlb.filter fun e => !invHits w e } ∧ t.bit (rAtu 0x20) 0 = !r.isEmpty ∧
      t.bit (rAtu 4) 3 = true ∧ RegsBut [rAtu 0x20, rAtu 4] s t ∧ t.mem = s.mem) ∧
  (∀ (s : State) (m : Master) (i : Fin 64), s.sysWriter m = false →
    exec (.instanceReset m i) s = .next (s.refuse m 2 (rInst i 8)) ∧ exec (.instanceRemove m i) s = .next (s.refuse m 2 (rInst i 8)) ∧
    exec (.instanceAdd m i) s = .next (s.refuse m 2 (rInst i 8))) ∧
  (∀ (s : State) (m : Master) (i : Fin 64), s.canonical = true → s.sysWriter m = true → s.instState i = 0 →
    (∀ c ∈ [Instr.instanceReset m i, Instr.instanceRemove m i], Runs c s fun t =>
      t.bit (rInst i 8) 8 = true ∧ t.atu = s.atu ∧ RegsBut [rInst i 8] s t ∧ t.mem = s.mem ∧ t.resp = ⟨false, false, []⟩) ∧
    (s.instKind i = 0 → Runs (.instanceAdd m i) s fun t => t.bit (rInst i 8) 8 = true ∧ t.atu = s.atu ∧ RegsBut [rInst i 8] s t) ∧
    (s.instKind i ≠ 0 → Runs (.instanceAdd m i) s fun t =>
      t.instState i = 1 ∧ t.instGen i = (s.instGen i + 1) % 65536 ∧ t.instKind i = s.instKind i ∧ t.atu = s.atu ∧
      RegsBut [rInst i 0, rInst i 4] s t ∧ t.mem = s.mem ∧ t.resp = ⟨false, false, []⟩)) ∧
  (∀ (s : State) (m : Master) (i : Fin 64), s.sysWriter m = true → s.instKind i ≠ 0 →
    (s.instState i = 1 → exec (.instanceAdd m i) s = .next (s.respOk [])) ∧
    (2 ≤ s.instState i →
      exec (.instanceAdd m i) s = .next ({ s with atu.adds := insertNat i s.atu.adds }.respOk []))) ∧
  (∀ (s : State) (m : Master) (i : Fin 64) (was : Bool), s.sysWriter m = true → s.instState i ≠ 0 →
    s.atu.seqs.find? (fun p => p.1 = i.val) = some (i.val, was) → exec (.instanceReset m i) s = .next (s.respOk [])) ∧
  (∀ (s : State) (m : Master) (i : Fin 64), s.canonical = true → s.sysWriter m = true → s.instState i ≠ 0 →
    s.atu.seqs.find? (fun p => p.1 = i.val) = none →
    (Runs (.instanceReset m i) s fun t =>
      t.instState i = 2 ∧ t.instGen i = (s.instGen i + 1) % 65536 ∧ t.atu.seqs = s.atu.seqs ++ [(i.val, false)] ∧
      t.atu.tlb = s.atu.tlb.filter fun e => decide (e.inst ≠ i.val)) ∧
    Runs (.instanceRemove m i) s fun t =>
      t.instState i = 3 ∧ t.instGen i = (s.instGen i + 1) % 65536 ∧ t.atu.seqs = s.atu.seqs ++ [(i.val, true)] ∧
      t.atu.tlb = s.atu.tlb.filter fun e => decide (e.inst ≠ i.val)) ∧
  (∀ (s : State) (i : Fin 64), s.atu.seqs.find? (fun p => p.1 = i.val) = none ∨ s.instBusy i = true →
    exec (.resetDrainDone i) s = .next s) ∧
  (∀ (s : State) (i : Fin 64) (rm : Bool), s.canonical = true → s.atu.seqs.find? (fun p => p.1 = i.val) = some (i.val, rm) →
    s.instBusy i = false → s.pci.flr = [] → s.atu.adds.contains i.val = false →
    Runs (.resetDrainDone i) s fun t =>
      t.instState i = (if rm then 0 else 1) ∧ t.bit (rAtu 4) 2 = true ∧ t.atu.seqs = s.atu.seqs.filter (fun p => p.1 ≠ i.val) ∧
      RegsBut [rInst i 0, rAtu 4] s t ∧ t.mem = s.mem) ∧
  (∀ (s : State) (n : Fin 4) (g : Fin 8) (w : Fin 4) (f : Bool), s.canonical = true →
    (s.bit (rPciPort n 0) 0 = false ∨ s.bit (rPciPort n 4) 0 = true → exec (.pcieLinkUp n g w f) s = .next s) ∧
    (s.bit (rPciPort n 0) 0 = true → s.bit (rPciPort n 4) 0 = false → Runs (.pcieLinkUp n g w f) s fun t =>
      t.bit (rPciPort n 4) 0 = true ∧ t.fld (rPciPort n 4) 3 1 = min g.val (s.fld (rPciPort n 0) 4 2) ∧
      t.fld (rPciPort n 4) 5 4 = min w.val (s.fld (rPciPort n 0) 6 5) ∧ t.bit rPciIrq (8 * n.val) = true ∧
      RegsBut [rPciPort n 4, rPciIrq] s t ∧ t.mem = s.mem ∧ t.pci = s.pci)) ∧
  (∀ (s : State) (n : Fin 4), s.canonical = true →
    (s.bit (rPciPort n 4) 0 = false → exec (.pcieLinkDown n) s = .next s) ∧
    (s.bit (rPciPort n 4) 0 = true → Runs (.pcieLinkDown n) s fun t =>
      t.bit (rPciPort n 4) 0 = false ∧ t.fld (rPciPort n 0xC) 7 0 = (s.fld (rPciPort n 0xC) 7 0 + 1) % 256 ∧
      t.bit (rPciPort n 0x20) 31 = false ∧ t.bit rPciIrq (8 * n.val + 1) = true ∧
      t.pci.out = s.pci.out.filter fun q => decide (q.port ≠ n.val))) ∧
  (∀ (s : State) (n : Fin 4) (v : Fin 64), (s.portVfs n).find? (fun i => s.instVf i = v.val) = none →
    exec (.pcieFlr n v) s = .next s) ∧
  (∀ (s : State) (n : Fin 4) (v : Fin 64) (i : Nat), s.canonical = true → (s.portVfs n).find? (fun i => s.instVf i = v.val) = some i →
    (s.instState i = 0 → exec (.pcieFlr n v) s = .next s) ∧
    (s.instState i ≠ 0 → s.atu.seqs.find? (fun p => p.1 = i) = none → Runs (.pcieFlr n v) s fun t =>
      t.bit (rPciPort n 4) 23 = true ∧ t.bit rPciIrq (8 * n.val + 2) = true ∧ t.pci.flr = s.pci.flr ++ [(n.val, i)] ∧ t.instState i = 2)) ∧
  ∀ (s : State) (n : Fin 4) (e : Bool) (k : Fin 65), s.canonical = true →
    (s.portVfs n = [] → Runs (.vfEnableChange n e k) s fun t =>
      t.fld (rPciPort n 4) 22 16 = (if e then k.val else 0) ∧ RegsBut [rPciPort n 4] s t ∧ t.mem = s.mem ∧ t.atu = s.atu) ∧
    ∀ i, s.portVfs n = [i] → Runs (.vfEnableChange n e k) s fun t =>
      t.fld (rPciPort n 4) 22 16 = (if e then k.val else 0) ∧
      (e = true → s.instVf i < k.val → s.instState i = 0 → t.instState i = 1 ∧ t.instGen i = (s.instGen i + 1) % 65536) ∧
      (e = false ∨ k.val ≤ s.instVf i → s.instState i ≠ 0 → s.atu.seqs.find? (fun p => p.1 = i) = none → t.instState i = 3)

/-- Requests across a partner port. -/
def Obligations.PartnerPortsCarryRequestsBothWays : Prop :=
  (∀ (s u : State) (m : Master) (inst : Option (Fin 64)) (n : Fin 4) (w : Bool) (a : BitVec 40) (k : Fin 4097) (l : List Byte) (b : Bool),
    let va := portBase * (n.val + 1) + a.toNat
    (s.xlat inst m (if w then 2 else 1) va = (u, none) → exec (.pcieOutboundRequest m inst n w a k l b) s = .next u.respErr) ∧
    ∀ pa q, s.xlat inst m (if w then 2 else 1) va = (u, some pa) → u.addrKind pa = .port q →
      (u.portUp q = false → exec (.pcieOutboundRequest m inst n w a k l b) s = .next (u.refuse m (if w then 2 else 1) pa)) ∧
      (u.portUp q = true → w = true → b = false →
        exec (.pcieOutboundRequest m inst n w a k l b) s =
          .next ((u.emit (.pcie q (u.reqFn inst q) false 0 true (portOffset pa) l.length l)).respOk [])) ∧
      (u.portUp q = true → w = true → b = true → u.canonical = true → Runs (.pcieOutboundRequest m inst n w a k l b) s fun t =>
        t.out = (u.emit (.pcie q (u.reqFn inst q) true 0 true (portOffset pa) l.length l)).out ∧
        t.fld (rPciPort q 0x1C) 31 16 = min (u.fld (rPciPort q 0x1C) 31 16 + 1) 0xFFFF ∧ RegsBut [rPciPort q 0x1C] u t) ∧
      (u.portUp q = true → w = false → Runs (.pcieOutboundRequest m inst n w a k l b) s fun t =>
        let tag := u.pci.tags.getD q 0
        t.pci.out = u.pci.out ++ [⟨q, tag, inst.map fun i => i.val, u.genOf inst, m.toNat, k, false, u.now, none⟩] ∧
        t.pci.tags = setAt u.pci.tags q ((tag + 1) % 1024) ∧ t.out = (u.emit (.pcie q (u.reqFn inst q) false tag false (portOffset pa) k [])).out ∧
        t.regs = u.regs ∧ t.mem = u.mem)) ∧
  (∀ (s : State) (n : Fin 4) (tag : BitVec 14), s.pci.out.find? (fun q => q.port = n.val && q.tag = tag.toNat) = none →
    exec (.pcieCompletionTimeout n tag) s = .next s ∧
    ∀ e p l, exec (.pcieInboundCompletion n tag e p l) s = .next s) ∧
  (∀ (s : State) (n : Fin 4) (tag : BitVec 14) (q : PciReq), s.canonical = true →
    s.pci.out.find? (fun q => q.port = n.val && q.tag = tag.toNat) = some q →
    Runs (.pcieCompletionTimeout n tag) s fun t =>
      t.pci.out = s.pci.out.erase q ∧ t.now = max s.now (q.at_ + 4000000 * min 50 (2 ^ s.fld (rPciPort n 0) 27 24)) ∧
      t.bit rPciIrq (8 * n.val + 3) = true ∧ t.mem = s.mem ∧
      (q.cfg = false → t.resp.err = true ∧ (q.back = none → RegsBut [rPciIrq] s t)) ∧
      (q.cfg = true → t.word (rPciPort n 0x24) = 0xFFFFFFFF ∧ t.bit (rPciPort n 0x20) 31 = false ∧
        RegsBut [rPciIrq, rPciPort n 0x20, rPciPort n 0x24] s t)) ∧
  (∀ (s : State) (n : Fin 4) (tag : BitVec 14) (e p : Bool) (l : List Byte) (q : PciReq),
    s.pci.out.find? (fun q => q.port = n.val && q.tag = tag.toNat) = some q → q.cfg = false → q.back = none →
    (∀ i, q.inst = some i → s.instGen i = q.gen) → p = false →
    exec (.pcieInboundCompletion n tag e p l) s = .next (if e then ({ s with pci.out := s.pci.out.erase q } : State).respErr
      else { s with pci.out := s.pci.out.erase q, resp := ⟨false, false, sliceBytes l 0 q.len⟩ })) ∧
  (∀ (s : State) (m : Master) (n : Fin 4) (v : BitVec 32) (w : Bool), s.sysWriter m = false →
    exec (.pciCfgGo m n v w) s = .next (s.refuse m 2 (rPciPort n 0x20))) ∧
  (∀ (s : State) (m : Master) (n : Fin 4) (v : BitVec 32) (w : Bool), s.canonical = true → s.sysWriter m = true →
    (s.bit (rPciPort n 0x20) 31 = true → exec (.pciCfgGo m n v w) s = .next (s.respOk [])) ∧
    (s.bit (rPciPort n 0x20) 31 = false → Runs (.pciCfgGo m n v w) s fun t =>
      let go := bitOf v.toNat 31 && s.bit (rPciPort n 0) 1
      t.fld (rPciPort n 0x20) 28 0 = v.toNat % 2 ^ 29 ∧ t.bit (rPciPort n 0x20) 31 = (go && s.portUp n) ∧
      t.word (rPciPort n 0x24) = (if go && !s.portUp n then 0xFFFFFFFF else s.word (rPciPort n 0x24)) ∧
      t.pci.out = (if go && s.portUp n then
        s.pci.out ++ [⟨n, s.pci.tags.getD n 0, none, 0, m.toNat, 4, true, s.now, none⟩] else s.pci.out) ∧
      RegsBut [rPciPort n 0x20, rPciPort n 0x24] s t ∧ t.mem = s.mem ∧ t.resp = ⟨false, false, []⟩)) ∧
  (∀ (s : State) (n : Fin 4) (fn : Fin 256) (rid : BitVec 16) (bar : Fin 3) (k : Fin 5) (a : BitVec 64) (z : Fin 4097) (l : List Byte)
    (ep : Bool) (tag : BitVec 14),
    (s.portUp n = false → exec (.pcieInboundRequest n fn rid bar k a z l ep tag) s = .next s) ∧
    (s.canonical = true → s.portUp n = true → ep = false → k.val < 2 → s.bit (rPciPort n 0) 1 = false →
      (fn.val = 0 ∧ (bar.val ≠ 0 ∨ 2 ^ 20 ≤ a.toNat) ∨
        fn.val ≠ 0 ∧ (s.portVfs n).find? (fun i => decide (s.instVf i + 1 = fn.val)) = none) →
      Runs (.pcieInboundRequest n fn rid bar k a z l ep tag) s fun t =>
        t.mem = s.mem ∧
        (k.val = 0 → t.out = (s.emit (.pcieCpl n tag.toNat 1 false [])).out ∧
          t.word (rPciPort n 0x18) = (s.word (rPciPort n 0x18) + 1) % 2 ^ 32 ∧ RegsBut [rPciPort n 0x18] s t) ∧
        (k.val = 1 → t.out = s.out ∧ t.word (rPciPort n 0x14) = (s.word (rPciPort n 0x14) + 1) % 2 ^ 32 ∧
          t.bit rPciIrq (8 * n.val + 4) = true ∧ RegsBut [rPciPort n 0x14, rPciIrq] s t)) ∧
    (s.portUp n = true → ep = false → k.val = 0 → s.bit (rPciPort n 0) 1 = false → fn.val = 0 → bar.val = 0 → 0x4000 ≤ a.toNat →
      a.toNat < 2 ^ 20 → Runs (.pcieInboundRequest n fn rid bar k a z l ep tag) s fun t =>
        t.out = (s.emit (.pcieCpl n tag.toNat 0 false (zeroBytes z))).out ∧ t.regs = s.regs ∧ t.mem = s.mem) ∧
    ∀ i u v pa, s.portUp n = true → ep = false → k.val = 0 → s.bit (rPciPort n 0) 1 = false → fn.val ≠ 0 →
      (s.portVfs n).find? (fun i => decide (s.instVf i + 1 = fn.val)) = some i → s.instState i = 1 → bar.val = 2 →
      a.toNat < 2 ^ (30 + s.fld (rPciPort n 0) 31 28) →
      s.xlatBy i (BitVec.ofNat 16 (0x4000 + 1024 * n.val + fn.val)) 1 a.toNat true = (u, some pa) →
      u.mapAccess (BitVec.ofNat 16 (0x4000 + 1024 * n.val + fn.val)) (asInst i) false pa z l false = v →
      v.heldAcc.length ≤ u.heldAcc.length → v.pci.out.length ≤ u.pci.out.length → v.resp.err = false →
      exec (.pcieInboundRequest n fn rid bar k a z l ep tag) s = .next (v.emit (.pcieCpl n tag.toNat 0 v.resp.poison v.resp.data)))

/-- Hardware queues. -/
def Obligations.HardwareQueuesRingPostAndChangeState : Prop :=
  (∀ (s : State) (m : Master) (inst : Option (Fin 64)) (g : BitVec 16) (v : BitVec 64),
    let q := v.toNat % 2 ^ 19
    let w := v.toNat / 2 ^ 32
    (fmGet s.hqm.queues q = none → exec (.hqmDoorbell m inst g v) s = .next (s.qerr q 1 m inst w).respErr) ∧
    ∀ x, fmGet s.hqm.queues q = some x →
      let head := bitOf w 31
      let new := if head then (x.tail + 2 ^ 17 - w % 2 ^ 17) % 2 ^ 17 else (w % 2 ^ 17 + 2 ^ 17 - x.head) % 2 ^ 17
      let bad := bitsOf w 30 17 ≠ 0 ∨ x.size < new ∨ (if head then x.count < new else new < x.count)
      let mine := inst = none ∨ isInst inst x.owner = true ∧ (if head then x.consSys else x.prodSys) = false
      (x.faulted = true → exec (.hqmDoorbell m inst g v) s = .next (s.qerr q 1 m inst w).respErr) ∧
      (x.faulted = false → ¬mine → exec (.hqmDoorbell m inst g v) s = .next (s.qerr q 2 m inst w).respErr) ∧
      (x.faulted = false → mine → inst ≠ none → g.toNat ≠ x.gen →
        exec (.hqmDoorbell m inst g v) s = .next ((s.bump (rHqm 0x20)).respOk [])) ∧
      (x.faulted = false → mine → inst = none ∨ g.toNat = x.gen →
        (bad → exec (.hqmDoorbell m inst g v) s = .next ((s.qerr q 4 m inst w).respOk [])) ∧
        (¬bad → head = true → Runs (.hqmDoorbell m inst g v) s fun t =>
          fmGet t.hqm.queues q = some { x with head := w % 2 ^ 17 } ∧
          t.bytes (s.qEntry q + 0x10) 8 = leBytes 4 x.tail ++ leBytes 4 (w % 2 ^ 17) ∧ MemoryBut (s.qEntry q + 0xE) 10 s t ∧
          t.regs = s.regs ∧ t.out = s.out ∧ t.resp = ⟨false, false, []⟩) ∧
        (¬bad → head = false → w % 2 ^ 17 = x.tail → exec (.hqmDoorbell m inst g v) s = .next (s.respOk [])) ∧
        (¬bad → head = false → w % 2 ^ 17 ≠ x.tail → Runs (.hqmDoorbell m inst g v) s fun t =>
          t = (s.advanceTail q x (w % 2 ^ 17)).respOk [] ∧ fmGet t.hqm.queues q = some { x with tail := w % 2 ^ 17 }))) ∧
  (∀ (s : State) (q : Fin 524288) (g : BitVec 16) (l : List Byte),
    (fmGet s.hqm.queues q = none → exec (.hqmPost q g l) s = .next (s.qerr q 1 mHqm none 0)) ∧
    ∀ x, fmGet s.hqm.queues q = some x →
      (g.toNat ≠ x.gen → exec (.hqmPost q g l) s = .next (s.bump (rHqm 0x20))) ∧
      (g.toNat = x.gen → x.faulted = true ∨ x.prodSys = false →
        exec (.hqmPost q g l) s = .next (s.qerr q 5 mHqm (asInst x.owner) 0)) ∧
      (g.toNat = x.gen → x.faulted = false → x.prodSys = true →
        (x.size ≤ x.count →
          exec (.hqmPost q g l) s = .next { s with hqm.posts := s.hqm.posts ++ [⟨q, g.toNat, l⟩] }) ∧
        (x.count < x.size → x.entryBytes < l.length → exec (.hqmPost q g l) s = .next (s.qerr q 3 mHqm (asInst x.owner) 0)) ∧
        ∀ u, x.count < x.size → l.length ≤ x.entryBytes →
          s.wrV (asInst x.owner) mHqm (x.base + x.tail % x.size * x.entryBytes) (sliceBytes l 0 x.entryBytes) false = (u, none) →
          Runs (.hqmPost q g l) s fun t =>
            t = u.advanceTail q x ((x.tail + 1) % 2 ^ 17) ∧ fmGet t.hqm.queues q = some { x with tail := (x.tail + 1) % 2 ^ 17 })) ∧
  (∀ (s : State) (q : Fin 524288), (∀ p ∈ s.hqm.posts, p.qid ≠ q.val) → exec (.hqmPostRetry q) s = .next s) ∧
  (∀ (s u : State) (q : Fin 524288) (g : Nat) (l : List Byte) (a b : List HqmPost) (r : PostResult), s.hqm.posts = a ++ ⟨q, g, l⟩ :: b →
    (∀ p ∈ a, p.qid ≠ q.val) → s.post q g l = (u, r) → Runs (.hqmPostRetry q) s fun t =>
      (r = .full → t = s) ∧ (r ≠ .full → t.hqm.posts = a ++ b ∧ t.hqm.queues = u.hqm.queues ∧ t.regs = u.regs ∧ t.mem = u.mem)) ∧
  (∀ (s : State) (m : Master) (inst : Option (Fin 64)) (q : Fin 524288), inst ≠ none ∨ s.sysWriter m = false →
    exec (.qcmdEnable m inst q) s = .next (s.refuse m 2 (rHqm 0x18)) ∧ exec (.qcmdDisable m inst q) s = .next (s.refuse m 2 (rHqm 0x18)) ∧
    exec (.qcmdClearFault m inst q) s = .next (s.refuse m 2 (rHqm 0x18))) ∧
  ∀ (s : State) (m : Master) (q : Fin 524288), s.canonical = true → s.sysWriter m = true →
    (let l := s.bytes (s.qEntry q) 32
     let x := qOfEntry l
     let ok := s.bit (rHqm 0) 0 && s.qValid l && !s.poisoned (s.qEntry q) 32 && decide (x.count = 0) &&
       (match fmGet s.hqm.queues q with | some o => decide (o.count = 0) | none => true)
     Runs (.qcmdEnable m none q) s fun t =>
       t.bit (rHqm 0x1C) 1 = !ok ∧ t.bit (rHqm 4) 2 = true ∧ t.resp = ⟨false, false, []⟩ ∧ RegsBut [rHqm 0x1C, rHqm 4] s t ∧
       (ok = false → t.hqm = s.hqm ∧ t.mem = s.mem) ∧
       (ok = true → fmGet t.hqm.queues q = some { x with gen := s.instGen x.owner, flags := x.flags ||| 1 } ∧
         t.bytes (s.qEntry q + 0xA) 1 = leBytes 1 (x.flags ||| 1) ∧ MemoryBut (s.qEntry q + 0xA) 14 s t)) ∧
    (Runs (.qcmdDisable m none q) s fun t =>
      t.bit (rHqm 4) 2 = true ∧ RegsBut [rHqm 0x1C, rHqm 4] s t ∧
      (fmGet s.hqm.queues q = none → t.bit (rHqm 0x1C) 1 = false ∧ t.hqm = s.hqm ∧ t.mem = s.mem) ∧
      (∀ x, fmGet s.hqm.queues q = some x →
        (x.count ≠ 0 → t.bit (rHqm 0x1C) 1 = true ∧ t.hqm = s.hqm ∧ t.mem = s.mem) ∧
        (x.count = 0 → t.bit (rHqm 0x1C) 1 = false ∧ t.hqm.queues = fmDel s.hqm.queues q ∧
          t.bytes (s.qEntry q + 0xA) 1 = leBytes 1 (x.flags / 2 * 2) ∧ MemoryBut (s.qEntry q + 0xA) 1 s t))) ∧
    Runs (.qcmdClearFault m none q) s fun t =>
      t.bit (rHqm 0x1C) 1 = false ∧ t.bit (rHqm 4) 2 = true ∧ RegsBut [rHqm 0x1C, rHqm 4] s t ∧ t.mem = s.mem ∧
      fmGet t.hqm.queues q = (fmGet s.hqm.queues q).map fun x => { x with faulted := false }

/-- Clock failures. -/
def Obligations.ClockFailuresAndPllsShowAndRecord : Prop :=
  (∀ (s : State), s.canonical = true →
    (Runs .refclkLoss s fun t =>
      t.bit (rCkg 0x10) 0 = false ∧ t.bit (rCkg 0) 1 = true ∧ t.bit rFltHold 0 = true ∧ Faulted 0x0B 4 s t) ∧
    (Runs .refclkRecover s fun t =>
      t.bit (rCkg 0x10) 0 = true ∧ t.bit rFltHold 0 = false ∧ t.fld rFltHold 2 1 = s.fld rFltHold 2 1 ∧
      RegsBut [rCkg 0x10, rFltHold] s t ∧ t.mem = s.mem) ∧
    (Runs .ptpRefinFail s fun t =>
      t.bit (rCkg 0x10) 1 = false ∧ t.bit (rCkg 0x10) 3 = true ∧ t.bit (rCkg 0) 2 = true ∧
      (∀ c, c < 4 → t.bit (rPtpClk c 4) 4 = true ∧ t.bit (blkBase bPTP) (8 * c + 4) = true) ∧ Faulted 0x0C 3 s t) ∧
    (Runs .ptpRefinRecover s fun t =>
      t.bit (rCkg 0x10) 1 = true ∧ t.bit (rCkg 0x10) 3 = false ∧ (∀ c, c < 4 → t.bit (rPtpClk c 4) 4 = false) ∧
      RegsBut [rCkg 0x10, rPtpClk 0 4, rPtpClk 1 4, rPtpClk 2 4, rPtpClk 3 4] s t ∧ t.mem = s.mem) ∧
    (Runs .safeXinFail s fun t =>
      t.bit (rCkg 0x10) 2 = false ∧ t.bit rFltState stRing = true ∧
      (∀ n, n < 6 → t.pairState n = (if s.pairState n = 4 then 4 else 3) ∧ (s.pairState n ≠ 4 → t.eligible n = false)) ∧
      Faulted 0x0D 5 s t) ∧
    Runs .safeXinReturn s fun t =>
      t.bit (rCkg 0x10) 2 = true ∧ (∀ k, k ≠ 2 → t.bit (rCkg 0x10) k = s.bit (rCkg 0x10) k) ∧ RegsBut [rCkg 0x10] s t ∧ t.mem = s.mem) ∧
  (∀ (s : State) (d : Fin 48), s.canonical = true →
    (Runs (.pllLockLoss d) s fun t =>
      t.bit (rDom d) 16 = false ∧ t.bit (rDom d) 18 = true ∧ t.word (rDom d + 4) = (s.word (rDom d + 4) + 1) % 2 ^ 32 ∧
      t.bit (rCkg 0) 0 = true ∧ Faulted 0x22 (if 35 ≤ d.val ∧ d.val ≤ 42 ∨ d.val = 47 then 3 else 4) s t) ∧
    (s.bit (rDom d) 18 = false → exec (.pllRelock d) s = .next s) ∧
    (s.bit (rDom d) 18 = true → Runs (.pllRelock d) s fun t =>
      t.bit (rDom d) 16 = true ∧ t.bit (rDom d) 18 = false ∧
      (16 ≤ d.val → RegsBut [rDom d] s t ∧ t.mem = s.mem ∧ t.cel = s.cel) ∧
      (d.val < 16 → ∀ j, j < 16 → let c := d.val * 16 + j
        s.cellState c ≠ csABSENT → s.cellState c ≠ csOFF → s.cellState c ≠ csSUBST → t.cel.held.contains c = true))) ∧
  ∀ (s : State) (p : Fin 16) (x y : Bool), s.canonical = true →
    (s.bit (rSfePort p 0) 0 = false ∨ 2 ≤ s.fld (rSfePort p 0) 2 1 → exec (.phySyncChange p x y) s = .next s) ∧
    (s.bit (rSfePort p 0) 0 = true → s.fld (rSfePort p 0) 2 1 ≤ 1 → Runs (.phySyncChange p x y) s fun t =>
      t.bit (rSfePort p 4) 0 = x ∧ t.bit (rSfePort p 4) 1 = y ∧ RegsBut [rSfePort p 4] s t ∧ t.mem = s.mem ∧ t.sfe = s.sfe)

/-- Lockstep pairs. -/
def Obligations.SafetyPairsTestVoteAndSplit : Prop :=
  (∀ (s : State) (n : Fin 6) (p : Fin 4) (b : Fin 2048) (pc : BitVec 32), s.pairState n ≠ 2 →
    exec (.lockstepMismatch n p b pc) s = .next s) ∧
  (∀ (s : State) (n : Fin 6) (p : Fin 4) (b : Fin 2048) (pc : BitVec 32), s.canonical = true → s.pairState n = 2 → s.twn.mism.length = 6 →
    Runs (.lockstepMismatch n p b pc) s fun t =>
      let again := match s.twn.mism.getD n none with | some x => decide (s.now - x < 14400000000000) | none => false
      t.pairState n = (if again then 4 else 1) ∧ t.eligible n = false ∧ t.word (rPair n 8) = (s.word (rPair n 8) + 1) % 2 ^ 32 ∧
      t.twn.mism.getD n none = some s.now ∧ t.twn.dead = (if again then setAt s.twn.dead n true else s.twn.dead) ∧
      t.bit (rPair n 0x18) 13 = true ∧ t.bit rTwnIrq 0 = true ∧ Faulted n (if s.pairMask n then 4 else 3) s t) ∧
  (∀ (s : State) (n : Fin 6) (x : Bool), s.pairState n ≠ 1 → exec (.pairRetestDone n x) s = .next s) ∧
  (∀ (s : State) (n : Fin 6) (x : Bool), s.canonical = true → s.pairState n = 1 → s.twn.attachWait.getD n false = false →
    Runs (.pairRetestDone n x) s fun t =>
      let ring := s.bit rFltState stRing
      t.pairState n = (if x then (if ring then 3 else 2) else 4) ∧ t.eligible n = (x && !ring) ∧ t.bit rTwnIrq 2 = true ∧
      t.twn.a0 = (if x then setAt s.twn.a0 n 1 else s.twn.a0) ∧ t.twn.dead = (if x then s.twn.dead else setAt s.twn.dead n true) ∧
      Faulted 7 (if x then 1 else 3) s t) ∧
  (∀ (s : State) (m : Master) (n : Fin 6), s.isIsland m = false → exec (.retest m n) s = .next (s.refuse m 2 (rPair n 4))) ∧
  (∀ (s : State) (m : Master) (n : Fin 6), s.canonical = true → s.isIsland m = true →
    Runs (.retest m n) s fun t =>
      t.pairState n = (if s.pairState n = 2 ∨ s.pairState n = 3 then 1 else s.pairState n) ∧ t.mem = s.mem ∧ t.twn = s.twn ∧
      RegsBut [rPair n 0, rTwn 0, rFltHold] s t ∧ t.resp = ⟨false, false, []⟩) ∧
  (∀ (s : State) (n : Fin 6) (i : BitVec 16) (r : List (Bool × Bool)), s.canonical = true →
    (∀ v, voteValue 4 r = some v → Runs (.inputVote n i r) s fun t =>
      t.out = (s.emit (.pairInput n i.toNat v)).out ∧ t.word (rPair n 0xC) = (s.word (rPair n 0xC) + 1) % 2 ^ 32 ∧
      RegsBut [rPair n 0xC] s t ∧ t.mem = s.mem ∧ t.twn = s.twn) ∧
    (voteValue 4 r = none → Runs (.inputVote n i r) s fun t =>
      t.word (rPair n 0xC) = (s.word (rPair n 0xC) + 1) % 2 ^ 32 ∧ t.word (rPair n 0x10) = (s.word (rPair n 0x10) + 1) % 2 ^ 32 ∧
      t.bit rTwnIrq 1 = true ∧ Faulted 6 3 s t ∧ t.out = (s.emit (.pairInput n i.toNat false)).out)) ∧
  (∀ (s : State), s.fwp.safe ≠ 1 → exec .startupTest s = .next s) ∧
  (∀ (s : State), s.canonical = true → s.fwp.safe = 1 → (s.fwp.segs.getD 6 []).length ≤ 0x800000 →
    Runs .startupTest s fun t =>
      t.fwp.safe = 2 ∧ (∀ n, n < 6 → t.pairState n = (if s.twn.dead.getD n false then 4 else 1) ∧ t.eligible n = false) ∧
      t.bytes sramBase (s.fwp.segs.getD 6 []).length = s.fwp.segs.getD 6 [] ∧
      (∀ a, a < sramBase ∨ sramBase + 0x800000 ≤ a → t.byte a = s.byte a) ∧
      (∀ a, sramBase + (s.fwp.segs.getD 6 []).length ≤ a → a < sramBase + 0x800000 → t.byte a = 0) ∧ t.bit (rTwn 0) 24 = false) ∧
  (∀ (s : State) (x : BitVec 6), s.fwp.safe ≠ 2 → exec (.startupTestDone x) s = .next s) ∧
  (∀ (s : State) (x : BitVec 6), s.canonical = true → s.fwp.safe = 2 → s.fwp.boot ≠ 5 → s.bit (rSys 4) 8 = false →
    s.twn.attachWait = List.replicate 6 false → (∀ n, n < 6 → s.pairState n = 1) →
    Runs (.startupTestDone x) s fun t =>
      let ring := s.bit rFltState stRing
      t.fwp.safe = 3 ∧ (∀ n, n < 6 → t.pairState n = (if bitOf x.toNat n then (if ring then 3 else 2) else 4) ∧
        t.eligible n = (bitOf x.toNat n && !ring)) ∧
      t.bit (rTwn 0) 24 = true ∧ t.word (rTwn 0x400) = 0 ∧ t.word (rTwn 0x404) = 0 ∧
      t.word (rFlt (0x100 + 7 * 4)) = (s.word (rFlt (0x100 + 7 * 4)) + 6) % 2 ^ 32) ∧
  ∀ (s : State) (n : Fin 6),
    (s.bit (blkBase bSEC) 3 = false → exec (.debugSplit n) s = .next s) ∧
    (s.bit (blkBase bSEC) 3 = true → s.pairState n = 1 →
      exec (.debugSplit n) s = .next { s with twn.attachWait := setAt s.twn.attachWait n true }) ∧
    (s.bit (blkBase bSEC) 3 = true → s.pairState n = 5 → exec (.debugSplit n) s = .next s) ∧
    (s.canonical = true → s.bit (blkBase bSEC) 3 = true → s.pairState n ≠ 1 → s.pairState n ≠ 5 → Runs (.debugSplit n) s fun t =>
      t.pairState n = 5 ∧ t.bit (rPair n 0) 5 = true ∧ t.bit (rTwn 0) n = true ∧ t.eligible n = false ∧ t.bit rTwnIrq 3 = true ∧
      t.twn.attachWait = setAt s.twn.attachWait n false ∧ Faulted 0x0F (if s.pairMask n then 4 else 3) s t)

/-- The fault collector. -/
def Obligations.FaultsAreRecordedAndClassesExit : Prop :=
  (∀ (s : State) (r : BitVec 2) (src : Fin 64) (c a : Fin 8) (m : Master) (u : BitVec 16) (i : BitVec 32) (d : BitVec 64),
    (r.toNat = 1 ∨ c.val = 0 ∨ 5 < c.val → exec (.faultEvent r src c a m u i d) s = .next s) ∧
    (s.canonical = true → r.toNat ≠ 1 → 1 ≤ c.val → c.val ≤ 5 → Runs (.faultEvent r src c a m u i d) s fun t =>
      (c.val = 3 ∨ r.toNat ≠ 2 → t.bit rFltState stD = true) ∧ (c.val = 4 → t.bit rFltState stS = true) ∧
      (c.val = 5 → t.bit rFltState stL = true) ∧
      (r.toNat = 2 → Faulted src c s t ∧
        (∃ rcd, t.regBytes (rFlt (0x300 + (c.val - 1) * 0x20)) 32 = rcd ∧ leAt rcd 4 1 = src.val ∧ leAt rcd 5 1 = c.val ∧
          leAt rcd 8 2 = m.toNat ∧ leAt rcd 10 2 = u.toNat ∧ leAt rcd 12 4 = i.toNat ∧ leAt rcd 16 8 = d.toNat)) ∧
      (r.toNat ≠ 2 → t.word (rFlt (0x100 + 0x0E * 4)) = (s.word (rFlt (0x100 + 0x0E * 4)) + (if src.val = 0x0E then 2 else 1)) % 2 ^ 32))) ∧
  (∀ (s : State) (m : Master) (d : BitVec 64),
    ((isFwp m || s.isEligiblePair m) = false → exec (.swReport m d) s = .next (s.refuse m 2 (rFlt 0x50))) ∧
    ((isFwp m || s.isEligiblePair m) = true → d.toNat % 8 = 0 ∨ 6 ≤ d.toNat % 8 →
      exec (.swReport m d) s = .next (s.ignoreWr m (rFlt 0x50))) ∧
    (s.canonical = true → (isFwp m || s.isEligiblePair m) = true → 1 ≤ d.toNat % 8 → d.toNat % 8 ≤ 5 → Runs (.swReport m d) s fun t =>
      let c := if d.toNat % 8 = 5 ∧ s.isEligiblePair m = false then 4 else d.toNat % 8
      Faulted 0x29 c s t ∧ t.resp = ⟨false, false, []⟩ ∧
      ∃ rcd, t.regBytes (rFlt (0x300 + (c - 1) * 0x20)) 32 = rcd ∧ leAt rcd 8 2 = m.toNat ∧ leAt rcd 12 4 = bitsOf d.toNat 31 8)) ∧
  (∀ (s : State), s.canonical = true →
    (s.bit rFltState stD = false → exec .classDExit s = .next s) ∧
    (s.bit rFltState stD = true → Runs .classDExit s fun t =>
      t.bit rFltState stD = false ∧ t.now = max s.now (s.flt.dLast + s.quiet) ∧
      t.fld (rFlt 0x18) 15 0 = min (s.fld (rFlt 0x18) 15 0 + 1) 0xFFFF ∧ t.bit rFltIrq 3 = true ∧ t.fld rFltState 2 0 = t.fcCode ∧
      RegsBut [rFltState, rFlt 0x18, rFltIrq] s t ∧ t.mem = s.mem)) ∧
  (∀ (s : State), s.bit rFltState stS = false ∨ s.fld rFltHold 2 0 ≠ 0 ∨ s.bit (rFlt 0) 26 = false →
    exec .classSExit s = .next s) ∧
  (∀ (s : State), s.canonical = true → s.bit rFltState stS = true → s.fld rFltHold 2 0 = 0 → s.bit (rFlt 0) 26 = true →
    s.bit rFltState stL = false →
    Runs .classSExit s fun t =>
      let u := s.timeTo (s.flt.sLast + s.quiet)
      t.now = u.now ∧ (u.recentExits.length < 8 → t.bit rFltState stS = false ∧ t.wpe.engaged = none ∧
        t.word (rFlt 0x1C) = (s.word (rFlt 0x1C) + 1) % 2 ^ 32 ∧ t.bit rFltIrq 5 = true ∧ t.flt.sExits = (u.now :: u.recentExits).take 8 ∧
        t.bit rFltState stSafeN = (s.bit rFltState stSafeN || s.flt.started) ∧ t.mem = s.mem ∧
        RegsBut [rFltState, rFlt 0x1C, rFltIrq, rWpeStatus] s t) ∧
      (8 ≤ u.recentExits.length → t.bit rFltState stL = true ∧ t.bit rFltState stS = true)) ∧
  (∀ (s : State) (m : Master), s.isIsland m = false →
    exec (.sExit m) s = .next (s.refuse m 2 (rFlt 8)) ∧ exec (.clrFirst m) s = .next (s.refuse m 2 (rFlt 8)) ∧
    ∀ v, exec (.alarmTailWrite m v) s = .next (s.refuse m 2 (rFlt 0x34))) ∧
  (∀ (s : State) (m : Master), s.canonical = true → s.isIsland m = true →
    (s.bit rFltState stL = true ∨ s.bit rFltState stS = true ∧ s.sExitReady = false → Runs (.sExit m) s fun t =>
      t.bit rFltState stRefused = true ∧ t.bit rFltState stS = s.bit rFltState stS ∧ RegsBut [rFltState] s t ∧ t.mem = s.mem) ∧
    (s.bit rFltState stL = false → s.bit rFltState stS = false → exec (.sExit m) s = .next (s.respOk [])) ∧
    (s.bit rFltState stL = false → s.bit rFltState stS = true → s.sExitReady = true → exec (.sExit m) s = .next (s.sExit.respOk []))) ∧
  (∀ (s : State) (m : Master), s.canonical = true → s.isIsland m = true → Runs (.clrFirst m) s fun t =>
    (∀ k, k < 5 → t.bit (rFlt (0x204 + k * 0x20)) 31 = false ∧
      t.fld (rFlt (0x204 + k * 0x20)) 30 0 = s.fld (rFlt (0x204 + k * 0x20)) 30 0) ∧
    RegsBut [rFlt 0x204, rFlt 0x224, rFlt 0x244, rFlt 0x264, rFlt 0x284] s t ∧ t.mem = s.mem ∧ t.resp = ⟨false, false, []⟩) ∧
  (∀ (s : State) (m : Master) (v : BitVec 9), s.canonical = true → s.isIsland m = true →
    (s.alarmFill < (v.toNat + 512 - s.word (rFlt 0x34)) % 512 → exec (.alarmTailWrite m v) s = .next (s.respOk [])) ∧
    ((v.toNat + 512 - s.word (rFlt 0x34)) % 512 ≤ s.alarmFill → Runs (.alarmTailWrite m v) s fun t =>
      t.word (rFlt 0x34) = v.toNat ∧ t.flt.foldCnt = (if ({ s with regs := (s.setWord (rFlt 0x34) v.toNat).regs } : State).alarmFill < 256
        then 0 else s.flt.foldCnt) ∧
      (s.flt.foldCnt = 0 → RegsBut [rFlt 0x34] s t ∧ t.mem = s.mem))) ∧
  ∀ (s : State) (p : Fin 6), s.canonical = true →
    (s.fwp.dead.any (fun d => d.1 = p.val) = false ∨ s.procState p = 3 → exec (.incarnationRaise p) s = .next s) ∧
    (s.fwp.dead.any (fun d => d.1 = p.val) = true → s.procState p ≠ 3 → Runs (.incarnationRaise p) s fun t =>
      t.procState p = 3 ∧ t.procIncarn p = (s.procIncarn p + 1) % 256 ∧
      (∀ k, k < 6 → k ≠ p.val → t.procState k = s.procState k ∧ t.procIncarn k = s.procIncarn k))

/-- Liveness and the injector. -/
def Obligations.AliveWatchdogsAndTheAwl : Prop :=
  (∀ (s : State) (m : Master), s.isIsland m = false → exec (.aliveStart m) s = .next (s.refuse m 2 (rFlt 8))) ∧
  (∀ (s : State) (m : Master), s.canonical = true → s.isIsland m = true →
    (s.bit (blkBase bSYS + 4) 8 = false ∨ s.bit (rTwn 0) 24 = false ∨ s.safeActive = true → Runs (.aliveStart m) s fun t =>
      t.bit rFltState stRefused = true ∧ t.flt = s.flt ∧ RegsBut [rFltState] s t ∧ t.out = s.out) ∧
    (s.bit (blkBase bSYS + 4) 8 = true → s.bit (rTwn 0) 24 = true → s.safeActive = false → s.flt.started = true →
      exec (.aliveStart m) s = .next (s.respOk [])) ∧
    (s.bit (blkBase bSYS + 4) 8 = true → s.bit (rTwn 0) 24 = true → s.safeActive = false → s.flt.started = false →
      Runs (.aliveStart m) s fun t =>
        t.flt.started = true ∧ t.flt.kickFrom = s.now ∧ t.bit rFltState stSafeN = true ∧ t.bit rFltState stAlive = true ∧
        t.out = (s.emit (.pin ballSafeN true)).out ∧ RegsBut [rFltState] s t ∧ t.mem = s.mem)) ∧
  (∀ (s : State),
    (s.bit rFltState stAlive = false → exec .aliveEdge s = .next s) ∧
    (s.bit rFltState stAlive = true → Runs .aliveEdge s fun t =>
      t.flt.aliveP = !s.flt.aliveP ∧ t.flt.aliveN = s.flt.aliveP ∧
      t.out = ((s.emit (.pin ballAliveP (!s.flt.aliveP))).emit (.pin ballAliveN s.flt.aliveP)).out ∧ t.regs = s.regs ∧ t.mem = s.mem)) ∧
  (∀ (s : State), s.canonical = true → Runs .fcHoldExpire s fun t =>
    t.fld rFltState 2 0 = t.fcCode ∧ RegsBut [rFltState] s t ∧ t.mem = s.mem ∧
    (s.fld rFltState 2 0 = 2 → s.fcCode ≤ 2 → t.now = max s.now s.flt.cUntil ∧ t.fcCode ≤ 1) ∧
    (s.fld rFltState 2 0 = 1 → t.now = max s.now s.flt.nUntil)) ∧
  (∀ (s : State) (m : Master),
    (s.isEligiblePair m = true → exec (.kick m) s = .next ({ s with flt.kickFrom := s.now }.respOk [])) ∧
    (s.isEligiblePair m = false → mKind m = 3 → mIdx m < 6 → exec (.kick m) s = .next (s.respOk [])) ∧
    (mKind m ≠ 3 → isCollector m = false → exec (.kick m) s = .next (s.refuse m 2 (rFlt 8)))) ∧
  (∀ (s : State), s.canonical = true →
    (s.flt.started = false → exec .islandWatchdogExpire s = .next s) ∧
    (s.flt.started = true → Runs .islandWatchdogExpire s fun t =>
      t.now = max s.now (s.flt.kickFrom + s.kickLimit) ∧ t.flt.kickFrom = t.now ∧ Faulted 0x0A 4 s t)) ∧
  (∀ (s : State) (m : Master),
    (isFwp m = true → mIdx m < 6 →
      exec (.fwpHeartbeat m) s = .next ({ s with flt.hbFrom := setAt s.flt.hbFrom (mIdx m) s.now }.respOk [])) ∧
    (isFwp m = false ∨ 6 ≤ mIdx m → exec (.fwpHeartbeat m) s = .next (s.refuse m 2 (rFlt 0x58)))) ∧
  (∀ (s : State) (p : Fin 6), s.canonical = true →
    (s.procState p ≠ 2 → exec (.heartbeatMiss p) s = .next s) ∧
    (s.procState p = 2 → s.fwp.dead.any (fun d => d.1 = p.val) = false → Runs (.heartbeatMiss p) s fun t =>
      t.bit rFltIrq 8 = true ∧ t.fwp.dead = s.fwp.dead ++ [(p.val, 3)] ∧ Faulted 0x23 3 s t ∧ t.procState p = 2)) ∧
  (∀ (s : State) (m : Master) (d : BitVec 32), mKind m = 3 → bitOf m.toNat 3 = true →
    exec (.awlUnlock m d) s = .next (s.refuse m 2 (rAwl 0))) ∧
  (∀ (s : State) (m : Master) (d : BitVec 32), mKind m ≠ 3 → exec (.awlUnlock m d) s = .next ((s.awlBad m).refuse m 2 (rAwl 0)) ∧
    exec (.go m d) s = .next (s.refuse m 2 (rAwl 0x10))) ∧
  (∀ (s : State) (m : Master) (d : BitVec 32), s.canonical = true → s.isEligiblePair m = true → bitOf m.toNat 3 = false →
    (s.bit (rAwl 4) 0 = false → Runs (.awlUnlock m d) s fun t =>
      t.bit (rAwl 4) 1 = false ∧ t.bit (rAwl 4) 4 = true ∧ t.awl.first = none ∧ Faulted 0x25 1 s t) ∧
    (s.bit (rAwl 4) 0 = true → d.toNat = 0xA3C5 → s.awl.first = none →
      exec (.awlUnlock m d) s = .next ({ s with awl.first := some (m.toNat, s.now) }.respOk [])) ∧
    (s.bit (rAwl 4) 0 = true → d.toNat = 0x5C3A → ∀ x, s.awl.first = some (m.toNat, x) → s.now ≤ x + 4000 →
      Runs (.awlUnlock m d) s fun t =>
        t.bit (rAwl 4) 1 = true ∧ t.awl.unlockAt = s.now ∧ t.awl.went = false ∧ t.awl.first = none ∧
        Faulted 0x25 (if s.flt.started then 3 else 1) s t) ∧
    (s.bit (rAwl 4) 0 = true → d.toNat ≠ 0xA3C5 → d.toNat ≠ 0x5C3A ∨ (∀ x, s.awl.first ≠ some (m.toNat, x)) →
      exec (.awlUnlock m d) s = .next ((s.awlBad m).respOk []))) ∧
  (∀ (s : State), s.canonical = true →
    (s.bit (rAwl 4) 1 = false ∨ s.awl.went = true → exec .awlUnlockTimeout s = .next s) ∧
    (s.bit (rAwl 4) 1 = true → s.awl.went = false → Runs .awlUnlockTimeout s fun t =>
      t.bit (rAwl 4) 1 = false ∧ t.now = max s.now (s.awl.unlockAt + 4000000) ∧ RegsBut [rAwl 4] s t ∧ t.mem = s.mem)) ∧
  (∀ (s : State) (m : Master) (d : BitVec 32), s.canonical = true → s.isEligiblePair m = true → Runs (.go m d) s fun t =>
    t.fld (rAwl 0x10) 31 16 = bitsOf d.toNat 31 16 ∧ t.fld (rAwl 0x10) 9 8 = bitsOf d.toNat 9 8 ∧ t.resp = ⟨false, false, []⟩ ∧
    (bitOf d.toNat 0 = false → t.awl = s.awl ∧ RegsBut [rAwl 0x10] s t) ∧
    (bitOf d.toNat 0 = true → s.bit (rAwl 4) 1 = false ∨ s.bit (rAwl 4) 3 = true →
      t.bit (rAwl 4) 4 = true ∧ t.awl = s.awl ∧ RegsBut [rAwl 0x10, rAwl 4] s t) ∧
    (bitOf d.toNat 0 = true → s.bit (rAwl 4) 1 = true → s.bit (rAwl 4) 3 = false →
      t.bit (rAwl 4) 3 = true ∧ t.awl.went = true ∧ t.awl.runAt = s.now ∧
      t.fld (rAwl 4) 31 16 = (if bitsOf d.toNat 9 8 = 0 then 1 else max 1 (bitsOf d.toNat 31 16)) ∧ t.bit (rAwl 0x10) 0 = true)) ∧
  (∀ (s : State) (m : Master) (a : BitVec 64) (p : Fin 4) (pc : BitVec 32), s.bit (rAwl 4) 3 = false →
    exec (.awlInjection m a p pc) s = .next s ∧ exec .awlRunTimeout s = .next s) ∧
  (∀ (s : State) (m : Master) (a : BitVec 64) (p : Fin 4) (pc : BitVec 32), s.bit (rAwl 4) 3 = true →
    let u : State := { s with awl.inj := true }
    (u.injectTarget m a.toNat p pc.toNat = none → exec (.awlInjection m a p pc) s = .next s) ∧
    ∀ v, u.injectTarget m a.toNat p pc.toNat = some v → v.canonical = true → Runs (.awlInjection m a p pc) s fun t =>
      t.word (rAwl 0x14) = (v.word (rAwl 0x14) + 1) % 2 ^ 32 ∧ t.fld (rAwl 4) 31 16 = v.fld (rAwl 4) 31 16 - 1 ∧
      (v.fld (rAwl 4) 31 16 ≤ 1 → t.bit (rAwl 4) 3 = false ∧ t.bit (rAwl 4) 1 = false) ∧ t.awl.inj = false) ∧
  ∀ (s : State), s.canonical = true → s.bit (rAwl 4) 3 = true → Runs .awlRunTimeout s fun t =>
    t.bit (rAwl 4) 3 = false ∧ t.bit (rAwl 4) 1 = false ∧ t.fld (rAwl 4) 31 16 = 0 ∧ t.now = max s.now (s.awl.runAt + 4000000000) ∧
    RegsBut [rAwl 4, rAwl 0x10] s t ∧ t.mem = s.mem

/-- Resets, boot and restarts. -/
def Obligations.ResetsBootAndRestarts : Prop :=
  (∀ (s : State), Runs .powerOnReset s fun t =>
    t.mem = [] ∧ t.poison = [] ∧ t.cel = State.reset.cel ∧ t.hqm = State.reset.hqm ∧ t.wpe = State.reset.wpe ∧ t.tap = TapS.reset ∧
    t.flt.sExits = [] ∧ t.sec.fuses = s.sec.fuses ∧ t.fwp.flash = s.fwp.flash ∧ t.now = s.now ∧ t.pending = s.pending ∧
    t.fwp.boot = 1 ∧ t.fld (rCkg 0xC) 31 16 = 0 ∧ t.bit rFltState stL = false ∧
    ∀ b o, b < 25 → b ∉ [bFLT, bFWP, bCKG, bSEC, bPER] → o < 0x100000 → t.word (blkBase b + o) = State.reset.word (blkBase b + o)) ∧
  (∀ (s : State) (by_ : Option Master), s.canonical = true →
    (match by_ with | some m => s.isEligiblePair m || isFwp m | none => true) = true → Runs (.coldReset by_) s fun t =>
      t.mem = [] ∧ t.poison = [] ∧ t.cel = State.reset.cel ∧ t.hqm = State.reset.hqm ∧ t.wpe = State.reset.wpe ∧
      t.flt.sExits = s.flt.sExits ∧ t.sec.fuses = s.sec.fuses ∧ t.fwp.flash = s.fwp.flash ∧ t.pending = s.pending ∧ t.fwp.boot = 1 ∧
      t.fld (rCkg 0xC) 3 0 = (match by_ with | none => 1 | some m => if s.isEligiblePair m then 2 else 3) ∧
      t.fld (rCkg 0xC) 31 16 = min (s.fld (rCkg 0xC) 31 16 + 1) 0xFFFF ∧ t.bit rFltState stL = s.bit rFltState stL ∧
      ∀ b o, b < 25 → b ∉ [bFLT, bFWP, bCKG, bSEC, bPER] → o < 0x100000 → t.word (blkBase b + o) = State.reset.word (blkBase b + o)) ∧
  (∀ (s : State) (m : Master), s.isEligiblePair m = false → isFwp m = false →
    exec (.coldReset (some m)) s = .next (s.ignoreWr m (rCkg 8)) ∧ exec (.islandReset m) s = .next (s.ignoreWr m (rCkg 8))) ∧
  (∀ (s : State) (m : Master), s.canonical = true → (s.isEligiblePair m || m == mFwp 4) = true → s.bit (rSys 4) 8 = false →
    Runs (.islandReset m) s fun t =>
      t.fwp.safe = 1 ∧ t.bit rFltState stS = true ∧ t.fld (rCkg 0xC) 3 0 = 4 ∧ t.awl = AwlS.reset ∧
      t.twn = { TwnS.reset with dead := s.twn.dead } ∧ t.fab.audit = none ∧ t.bit (rFab 4) 0 = false ∧
      (∀ o, o < 0x100000 → t.word (blkBase bTWN + o) = State.reset.word (blkBase bTWN + o) ∧
        t.word (blkBase bAWL + o) = State.reset.word (blkBase bAWL + o)) ∧ t.resp = ⟨false, false, []⟩) ∧
  (∀ (s : State), Runs .tapReset s fun t =>
    t.tap.ir = 2 ∧ t.tap.refused = false ∧ t.tap.bsr = s.tap.bsr ∧ (s.tap.held = 1 → t.tap.held = 2) ∧
    (s.tap.held ≠ 1 → t.tap.held = s.tap.held) ∧ t.regs = s.regs ∧ t.mem = s.mem) ∧
  (∀ (s : State) (e : Bool), s.fwp.boot = 0 → exec (.imageVerify e) s = exec (.imageVerify e) s.bootSelect) ∧
  (∀ (s : State) (e : Bool), s.fwp.boot ≠ 0 → s.fwp.boot ≠ 1 ∨ s.fwp.cands = [] → exec (.imageVerify e) s = .next s) ∧
  (∀ (s : State) (e : Bool) (k : Nat) (r : List Nat), s.canonical = true → s.fwp.boot = 1 → s.fwp.cands = k :: r → k < 2 →
    (s.slotCtl k = none → Runs (.imageVerify e) s fun t =>
      t.fwp.cands = r ∧ t.fwp.boot = 1 ∧ t.fld (rFwp 0x10) (4 * k + 3) (4 * k) = 1 ∧ RegsBut [rFwp 0x10] s t ∧ t.mem = s.mem) ∧
    ∀ ctl, s.slotCtl k = some ctl → ctlState ctl ≠ 2 → Runs (.imageVerify e) s fun t =>
      let img := s.slotImage k ctl
      let code := if e then 3 else s.imgCode img ctl
      t.bit (rFwp 0x10) (8 + k) = true ∧ t.mem = s.mem ∧
      (code ≠ 0 → t.fwp.cands = r ∧ t.fwp.boot = 1 ∧ t.fld (rFwp 0x10) (4 * k + 3) (4 * k) = code ∧ RegsBut [rFwp 0x10] s t) ∧
      (code = 0 → t.fwp.boot = 4 ∧ t.phase = 1 ∧ t.procState 0 = 2 ∧ t.fwp.build = leAt img 0x18 4 ∧ t.fwp.svn = leAt img 0x10 4 ∧
        t.fwp.record = imgTarget img 7 ∧ t.fld (rFwp 0) 5 4 = k + 1)) ∧
  (∀ (s : State), s.fwp.boot ≠ 4 → exec .configRecordCheck s = .next s) ∧
  (∀ (s : State) (k : Nat) (r : List Nat), s.canonical = true → s.fwp.boot = 4 → s.fwp.cands = k :: r → k < 2 →
    Runs .configRecordCheck s fun t =>
      (s.cfgCheck s.fwp.record = none → t = { s with fwp.boot := 5, fwp.safe := 1, flt.safeRel := s.now }) ∧
      (s.cfgCheck s.fwp.record ≠ none → t.fwp.boot = 1 ∧ t.fwp.cands = r ∧ t.fld (rFwp 0x10) (4 * k + 3) (4 * k) = 10 ∧ t.phase = 0 ∧
        t.procState 0 = 0 ∧ t.fld (rFwp 0) 6 4 = 0)) ∧
  (∀ (s : State) (c : List (BitVec 17)) (i : List (List Byte)), s.fwp.boot ≠ 7 → exec (.configRecordApply c i) s = .next s) ∧
  (∀ (s : State) (c : List (BitVec 17)) (i : List (List Byte)), s.canonical = true → s.fwp.boot = 7 →
    Runs (.configRecordApply c i) s fun t =>
      t.fwp.boot = 9 ∧ t.phase = 2 ∧ t.bit (rSys 4) 8 = true ∧ t.procState 2 = 2 ∧ t.procState 3 = 2 ∧ t.procState 5 = 2 ∧
      t.fwp.held = [] ∧ t.resp = ⟨false, false, []⟩) ∧
  (∀ (s : State), s.canonical = true → s.fwp.boot ≠ 0 →
    (s.fwp.boot ≠ 1 ∨ s.fwp.cands ≠ [] → exec .recoveryEnter s = .next s) ∧
    (s.fwp.boot = 1 → s.fwp.cands = [] → Runs .recoveryEnter s fun t =>
      t.phase = 4 ∧ t.fwp.boot = 15 ∧ t.fld (rPciPort 0 0) 6 0 = 109 ∧ t.mem = s.mem ∧
      ∀ b, b < 64 → t.word (rMbx b 0x20) = 0 ∧ t.word64 (rMbx b 0x18) = 0)) ∧
  (∀ (s : State) (p : Fin 6), s.canonical = true →
    (s.fwp.dead.any (fun d => d.1 = p.val) = false ∨ s.procState p = 3 → exec (.fwpProcessorRestart p) s = .next s) ∧
    (s.fwp.dead.any (fun d => d.1 = p.val) = true → s.procState p ≠ 3 → Runs (.fwpProcessorRestart p) s fun t =>
      t.procState p = 3 ∧ t.procIncarn p = (s.procIncarn p + 1) % 256)) ∧
  (∀ (s : State) (p : Fin 6) (x : Bool), s.procState p ≠ 3 ∨ (∃ q ∈ s.fab.flight, q.master = (mFwp p).toNat) →
    exec (.fwpRestartDone p x) s = .next s) ∧
  ∀ (s : State) (p : Fin 6) (x : Bool), s.canonical = true → s.procState p = 3 → s.fab.flight = [] → s.fab.holdQ = [] →
    Runs (.fwpRestartDone p x) s fun t =>
      let n := s.fld (rProc p 0) 19 16 + 1
      (x = true → t.procState p = 2 ∧ t.fld (rProc p 0) 19 16 = 0 ∧ t.fwp.dead = s.fwp.dead.filter (fun d => d.1 ≠ p.val) ∧
        t.word (rProc p 4) = (s.word (rProc p 4) + 1) % 2 ^ 32 ∧ t.bit rFwpIrq 0 = true ∧ t.flt.hbFrom = setAt s.flt.hbFrom p s.now ∧
        RegsBut [rProc p 0, rProc p 4, rFwpIrq] s t ∧ t.mem = s.mem) ∧
      (x = false → n < 3 → t.procState p = 3 ∧ t.fld (rProc p 0) 19 16 = n ∧ t.fwp = s.fwp ∧ RegsBut [rProc p 0] s t ∧ t.mem = s.mem) ∧
      (x = false → n = 3 → t.procState p = 4 ∧ t.bit rFwpIrq 1 = true ∧ Faulted 0x23 4 s t)

/-- Mailboxes and the boot processor's commands. -/
def Obligations.MailboxesTakeAndAnswerMessages : Prop :=
  (∀ (s : State) (m : Master) (inst : Option (Fin 64)) (b : Fin 64), s.mbxUser m inst b = false →
    exec (.mbxGo m inst b) s = .next (s.refuse m 2 (rMbx b 8)) ∧ exec (.mbxDone m inst b) s = .next (s.refuse m 2 (rMbx b 4))) ∧
  (∀ (s : State) (m : Master) (inst : Option (Fin 64)) (b : Fin 64), s.canonical = true → s.mbxUser m inst b = true →
    (s.bit (rMbx b 4) 0 = true → Runs (.mbxGo m inst b) s fun t =>
      t.bit (rMbx b 4) 2 = true ∧ t.bit rFwpIrq 4 = true ∧ t.fwp = s.fwp ∧ RegsBut [rMbx b 4, rFwpIrq] s t ∧ t.mem = s.mem) ∧
    (s.bit (rMbx b 4) 0 = false → s.mbxOn b = false → exec (.mbxGo m inst b) s = .next (s.respOk [])) ∧
    (s.bit (rMbx b 4) 0 = false → s.mbxOn b = true → Runs (.mbxGo m inst b) s fun t =>
      let p := mbxHandler (s.mbxId b)
      t.bit (rMbx b 4) 0 = true ∧ t.mem = s.mem ∧ t.resp = ⟨false, false, []⟩ ∧
      (s.procUp p = true → t.bit (rMbx b 4) 3 = false ∧ t.fwp.order = s.fwp.order ++ [b.val] ∧
        fmGet t.fwp.mbx b = some ⟨false, 0, [], .none, false, s.procIncarn p⟩ ∧ RegsBut [rMbx b 4] s t) ∧
      (s.procUp p = false → t.bit (rMbx b 4) 3 = true ∧ t.bit (rMbx b 4) 1 = true ∧ t.fld (rMbx b 4) 15 8 = 1)) ∧
    (s.bit (rMbx b 4) 1 = false → exec (.mbxDone m inst b) s = .next (s.respOk [])) ∧
    (s.bit (rMbx b 4) 1 = true → Runs (.mbxDone m inst b) s fun t =>
      t.fld (rMbx b 4) 1 0 = 0 ∧ t.fld (rMbx b 4) 15 2 = s.fld (rMbx b 4) 15 2 ∧ RegsBut [rMbx b 4] s t ∧ t.mem = s.mem ∧ t.fwp = s.fwp)) ∧
  (∀ (s : State) (b : Fin 64), fmGet s.fwp.mbx b = none → exec (.mbxResponse b) s = .next s) ∧
  (∀ (s : State) (b : Fin 64) (x : MbxMsg), s.canonical = true → fmGet s.fwp.mbx b = some x → s.procUp (mbxHandler (s.mbxId b)) = true →
    x.incarn = s.procIncarn (mbxHandler (s.mbxId b)) →
    (x.performed = true → x.wait = .none → x.status < 256 → Runs (.mbxResponse b) s fun t =>
      (x.reboot = false → t.bit (rMbx b 4) 1 = true ∧ t.fld (rMbx b 4) 15 8 = x.status ∧ t.fwp.mbx = fmDel s.fwp.mbx b ∧
        t.fwp.order = s.fwp.order.filter (fun k => k ≠ b.val) ∧ t.mem = s.mem) ∧
      (x.reboot = true → t.fwp.boot = 1 ∧ t.fld (rCkg 0xC) 3 0 = 3)) ∧
    (x.performed = false → mbxKnown s.phase (s.mbxId b) = false → s.mbxNext (mbxHandler (s.mbxId b)) = some b.val →
      Runs (.mbxResponse b) s fun t =>
        t.bit (rMbx b 4) 1 = true ∧ t.fld (rMbx b 4) 15 8 = (if s.mbxVersionOk b (s.mbxId b) then 3 else 2) ∧
        t.fwp.mbx = fmDel s.fwp.mbx b) ∧
    (x.performed = false → mbxKnown s.phase (s.mbxId b) = true → exec (.mbxResponse b) s = .next s)) ∧
  (∀ (s : State) (b : Fin 64), ∀ p ∈ ([(.hello b, 1, none), (.getInfo b, 2, none), (.imageWrite b, 0x10, some 9),
      (.imageCommit b, 0x11, some 9), (.imageConfirm b, 0x12, some 9), (.fwpRestart b, 0x20, some 8), (.logRead b, 0x21, some 11),
      (.traceSet b, 0x22, some 11), (.profileSet b, 0x101, some 8), (.profileGet b, 0x102, none), (.clickSet b, 0x201, none),
      (.slotSet b, 0x202, none), (.queueCtrl b, 0x203, none), (.s2Set b, 0x204, some 10), (.instanceCtrl b, 0x205, none),
      (.ptpStep b, 0x301, some 8), (.linkStatus b, 0x302, none), (.faultRead b, 0x401, none), (.modelInstall b, 0x501, none),
      (.modelEvict b, 0x502, none), (.modelPin b, 0x503, none), (.modelSwitch b, 0x504, none), (.modelStatus b, 0x505, none)] :
      List (Instr × Nat × Option Nat)),
    (¬s.mbxHead b p.2.1 → exec p.1 s = .next s) ∧
    (s.mbxHead b p.2.1 → s.mbxVersionOk b p.2.1 = false → exec p.1 s = .next (s.mbxPerformed b s.mbxVersion)) ∧
    (s.mbxHead b p.2.1 → s.mbxVersionOk b p.2.1 = true → ¬s.mbxMay b p.2.2 → exec p.1 s = .next (s.mbxPerformed b ansDenied))) ∧
  (∀ (s : State) (b : Fin 64), s.canonical = true → s.mbxReady b 1 none → Runs (.hello b) s fun t =>
    t.fld (rMbx b 0x20) 15 0 = s.reqAt b 0 2 ∧ t.bit (rMbx b 0x20) 31 = true ∧
    t.word64 (rMbx b 0x18) = s.reqAt b 8 8 &&& s.word64 (rFwp 0x20) ∧
    Answered b 0 (leBytes 2 (s.word (rFwp 0x18)) ++ leBytes 2 (s.word (rFwp 0x14)) ++ leBytes 8 (s.word64 (rFwp 0x20))) .none t ∧
    RegsBut [rMbx b 0x18, rMbx b 0x1C, rMbx b 0x20] s t ∧ t.mem = s.mem) ∧
  (∀ (s : State) (b : Fin 64), s.mbxReady b 2 none → Runs (.getInfo b) s fun t =>
    Answered b 0 (leBytes 4 (s.word (rSys 0)) ++ leBytes 1 (s.fld (rFwp 0) 5 4) ++ leBytes 1 s.phase ++ [0, 0] ++ leBytes 4 s.fwp.build ++
      leBytes 4 s.fwp.svn ++ leBytes 4 (leAt s.fwp.record 0x10 4) ++ leBytes 4 (leAt s.fwp.record 0x14 4) ++ leBytes 4 s.fwp.seq) .none t ∧
    t.regs = s.regs ∧ t.mem = s.mem) ∧
  (∀ (s : State) (b : Fin 64), s.mbxReady b 0x10 (some 9) →
    let l := s.mbxPay b
    let o := leAt l 0 4
    let n := leAt l 4 4
    let k := s.updateSlot
    let u := match s.slotCtl k with | some c => if ctlState c = 3 then s else s.ctlMark k 3 0 | none => s
    (n = 0 ∨ 4048 < n ∨ l.length < 8 + n → exec (.imageWrite b) s = .next (s.mbxPerformed b (ansBad 4))) ∧
    (1 ≤ n → n ≤ 4048 → 8 + n ≤ l.length → 0x10000000 < o + n → exec (.imageWrite b) s = .next (s.mbxPerformed b (ansBad 0))) ∧
    (1 ≤ n → n ≤ 4048 → 8 + n ≤ l.length → o + n ≤ 0x10000000 → Runs (.imageWrite b) s fun t =>
      t.fwp.flash = (u.flashPut k (newImageOfs + o) (sliceBytes l 8 n)).fwp.flash ∧ Answered b 0 [] .none t ∧ t.mem = s.mem)) ∧
  (∀ (s : State) (b : Fin 64), s.mbxReady b 0x11 (some 9) →
    let l := s.mbxPay b
    let k := s.updateSlot
    let ctl := ctlRecord 2 (leAt l 4 1) s.newSeq newImageOfs (leAt l 0 4)
    let img := s.slotImage k ctl
    let code := if s.imgCode img ctl = 0 && s.phase ≠ 4 && (State.reset.cfgCheck (imgTarget img 7)).isSome then 10 else s.imgCode img ctl
    (leAt l 4 1 = 0 ∨ 7 < leAt l 4 1 → exec (.imageCommit b) s = .next (s.mbxPerformed b (ansBad 4))) ∧
    (1 ≤ leAt l 4 1 → leAt l 4 1 ≤ 7 → s.phase ≠ 4 ∨ bitOf (leAt l 5 1) 0 = true → Runs (.imageCommit b) s fun t =>
      (code ≠ 0 → Answered b 6 (leBytes 4 code) .none t ∧ t.fwp.flash = s.fwp.flash) ∧
      (code = 0 → Answered b 0 [0] .none t ∧ t.fwp.flash = (s.ctlWrite k ctl).fwp.flash) ∧ t.mem = s.mem)) ∧
  (∀ (s : State) (b : Fin 64), s.canonical = true → s.mbxReady b 0x12 (some 9) →
    (s.fld (rFwp 0) 5 4 = 0 → Runs (.imageConfirm b) s fun t =>
      (∃ code, Answered b 6 (leBytes 4 code) .none t) ∧ t.regs = s.regs ∧ t.mem = s.mem) ∧
    (s.fld (rFwp 0) 5 4 ≠ 0 → Runs (.imageConfirm b) s fun t => t.bit (rFwp 0) 6 = false ∧ Answered b 0 [] .none t ∧ t.mem = s.mem)) ∧
  ∀ (s : State) (b : Fin 64), s.mbxReady b 0x20 (some 8) →
    let p := leAt (s.mbxPay b) 0 1
    (p = 0 ∨ 5 < p → exec (.fwpRestart b) s = .next (s.mbxPerformed b (ansBad 0))) ∧
    (1 ≤ p → p ≤ 5 → Runs (.fwpRestart b) s fun t =>
      Answered b 0 [] .none t ∧
      t.fwp.dead = (if s.procState p = 0 ∨ s.procState p = 3 ∨ s.procState p = 4 ∨ s.fwp.dead.any (fun d => d.1 = p) = true
        then s.fwp.dead else s.fwp.dead ++ [(p, 1)]))

/-- Commands of the power, schedule, network and fault processors. -/
def Obligations.MailboxCommandsOfTheServicesTakeEffect : Prop :=
  (∀ (s : State) (b : Fin 64), s.mbxReady b 0x21 (some 11) →
    let l := s.mbxPay b
    let p := leAt l 0 1
    let n := leAt l 8 2
    let t0 := s.word (rProc p 0x18)
    let k := min n ((s.word (rProc p 0x14) + 2 ^ 32 - t0) % 2 ^ 32 - (leAt l 4 4 + 2 ^ 32 - t0) % 2 ^ 32)
    (5 < p → exec (.logRead b) s = .next (s.mbxPerformed b (ansBad 0))) ∧
    (p ≤ 5 → n = 0 ∨ 126 < n → exec (.logRead b) s = .next (s.mbxPerformed b (ansBad 8))) ∧
    (p ≤ 5 → 1 ≤ n → n ≤ 126 → Runs (.logRead b) s fun t =>
      Answered b 0 (leBytes 2 k ++ [0, 0] ++ ((List.range k).flatMap fun i => sliceBytes (s.logGet p ((leAt l 4 4 + i) % 2 ^ 32)) 0 32)) .none t ∧
      t.regs = s.regs ∧ t.mem = s.mem)) ∧
  (∀ (s : State) (b : Fin 64), s.canonical = true → s.mbxReady b 0x22 (some 11) →
    let l := s.mbxPay b
    let p := leAt l 0 1
    let o := leAt l 2 2
    let n := leAt l 4 2
    let a := rFwp (0x1000 + p * 0x80)
    (5 < p → exec (.traceSet b) s = .next (s.mbxPerformed b (ansBad 0))) ∧
    (p ≤ 5 → 1023 < o → exec (.traceSet b) s = .next (s.mbxPerformed b (ansBad 2))) ∧
    (p ≤ 5 → o ≤ 1023 → n = 0 ∨ 1024 < o + n → exec (.traceSet b) s = .next (s.mbxPerformed b (ansBad 4))) ∧
    (p ≤ 5 → o ≤ 1023 → 1 ≤ n → o + n ≤ 1024 → Runs (.traceSet b) s fun t =>
      t.regBytes a 128 = leBytes 128 (setBitsOf (leNat (s.regBytes a 128)) (o + n - 1) o (leNat (l.drop 8))) ∧
      (∀ x, x < a ∨ a + 128 ≤ x → t.word x = s.word x) ∧ Answered b 0 [] .none t ∧ t.mem = s.mem)) ∧
  (∀ (s : State) (b : Fin 64), s.mbxReady b 0x101 (some 8) →
    let q := leAt (s.mbxPay b) 0 1
    let code := if q = s.profile ∧ s.pwr.prof.isNone = true then 0 else s.profRefusal q
    (3 < q → exec (.profileSet b) s = .next (s.mbxPerformed b (ansBad 0))) ∧
    (q ≤ 3 → Runs (.profileSet b) s fun t =>
      (code ≠ 0 → t = (s.profReq q).mbxPerformed b (ansRefused code)) ∧
      (code = 0 → t = (s.profReq q).mbxPerformed b { ansOk (leBytes 1 q) with wait := .profile }))) ∧
  (∀ (s : State) (b : Fin 64), s.mbxReady b 0x102 none → Runs (.profileGet b) s fun t =>
    Answered b 0 (leBytes 4 (s.word (rSys 4))) .none t ∧ t.regs = s.regs ∧ t.mem = s.mem) ∧
  (∀ (s : State) (b : Fin 64), s.mbxReady b 0x201 none →
    let l := s.mbxPay b
    let k := leAt l 0 1
    (63 < k ∨ s.clickClass k ≠ 2 → exec (.clickSet b) s = .next (s.mbxPerformed b (ansBad 0))) ∧
    (k ≤ 63 → s.clickClass k = 2 → 15 < leAt l 1 1 → exec (.clickSet b) s = .next (s.mbxPerformed b (ansBad 1))) ∧
    (k ≤ 63 → s.clickClass k = 2 → leAt l 1 1 ≤ 15 → 256 < leAt l 2 2 → exec (.clickSet b) s = .next (s.mbxPerformed b (ansBad 2))) ∧
    (k ≤ 63 → s.clickClass k = 2 → leAt l 1 1 ≤ 15 → leAt l 2 2 ≤ 256 →
      (s.mbxOwns b (s.clickInst k) = false → exec (.clickSet b) s = .next (s.mbxPerformed b ansDenied)) ∧
      (s.mbxOwns b (s.clickInst k) = true → exec (.clickSet b) s =
        .next ((s.clickCfg k (setBitsOf (setBitsOf (s.word (rClick k 0)) 31 28 (leAt l 1 1)) 24 16 (leAt l 2 2))).mbxPerformed b (ansOk []))))) ∧
  (∀ (s : State) (b : Fin 64), s.canonical = true → s.mbxReady b 0x202 none →
    let l := s.mbxPay b
    let n := leAt l 0 2
    let ok := n ≤ 4095 ∧ 1 ≤ leAt l 2 1 ∧ leAt l 2 1 ≤ 4 ∧ leAt l 3 1 ≤ 1 ∧ leAt l 4 4 ≤ 0x7FFFF ∧ leAt l 8 8 % 64 = 0 ∧
      leAt l 8 8 < 2 ^ 52 ∧ leAt l 16 8 % 64 = 0 ∧ leAt l 16 8 < 2 ^ 52 ∧ leAt l 24 1 ≤ leAt l 25 1 ∧ leAt l 32 1 ≤ 1
    let mine := match s.slotOwner n with | some (i, _) => s.mbxOwns b i | none => s.mbxPerm b 10
    (¬ok → Runs (.slotSet b) s fun t => (∃ o, Answered b 4 (leBytes 4 (0x20 + o)) .none t) ∧ t.regs = s.regs ∧ t.mem = s.mem) ∧
    (ok → mine = false → exec (.slotSet b) s = .next (s.mbxPerformed b ansDenied)) ∧
    (ok → mine = true → Runs (.slotSet b) s fun t =>
      t.fld (rRelSlot n 0) 17 15 = leAt l 2 1 - 1 + 4 * leAt l 3 1 ∧ t.bit (rRelSlot n 0) 0 = decide (leAt l 32 1 = 1) ∧
      t.word (rRelSlot n 4) = leAt l 4 4 ∧ t.word64 (rRelSlot n 8) = leAt l 8 8 ∧ t.word64 (rRelSlot n 0x10) = leAt l 16 8 ∧
      t.fld (rRelSlot n 0x30) 15 0 = leAt l 24 2 ∧ t.word (rRelSlot n 0x34) = leAt l 28 4 ∧
      RegsBut [rRelSlot n 0, rRelSlot n 4, rRelSlot n 8, rRelSlot n 0xC, rRelSlot n 0x10, rRelSlot n 0x14, rRelSlot n 0x30,
        rRelSlot n 0x34] s t ∧ Answered b 0 [] .none t ∧ t.mem = s.mem)) ∧
  (∀ (s : State) (b : Fin 64), s.mbxReady b 0x203 none →
    let l := s.mbxPay b
    let q := leAt l 0 4
    let c := leAt l 4 1
    let e := sliceBytes l 8 32
    let old := fmGet s.hqm.queues q
    let mine := (match old with | some x => s.mbxOwns b x.owner | none => true) && (decide (c ≠ 0) || s.mbxOwns b (leAt e 0xB 1))
    let idle := match old with | some o => decide (o.count = 0) | none => true
    let u := (if c = 0 ∧ idle = true then s.memPut (mFwp 2) (s.qEntry q) e false else s).qcmd (mFwp 2) none q c
    (0x7FFFF < q → exec (.queueCtrl b) s = .next (s.mbxPerformed b (ansBad 0))) ∧
    (q ≤ 0x7FFFF → 2 < c → exec (.queueCtrl b) s = .next (s.mbxPerformed b (ansBad 4))) ∧
    (q ≤ 0x7FFFF → c ≤ 2 → mine = false → exec (.queueCtrl b) s = .next (s.mbxPerformed b ansDenied)) ∧
    (q ≤ 0x7FFFF → c ≤ 2 → mine = true → Runs (.queueCtrl b) s fun t =>
      t.hqm = u.hqm ∧ t.regs = u.regs ∧ t.mem = u.mem ∧ (u.bit (rHqm 0x1C) 1 = false → Answered b 0 [] .none t) ∧
      (u.bit (rHqm 0x1C) 1 = true → ∃ code, Answered b 6 (leBytes 4 code) .none t))) ∧
  (∀ (s : State) (b : Fin 64), s.canonical = true → s.mbxReady b 0x204 (some 10) →
    let l := s.mbxPay b
    let i := leAt l 0 1
    let v := leAt l 8 8
    (63 < i → exec (.s2Set b) s = .next (s.mbxPerformed b (ansBad 0))) ∧
    (i ≤ 63 → v / 2 ^ 60 ≠ 0 → v / 2 ^ 60 ≠ 9 → exec (.s2Set b) s = .next (s.mbxPerformed b (ansBad 8))) ∧
    (i ≤ 63 → v / 2 ^ 60 = 0 ∨ v / 2 ^ 60 = 9 → Runs (.s2Set b) s fun t =>
      t.word64 (rInst i 0x10) = 1152921504606846976 * (v / 2 ^ 60) + v % 2 ^ 44 ∧ RegsBut [rInst i 0x10, rInst i 0x14] s t ∧
      Answered b 0 [] .none t ∧ t.mem = s.mem)) ∧
  (∀ (s : State) (b : Fin 64), s.mbxReady b 0x205 none →
    let l := s.mbxPay b
    let i := leAt l 0 1
    let o := leAt l 1 1
    (63 < i → exec (.instanceCtrl b) s = .next (s.mbxPerformed b (ansBad 0))) ∧
    (i ≤ 63 → 2 < o → exec (.instanceCtrl b) s = .next (s.mbxPerformed b (ansBad 1))) ∧
    (i ≤ 63 → o ≤ 2 → s.mbxOwns b i = false → exec (.instanceCtrl b) s = .next (s.mbxPerformed b ansDenied)) ∧
    (i ≤ 63 → o < 2 → s.mbxOwns b i = true → s.instState i ≠ 0 →
      exec (.instanceCtrl b) s = .next ((s.instReset i (o = 1)).mbxPerformed b { ansOk [] with wait := .inst i })) ∧
    (i ≤ 63 → o = 2 → s.mbxOwns b i = true → s.instKind i ≠ 0 →
      exec (.instanceCtrl b) s = .next ((s.instAdd i).mbxPerformed b { ansOk [] with wait := .inst i })) ∧
    (i ≤ 63 → o ≤ 2 → s.mbxOwns b i = true → o < 2 ∧ s.instState i = 0 ∨ o = 2 ∧ s.instKind i = 0 → s.canonical = true →
      Runs (.instanceCtrl b) s fun t => (∃ code, Answered b 6 (leBytes 4 code) .none t) ∧ t.bit (rInst i 8) 8 = true)) ∧
  (∀ (s : State) (b : Fin 64), s.mbxReady b 0x301 (some 8) →
    let c := leAt (s.mbxPay b) 0 1
    let d := leAt (s.mbxPay b) 1 1
    let u := if d = 1 then s.ptpAccept c else s.ptpReject c
    (3 < c → exec (.ptpStep b) s = .next (s.mbxPerformed b (ansBad 0))) ∧
    (c ≤ 3 → 1 < d → exec (.ptpStep b) s = .next (s.mbxPerformed b (ansBad 1))) ∧
    (c ≤ 3 → d ≤ 1 → s.bit (rPtpClk c 4) 0 = true → exec (.ptpStep b) s = .next (u.mbxPerformed b (ansOk []))) ∧
    (c ≤ 3 → d ≤ 1 → s.bit (rPtpClk c 4) 0 = false → Runs (.ptpStep b) s fun t =>
      (∃ code, Answered b 6 (leBytes 4 code) .none t) ∧ t.regs = u.regs ∧ t.mem = u.mem)) ∧
  (∀ (s : State) (b : Fin 64), s.mbxReady b 0x302 none → Runs (.linkStatus b) s fun t =>
    Answered b 0 (leBytes 4 (s.word (rPciPort 0 4)) ++ leBytes 4 (s.word (rPciPort 1 4)) ++ leBytes 4 (s.word (rPciPort 2 4)) ++
      leBytes 4 (s.word (rPciPort 3 4))) .none t ∧ t.regs = s.regs ∧ t.mem = s.mem) ∧
  ∀ (s : State) (b : Fin 64), s.mbxReady b 0x401 none →
    let c := leAt (s.mbxPay b) 0 1
    (c = 0 ∨ 5 < c → exec (.faultRead b) s = .next (s.mbxPerformed b (ansBad 0))) ∧
    (1 ≤ c → c ≤ 5 → Runs (.faultRead b) s fun t =>
      Answered b 0 (s.regBytes (rFlt (0x200 + (c - 1) * 0x20)) 32 ++ s.regBytes (rFlt (0x300 + (c - 1) * 0x20)) 32 ++
        leBytes 4 (s.word rFltState)) .none t ∧ t.regs = s.regs ∧ t.mem = s.mem)

/-- Commands of the model processor, and logs. -/
def Obligations.ModelCommandsLogsAndSelfTest : Prop :=
  (∀ (s : State) (b : Fin 64), s.canonical = true → s.mbxReady b 0x501 none →
    let l := s.mbxPay b
    let a := leAt l 0 8
    let n := leAt l 8 8
    let lp := (match s.addrKind a with | .lpddr _ _ => true | _ => false) && decide (a % 4096 = 0) && s.inMemory a n
    let enc := bitOf (s.mnat (a + 6) 2) 0
    (lp = false → exec (.modelInstall b) s = .next (s.mbxPerformed b (ansBad 0))) ∧
    (lp = true → n = 0 ∨ n % 4096 ≠ 0 → exec (.modelInstall b) s = .next (s.mbxPerformed b (ansBad 8))) ∧
    (lp = true → n ≠ 0 → n % 4096 = 0 → s.mbxMemory b a n = false → exec (.modelInstall b) s = .next (s.mbxPerformed b ansDenied)) ∧
    (lp = true → n ≠ 0 → n % 4096 = 0 → s.mbxMemory b a n = true → enc = false → s.bit (rSec 0xC) 0 = false →
      ∀ u, (State.makeRoom n 33 s = (u, none) → exec (.modelInstall b) s = .next (u.mbxPerformed b (ansOf 7 []))) ∧
        ∀ m, State.makeRoom n 33 s = (u, some m) → u.canonical = true → m < 32 → Runs (.modelInstall b) s fun t =>
          t.modelState m = 1 ∧ t.modelGold m = a ∧ t.modelBytes m = n ∧ t.bit (rModel m 0) 3 = bitOf (leAt l 16 1) 0 ∧
          RegsBut [rModel m 0, rModel m 8, rModel m 0xC, rModel m 0x18, rModel m 0x1C] u t ∧ t.mem = u.mem ∧
          t.fwp.mbx = (u.mbxPerformed b { ansOk (leBytes 1 m) with wait := .install m }).fwp.mbx)) ∧
  (∀ (s : State) (b : Fin 64), s.mbxReady b 0x502 none →
    let m := leAt (s.mbxPay b) 0 1
    (31 < m → exec (.modelEvict b) s = .next (s.mbxPerformed b (ansBad 0))) ∧
    (m ≤ 31 → s.modelState m = 0 ∨ s.mbxModel b m = false → exec (.modelEvict b) s = .next (s.mbxPerformed b ansDenied)) ∧
    (m ≤ 31 → s.modelState m ≠ 0 → s.mbxModel b m = true →
      (s.evictable m = true → exec (.modelEvict b) s = .next ((s.evictModel m).mbxPerformed b (ansOk []))) ∧
      (s.evictable m = false → Runs (.modelEvict b) s fun t =>
        (∃ code, Answered b 6 (leBytes 4 code) .none t) ∧ t.regs = s.regs ∧ t.mem = s.mem))) ∧
  (∀ (s : State) (b : Fin 64), s.canonical = true → s.mbxReady b 0x503 none →
    let m := leAt (s.mbxPay b) 0 1
    let x := leAt (s.mbxPay b) 1 1
    (31 < m → exec (.modelPin b) s = .next (s.mbxPerformed b (ansBad 0))) ∧
    (m ≤ 31 → 1 < x → exec (.modelPin b) s = .next (s.mbxPerformed b (ansBad 1))) ∧
    (m ≤ 31 → x ≤ 1 → s.modelState m = 0 ∨ s.mbxModel b m = false → exec (.modelPin b) s = .next (s.mbxPerformed b ansDenied)) ∧
    (m ≤ 31 → x ≤ 1 → s.modelState m ≠ 0 → s.mbxModel b m = true →
      let full := decide (x = 1) && decide (s.word64 (rMhs 0x18) < (s.setBit (rModel m 0) 3 true).pinnedBytes)
      Runs (.modelPin b) s fun t =>
        (full = false → t.bit (rModel m 0) 3 = decide (x = 1) ∧ t.modelState m = s.modelState m ∧ RegsBut [rModel m 0] s t ∧
          Answered b 0 [] .none t) ∧
        (full = true → (∃ code, Answered b 6 (leBytes 4 code) .none t) ∧ t.regs = s.regs) ∧ t.mem = s.mem)) ∧
  (∀ (s : State) (b : Fin 64), s.mbxReady b 0x504 none →
    let l := s.mbxPay b
    let k := leAt l 0 1
    let m := leAt l 1 1
    let code := s.switchCheck k m false
    let u := s.switchReq k m (bitOf (leAt l 2 1) 0) (bitOf (leAt l 2 1) 1) false (leAt l 3 1)
    let mine := s.mbxOwns b (s.clickInst k) && (decide (s.modelState m = 0) || s.mbxModel b m)
    (63 < k ∨ s.clickClass k = 0 → exec (.modelSwitch b) s = .next (s.mbxPerformed b (ansBad 0))) ∧
    (k ≤ 63 → s.clickClass k ≠ 0 → 31 < m → exec (.modelSwitch b) s = .next (s.mbxPerformed b (ansBad 1))) ∧
    (k ≤ 63 → s.clickClass k ≠ 0 → m ≤ 31 →
      (mine = false → exec (.modelSwitch b) s = .next (s.mbxPerformed b ansDenied)) ∧
      (mine = true → Runs (.modelSwitch b) s fun t =>
        (code ≠ 0 → t = u.mbxPerformed b (ansRefused code)) ∧ (code = 0 → t = u.mbxPerformed b { ansOk [] with wait := .switch k })))) ∧
  (∀ (s : State) (b : Fin 64), s.mbxReady b 0x505 none →
    let m := leAt (s.mbxPay b) 0 1
    (31 < m → exec (.modelStatus b) s = .next (s.mbxPerformed b (ansBad 0))) ∧
    (m ≤ 31 → s.modelState m ≠ 0 → s.mbxModel b m = false → exec (.modelStatus b) s = .next (s.mbxPerformed b ansDenied)) ∧
    (m ≤ 31 → s.modelState m = 0 ∨ s.mbxModel b m = true → Runs (.modelStatus b) s fun t =>
      Answered b 0 (leBytes 4 (s.word (rModel m 0)) ++ leBytes 4 (s.word (rModel m 4)) ++ leBytes 4 (s.word (rModel m 0x24))) .none t ∧
      t.regs = s.regs ∧ t.mem = s.mem)) ∧
  (∀ (s : State) (p : Fin 6) (k v : Fin 4) (c : BitVec 16) (a : BitVec 128), s.canonical = true →
    (k.val = 1 ∨ k.val = 3 → exec (.logEntryWrite p k v c a) s = .next s) ∧
    (k.val = 0 → s.logLive = true → s.poison = [] →
      (s.word (rProc p 0x14) + 2 ^ 32 - s.word (rProc p 0x18)) % 2 ^ 32 < s.logSize p →
      let n := fmGetD 0 s.fwp.events (65536 * p.val + c.toNat)
      let h := s.word (rProc p 0x14)
      Runs (.logEntryWrite p k v c a) s fun t =>
        fmGet t.fwp.events (65536 * p.val + c.toNat) = some (n + 1) ∧
        (4 ≤ n → t.regs = s.regs ∧ t.mem = s.mem) ∧
        (n < 4 → t.word (rProc p 0x14) = (h + 1) % 2 ^ 32 ∧
          t.bytes (s.logSlot p h) 8 = leBytes 4 h ++ [0] ++ leBytes 1 v ++ leBytes 2 c.toNat ∧
          t.bytes (s.logSlot p h + 16) 4 = leBytes 4 (a.toNat % 2 ^ 32) ∧ MemoryBut (s.logSlot p h) 32 s t ∧ RegsBut [rProc p 0x14] s t)) ∧
    (k.val = 2 → 1024 ≤ c.toNat ∨ s.bit (rFwp (0x1000 + p.val * 0x80 + c.toNat / 32 * 4)) (c.toNat % 32) = false →
      exec (.logEntryWrite p k v c a) s = .next s) ∧
    (∀ m d f, k.val = 2 → c.toNat < 1024 → s.bit (rFwp (0x1000 + p.val * 0x80 + c.toNat / 32 * 4)) (c.toNat % 32) = true →
      fmGet s.fwp.trace p = some (m, d, f) → s.fld (rProc p 0x20) 15 0 ≤ m → Runs (.logEntryWrite p k v c a) s fun t =>
        t.word (rProc p 0x24) = (s.word (rProc p 0x24) + 1) % 2 ^ 32 ∧ t.bit rFwpIrq 3 = true ∧
        fmGet t.fwp.trace p = some (m, d + 1, if d = 0 then c.toNat else f) ∧ RegsBut [rProc p 0x24, rFwpIrq] s t ∧ t.mem = s.mem)) ∧
  (∀ (s : State) (m : Master) (p : Fin 6) (v : BitVec 32),
    let held := (s.word (rProc p 0x14) + 2 ^ 32 - s.word (rProc p 0x18)) % 2 ^ 32
    let n := (v.toNat + 2 ^ 32 - s.word (rProc p 0x18)) % 2 ^ 32
    (s.sysWriter m = false → exec (.logTailWrite m p v) s = .next (s.refuse m 2 (rProc p 0x18))) ∧
    (s.canonical = true → s.sysWriter m = true → Runs (.logTailWrite m p v) s fun t =>
      (held < n → t.word (rProc p 0x18) = s.word (rProc p 0x18) ∧ t.bit (rProc p 0x20) 16 = true ∧ RegsBut [rProc p 0x20] s t) ∧
      (n ≤ held → t.word (rProc p 0x18) = v.toNat ∧ RegsBut [rProc p 0x18] s t) ∧ t.mem = s.mem ∧ t.resp = ⟨false, false, []⟩)) ∧
  (∀ (s : State) (p : Fin 6) (m f : Nat), fmGet s.fwp.trace p = some (m, 0, f) → s.fwp.events = [] → Runs (.traceWindow p) s fun t =>
    fmGet t.fwp.trace p = some (0, 0, f) ∧ t.fwp.events = [] ∧ t.regs = s.regs ∧ t.mem = s.mem) ∧
  (∀ (s : State) (p : Fin 6) (m d f : Nat), s.canonical = true → fmGet s.fwp.trace p = some (m, d, f) → d ≠ 0 → s.fwp.events = [] →
    1 ≤ s.fld (rProc p 0x20) 15 0 → s.logLive = true → s.poison = [] →
    (s.word (rProc p 0x14) + 2 ^ 32 - s.word (rProc p 0x18)) % 2 ^ 32 < s.logSize p →
    Runs (.traceWindow p) s fun t =>
      fmGet t.fwp.trace p = some (1, 0, 0) ∧ t.word (rProc p 0x14) = (s.word (rProc p 0x14) + 1) % 2 ^ 32 ∧
      t.bytes (s.logSlot p (s.word (rProc p 0x14)) + 4) 1 = [3] ∧
      t.bytes (s.logSlot p (s.word (rProc p 0x14)) + 16) 8 = leBytes 4 d ++ leBytes 4 f) ∧
  (∀ (s : State) (m : Master), s.isIsland m = false → exec (.selftest (some m)) s = .next (s.refuse m 2 (rFwp 0xC))) ∧
  (∀ (s : State) (m : Master), s.canonical = true → s.isIsland m = true → Runs (.selftest (some m)) s fun t =>
    t.phase = (if s.phase = 2 then 3 else s.phase) ∧ t.mem = s.mem ∧ t.resp = ⟨false, false, []⟩ ∧
    (s.phase = 2 → ∀ b, b < 64 → t.word (rMbx b 0x20) = 0)) ∧
  ∀ (s : State), s.canonical = true → (s.phase ≠ 3 → exec (.selftest none) s = .next s) ∧
    (s.phase = 3 → Runs (.selftest none) s fun t =>
      t.phase = 2 ∧ t.bit rFwpIrq 5 = true ∧ t.mem = s.mem ∧ ∀ b, b < 64 → t.word (rMbx b 0x20) = 0)

/-- Frames at the MACs and host channels. -/
def Obligations.FramesEnterAndLeaveTheMacs : Prop :=
  (∀ (s : State) (mac : Fin 16) (frame : List Byte) (secOk pass : Bool),
    let n := mac.val
    let f := frame.take (frame.length - 4)
    let bad := frame.length < 64 ∨ s.fld (rEthPort n 0) 31 16 < frame.length ∨ crcFcs f ≠ leAt frame (frame.length - 4) 4
    let u := s.bump (rEthPort n 0x80)
    let fr : EthFrame := ⟨f, u.macStamp n true, n, 0, 0, false, false⟩
    (s.ethLink n = false → exec (.ethFrameReceive mac frame secOk pass) s = .next s) ∧
    (s.ethLink n = true → bad → exec (.ethFrameReceive mac frame secOk pass) s = .next (s.bump (rEthPort n 0x88))) ∧
    (s.ethLink n = true → ¬bad → fType f = 0x8808 → exec (.ethFrameReceive mac frame secOk pass) s = .next u) ∧
    (s.ethLink n = true → ¬bad → fType f ≠ 0x8808 → s.macsec n = true → secOk = false →
      exec (.ethFrameReceive mac frame secOk pass) s = .next (u.bump (rEthPort n 0x9C))) ∧
    (s.ethLink n = true → ¬bad → fType f ≠ 0x8808 → s.macsec n = false ∨ secOk = true →
      (s.canonical = true → fIsPtp f = true → Runs (.ethFrameReceive mac frame secOk pass) s fun t =>
        t.ethQueue 17 0 = s.ethQueue 17 0 ++ [⟨f, s.macStamp n true, n, 0, 0, false, false⟩] ∧
        t.word (rEthPort n 0x80) = (s.word (rEthPort n 0x80) + 1) % 2 ^ 32 ∧ RegsBut [rEthPort n 0x80] s t ∧ t.mem = s.mem ∧ t.out = s.out) ∧
      (fIsPtp f = false → u.flowMatch n f = none → u.ntscfMatch f = none →
        exec (.ethFrameReceive mac frame secOk pass) s = .next (if pass then u.ethSwitch fr else u)) ∧
      (∀ g, fIsPtp f = false → u.flowMatch n f = none → u.ntscfMatch f = some g →
        exec (.ethFrameReceive mac frame secOk pass) s = .next (u.ntscfIn g (f.drop (fTypeOff f + 14)))) ∧
      ∀ e, s.canonical = true → fIsPtp f = false → u.flowMatch n f = some e → u.bit (rEth (0x4000 + e * 0x20)) 14 = false →
        Runs (.ethFrameReceive mac frame secOk pass) s fun t =>
          let k := (fFlowPayload f).length
          (k ≤ s.flowBucket → t.sfe.flowQ = s.sfe.flowQ ++ [(e, fFlowPayload f)] ∧ t.eth.bucket = s.flowBucket - k ∧ t.regs = u.regs) ∧
          (s.flowBucket < k → t.sfe = s.sfe ∧ t.eth.bucket = s.flowBucket ∧ RegsBut [rEthPort n 0x80, rEth 8, rEth 0] s t ∧
            t.word (rEth 8) = (s.word (rEth 8) + 1) % 2 ^ 32) ∧
          t.eth.bucketAt = s.now ∧ t.mem = s.mem ∧ t.out = s.out)) ∧
  (∀ (s : State) (port : Fin 18) (cls : Fin 8) (pre : Bool) (fr : EthFrame) (r : List EthFrame),
    let p := port.val
    let k := cls.val
    let long := ∃ g, s.gateMax p k = some g ∧ g < s.txNs p (wireLen fr.data)
    let higher := ∃ h, k < h ∧ h < 8 ∧ s.ethReady p h = true
    (s.ethQueue p k = [] → exec (.ethFrameTransmit port cls pre) s = .next s) ∧
    (s.ethQueue p k = fr :: r →
      (16 ≤ p → Runs (.ethFrameTransmit port cls pre) s fun t => t = s.ethPop p k ∧ t.ethQueue p k = r) ∧
      (p < 16 → s.ethLink p = false → exec (.ethFrameTransmit port cls pre) s = .next s) ∧
      (s.canonical = true → p < 16 → s.ethLink p = true → long → fr.txIdx = 0 → Runs (.ethFrameTransmit port cls pre) s fun t =>
        t.ethQueue p k = r ∧ t.word (rEthPort p 0x90) = (s.word (rEthPort p 0x90) + 1) % 2 ^ 32 ∧ RegsBut [rEthPort p 0x90] s t ∧
        t.mem = s.mem ∧ t.out = s.out) ∧
      (p < 16 → s.ethLink p = true → long → fr.txIdx ≠ 0 → exec (.ethFrameTransmit port cls pre) s =
        .next (((s.ethPop p k).bump (rEthPort p 0x90)).chanTxDone fr.chan 4 [])) ∧
      (p < 16 → s.ethLink p = true → ¬long → s.ethReady p k = false ∨ higher → exec (.ethFrameTransmit port cls pre) s = .next s) ∧
      (p < 16 → s.ethLink p = true → ¬long → s.ethReady p k = true → ¬higher →
        (pre = false → exec (.ethFrameTransmit port cls pre) s = .next ((s.ethPop p k).ethSend p fr)) ∧
        (s.canonical = true → pre = false → s.macsec p = false → fEventOff (sliceBytes fr.data 0 (max 60 fr.data.length)) = none → fr.txIdx = 0 →
          Runs (.ethFrameTransmit port cls pre) s fun t =>
            let f := sliceBytes fr.data 0 (max 60 fr.data.length)
            Emitted [.eth p (f ++ leBytes 4 (if fr.poison then 2 ^ 32 - 1 - crcFcs f else crcFcs f))] s t ∧ t.ethQueue p k = r ∧
            t.word (rEthPort p 0x84) = (s.word (rEthPort p 0x84) + 1) % 2 ^ 32 ∧
            t.word (rEthPort p 0x8C) = (s.word (rEthPort p 0x8C) + b2n fr.poison) % 2 ^ 32 ∧
            RegsBut [rEthPort p 0x84, rEthPort p 0x8C] s t ∧ t.mem = s.mem) ∧
        (pre = true → exec (.ethFrameTransmit port cls pre) s =
          .next (((if bitOf (s.word (rEthPort p 0x48)) k then s.bump (rEthPort p 0xA0) else s).ethPop p k).ethSend p fr))))) ∧
  (∀ (s : State) (c : Fin 64), let q := fmGet s.hqm.queues (s.word (rChan c 4) % 2 ^ 19)
    let kind := s.fld (rChan c 0) 7 6
    (q = none → exec (.hostChannelTx c) s = .next s) ∧
    ∀ x, q = some x →
      (x.count = 0 ∨ x.faulted = true ∨ s.chanWaits c = true ∨ kind = 0 ∨ kind = 3 → exec (.hostChannelTx c) s = .next s) ∧
      (x.count ≠ 0 → x.faulted = false → s.chanWaits c = false → kind = 1 ∨ kind = 2 →
        let own := asInst (s.fld (rChan c 0) 5 0)
        ∀ u a, s.rdV own mHqm 1 (x.base + x.head % x.size * x.entryBytes) 32 = (u, a) →
          (∀ e, a = .error e → exec (.hostChannelTx c) s = .next (u.chanTxDone c 3 [])) ∧
          (∀ e, a = .ok (e, true) → exec (.hostChannelTx c) s = .next (u.chanTxDone c 2 [])) ∧
          ∀ e v b, a = .ok (e, false) → u.rdLong own mHqm (leAt e 0 8) (leAt e 8 2) = (v, b) →
            let len := leAt e 8 2
            let ts := bitOf (leAt e 0xA 2) 0
            let n := leAt e 0xD 1
            (∀ e, b = .error e → exec (.hostChannelTx c) s = .next (v.chanTxDone c 3 [])) ∧
            (∀ f, b = .ok (f, true) → exec (.hostChannelTx c) s = .next (v.chanTxDone c 2 [])) ∧
            ∀ f, b = .ok (f, false) →
              let ports := v.ethPorts 16 f
              let noCan := 16 ≤ n ∨ v.bit (rChan c 0x18) n = false ∨ v.canFmt n < cbFmt f ∨ v.canOn n = false
              let dark := (∀ p, p < 16 → bitOf ports p = true → v.ethLink p = false) ∧ bitOf ports 16 = false
              (kind = 2 → noCan → exec (.hostChannelTx c) s = .next ((v.canDrop (n % 16)).chanTxDone c 6 [])) ∧
              (kind = 2 → ¬noCan → 32 ≤ (v.canTx n).length → exec (.hostChannelTx c) s = .next v) ∧
              (kind = 2 → ¬noCan → (v.canTx n).length < 32 → ts = true → Runs (.hostChannelTx c) s fun t =>
                t.canTx n = v.canTx n ++ [⟨f, c, 1⟩] ∧ t.regs = v.regs ∧ t.mem = v.mem) ∧
              (kind = 2 → ¬noCan → (v.canTx n).length < 32 → ts = false → exec (.hostChannelTx c) s =
                .next (({ v with can.tx := fmPut v.can.tx n (v.canTx n ++ [⟨f, c, 0⟩]) } : State).chanTxDone c 0 [])) ∧
              (kind = 1 → len < 14 → exec (.hostChannelTx c) s = .next (v.chanTxDone c 1 [])) ∧
              (kind = 1 → 9212 < len → exec (.hostChannelTx c) s = .next (v.chanTxDone c 4 [])) ∧
              (kind = 1 → 14 ≤ len → len ≤ 9212 → ports = 0 → exec (.hostChannelTx c) s = .next (v.chanTxDone c 1 [])) ∧
              (kind = 1 → 14 ≤ len → len ≤ 9212 → ports ≠ 0 → dark → exec (.hostChannelTx c) s = .next (v.chanTxDone c 5 [])) ∧
              (kind = 1 → 14 ≤ len → len ≤ 9212 → ports ≠ 0 → ¬dark → ts = false → exec (.hostChannelTx c) s =
                .next ((v.ethSwitch ⟨f, zeroBytes 16, 16, c, 0, false, false⟩).chanTxDone c 0 [])) ∧
              (kind = 1 → 14 ≤ len → len ≤ 9212 → ts = true → (∀ p, p < 16 → bitOf ports p = true → v.ethLink p = false) →
                bitOf ports 16 = true → exec (.hostChannelTx c) s =
                  .next ((v.ethSwitch ⟨f, zeroBytes 16, 16, c, 0, false, false⟩).chanTxDone c 0 [])) ∧
              ∀ p, kind = 1 → 14 ≤ len → len ≤ 9212 → ts = true → p < 16 → bitOf ports p = true → v.ethLink p = true →
                (∀ h, h < p → bitOf ports h = true → v.ethLink h = false) → exec (.hostChannelTx c) s =
                  .next (let w := (v.ethLearn f 16).ethForward (setBitsOf ports p p 0) ⟨f, zeroBytes 16, 16, c, 0, false, false⟩
                    w.ethEnqueue p (w.ethClass p f)
                      ⟨egressTag f (bitOf (leAt (v.tblEntry 1 (fVid f)) 4 4) p), zeroBytes 16, 16, c, 1, false, false⟩))) ∧
  (∀ (s : State) (mac : Fin 16) (up : Bool), s.ethLink mac = up → exec (.ethLinkChange mac up) s = .next s) ∧
  (∀ (s : State) (mac : Fin 16), s.canonical = true → s.ethLink mac = false → Runs (.ethLinkChange mac true) s fun t =>
    t.ethLink mac = true ∧ t.fld (rEthPort mac 4) 7 4 = s.fld (rEthPort mac 0) 7 4 ∧ t.bit (rEth 0) 0 = true ∧
    RegsBut [rEthPort mac 4, rEth 0] s t ∧ t.mem = s.mem ∧ t.eth = s.eth) ∧
  ∀ (s : State) (mac : Fin 16) (k : Fin 8) (q : List EthFrame), s.canonical = true → s.ethLink mac = true →
    s.eth.queues = [(mac.val * 8 + k.val, q)] → (∀ f ∈ q, f.txIdx = 0) → Runs (.ethLinkChange mac false) s fun t =>
      t.ethLink mac = false ∧ t.bit (rEth 0) 0 = true ∧ t.eth.queues = [] ∧
      t.word (rEthPort mac 0xA4) = (s.word (rEthPort mac 0xA4) + q.length) % 2 ^ 32 ∧
      RegsBut [rEthPort mac 4, rEthPort mac 0xA4, rEth 0] s t ∧ t.mem = s.mem ∧ t.out = s.out

/-- Schedules, stamps, management and tables. -/
def Obligations.SchedulesStampsAndTablesOfTheSwitch : Prop :=
  (∀ (s : State) (port : Fin 14), (s.operList port = [] → exec (.gateIntervalExpire port) s = .next s) ∧
    (s.operList port ≠ [] → Runs (.gateIntervalExpire port) s fun t =>
      fmGet t.eth.gateIdx port = some (gateEntry (s.operList port) (s.gatePos port) 0) ∧ t.operList port = s.operList port ∧
      t.regs = s.regs ∧ t.mem = s.mem ∧ t.out = s.out)) ∧
  (∀ (s : State) (m : Master) (port : Fin 14), let a := rEthPort port 0x3C
    (s.netMaster m = false → exec (.gclSwap m port) s = .next (s.refuse m 2 a)) ∧
    (s.netMaster m = true → s.bit a 1 = true → exec (.gclSwap m port) s = .next (s.respOk [])) ∧
    (s.canonical = true → s.netMaster m = true → s.bit a 1 = false → Runs (.gclSwap m port) s fun t =>
      let base := s.word64 (rEthPort port 0x30)
      let cyc := s.word (rEthPort port 0x38)
      let from_ := max (s.word64 (rEthPort port 0x40)) (s.portNs port)
      t.bit a 1 = true ∧ RegsBut [a] s t ∧ t.mem = s.mem ∧ t.resp = ⟨false, false, []⟩ ∧ t.eth.oper = s.eth.oper ∧
      ∃ x, fmGet t.eth.swapAt port = some x ∧ (cyc = 0 → x = from_) ∧
        (cyc ≠ 0 → base ≤ from_ → from_ ≤ x ∧ x < from_ + cyc ∧ (x - base) % cyc = 0))) ∧
  (∀ (s : State) (port : Fin 14), (fmGet s.eth.swapAt port = none → exec (.gclSwapApply port) s = .next s) ∧
    ∀ x, fmGet s.eth.swapAt port = some x →
      (s.portNs port < x → exec (.gclSwapApply port) s = .next s) ∧
      (s.canonical = true → s.eth.swapAt = [(port.val, x)] → x ≤ s.portNs port → Runs (.gclSwapApply port) s fun t =>
        t.operList port = s.adminList port ∧ fmGet t.eth.operBase port = some (s.word64 (rEthPort port 0x30)) ∧
        fmGet t.eth.operCycle port = some (s.word (rEthPort port 0x38)) ∧
        fmGet t.eth.gateIdx port = some (gateEntry (s.adminList port) (t.gatePos port) 0) ∧ t.eth.swapAt = [] ∧
        t.bit (rEthPort port 0x3C) 1 = false ∧ RegsBut [rEthPort port 0x3C] s t ∧ t.mem = s.mem)) ∧
  (∀ (s : State) (m : Master) (port : Fin 16) (wide : Bool), let a := rEthPort port 0x10
    (netReader m = false → exec (.ethPortTxtsRead m port wide) s = .next (s.refuse m 1 a)) ∧
    (s.canonical = true → netReader m = true → Runs (.ethPortTxtsRead m port wide) s fun t =>
      let l := fmGetD [] s.eth.txts port
      t.resp = ⟨false, false, (s.regBytes a 32).take (if wide then 8 else 4)⟩ ∧ fmGet t.eth.txts port = some (l.drop 1) ∧
      t.regBytes a 32 = sliceBytes ((l.drop 1).headD []) 0 32 ∧ (∀ x, x < a ∨ a + 32 ≤ x → t.word x = s.word x) ∧
      (∀ k, k < 8 → fmGet t.caps (2 ^ 52 * m.toNat + a + 4 * k) = some (BitVec.ofNat 32 (s.word (a + 4 * k)))) ∧ t.mem = s.mem)) ∧
  (∀ (s : State) (m : Master) (v : BitVec 32), let a := rEth 0x20
    (s.netMaster m = false → exec (.mdioGo m v) s = .next (s.refuse m 2 a)) ∧
    (s.netMaster m = true → s.eth.mdioBusy = true → exec (.mdioGo m v) s = .next (s.respOk [])) ∧
    (s.canonical = true → s.netMaster m = true → s.eth.mdioBusy = false → Runs (.mdioGo m v) s fun t =>
      t.word a = 2 ^ 31 + v.toNat % 2 ^ 18 ∧ Emitted [.mdio (v.toNat % 2 ^ 18) (s.word (rEth 0x24))] s t ∧
      t.eth.mdioBusy = true ∧ RegsBut [a] s t ∧ t.resp = ⟨false, false, []⟩ ∧ t.mem = s.mem)) ∧
  (∀ (s : State) (d : BitVec 16), (s.eth.mdioBusy = false → exec (.mdioAccessDone d) s = .next s) ∧
    (s.canonical = true → s.eth.mdioBusy = true → Runs (.mdioAccessDone d) s fun t =>
      t.eth.mdioBusy = false ∧ t.bit (rEth 0x20) 31 = false ∧
      t.fld (rEth 0x24) 15 0 = (if s.bit (rEth 0x20) 17 then d.toNat else s.fld (rEth 0x24) 15 0) ∧
      RegsBut [rEth 0x20, rEth 0x24] s t ∧ t.mem = s.mem)) ∧
  ∀ (s : State) (m : Master) (tb : Fin 16) (i : BitVec 16),
    (s.netMaster m = false → exec (.ethTblGo m tb i) s = .next (s.refuse m 2 (rEth 0x30))) ∧
    (s.canonical = true → s.netMaster m = true → tblCount tb ≤ i.toNat → Runs (.ethTblGo m tb i) s fun t =>
      t.bit (rEth 0) 5 = true ∧ t.word (rEth 0x30) = tb.val + 16 * i.toNat ∧ RegsBut [rEth 0, rEth 0x30] s t ∧ t.eth = s.eth ∧
      t.resp = ⟨false, false, []⟩ ∧ t.mem = s.mem) ∧
    (s.canonical = true → s.netMaster m = true → i.toNat < tblCount tb → s.bit (rEth 0x34) 0 = false → tb ≠ 8 →
      (s.tblEntry tb i.toNat).length = 64 → Runs (.ethTblGo m tb i) s fun t =>
        t.regBytes (rEth 0x40) 64 = s.tblEntry tb i.toNat ∧ t.word (rEth 0x30) = tb.val + 16 * i.toNat ∧
        (∀ a, a ≠ rEth 0x30 → a < rEth 0x40 ∨ rEth 0x80 ≤ a → t.word a = s.word a) ∧ t.eth = s.eth ∧
        t.resp = ⟨false, false, []⟩ ∧ t.mem = s.mem) ∧
    (s.netMaster m = true → i.toNat < tblCount tb → s.bit (rEth 0x34) 0 = true →
      (tb = 7 → s.bit (rEthPort (i.toNat / 256) 0x3C) 1 = true → Runs (.ethTblGo m tb i) s fun t => t.eth = s.eth) ∧
      (s.canonical = true → tb ≠ 7 ∨ s.bit (rEthPort (i.toNat / 256) 0x3C) 1 = false → Runs (.ethTblGo m tb i) s fun t =>
        t.tblEntry tb i.toNat = s.regBytes (rEth 0x40) 64 ∧ t.word (rEth 0x30) = tb.val + 16 * i.toNat ∧
        (∀ k, k ≠ 65536 * tb.val + i.toNat → fmGet t.eth.tbl k = fmGet s.eth.tbl k) ∧ RegsBut [rEth 0x30] s t ∧
        t.resp = ⟨false, false, []⟩ ∧ t.mem = s.mem))

/-- PTP clocks. -/
def Obligations.ClocksStepSlewAndPulse : Prop :=
  (∀ (s : State) (m : Master) (i : Option (Fin 64)) (c : Fin 4) (v : BitVec 64), let n := v.toNat % 2 ^ 36
    let bad := s.ptpOn c = false ∨ n < 7 * 2 ^ 32 ∨ 9 * 2 ^ 32 < n
    (s.ptpWriter m i c false = false → exec (.ptpClkIncWrite m i c v) s = .next (s.refuse m 2 (rPtpClk c 8))) ∧
    (s.ptpWriter m i c false = true → bad → exec (.ptpClkIncWrite m i c v) s = .next ((s.respOk []).ptpCount c)) ∧
    (s.ptpWriter m i c false = true → ¬bad → s.ptp.clk.length = 4 → Runs (.ptpClkIncWrite m i c v) s fun t =>
      (t.pclk c).incPend = some n ∧ (∀ k, k ≠ c.val → t.pclk k = s.pclk k) ∧ t.regs = s.regs ∧ t.mem = s.mem ∧
      t.resp = ⟨false, false, []⟩)) ∧
  (∀ (s : State) (m : Master) (i : Option (Fin 64)) (c : Fin 4) (v : BitVec 64),
    let ofs := toSigned 32 v.toNat
    let ticks : Nat := v.toNat / 2 ^ 32
    let inc : Nat := (s.pclk c).incPend.getD (s.word64 (rPtpClk c 8))
    let tot : Int := inc * ticks + ofs * 2 ^ 32
    let bad := s.ptpOn c = false ∨ ticks = 0 ∨ (ticks * inc : Nat) < 2000 * (ofs * 2 ^ 32).natAbs ∨ tot < 7 * 2 ^ 32 * ticks ∨ 9 * 2 ^ 32 * ticks < tot
    (s.ptpWriter m i c false = false → exec (.ptpClkAdjWrite m i c v) s = .next (s.refuse m 2 (rPtpClk c 0x38))) ∧
    (s.ptpWriter m i c false = true → bad → exec (.ptpClkAdjWrite m i c v) s = .next ((s.respOk []).ptpCount c)) ∧
    (s.canonical = true → s.ptpWriter m i c false = true → ¬bad → s.ptp.clk.length = 4 → Runs (.ptpClkAdjWrite m i c v) s fun t =>
      t.pclk c = { s.pclk c with slewOn := true, slewOfs := ofs, slewTicks := ticks, slewK := 0, slewDone := 0 } ∧
      t.bit (rPtpClk c 4) 1 = true ∧ RegsBut [rPtpClk c 4] s t ∧ t.mem = s.mem ∧ t.resp = ⟨false, false, []⟩)) ∧
  (∀ (s : State) (c : Fin 4), let done := (s.pclk c).slewOn = true ∧ (s.pclk c).slewK = (s.pclk c).slewTicks
    (¬done → exec (.ptpSlewDone c) s = .next s) ∧
    (s.canonical = true → done → s.ptp.clk.length = 4 → Runs (.ptpSlewDone c) s fun t =>
      (t.pclk c).slewOn = false ∧ t.bit (rPtpClk c 4) 1 = false ∧ t.bit rPtpIrq (8 * c.val + 3) = true ∧
      RegsBut [rPtpClk c 4, rPtpIrq] s t ∧ t.mem = s.mem)) ∧
  (∀ (s : State) (m : Master) (i : Option (Fin 64)) (c : Fin 4) (v : BitVec 64), let u := s.respOk []
    let k := s.pclk c
    let waits := k.step ≠ none ∨ k.set ≠ none
    (s.ptpWriter m i c false = false → exec (.ptpClkStepWrite m i c v) s = .next (s.refuse m 2 (rPtpClk c 0x20))) ∧
    (s.ptpWriter m i c false = true → s.ptpOn c = false → exec (.ptpClkStepWrite m i c v) s = .next (u.ptpCount c)) ∧
    (s.ptpWriter m i c false = true → s.ptpOn c = true → v = 0 → exec (.ptpClkStepWrite m i c v) s = .next u) ∧
    (s.ptpWriter m i c false = true → s.ptpOn c = true → v ≠ 0 →
      (s.bit (rPtpClk c 4) 0 = true → exec (.ptpClkStepWrite m i c v) s = .next (u.ptpIrq c 2)) ∧
      (s.bit (rPtpClk c 4) 0 = false → waits → exec (.ptpClkStepWrite m i c v) s = .next ((u.ptpIrq c 2).ptpCount c)) ∧
      (s.bit (rPtpClk c 4) 0 = false → ¬waits → v.toInt.natAbs ≤ s.word (rPtpClk c 0x34) → s.ptp.clk.length = 4 →
        Runs (.ptpClkStepWrite m i c v) s fun t => t.pclk c = { k with step := some v.toInt, who := m.toNat } ∧
          (∀ j, j ≠ c.val → t.pclk j = s.pclk j) ∧ t.regs = s.regs ∧ t.mem = s.mem ∧ t.resp = ⟨false, false, []⟩) ∧
      (s.canonical = true → s.bit (rPtpClk c 4) 0 = false → ¬waits → s.word (rPtpClk c 0x34) < v.toInt.natAbs →
        Runs (.ptpClkStepWrite m i c v) s fun t => t = u.ptpHold c v.toInt m ∧ t.word64 (rPtpClk c 0x40) = v.toNat ∧
          t.bit (rPtpClk c 4) 0 = true ∧ t.bit rPtpIrq (8 * c.val) = true ∧ Faulted 0x20 1 s t ∧ t.pclk c = k))) ∧
  (∀ (s : State) (m : Master) (i : Option (Fin 64)) (c : Fin 4) (b : Bool), let a := rPtpClk c 0x48
    let p := s.bit (rPtpClk c 4) 0
    (s.ptpWriter m i c true = false →
      exec (.accept m i c b) s = .next (s.refuse m 2 a) ∧ exec (.reject m i c) s = .next (s.refuse m 2 a)) ∧
    (s.ptpWriter m i c true = true →
      exec (.accept m i c true) s = .next ((s.ptpCount c).respOk []) ∧
      (p = false → exec (.accept m i c false) s = .next ((s.ptpCount c).respOk []) ∧
        exec (.reject m i c) s = .next ((s.ptpCount c).respOk [])) ∧
      (p = true → s.ptp.clk.length = 4 →
        (Runs (.accept m i c false) s fun t => (t.pclk c).step = some (toSigned 64 (s.word64 (rPtpClk c 0x40))) ∧
          t.regs = s.regs ∧ t.mem = s.mem ∧ t.resp = ⟨false, false, []⟩) ∧
        (s.canonical = true → Runs (.reject m i c) s fun t => (t.pclk c).step = none ∧ t.word64 (rPtpClk c 0x40) = 0 ∧
          t.bit (rPtpClk c 4) 0 = false ∧ t.word (rPtpClk c 0x50) = (s.word (rPtpClk c 0x50) + 1) % 2 ^ 32 ∧
          RegsBut [rPtpClk c 0x40, rPtpClk c 0x44, rPtpClk c 4, rPtpClk c 0x50] s t ∧ t.mem = s.mem ∧
          t.resp = ⟨false, false, []⟩)))) ∧
  (∀ (s : State) (m : Master) (i : Option (Fin 64)) (c : Fin 4) (ns : BitVec 30), let u := s.respOk []
    let k := s.pclk c
    let waits := k.step ≠ none ∨ k.set ≠ none
    (s.ptpWriter m i c false = false → exec (.ptpClkSet m i c ns) s = .next (s.refuse m 2 (rPtpClk c 0x30))) ∧
    (s.ptpWriter m i c false = true → s.ptpOn c = false → exec (.ptpClkSet m i c ns) s = .next (u.ptpCount c)) ∧
    (s.ptpWriter m i c false = true → s.ptpOn c = true → s.bit (rPtpClk c 4) 0 = true →
      exec (.ptpClkSet m i c ns) s = .next (u.ptpIrq c 2)) ∧
    (s.ptpWriter m i c false = true → s.ptpOn c = true → s.bit (rPtpClk c 4) 0 = false → waits ∨ 1000000000 ≤ ns.toNat →
      exec (.ptpClkSet m i c ns) s = .next ((u.ptpIrq c 2).ptpCount c)) ∧
    (s.ptpWriter m i c false = true → s.ptpOn c = true → s.bit (rPtpClk c 4) 0 = false → ¬waits → ns.toNat < 1000000000 →
      s.ptp.clk.length = 4 → Runs (.ptpClkSet m i c ns) s fun t =>
        t.pclk c = { k with set := some (s.word64 (rPtpClk c 0x28) % 2 ^ 48, ns.toNat), who := m.toNat } ∧ t.regs = s.regs ∧
        t.mem = s.mem ∧ t.resp = ⟨false, false, []⟩)) ∧
  (∀ (s : State) (c : Fin 4), let k := s.pclk c
    let u := s.modPclk c fun x => { x with step := none, set := none }
    (k.step = none → k.set = none → exec (.ptpStepApply c) s = .next u) ∧
    (∀ d, k.step = some d →
      exec (.ptpStepApply c) s = .next ((u.ptpUnhold c).ptpApplied c (s.ptpQ c + d * 2 ^ 32)) ∧
      (s.canonical = true → (∀ p, p < 14 → s.operList p = []) → s.ptp.clk.length = 4 →
        (∀ n, n < 16 → s.axLive n = false) →
        0 ≤ s.ptpNs c + d → s.ptpNs c + d < 2 ^ 48 * 1000000000 → Runs (.ptpStepApply c) s fun t =>
          (t.ptpNs c : Int) = s.ptpNs c + d ∧ t.ptpFrac c = s.ptpFrac c ∧ t.bit (rPtpClk c 4) 3 = false ∧
          t.fld (rPtpClk c 4) 15 8 = (s.fld (rPtpClk c 4) 15 8 + 1) % 256 ∧
          t.word (rPtpClk c 0x4C) = (s.word (rPtpClk c 0x4C) + 1) % 2 ^ 32 ∧ t.bit rPtpIrq (8 * c.val + 1) = true ∧
          (t.pclk c).step = none ∧ t.bit (rPtpClk c 4) 0 = false) ∧
      (s.canonical = true → s.ptpNs c + d < 0 ∨ 2 ^ 48 * 1000000000 ≤ s.ptpNs c + d → Runs (.ptpStepApply c) s fun t =>
        t.ptpQ c = s.ptpQ c ∧ t.bit (rPtpClk c 4) 3 = true ∧ t.bit rPtpIrq (8 * c.val + 2) = true)) ∧
    ∀ sec ns, k.step = none → k.set = some (sec, ns) →
      let x := 1000000000 * sec + ns
      let d : Int := x - s.ptpNs c
      (s.bit (rPtpClk c 4) 2 = false → exec (.ptpStepApply c) s = .next ((u.setBit (rPtpClk c 4) 2 true).ptpApplied c (2 ^ 32 * x))) ∧
      (s.bit (rPtpClk c 4) 2 = true →
        (d = 0 → exec (.ptpStepApply c) s = .next u) ∧
        (d ≠ 0 → s.word (rPtpClk c 0x34) < d.natAbs →
          exec (.ptpStepApply c) s = .next (u.ptpHold c d (BitVec.ofNat 16 k.who))) ∧
        (d ≠ 0 → d.natAbs ≤ s.word (rPtpClk c 0x34) → exec (.ptpStepApply c) s = .next (u.ptpApplied c (2 ^ 32 * x))))) ∧
  (∀ s : State, let cfg := s.word (rPtp 0x10)
    let c := cfg % 4
    let ofs := s.fld (rPtp 0x14) 29 0
    let goal := 1000000000 * ((s.ptpNs c - ofs) / 1000000000) + ofs
    let due := bitOf cfg 2 = true ∧ s.ptpOn c = true ∧ ofs < 1000000000 ∧ ofs ≤ s.ptpNs c ∧ s.ptp.ppsFrom < goal
    (¬due → exec .ppsOutPulse s = .next s) ∧
    (due → Runs .ppsOutPulse s fun t => Emitted [.pin ballPps true, .pin ballPps false] s t ∧ t.ptp.ppsFrom = goal ∧
      t.regs = s.regs ∧ t.mem = s.mem ∧ exec .ppsOutPulse t = .next t)) ∧
  ∀ (s : State) (v : Bool), let cfg := s.word (rPtp 0x18)
    (s.ptp.ppsIn = v → exec (.ppsInEdge v) s = .next s) ∧
    (s.ptp.ppsIn ≠ v → bitOf cfg 2 = false ∨ bitOf cfg 3 = v → exec (.ppsInEdge v) s = .next { s with ptp.ppsIn := v }) ∧
    (s.canonical = true → s.ptp.ppsIn ≠ v → bitOf cfg 2 = true → bitOf cfg 3 ≠ v → Runs (.ppsInEdge v) s fun t =>
      t.regBytes (rPtp 0x20) 16 = s.ptpStamp (cfg % 4) (2 ^ 32 * s.ptpNs (cfg % 4)) ∧ t.bit rPtpIrq 7 = true ∧
      t.ptp.ppsIn = v ∧ RegsBut [rPtp 0x20, rPtp 0x24, rPtp 0x28, rPtp 0x2C, rPtpIrq] s t ∧ t.mem = s.mem)

/-- CAN controllers and the gateway's frames. -/
def Obligations.CanControllersCarryFrames : Prop :=
  (∀ (s : State) (n : Fin 16) (b : List Byte),
    let u := (s.bump (rCan n 0x28)).travelCan n (cbId b % 2 ^ 29) (cbFmt b) (cbIde b) (cbData b)
    let stamp := u.ptpStamp (u.fld (rCan n 0) 7 6)
      (2 ^ 32 * ((u.ptpNs (u.fld (rCan n 0) 7 6) / 5 * 5 : Nat) + toSigned 32 (u.word (rCan n 0x1C)) : Int).toNat)
    (s.canOn n = false ∨ s.canFmt n < cbFmt b → exec (.canFrameReceive n b) s = .next s) ∧
    (s.canOn n = true → cbFmt b ≤ s.canFmt n →
      (u.canFilter n b = none → exec (.canFrameReceive n b) s = .next (u.canDrop n)) ∧
      (∀ d, u.canFilter n b = some d → bitOf d 6 = true → Runs (.canFrameReceive n b) s fun t =>
        t = u.gateway n b stamp ∧ (u.gwMatch n b = none → t = u.canDrop n) ∧
        ∀ e, u.gwMatch n b = some e → bitOf (leAt e 13 1) 1 = false → 63 < leAt e 12 1 →
          t = (setBitsList 16 (leAt e 10 2)).foldl (fun s k => s.canRoute k b) u) ∧
      (∀ d, u.canFilter n b = some d → bitOf d 6 = false →
        exec (.canFrameReceive n b) s = .next (u.chanRx (d % 64) true b false n 0 stamp)) ∧
      (s.canonical = true → (∀ k, k < 16 → s.axLive k = false) → s.canFilter n b = none → Runs (.canFrameReceive n b) s fun t =>
        t.word (rCan n 0x28) = (s.word (rCan n 0x28) + 1) % 2 ^ 32 ∧ t.word (rCan n 0x24) = (s.word (rCan n 0x24) + 1) % 2 ^ 32 ∧
        RegsBut [rCan n 0x28, rCan n 0x24] s t ∧ t.mem = s.mem ∧ t.can = s.can))) ∧
  (∀ (s : State) (n : Fin 16) (o : Fin 3), s.canOn n = false ∨ s.canState n = 2 ∨ s.bit (rCan n 0) 3 = true ∨ s.bit (rCan n 0) 4 = true ∨
    s.canTx n = [] → exec (.canFrameTransmit n o) s = .next s) ∧
  (∀ (s : State) (n : Fin 16) (x y : List CanBuf) (b : CanBuf), s.canonical = true → s.canOn n = true → s.canState n ≠ 2 →
    s.bit (rCan n 0) 3 = false → s.bit (rCan n 0) 4 = false → s.canTx n = x ++ b :: y → (∀ c ∈ x, cbRank b.buf < cbRank c.buf) →
    (∀ c ∈ y, cbRank b.buf ≤ cbRank c.buf) →
    let tec := s.fld (rCan n 0x14) 15 8
    let rec_ := s.fld (rCan n 0x14) 23 16
    (b.txIdx = 0 → tec ≤ 128 → rec_ ≤ 127 → Runs (.canFrameTransmit n 0) s fun t =>
      t.canTx n = x ++ y ∧ Emitted [.can n b.buf] s t ∧ t.word (rCan n 0x2C) = (s.word (rCan n 0x2C) + 1) % 2 ^ 32 ∧
      t.fld (rCan n 0x14) 15 8 = tec - 1 ∧ t.canState n = 0 ∧ RegsBut [rCan n 0x2C, rCan n 0x14] s t ∧ t.mem = s.mem) ∧
    (Runs (.canFrameTransmit n 1) s fun t => t.canTx n = s.canTx n ∧ t.out = s.out ∧
      t.fld (rCan n 0x20) 31 16 = min (s.fld (rCan n 0x20) 31 16 + 1) 65535 ∧ RegsBut [rCan n 0x20] s t ∧ t.mem = s.mem) ∧
    (Runs (.canFrameTransmit n 2) s fun t => t.canTx n = s.canTx n ∧ t.out = s.out ∧
      t.fld (rCan n 0x20) 15 0 = min (s.fld (rCan n 0x20) 15 0 + 1) 65535 ∧ t.fld (rCan n 0x14) 15 8 = min (tec + 8) 255 ∧
      (127 < tec + 8 ∨ 127 < rec_ → t.canState n = 1 ∧ (s.canState n ≠ 1 → Faulted 0x21 1 s t)) ∧
      (tec + 8 ≤ 127 → rec_ ≤ 127 → t.canState n = 0 ∧ RegsBut [rCan n 0x20, rCan n 0x14] s t ∧ t.mem = s.mem))) ∧
  (∀ (s : State) (n : Fin 16), (s.canOn n = false ∨ s.canState n = 2 → exec (.canBusOff n) s = .next s) ∧
    (s.canonical = true → s.canOn n = true → s.canState n ≠ 2 → Runs (.canBusOff n) s fun t =>
      t.canState n = 2 ∧ t.fld (rCan n 0x14) 15 8 = 255 ∧ Faulted 0x21 3 s t ∧ t.canTx n = s.canTx n)) ∧
  (∀ (s : State) (n : Fin 16), let asked := s.bit (rCan n 0) 5 || fmGetD false s.can.recReq n
    (s.canState n ≠ 2 ∨ asked = false → exec (.canBusOffRecovery n) s = .next s) ∧
    (s.canonical = true → s.canState n = 2 → asked = true → Runs (.canBusOffRecovery n) s fun t =>
      t.word (rCan n 0x14) = 0 ∧ t.can = { s.can with recReq := fmDel s.can.recReq n } ∧ RegsBut [rCan n 0x14] s t ∧ t.mem = s.mem)) ∧
  (∀ (s : State) (m : Master) (n : Fin 16),
    (s.netMaster m = false → exec (.recover m n) s = .next (s.refuse m 2 (rCan n 0x18))) ∧
    (s.netMaster m = true → s.canState n ≠ 2 → exec (.recover m n) s = .next (s.respOk [])) ∧
    (s.netMaster m = true → s.canState n = 2 → Runs (.recover m n) s fun t =>
      fmGet t.can.recReq n = some true ∧ t.regs = s.regs ∧ t.mem = s.mem ∧ t.resp = ⟨false, false, []⟩)) ∧
  ∀ (s : State) (g : Fin 64), let l := fmGetD [] s.can.acf g
    let w := s.gws g
    let most := max 1 (leAt w 18 1)
    (l = [] → exec (.ntscfFrameSend g) s = .next s) ∧
    (l ≠ [] → Runs (.ntscfFrameSend g) s fun t =>
      let msgs := (l.take most).flatten
      let seq := fmGetD 0 s.can.acfSeq g
      ∃ sa u, t = State.ethSwitch u ⟨w.take 6 ++ beBytes 6 sa ++ beBytes 2 0x8100 ++
          beBytes 2 (8192 * (leAt w 6 2 / 4096 % 8) + leAt w 6 2 % 4096) ++ beBytes 2 0x22F0 ++ beBytes 1 0x82 ++
          beBytes 2 (32768 + msgs.length % 2048) ++ beBytes 1 seq ++ (w.drop 8).take 8 ++ msgs, zeroBytes 16, 17, 0, 0, false, false⟩ ∧
        u.regs = s.regs ∧ u.mem = s.mem ∧ u.can.acfSeq = fmPut s.can.acfSeq g ((seq + 1) % 256) ∧
        (most < l.length → u.can.acf = fmPut s.can.acf g (l.drop most)) ∧ (l.length ≤ most → u.can.acf = fmDel s.can.acf g) ∧
        (most ≤ l.length → u.now = s.now) ∧ (l.length < most → u.now = max s.now (fmGetD 0 s.can.acfAt g + 4000 * leAt w 19 2)))

/-- Power admission and the governor. -/
def Obligations.RailsTokensAndTemperaturesGovernPower : Prop :=
  (∀ (s : State) (v : Fin 14) (mv : BitVec 12), let x := mv.toNat
    let out := s.railLow v x || s.railHigh v x
    let low := x * 10 < s.railMv v * 9
    let u := (s.showRail v x).orWord rPwrIrq 0x40
    let w := u.fault 0x22 (if low then 4 else 3) mCollector v x
    let y := (s.showRail v x).judgeDiff v
    (s.railDue v = false → exec (.railDeparture v mv) s = .next s ∧ exec (.railWithinTolerance v mv) s = .next s) ∧
    (out = false → exec (.railDeparture v mv) s = .next s) ∧ (out = true → exec (.railWithinTolerance v mv) s = .next s) ∧
    (s.railDue v = true → out = true → low → v.val < 2 → exec (.railDeparture v mv) s = .next (u.powerOnReset 5)) ∧
    (s.canonical = true → s.railDue v = true → out = true → ¬(low ∧ v.val < 2) →
      exec (.railDeparture v mv) s = .next (w.judgeDiff v) ∧ Faulted 0x22 (if low then 4 else 3) s w ∧ w.bit rPwrIrq 6 = true ∧
      w.fld (rVmon v) 11 0 = x ∧ w.bit (rVmon v) 12 = s.railLow v x ∧ w.bit (rVmon v) 13 = s.railHigh v x) ∧
    (s.railDue v = true → out = false →
      (s.fwp.boot = 6 → (∀ r, r = 11 ∨ r = 12 ∨ r = 13 → y.fld (rVmon r) 13 12 = 0) →
        exec (.railWithinTolerance v mv) s = .next y.bootClocks) ∧
      (s.fwp.boot ≠ 6 ∨ (∃ r, (r = 11 ∨ r = 12 ∨ r = 13) ∧ y.fld (rVmon r) 13 12 ≠ 0) →
        exec (.railWithinTolerance v mv) s = .next y) ∧
      (s.canonical = true → s.fwp.boot ≠ 6 → (s.showRail v x).railDiff ≤ 200 → Runs (.railWithinTolerance v mv) s fun t =>
        t.fld (rVmon v) 11 0 = x ∧ t.fld (rVmon v) 13 12 = 0 ∧ t.pwr.diffAt = 0 ∧ RegsBut [rVmon v] s t ∧ t.mem = s.mem))) ∧
  (∀ s : State, let up := ∀ r, r = 11 ∨ r = 12 ∨ r = 13 → s.fld (rVmon r) 13 12 = 0
    (s.fwp.boot ≠ 6 ∨ up → exec .group3RailTimeout s = .next s) ∧
    (s.canonical = true → s.fwp.boot = 6 → ¬up → Runs .group3RailTimeout s fun t =>
      t.fwp.boot = 8 ∧ t.now = max s.now (s.pwr.grp3At + 40000000) ∧ Faulted 0x22 5 s t)) ∧
  (∀ (s : State) (k : Fin 7) (u : Fin 256),
    ((∃ q ∈ s.pwr.queue, q.kind = k.val ∧ q.unit = u.val) ∨ s.admRequest k u = none → exec (.admissionRequest k u) s = .next s) ∧
    ((∀ q ∈ s.pwr.queue, q.kind ≠ k.val ∨ q.unit ≠ u.val) →
      (∀ q, s.admRequest k u = some q →
        exec (.admissionRequest k u) s = .next { s with pwr.queue := s.pwr.queue ++ [q] } ∧ q.kind = k.val ∧ q.unit = u.val ∧
        q.arrived = s.now ∧ q.rail = admRailOf k u ∧ q.long = false) ∧
      (u.val < 4 → bitOf s.mc.selfRef u = true → exec (.admissionRequest 2 u) s = (if s.pwr.queue.any (fun q => q.kind == 2 && q.unit == u.val)
        then .next s else .next { s with pwr.queue := s.pwr.queue ++ [⟨2, u, 18 + u, 40, 6000000, true, s.now, false⟩] })))) ∧
  (∀ (s : State) (q r : AdmReq), let fits := s.admFits q.rail q = true ∧ ∀ p, s.admParent q.rail = some p → s.admFits p q = true
    (s.pwr.queue = [] → exec .admissionGrant s = .next s) ∧
    (s.pwr.queue = [q] → q.rail < 32 →
      (s.admStopped q = true → s.canonical = true → Runs .admissionGrant s fun t =>
        t.pwr = { s.pwr with queue := [] } ∧ t.word (rAdm q.rail 0x18) = (s.word (rAdm q.rail 0x18) + 1) % 2 ^ 32 ∧
        RegsBut [rAdm q.rail 0x18] s t ∧ t.mem = s.mem) ∧
      (s.admStopped q = false → ¬fits → exec .admissionGrant s = .next s) ∧
      (s.admStopped q = false → fits → exec .admissionGrant s = .next (s.admGrant q)) ∧
      (s.admStopped q = false → fits → s.admParent q.rail = none → q.arrived = s.now → q.kind = 4 → Runs .admissionGrant s fun t =>
        t.pwr.queue = [] ∧ t.admHeld 4 q.unit = s.admHeld 4 q.unit + q.tok ∧ (t.admRail q.rail).free + q.tok = (s.admRail q.rail).free ∧
        t.regs = s.regs ∧ t.mem = s.mem)) ∧
    (s.pwr.queue = [q, r] → q.rail < 32 → r.rail = q.rail → q.before r = false → s.admStopped q = false → s.admStopped r = false →
      s.admFits r.rail r = false → exec .admissionGrant s = .next s)) ∧
  (∀ s : State, ((∀ q ∈ s.pwr.queue, q.long = true) → exec .admissionWaitLong s = .next s) ∧
    ∀ q a b, s.canonical = true → s.pwr.queue = a ++ q :: b → (∀ x ∈ a, x.long = true) → q.long = false → q ∉ b →
      Runs .admissionWaitLong s fun t => t.pwr.queue = a ++ { q with long := true } :: b ∧ t.bit rPwrIrq 0 = true ∧
        t.now = max s.now (q.arrived + 4000 * s.fld (rPwr 0x20) 15 0 + 1) ∧ Faulted 0x22 1 s t) ∧
  (∀ (s : State) (k : Fin 7) (u : Fin 256),
    let n := s.admHeld k u
    (k.val ≠ 2 → k.val ≠ 3 → n = 0 ∨ s.returnDue k u = false → exec (.tokenReturn k u) s = .next s) ∧
    (u.val < 4 → k.val = 2 ∨ k.val = 3 → Runs (.tokenReturn k u) s fun t =>
      bitOf t.mc.selfRef (4 * (k.val - 2) + u.val) = true ∧ t.mc.srSince = s.now ∧ t.regs = s.regs ∧ t.mem = s.mem ∧
      (n = 0 → t.pwr = s.pwr)) ∧
    (n ≠ 0 → s.returnDue k u = true → s.admParent (admRailOf k u) = none → s.pwr.held = [(admKey k u, n)] →
      Runs (.tokenReturn k u) s fun t => (t.admRail (admRailOf k u)).free = (s.admRail (admRailOf k u)).free + n ∧
        t.pwr.held = [] ∧ t.pwr.queue = s.pwr.queue ∧ t.regs = s.regs ∧ t.mem = s.mem)) ∧
  (∀ (s : State) (l : List (BitVec 17)), s.canonical = true → Runs (.thermalSample l) s fun t =>
    t = s.thermal l ∧ (∀ k v, k < 56 → l[k]? = some v →
      (bitOf v.toNat 16 = true → t.word (rPwr (0x40 + 4 * k)) = v.toNat) ∧
      (bitOf v.toNat 16 = false → t.bit (rPwr (0x40 + 4 * k)) 16 = false)) ∧
    (bitOf s.pwr.flags 7 = false → (∃ k v, k < 56 ∧ l[k]? = some v ∧ bitOf v.toNat 16 = true ∧ 2000 ≤ v.toNat % 65536 ∧ v.toNat % 65536 < 32768) →
      .pin ballThermtrip false ∈ t.out ∧ t.bit rFltState stL = true)) ∧
  (∀ (s : State) (d : Fin 22), let g := s.govClk d
    let f := max (govFloor d) (s.domMHz (govDom d) - govStep d)
    (s.govCause d = false → exec (.clockThrottleStep d) s = .next s) ∧
    (s.canonical = true → s.govCause d = true → Runs (.clockThrottleStep d) s fun t =>
      t.govClk d = { g with ceil := some f, cool := 0 } ∧ t.bit (rPwr 4) 3 = true ∧
      (16 ≤ d.val ∨ s.panelGated d = false → t.domMHz (govDom d) = f) ∧ (g.ceil = none → Faulted 0x22 3 s t ∧ t.bit rPwrIrq 4 = true) ∧
      (g.ceil ≠ none → RegsBut [rDom (govDom d), rPwr 0x144, rPwr 4] s t ∧ t.mem = s.mem))) ∧
  ∀ (s : State) (d : Fin 22), let g := s.govClk d
    (g.ceil = none ∨ g.cool = 0 → exec (.clockRaiseStep d) s = .next s) ∧
    ∀ c, s.canonical = true → g.ceil = some c → g.cool ≠ 0 → Runs (.clockRaiseStep d) s fun t =>
      let up := c + govStep d
      (t.govClk d).ceil = (if s.govFull d ≤ up then none else some up) ∧ t.now = max s.now (g.cool - 1 + 4000000) ∧
      (t.govClk d).cool = t.now + 1 ∧ (16 ≤ d.val ∨ s.panelGated d = false → t.domMHz (govDom d) = min up (s.govFull d)) ∧
      RegsBut [rDom (govDom d), rPwr 0x144, rPwr 4] s t ∧ t.mem = s.mem

/-- Profile changes. -/
def Obligations.AProfileChangeGoesStepByStep : Prop :=
  (∀ (s : State) (m : Master) (p : Fin 8), let code := s.profRefusal p
    let same := p.val = s.profile ∧ s.pwr.prof = none
    (m ≠ mFwp 1 → exec (.profileReq m p) s = .next (s.refuse m 2 (rPwr 0x10))) ∧
    (m = mFwp 1 → 3 < p.val → exec (.profileReq m p) s = .next (s.respOk [])) ∧
    (s.canonical = true → m = mFwp 1 → p.val ≤ 3 → same → Runs (.profileReq m p) s fun t =>
      t.fld (rPwr 0x14) 31 16 = (s.fld (rPwr 0x14) 31 16 + 1) % 65536 ∧ t.fld (rPwr 0x14) 2 0 = p.val ∧ t.bit rPwrIrq 1 = true ∧
      RegsBut [rPwr 0x14, rPwrIrq] s t ∧ t.pwr = s.pwr ∧ t.mem = s.mem ∧ t.resp = ⟨false, false, []⟩) ∧
    (s.canonical = true → m = mFwp 1 → p.val ≤ 3 → ¬same → code ≠ 0 → Runs (.profileReq m p) s fun t =>
      t.fld (rPwr 0x14) 15 8 = code ∧ t.bit rPwrIrq 2 = true ∧ Faulted 0x22 1 s t ∧ t.pwr = s.pwr ∧ t.resp = ⟨false, false, []⟩) ∧
    (m = mFwp 1 → p.val ≤ 3 → ¬same → code = 0 → exec (.profileReq m p) s = .next ((s.profStart p).respOk [])) ∧
    (s.canonical = true → m = mFwp 1 → p.val ≤ 2 → ¬same → code = 0 → (∀ k, k < 64 → s.clickClass k ≠ 2) → Runs (.profileReq m p) s fun t =>
      (∃ c, t.pwr.prof = some c ∧ c.target = p.val ∧ c.since = s.now ∧ c.gated = s.profGated p &&& (0xFFFF - s.gatedMask) ∧
        c.woken = s.gatedMask &&& (0xFFFF - s.profGated p) ∧ t.fld (rPwr 0x14) 7 4 = c.step ∧ (c.gated ≠ 0 → c.step = 2) ∧
        (c.gated = 0 → 4 ≤ c.step ∧ c.step ≤ 9)) ∧
      t.bit (rSys 4) 3 = true ∧ t.bit (rPwr 4) 0 = true ∧ RegsBut [rSys 4, rPwr 4, rPwr 0x14] s t ∧ t.mem = s.mem)) ∧
  (∀ (s : State) (w : Bool) (st : Fin 4) (p : Fin 16) (f : BitVec 16),
    (∀ c, s.pwr.prof = some c → c.step ≠ 2) → exec (.profileDrainDone w) s = .next s ∧ exec .profileWaitTimeout s = .next s) ∧
  (∀ (s : State) (st : Fin 4) (p : Fin 16) (f : BitVec 16),
    ((∀ c, s.pwr.prof = some c → c.step ≠ 4 ∧ c.step ≠ 6) → exec .voltageRampDone s = .next s) ∧
    ((∀ c, s.pwr.prof = some c → c.step ≠ 5) → exec .clockSlewDone s = .next s) ∧
    ((∀ c, s.pwr.prof = some c → c.step ≠ 7) → exec (.hbmRetrainDone st) s = .next s) ∧
    ((∀ c, s.pwr.prof = some c → c.step ≠ 8) → exec (.panelWakeDone p f) s = .next s) ∧
    ((∀ c, s.pwr.prof = some c → c.step ≠ 9) → exec .profileDone s = .next s)) ∧
  (∀ (s : State) (w : Bool) (st : Fin 4) (p : Fin 16) (f : BitVec 16), 3 ≤ s.procState 1 →
    exec (.profileDrainDone w) s = .next s ∧ exec .profileWaitTimeout s = .next s ∧ exec .voltageRampDone s = .next s ∧
    exec .clockSlewDone s = .next s ∧ exec (.hbmRetrainDone st) s = .next s ∧ exec (.panelWakeDone p f) s = .next s ∧
    exec .profileDone s = .next s) ∧
  ∀ (s : State) (c : ProfChg), s.pwr.prof = some c → s.procState 1 < 3 → s.canonical = true →
    let later (k : Nat) (t : State) : Prop := ∃ n, k < n ∧ n ≤ 9 ∧ t.pwr.prof = some { c with step := n } ∧ t.fld (rPwr 0x14) 7 4 = n
    (c.step = 2 → ∀ w,
      let busy := (∃ x, x < 256 ∧ bitOf c.gated (x / 16) = true ∧ s.cellBusy x = true) ∨ c.target = 3 ∧ w = false
      (busy → exec (.profileDrainDone w) s = .next s) ∧
      (¬busy → Runs (.profileDrainDone w) s fun t => later 3 t ∧ ∀ p, p < 16 → bitOf c.gated p = true →
        t.panelGated p = true ∧ t.bit (rDom p) 17 = true ∧ t.admHeld 0 p = 0 ∧
        ∀ j, j < 16 → t.cellState (p * 16 + j) = (if s.cellState (p * 16 + j) = csABSENT then csABSENT else csOFF))) ∧
    (c.step = 2 → let cfg := s.word (rPwr 0x18)
      let u := s.timeTo (c.since + 4000000 * (cfg % 65536))
      (bitOf cfg 16 = true → exec .profileWaitTimeout s = .next (u.forceDrain c)) ∧
      (bitOf cfg 16 = true → s.clc.tasks = [] → c.target ≠ 3 → exec .profileWaitTimeout s = .next u) ∧
      (bitOf cfg 16 = false → Runs .profileWaitTimeout s fun t => t.pwr.prof = none ∧ t.fld (rPwr 0x14) 15 8 = 6 ∧
        t.fld (rPwr 0x14) 7 4 = 0 ∧ t.bit (rSys 4) 3 = false ∧ t.bit (rPwr 4) 0 = false ∧ t.bit rPwrIrq 2 = true ∧
        t.now = u.now ∧ t.profile = s.profile ∧ Faulted 0x22 1 s t)) ∧
    (c.step = 4 → let short := ∃ p, p < 16 ∧ s.panelGated p = false ∧ s.admHeld 0 p < s.wakeTok c.target
      (short → exec .voltageRampDone s = .next s) ∧
      (¬short → Runs .voltageRampDone s fun t => later 4 t ∧ RegsBut [rPwr 0x14] s t ∧ t.mem = s.mem)) ∧
    (c.step = 6 → Runs .voltageRampDone s fun t => later 6 t ∧ RegsBut [rPwr 0x14] s t ∧ t.mem = s.mem ∧
      (s.pwr.held = [] → t.pwr.rails = s.pwr.rails ∧ t.pwr.held = [])) ∧
    (c.step = 5 → Runs .clockSlewDone s fun t => later 5 t ∧
      (∀ p, p < 16 → t.domMHz p = if s.panelGated p then s.domMHz p else s.panelTarget p c.target) ∧
      RegsBut (rPwr 0x14 :: (List.range 16).map rDom) s t ∧ t.mem = s.mem) ∧
    (c.step = 7 → ∀ st : Fin 4, Runs (.hbmRetrainDone st) s fun t =>
      let d := { c with trained := setBitsOf c.trained st st 1 }
      t.domMHz (18 + st.val) = (if c.target ≤ 1 then 1200 else 800) ∧ RegsBut [rPwr 0x14, rDom (18 + st.val)] s t ∧ t.mem = s.mem ∧
      (d.trained ≠ 15 → t.pwr.prof = some d) ∧ (d.trained = 15 → ∃ n, 7 < n ∧ n ≤ 9 ∧ t.pwr.prof = some { d with step := n })) ∧
    (c.step = 8 → ∀ (p : Fin 16) (f : BitVec 16),
      let ready := bitOf c.woken p = true ∧ bitOf c.awake p = false ∧ s.wakeTok c.target ≤ s.admHeld 0 p
      let d := { c with awake := setBitsOf c.awake p p 1 }
      (¬ready → exec (.panelWakeDone p f) s = .next s) ∧
      (ready → Runs (.panelWakeDone p f) s fun t =>
        (d.awake ≠ c.woken → t.pwr.prof = some d) ∧ (d.awake = c.woken → t.pwr.prof = some { d with step := 9 }) ∧
        (f = 0 → t.panelGated p = false ∧ t.bit (rDom p) 17 = false ∧ t.domMHz p = s.panelTarget p c.target ∧
          (∀ j, j < 16 → t.cellState (p.val * 16 + j) =
            (if s.cellState (p.val * 16 + j) = csOFF then csIDLE else s.cellState (p.val * 16 + j))) ∧ t.mem = s.mem))) ∧
    (c.step = 9 → c.target ≤ 3 → Runs .profileDone s fun t => t.pwr = { s.pwr with prof := none } ∧ t.profile = c.target ∧
      t.bit (rSys 4) 3 = false ∧ t.bit (rPwr 4) 0 = false ∧ t.fld (rPwr 4) 2 1 = c.target ∧ t.bit rPwrIrq 1 = true ∧
      t.fld (rPwr 0x14) 31 16 = (s.fld (rPwr 0x14) 31 16 + 1) % 65536 ∧ t.fld (rPwr 0x14) 7 4 = 0 ∧
      RegsBut [rSys 4, rPwr 4, rPwr 0x14, rPwrIrq] s t ∧ t.mem = s.mem)

/-- Security: fuses, keys, windows, the engine. -/
def Obligations.FusesKeysWindowsAndTheEngineAreGuarded : Prop :=
  (∀ (s : State) (m : Master) (b : BitVec 12) (x : Bool), let n := b.toNat
    let ok := n < 2 ∧ s.lifecycle = 0 ∧ s.rootKeyHash ≠ 0 ∧ s.debugKeyHash ≠ 0 ∨ 770 ≤ n ∧ n ≤ 834 ∨ 2 ≤ n ∧ n < 2980 ∧ s.lifecycle = 0
    (m ≠ mFwp 0 → exec (.fuseProg m b x) s = .next (s.refuse m 2 (rSec 0x40))) ∧
    (s.canonical = true → m = mFwp 0 → ¬ok → Runs (.fuseProg m b x) s fun t => t.bit (rSec 0) 7 = true ∧ t.bit (rSec 4) 4 = true ∧
      RegsBut [rSec 0, rSec 4] s t ∧ t.sec = s.sec ∧ t.mem = s.mem ∧ t.resp = ⟨false, false, []⟩) ∧
    (s.canonical = true → m = mFwp 0 → ok → x = false → Runs (.fuseProg m b x) s fun t => t.bit (rSec 0) 7 = true ∧
      t.bit (rSec 4) 4 = true ∧ Faulted 0x24 3 s t ∧ t.sec = s.sec ∧ t.resp = ⟨false, false, []⟩) ∧
    (s.canonical = true → m = mFwp 0 → ok → x = true → Runs (.fuseProg m b x) s fun t =>
      (∀ k, bitOf t.sec.fuses k = (decide (k = n) || bitOf s.sec.fuses k)) ∧ t.fld (rSec 0) 14 8 = t.svnFloor ∧
      t.regBytes (rSec 0x1000) 120 = leBytes 120 (t.sec.fuses % 2 ^ 932) ∧ t.sec = { s.sec with fuses := t.sec.fuses } ∧
      t.mem = s.mem ∧ t.resp = ⟨false, false, []⟩)) ∧
  (∀ (s : State) (m : Master) (k : Fin 16), let named := ∃ w, w < 64 ∧ s.bit (rSecWin w 0xC) 31 = true ∧ s.fld (rSecWin w 0xC) 3 0 = k.val
    let may := m = mFwp 5 ∨ s.isIsland m = true
    (¬may → exec (.keyUnwrap m k) s = .next (s.refuse m 2 (rSec 0x140)) ∧ exec (.keyClear m k) s = .next (s.refuse m 2 (rSec 0x140))) ∧
    (s.canonical = true → may → named →
      (Runs (.keyUnwrap m k) s fun t => t.bit (rSec 0x144) 18 = true ∧ Faulted 0x24 1 s t ∧ t.sec = s.sec ∧ t.resp = ⟨false, false, []⟩) ∧
      (Runs (.keyClear m k) s fun t => t.bit (rSec 0x144) 18 = true ∧ Faulted 0x24 1 s t ∧ t.sec = s.sec ∧ t.resp = ⟨false, false, []⟩)) ∧
    (s.canonical = true → may → ¬named →
      (Runs (.keyUnwrap m k) s fun t =>
        (∀ key, s.bit (rSec 0) 2 = false → keyUnwrap kek (s.regBytes (rSec 0x150) 40) = some key →
          fmGet t.sec.slots k = some key ∧ t.bit (rSec 0x144) k = true ∧ RegsBut [rSec 0x144] s t ∧ t.mem = s.mem) ∧
        (s.bit (rSec 0) 2 = true ∨ keyUnwrap kek (s.regBytes (rSec 0x150) 40) = none →
          t.bit (rSec 0x144) 17 = true ∧ t.bit (rSec 4) 1 = true ∧ Faulted 0x24 1 s t ∧ t.sec = s.sec) ∧ t.resp = ⟨false, false, []⟩) ∧
      (Runs (.keyClear m k) s fun t => t.sec = { s.sec with slots := fmDel s.sec.slots k } ∧ t.bit (rSec 0x144) k = false ∧
        RegsBut [rSec 0x144] s t ∧ t.mem = s.mem ∧ t.resp = ⟨false, false, []⟩))) ∧
  (∀ (s : State) (m : Master) (w : Fin 64) (v : BitVec 32), let a := rSecWin w 0xC
    let b := s.word64 (rSecWin w 0)
    let n := s.word (rSecWin w 8)
    let good := b % 64 = 0 ∧ n % 64 = 0 ∧ hbmBase ≤ b ∧ b + n ≤ hbmBase + s.hbmBytes ∧ ∀ k, k < 64 → k ≠ w.val → s.bit (rSecWin k 0xC) 31 = true →
      b + n ≤ s.word64 (rSecWin k 0) ∨ s.word64 (rSecWin k 0) + s.word (rSecWin k 8) ≤ b
    (s.sysWriter m = false → exec (.secWinWrite m w v) s = .next (s.refuse m 2 a)) ∧
    (s.canonical = true → s.sysWriter m = true → bitOf v.toNat 31 = true → ¬good → Runs (.secWinWrite m w v) s fun t =>
      t.bit a 30 = true ∧ (∀ k, k ≠ 30 → t.bit a k = s.bit a k) ∧ RegsBut [a] s t ∧ t.mem = s.mem ∧ t.resp = ⟨false, false, []⟩) ∧
    (s.canonical = true → s.sysWriter m = true → bitOf v.toNat 31 = false ∨ good → Runs (.secWinWrite m w v) s fun t =>
      t.fld a 3 0 = v.toNat % 16 ∧ t.bit a 31 = bitOf v.toNat 31 ∧ t.bit a 30 = (s.bit a 30 && !bitOf v.toNat 30) ∧
      RegsBut [a] s t ∧ t.mem = s.mem ∧ t.resp = ⟨false, false, []⟩)) ∧
  (∀ (s : State) (m : Master), let rd := sysReader m || m == mTap
    let wr := s.sysWriter m || m == mTap
    let mine := s.sec.holder = some m.toNat ∧ s.bit (rSec 0x18) 0 = false
    let area (t : State) := ∀ a, rSec 0x4000 ≤ a → a < rSec 0x8000 → t.word a = (regReset a).toNat
    (rd = false → exec (.pkClaim m) s = .next (s.refuse m 1 (rSec 0x10))) ∧
    (rd = true → s.sec.holder = none → Runs (.pkClaim m) s fun t => t.sec = { s.sec with holder := some m.toNat } ∧
      t.resp = ⟨false, false, leBytes 4 (1 + 65536 * m.toNat)⟩ ∧ t.regs = s.regs ∧ t.mem = s.mem) ∧
    (∀ h, rd = true → s.sec.holder = some h → exec (.pkClaim m) s = .next (s.respOk (leBytes 4 (65536 * (h % 65536))))) ∧
    (wr = false → exec (.pkRelease m) s = .next (s.refuse m 2 (rSec 0x1C))) ∧
    (wr = true → ¬mine → exec (.pkRelease m) s = .next (s.ignoreWr m (rSec 0x1C))) ∧
    (s.canonical = true → wr = true → mine → Runs (.pkRelease m) s fun t => t.sec = { s.sec with holder := none } ∧ area t ∧
      (∀ a, a < rSec 0x4000 ∨ rSec 0x8000 ≤ a → t.word a = s.word a) ∧ t.mem = s.mem ∧ t.resp = ⟨false, false, []⟩) ∧
    ∀ op : BitVec 8,
      (1 ≤ op.toNat → op.toNat ≤ 11 → exec (.badOp m op) s = .next s) ∧
      (op.toNat = 0 ∨ 11 < op.toNat → wr = false → exec (.badOp m op) s = .next (s.refuse m 2 (rSec 0x14))) ∧
      (op.toNat = 0 ∨ 11 < op.toNat → wr = true → ¬mine → exec (.badOp m op) s = .next (s.ignoreWr m (rSec 0x14))) ∧
      (op.toNat = 0 ∨ 11 < op.toNat → s.canonical = true → wr = true → mine → Runs (.badOp m op) s fun t =>
        t.fld (rSec 0x18) 15 8 = 8 ∧ t.bit (rSec 0x18) 0 = false ∧ t.fld (rSec 0x18) 31 16 = (s.fld (rSec 0x18) 31 16 + 1) % 65536 ∧
        t.bit (rSec 4) 0 = true ∧ area t ∧ t.sec.holder = s.sec.holder ∧ t.mem = s.mem ∧ t.resp = ⟨false, false, []⟩)) ∧
  (∀ s : State, s.sec.op = none → exec .pkComplete s = .next s) ∧
  ∀ (s : State) (o : PkOp), s.canonical = true → s.sec.op = some o →
    let r := (s.timeTo o.due).pkResult o
    let u := r.1
    let code := r.2.1
    Runs .pkComplete s fun t => t.sec.op = none ∧ t.now = u.now ∧ t.bit (rSec 0x18) 0 = false ∧ t.bit (rSec 4) 0 = true ∧
      t.fld (rSec 0x18) 31 16 = (u.fld (rSec 0x18) 31 16 + 1) % 65536 ∧
      (o.abandon = true → t.fld (rSec 0x18) 15 8 = 9 ∧ t.sec.holder = none) ∧
      (o.abandon = false → t.fld (rSec 0x18) 15 8 = code % 256) ∧
      (o.abandon = false → o.debug = false → t = u.pkFinish code r.2.2 ∧ t.sec.holder = u.sec.holder) ∧
      (o.abandon = false → o.debug = true → t.sec.holder = none ∧ Faulted 0x24 1 u t ∧ (code = 0 → t.bit (rSec 0) 3 = true) ∧
        (code ≠ 0 → t.bit (rSec 0) 3 = u.bit (rSec 0) 3 ∧ t.fld (rSec 0) 6 5 = min (u.fld (rSec 0) 6 5 + 1) 3 ∧ t.bit (rSec 4) 2 = true)) ∧
      (o.abandon = true ∨ o.debug = true ∨ code ≠ 0 → ∀ a, rSec 0x4000 ≤ a → a < rSec 0x8000 → t.word a = (regReset a).toNat)

/-- Operations of the public-key engine. -/
def Obligations.PublicKeyOperationsRunAndAnswer : Prop :=
  (∀ (s : State) (m : Master) (k : Bool) (c : Instr) (op cyc : Nat),
    (c, op, cyc) ∈ [((.ecdsaSignP256 m k : Instr), 1, 420000), (.ecdsaSignP384 m k, 2, 1050000), (.ecdsaVerifyP256 m k, 3, 780000),
      (.ecdsaVerifyP384 m k, 4, 1960000), (.ecdhP256 m k, 5, 400000), (.ecdhP384 m k, 6, 1000000), (.keygenP256 m k, 7, 400000),
      (.keygenP384 m k, 8, 1000000), (.x25519 m k, 9, 360000),
      (.mlDsa65Verify m k, 10, 210000 + 40 * ((66 + s.fld (rSec 0x2C) 7 0 + s.word (rSec 0x28) + 135) / 136)),
      (.mlKem768Decapsulation m k, 11, 95000)] →
    let wr := s.sysWriter m || m == mTap
    let mine := s.sec.holder = some m.toNat ∧ s.bit (rSec 0x18) 0 = false
    (wr = false → exec c s = .next (s.refuse m 2 (rSec 0x14))) ∧
    (wr = true → ¬mine → exec c s = .next (s.ignoreWr m (rSec 0x14))) ∧
    (s.canonical = true → wr = true → mine → Runs c s fun t =>
      t.sec = { s.sec with op := some ⟨op, k, s.now + 4 * cyc, false, false⟩ } ∧ t.bit (rSec 0x18) 0 = true ∧
      (∀ b, b ≠ 0 → t.bit (rSec 0x18) b = s.bit (rSec 0x18) b) ∧ RegsBut [rSec 0x18] s t ∧ t.mem = s.mem ∧ t.now = s.now ∧
      t.resp = ⟨false, false, []⟩)) ∧
  ∀ (s : State) (op due : Nat), s.canonical = true → s.sec.op = some ⟨op, false, due, false, false⟩ →
    let inp (o n : Nat) : List Byte := s.regBytes (rSec (0x4000 + o)) n
    let shown (t : State) : Nat := t.fld (rSec 0x18) 15 8
    (∀ c n, op = 3 ∧ c = p256 ∧ n = 32 ∨ op = 4 ∧ c = p384 ∧ n = 48 →
      let q := inp 0x80 (2 * n + 1)
      let x := beNat ((q.drop 1).take n)
      let y := beNat ((q.drop (n + 1)).take n)
      let r := beNat (inp 0x140 n)
      let g := beNat (inp 0x180 n)
      Runs .pkComplete s fun t => (shown t = 0 ↔ q.getD 0 0 = 4 ∧ r ≠ 0 ∧ r < c.n ∧ g ≠ 0 ∧ g < c.n ∧ x < c.p ∧ y < c.p ∧ c.on x y = true ∧
        c.verify (beNat (inp 0 n)) r g x y = true) ∧ t.mem = s.mem) ∧
    (∀ c n, op = 7 ∧ c = p256 ∧ n = 32 ∨ op = 8 ∧ c = p384 ∧ n = 48 →
      let d := beNat (inp 0x40 n)
      Runs .pkComplete s fun t => (c.n ≤ d → shown t = 3) ∧ (d = 0 → shown t = 2) ∧ (d ≠ 0 → d < c.n → shown t = 0 ∧
        ∀ x y, c.mul 400 d c.g = some (x, y) → t.regBytes (rSec 0x7080) (2 * n + 1) = [4] ++ beBytes n x ++ beBytes n y) ∧ t.mem = s.mem) ∧
    (∀ c n, op = 5 ∧ c = p256 ∧ n = 32 ∨ op = 6 ∧ c = p384 ∧ n = 48 →
      let d := beNat (inp 0x40 n)
      let q := inp 0x80 (2 * n + 1)
      let x := beNat ((q.drop 1).take n)
      let y := beNat ((q.drop (n + 1)).take n)
      Runs .pkComplete s fun t => (q.getD 0 0 ≠ 4 → shown t = 6) ∧
        (q.getD 0 0 = 4 → c.n ≤ d ∨ c.p ≤ x ∨ c.p ≤ y → shown t = 3) ∧
        (q.getD 0 0 = 4 → d < c.n → x < c.p → y < c.p → (c.on x y = false → shown t = 4) ∧ (c.on x y = true → (d = 0 → shown t = 2) ∧
          (d ≠ 0 → shown t = 0 ∧ ∀ u v, c.mul 400 d (some (x, y)) = some (u, v) → t.regBytes (rSec 0x7000) n = beBytes n u))) ∧
        t.mem = s.mem) ∧
    (∀ c n, op = 1 ∧ c = p256 ∧ n = 32 ∨ op = 2 ∧ c = p384 ∧ n = 48 →
      let d := beNat (inp 0x40 n)
      Runs .pkComplete s fun t => (c.n ≤ d → shown t = 3) ∧ (d = 0 → shown t = 2) ∧ (d ≠ 0 → d < c.n → shown t = 0 ∧
        ∃ nonce, let g := c.sign (beNat (inp 0 n)) d (nonce % c.n)
          t.regBytes (rSec 0x7000) n = beBytes n g.1 ∧ t.regBytes (rSec 0x7040) n = beBytes n g.2) ∧ t.mem = s.mem) ∧
    (op = 9 → let v := x25519 (leNat (inp 0x40 32)) (leNat (inp 0x80 32))
      Runs .pkComplete s fun t => (p25519 ≤ leNat (inp 0x80 32) % 2 ^ 255 → shown t = 3) ∧ (leNat (inp 0x80 32) % 2 ^ 255 < p25519 →
        (v = 0 → shown t = 5) ∧ (v ≠ 0 → shown t = 0 ∧ t.regBytes (rSec 0x7000) 32 = leBytes 32 v)) ∧ t.mem = s.mem) ∧
    (op = 10 → ∀ u msg, (s.timeTo due).dmaReadLong (BitVec.ofNat 16 (s.sec.holder.getD 0)) (s.word64 (rSec 0x20) % 2 ^ 52) (s.word (rSec 0x28)) =
        (u, some (msg, false)) → u.regs = s.regs →
      Runs .pkComplete s fun t => shown t = if dsaVerify (inp 0 1952) (inp 0x800 3309) (inp 0x1800 (s.fld (rSec 0x2C) 7 0)) msg then 0 else 1) ∧
    (op = 11 → Runs .pkComplete s fun t => (kemKeyOk (inp 0 2400) = false → shown t = 6) ∧ (kemKeyOk (inp 0 2400) = true → shown t = 0 ∧
      t.regBytes (rSec 0x7000) (kemDecaps (inp 0 2400) (inp 0x1000 1088)).length =
      kemDecaps (inp 0 2400) (inp 0x1000 1088)) ∧ t.mem = s.mem)

/-- The test access port and debug authentication. -/
def Obligations.TheTestPortSelectsShiftsAndUnlocks : Prop :=
  (∀ (s : State) (d : BitVec 4164) (c : Instr) (op : Nat),
    (c, op) ∈ [((.extest d : Instr), 0), (.extestPulse d, 5), (.extestTrain d, 6), (.clamp, 3), (.highz, 4)] →
    let may := s.bit (rSec 0) 3 = true ∨ s.lifecycle = 0
    let ir : Output := .tdo s.irCapture 12
    (¬may → Runs c s fun t => Emitted [ir, .tdo 0 1] s t ∧ t.tap = { s.tap with ir := op, refused := true } ∧ t.regs = s.regs ∧
      t.mem = s.mem) ∧
    (may → s.canonical = true → Runs c s fun t => t.tap.ir = op ∧ t.tap.held = 1 ∧ t.tap.refused = false ∧
      t.tap.bsr = (if op = 3 ∨ op = 4 then s.tap.bsr else d.toNat) ∧ (s.tap.held ≠ 1 → Faulted 0x0F 4 s t) ∧
      (s.tap.held = 1 → t.regs = s.regs ∧ t.mem = s.mem ∧ (op = 3 ∨ op = 4 → Emitted [ir, .tdo 0 1] s t) ∧
        (op ≠ 3 → op ≠ 4 → ∃ x : Nat, x < 2 ^ 4164 ∧ Emitted [ir, .tdo x 4164] s t)))) ∧
  (∀ (s : State) (d : BitVec 4164) (op : BitVec 12), let ir : Output := .tdo s.irCapture 12
    (Runs (.samplePreload d) s fun t => (∃ x : Nat, x < 2 ^ 4164 ∧ Emitted [ir, .tdo x 4164] s t) ∧
      t.tap = { s.tap with ir := 1, bsr := d.toNat } ∧ t.regs = s.regs ∧ t.mem = s.mem) ∧
    (Runs .idcode s fun t => Emitted [ir, .tdo 0x1A8D0A9B 32] s t ∧ t.tap = { s.tap with ir := 2 } ∧ t.regs = s.regs ∧ t.mem = s.mem) ∧
    (Runs .ecidcode s fun t => Emitted [ir, .tdo (s.sec.fuses / 2 ^ 868 % 2 ^ 64) 64] s t ∧ t.tap = { s.tap with ir := 7 } ∧
      t.regs = s.regs ∧ t.mem = s.mem) ∧
    (let n := op.toNat
     (n < 8 ∨ n = 0x10 ∨ n = 0x11 → exec (.bypass op) s = .next s) ∧
     (8 ≤ n → n ≠ 0x10 → n ≠ 0x11 → Runs (.bypass op) s fun t => Emitted [ir, .tdo 0 1] s t ∧ t.tap = { s.tap with ir := n } ∧
       t.regs = s.regs ∧ t.mem = s.mem)) ∧
    s.irCapture = 1 + 4 * b2n (s.bit (rSec 0) 3) + 8 * b2n s.tap.refused) ∧
  (∀ (s : State) (m : Master), let may := s.sysWriter m || m == mTap
    (may = false → exec (.newChal m) s = .next (s.refuse m 2 (rSec 0x120))) ∧
    (s.canonical = true → may = true → Runs (.newChal m) s fun t => (∃ x, t.regBytes (rSec 0x100) 32 = leBytes 32 x) ∧
      (∀ a, a < rSec 0x100 ∨ rSec 0x120 ≤ a → t.word a = s.word a) ∧ t.sec = { s.sec with chal := true } ∧ t.mem = s.mem ∧
      t.resp = ⟨false, false, []⟩)) ∧
  (∀ (s : State) (m : Master) (key : BitVec 776) (r g : BitVec 384), let may := s.sysWriter m || m == mTap
    let k := beBytes 97 key.toNat
    let off := bitOf s.sec.fuses 834 = true ∨ s.fld (rSec 0) 6 5 = 3
    let other := s.lifecycle ≠ 0 ∧ beNat (sha384 k) ≠ s.debugKeyHash
    (may = false → exec (.submit m key r g) s = .next (s.refuse m 2 (rSec 0x120))) ∧
    (may = true → off → exec (.submit m key r g) s = .next s.respErr) ∧
    (may = true → ¬off → s.sec.holder ≠ none → exec (.submit m key r g) s = .next s) ∧
    (s.canonical = true → may = true → ¬off → s.sec.holder = none → Runs (.submit m key r g) s fun t =>
      t.sec.chal = false ∧ (s.sec.chal = false ∨ other → t.sec = { s.sec with chal := false } ∧ t.bit (rSec 4) 2 = true ∧
        t.fld (rSec 0) 6 5 = s.fld (rSec 0) 6 5 + 1 ∧ Faulted 0x24 1 s t) ∧
      (s.sec.chal = true → ¬other →
        t.sec = { s.sec with chal := false, holder := some 0xE000, dbgKey := k, op := some ⟨4, false, s.now + 7840000, false, true⟩ } ∧
        t.regBytes (rSec 0x4080) 97 = k ∧ t.regBytes (rSec 0x4140) 48 = beBytes 48 r.toNat ∧
        t.regBytes (rSec 0x4180) 48 = beBytes 48 g.toNat ∧ t.bit (rSec 0x18) 0 = true ∧ t.mem = s.mem) ∧ t.resp = ⟨false, false, []⟩)) ∧
  (∀ (s : State) (d : BitVec 1552), let n : Nat := d.toNat
    let u := (s.tapSelect 0x10).emit (.tdo s.dbgCapture 1552)
    let key := leBytes 97 (n / 2 ^ 8 % 2 ^ 776)
    let sig := leBytes 96 (n / 2 ^ 784)
    (n % 256 = 1 → exec (.dbgAuth d) s = .next { u.newChal mTap with resp := s.resp }) ∧
    (n % 256 = 2 → exec (.dbgAuth d) s = .next { u.submit mTap key (beNat (sig.take 48)) (beNat (sig.drop 48)) with resp := s.resp }) ∧
    (n % 256 ≠ 1 → n % 256 ≠ 2 → Runs (.dbgAuth d) s fun t => Emitted [.tdo s.irCapture 12, .tdo s.dbgCapture 1552] s t ∧
      t.tap = { s.tap with ir := 0x10 } ∧ t.regs = s.regs ∧ t.mem = s.mem ∧ t.sec = s.sec)) ∧
  ∀ (s : State) (d : BitVec 44), let p : Nat := d.toNat / 2 ^ 41
    s.canonical = true → Runs (.dbgPair d) s fun t => t.tap = { s.tap with ir := 0x11 } ∧
      ∃ x : Nat, x < 2 ^ 44 ∧
        (s.bit (rSec 0) 3 = false ∨ 5 < p → Emitted [.tdo s.irCapture 12, .tdo x 44] s t ∧ t.regs = s.regs ∧ t.mem = s.mem) ∧
        (s.bit (rSec 0) 3 = true → p ≤ 5 → s.pairState p = 5 → Emitted [.tdo s.irCapture 12, .tdo x 44, .dmi p (d.toNat % 2 ^ 41)] s t ∧
          t.mem = s.mem)

/-- Low-speed interfaces. -/
def Obligations.LowSpeedInterfacesTransferAndSignal : Prop :=
  (∀ (s : State) (m : Master) (n : Fin 4) (x : Fin 2) (b : Byte) (v : BitVec 32), s.sysWriter m = false →
    exec (.uartTxByte m n b) s = .next (s.refuse m 2 (rUart n 0)) ∧ exec (.i2cCmdGo m n v) s = .next (s.refuse m 2 (rI2c n 0)) ∧
    exec (.spiDataWrite m n v) s = .next (s.refuse m 2 (rSpi n 4)) ∧ exec (.xspiCmdGo m x v) s = .next (s.refuse m 2 (rXspi x 0x10)) ∧
    exec (.ufsDoorbell m v) s = .next (s.refuse m 2 (rUfs 0x10))) ∧
  (∀ (s : State) (m : Master) (n : Fin 4) (b : Byte), let l := s.uartTx n
    let k := if l.length < 64 then l ++ [b] else l
    s.canonical = true → s.sysWriter m = true → s.per.tx = (if l = [] then [] else [(n.val, l)]) → Runs (.uartTxByte m n b) s fun t =>
      (s.bit (rUart n 4) 31 = true → Emitted (k.map fun c => .serial 0 n c.toNat) s t ∧ t.uartTx n = [] ∧ t.fld (rUart n 8) 15 8 = 0) ∧
      (s.bit (rUart n 4) 31 = false → t.out = s.out ∧ t.uartTx n = k ∧ t.fld (rUart n 8) 15 8 = k.length % 256) ∧
      RegsBut [rUart n 8] s t ∧ t.per.rx = s.per.rx ∧ t.mem = s.mem ∧ t.resp = ⟨false, false, []⟩) ∧
  (∀ (s : State) (n : Fin 4) (b : Byte), let l := s.uartRx n
    (s.bit (rUart n 4) 31 = false → exec (.uartRxByte n b) s = .next s) ∧
    (s.canonical = true → s.bit (rUart n 4) 31 = true → Runs (.uartRxByte n b) s fun t =>
      (64 ≤ l.length → t.bit (rUart n 8) 16 = true ∧ t.per = s.per) ∧
      (l.length < 64 → t.uartRx n = l ++ [b] ∧ t.fld (rUart n 8) 7 0 = l.length + 1 ∧ t.per.tx = s.per.tx) ∧
      RegsBut [rUart n 8] s t ∧ t.mem = s.mem)) ∧
  (∀ (s : State) (m : Master) (n : Fin 4) (v : BitVec 32), s.canonical = true → s.sysWriter m = true →
    (s.bit (rI2c n 8) 0 = true → exec (.i2cCmdGo m n v) s = .next (s.respOk [])) ∧
    (s.bit (rI2c n 8) 0 = false → Runs (.i2cCmdGo m n v) s fun t => t.word (rI2c n 0) = v.toNat &&& 0x80FF0FFF ∧
      t.bit (rI2c n 8) 0 = bitOf v.toNat 31 ∧ Emitted (if bitOf v.toNat 31 then [.serial 1 n (v.toNat % 2 ^ 24)] else []) s t ∧
      RegsBut [rI2c n 0, rI2c n 8] s t ∧ t.mem = s.mem ∧ t.resp = ⟨false, false, []⟩) ∧
    (s.bit (rSpi n 8) 0 = true → exec (.spiDataWrite m n v) s = .next (s.respOk [])) ∧
    (s.bit (rSpi n 8) 0 = false → Runs (.spiDataWrite m n v) s fun t => t.word (rSpi n 4) = v.toNat ∧ t.bit (rSpi n 8) 0 = true ∧
      Emitted [.serial 2 n (v.toNat % 2 ^ s.spiBits n)] s t ∧ RegsBut [rSpi n 4, rSpi n 8] s t ∧ t.mem = s.mem ∧
      t.resp = ⟨false, false, []⟩)) ∧
  (∀ (s : State) (n : Fin 4) (nack : Bool) (data : List Byte) (v : BitVec 32),
    (s.bit (rI2c n 8) 0 = false → exec (.i2cTransferDone n nack data) s = .next s) ∧
    (s.bit (rSpi n 8) 0 = false → exec (.spiTransferDone n v) s = .next s) ∧
    (s.canonical = true → s.bit (rI2c n 8) 0 = true → Runs (.i2cTransferDone n nack data) s fun t =>
      let k := min (s.fld (rI2c n 0) 23 16 + 1) 32
      t.bit (rI2c n 8) 0 = false ∧ t.bit (rI2c n 0) 31 = false ∧ t.bit (rI2c n 8) 1 = (nack || s.bit (rI2c n 8) 1) ∧
      (nack = false → s.bit (rI2c n 0) 11 = true → t.regBytes (rI2c n 0x40) k = sliceBytes data 0 k) ∧
      (nack = true ∨ s.bit (rI2c n 0) 11 = false → RegsBut [rI2c n 0, rI2c n 8] s t) ∧
      (∀ a, a ≠ rI2c n 0 → a ≠ rI2c n 8 → a < rI2c n 0x40 ∨ rI2c n 0x60 ≤ a → t.word a = s.word a) ∧ t.mem = s.mem) ∧
    (s.canonical = true → s.bit (rSpi n 8) 0 = true → Runs (.spiTransferDone n v) s fun t =>
      t.word (rSpi n 4) = v.toNat % 2 ^ s.spiBits n ∧ t.bit (rSpi n 8) 0 = false ∧ RegsBut [rSpi n 4, rSpi n 8] s t ∧ t.mem = s.mem)) ∧
  (∀ (s : State) (k : Fin 64) (x : Bool), let a := rPer (0x3010 + k.val / 32 * 4)
    let irq := rPer (0x3030 + k.val / 32 * 4)
    let cfg := s.fld (rPer (0x3020 + k.val / 16 * 4)) (2 * (k.val % 16) + 1) (2 * (k.val % 16))
    (s.bit a (k.val % 32) = x → exec (.gpioEdge k x) s = .next s) ∧
    (s.canonical = true → s.bit a (k.val % 32) ≠ x → Runs (.gpioEdge k x) s fun t => t.bit a (k.val % 32) = x ∧
      t.bit irq (k.val % 32) = (s.bit irq (k.val % 32) || bitOf cfg (if x then 0 else 1)) ∧ RegsBut [a, irq] s t ∧ t.mem = s.mem)) ∧
  (∀ (s : State) (m : Master) (n : Fin 2) (v : BitVec 32) (data : List Byte), s.canonical = true →
    (s.sysWriter m = true → s.bit (rXspi n 0x10) 31 = true → exec (.xspiCmdGo m n v) s = .next (s.respOk [])) ∧
    (s.sysWriter m = true → s.bit (rXspi n 0x10) 31 = false → Runs (.xspiCmdGo m n v) s fun t =>
      t.word (rXspi n 0x10) = v.toNat &&& 0x8000FFFF ∧ RegsBut [rXspi n 0x10] s t ∧ t.mem = s.mem ∧ t.resp = ⟨false, false, []⟩ ∧
      Emitted (if bitOf v.toNat 31 then [.storage 0 n (v.toNat % 2 ^ 16) (s.word64 (rXspi n 8))] else []) s t) ∧
    (s.bit (rXspi n 0x10) 31 = false → exec (.xspiCommandDone n data) s = .next s) ∧
    (s.bit (rXspi n 0x10) 31 = true → Runs (.xspiCommandDone n data) s fun t => t.bit (rXspi n 0x10) 31 = false ∧
      t.regBytes (rXspi n 0x100) (data.take 256).length = data.take 256 ∧
      (∀ a, a ≠ rXspi n 0x10 → a < rXspi n 0x100 ∨ rXspi n 0x200 ≤ a → t.word a = s.word a) ∧ t.mem = s.mem)) ∧
  (∀ (s : State) (m : Master) (v : BitVec 32), s.canonical = true → s.sysWriter m = true → Runs (.ufsDoorbell m v) s fun t =>
    let old := s.word (rUfs 0x10)
    t.word (rUfs 0x10) = old ||| v.toNat ∧ RegsBut [rUfs 0x10] s t ∧ t.mem = s.mem ∧ t.resp = ⟨false, false, []⟩ ∧
    Emitted (((List.range 32).filter fun k => bitOf v.toNat k && !bitOf old k).map fun k => .storage 1 k 0 (s.word64 (rUfs 8))) s t) ∧
  ∀ (s : State) (k : Fin 32), (s.bit (rUfs 0x10) k = false → exec (.ufsCompletion k) s = .next s) ∧
    (s.canonical = true → s.bit (rUfs 0x10) k = true → Runs (.ufsCompletion k) s fun t => t.bit (rUfs 0x10) k = false ∧
      t.bit (rUfs 0x14) k = true ∧ (∀ b, b ≠ k.val → t.bit (rUfs 0x10) b = s.bit (rUfs 0x10) b) ∧
      RegsBut [rUfs 0x10, rUfs 0x14] s t ∧ t.mem = s.mem)

/-- R188: the corners of DIV (function 0x14) and REM (0x15), on 64 bits by SALU and on 32 bits in each active lane by TALU. -/
def Obligations.DivisionCornersGiveTheirStatedResults : Prop :=
  (∀ (s : State) (c : Fin 256) (g : Fin 128) (w : Nat), s.atWord c g w → wOp w = 1 → wFn w = 0x14 ∨ wFn w = 0x15 → wPred w = 0 →
    wType w ≤ 1 → wRnd w = 0 → layoutA w false = .ok () → 0 < wDst w → wDst w < 32 → wA w < 32 → wI w = false → wB w < 32 →
    let a := (s.group c g).sreg (wA w)
    let b := (s.group c g).sreg (wB w)
    b = 0 ∨ wType w = 1 ∧ a = 2 ^ 63 ∧ b = 2 ^ 64 - 1 →
    Runs (.salu c g) s fun t =>
      let d := (t.group c g).sreg (wDst w)
      (t.group c g).pc = (s.group c g).pc + 8 ∧
      (b = 0 → wFn w = 0x14 → (wType w = 0 → d = 2 ^ 64 - 1) ∧ (wType w = 1 → toSigned 64 d = -1)) ∧
      (b = 0 → wFn w = 0x15 → d = a % 2 ^ 64) ∧
      (b ≠ 0 → d = if wFn w = 0x14 then 2 ^ 63 else 0)) ∧
  ∀ (s : State) (c : Fin 256) (g : Fin 128) (w : Nat), s.atWord c g w → wOp w = 0x10 → wFn w = 0x14 ∨ wFn w = 0x15 →
    (s.group c g).predOk w = .ok () → wType w ≤ 1 → wRnd w = 0 → layoutA w false = .ok () → wI w = false → wDst w < 32 →
    (s.ctx c g).regsA w true false = .ok () → wDst w < (s.cell c).nregs → ((s.group c g).treg (wDst w)).length = 64 →
    Runs (.talu c g) s fun t =>
      (t.group c g).pc = (s.group c g).pc + 8 ∧
      ∀ l, l < 64 → bitOf ((s.group c g).active w) l = true →
        let a := ((s.group c g).lanes (wA w)).1.getD l 0
        let b := ((s.group c g).lanes (wB w)).1.getD l 0
        let d := ((t.group c g).treg (wDst w)).getD l 0
        (b = 0 → wFn w = 0x14 → (wType w = 0 → d = 2 ^ 32 - 1) ∧ (wType w = 1 → toSigned 32 d = -1)) ∧
        (b = 0 → wFn w = 0x15 → d = a % 2 ^ 32) ∧
        (wType w = 1 → a = 2 ^ 31 → b = 2 ^ 32 - 1 → d = if wFn w = 0x14 then 2 ^ 31 else 0)

/-- R635: what IDCODE shifts out, in every state; SYS_ID (R33) at offset 0 of SYS reads the same. -/
def Obligations.TheIdcodeIsTheStatedNumber : Prop :=
  ∃ id : Nat, (∀ s : State, Runs .idcode s fun t => t.tap.ir = 2 ∧ Emitted [.tdo s.irCapture 12, .tdo id 32] s t ∧ t.regs = s.regs) ∧
    id = 0x1A8D0A9B ∧ bitsOf id 31 28 = 0x1 ∧ bitsOf id 27 12 = 0xA8D0 ∧ bitsOf id 11 1 = 0x54D ∧ bitOf id 0 = true ∧
    State.reset.word (rSys 0) = id ∧
    ((List.range 8).map fun k => b2n (bitOf id k)) = [1, 1, 0, 1, 1, 0, 0, 1] ∧
    ((List.range 4).map fun k => b2n (bitOf id (28 + k))) = [1, 0, 0, 0]
end

