-- ==== Sys2Proof/Laws/Store.lean ====
section
/-! SUPPORT. Laws of the sparse stores: reading after writing, and the canonical form kept by every operation. -/

namespace Sys2Proof.Machine

theorem stGet_below {α : Type} [DecidableEq α] {d : Nat → α} :
    ∀ {l : List (Nat × α)} {b k : Nat}, stWf d (some b) l = true → k ≤ b → stGet d l k = d k
  | [], _, _, _, _ => rfl
  | (k', v) :: r, b, k, h, hk => by
    simp only [stWf, Bool.and_eq_true, decide_eq_true_eq] at h
    simp only [stGet]
    rw [if_pos (by omega)]

/-- A key reads the value written to it. -/
theorem stGet_stPut_same {α : Type} [DecidableEq α] {d : Nat → α} :
    ∀ {lo : Option Nat} {l : List (Nat × α)} (k : Nat) (v : α), stWf d lo l = true → stGet d (stPut d l k v) k = v
  | _, [], k, v, _ => by
    unfold stPut
    split
    · next h => simp [stGet, h]
    · simp [stGet]
  | lo, (k', v') :: r, k, v, h => by
    simp only [stWf, Bool.and_eq_true, decide_eq_true_eq] at h
    unfold stPut
    split
    · next hk =>
      split
      · next hv => simp [stGet, hk, hv]
      · simp [stGet]
    · next hk =>
      split
      · next hkk =>
        split
        · next hv => rw [stGet_below h.2 (by omega), hv]
        · simp [stGet]
      · next hkk =>
        simp only [stGet]
        rw [if_neg hk, if_neg hkk]
        exact stGet_stPut_same k v h.2

/-- A write leaves what every other key reads. -/
theorem stGet_stPut_other {α : Type} [DecidableEq α] {d : Nat → α} :
    ∀ {lo : Option Nat} {l : List (Nat × α)} {k j : Nat} (v : α), stWf d lo l = true → j ≠ k →
      stGet d (stPut d l k v) j = stGet d l j
  | _, [], k, j, v, _, hj => by
    unfold stPut
    split
    · rfl
    · simp only [stGet]
      split
      · rfl
      · simp [hj]
  | lo, (k', v') :: r, k, j, v, h, hj => by
    simp only [stWf, Bool.and_eq_true, decide_eq_true_eq] at h
    unfold stPut
    split
    · next hk =>
      split
      · rfl
      · simp only [stGet]
        split
        · next h1 => rw [if_pos (by omega)]
        · simp [hj]
    · next hk =>
      split
      · next hkk =>
        split
        · simp only [stGet]
          split
          · next h1 => exact stGet_below h.2 (by omega)
          · rw [if_neg (by omega)]
        · simp only [stGet]
          subst hkk
          simp [hj]
      · simp only [stGet]
        split
        · rfl
        · split
          · rfl
          · exact stGet_stPut_other v h.2 hj

theorem stWf_mono {α : Type} [DecidableEq α] {d : Nat → α} :
    ∀ {l : List (Nat × α)} {a b : Nat}, a ≤ b → stWf d (some b) l = true → stWf d (some a) l = true
  | [], _, _, _, _ => rfl
  | (k, v) :: r, a, b, hab, h => by
    simp only [stWf, Bool.and_eq_true, decide_eq_true_eq] at h ⊢
    exact ⟨⟨by omega, h.1.2⟩, h.2⟩

theorem stWf_none {α : Type} [DecidableEq α] {d : Nat → α} {l : List (Nat × α)} {b : Nat} (h : stWf d (some b) l = true) :
    stWf d none l = true := by
  cases l with
  | nil => rfl
  | cons p r =>
    simp only [stWf, Bool.and_eq_true, decide_eq_true_eq] at h ⊢
    exact ⟨⟨trivial, h.1.2⟩, h.2⟩

theorem stPut_wf_above {α : Type} [DecidableEq α] {d : Nat → α} :
    ∀ {l : List (Nat × α)} {b k : Nat} {v : α}, stWf d (some b) l = true → b < k → stWf d (some b) (stPut d l k v) = true
  | [], b, k, v, _, hk => by
    unfold stPut
    split
    · rfl
    · next hv => simp [stWf, hk, hv]
  | (k', v') :: r, b, k, v, h, hk => by
    simp only [stWf, Bool.and_eq_true, decide_eq_true_eq] at h
    unfold stPut
    split
    · next h1 =>
      split
      · simp [stWf, h.1.1, h.1.2, h.2]
      · next hv => simp [stWf, hk, hv, h1, h.1.2, h.2]
    · next h1 =>
      split
      · next h2 =>
        split
        · exact stWf_mono (by omega) h.2
        · next hv =>
          subst h2
          simp [stWf, hk, hv, h.2]
      · next h2 =>
        simp only [stWf, Bool.and_eq_true, decide_eq_true_eq]
        exact ⟨h.1, stPut_wf_above h.2 (by omega)⟩

/-- A write keeps the canonical form. -/
theorem stPut_wf {α : Type} [DecidableEq α] {d : Nat → α} {l : List (Nat × α)} (k : Nat) (v : α) (h : stWf d none l = true) :
    stWf d none (stPut d l k v) = true := by
  cases l with
  | nil =>
    unfold stPut
    split
    · rfl
    · next hv => simp [stWf, hv]
  | cons p r =>
    obtain ⟨k', v'⟩ := p
    simp only [stWf, Bool.and_eq_true, decide_eq_true_eq] at h
    unfold stPut
    split
    · next h1 =>
      split
      · simp [stWf, h.1.2, h.2]
      · next hv => simp [stWf, hv, h1, h.1.2, h.2]
    · next h1 =>
      split
      · next h2 =>
        split
        · exact stWf_none h.2
        · next hv =>
          subst h2
          simp [stWf, hv, h.2]
      · next h2 =>
        simp only [stWf, Bool.and_eq_true, decide_eq_true_eq]
        exact ⟨h.1, stPut_wf_above h.2 (by omega)⟩

theorem stWf_filter_some {α : Type} [DecidableEq α] {d : Nat → α} (f : Nat × α → Bool) :
    ∀ {l : List (Nat × α)} {b : Nat}, stWf d (some b) l = true → stWf d (some b) (l.filter f) = true
  | [], _, _ => rfl
  | (k, v) :: r, b, h => by
    simp only [stWf, Bool.and_eq_true, decide_eq_true_eq] at h
    have ih := stWf_filter_some f h.2
    rw [List.filter_cons]
    split
    · simp only [stWf, Bool.and_eq_true, decide_eq_true_eq]
      exact ⟨h.1, ih⟩
    · exact stWf_mono (by omega) ih

/-- Dropping entries keeps the canonical form. -/
theorem stWf_filter {α : Type} [DecidableEq α] {d : Nat → α} (f : Nat × α → Bool) {l : List (Nat × α)} (h : stWf d none l = true) :
    stWf d none (l.filter f) = true := by
  cases l with
  | nil => rfl
  | cons p r =>
    obtain ⟨k, v⟩ := p
    simp only [stWf, Bool.and_eq_true, decide_eq_true_eq] at h
    have ih := stWf_filter_some f h.2
    rw [List.filter_cons]
    split
    · simp only [stWf, Bool.and_eq_true, decide_eq_true_eq]
      exact ⟨h.1, ih⟩
    · exact stWf_none ih

theorem stWf_iff {α : Type} [DecidableEq α] {d : Nat → α} {lo : Option Nat} {l : List (Nat × α)} :
    stWf d lo l = true ↔
      (∀ p ∈ l, p.2 ≠ d p.1 ∧ ∀ b, lo = some b → b < p.1) ∧ l.Pairwise fun p q => p.1 < q.1 := by
  induction l generalizing lo with
  | nil => simp [stWf]
  | cons p r ih =>
    obtain ⟨k, v⟩ := p
    simp only [stWf, Bool.and_eq_true, decide_eq_true_eq, ih, List.pairwise_cons, List.mem_cons]
    constructor
    · rintro ⟨⟨hb, hv⟩, hr, hp⟩
      refine ⟨?_, fun q hq => (hr q hq).2 k rfl, hp⟩
      rintro q (rfl | hq)
      · refine ⟨hv, fun b hb' => ?_⟩
        subst hb'
        simpa using hb
      · refine ⟨(hr q hq).1, fun b hb' => ?_⟩
        subst hb'
        exact lt_trans (by simpa using hb) ((hr q hq).2 k rfl)
    · rintro ⟨hall, hk, hp⟩
      refine ⟨⟨?_, (hall (k, v) (Or.inl rfl)).1⟩, fun q hq => ⟨(hall q (Or.inr hq)).1, fun b hb => ?_⟩, hp⟩
      · cases lo with
        | none => rfl
        | some b => simpa using (hall (k, v) (Or.inl rfl)).2 b rfl
      · cases hb
        exact hk q hq

theorem stRun_mem {α : Type} [DecidableEq α] {d : Nat → α} :
    ∀ {vs : List α} {a : Nat} {p : Nat × α}, p ∈ stRun d a vs → p.2 ≠ d p.1 ∧ a ≤ p.1 ∧ p.1 < a + vs.length
  | [], _, _, h => by simp [stRun] at h
  | v :: r, a, p, h => by
    unfold stRun at h
    split at h
    · have := stRun_mem h
      simp only [List.length_cons]
      exact ⟨this.1, by omega, by omega⟩
    · next hv =>
      rcases List.mem_cons.mp h with rfl | h
      · simp only [List.length_cons]
        exact ⟨hv, le_refl _, by omega⟩
      · have := stRun_mem h
        simp only [List.length_cons]
        exact ⟨this.1, by omega, by omega⟩

theorem stRun_pairwise {α : Type} [DecidableEq α] {d : Nat → α} :
    ∀ {vs : List α} {a : Nat}, (stRun d a vs).Pairwise fun p q => p.1 < q.1
  | [], _ => by simp [stRun]
  | v :: r, a => by
    unfold stRun
    split
    · exact stRun_pairwise
    · refine List.pairwise_cons.mpr ⟨fun q hq => ?_, stRun_pairwise⟩
      have := stRun_mem hq
      simp only
      omega

/-- A write of a run keeps the canonical form. -/
theorem stPutRun_wf {α : Type} [DecidableEq α] {d : Nat → α} {l : List (Nat × α)} (a : Nat) (vs : List α) (h : stWf d none l = true) :
    stWf d none (stPutRun d l a vs) = true := by
  rw [stWf_iff] at h ⊢
  obtain ⟨h1, h2⟩ := h
  unfold stPutRun
  constructor
  · intro p hp
    refine ⟨?_, fun b hb => by cases hb⟩
    rcases List.mem_append.mp hp with hp | hp
    · rcases List.mem_append.mp hp with hp | hp
      · exact (h1 p (List.mem_of_mem_filter hp)).1
      · exact (stRun_mem hp).1
    · exact (h1 p (List.mem_of_mem_filter hp)).1
  · rw [List.pairwise_append, List.pairwise_append]
    refine ⟨⟨h2.filter _, stRun_pairwise, fun p hp q hq => ?_⟩, h2.filter _, fun p hp q hq => ?_⟩
    · have := stRun_mem hq
      have := (List.mem_filter.mp hp).2
      simp at this
      omega
    · have hq2 := (List.mem_filter.mp hq).2
      simp at hq2
      rcases List.mem_append.mp hp with hp | hp
      · have := (List.mem_filter.mp hp).2
        simp at this
        omega
      · have := stRun_mem hp
        omega

/-- Removing a range of keys keeps the canonical form. -/
theorem fmDelRange_wf {α : Type} [DecidableEq α] {d : Nat → α} {l : List (Nat × α)} (a b : Nat) (h : stWf d none l = true) :
    stWf d none (fmDelRange l a b) = true := stWf_filter _ h

/-- A listed key reads its value. -/
theorem stGet_of_mem {α : Type} [DecidableEq α] {d : Nat → α} {l : List (Nat × α)} {k : Nat} {v : α}
    (h : l.Pairwise fun p q => p.1 < q.1) (m : (k, v) ∈ l) : stGet d l k = v := by
  induction l with
  | nil => simp at m
  | cons p r ih =>
    obtain ⟨k', v'⟩ := p
    rw [List.pairwise_cons] at h
    rcases List.mem_cons.mp m with e | e
    · cases e; simp [stGet]
    · have a : k' < k := h.1 (k, v) e
      rw [stGet, if_neg (by omega), if_neg (by omega)]
      exact ih h.2 e

/-- A key that is not listed reads the default. -/
theorem stGet_of_not_mem {α : Type} {d : Nat → α} {l : List (Nat × α)} {k : Nat} (m : ∀ v, (k, v) ∉ l) : stGet d l k = d k := by
  induction l with
  | nil => rfl
  | cons p r ih =>
    obtain ⟨k', v'⟩ := p
    have n : k ≠ k' := fun e => m v' (by simp [e])
    rw [stGet, if_neg n]
    split
    · rfl
    · exact ih fun v x => m v (List.mem_cons_of_mem _ x)

theorem stRun_get {α : Type} [DecidableEq α] {d : Nat → α} :
    ∀ {vs : List α} {a i : Nat} (h : i < vs.length), stGet d (stRun d a vs) (a + i) = vs[i]
  | [], _, _, h => by simp at h
  | v :: r, a, 0, _ => by
    unfold stRun
    split
    · next e =>
      rw [stGet_of_not_mem]
      · simpa using e.symm
      · intro w m
        have := stRun_mem m
        simp at this
    · simp [stGet]
  | v :: r, a, i + 1, h => by
    have ih := stRun_get (d := d) (vs := r) (a := a + 1) (i := i) (by simpa using h)
    have e : a + 1 + i = a + (i + 1) := by omega
    rw [e] at ih
    unfold stRun
    split
    · simpa using ih
    · rw [stGet, if_neg (by omega), if_neg (by omega)]
      simpa using ih

theorem stPutRun_pairwise {α : Type} [DecidableEq α] {d : Nat → α} {l : List (Nat × α)} (a : Nat) (vs : List α)
    (h : stWf d none l = true) : (stPutRun d l a vs).Pairwise fun p q => p.1 < q.1 :=
  (stWf_iff.mp (stPutRun_wf a vs h)).2

/-- Inside a run written, a key reads its value of the run. -/
theorem stGet_stPutRun_inside {α : Type} [DecidableEq α] {d : Nat → α} {l : List (Nat × α)} {a i : Nat} {vs : List α}
    (h : stWf d none l = true) (hi : i < vs.length) : stGet d (stPutRun d l a vs) (a + i) = vs[i] := by
  by_cases e : vs[i] = d (a + i)
  · rw [e]
    apply stGet_of_not_mem
    intro v m
    simp only [stPutRun, List.mem_append, List.mem_filter, decide_eq_true_eq] at m
    rcases m with (⟨_, m⟩ | m) | ⟨_, m⟩
    · omega
    · have p : (stRun d a vs).Pairwise fun p q => p.1 < q.1 := stRun_pairwise
      have g := stGet_of_mem (d := d) p m
      rw [stRun_get hi] at g
      exact (stRun_mem m).1 (g ▸ e)
    · omega
  · apply stGet_of_mem (stPutRun_pairwise a vs h)
    have m : (a + i, vs[i]) ∈ stRun d a vs := by
      by_contra n
      have q : ∀ v, (a + i, v) ∉ stRun d a vs := by
        intro v m
        have g := stGet_of_mem (d := d) (stRun_pairwise (d := d)) m
        rw [stRun_get hi] at g
        exact n (g ▸ m)
      have g := stGet_of_not_mem (d := d) q
      rw [stRun_get hi] at g
      exact e g
    simp [stPutRun, m]

/-- Outside a run written, a key reads as before. -/
theorem stGet_stPutRun_outside {α : Type} [DecidableEq α] {d : Nat → α} {l : List (Nat × α)} {a k : Nat} {vs : List α}
    (h : stWf d none l = true) (hk : k < a ∨ a + vs.length ≤ k) : stGet d (stPutRun d l a vs) k = stGet d l k := by
  by_cases e : ∃ v, (k, v) ∈ l
  · obtain ⟨v, m⟩ := e
    rw [stGet_of_mem (stWf_iff.mp h).2 m]
    apply stGet_of_mem (stPutRun_pairwise a vs h)
    simp [stPutRun, m, hk]
    omega
  · rw [stGet_of_not_mem fun v m => e ⟨v, m⟩]
    apply stGet_of_not_mem
    intro v m
    simp only [stPutRun, List.mem_append, List.mem_filter, decide_eq_true_eq] at m
    rcases m with (⟨m, _⟩ | m) | ⟨m, _⟩
    · exact e ⟨v, m⟩
    · have := (stRun_mem m).2; simp at this; omega
    · exact e ⟨v, m⟩

/-- A key of a range taken out reads the default; any other reads as before. -/
theorem stGet_fmDelRange {α : Type} [DecidableEq α] {d : Nat → α} {l : List (Nat × α)} {a b k : Nat} (h : stWf d none l = true) :
    stGet d (fmDelRange l a b) k = if a ≤ k ∧ k < b then d k else stGet d l k := by
  split
  · next c =>
    apply stGet_of_not_mem
    intro v m
    simp only [fmDelRange, List.mem_filter, Bool.or_eq_true, decide_eq_true_eq] at m
    omega
  · next c =>
    by_cases e : ∃ v, (k, v) ∈ l
    · obtain ⟨v, m⟩ := e
      rw [stGet_of_mem (stWf_iff.mp h).2 m]
      apply stGet_of_mem ((stWf_iff.mp h).2.filter _)
      simp only [List.mem_filter, Bool.or_eq_true, decide_eq_true_eq]
      refine ⟨m, ?_⟩
      omega
    · rw [stGet_of_not_mem fun v m => e ⟨v, m⟩]
      apply stGet_of_not_mem
      intro v m
      exact e ⟨v, (List.mem_filter.mp m).1⟩

/-! Finite maps. -/

@[simp] theorem fmGet_fmPut_same {α : Type} : ∀ (l : List (Nat × α)) (k : Nat) (v : α), fmGet (fmPut l k v) k = some v
  | [], k, v => by simp [fmPut, fmGet]
  | (k', v') :: r, k, v => by
    unfold fmPut
    split
    · simp [fmGet]
    · split
      · simp [fmGet]
      · rw [fmGet, if_neg (by omega), if_neg (by omega)]
        exact fmGet_fmPut_same r k v

theorem fmGet_fmPut_other {α : Type} : ∀ (l : List (Nat × α)) {j k : Nat} (v : α), j ≠ k → fmGet (fmPut l k v) j = fmGet l j
  | [], j, k, v, h => by simp [fmPut, fmGet, h]
  | (k', v') :: r, j, k, v, h => by
    by_cases a : k < k'
    · have e : fmPut ((k', v') :: r) k v = (k, v) :: (k', v') :: r := by rw [fmPut, if_pos a]
      rw [e, fmGet, if_neg h]
      by_cases b : j < k
      · rw [if_pos b, fmGet, if_pos (by omega)]
      · rw [if_neg b]
    · by_cases b : k = k'
      · subst b
        have e : fmPut ((k, v') :: r) k v = (k, v) :: r := by rw [fmPut, if_neg a, if_pos rfl]
        rw [e, fmGet, fmGet, if_neg h, if_neg h]
      · have e : fmPut ((k', v') :: r) k v = (k', v') :: fmPut r k v := by rw [fmPut, if_neg a, if_neg b]
        rw [e, fmGet, fmGet, fmGet_fmPut_other r v h]

@[simp] theorem fmGetD_fmPut_same {α : Type} (d : α) (l : List (Nat × α)) (k : Nat) (v : α) : fmGetD d (fmPut l k v) k = v := by
  simp [fmGetD]

theorem fmGetD_fmPut_other {α : Type} (d : α) (l : List (Nat × α)) {j k : Nat} (v : α) (h : j ≠ k) :
    fmGetD d (fmPut l k v) j = fmGetD d l j := by
  simp [fmGetD, fmGet_fmPut_other l v h]

@[simp] theorem fmGetD_fmMod_same {α : Type} (d : α) (l : List (Nat × α)) (k : Nat) (f : α → α) :
    fmGetD d (fmMod d l k f) k = f (fmGetD d l k) := by
  simp [fmMod]

theorem fmGetD_fmMod_other {α : Type} (d : α) (l : List (Nat × α)) {j k : Nat} (f : α → α) (h : j ≠ k) :
    fmGetD d (fmMod d l k f) j = fmGetD d l j := fmGetD_fmPut_other d l _ h

end Sys2Proof.Machine
end

