-- ==== Sys2Proof/Laws/Word.lean ====
section
/-! SUPPORT. Laws of bits and bit fields of a number, and of byte sequences. -/

namespace Sys2Proof.Machine

theorem bitOf_eq (x n : Nat) : bitOf x n = x.testBit n := by
  rw [bitOf, Nat.testBit_eq_decide_div_mod_eq, Nat.shiftRight_eq_div_pow]
  rfl

theorem testBit_bitsOf (x hi lo k : Nat) : (bitsOf x hi lo).testBit k = (decide (k < hi + 1 - lo) && x.testBit (lo + k)) := by
  rw [bitsOf, Nat.testBit_mod_two_pow, Nat.testBit_shiftRight]

/-- A bit of a number with a field written: the field's bit inside it, the old bit elsewhere. -/
theorem testBit_setBitsOf (x hi lo v k : Nat) (h : lo ≤ hi + 1) :
    (setBitsOf x hi lo v).testBit k = if lo ≤ k ∧ k ≤ hi then v.testBit (k - lo) else x.testBit k := by
  have hs : setBitsOf x hi lo v =
      (x >>> (hi + 1)) <<< (hi + 1) ||| ((v % 2 ^ (hi + 1 - lo)) <<< lo) ||| x % 2 ^ lo := rfl
  rw [hs]
  simp only [Nat.testBit_or, Nat.testBit_shiftLeft, Nat.testBit_mod_two_pow, Nat.testBit_shiftRight]
  by_cases h1 : lo ≤ k <;> by_cases h2 : k ≤ hi
  · have a : ¬ hi + 1 ≤ k := by omega
    have b : k - lo < hi + 1 - lo := by omega
    have c : ¬ k < lo := by omega
    simp [h1, h2, a, b, c]
  · have a : hi + 1 ≤ k := by omega
    have b : ¬ k - lo < hi + 1 - lo := by omega
    have c : ¬ k < lo := by omega
    have e : hi + 1 + (k - (hi + 1)) = k := by omega
    simp [h1, h2, a, b, c, e]
  · have a : ¬ hi + 1 ≤ k := by omega
    have c : k < lo := by omega
    simp [h1, a, c]
  · exact absurd h (by omega)

/-- One bit set by a field of one bit. -/
theorem bitOf_setBitsOf_one (x b k : Nat) : bitOf (setBitsOf x b b 1) k = (decide (k = b) || bitOf x k) := by
  rw [bitOf_eq, bitOf_eq, testBit_setBitsOf _ _ _ _ _ (by omega)]
  by_cases e : k = b
  · subst e; simp
  · have : ¬ (b ≤ k ∧ k ≤ b) := by omega
    simp [e, this]

/-- A field reads as the value written to it. -/
theorem bitsOf_setBitsOf_same (x hi lo v : Nat) (h : lo ≤ hi) : bitsOf (setBitsOf x hi lo v) hi lo = v % 2 ^ (hi + 1 - lo) := by
  apply Nat.eq_of_testBit_eq
  intro k
  rw [testBit_bitsOf, testBit_setBitsOf _ _ _ _ _ (by omega), Nat.testBit_mod_two_pow]
  by_cases hk : k < hi + 1 - lo
  · have a : lo ≤ lo + k ∧ lo + k ≤ hi := by omega
    rw [if_pos a, Nat.add_sub_cancel_left]
  · simp [hk]

/-- Another field, apart from the one written, reads as before. -/
theorem bitsOf_setBitsOf_other (x hi lo v hi' lo' : Nat) (h : lo ≤ hi + 1) (ap : hi' < lo ∨ hi < lo') :
    bitsOf (setBitsOf x hi lo v) hi' lo' = bitsOf x hi' lo' := by
  apply Nat.eq_of_testBit_eq
  intro k
  rw [testBit_bitsOf, testBit_bitsOf, testBit_setBitsOf _ _ _ _ _ h]
  by_cases hk : k < hi' + 1 - lo'
  · have a : ¬ (lo ≤ lo' + k ∧ lo' + k ≤ hi) := by omega
    rw [if_neg a]
  · simp [hk]

theorem leBytes_length : ∀ (n x : Nat), (leBytes n x).length = n
  | 0, _ => rfl
  | n + 1, x => by simp [leBytes, leBytes_length n]

end Sys2Proof.Machine
end

