-- ==== Sys2Proof/Laws/State.lean ====
section
/-! SUPPORT. Laws of the state: what each named operation leaves alone, and reading registers and memory after writing them. -/

namespace Sys2Proof.Machine

/-! Fields that an operation leaves alone. -/

@[simp] theorem State.setWord_pending (s : State) (a v : Nat) : (s.setWord a v).pending = s.pending := rfl
@[simp] theorem State.setWord_mem (s : State) (a v : Nat) : (s.setWord a v).mem = s.mem := rfl
@[simp] theorem State.setWord_poison (s : State) (a v : Nat) : (s.setWord a v).poison = s.poison := rfl
@[simp] theorem State.setWord_resp (s : State) (a v : Nat) : (s.setWord a v).resp = s.resp := rfl
@[simp] theorem State.setWord_holds (s : State) (a v : Nat) : (s.setWord a v).holds = s.holds := rfl
@[simp] theorem State.setWord_caps (s : State) (a v : Nat) : (s.setWord a v).caps = s.caps := rfl
@[simp] theorem State.setWord_out (s : State) (a v : Nat) : (s.setWord a v).out = s.out := rfl
@[simp] theorem State.setWord_now (s : State) (a v : Nat) : (s.setWord a v).now = s.now := rfl
@[simp] theorem State.setWord_free (s : State) (a v : Nat) : (s.setWord a v).free = s.free := rfl
@[simp] theorem State.setWord_flt (s : State) (a v : Nat) : (s.setWord a v).flt = s.flt := rfl
@[simp] theorem State.setWord_twn (s : State) (a v : Nat) : (s.setWord a v).twn = s.twn := rfl
@[simp] theorem State.setWord_awl (s : State) (a v : Nat) : (s.setWord a v).awl = s.awl := rfl
@[simp] theorem State.setWord_eth (s : State) (a v : Nat) : (s.setWord a v).eth = s.eth := rfl
@[simp] theorem State.setWord_ptp (s : State) (a v : Nat) : (s.setWord a v).ptp = s.ptp := rfl
@[simp] theorem State.setWord_can (s : State) (a v : Nat) : (s.setWord a v).can = s.can := rfl
@[simp] theorem State.setWord_wpe (s : State) (a v : Nat) : (s.setWord a v).wpe = s.wpe := rfl
@[simp] theorem State.setWord_mc (s : State) (a v : Nat) : (s.setWord a v).mc = s.mc := rfl
@[simp] theorem State.setWord_phx (s : State) (a v : Nat) : (s.setWord a v).phx = s.phx := rfl
@[simp] theorem State.setWord_sfe (s : State) (a v : Nat) : (s.setWord a v).sfe = s.sfe := rfl
@[simp] theorem State.setWord_cel (s : State) (a v : Nat) : (s.setWord a v).cel = s.cel := rfl
@[simp] theorem State.setWord_fab (s : State) (a v : Nat) : (s.setWord a v).fab = s.fab := rfl
@[simp] theorem State.setWord_atu (s : State) (a v : Nat) : (s.setWord a v).atu = s.atu := rfl
@[simp] theorem State.setWord_hqm (s : State) (a v : Nat) : (s.setWord a v).hqm = s.hqm := rfl
@[simp] theorem State.setWord_pci (s : State) (a v : Nat) : (s.setWord a v).pci = s.pci := rfl
@[simp] theorem State.setWord_clc (s : State) (a v : Nat) : (s.setWord a v).clc = s.clc := rfl
@[simp] theorem State.setWord_mhs (s : State) (a v : Nat) : (s.setWord a v).mhs = s.mhs := rfl
@[simp] theorem State.setWord_sec (s : State) (a v : Nat) : (s.setWord a v).sec = s.sec := rfl
@[simp] theorem State.setWord_ras (s : State) (a v : Nat) : (s.setWord a v).ras = s.ras := rfl
@[simp] theorem State.setWord_dpy (s : State) (a v : Nat) : (s.setWord a v).dpy = s.dpy := rfl
@[simp] theorem State.setWord_pwr (s : State) (a v : Nat) : (s.setWord a v).pwr = s.pwr := rfl
@[simp] theorem State.setWord_fwp (s : State) (a v : Nat) : (s.setWord a v).fwp = s.fwp := rfl
@[simp] theorem State.setWord_tap (s : State) (a v : Nat) : (s.setWord a v).tap = s.tap := rfl
@[simp] theorem State.setWord_per (s : State) (a v : Nat) : (s.setWord a v).per = s.per := rfl
@[simp] theorem State.setWord_heldAcc (s : State) (a v : Nat) : (s.setWord a v).heldAcc = s.heldAcc := rfl

@[simp] theorem State.setFld_pending (s : State) (a hi lo v : Nat) : (s.setFld a hi lo v).pending = s.pending := rfl
@[simp] theorem State.setFld_mem (s : State) (a hi lo v : Nat) : (s.setFld a hi lo v).mem = s.mem := rfl
@[simp] theorem State.setFld_poison (s : State) (a hi lo v : Nat) : (s.setFld a hi lo v).poison = s.poison := rfl
@[simp] theorem State.setFld_resp (s : State) (a hi lo v : Nat) : (s.setFld a hi lo v).resp = s.resp := rfl
@[simp] theorem State.setFld_holds (s : State) (a hi lo v : Nat) : (s.setFld a hi lo v).holds = s.holds := rfl
@[simp] theorem State.setFld_caps (s : State) (a hi lo v : Nat) : (s.setFld a hi lo v).caps = s.caps := rfl
@[simp] theorem State.setFld_out (s : State) (a hi lo v : Nat) : (s.setFld a hi lo v).out = s.out := rfl
@[simp] theorem State.setFld_now (s : State) (a hi lo v : Nat) : (s.setFld a hi lo v).now = s.now := rfl
@[simp] theorem State.setFld_free (s : State) (a hi lo v : Nat) : (s.setFld a hi lo v).free = s.free := rfl
@[simp] theorem State.setFld_flt (s : State) (a hi lo v : Nat) : (s.setFld a hi lo v).flt = s.flt := rfl
@[simp] theorem State.setFld_twn (s : State) (a hi lo v : Nat) : (s.setFld a hi lo v).twn = s.twn := rfl
@[simp] theorem State.setFld_awl (s : State) (a hi lo v : Nat) : (s.setFld a hi lo v).awl = s.awl := rfl
@[simp] theorem State.setFld_eth (s : State) (a hi lo v : Nat) : (s.setFld a hi lo v).eth = s.eth := rfl
@[simp] theorem State.setFld_ptp (s : State) (a hi lo v : Nat) : (s.setFld a hi lo v).ptp = s.ptp := rfl
@[simp] theorem State.setFld_can (s : State) (a hi lo v : Nat) : (s.setFld a hi lo v).can = s.can := rfl
@[simp] theorem State.setFld_wpe (s : State) (a hi lo v : Nat) : (s.setFld a hi lo v).wpe = s.wpe := rfl
@[simp] theorem State.setFld_mc (s : State) (a hi lo v : Nat) : (s.setFld a hi lo v).mc = s.mc := rfl
@[simp] theorem State.setFld_phx (s : State) (a hi lo v : Nat) : (s.setFld a hi lo v).phx = s.phx := rfl
@[simp] theorem State.setFld_sfe (s : State) (a hi lo v : Nat) : (s.setFld a hi lo v).sfe = s.sfe := rfl
@[simp] theorem State.setFld_cel (s : State) (a hi lo v : Nat) : (s.setFld a hi lo v).cel = s.cel := rfl
@[simp] theorem State.setFld_fab (s : State) (a hi lo v : Nat) : (s.setFld a hi lo v).fab = s.fab := rfl
@[simp] theorem State.setFld_atu (s : State) (a hi lo v : Nat) : (s.setFld a hi lo v).atu = s.atu := rfl
@[simp] theorem State.setFld_hqm (s : State) (a hi lo v : Nat) : (s.setFld a hi lo v).hqm = s.hqm := rfl
@[simp] theorem State.setFld_pci (s : State) (a hi lo v : Nat) : (s.setFld a hi lo v).pci = s.pci := rfl
@[simp] theorem State.setFld_clc (s : State) (a hi lo v : Nat) : (s.setFld a hi lo v).clc = s.clc := rfl
@[simp] theorem State.setFld_mhs (s : State) (a hi lo v : Nat) : (s.setFld a hi lo v).mhs = s.mhs := rfl
@[simp] theorem State.setFld_sec (s : State) (a hi lo v : Nat) : (s.setFld a hi lo v).sec = s.sec := rfl
@[simp] theorem State.setFld_ras (s : State) (a hi lo v : Nat) : (s.setFld a hi lo v).ras = s.ras := rfl
@[simp] theorem State.setFld_dpy (s : State) (a hi lo v : Nat) : (s.setFld a hi lo v).dpy = s.dpy := rfl
@[simp] theorem State.setFld_pwr (s : State) (a hi lo v : Nat) : (s.setFld a hi lo v).pwr = s.pwr := rfl
@[simp] theorem State.setFld_fwp (s : State) (a hi lo v : Nat) : (s.setFld a hi lo v).fwp = s.fwp := rfl
@[simp] theorem State.setFld_tap (s : State) (a hi lo v : Nat) : (s.setFld a hi lo v).tap = s.tap := rfl
@[simp] theorem State.setFld_per (s : State) (a hi lo v : Nat) : (s.setFld a hi lo v).per = s.per := rfl
@[simp] theorem State.setFld_heldAcc (s : State) (a hi lo v : Nat) : (s.setFld a hi lo v).heldAcc = s.heldAcc := rfl

@[simp] theorem State.setBit_pending (s : State) (a n : Nat) (b : Bool) : (s.setBit a n b).pending = s.pending := rfl
@[simp] theorem State.setBit_mem (s : State) (a n : Nat) (b : Bool) : (s.setBit a n b).mem = s.mem := rfl
@[simp] theorem State.setBit_poison (s : State) (a n : Nat) (b : Bool) : (s.setBit a n b).poison = s.poison := rfl
@[simp] theorem State.setBit_resp (s : State) (a n : Nat) (b : Bool) : (s.setBit a n b).resp = s.resp := rfl
@[simp] theorem State.setBit_holds (s : State) (a n : Nat) (b : Bool) : (s.setBit a n b).holds = s.holds := rfl
@[simp] theorem State.setBit_caps (s : State) (a n : Nat) (b : Bool) : (s.setBit a n b).caps = s.caps := rfl
@[simp] theorem State.setBit_out (s : State) (a n : Nat) (b : Bool) : (s.setBit a n b).out = s.out := rfl
@[simp] theorem State.setBit_now (s : State) (a n : Nat) (b : Bool) : (s.setBit a n b).now = s.now := rfl
@[simp] theorem State.setBit_free (s : State) (a n : Nat) (b : Bool) : (s.setBit a n b).free = s.free := rfl
@[simp] theorem State.setBit_flt (s : State) (a n : Nat) (b : Bool) : (s.setBit a n b).flt = s.flt := rfl
@[simp] theorem State.setBit_twn (s : State) (a n : Nat) (b : Bool) : (s.setBit a n b).twn = s.twn := rfl
@[simp] theorem State.setBit_awl (s : State) (a n : Nat) (b : Bool) : (s.setBit a n b).awl = s.awl := rfl
@[simp] theorem State.setBit_eth (s : State) (a n : Nat) (b : Bool) : (s.setBit a n b).eth = s.eth := rfl
@[simp] theorem State.setBit_ptp (s : State) (a n : Nat) (b : Bool) : (s.setBit a n b).ptp = s.ptp := rfl
@[simp] theorem State.setBit_can (s : State) (a n : Nat) (b : Bool) : (s.setBit a n b).can = s.can := rfl
@[simp] theorem State.setBit_wpe (s : State) (a n : Nat) (b : Bool) : (s.setBit a n b).wpe = s.wpe := rfl
@[simp] theorem State.setBit_mc (s : State) (a n : Nat) (b : Bool) : (s.setBit a n b).mc = s.mc := rfl
@[simp] theorem State.setBit_phx (s : State) (a n : Nat) (b : Bool) : (s.setBit a n b).phx = s.phx := rfl
@[simp] theorem State.setBit_sfe (s : State) (a n : Nat) (b : Bool) : (s.setBit a n b).sfe = s.sfe := rfl
@[simp] theorem State.setBit_cel (s : State) (a n : Nat) (b : Bool) : (s.setBit a n b).cel = s.cel := rfl
@[simp] theorem State.setBit_fab (s : State) (a n : Nat) (b : Bool) : (s.setBit a n b).fab = s.fab := rfl
@[simp] theorem State.setBit_atu (s : State) (a n : Nat) (b : Bool) : (s.setBit a n b).atu = s.atu := rfl
@[simp] theorem State.setBit_hqm (s : State) (a n : Nat) (b : Bool) : (s.setBit a n b).hqm = s.hqm := rfl
@[simp] theorem State.setBit_pci (s : State) (a n : Nat) (b : Bool) : (s.setBit a n b).pci = s.pci := rfl
@[simp] theorem State.setBit_clc (s : State) (a n : Nat) (b : Bool) : (s.setBit a n b).clc = s.clc := rfl
@[simp] theorem State.setBit_mhs (s : State) (a n : Nat) (b : Bool) : (s.setBit a n b).mhs = s.mhs := rfl
@[simp] theorem State.setBit_sec (s : State) (a n : Nat) (b : Bool) : (s.setBit a n b).sec = s.sec := rfl
@[simp] theorem State.setBit_ras (s : State) (a n : Nat) (b : Bool) : (s.setBit a n b).ras = s.ras := rfl
@[simp] theorem State.setBit_dpy (s : State) (a n : Nat) (b : Bool) : (s.setBit a n b).dpy = s.dpy := rfl
@[simp] theorem State.setBit_pwr (s : State) (a n : Nat) (b : Bool) : (s.setBit a n b).pwr = s.pwr := rfl
@[simp] theorem State.setBit_fwp (s : State) (a n : Nat) (b : Bool) : (s.setBit a n b).fwp = s.fwp := rfl
@[simp] theorem State.setBit_tap (s : State) (a n : Nat) (b : Bool) : (s.setBit a n b).tap = s.tap := rfl
@[simp] theorem State.setBit_per (s : State) (a n : Nat) (b : Bool) : (s.setBit a n b).per = s.per := rfl
@[simp] theorem State.setBit_heldAcc (s : State) (a n : Nat) (b : Bool) : (s.setBit a n b).heldAcc = s.heldAcc := rfl

@[simp] theorem State.orWord_pending (s : State) (a m : Nat) : (s.orWord a m).pending = s.pending := rfl
@[simp] theorem State.orWord_mem (s : State) (a m : Nat) : (s.orWord a m).mem = s.mem := rfl
@[simp] theorem State.orWord_poison (s : State) (a m : Nat) : (s.orWord a m).poison = s.poison := rfl
@[simp] theorem State.orWord_resp (s : State) (a m : Nat) : (s.orWord a m).resp = s.resp := rfl
@[simp] theorem State.orWord_holds (s : State) (a m : Nat) : (s.orWord a m).holds = s.holds := rfl
@[simp] theorem State.orWord_caps (s : State) (a m : Nat) : (s.orWord a m).caps = s.caps := rfl
@[simp] theorem State.orWord_out (s : State) (a m : Nat) : (s.orWord a m).out = s.out := rfl
@[simp] theorem State.orWord_now (s : State) (a m : Nat) : (s.orWord a m).now = s.now := rfl
@[simp] theorem State.orWord_free (s : State) (a m : Nat) : (s.orWord a m).free = s.free := rfl
@[simp] theorem State.orWord_flt (s : State) (a m : Nat) : (s.orWord a m).flt = s.flt := rfl
@[simp] theorem State.orWord_twn (s : State) (a m : Nat) : (s.orWord a m).twn = s.twn := rfl
@[simp] theorem State.orWord_awl (s : State) (a m : Nat) : (s.orWord a m).awl = s.awl := rfl
@[simp] theorem State.orWord_eth (s : State) (a m : Nat) : (s.orWord a m).eth = s.eth := rfl
@[simp] theorem State.orWord_ptp (s : State) (a m : Nat) : (s.orWord a m).ptp = s.ptp := rfl
@[simp] theorem State.orWord_can (s : State) (a m : Nat) : (s.orWord a m).can = s.can := rfl
@[simp] theorem State.orWord_wpe (s : State) (a m : Nat) : (s.orWord a m).wpe = s.wpe := rfl
@[simp] theorem State.orWord_mc (s : State) (a m : Nat) : (s.orWord a m).mc = s.mc := rfl
@[simp] theorem State.orWord_phx (s : State) (a m : Nat) : (s.orWord a m).phx = s.phx := rfl
@[simp] theorem State.orWord_sfe (s : State) (a m : Nat) : (s.orWord a m).sfe = s.sfe := rfl
@[simp] theorem State.orWord_cel (s : State) (a m : Nat) : (s.orWord a m).cel = s.cel := rfl
@[simp] theorem State.orWord_fab (s : State) (a m : Nat) : (s.orWord a m).fab = s.fab := rfl
@[simp] theorem State.orWord_atu (s : State) (a m : Nat) : (s.orWord a m).atu = s.atu := rfl
@[simp] theorem State.orWord_hqm (s : State) (a m : Nat) : (s.orWord a m).hqm = s.hqm := rfl
@[simp] theorem State.orWord_pci (s : State) (a m : Nat) : (s.orWord a m).pci = s.pci := rfl
@[simp] theorem State.orWord_clc (s : State) (a m : Nat) : (s.orWord a m).clc = s.clc := rfl
@[simp] theorem State.orWord_mhs (s : State) (a m : Nat) : (s.orWord a m).mhs = s.mhs := rfl
@[simp] theorem State.orWord_sec (s : State) (a m : Nat) : (s.orWord a m).sec = s.sec := rfl
@[simp] theorem State.orWord_ras (s : State) (a m : Nat) : (s.orWord a m).ras = s.ras := rfl
@[simp] theorem State.orWord_dpy (s : State) (a m : Nat) : (s.orWord a m).dpy = s.dpy := rfl
@[simp] theorem State.orWord_pwr (s : State) (a m : Nat) : (s.orWord a m).pwr = s.pwr := rfl
@[simp] theorem State.orWord_fwp (s : State) (a m : Nat) : (s.orWord a m).fwp = s.fwp := rfl
@[simp] theorem State.orWord_tap (s : State) (a m : Nat) : (s.orWord a m).tap = s.tap := rfl
@[simp] theorem State.orWord_per (s : State) (a m : Nat) : (s.orWord a m).per = s.per := rfl
@[simp] theorem State.orWord_heldAcc (s : State) (a m : Nat) : (s.orWord a m).heldAcc = s.heldAcc := rfl

@[simp] theorem State.setWord64_pending (s : State) (a v : Nat) : (s.setWord64 a v).pending = s.pending := rfl
@[simp] theorem State.setWord64_mem (s : State) (a v : Nat) : (s.setWord64 a v).mem = s.mem := rfl
@[simp] theorem State.setWord64_poison (s : State) (a v : Nat) : (s.setWord64 a v).poison = s.poison := rfl
@[simp] theorem State.setWord64_resp (s : State) (a v : Nat) : (s.setWord64 a v).resp = s.resp := rfl
@[simp] theorem State.setWord64_holds (s : State) (a v : Nat) : (s.setWord64 a v).holds = s.holds := rfl
@[simp] theorem State.setWord64_caps (s : State) (a v : Nat) : (s.setWord64 a v).caps = s.caps := rfl
@[simp] theorem State.setWord64_out (s : State) (a v : Nat) : (s.setWord64 a v).out = s.out := rfl
@[simp] theorem State.setWord64_now (s : State) (a v : Nat) : (s.setWord64 a v).now = s.now := rfl
@[simp] theorem State.setWord64_free (s : State) (a v : Nat) : (s.setWord64 a v).free = s.free := rfl
@[simp] theorem State.setWord64_flt (s : State) (a v : Nat) : (s.setWord64 a v).flt = s.flt := rfl
@[simp] theorem State.setWord64_twn (s : State) (a v : Nat) : (s.setWord64 a v).twn = s.twn := rfl
@[simp] theorem State.setWord64_awl (s : State) (a v : Nat) : (s.setWord64 a v).awl = s.awl := rfl
@[simp] theorem State.setWord64_eth (s : State) (a v : Nat) : (s.setWord64 a v).eth = s.eth := rfl
@[simp] theorem State.setWord64_ptp (s : State) (a v : Nat) : (s.setWord64 a v).ptp = s.ptp := rfl
@[simp] theorem State.setWord64_can (s : State) (a v : Nat) : (s.setWord64 a v).can = s.can := rfl
@[simp] theorem State.setWord64_wpe (s : State) (a v : Nat) : (s.setWord64 a v).wpe = s.wpe := rfl
@[simp] theorem State.setWord64_mc (s : State) (a v : Nat) : (s.setWord64 a v).mc = s.mc := rfl
@[simp] theorem State.setWord64_phx (s : State) (a v : Nat) : (s.setWord64 a v).phx = s.phx := rfl
@[simp] theorem State.setWord64_sfe (s : State) (a v : Nat) : (s.setWord64 a v).sfe = s.sfe := rfl
@[simp] theorem State.setWord64_cel (s : State) (a v : Nat) : (s.setWord64 a v).cel = s.cel := rfl
@[simp] theorem State.setWord64_fab (s : State) (a v : Nat) : (s.setWord64 a v).fab = s.fab := rfl
@[simp] theorem State.setWord64_atu (s : State) (a v : Nat) : (s.setWord64 a v).atu = s.atu := rfl
@[simp] theorem State.setWord64_hqm (s : State) (a v : Nat) : (s.setWord64 a v).hqm = s.hqm := rfl
@[simp] theorem State.setWord64_pci (s : State) (a v : Nat) : (s.setWord64 a v).pci = s.pci := rfl
@[simp] theorem State.setWord64_clc (s : State) (a v : Nat) : (s.setWord64 a v).clc = s.clc := rfl
@[simp] theorem State.setWord64_mhs (s : State) (a v : Nat) : (s.setWord64 a v).mhs = s.mhs := rfl
@[simp] theorem State.setWord64_sec (s : State) (a v : Nat) : (s.setWord64 a v).sec = s.sec := rfl
@[simp] theorem State.setWord64_ras (s : State) (a v : Nat) : (s.setWord64 a v).ras = s.ras := rfl
@[simp] theorem State.setWord64_dpy (s : State) (a v : Nat) : (s.setWord64 a v).dpy = s.dpy := rfl
@[simp] theorem State.setWord64_pwr (s : State) (a v : Nat) : (s.setWord64 a v).pwr = s.pwr := rfl
@[simp] theorem State.setWord64_fwp (s : State) (a v : Nat) : (s.setWord64 a v).fwp = s.fwp := rfl
@[simp] theorem State.setWord64_tap (s : State) (a v : Nat) : (s.setWord64 a v).tap = s.tap := rfl
@[simp] theorem State.setWord64_per (s : State) (a v : Nat) : (s.setWord64 a v).per = s.per := rfl
@[simp] theorem State.setWord64_heldAcc (s : State) (a v : Nat) : (s.setWord64 a v).heldAcc = s.heldAcc := rfl

@[simp] theorem State.bumpBy_pending (s : State) (a n : Nat) : (s.bumpBy a n).pending = s.pending := rfl
@[simp] theorem State.bumpBy_mem (s : State) (a n : Nat) : (s.bumpBy a n).mem = s.mem := rfl
@[simp] theorem State.bumpBy_poison (s : State) (a n : Nat) : (s.bumpBy a n).poison = s.poison := rfl
@[simp] theorem State.bumpBy_resp (s : State) (a n : Nat) : (s.bumpBy a n).resp = s.resp := rfl
@[simp] theorem State.bumpBy_holds (s : State) (a n : Nat) : (s.bumpBy a n).holds = s.holds := rfl
@[simp] theorem State.bumpBy_caps (s : State) (a n : Nat) : (s.bumpBy a n).caps = s.caps := rfl
@[simp] theorem State.bumpBy_out (s : State) (a n : Nat) : (s.bumpBy a n).out = s.out := rfl
@[simp] theorem State.bumpBy_now (s : State) (a n : Nat) : (s.bumpBy a n).now = s.now := rfl
@[simp] theorem State.bumpBy_free (s : State) (a n : Nat) : (s.bumpBy a n).free = s.free := rfl
@[simp] theorem State.bumpBy_flt (s : State) (a n : Nat) : (s.bumpBy a n).flt = s.flt := rfl
@[simp] theorem State.bumpBy_twn (s : State) (a n : Nat) : (s.bumpBy a n).twn = s.twn := rfl
@[simp] theorem State.bumpBy_awl (s : State) (a n : Nat) : (s.bumpBy a n).awl = s.awl := rfl
@[simp] theorem State.bumpBy_eth (s : State) (a n : Nat) : (s.bumpBy a n).eth = s.eth := rfl
@[simp] theorem State.bumpBy_ptp (s : State) (a n : Nat) : (s.bumpBy a n).ptp = s.ptp := rfl
@[simp] theorem State.bumpBy_can (s : State) (a n : Nat) : (s.bumpBy a n).can = s.can := rfl
@[simp] theorem State.bumpBy_wpe (s : State) (a n : Nat) : (s.bumpBy a n).wpe = s.wpe := rfl
@[simp] theorem State.bumpBy_mc (s : State) (a n : Nat) : (s.bumpBy a n).mc = s.mc := rfl
@[simp] theorem State.bumpBy_phx (s : State) (a n : Nat) : (s.bumpBy a n).phx = s.phx := rfl
@[simp] theorem State.bumpBy_sfe (s : State) (a n : Nat) : (s.bumpBy a n).sfe = s.sfe := rfl
@[simp] theorem State.bumpBy_cel (s : State) (a n : Nat) : (s.bumpBy a n).cel = s.cel := rfl
@[simp] theorem State.bumpBy_fab (s : State) (a n : Nat) : (s.bumpBy a n).fab = s.fab := rfl
@[simp] theorem State.bumpBy_atu (s : State) (a n : Nat) : (s.bumpBy a n).atu = s.atu := rfl
@[simp] theorem State.bumpBy_hqm (s : State) (a n : Nat) : (s.bumpBy a n).hqm = s.hqm := rfl
@[simp] theorem State.bumpBy_pci (s : State) (a n : Nat) : (s.bumpBy a n).pci = s.pci := rfl
@[simp] theorem State.bumpBy_clc (s : State) (a n : Nat) : (s.bumpBy a n).clc = s.clc := rfl
@[simp] theorem State.bumpBy_mhs (s : State) (a n : Nat) : (s.bumpBy a n).mhs = s.mhs := rfl
@[simp] theorem State.bumpBy_sec (s : State) (a n : Nat) : (s.bumpBy a n).sec = s.sec := rfl
@[simp] theorem State.bumpBy_ras (s : State) (a n : Nat) : (s.bumpBy a n).ras = s.ras := rfl
@[simp] theorem State.bumpBy_dpy (s : State) (a n : Nat) : (s.bumpBy a n).dpy = s.dpy := rfl
@[simp] theorem State.bumpBy_pwr (s : State) (a n : Nat) : (s.bumpBy a n).pwr = s.pwr := rfl
@[simp] theorem State.bumpBy_fwp (s : State) (a n : Nat) : (s.bumpBy a n).fwp = s.fwp := rfl
@[simp] theorem State.bumpBy_tap (s : State) (a n : Nat) : (s.bumpBy a n).tap = s.tap := rfl
@[simp] theorem State.bumpBy_per (s : State) (a n : Nat) : (s.bumpBy a n).per = s.per := rfl
@[simp] theorem State.bumpBy_heldAcc (s : State) (a n : Nat) : (s.bumpBy a n).heldAcc = s.heldAcc := rfl

@[simp] theorem State.bump_pending (s : State) (a : Nat) : (s.bump a).pending = s.pending := rfl
@[simp] theorem State.bump_mem (s : State) (a : Nat) : (s.bump a).mem = s.mem := rfl
@[simp] theorem State.bump_poison (s : State) (a : Nat) : (s.bump a).poison = s.poison := rfl
@[simp] theorem State.bump_resp (s : State) (a : Nat) : (s.bump a).resp = s.resp := rfl
@[simp] theorem State.bump_holds (s : State) (a : Nat) : (s.bump a).holds = s.holds := rfl
@[simp] theorem State.bump_caps (s : State) (a : Nat) : (s.bump a).caps = s.caps := rfl
@[simp] theorem State.bump_out (s : State) (a : Nat) : (s.bump a).out = s.out := rfl
@[simp] theorem State.bump_now (s : State) (a : Nat) : (s.bump a).now = s.now := rfl
@[simp] theorem State.bump_free (s : State) (a : Nat) : (s.bump a).free = s.free := rfl
@[simp] theorem State.bump_flt (s : State) (a : Nat) : (s.bump a).flt = s.flt := rfl
@[simp] theorem State.bump_twn (s : State) (a : Nat) : (s.bump a).twn = s.twn := rfl
@[simp] theorem State.bump_awl (s : State) (a : Nat) : (s.bump a).awl = s.awl := rfl
@[simp] theorem State.bump_eth (s : State) (a : Nat) : (s.bump a).eth = s.eth := rfl
@[simp] theorem State.bump_ptp (s : State) (a : Nat) : (s.bump a).ptp = s.ptp := rfl
@[simp] theorem State.bump_can (s : State) (a : Nat) : (s.bump a).can = s.can := rfl
@[simp] theorem State.bump_wpe (s : State) (a : Nat) : (s.bump a).wpe = s.wpe := rfl
@[simp] theorem State.bump_mc (s : State) (a : Nat) : (s.bump a).mc = s.mc := rfl
@[simp] theorem State.bump_phx (s : State) (a : Nat) : (s.bump a).phx = s.phx := rfl
@[simp] theorem State.bump_sfe (s : State) (a : Nat) : (s.bump a).sfe = s.sfe := rfl
@[simp] theorem State.bump_cel (s : State) (a : Nat) : (s.bump a).cel = s.cel := rfl
@[simp] theorem State.bump_fab (s : State) (a : Nat) : (s.bump a).fab = s.fab := rfl
@[simp] theorem State.bump_atu (s : State) (a : Nat) : (s.bump a).atu = s.atu := rfl
@[simp] theorem State.bump_hqm (s : State) (a : Nat) : (s.bump a).hqm = s.hqm := rfl
@[simp] theorem State.bump_pci (s : State) (a : Nat) : (s.bump a).pci = s.pci := rfl
@[simp] theorem State.bump_clc (s : State) (a : Nat) : (s.bump a).clc = s.clc := rfl
@[simp] theorem State.bump_mhs (s : State) (a : Nat) : (s.bump a).mhs = s.mhs := rfl
@[simp] theorem State.bump_sec (s : State) (a : Nat) : (s.bump a).sec = s.sec := rfl
@[simp] theorem State.bump_ras (s : State) (a : Nat) : (s.bump a).ras = s.ras := rfl
@[simp] theorem State.bump_dpy (s : State) (a : Nat) : (s.bump a).dpy = s.dpy := rfl
@[simp] theorem State.bump_pwr (s : State) (a : Nat) : (s.bump a).pwr = s.pwr := rfl
@[simp] theorem State.bump_fwp (s : State) (a : Nat) : (s.bump a).fwp = s.fwp := rfl
@[simp] theorem State.bump_tap (s : State) (a : Nat) : (s.bump a).tap = s.tap := rfl
@[simp] theorem State.bump_per (s : State) (a : Nat) : (s.bump a).per = s.per := rfl
@[simp] theorem State.bump_heldAcc (s : State) (a : Nat) : (s.bump a).heldAcc = s.heldAcc := rfl

@[simp] theorem State.bumpSat_pending (s : State) (a hi lo : Nat) : (s.bumpSat a hi lo).pending = s.pending := rfl
@[simp] theorem State.bumpSat_mem (s : State) (a hi lo : Nat) : (s.bumpSat a hi lo).mem = s.mem := rfl
@[simp] theorem State.bumpSat_poison (s : State) (a hi lo : Nat) : (s.bumpSat a hi lo).poison = s.poison := rfl
@[simp] theorem State.bumpSat_resp (s : State) (a hi lo : Nat) : (s.bumpSat a hi lo).resp = s.resp := rfl
@[simp] theorem State.bumpSat_holds (s : State) (a hi lo : Nat) : (s.bumpSat a hi lo).holds = s.holds := rfl
@[simp] theorem State.bumpSat_caps (s : State) (a hi lo : Nat) : (s.bumpSat a hi lo).caps = s.caps := rfl
@[simp] theorem State.bumpSat_out (s : State) (a hi lo : Nat) : (s.bumpSat a hi lo).out = s.out := rfl
@[simp] theorem State.bumpSat_now (s : State) (a hi lo : Nat) : (s.bumpSat a hi lo).now = s.now := rfl
@[simp] theorem State.bumpSat_free (s : State) (a hi lo : Nat) : (s.bumpSat a hi lo).free = s.free := rfl
@[simp] theorem State.bumpSat_flt (s : State) (a hi lo : Nat) : (s.bumpSat a hi lo).flt = s.flt := rfl
@[simp] theorem State.bumpSat_twn (s : State) (a hi lo : Nat) : (s.bumpSat a hi lo).twn = s.twn := rfl
@[simp] theorem State.bumpSat_awl (s : State) (a hi lo : Nat) : (s.bumpSat a hi lo).awl = s.awl := rfl
@[simp] theorem State.bumpSat_eth (s : State) (a hi lo : Nat) : (s.bumpSat a hi lo).eth = s.eth := rfl
@[simp] theorem State.bumpSat_ptp (s : State) (a hi lo : Nat) : (s.bumpSat a hi lo).ptp = s.ptp := rfl
@[simp] theorem State.bumpSat_can (s : State) (a hi lo : Nat) : (s.bumpSat a hi lo).can = s.can := rfl
@[simp] theorem State.bumpSat_wpe (s : State) (a hi lo : Nat) : (s.bumpSat a hi lo).wpe = s.wpe := rfl
@[simp] theorem State.bumpSat_mc (s : State) (a hi lo : Nat) : (s.bumpSat a hi lo).mc = s.mc := rfl
@[simp] theorem State.bumpSat_phx (s : State) (a hi lo : Nat) : (s.bumpSat a hi lo).phx = s.phx := rfl
@[simp] theorem State.bumpSat_sfe (s : State) (a hi lo : Nat) : (s.bumpSat a hi lo).sfe = s.sfe := rfl
@[simp] theorem State.bumpSat_cel (s : State) (a hi lo : Nat) : (s.bumpSat a hi lo).cel = s.cel := rfl
@[simp] theorem State.bumpSat_fab (s : State) (a hi lo : Nat) : (s.bumpSat a hi lo).fab = s.fab := rfl
@[simp] theorem State.bumpSat_atu (s : State) (a hi lo : Nat) : (s.bumpSat a hi lo).atu = s.atu := rfl
@[simp] theorem State.bumpSat_hqm (s : State) (a hi lo : Nat) : (s.bumpSat a hi lo).hqm = s.hqm := rfl
@[simp] theorem State.bumpSat_pci (s : State) (a hi lo : Nat) : (s.bumpSat a hi lo).pci = s.pci := rfl
@[simp] theorem State.bumpSat_clc (s : State) (a hi lo : Nat) : (s.bumpSat a hi lo).clc = s.clc := rfl
@[simp] theorem State.bumpSat_mhs (s : State) (a hi lo : Nat) : (s.bumpSat a hi lo).mhs = s.mhs := rfl
@[simp] theorem State.bumpSat_sec (s : State) (a hi lo : Nat) : (s.bumpSat a hi lo).sec = s.sec := rfl
@[simp] theorem State.bumpSat_ras (s : State) (a hi lo : Nat) : (s.bumpSat a hi lo).ras = s.ras := rfl
@[simp] theorem State.bumpSat_dpy (s : State) (a hi lo : Nat) : (s.bumpSat a hi lo).dpy = s.dpy := rfl
@[simp] theorem State.bumpSat_pwr (s : State) (a hi lo : Nat) : (s.bumpSat a hi lo).pwr = s.pwr := rfl
@[simp] theorem State.bumpSat_fwp (s : State) (a hi lo : Nat) : (s.bumpSat a hi lo).fwp = s.fwp := rfl
@[simp] theorem State.bumpSat_tap (s : State) (a hi lo : Nat) : (s.bumpSat a hi lo).tap = s.tap := rfl
@[simp] theorem State.bumpSat_per (s : State) (a hi lo : Nat) : (s.bumpSat a hi lo).per = s.per := rfl
@[simp] theorem State.bumpSat_heldAcc (s : State) (a hi lo : Nat) : (s.bumpSat a hi lo).heldAcc = s.heldAcc := rfl

@[simp] theorem State.resetRegs_pending (s : State) (a b : Nat) : (s.resetRegs a b).pending = s.pending := rfl
@[simp] theorem State.resetRegs_mem (s : State) (a b : Nat) : (s.resetRegs a b).mem = s.mem := rfl
@[simp] theorem State.resetRegs_poison (s : State) (a b : Nat) : (s.resetRegs a b).poison = s.poison := rfl
@[simp] theorem State.resetRegs_resp (s : State) (a b : Nat) : (s.resetRegs a b).resp = s.resp := rfl
@[simp] theorem State.resetRegs_holds (s : State) (a b : Nat) : (s.resetRegs a b).holds = s.holds := rfl
@[simp] theorem State.resetRegs_caps (s : State) (a b : Nat) : (s.resetRegs a b).caps = s.caps := rfl
@[simp] theorem State.resetRegs_out (s : State) (a b : Nat) : (s.resetRegs a b).out = s.out := rfl
@[simp] theorem State.resetRegs_now (s : State) (a b : Nat) : (s.resetRegs a b).now = s.now := rfl
@[simp] theorem State.resetRegs_free (s : State) (a b : Nat) : (s.resetRegs a b).free = s.free := rfl
@[simp] theorem State.resetRegs_flt (s : State) (a b : Nat) : (s.resetRegs a b).flt = s.flt := rfl
@[simp] theorem State.resetRegs_twn (s : State) (a b : Nat) : (s.resetRegs a b).twn = s.twn := rfl
@[simp] theorem State.resetRegs_awl (s : State) (a b : Nat) : (s.resetRegs a b).awl = s.awl := rfl
@[simp] theorem State.resetRegs_eth (s : State) (a b : Nat) : (s.resetRegs a b).eth = s.eth := rfl
@[simp] theorem State.resetRegs_ptp (s : State) (a b : Nat) : (s.resetRegs a b).ptp = s.ptp := rfl
@[simp] theorem State.resetRegs_can (s : State) (a b : Nat) : (s.resetRegs a b).can = s.can := rfl
@[simp] theorem State.resetRegs_wpe (s : State) (a b : Nat) : (s.resetRegs a b).wpe = s.wpe := rfl
@[simp] theorem State.resetRegs_mc (s : State) (a b : Nat) : (s.resetRegs a b).mc = s.mc := rfl
@[simp] theorem State.resetRegs_phx (s : State) (a b : Nat) : (s.resetRegs a b).phx = s.phx := rfl
@[simp] theorem State.resetRegs_sfe (s : State) (a b : Nat) : (s.resetRegs a b).sfe = s.sfe := rfl
@[simp] theorem State.resetRegs_cel (s : State) (a b : Nat) : (s.resetRegs a b).cel = s.cel := rfl
@[simp] theorem State.resetRegs_fab (s : State) (a b : Nat) : (s.resetRegs a b).fab = s.fab := rfl
@[simp] theorem State.resetRegs_atu (s : State) (a b : Nat) : (s.resetRegs a b).atu = s.atu := rfl
@[simp] theorem State.resetRegs_hqm (s : State) (a b : Nat) : (s.resetRegs a b).hqm = s.hqm := rfl
@[simp] theorem State.resetRegs_pci (s : State) (a b : Nat) : (s.resetRegs a b).pci = s.pci := rfl
@[simp] theorem State.resetRegs_clc (s : State) (a b : Nat) : (s.resetRegs a b).clc = s.clc := rfl
@[simp] theorem State.resetRegs_mhs (s : State) (a b : Nat) : (s.resetRegs a b).mhs = s.mhs := rfl
@[simp] theorem State.resetRegs_sec (s : State) (a b : Nat) : (s.resetRegs a b).sec = s.sec := rfl
@[simp] theorem State.resetRegs_ras (s : State) (a b : Nat) : (s.resetRegs a b).ras = s.ras := rfl
@[simp] theorem State.resetRegs_dpy (s : State) (a b : Nat) : (s.resetRegs a b).dpy = s.dpy := rfl
@[simp] theorem State.resetRegs_pwr (s : State) (a b : Nat) : (s.resetRegs a b).pwr = s.pwr := rfl
@[simp] theorem State.resetRegs_fwp (s : State) (a b : Nat) : (s.resetRegs a b).fwp = s.fwp := rfl
@[simp] theorem State.resetRegs_tap (s : State) (a b : Nat) : (s.resetRegs a b).tap = s.tap := rfl
@[simp] theorem State.resetRegs_per (s : State) (a b : Nat) : (s.resetRegs a b).per = s.per := rfl
@[simp] theorem State.resetRegs_heldAcc (s : State) (a b : Nat) : (s.resetRegs a b).heldAcc = s.heldAcc := rfl

@[simp] theorem State.resetBlock_pending (s : State) (k : Nat) : (s.resetBlock k).pending = s.pending := rfl
@[simp] theorem State.resetBlock_mem (s : State) (k : Nat) : (s.resetBlock k).mem = s.mem := rfl
@[simp] theorem State.resetBlock_poison (s : State) (k : Nat) : (s.resetBlock k).poison = s.poison := rfl
@[simp] theorem State.resetBlock_resp (s : State) (k : Nat) : (s.resetBlock k).resp = s.resp := rfl
@[simp] theorem State.resetBlock_holds (s : State) (k : Nat) : (s.resetBlock k).holds = s.holds := rfl
@[simp] theorem State.resetBlock_caps (s : State) (k : Nat) : (s.resetBlock k).caps = s.caps := rfl
@[simp] theorem State.resetBlock_out (s : State) (k : Nat) : (s.resetBlock k).out = s.out := rfl
@[simp] theorem State.resetBlock_now (s : State) (k : Nat) : (s.resetBlock k).now = s.now := rfl
@[simp] theorem State.resetBlock_free (s : State) (k : Nat) : (s.resetBlock k).free = s.free := rfl
@[simp] theorem State.resetBlock_flt (s : State) (k : Nat) : (s.resetBlock k).flt = s.flt := rfl
@[simp] theorem State.resetBlock_twn (s : State) (k : Nat) : (s.resetBlock k).twn = s.twn := rfl
@[simp] theorem State.resetBlock_awl (s : State) (k : Nat) : (s.resetBlock k).awl = s.awl := rfl
@[simp] theorem State.resetBlock_eth (s : State) (k : Nat) : (s.resetBlock k).eth = s.eth := rfl
@[simp] theorem State.resetBlock_ptp (s : State) (k : Nat) : (s.resetBlock k).ptp = s.ptp := rfl
@[simp] theorem State.resetBlock_can (s : State) (k : Nat) : (s.resetBlock k).can = s.can := rfl
@[simp] theorem State.resetBlock_wpe (s : State) (k : Nat) : (s.resetBlock k).wpe = s.wpe := rfl
@[simp] theorem State.resetBlock_mc (s : State) (k : Nat) : (s.resetBlock k).mc = s.mc := rfl
@[simp] theorem State.resetBlock_phx (s : State) (k : Nat) : (s.resetBlock k).phx = s.phx := rfl
@[simp] theorem State.resetBlock_sfe (s : State) (k : Nat) : (s.resetBlock k).sfe = s.sfe := rfl
@[simp] theorem State.resetBlock_cel (s : State) (k : Nat) : (s.resetBlock k).cel = s.cel := rfl
@[simp] theorem State.resetBlock_fab (s : State) (k : Nat) : (s.resetBlock k).fab = s.fab := rfl
@[simp] theorem State.resetBlock_atu (s : State) (k : Nat) : (s.resetBlock k).atu = s.atu := rfl
@[simp] theorem State.resetBlock_hqm (s : State) (k : Nat) : (s.resetBlock k).hqm = s.hqm := rfl
@[simp] theorem State.resetBlock_pci (s : State) (k : Nat) : (s.resetBlock k).pci = s.pci := rfl
@[simp] theorem State.resetBlock_clc (s : State) (k : Nat) : (s.resetBlock k).clc = s.clc := rfl
@[simp] theorem State.resetBlock_mhs (s : State) (k : Nat) : (s.resetBlock k).mhs = s.mhs := rfl
@[simp] theorem State.resetBlock_sec (s : State) (k : Nat) : (s.resetBlock k).sec = s.sec := rfl
@[simp] theorem State.resetBlock_ras (s : State) (k : Nat) : (s.resetBlock k).ras = s.ras := rfl
@[simp] theorem State.resetBlock_dpy (s : State) (k : Nat) : (s.resetBlock k).dpy = s.dpy := rfl
@[simp] theorem State.resetBlock_pwr (s : State) (k : Nat) : (s.resetBlock k).pwr = s.pwr := rfl
@[simp] theorem State.resetBlock_fwp (s : State) (k : Nat) : (s.resetBlock k).fwp = s.fwp := rfl
@[simp] theorem State.resetBlock_tap (s : State) (k : Nat) : (s.resetBlock k).tap = s.tap := rfl
@[simp] theorem State.resetBlock_per (s : State) (k : Nat) : (s.resetBlock k).per = s.per := rfl
@[simp] theorem State.resetBlock_heldAcc (s : State) (k : Nat) : (s.resetBlock k).heldAcc = s.heldAcc := rfl

@[simp] theorem State.store_pending (s : State) (a : Nat) (l : List Byte) : (s.store a l).pending = s.pending := rfl
@[simp] theorem State.store_regs (s : State) (a : Nat) (l : List Byte) : (s.store a l).regs = s.regs := rfl
@[simp] theorem State.store_resp (s : State) (a : Nat) (l : List Byte) : (s.store a l).resp = s.resp := rfl
@[simp] theorem State.store_holds (s : State) (a : Nat) (l : List Byte) : (s.store a l).holds = s.holds := rfl
@[simp] theorem State.store_caps (s : State) (a : Nat) (l : List Byte) : (s.store a l).caps = s.caps := rfl
@[simp] theorem State.store_out (s : State) (a : Nat) (l : List Byte) : (s.store a l).out = s.out := rfl
@[simp] theorem State.store_now (s : State) (a : Nat) (l : List Byte) : (s.store a l).now = s.now := rfl
@[simp] theorem State.store_free (s : State) (a : Nat) (l : List Byte) : (s.store a l).free = s.free := rfl
@[simp] theorem State.store_flt (s : State) (a : Nat) (l : List Byte) : (s.store a l).flt = s.flt := rfl
@[simp] theorem State.store_twn (s : State) (a : Nat) (l : List Byte) : (s.store a l).twn = s.twn := rfl
@[simp] theorem State.store_awl (s : State) (a : Nat) (l : List Byte) : (s.store a l).awl = s.awl := rfl
@[simp] theorem State.store_eth (s : State) (a : Nat) (l : List Byte) : (s.store a l).eth = s.eth := rfl
@[simp] theorem State.store_ptp (s : State) (a : Nat) (l : List Byte) : (s.store a l).ptp = s.ptp := rfl
@[simp] theorem State.store_can (s : State) (a : Nat) (l : List Byte) : (s.store a l).can = s.can := rfl
@[simp] theorem State.store_wpe (s : State) (a : Nat) (l : List Byte) : (s.store a l).wpe = s.wpe := rfl
@[simp] theorem State.store_mc (s : State) (a : Nat) (l : List Byte) : (s.store a l).mc = s.mc := rfl
@[simp] theorem State.store_phx (s : State) (a : Nat) (l : List Byte) : (s.store a l).phx = s.phx := rfl
@[simp] theorem State.store_sfe (s : State) (a : Nat) (l : List Byte) : (s.store a l).sfe = s.sfe := rfl
@[simp] theorem State.store_cel (s : State) (a : Nat) (l : List Byte) : (s.store a l).cel = s.cel := rfl
@[simp] theorem State.store_fab (s : State) (a : Nat) (l : List Byte) : (s.store a l).fab = s.fab := rfl
@[simp] theorem State.store_atu (s : State) (a : Nat) (l : List Byte) : (s.store a l).atu = s.atu := rfl
@[simp] theorem State.store_hqm (s : State) (a : Nat) (l : List Byte) : (s.store a l).hqm = s.hqm := rfl
@[simp] theorem State.store_pci (s : State) (a : Nat) (l : List Byte) : (s.store a l).pci = s.pci := rfl
@[simp] theorem State.store_clc (s : State) (a : Nat) (l : List Byte) : (s.store a l).clc = s.clc := rfl
@[simp] theorem State.store_mhs (s : State) (a : Nat) (l : List Byte) : (s.store a l).mhs = s.mhs := rfl
@[simp] theorem State.store_sec (s : State) (a : Nat) (l : List Byte) : (s.store a l).sec = s.sec := rfl
@[simp] theorem State.store_ras (s : State) (a : Nat) (l : List Byte) : (s.store a l).ras = s.ras := rfl
@[simp] theorem State.store_dpy (s : State) (a : Nat) (l : List Byte) : (s.store a l).dpy = s.dpy := rfl
@[simp] theorem State.store_pwr (s : State) (a : Nat) (l : List Byte) : (s.store a l).pwr = s.pwr := rfl
@[simp] theorem State.store_fwp (s : State) (a : Nat) (l : List Byte) : (s.store a l).fwp = s.fwp := rfl
@[simp] theorem State.store_tap (s : State) (a : Nat) (l : List Byte) : (s.store a l).tap = s.tap := rfl
@[simp] theorem State.store_per (s : State) (a : Nat) (l : List Byte) : (s.store a l).per = s.per := rfl
@[simp] theorem State.store_heldAcc (s : State) (a : Nat) (l : List Byte) : (s.store a l).heldAcc = s.heldAcc := rfl

@[simp] theorem State.storeNat_pending (s : State) (a n v : Nat) : (s.storeNat a n v).pending = s.pending := rfl
@[simp] theorem State.storeNat_regs (s : State) (a n v : Nat) : (s.storeNat a n v).regs = s.regs := rfl
@[simp] theorem State.storeNat_resp (s : State) (a n v : Nat) : (s.storeNat a n v).resp = s.resp := rfl
@[simp] theorem State.storeNat_holds (s : State) (a n v : Nat) : (s.storeNat a n v).holds = s.holds := rfl
@[simp] theorem State.storeNat_caps (s : State) (a n v : Nat) : (s.storeNat a n v).caps = s.caps := rfl
@[simp] theorem State.storeNat_out (s : State) (a n v : Nat) : (s.storeNat a n v).out = s.out := rfl
@[simp] theorem State.storeNat_now (s : State) (a n v : Nat) : (s.storeNat a n v).now = s.now := rfl
@[simp] theorem State.storeNat_free (s : State) (a n v : Nat) : (s.storeNat a n v).free = s.free := rfl
@[simp] theorem State.storeNat_flt (s : State) (a n v : Nat) : (s.storeNat a n v).flt = s.flt := rfl
@[simp] theorem State.storeNat_twn (s : State) (a n v : Nat) : (s.storeNat a n v).twn = s.twn := rfl
@[simp] theorem State.storeNat_awl (s : State) (a n v : Nat) : (s.storeNat a n v).awl = s.awl := rfl
@[simp] theorem State.storeNat_eth (s : State) (a n v : Nat) : (s.storeNat a n v).eth = s.eth := rfl
@[simp] theorem State.storeNat_ptp (s : State) (a n v : Nat) : (s.storeNat a n v).ptp = s.ptp := rfl
@[simp] theorem State.storeNat_can (s : State) (a n v : Nat) : (s.storeNat a n v).can = s.can := rfl
@[simp] theorem State.storeNat_wpe (s : State) (a n v : Nat) : (s.storeNat a n v).wpe = s.wpe := rfl
@[simp] theorem State.storeNat_mc (s : State) (a n v : Nat) : (s.storeNat a n v).mc = s.mc := rfl
@[simp] theorem State.storeNat_phx (s : State) (a n v : Nat) : (s.storeNat a n v).phx = s.phx := rfl
@[simp] theorem State.storeNat_sfe (s : State) (a n v : Nat) : (s.storeNat a n v).sfe = s.sfe := rfl
@[simp] theorem State.storeNat_cel (s : State) (a n v : Nat) : (s.storeNat a n v).cel = s.cel := rfl
@[simp] theorem State.storeNat_fab (s : State) (a n v : Nat) : (s.storeNat a n v).fab = s.fab := rfl
@[simp] theorem State.storeNat_atu (s : State) (a n v : Nat) : (s.storeNat a n v).atu = s.atu := rfl
@[simp] theorem State.storeNat_hqm (s : State) (a n v : Nat) : (s.storeNat a n v).hqm = s.hqm := rfl
@[simp] theorem State.storeNat_pci (s : State) (a n v : Nat) : (s.storeNat a n v).pci = s.pci := rfl
@[simp] theorem State.storeNat_clc (s : State) (a n v : Nat) : (s.storeNat a n v).clc = s.clc := rfl
@[simp] theorem State.storeNat_mhs (s : State) (a n v : Nat) : (s.storeNat a n v).mhs = s.mhs := rfl
@[simp] theorem State.storeNat_sec (s : State) (a n v : Nat) : (s.storeNat a n v).sec = s.sec := rfl
@[simp] theorem State.storeNat_ras (s : State) (a n v : Nat) : (s.storeNat a n v).ras = s.ras := rfl
@[simp] theorem State.storeNat_dpy (s : State) (a n v : Nat) : (s.storeNat a n v).dpy = s.dpy := rfl
@[simp] theorem State.storeNat_pwr (s : State) (a n v : Nat) : (s.storeNat a n v).pwr = s.pwr := rfl
@[simp] theorem State.storeNat_fwp (s : State) (a n v : Nat) : (s.storeNat a n v).fwp = s.fwp := rfl
@[simp] theorem State.storeNat_tap (s : State) (a n v : Nat) : (s.storeNat a n v).tap = s.tap := rfl
@[simp] theorem State.storeNat_per (s : State) (a n v : Nat) : (s.storeNat a n v).per = s.per := rfl
@[simp] theorem State.storeNat_heldAcc (s : State) (a n v : Nat) : (s.storeNat a n v).heldAcc = s.heldAcc := rfl

@[simp] theorem State.clearMem_pending (s : State) (a b : Nat) : (s.clearMem a b).pending = s.pending := rfl
@[simp] theorem State.clearMem_regs (s : State) (a b : Nat) : (s.clearMem a b).regs = s.regs := rfl
@[simp] theorem State.clearMem_resp (s : State) (a b : Nat) : (s.clearMem a b).resp = s.resp := rfl
@[simp] theorem State.clearMem_holds (s : State) (a b : Nat) : (s.clearMem a b).holds = s.holds := rfl
@[simp] theorem State.clearMem_caps (s : State) (a b : Nat) : (s.clearMem a b).caps = s.caps := rfl
@[simp] theorem State.clearMem_out (s : State) (a b : Nat) : (s.clearMem a b).out = s.out := rfl
@[simp] theorem State.clearMem_now (s : State) (a b : Nat) : (s.clearMem a b).now = s.now := rfl
@[simp] theorem State.clearMem_free (s : State) (a b : Nat) : (s.clearMem a b).free = s.free := rfl
@[simp] theorem State.clearMem_flt (s : State) (a b : Nat) : (s.clearMem a b).flt = s.flt := rfl
@[simp] theorem State.clearMem_twn (s : State) (a b : Nat) : (s.clearMem a b).twn = s.twn := rfl
@[simp] theorem State.clearMem_awl (s : State) (a b : Nat) : (s.clearMem a b).awl = s.awl := rfl
@[simp] theorem State.clearMem_eth (s : State) (a b : Nat) : (s.clearMem a b).eth = s.eth := rfl
@[simp] theorem State.clearMem_ptp (s : State) (a b : Nat) : (s.clearMem a b).ptp = s.ptp := rfl
@[simp] theorem State.clearMem_can (s : State) (a b : Nat) : (s.clearMem a b).can = s.can := rfl
@[simp] theorem State.clearMem_wpe (s : State) (a b : Nat) : (s.clearMem a b).wpe = s.wpe := rfl
@[simp] theorem State.clearMem_mc (s : State) (a b : Nat) : (s.clearMem a b).mc = s.mc := rfl
@[simp] theorem State.clearMem_phx (s : State) (a b : Nat) : (s.clearMem a b).phx = s.phx := rfl
@[simp] theorem State.clearMem_sfe (s : State) (a b : Nat) : (s.clearMem a b).sfe = s.sfe := rfl
@[simp] theorem State.clearMem_cel (s : State) (a b : Nat) : (s.clearMem a b).cel = s.cel := rfl
@[simp] theorem State.clearMem_fab (s : State) (a b : Nat) : (s.clearMem a b).fab = s.fab := rfl
@[simp] theorem State.clearMem_atu (s : State) (a b : Nat) : (s.clearMem a b).atu = s.atu := rfl
@[simp] theorem State.clearMem_hqm (s : State) (a b : Nat) : (s.clearMem a b).hqm = s.hqm := rfl
@[simp] theorem State.clearMem_pci (s : State) (a b : Nat) : (s.clearMem a b).pci = s.pci := rfl
@[simp] theorem State.clearMem_clc (s : State) (a b : Nat) : (s.clearMem a b).clc = s.clc := rfl
@[simp] theorem State.clearMem_mhs (s : State) (a b : Nat) : (s.clearMem a b).mhs = s.mhs := rfl
@[simp] theorem State.clearMem_sec (s : State) (a b : Nat) : (s.clearMem a b).sec = s.sec := rfl
@[simp] theorem State.clearMem_ras (s : State) (a b : Nat) : (s.clearMem a b).ras = s.ras := rfl
@[simp] theorem State.clearMem_dpy (s : State) (a b : Nat) : (s.clearMem a b).dpy = s.dpy := rfl
@[simp] theorem State.clearMem_pwr (s : State) (a b : Nat) : (s.clearMem a b).pwr = s.pwr := rfl
@[simp] theorem State.clearMem_fwp (s : State) (a b : Nat) : (s.clearMem a b).fwp = s.fwp := rfl
@[simp] theorem State.clearMem_tap (s : State) (a b : Nat) : (s.clearMem a b).tap = s.tap := rfl
@[simp] theorem State.clearMem_per (s : State) (a b : Nat) : (s.clearMem a b).per = s.per := rfl
@[simp] theorem State.clearMem_heldAcc (s : State) (a b : Nat) : (s.clearMem a b).heldAcc = s.heldAcc := rfl

@[simp] theorem State.respOk_pending (s : State) (d : List Byte) : (s.respOk d).pending = s.pending := rfl
@[simp] theorem State.respOk_regs (s : State) (d : List Byte) : (s.respOk d).regs = s.regs := rfl
@[simp] theorem State.respOk_mem (s : State) (d : List Byte) : (s.respOk d).mem = s.mem := rfl
@[simp] theorem State.respOk_poison (s : State) (d : List Byte) : (s.respOk d).poison = s.poison := rfl
@[simp] theorem State.respOk_holds (s : State) (d : List Byte) : (s.respOk d).holds = s.holds := rfl
@[simp] theorem State.respOk_caps (s : State) (d : List Byte) : (s.respOk d).caps = s.caps := rfl
@[simp] theorem State.respOk_out (s : State) (d : List Byte) : (s.respOk d).out = s.out := rfl
@[simp] theorem State.respOk_now (s : State) (d : List Byte) : (s.respOk d).now = s.now := rfl
@[simp] theorem State.respOk_free (s : State) (d : List Byte) : (s.respOk d).free = s.free := rfl
@[simp] theorem State.respOk_flt (s : State) (d : List Byte) : (s.respOk d).flt = s.flt := rfl
@[simp] theorem State.respOk_twn (s : State) (d : List Byte) : (s.respOk d).twn = s.twn := rfl
@[simp] theorem State.respOk_awl (s : State) (d : List Byte) : (s.respOk d).awl = s.awl := rfl
@[simp] theorem State.respOk_eth (s : State) (d : List Byte) : (s.respOk d).eth = s.eth := rfl
@[simp] theorem State.respOk_ptp (s : State) (d : List Byte) : (s.respOk d).ptp = s.ptp := rfl
@[simp] theorem State.respOk_can (s : State) (d : List Byte) : (s.respOk d).can = s.can := rfl
@[simp] theorem State.respOk_wpe (s : State) (d : List Byte) : (s.respOk d).wpe = s.wpe := rfl
@[simp] theorem State.respOk_mc (s : State) (d : List Byte) : (s.respOk d).mc = s.mc := rfl
@[simp] theorem State.respOk_phx (s : State) (d : List Byte) : (s.respOk d).phx = s.phx := rfl
@[simp] theorem State.respOk_sfe (s : State) (d : List Byte) : (s.respOk d).sfe = s.sfe := rfl
@[simp] theorem State.respOk_cel (s : State) (d : List Byte) : (s.respOk d).cel = s.cel := rfl
@[simp] theorem State.respOk_fab (s : State) (d : List Byte) : (s.respOk d).fab = s.fab := rfl
@[simp] theorem State.respOk_atu (s : State) (d : List Byte) : (s.respOk d).atu = s.atu := rfl
@[simp] theorem State.respOk_hqm (s : State) (d : List Byte) : (s.respOk d).hqm = s.hqm := rfl
@[simp] theorem State.respOk_pci (s : State) (d : List Byte) : (s.respOk d).pci = s.pci := rfl
@[simp] theorem State.respOk_clc (s : State) (d : List Byte) : (s.respOk d).clc = s.clc := rfl
@[simp] theorem State.respOk_mhs (s : State) (d : List Byte) : (s.respOk d).mhs = s.mhs := rfl
@[simp] theorem State.respOk_sec (s : State) (d : List Byte) : (s.respOk d).sec = s.sec := rfl
@[simp] theorem State.respOk_ras (s : State) (d : List Byte) : (s.respOk d).ras = s.ras := rfl
@[simp] theorem State.respOk_dpy (s : State) (d : List Byte) : (s.respOk d).dpy = s.dpy := rfl
@[simp] theorem State.respOk_pwr (s : State) (d : List Byte) : (s.respOk d).pwr = s.pwr := rfl
@[simp] theorem State.respOk_fwp (s : State) (d : List Byte) : (s.respOk d).fwp = s.fwp := rfl
@[simp] theorem State.respOk_tap (s : State) (d : List Byte) : (s.respOk d).tap = s.tap := rfl
@[simp] theorem State.respOk_per (s : State) (d : List Byte) : (s.respOk d).per = s.per := rfl
@[simp] theorem State.respOk_heldAcc (s : State) (d : List Byte) : (s.respOk d).heldAcc = s.heldAcc := rfl

@[simp] theorem State.respErr_pending (s : State) : (s.respErr).pending = s.pending := rfl
@[simp] theorem State.respErr_regs (s : State) : (s.respErr).regs = s.regs := rfl
@[simp] theorem State.respErr_mem (s : State) : (s.respErr).mem = s.mem := rfl
@[simp] theorem State.respErr_poison (s : State) : (s.respErr).poison = s.poison := rfl
@[simp] theorem State.respErr_holds (s : State) : (s.respErr).holds = s.holds := rfl
@[simp] theorem State.respErr_caps (s : State) : (s.respErr).caps = s.caps := rfl
@[simp] theorem State.respErr_out (s : State) : (s.respErr).out = s.out := rfl
@[simp] theorem State.respErr_now (s : State) : (s.respErr).now = s.now := rfl
@[simp] theorem State.respErr_free (s : State) : (s.respErr).free = s.free := rfl
@[simp] theorem State.respErr_flt (s : State) : (s.respErr).flt = s.flt := rfl
@[simp] theorem State.respErr_twn (s : State) : (s.respErr).twn = s.twn := rfl
@[simp] theorem State.respErr_awl (s : State) : (s.respErr).awl = s.awl := rfl
@[simp] theorem State.respErr_eth (s : State) : (s.respErr).eth = s.eth := rfl
@[simp] theorem State.respErr_ptp (s : State) : (s.respErr).ptp = s.ptp := rfl
@[simp] theorem State.respErr_can (s : State) : (s.respErr).can = s.can := rfl
@[simp] theorem State.respErr_wpe (s : State) : (s.respErr).wpe = s.wpe := rfl
@[simp] theorem State.respErr_mc (s : State) : (s.respErr).mc = s.mc := rfl
@[simp] theorem State.respErr_phx (s : State) : (s.respErr).phx = s.phx := rfl
@[simp] theorem State.respErr_sfe (s : State) : (s.respErr).sfe = s.sfe := rfl
@[simp] theorem State.respErr_cel (s : State) : (s.respErr).cel = s.cel := rfl
@[simp] theorem State.respErr_fab (s : State) : (s.respErr).fab = s.fab := rfl
@[simp] theorem State.respErr_atu (s : State) : (s.respErr).atu = s.atu := rfl
@[simp] theorem State.respErr_hqm (s : State) : (s.respErr).hqm = s.hqm := rfl
@[simp] theorem State.respErr_pci (s : State) : (s.respErr).pci = s.pci := rfl
@[simp] theorem State.respErr_clc (s : State) : (s.respErr).clc = s.clc := rfl
@[simp] theorem State.respErr_mhs (s : State) : (s.respErr).mhs = s.mhs := rfl
@[simp] theorem State.respErr_sec (s : State) : (s.respErr).sec = s.sec := rfl
@[simp] theorem State.respErr_ras (s : State) : (s.respErr).ras = s.ras := rfl
@[simp] theorem State.respErr_dpy (s : State) : (s.respErr).dpy = s.dpy := rfl
@[simp] theorem State.respErr_pwr (s : State) : (s.respErr).pwr = s.pwr := rfl
@[simp] theorem State.respErr_fwp (s : State) : (s.respErr).fwp = s.fwp := rfl
@[simp] theorem State.respErr_tap (s : State) : (s.respErr).tap = s.tap := rfl
@[simp] theorem State.respErr_per (s : State) : (s.respErr).per = s.per := rfl
@[simp] theorem State.respErr_heldAcc (s : State) : (s.respErr).heldAcc = s.heldAcc := rfl

@[simp] theorem State.emit_pending (s : State) (o : Output) : (s.emit o).pending = s.pending := rfl
@[simp] theorem State.emit_regs (s : State) (o : Output) : (s.emit o).regs = s.regs := rfl
@[simp] theorem State.emit_mem (s : State) (o : Output) : (s.emit o).mem = s.mem := rfl
@[simp] theorem State.emit_poison (s : State) (o : Output) : (s.emit o).poison = s.poison := rfl
@[simp] theorem State.emit_resp (s : State) (o : Output) : (s.emit o).resp = s.resp := rfl
@[simp] theorem State.emit_holds (s : State) (o : Output) : (s.emit o).holds = s.holds := rfl
@[simp] theorem State.emit_caps (s : State) (o : Output) : (s.emit o).caps = s.caps := rfl
@[simp] theorem State.emit_now (s : State) (o : Output) : (s.emit o).now = s.now := rfl
@[simp] theorem State.emit_free (s : State) (o : Output) : (s.emit o).free = s.free := rfl
@[simp] theorem State.emit_flt (s : State) (o : Output) : (s.emit o).flt = s.flt := rfl
@[simp] theorem State.emit_twn (s : State) (o : Output) : (s.emit o).twn = s.twn := rfl
@[simp] theorem State.emit_awl (s : State) (o : Output) : (s.emit o).awl = s.awl := rfl
@[simp] theorem State.emit_eth (s : State) (o : Output) : (s.emit o).eth = s.eth := rfl
@[simp] theorem State.emit_ptp (s : State) (o : Output) : (s.emit o).ptp = s.ptp := rfl
@[simp] theorem State.emit_can (s : State) (o : Output) : (s.emit o).can = s.can := rfl
@[simp] theorem State.emit_wpe (s : State) (o : Output) : (s.emit o).wpe = s.wpe := rfl
@[simp] theorem State.emit_mc (s : State) (o : Output) : (s.emit o).mc = s.mc := rfl
@[simp] theorem State.emit_phx (s : State) (o : Output) : (s.emit o).phx = s.phx := rfl
@[simp] theorem State.emit_sfe (s : State) (o : Output) : (s.emit o).sfe = s.sfe := rfl
@[simp] theorem State.emit_cel (s : State) (o : Output) : (s.emit o).cel = s.cel := rfl
@[simp] theorem State.emit_fab (s : State) (o : Output) : (s.emit o).fab = s.fab := rfl
@[simp] theorem State.emit_atu (s : State) (o : Output) : (s.emit o).atu = s.atu := rfl
@[simp] theorem State.emit_hqm (s : State) (o : Output) : (s.emit o).hqm = s.hqm := rfl
@[simp] theorem State.emit_pci (s : State) (o : Output) : (s.emit o).pci = s.pci := rfl
@[simp] theorem State.emit_clc (s : State) (o : Output) : (s.emit o).clc = s.clc := rfl
@[simp] theorem State.emit_mhs (s : State) (o : Output) : (s.emit o).mhs = s.mhs := rfl
@[simp] theorem State.emit_sec (s : State) (o : Output) : (s.emit o).sec = s.sec := rfl
@[simp] theorem State.emit_ras (s : State) (o : Output) : (s.emit o).ras = s.ras := rfl
@[simp] theorem State.emit_dpy (s : State) (o : Output) : (s.emit o).dpy = s.dpy := rfl
@[simp] theorem State.emit_pwr (s : State) (o : Output) : (s.emit o).pwr = s.pwr := rfl
@[simp] theorem State.emit_fwp (s : State) (o : Output) : (s.emit o).fwp = s.fwp := rfl
@[simp] theorem State.emit_tap (s : State) (o : Output) : (s.emit o).tap = s.tap := rfl
@[simp] theorem State.emit_per (s : State) (o : Output) : (s.emit o).per = s.per := rfl
@[simp] theorem State.emit_heldAcc (s : State) (o : Output) : (s.emit o).heldAcc = s.heldAcc := rfl

@[simp] theorem State.timeTo_pending (s : State) (a : Nat) : (s.timeTo a).pending = s.pending := rfl
@[simp] theorem State.timeTo_regs (s : State) (a : Nat) : (s.timeTo a).regs = s.regs := rfl
@[simp] theorem State.timeTo_mem (s : State) (a : Nat) : (s.timeTo a).mem = s.mem := rfl
@[simp] theorem State.timeTo_poison (s : State) (a : Nat) : (s.timeTo a).poison = s.poison := rfl
@[simp] theorem State.timeTo_resp (s : State) (a : Nat) : (s.timeTo a).resp = s.resp := rfl
@[simp] theorem State.timeTo_holds (s : State) (a : Nat) : (s.timeTo a).holds = s.holds := rfl
@[simp] theorem State.timeTo_caps (s : State) (a : Nat) : (s.timeTo a).caps = s.caps := rfl
@[simp] theorem State.timeTo_out (s : State) (a : Nat) : (s.timeTo a).out = s.out := rfl
@[simp] theorem State.timeTo_free (s : State) (a : Nat) : (s.timeTo a).free = s.free := rfl
@[simp] theorem State.timeTo_flt (s : State) (a : Nat) : (s.timeTo a).flt = s.flt := rfl
@[simp] theorem State.timeTo_twn (s : State) (a : Nat) : (s.timeTo a).twn = s.twn := rfl
@[simp] theorem State.timeTo_awl (s : State) (a : Nat) : (s.timeTo a).awl = s.awl := rfl
@[simp] theorem State.timeTo_eth (s : State) (a : Nat) : (s.timeTo a).eth = s.eth := rfl
@[simp] theorem State.timeTo_ptp (s : State) (a : Nat) : (s.timeTo a).ptp = s.ptp := rfl
@[simp] theorem State.timeTo_can (s : State) (a : Nat) : (s.timeTo a).can = s.can := rfl
@[simp] theorem State.timeTo_wpe (s : State) (a : Nat) : (s.timeTo a).wpe = s.wpe := rfl
@[simp] theorem State.timeTo_mc (s : State) (a : Nat) : (s.timeTo a).mc = s.mc := rfl
@[simp] theorem State.timeTo_phx (s : State) (a : Nat) : (s.timeTo a).phx = s.phx := rfl
@[simp] theorem State.timeTo_sfe (s : State) (a : Nat) : (s.timeTo a).sfe = s.sfe := rfl
@[simp] theorem State.timeTo_cel (s : State) (a : Nat) : (s.timeTo a).cel = s.cel := rfl
@[simp] theorem State.timeTo_fab (s : State) (a : Nat) : (s.timeTo a).fab = s.fab := rfl
@[simp] theorem State.timeTo_atu (s : State) (a : Nat) : (s.timeTo a).atu = s.atu := rfl
@[simp] theorem State.timeTo_hqm (s : State) (a : Nat) : (s.timeTo a).hqm = s.hqm := rfl
@[simp] theorem State.timeTo_pci (s : State) (a : Nat) : (s.timeTo a).pci = s.pci := rfl
@[simp] theorem State.timeTo_clc (s : State) (a : Nat) : (s.timeTo a).clc = s.clc := rfl
@[simp] theorem State.timeTo_mhs (s : State) (a : Nat) : (s.timeTo a).mhs = s.mhs := rfl
@[simp] theorem State.timeTo_sec (s : State) (a : Nat) : (s.timeTo a).sec = s.sec := rfl
@[simp] theorem State.timeTo_ras (s : State) (a : Nat) : (s.timeTo a).ras = s.ras := rfl
@[simp] theorem State.timeTo_dpy (s : State) (a : Nat) : (s.timeTo a).dpy = s.dpy := rfl
@[simp] theorem State.timeTo_pwr (s : State) (a : Nat) : (s.timeTo a).pwr = s.pwr := rfl
@[simp] theorem State.timeTo_fwp (s : State) (a : Nat) : (s.timeTo a).fwp = s.fwp := rfl
@[simp] theorem State.timeTo_tap (s : State) (a : Nat) : (s.timeTo a).tap = s.tap := rfl
@[simp] theorem State.timeTo_per (s : State) (a : Nat) : (s.timeTo a).per = s.per := rfl
@[simp] theorem State.timeTo_heldAcc (s : State) (a : Nat) : (s.timeTo a).heldAcc = s.heldAcc := rfl

@[simp] theorem State.respOk_resp (s : State) (d : List Byte) : (s.respOk d).resp = ⟨false, false, d⟩ := rfl
@[simp] theorem State.respErr_resp (s : State) : s.respErr.resp = ⟨true, false, []⟩ := rfl
@[simp] theorem State.emit_out (s : State) (o : Output) : (s.emit o).out = s.out ++ [o] := rfl

/-! Registers. -/

theorem State.canonical_iff {s : State} : s.canonical = true ↔ Memory.wf s.mem = true ∧ regsWf s.regs = true := by
  simp [State.canonical]

theorem State.word_lt (s : State) (a : Nat) : s.word a < 2 ^ 32 := (stGet regReset s.regs a).isLt

theorem State.word_congr {s t : State} (h : t.regs = s.regs) (a : Nat) : t.word a = s.word a := by
  rw [State.word, State.word, h]

@[simp] theorem State.word_setWord_same {s : State} (h : regsWf s.regs = true) (a v : Nat) : (s.setWord a v).word a = v % 2 ^ 32 := by
  rw [State.word, State.setWord, stGet_stPut_same a _ h, BitVec.toNat_ofNat]

theorem State.word_setWord_other {s : State} (h : regsWf s.regs = true) {a b : Nat} (v : Nat) (n : b ≠ a) :
    (s.setWord a v).word b = s.word b := by
  rw [State.word, State.setWord, stGet_stPut_other _ h n, State.word]

@[simp] theorem State.setWord_regsWf {s : State} (h : regsWf s.regs = true) (a v : Nat) : regsWf (s.setWord a v).regs = true :=
  stPut_wf a _ h

@[simp] theorem State.setFld_regsWf {s : State} (h : regsWf s.regs = true) (a hi lo v : Nat) :
    regsWf (s.setFld a hi lo v).regs = true := State.setWord_regsWf h _ _

@[simp] theorem State.setBit_regsWf {s : State} (h : regsWf s.regs = true) (a n : Nat) (b : Bool) :
    regsWf (s.setBit a n b).regs = true := State.setFld_regsWf h _ _ _ _

@[simp] theorem State.orWord_regsWf {s : State} (h : regsWf s.regs = true) (a m : Nat) : regsWf (s.orWord a m).regs = true :=
  State.setWord_regsWf h _ _

@[simp] theorem State.setWord64_regsWf {s : State} (h : regsWf s.regs = true) (a v : Nat) : regsWf (s.setWord64 a v).regs = true :=
  State.setWord_regsWf (State.setWord_regsWf h _ _) _ _

@[simp] theorem State.bumpBy_regsWf {s : State} (h : regsWf s.regs = true) (a n : Nat) : regsWf (s.bumpBy a n).regs = true :=
  State.setWord_regsWf h _ _

@[simp] theorem State.bump_regsWf {s : State} (h : regsWf s.regs = true) (a : Nat) : regsWf (s.bump a).regs = true :=
  State.setWord_regsWf h _ _

/-- A field written reads as what was written. -/
@[simp] theorem State.fld_setFld_same {s : State} (h : regsWf s.regs = true) {a hi lo : Nat} (v : Nat) (l : lo ≤ hi) (w : hi < 32) :
    (s.setFld a hi lo v).fld a hi lo = v % 2 ^ (hi + 1 - lo) := by
  rw [State.fld, State.setFld, State.word_setWord_same h]
  apply Nat.eq_of_testBit_eq
  intro k
  rw [testBit_bitsOf, Nat.testBit_mod_two_pow, testBit_setBitsOf _ _ _ _ _ (by omega), Nat.testBit_mod_two_pow]
  by_cases hk : k < hi + 1 - lo
  · have a1 : lo + k < 32 := by omega
    have a2 : lo ≤ lo + k ∧ lo + k ≤ hi := by omega
    simp [hk, a1, a2]
  · simp [hk]

/-- Another field of the same word, apart from the one written, reads as before. -/
theorem State.fld_setFld_apart {s : State} (h : regsWf s.regs = true) {a hi lo hi' lo' : Nat} (v : Nat) (l : lo ≤ hi)
    (w : hi' < 32) (ap : hi' < lo ∨ hi < lo') : (s.setFld a hi lo v).fld a hi' lo' = s.fld a hi' lo' := by
  rw [State.fld, State.setFld, State.word_setWord_same h, State.fld]
  apply Nat.eq_of_testBit_eq
  intro k
  rw [testBit_bitsOf, testBit_bitsOf, Nat.testBit_mod_two_pow, testBit_setBitsOf _ _ _ _ _ (by omega)]
  by_cases hk : k < hi' + 1 - lo'
  · have a1 : lo' + k < 32 := by omega
    have a2 : ¬(lo ≤ lo' + k ∧ lo' + k ≤ hi) := by omega
    simp only [hk, a1, a2, if_false, decide_true, Bool.true_and]
  · simp [hk]

theorem State.word_setFld_other {s : State} (h : regsWf s.regs = true) {a b : Nat} (hi lo v : Nat) (n : b ≠ a) :
    (s.setFld a hi lo v).word b = s.word b := State.word_setWord_other h _ n

theorem State.fld_setFld_other {s : State} (h : regsWf s.regs = true) {a b : Nat} (hi lo v hi' lo' : Nat) (n : b ≠ a) :
    (s.setFld a hi lo v).fld b hi' lo' = s.fld b hi' lo' := by
  rw [State.fld, State.word_setFld_other h _ _ _ n, State.fld]

theorem bitOf_eq_bitsOf (x n : Nat) : bitOf x n = (bitsOf x n n == 1) := by
  simp [bitOf, bitsOf]

@[simp] theorem State.bit_setBit_same {s : State} (h : regsWf s.regs = true) {a n : Nat} (b : Bool) (w : n < 32) :
    (s.setBit a n b).bit a n = b := by
  have e := State.fld_setFld_same h (a := a) (b2n b) (Nat.le_refl n) w
  rw [State.bit, bitOf_eq_bitsOf]
  rw [State.fld] at e
  rw [State.setBit, e]
  cases b <;> simp [b2n]

theorem State.bit_setBit_apart {s : State} (h : regsWf s.regs = true) {a n k : Nat} (b : Bool) (w : k < 32) (ne : k ≠ n) :
    (s.setBit a n b).bit a k = s.bit a k := by
  have e := State.fld_setFld_apart h (a := a) (b2n b) (Nat.le_refl n) w (show k < n ∨ n < k by omega)
  rw [State.bit, State.bit, bitOf_eq_bitsOf, bitOf_eq_bitsOf]
  rw [State.fld, State.fld] at e
  rw [State.setBit, e]

theorem State.bit_setBit_other {s : State} (h : regsWf s.regs = true) {a c : Nat} (n : Nat) (b : Bool) (k : Nat) (ne : c ≠ a) :
    (s.setBit a n b).bit c k = s.bit c k := by
  rw [State.bit, State.setBit, State.word_setFld_other h _ _ _ ne, State.bit]

@[simp] theorem State.bit_orWord_same {s : State} (h : regsWf s.regs = true) (a m : Nat) {k : Nat} (w : k < 32) :
    (s.orWord a m).bit a k = (s.bit a k || bitOf m k) := by
  rw [State.bit, State.orWord, State.word_setWord_same h, State.bit, bitOf_eq, bitOf_eq, bitOf_eq, Nat.testBit_mod_two_pow,
    Nat.testBit_or]
  simp [w]

theorem State.word_orWord_other {s : State} (h : regsWf s.regs = true) {a b : Nat} (m : Nat) (n : b ≠ a) :
    (s.orWord a m).word b = s.word b := State.word_setWord_other h _ n

theorem State.word_bump_other {s : State} (h : regsWf s.regs = true) {a b : Nat} (n : b ≠ a) : (s.bump a).word b = s.word b :=
  State.word_setWord_other h _ n

theorem State.word_bump_same {s : State} (h : regsWf s.regs = true) (a : Nat) : (s.bump a).word a = (s.word a + 1) % 2 ^ 32 :=
  State.word_setWord_same h a _

/-- A 64-bit register written reads as what was written. -/
@[simp] theorem State.word64_setWord64_same {s : State} (h : regsWf s.regs = true) (a v : Nat) :
    (s.setWord64 a v).word64 a = v % 2 ^ 64 := by
  rw [State.word64, State.setWord64, State.word_setWord_same (State.setWord_regsWf h _ _),
    State.word_setWord_other (State.setWord_regsWf h _ _) _ (by omega), State.word_setWord_same h, Nat.shiftRight_eq_div_pow]
  omega

theorem State.word_setWord64_other {s : State} (h : regsWf s.regs = true) {a b : Nat} (v : Nat) (n : b ≠ a) (n4 : b ≠ a + 4) :
    (s.setWord64 a v).word b = s.word b := by
  rw [State.setWord64, State.word_setWord_other (State.setWord_regsWf h _ _) _ n4, State.word_setWord_other h _ n]

/-- Registers of a range put back to reset; the others as before. -/
theorem State.word_resetRegs {s : State} (h : regsWf s.regs = true) (a b k : Nat) :
    (s.resetRegs a b).word k = if a ≤ k ∧ k < b then (regReset k).toNat else s.word k := by
  rw [State.word, State.resetRegs, stGet_fmDelRange h, State.word]
  split <;> rfl

/-! Memory. -/

/-- A byte stored reads back. -/
theorem State.byte_store_inside {s : State} (h : Memory.wf s.mem = true) {a i : Nat} {l : List Byte} (hi : i < l.length) :
    (s.store a l).byte (a + i) = l[i] := stGet_stPutRun_inside h hi

/-- A byte outside those stored reads as before. -/
theorem State.byte_store_outside {s : State} (h : Memory.wf s.mem = true) {a k : Nat} {l : List Byte}
    (hk : k < a ∨ a + l.length ≤ k) : (s.store a l).byte k = s.byte k := stGet_stPutRun_outside h hk

/-- The bytes stored read back. -/
theorem State.bytes_store {s : State} (h : Memory.wf s.mem = true) (a : Nat) (l : List Byte) : (s.store a l).bytes a l.length = l := by
  apply List.ext_getElem
  · simp [State.bytes, stGetRun]
  · intro i h1 h2
    simp only [State.bytes, stGetRun, List.getElem_map, List.getElem_range]
    exact stGet_stPutRun_inside h h2

@[simp] theorem State.store_memWf {s : State} (h : Memory.wf s.mem = true) (a : Nat) (l : List Byte) :
    Memory.wf (s.store a l).mem = true := stPutRun_wf a l h

@[simp] theorem State.clearMem_memWf {s : State} (h : Memory.wf s.mem = true) (a b : Nat) :
    Memory.wf (s.clearMem a b).mem = true := fmDelRange_wf a b h

/-- Memory cleared reads 0. -/
theorem State.byte_clearMem {s : State} (h : Memory.wf s.mem = true) (a b k : Nat) :
    (s.clearMem a b).byte k = if a ≤ k ∧ k < b then 0 else s.byte k := stGet_fmDelRange h

end Sys2Proof.Machine
end

