-- ==== Sys2Proof/Laws/Fault.lean ====
section
/-! SUPPORT. Laws of the fault collector: what recording a fault can change, its count, and the class states. -/

namespace Sys2Proof.Machine

/-- Words of FLT that recording a fault may write beside the counts: control, state and rings, and the captures. -/
def fltWord (a : Nat) : Prop := rFlt 0 ≤ a ∧ a < rFlt 0x100 ∨ rFlt 0x200 ≤ a ∧ a < rFlt 0x400

/-- Those but FLT_STATE, which the class states alone write. -/
def fltRing (a : Nat) : Prop := fltWord a ∧ a ≠ rFltState

/-- Only words of P, memory, what left the block, and the collector's own state differ. -/
structure FltOnly (P : Nat → Prop) (s t : State) : Prop where
  wf : regsWf t.regs = true
  word : ∀ a, ¬P a → t.word a = s.word a
  rest : ∃ r m p o f, t = { s with regs := r, mem := m, poison := p, out := o, flt := f }

theorem FltOnly.refl {P : Nat → Prop} {s : State} (h : regsWf s.regs = true) : FltOnly P s s := ⟨h, fun _ _ => rfl, _, _, _, _, _, rfl⟩

/-- A state whose registers are those of one that keeps it. -/
theorem FltOnly.upd {P : Nat → Prop} {s t u : State} (h : FltOnly P s t) (r : u.regs = t.regs)
    (e : ∃ m p o f, u = { t with mem := m, poison := p, out := o, flt := f }) : FltOnly P s u := by
  obtain ⟨_, w, _, _, _, _, _, rfl⟩ := h
  obtain ⟨_, _, _, _, rfl⟩ := e
  refine ⟨by assumption, fun a n => ?_, _, _, _, _, _, rfl⟩
  exact w a n

theorem FltOnly.setWord {P : Nat → Prop} {s t : State} (h : FltOnly P s t) {a : Nat} (v : Nat) (n : P a) : FltOnly P s (t.setWord a v) := by
  refine ⟨State.setWord_regsWf h.wf _ _, fun b k => ?_, ?_⟩
  · rw [State.word_setWord_other h.wf _ (fun e => k (by rw [e]; exact n)), h.word b k]
  · obtain ⟨_, _, _, _, _, rfl⟩ := h.rest
    exact ⟨_, _, _, _, _, rfl⟩

theorem FltOnly.setBit {P : Nat → Prop} {s t : State} (h : FltOnly P s t) {a : Nat} (n : Nat) (b : Bool) (k : P a) : FltOnly P s (t.setBit a n b) :=
  h.setWord _ k

theorem FltOnly.orWord {P : Nat → Prop} {s t : State} (h : FltOnly P s t) {a : Nat} (m : Nat) (k : P a) : FltOnly P s (t.orWord a m) := h.setWord _ k

theorem FltOnly.bump {P : Nat → Prop} {s t : State} (h : FltOnly P s t) {a : Nat} (k : P a) : FltOnly P s (t.bump a) := h.setWord _ k

theorem FltOnly.setWords {P : Nat → Prop} {s : State} (l : List Nat) : ∀ {t : State} {a : Nat}, FltOnly P s t → (∀ i, i < l.length → P (a + 4 * i)) →
    FltOnly P s (t.setWords a l) := by
  induction l with
  | nil => exact fun h _ => h
  | cons v r ih =>
    intro t a h n
    refine ih (h.setWord v (n 0 (by simp))) fun i k => ?_
    have := n (i + 1) (by simpa using k)
    rwa [show a + 4 + 4 * i = a + 4 * (i + 1) by omega]

theorem FltOnly.store {P : Nat → Prop} {s t : State} (h : FltOnly P s t) (a : Nat) (l : List Byte) : FltOnly P s (t.store a l) :=
  h.upd rfl ⟨_, _, _, _, rfl⟩

theorem FltOnly.mono {P Q : Nat → Prop} {s t : State} (h : FltOnly P s t) (k : ∀ a, P a → Q a) : FltOnly Q s t :=
  ⟨h.wf, fun a n => h.word a fun p => n (k a p), h.rest⟩

/-- Numbers of the FLT registers lie in the block in their order. -/
theorem fltWord_of {o : Nat} (h : o < 0x100 ∨ 0x200 ≤ o ∧ o < 0x400) : fltWord (rFlt o) := by
  unfold fltWord rFlt; omega

theorem fltRing_of {o : Nat} (h : (o < 0x100 ∨ 0x200 ≤ o ∧ o < 0x400) ∧ o ≠ 0xC) : fltRing (rFlt o) :=
  ⟨fltWord_of h.1, by unfold rFltState rFlt; omega⟩

theorem FltOnly.recordFault {s t : State} (h : FltOnly fltRing s t) (ev : FaultEv) (time tf : Nat) :
    FltOnly fltRing s (t.recordFault ev time tf).1 := by
  unfold State.recordFault
  split
  · split
    · exact (((h.bump (fltRing_of (by omega))).orWord _ (fltRing_of (by omega))).upd rfl ⟨_, _, _, _, rfl⟩)
    · exact ((((h.store _ _).setWord _ (fltRing_of (by omega))).orWord _ (fltRing_of (by omega))).upd rfl ⟨_, _, _, _, rfl⟩)
  · split
    · exact h
    · unfold State.putNotice
      have k := ((h.upd (u := { t with flt.noticeWin := fmPut t.flt.noticeWin ev.src (t.msWindow + 1) }) rfl ⟨_, _, _, _, rfl⟩))
      dsimp only
      split
      · exact ((((k.store _ _).setWord _ (fltRing_of (by omega))).bump (fltRing_of (by omega))).orWord _
          (fltRing_of (by omega))).upd rfl ⟨_, _, _, _, rfl⟩
      · exact ((k.store _ _).setWord _ (fltRing_of (by omega))).upd rfl ⟨_, _, _, _, rfl⟩

theorem wordsOf_length (l : List Byte) : (wordsOf l).length = (l.length + 3) / 4 := by simp [wordsOf]

theorem FltOnly.capture {s t : State} (h : FltOnly fltRing s t) {cls : Nat} (c : cls ≤ 5) {rcd : List Byte} (l : rcd.length ≤ 32) :
    FltOnly fltRing s (t.capture cls rcd) := by
  have n (o : Nat) (k : 0x200 ≤ o ∧ o ≤ 0x380) (v : List Byte) (e : v.length ≤ 32) : ∀ i, i < (wordsOf v).length → fltRing (rFlt o + 4 * i) := by
    intro i hi
    rw [wordsOf_length] at hi
    rw [show rFlt o + 4 * i = rFlt (o + 4 * i) by unfold rFlt; omega]
    exact fltRing_of (by omega)
  have e : (rcd.set 7 ((rcd.getD 7 0) ||| 0x80)).length ≤ 32 := by simpa using l
  unfold State.capture
  dsimp only
  split
  · exact h.setWords _ (n _ (by omega) _ e)
  · exact (h.setWords _ (n _ (by omega) _ e)).setWords _ (n _ (by omega) _ e)

theorem FltOnly.pinsSafe {s t : State} (h : FltOnly fltWord s t) : FltOnly fltWord s t.pinsSafe := by
  unfold State.pinsSafe
  have k : fltWord rFltState := fltWord_of (by omega)
  split
  · exact ((h.upd rfl ⟨_, _, _, _, rfl⟩ : FltOnly fltWord s (t.emit _)).setBit _ _ k).setBit _ _ k
  · exact (h.setBit _ _ k).setBit _ _ k

theorem FltOnly.classState {s t : State} (h : FltOnly fltWord s t) (ev : FaultEv) : FltOnly fltWord s (t.classState ev) := by
  have k : fltWord rFltState := fltWord_of (by omega)
  have i : fltWord rFltIrq := fltWord_of (by omega)
  unfold State.classState
  split
  · exact h.upd rfl ⟨_, _, _, _, rfl⟩
  · exact h.upd rfl ⟨_, _, _, _, rfl⟩
  · dsimp only
    split
    · exact (h.setBit _ _ k).upd rfl ⟨_, _, _, _, rfl⟩
    · exact ((h.orWord _ i).setBit _ _ k).upd rfl ⟨_, _, _, _, rfl⟩
  · dsimp only
    refine FltOnly.pinsSafe ?_
    split
    · exact (h.setBit _ _ k).upd rfl ⟨_, _, _, _, rfl⟩
    · exact ((h.orWord _ i).setBit _ _ k).upd rfl ⟨_, _, _, _, rfl⟩
  · dsimp only
    refine FltOnly.pinsSafe ?_
    split
    · exact h.setBit _ _ k
    · exact (h.orWord _ i).setBit _ _ k

/-- A record or capture has 32 bytes. -/
theorem recBytes_length (a b c d e f g h i j : Nat) : (recBytes a b c d e f g h i j).length = 32 := by
  simp [recBytes, leBytes]

/-- Recording a fault: beside its count it changes only the collector's registers and state, its rings in memory, and the pins. -/
theorem State.collect_fltOnly {s : State} (h : regsWf s.regs = true) {ev : FaultEv} (c : ev.cls ≤ 5) :
    FltOnly fltWord (s.bump (rFlt (0x100 + ev.src % 64 * 4))) (s.collect ev) := by
  unfold State.collect State.updateFc
  have k := (FltOnly.refl (State.bump_regsWf h (rFlt (0x100 + ev.src % 64 * 4)))).recordFault ev
    (s.bump (rFlt (0x100 + ev.src % 64 * 4))).recordTime.1 (s.bump (rFlt (0x100 + ev.src % 64 * 4))).recordTime.2
  exact ((((k.capture c (Nat.le_of_eq (recBytes_length ..))).mono fun _ n => n.1).classState ev).setWord _ (fltWord_of (by omega)))

/-- The count of a fault's source has risen by one. -/
theorem State.collect_count {s : State} (h : regsWf s.regs = true) {ev : FaultEv} (c : ev.cls ≤ 5) (n : ev.src < 64) :
    (s.collect ev).word (rFlt (0x100 + ev.src * 4)) = (s.word (rFlt (0x100 + ev.src * 4)) + 1) % 2 ^ 32 := by
  have k := (State.collect_fltOnly h c).word (rFlt (0x100 + ev.src * 4)) (by unfold fltWord rFlt; omega)
  rw [k, Nat.mod_eq_of_lt n, State.word_bump_same h]

/-- Every register outside FLT reads as before. -/
theorem State.collect_word {s : State} (h : regsWf s.regs = true) {ev : FaultEv} (c : ev.cls ≤ 5) {a : Nat}
    (n : a < rFlt 0 ∨ rFlt 0x400 ≤ a) : (s.collect ev).word a = s.word a := by
  rw [(State.collect_fltOnly h c).word a (by unfold fltWord rFlt at *; omega),
    State.word_bump_other h (by unfold rFlt at *; omega)]

/-- Nothing but registers, memory, what left the block, and the collector's state differs. -/
theorem State.collect_rest {s : State} (h : regsWf s.regs = true) {ev : FaultEv} (c : ev.cls ≤ 5) :
    ∃ r m p o f, s.collect ev = { s with regs := r, mem := m, poison := p, out := o, flt := f } := by
  obtain ⟨_, _, _, _, _, e⟩ := (State.collect_fltOnly h c).rest
  exact ⟨_, _, _, _, _, e⟩

theorem FltOnly.recordCapture {s : State} (h : regsWf s.regs = true) {ev : FaultEv} (c : ev.cls ≤ 5) (x y : Nat) {rcd : List Byte}
    (l : rcd.length ≤ 32) : FltOnly fltRing s (((s.recordFault ev x y).1).capture ev.cls rcd) :=
  ((FltOnly.refl h).recordFault ev x y).capture c l

/-- Bit 3 and above of FLT_STATE after a fault is what the class states make of what it was. -/
theorem State.collect_state {s : State} (h : regsWf s.regs = true) {ev : FaultEv} (c : 1 ≤ ev.cls ∧ ev.cls ≤ 3) {k : Nat} (b : 3 ≤ k ∧ k < 32) :
    (s.collect ev).bit rFltState k = (decide (ev.cls = 3 ∧ k = stD) || s.bit rFltState k) := by
  have hb := State.bump_regsWf h (rFlt (0x100 + ev.src % 64 * 4))
  have e := (FltOnly.refl (P := fltRing) hb).recordFault ev (s.bump (rFlt (0x100 + ev.src % 64 * 4))).recordTime.1
    (s.bump (rFlt (0x100 + ev.src % 64 * 4))).recordTime.2
  unfold State.collect State.updateFc
  dsimp only
  generalize hu : State.capture _ _ _ = u
  have ku : FltOnly fltRing (s.bump (rFlt (0x100 + ev.src % 64 * 4))) u := by
    rw [← hu]; exact e.capture (by omega) (Nat.le_of_eq (recBytes_length ..))
  have ws : u.bit rFltState k = s.bit rFltState k := by
    rw [State.bit, State.bit, ku.word _ (fun n => n.2 rfl), State.word_bump_other h (by unfold rFltState rFlt; omega)]
  have wf : regsWf (u.classState ev).regs = true := ((ku.mono fun _ n => n.1).classState ev).wf
  have fin : ((u.classState ev).setFld rFltState 2 0 (u.classState ev).fcCode).bit rFltState k = (u.classState ev).bit rFltState k := by
    have x := State.fld_setFld_apart wf (a := rFltState) (hi := 2) (lo := 0) (hi' := k) (lo' := k) (u.classState ev).fcCode
      (by omega) b.2 (by omega)
    rw [State.bit, State.bit, bitOf_eq_bitsOf, bitOf_eq_bitsOf]
    rw [State.fld, State.fld] at x
    rw [x]
  rw [fin, ← ws]
  unfold State.classState
  split
  · next q => simp [q]; rfl
  · next q => simp [q]; rfl
  · next q =>
    have ki : rFltState ≠ rFltIrq := by unfold rFltState rFltIrq rFlt; omega
    by_cases kd : k = stD
    · subst kd
      dsimp only
      split
      · simp [q]; exact State.bit_setBit_same ku.wf true (by decide)
      · simp [q]; exact State.bit_setBit_same (State.orWord_regsWf ku.wf _ _) true (by decide)
    · dsimp only
      split
      · simp [q, kd]; exact State.bit_setBit_apart ku.wf true b.2 kd
      · simp [q, kd]
        exact (State.bit_setBit_apart (State.orWord_regsWf ku.wf _ _) true b.2 kd).trans
          (by rw [State.bit, State.word_orWord_other ku.wf _ ki, State.bit])
  · next q => omega
  · next n1 n2 n3 n4 =>
    rcases (by omega : ev.cls = 1 ∨ ev.cls = 2 ∨ ev.cls = 3) with e | e | e
    · exact (n1 e).elim
    · exact (n2 e).elim
    · exact (n3 e).elim

/-- A fault of class N, C or D is what the collector makes of it: no heel engages. -/
theorem State.faultEv_low {s : State} (h : regsWf s.regs = true) {ev : FaultEv} (c : 1 ≤ ev.cls ∧ ev.cls ≤ 3) :
    s.faultEv ev = s.collect { ev with inj := ev.inj || s.awl.inj } := by
  have e : (s.collect { ev with inj := ev.inj || s.awl.inj }).safeActive = s.safeActive := by
    have x (k : Nat) (b : 3 ≤ k ∧ k < 32) := State.collect_state h (ev := { ev with inj := ev.inj || s.awl.inj }) c b
    unfold State.safeActive
    rw [x stS (by decide), x stL (by decide)]
    simp [stS, stL, stD]
  unfold State.faultEv
  dsimp only
  rw [e]
  cases s.safeActive <;> rfl

/-- What a fault of class N, C or D shows: its count has risen by one, and class D is ACTIVE. -/
theorem State.faulted_low {s : State} (h : regsWf s.regs = true) {src cls : Nat} (m : Master) (u i : Nat) (n : src < 64)
    (c : 1 ≤ cls ∧ cls ≤ 3) : Faulted src cls s (s.fault src cls m u i) := by
  have e : s.fault src cls m u i = s.collect ⟨src, cls, 0, m, u, i, 0, false || s.awl.inj⟩ := State.faultEv_low h c
  have b : 1 ≤ cls ∧ cls ≤ 3 := c
  refine ⟨?_, fun d => ?_, fun d => absurd d (by omega), fun d => absurd d (by omega)⟩
  · rw [e]; exact State.collect_count h (by dsimp only; omega) n
  · rw [e, State.collect_state h (k := stD) b (by decide)]; simp [d]

/-- Every register outside FLT reads as before a fault of class N, C or D. -/
theorem State.word_fault_low {s : State} (h : regsWf s.regs = true) {src cls : Nat} (m : Master) (u i : Nat)
    (c : 1 ≤ cls ∧ cls ≤ 3) {a : Nat} (n : a < rFlt 0 ∨ rFlt 0x400 ≤ a) : (s.fault src cls m u i).word a = s.word a := by
  have e : s.fault src cls m u i = s.collect ⟨src, cls, 0, m, u, i, 0, false || s.awl.inj⟩ := State.faultEv_low h c
  rw [e]
  exact State.collect_word h (by dsimp only; omega) n

/-- Nothing but registers, memory, what left the block, and the collector's state differs after a fault of class N, C or D. -/
theorem State.fault_low_rest {s : State} (h : regsWf s.regs = true) {src cls : Nat} (m : Master) (u i : Nat) (c : 1 ≤ cls ∧ cls ≤ 3) :
    ∃ r x p o f, s.fault src cls m u i = { s with regs := r, mem := x, poison := p, out := o, flt := f } := by
  have e : s.fault src cls m u i = s.collect ⟨src, cls, 0, m, u, i, 0, false || s.awl.inj⟩ := State.faultEv_low h c
  rw [e]
  exact State.collect_rest h (by dsimp only; omega)

end Sys2Proof.Machine
end

