-- ==== Sys2Proof/Laws/Keeps.lean ====
section
/-! SUPPORT. What no command of the ZH8 breaks: the queue of waiting commands is left alone, memory and the register file keep
their canonical form, time does not run backwards, and a blown fuse stays blown. Keeps s t says it of a state t that comes from s;
each operation has one lemma that says it keeps it. -/

namespace Sys2Proof.Machine

/-- What every operation keeps. -/
structure Keeps (s t : State) : Prop where
  queue : t.pending = s.pending
  mem : Memory.wf s.mem = true → Memory.wf t.mem = true
  regs : regsWf s.regs = true → regsWf t.regs = true
  fuses : ∀ k, bitOf s.sec.fuses k = true → bitOf t.sec.fuses k = true
  now : s.now ≤ t.now

theorem Keeps.refl (s : State) : Keeps s s := ⟨rfl, id, id, fun _ h => h, Nat.le_refl _⟩

theorem Keeps.trans {s t u : State} (h : Keeps s t) (k : Keeps t u) : Keeps s u :=
  ⟨k.queue.trans h.queue, fun x => k.mem (h.mem x), fun x => k.regs (h.regs x), fun b x => k.fuses b (h.fuses b x),
    Nat.le_trans h.now k.now⟩

/-- A state in between. -/
theorem Keeps.cut {s0 t : State} {p : Prop} (h : Keeps s0 t) (k : Keeps s0 t → p) : p := k h

theorem Keeps.ite {s0 a b : State} {p : Prop} [Decidable p] (h : p → Keeps s0 a) (k : ¬p → Keeps s0 b) :
    Keeps s0 (if p then a else b) := by
  split
  · next x => exact h x
  · next x => exact k x

theorem Keeps.ite1 {β : Type} {s0 : State} {a b : State × β} {p : Prop} [Decidable p] (h : p → Keeps s0 a.1) (k : ¬p → Keeps s0 b.1) :
    Keeps s0 (if p then a else b).1 := by
  split
  · next x => exact h x
  · next x => exact k x

theorem Keeps.ite2 {β : Type} {s0 : State} {a b : β × State} {p : Prop} [Decidable p] (h : p → Keeps s0 a.2) (k : ¬p → Keeps s0 b.2) :
    Keeps s0 (if p then a else b).2 := by
  split
  · next x => exact h x
  · next x => exact k x

theorem Keeps.ite22 {β γ : Type} {s0 : State} {a b : β × γ × State} {p : Prop} [Decidable p] (h : p → Keeps s0 a.2.2)
    (k : ¬p → Keeps s0 b.2.2) : Keeps s0 (if p then a else b).2.2 := by
  split
  · next x => exact h x
  · next x => exact k x

/-- A change of other fields. -/
theorem Keeps.upd {s t u : State} (h : Keeps s t) (hp : u.pending = t.pending) (hm : u.mem = t.mem) (hr : u.regs = t.regs)
    (hs : u.sec.fuses = t.sec.fuses) (hn : u.now = t.now) : Keeps s u := by
  refine ⟨hp.trans h.queue, ?_, ?_, ?_, ?_⟩
  · rw [hm]; exact h.mem
  · rw [hr]; exact h.regs
  · rw [hs]; exact h.fuses
  · rw [hn]; exact h.now

/-- A state built from another, the five fields of which it keeps. -/
theorem Keeps.mk_ {s t : State} (h : Keeps s t) {poison resp holds caps out free flt twn awl eth ptp can wpe mc phx sfe cel fab atu hqm
    pci clc mhs ras dpy pwr fwp tap per heldAcc} : Keeps s
    (State.mk t.pending t.regs t.mem poison resp holds caps out t.now free flt twn awl eth ptp can wpe mc phx sfe cel fab atu hqm
      pci clc mhs t.sec ras dpy pwr fwp tap per heldAcc) := h.upd rfl rfl rfl rfl rfl

/-- The same with a change of SEC that leaves the fuses alone. -/
theorem Keeps.mkSec {s t : State} (h : Keeps s t) {poison resp holds caps out free flt twn awl eth ptp can wpe mc phx sfe cel fab atu hqm
    pci clc mhs ras dpy pwr fwp tap per heldAcc slots powerOns holder op chal key} : Keeps s
    (State.mk t.pending t.regs t.mem poison resp holds caps out t.now free flt twn awl eth ptp can wpe mc phx sfe cel fab atu hqm
      pci clc mhs (SecS.mk slots t.sec.fuses powerOns holder op chal key) ras dpy pwr fwp tap per heldAcc) := h.upd rfl rfl rfl rfl rfl

theorem foldl_keeps {α : Type} {s0 : State} {f : State → α → State} (hf : ∀ s a, Keeps s0 s → Keeps s0 (f s a)) :
    ∀ (l : List α) {s : State}, Keeps s0 s → Keeps s0 (l.foldl f s)
  | [], _, h => h
  | a :: r, _, h => foldl_keeps hf r (hf _ a h)

/-- The same for a fold that carries something beside the state. -/
theorem foldl_keeps_fst {α β : Type} {s0 : State} {f : State × β → α → State × β} (hf : ∀ p a, Keeps s0 p.1 → Keeps s0 (f p a).1) :
    ∀ (l : List α) {p : State × β}, Keeps s0 p.1 → Keeps s0 (l.foldl f p).1
  | [], _, h => h
  | a :: r, _, h => foldl_keeps_fst hf r (hf _ a h)

/-- The same for a fold that carries the state as a part of what it builds. -/
theorem foldl_keeps_by {α β : Type} (π : β → State) {s0 : State} {f : β → α → β}
    (hf : ∀ b a, Keeps s0 (π b) → Keeps s0 (π (f b a))) : ∀ (l : List α) {b : β}, Keeps s0 (π b) → Keeps s0 (π (l.foldl f b))
  | [], _, h => h
  | a :: r, _, h => foldl_keeps_by π hf r (hf _ a h)

theorem Keeps.of_fst {β : Type} {s0 t : State} {b : β} {p : State × β} (e : p = (t, b)) (h : Keeps s0 p.1) : Keeps s0 t := by
  subst e; exact h

theorem Keeps.of_snd {β : Type} {s0 t : State} {b : β} {p : β × State} (e : p = (b, t)) (h : Keeps s0 p.2) : Keeps s0 t := by
  subst e; exact h

/-- An outcome keeps it when its next state does. -/
def OutKeeps (s : State) (o : Host.Outcome State Fault Refusal) : Prop := ∀ t, o = .next t → Keeps s t

theorem OutKeeps.next {s t : State} (h : Keeps s t) : OutKeeps s (.next t) := fun _ e => by cases e; exact h

theorem OutKeeps.of_next {s t : State} {o : Host.Outcome State Fault Refusal} (h : OutKeeps s o) (e : o = .next t) : Keeps s t := h t e

theorem OutKeeps.ite {s0 : State} {a b : Host.Outcome State Fault Refusal} {p : Prop} [Decidable p] (h : p → OutKeeps s0 a)
    (k : ¬p → OutKeeps s0 b) : OutKeeps s0 (if p then a else b) := by
  split
  · next x => exact h x
  · next x => exact k x

/-! The operations on registers and memory. -/

theorem State.setWord_keeps {s0 s : State} {a v : Nat} (h : Keeps s0 s) : Keeps s0 (s.setWord a v) :=
  ⟨h.queue, h.mem, fun x => stPut_wf _ _ (h.regs x), h.fuses, h.now⟩

theorem State.resetRegs_keeps {s0 s : State} {a b : Nat} (h : Keeps s0 s) : Keeps s0 (s.resetRegs a b) :=
  ⟨h.queue, h.mem, fun x => fmDelRange_wf _ _ (h.regs x), h.fuses, h.now⟩

theorem State.store_keeps {s0 s : State} {a : Nat} {l : List Byte} (h : Keeps s0 s) : Keeps s0 (s.store a l) :=
  ⟨h.queue, fun x => stPutRun_wf _ _ (h.mem x), h.regs, h.fuses, h.now⟩

theorem State.clearMem_keeps {s0 s : State} {a b : Nat} (h : Keeps s0 s) : Keeps s0 (s.clearMem a b) :=
  ⟨h.queue, fun x => fmDelRange_wf _ _ (h.mem x), h.regs, h.fuses, h.now⟩

theorem State.timeTo_keeps {s0 s : State} {t : Nat} (h : Keeps s0 s) : Keeps s0 (s.timeTo t) :=
  ⟨h.queue, h.mem, h.regs, h.fuses, Nat.le_trans h.now (Nat.le_max_left _ _)⟩

end Sys2Proof.Machine
end

