-- ==== Sys2Proof/Laws/KeepsOps.lean ====
section
/-! SUPPORT. What Machine/Ops.lean keeps. -/

namespace Sys2Proof.Machine

set_option linter.unusedTactic false
set_option linter.unreachableTactic false

theorem State.setFld_keeps {s0 : State} {s : State} {a : Nat} {hi : Nat} {lo : Nat} {v : Nat}  (h : Keeps s0 s) : Keeps s0 (State.setFld s a hi lo v) := by
  unfold State.setFld
  repeat' first
    | with_reducible first
      | assumption | apply State.setWord_keeps
    | dsimp -zeta only
    | dsimp only

theorem State.setBit_keeps {s0 : State} {s : State} {a : Nat} {n : Nat} {b : Bool}  (h : Keeps s0 s) : Keeps s0 (State.setBit s a n b) := by
  unfold State.setBit
  repeat' first
    | with_reducible first
      | assumption | apply State.setFld_keeps
    | dsimp -zeta only
    | dsimp only

theorem State.orWord_keeps {s0 : State} {s : State} {a : Nat} {mask : Nat}  (h : Keeps s0 s) : Keeps s0 (State.orWord s a mask) := by
  unfold State.orWord
  repeat' first
    | with_reducible first
      | assumption | apply State.setWord_keeps
    | dsimp -zeta only
    | dsimp only

theorem State.setWord64_keeps {s0 : State} {s : State} {a : Nat} {v : Nat}  (h : Keeps s0 s) : Keeps s0 (State.setWord64 s a v) := by
  unfold State.setWord64
  repeat' first
    | with_reducible first
      | assumption | apply State.setWord_keeps
    | dsimp -zeta only
    | dsimp only

theorem State.bumpBy_keeps {s0 : State} {s : State} {a : Nat} {n : Nat}  (h : Keeps s0 s) : Keeps s0 (State.bumpBy s a n) := by
  unfold State.bumpBy
  repeat' first
    | with_reducible first
      | assumption | apply State.setWord_keeps
    | dsimp -zeta only
    | dsimp only

theorem State.bump_keeps {s0 : State} {s : State} {a : Nat}  (h : Keeps s0 s) : Keeps s0 (State.bump s a) := by
  unfold State.bump
  repeat' first
    | with_reducible first
      | assumption | apply State.bumpBy_keeps
    | dsimp -zeta only
    | dsimp only

theorem State.bumpSat_keeps {s0 : State} {s : State} {a : Nat} {hi : Nat} {lo : Nat}  (h : Keeps s0 s) : Keeps s0 (State.bumpSat s a hi lo) := by
  unfold State.bumpSat
  repeat' first
    | with_reducible first
      | assumption | apply State.setFld_keeps
    | (extract_lets +onlyGivenNames x; apply Keeps.cut (t := x) <;> [subst x; (intro _; clear_value x)])
    | (extract_lets +onlyGivenNames x; subst x)
    | dsimp -zeta only
    | dsimp only

theorem State.setWords_keeps {s0 : State} {s : State} {a : Nat} {a3 : List Nat}  (h : Keeps s0 s) : Keeps s0 (State.setWords s a a3) := by
  revert h
  fun_induction State.setWords s a a3
  all_goals intro h
  all_goals repeat' first
    | with_reducible first
      | assumption | apply State.setWord_keeps | refine Keeps.of_fst (by assumption) ?_
    | with_reducible apply_assumption
    | dsimp -zeta only
    | split
    | dsimp only

theorem State.setRegBytes_keeps {s0 : State} {s : State} {a : Nat} {l : List Byte}  (h : Keeps s0 s) : Keeps s0 (State.setRegBytes s a l) := by
  unfold State.setRegBytes
  repeat' first
    | with_reducible first
      | assumption | apply State.setWords_keeps
    | dsimp -zeta only
    | dsimp only

theorem State.resetBlock_keeps {s0 : State} {s : State} {k : Nat}  (h : Keeps s0 s) : Keeps s0 (State.resetBlock s k) := by
  unfold State.resetBlock
  repeat' first
    | with_reducible first
      | assumption | apply State.resetRegs_keeps
    | dsimp -zeta only
    | dsimp only

theorem State.storeNat_keeps {s0 : State} {s : State} {a : Nat} {n : Nat} {v : Nat}  (h : Keeps s0 s) : Keeps s0 (State.storeNat s a n v) := by
  unfold State.storeNat
  repeat' first
    | with_reducible first
      | assumption | apply State.store_keeps
    | dsimp -zeta only
    | dsimp only

theorem State.respOk_keeps {s0 : State} {s : State} {data : List Byte}  (h : Keeps s0 s) : Keeps s0 (State.respOk s data) := by
  unfold State.respOk
  repeat' first
    | with_reducible first
      | assumption | fail_if_no_progress apply Keeps.mk_
    | dsimp -zeta only
    | dsimp only

theorem State.respErr_keeps {s0 : State} {s : State}  (h : Keeps s0 s) : Keeps s0 (State.respErr s) := by
  unfold State.respErr
  repeat' first
    | with_reducible first
      | assumption | fail_if_no_progress apply Keeps.mk_
    | dsimp -zeta only
    | dsimp only

theorem State.emit_keeps {s0 : State} {s : State} {o : Output}  (h : Keeps s0 s) : Keeps s0 (State.emit s o) := by
  unfold State.emit
  repeat' first
    | with_reducible first
      | assumption | fail_if_no_progress apply Keeps.mk_
    | dsimp -zeta only
    | dsimp only

theorem State.takeFree_keeps {s0 : State} {s : State}  (h : Keeps s0 s) : Keeps s0 (State.takeFree s).2 := by
  unfold State.takeFree
  repeat' first
    | with_reducible first
      | assumption | fail_if_no_progress apply Keeps.mk_
    | dsimp -zeta only
    | dsimp only

end Sys2Proof.Machine
end

