-- ==== Sys2Proof/Laws/KeepsCollector.lean ====
section
/-! SUPPORT. What Machine/Collector.lean keeps. -/

namespace Sys2Proof.Machine

set_option linter.unusedTactic false
set_option linter.unreachableTactic false

theorem State.putAlarm_keeps {s0 : State} {s : State} {rcd : List Byte}  (h : Keeps s0 s) : Keeps s0 (State.putAlarm s rcd) := by
  unfold State.putAlarm
  repeat' first
    | with_reducible first
      | assumption | apply State.setWord_keeps | apply State.store_keeps | apply State.orWord_keeps
      | fail_if_no_progress apply Keeps.mk_
    | (extract_lets +onlyGivenNames x; apply Keeps.cut (t := x) <;> [subst x; (intro _; clear_value x)])
    | (extract_lets +onlyGivenNames x; subst x)
    | dsimp -zeta only
    | dsimp only

theorem State.putNotice_keeps {s0 : State} {s : State} {rcd : List Byte}  (h : Keeps s0 s) : Keeps s0 (State.putNotice s rcd) := by
  unfold State.putNotice
  repeat' first
    | with_reducible first
      | assumption | apply State.setWord_keeps | apply State.store_keeps | apply State.orWord_keeps | apply State.bump_keeps
      | fail_if_no_progress apply Keeps.mk_ | refine Keeps.ite (fun _ => ?_) (fun _ => ?_)
    | (extract_lets +onlyGivenNames x; apply Keeps.cut (t := x) <;> [subst x; (intro _; clear_value x)])
    | (extract_lets +onlyGivenNames x; subst x)
    | dsimp -zeta only
    | split
    | dsimp only

theorem State.updateFc_keeps {s0 : State} {s : State}  (h : Keeps s0 s) : Keeps s0 (State.updateFc s) := by
  unfold State.updateFc
  repeat' first
    | with_reducible first
      | assumption | apply State.setFld_keeps
    | dsimp -zeta only
    | dsimp only

theorem State.capture_keeps {s0 : State} {s : State} {cls : Nat} {rcd : List Byte}  (h : Keeps s0 s) : Keeps s0 (State.capture s cls rcd) := by
  unfold State.capture
  repeat' first
    | with_reducible first
      | assumption | apply State.setRegBytes_keeps | refine Keeps.ite (fun _ => ?_) (fun _ => ?_)
    | (extract_lets +onlyGivenNames x; apply Keeps.cut (t := x) <;> [subst x; (intro _; clear_value x)])
    | (extract_lets +onlyGivenNames x; subst x)
    | dsimp -zeta only
    | split
    | dsimp only

theorem State.recordFault_keeps {s0 : State} {s : State} {ev : FaultEv} {time : Nat} {tf : Nat}  (h : Keeps s0 s) : Keeps s0 (State.recordFault s ev time tf).1 := by
  unfold State.recordFault
  repeat' first
    | with_reducible first
      | assumption | apply State.orWord_keeps | apply State.bump_keeps | apply State.putAlarm_keeps
      | apply State.putNotice_keeps | fail_if_no_progress apply Keeps.mk_ | refine Keeps.ite1 (fun _ => ?_) (fun _ => ?_)
      | refine Keeps.ite (fun _ => ?_) (fun _ => ?_)
    | (extract_lets +onlyGivenNames x; apply Keeps.cut (t := x) <;> [subst x; (intro _; clear_value x)])
    | (extract_lets +onlyGivenNames x; subst x)
    | dsimp -zeta only
    | split
    | dsimp only

theorem State.pinsSafe_keeps {s0 : State} {s : State}  (h : Keeps s0 s) : Keeps s0 (State.pinsSafe s) := by
  unfold State.pinsSafe
  repeat' first
    | with_reducible first
      | assumption | apply State.emit_keeps | apply State.setBit_keeps | refine Keeps.ite (fun _ => ?_) (fun _ => ?_)
    | (extract_lets +onlyGivenNames x; apply Keeps.cut (t := x) <;> [subst x; (intro _; clear_value x)])
    | (extract_lets +onlyGivenNames x; subst x)
    | dsimp -zeta only
    | split
    | dsimp only

theorem State.classState_keeps {s0 : State} {s : State} {ev : FaultEv}  (h : Keeps s0 s) : Keeps s0 (State.classState s ev) := by
  unfold State.classState
  repeat' first
    | with_reducible first
      | assumption | apply State.orWord_keeps | apply State.setBit_keeps | apply State.pinsSafe_keeps
      | fail_if_no_progress apply Keeps.mk_ | refine Keeps.of_fst (by assumption) ?_
      | refine Keeps.ite (fun _ => ?_) (fun _ => ?_)
    | (extract_lets +onlyGivenNames x; apply Keeps.cut (t := x) <;> [subst x; (intro _; clear_value x)])
    | (extract_lets +onlyGivenNames x; subst x)
    | dsimp -zeta only
    | split
    | dsimp only

theorem State.collect_keeps {s0 : State} {s : State} {ev : FaultEv}  (h : Keeps s0 s) : Keeps s0 (State.collect s ev) := by
  unfold State.collect
  repeat' first
    | with_reducible first
      | assumption | apply State.bump_keeps | apply State.recordFault_keeps | apply State.updateFc_keeps
      | apply State.classState_keeps | apply State.capture_keeps | refine Keeps.of_fst (by assumption) ?_
      | refine Keeps.ite (fun _ => ?_) (fun _ => ?_)
    | (extract_lets +onlyGivenNames x; apply Keeps.cut (t := x) <;> [subst x; (intro _; clear_value x)])
    | (extract_lets +onlyGivenNames x; subst x)
    | dsimp -zeta only
    | split
    | dsimp only

theorem State.foldSummary_keeps {s0 : State} {s : State}  (h : Keeps s0 s) : Keeps s0 (State.foldSummary s) := by
  unfold State.foldSummary
  repeat' first
    | with_reducible first
      | assumption | apply State.putAlarm_keeps | fail_if_no_progress apply Keeps.mk_
      | refine Keeps.ite (fun _ => ?_) (fun _ => ?_)
    | (extract_lets +onlyGivenNames x; apply Keeps.cut (t := x) <;> [subst x; (intro _; clear_value x)])
    | (extract_lets +onlyGivenNames x; subst x)
    | dsimp -zeta only
    | split
    | dsimp only

end Sys2Proof.Machine
end

