-- ==== Sys2Proof/Laws/KeepsHeel.lean ====
section
/-! SUPPORT. What Machine/Heel.lean keeps. -/

namespace Sys2Proof.Machine

set_option linter.unusedTactic false
set_option linter.unreachableTactic false

theorem State.latchedOrFree_keeps {s0 : State} {s : State}  (h : Keeps s0 s) : Keeps s0 (State.latchedOrFree s).2 := by
  unfold State.latchedOrFree
  repeat' first
    | with_reducible first
      | assumption | apply State.takeFree_keeps | refine Keeps.of_fst (by assumption) ?_
      | refine Keeps.of_snd (by assumption) ?_
    | dsimp -zeta only
    | split
    | dsimp only

theorem State.hardHeel_keeps {s0 : State} {s : State}  (h : Keeps s0 s) : Keeps s0 (State.hardHeel s).2 := by
  unfold State.hardHeel
  repeat' first
    | with_reducible first
      | assumption | apply State.latchedOrFree_keeps | refine Keeps.of_fst (by assumption) ?_
      | refine Keeps.of_snd (by assumption) ?_
    | dsimp -zeta only
    | split
    | dsimp only

theorem trajSource_keeps {s0 : State} {s : State}  (h : Keeps s0 s) : Keeps s0 (trajSource s).2 := by
  unfold trajSource
  repeat' first
    | with_reducible first
      | assumption | apply State.takeFree_keeps
    | dsimp -zeta only
    | dsimp only

theorem State.ethEnqueue_keeps {s0 : State} {s : State} {port : Nat} {cls : Nat} {f : EthFrame}  (h : Keeps s0 s) : Keeps s0 (State.ethEnqueue s port cls f) := by
  unfold State.ethEnqueue
  repeat' first
    | with_reducible first
      | assumption | fail_if_no_progress apply Keeps.mk_
    | (extract_lets +onlyGivenNames x; apply Keeps.cut (t := x) <;> [subst x; (intro _; clear_value x)])
    | (extract_lets +onlyGivenNames x; subst x)
    | dsimp -zeta only
    | dsimp only

theorem State.trajToPort_keeps {s0 : State} {s : State} {port : Nat} {f : EthFrame}  (h : Keeps s0 s) : Keeps s0 (State.trajToPort s port f).1 := by
  unfold State.trajToPort
  repeat' first
    | with_reducible first
      | assumption | apply State.ethEnqueue_keeps | apply State.bump_keeps | refine Keeps.ite1 (fun _ => ?_) (fun _ => ?_)
      | refine Keeps.ite (fun _ => ?_) (fun _ => ?_)
    | dsimp -zeta only
    | split
    | dsimp only

theorem State.trajSend_keeps {s0 : State} {s : State} {payload : List Byte} {seq : Nat}  (h : Keeps s0 s) : Keeps s0 (State.trajSend s payload seq) := by
  unfold State.trajSend
  repeat' first
    | with_reducible first
      | assumption | apply trajSource_keeps | apply State.trajToPort_keeps | apply State.orWord_keeps | apply State.bump_keeps
      | refine Keeps.of_fst (by assumption) ?_ | refine Keeps.of_snd (by assumption) ?_
      | refine Keeps.ite (fun _ => ?_) (fun _ => ?_)
    | (extract_lets +onlyGivenNames x; apply Keeps.cut (t := x) <;> [subst x; (intro _; clear_value x)])
    | (extract_lets +onlyGivenNames x; subst x)
    | dsimp -zeta only
    | split
    | dsimp only

theorem State.wpeFrame_keeps {s0 : State} {s : State} {cmd : Nat} {flags : Nat} {result : Nat} {plan : Option Traj} {heel : Traj}  (h : Keeps s0 s) : Keeps s0 (State.wpeFrame s cmd flags result plan heel) := by
  unfold State.wpeFrame
  repeat' first
    | with_reducible first
      | assumption | apply State.bump_keeps | apply State.setRegBytes_keeps | apply State.trajSend_keeps
    | (extract_lets +onlyGivenNames x; apply Keeps.cut (t := x) <;> [subst x; (intro _; clear_value x)])
    | (extract_lets +onlyGivenNames x; subst x)
    | dsimp -zeta only
    | dsimp only

theorem State.wpeExtra_keeps {s0 : State} {s : State} {b2 : Traj}  (h : Keeps s0 s) : Keeps s0 (State.wpeExtra s b2) := by
  unfold State.wpeExtra
  repeat' first
    | with_reducible first
      | assumption | apply State.setFld_keeps | apply State.wpeFrame_keeps | refine Keeps.ite (fun _ => ?_) (fun _ => ?_)
    | (extract_lets +onlyGivenNames x; apply Keeps.cut (t := x) <;> [subst x; (intro _; clear_value x)])
    | (extract_lets +onlyGivenNames x; subst x)
    | dsimp -zeta only
    | split
    | dsimp only

theorem State.heelEngage_keeps {s0 : State} {s : State}  (h : Keeps s0 s) : Keeps s0 (State.heelEngage s) := by
  unfold State.heelEngage
  repeat' first
    | with_reducible first
      | assumption | apply State.hardHeel_keeps | apply State.orWord_keeps | apply State.setBit_keeps
      | apply State.wpeExtra_keeps | fail_if_no_progress apply Keeps.mk_ | refine Keeps.of_fst (by assumption) ?_
      | refine Keeps.of_snd (by assumption) ?_ | refine Keeps.ite (fun _ => ?_) (fun _ => ?_)
    | (extract_lets +onlyGivenNames x; apply Keeps.cut (t := x) <;> [subst x; (intro _; clear_value x)])
    | (extract_lets +onlyGivenNames x; subst x)
    | dsimp -zeta only
    | split
    | dsimp only

theorem State.heelRelease_keeps {s0 : State} {s : State}  (h : Keeps s0 s) : Keeps s0 (State.heelRelease s) := by
  unfold State.heelRelease
  repeat' first
    | with_reducible first
      | assumption | apply State.setBit_keeps | fail_if_no_progress apply Keeps.mk_
    | (extract_lets +onlyGivenNames x; apply Keeps.cut (t := x) <;> [subst x; (intro _; clear_value x)])
    | (extract_lets +onlyGivenNames x; subst x)
    | dsimp -zeta only
    | dsimp only

end Sys2Proof.Machine
end

