-- ==== Sys2Proof/Laws/KeepsFault.lean ====
section
/-! SUPPORT. What Machine/Fault.lean keeps. -/

namespace Sys2Proof.Machine

set_option linter.unusedTactic false
set_option linter.unreachableTactic false

theorem State.faultEv_keeps {s0 : State} {s : State} {ev : FaultEv}  (h : Keeps s0 s) : Keeps s0 (State.faultEv s ev) := by
  unfold State.faultEv
  repeat' first
    | with_reducible first
      | assumption | apply State.collect_keeps | apply State.heelEngage_keeps | refine Keeps.ite (fun _ => ?_) (fun _ => ?_)
    | (extract_lets +onlyGivenNames x; apply Keeps.cut (t := x) <;> [subst x; (intro _; clear_value x)])
    | (extract_lets +onlyGivenNames x; subst x)
    | dsimp -zeta only
    | split
    | dsimp only

theorem State.fault_keeps {s0 : State} {s : State} {src : Nat} {cls : Nat} {master : Master} {unit : Nat} {info : Nat}  (h : Keeps s0 s) : Keeps s0 (State.fault s src cls master unit info) := by
  unfold State.fault
  repeat' first
    | with_reducible first
      | assumption | apply State.faultEv_keeps
    | dsimp -zeta only
    | dsimp only

theorem State.faultAt_keeps {s0 : State} {s : State} {src : Nat} {cls : Nat} {master : Master} {unit : Nat} {info : Nat} {access : Nat} {addr : Nat}  (h : Keeps s0 s) : Keeps s0 (State.faultAt s src cls master unit info access addr) := by
  unfold State.faultAt
  repeat' first
    | with_reducible first
      | assumption | apply State.faultEv_keeps
    | dsimp -zeta only
    | dsimp only

theorem State.accessFault_keeps {s0 : State} {s : State} {m : Master} {access : Nat} {addr : Nat}  (h : Keeps s0 s) : Keeps s0 (State.accessFault s m access addr) := by
  unfold State.accessFault
  repeat' first
    | with_reducible first
      | assumption | apply State.faultAt_keeps
    | dsimp -zeta only
    | dsimp only

theorem State.refuse_keeps {s0 : State} {s : State} {m : Master} {access : Nat} {addr : Nat}  (h : Keeps s0 s) : Keeps s0 (State.refuse s m access addr) := by
  unfold State.refuse
  repeat' first
    | with_reducible first
      | assumption | apply State.respErr_keeps | apply State.accessFault_keeps
    | dsimp -zeta only
    | dsimp only

theorem State.ignoreWr_keeps {s0 : State} {s : State} {m : Master} {addr : Nat}  (h : Keeps s0 s) : Keeps s0 (State.ignoreWr s m addr) := by
  unfold State.ignoreWr
  repeat' first
    | with_reducible first
      | assumption | apply State.respOk_keeps | apply State.accessFault_keeps
    | dsimp -zeta only
    | dsimp only

end Sys2Proof.Machine
end

