-- ==== Sys2Proof/Laws/KeepsMemMap.lean ====
section
/-! SUPPORT. What Machine/MemMap.lean keeps. -/

namespace Sys2Proof.Machine

set_option linter.unusedTactic false
set_option linter.unreachableTactic false

theorem State.mapRefuse_keeps {s0 : State} {s : State} {m : Master} {access : Nat} {a : Nat} {ans : MapAnswer}  (h : Keeps s0 s) : Keeps s0 (State.mapRefuse s m access a ans) := by
  unfold State.mapRefuse
  repeat' first
    | with_reducible first
      | assumption | apply State.refuse_keeps | apply State.respErr_keeps | apply State.faultAt_keeps
      | refine Keeps.of_fst (by assumption) ?_
    | dsimp -zeta only
    | split
    | dsimp only

end Sys2Proof.Machine
end

