-- ==== Sys2Proof/Laws/KeepsMem.lean ====
section
/-! SUPPORT. What Machine/Mem.lean keeps. -/

namespace Sys2Proof.Machine

set_option linter.unusedTactic false
set_option linter.unreachableTactic false

theorem State.memRecord_keeps {s0 : State} {s : State} {type : Nat} {kind : Nat} {unit : Nat} {cls : Nat} {addr : Nat} {master : Nat} {owner : Nat} {flags : Nat} {syn : Nat}  (h : Keeps s0 s) : Keeps s0 (State.memRecord s type kind unit cls addr master owner flags syn) := by
  unfold State.memRecord
  repeat' first
    | with_reducible first
      | assumption | apply State.setWord_keeps | apply State.store_keeps | fail_if_no_progress apply Keeps.mk_
    | (extract_lets +onlyGivenNames x; apply Keeps.cut (t := x) <;> [subst x; (intro _; clear_value x)])
    | (extract_lets +onlyGivenNames x; subst x)
    | dsimp -zeta only
    | dsimp only

theorem State.memRecordAt_keeps {s0 : State} {s : State} {type : Nat} {cls : Nat} {a : Nat} {master : Nat} {syn : Nat}  (h : Keeps s0 s) : Keeps s0 (State.memRecordAt s type cls a master syn) := by
  unfold State.memRecordAt
  repeat' first
    | with_reducible first
      | assumption | apply State.memRecord_keeps | refine Keeps.of_fst (by assumption) ?_
    | (extract_lets +onlyGivenNames x; apply Keeps.cut (t := x) <;> [subst x; (intro _; clear_value x)])
    | (extract_lets +onlyGivenNames x; subst x)
    | dsimp -zeta only
    | split
    | dsimp only

theorem State.memCE_keeps {s0 : State} {s : State} {type : Nat} {a : Nat} {m : Master} {access : Nat} {syn : Nat}  (h : Keeps s0 s) : Keeps s0 (State.memCE s type a m access syn) := by
  unfold State.memCE
  repeat' first
    | with_reducible first
      | assumption | apply State.bump_keeps | apply State.orWord_keeps | apply State.memRecordAt_keeps
      | apply State.faultAt_keeps | fail_if_no_progress apply Keeps.mk_ | refine Keeps.of_fst (by assumption) ?_
      | refine Keeps.ite (fun _ => ?_) (fun _ => ?_)
    | (extract_lets +onlyGivenNames x; apply Keeps.cut (t := x) <;> [subst x; (intro _; clear_value x)])
    | (extract_lets +onlyGivenNames x; subst x)
    | dsimp -zeta only
    | split
    | dsimp only

theorem State.poisonGran_keeps {s0 : State} {s : State} {a : Nat} {m : Master}  (h : Keeps s0 s) : Keeps s0 (State.poisonGran s a m) := by
  unfold State.poisonGran
  repeat' first
    | with_reducible first
      | assumption | apply State.orWord_keeps | apply State.memRecordAt_keeps | apply State.bump_keeps
      | apply State.setBit_keeps | apply State.faultAt_keeps | fail_if_no_progress apply Keeps.mk_
      | refine Keeps.of_fst (by assumption) ?_ | refine Keeps.ite (fun _ => ?_) (fun _ => ?_)
    | (extract_lets +onlyGivenNames x; apply Keeps.cut (t := x) <;> [subst x; (intro _; clear_value x)])
    | (extract_lets +onlyGivenNames x; subst x)
    | dsimp -zeta only
    | split
    | dsimp only

theorem State.poisonRange_keeps {s0 : State} {s : State} {a : Nat} {n : Nat} {m : Master}  (h : Keeps s0 s) : Keeps s0 (State.poisonRange s a n m) := by
  unfold State.poisonRange
  repeat' first
    | with_reducible first
      | assumption | apply State.poisonGran_keeps | apply foldl_keeps | apply foldl_keeps_fst | intro _
    | dsimp -zeta only
    | dsimp only

theorem State.memUE_keeps {s0 : State} {s : State} {type : Nat} {a : Nat} {m : Master} {access : Nat} {syn : Nat}  (h : Keeps s0 s) : Keeps s0 (State.memUE s type a m access syn) := by
  unfold State.memUE
  repeat' first
    | with_reducible first
      | assumption | apply State.poisonGran_keeps | apply State.bump_keeps | apply State.orWord_keeps
      | apply State.memRecordAt_keeps | apply State.faultAt_keeps | refine Keeps.of_fst (by assumption) ?_
      | refine Keeps.ite (fun _ => ?_) (fun _ => ?_)
    | (extract_lets +onlyGivenNames x; apply Keeps.cut (t := x) <;> [subst x; (intro _; clear_value x)])
    | (extract_lets +onlyGivenNames x; subst x)
    | dsimp -zeta only
    | split
    | dsimp only

theorem State.hartPoison_keeps {s0 : State} {s : State} {m : Master} {access : Nat} {a : Nat}  (h : Keeps s0 s) : Keeps s0 (State.hartPoison s m access a) := by
  unfold State.hartPoison
  repeat' first
    | with_reducible first
      | assumption | apply State.faultAt_keeps | refine Keeps.ite (fun _ => ?_) (fun _ => ?_)
    | dsimp -zeta only
    | split
    | dsimp only

theorem State.memPut_keeps {s0 : State} {s : State} {m : Master} {a : Nat} {l : List Byte} {bad : Bool}  (h : Keeps s0 s) : Keeps s0 (State.memPut s m a l bad) := by
  unfold State.memPut
  repeat' first
    | with_reducible first
      | assumption | apply State.store_keeps | apply State.memUE_keeps | apply State.poisonRange_keeps | apply foldl_keeps
      | apply foldl_keeps_fst | intro _ | refine Keeps.ite (fun _ => ?_) (fun _ => ?_)
    | (extract_lets +onlyGivenNames x; apply Keeps.cut (t := x) <;> [subst x; (intro _; clear_value x)])
    | (extract_lets +onlyGivenNames x; subst x)
    | dsimp -zeta only
    | split
    | dsimp only

theorem State.freeBytes_keeps {s0 : State} {s : State} {n : Nat}  (h : Keeps s0 s) : Keeps s0 (State.freeBytes s n).2 := by
  unfold State.freeBytes
  repeat' first
    | with_reducible first
      | assumption | apply State.takeFree_keeps | refine Keeps.of_fst (by assumption) ?_
      | refine Keeps.of_snd (by assumption) ?_
    | dsimp -zeta only
    | split
    | dsimp only

theorem State.winFault_keeps {s0 : State} {s : State} {m : Master} {cls : Nat} {w : Nat} {access : Nat} {a : Nat}  (h : Keeps s0 s) : Keeps s0 (State.winFault s m cls w access a) := by
  unfold State.winFault
  repeat' first
    | with_reducible first
      | assumption | apply State.faultAt_keeps | apply State.orWord_keeps
    | dsimp -zeta only
    | dsimp only

theorem State.windowRead_keeps {s0 : State} {s : State} {m : Master} {a : Nat} {n : Nat}  (h : Keeps s0 s) : Keeps s0 (State.windowRead s m a n).1 := by
  unfold State.windowRead
  repeat' first
    | with_reducible first
      | assumption | apply State.winFault_keeps | apply foldl_keeps | apply foldl_keeps_fst | intro _
      | refine Keeps.of_fst (by assumption) ?_ | refine Keeps.ite1 (fun _ => ?_) (fun _ => ?_)
      | refine Keeps.ite (fun _ => ?_) (fun _ => ?_)
    | (extract_lets +onlyGivenNames x; apply Keeps.cut (t := x) <;> [subst x; (intro _; clear_value x)])
    | (extract_lets +onlyGivenNames x; subst x)
    | dsimp -zeta only
    | split
    | dsimp only

theorem State.dmaWrite_keeps {s0 : State} {s : State} {m : Master} {a : Nat} {l : List Byte} {bad : Bool}  (h : Keeps s0 s) : Keeps s0 (State.dmaWrite s m a l bad).1 := by
  unfold State.dmaWrite
  repeat' first
    | with_reducible first
      | assumption | apply State.emit_keeps | apply State.accessFault_keeps | apply State.winFault_keeps
      | apply State.memPut_keeps | apply State.faultAt_keeps | refine Keeps.of_fst (by assumption) ?_
      | refine Keeps.ite1 (fun _ => ?_) (fun _ => ?_) | refine Keeps.ite (fun _ => ?_) (fun _ => ?_)
    | dsimp -zeta only
    | split
    | dsimp only

theorem State.dmaRead_keeps {s0 : State} {s : State} {m : Master} {a : Nat} {n : Nat}  (h : Keeps s0 s) : Keeps s0 (State.dmaRead s m a n).1 := by
  unfold State.dmaRead
  repeat' first
    | with_reducible first
      | assumption | apply State.emit_keeps | apply State.freeBytes_keeps | apply State.accessFault_keeps
      | apply State.windowRead_keeps | apply State.faultAt_keeps | refine Keeps.of_fst (by assumption) ?_
      | refine Keeps.of_snd (by assumption) ?_
    | (extract_lets +onlyGivenNames x; apply Keeps.cut (t := x) <;> [subst x; (intro _; clear_value x)])
    | (extract_lets +onlyGivenNames x; subst x)
    | dsimp -zeta only
    | split
    | dsimp only

theorem State.dmaReadLong_keeps {s0 : State} {s : State} {m : Master} {a : Nat} {n : Nat}  (h : Keeps s0 s) : Keeps s0 (State.dmaReadLong s m a n).1 := by
  unfold State.dmaReadLong
  repeat' first
    | with_reducible first
      | assumption | apply State.dmaRead_keeps | apply foldl_keeps | apply foldl_keeps_fst | intro _
      | refine Keeps.of_fst (by assumption) ?_
    | dsimp -zeta only
    | split
    | dsimp only

theorem State.dmaWriteLong_keeps {s0 : State} {s : State} {m : Master} {a : Nat} {l : List Byte} {bad : Bool}  (h : Keeps s0 s) : Keeps s0 (State.dmaWriteLong s m a l bad).1 := by
  unfold State.dmaWriteLong
  repeat' first
    | with_reducible first
      | assumption | apply State.dmaWrite_keeps | apply foldl_keeps | apply foldl_keeps_fst | intro _
      | refine Keeps.of_fst (by assumption) ?_
    | dsimp -zeta only
    | split
    | dsimp only

end Sys2Proof.Machine
end

