-- ==== Sys2Proof/Laws/KeepsAtu.lean ====
section
/-! SUPPORT. What Machine/Atu.lean keeps. -/

namespace Sys2Proof.Machine

set_option linter.unusedTactic false
set_option linter.unreachableTactic false

theorem State.atuFault_keeps {s0 : State} {s : State} {i : Nat} {m : Master} {acc : Nat} {va : Nat} {cause : Nat} {stage : Nat}  (h : Keeps s0 s) : Keeps s0 (State.atuFault s i m acc va cause stage) := by
  unfold State.atuFault
  repeat' first
    | with_reducible first
      | assumption | apply State.setWord_keeps | apply State.setRegBytes_keeps | apply State.orWord_keeps
      | apply State.bump_keeps | apply State.faultAt_keeps | fail_if_no_progress apply Keeps.mk_
      | refine Keeps.ite (fun _ => ?_) (fun _ => ?_)
    | (extract_lets +onlyGivenNames x; apply Keeps.cut (t := x) <;> [subst x; (intro _; clear_value x)])
    | (extract_lets +onlyGivenNames x; subst x)
    | dsimp -zeta only
    | split
    | dsimp only

theorem State.xlatBy_keeps {s0 : State} {s : State} {i : Nat} {m : Master} {acc : Nat} {va : Nat} {s2only : Bool}  (h : Keeps s0 s) : Keeps s0 (State.xlatBy s i m acc va s2only).1 := by
  unfold State.xlatBy
  repeat' first
    | with_reducible first
      | assumption | apply State.atuFault_keeps | apply State.takeFree_keeps | fail_if_no_progress apply Keeps.mk_
      | refine Keeps.of_fst (by assumption) ?_ | refine Keeps.of_snd (by assumption) ?_
      | refine Keeps.ite1 (fun _ => ?_) (fun _ => ?_) | refine Keeps.ite (fun _ => ?_) (fun _ => ?_)
    | (extract_lets +onlyGivenNames x; apply Keeps.cut (t := x) <;> [subst x; (intro _; clear_value x)])
    | (extract_lets +onlyGivenNames x; subst x)
    | dsimp -zeta only
    | split
    | dsimp only

theorem State.hartAccess_keeps {s0 : State} {s : State} {i : Nat} {m : Master} {acc : Nat} {a : Nat}  (h : Keeps s0 s) : Keeps s0 (State.hartAccess s i m acc a).1 := by
  unfold State.hartAccess
  repeat' first
    | with_reducible first
      | assumption | apply State.accessFault_keeps | apply State.atuFault_keeps
      | refine Keeps.ite1 (fun _ => ?_) (fun _ => ?_) | refine Keeps.ite (fun _ => ?_) (fun _ => ?_)
    | dsimp -zeta only
    | split
    | dsimp only

theorem State.xlat_keeps {s0 : State} {s : State} {inst : Option (Fin 64)} {m : Master} {acc : Nat} {va : Nat}  (h : Keeps s0 s) : Keeps s0 (State.xlat s inst m acc va).1 := by
  unfold State.xlat
  repeat' first
    | with_reducible first
      | assumption | apply State.hartAccess_keeps | apply State.xlatBy_keeps | refine Keeps.of_fst (by assumption) ?_
      | refine Keeps.ite1 (fun _ => ?_) (fun _ => ?_) | refine Keeps.ite (fun _ => ?_) (fun _ => ?_)
    | dsimp -zeta only
    | split
    | dsimp only

theorem State.rdV_keeps {s0 : State} {s : State} {inst : Option (Fin 64)} {m : Master} {acc : Nat} {va : Nat} {n : Nat}  (h : Keeps s0 s) : Keeps s0 (State.rdV s inst m acc va n).1 := by
  unfold State.rdV
  repeat' first
    | with_reducible first
      | assumption | apply State.xlat_keeps | apply State.dmaRead_keeps | refine Keeps.of_fst (by assumption) ?_
    | dsimp -zeta only
    | split
    | dsimp only

theorem State.wrV_keeps {s0 : State} {s : State} {inst : Option (Fin 64)} {m : Master} {va : Nat} {l : List Byte} {bad : Bool}  (h : Keeps s0 s) : Keeps s0 (State.wrV s inst m va l bad).1 := by
  unfold State.wrV
  repeat' first
    | with_reducible first
      | assumption | apply State.xlat_keeps | apply State.dmaWrite_keeps | refine Keeps.of_fst (by assumption) ?_
    | dsimp -zeta only
    | split
    | dsimp only

theorem State.rdLong_keeps {s0 : State} {s : State} {inst : Option (Fin 64)} {m : Master} {va : Nat} {n : Nat}  (h : Keeps s0 s) : Keeps s0 (State.rdLong s inst m va n).1 := by
  unfold State.rdLong
  repeat' first
    | with_reducible first
      | assumption | apply State.rdV_keeps | apply foldl_keeps | apply foldl_keeps_fst | intro _
      | refine Keeps.of_fst (by assumption) ?_
    | dsimp -zeta only
    | split
    | dsimp only

theorem State.wrLong_keeps {s0 : State} {s : State} {inst : Option (Fin 64)} {m : Master} {va : Nat} {l : List Byte} {bad : Bool}  (h : Keeps s0 s) : Keeps s0 (State.wrLong s inst m va l bad).1 := by
  unfold State.wrLong
  repeat' first
    | with_reducible first
      | assumption | apply State.wrV_keeps | apply foldl_keeps | apply foldl_keeps_fst | intro _
      | refine Keeps.of_fst (by assumption) ?_
    | dsimp -zeta only
    | split
    | dsimp only

theorem State.atuInv_keeps {s0 : State} {s : State} {m : Master} {inst : Option (Fin 64)} {w : Nat}  (h : Keeps s0 s) : Keeps s0 (State.atuInv s m inst w) := by
  unfold State.atuInv
  repeat' first
    | with_reducible first
      | assumption | apply State.refuse_keeps | apply State.respOk_keeps | apply State.setBit_keeps
      | fail_if_no_progress apply Keeps.mk_ | refine Keeps.of_fst (by assumption) ?_
      | refine Keeps.ite (fun _ => ?_) (fun _ => ?_)
    | (extract_lets +onlyGivenNames x; apply Keeps.cut (t := x) <;> [subst x; (intro _; clear_value x)])
    | (extract_lets +onlyGivenNames x; subst x)
    | dsimp -zeta only
    | split
    | dsimp only

theorem execAtuInv_keeps {s0 : State} {m : Master} {inst : Option (Fin 64)} {w : BitVec 64} {s : State}  (h : Keeps s0 s) : OutKeeps s0 (execAtuInv m inst w s) := by
  unfold execAtuInv
  repeat' first
    | with_reducible first
      | assumption | apply State.atuInv_keeps | apply OutKeeps.next
    | dsimp -zeta only
    | dsimp only

theorem execAtuInvDone_keeps {s0 : State} {s : State}  (h : Keeps s0 s) : OutKeeps s0 (execAtuInvDone s) := by
  unfold execAtuInvDone
  repeat' first
    | with_reducible first
      | assumption | apply State.orWord_keeps | apply State.setBit_keeps | apply OutKeeps.next
      | fail_if_no_progress apply Keeps.mk_ | refine Keeps.of_fst (by assumption) ?_
    | (extract_lets +onlyGivenNames x; apply Keeps.cut (t := x) <;> [subst x; (intro _; clear_value x)])
    | (extract_lets +onlyGivenNames x; subst x)
    | dsimp -zeta only
    | split
    | dsimp only

end Sys2Proof.Machine
end

