-- ==== Sys2Proof/Laws/KeepsFab.lean ====
section
/-! SUPPORT. What Machine/Fab.lean keeps. -/

namespace Sys2Proof.Machine

set_option linter.unusedTactic false
set_option linter.unreachableTactic false

theorem State.setHoldQueue_keeps {s0 : State} {s : State} {p : Nat} {l : Nat} {q : List FabReq}  (h : Keeps s0 s) : Keeps s0 (State.setHoldQueue s p l q) := by
  unfold State.setHoldQueue
  repeat' first
    | with_reducible first
      | assumption | fail_if_no_progress apply Keeps.mk_ | refine Keeps.ite (fun _ => ?_) (fun _ => ?_)
    | (extract_lets +onlyGivenNames x; apply Keeps.cut (t := x) <;> [subst x; (intro _; clear_value x)])
    | (extract_lets +onlyGivenNames x; subst x)
    | dsimp -zeta only
    | split
    | dsimp only

theorem State.guarThresh_keeps {s0 : State} {s : State} {l : Nat} {count : Nat}  (h : Keeps s0 s) : Keeps s0 (State.guarThresh s l count) := by
  unfold State.guarThresh
  repeat' first
    | with_reducible first
      | assumption | apply State.orWord_keeps | apply State.fault_keeps | refine Keeps.ite (fun _ => ?_) (fun _ => ?_)
    | (extract_lets +onlyGivenNames x; apply Keeps.cut (t := x) <;> [subst x; (intro _; clear_value x)])
    | (extract_lets +onlyGivenNames x; subst x)
    | dsimp -zeta only
    | split
    | dsimp only

theorem State.missCapture_keeps {s0 : State} {s : State} {l : Nat} {p : Nat} {cause : Nat} {cls : Nat} {master : Nat} {late : Nat}  (h : Keeps s0 s) : Keeps s0 (State.missCapture s l p cause cls master late) := by
  unfold State.missCapture
  repeat' first
    | with_reducible first
      | assumption | apply State.setWord_keeps | apply State.setWord64_keeps | refine Keeps.ite (fun _ => ?_) (fun _ => ?_)
    | (extract_lets +onlyGivenNames x; apply Keeps.cut (t := x) <;> [subst x; (intro _; clear_value x)])
    | (extract_lets +onlyGivenNames x; subst x)
    | dsimp -zeta only
    | split
    | dsimp only

theorem State.countMiss_keeps {s0 : State} {s : State} {l : Nat} {o : Nat}  (h : Keeps s0 s) : Keeps s0 (State.countMiss s l o) := by
  unfold State.countMiss
  repeat' first
    | with_reducible first
      | assumption | apply State.bump_keeps | apply State.guarThresh_keeps
    | (extract_lets +onlyGivenNames x; apply Keeps.cut (t := x) <;> [subst x; (intro _; clear_value x)])
    | (extract_lets +onlyGivenNames x; subst x)
    | dsimp -zeta only
    | dsimp only

theorem State.fabIssue_keeps {s0 : State} {s : State} {p : Nat} {l : Nat} {m : Master} {inst : Option (Fin 64)} {bytes : Nat} {write : Bool} {named : Option Nat} {cls : Nat}  (h : Keeps s0 s) : Keeps s0 (State.fabIssue s p l m inst bytes write named cls) := by
  unfold State.fabIssue
  repeat' first
    | with_reducible first
      | assumption | apply State.fault_keeps | apply State.orWord_keeps | apply State.bump_keeps
      | apply State.setHoldQueue_keeps | refine Keeps.ite (fun _ => ?_) (fun _ => ?_)
    | (extract_lets +onlyGivenNames x; apply Keeps.cut (t := x) <;> [subst x; (intro _; clear_value x)])
    | (extract_lets +onlyGivenNames x; subst x)
    | dsimp -zeta only
    | split
    | dsimp only

theorem execRegulatorRelease_keeps {s0 : State} {port : Fin 32} {label : Fin 256} {s : State}  (h : Keeps s0 s) : OutKeeps s0 (execRegulatorRelease port label s) := by
  unfold execRegulatorRelease
  repeat' first
    | with_reducible first
      | assumption | apply State.setHoldQueue_keeps | apply State.setWord_keeps | apply OutKeeps.next
      | fail_if_no_progress apply Keeps.mk_ | refine Keeps.of_fst (by assumption) ?_
      | refine OutKeeps.ite (fun _ => ?_) (fun _ => ?_) | refine Keeps.ite (fun _ => ?_) (fun _ => ?_)
    | (extract_lets +onlyGivenNames x; apply Keeps.cut (t := x) <;> [subst x; (intro _; clear_value x)])
    | (extract_lets +onlyGivenNames x; subst x)
    | dsimp -zeta only
    | split
    | dsimp only

theorem execRequestComplete_keeps {s0 : State} {port : Fin 32} {label : Fin 256} {cause : Fin 5} {s : State}  (h : Keeps s0 s) : OutKeeps s0 (execRequestComplete port label cause s) := by
  unfold execRequestComplete
  repeat' first
    | with_reducible first
      | assumption | apply State.setWord64_keeps | apply State.missCapture_keeps | apply State.countMiss_keeps
      | apply OutKeeps.next | fail_if_no_progress apply Keeps.mk_ | refine Keeps.of_fst (by assumption) ?_
      | refine OutKeeps.ite (fun _ => ?_) (fun _ => ?_) | refine Keeps.ite (fun _ => ?_) (fun _ => ?_)
    | (extract_lets +onlyGivenNames x; apply Keeps.cut (t := x) <;> [subst x; (intro _; clear_value x)])
    | (extract_lets +onlyGivenNames x; subst x)
    | dsimp -zeta only
    | split
    | dsimp only

theorem execFloorWindowEnd_keeps {s0 : State} {port : Fin 32} {label : Fin 256} {s : State}  (h : Keeps s0 s) : OutKeeps s0 (execFloorWindowEnd port label s) := by
  unfold execFloorWindowEnd
  repeat' first
    | with_reducible first
      | assumption | apply State.timeTo_keeps | apply State.countMiss_keeps | apply State.missCapture_keeps
      | apply OutKeeps.next | fail_if_no_progress apply Keeps.mk_ | refine Keeps.of_fst (by assumption) ?_
      | refine OutKeeps.ite (fun _ => ?_) (fun _ => ?_) | refine Keeps.ite (fun _ => ?_) (fun _ => ?_)
    | (extract_lets +onlyGivenNames x; apply Keeps.cut (t := x) <;> [subst x; (intro _; clear_value x)])
    | (extract_lets +onlyGivenNames x; subst x)
    | dsimp -zeta only
    | split
    | dsimp only

theorem execLinkRetrain_keeps {s0 : State} {link : Fin 46} {s : State}  (h : Keeps s0 s) : OutKeeps s0 (execLinkRetrain link s) := by
  unfold execLinkRetrain
  repeat' first
    | with_reducible first
      | assumption | apply State.fault_keeps | apply State.bump_keeps | apply OutKeeps.next
      | fail_if_no_progress apply Keeps.mk_ | refine OutKeeps.ite (fun _ => ?_) (fun _ => ?_)
      | refine Keeps.ite (fun _ => ?_) (fun _ => ?_)
    | (extract_lets +onlyGivenNames x; apply Keeps.cut (t := x) <;> [subst x; (intro _; clear_value x)])
    | (extract_lets +onlyGivenNames x; subst x)
    | dsimp -zeta only
    | split
    | dsimp only

theorem execFabricLinkRetrainDone_keeps {s0 : State} {link : Fin 46} {s : State}  (h : Keeps s0 s) : OutKeeps s0 (execFabricLinkRetrainDone link s) := by
  unfold execFabricLinkRetrainDone
  repeat' first
    | with_reducible first
      | assumption | apply OutKeeps.next | fail_if_no_progress apply Keeps.mk_
    | (extract_lets +onlyGivenNames x; apply Keeps.cut (t := x) <;> [subst x; (intro _; clear_value x)])
    | (extract_lets +onlyGivenNames x; subst x)
    | dsimp -zeta only
    | dsimp only

theorem State.fabMissClr_keeps {s0 : State} {s : State} {m : Master} {inst : Option (Fin 64)} {v : Nat}  (h : Keeps s0 s) : Keeps s0 (State.fabMissClr s m inst v) := by
  unfold State.fabMissClr
  repeat' first
    | with_reducible first
      | assumption | apply State.refuse_keeps | apply State.respOk_keeps | apply State.setBit_keeps
      | refine Keeps.ite (fun _ => ?_) (fun _ => ?_)
    | dsimp -zeta only
    | split
    | dsimp only

theorem execFabMissClr_keeps {s0 : State} {m : Master} {inst : Option (Fin 64)} {v : BitVec 32} {s : State}  (h : Keeps s0 s) : OutKeeps s0 (execFabMissClr m inst v s) := by
  unfold execFabMissClr
  repeat' first
    | with_reducible first
      | assumption | apply State.fabMissClr_keeps | apply OutKeeps.next
    | dsimp -zeta only
    | dsimp only

end Sys2Proof.Machine
end

