-- ==== Sys2Proof/Laws/KeepsIsland.lean ====
section
/-! SUPPORT. What Machine/Island.lean keeps. -/

namespace Sys2Proof.Machine

set_option linter.unusedTactic false
set_option linter.unreachableTactic false

theorem State.updatePairs_keeps {s0 : State} {s : State}  (h : Keeps s0 s) : Keeps s0 (State.updatePairs s) := by
  unfold State.updatePairs
  repeat' first
    | with_reducible first
      | assumption | apply State.setBit_keeps
    | (extract_lets +onlyGivenNames x; apply Keeps.cut (t := x) <;> [subst x; (intro _; clear_value x)])
    | (extract_lets +onlyGivenNames x; subst x)
    | dsimp -zeta only
    | dsimp only

theorem State.setPair_keeps {s0 : State} {s : State} {n : Nat} {st : Nat}  (h : Keeps s0 s) : Keeps s0 (State.setPair s n st) := by
  unfold State.setPair
  repeat' first
    | with_reducible first
      | assumption | apply State.setBit_keeps | apply State.setFld_keeps | apply State.updatePairs_keeps
      | refine Keeps.ite (fun _ => ?_) (fun _ => ?_)
    | (extract_lets +onlyGivenNames x; apply Keeps.cut (t := x) <;> [subst x; (intro _; clear_value x)])
    | (extract_lets +onlyGivenNames x; subst x)
    | dsimp -zeta only
    | split
    | dsimp only

theorem State.splitPair_keeps {s0 : State} {s : State} {n : Nat}  (h : Keeps s0 s) : Keeps s0 (State.splitPair s n) := by
  unfold State.splitPair
  repeat' first
    | with_reducible first
      | assumption | apply State.setBit_keeps | apply State.setPair_keeps | apply State.orWord_keeps | apply State.fault_keeps
      | fail_if_no_progress apply Keeps.mk_ | refine Keeps.ite (fun _ => ?_) (fun _ => ?_)
    | (extract_lets +onlyGivenNames x; apply Keeps.cut (t := x) <;> [subst x; (intro _; clear_value x)])
    | (extract_lets +onlyGivenNames x; subst x)
    | dsimp -zeta only
    | split
    | dsimp only

theorem State.attach_keeps {s0 : State} {s : State} {n : Nat}  (h : Keeps s0 s) : Keeps s0 (State.attach s n) := by
  unfold State.attach
  repeat' first
    | with_reducible first
      | assumption | apply State.splitPair_keeps | fail_if_no_progress apply Keeps.mk_
      | refine Keeps.ite (fun _ => ?_) (fun _ => ?_)
    | (extract_lets +onlyGivenNames x; apply Keeps.cut (t := x) <;> [subst x; (intro _; clear_value x)])
    | (extract_lets +onlyGivenNames x; subst x)
    | dsimp -zeta only
    | split
    | dsimp only

theorem State.attachNow_keeps {s0 : State} {s : State} {n : Nat}  (h : Keeps s0 s) : Keeps s0 (State.attachNow s n) := by
  unfold State.attachNow
  repeat' first
    | with_reducible first
      | assumption | apply State.attach_keeps | refine Keeps.ite (fun _ => ?_) (fun _ => ?_)
    | dsimp -zeta only
    | split
    | dsimp only

theorem State.mismatch_keeps {s0 : State} {s : State} {n : Nat} {point : Nat} {bit : Nat} {pc : Nat} {inj : Bool}  (h : Keeps s0 s) : Keeps s0 (State.mismatch s n point bit pc inj) := by
  unfold State.mismatch
  repeat' first
    | with_reducible first
      | assumption | apply State.bump_keeps | apply State.orWord_keeps | apply State.setWord64_keeps
      | apply State.setPair_keeps | apply State.faultEv_keeps | fail_if_no_progress apply Keeps.mk_
      | refine Keeps.of_fst (by assumption) ?_ | refine Keeps.ite (fun _ => ?_) (fun _ => ?_)
    | (extract_lets +onlyGivenNames x; apply Keeps.cut (t := x) <;> [subst x; (intro _; clear_value x)])
    | (extract_lets +onlyGivenNames x; subst x)
    | dsimp -zeta only
    | split
    | dsimp only

theorem execRefclkLoss_keeps {s0 : State} {s : State}  (h : Keeps s0 s) : OutKeeps s0 (execRefclkLoss s) := by
  unfold execRefclkLoss
  repeat' first
    | with_reducible first
      | assumption | apply State.orWord_keeps | apply State.setBit_keeps | apply State.fault_keeps | apply OutKeeps.next
    | (extract_lets +onlyGivenNames x; apply Keeps.cut (t := x) <;> [subst x; (intro _; clear_value x)])
    | (extract_lets +onlyGivenNames x; subst x)
    | dsimp -zeta only
    | dsimp only

theorem execRefclkRecover_keeps {s0 : State} {s : State}  (h : Keeps s0 s) : OutKeeps s0 (execRefclkRecover s) := by
  unfold execRefclkRecover
  repeat' first
    | with_reducible first
      | assumption | apply State.setBit_keeps | apply OutKeeps.next
    | dsimp -zeta only
    | dsimp only

theorem State.holdover_keeps {s0 : State} {s : State} {b : Bool}  (h : Keeps s0 s) : Keeps s0 (State.holdover s b) := by
  unfold State.holdover
  repeat' first
    | with_reducible first
      | assumption | apply State.setBit_keeps | apply State.orWord_keeps | apply foldl_keeps | apply foldl_keeps_fst | intro _
      | refine Keeps.ite (fun _ => ?_) (fun _ => ?_)
    | (extract_lets +onlyGivenNames x; apply Keeps.cut (t := x) <;> [subst x; (intro _; clear_value x)])
    | (extract_lets +onlyGivenNames x; subst x)
    | dsimp -zeta only
    | split
    | dsimp only

theorem execPtpRefinFail_keeps {s0 : State} {s : State}  (h : Keeps s0 s) : OutKeeps s0 (execPtpRefinFail s) := by
  unfold execPtpRefinFail
  repeat' first
    | with_reducible first
      | assumption | apply State.orWord_keeps | apply State.setBit_keeps | apply State.fault_keeps
      | apply State.holdover_keeps | apply OutKeeps.next
    | (extract_lets +onlyGivenNames x; apply Keeps.cut (t := x) <;> [subst x; (intro _; clear_value x)])
    | (extract_lets +onlyGivenNames x; subst x)
    | dsimp -zeta only
    | dsimp only

theorem execPtpRefinRecover_keeps {s0 : State} {s : State}  (h : Keeps s0 s) : OutKeeps s0 (execPtpRefinRecover s) := by
  unfold execPtpRefinRecover
  repeat' first
    | with_reducible first
      | assumption | apply State.holdover_keeps | apply State.setBit_keeps | apply OutKeeps.next
    | dsimp -zeta only
    | dsimp only

theorem execSafeXinFail_keeps {s0 : State} {s : State}  (h : Keeps s0 s) : OutKeeps s0 (execSafeXinFail s) := by
  unfold execSafeXinFail
  repeat' first
    | with_reducible first
      | assumption | apply State.setBit_keeps | apply State.setPair_keeps | apply State.fault_keeps | apply OutKeeps.next
      | apply foldl_keeps | apply foldl_keeps_fst | intro _ | refine OutKeeps.ite (fun _ => ?_) (fun _ => ?_)
      | refine Keeps.ite (fun _ => ?_) (fun _ => ?_)
    | (extract_lets +onlyGivenNames x; apply Keeps.cut (t := x) <;> [subst x; (intro _; clear_value x)])
    | (extract_lets +onlyGivenNames x; subst x)
    | dsimp -zeta only
    | split
    | dsimp only

theorem execSafeXinReturn_keeps {s0 : State} {s : State}  (h : Keeps s0 s) : OutKeeps s0 (execSafeXinReturn s) := by
  unfold execSafeXinReturn
  repeat' first
    | with_reducible first
      | assumption | apply State.setBit_keeps | apply OutKeeps.next
    | dsimp -zeta only
    | dsimp only

theorem execLockstepMismatch_keeps {s0 : State} {pair : Fin 6} {point : Fin 4} {bit : Fin 2048} {pc : BitVec 32} {s : State}  (h : Keeps s0 s) : OutKeeps s0 (execLockstepMismatch pair point bit pc s) := by
  unfold execLockstepMismatch
  repeat' first
    | with_reducible first
      | assumption | apply State.mismatch_keeps | apply OutKeeps.next
    | dsimp -zeta only
    | dsimp only

theorem execPairRetestDone_keeps {s0 : State} {pair : Fin 6} {pass : Bool} {s : State}  (h : Keeps s0 s) : OutKeeps s0 (execPairRetestDone pair pass s) := by
  unfold execPairRetestDone
  repeat' first
    | with_reducible first
      | assumption | apply State.orWord_keeps | apply State.fault_keeps | apply State.setPair_keeps
      | apply State.attachNow_keeps | apply OutKeeps.next | fail_if_no_progress apply Keeps.mk_
      | refine OutKeeps.ite (fun _ => ?_) (fun _ => ?_) | refine Keeps.ite (fun _ => ?_) (fun _ => ?_)
    | (extract_lets +onlyGivenNames x; apply Keeps.cut (t := x) <;> [subst x; (intro _; clear_value x)])
    | (extract_lets +onlyGivenNames x; subst x)
    | dsimp -zeta only
    | split
    | dsimp only

theorem execRetest_keeps {s0 : State} {m : Master} {pair : Fin 6} {s : State}  (h : Keeps s0 s) : OutKeeps s0 (execRetest m pair s) := by
  unfold execRetest
  repeat' first
    | with_reducible first
      | assumption | apply State.refuse_keeps | apply State.respOk_keeps | apply State.setPair_keeps | apply OutKeeps.next
      | refine OutKeeps.ite (fun _ => ?_) (fun _ => ?_) | refine Keeps.ite (fun _ => ?_) (fun _ => ?_)
    | (extract_lets +onlyGivenNames x; apply Keeps.cut (t := x) <;> [subst x; (intro _; clear_value x)])
    | (extract_lets +onlyGivenNames x; subst x)
    | dsimp -zeta only
    | split
    | dsimp only

theorem execInputVote_keeps {s0 : State} {pair : Fin 6} {input : BitVec 16} {rounds : List (Bool × Bool)} {s : State}  (h : Keeps s0 s) : OutKeeps s0 (execInputVote pair input rounds s) := by
  unfold execInputVote
  repeat' first
    | with_reducible first
      | assumption | apply State.bump_keeps | apply State.emit_keeps | apply State.orWord_keeps | apply State.fault_keeps
      | apply OutKeeps.next | refine Keeps.of_fst (by assumption) ?_
    | (extract_lets +onlyGivenNames x; apply Keeps.cut (t := x) <;> [subst x; (intro _; clear_value x)])
    | (extract_lets +onlyGivenNames x; subst x)
    | dsimp -zeta only
    | split
    | dsimp only

theorem execStartupTest_keeps {s0 : State} {s : State}  (h : Keeps s0 s) : OutKeeps s0 (execStartupTest s) := by
  unfold execStartupTest
  repeat' first
    | with_reducible first
      | assumption | apply State.clearMem_keeps | apply State.setBit_keeps | apply State.setWord_keeps
      | apply State.store_keeps | apply State.setPair_keeps | apply OutKeeps.next | apply foldl_keeps | apply foldl_keeps_fst
      | intro _ | fail_if_no_progress apply Keeps.mk_ | refine OutKeeps.ite (fun _ => ?_) (fun _ => ?_)
      | refine Keeps.ite (fun _ => ?_) (fun _ => ?_)
    | (extract_lets +onlyGivenNames x; apply Keeps.cut (t := x) <;> [subst x; (intro _; clear_value x)])
    | (extract_lets +onlyGivenNames x; subst x)
    | dsimp -zeta only
    | split
    | dsimp only

theorem State.bootPower_keeps {s0 : State} {s : State}  (h : Keeps s0 s) : Keeps s0 (State.bootPower s) := by
  unfold State.bootPower
  repeat' first
    | with_reducible first
      | assumption | apply State.fault_keeps | apply State.setFld_keeps | apply State.emit_keeps | apply State.setBit_keeps
      | apply foldl_keeps | apply foldl_keeps_fst | intro _ | fail_if_no_progress apply Keeps.mk_
      | refine Keeps.ite (fun _ => ?_) (fun _ => ?_)
    | (extract_lets +onlyGivenNames x; apply Keeps.cut (t := x) <;> [subst x; (intro _; clear_value x)])
    | (extract_lets +onlyGivenNames x; subst x)
    | dsimp -zeta only
    | split
    | dsimp only

theorem execDebugSplit_keeps {s0 : State} {pair : Fin 6} {s : State}  (h : Keeps s0 s) : OutKeeps s0 (execDebugSplit pair s) := by
  unfold execDebugSplit
  repeat' first
    | with_reducible first
      | assumption | apply State.attach_keeps | apply OutKeeps.next
    | dsimp -zeta only
    | dsimp only

theorem execClassDExit_keeps {s0 : State} {s : State}  (h : Keeps s0 s) : OutKeeps s0 (execClassDExit s) := by
  unfold execClassDExit
  repeat' first
    | with_reducible first
      | assumption | apply State.timeTo_keeps | apply State.updateFc_keeps | apply State.orWord_keeps
      | apply State.bumpSat_keeps | apply State.setBit_keeps | apply OutKeeps.next
      | refine OutKeeps.ite (fun _ => ?_) (fun _ => ?_) | refine Keeps.ite (fun _ => ?_) (fun _ => ?_)
    | (extract_lets +onlyGivenNames x; apply Keeps.cut (t := x) <;> [subst x; (intro _; clear_value x)])
    | (extract_lets +onlyGivenNames x; subst x)
    | dsimp -zeta only
    | split
    | dsimp only

theorem State.sExit_keeps {s0 : State} {s : State}  (h : Keeps s0 s) : Keeps s0 (State.sExit s) := by
  unfold State.sExit
  repeat' first
    | with_reducible first
      | assumption | apply State.fault_keeps | apply State.setFld_keeps | apply State.setBit_keeps | apply State.orWord_keeps
      | apply State.bump_keeps | apply State.heelRelease_keeps | apply State.emit_keeps | apply State.updateFc_keeps
      | fail_if_no_progress apply Keeps.mk_ | refine Keeps.ite (fun _ => ?_) (fun _ => ?_)
    | (extract_lets +onlyGivenNames x; apply Keeps.cut (t := x) <;> [subst x; (intro _; clear_value x)])
    | (extract_lets +onlyGivenNames x; subst x)
    | dsimp -zeta only
    | split
    | dsimp only

theorem execClassSExit_keeps {s0 : State} {s : State}  (h : Keeps s0 s) : OutKeeps s0 (execClassSExit s) := by
  unfold execClassSExit
  repeat' first
    | with_reducible first
      | assumption | apply State.sExit_keeps | apply State.timeTo_keeps | apply OutKeeps.next
      | refine OutKeeps.ite (fun _ => ?_) (fun _ => ?_) | refine Keeps.ite (fun _ => ?_) (fun _ => ?_)
    | dsimp -zeta only
    | split
    | dsimp only

theorem State.sExitWrite_keeps {s0 : State} {s : State}  (h : Keeps s0 s) : Keeps s0 (State.sExitWrite s) := by
  unfold State.sExitWrite
  repeat' first
    | with_reducible first
      | assumption | apply State.setBit_keeps | apply State.sExit_keeps | refine Keeps.ite (fun _ => ?_) (fun _ => ?_)
    | dsimp -zeta only
    | split
    | dsimp only

theorem execSExit_keeps {s0 : State} {m : Master} {s : State}  (h : Keeps s0 s) : OutKeeps s0 (execSExit m s) := by
  unfold execSExit
  repeat' first
    | with_reducible first
      | assumption | apply State.respOk_keeps | apply State.sExitWrite_keeps | apply State.refuse_keeps | apply OutKeeps.next
      | refine OutKeeps.ite (fun _ => ?_) (fun _ => ?_) | refine Keeps.ite (fun _ => ?_) (fun _ => ?_)
    | dsimp -zeta only
    | split
    | dsimp only

theorem State.aliveStart_keeps {s0 : State} {s : State}  (h : Keeps s0 s) : Keeps s0 (State.aliveStart s) := by
  unfold State.aliveStart
  repeat' first
    | with_reducible first
      | assumption | apply State.setBit_keeps | apply State.emit_keeps | fail_if_no_progress apply Keeps.mk_
      | refine Keeps.ite (fun _ => ?_) (fun _ => ?_)
    | (extract_lets +onlyGivenNames x; apply Keeps.cut (t := x) <;> [subst x; (intro _; clear_value x)])
    | (extract_lets +onlyGivenNames x; subst x)
    | dsimp -zeta only
    | split
    | dsimp only

theorem execAliveStart_keeps {s0 : State} {m : Master} {s : State}  (h : Keeps s0 s) : OutKeeps s0 (execAliveStart m s) := by
  unfold execAliveStart
  repeat' first
    | with_reducible first
      | assumption | apply State.respOk_keeps | apply State.aliveStart_keeps | apply State.refuse_keeps | apply OutKeeps.next
      | refine OutKeeps.ite (fun _ => ?_) (fun _ => ?_) | refine Keeps.ite (fun _ => ?_) (fun _ => ?_)
    | dsimp -zeta only
    | split
    | dsimp only

theorem execAliveEdge_keeps {s0 : State} {s : State}  (h : Keeps s0 s) : OutKeeps s0 (execAliveEdge s) := by
  unfold execAliveEdge
  repeat' first
    | with_reducible first
      | assumption | apply State.emit_keeps | apply OutKeeps.next | fail_if_no_progress apply Keeps.mk_
      | refine OutKeeps.ite (fun _ => ?_) (fun _ => ?_) | refine Keeps.ite (fun _ => ?_) (fun _ => ?_)
    | (extract_lets +onlyGivenNames x; apply Keeps.cut (t := x) <;> [subst x; (intro _; clear_value x)])
    | (extract_lets +onlyGivenNames x; subst x)
    | dsimp -zeta only
    | split
    | dsimp only

theorem execFcHoldExpire_keeps {s0 : State} {s : State}  (h : Keeps s0 s) : OutKeeps s0 (execFcHoldExpire s) := by
  unfold execFcHoldExpire
  repeat' first
    | with_reducible first
      | assumption | apply State.updateFc_keeps | apply State.timeTo_keeps | apply OutKeeps.next
      | refine OutKeeps.ite (fun _ => ?_) (fun _ => ?_) | refine Keeps.ite (fun _ => ?_) (fun _ => ?_)
    | dsimp -zeta only
    | split
    | dsimp only

theorem execKick_keeps {s0 : State} {m : Master} {s : State}  (h : Keeps s0 s) : OutKeeps s0 (execKick m s) := by
  unfold execKick
  repeat' first
    | with_reducible first
      | assumption | apply State.respOk_keeps | apply State.refuse_keeps | apply OutKeeps.next
      | fail_if_no_progress apply Keeps.mk_ | refine OutKeeps.ite (fun _ => ?_) (fun _ => ?_)
      | refine Keeps.ite (fun _ => ?_) (fun _ => ?_)
    | (extract_lets +onlyGivenNames x; apply Keeps.cut (t := x) <;> [subst x; (intro _; clear_value x)])
    | (extract_lets +onlyGivenNames x; subst x)
    | dsimp -zeta only
    | split
    | dsimp only

theorem execIslandWatchdogExpire_keeps {s0 : State} {s : State}  (h : Keeps s0 s) : OutKeeps s0 (execIslandWatchdogExpire s) := by
  unfold execIslandWatchdogExpire
  repeat' first
    | with_reducible first
      | assumption | apply State.timeTo_keeps | apply State.faultEv_keeps | apply OutKeeps.next
      | fail_if_no_progress apply Keeps.mk_ | refine OutKeeps.ite (fun _ => ?_) (fun _ => ?_)
      | refine Keeps.ite (fun _ => ?_) (fun _ => ?_)
    | (extract_lets +onlyGivenNames x; apply Keeps.cut (t := x) <;> [subst x; (intro _; clear_value x)])
    | (extract_lets +onlyGivenNames x; subst x)
    | dsimp -zeta only
    | split
    | dsimp only

theorem execFwpHeartbeat_keeps {s0 : State} {m : Master} {s : State}  (h : Keeps s0 s) : OutKeeps s0 (execFwpHeartbeat m s) := by
  unfold execFwpHeartbeat
  repeat' first
    | with_reducible first
      | assumption | apply State.respOk_keeps | apply State.refuse_keeps | apply OutKeeps.next
      | fail_if_no_progress apply Keeps.mk_ | refine OutKeeps.ite (fun _ => ?_) (fun _ => ?_)
      | refine Keeps.ite (fun _ => ?_) (fun _ => ?_)
    | (extract_lets +onlyGivenNames x; apply Keeps.cut (t := x) <;> [subst x; (intro _; clear_value x)])
    | (extract_lets +onlyGivenNames x; subst x)
    | dsimp -zeta only
    | split
    | dsimp only

theorem execSwReport_keeps {s0 : State} {m : Master} {data : BitVec 64} {s : State}  (h : Keeps s0 s) : OutKeeps s0 (execSwReport m data s) := by
  unfold execSwReport
  repeat' first
    | with_reducible first
      | assumption | apply State.refuse_keeps | apply State.ignoreWr_keeps | apply State.respOk_keeps
      | apply State.faultAt_keeps | apply OutKeeps.next | refine OutKeeps.ite (fun _ => ?_) (fun _ => ?_)
      | refine Keeps.ite (fun _ => ?_) (fun _ => ?_)
    | (extract_lets +onlyGivenNames x; apply Keeps.cut (t := x) <;> [subst x; (intro _; clear_value x)])
    | (extract_lets +onlyGivenNames x; subst x)
    | dsimp -zeta only
    | split
    | dsimp only

theorem State.clrFirst_keeps {s0 : State} {s : State}  (h : Keeps s0 s) : Keeps s0 (State.clrFirst s) := by
  unfold State.clrFirst
  repeat' first
    | with_reducible first
      | assumption | apply State.setBit_keeps | apply foldl_keeps | apply foldl_keeps_fst | intro _
    | dsimp -zeta only
    | dsimp only

theorem execClrFirst_keeps {s0 : State} {m : Master} {s : State}  (h : Keeps s0 s) : OutKeeps s0 (execClrFirst m s) := by
  unfold execClrFirst
  repeat' first
    | with_reducible first
      | assumption | apply State.respOk_keeps | apply State.clrFirst_keeps | apply State.refuse_keeps | apply OutKeeps.next
      | refine OutKeeps.ite (fun _ => ?_) (fun _ => ?_) | refine Keeps.ite (fun _ => ?_) (fun _ => ?_)
    | dsimp -zeta only
    | split
    | dsimp only

theorem execAlarmTailWrite_keeps {s0 : State} {m : Master} {v : BitVec 9} {s : State}  (h : Keeps s0 s) : OutKeeps s0 (execAlarmTailWrite m v s) := by
  unfold execAlarmTailWrite
  repeat' first
    | with_reducible first
      | assumption | apply State.refuse_keeps | apply State.respOk_keeps | apply State.foldSummary_keeps
      | apply State.setWord_keeps | apply OutKeeps.next | refine OutKeeps.ite (fun _ => ?_) (fun _ => ?_)
      | refine Keeps.ite (fun _ => ?_) (fun _ => ?_)
    | dsimp -zeta only
    | split
    | dsimp only

theorem State.awlRecord_keeps {s0 : State} {s : State} {info : Nat}  (h : Keeps s0 s) : Keeps s0 (State.awlRecord s info) := by
  unfold State.awlRecord
  repeat' first
    | with_reducible first
      | assumption | apply State.fault_keeps | refine Keeps.ite (fun _ => ?_) (fun _ => ?_)
    | dsimp -zeta only
    | split
    | dsimp only

theorem State.awlBad_keeps {s0 : State} {s : State} {m : Master}  (h : Keeps s0 s) : Keeps s0 (State.awlBad s m) := by
  unfold State.awlBad
  repeat' first
    | with_reducible first
      | assumption | apply State.fault_keeps | apply State.setBit_keeps | fail_if_no_progress apply Keeps.mk_
    | (extract_lets +onlyGivenNames x; apply Keeps.cut (t := x) <;> [subst x; (intro _; clear_value x)])
    | (extract_lets +onlyGivenNames x; subst x)
    | dsimp -zeta only
    | dsimp only

theorem execAwlUnlock_keeps {s0 : State} {m : Master} {data : BitVec 32} {s : State}  (h : Keeps s0 s) : OutKeeps s0 (execAwlUnlock m data s) := by
  unfold execAwlUnlock
  repeat' first
    | with_reducible first
      | assumption | apply State.refuse_keeps | apply State.awlBad_keeps | apply State.respOk_keeps
      | apply State.awlRecord_keeps | apply State.setBit_keeps | apply OutKeeps.next | fail_if_no_progress apply Keeps.mk_
      | refine Keeps.of_fst (by assumption) ?_ | refine OutKeeps.ite (fun _ => ?_) (fun _ => ?_)
      | refine Keeps.ite (fun _ => ?_) (fun _ => ?_)
    | (extract_lets +onlyGivenNames x; apply Keeps.cut (t := x) <;> [subst x; (intro _; clear_value x)])
    | (extract_lets +onlyGivenNames x; subst x)
    | dsimp -zeta only
    | split
    | dsimp only

theorem execAwlUnlockTimeout_keeps {s0 : State} {s : State}  (h : Keeps s0 s) : OutKeeps s0 (execAwlUnlockTimeout s) := by
  unfold execAwlUnlockTimeout
  repeat' first
    | with_reducible first
      | assumption | apply State.setBit_keeps | apply State.timeTo_keeps | apply OutKeeps.next
      | refine OutKeeps.ite (fun _ => ?_) (fun _ => ?_) | refine Keeps.ite (fun _ => ?_) (fun _ => ?_)
    | dsimp -zeta only
    | split
    | dsimp only

theorem execGo_keeps {s0 : State} {m : Master} {data : BitVec 32} {s : State}  (h : Keeps s0 s) : OutKeeps s0 (execGo m data s) := by
  unfold execGo
  repeat' first
    | with_reducible first
      | assumption | apply State.refuse_keeps | apply State.setFld_keeps | apply State.respOk_keeps | apply State.setBit_keeps
      | apply State.awlRecord_keeps | apply OutKeeps.next | fail_if_no_progress apply Keeps.mk_
      | refine OutKeeps.ite (fun _ => ?_) (fun _ => ?_) | refine Keeps.ite (fun _ => ?_) (fun _ => ?_)
    | (extract_lets +onlyGivenNames x; apply Keeps.cut (t := x) <;> [subst x; (intro _; clear_value x)])
    | (extract_lets +onlyGivenNames x; subst x)
    | dsimp -zeta only
    | split
    | dsimp only

theorem State.awlEnd_keeps {s0 : State} {s : State}  (h : Keeps s0 s) : Keeps s0 (State.awlEnd s) := by
  unfold State.awlEnd
  repeat' first
    | with_reducible first
      | assumption | apply State.setBit_keeps | apply State.setFld_keeps
    | dsimp -zeta only
    | dsimp only

theorem State.awlPerformed_keeps {s0 : State} {s : State}  (h : Keeps s0 s) : Keeps s0 (State.awlPerformed s) := by
  unfold State.awlPerformed
  repeat' first
    | with_reducible first
      | assumption | apply State.awlRecord_keeps | apply State.bump_keeps | apply State.setFld_keeps
      | apply State.awlEnd_keeps | refine Keeps.ite (fun _ => ?_) (fun _ => ?_)
    | (extract_lets +onlyGivenNames x; apply Keeps.cut (t := x) <;> [subst x; (intro _; clear_value x)])
    | (extract_lets +onlyGivenNames x; subst x)
    | dsimp -zeta only
    | split
    | dsimp only

theorem execAwlRunTimeout_keeps {s0 : State} {s : State}  (h : Keeps s0 s) : OutKeeps s0 (execAwlRunTimeout s) := by
  unfold execAwlRunTimeout
  repeat' first
    | with_reducible first
      | assumption | apply State.awlEnd_keeps | apply State.timeTo_keeps | apply OutKeeps.next
      | refine OutKeeps.ite (fun _ => ?_) (fun _ => ?_) | refine Keeps.ite (fun _ => ?_) (fun _ => ?_)
    | dsimp -zeta only
    | split
    | dsimp only

theorem execFaultEvent_keeps {s0 : State} {rail : BitVec 2} {src : Fin 64} {cls : Fin 8} {access : Fin 8} {m : Master} {unit : BitVec 16} {info : BitVec 32} {addr : BitVec 64} {s : State}  (h : Keeps s0 s) : OutKeeps s0 (execFaultEvent rail src cls access m unit info addr s) := by
  unfold execFaultEvent
  repeat' first
    | with_reducible first
      | assumption | apply State.setBit_keeps | apply State.faultEv_keeps | apply State.fault_keeps | apply OutKeeps.next
      | refine OutKeeps.ite (fun _ => ?_) (fun _ => ?_) | refine Keeps.ite (fun _ => ?_) (fun _ => ?_)
    | (extract_lets +onlyGivenNames x; apply Keeps.cut (t := x) <;> [subst x; (intro _; clear_value x)])
    | (extract_lets +onlyGivenNames x; subst x)
    | dsimp -zeta only
    | split
    | dsimp only

end Sys2Proof.Machine
end

