-- ==== Sys2Proof/Laws/KeepsCellBase.lean ====
section
/-! SUPPORT. What Machine/CellBase.lean keeps. -/

namespace Sys2Proof.Machine

set_option linter.unusedTactic false
set_option linter.unreachableTactic false

theorem State.setCell_keeps {s0 : State} {s : State} {c : Nat} {b3 : CellS}  (h : Keeps s0 s) : Keeps s0 (State.setCell s c b3) := by
  unfold State.setCell
  repeat' first
    | with_reducible first
      | assumption | fail_if_no_progress apply Keeps.mk_
    | (extract_lets +onlyGivenNames x; apply Keeps.cut (t := x) <;> [subst x; (intro _; clear_value x)])
    | (extract_lets +onlyGivenNames x; subst x)
    | dsimp -zeta only
    | dsimp only

theorem State.modCell_keeps {s0 : State} {s : State} {c : Nat} {f : CellS → CellS}  (h : Keeps s0 s) : Keeps s0 (State.modCell s c f) := by
  unfold State.modCell
  repeat' first
    | with_reducible first
      | assumption | apply State.setCell_keeps
    | dsimp -zeta only
    | dsimp only

theorem State.setGroup_keeps {s0 : State} {s : State} {c : Nat} {g : Nat} {q : CGroup}  (h : Keeps s0 s) : Keeps s0 (State.setGroup s c g q) := by
  unfold State.setGroup
  repeat' first
    | with_reducible first
      | assumption | apply State.modCell_keeps
    | dsimp -zeta only
    | dsimp only

theorem State.showLive_keeps {s0 : State} {s : State} {c : Nat}  (h : Keeps s0 s) : Keeps s0 (State.showLive s c) := by
  unfold State.showLive
  repeat' first
    | with_reducible first
      | assumption | apply State.setFld_keeps
    | dsimp -zeta only
    | dsimp only

theorem State.enter_keeps {s0 : State} {s : State} {c : Nat} {st : Nat}  (h : Keeps s0 s) : Keeps s0 (State.enter s c st) := by
  unfold State.enter
  repeat' first
    | with_reducible first
      | assumption | apply State.setWord64_keeps | apply State.modCell_keeps | apply State.setFld_keeps
      | refine Keeps.ite (fun _ => ?_) (fun _ => ?_)
    | (extract_lets +onlyGivenNames x; apply Keeps.cut (t := x) <;> [subst x; (intro _; clear_value x)])
    | (extract_lets +onlyGivenNames x; subst x)
    | dsimp -zeta only
    | split
    | dsimp only

theorem State.cellErr_keeps {s0 : State} {s : State} {c : Nat} {bit : Nat}  (h : Keeps s0 s) : Keeps s0 (State.cellErr s c bit) := by
  unfold State.cellErr
  repeat' first
    | with_reducible first
      | assumption | apply State.orWord_keeps | apply State.setBit_keeps
    | dsimp -zeta only
    | dsimp only

theorem State.report_keeps {s0 : State} {s : State} {c : Nat} {status : Nat}  (h : Keeps s0 s) : Keeps s0 (State.report s c status) := by
  unfold State.report
  repeat' first
    | with_reducible first
      | assumption | fail_if_no_progress apply Keeps.mk_
    | (extract_lets +onlyGivenNames x; apply Keeps.cut (t := x) <;> [subst x; (intro _; clear_value x)])
    | (extract_lets +onlyGivenNames x; subst x)
    | dsimp -zeta only
    | dsimp only

theorem State.setChan_keeps {s0 : State} {s : State} {k : Nat} {b3 : LaceChan}  (h : Keeps s0 s) : Keeps s0 (State.setChan s k b3) := by
  unfold State.setChan
  repeat' first
    | with_reducible first
      | assumption | fail_if_no_progress apply Keeps.mk_
    | (extract_lets +onlyGivenNames x; apply Keeps.cut (t := x) <;> [subst x; (intro _; clear_value x)])
    | (extract_lets +onlyGivenNames x; subst x)
    | dsimp -zeta only
    | dsimp only

theorem State.afterDrain_keeps {s0 : State} {s : State} {c : Nat}  (h : Keeps s0 s) : Keeps s0 (State.afterDrain s c) := by
  unfold State.afterDrain
  repeat' first
    | with_reducible first
      | assumption | apply State.enter_keeps | apply State.report_keeps | apply State.modCell_keeps
      | refine Keeps.of_fst (by assumption) ?_ | refine Keeps.ite (fun _ => ?_) (fun _ => ?_)
    | dsimp -zeta only
    | split
    | dsimp only

theorem State.drainFor_keeps {s0 : State} {s : State} {c : Nat} {why : Nat}  (h : Keeps s0 s) : Keeps s0 (State.drainFor s c why) := by
  unfold State.drainFor
  repeat' first
    | with_reducible first
      | assumption | apply State.enter_keeps | apply State.modCell_keeps
    | dsimp -zeta only
    | dsimp only

theorem State.capture__keeps {s0 : State} {s : State} {c : Nat} {g : Nat} {pc : Nat} {word : Nat} {b6 : Exc} {async : Bool}  (h : Keeps s0 s) : Keeps s0 (State.capture_ s c g pc word b6 async) := by
  unfold State.capture_
  repeat' first
    | with_reducible first
      | assumption | apply State.bump_keeps | apply State.setWord64_keeps | apply State.setWord_keeps
      | apply State.orWord_keeps | apply State.faultAt_keeps | refine Keeps.ite (fun _ => ?_) (fun _ => ?_)
    | (extract_lets +onlyGivenNames x; apply Keeps.cut (t := x) <;> [subst x; (intro _; clear_value x)])
    | (extract_lets +onlyGivenNames x; subst x)
    | dsimp -zeta only
    | split
    | dsimp only

theorem State.stopForExc_keeps {s0 : State} {s : State} {c : Nat}  (h : Keeps s0 s) : Keeps s0 (State.stopForExc s c) := by
  unfold State.stopForExc
  repeat' first
    | with_reducible first
      | assumption | apply State.drainFor_keeps | refine Keeps.ite (fun _ => ?_) (fun _ => ?_)
    | (extract_lets +onlyGivenNames x; apply Keeps.cut (t := x) <;> [subst x; (intro _; clear_value x)])
    | (extract_lets +onlyGivenNames x; subst x)
    | dsimp -zeta only
    | split
    | dsimp only

theorem State.syncExc_keeps {s0 : State} {s : State} {c : Nat} {g : Nat} {word : Nat} {b5 : Exc}  (h : Keeps s0 s) : Keeps s0 (State.syncExc s c g word b5) := by
  unfold State.syncExc
  repeat' first
    | with_reducible first
      | assumption | apply State.stopForExc_keeps | apply State.capture__keeps
    | dsimp -zeta only
    | dsimp only

theorem State.asyncExc_keeps {s0 : State} {s : State} {c : Nat} {b3 : CellExc}  (h : Keeps s0 s) : Keeps s0 (State.asyncExc s c b3) := by
  unfold State.asyncExc
  repeat' first
    | with_reducible first
      | assumption | apply State.stopForExc_keeps | apply State.capture__keeps
    | dsimp -zeta only
    | dsimp only

theorem State.pendExc_keeps {s0 : State} {s : State} {c : Nat} {b3 : CellExc}  (h : Keeps s0 s) : Keeps s0 (State.pendExc s c b3) := by
  unfold State.pendExc
  repeat' first
    | with_reducible first
      | assumption | apply State.modCell_keeps
    | dsimp -zeta only
    | dsimp only

theorem State.raiseFlags_keeps {s0 : State} {s : State} {c : Nat} {g : Nat} {fl : Nat}  (h : Keeps s0 s) : Keeps s0 (State.raiseFlags s c g fl) := by
  unfold State.raiseFlags
  repeat' first
    | with_reducible first
      | assumption | apply State.orWord_keeps | refine Keeps.ite (fun _ => ?_) (fun _ => ?_)
    | dsimp -zeta only
    | split
    | dsimp only

theorem State.issue_keeps {s0 : State} {s : State} {c : Nat} {g : Nat} {want : Nat → Bool} {f : Ctx → CGroup → Nat → Except Exc (CGroup × Nat)}  (h : Keeps s0 s) : Keeps s0 (State.issue s c g want f) := by
  unfold State.issue
  repeat' first
    | with_reducible first
      | assumption | apply State.syncExc_keeps | apply State.raiseFlags_keeps | apply State.setGroup_keeps
      | fail_if_no_progress apply Keeps.mk_ | refine Keeps.of_fst (by assumption) ?_
    | (extract_lets +onlyGivenNames x; apply Keeps.cut (t := x) <;> [subst x; (intro _; clear_value x)])
    | (extract_lets +onlyGivenNames x; subst x)
    | dsimp -zeta only
    | split
    | dsimp only

end Sys2Proof.Machine
end

