-- ==== Sys2Proof/Laws/KeepsPhxAxis.lean ====
section
/-! SUPPORT. What Machine/PhxAxis.lean keeps. -/

namespace Sys2Proof.Machine

set_option linter.unusedTactic false
set_option linter.unreachableTactic false

theorem State.modAxis_keeps {s0 : State} {s : State} {n : Nat} {f : AxisS → AxisS}  (h : Keeps s0 s) : Keeps s0 (State.modAxis s n f) := by
  unfold State.modAxis
  repeat' first
    | with_reducible first
      | assumption | fail_if_no_progress apply Keeps.mk_
    | (extract_lets +onlyGivenNames x; apply Keeps.cut (t := x) <;> [subst x; (intro _; clear_value x)])
    | (extract_lets +onlyGivenNames x; subst x)
    | dsimp -zeta only
    | dsimp only

theorem State.markSteps_keeps {s0 : State} {s : State} {n : Nat} {a : Nat} {b : Nat}  (h : Keeps s0 s) : Keeps s0 (State.markSteps s n a b) := by
  unfold State.markSteps
  repeat' first
    | with_reducible first
      | assumption | apply State.orWord_keeps | fail_if_no_progress apply Keeps.mk_
      | refine Keeps.ite (fun _ => ?_) (fun _ => ?_)
    | (extract_lets +onlyGivenNames x; apply Keeps.cut (t := x) <;> [subst x; (intro _; clear_value x)])
    | (extract_lets +onlyGivenNames x; subst x)
    | dsimp -zeta only
    | split
    | dsimp only

theorem State.setAxis_keeps {s0 : State} {s : State} {n : Nat} {v : Nat} {disc : Bool}  (h : Keeps s0 s) : Keeps s0 (State.setAxis s n v disc) := by
  unfold State.setAxis
  repeat' first
    | with_reducible first
      | assumption | apply State.setWord64_keeps | apply State.markSteps_keeps | apply State.setBit_keeps
      | refine Keeps.ite (fun _ => ?_) (fun _ => ?_)
    | (extract_lets +onlyGivenNames x; apply Keeps.cut (t := x) <;> [subst x; (intro _; clear_value x)])
    | (extract_lets +onlyGivenNames x; subst x)
    | dsimp -zeta only
    | split
    | dsimp only

theorem State.axUpdate_keeps {s0 : State} {s : State} {n : Nat}  (h : Keeps s0 s) : Keeps s0 (State.axUpdate s n) := by
  unfold State.axUpdate
  repeat' first
    | with_reducible first
      | assumption | apply State.modAxis_keeps | apply State.bump_keeps | apply State.setBit_keeps
      | refine Keeps.ite (fun _ => ?_) (fun _ => ?_)
    | (extract_lets +onlyGivenNames x; apply Keeps.cut (t := x) <;> [subst x; (intro _; clear_value x)])
    | (extract_lets +onlyGivenNames x; subst x)
    | dsimp -zeta only
    | split
    | dsimp only

theorem State.axAnomaly_keeps {s0 : State} {s : State} {n : Nat} {bit : Nat}  (h : Keeps s0 s) : Keeps s0 (State.axAnomaly s n bit) := by
  unfold State.axAnomaly
  repeat' first
    | with_reducible first
      | assumption | apply State.orWord_keeps | apply State.setBit_keeps
    | dsimp -zeta only
    | dsimp only

theorem State.axBackstep_keeps {s0 : State} {s : State} {n : Nat}  (h : Keeps s0 s) : Keeps s0 (State.axBackstep s n) := by
  unfold State.axBackstep
  repeat' first
    | with_reducible first
      | assumption | apply State.bumpSat_keeps | apply State.axAnomaly_keeps
    | dsimp -zeta only
    | dsimp only

theorem State.axJump_keeps {s0 : State} {s : State} {n : Nat}  (h : Keeps s0 s) : Keeps s0 (State.axJump s n) := by
  unfold State.axJump
  repeat' first
    | with_reducible first
      | assumption | apply State.bumpSat_keeps | apply State.axAnomaly_keeps
    | dsimp -zeta only
    | dsimp only

theorem State.timeFollow_keeps {s0 : State} {s : State} {n : Nat} {disc : Bool}  (h : Keeps s0 s) : Keeps s0 (State.timeFollow s n disc) := by
  unfold State.timeFollow
  repeat' first
    | with_reducible first
      | assumption | apply State.setAxis_keeps | apply State.axUpdate_keeps
    | dsimp -zeta only
    | dsimp only

theorem State.timeAxes_keeps {s0 : State} {s : State} {c : Nat} {disc : Bool}  (h : Keeps s0 s) : Keeps s0 (State.timeAxes s c disc) := by
  unfold State.timeAxes
  repeat' first
    | with_reducible first
      | assumption | apply State.timeFollow_keeps | apply foldl_keeps | apply foldl_keeps_fst | intro _
      | refine Keeps.ite (fun _ => ?_) (fun _ => ?_)
    | dsimp -zeta only
    | split
    | dsimp only

theorem State.angleSample_keeps {s0 : State} {s : State} {n : Nat} {a : Nat}  (h : Keeps s0 s) : Keeps s0 (State.angleSample s n a) := by
  unfold State.angleSample
  repeat' first
    | with_reducible first
      | assumption | apply State.axUpdate_keeps | apply State.axBackstep_keeps | apply State.setAxis_keeps
      | apply State.axJump_keeps | refine Keeps.ite (fun _ => ?_) (fun _ => ?_)
    | (extract_lets +onlyGivenNames x; apply Keeps.cut (t := x) <;> [subst x; (intro _; clear_value x)])
    | (extract_lets +onlyGivenNames x; subst x)
    | dsimp -zeta only
    | split
    | dsimp only

theorem State.setBacklog_keeps {s0 : State} {s : State} {n : Nat} {b : Nat}  (h : Keeps s0 s) : Keeps s0 (State.setBacklog s n b) := by
  unfold State.setBacklog
  repeat' first
    | with_reducible first
      | assumption | apply State.setWord_keeps | apply State.modAxis_keeps
    | (extract_lets +onlyGivenNames x; apply Keeps.cut (t := x) <;> [subst x; (intro _; clear_value x)])
    | (extract_lets +onlyGivenNames x; subst x)
    | dsimp -zeta only
    | dsimp only

theorem State.addBacklog_keeps {s0 : State} {s : State} {n : Nat} {d : Nat}  (h : Keeps s0 s) : Keeps s0 (State.addBacklog s n d) := by
  unfold State.addBacklog
  repeat' first
    | with_reducible first
      | assumption | apply State.setBacklog_keeps | apply State.axBackstep_keeps
      | refine Keeps.ite (fun _ => ?_) (fun _ => ?_)
    | (extract_lets +onlyGivenNames x; apply Keeps.cut (t := x) <;> [subst x; (intro _; clear_value x)])
    | (extract_lets +onlyGivenNames x; subst x)
    | dsimp -zeta only
    | split
    | dsimp only

theorem State.angleForward_keeps {s0 : State} {s : State} {n : Nat}  (h : Keeps s0 s) : Keeps s0 (State.angleForward s n) := by
  unfold State.angleForward
  repeat' first
    | with_reducible first
      | assumption | apply State.setAxis_keeps | apply State.setBacklog_keeps | refine Keeps.ite (fun _ => ?_) (fun _ => ?_)
    | (extract_lets +onlyGivenNames x; apply Keeps.cut (t := x) <;> [subst x; (intro _; clear_value x)])
    | (extract_lets +onlyGivenNames x; subst x)
    | dsimp -zeta only
    | split
    | dsimp only

theorem State.indexEdge_keeps {s0 : State} {s : State} {n : Nat}  (h : Keeps s0 s) : Keeps s0 (State.indexEdge s n) := by
  unfold State.indexEdge
  repeat' first
    | with_reducible first
      | assumption | apply State.axUpdate_keeps | apply State.bumpSat_keeps | apply State.axAnomaly_keeps
      | apply State.setAxis_keeps | apply State.addBacklog_keeps | refine Keeps.ite (fun _ => ?_) (fun _ => ?_)
    | (extract_lets +onlyGivenNames x; apply Keeps.cut (t := x) <;> [subst x; (intro _; clear_value x)])
    | (extract_lets +onlyGivenNames x; subst x)
    | dsimp -zeta only
    | split
    | dsimp only

theorem State.travelAdd_keeps {s0 : State} {s : State} {n : Nat} {k : Int}  (h : Keeps s0 s) : Keeps s0 (State.travelAdd s n k) := by
  unfold State.travelAdd
  repeat' first
    | with_reducible first
      | assumption | apply State.axUpdate_keeps | apply State.axJump_keeps | apply State.setBit_keeps
      | apply State.setAxis_keeps | apply State.modAxis_keeps | refine Keeps.ite (fun _ => ?_) (fun _ => ?_)
    | (extract_lets +onlyGivenNames x; apply Keeps.cut (t := x) <;> [subst x; (intro _; clear_value x)])
    | (extract_lets +onlyGivenNames x; subst x)
    | dsimp -zeta only
    | split
    | dsimp only

theorem State.lineFrameStart_keeps {s0 : State} {s : State} {n : Nat}  (h : Keeps s0 s) : Keeps s0 (State.lineFrameStart s n) := by
  unfold State.lineFrameStart
  repeat' first
    | with_reducible first
      | assumption | apply State.axUpdate_keeps | apply State.setAxis_keeps | apply State.axAnomaly_keeps
      | apply State.modAxis_keeps | refine Keeps.ite (fun _ => ?_) (fun _ => ?_)
    | (extract_lets +onlyGivenNames x; apply Keeps.cut (t := x) <;> [subst x; (intro _; clear_value x)])
    | (extract_lets +onlyGivenNames x; subst x)
    | dsimp -zeta only
    | split
    | dsimp only

theorem State.lineLineStart_keeps {s0 : State} {s : State} {n : Nat} {l : Nat}  (h : Keeps s0 s) : Keeps s0 (State.lineLineStart s n l) := by
  unfold State.lineLineStart
  repeat' first
    | with_reducible first
      | assumption | apply State.axUpdate_keeps | apply State.axAnomaly_keeps | apply State.setAxis_keeps
      | refine Keeps.ite (fun _ => ?_) (fun _ => ?_)
    | (extract_lets +onlyGivenNames x; apply Keeps.cut (t := x) <;> [subst x; (intro _; clear_value x)])
    | (extract_lets +onlyGivenNames x; subst x)
    | dsimp -zeta only
    | split
    | dsimp only

theorem State.lineFrameEnd_keeps {s0 : State} {s : State} {n : Nat}  (h : Keeps s0 s) : Keeps s0 (State.lineFrameEnd s n) := by
  unfold State.lineFrameEnd
  repeat' first
    | with_reducible first
      | assumption | apply State.axUpdate_keeps | apply State.axAnomaly_keeps | apply State.setAxis_keeps
      | apply State.modAxis_keeps | refine Keeps.ite (fun _ => ?_) (fun _ => ?_)
    | (extract_lets +onlyGivenNames x; apply Keeps.cut (t := x) <;> [subst x; (intro _; clear_value x)])
    | (extract_lets +onlyGivenNames x; subst x)
    | dsimp -zeta only
    | split
    | dsimp only

theorem State.travelCan_keeps {s0 : State} {s : State} {ctrl : Nat} {id : Nat} {fmt : Nat} {ide : Bool} {data : List Byte}  (h : Keeps s0 s) : Keeps s0 (State.travelCan s ctrl id fmt ide data) := by
  unfold State.travelCan
  repeat' first
    | with_reducible first
      | assumption | apply State.axAnomaly_keeps | apply State.travelAdd_keeps | apply State.modAxis_keeps
      | apply State.axUpdate_keeps | apply foldl_keeps | apply foldl_keeps_fst | intro _
      | refine Keeps.of_fst (by assumption) ?_ | refine Keeps.ite (fun _ => ?_) (fun _ => ?_)
    | (extract_lets +onlyGivenNames x; apply Keeps.cut (t := x) <;> [subst x; (intro _; clear_value x)])
    | (extract_lets +onlyGivenNames x; subst x)
    | dsimp -zeta only
    | split
    | dsimp only

end Sys2Proof.Machine
end

