-- ==== Sys2Proof/Laws/KeepsPhx.lean ====
section
/-! SUPPORT. What Machine/Phx.lean keeps. -/

namespace Sys2Proof.Machine

set_option linter.unusedTactic false
set_option linter.unreachableTactic false

theorem State.syncEvt_keeps {s0 : State} {s : State}  (h : Keeps s0 s) : Keeps s0 (State.syncEvt s) := by
  unfold State.syncEvt
  repeat' first
    | with_reducible first
      | assumption | apply State.setWord64_keeps
    | dsimp -zeta only
    | dsimp only

theorem State.pushEvt_keeps {s0 : State} {s : State} {kind : Nat} {n : Nat} {late : Nat}  (h : Keeps s0 s) : Keeps s0 (State.pushEvt s kind n late) := by
  unfold State.pushEvt
  repeat' first
    | with_reducible first
      | assumption | apply State.orWord_keeps | apply State.bump_keeps | apply State.syncEvt_keeps
      | fail_if_no_progress apply Keeps.mk_ | refine Keeps.ite (fun _ => ?_) (fun _ => ?_)
    | (extract_lets +onlyGivenNames x; apply Keeps.cut (t := x) <;> [subst x; (intro _; clear_value x)])
    | (extract_lets +onlyGivenNames x; subst x)
    | dsimp -zeta only
    | split
    | dsimp only

theorem State.failEvt_keeps {s0 : State} {s : State} {n : Nat}  (h : Keeps s0 s) : Keeps s0 (State.failEvt s n) := by
  unfold State.failEvt
  repeat' first
    | with_reducible first
      | assumption | apply State.syncEvt_keeps | apply State.pushEvt_keeps | fail_if_no_progress apply Keeps.mk_
      | refine Keeps.of_fst (by assumption) ?_
    | (extract_lets +onlyGivenNames x; apply Keeps.cut (t := x) <;> [subst x; (intro _; clear_value x)])
    | (extract_lets +onlyGivenNames x; subst x)
    | dsimp -zeta only
    | split
    | dsimp only

theorem State.failFlags_keeps {s0 : State} {s : State} {n : Nat} {code : Nat}  (h : Keeps s0 s) : Keeps s0 (State.failFlags s n code) := by
  unfold State.failFlags
  repeat' first
    | with_reducible first
      | assumption | apply State.setFld_keeps | apply State.setBit_keeps | apply State.orWord_keeps | apply State.bump_keeps
    | (extract_lets +onlyGivenNames x; apply Keeps.cut (t := x) <;> [subst x; (intro _; clear_value x)])
    | (extract_lets +onlyGivenNames x; subst x)
    | dsimp -zeta only
    | dsimp only

theorem State.actionFail_keeps {s0 : State} {s : State} {n : Nat} {code : Nat}  (h : Keeps s0 s) : Keeps s0 (State.actionFail s n code) := by
  unfold State.actionFail
  repeat' first
    | with_reducible first
      | assumption | apply State.failEvt_keeps | apply State.failFlags_keeps
    | dsimp -zeta only
    | dsimp only

theorem State.phxEvent_keeps {s0 : State} {s : State} {kind : Nat} {obj : Nat}  (h : Keeps s0 s) : Keeps s0 (State.phxEvent s kind obj) := by
  unfold State.phxEvent
  repeat' first
    | with_reducible first
      | assumption | fail_if_no_progress apply Keeps.mk_ | refine Keeps.of_fst (by assumption) ?_
      | refine Keeps.ite (fun _ => ?_) (fun _ => ?_)
    | (extract_lets +onlyGivenNames x; apply Keeps.cut (t := x) <;> [subst x; (intro _; clear_value x)])
    | (extract_lets +onlyGivenNames x; subst x)
    | dsimp -zeta only
    | split
    | dsimp only

theorem State.disarm_keeps {s0 : State} {s : State} {n : Nat}  (h : Keeps s0 s) : Keeps s0 (State.disarm s n) := by
  unfold State.disarm
  repeat' first
    | with_reducible first
      | assumption | apply State.setBit_keeps | fail_if_no_progress apply Keeps.mk_
    | (extract_lets +onlyGivenNames x; apply Keeps.cut (t := x) <;> [subst x; (intro _; clear_value x)])
    | (extract_lets +onlyGivenNames x; subst x)
    | dsimp -zeta only
    | dsimp only

theorem State.bidirPlace_keeps {s0 : State} {s : State} {n : Nat} {a : Nat}  (h : Keeps s0 s) : Keeps s0 (State.bidirPlace s n a) := by
  unfold State.bidirPlace
  repeat' first
    | with_reducible first
      | assumption | apply State.setWord64_keeps
    | (extract_lets +onlyGivenNames x; apply Keeps.cut (t := x) <;> [subst x; (intro _; clear_value x)])
    | (extract_lets +onlyGivenNames x; subst x)
    | dsimp -zeta only
    | dsimp only

theorem State.armNow_keeps {s0 : State} {s : State} {n : Nat}  (h : Keeps s0 s) : Keeps s0 (State.armNow s n) := by
  unfold State.armNow
  repeat' first
    | with_reducible first
      | assumption | apply State.bidirPlace_keeps | apply State.setBit_keeps | fail_if_no_progress apply Keeps.mk_
      | refine Keeps.ite (fun _ => ?_) (fun _ => ?_)
    | (extract_lets +onlyGivenNames x; apply Keeps.cut (t := x) <;> [subst x; (intro _; clear_value x)])
    | (extract_lets +onlyGivenNames x; subst x)
    | dsimp -zeta only
    | split
    | dsimp only

theorem State.tackRefused_keeps {s0 : State} {s : State} {m : Master} {n : Nat} {addr : Nat}  (h : Keeps s0 s) : Keeps s0 (State.tackRefused s m n addr) := by
  unfold State.tackRefused
  repeat' first
    | with_reducible first
      | assumption | apply State.ignoreWr_keeps | apply State.bump_keeps | apply State.setBit_keeps
    | dsimp -zeta only
    | dsimp only

theorem State.tackCfgWrite_keeps {s0 : State} {s : State} {m : Master} {inst : Option (Fin 64)} {n : Nat} {v : Nat}  (h : Keeps s0 s) : Keeps s0 (State.tackCfgWrite s m inst n v) := by
  unfold State.tackCfgWrite
  repeat' first
    | with_reducible first
      | assumption | apply State.refuse_keeps | apply State.tackRefused_keeps | apply State.setWord_keeps
      | apply State.respOk_keeps | apply State.setBit_keeps | apply State.armNow_keeps | apply State.disarm_keeps
      | refine Keeps.ite (fun _ => ?_) (fun _ => ?_)
    | (extract_lets +onlyGivenNames x; apply Keeps.cut (t := x) <;> [subst x; (intro _; clear_value x)])
    | (extract_lets +onlyGivenNames x; subst x)
    | dsimp -zeta only
    | split
    | dsimp only

theorem State.tackRegWrite_keeps {s0 : State} {s : State} {m : Master} {inst : Option (Fin 64)} {n : Nat} {r : Nat} {v : Nat}  (h : Keeps s0 s) : Keeps s0 (State.tackRegWrite s m inst n r v) := by
  unfold State.tackRegWrite
  repeat' first
    | with_reducible first
      | assumption | apply State.refuse_keeps | apply State.tackRefused_keeps | apply State.respOk_keeps
      | apply State.setWord_keeps | apply State.setWord64_keeps | refine Keeps.ite (fun _ => ?_) (fun _ => ?_)
    | (extract_lets +onlyGivenNames x; apply Keeps.cut (t := x) <;> [subst x; (intro _; clear_value x)])
    | (extract_lets +onlyGivenNames x; subst x)
    | dsimp -zeta only
    | split
    | dsimp only

theorem State.afterFire_keeps {s0 : State} {s : State} {n : Nat} {a : Nat} {b4 : Nat} {back : Bool}  (h : Keeps s0 s) : Keeps s0 (State.afterFire s n a b4 back) := by
  unfold State.afterFire
  repeat' first
    | with_reducible first
      | assumption | apply State.disarm_keeps | apply State.setWord64_keeps | apply State.setBit_keeps
      | apply State.bumpBy_keeps | fail_if_no_progress apply Keeps.mk_ | refine Keeps.of_fst (by assumption) ?_
      | refine Keeps.ite (fun _ => ?_) (fun _ => ?_)
    | (extract_lets +onlyGivenNames x; apply Keeps.cut (t := x) <;> [subst x; (intro _; clear_value x)])
    | (extract_lets +onlyGivenNames x; subst x)
    | dsimp -zeta only
    | split
    | dsimp only

theorem State.outcomeFlags_keeps {s0 : State} {s : State} {n : Nat} {late : Bool} {missed : Bool} {disc : Bool}  (h : Keeps s0 s) : Keeps s0 (State.outcomeFlags s n late missed disc) := by
  unfold State.outcomeFlags
  repeat' first
    | with_reducible first
      | assumption | apply State.setBit_keeps
    | dsimp -zeta only
    | dsimp only

theorem State.signalWpe_keeps {s0 : State} {s : State} {n : Nat} {b3 : Nat} {missed : Bool}  (h : Keeps s0 s) : Keeps s0 (State.signalWpe s n b3 missed) := by
  unfold State.signalWpe
  repeat' first
    | with_reducible first
      | assumption | fail_if_no_progress apply Keeps.mk_ | refine Keeps.ite (fun _ => ?_) (fun _ => ?_)
    | (extract_lets +onlyGivenNames x; apply Keeps.cut (t := x) <;> [subst x; (intro _; clear_value x)])
    | (extract_lets +onlyGivenNames x; subst x)
    | dsimp -zeta only
    | split
    | dsimp only

theorem State.edgeTime_keeps {s0 : State} {s : State} {n : Nat} {b3 : Nat} {a : Nat}  (h : Keeps s0 s) : Keeps s0 (State.edgeTime s n b3 a).2.2.2 := by
  unfold State.edgeTime
  repeat' first
    | with_reducible first
      | assumption | apply State.takeFree_keeps | refine Keeps.of_fst (by assumption) ?_
      | refine Keeps.of_snd (by assumption) ?_ | refine Keeps.ite (fun _ => ?_) (fun _ => ?_)
    | (extract_lets +onlyGivenNames x; apply Keeps.cut (t := x) <;> [subst x; (intro _; clear_value x)])
    | (extract_lets +onlyGivenNames x; subst x)
    | dsimp -zeta only
    | split
    | dsimp only

theorem State.addEdges_keeps {s0 : State} {s : State} {l : List PinEdge}  (h : Keeps s0 s) : Keeps s0 (State.addEdges s l) := by
  unfold State.addEdges
  repeat' first
    | with_reducible first
      | assumption | fail_if_no_progress apply Keeps.mk_
    | (extract_lets +onlyGivenNames x; apply Keeps.cut (t := x) <;> [subst x; (intro _; clear_value x)])
    | (extract_lets +onlyGivenNames x; subst x)
    | dsimp -zeta only
    | dsimp only

theorem State.act_keeps {s0 : State} {s : State} {n : Nat} {b3 : Nat} {a : Nat}  (h : Keeps s0 s) : Keeps s0 (State.act s n b3 a).1 := by
  unfold State.act
  repeat' first
    | with_reducible first
      | assumption | apply State.edgeTime_keeps | apply State.setWord64_keeps | apply State.addEdges_keeps
      | apply State.orWord_keeps | apply State.setBit_keeps | apply State.fault_keeps | apply State.setFld_keeps
      | fail_if_no_progress apply Keeps.mk_ | refine Keeps.of_fst (by assumption) ?_ | refine Keeps.of_snd (by assumption) ?_
      | refine Keeps.ite1 (fun _ => ?_) (fun _ => ?_) | refine Keeps.ite (fun _ => ?_) (fun _ => ?_)
    | (extract_lets +onlyGivenNames x; apply Keeps.cut (t := x) <;> [subst x; (intro _; clear_value x)])
    | (extract_lets +onlyGivenNames x; subst x)
    | dsimp -zeta only
    | split
    | dsimp only

theorem State.fire_keeps {s0 : State} {s : State} {n : Nat} {a : Nat} {b4 : Nat} {late : Nat} {b6 : Nat} {isLate : Bool} {disc : Bool} {back : Bool}  (h : Keeps s0 s) : Keeps s0 (State.fire s n a b4 late b6 isLate disc back) := by
  unfold State.fire
  repeat' first
    | with_reducible first
      | assumption | apply State.setBit_keeps | apply State.outcomeFlags_keeps | apply State.bump_keeps
      | apply State.setWord64_keeps | apply State.act_keeps | apply State.phxEvent_keeps | apply State.signalWpe_keeps
      | apply State.orWord_keeps | apply State.pushEvt_keeps | apply State.failFlags_keeps | apply State.afterFire_keeps
      | refine Keeps.of_fst (by assumption) ?_ | refine Keeps.ite (fun _ => ?_) (fun _ => ?_)
    | (extract_lets +onlyGivenNames x; apply Keeps.cut (t := x) <;> [subst x; (intro _; clear_value x)])
    | (extract_lets +onlyGivenNames x; subst x)
    | dsimp -zeta only
    | split
    | dsimp only

theorem State.miss_keeps {s0 : State} {s : State} {n : Nat} {a : Nat} {b4 : Nat} {late : Nat} {disc : Bool} {back : Bool}  (h : Keeps s0 s) : Keeps s0 (State.miss s n a b4 late disc back) := by
  unfold State.miss
  repeat' first
    | with_reducible first
      | assumption | apply State.bump_keeps | apply State.outcomeFlags_keeps | apply State.setBit_keeps
      | apply State.setWord64_keeps | apply State.signalWpe_keeps | apply State.pushEvt_keeps | apply State.orWord_keeps
      | apply State.fault_keeps | apply State.afterFire_keeps | refine Keeps.ite (fun _ => ?_) (fun _ => ?_)
    | (extract_lets +onlyGivenNames x; apply Keeps.cut (t := x) <;> [subst x; (intro _; clear_value x)])
    | (extract_lets +onlyGivenNames x; subst x)
    | dsimp -zeta only
    | split
    | dsimp only

theorem State.phxEcc_keeps {s0 : State} {s : State} {n : Nat} {err : Nat}  (h : Keeps s0 s) : Keeps s0 (State.phxEcc s n err) := by
  unfold State.phxEcc
  repeat' first
    | with_reducible first
      | assumption | apply State.fault_keeps | apply State.disarm_keeps | apply State.modAxis_keeps | apply foldl_keeps
      | apply foldl_keeps_fst | intro _ | refine Keeps.ite (fun _ => ?_) (fun _ => ?_)
    | (extract_lets +onlyGivenNames x; apply Keeps.cut (t := x) <;> [subst x; (intro _; clear_value x)])
    | (extract_lets +onlyGivenNames x; subst x)
    | dsimp -zeta only
    | split
    | dsimp only

theorem execTackFire_keeps {s0 : State} {tack : Fin 4096} {ecc : Fin 4} {s : State}  (h : Keeps s0 s) : OutKeeps s0 (execTackFire tack ecc s) := by
  unfold execTackFire
  repeat' first
    | with_reducible first
      | assumption | apply State.phxEcc_keeps | apply State.miss_keeps | apply State.setBit_keeps | apply State.fire_keeps
      | apply OutKeeps.next | fail_if_no_progress apply Keeps.mk_ | refine Keeps.of_fst (by assumption) ?_
      | refine OutKeeps.ite (fun _ => ?_) (fun _ => ?_) | refine Keeps.ite (fun _ => ?_) (fun _ => ?_)
    | (extract_lets +onlyGivenNames x; apply Keeps.cut (t := x) <;> [subst x; (intro _; clear_value x)])
    | (extract_lets +onlyGivenNames x; subst x)
    | dsimp -zeta only
    | split
    | dsimp only

theorem State.markPaused_keeps {s0 : State} {s : State}  (h : Keeps s0 s) : Keeps s0 (State.markPaused s) := by
  unfold State.markPaused
  repeat' first
    | with_reducible first
      | assumption | fail_if_no_progress apply Keeps.mk_ | refine Keeps.ite (fun _ => ?_) (fun _ => ?_)
    | (extract_lets +onlyGivenNames x; apply Keeps.cut (t := x) <;> [subst x; (intro _; clear_value x)])
    | (extract_lets +onlyGivenNames x; subst x)
    | dsimp -zeta only
    | split
    | dsimp only

theorem execEvaluationResume_keeps {s0 : State} {s : State}  (h : Keeps s0 s) : OutKeeps s0 (execEvaluationResume s) := by
  unfold execEvaluationResume
  repeat' first
    | with_reducible first
      | assumption | apply State.bumpBy_keeps | apply State.setBit_keeps | apply State.markPaused_keeps | apply OutKeeps.next
      | fail_if_no_progress apply Keeps.mk_ | refine Keeps.of_fst (by assumption) ?_
      | refine OutKeeps.ite (fun _ => ?_) (fun _ => ?_) | refine Keeps.ite (fun _ => ?_) (fun _ => ?_)
    | (extract_lets +onlyGivenNames x; apply Keeps.cut (t := x) <;> [subst x; (intro _; clear_value x)])
    | (extract_lets +onlyGivenNames x; subst x)
    | dsimp -zeta only
    | split
    | dsimp only

theorem State.takeAxisEv_keeps {s0 : State} {s : State} {stream : Nat} {kind : Nat} {t : State} {x : _}  (h : Keeps s0 s) (e : State.takeAxisEv s stream kind = some (x, t)) : Keeps s0 t := by
  unfold State.takeAxisEv at e
  repeat' first
    | (cases e; done)
    | (rw [Option.map_eq_some_iff] at e; obtain ⟨_, _, e⟩ := e)
    | split at e
    | dsimp only at e
  all_goals (try (first | cases e | injection e with e))
  all_goals repeat' first
    | with_reducible first
      | assumption | fail_if_no_progress apply Keeps.mk_ | refine Keeps.of_fst (by assumption) ?_
      | refine Keeps.ite (fun _ => ?_) (fun _ => ?_)
    | (extract_lets +onlyGivenNames x; apply Keeps.cut (t := x) <;> [subst x; (intro _; clear_value x)])
    | (extract_lets +onlyGivenNames x; subst x)
    | dsimp -zeta only
    | split
    | dsimp only

theorem execAngleSample_keeps {s0 : State} {stream : Fin 64} {s : State}  (h : Keeps s0 s) : OutKeeps s0 (execAngleSample stream s) := by
  unfold execAngleSample
  repeat' first
    | with_reducible first
      | assumption | apply State.angleSample_keeps | apply OutKeeps.next | apply foldl_keeps | apply foldl_keeps_fst | intro _
      | refine Keeps.of_fst (by assumption) ?_ | refine State.takeAxisEv_keeps ?_ (by assumption)
    | dsimp -zeta only
    | split
    | dsimp only

theorem execLineAxisFrameStart_keeps {s0 : State} {stream : Fin 64} {s : State}  (h : Keeps s0 s) : OutKeeps s0 (execLineAxisFrameStart stream s) := by
  unfold execLineAxisFrameStart
  repeat' first
    | with_reducible first
      | assumption | apply State.lineFrameStart_keeps | apply OutKeeps.next | apply foldl_keeps | apply foldl_keeps_fst
      | intro _ | refine Keeps.of_fst (by assumption) ?_ | refine State.takeAxisEv_keeps ?_ (by assumption)
    | dsimp -zeta only
    | split
    | dsimp only

theorem execLineAxisLineStart_keeps {s0 : State} {stream : Fin 64} {s : State}  (h : Keeps s0 s) : OutKeeps s0 (execLineAxisLineStart stream s) := by
  unfold execLineAxisLineStart
  repeat' first
    | with_reducible first
      | assumption | apply State.lineLineStart_keeps | apply OutKeeps.next | apply foldl_keeps | apply foldl_keeps_fst
      | intro _ | refine Keeps.of_fst (by assumption) ?_ | refine State.takeAxisEv_keeps ?_ (by assumption)
    | dsimp -zeta only
    | split
    | dsimp only

theorem execLineAxisFrameEnd_keeps {s0 : State} {stream : Fin 64} {s : State}  (h : Keeps s0 s) : OutKeeps s0 (execLineAxisFrameEnd stream s) := by
  unfold execLineAxisFrameEnd
  repeat' first
    | with_reducible first
      | assumption | apply State.lineFrameEnd_keeps | apply OutKeeps.next | apply foldl_keeps | apply foldl_keeps_fst
      | intro _ | refine Keeps.of_fst (by assumption) ?_ | refine State.takeAxisEv_keeps ?_ (by assumption)
    | dsimp -zeta only
    | split
    | dsimp only

theorem State.pinToAxis_keeps {s0 : State} {s : State} {n : Nat} {p : Nat} {level : Bool}  (h : Keeps s0 s) : Keeps s0 (State.pinToAxis s n p level) := by
  unfold State.pinToAxis
  repeat' first
    | with_reducible first
      | assumption | apply State.indexEdge_keeps | apply State.angleForward_keeps | apply State.axUpdate_keeps
      | apply State.addBacklog_keeps | apply State.travelAdd_keeps | refine Keeps.ite (fun _ => ?_) (fun _ => ?_)
    | (extract_lets +onlyGivenNames x; apply Keeps.cut (t := x) <;> [subst x; (intro _; clear_value x)])
    | (extract_lets +onlyGivenNames x; subst x)
    | dsimp -zeta only
    | split
    | dsimp only

theorem execPhaseInEdge_keeps {s0 : State} {pin : Fin 8} {level : Bool} {s : State}  (h : Keeps s0 s) : OutKeeps s0 (execPhaseInEdge pin level s) := by
  unfold execPhaseInEdge
  repeat' first
    | with_reducible first
      | assumption | apply State.setWord64_keeps | apply State.setBit_keeps | apply State.pinToAxis_keeps
      | apply OutKeeps.next | apply foldl_keeps | apply foldl_keeps_fst | intro _
      | refine OutKeeps.ite (fun _ => ?_) (fun _ => ?_) | refine Keeps.ite (fun _ => ?_) (fun _ => ?_)
    | (extract_lets +onlyGivenNames x; apply Keeps.cut (t := x) <;> [subst x; (intro _; clear_value x)])
    | (extract_lets +onlyGivenNames x; subst x)
    | dsimp -zeta only
    | split
    | dsimp only

theorem State.axisLoad_keeps {s0 : State} {s : State} {m : Master} {inst : Option (Fin 64)} {n : Nat} {v : Nat}  (h : Keeps s0 s) : Keeps s0 (State.axisLoad s m inst n v) := by
  unfold State.axisLoad
  repeat' first
    | with_reducible first
      | assumption | apply State.refuse_keeps | apply State.setBacklog_keeps | apply State.modAxis_keeps
      | apply State.respOk_keeps | apply State.setAxis_keeps | refine Keeps.ite (fun _ => ?_) (fun _ => ?_)
    | (extract_lets +onlyGivenNames x; apply Keeps.cut (t := x) <;> [subst x; (intro _; clear_value x)])
    | (extract_lets +onlyGivenNames x; subst x)
    | dsimp -zeta only
    | split
    | dsimp only

theorem execAxisLoad_keeps {s0 : State} {m : Master} {inst : Option (Fin 64)} {axis : Fin 16} {v : BitVec 64} {s : State}  (h : Keeps s0 s) : OutKeeps s0 (execAxisLoad m inst axis v s) := by
  unfold execAxisLoad
  repeat' first
    | with_reducible first
      | assumption | apply State.axisLoad_keeps | apply OutKeeps.next
    | dsimp -zeta only
    | dsimp only

theorem execAxisStall_keeps {s0 : State} {axis : Fin 16} {s : State}  (h : Keeps s0 s) : OutKeeps s0 (execAxisStall axis s) := by
  unfold execAxisStall
  repeat' first
    | with_reducible first
      | assumption | apply State.timeTo_keeps | apply State.orWord_keeps | apply State.setBit_keeps | apply State.fault_keeps
      | apply OutKeeps.next | refine OutKeeps.ite (fun _ => ?_) (fun _ => ?_) | refine Keeps.ite (fun _ => ?_) (fun _ => ?_)
    | (extract_lets +onlyGivenNames x; apply Keeps.cut (t := x) <;> [subst x; (intro _; clear_value x)])
    | (extract_lets +onlyGivenNames x; subst x)
    | dsimp -zeta only
    | split
    | dsimp only

theorem execTackWrite_keeps {s0 : State} {m : Master} {inst : Option (Fin 64)} {tack : Fin 4096} {reg : Fin 8} {v : BitVec 64} {s : State}  (h : Keeps s0 s) : OutKeeps s0 (execTackWrite m inst tack reg v s) := by
  unfold execTackWrite
  repeat' first
    | with_reducible first
      | assumption | apply State.tackRegWrite_keeps | apply OutKeeps.next
    | dsimp -zeta only
    | dsimp only

theorem execTackArm_keeps {s0 : State} {m : Master} {inst : Option (Fin 64)} {tack : Fin 4096} {cfg : BitVec 32} {s : State}  (h : Keeps s0 s) : OutKeeps s0 (execTackArm m inst tack cfg s) := by
  unfold execTackArm
  repeat' first
    | with_reducible first
      | assumption | apply State.tackCfgWrite_keeps | apply OutKeeps.next
    | dsimp -zeta only
    | dsimp only

theorem execTackDisarm_keeps {s0 : State} {m : Master} {inst : Option (Fin 64)} {tack : Fin 4096} {cfg : BitVec 32} {s : State}  (h : Keeps s0 s) : OutKeeps s0 (execTackDisarm m inst tack cfg s) := by
  unfold execTackDisarm
  repeat' first
    | with_reducible first
      | assumption | apply State.tackCfgWrite_keeps | apply OutKeeps.next
    | dsimp -zeta only
    | dsimp only

theorem State.disarmOwned_keeps {s0 : State} {s : State} {i : Nat}  (h : Keeps s0 s) : Keeps s0 (State.disarmOwned s i) := by
  unfold State.disarmOwned
  repeat' first
    | with_reducible first
      | assumption | apply State.disarm_keeps | apply foldl_keeps | apply foldl_keeps_fst | intro _
    | dsimp -zeta only
    | dsimp only

theorem State.driveOut_keeps {s0 : State} {s : State} {pin : Nat} {level : Bool}  (h : Keeps s0 s) : Keeps s0 (State.driveOut s pin level) := by
  unfold State.driveOut
  repeat' first
    | with_reducible first
      | assumption | apply State.emit_keeps | apply State.setBit_keeps
    | (extract_lets +onlyGivenNames x; apply Keeps.cut (t := x) <;> [subst x; (intro _; clear_value x)])
    | (extract_lets +onlyGivenNames x; subst x)
    | dsimp -zeta only
    | dsimp only

theorem execPhaseOutEdge_keeps {s0 : State} {pin : Fin 16} {s : State}  (h : Keeps s0 s) : OutKeeps s0 (execPhaseOutEdge pin s) := by
  unfold execPhaseOutEdge
  repeat' first
    | with_reducible first
      | assumption | apply State.timeTo_keeps | apply State.actionFail_keeps | apply State.bump_keeps
      | apply State.driveOut_keeps | apply OutKeeps.next | apply foldl_keeps | apply foldl_keeps_fst | intro _
      | fail_if_no_progress apply Keeps.mk_ | refine Keeps.of_fst (by assumption) ?_
      | refine OutKeeps.ite (fun _ => ?_) (fun _ => ?_) | refine Keeps.ite (fun _ => ?_) (fun _ => ?_)
    | (extract_lets +onlyGivenNames x; apply Keeps.cut (t := x) <;> [subst x; (intro _; clear_value x)])
    | (extract_lets +onlyGivenNames x; subst x)
    | dsimp -zeta only
    | split
    | dsimp only

theorem execPhxEvtDataRead_keeps {s0 : State} {m : Master} {inst : Option (Fin 64)} {s : State}  (h : Keeps s0 s) : OutKeeps s0 (execPhxEvtDataRead m inst s) := by
  unfold execPhxEvtDataRead
  repeat' first
    | with_reducible first
      | assumption | apply State.refuse_keeps | apply State.respOk_keeps | apply State.syncEvt_keeps | apply OutKeeps.next
      | fail_if_no_progress apply Keeps.mk_ | refine OutKeeps.ite (fun _ => ?_) (fun _ => ?_)
      | refine Keeps.ite (fun _ => ?_) (fun _ => ?_)
    | (extract_lets +onlyGivenNames x; apply Keeps.cut (t := x) <;> [subst x; (intro _; clear_value x)])
    | (extract_lets +onlyGivenNames x; subst x)
    | dsimp -zeta only
    | split
    | dsimp only

end Sys2Proof.Machine
end

