-- ==== Sys2Proof/Laws/KeepsHqm.lean ====
section
/-! SUPPORT. What Machine/Hqm.lean keeps. -/

namespace Sys2Proof.Machine

set_option linter.unusedTactic false
set_option linter.unreachableTactic false

theorem State.setQueue_keeps {s0 : State} {s : State} {q : Nat} {b3 : HqmQ}  (h : Keeps s0 s) : Keeps s0 (State.setQueue s q b3) := by
  unfold State.setQueue
  repeat' first
    | with_reducible first
      | assumption | apply State.store_keeps | apply State.storeNat_keeps | fail_if_no_progress apply Keeps.mk_
    | (extract_lets +onlyGivenNames x; apply Keeps.cut (t := x) <;> [subst x; (intro _; clear_value x)])
    | (extract_lets +onlyGivenNames x; subst x)
    | dsimp -zeta only
    | dsimp only

theorem State.qerr_keeps {s0 : State} {s : State} {q : Nat} {row : Nat} {m : Master} {inst : Option (Fin 64)} {v : Nat}  (h : Keeps s0 s) : Keeps s0 (State.qerr s q row m inst v) := by
  unfold State.qerr
  repeat' first
    | with_reducible first
      | assumption | apply State.orWord_keeps | apply State.bump_keeps | apply State.setWord64_keeps | apply State.fault_keeps
      | refine Keeps.of_fst (by assumption) ?_ | refine Keeps.ite (fun _ => ?_) (fun _ => ?_)
    | (extract_lets +onlyGivenNames x; apply Keeps.cut (t := x) <;> [subst x; (intro _; clear_value x)])
    | (extract_lets +onlyGivenNames x; subst x)
    | dsimp -zeta only
    | split
    | dsimp only

theorem State.notifyDrop_keeps {s0 : State} {s : State}  (h : Keeps s0 s) : Keeps s0 (State.notifyDrop s) := by
  unfold State.notifyDrop
  repeat' first
    | with_reducible first
      | assumption | apply State.bump_keeps
    | dsimp -zeta only
    | dsimp only

theorem State.notify_keeps {s0 : State} {s : State} {b2 : HqmQ}  (h : Keeps s0 s) : Keeps s0 (State.notify s b2) := by
  unfold State.notify
  repeat' first
    | with_reducible first
      | assumption | apply State.notifyDrop_keeps | apply State.emit_keeps | fail_if_no_progress apply Keeps.mk_
      | refine Keeps.of_fst (by assumption) ?_ | refine Keeps.ite (fun _ => ?_) (fun _ => ?_)
    | (extract_lets +onlyGivenNames x; apply Keeps.cut (t := x) <;> [subst x; (intro _; clear_value x)])
    | (extract_lets +onlyGivenNames x; subst x)
    | dsimp -zeta only
    | split
    | dsimp only

theorem State.advanceTail_keeps {s0 : State} {s : State} {q : Nat} {b3 : HqmQ} {b4 : Nat}  (h : Keeps s0 s) : Keeps s0 (State.advanceTail s q b3 b4) := by
  unfold State.advanceTail
  repeat' first
    | with_reducible first
      | assumption | apply State.setQueue_keeps | apply State.notify_keeps | apply State.phxEvent_keeps
      | refine Keeps.ite (fun _ => ?_) (fun _ => ?_)
    | (extract_lets +onlyGivenNames x; apply Keeps.cut (t := x) <;> [subst x; (intro _; clear_value x)])
    | (extract_lets +onlyGivenNames x; subst x)
    | dsimp -zeta only
    | split
    | dsimp only

theorem State.doorbell_keeps {s0 : State} {s : State} {m : Master} {inst : Option (Fin 64)} {gen : Nat} {q : Nat} {v : Nat}  (h : Keeps s0 s) : Keeps s0 (State.doorbell s m inst gen q v).1 := by
  unfold State.doorbell
  repeat' first
    | with_reducible first
      | assumption | apply State.qerr_keeps | apply State.bump_keeps | apply State.setQueue_keeps
      | apply State.advanceTail_keeps | refine Keeps.of_fst (by assumption) ?_ | refine Keeps.ite1 (fun _ => ?_) (fun _ => ?_)
      | refine Keeps.ite (fun _ => ?_) (fun _ => ?_)
    | (extract_lets +onlyGivenNames x; apply Keeps.cut (t := x) <;> [subst x; (intro _; clear_value x)])
    | (extract_lets +onlyGivenNames x; subst x)
    | dsimp -zeta only
    | split
    | dsimp only

theorem execHqmDoorbell_keeps {s0 : State} {m : Master} {inst : Option (Fin 64)} {gen : BitVec 16} {v : BitVec 64} {s : State}  (h : Keeps s0 s) : OutKeeps s0 (execHqmDoorbell m inst gen v s) := by
  unfold execHqmDoorbell
  repeat' first
    | with_reducible first
      | assumption | apply State.doorbell_keeps | apply State.respErr_keeps | apply State.respOk_keeps | apply OutKeeps.next
      | refine Keeps.of_fst (by assumption) ?_ | refine OutKeeps.ite (fun _ => ?_) (fun _ => ?_)
      | refine Keeps.ite (fun _ => ?_) (fun _ => ?_)
    | dsimp -zeta only
    | split
    | dsimp only

theorem State.post_keeps {s0 : State} {s : State} {q : Nat} {gen : Nat} {data : List Byte}  (h : Keeps s0 s) : Keeps s0 (State.post s q gen data).1 := by
  unfold State.post
  repeat' first
    | with_reducible first
      | assumption | apply State.qerr_keeps | apply State.bump_keeps | apply State.wrV_keeps | apply State.advanceTail_keeps
      | apply State.orWord_keeps | apply State.setQueue_keeps | refine Keeps.of_fst (by assumption) ?_
      | refine Keeps.ite1 (fun _ => ?_) (fun _ => ?_) | refine Keeps.ite (fun _ => ?_) (fun _ => ?_)
    | (extract_lets +onlyGivenNames x; apply Keeps.cut (t := x) <;> [subst x; (intro _; clear_value x)])
    | (extract_lets +onlyGivenNames x; subst x)
    | dsimp -zeta only
    | split
    | dsimp only

theorem execHqmPost_keeps {s0 : State} {qid : Fin 524288} {gen : BitVec 16} {data : List Byte} {s : State}  (h : Keeps s0 s) : OutKeeps s0 (execHqmPost qid gen data s) := by
  unfold execHqmPost
  repeat' first
    | with_reducible first
      | assumption | apply State.post_keeps | apply OutKeeps.next | fail_if_no_progress apply Keeps.mk_
      | refine Keeps.of_fst (by assumption) ?_
    | (extract_lets +onlyGivenNames x; apply Keeps.cut (t := x) <;> [subst x; (intro _; clear_value x)])
    | (extract_lets +onlyGivenNames x; subst x)
    | dsimp -zeta only
    | split
    | dsimp only

theorem execHqmPostRetry_keeps {s0 : State} {qid : Fin 524288} {s : State}  (h : Keeps s0 s) : OutKeeps s0 (execHqmPostRetry qid s) := by
  unfold execHqmPostRetry
  repeat' first
    | with_reducible first
      | assumption | apply State.post_keeps | apply OutKeeps.next | fail_if_no_progress apply Keeps.mk_
      | refine Keeps.of_fst (by assumption) ?_
    | (extract_lets +onlyGivenNames x; apply Keeps.cut (t := x) <;> [subst x; (intro _; clear_value x)])
    | (extract_lets +onlyGivenNames x; subst x)
    | dsimp -zeta only
    | split
    | dsimp only

theorem State.qcmdEnd_keeps {s0 : State} {s : State} {refused : Bool}  (h : Keeps s0 s) : Keeps s0 (State.qcmdEnd s refused) := by
  unfold State.qcmdEnd
  repeat' first
    | with_reducible first
      | assumption | apply State.orWord_keeps | apply State.setBit_keeps
    | dsimp -zeta only
    | dsimp only

theorem State.qcmd_keeps {s0 : State} {s : State} {m : Master} {inst : Option (Fin 64)} {q : Nat} {cmd : Nat}  (h : Keeps s0 s) : Keeps s0 (State.qcmd s m inst q cmd) := by
  unfold State.qcmd
  repeat' first
    | with_reducible first
      | assumption | apply State.refuse_keeps | apply State.respOk_keeps | apply State.qcmdEnd_keeps
      | apply State.storeNat_keeps | apply State.setQueue_keeps | fail_if_no_progress apply Keeps.mk_
      | refine Keeps.of_fst (by assumption) ?_ | refine Keeps.ite (fun _ => ?_) (fun _ => ?_)
    | (extract_lets +onlyGivenNames x; apply Keeps.cut (t := x) <;> [subst x; (intro _; clear_value x)])
    | (extract_lets +onlyGivenNames x; subst x)
    | dsimp -zeta only
    | split
    | dsimp only

theorem execQcmdEnable_keeps {s0 : State} {m : Master} {inst : Option (Fin 64)} {qid : Fin 524288} {s : State}  (h : Keeps s0 s) : OutKeeps s0 (execQcmdEnable m inst qid s) := by
  unfold execQcmdEnable
  repeat' first
    | with_reducible first
      | assumption | apply State.qcmd_keeps | apply OutKeeps.next
    | dsimp -zeta only
    | dsimp only

theorem execQcmdDisable_keeps {s0 : State} {m : Master} {inst : Option (Fin 64)} {qid : Fin 524288} {s : State}  (h : Keeps s0 s) : OutKeeps s0 (execQcmdDisable m inst qid s) := by
  unfold execQcmdDisable
  repeat' first
    | with_reducible first
      | assumption | apply State.qcmd_keeps | apply OutKeeps.next
    | dsimp -zeta only
    | dsimp only

theorem execQcmdClearFault_keeps {s0 : State} {m : Master} {inst : Option (Fin 64)} {qid : Fin 524288} {s : State}  (h : Keeps s0 s) : OutKeeps s0 (execQcmdClearFault m inst qid s) := by
  unfold execQcmdClearFault
  repeat' first
    | with_reducible first
      | assumption | apply State.qcmd_keeps | apply OutKeeps.next
    | dsimp -zeta only
    | dsimp only

theorem State.queuesGen_keeps {s0 : State} {s : State} {i : Nat}  (h : Keeps s0 s) : Keeps s0 (State.queuesGen s i) := by
  unfold State.queuesGen
  repeat' first
    | with_reducible first
      | assumption | apply State.setQueue_keeps | apply foldl_keeps | apply foldl_keeps_fst | intro _
      | refine Keeps.ite (fun _ => ?_) (fun _ => ?_)
    | (extract_lets +onlyGivenNames x; apply Keeps.cut (t := x) <;> [subst x; (intro _; clear_value x)])
    | (extract_lets +onlyGivenNames x; subst x)
    | dsimp -zeta only
    | split
    | dsimp only

theorem State.queuesEmpty_keeps {s0 : State} {s : State} {i : Nat} {remove : Bool}  (h : Keeps s0 s) : Keeps s0 (State.queuesEmpty s i remove) := by
  unfold State.queuesEmpty
  repeat' first
    | with_reducible first
      | assumption | apply State.setQueue_keeps | apply State.storeNat_keeps | apply foldl_keeps | apply foldl_keeps_fst
      | intro _ | fail_if_no_progress apply Keeps.mk_ | refine Keeps.ite (fun _ => ?_) (fun _ => ?_)
    | (extract_lets +onlyGivenNames x; apply Keeps.cut (t := x) <;> [subst x; (intro _; clear_value x)])
    | (extract_lets +onlyGivenNames x; subst x)
    | dsimp -zeta only
    | split
    | dsimp only

end Sys2Proof.Machine
end

