-- ==== Sys2Proof/Laws/KeepsCellAlu.lean ====
section
/-! SUPPORT. What Machine/CellAlu.lean keeps. -/

namespace Sys2Proof.Machine

set_option linter.unusedTactic false
set_option linter.unreachableTactic false

theorem execSalu_keeps {s0 : State} {cell : Fin 256} {group : Fin 128} {s : State}  (h : Keeps s0 s) : OutKeeps s0 (execSalu cell group s) := by
  unfold execSalu
  repeat' first
    | with_reducible first
      | assumption | apply State.issue_keeps | apply OutKeeps.next
    | dsimp -zeta only
    | dsimp only

theorem execSmovi_keeps {s0 : State} {cell : Fin 256} {group : Fin 128} {s : State}  (h : Keeps s0 s) : OutKeeps s0 (execSmovi cell group s) := by
  unfold execSmovi
  repeat' first
    | with_reducible first
      | assumption | apply State.issue_keeps | apply OutKeeps.next
    | dsimp -zeta only
    | dsimp only

theorem execSmovhi_keeps {s0 : State} {cell : Fin 256} {group : Fin 128} {s : State}  (h : Keeps s0 s) : OutKeeps s0 (execSmovhi cell group s) := by
  unfold execSmovhi
  repeat' first
    | with_reducible first
      | assumption | apply State.issue_keeps | apply OutKeeps.next
    | dsimp -zeta only
    | dsimp only

theorem execSrd_keeps {s0 : State} {cell : Fin 256} {group : Fin 128} {s : State}  (h : Keeps s0 s) : OutKeeps s0 (execSrd cell group s) := by
  unfold execSrd
  repeat' first
    | with_reducible first
      | assumption | apply State.issue_keeps | apply OutKeeps.next
    | dsimp -zeta only
    | dsimp only

theorem execBr_keeps {s0 : State} {cell : Fin 256} {group : Fin 128} {s : State}  (h : Keeps s0 s) : OutKeeps s0 (execBr cell group s) := by
  unfold execBr
  repeat' first
    | with_reducible first
      | assumption | apply State.issue_keeps | apply OutKeeps.next
    | dsimp -zeta only
    | dsimp only

theorem execJal_keeps {s0 : State} {cell : Fin 256} {group : Fin 128} {s : State}  (h : Keeps s0 s) : OutKeeps s0 (execJal cell group s) := by
  unfold execJal
  repeat' first
    | with_reducible first
      | assumption | apply State.issue_keeps | apply OutKeeps.next
    | dsimp -zeta only
    | dsimp only

theorem execJalr_keeps {s0 : State} {cell : Fin 256} {group : Fin 128} {s : State}  (h : Keeps s0 s) : OutKeeps s0 (execJalr cell group s) := by
  unfold execJalr
  repeat' first
    | with_reducible first
      | assumption | apply State.issue_keeps | apply OutKeeps.next
    | dsimp -zeta only
    | dsimp only

theorem execTalu_keeps {s0 : State} {cell : Fin 256} {group : Fin 128} {s : State}  (h : Keeps s0 s) : OutKeeps s0 (execTalu cell group s) := by
  unfold execTalu
  repeat' first
    | with_reducible first
      | assumption | apply State.issue_keeps | apply OutKeeps.next
    | dsimp -zeta only
    | dsimp only

theorem execTmovi_keeps {s0 : State} {cell : Fin 256} {group : Fin 128} {s : State}  (h : Keeps s0 s) : OutKeeps s0 (execTmovi cell group s) := by
  unfold execTmovi
  repeat' first
    | with_reducible first
      | assumption | apply State.issue_keeps | apply OutKeeps.next
    | dsimp -zeta only
    | dsimp only

theorem execFalu_keeps {s0 : State} {cell : Fin 256} {group : Fin 128} {s : State}  (h : Keeps s0 s) : OutKeeps s0 (execFalu cell group s) := by
  unfold execFalu
  repeat' first
    | with_reducible first
      | assumption | apply State.issue_keeps | apply OutKeeps.next
    | dsimp -zeta only
    | dsimp only

theorem execTcvt_keeps {s0 : State} {cell : Fin 256} {group : Fin 128} {s : State}  (h : Keeps s0 s) : OutKeeps s0 (execTcvt cell group s) := by
  unfold execTcvt
  repeat' first
    | with_reducible first
      | assumption | apply State.issue_keeps | apply OutKeeps.next
    | dsimp -zeta only
    | dsimp only

theorem execTcmp_keeps {s0 : State} {cell : Fin 256} {group : Fin 128} {s : State}  (h : Keeps s0 s) : OutKeeps s0 (execTcmp cell group s) := by
  unfold execTcmp
  repeat' first
    | with_reducible first
      | assumption | apply State.issue_keeps | apply OutKeeps.next
    | dsimp -zeta only
    | dsimp only

theorem execPlog_keeps {s0 : State} {cell : Fin 256} {group : Fin 128} {s : State}  (h : Keeps s0 s) : OutKeeps s0 (execPlog cell group s) := by
  unfold execPlog
  repeat' first
    | with_reducible first
      | assumption | apply State.issue_keeps | apply OutKeeps.next
    | dsimp -zeta only
    | dsimp only

theorem execVote_keeps {s0 : State} {cell : Fin 256} {group : Fin 128} {s : State}  (h : Keeps s0 s) : OutKeeps s0 (execVote cell group s) := by
  unfold execVote
  repeat' first
    | with_reducible first
      | assumption | apply State.issue_keeps | apply OutKeeps.next
    | dsimp -zeta only
    | dsimp only

theorem execTlane_keeps {s0 : State} {cell : Fin 256} {group : Fin 128} {s : State}  (h : Keeps s0 s) : OutKeeps s0 (execTlane cell group s) := by
  unfold execTlane
  repeat' first
    | with_reducible first
      | assumption | apply State.issue_keeps | apply OutKeeps.next
    | dsimp -zeta only
    | dsimp only

theorem execBarSync_keeps {s0 : State} {cell : Fin 256} {group : Fin 128} {s : State}  (h : Keeps s0 s) : OutKeeps s0 (execBarSync cell group s) := by
  unfold execBarSync
  repeat' first
    | with_reducible first
      | assumption | apply State.issue_keeps | apply OutKeeps.next
    | dsimp -zeta only
    | dsimp only

theorem execBarArrive_keeps {s0 : State} {cell : Fin 256} {group : Fin 128} {s : State}  (h : Keeps s0 s) : OutKeeps s0 (execBarArrive cell group s) := by
  unfold execBarArrive
  repeat' first
    | with_reducible first
      | assumption | apply State.issue_keeps | apply OutKeeps.next
    | dsimp -zeta only
    | dsimp only

theorem execBarWait_keeps {s0 : State} {cell : Fin 256} {group : Fin 128} {s : State}  (h : Keeps s0 s) : OutKeeps s0 (execBarWait cell group s) := by
  unfold execBarWait
  repeat' first
    | with_reducible first
      | assumption | apply State.issue_keeps | apply OutKeeps.next
    | dsimp -zeta only
    | dsimp only

theorem execBarrierPhaseComplete_keeps {s0 : State} {cell : Fin 256} {bar : Fin 16} {s : State}  (h : Keeps s0 s) : OutKeeps s0 (execBarrierPhaseComplete cell bar s) := by
  unfold execBarrierPhaseComplete
  repeat' first
    | with_reducible first
      | assumption | apply State.modCell_keeps | apply OutKeeps.next | refine OutKeeps.ite (fun _ => ?_) (fun _ => ?_)
      | refine Keeps.ite (fun _ => ?_) (fun _ => ?_)
    | dsimp -zeta only
    | split
    | dsimp only

theorem execWait_keeps {s0 : State} {cell : Fin 256} {group : Fin 128} {s : State}  (h : Keeps s0 s) : OutKeeps s0 (execWait cell group s) := by
  unfold execWait
  repeat' first
    | with_reducible first
      | assumption | apply State.issue_keeps | apply OutKeeps.next
    | dsimp -zeta only
    | dsimp only

theorem execFence_keeps {s0 : State} {cell : Fin 256} {group : Fin 128} {s : State}  (h : Keeps s0 s) : OutKeeps s0 (execFence cell group s) := by
  unfold execFence
  repeat' first
    | with_reducible first
      | assumption | apply State.issue_keeps | apply OutKeeps.next
    | dsimp -zeta only
    | dsimp only

theorem execPwait_keeps {s0 : State} {cell : Fin 256} {group : Fin 128} {s : State}  (h : Keeps s0 s) : OutKeeps s0 (execPwait cell group s) := by
  unfold execPwait
  repeat' first
    | with_reducible first
      | assumption | apply State.issue_keeps | apply OutKeeps.next
    | dsimp -zeta only
    | dsimp only

theorem execPwaitReached_keeps {s0 : State} {cell : Fin 256} {group : Fin 128} {s : State}  (h : Keeps s0 s) : OutKeeps s0 (execPwaitReached cell group s) := by
  unfold execPwaitReached
  repeat' first
    | with_reducible first
      | assumption | apply State.setGroup_keeps | apply OutKeeps.next | refine Keeps.of_fst (by assumption) ?_
      | refine OutKeeps.ite (fun _ => ?_) (fun _ => ?_) | refine Keeps.ite (fun _ => ?_) (fun _ => ?_)
    | (extract_lets +onlyGivenNames x; apply Keeps.cut (t := x) <;> [subst x; (intro _; clear_value x)])
    | (extract_lets +onlyGivenNames x; subst x)
    | dsimp -zeta only
    | split
    | dsimp only

theorem execPread_keeps {s0 : State} {cell : Fin 256} {group : Fin 128} {s : State}  (h : Keeps s0 s) : OutKeeps s0 (execPread cell group s) := by
  unfold execPread
  repeat' first
    | with_reducible first
      | assumption | apply State.issue_keeps | apply OutKeeps.next
    | dsimp -zeta only
    | dsimp only

theorem State.notify__keeps {s0 : State} {s : State} {c : Nat} {g : Nat} {w : Nat} {q : CGroup}  (h : Keeps s0 s) : Keeps s0 (State.notify_ s c g w q) := by
  unfold State.notify_
  repeat' first
    | with_reducible first
      | assumption | apply State.doorbell_keeps | apply State.pendExc_keeps | refine Keeps.of_fst (by assumption) ?_
      | refine Keeps.ite (fun _ => ?_) (fun _ => ?_)
    | (extract_lets +onlyGivenNames x; apply Keeps.cut (t := x) <;> [subst x; (intro _; clear_value x)])
    | (extract_lets +onlyGivenNames x; subst x)
    | dsimp -zeta only
    | split
    | dsimp only

theorem execNotify_keeps {s0 : State} {cell : Fin 256} {group : Fin 128} {s : State}  (h : Keeps s0 s) : OutKeeps s0 (execNotify cell group s) := by
  unfold execNotify
  repeat' first
    | with_reducible first
      | assumption | apply State.issue_keeps | apply State.notify__keeps | apply OutKeeps.next
      | refine Keeps.of_fst (by assumption) ?_
    | (extract_lets +onlyGivenNames x; apply Keeps.cut (t := x) <;> [subst x; (intro _; clear_value x)])
    | (extract_lets +onlyGivenNames x; subst x)
    | dsimp -zeta only
    | split
    | dsimp only

theorem execSysNop_keeps {s0 : State} {cell : Fin 256} {group : Fin 128} {s : State}  (h : Keeps s0 s) : OutKeeps s0 (execSysNop cell group s) := by
  unfold execSysNop
  repeat' first
    | with_reducible first
      | assumption | apply State.issue_keeps | apply OutKeeps.next
    | dsimp -zeta only
    | dsimp only

theorem State.endGroup_keeps {s0 : State} {s : State} {c : Nat} {g : Nat}  (h : Keeps s0 s) : Keeps s0 (State.endGroup s c g) := by
  unfold State.endGroup
  repeat' first
    | with_reducible first
      | assumption | apply State.showLive_keeps | apply State.issue_keeps | apply State.drainFor_keeps
      | refine Keeps.ite (fun _ => ?_) (fun _ => ?_)
    | (extract_lets +onlyGivenNames x; apply Keeps.cut (t := x) <;> [subst x; (intro _; clear_value x)])
    | (extract_lets +onlyGivenNames x; subst x)
    | dsimp -zeta only
    | split
    | dsimp only

theorem execSysEnd_keeps {s0 : State} {cell : Fin 256} {group : Fin 128} {s : State}  (h : Keeps s0 s) : OutKeeps s0 (execSysEnd cell group s) := by
  unfold execSysEnd
  repeat' first
    | with_reducible first
      | assumption | apply State.endGroup_keeps | apply OutKeeps.next | refine Keeps.of_fst (by assumption) ?_
    | dsimp -zeta only
    | split
    | dsimp only

theorem execSysBreak_keeps {s0 : State} {cell : Fin 256} {group : Fin 128} {s : State}  (h : Keeps s0 s) : OutKeeps s0 (execSysBreak cell group s) := by
  unfold execSysBreak
  repeat' first
    | with_reducible first
      | assumption | apply State.issue_keeps | apply OutKeeps.next
    | dsimp -zeta only
    | dsimp only

theorem execSysTrap_keeps {s0 : State} {cell : Fin 256} {group : Fin 128} {s : State}  (h : Keeps s0 s) : OutKeeps s0 (execSysTrap cell group s) := by
  unfold execSysTrap
  repeat' first
    | with_reducible first
      | assumption | apply State.issue_keeps | apply OutKeeps.next
    | dsimp -zeta only
    | dsimp only

theorem execRdfl_keeps {s0 : State} {cell : Fin 256} {group : Fin 128} {s : State}  (h : Keeps s0 s) : OutKeeps s0 (execRdfl cell group s) := by
  unfold execRdfl
  repeat' first
    | with_reducible first
      | assumption | apply State.issue_keeps | apply OutKeeps.next
    | dsimp -zeta only
    | dsimp only

theorem execClrfl_keeps {s0 : State} {cell : Fin 256} {group : Fin 128} {s : State}  (h : Keeps s0 s) : OutKeeps s0 (execClrfl cell group s) := by
  unfold execClrfl
  repeat' first
    | with_reducible first
      | assumption | apply State.issue_keeps | apply State.setWord_keeps | apply OutKeeps.next
      | refine Keeps.of_fst (by assumption) ?_
    | (extract_lets +onlyGivenNames x; apply Keeps.cut (t := x) <;> [subst x; (intro _; clear_value x)])
    | (extract_lets +onlyGivenNames x; subst x)
    | dsimp -zeta only
    | split
    | dsimp only

theorem execRdres_keeps {s0 : State} {cell : Fin 256} {group : Fin 128} {s : State}  (h : Keeps s0 s) : OutKeeps s0 (execRdres cell group s) := by
  unfold execRdres
  repeat' first
    | with_reducible first
      | assumption | apply State.issue_keeps | apply OutKeeps.next
    | dsimp -zeta only
    | dsimp only

theorem execWrres_keeps {s0 : State} {cell : Fin 256} {group : Fin 128} {s : State}  (h : Keeps s0 s) : OutKeeps s0 (execWrres cell group s) := by
  unfold execWrres
  repeat' first
    | with_reducible first
      | assumption | apply State.issue_keeps | apply OutKeeps.next
    | dsimp -zeta only
    | dsimp only

end Sys2Proof.Machine
end

