-- ==== Sys2Proof/Laws/KeepsCellTile.lean ====
section
/-! SUPPORT. What Machine/CellTile.lean keeps. -/

namespace Sys2Proof.Machine

set_option linter.unusedTactic false
set_option linter.unreachableTactic false

theorem State.tsWrite_keeps {s0 : State} {s : State} {c : Nat} {o : Nat} {l : List Byte} {bad : Bool}  (h : Keeps s0 s) : Keeps s0 (State.tsWrite s c o l bad) := by
  unfold State.tsWrite
  repeat' first
    | with_reducible first
      | assumption | apply State.memPut_keeps
    | dsimp -zeta only
    | dsimp only

theorem State.tsWriteRow_keeps {s0 : State} {s : State} {c : Nat} {o : Nat} {w : Nat} {l : List (Nat × Bool)}  (h : Keeps s0 s) : Keeps s0 (State.tsWriteRow s c o w l) := by
  unfold State.tsWriteRow
  repeat' first
    | with_reducible first
      | assumption | apply State.tsWrite_keeps | apply State.poisonRange_keeps | apply foldl_keeps | apply foldl_keeps_fst
      | intro _ | refine Keeps.ite (fun _ => ?_) (fun _ => ?_)
    | (extract_lets +onlyGivenNames x; apply Keeps.cut (t := x) <;> [subst x; (intro _; clear_value x)])
    | (extract_lets +onlyGivenNames x; subst x)
    | dsimp -zeta only
    | split
    | dsimp only

theorem State.issueTo_keeps {s0 : State} {s : State} {c : Nat} {g : Nat} {want : Nat → Bool} {sel : QSel} {f : CGroup → Nat → Except Exc QOp}  (h : Keeps s0 s) : Keeps s0 (State.issueTo s c g want sel f) := by
  unfold State.issueTo
  repeat' first
    | with_reducible first
      | assumption | apply State.syncExc_keeps | apply State.modCell_keeps | apply State.setGroup_keeps
      | refine Keeps.of_fst (by assumption) ?_ | refine Keeps.ite (fun _ => ?_) (fun _ => ?_)
    | (extract_lets +onlyGivenNames x; apply Keeps.cut (t := x) <;> [subst x; (intro _; clear_value x)])
    | (extract_lets +onlyGivenNames x; subst x)
    | dsimp -zeta only
    | split
    | dsimp only

theorem State.qDone_keeps {s0 : State} {s : State} {c : Nat} {g : Nat} {sel : QSel}  (h : Keeps s0 s) : Keeps s0 (State.qDone s c g sel) := by
  unfold State.qDone
  repeat' first
    | with_reducible first
      | assumption | apply State.setGroup_keeps | apply State.afterDrain_keeps | refine Keeps.of_fst (by assumption) ?_
    | (extract_lets +onlyGivenNames x; apply Keeps.cut (t := x) <;> [subst x; (intro _; clear_value x)])
    | (extract_lets +onlyGivenNames x; subst x)
    | dsimp -zeta only
    | split
    | dsimp only

theorem State.opFault_keeps {s0 : State} {s : State} {c : Nat} {op : QOp} {cause : Nat} {addr : Nat}  (h : Keeps s0 s) : Keeps s0 (State.opFault s c op cause addr) := by
  unfold State.opFault
  repeat' first
    | with_reducible first
      | assumption | apply State.pendExc_keeps
    | dsimp -zeta only
    | dsimp only

end Sys2Proof.Machine
end

