-- ==== Sys2Proof/Laws/KeepsCellTensor.lean ====
section
/-! SUPPORT. What Machine/CellTensor.lean keeps. -/

namespace Sys2Proof.Machine

set_option linter.unusedTactic false
set_option linter.unreachableTactic false

theorem State.issueMma_keeps {s0 : State} {s : State} {c : Nat} {g : Nat}  (h : Keeps s0 s) : Keeps s0 (State.issueMma s c g) := by
  unfold State.issueMma
  repeat' first
    | with_reducible first
      | assumption | apply State.issueTo_keeps
    | dsimp -zeta only
    | dsimp only

theorem execMmaw_keeps {s0 : State} {cell : Fin 256} {group : Fin 128} {s : State}  (h : Keeps s0 s) : OutKeeps s0 (execMmaw cell group s) := by
  unfold execMmaw
  repeat' first
    | with_reducible first
      | assumption | apply State.issueTo_keeps | apply OutKeeps.next
    | dsimp -zeta only
    | dsimp only

theorem execAccrd_keeps {s0 : State} {cell : Fin 256} {group : Fin 128} {s : State}  (h : Keeps s0 s) : OutKeeps s0 (execAccrd cell group s) := by
  unfold execAccrd
  repeat' first
    | with_reducible first
      | assumption | apply State.issueTo_keeps | apply OutKeeps.next
    | dsimp -zeta only
    | dsimp only

theorem execAccld_keeps {s0 : State} {cell : Fin 256} {group : Fin 128} {s : State}  (h : Keeps s0 s) : OutKeeps s0 (execAccld cell group s) := by
  unfold execAccld
  repeat' first
    | with_reducible first
      | assumption | apply State.issueTo_keeps | apply OutKeeps.next
    | dsimp -zeta only
    | dsimp only

theorem State.setTile_keeps {s0 : State} {s : State} {c : Nat} {n : Nat} {b4 : AccTile}  (h : Keeps s0 s) : Keeps s0 (State.setTile s c n b4) := by
  unfold State.setTile
  repeat' first
    | with_reducible first
      | assumption | apply State.modCell_keeps
    | dsimp -zeta only
    | dsimp only

theorem State.runMma_keeps {s0 : State} {s : State} {c : Nat} {op : QOp}  (h : Keeps s0 s) : Keeps s0 (State.runMma s c op) := by
  unfold State.runMma
  repeat' first
    | with_reducible first
      | assumption | apply State.raiseFlags_keeps | apply State.setTile_keeps | refine Keeps.of_fst (by assumption) ?_
      | refine Keeps.ite (fun _ => ?_) (fun _ => ?_)
    | (extract_lets +onlyGivenNames x; apply Keeps.cut (t := x) <;> [subst x; (intro _; clear_value x)])
    | (extract_lets +onlyGivenNames x; subst x)
    | dsimp -zeta only
    | split
    | dsimp only

theorem State.runMmaw_keeps {s0 : State} {s : State} {c : Nat} {op : QOp}  (h : Keeps s0 s) : Keeps s0 (State.runMmaw s c op) := by
  unfold State.runMmaw
  repeat' first
    | with_reducible first
      | assumption | apply State.raiseFlags_keeps | apply State.setTile_keeps | refine Keeps.of_fst (by assumption) ?_
      | refine Keeps.ite (fun _ => ?_) (fun _ => ?_)
    | (extract_lets +onlyGivenNames x; apply Keeps.cut (t := x) <;> [subst x; (intro _; clear_value x)])
    | (extract_lets +onlyGivenNames x; subst x)
    | dsimp -zeta only
    | split
    | dsimp only

theorem State.runAccld_keeps {s0 : State} {s : State} {c : Nat} {op : QOp}  (h : Keeps s0 s) : Keeps s0 (State.runAccld s c op) := by
  unfold State.runAccld
  repeat' first
    | with_reducible first
      | assumption | apply State.setTile_keeps | refine Keeps.of_fst (by assumption) ?_
      | refine Keeps.ite (fun _ => ?_) (fun _ => ?_)
    | (extract_lets +onlyGivenNames x; apply Keeps.cut (t := x) <;> [subst x; (intro _; clear_value x)])
    | (extract_lets +onlyGivenNames x; subst x)
    | dsimp -zeta only
    | split
    | dsimp only

theorem State.accRow_keeps {s0 : State} {s : State} {c : Nat} {op : QOp} {b4 : AccTile} {i : Nat}  (h : Keeps s0 s) : Keeps s0 (State.accRow s c op b4 i) := by
  unfold State.accRow
  repeat' first
    | with_reducible first
      | assumption | apply State.tsWriteRow_keeps | apply State.raiseFlags_keeps | refine Keeps.of_fst (by assumption) ?_
      | refine Keeps.ite (fun _ => ?_) (fun _ => ?_)
    | (extract_lets +onlyGivenNames x; apply Keeps.cut (t := x) <;> [subst x; (intro _; clear_value x)])
    | (extract_lets +onlyGivenNames x; subst x)
    | dsimp -zeta only
    | split
    | dsimp only

theorem State.runAccrd_keeps {s0 : State} {s : State} {c : Nat} {op : QOp}  (h : Keeps s0 s) : Keeps s0 (State.runAccrd s c op) := by
  unfold State.runAccrd
  repeat' first
    | with_reducible first
      | assumption | apply State.accRow_keeps | apply State.setTile_keeps | apply foldl_keeps | apply foldl_keeps_fst
      | intro _ | refine Keeps.ite (fun _ => ?_) (fun _ => ?_)
    | (extract_lets +onlyGivenNames x; apply Keeps.cut (t := x) <;> [subst x; (intro _; clear_value x)])
    | (extract_lets +onlyGivenNames x; subst x)
    | dsimp -zeta only
    | split
    | dsimp only

theorem State.tensorDone_keeps {s0 : State} {s : State} {c : Nat}  (h : Keeps s0 s) : Keeps s0 (State.tensorDone s c) := by
  unfold State.tensorDone
  repeat' first
    | with_reducible first
      | assumption | apply State.runMma_keeps | apply State.runMmaw_keeps | apply State.runAccrd_keeps
      | apply State.runAccld_keeps | apply State.qDone_keeps | apply State.modCell_keeps
      | refine Keeps.of_fst (by assumption) ?_
    | (extract_lets +onlyGivenNames x; apply Keeps.cut (t := x) <;> [subst x; (intro _; clear_value x)])
    | (extract_lets +onlyGivenNames x; subst x)
    | dsimp -zeta only
    | split
    | dsimp only

theorem execTensorComplete_keeps {s0 : State} {cell : Fin 256} {s : State}  (h : Keeps s0 s) : OutKeeps s0 (execTensorComplete cell s) := by
  unfold execTensorComplete
  repeat' first
    | with_reducible first
      | assumption | apply State.tensorDone_keeps | apply OutKeeps.next
    | dsimp -zeta only
    | dsimp only

end Sys2Proof.Machine
end

