-- ==== Sys2Proof/Laws/KeepsCellMove.lean ====
section
/-! SUPPORT. What Machine/CellMove.lean keeps. -/

namespace Sys2Proof.Machine

set_option linter.unusedTactic false
set_option linter.unreachableTactic false

theorem execTcopy_keeps {s0 : State} {cell : Fin 256} {group : Fin 128} {s : State}  (h : Keeps s0 s) : OutKeeps s0 (execTcopy cell group s) := by
  unfold execTcopy
  repeat' first
    | with_reducible first
      | assumption | apply State.issueTo_keeps | apply OutKeeps.next
    | dsimp -zeta only
    | dsimp only

theorem execTrans_keeps {s0 : State} {cell : Fin 256} {group : Fin 128} {s : State}  (h : Keeps s0 s) : OutKeeps s0 (execTrans cell group s) := by
  unfold execTrans
  repeat' first
    | with_reducible first
      | assumption | apply State.issueTo_keeps | apply OutKeeps.next
    | dsimp -zeta only
    | dsimp only

theorem execFill_keeps {s0 : State} {cell : Fin 256} {group : Fin 128} {s : State}  (h : Keeps s0 s) : OutKeeps s0 (execFill cell group s) := by
  unfold execFill
  repeat' first
    | with_reducible first
      | assumption | apply State.issueTo_keeps | apply OutKeeps.next
    | dsimp -zeta only
    | dsimp only

theorem State.runTcopy_keeps {s0 : State} {s : State} {c : Nat} {op : QOp}  (h : Keeps s0 s) : Keeps s0 (State.runTcopy s c op) := by
  unfold State.runTcopy
  repeat' first
    | with_reducible first
      | assumption | apply State.raiseFlags_keeps | apply State.tsWriteRow_keeps | apply foldl_keeps | apply foldl_keeps_fst
      | intro _ | refine Keeps.of_fst (by assumption) ?_ | refine Keeps.ite (fun _ => ?_) (fun _ => ?_)
    | (extract_lets +onlyGivenNames x; apply Keeps.cut (t := x) <;> [subst x; (intro _; clear_value x)])
    | (extract_lets +onlyGivenNames x; subst x)
    | dsimp -zeta only
    | split
    | dsimp only

theorem State.runTrans_keeps {s0 : State} {s : State} {c : Nat} {op : QOp}  (h : Keeps s0 s) : Keeps s0 (State.runTrans s c op) := by
  unfold State.runTrans
  repeat' first
    | with_reducible first
      | assumption | apply State.tsWriteRow_keeps | apply foldl_keeps | apply foldl_keeps_fst | intro _
    | (extract_lets +onlyGivenNames x; apply Keeps.cut (t := x) <;> [subst x; (intro _; clear_value x)])
    | (extract_lets +onlyGivenNames x; subst x)
    | dsimp -zeta only
    | dsimp only

theorem State.runFill_keeps {s0 : State} {s : State} {c : Nat} {op : QOp}  (h : Keeps s0 s) : Keeps s0 (State.runFill s c op) := by
  unfold State.runFill
  repeat' first
    | with_reducible first
      | assumption | apply State.tsWriteRow_keeps | apply foldl_keeps | apply foldl_keeps_fst | intro _
    | (extract_lets +onlyGivenNames x; apply Keeps.cut (t := x) <;> [subst x; (intro _; clear_value x)])
    | (extract_lets +onlyGivenNames x; subst x)
    | dsimp -zeta only
    | dsimp only

theorem State.moveDone_keeps {s0 : State} {s : State} {c : Nat}  (h : Keeps s0 s) : Keeps s0 (State.moveDone s c) := by
  unfold State.moveDone
  repeat' first
    | with_reducible first
      | assumption | apply State.runTcopy_keeps | apply State.runTrans_keeps | apply State.runFill_keeps
      | apply State.qDone_keeps | apply State.modCell_keeps | refine Keeps.of_fst (by assumption) ?_
      | refine Keeps.ite (fun _ => ?_) (fun _ => ?_)
    | (extract_lets +onlyGivenNames x; apply Keeps.cut (t := x) <;> [subst x; (intro _; clear_value x)])
    | (extract_lets +onlyGivenNames x; subst x)
    | dsimp -zeta only
    | split
    | dsimp only

theorem execMovementComplete_keeps {s0 : State} {cell : Fin 256} {s : State}  (h : Keeps s0 s) : OutKeeps s0 (execMovementComplete cell s) := by
  unfold execMovementComplete
  repeat' first
    | with_reducible first
      | assumption | apply State.moveDone_keeps | apply OutKeeps.next
    | dsimp -zeta only
    | dsimp only

end Sys2Proof.Machine
end

