-- ==== Sys2Proof/Laws/KeepsCellLong.lean ====
section
/-! SUPPORT. What Machine/CellLong.lean keeps. -/

namespace Sys2Proof.Machine

set_option linter.unusedTactic false
set_option linter.unreachableTactic false

theorem State.rdLoc_keeps {s0 : State} {s : State} {c : Nat} {tile : Bool} {a : Nat} {n : Nat}  (h : Keeps s0 s) : Keeps s0 (State.rdLoc s c tile a n).1 := by
  unfold State.rdLoc
  repeat' first
    | with_reducible first
      | assumption | apply State.rdV_keeps | refine Keeps.of_fst (by assumption) ?_
      | refine Keeps.ite1 (fun _ => ?_) (fun _ => ?_) | refine Keeps.ite (fun _ => ?_) (fun _ => ?_)
    | dsimp -zeta only
    | split
    | dsimp only

theorem State.wrLoc_keeps {s0 : State} {s : State} {c : Nat} {tile : Bool} {a : Nat} {l : List Byte} {bad : Bool}  (h : Keeps s0 s) : Keeps s0 (State.wrLoc s c tile a l bad).1 := by
  unfold State.wrLoc
  repeat' first
    | with_reducible first
      | assumption | apply State.tsWrite_keeps | apply State.wrV_keeps | refine Keeps.of_fst (by assumption) ?_
      | refine Keeps.ite1 (fun _ => ?_) (fun _ => ?_) | refine Keeps.ite (fun _ => ?_) (fun _ => ?_)
    | dsimp -zeta only
    | split
    | dsimp only

theorem State.rdAll_keeps {s0 : State} {s : State} {c : Nat} {tile : Bool} {a : Nat} {n : Nat}  (h : Keeps s0 s) : Keeps s0 (State.rdAll s c tile a n).1 := by
  unfold State.rdAll
  repeat' first
    | with_reducible first
      | assumption | apply State.rdLoc_keeps | apply foldl_keeps | apply foldl_keeps_fst | intro _
      | refine Keeps.of_fst (by assumption) ?_
    | dsimp -zeta only
    | split
    | dsimp only

theorem State.wrAll_keeps {s0 : State} {s : State} {c : Nat} {tile : Bool} {a : Nat} {l : List (Byte × Bool)}  (h : Keeps s0 s) : Keeps s0 (State.wrAll s c tile a l).1 := by
  unfold State.wrAll
  repeat' first
    | with_reducible first
      | assumption | apply State.wrLoc_keeps | apply foldl_keeps | apply foldl_keeps_fst | intro _
      | refine Keeps.of_fst (by assumption) ?_
    | (extract_lets +onlyGivenNames x; apply Keeps.cut (t := x) <;> [subst x; (intro _; clear_value x)])
    | (extract_lets +onlyGivenNames x; subst x)
    | dsimp -zeta only
    | split
    | dsimp only

theorem State.wrCheck_keeps {s0 : State} {s : State} {c : Nat} {tile : Bool} {a : Nat} {n : Nat}  (h : Keeps s0 s) : Keeps s0 (State.wrCheck s c tile a n).1 := by
  unfold State.wrCheck
  repeat' first
    | with_reducible first
      | assumption | apply State.xlat_keeps | apply foldl_keeps | apply foldl_keeps_fst | intro _
      | refine Keeps.of_fst (by assumption) ?_ | refine Keeps.ite1 (fun _ => ?_) (fun _ => ?_)
      | refine Keeps.ite (fun _ => ?_) (fun _ => ?_)
    | dsimp -zeta only
    | split
    | dsimp only

theorem State.openRange_keeps {s0 : State} {s : State} {c : Nat} {tile : Bool} {a : Nat} {n : Nat}  (h : Keeps s0 s) : Keeps s0 (State.openRange s c tile a n) := by
  unfold State.openRange
  repeat' first
    | with_reducible first
      | assumption | apply State.freeBytes_keeps | apply State.wrAll_keeps | refine Keeps.of_fst (by assumption) ?_
      | refine Keeps.of_snd (by assumption) ?_
    | dsimp -zeta only
    | split
    | dsimp only

theorem execSort_keeps {s0 : State} {cell : Fin 256} {group : Fin 128} {s : State}  (h : Keeps s0 s) : OutKeeps s0 (execSort cell group s) := by
  unfold execSort
  repeat' first
    | with_reducible first
      | assumption | apply State.issueTo_keeps | apply OutKeeps.next
    | dsimp -zeta only
    | dsimp only

theorem execTopk_keeps {s0 : State} {cell : Fin 256} {group : Fin 128} {s : State}  (h : Keeps s0 s) : OutKeeps s0 (execTopk cell group s) := by
  unfold execTopk
  repeat' first
    | with_reducible first
      | assumption | apply State.issueTo_keeps | apply OutKeeps.next
    | dsimp -zeta only
    | dsimp only

theorem execGather_keeps {s0 : State} {cell : Fin 256} {group : Fin 128} {s : State}  (h : Keeps s0 s) : OutKeeps s0 (execGather cell group s) := by
  unfold execGather
  repeat' first
    | with_reducible first
      | assumption | apply State.issueTo_keeps | apply OutKeeps.next
    | dsimp -zeta only
    | dsimp only

theorem execScatter_keeps {s0 : State} {cell : Fin 256} {group : Fin 128} {s : State}  (h : Keeps s0 s) : OutKeeps s0 (execScatter cell group s) := by
  unfold execScatter
  repeat' first
    | with_reducible first
      | assumption | apply State.issueTo_keeps | apply OutKeeps.next
    | dsimp -zeta only
    | dsimp only

theorem execAttn_keeps {s0 : State} {cell : Fin 256} {group : Fin 128} {s : State}  (h : Keeps s0 s) : OutKeeps s0 (execAttn cell group s) := by
  unfold execAttn
  repeat' first
    | with_reducible first
      | assumption | apply State.issueTo_keeps | apply OutKeeps.next
    | dsimp -zeta only
    | dsimp only

theorem execNms_keeps {s0 : State} {cell : Fin 256} {group : Fin 128} {s : State}  (h : Keeps s0 s) : OutKeeps s0 (execNms cell group s) := by
  unfold execNms
  repeat' first
    | with_reducible first
      | assumption | apply State.issueTo_keeps | apply OutKeeps.next
    | dsimp -zeta only
    | dsimp only

theorem State.sortOpen_keeps {s0 : State} {s : State} {c : Nat} {b : List Byte}  (h : Keeps s0 s) : Keeps s0 (State.sortOpen s c b) := by
  unfold State.sortOpen
  repeat' first
    | with_reducible first
      | assumption | apply State.openRange_keeps
    | (extract_lets +onlyGivenNames x; apply Keeps.cut (t := x) <;> [subst x; (intro _; clear_value x)])
    | (extract_lets +onlyGivenNames x; subst x)
    | dsimp -zeta only
    | dsimp only

theorem State.runSort_keeps {s0 : State} {s : State} {c : Nat} {b : List Byte}  (h : Keeps s0 s) : Keeps s0 (State.runSort s c b).st := by
  unfold State.runSort
  repeat' first
    | with_reducible first
      | assumption | apply State.sortOpen_keeps | apply State.wrAll_keeps | apply State.openRange_keeps
      | refine Keeps.of_fst (by assumption) ?_ | refine Keeps.ite (fun _ => ?_) (fun _ => ?_)
    | (extract_lets +onlyGivenNames x; apply Keeps.cut (t := x) <;> [subst x; (intro _; clear_value x)])
    | (extract_lets +onlyGivenNames x; subst x)
    | dsimp -zeta only
    | split
    | dsimp only

theorem State.topkCommit_keeps {s0 : State} {s : State} {c : Nat} {o : Nat} {b : List Byte} {sel : List (Nat × Nat)}  (h : Keeps s0 s) : Keeps s0 (State.topkCommit s c o b sel) := by
  unfold State.topkCommit
  repeat' first
    | with_reducible first
      | assumption | apply State.wrAll_keeps | apply State.tsWrite_keeps
    | (extract_lets +onlyGivenNames x; apply Keeps.cut (t := x) <;> [subst x; (intro _; clear_value x)])
    | (extract_lets +onlyGivenNames x; subst x)
    | dsimp -zeta only
    | dsimp only

theorem State.topkGo_keeps {s0 : State} {s : State} {c : Nat} {b : List Byte} {a4 : Nat} {a5 : Nat} {a6 : List (Nat × Nat)}  (h : Keeps s0 s) : Keeps s0 (State.topkGo s c b a4 a5 a6).1 := by
  revert h
  fun_induction State.topkGo s c b a4 a5 a6
  all_goals intro h
  all_goals repeat' first
    | with_reducible first
      | assumption | apply State.rdLoc_keeps | refine Keeps.of_fst (by assumption) ?_
      | refine Keeps.ite1 (fun _ => ?_) (fun _ => ?_) | refine Keeps.ite (fun _ => ?_) (fun _ => ?_)
    | with_reducible apply_assumption
    | dsimp -zeta only
    | split
    | dsimp only

theorem State.runTopk_keeps {s0 : State} {s : State} {c : Nat} {o : Nat} {b : List Byte} {e0 : Nat} {stop : Nat}  (h : Keeps s0 s) : Keeps s0 (State.runTopk s c o b e0 stop).st := by
  unfold State.runTopk
  repeat' first
    | with_reducible first
      | assumption | apply State.topkGo_keeps | apply State.topkCommit_keeps | refine Keeps.of_fst (by assumption) ?_
      | refine Keeps.ite (fun _ => ?_) (fun _ => ?_)
    | (extract_lets +onlyGivenNames x; apply Keeps.cut (t := x) <;> [subst x; (intro _; clear_value x)])
    | (extract_lets +onlyGivenNames x; subst x)
    | dsimp -zeta only
    | split
    | dsimp only

theorem State.gatherEl_keeps {s0 : State} {s : State} {c : Nat} {b : List Byte} {i : Nat}  (h : Keeps s0 s) : Keeps s0 (State.gatherEl s c b i).1 := by
  unfold State.gatherEl
  repeat' first
    | with_reducible first
      | assumption | apply State.wrAll_keeps | apply State.rdAll_keeps | refine Keeps.of_fst (by assumption) ?_
      | refine Keeps.ite1 (fun _ => ?_) (fun _ => ?_) | refine Keeps.ite (fun _ => ?_) (fun _ => ?_)
    | (extract_lets +onlyGivenNames x; apply Keeps.cut (t := x) <;> [subst x; (intro _; clear_value x)])
    | (extract_lets +onlyGivenNames x; subst x)
    | dsimp -zeta only
    | split
    | dsimp only

theorem State.scatterEl_keeps {s0 : State} {s : State} {c : Nat} {g : Nat} {b : List Byte} {i : Nat}  (h : Keeps s0 s) : Keeps s0 (State.scatterEl s c g b i).1 := by
  unfold State.scatterEl
  repeat' first
    | with_reducible first
      | assumption | apply State.rdAll_keeps | apply State.wrCheck_keeps | apply State.wrAll_keeps
      | apply State.raiseFlags_keeps | apply foldl_keeps | apply foldl_keeps_fst | intro _
      | refine Keeps.of_fst (by assumption) ?_ | refine Keeps.ite1 (fun _ => ?_) (fun _ => ?_)
      | refine Keeps.ite (fun _ => ?_) (fun _ => ?_)
    | (extract_lets +onlyGivenNames x; apply Keeps.cut (t := x) <;> [subst x; (intro _; clear_value x)])
    | (extract_lets +onlyGivenNames x; subst x)
    | dsimp -zeta only
    | split
    | dsimp only

theorem State.gsGo_keeps {s0 : State} {s : State} {el : State → Nat → State × Bool × Option (Nat × Nat)} {a3 : Nat} {a4 : Nat} {a5 : Nat} (hel : ∀ s x0, Keeps s0 s → Keeps s0 (el s x0).1) (h : Keeps s0 s) : Keeps s0 (State.gsGo s el a3 a4 a5).1 := by
  revert h
  fun_induction State.gsGo s el a3 a4 a5
  all_goals intro h
  all_goals repeat' first
    | with_reducible first
      | assumption | apply hel | refine Keeps.of_fst (by assumption) ?_ | refine Keeps.ite1 (fun _ => ?_) (fun _ => ?_)
      | refine Keeps.ite (fun _ => ?_) (fun _ => ?_)
    | with_reducible apply_assumption
    | dsimp -zeta only
    | split
    | dsimp only

theorem State.runGs_keeps {s0 : State} {s : State} {c : Nat} {g : Nat} {o : Nat} {b : List Byte} {scatter : Bool} {e0 : Nat} {stop : Nat}  (h : Keeps s0 s) : Keeps s0 (State.runGs s c g o b scatter e0 stop).st := by
  unfold State.runGs
  repeat' first
    | with_reducible first
      | assumption | apply State.gsGo_keeps | apply State.scatterEl_keeps | apply State.gatherEl_keeps
      | apply State.tsWrite_keeps | intro _ | refine Keeps.of_fst (by assumption) ?_
      | refine Keeps.ite (fun _ => ?_) (fun _ => ?_)
    | (extract_lets +onlyGivenNames x; apply Keeps.cut (t := x) <;> [subst x; (intro _; clear_value x)])
    | (extract_lets +onlyGivenNames x; subst x)
    | dsimp -zeta only
    | split
    | dsimp only

theorem State.attnGo_keeps {s0 : State} {s : State} {c : Nat} {g : Nat} {b : List Byte} {a5 : Nat} {a6 : Nat}  (h : Keeps s0 s) : Keeps s0 (State.attnGo s c g b a5 a6) := by
  revert h
  fun_induction State.attnGo s c g b a5 a6
  all_goals intro h
  all_goals repeat' first
    | with_reducible first
      | assumption | apply State.tsWriteRow_keeps | apply State.raiseFlags_keeps | refine Keeps.of_fst (by assumption) ?_
      | refine Keeps.ite (fun _ => ?_) (fun _ => ?_)
    | with_reducible apply_assumption
    | dsimp -zeta only
    | split
    | dsimp only

theorem State.runAttn_keeps {s0 : State} {s : State} {c : Nat} {g : Nat} {b : List Byte} {e0 : Nat} {stop : Nat}  (h : Keeps s0 s) : Keeps s0 (State.runAttn s c g b e0 stop).st := by
  unfold State.runAttn
  repeat' first
    | with_reducible first
      | assumption | apply State.attnGo_keeps | refine Keeps.of_fst (by assumption) ?_
      | refine Keeps.ite (fun _ => ?_) (fun _ => ?_)
    | (extract_lets +onlyGivenNames x; apply Keeps.cut (t := x) <;> [subst x; (intro _; clear_value x)])
    | (extract_lets +onlyGivenNames x; subst x)
    | dsimp -zeta only
    | split
    | dsimp only

end Sys2Proof.Machine
end

