-- ==== Sys2Proof/Laws/KeepsCellNms.lean ====
section
/-! SUPPORT. What Machine/CellNms.lean keeps. -/

namespace Sys2Proof.Machine

set_option linter.unusedTactic false
set_option linter.unreachableTactic false

theorem State.nmsBox_keeps {s0 : State} {s : State} {c : Nat} {b : List Byte} {i : Nat} {a5 : Nat} {a6 : Nat} {a7 : List Cand} {a8 : Nat}  (h : Keeps s0 s) : Keeps s0 (State.nmsBox s c b i a5 a6 a7 a8).1 := by
  revert h
  fun_induction State.nmsBox s c b i a5 a6 a7 a8
  all_goals intro h
  all_goals repeat' first
    | with_reducible first
      | assumption | apply State.rdLoc_keeps | refine Keeps.of_fst (by assumption) ?_
      | refine Keeps.ite1 (fun _ => ?_) (fun _ => ?_) | refine Keeps.ite (fun _ => ?_) (fun _ => ?_)
    | with_reducible apply_assumption
    | dsimp -zeta only
    | split
    | dsimp only

theorem State.nmsCands_keeps {s0 : State} {s : State} {c : Nat} {b : List Byte} {a4 : Nat} {a5 : Nat} {a6 : List Cand} {a7 : Nat}  (h : Keeps s0 s) : Keeps s0 (State.nmsCands s c b a4 a5 a6 a7).1 := by
  revert h
  fun_induction State.nmsCands s c b a4 a5 a6 a7
  all_goals intro h
  all_goals repeat' first
    | with_reducible first
      | assumption | apply State.nmsBox_keeps | refine Keeps.of_fst (by assumption) ?_
    | with_reducible apply_assumption
    | dsimp -zeta only
    | split
    | dsimp only

theorem State.nmsDecode_keeps {s0 : State} {s : State} {c : Nat} {b : List Byte} {i : Nat}  (h : Keeps s0 s) : Keeps s0 (State.nmsDecode s c b i).1 := by
  unfold State.nmsDecode
  repeat' first
    | with_reducible first
      | assumption | apply State.rdAll_keeps | apply foldl_keeps | apply foldl_keeps_fst | intro _
      | refine Keeps.of_fst (by assumption) ?_ | refine Keeps.ite1 (fun _ => ?_) (fun _ => ?_)
      | refine Keeps.ite (fun _ => ?_) (fun _ => ?_)
    | (extract_lets +onlyGivenNames x; apply Keeps.cut (t := x) <;> [subst x; (intro _; clear_value x)])
    | (extract_lets +onlyGivenNames x; subst x)
    | dsimp -zeta only
    | split
    | dsimp only

theorem State.nmsBoxes_keeps {s0 : State} {s : State} {c : Nat} {b : List Byte} {a4 : List Nat} {a5 : List (Nat × List Nat)} {a6 : Nat}  (h : Keeps s0 s) : Keeps s0 (State.nmsBoxes s c b a4 a5 a6).1 := by
  revert h
  fun_induction State.nmsBoxes s c b a4 a5 a6
  all_goals intro h
  all_goals repeat' first
    | with_reducible first
      | assumption | apply State.nmsDecode_keeps | refine Keeps.of_fst (by assumption) ?_
    | with_reducible apply_assumption
    | dsimp -zeta only
    | split
    | dsimp only

theorem State.nmsOpen_keeps {s0 : State} {s : State} {c : Nat} {b : List Byte}  (h : Keeps s0 s) : Keeps s0 (State.nmsOpen s c b) := by
  unfold State.nmsOpen
  repeat' first
    | with_reducible first
      | assumption | apply State.openRange_keeps
    | dsimp -zeta only
    | dsimp only

theorem State.nmsWrite_keeps {s0 : State} {s : State} {c : Nat} {b : List Byte} {boxes : List (Nat × List Nat)} {o : NmsOut} {pairs : Nat} {dropped : Nat} {invalid : Nat}  (h : Keeps s0 s) : Keeps s0 (State.nmsWrite s c b boxes o pairs dropped invalid).st := by
  unfold State.nmsWrite
  repeat' first
    | with_reducible first
      | assumption | apply State.wrAll_keeps | refine Keeps.of_fst (by assumption) ?_
    | (extract_lets +onlyGivenNames x; apply Keeps.cut (t := x) <;> [subst x; (intro _; clear_value x)])
    | (extract_lets +onlyGivenNames x; subst x)
    | dsimp -zeta only
    | split
    | dsimp only

theorem State.runNms_keeps {s0 : State} {s : State} {c : Nat} {g : Nat} {b : List Byte}  (h : Keeps s0 s) : Keeps s0 (State.runNms s c g b).st := by
  unfold State.runNms
  repeat' first
    | with_reducible first
      | assumption | apply State.wrAll_keeps | apply State.nmsOpen_keeps | apply State.nmsCands_keeps
      | apply State.nmsBoxes_keeps | apply State.raiseFlags_keeps | apply State.nmsWrite_keeps | apply foldl_keeps
      | apply foldl_keeps_fst | apply foldl_keeps_by LRun.st | intro _ | refine Keeps.of_fst (by assumption) ?_
    | (extract_lets +onlyGivenNames x; apply Keeps.cut (t := x) <;> [subst x; (intro _; clear_value x)])
    | (extract_lets +onlyGivenNames x; subst x)
    | dsimp -zeta only
    | split
    | dsimp only

theorem State.runLong_keeps {s0 : State} {s : State} {c : Nat} {op : QOp} {stop : Nat}  (h : Keeps s0 s) : Keeps s0 (State.runLong s c op stop).st := by
  unfold State.runLong
  repeat' first
    | with_reducible first
      | assumption | apply State.runSort_keeps | apply State.runTopk_keeps | apply State.runGs_keeps
      | apply State.runAttn_keeps | apply State.runNms_keeps | refine Keeps.of_fst (by assumption) ?_
      | refine Keeps.ite (fun _ => ?_) (fun _ => ?_)
    | (extract_lets +onlyGivenNames x; apply Keeps.cut (t := x) <;> [subst x; (intro _; clear_value x)])
    | (extract_lets +onlyGivenNames x; subst x)
    | dsimp -zeta only
    | split
    | dsimp only

theorem State.longDone_keeps {s0 : State} {s : State} {c : Nat}  (h : Keeps s0 s) : Keeps s0 (State.longDone s c) := by
  unfold State.longDone
  repeat' first
    | with_reducible first
      | assumption | apply State.runLong_keeps | apply State.modCell_keeps | apply State.setGroup_keeps
      | apply State.opFault_keeps | apply State.qDone_keeps | refine Keeps.of_fst (by assumption) ?_
      | refine Keeps.ite (fun _ => ?_) (fun _ => ?_)
    | (extract_lets +onlyGivenNames x; apply Keeps.cut (t := x) <;> [subst x; (intro _; clear_value x)])
    | (extract_lets +onlyGivenNames x; subst x)
    | dsimp -zeta only
    | split
    | dsimp only

theorem execLongRoutineComplete_keeps {s0 : State} {cell : Fin 256} {s : State}  (h : Keeps s0 s) : OutKeeps s0 (execLongRoutineComplete cell s) := by
  unfold execLongRoutineComplete
  repeat' first
    | with_reducible first
      | assumption | apply State.longDone_keeps | apply OutKeeps.next
    | dsimp -zeta only
    | dsimp only

theorem State.longOpen_keeps {s0 : State} {s : State} {c : Nat} {op : QOp}  (h : Keeps s0 s) : Keeps s0 (State.longOpen s c op) := by
  unfold State.longOpen
  repeat' first
    | with_reducible first
      | assumption | apply State.sortOpen_keeps | apply State.openRange_keeps | apply State.nmsOpen_keeps
      | refine Keeps.ite (fun _ => ?_) (fun _ => ?_)
    | (extract_lets +onlyGivenNames x; apply Keeps.cut (t := x) <;> [subst x; (intro _; clear_value x)])
    | (extract_lets +onlyGivenNames x; subst x)
    | dsimp -zeta only
    | split
    | dsimp only

theorem State.stopLong_keeps {s0 : State} {s : State} {c : Nat} {done : Nat}  (h : Keeps s0 s) : Keeps s0 (State.stopLong s c done) := by
  unfold State.stopLong
  repeat' first
    | with_reducible first
      | assumption | apply State.runLong_keeps | apply State.setGroup_keeps | apply State.opFault_keeps
      | apply State.longOpen_keeps | apply State.modCell_keeps | apply foldl_keeps | apply foldl_keeps_fst
      | apply foldl_keeps_by LRun.st | intro _ | refine Keeps.of_fst (by assumption) ?_
      | refine Keeps.ite (fun _ => ?_) (fun _ => ?_)
    | (extract_lets +onlyGivenNames x; apply Keeps.cut (t := x) <;> [subst x; (intro _; clear_value x)])
    | (extract_lets +onlyGivenNames x; subst x)
    | dsimp -zeta only
    | split
    | dsimp only

end Sys2Proof.Machine
end

