-- ==== Sys2Proof/Laws/KeepsCellImage.lean ====
section
/-! SUPPORT. What Machine/CellImage.lean keeps. -/

namespace Sys2Proof.Machine

set_option linter.unusedTactic false
set_option linter.unreachableTactic false

theorem State.fetchKernel_keeps {s0 : State} {s : State} {c : Nat} {addr : Nat}  (h : Keeps s0 s) : Keeps s0 (State.fetchKernel s c addr).1 := by
  unfold State.fetchKernel
  repeat' first
    | with_reducible first
      | assumption | apply State.rdV_keeps | refine Keeps.of_fst (by assumption) ?_
      | refine Keeps.ite1 (fun _ => ?_) (fun _ => ?_) | refine Keeps.ite (fun _ => ?_) (fun _ => ?_)
    | dsimp -zeta only
    | split
    | dsimp only

theorem State.takeKernel_keeps {s0 : State} {s : State} {c : Nat} {addr : Nat} {b : List Byte}  (h : Keeps s0 s) : Keeps s0 (State.takeKernel s c addr b) := by
  unfold State.takeKernel
  repeat' first
    | with_reducible first
      | assumption | apply State.modCell_keeps | refine Keeps.of_fst (by assumption) ?_
    | dsimp -zeta only
    | split
    | dsimp only

theorem State.launch_keeps {s0 : State} {s : State} {c : Nat} {args : List Nat}  (h : Keeps s0 s) : Keeps s0 (State.launch s c args) := by
  unfold State.launch
  repeat' first
    | with_reducible first
      | assumption | apply State.modCell_keeps | apply State.setCell_keeps | apply State.setWord_keeps
      | apply State.showLive_keeps | apply State.enter_keeps | apply State.setBit_keeps | apply foldl_keeps
      | apply foldl_keeps_fst | intro _
    | (extract_lets +onlyGivenNames x; apply Keeps.cut (t := x) <;> [subst x; (intro _; clear_value x)])
    | (extract_lets +onlyGivenNames x; subst x)
    | dsimp -zeta only
    | dsimp only

theorem State.writeParts_keeps {s0 : State} {s : State} {c : Nat} {base : Nat} {body : List (Byte × Bool)} {hdr : List (Byte × Bool)}  (h : Keeps s0 s) : Keeps s0 (State.writeParts s c base body hdr).1 := by
  unfold State.writeParts
  repeat' first
    | with_reducible first
      | assumption | apply State.wrAll_keeps | refine Keeps.of_fst (by assumption) ?_
    | dsimp -zeta only
    | split
    | dsimp only

theorem State.writeImage_keeps {s0 s : State} {c : Nat} (h : Keeps s0 s) : Keeps s0 (State.writeImage s c).1 := by
  unfold State.writeImage
  extract_lets body crc
  clear_value body crc
  with_reducible apply State.writeParts_keeps
  exact h

theorem State.clearMagic_keeps {s0 : State} {s : State} {c : Nat}  (h : Keeps s0 s) : Keeps s0 (State.clearMagic s c) := by
  unfold State.clearMagic
  repeat' first
    | with_reducible first
      | assumption | apply State.wrAll_keeps
    | dsimp -zeta only
    | dsimp only

theorem State.applyImage_keeps {s0 : State} {s : State} {c : Nat} {l : List (Byte × Bool)}  (h : Keeps s0 s) : Keeps s0 (State.applyImage s c l) := by
  unfold State.applyImage
  repeat' first
    | with_reducible first
      | assumption | apply State.setCell_keeps | apply State.setWord_keeps | apply State.wrAll_keeps | apply foldl_keeps
      | apply foldl_keeps_fst | intro _
    | (extract_lets +onlyGivenNames x; apply Keeps.cut (t := x) <;> [subst x; (intro _; clear_value x)])
    | (extract_lets +onlyGivenNames x; subst x)
    | dsimp -zeta only
    | dsimp only

end Sys2Proof.Machine
end

