-- ==== Sys2Proof/Laws/KeepsCellCtl.lean ====
section
/-! SUPPORT. What Machine/CellCtl.lean keeps. -/

namespace Sys2Proof.Machine

set_option linter.unusedTactic false
set_option linter.unreachableTactic false

theorem State.kernelWrite_keeps {s0 : State} {s : State} {c : Nat} {addr : Nat} {why : Nat}  (h : Keeps s0 s) : Keeps s0 (State.kernelWrite s c addr why) := by
  unfold State.kernelWrite
  repeat' first
    | with_reducible first
      | assumption | apply State.setWord64_keeps | apply State.enter_keeps | apply State.modCell_keeps
      | apply State.cellErr_keeps | refine Keeps.ite (fun _ => ?_) (fun _ => ?_)
    | (extract_lets +onlyGivenNames x; apply Keeps.cut (t := x) <;> [subst x; (intro _; clear_value x)])
    | (extract_lets +onlyGivenNames x; subst x)
    | dsimp -zeta only
    | split
    | dsimp only

theorem execKernelWrite_keeps {s0 : State} {m : Master} {cell : Fin 256} {addr : BitVec 64} {s : State}  (h : Keeps s0 s) : OutKeeps s0 (execKernelWrite m cell addr s) := by
  unfold execKernelWrite
  repeat' first
    | with_reducible first
      | assumption | apply State.respOk_keeps | apply State.kernelWrite_keeps | apply State.refuse_keeps | apply OutKeeps.next
      | refine OutKeeps.ite (fun _ => ?_) (fun _ => ?_) | refine Keeps.ite (fun _ => ?_) (fun _ => ?_)
    | dsimp -zeta only
    | split
    | dsimp only

theorem State.loadDone_keeps {s0 : State} {s : State} {c : Nat}  (h : Keeps s0 s) : Keeps s0 (State.loadDone s c) := by
  unfold State.loadDone
  repeat' first
    | with_reducible first
      | assumption | apply State.fetchKernel_keeps | apply State.report_keeps | apply State.enter_keeps
      | apply State.modCell_keeps | apply State.cellErr_keeps | apply State.takeKernel_keeps | apply State.launch_keeps
      | refine Keeps.of_fst (by assumption) ?_ | refine Keeps.ite (fun _ => ?_) (fun _ => ?_)
    | (extract_lets +onlyGivenNames x; apply Keeps.cut (t := x) <;> [subst x; (intro _; clear_value x)])
    | (extract_lets +onlyGivenNames x; subst x)
    | dsimp -zeta only
    | split
    | dsimp only

theorem execKernelLoadDone_keeps {s0 : State} {cell : Fin 256} {s : State}  (h : Keeps s0 s) : OutKeeps s0 (execKernelLoadDone cell s) := by
  unfold execKernelLoadDone
  repeat' first
    | with_reducible first
      | assumption | apply State.loadDone_keeps | apply OutKeeps.next
    | dsimp -zeta only
    | dsimp only

theorem execTaskComplete_keeps {s0 : State} {cell : Fin 256} {s : State}  (h : Keeps s0 s) : OutKeeps s0 (execTaskComplete cell s) := by
  unfold execTaskComplete
  repeat' first
    | with_reducible first
      | assumption | apply State.report_keeps | apply State.enter_keeps | apply State.modCell_keeps | apply OutKeeps.next
      | refine OutKeeps.ite (fun _ => ?_) (fun _ => ?_) | refine Keeps.ite (fun _ => ?_) (fun _ => ?_)
    | dsimp -zeta only
    | split
    | dsimp only

theorem State.stopTask_keeps {s0 : State} {s : State} {c : Nat} {why : Nat}  (h : Keeps s0 s) : Keeps s0 (State.stopTask s c why) := by
  unfold State.stopTask
  repeat' first
    | with_reducible first
      | assumption | apply State.takeFree_keeps | apply State.afterDrain_keeps | apply State.drainFor_keeps
      | apply State.stopLong_keeps | refine Keeps.of_fst (by assumption) ?_ | refine Keeps.of_snd (by assumption) ?_
    | dsimp -zeta only
    | split
    | dsimp only

theorem State.saveReq_keeps {s0 : State} {s : State} {c : Nat}  (h : Keeps s0 s) : Keeps s0 (State.saveReq s c) := by
  unfold State.saveReq
  repeat' first
    | with_reducible first
      | assumption | apply State.modCell_keeps | apply State.stopTask_keeps | apply State.clearMagic_keeps
      | apply State.enter_keeps | apply State.cellErr_keeps | refine Keeps.ite (fun _ => ?_) (fun _ => ?_)
    | (extract_lets +onlyGivenNames x; apply Keeps.cut (t := x) <;> [subst x; (intro _; clear_value x)])
    | (extract_lets +onlyGivenNames x; subst x)
    | dsimp -zeta only
    | split
    | dsimp only

theorem execSave_keeps {s0 : State} {m : Master} {cell : Fin 256} {s : State}  (h : Keeps s0 s) : OutKeeps s0 (execSave m cell s) := by
  unfold execSave
  repeat' first
    | with_reducible first
      | assumption | apply State.respOk_keeps | apply State.saveReq_keeps | apply State.refuse_keeps | apply OutKeeps.next
      | refine OutKeeps.ite (fun _ => ?_) (fun _ => ?_) | refine Keeps.ite (fun _ => ?_) (fun _ => ?_)
    | dsimp -zeta only
    | split
    | dsimp only

theorem State.saveDone_keeps {s0 s : State} {c : Nat} (h : Keeps s0 s) : Keeps s0 (State.saveDone s c) := by
  have hw := State.writeImage_keeps (c := c) h
  unfold State.saveDone
  generalize State.writeImage s c = r at hw
  obtain ⟨t, ok⟩ := r
  apply Keeps.ite (fun _ => h) (fun _ => ?_)
  apply State.showLive_keeps
  apply State.enter_keeps
  apply State.modCell_keeps
  exact Keeps.ite (fun _ => hw) (fun _ => State.cellErr_keeps hw)

theorem execSaveComplete_keeps {s0 : State} {cell : Fin 256} {s : State}  (h : Keeps s0 s) : OutKeeps s0 (execSaveComplete cell s) := by
  unfold execSaveComplete
  repeat' first
    | with_reducible first
      | assumption | apply State.saveDone_keeps | apply OutKeeps.next
    | dsimp -zeta only
    | dsimp only

theorem State.restoreReq_keeps {s0 : State} {s : State} {c : Nat}  (h : Keeps s0 s) : Keeps s0 (State.restoreReq s c) := by
  unfold State.restoreReq
  repeat' first
    | with_reducible first
      | assumption | apply State.modCell_keeps | apply State.enter_keeps | apply State.cellErr_keeps
      | refine Keeps.ite (fun _ => ?_) (fun _ => ?_)
    | (extract_lets +onlyGivenNames x; apply Keeps.cut (t := x) <;> [subst x; (intro _; clear_value x)])
    | (extract_lets +onlyGivenNames x; subst x)
    | dsimp -zeta only
    | split
    | dsimp only

theorem execRestore_keeps {s0 : State} {m : Master} {cell : Fin 256} {s : State}  (h : Keeps s0 s) : OutKeeps s0 (execRestore m cell s) := by
  unfold execRestore
  repeat' first
    | with_reducible first
      | assumption | apply State.respOk_keeps | apply State.restoreReq_keeps | apply State.refuse_keeps | apply OutKeeps.next
      | refine OutKeeps.ite (fun _ => ?_) (fun _ => ?_) | refine Keeps.ite (fun _ => ?_) (fun _ => ?_)
    | dsimp -zeta only
    | split
    | dsimp only

theorem State.restoreFail_keeps {s0 : State} {s : State} {c : Nat} {bit : Nat}  (h : Keeps s0 s) : Keeps s0 (State.restoreFail s c bit) := by
  unfold State.restoreFail
  repeat' first
    | with_reducible first
      | assumption | apply State.report_keeps | apply State.enter_keeps | apply State.modCell_keeps
      | apply State.cellErr_keeps
    | dsimp -zeta only
    | dsimp only

theorem State.restoreDone_keeps {s0 : State} {s : State} {c : Nat}  (h : Keeps s0 s) : Keeps s0 (State.restoreDone s c) := by
  unfold State.restoreDone
  repeat' first
    | with_reducible first
      | assumption | apply State.rdAll_keeps | apply State.restoreFail_keeps | apply State.fetchKernel_keeps
      | apply State.setBit_keeps | apply State.applyImage_keeps | apply State.takeKernel_keeps | apply State.showLive_keeps
      | apply State.enter_keeps | apply State.drainFor_keeps | refine Keeps.of_fst (by assumption) ?_
      | refine Keeps.ite (fun _ => ?_) (fun _ => ?_)
    | (extract_lets +onlyGivenNames x; apply Keeps.cut (t := x) <;> [subst x; (intro _; clear_value x)])
    | (extract_lets +onlyGivenNames x; subst x)
    | dsimp -zeta only
    | split
    | dsimp only

theorem execRestoreComplete_keeps {s0 : State} {cell : Fin 256} {s : State}  (h : Keeps s0 s) : OutKeeps s0 (execRestoreComplete cell s) := by
  unfold execRestoreComplete
  repeat' first
    | with_reducible first
      | assumption | apply State.restoreDone_keeps | apply OutKeeps.next
    | dsimp -zeta only
    | dsimp only

theorem State.abortReq_keeps {s0 : State} {s : State} {c : Nat}  (h : Keeps s0 s) : Keeps s0 (State.abortReq s c) := by
  unfold State.abortReq
  repeat' first
    | with_reducible first
      | assumption | apply State.stopTask_keeps | apply State.enter_keeps | apply State.cellErr_keeps
      | refine Keeps.ite (fun _ => ?_) (fun _ => ?_)
    | (extract_lets +onlyGivenNames x; apply Keeps.cut (t := x) <;> [subst x; (intro _; clear_value x)])
    | (extract_lets +onlyGivenNames x; subst x)
    | dsimp -zeta only
    | split
    | dsimp only

theorem execAbort_keeps {s0 : State} {m : Master} {cell : Fin 256} {s : State}  (h : Keeps s0 s) : OutKeeps s0 (execAbort m cell s) := by
  unfold execAbort
  repeat' first
    | with_reducible first
      | assumption | apply State.respOk_keeps | apply State.abortReq_keeps | apply State.refuse_keeps | apply OutKeeps.next
      | refine OutKeeps.ite (fun _ => ?_) (fun _ => ?_) | refine Keeps.ite (fun _ => ?_) (fun _ => ?_)
    | dsimp -zeta only
    | split
    | dsimp only

theorem State.ackReq_keeps {s0 : State} {s : State} {c : Nat}  (h : Keeps s0 s) : Keeps s0 (State.ackReq s c) := by
  unfold State.ackReq
  repeat' first
    | with_reducible first
      | assumption | apply State.enter_keeps | apply State.cellErr_keeps | refine Keeps.ite (fun _ => ?_) (fun _ => ?_)
    | dsimp -zeta only
    | split
    | dsimp only

theorem execAck_keeps {s0 : State} {m : Master} {cell : Fin 256} {s : State}  (h : Keeps s0 s) : OutKeeps s0 (execAck m cell s) := by
  unfold execAck
  repeat' first
    | with_reducible first
      | assumption | apply State.respOk_keeps | apply State.ackReq_keeps | apply State.refuse_keeps | apply OutKeeps.next
      | refine OutKeeps.ite (fun _ => ?_) (fun _ => ?_) | refine Keeps.ite (fun _ => ?_) (fun _ => ?_)
    | dsimp -zeta only
    | split
    | dsimp only

theorem State.raiseAsync_keeps {s0 : State} {s : State} {c : Nat}  (h : Keeps s0 s) : Keeps s0 (State.raiseAsync s c) := by
  unfold State.raiseAsync
  repeat' first
    | with_reducible first
      | assumption | apply State.asyncExc_keeps | apply State.modCell_keeps | refine Keeps.of_fst (by assumption) ?_
    | dsimp -zeta only
    | split
    | dsimp only

theorem execAsyncException_keeps {s0 : State} {cell : Fin 256} {s : State}  (h : Keeps s0 s) : OutKeeps s0 (execAsyncException cell s) := by
  unfold execAsyncException
  repeat' first
    | with_reducible first
      | assumption | apply State.raiseAsync_keeps | apply OutKeeps.next
    | dsimp -zeta only
    | dsimp only

theorem State.haltCell_keeps {s0 : State} {s : State} {c : Nat}  (h : Keeps s0 s) : Keeps s0 (State.haltCell s c) := by
  unfold State.haltCell
  repeat' first
    | with_reducible first
      | assumption | apply State.takeFree_keeps | apply State.stopLong_keeps | apply State.report_keeps
      | apply State.enter_keeps | apply State.modCell_keeps | refine Keeps.of_fst (by assumption) ?_
      | refine Keeps.of_snd (by assumption) ?_ | refine Keeps.ite (fun _ => ?_) (fun _ => ?_)
    | (extract_lets +onlyGivenNames x; apply Keeps.cut (t := x) <;> [subst x; (intro _; clear_value x)])
    | (extract_lets +onlyGivenNames x; subst x)
    | dsimp -zeta only
    | split
    | dsimp only

theorem execCellHalt_keeps {s0 : State} {cell : Fin 256} {s : State}  (h : Keeps s0 s) : OutKeeps s0 (execCellHalt cell s) := by
  unfold execCellHalt
  repeat' first
    | with_reducible first
      | assumption | apply State.haltCell_keeps | apply OutKeeps.next
    | dsimp -zeta only
    | dsimp only

theorem State.watchdog_keeps {s0 : State} {s : State} {c : Nat}  (h : Keeps s0 s) : Keeps s0 (State.watchdog s c) := by
  unfold State.watchdog
  repeat' first
    | with_reducible first
      | assumption | apply State.timeTo_keeps | apply State.asyncExc_keeps | refine Keeps.of_fst (by assumption) ?_
      | refine Keeps.ite (fun _ => ?_) (fun _ => ?_)
    | (extract_lets +onlyGivenNames x; apply Keeps.cut (t := x) <;> [subst x; (intro _; clear_value x)])
    | (extract_lets +onlyGivenNames x; subst x)
    | dsimp -zeta only
    | split
    | dsimp only

theorem execWatchdog_keeps {s0 : State} {cell : Fin 256} {s : State}  (h : Keeps s0 s) : OutKeeps s0 (execWatchdog cell s) := by
  unfold execWatchdog
  repeat' first
    | with_reducible first
      | assumption | apply State.watchdog_keeps | apply OutKeeps.next
    | dsimp -zeta only
    | dsimp only

theorem State.setPhysState_keeps {s0 : State} {s : State} {p : Nat} {i : Nat} {st : Nat}  (h : Keeps s0 s) : Keeps s0 (State.setPhysState s p i st) := by
  unfold State.setPhysState
  repeat' first
    | with_reducible first
      | assumption | apply State.setFld_keeps
    | dsimp -zeta only
    | dsimp only

theorem State.showSpare_keeps {s0 : State} {s : State} {p : Nat}  (h : Keeps s0 s) : Keeps s0 (State.showSpare s p) := by
  unfold State.showSpare
  repeat' first
    | with_reducible first
      | assumption | apply State.setFld_keeps
    | dsimp -zeta only
    | dsimp only

theorem State.makeAbsent_keeps {s0 : State} {s : State} {c : Nat}  (h : Keeps s0 s) : Keeps s0 (State.makeAbsent s c) := by
  unfold State.makeAbsent
  repeat' first
    | with_reducible first
      | assumption | apply State.setFld_keeps | apply State.enter_keeps | apply State.setBit_keeps | apply State.orWord_keeps
    | (extract_lets +onlyGivenNames x; apply Keeps.cut (t := x) <;> [subst x; (intro _; clear_value x)])
    | (extract_lets +onlyGivenNames x; subst x)
    | dsimp -zeta only
    | dsimp only

theorem State.showSubs_keeps {s0 : State} {s : State}  (h : Keeps s0 s) : Keeps s0 (State.showSubs s) := by
  unfold State.showSubs
  repeat' first
    | with_reducible first
      | assumption | apply State.setBit_keeps | apply State.setFld_keeps | refine Keeps.of_fst (by assumption) ?_
    | (extract_lets +onlyGivenNames x; apply Keeps.cut (t := x) <;> [subst x; (intro _; clear_value x)])
    | (extract_lets +onlyGivenNames x; subst x)
    | dsimp -zeta only
    | split
    | dsimp only

theorem State.subRecord_keeps {s0 : State} {s : State} {b2 : CellSub} {kind : Nat} {incarn : Nat}  (h : Keeps s0 s) : Keeps s0 (State.subRecord s b2 kind incarn) := by
  unfold State.subRecord
  repeat' first
    | with_reducible first
      | assumption | apply State.setWord_keeps | apply State.setRegBytes_keeps | apply State.orWord_keeps
      | apply State.bump_keeps | fail_if_no_progress apply Keeps.mk_
    | (extract_lets +onlyGivenNames x; apply Keeps.cut (t := x) <;> [subst x; (intro _; clear_value x)])
    | (extract_lets +onlyGivenNames x; subst x)
    | dsimp -zeta only
    | dsimp only

theorem State.raiseIncarn_keeps {s0 : State} {s : State} {c : Nat}  (h : Keeps s0 s) : Keeps s0 (State.raiseIncarn s c) := by
  unfold State.raiseIncarn
  repeat' first
    | with_reducible first
      | assumption | apply State.setFld_keeps
    | dsimp -zeta only
    | dsimp only

theorem State.dropWork_keeps {s0 : State} {s : State} {c : Nat}  (h : Keeps s0 s) : Keeps s0 (State.dropWork s c) := by
  unfold State.dropWork
  repeat' first
    | with_reducible first
      | assumption | apply State.showLive_keeps | apply State.modCell_keeps | fail_if_no_progress apply Keeps.mk_
    | (extract_lets +onlyGivenNames x; apply Keeps.cut (t := x) <;> [subst x; (intro _; clear_value x)])
    | (extract_lets +onlyGivenNames x; subst x)
    | dsimp -zeta only
    | dsimp only

theorem State.failCell_keeps {s0 : State} {s : State} {c : Nat} {trigger : Nat} {src : Nat}  (h : Keeps s0 s) : Keeps s0 (State.failCell s c trigger src) := by
  unfold State.failCell
  repeat' first
    | with_reducible first
      | assumption | apply State.setPhysState_keeps | apply State.faultAt_keeps | apply State.dropWork_keeps
      | apply State.raiseIncarn_keeps | apply State.showSubs_keeps | apply State.enter_keeps | apply State.report_keeps
      | apply State.makeAbsent_keeps | fail_if_no_progress apply Keeps.mk_ | refine Keeps.ite (fun _ => ?_) (fun _ => ?_)
    | (extract_lets +onlyGivenNames x; apply Keeps.cut (t := x) <;> [subst x; (intro _; clear_value x)])
    | (extract_lets +onlyGivenNames x; subst x)
    | dsimp -zeta only
    | split
    | dsimp only

theorem State.planSub_keeps {s0 : State} {s : State} {c : Nat} {trigger : Nat} {cls : Nat}  (h : Keeps s0 s) : Keeps s0 (State.planSub s c trigger cls) := by
  unfold State.planSub
  repeat' first
    | with_reducible first
      | assumption | apply State.faultAt_keeps | apply State.showSubs_keeps | fail_if_no_progress apply Keeps.mk_
      | refine Keeps.ite (fun _ => ?_) (fun _ => ?_)
    | (extract_lets +onlyGivenNames x; apply Keeps.cut (t := x) <;> [subst x; (intro _; clear_value x)])
    | (extract_lets +onlyGivenNames x; subst x)
    | dsimp -zeta only
    | split
    | dsimp only

theorem execCellHang_keeps {s0 : State} {cell : Fin 256} {s : State}  (h : Keeps s0 s) : OutKeeps s0 (execCellHang cell s) := by
  unfold execCellHang
  repeat' first
    | with_reducible first
      | assumption | apply State.failCell_keeps | apply OutKeeps.next | refine OutKeeps.ite (fun _ => ?_) (fun _ => ?_)
      | refine Keeps.ite (fun _ => ?_) (fun _ => ?_)
    | (extract_lets +onlyGivenNames x; apply Keeps.cut (t := x) <;> [subst x; (intro _; clear_value x)])
    | (extract_lets +onlyGivenNames x; subst x)
    | dsimp -zeta only
    | split
    | dsimp only

theorem execControlCheckerFail_keeps {s0 : State} {cell : Fin 256} {s : State}  (h : Keeps s0 s) : OutKeeps s0 (execControlCheckerFail cell s) := by
  unfold execControlCheckerFail
  repeat' first
    | with_reducible first
      | assumption | apply State.failCell_keeps | apply OutKeeps.next
    | dsimp -zeta only
    | dsimp only

theorem execErrorCountClear_keeps {s0 : State} {s : State}  (h : Keeps s0 s) : OutKeeps s0 (execErrorCountClear s) := by
  unfold execErrorCountClear
  repeat' first
    | with_reducible first
      | assumption | apply State.setFld_keeps | apply OutKeeps.next | apply foldl_keeps | apply foldl_keeps_fst | intro _
    | dsimp -zeta only
    | dsimp only

theorem State.countStorage_keeps {s0 : State} {s : State} {c : Nat} {kind : Nat}  (h : Keeps s0 s) : Keeps s0 (State.countStorage s c kind) := by
  unfold State.countStorage
  repeat' first
    | with_reducible first
      | assumption | apply State.bumpSat_keeps | apply State.faultAt_keeps | apply State.planSub_keeps
      | refine Keeps.ite (fun _ => ?_) (fun _ => ?_)
    | (extract_lets +onlyGivenNames x; apply Keeps.cut (t := x) <;> [subst x; (intro _; clear_value x)])
    | (extract_lets +onlyGivenNames x; subst x)
    | dsimp -zeta only
    | split
    | dsimp only

theorem State.storageErr_keeps {s0 : State} {s : State} {c : Nat} {g : Nat} {kind : Nat} {n : Nat}  (h : Keeps s0 s) : Keeps s0 (State.storageErr s c g kind n) := by
  unfold State.storageErr
  repeat' first
    | with_reducible first
      | assumption | apply State.countStorage_keeps | apply State.memUE_keeps | apply State.setGroup_keeps
      | apply State.setTile_keeps | refine Keeps.of_fst (by assumption) ?_
    | (extract_lets +onlyGivenNames x; apply Keeps.cut (t := x) <;> [subst x; (intro _; clear_value x)])
    | (extract_lets +onlyGivenNames x; subst x)
    | dsimp -zeta only
    | split
    | dsimp only

theorem execMma_keeps {s0 : State} {cell : Fin 256} {group : Fin 128} {err : Fin 5} {idx : BitVec 32} {s : State}  (h : Keeps s0 s) : OutKeeps s0 (execMma cell group err idx s) := by
  unfold execMma
  repeat' first
    | with_reducible first
      | assumption | apply State.issueMma_keeps | apply State.storageErr_keeps | apply OutKeeps.next
    | dsimp -zeta only
    | dsimp only

theorem State.dropWaiting_keeps {s0 : State} {s : State} {c : Nat}  (h : Keeps s0 s) : Keeps s0 (State.dropWaiting s c) := by
  unfold State.dropWaiting
  repeat' first
    | with_reducible first
      | assumption | fail_if_no_progress apply Keeps.mk_
    | (extract_lets +onlyGivenNames x; apply Keeps.cut (t := x) <;> [subst x; (intro _; clear_value x)])
    | (extract_lets +onlyGivenNames x; subst x)
    | dsimp -zeta only
    | dsimp only

theorem State.subFails_keeps {s0 : State} {s : State} {b2 : CellSub} {flags : Nat}  (h : Keeps s0 s) : Keeps s0 (State.subFails s b2 flags) := by
  unfold State.subFails
  repeat' first
    | with_reducible first
      | assumption | apply State.dropWaiting_keeps | apply State.dropWork_keeps | apply State.setPhysState_keeps
      | apply State.report_keeps | apply State.subRecord_keeps | apply State.makeAbsent_keeps | apply State.showSubs_keeps
      | apply State.faultAt_keeps | refine Keeps.ite (fun _ => ?_) (fun _ => ?_)
    | (extract_lets +onlyGivenNames x; apply Keeps.cut (t := x) <;> [subst x; (intro _; clear_value x)])
    | (extract_lets +onlyGivenNames x; subst x)
    | dsimp -zeta only
    | split
    | dsimp only

theorem State.wakeSpare_keeps {s0 : State} {s : State} {b2 : CellSub} {wake : Bool}  (h : Keeps s0 s) : Keeps s0 (State.wakeSpare s b2 wake).1 := by
  unfold State.wakeSpare
  repeat' first
    | with_reducible first
      | assumption | apply State.subFails_keeps | apply State.showSpare_keeps | apply State.setPhysState_keeps
      | refine Keeps.ite1 (fun _ => ?_) (fun _ => ?_) | refine Keeps.ite (fun _ => ?_) (fun _ => ?_)
    | (extract_lets +onlyGivenNames x; apply Keeps.cut (t := x) <;> [subst x; (intro _; clear_value x)])
    | (extract_lets +onlyGivenNames x; subst x)
    | dsimp -zeta only
    | split
    | dsimp only

theorem execFailureSubstitution_keeps {s0 : State} {cell : Fin 256} {wake : Bool} {lost : Bool} {bad : List (BitVec 18)} {s : State}  (h : Keeps s0 s) : OutKeeps s0 (execFailureSubstitution cell wake lost bad s) := by
  unfold execFailureSubstitution
  repeat' first
    | with_reducible first
      | assumption | apply State.wakeSpare_keeps | apply State.poisonGran_keeps | apply State.showSubs_keeps
      | apply State.dropWaiting_keeps | apply OutKeeps.next | apply foldl_keeps | apply foldl_keeps_fst | intro _
      | fail_if_no_progress apply Keeps.mk_ | refine Keeps.of_fst (by assumption) ?_
      | refine OutKeeps.ite (fun _ => ?_) (fun _ => ?_) | refine Keeps.ite (fun _ => ?_) (fun _ => ?_)
    | (extract_lets +onlyGivenNames x; apply Keeps.cut (t := x) <;> [subst x; (intro _; clear_value x)])
    | (extract_lets +onlyGivenNames x; subst x)
    | dsimp -zeta only
    | split
    | dsimp only

theorem execPlannedSubstitution_keeps {s0 : State} {cell : Fin 256} {wake : Bool} {s : State}  (h : Keeps s0 s) : OutKeeps s0 (execPlannedSubstitution cell wake s) := by
  unfold execPlannedSubstitution
  repeat' first
    | with_reducible first
      | assumption | apply State.wakeSpare_keeps | apply State.dropWaiting_keeps | apply State.showSubs_keeps
      | apply State.enter_keeps | apply State.stopTask_keeps | apply OutKeeps.next | fail_if_no_progress apply Keeps.mk_
      | refine Keeps.of_fst (by assumption) ?_ | refine OutKeeps.ite (fun _ => ?_) (fun _ => ?_)
      | refine Keeps.ite (fun _ => ?_) (fun _ => ?_)
    | (extract_lets +onlyGivenNames x; apply Keeps.cut (t := x) <;> [subst x; (intro _; clear_value x)])
    | (extract_lets +onlyGivenNames x; subst x)
    | dsimp -zeta only
    | split
    | dsimp only

theorem State.subDone_keeps {s0 : State} {s : State} {c : Nat}  (h : Keeps s0 s) : Keeps s0 (State.subDone s c) := by
  unfold State.subDone
  repeat' first
    | with_reducible first
      | assumption | apply State.setFld_keeps | apply State.setPhysState_keeps | apply State.showSpare_keeps
      | apply State.setBit_keeps | apply State.raiseIncarn_keeps | apply State.enter_keeps | apply State.modCell_keeps
      | apply State.report_keeps | apply State.showSubs_keeps | apply State.subRecord_keeps | apply State.saveReq_keeps
      | apply State.restoreReq_keeps | fail_if_no_progress apply Keeps.mk_ | refine Keeps.of_fst (by assumption) ?_
      | refine Keeps.ite (fun _ => ?_) (fun _ => ?_)
    | (extract_lets +onlyGivenNames x; apply Keeps.cut (t := x) <;> [subst x; (intro _; clear_value x)])
    | (extract_lets +onlyGivenNames x; subst x)
    | dsimp -zeta only
    | split
    | dsimp only

theorem execSubstitutionComplete_keeps {s0 : State} {cell : Fin 256} {s : State}  (h : Keeps s0 s) : OutKeeps s0 (execSubstitutionComplete cell s) := by
  unfold execSubstitutionComplete
  repeat' first
    | with_reducible first
      | assumption | apply State.subDone_keeps | apply OutKeeps.next
    | dsimp -zeta only
    | dsimp only

theorem State.subReq_keeps {s0 : State} {s : State} {c : Nat} {force : Bool}  (h : Keeps s0 s) : Keeps s0 (State.subReq s c force) := by
  unfold State.subReq
  repeat' first
    | with_reducible first
      | assumption | apply State.showSubs_keeps | apply State.setBit_keeps | apply State.enter_keeps
      | apply State.cellErr_keeps | apply State.failCell_keeps | apply State.planSub_keeps
      | fail_if_no_progress apply Keeps.mk_ | refine Keeps.ite (fun _ => ?_) (fun _ => ?_)
    | (extract_lets +onlyGivenNames x; apply Keeps.cut (t := x) <;> [subst x; (intro _; clear_value x)])
    | (extract_lets +onlyGivenNames x; subst x)
    | dsimp -zeta only
    | split
    | dsimp only

theorem execSubReq_keeps {s0 : State} {m : Master} {cell : Fin 256} {force : Bool} {s : State}  (h : Keeps s0 s) : OutKeeps s0 (execSubReq m cell force s) := by
  unfold execSubReq
  repeat' first
    | with_reducible first
      | assumption | apply State.respOk_keeps | apply State.subReq_keeps | apply State.refuse_keeps | apply OutKeeps.next
      | refine OutKeeps.ite (fun _ => ?_) (fun _ => ?_) | refine Keeps.ite (fun _ => ?_) (fun _ => ?_)
    | dsimp -zeta only
    | split
    | dsimp only

theorem State.maintStart_keeps {s0 : State} {s : State} {p : Nat} {i : Nat}  (h : Keeps s0 s) : Keeps s0 (State.maintStart s p i) := by
  unfold State.maintStart
  repeat' first
    | with_reducible first
      | assumption | apply State.setBit_keeps | apply State.setFld_keeps | apply State.setPhysState_keeps
      | refine Keeps.ite (fun _ => ?_) (fun _ => ?_)
    | (extract_lets +onlyGivenNames x; apply Keeps.cut (t := x) <;> [subst x; (intro _; clear_value x)])
    | (extract_lets +onlyGivenNames x; subst x)
    | dsimp -zeta only
    | split
    | dsimp only

theorem execMaintStart_keeps {s0 : State} {m : Master} {panel : Fin 16} {phys : Fin 32} {s : State}  (h : Keeps s0 s) : OutKeeps s0 (execMaintStart m panel phys s) := by
  unfold execMaintStart
  repeat' first
    | with_reducible first
      | assumption | apply State.respOk_keeps | apply State.maintStart_keeps | apply State.refuse_keeps | apply OutKeeps.next
      | refine OutKeeps.ite (fun _ => ?_) (fun _ => ?_) | refine Keeps.ite (fun _ => ?_) (fun _ => ?_)
    | dsimp -zeta only
    | split
    | dsimp only

theorem State.maintDone_keeps {s0 : State} {s : State} {pass : Bool}  (h : Keeps s0 s) : Keeps s0 (State.maintDone s pass) := by
  unfold State.maintDone
  repeat' first
    | with_reducible first
      | assumption | apply State.orWord_keeps | apply State.setFld_keeps | apply State.setPhysState_keeps
      | apply State.showSpare_keeps | apply State.raiseIncarn_keeps | apply State.dropWaiting_keeps | apply State.enter_keeps
      | apply State.setBit_keeps | apply State.subRecord_keeps | fail_if_no_progress apply Keeps.mk_
      | refine Keeps.of_fst (by assumption) ?_ | refine Keeps.ite (fun _ => ?_) (fun _ => ?_)
    | (extract_lets +onlyGivenNames x; apply Keeps.cut (t := x) <;> [subst x; (intro _; clear_value x)])
    | (extract_lets +onlyGivenNames x; subst x)
    | dsimp -zeta only
    | split
    | dsimp only

theorem execMaintDone_keeps {s0 : State} {pass : Bool} {s : State}  (h : Keeps s0 s) : OutKeeps s0 (execMaintDone pass s) := by
  unfold execMaintDone
  repeat' first
    | with_reducible first
      | assumption | apply State.maintDone_keeps | apply OutKeeps.next
    | dsimp -zeta only
    | dsimp only

end Sys2Proof.Machine
end

