-- ==== Sys2Proof/Laws/KeepsMhs.lean ====
section
/-! SUPPORT. What Machine/Mhs.lean keeps. -/

namespace Sys2Proof.Machine

set_option linter.unusedTactic false
set_option linter.unreachableTactic false

theorem State.setClickState_keeps {s0 : State} {s : State} {k : Nat} {v : Nat}  (h : Keeps s0 s) : Keeps s0 (State.setClickState s k v) := by
  unfold State.setClickState
  repeat' first
    | with_reducible first
      | assumption | apply State.setFld_keeps
    | dsimp -zeta only
    | dsimp only

theorem State.setLastSw_keeps {s0 : State} {s : State} {k : Nat} {v : Nat}  (h : Keeps s0 s) : Keeps s0 (State.setLastSw s k v) := by
  unfold State.setLastSw
  repeat' first
    | with_reducible first
      | assumption | apply State.setFld_keeps
    | dsimp -zeta only
    | dsimp only

theorem State.showFree_keeps {s0 : State} {s : State}  (h : Keeps s0 s) : Keeps s0 (State.showFree s) := by
  unfold State.showFree
  repeat' first
    | with_reducible first
      | assumption | apply State.setFld_keeps
    | dsimp -zeta only
    | dsimp only

theorem State.setNow_keeps {s0 : State} {s : State} {k : Nat} {mask : Nat}  (h : Keeps s0 s) : Keeps s0 (State.setNow s k mask) := by
  unfold State.setNow
  repeat' first
    | with_reducible first
      | assumption | apply State.showFree_keeps | apply State.setFld_keeps | apply State.setRegBytes_keeps
    | dsimp -zeta only
    | dsimp only

theorem State.setModelState_keeps {s0 : State} {s : State} {m : Nat} {v : Nat}  (h : Keeps s0 s) : Keeps s0 (State.setModelState s m v) := by
  unfold State.setModelState
  repeat' first
    | with_reducible first
      | assumption | apply State.setFld_keeps
    | dsimp -zeta only
    | dsimp only

theorem State.slcRealloc_keeps {s0 : State} {s : State}  (h : Keeps s0 s) : Keeps s0 (State.slcRealloc s) := by
  unfold State.slcRealloc
  repeat' first
    | with_reducible first
      | assumption | apply State.setBit_keeps | apply State.setWord_keeps | apply State.setFld_keeps | apply foldl_keeps
      | apply foldl_keeps_fst | intro _ | refine Keeps.of_fst (by assumption) ?_
      | refine Keeps.ite (fun _ => ?_) (fun _ => ?_)
    | (extract_lets +onlyGivenNames x; apply Keeps.cut (t := x) <;> [subst x; (intro _; clear_value x)])
    | (extract_lets +onlyGivenNames x; subst x)
    | dsimp -zeta only
    | split
    | dsimp only

theorem State.useModel_keeps {s0 : State} {s : State} {m : Nat}  (h : Keeps s0 s) : Keeps s0 (State.useModel s m) := by
  unfold State.useModel
  repeat' first
    | with_reducible first
      | assumption | apply State.setWord64_keeps
    | dsimp -zeta only
    | dsimp only

theorem State.loadResident_keeps {s0 : State} {s : State} {m : Nat} {c : Nat}  (h : Keeps s0 s) : Keeps s0 (State.loadResident s m c) := by
  unfold State.loadResident
  repeat' first
    | with_reducible first
      | assumption | apply State.dmaReadLong_keeps | apply State.tsWrite_keeps | apply foldl_keeps | apply foldl_keeps_fst
      | intro _ | refine Keeps.of_fst (by assumption) ?_ | refine Keeps.ite (fun _ => ?_) (fun _ => ?_)
    | dsimp -zeta only
    | split
    | dsimp only

theorem State.joinCell_keeps {s0 : State} {s : State} {k : Nat} {c : Nat}  (h : Keeps s0 s) : Keeps s0 (State.joinCell s k c) := by
  unfold State.joinCell
  repeat' first
    | with_reducible first
      | assumption | apply State.setFld_keeps | apply State.setNow_keeps | apply State.loadResident_keeps
      | refine Keeps.ite (fun _ => ?_) (fun _ => ?_)
    | (extract_lets +onlyGivenNames x; apply Keeps.cut (t := x) <;> [subst x; (intro _; clear_value x)])
    | (extract_lets +onlyGivenNames x; subst x)
    | dsimp -zeta only
    | split
    | dsimp only

theorem State.leaveCell_keeps {s0 : State} {s : State} {k : Nat} {c : Nat}  (h : Keeps s0 s) : Keeps s0 (State.leaveCell s k c) := by
  unfold State.leaveCell
  repeat' first
    | with_reducible first
      | assumption | apply State.setNow_keeps | apply State.setFld_keeps | fail_if_no_progress apply Keeps.mk_
    | (extract_lets +onlyGivenNames x; apply Keeps.cut (t := x) <;> [subst x; (intro _; clear_value x)])
    | (extract_lets +onlyGivenNames x; subst x)
    | dsimp -zeta only
    | dsimp only

end Sys2Proof.Machine
end

