-- ==== Sys2Proof/Laws/KeepsClc.lean ====
section
/-! SUPPORT. What Machine/Clc.lean keeps. -/

namespace Sys2Proof.Machine

set_option linter.unusedTactic false
set_option linter.unreachableTactic false

theorem State.modJob_keeps {s0 : State} {s : State} {slot : Nat} {f : ClcJob → ClcJob}  (h : Keeps s0 s) : Keeps s0 (State.modJob s slot f) := by
  unfold State.modJob
  repeat' first
    | with_reducible first
      | assumption | fail_if_no_progress apply Keeps.mk_ | refine Keeps.ite (fun _ => ?_) (fun _ => ?_)
    | (extract_lets +onlyGivenNames x; apply Keeps.cut (t := x) <;> [subst x; (intro _; clear_value x)])
    | (extract_lets +onlyGivenNames x; subst x)
    | dsimp -zeta only
    | split
    | dsimp only

theorem State.showSlot_keeps {s0 : State} {s : State} {n : Nat}  (h : Keeps s0 s) : Keeps s0 (State.showSlot s n) := by
  unfold State.showSlot
  repeat' first
    | with_reducible first
      | assumption | apply State.setFld_keeps | apply State.setBit_keeps
    | dsimp -zeta only
    | dsimp only

theorem State.postCq_keeps {s0 : State} {s : State} {p : ClcPost}  (h : Keeps s0 s) : Keeps s0 (State.postCq s p).1 := by
  unfold State.postCq
  repeat' first
    | with_reducible first
      | assumption | apply State.post_keeps | refine Keeps.of_fst (by assumption) ?_
    | (extract_lets +onlyGivenNames x; apply Keeps.cut (t := x) <;> [subst x; (intro _; clear_value x)])
    | (extract_lets +onlyGivenNames x; subst x)
    | dsimp -zeta only
    | split
    | dsimp only

theorem State.complete_keeps {s0 : State} {s : State} {r : ClcRel} {status : Nat} {stage : Nat} {restarts : Nat} {ckpts : Nat}  (h : Keeps s0 s) : Keeps s0 (State.complete s r status stage restarts ckpts) := by
  unfold State.complete
  repeat' first
    | with_reducible first
      | assumption | apply State.setFld_keeps | apply State.orWord_keeps | apply State.bump_keeps | apply State.postCq_keeps
      | fail_if_no_progress apply Keeps.mk_ | refine Keeps.of_fst (by assumption) ?_
      | refine Keeps.ite (fun _ => ?_) (fun _ => ?_)
    | (extract_lets +onlyGivenNames x; apply Keeps.cut (t := x) <;> [subst x; (intro _; clear_value x)])
    | (extract_lets +onlyGivenNames x; subst x)
    | dsimp -zeta only
    | split
    | dsimp only

theorem State.drainPosts_keeps {s0 : State} {a1 : Nat} {a2 : State}  (h : Keeps s0 a2) : Keeps s0 (State.drainPosts a1 a2) := by
  revert h
  fun_induction State.drainPosts a1 a2
  all_goals intro h
  all_goals repeat' first
    | with_reducible first
      | assumption | apply State.postCq_keeps | fail_if_no_progress apply Keeps.mk_ | refine Keeps.of_fst (by assumption) ?_
    | with_reducible apply_assumption
    | dsimp -zeta only
    | split
    | dsimp only

theorem State.startStage_keeps {s0 : State} {s : State} {slot : Nat} {side : Nat} {stage : Nat}  (h : Keeps s0 s) : Keeps s0 (State.startStage s slot side stage) := by
  unfold State.startStage
  repeat' first
    | with_reducible first
      | assumption | apply State.modJob_keeps | fail_if_no_progress apply Keeps.mk_ | refine Keeps.of_fst (by assumption) ?_
      | refine Keeps.ite (fun _ => ?_) (fun _ => ?_)
    | (extract_lets +onlyGivenNames x; apply Keeps.cut (t := x) <;> [subst x; (intro _; clear_value x)])
    | (extract_lets +onlyGivenNames x; subst x)
    | dsimp -zeta only
    | split
    | dsimp only

theorem State.stageDone_keeps {s0 : State} {s : State} {slot : Nat} {side : Nat}  (h : Keeps s0 s) : Keeps s0 (State.stageDone s slot side) := by
  unfold State.stageDone
  repeat' first
    | with_reducible first
      | assumption | apply State.modJob_keeps | apply State.startStage_keeps | fail_if_no_progress apply Keeps.mk_
      | refine Keeps.of_fst (by assumption) ?_ | refine Keeps.ite (fun _ => ?_) (fun _ => ?_)
    | (extract_lets +onlyGivenNames x; apply Keeps.cut (t := x) <;> [subst x; (intro _; clear_value x)])
    | (extract_lets +onlyGivenNames x; subst x)
    | dsimp -zeta only
    | split
    | dsimp only

theorem State.startJob_keeps {s0 : State} {s : State} {r : ClcRel}  (h : Keeps s0 s) : Keeps s0 (State.startJob s r) := by
  unfold State.startJob
  repeat' first
    | with_reducible first
      | assumption | apply State.showSlot_keeps | apply State.complete_keeps | apply State.startStage_keeps
      | fail_if_no_progress apply Keeps.mk_ | refine Keeps.ite (fun _ => ?_) (fun _ => ?_)
    | (extract_lets +onlyGivenNames x; apply Keeps.cut (t := x) <;> [subst x; (intro _; clear_value x)])
    | (extract_lets +onlyGivenNames x; subst x)
    | dsimp -zeta only
    | split
    | dsimp only

theorem State.startPending_keeps {s0 : State} {s : State}  (h : Keeps s0 s) : Keeps s0 (State.startPending s) := by
  unfold State.startPending
  repeat' first
    | with_reducible first
      | assumption | apply State.startJob_keeps | apply foldl_keeps | apply foldl_keeps_fst | intro _
      | fail_if_no_progress apply Keeps.mk_ | refine Keeps.ite (fun _ => ?_) (fun _ => ?_)
    | (extract_lets +onlyGivenNames x; apply Keeps.cut (t := x) <;> [subst x; (intro _; clear_value x)])
    | (extract_lets +onlyGivenNames x; subst x)
    | dsimp -zeta only
    | split
    | dsimp only

theorem State.relRefuse_keeps {s0 : State} {s : State} {n : Nat} {m : Master}  (h : Keeps s0 s) : Keeps s0 (State.relRefuse s n m) := by
  unfold State.relRefuse
  repeat' first
    | with_reducible first
      | assumption | apply State.accessFault_keeps | apply State.orWord_keeps | apply State.bump_keeps
      | apply State.setBit_keeps
    | dsimp -zeta only
    | dsimp only

theorem State.release_keeps {s0 : State} {s : State} {n : Nat} {m : Master} {may : Bool} {param : Nat} {target : Nat}  (h : Keeps s0 s) : Keeps s0 (State.release s n m may param target).1 := by
  unfold State.release
  repeat' first
    | with_reducible first
      | assumption | apply State.relRefuse_keeps | apply State.bump_keeps | apply State.useModel_keeps
      | apply State.startJob_keeps | apply State.showSlot_keeps | fail_if_no_progress apply Keeps.mk_
      | refine Keeps.of_fst (by assumption) ?_ | refine Keeps.ite1 (fun _ => ?_) (fun _ => ?_)
      | refine Keeps.ite (fun _ => ?_) (fun _ => ?_)
    | (extract_lets +onlyGivenNames x; apply Keeps.cut (t := x) <;> [subst x; (intro _; clear_value x)])
    | (extract_lets +onlyGivenNames x; subst x)
    | dsimp -zeta only
    | split
    | dsimp only

theorem State.releaseTack_keeps {s0 : State} {s : State} {n : Nat} {m : Master} {owner : Option Nat} {param : Nat} {target : Nat}  (h : Keeps s0 s) : Keeps s0 (State.releaseTack s n m owner param target).1 := by
  unfold State.releaseTack
  repeat' first
    | with_reducible first
      | assumption | apply State.release_keeps | refine Keeps.of_fst (by assumption) ?_
    | (extract_lets +onlyGivenNames x; apply Keeps.cut (t := x) <;> [subst x; (intro _; clear_value x)])
    | (extract_lets +onlyGivenNames x; subst x)
    | dsimp -zeta only
    | split
    | dsimp only

theorem execSlotReleaseWrite_keeps {s0 : State} {m : Master} {inst : Option (Fin 64)} {slot : Fin 4096} {param : BitVec 32} {s : State}  (h : Keeps s0 s) : OutKeeps s0 (execSlotReleaseWrite m inst slot param s) := by
  unfold execSlotReleaseWrite
  repeat' first
    | with_reducible first
      | assumption | apply State.release_keeps | apply State.respOk_keeps | apply State.respErr_keeps | apply OutKeeps.next
      | refine Keeps.of_fst (by assumption) ?_ | refine OutKeeps.ite (fun _ => ?_) (fun _ => ?_)
      | refine Keeps.ite (fun _ => ?_) (fun _ => ?_)
    | (extract_lets +onlyGivenNames x; apply Keeps.cut (t := x) <;> [subst x; (intro _; clear_value x)])
    | (extract_lets +onlyGivenNames x; subst x)
    | dsimp -zeta only
    | split
    | dsimp only

theorem State.stopJob_keeps {s0 : State} {s : State} {slot : Nat} {status : Nat}  (h : Keeps s0 s) : Keeps s0 (State.stopJob s slot status) := by
  unfold State.stopJob
  repeat' first
    | with_reducible first
      | assumption | apply State.modJob_keeps | refine Keeps.ite (fun _ => ?_) (fun _ => ?_)
    | dsimp -zeta only
    | split
    | dsimp only

theorem State.stopClick_keeps {s0 : State} {s : State} {k : Nat} {status : Nat}  (h : Keeps s0 s) : Keeps s0 (State.stopClick s k status) := by
  unfold State.stopClick
  repeat' first
    | with_reducible first
      | assumption | apply State.stopJob_keeps | apply foldl_keeps | apply foldl_keeps_fst | intro _
    | dsimp -zeta only
    | dsimp only

theorem State.cancelPending_keeps {s0 : State} {s : State} {k : Nat}  (h : Keeps s0 s) : Keeps s0 (State.cancelPending s k) := by
  unfold State.cancelPending
  repeat' first
    | with_reducible first
      | assumption | apply State.showSlot_keeps | apply State.complete_keeps | apply foldl_keeps | apply foldl_keeps_fst
      | intro _ | fail_if_no_progress apply Keeps.mk_
    | (extract_lets +onlyGivenNames x; apply Keeps.cut (t := x) <;> [subst x; (intro _; clear_value x)])
    | (extract_lets +onlyGivenNames x; subst x)
    | dsimp -zeta only
    | dsimp only

theorem State.enforceStops_keeps {s0 : State} {s : State}  (h : Keeps s0 s) : Keeps s0 (State.enforceStops s) := by
  unfold State.enforceStops
  repeat' first
    | with_reducible first
      | assumption | apply State.abortReq_keeps | apply State.modCell_keeps | apply foldl_keeps | apply foldl_keeps_fst
      | intro _ | fail_if_no_progress apply Keeps.mk_ | refine Keeps.of_fst (by assumption) ?_
      | refine Keeps.ite (fun _ => ?_) (fun _ => ?_)
    | (extract_lets +onlyGivenNames x; apply Keeps.cut (t := x) <;> [subst x; (intro _; clear_value x)])
    | (extract_lets +onlyGivenNames x; subst x)
    | dsimp -zeta only
    | split
    | dsimp only

theorem State.finishJobs_keeps {s0 : State} {s : State}  (h : Keeps s0 s) : Keeps s0 (State.finishJobs s) := by
  unfold State.finishJobs
  repeat' first
    | with_reducible first
      | assumption | apply State.showSlot_keeps | apply State.complete_keeps | apply foldl_keeps | apply foldl_keeps_fst
      | intro _ | fail_if_no_progress apply Keeps.mk_ | refine Keeps.ite (fun _ => ?_) (fun _ => ?_)
    | (extract_lets +onlyGivenNames x; apply Keeps.cut (t := x) <;> [subst x; (intro _; clear_value x)])
    | (extract_lets +onlyGivenNames x; subst x)
    | dsimp -zeta only
    | split
    | dsimp only

theorem State.clickFault_keeps {s0 : State} {s : State} {k : Nat}  (h : Keeps s0 s) : Keeps s0 (State.clickFault s k) := by
  unfold State.clickFault
  repeat' first
    | with_reducible first
      | assumption | apply State.stopClick_keeps | apply State.orWord_keeps | apply State.setClickState_keeps
    | dsimp -zeta only
    | dsimp only

theorem State.checkMin_keeps {s0 : State} {s : State} {k : Nat}  (h : Keeps s0 s) : Keeps s0 (State.checkMin s k) := by
  unfold State.checkMin
  repeat' first
    | with_reducible first
      | assumption | apply State.fault_keeps | apply State.clickFault_keeps | refine Keeps.ite (fun _ => ?_) (fun _ => ?_)
    | dsimp -zeta only
    | split
    | dsimp only

theorem State.modTaskOn_keeps {s0 : State} {s : State} {c : Nat} {f : ClcTask → ClcTask}  (h : Keeps s0 s) : Keeps s0 (State.modTaskOn s c f) := by
  unfold State.modTaskOn
  repeat' first
    | with_reducible first
      | assumption | fail_if_no_progress apply Keeps.mk_ | refine Keeps.ite (fun _ => ?_) (fun _ => ?_)
    | (extract_lets +onlyGivenNames x; apply Keeps.cut (t := x) <;> [subst x; (intro _; clear_value x)])
    | (extract_lets +onlyGivenNames x; subst x)
    | dsimp -zeta only
    | split
    | dsimp only

theorem State.reclaimCell_keeps {s0 : State} {s : State} {k : Nat} {c : Nat} {dest : Nat}  (h : Keeps s0 s) : Keeps s0 (State.reclaimCell s k c dest) := by
  unfold State.reclaimCell
  repeat' first
    | with_reducible first
      | assumption | apply State.bump_keeps | apply State.modTaskOn_keeps | apply State.saveReq_keeps
      | apply State.setWord64_keeps | fail_if_no_progress apply Keeps.mk_ | refine Keeps.of_fst (by assumption) ?_
      | refine Keeps.ite (fun _ => ?_) (fun _ => ?_)
    | (extract_lets +onlyGivenNames x; apply Keeps.cut (t := x) <;> [subst x; (intro _; clear_value x)])
    | (extract_lets +onlyGivenNames x; subst x)
    | dsimp -zeta only
    | split
    | dsimp only

theorem State.finishReclaims_keeps {s0 : State} {s : State} {wanted : State → Nat → Bool}  (h : Keeps s0 s) : Keeps s0 (State.finishReclaims s wanted) := by
  unfold State.finishReclaims
  repeat' first
    | with_reducible first
      | assumption | apply State.bump_keeps | apply State.modTaskOn_keeps | apply State.leaveCell_keeps
      | apply State.joinCell_keeps | apply foldl_keeps | apply foldl_keeps_fst | intro _ | fail_if_no_progress apply Keeps.mk_
      | refine Keeps.of_fst (by assumption) ?_ | refine Keeps.ite (fun _ => ?_) (fun _ => ?_)
    | (extract_lets +onlyGivenNames x; apply Keeps.cut (t := x) <;> [subst x; (intro _; clear_value x)])
    | (extract_lets +onlyGivenNames x; subst x)
    | dsimp -zeta only
    | split
    | dsimp only

theorem State.placeTask_keeps {s0 : State} {s : State} {b2 : ClcTask} {c : Nat}  (h : Keeps s0 s) : Keeps s0 (State.placeTask s b2 c) := by
  unfold State.placeTask
  repeat' first
    | with_reducible first
      | assumption | apply State.launch_keeps | apply State.kernelWrite_keeps | apply State.modCell_keeps
      | fail_if_no_progress apply Keeps.mk_ | refine Keeps.of_fst (by assumption) ?_
      | refine Keeps.ite (fun _ => ?_) (fun _ => ?_)
    | (extract_lets +onlyGivenNames x; apply Keeps.cut (t := x) <;> [subst x; (intro _; clear_value x)])
    | (extract_lets +onlyGivenNames x; subst x)
    | dsimp -zeta only
    | split
    | dsimp only

theorem State.placeClick_keeps {s0 : State} {a1 : Nat} {a2 : Nat} {a3 : State}  (h : Keeps s0 a3) : Keeps s0 (State.placeClick a1 a2 a3) := by
  revert h
  fun_induction State.placeClick a1 a2 a3
  all_goals intro h
  all_goals repeat' first
    | with_reducible first
      | assumption | apply State.placeTask_keeps | apply State.restoreReq_keeps | apply State.setWord64_keeps
      | fail_if_no_progress apply Keeps.mk_ | refine Keeps.of_fst (by assumption) ?_
      | refine Keeps.ite (fun _ => ?_) (fun _ => ?_)
    | with_reducible apply_assumption
    | dsimp -zeta only
    | split
    | dsimp only

theorem State.placeAll_keeps {s0 : State} {s : State}  (h : Keeps s0 s) : Keeps s0 (State.placeAll s) := by
  unfold State.placeAll
  repeat' first
    | with_reducible first
      | assumption | apply State.placeClick_keeps | apply foldl_keeps | apply foldl_keeps_fst | intro _
    | dsimp -zeta only
    | dsimp only

theorem State.takeBurst_keeps {s0 : State} {a1 : Nat} {a2 : Nat} {a3 : State}  (h : Keeps s0 a3) : Keeps s0 (State.takeBurst a1 a2 a3) := by
  revert h
  fun_induction State.takeBurst a1 a2 a3
  all_goals intro h
  all_goals repeat' first
    | with_reducible first
      | assumption | apply State.joinCell_keeps | apply State.reclaimCell_keeps | apply State.bump_keeps
      | fail_if_no_progress apply Keeps.mk_ | refine Keeps.of_fst (by assumption) ?_
      | refine Keeps.ite (fun _ => ?_) (fun _ => ?_)
    | with_reducible apply_assumption
    | dsimp -zeta only
    | split
    | dsimp only

theorem State.bursts_keeps {s0 : State} {s : State}  (h : Keeps s0 s) : Keeps s0 (State.bursts s) := by
  unfold State.bursts
  repeat' first
    | with_reducible first
      | assumption | apply State.takeBurst_keeps | apply foldl_keeps | apply foldl_keeps_fst | intro _
      | fail_if_no_progress apply Keeps.mk_ | refine Keeps.ite (fun _ => ?_) (fun _ => ?_)
    | (extract_lets +onlyGivenNames x; apply Keeps.cut (t := x) <;> [subst x; (intro _; clear_value x)])
    | (extract_lets +onlyGivenNames x; subst x)
    | dsimp -zeta only
    | split
    | dsimp only

theorem State.burstReturns_keeps {s0 : State} {s : State}  (h : Keeps s0 s) : Keeps s0 (State.burstReturns s) := by
  unfold State.burstReturns
  repeat' first
    | with_reducible first
      | assumption | apply State.leaveCell_keeps | apply foldl_keeps | apply foldl_keeps_fst | intro _
      | refine Keeps.ite (fun _ => ?_) (fun _ => ?_)
    | dsimp -zeta only
    | split
    | dsimp only

theorem State.shrink_keeps {s0 : State} {a1 : Nat} {a2 : Nat} {a3 : State}  (h : Keeps s0 a3) : Keeps s0 (State.shrink a1 a2 a3) := by
  revert h
  fun_induction State.shrink a1 a2 a3
  all_goals intro h
  all_goals repeat' first
    | with_reducible first
      | assumption | apply State.leaveCell_keeps | apply State.reclaimCell_keeps | refine Keeps.of_fst (by assumption) ?_
      | refine Keeps.ite (fun _ => ?_) (fun _ => ?_)
    | with_reducible apply_assumption
    | dsimp -zeta only
    | split
    | dsimp only

theorem State.handOut_keeps {s0 : State} {s : State}  (h : Keeps s0 s) : Keeps s0 (State.handOut s) := by
  unfold State.handOut
  repeat' first
    | with_reducible first
      | assumption | apply State.joinCell_keeps | apply foldl_keeps | apply foldl_keeps_fst | intro _
      | refine Keeps.ite (fun _ => ?_) (fun _ => ?_)
    | dsimp -zeta only
    | split
    | dsimp only

theorem State.refreshHeld_keeps {s0 : State} {s : State}  (h : Keeps s0 s) : Keeps s0 (State.refreshHeld s) := by
  unfold State.refreshHeld
  repeat' first
    | with_reducible first
      | assumption | apply State.setNow_keeps | apply State.joinCell_keeps | apply State.checkMin_keeps | apply foldl_keeps
      | apply foldl_keeps_fst | intro _ | refine Keeps.ite (fun _ => ?_) (fun _ => ?_)
    | (extract_lets +onlyGivenNames x; apply Keeps.cut (t := x) <;> [subst x; (intro _; clear_value x)])
    | (extract_lets +onlyGivenNames x; subst x)
    | dsimp -zeta only
    | split
    | dsimp only

theorem State.showSaved_keeps {s0 : State} {s : State}  (h : Keeps s0 s) : Keeps s0 (State.showSaved s) := by
  unfold State.showSaved
  repeat' first
    | with_reducible first
      | assumption | apply State.setFld_keeps
    | dsimp -zeta only
    | dsimp only

theorem State.clickerRound_keeps {s0 : State} {s : State}  (h : Keeps s0 s) : Keeps s0 (State.clickerRound s) := by
  unfold State.clickerRound
  repeat' first
    | with_reducible first
      | assumption | apply State.enforceStops_keeps | apply State.refreshHeld_keeps | apply State.finishReclaims_keeps
      | apply State.startPending_keeps | apply State.finishJobs_keeps | apply State.placeAll_keeps | apply State.bursts_keeps
      | apply State.shrink_keeps | apply State.burstReturns_keeps | apply State.showFree_keeps | apply State.showSaved_keeps
      | apply State.handOut_keeps | apply foldl_keeps | apply foldl_keeps_fst | intro _
      | refine Keeps.ite (fun _ => ?_) (fun _ => ?_)
    | (extract_lets +onlyGivenNames x; apply Keeps.cut (t := x) <;> [subst x; (intro _; clear_value x)])
    | (extract_lets +onlyGivenNames x; subst x)
    | dsimp -zeta only
    | split
    | dsimp only

theorem execTaskPlacement_keeps {s0 : State} {s : State}  (h : Keeps s0 s) : OutKeeps s0 (execTaskPlacement s) := by
  unfold execTaskPlacement
  repeat' first
    | with_reducible first
      | assumption | apply State.clickerRound_keeps | apply OutKeeps.next | refine OutKeeps.ite (fun _ => ?_) (fun _ => ?_)
      | refine Keeps.ite (fun _ => ?_) (fun _ => ?_)
    | dsimp -zeta only
    | split
    | dsimp only

theorem State.outcome_keeps {s0 : State} {s : State} {c : Nat} {status : Nat}  (h : Keeps s0 s) : Keeps s0 (State.outcome s c status) := by
  unfold State.outcome
  repeat' first
    | with_reducible first
      | assumption | apply State.ackReq_keeps | apply State.bump_keeps | apply State.modJob_keeps
      | apply State.stageDone_keeps | apply State.stopJob_keeps | fail_if_no_progress apply Keeps.mk_
      | refine Keeps.of_fst (by assumption) ?_ | refine Keeps.ite (fun _ => ?_) (fun _ => ?_)
    | (extract_lets +onlyGivenNames x; apply Keeps.cut (t := x) <;> [subst x; (intro _; clear_value x)])
    | (extract_lets +onlyGivenNames x; subst x)
    | dsimp -zeta only
    | split
    | dsimp only

theorem execTaskOutcome_keeps {s0 : State} {s : State}  (h : Keeps s0 s) : OutKeeps s0 (execTaskOutcome s) := by
  unfold execTaskOutcome
  repeat' first
    | with_reducible first
      | assumption | apply State.finishJobs_keeps | apply State.enforceStops_keeps | apply State.outcome_keeps
      | apply OutKeeps.next | fail_if_no_progress apply Keeps.mk_ | refine Keeps.of_fst (by assumption) ?_
    | (extract_lets +onlyGivenNames x; apply Keeps.cut (t := x) <;> [subst x; (intro _; clear_value x)])
    | (extract_lets +onlyGivenNames x; subst x)
    | dsimp -zeta only
    | split
    | dsimp only

theorem execCompletionBufferDrain_keeps {s0 : State} {s : State}  (h : Keeps s0 s) : OutKeeps s0 (execCompletionBufferDrain s) := by
  unfold execCompletionBufferDrain
  repeat' first
    | with_reducible first
      | assumption | apply State.startPending_keeps | apply State.drainPosts_keeps | apply OutKeeps.next
    | dsimp -zeta only
    | dsimp only

theorem State.clickerInstAbort_keeps {s0 : State} {s : State} {i : Nat}  (h : Keeps s0 s) : Keeps s0 (State.clickerInstAbort s i) := by
  unfold State.clickerInstAbort
  repeat' first
    | with_reducible first
      | assumption | apply State.stopClick_keeps | apply State.finishJobs_keeps | apply State.enforceStops_keeps
      | apply foldl_keeps | apply foldl_keeps_fst | intro _ | fail_if_no_progress apply Keeps.mk_
      | refine Keeps.ite (fun _ => ?_) (fun _ => ?_)
    | (extract_lets +onlyGivenNames x; apply Keeps.cut (t := x) <;> [subst x; (intro _; clear_value x)])
    | (extract_lets +onlyGivenNames x; subst x)
    | dsimp -zeta only
    | split
    | dsimp only

theorem execCheckpointDigest_keeps {s0 : State} {side : Bool} {s : State}  (h : Keeps s0 s) : OutKeeps s0 (execCheckpointDigest side s) := by
  unfold execCheckpointDigest
  repeat' first
    | with_reducible first
      | assumption | apply State.dmaReadLong_keeps | apply OutKeeps.next | fail_if_no_progress apply Keeps.mk_
      | refine Keeps.of_fst (by assumption) ?_
    | (extract_lets +onlyGivenNames x; apply Keeps.cut (t := x) <;> [subst x; (intro _; clear_value x)])
    | (extract_lets +onlyGivenNames x; subst x)
    | dsimp -zeta only
    | split
    | dsimp only

theorem State.twlCapture_keeps {s0 : State} {s : State} {b2 : Nat} {seq : Nat} {ckpt : Nat} {cause : Nat} {da : Nat} {db : Nat}  (h : Keeps s0 s) : Keeps s0 (State.twlCapture s b2 seq ckpt cause da db) := by
  unfold State.twlCapture
  repeat' first
    | with_reducible first
      | assumption | apply State.setRegBytes_keeps | refine Keeps.ite (fun _ => ?_) (fun _ => ?_)
    | (extract_lets +onlyGivenNames x; apply Keeps.cut (t := x) <;> [subst x; (intro _; clear_value x)])
    | (extract_lets +onlyGivenNames x; subst x)
    | dsimp -zeta only
    | split
    | dsimp only

theorem State.twlFail_keeps {s0 : State} {s : State} {slot : Nat} {seq : Nat} {ckpt : Nat} {cause : Nat} {da : Nat} {db : Nat}  (h : Keeps s0 s) : Keeps s0 (State.twlFail s slot seq ckpt cause da db) := by
  unfold State.twlFail
  repeat' first
    | with_reducible first
      | assumption | apply State.twlCapture_keeps | apply State.bump_keeps | apply State.fault_keeps
      | apply State.orWord_keeps | apply State.finishJobs_keeps | apply State.enforceStops_keeps | apply State.stopJob_keeps
      | refine Keeps.of_fst (by assumption) ?_ | refine Keeps.ite (fun _ => ?_) (fun _ => ?_)
    | (extract_lets +onlyGivenNames x; apply Keeps.cut (t := x) <;> [subst x; (intro _; clear_value x)])
    | (extract_lets +onlyGivenNames x; subst x)
    | dsimp -zeta only
    | split
    | dsimp only

theorem State.twlPass_keeps {s0 : State} {s : State} {slot : Nat}  (h : Keeps s0 s) : Keeps s0 (State.twlPass s slot) := by
  unfold State.twlPass
  repeat' first
    | with_reducible first
      | assumption | apply State.bump_keeps | apply State.modJob_keeps | apply State.startStage_keeps
      | apply State.finishJobs_keeps | apply foldl_keeps | apply foldl_keeps_fst | intro _
      | refine Keeps.of_fst (by assumption) ?_ | refine Keeps.ite (fun _ => ?_) (fun _ => ?_)
    | (extract_lets +onlyGivenNames x; apply Keeps.cut (t := x) <;> [subst x; (intro _; clear_value x)])
    | (extract_lets +onlyGivenNames x; subst x)
    | dsimp -zeta only
    | split
    | dsimp only

theorem execDigestCompare_keeps {s0 : State} {slot : Fin 4096} {s : State}  (h : Keeps s0 s) : OutKeeps s0 (execDigestCompare slot s) := by
  unfold execDigestCompare
  repeat' first
    | with_reducible first
      | assumption | apply State.twlPass_keeps | apply State.twlFail_keeps | apply OutKeeps.next
      | fail_if_no_progress apply Keeps.mk_ | refine Keeps.of_fst (by assumption) ?_
      | refine OutKeeps.ite (fun _ => ?_) (fun _ => ?_) | refine Keeps.ite (fun _ => ?_) (fun _ => ?_)
    | (extract_lets +onlyGivenNames x; apply Keeps.cut (t := x) <;> [subst x; (intro _; clear_value x)])
    | (extract_lets +onlyGivenNames x; subst x)
    | dsimp -zeta only
    | split
    | dsimp only

theorem execDigestLate_keeps {s0 : State} {slot : Fin 4096} {s : State}  (h : Keeps s0 s) : OutKeeps s0 (execDigestLate slot s) := by
  unfold execDigestLate
  repeat' first
    | with_reducible first
      | assumption | apply State.timeTo_keeps | apply State.twlFail_keeps | apply OutKeeps.next
      | fail_if_no_progress apply Keeps.mk_ | refine Keeps.of_fst (by assumption) ?_
      | refine OutKeeps.ite (fun _ => ?_) (fun _ => ?_) | refine Keeps.ite (fun _ => ?_) (fun _ => ?_)
    | (extract_lets +onlyGivenNames x; apply Keeps.cut (t := x) <;> [subst x; (intro _; clear_value x)])
    | (extract_lets +onlyGivenNames x; subst x)
    | dsimp -zeta only
    | split
    | dsimp only

end Sys2Proof.Machine
end

