-- ==== Sys2Proof/Laws/KeepsRas.lean ====
section
/-! SUPPORT. What Machine/Ras.lean keeps. -/

namespace Sys2Proof.Machine

set_option linter.unusedTactic false
set_option linter.unreachableTactic false

theorem State.setFe_keeps {s0 : State} {s : State} {f : Nat} {b3 : RasFe}  (h : Keeps s0 s) : Keeps s0 (State.setFe s f b3) := by
  unfold State.setFe
  repeat' first
    | with_reducible first
      | assumption | fail_if_no_progress apply Keeps.mk_
    | (extract_lets +onlyGivenNames x; apply Keeps.cut (t := x) <;> [subst x; (intro _; clear_value x)])
    | (extract_lets +onlyGivenNames x; subst x)
    | dsimp -zeta only
    | dsimp only

theorem State.setPass_keeps {s0 : State} {s : State} {f : Nat} {p : Option RasPass}  (h : Keeps s0 s) : Keeps s0 (State.setPass s f p) := by
  unfold State.setPass
  repeat' first
    | with_reducible first
      | assumption | apply State.setFe_keeps
    | (extract_lets +onlyGivenNames x; apply Keeps.cut (t := x) <;> [subst x; (intro _; clear_value x)])
    | (extract_lets +onlyGivenNames x; subst x)
    | dsimp -zeta only
    | dsimp only

theorem State.feShow_keeps {s0 : State} {s : State} {f : Nat}  (h : Keeps s0 s) : Keeps s0 (State.feShow s f) := by
  unfold State.feShow
  repeat' first
    | with_reducible first
      | assumption | apply State.setBit_keeps
    | dsimp -zeta only
    | dsimp only

theorem State.feNext_keeps {s0 : State} {s : State} {f : Nat}  (h : Keeps s0 s) : Keeps s0 (State.feNext s f) := by
  unfold State.feNext
  repeat' first
    | with_reducible first
      | assumption | apply State.feShow_keeps | apply State.setBit_keeps | apply State.setFld_keeps
    | dsimp -zeta only
    | dsimp only

theorem State.feEvent_keeps {s0 : State} {s : State} {f : Nat} {type : Nat} {code : Nat} {pass : Nat}  (h : Keeps s0 s) : Keeps s0 (State.feEvent s f type code pass) := by
  unfold State.feEvent
  repeat' first
    | with_reducible first
      | assumption | apply State.setFe_keeps | apply State.bump_keeps | apply State.post_keeps
      | refine Keeps.of_fst (by assumption) ?_
    | (extract_lets +onlyGivenNames x; apply Keeps.cut (t := x) <;> [subst x; (intro _; clear_value x)])
    | (extract_lets +onlyGivenNames x; subst x)
    | dsimp -zeta only
    | split
    | dsimp only

theorem State.feRetry_keeps {s0 : State} {s : State} {f : Nat}  (h : Keeps s0 s) : Keeps s0 (State.feRetry s f) := by
  unfold State.feRetry
  repeat' first
    | with_reducible first
      | assumption | apply State.setFe_keeps | apply State.bump_keeps | apply State.post_keeps | apply foldl_keeps
      | apply foldl_keeps_fst | intro _ | refine Keeps.of_fst (by assumption) ?_
    | (extract_lets +onlyGivenNames x; apply Keeps.cut (t := x) <;> [subst x; (intro _; clear_value x)])
    | (extract_lets +onlyGivenNames x; subst x)
    | dsimp -zeta only
    | split
    | dsimp only

theorem execRasEventRetry_keeps {s0 : State} {fe : Fin 2} {s : State}  (h : Keeps s0 s) : OutKeeps s0 (execRasEventRetry fe s) := by
  unfold execRasEventRetry
  repeat' first
    | with_reducible first
      | assumption | apply State.feRetry_keeps | apply OutKeeps.next
    | dsimp -zeta only
    | dsimp only

theorem State.feError_keeps {s0 : State} {s : State} {f : Nat} {code : Nat}  (h : Keeps s0 s) : Keeps s0 (State.feError s f code) := by
  unfold State.feError
  repeat' first
    | with_reducible first
      | assumption | apply State.setFld_keeps | apply State.fault_keeps | apply State.orWord_keeps
      | apply State.setWord64_keeps | apply State.feEvent_keeps | apply State.setPass_keeps
      | refine Keeps.of_fst (by assumption) ?_ | refine Keeps.ite (fun _ => ?_) (fun _ => ?_)
    | (extract_lets +onlyGivenNames x; apply Keeps.cut (t := x) <;> [subst x; (intro _; clear_value x)])
    | (extract_lets +onlyGivenNames x; subst x)
    | dsimp -zeta only
    | split
    | dsimp only

theorem State.feFetch_keeps {s0 : State} {s : State} {f : Nat} {want : Nat}  (h : Keeps s0 s) : Keeps s0 (State.feFetch s f want).1 := by
  unfold State.feFetch
  repeat' first
    | with_reducible first
      | assumption | apply State.rdV_keeps | apply State.feError_keeps | refine Keeps.of_fst (by assumption) ?_
      | refine Keeps.ite1 (fun _ => ?_) (fun _ => ?_) | refine Keeps.ite (fun _ => ?_) (fun _ => ?_)
    | (extract_lets +onlyGivenNames x; apply Keeps.cut (t := x) <;> [subst x; (intro _; clear_value x)])
    | (extract_lets +onlyGivenNames x; subst x)
    | dsimp -zeta only
    | split
    | dsimp only

theorem State.feRun_keeps {s0 : State} {s : State} {f : Nat} {want : Nat} {zeros : List (Nat × Nat)} {go : State → List Byte → State × Nat} (hgo : ∀ s x0, Keeps s0 s → Keeps s0 (go s x0).1) (h : Keeps s0 s) : Keeps s0 (State.feRun s f want zeros go) := by
  unfold State.feRun
  repeat' first
    | with_reducible first
      | assumption | apply hgo | apply State.feFetch_keeps | apply State.feError_keeps | apply State.feNext_keeps
      | refine Keeps.of_fst (by assumption) ?_ | refine Keeps.ite (fun _ => ?_) (fun _ => ?_)
    | dsimp -zeta only
    | split
    | dsimp only

theorem execRasFeTailWrite_keeps {s0 : State} {m : Master} {inst : Option (Fin 64)} {fe : Fin 2} {v : BitVec 16} {s : State}  (h : Keeps s0 s) : OutKeeps s0 (execRasFeTailWrite m inst fe v s) := by
  unfold execRasFeTailWrite
  repeat' first
    | with_reducible first
      | assumption | apply State.respOk_keeps | apply State.feShow_keeps | apply State.setFld_keeps | apply State.refuse_keeps
      | apply OutKeeps.next | refine OutKeeps.ite (fun _ => ?_) (fun _ => ?_) | refine Keeps.ite (fun _ => ?_) (fun _ => ?_)
    | dsimp -zeta only
    | split
    | dsimp only

theorem execRasNop_keeps {s0 : State} {fe : Fin 2} {s : State}  (h : Keeps s0 s) : OutKeeps s0 (execRasNop fe s) := by
  unfold execRasNop
  repeat' first
    | with_reducible first
      | assumption | apply State.feRun_keeps | apply OutKeeps.next | intro _
    | dsimp -zeta only
    | dsimp only

theorem execBeginPass_keeps {s0 : State} {fe : Fin 2} {s : State}  (h : Keeps s0 s) : OutKeeps s0 (execBeginPass fe s) := by
  unfold execBeginPass
  repeat' first
    | with_reducible first
      | assumption | apply State.feRun_keeps | apply State.rdV_keeps | apply State.setPass_keeps | apply OutKeeps.next
      | intro _ | refine Keeps.of_fst (by assumption) ?_ | refine OutKeeps.ite (fun _ => ?_) (fun _ => ?_)
      | refine Keeps.ite (fun _ => ?_) (fun _ => ?_)
    | dsimp -zeta only
    | split
    | dsimp only

theorem State.binTri_keeps {s0 : State} {s : State} {f : Nat} {p : RasPass} {b4 : RasTri}  (h : Keeps s0 s) : Keeps s0 (State.binTri s f p b4).1 := by
  unfold State.binTri
  repeat' first
    | with_reducible first
      | assumption | apply State.fault_keeps | apply State.orWord_keeps | apply State.freeBytes_keeps
      | apply State.wrLong_keeps | refine Keeps.of_fst (by assumption) ?_ | refine Keeps.of_snd (by assumption) ?_
      | refine Keeps.ite1 (fun _ => ?_) (fun _ => ?_) | refine Keeps.ite (fun _ => ?_) (fun _ => ?_)
    | (extract_lets +onlyGivenNames x; apply Keeps.cut (t := x) <;> [subst x; (intro _; clear_value x)])
    | (extract_lets +onlyGivenNames x; subst x)
    | dsimp -zeta only
    | split
    | dsimp only

theorem State.drawTris_keeps {s0 : State} {s : State} {f : Nat} {base : Nat} {start : Nat} {st : Nat} {p : RasPass} {i : Nat} {a8 : Nat}  (h : Keeps s0 s) : Keeps s0 (State.drawTris s f base start st p i a8).1 := by
  revert h
  fun_induction State.drawTris s f base start st p i a8
  all_goals intro h
  all_goals repeat' first
    | with_reducible first
      | assumption | apply State.rdLong_keeps | apply State.bump_keeps | apply State.binTri_keeps
      | refine Keeps.of_fst (by assumption) ?_ | refine Keeps.ite1 (fun _ => ?_) (fun _ => ?_)
      | refine Keeps.ite (fun _ => ?_) (fun _ => ?_)
    | with_reducible apply_assumption
    | dsimp -zeta only
    | split
    | dsimp only

theorem execDraw_keeps {s0 : State} {fe : Fin 2} {s : State}  (h : Keeps s0 s) : OutKeeps s0 (execDraw fe s) := by
  unfold execDraw
  repeat' first
    | with_reducible first
      | assumption | apply State.feRun_keeps | apply State.drawTris_keeps | apply State.setPass_keeps | apply OutKeeps.next
      | intro _ | refine Keeps.of_fst (by assumption) ?_ | refine OutKeeps.ite (fun _ => ?_) (fun _ => ?_)
      | refine Keeps.ite (fun _ => ?_) (fun _ => ?_)
    | (extract_lets +onlyGivenNames x; apply Keeps.cut (t := x) <;> [subst x; (intro _; clear_value x)])
    | (extract_lets +onlyGivenNames x; subst x)
    | dsimp -zeta only
    | split
    | dsimp only

theorem passTile_keeps {s0 : State} {f : Nat} {p : RasPass} {n : Nat} {o : PassOut}  (h : Keeps s0 o.s) : Keeps s0 (passTile f p n o).s := by
  unfold passTile
  repeat' first
    | with_reducible first
      | assumption | apply State.orWord_keeps | apply State.bumpBy_keeps | apply State.wrLong_keeps
      | refine Keeps.of_fst (by assumption) ?_ | refine Keeps.ite (fun _ => ?_) (fun _ => ?_)
    | (extract_lets +onlyGivenNames x; apply Keeps.cut (t := x) <;> [subst x; (intro _; clear_value x)])
    | (extract_lets +onlyGivenNames x; subst x)
    | dsimp -zeta only
    | split
    | dsimp only

theorem State.passTiles_keeps {s0 : State} {s : State} {f : Nat} {p : RasPass}  (h : Keeps s0 s) : Keeps s0 (State.passTiles s f p).s := by
  unfold State.passTiles
  repeat' first
    | with_reducible first
      | assumption | apply passTile_keeps | apply foldl_keeps | apply foldl_keeps_fst | apply foldl_keeps_by PassOut.s
      | intro _
    | dsimp -zeta only
    | dsimp only

theorem State.feRelease_keeps {s0 : State} {s : State} {f : Nat} {slot : Nat} {param : Nat}  (h : Keeps s0 s) : Keeps s0 (State.feRelease s f slot param) := by
  unfold State.feRelease
  repeat' first
    | with_reducible first
      | assumption | apply State.release_keeps
    | dsimp -zeta only
    | dsimp only

theorem execEndPass_keeps {s0 : State} {fe : Fin 2} {s : State}  (h : Keeps s0 s) : OutKeeps s0 (execEndPass fe s) := by
  unfold execEndPass
  repeat' first
    | with_reducible first
      | assumption | apply State.feRun_keeps | apply State.passTiles_keeps | apply State.wrLong_keeps | apply State.bump_keeps
      | apply State.setPass_keeps | apply State.feEvent_keeps | apply State.feRelease_keeps | apply OutKeeps.next | intro _
      | refine Keeps.of_fst (by assumption) ?_ | refine OutKeeps.ite (fun _ => ?_) (fun _ => ?_)
      | refine Keeps.ite (fun _ => ?_) (fun _ => ?_)
    | (extract_lets +onlyGivenNames x; apply Keeps.cut (t := x) <;> [subst x; (intro _; clear_value x)])
    | (extract_lets +onlyGivenNames x; subst x)
    | dsimp -zeta only
    | split
    | dsimp only

theorem execRelease_keeps {s0 : State} {fe : Fin 2} {s : State}  (h : Keeps s0 s) : OutKeeps s0 (execRelease fe s) := by
  unfold execRelease
  repeat' first
    | with_reducible first
      | assumption | apply State.feRun_keeps | apply State.feRelease_keeps | apply OutKeeps.next | intro _
      | refine OutKeeps.ite (fun _ => ?_) (fun _ => ?_) | refine Keeps.ite (fun _ => ?_) (fun _ => ?_)
    | dsimp -zeta only
    | split
    | dsimp only

theorem State.waitMem_keeps {s0 : State} {s : State} {f : Nat} {polling : Bool}  (h : Keeps s0 s) : Keeps s0 (State.waitMem s f polling) := by
  unfold State.waitMem
  repeat' first
    | with_reducible first
      | assumption | apply State.feFetch_keeps | apply State.feError_keeps | apply State.rdV_keeps | apply State.feNext_keeps
      | apply State.setBit_keeps | refine Keeps.of_fst (by assumption) ?_ | refine Keeps.ite (fun _ => ?_) (fun _ => ?_)
    | dsimp -zeta only
    | split
    | dsimp only

theorem execWaitMem_keeps {s0 : State} {fe : Fin 2} {s : State}  (h : Keeps s0 s) : OutKeeps s0 (execWaitMem fe s) := by
  unfold execWaitMem
  repeat' first
    | with_reducible first
      | assumption | apply State.waitMem_keeps | apply OutKeeps.next
    | dsimp -zeta only
    | dsimp only

theorem execWaitMemPoll_keeps {s0 : State} {fe : Fin 2} {s : State}  (h : Keeps s0 s) : OutKeeps s0 (execWaitMemPoll fe s) := by
  unfold execWaitMemPoll
  repeat' first
    | with_reducible first
      | assumption | apply State.waitMem_keeps | apply OutKeeps.next
    | dsimp -zeta only
    | dsimp only

theorem execSignalMem_keeps {s0 : State} {fe : Fin 2} {s : State}  (h : Keeps s0 s) : OutKeeps s0 (execSignalMem fe s) := by
  unfold execSignalMem
  repeat' first
    | with_reducible first
      | assumption | apply State.feRun_keeps | apply State.wrV_keeps | apply OutKeeps.next | intro _
      | refine Keeps.of_fst (by assumption) ?_ | refine OutKeeps.ite (fun _ => ?_) (fun _ => ?_)
      | refine Keeps.ite (fun _ => ?_) (fun _ => ?_)
    | dsimp -zeta only
    | split
    | dsimp only

theorem State.splatCell_keeps {s0 : State} {s : State} {f : Nat} {d : List Byte} {cx : Nat} {cy : Nat} {wt : Nat} {feats : List Nat} {bad : Bool}  (h : Keeps s0 s) : Keeps s0 (State.splatCell s f d cx cy wt feats bad).1 := by
  unfold State.splatCell
  repeat' first
    | with_reducible first
      | assumption | apply State.rdLong_keeps | apply State.wrLong_keeps | refine Keeps.of_fst (by assumption) ?_
      | refine Keeps.ite1 (fun _ => ?_) (fun _ => ?_) | refine Keeps.ite (fun _ => ?_) (fun _ => ?_)
    | (extract_lets +onlyGivenNames x; apply Keeps.cut (t := x) <;> [subst x; (intro _; clear_value x)])
    | (extract_lets +onlyGivenNames x; subst x)
    | dsimp -zeta only
    | split
    | dsimp only

theorem State.splatPoint_keeps {s0 : State} {s : State} {f : Nat} {d : List Byte} {i : Nat}  (h : Keeps s0 s) : Keeps s0 (State.splatPoint s f d i).1 := by
  unfold State.splatPoint
  repeat' first
    | with_reducible first
      | assumption | apply State.rdLong_keeps | apply State.bump_keeps | apply State.splatCell_keeps | apply foldl_keeps
      | apply foldl_keeps_fst | intro _ | refine Keeps.of_fst (by assumption) ?_
      | refine Keeps.ite1 (fun _ => ?_) (fun _ => ?_) | refine Keeps.ite (fun _ => ?_) (fun _ => ?_)
    | (extract_lets +onlyGivenNames x; apply Keeps.cut (t := x) <;> [subst x; (intro _; clear_value x)])
    | (extract_lets +onlyGivenNames x; subst x)
    | dsimp -zeta only
    | split
    | dsimp only

theorem State.splatPoints_keeps {s0 : State} {s : State} {f : Nat} {d : List Byte}  (h : Keeps s0 s) : Keeps s0 (State.splatPoints s f d).1 := by
  unfold State.splatPoints
  repeat' first
    | with_reducible first
      | assumption | apply State.splatPoint_keeps | apply foldl_keeps | apply foldl_keeps_fst | intro _
      | refine Keeps.of_fst (by assumption) ?_
    | dsimp -zeta only
    | split
    | dsimp only

theorem execSplat_keeps {s0 : State} {fe : Fin 2} {s : State}  (h : Keeps s0 s) : OutKeeps s0 (execSplat fe s) := by
  unfold execSplat
  repeat' first
    | with_reducible first
      | assumption | apply State.feRun_keeps | apply State.rdLong_keeps | apply State.splatPoints_keeps | apply OutKeeps.next
      | intro _ | refine Keeps.of_fst (by assumption) ?_ | refine OutKeeps.ite (fun _ => ?_) (fun _ => ?_)
      | refine Keeps.ite (fun _ => ?_) (fun _ => ?_)
    | dsimp -zeta only
    | split
    | dsimp only

theorem State.feRestart_keeps {s0 : State} {s : State} {f : Nat} {head : Nat}  (h : Keeps s0 s) : Keeps s0 (State.feRestart s f head) := by
  unfold State.feRestart
  repeat' first
    | with_reducible first
      | assumption | apply State.feShow_keeps | apply State.setFld_keeps | refine Keeps.ite (fun _ => ?_) (fun _ => ?_)
    | dsimp -zeta only
    | split
    | dsimp only

theorem execSkipCmd_keeps {s0 : State} {m : Master} {inst : Option (Fin 64)} {fe : Fin 2} {s : State}  (h : Keeps s0 s) : OutKeeps s0 (execSkipCmd m inst fe s) := by
  unfold execSkipCmd
  repeat' first
    | with_reducible first
      | assumption | apply State.respOk_keeps | apply State.feRestart_keeps | apply State.refuse_keeps | apply OutKeeps.next
      | refine OutKeeps.ite (fun _ => ?_) (fun _ => ?_) | refine Keeps.ite (fun _ => ?_) (fun _ => ?_)
    | dsimp -zeta only
    | split
    | dsimp only

theorem execFlush_keeps {s0 : State} {m : Master} {inst : Option (Fin 64)} {fe : Fin 2} {s : State}  (h : Keeps s0 s) : OutKeeps s0 (execFlush m inst fe s) := by
  unfold execFlush
  repeat' first
    | with_reducible first
      | assumption | apply State.respOk_keeps | apply State.feRestart_keeps | apply State.refuse_keeps | apply OutKeeps.next
      | refine OutKeeps.ite (fun _ => ?_) (fun _ => ?_) | refine Keeps.ite (fun _ => ?_) (fun _ => ?_)
    | dsimp -zeta only
    | split
    | dsimp only

theorem State.feInstReset_keeps {s0 : State} {s : State} {i : Nat}  (h : Keeps s0 s) : Keeps s0 (State.feInstReset s i) := by
  unfold State.feInstReset
  repeat' first
    | with_reducible first
      | assumption | apply State.setFld_keeps | apply State.setFe_keeps | apply State.feShow_keeps | apply foldl_keeps
      | apply foldl_keeps_fst | intro _ | refine Keeps.ite (fun _ => ?_) (fun _ => ?_)
    | (extract_lets +onlyGivenNames x; apply Keeps.cut (t := x) <;> [subst x; (intro _; clear_value x)])
    | (extract_lets +onlyGivenNames x; subst x)
    | dsimp -zeta only
    | split
    | dsimp only

end Sys2Proof.Machine
end

