-- ==== Sys2Proof/Laws/KeepsDpy.lean ====
section
/-! SUPPORT. What Machine/Dpy.lean keeps. -/

namespace Sys2Proof.Machine

set_option linter.unusedTactic false
set_option linter.unreachableTactic false

theorem State.setDpy_keeps {s0 : State} {s : State} {n : Nat} {b3 : DpyPipe}  (h : Keeps s0 s) : Keeps s0 (State.setDpy s n b3) := by
  unfold State.setDpy
  repeat' first
    | with_reducible first
      | assumption | fail_if_no_progress apply Keeps.mk_
    | (extract_lets +onlyGivenNames x; apply Keeps.cut (t := x) <;> [subst x; (intro _; clear_value x)])
    | (extract_lets +onlyGivenNames x; subst x)
    | dsimp -zeta only
    | dsimp only

theorem State.pipeEnable_keeps {s0 : State} {s : State} {n : Nat} {expect : Bool}  (h : Keeps s0 s) : Keeps s0 (State.pipeEnable s n expect) := by
  unfold State.pipeEnable
  repeat' first
    | with_reducible first
      | assumption | apply State.setFld_keeps | refine Keeps.ite (fun _ => ?_) (fun _ => ?_)
    | (extract_lets +onlyGivenNames x; apply Keeps.cut (t := x) <;> [subst x; (intro _; clear_value x)])
    | (extract_lets +onlyGivenNames x; subst x)
    | dsimp -zeta only
    | split
    | dsimp only

theorem execDpyPipeEnable_keeps {s0 : State} {m : Master} {inst : Option (Fin 64)} {pipe : Fin 4} {expect : Bool} {s : State}  (h : Keeps s0 s) : OutKeeps s0 (execDpyPipeEnable m inst pipe expect s) := by
  unfold execDpyPipeEnable
  repeat' first
    | with_reducible first
      | assumption | apply State.respOk_keeps | apply State.pipeEnable_keeps | apply State.refuse_keeps | apply OutKeeps.next
      | refine OutKeeps.ite (fun _ => ?_) (fun _ => ?_) | refine Keeps.ite (fun _ => ?_) (fun _ => ?_)
    | dsimp -zeta only
    | split
    | dsimp only

theorem State.dpyOff_keeps {s0 : State} {s : State} {n : Nat}  (h : Keeps s0 s) : Keeps s0 (State.dpyOff s n) := by
  unfold State.dpyOff
  repeat' first
    | with_reducible first
      | assumption | apply State.emit_keeps | apply State.setFld_keeps
    | dsimp -zeta only
    | dsimp only

theorem State.pipeDisable_keeps {s0 : State} {s : State} {n : Nat} {expect : Bool}  (h : Keeps s0 s) : Keeps s0 (State.pipeDisable s n expect) := by
  unfold State.pipeDisable
  repeat' first
    | with_reducible first
      | assumption | apply State.setFld_keeps | apply State.dpyOff_keeps | refine Keeps.ite (fun _ => ?_) (fun _ => ?_)
    | (extract_lets +onlyGivenNames x; apply Keeps.cut (t := x) <;> [subst x; (intro _; clear_value x)])
    | (extract_lets +onlyGivenNames x; subst x)
    | dsimp -zeta only
    | split
    | dsimp only

theorem execDpyPipeDisable_keeps {s0 : State} {m : Master} {inst : Option (Fin 64)} {pipe : Fin 4} {expect : Bool} {s : State}  (h : Keeps s0 s) : OutKeeps s0 (execDpyPipeDisable m inst pipe expect s) := by
  unfold execDpyPipeDisable
  repeat' first
    | with_reducible first
      | assumption | apply State.respOk_keeps | apply State.pipeDisable_keeps | apply State.refuse_keeps | apply OutKeeps.next
      | refine OutKeeps.ite (fun _ => ?_) (fun _ => ?_) | refine Keeps.ite (fun _ => ?_) (fun _ => ?_)
    | dsimp -zeta only
    | split
    | dsimp only

theorem State.scanLine_keeps {s0 : State} {s : State} {n : Nat} {base : Nat} {line : Nat} {k : Nat}  (h : Keeps s0 s) : Keeps s0 (State.scanLine s n base line k).1 := by
  unfold State.scanLine
  repeat' first
    | with_reducible first
      | assumption | apply State.rdLong_keeps | refine Keeps.of_fst (by assumption) ?_
      | refine Keeps.ite1 (fun _ => ?_) (fun _ => ?_) | refine Keeps.ite (fun _ => ?_) (fun _ => ?_)
    | (extract_lets +onlyGivenNames x; apply Keeps.cut (t := x) <;> [subst x; (intro _; clear_value x)])
    | (extract_lets +onlyGivenNames x; subst x)
    | dsimp -zeta only
    | split
    | dsimp only

theorem State.underflow_keeps {s0 : State} {s : State} {n : Nat}  (h : Keeps s0 s) : Keeps s0 (State.underflow s n) := by
  unfold State.underflow
  repeat' first
    | with_reducible first
      | assumption | apply State.orWord_keeps | apply State.bump_keeps | apply State.fault_keeps | apply State.setDpy_keeps
      | refine Keeps.ite (fun _ => ?_) (fun _ => ?_)
    | (extract_lets +onlyGivenNames x; apply Keeps.cut (t := x) <;> [subst x; (intro _; clear_value x)])
    | (extract_lets +onlyGivenNames x; subst x)
    | dsimp -zeta only
    | split
    | dsimp only

theorem State.lockLoss_keeps {s0 : State} {s : State} {n : Nat}  (h : Keeps s0 s) : Keeps s0 (State.lockLoss s n) := by
  unfold State.lockLoss
  repeat' first
    | with_reducible first
      | assumption | apply State.orWord_keeps | apply State.setBit_keeps | refine Keeps.ite (fun _ => ?_) (fun _ => ?_)
    | dsimp -zeta only
    | split
    | dsimp only

theorem State.lockFrame_keeps {s0 : State} {s : State} {n : Nat} {onTarget : Bool}  (h : Keeps s0 s) : Keeps s0 (State.lockFrame s n onTarget) := by
  unfold State.lockFrame
  repeat' first
    | with_reducible first
      | assumption | apply State.setBit_keeps | apply State.lockLoss_keeps | refine Keeps.ite (fun _ => ?_) (fun _ => ?_)
    | (extract_lets +onlyGivenNames x; apply Keeps.cut (t := x) <;> [subst x; (intro _; clear_value x)])
    | (extract_lets +onlyGivenNames x; subst x)
    | dsimp -zeta only
    | split
    | dsimp only

theorem State.dpyFrame_keeps {s0 : State} {s : State} {n : Nat} {onTarget : Bool} {late : List (Nat × Nat)}  (h : Keeps s0 s) : Keeps s0 (State.dpyFrame s n onTarget late) := by
  unfold State.dpyFrame
  repeat' first
    | with_reducible first
      | assumption | apply State.dpyOff_keeps | apply State.setWord_keeps | apply State.setFld_keeps
      | apply State.lockFrame_keeps | apply State.phxEvent_keeps | apply State.setDpy_keeps | apply State.scanLine_keeps
      | apply State.freeBytes_keeps | apply State.emit_keeps | apply State.underflow_keeps | apply foldl_keeps
      | apply foldl_keeps_fst | intro _ | refine Keeps.of_fst (by assumption) ?_ | refine Keeps.of_snd (by assumption) ?_
      | refine Keeps.ite (fun _ => ?_) (fun _ => ?_)
    | (extract_lets +onlyGivenNames x; apply Keeps.cut (t := x) <;> [subst x; (intro _; clear_value x)])
    | (extract_lets +onlyGivenNames x; subst x)
    | dsimp -zeta only
    | split
    | dsimp only

theorem execDpyFrameStart_keeps {s0 : State} {pipe : Fin 4} {onTarget : Bool} {late : List (BitVec 16 × BitVec 16)} {s : State}  (h : Keeps s0 s) : OutKeeps s0 (execDpyFrameStart pipe onTarget late s) := by
  unfold execDpyFrameStart
  repeat' first
    | with_reducible first
      | assumption | apply State.dpyFrame_keeps | apply OutKeeps.next
    | dsimp -zeta only
    | dsimp only

theorem State.lineDl_keeps {s0 : State} {s : State} {n : Nat}  (h : Keeps s0 s) : Keeps s0 (State.lineDl s n) := by
  unfold State.lineDl
  repeat' first
    | with_reducible first
      | assumption | apply State.setFld_keeps | apply State.setDpy_keeps | apply State.orWord_keeps | apply State.bump_keeps
      | refine Keeps.ite (fun _ => ?_) (fun _ => ?_)
    | (extract_lets +onlyGivenNames x; apply Keeps.cut (t := x) <;> [subst x; (intro _; clear_value x)])
    | (extract_lets +onlyGivenNames x; subst x)
    | dsimp -zeta only
    | split
    | dsimp only

theorem execDpyLineDl_keeps {s0 : State} {pipe : Fin 4} {s : State}  (h : Keeps s0 s) : OutKeeps s0 (execDpyLineDl pipe s) := by
  unfold execDpyLineDl
  repeat' first
    | with_reducible first
      | assumption | apply State.lineDl_keeps | apply OutKeeps.next
    | dsimp -zeta only
    | dsimp only

theorem State.flipLatch_keeps {s0 : State} {s : State} {n : Nat}  (h : Keeps s0 s) : Keeps s0 (State.flipLatch s n) := by
  unfold State.flipLatch
  repeat' first
    | with_reducible first
      | assumption | apply State.setFld_keeps | apply State.setBit_keeps | apply State.setDpy_keeps
      | refine Keeps.ite (fun _ => ?_) (fun _ => ?_)
    | (extract_lets +onlyGivenNames x; apply Keeps.cut (t := x) <;> [subst x; (intro _; clear_value x)])
    | (extract_lets +onlyGivenNames x; subst x)
    | dsimp -zeta only
    | split
    | dsimp only

theorem execDpyFlipLatch_keeps {s0 : State} {pipe : Fin 4} {s : State}  (h : Keeps s0 s) : OutKeeps s0 (execDpyFlipLatch pipe s) := by
  unfold execDpyFlipLatch
  repeat' first
    | with_reducible first
      | assumption | apply State.flipLatch_keeps | apply OutKeeps.next
    | dsimp -zeta only
    | dsimp only

theorem State.flip_keeps {s0 : State} {s : State} {n : Nat} {b : Nat}  (h : Keeps s0 s) : Keeps s0 (State.flip s n b) := by
  unfold State.flip
  repeat' first
    | with_reducible first
      | assumption | apply State.setDpy_keeps | apply State.bump_keeps | apply State.setBit_keeps | apply State.setFld_keeps
      | refine Keeps.ite (fun _ => ?_) (fun _ => ?_)
    | (extract_lets +onlyGivenNames x; apply Keeps.cut (t := x) <;> [subst x; (intro _; clear_value x)])
    | (extract_lets +onlyGivenNames x; subst x)
    | dsimp -zeta only
    | split
    | dsimp only

theorem execDpyPipeFlip_keeps {s0 : State} {m : Master} {inst : Option (Fin 64)} {pipe : Fin 4} {buf : Fin 4} {s : State}  (h : Keeps s0 s) : OutKeeps s0 (execDpyPipeFlip m inst pipe buf s) := by
  unfold execDpyPipeFlip
  repeat' first
    | with_reducible first
      | assumption | apply State.respOk_keeps | apply State.flip_keeps | apply State.refuse_keeps | apply OutKeeps.next
      | refine OutKeeps.ite (fun _ => ?_) (fun _ => ?_) | refine Keeps.ite (fun _ => ?_) (fun _ => ?_)
    | dsimp -zeta only
    | split
    | dsimp only

theorem execDpyLockLoss_keeps {s0 : State} {pipe : Fin 4} {s : State}  (h : Keeps s0 s) : OutKeeps s0 (execDpyLockLoss pipe s) := by
  unfold execDpyLockLoss
  repeat' first
    | with_reducible first
      | assumption | apply State.lockLoss_keeps | apply OutKeeps.next
    | dsimp -zeta only
    | dsimp only

theorem State.sideGo_keeps {s0 : State} {s : State} {n : Nat} {v : Nat}  (h : Keeps s0 s) : Keeps s0 (State.sideGo s n v) := by
  unfold State.sideGo
  repeat' first
    | with_reducible first
      | assumption | apply State.setWord_keeps | apply State.emit_keeps | refine Keeps.ite (fun _ => ?_) (fun _ => ?_)
    | (extract_lets +onlyGivenNames x; apply Keeps.cut (t := x) <;> [subst x; (intro _; clear_value x)])
    | (extract_lets +onlyGivenNames x; subst x)
    | dsimp -zeta only
    | split
    | dsimp only

theorem execSideGo_keeps {s0 : State} {m : Master} {inst : Option (Fin 64)} {pipe : Fin 4} {v : BitVec 32} {s : State}  (h : Keeps s0 s) : OutKeeps s0 (execSideGo m inst pipe v s) := by
  unfold execSideGo
  repeat' first
    | with_reducible first
      | assumption | apply State.respOk_keeps | apply State.sideGo_keeps | apply State.refuse_keeps | apply OutKeeps.next
      | refine OutKeeps.ite (fun _ => ?_) (fun _ => ?_) | refine Keeps.ite (fun _ => ?_) (fun _ => ?_)
    | dsimp -zeta only
    | split
    | dsimp only

theorem State.sideDone_keeps {s0 : State} {s : State} {n : Nat} {data : List Byte}  (h : Keeps s0 s) : Keeps s0 (State.sideDone s n data) := by
  unfold State.sideDone
  repeat' first
    | with_reducible first
      | assumption | apply State.setRegBytes_keeps | apply State.orWord_keeps | apply State.setBit_keeps
      | refine Keeps.ite (fun _ => ?_) (fun _ => ?_)
    | (extract_lets +onlyGivenNames x; apply Keeps.cut (t := x) <;> [subst x; (intro _; clear_value x)])
    | (extract_lets +onlyGivenNames x; subst x)
    | dsimp -zeta only
    | split
    | dsimp only

theorem execSideDone_keeps {s0 : State} {pipe : Fin 4} {data : List Byte} {s : State}  (h : Keeps s0 s) : OutKeeps s0 (execSideDone pipe data s) := by
  unfold execSideDone
  repeat' first
    | with_reducible first
      | assumption | apply State.sideDone_keeps | apply OutKeeps.next
    | dsimp -zeta only
    | dsimp only

theorem execHpdEvent_keeps {s0 : State} {pipe : Fin 4} {s : State}  (h : Keeps s0 s) : OutKeeps s0 (execHpdEvent pipe s) := by
  unfold execHpdEvent
  repeat' first
    | with_reducible first
      | assumption | apply State.orWord_keeps | apply OutKeeps.next | refine OutKeeps.ite (fun _ => ?_) (fun _ => ?_)
      | refine Keeps.ite (fun _ => ?_) (fun _ => ?_)
    | dsimp -zeta only
    | split
    | dsimp only

end Sys2Proof.Machine
end

