-- ==== Sys2Proof/Laws/KeepsMbx.lean ====
section
/-! SUPPORT. What Machine/Mbx.lean keeps. -/

namespace Sys2Proof.Machine

set_option linter.unusedTactic false
set_option linter.unreachableTactic false

theorem State.setProc_keeps {s0 : State} {s : State} {p : Nat} {v : Nat}  (h : Keeps s0 s) : Keeps s0 (State.setProc s p v) := by
  unfold State.setProc
  repeat' first
    | with_reducible first
      | assumption | apply State.setFld_keeps
    | dsimp -zeta only
    | dsimp only

theorem State.logPut_keeps {s0 : State} {s : State} {p : Nat} {seq : Nat} {b4 : List Byte}  (h : Keeps s0 s) : Keeps s0 (State.logPut s p seq b4) := by
  unfold State.logPut
  repeat' first
    | with_reducible first
      | assumption | apply State.store_keeps | fail_if_no_progress apply Keeps.mk_
      | refine Keeps.ite (fun _ => ?_) (fun _ => ?_)
    | (extract_lets +onlyGivenNames x; apply Keeps.cut (t := x) <;> [subst x; (intro _; clear_value x)])
    | (extract_lets +onlyGivenNames x; subst x)
    | dsimp -zeta only
    | split
    | dsimp only

theorem State.logDrop_keeps {s0 : State} {s : State} {p : Nat}  (h : Keeps s0 s) : Keeps s0 (State.logDrop s p) := by
  unfold State.logDrop
  repeat' first
    | with_reducible first
      | assumption | apply State.setWord_keeps | fail_if_no_progress apply Keeps.mk_
      | refine Keeps.ite (fun _ => ?_) (fun _ => ?_)
    | (extract_lets +onlyGivenNames x; apply Keeps.cut (t := x) <;> [subst x; (intro _; clear_value x)])
    | (extract_lets +onlyGivenNames x; subst x)
    | dsimp -zeta only
    | split
    | dsimp only

theorem State.logGap_keeps {s0 : State} {s : State} {p : Nat}  (h : Keeps s0 s) : Keeps s0 (State.logGap s p) := by
  unfold State.logGap
  repeat' first
    | with_reducible first
      | assumption | apply State.logDrop_keeps | apply State.bumpBy_keeps | apply State.logPut_keeps
      | apply State.takeFree_keeps | refine Keeps.of_fst (by assumption) ?_ | refine Keeps.of_snd (by assumption) ?_
      | refine Keeps.ite (fun _ => ?_) (fun _ => ?_)
    | (extract_lets +onlyGivenNames x; apply Keeps.cut (t := x) <;> [subst x; (intro _; clear_value x)])
    | (extract_lets +onlyGivenNames x; subst x)
    | dsimp -zeta only
    | split
    | dsimp only

theorem State.logEntry_keeps {s0 : State} {s : State} {p : Nat} {kind : Nat} {level : Nat} {code : Nat} {args : List Nat}  (h : Keeps s0 s) : Keeps s0 (State.logEntry s p kind level code args) := by
  unfold State.logEntry
  repeat' first
    | with_reducible first
      | assumption | apply State.orWord_keeps | apply State.logGap_keeps | apply State.setWord_keeps
      | apply State.logPut_keeps | refine Keeps.ite (fun _ => ?_) (fun _ => ?_)
    | (extract_lets +onlyGivenNames x; apply Keeps.cut (t := x) <;> [subst x; (intro _; clear_value x)])
    | (extract_lets +onlyGivenNames x; subst x)
    | dsimp -zeta only
    | split
    | dsimp only

theorem State.setTrace_keeps {s0 : State} {s : State} {p : Nat} {b3 : Nat × Nat × Nat}  (h : Keeps s0 s) : Keeps s0 (State.setTrace s p b3) := by
  unfold State.setTrace
  repeat' first
    | with_reducible first
      | assumption | fail_if_no_progress apply Keeps.mk_
    | (extract_lets +onlyGivenNames x; apply Keeps.cut (t := x) <;> [subst x; (intro _; clear_value x)])
    | (extract_lets +onlyGivenNames x; subst x)
    | dsimp -zeta only
    | dsimp only

theorem State.logWrite_keeps {s0 : State} {s : State} {p : Nat} {kind : Nat} {level : Nat} {code : Nat} {args : List Nat}  (h : Keeps s0 s) : Keeps s0 (State.logWrite s p kind level code args) := by
  unfold State.logWrite
  repeat' first
    | with_reducible first
      | assumption | apply State.logEntry_keeps | apply State.setTrace_keeps | apply State.orWord_keeps
      | apply State.bump_keeps | fail_if_no_progress apply Keeps.mk_ | refine Keeps.of_fst (by assumption) ?_
      | refine Keeps.ite (fun _ => ?_) (fun _ => ?_)
    | (extract_lets +onlyGivenNames x; apply Keeps.cut (t := x) <;> [subst x; (intro _; clear_value x)])
    | (extract_lets +onlyGivenNames x; subst x)
    | dsimp -zeta only
    | split
    | dsimp only

theorem execLogEntryWrite_keeps {s0 : State} {proc : Fin 6} {kind : Fin 4} {level : Fin 4} {code : BitVec 16} {args : BitVec 128} {s : State}  (h : Keeps s0 s) : OutKeeps s0 (execLogEntryWrite proc kind level code args s) := by
  unfold execLogEntryWrite
  repeat' first
    | with_reducible first
      | assumption | apply State.logWrite_keeps | apply OutKeeps.next
    | dsimp -zeta only
    | dsimp only

theorem State.traceWindow_keeps {s0 : State} {s : State} {p : Nat}  (h : Keeps s0 s) : Keeps s0 (State.traceWindow s p) := by
  unfold State.traceWindow
  repeat' first
    | with_reducible first
      | assumption | apply State.logEntry_keeps | apply State.setTrace_keeps | apply foldl_keeps | apply foldl_keeps_fst
      | intro _ | fail_if_no_progress apply Keeps.mk_ | refine Keeps.of_fst (by assumption) ?_
      | refine Keeps.ite (fun _ => ?_) (fun _ => ?_)
    | (extract_lets +onlyGivenNames x; apply Keeps.cut (t := x) <;> [subst x; (intro _; clear_value x)])
    | (extract_lets +onlyGivenNames x; subst x)
    | dsimp -zeta only
    | split
    | dsimp only

theorem execTraceWindow_keeps {s0 : State} {proc : Fin 6} {s : State}  (h : Keeps s0 s) : OutKeeps s0 (execTraceWindow proc s) := by
  unfold execTraceWindow
  repeat' first
    | with_reducible first
      | assumption | apply State.traceWindow_keeps | apply OutKeeps.next
    | dsimp -zeta only
    | dsimp only

theorem execLogTailWrite_keeps {s0 : State} {m : Master} {proc : Fin 6} {v : BitVec 32} {s : State}  (h : Keeps s0 s) : OutKeeps s0 (execLogTailWrite m proc v s) := by
  unfold execLogTailWrite
  repeat' first
    | with_reducible first
      | assumption | apply State.refuse_keeps | apply State.respOk_keeps | apply State.setBit_keeps
      | apply State.setWord_keeps | apply OutKeeps.next | fail_if_no_progress apply Keeps.mk_
      | refine OutKeeps.ite (fun _ => ?_) (fun _ => ?_) | refine Keeps.ite (fun _ => ?_) (fun _ => ?_)
    | (extract_lets +onlyGivenNames x; apply Keeps.cut (t := x) <;> [subst x; (intro _; clear_value x)])
    | (extract_lets +onlyGivenNames x; subst x)
    | dsimp -zeta only
    | split
    | dsimp only

theorem State.mbxNotify_keeps {s0 : State} {s : State} {b : Nat}  (h : Keeps s0 s) : Keeps s0 (State.mbxNotify s b) := by
  unfold State.mbxNotify
  repeat' first
    | with_reducible first
      | assumption | apply State.notify_keeps
    | dsimp -zeta only
    | dsimp only

theorem State.minorFor_keeps {s0 : State} {s : State} {major : Nat}  (h : Keeps s0 s) : Keeps s0 (State.minorFor s major).2 := by
  unfold State.minorFor
  repeat' first
    | with_reducible first
      | assumption | apply State.takeFree_keeps | refine Keeps.of_fst (by assumption) ?_
      | refine Keeps.of_snd (by assumption) ?_ | refine Keeps.ite2 (fun _ => ?_) (fun _ => ?_)
      | refine Keeps.ite (fun _ => ?_) (fun _ => ?_)
    | dsimp -zeta only
    | split
    | dsimp only

theorem State.mbxAnswer_keeps {s0 : State} {s : State} {b : Nat} {status : Nat} {payload : List Byte} {incarn : Nat}  (h : Keeps s0 s) : Keeps s0 (State.mbxAnswer s b status payload incarn) := by
  unfold State.mbxAnswer
  repeat' first
    | with_reducible first
      | assumption | apply State.minorFor_keeps | apply State.setRegBytes_keeps | apply State.mbxNotify_keeps
      | apply State.setFld_keeps | apply State.setBit_keeps | fail_if_no_progress apply Keeps.mk_
      | refine Keeps.of_fst (by assumption) ?_ | refine Keeps.of_snd (by assumption) ?_
      | refine Keeps.ite (fun _ => ?_) (fun _ => ?_)
    | (extract_lets +onlyGivenNames x; apply Keeps.cut (t := x) <;> [subst x; (intro _; clear_value x)])
    | (extract_lets +onlyGivenNames x; subst x)
    | dsimp -zeta only
    | split
    | dsimp only

theorem State.mbxGo_keeps {s0 : State} {s : State} {b : Nat}  (h : Keeps s0 s) : Keeps s0 (State.mbxGo s b) := by
  unfold State.mbxGo
  repeat' first
    | with_reducible first
      | assumption | apply State.orWord_keeps | apply State.setBit_keeps | apply State.mbxAnswer_keeps
      | fail_if_no_progress apply Keeps.mk_ | refine Keeps.ite (fun _ => ?_) (fun _ => ?_)
    | (extract_lets +onlyGivenNames x; apply Keeps.cut (t := x) <;> [subst x; (intro _; clear_value x)])
    | (extract_lets +onlyGivenNames x; subst x)
    | dsimp -zeta only
    | split
    | dsimp only

theorem execMbxGo_keeps {s0 : State} {m : Master} {inst : Option (Fin 64)} {mbx : Fin 64} {s : State}  (h : Keeps s0 s) : OutKeeps s0 (execMbxGo m inst mbx s) := by
  unfold execMbxGo
  repeat' first
    | with_reducible first
      | assumption | apply State.respOk_keeps | apply State.mbxGo_keeps | apply State.refuse_keeps | apply OutKeeps.next
      | refine OutKeeps.ite (fun _ => ?_) (fun _ => ?_) | refine Keeps.ite (fun _ => ?_) (fun _ => ?_)
    | dsimp -zeta only
    | split
    | dsimp only

theorem State.mbxFree_keeps {s0 : State} {s : State} {b : Nat}  (h : Keeps s0 s) : Keeps s0 (State.mbxFree s b) := by
  unfold State.mbxFree
  repeat' first
    | with_reducible first
      | assumption | apply State.setBit_keeps | refine Keeps.ite (fun _ => ?_) (fun _ => ?_)
    | dsimp -zeta only
    | split
    | dsimp only

theorem execMbxDone_keeps {s0 : State} {m : Master} {inst : Option (Fin 64)} {mbx : Fin 64} {s : State}  (h : Keeps s0 s) : OutKeeps s0 (execMbxDone m inst mbx s) := by
  unfold execMbxDone
  repeat' first
    | with_reducible first
      | assumption | apply State.respOk_keeps | apply State.mbxFree_keeps | apply State.refuse_keeps | apply OutKeeps.next
      | refine OutKeeps.ite (fun _ => ?_) (fun _ => ?_) | refine Keeps.ite (fun _ => ?_) (fun _ => ?_)
    | dsimp -zeta only
    | split
    | dsimp only

theorem State.mbxForget_keeps {s0 : State} {s : State} {b : Nat}  (h : Keeps s0 s) : Keeps s0 (State.mbxForget s b) := by
  unfold State.mbxForget
  repeat' first
    | with_reducible first
      | assumption | apply State.setWord_keeps | apply State.setWord64_keeps
    | dsimp -zeta only
    | dsimp only

theorem State.setPhase_keeps {s0 : State} {s : State} {v : Nat}  (h : Keeps s0 s) : Keeps s0 (State.setPhase s v) := by
  unfold State.setPhase
  repeat' first
    | with_reducible first
      | assumption | apply State.mbxForget_keeps | apply State.setFld_keeps | apply foldl_keeps | apply foldl_keeps_fst
      | intro _
    | dsimp -zeta only
    | dsimp only

theorem State.mbxAbandon_keeps {s0 : State} {s : State} {i : Nat}  (h : Keeps s0 s) : Keeps s0 (State.mbxAbandon s i) := by
  unfold State.mbxAbandon
  repeat' first
    | with_reducible first
      | assumption | apply State.mbxAnswer_keeps | apply State.mbxForget_keeps | apply foldl_keeps | apply foldl_keeps_fst
      | intro _ | refine Keeps.ite (fun _ => ?_) (fun _ => ?_)
    | (extract_lets +onlyGivenNames x; apply Keeps.cut (t := x) <;> [subst x; (intro _; clear_value x)])
    | (extract_lets +onlyGivenNames x; subst x)
    | dsimp -zeta only
    | split
    | dsimp only

theorem State.mbxDown_keeps {s0 : State} {s : State} {p : Nat}  (h : Keeps s0 s) : Keeps s0 (State.mbxDown s p) := by
  unfold State.mbxDown
  repeat' first
    | with_reducible first
      | assumption | apply State.mbxAnswer_keeps | apply State.setBit_keeps | apply foldl_keeps | apply foldl_keeps_fst
      | intro _ | refine Keeps.of_fst (by assumption) ?_ | refine Keeps.ite (fun _ => ?_) (fun _ => ?_)
    | dsimp -zeta only
    | split
    | dsimp only

theorem State.procDie_keeps {s0 : State} {s : State} {p : Nat} {cls : Nat}  (h : Keeps s0 s) : Keeps s0 (State.procDie s p cls) := by
  unfold State.procDie
  repeat' first
    | with_reducible first
      | assumption | apply State.fault_keeps | fail_if_no_progress apply Keeps.mk_
      | refine Keeps.ite (fun _ => ?_) (fun _ => ?_)
    | (extract_lets +onlyGivenNames x; apply Keeps.cut (t := x) <;> [subst x; (intro _; clear_value x)])
    | (extract_lets +onlyGivenNames x; subst x)
    | dsimp -zeta only
    | split
    | dsimp only

theorem execHeartbeatMiss_keeps {s0 : State} {proc : Fin 6} {s : State}  (h : Keeps s0 s) : OutKeeps s0 (execHeartbeatMiss proc s) := by
  unfold execHeartbeatMiss
  repeat' first
    | with_reducible first
      | assumption | apply State.timeTo_keeps | apply State.procDie_keeps | apply State.orWord_keeps | apply OutKeeps.next
      | refine OutKeeps.ite (fun _ => ?_) (fun _ => ?_) | refine Keeps.ite (fun _ => ?_) (fun _ => ?_)
    | (extract_lets +onlyGivenNames x; apply Keeps.cut (t := x) <;> [subst x; (intro _; clear_value x)])
    | (extract_lets +onlyGivenNames x; subst x)
    | dsimp -zeta only
    | split
    | dsimp only

theorem State.pkAbandon_keeps {s0 : State} {s : State} {p : Nat}  (h : Keeps s0 s) : Keeps s0 (State.pkAbandon s p) := by
  unfold State.pkAbandon
  repeat' first
    | with_reducible first
      | assumption | fail_if_no_progress apply Keeps.mk_ | fail_if_no_progress apply Keeps.mkSec
      | refine Keeps.ite (fun _ => ?_) (fun _ => ?_)
    | (extract_lets +onlyGivenNames x; apply Keeps.cut (t := x) <;> [subst x; (intro _; clear_value x)])
    | (extract_lets +onlyGivenNames x; subst x)
    | dsimp -zeta only
    | split
    | dsimp only

theorem State.procRaise_keeps {s0 : State} {s : State} {p : Nat}  (h : Keeps s0 s) : Keeps s0 (State.procRaise s p) := by
  unfold State.procRaise
  repeat' first
    | with_reducible first
      | assumption | apply State.setProc_keeps | apply State.setFld_keeps | apply State.mbxDown_keeps
      | apply State.pkAbandon_keeps | apply foldl_keeps | apply foldl_keeps_fst | intro _
      | refine Keeps.ite (fun _ => ?_) (fun _ => ?_)
    | (extract_lets +onlyGivenNames x; apply Keeps.cut (t := x) <;> [subst x; (intro _; clear_value x)])
    | (extract_lets +onlyGivenNames x; subst x)
    | dsimp -zeta only
    | split
    | dsimp only

theorem execFwpProcessorRestart_keeps {s0 : State} {proc : Fin 6} {s : State}  (h : Keeps s0 s) : OutKeeps s0 (execFwpProcessorRestart proc s) := by
  unfold execFwpProcessorRestart
  repeat' first
    | with_reducible first
      | assumption | apply State.procRaise_keeps | apply OutKeeps.next
    | dsimp -zeta only
    | dsimp only

theorem execIncarnationRaise_keeps {s0 : State} {proc : Fin 6} {s : State}  (h : Keeps s0 s) : OutKeeps s0 (execIncarnationRaise proc s) := by
  unfold execIncarnationRaise
  repeat' first
    | with_reducible first
      | assumption | apply State.procRaise_keeps | apply OutKeeps.next
    | dsimp -zeta only
    | dsimp only

theorem State.procRestarted_keeps {s0 : State} {s : State} {p : Nat} {pass : Bool}  (h : Keeps s0 s) : Keeps s0 (State.procRestarted s p pass) := by
  unfold State.procRestarted
  repeat' first
    | with_reducible first
      | assumption | apply State.setFld_keeps | apply State.setProc_keeps | apply State.orWord_keeps | apply State.bump_keeps
      | apply State.fault_keeps | fail_if_no_progress apply Keeps.mk_ | refine Keeps.ite (fun _ => ?_) (fun _ => ?_)
    | (extract_lets +onlyGivenNames x; apply Keeps.cut (t := x) <;> [subst x; (intro _; clear_value x)])
    | (extract_lets +onlyGivenNames x; subst x)
    | dsimp -zeta only
    | split
    | dsimp only

theorem execFwpRestartDone_keeps {s0 : State} {proc : Fin 6} {pass : Bool} {s : State}  (h : Keeps s0 s) : OutKeeps s0 (execFwpRestartDone proc pass s) := by
  unfold execFwpRestartDone
  repeat' first
    | with_reducible first
      | assumption | apply State.procRestarted_keeps | apply OutKeeps.next
    | dsimp -zeta only
    | dsimp only

theorem execSelftest_keeps {s0 : State} {m : Option Master} {s : State}  (h : Keeps s0 s) : OutKeeps s0 (execSelftest m s) := by
  unfold execSelftest
  repeat' first
    | with_reducible first
      | assumption | apply State.refuse_keeps | apply State.respOk_keeps | apply State.setPhase_keeps
      | apply State.orWord_keeps | apply OutKeeps.next | refine Keeps.of_fst (by assumption) ?_
      | refine OutKeeps.ite (fun _ => ?_) (fun _ => ?_) | refine Keeps.ite (fun _ => ?_) (fun _ => ?_)
    | dsimp -zeta only
    | split
    | dsimp only

end Sys2Proof.Machine
end

