-- ==== Sys2Proof/Laws/KeepsSfeBase.lean ====
section
/-! SUPPORT. What Machine/SfeBase.lean keeps. -/

namespace Sys2Proof.Machine

set_option linter.unusedTactic false
set_option linter.unreachableTactic false

theorem State.setStream_keeps {s0 : State} {s : State} {n : Nat} {b3 : SfeStream}  (h : Keeps s0 s) : Keeps s0 (State.setStream s n b3) := by
  unfold State.setStream
  repeat' first
    | with_reducible first
      | assumption | fail_if_no_progress apply Keeps.mk_
    | (extract_lets +onlyGivenNames x; apply Keeps.cut (t := x) <;> [subst x; (intro _; clear_value x)])
    | (extract_lets +onlyGivenNames x; subst x)
    | dsimp -zeta only
    | dsimp only

theorem State.sfeCase_keeps {s0 : State} {s : State} {case : Nat} {unit : Nat} {m : Master}  (h : Keeps s0 s) : Keeps s0 (State.sfeCase s case unit m) := by
  unfold State.sfeCase
  repeat' first
    | with_reducible first
      | assumption | apply State.fault_keeps | fail_if_no_progress apply Keeps.mk_
      | refine Keeps.ite (fun _ => ?_) (fun _ => ?_)
    | (extract_lets +onlyGivenNames x; apply Keeps.cut (t := x) <;> [subst x; (intro _; clear_value x)])
    | (extract_lets +onlyGivenNames x; subst x)
    | dsimp -zeta only
    | split
    | dsimp only

theorem State.axEvent_keeps {s0 : State} {s : State} {n : Nat} {kind : Nat} {val : Nat} {held : Option Nat}  (h : Keeps s0 s) : Keeps s0 (State.axEvent s n kind val held) := by
  unfold State.axEvent
  repeat' first
    | with_reducible first
      | assumption | fail_if_no_progress apply Keeps.mk_
    | (extract_lets +onlyGivenNames x; apply Keeps.cut (t := x) <;> [subst x; (intro _; clear_value x)])
    | (extract_lets +onlyGivenNames x; subst x)
    | dsimp -zeta only
    | dsimp only

theorem State.releaseEvent_keeps {s0 : State} {s : State} {n : Nat} {q : Nat}  (h : Keeps s0 s) : Keeps s0 (State.releaseEvent s n q) := by
  unfold State.releaseEvent
  repeat' first
    | with_reducible first
      | assumption | fail_if_no_progress apply Keeps.mk_ | refine Keeps.ite (fun _ => ?_) (fun _ => ?_)
    | (extract_lets +onlyGivenNames x; apply Keeps.cut (t := x) <;> [subst x; (intro _; clear_value x)])
    | (extract_lets +onlyGivenNames x; subst x)
    | dsimp -zeta only
    | split
    | dsimp only

theorem State.setSlot_keeps {s0 : State} {s : State} {n : Nat} {k : Nat} {v : Nat}  (h : Keeps s0 s) : Keeps s0 (State.setSlot s n k v) := by
  unfold State.setSlot
  repeat' first
    | with_reducible first
      | assumption | apply State.setBit_keeps
    | (extract_lets +onlyGivenNames x; apply Keeps.cut (t := x) <;> [subst x; (intro _; clear_value x)])
    | (extract_lets +onlyGivenNames x; subst x)
    | dsimp -zeta only
    | dsimp only

theorem State.freeSlots_keeps {s0 : State} {s : State} {n : Nat}  (h : Keeps s0 s) : Keeps s0 (State.freeSlots s n) := by
  unfold State.freeSlots
  repeat' first
    | with_reducible first
      | assumption | apply State.setSlot_keeps | apply foldl_keeps | apply foldl_keeps_fst | intro _
    | dsimp -zeta only
    | dsimp only

theorem State.returnSlots_keeps {s0 : State} {s : State} {i : Nat}  (h : Keeps s0 s) : Keeps s0 (State.returnSlots s i) := by
  unfold State.returnSlots
  repeat' first
    | with_reducible first
      | assumption | apply State.setSlot_keeps | apply foldl_keeps | apply foldl_keeps_fst | intro _
      | refine Keeps.ite (fun _ => ?_) (fun _ => ?_)
    | dsimp -zeta only
    | split
    | dsimp only

theorem State.bandRecord_keeps {s0 : State} {s : State} {n : Nat} {b : SfeBand} {flags : Nat}  (h : Keeps s0 s) : Keeps s0 (State.bandRecord s n b flags) := by
  unfold State.bandRecord
  repeat' first
    | with_reducible first
      | assumption | apply State.setWord_keeps | apply State.dmaWrite_keeps
    | (extract_lets +onlyGivenNames x; apply Keeps.cut (t := x) <;> [subst x; (intro _; clear_value x)])
    | (extract_lets +onlyGivenNames x; subst x)
    | dsimp -zeta only
    | dsimp only

theorem State.endStall_keeps {s0 : State} {s : State} {n : Nat}  (h : Keeps s0 s) : Keeps s0 (State.endStall s n) := by
  unfold State.endStall
  repeat' first
    | with_reducible first
      | assumption | apply State.setBit_keeps | apply State.setStream_keeps | refine Keeps.of_fst (by assumption) ?_
    | (extract_lets +onlyGivenNames x; apply Keeps.cut (t := x) <;> [subst x; (intro _; clear_value x)])
    | (extract_lets +onlyGivenNames x; subst x)
    | dsimp -zeta only
    | split
    | dsimp only

theorem State.beginStall_keeps {s0 : State} {s : State} {n : Nat}  (h : Keeps s0 s) : Keeps s0 (State.beginStall s n) := by
  unfold State.beginStall
  repeat' first
    | with_reducible first
      | assumption | apply State.setBit_keeps | apply State.setStream_keeps | refine Keeps.of_fst (by assumption) ?_
    | (extract_lets +onlyGivenNames x; apply Keeps.cut (t := x) <;> [subst x; (intro _; clear_value x)])
    | (extract_lets +onlyGivenNames x; subst x)
    | dsimp -zeta only
    | split
    | dsimp only

theorem State.dropBand_keeps {s0 : State} {s : State} {n : Nat} {reason : Nat}  (h : Keeps s0 s) : Keeps s0 (State.dropBand s n reason) := by
  unfold State.dropBand
  repeat' first
    | with_reducible first
      | assumption | apply State.setSlot_keeps | apply State.bandRecord_keeps | apply State.setStream_keeps
      | apply State.setBit_keeps | apply State.bump_keeps | apply State.releaseEvent_keeps | apply State.fault_keeps
      | apply State.orWord_keeps | refine Keeps.of_fst (by assumption) ?_ | refine Keeps.ite (fun _ => ?_) (fun _ => ?_)
    | (extract_lets +onlyGivenNames x; apply Keeps.cut (t := x) <;> [subst x; (intro _; clear_value x)])
    | (extract_lets +onlyGivenNames x; subst x)
    | dsimp -zeta only
    | split
    | dsimp only

theorem State.dropAll_keeps {s0 : State} {s : State} {n : Nat} {a3 : Nat}  (h : Keeps s0 s) : Keeps s0 (State.dropAll s n a3) := by
  revert h
  fun_induction State.dropAll s n a3
  all_goals intro h
  all_goals repeat' first
    | with_reducible first
      | assumption | apply State.dropBand_keeps | refine Keeps.of_fst (by assumption) ?_
    | with_reducible apply_assumption
    | dsimp -zeta only
    | split
    | dsimp only

end Sys2Proof.Machine
end

