-- ==== Sys2Proof/Laws/KeepsSfeIn.lean ====
section
/-! SUPPORT. What Machine/SfeIn.lean keeps. -/

namespace Sys2Proof.Machine

set_option linter.unusedTactic false
set_option linter.unreachableTactic false

theorem State.portError_keeps {s0 : State} {s : State} {p : Nat} {k : Nat}  (h : Keeps s0 s) : Keeps s0 (State.portError s p k) := by
  unfold State.portError
  repeat' first
    | with_reducible first
      | assumption | apply State.orWord_keeps | apply State.bumpSat_keeps | apply State.sfeCase_keeps
      | refine Keeps.ite (fun _ => ?_) (fun _ => ?_)
    | (extract_lets +onlyGivenNames x; apply Keeps.cut (t := x) <;> [subst x; (intro _; clear_value x)])
    | (extract_lets +onlyGivenNames x; subst x)
    | dsimp -zeta only
    | split
    | dsimp only

theorem State.packetErr_keeps {s0 : State} {s : State} {p : Nat} {err : Nat}  (h : Keeps s0 s) : Keeps s0 (State.packetErr s p err).1 := by
  unfold State.packetErr
  repeat' first
    | with_reducible first
      | assumption | apply State.portError_keeps | refine Keeps.ite1 (fun _ => ?_) (fun _ => ?_)
      | refine Keeps.ite (fun _ => ?_) (fun _ => ?_)
    | (extract_lets +onlyGivenNames x; apply Keeps.cut (t := x) <;> [subst x; (intro _; clear_value x)])
    | (extract_lets +onlyGivenNames x; subst x)
    | dsimp -zeta only
    | split
    | dsimp only

theorem State.unmatched_keeps {s0 : State} {s : State} {p : Nat}  (h : Keeps s0 s) : Keeps s0 (State.unmatched s p) := by
  unfold State.unmatched
  repeat' first
    | with_reducible first
      | assumption | apply State.sfeCase_keeps | apply State.bump_keeps
    | dsimp -zeta only
    | dsimp only

theorem State.lineValues_keeps {s0 : State} {s : State} {dt : Nat} {w : Nat} {l : List Byte}  (h : Keeps s0 s) : Keeps s0 (State.lineValues s dt w l).2 := by
  unfold State.lineValues
  repeat' first
    | with_reducible first
      | assumption | apply State.freeBytes_keeps | refine Keeps.of_fst (by assumption) ?_
      | refine Keeps.of_snd (by assumption) ?_
    | dsimp -zeta only
    | split
    | dsimp only

theorem State.pipeLine_keeps {s0 : State} {s : State} {n : Nat} {dt : Nat} {w : Nat} {y : Nat} {l : List Byte}  (h : Keeps s0 s) : Keeps s0 (State.pipeLine s n dt w y l).2 := by
  unfold State.pipeLine
  repeat' first
    | with_reducible first
      | assumption | apply State.freeBytes_keeps | refine Keeps.of_fst (by assumption) ?_
      | refine Keeps.of_snd (by assumption) ?_ | refine Keeps.ite2 (fun _ => ?_) (fun _ => ?_)
      | refine Keeps.ite (fun _ => ?_) (fun _ => ?_)
    | (extract_lets +onlyGivenNames x; apply Keeps.cut (t := x) <;> [subst x; (intro _; clear_value x)])
    | (extract_lets +onlyGivenNames x; subst x)
    | dsimp -zeta only
    | split
    | dsimp only

theorem State.membersAnew_keeps {s0 : State} {s : State} {lead : Nat}  (h : Keeps s0 s) : Keeps s0 (State.membersAnew s lead) := by
  unfold State.membersAnew
  repeat' first
    | with_reducible first
      | assumption | apply State.setStream_keeps | apply foldl_keeps | apply foldl_keeps_fst | intro _
      | refine Keeps.ite (fun _ => ?_) (fun _ => ?_)
    | (extract_lets +onlyGivenNames x; apply Keeps.cut (t := x) <;> [subst x; (intro _; clear_value x)])
    | (extract_lets +onlyGivenNames x; subst x)
    | dsimp -zeta only
    | split
    | dsimp only

theorem State.frameStart_keeps {s0 : State} {s : State} {n : Nat} {frameNo : Nat}  (h : Keeps s0 s) : Keeps s0 (State.frameStart s n frameNo) := by
  unfold State.frameStart
  repeat' first
    | with_reducible first
      | assumption | apply State.sfeCase_keeps | apply State.setStream_keeps | apply State.axEvent_keeps
      | apply State.membersAnew_keeps | fail_if_no_progress apply Keeps.mk_ | refine Keeps.ite (fun _ => ?_) (fun _ => ?_)
    | (extract_lets +onlyGivenNames x; apply Keeps.cut (t := x) <;> [subst x; (intro _; clear_value x)])
    | (extract_lets +onlyGivenNames x; subst x)
    | dsimp -zeta only
    | split
    | dsimp only

theorem State.frameEnd_keeps {s0 : State} {s : State} {n : Nat}  (h : Keeps s0 s) : Keeps s0 (State.frameEnd s n) := by
  unfold State.frameEnd
  repeat' first
    | with_reducible first
      | assumption | apply State.sfeCase_keeps | apply State.setStream_keeps | apply State.axEvent_keeps
      | refine Keeps.ite (fun _ => ?_) (fun _ => ?_)
    | (extract_lets +onlyGivenNames x; apply Keeps.cut (t := x) <;> [subst x; (intro _; clear_value x)])
    | (extract_lets +onlyGivenNames x; subst x)
    | dsimp -zeta only
    | split
    | dsimp only

theorem State.lineIn_keeps {s0 : State} {s : State} {n : Nat} {y : Nat} {l : List Byte} {lenErr : Bool} {crcErr : Bool}  (h : Keeps s0 s) : Keeps s0 (State.lineIn s n y l lenErr crcErr) := by
  unfold State.lineIn
  repeat' first
    | with_reducible first
      | assumption | apply State.lineValues_keeps | apply State.pipeLine_keeps | apply State.setStream_keeps
      | apply State.bump_keeps | refine Keeps.of_fst (by assumption) ?_ | refine Keeps.of_snd (by assumption) ?_
      | refine Keeps.ite (fun _ => ?_) (fun _ => ?_)
    | (extract_lets +onlyGivenNames x; apply Keeps.cut (t := x) <;> [subst x; (intro _; clear_value x)])
    | (extract_lets +onlyGivenNames x; subst x)
    | dsimp -zeta only
    | split
    | dsimp only

theorem State.passLines_keeps {s0 : State} {s : State} {lead : Nat} {upTo : Nat} {a4 : Nat}  (h : Keeps s0 s) : Keeps s0 (State.passLines s lead upTo a4) := by
  revert h
  fun_induction State.passLines s lead upTo a4
  all_goals intro h
  all_goals repeat' first
    | with_reducible first
      | assumption | apply State.setStream_keeps | apply State.axEvent_keeps | apply State.lineIn_keeps
      | refine Keeps.of_fst (by assumption) ?_ | refine Keeps.ite (fun _ => ?_) (fun _ => ?_)
    | with_reducible apply_assumption
    | dsimp -zeta only
    | split
    | dsimp only

theorem State.imageLine_keeps {s0 : State} {s : State} {n : Nat} {data : List Byte} {crcErr : Bool}  (h : Keeps s0 s) : Keeps s0 (State.imageLine s n data crcErr) := by
  unfold State.imageLine
  repeat' first
    | with_reducible first
      | assumption | apply State.sfeCase_keeps | apply State.setStream_keeps | apply State.passLines_keeps
      | refine Keeps.ite (fun _ => ?_) (fun _ => ?_)
    | (extract_lets +onlyGivenNames x; apply Keeps.cut (t := x) <;> [subst x; (intro _; clear_value x)])
    | (extract_lets +onlyGivenNames x; subst x)
    | dsimp -zeta only
    | split
    | dsimp only

theorem State.embedded_keeps {s0 : State} {s : State} {n : Nat} {data : List Byte}  (h : Keeps s0 s) : Keeps s0 (State.embedded s n data) := by
  unfold State.embedded
  repeat' first
    | with_reducible first
      | assumption | apply State.dmaWrite_keeps | apply State.setStream_keeps | refine Keeps.of_fst (by assumption) ?_
      | refine Keeps.ite (fun _ => ?_) (fun _ => ?_)
    | (extract_lets +onlyGivenNames x; apply Keeps.cut (t := x) <;> [subst x; (intro _; clear_value x)])
    | (extract_lets +onlyGivenNames x; subst x)
    | dsimp -zeta only
    | split
    | dsimp only

theorem execCsi2FrameStart_keeps {s0 : State} {port : Fin 16} {vc : Fin 16} {frame : BitVec 16} {err : BitVec 5} {s : State}  (h : Keeps s0 s) : OutKeeps s0 (execCsi2FrameStart port vc frame err s) := by
  unfold execCsi2FrameStart
  repeat' first
    | with_reducible first
      | assumption | apply State.packetErr_keeps | apply State.unmatched_keeps | apply State.frameStart_keeps
      | apply OutKeeps.next | refine Keeps.of_fst (by assumption) ?_ | refine OutKeeps.ite (fun _ => ?_) (fun _ => ?_)
      | refine Keeps.ite (fun _ => ?_) (fun _ => ?_)
    | (extract_lets +onlyGivenNames x; apply Keeps.cut (t := x) <;> [subst x; (intro _; clear_value x)])
    | (extract_lets +onlyGivenNames x; subst x)
    | dsimp -zeta only
    | split
    | dsimp only

theorem execCsi2FrameEnd_keeps {s0 : State} {port : Fin 16} {vc : Fin 16} {err : BitVec 5} {s : State}  (h : Keeps s0 s) : OutKeeps s0 (execCsi2FrameEnd port vc err s) := by
  unfold execCsi2FrameEnd
  repeat' first
    | with_reducible first
      | assumption | apply State.packetErr_keeps | apply State.unmatched_keeps | apply State.frameEnd_keeps
      | apply OutKeeps.next | refine Keeps.of_fst (by assumption) ?_ | refine OutKeeps.ite (fun _ => ?_) (fun _ => ?_)
      | refine Keeps.ite (fun _ => ?_) (fun _ => ?_)
    | (extract_lets +onlyGivenNames x; apply Keeps.cut (t := x) <;> [subst x; (intro _; clear_value x)])
    | (extract_lets +onlyGivenNames x; subst x)
    | dsimp -zeta only
    | split
    | dsimp only

theorem execCsi2ShortPacket_keeps {s0 : State} {port : Fin 16} {vc : Fin 16} {dt : BitVec 6} {err : BitVec 5} {s : State}  (h : Keeps s0 s) : OutKeeps s0 (execCsi2ShortPacket port vc dt err s) := by
  unfold execCsi2ShortPacket
  repeat' first
    | with_reducible first
      | assumption | apply State.packetErr_keeps | apply State.bump_keeps | apply State.unmatched_keeps | apply OutKeeps.next
      | refine Keeps.of_fst (by assumption) ?_ | refine OutKeeps.ite (fun _ => ?_) (fun _ => ?_)
      | refine Keeps.ite (fun _ => ?_) (fun _ => ?_)
    | (extract_lets +onlyGivenNames x; apply Keeps.cut (t := x) <;> [subst x; (intro _; clear_value x)])
    | (extract_lets +onlyGivenNames x; subst x)
    | dsimp -zeta only
    | split
    | dsimp only

theorem execCsi2LongPacket_keeps {s0 : State} {port : Fin 16} {vc : Fin 16} {dt : BitVec 6} {data : List Byte} {err : BitVec 5} {s : State}  (h : Keeps s0 s) : OutKeeps s0 (execCsi2LongPacket port vc dt data err s) := by
  unfold execCsi2LongPacket
  repeat' first
    | with_reducible first
      | assumption | apply State.packetErr_keeps | apply State.unmatched_keeps | apply State.embedded_keeps
      | apply State.dropBand_keeps | apply State.imageLine_keeps | apply OutKeeps.next
      | refine Keeps.of_fst (by assumption) ?_ | refine OutKeeps.ite (fun _ => ?_) (fun _ => ?_)
      | refine Keeps.ite (fun _ => ?_) (fun _ => ?_)
    | (extract_lets +onlyGivenNames x; apply Keeps.cut (t := x) <;> [subst x; (intro _; clear_value x)])
    | (extract_lets +onlyGivenNames x; subst x)
    | dsimp -zeta only
    | split
    | dsimp only

theorem State.flowDiscard_keeps {s0 : State} {s : State} {n : Nat}  (h : Keeps s0 s) : Keeps s0 (State.flowDiscard s n) := by
  unfold State.flowDiscard
  repeat' first
    | with_reducible first
      | assumption | apply State.sfeCase_keeps | apply State.orWord_keeps | apply State.bump_keeps
    | dsimp -zeta only
    | dsimp only

theorem State.flowIn_keeps {s0 : State} {s : State} {n : Nat} {a : Nat} {l : List Byte}  (h : Keeps s0 s) : Keeps s0 (State.flowIn s n a l) := by
  unfold State.flowIn
  repeat' first
    | with_reducible first
      | assumption | apply State.axEvent_keeps | apply State.setStream_keeps | apply State.sfeCase_keeps
      | refine Keeps.of_fst (by assumption) ?_ | refine Keeps.ite (fun _ => ?_) (fun _ => ?_)
    | (extract_lets +onlyGivenNames x; apply Keeps.cut (t := x) <;> [subst x; (intro _; clear_value x)])
    | (extract_lets +onlyGivenNames x; subst x)
    | dsimp -zeta only
    | split
    | dsimp only

theorem execFlowPacket_keeps {s0 : State} {flow : Fin 64} {full : Bool} {s : State}  (h : Keeps s0 s) : OutKeeps s0 (execFlowPacket flow full s) := by
  unfold execFlowPacket
  repeat' first
    | with_reducible first
      | assumption | apply State.flowDiscard_keeps | apply State.dropBand_keeps | apply State.flowIn_keeps
      | apply OutKeeps.next | fail_if_no_progress apply Keeps.mk_ | refine Keeps.of_fst (by assumption) ?_
      | refine OutKeeps.ite (fun _ => ?_) (fun _ => ?_) | refine Keeps.ite (fun _ => ?_) (fun _ => ?_)
    | (extract_lets +onlyGivenNames x; apply Keeps.cut (t := x) <;> [subst x; (intro _; clear_value x)])
    | (extract_lets +onlyGivenNames x; subst x)
    | dsimp -zeta only
    | split
    | dsimp only

theorem execPhySyncChange_keeps {s0 : State} {port : Fin 16} {sync : Bool} {deskew : Bool} {s : State}  (h : Keeps s0 s) : OutKeeps s0 (execPhySyncChange port sync deskew s) := by
  unfold execPhySyncChange
  repeat' first
    | with_reducible first
      | assumption | apply State.setBit_keeps | apply OutKeeps.next | refine OutKeeps.ite (fun _ => ?_) (fun _ => ?_)
      | refine Keeps.ite (fun _ => ?_) (fun _ => ?_)
    | (extract_lets +onlyGivenNames x; apply Keeps.cut (t := x) <;> [subst x; (intro _; clear_value x)])
    | (extract_lets +onlyGivenNames x; subst x)
    | dsimp -zeta only
    | split
    | dsimp only

end Sys2Proof.Machine
end

