-- ==== Sys2Proof/Laws/KeepsSfe.lean ====
section
/-! SUPPORT. What Machine/Sfe.lean keeps. -/

namespace Sys2Proof.Machine

set_option linter.unusedTactic false
set_option linter.unreachableTactic false

theorem State.activate_keeps {s0 : State} {s : State} {n : Nat}  (h : Keeps s0 s) : Keeps s0 (State.activate s n) := by
  unfold State.activate
  repeat' first
    | with_reducible first
      | assumption | apply State.setWord_keeps | apply foldl_keeps | apply foldl_keeps_fst | intro _
    | dsimp -zeta only
    | dsimp only

theorem State.lseCycle_keeps {s0 : State} {s : State} {n : Nat}  (h : Keeps s0 s) : Keeps s0 (State.lseCycle s n) := by
  unfold State.lseCycle
  repeat' first
    | with_reducible first
      | assumption | fail_if_no_progress apply Keeps.mk_
    | (extract_lets +onlyGivenNames x; apply Keeps.cut (t := x) <;> [subst x; (intro _; clear_value x)])
    | (extract_lets +onlyGivenNames x; subst x)
    | dsimp -zeta only
    | dsimp only

theorem State.lseRun_keeps {s0 : State} {s : State} {n : Nat} {f : LseCtx → LseCtx}  (h : Keeps s0 s) : Keeps s0 (State.lseRun s n f) := by
  unfold State.lseRun
  repeat' first
    | with_reducible first
      | assumption | apply State.lseCycle_keeps | apply State.setStream_keeps
    | (extract_lets +onlyGivenNames x; apply Keeps.cut (t := x) <;> [subst x; (intro _; clear_value x)])
    | (extract_lets +onlyGivenNames x; subst x)
    | dsimp -zeta only
    | dsimp only

theorem execBandStart_keeps {s0 : State} {stream : Fin 64} {s : State}  (h : Keeps s0 s) : OutKeeps s0 (execBandStart stream s) := by
  unfold execBandStart
  repeat' first
    | with_reducible first
      | assumption | apply State.beginStall_keeps | apply State.setBit_keeps | apply State.activate_keeps
      | apply State.setSlot_keeps | apply State.setStream_keeps | apply State.dmaWrite_keeps | apply OutKeeps.next
      | refine Keeps.of_fst (by assumption) ?_ | refine OutKeeps.ite (fun _ => ?_) (fun _ => ?_)
      | refine Keeps.ite (fun _ => ?_) (fun _ => ?_)
    | (extract_lets +onlyGivenNames x; apply Keeps.cut (t := x) <;> [subst x; (intro _; clear_value x)])
    | (extract_lets +onlyGivenNames x; subst x)
    | dsimp -zeta only
    | split
    | dsimp only

theorem execLseUnitStart_keeps {s0 : State} {stream : Fin 64} {s : State}  (h : Keeps s0 s) : OutKeeps s0 (execLseUnitStart stream s) := by
  unfold execLseUnitStart
  repeat' first
    | with_reducible first
      | assumption | apply State.setStream_keeps | apply OutKeeps.next | refine Keeps.of_fst (by assumption) ?_
      | refine OutKeeps.ite (fun _ => ?_) (fun _ => ?_) | refine Keeps.ite (fun _ => ?_) (fun _ => ?_)
    | (extract_lets +onlyGivenNames x; apply Keeps.cut (t := x) <;> [subst x; (intro _; clear_value x)])
    | (extract_lets +onlyGivenNames x; subst x)
    | dsimp -zeta only
    | split
    | dsimp only

theorem execLseEnd_keeps {s0 : State} {stream : Fin 64} {s : State}  (h : Keeps s0 s) : OutKeeps s0 (execLseEnd stream s) := by
  unfold execLseEnd
  repeat' first
    | with_reducible first
      | assumption | apply State.lseCycle_keeps | apply State.setStream_keeps | apply OutKeeps.next
      | refine Keeps.of_fst (by assumption) ?_ | refine OutKeeps.ite (fun _ => ?_) (fun _ => ?_)
      | refine Keeps.ite (fun _ => ?_) (fun _ => ?_)
    | (extract_lets +onlyGivenNames x; apply Keeps.cut (t := x) <;> [subst x; (intro _; clear_value x)])
    | (extract_lets +onlyGivenNames x; subst x)
    | dsimp -zeta only
    | split
    | dsimp only

theorem execLseLoop_keeps {s0 : State} {stream : Fin 64} {s : State}  (h : Keeps s0 s) : OutKeeps s0 (execLseLoop stream s) := by
  unfold execLseLoop
  repeat' first
    | with_reducible first
      | assumption | apply State.lseCycle_keeps | apply State.setStream_keeps | apply OutKeeps.next
      | refine Keeps.of_fst (by assumption) ?_
    | (extract_lets +onlyGivenNames x; apply Keeps.cut (t := x) <;> [subst x; (intro _; clear_value x)])
    | (extract_lets +onlyGivenNames x; subst x)
    | dsimp -zeta only
    | split
    | dsimp only

theorem execLseGet_keeps {s0 : State} {stream : Fin 64} {s : State}  (h : Keeps s0 s) : OutKeeps s0 (execLseGet stream s) := by
  unfold execLseGet
  repeat' first
    | with_reducible first
      | assumption | apply State.lseRun_keeps | apply OutKeeps.next | refine Keeps.of_fst (by assumption) ?_
    | dsimp -zeta only
    | split
    | dsimp only

theorem execLseSkip_keeps {s0 : State} {stream : Fin 64} {s : State}  (h : Keeps s0 s) : OutKeeps s0 (execLseSkip stream s) := by
  unfold execLseSkip
  repeat' first
    | with_reducible first
      | assumption | apply State.lseRun_keeps | apply OutKeeps.next | refine Keeps.of_fst (by assumption) ?_
    | dsimp -zeta only
    | split
    | dsimp only

theorem execLseAlu_keeps {s0 : State} {stream : Fin 64} {s : State}  (h : Keeps s0 s) : OutKeeps s0 (execLseAlu stream s) := by
  unfold execLseAlu
  repeat' first
    | with_reducible first
      | assumption | apply State.lseRun_keeps | apply OutKeeps.next | refine Keeps.of_fst (by assumption) ?_
    | dsimp -zeta only
    | split
    | dsimp only

theorem execLseCvt_keeps {s0 : State} {stream : Fin 64} {s : State}  (h : Keeps s0 s) : OutKeeps s0 (execLseCvt stream s) := by
  unfold execLseCvt
  repeat' first
    | with_reducible first
      | assumption | apply State.lseRun_keeps | apply OutKeeps.next | refine Keeps.of_fst (by assumption) ?_
    | dsimp -zeta only
    | split
    | dsimp only

theorem execLsePut_keeps {s0 : State} {stream : Fin 64} {s : State}  (h : Keeps s0 s) : OutKeeps s0 (execLsePut stream s) := by
  unfold execLsePut
  repeat' first
    | with_reducible first
      | assumption | apply State.lseRun_keeps | apply State.setStream_keeps | apply State.fault_keeps
      | apply State.orWord_keeps | apply State.setBit_keeps | apply State.beginStall_keeps | apply State.endStall_keeps
      | apply State.dmaWrite_keeps | apply OutKeeps.next | apply foldl_keeps | apply foldl_keeps_fst | intro _
      | refine Keeps.of_fst (by assumption) ?_ | refine OutKeeps.ite (fun _ => ?_) (fun _ => ?_)
      | refine Keeps.ite (fun _ => ?_) (fun _ => ?_)
    | (extract_lets +onlyGivenNames x; apply Keeps.cut (t := x) <;> [subst x; (intro _; clear_value x)])
    | (extract_lets +onlyGivenNames x; subst x)
    | dsimp -zeta only
    | split
    | dsimp only

theorem execLseAdda_keeps {s0 : State} {stream : Fin 64} {s : State}  (h : Keeps s0 s) : OutKeeps s0 (execLseAdda stream s) := by
  unfold execLseAdda
  repeat' first
    | with_reducible first
      | assumption | apply State.lseRun_keeps | apply OutKeeps.next | refine Keeps.of_fst (by assumption) ?_
    | dsimp -zeta only
    | split
    | dsimp only

theorem execBandComplete_keeps {s0 : State} {stream : Fin 64} {s : State}  (h : Keeps s0 s) : OutKeeps s0 (execBandComplete stream s) := by
  unfold execBandComplete
  repeat' first
    | with_reducible first
      | assumption | apply State.endStall_keeps | apply State.bandRecord_keeps | apply State.setBit_keeps
      | apply State.setSlot_keeps | apply State.setStream_keeps | apply State.bump_keeps | apply State.phxEvent_keeps
      | apply State.releaseEvent_keeps | apply OutKeeps.next | refine Keeps.of_fst (by assumption) ?_
      | refine OutKeeps.ite (fun _ => ?_) (fun _ => ?_) | refine Keeps.ite (fun _ => ?_) (fun _ => ?_)
    | (extract_lets +onlyGivenNames x; apply Keeps.cut (t := x) <;> [subst x; (intro _; clear_value x)])
    | (extract_lets +onlyGivenNames x; subst x)
    | dsimp -zeta only
    | split
    | dsimp only

theorem execStreamStallTimeout_keeps {s0 : State} {stream : Fin 64} {s : State}  (h : Keeps s0 s) : OutKeeps s0 (execStreamStallTimeout stream s) := by
  unfold execStreamStallTimeout
  repeat' first
    | with_reducible first
      | assumption | apply State.dropBand_keeps | apply State.timeTo_keeps | apply OutKeeps.next
      | refine Keeps.of_fst (by assumption) ?_
    | (extract_lets +onlyGivenNames x; apply Keeps.cut (t := x) <;> [subst x; (intro _; clear_value x)])
    | (extract_lets +onlyGivenNames x; subst x)
    | dsimp -zeta only
    | split
    | dsimp only

theorem State.slotRelease_keeps {s0 : State} {s : State} {m : Master} {inst : Option (Fin 64)} {n : Nat} {v : Nat}  (h : Keeps s0 s) : Keeps s0 (State.slotRelease s m inst n v) := by
  unfold State.slotRelease
  repeat' first
    | with_reducible first
      | assumption | apply State.ignoreWr_keeps | apply State.orWord_keeps | apply State.setBit_keeps
      | apply State.setSlot_keeps | apply State.respOk_keeps | apply foldl_keeps | apply foldl_keeps_fst | intro _
      | refine Keeps.ite (fun _ => ?_) (fun _ => ?_)
    | (extract_lets +onlyGivenNames x; apply Keeps.cut (t := x) <;> [subst x; (intro _; clear_value x)])
    | (extract_lets +onlyGivenNames x; subst x)
    | dsimp -zeta only
    | split
    | dsimp only

theorem execSlotRelease_keeps {s0 : State} {m : Master} {inst : Option (Fin 64)} {stream : Fin 64} {v : BitVec 32} {s : State}  (h : Keeps s0 s) : OutKeeps s0 (execSlotRelease m inst stream v s) := by
  unfold execSlotRelease
  repeat' first
    | with_reducible first
      | assumption | apply State.slotRelease_keeps | apply OutKeeps.next
    | dsimp -zeta only
    | dsimp only

theorem State.sfeCommit_keeps {s0 : State} {s : State} {n : Nat}  (h : Keeps s0 s) : Keeps s0 (State.sfeCommit s n) := by
  unfold State.sfeCommit
  repeat' first
    | with_reducible first
      | assumption | apply State.setBit_keeps | apply State.orWord_keeps | refine Keeps.ite (fun _ => ?_) (fun _ => ?_)
    | dsimp -zeta only
    | split
    | dsimp only

theorem State.sfeCancel_keeps {s0 : State} {s : State} {n : Nat}  (h : Keeps s0 s) : Keeps s0 (State.sfeCancel s n) := by
  unfold State.sfeCancel
  repeat' first
    | with_reducible first
      | assumption | apply State.setBit_keeps
    | dsimp -zeta only
    | dsimp only

theorem State.sfeRestart_keeps {s0 : State} {s : State} {n : Nat}  (h : Keeps s0 s) : Keeps s0 (State.sfeRestart s n) := by
  unfold State.sfeRestart
  repeat' first
    | with_reducible first
      | assumption | apply State.dropAll_keeps | apply State.setFld_keeps | apply State.setStream_keeps
    | (extract_lets +onlyGivenNames x; apply Keeps.cut (t := x) <;> [subst x; (intro _; clear_value x)])
    | (extract_lets +onlyGivenNames x; subst x)
    | dsimp -zeta only
    | dsimp only

theorem State.sfeCtrl_keeps {s0 : State} {s : State} {m : Master} {inst : Option (Fin 64)} {n : Nat} {v : Nat}  (h : Keeps s0 s) : Keeps s0 (State.sfeCtrl s m inst n v) := by
  unfold State.sfeCtrl
  repeat' first
    | with_reducible first
      | assumption | apply State.sfeCancel_keeps | apply State.sfeCommit_keeps | apply State.sfeRestart_keeps
      | apply State.ignoreWr_keeps | apply State.respOk_keeps | refine Keeps.ite (fun _ => ?_) (fun _ => ?_)
    | (extract_lets +onlyGivenNames x; apply Keeps.cut (t := x) <;> [subst x; (intro _; clear_value x)])
    | (extract_lets +onlyGivenNames x; subst x)
    | dsimp -zeta only
    | split
    | dsimp only

theorem execCommit_keeps {s0 : State} {m : Master} {inst : Option (Fin 64)} {stream : Fin 64} {s : State}  (h : Keeps s0 s) : OutKeeps s0 (execCommit m inst stream s) := by
  unfold execCommit
  repeat' first
    | with_reducible first
      | assumption | apply State.sfeCtrl_keeps | apply OutKeeps.next
    | dsimp -zeta only
    | dsimp only

theorem execCancel_keeps {s0 : State} {m : Master} {inst : Option (Fin 64)} {stream : Fin 64} {s : State}  (h : Keeps s0 s) : OutKeeps s0 (execCancel m inst stream s) := by
  unfold execCancel
  repeat' first
    | with_reducible first
      | assumption | apply State.sfeCtrl_keeps | apply OutKeeps.next
    | dsimp -zeta only
    | dsimp only

theorem execRestart_keeps {s0 : State} {m : Master} {inst : Option (Fin 64)} {stream : Fin 64} {s : State}  (h : Keeps s0 s) : OutKeeps s0 (execRestart m inst stream s) := by
  unfold execRestart
  repeat' first
    | with_reducible first
      | assumption | apply State.sfeCtrl_keeps | apply OutKeeps.next
    | dsimp -zeta only
    | dsimp only

theorem State.shadowWrite_keeps {s0 : State} {s : State} {m : Master} {inst : Option (Fin 64)} {n : Nat} {w : Nat} {v : Nat}  (h : Keeps s0 s) : Keeps s0 (State.shadowWrite s m inst n w v) := by
  unfold State.shadowWrite
  repeat' first
    | with_reducible first
      | assumption | apply State.refuse_keeps | apply State.respOk_keeps | apply State.accessFault_keeps
      | apply State.setBit_keeps | apply State.setWord_keeps | refine Keeps.ite (fun _ => ?_) (fun _ => ?_)
    | (extract_lets +onlyGivenNames x; apply Keeps.cut (t := x) <;> [subst x; (intro _; clear_value x)])
    | (extract_lets +onlyGivenNames x; subst x)
    | dsimp -zeta only
    | split
    | dsimp only

theorem execShadowSlotWrite_keeps {s0 : State} {m : Master} {inst : Option (Fin 64)} {stream : Fin 64} {word : Fin 64} {v : BitVec 32} {s : State}  (h : Keeps s0 s) : OutKeeps s0 (execShadowSlotWrite m inst stream word v s) := by
  unfold execShadowSlotWrite
  repeat' first
    | with_reducible first
      | assumption | apply State.shadowWrite_keeps | apply OutKeeps.next
    | dsimp -zeta only
    | dsimp only

theorem execLseOccupancyWindow_keeps {s0 : State} {s : State}  (h : Keeps s0 s) : OutKeeps s0 (execLseOccupancyWindow s) := by
  unfold execLseOccupancyWindow
  repeat' first
    | with_reducible first
      | assumption | apply State.timeTo_keeps | apply State.setFld_keeps | apply OutKeeps.next | apply foldl_keeps
      | apply foldl_keeps_fst | intro _ | fail_if_no_progress apply Keeps.mk_
    | (extract_lets +onlyGivenNames x; apply Keeps.cut (t := x) <;> [subst x; (intro _; clear_value x)])
    | (extract_lets +onlyGivenNames x; subst x)
    | dsimp -zeta only
    | dsimp only

end Sys2Proof.Machine
end

