-- ==== Sys2Proof/Laws/KeepsWpeWorld.lean ====
section
/-! SUPPORT. What Machine/WpeWorld.lean keeps. -/

namespace Sys2Proof.Machine

set_option linter.unusedTactic false
set_option linter.unreachableTactic false

theorem State.setBuf_keeps {s0 : State} {s : State} {b : Nat} {st : Nat}  (h : Keeps s0 s) : Keeps s0 (State.setBuf s b st) := by
  unfold State.setBuf
  repeat' first
    | with_reducible first
      | assumption | apply State.setFld_keeps
    | dsimp -zeta only
    | dsimp only

theorem State.settle_keeps {s0 : State} {s : State}  (h : Keeps s0 s) : Keeps s0 (State.settle s) := by
  unfold State.settle
  repeat' first
    | with_reducible first
      | assumption | apply State.setBuf_keeps | apply foldl_keeps | apply foldl_keeps_fst | intro _
      | refine Keeps.ite (fun _ => ?_) (fun _ => ?_)
    | dsimp -zeta only
    | split
    | dsimp only

theorem State.movePlanPin_keeps {s0 : State} {s : State} {b : Nat}  (h : Keeps s0 s) : Keeps s0 (State.movePlanPin s b) := by
  unfold State.movePlanPin
  repeat' first
    | with_reducible first
      | assumption | apply State.setBit_keeps | apply State.settle_keeps | apply State.setFld_keeps | apply foldl_keeps
      | apply foldl_keeps_fst | intro _
    | (extract_lets +onlyGivenNames x; apply Keeps.cut (t := x) <;> [subst x; (intro _; clear_value x)])
    | (extract_lets +onlyGivenNames x; subst x)
    | dsimp -zeta only
    | dsimp only

theorem State.moveHeelPin_keeps {s0 : State} {s : State} {b : Nat}  (h : Keeps s0 s) : Keeps s0 (State.moveHeelPin s b) := by
  unfold State.moveHeelPin
  repeat' first
    | with_reducible first
      | assumption | apply State.setBit_keeps | apply State.settle_keeps | apply State.setFld_keeps | apply foldl_keeps
      | apply foldl_keeps_fst | intro _
    | (extract_lets +onlyGivenNames x; apply Keeps.cut (t := x) <;> [subst x; (intro _; clear_value x)])
    | (extract_lets +onlyGivenNames x; subst x)
    | dsimp -zeta only
    | dsimp only

theorem State.pinPlan_keeps {s0 : State} {s : State}  (h : Keeps s0 s) : Keeps s0 (State.pinPlan s) := by
  unfold State.pinPlan
  repeat' first
    | with_reducible first
      | assumption | apply State.movePlanPin_keeps | fail_if_no_progress apply Keeps.mk_
    | (extract_lets +onlyGivenNames x; apply Keeps.cut (t := x) <;> [subst x; (intro _; clear_value x)])
    | (extract_lets +onlyGivenNames x; subst x)
    | dsimp -zeta only
    | dsimp only

theorem State.pinHeel_keeps {s0 : State} {s : State}  (h : Keeps s0 s) : Keeps s0 (State.pinHeel s) := by
  unfold State.pinHeel
  repeat' first
    | with_reducible first
      | assumption | apply State.moveHeelPin_keeps | fail_if_no_progress apply Keeps.mk_
    | (extract_lets +onlyGivenNames x; apply Keeps.cut (t := x) <;> [subst x; (intro _; clear_value x)])
    | (extract_lets +onlyGivenNames x; subst x)
    | dsimp -zeta only
    | dsimp only

theorem State.pubErr_keeps {s0 : State} {s : State} {m : Master}  (h : Keeps s0 s) : Keeps s0 (State.pubErr s m) := by
  unfold State.pubErr
  repeat' first
    | with_reducible first
      | assumption | apply State.fault_keeps | apply State.orWord_keeps | apply State.bumpSat_keeps
    | dsimp -zeta only
    | dsimp only

end Sys2Proof.Machine
end

