-- ==== Sys2Proof/Laws/KeepsWpePlan.lean ====
section
/-! SUPPORT. What Machine/WpePlan.lean keeps. -/

namespace Sys2Proof.Machine

set_option linter.unusedTactic false
set_option linter.unreachableTactic false

theorem State.expandLayers_keeps {s0 : State} {s : State} {g : Grid} {pr : Array Prim} {buf : Nat} {shift : Nat} {area : Nat} {a7 : Nat} {a8 : Array Nat}  (h : Keeps s0 s) : Keeps s0 (State.expandLayers s g pr buf shift area a7 a8).1 := by
  revert h
  fun_induction State.expandLayers s g pr buf shift area a7 a8
  all_goals intro h
  all_goals repeat' first
    | with_reducible first
      | assumption | apply State.store_keeps | refine Keeps.of_fst (by assumption) ?_
      | refine Keeps.ite1 (fun _ => ?_) (fun _ => ?_) | refine Keeps.ite (fun _ => ?_) (fun _ => ?_)
    | with_reducible apply_assumption
    | dsimp -zeta only
    | split
    | dsimp only

end Sys2Proof.Machine
end

