-- ==== Sys2Proof/Laws/KeepsWpe.lean ====
section
/-! SUPPORT. What Machine/Wpe.lean keeps. -/

namespace Sys2Proof.Machine

set_option linter.unusedTactic false
set_option linter.unreachableTactic false

theorem State.wpeSync_keeps {s0 : State} {s : State}  (h : Keeps s0 s) : Keeps s0 (State.wpeSync s) := by
  unfold State.wpeSync
  repeat' first
    | with_reducible first
      | assumption | apply State.setBit_keeps | apply State.setFld_keeps | refine Keeps.of_fst (by assumption) ?_
    | (extract_lets +onlyGivenNames x; apply Keeps.cut (t := x) <;> [subst x; (intro _; clear_value x)])
    | (extract_lets +onlyGivenNames x; subst x)
    | dsimp -zeta only
    | split
    | dsimp only

theorem execEpochAcqRead_keeps {s0 : State} {m : Master} {inst : Option (Fin 64)} {s : State}  (h : Keeps s0 s) : OutKeeps s0 (execEpochAcqRead m inst s) := by
  unfold execEpochAcqRead
  repeat' first
    | with_reducible first
      | assumption | apply State.refuse_keeps | apply State.respOk_keeps | apply State.setWord_keeps
      | apply State.setBuf_keeps | apply State.orWord_keeps | apply State.bumpSat_keeps | apply OutKeeps.next
      | refine Keeps.of_fst (by assumption) ?_ | refine OutKeeps.ite (fun _ => ?_) (fun _ => ?_)
      | refine Keeps.ite (fun _ => ?_) (fun _ => ?_)
    | (extract_lets +onlyGivenNames x; apply Keeps.cut (t := x) <;> [subst x; (intro _; clear_value x)])
    | (extract_lets +onlyGivenNames x; subst x)
    | dsimp -zeta only
    | split
    | dsimp only

theorem State.addChanges_keeps {s0 : State} {s : State} {c : BitVec 4096}  (h : Keeps s0 s) : Keeps s0 (State.addChanges s c) := by
  unfold State.addChanges
  repeat' first
    | with_reducible first
      | assumption | fail_if_no_progress apply Keeps.mk_
    | (extract_lets +onlyGivenNames x; apply Keeps.cut (t := x) <;> [subst x; (intro _; clear_value x)])
    | (extract_lets +onlyGivenNames x; subst x)
    | dsimp -zeta only
    | dsimp only

theorem State.judgePlan_keeps {s0 : State} {s : State}  (h : Keeps s0 s) : Keeps s0 (State.judgePlan s) := by
  unfold State.judgePlan
  repeat' first
    | with_reducible first
      | assumption | fail_if_no_progress apply Keeps.mk_ | refine Keeps.of_fst (by assumption) ?_
      | refine Keeps.ite (fun _ => ?_) (fun _ => ?_)
    | (extract_lets +onlyGivenNames x; apply Keeps.cut (t := x) <;> [subst x; (intro _; clear_value x)])
    | (extract_lets +onlyGivenNames x; subst x)
    | dsimp -zeta only
    | split
    | dsimp only

theorem State.judgeEngaged_keeps {s0 : State} {s : State} {c : BitVec 4096}  (h : Keeps s0 s) : Keeps s0 (State.judgeEngaged s c) := by
  unfold State.judgeEngaged
  repeat' first
    | with_reducible first
      | assumption | apply State.hardHeel_keeps | apply State.wpeExtra_keeps | fail_if_no_progress apply Keeps.mk_
      | refine Keeps.of_fst (by assumption) ?_ | refine Keeps.of_snd (by assumption) ?_
      | refine Keeps.ite (fun _ => ?_) (fun _ => ?_)
    | (extract_lets +onlyGivenNames x; apply Keeps.cut (t := x) <;> [subst x; (intro _; clear_value x)])
    | (extract_lets +onlyGivenNames x; subst x)
    | dsimp -zeta only
    | split
    | dsimp only

theorem State.publish_keeps {s0 : State} {s : State} {b : Nat}  (h : Keeps s0 s) : Keeps s0 (State.publish s b) := by
  unfold State.publish
  repeat' first
    | with_reducible first
      | assumption | apply State.store_keeps | apply State.addChanges_keeps | apply State.setWord_keeps
      | apply State.settle_keeps | apply State.setFld_keeps | apply State.setBuf_keeps | apply State.wpeSync_keeps
      | apply State.judgeEngaged_keeps | apply State.judgePlan_keeps | fail_if_no_progress apply Keeps.mk_
      | refine Keeps.ite (fun _ => ?_) (fun _ => ?_)
    | (extract_lets +onlyGivenNames x; apply Keeps.cut (t := x) <;> [subst x; (intro _; clear_value x)])
    | (extract_lets +onlyGivenNames x; subst x)
    | dsimp -zeta only
    | split
    | dsimp only

theorem execEpochPublish_keeps {s0 : State} {m : Master} {inst : Option (Fin 64)} {buf : Fin 4} {s : State}  (h : Keeps s0 s) : OutKeeps s0 (execEpochPublish m inst buf s) := by
  unfold execEpochPublish
  repeat' first
    | with_reducible first
      | assumption | apply State.refuse_keeps | apply State.respOk_keeps | apply State.pubErr_keeps
      | apply State.publish_keeps | apply State.setBuf_keeps | apply OutKeeps.next
      | refine OutKeeps.ite (fun _ => ?_) (fun _ => ?_) | refine Keeps.ite (fun _ => ?_) (fun _ => ?_)
    | (extract_lets +onlyGivenNames x; apply Keeps.cut (t := x) <;> [subst x; (intro _; clear_value x)])
    | (extract_lets +onlyGivenNames x; subst x)
    | dsimp -zeta only
    | split
    | dsimp only

theorem execEpochAbandon_keeps {s0 : State} {m : Master} {inst : Option (Fin 64)} {buf : Fin 4} {s : State}  (h : Keeps s0 s) : OutKeeps s0 (execEpochAbandon m inst buf s) := by
  unfold execEpochAbandon
  repeat' first
    | with_reducible first
      | assumption | apply State.refuse_keeps | apply State.respOk_keeps | apply State.setBuf_keeps | apply OutKeeps.next
      | refine OutKeeps.ite (fun _ => ?_) (fun _ => ?_) | refine Keeps.ite (fun _ => ?_) (fun _ => ?_)
    | (extract_lets +onlyGivenNames x; apply Keeps.cut (t := x) <;> [subst x; (intro _; clear_value x)])
    | (extract_lets +onlyGivenNames x; subst x)
    | dsimp -zeta only
    | split
    | dsimp only

theorem State.endRun_keeps {s0 : State} {s : State} {r : PlanRun} {code : Nat}  (h : Keeps s0 s) : Keeps s0 (State.endRun s r code) := by
  unfold State.endRun
  repeat' first
    | with_reducible first
      | assumption | apply State.wpeSync_keeps | apply State.fault_keeps | apply State.orWord_keeps
      | fail_if_no_progress apply Keeps.mk_ | refine Keeps.ite (fun _ => ?_) (fun _ => ?_)
    | (extract_lets +onlyGivenNames x; apply Keeps.cut (t := x) <;> [subst x; (intro _; clear_value x)])
    | (extract_lets +onlyGivenNames x; subst x)
    | dsimp -zeta only
    | split
    | dsimp only

theorem State.latchVs_keeps {s0 : State} {s : State}  (h : Keeps s0 s) : Keeps s0 (State.latchVs s) := by
  unfold State.latchVs
  repeat' first
    | with_reducible first
      | assumption | fail_if_no_progress apply Keeps.mk_ | refine Keeps.ite (fun _ => ?_) (fun _ => ?_)
    | (extract_lets +onlyGivenNames x; apply Keeps.cut (t := x) <;> [subst x; (intro _; clear_value x)])
    | (extract_lets +onlyGivenNames x; subst x)
    | dsimp -zeta only
    | split
    | dsimp only

theorem State.startRun_keeps {s0 : State} {s : State} {tRef : Nat} {rerun : Bool}  (h : Keeps s0 s) : Keeps s0 (State.startRun s tRef rerun) := by
  unfold State.startRun
  repeat' first
    | with_reducible first
      | assumption | apply State.pinPlan_keeps | apply State.latchVs_keeps | apply State.bump_keeps
      | apply State.wpeSync_keeps | fail_if_no_progress apply Keeps.mk_ | refine Keeps.of_fst (by assumption) ?_
      | refine Keeps.ite (fun _ => ?_) (fun _ => ?_)
    | (extract_lets +onlyGivenNames x; apply Keeps.cut (t := x) <;> [subst x; (intro _; clear_value x)])
    | (extract_lets +onlyGivenNames x; subst x)
    | dsimp -zeta only
    | split
    | dsimp only

theorem State.applyShadow_keeps {s0 : State} {s : State}  (h : Keeps s0 s) : Keeps s0 (State.applyShadow s) := by
  unfold State.applyShadow
  repeat' first
    | with_reducible first
      | assumption | apply State.setWord_keeps | apply foldl_keeps | apply foldl_keeps_fst | intro _
      | fail_if_no_progress apply Keeps.mk_
    | (extract_lets +onlyGivenNames x; apply Keeps.cut (t := x) <;> [subst x; (intro _; clear_value x)])
    | (extract_lets +onlyGivenNames x; subst x)
    | dsimp -zeta only
    | dsimp only

theorem State.applySwap_keeps {s0 : State} {s : State}  (h : Keeps s0 s) : Keeps s0 (State.applySwap s) := by
  unfold State.applySwap
  repeat' first
    | with_reducible first
      | assumption | apply State.setBit_keeps | refine Keeps.ite (fun _ => ?_) (fun _ => ?_)
    | dsimp -zeta only
    | split
    | dsimp only

theorem execCycleStart_keeps {s0 : State} {s : State}  (h : Keeps s0 s) : OutKeeps s0 (execCycleStart s) := by
  unfold execCycleStart
  repeat' first
    | with_reducible first
      | assumption | apply State.applySwap_keeps | apply State.applyShadow_keeps | apply State.bump_keeps
      | apply State.setWord_keeps | apply State.pinHeel_keeps | apply State.wpeSync_keeps | apply State.startRun_keeps
      | apply OutKeeps.next | fail_if_no_progress apply Keeps.mk_ | refine Keeps.of_fst (by assumption) ?_
      | refine OutKeeps.ite (fun _ => ?_) (fun _ => ?_) | refine Keeps.ite (fun _ => ?_) (fun _ => ?_)
    | (extract_lets +onlyGivenNames x; apply Keeps.cut (t := x) <;> [subst x; (intro _; clear_value x)])
    | (extract_lets +onlyGivenNames x; subst x)
    | dsimp -zeta only
    | split
    | dsimp only

theorem execWavefrontExpansionDone_keeps {s0 : State} {err : Fin 3} {s : State}  (h : Keeps s0 s) : OutKeeps s0 (execWavefrontExpansionDone err s) := by
  unfold execWavefrontExpansionDone
  repeat' first
    | with_reducible first
      | assumption | apply State.fault_keeps | apply State.endRun_keeps | apply State.expandLayers_keeps
      | apply State.wpeSync_keeps | apply OutKeeps.next | fail_if_no_progress apply Keeps.mk_
      | refine Keeps.of_fst (by assumption) ?_ | refine OutKeeps.ite (fun _ => ?_) (fun _ => ?_)
      | refine Keeps.ite (fun _ => ?_) (fun _ => ?_)
    | (extract_lets +onlyGivenNames x; apply Keeps.cut (t := x) <;> [subst x; (intro _; clear_value x)])
    | (extract_lets +onlyGivenNames x; subst x)
    | dsimp -zeta only
    | split
    | dsimp only

theorem State.treeErrs_keeps {s0 : State} {s : State} {n : Nat}  (h : Keeps s0 s) : Keeps s0 (State.treeErrs s n) := by
  unfold State.treeErrs
  repeat' first
    | with_reducible first
      | assumption | apply State.orWord_keeps | apply State.bumpBy_keeps | refine Keeps.ite (fun _ => ?_) (fun _ => ?_)
    | dsimp -zeta only
    | split
    | dsimp only

theorem execPlanChosen_keeps {s0 : State} {s : State}  (h : Keeps s0 s) : OutKeeps s0 (execPlanChosen s) := by
  unfold execPlanChosen
  repeat' first
    | with_reducible first
      | assumption | apply State.treeErrs_keeps | apply State.endRun_keeps | apply State.orWord_keeps | apply State.bump_keeps
      | apply State.startRun_keeps | apply OutKeeps.next | fail_if_no_progress apply Keeps.mk_
      | refine Keeps.of_fst (by assumption) ?_ | refine OutKeeps.ite (fun _ => ?_) (fun _ => ?_)
      | refine Keeps.ite (fun _ => ?_) (fun _ => ?_)
    | (extract_lets +onlyGivenNames x; apply Keeps.cut (t := x) <;> [subst x; (intro _; clear_value x)])
    | (extract_lets +onlyGivenNames x; subst x)
    | dsimp -zeta only
    | split
    | dsimp only

theorem execHeelSubmit_keeps {s0 : State} {m : Master} {addr : BitVec 64} {s : State}  (h : Keeps s0 s) : OutKeeps s0 (execHeelSubmit m addr s) := by
  unfold execHeelSubmit
  repeat' first
    | with_reducible first
      | assumption | apply State.refuse_keeps | apply State.respOk_keeps | apply State.setBit_keeps | apply OutKeeps.next
      | fail_if_no_progress apply Keeps.mk_ | refine OutKeeps.ite (fun _ => ?_) (fun _ => ?_)
      | refine Keeps.ite (fun _ => ?_) (fun _ => ?_)
    | (extract_lets +onlyGivenNames x; apply Keeps.cut (t := x) <;> [subst x; (intro _; clear_value x)])
    | (extract_lets +onlyGivenNames x; subst x)
    | dsimp -zeta only
    | split
    | dsimp only

theorem State.heelStale_keeps {s0 : State} {s : State}  (h : Keeps s0 s) : Keeps s0 (State.heelStale s) := by
  unfold State.heelStale
  repeat' first
    | with_reducible first
      | assumption | apply State.orWord_keeps | apply State.bump_keeps
    | dsimp -zeta only
    | dsimp only

theorem execHeelCheckDone_keeps {s0 : State} {fault : Bool} {s : State}  (h : Keeps s0 s) : OutKeeps s0 (execHeelCheckDone fault s) := by
  unfold execHeelCheckDone
  repeat' first
    | with_reducible first
      | assumption | apply State.setFld_keeps | apply State.setBit_keeps | apply State.fault_keeps
      | apply State.treeErrs_keeps | apply State.pinHeel_keeps | apply State.heelStale_keeps | apply OutKeeps.next
      | fail_if_no_progress apply Keeps.mk_ | refine Keeps.of_fst (by assumption) ?_
      | refine OutKeeps.ite (fun _ => ?_) (fun _ => ?_) | refine Keeps.ite (fun _ => ?_) (fun _ => ?_)
    | (extract_lets +onlyGivenNames x; apply Keeps.cut (t := x) <;> [subst x; (intro _; clear_value x)])
    | (extract_lets +onlyGivenNames x; subst x)
    | dsimp -zeta only
    | split
    | dsimp only

theorem State.heelFallback_keeps {s0 : State} {s : State}  (h : Keeps s0 s) : Keeps s0 (State.heelFallback s) := by
  unfold State.heelFallback
  repeat' first
    | with_reducible first
      | assumption | apply State.setBit_keeps | apply State.orWord_keeps | apply State.bump_keeps | apply State.fault_keeps
      | refine Keeps.ite (fun _ => ?_) (fun _ => ?_)
    | (extract_lets +onlyGivenNames x; apply Keeps.cut (t := x) <;> [subst x; (intro _; clear_value x)])
    | (extract_lets +onlyGivenNames x; subst x)
    | dsimp -zeta only
    | split
    | dsimp only

theorem execHeelOutcome_keeps {s0 : State} {s : State}  (h : Keeps s0 s) : OutKeeps s0 (execHeelOutcome s) := by
  unfold execHeelOutcome
  repeat' first
    | with_reducible first
      | assumption | apply State.wpeSync_keeps | apply State.heelFallback_keeps | apply State.setFld_keeps
      | apply State.moveHeelPin_keeps | apply State.bump_keeps | apply State.setBit_keeps | apply State.heelStale_keeps
      | apply OutKeeps.next | apply foldl_keeps | apply foldl_keeps_fst | intro _ | fail_if_no_progress apply Keeps.mk_
      | refine Keeps.of_fst (by assumption) ?_ | refine OutKeeps.ite (fun _ => ?_) (fun _ => ?_)
      | refine Keeps.ite (fun _ => ?_) (fun _ => ?_)
    | (extract_lets +onlyGivenNames x; apply Keeps.cut (t := x) <;> [subst x; (intro _; clear_value x)])
    | (extract_lets +onlyGivenNames x; subst x)
    | dsimp -zeta only
    | split
    | dsimp only

theorem State.judgeRun_keeps {s0 : State} {s : State}  (h : Keeps s0 s) : Keeps s0 (State.judgeRun s).2.2 := by
  unfold State.judgeRun
  repeat' first
    | with_reducible first
      | assumption | apply State.endRun_keeps | fail_if_no_progress apply Keeps.mk_ | refine Keeps.of_fst (by assumption) ?_
      | refine Keeps.ite22 (fun _ => ?_) (fun _ => ?_) | refine Keeps.ite (fun _ => ?_) (fun _ => ?_)
    | (extract_lets +onlyGivenNames x; apply Keeps.cut (t := x) <;> [subst x; (intro _; clear_value x)])
    | (extract_lets +onlyGivenNames x; subst x)
    | dsimp -zeta only
    | split
    | dsimp only

theorem State.ageAll_keeps {s0 : State} {s : State}  (h : Keeps s0 s) : Keeps s0 (State.ageAll s) := by
  unfold State.ageAll
  repeat' first
    | with_reducible first
      | assumption | fail_if_no_progress apply Keeps.mk_
    | (extract_lets +onlyGivenNames x; apply Keeps.cut (t := x) <;> [subst x; (intro _; clear_value x)])
    | (extract_lets +onlyGivenNames x; subst x)
    | dsimp -zeta only
    | dsimp only

theorem State.carriedHeel_keeps {s0 : State} {s : State}  (h : Keeps s0 s) : Keeps s0 (State.carriedHeel s).2 := by
  unfold State.carriedHeel
  repeat' first
    | with_reducible first
      | assumption | apply State.hardHeel_keeps | refine Keeps.of_fst (by assumption) ?_
      | refine Keeps.of_snd (by assumption) ?_ | refine Keeps.ite2 (fun _ => ?_) (fun _ => ?_)
      | refine Keeps.ite (fun _ => ?_) (fun _ => ?_)
    | dsimp -zeta only
    | split
    | dsimp only

theorem execDeadlineTack_keeps {s0 : State} {s : State}  (h : Keeps s0 s) : OutKeeps s0 (execDeadlineTack s) := by
  unfold execDeadlineTack
  repeat' first
    | with_reducible first
      | assumption | apply State.judgeRun_keeps | apply State.setFld_keeps | apply State.orWord_keeps | apply State.bump_keeps
      | apply State.wpeFrame_keeps | apply State.carriedHeel_keeps | apply State.bumpSat_keeps | apply State.fault_keeps
      | apply State.wpeSync_keeps | apply State.ageAll_keeps | apply OutKeeps.next | fail_if_no_progress apply Keeps.mk_
      | refine Keeps.of_fst (by assumption) ?_ | refine Keeps.of_snd (by assumption) ?_
      | refine OutKeeps.ite (fun _ => ?_) (fun _ => ?_) | refine Keeps.ite (fun _ => ?_) (fun _ => ?_)
    | (extract_lets +onlyGivenNames x; apply Keeps.cut (t := x) <;> [subst x; (intro _; clear_value x)])
    | (extract_lets +onlyGivenNames x; subst x)
    | dsimp -zeta only
    | split
    | dsimp only

theorem execVehicleStateCommit_keeps {s0 : State} {m : Master} {inst : Option (Fin 64)} {b3 : BitVec 64} {s : State}  (h : Keeps s0 s) : OutKeeps s0 (execVehicleStateCommit m inst b3 s) := by
  unfold execVehicleStateCommit
  repeat' first
    | with_reducible first
      | assumption | apply State.refuse_keeps | apply State.setWord64_keeps | apply State.respOk_keeps | apply OutKeeps.next
      | fail_if_no_progress apply Keeps.mk_ | refine OutKeeps.ite (fun _ => ?_) (fun _ => ?_)
      | refine Keeps.ite (fun _ => ?_) (fun _ => ?_)
    | (extract_lets +onlyGivenNames x; apply Keeps.cut (t := x) <;> [subst x; (intro _; clear_value x)])
    | (extract_lets +onlyGivenNames x; subst x)
    | dsimp -zeta only
    | split
    | dsimp only

theorem execGoalSwap_keeps {s0 : State} {m : Master} {inst : Option (Fin 64)} {s : State}  (h : Keeps s0 s) : OutKeeps s0 (execGoalSwap m inst s) := by
  unfold execGoalSwap
  repeat' first
    | with_reducible first
      | assumption | apply State.refuse_keeps | apply State.respOk_keeps | apply State.setBit_keeps | apply OutKeeps.next
      | refine OutKeeps.ite (fun _ => ?_) (fun _ => ?_) | refine Keeps.ite (fun _ => ?_) (fun _ => ?_)
    | dsimp -zeta only
    | split
    | dsimp only

end Sys2Proof.Machine
end

