-- ==== Sys2Proof/Laws/KeepsInst.lean ====
section
/-! SUPPORT. What Machine/Inst.lean keeps. -/

namespace Sys2Proof.Machine

set_option linter.unusedTactic false
set_option linter.unreachableTactic false

theorem State.setInstState_keeps {s0 : State} {s : State} {i : Nat} {v : Nat}  (h : Keeps s0 s) : Keeps s0 (State.setInstState s i v) := by
  unfold State.setInstState
  repeat' first
    | with_reducible first
      | assumption | apply State.setFld_keeps
    | dsimp -zeta only
    | dsimp only

theorem State.instErr_keeps {s0 : State} {s : State} {i : Nat}  (h : Keeps s0 s) : Keeps s0 (State.instErr s i) := by
  unfold State.instErr
  repeat' first
    | with_reducible first
      | assumption | apply State.setBit_keeps
    | dsimp -zeta only
    | dsimp only

theorem State.instSequence_keeps {s0 : State} {s : State} {i : Nat} {remove : Bool}  (h : Keeps s0 s) : Keeps s0 (State.instSequence s i remove) := by
  unfold State.instSequence
  repeat' first
    | with_reducible first
      | assumption | apply State.queuesEmpty_keeps | apply State.setInstState_keeps | apply State.setFld_keeps
      | apply State.mbxAbandon_keeps | apply State.returnSlots_keeps | apply State.disarmOwned_keeps
      | apply State.queuesGen_keeps | apply State.setBuf_keeps | apply State.clickerInstAbort_keeps
      | apply State.feInstReset_keeps | apply foldl_keeps | apply foldl_keeps_fst | intro _
      | fail_if_no_progress apply Keeps.mk_ | refine Keeps.of_fst (by assumption) ?_
      | refine Keeps.ite (fun _ => ?_) (fun _ => ?_)
    | (extract_lets +onlyGivenNames x; apply Keeps.cut (t := x) <;> [subst x; (intro _; clear_value x)])
    | (extract_lets +onlyGivenNames x; subst x)
    | dsimp -zeta only
    | split
    | dsimp only

theorem State.instAdd_keeps {s0 : State} {s : State} {i : Nat}  (h : Keeps s0 s) : Keeps s0 (State.instAdd s i) := by
  unfold State.instAdd
  repeat' first
    | with_reducible first
      | assumption | apply State.instErr_keeps | apply State.setFld_keeps | apply State.setInstState_keeps
      | fail_if_no_progress apply Keeps.mk_ | refine Keeps.of_fst (by assumption) ?_
      | refine Keeps.ite (fun _ => ?_) (fun _ => ?_)
    | (extract_lets +onlyGivenNames x; apply Keeps.cut (t := x) <;> [subst x; (intro _; clear_value x)])
    | (extract_lets +onlyGivenNames x; subst x)
    | dsimp -zeta only
    | split
    | dsimp only

theorem State.instDrained_keeps {s0 : State} {s : State} {i : Nat}  (h : Keeps s0 s) : Keeps s0 (State.instDrained s i) := by
  unfold State.instDrained
  repeat' first
    | with_reducible first
      | assumption | apply State.orWord_keeps | apply State.setInstState_keeps | apply State.setBit_keeps
      | apply State.instAdd_keeps | apply foldl_keeps | apply foldl_keeps_fst | intro _ | fail_if_no_progress apply Keeps.mk_
      | refine Keeps.of_fst (by assumption) ?_ | refine Keeps.ite (fun _ => ?_) (fun _ => ?_)
    | (extract_lets +onlyGivenNames x; apply Keeps.cut (t := x) <;> [subst x; (intro _; clear_value x)])
    | (extract_lets +onlyGivenNames x; subst x)
    | dsimp -zeta only
    | split
    | dsimp only

theorem execResetDrainDone_keeps {s0 : State} {inst : Fin 64} {s : State}  (h : Keeps s0 s) : OutKeeps s0 (execResetDrainDone inst s) := by
  unfold execResetDrainDone
  repeat' first
    | with_reducible first
      | assumption | apply State.instDrained_keeps | apply OutKeeps.next
    | dsimp -zeta only
    | dsimp only

theorem State.instReset_keeps {s0 : State} {s : State} {i : Nat} {remove : Bool}  (h : Keeps s0 s) : Keeps s0 (State.instReset s i remove) := by
  unfold State.instReset
  repeat' first
    | with_reducible first
      | assumption | apply State.instErr_keeps | apply State.instSequence_keeps | refine Keeps.ite (fun _ => ?_) (fun _ => ?_)
    | dsimp -zeta only
    | split
    | dsimp only

theorem execInstanceReset_keeps {s0 : State} {m : Master} {inst : Fin 64} {s : State}  (h : Keeps s0 s) : OutKeeps s0 (execInstanceReset m inst s) := by
  unfold execInstanceReset
  repeat' first
    | with_reducible first
      | assumption | apply State.respOk_keeps | apply State.instReset_keeps | apply State.refuse_keeps | apply OutKeeps.next
      | refine OutKeeps.ite (fun _ => ?_) (fun _ => ?_) | refine Keeps.ite (fun _ => ?_) (fun _ => ?_)
    | dsimp -zeta only
    | split
    | dsimp only

theorem execInstanceRemove_keeps {s0 : State} {m : Master} {inst : Fin 64} {s : State}  (h : Keeps s0 s) : OutKeeps s0 (execInstanceRemove m inst s) := by
  unfold execInstanceRemove
  repeat' first
    | with_reducible first
      | assumption | apply State.respOk_keeps | apply State.instReset_keeps | apply State.refuse_keeps | apply OutKeeps.next
      | refine OutKeeps.ite (fun _ => ?_) (fun _ => ?_) | refine Keeps.ite (fun _ => ?_) (fun _ => ?_)
    | dsimp -zeta only
    | split
    | dsimp only

theorem execInstanceAdd_keeps {s0 : State} {m : Master} {inst : Fin 64} {s : State}  (h : Keeps s0 s) : OutKeeps s0 (execInstanceAdd m inst s) := by
  unfold execInstanceAdd
  repeat' first
    | with_reducible first
      | assumption | apply State.respOk_keeps | apply State.instAdd_keeps | apply State.refuse_keeps | apply OutKeeps.next
      | refine OutKeeps.ite (fun _ => ?_) (fun _ => ?_) | refine Keeps.ite (fun _ => ?_) (fun _ => ?_)
    | dsimp -zeta only
    | split
    | dsimp only

theorem State.portIrq_keeps {s0 : State} {s : State} {n : Nat} {k : Nat}  (h : Keeps s0 s) : Keeps s0 (State.portIrq s n k) := by
  unfold State.portIrq
  repeat' first
    | with_reducible first
      | assumption | apply State.orWord_keeps
    | dsimp -zeta only
    | dsimp only

theorem State.linkUp_keeps {s0 : State} {s : State} {n : Nat} {gen : Nat} {width : Nat} {flit : Bool}  (h : Keeps s0 s) : Keeps s0 (State.linkUp s n gen width flit) := by
  unfold State.linkUp
  repeat' first
    | with_reducible first
      | assumption | apply State.takeFree_keeps | apply State.setFld_keeps | apply State.portIrq_keeps
      | refine Keeps.of_fst (by assumption) ?_ | refine Keeps.of_snd (by assumption) ?_
      | refine Keeps.ite (fun _ => ?_) (fun _ => ?_)
    | (extract_lets +onlyGivenNames x; apply Keeps.cut (t := x) <;> [subst x; (intro _; clear_value x)])
    | (extract_lets +onlyGivenNames x; subst x)
    | dsimp -zeta only
    | split
    | dsimp only

theorem execPcieLinkUp_keeps {s0 : State} {port : Fin 4} {gen : Fin 8} {width : Fin 4} {flit : Bool} {s : State}  (h : Keeps s0 s) : OutKeeps s0 (execPcieLinkUp port gen width flit s) := by
  unfold execPcieLinkUp
  repeat' first
    | with_reducible first
      | assumption | apply State.linkUp_keeps | apply OutKeeps.next
    | dsimp -zeta only
    | dsimp only

theorem State.sendCpl_keeps {s0 : State} {s : State} {n : Nat} {tag : Nat} {status : Nat} {ep : Bool} {data : List Byte}  (h : Keeps s0 s) : Keeps s0 (State.sendCpl s n tag status ep data) := by
  unfold State.sendCpl
  repeat' first
    | with_reducible first
      | assumption | apply State.bump_keeps | apply State.emit_keeps | refine Keeps.ite (fun _ => ?_) (fun _ => ?_)
    | (extract_lets +onlyGivenNames x; apply Keeps.cut (t := x) <;> [subst x; (intro _; clear_value x)])
    | (extract_lets +onlyGivenNames x; subst x)
    | dsimp -zeta only
    | split
    | dsimp only

theorem State.sendBack_keeps {s0 : State} {s : State} {back : Option (Nat × Nat)}  (h : Keeps s0 s) : Keeps s0 (State.sendBack s back) := by
  unfold State.sendBack
  repeat' first
    | with_reducible first
      | assumption | apply State.sendCpl_keeps | refine Keeps.of_fst (by assumption) ?_
      | refine Keeps.ite (fun _ => ?_) (fun _ => ?_)
    | dsimp -zeta only
    | split
    | dsimp only

theorem State.linkDown_keeps {s0 : State} {s : State} {n : Nat}  (h : Keeps s0 s) : Keeps s0 (State.linkDown s n) := by
  unfold State.linkDown
  repeat' first
    | with_reducible first
      | assumption | apply State.takeFree_keeps | apply State.portIrq_keeps | apply State.setFld_keeps
      | apply State.sendBack_keeps | apply State.respErr_keeps | apply State.setBit_keeps | apply State.instSequence_keeps
      | apply foldl_keeps | apply foldl_keeps_fst | intro _ | fail_if_no_progress apply Keeps.mk_
      | refine Keeps.of_fst (by assumption) ?_ | refine Keeps.of_snd (by assumption) ?_
      | refine Keeps.ite (fun _ => ?_) (fun _ => ?_)
    | (extract_lets +onlyGivenNames x; apply Keeps.cut (t := x) <;> [subst x; (intro _; clear_value x)])
    | (extract_lets +onlyGivenNames x; subst x)
    | dsimp -zeta only
    | split
    | dsimp only

theorem execPcieLinkDown_keeps {s0 : State} {port : Fin 4} {s : State}  (h : Keeps s0 s) : OutKeeps s0 (execPcieLinkDown port s) := by
  unfold execPcieLinkDown
  repeat' first
    | with_reducible first
      | assumption | apply State.linkDown_keeps | apply OutKeeps.next
    | dsimp -zeta only
    | dsimp only

theorem State.flrOf_keeps {s0 : State} {s : State} {n : Nat} {vf : Nat}  (h : Keeps s0 s) : Keeps s0 (State.flrOf s n vf) := by
  unfold State.flrOf
  repeat' first
    | with_reducible first
      | assumption | apply State.portIrq_keeps | apply State.setBit_keeps | apply State.instSequence_keeps
      | fail_if_no_progress apply Keeps.mk_ | refine Keeps.of_fst (by assumption) ?_
      | refine Keeps.ite (fun _ => ?_) (fun _ => ?_)
    | (extract_lets +onlyGivenNames x; apply Keeps.cut (t := x) <;> [subst x; (intro _; clear_value x)])
    | (extract_lets +onlyGivenNames x; subst x)
    | dsimp -zeta only
    | split
    | dsimp only

theorem execPcieFlr_keeps {s0 : State} {port : Fin 4} {vf : Fin 64} {s : State}  (h : Keeps s0 s) : OutKeeps s0 (execPcieFlr port vf s) := by
  unfold execPcieFlr
  repeat' first
    | with_reducible first
      | assumption | apply State.flrOf_keeps | apply OutKeeps.next
    | dsimp -zeta only
    | dsimp only

theorem State.vfChange_keeps {s0 : State} {s : State} {n : Nat} {en : Bool} {num : Nat}  (h : Keeps s0 s) : Keeps s0 (State.vfChange s n en num) := by
  unfold State.vfChange
  repeat' first
    | with_reducible first
      | assumption | apply State.setFld_keeps | apply State.instAdd_keeps | apply State.instSequence_keeps | apply foldl_keeps
      | apply foldl_keeps_fst | intro _ | refine Keeps.ite (fun _ => ?_) (fun _ => ?_)
    | (extract_lets +onlyGivenNames x; apply Keeps.cut (t := x) <;> [subst x; (intro _; clear_value x)])
    | (extract_lets +onlyGivenNames x; subst x)
    | dsimp -zeta only
    | split
    | dsimp only

theorem execVfEnableChange_keeps {s0 : State} {port : Fin 4} {enable : Bool} {num : Fin 65} {s : State}  (h : Keeps s0 s) : OutKeeps s0 (execVfEnableChange port enable num s) := by
  unfold execVfEnableChange
  repeat' first
    | with_reducible first
      | assumption | apply State.vfChange_keeps | apply OutKeeps.next
    | dsimp -zeta only
    | dsimp only

theorem State.epCount_keeps {s0 : State} {s : State} {n : Nat} {sent : Bool}  (h : Keeps s0 s) : Keeps s0 (State.epCount s n sent) := by
  unfold State.epCount
  repeat' first
    | with_reducible first
      | assumption | apply State.bumpSat_keeps | refine Keeps.ite (fun _ => ?_) (fun _ => ?_)
    | dsimp -zeta only
    | split
    | dsimp only

theorem State.outbound_keeps {s0 : State} {s : State} {m : Master} {inst : Option (Fin 64)} {n : Nat} {write : Bool} {addr : Nat} {len : Nat} {data : List Byte} {bad : Bool}  (h : Keeps s0 s) : Keeps s0 (State.outbound s m inst n write addr len data bad) := by
  unfold State.outbound
  repeat' first
    | with_reducible first
      | assumption | apply State.epCount_keeps | apply State.emit_keeps | apply State.respOk_keeps
      | fail_if_no_progress apply Keeps.mk_ | refine Keeps.ite (fun _ => ?_) (fun _ => ?_)
    | (extract_lets +onlyGivenNames x; apply Keeps.cut (t := x) <;> [subst x; (intro _; clear_value x)])
    | (extract_lets +onlyGivenNames x; subst x)
    | dsimp -zeta only
    | split
    | dsimp only

theorem execPcieOutboundRequest_keeps {s0 : State} {m : Master} {inst : Option (Fin 64)} {port : Fin 4} {write : Bool} {addr : BitVec 40} {len : Fin 4097} {data : List Byte} {poison : Bool} {s : State}  (h : Keeps s0 s) : OutKeeps s0 (execPcieOutboundRequest m inst port write addr len data poison s) := by
  unfold execPcieOutboundRequest
  repeat' first
    | with_reducible first
      | assumption | apply State.xlat_keeps | apply State.respErr_keeps | apply State.outbound_keeps
      | apply State.refuse_keeps | apply OutKeeps.next | refine Keeps.of_fst (by assumption) ?_
      | refine OutKeeps.ite (fun _ => ?_) (fun _ => ?_) | refine Keeps.ite (fun _ => ?_) (fun _ => ?_)
    | (extract_lets +onlyGivenNames x; apply Keeps.cut (t := x) <;> [subst x; (intro _; clear_value x)])
    | (extract_lets +onlyGivenNames x; subst x)
    | dsimp -zeta only
    | split
    | dsimp only

theorem State.cplTimeout_keeps {s0 : State} {s : State} {n : Nat} {tag : Nat}  (h : Keeps s0 s) : Keeps s0 (State.cplTimeout s n tag) := by
  unfold State.cplTimeout
  repeat' first
    | with_reducible first
      | assumption | apply State.timeTo_keeps | apply State.portIrq_keeps | apply State.setWord_keeps
      | apply State.setBit_keeps | apply State.sendBack_keeps | apply State.respErr_keeps
      | fail_if_no_progress apply Keeps.mk_ | refine Keeps.of_fst (by assumption) ?_
      | refine Keeps.ite (fun _ => ?_) (fun _ => ?_)
    | (extract_lets +onlyGivenNames x; apply Keeps.cut (t := x) <;> [subst x; (intro _; clear_value x)])
    | (extract_lets +onlyGivenNames x; subst x)
    | dsimp -zeta only
    | split
    | dsimp only

theorem execPcieCompletionTimeout_keeps {s0 : State} {port : Fin 4} {tag : BitVec 14} {s : State}  (h : Keeps s0 s) : OutKeeps s0 (execPcieCompletionTimeout port tag s) := by
  unfold execPcieCompletionTimeout
  repeat' first
    | with_reducible first
      | assumption | apply State.cplTimeout_keeps | apply OutKeeps.next
    | dsimp -zeta only
    | dsimp only

theorem State.inboundCpl_keeps {s0 : State} {s : State} {n : Nat} {tag : Nat} {err : Bool} {ep : Bool} {data : List Byte}  (h : Keeps s0 s) : Keeps s0 (State.inboundCpl s n tag err ep data) := by
  unfold State.inboundCpl
  repeat' first
    | with_reducible first
      | assumption | apply State.epCount_keeps | apply State.setBit_keeps | apply State.setWord_keeps | apply State.bump_keeps
      | apply State.sendBack_keeps | apply State.respErr_keeps | fail_if_no_progress apply Keeps.mk_
      | refine Keeps.of_fst (by assumption) ?_ | refine Keeps.ite (fun _ => ?_) (fun _ => ?_)
    | (extract_lets +onlyGivenNames x; apply Keeps.cut (t := x) <;> [subst x; (intro _; clear_value x)])
    | (extract_lets +onlyGivenNames x; subst x)
    | dsimp -zeta only
    | split
    | dsimp only

theorem execPcieInboundCompletion_keeps {s0 : State} {port : Fin 4} {tag : BitVec 14} {err : Bool} {ep : Bool} {data : List Byte} {s : State}  (h : Keeps s0 s) : OutKeeps s0 (execPcieInboundCompletion port tag err ep data s) := by
  unfold execPcieInboundCompletion
  repeat' first
    | with_reducible first
      | assumption | apply State.inboundCpl_keeps | apply OutKeeps.next
    | dsimp -zeta only
    | dsimp only

theorem State.cfgGo_keeps {s0 : State} {s : State} {m : Master} {n : Nat} {v : Nat} {write : Bool}  (h : Keeps s0 s) : Keeps s0 (State.cfgGo s m n v write) := by
  unfold State.cfgGo
  repeat' first
    | with_reducible first
      | assumption | apply State.setWord_keeps | apply State.emit_keeps | apply State.setBit_keeps
      | fail_if_no_progress apply Keeps.mk_ | refine Keeps.ite (fun _ => ?_) (fun _ => ?_)
    | (extract_lets +onlyGivenNames x; apply Keeps.cut (t := x) <;> [subst x; (intro _; clear_value x)])
    | (extract_lets +onlyGivenNames x; subst x)
    | dsimp -zeta only
    | split
    | dsimp only

theorem execPciCfgGo_keeps {s0 : State} {m : Master} {port : Fin 4} {v : BitVec 32} {write : Bool} {s : State}  (h : Keeps s0 s) : OutKeeps s0 (execPciCfgGo m port v write s) := by
  unfold execPciCfgGo
  repeat' first
    | with_reducible first
      | assumption | apply State.respOk_keeps | apply State.cfgGo_keeps | apply State.refuse_keeps | apply OutKeeps.next
      | refine OutKeeps.ite (fun _ => ?_) (fun _ => ?_) | refine Keeps.ite (fun _ => ?_) (fun _ => ?_)
    | dsimp -zeta only
    | split
    | dsimp only

end Sys2Proof.Machine
end

