-- ==== Sys2Proof/Laws/KeepsPwr.lean ====
section
/-! SUPPORT. What Machine/Pwr.lean keeps. -/

namespace Sys2Proof.Machine

set_option linter.unusedTactic false
set_option linter.unreachableTactic false

theorem State.setRail_keeps {s0 : State} {s : State} {r : Nat} {b3 : AdmRail}  (h : Keeps s0 s) : Keeps s0 (State.setRail s r b3) := by
  unfold State.setRail
  repeat' first
    | with_reducible first
      | assumption | fail_if_no_progress apply Keeps.mk_
    | (extract_lets +onlyGivenNames x; apply Keeps.cut (t := x) <;> [subst x; (intro _; clear_value x)])
    | (extract_lets +onlyGivenNames x; subst x)
    | dsimp -zeta only
    | dsimp only

theorem State.admTake_keeps {s0 : State} {s : State} {r : Nat} {q : AdmReq}  (h : Keeps s0 s) : Keeps s0 (State.admTake s r q) := by
  unfold State.admTake
  repeat' first
    | with_reducible first
      | assumption | apply State.setRail_keeps
    | (extract_lets +onlyGivenNames x; apply Keeps.cut (t := x) <;> [subst x; (intro _; clear_value x)])
    | (extract_lets +onlyGivenNames x; subst x)
    | dsimp -zeta only
    | dsimp only

theorem State.setHc_keeps {s0 : State} {s : State} {n : Nat} {v : Nat}  (h : Keeps s0 s) : Keeps s0 (State.setHc s n v) := by
  unfold State.setHc
  repeat' first
    | with_reducible first
      | assumption | apply State.setBit_keeps | apply State.setFld_keeps
    | dsimp -zeta only
    | dsimp only

theorem State.admBegin_keeps {s0 : State} {s : State} {q : AdmReq}  (h : Keeps s0 s) : Keeps s0 (State.admBegin s q) := by
  unfold State.admBegin
  repeat' first
    | with_reducible first
      | assumption | apply State.bumpBy_keeps | apply State.setFld_keeps | fail_if_no_progress apply Keeps.mk_
      | refine Keeps.of_fst (by assumption) ?_
    | (extract_lets +onlyGivenNames x; apply Keeps.cut (t := x) <;> [subst x; (intro _; clear_value x)])
    | (extract_lets +onlyGivenNames x; subst x)
    | dsimp -zeta only
    | split
    | dsimp only

theorem State.admGrant_keeps {s0 : State} {s : State} {q : AdmReq}  (h : Keeps s0 s) : Keeps s0 (State.admGrant s q) := by
  unfold State.admGrant
  repeat' first
    | with_reducible first
      | assumption | apply State.admTake_keeps | apply State.setWord_keeps | apply State.bump_keeps
      | apply State.setWord64_keeps | apply State.admBegin_keeps | fail_if_no_progress apply Keeps.mk_
      | refine Keeps.of_fst (by assumption) ?_ | refine Keeps.ite (fun _ => ?_) (fun _ => ?_)
    | (extract_lets +onlyGivenNames x; apply Keeps.cut (t := x) <;> [subst x; (intro _; clear_value x)])
    | (extract_lets +onlyGivenNames x; subst x)
    | dsimp -zeta only
    | split
    | dsimp only

theorem State.admPass_keeps {s0 : State} {s : State}  (h : Keeps s0 s) : Keeps s0 (State.admPass s).1 := by
  unfold State.admPass
  repeat' first
    | with_reducible first
      | assumption | apply State.admGrant_keeps | apply foldl_keeps | apply foldl_keeps_fst | intro _
      | refine Keeps.of_fst (by assumption) ?_ | refine Keeps.ite1 (fun _ => ?_) (fun _ => ?_)
      | refine Keeps.ite (fun _ => ?_) (fun _ => ?_)
    | (extract_lets +onlyGivenNames x; apply Keeps.cut (t := x) <;> [subst x; (intro _; clear_value x)])
    | (extract_lets +onlyGivenNames x; subst x)
    | dsimp -zeta only
    | split
    | dsimp only

theorem State.admLoop_keeps {s0 : State} {a1 : Nat} {a2 : State}  (h : Keeps s0 a2) : Keeps s0 (State.admLoop a1 a2) := by
  revert h
  fun_induction State.admLoop a1 a2
  all_goals intro h
  all_goals repeat' first
    | with_reducible first
      | assumption | apply State.admPass_keeps | refine Keeps.of_fst (by assumption) ?_
    | with_reducible apply_assumption
    | dsimp -zeta only
    | split
    | dsimp only

theorem State.admWithdraw_keeps {s0 : State} {s : State}  (h : Keeps s0 s) : Keeps s0 (State.admWithdraw s) := by
  unfold State.admWithdraw
  repeat' first
    | with_reducible first
      | assumption | apply State.bump_keeps | apply foldl_keeps | apply foldl_keeps_fst | intro _
      | fail_if_no_progress apply Keeps.mk_
    | (extract_lets +onlyGivenNames x; apply Keeps.cut (t := x) <;> [subst x; (intro _; clear_value x)])
    | (extract_lets +onlyGivenNames x; subst x)
    | dsimp -zeta only
    | dsimp only

theorem State.admTick_keeps {s0 : State} {s : State}  (h : Keeps s0 s) : Keeps s0 (State.admTick s) := by
  unfold State.admTick
  repeat' first
    | with_reducible first
      | assumption | apply State.admWithdraw_keeps | apply State.admLoop_keeps
    | (extract_lets +onlyGivenNames x; apply Keeps.cut (t := x) <;> [subst x; (intro _; clear_value x)])
    | (extract_lets +onlyGivenNames x; subst x)
    | dsimp -zeta only
    | dsimp only

theorem execAdmissionRequest_keeps {s0 : State} {kind : Fin 7} {unit : Fin 256} {s : State}  (h : Keeps s0 s) : OutKeeps s0 (execAdmissionRequest kind unit s) := by
  unfold execAdmissionRequest
  repeat' first
    | with_reducible first
      | assumption | apply OutKeeps.next | fail_if_no_progress apply Keeps.mk_ | refine Keeps.of_fst (by assumption) ?_
      | refine OutKeeps.ite (fun _ => ?_) (fun _ => ?_) | refine Keeps.ite (fun _ => ?_) (fun _ => ?_)
    | (extract_lets +onlyGivenNames x; apply Keeps.cut (t := x) <;> [subst x; (intro _; clear_value x)])
    | (extract_lets +onlyGivenNames x; subst x)
    | dsimp -zeta only
    | split
    | dsimp only

theorem execAdmissionGrant_keeps {s0 : State} {s : State}  (h : Keeps s0 s) : OutKeeps s0 (execAdmissionGrant s) := by
  unfold execAdmissionGrant
  repeat' first
    | with_reducible first
      | assumption | apply State.admTick_keeps | apply OutKeeps.next
    | dsimp -zeta only
    | dsimp only

theorem execAdmissionWaitLong_keeps {s0 : State} {s : State}  (h : Keeps s0 s) : OutKeeps s0 (execAdmissionWaitLong s) := by
  unfold execAdmissionWaitLong
  repeat' first
    | with_reducible first
      | assumption | apply State.timeTo_keeps | apply State.fault_keeps | apply State.orWord_keeps | apply OutKeeps.next
      | fail_if_no_progress apply Keeps.mk_ | refine Keeps.of_fst (by assumption) ?_
      | refine OutKeeps.ite (fun _ => ?_) (fun _ => ?_) | refine Keeps.ite (fun _ => ?_) (fun _ => ?_)
    | (extract_lets +onlyGivenNames x; apply Keeps.cut (t := x) <;> [subst x; (intro _; clear_value x)])
    | (extract_lets +onlyGivenNames x; subst x)
    | dsimp -zeta only
    | split
    | dsimp only

theorem State.admReturn_keeps {s0 : State} {s : State} {kind : Nat} {unit : Nat} {rail : Nat} {n : Nat}  (h : Keeps s0 s) : Keeps s0 (State.admReturn s kind unit rail n) := by
  unfold State.admReturn
  repeat' first
    | with_reducible first
      | assumption | apply State.setRail_keeps | fail_if_no_progress apply Keeps.mk_ | refine Keeps.of_fst (by assumption) ?_
      | refine Keeps.ite (fun _ => ?_) (fun _ => ?_)
    | (extract_lets +onlyGivenNames x; apply Keeps.cut (t := x) <;> [subst x; (intro _; clear_value x)])
    | (extract_lets +onlyGivenNames x; subst x)
    | dsimp -zeta only
    | split
    | dsimp only

theorem execTokenReturn_keeps {s0 : State} {kind : Fin 7} {unit : Fin 256} {s : State}  (h : Keeps s0 s) : OutKeeps s0 (execTokenReturn kind unit s) := by
  unfold execTokenReturn
  repeat' first
    | with_reducible first
      | assumption | apply State.admReturn_keeps | apply OutKeeps.next | fail_if_no_progress apply Keeps.mk_
      | refine OutKeeps.ite (fun _ => ?_) (fun _ => ?_) | refine Keeps.ite (fun _ => ?_) (fun _ => ?_)
    | (extract_lets +onlyGivenNames x; apply Keeps.cut (t := x) <;> [subst x; (intro _; clear_value x)])
    | (extract_lets +onlyGivenNames x; subst x)
    | dsimp -zeta only
    | split
    | dsimp only

theorem State.clusterChange_keeps {s0 : State} {s : State} {n : Nat} {st : Nat}  (h : Keeps s0 s) : Keeps s0 (State.clusterChange s n st) := by
  unfold State.clusterChange
  repeat' first
    | with_reducible first
      | assumption | apply State.setHc_keeps | apply State.admReturn_keeps | refine Keeps.ite (fun _ => ?_) (fun _ => ?_)
    | (extract_lets +onlyGivenNames x; apply Keeps.cut (t := x) <;> [subst x; (intro _; clear_value x)])
    | (extract_lets +onlyGivenNames x; subst x)
    | dsimp -zeta only
    | split
    | dsimp only

theorem execClusterStateChange_keeps {s0 : State} {cluster : Fin 6} {st : Fin 3} {s : State}  (h : Keeps s0 s) : OutKeeps s0 (execClusterStateChange cluster st s) := by
  unfold execClusterStateChange
  repeat' first
    | with_reducible first
      | assumption | apply State.clusterChange_keeps | apply OutKeeps.next
    | dsimp -zeta only
    | dsimp only

theorem State.setPanelMHz_keeps {s0 : State} {s : State} {p : Nat} {f : Nat}  (h : Keeps s0 s) : Keeps s0 (State.setPanelMHz s p f) := by
  unfold State.setPanelMHz
  repeat' first
    | with_reducible first
      | assumption | apply State.modCell_keeps | apply State.setFld_keeps | apply foldl_keeps | apply foldl_keeps_fst
      | intro _ | refine Keeps.ite (fun _ => ?_) (fun _ => ?_)
    | (extract_lets +onlyGivenNames x; apply Keeps.cut (t := x) <;> [subst x; (intro _; clear_value x)])
    | (extract_lets +onlyGivenNames x; subst x)
    | dsimp -zeta only
    | split
    | dsimp only

theorem State.showGov_keeps {s0 : State} {s : State}  (h : Keeps s0 s) : Keeps s0 (State.showGov s) := by
  unfold State.showGov
  repeat' first
    | with_reducible first
      | assumption | apply State.setBit_keeps | apply State.setWord_keeps | apply foldl_keeps | apply foldl_keeps_fst
      | intro _ | refine Keeps.of_fst (by assumption) ?_ | refine Keeps.ite (fun _ => ?_) (fun _ => ?_)
    | (extract_lets +onlyGivenNames x; apply Keeps.cut (t := x) <;> [subst x; (intro _; clear_value x)])
    | (extract_lets +onlyGivenNames x; subst x)
    | dsimp -zeta only
    | split
    | dsimp only

theorem State.profRefuse_keeps {s0 : State} {s : State} {code : Nat}  (h : Keeps s0 s) : Keeps s0 (State.profRefuse s code) := by
  unfold State.profRefuse
  repeat' first
    | with_reducible first
      | assumption | apply State.fault_keeps | apply State.orWord_keeps | apply State.setFld_keeps
    | dsimp -zeta only
    | dsimp only

theorem State.setProf_keeps {s0 : State} {s : State} {c : ProfChg}  (h : Keeps s0 s) : Keeps s0 (State.setProf s c) := by
  unfold State.setProf
  repeat' first
    | with_reducible first
      | assumption | apply State.setFld_keeps | fail_if_no_progress apply Keeps.mk_
    | (extract_lets +onlyGivenNames x; apply Keeps.cut (t := x) <;> [subst x; (intro _; clear_value x)])
    | (extract_lets +onlyGivenNames x; subst x)
    | dsimp -zeta only
    | dsimp only

theorem State.profStep_keeps {s0 : State} {s : State} {c : ProfChg} {after : Nat}  (h : Keeps s0 s) : Keeps s0 (State.profStep s c after) := by
  unfold State.profStep
  repeat' first
    | with_reducible first
      | assumption | apply State.emit_keeps | apply State.setProf_keeps | refine Keeps.ite (fun _ => ?_) (fun _ => ?_)
    | (extract_lets +onlyGivenNames x; apply Keeps.cut (t := x) <;> [subst x; (intro _; clear_value x)])
    | (extract_lets +onlyGivenNames x; subst x)
    | dsimp -zeta only
    | split
    | dsimp only

theorem State.profStart_keeps {s0 : State} {s : State} {b2 : Nat}  (h : Keeps s0 s) : Keeps s0 (State.profStart s b2) := by
  unfold State.profStart
  repeat' first
    | with_reducible first
      | assumption | apply State.setFld_keeps | apply State.setBit_keeps | apply State.reclaimCell_keeps
      | apply State.linkDown_keeps | apply State.profStep_keeps | apply State.setProf_keeps | apply foldl_keeps
      | apply foldl_keeps_fst | intro _ | refine Keeps.ite (fun _ => ?_) (fun _ => ?_)
    | (extract_lets +onlyGivenNames x; apply Keeps.cut (t := x) <;> [subst x; (intro _; clear_value x)])
    | (extract_lets +onlyGivenNames x; subst x)
    | dsimp -zeta only
    | split
    | dsimp only

theorem State.profReq_keeps {s0 : State} {s : State} {b2 : Nat}  (h : Keeps s0 s) : Keeps s0 (State.profReq s b2) := by
  unfold State.profReq
  repeat' first
    | with_reducible first
      | assumption | apply State.setFld_keeps | apply State.orWord_keeps | apply State.profRefuse_keeps
      | apply State.profStart_keeps | refine Keeps.ite (fun _ => ?_) (fun _ => ?_)
    | (extract_lets +onlyGivenNames x; apply Keeps.cut (t := x) <;> [subst x; (intro _; clear_value x)])
    | (extract_lets +onlyGivenNames x; subst x)
    | dsimp -zeta only
    | split
    | dsimp only

theorem execProfileReq_keeps {s0 : State} {m : Master} {profile : Fin 8} {s : State}  (h : Keeps s0 s) : OutKeeps s0 (execProfileReq m profile s) := by
  unfold execProfileReq
  repeat' first
    | with_reducible first
      | assumption | apply State.refuse_keeps | apply State.respOk_keeps | apply State.profReq_keeps | apply OutKeeps.next
      | refine OutKeeps.ite (fun _ => ?_) (fun _ => ?_) | refine Keeps.ite (fun _ => ?_) (fun _ => ?_)
    | dsimp -zeta only
    | split
    | dsimp only

theorem State.gatePanel_keeps {s0 : State} {s : State} {p : Nat}  (h : Keeps s0 s) : Keeps s0 (State.gatePanel s p) := by
  unfold State.gatePanel
  repeat' first
    | with_reducible first
      | assumption | apply State.setBit_keeps | apply State.enter_keeps | apply State.admReturn_keeps | apply foldl_keeps
      | apply foldl_keeps_fst | intro _ | refine Keeps.ite (fun _ => ?_) (fun _ => ?_)
    | (extract_lets +onlyGivenNames x; apply Keeps.cut (t := x) <;> [subst x; (intro _; clear_value x)])
    | (extract_lets +onlyGivenNames x; subst x)
    | dsimp -zeta only
    | split
    | dsimp only

theorem State.drainProf_keeps {s0 : State} {s : State} {wfi : Bool}  (h : Keeps s0 s) : Keeps s0 (State.drainProf s wfi) := by
  unfold State.drainProf
  repeat' first
    | with_reducible first
      | assumption | apply State.gatePanel_keeps | apply State.clusterChange_keeps | apply State.dpyOff_keeps
      | apply State.profStep_keeps | apply foldl_keeps | apply foldl_keeps_fst | intro _
      | refine Keeps.of_fst (by assumption) ?_ | refine Keeps.ite (fun _ => ?_) (fun _ => ?_)
    | (extract_lets +onlyGivenNames x; apply Keeps.cut (t := x) <;> [subst x; (intro _; clear_value x)])
    | (extract_lets +onlyGivenNames x; subst x)
    | dsimp -zeta only
    | split
    | dsimp only

theorem execProfileDrainDone_keeps {s0 : State} {wfi : Bool} {s : State}  (h : Keeps s0 s) : OutKeeps s0 (execProfileDrainDone wfi s) := by
  unfold execProfileDrainDone
  repeat' first
    | with_reducible first
      | assumption | apply State.drainProf_keeps | apply OutKeeps.next
    | dsimp -zeta only
    | dsimp only

theorem State.profCancel_keeps {s0 : State} {s : State} {code : Nat}  (h : Keeps s0 s) : Keeps s0 (State.profCancel s code) := by
  unfold State.profCancel
  repeat' first
    | with_reducible first
      | assumption | apply State.setFld_keeps | apply State.setBit_keeps | apply State.profRefuse_keeps
      | fail_if_no_progress apply Keeps.mk_
    | (extract_lets +onlyGivenNames x; apply Keeps.cut (t := x) <;> [subst x; (intro _; clear_value x)])
    | (extract_lets +onlyGivenNames x; subst x)
    | dsimp -zeta only
    | dsimp only

theorem State.forceDrain_keeps {s0 : State} {s : State} {c : ProfChg}  (h : Keeps s0 s) : Keeps s0 (State.forceDrain s c) := by
  unfold State.forceDrain
  repeat' first
    | with_reducible first
      | assumption | apply State.stopJob_keeps | apply State.enforceStops_keeps | apply State.clusterChange_keeps
      | apply foldl_keeps | apply foldl_keeps_fst | intro _ | refine Keeps.of_fst (by assumption) ?_
      | refine Keeps.ite (fun _ => ?_) (fun _ => ?_)
    | (extract_lets +onlyGivenNames x; apply Keeps.cut (t := x) <;> [subst x; (intro _; clear_value x)])
    | (extract_lets +onlyGivenNames x; subst x)
    | dsimp -zeta only
    | split
    | dsimp only

theorem execProfileWaitTimeout_keeps {s0 : State} {s : State}  (h : Keeps s0 s) : OutKeeps s0 (execProfileWaitTimeout s) := by
  unfold execProfileWaitTimeout
  repeat' first
    | with_reducible first
      | assumption | apply State.timeTo_keeps | apply State.forceDrain_keeps | apply State.profCancel_keeps
      | apply OutKeeps.next | refine Keeps.of_fst (by assumption) ?_ | refine OutKeeps.ite (fun _ => ?_) (fun _ => ?_)
      | refine Keeps.ite (fun _ => ?_) (fun _ => ?_)
    | (extract_lets +onlyGivenNames x; apply Keeps.cut (t := x) <;> [subst x; (intro _; clear_value x)])
    | (extract_lets +onlyGivenNames x; subst x)
    | dsimp -zeta only
    | split
    | dsimp only

theorem execVoltageRampDone_keeps {s0 : State} {s : State}  (h : Keeps s0 s) : OutKeeps s0 (execVoltageRampDone s) := by
  unfold execVoltageRampDone
  repeat' first
    | with_reducible first
      | assumption | apply State.profStep_keeps | apply State.admReturn_keeps | apply OutKeeps.next | apply foldl_keeps
      | apply foldl_keeps_fst | intro _ | refine Keeps.of_fst (by assumption) ?_
      | refine OutKeeps.ite (fun _ => ?_) (fun _ => ?_) | refine Keeps.ite (fun _ => ?_) (fun _ => ?_)
    | (extract_lets +onlyGivenNames x; apply Keeps.cut (t := x) <;> [subst x; (intro _; clear_value x)])
    | (extract_lets +onlyGivenNames x; subst x)
    | dsimp -zeta only
    | split
    | dsimp only

theorem execClockSlewDone_keeps {s0 : State} {s : State}  (h : Keeps s0 s) : OutKeeps s0 (execClockSlewDone s) := by
  unfold execClockSlewDone
  repeat' first
    | with_reducible first
      | assumption | apply State.setPanelMHz_keeps | apply State.profStep_keeps | apply OutKeeps.next | apply foldl_keeps
      | apply foldl_keeps_fst | intro _ | refine Keeps.of_fst (by assumption) ?_
      | refine OutKeeps.ite (fun _ => ?_) (fun _ => ?_) | refine Keeps.ite (fun _ => ?_) (fun _ => ?_)
    | (extract_lets +onlyGivenNames x; apply Keeps.cut (t := x) <;> [subst x; (intro _; clear_value x)])
    | (extract_lets +onlyGivenNames x; subst x)
    | dsimp -zeta only
    | split
    | dsimp only

theorem execHbmRetrainDone_keeps {s0 : State} {stack : Fin 4} {s : State}  (h : Keeps s0 s) : OutKeeps s0 (execHbmRetrainDone stack s) := by
  unfold execHbmRetrainDone
  repeat' first
    | with_reducible first
      | assumption | apply State.setFld_keeps | apply State.profStep_keeps | apply State.setProf_keeps | apply OutKeeps.next
      | refine Keeps.of_fst (by assumption) ?_ | refine OutKeeps.ite (fun _ => ?_) (fun _ => ?_)
      | refine Keeps.ite (fun _ => ?_) (fun _ => ?_)
    | (extract_lets +onlyGivenNames x; apply Keeps.cut (t := x) <;> [subst x; (intro _; clear_value x)])
    | (extract_lets +onlyGivenNames x; subst x)
    | dsimp -zeta only
    | split
    | dsimp only

theorem State.wakePanel_keeps {s0 : State} {s : State} {p : Nat} {prof : Nat} {fail : Nat}  (h : Keeps s0 s) : Keeps s0 (State.wakePanel s p prof fail) := by
  unfold State.wakePanel
  repeat' first
    | with_reducible first
      | assumption | apply State.setBit_keeps | apply State.setFld_keeps | apply State.enter_keeps
      | apply State.failCell_keeps | apply foldl_keeps | apply foldl_keeps_fst | intro _
      | refine Keeps.ite (fun _ => ?_) (fun _ => ?_)
    | (extract_lets +onlyGivenNames x; apply Keeps.cut (t := x) <;> [subst x; (intro _; clear_value x)])
    | (extract_lets +onlyGivenNames x; subst x)
    | dsimp -zeta only
    | split
    | dsimp only

theorem execPanelWakeDone_keeps {s0 : State} {panel : Fin 16} {fail : BitVec 16} {s : State}  (h : Keeps s0 s) : OutKeeps s0 (execPanelWakeDone panel fail s) := by
  unfold execPanelWakeDone
  repeat' first
    | with_reducible first
      | assumption | apply State.wakePanel_keeps | apply State.profStep_keeps | apply State.setProf_keeps
      | apply OutKeeps.next | refine Keeps.of_fst (by assumption) ?_ | refine OutKeeps.ite (fun _ => ?_) (fun _ => ?_)
      | refine Keeps.ite (fun _ => ?_) (fun _ => ?_)
    | (extract_lets +onlyGivenNames x; apply Keeps.cut (t := x) <;> [subst x; (intro _; clear_value x)])
    | (extract_lets +onlyGivenNames x; subst x)
    | dsimp -zeta only
    | split
    | dsimp only

theorem execProfileDone_keeps {s0 : State} {s : State}  (h : Keeps s0 s) : OutKeeps s0 (execProfileDone s) := by
  unfold execProfileDone
  repeat' first
    | with_reducible first
      | assumption | apply State.setFld_keeps | apply State.setBit_keeps | apply State.orWord_keeps | apply OutKeeps.next
      | fail_if_no_progress apply Keeps.mk_ | refine Keeps.of_fst (by assumption) ?_
    | (extract_lets +onlyGivenNames x; apply Keeps.cut (t := x) <;> [subst x; (intro _; clear_value x)])
    | (extract_lets +onlyGivenNames x; subst x)
    | dsimp -zeta only
    | split
    | dsimp only

theorem execPllLockLoss_keeps {s0 : State} {dom : Fin 48} {s : State}  (h : Keeps s0 s) : OutKeeps s0 (execPllLockLoss dom s) := by
  unfold execPllLockLoss
  repeat' first
    | with_reducible first
      | assumption | apply State.bump_keeps | apply State.setBit_keeps | apply State.fault_keeps | apply State.orWord_keeps
      | apply OutKeeps.next | refine OutKeeps.ite (fun _ => ?_) (fun _ => ?_) | refine Keeps.ite (fun _ => ?_) (fun _ => ?_)
    | (extract_lets +onlyGivenNames x; apply Keeps.cut (t := x) <;> [subst x; (intro _; clear_value x)])
    | (extract_lets +onlyGivenNames x; subst x)
    | dsimp -zeta only
    | split
    | dsimp only

theorem execPllRelock_keeps {s0 : State} {dom : Fin 48} {s : State}  (h : Keeps s0 s) : OutKeeps s0 (execPllRelock dom s) := by
  unfold execPllRelock
  repeat' first
    | with_reducible first
      | assumption | apply State.setBit_keeps | apply State.failCell_keeps | apply OutKeeps.next | apply foldl_keeps
      | apply foldl_keeps_fst | intro _ | refine OutKeeps.ite (fun _ => ?_) (fun _ => ?_)
      | refine Keeps.ite (fun _ => ?_) (fun _ => ?_)
    | (extract_lets +onlyGivenNames x; apply Keeps.cut (t := x) <;> [subst x; (intro _; clear_value x)])
    | (extract_lets +onlyGivenNames x; subst x)
    | dsimp -zeta only
    | split
    | dsimp only

theorem State.setGov_keeps {s0 : State} {s : State} {d : Nat} {b3 : GovClk}  (h : Keeps s0 s) : Keeps s0 (State.setGov s d b3) := by
  unfold State.setGov
  repeat' first
    | with_reducible first
      | assumption | fail_if_no_progress apply Keeps.mk_
    | (extract_lets +onlyGivenNames x; apply Keeps.cut (t := x) <;> [subst x; (intro _; clear_value x)])
    | (extract_lets +onlyGivenNames x; subst x)
    | dsimp -zeta only
    | dsimp only

theorem State.thermCrit_keeps {s0 : State} {s : State} {info : Nat}  (h : Keeps s0 s) : Keeps s0 (State.thermCrit s info) := by
  unfold State.thermCrit
  repeat' first
    | with_reducible first
      | assumption | apply State.fault_keeps | apply State.orWord_keeps | fail_if_no_progress apply Keeps.mk_
      | refine Keeps.ite (fun _ => ?_) (fun _ => ?_)
    | (extract_lets +onlyGivenNames x; apply Keeps.cut (t := x) <;> [subst x; (intro _; clear_value x)])
    | (extract_lets +onlyGivenNames x; subst x)
    | dsimp -zeta only
    | split
    | dsimp only

theorem State.thermal_keeps {s0 : State} {s : State} {l : List (BitVec 17)}  (h : Keeps s0 s) : Keeps s0 (State.thermal s l) := by
  unfold State.thermal
  repeat' first
    | with_reducible first
      | assumption | apply State.setWord_keeps | apply State.setBit_keeps | apply State.fault_keeps | apply State.orWord_keeps
      | apply State.setGov_keeps | apply State.thermCrit_keeps | apply State.emit_keeps | apply foldl_keeps
      | apply foldl_keeps_fst | intro _ | fail_if_no_progress apply Keeps.mk_ | refine Keeps.of_fst (by assumption) ?_
      | refine Keeps.ite (fun _ => ?_) (fun _ => ?_)
    | (extract_lets +onlyGivenNames x; apply Keeps.cut (t := x) <;> [subst x; (intro _; clear_value x)])
    | (extract_lets +onlyGivenNames x; subst x)
    | dsimp -zeta only
    | split
    | dsimp only

theorem execThermalSample_keeps {s0 : State} {readings : List (BitVec 17)} {s : State}  (h : Keeps s0 s) : OutKeeps s0 (execThermalSample readings s) := by
  unfold execThermalSample
  repeat' first
    | with_reducible first
      | assumption | apply State.thermal_keeps | apply OutKeeps.next
    | dsimp -zeta only
    | dsimp only

theorem State.setGovMHz_keeps {s0 : State} {s : State} {d : Nat} {f : Nat}  (h : Keeps s0 s) : Keeps s0 (State.setGovMHz s d f) := by
  unfold State.setGovMHz
  repeat' first
    | with_reducible first
      | assumption | apply State.setPanelMHz_keeps | apply State.setFld_keeps | refine Keeps.ite (fun _ => ?_) (fun _ => ?_)
    | dsimp -zeta only
    | split
    | dsimp only

theorem execClockThrottleStep_keeps {s0 : State} {clk : Fin 22} {s : State}  (h : Keeps s0 s) : OutKeeps s0 (execClockThrottleStep clk s) := by
  unfold execClockThrottleStep
  repeat' first
    | with_reducible first
      | assumption | apply State.fault_keeps | apply State.orWord_keeps | apply State.showGov_keeps
      | apply State.setGovMHz_keeps | apply State.setGov_keeps | apply OutKeeps.next
      | refine OutKeeps.ite (fun _ => ?_) (fun _ => ?_) | refine Keeps.ite (fun _ => ?_) (fun _ => ?_)
    | (extract_lets +onlyGivenNames x; apply Keeps.cut (t := x) <;> [subst x; (intro _; clear_value x)])
    | (extract_lets +onlyGivenNames x; subst x)
    | dsimp -zeta only
    | split
    | dsimp only

theorem execClockRaiseStep_keeps {s0 : State} {clk : Fin 22} {s : State}  (h : Keeps s0 s) : OutKeeps s0 (execClockRaiseStep clk s) := by
  unfold execClockRaiseStep
  repeat' first
    | with_reducible first
      | assumption | apply State.timeTo_keeps | apply State.showGov_keeps | apply State.setGovMHz_keeps
      | apply State.setGov_keeps | apply OutKeeps.next | refine Keeps.of_fst (by assumption) ?_
      | refine OutKeeps.ite (fun _ => ?_) (fun _ => ?_) | refine Keeps.ite (fun _ => ?_) (fun _ => ?_)
    | (extract_lets +onlyGivenNames x; apply Keeps.cut (t := x) <;> [subst x; (intro _; clear_value x)])
    | (extract_lets +onlyGivenNames x; subst x)
    | dsimp -zeta only
    | split
    | dsimp only

end Sys2Proof.Machine
end

