-- ==== Sys2Proof/Laws/KeepsCfgCheck.lean ====
section
/-! SUPPORT. What Machine/CfgCheck.lean keeps. -/

namespace Sys2Proof.Machine

set_option linter.unusedTactic false
set_option linter.unreachableTactic false

theorem State.cfgWord_keeps {s0 : State} {s : State} {ofs : Nat} {v : Nat}  (h : Keeps s0 s) : Keeps s0 (State.cfgWord s ofs v) := by
  unfold State.cfgWord
  repeat' first
    | with_reducible first
      | assumption | apply State.setWord_keeps
    | (extract_lets +onlyGivenNames x; apply Keeps.cut (t := x) <;> [subst x; (intro _; clear_value x)])
    | (extract_lets +onlyGivenNames x; subst x)
    | dsimp -zeta only
    | dsimp only

theorem State.cfgView_keeps {s0 : State} {s : State} {r : List Byte}  (h : Keeps s0 s) : Keeps s0 (State.cfgView s r) := by
  unfold State.cfgView
  repeat' first
    | with_reducible first
      | assumption | apply State.cfgWord_keeps | apply foldl_keeps | apply foldl_keeps_fst | intro _
    | dsimp -zeta only
    | dsimp only

end Sys2Proof.Machine
end

