-- ==== Sys2Proof/Laws/KeepsAudit.lean ====
section
/-! SUPPORT. What Machine/Audit.lean keeps. -/

namespace Sys2Proof.Machine

set_option linter.unusedTactic false
set_option linter.unreachableTactic false

theorem execFabricRequestIssue_keeps {s0 : State} {port : Fin 32} {label : Fin 256} {m : Master} {inst : Option (Fin 64)} {addr : BitVec 64} {bytes : BitVec 13} {write : Bool} {deadline : Option (BitVec 16)} {s : State}  (h : Keeps s0 s) : OutKeeps s0 (execFabricRequestIssue port label m inst addr bytes write deadline s) := by
  unfold execFabricRequestIssue
  repeat' first
    | with_reducible first
      | assumption | apply State.xlat_keeps | apply State.fabIssue_keeps | apply OutKeeps.next
      | refine Keeps.of_fst (by assumption) ?_ | refine OutKeeps.ite (fun _ => ?_) (fun _ => ?_)
      | refine Keeps.ite (fun _ => ?_) (fun _ => ?_)
    | dsimp -zeta only
    | split
    | dsimp only

theorem State.ledgersLoad_keeps {s0 : State} {s : State}  (h : Keeps s0 s) : Keeps s0 (State.ledgersLoad s) := by
  unfold State.ledgersLoad
  repeat' first
    | with_reducible first
      | assumption | apply State.setBit_keeps | apply State.setWord_keeps | apply State.setFld_keeps | apply foldl_keeps
      | apply foldl_keeps_fst | intro _ | refine Keeps.ite (fun _ => ?_) (fun _ => ?_)
    | dsimp -zeta only
    | split
    | dsimp only

theorem State.ledgerInvalid_keeps {s0 : State} {s : State} {g : Nat}  (h : Keeps s0 s) : Keeps s0 (State.ledgerInvalid s g) := by
  unfold State.ledgerInvalid
  repeat' first
    | with_reducible first
      | assumption | apply State.fault_keeps | apply State.orWord_keeps | apply State.setBit_keeps
      | fail_if_no_progress apply Keeps.mk_
    | (extract_lets +onlyGivenNames x; apply Keeps.cut (t := x) <;> [subst x; (intro _; clear_value x)])
    | (extract_lets +onlyGivenNames x; subst x)
    | dsimp -zeta only
    | dsimp only

theorem State.ledgerRecord_keeps {s0 : State} {s : State} {g : Nat} {audit : Nat} {const : Nat} {held : Nat} {issued : Nat} {flight : Nat}  (h : Keeps s0 s) : Keeps s0 (State.ledgerRecord s g audit const held issued flight) := by
  unfold State.ledgerRecord
  repeat' first
    | with_reducible first
      | assumption | apply State.setWord_keeps | apply State.setRegBytes_keeps | fail_if_no_progress apply Keeps.mk_
    | (extract_lets +onlyGivenNames x; apply Keeps.cut (t := x) <;> [subst x; (intro _; clear_value x)])
    | (extract_lets +onlyGivenNames x; subst x)
    | dsimp -zeta only
    | dsimp only

theorem State.ledgerMismatch_keeps {s0 : State} {s : State} {g : Nat}  (h : Keeps s0 s) : Keeps s0 (State.ledgerMismatch s g) := by
  unfold State.ledgerMismatch
  repeat' first
    | with_reducible first
      | assumption | apply State.orWord_keeps | apply State.fault_keeps | fail_if_no_progress apply Keeps.mk_
      | refine Keeps.ite (fun _ => ?_) (fun _ => ?_)
    | (extract_lets +onlyGivenNames x; apply Keeps.cut (t := x) <;> [subst x; (intro _; clear_value x)])
    | (extract_lets +onlyGivenNames x; subst x)
    | dsimp -zeta only
    | split
    | dsimp only

theorem State.auditLedger_keeps {s0 : State} {s : State} {no : Nat} {g : Nat}  (h : Keeps s0 s) : Keeps s0 (State.auditLedger s no g) := by
  unfold State.auditLedger
  repeat' first
    | with_reducible first
      | assumption | apply State.ledgerInvalid_keeps | apply State.setWord_keeps | apply State.setBit_keeps
      | apply State.ledgerMismatch_keeps | apply State.ledgerRecord_keeps | refine Keeps.of_fst (by assumption) ?_
      | refine Keeps.ite (fun _ => ?_) (fun _ => ?_)
    | (extract_lets +onlyGivenNames x; apply Keeps.cut (t := x) <;> [subst x; (intro _; clear_value x)])
    | (extract_lets +onlyGivenNames x; subst x)
    | dsimp -zeta only
    | split
    | dsimp only

theorem execAuditStart_keeps {s0 : State} {s : State}  (h : Keeps s0 s) : OutKeeps s0 (execAuditStart s) := by
  unfold execAuditStart
  repeat' first
    | with_reducible first
      | assumption | apply State.timeTo_keeps | apply State.bump_keeps | apply State.setBit_keeps | apply OutKeeps.next
      | fail_if_no_progress apply Keeps.mk_ | refine Keeps.of_fst (by assumption) ?_
      | refine OutKeeps.ite (fun _ => ?_) (fun _ => ?_) | refine Keeps.ite (fun _ => ?_) (fun _ => ?_)
    | (extract_lets +onlyGivenNames x; apply Keeps.cut (t := x) <;> [subst x; (intro _; clear_value x)])
    | (extract_lets +onlyGivenNames x; subst x)
    | dsimp -zeta only
    | split
    | dsimp only

theorem execAuditComplete_keeps {s0 : State} {s : State}  (h : Keeps s0 s) : OutKeeps s0 (execAuditComplete s) := by
  unfold execAuditComplete
  repeat' first
    | with_reducible first
      | assumption | apply State.bump_keeps | apply State.auditLedger_keeps | apply State.setFld_keeps
      | apply State.setBit_keeps | apply OutKeeps.next | apply foldl_keeps | apply foldl_keeps_fst | intro _
      | fail_if_no_progress apply Keeps.mk_ | refine OutKeeps.ite (fun _ => ?_) (fun _ => ?_)
      | refine Keeps.ite (fun _ => ?_) (fun _ => ?_)
    | (extract_lets +onlyGivenNames x; apply Keeps.cut (t := x) <;> [subst x; (intro _; clear_value x)])
    | (extract_lets +onlyGivenNames x; subst x)
    | dsimp -zeta only
    | split
    | dsimp only

theorem execAuditLate_keeps {s0 : State} {s : State}  (h : Keeps s0 s) : OutKeeps s0 (execAuditLate s) := by
  unfold execAuditLate
  repeat' first
    | with_reducible first
      | assumption | apply State.timeTo_keeps | apply State.fault_keeps | apply State.bump_keeps | apply State.orWord_keeps
      | apply OutKeeps.next | fail_if_no_progress apply Keeps.mk_ | refine Keeps.of_fst (by assumption) ?_
      | refine OutKeeps.ite (fun _ => ?_) (fun _ => ?_) | refine Keeps.ite (fun _ => ?_) (fun _ => ?_)
    | (extract_lets +onlyGivenNames x; apply Keeps.cut (t := x) <;> [subst x; (intro _; clear_value x)])
    | (extract_lets +onlyGivenNames x; subst x)
    | dsimp -zeta only
    | split
    | dsimp only

end Sys2Proof.Machine
end

