-- ==== Sys2Proof/Laws/KeepsClcSwitch.lean ====
section
/-! SUPPORT. What Machine/ClcSwitch.lean keeps. -/

namespace Sys2Proof.Machine

set_option linter.unusedTactic false
set_option linter.unreachableTactic false

theorem State.modelFail_keeps {s0 : State} {s : State} {m : Nat} {unbindToo : Bool}  (h : Keeps s0 s) : Keeps s0 (State.modelFail s m unbindToo) := by
  unfold State.modelFail
  repeat' first
    | with_reducible first
      | assumption | apply State.fault_keeps | apply State.orWord_keeps | apply State.setModelState_keeps
      | apply State.clickFault_keeps | apply foldl_keeps | apply foldl_keeps_fst | intro _
      | refine Keeps.ite (fun _ => ?_) (fun _ => ?_)
    | (extract_lets +onlyGivenNames x; apply Keeps.cut (t := x) <;> [subst x; (intro _; clear_value x)])
    | (extract_lets +onlyGivenNames x; subst x)
    | dsimp -zeta only
    | split
    | dsimp only

theorem State.repairPage_keeps {s0 : State} {s : State} {m : Nat} {a : Nat} {golden : Bool}  (h : Keeps s0 s) : Keeps s0 (State.repairPage s m a golden).1 := by
  unfold State.repairPage
  repeat' first
    | with_reducible first
      | assumption | apply State.modelFail_keeps | apply State.memPut_keeps | apply State.orWord_keeps
      | apply State.bump_keeps | refine Keeps.ite1 (fun _ => ?_) (fun _ => ?_) | refine Keeps.ite (fun _ => ?_) (fun _ => ?_)
    | (extract_lets +onlyGivenNames x; apply Keeps.cut (t := x) <;> [subst x; (intro _; clear_value x)])
    | (extract_lets +onlyGivenNames x; subst x)
    | dsimp -zeta only
    | split
    | dsimp only

theorem execModelRepair_keeps {s0 : State} {addr : BitVec 64} {s : State}  (h : Keeps s0 s) : OutKeeps s0 (execModelRepair addr s) := by
  unfold execModelRepair
  repeat' first
    | with_reducible first
      | assumption | apply State.repairPage_keeps | apply OutKeeps.next | refine Keeps.of_fst (by assumption) ?_
      | refine OutKeeps.ite (fun _ => ?_) (fun _ => ?_) | refine Keeps.ite (fun _ => ?_) (fun _ => ?_)
    | (extract_lets +onlyGivenNames x; apply Keeps.cut (t := x) <;> [subst x; (intro _; clear_value x)])
    | (extract_lets +onlyGivenNames x; subst x)
    | dsimp -zeta only
    | split
    | dsimp only

theorem State.openWindows_keeps {s0 : State} {s : State} {m : Nat}  (h : Keeps s0 s) : Keeps s0 (State.openWindows s m) := by
  unfold State.openWindows
  repeat' first
    | with_reducible first
      | assumption | apply State.setWord_keeps | apply State.setWord64_keeps | apply State.setRegBytes_keeps
      | apply foldl_keeps | apply foldl_keeps_fst | intro _ | refine Keeps.of_fst (by assumption) ?_
    | (extract_lets +onlyGivenNames x; apply Keeps.cut (t := x) <;> [subst x; (intro _; clear_value x)])
    | (extract_lets +onlyGivenNames x; subst x)
    | dsimp -zeta only
    | split
    | dsimp only

theorem State.closeWindows_keeps {s0 : State} {s : State} {a : Nat} {n : Nat}  (h : Keeps s0 s) : Keeps s0 (State.closeWindows s a n) := by
  unfold State.closeWindows
  repeat' first
    | with_reducible first
      | assumption | apply State.setBit_keeps | apply foldl_keeps | apply foldl_keeps_fst | intro _
      | refine Keeps.ite (fun _ => ?_) (fun _ => ?_)
    | dsimp -zeta only
    | split
    | dsimp only

theorem State.evictModel_keeps {s0 : State} {s : State} {m : Nat}  (h : Keeps s0 s) : Keeps s0 (State.evictModel s m) := by
  unfold State.evictModel
  repeat' first
    | with_reducible first
      | assumption | apply State.closeWindows_keeps | apply State.setModelState_keeps | apply State.slcRealloc_keeps
      | apply State.orWord_keeps | fail_if_no_progress apply Keeps.mk_
    | (extract_lets +onlyGivenNames x; apply Keeps.cut (t := x) <;> [subst x; (intro _; clear_value x)])
    | (extract_lets +onlyGivenNames x; subst x)
    | dsimp -zeta only
    | dsimp only

theorem State.relocate_keeps {s0 : State} {s : State} {m : Nat} {dst : Nat}  (h : Keeps s0 s) : Keeps s0 (State.relocate s m dst) := by
  unfold State.relocate
  repeat' first
    | with_reducible first
      | assumption | apply State.memPut_keeps | apply foldl_keeps | apply foldl_keeps_fst | intro _
    | (extract_lets +onlyGivenNames x; apply Keeps.cut (t := x) <;> [subst x; (intro _; clear_value x)])
    | (extract_lets +onlyGivenNames x; subst x)
    | dsimp -zeta only
    | dsimp only

theorem State.installDone_keeps {s0 : State} {s : State} {m : Nat} {work : Nat} {kern : Nat}  (h : Keeps s0 s) : Keeps s0 (State.installDone s m work kern) := by
  unfold State.installDone
  repeat' first
    | with_reducible first
      | assumption | apply State.orWord_keeps | apply State.setModelState_keeps | apply State.setWord64_keeps
      | apply State.memPut_keeps | apply State.setWord_keeps | apply State.relocate_keeps | apply State.openWindows_keeps
      | apply State.slcRealloc_keeps | apply State.useModel_keeps | fail_if_no_progress apply Keeps.mk_
      | refine Keeps.ite (fun _ => ?_) (fun _ => ?_)
    | (extract_lets +onlyGivenNames x; apply Keeps.cut (t := x) <;> [subst x; (intro _; clear_value x)])
    | (extract_lets +onlyGivenNames x; subst x)
    | dsimp -zeta only
    | split
    | dsimp only

theorem State.emptyClick_keeps {s0 : State} {s : State} {k : Nat}  (h : Keeps s0 s) : Keeps s0 (State.emptyClick s k) := by
  unfold State.emptyClick
  repeat' first
    | with_reducible first
      | assumption | apply State.enforceStops_keeps | apply State.stopClick_keeps | apply State.cancelPending_keeps
      | apply State.setFld_keeps | apply State.finishJobs_keeps | apply State.setClickState_keeps | apply State.setBit_keeps
      | fail_if_no_progress apply Keeps.mk_ | refine Keeps.ite (fun _ => ?_) (fun _ => ?_)
    | (extract_lets +onlyGivenNames x; apply Keeps.cut (t := x) <;> [subst x; (intro _; clear_value x)])
    | (extract_lets +onlyGivenNames x; subst x)
    | dsimp -zeta only
    | split
    | dsimp only

theorem State.clickCfg_keeps {s0 : State} {s : State} {k : Nat} {v : Nat}  (h : Keeps s0 s) : Keeps s0 (State.clickCfg s k v) := by
  unfold State.clickCfg
  repeat' first
    | with_reducible first
      | assumption | apply State.setWord_keeps | apply State.emptyClick_keeps | apply State.setClickState_keeps
      | apply State.setFld_keeps | apply State.showFree_keeps | apply State.handOut_keeps | apply State.shrink_keeps
      | apply foldl_keeps | apply foldl_keeps_fst | intro _ | refine Keeps.ite (fun _ => ?_) (fun _ => ?_)
    | (extract_lets +onlyGivenNames x; apply Keeps.cut (t := x) <;> [subst x; (intro _; clear_value x)])
    | (extract_lets +onlyGivenNames x; subst x)
    | dsimp -zeta only
    | split
    | dsimp only

theorem execClickCfgWrite_keeps {s0 : State} {m : Master} {click : Fin 64} {v : BitVec 32} {s : State}  (h : Keeps s0 s) : OutKeeps s0 (execClickCfgWrite m click v s) := by
  unfold execClickCfgWrite
  repeat' first
    | with_reducible first
      | assumption | apply State.respOk_keeps | apply State.clickCfg_keeps | apply State.refuse_keeps | apply OutKeeps.next
      | refine OutKeeps.ite (fun _ => ?_) (fun _ => ?_) | refine Keeps.ite (fun _ => ?_) (fun _ => ?_)
    | dsimp -zeta only
    | split
    | dsimp only

theorem State.switchStart_keeps {s0 : State} {s : State} {k : Nat} {b3 : ClcSwitch}  (h : Keeps s0 s) : Keeps s0 (State.switchStart s k b3) := by
  unfold State.switchStart
  repeat' first
    | with_reducible first
      | assumption | apply State.cancelPending_keeps | apply State.setClickState_keeps | apply State.finishJobs_keeps
      | apply State.enforceStops_keeps | apply State.stopClick_keeps | apply foldl_keeps | apply foldl_keeps_fst | intro _
      | fail_if_no_progress apply Keeps.mk_ | refine Keeps.ite (fun _ => ?_) (fun _ => ?_)
    | (extract_lets +onlyGivenNames x; apply Keeps.cut (t := x) <;> [subst x; (intro _; clear_value x)])
    | (extract_lets +onlyGivenNames x; subst x)
    | dsimp -zeta only
    | split
    | dsimp only

theorem State.unbindClick_keeps {s0 : State} {s : State} {k : Nat}  (h : Keeps s0 s) : Keeps s0 (State.unbindClick s k) := by
  unfold State.unbindClick
  repeat' first
    | with_reducible first
      | assumption | apply State.setBit_keeps | apply State.setFld_keeps | refine Keeps.ite (fun _ => ?_) (fun _ => ?_)
    | (extract_lets +onlyGivenNames x; apply Keeps.cut (t := x) <;> [subst x; (intro _; clear_value x)])
    | (extract_lets +onlyGivenNames x; subst x)
    | dsimp -zeta only
    | split
    | dsimp only

theorem State.switchEnd_keeps {s0 : State} {s : State} {k : Nat} {st : Nat} {last : Nat}  (h : Keeps s0 s) : Keeps s0 (State.switchEnd s k st last) := by
  unfold State.switchEnd
  repeat' first
    | with_reducible first
      | assumption | apply State.orWord_keeps | apply State.setLastSw_keeps | apply State.setClickState_keeps
      | fail_if_no_progress apply Keeps.mk_
    | (extract_lets +onlyGivenNames x; apply Keeps.cut (t := x) <;> [subst x; (intro _; clear_value x)])
    | (extract_lets +onlyGivenNames x; subst x)
    | dsimp -zeta only
    | dsimp only

theorem State.drainDone_keeps {s0 : State} {s : State} {k : Nat}  (h : Keeps s0 s) : Keeps s0 (State.drainDone s k) := by
  unfold State.drainDone
  repeat' first
    | with_reducible first
      | assumption | apply State.unbindClick_keeps | apply State.leaveCell_keeps | apply State.slcRealloc_keeps
      | apply State.switchEnd_keeps | apply State.loadResident_keeps | apply foldl_keeps | apply foldl_keeps_fst | intro _
      | fail_if_no_progress apply Keeps.mk_ | refine Keeps.of_fst (by assumption) ?_
      | refine Keeps.ite (fun _ => ?_) (fun _ => ?_)
    | (extract_lets +onlyGivenNames x; apply Keeps.cut (t := x) <;> [subst x; (intro _; clear_value x)])
    | (extract_lets +onlyGivenNames x; subst x)
    | dsimp -zeta only
    | split
    | dsimp only

theorem State.switchReq_keeps {s0 : State} {s : State} {k : Nat} {m : Nat} {abort : Bool} {resOnly : Bool} {unbind : Bool} {label : Nat}  (h : Keeps s0 s) : Keeps s0 (State.switchReq s k m abort resOnly unbind label) := by
  unfold State.switchReq
  repeat' first
    | with_reducible first
      | assumption | apply State.switchStart_keeps | apply State.drainDone_keeps | apply State.orWord_keeps
      | apply State.setLastSw_keeps | refine Keeps.of_fst (by assumption) ?_ | refine Keeps.ite (fun _ => ?_) (fun _ => ?_)
    | (extract_lets +onlyGivenNames x; apply Keeps.cut (t := x) <;> [subst x; (intro _; clear_value x)])
    | (extract_lets +onlyGivenNames x; subst x)
    | dsimp -zeta only
    | split
    | dsimp only

theorem State.installBound_keeps {s0 : State} {s : State} {m : Nat} {work : Nat} {kern : Nat}  (h : Keeps s0 s) : Keeps s0 (State.installBound s m work kern) := by
  unfold State.installBound
  repeat' first
    | with_reducible first
      | assumption | apply State.installDone_keeps | apply State.fault_keeps | apply State.switchReq_keeps
      | apply State.setBit_keeps | fail_if_no_progress apply Keeps.mk_ | refine Keeps.of_fst (by assumption) ?_
      | refine Keeps.ite (fun _ => ?_) (fun _ => ?_)
    | (extract_lets +onlyGivenNames x; apply Keeps.cut (t := x) <;> [subst x; (intro _; clear_value x)])
    | (extract_lets +onlyGivenNames x; subst x)
    | dsimp -zeta only
    | split
    | dsimp only

theorem execModelInstallationDone_keeps {s0 : State} {model : Fin 32} {work : BitVec 52} {kern : BitVec 52} {s : State}  (h : Keeps s0 s) : OutKeeps s0 (execModelInstallationDone model work kern s) := by
  unfold execModelInstallationDone
  repeat' first
    | with_reducible first
      | assumption | apply State.installBound_keeps | apply OutKeeps.next
    | dsimp -zeta only
    | dsimp only

theorem execClickSwitch_keeps {s0 : State} {m : Master} {click : Fin 64} {v : BitVec 32} {s : State}  (h : Keeps s0 s) : OutKeeps s0 (execClickSwitch m click v s) := by
  unfold execClickSwitch
  repeat' first
    | with_reducible first
      | assumption | apply State.respOk_keeps | apply State.switchReq_keeps | apply State.refuse_keeps | apply OutKeeps.next
      | refine OutKeeps.ite (fun _ => ?_) (fun _ => ?_) | refine Keeps.ite (fun _ => ?_) (fun _ => ?_)
    | (extract_lets +onlyGivenNames x; apply Keeps.cut (t := x) <;> [subst x; (intro _; clear_value x)])
    | (extract_lets +onlyGivenNames x; subst x)
    | dsimp -zeta only
    | split
    | dsimp only

theorem execUnbind_keeps {s0 : State} {m : Master} {click : Fin 64} {abort : Bool} {s : State}  (h : Keeps s0 s) : OutKeeps s0 (execUnbind m click abort s) := by
  unfold execUnbind
  repeat' first
    | with_reducible first
      | assumption | apply State.respOk_keeps | apply State.switchReq_keeps | apply State.refuse_keeps | apply OutKeeps.next
      | refine OutKeeps.ite (fun _ => ?_) (fun _ => ?_) | refine Keeps.ite (fun _ => ?_) (fun _ => ?_)
    | dsimp -zeta only
    | split
    | dsimp only

theorem execSwitchDrainDone_keeps {s0 : State} {click : Fin 64} {s : State}  (h : Keeps s0 s) : OutKeeps s0 (execSwitchDrainDone click s) := by
  unfold execSwitchDrainDone
  repeat' first
    | with_reducible first
      | assumption | apply State.drainDone_keeps | apply OutKeeps.next
    | dsimp -zeta only
    | dsimp only

theorem State.warmPass_keeps {s0 : State} {s : State} {m : Nat}  (h : Keeps s0 s) : Keeps s0 (State.warmPass s m).1 := by
  unfold State.warmPass
  repeat' first
    | with_reducible first
      | assumption | apply State.repairPage_keeps | apply State.modelFail_keeps | apply foldl_keeps | apply foldl_keeps_fst
      | intro _ | refine Keeps.of_fst (by assumption) ?_ | refine Keeps.ite1 (fun _ => ?_) (fun _ => ?_)
      | refine Keeps.ite (fun _ => ?_) (fun _ => ?_)
    | (extract_lets +onlyGivenNames x; apply Keeps.cut (t := x) <;> [subst x; (intro _; clear_value x)])
    | (extract_lets +onlyGivenNames x; subst x)
    | dsimp -zeta only
    | split
    | dsimp only

theorem State.switchDone_keeps {s0 : State} {s : State} {k : Nat}  (h : Keeps s0 s) : Keeps s0 (State.switchDone s k) := by
  unfold State.switchDone
  repeat' first
    | with_reducible first
      | assumption | apply State.fault_keeps | apply State.orWord_keeps | apply State.switchEnd_keeps
      | apply State.warmPass_keeps | apply State.setFld_keeps | apply State.setBit_keeps | apply State.slcRealloc_keeps
      | apply State.useModel_keeps | apply foldl_keeps | apply foldl_keeps_fst | intro _
      | refine Keeps.of_fst (by assumption) ?_ | refine Keeps.ite (fun _ => ?_) (fun _ => ?_)
    | (extract_lets +onlyGivenNames x; apply Keeps.cut (t := x) <;> [subst x; (intro _; clear_value x)])
    | (extract_lets +onlyGivenNames x; subst x)
    | dsimp -zeta only
    | split
    | dsimp only

theorem execSwitchDone_keeps {s0 : State} {click : Fin 64} {s : State}  (h : Keeps s0 s) : OutKeeps s0 (execSwitchDone click s) := by
  unfold execSwitchDone
  repeat' first
    | with_reducible first
      | assumption | apply State.switchDone_keeps | apply OutKeeps.next
    | dsimp -zeta only
    | dsimp only

end Sys2Proof.Machine
end

