-- ==== Sys2Proof/Laws/KeepsMemOps.lean ====
section
/-! SUPPORT. What Machine/MemOps.lean keeps. -/

namespace Sys2Proof.Machine

set_option linter.unusedTactic false
set_option linter.unreachableTactic false

theorem State.slcRecord_keeps {s0 : State} {s : State} {type : Nat} {cls : Nat} {a : Nat} {m : Master} {syn : Nat} {known : Bool}  (h : Keeps s0 s) : Keeps s0 (State.slcRecord s type cls a m syn known) := by
  unfold State.slcRecord
  repeat' first
    | with_reducible first
      | assumption | apply State.memRecord_keeps | refine Keeps.ite (fun _ => ?_) (fun _ => ?_)
    | dsimp -zeta only
    | split
    | dsimp only

theorem State.slcCount_keeps {s0 : State} {s : State} {a : Nat} {k : Nat}  (h : Keeps s0 s) : Keeps s0 (State.slcCount s a k) := by
  unfold State.slcCount
  repeat' first
    | with_reducible first
      | assumption | apply State.bump_keeps
    | dsimp -zeta only
    | dsimp only

theorem State.slcCE_keeps {s0 : State} {s : State} {a : Nat} {m : Master} {syn : Nat}  (h : Keeps s0 s) : Keeps s0 (State.slcCE s a m syn) := by
  unfold State.slcCE
  repeat' first
    | with_reducible first
      | assumption | apply State.slcCount_keeps | apply State.bump_keeps | apply State.orWord_keeps
      | apply State.slcRecord_keeps | apply State.faultAt_keeps | fail_if_no_progress apply Keeps.mk_
      | refine Keeps.ite (fun _ => ?_) (fun _ => ?_)
    | (extract_lets +onlyGivenNames x; apply Keeps.cut (t := x) <;> [subst x; (intro _; clear_value x)])
    | (extract_lets +onlyGivenNames x; subst x)
    | dsimp -zeta only
    | split
    | dsimp only

theorem State.loseLine_keeps {s0 : State} {s : State}  (h : Keeps s0 s) : Keeps s0 (State.loseLine s) := by
  unfold State.loseLine
  repeat' first
    | with_reducible first
      | assumption | apply State.takeFree_keeps | apply State.freeBytes_keeps | apply State.store_keeps
      | refine Keeps.of_fst (by assumption) ?_ | refine Keeps.of_snd (by assumption) ?_
    | dsimp -zeta only
    | split
    | dsimp only

theorem State.readError_keeps {s0 : State} {s : State} {m : Master} {a : Nat} {err : Nat} {syn : Nat}  (h : Keeps s0 s) : Keeps s0 (State.readError s m a err syn).1 := by
  unfold State.readError
  repeat' first
    | with_reducible first
      | assumption | apply State.memCE_keeps | apply State.memUE_keeps | apply State.bumpSat_keeps | apply State.orWord_keeps
      | apply State.memRecordAt_keeps | apply State.faultAt_keeps | apply State.slcCount_keeps | apply State.slcRecord_keeps
      | apply State.poisonGran_keeps | apply State.loseLine_keeps | apply State.slcCE_keeps | apply State.bump_keeps
      | refine Keeps.of_fst (by assumption) ?_ | refine Keeps.ite1 (fun _ => ?_) (fun _ => ?_)
      | refine Keeps.ite (fun _ => ?_) (fun _ => ?_)
    | (extract_lets +onlyGivenNames x; apply Keeps.cut (t := x) <;> [subst x; (intro _; clear_value x)])
    | (extract_lets +onlyGivenNames x; subst x)
    | dsimp -zeta only
    | split
    | dsimp only

theorem State.holdTile_keeps {s0 : State} {s : State} {m : Master} {write : Bool} {a : Nat} {n : Nat} {l : List Byte} {bad : Bool} {t : State}  (h : Keeps s0 s) (e : State.holdTile s m write a n l bad = some t) : Keeps s0 t := by
  unfold State.holdTile at e
  repeat' first
    | (cases e; done)
    | (rw [Option.map_eq_some_iff] at e; obtain ⟨_, _, e⟩ := e)
    | split at e
    | dsimp only at e
  all_goals (try (first | cases e | injection e with e))
  all_goals repeat' first
    | with_reducible first
      | assumption | fail_if_no_progress apply Keeps.mk_ | refine Keeps.of_fst (by assumption) ?_
      | refine Keeps.ite (fun _ => ?_) (fun _ => ?_)
    | dsimp -zeta only
    | split
    | dsimp only

theorem State.readPa_keeps {s0 : State} {s : State} {m : Master} {a : Nat} {n : Nat} {err : Nat} {off : Nat} {syn : Nat}  (h : Keeps s0 s) : Keeps s0 (State.readPa s m a n err off syn) := by
  unfold State.readPa
  repeat' first
    | with_reducible first
      | assumption | apply State.readError_keeps | apply State.windowRead_keeps | apply State.hartPoison_keeps
      | fail_if_no_progress apply Keeps.mk_ | refine Keeps.of_fst (by assumption) ?_
      | refine Keeps.ite (fun _ => ?_) (fun _ => ?_)
    | (extract_lets +onlyGivenNames x; apply Keeps.cut (t := x) <;> [subst x; (intro _; clear_value x)])
    | (extract_lets +onlyGivenNames x; subst x)
    | dsimp -zeta only
    | split
    | dsimp only

theorem State.memoryRead_keeps {s0 : State} {s : State} {m : Master} {inst : Option (Fin 64)} {va : Nat} {n : Nat} {err : Nat} {off : Nat} {syn : Nat}  (h : Keeps s0 s) : Keeps s0 (State.memoryRead s m inst va n err off syn) := by
  unfold State.memoryRead
  repeat' first
    | with_reducible first
      | assumption | apply State.xlat_keeps | apply State.respErr_keeps | apply State.readPa_keeps
      | apply State.mapRefuse_keeps | refine Keeps.of_fst (by assumption) ?_ | refine State.holdTile_keeps ?_ (by assumption)
      | refine Keeps.ite (fun _ => ?_) (fun _ => ?_)
    | dsimp -zeta only
    | split
    | dsimp only

theorem execMemoryRead_keeps {s0 : State} {m : Master} {inst : Option (Fin 64)} {addr : BitVec 64} {len : Fin 4097} {err : Fin 11} {off : Fin 4096} {syn : BitVec 16} {s : State}  (h : Keeps s0 s) : OutKeeps s0 (execMemoryRead m inst addr len err off syn s) := by
  unfold execMemoryRead
  repeat' first
    | with_reducible first
      | assumption | apply State.memoryRead_keeps | apply OutKeeps.next
    | dsimp -zeta only
    | dsimp only

theorem State.writePa_keeps {s0 : State} {s : State} {m : Master} {a : Nat} {l : List Byte} {bad : Bool} {err : Nat} {off : Nat} {syn : Nat}  (h : Keeps s0 s) : Keeps s0 (State.writePa s m a l bad err off syn) := by
  unfold State.writePa
  repeat' first
    | with_reducible first
      | assumption | apply State.respErr_keeps | apply State.winFault_keeps | apply State.memCE_keeps
      | apply State.poisonGran_keeps | apply State.respOk_keeps | apply State.memPut_keeps
      | refine Keeps.ite (fun _ => ?_) (fun _ => ?_)
    | (extract_lets +onlyGivenNames x; apply Keeps.cut (t := x) <;> [subst x; (intro _; clear_value x)])
    | (extract_lets +onlyGivenNames x; subst x)
    | dsimp -zeta only
    | split
    | dsimp only

theorem State.memoryWrite_keeps {s0 : State} {s : State} {m : Master} {inst : Option (Fin 64)} {va : Nat} {l : List Byte} {bad : Bool} {err : Nat} {off : Nat} {syn : Nat}  (h : Keeps s0 s) : Keeps s0 (State.memoryWrite s m inst va l bad err off syn) := by
  unfold State.memoryWrite
  repeat' first
    | with_reducible first
      | assumption | apply State.xlat_keeps | apply State.respErr_keeps | apply State.writePa_keeps
      | apply State.mapRefuse_keeps | refine Keeps.of_fst (by assumption) ?_ | refine State.holdTile_keeps ?_ (by assumption)
      | refine Keeps.ite (fun _ => ?_) (fun _ => ?_)
    | dsimp -zeta only
    | split
    | dsimp only

theorem execMemoryWrite_keeps {s0 : State} {m : Master} {inst : Option (Fin 64)} {addr : BitVec 64} {data : List Byte} {poison : Bool} {err : Fin 3} {off : Fin 4096} {syn : BitVec 16} {s : State}  (h : Keeps s0 s) : OutKeeps s0 (execMemoryWrite m inst addr data poison err off syn s) := by
  unfold execMemoryWrite
  repeat' first
    | with_reducible first
      | assumption | apply State.memoryWrite_keeps | apply OutKeeps.next
    | dsimp -zeta only
    | dsimp only

theorem State.scrubStep_keeps {s0 : State} {s : State} {k : Nat}  (h : Keeps s0 s) : Keeps s0 (State.scrubStep s k) := by
  unfold State.scrubStep
  repeat' first
    | with_reducible first
      | assumption | apply State.setBit_keeps | apply State.setFld_keeps | fail_if_no_progress apply Keeps.mk_
      | refine Keeps.ite (fun _ => ?_) (fun _ => ?_)
    | (extract_lets +onlyGivenNames x; apply Keeps.cut (t := x) <;> [subst x; (intro _; clear_value x)])
    | (extract_lets +onlyGivenNames x; subst x)
    | dsimp -zeta only
    | split
    | dsimp only

theorem State.latentUE_keeps {s0 : State} {s : State} {a : Nat} {syn : Nat}  (h : Keeps s0 s) : Keeps s0 (State.latentUE s a syn) := by
  unfold State.latentUE
  repeat' first
    | with_reducible first
      | assumption | apply State.poisonGran_keeps | apply State.bump_keeps | apply State.faultAt_keeps
      | apply State.orWord_keeps | apply State.memRecordAt_keeps | refine Keeps.of_fst (by assumption) ?_
      | refine Keeps.ite (fun _ => ?_) (fun _ => ?_)
    | (extract_lets +onlyGivenNames x; apply Keeps.cut (t := x) <;> [subst x; (intro _; clear_value x)])
    | (extract_lets +onlyGivenNames x; subst x)
    | dsimp -zeta only
    | split
    | dsimp only

theorem State.scrubRead_keeps {s0 : State} {s : State} {a : Nat} {err : Nat} {syn : Nat}  (h : Keeps s0 s) : Keeps s0 (State.scrubRead s a err syn) := by
  unfold State.scrubRead
  repeat' first
    | with_reducible first
      | assumption | apply State.memCE_keeps | apply State.latentUE_keeps | apply State.scrubStep_keeps
      | refine Keeps.of_fst (by assumption) ?_ | refine Keeps.ite (fun _ => ?_) (fun _ => ?_)
    | (extract_lets +onlyGivenNames x; apply Keeps.cut (t := x) <;> [subst x; (intro _; clear_value x)])
    | (extract_lets +onlyGivenNames x; subst x)
    | dsimp -zeta only
    | split
    | dsimp only

theorem execScrubRead_keeps {s0 : State} {addr : BitVec 64} {err : Fin 3} {syn : BitVec 16} {s : State}  (h : Keeps s0 s) : OutKeeps s0 (execScrubRead addr err syn s) := by
  unfold execScrubRead
  repeat' first
    | with_reducible first
      | assumption | apply State.scrubRead_keeps | apply OutKeeps.next
    | dsimp -zeta only
    | dsimp only

theorem State.scrubLate_keeps {s0 : State} {s : State} {k : Nat}  (h : Keeps s0 s) : Keeps s0 (State.scrubLate s k) := by
  unfold State.scrubLate
  repeat' first
    | with_reducible first
      | assumption | apply State.timeTo_keeps | apply State.orWord_keeps | apply State.memRecord_keeps
      | apply State.setBit_keeps | apply State.fault_keeps | refine Keeps.ite (fun _ => ?_) (fun _ => ?_)
    | (extract_lets +onlyGivenNames x; apply Keeps.cut (t := x) <;> [subst x; (intro _; clear_value x)])
    | (extract_lets +onlyGivenNames x; subst x)
    | dsimp -zeta only
    | split
    | dsimp only

theorem execScrubLate_keeps {s0 : State} {kind : Fin 3} {s : State}  (h : Keeps s0 s) : OutKeeps s0 (execScrubLate kind s) := by
  unfold execScrubLate
  repeat' first
    | with_reducible first
      | assumption | apply State.scrubLate_keeps | apply OutKeeps.next
    | dsimp -zeta only
    | dsimp only

end Sys2Proof.Machine
end

