-- ==== Sys2Proof/Laws/KeepsAwl.lean ====
section
/-! SUPPORT. What Machine/Awl.lean keeps. -/

namespace Sys2Proof.Machine

set_option linter.unusedTactic false
set_option linter.unreachableTactic false

theorem State.injectEcc_keeps {s0 : State} {s : State} {src : Nat} {unit : Nat} {bits : Nat} {m : Master} {a : Nat} {t : State}  (h : Keeps s0 s) (e : State.injectEcc s src unit bits m a = some t) : Keeps s0 t := by
  unfold State.injectEcc at e
  repeat' first
    | (cases e; done)
    | (rw [Option.map_eq_some_iff] at e; obtain ⟨_, _, e⟩ := e)
    | split at e
    | dsimp only at e
  all_goals (try (first | cases e | injection e with e))
  all_goals repeat' first
    | with_reducible first
      | assumption | apply State.storageErr_keeps | apply State.readPa_keeps | apply State.scrubRead_keeps
      | apply State.fault_keeps | apply State.ledgerInvalid_keeps | apply State.phxEcc_keeps | apply State.endRun_keeps
      | apply State.setBit_keeps | refine Keeps.of_fst (by assumption) ?_ | refine Keeps.ite (fun _ => ?_) (fun _ => ?_)
    | (extract_lets +onlyGivenNames x; apply Keeps.cut (t := x) <;> [subst x; (intro _; clear_value x)])
    | (extract_lets +onlyGivenNames x; subst x)
    | dsimp -zeta only
    | split
    | dsimp only

theorem State.injectTwl_keeps {s0 s : State} {t b : Nat} {u : State} (h : Keeps s0 s) (e : State.injectTwl s t b = some u) :
    Keeps s0 u := by
  unfold State.injectTwl at e
  dsimp only at e
  split at e
  · cases e
  · split at e
    · cases e
    · split at e
      · next hd =>
        cases e
        refine OutKeeps.of_next ?_ hd
        apply execDigestCompare_keeps
        exact Keeps.mk_ h
      · cases e

theorem State.injectLedger_keeps {s0 : State} {s : State} {g : Nat} {t : State}  (h : Keeps s0 s) (e : State.injectLedger s g = some t) : Keeps s0 t := by
  unfold State.injectLedger at e
  repeat' first
    | (cases e; done)
    | (rw [Option.map_eq_some_iff] at e; obtain ⟨_, _, e⟩ := e)
    | split at e
    | dsimp only at e
  all_goals (try (first | cases e | injection e with e))
  all_goals repeat' first
    | with_reducible first
      | assumption | apply execAuditComplete_keeps | fail_if_no_progress apply Keeps.mk_
      | refine Keeps.of_fst (by assumption) ?_ | refine OutKeeps.of_next ?_ (by assumption)
      | refine Keeps.ite (fun _ => ?_) (fun _ => ?_)
    | (extract_lets +onlyGivenNames x; apply Keeps.cut (t := x) <;> [subst x; (intro _; clear_value x)])
    | (extract_lets +onlyGivenNames x; subst x)
    | dsimp -zeta only
    | split
    | dsimp only

theorem State.injectTarget_keeps {s0 : State} {s : State} {m : Master} {addr : Nat} {point : Nat} {pc : Nat} {t : State}  (h : Keeps s0 s) (e : State.injectTarget s m addr point pc = some t) : Keeps s0 t := by
  unfold State.injectTarget at e
  repeat' first
    | (cases e; done)
    | (rw [Option.map_eq_some_iff] at e; obtain ⟨_, _, e⟩ := e)
    | split at e
    | dsimp only at e
  all_goals (try (first | cases e | injection e with e))
  all_goals repeat' first
    | with_reducible first
      | assumption | apply State.mismatch_keeps | refine Keeps.of_fst (by assumption) ?_
      | refine State.injectEcc_keeps ?_ (by assumption) | refine State.injectTwl_keeps ?_ (by assumption)
      | refine State.injectLedger_keeps ?_ (by assumption) | refine Keeps.ite (fun _ => ?_) (fun _ => ?_)
    | (extract_lets +onlyGivenNames x; apply Keeps.cut (t := x) <;> [subst x; (intro _; clear_value x)])
    | (extract_lets +onlyGivenNames x; subst x)
    | dsimp -zeta only
    | split
    | dsimp only

theorem execAwlInjection_keeps {s0 : State} {m : Master} {addr : BitVec 64} {point : Fin 4} {pc : BitVec 32} {s : State}  (h : Keeps s0 s) : OutKeeps s0 (execAwlInjection m addr point pc s) := by
  unfold execAwlInjection
  repeat' first
    | with_reducible first
      | assumption | apply State.awlPerformed_keeps | apply OutKeeps.next | fail_if_no_progress apply Keeps.mk_
      | refine Keeps.of_fst (by assumption) ?_ | refine State.injectTarget_keeps ?_ (by assumption)
      | refine OutKeeps.ite (fun _ => ?_) (fun _ => ?_) | refine Keeps.ite (fun _ => ?_) (fun _ => ?_)
    | (extract_lets +onlyGivenNames x; apply Keeps.cut (t := x) <;> [subst x; (intro _; clear_value x)])
    | (extract_lets +onlyGivenNames x; subst x)
    | dsimp -zeta only
    | split
    | dsimp only

end Sys2Proof.Machine
end

