-- ==== Sys2Proof/Laws/KeepsSec.lean ====
section
/-! SUPPORT. What Machine/Sec.lean keeps. -/

namespace Sys2Proof.Machine

set_option linter.unusedTactic false
set_option linter.unreachableTactic false

theorem State.showFuses_keeps {s0 : State} {s : State}  (h : Keeps s0 s) : Keeps s0 (State.showFuses s) := by
  unfold State.showFuses
  repeat' first
    | with_reducible first
      | assumption | apply State.setRegBytes_keeps | apply State.setBit_keeps | apply State.setFld_keeps
      | apply State.setWord_keeps | apply foldl_keeps | apply foldl_keeps_fst | intro _
    | (extract_lets +onlyGivenNames x; apply Keeps.cut (t := x) <;> [subst x; (intro _; clear_value x)])
    | (extract_lets +onlyGivenNames x; subst x)
    | dsimp -zeta only
    | dsimp only

theorem State.fuseErr_keeps {s0 : State} {s : State} {info : Nat}  (h : Keeps s0 s) : Keeps s0 (State.fuseErr s info) := by
  unfold State.fuseErr
  repeat' first
    | with_reducible first
      | assumption | apply State.fault_keeps | apply State.orWord_keeps
    | dsimp -zeta only
    | dsimp only

theorem State.blow_keeps {s0 s : State} {b : Nat} {ok : Bool} (h : Keeps s0 s) : Keeps s0 (State.blow s b ok) := by
  unfold State.blow
  split
  · apply State.showFuses_keeps
    refine h.trans ⟨rfl, id, id, fun k x => ?_, Nat.le_refl _⟩
    simp only [bitOf_setBitsOf_one, x, Bool.or_true]
  · exact State.fuseErr_keeps h

theorem execFuseProg_keeps {s0 : State} {m : Master} {b : BitVec 12} {readsBack : Bool} {s : State}  (h : Keeps s0 s) : OutKeeps s0 (execFuseProg m b readsBack s) := by
  unfold execFuseProg
  repeat' first
    | with_reducible first
      | assumption | apply State.refuse_keeps | apply State.respOk_keeps | apply State.orWord_keeps | apply State.blow_keeps
      | apply OutKeeps.next | refine OutKeeps.ite (fun _ => ?_) (fun _ => ?_) | refine Keeps.ite (fun _ => ?_) (fun _ => ?_)
    | dsimp -zeta only
    | split
    | dsimp only

theorem State.keyRefused_keeps {s0 : State} {s : State} {m : Master} {k : Nat}  (h : Keeps s0 s) : Keeps s0 (State.keyRefused s m k) := by
  unfold State.keyRefused
  repeat' first
    | with_reducible first
      | assumption | apply State.respOk_keeps | apply State.fault_keeps | apply State.orWord_keeps
    | dsimp -zeta only
    | dsimp only

theorem execKeyUnwrap_keeps {s0 : State} {m : Master} {slot : Fin 16} {s : State}  (h : Keeps s0 s) : OutKeeps s0 (execKeyUnwrap m slot s) := by
  unfold execKeyUnwrap
  repeat' first
    | with_reducible first
      | assumption | apply State.refuse_keeps | apply State.keyRefused_keeps | apply State.respOk_keeps
      | apply State.setBit_keeps | apply State.fault_keeps | apply State.orWord_keeps | apply OutKeeps.next
      | fail_if_no_progress apply Keeps.mk_ | fail_if_no_progress apply Keeps.mkSec | refine Keeps.of_fst (by assumption) ?_
      | refine OutKeeps.ite (fun _ => ?_) (fun _ => ?_) | refine Keeps.ite (fun _ => ?_) (fun _ => ?_)
    | (extract_lets +onlyGivenNames x; apply Keeps.cut (t := x) <;> [subst x; (intro _; clear_value x)])
    | (extract_lets +onlyGivenNames x; subst x)
    | dsimp -zeta only
    | split
    | dsimp only

theorem execKeyClear_keeps {s0 : State} {m : Master} {slot : Fin 16} {s : State}  (h : Keeps s0 s) : OutKeeps s0 (execKeyClear m slot s) := by
  unfold execKeyClear
  repeat' first
    | with_reducible first
      | assumption | apply State.refuse_keeps | apply State.keyRefused_keeps | apply State.respOk_keeps
      | apply State.setBit_keeps | apply OutKeeps.next | fail_if_no_progress apply Keeps.mk_
      | fail_if_no_progress apply Keeps.mkSec | refine OutKeeps.ite (fun _ => ?_) (fun _ => ?_)
      | refine Keeps.ite (fun _ => ?_) (fun _ => ?_)
    | (extract_lets +onlyGivenNames x; apply Keeps.cut (t := x) <;> [subst x; (intro _; clear_value x)])
    | (extract_lets +onlyGivenNames x; subst x)
    | dsimp -zeta only
    | split
    | dsimp only

theorem execSecWinWrite_keeps {s0 : State} {m : Master} {w : Fin 64} {v : BitVec 32} {s : State}  (h : Keeps s0 s) : OutKeeps s0 (execSecWinWrite m w v s) := by
  unfold execSecWinWrite
  repeat' first
    | with_reducible first
      | assumption | apply State.refuse_keeps | apply State.respOk_keeps | apply State.orWord_keeps | apply State.setBit_keeps
      | apply State.setFld_keeps | apply State.setWord_keeps | apply OutKeeps.next
      | refine OutKeeps.ite (fun _ => ?_) (fun _ => ?_) | refine Keeps.ite (fun _ => ?_) (fun _ => ?_)
    | (extract_lets +onlyGivenNames x; apply Keeps.cut (t := x) <;> [subst x; (intro _; clear_value x)])
    | (extract_lets +onlyGivenNames x; subst x)
    | dsimp -zeta only
    | split
    | dsimp only

theorem State.pkClear_keeps {s0 : State} {s : State}  (h : Keeps s0 s) : Keeps s0 (State.pkClear s) := by
  unfold State.pkClear
  repeat' first
    | with_reducible first
      | assumption | apply State.resetRegs_keeps
    | dsimp -zeta only
    | dsimp only

theorem State.pkFree_keeps {s0 : State} {s : State}  (h : Keeps s0 s) : Keeps s0 (State.pkFree s) := by
  unfold State.pkFree
  repeat' first
    | with_reducible first
      | assumption | apply State.pkClear_keeps | fail_if_no_progress apply Keeps.mk_ | fail_if_no_progress apply Keeps.mkSec
    | (extract_lets +onlyGivenNames x; apply Keeps.cut (t := x) <;> [subst x; (intro _; clear_value x)])
    | (extract_lets +onlyGivenNames x; subst x)
    | dsimp -zeta only
    | dsimp only

theorem execPkClaim_keeps {s0 : State} {m : Master} {s : State}  (h : Keeps s0 s) : OutKeeps s0 (execPkClaim m s) := by
  unfold execPkClaim
  repeat' first
    | with_reducible first
      | assumption | apply State.refuse_keeps | apply State.respOk_keeps | apply OutKeeps.next
      | fail_if_no_progress apply Keeps.mk_ | fail_if_no_progress apply Keeps.mkSec | refine Keeps.of_fst (by assumption) ?_
      | refine OutKeeps.ite (fun _ => ?_) (fun _ => ?_) | refine Keeps.ite (fun _ => ?_) (fun _ => ?_)
    | (extract_lets +onlyGivenNames x; apply Keeps.cut (t := x) <;> [subst x; (intro _; clear_value x)])
    | (extract_lets +onlyGivenNames x; subst x)
    | dsimp -zeta only
    | split
    | dsimp only

theorem execPkRelease_keeps {s0 : State} {m : Master} {s : State}  (h : Keeps s0 s) : OutKeeps s0 (execPkRelease m s) := by
  unfold execPkRelease
  repeat' first
    | with_reducible first
      | assumption | apply State.refuse_keeps | apply State.ignoreWr_keeps | apply State.respOk_keeps
      | apply State.pkFree_keeps | apply OutKeeps.next | refine OutKeeps.ite (fun _ => ?_) (fun _ => ?_)
      | refine Keeps.ite (fun _ => ?_) (fun _ => ?_)
    | dsimp -zeta only
    | split
    | dsimp only

theorem State.pkStart_keeps {s0 : State} {s : State} {op : Nat} {keysrc : Bool} {debug : Bool}  (h : Keeps s0 s) : Keeps s0 (State.pkStart s op keysrc debug) := by
  unfold State.pkStart
  repeat' first
    | with_reducible first
      | assumption | apply State.setBit_keeps | fail_if_no_progress apply Keeps.mk_ | fail_if_no_progress apply Keeps.mkSec
    | (extract_lets +onlyGivenNames x; apply Keeps.cut (t := x) <;> [subst x; (intro _; clear_value x)])
    | (extract_lets +onlyGivenNames x; subst x)
    | dsimp -zeta only
    | dsimp only

theorem State.pkCmd_keeps {s0 : State} {s : State} {m : Master} {op : Nat} {keysrc : Bool}  (h : Keeps s0 s) : Keeps s0 (State.pkCmd s m op keysrc) := by
  unfold State.pkCmd
  repeat' first
    | with_reducible first
      | assumption | apply State.refuse_keeps | apply State.ignoreWr_keeps | apply State.respOk_keeps
      | apply State.pkStart_keeps | refine Keeps.ite (fun _ => ?_) (fun _ => ?_)
    | dsimp -zeta only
    | split
    | dsimp only

theorem execEcdsaSignP256_keeps {s0 : State} {m : Master} {keysrc : Bool} {s : State}  (h : Keeps s0 s) : OutKeeps s0 (execEcdsaSignP256 m keysrc s) := by
  unfold execEcdsaSignP256
  repeat' first
    | with_reducible first
      | assumption | apply State.pkCmd_keeps | apply OutKeeps.next
    | dsimp -zeta only
    | dsimp only

theorem execEcdsaSignP384_keeps {s0 : State} {m : Master} {keysrc : Bool} {s : State}  (h : Keeps s0 s) : OutKeeps s0 (execEcdsaSignP384 m keysrc s) := by
  unfold execEcdsaSignP384
  repeat' first
    | with_reducible first
      | assumption | apply State.pkCmd_keeps | apply OutKeeps.next
    | dsimp -zeta only
    | dsimp only

theorem execEcdsaVerifyP256_keeps {s0 : State} {m : Master} {keysrc : Bool} {s : State}  (h : Keeps s0 s) : OutKeeps s0 (execEcdsaVerifyP256 m keysrc s) := by
  unfold execEcdsaVerifyP256
  repeat' first
    | with_reducible first
      | assumption | apply State.pkCmd_keeps | apply OutKeeps.next
    | dsimp -zeta only
    | dsimp only

theorem execEcdsaVerifyP384_keeps {s0 : State} {m : Master} {keysrc : Bool} {s : State}  (h : Keeps s0 s) : OutKeeps s0 (execEcdsaVerifyP384 m keysrc s) := by
  unfold execEcdsaVerifyP384
  repeat' first
    | with_reducible first
      | assumption | apply State.pkCmd_keeps | apply OutKeeps.next
    | dsimp -zeta only
    | dsimp only

theorem execEcdhP256_keeps {s0 : State} {m : Master} {keysrc : Bool} {s : State}  (h : Keeps s0 s) : OutKeeps s0 (execEcdhP256 m keysrc s) := by
  unfold execEcdhP256
  repeat' first
    | with_reducible first
      | assumption | apply State.pkCmd_keeps | apply OutKeeps.next
    | dsimp -zeta only
    | dsimp only

theorem execEcdhP384_keeps {s0 : State} {m : Master} {keysrc : Bool} {s : State}  (h : Keeps s0 s) : OutKeeps s0 (execEcdhP384 m keysrc s) := by
  unfold execEcdhP384
  repeat' first
    | with_reducible first
      | assumption | apply State.pkCmd_keeps | apply OutKeeps.next
    | dsimp -zeta only
    | dsimp only

theorem execKeygenP256_keeps {s0 : State} {m : Master} {keysrc : Bool} {s : State}  (h : Keeps s0 s) : OutKeeps s0 (execKeygenP256 m keysrc s) := by
  unfold execKeygenP256
  repeat' first
    | with_reducible first
      | assumption | apply State.pkCmd_keeps | apply OutKeeps.next
    | dsimp -zeta only
    | dsimp only

theorem execKeygenP384_keeps {s0 : State} {m : Master} {keysrc : Bool} {s : State}  (h : Keeps s0 s) : OutKeeps s0 (execKeygenP384 m keysrc s) := by
  unfold execKeygenP384
  repeat' first
    | with_reducible first
      | assumption | apply State.pkCmd_keeps | apply OutKeeps.next
    | dsimp -zeta only
    | dsimp only

theorem execX25519_keeps {s0 : State} {m : Master} {keysrc : Bool} {s : State}  (h : Keeps s0 s) : OutKeeps s0 (execX25519 m keysrc s) := by
  unfold execX25519
  repeat' first
    | with_reducible first
      | assumption | apply State.pkCmd_keeps | apply OutKeeps.next
    | dsimp -zeta only
    | dsimp only

theorem execMlDsa65Verify_keeps {s0 : State} {m : Master} {keysrc : Bool} {s : State}  (h : Keeps s0 s) : OutKeeps s0 (execMlDsa65Verify m keysrc s) := by
  unfold execMlDsa65Verify
  repeat' first
    | with_reducible first
      | assumption | apply State.pkCmd_keeps | apply OutKeeps.next
    | dsimp -zeta only
    | dsimp only

theorem execMlKem768Decapsulation_keeps {s0 : State} {m : Master} {keysrc : Bool} {s : State}  (h : Keeps s0 s) : OutKeeps s0 (execMlKem768Decapsulation m keysrc s) := by
  unfold execMlKem768Decapsulation
  repeat' first
    | with_reducible first
      | assumption | apply State.pkCmd_keeps | apply OutKeeps.next
    | dsimp -zeta only
    | dsimp only

theorem State.pkFinish_keeps {s0 : State} {s : State} {code : Nat} {outs : List (Nat × List Byte)}  (h : Keeps s0 s) : Keeps s0 (State.pkFinish s code outs) := by
  unfold State.pkFinish
  repeat' first
    | with_reducible first
      | assumption | apply State.pkClear_keeps | apply State.setRegBytes_keeps | apply State.setFld_keeps
      | apply State.setBit_keeps | apply State.orWord_keeps | apply foldl_keeps | apply foldl_keeps_fst | intro _
      | fail_if_no_progress apply Keeps.mk_ | fail_if_no_progress apply Keeps.mkSec
      | refine Keeps.ite (fun _ => ?_) (fun _ => ?_)
    | (extract_lets +onlyGivenNames x; apply Keeps.cut (t := x) <;> [subst x; (intro _; clear_value x)])
    | (extract_lets +onlyGivenNames x; subst x)
    | dsimp -zeta only
    | split
    | dsimp only

theorem execBadOp_keeps {s0 : State} {m : Master} {op : BitVec 8} {s : State}  (h : Keeps s0 s) : OutKeeps s0 (execBadOp m op s) := by
  unfold execBadOp
  repeat' first
    | with_reducible first
      | assumption | apply State.refuse_keeps | apply State.ignoreWr_keeps | apply State.respOk_keeps
      | apply State.pkFinish_keeps | apply OutKeeps.next | refine OutKeeps.ite (fun _ => ?_) (fun _ => ?_)
      | refine Keeps.ite (fun _ => ?_) (fun _ => ?_)
    | dsimp -zeta only
    | split
    | dsimp only

theorem State.pkCurve_keeps {s0 : State} {s : State} {c : Curve} {k : Nat} {kind : Nat} {keysrc : Bool} {p384op : Bool}  (h : Keeps s0 s) : Keeps s0 (State.pkCurve s c k kind keysrc p384op).1 := by
  unfold State.pkCurve
  repeat' first
    | with_reducible first
      | assumption | apply State.takeFree_keeps | refine Keeps.of_fst (by assumption) ?_
      | refine Keeps.of_snd (by assumption) ?_ | refine Keeps.ite1 (fun _ => ?_) (fun _ => ?_)
      | refine Keeps.ite (fun _ => ?_) (fun _ => ?_)
    | (extract_lets +onlyGivenNames x; apply Keeps.cut (t := x) <;> [subst x; (intro _; clear_value x)])
    | (extract_lets +onlyGivenNames x; subst x)
    | dsimp -zeta only
    | split
    | dsimp only

theorem State.pkDsa_keeps {s0 : State} {s : State} {m : Master} {keysrc : Bool}  (h : Keeps s0 s) : Keeps s0 (State.pkDsa s m keysrc).1 := by
  unfold State.pkDsa
  repeat' first
    | with_reducible first
      | assumption | apply State.dmaReadLong_keeps | refine Keeps.of_fst (by assumption) ?_
    | (extract_lets +onlyGivenNames x; apply Keeps.cut (t := x) <;> [subst x; (intro _; clear_value x)])
    | (extract_lets +onlyGivenNames x; subst x)
    | dsimp -zeta only
    | split
    | dsimp only

theorem State.pkResult_keeps {s0 : State} {s : State} {o : PkOp}  (h : Keeps s0 s) : Keeps s0 (State.pkResult s o).1 := by
  unfold State.pkResult
  repeat' first
    | with_reducible first
      | assumption | apply State.pkCurve_keeps | apply State.pkDsa_keeps | refine Keeps.of_fst (by assumption) ?_
    | dsimp -zeta only
    | split
    | dsimp only

theorem State.dbgFail_keeps {s0 : State} {s : State}  (h : Keeps s0 s) : Keeps s0 (State.dbgFail s) := by
  unfold State.dbgFail
  repeat' first
    | with_reducible first
      | assumption | apply State.fault_keeps | apply State.orWord_keeps | apply State.bumpSat_keeps
    | dsimp -zeta only
    | dsimp only

theorem execPkComplete_keeps {s0 : State} {s : State}  (h : Keeps s0 s) : OutKeeps s0 (execPkComplete s) := by
  unfold execPkComplete
  repeat' first
    | with_reducible first
      | assumption | apply State.timeTo_keeps | apply State.pkResult_keeps | apply State.pkFree_keeps
      | apply State.pkFinish_keeps | apply State.fault_keeps | apply State.orWord_keeps | apply State.dbgFail_keeps
      | apply OutKeeps.next | refine Keeps.of_fst (by assumption) ?_ | refine OutKeeps.ite (fun _ => ?_) (fun _ => ?_)
      | refine Keeps.ite (fun _ => ?_) (fun _ => ?_)
    | (extract_lets +onlyGivenNames x; apply Keeps.cut (t := x) <;> [subst x; (intro _; clear_value x)])
    | (extract_lets +onlyGivenNames x; subst x)
    | dsimp -zeta only
    | split
    | dsimp only

theorem State.newChal_keeps {s0 : State} {s : State} {m : Master}  (h : Keeps s0 s) : Keeps s0 (State.newChal s m) := by
  unfold State.newChal
  repeat' first
    | with_reducible first
      | assumption | apply State.refuse_keeps | apply State.freeBytes_keeps | apply State.respOk_keeps
      | apply State.setRegBytes_keeps | fail_if_no_progress apply Keeps.mk_ | fail_if_no_progress apply Keeps.mkSec
      | refine Keeps.of_fst (by assumption) ?_ | refine Keeps.of_snd (by assumption) ?_
      | refine Keeps.ite (fun _ => ?_) (fun _ => ?_)
    | (extract_lets +onlyGivenNames x; apply Keeps.cut (t := x) <;> [subst x; (intro _; clear_value x)])
    | (extract_lets +onlyGivenNames x; subst x)
    | dsimp -zeta only
    | split
    | dsimp only

theorem execNewChal_keeps {s0 : State} {m : Master} {s : State}  (h : Keeps s0 s) : OutKeeps s0 (execNewChal m s) := by
  unfold execNewChal
  repeat' first
    | with_reducible first
      | assumption | apply State.newChal_keeps | apply OutKeeps.next
    | dsimp -zeta only
    | dsimp only

theorem State.submit_keeps {s0 : State} {s : State} {m : Master} {key : List Byte} {r : Nat} {sg : Nat}  (h : Keeps s0 s) : Keeps s0 (State.submit s m key r sg) := by
  unfold State.submit
  repeat' first
    | with_reducible first
      | assumption | apply State.refuse_keeps | apply State.respErr_keeps | apply State.respOk_keeps
      | apply State.dbgFail_keeps | apply State.setRegBytes_keeps | apply State.pkStart_keeps
      | fail_if_no_progress apply Keeps.mk_ | fail_if_no_progress apply Keeps.mkSec
      | refine Keeps.ite (fun _ => ?_) (fun _ => ?_)
    | (extract_lets +onlyGivenNames x; apply Keeps.cut (t := x) <;> [subst x; (intro _; clear_value x)])
    | (extract_lets +onlyGivenNames x; subst x)
    | dsimp -zeta only
    | split
    | dsimp only

theorem execSubmit_keeps {s0 : State} {m : Master} {key : BitVec 776} {r : BitVec 384} {sg : BitVec 384} {s : State}  (h : Keeps s0 s) : OutKeeps s0 (execSubmit m key r sg s) := by
  unfold execSubmit
  repeat' first
    | with_reducible first
      | assumption | apply State.submit_keeps | apply OutKeeps.next
    | dsimp -zeta only
    | dsimp only

theorem State.secReset_keeps {s0 : State} {s : State} {pufOk : Bool}  (h : Keeps s0 s) : Keeps s0 (State.secReset s pufOk) := by
  unfold State.secReset
  repeat' first
    | with_reducible first
      | assumption | apply State.resetBlock_keeps | apply State.showFuses_keeps | apply State.orWord_keeps
      | apply State.setRegBytes_keeps | fail_if_no_progress apply Keeps.mk_ | fail_if_no_progress apply Keeps.mkSec
      | refine Keeps.of_fst (by assumption) ?_ | refine Keeps.ite (fun _ => ?_) (fun _ => ?_)
    | (extract_lets +onlyGivenNames x; apply Keeps.cut (t := x) <;> [subst x; (intro _; clear_value x)])
    | (extract_lets +onlyGivenNames x; subst x)
    | dsimp -zeta only
    | split
    | dsimp only

end Sys2Proof.Machine
end

