-- ==== Sys2Proof/Laws/KeepsFlash.lean ====
section
/-! SUPPORT. What Machine/Flash.lean keeps. -/

namespace Sys2Proof.Machine

set_option linter.unusedTactic false
set_option linter.unreachableTactic false

theorem State.flashPut_keeps {s0 : State} {s : State} {k : Nat} {o : Nat} {l : List Byte}  (h : Keeps s0 s) : Keeps s0 (State.flashPut s k o l) := by
  unfold State.flashPut
  repeat' first
    | with_reducible first
      | assumption | fail_if_no_progress apply Keeps.mk_
    | (extract_lets +onlyGivenNames x; apply Keeps.cut (t := x) <;> [subst x; (intro _; clear_value x)])
    | (extract_lets +onlyGivenNames x; subst x)
    | dsimp -zeta only
    | dsimp only

theorem State.ctlWrite_keeps {s0 : State} {s : State} {k : Nat} {l : List Byte}  (h : Keeps s0 s) : Keeps s0 (State.ctlWrite s k l) := by
  unfold State.ctlWrite
  repeat' first
    | with_reducible first
      | assumption | apply State.flashPut_keeps
    | dsimp -zeta only
    | dsimp only

theorem State.ctlMark_keeps {s0 : State} {s : State} {k : Nat} {state : Nat} {tries : Nat}  (h : Keeps s0 s) : Keeps s0 (State.ctlMark s k state tries) := by
  unfold State.ctlMark
  repeat' first
    | with_reducible first
      | assumption | apply State.ctlWrite_keeps | refine Keeps.of_fst (by assumption) ?_
    | dsimp -zeta only
    | split
    | dsimp only

theorem State.bootSelect_keeps {s0 : State} {s : State}  (h : Keeps s0 s) : Keeps s0 (State.bootSelect s) := by
  unfold State.bootSelect
  repeat' first
    | with_reducible first
      | assumption | apply State.setWord_keeps | fail_if_no_progress apply Keeps.mk_
    | (extract_lets +onlyGivenNames x; apply Keeps.cut (t := x) <;> [subst x; (intro _; clear_value x)])
    | (extract_lets +onlyGivenNames x; subst x)
    | dsimp -zeta only
    | dsimp only

theorem State.slotFail_keeps {s0 : State} {s : State} {code : Nat}  (h : Keeps s0 s) : Keeps s0 (State.slotFail s code) := by
  unfold State.slotFail
  repeat' first
    | with_reducible first
      | assumption | apply State.setFld_keeps | fail_if_no_progress apply Keeps.mk_ | refine Keeps.of_fst (by assumption) ?_
    | (extract_lets +onlyGivenNames x; apply Keeps.cut (t := x) <;> [subst x; (intro _; clear_value x)])
    | (extract_lets +onlyGivenNames x; subst x)
    | dsimp -zeta only
    | split
    | dsimp only

end Sys2Proof.Machine
end

