-- ==== Sys2Proof/Laws/KeepsPtp.lean ====
section
/-! SUPPORT. What Machine/Ptp.lean keeps. -/

namespace Sys2Proof.Machine

set_option linter.unusedTactic false
set_option linter.unreachableTactic false

theorem State.modPclk_keeps {s0 : State} {s : State} {c : Nat} {f : PtpClk → PtpClk}  (h : Keeps s0 s) : Keeps s0 (State.modPclk s c f) := by
  unfold State.modPclk
  repeat' first
    | with_reducible first
      | assumption | fail_if_no_progress apply Keeps.mk_
    | (extract_lets +onlyGivenNames x; apply Keeps.cut (t := x) <;> [subst x; (intro _; clear_value x)])
    | (extract_lets +onlyGivenNames x; subst x)
    | dsimp -zeta only
    | dsimp only

theorem State.ptpIrq_keeps {s0 : State} {s : State} {c : Nat} {i : Nat}  (h : Keeps s0 s) : Keeps s0 (State.ptpIrq s c i) := by
  unfold State.ptpIrq
  repeat' first
    | with_reducible first
      | assumption | apply State.orWord_keeps
    | dsimp -zeta only
    | dsimp only

theorem State.ptpCount_keeps {s0 : State} {s : State} {c : Nat}  (h : Keeps s0 s) : Keeps s0 (State.ptpCount s c) := by
  unfold State.ptpCount
  repeat' first
    | with_reducible first
      | assumption | apply State.bump_keeps
    | dsimp -zeta only
    | dsimp only

theorem State.setPtpQ_keeps {s0 : State} {s : State} {c : Nat} {q : Nat}  (h : Keeps s0 s) : Keeps s0 (State.setPtpQ s c q) := by
  unfold State.setPtpQ
  repeat' first
    | with_reducible first
      | assumption | apply State.setFld_keeps | apply State.setWord_keeps
    | (extract_lets +onlyGivenNames x; apply Keeps.cut (t := x) <;> [subst x; (intro _; clear_value x)])
    | (extract_lets +onlyGivenNames x; subst x)
    | dsimp -zeta only
    | dsimp only

theorem execPtpClockTick_keeps {s0 : State} {clk : Fin 4} {s : State}  (h : Keeps s0 s) : OutKeeps s0 (execPtpClockTick clk s) := by
  unfold execPtpClockTick
  repeat' first
    | with_reducible first
      | assumption | apply State.modPclk_keeps | apply State.setWord64_keeps | apply State.timeAxes_keeps
      | apply State.setPtpQ_keeps | apply OutKeeps.next | refine Keeps.of_fst (by assumption) ?_
      | refine OutKeeps.ite (fun _ => ?_) (fun _ => ?_) | refine Keeps.ite (fun _ => ?_) (fun _ => ?_)
    | (extract_lets +onlyGivenNames x; apply Keeps.cut (t := x) <;> [subst x; (intro _; clear_value x)])
    | (extract_lets +onlyGivenNames x; subst x)
    | dsimp -zeta only
    | split
    | dsimp only

theorem execPtpSlewDone_keeps {s0 : State} {clk : Fin 4} {s : State}  (h : Keeps s0 s) : OutKeeps s0 (execPtpSlewDone clk s) := by
  unfold execPtpSlewDone
  repeat' first
    | with_reducible first
      | assumption | apply State.ptpIrq_keeps | apply State.setBit_keeps | apply State.modPclk_keeps | apply OutKeeps.next
      | refine OutKeeps.ite (fun _ => ?_) (fun _ => ?_) | refine Keeps.ite (fun _ => ?_) (fun _ => ?_)
    | (extract_lets +onlyGivenNames x; apply Keeps.cut (t := x) <;> [subst x; (intro _; clear_value x)])
    | (extract_lets +onlyGivenNames x; subst x)
    | dsimp -zeta only
    | split
    | dsimp only

theorem execPtpClkIncWrite_keeps {s0 : State} {m : Master} {inst : Option (Fin 64)} {clk : Fin 4} {v : BitVec 64} {s : State}  (h : Keeps s0 s) : OutKeeps s0 (execPtpClkIncWrite m inst clk v s) := by
  unfold execPtpClkIncWrite
  repeat' first
    | with_reducible first
      | assumption | apply State.refuse_keeps | apply State.respOk_keeps | apply State.ptpCount_keeps
      | apply State.modPclk_keeps | apply OutKeeps.next | refine OutKeeps.ite (fun _ => ?_) (fun _ => ?_)
      | refine Keeps.ite (fun _ => ?_) (fun _ => ?_)
    | (extract_lets +onlyGivenNames x; apply Keeps.cut (t := x) <;> [subst x; (intro _; clear_value x)])
    | (extract_lets +onlyGivenNames x; subst x)
    | dsimp -zeta only
    | split
    | dsimp only

theorem execPtpClkAdjWrite_keeps {s0 : State} {m : Master} {inst : Option (Fin 64)} {clk : Fin 4} {v : BitVec 64} {s : State}  (h : Keeps s0 s) : OutKeeps s0 (execPtpClkAdjWrite m inst clk v s) := by
  unfold execPtpClkAdjWrite
  repeat' first
    | with_reducible first
      | assumption | apply State.refuse_keeps | apply State.respOk_keeps | apply State.ptpCount_keeps
      | apply State.setBit_keeps | apply State.modPclk_keeps | apply OutKeeps.next
      | refine OutKeeps.ite (fun _ => ?_) (fun _ => ?_) | refine Keeps.ite (fun _ => ?_) (fun _ => ?_)
    | (extract_lets +onlyGivenNames x; apply Keeps.cut (t := x) <;> [subst x; (intro _; clear_value x)])
    | (extract_lets +onlyGivenNames x; subst x)
    | dsimp -zeta only
    | split
    | dsimp only

theorem State.ptpHold_keeps {s0 : State} {s : State} {c : Nat} {d : Int} {m : Master}  (h : Keeps s0 s) : Keeps s0 (State.ptpHold s c d m) := by
  unfold State.ptpHold
  repeat' first
    | with_reducible first
      | assumption | apply State.fault_keeps | apply State.ptpIrq_keeps | apply State.setBit_keeps
      | apply State.setWord64_keeps
    | dsimp -zeta only
    | dsimp only

theorem State.ptpUnhold_keeps {s0 : State} {s : State} {c : Nat}  (h : Keeps s0 s) : Keeps s0 (State.ptpUnhold s c) := by
  unfold State.ptpUnhold
  repeat' first
    | with_reducible first
      | assumption | apply State.setBit_keeps | apply State.setWord64_keeps
    | dsimp -zeta only
    | dsimp only

theorem State.ptpBlocked_keeps {s0 : State} {s : State} {c : Nat} {t : State}  (h : Keeps s0 s) (e : State.ptpBlocked s c = some t) : Keeps s0 t := by
  unfold State.ptpBlocked at e
  repeat' first
    | (cases e; done)
    | (rw [Option.map_eq_some_iff] at e; obtain ⟨_, _, e⟩ := e)
    | split at e
    | dsimp only at e
  all_goals (try (first | cases e | injection e with e))
  all_goals repeat' first
    | with_reducible first
      | assumption | apply State.ptpIrq_keeps | apply State.ptpCount_keeps | refine Keeps.ite (fun _ => ?_) (fun _ => ?_)
    | dsimp -zeta only
    | split
    | dsimp only

theorem execPtpClkStepWrite_keeps {s0 : State} {m : Master} {inst : Option (Fin 64)} {clk : Fin 4} {v : BitVec 64} {s : State}  (h : Keeps s0 s) : OutKeeps s0 (execPtpClkStepWrite m inst clk v s) := by
  unfold execPtpClkStepWrite
  repeat' first
    | with_reducible first
      | assumption | apply State.refuse_keeps | apply State.respOk_keeps | apply State.ptpCount_keeps
      | apply State.modPclk_keeps | apply State.ptpHold_keeps | apply OutKeeps.next | refine Keeps.of_fst (by assumption) ?_
      | refine State.ptpBlocked_keeps ?_ (by assumption) | refine OutKeeps.ite (fun _ => ?_) (fun _ => ?_)
      | refine Keeps.ite (fun _ => ?_) (fun _ => ?_)
    | (extract_lets +onlyGivenNames x; apply Keeps.cut (t := x) <;> [subst x; (intro _; clear_value x)])
    | (extract_lets +onlyGivenNames x; subst x)
    | dsimp -zeta only
    | split
    | dsimp only

theorem execPtpClkSet_keeps {s0 : State} {m : Master} {inst : Option (Fin 64)} {clk : Fin 4} {ns : BitVec 30} {s : State}  (h : Keeps s0 s) : OutKeeps s0 (execPtpClkSet m inst clk ns s) := by
  unfold execPtpClkSet
  repeat' first
    | with_reducible first
      | assumption | apply State.refuse_keeps | apply State.respOk_keeps | apply State.ptpCount_keeps
      | apply State.ptpIrq_keeps | apply State.modPclk_keeps | apply OutKeeps.next | refine Keeps.of_fst (by assumption) ?_
      | refine State.ptpBlocked_keeps ?_ (by assumption) | refine OutKeeps.ite (fun _ => ?_) (fun _ => ?_)
      | refine Keeps.ite (fun _ => ?_) (fun _ => ?_)
    | (extract_lets +onlyGivenNames x; apply Keeps.cut (t := x) <;> [subst x; (intro _; clear_value x)])
    | (extract_lets +onlyGivenNames x; subst x)
    | dsimp -zeta only
    | split
    | dsimp only

theorem State.ptpAccept_keeps {s0 : State} {s : State} {c : Nat}  (h : Keeps s0 s) : Keeps s0 (State.ptpAccept s c) := by
  unfold State.ptpAccept
  repeat' first
    | with_reducible first
      | assumption | apply State.modPclk_keeps | apply State.ptpCount_keeps | refine Keeps.ite (fun _ => ?_) (fun _ => ?_)
    | dsimp -zeta only
    | split
    | dsimp only

theorem State.ptpReject_keeps {s0 : State} {s : State} {c : Nat}  (h : Keeps s0 s) : Keeps s0 (State.ptpReject s c) := by
  unfold State.ptpReject
  repeat' first
    | with_reducible first
      | assumption | apply State.ptpCount_keeps | apply State.modPclk_keeps | apply State.ptpUnhold_keeps
      | refine Keeps.ite (fun _ => ?_) (fun _ => ?_)
    | dsimp -zeta only
    | split
    | dsimp only

theorem execAccept_keeps {s0 : State} {m : Master} {inst : Option (Fin 64)} {clk : Fin 4} {both : Bool} {s : State}  (h : Keeps s0 s) : OutKeeps s0 (execAccept m inst clk both s) := by
  unfold execAccept
  repeat' first
    | with_reducible first
      | assumption | apply State.refuse_keeps | apply State.respOk_keeps | apply State.ptpCount_keeps
      | apply State.ptpAccept_keeps | apply OutKeeps.next | refine OutKeeps.ite (fun _ => ?_) (fun _ => ?_)
      | refine Keeps.ite (fun _ => ?_) (fun _ => ?_)
    | dsimp -zeta only
    | split
    | dsimp only

theorem execReject_keeps {s0 : State} {m : Master} {inst : Option (Fin 64)} {clk : Fin 4} {s : State}  (h : Keeps s0 s) : OutKeeps s0 (execReject m inst clk s) := by
  unfold execReject
  repeat' first
    | with_reducible first
      | assumption | apply State.refuse_keeps | apply State.respOk_keeps | apply State.ptpReject_keeps | apply OutKeeps.next
      | refine OutKeeps.ite (fun _ => ?_) (fun _ => ?_) | refine Keeps.ite (fun _ => ?_) (fun _ => ?_)
    | dsimp -zeta only
    | split
    | dsimp only

theorem State.gateFollow_keeps {s0 : State} {s : State} {port : Nat}  (h : Keeps s0 s) : Keeps s0 (State.gateFollow s port) := by
  unfold State.gateFollow
  repeat' first
    | with_reducible first
      | assumption | fail_if_no_progress apply Keeps.mk_
    | (extract_lets +onlyGivenNames x; apply Keeps.cut (t := x) <;> [subst x; (intro _; clear_value x)])
    | (extract_lets +onlyGivenNames x; subst x)
    | dsimp -zeta only
    | dsimp only

theorem State.gatesStep_keeps {s0 : State} {s : State} {c : Nat}  (h : Keeps s0 s) : Keeps s0 (State.gatesStep s c) := by
  unfold State.gatesStep
  repeat' first
    | with_reducible first
      | assumption | apply State.bump_keeps | apply State.gateFollow_keeps | apply foldl_keeps | apply foldl_keeps_fst
      | intro _ | refine Keeps.ite (fun _ => ?_) (fun _ => ?_)
    | dsimp -zeta only
    | split
    | dsimp only

theorem State.ptpApplied_keeps {s0 : State} {s : State} {c : Nat} {q : Int}  (h : Keeps s0 s) : Keeps s0 (State.ptpApplied s c q) := by
  unfold State.ptpApplied
  repeat' first
    | with_reducible first
      | assumption | apply State.ptpIrq_keeps | apply State.setBit_keeps | apply State.setPtpQ_keeps | apply State.bump_keeps
      | apply State.setFld_keeps | apply State.gatesStep_keeps | apply State.timeAxes_keeps
      | refine Keeps.ite (fun _ => ?_) (fun _ => ?_)
    | (extract_lets +onlyGivenNames x; apply Keeps.cut (t := x) <;> [subst x; (intro _; clear_value x)])
    | (extract_lets +onlyGivenNames x; subst x)
    | dsimp -zeta only
    | split
    | dsimp only

theorem execPtpStepApply_keeps {s0 : State} {clk : Fin 4} {s : State}  (h : Keeps s0 s) : OutKeeps s0 (execPtpStepApply clk s) := by
  unfold execPtpStepApply
  repeat' first
    | with_reducible first
      | assumption | apply State.modPclk_keeps | apply State.ptpUnhold_keeps | apply State.ptpApplied_keeps
      | apply State.setBit_keeps | apply State.ptpHold_keeps | apply OutKeeps.next | refine Keeps.of_fst (by assumption) ?_
      | refine OutKeeps.ite (fun _ => ?_) (fun _ => ?_) | refine Keeps.ite (fun _ => ?_) (fun _ => ?_)
    | (extract_lets +onlyGivenNames x; apply Keeps.cut (t := x) <;> [subst x; (intro _; clear_value x)])
    | (extract_lets +onlyGivenNames x; subst x)
    | dsimp -zeta only
    | split
    | dsimp only

theorem execPpsOutPulse_keeps {s0 : State} {s : State}  (h : Keeps s0 s) : OutKeeps s0 (execPpsOutPulse s) := by
  unfold execPpsOutPulse
  repeat' first
    | with_reducible first
      | assumption | apply State.emit_keeps | apply OutKeeps.next | fail_if_no_progress apply Keeps.mk_
      | refine OutKeeps.ite (fun _ => ?_) (fun _ => ?_) | refine Keeps.ite (fun _ => ?_) (fun _ => ?_)
    | (extract_lets +onlyGivenNames x; apply Keeps.cut (t := x) <;> [subst x; (intro _; clear_value x)])
    | (extract_lets +onlyGivenNames x; subst x)
    | dsimp -zeta only
    | split
    | dsimp only

theorem execPpsInEdge_keeps {s0 : State} {level : Bool} {s : State}  (h : Keeps s0 s) : OutKeeps s0 (execPpsInEdge level s) := by
  unfold execPpsInEdge
  repeat' first
    | with_reducible first
      | assumption | apply State.orWord_keeps | apply State.setRegBytes_keeps | apply OutKeeps.next
      | fail_if_no_progress apply Keeps.mk_ | refine OutKeeps.ite (fun _ => ?_) (fun _ => ?_)
      | refine Keeps.ite (fun _ => ?_) (fun _ => ?_)
    | (extract_lets +onlyGivenNames x; apply Keeps.cut (t := x) <;> [subst x; (intro _; clear_value x)])
    | (extract_lets +onlyGivenNames x; subst x)
    | dsimp -zeta only
    | split
    | dsimp only

end Sys2Proof.Machine
end

