-- ==== Sys2Proof/Laws/KeepsBoot.lean ====
section
/-! SUPPORT. What Machine/Boot.lean keeps. -/

namespace Sys2Proof.Machine

set_option linter.unusedTactic false
set_option linter.unreachableTactic false

theorem State.coldState_keeps {s0 s : State} {cause : Nat} (h : Keeps s0 s) : Keeps s0 (State.coldState s cause) := by
  unfold State.coldState
  extract_lets l ring xin cnt gpio s1 z f p q w u r0 r1 r2 r3
  have h1 : Keeps s0 s1 := Keeps.ite (fun _ => State.emit_keeps h) (fun _ => h)
  have h0 : Keeps s0 r0 := ⟨h1.queue, fun _ => rfl, fun _ => rfl, h1.fuses, h1.now⟩
  clear_value r0
  apply State.bootSelect_keeps
  apply State.secReset_keeps
  apply State.setBit_keeps
  apply State.updateFc_keeps
  apply State.setBit_keeps
  apply State.setBit_keeps
  apply State.setWord64_keeps
  exact State.setWord_keeps h0

theorem State.coldReset_keeps {s0 : State} {s : State} {cause : Nat}  (h : Keeps s0 s) : Keeps s0 (State.coldReset s cause) := by
  unfold State.coldReset
  repeat' first
    | with_reducible first
      | assumption | apply State.coldState_keeps | apply State.bumpSat_keeps
    | dsimp -zeta only
    | dsimp only

theorem State.powerOnReset_keeps {s0 : State} {s : State} {cause : Nat}  (h : Keeps s0 s) : Keeps s0 (State.powerOnReset s cause) := by
  unfold State.powerOnReset
  repeat' first
    | with_reducible first
      | assumption | apply State.emit_keeps | apply State.setBit_keeps | apply State.setWord_keeps
      | apply State.coldState_keeps | fail_if_no_progress apply Keeps.mk_ | fail_if_no_progress apply Keeps.mkSec
      | refine Keeps.ite (fun _ => ?_) (fun _ => ?_)
    | (extract_lets +onlyGivenNames x; apply Keeps.cut (t := x) <;> [subst x; (intro _; clear_value x)])
    | (extract_lets +onlyGivenNames x; subst x)
    | dsimp -zeta only
    | split
    | dsimp only

theorem State.cfgCollector_keeps {s0 : State} {s : State} {r : List Byte}  (h : Keeps s0 s) : Keeps s0 (State.cfgCollector s r) := by
  unfold State.cfgCollector
  repeat' first
    | with_reducible first
      | assumption | apply State.cfgWord_keeps | apply State.updatePairs_keeps | apply State.setBit_keeps | apply foldl_keeps
      | apply foldl_keeps_fst | intro _ | refine Keeps.ite (fun _ => ?_) (fun _ => ?_)
    | (extract_lets +onlyGivenNames x; apply Keeps.cut (t := x) <;> [subst x; (intro _; clear_value x)])
    | (extract_lets +onlyGivenNames x; subst x)
    | dsimp -zeta only
    | split
    | dsimp only

theorem State.cfgAgain_keeps {s0 : State} {s : State} {ofs : Nat} {v : Nat}  (h : Keeps s0 s) : Keeps s0 (State.cfgAgain s ofs v) := by
  unfold State.cfgAgain
  repeat' first
    | with_reducible first
      | assumption | apply State.cfgWord_keeps | apply State.setWord_keeps | refine Keeps.of_fst (by assumption) ?_
      | refine Keeps.ite (fun _ => ?_) (fun _ => ?_)
    | (extract_lets +onlyGivenNames x; apply Keeps.cut (t := x) <;> [subst x; (intro _; clear_value x)])
    | (extract_lets +onlyGivenNames x; subst x)
    | dsimp -zeta only
    | split
    | dsimp only

theorem State.cfgReload_keeps {s0 : State} {s : State} {r : List Byte}  (h : Keeps s0 s) : Keeps s0 (State.cfgReload s r) := by
  unfold State.cfgReload
  repeat' first
    | with_reducible first
      | assumption | apply State.cfgAgain_keeps | apply State.updatePairs_keeps | apply State.setBit_keeps | apply foldl_keeps
      | apply foldl_keeps_fst | intro _ | refine Keeps.ite (fun _ => ?_) (fun _ => ?_)
    | (extract_lets +onlyGivenNames x; apply Keeps.cut (t := x) <;> [subst x; (intro _; clear_value x)])
    | (extract_lets +onlyGivenNames x; subst x)
    | dsimp -zeta only
    | split
    | dsimp only

theorem State.islandReset_keeps {s0 : State} {s : State} {m : Master}  (h : Keeps s0 s) : Keeps s0 (State.islandReset s m) := by
  unfold State.islandReset
  repeat' first
    | with_reducible first
      | assumption | apply State.fault_keeps | apply State.resetBlock_keeps | apply State.setFld_keeps
      | apply State.setBit_keeps | apply State.cfgReload_keeps | apply State.updateFc_keeps
      | fail_if_no_progress apply Keeps.mk_ | refine Keeps.ite (fun _ => ?_) (fun _ => ?_)
    | (extract_lets +onlyGivenNames x; apply Keeps.cut (t := x) <;> [subst x; (intro _; clear_value x)])
    | (extract_lets +onlyGivenNames x; subst x)
    | dsimp -zeta only
    | split
    | dsimp only

theorem execStartupTestDone_keeps {s0 : State} {pass : BitVec 6} {s : State}  (h : Keeps s0 s) : OutKeeps s0 (execStartupTestDone pass s) := by
  unfold execStartupTestDone
  repeat' first
    | with_reducible first
      | assumption | apply State.setWord_keeps | apply State.fault_keeps | apply State.setPair_keeps
      | apply State.setBit_keeps | apply State.cfgReload_keeps | apply State.attachNow_keeps | apply State.bootPower_keeps
      | apply OutKeeps.next | apply foldl_keeps | apply foldl_keeps_fst | intro _ | fail_if_no_progress apply Keeps.mk_
      | refine OutKeeps.ite (fun _ => ?_) (fun _ => ?_) | refine Keeps.ite (fun _ => ?_) (fun _ => ?_)
    | (extract_lets +onlyGivenNames x; apply Keeps.cut (t := x) <;> [subst x; (intro _; clear_value x)])
    | (extract_lets +onlyGivenNames x; subst x)
    | dsimp -zeta only
    | split
    | dsimp only

theorem State.tapReset_keeps {s0 : State} {s : State}  (h : Keeps s0 s) : Keeps s0 (State.tapReset s) := by
  unfold State.tapReset
  repeat' first
    | with_reducible first
      | assumption | fail_if_no_progress apply Keeps.mk_ | refine Keeps.ite (fun _ => ?_) (fun _ => ?_)
    | (extract_lets +onlyGivenNames x; apply Keeps.cut (t := x) <;> [subst x; (intro _; clear_value x)])
    | (extract_lets +onlyGivenNames x; subst x)
    | dsimp -zeta only
    | split
    | dsimp only

theorem execPowerOnReset_keeps {s0 : State} {s : State}  (h : Keeps s0 s) : OutKeeps s0 (execPowerOnReset s) := by
  unfold execPowerOnReset
  repeat' first
    | with_reducible first
      | assumption | apply State.powerOnReset_keeps | apply OutKeeps.next
    | dsimp -zeta only
    | dsimp only

theorem State.coldWrite_keeps {s0 : State} {s : State} {m : Master}  (h : Keeps s0 s) : Keeps s0 (State.coldWrite s m) := by
  unfold State.coldWrite
  repeat' first
    | with_reducible first
      | assumption | apply State.coldReset_keeps | apply State.ignoreWr_keeps | refine Keeps.ite (fun _ => ?_) (fun _ => ?_)
    | dsimp -zeta only
    | split
    | dsimp only

theorem execColdReset_keeps {s0 : State} {by_ : Option Master} {s : State}  (h : Keeps s0 s) : OutKeeps s0 (execColdReset by_ s) := by
  unfold execColdReset
  repeat' first
    | with_reducible first
      | assumption | apply State.coldReset_keeps | apply State.coldWrite_keeps | apply OutKeeps.next
      | refine Keeps.of_fst (by assumption) ?_
    | dsimp -zeta only
    | split
    | dsimp only

theorem State.islandWrite_keeps {s0 : State} {s : State} {m : Master}  (h : Keeps s0 s) : Keeps s0 (State.islandWrite s m) := by
  unfold State.islandWrite
  repeat' first
    | with_reducible first
      | assumption | apply State.respOk_keeps | apply State.islandReset_keeps | apply State.ignoreWr_keeps
      | refine Keeps.ite (fun _ => ?_) (fun _ => ?_)
    | dsimp -zeta only
    | split
    | dsimp only

theorem execIslandReset_keeps {s0 : State} {m : Master} {s : State}  (h : Keeps s0 s) : OutKeeps s0 (execIslandReset m s) := by
  unfold execIslandReset
  repeat' first
    | with_reducible first
      | assumption | apply State.islandWrite_keeps | apply OutKeeps.next
    | dsimp -zeta only
    | dsimp only

theorem execTapReset_keeps {s0 : State} {s : State}  (h : Keeps s0 s) : OutKeeps s0 (execTapReset s) := by
  unfold execTapReset
  repeat' first
    | with_reducible first
      | assumption | apply State.tapReset_keeps | apply OutKeeps.next
    | dsimp -zeta only
    | dsimp only

theorem State.bootRun_keeps {s0 : State} {s : State} {k : Nat} {img : List Byte} {trial : Bool} {seq : Nat}  (h : Keeps s0 s) : Keeps s0 (State.bootRun s k img trial seq) := by
  unfold State.bootRun
  repeat' first
    | with_reducible first
      | assumption | apply State.setPhase_keeps | apply State.setProc_keeps | apply State.setBit_keeps
      | apply State.setFld_keeps | fail_if_no_progress apply Keeps.mk_
    | (extract_lets +onlyGivenNames x; apply Keeps.cut (t := x) <;> [subst x; (intro _; clear_value x)])
    | (extract_lets +onlyGivenNames x; subst x)
    | dsimp -zeta only
    | dsimp only

theorem State.imageVerify_keeps {s0 : State} {s : State} {readErr : Bool}  (h : Keeps s0 s) : Keeps s0 (State.imageVerify s readErr) := by
  unfold State.imageVerify
  repeat' first
    | with_reducible first
      | assumption | apply State.bootSelect_keeps | apply State.slotFail_keeps | apply State.setBit_keeps
      | apply State.ctlMark_keeps | apply State.bootRun_keeps | refine Keeps.of_fst (by assumption) ?_
      | refine Keeps.ite (fun _ => ?_) (fun _ => ?_)
    | (extract_lets +onlyGivenNames x; apply Keeps.cut (t := x) <;> [subst x; (intro _; clear_value x)])
    | (extract_lets +onlyGivenNames x; subst x)
    | dsimp -zeta only
    | split
    | dsimp only

theorem execImageVerify_keeps {s0 : State} {readErr : Bool} {s : State}  (h : Keeps s0 s) : OutKeeps s0 (execImageVerify readErr s) := by
  unfold execImageVerify
  repeat' first
    | with_reducible first
      | assumption | apply State.imageVerify_keeps | apply OutKeeps.next
    | dsimp -zeta only
    | dsimp only

theorem State.recordCheck_keeps {s0 : State} {s : State}  (h : Keeps s0 s) : Keeps s0 (State.recordCheck s) := by
  unfold State.recordCheck
  repeat' first
    | with_reducible first
      | assumption | apply State.takeFree_keeps | apply State.logWrite_keeps | apply State.setPhase_keeps
      | apply State.slotFail_keeps | apply State.setProc_keeps | apply State.setFld_keeps
      | fail_if_no_progress apply Keeps.mk_ | refine Keeps.of_fst (by assumption) ?_ | refine Keeps.of_snd (by assumption) ?_
      | refine Keeps.ite (fun _ => ?_) (fun _ => ?_)
    | (extract_lets +onlyGivenNames x; apply Keeps.cut (t := x) <;> [subst x; (intro _; clear_value x)])
    | (extract_lets +onlyGivenNames x; subst x)
    | dsimp -zeta only
    | split
    | dsimp only

theorem execConfigRecordCheck_keeps {s0 : State} {s : State}  (h : Keeps s0 s) : OutKeeps s0 (execConfigRecordCheck s) := by
  unfold execConfigRecordCheck
  repeat' first
    | with_reducible first
      | assumption | apply State.recordCheck_keeps | apply OutKeeps.next
    | dsimp -zeta only
    | dsimp only

theorem State.recoveryEnter_keeps {s0 : State} {s : State}  (h : Keeps s0 s) : Keeps s0 (State.recoveryEnter s) := by
  unfold State.recoveryEnter
  repeat' first
    | with_reducible first
      | assumption | apply State.bootSelect_keeps | apply State.setPhase_keeps | apply State.setFld_keeps
      | fail_if_no_progress apply Keeps.mk_ | refine Keeps.ite (fun _ => ?_) (fun _ => ?_)
    | (extract_lets +onlyGivenNames x; apply Keeps.cut (t := x) <;> [subst x; (intro _; clear_value x)])
    | (extract_lets +onlyGivenNames x; subst x)
    | dsimp -zeta only
    | split
    | dsimp only

theorem execRecoveryEnter_keeps {s0 : State} {s : State}  (h : Keeps s0 s) : OutKeeps s0 (execRecoveryEnter s) := by
  unfold execRecoveryEnter
  repeat' first
    | with_reducible first
      | assumption | apply State.recoveryEnter_keeps | apply OutKeeps.next
    | dsimp -zeta only
    | dsimp only

theorem State.showRail_keeps {s0 : State} {s : State} {v : Nat} {mv : Nat}  (h : Keeps s0 s) : Keeps s0 (State.showRail s v mv) := by
  unfold State.showRail
  repeat' first
    | with_reducible first
      | assumption | apply State.setBit_keeps | apply State.setFld_keeps
    | dsimp -zeta only
    | dsimp only

theorem State.judgeDiff_keeps {s0 : State} {s : State} {v : Nat}  (h : Keeps s0 s) : Keeps s0 (State.judgeDiff s v) := by
  unfold State.judgeDiff
  repeat' first
    | with_reducible first
      | assumption | apply State.fault_keeps | fail_if_no_progress apply Keeps.mk_
      | refine Keeps.ite (fun _ => ?_) (fun _ => ?_)
    | (extract_lets +onlyGivenNames x; apply Keeps.cut (t := x) <;> [subst x; (intro _; clear_value x)])
    | (extract_lets +onlyGivenNames x; subst x)
    | dsimp -zeta only
    | split
    | dsimp only

theorem execRailDeparture_keeps {s0 : State} {rail : Fin 14} {mv : BitVec 12} {s : State}  (h : Keeps s0 s) : OutKeeps s0 (execRailDeparture rail mv s) := by
  unfold execRailDeparture
  repeat' first
    | with_reducible first
      | assumption | apply State.orWord_keeps | apply State.showRail_keeps | apply State.powerOnReset_keeps
      | apply State.judgeDiff_keeps | apply State.fault_keeps | apply OutKeeps.next
      | refine OutKeeps.ite (fun _ => ?_) (fun _ => ?_) | refine Keeps.ite (fun _ => ?_) (fun _ => ?_)
    | (extract_lets +onlyGivenNames x; apply Keeps.cut (t := x) <;> [subst x; (intro _; clear_value x)])
    | (extract_lets +onlyGivenNames x; subst x)
    | dsimp -zeta only
    | split
    | dsimp only

theorem State.bootClocks_keeps {s0 : State} {s : State}  (h : Keeps s0 s) : Keeps s0 (State.bootClocks s) := by
  unfold State.bootClocks
  repeat' first
    | with_reducible first
      | assumption | apply State.cfgView_keeps | apply State.setFld_keeps | apply State.emit_keeps | apply State.setWord_keeps
      | apply State.takeFree_keeps | apply foldl_keeps | apply foldl_keeps_fst | intro _ | fail_if_no_progress apply Keeps.mk_
      | refine Keeps.of_fst (by assumption) ?_ | refine Keeps.of_snd (by assumption) ?_
      | refine Keeps.ite (fun _ => ?_) (fun _ => ?_)
    | (extract_lets +onlyGivenNames x; apply Keeps.cut (t := x) <;> [subst x; (intro _; clear_value x)])
    | (extract_lets +onlyGivenNames x; subst x)
    | dsimp -zeta only
    | split
    | dsimp only

theorem execRailWithinTolerance_keeps {s0 : State} {rail : Fin 14} {mv : BitVec 12} {s : State}  (h : Keeps s0 s) : OutKeeps s0 (execRailWithinTolerance rail mv s) := by
  unfold execRailWithinTolerance
  repeat' first
    | with_reducible first
      | assumption | apply State.judgeDiff_keeps | apply State.showRail_keeps | apply State.bootClocks_keeps
      | apply OutKeeps.next | refine OutKeeps.ite (fun _ => ?_) (fun _ => ?_) | refine Keeps.ite (fun _ => ?_) (fun _ => ?_)
    | (extract_lets +onlyGivenNames x; apply Keeps.cut (t := x) <;> [subst x; (intro _; clear_value x)])
    | (extract_lets +onlyGivenNames x; subst x)
    | dsimp -zeta only
    | split
    | dsimp only

theorem execGroup3RailTimeout_keeps {s0 : State} {s : State}  (h : Keeps s0 s) : OutKeeps s0 (execGroup3RailTimeout s) := by
  unfold execGroup3RailTimeout
  repeat' first
    | with_reducible first
      | assumption | apply State.timeTo_keeps | apply State.fault_keeps | apply OutKeeps.next
      | fail_if_no_progress apply Keeps.mk_ | refine OutKeeps.ite (fun _ => ?_) (fun _ => ?_)
      | refine Keeps.ite (fun _ => ?_) (fun _ => ?_)
    | (extract_lets +onlyGivenNames x; apply Keeps.cut (t := x) <;> [subst x; (intro _; clear_value x)])
    | (extract_lets +onlyGivenNames x; subst x)
    | dsimp -zeta only
    | split
    | dsimp only

theorem State.cellTest_keeps {s0 : State} {s : State} {p : Nat} {pass : BitVec 17} {on : Bool}  (h : Keeps s0 s) : Keeps s0 (State.cellTest s p pass on) := by
  unfold State.cellTest
  repeat' first
    | with_reducible first
      | assumption | apply State.setFld_keeps | apply State.setPhysState_keeps | apply State.setBit_keeps
      | apply State.enter_keeps | apply State.makeAbsent_keeps | apply State.showSpare_keeps | apply State.fault_keeps
      | apply foldl_keeps | apply foldl_keeps_fst | intro _ | refine Keeps.of_fst (by assumption) ?_
      | refine Keeps.ite (fun _ => ?_) (fun _ => ?_)
    | (extract_lets +onlyGivenNames x; apply Keeps.cut (t := x) <;> [subst x; (intro _; clear_value x)])
    | (extract_lets +onlyGivenNames x; subst x)
    | dsimp -zeta only
    | split
    | dsimp only

theorem State.applyLoad_keeps {s0 : State} {s : State} {ofs : Nat} {v : Nat}  (h : Keeps s0 s) : Keeps s0 (State.applyLoad s ofs v) := by
  unfold State.applyLoad
  repeat' first
    | with_reducible first
      | assumption | apply State.tackCfgWrite_keeps | apply State.cfgWord_keeps | refine Keeps.ite (fun _ => ?_) (fun _ => ?_)
    | (extract_lets +onlyGivenNames x; apply Keeps.cut (t := x) <;> [subst x; (intro _; clear_value x)])
    | (extract_lets +onlyGivenNames x; subst x)
    | dsimp -zeta only
    | split
    | dsimp only

theorem State.applySect_keeps {s0 : State} {s : State} {r : List Byte} {b3 : CfgSect}  (h : Keeps s0 s) : Keeps s0 (State.applySect s r b3) := by
  unfold State.applySect
  repeat' first
    | with_reducible first
      | assumption | apply State.applyLoad_keeps | apply State.clearMem_keeps | apply State.memPut_keeps | apply foldl_keeps
      | apply foldl_keeps_fst | intro _ | fail_if_no_progress apply Keeps.mk_ | refine Keeps.of_fst (by assumption) ?_
      | refine Keeps.ite (fun _ => ?_) (fun _ => ?_)
    | (extract_lets +onlyGivenNames x; apply Keeps.cut (t := x) <;> [subst x; (intro _; clear_value x)])
    | (extract_lets +onlyGivenNames x; subst x)
    | dsimp -zeta only
    | split
    | dsimp only

theorem State.showModes_keeps {s0 : State} {s : State} {modes : Nat}  (h : Keeps s0 s) : Keeps s0 (State.showModes s modes) := by
  unfold State.showModes
  repeat' first
    | with_reducible first
      | assumption | apply State.setWord_keeps | apply State.setBit_keeps
    | (extract_lets +onlyGivenNames x; apply Keeps.cut (t := x) <;> [subst x; (intro _; clear_value x)])
    | (extract_lets +onlyGivenNames x; subst x)
    | dsimp -zeta only
    | dsimp only

theorem State.loadClicks_keeps {s0 : State} {s : State}  (h : Keeps s0 s) : Keeps s0 (State.loadClicks s) := by
  unfold State.loadClicks
  repeat' first
    | with_reducible first
      | assumption | apply State.setClickState_keeps | apply State.joinCell_keeps | apply State.showFree_keeps
      | apply State.handOut_keeps | apply foldl_keeps | apply foldl_keeps_fst | intro _
      | refine Keeps.ite (fun _ => ?_) (fun _ => ?_)
    | (extract_lets +onlyGivenNames x; apply Keeps.cut (t := x) <;> [subst x; (intro _; clear_value x)])
    | (extract_lets +onlyGivenNames x; subst x)
    | dsimp -zeta only
    | split
    | dsimp only

theorem State.loadQueues_keeps {s0 : State} {s : State}  (h : Keeps s0 s) : Keeps s0 (State.loadQueues s) := by
  unfold State.loadQueues
  repeat' first
    | with_reducible first
      | assumption | apply State.setQueue_keeps | apply foldl_keeps | apply foldl_keeps_fst | intro _
      | refine Keeps.ite (fun _ => ?_) (fun _ => ?_)
    | (extract_lets +onlyGivenNames x; apply Keeps.cut (t := x) <;> [subst x; (intro _; clear_value x)])
    | (extract_lets +onlyGivenNames x; subst x)
    | dsimp -zeta only
    | split
    | dsimp only

theorem State.loadTokens_keeps {s0 : State} {s : State}  (h : Keeps s0 s) : Keeps s0 (State.loadTokens s) := by
  unfold State.loadTokens
  repeat' first
    | with_reducible first
      | assumption | apply State.admTake_keeps | apply foldl_keeps | apply foldl_keeps_fst | intro _
      | fail_if_no_progress apply Keeps.mk_ | refine Keeps.of_fst (by assumption) ?_
      | refine Keeps.ite (fun _ => ?_) (fun _ => ?_)
    | (extract_lets +onlyGivenNames x; apply Keeps.cut (t := x) <;> [subst x; (intro _; clear_value x)])
    | (extract_lets +onlyGivenNames x; subst x)
    | dsimp -zeta only
    | split
    | dsimp only

theorem State.loadLogs_keeps {s0 : State} {s : State}  (h : Keeps s0 s) : Keeps s0 (State.loadLogs s) := by
  unfold State.loadLogs
  repeat' first
    | with_reducible first
      | assumption | apply State.store_keeps | apply foldl_keeps | apply foldl_keeps_fst | intro _
      | fail_if_no_progress apply Keeps.mk_
    | (extract_lets +onlyGivenNames x; apply Keeps.cut (t := x) <;> [subst x; (intro _; clear_value x)])
    | (extract_lets +onlyGivenNames x; subst x)
    | dsimp -zeta only
    | dsimp only

theorem State.loadModel_keeps {s0 : State} {s : State} {b2 : List Byte} {img : Option (List Byte)}  (h : Keeps s0 s) : Keeps s0 (State.loadModel s b2 img) := by
  unfold State.loadModel
  repeat' first
    | with_reducible first
      | assumption | apply State.memPut_keeps | apply State.setWord64_keeps | apply State.setBit_keeps
      | apply State.setModelState_keeps | apply State.fault_keeps | fail_if_no_progress apply Keeps.mk_
      | refine Keeps.of_fst (by assumption) ?_ | refine Keeps.ite (fun _ => ?_) (fun _ => ?_)
    | (extract_lets +onlyGivenNames x; apply Keeps.cut (t := x) <;> [subst x; (intro _; clear_value x)])
    | (extract_lets +onlyGivenNames x; subst x)
    | dsimp -zeta only
    | split
    | dsimp only

theorem State.loadModels_keeps {s0 : State} {s : State} {r : List Byte} {images : List (List Byte)}  (h : Keeps s0 s) : Keeps s0 (State.loadModels s r images) := by
  unfold State.loadModels
  repeat' first
    | with_reducible first
      | assumption | apply State.loadModel_keeps | apply foldl_keeps | apply foldl_keeps_fst | intro _
      | refine Keeps.ite (fun _ => ?_) (fun _ => ?_)
    | (extract_lets +onlyGivenNames x; apply Keeps.cut (t := x) <;> [subst x; (intro _; clear_value x)])
    | (extract_lets +onlyGivenNames x; subst x)
    | dsimp -zeta only
    | split
    | dsimp only

theorem State.checkPairs_keeps {s0 : State} {s : State}  (h : Keeps s0 s) : Keeps s0 (State.checkPairs s) := by
  unfold State.checkPairs
  repeat' first
    | with_reducible first
      | assumption | apply State.fault_keeps | refine Keeps.ite (fun _ => ?_) (fun _ => ?_)
    | (extract_lets +onlyGivenNames x; apply Keeps.cut (t := x) <;> [subst x; (intro _; clear_value x)])
    | (extract_lets +onlyGivenNames x; subst x)
    | dsimp -zeta only
    | split
    | dsimp only

theorem State.applyRecord_keeps {s0 : State} {s : State} {cells : List (BitVec 17)} {images : List (List Byte)}  (h : Keeps s0 s) : Keeps s0 (State.applyRecord s cells images) := by
  unfold State.applyRecord
  repeat' first
    | with_reducible first
      | assumption | apply State.cellTest_keeps | apply State.applySect_keeps | apply State.memPut_keeps
      | apply State.setBit_keeps | apply State.showModes_keeps | apply State.cfgCollector_keeps | apply State.setFld_keeps
      | apply State.ledgersLoad_keeps | apply State.loadLogs_keeps | apply State.loadTokens_keeps
      | apply State.loadQueues_keeps | apply State.loadClicks_keeps | apply State.checkPairs_keeps | apply State.setProc_keeps
      | apply State.setPhase_keeps | apply State.respOk_keeps | apply State.loadModels_keeps | apply foldl_keeps
      | apply foldl_keeps_fst | intro _ | fail_if_no_progress apply Keeps.mk_ | refine Keeps.ite (fun _ => ?_) (fun _ => ?_)
    | (extract_lets +onlyGivenNames x; apply Keeps.cut (t := x) <;> [subst x; (intro _; clear_value x)])
    | (extract_lets +onlyGivenNames x; subst x)
    | dsimp -zeta only
    | split
    | dsimp only

theorem execConfigRecordApply_keeps {s0 : State} {cells : List (BitVec 17)} {images : List (List Byte)} {s : State}  (h : Keeps s0 s) : OutKeeps s0 (execConfigRecordApply cells images s) := by
  unfold execConfigRecordApply
  repeat' first
    | with_reducible first
      | assumption | apply State.applyRecord_keeps | apply OutKeeps.next | refine OutKeeps.ite (fun _ => ?_) (fun _ => ?_)
      | refine Keeps.ite (fun _ => ?_) (fun _ => ?_)
    | dsimp -zeta only
    | split
    | dsimp only

end Sys2Proof.Machine
end

