-- ==== Sys2Proof/Laws/KeepsEthBase.lean ====
section
/-! SUPPORT. What Machine/EthBase.lean keeps. -/

namespace Sys2Proof.Machine

set_option linter.unusedTactic false
set_option linter.unreachableTactic false

theorem State.chanRx_keeps {s0 : State} {s : State} {c : Nat} {can : Bool} {data : List Byte} {poison : Bool} {port : Nat} {vid : Nat} {stamp : List Byte}  (h : Keeps s0 s) : Keeps s0 (State.chanRx s c can data poison port vid stamp) := by
  unfold State.chanRx
  repeat' first
    | with_reducible first
      | assumption | apply State.bump_keeps | apply State.rdV_keeps | apply State.setQueue_keeps | apply State.post_keeps
      | apply State.wrLong_keeps | fail_if_no_progress apply Keeps.mk_ | refine Keeps.of_fst (by assumption) ?_
      | refine Keeps.ite (fun _ => ?_) (fun _ => ?_)
    | (extract_lets +onlyGivenNames x; apply Keeps.cut (t := x) <;> [subst x; (intro _; clear_value x)])
    | (extract_lets +onlyGivenNames x; subst x)
    | dsimp -zeta only
    | split
    | dsimp only

theorem State.chanTxDone_keeps {s0 : State} {s : State} {c : Nat} {status : Nat} {stamp : List Byte}  (h : Keeps s0 s) : Keeps s0 (State.chanTxDone s c status stamp) := by
  unfold State.chanTxDone
  repeat' first
    | with_reducible first
      | assumption | apply State.rdV_keeps | apply State.wrV_keeps | apply State.setQueue_keeps
      | refine Keeps.of_fst (by assumption) ?_ | refine Keeps.ite (fun _ => ?_) (fun _ => ?_)
    | (extract_lets +onlyGivenNames x; apply Keeps.cut (t := x) <;> [subst x; (intro _; clear_value x)])
    | (extract_lets +onlyGivenNames x; subst x)
    | dsimp -zeta only
    | split
    | dsimp only

end Sys2Proof.Machine
end

