-- ==== Sys2Proof/Laws/KeepsCan.lean ====
section
/-! SUPPORT. What Machine/Can.lean keeps. -/

namespace Sys2Proof.Machine

set_option linter.unusedTactic false
set_option linter.unreachableTactic false

theorem State.canDrop_keeps {s0 : State} {s : State} {n : Nat}  (h : Keeps s0 s) : Keeps s0 (State.canDrop s n) := by
  unfold State.canDrop
  repeat' first
    | with_reducible first
      | assumption | apply State.bump_keeps
    | dsimp -zeta only
    | dsimp only

theorem State.canQueue_keeps {s0 : State} {s : State} {n : Nat} {b : CanBuf}  (h : Keeps s0 s) : Keeps s0 (State.canQueue s n b) := by
  unfold State.canQueue
  repeat' first
    | with_reducible first
      | assumption | apply State.canDrop_keeps | fail_if_no_progress apply Keeps.mk_
      | refine Keeps.ite (fun _ => ?_) (fun _ => ?_)
    | (extract_lets +onlyGivenNames x; apply Keeps.cut (t := x) <;> [subst x; (intro _; clear_value x)])
    | (extract_lets +onlyGivenNames x; subst x)
    | dsimp -zeta only
    | split
    | dsimp only

theorem State.canRoute_keeps {s0 : State} {s : State} {n : Nat} {b : List Byte}  (h : Keeps s0 s) : Keeps s0 (State.canRoute s n b) := by
  unfold State.canRoute
  repeat' first
    | with_reducible first
      | assumption | apply State.canDrop_keeps | apply State.canQueue_keeps | refine Keeps.ite (fun _ => ?_) (fun _ => ?_)
    | dsimp -zeta only
    | split
    | dsimp only

theorem State.acfAdd_keeps {s0 : State} {s : State} {g : Nat} {msg : List Byte}  (h : Keeps s0 s) : Keeps s0 (State.acfAdd s g msg) := by
  unfold State.acfAdd
  repeat' first
    | with_reducible first
      | assumption | fail_if_no_progress apply Keeps.mk_ | refine Keeps.ite (fun _ => ?_) (fun _ => ?_)
    | (extract_lets +onlyGivenNames x; apply Keeps.cut (t := x) <;> [subst x; (intro _; clear_value x)])
    | (extract_lets +onlyGivenNames x; subst x)
    | dsimp -zeta only
    | split
    | dsimp only

theorem State.ntscfIn_keeps {s0 : State} {s : State} {g : Nat} {payload : List Byte}  (h : Keeps s0 s) : Keeps s0 (State.ntscfIn s g payload) := by
  unfold State.ntscfIn
  repeat' first
    | with_reducible first
      | assumption | apply State.canRoute_keeps | apply State.canDrop_keeps | apply foldl_keeps | apply foldl_keeps_fst
      | intro _ | refine Keeps.of_fst (by assumption) ?_ | refine Keeps.ite (fun _ => ?_) (fun _ => ?_)
    | (extract_lets +onlyGivenNames x; apply Keeps.cut (t := x) <;> [subst x; (intro _; clear_value x)])
    | (extract_lets +onlyGivenNames x; subst x)
    | dsimp -zeta only
    | split
    | dsimp only

theorem State.gateway_keeps {s0 : State} {s : State} {n : Nat} {b : List Byte} {stamp : List Byte}  (h : Keeps s0 s) : Keeps s0 (State.gateway s n b stamp) := by
  unfold State.gateway
  repeat' first
    | with_reducible first
      | assumption | apply State.canDrop_keeps | apply State.canRoute_keeps | apply State.acfAdd_keeps
      | apply State.chanRx_keeps | apply foldl_keeps | apply foldl_keeps_fst | intro _
      | refine Keeps.of_fst (by assumption) ?_ | refine Keeps.ite (fun _ => ?_) (fun _ => ?_)
    | (extract_lets +onlyGivenNames x; apply Keeps.cut (t := x) <;> [subst x; (intro _; clear_value x)])
    | (extract_lets +onlyGivenNames x; subst x)
    | dsimp -zeta only
    | split
    | dsimp only

theorem execCanFrameReceive_keeps {s0 : State} {ctrl : Fin 16} {buf : List Byte} {s : State}  (h : Keeps s0 s) : OutKeeps s0 (execCanFrameReceive ctrl buf s) := by
  unfold execCanFrameReceive
  repeat' first
    | with_reducible first
      | assumption | apply State.bump_keeps | apply State.travelCan_keeps | apply State.canDrop_keeps
      | apply State.gateway_keeps | apply State.chanRx_keeps | apply OutKeeps.next | refine Keeps.of_fst (by assumption) ?_
      | refine OutKeeps.ite (fun _ => ?_) (fun _ => ?_) | refine Keeps.ite (fun _ => ?_) (fun _ => ?_)
    | (extract_lets +onlyGivenNames x; apply Keeps.cut (t := x) <;> [subst x; (intro _; clear_value x)])
    | (extract_lets +onlyGivenNames x; subst x)
    | dsimp -zeta only
    | split
    | dsimp only

theorem State.canTec_keeps {s0 : State} {s : State} {n : Nat} {v : Nat}  (h : Keeps s0 s) : Keeps s0 (State.canTec s n v) := by
  unfold State.canTec
  repeat' first
    | with_reducible first
      | assumption | apply State.setFld_keeps | apply State.fault_keeps | refine Keeps.ite (fun _ => ?_) (fun _ => ?_)
    | (extract_lets +onlyGivenNames x; apply Keeps.cut (t := x) <;> [subst x; (intro _; clear_value x)])
    | (extract_lets +onlyGivenNames x; subst x)
    | dsimp -zeta only
    | split
    | dsimp only

theorem execCanFrameTransmit_keeps {s0 : State} {ctrl : Fin 16} {outcome : Fin 3} {s : State}  (h : Keeps s0 s) : OutKeeps s0 (execCanFrameTransmit ctrl outcome s) := by
  unfold execCanFrameTransmit
  repeat' first
    | with_reducible first
      | assumption | apply State.emit_keeps | apply State.canTec_keeps | apply State.bump_keeps | apply State.chanTxDone_keeps
      | apply State.bumpSat_keeps | apply OutKeeps.next | fail_if_no_progress apply Keeps.mk_
      | refine Keeps.of_fst (by assumption) ?_ | refine OutKeeps.ite (fun _ => ?_) (fun _ => ?_)
      | refine Keeps.ite (fun _ => ?_) (fun _ => ?_)
    | (extract_lets +onlyGivenNames x; apply Keeps.cut (t := x) <;> [subst x; (intro _; clear_value x)])
    | (extract_lets +onlyGivenNames x; subst x)
    | dsimp -zeta only
    | split
    | dsimp only

theorem execCanBusOff_keeps {s0 : State} {ctrl : Fin 16} {s : State}  (h : Keeps s0 s) : OutKeeps s0 (execCanBusOff ctrl s) := by
  unfold execCanBusOff
  repeat' first
    | with_reducible first
      | assumption | apply State.fault_keeps | apply State.setFld_keeps | apply OutKeeps.next
      | refine OutKeeps.ite (fun _ => ?_) (fun _ => ?_) | refine Keeps.ite (fun _ => ?_) (fun _ => ?_)
    | (extract_lets +onlyGivenNames x; apply Keeps.cut (t := x) <;> [subst x; (intro _; clear_value x)])
    | (extract_lets +onlyGivenNames x; subst x)
    | dsimp -zeta only
    | split
    | dsimp only

theorem execCanBusOffRecovery_keeps {s0 : State} {ctrl : Fin 16} {s : State}  (h : Keeps s0 s) : OutKeeps s0 (execCanBusOffRecovery ctrl s) := by
  unfold execCanBusOffRecovery
  repeat' first
    | with_reducible first
      | assumption | apply State.setWord_keeps | apply OutKeeps.next | fail_if_no_progress apply Keeps.mk_
      | refine OutKeeps.ite (fun _ => ?_) (fun _ => ?_) | refine Keeps.ite (fun _ => ?_) (fun _ => ?_)
    | (extract_lets +onlyGivenNames x; apply Keeps.cut (t := x) <;> [subst x; (intro _; clear_value x)])
    | (extract_lets +onlyGivenNames x; subst x)
    | dsimp -zeta only
    | split
    | dsimp only

theorem execRecover_keeps {s0 : State} {m : Master} {ctrl : Fin 16} {s : State}  (h : Keeps s0 s) : OutKeeps s0 (execRecover m ctrl s) := by
  unfold execRecover
  repeat' first
    | with_reducible first
      | assumption | apply State.refuse_keeps | apply State.respOk_keeps | apply OutKeeps.next
      | fail_if_no_progress apply Keeps.mk_ | refine OutKeeps.ite (fun _ => ?_) (fun _ => ?_)
      | refine Keeps.ite (fun _ => ?_) (fun _ => ?_)
    | (extract_lets +onlyGivenNames x; apply Keeps.cut (t := x) <;> [subst x; (intro _; clear_value x)])
    | (extract_lets +onlyGivenNames x; subst x)
    | dsimp -zeta only
    | split
    | dsimp only

end Sys2Proof.Machine
end

