-- ==== Sys2Proof/Laws/KeepsEth.lean ====
section
/-! SUPPORT. What Machine/Eth.lean keeps. -/

namespace Sys2Proof.Machine

set_option linter.unusedTactic false
set_option linter.unreachableTactic false

theorem State.setTbl_keeps {s0 : State} {s : State} {b2 : Nat} {i : Nat} {l : List Byte}  (h : Keeps s0 s) : Keeps s0 (State.setTbl s b2 i l) := by
  unfold State.setTbl
  repeat' first
    | with_reducible first
      | assumption | fail_if_no_progress apply Keeps.mk_
    | (extract_lets +onlyGivenNames x; apply Keeps.cut (t := x) <;> [subst x; (intro _; clear_value x)])
    | (extract_lets +onlyGivenNames x; subst x)
    | dsimp -zeta only
    | dsimp only

theorem State.fdbLearn_keeps {s0 : State} {s : State} {mac : Nat} {vid : Nat} {port : Nat}  (h : Keeps s0 s) : Keeps s0 (State.fdbLearn s mac vid port) := by
  unfold State.fdbLearn
  repeat' first
    | with_reducible first
      | assumption | apply State.setTbl_keeps | refine Keeps.of_fst (by assumption) ?_
      | refine Keeps.ite (fun _ => ?_) (fun _ => ?_)
    | (extract_lets +onlyGivenNames x; apply Keeps.cut (t := x) <;> [subst x; (intro _; clear_value x)])
    | (extract_lets +onlyGivenNames x; subst x)
    | dsimp -zeta only
    | split
    | dsimp only

theorem State.toHost_keeps {s0 : State} {s : State} {f : List Byte} {poison : Bool} {ingress : Nat} {stamp : List Byte}  (h : Keeps s0 s) : Keeps s0 (State.toHost s f poison ingress stamp) := by
  unfold State.toHost
  repeat' first
    | with_reducible first
      | assumption | apply State.chanRx_keeps | apply State.bump_keeps | refine Keeps.of_fst (by assumption) ?_
    | (extract_lets +onlyGivenNames x; apply Keeps.cut (t := x) <;> [subst x; (intro _; clear_value x)])
    | (extract_lets +onlyGivenNames x; subst x)
    | dsimp -zeta only
    | split
    | dsimp only

theorem State.ethForward_keeps {s0 : State} {s : State} {ports : Nat} {fr : EthFrame}  (h : Keeps s0 s) : Keeps s0 (State.ethForward s ports fr) := by
  unfold State.ethForward
  repeat' first
    | with_reducible first
      | assumption | apply State.toHost_keeps | apply State.bump_keeps | apply State.ethEnqueue_keeps | apply foldl_keeps
      | apply foldl_keeps_fst | intro _ | refine Keeps.ite (fun _ => ?_) (fun _ => ?_)
    | (extract_lets +onlyGivenNames x; apply Keeps.cut (t := x) <;> [subst x; (intro _; clear_value x)])
    | (extract_lets +onlyGivenNames x; subst x)
    | dsimp -zeta only
    | split
    | dsimp only

theorem State.ethLearn_keeps {s0 : State} {s : State} {f : List Byte} {ingress : Nat}  (h : Keeps s0 s) : Keeps s0 (State.ethLearn s f ingress) := by
  unfold State.ethLearn
  repeat' first
    | with_reducible first
      | assumption | apply State.fdbLearn_keeps | refine Keeps.ite (fun _ => ?_) (fun _ => ?_)
    | dsimp -zeta only
    | split
    | dsimp only

theorem State.ethSwitch_keeps {s0 : State} {s : State} {fr : EthFrame}  (h : Keeps s0 s) : Keeps s0 (State.ethSwitch s fr) := by
  unfold State.ethSwitch
  repeat' first
    | with_reducible first
      | assumption | apply State.ethForward_keeps | apply State.ethLearn_keeps
    | dsimp -zeta only
    | dsimp only

theorem State.flowGive_keeps {s0 : State} {s : State} {flow : Nat} {f : List Byte}  (h : Keeps s0 s) : Keeps s0 (State.flowGive s flow f) := by
  unfold State.flowGive
  repeat' first
    | with_reducible first
      | assumption | apply State.orWord_keeps | apply State.bump_keeps | fail_if_no_progress apply Keeps.mk_
      | refine Keeps.ite (fun _ => ?_) (fun _ => ?_)
    | (extract_lets +onlyGivenNames x; apply Keeps.cut (t := x) <;> [subst x; (intro _; clear_value x)])
    | (extract_lets +onlyGivenNames x; subst x)
    | dsimp -zeta only
    | split
    | dsimp only

theorem State.ethIngress_keeps {s0 : State} {s : State} {mac : Nat} {f : List Byte} {poison : Bool} {pass : Bool}  (h : Keeps s0 s) : Keeps s0 (State.ethIngress s mac f poison pass) := by
  unfold State.ethIngress
  repeat' first
    | with_reducible first
      | assumption | apply State.ethEnqueue_keeps | apply State.ntscfIn_keeps | apply State.ethSwitch_keeps
      | apply State.flowGive_keeps | refine Keeps.of_fst (by assumption) ?_ | refine Keeps.ite (fun _ => ?_) (fun _ => ?_)
    | (extract_lets +onlyGivenNames x; apply Keeps.cut (t := x) <;> [subst x; (intro _; clear_value x)])
    | (extract_lets +onlyGivenNames x; subst x)
    | dsimp -zeta only
    | split
    | dsimp only

theorem execEthFrameReceive_keeps {s0 : State} {mac : Fin 16} {frame : List Byte} {secOk : Bool} {pass : Bool} {s : State}  (h : Keeps s0 s) : OutKeeps s0 (execEthFrameReceive mac frame secOk pass s) := by
  unfold execEthFrameReceive
  repeat' first
    | with_reducible first
      | assumption | apply State.bump_keeps | apply State.ethIngress_keeps | apply OutKeeps.next
      | refine OutKeeps.ite (fun _ => ?_) (fun _ => ?_) | refine Keeps.ite (fun _ => ?_) (fun _ => ?_)
    | (extract_lets +onlyGivenNames x; apply Keeps.cut (t := x) <;> [subst x; (intro _; clear_value x)])
    | (extract_lets +onlyGivenNames x; subst x)
    | dsimp -zeta only
    | split
    | dsimp only

theorem State.syncTxts_keeps {s0 : State} {s : State} {port : Nat}  (h : Keeps s0 s) : Keeps s0 (State.syncTxts s port) := by
  unfold State.syncTxts
  repeat' first
    | with_reducible first
      | assumption | apply State.setRegBytes_keeps
    | dsimp -zeta only
    | dsimp only

theorem State.pushTxts_keeps {s0 : State} {s : State} {port : Nat} {stamp : List Byte} {f : List Byte} {o : Nat}  (h : Keeps s0 s) : Keeps s0 (State.pushTxts s port stamp f o) := by
  unfold State.pushTxts
  repeat' first
    | with_reducible first
      | assumption | apply State.orWord_keeps | apply State.bump_keeps | apply State.syncTxts_keeps
      | fail_if_no_progress apply Keeps.mk_ | refine Keeps.ite (fun _ => ?_) (fun _ => ?_)
    | (extract_lets +onlyGivenNames x; apply Keeps.cut (t := x) <;> [subst x; (intro _; clear_value x)])
    | (extract_lets +onlyGivenNames x; subst x)
    | dsimp -zeta only
    | split
    | dsimp only

theorem State.macsecFrame_keeps {s0 : State} {s : State} {port : Nat} {f : List Byte}  (h : Keeps s0 s) : Keeps s0 (State.macsecFrame s port f).2 := by
  unfold State.macsecFrame
  repeat' first
    | with_reducible first
      | assumption | apply State.freeBytes_keeps | fail_if_no_progress apply Keeps.mk_
      | refine Keeps.of_fst (by assumption) ?_ | refine Keeps.of_snd (by assumption) ?_
    | (extract_lets +onlyGivenNames x; apply Keeps.cut (t := x) <;> [subst x; (intro _; clear_value x)])
    | (extract_lets +onlyGivenNames x; subst x)
    | dsimp -zeta only
    | split
    | dsimp only

theorem State.ethSend_keeps {s0 : State} {s : State} {port : Nat} {fr : EthFrame}  (h : Keeps s0 s) : Keeps s0 (State.ethSend s port fr) := by
  unfold State.ethSend
  repeat' first
    | with_reducible first
      | assumption | apply State.orWord_keeps | apply State.bump_keeps | apply State.chanTxDone_keeps
      | apply State.pushTxts_keeps | apply State.macsecFrame_keeps | apply State.emit_keeps
      | refine Keeps.of_fst (by assumption) ?_ | refine Keeps.of_snd (by assumption) ?_
      | refine Keeps.ite (fun _ => ?_) (fun _ => ?_)
    | (extract_lets +onlyGivenNames x; apply Keeps.cut (t := x) <;> [subst x; (intro _; clear_value x)])
    | (extract_lets +onlyGivenNames x; subst x)
    | dsimp -zeta only
    | split
    | dsimp only

theorem State.ethPop_keeps {s0 : State} {s : State} {port : Nat} {cls : Nat}  (h : Keeps s0 s) : Keeps s0 (State.ethPop s port cls) := by
  unfold State.ethPop
  repeat' first
    | with_reducible first
      | assumption | fail_if_no_progress apply Keeps.mk_
    | (extract_lets +onlyGivenNames x; apply Keeps.cut (t := x) <;> [subst x; (intro _; clear_value x)])
    | (extract_lets +onlyGivenNames x; subst x)
    | dsimp -zeta only
    | dsimp only

theorem execEthFrameTransmit_keeps {s0 : State} {port : Fin 18} {cls : Fin 8} {preempted : Bool} {s : State}  (h : Keeps s0 s) : OutKeeps s0 (execEthFrameTransmit port cls preempted s) := by
  unfold execEthFrameTransmit
  repeat' first
    | with_reducible first
      | assumption | apply State.ethPop_keeps | apply State.bump_keeps | apply State.chanTxDone_keeps
      | apply State.ethSend_keeps | apply OutKeeps.next | refine Keeps.of_fst (by assumption) ?_
      | refine OutKeeps.ite (fun _ => ?_) (fun _ => ?_) | refine Keeps.ite (fun _ => ?_) (fun _ => ?_)
    | (extract_lets +onlyGivenNames x; apply Keeps.cut (t := x) <;> [subst x; (intro _; clear_value x)])
    | (extract_lets +onlyGivenNames x; subst x)
    | dsimp -zeta only
    | split
    | dsimp only

theorem execHostChannelTx_keeps {s0 : State} {chan : Fin 64} {s : State}  (h : Keeps s0 s) : OutKeeps s0 (execHostChannelTx chan s) := by
  unfold execHostChannelTx
  repeat' first
    | with_reducible first
      | assumption | apply State.rdV_keeps | apply State.chanTxDone_keeps | apply State.rdLong_keeps
      | apply State.canDrop_keeps | apply State.ethSwitch_keeps | apply State.ethForward_keeps | apply State.ethLearn_keeps
      | apply State.ethEnqueue_keeps | apply OutKeeps.next | fail_if_no_progress apply Keeps.mk_
      | refine Keeps.of_fst (by assumption) ?_ | refine OutKeeps.ite (fun _ => ?_) (fun _ => ?_)
      | refine Keeps.ite (fun _ => ?_) (fun _ => ?_)
    | (extract_lets +onlyGivenNames x; apply Keeps.cut (t := x) <;> [subst x; (intro _; clear_value x)])
    | (extract_lets +onlyGivenNames x; subst x)
    | dsimp -zeta only
    | split
    | dsimp only

theorem execGateIntervalExpire_keeps {s0 : State} {port : Fin 14} {s : State}  (h : Keeps s0 s) : OutKeeps s0 (execGateIntervalExpire port s) := by
  unfold execGateIntervalExpire
  repeat' first
    | with_reducible first
      | assumption | apply State.gateFollow_keeps | apply OutKeeps.next | refine OutKeeps.ite (fun _ => ?_) (fun _ => ?_)
      | refine Keeps.ite (fun _ => ?_) (fun _ => ?_)
    | dsimp -zeta only
    | split
    | dsimp only

theorem execGclSwap_keeps {s0 : State} {m : Master} {port : Fin 14} {s : State}  (h : Keeps s0 s) : OutKeeps s0 (execGclSwap m port s) := by
  unfold execGclSwap
  repeat' first
    | with_reducible first
      | assumption | apply State.refuse_keeps | apply State.respOk_keeps | apply State.setBit_keeps | apply OutKeeps.next
      | fail_if_no_progress apply Keeps.mk_ | refine OutKeeps.ite (fun _ => ?_) (fun _ => ?_)
      | refine Keeps.ite (fun _ => ?_) (fun _ => ?_)
    | (extract_lets +onlyGivenNames x; apply Keeps.cut (t := x) <;> [subst x; (intro _; clear_value x)])
    | (extract_lets +onlyGivenNames x; subst x)
    | dsimp -zeta only
    | split
    | dsimp only

theorem execGclSwapApply_keeps {s0 : State} {port : Fin 14} {s : State}  (h : Keeps s0 s) : OutKeeps s0 (execGclSwapApply port s) := by
  unfold execGclSwapApply
  repeat' first
    | with_reducible first
      | assumption | apply State.gateFollow_keeps | apply State.setBit_keeps | apply OutKeeps.next
      | fail_if_no_progress apply Keeps.mk_ | refine Keeps.of_fst (by assumption) ?_
      | refine OutKeeps.ite (fun _ => ?_) (fun _ => ?_) | refine Keeps.ite (fun _ => ?_) (fun _ => ?_)
    | (extract_lets +onlyGivenNames x; apply Keeps.cut (t := x) <;> [subst x; (intro _; clear_value x)])
    | (extract_lets +onlyGivenNames x; subst x)
    | dsimp -zeta only
    | split
    | dsimp only

theorem execEthPortTxtsRead_keeps {s0 : State} {m : Master} {port : Fin 16} {wide : Bool} {s : State}  (h : Keeps s0 s) : OutKeeps s0 (execEthPortTxtsRead m port wide s) := by
  unfold execEthPortTxtsRead
  repeat' first
    | with_reducible first
      | assumption | apply State.refuse_keeps | apply State.respOk_keeps | apply State.syncTxts_keeps | apply OutKeeps.next
      | apply foldl_keeps | apply foldl_keeps_fst | intro _ | fail_if_no_progress apply Keeps.mk_
      | refine OutKeeps.ite (fun _ => ?_) (fun _ => ?_) | refine Keeps.ite (fun _ => ?_) (fun _ => ?_)
    | (extract_lets +onlyGivenNames x; apply Keeps.cut (t := x) <;> [subst x; (intro _; clear_value x)])
    | (extract_lets +onlyGivenNames x; subst x)
    | dsimp -zeta only
    | split
    | dsimp only

theorem execEthLinkChange_keeps {s0 : State} {mac : Fin 16} {up : Bool} {s : State}  (h : Keeps s0 s) : OutKeeps s0 (execEthLinkChange mac up s) := by
  unfold execEthLinkChange
  repeat' first
    | with_reducible first
      | assumption | apply State.orWord_keeps | apply State.setBit_keeps | apply State.setFld_keeps | apply State.bump_keeps
      | apply State.chanTxDone_keeps | apply OutKeeps.next | apply foldl_keeps | apply foldl_keeps_fst | intro _
      | fail_if_no_progress apply Keeps.mk_ | refine OutKeeps.ite (fun _ => ?_) (fun _ => ?_)
      | refine Keeps.ite (fun _ => ?_) (fun _ => ?_)
    | (extract_lets +onlyGivenNames x; apply Keeps.cut (t := x) <;> [subst x; (intro _; clear_value x)])
    | (extract_lets +onlyGivenNames x; subst x)
    | dsimp -zeta only
    | split
    | dsimp only

theorem execMdioGo_keeps {s0 : State} {m : Master} {v : BitVec 32} {s : State}  (h : Keeps s0 s) : OutKeeps s0 (execMdioGo m v s) := by
  unfold execMdioGo
  repeat' first
    | with_reducible first
      | assumption | apply State.refuse_keeps | apply State.respOk_keeps | apply State.setWord_keeps | apply State.emit_keeps
      | apply OutKeeps.next | fail_if_no_progress apply Keeps.mk_ | refine OutKeeps.ite (fun _ => ?_) (fun _ => ?_)
      | refine Keeps.ite (fun _ => ?_) (fun _ => ?_)
    | (extract_lets +onlyGivenNames x; apply Keeps.cut (t := x) <;> [subst x; (intro _; clear_value x)])
    | (extract_lets +onlyGivenNames x; subst x)
    | dsimp -zeta only
    | split
    | dsimp only

theorem execMdioAccessDone_keeps {s0 : State} {data : BitVec 16} {s : State}  (h : Keeps s0 s) : OutKeeps s0 (execMdioAccessDone data s) := by
  unfold execMdioAccessDone
  repeat' first
    | with_reducible first
      | assumption | apply State.setFld_keeps | apply State.setBit_keeps | apply OutKeeps.next
      | fail_if_no_progress apply Keeps.mk_ | refine OutKeeps.ite (fun _ => ?_) (fun _ => ?_)
      | refine Keeps.ite (fun _ => ?_) (fun _ => ?_)
    | (extract_lets +onlyGivenNames x; apply Keeps.cut (t := x) <;> [subst x; (intro _; clear_value x)])
    | (extract_lets +onlyGivenNames x; subst x)
    | dsimp -zeta only
    | split
    | dsimp only

theorem execEthTblGo_keeps {s0 : State} {m : Master} {table : Fin 16} {index : BitVec 16} {s : State}  (h : Keeps s0 s) : OutKeeps s0 (execEthTblGo m table index s) := by
  unfold execEthTblGo
  repeat' first
    | with_reducible first
      | assumption | apply State.refuse_keeps | apply State.respOk_keeps | apply State.setWord_keeps
      | apply State.orWord_keeps | apply State.setRegBytes_keeps | apply State.fault_keeps | apply State.setTbl_keeps
      | apply OutKeeps.next | refine OutKeeps.ite (fun _ => ?_) (fun _ => ?_) | refine Keeps.ite (fun _ => ?_) (fun _ => ?_)
    | (extract_lets +onlyGivenNames x; apply Keeps.cut (t := x) <;> [subst x; (intro _; clear_value x)])
    | (extract_lets +onlyGivenNames x; subst x)
    | dsimp -zeta only
    | split
    | dsimp only

theorem execNtscfFrameSend_keeps {s0 : State} {stream : Fin 64} {s : State}  (h : Keeps s0 s) : OutKeeps s0 (execNtscfFrameSend stream s) := by
  unfold execNtscfFrameSend
  repeat' first
    | with_reducible first
      | assumption | apply State.timeTo_keeps | apply State.takeFree_keeps | apply State.ethSwitch_keeps | apply OutKeeps.next
      | fail_if_no_progress apply Keeps.mk_ | refine Keeps.of_fst (by assumption) ?_ | refine Keeps.of_snd (by assumption) ?_
      | refine OutKeeps.ite (fun _ => ?_) (fun _ => ?_) | refine Keeps.ite (fun _ => ?_) (fun _ => ?_)
    | (extract_lets +onlyGivenNames x; apply Keeps.cut (t := x) <;> [subst x; (intro _; clear_value x)])
    | (extract_lets +onlyGivenNames x; subst x)
    | dsimp -zeta only
    | split
    | dsimp only

end Sys2Proof.Machine
end

