-- ==== Sys2Proof/Laws/KeepsFwpCmd.lean ====
section
/-! SUPPORT. What Machine/FwpCmd.lean keeps. -/

namespace Sys2Proof.Machine

set_option linter.unusedTactic false
set_option linter.unreachableTactic false

theorem State.ansRefusedOpen_keeps {s0 : State} {s : State}  (h : Keeps s0 s) : Keeps s0 (State.ansRefusedOpen s).1 := by
  unfold State.ansRefusedOpen
  repeat' first
    | with_reducible first
      | assumption | apply State.takeFree_keeps | refine Keeps.of_fst (by assumption) ?_
      | refine Keeps.of_snd (by assumption) ?_
    | dsimp -zeta only
    | split
    | dsimp only

theorem State.mbxPerformed_keeps {s0 : State} {s : State} {b : Nat} {b3 : MbxMsg}  (h : Keeps s0 s) : Keeps s0 (State.mbxPerformed s b b3) := by
  unfold State.mbxPerformed
  repeat' first
    | with_reducible first
      | assumption | fail_if_no_progress apply Keeps.mk_ | refine Keeps.of_fst (by assumption) ?_
    | (extract_lets +onlyGivenNames x; apply Keeps.cut (t := x) <;> [subst x; (intro _; clear_value x)])
    | (extract_lets +onlyGivenNames x; subst x)
    | dsimp -zeta only
    | split
    | dsimp only

theorem State.mbxRun_keeps {s0 : State} {s : State} {b : Nat} {id : Nat} {perm : Option Nat} {f : State → State × MbxMsg} (hf : ∀ s, Keeps s0 s → Keeps s0 (f s).1) (h : Keeps s0 s) : OutKeeps s0 (State.mbxRun s b id perm f) := by
  unfold State.mbxRun
  repeat' first
    | with_reducible first
      | assumption | apply hf | apply State.mbxPerformed_keeps | apply OutKeeps.next | refine Keeps.of_fst (by assumption) ?_
      | refine OutKeeps.ite (fun _ => ?_) (fun _ => ?_) | refine Keeps.ite (fun _ => ?_) (fun _ => ?_)
    | (extract_lets +onlyGivenNames x; apply Keeps.cut (t := x) <;> [subst x; (intro _; clear_value x)])
    | (extract_lets +onlyGivenNames x; subst x)
    | dsimp -zeta only
    | split
    | dsimp only

theorem State.hello_keeps {s0 : State} {s : State} {b : Nat}  (h : Keeps s0 s) : Keeps s0 (State.hello s b).1 := by
  unfold State.hello
  repeat' first
    | with_reducible first
      | assumption | apply State.minorFor_keeps | apply State.setWord_keeps | apply State.setWord64_keeps
      | refine Keeps.of_fst (by assumption) ?_ | refine Keeps.of_snd (by assumption) ?_
    | (extract_lets +onlyGivenNames x; apply Keeps.cut (t := x) <;> [subst x; (intro _; clear_value x)])
    | (extract_lets +onlyGivenNames x; subst x)
    | dsimp -zeta only
    | split
    | dsimp only

theorem execHello_keeps {s0 : State} {mbx : Fin 64} {s : State}  (h : Keeps s0 s) : OutKeeps s0 (execHello mbx s) := by
  unfold execHello
  repeat' first
    | with_reducible first
      | assumption | apply State.mbxRun_keeps | apply State.hello_keeps | apply OutKeeps.next | intro _
    | dsimp -zeta only
    | dsimp only

theorem execGetInfo_keeps {s0 : State} {mbx : Fin 64} {s : State}  (h : Keeps s0 s) : OutKeeps s0 (execGetInfo mbx s) := by
  unfold execGetInfo
  repeat' first
    | with_reducible first
      | assumption | apply State.mbxRun_keeps | apply OutKeeps.next | intro _
    | dsimp -zeta only
    | dsimp only

theorem State.imageWrite_keeps {s0 : State} {s : State} {b : Nat}  (h : Keeps s0 s) : Keeps s0 (State.imageWrite s b).1 := by
  unfold State.imageWrite
  repeat' first
    | with_reducible first
      | assumption | apply State.ctlMark_keeps | apply State.flashPut_keeps | refine Keeps.of_fst (by assumption) ?_
      | refine Keeps.ite1 (fun _ => ?_) (fun _ => ?_) | refine Keeps.ite (fun _ => ?_) (fun _ => ?_)
    | (extract_lets +onlyGivenNames x; apply Keeps.cut (t := x) <;> [subst x; (intro _; clear_value x)])
    | (extract_lets +onlyGivenNames x; subst x)
    | dsimp -zeta only
    | split
    | dsimp only

theorem execImageWrite_keeps {s0 : State} {mbx : Fin 64} {s : State}  (h : Keeps s0 s) : OutKeeps s0 (execImageWrite mbx s) := by
  unfold execImageWrite
  repeat' first
    | with_reducible first
      | assumption | apply State.mbxRun_keeps | apply State.imageWrite_keeps | apply OutKeeps.next | intro _
    | dsimp -zeta only
    | dsimp only

theorem State.imageCommit_keeps {s0 : State} {s : State} {b : Nat}  (h : Keeps s0 s) : Keeps s0 (State.imageCommit s b).1 := by
  unfold State.imageCommit
  repeat' first
    | with_reducible first
      | assumption | apply State.ctlWrite_keeps | refine Keeps.ite1 (fun _ => ?_) (fun _ => ?_)
      | refine Keeps.ite (fun _ => ?_) (fun _ => ?_)
    | (extract_lets +onlyGivenNames x; apply Keeps.cut (t := x) <;> [subst x; (intro _; clear_value x)])
    | (extract_lets +onlyGivenNames x; subst x)
    | dsimp -zeta only
    | split
    | dsimp only

theorem execImageCommit_keeps {s0 : State} {mbx : Fin 64} {s : State}  (h : Keeps s0 s) : OutKeeps s0 (execImageCommit mbx s) := by
  unfold execImageCommit
  repeat' first
    | with_reducible first
      | assumption | apply State.mbxRun_keeps | apply State.imageCommit_keeps | apply OutKeeps.next | intro _
    | dsimp -zeta only
    | dsimp only

theorem State.raiseFloor_keeps {s0 : State} {s : State} {a2 : Nat}  (h : Keeps s0 s) : Keeps s0 (State.raiseFloor s a2) := by
  revert h
  fun_induction State.raiseFloor s a2
  all_goals intro h
  all_goals repeat' first
    | with_reducible first
      | assumption | apply State.blow_keeps | refine Keeps.of_fst (by assumption) ?_
      | refine Keeps.ite (fun _ => ?_) (fun _ => ?_)
    | with_reducible apply_assumption
    | dsimp -zeta only
    | split
    | dsimp only

theorem State.imageConfirm_keeps {s0 : State} {s : State}  (h : Keeps s0 s) : Keeps s0 (State.imageConfirm s).1 := by
  unfold State.imageConfirm
  repeat' first
    | with_reducible first
      | assumption | apply State.ansRefusedOpen_keeps | apply State.ctlMark_keeps | apply State.raiseFloor_keeps
      | apply State.setBit_keeps | refine Keeps.of_fst (by assumption) ?_ | refine Keeps.ite1 (fun _ => ?_) (fun _ => ?_)
      | refine Keeps.ite (fun _ => ?_) (fun _ => ?_)
    | (extract_lets +onlyGivenNames x; apply Keeps.cut (t := x) <;> [subst x; (intro _; clear_value x)])
    | (extract_lets +onlyGivenNames x; subst x)
    | dsimp -zeta only
    | split
    | dsimp only

theorem execImageConfirm_keeps {s0 : State} {mbx : Fin 64} {s : State}  (h : Keeps s0 s) : OutKeeps s0 (execImageConfirm mbx s) := by
  unfold execImageConfirm
  repeat' first
    | with_reducible first
      | assumption | apply State.mbxRun_keeps | apply State.imageConfirm_keeps | apply OutKeeps.next | intro _
    | dsimp -zeta only
    | dsimp only

theorem State.fwpRestart_keeps {s0 : State} {s : State} {b : Nat}  (h : Keeps s0 s) : Keeps s0 (State.fwpRestart s b).1 := by
  unfold State.fwpRestart
  repeat' first
    | with_reducible first
      | assumption | apply State.procDie_keeps | refine Keeps.ite1 (fun _ => ?_) (fun _ => ?_)
      | refine Keeps.ite (fun _ => ?_) (fun _ => ?_)
    | (extract_lets +onlyGivenNames x; apply Keeps.cut (t := x) <;> [subst x; (intro _; clear_value x)])
    | (extract_lets +onlyGivenNames x; subst x)
    | dsimp -zeta only
    | split
    | dsimp only

theorem execFwpRestart_keeps {s0 : State} {mbx : Fin 64} {s : State}  (h : Keeps s0 s) : OutKeeps s0 (execFwpRestart mbx s) := by
  unfold execFwpRestart
  repeat' first
    | with_reducible first
      | assumption | apply State.mbxRun_keeps | apply State.fwpRestart_keeps | apply OutKeeps.next | intro _
    | dsimp -zeta only
    | dsimp only

theorem execLogRead_keeps {s0 : State} {mbx : Fin 64} {s : State}  (h : Keeps s0 s) : OutKeeps s0 (execLogRead mbx s) := by
  unfold execLogRead
  repeat' first
    | with_reducible first
      | assumption | apply State.mbxRun_keeps | apply OutKeeps.next | intro _
    | dsimp -zeta only
    | dsimp only

theorem State.traceSet_keeps {s0 : State} {s : State} {b : Nat}  (h : Keeps s0 s) : Keeps s0 (State.traceSet s b).1 := by
  unfold State.traceSet
  repeat' first
    | with_reducible first
      | assumption | apply State.setRegBytes_keeps | refine Keeps.ite1 (fun _ => ?_) (fun _ => ?_)
      | refine Keeps.ite (fun _ => ?_) (fun _ => ?_)
    | (extract_lets +onlyGivenNames x; apply Keeps.cut (t := x) <;> [subst x; (intro _; clear_value x)])
    | (extract_lets +onlyGivenNames x; subst x)
    | dsimp -zeta only
    | split
    | dsimp only

theorem execTraceSet_keeps {s0 : State} {mbx : Fin 64} {s : State}  (h : Keeps s0 s) : OutKeeps s0 (execTraceSet mbx s) := by
  unfold execTraceSet
  repeat' first
    | with_reducible first
      | assumption | apply State.mbxRun_keeps | apply State.traceSet_keeps | apply OutKeeps.next | intro _
    | dsimp -zeta only
    | dsimp only

theorem State.profileSet_keeps {s0 : State} {s : State} {b : Nat}  (h : Keeps s0 s) : Keeps s0 (State.profileSet s b).1 := by
  unfold State.profileSet
  repeat' first
    | with_reducible first
      | assumption | apply State.profReq_keeps | refine Keeps.ite1 (fun _ => ?_) (fun _ => ?_)
      | refine Keeps.ite (fun _ => ?_) (fun _ => ?_)
    | (extract_lets +onlyGivenNames x; apply Keeps.cut (t := x) <;> [subst x; (intro _; clear_value x)])
    | (extract_lets +onlyGivenNames x; subst x)
    | dsimp -zeta only
    | split
    | dsimp only

theorem execProfileSet_keeps {s0 : State} {mbx : Fin 64} {s : State}  (h : Keeps s0 s) : OutKeeps s0 (execProfileSet mbx s) := by
  unfold execProfileSet
  repeat' first
    | with_reducible first
      | assumption | apply State.mbxRun_keeps | apply State.profileSet_keeps | apply OutKeeps.next | intro _
    | dsimp -zeta only
    | dsimp only

theorem execProfileGet_keeps {s0 : State} {mbx : Fin 64} {s : State}  (h : Keeps s0 s) : OutKeeps s0 (execProfileGet mbx s) := by
  unfold execProfileGet
  repeat' first
    | with_reducible first
      | assumption | apply State.mbxRun_keeps | apply OutKeeps.next | intro _
    | dsimp -zeta only
    | dsimp only

theorem State.clickSet_keeps {s0 : State} {s : State} {b : Nat}  (h : Keeps s0 s) : Keeps s0 (State.clickSet s b).1 := by
  unfold State.clickSet
  repeat' first
    | with_reducible first
      | assumption | apply State.clickCfg_keeps | refine Keeps.ite1 (fun _ => ?_) (fun _ => ?_)
      | refine Keeps.ite (fun _ => ?_) (fun _ => ?_)
    | (extract_lets +onlyGivenNames x; apply Keeps.cut (t := x) <;> [subst x; (intro _; clear_value x)])
    | (extract_lets +onlyGivenNames x; subst x)
    | dsimp -zeta only
    | split
    | dsimp only

theorem execClickSet_keeps {s0 : State} {mbx : Fin 64} {s : State}  (h : Keeps s0 s) : OutKeeps s0 (execClickSet mbx s) := by
  unfold execClickSet
  repeat' first
    | with_reducible first
      | assumption | apply State.mbxRun_keeps | apply State.clickSet_keeps | apply OutKeeps.next | intro _
    | dsimp -zeta only
    | dsimp only

theorem State.slotSet_keeps {s0 : State} {s : State} {b : Nat}  (h : Keeps s0 s) : Keeps s0 (State.slotSet s b).1 := by
  unfold State.slotSet
  repeat' first
    | with_reducible first
      | assumption | apply State.setFld_keeps | apply State.setWord64_keeps | apply State.setWord_keeps
      | refine Keeps.of_fst (by assumption) ?_ | refine Keeps.ite1 (fun _ => ?_) (fun _ => ?_)
      | refine Keeps.ite (fun _ => ?_) (fun _ => ?_)
    | (extract_lets +onlyGivenNames x; apply Keeps.cut (t := x) <;> [subst x; (intro _; clear_value x)])
    | (extract_lets +onlyGivenNames x; subst x)
    | dsimp -zeta only
    | split
    | dsimp only

theorem execSlotSet_keeps {s0 : State} {mbx : Fin 64} {s : State}  (h : Keeps s0 s) : OutKeeps s0 (execSlotSet mbx s) := by
  unfold execSlotSet
  repeat' first
    | with_reducible first
      | assumption | apply State.mbxRun_keeps | apply State.slotSet_keeps | apply OutKeeps.next | intro _
    | dsimp -zeta only
    | dsimp only

theorem State.queueCtrl_keeps {s0 : State} {s : State} {b : Nat}  (h : Keeps s0 s) : Keeps s0 (State.queueCtrl s b).1 := by
  unfold State.queueCtrl
  repeat' first
    | with_reducible first
      | assumption | apply State.memPut_keeps | apply State.qcmd_keeps | apply State.ansRefusedOpen_keeps
      | refine Keeps.of_fst (by assumption) ?_ | refine Keeps.ite1 (fun _ => ?_) (fun _ => ?_)
      | refine Keeps.ite (fun _ => ?_) (fun _ => ?_)
    | (extract_lets +onlyGivenNames x; apply Keeps.cut (t := x) <;> [subst x; (intro _; clear_value x)])
    | (extract_lets +onlyGivenNames x; subst x)
    | dsimp -zeta only
    | split
    | dsimp only

theorem execQueueCtrl_keeps {s0 : State} {mbx : Fin 64} {s : State}  (h : Keeps s0 s) : OutKeeps s0 (execQueueCtrl mbx s) := by
  unfold execQueueCtrl
  repeat' first
    | with_reducible first
      | assumption | apply State.mbxRun_keeps | apply State.queueCtrl_keeps | apply OutKeeps.next | intro _
    | dsimp -zeta only
    | dsimp only

theorem State.s2Set_keeps {s0 : State} {s : State} {b : Nat}  (h : Keeps s0 s) : Keeps s0 (State.s2Set s b).1 := by
  unfold State.s2Set
  repeat' first
    | with_reducible first
      | assumption | apply State.setWord64_keeps | refine Keeps.ite1 (fun _ => ?_) (fun _ => ?_)
      | refine Keeps.ite (fun _ => ?_) (fun _ => ?_)
    | (extract_lets +onlyGivenNames x; apply Keeps.cut (t := x) <;> [subst x; (intro _; clear_value x)])
    | (extract_lets +onlyGivenNames x; subst x)
    | dsimp -zeta only
    | split
    | dsimp only

theorem execS2Set_keeps {s0 : State} {mbx : Fin 64} {s : State}  (h : Keeps s0 s) : OutKeeps s0 (execS2Set mbx s) := by
  unfold execS2Set
  repeat' first
    | with_reducible first
      | assumption | apply State.mbxRun_keeps | apply State.s2Set_keeps | apply OutKeeps.next | intro _
    | dsimp -zeta only
    | dsimp only

theorem State.instanceCtrl_keeps {s0 : State} {s : State} {b : Nat}  (h : Keeps s0 s) : Keeps s0 (State.instanceCtrl s b).1 := by
  unfold State.instanceCtrl
  repeat' first
    | with_reducible first
      | assumption | apply State.ansRefusedOpen_keeps | apply State.instReset_keeps | apply State.instAdd_keeps
      | refine Keeps.ite1 (fun _ => ?_) (fun _ => ?_) | refine Keeps.ite (fun _ => ?_) (fun _ => ?_)
    | (extract_lets +onlyGivenNames x; apply Keeps.cut (t := x) <;> [subst x; (intro _; clear_value x)])
    | (extract_lets +onlyGivenNames x; subst x)
    | dsimp -zeta only
    | split
    | dsimp only

theorem execInstanceCtrl_keeps {s0 : State} {mbx : Fin 64} {s : State}  (h : Keeps s0 s) : OutKeeps s0 (execInstanceCtrl mbx s) := by
  unfold execInstanceCtrl
  repeat' first
    | with_reducible first
      | assumption | apply State.mbxRun_keeps | apply State.instanceCtrl_keeps | apply OutKeeps.next | intro _
    | dsimp -zeta only
    | dsimp only

theorem State.ptpStepCmd_keeps {s0 : State} {s : State} {b : Nat}  (h : Keeps s0 s) : Keeps s0 (State.ptpStepCmd s b).1 := by
  unfold State.ptpStepCmd
  repeat' first
    | with_reducible first
      | assumption | apply State.ptpAccept_keeps | apply State.ptpReject_keeps | apply State.ansRefusedOpen_keeps
      | refine Keeps.ite1 (fun _ => ?_) (fun _ => ?_) | refine Keeps.ite (fun _ => ?_) (fun _ => ?_)
    | (extract_lets +onlyGivenNames x; apply Keeps.cut (t := x) <;> [subst x; (intro _; clear_value x)])
    | (extract_lets +onlyGivenNames x; subst x)
    | dsimp -zeta only
    | split
    | dsimp only

theorem execPtpStep_keeps {s0 : State} {mbx : Fin 64} {s : State}  (h : Keeps s0 s) : OutKeeps s0 (execPtpStep mbx s) := by
  unfold execPtpStep
  repeat' first
    | with_reducible first
      | assumption | apply State.mbxRun_keeps | apply State.ptpStepCmd_keeps | apply OutKeeps.next | intro _
    | dsimp -zeta only
    | dsimp only

theorem execLinkStatus_keeps {s0 : State} {mbx : Fin 64} {s : State}  (h : Keeps s0 s) : OutKeeps s0 (execLinkStatus mbx s) := by
  unfold execLinkStatus
  repeat' first
    | with_reducible first
      | assumption | apply State.mbxRun_keeps | apply OutKeeps.next | intro _
    | dsimp -zeta only
    | dsimp only

theorem execFaultRead_keeps {s0 : State} {mbx : Fin 64} {s : State}  (h : Keeps s0 s) : OutKeeps s0 (execFaultRead mbx s) := by
  unfold execFaultRead
  repeat' first
    | with_reducible first
      | assumption | apply State.mbxRun_keeps | apply OutKeeps.next | intro _
    | dsimp -zeta only
    | dsimp only

theorem State.makeRoom_keeps {s0 : State} {n : Nat} {a2 : Nat} {a3 : State}  (h : Keeps s0 a3) : Keeps s0 (State.makeRoom n a2 a3).1 := by
  revert h
  fun_induction State.makeRoom n a2 a3
  all_goals intro h
  all_goals repeat' first
    | with_reducible first
      | assumption | apply State.evictModel_keeps | refine Keeps.of_fst (by assumption) ?_
      | refine Keeps.ite1 (fun _ => ?_) (fun _ => ?_) | refine Keeps.ite (fun _ => ?_) (fun _ => ?_)
    | with_reducible apply_assumption
    | dsimp -zeta only
    | split
    | dsimp only

theorem State.modelInstall_keeps {s0 : State} {s : State} {b : Nat}  (h : Keeps s0 s) : Keeps s0 (State.modelInstall s b).1 := by
  unfold State.modelInstall
  repeat' first
    | with_reducible first
      | assumption | apply State.ansRefusedOpen_keeps | apply State.makeRoom_keeps | apply State.setWord64_keeps
      | apply State.setBit_keeps | apply State.setModelState_keeps | refine Keeps.of_fst (by assumption) ?_
      | refine Keeps.ite1 (fun _ => ?_) (fun _ => ?_) | refine Keeps.ite (fun _ => ?_) (fun _ => ?_)
    | (extract_lets +onlyGivenNames x; apply Keeps.cut (t := x) <;> [subst x; (intro _; clear_value x)])
    | (extract_lets +onlyGivenNames x; subst x)
    | dsimp -zeta only
    | split
    | dsimp only

theorem execModelInstall_keeps {s0 : State} {mbx : Fin 64} {s : State}  (h : Keeps s0 s) : OutKeeps s0 (execModelInstall mbx s) := by
  unfold execModelInstall
  repeat' first
    | with_reducible first
      | assumption | apply State.mbxRun_keeps | apply State.modelInstall_keeps | apply OutKeeps.next | intro _
    | dsimp -zeta only
    | dsimp only

theorem State.modelEvict_keeps {s0 : State} {s : State} {b : Nat}  (h : Keeps s0 s) : Keeps s0 (State.modelEvict s b).1 := by
  unfold State.modelEvict
  repeat' first
    | with_reducible first
      | assumption | apply State.evictModel_keeps | apply State.ansRefusedOpen_keeps
      | refine Keeps.ite1 (fun _ => ?_) (fun _ => ?_) | refine Keeps.ite (fun _ => ?_) (fun _ => ?_)
    | (extract_lets +onlyGivenNames x; apply Keeps.cut (t := x) <;> [subst x; (intro _; clear_value x)])
    | (extract_lets +onlyGivenNames x; subst x)
    | dsimp -zeta only
    | split
    | dsimp only

theorem execModelEvict_keeps {s0 : State} {mbx : Fin 64} {s : State}  (h : Keeps s0 s) : OutKeeps s0 (execModelEvict mbx s) := by
  unfold execModelEvict
  repeat' first
    | with_reducible first
      | assumption | apply State.mbxRun_keeps | apply State.modelEvict_keeps | apply OutKeeps.next | intro _
    | dsimp -zeta only
    | dsimp only

theorem State.modelPin_keeps {s0 : State} {s : State} {b : Nat}  (h : Keeps s0 s) : Keeps s0 (State.modelPin s b).1 := by
  unfold State.modelPin
  repeat' first
    | with_reducible first
      | assumption | apply State.setBit_keeps | apply State.ansRefusedOpen_keeps
      | refine Keeps.ite1 (fun _ => ?_) (fun _ => ?_) | refine Keeps.ite (fun _ => ?_) (fun _ => ?_)
    | (extract_lets +onlyGivenNames x; apply Keeps.cut (t := x) <;> [subst x; (intro _; clear_value x)])
    | (extract_lets +onlyGivenNames x; subst x)
    | dsimp -zeta only
    | split
    | dsimp only

theorem execModelPin_keeps {s0 : State} {mbx : Fin 64} {s : State}  (h : Keeps s0 s) : OutKeeps s0 (execModelPin mbx s) := by
  unfold execModelPin
  repeat' first
    | with_reducible first
      | assumption | apply State.mbxRun_keeps | apply State.modelPin_keeps | apply OutKeeps.next | intro _
    | dsimp -zeta only
    | dsimp only

theorem State.modelSwitch_keeps {s0 : State} {s : State} {b : Nat}  (h : Keeps s0 s) : Keeps s0 (State.modelSwitch s b).1 := by
  unfold State.modelSwitch
  repeat' first
    | with_reducible first
      | assumption | apply State.switchReq_keeps | refine Keeps.ite1 (fun _ => ?_) (fun _ => ?_)
      | refine Keeps.ite (fun _ => ?_) (fun _ => ?_)
    | (extract_lets +onlyGivenNames x; apply Keeps.cut (t := x) <;> [subst x; (intro _; clear_value x)])
    | (extract_lets +onlyGivenNames x; subst x)
    | dsimp -zeta only
    | split
    | dsimp only

theorem execModelSwitch_keeps {s0 : State} {mbx : Fin 64} {s : State}  (h : Keeps s0 s) : OutKeeps s0 (execModelSwitch mbx s) := by
  unfold execModelSwitch
  repeat' first
    | with_reducible first
      | assumption | apply State.mbxRun_keeps | apply State.modelSwitch_keeps | apply OutKeeps.next | intro _
    | dsimp -zeta only
    | dsimp only

theorem execModelStatus_keeps {s0 : State} {mbx : Fin 64} {s : State}  (h : Keeps s0 s) : OutKeeps s0 (execModelStatus mbx s) := by
  unfold execModelStatus
  repeat' first
    | with_reducible first
      | assumption | apply State.mbxRun_keeps | apply OutKeeps.next | intro _
    | dsimp -zeta only
    | dsimp only

theorem State.mbxFinal_keeps {s0 : State} {s : State} {b2 : MbxMsg}  (h : Keeps s0 s) : Keeps s0 (State.mbxFinal s b2).1 := by
  unfold State.mbxFinal
  repeat' first
    | with_reducible first
      | assumption | apply State.ansRefusedOpen_keeps | refine Keeps.of_fst (by assumption) ?_
      | refine Keeps.ite1 (fun _ => ?_) (fun _ => ?_) | refine Keeps.ite (fun _ => ?_) (fun _ => ?_)
    | (extract_lets +onlyGivenNames x; apply Keeps.cut (t := x) <;> [subst x; (intro _; clear_value x)])
    | (extract_lets +onlyGivenNames x; subst x)
    | dsimp -zeta only
    | split
    | dsimp only

theorem State.mbxRespond_keeps {s0 : State} {s : State} {b : Nat}  (h : Keeps s0 s) : Keeps s0 (State.mbxRespond s b) := by
  unfold State.mbxRespond
  repeat' first
    | with_reducible first
      | assumption | apply State.mbxFinal_keeps | apply State.mbxAnswer_keeps | apply State.coldReset_keeps
      | refine Keeps.of_fst (by assumption) ?_ | refine Keeps.ite (fun _ => ?_) (fun _ => ?_)
    | (extract_lets +onlyGivenNames x; apply Keeps.cut (t := x) <;> [subst x; (intro _; clear_value x)])
    | (extract_lets +onlyGivenNames x; subst x)
    | dsimp -zeta only
    | split
    | dsimp only

theorem execMbxResponse_keeps {s0 : State} {mbx : Fin 64} {s : State}  (h : Keeps s0 s) : OutKeeps s0 (execMbxResponse mbx s) := by
  unfold execMbxResponse
  repeat' first
    | with_reducible first
      | assumption | apply State.mbxRespond_keeps | apply OutKeeps.next
    | dsimp -zeta only
    | dsimp only

end Sys2Proof.Machine
end

