-- ==== Sys2Proof/Laws/KeepsPer.lean ====
section
/-! SUPPORT. What Machine/Per.lean keeps. -/

namespace Sys2Proof.Machine

set_option linter.unusedTactic false
set_option linter.unreachableTactic false

theorem State.showUart_keeps {s0 : State} {s : State} {n : Nat}  (h : Keeps s0 s) : Keeps s0 (State.showUart s n) := by
  unfold State.showUart
  repeat' first
    | with_reducible first
      | assumption | apply State.setFld_keeps
    | dsimp -zeta only
    | dsimp only

theorem State.uartSend_keeps {s0 : State} {s : State} {n : Nat}  (h : Keeps s0 s) : Keeps s0 (State.uartSend s n) := by
  unfold State.uartSend
  repeat' first
    | with_reducible first
      | assumption | apply State.emit_keeps | apply State.showUart_keeps | apply foldl_keeps | apply foldl_keeps_fst | intro _
      | fail_if_no_progress apply Keeps.mk_ | refine Keeps.ite (fun _ => ?_) (fun _ => ?_)
    | (extract_lets +onlyGivenNames x; apply Keeps.cut (t := x) <;> [subst x; (intro _; clear_value x)])
    | (extract_lets +onlyGivenNames x; subst x)
    | dsimp -zeta only
    | split
    | dsimp only

theorem State.uartWrite_keeps {s0 : State} {s : State} {n : Nat} {b : Byte}  (h : Keeps s0 s) : Keeps s0 (State.uartWrite s n b) := by
  unfold State.uartWrite
  repeat' first
    | with_reducible first
      | assumption | apply State.uartSend_keeps | apply State.showUart_keeps | fail_if_no_progress apply Keeps.mk_
      | refine Keeps.ite (fun _ => ?_) (fun _ => ?_)
    | (extract_lets +onlyGivenNames x; apply Keeps.cut (t := x) <;> [subst x; (intro _; clear_value x)])
    | (extract_lets +onlyGivenNames x; subst x)
    | dsimp -zeta only
    | split
    | dsimp only

theorem execUartTxByte_keeps {s0 : State} {m : Master} {unit : Fin 4} {data : Byte} {s : State}  (h : Keeps s0 s) : OutKeeps s0 (execUartTxByte m unit data s) := by
  unfold execUartTxByte
  repeat' first
    | with_reducible first
      | assumption | apply State.respOk_keeps | apply State.uartWrite_keeps | apply State.refuse_keeps | apply OutKeeps.next
      | refine OutKeeps.ite (fun _ => ?_) (fun _ => ?_) | refine Keeps.ite (fun _ => ?_) (fun _ => ?_)
    | dsimp -zeta only
    | split
    | dsimp only

theorem execUartRxByte_keeps {s0 : State} {unit : Fin 4} {data : Byte} {s : State}  (h : Keeps s0 s) : OutKeeps s0 (execUartRxByte unit data s) := by
  unfold execUartRxByte
  repeat' first
    | with_reducible first
      | assumption | apply State.setBit_keeps | apply State.showUart_keeps | apply OutKeeps.next
      | fail_if_no_progress apply Keeps.mk_ | refine OutKeeps.ite (fun _ => ?_) (fun _ => ?_)
      | refine Keeps.ite (fun _ => ?_) (fun _ => ?_)
    | (extract_lets +onlyGivenNames x; apply Keeps.cut (t := x) <;> [subst x; (intro _; clear_value x)])
    | (extract_lets +onlyGivenNames x; subst x)
    | dsimp -zeta only
    | split
    | dsimp only

theorem State.uartRead_keeps {s0 : State} {s : State} {n : Nat}  (h : Keeps s0 s) : Keeps s0 (State.uartRead s n).1 := by
  unfold State.uartRead
  repeat' first
    | with_reducible first
      | assumption | apply State.takeFree_keeps | apply State.showUart_keeps | fail_if_no_progress apply Keeps.mk_
      | refine Keeps.of_fst (by assumption) ?_ | refine Keeps.of_snd (by assumption) ?_
    | (extract_lets +onlyGivenNames x; apply Keeps.cut (t := x) <;> [subst x; (intro _; clear_value x)])
    | (extract_lets +onlyGivenNames x; subst x)
    | dsimp -zeta only
    | split
    | dsimp only

theorem State.i2cWrite_keeps {s0 : State} {s : State} {n : Nat} {v : Nat}  (h : Keeps s0 s) : Keeps s0 (State.i2cWrite s n v) := by
  unfold State.i2cWrite
  repeat' first
    | with_reducible first
      | assumption | apply State.setWord_keeps | apply State.emit_keeps | apply State.setBit_keeps
      | refine Keeps.ite (fun _ => ?_) (fun _ => ?_)
    | (extract_lets +onlyGivenNames x; apply Keeps.cut (t := x) <;> [subst x; (intro _; clear_value x)])
    | (extract_lets +onlyGivenNames x; subst x)
    | dsimp -zeta only
    | split
    | dsimp only

theorem execI2cCmdGo_keeps {s0 : State} {m : Master} {unit : Fin 4} {v : BitVec 32} {s : State}  (h : Keeps s0 s) : OutKeeps s0 (execI2cCmdGo m unit v s) := by
  unfold execI2cCmdGo
  repeat' first
    | with_reducible first
      | assumption | apply State.respOk_keeps | apply State.i2cWrite_keeps | apply State.refuse_keeps | apply OutKeeps.next
      | refine OutKeeps.ite (fun _ => ?_) (fun _ => ?_) | refine Keeps.ite (fun _ => ?_) (fun _ => ?_)
    | dsimp -zeta only
    | split
    | dsimp only

theorem execI2cTransferDone_keeps {s0 : State} {unit : Fin 4} {nack : Bool} {data : List Byte} {s : State}  (h : Keeps s0 s) : OutKeeps s0 (execI2cTransferDone unit nack data s) := by
  unfold execI2cTransferDone
  repeat' first
    | with_reducible first
      | assumption | apply State.setBit_keeps | apply State.setRegBytes_keeps | apply OutKeeps.next
      | refine OutKeeps.ite (fun _ => ?_) (fun _ => ?_) | refine Keeps.ite (fun _ => ?_) (fun _ => ?_)
    | (extract_lets +onlyGivenNames x; apply Keeps.cut (t := x) <;> [subst x; (intro _; clear_value x)])
    | (extract_lets +onlyGivenNames x; subst x)
    | dsimp -zeta only
    | split
    | dsimp only

theorem State.spiWrite_keeps {s0 : State} {s : State} {n : Nat} {v : Nat}  (h : Keeps s0 s) : Keeps s0 (State.spiWrite s n v) := by
  unfold State.spiWrite
  repeat' first
    | with_reducible first
      | assumption | apply State.emit_keeps | apply State.setBit_keeps | apply State.setWord_keeps
      | refine Keeps.ite (fun _ => ?_) (fun _ => ?_)
    | dsimp -zeta only
    | split
    | dsimp only

theorem execSpiDataWrite_keeps {s0 : State} {m : Master} {unit : Fin 4} {v : BitVec 32} {s : State}  (h : Keeps s0 s) : OutKeeps s0 (execSpiDataWrite m unit v s) := by
  unfold execSpiDataWrite
  repeat' first
    | with_reducible first
      | assumption | apply State.respOk_keeps | apply State.spiWrite_keeps | apply State.refuse_keeps | apply OutKeeps.next
      | refine OutKeeps.ite (fun _ => ?_) (fun _ => ?_) | refine Keeps.ite (fun _ => ?_) (fun _ => ?_)
    | dsimp -zeta only
    | split
    | dsimp only

theorem execSpiTransferDone_keeps {s0 : State} {unit : Fin 4} {v : BitVec 32} {s : State}  (h : Keeps s0 s) : OutKeeps s0 (execSpiTransferDone unit v s) := by
  unfold execSpiTransferDone
  repeat' first
    | with_reducible first
      | assumption | apply State.setBit_keeps | apply State.setWord_keeps | apply OutKeeps.next
      | refine OutKeeps.ite (fun _ => ?_) (fun _ => ?_) | refine Keeps.ite (fun _ => ?_) (fun _ => ?_)
    | (extract_lets +onlyGivenNames x; apply Keeps.cut (t := x) <;> [subst x; (intro _; clear_value x)])
    | (extract_lets +onlyGivenNames x; subst x)
    | dsimp -zeta only
    | split
    | dsimp only

theorem execGpioEdge_keeps {s0 : State} {pin : Fin 64} {level : Bool} {s : State}  (h : Keeps s0 s) : OutKeeps s0 (execGpioEdge pin level s) := by
  unfold execGpioEdge
  repeat' first
    | with_reducible first
      | assumption | apply State.setBit_keeps | apply OutKeeps.next | refine OutKeeps.ite (fun _ => ?_) (fun _ => ?_)
      | refine Keeps.ite (fun _ => ?_) (fun _ => ?_)
    | (extract_lets +onlyGivenNames x; apply Keeps.cut (t := x) <;> [subst x; (intro _; clear_value x)])
    | (extract_lets +onlyGivenNames x; subst x)
    | dsimp -zeta only
    | split
    | dsimp only

theorem State.xspiWrite_keeps {s0 : State} {s : State} {n : Nat} {v : Nat}  (h : Keeps s0 s) : Keeps s0 (State.xspiWrite s n v) := by
  unfold State.xspiWrite
  repeat' first
    | with_reducible first
      | assumption | apply State.setWord_keeps | apply State.emit_keeps | refine Keeps.ite (fun _ => ?_) (fun _ => ?_)
    | (extract_lets +onlyGivenNames x; apply Keeps.cut (t := x) <;> [subst x; (intro _; clear_value x)])
    | (extract_lets +onlyGivenNames x; subst x)
    | dsimp -zeta only
    | split
    | dsimp only

theorem execXspiCmdGo_keeps {s0 : State} {m : Master} {unit : Fin 2} {v : BitVec 32} {s : State}  (h : Keeps s0 s) : OutKeeps s0 (execXspiCmdGo m unit v s) := by
  unfold execXspiCmdGo
  repeat' first
    | with_reducible first
      | assumption | apply State.respOk_keeps | apply State.xspiWrite_keeps | apply State.refuse_keeps | apply OutKeeps.next
      | refine OutKeeps.ite (fun _ => ?_) (fun _ => ?_) | refine Keeps.ite (fun _ => ?_) (fun _ => ?_)
    | dsimp -zeta only
    | split
    | dsimp only

theorem execXspiCommandDone_keeps {s0 : State} {unit : Fin 2} {data : List Byte} {s : State}  (h : Keeps s0 s) : OutKeeps s0 (execXspiCommandDone unit data s) := by
  unfold execXspiCommandDone
  repeat' first
    | with_reducible first
      | assumption | apply State.setBit_keeps | apply State.setRegBytes_keeps | apply OutKeeps.next
      | refine OutKeeps.ite (fun _ => ?_) (fun _ => ?_) | refine Keeps.ite (fun _ => ?_) (fun _ => ?_)
    | (extract_lets +onlyGivenNames x; apply Keeps.cut (t := x) <;> [subst x; (intro _; clear_value x)])
    | (extract_lets +onlyGivenNames x; subst x)
    | dsimp -zeta only
    | split
    | dsimp only

theorem State.ufsRing_keeps {s0 : State} {s : State} {v : Nat}  (h : Keeps s0 s) : Keeps s0 (State.ufsRing s v) := by
  unfold State.ufsRing
  repeat' first
    | with_reducible first
      | assumption | apply State.setWord_keeps | apply State.emit_keeps | apply foldl_keeps | apply foldl_keeps_fst | intro _
      | refine Keeps.ite (fun _ => ?_) (fun _ => ?_)
    | (extract_lets +onlyGivenNames x; apply Keeps.cut (t := x) <;> [subst x; (intro _; clear_value x)])
    | (extract_lets +onlyGivenNames x; subst x)
    | dsimp -zeta only
    | split
    | dsimp only

theorem execUfsDoorbell_keeps {s0 : State} {m : Master} {v : BitVec 32} {s : State}  (h : Keeps s0 s) : OutKeeps s0 (execUfsDoorbell m v s) := by
  unfold execUfsDoorbell
  repeat' first
    | with_reducible first
      | assumption | apply State.respOk_keeps | apply State.ufsRing_keeps | apply State.refuse_keeps | apply OutKeeps.next
      | refine OutKeeps.ite (fun _ => ?_) (fun _ => ?_) | refine Keeps.ite (fun _ => ?_) (fun _ => ?_)
    | dsimp -zeta only
    | split
    | dsimp only

theorem execUfsCompletion_keeps {s0 : State} {slot : Fin 32} {s : State}  (h : Keeps s0 s) : OutKeeps s0 (execUfsCompletion slot s) := by
  unfold execUfsCompletion
  repeat' first
    | with_reducible first
      | assumption | apply State.setBit_keeps | apply OutKeeps.next | refine OutKeeps.ite (fun _ => ?_) (fun _ => ?_)
      | refine Keeps.ite (fun _ => ?_) (fun _ => ?_)
    | (extract_lets +onlyGivenNames x; apply Keeps.cut (t := x) <;> [subst x; (intro _; clear_value x)])
    | (extract_lets +onlyGivenNames x; subst x)
    | dsimp -zeta only
    | split
    | dsimp only

theorem State.tapSelect_keeps {s0 : State} {s : State} {op : Nat}  (h : Keeps s0 s) : Keeps s0 (State.tapSelect s op) := by
  unfold State.tapSelect
  repeat' first
    | with_reducible first
      | assumption | apply State.emit_keeps | fail_if_no_progress apply Keeps.mk_
    | (extract_lets +onlyGivenNames x; apply Keeps.cut (t := x) <;> [subst x; (intro _; clear_value x)])
    | (extract_lets +onlyGivenNames x; subst x)
    | dsimp -zeta only
    | dsimp only

theorem State.tapTake_keeps {s0 : State} {s : State} {op : Nat}  (h : Keeps s0 s) : Keeps s0 (State.tapTake s op).1 := by
  unfold State.tapTake
  repeat' first
    | with_reducible first
      | assumption | apply State.tapSelect_keeps | apply State.fault_keeps | fail_if_no_progress apply Keeps.mk_
      | refine Keeps.ite1 (fun _ => ?_) (fun _ => ?_) | refine Keeps.ite (fun _ => ?_) (fun _ => ?_)
    | (extract_lets +onlyGivenNames x; apply Keeps.cut (t := x) <;> [subst x; (intro _; clear_value x)])
    | (extract_lets +onlyGivenNames x; subst x)
    | dsimp -zeta only
    | split
    | dsimp only

theorem State.tapBypass_keeps {s0 : State} {s : State}  (h : Keeps s0 s) : Keeps s0 (State.tapBypass s) := by
  unfold State.tapBypass
  repeat' first
    | with_reducible first
      | assumption | apply State.emit_keeps
    | dsimp -zeta only
    | dsimp only

theorem State.tapBoundary_keeps {s0 : State} {s : State} {data : Nat}  (h : Keeps s0 s) : Keeps s0 (State.tapBoundary s data) := by
  unfold State.tapBoundary
  repeat' first
    | with_reducible first
      | assumption | apply State.takeFree_keeps | apply State.emit_keeps | fail_if_no_progress apply Keeps.mk_
      | refine Keeps.of_fst (by assumption) ?_ | refine Keeps.of_snd (by assumption) ?_
    | (extract_lets +onlyGivenNames x; apply Keeps.cut (t := x) <;> [subst x; (intro _; clear_value x)])
    | (extract_lets +onlyGivenNames x; subst x)
    | dsimp -zeta only
    | split
    | dsimp only

theorem State.tapExtest_keeps {s0 : State} {s : State} {op : Nat} {data : Nat}  (h : Keeps s0 s) : Keeps s0 (State.tapExtest s op data) := by
  unfold State.tapExtest
  repeat' first
    | with_reducible first
      | assumption | apply State.tapTake_keeps | apply State.tapBoundary_keeps | apply State.tapBypass_keeps
      | refine Keeps.of_fst (by assumption) ?_
    | dsimp -zeta only
    | split
    | dsimp only

theorem execExtest_keeps {s0 : State} {data : BitVec 4164} {s : State}  (h : Keeps s0 s) : OutKeeps s0 (execExtest data s) := by
  unfold execExtest
  repeat' first
    | with_reducible first
      | assumption | apply State.tapExtest_keeps | apply OutKeeps.next
    | dsimp -zeta only
    | dsimp only

theorem execSamplePreload_keeps {s0 : State} {data : BitVec 4164} {s : State}  (h : Keeps s0 s) : OutKeeps s0 (execSamplePreload data s) := by
  unfold execSamplePreload
  repeat' first
    | with_reducible first
      | assumption | apply State.tapBoundary_keeps | apply State.tapSelect_keeps | apply OutKeeps.next
    | dsimp -zeta only
    | dsimp only

theorem execIdcode_keeps {s0 : State} {s : State}  (h : Keeps s0 s) : OutKeeps s0 (execIdcode s) := by
  unfold execIdcode
  repeat' first
    | with_reducible first
      | assumption | apply State.emit_keeps | apply State.tapSelect_keeps | apply OutKeeps.next
    | dsimp -zeta only
    | dsimp only

theorem execClamp_keeps {s0 : State} {s : State}  (h : Keeps s0 s) : OutKeeps s0 (execClamp s) := by
  unfold execClamp
  repeat' first
    | with_reducible first
      | assumption | apply State.tapBypass_keeps | apply State.tapTake_keeps | apply OutKeeps.next
    | dsimp -zeta only
    | dsimp only

theorem execHighz_keeps {s0 : State} {s : State}  (h : Keeps s0 s) : OutKeeps s0 (execHighz s) := by
  unfold execHighz
  repeat' first
    | with_reducible first
      | assumption | apply State.tapBypass_keeps | apply State.tapTake_keeps | apply OutKeeps.next
    | dsimp -zeta only
    | dsimp only

theorem execExtestPulse_keeps {s0 : State} {data : BitVec 4164} {s : State}  (h : Keeps s0 s) : OutKeeps s0 (execExtestPulse data s) := by
  unfold execExtestPulse
  repeat' first
    | with_reducible first
      | assumption | apply State.tapExtest_keeps | apply OutKeeps.next
    | dsimp -zeta only
    | dsimp only

theorem execExtestTrain_keeps {s0 : State} {data : BitVec 4164} {s : State}  (h : Keeps s0 s) : OutKeeps s0 (execExtestTrain data s) := by
  unfold execExtestTrain
  repeat' first
    | with_reducible first
      | assumption | apply State.tapExtest_keeps | apply OutKeeps.next
    | dsimp -zeta only
    | dsimp only

theorem execEcidcode_keeps {s0 : State} {s : State}  (h : Keeps s0 s) : OutKeeps s0 (execEcidcode s) := by
  unfold execEcidcode
  repeat' first
    | with_reducible first
      | assumption | apply State.emit_keeps | apply State.tapSelect_keeps | apply OutKeeps.next
    | dsimp -zeta only
    | dsimp only

theorem State.dbgAuth_keeps {s0 : State} {s : State} {d : Nat}  (h : Keeps s0 s) : Keeps s0 (State.dbgAuth s d) := by
  unfold State.dbgAuth
  repeat' first
    | with_reducible first
      | assumption | apply State.emit_keeps | apply State.tapSelect_keeps | apply State.newChal_keeps
      | apply State.submit_keeps | fail_if_no_progress apply Keeps.mk_ | refine Keeps.of_fst (by assumption) ?_
    | (extract_lets +onlyGivenNames x; apply Keeps.cut (t := x) <;> [subst x; (intro _; clear_value x)])
    | (extract_lets +onlyGivenNames x; subst x)
    | dsimp -zeta only
    | split
    | dsimp only

theorem execDbgAuth_keeps {s0 : State} {data : BitVec 1552} {s : State}  (h : Keeps s0 s) : OutKeeps s0 (execDbgAuth data s) := by
  unfold execDbgAuth
  repeat' first
    | with_reducible first
      | assumption | apply State.dbgAuth_keeps | apply OutKeeps.next
    | dsimp -zeta only
    | dsimp only

theorem State.dbgPair_keeps {s0 : State} {s : State} {d : Nat}  (h : Keeps s0 s) : Keeps s0 (State.dbgPair s d) := by
  unfold State.dbgPair
  repeat' first
    | with_reducible first
      | assumption | apply State.takeFree_keeps | apply State.emit_keeps | apply State.tapSelect_keeps
      | apply State.attach_keeps | refine Keeps.of_fst (by assumption) ?_ | refine Keeps.of_snd (by assumption) ?_
      | refine Keeps.ite (fun _ => ?_) (fun _ => ?_)
    | (extract_lets +onlyGivenNames x; apply Keeps.cut (t := x) <;> [subst x; (intro _; clear_value x)])
    | (extract_lets +onlyGivenNames x; subst x)
    | dsimp -zeta only
    | split
    | dsimp only

theorem execDbgPair_keeps {s0 : State} {data : BitVec 44} {s : State}  (h : Keeps s0 s) : OutKeeps s0 (execDbgPair data s) := by
  unfold execDbgPair
  repeat' first
    | with_reducible first
      | assumption | apply State.dbgPair_keeps | apply OutKeeps.next
    | dsimp -zeta only
    | dsimp only

theorem execBypass_keeps {s0 : State} {op : BitVec 12} {s : State}  (h : Keeps s0 s) : OutKeeps s0 (execBypass op s) := by
  unfold execBypass
  repeat' first
    | with_reducible first
      | assumption | apply State.tapBypass_keeps | apply State.tapSelect_keeps | apply OutKeeps.next
      | refine OutKeeps.ite (fun _ => ?_) (fun _ => ?_) | refine Keeps.ite (fun _ => ?_) (fun _ => ?_)
    | (extract_lets +onlyGivenNames x; apply Keeps.cut (t := x) <;> [subst x; (intro _; clear_value x)])
    | (extract_lets +onlyGivenNames x; subst x)
    | dsimp -zeta only
    | split
    | dsimp only

end Sys2Proof.Machine
end

