-- ==== Sys2Proof/Laws/KeepsRegHook.lean ====
section
/-! SUPPORT. What Machine/RegHook.lean keeps. -/

namespace Sys2Proof.Machine

set_option linter.unusedTactic false
set_option linter.unreachableTactic false

theorem nextOr_keeps {s0 s : State} {o : Host.Outcome State Fault Refusal} (h : Keeps s0 s) (k : OutKeeps s0 o) :
    Keeps s0 (nextOr s o) := by
  unfold nextOr
  split
  · exact k _ rfl
  · exact h

theorem State.putWords_keeps {s0 : State} {s : State} {flds : List Fld} {a : Nat} {k : Nat} {a5 : List Nat}  (h : Keeps s0 s) : Keeps s0 (State.putWords s flds a k a5) := by
  revert h
  fun_induction State.putWords s flds a k a5
  all_goals intro h
  all_goals repeat' first
    | with_reducible first
      | assumption | apply State.setWord_keeps | fail_if_no_progress apply Keeps.mk_ | refine Keeps.of_fst (by assumption) ?_
      | refine Keeps.ite (fun _ => ?_) (fun _ => ?_)
    | with_reducible apply_assumption
    | dsimp -zeta only
    | split
    | dsimp only

theorem State.putReg_keeps {s0 : State} {s : State} {d : RegDesc} {a : Nat} {v : Nat}  (h : Keeps s0 s) : Keeps s0 (State.putReg s d a v) := by
  unfold State.putReg
  repeat' first
    | with_reducible first
      | assumption | apply State.putWords_keeps
    | dsimp -zeta only
    | dsimp only

theorem State.outCfgWrite_keeps {s0 : State} {s : State} {m : Master} {inst : Option (Fin 64)} {p : Nat} {v : Nat}  (h : Keeps s0 s) : Keeps s0 (State.outCfgWrite s m inst p v) := by
  unfold State.outCfgWrite
  repeat' first
    | with_reducible first
      | assumption | apply State.refuse_keeps | apply State.setWord_keeps | apply State.setBit_keeps
      | apply State.respOk_keeps | apply State.emit_keeps | refine Keeps.of_fst (by assumption) ?_
      | refine Keeps.ite (fun _ => ?_) (fun _ => ?_)
    | (extract_lets +onlyGivenNames x; apply Keeps.cut (t := x) <;> [subst x; (intro _; clear_value x)])
    | (extract_lets +onlyGivenNames x; subst x)
    | dsimp -zeta only
    | split
    | dsimp only

theorem State.wrPhx_keeps {s0 : State} {s : State} {m : Master} {inst : Option (Fin 64)} {o : Nat} {v : Nat} {t : State}  (h : Keeps s0 s) (e : State.wrPhx s m inst o v = some t) : Keeps s0 t := by
  unfold State.wrPhx at e
  repeat' first
    | (cases e; done)
    | (rw [Option.map_eq_some_iff] at e; obtain ⟨_, _, e⟩ := e)
    | split at e
    | dsimp only at e
  all_goals (try (first | cases e | injection e with e))
  all_goals repeat' first
    | with_reducible first
      | assumption | apply State.tackCfgWrite_keeps | apply State.tackRegWrite_keeps | apply State.axisLoad_keeps
      | apply State.outCfgWrite_keeps | refine Keeps.of_fst (by assumption) ?_ | refine Keeps.ite (fun _ => ?_) (fun _ => ?_)
    | dsimp -zeta only
    | split
    | dsimp only

theorem State.wrSfe_keeps {s0 : State} {s : State} {m : Master} {inst : Option (Fin 64)} {o : Nat} {v : Nat} {t : State}  (h : Keeps s0 s) (e : State.wrSfe s m inst o v = some t) : Keeps s0 t := by
  unfold State.wrSfe at e
  repeat' first
    | (cases e; done)
    | (rw [Option.map_eq_some_iff] at e; obtain ⟨_, _, e⟩ := e)
    | split at e
    | dsimp only at e
  all_goals (try (first | cases e | injection e with e))
  all_goals repeat' first
    | with_reducible first
      | assumption | apply State.sfeCtrl_keeps | apply State.slotRelease_keeps | apply State.shadowWrite_keeps
      | refine Keeps.of_fst (by assumption) ?_ | refine Keeps.ite (fun _ => ?_) (fun _ => ?_)
    | dsimp -zeta only
    | split
    | dsimp only

theorem State.cellCtrl_keeps {s0 : State} {s : State} {c : Nat} {v : Nat}  (h : Keeps s0 s) : Keeps s0 (State.cellCtrl s c v) := by
  unfold State.cellCtrl
  repeat' first
    | with_reducible first
      | assumption | apply State.saveReq_keeps | apply State.restoreReq_keeps | apply State.abortReq_keeps
      | apply State.respOk_keeps | apply State.ackReq_keeps | refine Keeps.ite (fun _ => ?_) (fun _ => ?_)
    | (extract_lets +onlyGivenNames x; apply Keeps.cut (t := x) <;> [subst x; (intro _; clear_value x)])
    | (extract_lets +onlyGivenNames x; subst x)
    | dsimp -zeta only
    | split
    | dsimp only

theorem State.wrCel_keeps {s0 : State} {s : State} {m : Master} {o : Nat} {v : Nat} {t : State}  (h : Keeps s0 s) (e : State.wrCel s m o v = some t) : Keeps s0 t := by
  unfold State.wrCel at e
  repeat' first
    | (cases e; done)
    | (rw [Option.map_eq_some_iff] at e; obtain ⟨_, _, e⟩ := e)
    | split at e
    | dsimp only at e
  all_goals (try (first | cases e | injection e with e))
  all_goals repeat' first
    | with_reducible first
      | assumption | apply State.respOk_keeps | apply State.subReq_keeps | apply State.refuse_keeps
      | apply State.maintStart_keeps | apply State.cellCtrl_keeps | apply State.kernelWrite_keeps
      | refine Keeps.of_fst (by assumption) ?_ | refine Keeps.ite (fun _ => ?_) (fun _ => ?_)
    | dsimp -zeta only
    | split
    | dsimp only

theorem State.wrClc_keeps {s0 : State} {s : State} {m : Master} {inst : Option (Fin 64)} {o : Nat} {v : Nat} {t : State}  (h : Keeps s0 s) (e : State.wrClc s m inst o v = some t) : Keeps s0 t := by
  unfold State.wrClc at e
  repeat' first
    | (cases e; done)
    | (rw [Option.map_eq_some_iff] at e; obtain ⟨_, _, e⟩ := e)
    | split at e
    | dsimp only at e
  all_goals (try (first | cases e | injection e with e))
  all_goals repeat' first
    | with_reducible first
      | assumption | apply State.respOk_keeps | apply State.clickCfg_keeps | apply State.switchReq_keeps | apply nextOr_keeps
      | apply execSlotReleaseWrite_keeps | refine Keeps.of_fst (by assumption) ?_ | refine OutKeeps.of_next ?_ (by assumption)
      | refine Keeps.ite (fun _ => ?_) (fun _ => ?_)
    | dsimp -zeta only
    | split
    | dsimp only

theorem State.wrWpe_keeps {s0 : State} {s : State} {m : Master} {inst : Option (Fin 64)} {o : Nat} {v : Nat} {t : State}  (h : Keeps s0 s) (e : State.wrWpe s m inst o v = some t) : Keeps s0 t := by
  unfold State.wrWpe at e
  repeat' first
    | (cases e; done)
    | (rw [Option.map_eq_some_iff] at e; obtain ⟨_, _, e⟩ := e)
    | split at e
    | dsimp only at e
  all_goals (try (first | cases e | injection e with e))
  all_goals repeat' first
    | with_reducible first
      | assumption | apply nextOr_keeps | apply execEpochAbandon_keeps | apply execEpochPublish_keeps
      | apply execVehicleStateCommit_keeps | apply execHeelSubmit_keeps | refine Keeps.ite (fun _ => ?_) (fun _ => ?_)
    | dsimp -zeta only
    | split
    | dsimp only

theorem State.wrRas_keeps {s0 : State} {s : State} {m : Master} {inst : Option (Fin 64)} {o : Nat} {v : Nat} {t : State}  (h : Keeps s0 s) (e : State.wrRas s m inst o v = some t) : Keeps s0 t := by
  unfold State.wrRas at e
  repeat' first
    | (cases e; done)
    | (rw [Option.map_eq_some_iff] at e; obtain ⟨_, _, e⟩ := e)
    | split at e
    | dsimp only at e
  all_goals (try (first | cases e | injection e with e))
  all_goals repeat' first
    | with_reducible first
      | assumption | apply nextOr_keeps | apply execRasFeTailWrite_keeps | apply State.feRestart_keeps
      | apply State.respOk_keeps | refine Keeps.of_fst (by assumption) ?_ | refine OutKeeps.of_next ?_ (by assumption)
      | refine Keeps.ite (fun _ => ?_) (fun _ => ?_)
    | (extract_lets +onlyGivenNames x; apply Keeps.cut (t := x) <;> [subst x; (intro _; clear_value x)])
    | (extract_lets +onlyGivenNames x; subst x)
    | dsimp -zeta only
    | split
    | dsimp only

theorem State.wrDpy_keeps {s0 : State} {s : State} {o : Nat} {v : Nat} {t : State}  (h : Keeps s0 s) (e : State.wrDpy s o v = some t) : Keeps s0 t := by
  unfold State.wrDpy at e
  repeat' first
    | (cases e; done)
    | (rw [Option.map_eq_some_iff] at e; obtain ⟨_, _, e⟩ := e)
    | split at e
    | dsimp only at e
  all_goals (try (first | cases e | injection e with e))
  all_goals repeat' first
    | with_reducible first
      | assumption | apply State.respOk_keeps | apply State.pipeEnable_keeps | apply State.pipeDisable_keeps
      | apply State.flip_keeps | apply State.sideGo_keeps | refine Keeps.of_fst (by assumption) ?_
      | refine Keeps.ite (fun _ => ?_) (fun _ => ?_)
    | dsimp -zeta only
    | split
    | dsimp only

theorem State.wrMem_keeps {s0 : State} {s : State} {m : Master} {o : Nat} {v : Nat} {t : State}  (h : Keeps s0 s) (e : State.wrMem s m o v = some t) : Keeps s0 t := by
  unfold State.wrMem at e
  repeat' first
    | (cases e; done)
    | (rw [Option.map_eq_some_iff] at e; obtain ⟨_, _, e⟩ := e)
    | split at e
    | dsimp only at e
  all_goals (try (first | cases e | injection e with e))
  all_goals repeat' first
    | with_reducible first
      | assumption | apply State.refuse_keeps | refine Keeps.ite (fun _ => ?_) (fun _ => ?_)
    | dsimp -zeta only
    | split
    | dsimp only

theorem State.wrFab_keeps {s0 : State} {s : State} {m : Master} {inst : Option (Fin 64)} {o : Nat} {v : Nat} {t : State}  (h : Keeps s0 s) (e : State.wrFab s m inst o v = some t) : Keeps s0 t := by
  unfold State.wrFab at e
  repeat' first
    | (cases e; done)
    | (rw [Option.map_eq_some_iff] at e; obtain ⟨_, _, e⟩ := e)
    | split at e
    | dsimp only at e
  all_goals (try (first | cases e | injection e with e))
  all_goals repeat' first
    | with_reducible first
      | assumption | apply State.fabMissClr_keeps | apply State.setWord_keeps | apply State.respOk_keeps
      | apply State.guarThresh_keeps | refine Keeps.of_fst (by assumption) ?_ | refine Keeps.ite (fun _ => ?_) (fun _ => ?_)
    | (extract_lets +onlyGivenNames x; apply Keeps.cut (t := x) <;> [subst x; (intro _; clear_value x)])
    | (extract_lets +onlyGivenNames x; subst x)
    | dsimp -zeta only
    | split
    | dsimp only

theorem State.wrAtu_keeps {s0 : State} {s : State} {m : Master} {inst : Option (Fin 64)} {o : Nat} {v : Nat} {t : State}  (h : Keeps s0 s) (e : State.wrAtu s m inst o v = some t) : Keeps s0 t := by
  unfold State.wrAtu at e
  repeat' first
    | (cases e; done)
    | (rw [Option.map_eq_some_iff] at e; obtain ⟨_, _, e⟩ := e)
    | split at e
    | dsimp only at e
  all_goals (try (first | cases e | injection e with e))
  all_goals repeat' first
    | with_reducible first
      | assumption | apply State.atuInv_keeps | apply State.setBit_keeps | apply State.instReset_keeps
      | apply State.respOk_keeps | apply State.instAdd_keeps | apply State.instErr_keeps
      | refine Keeps.of_fst (by assumption) ?_ | refine Keeps.ite (fun _ => ?_) (fun _ => ?_)
    | (extract_lets +onlyGivenNames x; apply Keeps.cut (t := x) <;> [subst x; (intro _; clear_value x)])
    | (extract_lets +onlyGivenNames x; subst x)
    | dsimp -zeta only
    | split
    | dsimp only

theorem State.wrHqm_keeps {s0 : State} {s : State} {m : Master} {inst : Option (Fin 64)} {o : Nat} {v : Nat} {t : State}  (h : Keeps s0 s) (e : State.wrHqm s m inst o v = some t) : Keeps s0 t := by
  unfold State.wrHqm at e
  repeat' first
    | (cases e; done)
    | (rw [Option.map_eq_some_iff] at e; obtain ⟨_, _, e⟩ := e)
    | split at e
    | dsimp only at e
  all_goals (try (first | cases e | injection e with e))
  all_goals repeat' first
    | with_reducible first
      | assumption | apply State.respOk_keeps | apply State.qcmd_keeps | apply nextOr_keeps | apply execHqmDoorbell_keeps
      | refine Keeps.ite (fun _ => ?_) (fun _ => ?_)
    | dsimp -zeta only
    | split
    | dsimp only

theorem State.wrPci_keeps {s0 : State} {s : State} {m : Master} {o : Nat} {v : Nat} {t : State}  (h : Keeps s0 s) (e : State.wrPci s m o v = some t) : Keeps s0 t := by
  unfold State.wrPci at e
  repeat' first
    | (cases e; done)
    | (rw [Option.map_eq_some_iff] at e; obtain ⟨_, _, e⟩ := e)
    | split at e
    | dsimp only at e
  all_goals (try (first | cases e | injection e with e))
  all_goals repeat' first
    | with_reducible first
      | assumption | apply State.takeFree_keeps | apply nextOr_keeps | apply execPciCfgGo_keeps
      | refine Keeps.of_fst (by assumption) ?_ | refine Keeps.of_snd (by assumption) ?_
      | refine OutKeeps.of_next ?_ (by assumption) | refine Keeps.ite (fun _ => ?_) (fun _ => ?_)
    | dsimp -zeta only
    | split
    | dsimp only

theorem State.wrTwn_keeps {s0 : State} {s : State} {m : Master} {o : Nat} {v : Nat} {t : State}  (h : Keeps s0 s) (e : State.wrTwn s m o v = some t) : Keeps s0 t := by
  unfold State.wrTwn at e
  repeat' first
    | (cases e; done)
    | (rw [Option.map_eq_some_iff] at e; obtain ⟨_, _, e⟩ := e)
    | split at e
    | dsimp only at e
  all_goals (try (first | cases e | injection e with e))
  all_goals repeat' first
    | with_reducible first
      | assumption | apply nextOr_keeps | apply execRetest_keeps | apply State.respOk_keeps
      | refine Keeps.of_fst (by assumption) ?_ | refine OutKeeps.of_next ?_ (by assumption)
      | refine Keeps.ite (fun _ => ?_) (fun _ => ?_)
    | dsimp -zeta only
    | split
    | dsimp only

theorem State.fltCtrl_keeps {s0 : State} {s : State} {m : Master} {v : Nat}  (h : Keeps s0 s) : Keeps s0 (State.fltCtrl s m v) := by
  unfold State.fltCtrl
  repeat' first
    | with_reducible first
      | assumption | apply State.respOk_keeps | apply State.refuse_keeps | apply State.aliveStart_keeps
      | apply State.sExitWrite_keeps | apply nextOr_keeps | apply execKick_keeps | apply State.clrFirst_keeps
      | refine Keeps.ite (fun _ => ?_) (fun _ => ?_)
    | (extract_lets +onlyGivenNames x; apply Keeps.cut (t := x) <;> [subst x; (intro _; clear_value x)])
    | (extract_lets +onlyGivenNames x; subst x)
    | dsimp -zeta only
    | split
    | dsimp only

theorem State.wrFlt_keeps {s0 : State} {s : State} {m : Master} {o : Nat} {v : Nat} {t : State}  (h : Keeps s0 s) (e : State.wrFlt s m o v = some t) : Keeps s0 t := by
  unfold State.wrFlt at e
  repeat' first
    | (cases e; done)
    | (rw [Option.map_eq_some_iff] at e; obtain ⟨_, _, e⟩ := e)
    | split at e
    | dsimp only at e
  all_goals (try (first | cases e | injection e with e))
  all_goals repeat' first
    | with_reducible first
      | assumption | apply State.fltCtrl_keeps | apply nextOr_keeps | apply execAlarmTailWrite_keeps
      | apply execSwReport_keeps | apply execFwpHeartbeat_keeps | refine Keeps.ite (fun _ => ?_) (fun _ => ?_)
    | dsimp -zeta only
    | split
    | dsimp only

theorem State.wrAwl_keeps {s0 : State} {s : State} {m : Master} {o : Nat} {v : Nat} {t : State}  (h : Keeps s0 s) (e : State.wrAwl s m o v = some t) : Keeps s0 t := by
  unfold State.wrAwl at e
  repeat' first
    | (cases e; done)
    | (rw [Option.map_eq_some_iff] at e; obtain ⟨_, _, e⟩ := e)
    | split at e
    | dsimp only at e
  all_goals (try (first | cases e | injection e with e))
  all_goals repeat' first
    | with_reducible first
      | assumption | apply nextOr_keeps | apply execAwlUnlock_keeps | apply State.respOk_keeps | apply execGo_keeps
      | refine Keeps.ite (fun _ => ?_) (fun _ => ?_)
    | dsimp -zeta only
    | split
    | dsimp only

theorem State.wrFwp_keeps {s0 : State} {s : State} {m : Master} {inst : Option (Fin 64)} {o : Nat} {v : Nat} {t : State}  (h : Keeps s0 s) (e : State.wrFwp s m inst o v = some t) : Keeps s0 t := by
  unfold State.wrFwp at e
  repeat' first
    | (cases e; done)
    | (rw [Option.map_eq_some_iff] at e; obtain ⟨_, _, e⟩ := e)
    | split at e
    | dsimp only at e
  all_goals (try (first | cases e | injection e with e))
  all_goals repeat' first
    | with_reducible first
      | assumption | apply nextOr_keeps | apply execSelftest_keeps | apply State.respOk_keeps | apply State.refuse_keeps
      | apply execLogTailWrite_keeps | apply State.setBit_keeps | apply State.mbxFree_keeps | apply State.mbxGo_keeps
      | apply State.orWord_keeps | refine Keeps.of_fst (by assumption) ?_ | refine OutKeeps.of_next ?_ (by assumption)
      | refine Keeps.ite (fun _ => ?_) (fun _ => ?_)
    | (extract_lets +onlyGivenNames x; apply Keeps.cut (t := x) <;> [subst x; (intro _; clear_value x)])
    | (extract_lets +onlyGivenNames x; subst x)
    | dsimp -zeta only
    | split
    | dsimp only

theorem State.wrEth_keeps {s0 : State} {s : State} {m : Master} {o : Nat} {v : Nat} {t : State}  (h : Keeps s0 s) (e : State.wrEth s m o v = some t) : Keeps s0 t := by
  unfold State.wrEth at e
  repeat' first
    | (cases e; done)
    | (rw [Option.map_eq_some_iff] at e; obtain ⟨_, _, e⟩ := e)
    | split at e
    | dsimp only at e
  all_goals (try (first | cases e | injection e with e))
  all_goals repeat' first
    | with_reducible first
      | assumption | apply State.respOk_keeps | apply nextOr_keeps | apply execMdioGo_keeps | apply State.setWord_keeps
      | apply execEthTblGo_keeps | apply State.setFld_keeps | apply execGclSwap_keeps | refine Keeps.of_fst (by assumption) ?_
      | refine OutKeeps.of_next ?_ (by assumption) | refine Keeps.ite (fun _ => ?_) (fun _ => ?_)
    | (extract_lets +onlyGivenNames x; apply Keeps.cut (t := x) <;> [subst x; (intro _; clear_value x)])
    | (extract_lets +onlyGivenNames x; subst x)
    | dsimp -zeta only
    | split
    | dsimp only

theorem State.wrPtp_keeps {s0 : State} {s : State} {m : Master} {inst : Option (Fin 64)} {o : Nat} {v : Nat} {t : State}  (h : Keeps s0 s) (e : State.wrPtp s m inst o v = some t) : Keeps s0 t := by
  unfold State.wrPtp at e
  repeat' first
    | (cases e; done)
    | (rw [Option.map_eq_some_iff] at e; obtain ⟨_, _, e⟩ := e)
    | split at e
    | dsimp only at e
  all_goals (try (first | cases e | injection e with e))
  all_goals repeat' first
    | with_reducible first
      | assumption | apply nextOr_keeps | apply execPtpClkIncWrite_keeps | apply execPtpClkStepWrite_keeps
      | apply execPtpClkSet_keeps | apply execPtpClkAdjWrite_keeps | apply execAccept_keeps | apply execReject_keeps
      | apply State.respOk_keeps | refine Keeps.of_fst (by assumption) ?_ | refine OutKeeps.of_next ?_ (by assumption)
      | refine Keeps.ite (fun _ => ?_) (fun _ => ?_)
    | (extract_lets +onlyGivenNames x; apply Keeps.cut (t := x) <;> [subst x; (intro _; clear_value x)])
    | (extract_lets +onlyGivenNames x; subst x)
    | dsimp -zeta only
    | split
    | dsimp only

theorem State.afterPtp_keeps {s0 : State} {s : State} {o : Nat}  (h : Keeps s0 s) : Keeps s0 (State.afterPtp s o) := by
  unfold State.afterPtp
  repeat' first
    | with_reducible first
      | assumption | fail_if_no_progress apply Keeps.mk_ | refine Keeps.ite (fun _ => ?_) (fun _ => ?_)
    | (extract_lets +onlyGivenNames x; apply Keeps.cut (t := x) <;> [subst x; (intro _; clear_value x)])
    | (extract_lets +onlyGivenNames x; subst x)
    | dsimp -zeta only
    | split
    | dsimp only

theorem State.wrCan_keeps {s0 : State} {s : State} {m : Master} {o : Nat} {v : Nat} {t : State}  (h : Keeps s0 s) (e : State.wrCan s m o v = some t) : Keeps s0 t := by
  unfold State.wrCan at e
  repeat' first
    | (cases e; done)
    | (rw [Option.map_eq_some_iff] at e; obtain ⟨_, _, e⟩ := e)
    | split at e
    | dsimp only at e
  all_goals (try (first | cases e | injection e with e))
  all_goals repeat' first
    | with_reducible first
      | assumption | apply nextOr_keeps | apply execRecover_keeps | apply State.respOk_keeps
      | refine Keeps.of_fst (by assumption) ?_ | refine OutKeeps.of_next ?_ (by assumption)
      | refine Keeps.ite (fun _ => ?_) (fun _ => ?_)
    | dsimp -zeta only
    | split
    | dsimp only

theorem State.wrPwr_keeps {s0 : State} {s : State} {m : Master} {o : Nat} {v : Nat} {t : State}  (h : Keeps s0 s) (e : State.wrPwr s m o v = some t) : Keeps s0 t := by
  unfold State.wrPwr at e
  repeat' first
    | (cases e; done)
    | (rw [Option.map_eq_some_iff] at e; obtain ⟨_, _, e⟩ := e)
    | split at e
    | dsimp only at e
  all_goals (try (first | cases e | injection e with e))
  all_goals repeat' first
    | with_reducible first
      | assumption | apply nextOr_keeps | apply execProfileReq_keeps | apply State.respOk_keeps
      | refine Keeps.ite (fun _ => ?_) (fun _ => ?_)
    | dsimp -zeta only
    | split
    | dsimp only

theorem State.wrCkg_keeps {s0 : State} {s : State} {m : Master} {o : Nat} {v : Nat} {t : State}  (h : Keeps s0 s) (e : State.wrCkg s m o v = some t) : Keeps s0 t := by
  unfold State.wrCkg at e
  repeat' first
    | (cases e; done)
    | (rw [Option.map_eq_some_iff] at e; obtain ⟨_, _, e⟩ := e)
    | split at e
    | dsimp only at e
  all_goals (try (first | cases e | injection e with e))
  all_goals repeat' first
    | with_reducible first
      | assumption | apply State.ignoreWr_keeps | apply State.coldWrite_keeps | apply State.islandWrite_keeps
      | apply State.respOk_keeps | refine Keeps.of_fst (by assumption) ?_ | refine Keeps.ite (fun _ => ?_) (fun _ => ?_)
    | dsimp -zeta only
    | split
    | dsimp only

theorem State.wrSec_keeps {s0 : State} {s : State} {m : Master} {o : Nat} {v : Nat} {t : State}  (h : Keeps s0 s) (e : State.wrSec s m o v = some t) : Keeps s0 t := by
  unfold State.wrSec at e
  repeat' first
    | (cases e; done)
    | (rw [Option.map_eq_some_iff] at e; obtain ⟨_, _, e⟩ := e)
    | split at e
    | dsimp only at e
  all_goals (try (first | cases e | injection e with e))
  all_goals repeat' first
    | with_reducible first
      | assumption | apply State.ignoreWr_keeps | apply State.respOk_keeps | apply State.pkCmd_keeps | apply nextOr_keeps
      | apply execBadOp_keeps | apply execPkRelease_keeps | apply State.takeFree_keeps | apply execFuseProg_keeps
      | apply State.newChal_keeps | apply State.submit_keeps | apply execKeyUnwrap_keeps | apply execKeyClear_keeps
      | apply execSecWinWrite_keeps | refine Keeps.of_fst (by assumption) ?_ | refine Keeps.of_snd (by assumption) ?_
      | refine OutKeeps.of_next ?_ (by assumption) | refine Keeps.ite (fun _ => ?_) (fun _ => ?_)
    | (extract_lets +onlyGivenNames x; apply Keeps.cut (t := x) <;> [subst x; (intro _; clear_value x)])
    | (extract_lets +onlyGivenNames x; subst x)
    | dsimp -zeta only
    | split
    | dsimp only

theorem State.afterPer_keeps {s0 : State} {old : State} {s : State} {o : Nat}  (h : Keeps s0 old) (h1 : Keeps s0 s) : Keeps s0 (State.afterPer old s o) := by
  unfold State.afterPer
  repeat' first
    | with_reducible first
      | assumption | apply State.emit_keeps | apply State.uartSend_keeps | apply foldl_keeps | apply foldl_keeps_fst | intro _
      | refine Keeps.of_fst (by assumption) ?_ | refine Keeps.ite (fun _ => ?_) (fun _ => ?_)
    | dsimp -zeta only
    | split
    | dsimp only

theorem State.wrPer_keeps {s0 : State} {s : State} {o : Nat} {v : Nat} {t : State}  (h : Keeps s0 s) (e : State.wrPer s o v = some t) : Keeps s0 t := by
  unfold State.wrPer at e
  repeat' first
    | (cases e; done)
    | (rw [Option.map_eq_some_iff] at e; obtain ⟨_, _, e⟩ := e)
    | split at e
    | dsimp only at e
  all_goals (try (first | cases e | injection e with e))
  all_goals repeat' first
    | with_reducible first
      | assumption | apply State.respOk_keeps | apply State.uartWrite_keeps | apply State.i2cWrite_keeps
      | apply State.spiWrite_keeps | apply State.xspiWrite_keeps | apply State.ufsRing_keeps
      | refine Keeps.of_fst (by assumption) ?_ | refine Keeps.ite (fun _ => ?_) (fun _ => ?_)
    | dsimp -zeta only
    | split
    | dsimp only

theorem State.wrHook_keeps {s0 : State} {s : State} {m : Master} {inst : Option (Fin 64)} {k : Nat} {o : Nat} {v : Nat} {t : State}  (h : Keeps s0 s) (e : State.wrHook s m inst k o v = some t) : Keeps s0 t := by
  unfold State.wrHook at e
  repeat' first
    | (cases e; done)
    | (rw [Option.map_eq_some_iff] at e; obtain ⟨_, _, e⟩ := e)
    | split at e
    | dsimp only at e
  all_goals (try (first | cases e | injection e with e))
  all_goals repeat' first
    | with_reducible first
      | assumption | refine Keeps.of_fst (by assumption) ?_ | refine State.wrPhx_keeps ?_ (by assumption)
      | refine State.wrSfe_keeps ?_ (by assumption) | refine State.wrCel_keeps ?_ (by assumption)
      | refine State.wrClc_keeps ?_ (by assumption) | refine State.wrWpe_keeps ?_ (by assumption)
      | refine State.wrRas_keeps ?_ (by assumption) | refine State.wrDpy_keeps ?_ (by assumption)
      | refine State.wrMem_keeps ?_ (by assumption) | refine State.wrFab_keeps ?_ (by assumption)
      | refine State.wrAtu_keeps ?_ (by assumption) | refine State.wrHqm_keeps ?_ (by assumption)
      | refine State.wrPci_keeps ?_ (by assumption) | refine State.wrTwn_keeps ?_ (by assumption)
      | refine State.wrFlt_keeps ?_ (by assumption) | refine State.wrAwl_keeps ?_ (by assumption)
      | refine State.wrFwp_keeps ?_ (by assumption) | refine State.wrEth_keeps ?_ (by assumption)
      | refine State.wrPtp_keeps ?_ (by assumption) | refine State.wrCan_keeps ?_ (by assumption)
      | refine State.wrPwr_keeps ?_ (by assumption) | refine State.wrCkg_keeps ?_ (by assumption)
      | refine State.wrSec_keeps ?_ (by assumption) | refine State.wrPer_keeps ?_ (by assumption)
    | dsimp -zeta only
    | split
    | dsimp only

theorem State.regApply_keeps {s0 : State} {s : State} {m : Master} {inst : Option (Fin 64)} {k : Nat} {o : Nat} {v : Nat} {d : RegDesc}  (h : Keeps s0 s) : Keeps s0 (State.regApply s m inst k o v d) := by
  unfold State.regApply
  repeat' first
    | with_reducible first
      | assumption | apply State.putReg_keeps | apply State.afterPtp_keeps | apply State.afterPer_keeps
      | apply State.respOk_keeps | refine Keeps.of_fst (by assumption) ?_ | refine State.wrHook_keeps ?_ (by assumption)
      | refine Keeps.ite (fun _ => ?_) (fun _ => ?_)
    | (extract_lets +onlyGivenNames x; apply Keeps.cut (t := x) <;> [subst x; (intro _; clear_value x)])
    | (extract_lets +onlyGivenNames x; subst x)
    | dsimp -zeta only
    | split
    | dsimp only

theorem State.rdHook_keeps {s0 : State} {s : State} {m : Master} {inst : Option (Fin 64)} {k : Nat} {o : Nat} {t : State} {x : _}  (h : Keeps s0 s) (e : State.rdHook s m inst k o = some (t, x)) : Keeps s0 t := by
  unfold State.rdHook at e
  repeat' first
    | (cases e; done)
    | (rw [Option.map_eq_some_iff] at e; obtain ⟨_, _, e⟩ := e)
    | split at e
    | dsimp only at e
  all_goals (try (first | cases e | injection e with e))
  all_goals repeat' first
    | with_reducible first
      | assumption | apply nextOr_keeps | apply execPhxEvtDataRead_keeps | apply State.setFld_keeps
      | apply execEpochAcqRead_keeps | apply State.setWord64_keeps | apply execPkClaim_keeps | apply State.uartRead_keeps
      | refine Keeps.of_fst (by assumption) ?_ | refine OutKeeps.of_next ?_ (by assumption)
      | refine Keeps.ite (fun _ => ?_) (fun _ => ?_)
    | (extract_lets +onlyGivenNames x; apply Keeps.cut (t := x) <;> [subst x; (intro _; clear_value x)])
    | (extract_lets +onlyGivenNames x; subst x)
    | dsimp -zeta only
    | split
    | dsimp only

theorem State.regValue_keeps {s0 : State} {s : State} {m : Master} {inst : Option (Fin 64)} {k : Nat} {o : Nat} {d : RegDesc}  (h : Keeps s0 s) : Keeps s0 (State.regValue s m inst k o d).1 := by
  unfold State.regValue
  repeat' first
    | with_reducible first
      | assumption | refine Keeps.of_fst (by assumption) ?_ | refine State.rdHook_keeps ?_ (by assumption)
    | dsimp -zeta only
    | split
    | dsimp only

end Sys2Proof.Machine
end

