-- ==== Sys2Proof/Laws/KeepsRegAccess.lean ====
section
/-! SUPPORT. What Machine/RegAccess.lean keeps. -/

namespace Sys2Proof.Machine

set_option linter.unusedTactic false
set_option linter.unreachableTactic false

theorem State.dropHolds_keeps {s0 : State} {s : State} {m : Master} {a : Nat} {n : Nat}  (h : Keeps s0 s) : Keeps s0 (State.dropHolds s m a n) := by
  unfold State.dropHolds
  repeat' first
    | with_reducible first
      | assumption | fail_if_no_progress apply Keeps.mk_
    | dsimp -zeta only
    | dsimp only

theorem State.write32_keeps {s0 : State} {s : State} {m : Master} {inst : Option (Fin 64)} {k : Nat} {o : Nat} {v : Nat}  (h : Keeps s0 s) : Keeps s0 (State.write32 s m inst k o v) := by
  unfold State.write32
  repeat' first
    | with_reducible first
      | assumption | apply State.refuse_keeps | apply State.ignoreWr_keeps | apply State.regApply_keeps
      | apply State.respOk_keeps | apply State.dropHolds_keeps | fail_if_no_progress apply Keeps.mk_
      | refine Keeps.of_fst (by assumption) ?_ | refine Keeps.ite (fun _ => ?_) (fun _ => ?_)
    | (extract_lets +onlyGivenNames x; apply Keeps.cut (t := x) <;> [subst x; (intro _; clear_value x)])
    | (extract_lets +onlyGivenNames x; subst x)
    | dsimp -zeta only
    | split
    | dsimp only

theorem State.write64_keeps {s0 : State} {s : State} {m : Master} {inst : Option (Fin 64)} {k : Nat} {o : Nat} {v : Nat}  (h : Keeps s0 s) : Keeps s0 (State.write64 s m inst k o v) := by
  unfold State.write64
  repeat' first
    | with_reducible first
      | assumption | apply State.write32_keeps | apply State.respErr_keeps | apply State.refuse_keeps
      | apply State.regApply_keeps | apply State.dropHolds_keeps | refine Keeps.of_fst (by assumption) ?_
      | refine Keeps.ite (fun _ => ?_) (fun _ => ?_)
    | (extract_lets +onlyGivenNames x; apply Keeps.cut (t := x) <;> [subst x; (intro _; clear_value x)])
    | (extract_lets +onlyGivenNames x; subst x)
    | dsimp -zeta only
    | split
    | dsimp only

theorem State.regWrite_keeps {s0 : State} {s : State} {m : Master} {inst : Option (Fin 64)} {a : Nat} {size : Nat} {v : Nat}  (h : Keeps s0 s) : Keeps s0 (State.regWrite s m inst a size v) := by
  unfold State.regWrite
  repeat' first
    | with_reducible first
      | assumption | apply State.write32_keeps | apply State.write64_keeps | apply State.refuse_keeps
      | refine Keeps.ite (fun _ => ?_) (fun _ => ?_)
    | (extract_lets +onlyGivenNames x; apply Keeps.cut (t := x) <;> [subst x; (intro _; clear_value x)])
    | (extract_lets +onlyGivenNames x; subst x)
    | dsimp -zeta only
    | split
    | dsimp only

theorem State.captureWords_keeps {s0 : State} {s : State} {m : Master} {a : Nat} {n : Nat} {v : Nat}  (h : Keeps s0 s) : Keeps s0 (State.captureWords s m a n v) := by
  unfold State.captureWords
  repeat' first
    | with_reducible first
      | assumption | apply foldl_keeps | apply foldl_keeps_fst | intro _ | fail_if_no_progress apply Keeps.mk_
    | (extract_lets +onlyGivenNames x; apply Keeps.cut (t := x) <;> [subst x; (intro _; clear_value x)])
    | (extract_lets +onlyGivenNames x; subst x)
    | dsimp -zeta only
    | dsimp only

theorem State.read32_keeps {s0 : State} {s : State} {m : Master} {inst : Option (Fin 64)} {k : Nat} {o : Nat}  (h : Keeps s0 s) : Keeps s0 (State.read32 s m inst k o).1 := by
  unfold State.read32
  repeat' first
    | with_reducible first
      | assumption | apply State.refuse_keeps | apply State.accessFault_keeps | apply State.regValue_keeps
      | apply nextOr_keeps | apply execEthPortTxtsRead_keeps | apply State.captureWords_keeps
      | fail_if_no_progress apply Keeps.mk_ | refine Keeps.of_fst (by assumption) ?_
      | refine OutKeeps.of_next ?_ (by assumption) | refine Keeps.ite1 (fun _ => ?_) (fun _ => ?_)
      | refine Keeps.ite (fun _ => ?_) (fun _ => ?_)
    | (extract_lets +onlyGivenNames x; apply Keeps.cut (t := x) <;> [subst x; (intro _; clear_value x)])
    | (extract_lets +onlyGivenNames x; subst x)
    | dsimp -zeta only
    | split
    | dsimp only

theorem State.read64_keeps {s0 : State} {s : State} {m : Master} {inst : Option (Fin 64)} {k : Nat} {o : Nat}  (h : Keeps s0 s) : Keeps s0 (State.read64 s m inst k o).1 := by
  unfold State.read64
  repeat' first
    | with_reducible first
      | assumption | apply State.read32_keeps | apply State.refuse_keeps | apply State.regValue_keeps
      | refine Keeps.of_fst (by assumption) ?_ | refine Keeps.ite1 (fun _ => ?_) (fun _ => ?_)
      | refine Keeps.ite (fun _ => ?_) (fun _ => ?_)
    | (extract_lets +onlyGivenNames x; apply Keeps.cut (t := x) <;> [subst x; (intro _; clear_value x)])
    | (extract_lets +onlyGivenNames x; subst x)
    | dsimp -zeta only
    | split
    | dsimp only

theorem State.regRead_keeps {s0 : State} {s : State} {m : Master} {inst : Option (Fin 64)} {a : Nat} {size : Nat}  (h : Keeps s0 s) : Keeps s0 (State.regRead s m inst a size) := by
  unfold State.regRead
  repeat' first
    | with_reducible first
      | assumption | apply State.respOk_keeps | apply State.respErr_keeps | apply State.read32_keeps
      | apply State.read64_keeps | apply State.refuse_keeps | refine Keeps.of_fst (by assumption) ?_
      | refine Keeps.ite (fun _ => ?_) (fun _ => ?_)
    | (extract_lets +onlyGivenNames x; apply Keeps.cut (t := x) <;> [subst x; (intro _; clear_value x)])
    | (extract_lets +onlyGivenNames x; subst x)
    | dsimp -zeta only
    | split
    | dsimp only

theorem execRegisterWrite_keeps {s0 : State} {m : Master} {inst : Option (Fin 64)} {addr : BitVec 52} {size : Fin 4} {v : BitVec 64} {s : State}  (h : Keeps s0 s) : OutKeeps s0 (execRegisterWrite m inst addr size v s) := by
  unfold execRegisterWrite
  repeat' first
    | with_reducible first
      | assumption | apply State.regWrite_keeps | apply OutKeeps.next | refine OutKeeps.ite (fun _ => ?_) (fun _ => ?_)
      | refine Keeps.ite (fun _ => ?_) (fun _ => ?_)
    | dsimp -zeta only
    | split
    | dsimp only

theorem execWideRegisterLowerRead_keeps {s0 : State} {m : Master} {inst : Option (Fin 64)} {addr : BitVec 52} {s : State}  (h : Keeps s0 s) : OutKeeps s0 (execWideRegisterLowerRead m inst addr s) := by
  unfold execWideRegisterLowerRead
  repeat' first
    | with_reducible first
      | assumption | apply State.regRead_keeps | apply OutKeeps.next | refine OutKeeps.ite (fun _ => ?_) (fun _ => ?_)
      | refine Keeps.ite (fun _ => ?_) (fun _ => ?_)
    | dsimp -zeta only
    | split
    | dsimp only

theorem State.mapAccess_keeps {s0 : State} {s : State} {m : Master} {inst : Option (Fin 64)} {write : Bool} {a : Nat} {n : Nat} {l : List Byte} {bad : Bool}  (h : Keeps s0 s) : Keeps s0 (State.mapAccess s m inst write a n l bad) := by
  unfold State.mapAccess
  repeat' first
    | with_reducible first
      | assumption | apply State.regWrite_keeps | apply State.regRead_keeps | apply State.outbound_keeps
      | apply State.freeBytes_keeps | apply State.respOk_keeps | apply State.writePa_keeps | apply State.readPa_keeps
      | apply State.mapRefuse_keeps | fail_if_no_progress apply Keeps.mk_ | refine Keeps.of_fst (by assumption) ?_
      | refine Keeps.of_snd (by assumption) ?_ | refine State.holdTile_keeps ?_ (by assumption)
      | refine Keeps.ite (fun _ => ?_) (fun _ => ?_)
    | dsimp -zeta only
    | split
    | dsimp only

theorem State.accessPage_keeps {s0 : State} {s : State} {m : Master} {inst : Option (Fin 64)} {write : Bool} {va : Nat} {l : List Byte} {bad : Bool} {p : Nat × Nat}  (h : Keeps s0 s) : Keeps s0 (State.accessPage s m inst write va l bad p) := by
  unfold State.accessPage
  repeat' first
    | with_reducible first
      | assumption | apply State.xlat_keeps | apply State.respErr_keeps | apply State.mapAccess_keeps
      | refine Keeps.of_fst (by assumption) ?_ | refine Keeps.ite (fun _ => ?_) (fun _ => ?_)
    | dsimp -zeta only
    | split
    | dsimp only

theorem State.accessPages_keeps {s0 : State} {m : Master} {inst : Option (Fin 64)} {write : Bool} {va : Nat} {l : List Byte} {bad : Bool} :
    ∀ (ps : List (Nat × Nat)) {s : State} {r : Resp}, Keeps s0 s → Keeps s0 (State.accessPages s m inst write va l bad ps r)
  | [], _, _, h => Keeps.mk_ h
  | _ :: rest, _, _, h => State.accessPages_keeps rest (State.accessPage_keeps h)

theorem State.access_keeps {s0 : State} {s : State} {m : Master} {inst : Option (Fin 64)} {write : Bool} {va : Nat} {n : Nat} {l : List Byte} {bad : Bool}  (h : Keeps s0 s) : Keeps s0 (State.access s m inst write va n l bad) := by
  unfold State.access
  repeat' first
    | with_reducible first
      | assumption | apply State.xlat_keeps | apply State.respErr_keeps | apply State.mapAccess_keeps
      | apply State.accessPages_keeps | refine Keeps.of_fst (by assumption) ?_ | refine Keeps.ite (fun _ => ?_) (fun _ => ?_)
    | dsimp -zeta only
    | split
    | dsimp only

theorem State.staleDrop_keeps {s0 : State} {s : State} {m : Master} {incarn : Nat}  (h : Keeps s0 s) : Keeps s0 (State.staleDrop s m incarn) := by
  unfold State.staleDrop
  repeat' first
    | with_reducible first
      | assumption | apply State.orWord_keeps | apply State.bump_keeps | apply State.fault_keeps
      | refine Keeps.ite (fun _ => ?_) (fun _ => ?_)
    | (extract_lets +onlyGivenNames x; apply Keeps.cut (t := x) <;> [subst x; (intro _; clear_value x)])
    | (extract_lets +onlyGivenNames x; subst x)
    | dsimp -zeta only
    | split
    | dsimp only

theorem execFabricMemoryAccess_keeps {s0 : State} {m : Master} {inst : Option (Fin 64)} {write : Bool} {addr : BitVec 64} {len : Fin 4097} {data : List Byte} {poison : Bool} {incarn : BitVec 8} {s : State}  (h : Keeps s0 s) : OutKeeps s0 (execFabricMemoryAccess m inst write addr len data poison incarn s) := by
  unfold execFabricMemoryAccess
  repeat' first
    | with_reducible first
      | assumption | apply State.staleDrop_keeps | apply State.access_keeps | apply OutKeeps.next
      | refine Keeps.of_fst (by assumption) ?_ | refine OutKeeps.ite (fun _ => ?_) (fun _ => ?_)
      | refine Keeps.ite (fun _ => ?_) (fun _ => ?_)
    | dsimp -zeta only
    | split
    | dsimp only

theorem execHeldAccessRelease_keeps {s0 : State} {s : State}  (h : Keeps s0 s) : OutKeeps s0 (execHeldAccessRelease s) := by
  unfold execHeldAccessRelease
  repeat' first
    | with_reducible first
      | assumption | apply State.sendBack_keeps | apply State.mapAccess_keeps | apply OutKeeps.next
      | fail_if_no_progress apply Keeps.mk_ | refine Keeps.of_fst (by assumption) ?_
    | (extract_lets +onlyGivenNames x; apply Keeps.cut (t := x) <;> [subst x; (intro _; clear_value x)])
    | (extract_lets +onlyGivenNames x; subst x)
    | dsimp -zeta only
    | split
    | dsimp only

end Sys2Proof.Machine
end

