-- ==== Sys2Proof/Laws/KeepsCellFab.lean ====
section
/-! SUPPORT. What Machine/CellFab.lean keeps. -/

namespace Sys2Proof.Machine

set_option linter.unusedTactic false
set_option linter.unreachableTactic false

theorem State.rdPhys_keeps {s0 : State} {s : State} {inst : Option (Fin 64)} {m : Master} {a : Nat} {n : Nat}  (h : Keeps s0 s) : Keeps s0 (State.rdPhys s inst m a n).1 := by
  unfold State.rdPhys
  repeat' first
    | with_reducible first
      | assumption | apply State.regRead_keeps | apply State.dmaRead_keeps | fail_if_no_progress apply Keeps.mk_
      | refine Keeps.of_fst (by assumption) ?_ | refine Keeps.ite1 (fun _ => ?_) (fun _ => ?_)
      | refine Keeps.ite (fun _ => ?_) (fun _ => ?_)
    | (extract_lets +onlyGivenNames x; apply Keeps.cut (t := x) <;> [subst x; (intro _; clear_value x)])
    | (extract_lets +onlyGivenNames x; subst x)
    | dsimp -zeta only
    | split
    | dsimp only

theorem State.wrPhys_keeps {s0 : State} {s : State} {inst : Option (Fin 64)} {m : Master} {a : Nat} {l : List Byte} {bad : Bool}  (h : Keeps s0 s) : Keeps s0 (State.wrPhys s inst m a l bad).1 := by
  unfold State.wrPhys
  repeat' first
    | with_reducible first
      | assumption | apply State.regWrite_keeps | apply State.dmaWrite_keeps | fail_if_no_progress apply Keeps.mk_
      | refine Keeps.of_fst (by assumption) ?_ | refine Keeps.ite1 (fun _ => ?_) (fun _ => ?_)
      | refine Keeps.ite (fun _ => ?_) (fun _ => ?_)
    | (extract_lets +onlyGivenNames x; apply Keeps.cut (t := x) <;> [subst x; (intro _; clear_value x)])
    | (extract_lets +onlyGivenNames x; subst x)
    | dsimp -zeta only
    | split
    | dsimp only

theorem State.rdAt_keeps {s0 : State} {s : State} {inst : Option (Fin 64)} {m : Master} {va : Nat} {n : Nat}  (h : Keeps s0 s) : Keeps s0 (State.rdAt s inst m va n).1 := by
  unfold State.rdAt
  repeat' first
    | with_reducible first
      | assumption | apply State.xlat_keeps | apply State.rdPhys_keeps | refine Keeps.of_fst (by assumption) ?_
    | dsimp -zeta only
    | split
    | dsimp only

theorem State.wrAt_keeps {s0 : State} {s : State} {inst : Option (Fin 64)} {m : Master} {va : Nat} {l : List Byte} {bad : Bool}  (h : Keeps s0 s) : Keeps s0 (State.wrAt s inst m va l bad).1 := by
  unfold State.wrAt
  repeat' first
    | with_reducible first
      | assumption | apply State.xlat_keeps | apply State.wrPhys_keeps | refine Keeps.of_fst (by assumption) ?_
    | dsimp -zeta only
    | split
    | dsimp only

theorem State.rdWide_keeps {s0 : State} {s : State} {inst : Option (Fin 64)} {m : Master} {va : Nat} {n : Nat}  (h : Keeps s0 s) : Keeps s0 (State.rdWide s inst m va n).1 := by
  unfold State.rdWide
  repeat' first
    | with_reducible first
      | assumption | apply State.rdAt_keeps | apply foldl_keeps | apply foldl_keeps_fst | intro _
      | refine Keeps.of_fst (by assumption) ?_
    | dsimp -zeta only
    | split
    | dsimp only

theorem State.wrWide_keeps {s0 : State} {s : State} {inst : Option (Fin 64)} {m : Master} {va : Nat} {l : List Byte} {bad : Bool}  (h : Keeps s0 s) : Keeps s0 (State.wrWide s inst m va l bad).1 := by
  unfold State.wrWide
  repeat' first
    | with_reducible first
      | assumption | apply State.wrAt_keeps | apply foldl_keeps | apply foldl_keeps_fst | intro _
      | refine Keeps.of_fst (by assumption) ?_
    | dsimp -zeta only
    | split
    | dsimp only

end Sys2Proof.Machine
end

