-- ==== Sys2Proof/Laws/KeepsCellLace.lean ====
section
/-! SUPPORT. What Machine/CellLace.lean keeps. -/

namespace Sys2Proof.Machine

set_option linter.unusedTactic false
set_option linter.unreachableTactic false

theorem execLaceInstruction_keeps {s0 : State} {cell : Fin 256} {group : Fin 128} {s : State}  (h : Keeps s0 s) : OutKeeps s0 (execLaceInstruction cell group s) := by
  unfold execLaceInstruction
  repeat' first
    | with_reducible first
      | assumption | apply State.issueTo_keeps | apply OutKeeps.next
    | dsimp -zeta only
    | dsimp only

theorem State.laceAccept_keeps {s0 : State} {s : State} {c : Nat}  (h : Keeps s0 s) : Keeps s0 (State.laceAccept s c) := by
  unfold State.laceAccept
  repeat' first
    | with_reducible first
      | assumption | apply State.setChan_keeps | apply State.modCell_keeps | refine Keeps.of_fst (by assumption) ?_
      | refine Keeps.ite (fun _ => ?_) (fun _ => ?_)
    | (extract_lets +onlyGivenNames x; apply Keeps.cut (t := x) <;> [subst x; (intro _; clear_value x)])
    | (extract_lets +onlyGivenNames x; subst x)
    | dsimp -zeta only
    | split
    | dsimp only

theorem execLaceListAccept_keeps {s0 : State} {cell : Fin 256} {s : State}  (h : Keeps s0 s) : OutKeeps s0 (execLaceListAccept cell s) := by
  unfold execLaceListAccept
  repeat' first
    | with_reducible first
      | assumption | apply State.laceAccept_keeps | apply OutKeeps.next
    | dsimp -zeta only
    | dsimp only

theorem State.laceStop_keeps {s0 : State} {s : State} {b2 : Nat} {k : Nat} {l : LaceList} {b5 : LaceErr}  (h : Keeps s0 s) : Keeps s0 (State.laceStop s b2 k l b5) := by
  unfold State.laceStop
  repeat' first
    | with_reducible first
      | assumption | apply State.setChan_keeps | apply State.afterDrain_keeps | apply State.faultAt_keeps
      | apply State.pendExc_keeps | refine Keeps.of_fst (by assumption) ?_
    | (extract_lets +onlyGivenNames x; apply Keeps.cut (t := x) <;> [subst x; (intro _; clear_value x)])
    | (extract_lets +onlyGivenNames x; subst x)
    | dsimp -zeta only
    | split
    | dsimp only

theorem State.rdAtP_keeps {s0 : State} {s : State} {inst : Option (Fin 64)} {m : Master} {va : Nat} {n : Nat}  (h : Keeps s0 s) : Keeps s0 (State.rdAtP s inst m va n).1 := by
  unfold State.rdAtP
  repeat' first
    | with_reducible first
      | assumption | apply State.xlat_keeps | apply State.rdPhys_keeps | refine Keeps.of_fst (by assumption) ?_
    | (extract_lets +onlyGivenNames x; apply Keeps.cut (t := x) <;> [subst x; (intro _; clear_value x)])
    | (extract_lets +onlyGivenNames x; subst x)
    | dsimp -zeta only
    | split
    | dsimp only

theorem State.rdWideP_keeps {s0 : State} {s : State} {inst : Option (Fin 64)} {m : Master} {va : Nat} {n : Nat}  (h : Keeps s0 s) : Keeps s0 (State.rdWideP s inst m va n).1 := by
  unfold State.rdWideP
  repeat' first
    | with_reducible first
      | assumption | apply State.rdAtP_keeps | apply foldl_keeps | apply foldl_keeps_fst | intro _
      | refine Keeps.of_fst (by assumption) ?_
    | dsimp -zeta only
    | split
    | dsimp only

theorem State.laceRd_keeps {s0 : State} {s : State} {b2 : Nat} {l : LaceList} {tile : Bool} {a : Nat} {n : Nat}  (h : Keeps s0 s) : Keeps s0 (State.laceRd s b2 l tile a n).1 := by
  unfold State.laceRd
  repeat' first
    | with_reducible first
      | assumption | apply State.rdWideP_keeps | refine Keeps.of_fst (by assumption) ?_
      | refine Keeps.ite1 (fun _ => ?_) (fun _ => ?_) | refine Keeps.ite (fun _ => ?_) (fun _ => ?_)
    | dsimp -zeta only
    | split
    | dsimp only

theorem State.laceWrRun_keeps {s0 : State} {s : State} {b2 : Nat} {l : LaceList} {tile : Bool} {a : Nat} {b : List Byte} {bad : Bool}  (h : Keeps s0 s) : Keeps s0 (State.laceWrRun s b2 l tile a b bad).1 := by
  unfold State.laceWrRun
  repeat' first
    | with_reducible first
      | assumption | apply State.tsWrite_keeps | apply State.wrWide_keeps | refine Keeps.of_fst (by assumption) ?_
      | refine Keeps.ite1 (fun _ => ?_) (fun _ => ?_) | refine Keeps.ite (fun _ => ?_) (fun _ => ?_)
    | dsimp -zeta only
    | split
    | dsimp only

theorem State.laceWr_keeps {s0 : State} {s : State} {b2 : Nat} {l : LaceList} {tile : Bool} {a : Nat} {b : PBytes}  (h : Keeps s0 s) : Keeps s0 (State.laceWr s b2 l tile a b).1 := by
  unfold State.laceWr
  repeat' first
    | with_reducible first
      | assumption | apply State.laceWrRun_keeps | apply foldl_keeps | apply foldl_keeps_fst | intro _
      | refine Keeps.of_fst (by assumption) ?_
    | (extract_lets +onlyGivenNames x; apply Keeps.cut (t := x) <;> [subst x; (intro _; clear_value x)])
    | (extract_lets +onlyGivenNames x; subst x)
    | dsimp -zeta only
    | split
    | dsimp only

theorem State.laceExpand_keeps {s0 : State} {s : State} {b2 : Nat} {l : LaceList} {tile : Bool} {a : Nat}  (h : Keeps s0 s) : Keeps s0 (State.laceExpand s b2 l tile a).1 := by
  unfold State.laceExpand
  repeat' first
    | with_reducible first
      | assumption | apply State.laceRd_keeps | refine Keeps.of_fst (by assumption) ?_
    | (extract_lets +onlyGivenNames x; apply Keeps.cut (t := x) <;> [subst x; (intro _; clear_value x)])
    | (extract_lets +onlyGivenNames x; subst x)
    | dsimp -zeta only
    | split
    | dsimp only

theorem State.laceRowIn_keeps {s0 : State} {s : State} {b2 : Nat} {l : LaceList} {d : List Byte} {r : Nat} {pos : Nat}  (h : Keeps s0 s) : Keeps s0 (State.laceRowIn s b2 l d r pos).1 := by
  unfold State.laceRowIn
  repeat' first
    | with_reducible first
      | assumption | apply State.laceExpand_keeps | apply State.laceRd_keeps | apply foldl_keeps | apply foldl_keeps_fst
      | intro _ | refine Keeps.of_fst (by assumption) ?_ | refine Keeps.ite1 (fun _ => ?_) (fun _ => ?_)
      | refine Keeps.ite (fun _ => ?_) (fun _ => ?_)
    | dsimp -zeta only
    | split
    | dsimp only

theorem LaceRun.row_keeps {s0 : State} {b1 : LaceRun} {b2 : Nat} {l : LaceList} {d : List Byte} {r : Nat}  (h : Keeps s0 b1.s) : Keeps s0 (LaceRun.row b1 b2 l d r).s := by
  unfold LaceRun.row
  repeat' first
    | with_reducible first
      | assumption | apply State.laceRowIn_keeps | apply State.laceWr_keeps | refine Keeps.of_fst (by assumption) ?_
      | refine Keeps.ite (fun _ => ?_) (fun _ => ?_)
    | (extract_lets +onlyGivenNames x; apply Keeps.cut (t := x) <;> [subst x; (intro _; clear_value x)])
    | (extract_lets +onlyGivenNames x; subst x)
    | dsimp -zeta only
    | split
    | dsimp only

theorem State.laceRun_keeps {s0 : State} {s : State} {b2 : Nat} {l : LaceList} {d : List Byte}  (h : Keeps s0 s) : Keeps s0 (State.laceRun s b2 l d).s := by
  unfold State.laceRun
  repeat' first
    | with_reducible first
      | assumption | apply LaceRun.row_keeps | apply foldl_keeps | apply foldl_keeps_fst | apply foldl_keeps_by LaceRun.s
      | intro _
    | dsimp -zeta only
    | dsimp only

theorem State.laceFetch_keeps {s0 : State} {s : State} {b2 : Nat} {l : LaceList} {a : Nat}  (h : Keeps s0 s) : Keeps s0 (State.laceFetch s b2 l a).1 := by
  unfold State.laceFetch
  repeat' first
    | with_reducible first
      | assumption | apply State.laceRd_keeps | refine Keeps.of_fst (by assumption) ?_
      | refine Keeps.ite1 (fun _ => ?_) (fun _ => ?_) | refine Keeps.ite (fun _ => ?_) (fun _ => ?_)
    | (extract_lets +onlyGivenNames x; apply Keeps.cut (t := x) <;> [subst x; (intro _; clear_value x)])
    | (extract_lets +onlyGivenNames x; subst x)
    | dsimp -zeta only
    | split
    | dsimp only

theorem State.laceExec_keeps {s0 : State} {s : State} {b2 : Nat} {c : Nat}  (h : Keeps s0 s) : Keeps s0 (State.laceExec s b2 c) := by
  unfold State.laceExec
  repeat' first
    | with_reducible first
      | assumption | apply State.setChan_keeps | apply State.laceFetch_keeps | apply State.laceStop_keeps
      | apply State.laceRun_keeps | refine Keeps.of_fst (by assumption) ?_ | refine Keeps.ite (fun _ => ?_) (fun _ => ?_)
    | (extract_lets +onlyGivenNames x; apply Keeps.cut (t := x) <;> [subst x; (intro _; clear_value x)])
    | (extract_lets +onlyGivenNames x; subst x)
    | dsimp -zeta only
    | split
    | dsimp only

theorem execLaceDescriptorExecute_keeps {s0 : State} {engine : Fin 272} {chan : Fin 4} {s : State}  (h : Keeps s0 s) : OutKeeps s0 (execLaceDescriptorExecute engine chan s) := by
  unfold execLaceDescriptorExecute
  repeat' first
    | with_reducible first
      | assumption | apply State.laceExec_keeps | apply OutKeeps.next
    | dsimp -zeta only
    | dsimp only

theorem State.laceSignal_keeps {s0 : State} {s : State} {b2 : Nat} {c : Nat}  (h : Keeps s0 s) : Keeps s0 (State.laceSignal s b2 c) := by
  unfold State.laceSignal
  repeat' first
    | with_reducible first
      | assumption | apply State.laceWrRun_keeps | apply State.laceStop_keeps | apply State.setChan_keeps
      | refine Keeps.of_fst (by assumption) ?_ | refine Keeps.ite (fun _ => ?_) (fun _ => ?_)
    | (extract_lets +onlyGivenNames x; apply Keeps.cut (t := x) <;> [subst x; (intro _; clear_value x)])
    | (extract_lets +onlyGivenNames x; subst x)
    | dsimp -zeta only
    | split
    | dsimp only

theorem execLaceSignalWrite_keeps {s0 : State} {engine : Fin 272} {chan : Fin 4} {s : State}  (h : Keeps s0 s) : OutKeeps s0 (execLaceSignalWrite engine chan s) := by
  unfold execLaceSignalWrite
  repeat' first
    | with_reducible first
      | assumption | apply State.laceSignal_keeps | apply OutKeeps.next
    | dsimp -zeta only
    | dsimp only

theorem State.laceDone_keeps {s0 : State} {s : State} {b2 : Nat} {c : Nat}  (h : Keeps s0 s) : Keeps s0 (State.laceDone s b2 c) := by
  unfold State.laceDone
  repeat' first
    | with_reducible first
      | assumption | apply State.setChan_keeps | apply State.qDone_keeps | apply State.afterDrain_keeps
      | refine Keeps.of_fst (by assumption) ?_ | refine Keeps.ite (fun _ => ?_) (fun _ => ?_)
    | (extract_lets +onlyGivenNames x; apply Keeps.cut (t := x) <;> [subst x; (intro _; clear_value x)])
    | (extract_lets +onlyGivenNames x; subst x)
    | dsimp -zeta only
    | split
    | dsimp only

theorem execLaceListComplete_keeps {s0 : State} {engine : Fin 272} {chan : Fin 4} {s : State}  (h : Keeps s0 s) : OutKeeps s0 (execLaceListComplete engine chan s) := by
  unfold execLaceListComplete
  repeat' first
    | with_reducible first
      | assumption | apply State.laceDone_keeps | apply OutKeeps.next
    | dsimp -zeta only
    | dsimp only

theorem State.laceTack_keeps {s0 : State} {s : State} {b2 : Nat} {tack : Nat} {owner : Option Nat} {gen : Nat} {idx : Nat}  (h : Keeps s0 s) : Keeps s0 (State.laceTack s b2 tack owner gen idx).1 := by
  unfold State.laceTack
  repeat' first
    | with_reducible first
      | assumption | apply State.setChan_keeps | refine Keeps.of_fst (by assumption) ?_
      | refine Keeps.ite1 (fun _ => ?_) (fun _ => ?_) | refine Keeps.ite (fun _ => ?_) (fun _ => ?_)
    | (extract_lets +onlyGivenNames x; apply Keeps.cut (t := x) <;> [subst x; (intro _; clear_value x)])
    | (extract_lets +onlyGivenNames x; subst x)
    | dsimp -zeta only
    | split
    | dsimp only

end Sys2Proof.Machine
end

