-- ==== Sys2Proof/Laws/KeepsCellMem.lean ====
section
/-! SUPPORT. What Machine/CellMem.lean keeps. -/

namespace Sys2Proof.Machine

set_option linter.unusedTactic false
set_option linter.unreachableTactic false

/-- What comes of a memory instruction keeps it. -/
def MemKeeps (s0 : State) (r : MemRes) : Prop := ∀ t, ((∃ e, r = .exc t e) ∨ r = .done t) → Keeps s0 t

theorem MemKeeps.wait {s0 : State} : MemKeeps s0 .wait := by
  rintro t (⟨e, h⟩ | h) <;> cases h

theorem MemKeeps.exc {s0 t : State} {e : Exc} (k : Keeps s0 t) : MemKeeps s0 (.exc t e) := by
  rintro u (⟨e, h⟩ | h) <;> cases h
  exact k

theorem MemKeeps.done {s0 t : State} (k : Keeps s0 t) : MemKeeps s0 (.done t) := by
  rintro u (⟨e, h⟩ | h) <;> cases h
  exact k

theorem MemKeeps.of_exc {s0 t : State} {e : Exc} {r : MemRes} (k : MemKeeps s0 r) (h : r = .exc t e) : Keeps s0 t := k t (.inl ⟨e, h⟩)

theorem MemKeeps.of_done {s0 t : State} {r : MemRes} (k : MemKeeps s0 r) (h : r = .done t) : Keeps s0 t := k t (.inr h)

theorem MemKeeps.ite {s0 : State} {a b : MemRes} {p : Prop} [Decidable p] (h : p → MemKeeps s0 a) (k : ¬p → MemKeeps s0 b) :
    MemKeeps s0 (if p then a else b) := by
  split
  · next x => exact h x
  · next x => exact k x

theorem State.issueMem_keeps {s0 : State} {s : State} {c : Nat} {g : Nat} {want : Nat → Bool} {f : State → CGroup → Nat → MemRes} (hf : ∀ s x0 x1, Keeps s0 s → MemKeeps s0 (f s x0 x1)) (h : Keeps s0 s) : Keeps s0 (State.issueMem s c g want f) := by
  unfold State.issueMem
  repeat' first
    | with_reducible first
      | assumption | apply hf | apply State.syncExc_keeps | apply MemKeeps.exc | apply MemKeeps.done | apply MemKeeps.wait
      | refine MemKeeps.of_exc ?_ (by assumption) | refine MemKeeps.of_done ?_ (by assumption)
      | refine Keeps.of_fst (by assumption) ?_
    | (extract_lets +onlyGivenNames x; apply Keeps.cut (t := x) <;> [subst x; (intro _; clear_value x)])
    | (extract_lets +onlyGivenNames x; subst x)
    | dsimp -zeta only
    | split
    | dsimp only

theorem State.lateAccess_keeps {s0 : State} {s : State} {c : Nat} {g : Nat} {q : CGroup} {w : Nat} {addr : Nat}  (h : Keeps s0 s) : Keeps s0 (State.lateAccess s c g q w addr) := by
  unfold State.lateAccess
  repeat' first
    | with_reducible first
      | assumption | apply State.pendExc_keeps | apply MemKeeps.exc | apply MemKeeps.done | apply MemKeeps.wait
      | refine MemKeeps.of_exc ?_ (by assumption) | refine MemKeeps.of_done ?_ (by assumption)
    | dsimp -zeta only
    | dsimp only

theorem State.sld_keeps {s0 : State} {s : State} {c : Nat} {g : Nat} {q : CGroup} {w : Nat}  (h : Keeps s0 s) : MemKeeps s0 (State.sld s c g q w) := by
  unfold State.sld
  repeat' first
    | with_reducible first
      | assumption | apply State.setGroup_keeps | apply State.xlat_keeps | apply State.rdPhys_keeps
      | apply State.lateAccess_keeps | apply MemKeeps.exc | apply MemKeeps.done | apply MemKeeps.wait
      | refine MemKeeps.of_exc ?_ (by assumption) | refine MemKeeps.of_done ?_ (by assumption)
      | refine Keeps.of_fst (by assumption) ?_ | refine MemKeeps.ite (fun _ => ?_) (fun _ => ?_)
      | refine Keeps.ite (fun _ => ?_) (fun _ => ?_)
    | (extract_lets +onlyGivenNames x; apply Keeps.cut (t := x) <;> [subst x; (intro _; clear_value x)])
    | (extract_lets +onlyGivenNames x; subst x)
    | dsimp -zeta only
    | split
    | dsimp only

theorem execSld_keeps {s0 : State} {cell : Fin 256} {group : Fin 128} {s : State}  (h : Keeps s0 s) : OutKeeps s0 (execSld cell group s) := by
  unfold execSld
  repeat' first
    | with_reducible first
      | assumption | apply State.issueMem_keeps | apply State.sld_keeps | apply MemKeeps.exc | apply MemKeeps.done
      | apply MemKeeps.wait | refine MemKeeps.of_exc ?_ (by assumption) | refine MemKeeps.of_done ?_ (by assumption)
      | apply OutKeeps.next | intro _
    | dsimp -zeta only
    | dsimp only

theorem State.sst_keeps {s0 : State} {s : State} {c : Nat} {g : Nat} {q : CGroup} {w : Nat}  (h : Keeps s0 s) : MemKeeps s0 (State.sst s c g q w) := by
  unfold State.sst
  repeat' first
    | with_reducible first
      | assumption | apply State.setGroup_keeps | apply State.tsWrite_keeps | apply State.xlat_keeps
      | apply State.wrPhys_keeps | apply State.lateAccess_keeps | apply MemKeeps.exc | apply MemKeeps.done
      | apply MemKeeps.wait | refine MemKeeps.of_exc ?_ (by assumption) | refine MemKeeps.of_done ?_ (by assumption)
      | refine Keeps.of_fst (by assumption) ?_ | refine MemKeeps.ite (fun _ => ?_) (fun _ => ?_)
      | refine Keeps.ite (fun _ => ?_) (fun _ => ?_)
    | (extract_lets +onlyGivenNames x; apply Keeps.cut (t := x) <;> [subst x; (intro _; clear_value x)])
    | (extract_lets +onlyGivenNames x; subst x)
    | dsimp -zeta only
    | split
    | dsimp only

theorem execSst_keeps {s0 : State} {cell : Fin 256} {group : Fin 128} {s : State}  (h : Keeps s0 s) : OutKeeps s0 (execSst cell group s) := by
  unfold execSst
  repeat' first
    | with_reducible first
      | assumption | apply State.issueMem_keeps | apply State.sst_keeps | apply MemKeeps.exc | apply MemKeeps.done
      | apply MemKeeps.wait | refine MemKeeps.of_exc ?_ (by assumption) | refine MemKeeps.of_done ?_ (by assumption)
      | apply OutKeeps.next | intro _
    | dsimp -zeta only
    | dsimp only

theorem State.laneAccs_keeps {s0 : State} {s : State} {c : Nat} {q : CGroup} {fab : Bool} {w : Nat} {act : Nat} {acc : Nat} {n : Nat}  (h : Keeps s0 s) : Keeps s0 (State.laneAccs s c q fab w act acc n).1 := by
  unfold State.laneAccs
  repeat' first
    | with_reducible first
      | assumption | apply State.xlat_keeps | apply MemKeeps.exc | apply MemKeeps.done | apply MemKeeps.wait
      | refine MemKeeps.of_exc ?_ (by assumption) | refine MemKeeps.of_done ?_ (by assumption) | apply foldl_keeps
      | apply foldl_keeps_fst | intro _ | refine Keeps.of_fst (by assumption) ?_
      | refine Keeps.ite1 (fun _ => ?_) (fun _ => ?_) | refine Keeps.ite (fun _ => ?_) (fun _ => ?_)
    | (extract_lets +onlyGivenNames x; apply Keeps.cut (t := x) <;> [subst x; (intro _; clear_value x)])
    | (extract_lets +onlyGivenNames x; subst x)
    | dsimp -zeta only
    | split
    | dsimp only

theorem State.laneRd_keeps {s0 : State} {s : State} {c : Nat} {fab : Bool} {b4 : LaneAcc} {n : Nat}  (h : Keeps s0 s) : Keeps s0 (State.laneRd s c fab b4 n).1 := by
  unfold State.laneRd
  repeat' first
    | with_reducible first
      | assumption | apply State.rdPhys_keeps | apply MemKeeps.exc | apply MemKeeps.done | apply MemKeeps.wait
      | refine MemKeeps.of_exc ?_ (by assumption) | refine MemKeeps.of_done ?_ (by assumption)
      | refine Keeps.of_fst (by assumption) ?_ | refine Keeps.ite1 (fun _ => ?_) (fun _ => ?_)
      | refine Keeps.ite (fun _ => ?_) (fun _ => ?_)
    | dsimp -zeta only
    | split
    | dsimp only

theorem State.laneWr_keeps {s0 : State} {s : State} {c : Nat} {fab : Bool} {b4 : LaneAcc} {l : List Byte} {bad : Bool}  (h : Keeps s0 s) : Keeps s0 (State.laneWr s c fab b4 l bad).1 := by
  unfold State.laneWr
  repeat' first
    | with_reducible first
      | assumption | apply State.wrPhys_keeps | apply State.tsWrite_keeps | apply MemKeeps.exc | apply MemKeeps.done
      | apply MemKeeps.wait | refine MemKeeps.of_exc ?_ (by assumption) | refine MemKeeps.of_done ?_ (by assumption)
      | refine Keeps.ite1 (fun _ => ?_) (fun _ => ?_) | refine Keeps.ite (fun _ => ?_) (fun _ => ?_)
    | dsimp -zeta only
    | split
    | dsimp only

theorem LoadRun.load_keeps {s0 : State} {b1 : LoadRun} {c : Nat} {fab : Bool} {n : Nat} {a : LaneAcc}  (h : Keeps s0 b1.s) : Keeps s0 (LoadRun.load b1 c fab n a).s := by
  unfold LoadRun.load
  repeat' first
    | with_reducible first
      | assumption | apply State.laneRd_keeps | apply MemKeeps.exc | apply MemKeeps.done | apply MemKeeps.wait
      | refine MemKeeps.of_exc ?_ (by assumption) | refine MemKeeps.of_done ?_ (by assumption)
      | refine Keeps.of_fst (by assumption) ?_ | refine Keeps.ite (fun _ => ?_) (fun _ => ?_)
    | dsimp -zeta only
    | split
    | dsimp only

theorem State.tld_keeps {s0 : State} {s : State} {c : Nat} {g : Nat} {q : CGroup} {w : Nat}  (h : Keeps s0 s) : MemKeeps s0 (State.tld s c g q w) := by
  unfold State.tld
  repeat' first
    | with_reducible first
      | assumption | apply State.laneAccs_keeps | apply LoadRun.load_keeps | apply State.lateAccess_keeps
      | apply State.setGroup_keeps | apply MemKeeps.exc | apply MemKeeps.done | apply MemKeeps.wait
      | refine MemKeeps.of_exc ?_ (by assumption) | refine MemKeeps.of_done ?_ (by assumption) | apply foldl_keeps
      | apply foldl_keeps_fst | apply foldl_keeps_by LoadRun.s | intro _ | refine Keeps.of_fst (by assumption) ?_
      | refine MemKeeps.ite (fun _ => ?_) (fun _ => ?_) | refine Keeps.ite (fun _ => ?_) (fun _ => ?_)
    | (extract_lets +onlyGivenNames x; apply Keeps.cut (t := x) <;> [subst x; (intro _; clear_value x)])
    | (extract_lets +onlyGivenNames x; subst x)
    | dsimp -zeta only
    | split
    | dsimp only

theorem execTld_keeps {s0 : State} {cell : Fin 256} {group : Fin 128} {err : Fin 5} {idx : BitVec 32} {s : State}  (h : Keeps s0 s) : OutKeeps s0 (execTld cell group err idx s) := by
  unfold execTld
  repeat' first
    | with_reducible first
      | assumption | apply State.issueMem_keeps | apply State.storageErr_keeps | apply State.tld_keeps | apply MemKeeps.exc
      | apply MemKeeps.done | apply MemKeeps.wait | refine MemKeeps.of_exc ?_ (by assumption)
      | refine MemKeeps.of_done ?_ (by assumption) | apply OutKeeps.next | intro _
    | dsimp -zeta only
    | dsimp only

theorem State.storeLanes_keeps {s0 : State} {s : State} {c : Nat} {fab : Bool} {l : List (LaneAcc × List Byte × Bool)}  (h : Keeps s0 s) : Keeps s0 (State.storeLanes s c fab l).1 := by
  unfold State.storeLanes
  repeat' first
    | with_reducible first
      | assumption | apply State.laneWr_keeps | apply MemKeeps.exc | apply MemKeeps.done | apply MemKeeps.wait
      | refine MemKeeps.of_exc ?_ (by assumption) | refine MemKeeps.of_done ?_ (by assumption) | apply foldl_keeps
      | apply foldl_keeps_fst | intro _ | refine Keeps.of_fst (by assumption) ?_
    | (extract_lets +onlyGivenNames x; apply Keeps.cut (t := x) <;> [subst x; (intro _; clear_value x)])
    | (extract_lets +onlyGivenNames x; subst x)
    | dsimp -zeta only
    | split
    | dsimp only

theorem State.tst_keeps {s0 : State} {s : State} {c : Nat} {g : Nat} {q : CGroup} {w : Nat}  (h : Keeps s0 s) : MemKeeps s0 (State.tst s c g q w) := by
  unfold State.tst
  repeat' first
    | with_reducible first
      | assumption | apply State.laneAccs_keeps | apply State.storeLanes_keeps | apply State.setGroup_keeps
      | apply State.lateAccess_keeps | apply MemKeeps.exc | apply MemKeeps.done | apply MemKeeps.wait
      | refine MemKeeps.of_exc ?_ (by assumption) | refine MemKeeps.of_done ?_ (by assumption)
      | refine Keeps.of_fst (by assumption) ?_ | refine MemKeeps.ite (fun _ => ?_) (fun _ => ?_)
      | refine Keeps.ite (fun _ => ?_) (fun _ => ?_)
    | (extract_lets +onlyGivenNames x; apply Keeps.cut (t := x) <;> [subst x; (intro _; clear_value x)])
    | (extract_lets +onlyGivenNames x; subst x)
    | dsimp -zeta only
    | split
    | dsimp only

theorem execTst_keeps {s0 : State} {cell : Fin 256} {group : Fin 128} {s : State}  (h : Keeps s0 s) : OutKeeps s0 (execTst cell group s) := by
  unfold execTst
  repeat' first
    | with_reducible first
      | assumption | apply State.issueMem_keeps | apply State.tst_keeps | apply MemKeeps.exc | apply MemKeeps.done
      | apply MemKeeps.wait | refine MemKeeps.of_exc ?_ (by assumption) | refine MemKeeps.of_done ?_ (by assumption)
      | apply OutKeeps.next | intro _
    | dsimp -zeta only
    | dsimp only

theorem State.atomFab_keeps {s0 : State} {s : State} {c : Nat} {fn : Nat} {pa : Nat} {v : Nat} {cmp : Nat} {bad : Bool}  (h : Keeps s0 s) : Keeps s0 (State.atomFab s c fn pa v cmp bad).1 := by
  unfold State.atomFab
  repeat' first
    | with_reducible first
      | assumption | apply State.accessFault_keeps | apply State.emit_keeps | apply State.freeBytes_keeps
      | apply State.dmaRead_keeps | apply State.dmaWrite_keeps | apply MemKeeps.exc | apply MemKeeps.done
      | apply MemKeeps.wait | refine MemKeeps.of_exc ?_ (by assumption) | refine MemKeeps.of_done ?_ (by assumption)
      | refine Keeps.of_fst (by assumption) ?_ | refine Keeps.of_snd (by assumption) ?_
      | refine Keeps.ite1 (fun _ => ?_) (fun _ => ?_) | refine Keeps.ite (fun _ => ?_) (fun _ => ?_)
    | (extract_lets +onlyGivenNames x; apply Keeps.cut (t := x) <;> [subst x; (intro _; clear_value x)])
    | (extract_lets +onlyGivenNames x; subst x)
    | dsimp -zeta only
    | split
    | dsimp only

theorem State.atomTs_keeps {s0 : State} {s : State} {c : Nat} {fn : Nat} {a : Nat} {v : Nat} {cmp : Nat} {bad : Bool}  (h : Keeps s0 s) : Keeps s0 (State.atomTs s c fn a v cmp bad).1 := by
  unfold State.atomTs
  repeat' first
    | with_reducible first
      | assumption | apply State.tsWrite_keeps | apply MemKeeps.exc | apply MemKeeps.done | apply MemKeeps.wait
      | refine MemKeeps.of_exc ?_ (by assumption) | refine MemKeeps.of_done ?_ (by assumption)
      | refine Keeps.ite1 (fun _ => ?_) (fun _ => ?_) | refine Keeps.ite (fun _ => ?_) (fun _ => ?_)
    | (extract_lets +onlyGivenNames x; apply Keeps.cut (t := x) <;> [subst x; (intro _; clear_value x)])
    | (extract_lets +onlyGivenNames x; subst x)
    | dsimp -zeta only
    | split
    | dsimp only

theorem State.tatom_keeps {s0 : State} {s : State} {c : Nat} {g : Nat} {q : CGroup} {w : Nat}  (h : Keeps s0 s) : MemKeeps s0 (State.tatom s c g q w) := by
  unfold State.tatom
  repeat' first
    | with_reducible first
      | assumption | apply State.laneAccs_keeps | apply State.atomFab_keeps | apply State.atomTs_keeps
      | apply State.lateAccess_keeps | apply State.setGroup_keeps | apply MemKeeps.exc | apply MemKeeps.done
      | apply MemKeeps.wait | refine MemKeeps.of_exc ?_ (by assumption) | refine MemKeeps.of_done ?_ (by assumption)
      | apply foldl_keeps | apply foldl_keeps_fst | apply foldl_keeps_by LoadRun.s | apply foldl_keeps_by AtomRun.s | intro _
      | refine Keeps.of_fst (by assumption) ?_ | refine MemKeeps.ite (fun _ => ?_) (fun _ => ?_)
      | refine Keeps.ite (fun _ => ?_) (fun _ => ?_)
    | (extract_lets +onlyGivenNames x; apply Keeps.cut (t := x) <;> [subst x; (intro _; clear_value x)])
    | (extract_lets +onlyGivenNames x; subst x)
    | dsimp -zeta only
    | split
    | dsimp only

theorem execTatom_keeps {s0 : State} {cell : Fin 256} {group : Fin 128} {s : State}  (h : Keeps s0 s) : OutKeeps s0 (execTatom cell group s) := by
  unfold execTatom
  repeat' first
    | with_reducible first
      | assumption | apply State.issueMem_keeps | apply State.tatom_keeps | apply MemKeeps.exc | apply MemKeeps.done
      | apply MemKeeps.wait | refine MemKeeps.of_exc ?_ (by assumption) | refine MemKeeps.of_done ?_ (by assumption)
      | apply OutKeeps.next | intro _
    | dsimp -zeta only
    | dsimp only

end Sys2Proof.Machine
end

