-- ==== Sys2Proof/Laws/KeepsCellTex.lean ====
section
/-! SUPPORT. What Machine/CellTex.lean keeps. -/

namespace Sys2Proof.Machine

set_option linter.unusedTactic false
set_option linter.unreachableTactic false

theorem State.readTap_keeps {s0 : State} {s : State} {c : Nat} {d : List Byte} {p : List Byte} {b5 : Tap}  (h : Keeps s0 s) : Keeps s0 (State.readTap s c d p b5).1 := by
  unfold State.readTap
  repeat' first
    | with_reducible first
      | assumption | apply State.rdAt_keeps | apply MemKeeps.exc | apply MemKeeps.done | apply MemKeeps.wait
      | refine MemKeeps.of_exc ?_ (by assumption) | refine MemKeeps.of_done ?_ (by assumption)
      | refine Keeps.of_fst (by assumption) ?_ | refine Keeps.ite1 (fun _ => ?_) (fun _ => ?_)
      | refine Keeps.ite (fun _ => ?_) (fun _ => ?_)
    | (extract_lets +onlyGivenNames x; apply Keeps.cut (t := x) <;> [subst x; (intro _; clear_value x)])
    | (extract_lets +onlyGivenNames x; subst x)
    | dsimp -zeta only
    | split
    | dsimp only

theorem State.readTaps_keeps {s0 : State} {s : State} {c : Nat} {d : List Byte} {p : List Byte} {l : List Tap}  (h : Keeps s0 s) : Keeps s0 (State.readTaps s c d p l).1 := by
  unfold State.readTaps
  repeat' first
    | with_reducible first
      | assumption | apply State.readTap_keeps | apply MemKeeps.exc | apply MemKeeps.done | apply MemKeeps.wait
      | refine MemKeeps.of_exc ?_ (by assumption) | refine MemKeeps.of_done ?_ (by assumption) | apply foldl_keeps
      | apply foldl_keeps_fst | intro _ | refine Keeps.of_fst (by assumption) ?_
    | dsimp -zeta only
    | split
    | dsimp only

theorem State.texDesc_keeps {s0 : State} {s : State} {c : Nat} {a : Nat} {n : Nat}  (h : Keeps s0 s) : Keeps s0 (State.texDesc s c a n).1 := by
  unfold State.texDesc
  repeat' first
    | with_reducible first
      | assumption | apply State.rdAt_keeps | apply State.modCell_keeps | apply MemKeeps.exc | apply MemKeeps.done
      | apply MemKeeps.wait | refine MemKeeps.of_exc ?_ (by assumption) | refine MemKeeps.of_done ?_ (by assumption)
      | refine Keeps.of_fst (by assumption) ?_ | refine Keeps.ite1 (fun _ => ?_) (fun _ => ?_)
      | refine Keeps.ite (fun _ => ?_) (fun _ => ?_)
    | dsimp -zeta only
    | split
    | dsimp only

theorem State.texFail_keeps {s0 : State} {s : State} {c : Nat} {g : Nat} {q : CGroup} {w : Nat} {a : Nat} {b7 : AccErr}  (h : Keeps s0 s) : Keeps s0 (State.texFail s c g q w a b7) := by
  unfold State.texFail
  repeat' first
    | with_reducible first
      | assumption | apply State.pendExc_keeps | apply State.setGroup_keeps | apply MemKeeps.exc | apply MemKeeps.done
      | apply MemKeeps.wait | refine MemKeeps.of_exc ?_ (by assumption) | refine MemKeeps.of_done ?_ (by assumption)
      | refine Keeps.of_fst (by assumption) ?_
    | dsimp -zeta only
    | split
    | dsimp only

theorem State.texLanes_keeps {s0 : State} {s : State} {c : Nat} {q : CGroup} {w : Nat} {act : Nat} {d : List Byte} {p : List Byte}  (h : Keeps s0 s) : Keeps s0 (State.texLanes s c q w act d p).s := by
  unfold State.texLanes
  repeat' first
    | with_reducible first
      | assumption | apply State.takeFree_keeps | apply State.readTaps_keeps | apply MemKeeps.exc | apply MemKeeps.done
      | apply MemKeeps.wait | refine MemKeeps.of_exc ?_ (by assumption) | refine MemKeeps.of_done ?_ (by assumption)
      | apply foldl_keeps | apply foldl_keeps_fst | apply foldl_keeps_by TexRun.s | intro _
      | refine Keeps.of_fst (by assumption) ?_ | refine Keeps.of_snd (by assumption) ?_
      | refine Keeps.ite (fun _ => ?_) (fun _ => ?_)
    | (extract_lets +onlyGivenNames x; apply Keeps.cut (t := x) <;> [subst x; (intro _; clear_value x)])
    | (extract_lets +onlyGivenNames x; subst x)
    | dsimp -zeta only
    | split
    | dsimp only

theorem State.tsamp_keeps {s0 : State} {s : State} {c : Nat} {g : Nat} {q : CGroup} {w : Nat}  (h : Keeps s0 s) : MemKeeps s0 (State.tsamp s c g q w) := by
  unfold State.tsamp
  repeat' first
    | with_reducible first
      | assumption | apply State.setGroup_keeps | apply State.texDesc_keeps | apply State.texFail_keeps
      | apply State.orWord_keeps | apply State.bump_keeps | apply State.takeFree_keeps | apply State.texLanes_keeps
      | apply MemKeeps.exc | apply MemKeeps.done | apply MemKeeps.wait | refine MemKeeps.of_exc ?_ (by assumption)
      | refine MemKeeps.of_done ?_ (by assumption) | refine Keeps.of_fst (by assumption) ?_
      | refine Keeps.of_snd (by assumption) ?_ | refine MemKeeps.ite (fun _ => ?_) (fun _ => ?_)
      | refine Keeps.ite (fun _ => ?_) (fun _ => ?_)
    | (extract_lets +onlyGivenNames x; apply Keeps.cut (t := x) <;> [subst x; (intro _; clear_value x)])
    | (extract_lets +onlyGivenNames x; subst x)
    | dsimp -zeta only
    | split
    | dsimp only

theorem execTsamp_keeps {s0 : State} {cell : Fin 256} {group : Fin 128} {s : State}  (h : Keeps s0 s) : OutKeeps s0 (execTsamp cell group s) := by
  unfold execTsamp
  repeat' first
    | with_reducible first
      | assumption | apply State.issueMem_keeps | apply State.tsamp_keeps | apply MemKeeps.exc | apply MemKeeps.done
      | apply MemKeeps.wait | refine MemKeeps.of_exc ?_ (by assumption) | refine MemKeeps.of_done ?_ (by assumption)
      | apply OutKeeps.next | intro _
    | dsimp -zeta only
    | dsimp only

end Sys2Proof.Machine
end

