-- ==== Sys2Proof/Laws/KeepsCellExc.lean ====
section
/-! SUPPORT. What Machine/CellExc.lean keeps. -/

namespace Sys2Proof.Machine

set_option linter.unusedTactic false
set_option linter.unreachableTactic false

theorem State.runWord_keeps {s0 : State} {s : State} {c : Fin 256} {g : Fin 128} {w : Nat} {t : Host.Outcome State Fault Refusal}  (h : Keeps s0 s) (e : State.runWord s c g w = some t) : OutKeeps s0 t := by
  unfold State.runWord at e
  repeat' first
    | (cases e; done)
    | (rw [Option.map_eq_some_iff] at e; obtain ⟨_, _, e⟩ := e)
    | split at e
    | dsimp only at e
  all_goals (try (first | cases e | injection e with e))
  all_goals repeat' first
    | with_reducible first
      | assumption | apply execSalu_keeps | apply execSmovi_keeps | apply execSmovhi_keeps | apply execSld_keeps
      | apply execSst_keeps | apply execBr_keeps | apply execJal_keeps | apply execJalr_keeps | apply execSrd_keeps
      | apply execTalu_keeps | apply execTmovi_keeps | apply execFalu_keeps | apply execTcvt_keeps | apply execTcmp_keeps
      | apply execPlog_keeps | apply execVote_keeps | apply execTld_keeps | apply execTst_keeps | apply execTlane_keeps
      | apply execTsamp_keeps | apply execTatom_keeps | apply execMma_keeps | apply execMmaw_keeps | apply execAccrd_keeps
      | apply execAccld_keeps | apply execLaceInstruction_keeps | apply execTcopy_keeps | apply execTrans_keeps
      | apply execFill_keeps | apply execBarSync_keeps | apply execBarArrive_keeps | apply execBarWait_keeps
      | apply execWait_keeps | apply execFence_keeps | apply execPwait_keeps | apply execPread_keeps | apply execNotify_keeps
      | apply execSort_keeps | apply execTopk_keeps | apply execGather_keeps | apply execScatter_keeps | apply execAttn_keeps
      | apply execNms_keeps | apply execSysNop_keeps | apply execSysEnd_keeps | apply execSysBreak_keeps
      | apply execSysTrap_keeps | apply execRdfl_keeps | apply execClrfl_keeps | apply execRdres_keeps | apply execWrres_keeps
      | refine Keeps.of_fst (by assumption) ?_ | refine OutKeeps.of_next ?_ (by assumption)
      | refine Keeps.ite (fun _ => ?_) (fun _ => ?_)
    | dsimp -zeta only
    | split
    | dsimp only

theorem State.syncException_keeps {s0 : State} {s : State} {c : Fin 256} {g : Fin 128}  (h : Keeps s0 s) : Keeps s0 (State.syncException s c g) := by
  unfold State.syncException
  repeat' first
    | with_reducible first
      | assumption | apply State.syncExc_keeps | refine Keeps.of_fst (by assumption) ?_
      | refine OutKeeps.of_next ?_ (by assumption) | refine State.runWord_keeps ?_ (by assumption)
      | refine Keeps.ite (fun _ => ?_) (fun _ => ?_)
    | refine OutKeeps.of_next (State.runWord_keeps ?_ (by with_reducible assumption)) rfl
    | dsimp -zeta only
    | split
    | dsimp only

theorem execSyncException_keeps {s0 : State} {cell : Fin 256} {group : Fin 128} {s : State}  (h : Keeps s0 s) : OutKeeps s0 (execSyncException cell group s) := by
  unfold execSyncException
  repeat' first
    | with_reducible first
      | assumption | apply State.syncException_keeps | apply OutKeeps.next
    | dsimp -zeta only
    | dsimp only

end Sys2Proof.Machine
end

