-- ==== Sys2Proof/Laws/KeepsPcieIn.lean ====
section
/-! SUPPORT. What Machine/PcieIn.lean keeps. -/

namespace Sys2Proof.Machine

set_option linter.unusedTactic false
set_option linter.unreachableTactic false

theorem State.inFail_keeps {s0 : State} {s : State} {n : Nat} {tag : Nat} {status : Nat} {posted : Bool}  (h : Keeps s0 s) : Keeps s0 (State.inFail s n tag status posted) := by
  unfold State.inFail
  repeat' first
    | with_reducible first
      | assumption | apply State.portIrq_keeps | apply State.bump_keeps | apply State.sendCpl_keeps
      | refine Keeps.ite (fun _ => ?_) (fun _ => ?_)
    | dsimp -zeta only
    | split
    | dsimp only

theorem State.inAnswer_keeps {s0 : State} {s : State} {n : Nat} {tag : Nat} {posted : Bool}  (h : Keeps s0 s) : Keeps s0 (State.inAnswer s n tag posted) := by
  unfold State.inAnswer
  repeat' first
    | with_reducible first
      | assumption | apply State.inFail_keeps | apply State.sendCpl_keeps | refine Keeps.ite (fun _ => ?_) (fun _ => ?_)
    | dsimp -zeta only
    | split
    | dsimp only

theorem State.atomicAt_keeps {s0 : State} {s : State} {m : Master} {kind : Nat} {a : Nat} {l : List Byte} {bad : Bool}  (h : Keeps s0 s) : Keeps s0 (State.atomicAt s m kind a l bad) := by
  unfold State.atomicAt
  repeat' first
    | with_reducible first
      | assumption | apply State.refuse_keeps | apply State.readPa_keeps | apply State.writePa_keeps
      | apply State.mapRefuse_keeps | fail_if_no_progress apply Keeps.mk_ | refine Keeps.of_fst (by assumption) ?_
      | refine Keeps.ite (fun _ => ?_) (fun _ => ?_)
    | (extract_lets +onlyGivenNames x; apply Keeps.cut (t := x) <;> [subst x; (intro _; clear_value x)])
    | (extract_lets +onlyGivenNames x; subst x)
    | dsimp -zeta only
    | split
    | dsimp only

theorem State.tagLast_keeps {s0 : State} {s : State} {held : Nat} {waits : Nat} {n : Nat} {tag : Nat}  (h : Keeps s0 s) : Keeps s0 (State.tagLast s held waits n tag) := by
  unfold State.tagLast
  repeat' first
    | with_reducible first
      | assumption | fail_if_no_progress apply Keeps.mk_ | refine Keeps.ite (fun _ => ?_) (fun _ => ?_)
    | (extract_lets +onlyGivenNames x; apply Keeps.cut (t := x) <;> [subst x; (intro _; clear_value x)])
    | (extract_lets +onlyGivenNames x; subst x)
    | dsimp -zeta only
    | split
    | dsimp only

theorem State.inAccess_keeps {s0 : State} {s : State} {m : Master} {inst : Option (Fin 64)} {n : Nat} {tag : Nat} {kind : Nat} {a : Nat} {len : Nat} {l : List Byte} {ep : Bool}  (h : Keeps s0 s) : Keeps s0 (State.inAccess s m inst n tag kind a len l ep) := by
  unfold State.inAccess
  repeat' first
    | with_reducible first
      | assumption | apply State.mapAccess_keeps | apply State.atomicAt_keeps | apply State.tagLast_keeps
      | apply State.inAnswer_keeps | refine Keeps.ite (fun _ => ?_) (fun _ => ?_)
    | (extract_lets +onlyGivenNames x; apply Keeps.cut (t := x) <;> [subst x; (intro _; clear_value x)])
    | (extract_lets +onlyGivenNames x; subst x)
    | dsimp -zeta only
    | split
    | dsimp only

theorem State.inXlat_keeps {s0 : State} {s : State} {m : Master} {i : Nat} {n : Nat} {tag : Nat} {kind : Nat} {va : Nat} {len : Nat} {l : List Byte} {ep : Bool} {s2only : Bool}  (h : Keeps s0 s) : Keeps s0 (State.inXlat s m i n tag kind va len l ep s2only) := by
  unfold State.inXlat
  repeat' first
    | with_reducible first
      | assumption | apply State.xlatBy_keeps | apply State.inFail_keeps | apply State.inAccess_keeps
      | refine Keeps.of_fst (by assumption) ?_
    | dsimp -zeta only
    | split
    | dsimp only

theorem State.inReg_keeps {s0 : State} {s : State} {m : Master} {inst : Option (Fin 64)} {n : Nat} {tag : Nat} {kind : Nat} {a : Nat} {len : Nat} {l : List Byte}  (h : Keeps s0 s) : Keeps s0 (State.inReg s m inst n tag kind a len l) := by
  unfold State.inReg
  repeat' first
    | with_reducible first
      | assumption | apply State.regRead_keeps | apply State.regWrite_keeps | apply State.refuse_keeps
      | apply State.inAnswer_keeps | refine Keeps.of_fst (by assumption) ?_
    | (extract_lets +onlyGivenNames x; apply Keeps.cut (t := x) <;> [subst x; (intro _; clear_value x)])
    | (extract_lets +onlyGivenNames x; subst x)
    | dsimp -zeta only
    | split
    | dsimp only

theorem State.inZero_keeps {s0 : State} {s : State} {n : Nat} {tag : Nat} {kind : Nat} {len : Nat} {l : List Byte}  (h : Keeps s0 s) : Keeps s0 (State.inZero s n tag kind len l) := by
  unfold State.inZero
  repeat' first
    | with_reducible first
      | assumption | apply State.inAnswer_keeps | apply State.respOk_keeps | refine Keeps.ite (fun _ => ?_) (fun _ => ?_)
    | dsimp -zeta only
    | split
    | dsimp only

theorem State.inPf0_keeps {s0 : State} {s : State} {m : Master} {n : Nat} {tag : Nat} {kind : Nat} {o : Nat} {len : Nat} {l : List Byte}  (h : Keeps s0 s) : Keeps s0 (State.inPf0 s m n tag kind o len l) := by
  unfold State.inPf0
  repeat' first
    | with_reducible first
      | assumption | apply State.inReg_keeps | apply State.inAnswer_keeps | apply State.respOk_keeps
      | apply State.inZero_keeps | refine Keeps.ite (fun _ => ?_) (fun _ => ?_)
    | (extract_lets +onlyGivenNames x; apply Keeps.cut (t := x) <;> [subst x; (intro _; clear_value x)])
    | (extract_lets +onlyGivenNames x; subst x)
    | dsimp -zeta only
    | split
    | dsimp only

theorem State.inVfBar0_keeps {s0 : State} {s : State} {m : Master} {i : Nat} {n : Nat} {tag : Nat} {kind : Nat} {o : Nat} {len : Nat} {l : List Byte}  (h : Keeps s0 s) : Keeps s0 (State.inVfBar0 s m i n tag kind o len l) := by
  unfold State.inVfBar0
  repeat' first
    | with_reducible first
      | assumption | apply State.inReg_keeps | apply State.inZero_keeps | refine Keeps.ite (fun _ => ?_) (fun _ => ?_)
    | dsimp -zeta only
    | split
    | dsimp only

theorem State.inbound_keeps {s0 : State} {s : State} {n : Nat} {fn : Nat} {rid : Nat} {bar : Nat} {kind : Nat} {addr : Nat} {len : Nat} {l : List Byte} {ep : Bool} {tag : Nat}  (h : Keeps s0 s) : Keeps s0 (State.inbound s n fn rid bar kind addr len l ep tag) := by
  unfold State.inbound
  repeat' first
    | with_reducible first
      | assumption | apply State.epCount_keeps | apply State.inFail_keeps | apply State.inXlat_keeps | apply State.inPf0_keeps
      | apply State.inVfBar0_keeps | refine Keeps.of_fst (by assumption) ?_ | refine Keeps.ite (fun _ => ?_) (fun _ => ?_)
    | (extract_lets +onlyGivenNames x; apply Keeps.cut (t := x) <;> [subst x; (intro _; clear_value x)])
    | (extract_lets +onlyGivenNames x; subst x)
    | dsimp -zeta only
    | split
    | dsimp only

theorem execPcieInboundRequest_keeps {s0 : State} {port : Fin 4} {fn : Fin 256} {rid : BitVec 16} {bar : Fin 3} {kind : Fin 5} {addr : BitVec 64} {len : Fin 4097} {data : List Byte} {ep : Bool} {tag : BitVec 14} {s : State}  (h : Keeps s0 s) : OutKeeps s0 (execPcieInboundRequest port fn rid bar kind addr len data ep tag s) := by
  unfold execPcieInboundRequest
  repeat' first
    | with_reducible first
      | assumption | apply State.inbound_keeps | apply OutKeeps.next
    | dsimp -zeta only
    | dsimp only

end Sys2Proof.Machine
end

