-- ==== Sys2Proof/Laws/KeepsPhxDispatch.lean ====
section
/-! SUPPORT. What Machine/PhxDispatch.lean keeps. -/

namespace Sys2Proof.Machine

set_option linter.unusedTactic false
set_option linter.unreachableTactic false

theorem State.doAction_keeps {s0 : State} {s : State} {a : PhxAct}  (h : Keeps s0 s) : Keeps s0 (State.doAction s a) := by
  unfold State.doAction
  repeat' first
    | with_reducible first
      | assumption | apply State.doorbell_keeps | apply State.actionFail_keeps | apply State.laceTack_keeps
      | apply State.releaseTack_keeps | refine Keeps.of_fst (by assumption) ?_ | refine Keeps.ite (fun _ => ?_) (fun _ => ?_)
    | dsimp -zeta only
    | split
    | dsimp only

theorem execActionDispatch_keeps {s0 : State} {s : State}  (h : Keeps s0 s) : OutKeeps s0 (execActionDispatch s) := by
  unfold execActionDispatch
  repeat' first
    | with_reducible first
      | assumption | apply State.setFld_keeps | apply State.doAction_keeps | apply OutKeeps.next | apply foldl_keeps
      | apply foldl_keeps_fst | intro _ | fail_if_no_progress apply Keeps.mk_
    | (extract_lets +onlyGivenNames x; apply Keeps.cut (t := x) <;> [subst x; (intro _; clear_value x)])
    | (extract_lets +onlyGivenNames x; subst x)
    | dsimp -zeta only
    | dsimp only

end Sys2Proof.Machine
end

