-- ==== Sys2Proof/Laws/KeepsDispatch.lean ====
section
/-! SUPPORT. What Machine/Dispatch.lean keeps. -/

namespace Sys2Proof.Machine

set_option linter.unusedTactic false
set_option linter.unreachableTactic false

theorem exec_keeps {s0 s : State} {i : Instr} (h : Keeps s0 s) : OutKeeps s0 (exec i s) :=
  match i with
  | .registerWrite _ _ _ _ _ => execRegisterWrite_keeps h
  | .wideRegisterLowerRead _ _ _ => execWideRegisterLowerRead_keeps h
  | .fabricMemoryAccess _ _ _ _ _ _ _ _ => execFabricMemoryAccess_keeps h
  | .heldAccessRelease => execHeldAccessRelease_keeps h
  | .ptpClockTick _ => execPtpClockTick_keeps h
  | .angleSample _ => execAngleSample_keeps h
  | .phaseInEdge _ _ => execPhaseInEdge_keeps h
  | .lineAxisFrameStart _ => execLineAxisFrameStart_keeps h
  | .lineAxisLineStart _ => execLineAxisLineStart_keeps h
  | .lineAxisFrameEnd _ => execLineAxisFrameEnd_keeps h
  | .axisLoad _ _ _ _ => execAxisLoad_keeps h
  | .axisStall _ => execAxisStall_keeps h
  | .tackWrite _ _ _ _ _ => execTackWrite_keeps h
  | .tackArm _ _ _ _ => execTackArm_keeps h
  | .tackDisarm _ _ _ _ => execTackDisarm_keeps h
  | .tackFire _ _ => execTackFire_keeps h
  | .actionDispatch => execActionDispatch_keeps h
  | .evaluationResume => execEvaluationResume_keeps h
  | .phaseOutEdge _ => execPhaseOutEdge_keeps h
  | .phxEvtDataRead _ _ => execPhxEvtDataRead_keeps h
  | .csi2FrameStart _ _ _ _ => execCsi2FrameStart_keeps h
  | .csi2LongPacket _ _ _ _ _ => execCsi2LongPacket_keeps h
  | .csi2FrameEnd _ _ _ => execCsi2FrameEnd_keeps h
  | .csi2ShortPacket _ _ _ _ => execCsi2ShortPacket_keeps h
  | .flowPacket _ _ => execFlowPacket_keeps h
  | .bandStart _ => execBandStart_keeps h
  | .lseUnitStart _ => execLseUnitStart_keeps h
  | .lseEnd _ => execLseEnd_keeps h
  | .lseLoop _ => execLseLoop_keeps h
  | .lseGet _ => execLseGet_keeps h
  | .lseSkip _ => execLseSkip_keeps h
  | .lseAlu _ => execLseAlu_keeps h
  | .lseCvt _ => execLseCvt_keeps h
  | .lsePut _ => execLsePut_keeps h
  | .lseAdda _ => execLseAdda_keeps h
  | .bandComplete _ => execBandComplete_keeps h
  | .streamStallTimeout _ => execStreamStallTimeout_keeps h
  | .slotRelease _ _ _ _ => execSlotRelease_keeps h
  | .commit _ _ _ => execCommit_keeps h
  | .cancel _ _ _ => execCancel_keeps h
  | .restart _ _ _ => execRestart_keeps h
  | .shadowSlotWrite _ _ _ _ _ => execShadowSlotWrite_keeps h
  | .lseOccupancyWindow => execLseOccupancyWindow_keeps h
  | .kernelWrite _ _ _ => execKernelWrite_keeps h
  | .kernelLoadDone _ => execKernelLoadDone_keeps h
  | .taskComplete _ => execTaskComplete_keeps h
  | .save _ _ => execSave_keeps h
  | .saveComplete _ => execSaveComplete_keeps h
  | .restore _ _ => execRestore_keeps h
  | .restoreComplete _ => execRestoreComplete_keeps h
  | .abort _ _ => execAbort_keeps h
  | .ack _ _ => execAck_keeps h
  | .syncException _ _ => execSyncException_keeps h
  | .asyncException _ => execAsyncException_keeps h
  | .cellHalt _ => execCellHalt_keeps h
  | .watchdog _ => execWatchdog_keeps h
  | .cellHang _ => execCellHang_keeps h
  | .controlCheckerFail _ => execControlCheckerFail_keeps h
  | .errorCountClear => execErrorCountClear_keeps h
  | .failureSubstitution _ _ _ _ => execFailureSubstitution_keeps h
  | .substitutionComplete _ => execSubstitutionComplete_keeps h
  | .plannedSubstitution _ _ => execPlannedSubstitution_keeps h
  | .subReq _ _ _ => execSubReq_keeps h
  | .maintStart _ _ _ => execMaintStart_keeps h
  | .maintDone _ => execMaintDone_keeps h
  | .salu _ _ => execSalu_keeps h
  | .smovi _ _ => execSmovi_keeps h
  | .smovhi _ _ => execSmovhi_keeps h
  | .sld _ _ => execSld_keeps h
  | .sst _ _ => execSst_keeps h
  | .srd _ _ => execSrd_keeps h
  | .br _ _ => execBr_keeps h
  | .jal _ _ => execJal_keeps h
  | .jalr _ _ => execJalr_keeps h
  | .talu _ _ => execTalu_keeps h
  | .tmovi _ _ => execTmovi_keeps h
  | .falu _ _ => execFalu_keeps h
  | .tcvt _ _ => execTcvt_keeps h
  | .tcmp _ _ => execTcmp_keeps h
  | .plog _ _ => execPlog_keeps h
  | .vote _ _ => execVote_keeps h
  | .tld _ _ _ _ => execTld_keeps h
  | .tst _ _ => execTst_keeps h
  | .tlane _ _ => execTlane_keeps h
  | .tsamp _ _ => execTsamp_keeps h
  | .tatom _ _ => execTatom_keeps h
  | .barSync _ _ => execBarSync_keeps h
  | .barArrive _ _ => execBarArrive_keeps h
  | .barWait _ _ => execBarWait_keeps h
  | .barrierPhaseComplete _ _ => execBarrierPhaseComplete_keeps h
  | .wait _ _ => execWait_keeps h
  | .fence _ _ => execFence_keeps h
  | .pwait _ _ => execPwait_keeps h
  | .pwaitReached _ _ => execPwaitReached_keeps h
  | .pread _ _ => execPread_keeps h
  | .notify _ _ => execNotify_keeps h
  | .sysNop _ _ => execSysNop_keeps h
  | .sysEnd _ _ => execSysEnd_keeps h
  | .sysBreak _ _ => execSysBreak_keeps h
  | .sysTrap _ _ => execSysTrap_keeps h
  | .rdfl _ _ => execRdfl_keeps h
  | .clrfl _ _ => execClrfl_keeps h
  | .rdres _ _ => execRdres_keeps h
  | .wrres _ _ => execWrres_keeps h
  | .mma _ _ _ _ => execMma_keeps h
  | .mmaw _ _ => execMmaw_keeps h
  | .accrd _ _ => execAccrd_keeps h
  | .accld _ _ => execAccld_keeps h
  | .tensorComplete _ => execTensorComplete_keeps h
  | .laceInstruction _ _ => execLaceInstruction_keeps h
  | .laceListAccept _ => execLaceListAccept_keeps h
  | .laceDescriptorExecute _ _ => execLaceDescriptorExecute_keeps h
  | .laceSignalWrite _ _ => execLaceSignalWrite_keeps h
  | .laceListComplete _ _ => execLaceListComplete_keeps h
  | .tcopy _ _ => execTcopy_keeps h
  | .trans _ _ => execTrans_keeps h
  | .fill _ _ => execFill_keeps h
  | .movementComplete _ => execMovementComplete_keeps h
  | .sort _ _ => execSort_keeps h
  | .topk _ _ => execTopk_keeps h
  | .gather _ _ => execGather_keeps h
  | .scatter _ _ => execScatter_keeps h
  | .attn _ _ => execAttn_keeps h
  | .nms _ _ => execNms_keeps h
  | .longRoutineComplete _ => execLongRoutineComplete_keeps h
  | .slotReleaseWrite _ _ _ _ => execSlotReleaseWrite_keeps h
  | .taskPlacement => execTaskPlacement_keeps h
  | .taskOutcome => execTaskOutcome_keeps h
  | .completionBufferDrain => execCompletionBufferDrain_keeps h
  | .clickCfgWrite _ _ _ => execClickCfgWrite_keeps h
  | .clickSwitch _ _ _ => execClickSwitch_keeps h
  | .switchDrainDone _ => execSwitchDrainDone_keeps h
  | .switchDone _ => execSwitchDone_keeps h
  | .unbind _ _ _ => execUnbind_keeps h
  | .checkpointDigest _ => execCheckpointDigest_keeps h
  | .digestCompare _ => execDigestCompare_keeps h
  | .digestLate _ => execDigestLate_keeps h
  | .modelRepair _ => execModelRepair_keeps h
  | .modelInstallationDone _ _ _ => execModelInstallationDone_keeps h
  | .epochAcqRead _ _ => execEpochAcqRead_keeps h
  | .epochPublish _ _ _ => execEpochPublish_keeps h
  | .epochAbandon _ _ _ => execEpochAbandon_keeps h
  | .cycleStart => execCycleStart_keeps h
  | .wavefrontExpansionDone _ => execWavefrontExpansionDone_keeps h
  | .planChosen => execPlanChosen_keeps h
  | .heelSubmit _ _ => execHeelSubmit_keeps h
  | .heelCheckDone _ => execHeelCheckDone_keeps h
  | .heelOutcome => execHeelOutcome_keeps h
  | .deadlineTack => execDeadlineTack_keeps h
  | .vehicleStateCommit _ _ _ => execVehicleStateCommit_keeps h
  | .goalSwap _ _ => execGoalSwap_keeps h
  | .rasFeTailWrite _ _ _ _ => execRasFeTailWrite_keeps h
  | .rasNop _ => execRasNop_keeps h
  | .beginPass _ => execBeginPass_keeps h
  | .draw _ => execDraw_keeps h
  | .endPass _ => execEndPass_keeps h
  | .release _ => execRelease_keeps h
  | .waitMem _ => execWaitMem_keeps h
  | .waitMemPoll _ => execWaitMemPoll_keeps h
  | .signalMem _ => execSignalMem_keeps h
  | .splat _ => execSplat_keeps h
  | .skipCmd _ _ _ => execSkipCmd_keeps h
  | .flush _ _ _ => execFlush_keeps h
  | .rasEventRetry _ => execRasEventRetry_keeps h
  | .dpyPipeEnable _ _ _ _ => execDpyPipeEnable_keeps h
  | .dpyPipeDisable _ _ _ _ => execDpyPipeDisable_keeps h
  | .dpyFrameStart _ _ _ => execDpyFrameStart_keeps h
  | .dpyLineDl _ => execDpyLineDl_keeps h
  | .dpyFlipLatch _ => execDpyFlipLatch_keeps h
  | .dpyPipeFlip _ _ _ _ => execDpyPipeFlip_keeps h
  | .dpyLockLoss _ => execDpyLockLoss_keeps h
  | .sideGo _ _ _ _ => execSideGo_keeps h
  | .sideDone _ _ => execSideDone_keeps h
  | .hpdEvent _ => execHpdEvent_keeps h
  | .memoryRead _ _ _ _ _ _ _ => execMemoryRead_keeps h
  | .memoryWrite _ _ _ _ _ _ _ _ => execMemoryWrite_keeps h
  | .scrubRead _ _ _ => execScrubRead_keeps h
  | .scrubLate _ => execScrubLate_keeps h
  | .fabricRequestIssue _ _ _ _ _ _ _ _ => execFabricRequestIssue_keeps h
  | .regulatorRelease _ _ => execRegulatorRelease_keeps h
  | .requestComplete _ _ _ => execRequestComplete_keeps h
  | .floorWindowEnd _ _ => execFloorWindowEnd_keeps h
  | .linkRetrain _ => execLinkRetrain_keeps h
  | .auditStart => execAuditStart_keeps h
  | .auditComplete => execAuditComplete_keeps h
  | .auditLate => execAuditLate_keeps h
  | .fabMissClr _ _ _ => execFabMissClr_keeps h
  | .clusterStateChange _ _ => execClusterStateChange_keeps h
  | .atuInv _ _ _ => execAtuInv_keeps h
  | .atuInvDone => execAtuInvDone_keeps h
  | .instanceReset _ _ => execInstanceReset_keeps h
  | .instanceRemove _ _ => execInstanceRemove_keeps h
  | .instanceAdd _ _ => execInstanceAdd_keeps h
  | .resetDrainDone _ => execResetDrainDone_keeps h
  | .pcieLinkUp _ _ _ _ => execPcieLinkUp_keeps h
  | .pcieLinkDown _ => execPcieLinkDown_keeps h
  | .pcieFlr _ _ => execPcieFlr_keeps h
  | .vfEnableChange _ _ _ => execVfEnableChange_keeps h
  | .pcieInboundRequest _ _ _ _ _ _ _ _ _ _ => execPcieInboundRequest_keeps h
  | .pcieOutboundRequest _ _ _ _ _ _ _ _ => execPcieOutboundRequest_keeps h
  | .pcieCompletionTimeout _ _ => execPcieCompletionTimeout_keeps h
  | .pciCfgGo _ _ _ _ => execPciCfgGo_keeps h
  | .hqmDoorbell _ _ _ _ => execHqmDoorbell_keeps h
  | .hqmPost _ _ _ => execHqmPost_keeps h
  | .hqmPostRetry _ => execHqmPostRetry_keeps h
  | .qcmdEnable _ _ _ => execQcmdEnable_keeps h
  | .qcmdDisable _ _ _ => execQcmdDisable_keeps h
  | .qcmdClearFault _ _ _ => execQcmdClearFault_keeps h
  | .refclkLoss => execRefclkLoss_keeps h
  | .refclkRecover => execRefclkRecover_keeps h
  | .ptpRefinFail => execPtpRefinFail_keeps h
  | .ptpRefinRecover => execPtpRefinRecover_keeps h
  | .safeXinFail => execSafeXinFail_keeps h
  | .lockstepMismatch _ _ _ _ => execLockstepMismatch_keeps h
  | .pairRetestDone _ _ => execPairRetestDone_keeps h
  | .retest _ _ => execRetest_keeps h
  | .inputVote _ _ _ => execInputVote_keeps h
  | .startupTest => execStartupTest_keeps h
  | .startupTestDone _ => execStartupTestDone_keeps h
  | .debugSplit _ => execDebugSplit_keeps h
  | .faultEvent _ _ _ _ _ _ _ _ => execFaultEvent_keeps h
  | .classDExit => execClassDExit_keeps h
  | .classSExit => execClassSExit_keeps h
  | .sExit _ => execSExit_keeps h
  | .aliveStart _ => execAliveStart_keeps h
  | .aliveEdge => execAliveEdge_keeps h
  | .fcHoldExpire => execFcHoldExpire_keeps h
  | .kick _ => execKick_keeps h
  | .islandWatchdogExpire => execIslandWatchdogExpire_keeps h
  | .fwpHeartbeat _ => execFwpHeartbeat_keeps h
  | .heartbeatMiss _ => execHeartbeatMiss_keeps h
  | .swReport _ _ => execSwReport_keeps h
  | .clrFirst _ => execClrFirst_keeps h
  | .alarmTailWrite _ _ => execAlarmTailWrite_keeps h
  | .awlUnlock _ _ => execAwlUnlock_keeps h
  | .awlUnlockTimeout => execAwlUnlockTimeout_keeps h
  | .go _ _ => execGo_keeps h
  | .awlInjection _ _ _ _ => execAwlInjection_keeps h
  | .awlRunTimeout => execAwlRunTimeout_keeps h
  | .incarnationRaise _ => execIncarnationRaise_keeps h
  | .powerOnReset => execPowerOnReset_keeps h
  | .coldReset _ => execColdReset_keeps h
  | .islandReset _ => execIslandReset_keeps h
  | .tapReset => execTapReset_keeps h
  | .imageVerify _ => execImageVerify_keeps h
  | .configRecordCheck => execConfigRecordCheck_keeps h
  | .configRecordApply _ _ => execConfigRecordApply_keeps h
  | .recoveryEnter => execRecoveryEnter_keeps h
  | .mbxGo _ _ _ => execMbxGo_keeps h
  | .mbxDone _ _ _ => execMbxDone_keeps h
  | .mbxResponse _ => execMbxResponse_keeps h
  | .hello _ => execHello_keeps h
  | .getInfo _ => execGetInfo_keeps h
  | .imageWrite _ => execImageWrite_keeps h
  | .imageCommit _ => execImageCommit_keeps h
  | .imageConfirm _ => execImageConfirm_keeps h
  | .fwpRestart _ => execFwpRestart_keeps h
  | .logRead _ => execLogRead_keeps h
  | .traceSet _ => execTraceSet_keeps h
  | .profileSet _ => execProfileSet_keeps h
  | .profileGet _ => execProfileGet_keeps h
  | .clickSet _ => execClickSet_keeps h
  | .slotSet _ => execSlotSet_keeps h
  | .queueCtrl _ => execQueueCtrl_keeps h
  | .s2Set _ => execS2Set_keeps h
  | .instanceCtrl _ => execInstanceCtrl_keeps h
  | .ptpStep _ => execPtpStep_keeps h
  | .linkStatus _ => execLinkStatus_keeps h
  | .faultRead _ => execFaultRead_keeps h
  | .modelInstall _ => execModelInstall_keeps h
  | .modelEvict _ => execModelEvict_keeps h
  | .modelPin _ => execModelPin_keeps h
  | .modelSwitch _ => execModelSwitch_keeps h
  | .modelStatus _ => execModelStatus_keeps h
  | .fwpProcessorRestart _ => execFwpProcessorRestart_keeps h
  | .fwpRestartDone _ _ => execFwpRestartDone_keeps h
  | .selftest _ => execSelftest_keeps h
  | .logEntryWrite _ _ _ _ _ => execLogEntryWrite_keeps h
  | .logTailWrite _ _ _ => execLogTailWrite_keeps h
  | .traceWindow _ => execTraceWindow_keeps h
  | .ethFrameReceive _ _ _ _ => execEthFrameReceive_keeps h
  | .hostChannelTx _ => execHostChannelTx_keeps h
  | .ethFrameTransmit _ _ _ => execEthFrameTransmit_keeps h
  | .gateIntervalExpire _ => execGateIntervalExpire_keeps h
  | .gclSwap _ _ => execGclSwap_keeps h
  | .gclSwapApply _ => execGclSwapApply_keeps h
  | .ethPortTxtsRead _ _ _ => execEthPortTxtsRead_keeps h
  | .ethLinkChange _ _ => execEthLinkChange_keeps h
  | .mdioGo _ _ => execMdioGo_keeps h
  | .ethTblGo _ _ _ => execEthTblGo_keeps h
  | .ptpClkIncWrite _ _ _ _ => execPtpClkIncWrite_keeps h
  | .ptpClkAdjWrite _ _ _ _ => execPtpClkAdjWrite_keeps h
  | .ptpSlewDone _ => execPtpSlewDone_keeps h
  | .ptpClkStepWrite _ _ _ _ => execPtpClkStepWrite_keeps h
  | .ptpStepApply _ => execPtpStepApply_keeps h
  | .accept _ _ _ _ => execAccept_keeps h
  | .reject _ _ _ => execReject_keeps h
  | .ptpClkSet _ _ _ _ => execPtpClkSet_keeps h
  | .ppsOutPulse => execPpsOutPulse_keeps h
  | .ppsInEdge _ => execPpsInEdge_keeps h
  | .canFrameReceive _ _ => execCanFrameReceive_keeps h
  | .canFrameTransmit _ _ => execCanFrameTransmit_keeps h
  | .canBusOff _ => execCanBusOff_keeps h
  | .canBusOffRecovery _ => execCanBusOffRecovery_keeps h
  | .recover _ _ => execRecover_keeps h
  | .ntscfFrameSend _ => execNtscfFrameSend_keeps h
  | .railDeparture _ _ => execRailDeparture_keeps h
  | .group3RailTimeout => execGroup3RailTimeout_keeps h
  | .admissionRequest _ _ => execAdmissionRequest_keeps h
  | .admissionGrant => execAdmissionGrant_keeps h
  | .admissionWaitLong => execAdmissionWaitLong_keeps h
  | .tokenReturn _ _ => execTokenReturn_keeps h
  | .profileReq _ _ => execProfileReq_keeps h
  | .profileDrainDone _ => execProfileDrainDone_keeps h
  | .profileWaitTimeout => execProfileWaitTimeout_keeps h
  | .voltageRampDone => execVoltageRampDone_keeps h
  | .clockSlewDone => execClockSlewDone_keeps h
  | .hbmRetrainDone _ => execHbmRetrainDone_keeps h
  | .panelWakeDone _ _ => execPanelWakeDone_keeps h
  | .profileDone => execProfileDone_keeps h
  | .pllLockLoss _ => execPllLockLoss_keeps h
  | .pllRelock _ => execPllRelock_keeps h
  | .thermalSample _ => execThermalSample_keeps h
  | .clockThrottleStep _ => execClockThrottleStep_keeps h
  | .clockRaiseStep _ => execClockRaiseStep_keeps h
  | .fuseProg _ _ _ => execFuseProg_keeps h
  | .keyUnwrap _ _ => execKeyUnwrap_keeps h
  | .keyClear _ _ => execKeyClear_keeps h
  | .secWinWrite _ _ _ => execSecWinWrite_keeps h
  | .pkClaim _ => execPkClaim_keeps h
  | .pkRelease _ => execPkRelease_keeps h
  | .ecdsaSignP256 _ _ => execEcdsaSignP256_keeps h
  | .ecdsaSignP384 _ _ => execEcdsaSignP384_keeps h
  | .ecdsaVerifyP256 _ _ => execEcdsaVerifyP256_keeps h
  | .ecdsaVerifyP384 _ _ => execEcdsaVerifyP384_keeps h
  | .ecdhP256 _ _ => execEcdhP256_keeps h
  | .ecdhP384 _ _ => execEcdhP384_keeps h
  | .keygenP256 _ _ => execKeygenP256_keeps h
  | .keygenP384 _ _ => execKeygenP384_keeps h
  | .x25519 _ _ => execX25519_keeps h
  | .mlDsa65Verify _ _ => execMlDsa65Verify_keeps h
  | .mlKem768Decapsulation _ _ => execMlKem768Decapsulation_keeps h
  | .badOp _ _ => execBadOp_keeps h
  | .pkComplete => execPkComplete_keeps h
  | .newChal _ => execNewChal_keeps h
  | .submit _ _ _ _ => execSubmit_keeps h
  | .extest _ => execExtest_keeps h
  | .samplePreload _ => execSamplePreload_keeps h
  | .idcode => execIdcode_keeps h
  | .clamp => execClamp_keeps h
  | .highz => execHighz_keeps h
  | .extestPulse _ => execExtestPulse_keeps h
  | .extestTrain _ => execExtestTrain_keeps h
  | .ecidcode => execEcidcode_keeps h
  | .dbgAuth _ => execDbgAuth_keeps h
  | .dbgPair _ => execDbgPair_keeps h
  | .bypass _ => execBypass_keeps h
  | .uartTxByte _ _ _ => execUartTxByte_keeps h
  | .uartRxByte _ _ => execUartRxByte_keeps h
  | .i2cCmdGo _ _ _ => execI2cCmdGo_keeps h
  | .spiDataWrite _ _ _ => execSpiDataWrite_keeps h
  | .gpioEdge _ _ => execGpioEdge_keeps h
  | .xspiCmdGo _ _ _ => execXspiCmdGo_keeps h
  | .ufsDoorbell _ _ => execUfsDoorbell_keeps h
  | .ufsCompletion _ => execUfsCompletion_keeps h
  | .phySyncChange _ _ _ => execPhySyncChange_keeps h
  | .fabricLinkRetrainDone _ => execFabricLinkRetrainDone_keeps h
  | .safeXinReturn => execSafeXinReturn_keeps h
  | .railWithinTolerance _ _ => execRailWithinTolerance_keeps h
  | .pcieInboundCompletion _ _ _ _ _ => execPcieInboundCompletion_keeps h
  | .mdioAccessDone _ => execMdioAccessDone_keeps h
  | .i2cTransferDone _ _ _ => execI2cTransferDone_keeps h
  | .spiTransferDone _ _ => execSpiTransferDone_keeps h
  | .xspiCommandDone _ _ => execXspiCommandDone_keeps h

end Sys2Proof.Machine
end

