-- ==== Sys2Proof/Laws/PerInstr.lean ====
section
/-! SUPPORT. What holds of every command as syntax, one lemma a constructor: a memory request that an interface can carry lies in one
4 KiB page (01_device.md R639). -/

namespace Sys2Proof.Laws.OnePage

/-- Address and length of the memory request that a command carries. -/
def request : Instr → Option (Nat × Nat)
  | .memoryWrite _ _ addr data _ _ _ _ => some (addr.toNat, data.length)
  | .memoryRead _ _ addr len _ _ _ => some (addr.toNat, len)
  | .pcieOutboundRequest _ _ _ write addr len data _ => some (addr.toNat, if write then data.length else len)
  | .pcieInboundRequest _ _ _ _ kind addr len data _ _ => some (addr.toNat, if kind = 0 then len else data.length)
  | _ => none

/-- A request of a well-formed command ends in the page where it begins. -/
def Statement (i : Instr) : Prop := ∀ a n, request i = some (a, n) → i.wellFormed = true → a % 4096 + n ≤ 4096

theorem of_none {i : Instr} (h : request i = none) : Statement i := fun _ _ e => absurd (h.symm.trans e) (by simp)

theorem registerWrite (m : Master) (inst : Option (Fin 64)) (addr : BitVec 52) (size : Fin 4) (v : BitVec 64) : Statement (.registerWrite m inst addr size v) := of_none rfl
theorem wideRegisterLowerRead (m : Master) (inst : Option (Fin 64)) (addr : BitVec 52) : Statement (.wideRegisterLowerRead m inst addr) := of_none rfl
theorem fabricMemoryAccess (m : Master) (inst : Option (Fin 64)) (write : Bool) (addr : BitVec 64) (len : Fin 4097) (data : List Byte) (poison : Bool) (incarn : BitVec 8) : Statement (.fabricMemoryAccess m inst write addr len data poison incarn) := of_none rfl
theorem heldAccessRelease : Statement .heldAccessRelease := of_none rfl
theorem ptpClockTick (clk : Fin 4) : Statement (.ptpClockTick clk) := of_none rfl
theorem angleSample (stream : Fin 64) : Statement (.angleSample stream) := of_none rfl
theorem phaseInEdge (pin : Fin 8) (level : Bool) : Statement (.phaseInEdge pin level) := of_none rfl
theorem lineAxisFrameStart (stream : Fin 64) : Statement (.lineAxisFrameStart stream) := of_none rfl
theorem lineAxisLineStart (stream : Fin 64) : Statement (.lineAxisLineStart stream) := of_none rfl
theorem lineAxisFrameEnd (stream : Fin 64) : Statement (.lineAxisFrameEnd stream) := of_none rfl
theorem axisLoad (m : Master) (inst : Option (Fin 64)) (axis : Fin 16) (v : BitVec 64) : Statement (.axisLoad m inst axis v) := of_none rfl
theorem axisStall (axis : Fin 16) : Statement (.axisStall axis) := of_none rfl
theorem tackWrite (m : Master) (inst : Option (Fin 64)) (tack : Fin 4096) (reg : Fin 8) (v : BitVec 64) : Statement (.tackWrite m inst tack reg v) := of_none rfl
theorem tackArm (m : Master) (inst : Option (Fin 64)) (tack : Fin 4096) (cfg : BitVec 32) : Statement (.tackArm m inst tack cfg) := of_none rfl
theorem tackDisarm (m : Master) (inst : Option (Fin 64)) (tack : Fin 4096) (cfg : BitVec 32) : Statement (.tackDisarm m inst tack cfg) := of_none rfl
theorem tackFire (tack : Fin 4096) (ecc : Fin 4) : Statement (.tackFire tack ecc) := of_none rfl
theorem actionDispatch : Statement .actionDispatch := of_none rfl
theorem evaluationResume : Statement .evaluationResume := of_none rfl
theorem phaseOutEdge (pin : Fin 16) : Statement (.phaseOutEdge pin) := of_none rfl
theorem phxEvtDataRead (m : Master) (inst : Option (Fin 64)) : Statement (.phxEvtDataRead m inst) := of_none rfl
theorem csi2FrameStart (port vc : Fin 16) (frame : BitVec 16) (err : BitVec 5) : Statement (.csi2FrameStart port vc frame err) := of_none rfl
theorem csi2LongPacket (port vc : Fin 16) (dt : BitVec 6) (data : List Byte) (err : BitVec 5) : Statement (.csi2LongPacket port vc dt data err) := of_none rfl
theorem csi2FrameEnd (port vc : Fin 16) (err : BitVec 5) : Statement (.csi2FrameEnd port vc err) := of_none rfl
theorem csi2ShortPacket (port vc : Fin 16) (dt : BitVec 6) (err : BitVec 5) : Statement (.csi2ShortPacket port vc dt err) := of_none rfl
theorem flowPacket (flow : Fin 64) (full : Bool) : Statement (.flowPacket flow full) := of_none rfl
theorem bandStart (stream : Fin 64) : Statement (.bandStart stream) := of_none rfl
theorem lseUnitStart (stream : Fin 64) : Statement (.lseUnitStart stream) := of_none rfl
theorem lseEnd (stream : Fin 64) : Statement (.lseEnd stream) := of_none rfl
theorem lseLoop (stream : Fin 64) : Statement (.lseLoop stream) := of_none rfl
theorem lseGet (stream : Fin 64) : Statement (.lseGet stream) := of_none rfl
theorem lseSkip (stream : Fin 64) : Statement (.lseSkip stream) := of_none rfl
theorem lseAlu (stream : Fin 64) : Statement (.lseAlu stream) := of_none rfl
theorem lseCvt (stream : Fin 64) : Statement (.lseCvt stream) := of_none rfl
theorem lsePut (stream : Fin 64) : Statement (.lsePut stream) := of_none rfl
theorem lseAdda (stream : Fin 64) : Statement (.lseAdda stream) := of_none rfl
theorem bandComplete (stream : Fin 64) : Statement (.bandComplete stream) := of_none rfl
theorem streamStallTimeout (stream : Fin 64) : Statement (.streamStallTimeout stream) := of_none rfl
theorem slotRelease (m : Master) (inst : Option (Fin 64)) (stream : Fin 64) (v : BitVec 32) : Statement (.slotRelease m inst stream v) := of_none rfl
theorem commit (m : Master) (inst : Option (Fin 64)) (stream : Fin 64) : Statement (.commit m inst stream) := of_none rfl
theorem cancel (m : Master) (inst : Option (Fin 64)) (stream : Fin 64) : Statement (.cancel m inst stream) := of_none rfl
theorem restart (m : Master) (inst : Option (Fin 64)) (stream : Fin 64) : Statement (.restart m inst stream) := of_none rfl
theorem shadowSlotWrite (m : Master) (inst : Option (Fin 64)) (stream word : Fin 64) (v : BitVec 32) : Statement (.shadowSlotWrite m inst stream word v) := of_none rfl
theorem lseOccupancyWindow : Statement .lseOccupancyWindow := of_none rfl
theorem kernelWrite (m : Master) (cell : Fin 256) (addr : BitVec 64) : Statement (.kernelWrite m cell addr) := of_none rfl
theorem kernelLoadDone (cell : Fin 256) : Statement (.kernelLoadDone cell) := of_none rfl
theorem taskComplete (cell : Fin 256) : Statement (.taskComplete cell) := of_none rfl
theorem save (m : Master) (cell : Fin 256) : Statement (.save m cell) := of_none rfl
theorem saveComplete (cell : Fin 256) : Statement (.saveComplete cell) := of_none rfl
theorem restore (m : Master) (cell : Fin 256) : Statement (.restore m cell) := of_none rfl
theorem restoreComplete (cell : Fin 256) : Statement (.restoreComplete cell) := of_none rfl
theorem abort (m : Master) (cell : Fin 256) : Statement (.abort m cell) := of_none rfl
theorem ack (m : Master) (cell : Fin 256) : Statement (.ack m cell) := of_none rfl
theorem syncException (cell : Fin 256) (group : Fin 128) : Statement (.syncException cell group) := of_none rfl
theorem asyncException (cell : Fin 256) : Statement (.asyncException cell) := of_none rfl
theorem cellHalt (cell : Fin 256) : Statement (.cellHalt cell) := of_none rfl
theorem watchdog (cell : Fin 256) : Statement (.watchdog cell) := of_none rfl
theorem cellHang (cell : Fin 256) : Statement (.cellHang cell) := of_none rfl
theorem controlCheckerFail (cell : Fin 256) : Statement (.controlCheckerFail cell) := of_none rfl
theorem errorCountClear : Statement .errorCountClear := of_none rfl
theorem failureSubstitution (cell : Fin 256) (wake lost : Bool) (bad : List (BitVec 18)) : Statement (.failureSubstitution cell wake lost bad) := of_none rfl
theorem substitutionComplete (cell : Fin 256) : Statement (.substitutionComplete cell) := of_none rfl
theorem plannedSubstitution (cell : Fin 256) (wake : Bool) : Statement (.plannedSubstitution cell wake) := of_none rfl
theorem subReq (m : Master) (cell : Fin 256) (force : Bool) : Statement (.subReq m cell force) := of_none rfl
theorem maintStart (m : Master) (panel : Fin 16) (phys : Fin 32) : Statement (.maintStart m panel phys) := of_none rfl
theorem maintDone (pass : Bool) : Statement (.maintDone pass) := of_none rfl
theorem salu (cell : Fin 256) (group : Fin 128) : Statement (.salu cell group) := of_none rfl
theorem smovi (cell : Fin 256) (group : Fin 128) : Statement (.smovi cell group) := of_none rfl
theorem smovhi (cell : Fin 256) (group : Fin 128) : Statement (.smovhi cell group) := of_none rfl
theorem sld (cell : Fin 256) (group : Fin 128) : Statement (.sld cell group) := of_none rfl
theorem sst (cell : Fin 256) (group : Fin 128) : Statement (.sst cell group) := of_none rfl
theorem srd (cell : Fin 256) (group : Fin 128) : Statement (.srd cell group) := of_none rfl
theorem br (cell : Fin 256) (group : Fin 128) : Statement (.br cell group) := of_none rfl
theorem jal (cell : Fin 256) (group : Fin 128) : Statement (.jal cell group) := of_none rfl
theorem jalr (cell : Fin 256) (group : Fin 128) : Statement (.jalr cell group) := of_none rfl
theorem talu (cell : Fin 256) (group : Fin 128) : Statement (.talu cell group) := of_none rfl
theorem tmovi (cell : Fin 256) (group : Fin 128) : Statement (.tmovi cell group) := of_none rfl
theorem falu (cell : Fin 256) (group : Fin 128) : Statement (.falu cell group) := of_none rfl
theorem tcvt (cell : Fin 256) (group : Fin 128) : Statement (.tcvt cell group) := of_none rfl
theorem tcmp (cell : Fin 256) (group : Fin 128) : Statement (.tcmp cell group) := of_none rfl
theorem plog (cell : Fin 256) (group : Fin 128) : Statement (.plog cell group) := of_none rfl
theorem vote (cell : Fin 256) (group : Fin 128) : Statement (.vote cell group) := of_none rfl
theorem tld (cell : Fin 256) (group : Fin 128) (err : Fin 5) (idx : BitVec 32) : Statement (.tld cell group err idx) := of_none rfl
theorem tst (cell : Fin 256) (group : Fin 128) : Statement (.tst cell group) := of_none rfl
theorem tlane (cell : Fin 256) (group : Fin 128) : Statement (.tlane cell group) := of_none rfl
theorem tsamp (cell : Fin 256) (group : Fin 128) : Statement (.tsamp cell group) := of_none rfl
theorem tatom (cell : Fin 256) (group : Fin 128) : Statement (.tatom cell group) := of_none rfl
theorem barSync (cell : Fin 256) (group : Fin 128) : Statement (.barSync cell group) := of_none rfl
theorem barArrive (cell : Fin 256) (group : Fin 128) : Statement (.barArrive cell group) := of_none rfl
theorem barWait (cell : Fin 256) (group : Fin 128) : Statement (.barWait cell group) := of_none rfl
theorem barrierPhaseComplete (cell : Fin 256) (bar : Fin 16) : Statement (.barrierPhaseComplete cell bar) := of_none rfl
theorem wait (cell : Fin 256) (group : Fin 128) : Statement (.wait cell group) := of_none rfl
theorem fence (cell : Fin 256) (group : Fin 128) : Statement (.fence cell group) := of_none rfl
theorem pwait (cell : Fin 256) (group : Fin 128) : Statement (.pwait cell group) := of_none rfl
theorem pwaitReached (cell : Fin 256) (group : Fin 128) : Statement (.pwaitReached cell group) := of_none rfl
theorem pread (cell : Fin 256) (group : Fin 128) : Statement (.pread cell group) := of_none rfl
theorem notify (cell : Fin 256) (group : Fin 128) : Statement (.notify cell group) := of_none rfl
theorem sysNop (cell : Fin 256) (group : Fin 128) : Statement (.sysNop cell group) := of_none rfl
theorem sysEnd (cell : Fin 256) (group : Fin 128) : Statement (.sysEnd cell group) := of_none rfl
theorem sysBreak (cell : Fin 256) (group : Fin 128) : Statement (.sysBreak cell group) := of_none rfl
theorem sysTrap (cell : Fin 256) (group : Fin 128) : Statement (.sysTrap cell group) := of_none rfl
theorem rdfl (cell : Fin 256) (group : Fin 128) : Statement (.rdfl cell group) := of_none rfl
theorem clrfl (cell : Fin 256) (group : Fin 128) : Statement (.clrfl cell group) := of_none rfl
theorem rdres (cell : Fin 256) (group : Fin 128) : Statement (.rdres cell group) := of_none rfl
theorem wrres (cell : Fin 256) (group : Fin 128) : Statement (.wrres cell group) := of_none rfl
theorem mma (cell : Fin 256) (group : Fin 128) (err : Fin 5) (idx : BitVec 32) : Statement (.mma cell group err idx) := of_none rfl
theorem mmaw (cell : Fin 256) (group : Fin 128) : Statement (.mmaw cell group) := of_none rfl
theorem accrd (cell : Fin 256) (group : Fin 128) : Statement (.accrd cell group) := of_none rfl
theorem accld (cell : Fin 256) (group : Fin 128) : Statement (.accld cell group) := of_none rfl
theorem tensorComplete (cell : Fin 256) : Statement (.tensorComplete cell) := of_none rfl
theorem laceInstruction (cell : Fin 256) (group : Fin 128) : Statement (.laceInstruction cell group) := of_none rfl
theorem laceListAccept (cell : Fin 256) : Statement (.laceListAccept cell) := of_none rfl
theorem laceDescriptorExecute (engine : Fin 272) (chan : Fin 4) : Statement (.laceDescriptorExecute engine chan) := of_none rfl
theorem laceSignalWrite (engine : Fin 272) (chan : Fin 4) : Statement (.laceSignalWrite engine chan) := of_none rfl
theorem laceListComplete (engine : Fin 272) (chan : Fin 4) : Statement (.laceListComplete engine chan) := of_none rfl
theorem tcopy (cell : Fin 256) (group : Fin 128) : Statement (.tcopy cell group) := of_none rfl
theorem trans (cell : Fin 256) (group : Fin 128) : Statement (.trans cell group) := of_none rfl
theorem fill (cell : Fin 256) (group : Fin 128) : Statement (.fill cell group) := of_none rfl
theorem movementComplete (cell : Fin 256) : Statement (.movementComplete cell) := of_none rfl
theorem sort (cell : Fin 256) (group : Fin 128) : Statement (.sort cell group) := of_none rfl
theorem topk (cell : Fin 256) (group : Fin 128) : Statement (.topk cell group) := of_none rfl
theorem gather (cell : Fin 256) (group : Fin 128) : Statement (.gather cell group) := of_none rfl
theorem scatter (cell : Fin 256) (group : Fin 128) : Statement (.scatter cell group) := of_none rfl
theorem attn (cell : Fin 256) (group : Fin 128) : Statement (.attn cell group) := of_none rfl
theorem nms (cell : Fin 256) (group : Fin 128) : Statement (.nms cell group) := of_none rfl
theorem longRoutineComplete (cell : Fin 256) : Statement (.longRoutineComplete cell) := of_none rfl
theorem slotReleaseWrite (m : Master) (inst : Option (Fin 64)) (slot : Fin 4096) (param : BitVec 32) : Statement (.slotReleaseWrite m inst slot param) := of_none rfl
theorem taskPlacement : Statement .taskPlacement := of_none rfl
theorem taskOutcome : Statement .taskOutcome := of_none rfl
theorem completionBufferDrain : Statement .completionBufferDrain := of_none rfl
theorem clickCfgWrite (m : Master) (click : Fin 64) (v : BitVec 32) : Statement (.clickCfgWrite m click v) := of_none rfl
theorem clickSwitch (m : Master) (click : Fin 64) (v : BitVec 32) : Statement (.clickSwitch m click v) := of_none rfl
theorem switchDrainDone (click : Fin 64) : Statement (.switchDrainDone click) := of_none rfl
theorem switchDone (click : Fin 64) : Statement (.switchDone click) := of_none rfl
theorem unbind (m : Master) (click : Fin 64) (abort : Bool) : Statement (.unbind m click abort) := of_none rfl
theorem checkpointDigest (side : Bool) : Statement (.checkpointDigest side) := of_none rfl
theorem digestCompare (slot : Fin 4096) : Statement (.digestCompare slot) := of_none rfl
theorem digestLate (slot : Fin 4096) : Statement (.digestLate slot) := of_none rfl
theorem modelRepair (addr : BitVec 64) : Statement (.modelRepair addr) := of_none rfl
theorem modelInstallationDone (model : Fin 32) (work kern : BitVec 52) : Statement (.modelInstallationDone model work kern) := of_none rfl
theorem epochAcqRead (m : Master) (inst : Option (Fin 64)) : Statement (.epochAcqRead m inst) := of_none rfl
theorem epochPublish (m : Master) (inst : Option (Fin 64)) (buf : Fin 4) : Statement (.epochPublish m inst buf) := of_none rfl
theorem epochAbandon (m : Master) (inst : Option (Fin 64)) (buf : Fin 4) : Statement (.epochAbandon m inst buf) := of_none rfl
theorem cycleStart : Statement .cycleStart := of_none rfl
theorem wavefrontExpansionDone (err : Fin 3) : Statement (.wavefrontExpansionDone err) := of_none rfl
theorem planChosen : Statement .planChosen := of_none rfl
theorem heelSubmit (m : Master) (addr : BitVec 64) : Statement (.heelSubmit m addr) := of_none rfl
theorem heelCheckDone (fault : Bool) : Statement (.heelCheckDone fault) := of_none rfl
theorem heelOutcome : Statement .heelOutcome := of_none rfl
theorem deadlineTack : Statement .deadlineTack := of_none rfl
theorem vehicleStateCommit (m : Master) (inst : Option (Fin 64)) (t : BitVec 64) : Statement (.vehicleStateCommit m inst t) := of_none rfl
theorem goalSwap (m : Master) (inst : Option (Fin 64)) : Statement (.goalSwap m inst) := of_none rfl
theorem rasFeTailWrite (m : Master) (inst : Option (Fin 64)) (fe : Fin 2) (v : BitVec 16) : Statement (.rasFeTailWrite m inst fe v) := of_none rfl
theorem rasNop (fe : Fin 2) : Statement (.rasNop fe) := of_none rfl
theorem beginPass (fe : Fin 2) : Statement (.beginPass fe) := of_none rfl
theorem draw (fe : Fin 2) : Statement (.draw fe) := of_none rfl
theorem endPass (fe : Fin 2) : Statement (.endPass fe) := of_none rfl
theorem release (fe : Fin 2) : Statement (.release fe) := of_none rfl
theorem waitMem (fe : Fin 2) : Statement (.waitMem fe) := of_none rfl
theorem waitMemPoll (fe : Fin 2) : Statement (.waitMemPoll fe) := of_none rfl
theorem signalMem (fe : Fin 2) : Statement (.signalMem fe) := of_none rfl
theorem splat (fe : Fin 2) : Statement (.splat fe) := of_none rfl
theorem skipCmd (m : Master) (inst : Option (Fin 64)) (fe : Fin 2) : Statement (.skipCmd m inst fe) := of_none rfl
theorem flush (m : Master) (inst : Option (Fin 64)) (fe : Fin 2) : Statement (.flush m inst fe) := of_none rfl
theorem rasEventRetry (fe : Fin 2) : Statement (.rasEventRetry fe) := of_none rfl
theorem dpyPipeEnable (m : Master) (inst : Option (Fin 64)) (pipe : Fin 4) (expect : Bool) : Statement (.dpyPipeEnable m inst pipe expect) := of_none rfl
theorem dpyPipeDisable (m : Master) (inst : Option (Fin 64)) (pipe : Fin 4) (expect : Bool) : Statement (.dpyPipeDisable m inst pipe expect) := of_none rfl
theorem dpyFrameStart (pipe : Fin 4) (onTarget : Bool) (late : List (BitVec 16 × BitVec 16)) : Statement (.dpyFrameStart pipe onTarget late) := of_none rfl
theorem dpyLineDl (pipe : Fin 4) : Statement (.dpyLineDl pipe) := of_none rfl
theorem dpyFlipLatch (pipe : Fin 4) : Statement (.dpyFlipLatch pipe) := of_none rfl
theorem dpyPipeFlip (m : Master) (inst : Option (Fin 64)) (pipe : Fin 4) (buf : Fin 4) : Statement (.dpyPipeFlip m inst pipe buf) := of_none rfl
theorem dpyLockLoss (pipe : Fin 4) : Statement (.dpyLockLoss pipe) := of_none rfl
theorem sideGo (m : Master) (inst : Option (Fin 64)) (pipe : Fin 4) (v : BitVec 32) : Statement (.sideGo m inst pipe v) := of_none rfl
theorem sideDone (pipe : Fin 4) (data : List Byte) : Statement (.sideDone pipe data) := of_none rfl
theorem hpdEvent (pipe : Fin 4) : Statement (.hpdEvent pipe) := of_none rfl
theorem memoryRead (m : Master) (inst : Option (Fin 64)) (addr : BitVec 64) (len : Fin 4097) (err : Fin 11) (off : Fin 4096) (syn : BitVec 16) : Statement (.memoryRead m inst addr len err off syn) := by
  intro a n e w
  simp only [request, Option.some.injEq, Prod.mk.injEq] at e
  simp only [Instr.wellFormed, inOnePage, Bool.and_eq_true, decide_eq_true_eq] at w
  omega

theorem memoryWrite (m : Master) (inst : Option (Fin 64)) (addr : BitVec 64) (data : List Byte) (poison : Bool) (err : Fin 3) (off : Fin 4096) (syn : BitVec 16) : Statement (.memoryWrite m inst addr data poison err off syn) := by
  intro a n e w
  simp only [request, Option.some.injEq, Prod.mk.injEq] at e
  simp only [Instr.wellFormed, inOnePage, Bool.and_eq_true, decide_eq_true_eq] at w
  omega

theorem scrubRead (addr : BitVec 64) (err : Fin 3) (syn : BitVec 16) : Statement (.scrubRead addr err syn) := of_none rfl
theorem scrubLate (kind : Fin 3) : Statement (.scrubLate kind) := of_none rfl
theorem fabricRequestIssue (port : Fin 32) (label : Fin 256) (m : Master) (inst : Option (Fin 64)) (addr : BitVec 64) (bytes : BitVec 13) (write : Bool) (deadline : Option (BitVec 16)) : Statement (.fabricRequestIssue port label m inst addr bytes write deadline) := of_none rfl
theorem regulatorRelease (port : Fin 32) (label : Fin 256) : Statement (.regulatorRelease port label) := of_none rfl
theorem requestComplete (port : Fin 32) (label : Fin 256) (cause : Fin 5) : Statement (.requestComplete port label cause) := of_none rfl
theorem floorWindowEnd (port : Fin 32) (label : Fin 256) : Statement (.floorWindowEnd port label) := of_none rfl
theorem linkRetrain (link : Fin 46) : Statement (.linkRetrain link) := of_none rfl
theorem auditStart : Statement .auditStart := of_none rfl
theorem auditComplete : Statement .auditComplete := of_none rfl
theorem auditLate : Statement .auditLate := of_none rfl
theorem fabMissClr (m : Master) (inst : Option (Fin 64)) (v : BitVec 32) : Statement (.fabMissClr m inst v) := of_none rfl
theorem clusterStateChange (cluster : Fin 6) (st : Fin 3) : Statement (.clusterStateChange cluster st) := of_none rfl
theorem atuInv (m : Master) (inst : Option (Fin 64)) (w : BitVec 64) : Statement (.atuInv m inst w) := of_none rfl
theorem atuInvDone : Statement .atuInvDone := of_none rfl
theorem instanceReset (m : Master) (inst : Fin 64) : Statement (.instanceReset m inst) := of_none rfl
theorem instanceRemove (m : Master) (inst : Fin 64) : Statement (.instanceRemove m inst) := of_none rfl
theorem instanceAdd (m : Master) (inst : Fin 64) : Statement (.instanceAdd m inst) := of_none rfl
theorem resetDrainDone (inst : Fin 64) : Statement (.resetDrainDone inst) := of_none rfl
theorem pcieLinkUp (port : Fin 4) (gen : Fin 8) (width : Fin 4) (flit : Bool) : Statement (.pcieLinkUp port gen width flit) := of_none rfl
theorem pcieLinkDown (port : Fin 4) : Statement (.pcieLinkDown port) := of_none rfl
theorem pcieFlr (port : Fin 4) (vf : Fin 64) : Statement (.pcieFlr port vf) := of_none rfl
theorem vfEnableChange (port : Fin 4) (enable : Bool) (num : Fin 65) : Statement (.vfEnableChange port enable num) := of_none rfl
theorem pcieInboundRequest (port : Fin 4) (fn : Fin 256) (rid : BitVec 16) (bar : Fin 3) (kind : Fin 5) (addr : BitVec 64) (len : Fin 4097) (data : List Byte) (ep : Bool) (tag : BitVec 14) : Statement (.pcieInboundRequest port fn rid bar kind addr len data ep tag) := by
  intro a n e w
  simp only [request, Option.some.injEq, Prod.mk.injEq] at e
  obtain ⟨rfl, rfl⟩ := e
  simp only [Instr.wellFormed, inOnePage] at w
  split at w
  · next k => rw [if_pos k]; exact of_decide_eq_true w
  · next k => rw [if_neg k]; simp only [Bool.and_eq_true, decide_eq_true_eq] at w; exact w.2

theorem pcieOutboundRequest (m : Master) (inst : Option (Fin 64)) (port : Fin 4) (write : Bool) (addr : BitVec 40) (len : Fin 4097) (data : List Byte) (poison : Bool) : Statement (.pcieOutboundRequest m inst port write addr len data poison) := by
  intro a n e w
  simp only [request, Option.some.injEq, Prod.mk.injEq] at e
  simp only [Instr.wellFormed, inOnePage, decide_eq_true_eq] at w
  obtain ⟨rfl, rfl⟩ := e
  exact w

theorem pcieCompletionTimeout (port : Fin 4) (tag : BitVec 14) : Statement (.pcieCompletionTimeout port tag) := of_none rfl
theorem pciCfgGo (m : Master) (port : Fin 4) (v : BitVec 32) (write : Bool) : Statement (.pciCfgGo m port v write) := of_none rfl
theorem hqmDoorbell (m : Master) (inst : Option (Fin 64)) (gen : BitVec 16) (v : BitVec 64) : Statement (.hqmDoorbell m inst gen v) := of_none rfl
theorem hqmPost (qid : Fin 524288) (gen : BitVec 16) (data : List Byte) : Statement (.hqmPost qid gen data) := of_none rfl
theorem hqmPostRetry (qid : Fin 524288) : Statement (.hqmPostRetry qid) := of_none rfl
theorem qcmdEnable (m : Master) (inst : Option (Fin 64)) (qid : Fin 524288) : Statement (.qcmdEnable m inst qid) := of_none rfl
theorem qcmdDisable (m : Master) (inst : Option (Fin 64)) (qid : Fin 524288) : Statement (.qcmdDisable m inst qid) := of_none rfl
theorem qcmdClearFault (m : Master) (inst : Option (Fin 64)) (qid : Fin 524288) : Statement (.qcmdClearFault m inst qid) := of_none rfl
theorem refclkLoss : Statement .refclkLoss := of_none rfl
theorem refclkRecover : Statement .refclkRecover := of_none rfl
theorem ptpRefinFail : Statement .ptpRefinFail := of_none rfl
theorem ptpRefinRecover : Statement .ptpRefinRecover := of_none rfl
theorem safeXinFail : Statement .safeXinFail := of_none rfl
theorem lockstepMismatch (pair : Fin 6) (point : Fin 4) (bit : Fin 2048) (pc : BitVec 32) : Statement (.lockstepMismatch pair point bit pc) := of_none rfl
theorem pairRetestDone (pair : Fin 6) (pass : Bool) : Statement (.pairRetestDone pair pass) := of_none rfl
theorem retest (m : Master) (pair : Fin 6) : Statement (.retest m pair) := of_none rfl
theorem inputVote (pair : Fin 6) (input : BitVec 16) (rounds : List (Bool × Bool)) : Statement (.inputVote pair input rounds) := of_none rfl
theorem startupTest : Statement .startupTest := of_none rfl
theorem startupTestDone (pass : BitVec 6) : Statement (.startupTestDone pass) := of_none rfl
theorem debugSplit (pair : Fin 6) : Statement (.debugSplit pair) := of_none rfl
theorem faultEvent (rail : BitVec 2) (src : Fin 64) (cls access : Fin 8) (m : Master) (unit : BitVec 16) (info : BitVec 32) (addr : BitVec 64) : Statement (.faultEvent rail src cls access m unit info addr) := of_none rfl
theorem classDExit : Statement .classDExit := of_none rfl
theorem classSExit : Statement .classSExit := of_none rfl
theorem sExit (m : Master) : Statement (.sExit m) := of_none rfl
theorem aliveStart (m : Master) : Statement (.aliveStart m) := of_none rfl
theorem aliveEdge : Statement .aliveEdge := of_none rfl
theorem fcHoldExpire : Statement .fcHoldExpire := of_none rfl
theorem kick (m : Master) : Statement (.kick m) := of_none rfl
theorem islandWatchdogExpire : Statement .islandWatchdogExpire := of_none rfl
theorem fwpHeartbeat (m : Master) : Statement (.fwpHeartbeat m) := of_none rfl
theorem heartbeatMiss (proc : Fin 6) : Statement (.heartbeatMiss proc) := of_none rfl
theorem swReport (m : Master) (data : BitVec 64) : Statement (.swReport m data) := of_none rfl
theorem clrFirst (m : Master) : Statement (.clrFirst m) := of_none rfl
theorem alarmTailWrite (m : Master) (v : BitVec 9) : Statement (.alarmTailWrite m v) := of_none rfl
theorem awlUnlock (m : Master) (data : BitVec 32) : Statement (.awlUnlock m data) := of_none rfl
theorem awlUnlockTimeout : Statement .awlUnlockTimeout := of_none rfl
theorem go (m : Master) (data : BitVec 32) : Statement (.go m data) := of_none rfl
theorem awlInjection (m : Master) (addr : BitVec 64) (point : Fin 4) (pc : BitVec 32) : Statement (.awlInjection m addr point pc) := of_none rfl
theorem awlRunTimeout : Statement .awlRunTimeout := of_none rfl
theorem incarnationRaise (proc : Fin 6) : Statement (.incarnationRaise proc) := of_none rfl
theorem powerOnReset : Statement .powerOnReset := of_none rfl
theorem coldReset (by_ : Option Master) : Statement (.coldReset by_) := of_none rfl
theorem islandReset (m : Master) : Statement (.islandReset m) := of_none rfl
theorem tapReset : Statement .tapReset := of_none rfl
theorem imageVerify (readErr : Bool) : Statement (.imageVerify readErr) := of_none rfl
theorem configRecordCheck : Statement .configRecordCheck := of_none rfl
theorem configRecordApply (cells : List (BitVec 17)) (images : List (List Byte)) : Statement (.configRecordApply cells images) := of_none rfl
theorem recoveryEnter : Statement .recoveryEnter := of_none rfl
theorem mbxGo (m : Master) (inst : Option (Fin 64)) (mbx : Fin 64) : Statement (.mbxGo m inst mbx) := of_none rfl
theorem mbxDone (m : Master) (inst : Option (Fin 64)) (mbx : Fin 64) : Statement (.mbxDone m inst mbx) := of_none rfl
theorem mbxResponse (mbx : Fin 64) : Statement (.mbxResponse mbx) := of_none rfl
theorem hello (mbx : Fin 64) : Statement (.hello mbx) := of_none rfl
theorem getInfo (mbx : Fin 64) : Statement (.getInfo mbx) := of_none rfl
theorem imageWrite (mbx : Fin 64) : Statement (.imageWrite mbx) := of_none rfl
theorem imageCommit (mbx : Fin 64) : Statement (.imageCommit mbx) := of_none rfl
theorem imageConfirm (mbx : Fin 64) : Statement (.imageConfirm mbx) := of_none rfl
theorem fwpRestart (mbx : Fin 64) : Statement (.fwpRestart mbx) := of_none rfl
theorem logRead (mbx : Fin 64) : Statement (.logRead mbx) := of_none rfl
theorem traceSet (mbx : Fin 64) : Statement (.traceSet mbx) := of_none rfl
theorem profileSet (mbx : Fin 64) : Statement (.profileSet mbx) := of_none rfl
theorem profileGet (mbx : Fin 64) : Statement (.profileGet mbx) := of_none rfl
theorem clickSet (mbx : Fin 64) : Statement (.clickSet mbx) := of_none rfl
theorem slotSet (mbx : Fin 64) : Statement (.slotSet mbx) := of_none rfl
theorem queueCtrl (mbx : Fin 64) : Statement (.queueCtrl mbx) := of_none rfl
theorem s2Set (mbx : Fin 64) : Statement (.s2Set mbx) := of_none rfl
theorem instanceCtrl (mbx : Fin 64) : Statement (.instanceCtrl mbx) := of_none rfl
theorem ptpStep (mbx : Fin 64) : Statement (.ptpStep mbx) := of_none rfl
theorem linkStatus (mbx : Fin 64) : Statement (.linkStatus mbx) := of_none rfl
theorem faultRead (mbx : Fin 64) : Statement (.faultRead mbx) := of_none rfl
theorem modelInstall (mbx : Fin 64) : Statement (.modelInstall mbx) := of_none rfl
theorem modelEvict (mbx : Fin 64) : Statement (.modelEvict mbx) := of_none rfl
theorem modelPin (mbx : Fin 64) : Statement (.modelPin mbx) := of_none rfl
theorem modelSwitch (mbx : Fin 64) : Statement (.modelSwitch mbx) := of_none rfl
theorem modelStatus (mbx : Fin 64) : Statement (.modelStatus mbx) := of_none rfl
theorem fwpProcessorRestart (proc : Fin 6) : Statement (.fwpProcessorRestart proc) := of_none rfl
theorem fwpRestartDone (proc : Fin 6) (pass : Bool) : Statement (.fwpRestartDone proc pass) := of_none rfl
theorem selftest (m : Option Master) : Statement (.selftest m) := of_none rfl
theorem logEntryWrite (proc : Fin 6) (kind level : Fin 4) (code : BitVec 16) (args : BitVec 128) : Statement (.logEntryWrite proc kind level code args) := of_none rfl
theorem logTailWrite (m : Master) (proc : Fin 6) (v : BitVec 32) : Statement (.logTailWrite m proc v) := of_none rfl
theorem traceWindow (proc : Fin 6) : Statement (.traceWindow proc) := of_none rfl
theorem ethFrameReceive (mac : Fin 16) (frame : List Byte) (secOk pass : Bool) : Statement (.ethFrameReceive mac frame secOk pass) := of_none rfl
theorem hostChannelTx (chan : Fin 64) : Statement (.hostChannelTx chan) := of_none rfl
theorem ethFrameTransmit (port : Fin 18) (cls : Fin 8) (preempted : Bool) : Statement (.ethFrameTransmit port cls preempted) := of_none rfl
theorem gateIntervalExpire (port : Fin 14) : Statement (.gateIntervalExpire port) := of_none rfl
theorem gclSwap (m : Master) (port : Fin 14) : Statement (.gclSwap m port) := of_none rfl
theorem gclSwapApply (port : Fin 14) : Statement (.gclSwapApply port) := of_none rfl
theorem ethPortTxtsRead (m : Master) (port : Fin 16) (wide : Bool) : Statement (.ethPortTxtsRead m port wide) := of_none rfl
theorem ethLinkChange (mac : Fin 16) (up : Bool) : Statement (.ethLinkChange mac up) := of_none rfl
theorem mdioGo (m : Master) (v : BitVec 32) : Statement (.mdioGo m v) := of_none rfl
theorem ethTblGo (m : Master) (table : Fin 16) (index : BitVec 16) : Statement (.ethTblGo m table index) := of_none rfl
theorem ptpClkIncWrite (m : Master) (inst : Option (Fin 64)) (clk : Fin 4) (v : BitVec 64) : Statement (.ptpClkIncWrite m inst clk v) := of_none rfl
theorem ptpClkAdjWrite (m : Master) (inst : Option (Fin 64)) (clk : Fin 4) (v : BitVec 64) : Statement (.ptpClkAdjWrite m inst clk v) := of_none rfl
theorem ptpSlewDone (clk : Fin 4) : Statement (.ptpSlewDone clk) := of_none rfl
theorem ptpClkStepWrite (m : Master) (inst : Option (Fin 64)) (clk : Fin 4) (v : BitVec 64) : Statement (.ptpClkStepWrite m inst clk v) := of_none rfl
theorem ptpStepApply (clk : Fin 4) : Statement (.ptpStepApply clk) := of_none rfl
theorem accept (m : Master) (inst : Option (Fin 64)) (clk : Fin 4) (both : Bool) : Statement (.accept m inst clk both) := of_none rfl
theorem reject (m : Master) (inst : Option (Fin 64)) (clk : Fin 4) : Statement (.reject m inst clk) := of_none rfl
theorem ptpClkSet (m : Master) (inst : Option (Fin 64)) (clk : Fin 4) (ns : BitVec 30) : Statement (.ptpClkSet m inst clk ns) := of_none rfl
theorem ppsOutPulse : Statement .ppsOutPulse := of_none rfl
theorem ppsInEdge (level : Bool) : Statement (.ppsInEdge level) := of_none rfl
theorem canFrameReceive (ctrl : Fin 16) (buf : List Byte) : Statement (.canFrameReceive ctrl buf) := of_none rfl
theorem canFrameTransmit (ctrl : Fin 16) (outcome : Fin 3) : Statement (.canFrameTransmit ctrl outcome) := of_none rfl
theorem canBusOff (ctrl : Fin 16) : Statement (.canBusOff ctrl) := of_none rfl
theorem canBusOffRecovery (ctrl : Fin 16) : Statement (.canBusOffRecovery ctrl) := of_none rfl
theorem recover (m : Master) (ctrl : Fin 16) : Statement (.recover m ctrl) := of_none rfl
theorem ntscfFrameSend (stream : Fin 64) : Statement (.ntscfFrameSend stream) := of_none rfl
theorem railDeparture (rail : Fin 14) (mv : BitVec 12) : Statement (.railDeparture rail mv) := of_none rfl
theorem group3RailTimeout : Statement .group3RailTimeout := of_none rfl
theorem admissionRequest (kind : Fin 7) (unit : Fin 256) : Statement (.admissionRequest kind unit) := of_none rfl
theorem admissionGrant : Statement .admissionGrant := of_none rfl
theorem admissionWaitLong : Statement .admissionWaitLong := of_none rfl
theorem tokenReturn (kind : Fin 7) (unit : Fin 256) : Statement (.tokenReturn kind unit) := of_none rfl
theorem profileReq (m : Master) (profile : Fin 8) : Statement (.profileReq m profile) := of_none rfl
theorem profileDrainDone (wfi : Bool) : Statement (.profileDrainDone wfi) := of_none rfl
theorem profileWaitTimeout : Statement .profileWaitTimeout := of_none rfl
theorem voltageRampDone : Statement .voltageRampDone := of_none rfl
theorem clockSlewDone : Statement .clockSlewDone := of_none rfl
theorem hbmRetrainDone (stack : Fin 4) : Statement (.hbmRetrainDone stack) := of_none rfl
theorem panelWakeDone (panel : Fin 16) (fail : BitVec 16) : Statement (.panelWakeDone panel fail) := of_none rfl
theorem profileDone : Statement .profileDone := of_none rfl
theorem pllLockLoss (dom : Fin 48) : Statement (.pllLockLoss dom) := of_none rfl
theorem pllRelock (dom : Fin 48) : Statement (.pllRelock dom) := of_none rfl
theorem thermalSample (readings : List (BitVec 17)) : Statement (.thermalSample readings) := of_none rfl
theorem clockThrottleStep (clk : Fin 22) : Statement (.clockThrottleStep clk) := of_none rfl
theorem clockRaiseStep (clk : Fin 22) : Statement (.clockRaiseStep clk) := of_none rfl
theorem fuseProg (m : Master) (b : BitVec 12) (readsBack : Bool) : Statement (.fuseProg m b readsBack) := of_none rfl
theorem keyUnwrap (m : Master) (slot : Fin 16) : Statement (.keyUnwrap m slot) := of_none rfl
theorem keyClear (m : Master) (slot : Fin 16) : Statement (.keyClear m slot) := of_none rfl
theorem secWinWrite (m : Master) (w : Fin 64) (v : BitVec 32) : Statement (.secWinWrite m w v) := of_none rfl
theorem pkClaim (m : Master) : Statement (.pkClaim m) := of_none rfl
theorem pkRelease (m : Master) : Statement (.pkRelease m) := of_none rfl
theorem ecdsaSignP256 (m : Master) (keysrc : Bool) : Statement (.ecdsaSignP256 m keysrc) := of_none rfl
theorem ecdsaSignP384 (m : Master) (keysrc : Bool) : Statement (.ecdsaSignP384 m keysrc) := of_none rfl
theorem ecdsaVerifyP256 (m : Master) (keysrc : Bool) : Statement (.ecdsaVerifyP256 m keysrc) := of_none rfl
theorem ecdsaVerifyP384 (m : Master) (keysrc : Bool) : Statement (.ecdsaVerifyP384 m keysrc) := of_none rfl
theorem ecdhP256 (m : Master) (keysrc : Bool) : Statement (.ecdhP256 m keysrc) := of_none rfl
theorem ecdhP384 (m : Master) (keysrc : Bool) : Statement (.ecdhP384 m keysrc) := of_none rfl
theorem keygenP256 (m : Master) (keysrc : Bool) : Statement (.keygenP256 m keysrc) := of_none rfl
theorem keygenP384 (m : Master) (keysrc : Bool) : Statement (.keygenP384 m keysrc) := of_none rfl
theorem x25519 (m : Master) (keysrc : Bool) : Statement (.x25519 m keysrc) := of_none rfl
theorem mlDsa65Verify (m : Master) (keysrc : Bool) : Statement (.mlDsa65Verify m keysrc) := of_none rfl
theorem mlKem768Decapsulation (m : Master) (keysrc : Bool) : Statement (.mlKem768Decapsulation m keysrc) := of_none rfl
theorem badOp (m : Master) (op : BitVec 8) : Statement (.badOp m op) := of_none rfl
theorem pkComplete : Statement .pkComplete := of_none rfl
theorem newChal (m : Master) : Statement (.newChal m) := of_none rfl
theorem submit (m : Master) (key : BitVec 776) (r sg : BitVec 384) : Statement (.submit m key r sg) := of_none rfl
theorem extest (data : BitVec 4164) : Statement (.extest data) := of_none rfl
theorem samplePreload (data : BitVec 4164) : Statement (.samplePreload data) := of_none rfl
theorem idcode : Statement .idcode := of_none rfl
theorem clamp : Statement .clamp := of_none rfl
theorem highz : Statement .highz := of_none rfl
theorem extestPulse (data : BitVec 4164) : Statement (.extestPulse data) := of_none rfl
theorem extestTrain (data : BitVec 4164) : Statement (.extestTrain data) := of_none rfl
theorem ecidcode : Statement .ecidcode := of_none rfl
theorem dbgAuth (data : BitVec 1552) : Statement (.dbgAuth data) := of_none rfl
theorem dbgPair (data : BitVec 44) : Statement (.dbgPair data) := of_none rfl
theorem bypass (op : BitVec 12) : Statement (.bypass op) := of_none rfl
theorem uartTxByte (m : Master) (unit : Fin 4) (data : Byte) : Statement (.uartTxByte m unit data) := of_none rfl
theorem uartRxByte (unit : Fin 4) (data : Byte) : Statement (.uartRxByte unit data) := of_none rfl
theorem i2cCmdGo (m : Master) (unit : Fin 4) (v : BitVec 32) : Statement (.i2cCmdGo m unit v) := of_none rfl
theorem spiDataWrite (m : Master) (unit : Fin 4) (v : BitVec 32) : Statement (.spiDataWrite m unit v) := of_none rfl
theorem gpioEdge (pin : Fin 64) (level : Bool) : Statement (.gpioEdge pin level) := of_none rfl
theorem xspiCmdGo (m : Master) (unit : Fin 2) (v : BitVec 32) : Statement (.xspiCmdGo m unit v) := of_none rfl
theorem ufsDoorbell (m : Master) (v : BitVec 32) : Statement (.ufsDoorbell m v) := of_none rfl
theorem ufsCompletion (slot : Fin 32) : Statement (.ufsCompletion slot) := of_none rfl
theorem phySyncChange (port : Fin 16) (sync deskew : Bool) : Statement (.phySyncChange port sync deskew) := of_none rfl
theorem fabricLinkRetrainDone (link : Fin 46) : Statement (.fabricLinkRetrainDone link) := of_none rfl
theorem safeXinReturn : Statement .safeXinReturn := of_none rfl
theorem railWithinTolerance (rail : Fin 14) (mv : BitVec 12) : Statement (.railWithinTolerance rail mv) := of_none rfl
theorem pcieInboundCompletion (port : Fin 4) (tag : BitVec 14) (err ep : Bool) (data : List Byte) : Statement (.pcieInboundCompletion port tag err ep data) := of_none rfl
theorem mdioAccessDone (data : BitVec 16) : Statement (.mdioAccessDone data) := of_none rfl
theorem i2cTransferDone (unit : Fin 4) (nack : Bool) (data : List Byte) : Statement (.i2cTransferDone unit nack data) := of_none rfl
theorem spiTransferDone (unit : Fin 4) (v : BitVec 32) : Statement (.spiTransferDone unit v) := of_none rfl
theorem xspiCommandDone (unit : Fin 2) (data : List Byte) : Statement (.xspiCommandDone unit data) := of_none rfl

end Sys2Proof.Laws.OnePage
end

