-- ==== Sys2Proof/Tests/Slice0.lean ====
section
/-! SUPPORT. Tests of the model: WellFormed's refusals, and for every statement with hypotheses a state and operands that meet
them. -/

namespace Sys2Proof.Machine

-- one proof after the other: each kernel evaluation waits for the declarations before it
set_option Elab.async false

/-- The reset state with register words set. -/
def wReg (l : List (Nat × Nat)) : State := l.foldl (fun s p => s.setWord p.1 p.2) .reset

/-- Cell 9 RUNNING with group 127 live at PC 0, 32 registers, and one word of code. -/
def wCell (w : Nat) (q : CGroup := .reset) : State :=
  { wReg [(rCell 9 0, 5)] with
    cel.cells := [(9, { CellS.reset with
      desc := List.replicate 8 0 ++ [8, 0, 0, 0] ++ List.replicate 6 0 ++ [32] ++ List.replicate 45 0, code := [(0, w)],
      groups := [(127, { q with run := 1 })] })] }

/-- Bytes that are there and keep p. -/
def hasBytes (x : Option (List Byte)) (p : List Byte → Bool) : Bool := match x with | some l => p l | none => false

/-- A read that answers bytes without poison that keep p. -/
def readsBytes (x : Except AccErr (List Byte × Bool)) (p : List Byte → Bool) : Bool :=
  match x with | .ok (l, false) => p l | _ => false

/-! WellFormed refuses an ill-formed term for each of its checks, and takes the terms at the limits. -/

theorem wellFormed_csi2LongPacket (p v : Fin 16) (d : BitVec 6) (l : List Byte) (e : BitVec 5) :
    (Instr.csi2LongPacket p v d l e).wellFormed = decide (l.length < 65536) := rfl
theorem wellFormed_fabric_write (m : Master) (a : BitVec 64) (n : Fin 4097) (l : List Byte) :
    (Instr.fabricMemoryAccess m none true a n l false 0).wellFormed = decide (l.length ≤ 4096) := rfl
theorem wellFormed_pcie_write (a : BitVec 64) (l : List Byte) :
    (Instr.pcieInboundRequest 0 0 0 0 1 a 0 l false 0).wellFormed = (decide (l.length ≤ 512) && inOnePage a.toNat l.length) := rfl
theorem wellFormed_completion (l : List Byte) :
    (Instr.pcieInboundCompletion 0 0 false false l).wellFormed = decide (l.length ≤ 4096) := rfl
theorem wellFormed_canFrameReceive (l : List Byte) :
    (Instr.canFrameReceive 0 l).wellFormed = (decide (16 ≤ l.length) && decide (l.length ≤ 16 + 2048)) := rfl
theorem wellFormed_xspiCommandDone (l : List Byte) :
    (Instr.xspiCommandDone 0 l).wellFormed = decide (l.length ≤ 256) := rfl

theorem test_wf_inputVote : (Instr.inputVote 0 0 (.replicate 5 (false, true))).wellFormed = false ∧
    (Instr.inputVote 0 0 (.replicate 4 (false, true))).wellFormed = true := by decide
theorem test_wf_csi2LongPacket : (Instr.csi2LongPacket 0 0 0x2A (.replicate 65536 0) 0).wellFormed = false ∧
    (Instr.csi2LongPacket 0 0 0x2A (.replicate 65535 0) 0).wellFormed = true := by
  simp only [wellFormed_csi2LongPacket, List.length_replicate]; decide
theorem test_wf_failureSubstitution : (Instr.failureSubstitution 0 false false [196608]).wellFormed = false ∧
    (Instr.failureSubstitution 0 false false [0, 196607]).wellFormed = true := by decide
theorem test_wf_memoryWrite_empty : (Instr.memoryWrite 0 none 0x800000000 [] false 0 0 0).wellFormed = false := by decide
theorem test_wf_memoryWrite_page : (Instr.memoryWrite 0 none 0x800000FFF [1, 2] false 0 0 0).wellFormed = false ∧
    (Instr.memoryWrite 0 none 0x800000FFE [1, 2] false 0 0 0).wellFormed = true := by decide
theorem test_wf_memoryRead_empty : (Instr.memoryRead 0 none 0x800000000 0 0 0 0).wellFormed = false := by decide
theorem test_wf_memoryRead_page : (Instr.memoryRead 0 none 0x800000004 4096 0 0 0).wellFormed = false ∧
    (Instr.memoryRead 0 none 0x800000000 4096 0 0 0).wellFormed = true := by decide
theorem test_wf_pcieOutboundRequest : (Instr.pcieOutboundRequest 0 none 0 true 0xFFE 0 [1, 2, 3] false).wellFormed = false ∧
    (Instr.pcieOutboundRequest 0 none 0 false 0xFFE 3 [] false).wellFormed = false ∧
    (Instr.pcieOutboundRequest 0 none 0 false 0xFFE 2 [] false).wellFormed = true := by decide
theorem test_wf_fabricMemoryAccess : (Instr.fabricMemoryAccess 0 none true 0 0 (.replicate 4097 0) false 0).wellFormed = false ∧
    (Instr.fabricMemoryAccess 0 none true 0 0 (.replicate 4096 0) false 0).wellFormed = true := by
  simp only [wellFormed_fabric_write, List.length_replicate]; decide
theorem test_wf_pcieInboundRequest_read : (Instr.pcieInboundRequest 0 0 0 0 0 0xFFF 2 [] false 0).wellFormed = false ∧
    (Instr.pcieInboundRequest 0 0 0 0 0 0xFFF 1 [] false 0).wellFormed = true := by decide
theorem test_wf_pcieInboundRequest_write :
    (Instr.pcieInboundRequest 0 0 0 0 1 0 0 (.replicate 513 0) false 0).wellFormed = false ∧
    (Instr.pcieInboundRequest 0 0 0 0 1 0xFFF 0 [1, 2] false 0).wellFormed = false ∧
    (Instr.pcieInboundRequest 0 0 0 0 1 0 0 (.replicate 512 0) false 0).wellFormed = true := by
  simp only [wellFormed_pcie_write, List.length_replicate]; decide
theorem test_wf_pcieInboundCompletion : (Instr.pcieInboundCompletion 0 0 false false (.replicate 4097 0)).wellFormed = false ∧
    (Instr.pcieInboundCompletion 0 0 false false []).wellFormed = true := by
  simp only [wellFormed_completion, List.length_replicate]; decide
theorem test_wf_canFrameReceive : (Instr.canFrameReceive 0 (.replicate 15 0)).wellFormed = false ∧
    (Instr.canFrameReceive 0 (.replicate 2065 0)).wellFormed = false ∧
    (Instr.canFrameReceive 0 (.replicate 16 0)).wellFormed = true := by
  simp only [wellFormed_canFrameReceive, List.length_replicate]; decide
theorem test_wf_thermalSample : (Instr.thermalSample (.replicate 55 0)).wellFormed = false ∧
    (Instr.thermalSample (.replicate 56 0)).wellFormed = true := by decide
theorem test_wf_configRecordApply : (Instr.configRecordApply (.replicate 15 0) []).wellFormed = false ∧
    (Instr.configRecordApply (.replicate 16 0) (.replicate 33 [])).wellFormed = false ∧
    (Instr.configRecordApply (.replicate 16 0) (.replicate 32 [])).wellFormed = true := by decide
theorem test_wf_i2cTransferDone : (Instr.i2cTransferDone 0 false (.replicate 33 0)).wellFormed = false ∧
    (Instr.i2cTransferDone 0 false (.replicate 32 0)).wellFormed = true := by decide
theorem test_wf_xspiCommandDone : (Instr.xspiCommandDone 0 (.replicate 257 0)).wellFormed = false ∧
    (Instr.xspiCommandDone 0 (.replicate 256 0)).wellFormed = true := by
  simp only [wellFormed_xspiCommandDone, List.length_replicate]; decide

/-! The worked examples of the spec, and two published vectors of the algorithms that the spec names. -/

/-- 01_device.md, under R28: the tile store of P5.C11. -/
theorem test_tile_window : tileBase + 0x5B * tileSize = 0x208880000 := by decide
/-- 01_device.md R33: SYS_ID after reset. -/
theorem test_sys_id : State.reset.word (rSys 0) = 0x1A8D0A9B := by decide +kernel
/-- 02_phase_engine.md R42: the band of lines 1,024 to 1,087 of frame 0x2A3 ends when line 1,088 starts. -/
theorem test_line_axis :
    ((((State.reset.setWord64 (rAxis 0 0x10) (0x2A2 * 2 ^ 20)).lineFrameStart 0).lineLineStart 0 1088).axValue 0) = 0x2A300440 := by
  decide +kernel
/-- 03_sensor_front_end.md R81: raw 4,499 of 36,000 is 0x1FFE_2DF7 and raw 4,500 is 0x2000_0000. -/
theorem test_azimuth : 2 ^ 32 * 4499 / 36000 % 2 ^ 32 = 0x1FFE2DF7 ∧ 2 ^ 32 * 4500 / 36000 % 2 ^ 32 = 0x20000000 := by decide
/-- 06_cell_isa.md: the FP32 immediate 1.5 is IMM24 0x3F_C000. -/
theorem test_fp_immediate : immA true 32 0x3FC000 = 0x3FC00000 := by decide
/-- 09_jobs_and_models.md, under R292: K = 1,000, SPLIT_MAX = 4, TASKS = 8 and 32 free cells give S = 4; REPRO gives 1. -/
theorem test_split : splitOf false 1000 4 8 32 = 4 ∧ splitOf true 1000 4 8 32 = 1 := by decide
/-- 19_security.md, under R611: the byte 0x1_2340 of a segment lies in block 0x1234, whose counter is 0x1236. -/
theorem test_window_counter (key iv : Nat) : gcmStream key iv (0x12340 / 16) = aesBlock key (2 ^ 32 * iv + 0x1236) := rfl
/-- 19_security.md, under R616: an ECDSA P-256 verification with r = 0 and Q off the curve answers NOT_ON_CURVE. -/
theorem test_not_on_curve : ((wReg [(rSec 0x4080, 0x04)]).pkCurve p256 32 1 false false).2.1 = 4 := by decide +kernel
/-- 19_security.md R613: it takes 780,000 cycles. -/
theorem test_pk_cycles : State.reset.pkCycles 3 = 780000 := by decide +kernel
/-- FIPS 180-4: SHA-384 of "abc" begins with these bytes. -/
theorem test_sha384 : beNat ((sha384 (asciiBytes "abc")).take 8) = 0xCB00753F45A35E8B := by decide +kernel
/-- FIPS 197, C.3: AES-256. -/
theorem test_aes256 : aesBlock 0x000102030405060708090A0B0C0D0E0F101112131415161718191A1B1C1D1E1F 0x00112233445566778899AABBCCDDEEFF =
    0x8EA2B7CA516745BFEAFC49904B496089 := by decide +kernel
/-- The CRC-32C of "123456789". -/
theorem test_crc32c : crc32c (asciiBytes "123456789") = 0xE3069283 := by decide +kernel

theorem witness_StepRunsTheFrontCommand : State.reset.pending = [] := rfl

theorem witness_EveryStepKeepsTheCanonicalForm : State.reset.canonical = true ∧ step .reset = .next State.reset.idle :=
  ⟨by decide +kernel, rfl⟩

theorem witness_BlownFusesStayBlown :
    bitOf ({ State.reset with sec.fuses := 5 } : State).sec.fuses 2 = true ∧
      step { State.reset with sec.fuses := 5 } = .next ({ State.reset with sec.fuses := 5 } : State).idle :=
  ⟨by decide +kernel, rfl⟩

theorem witness_StepConsumesOneCommandAndTimeNeverRunsBack :
    State.reset.queueOk = true ∧ step .reset = .next State.reset.idle := ⟨by decide +kernel, rfl⟩

theorem witness_AxisEventsMoveTheirAxis :
    (let s : State := { wReg [(rAxis 2 0, 0x30D), (rAxis 2 8, 100)] with sfe.axisQ := [AxisEv.mk 3 3 100 none] }
     s.canonical = true ∧ s.axesOf 1 0 3 = [2] ∧ (100 % 2 ^ 32 + 2 ^ 32 - s.axValue 2 % 2 ^ 32) % 2 ^ 32 < 2 ^ 31 ∧
       (100 % 2 ^ 32 + 2 ^ 32 - s.axValue 2 % 2 ^ 32) % 2 ^ 32 ≤ s.axMax 2) ∧
    (let s : State := wReg [(rAxis 2 0, 0x30E), (rPhx 0x440, 1)]
     s.canonical = true ∧ s.axesOf 2 0 3 = [2] ∧ s.axValue 2 % 2 ^ 20 < 5) ∧
    (({ State.reset with phx.axes := modAt State.reset.phx.axes 2 fun x => { x with frameOpen := true } } : State).axis 2).frameOpen = true ∧
    (let s : State := wReg [(rPhx 0x45C, 1)]
     s.canonical = true ∧ s.bit (rPhx (0x440 + 7 * 4)) 0 = true ∧ s.bit (rPhx (0x440 + 7 * 4)) 16 = !true ∧ ∀ n < 16, s.axLive n = false) ∧
    (let s : State := wReg [(rAxis 15 0, 0xF), (rAxis 15 0xC, 20)]
     s.canonical = true ∧ s.sysWriter (mFwp 1) = true ∧ s.axType 15 ≠ 0 ∧ s.bit (rAxis 15 0) 3 = true ∧ s.axEn 15 = true ∧
       s.fld (rAxis 15 0xC) 15 0 ≠ 0 ∧ s.axStalled 15 = false ∧ s.bit (rAxis 15 0xC) 16 = false) ∧
    (let s : State := wReg [(rPtpClk 3 0, 1)]
     s.ptpOn 3 = true ∧ (s.pclk 3).incPend = none ∧ (s.pclk 3).slewOn = false) := by decide +kernel

theorem witness_TackWritesAndArming :
    (State.reset.canonical = true ∧ State.reset.sysWriter (mFwp 1) = true ∧ State.reset.bit (rTack 4095 0x10) 6 = false ∧
      State.reset.bit (rTack 4095 0x10) 0 = false) ∧
    ((wReg [(rTack 7 0x10, 1)]).bit (rTack 7 0x10) 0 = true ∧ 5 ≠ (wReg [(rTack 7 0x10, 1)]).tkTarget 7) ∧
    (let s : State := wReg [(rPhx 0, 1), (rAxis 0 0, 4)]
     s.canonical = true ∧ s.bit (rTack 0 0x10) 0 = false ∧ s.bit (rTack 0 0x10) 6 = false ∧ s.axType (bitsOf 1 11 8) ≠ 3 ∧
       (s.setWord (rTack 0 0x10) (1 &&& 0x7FFF7C)).armBad 0 ((1 ||| 1) &&& 0x7FFF7D) = false) ∧
    (State.reset.axType (bitsOf 1 11 8) ≠ 3 ∧ State.reset.axEn (bitsOf 1 11 8) = false) ∧
    (let s : State := wReg [(rAxis 0 0, 7), (rTack 3 0x10, 1)]
     s.canonical = true ∧ s.bit (rTack 3 0x10) 0 = true ∧ s.bit (rTack 3 0x10) 6 = false ∧
       s.word (rTack 3 0x10) &&& 0x7FFF7F = s.word (rTack 3 0x10) ∧ s.axType (s.tkAxis 3) = 3) := by decide +kernel

theorem witness_TacksFireAndActionsAreDispatched :
    (let s : State := { wReg [(rPhx 0, 1), (rAxis 2 0, 5), (rAxis 2 0x10, 9), (rTack 6 0, 9), (rTack 6 0x10, 0x201)] with
       phx.tk := [(6, TackS.mk false false false 0 false)] }
     s.canonical = true ∧ s.bit (rPhx 0) 0 = true ∧
       s.axEn (s.tkAxis 6) = true ∧ s.axType (s.tkAxis 6) = 1 ∧ s.axStalled (s.tkAxis 6) = false ∧ s.phx.pausedAt = none ∧
       reached (s.axValue (s.tkAxis 6)) (s.tkTarget 6) = true ∧ s.tkStep 6 = 0 ∧ s.fld (rTack 6 0x10) 15 12 = 0 ∧
       s.fld (rTack 6 0x10) 4 2 = 0) ∧
    State.reset.actHeld (PhxAct.mk 1 5 511 0 0 false 0 0) = false ∧
    (({ State.reset with phx.pausedAt := some 0 } : State).phx.pausedAt = some 0 ∧ State.reset.phx.queue.length < 256) ∧
    ((wReg [(rPhx 0x43C, 1)]).canonical = true ∧ (wReg [(rPhx 0x43C, 1)]).bit (rPhx (0x400 + 15 * 4)) 0 = true) ∧
    sysReader (mFwp 1) = true := by decide +kernel

theorem witness_SensorPacketsReachTheirStream :
    (let s : State := wReg [(rSfePort 2 0, 1), (rSfePort 2 4, 1), (rStream 5 0, 0x40000000), (rStream 5 8, 0x2A32)]
     s.portReceives 2 = true ∧ s.camStream 2 3 = some 5 ∧ s.stMember 5 = false ∧ (s.stream 5).frameOpen = false ∧
       (0x2A : BitVec 6).toNat = s.fld (rStream 5 8) 13 8 ∧ s.camStream 2 4 = none ∧ s.canonical = true ∧
       (({ s with sfe.streams := [(5, { SfeStream.reset with frameOpen := true })] } : State).stream 5).frameOpen = true) ∧
    (let s : State := wReg [(rStream 63 0, 0x80000000), (rStream 63 8, 9), (rStream 63 0xC, 36000)]
     ((List.range 64).find? fun k => s.stKind k = 2 && s.fld (rStream k 8) 5 0 = 9) = some 63 ∧
       azimuth (s.word (rStream 63 8)) [0xE8, 3] = some 1000 ∧ 1000 < s.word (rStream 63 0xC)) := by decide +kernel

/-- Stream 3 running at pc 0 with the word w there. -/
def wLse (w : Nat) : State :=
  { wReg [(rActive 3 16, w), (rSlot 3 0 8, 64)] with
    sfe.streams := [(3, { SfeStream.reset with ctx := { SfeStream.reset.ctx with running := true, pc := 0, x := [7, 9] } })] }

theorem witness_LineShiftEngineRunsItsProgram :
    (wLse 0).lseWord 3 0 = some 0 ∧ (wLse 0x08000000).lseWord 3 1 = some 0x08000000 ∧ (wLse 0x10000000).lseWord 3 2 = some 0x10000000 ∧
    (wLse 0x18FFFFFF).lseWord 3 3 = some 0x18FFFFFF ∧ (wLse 0x20800000).lseWord 3 4 = some 0x20800000 ∧
    (wLse 0x28000000).lseWord 3 5 = some 0x28000000 ∧ (wLse 0x39000000).lseWord 3 7 = some 0x39000000 ∧
    (let s := wLse 0x30200000
     s.lseWord 3 6 = some 0x30200000 ∧ bitsOf 0x30200000 26 22 = 0 ∧ (s.stream 3).ctx.x = 7 :: [9] ∧ (s.stream 3).stalled = none ∧
       s.noCredit 3 = false ∧
       (s.stream 3).ctx.a.getD (bitsOf 0x30200000 19 18) 0 % 2 ^ 32 + 2 ^ bitsOf 0x30200000 21 20 ≤ s.word64 (rSlot 3 (s.curSlot 3) 8)) := by
  decide +kernel

theorem witness_BandsSlotsAndStreamControl :
    (let b := SfeBand.mk 0 0 64 64 [([1], false)] 1 0 0 0 0 0 0 false false 0
     let s : State := { wReg [(rStream 3 0x38, 1)] with sfe.streams := [(3, { SfeStream.reset with bands := [b] })] }
     s.canonical = true ∧ (s.stream 3).bands = b :: [] ∧ s.slotOf 3 (b.seq % s.stSlots 3) = 1 ∧ s.bit (rStream 3 0x18) 1 = false ∧
       (s.stream 3).embWait = [] ∧ (s.stream 3).ctx.running = false ∧ (s.stream 3).stalled = none) ∧
    (let s : State := wReg [(rStream 63 0, 0x200), (rStream 63 0x38, 0x80)]
     s.canonical = true ∧ s.consumer (mFwp 1) none 63 = true ∧ s.slotOf 63 3 = 2 ∧ s.bit (rStream 63 0x18) 1 = false ∧
       lseValid (s.lseProg (rShadow 63 0)) = true ∧ s.sysWriter (mFwp 1) = true ∧ (s.stream 63).bands = [] ∧
       s.sfe.cycles = [0, 0, 0, 0]) ∧
    (({ State.reset with sfe.streams := [(3, { SfeStream.reset with stalled := some 5 })] } : State).stream 3).stalled = some 5 := by
  decide +kernel

theorem witness_RegisterAccessesAreNaturallyAligned :
    ((24 : Nat) < 25 ∧ 0xFFFFF < 0x100000 ∧ ((3 : Fin 4).val < 2 ∨ 0xFFFFF % 2 ^ (3 : Fin 4).val ≠ 0) ∧ (1 : Fin 4).val < 2) ∧
    0xFFFFE % 4 ≠ 0 ∧ ((0 : Nat) < 3 ∧ 3 < 4 ∧ 0xFFD % 4096 + 3 ≤ 4096 ∧ State.reset.incarnOf mTap = none) := by decide +kernel

theorem witness_UnassignedOffsetsReadZeroAndIgnoreWrites :
    findReg (blockRegs 0) 0xFFFFC = none ∧ State.reset.mayRead mTap none 0 0xFFFFC = true ∧
      State.reset.mayWrite mTap none 0 0xFFFFC = true ∧ findReg (blockRegs 24) 0xFFFFC = none ∧
      State.reset.mayWrite (mFwp 1) none 24 0xFFFFC = true := by decide +kernel

theorem witness_RegisterFieldsFollowTheirAccessTypes :
    (findReg (blockRegs bFWP) 0x8 = some (reg1 0x8 32 [rw 5 0], 0, 0, 0) ∧ State.reset.canonical = true ∧
      State.reset.mayWrite (mFwp 1) none bFWP 0x8 = true ∧ (State.reset.wrHook (mFwp 1) none bFWP 0x8 (9 % 2 ^ 32)).isNone = true) ∧
    State.reset.mayWrite mTap none bCEL 0 = false ∧
    (findReg (blockRegs bFWP) 0x2010 = some (regN 0x2010 0x40 64 64 [rw 63 0], 0, 0, 0) ∧
      State.reset.mayWrite (mFwp 1) none bFWP 0x2010 = true) ∧
    (let s : State := { State.reset with holds := [(holdKey (mFwp 1) (blkBase bFWP + 0x2010), 7)] }
     s.canonical = true ∧ findReg (blockRegs bFWP) 0x2014 = some (regN 0x2010 0x40 64 64 [rw 63 0], 0, 0, 4) ∧
       s.mayWrite (mFwp 1) none bFWP 0x2014 = true ∧ fmGet s.holds (holdKey (mFwp 1) (blkBase bFWP + 0x2010)) = some 7 ∧
       (({ s with holds := fmDelRange s.holds (holdKey (mFwp 1) (blkBase bFWP + 0x2010)) (holdKey (mFwp 1) (blkBase bFWP + 0x2010 + 4)) } :
         State).wrHook (mFwp 1) none bFWP 0x2010 (7 + 2 ^ 32 * (9 % 2 ^ 32))).isNone = true) ∧
    (State.reset.mayRead (mFwp 1) none bFWP 0x2010 = true ∧ (State.reset.rdHook (mFwp 1) none bFWP 0x2010).isNone = true) ∧
    fmGet ({ State.reset with caps := [(holdKey (mFwp 1) (blkBase bFWP + 0x2014), 3)] } : State).caps
      (holdKey (mFwp 1) (blkBase bFWP + 0x2014)) = some 3 := by decide +kernel

theorem witness_TransfersReachMemoryAndHeldAccesses :
    (State.reset.incarnOf mTap = none ∧ hbmBase + 4095 < 2 ^ 52 ∧ (hbmBase + 4095) % 4096 + 1 ≤ 4096 ∧
      State.reset.addrKind (hbmBase + 4095) = .hbm ∧ State.reset.winMeets (hbmBase + 4095) 1 = false ∧
      State.reset.poisoned (hbmBase + 4095) 1 = false) ∧
    (State.reset.canonical = true ∧ ([1, 2] : List Byte) ≠ [] ∧ State.reset.poison = []) ∧
    (State.reset.incarnOf (BitVec.ofNat 16 3) = some 0 ∧ (0 : Nat) ≠ (5 : BitVec 8).toNat) ∧
    State.reset.addrKind 0x50000 = .unmapped ∧
    (let s : State := { wReg [(rCel 0x104, 0)] with cel.held := [17] }
     s.addrKind (tileBase + 17 * tileSize) = .tile 17 ∧ s.cel.held.contains 17 = true ∧ s.panelGated (17 / 16) = false ∧
       s.incarnOf mTap = none) ∧
    ((State.reset.heldAcc.all fun h => State.reset.cel.held.contains h.cell) = true ∧ State.reset.cel.held.contains 3 = false) := by
  decide +kernel

theorem witness_CellsLoadSaveAndRestore :
    let st (v : Nat) : State := wReg [(rCell 255 0, v)]
    ((st 2).canonical = true ∧ (st 2).celWriter mClicker = true ∧ kernelStates ((st 2).cellState 255) = true ∧ (st 2).cellState 255 = csIDLE) ∧
    (State.reset.celWriter mClicker = true ∧ kernelStates (State.reset.cellState 0) = false ∧ State.reset.celWriter mTap = false) ∧
    ((st 3).canonical = true ∧ (st 3).cellState 255 = csLOADING) ∧
    ((st 6).cellState 255 = csDRAINING ∧ (st 6).drained 255 = true ∧ ((st 6).cell 255).async = []) ∧
    ((st 4).cellState 255 = csLOADED ∧ (st 5).cellState 255 = csRUNNING ∧ (st 8).cellState 255 = csSAVING ∧
      (st 9).cellState 255 = csRESTORING ∧ (st 7).cellState 255 = csHALTED ∧ (st 2).cellState 255 ≠ csHALTED) ∧
    ({ st 6 with cel.cells := [(255, { CellS.reset with drain := 1 })] } : State).drained 255 = true := by decide +kernel

theorem witness_CellExceptionsStopTheTask :
    let q : CGroup := { CGroup.reset with run := 1 }
    let x : CellS := { CellS.reset with groups := [(127, q)] }
    let s (w : Nat) : State := { wReg [(rCell 9 0, w), (rCell 9 0x1C, 2 ^ 31)] with cel.cells := [(9, x)] }
    (State.reset.canIssue 9 127 = false) ∧
    ((s 5).canonical = true ∧ (s 5).canIssue 9 127 = true ∧ ((s 5).group 9 127).pc = 0 ∧
      ((s 5).cell 9).fetch 0 = .error (.at_ excFETCH 0) ∧ (s 5).bit (rCell 9 0x1C) 31 = true) ∧
    (({ s 5 with cel.cells := [(9, { x with async := [CellExc.mk 6 1 8 0 0], drain := 0 })] } : State).cell 9).async =
      [CellExc.mk 6 1 8 0 0] ∧
    (let y : State := { s 6 with cel.cells := [(9, { CellS.reset with drain := 4 })] }
     y.canonical = true ∧ y.cellState 9 = csDRAINING ∧ (y.cell 9).drain = 4 ∧ y.drained 9 = true ∧ (y.cell 9).async = []) ∧
    (let y : State := { (s 5).setWord (rCkg 0x100) 1000 with cel.cells := [(9, { x with desc := List.replicate 64 1 })] }
     y.cellState 9 = csRUNNING ∧ (y.cell 9).wdog ≠ 0 ∧ y.panelMHz 9 ≠ 0 ∧ (y.cell 9).groups = [(127, q)] ∧ q.run = 1) ∧
    (State.reset.cellState 9 ≠ csRUNNING ∧ State.reset.cellState 9 ≠ csDRAINING) := by decide +kernel

theorem witness_FailedCellsAreSubstitutedAndMaintained :
    let q : CGroup := { CGroup.reset with run := 1 }
    let sub (k w : Nat) : CellSub := ⟨33, k, 0, 1, 0x1F, 0, 0, w, 0⟩
    (let s : State := { wReg [(rCell 9 0, 5), (rCel 8, 2 ^ 24)] with cel.cells := [(9, { CellS.reset with groups := [(0, q)] })] }
     s.cellState 9 = csRUNNING ∧ s.fld (rCel 8) 31 24 ≠ 0 ∧ (s.cell 9).groups = [(0, q)] ∧ q.run = 1 ∧ q.stuck = true) ∧
    ((wReg [(rCell 9 0, 1)]).cellState 9 = csOFF ∧ (wReg [(rCell 9 0, 2)]).cellState 9 = csIDLE ∧ State.reset.waitingSub 9 1 = none) ∧
    (let s : State := { wReg [(rCell 33 0, 10), (rPanelSt 2, 0x1F)] with cel.waiting := [sub 1 2] }
     s.waitingSub 33 1 = some (sub 1 2) ∧ s.cellState 33 = csSUBST ∧ s.fld (rPanelSt (33 / 16)) 4 0 ≥ 17) ∧
    (let s : State := { wReg [(rCell 33 0, 10), (rPanelSt 2, 16)] with cel.waiting := [sub 1 2] }
     s.canonical = true ∧ s.waitingSub 33 1 = some (sub 1 2) ∧ s.cellState 33 = csSUBST ∧ (sub 1 2).cell = 33 ∧
       s.fld (rPanelSt (33 / 16)) 4 0 < 17 ∧ (sub 1 2).flags = 0 ∧ s.cel.subs = []) ∧
    (let s : State := { wReg [(rCell 33 0, 5), (rPanelSt 2, 16)] with cel.waiting := [sub 2 5] }
     s.waitingSub 33 2 = some (sub 2 5) ∧ s.cellState 33 = csRUNNING) ∧
    (let s : State := { wReg [(rCell 33 0, 7), (rPanelSt 2, 16)] with cel.waiting := [sub 2 7] }
     s.canonical = true ∧ s.waitingSub 33 2 = some (sub 2 7) ∧ s.cellState 33 = csHALTED ∧ s.fld (rPanelSt (33 / 16)) 4 0 < 17) ∧
    (let x : CellSub := { sub 1 2 with newPhys := 16 }
     let s : State := { wReg [(rCell 33 0, 10)] with cel.subs := [(2, x)] }
     s.canonical = true ∧ s.cel.subs = [(33 / 16, x)] ∧ x.oldPhys < 17 ∧ x.newPhys < 17 ∧ x.oldPhys ≠ x.newPhys ∧ x.was = csIDLE ∧
       (s.cell 33).heldCtrl = 0 ∧ x.kind = 1 ∧ s.cellState 33 = csSUBST) ∧
    (State.reset.sysWriter (mFwp 1) = true ∧ State.reset.sysWriter mTap = false ∧ State.reset.canonical = true) ∧
    (let s : State := wReg [(rPhys 15 16, 2)]
     s.canonical = true ∧ s.bit (rCel 0x20) 0 = false ∧ s.physState 15 16 = 2) ∧
    (let s : State := wReg ((rCel 0x20, 1) :: (List.range 16).map fun j => (rCell j 0, 2))
     s.canonical = true ∧ s.bit (rCel 0x20) 0 = true ∧ s.fld (rCel 0x20) 12 8 < 17 ∧
       ((List.range 16).all fun j => decide (s.cellState (s.fld (rCel 0x20) 7 4 * 16 + j) ≠ csABSENT)) = true) := by decide +kernel

theorem witness_ScalarInstructionsComputeTheirResults :
    (let w := 2 ^ 58 * 1 + 2 ^ 48 * 31 + 2 ^ 42 * 3 + 2 ^ 36 * 4 + 2 ^ 30 * 0x15
     (wCell w).atWord 9 127 w ∧ wOp w = 1 ∧ wFn w ≤ 0x15 ∧ wPred w = 0 ∧ wType w ≤ 1 ∧ wRnd w = 0 ∧
       layoutA w (intUsesC (wFn w)) = .ok () ∧ wDst w < 32 ∧ wA w < 32 ∧ wB w < 32) ∧
    (let w := 2 ^ 58 * 1 + 2 ^ 48 * 31 + 2 ^ 30 * 4 + 2 ^ 29 + 7
     layoutA w (intUsesC (wFn w)) = .ok () ∧ wI w = true ∧ intUsesC (wFn w) = true) ∧
    (let w := 2 ^ 58 * 2 + 2 ^ 48 * 31 + 2 ^ 47
     (wCell w).atWord 9 127 w ∧ wOp w = 2 ∧ wPred w = 0 ∧ wDst w < 32) ∧
    (let w := 2 ^ 58 * 3 + 2 ^ 48 * 31 + 0xFFFF
     (wCell w).atWord 9 127 w ∧ wOp w = 3 ∧ wPred w = 0 ∧ bitsOf w 47 16 = 0 ∧ wDst w < 32) ∧
    (let w := 2 ^ 58 * 8 + 2 ^ 48 * 31 + 2 ^ 30 * 3
     (wCell w).atWord 9 127 w ∧ wOp w = 8 ∧ wPred w = 0 ∧ wFn w ≤ 3 ∧ w % 2 ^ 30 = 0 ∧ wDst w < 32) ∧
    (let w := 2 ^ 58 * 4 + 2 ^ 48 * 31 + 2 ^ 34 * 3 + 0x17FFF8
     (wCell w).atWord 9 127 w ∧ wOp w = 4 ∧ wFab w = false ∧ scalarMem false ((wCell w).group 9 127) w = .ok 0x17FFF8) ∧
    (let w := 2 ^ 58 * 5 + 2 ^ 36 * 31 + 2 ^ 34 * 3 + 0x17FFF8
     (wCell w).canonical = true ∧ (wCell w).poison = [] ∧ (wCell w).atWord 9 127 w ∧ wOp w = 5 ∧ wFab w = false ∧
       scalarMem true ((wCell w).group 9 127) w = .ok 0x17FFF8 ∧ ((wCell w).group 9 127).sbad (wB w) = false) ∧
    (let w := 2 ^ 58 * 6 + 2 ^ 32 * 15 + 0xFFFFFFFF
     (wCell w).atWord 9 127 w ∧ wOp w = 6 ∧ wPred w = 0 ∧ wDst w = 0 ∧ bitsOf w 35 32 = 15 ∧
       brCond (bitsOf w 35 32) (((wCell w).group 9 127).sreg (wA w)) (((wCell w).group 9 127).sreg (wB w)) = true ∧
       addOfs 64 ((wCell w).group 9 127).pc (wOff32 w * 8) % 8 = 0) ∧
    (let w := 2 ^ 58 * 6 + 2 ^ 32 * 15 + 1
     let s := wCell w { CGroup.reset with pc := 4 }
     brCond (bitsOf w 35 32) 0 0 = true ∧ addOfs 64 (s.group 9 127).pc (wOff32 w * 8) % 8 ≠ 0 ∧ s.atWord 9 127 w) ∧
    (let w := 2 ^ 58 * 7 + 2 ^ 48 * 31 + 2
     (wCell w).atWord 9 127 w ∧ wOp w = 7 ∧ bitsOf w 35 32 = 0 ∧ wPred w = 0 ∧ wDst w < 32 ∧
       addOfs 64 ((wCell w).group 9 127).pc (wOff32 w * 8) % 8 = 0) ∧
    (let w := 2 ^ 58 * 7 + 2 ^ 48 * 31 + 2 ^ 42 * 3 + 2 ^ 32
     (wCell w).atWord 9 127 w ∧ wOp w = 7 ∧ bitsOf w 35 32 = 1 ∧ wPred w = 0 ∧ wDst w < 32 ∧ wA w < 32 ∧
       ((wCell w).group 9 127).sbad (wA w) = false ∧ addOfs 64 (((wCell w).group 9 127).sreg (wA w)) (wOff32 w * 8) % 8 = 0) ∧
    (let w := 2 ^ 58 * 1 + 2 ^ 30 * 0x16
     (wCell w).atWord 9 127 w ∧ wOp w = 1 ∧ (salu ((wCell w).ctx 9 127) ((wCell w).group 9 127) w).isOk = false) ∧
    State.reset.canIssue 9 127 = false := by
  refine ⟨?_, ?_, ?_, ?_, ?_, ?_, ?_, ?_, ?_, ?_, ?_, ?_, ?_⟩ <;> decide +kernel

theorem witness_ThreadInstructionsComputeInActiveLanes :
    (let w := 2 ^ 58 * 0x10 + 2 ^ 48 * 31 + 2 ^ 42 * 3 + 2 ^ 36 * 63 + 2 ^ 30 * 0x15 + 2 ^ 24
     (wCell w).atWord 9 127 w ∧ wOp w = 0x10 ∧ wFn w ≤ 0x15 ∧ ((wCell w).group 9 127).predOk w = .ok () ∧ wType w ≤ 1 ∧
       wRnd w = 0 ∧ layoutA w (intUsesC (wFn w)) = .ok () ∧ wDst w < 32 ∧
       ((wCell w).ctx 9 127).regsA w (intUsesB (wFn w)) (intUsesC (wFn w)) = .ok () ∧ wDst w < ((wCell w).cell 9).nregs ∧
       (((wCell w).group 9 127).treg (wDst w)).length = 64) ∧
    (let w := 2 ^ 58 * 0x10 + 2 ^ 48 * 31 + 2 ^ 42 * 3 + 2 ^ 36 * 4 + 2 ^ 30 * 0x16 + 2 ^ 18 * 7
     (wCell w).atWord 9 127 w ∧ wFn w = 0x16 ∧ wI w = false ∧ w % 2 ^ 18 = 0 ∧ wC w < 8 ∧
       ((wCell w).ctx 9 127).regsA w true false = .ok ()) ∧
    (let w := 2 ^ 58 * 0x11 + 2 ^ 57 + 2 ^ 54 + 2 ^ 48 * 31 + 0xFFFFFFFF
     (wCell w).atWord 9 127 w ∧ wOp w = 0x11 ∧ ((wCell w).group 9 127).predOk w = .ok () ∧ bitsOf w 35 32 = 0 ∧ wA w = 0 ∧
       wB w = 0 ∧ wDst w < 32 ∧ wDst w < ((wCell w).cell 9).nregs) ∧
    (let w := 2 ^ 58 * 0x12 + 2 ^ 48 * 31 + 2 ^ 42 * 3 + 2 ^ 36 * 4 + 2 ^ 30 * 3 + 2 ^ 24 * 2 + 2 ^ 18 * 5
     (wCell w).canonical = true ∧ (wCell w).atWord 9 127 w ∧ wOp w = 0x12 ∧ wType w = 2 ∧
       (if fpRounds (wFn w) then wRnd w ≠ 3 else wRnd w = 0) ∧ layoutA w (fpUsesC (wFn w)) = .ok () ∧
       ((wCell w).ctx 9 127).regsA w (fpUsesB (wFn w)) (fpUsesC (wFn w)) = .ok ()) ∧
    (let w := 2 ^ 58 * 0x13 + 2 ^ 48 * 31 + 2 ^ 42 * 3 + 2 ^ 28 * 3 + 2 ^ 20
     (wCell w).atWord 9 127 w ∧ wOp w = 0x13 ∧ (tcvt ((wCell w).ctx 9 127) ((wCell w).group 9 127) w).isOk = true ∧
       bitsOf w 27 26 ≠ 3 ∧ bitOf w 25 = false ∧ bitOf w 24 = false) ∧
    (let w := 2 ^ 58 * 0x14 + 2 ^ 48 * 7 + 2 ^ 42 * 3 + 2 ^ 36 * 4 + 2 ^ 30 * 5 + 2 ^ 27 * 2
     (wCell w).atWord 9 127 w ∧ (tcmp ((wCell w).ctx 9 127) ((wCell w).group 9 127) w).isOk = true ∧ wDst w ≠ 0) ∧
    (let w := 2 ^ 58 * 0x15 + 2 ^ 48 * 7 + 2 ^ 42 * 63 + 2 ^ 30 * 6
     (wCell w).atWord 9 127 w ∧ wFn w ≤ 6 ∧ (plog ((wCell w).ctx 9 127) ((wCell w).group 9 127) w).isOk = true) ∧
    (let w := 2 ^ 58 * 0x15 + 2 ^ 48 * 63 + 2 ^ 42 * 7 + 2 ^ 30 * 0x13
     (wCell w).atWord 9 127 w ∧ 0x10 ≤ wFn w ∧ wFn w ≤ 0x13 ∧ w % 2 ^ 30 = 0 ∧ 32 < wDst w ∧ wDst w < 64 ∧ wA w < 8) ∧
    (let w := 2 ^ 58 * 0x18 + 2 ^ 48 * 31 + 2 ^ 42 * 7 + 2 ^ 30 * 4 + 63
     (wCell w).atWord 9 127 w ∧ wOp w = 0x18 ∧ wFn w ≤ 4 ∧ (tlane ((wCell w).ctx 9 127) ((wCell w).group 9 127) w).isOk = true) ∧
    (let w := 2 ^ 58 * 0x18 + 2 ^ 48 * 63 + 2 ^ 42 * 7 + 2 ^ 30 * 0x10
     (wCell w).atWord 9 127 w ∧ wFn w = 0x10 ∧ wType w = 0 ∧ (tlane ((wCell w).ctx 9 127) ((wCell w).group 9 127) w).isOk = true) ∧
    (let w := 2 ^ 58 * 0x10 + 2 ^ 30 * 0x17
     (wCell w).atWord 9 127 w ∧ wOp w = 0x10 ∧ (talu ((wCell w).ctx 9 127) ((wCell w).group 9 127) w).isOk = false) := by
  refine ⟨?_, ?_, ?_, ?_, ?_, ?_, ?_, ?_, ?_, ?_, ?_⟩ <;> decide +kernel

theorem witness_ThreadLoadsStoresAndAtomics :
    (let w := 2 ^ 58 * 0x16 + 2 ^ 48 * 31 + 2 ^ 42 * 3 + 2 ^ 34 * 2 + 0x17FFFC
     (wCell w).atWord 9 127 w ∧ wOp w = 0x16 ∧ wFab w = false ∧ wSize w < 3 ∧
       threadMem ((wCell w).ctx 9 127) false ((wCell w).group 9 127) w = .ok () ∧
       (((wCell w).group 9 127).treg (wDst w)).length = 64 ∧
       ((List.range 64).all fun l => decide (tsAccess (((wCell w).group 9 127).laneAddr false w l) (accBytes w) = .ok ())) = true) ∧
    (let w := 2 ^ 58 * 0x16 + 2 ^ 54 * 1 + 2 ^ 48 * 31 + 2 ^ 42 * 3 + 2 ^ 34 * 2 + 1
     let s := wCell w { CGroup.reset with p := [(1, 2 ^ 63)] }
     s.atWord 9 127 w ∧ (s.group 9 127).active w = 2 ^ 63 ∧ threadMem (s.ctx 9 127) false (s.group 9 127) w = .ok () ∧
       (s.group 9 127).laneAddr false w 63 = 1 ∧ tsAccess 1 (accBytes w) = .error excALIGN) ∧
    (let w := 2 ^ 58 * 0x17 + 2 ^ 48 * 31 + 2 ^ 42 * 3 + 2 ^ 34 * 2 + 0x17FFFC
     (wCell w).canonical = true ∧ (wCell w).poison = [] ∧ (wCell w).atWord 9 127 w ∧ wOp w = 0x17 ∧ wFab w = false ∧ wSize w < 3 ∧
       threadMem ((wCell w).ctx 9 127) true ((wCell w).group 9 127) w = .ok () ∧ ((wCell w).group 9 127).tbad (wDst w) = 0) ∧
    (let w := 2 ^ 58 * 0x1A + 2 ^ 54 * 1 + 2 ^ 48 * 30 + 2 ^ 42 * 3 + 2 ^ 30 * 8 + 0x17FFFC
     let s := wCell w { CGroup.reset with p := [(1, 2 ^ 63)] }
     s.canonical = true ∧ s.atWord 9 127 w ∧ bitOf w 29 = false ∧ wFn w ≠ 9 ∧
       atomChecks (s.ctx 9 127) (s.group 9 127) w = .ok () ∧ (s.group 9 127).active w = 2 ^ 63 ∧
       (s.group 9 127).laneAddr false w 63 = 0x17FFFC ∧ tsAccess 0x17FFFC 4 = .ok () ∧ (s.group 9 127).tbad (wDst w + 1) = 0) ∧
    (let w := 2 ^ 58 * 0x1A + 2 ^ 54 * 1 + 2 ^ 48 * 28 + 2 ^ 42 * 3 + 2 ^ 30 * 9
     let s := wCell w { CGroup.reset with p := [(1, 2 ^ 63)] }
     s.atWord 9 127 w ∧ wFn w = 9 ∧ atomChecks (s.ctx 9 127) (s.group 9 127) w = .ok () ∧ (s.group 9 127).active w = 2 ^ 63) ∧
    (let w := 2 ^ 58 * 0x19 + 2 ^ 54 * 1 + 2 ^ 48 * 28 + 2 ^ 42 * 4 + 2 ^ 36 * 63
     (wCell w).atWord 9 127 w ∧ tsampChecks ((wCell w).ctx 9 127) ((wCell w).group 9 127) w = .ok () ∧
       ((wCell w).group 9 127).active w = 0) ∧
    (let w := 2 ^ 58 * 0x19 + 2 ^ 54 * 1 + 2 ^ 48 * 28 + 2 ^ 42 * 4 + 2 ^ 36 * 63 + 2 ^ 30 * 2
     let d : List Byte := zeroBytes 8 ++ [1, 0, 1, 0, 1, 0, 1, 0] ++ zeroBytes 8 ++ [1, 0, 0, 0] ++ zeroBytes 4
     let p : List Byte := [0, 1, 15, 0] ++ zeroBytes 12
     let r := wCell w { CGroup.reset with p := [(1, 2 ^ 63)], t := [(4, List.replicate 64 0x40000000), (5, List.replicate 64 0x40000000)] }
     let s : State := { r with cel.cells := r.cel.cells.map fun x => (x.1, { x.2 with texs := [(0, d), (0x2000, p)] }) }
     let q : CGroup := { s.group 9 127 with wait := .none }
     s.atWord 9 127 w ∧ tsampChecks (s.ctx 9 127) q w = .ok () ∧ q.active w ≠ 0 ∧
       s.texDesc 9 (addOfs 64 (q.sreg (wB w)) (bitsOf w 23 16 * 32)) 32 = (s, .ok (d, false)) ∧ txOk d = true ∧
       s.texDesc 9 (addOfs 64 (q.sreg (wB w)) (0x2000 + bitsOf w 15 12 * 16)) 16 = (s, .ok (p, false)) ∧ smOk p = true ∧
       (s.texLanes 9 q w (q.active w) d p).err = none) := by
  refine ⟨?_, ?_, ?_, ?_, ?_, ?_, ?_⟩ <;> decide +kernel

theorem witness_BarriersCountersAndPhaseInstructions :
    (let w (f : Nat) := 2 ^ 58 * 0x38 + 2 ^ 30 * f + 2 ^ 20 * 15
     (wCell (w 0)).atWord 9 127 (w 0) ∧ (wCell (w 1)).atWord 9 127 (w 1) ∧ (wCell (w 2)).atWord 9 127 (w 2) ∧
       barOk (w 0) = .ok () ∧ barOk (w 1) = .ok () ∧ barOk (w 2) = .ok () ∧ wFn (w 2) = 2 ∧ wOp (w 2) = 0x38 ∧
       bitOf ((wCell (w 1)).group 9 127).arrived 15 = false ∧
       bitOf ((wCell (w 1) { CGroup.reset with arrived := 2 ^ 15 }).group 9 127).arrived 15 = true) ∧
    ((wCell 0 { CGroup.reset with arrived := 2 ^ 15 }).cell 9).phaseDone (15 : Fin 16) = true ∧
    ((wCell 0).cell 9).phaseDone (15 : Fin 16) = false ∧
    (let w := 2 ^ 58 * 0x39 + 2 ^ 20 * 4 + 255
     (wCell w).atWord 9 127 w ∧ wOp w = 0x39 ∧ wPred w = 0 ∧ wFn w = 0 ∧ bitsOf w 23 20 ≤ 4 ∧ bitsOf w 29 24 = 0 ∧ bitsOf w 19 8 = 0) ∧
    (let w := 2 ^ 58 * 0x39 + 2 ^ 30 + 2 ^ 20 * 7
     (wCell w).atWord 9 127 w ∧ wFn w = 1 ∧ bitsOf w 22 20 ≠ 0 ∧ bitsOf w 29 23 = 0 ∧ w % 2 ^ 20 = 0) ∧
    (let w := 2 ^ 58 * 0x3A + 2 ^ 20 * 15
     let s := (wCell w).setWord (rAxis 15 0) 4
     s.atWord 9 127 w ∧ wOp w = 0x3A ∧ wFn w = 0 ∧ wPred w = 0 ∧ wA w < 32 ∧ s.axEn 15 = true ∧ (s.group 9 127).sbad (wA w) = false) ∧
    (let s := (wCell 0 { CGroup.reset with wait := .pwait 15 0 }).setWord (rAxis 15 0) 4
     (s.group 9 127).wait = .pwait 15 0 ∧ s.cellState 9 = csRUNNING ∧ (s.group 9 127).run = 1 ∧ s.axStalled 15 = false ∧
       reached (s.axValue 15) 0 = true) ∧
    (let s := wCell 0 { CGroup.reset with wait := .pwait 15 5 }
     (s.group 9 127).wait = .pwait 15 5 ∧ reached (s.axValue 15) 5 = false) ∧
    (let w := 2 ^ 58 * 0x3A + 2 ^ 48 * 31 + 2 ^ 30 + 2 ^ 20 * 15
     (wCell w).atWord 9 127 w ∧ wFn w = 1 ∧ wPred w = 0 ∧ wDst w < 32) ∧
    (let w := 2 ^ 58 * 0x3B
     (wCell w).atWord 9 127 w ∧ wOp w = 0x3B ∧ wPred w = 0 ∧ w % 2 ^ 36 = 0 ∧ wDst w = 0 ∧ wA w < 32 ∧ wB w < 32 ∧
       ((wCell w).group 9 127).sbad (wA w) = false) := by
  refine ⟨?_, ?_, ?_, ?_, ?_, ?_, ?_, ?_, ?_, ?_⟩ <;> decide +kernel

theorem witness_SystemInstructionsOfCells :
    (let w := 2 ^ 58 * 0x3F
     (wCell w).atWord 9 127 w ∧ isSys 0 w = true ∧ sysOk w false false 0 = .ok ()) ∧
    (let w := 2 ^ 58 * 0x3F + 2 ^ 30
     (wCell w).canonical = true ∧ (wCell w).atWord 9 127 w ∧ isSys 1 w = true ∧ sysOk w false false 0 = .ok () ∧
       ((wCell w).cell 9).groups = [(127, (wCell w).group 9 127)]) ∧
    (let w := 2 ^ 58 * 0x3F + 2 ^ 30
     let q : CGroup := { CGroup.reset with run := 1 }
     let s : State := { wCell w with cel.cells := (wCell w).cel.cells.map fun x => (x.1, { x.2 with groups := [(0, q), (127, q)] }) }
     s.canonical = true ∧ s.atWord 9 0 w ∧ isSys 1 w = true ∧ (s.cell 9).groups = [(0, s.group 9 0), (127, q)] ∧ q.run = 1) ∧
    (let w := 2 ^ 58 * 0x3F + 2 ^ 30 * 2
     (wCell w).atWord 9 127 w ∧ isSys 2 w = true ∧ sysOk w false false 0 = .ok ()) ∧
    (let w := 2 ^ 58 * 0x3F + 2 ^ 30 * 3 + 0xFFFF
     (wCell w).atWord 9 127 w ∧ isSys 3 w = true ∧ sysOk w false false 16 = .ok ()) ∧
    (let w := 2 ^ 58 * 0x3F + 2 ^ 48 * 31 + 2 ^ 30 * 4
     (wCell w).atWord 9 127 w ∧ isSys 4 w = true ∧ sysOk w true false 0 = .ok ()) ∧
    (let w := 2 ^ 58 * 0x3F + 2 ^ 30 * 5 + 31
     (wCell w).atWord 9 127 w ∧ isSys 5 w = true ∧ sysOk w false false 5 = .ok ()) ∧
    (let w := 2 ^ 58 * 0x3F + 2 ^ 48 * 31 + 2 ^ 30 * 6
     (wCell w).atWord 9 127 w ∧ isSys 6 w = true ∧ sysOk w true false 0 = .ok ()) ∧
    (let w := 2 ^ 58 * 0x3F + 2 ^ 42 * 31 + 2 ^ 30 * 7
     (wCell w).atWord 9 127 w ∧ isSys 7 w = true ∧ sysOk w false true 0 = .ok () ∧ ((wCell w).group 9 127).sbad (wA w) = false) ∧
    (let w := 2 ^ 58 * 0x3F + 2 ^ 54
     (wCell w).atWord 9 127 w ∧ wPred w ≠ 0 ∧ isSys 0 w = true) ∧
    State.reset.canIssue 9 127 = false := by
  refine ⟨?_, ?_, ?_, ?_, ?_, ?_, ?_, ?_, ?_, ?_, ?_⟩ <;> decide +kernel

theorem witness_QueuedInstructionsIssueInOrder :
    (let w := 2 ^ 58 * 0x33 + 2 ^ 42 * 32 + 2 ^ 36 * 32
     (wCell w).atWord 9 127 w ∧ wOp w = 0x33 ∧ ((wCell w).cell 9).qFull ((wCell w).group 9 127) .move = false ∧
       (fill 127 ((wCell w).group 9 127) w).isOk = true) ∧
    (let w := 2 ^ 58 * 0x20 + 2 ^ 48 * 19 + 2 ^ 42 * 15 + 2 ^ 36 * 15 + 2 ^ 30 * 63 + 2 ^ 29
     let q : CGroup := { CGroup.reset with td := [(15, 2 ^ 27)] }
     (wCell w q).atWord 9 127 w ∧ wOp w = 0x20 ∧ ((wCell w q).cell 9).qFull ((wCell w q).group 9 127) .tensor = false ∧
       (mma ((wCell w q).cell 9) 127 ((wCell w q).group 9 127) w).isOk = true) ∧
    (let w := 2 ^ 58 * 0x23 + 2 ^ 48 * 19 + 2 ^ 42 * 15
     (wCell w).atWord 9 127 w ∧ wOp w = 0x23 ∧ (accld 127 ((wCell w).group 9 127) w).isOk = true) ∧
    (let w := 2 ^ 58 * 0x30 + 2 ^ 42 * 63 + 2 ^ 34 * 3 + 2 ^ 33
     (wCell w).atWord 9 127 w ∧ wOp w = 0x30 ∧ (laceIns 127 ((wCell w).group 9 127) w).isOk = true) ∧
    (let w (op fn : Nat) := 2 ^ 58 * op + 2 ^ 42 * 63 + 2 ^ 30 * fn
     let ok (op fn : Nat) : Bool := isLong op fn (w op fn) && (longOp 127 ((wCell (w op fn)).group 9 127) (w op fn)).isOk &&
       decide ((wCell (w op fn)).atWord 9 127 (w op fn))
     ok 0x3C 0 = true ∧ ok 0x3C 1 = true ∧ ok 0x3D 0 = true ∧ ok 0x3D 1 = true ∧ ok 0x3E 0 = true ∧ ok 0x3E 1 = true) ∧
    (let s := wCell 0 { CGroup.reset with lq := 255 }
     (s.cell 9).qFull (s.group 9 127) .long = true) := by
  refine ⟨?_, ?_, ?_, ?_, ?_, ?_⟩ <;> decide +kernel

theorem witness_QueuedOperationsCompleteInOrder :
    let st (f : CellS → CellS) : State := { wCell 0 with cel.cells := (wCell 0).cel.cells.map fun x => (x.1, f x.2) }
    let op (n : Nat) : QOp := { QOp.base 127 .reset (2 ^ 58 * n) with x := 0x40 }
    (let s := st fun x => { x with tq := [op 0x20] }
     s.canonical = true ∧ (s.cell 9).tq = [op 0x20] ∧ s.cellState 9 = csRUNNING ∧ (op 0x20).d < (s.cell 9).acc.length) ∧
    (let s := st fun x => { x with tq := [op 0x23] }
     (s.cell 9).tq = [op 0x23] ∧ wOp (op 0x23).word = 0x23) ∧
    ((wCell 0).cell 9).tq = [] ∧ ((wCell 0).cell 9).mq = [] ∧ ((wCell 0).cell 9).lq = [] ∧
    (let s := st fun x => { x with mq := [op 0x30] }
     (s.cell 9).mq = [op 0x30] ∧ wOp (op 0x30).word = 0x30) ∧
    (let s := st fun x => { x with mq := [op 0x33] }
     s.canonical = true ∧ s.poison = [] ∧ (s.cell 9).mq = [op 0x33] ∧ s.cellState 9 = csRUNNING ∧ wOp (op 0x33).word = 0x33 ∧
       elemBits (tdFmt (op 0x33).d) = 32 ∧ tdRows (op 0x33).d = 1 ∧ 0 < (op 0x33).x ∧ (op 0x33).bad = false) ∧
    (let o : QOp := QOp.base 127 .reset (2 ^ 58 * 0x3C)
     let s := (st fun x => { x with lq := [o] }).store (tsAddr 9 0) [1, 0, 0, 0, 0, 0, 0, 0, 0, 1, 0, 0, 0, 2, 0, 0, 0, 3, 0, 0]
     (s.cell 9).lq = [o] ∧ (s.runLong 9 o (2 ^ 64)).fault = none ∧ (s.runLong 9 o (2 ^ 64)).st.cellState 9 = csRUNNING) ∧
    (let o : QOp := { QOp.base 127 .reset (2 ^ 58 * 0x3E) with x := 0x180000 }
     let s := st fun x => { x with lq := [o] }
     (s.cell 9).lq = [o] ∧ (s.runLong 9 o (2 ^ 64)).fault = some (excBOUNDS, 0x180000) ∧
       (s.runLong 9 o (2 ^ 64)).st.cellState 9 = csRUNNING ∧ restartableOp o.word = true) := by
  refine ⟨?_, ?_, ?_, ?_, ?_, ?_, ?_, ?_, ?_⟩ <;> decide +kernel

theorem witness_LaceListsRunDescriptorByDescriptor :
    let st (f : CellS → CellS) (ch : LaceChan) : State :=
      { wCell 0 with cel.cells := (wCell 0).cel.cells.map fun x => (x.1, f x.2), cel.lace := [(laceKey 9 3, ch)] }
    let l : LaceList := ⟨0x17FFC0, true, 127, 0, 0, none, some 0, 0⟩
    let op : QOp := QOp.base 127 .reset (2 ^ 58 * 0x30 + 2 ^ 34 * 3)
    (let s := st (fun x => { x with mq := [op] }) LaceChan.reset
     (s.cell 9).mq = [op] ∧ wOp op.word = 0x30 ∧ (s.chan (laceKey 9 (bitsOf op.word 35 34))).queue.length < 4) ∧
    (let s := st (fun x => { x with mq := [op] }) { LaceChan.reset with queue := [l, l, l, l] }
     (s.chan (laceKey 9 (bitsOf op.word 35 34))).queue.length ≥ 4) ∧
    ((wCell 0).cell 9).mq = [] ∧
    (let d : List Byte := [0, 1, 0, 0, 0, 0, 0, 0, 0, 2, 0, 0, 0, 0, 0, 0, 4, 0, 0, 0, 1, 0, 0, 0] ++ zeroBytes 8 ++ [3] ++ zeroBytes 31
     let s := (st id { LaceChan.reset with cur := some l, next := some 0x17FFC0 }).store (tsAddr 9 0x17FFC0) d
     s.canonical = true ∧ s.poison = [] ∧ (s.chan (engineKey (9 : Fin 272) 3)).cur = some l ∧
       (s.chan (engineKey (9 : Fin 272) 3)).next = some 0x17FFC0 ∧ (s.chan (engineKey (9 : Fin 272) 3)).sig = none ∧
       s.cel.held.contains 9 = false ∧ l.tile = true ∧ 0x17FFC0 + 64 ≤ tsTop ∧ s.tsBytes 9 0x17FFC0 64 = d ∧
       laceDescOk false d = true ∧ laceBounds d = none ∧ ldStile d = true ∧ ldDtile d = true ∧ ldCodec d = 0 ∧ ldRows d = 1 ∧
       ldChain d = 0 ∧ ldSig d = false) ∧
    (let s := st id { LaceChan.reset with cur := some l, next := some 0x17FFC0 }
     s.laceHeld 9 l 0x17FFC0 = false ∧ (s.chan (engineKey (9 : Fin 272) 3)).next = some 0x17FFC0 ∧
       ((s.setChan (engineKey (9 : Fin 272) 3) (s.chan (engineKey (9 : Fin 272) 3))).laceFetch 9 l 0x17FFC0).2.isOk = false) ∧
    (State.reset.chan (engineKey (271 : Fin 272) 3)).cur = none ∧ (State.reset.chan (engineKey (271 : Fin 272) 3)).queue = [] ∧
    (let s := st id { LaceChan.reset with cur := some l, sig := some (0x17FFF8, 5, true) }
     s.canonical = true ∧ s.poison = [] ∧ (s.chan (engineKey (9 : Fin 272) 3)).sig = some (0x17FFF8, 5, true) ∧ 0x17FFF8 + 8 ≤ tsTop) ∧
    (let s := st id { LaceChan.reset with cur := some l }
     (s.chan (engineKey (9 : Fin 272) 3)).cur = some l ∧ (s.chan (engineKey (9 : Fin 272) 3)).next = none ∧
       (s.chan (engineKey (9 : Fin 272) 3)).sig = none ∧ l.tack = none ∧ s.cellState 9 = csRUNNING) := by
  refine ⟨?_, ?_, ?_, ?_, ?_, ?_, ?_, ?_, ?_⟩ <;> decide +kernel

theorem witness_ReleasesTasksAndComparisonsOfJobs :
    let r : ClcRel := ⟨4095, 0, 0, 0, none, 0, 0⟩
    let j : ClcJob := ⟨r, [], 0, none, 0, 0, 0, 0, 0⟩
    let k : ClcTask := ⟨0, 4095, 0, 0, 0, 0, 0, 0, 1, 7, 0⟩
    let d (sd : Bool) : Digest := ⟨4095, 0, 0, sd, 5, false, false, 0⟩
    (State.reset.sysWriter (mFwp 1) = true ∧ State.reset.bit (rRelSlot 4095 0) 0 = false ∧ State.reset.bit (rRelSlot 4095 0) 14 = false) ∧
    (let s : State := { wReg [(rRelSlot 4095 0, 1), (rClick 0 4, 2)] with clc.jobs := [j] }
     s.canonical = true ∧ s.bit (rRelSlot 4095 0) 0 = true ∧ s.clickState (s.slotClick 4095) = 2 ∧ s.word (rRelSlot 4095 0x34) = 0 ∧
       s.jobOf 4095 = some j ∧ s.clc.pend = []) ∧
    ((wReg [(rClc 0, 1)]).bit (rClc 0) 0 = true ∧ (wReg [(rClc 0, 0)]).bit (rClc 0) 0 = false) ∧
    (State.reset.cel.reports = [] ∧ State.reset.clc.tasks = [] ∧ State.reset.clc.jobs = [] ∧ State.reset.clc.posts = [] ∧
      State.reset.clc.pend = []) ∧
    (let s : State := { State.reset with cel.reports := [(7, 10)], clc.tasks := [k], clc.jobs := [j] }
     s.canonical = true ∧ s.cel.reports = [(7, 10)] ∧ k.place = 1 ∧ k.at_ = 7 ∧ j.rel.slot = k.slot ∧ j.stop = none) ∧
    (let s : State := { State.reset with clc.posts := [⟨5, none, []⟩] }
     (s.postCq ⟨5, none, []⟩).1.clc.pend = []) ∧
    (State.reset.clc.ckpts.all fun c => c.side != true) = true ∧
    (State.reset.dmaReadLong (mDigest 1) hbmBase 64).2.isSome = true ∧
    ((d false).slot = 4095 ∧ (d true).seq = (d false).seq ∧ (d true).ckpt = (d false).ckpt ∧ (d false).side = false ∧
      (d true).side = true ∧ (d false).poison = false ∧ (d true).readErr = false) := by decide +kernel

/-- An image of 8,192 bytes that keeps R301 to R306, stored at an address. -/
def wImage (s : State) (a : Nat) : State :=
  ([(0, [90, 72, 77, 73, 1]), (9, [32]), (16, [7]), (24, [1]), (26, [1]), (28, [1]), (30, [1]), (32, [1]), (34, [1]), (41, [1]),
    (44, [64, 1]), (48, [128, 1]), (56, [192, 1]), (240, [28, 78, 242, 116]), (257, [16]), (264, [64]), (268, [1]),
    (288, [103, 235, 200, 3]), (324, [1]), (332, [1]), (392, [8]), (400, [1]), (402, [16])] : List (Nat × List Byte)).foldl
    (fun s p => s.store (a + p.1) p.2) s

theorem witness_ClickingsSwitchAndModelsInstall :
    let x (d : Bool) : ClcSwitch := ⟨31, false, true, false, 0, d⟩
    (State.reset.sysWriter mTap = false ∧ State.reset.sysWriter (mFwp 1) = true ∧ (wReg [(rClick 63 0, 1)]).clickClass 63 = 1) ∧
    ((wReg [(rClick 63 0, 2)]).clickClass 63 = 2 ∧ (wReg [(rClick 63 0, 2)]).clickNow 63 = 0) ∧
    (State.reset.canonical = true ∧ State.reset.switchCheck 63 31 false ≠ 0 ∧ State.reset.switchCheck 63 0 true = 0 ∧
      State.reset.twlClick 63 = false ∧ State.reset.clc.pend = [] ∧ State.reset.clc.burst = [] ∧ State.reset.clc.jobs = []) ∧
    (wReg [(rModel 31 0, 2)]).switchCheck 63 31 false = 0 ∧
    fmGet State.reset.clc.switching 63 = none ∧
    (let s : State := { State.reset with clc.switching := [(63, x false)] }
     s.canonical = true ∧ fmGet s.clc.switching 63 = some (x false) ∧ s.twlClick 63 = false ∧ (s.jobsOn 63).isEmpty = true ∧
       s.clickNow 63 = 0) ∧
    (let s : State := { State.reset with clc.switching := [(63, x true)] }
     s.canonical = true ∧ s.twlClick 63 = false ∧ s.mdlMin 31 ≤ s.switchCells 63 ∧ s.switchCells 63 ≤ 256) ∧
    State.reset.poisoned (4096 * ((5 : BitVec 64).toNat / 4096)) 4096 = false ∧
    (let s : State := { wReg [(rModel 31 0, 2), (rModel 31 8, 0x10000), (rModel 31 0x10, 0x20000), (rModel 31 0x18, 0x2000)] with
       poison := [0x21FF8] }
     s.canonical = true ∧ s.poisoned (4096 * (0x21FFF / 4096)) 4096 = true ∧
       ((List.range 32).find? fun m => decide (s.modelState m = 2) && decide (s.modelWork m ≤ 0x21FFF) &&
         decide (0x21FFF < s.modelWork m + s.modelBytes m)) = some 31 ∧
       s.poisoned (s.modelGold 31 + (4096 * (0x21FFF / 4096) - s.modelWork 31)) 4096 = false) ∧
    (fmGet State.reset.fwp.binds 31 = none ∧ State.reset.modelState 31 ≠ 1) ∧
    (let s : State := wReg [(rModel 31 0, 1)]
     s.canonical = true ∧ fmGet s.fwp.binds 31 = none ∧ s.modelState 31 = 1 ∧
       imageOk (s.bytes (s.modelGold 31) (s.modelBytes 31)) (fmGet s.sec.slots) = false) := by decide +kernel

set_option maxRecDepth 100000 in
theorem witness_ClickingsSwitchAndModelsInstall_valid :
    let s : State := wImage (wReg [(rModel 31 0, 1), (rModel 31 8, 0x10000), (rModel 31 0x18, 0x2000), (rMhs 0x10, 0x100000),
      (rMhs 0x18, 0x100000)]) 0x10000
    let img := s.bytes (s.modelGold 31) (s.modelBytes 31)
    s.canonical = true ∧ fmGet s.fwp.binds 31 = none ∧ s.modelState 31 = 1 ∧ s.poison = [] ∧ imageOk img (fmGet s.sec.slots) = true ∧
      s.mhsRoom 31 0x100000 (s.modelBytes 31) = true ∧ s.mhsRoom 31 0x1FFFC0 (leAt img 0x22 2 * 64) = true ∧
      apart 0x100000 (s.modelBytes 31) 0x1FFFC0 (leAt img 0x22 2 * 64) = true := by decide +kernel

/-- Reset with 64 x 64 cells, one layer, epoch buffer 2 of 2 pages at HBM, WRITING, with a header that keeps R328. -/
def wEpoch : State :=
  let a := hbmBase
  let s : State := wReg [(rWpe 0x14, 0x00000101), (rWpe 0x40, hbmBase % 2 ^ 32), (rWpe 0x44, hbmBase / 2 ^ 32), (rWpe 0x48, 2),
    (rWpe 0x54, 0x3100)]
  ((((s.store (a + 4) [1]).store (a + 7) [1]).store (a + 8) [64]).store (a + 10) [64, 0, 100]).store (a + 252) [159, 83, 130, 254]

theorem witness_EpochsInputsAndCyclesOfThePlanner :
    (let s : State := wReg [(rWpe 0x54, 0x3012)]
     s.canonical = true ∧ (sysReader (mFwp 1) || s.wpeOwner none 5 0) = true ∧ s.bufState 1 = 1 ∧ s.bufState 0 = 2 ∧
       (s.sysWriter (mFwp 1) || s.wpeOwner none 5 0) = true) ∧
    (let s : State := wReg [(rWpe 0x54, 0x3022)]
     s.canonical = true ∧ (∀ k, k < 3 → s.bufState k ≠ 1) ∧ s.bufState 2 = 0 ∧ (∀ k, k < 2 → s.bufState k ≠ 0)) ∧
    (let s : State := wReg [(rWpe 0x54, 0x3222)]
     s.canonical = true ∧ ∀ k, k < 3 → s.bufState k ≠ 1 ∧ s.bufState k ≠ 0) ∧
    (State.reset.sysWriter mTap = false ∧ sysReader mTap = false ∧ State.reset.isIsland mTap = false ∧
      State.reset.wpeOwner none 5 0 = false ∧ State.reset.wpeOwner none 13 8 = false ∧ State.reset.wpeOwner none 21 16 = false) ∧
    (State.reset.sysWriter (mFwp 1) = true ∧ State.reset.bufState 2 ≠ 1 ∧ State.reset.wpe.cycleSig = none ∧
      State.reset.hdrOk (State.reset.bytes (State.reset.epochBase 2) 256) = false) ∧
    (let s : State := { wReg [(rWpe 0, 1)] with wpe.cycleSig := some (7, false), wpe.nextCands := [64, 128, 192, 256] }
     s.canonical = true ∧ s.bit (rWpe 0) 0 = true ∧ (∀ p ∈ s.wpe.shadow, p.1 ≠ rWpeCnt 0 ∧ p.1 ≠ rWpe 0x70) ∧
       s.wpe.nextCands.length = 4) ∧
    (let s : State := { wReg [(rWpe 0, 0)] with wpe.opened := true, wpe.fixed := false }
     s.canonical = true ∧ s.isIsland (mCollector) = true ∧ s.wpe.opened = true ∧ s.wpe.fixed = false ∧ s.wpe.cands.length < 4 ∧
       s.bit (rWpe 0) 0 = false) ∧
    (State.reset.wpe.opened = false ∧ State.reset.isIsland (mCollector) = true ∧ State.reset.wpe.nextCands.length < 4) := by
  decide +kernel

set_option maxRecDepth 100000 in
theorem witness_EpochsInputsAndCyclesOfThePlanner_publish :
    let s : State := wEpoch
    s.canonical = true ∧ (s.sysWriter (mFwp 1) || s.wpeOwner none 5 0) = true ∧ s.bufState 2 = 1 ∧
      s.rangeOk (mWpe 0) false (s.epochBase 2) 0x300 = true ∧ s.poison = [] ∧
      s.hdrOk (s.bytes (s.epochBase 2) 256) = true ∧ s.wpe.engaged = none := by
  refine ⟨?_, ?_, ?_, ?_, ?_, ?_, ?_⟩ <;> decide +kernel

theorem witness_PlansHeelsAndFramesOfTheCycle :
    let r (x : Bool) : PlanRun := ⟨7, false, 0, 1, ⟨0, 0, 0, 0, 0⟩, x⟩
    let p : Traj := ⟨7, [], 0, 0, 0, 0, false, false⟩
    let c (x : Bool) (q : Option Traj) : HeelCand := ⟨64, x, false, q⟩
    (State.reset.wpe.run = none ∧ State.reset.wpe.opened = false ∧ State.reset.wpe.cycled = false ∧ State.reset.wpe.deadlineSig = none) ∧
    ((r false).expanded = false ∧ (r true).expanded = true) ∧
    (let s : State := { wReg [(rWpe 0x14, 0x00000101), (rWpe 0x60, hbmBase % 2 ^ 32), (rWpe 0x64, hbmBase / 2 ^ 32), (rWpe 0x30, hbmBase % 2 ^ 32),
       (rWpe 0x34, hbmBase / 2 ^ 32), (rWpe 0x78, hbmBase % 2 ^ 32), (rWpe 0x7C, hbmBase / 2 ^ 32)] with wpe.run := some (r false) }
     s.rangeOk (mWpe 0) false (s.epochBase 0) (0x1000 + 64 * 64) = true ∧ s.gridW = 64 ∧ s.gridH = 64 ∧ s.gridL = 1 ∧
       s.rangeOk (mWpe 0) false (s.word64 (rWpe 0x60)) (2 * (64 * 64)) = true ∧
       s.rangeOk (mWpe 0) true (s.word64 (rWpe 0x78)) (4 * (64 * 64)) = true) ∧
    (let s : State := { wReg [(rWpeStatus, 0x10)] with wpe.opened := true, wpe.cycled := true, wpe.cands := [c true none, c false none] }
     s.canonical = true ∧ s.wpe.fixed = false ∧ s.wpe.opened = true ∧ s.fld rWpeStatus 5 4 ≠ 3 ∧
       (s.wpe.cands.all fun c => c.traj.isNone) = true ∧ s.wpe.cands[1]? = some ⟨64, false, false, none⟩ ∧
       (∀ k : Fin 1, ∃ c, s.wpe.cands[k.val]? = some c ∧ c.checked = true) ∧ s.readHeel 64 = .error 1 ∧ s.heelOk = false) ∧
    (let s : State := { wReg [(rWpe 0x24, 0x300)] with wpe.heel := some p,
                                                             wpe.opened := true, wpe.cycled := true,
                                                             wpe.cands := [c true none, c true (some p)] }
     s.canonical = true ∧ s.wpe.fixed = false ∧ s.heelOk = true ∧ s.wpe.cands[1]? = some (c true (some p)) ∧
       p.corridor &&& s.wpe.chgHeel = 0) ∧
    (let s : State := { wReg [(rWpe 0, 1)] with wpe.plan := some p,
                                                             wpe.deadlineSig := some 7, wpe.t0 := 7, wpe.results := [(7, 0, false)],
                                                             wpe.fresh := some p }
     s.canonical = true ∧ s.bit (rWpe 0) 0 = true ∧ s.wpe.run = none ∧ s.wpe.results = [(s.wpe.t0, 0, false)] ∧ s.wpe.engaged = none) := by
  refine ⟨?_, ?_, ?_, ?_, ?_, ?_⟩ <;> decide +kernel

/-- Front end 1 runs with one command at HEAD, at HBM, for instance 0. -/
def wFe (w : List (Nat × Nat)) (cmd : List Byte) : State :=
  (wReg ([(rFe 1 0, 0x80000000), (rFe 1 0x10, 1), (rFe 1 8, hbmBase % 2 ^ 32), (rFe 1 0xC, hbmBase / 2 ^ 32)] ++ w)).store hbmBase cmd

theorem witness_FrontEndsConsumeTheirCommandsInOrder :
    (State.reset.canonical = true ∧ State.reset.feWriter (mFwp 1) none 1 = true ∧ State.reset.feWriter mTap none 1 = false ∧
      State.reset.feRuns 1 = false ∧ (State.reset.feOf 1).events = [] ∧ State.reset.bit (rFe 1 0x18) 1 = false ∧
      State.reset.bit (rFe 1 0x18) 2 = false) ∧
    (wFe [] [0]).canonical = true ∧
    (hasBytes ((wFe [] [0]).feFetch 1 0).2 fun l => zeroAt l 1 31) = true ∧
    (hasBytes ((wFe [] [0, 0, 0, 0, 7]).feFetch 1 0).2 fun l => !zeroAt l 1 31) = true ∧
    (hasBytes ((wFe [] [4, 0, 0, 0, 0xFF, 0xF]).feFetch 1 4).2 fun l =>
      zeroAt l 1 3 && zeroAt l 6 2 && zeroAt l 0xC 20 && decide (leAt l 4 2 = 4095)) = true ∧
    (let s : State := wFe [(rFe 1 0x18, 2)] ([5, 0, 0, 0, 0, 0, 0, 0] ++ leBytes 8 hbmBase)
     s.canonical = true ∧ s.bit (rFe 1 0x18) 1 = true ∧ (hasBytes (s.feFetch 1 5).2 fun l =>
       zeroAt l 1 7 && zeroAt l 0x18 8 && decide (leAt l 8 8 % 8 = 0) &&
       readsBytes ((s.feFetch 1 5).1.rdV ((s.feFetch 1 5).1.feOwner 1) (mRas 1) 1 (leAt l 8 8) 8).2 fun _ => true) = true) ∧
    (let s : State := wFe [] ([6, 0, 0, 0, 0, 0, 0, 0] ++ leBytes 8 hbmBase ++ [9])
     (hasBytes (s.feFetch 1 6).2 fun l => zeroAt l 1 7 && zeroAt l 0x18 8 && decide (leAt l 8 8 % 8 = 0) &&
       ((s.feFetch 1 6).1.wrV ((s.feFetch 1 6).1.feOwner 1) (mRas 1) (leAt l 8 8) (sliceBytes l 0x10 8) false).2.isNone) = true) ∧
    ((wReg [(rFe 1 0x18, 0x24)]).bit (rFe 1 0x18) 2 = true ∧ (wReg [(rFe 1 0x18, 0x24)]).feWriter (mFwp 1) none 1 = true) ∧
    (let s : State := { State.reset with ras.fe := [⟨none, []⟩, ⟨none, [(1, zeroBytes 32)]⟩] }
     s.canonical = true ∧ s.ras.fe.length = 2 ∧ (s.feOf 1).events = [(1, zeroBytes 32)] ∧ s.feQueue 1 = none) := by
  refine ⟨?_, ?_, ?_, ?_, ?_, ?_, ?_, ?_, ?_⟩ <;> decide +kernel

/-- A front end with a command at HBM and a descriptor 64 bytes further on, and a pass over 32 by 32 pixels. -/
def wPass (cmd desc : List Byte) (open_ : Bool) : State :=
  let s := (wFe [] cmd).store (hbmBase + 64) desc
  { s with ras.fe := [⟨none, []⟩, ⟨if open_ then some ⟨5, [1, 0, 1, 0] ++ zeroBytes 4 ++ leBytes 8 (hbmBase + 0x1000) ++
      leBytes 8 (hbmBase + 0x4000) ++ zeroBytes 40, [], 0, false⟩ else none, []⟩] }

theorem witness_FrontEndsDrawPassesAndSplats :
    (let s : State := wPass ([1] ++ zeroBytes 7 ++ leBytes 8 (hbmBase + 64)) [1, 0, 1, 0] false
     s.canonical = true ∧ s.ras.fe.length = 2 ∧ (hasBytes (s.feFetch 1 1).2 fun l =>
       zeroAt l 1 3 && zeroAt l 0x10 16 && decide (leAt l 8 8 % 64 = 0) && ((s.feFetch 1 1).1.feOf 1).pass.isNone &&
       readsBytes ((s.feFetch 1 1).1.rdV ((s.feFetch 1 1).1.feOwner 1) (mRas 1) 1 (leAt l 8 8) 64).2 targetOk) = true) ∧
    (let s : State := wPass ([2, 0, 0, 0, 1, 0, 0, 0] ++ leBytes 8 (hbmBase + 64)) [] true
     s.canonical = true ∧ s.ras.fe.length = 2 ∧ (hasBytes (s.feFetch 1 2).2 fun l =>
       zeroAt l 1 3 && zeroAt l 0x18 8 && decide (1 ≤ leAt l 4 4 ∧ leAt l 4 4 ≤ 16777216 ∧ leAt l 8 8 % 16 = 0) &&
       drawStateOk (leAt l 0x10 4) &&
       match ((s.feFetch 1 2).1.feOf 1).pass with
       | some p => ((s.feFetch 1 2).1.drawTris 1 (leAt l 8 8) (leAt l 0x14 4) (leAt l 0x10 4) p 0 (leAt l 4 4)).2.2.isNone
       | none => false) = true) := by
  refine ⟨?_, ?_⟩ <;> decide +kernel

theorem witness_FrontEndsDrawPassesAndSplats_ends :
    (let s : State := wPass ([3, 0, 0, 0, 0xFF, 0xF, 0, 0] ++ leBytes 8 (hbmBase + 64)) [] true
     (hasBytes (s.feFetch 1 3).2 fun l =>
       zeroAt l 1 3 && zeroAt l 6 2 && zeroAt l 0x10 16 && decide (leAt l 4 2 < 4096 ∧ leAt l 8 8 % 64 = 0) &&
       match ((s.feFetch 1 3).1.feOf 1).pass with
       | some p =>
         let o := (s.feFetch 1 3).1.passTiles 1 p
         match o.err, o.s.wrLong (o.s.feOwner 1) (mRas 1) (leAt l 8 8 + 16) o.list false with
         | none, (v, none) =>
           (v.wrLong (v.feOwner 1) (mRas 1) (leAt l 8 8) (leBytes 4 (o.list.length / 16) ++ zeroBytes 12) false).2.isNone
         | _, _ => false
       | none => false) = true) ∧
    (let d : List Byte := leBytes 8 (hbmBase + 0x1000) ++ [1, 0, 0, 0, 1, 0, 0, 0] ++ leBytes 8 (hbmBase + 0x2000) ++
       [4, 0, 0, 0, 1, 0, 1, 0] ++ leBytes 8 (hbmBase + 0x3000) ++ [4]
     let s : State := wPass ([7] ++ zeroBytes 7 ++ leBytes 8 (hbmBase + 64)) d false
     (hasBytes (s.feFetch 1 7).2 fun l =>
       zeroAt l 1 7 && zeroAt l 0x10 16 && decide (leAt l 8 8 % 64 = 0) &&
       match (s.feFetch 1 7).1.rdLong ((s.feFetch 1 7).1.feOwner 1) (mRas 1) (leAt l 8 8) 96 with
       | (v, .ok (d, false)) => splatOk d && (v.splatPoints 1 d).2.isNone
       | _ => false) = true) := by
  refine ⟨?_, ?_⟩ <;> decide +kernel

theorem witness_DisplayPipesScanFlipAndLock :
    (State.reset.canonical = true ∧ State.reset.pipeWriter mTap none 3 = false ∧ State.reset.pipeWriter (mFwp 1) none 3 = true ∧
      State.reset.pipeState 3 < 2 ∧ State.reset.bit (rPipe 3 4) 2 = false ∧ State.reset.bit (rPipe 3 0x80) 31 = false ∧
      State.reset.dpy.pipes.length = 4) ∧
    (let s : State := wReg [(rPipe 3 4, 3)]
     s.canonical = true ∧ 2 ≤ s.pipeState 3 ∧ s.bit (rPipe 3 0) 0 = false ∧ s.pipeState 3 = 3) ∧
    (let s : State := wReg [(rPipe 3 4, 2), (rPipe 3 0, 1), (rPipe 3 0x48, 0)]
     s.canonical = true ∧ 2 ≤ s.pipeState 3 ∧ s.bit (rPipe 3 0) 0 = true ∧ s.fld (rPipe 3 0x48) 15 0 = 0 ∧ (s.dpyOf 3).latched = false) ∧
    (wReg [(rPipe 3 4, 4)]).bit (rPipe 3 4) 2 = true ∧
    (let s : State := wReg [(rPipe 3 0x80, 0xCF000000)]
     s.canonical = true ∧ s.bit (rPipe 3 0x80) 31 = true ∧ s.bit (rPipe 3 0x80) 30 = true ∧ s.fld (rPipe 3 0x80) 28 24 = 15) := by
  decide +kernel

theorem witness_MemoryReadsWritesAndScrubbing :
    (let s : State := wReg [(rInst 63 0x18, 0), (rInst 63 0x1C, 0x80000000)]
     (s.xlat (some 63) 9 1 0xFFFFFFFFFFFF000).2 = none ∧ (s.xlat (some 63) 9 2 0xFFFFFFFFFFFF000).2 = none) ∧
    (State.reset.xlat none mHqm 1 hbmBase).2 = some hbmBase ∧ (State.reset.xlat none mHqm 2 hbmBase).2 = some hbmBase ∧
    State.reset.mapAnswer mHqm false hbmBase = .served ∧ State.reset.addrKind hbmBase = .hbm ∧
    State.reset.addrKind (hbmBase + 4095) = .hbm ∧ State.reset.winMeets hbmBase 4096 = false ∧ State.reset.poison = [] ∧
    State.reset.mapAnswer mHqm true hbmBase = .served ∧ State.reset.holdTile mHqm false hbmBase 4096 [] false = none ∧
    State.reset.holdTile mHqm true hbmBase 1 [7] false = none ∧ State.reset.mapAnswer mHqm false 0 = .served ∧
    State.reset.mapAnswer mHqm true 0 = .refused ∧ State.reset.mapAnswer mHqm false (10 * portBase) = .refused ∧
    State.reset.holdTile mHqm false (10 * portBase) 1 [] false = none ∧ State.reset.holdTile mHqm true 0 1 [7] false = none ∧
    ((wReg [(rSecWin 63 0, hbmBase % 2 ^ 32), (rSecWin 63 4, hbmBase / 2 ^ 32), (rSecWin 63 8, 4096),
      (rSecWin 63 0xC, 0x80000000)]).winMeets hbmBase 1 = true ∧ isFwpModel mHqm = false) ∧
    (let s : State := { wReg [(rCell 159 0, 5), (rCel (0x100 + 9 * 4), 0)] with cel.held := [159] }
     (s.holdTile mHqm false (tileBase + 159 * tileSize) 4096 [] false).isSome = true ∧
     (s.holdTile mHqm true (tileBase + 159 * tileSize) 1 [7] false).isSome = true) ∧
    State.reset.scrubKind 0 = none ∧ State.reset.scrubKind hbmBase = some 0 ∧ State.reset.inSelfRef hbmBase = false ∧
    (wReg [(rMem 0x10, 0)]).scrubPeriod 0 = 0 ∧ (wReg [(rMem 0x10, 60)]).scrubPeriod 0 ≠ 0 ∧
    (wReg [(rMem 0x20, 0)]).bit (rMem 0x20) 26 = false ∧ (wReg [(rMem 0x20, 0x4000000)]).bit (rMem 0x20) 26 = true ∧
    (wReg [(rMem 0x18, 7)]).scrubPeriod 2 ≠ 0 := by
  refine ⟨?_, ?_, ?_, ?_, ?_, ?_, ?_, ?_, ?_, ?_, ?_, ?_, ?_, ?_, ?_, ?_, ?_, ?_, ?_, ?_, ?_, ?_, ?_, ?_, ?_, ?_⟩ <;> decide +kernel

theorem witness_FabricRequestsLinksAndAudits :
    let q : FabReq := ⟨31, 255, 64, true, 0, 0, none, 1, none⟩
    (let s : State := wReg [(rInst 63 0x18, 0), (rInst 63 0x1C, 0x80000000)]
     (s.xlat (some 63) 9 2 0xFFFFFFFFFFFF000).2 = none) ∧
    ((State.reset.xlat none mHqm 2 hbmBase).2 = some hbmBase ∧ (State.reset.holdQueue 31 255).length < 64 ∧
      State.reset.holdQueue 31 255 = []) ∧
    (let s : State := { State.reset with fab.holdQ := [(fabKey 31 63, List.replicate 64 q)] }
     64 ≤ (s.holdQueue 31 63).length ∧ s.regRate 31 63 = 0) ∧
    (let s : State := { State.reset with fab.holdQ := [(fabKey 31 255, [q])] }
     s.canonical = true ∧ s.holdQueue 31 255 = [q] ∧ s.regRate 31 255 = 0) ∧
    (let s : State := { wReg [(rReg 31 255, 0x10000010)] with fab.holdQ := [(fabKey 31 255, [q])] }
     s.canonical = true ∧ s.holdQueue 31 255 = [q] ∧ s.regRate 31 255 ≠ 0 ∧
       min ((125 * q.bytes : Nat) : Int) (s.regCap 31 255) ≤ s.regTokens 31 255) ∧
    (let s : State := { State.reset with fab.flight := [{ q with label := 0 }, { q with deadline := some 5 }], now := 6 }
     s.canonical = true ∧ s.fab.flight = [{ q with label := 0 }] ++ { q with deadline := some 5 } :: [] ∧ 5 < s.now) ∧
    (let s : State := { wReg [(rReg 31 63, 0x00010010), (rLbl 63 4, 0x10)] with fab.floor := [(fabKey 31 63, 0, 0, true)] }
     s.canonical = true ∧ fmGet s.fab.floor (fabKey 31 63) = some (0, 0, true) ∧
       (0 + 64 * s.regBurst 31 63 < 16 * (s.regRate 31 63 * s.fld (rLbl 63 4) 15 0))) ∧
    (State.reset.fab.links.contains 45 = false ∧ State.reset.fab.audit = none ∧ State.reset.cel.held = []) ∧
    (let s : State := { wReg [(rLedger 255 0x14, 1)] with fab.audit := some 0, fwp.safe := 2 }
     s.canonical = true ∧ s.fab.audit ≠ none ∧ s.fab.links = [] ∧ s.cel.held = [] ∧ s.fab.late = false ∧ s.fwp.safe ≠ 0 ∧
       s.audited 255 = true ∧ (∀ h, h < 256 → h ≠ 255 → s.audited h = false) ∧ s.fab.bad.contains 255 = false) ∧
    (State.reset.sysWriter mTap = false ∧ State.reset.sysWriter (mFwp 1) = true) ∧
    (let s : State := { wReg [(rPwr 0x24, 0x400)] with pwr.held := [(admKey 4 5, 2)] }
     s.canonical = true ∧ s.hcState 5 ≠ 0 ∧ s.admHeld 4 5 ≠ 0 ∧ s.hcState 0 = 0) := by
  refine ⟨?_, ?_, ?_, ?_, ?_, ?_, ?_, ?_, ?_, ?_, ?_⟩ <;> decide +kernel

theorem witness_InstancesInvalidationsAndLinks :
    (State.reset.canonical = true ∧ State.reset.sysWriter mTap = false ∧ State.reset.sysWriter (mFwp 1) = true ∧
      State.reset.atu.inv = [] ∧ State.reset.instState 63 = 0 ∧ State.reset.instKind 63 = 0 ∧
      State.reset.atu.seqs.find? (fun p => p.1 = 63) = none ∧ State.reset.bit (rPciPort 3 4) 0 = false ∧ State.reset.portVfs 3 = []) ∧
    (let s : State := { wReg [(rInst 63 0, 3)] with atu.inv := [3 + 256 * 63] }
     s.canonical = true ∧ s.instKind 63 ≠ 0 ∧ s.instState 63 = 0 ∧ s.atu.inv = [3 + 256 * 63]) ∧
    (let s : State := wReg [(rInst 63 0, 0x10003)]
     s.instState 63 = 1 ∧ s.instKind 63 ≠ 0 ∧ s.atu.seqs.find? (fun p => p.1 = 63) = none) ∧
    (let s : State := { wReg [(rInst 63 0, 0x20003)] with atu.seqs := [(63, false)] }
     s.canonical = true ∧ 2 ≤ s.instState 63 ∧ s.atu.seqs.find? (fun p => p.1 = 63) = some (63, false) ∧ s.instBusy 63 = false ∧
       s.pci.flr = [] ∧ s.atu.adds.contains 63 = false) ∧
    (let s : State := wReg [(rPciPort 3 0, 1), (rPciPort 3 4, 0)]
     s.canonical = true ∧ s.bit (rPciPort 3 0) 0 = true ∧ s.bit (rPciPort 3 4) 0 = false) ∧
    (wReg [(rPciPort 3 4, 1)]).bit (rPciPort 3 4) 0 = true ∧
    (let s : State := wReg [(rInst 63 0, 0x10FF3)]
     s.canonical = true ∧ (s.portVfs 3).find? (fun i => s.instVf i = 63) = some 63 ∧ s.instState 63 ≠ 0 ∧ s.portVfs 3 = [63] ∧
       s.atu.seqs.find? (fun p => p.1 = 63) = none) ∧
    (let s : State := wReg [(rInst 63 0, 0x00FF3)]
     s.portVfs 3 = [63] ∧ s.instVf 63 < 64 ∧ s.instState 63 = 0) := by
  refine ⟨?_, ?_, ?_, ?_, ?_, ?_, ?_, ?_⟩ <;> decide +kernel

theorem witness_PartnerPortsCarryRequestsBothWays :
    let q (c : Bool) : PciReq := ⟨3, 1023, none, 0, 0, 8, c, 5, none⟩
    (let s : State := wReg [(rInst 63 0x18, 0), (rInst 63 0x1C, 0x80000000)]
     (s.xlat (some 63) 9 1 (portBase * 4 + 2 ^ 40 - 1)).2 = none ∧ (s.xlat (some 63) 9 2 (portBase * 4)).2 = none) ∧
    (State.reset.xlat none mHqm 2 (portBase * 4 + 5)).2 = some (portBase * 4 + 5) ∧
    State.reset.addrKind (portBase * 4 + 5) = .port 3 ∧ State.reset.portUp 3 = false ∧
    (let s : State := wReg [(rPciPort 3 0, 1), (rPciPort 3 4, 1)]
     s.canonical = true ∧ s.portUp 3 = true ∧ s.addrKind (portBase * 4 + 5) = .port 3 ∧ s.bit (rPciPort 3 0) 1 = false ∧
       (s.portVfs 3).find? (fun i => decide (s.instVf i + 1 = 64)) = none) ∧
    State.reset.pci.out.find? (fun q => q.port = 3 && q.tag = 1023) = none ∧
    (let s : State := { State.reset with pci.out := [q true] }
     s.canonical = true ∧ s.pci.out.find? (fun q => q.port = 3 && q.tag = 1023) = some (q true)) ∧
    (let s : State := { State.reset with pci.out := [q false] }
     s.canonical = true ∧ s.pci.out.find? (fun q => q.port = 3 && q.tag = 1023) = some (q false) ∧ (q false).cfg = false ∧
       (q false).back = none) ∧
    (State.reset.sysWriter mTap = false ∧ State.reset.sysWriter (mFwp 1) = true ∧ State.reset.bit (rPciPort 3 0x20) 31 = false ∧
      (wReg [(rPciPort 3 0x20, 0x80000000)]).bit (rPciPort 3 0x20) 31 = true) ∧
    (let s : State := { wReg [(rPciPort 3 0, 1), (rPciPort 3 4, 1), (rInst 63 0, 0x10FF3)] with mem := [], poison := [] }
     let m : Master := BitVec.ofNat 16 (0x4000 + 1024 * 3 + 64)
     let x := s.xlatBy 63 m 1 hbmBase true
     (s.portUp 3 = true ∧ (s.portVfs 3).find? (fun i => decide (s.instVf i + 1 = 64)) = some 63 ∧ s.instState 63 = 1 ∧
       BitVec.toNat (BitVec.ofNat 64 0x10) < 2 ^ (30 + s.fld (rPciPort 3 0) 31 28)) ∧
     x.1.heldAcc = []) := by
  refine ⟨?_, ?_, ?_, ?_, ?_, ?_, ?_, ?_, ?_, ?_⟩ <;> decide +kernel

/-- Instance 0, VF 0 of port 3: its aperture reads HBM that instance 0 owns, through stage 2 OFF. -/
theorem witness_PartnerPortsCarryRequestsBothWays_aperture :
    let s : State := wReg [(rPciPort 3 0, 0xF0000001), (rPciPort 3 4, 1), (rInst 0 0, 0x10033)]
    let m : Master := BitVec.ofNat 16 (0x4000 + 1024 * 3 + 1)
    s.portUp 3 = true ∧ (s.portVfs 3).find? (fun i => decide (s.instVf i + 1 = 1)) = some 0 ∧ s.instState 0 = 1 ∧
      hbmBase < 2 ^ (30 + s.fld (rPciPort 3 0) 31 28) ∧ (s.xlatBy 0 m 1 hbmBase true).2 = some hbmBase ∧
      ((s.xlatBy 0 m 1 hbmBase true).1.mapAccess m (asInst 0) false hbmBase 8 [] false).resp.err = false := by
  refine ⟨?_, ?_, ?_, ?_, ?_, ?_⟩ <;> decide +kernel

theorem witness_HardwareQueuesRingPostAndChangeState :
    let x : HqmQ := ⟨hbmBase, 4, 0, 2, 0, 0, 7, 16, 0, 0, false⟩
    let y : HqmQ := ⟨hbmBase, 4, 0, 2, 0, 0, 7, 15, 0, 0, false⟩
    let z : HqmQ := ⟨hbmBase, 4, 0, 1, 0, 0, 7, 15, 0, 0, false⟩
    fmGet State.reset.hqm.queues 524287 = none ∧
    (let s : State := { State.reset with hqm.queues := [(524287, z)] }
     fmGet s.hqm.queues 524287 = some z ∧ z.faulted = false ∧ isInst (some 0) z.owner = true ∧ z.prodSys = false ∧ z.consSys = false ∧
       ¬(bitsOf 16 30 17 ≠ 0 ∨ z.size < (16 + 2 ^ 17 - z.head) % 2 ^ 17 ∨ (16 + 2 ^ 17 - z.head) % 2 ^ 17 < z.count) ∧
       ¬(bitsOf (2 ^ 31 + 15) 30 17 ≠ 0 ∨ z.size < (z.tail + 2 ^ 17 - 15) % 2 ^ 17 ∨ z.count < (z.tail + 2 ^ 17 - 15) % 2 ^ 17) ∧
       (z.size < (17 + 2 ^ 17 - z.head) % 2 ^ 17)) ∧
    (x.prodSys = true ∧ x.faulted = false ∧ x.size ≤ x.count) ∧
    (let s : State := { State.reset with hqm.queues := [(524287, y)] }
     fmGet s.hqm.queues 524287 = some y ∧ y.prodSys = true ∧ y.faulted = false ∧ y.count < y.size ∧ [(5 : Byte)].length ≤ y.entryBytes ∧
       (s.wrV (asInst y.owner) mHqm (y.base + y.tail % y.size * y.entryBytes) (sliceBytes [5] 0 y.entryBytes) false).2 = none) ∧
    (State.reset.hqm.posts = [] ∧ State.reset.sysWriter mTap = false ∧ State.reset.sysWriter (mFwp 1) = true ∧
      State.reset.canonical = true ∧ z.count ≠ 0) ∧
    (let s : State := (wReg [(rHqm 0, 1), (rHqm 0x10, hbmBase % 2 ^ 32), (rHqm 0x14, hbmBase / 2 ^ 32), (rInst 63 0, 1)]).store
       (hbmBase + 32 * 9 + 8) [4, 0, 0, 63]
     s.canonical = true ∧ s.bit (rHqm 0) 0 = true ∧ s.qValid (s.bytes (s.qEntry 9) 32) = true ∧ s.poisoned (s.qEntry 9) 32 = false ∧
       (qOfEntry (s.bytes (s.qEntry 9) 32)).count = 0 ∧ fmGet s.hqm.queues 9 = none) := by
  refine ⟨?_, ?_, ?_, ?_, ?_, ?_⟩ <;> decide +kernel

theorem witness_ClockFailuresAndPllsShowAndRecord :
    State.reset.canonical = true ∧ State.reset.bit (rDom 47) 18 = false ∧ State.reset.bit (rSfePort 15 0) 0 = false ∧
    (let s : State := wReg [(rDom 15, 0x40000), (rDom 47, 0x40000), (rCell 255 0, 5), (rSfePort 15 0, 3)]
     s.canonical = true ∧ s.bit (rDom 47) 18 = true ∧ s.bit (rDom 15) 18 = true ∧ s.cellState 255 ≠ csABSENT ∧
       s.cellState 255 ≠ csOFF ∧ s.cellState 255 ≠ csSUBST ∧ s.bit (rSfePort 15 0) 0 = true ∧ s.fld (rSfePort 15 0) 2 1 ≤ 1) := by
  decide +kernel

theorem witness_SafetyPairsTestVoteAndSplit :
    (State.reset.canonical = true ∧ State.reset.pairState 5 ≠ 2 ∧ State.reset.pairState 5 ≠ 1 ∧ State.reset.isIsland mTap = false ∧
      State.reset.isIsland mCollector = true ∧ voteValue 4 [(true, false), (true, true)] = some true ∧
      voteValue 4 [(true, false), (true, false), (true, false), (true, false), (true, true)] = none ∧
      State.reset.bit (blkBase bSEC) 3 = false) ∧
    (let s : State := wReg [(rPair 5 0, 0x12)]
     s.canonical = true ∧ s.pairState 5 = 2 ∧ s.twn.mism.length = 6 ∧ s.twn.attachWait.getD 5 false = false) ∧
    ((wReg [(rPair 5 0, 1)]).pairState 5 = 1) ∧
    (let s : State := { State.reset with fwp.safe := 1 }
     s.canonical = true ∧ s.fwp.safe = 1 ∧ (s.fwp.segs.getD 6 []).length ≤ 0x800000 ∧ s.fwp.safe ≠ 2) ∧
    (let s : State := { wReg ((List.range 6).map fun n => (rPair n 0, 1)) with fwp.safe := 2 }
     s.canonical = true ∧ s.fwp.safe = 2 ∧ s.fwp.boot ≠ 5 ∧ s.bit (rSys 4) 8 = false ∧ s.twn.attachWait = List.replicate 6 false ∧
       s.fwp.safe ≠ 1 ∧
       ∀ n, n < 6 → s.pairState n = 1) ∧
    (let s : State := wReg [(blkBase bSEC, 8), (rPair 5 0, 0x12), (rPair 4 0, 1), (rPair 3 0, 5)]
     s.canonical = true ∧ s.bit (blkBase bSEC) 3 = true ∧ s.pairState 5 ≠ 1 ∧ s.pairState 5 ≠ 5 ∧ s.pairState 4 = 1 ∧
       s.pairState 3 = 5) := by
  refine ⟨?_, ?_, ?_, ?_, ?_, ?_⟩ <;> decide +kernel

theorem witness_FaultsAreRecordedAndClassesExit :
    (State.reset.canonical = true ∧ isFwp (mFwp 5) = true ∧ State.reset.isEligiblePair (mFwp 5) = false ∧ isFwp mTap = false ∧
      State.reset.isEligiblePair mTap = false ∧ State.reset.isIsland mTap = false ∧ State.reset.isIsland mCollector = true ∧
      State.reset.alarmFill < 511 ∧ State.reset.fwp.dead.any (fun d => d.1 = 5) = false) ∧
    (let s : State := wReg [(rFltState, 8)]
     s.canonical = true ∧ s.bit rFltState stD = true) ∧
    (let s : State := wReg [(rFltState, 0x10), (rFltHold, 0), (rFlt 0, 0x4000001)]
     s.canonical = true ∧ s.bit rFltState stS = true ∧ s.fld rFltHold 2 0 = 0 ∧ s.bit (rFlt 0) 26 = true ∧ s.bit rFltState stL = false ∧
       (s.timeTo (s.flt.sLast + s.quiet)).recentExits.length < 8 ∧ s.sExitReady = false) ∧
    (let s : State := { wReg [(rFltState, 0x10), (rFltHold, 0), (rFlt 0, 0x4000001)] with flt.sExits := List.replicate 8 0, now := 2 ^ 40 }
     8 ≤ (s.timeTo (s.flt.sLast + s.quiet)).recentExits.length ∧ s.sExitReady = true) ∧
    (let s : State := wReg [(rFlt 0x30, 256), (rFlt 0x34, 0)]
     s.canonical = true ∧ (256 + 512 - s.word (rFlt 0x34)) % 512 ≤ s.alarmFill) ∧
    (let s : State := { State.reset with fwp.dead := [(5, 3)] }
     s.canonical = true ∧ s.fwp.dead.any (fun d => d.1 = 5) = true ∧ s.procState 5 ≠ 3) := by
  refine ⟨?_, ?_, ?_, ?_, ?_, ?_⟩ <;> decide +kernel

theorem witness_AliveWatchdogsAndTheAwl :
    let e : List (Nat × Nat) := [(rTwn 0, 0x2000)]
    (State.reset.canonical = true ∧ State.reset.isIsland mTap = false ∧ State.reset.isIsland mCollector = true ∧
      State.reset.bit (rTwn 0) 24 = false ∧ State.reset.bit rFltState stAlive = false ∧ mKind (mPair 5) = 3 ∧ mIdx (mPair 5) < 6 ∧
      State.reset.isEligiblePair (mPair 5) = false ∧ mKind mTap ≠ 3 ∧ isCollector mTap = false ∧ State.reset.flt.started = false ∧
      isFwp (mFwp 5) = true ∧ mIdx (mFwp 5) < 6 ∧ isFwp mTap = false ∧ State.reset.procState 5 ≠ 2 ∧ State.reset.bit (rAwl 4) 1 = false) ∧
    (let s : State := wReg [(blkBase bSYS + 4, 0x100), (rTwn 0, 0x1000000)]
     s.canonical = true ∧ s.bit (blkBase bSYS + 4) 8 = true ∧ s.bit (rTwn 0) 24 = true ∧ s.safeActive = false ∧ s.flt.started = false) ∧
    (let s : State := { wReg [(rFltState, 0x42), (rProc 5 0, 2)] with flt.started := true }
     s.canonical = true ∧ s.bit rFltState stAlive = true ∧ s.fld rFltState 2 0 = 2 ∧ s.fcCode ≤ 2 ∧ s.flt.started = true ∧
       s.procState 5 = 2 ∧ s.fwp.dead.any (fun d => d.1 = 5) = false) ∧
    (let s : State := { wReg ((rAwl 4, 1) :: e) with awl.first := some ((mPair 5).toNat, 0) }
     s.canonical = true ∧ s.isEligiblePair (mPair 5) = true ∧ bitOf (mPair 5).toNat 3 = false ∧ s.bit (rAwl 4) 0 = true ∧
       s.awl.first = some ((mPair 5).toNat, 0) ∧ s.now ≤ 4000) ∧
    ((wReg ((rAwl 4, 0) :: e)).bit (rAwl 4) 0 = false ∧ (wReg e).isEligiblePair (mPair 5) = true ∧
      (mKind (mPair 8) = 3 ∧ bitOf (mPair 8).toNat 3 = true)) ∧
    (let s : State := wReg ((rAwl 4, 3) :: e)
     s.canonical = true ∧ s.bit (rAwl 4) 1 = true ∧ s.bit (rAwl 4) 3 = false ∧ s.awl.went = false) ∧
    (let s : State := wReg [(rAwl 4, 0x1000A), (rAwl 8, 1 + 2 ^ 16 * 5), (rPair 5 0, 0x12)]
     s.canonical = true ∧ s.bit (rAwl 4) 3 = true ∧
       (match ({ s with awl.inj := true } : State).injectTarget 0 0 3 9 with | some v => v.canonical && v.fld (rAwl 4) 31 16 == 1 | none => false) = true) := by
  refine ⟨?_, ?_, ?_, ?_, ?_, ?_, ?_⟩ <;> decide +kernel

theorem witness_ResetsBootAndRestarts :
    let ctl : List Byte := ctlRecord 1 0 1 0x10000 0x1000
    (State.reset.canonical = true ∧ isFwp (mFwp 4) = true ∧ (State.reset.isEligiblePair (mFwp 4) || mFwp 4 == mFwp 4) = true ∧
      State.reset.bit (rSys 4) 8 = false ∧ State.reset.isEligiblePair mTap = false ∧ isFwp mTap = false ∧ State.reset.fwp.boot = 0 ∧
      State.reset.fwp.boot ≠ 7 ∧ State.reset.procState 5 ≠ 3 ∧ State.reset.fwp.dead.any (fun d => d.1 = 5) = false) ∧
    (let s : State := { State.reset with fwp.boot := 1, fwp.cands := [1] }
     s.canonical = true ∧ s.fwp.boot = 1 ∧ s.fwp.cands = [1] ∧ s.slotCtl 1 = none ∧ s.fwp.boot ≠ 4) ∧
    (let s : State := ({ State.reset with fwp.boot := 1, fwp.cands := [1] } : State).ctlWrite 1 ctl
     s.canonical = true ∧ s.fwp.boot = 1 ∧ s.fwp.cands = [1] ∧ s.slotCtl 1 = some ctl ∧ ctlState ctl ≠ 2) ∧
    (let s : State := { State.reset with fwp.boot := 4, fwp.cands := [1] }
     s.canonical = true ∧ s.fwp.boot = 4 ∧ s.fwp.cands = [1] ∧ s.fwp.boot ≠ 1 ∧ s.fwp.boot ≠ 0) ∧
    (let s : State := { State.reset with fwp.boot := 7 }
     s.canonical = true ∧ s.fwp.boot = 7) ∧
    (let s : State := { State.reset with fwp.boot := 1 }
     s.canonical = true ∧ s.fwp.boot = 1 ∧ s.fwp.cands = []) ∧
    (let s : State := { State.reset with fwp.dead := [(5, 3)] }
     s.fwp.dead.any (fun d => d.1 = 5) = true ∧ s.procState 5 ≠ 3) ∧
    (let s : State := wReg [(rProc 5 0, 0x20003)]
     s.canonical = true ∧ s.procState 5 = 3 ∧ s.fab.flight = [] ∧ s.fab.holdQ = [] ∧ s.fld (rProc 5 0) 19 16 + 1 = 3) ∧
    (let s : State := { wReg [(rProc 5 0, 3)] with fab.flight := [⟨0, 0, 64, true, (mFwp 5).toNat, 0, none, 0, none⟩] }
     s.procState 5 = 3 ∧ ∃ q ∈ s.fab.flight, q.master = (mFwp 5).toNat) := by
  refine ⟨?_, ?_, ?_, ?_, ?_, ?_, ?_, ?_, ?_⟩ <;> decide +kernel

/-- Mailbox 63 of instance 63 with every permission and major 1 negotiated, with a message of an ID and payload that waits for
its running processor, in SERVICE. -/
def wMbx (id : Nat) (pay : List Byte) (more : List (Nat × Nat)) : State :=
  let s : State := wReg ([(rMbx 63 0, 0xF7F), (rMbx 63 4, 1), (rMbx 63 0x20, 0x80000001), (rFwp 0, 2), (rFwp 0x14, 1), (rFwp 0x18, 1),
    (rProc (mbxHandler id) 0, 2), (mbxReq 63, 1), (mbxReq 63 + 4, id), (mbxReq 63 + 0x14, pay.length)] ++ more)
  let s : State := s.setRegBytes (mbxReq 63 + 0x20) pay
  { s with fwp.order := [63], fwp.mbx := [(63, ⟨false, 0, [], .none, false, 0⟩)] }

theorem witness_MailboxesTakeAndAnswerMessages :
    (State.reset.mbxUser mTap none 63 = false ∧ State.reset.mbxUser (mFwp 1) none 63 = true ∧ State.reset.canonical = true ∧
      State.reset.bit (rMbx 63 4) 0 = false ∧ State.reset.mbxOn 63 = false ∧ State.reset.bit (rMbx 63 4) 1 = false ∧
      fmGet State.reset.fwp.mbx 63 = none) ∧
    (let s : State := wReg [(rMbx 63 0, 0x7F), (rMbx 63 4, 2)]
     s.mbxOn 63 = true ∧ s.bit (rMbx 63 4) 0 = false ∧ s.bit (rMbx 63 4) 1 = true ∧ s.mbxUser 0 (some 63) 63 = true) ∧
    (let s : State := { wMbx 1 [] [] with fwp.mbx := [(63, ⟨true, 0, [], .none, false, 0⟩)] }
     s.canonical = true ∧ s.procUp (mbxHandler (s.mbxId 63)) = true ∧ 0 = s.procIncarn (mbxHandler (s.mbxId 63))) ∧
    (let s : State := wMbx 0x4FF [] []
     s.canonical = true ∧ s.procUp (mbxHandler (s.mbxId 63)) = true ∧ mbxKnown s.phase (s.mbxId 63) = false ∧
       s.mbxNext (mbxHandler (s.mbxId 63)) = some 63) ∧
    (¬State.reset.mbxHead 63 1 ∧ (wMbx 0x505 [] []).mbxHead 63 0x505 ∧ (wMbx 0x505 [] []).mbxVersionOk 63 0x505 = true ∧
      (wMbx 0x505 [] [(rMbx 63 0x20, 0)]).mbxVersionOk 63 0x505 = false ∧ ¬(wMbx 0x22 [] [(rMbx 63 0, 0x7F)]).mbxMay 63 (some 11)) ∧
    ((wMbx 1 [] []).mbxReady 63 1 none ∧ (wMbx 2 [] []).mbxReady 63 2 none) ∧
    (let s : State := wMbx 0x10 [0, 0, 0, 0, 1, 0, 0, 0, 9] []
     s.mbxReady 63 0x10 (some 9) ∧ leAt (s.mbxPay 63) 4 4 = 1 ∧ (s.mbxPay 63).length = 9 ∧ leAt (s.mbxPay 63) 0 4 = 0) ∧
    (let s : State := wMbx 0x11 [0, 0, 0, 0, 7, 0] []
     s.mbxReady 63 0x11 (some 9) ∧ leAt (s.mbxPay 63) 4 1 = 7 ∧ s.phase ≠ 4) ∧
    ((wMbx 0x12 [] [(rFwp 0, 0x52)]).mbxReady 63 0x12 (some 9) ∧ (wMbx 0x12 [] [(rFwp 0, 0x52)]).fld (rFwp 0) 5 4 ≠ 0) ∧
    (let s : State := wMbx 0x20 [5] []
     s.mbxReady 63 0x20 (some 8) ∧ leAt (s.mbxPay 63) 0 1 = 5) := by
  refine ⟨?_, ?_, ?_, ?_, ?_, ?_, ?_, ?_, ?_, ?_⟩ <;> decide +kernel

theorem witness_MailboxCommandsOfTheServicesTakeEffect :
    (let s : State := wMbx 0x21 [5, 0, 0, 0, 0, 0, 0, 0, 126, 0] []
     s.mbxReady 63 0x21 (some 11) ∧ leAt (s.mbxPay 63) 0 1 = 5 ∧ leAt (s.mbxPay 63) 8 2 = 126) ∧
    (let s : State := wMbx 0x22 [5, 0, 0xFF, 3, 1, 0, 0, 0, 1] []
     s.canonical = true ∧ s.mbxReady 63 0x22 (some 11) ∧ leAt (s.mbxPay 63) 2 2 = 1023 ∧ leAt (s.mbxPay 63) 4 2 = 1) ∧
    (let s : State := wMbx 0x101 [3] []
     s.mbxReady 63 0x101 (some 8) ∧ leAt (s.mbxPay 63) 0 1 = 3) ∧
    ((wMbx 0x102 [] []).mbxReady 63 0x102 none ∧ (wMbx 0x302 [] []).mbxReady 63 0x302 none) ∧
    (let s : State := wMbx 0x201 [63, 15, 0, 1] [(rClick 63 0, 2)]
     s.mbxReady 63 0x201 none ∧ leAt (s.mbxPay 63) 0 1 = 63 ∧ s.clickClass 63 = 2 ∧ leAt (s.mbxPay 63) 1 1 = 15 ∧
       leAt (s.mbxPay 63) 2 2 = 256 ∧ s.mbxOwns 63 (s.clickInst 63) = true) ∧
    (let s : State := wMbx 0x202 ([0xFF, 0xF, 4, 1] ++ leBytes 4 0x7FFFF ++ leBytes 8 (2 ^ 52 - 64) ++ leBytes 8 64 ++ [1, 2, 0, 0] ++
       leBytes 4 9 ++ [1]) []
     s.canonical = true ∧ s.mbxReady 63 0x202 none ∧ leAt (s.mbxPay 63) 0 2 = 4095 ∧ leAt (s.mbxPay 63) 8 8 = 2 ^ 52 - 64 ∧
       leAt (s.mbxPay 63) 32 1 = 1 ∧ (match s.slotOwner 4095 with | some (i, _) => s.mbxOwns 63 i | none => s.mbxPerm 63 10) = true) ∧
    (let s : State := wMbx 0x203 [0xFF, 0xFF, 7, 0, 2] []
     s.mbxReady 63 0x203 none ∧ leAt (s.mbxPay 63) 0 4 = 0x7FFFF ∧ leAt (s.mbxPay 63) 4 1 = 2 ∧ fmGet s.hqm.queues 0x7FFFF = none) ∧
    (let s : State := wMbx 0x204 [63, 0, 0, 0, 0, 0, 0, 0, 7, 0, 0, 0, 0, 0, 0, 0x90] []
     s.canonical = true ∧ s.mbxReady 63 0x204 (some 10) ∧ leAt (s.mbxPay 63) 0 1 = 63 ∧ leAt (s.mbxPay 63) 8 8 / 2 ^ 60 = 9) ∧
    (let s : State := wMbx 0x205 [63, 1] [(rInst 63 0, 0x10003)]
     s.mbxReady 63 0x205 none ∧ s.mbxOwns 63 63 = true ∧ s.instState 63 ≠ 0 ∧ s.instKind 63 ≠ 0 ∧ leAt (s.mbxPay 63) 1 1 = 1) ∧
    (let s : State := wMbx 0x301 [3, 1] [(rPtpClk 3 4, 1)]
     s.mbxReady 63 0x301 (some 8) ∧ s.bit (rPtpClk 3 4) 0 = true ∧ leAt (s.mbxPay 63) 0 1 = 3 ∧ leAt (s.mbxPay 63) 1 1 = 1) ∧
    (let s : State := wMbx 0x401 [5] []
     s.mbxReady 63 0x401 none ∧ leAt (s.mbxPay 63) 0 1 = 5) := by
  refine ⟨?_, ?_, ?_, ?_, ?_, ?_, ?_, ?_, ?_, ?_, ?_⟩ <;> decide +kernel

theorem witness_ModelCommandsLogsAndSelfTest :
    (let s : State := wMbx 0x502 [31] [(rModel 31 0, 2)]
     s.mbxReady 63 0x502 none ∧ leAt (s.mbxPay 63) 0 1 = 31 ∧ s.modelState 31 ≠ 0 ∧ s.mbxModel 63 31 = true ∧ s.evictable 31 = true) ∧
    (let s : State := wMbx 0x503 [31, 1] [(rModel 31 0, 2)]
     s.canonical = true ∧ s.mbxReady 63 0x503 none ∧ leAt (s.mbxPay 63) 1 1 = 1 ∧ s.modelState 31 ≠ 0 ∧ s.mbxModel 63 31 = true) ∧
    (let s : State := wMbx 0x504 [63, 31, 0, 0] [(rClick 63 0, 2)]
     s.mbxReady 63 0x504 none ∧ s.clickClass 63 ≠ 0 ∧ leAt (s.mbxPay 63) 1 1 = 31 ∧ s.mbxOwns 63 (s.clickInst 63) = true ∧
       s.modelState 31 = 0) ∧
    (let s : State := wMbx 0x505 [31] [(rModel 31 0, 2)]
     s.mbxReady 63 0x505 none ∧ leAt (s.mbxPay 63) 0 1 = 31 ∧ s.mbxModel 63 31 = true) ∧
    (let s : State := { wReg [(blkBase bSYS + 4, 0x100), (rProc 5 8, hbmBase % 2 ^ 32), (rProc 5 0xC, hbmBase / 2 ^ 32), (rProc 5 0x20, 1),
       (rFwp (0x1000 + 5 * 0x80 + 124), 0x80000000)] with fwp.trace := [(5, 1, 2, 9)] }
     s.canonical = true ∧ s.logLive = true ∧ s.poison = [] ∧
       (s.word (rProc 5 0x14) + 2 ^ 32 - s.word (rProc 5 0x18)) % 2 ^ 32 < s.logSize 5 ∧
       s.bit (rFwp (0x1000 + 5 * 0x80 + 1023 / 32 * 4)) (1023 % 32) = true ∧ fmGet s.fwp.trace 5 = some (1, 2, 9) ∧
       s.fld (rProc 5 0x20) 15 0 ≤ 1 ∧ s.fwp.events = [] ∧ 1 ≤ s.fld (rProc 5 0x20) 15 0) ∧
    (State.reset.bit (rFwp (0x1000 + 5 * 0x80)) 0 = false ∧ State.reset.sysWriter mTap = false ∧ State.reset.sysWriter (mFwp 1) = true ∧
      State.reset.isIsland mTap = false ∧ State.reset.isIsland mCollector = true ∧ State.reset.phase ≠ 3 ∧ State.reset.fwp.events = []) ∧
    ((wReg [(rFwp 0, 3)]).canonical = true ∧ (wReg [(rFwp 0, 3)]).phase = 3 ∧
      fmGet ({ State.reset with fwp.trace := [(5, 1, 0, 9)] } : State).fwp.trace 5 = some (1, 0, 9)) := by
  refine ⟨?_, ?_, ?_, ?_, ?_, ?_, ?_⟩ <;> decide +kernel

/-- One region of LPDDR, and an image of one page there. -/
theorem witness_ModelCommandsLogsAndSelfTest_install :
    let s : State := wMbx 0x501 (leBytes 8 lpBase ++ leBytes 8 4096 ++ [1]) [(rMem 0x200, 0x30001), (rMhs 0x18, 0x100000)]
    s.canonical = true ∧ s.mbxReady 63 0x501 none ∧
      ((match s.addrKind lpBase with | .lpddr _ _ => true | _ => false) && s.inMemory lpBase 4096) = true ∧
      s.mbxMemory 63 lpBase 4096 = true ∧ bitOf (s.mnat (lpBase + 6) 2) 0 = false ∧ s.bit (rSec 0xC) 0 = false ∧
      (State.makeRoom 4096 33 s).2 = some 0 ∧ (State.makeRoom 4096 33 s).1.canonical = true := by
  refine ⟨?_, ?_, ?_, ?_, ?_, ?_, ?_, ?_⟩ <;> decide +kernel

/-- A frame of an EtherType with its FCS. -/
def wFrame (typ : Nat) : List Byte := let f := beBytes 6 (2 ^ 48 - 1) ++ beBytes 6 5 ++ beBytes 2 typ ++ zeroBytes 46; f ++ leBytes 4 (crcFcs f)

theorem witness_FramesEnterAndLeaveTheMacs_receive :
    (let s : State := wReg [(rEthPort 13 4, 1), (rEthPort 13 0, 0x5EE0800)]
     s.ethLink 13 = true ∧ s.fld (rEthPort 13 0) 31 16 = 1518 ∧ (wFrame 0x8808).length = 64 ∧
       crcFcs ((wFrame 0x88F7).take 60) = leAt (wFrame 0x88F7) 60 4 ∧ s.macsec 13 = true ∧ s.macsec 7 = false ∧
       fType ((wFrame 0x8808).take 60) = 0x8808 ∧ fIsPtp ((wFrame 0x88F7).take 60) = true ∧
       fIsPtp ((wFrame 0x22F0).take 60) = false ∧ crcFcs ((wFrame 0x22F0).take 60) = leAt (wFrame 0x22F0) 60 4) ∧
    (let s : State := (wReg [(rEthPort 13 4, 1)]).bump (rEthPort 13 0x80)
     s.flowMatch 13 ((wFrame 0x22F0).take 60) = none ∧ s.ntscfMatch ((wFrame 0x22F0).take 60) = none) ∧
    (let s : State := (wReg [(rEthPort 13 4, 1), (rEth 0x47E0, 0xA000), (rEth 0x47E4, 0x9999), (rEth 0x47E8, 0xFFFFFFFF),
       (rEth 0x47EC, 0xFFFF)]).bump (rEthPort 13 0x80)
     s.flowMatch 13 ((wFrame 0x9999).take 60) = some 63 ∧ s.bit (rEth 0x47E0) 14 = false ∧
       crcFcs ((wFrame 0x9999).take 60) = leAt (wFrame 0x9999) 60 4) := by
  refine ⟨?_, ?_, ?_⟩ <;> decide +kernel

theorem witness_FramesEnterAndLeaveTheMacs_transmit :
    let fr (t : Nat) : EthFrame := ⟨(wFrame 0x9999).take 60, [], 16, 63, t, false, true⟩
    let q (t : Nat) : State → State := fun s => { s with eth.queues := [(15 * 8 + 7, [fr t])] }
    (let s : State := q 0 (wReg [(rEthPort 15 4, 1), (rEthPort 15 0, 0x20)])
     s.ethQueue 15 7 = [fr 0] ∧ s.ethLink 15 = true ∧ s.gateMax 15 7 = none ∧ s.ethReady 15 7 = true ∧ s.macsec 15 = false ∧
       fEventOff (sliceBytes (fr 0).data 0 60) = none ∧ (s.ethQueue 15 6 = [] ∧ (wReg []).ethLink 15 = false)) ∧
    (let s : State := { State.reset with eth.queues := [(17 * 8, [fr 0])] }
     s.ethQueue 17 0 = [fr 0]) ∧
    (let s : State := { q 1 (wReg [(rEthPort 15 4, 1), (rEthPort 15 0, 0x20)]) with
       eth.oper := [(15, [(0x80, 100), (0, 900)])], eth.operCycle := [(15, 1000)] }
     s.ethLink 15 = true ∧ s.gateMax 15 7 = some 100 ∧ 100 < s.txNs 15 (wireLen (fr 1).data) ∧ s.ethQueue 15 7 = [fr 1]) ∧
    (let s : State := { wReg [(rEthPort 13 4, 1), (rEthPort 13 0, 0x20)] with
       eth.queues := [(13 * 8 + 6, [fr 0]), (13 * 8 + 7, [fr 0])] }
     s.ethQueue 13 6 = [fr 0] ∧ s.gateMax 13 6 = none ∧ s.ethReady 13 7 = true) := by
  refine ⟨?_, ?_, ?_, ?_⟩ <;> decide +kernel

/-- Channel 63 of instance 0, whose TX queue is queue 9, with an entry for a frame of len bytes at HBM + 64. -/
def wChan (kind n len ts : Nat) (l : List (Nat × Nat)) : State :=
  ({ wReg ([(rInst 0 0, 0x10033), (rChan 63 0, kind * 64), (rChan 63 4, 9), (rChan 63 0x18, 2 ^ 15)] ++ l) with
     hqm.queues := [(9, ⟨hbmBase, 4, 1, 0, 0, 0, 0, 1, 0, 0, false⟩)] } : State).store hbmBase
    (leBytes 8 (hbmBase + 64) ++ leBytes 2 len ++ leBytes 2 ts ++ [0, BitVec.ofNat 8 n])

theorem witness_FramesEnterAndLeaveTheMacs_channel :
    State.reset.hqm.queues = [] ∧
    (let s := wChan 1 15 13 0 []
     let x : HqmQ := ⟨hbmBase, 4, 1, 0, 0, 0, 0, 1, 0, 0, false⟩
     fmGet s.hqm.queues (s.word (rChan 63 4) % 2 ^ 19) = some x ∧ x.count = 1 ∧ s.chanWaits 63 = false ∧ s.fld (rChan 63 0) 7 6 = 1 ∧
       readsBytes (s.rdV (some 0) mHqm 1 (x.base + x.head % x.size * x.entryBytes) 32).2 (fun e => leAt e 8 2 == 13) = true ∧
       readsBytes (s.rdLong (some 0) mHqm (hbmBase + 64) 13).2 (fun l => l.length == 13) = true) ∧
    (let s := wChan 1 15 14 0 []
     s.ethPorts 16 (zeroBytes 14) = 0) ∧
    (let s := ((wChan 1 15 14 0 [(rEthPort 15 4, 1)]).setTbl 1 0 (leBytes 4 0x1FFFF))
     s.ethPorts 16 (zeroBytes 14) ≠ 0 ∧ bitOf (s.ethPorts 16 (zeroBytes 14)) 15 = true ∧ s.ethLink 15 = true) ∧
    (let s := ((wChan 1 15 14 0 []).setTbl 1 0 (leBytes 4 0x18000))
     s.ethPorts 16 (zeroBytes 14) = 0x8000 ∧ s.ethLink 15 = false) ∧
    (let s := wChan 2 15 16 1 [(rCan 15 0, 1)]
     s.fld (rChan 63 0) 7 6 = 2 ∧ s.bit (rChan 63 0x18) 15 = true ∧ s.canFmt 15 = 0 ∧ cbFmt (zeroBytes 16) = 0 ∧ s.canOn 15 = true ∧
       (s.canTx 15).length < 32) := by
  refine ⟨?_, ?_, ?_, ?_, ?_, ?_⟩ <;> decide +kernel

theorem witness_FramesEnterAndLeaveTheMacs_link :
    State.reset.ethLink 15 = false ∧ State.reset.canonical = true ∧
    (let s : State := { wReg [(rEthPort 15 4, 1)] with eth.queues := [(15 * 8 + 7, [⟨[], [], 0, 0, 0, false, false⟩])] }
     s.canonical = true ∧ s.ethLink 15 = true ∧ s.eth.queues = [(15 * 8 + 7, [⟨[], [], 0, 0, 0, false, false⟩])]) := by
  refine ⟨?_, ?_, ?_⟩ <;> decide +kernel

theorem witness_SchedulesStampsAndTablesOfTheSwitch :
    (let s : State := { State.reset with eth.oper := [(13, [(1, 5)])] }
     s.operList 13 ≠ [] ∧ State.reset.operList 13 = []) ∧
    (State.reset.netMaster 9 = false ∧ State.reset.netMaster (mFwp 3) = true ∧ State.reset.bit (rEthPort 13 0x3C) 1 = false ∧
      (wReg [(rEthPort 13 0x3C, 2)]).bit (rEthPort 13 0x3C) 1 = true) ∧
    (let s : State := wReg [(rEthPort 13 0x38, 1000), (rEthPort 13 0x40, 7)]
     s.canonical = true ∧ s.word (rEthPort 13 0x38) ≠ 0 ∧ s.word64 (rEthPort 13 0x30) ≤ max (s.word64 (rEthPort 13 0x40)) (s.portNs 13)) ∧
    (let s : State := { State.reset with eth.swapAt := [(13, 0)] }
     s.canonical = true ∧ fmGet s.eth.swapAt 13 = some 0 ∧ s.portNs 13 = 0) ∧
    (let s : State := { State.reset with eth.swapAt := [(13, 9)] }
     fmGet s.eth.swapAt 13 = some 9 ∧ s.portNs 13 < 9) ∧
    (netReader 9 = false ∧ netReader (mFwp 3) = true) ∧
    (let s : State := { wReg [(rEth 0x20, 0x80020000)] with eth.mdioBusy := true }
     s.canonical = true ∧ s.eth.mdioBusy = true ∧ State.reset.eth.mdioBusy = false) ∧
    (tblCount 9 ≤ 0 ∧ (BitVec.toNat 16383#16 < tblCount 0) ∧ State.reset.bit (rEth 0x34) 0 = false ∧
      (State.reset.tblEntry 0 16383).length = 64) ∧
    (let s : State := wReg [(rEth 0x34, 1), (rEthPort 13 0x3C, 2)]
     s.canonical = true ∧ s.bit (rEth 0x34) 0 = true ∧ BitVec.toNat 3583#16 < tblCount 7 ∧ s.bit (rEthPort (3583 / 256) 0x3C) 1 = true ∧
       s.bit (rEthPort (3327 / 256) 0x3C) 1 = false) := by
  refine ⟨?_, ?_, ?_, ?_, ?_, ?_, ?_, ?_, ?_⟩ <;> decide +kernel

theorem witness_ClocksStepSlewAndPulse :
    (let s : State := wReg [(rPtpClk 3 0, 1), (rPtpClk 3 0xC, 8)]
     s.canonical = true ∧ s.ptpOn 3 = true ∧ s.ptpWriter (mFwp 3) none 3 false = true ∧ s.ptpWriter 9 (some 5) 3 false = false ∧
       s.ptpWriter (mFwp 3) none 3 true = true ∧ s.ptp.clk.length = 4 ∧ (BitVec.toNat (BitVec.ofNat 64 (9 * 2 ^ 32)) % 2 ^ 36 = 9 * 2 ^ 32) ∧
       s.word64 (rPtpClk 3 8) = 8 * 2 ^ 32 ∧ s.bit (rPtpClk 3 4) 0 = false ∧ (s.pclk 3).step = none ∧ (s.pclk 3).set = none) ∧
    (let inc : Int := 8 * 2 ^ 32
     let tot : Int := inc * 1000 + 4 * 2 ^ 32
     ¬((1000 * inc < 2000 * ((4 : Int) * 2 ^ 32).natAbs) ∨ tot < 7 * 2 ^ 32 * 1000 ∨ 9 * 2 ^ 32 * 1000 < tot)) ∧
    (let k : PtpClk := { PtpClk.reset with slewOn := true, slewTicks := 5, slewK := 5 }
     let s : State := { State.reset with ptp.clk := [.reset, .reset, .reset, k] }
     s.canonical = true ∧ (s.pclk 3).slewOn = true ∧ (s.pclk 3).slewK = (s.pclk 3).slewTicks ∧ s.ptp.clk.length = 4) ∧
    (let s : State := wReg [(rPtpClk 3 0, 1), (rPtpClk 3 0x34, 5), (rPtpClk 3 4, 1)]
     s.bit (rPtpClk 3 4) 0 = true ∧ (BitVec.toInt (5 : BitVec 64)).natAbs ≤ s.word (rPtpClk 3 0x34) ∧
       s.word (rPtpClk 3 0x34) < (BitVec.toInt (6 : BitVec 64)).natAbs) ∧
    (let k : PtpClk := { PtpClk.reset with step := some 7 }
     let s : State := { wReg [(rPtpClk 3 0, 1)] with ptp.clk := [.reset, .reset, .reset, k] }
     s.canonical = true ∧ (s.pclk 3).step = some 7 ∧ (∀ p, p < 14 → s.operList p = []) ∧
       (∀ n, n < 16 → s.axLive n = false) ∧ (0 : Int) ≤ s.ptpNs 3 + 7 ∧ (s.ptpNs 3 : Int) + 7 < 2 ^ 48 * 1000000000 ∧
       (s.ptpNs 3 : Int) + -1 < 0) ∧
    (let k : PtpClk := { PtpClk.reset with set := some (1, 7) }
     let s : State := { wReg [(rPtpClk 3 0, 1), (rPtpClk 3 4, 4), (rPtpClk 3 0x34, 2000000000)] with ptp.clk := [.reset, .reset, .reset, k] }
     (s.pclk 3).step = none ∧ (s.pclk 3).set = some (1, 7) ∧ s.bit (rPtpClk 3 4) 2 = true ∧
       ((1000000007 : Int) - s.ptpNs 3).natAbs ≤ s.word (rPtpClk 3 0x34)) ∧
    (let s : State := wReg [(rPtp 0x10, 7), (rPtp 0x14, 999999999), (rPtpClk 3 0, 1), (rPtpClk 3 0x18, 2)]
     bitOf (s.word (rPtp 0x10)) 2 = true ∧ s.ptpOn 3 = true ∧ s.fld (rPtp 0x14) 29 0 = 999999999 ∧ s.ptpNs 3 = 2000000000 ∧
       s.ptp.ppsFrom < 1999999999) ∧
    (let s : State := wReg [(rPtp 0x18, 7)]
     s.canonical = true ∧ s.ptp.ppsIn = false ∧ bitOf (s.word (rPtp 0x18)) 2 = true ∧ bitOf (s.word (rPtp 0x18)) 3 ≠ true) := by
  refine ⟨?_, ?_, ?_, ?_, ?_, ?_, ?_, ?_⟩ <;> decide +kernel

theorem witness_CanControllersCarryFrames :
    (let s : State := wReg [(rCan 15 0, 1)]
     s.canonical = true ∧ s.canOn 15 = true ∧ cbFmt (zeroBytes 16) ≤ s.canFmt 15 ∧ (∀ k, k < 16 → s.axLive k = false) ∧
       s.canFilter 15 (zeroBytes 16) = none ∧ s.canFmt 15 < cbFmt [0, 0, 0, 0, 1] ∧ State.reset.canOn 15 = false) ∧
    (let s : State := wReg [(rCan 15 0, 1), (rFilter 15 127 + 8, 0xC002)]
     ((s.bump (rCan 15 0x28)).travelCan 15 0 0 false []).canFilter 15 (zeroBytes 16) = some 0xC0 ∧ bitOf 0xC0 6 = true) ∧
    (let s : State := wReg [(rCan 15 0, 1), (rFilter 15 1 + 8, 0xBF02)]
     ((s.bump (rCan 15 0x28)).travelCan 15 0 0 false []).canFilter 15 (zeroBytes 16) = some 0xBF ∧ bitOf 0xBF 6 = false) ∧
    (let a : CanBuf := ⟨[5, 0], 0, 0⟩
     let b : CanBuf := ⟨[4, 0], 0, 0⟩
     let s : State := { wReg [(rCan 15 0, 1), (rCan 15 0x14, 0x8000)] with can.tx := [(15, [a, b, b])] }
     s.canonical = true ∧ s.canOn 15 = true ∧ s.canState 15 ≠ 2 ∧ s.bit (rCan 15 0) 3 = false ∧ s.bit (rCan 15 0) 4 = false ∧
       s.canTx 15 = [a] ++ b :: [b] ∧ (∀ c ∈ [a], cbRank b.buf < cbRank c.buf) ∧ (∀ c ∈ [b], cbRank b.buf ≤ cbRank c.buf) ∧
       s.fld (rCan 15 0x14) 15 8 = 128 ∧ s.fld (rCan 15 0x14) 23 16 = 0) ∧
    (let s : State := { wReg [(rCan 15 0, 1), (rCan 15 0x14, 0xFF02)] with can.recReq := [(15, true)] }
     s.canonical = true ∧ s.canState 15 = 2 ∧ (s.bit (rCan 15 0) 5 || fmGetD false s.can.recReq 15) = true ∧
       s.netMaster (mFwp 3) = true ∧ s.netMaster 5 = false) ∧
    (let s : State := { State.reset with can.acf := [(63, [[1], [2]])] }
     fmGetD [] s.can.acf 63 = [[1], [2]] ∧ max 1 (leAt (s.gws 63) 18 1) = 1) := by
  refine ⟨?_, ?_, ?_, ?_, ?_, ?_⟩ <;> decide +kernel

theorem witness_RailsTokensAndTemperaturesGovernPower_rails :
    (State.reset.railDue 11 = false ∧ State.reset.railDue 10 = true ∧ (State.reset.railLow 10 100 || State.reset.railHigh 10 100) = true ∧
      100 * 10 < State.reset.railMv 10 * 9 ∧ (State.reset.railLow 1 100 || State.reset.railHigh 1 100) = true ∧
      100 * 10 < State.reset.railMv 1 * 9 ∧ State.reset.canonical = true ∧
      (State.reset.railLow 10 750 || State.reset.railHigh 10 750) = false ∧ State.reset.fwp.boot ≠ 6 ∧
      (State.reset.showRail 10 750).railDiff ≤ 200) ∧
    (let s : State := { wReg [(rPwr 4, 0x10), (rVmon 11, 900), (rVmon 12, 0), (rVmon 13, 0x2000)] with fwp.boot := 6 }
     s.railDue 13 = true ∧ s.fwp.boot = 6 ∧ s.fld (rVmon 13) 13 12 ≠ 0 ∧ (s.railLow 13 850 || s.railHigh 13 850) = false ∧
       ∀ r, r = 11 ∨ r = 12 ∨ r = 13 → ((s.showRail 13 850).judgeDiff 13).fld (rVmon r) 13 12 = 0) := by
  refine ⟨?_, ?_⟩
  · decide +kernel
  · refine ⟨?_, ?_, ?_, ?_, ?_⟩
    · decide +kernel
    · decide +kernel
    · decide +kernel
    · decide +kernel
    · rintro r (rfl | rfl | rfl) <;> decide +kernel

theorem witness_RailsTokensAndTemperaturesGovernPower_tokens :
    let q : AdmReq := ⟨4, 5, 28, 40, 5000000, true, 0, false⟩
    let r : AdmReq := ⟨4, 4, 28, 41, 5000000, true, 0, false⟩
    let p : AdmReq := ⟨6, 3, 31, 1, 1, true, 0, false⟩
    (let s : State := { wReg [(rAdm 28 0, 0xFE001828 + 2 ^ 17)] with pwr.queue := [q] }
     s.pwr.queue = [q] ∧ s.admStopped q = false ∧ s.admFits 28 q = true ∧ s.admParent 28 = none ∧ q.arrived = s.now) ∧
    (let s : State := { wReg [(rAdm 28 0, 0xFE001828 + 2 ^ 17)] with pwr.queue := [q, r] }
     q.before r = false ∧ s.admFits 28 r = false ∧ s.admStopped q = false ∧ s.admStopped r = false) ∧
    (let s : State := { State.reset with pwr.queue := [p] }
     s.admStopped p = true ∧ s.canonical = true) ∧
    (let s : State := { State.reset with mc.selfRef := 8 }
     bitOf s.mc.selfRef 3 = true ∧ s.admRequest 2 3 = some ⟨2, 3, 21, 40, 6000000, true, 0, false⟩ ∧ s.admRequest 2 4 = none) ∧
    (let s : State := { wReg [(rPwr 0x24, 0x800), (rAdm 28 0, 0xFE000000)] with pwr.held := [(admKey 4 5, 40)] }
     s.admHeld 4 5 = 40 ∧ s.returnDue 4 5 = true ∧ s.admParent (admRailOf 4 5) = none) := by
  refine ⟨?_, ?_, ?_, ?_, ?_⟩ <;> decide +kernel

theorem witness_RailsTokensAndTemperaturesGovernPower_governor :
    (let s : State := wReg [(rPwr 0x140, 0x19695F55), (rPwr (0x40 + 4 * 51), 0x10000 + 95 * 16), (rDom 31, 1700)]
     s.canonical = true ∧ s.govCause 21 = true ∧ (s.govClk 21).ceil = none ∧ max (govFloor 21) (s.domMHz (govDom 21) - govStep 21) = 1600) ∧
    (State.reset.canonical = true ∧ bitOf State.reset.pwr.flags 7 = false ∧ (wReg [(rPwr 0x140, 0x19695F55)]).govCause 21 = false) ∧
    (let s : State := { wReg [(rDom 15, 1000), (rCel (0x100 + 60), 0)] with pwr.gov := [(15, ⟨some 1000, 0, 1, 0⟩)] }
     s.canonical = true ∧ (s.govClk 15).ceil = some 1000 ∧ (s.govClk 15).cool ≠ 0 ∧ s.panelGated 15 = false) := by
  refine ⟨?_, ?_, ?_⟩ <;> decide +kernel

theorem witness_AProfileChangeGoesStepByStep :
    let at_ (n : Nat) (l : List (Nat × Nat)) : State :=
      { wReg ([(rPwr 0x28, 0), (rCel (0x100 + 15 * 4), 0), (rCell 255 0, 2)] ++ l) with pwr.prof := some ⟨2, n, 0, 0x8000, 0x8000, 7, 0⟩ }
    (let s : State := wReg ((List.range 64).map fun l => (rLbl l 4, 0x20000))
     s.canonical = true ∧ s.profile = 1 ∧ s.pwr.prof = none ∧ s.profRefusal 0 = 0 ∧ ∀ k, k < 64 → s.clickClass k ≠ 2) ∧
    (let s : State := wReg [(rClick 63 0, 1), (rClick 63 0x5C, 2 ^ 31)]
     s.profRefusal 2 = 1 ∧ s.canonical = true ∧ s.profile ≠ 2) ∧
    ((at_ 2 []).canonical = true ∧ (at_ 2 []).cellBusy 255 = false ∧ (at_ 2 [(rCell 255 0, 5)]).cellBusy 255 = true ∧
      bitOf ((at_ 2 [(rPwr 0x18, 0x10001)]).word (rPwr 0x18)) 16 = true ∧ (at_ 2 []).clc.tasks = []) ∧
    ((at_ 9 []).procState 1 < 3 ∧ 3 ≤ (at_ 9 [(rProc 1 0, 3)]).procState 1 ∧ (at_ 4 []).canonical = true ∧ (at_ 5 []).panelTarget 15 2 = 1000 ∧ (at_ 6 []).pwr.held = [] ∧ (at_ 9 []).canonical = true) ∧
    (let c : ProfChg := ⟨2, 7, 0, 0x8000, 0x8000, 7, 0⟩
     (at_ 7 []).pwr.prof = some c ∧ setBitsOf c.trained 3 3 1 = 15) ∧
    (let c : ProfChg := ⟨2, 8, 0, 0x8000, 0x8000, 7, 0⟩
     (at_ 8 []).pwr.prof = some c ∧ bitOf c.woken 15 = true ∧ bitOf c.awake 15 = false ∧ (at_ 8 []).wakeTok 2 ≤ (at_ 8 []).admHeld 0 15) := by
  refine ⟨?_, ?_, ?_, ?_, ?_, ?_⟩ <;> decide +kernel

theorem witness_FusesKeysWindowsAndTheEngineAreGuarded :
    (let s : State := { State.reset with sec.fuses := 2 ^ 2 + 2 ^ 386 }
     s.canonical = true ∧ s.lifecycle = 0 ∧ s.rootKeyHash ≠ 0 ∧ s.debugKeyHash ≠ 0) ∧
    (let s : State := { State.reset with sec.fuses := 1 }
     s.canonical = true ∧ s.lifecycle ≠ 0 ∧ (∀ n, n = 0 ∨ n = 769 ∨ n = 835 ∨ n = 2980 →
       ¬(n < 2 ∧ s.lifecycle = 0 ∨ 770 ≤ n ∧ n ≤ 834 ∨ 2 ≤ n ∧ n < 2980 ∧ s.lifecycle = 0))) ∧
    (let s : State := wReg [(rSecWin 63 0xC, 0x8000000F)]
     s.canonical = true ∧ s.isIsland (mFwp 5) = false ∧ s.bit (rSecWin 63 0xC) 31 = true ∧ s.fld (rSecWin 63 0xC) 3 0 = 15 ∧
       s.isIsland mCollector = true) ∧
    (let s : State := wReg [(rSecWin 63 4, hbmBase / 2 ^ 32), (rSecWin 63 8, 64)]
     s.word64 (rSecWin 63 0) = hbmBase ∧ s.word (rSecWin 63 8) = 64 ∧ hbmBase + 64 ≤ hbmBase + s.hbmBytes ∧
       (∀ k, k < 64 → s.bit (rSecWin k 0xC) 31 = false) ∧ s.sysWriter mCollector = true ∧ s.sysWriter 5 = false) ∧
    (State.reset.word64 (rSecWin 63 0) < hbmBase) ∧
    (let s : State := { State.reset with sec.holder := some mTap.toNat }
     s.canonical = true ∧ (sysReader mTap || mTap == mTap) = true ∧ s.sec.holder = some mTap.toNat ∧ s.bit (rSec 0x18) 0 = false ∧
       (sysReader 5 || (5 : Master) == mTap) = false ∧ (s.sysWriter 5 || (5 : Master) == mTap) = false) ∧
    (State.reset.sec.holder = none ∧ State.reset.sec.op = none) ∧
    (let o : PkOp := ⟨11, true, 7, false, true⟩
     let s : State := { State.reset with sec.op := some o }
     s.canonical = true ∧ s.sec.op = some o) := by
  refine ⟨?_, ?_, ?_, ?_, ?_, ?_, ?_, ?_⟩
  · decide +kernel
  · refine ⟨by decide +kernel, by decide +kernel, ?_⟩
    rintro n (rfl | rfl | rfl | rfl) <;> decide +kernel
  all_goals decide +kernel

theorem witness_PublicKeyOperationsRunAndAnswer :
    (let s : State := { State.reset with sec.holder := some mTap.toNat }
     s.canonical = true ∧ (s.sysWriter mTap || mTap == mTap) = true ∧ s.sec.holder = some mTap.toNat ∧ s.bit (rSec 0x18) 0 = false ∧
       (s.sysWriter 5 || (5 : Master) == mTap) = false) ∧
    (∀ op, op < 12 → let s : State := { State.reset with sec.op := some ⟨op, false, 9, false, false⟩ }
     s.canonical = true ∧ s.sec.op = some ⟨op, false, 9, false, false⟩) ∧
    (let u := ({ State.reset with sec.op := some ⟨10, false, 0, false, false⟩, sec.holder := some mTap.toNat } : State)
     (u.timeTo 0).dmaReadLong (BitVec.ofNat 16 (u.sec.holder.getD 0)) (u.word64 (rSec 0x20) % 2 ^ 52) (u.word (rSec 0x28)) =
       (u, some ([], false))) := by
  refine ⟨?_, ?_, ?_⟩
  · decide +kernel
  · intro op h
    interval_cases op <;> decide +kernel
  · decide +kernel

theorem witness_TheTestPortSelectsShiftsAndUnlocks :
    (let s : State := { State.reset with sec.fuses := 1 }
     ¬(s.bit (rSec 0) 3 = true ∨ s.lifecycle = 0) ∧ s.canonical = true) ∧
    (let s : State := { State.reset with tap.held := 1 }
     s.lifecycle = 0 ∧ s.tap.held = 1 ∧ s.canonical = true ∧ State.reset.tap.held ≠ 1 ∧ State.reset.lifecycle = 0) ∧
    ((State.reset.sysWriter 5 || (5 : Master) == mTap) = false ∧ (State.reset.sysWriter mTap || mTap == mTap) = true) ∧
    (let s : State := { State.reset with sec.chal := true }
     s.canonical = true ∧ ¬(bitOf s.sec.fuses 834 = true ∨ s.fld (rSec 0) 6 5 = 3) ∧ s.sec.holder = none ∧ s.lifecycle = 0 ∧ s.sec.chal = true) ∧
    (let s : State := { wReg [(rSec 0, 0x60)] with sec.fuses := 2 ^ 834, sec.holder := some 1 }
     s.fld (rSec 0) 6 5 = 3 ∧ bitOf s.sec.fuses 834 = true ∧ s.sec.holder ≠ none) ∧
    (let s : State := wReg [(rSec 0, 8), (rPair 5 0, 5)]
     s.canonical = true ∧ s.bit (rSec 0) 3 = true ∧ s.pairState 5 = 5 ∧ BitVec.toNat (BitVec.ofNat 44 (5 * 2 ^ 41)) / 2 ^ 41 = 5) := by
  refine ⟨?_, ?_, ?_, ?_, ?_, ?_⟩ <;> decide +kernel

theorem witness_LowSpeedInterfacesTransferAndSignal :
    (State.reset.sysWriter 5 = false ∧ State.reset.sysWriter mCollector = true ∧ State.reset.canonical = true) ∧
    (let s : State := { wReg [(rUart 3 4, 0x80000000)] with per.tx := [(3, [7])], per.rx := [(3, List.replicate 64 7)] }
     s.canonical = true ∧ s.per.tx = (if s.uartTx 3 = [] then [] else [(3, s.uartTx 3)]) ∧ s.bit (rUart 3 4) 31 = true ∧
       64 ≤ (s.uartRx 3).length ∧ (State.reset.uartRx 3).length < 64 ∧ State.reset.bit (rUart 3 4) 31 = false) ∧
    (let s : State := wReg [(rI2c 3 8, 1), (rI2c 3 0, 0x80FF0800), (rSpi 3 8, 1), (rXspi 1 0x10, 0x80000000), (rUfs 0x10, 0x80000000)]
     s.canonical = true ∧ s.bit (rI2c 3 8) 0 = true ∧ s.bit (rI2c 3 0) 11 = true ∧ s.bit (rSpi 3 8) 0 = true ∧
       s.bit (rXspi 1 0x10) 31 = true ∧ s.bit (rUfs 0x10) 31 = true) ∧
    (State.reset.bit (rI2c 3 8) 0 = false ∧ State.reset.bit (rSpi 3 8) 0 = false ∧ State.reset.bit (rXspi 1 0x10) 31 = false ∧
      State.reset.bit (rUfs 0x10) 31 = false ∧ State.reset.bit (rPer 0x3014) 31 = false) := by
  refine ⟨?_, ?_, ?_, ?_⟩ <;> decide +kernel

/-- A word of layout A: opcode, DST, SRCA, SRCB, function and TYPE. -/
def wLayA (op d a b f t : Nat) : Nat := 2 ^ 58 * op + 2 ^ 48 * d + 2 ^ 42 * a + 2 ^ 36 * b + 2 ^ 30 * f + 2 ^ 24 * t

theorem witness_DivisionCornersGiveTheirStatedResults_salu : ∀ f, f = 0x14 ∨ f = 0x15 → ∀ t, t < 2 →
    let w := wLayA 1 31 3 4 f t
    let q : CGroup := (CGroup.reset.setS 3 (2 ^ 63) false).setS 4 (2 ^ 64 - 1) false
    (wCell w q).atWord 9 127 w ∧ wOp w = 1 ∧ wFn w = f ∧ wType w = t ∧ wPred w = 0 ∧ wRnd w = 0 ∧ layoutA w false = .ok () ∧
      0 < wDst w ∧ wDst w < 32 ∧ wA w < 32 ∧ wI w = false ∧ wB w < 32 ∧ (wCell w).atWord 9 127 w ∧
      ((wCell w).group 9 127).sreg (wB w) = 0 ∧ ((wCell w q).group 9 127).sreg (wA w) = 2 ^ 63 ∧
      ((wCell w q).group 9 127).sreg (wB w) = 2 ^ 64 - 1 := by
  rintro f (rfl | rfl) t ht <;> interval_cases t <;> decide +kernel

theorem witness_DivisionCornersGiveTheirStatedResults_talu : ∀ f, f = 0x14 ∨ f = 0x15 → ∀ t, t < 2 →
    let w := wLayA 0x10 31 0x23 0x24 f t
    let q : CGroup := (CGroup.reset.setS 3 (2 ^ 31) false).setS 4 (2 ^ 32 - 1) false
    let s := wCell w q
    s.atWord 9 127 w ∧ wOp w = 0x10 ∧ wFn w = f ∧ wType w = t ∧ (s.group 9 127).predOk w = .ok () ∧ wRnd w = 0 ∧
      layoutA w false = .ok () ∧ wI w = false ∧ wDst w < 32 ∧ (s.ctx 9 127).regsA w true false = .ok () ∧ wDst w < (s.cell 9).nregs ∧
      ((s.group 9 127).treg (wDst w)).length = 64 ∧ bitOf ((s.group 9 127).active w) 63 = true ∧
      ((s.group 9 127).lanes (wA w)).1.getD 63 0 = 2 ^ 31 ∧ ((s.group 9 127).lanes (wB w)).1.getD 63 0 = 2 ^ 32 - 1 ∧
      (((wCell w).group 9 127).lanes (wB w)).1.getD 63 0 = 0 := by
  rintro f (rfl | rfl) t ht <;> interval_cases t <;> decide +kernel

end Sys2Proof.Machine
end

section
/-! PROOF. Accesses of the register range: an address of a block, aligned and misaligned accesses, unassigned offsets (O13, O14). -/

namespace Sys2Proof.Machine

/-! An address of a block. -/

theorem blkBase_add_sub (k o : Nat) : blkBase k + o - csrBase = 0x100000 * k + o := by
  unfold blkBase
  omega

theorem block_of_addr (k : Nat) {o : Nat} (ho : o < 0x100000) : (blkBase k + o - csrBase) / 0x100000 = k := by
  rw [blkBase_add_sub]
  omega

theorem offset_of_addr (k : Nat) {o : Nat} (ho : o < 0x100000) : (blkBase k + o - csrBase) % 0x100000 = o := by
  rw [blkBase_add_sub]
  omega

theorem csrBase_le_addr (k o : Nat) : csrBase ≤ blkBase k + o := by
  unfold blkBase
  omega

theorem addr_lt {k o : Nat} (hk : k < 25) (ho : o < 0x100000) : blkBase k + o < 0x11900000 := by
  simp only [blkBase, csrBase]
  omega

theorem inCsr_addr {k o : Nat} (hk : k < 25) (ho : o < 0x100000) : inCsr (blkBase k + o) = true := by
  have h := addr_lt hk ho
  simp only [inCsr, Bool.and_eq_true, decide_eq_true_eq]
  exact ⟨csrBase_le_addr k o, h⟩

/-- An address has the alignment of its offset. -/
theorem addr_mod {n : Nat} (hn : n ∣ 0x100000) (k o : Nat) : (blkBase k + o) % n = o % n := by
  have h : n ∣ blkBase k := Nat.dvd_add (hn.trans (by decide)) (hn.mul_right k)
  rw [Nat.add_mod, Nat.mod_eq_zero_of_dvd h, Nat.zero_add, Nat.mod_mod]

/-! The commands as accesses of the register range. -/

theorem exec_registerWrite (s : State) (m : Master) (inst : Option (Fin 64)) {k o : Nat} (size : Fin 4) (v : BitVec 64) (hk : k < 25)
    (ho : o < 0x100000) :
    exec (.registerWrite m inst (BitVec.ofNat 52 (blkBase k + o)) size v) s =
      .next (s.regWrite m inst (blkBase k + o) size v.toNat) := by
  have e : (BitVec.ofNat 52 (blkBase k + o)).toNat = blkBase k + o :=
    Nat.mod_eq_of_lt (lt_trans (addr_lt hk ho) (by decide))
  change execRegisterWrite _ _ _ _ _ _ = _
  rw [execRegisterWrite, e, inCsr_addr hk ho, if_pos rfl]

theorem exec_wideRegisterLowerRead (s : State) (m : Master) (inst : Option (Fin 64)) {k o : Nat} (hk : k < 25) (ho : o < 0x100000) :
    exec (.wideRegisterLowerRead m inst (BitVec.ofNat 52 (blkBase k + o))) s = .next (s.regRead m inst (blkBase k + o) 2) := by
  have e : (BitVec.ofNat 52 (blkBase k + o)).toNat = blkBase k + o :=
    Nat.mod_eq_of_lt (lt_trans (addr_lt hk ho) (by decide))
  change execWideRegisterLowerRead _ _ _ _ = _
  rw [execWideRegisterLowerRead, e, inCsr_addr hk ho, if_pos rfl]

/-- A write that is narrower than 32 bits or misaligned is refused (R5). -/
theorem State.regWrite_misaligned (s : State) (m : Master) (inst : Option (Fin 64)) (k : Nat) {o size : Nat} (v : Nat)
    (h : size < 2 ∨ o % 2 ^ size ≠ 0) : s.regWrite m inst (blkBase k + o) size v = s.refuse m 2 (blkBase k + o) := by
  have h4 : ¬(size = 2 ∧ o % 4 = 0) := by rintro ⟨rfl, h0⟩; omega
  have h8 : ¬(size = 3 ∧ o % 8 = 0) := by rintro ⟨rfl, h0⟩; omega
  simp [State.regWrite, addr_mod (show 4 ∣ 0x100000 by decide), addr_mod (show 8 ∣ 0x100000 by decide), h4, h8]

/-- A read that is no aligned read of 4 or 8 bytes is refused (R5). -/
theorem State.regRead_misaligned (s : State) (m : Master) (inst : Option (Fin 64)) (k : Nat) {o size : Nat}
    (h4 : ¬(size = 2 ∧ o % 4 = 0)) (h8 : ¬(size = 3 ∧ o % 8 = 0)) :
    s.regRead m inst (blkBase k + o) size = s.refuse m 1 (blkBase k + o) := by
  simp [State.regRead, addr_mod (show 4 ∣ 0x100000 by decide), addr_mod (show 8 ∣ 0x100000 by decide), h4, h8]

/-- An aligned 32-bit write goes to the block and offset of its address. -/
theorem State.regWrite_aligned (s : State) (m : Master) (inst : Option (Fin 64)) (k : Nat) {o : Nat} (v : Nat) (ho : o < 0x100000)
    (h : o % 4 = 0) : s.regWrite m inst (blkBase k + o) 2 v = s.write32 m inst k o (v % 2 ^ 32) := by
  simp [State.regWrite, addr_mod (show 4 ∣ 0x100000 by decide), block_of_addr k ho, offset_of_addr k ho, h]

/-- An aligned 32-bit write, as a command. -/
theorem exec_registerWrite_aligned (s : State) (m : Master) (inst : Option (Fin 64)) {k o : Nat} (v : BitVec 64) (hk : k < 25)
    (ho : o < 0x100000) (h : o % 4 = 0) :
    exec (.registerWrite m inst (BitVec.ofNat 52 (blkBase k + o)) 2 v) s = .next (s.write32 m inst k o (v.toNat % 2 ^ 32)) := by
  rw [exec_registerWrite s m inst 2 v hk ho]
  exact congrArg Host.Outcome.next (s.regWrite_aligned m inst k v.toNat ho h)

/-- An aligned 32-bit read that finds a value answers its 4 bytes. -/
theorem State.regRead_aligned {s t : State} {m : Master} {inst : Option (Fin 64)} {k o v : Nat} (ho : o < 0x100000) (h : o % 4 = 0)
    (e : s.read32 m inst k o = (t, some v)) : s.regRead m inst (blkBase k + o) 2 = t.respOk (leBytes 4 v) := by
  simp [State.regRead, addr_mod (show 4 ∣ 0x100000 by decide), block_of_addr k ho, offset_of_addr k ho, h, e]

/-- An aligned 32-bit read that finds a value, as a command. -/
theorem exec_wideRegisterLowerRead_aligned {s t : State} {m : Master} {inst : Option (Fin 64)} {k o v : Nat} (hk : k < 25)
    (ho : o < 0x100000) (h : o % 4 = 0) (e : s.read32 m inst k o = (t, some v)) :
    exec (.wideRegisterLowerRead m inst (BitVec.ofNat 52 (blkBase k + o))) s = .next (t.respOk (leBytes 4 v)) := by
  rw [exec_wideRegisterLowerRead s m inst hk ho, State.regRead_aligned ho h e]

/-- A command whose next state is known runs to it. -/
theorem Runs.of_exec {c : Instr} {s t : State} {p : State → Prop} (e : exec c s = .next t) (h : p t) : Runs c s p := ⟨t, e, h⟩

/-! Transfers through the map. -/

theorem State.addrKind_csr (s : State) {k o : Nat} (hk : k < 25) (ho : o < 0x100000) : s.addrKind (blkBase k + o) = .csr := by
  have hlo := csrBase_le_addr k o
  have hhi := addr_lt hk ho
  have hrom : ¬blkBase k + o < 0x40000 := by simp only [csrBase] at hlo; omega
  have hsram : ¬blkBase k + o < 0x8800000 := by simp only [csrBase] at hlo; omega
  simp [State.addrKind, hrom, hsram, hlo, hhi]

/-- An access to the register range reaches it: no tile store holds it, and the map serves it. -/
theorem State.mapAccess_csr_read (s : State) (m : Master) (inst : Option (Fin 64)) {k o : Nat} (n : Nat) (l : List Byte) (bad : Bool)
    (hk : k < 25) (ho : o < 0x100000) :
    s.mapAccess m inst false (blkBase k + o) n l bad = s.regRead m inst (blkBase k + o) (sizeLog n) := by
  simp [State.mapAccess, State.holdTile, State.mapAnswer, s.addrKind_csr hk ho]

/-- A transfer that lies in one page is one request. -/
theorem pages_one {a n : Nat} (fuel : Nat) (hn : 0 < n) (h : a % 4096 + n ≤ 4096) : pages (fuel + 1) a n = [(a, n)] := by
  have hmin : min n (4096 - a % 4096) = n := by omega
  have hrest : pages fuel (a + n) 0 = [] := by cases fuel <;> rfl
  simp [pages, hmin, hrest, Nat.pos_iff_ne_zero.mp hn]

/-- A transfer of a system master that lies in one page is one request for its own address. -/
theorem State.access_system_page (s : State) (m : Master) (write : Bool) {a n : Nat} (l : List Byte) (bad : Bool) (hn : 0 < n)
    (h : a % 4096 + n ≤ 4096) : s.access m none write a n l bad = s.mapAccess m none write a n l bad := by
  rw [State.access, pages_one (n / 4096 + 1) hn h]
  rfl

theorem exec_fabricMemoryAccess_read {s : State} {m : Master} (inst : Option (Fin 64)) (a : BitVec 64) (n : Fin 4097) (l : List Byte)
    (bad : Bool) (inc : BitVec 8) (h : s.incarnOf m = none) :
    exec (.fabricMemoryAccess m inst false a n l bad inc) s = .next (s.access m inst false a.toNat n l bad) := by
  change execFabricMemoryAccess _ _ _ _ _ _ _ _ _ = _
  rw [execFabricMemoryAccess, h]
  rfl

end Sys2Proof.Machine

open Sys2Proof Sys2Proof.Machine

/-- Settles O13: each of the accesses is refused at the register range, whose size and alignment test it fails. -/
theorem registerAccessesAreNaturallyAligned : Obligations.RegisterAccessesAreNaturallyAligned := by
  unfold Obligations.RegisterAccessesAreNaturallyAligned
  refine ⟨fun s m inst k o size v hk ho hbad => ?write, fun s m inst k o hk ho hbad => ?read,
    fun s m k o n inc hk ho hn hn4 hpage hinc => ?fabric⟩
  case write =>
    rw [exec_registerWrite s m inst size v hk ho, s.regWrite_misaligned m inst k v.toNat hbad]
    exact ⟨_, rfl, rfl, rfl⟩
  case read =>
    rw [exec_wideRegisterLowerRead s m inst hk ho, s.regRead_misaligned m inst k (fun h => hbad h.2) (fun h => absurd h.1 (by decide))]
    exact ⟨_, rfl, rfl, rfl⟩
  case fabric =>
    have ha : (BitVec.ofNat 64 (blkBase k + o)).toNat = blkBase k + o :=
      Nat.mod_eq_of_lt (lt_trans (addr_lt hk ho) (by decide))
    have hlen : (Fin.ofNat 4097 n).val = n := Nat.mod_eq_of_lt (by omega)
    have hsize : sizeLog n ≠ 2 ∧ sizeLog n ≠ 3 := by interval_cases n <;> decide
    have hone : (blkBase k + o) % 4096 + n ≤ 4096 := by rwa [addr_mod (by decide)]
    rw [exec_fabricMemoryAccess_read none _ _ _ _ _ hinc, ha, hlen, s.access_system_page m false [] false hn hone,
      s.mapAccess_csr_read m none n [] false hk ho,
      s.regRead_misaligned m none k (fun h => hsize.1 h.1) (fun h => hsize.2 h.1)]
    exact ⟨_, rfl, rfl, rfl⟩

namespace Sys2Proof.Machine

/-! Offsets without a register. -/

/-- A read that the block admits finds 0 where no register is assigned, and is recorded (R8). -/
theorem State.read32_unassigned {s : State} {m : Master} {inst : Option (Fin 64)} {k o : Nat} (may : s.mayRead m inst k o = true)
    (h : findReg (blockRegs k) o = none) : s.read32 m inst k o = (s.accessFault m 1 (blkBase k + o), some 0) := by
  simp [State.read32, may, h]

/-- A write that the block admits is ignored where no register is assigned, and is recorded (R8). -/
theorem State.write32_unassigned {s : State} {m : Master} {inst : Option (Fin 64)} {k o : Nat} (v : Nat)
    (may : s.mayWrite m inst k o = true) (h : findReg (blockRegs k) o = none) :
    s.write32 m inst k o v = s.ignoreWr m (blkBase k + o) := by
  simp [State.write32, may, h]

end Sys2Proof.Machine

/-- Settles O14: the register range looks up the offset after the access rules, and finds no register. -/
theorem unassignedOffsetsReadZeroAndIgnoreWrites : Obligations.UnassignedOffsetsReadZeroAndIgnoreWrites := by
  unfold Obligations.UnassignedOffsetsReadZeroAndIgnoreWrites
  intro s m inst k o hk ho hal hnone
  refine ⟨fun may => ?read, fun v may => ?write⟩
  case read =>
    exact ⟨_, exec_wideRegisterLowerRead_aligned hk ho hal (State.read32_unassigned may hnone), rfl, rfl⟩
  case write =>
    rw [exec_registerWrite_aligned s m inst v hk ho hal, State.write32_unassigned _ may hnone]
    exact ⟨_, rfl, rfl, rfl⟩

end

section
/-! PROOF. Field access types and the halves of 64-bit registers (O15). -/

namespace Sys2Proof.Machine

/-! Field writes (R9, R10). -/

/-- Bit k lies in the field. -/
theorem testBit_fldMask (f : Fld) (k : Nat) : (fldMask f).testBit k = (decide (f.lo ≤ k) && decide (k - f.lo < f.hi + 1 - f.lo)) := by
  rw [fldMask, Nat.testBit_shiftLeft, Nat.testBit_two_pow_sub_one]

theorem bitOf_fldsWrite_inside {hi lo k : Nat} (old v r : Nat) (hlo : lo ≤ k) (hhi : k ≤ hi) :
    bitOf (fldsWrite old v [⟨hi, lo, .rw, r⟩]) k = bitOf v k ∧ bitOf (fldsWrite old v [⟨hi, lo, .wo, r⟩]) k = bitOf v k ∧
    bitOf (fldsWrite old v [⟨hi, lo, .w1c, r⟩]) k = (bitOf old k && !bitOf v k) ∧
    bitOf (fldsWrite old v [⟨hi, lo, .w1s, r⟩]) k = (bitOf old k || bitOf v k) ∧
    bitOf (fldsWrite old v [⟨hi, lo, .ro, r⟩]) k = bitOf old k := by
  have hw : k - lo < hi + 1 - lo := by omega
  have hk : lo + (k - lo) = k := by omega
  simp [fldsWrite, bitOf_eq, testBit_setBitsOf, testBit_fldMask, hlo, hhi, hw, hk, show lo ≤ hi + 1 by omega]

theorem bitOf_fldsWrite_outside {hi lo k : Nat} (old v r : Nat) (a : Acc) (hf : lo ≤ hi) (h : k < lo ∨ hi < k) :
    bitOf (fldsWrite old v [⟨hi, lo, a, r⟩]) k = bitOf old k := by
  have hout : ¬(lo ≤ k ∧ k ≤ hi) := by omega
  have hmask : (fldMask ⟨hi, lo, a, r⟩).testBit k = false := by
    simp only [testBit_fldMask, Bool.and_eq_false_iff, decide_eq_false_iff_not]
    omega
  cases a <;> simp [fldsWrite, bitOf_eq, testBit_setBitsOf, hout, hmask, show lo ≤ hi + 1 by omega]

/-! Registers as words. -/

/-- Bytes written least significant first read back as the number they can hold. -/
theorem leNat_leBytes : ∀ n x : Nat, leNat (leBytes n x) = x % 256 ^ n
  | 0, x => by simp [leBytes, leNat, Nat.mod_one]
  | n + 1, x => by
    rw [leBytes, leNat, leNat_leBytes n, BitVec.toNat_ofNat, Nat.shiftRight_eq_div_pow]
    exact (Nat.mod_mul (a := 256)).symm.trans (by rw [pow_succ'])

theorem leBytes_append : ∀ n k x : Nat, leBytes (n + k) x = leBytes n x ++ leBytes k (x >>> (8 * n))
  | 0, k, x => by simp [leBytes]
  | n + 1, k, x => by
    rw [Nat.succ_add, leBytes, leBytes, leBytes_append n k, ← Nat.shiftRight_add, List.cons_append, show 8 + 8 * n = 8 * (n + 1) by omega]

/-- The n bytes at the head of a list, read as a number. -/
theorem leAt_append_left (l r : List Byte) : leAt (l ++ r) 0 l.length = leNat l := by
  simp [leAt, sliceBytes, zeroBytes]

/-- The n bytes past the head of a list, read as a number. -/
theorem leAt_append_right (l r : List Byte) : leAt (l ++ r) l.length r.length = leNat r := by
  simp [leAt, sliceBytes, zeroBytes]

theorem wordsOf_leBytes_four (v : Nat) : wordsOf (leBytes 4 v) = [v % 2 ^ 32] := by
  have h := leAt_append_left (leBytes 4 v) []
  rw [List.append_nil, leBytes_length, leNat_leBytes] at h
  simp [wordsOf, leBytes_length, h]

theorem wordsOf_leBytes_eight (v : Nat) : wordsOf (leBytes 8 v) = [v % 2 ^ 32, v / 2 ^ 32 % 2 ^ 32] := by
  have e : leBytes 8 v = leBytes 4 v ++ leBytes 4 (v >>> 32) := leBytes_append 4 4 v
  have hlow := leAt_append_left (leBytes 4 v) (leBytes 4 (v >>> 32))
  have hhigh := leAt_append_right (leBytes 4 v) (leBytes 4 (v >>> 32))
  rw [leBytes_length, leNat_leBytes, ← e] at hlow
  rw [leBytes_length, leBytes_length, leNat_leBytes, ← e, Nat.shiftRight_eq_div_pow] at hhigh
  simp [wordsOf, leBytes_length, List.range_succ, hlow, hhigh]

theorem leNat_append (l r : List Byte) : leNat (l ++ r) = leNat l + 256 ^ l.length * leNat r := by
  induction l with
  | nil => simp [leNat]
  | cons b l ih => rw [List.cons_append, leNat, leNat, ih, List.length_cons, pow_succ]; ring

theorem State.regBytes_eight (s : State) (a : Nat) : leNat (s.regBytes a 8) = s.word64 a := by
  have e : s.regBytes a 8 = leBytes 4 (s.word a) ++ leBytes 4 (s.word (a + 4)) := by
    simp [State.regBytes, List.range_succ, leBytes]
  rw [e, leNat_append, leNat_leBytes, leNat_leBytes, leBytes_length]
  have hlow := s.word_lt a
  have hhigh := s.word_lt (a + 4)
  unfold State.word64
  omega

/-! Writes of registers by their fields. -/

theorem wordFlds_ne_shd {flds : List Fld} (h : (flds.all fun f => decide (f.acc ≠ .shd)) = true) (k : Nat) :
    ∀ f ∈ wordFlds k flds, f.acc ≠ .shd := by
  intro f hf
  simp only [wordFlds, List.mem_filterMap, Option.ite_none_left_eq_some, Option.some.injEq] at hf
  obtain ⟨g, hg, -, rfl⟩ := hf
  simpa using List.all_eq_true.mp h g hg

/-- A register without SHD fields takes a word at once. -/
theorem State.putWords_cons (s : State) {flds : List Fld} (h : (flds.all fun f => decide (f.acc ≠ .shd)) = true) (a k v : Nat)
    (r : List Nat) : s.putWords flds a k (v :: r) =
      (s.setWord (a + 4 * k) (fldsWrite (s.word (a + 4 * k)) v (wordFlds k flds))).putWords flds a (k + 1) r := by
  have hnow : (wordFlds k flds).filter (fun f => decide (f.acc ≠ .shd)) = wordFlds k flds :=
    List.filter_eq_self.mpr fun f hf => decide_eq_true (wordFlds_ne_shd h k f hf)
  have hwait : ((wordFlds k flds).any fun f => decide (f.acc = .shd)) = false :=
    List.any_eq_false.mpr fun f hf => by simpa using wordFlds_ne_shd h k f hf
  simp only [State.putWords, hnow, hwait]
  rfl

theorem State.putReg_word (s : State) {d : RegDesc} (hb : d.bits = 32) (h : (d.flds.all fun f => decide (f.acc ≠ .shd)) = true)
    (a v : Nat) : s.putReg d a v = s.setWord a (fldsWrite (s.word a) (v % 2 ^ 32) (wordFlds 0 d.flds)) := by
  rw [State.putReg, hb, wordsOf_leBytes_four, s.putWords_cons h]
  rfl

/-- A word of one RW field takes the value written. -/
theorem fldsWrite_whole {old v : Nat} (ho : old < 2 ^ 32) (hv : v < 2 ^ 32) (r : Nat) : fldsWrite old v [⟨31, 0, .rw, r⟩] = v := by
  have h : old >>> 32 = 0 := by rw [Nat.shiftRight_eq_div_pow]; omega
  simpa [fldsWrite, setBitsOf, h, Nat.mod_one] using hv

/-- A register word takes the low 32 bits of a number. -/
theorem State.setWord_mod (s : State) (a v : Nat) : s.setWord a (v % 2 ^ 32) = s.setWord a v := by
  have h : BitVec.ofNat 32 (v % 2 ^ 32) = BitVec.ofNat 32 v := BitVec.eq_of_toNat_eq (by simp [BitVec.toNat_ofNat])
  rw [State.setWord, State.setWord, h]

/-- A 64-bit register of one RW field takes the value written. -/
theorem State.putReg_rw64 (s : State) {d : RegDesc} {r : Nat} (hb : d.bits = 64) (h : d.flds = [⟨63, 0, .rw, r⟩]) (a v : Nat) :
    s.putReg d a v = s.setWord64 a v := by
  have hshd : ((d.flds).all fun f => decide (f.acc ≠ .shd)) = true := by rw [h]; rfl
  rw [State.putReg, hb, wordsOf_leBytes_eight, s.putWords_cons hshd, State.putWords_cons _ hshd, h,
    show wordFlds 0 [⟨63, 0, .rw, r⟩] = [⟨31, 0, .rw, 0⟩] from rfl, show wordFlds (0 + 1) [⟨63, 0, .rw, r⟩] = [⟨31, 0, .rw, 0⟩] from rfl,
    fldsWrite_whole (s.word_lt _) (Nat.mod_lt _ (by decide)), fldsWrite_whole (State.word_lt _ _) (Nat.mod_lt _ (by decide)),
    State.setWord_mod, State.setWord_mod, ← Nat.shiftRight_eq_div_pow]
  rfl

/-- A register without an operation of its own takes a write by its fields. -/
theorem State.regApply_fields {s : State} {m : Master} {inst : Option (Fin 64)} {k o v : Nat} (d : RegDesc) (hptp : k ≠ bPTP)
    (hper : k ≠ bPER) (h : s.wrHook m inst k o v = none) :
    s.regApply m inst k o v d = (s.putReg d (blkBase k + o) v).respOk [] := by
  simp [State.regApply, h, hptp, hper]

/-! 32-bit writes (R6, R638). -/

theorem State.write32_refused {s : State} {m : Master} {inst : Option (Fin 64)} {k o : Nat} (v : Nat)
    (may : s.mayWrite m inst k o = false) : s.write32 m inst k o v = s.refuse m 2 (blkBase k + o) := by
  simp [State.write32, may]

theorem State.write32_word {s : State} {m : Master} {inst : Option (Fin 64)} {k o i j : Nat} {d : RegDesc} (v : Nat)
    (may : s.mayWrite m inst k o = true) (h : findReg (blockRegs k) o = some (d, i, j, 0)) (hb : d.bits = 32) (ha : d.area = false) :
    s.write32 m inst k o v = s.regApply m inst k o v d := by
  simp [State.write32, may, h, hb, ha]

/-- The lower half is held for the master. -/
theorem State.write32_lower {s : State} {m : Master} {inst : Option (Fin 64)} {k o i j : Nat} {d : RegDesc} (v : Nat)
    (may : s.mayWrite m inst k o = true) (h : findReg (blockRegs k) o = some (d, i, j, 0)) (hb : d.bits = 64) (ha : d.area = false) :
    s.write32 m inst k o v = { s with holds := fmPut s.holds (holdKey m (blkBase k + o)) (BitVec.ofNat 32 v) }.respOk [] := by
  simp [State.write32, may, h, hb, ha, ceilDiv]

/-- With the lower half held, the upper half makes the whole register take effect. -/
theorem State.write32_upper {s : State} {m : Master} {inst : Option (Fin 64)} {k o i j : Nat} {d : RegDesc} {u : Word} (v : Nat)
    (may : s.mayWrite m inst k (o + 4) = true) (h : findReg (blockRegs k) (o + 4) = some (d, i, j, 4)) (hb : d.bits = 64)
    (ha : d.area = false) (held : fmGet s.holds (holdKey m (blkBase k + o)) = some u) :
    s.write32 m inst k (o + 4) v =
      (s.dropHolds m (blkBase k + o) 1).regApply m inst k o (u.toNat + 2 ^ 32 * (v % 2 ^ 32)) d := by
  have hbase : blkBase k + (o + 4) - 4 = blkBase k + o := by omega
  have hu : u.toNat % 4294967296 = u.toNat := Nat.mod_eq_of_lt u.isLt
  simp [State.write32, may, h, hb, ha, ceilDiv, hbase, State.heldWords, held, ofWords, hu]

/-! 32-bit reads (R6, R10). -/

theorem accMask_eq_zero {a : Acc} {flds : List Fld} (h : (flds.all fun f => decide (f.acc ≠ a)) = true) : accMask a flds = 0 := by
  induction flds with
  | nil => rfl
  | cons f r ih =>
    simp only [List.all_cons, Bool.and_eq_true, decide_eq_true_eq] at h
    simp [accMask, h.1, ih h.2]

/-- A 64-bit register without WO fields and without an operation of its own reads as it stands. -/
theorem State.regValue_64 {s : State} {m : Master} {inst : Option (Fin 64)} {k o : Nat} {d : RegDesc} (hb : d.bits = 64)
    (hwo : (d.flds.all fun f => decide (f.acc ≠ .wo)) = true) (h : s.rdHook m inst k o = none) :
    s.regValue m inst k o d = (s, s.word64 (blkBase k + o)) := by
  have hlt : s.word64 (blkBase k + o) < 2 ^ 64 := by
    have hlow := s.word_lt (blkBase k + o)
    have hhigh := s.word_lt (blkBase k + o + 4)
    unfold State.word64
    omega
  simp only [State.regValue, h, showMask, accMask_eq_zero hwo, hb, Nat.xor_zero, Nat.and_two_pow_sub_one_eq_mod]
  rw [show roundUp (64 / 8) 4 = 8 from rfl, s.regBytes_eight, Nat.mod_eq_of_lt hlt]

theorem State.captureWords_two (s : State) (m : Master) (a v : Nat) :
    s.captureWords m a 2 v = { s with caps := fmPut s.caps (holdKey m (a + 4)) (BitVec.ofNat 32 (v >>> 32)) } := rfl

/-- The lower half of such a register is read, and the upper half captured for the master. -/
theorem State.read32_lower {s : State} {m : Master} {inst : Option (Fin 64)} {k o i j : Nat} {d : RegDesc} (heth : k ≠ bETH)
    (may : s.mayRead m inst k o = true) (h : findReg (blockRegs k) o = some (d, i, j, 0)) (hb : d.bits = 64) (ha : d.area = false)
    (hwo : (d.flds.all fun f => decide (f.acc ≠ .wo)) = true) (hook : s.rdHook m inst k o = none) :
    s.read32 m inst k o =
      ({ s with caps := fmPut s.caps (holdKey m (blkBase k + o + 4)) (BitVec.ofNat 32 (s.word (blkBase k + o + 4))) },
        some (s.word (blkBase k + o))) := by
  have hlow : s.word64 (blkBase k + o) % 2 ^ 32 = s.word (blkBase k + o) := by
    have := s.word_lt (blkBase k + o)
    unfold State.word64
    omega
  have hhigh : s.word64 (blkBase k + o) >>> 32 = s.word (blkBase k + o + 4) := by
    have := s.word_lt (blkBase k + o)
    rw [Nat.shiftRight_eq_div_pow]
    unfold State.word64
    omega
  have hn : ceilDiv 64 32 = 2 := rfl
  simp only [State.read32, may, h, hb, ha, heth, State.regValue_64 hb hwo hook, hn, State.captureWords_two, hhigh, hlow]
  rfl

/-- The upper half that was captured for the master is what it reads. -/
theorem State.read32_captured {s : State} {m : Master} {inst : Option (Fin 64)} {k o i j : Nat} {d : RegDesc} {u : Word}
    (heth : k ≠ bETH) (may : s.mayRead m inst k o = true) (h : findReg (blockRegs k) o = some (d, i, j, 4)) (hb : d.bits = 64)
    (ha : d.area = false) (cap : fmGet s.caps (holdKey m (blkBase k + o)) = some u) :
    s.read32 m inst k o = ({ s with caps := fmDel s.caps (holdKey m (blkBase k + o)) }, some u.toNat) := by
  simp [State.read32, may, h, hb, ha, heth, cap]

end Sys2Proof.Machine

open Sys2Proof Sys2Proof.Machine

/-- Settles O15: each access is brought to its 32-bit write or read at the offset, and each of those to its effect on the words. -/
theorem registerFieldsFollowTheirAccessTypes : Obligations.RegisterFieldsFollowTheirAccessTypes := by
  unfold Obligations.RegisterFieldsFollowTheirAccessTypes
  refine ⟨fun old v hi lo r k hf => ⟨fun hk => bitOf_fldsWrite_inside old v r hk.1 hk.2, fun hk a =>
      bitOf_fldsWrite_outside old v r a hf hk⟩,
    fun s m inst k o i j v d hcan hk hptp hper ho hal hreg hb ha hshd may hook => ?word,
    fun s m inst k o v hk ho hal may => ?refused,
    fun s m inst k o i j r v d hcan hk hptp hper ho hal hreg hb ha hfld may => ?lower,
    fun s m inst k o i j r u v d hcan hk hptp hper ho hal hreg hb ha hfld may held hook => ?upper,
    fun s m inst k o i j d hk heth ho hal hreg hb ha hwo may hook => ?readLower,
    fun s m inst k o i j u d hk heth ho hal hreg hb ha may cap => ?readUpper⟩
  case word =>
    obtain ⟨-, hwf⟩ := State.canonical_iff.mp hcan
    have hw : s.write32 m inst k o (v.toNat % 2 ^ 32) = (s.setWord (blkBase k + o) (fldsWrite (s.word (blkBase k + o))
        (v.toNat % 2 ^ 32) (wordFlds 0 d.flds))).respOk [] := by
      rw [State.write32_word _ may hreg hb ha, State.regApply_fields d hptp hper hook, s.putReg_word hb hshd, Nat.mod_mod]
    refine .of_exec ((exec_registerWrite_aligned s m inst v hk ho hal).trans (congrArg _ hw)) ⟨?_, rfl, rfl, fun a hne => ?_⟩
    · exact State.word_setWord_same hwf _ _
    · exact State.word_setWord_other hwf _ (by simpa using hne)
  case refused =>
    rw [exec_registerWrite_aligned s m inst v hk ho hal, State.write32_refused _ may]
  case lower =>
    have hw := State.write32_lower (v.toNat % 2 ^ 32) may hreg hb ha
    have hv : BitVec.ofNat 32 (v.toNat % 2 ^ 32) = BitVec.ofNat 32 v.toNat := BitVec.eq_of_toNat_eq (by simp [BitVec.toNat_ofNat])
    refine .of_exec ((exec_registerWrite_aligned s m inst v hk (by omega) (by omega)).trans (congrArg _ hw)) ⟨?_, rfl, rfl⟩
    exact (fmGet_fmPut_same _ _ _).trans (congrArg some hv)
  case upper =>
    obtain ⟨-, hwf⟩ := State.canonical_iff.mp hcan
    have hookDrop : (s.dropHolds m (blkBase k + o) 1).wrHook m inst k o (u.toNat + 2 ^ 32 * (v.toNat % 2 ^ 32)) = none := hook
    have hw : s.write32 m inst k (o + 4) (v.toNat % 2 ^ 32) = ((s.dropHolds m (blkBase k + o) 1).setWord64 (blkBase k + o)
        (u.toNat + 2 ^ 32 * (v.toNat % 2 ^ 32))).respOk [] := by
      rw [State.write32_upper _ may hreg hb ha held, Nat.mod_mod, State.regApply_fields d hptp hper hookDrop,
        State.putReg_rw64 _ hb hfld]
    have hlt : u.toNat + 2 ^ 32 * (v.toNat % 2 ^ 32) < 2 ^ 64 := by have := u.isLt; omega
    refine .of_exec ((exec_registerWrite_aligned s m inst v hk ho (by omega)).trans (congrArg _ hw)) ⟨?_, rfl, rfl, fun a hne => ?_⟩
    · exact (State.word64_setWord64_same hwf _ _).trans (Nat.mod_eq_of_lt hlt)
    · simp only [List.mem_cons, List.not_mem_nil, or_false, not_or] at hne
      exact State.word_setWord64_other hwf _ hne.1 hne.2
  case readLower =>
    exact .of_exec (exec_wideRegisterLowerRead_aligned hk (by omega) (by omega) (State.read32_lower heth may hreg hb ha hwo hook))
      ⟨rfl, rfl, rfl, fmGet_fmPut_same _ _ _⟩
  case readUpper =>
    exact .of_exec (exec_wideRegisterLowerRead_aligned hk ho (by omega) (State.read32_captured heth may hreg hb ha cap))
      ⟨rfl, rfl, rfl, rfl⟩

end

section
/-! PROOF. Operations that write registers only, and what each register word reads after them. -/

namespace Sys2Proof.Machine

/-- Only registers at the addresses listed differ, and the register file is in canonical form. -/
structure RegsOnly (l : List Nat) (s t : State) : Prop where
  wf : regsWf t.regs = true
  word : RegsBut l s t
  rest : ∃ r, t = { s with regs := r }

namespace RegsOnly

variable {l : List Nat} {s t : State}

theorem refl (h : regsWf s.regs = true) : RegsOnly l s s := ⟨h, fun _ _ => rfl, _, rfl⟩

theorem setWord (h : RegsOnly l s t) {a : Nat} (v : Nat) (ha : a ∈ l) : RegsOnly l s (t.setWord a v) := by
  obtain ⟨r, rfl⟩ := h.rest
  refine ⟨State.setWord_regsWf h.wf a v, fun b hb => ?_, _, rfl⟩
  rw [State.word_setWord_other h.wf v (ne_of_mem_of_not_mem ha hb).symm, h.word b hb]

theorem setFld (h : RegsOnly l s t) {a : Nat} (hi lo v : Nat) (ha : a ∈ l) : RegsOnly l s (t.setFld a hi lo v) := h.setWord _ ha

theorem setBit (h : RegsOnly l s t) {a : Nat} (n : Nat) (b : Bool) (ha : a ∈ l) : RegsOnly l s (t.setBit a n b) := h.setWord _ ha

theorem orWord (h : RegsOnly l s t) {a : Nat} (m : Nat) (ha : a ∈ l) : RegsOnly l s (t.orWord a m) := h.setWord _ ha

theorem bump (h : RegsOnly l s t) {a : Nat} (ha : a ∈ l) : RegsOnly l s (t.bump a) := h.setWord _ ha

theorem bumpSat (h : RegsOnly l s t) {a : Nat} (hi lo : Nat) (ha : a ∈ l) : RegsOnly l s (t.bumpSat a hi lo) := h.setWord _ ha

theorem setWord64 (h : RegsOnly l s t) {a : Nat} (v : Nat) (ha : a ∈ l) (ha4 : a + 4 ∈ l) : RegsOnly l s (t.setWord64 a v) :=
  (h.setWord v ha).setWord _ ha4

theorem ite {p : Prop} [Decidable p] {u : State} (h : RegsOnly l s t) (k : RegsOnly l s u) : RegsOnly l s (if p then t else u) := by
  split
  · exact h
  · exact k

/-- A sequence of such operations, one for each item of a list. -/
theorem foldl {α : Type} {f : State → α → State} (items : List α) (h : RegsOnly l s t)
    (hf : ∀ u x, x ∈ items → RegsOnly l s u → RegsOnly l s (f u x)) : RegsOnly l s (items.foldl f t) := by
  induction items generalizing t with
  | nil => exact h
  | cons x r ih => exact ih (hf t x List.mem_cons_self h) fun u y hy => hf u y (List.mem_cons_of_mem _ hy)

theorem fld (h : RegsOnly l s t) {a : Nat} (hi lo : Nat) (ha : a ∉ l) : t.fld a hi lo = s.fld a hi lo := by
  rw [State.fld, h.word a ha, State.fld]

theorem bit (h : RegsOnly l s t) {a : Nat} (n : Nat) (ha : a ∉ l) : t.bit a n = s.bit a n := by
  rw [State.bit, h.word a ha, State.bit]

theorem mem (h : RegsOnly l s t) : t.mem = s.mem := by obtain ⟨r, rfl⟩ := h.rest; rfl

theorem wpe (h : RegsOnly l s t) : t.wpe = s.wpe := by obtain ⟨r, rfl⟩ := h.rest; rfl

end RegsOnly

/-- A count in a field is raised by 1, and stays at the field's largest value. -/
theorem State.fld_bumpSat_same {s : State} (h : regsWf s.regs = true) {a hi lo : Nat} (hl : lo ≤ hi) (hw : hi < 32) :
    (s.bumpSat a hi lo).fld a hi lo = min (s.fld a hi lo + 1) (2 ^ (hi + 1 - lo) - 1) := by
  rw [State.bumpSat, State.fld_setFld_same h _ hl hw]
  exact Nat.mod_eq_of_lt (by have := Nat.two_pow_pos (hi + 1 - lo); omega)

/-- A field of a word is that of any state with the same word. -/
theorem State.fld_congr {s t : State} {a : Nat} (h : t.word a = s.word a) (hi lo : Nat) : t.fld a hi lo = s.fld a hi lo := by
  rw [State.fld, h, State.fld]

end Sys2Proof.Machine
end

section
/-! PROOF. The buffers of the planning engine (R330 to R333). -/

namespace Sys2Proof.Machine

theorem State.bufState_setBuf_same {s : State} (h : regsWf s.regs = true) {b st : Nat} (hb : b < 3) (hst : st < 4) :
    (s.setBuf b st).bufState b = st := by
  rw [State.bufState, State.setBuf, State.fld_setFld_same h st (by omega) (by omega),
    show 4 * b + 1 + 1 - 4 * b = 2 by omega]
  omega

theorem State.bufState_setBuf_other {s : State} (h : regsWf s.regs = true) {b k : Nat} (st : Nat) (hk : k < 3) (hne : k ≠ b) :
    (s.setBuf b st).bufState k = s.bufState k :=
  State.fld_setFld_apart h st (by omega) (by omega) (by omega)

theorem State.newest_setBuf {s : State} (h : regsWf s.regs = true) {b : Nat} (st : Nat) (hb : b < 3) :
    (s.setBuf b st).newest = s.newest := State.fld_setFld_apart h st (by omega) (by omega) (by omega)

theorem RegsOnly.setBuf {l : List Nat} {s t : State} (h : RegsOnly l s t) (b st : Nat) (ha : rWpe 0x54 ∈ l) :
    RegsOnly l s (t.setBuf b st) := h.setFld _ _ _ ha

/-- What settling does to one buffer (R330). -/
def State.settleOne (s : State) (b : Nat) : State :=
  if decide (s.bufState b = 2) && decide (s.newest ≠ b) && !s.bufPlanPin b && !s.bufHeelPin b then s.setBuf b 0 else s

theorem State.settle_eq (s : State) : s.settle = (List.range 3).foldl State.settleOne s := rfl

/-- The newest buffer is kept. -/
theorem State.settleOne_newest {s : State} (h : regsWf s.regs = true) {k : Nat} (hk : k < 3) :
    (s.settleOne k).newest = s.newest ∧ (s.newest < 3 → (s.settleOne k).bufState s.newest = s.bufState s.newest) := by
  unfold State.settleOne
  split
  · next c =>
    simp only [Bool.and_eq_true, decide_eq_true_eq] at c
    exact ⟨State.newest_setBuf h 0 hk, fun hn => State.bufState_setBuf_other h 0 hn c.1.1.2⟩
  · exact ⟨rfl, fun _ => rfl⟩

theorem RegsOnly.settleOne {l : List Nat} {s t : State} (h : RegsOnly l s t) (k : Nat) (ha : rWpe 0x54 ∈ l) :
    RegsOnly l s (t.settleOne k) := .ite (h.setBuf k 0 ha) h

theorem RegsOnly.settle {l : List Nat} {s t : State} (h : RegsOnly l s t) (ha : rWpe 0x54 ∈ l) : RegsOnly l s t.settle :=
  .foldl _ h fun _ k _ hu => hu.settleOne k ha

theorem State.settle_newest {s : State} (h : regsWf s.regs = true) :
    s.settle.newest = s.newest ∧ (s.newest < 3 → s.settle.bufState s.newest = s.bufState s.newest) := by
  rw [State.settle_eq]
  have hk : ∀ k ∈ List.range 3, k < 3 := fun k hk => List.mem_range.mp hk
  generalize List.range 3 = l at hk
  induction l generalizing s with
  | nil => exact ⟨rfl, fun _ => rfl⟩
  | cons k r ih =>
    obtain ⟨hn, hb⟩ := State.settleOne_newest h (hk k List.mem_cons_self)
    have hwf := ((RegsOnly.refl (l := [rWpe 0x54]) h).settleOne k List.mem_cons_self).wf
    obtain ⟨hn', hb'⟩ := ih hwf fun j hj => hk j (List.mem_cons_of_mem _ hj)
    rw [hn] at hn' hb'
    exact ⟨hn', fun h3 => (hb' h3).trans (hb h3)⟩

theorem RegsOnly.movePlanPin {l : List Nat} {s t : State} (h : RegsOnly l s t) (b : Nat) (ha : rWpe 0x54 ∈ l) (hs : rWpeStatus ∈ l) :
    RegsOnly l s (t.movePlanPin b) :=
  ((RegsOnly.foldl _ h fun _ _ _ hu => hu.setBit _ _ ha).setFld _ _ _ hs).settle ha

theorem RegsOnly.moveHeelPin {l : List Nat} {s t : State} (h : RegsOnly l s t) (b : Nat) (ha : rWpe 0x54 ∈ l) (hs : rWpeStatus ∈ l) :
    RegsOnly l s (t.moveHeelPin b) :=
  ((RegsOnly.foldl _ h fun _ _ _ hu => hu.setBit _ _ ha).setFld _ _ _ hs).settle ha

theorem RegsOnly.wpeSync {l : List Nat} {s t : State} (h : RegsOnly l s t) (hs : rWpeStatus ∈ l) : RegsOnly l s t.wpeSync :=
  ((((h.setBit _ _ hs).setBit _ _ hs).setBit _ _ hs).setFld _ _ _ hs).setFld _ _ _ hs

end Sys2Proof.Machine
end

section
/-! PROOF. The world model's buffers and the inputs of the planner (O30). -/

namespace Sys2Proof.Machine

/-! Acquire, publish and abandon (R331, R332, R334). -/

/-- The lowest number below n of which a property holds. -/
theorem find?_range_lowest {n b : Nat} {p : Nat → Prop} [DecidablePred p] (hb : b < n) (h : p b) (hlow : ∀ k, k < b → ¬p k) :
    (List.range n).find? (fun k => decide (p k)) = some b := by
  rw [List.find?_range_eq_some]
  exact ⟨decide_eq_true h, List.mem_range.mpr hb, fun k hk => by simpa using hlow k hk⟩

theorem find?_range_none {n : Nat} {p : Nat → Prop} [DecidablePred p] (h : ∀ k, k < n → ¬p k) :
    (List.range n).find? (fun k => decide (p k)) = none :=
  List.find?_eq_none.mpr fun k hk => by simpa using h k (List.mem_range.mp hk)

/-- A read while a buffer is WRITING answers it. -/
theorem exec_epochAcqRead_writing {s : State} {m : Master} {inst : Option (Fin 64)} {b : Nat}
    (may : (sysReader m || s.wpeOwner inst 5 0) = true) (hb : b < 3) (hw : s.bufState b = 1) (hlow : ∀ k, k < b → s.bufState k ≠ 1) :
    exec (.epochAcqRead m inst) s = .next ((s.setWord (rWpe 0x4C) (0xC0000000 + b)).respOk (leBytes 4 (0xC0000000 + b))) := by
  change execEpochAcqRead m inst s = _
  have hv : b + 2 ^ 30 + 2 ^ 31 = 0xC0000000 + b := by omega
  simp only [execEpochAcqRead, may, find?_range_lowest hb hw hlow, hv]
  rfl

/-- Otherwise it answers the lowest FREE one, which becomes WRITING. -/
theorem exec_epochAcqRead_free {s : State} {m : Master} {inst : Option (Fin 64)} {b : Nat}
    (may : (sysReader m || s.wpeOwner inst 5 0) = true) (hb : b < 3) (hnone : ∀ k, k < 3 → s.bufState k ≠ 1) (hf : s.bufState b = 0)
    (hlow : ∀ k, k < b → s.bufState k ≠ 0) :
    exec (.epochAcqRead m inst) s =
      .next (((s.setBuf b 1).setWord (rWpe 0x4C) (0x80000000 + b)).respOk (leBytes 4 (0x80000000 + b))) := by
  change execEpochAcqRead m inst s = _
  have hv : b + 2 ^ 31 = 0x80000000 + b := by omega
  simp only [execEpochAcqRead, may, find?_range_none hnone, find?_range_lowest hb hf hlow, hv]
  rfl

/-- Otherwise it answers 0, counts the failure and raises the interrupt. -/
theorem exec_epochAcqRead_none {s : State} {m : Master} {inst : Option (Fin 64)}
    (may : (sysReader m || s.wpeOwner inst 5 0) = true) (h : ∀ k, k < 3 → s.bufState k ≠ 1 ∧ s.bufState k ≠ 0) :
    exec (.epochAcqRead m inst) s =
      .next ((((s.bumpSat (rWpe 0x5C) 15 0).orWord rWpeIrq 0x40).setWord (rWpe 0x4C) 0).respOk [0, 0, 0, 0]) := by
  change execEpochAcqRead m inst s = _
  simp only [execEpochAcqRead, may, find?_range_none fun k hk => (h k hk).1, find?_range_none fun k hk => (h k hk).2]
  rfl

theorem exec_epochPublish_notWriting {s : State} {m : Master} {inst : Option (Fin 64)} {b : Fin 4}
    (may : (s.sysWriter m || s.wpeOwner inst 5 0) = true) (h : b.val = 3 ∨ s.bufState b ≠ 1) :
    exec (.epochPublish m inst b) s = .next ((s.pubErr m).respOk []) := by
  change execEpochPublish m inst b s = _
  simp [execEpochPublish, may, h]

theorem exec_epochAbandon_notWriting {s : State} {m : Master} {inst : Option (Fin 64)} {b : Fin 4}
    (may : (s.sysWriter m || s.wpeOwner inst 5 0) = true) (h : b.val = 3 ∨ s.bufState b ≠ 1) :
    exec (.epochAbandon m inst b) s = .next (s.respOk []) := by
  change execEpochAbandon m inst b s = _
  have hn : ¬(b.val < 3 ∧ s.bufState b = 1) := by omega
  simp [execEpochAbandon, may, hn]

theorem exec_epochAbandon_writing {s : State} {m : Master} {inst : Option (Fin 64)} {b : Fin 4}
    (may : (s.sysWriter m || s.wpeOwner inst 5 0) = true) (hb : b.val < 3) (hw : s.bufState b = 1) :
    exec (.epochAbandon m inst b) s = .next ((s.setBuf b 0).respOk []) := by
  change execEpochAbandon m inst b s = _
  simp [execEpochAbandon, may, hb, hw]

/-- The checks of a publish: storage that answers without poison, and the header's own (R328, R332). -/
theorem exec_epochPublish_writing {s : State} {m : Master} {inst : Option (Fin 64)} {b : Fin 4}
    (may : (s.sysWriter m || s.wpeOwner inst 5 0) = true) (hb : b.val < 3) (hw : s.bufState b = 1) :
    exec (.epochPublish m inst b) s = .next (if s.rangeOk (mWpe 0) false (s.epochBase b) 0x300 = true ∧
      s.poisoned (s.epochBase b) 0x300 = false ∧ s.hdrOk (s.bytes (s.epochBase b) 256) = true then (s.publish b).respOk []
      else ((s.setBuf b 0).pubErr m).respOk []) := by
  change execEpochPublish m inst b s = _
  have hb3 : b.val ≠ 3 := by omega
  simp only [execEpochPublish, may, hb3, hw, Bool.not_true, Bool.false_eq_true, if_false, decide_false, Bool.false_or, ne_eq,
    not_true_eq_false, Bool.and_eq_true, Bool.not_eq_true', and_assoc, apply_ite Host.Outcome.next]

/-! Memory beside the registers. -/

theorem State.byte_congr {s t : State} (h : t.mem = s.mem) (a : Nat) : t.byte a = s.byte a := by rw [State.byte, h, State.byte]

theorem State.bytes_congr {s t : State} (h : t.mem = s.mem) (a n : Nat) : t.bytes a n = s.bytes a n := by
  rw [State.bytes, h, State.bytes]

/-- Without poison no range is poisoned. -/
theorem State.poisoned_of_nil {s : State} (h : s.poison = []) (a n : Nat) : s.poisoned a n = false := by
  simp [State.poisoned, h]

/-! An accepted publish. -/

/-- The number of the next epoch (R332). -/
def State.nextEpoch (s : State) : Nat := if s.word (rWpe 0x58) = 0xFFFFFFFF then 1 else s.word (rWpe 0x58) + 1

theorem State.nextEpoch_lt (s : State) : s.nextEpoch < 2 ^ 32 := by
  have := s.word_lt (rWpe 0x58)
  unfold State.nextEpoch
  split <;> omega

/-- The state with the epoch number written and the changed regions added, before the buffers' states change. -/
def State.numbered (s : State) (b : Nat) : State :=
  let u := ((s.store (s.epochBase b) (leBytes 4 s.nextEpoch)).setWord (rWpe 0x58) s.nextEpoch).addChanges (s.changedRegions b)
  { u with wpe := { u.wpe with bufNum := setAt u.wpe.bufNum b s.nextEpoch,
                               prevGeom := some ((s.epochHdr b).ox, (s.epochHdr b).oy, (s.epochHdr b).res) } }

theorem State.numbered_regsWf {s : State} (h : regsWf s.regs = true) (b : Nat) : regsWf (s.numbered b).regs = true :=
  State.setWord_regsWf h _ _

/-- Buffer b becomes PUBLISHED and the newest, and the buffers settle. -/
def State.makeNewest (s : State) (b : Nat) : State := ((s.setBuf b 2).setFld (rWpe 0x54) 13 12 b).settle

theorem State.makeNewest_regsOnly {s : State} (h : regsWf s.regs = true) (b : Nat) : RegsOnly [rWpe 0x54] s (s.makeNewest b) :=
  (((RegsOnly.refl h).setBuf b 2 (List.mem_singleton_self _)).setFld 13 12 b (List.mem_singleton_self _)).settle
    (List.mem_singleton_self _)

theorem State.makeNewest_newest {s : State} (h : regsWf s.regs = true) {b : Nat} (hb : b < 3) :
    (s.makeNewest b).newest = b ∧ (s.makeNewest b).bufState b = 2 := by
  have hbuf : regsWf (s.setBuf b 2).regs = true := State.setFld_regsWf h _ _ _ _
  have hnew : ((s.setBuf b 2).setFld (rWpe 0x54) 13 12 b).newest = b := by
    rw [State.newest, State.fld_setFld_same hbuf b (by omega) (by omega)]
    omega
  have hstate : ((s.setBuf b 2).setFld (rWpe 0x54) 13 12 b).bufState b = 2 := by
    rw [State.bufState, State.fld_setFld_apart hbuf b (by omega) (by omega) (by omega)]
    exact State.bufState_setBuf_same h hb (by decide)
  obtain ⟨hn, hs⟩ := State.settle_newest (State.setFld_regsWf hbuf (rWpe 0x54) 13 12 b)
  rw [hnew] at hn hs
  exact ⟨hn, (hs hb).trans hstate⟩

theorem State.publish_eq (s : State) (b : Nat) :
    s.publish b = (((s.numbered b).makeNewest b).judgePlan.judgeEngaged (s.changedRegions b)).wpeSync := rfl

theorem State.judgePlan_eq (s : State) : ∃ p, s.judgePlan = { s with wpe.plan := p } := by
  unfold State.judgePlan
  split
  · split
    · exact ⟨s.wpe.plan, rfl⟩
    · exact ⟨none, rfl⟩
  · exact ⟨s.wpe.plan, rfl⟩

theorem State.judgeEngaged_none {s : State} (h : s.wpe.engaged = none) (c : BitVec 4096) : s.judgeEngaged c = s := by
  simp [State.judgeEngaged, h]

/-- While no heel is engaged, a publish changes beside the numbered state the buffers' states, WPE_STATUS and the judged plan. -/
theorem State.publish_spec {s : State} (h : regsWf s.regs = true) (hen : s.wpe.engaged = none) {b : Nat} (hb : b < 3) :
    (∃ r p, s.publish b = { s.numbered b with regs := r, wpe.plan := p }) ∧
    RegsBut [rWpe 0x54, rWpeStatus] (s.numbered b) (s.publish b) ∧ (s.publish b).newest = b ∧ (s.publish b).bufState b = 2 := by
  have hreg := State.makeNewest_regsOnly (s.numbered_regsWf h b) b
  obtain ⟨hnewest, hstate⟩ := State.makeNewest_newest (s.numbered_regsWf h b) hb
  obtain ⟨p, hp⟩ := ((s.numbered b).makeNewest b).judgePlan_eq
  have heng : ((s.numbered b).makeNewest b).judgePlan.wpe.engaged = none := by
    rw [hp]
    exact (congrArg WpeS.engaged hreg.wpe).trans hen
  rw [State.publish_eq, State.judgeEngaged_none heng, hp]
  have hsync := (RegsOnly.refl (l := [rWpeStatus]) (s := { (s.numbered b).makeNewest b with wpe.plan := p }) hreg.wf).wpeSync
    (List.mem_singleton_self _)
  have h54 : rWpe 0x54 ∉ [rWpeStatus] := by simp [rWpeStatus, rWpe]
  refine ⟨?_, fun a ha => ?_, (hsync.fld _ _ h54).trans hnewest, (hsync.fld _ _ h54).trans hstate⟩
  · obtain ⟨r, hr⟩ := hreg.rest
    obtain ⟨q, hq⟩ := hsync.rest
    exact ⟨q, p, by rw [hq, hr]⟩
  · simp only [List.mem_cons, List.not_mem_nil, or_false, not_or] at ha
    exact (hsync.word a (by simpa using ha.2)).trans (hreg.word a (by simpa using ha.1))

/-- What an accepted publish writes: the number in the header and in WPE_EPOCH_LAST; and what it leaves (R332). -/
theorem State.publish_writes {s : State} (hmem : Memory.wf s.mem = true) (h : regsWf s.regs = true) (hen : s.wpe.engaged = none)
    {b : Nat} (hb : b < 3) :
    (s.publish b).word (rWpe 0x58) = s.nextEpoch ∧ (s.publish b).bytes (s.epochBase b) 4 = leBytes 4 s.nextEpoch ∧
    MemoryBut (s.epochBase b) 4 s (s.publish b) ∧ RegsBut [rWpe 0x58, rWpe 0x54, rWpeStatus] s (s.publish b) := by
  obtain ⟨⟨r, p, hpub⟩, hword, -⟩ := State.publish_spec h hen hb
  have hstored : (s.publish b).mem = (s.store (s.epochBase b) (leBytes 4 s.nextEpoch)).mem := by rw [hpub]; rfl
  refine ⟨?_, ?_, fun a ha => ?_, fun a ha => ?_⟩
  · exact (hword _ (by decide)).trans ((State.word_setWord_same h _ _).trans (Nat.mod_eq_of_lt s.nextEpoch_lt))
  · have hback := State.bytes_store hmem (s.epochBase b) (leBytes 4 s.nextEpoch)
    rw [leBytes_length] at hback
    exact (State.bytes_congr hstored _ _).trans hback
  · exact (State.byte_congr hstored a).trans (State.byte_store_outside hmem (by rwa [leBytes_length]))
  · simp only [List.mem_cons, List.not_mem_nil, or_false, not_or] at ha
    exact (hword a (by simp [ha])).trans (State.word_setWord_other h _ ha.1)

/-! Vehicle state and goal (R359). -/

theorem exec_vehicleStateCommit {s : State} {m : Master} {inst : Option (Fin 64)} (h : regsWf s.regs = true) (tv : BitVec 64)
    (may : (s.sysWriter m || s.wpeOwner inst 21 16) = true) :
    exec (.vehicleStateCommit m inst tv) s = .next ({ s.setWord64 (rWpe 0x90) tv.toNat with
      wpe.vs := some ⟨toSigned 32 (s.word (rWpe 0x80)), toSigned 32 (s.word (rWpe 0x84)), s.word (rWpe 0x88) % 65536,
        s.word (rWpe 0x8C) % 65536, tv.toNat⟩ }.respOk []) := by
  have hword (o : Nat) (ho : o < 0x90) : (s.setWord64 (rWpe 0x90) tv.toNat).word (rWpe o) = s.word (rWpe o) :=
    State.word_setWord64_other h _ (by unfold rWpe; omega) (by unfold rWpe; omega)
  change execVehicleStateCommit m inst tv s = _
  simp only [execVehicleStateCommit, may, State.fld, hword 0x80 (by decide), hword 0x84 (by decide), hword 0x88 (by decide),
    hword 0x8C (by decide)]
  rfl

theorem exec_goalSwap {s : State} {m : Master} {inst : Option (Fin 64)} (may : (s.sysWriter m || s.wpeOwner inst 13 8) = true) :
    exec (.goalSwap m inst) s = .next ((s.setBit (rWpe 0x70) 0 true).respOk []) := by
  change execGoalSwap m inst s = _
  simp [execGoalSwap, may]

/-! The start of a cycle (R336). -/

theorem exec_cycleStart_idle {s : State} (h : s.wpe.cycleSig = none) : exec .cycleStart s = .next s := by
  change execCycleStart s = _
  simp [execCycleStart, h]

theorem exec_cycleStart_off {s : State} {x : Nat × Bool} (h : s.wpe.cycleSig = some x) (off : s.bit (rWpe 0) 0 = false) :
    exec .cycleStart s = .next { s with wpe.cycleSig := none } := by
  have hoff : ({ s with wpe.cycleSig := none } : State).bit (rWpe 0) 0 = false := off
  change execCycleStart s = _
  simp [execCycleStart, h, hoff]

/-- The signal of the cycle tack is taken: the cycle's target and deadline. -/
def State.takeCycle (s : State) (t0 : Nat) (missed : Bool) : State :=
  { s with wpe := { s.wpe with cycleSig := none, t0 := t0, dTarget := s.word64 (rTack s.deadlineTack 0), cycled := true, fixed := false,
                               opened := !missed } }

theorem exec_cycleStart_missed {s : State} {t0 : Nat} (h : s.wpe.cycleSig = some (t0, true)) (on : s.bit (rWpe 0) 0 = true) :
    exec .cycleStart s = .next (s.takeCycle t0 true) := by
  have hon : ({ s with wpe.cycleSig := none } : State).bit (rWpe 0) 0 = true := on
  change execCycleStart s = _
  simp only [execCycleStart, h, hon]
  rfl

/-- The candidates that waited become those of the cycle. -/
def State.takeCands (s : State) : State :=
  { s with wpe := { s.wpe with cands := s.wpe.nextCands.map fun a => HeelCand.mk a false false none, nextCands := [] } }.setWord
    (rWpe 0x208) (0xF0000 + (2 ^ s.wpe.nextCands.length - 1))

/-- The inputs of a cycle whose tack has fired: its count, the pending changes, the goal and the candidates. -/
def State.cycleInputs (s : State) : State := (s.bump (rWpeCnt 0)).applyShadow.applySwap.takeCands

/-- The heel checker pins the newest epoch, and a run starts unless the cycle has one. -/
def State.cycleBegin (s : State) (t0 : Nat) : State :=
  (if s.pinHeel.cycleTaken t0 then s.pinHeel else s.pinHeel.startRun t0 false).wpeSync

theorem exec_cycleStart_fired {s : State} {t0 : Nat} (h : s.wpe.cycleSig = some (t0, false)) (on : s.bit (rWpe 0) 0 = true) :
    exec .cycleStart s = .next ((s.takeCycle t0 false).cycleInputs.cycleBegin t0) := by
  have hon : ({ s with wpe.cycleSig := none } : State).bit (rWpe 0) 0 = true := on
  change execCycleStart s = _
  simp only [execCycleStart, h, hon]
  rfl

/-- What the beginning of a run may change: the buffers' word, WPE_STATUS, and of the planner's state what the run holds. -/
structure RunOnly (s t : State) : Prop where
  wf : regsWf t.regs = true
  word : RegsBut [rWpe 0x54, rWpeStatus] s t
  mem : t.mem = s.mem
  wpe : ∃ l p h r q, t.wpe = { s.wpe with latched := l, chgPlan := p, chgHeel := h, run := r, results := q }

theorem RunOnly.refl {s : State} (h : regsWf s.regs = true) : RunOnly s s := ⟨h, fun _ _ => rfl, rfl, _, _, _, _, _, rfl⟩

theorem RunOnly.regs {s t u : State} (h : RunOnly s t) (k : RegsOnly [rWpe 0x54, rWpeStatus] t u) : RunOnly s u :=
  ⟨k.wf, fun a ha => (k.word a ha).trans (h.word a ha), k.mem.trans h.mem, by rw [k.wpe]; exact h.wpe⟩

/-- A change of what the run holds. -/
theorem RunOnly.upd {s t : State} (h : RunOnly s t) (l p c r q) :
    RunOnly s { t with wpe := { t.wpe with latched := l, chgPlan := p, chgHeel := c, run := r, results := q } } := by
  obtain ⟨_, _, _, _, _, hw⟩ := h.wpe
  exact ⟨h.wf, h.word, h.mem, l, p, c, r, q, by rw [hw]⟩

theorem RunOnly.wpeSync {s t : State} (h : RunOnly s t) : RunOnly s t.wpeSync := h.regs (RegsOnly.wpeSync (.refl h.wf) (by simp))

theorem RunOnly.pinPlan {s t : State} (h : RunOnly s t) : RunOnly s t.pinPlan :=
  (h.regs (RegsOnly.movePlanPin (.refl h.wf) t.newest (by simp) (by simp))).upd _ 0 _ _ _

theorem RunOnly.pinHeel {s t : State} (h : RunOnly s t) : RunOnly s t.pinHeel :=
  (h.regs (RegsOnly.moveHeelPin (.refl h.wf) t.newest (by simp) (by simp))).upd _ _ 0 _ _

/-- A first run begins, or ends at once with its code (R336, R337). -/
theorem RunOnly.startRun {s t : State} (h : RunOnly s t) (t0 : Nat) : RunOnly s (t.startRun t0 false) := by
  have hpin : RunOnly s t.latchVs.pinPlan := (h.upd _ _ _ _ _).pinPlan
  unfold State.startRun
  dsimp only
  generalize t.latchVs.pinPlan = u at hpin
  simp only [Bool.false_eq_true, if_false]
  split
  · exact (hpin.upd _ _ _ _ _).wpeSync
  · split
    · exact (hpin.upd _ _ _ _ _).wpeSync
    · split
      · exact (hpin.upd _ _ _ _ _).wpeSync
      · split
        · exact (hpin.upd _ _ _ _ _).wpeSync
        · split
          · exact (hpin.upd _ _ _ _ _).wpeSync
          · exact (hpin.upd _ _ _ _ _).wpeSync

theorem State.cycleBegin_runOnly {s : State} (h : regsWf s.regs = true) (t0 : Nat) : RunOnly s (s.cycleBegin t0) := by
  unfold State.cycleBegin
  split
  · exact (RunOnly.refl h).pinHeel.wpeSync
  · exact ((RunOnly.refl h).pinHeel.startRun t0).wpeSync

/-- Pending values change only the registers they wait for. -/
theorem State.applyShadow_regsOnly {s : State} (h : regsWf s.regs = true) :
    ∃ t, RegsOnly (s.wpe.shadow.map Prod.fst) s t ∧ s.applyShadow = { t with wpe.shadow := [] } :=
  ⟨_, .foldl _ (.refl h) fun _ _ hp hu => hu.setWord _ (List.mem_map_of_mem hp), rfl⟩

/-- A pending goal change takes effect and is no longer pending. -/
theorem State.applySwap_spec {s : State} (h : regsWf s.regs = true) :
    RegsOnly [rWpe 0x70] s s.applySwap ∧ s.applySwap.bit (rWpe 0x70) 0 = false ∧
    s.applySwap.bit (rWpe 0x70) 1 = (s.bit (rWpe 0x70) 1 ^^ s.bit (rWpe 0x70) 0) := by
  unfold State.applySwap
  split
  · next hs =>
    have hin : rWpe 0x70 ∈ [rWpe 0x70] := List.mem_singleton_self _
    have h1 := (RegsOnly.refl (l := [rWpe 0x70]) h).setBit 1 (!s.bit (rWpe 0x70) 1) hin
    refine ⟨h1.setBit 0 false hin, State.bit_setBit_same h1.wf false (by decide), ?_⟩
    rw [State.bit_setBit_apart h1.wf false (by decide) (by decide), State.bit_setBit_same h _ (by decide), hs, Bool.xor_true]
  · next hs =>
    rw [Bool.not_eq_true] at hs
    exact ⟨.refl h, hs, by rw [hs, Bool.xor_false]⟩

theorem State.takeCands_wpe (s : State) : s.takeCands.wpe =
    { s.wpe with cands := s.wpe.nextCands.map fun a => HeelCand.mk a false false none, nextCands := [] } := rfl

/-- What a cycle takes over, when no pending value waits for its count or for the goal's control. -/
theorem State.cycleInputs_spec {s : State} (h : regsWf s.regs = true)
    (hsh : ∀ p ∈ s.wpe.shadow, p.1 ≠ rWpeCnt 0 ∧ p.1 ≠ rWpe 0x70) :
    regsWf s.cycleInputs.regs = true ∧ s.cycleInputs.mem = s.mem ∧
    s.cycleInputs.wpe = { s.wpe with shadow := [], cands := s.wpe.nextCands.map fun a => HeelCand.mk a false false none,
                                     nextCands := [] } ∧
    s.cycleInputs.word (rWpeCnt 0) = (s.word (rWpeCnt 0) + 1) % 2 ^ 32 ∧
    s.cycleInputs.word (rWpe 0x208) = (0xF0000 + (2 ^ s.wpe.nextCands.length - 1)) % 2 ^ 32 ∧
    s.cycleInputs.bit (rWpe 0x70) 0 = false ∧ s.cycleInputs.bit (rWpe 0x70) 1 = (s.bit (rWpe 0x70) 1 ^^ s.bit (rWpe 0x70) 0) := by
  have hcnt : rWpeCnt 0 ∉ s.wpe.shadow.map Prod.fst := by
    rw [List.mem_map]; rintro ⟨p, hp, e⟩; exact (hsh p hp).1 e
  have hgoal : rWpe 0x70 ∉ s.wpe.shadow.map Prod.fst := by
    rw [List.mem_map]; rintro ⟨p, hp, e⟩; exact (hsh p hp).2 e
  have hbump : RegsOnly [rWpeCnt 0] s (s.bump (rWpeCnt 0)) := (RegsOnly.refl h).bump (List.mem_singleton_self _)
  obtain ⟨t, ht, hshadow⟩ := State.applyShadow_regsOnly hbump.wf
  obtain ⟨hswap, hbit0, hbit1⟩ := State.applySwap_spec (s := { t with wpe.shadow := [] }) ht.wf
  have hbits (n : Nat) : ({ t with wpe.shadow := [] } : State).bit (rWpe 0x70) n = s.bit (rWpe 0x70) n :=
    (ht.bit n hgoal).trans (hbump.bit n (by decide))
  rw [hbits, hbits] at hbit1
  rw [State.cycleInputs, hshadow]
  generalize ({ t with wpe.shadow := [] } : State).applySwap = u at *
  have hwpe : u.wpe = { s.wpe with shadow := [] } := by
    rw [hswap.wpe]
    change { t.wpe with shadow := [] } = _
    rw [ht.wpe]
    rfl
  have hcands : u.wpe.nextCands = s.wpe.nextCands := by rw [hwpe]
  have hother {a : Nat} (ha : a ≠ rWpe 0x208) : u.takeCands.word a = u.word a := State.word_setWord_other hswap.wf _ ha
  refine ⟨State.setWord_regsWf hswap.wf _ _, hswap.mem.trans (ht.mem.trans hbump.mem), ?_, ?_, ?_, ?_, ?_⟩
  · rw [State.takeCands_wpe, hwpe]
  · rw [hother (by decide), hswap.word _ (by decide), ← State.word_bump_same h]
    exact ht.word _ hcnt
  · rw [← hcands]
    exact State.word_setWord_same hswap.wf _ _
  · rw [State.bit, hother (by decide)]
    exact hbit0
  · rw [State.bit, hother (by decide)]
    exact hbit1

/-! Heel candidates (R350). -/

/-- The address that a write of WPE_HEEL_SUBMIT names. -/
def heelAddr (d : BitVec 64) : Nat := 64 * bitsOf d.toNat 51 6

/-- A submission for the open cycle: a candidate more, or OVERFLOW when 4 wait. -/
theorem exec_heelSubmit_open {s : State} {m : Master} (d : BitVec 64) (may : s.isIsland m = true)
    (h : s.wpe.opened = true) (hf : s.wpe.fixed = false) :
    exec (.heelSubmit m d) s = .next ((if s.wpe.cands.length < 4 then
        { s with wpe.cands := s.wpe.cands ++ [HeelCand.mk (heelAddr d) false false none] }.setBit rHeelSt s.wpe.cands.length true
      else s.setBit rHeelSt 22 true).respOk []) := by
  change execHeelSubmit m d s = _
  by_cases hl : s.wpe.cands.length < 4
  · simp [execHeelSubmit, may, h, hf, hl, heelAddr, Nat.mul_comm]
  · simp [execHeelSubmit, may, h, hf, hl, Nat.not_lt.mp hl]

/-- A submission for the next cycle. -/
theorem exec_heelSubmit_closed {s : State} {m : Master} (d : BitVec 64) (may : s.isIsland m = true)
    (h : s.wpe.opened = false ∨ s.wpe.fixed = true) :
    exec (.heelSubmit m d) s = .next ((if s.wpe.nextCands.length < 4 then
        { s with wpe.nextCands := s.wpe.nextCands ++ [heelAddr d] }
      else s.setBit rHeelSt 22 true).respOk []) := by
  change execHeelSubmit m d s = _
  have hc : (s.wpe.opened && !s.wpe.fixed) = false := by rcases h with h | h <;> simp [h]
  by_cases hl : s.wpe.nextCands.length < 4
  · simp [execHeelSubmit, may, hc, hl, heelAddr, Nat.mul_comm]
  · simp [execHeelSubmit, may, hc, hl, Nat.not_lt.mp hl]

end Sys2Proof.Machine

open Sys2Proof Sys2Proof.Machine

/-- Settles O30: each command is brought to its next state, and the words and fields of that state are read off. -/
theorem epochsInputsAndCyclesOfThePlanner : Obligations.EpochsInputsAndCyclesOfThePlanner := by
  unfold Obligations.EpochsInputsAndCyclesOfThePlanner
  refine ⟨fun s m inst b hcan may hb hw hlow => ?writing, fun s m inst b hcan may hb hnone hf hlow => ?free,
    fun s m inst hcan may h => ?none, fun s m inst b d tv hsys h50 h138 h2116 => ?refused,
    fun s m inst b may h => ⟨exec_epochPublish_notWriting may h, exec_epochAbandon_notWriting may h⟩,
    fun s m inst b hcan may hb hw => ⟨?abandon, fun hbad => ?badHeader⟩,
    fun s m inst b hcan may hb hw hrange hpois hhdr hen => ?publish, fun s m inst tv hcan may => ?vehicle,
    fun s m inst hcan may => ?goal, fun s h => exec_cycleStart_idle h, fun s x h off => exec_cycleStart_off h off,
    fun s t0 h on => .of_exec (exec_cycleStart_missed h on) ⟨rfl, rfl, rfl⟩,
    fun s t0 hcan h on hsh hlen => ?fired, fun s m d hcan may ho hf => ?submitOpen, fun s m d hcan may h => ?submitClosed⟩
  case writing =>
    obtain ⟨-, hwf⟩ := State.canonical_iff.mp hcan
    have hr := (RegsOnly.refl (l := [rWpe 0x4C]) hwf).setWord (0xC0000000 + b) (List.mem_singleton_self _)
    refine .of_exec (exec_epochAcqRead_writing may hb hw hlow) ⟨rfl, ?_, hr.word, rfl, rfl⟩
    exact (State.word_setWord_same hwf _ _).trans (Nat.mod_eq_of_lt (by omega))
  case free =>
    obtain ⟨-, hwf⟩ := State.canonical_iff.mp hcan
    have hbuf := (RegsOnly.refl (l := [rWpe 0x4C, rWpe 0x54]) hwf).setBuf b 1 (by simp)
    have h54 : rWpe 0x54 ≠ rWpe 0x4C := by decide
    have hword : ((s.setBuf b 1).setWord (rWpe 0x4C) (0x80000000 + b)).word (rWpe 0x54) = (s.setBuf b 1).word (rWpe 0x54) :=
      State.word_setWord_other hbuf.wf _ h54
    refine .of_exec (exec_epochAcqRead_free may hb hnone hf hlow) ⟨rfl, ?_, fun k hk hne => ?_, ?_,
      (hbuf.setWord _ (by simp)).word, rfl⟩
    · exact (State.fld_congr hword _ _).trans (State.bufState_setBuf_same hwf hb (by decide))
    · exact (State.fld_congr hword _ _).trans (State.bufState_setBuf_other hwf 1 hk hne)
    · exact (State.fld_congr hword _ _).trans (State.newest_setBuf hwf 1 hb)
  case none =>
    obtain ⟨-, hwf⟩ := State.canonical_iff.mp hcan
    have h1 := (RegsOnly.refl (l := [rWpe 0x4C, rWpe 0x5C, rWpeIrq]) hwf).bumpSat (a := rWpe 0x5C) 15 0 (by simp)
    have h2 := h1.orWord (a := rWpeIrq) 0x40 (by simp)
    refine .of_exec (exec_epochAcqRead_none may h) ⟨rfl, State.word_setWord_same h2.wf _ _, ?_, ?_,
      (h2.setWord 0 (by simp)).word, rfl⟩
    · change State.bit (State.setWord _ _ _) _ _ = _
      rw [State.bit, State.word_setWord_other h2.wf _ (by decide), ← State.bit, State.bit_orWord_same h1.wf _ _ (by decide)]
      exact Bool.or_true _
    · have hother : ((((s.bumpSat (rWpe 0x5C) 15 0).orWord rWpeIrq 0x40).setWord (rWpe 0x4C) 0).respOk [0, 0, 0, 0]).word (rWpe 0x5C) =
          (s.bumpSat (rWpe 0x5C) 15 0).word (rWpe 0x5C) :=
        (State.word_setWord_other h2.wf _ (by decide)).trans (State.word_orWord_other h1.wf _ (by decide))
      exact (State.fld_congr hother _ _).trans (State.fld_bumpSat_same hwf (by decide) (by decide))
  case refused =>
    exact ⟨fun hr => if_pos (by simp [hr, h50]), if_pos (by simp [hsys, h50]), if_pos (by simp [hsys, h50]),
      if_pos (by simp [hsys, h2116]), if_pos (by simp [hsys, h138]), fun hi => if_pos (by simp [hi])⟩
  case abandon =>
    obtain ⟨-, hwf⟩ := State.canonical_iff.mp hcan
    have hr := (RegsOnly.refl (l := [rWpe 0x54]) hwf).setBuf b 0 (List.mem_singleton_self _)
    exact .of_exec (exec_epochAbandon_writing may hb hw) ⟨State.bufState_setBuf_same hwf hb (by decide),
      fun k hk hne => State.bufState_setBuf_other hwf 0 hk (Fin.val_ne_of_ne hne), State.newest_setBuf hwf 0 hb, hr.word, rfl, rfl, rfl⟩
  case badHeader =>
    rw [exec_epochPublish_writing may hb hw, if_neg]
    rintro ⟨hrange, hpois, hhdr⟩
    rw [hrange, hpois, hhdr] at hbad
    simp at hbad
  case publish =>
    obtain ⟨hmem, hwf⟩ := State.canonical_iff.mp hcan
    have hok : exec (.epochPublish m inst b) s = .next ((s.publish b).respOk []) := by
      rw [exec_epochPublish_writing may hb hw, if_pos ⟨hrange, State.poisoned_of_nil hpois _ _, hhdr⟩]
    obtain ⟨hnum, hhead, hbytes, hregs⟩ := State.publish_writes hmem hwf hen hb
    obtain ⟨⟨r, p, hpub⟩, -, hnewest, hstate⟩ := State.publish_spec hwf hen hb
    exact .of_exec hok ⟨hnum, hhead, hbytes, hnewest, hstate, by rw [State.respOk_wpe, hpub]; rfl,
      by rw [State.respOk_wpe, hpub]; rfl, hregs, rfl⟩
  case vehicle =>
    obtain ⟨-, hwf⟩ := State.canonical_iff.mp hcan
    have hr := (RegsOnly.refl (l := [rWpe 0x90, rWpe 0x94]) hwf).setWord64 (a := rWpe 0x90) tv.toNat (by simp) (by simp [rWpe])
    refine .of_exec (exec_vehicleStateCommit hwf tv may) ⟨rfl, ?_, hr.word, rfl, rfl⟩
    exact (State.word64_setWord64_same hwf _ _).trans (Nat.mod_eq_of_lt tv.isLt)
  case goal =>
    obtain ⟨-, hwf⟩ := State.canonical_iff.mp hcan
    have hr := (RegsOnly.refl (l := [rWpe 0x70]) hwf).setBit 0 true (List.mem_singleton_self _)
    exact .of_exec (exec_goalSwap may) ⟨State.bit_setBit_same hwf true (by decide),
      State.bit_setBit_apart hwf true (by decide) (by decide), hr.word, rfl, rfl, rfl⟩
  case fired =>
    obtain ⟨-, hwf⟩ := State.canonical_iff.mp hcan
    obtain ⟨hin, hmem, hwpe, hcnt, hst, hgoal0, hgoal1⟩ := State.cycleInputs_spec (s := s.takeCycle t0 false) hwf hsh
    have hrun := State.cycleBegin_runOnly hin t0
    obtain ⟨l, p, c, r, q, hw⟩ := hrun.wpe
    rw [hwpe] at hw
    have hlt : 0xF0000 + (2 ^ s.wpe.nextCands.length - 1) < 2 ^ 32 := by
      have hpow : 2 ^ s.wpe.nextCands.length ≤ 2 ^ 4 := Nat.pow_le_pow_right (by decide) hlen
      omega
    refine .of_exec (exec_cycleStart_fired h on) ⟨by rw [hw]; rfl, by rw [hw]; rfl, by rw [hw]; rfl, by rw [hw]; rfl, by rw [hw],
      by rw [hw], by rw [hw]; rfl, ?_, ?_, ?_, ?_, hrun.mem.trans hmem⟩
    · exact (hrun.word _ (by decide)).trans hcnt
    · exact (hrun.word _ (by decide)).trans (hst.trans (Nat.mod_eq_of_lt hlt))
    · rw [State.bit, hrun.word _ (by decide)]
      exact hgoal0
    · rw [State.bit, hrun.word _ (by decide)]
      exact hgoal1
  case submitOpen =>
    obtain ⟨-, hwf⟩ := State.canonical_iff.mp hcan
    refine .of_exec (exec_heelSubmit_open d may ho hf) ?_
    split
    · next hl =>
      have hr := (RegsOnly.refl (l := [rHeelSt]) hwf).setBit s.wpe.cands.length true (List.mem_singleton_self _)
      exact ⟨fun _ => ⟨rfl, State.bit_setBit_same hwf true (by omega)⟩, fun h => absurd hl (Nat.not_lt.mpr h), hr.word, rfl, rfl⟩
    · next hl =>
      have hr := (RegsOnly.refl (l := [rHeelSt]) hwf).setBit 22 true (List.mem_singleton_self _)
      exact ⟨fun h => absurd h hl, fun _ => ⟨rfl, State.bit_setBit_same hwf true (by decide)⟩, hr.word, rfl, rfl⟩
  case submitClosed =>
    obtain ⟨-, hwf⟩ := State.canonical_iff.mp hcan
    refine .of_exec (exec_heelSubmit_closed d may h) ?_
    split
    · next hl => exact ⟨fun _ => ⟨rfl, rfl⟩, fun h => absurd hl (Nat.not_lt.mpr h), fun _ _ => rfl, rfl, rfl⟩
    · next hl =>
      have hr := (RegsOnly.refl (l := [rHeelSt]) hwf).setBit 22 true (List.mem_singleton_self _)
      exact ⟨fun h => absurd h hl, fun _ => ⟨rfl, State.bit_setBit_same hwf true (by decide)⟩, hr.word, rfl, rfl⟩

end

section
/-! PROOF. O37 is refuted: the reset of one INST can make the ATU cache a translation of another. -/

namespace Sys2Proof.Machine

/-- INST 1 is READY and its clicking 0 runs a job of a slot of the system, whose completions go to queue 0, owned by INST 0. -/
def abortPostsElsewhere : State :=
  { State.reset with
    regs := [(rClick 0 0, 5), (rInst 1 0, 0x10000)]
    hqm.queues := [(0, ⟨0x800000000, 4, 1, 2, 0, 0, 0, 0, 0, 0, false⟩)]
    clc.jobs := [⟨⟨0, 1, 0, 0, none, 0, 0⟩, [⟨0, 0, 0, 0, false, false⟩], 0, none, 0, 0, 0, 0, 0⟩] }

theorem abortPostsElsewhere_premises :
    abortPostsElsewhere.canonical = true ∧ abortPostsElsewhere.sysWriter mCollector = true ∧ abortPostsElsewhere.instState 1 ≠ 0 := by
  decide +kernel

/-- The reset of INST 1 aborts the job (R297), and its completion is written through the ATU for the queue's owner, INST 0 (R466);
the ATU keeps the translation (R448). -/
theorem abortPostsElsewhere_tlb : (abortPostsElsewhere.instReset 1 false).atu.tlb = [⟨0, 0x800000, 0x800000, 7⟩] := by
  decide +kernel

end Sys2Proof.Machine

open Sys2Proof Sys2Proof.Machine

/-- Refutes O37: a reset does not only drop the cached translations of the INST that is reset. The completion of a job that it aborts
goes to the queue of the slot, here one that another INST owns, and the ATU caches the page of that queue. -/
theorem not_instancesInvalidationsAndLinks : ¬ Obligations.InstancesInvalidationsAndLinks := by
  unfold Obligations.InstancesInvalidationsAndLinks
  rintro ⟨-, -, -, -, -, -, -, h, -⟩
  obtain ⟨hcanon, hsys, hstate⟩ := abortPostsElsewhere_premises
  obtain ⟨⟨t, ht, -, -, -, htlb⟩, -⟩ := h abortPostsElsewhere mCollector 1 hcanon hsys hstate rfl
  have e : t = (abortPostsElsewhere.instReset 1 false).respOk [] :=
    Host.Outcome.next.inj (ht.symm.trans (congrArg Host.Outcome.next (if_pos hsys)))
  rw [e, State.respOk_atu, abortPostsElsewhere_tlb] at htlb
  cases htlb

end

section
/-! PROOF. Transfers of system masters to memory, and the accesses held for a cell under substitution (O16). -/

namespace Sys2Proof.Machine

/-! Reads and writes of storage without errors (R398 to R400). -/

/-- A write of clean bytes where nothing is poisoned only stores them. -/
theorem State.memPut_of_nil {s : State} (h : s.poison = []) (m : Master) (a : Nat) (l : List Byte) :
    s.memPut m a l false = s.store a l := by
  simp [State.memPut, h]

theorem State.store_poison_of_nil {s : State} (h : s.poison = []) (a : Nat) (l : List Byte) : (s.store a l).poison = [] := by
  simp [State.store, h]

/-- A read that meets no error and no poison outside the windows answers the stored bytes. -/
theorem State.readPa_clean {s : State} {a n : Nat} (m : Master) (off syn : Nat) (hwin : s.winMeets a n = false)
    (hclean : s.poisoned a n = false) : s.readPa m a n 0 off syn = { s with resp := ⟨false, false, s.bytes a n⟩ } := by
  simp [State.readPa, State.readError, State.windowRead, hwin, hclean]

/-- A write outside the windows that meets no error, where nothing is poisoned, stores its bytes. -/
theorem State.writePa_clean {s : State} {a : Nat} {l : List Byte} (m : Master) (off syn : Nat) (hwin : s.winMeets a l.length = false)
    (hpoison : s.poison = []) : s.writePa m a l false 0 off syn = (s.store a l).respOk [] := by
  simp [State.writePa, hwin, State.memPut_of_nil hpoison]

/-! The map (R27, R31). -/

theorem State.mapAccess_hbm_read {s : State} {a : Nat} (m : Master) (inst : Option (Fin 64)) (n : Nat) (l : List Byte) (bad : Bool)
    (h : s.addrKind a = .hbm) : s.mapAccess m inst false a n l bad = s.readPa m a n 0 0 0 := by
  simp [State.mapAccess, State.holdTile, State.mapAnswer, h]

theorem State.mapAccess_hbm_write {s : State} {a : Nat} (m : Master) (inst : Option (Fin 64)) (n : Nat) (l : List Byte) (bad : Bool)
    (h : s.addrKind a = .hbm) : s.mapAccess m inst true a n l bad = s.writePa m a l bad 0 0 0 := by
  simp [State.mapAccess, State.holdTile, State.mapAnswer, h]

theorem State.mapAccess_unmapped_read {s : State} {a : Nat} (m : Master) (inst : Option (Fin 64)) (n : Nat) (l : List Byte) (bad : Bool)
    (h : s.addrKind a = .unmapped) : s.mapAccess m inst false a n l bad = s.refuse m 1 a := by
  simp [State.mapAccess, State.holdTile, State.mapAnswer, State.mapRefuse, h]

/-- An access to the tile store of a cell under substitution waits (R31). -/
theorem State.mapAccess_held {s : State} {a c : Nat} (m : Master) (inst : Option (Fin 64)) (write : Bool) (n : Nat) (l : List Byte)
    (bad : Bool) (h : s.addrKind a = .tile c) (hheld : s.cel.held.contains c = true) (hon : s.panelGated (c / 16) = false) :
    s.mapAccess m inst write a n l bad =
      { s with heldAcc := s.heldAcc ++ [HeldAcc.mk c m.toNat write a n l bad none], resp := ⟨false, false, []⟩ } := by
  simp only [State.mapAccess, State.holdTile, h, hheld, hon, Bool.not_false, Bool.and_self, if_true]

/-! The commands. -/

/-- A read of a system master within one page is one request of the map (R639). -/
theorem exec_fabricMemoryAccess_read_page {s : State} {m : Master} {a n : Nat} (inc : BitVec 8) (h : s.incarnOf m = none)
    (ha : a < 2 ^ 64) (hn : 0 < n) (hpage : a % 4096 + n ≤ 4096) :
    exec (.fabricMemoryAccess m none false (BitVec.ofNat 64 a) (Fin.ofNat 4097 n) [] false inc) s =
      .next (s.mapAccess m none false a n [] false) := by
  have haddr : (BitVec.ofNat 64 a).toNat = a := Nat.mod_eq_of_lt ha
  have hlen : (Fin.ofNat 4097 n).val = n := Nat.mod_eq_of_lt (by omega)
  rw [exec_fabricMemoryAccess_read none _ _ _ _ _ h, haddr, hlen, s.access_system_page m false [] false hn hpage]

/-- A write of a system master within one page is one request of the map (R639). -/
theorem exec_fabricMemoryAccess_write_page {s : State} {m : Master} {a : Nat} {l : List Byte} (len : Fin 4097) (bad : Bool)
    (inc : BitVec 8) (h : s.incarnOf m = none) (ha : a < 2 ^ 64) (hl : l ≠ []) (hpage : a % 4096 + l.length ≤ 4096) :
    exec (.fabricMemoryAccess m none true (BitVec.ofNat 64 a) len l bad inc) s =
      .next (s.mapAccess m none true a l.length l bad) := by
  have haddr : (BitVec.ofNat 64 a).toNat = a := Nat.mod_eq_of_lt ha
  change execFabricMemoryAccess _ _ _ _ _ _ _ _ _ = _
  rw [execFabricMemoryAccess, h, haddr]
  exact congrArg Host.Outcome.next (s.access_system_page m true l bad (List.length_pos_iff.mpr hl) hpage)

/-- Traffic of another incarnation than its unit's is dropped (R509). -/
theorem exec_fabricMemoryAccess_stale {s : State} {m : Master} {k : Nat} (inst : Option (Fin 64)) (write : Bool) (a : BitVec 64)
    (len : Fin 4097) (l : List Byte) (bad : Bool) {inc : BitVec 8} (h : s.incarnOf m = some k) (hne : k ≠ inc.toNat) :
    exec (.fabricMemoryAccess m inst write a len l bad inc) s = .next (s.staleDrop m inc.toNat) := by
  change execFabricMemoryAccess _ _ _ _ _ _ _ _ _ = _
  simp only [execFabricMemoryAccess, h, if_pos hne]

/-- While the cell of every held access is under substitution, none is released. -/
theorem exec_heldAccessRelease_none {s : State} (h : (s.heldAcc.all fun h => s.cel.held.contains h.cell) = true) :
    exec .heldAccessRelease s = .next s := by
  have hfind : (s.heldAcc.find? fun h => !s.cel.held.contains h.cell) = none := by
    simpa only [List.find?_eq_none, Bool.not_eq_true', Bool.not_eq_false, List.all_eq_true] using h
  change execHeldAccessRelease s = _
  rw [execHeldAccessRelease, hfind]

/-- The oldest held access is performed when its cell is no longer under substitution. -/
theorem exec_heldAccessRelease_head {s : State} {h : HeldAcc} {r : List HeldAcc} (hs : s.heldAcc = h :: r)
    (hfree : s.cel.held.contains h.cell = false) :
    exec .heldAccessRelease s = .next ((({ s with heldAcc := r } : State).mapAccess (BitVec.ofNat 16 h.master) none h.write h.addr
      h.len h.data h.poison).sendBack h.back) := by
  have hfind : (s.heldAcc.find? fun h => !s.cel.held.contains h.cell) = some h := by
    rw [hs, List.find?_cons_of_pos (by rw [hfree]; rfl)]
  have herase : s.heldAcc.erase h = r := by rw [hs, List.erase_cons_head]
  change execHeldAccessRelease s = _
  rw [execHeldAccessRelease, hfind]
  dsimp only
  rw [herase]

end Sys2Proof.Machine

open Sys2Proof Sys2Proof.Machine

/-- Settles O16: a transfer within a page is one request of the map, which reads or stores HBM, refuses or holds it. -/
theorem transfersReachMemoryAndHeldAccesses : Obligations.TransfersReachMemoryAndHeldAccesses := by
  unfold Obligations.TransfersReachMemoryAndHeldAccesses
  refine ⟨?read, ?write, ?stale, ?unmapped, ?held, fun s h => exec_heldAccessRelease_none h,
    fun s h r hs hfree => exec_heldAccessRelease_head hs hfree⟩
  case read =>
    intro s m a n inc hinc ha hn hpage hkind hwin hclean
    have e := exec_fabricMemoryAccess_read_page inc hinc (by omega) hn hpage
    rw [State.mapAccess_hbm_read m none n [] false hkind, State.readPa_clean m 0 0 hwin hclean] at e
    exact .of_exec e ⟨rfl, rfl, rfl⟩
  case write =>
    intro s m a len l inc hcan hinc ha hl hpage hkind hwin hpoison
    obtain ⟨hmem, -⟩ := State.canonical_iff.mp hcan
    have e := exec_fabricMemoryAccess_write_page len false inc hinc (by omega) hl hpage
    rw [State.mapAccess_hbm_write m none l.length l false hkind, State.writePa_clean m 0 0 hwin hpoison] at e
    exact .of_exec e ⟨State.bytes_store hmem a l, fun b hb => State.byte_store_outside hmem hb, rfl, rfl,
      State.store_poison_of_nil hpoison a l⟩
  case stale =>
    intro s m inst w a len l p inc k hinc hne
    exact exec_fabricMemoryAccess_stale inst w a len l p hinc hne
  case unmapped =>
    intro s m a n inc hinc ha hn hpage hkind
    rw [exec_fabricMemoryAccess_read_page inc hinc ha hn hpage, State.mapAccess_unmapped_read m none n [] false hkind]
  case held =>
    intro s m a c n inc hinc ha hn hpage hkind hheld hon
    have e := exec_fabricMemoryAccess_read_page inc hinc (by omega) hn hpage
    rw [State.mapAccess_held m none false n [] false hkind hheld hon] at e
    exact .of_exec e ⟨rfl, rfl, rfl⟩

end

section
/-! PROOF. Lace lists: acceptance, one descriptor in the tile store, its signal, and the end of a list (O27). -/

namespace Sys2Proof.Machine

/-! Channels. -/

@[simp] theorem State.chan_setChan_same (s : State) (k : Nat) (x : LaceChan) : (s.setChan k x).chan k = x :=
  fmGetD_fmPut_same LaceChan.reset s.cel.lace k x

theorem State.chan_setChan_other (s : State) {j k : Nat} (x : LaceChan) (h : j ≠ k) : (s.setChan k x).chan j = s.chan j :=
  fmGetD_fmPut_other LaceChan.reset s.cel.lace x h

theorem State.cell_modCell_same (s : State) (c : Nat) (f : CellS → CellS) : (s.modCell c f).cell c = f (s.cell c) :=
  fmGetD_fmPut_same CellS.reset s.cel.cells c (f (s.cell c))

theorem State.group_setGroup_same (s : State) (c g : Nat) (q : CGroup) : (s.setGroup c g q).group c g = q := by
  rw [State.group, State.setGroup, State.cell_modCell_same]
  exact fmGetD_fmPut_same CGroup.reset (s.cell c).groups g q

/-- A channel that runs a list starts no other. -/
theorem LaceChan.start_of_cur {ch : LaceChan} {l : LaceList} (h : ch.cur = some l) : ch.start = ch := by
  simp [LaceChan.start, h]

/-! Acceptance (R233, R238). -/

theorem exec_laceListAccept {s : State} {c : Fin 256} {op : QOp} {r : List QOp} (hmq : (s.cell c).mq = op :: r)
    (hop : wOp op.word = 0x30) (hroom : (s.chan (laceKey c (bitsOf op.word 35 34))).queue.length < 4) :
    exec (.laceListAccept c) s = .next ((s.modCell c fun x => { x with mq := r }).setChan (laceKey c (bitsOf op.word 35 34))
      { s.chan (laceKey c (bitsOf op.word 35 34)) with queue := (s.chan (laceKey c (bitsOf op.word 35 34))).queue ++
          [⟨op.a, bitOf op.word 33, op.group, op.pc, op.word, none, some (s.cellInst c), s.instGen (s.cellInst c)⟩] }) := by
  have hfull : ¬((s.chan (laceKey c (bitsOf op.word 35 34))).queue.length ≥ 4) := by omega
  change Host.Outcome.next (s.laceAccept c) = _
  simp only [State.laceAccept, hmq, hop, ne_eq, not_true_eq_false, decide_false, hfull, Bool.or_self, Bool.false_eq_true, if_false]

theorem exec_laceListAccept_full {s : State} {c : Fin 256} {op : QOp} {r : List QOp} (hmq : (s.cell c).mq = op :: r)
    (hfull : (s.chan (laceKey c (bitsOf op.word 35 34))).queue.length ≥ 4) : exec (.laceListAccept c) s = .next s := by
  change Host.Outcome.next (s.laceAccept c) = _
  simp only [State.laceAccept, hmq, hfull, decide_true, Bool.or_true, if_true]

theorem exec_laceListAccept_empty {s : State} {c : Fin 256} (hmq : (s.cell c).mq = []) : exec (.laceListAccept c) s = .next s := by
  change Host.Outcome.next (s.laceAccept c) = _
  simp only [State.laceAccept, hmq]

/-! Bytes of a tile store without poison. -/

theorem cleanBytes_fst (l : List Byte) : (cleanBytes l).map Prod.fst = l := by
  simp [cleanBytes, Function.comp_def]

theorem cleanBytes_any (l : List Byte) : ((cleanBytes l).any fun p => p.2) = false := by
  simp [cleanBytes]

theorem withBad_false (l : List Byte) : withBad l (fun _ => false) = cleanBytes l := by
  apply List.ext_getElem
  · simp [withBad, cleanBytes]
  · intro i h1 h2
    simp [withBad, cleanBytes]

/-- Bytes without poison are one run. -/
theorem runsOf_cleanBytes {l : List Byte} (h : l ≠ []) : runsOf (cleanBytes l) = [(l, false)] := by
  induction l with
  | nil => exact absurd rfl h
  | cons b r ih =>
    cases r with
    | nil => rfl
    | cons c t =>
      change runsOf ((b, false) :: cleanBytes (c :: t)) = _
      rw [runsOf, ih (List.cons_ne_nil c t)]
      rfl

theorem State.tsBytes_length (s : State) (c o n : Nat) : (s.tsBytes c o n).length = n := by
  simp [State.tsBytes, State.bytes, stGetRun]

theorem State.laceRd_tile {s : State} (h : s.poison = []) (e : Nat) (l : LaceList) {a n : Nat} (hin : a + n ≤ tsTop) :
    s.laceRd e l true a n = (s, .ok (cleanBytes (s.tsBytes e a n))) := by
  have hbad : (fun i => s.tsBad e (a + i) 1) = fun _ => false := funext fun i => State.poisoned_of_nil h _ _
  rw [State.laceRd, if_pos rfl, if_pos hin, hbad, withBad_false]

theorem State.laceWrRun_tile {s : State} (h : s.poison = []) (e : Nat) (l : LaceList) {a : Nat} {b : List Byte}
    (hin : a + b.length ≤ tsTop) : s.laceWrRun e l true a b false = (s.store (tsAddr e a) b, none) := by
  rw [State.laceWrRun, if_pos rfl, if_pos hin, State.tsWrite, State.memPut_of_nil h]

theorem State.laceWr_tile {s : State} (h : s.poison = []) (e : Nat) (l : LaceList) {a : Nat} {b : List Byte} (hb : b ≠ [])
    (hin : a + b.length ≤ tsTop) : s.laceWr e l true a (cleanBytes b) = (s.store (tsAddr e a) b, none) := by
  simp only [State.laceWr, runsOf_cleanBytes hb, List.foldl_cons, List.foldl_nil, State.laceWrRun_tile h e l hin]

/-! A descriptor in the tile store (R234 to R236). -/

theorem spaceAddr_tile {a : Nat} (h : a ≤ tsTop) : spaceAddr true a = a := Nat.mod_eq_of_lt (by unfold tsTop at h; omega)

theorem rowAddr_zero {a : Nat} (stride : Int) (h : a ≤ tsTop) : rowAddr true a stride 0 = a := by
  have hz : ofSigned 64 ((a : Int) + ((0 : Nat) : Int) * stride) = a := by
    unfold ofSigned tsTop at *
    simp only [Nat.cast_zero, zero_mul, add_zero]
    omega
  rw [rowAddr, hz, spaceAddr_tile h]

/-- What the checks of a descriptor of one row from tile store to tile store say of its ends (R239). -/
theorem ends_of_laceBounds {d : List Byte} (h : laceBounds d = none) (hs : ldStile d = true) (hd : ldDtile d = true)
    (hc : ldCodec d = 0) : ldSrc d + ldBytes d ≤ tsTop ∧ ldDst d + ldBytes d ≤ tsTop := by
  have hfirst {base : Nat} {stride : Int} (hr : rowsInside base stride (ldRows d) (ldBytes d) = true) : base + ldBytes d ≤ tsTop := by
    simp only [rowsInside, List.all_cons, Bool.and_eq_true, decide_eq_true_eq, Nat.cast_zero, zero_mul, add_zero] at hr
    omega
  simp only [laceBounds, hs, hd, hc, Bool.not_true, Bool.false_or, OfNat.zero_ne_ofNat, zero_ne_one, if_false] at h
  split at h
  · cases h
  · next hsrc =>
    split at h
    · cases h
    · next hdst => exact ⟨hfirst (by simpa using hsrc), hfirst (by simpa using hdst)⟩

theorem one_le_ldBytes {d : List Byte} (h : laceDescOk false d = true) : 1 ≤ ldBytes d := by
  simp only [laceDescOk, Bool.and_eq_true, decide_eq_true_eq] at h
  omega

theorem State.laceFetch_tile {s : State} (h : s.poison = []) {e : Nat} (he : e < 256) {l : LaceList} (htile : l.tile = true) {a : Nat}
    (hin : a + 64 ≤ tsTop) (hok : laceDescOk false (s.tsBytes e a 64) = true) (hb : laceBounds (s.tsBytes e a 64) = none) :
    s.laceFetch e l a = (s, .ok (s.tsBytes e a 64)) := by
  have hcell : decide (e ≥ 256) = false := decide_eq_false (by omega)
  simp only [State.laceFetch, htile, spaceAddr_tile (show a ≤ tsTop by omega), State.laceRd_tile h e l hin, cleanBytes_fst,
    cleanBytes_any, Bool.false_eq_true, if_false, hcell, hok, Bool.not_true, hb]

/-- The one row of a descriptor from tile store to tile store is copied. -/
theorem State.laceRun_tile {s : State} (h : s.poison = []) (e : Nat) (l : LaceList) {d : List Byte} (hok : laceDescOk false d = true)
    (hb : laceBounds d = none) (hs : ldStile d = true) (hd : ldDtile d = true) (hc : ldCodec d = 0) (hr : ldRows d = 1) :
    (s.laceRun e l d).s = s.store (tsAddr e (ldDst d)) (s.tsBytes e (ldSrc d) (ldBytes d)) ∧ (s.laceRun e l d).err = none := by
  obtain ⟨hsrc, hdst⟩ := ends_of_laceBounds hb hs hd hc
  have hlen := s.tsBytes_length e (ldSrc d) (ldBytes d)
  have hpos := one_le_ldBytes hok
  have hne : s.tsBytes e (ldSrc d) (ldBytes d) ≠ [] := List.ne_nil_of_length_pos (by omega)
  have hin : ∀ pos, s.laceRowIn e l d 0 pos = (s, .ok (cleanBytes (s.tsBytes e (ldSrc d) (ldBytes d)), pos)) := by
    intro pos
    simp only [State.laceRowIn, hc, hs, OfNat.zero_ne_ofNat, zero_ne_one, if_false, rowAddr_zero _ (show ldSrc d ≤ tsTop by omega),
      State.laceRd_tile h e l hsrc]
  have hout := State.laceWr_tile h e l (a := ldDst d) hne (by omega)
  simp only [State.laceRun, hr, List.range_one, List.foldl_cons, List.foldl_nil, LaceRun.row, hin, hc, hd, zero_ne_one, if_false,
    rowAddr_zero _ (show ldDst d ≤ tsTop by omega), hout, and_self]

/-! Execution of the next descriptor. -/

/-- A list in the tile store whose descriptor copies inside it waits for no other tile store. -/
theorem State.laceHeld_tile {s u : State} {e : Nat} {l : LaceList} {a : Nat} {d : List Byte} (htile : l.tile = true)
    (hf : s.laceFetch e l a = (u, .ok d)) (hs : ldStile d = true) (hd : ldDtile d = true) : s.laceHeld e l a = false := by
  simp only [State.laceHeld, htile, hf, hs, hd, Bool.not_true, Bool.false_and, Bool.or_self]

/-- A channel whose cell, if it has one, is not under substitution. -/
theorem State.not_held_engine {s : State} {e : Nat} (h : e < 256 → s.cel.held.contains e = false) :
    (decide (e < 256) && s.cel.held.contains e) = false := by
  by_cases he : e < 256
  · rw [h he, Bool.and_false]
  · rw [decide_eq_false he, Bool.false_and]

/-- A descriptor that is not fetched or fails its checks stops the list (R239). -/
theorem State.laceExec_error {s u : State} {e c : Nat} {l : LaceList} {a : Nat} {x : LaceErr}
    (hcur : (s.chan (engineKey e c)).cur = some l) (hnext : (s.chan (engineKey e c)).next = some a)
    (hsig : (s.chan (engineKey e c)).sig = none) (hfree : e < 256 → s.cel.held.contains e = false)
    (hheld : s.laceHeld e l a = false)
    (hf : (s.setChan (engineKey e c) (s.chan (engineKey e c))).laceFetch e l a = (u, .error x)) :
    s.laceExec e c = u.laceStop e (engineKey e c) l x := by
  simp only [State.laceExec, LaceChan.start_of_cur hcur, hcur, hnext, hsig, State.not_held_engine hfree, hheld, Bool.or_self,
    Bool.false_eq_true, if_false, hf]

/-- A descriptor without signal that meets no failure: the channel goes on to the one after it (R236). -/
theorem State.laceExec_done {s u : State} {e c : Nat} {l : LaceList} {a : Nat} {d : List Byte}
    (hcur : (s.chan (engineKey e c)).cur = some l) (hnext : (s.chan (engineKey e c)).next = some a)
    (hsig : (s.chan (engineKey e c)).sig = none) (hfree : e < 256 → s.cel.held.contains e = false)
    (hheld : s.laceHeld e l a = false)
    (hf : (s.setChan (engineKey e c) (s.chan (engineKey e c))).laceFetch e l a = (u, .ok d)) (hrun : (u.laceRun e l d).err = none)
    (hnosig : ldSig d = false) :
    s.laceExec e c = (u.laceRun e l d).s.setChan (engineKey e c)
      { (u.laceRun e l d).s.chan (engineKey e c) with next := ldFollow a d, sig := none } := by
  simp only [State.laceExec, LaceChan.start_of_cur hcur, hcur, hnext, hsig, State.not_held_engine hfree, hheld, Bool.or_self,
    Bool.false_eq_true, if_false, hf, hrun, hnosig]

/-- A descriptor that is not executed stops its list (R239). -/
theorem exec_laceDescriptorExecute_error {s u : State} {e : Fin 272} {ch : Fin 4} {l : LaceList} {a : Nat} {x : LaceErr}
    (hcur : (s.chan (engineKey e ch)).cur = some l) (hnext : (s.chan (engineKey e ch)).next = some a)
    (hsig : (s.chan (engineKey e ch)).sig = none) (hfree : e.val < 256 → s.cel.held.contains e.val = false)
    (hheld : s.laceHeld e l a = false)
    (hf : (s.setChan (engineKey e ch) (s.chan (engineKey e ch))).laceFetch e l a = (u, .error x)) :
    exec (.laceDescriptorExecute e ch) s = .next (u.laceStop e (engineKey e ch) l x) := by
  change Host.Outcome.next (s.laceExec e ch) = _
  rw [State.laceExec_error hcur hnext hsig hfree hheld hf]

/-- A channel whose cell is under substitution, that has no list, or that owes a signal executes nothing. -/
theorem exec_laceDescriptorExecute_idle {s : State} {e : Fin 272} {ch : Fin 4}
    (h : (e.val < 256 ∧ s.cel.held.contains e.val = true) ∨
      ((s.chan (engineKey e ch)).cur = none ∧ (s.chan (engineKey e ch)).queue = []) ∨
      (s.chan (engineKey e ch)).cur.isSome = true ∧ (s.chan (engineKey e ch)).sig.isSome = true) :
    exec (.laceDescriptorExecute e ch) s = .next s := by
  change Host.Outcome.next (s.laceExec e ch) = _
  refine congrArg Host.Outcome.next ?_
  rcases h with ⟨he, hheld⟩ | ⟨hcur, hqueue⟩ | ⟨hcur, hsig⟩
  · unfold State.laceExec
    dsimp only
    split
    · rw [decide_eq_true he, hheld, Bool.and_self, Bool.true_or, if_pos rfl]
    · rfl
  · simp only [State.laceExec, LaceChan.start, hcur, hqueue]
  · obtain ⟨l, hl⟩ := Option.isSome_iff_exists.mp hcur
    obtain ⟨x, hx⟩ := Option.isSome_iff_exists.mp hsig
    unfold State.laceExec
    dsimp only
    rw [LaceChan.start_of_cur hl]
    split
    · next hnone => rw [hx] at hnone; cases hnone
    · rfl

/-- A descriptor of one row that is the last of its list and copies inside a tile store. -/
theorem exec_laceDescriptorExecute_tile {s : State} {e : Fin 272} {ch : Fin 4} {l : LaceList} {a : Nat} (hpoison : s.poison = [])
    (he : e.val < 256) (hcur : (s.chan (engineKey e ch)).cur = some l) (hnext : (s.chan (engineKey e ch)).next = some a)
    (hsig : (s.chan (engineKey e ch)).sig = none) (hfree : s.cel.held.contains e.val = false) (htile : l.tile = true)
    (hin : a + 64 ≤ tsTop) {d : List Byte} (hd : s.tsBytes e a 64 = d) (hok : laceDescOk false d = true) (hb : laceBounds d = none)
    (hs : ldStile d = true) (ht : ldDtile d = true) (hc : ldCodec d = 0) (hr : ldRows d = 1) (hchain : ldChain d = 0)
    (hnosig : ldSig d = false) :
    exec (.laceDescriptorExecute e ch) s = .next
      (((s.setChan (engineKey e ch) (s.chan (engineKey e ch))).store (tsAddr e (ldDst d)) (s.tsBytes e (ldSrc d) (ldBytes d))).setChan
        (engineKey e ch) { s.chan (engineKey e ch) with next := none, sig := none }) := by
  have hfetch {u : State} (hp : u.poison = []) (hbytes : u.tsBytes e a 64 = d) : u.laceFetch e l a = (u, .ok d) := by
    rw [State.laceFetch_tile hp he htile hin (by rwa [hbytes]) (by rwa [hbytes]), hbytes]
  have hheld := State.laceHeld_tile htile (hfetch hpoison hd) hs ht
  have hf : (s.setChan (engineKey e ch) (s.chan (engineKey e ch))).laceFetch e l a = _ := hfetch hpoison hd
  obtain ⟨hrun, herr⟩ := State.laceRun_tile (s := s.setChan (engineKey e ch) (s.chan (engineKey e ch))) hpoison e l hok hb hs ht hc hr
  have hchan (b : List Byte) (o : Nat) : ((s.setChan (engineKey e ch) (s.chan (engineKey e ch))).store o b).chan (engineKey e ch) =
      s.chan (engineKey e ch) := State.chan_setChan_same s _ _
  have hfollow : ldFollow a d = none := by simp only [ldFollow, hchain]
  change Host.Outcome.next (s.laceExec e ch) = _
  rw [State.laceExec_done hcur hnext hsig (fun _ => hfree) hheld hf herr hnosig, hrun, hchan, hfollow]
  rfl

/-! Signal and end of a list (R233, R236). -/

theorem exec_laceSignalWrite_tile {s : State} {e : Fin 272} {ch : Fin 4} {l : LaceList} {a v : Nat} (hpoison : s.poison = [])
    (hcur : (s.chan (engineKey e ch)).cur = some l) (hsig : (s.chan (engineKey e ch)).sig = some (a, v, true)) (hin : a + 8 ≤ tsTop) :
    exec (.laceSignalWrite e ch) s = .next ((s.store (tsAddr e a) (leBytes 8 v)).setChan (engineKey e ch)
      { s.chan (engineKey e ch) with sig := none }) := by
  have hwr := State.laceWrRun_tile hpoison e l (b := leBytes 8 v) (by rwa [leBytes_length])
  have hchan : (s.store (tsAddr e a) (leBytes 8 v)).chan (engineKey e ch) = s.chan (engineKey e ch) := rfl
  change Host.Outcome.next (s.laceSignal e ch) = _
  simp only [State.laceSignal, hsig, spaceAddr_tile (show a ≤ tsTop by omega), Bool.not_true, Bool.false_and, Bool.false_eq_true,
    if_false, hwr, hchan, hcur]

theorem exec_laceSignalWrite_none {s : State} {e : Fin 272} {ch : Fin 4} (hsig : (s.chan (engineKey e ch)).sig = none) :
    exec (.laceSignalWrite e ch) s = .next s := by
  change Host.Outcome.next (s.laceSignal e ch) = _
  unfold State.laceSignal
  dsimp only
  split
  · next hsome => rw [hsig] at hsome; cases hsome
  · rfl

/-- A drain ends only in DRAINING. -/
theorem State.afterDrain_of_running {s : State} {c : Nat} (h : s.cellState c = csRUNNING) : s.afterDrain c = s := by
  rw [State.afterDrain, h]
  rfl

/-- The channel of a list that is done is free, and the count of its group falls. -/
theorem exec_laceListComplete {s : State} {e : Fin 272} {ch : Fin 4} {l : LaceList}
    (hcur : (s.chan (engineKey e ch)).cur = some l) (hnext : (s.chan (engineKey e ch)).next = none)
    (hsig : (s.chan (engineKey e ch)).sig = none) (htack : l.tack = none) (hrun : s.cellState e = csRUNNING) :
    exec (.laceListComplete e ch) s = .next ((s.setChan (engineKey e ch) { s.chan (engineKey e ch) with cur := none }).setGroup e l.group
      { s.group e l.group with mq := (s.group e l.group).mq - 1 }) := by
  change Host.Outcome.next (s.laceDone e ch) = _
  simp only [State.laceDone, hcur, hnext, hsig, htack, State.qDone]
  exact congrArg Host.Outcome.next (State.afterDrain_of_running hrun)

/-- A list that is not done does not complete. -/
theorem exec_laceListComplete_not_done {s : State} {e : Fin 272} {ch : Fin 4}
    (h : (s.chan (engineKey e ch)).cur = none ∨ (s.chan (engineKey e ch)).next ≠ none ∨ (s.chan (engineKey e ch)).sig ≠ none) :
    exec (.laceListComplete e ch) s = .next s := by
  change Host.Outcome.next (s.laceDone e ch) = _
  unfold State.laceDone
  dsimp only
  split
  · next hcur hnext hsig => simp [hcur, hnext, hsig] at h
  · rfl

end Sys2Proof.Machine

open Sys2Proof Sys2Proof.Machine

/-- Settles O27: each clause is one case of what the engine does with the channel, and the copy is a store of clean bytes. -/
theorem laceListsRunDescriptorByDescriptor : Obligations.LaceListsRunDescriptorByDescriptor := by
  unfold Obligations.LaceListsRunDescriptorByDescriptor
  refine ⟨?accept, fun s c h => exec_laceListAccept_empty h, ?copy, ?error, fun s e ch h => exec_laceDescriptorExecute_idle h, ?signal,
    fun s e ch h => exec_laceSignalWrite_none h, ?complete, fun s e ch h => exec_laceListComplete_not_done h⟩
  case accept =>
    intro s c op r hmq hop
    refine ⟨fun hroom => .of_exec (exec_laceListAccept hmq hop hroom) ⟨?_, rfl, rfl, ?_, fun k hk => ?_⟩,
      exec_laceListAccept_full hmq⟩
    · exact congrArg CellS.mq (State.cell_modCell_same s c fun x => { x with mq := r })
    · rw [State.chan_setChan_same]
    · exact State.chan_setChan_other _ _ hk
  case copy =>
    intro s e ch l a hcan hpoison he hcur hnext hsig hfree htile hin d hok hb hs ht hc hr hchain hnosig
    obtain ⟨hmem, -⟩ := State.canonical_iff.mp hcan
    have hlen := s.tsBytes_length e (ldSrc d) (ldBytes d)
    have hback := State.bytes_store hmem (tsAddr e (ldDst d)) (s.tsBytes e (ldSrc d) (ldBytes d))
    rw [hlen] at hback
    refine .of_exec (exec_laceDescriptorExecute_tile hpoison he hcur hnext hsig hfree htile hin rfl hok hb hs ht hc hr hchain hnosig)
      ⟨hback, fun b hb' => State.byte_store_outside hmem (by rwa [hlen]), ?_, ?_, ?_, rfl⟩
    · rw [State.chan_setChan_same]
    · rw [State.chan_setChan_same, hcur]
    · rw [State.chan_setChan_same]
  case error =>
    intro s u e ch l a x hcur hnext hsig hfree hheld hf
    exact exec_laceDescriptorExecute_error hcur hnext hsig hfree hheld hf
  case signal =>
    intro s e ch l a v hcan hpoison hcur hsig hin
    obtain ⟨hmem, -⟩ := State.canonical_iff.mp hcan
    have hback := State.bytes_store hmem (tsAddr e a) (leBytes 8 v)
    rw [leBytes_length] at hback
    refine .of_exec (exec_laceSignalWrite_tile hpoison hcur hsig hin)
      ⟨hback, fun b hb => State.byte_store_outside hmem (by rwa [leBytes_length]), ?_, ?_, rfl⟩
    · rw [State.chan_setChan_same]
    · rw [State.chan_setChan_same, hcur]
  case complete =>
    intro s e ch l _ hcur hnext hsig htack hrun
    have hchan : ∀ u : State, u = (s.setChan (engineKey e ch) { s.chan (engineKey e ch) with cur := none }).setGroup e l.group
        { s.group e l.group with mq := (s.group e l.group).mq - 1 } →
        u.chan (engineKey e ch) = { s.chan (engineKey e ch) with cur := none } := by
      rintro u rfl
      exact State.chan_setChan_same s _ _
    refine .of_exec (exec_laceListComplete hcur hnext hsig htack hrun) ⟨?_, ?_, ?_, rfl, rfl⟩
    · rw [hchan _ rfl]
    · rw [State.group_setGroup_same]
    · rw [hchan _ rfl]

end

section
/-! PROOF. Partner ports: requests both ways, configuration requests, completions and timeouts (O38). -/

namespace Sys2Proof.Machine

/-! Registers of a port. -/

theorem rPciPort_ne {n a b : Nat} (h : a ≠ b) : rPciPort n a ≠ rPciPort n b := by
  unfold rPciPort rPci
  omega

theorem rPciPort_ne_irq (n o : Nat) : rPciPort n o ≠ rPciIrq := by
  unfold rPciPort rPciIrq rPci
  omega

theorem RegsOnly.portIrq {l : List Nat} {s t : State} (h : RegsOnly l s t) (n k : Nat) (ha : rPciIrq ∈ l) :
    RegsOnly l s (t.portIrq n k) := h.orWord _ ha

theorem State.bit_portIrq {s : State} (h : regsWf s.regs = true) {n k : Nat} (hk : 8 * n + k < 32) :
    (s.portIrq n k).bit rPciIrq (8 * n + k) = true := by
  rw [State.portIrq, State.bit_orWord_same h _ _ hk, bitOf_eq, Nat.testBit_two_pow_self, Bool.or_true]

/-! Requests that leave (R30, R31, R456). -/

theorem exec_pcieOutboundRequest_fault {s u : State} {m : Master} {inst : Option (Fin 64)} {n : Fin 4} {w : Bool} {a : BitVec 40}
    (k : Fin 4097) (l : List Byte) (b : Bool)
    (hx : s.xlat inst m (if w then 2 else 1) (portBase * (n.val + 1) + a.toNat) = (u, none)) :
    exec (.pcieOutboundRequest m inst n w a k l b) s = .next u.respErr := by
  change execPcieOutboundRequest _ _ _ _ _ _ _ _ _ = _
  simp only [execPcieOutboundRequest, hx]

theorem exec_pcieOutboundRequest_port {s u : State} {m : Master} {inst : Option (Fin 64)} {n : Fin 4} {w : Bool} {a : BitVec 40}
    (k : Fin 4097) (l : List Byte) (b : Bool) {pa q : Nat}
    (hx : s.xlat inst m (if w then 2 else 1) (portBase * (n.val + 1) + a.toNat) = (u, some pa)) (hq : u.addrKind pa = .port q) :
    exec (.pcieOutboundRequest m inst n w a k l b) s = .next
      (if u.portUp q then u.outbound m inst q w (portOffset pa) (if w then l.length else k) (if w then l else []) b
        else u.refuse m (if w then 2 else 1) pa) := by
  change execPcieOutboundRequest _ _ _ _ _ _ _ _ _ = _
  simp only [execPcieOutboundRequest, hx, hq]

theorem State.outbound_write (s : State) (m : Master) (inst : Option (Fin 64)) (n a len : Nat) (l : List Byte) :
    s.outbound m inst n true a len l false = (s.emit (.pcie n (s.reqFn inst n) false 0 true a len l)).respOk [] := rfl

theorem State.outbound_write_poisoned (s : State) (m : Master) (inst : Option (Fin 64)) (n a len : Nat) (l : List Byte) :
    s.outbound m inst n true a len l true =
      ((s.epCount n true).emit (.pcie n (s.reqFn inst n) true 0 true a len l)).respOk [] := rfl

/-- A read leaves, and waits under the port's next tag (R453). -/
theorem State.outbound_read (s : State) (m : Master) (inst : Option (Fin 64)) (n a len : Nat) (l : List Byte) (b : Bool) :
    s.outbound m inst n false a len l b =
      { s.emit (.pcie n (s.reqFn inst n) false (s.pci.tags.getD n 0) false a len l) with
        pci.tags := setAt s.pci.tags n ((s.pci.tags.getD n 0 + 1) % 1024)
        pci.out := s.pci.out ++
          [⟨n, s.pci.tags.getD n 0, inst.map fun i => i.val, s.genOf inst, m.toNat, len, false, s.now, none⟩] } := rfl

/-! Completions and timeouts (R453, R475). -/

/-- An answer to an inbound request changes a count and what left the block. -/
theorem State.sendBack_rest (s : State) (back : Option (Nat × Nat)) : ∃ r o, s.sendBack back = { s with regs := r, out := o } := by
  unfold State.sendBack
  split
  · exact ⟨_, _, rfl⟩
  · split
    · exact ⟨_, _, rfl⟩
    · exact ⟨_, _, rfl⟩

theorem State.cplTimeout_none {s : State} {n tag : Nat} (h : s.pci.out.find? (fun q => q.port = n && q.tag = tag) = none) :
    s.cplTimeout n tag = s := by
  simp only [State.cplTimeout, h]

theorem State.inboundCpl_none {s : State} {n tag : Nat} (e p : Bool) (l : List Byte)
    (h : s.pci.out.find? (fun q => q.port = n && q.tag = tag) = none) : s.inboundCpl n tag e p l = s := by
  simp only [State.inboundCpl, h]

/-- The state in which a request's completion has timed out: it waits no longer. -/
def State.cplLost (s : State) (n : Nat) (q : PciReq) : State :=
  { s.timeTo (q.at_ + 4000000 * min 50 (2 ^ s.fld (rPciPort n 0) 27 24)) with pci.out := s.pci.out.erase q }

theorem State.cplTimeout_some {s : State} {n tag : Nat} {q : PciReq}
    (h : s.pci.out.find? (fun q => q.port = n && q.tag = tag) = some q) :
    s.cplTimeout n tag = if q.cfg then
        (((s.cplLost n q).setBit (rPciPort n 0x20) 31 false).setWord (rPciPort n 0x24) 0xFFFFFFFF).portIrq n 3
      else ((s.cplLost n q).respErr.sendBack q.back).portIrq n 3 := by
  simp only [State.cplTimeout, h]
  rfl

/-- A configuration read without a completion holds all ones (R455). -/
theorem State.cplTimeout_cfg {s : State} (h : regsWf s.regs = true) {n : Nat} (hn : n < 4) (q : PciReq) :
    let t := (((s.cplLost n q).setBit (rPciPort n 0x20) 31 false).setWord (rPciPort n 0x24) 0xFFFFFFFF).portIrq n 3
    RegsOnly [rPciIrq, rPciPort n 0x20, rPciPort n 0x24] (s.cplLost n q) t ∧ t.bit rPciIrq (8 * n + 3) = true ∧
      t.word (rPciPort n 0x24) = 0xFFFFFFFF ∧ t.bit (rPciPort n 0x20) 31 = false := by
  have h0 : regsWf (s.cplLost n q).regs = true := h
  have h1 : regsWf ((s.cplLost n q).setBit (rPciPort n 0x20) 31 false).regs = true := State.setBit_regsWf h0 _ _ _
  have h2 : regsWf (((s.cplLost n q).setBit (rPciPort n 0x20) 31 false).setWord (rPciPort n 0x24) 0xFFFFFFFF).regs = true :=
    State.setWord_regsWf h1 _ _
  refine ⟨(((RegsOnly.refl h0).setBit _ _ (by simp)).setWord _ (by simp)).portIrq _ _ (by simp),
    State.bit_portIrq h2 (by omega), ?_, ?_⟩
  · rw [State.portIrq, State.word_orWord_other h2 _ (rPciPort_ne_irq n _), State.word_setWord_same h1]
    rfl
  · rw [State.bit, State.portIrq, State.word_orWord_other h2 _ (rPciPort_ne_irq n _),
      State.word_setWord_other h1 _ (rPciPort_ne (by decide))]
    exact State.bit_setBit_same h0 false (by decide)

/-- Another read without a completion ends with an error response (R453). -/
theorem State.cplTimeout_read {s : State} (h : regsWf s.regs = true) {n : Nat} (hn : n < 4) (q : PciReq) :
    let t := ((s.cplLost n q).respErr.sendBack q.back).portIrq n 3
    t.bit rPciIrq (8 * n + 3) = true ∧ (∃ r o, t = { (s.cplLost n q).respErr with regs := r, out := o }) ∧
      (q.back = none → RegsBut [rPciIrq] s t) := by
  have hback : regsWf ((s.cplLost n q).respErr.sendBack q.back).regs = true :=
    (State.sendBack_keeps (Keeps.refl (s.cplLost n q).respErr)).regs h
  refine ⟨State.bit_portIrq hback (by omega), ?_, fun hnone => ?_⟩
  · obtain ⟨r, o, e⟩ := (s.cplLost n q).respErr.sendBack_rest q.back
    rw [e]
    exact ⟨_, _, rfl⟩
  · rw [hnone]
    exact ((RegsOnly.refl (s := (s.cplLost n q).respErr) h).portIrq n 3 (List.mem_singleton_self _)).word

/-- A completion of a read without poison, under the generation of its master, reaches it (R456). -/
theorem State.inboundCpl_read {s : State} {n tag : Nat} (e : Bool) (l : List Byte) {q : PciReq}
    (h : s.pci.out.find? (fun q => q.port = n && q.tag = tag) = some q) (hcfg : q.cfg = false) (hback : q.back = none)
    (hgen : ∀ i, q.inst = some i → s.instGen i = q.gen) :
    s.inboundCpl n tag e false l = if e then ({ s with pci.out := s.pci.out.erase q } : State).respErr
      else { s with pci.out := s.pci.out.erase q, resp := ⟨false, false, sliceBytes l 0 q.len⟩ } := by
  have hfresh : ∀ i, q.inst = some i → ({ s with pci.out := s.pci.out.erase q } : State).instGen i = q.gen := hgen
  unfold State.inboundCpl
  rw [h]
  dsimp only
  rw [hcfg, hback]
  cases hi : q.inst with
  | none => rfl
  | some i =>
    have := hfresh i hi
    simp only [Bool.false_eq_true, if_false, this, ne_eq, not_true_eq_false, decide_false, State.sendBack]

/-! Configuration requests (R455). -/

/-- PCI_CFG_ADDR as the write leaves it, before the request. -/
def State.cfgSet (s : State) (n v : Nat) : State := s.setWord (rPciPort n 0x20) (v % 2 ^ 29)

theorem State.cfgSet_regsOnly {s : State} (h : regsWf s.regs = true) (n v : Nat) :
    RegsOnly [rPciPort n 0x20, rPciPort n 0x24] s (s.cfgSet n v) := (RegsOnly.refl h).setWord _ (by simp)

theorem State.cfgSet_word {s : State} (h : regsWf s.regs = true) (n v : Nat) : (s.cfgSet n v).word (rPciPort n 0x20) = v % 2 ^ 29 := by
  rw [State.cfgSet, State.word_setWord_same h]
  omega

theorem State.cfgSet_shows {s : State} (h : regsWf s.regs = true) (n v : Nat) :
    (s.cfgSet n v).fld (rPciPort n 0x20) 28 0 = v % 2 ^ 29 ∧ (s.cfgSet n v).bit (rPciPort n 0x20) 31 = false := by
  rw [State.fld, State.bit, State.cfgSet_word h, bitsOf, Nat.shiftRight_zero]
  refine ⟨by omega, ?_⟩
  rw [bitOf_eq, Nat.testBit_mod_two_pow]
  rfl

theorem State.portUp_cfgSet {s : State} (h : regsWf s.regs = true) (n v : Nat) : (s.cfgSet n v).portUp n = s.portUp n := by
  have hreg := s.cfgSet_regsOnly h n v
  rw [State.portUp, State.portUp, hreg.bit 0 (by simp [rPciPort, rPci]), hreg.bit 0 (by simp [rPciPort, rPci])]

/-- Without GO, and at an endpoint, nothing leaves. -/
theorem State.cfgGo_idle {s : State} (h : regsWf s.regs = true) (m : Master) {n v : Nat} (write : Bool)
    (hgo : (bitOf v 31 && s.bit (rPciPort n 0) 1) = false) : s.cfgGo m n v write = s.cfgSet n v := by
  have hroot := (s.cfgSet_regsOnly h n v).bit (a := rPciPort n 0) 1 (by simp [rPciPort, rPci])
  have hstop : (!bitOf v 31 || !(s.cfgSet n v).bit (rPciPort n 0) 1) = true := by rw [hroot, ← Bool.not_and, hgo, Bool.not_false]
  exact if_pos hstop

/-- At a root port the request leaves, or ends at once without a link. -/
theorem State.cfgGo_root {s : State} (h : regsWf s.regs = true) (m : Master) {n v : Nat} (write : Bool)
    (hgo : (bitOf v 31 && s.bit (rPciPort n 0) 1) = true) :
    s.cfgGo m n v write =
      if !s.portUp n then (s.cfgSet n v).setWord (rPciPort n 0x24) 0xFFFFFFFF
      else { ((s.cfgSet n v).setBit (rPciPort n 0x20) 31 true).emit (.pcie n 0 false (s.pci.tags.getD n 0) write (v % 2 ^ 29) 4
          (if write then (s.cfgSet n v).regBytes (rPciPort n 0x24) 4 else [])) with
        pci.tags := setAt s.pci.tags n ((s.pci.tags.getD n 0 + 1) % 1024)
        pci.out := s.pci.out ++ [⟨n, s.pci.tags.getD n 0, none, 0, m.toNat, 4, true, s.now, none⟩] } := by
  have hroot := (s.cfgSet_regsOnly h n v).bit (a := rPciPort n 0) 1 (by simp [rPciPort, rPci])
  have hon : ¬(!bitOf v 31 || !(s.cfgSet n v).bit (rPciPort n 0) 1) = true := by
    rw [hroot, ← Bool.not_and, hgo]
    exact Bool.false_ne_true
  rw [← State.portUp_cfgSet h n v]
  exact if_neg hon

/-- A request that ends at once reads all ones. -/
theorem State.cfgSet_ones {s : State} (h : regsWf s.regs = true) (n v : Nat) :
    let t := (s.cfgSet n v).setWord (rPciPort n 0x24) 0xFFFFFFFF
    RegsOnly [rPciPort n 0x20, rPciPort n 0x24] s t ∧ t.word (rPciPort n 0x24) = 0xFFFFFFFF ∧
      t.fld (rPciPort n 0x20) 28 0 = v % 2 ^ 29 ∧ t.bit (rPciPort n 0x20) 31 = false := by
  have hreg := s.cfgSet_regsOnly h n v
  obtain ⟨hfld, hbit⟩ := s.cfgSet_shows h n v
  have hw : ((s.cfgSet n v).setWord (rPciPort n 0x24) 0xFFFFFFFF).word (rPciPort n 0x20) = (s.cfgSet n v).word (rPciPort n 0x20) :=
    State.word_setWord_other hreg.wf _ (rPciPort_ne (by decide))
  exact ⟨hreg.setWord _ (by simp), State.word_setWord_same hreg.wf _ _, (State.fld_congr hw 28 0).trans hfld,
    (congrArg (bitOf · 31) hw).trans hbit⟩

/-- A request that leaves shows that it waits. -/
theorem State.cfgSet_sent {s : State} (h : regsWf s.regs = true) (n v : Nat) :
    let t := (s.cfgSet n v).setBit (rPciPort n 0x20) 31 true
    RegsOnly [rPciPort n 0x20, rPciPort n 0x24] s t ∧ t.word (rPciPort n 0x24) = s.word (rPciPort n 0x24) ∧
      t.fld (rPciPort n 0x20) 28 0 = v % 2 ^ 29 ∧ t.bit (rPciPort n 0x20) 31 = true := by
  have hreg := s.cfgSet_regsOnly h n v
  have hone := ((RegsOnly.refl (l := [rPciPort n 0x20]) h).setWord (v % 2 ^ 29) (List.mem_singleton_self _)).setBit 31 true
    (List.mem_singleton_self _)
  exact ⟨hreg.setBit _ _ (by simp), hone.word _ (by simp [rPciPort, rPci]),
    (State.fld_setFld_apart hreg.wf _ (by decide) (by decide) (by decide)).trans (s.cfgSet_shows h n v).1,
    State.bit_setBit_same hreg.wf true (by decide)⟩

theorem exec_pciCfgGo (s : State) (m : Master) (n : Fin 4) (v : BitVec 32) (w : Bool) (may : s.sysWriter m = true) :
    exec (.pciCfgGo m n v w) s =
      .next (if s.bit (rPciPort n 0x20) 31 then s.respOk [] else (s.cfgGo m n v.toNat w).respOk []) := by
  change execPciCfgGo _ _ _ _ _ = _
  rw [execPciCfgGo, if_pos may]

theorem exec_pciCfgGo_refused (s : State) (m : Master) (n : Fin 4) (v : BitVec 32) (w : Bool) (may : s.sysWriter m = false) :
    exec (.pciCfgGo m n v w) s = .next (s.refuse m 2 (rPciPort n 0x20)) := by
  change execPciCfgGo _ _ _ _ _ = _
  rw [execPciCfgGo, may]
  rfl

/-! Requests from a link partner (R454, R459, R534). -/

theorem State.inbound_down {s : State} {n : Nat} (h : s.portUp n = false) (fn rid bar kind a len : Nat) (l : List Byte) (ep : Bool)
    (tag : Nat) : s.inbound n fn rid bar kind a len l ep tag = s := by
  simp [State.inbound, h]

/-- The requester that function fn of port n is. -/
abbrev fnMaster (n fn : Nat) : Master := BitVec.ofNat 16 (0x4000 + 1024 * n + fn)

/-- A read or write without poison at an endpoint whose link is up goes to the function addressed. -/
theorem State.inbound_endpoint {s : State} {n kind : Nat} (hup : s.portUp n = true) (hk : kind < 2)
    (hroot : s.bit (rPciPort n 0) 1 = false) (fn rid bar a len : Nat) (l : List Byte) (tag : Nat) :
    s.inbound n fn rid bar kind a len l false tag =
      if fn = 0 then (if bar = 0 && a < 2 ^ 20 then s.inPf0 (fnMaster n fn) n tag kind a len l
        else s.inFail n tag 1 (decide (kind = 1)))
      else ((s.portVfs n).find? fun i => decide (s.instVf i + 1 = fn)).elim (s.inFail n tag 1 (decide (kind = 1))) fun i =>
        if s.instState i ≠ 1 then s.inFail n tag 1 (decide (kind = 1))
        else if bar = 0 && a < 2 ^ 16 then s.inVfBar0 (fnMaster n fn) i n tag kind a len l
        else if bar = 2 && a < 2 ^ (30 + s.fld (rPciPort n 0) 31 28) then s.inXlat (fnMaster n fn) i n tag kind a len l false true
        else s.inFail n tag 1 (decide (kind = 1)) := by
  have hatom : decide (kind ≥ 2) = false := decide_eq_false (by omega)
  simp only [State.inbound, hup, hatom, hroot, Bool.not_true, Bool.false_and, Bool.false_eq_true, if_false]
  split
  · rfl
  · split
    · next hnone => rw [hnone]; rfl
    · next i hsome => rw [hsome]; rfl

/-- A read that fails is answered, and counted (R459). -/
theorem State.inFail_read (s : State) (n tag : Nat) :
    s.inFail n tag 1 false = (s.bump (rPciPort n 0x18)).emit (.pcieCpl n tag 1 false []) := rfl

/-- A posted write that fails is dropped, and counted (R459). -/
theorem State.inFail_posted (s : State) (n tag status : Nat) :
    s.inFail n tag status true = (s.bump (rPciPort n 0x14)).portIrq n 4 := rfl

/-- Offsets of PF0 without a meaning read 0 (R534). -/
theorem State.inPf0_zero {s : State} (m : Master) (n tag : Nat) {o : Nat} (len : Nat) (l : List Byte) (ho : 0x4000 ≤ o) :
    s.inPf0 m n tag 0 o len l = (s.respOk (zeroBytes len)).emit (.pcieCpl n tag 0 false (zeroBytes len)) := by
  have h1 : ¬o < 0x1000 := by omega
  have h2 : ¬o < 0x2000 := by omega
  have h3 : ¬o < 0x2040 := by omega
  have h4 : ¬o < 0x3008 := by omega
  simp only [State.inPf0, h1, h2, h3, h4, decide_false, Bool.and_false, Bool.false_eq_true, if_false]
  rfl

/-- A read whose translated access neither waits nor fails is answered with its data. -/
theorem State.inXlat_read {s u v : State} {m : Master} {i n tag va pa len : Nat} {l : List Byte} {s2only : Bool}
    (hx : s.xlatBy i m 1 va s2only = (u, some pa)) (hv : u.mapAccess m (asInst i) false pa len l false = v)
    (hheld : v.heldAcc.length ≤ u.heldAcc.length) (hwait : v.pci.out.length ≤ u.pci.out.length) (hok : v.resp.err = false) :
    s.inXlat m i n tag 0 va len l false s2only = v.emit (.pcieCpl n tag 0 v.resp.poison v.resp.data) := by
  have h1 : ¬v.heldAcc.length > u.heldAcc.length := by omega
  have h2 : ¬v.pci.out.length > u.pci.out.length := by omega
  have hacc : inAcc 0 = 1 := rfl
  simp only [State.inXlat, hacc, hx, State.inAccess, Nat.ofNat_pos, if_true, zero_ne_one, decide_false, if_false, hv,
    Bool.false_eq_true, h1, h2, Bool.or_self, Bool.and_false, State.inAnswer, hok]
  rfl

/-- The state that answers an inbound request of a kind. -/
theorem exec_pcieInboundRequest {s t : State} {n : Fin 4} {fn : Fin 256} {rid : BitVec 16} {bar : Fin 3} {k : Fin 5} {a : BitVec 64}
    {z : Fin 4097} {l : List Byte} {ep : Bool} {tag : BitVec 14} {kind : Nat} (hk : k.val = kind)
    (e : s.inbound n fn rid.toNat bar kind a.toNat z l ep tag.toNat = t) :
    exec (.pcieInboundRequest n fn rid bar k a z l ep tag) s = .next t := by
  subst hk
  exact congrArg Host.Outcome.next e

/-- A request to an absent function or beyond its window is answered as unsupported, or dropped when it is posted (R459). -/
theorem State.inbound_unsupported {s : State} {n kind fn bar a : Nat} (hup : s.portUp n = true) (hk : kind < 2)
    (hroot : s.bit (rPciPort n 0) 1 = false)
    (h : fn = 0 ∧ (bar ≠ 0 ∨ 2 ^ 20 ≤ a) ∨ fn ≠ 0 ∧ (s.portVfs n).find? (fun i => decide (s.instVf i + 1 = fn)) = none)
    (rid len : Nat) (l : List Byte) (tag : Nat) :
    s.inbound n fn rid bar kind a len l false tag = s.inFail n tag 1 (decide (kind = 1)) := by
  rw [State.inbound_endpoint hup hk hroot]
  rcases h with ⟨hfn, hout⟩ | ⟨hfn, hnone⟩
  · have hbeyond : (decide (bar = 0) && decide (a < 2 ^ 20)) = false := by
      rw [Bool.and_eq_false_iff, decide_eq_false_iff_not, decide_eq_false_iff_not]
      omega
    rw [if_pos hfn, hbeyond]
    rfl
  · rw [if_neg hfn, hnone]
    rfl

end Sys2Proof.Machine

open Sys2Proof Sys2Proof.Machine

/-- Settles O38: each clause is one case of what a port does with a request or completion, and a timeout or configuration request
writes the port's registers only. -/
theorem partnerPortsCarryRequestsBothWays : Obligations.PartnerPortsCarryRequestsBothWays := by
  unfold Obligations.PartnerPortsCarryRequestsBothWays
  refine ⟨?outbound, ?none, ?timeout, ?completion, fun s m n v w may => exec_pciCfgGo_refused s m n v w may, ?cfg, ?inbound⟩
  case outbound =>
    intro s u m inst n w a k l b va
    refine ⟨fun hx => exec_pcieOutboundRequest_fault k l b hx, fun pa q hx hq => ?_⟩
    have e := exec_pcieOutboundRequest_port k l b hx hq
    refine ⟨fun hdown => ?down, fun hup hw hb => ?write, fun hup hw hb hcan => ?poisoned, fun hup hw => ?read⟩
    case down => rw [e, hdown]; rfl
    case write =>
      subst hw hb
      rw [e, if_pos hup]
      exact congrArg Host.Outcome.next (u.outbound_write m inst q (portOffset pa) l.length l)
    case poisoned =>
      subst hw hb
      obtain ⟨-, hwf⟩ := State.canonical_iff.mp hcan
      rw [if_pos hup] at e
      refine .of_exec (e.trans (congrArg Host.Outcome.next (u.outbound_write_poisoned m inst q (portOffset pa) l.length l)))
        ⟨rfl, State.fld_bumpSat_same hwf (by decide) (by decide), ?_⟩
      exact ((RegsOnly.refl hwf).bumpSat 31 16 (List.mem_singleton_self _)).word
    case read =>
      subst hw
      rw [if_pos hup] at e
      exact .of_exec (e.trans (congrArg Host.Outcome.next (u.outbound_read m inst q (portOffset pa) k [] b))) ⟨rfl, rfl, rfl, rfl, rfl⟩
  case none =>
    intro s n tag h
    exact ⟨congrArg Host.Outcome.next (State.cplTimeout_none h),
      fun e p l => congrArg Host.Outcome.next (State.inboundCpl_none e p l h)⟩
  case timeout =>
    intro s n tag q hcan h
    obtain ⟨-, hwf⟩ := State.canonical_iff.mp hcan
    have e := State.cplTimeout_some h
    cases hcfg : q.cfg with
    | true =>
      obtain ⟨hreg, hirq, hones, hgo⟩ := State.cplTimeout_cfg hwf n.isLt q
      rw [hcfg, if_pos rfl] at e
      obtain ⟨r, hr⟩ := hreg.rest
      refine .of_exec (congrArg Host.Outcome.next e) ⟨?_, ?_, hirq, ?_, nofun, fun _ => ⟨hones, hgo, hreg.word⟩⟩
      all_goals rw [hr]; rfl
    | false =>
      obtain ⟨hirq, ⟨r, o, hr⟩, hback⟩ := State.cplTimeout_read hwf n.isLt q
      rw [hcfg, if_neg Bool.false_ne_true] at e
      refine .of_exec (congrArg Host.Outcome.next e) ⟨?_, ?_, hirq, ?_, fun _ => ⟨?_, hback⟩, nofun⟩
      all_goals rw [hr]; rfl
  case completion =>
    intro s n tag e p l q h hcfg hback hgen hp
    subst hp
    exact congrArg Host.Outcome.next (State.inboundCpl_read e l h hcfg hback hgen)
  case cfg =>
    intro s m n v w hcan may
    obtain ⟨-, hwf⟩ := State.canonical_iff.mp hcan
    have e := exec_pciCfgGo s m n v w may
    refine ⟨fun hbusy => ?busy, fun hidle => ?idle⟩
    case busy => rw [e, if_pos hbusy]
    case idle =>
      rw [hidle, if_neg Bool.false_ne_true] at e
      cases hgo : bitOf v.toNat 31 && s.bit (rPciPort n 0) 1 with
      | false =>
        rw [State.cfgGo_idle hwf m w hgo] at e
        obtain ⟨hfld, hbit⟩ := s.cfgSet_shows hwf n v.toNat
        have hreg := s.cfgSet_regsOnly hwf n v.toNat
        have hdata : (s.cfgSet n v.toNat).word (rPciPort n 0x24) = s.word (rPciPort n 0x24) :=
          State.word_setWord_other hwf _ (rPciPort_ne (by decide))
        exact .of_exec e ⟨hfld, hbit, hdata, rfl, hreg.word, rfl, rfl⟩
      | true =>
        rw [State.cfgGo_root hwf m w hgo] at e
        cases hup : s.portUp n with
        | false =>
          obtain ⟨hreg, hones, hfld, hbit⟩ := s.cfgSet_ones hwf n v.toNat
          rw [hup] at e
          exact .of_exec e ⟨hfld, hbit, hones, rfl, hreg.word, rfl, rfl⟩
        | true =>
          obtain ⟨hreg, hdata, hfld, hbit⟩ := s.cfgSet_sent hwf n v.toNat
          rw [hup] at e
          exact .of_exec e ⟨hfld, hbit, hdata, rfl, hreg.word, rfl, rfl⟩
  case inbound =>
    intro s n fn rid bar k a z l ep tag
    refine ⟨fun hdown => ?down, fun hcan hup hep hk hroot habsent => ?absent, fun hup hep hk hroot hfn hbar hlo hhi => ?zero, ?aperture⟩
    case down => exact congrArg Host.Outcome.next (State.inbound_down hdown ..)
    case absent =>
      subst hep
      obtain ⟨-, hwf⟩ := State.canonical_iff.mp hcan
      have e := State.inbound_unsupported hup hk hroot habsent rid.toNat z l tag.toNat
      rcases (by omega : k.val = 0 ∨ k.val = 1) with hread | hpost
      · rw [hread, decide_eq_false zero_ne_one, State.inFail_read] at e
        have hreg := (RegsOnly.refl (l := [rPciPort n 0x18]) hwf).bump (List.mem_singleton_self _)
        refine .of_exec (exec_pcieInboundRequest hread e)
          ⟨rfl, fun _ => ⟨rfl, State.word_bump_same hwf _, hreg.word⟩, fun hpost => absurd (hread.symm.trans hpost) zero_ne_one⟩
      · rw [hpost, decide_eq_true rfl, State.inFail_posted] at e
        have hbump := (RegsOnly.refl (l := [rPciPort n 0x14, rPciIrq]) hwf).bump (a := rPciPort n 0x14) (by simp)
        have hcount : ((s.bump (rPciPort n 0x14)).portIrq n 4).word (rPciPort n 0x14) = (s.word (rPciPort n 0x14) + 1) % 2 ^ 32 := by
          rw [State.portIrq, State.word_orWord_other hbump.wf _ (rPciPort_ne_irq n _), State.word_bump_same hwf]
        refine .of_exec (exec_pcieInboundRequest hpost e)
          ⟨rfl, fun hread => absurd (hpost.symm.trans hread) one_ne_zero, fun _ => ⟨rfl, hcount,
            State.bit_portIrq hbump.wf (by omega), (hbump.portIrq n 4 (by simp)).word⟩⟩
    case zero =>
      subst hep
      have e := State.inbound_endpoint hup (show 0 < 2 by decide) hroot fn rid.toNat bar a.toNat z l tag.toNat
      have hin : (decide (bar.val = 0) && decide (a.toNat < 2 ^ 20)) = true := by rw [decide_eq_true hbar, decide_eq_true hhi]; rfl
      rw [if_pos hfn, hin, if_pos rfl, State.inPf0_zero _ _ _ _ _ hlo] at e
      exact .of_exec (exec_pcieInboundRequest hk e) ⟨rfl, rfl, rfl⟩
    case aperture =>
      intro i u v pa hup hep hk hroot hfn hfind hst hbar ha hx hv hheld hwait hok
      subst hep
      have e := State.inbound_endpoint hup (show 0 < 2 by decide) hroot fn rid.toNat bar a.toNat z l tag.toNat
      have hnot0 : (decide (bar.val = 0) && decide (a.toNat < 2 ^ 16)) = false := by rw [decide_eq_false (by omega)]; rfl
      have hin : (decide (bar.val = 2) && decide (a.toNat < 2 ^ (30 + s.fld (rPciPort n 0) 31 28))) = true := by
        rw [decide_eq_true hbar, decide_eq_true ha]
        rfl
      rw [if_neg hfn, hfind, Option.elim_some, if_neg (not_not_intro hst), hnot0, if_neg Bool.false_ne_true, hin, if_pos rfl,
        State.inXlat_read hx hv hheld hwait hok] at e
      exact exec_pcieInboundRequest hk e

end

section
/-! PROOF. O35 is refuted: the record of an uncorrectable error can be written over the granule that the error has poisoned. -/

namespace Sys2Proof.Machine

/-- The ring of error records has 64 entries from the start of HBM, in the first page of HBM, which is a SAFETY range (R393, R409). -/
def recordsInHbm : State :=
  { State.reset with regs := [(rMem 0x28, 6), (rMem 0x2C, 8), (rMem 0x400, 1), (rMem 0x404, 8), (rMem 0x40C, 8)] }

theorem recordsInHbm_premises :
    recordsInHbm.canonical = true ∧ recordsInHbm.critTag hbmBase = 1 ∧ recordsInHbm.mapAnswer mHqm false hbmBase = .served ∧
      recordsInHbm.addrKind hbmBase = .hbm ∧ recordsInHbm.winMeets hbmBase 1 = false := by
  decide +kernel

/-- The read poisons the first granule (R399); the error's record, a write of the whole granule, takes the poison away (R398, R409). -/
theorem recordsInHbm_poison : (recordsInHbm.memoryRead mHqm none hbmBase 1 2 0 0).poison = [] := by
  decide +kernel

end Sys2Proof.Machine

open Sys2Proof Sys2Proof.Machine

/-- Refutes O35: a granule of HBM read with an uncorrectable error does not stay poisoned where the ring of error records holds it and the
record of that very error is written there. -/
theorem not_memoryReadsWritesAndScrubbing : ¬ Obligations.MemoryReadsWritesAndScrubbing := by
  unfold Obligations.MemoryReadsWritesAndScrubbing
  rintro ⟨-, -, -, h, -⟩
  obtain ⟨-, -, hserved, hhbm, hwin⟩ := recordsInHbm_premises
  obtain ⟨t, ht, -, hpoison, -⟩ := h recordsInHbm recordsInHbm mHqm none (BitVec.ofNat 64 hbmBase) 1 0 0 hbmBase rfl hserved hhbm
    hwin (by decide) hhbm rfl
  have e : t = recordsInHbm.memoryRead mHqm none hbmBase 1 2 0 0 := (Host.Outcome.next.inj ht).symm
  rw [e, recordsInHbm_poison] at hpoison
  cases hpoison

end

section
/-! PROOF. O53 is refuted: a panel that is gated keeps tokens where the table of tokens lists it twice. -/

namespace Sys2Proof.Machine

/-- A change to ECO, which gates panels 4 to 7 and 12 to 15 (R21), is at step 2. -/
def ecoChange : ProfChg := ⟨2, 2, 0, 0xF0F0, 0, 0, 0⟩

/-- The change is in progress, no cell is busy, and the tokens that panel 4 holds are listed twice. -/
def tokensTwice : State := { State.reset with pwr.prof := some ecoChange, pwr.held := [(admKey 0 4, 1), (admKey 0 4, 2)] }

theorem tokensTwice_premises :
    tokensTwice.procState 1 < 3 ∧ tokensTwice.canonical = true ∧ (∀ x < 256, tokensTwice.cellBusy x = false) := by
  decide +kernel

/-- Gating the panel returns the tokens of the first entry (R592), and the second is then the one that is found. -/
theorem tokensTwice_held : (tokensTwice.drainProf false).admHeld 0 4 = 2 := by
  decide +kernel

end Sys2Proof.Machine

open Sys2Proof Sys2Proof.Machine

/-- Refutes O53: the statement asks only for canonical memory and registers, so the table of tokens may list a panel twice; gating the
panel then returns one entry's tokens, and the other's are left. -/
theorem not_aProfileChangeGoesStepByStep : ¬ Obligations.AProfileChangeGoesStepByStep := by
  unfold Obligations.AProfileChangeGoesStepByStep
  rintro ⟨-, -, -, -, h⟩
  obtain ⟨hproc, hcan, hidle⟩ := tokensTwice_premises
  obtain ⟨hdrain, -⟩ := h tokensTwice ecoChange rfl hproc hcan
  obtain ⟨-, hgate⟩ := hdrain rfl false
  have hfree : ¬((∃ x, x < 256 ∧ bitOf ecoChange.gated (x / 16) = true ∧ tokensTwice.cellBusy x = true) ∨
      ecoChange.target = 3 ∧ false = false) := by
    rintro (⟨x, hx, -, hbusy⟩ | ⟨h3, -⟩)
    · rw [hidle x hx] at hbusy
      cases hbusy
    · cases h3
  obtain ⟨t, ht, -, hpanel⟩ := hgate hfree
  have e : t = tokensTwice.drainProf false := (Host.Outcome.next.inj ht).symm
  obtain ⟨-, -, hheld, -⟩ := hpanel 4 (by decide) rfl
  rw [e, tokensTwice_held] at hheld
  cases hheld

end

section
/-! PROOF. Operations of the phase engine: words apart from each other, and what an operation leaves alone. -/

namespace Sys2Proof.Machine

/-! Addresses of PHX. -/

@[simp] theorem rPhx_inj {o p : Nat} : rPhx o = rPhx p ↔ o = p := by
  unfold rPhx
  omega

@[simp] theorem rAxis_inj {n o p : Nat} : rAxis n o = rAxis n p ↔ o = p := by
  unfold rAxis rPhx
  omega

@[simp] theorem rTack_inj {n o p : Nat} : rTack n o = rTack n p ↔ o = p := by
  unfold rTack rPhx
  omega

@[simp] theorem rAxis_add_four (n o : Nat) : rAxis n o + 4 = rAxis n (o + 4) := rfl

@[simp] theorem rTack_add_four (n o : Nat) : rTack n o + 4 = rTack n (o + 4) := rfl

@[simp] theorem rAxis_ne_rPhxIrq (n o : Nat) : rAxis n o ≠ rPhxIrq := by
  unfold rAxis rPhxIrq rPhx
  omega

@[simp] theorem rTack_ne_rPhxIrq (n o : Nat) : rTack n o ≠ rPhxIrq := by
  unfold rTack rPhxIrq rPhx
  omega

theorem rAxis_ne_rTack {n : Nat} (hn : n < 16) (o : Nat) {p : Nat} (hp : p < 0x40) (k : Nat) : rAxis n p ≠ rTack k o := by
  unfold rAxis rTack rPhx
  omega

/-! What an operation leaves alone. -/

/-- Only registers at the addresses listed, the phase engine's own state and the planner's differ, and the register file is in canonical
form. -/
def PhxOnly (l : List Nat) (s t : State) : Prop := ∃ p w, RegsOnly l { s with phx := p, wpe := w } t

namespace PhxOnly

variable {l : List Nat} {s t : State}

theorem refl (h : regsWf s.regs = true) : PhxOnly l s s := ⟨s.phx, s.wpe, RegsOnly.refl h⟩

theorem wf (h : PhxOnly l s t) : regsWf t.regs = true := let ⟨_, _, k⟩ := h; k.wf

theorem word (h : PhxOnly l s t) : RegsBut l s t := let ⟨_, _, k⟩ := h; k.word

theorem bit (h : PhxOnly l s t) {a : Nat} (n : Nat) (ha : a ∉ l) : t.bit a n = s.bit a n := by
  rw [State.bit, h.word a ha, State.bit]

theorem fld (h : PhxOnly l s t) {a : Nat} (hi lo : Nat) (ha : a ∉ l) : t.fld a hi lo = s.fld a hi lo :=
  State.fld_congr (h.word a ha) hi lo

theorem word64 (h : PhxOnly l s t) {a : Nat} (ha : a ∉ l) (ha4 : a + 4 ∉ l) : t.word64 a = s.word64 a := by
  rw [State.word64, h.word a ha, h.word _ ha4, State.word64]

theorem mem (h : PhxOnly l s t) : t.mem = s.mem := let ⟨_, _, k⟩ := h; k.mem

theorem sfe (h : PhxOnly l s t) : t.sfe = s.sfe := by obtain ⟨_, _, k⟩ := h; obtain ⟨_, rfl⟩ := k.rest; rfl

theorem setWord (h : PhxOnly l s t) {a : Nat} (v : Nat) (ha : a ∈ l) : PhxOnly l s (t.setWord a v) :=
  let ⟨p, w, k⟩ := h; ⟨p, w, k.setWord v ha⟩

theorem setBit (h : PhxOnly l s t) {a : Nat} (n : Nat) (b : Bool) (ha : a ∈ l) : PhxOnly l s (t.setBit a n b) := h.setWord _ ha

theorem orWord (h : PhxOnly l s t) {a : Nat} (m : Nat) (ha : a ∈ l) : PhxOnly l s (t.orWord a m) := h.setWord _ ha

theorem bumpBy (h : PhxOnly l s t) {a : Nat} (n : Nat) (ha : a ∈ l) : PhxOnly l s (t.bumpBy a n) := h.setWord _ ha

theorem bump (h : PhxOnly l s t) {a : Nat} (ha : a ∈ l) : PhxOnly l s (t.bump a) := h.bumpBy 1 ha

theorem setWord64 (h : PhxOnly l s t) {a : Nat} (v : Nat) (ha : a ∈ l) (ha4 : a + 4 ∈ l) : PhxOnly l s (t.setWord64 a v) :=
  (h.setWord v ha).setWord _ ha4

/-- A change of the phase engine's own state or of the planner's. -/
theorem upd (h : PhxOnly l s t) (p : PhxS) (w : WpeS) : PhxOnly l s { t with phx := p, wpe := w } := by
  obtain ⟨_, _, wf, word, r, rfl⟩ := h
  exact ⟨p, w, wf, word, r, rfl⟩

theorem ite {p : Prop} [Decidable p] {u : State} (h : PhxOnly l s t) (k : PhxOnly l s u) : PhxOnly l s (if p then t else u) := by
  split
  · exact h
  · exact k

end PhxOnly

end Sys2Proof.Machine
end

section
/-! PROOF. Phase axes: what an event does to the axis that follows it (O7). -/

namespace Sys2Proof.Machine

/-! Operations on an axis. -/

/-- The words of an axis, beside its value, that an event may write, and the interrupt word. -/
def axisFlags (n : Nat) : List Nat := [rAxis n 0x20, rAxis n 0x24, rAxis n 0x28, rPhxIrq]

/-- The same with the two words of its value. -/
def axisWords (n : Nat) : List Nat := rAxis n 0x10 :: rAxis n 0x14 :: axisFlags n

theorem axisFlags_subset (n : Nat) : axisFlags n ⊆ axisWords n := fun _ h => .tail _ (.tail _ h)

namespace PhxOnly

variable {l : List Nat} {s t : State} {n : Nat}

theorem modAxis (h : PhxOnly l s t) (n : Nat) (f : AxisS → AxisS) : PhxOnly l s (t.modAxis n f) := h.upd _ _

theorem axUpdate (h : PhxOnly l s t) (hl : axisFlags n ⊆ l) : PhxOnly l s (t.axUpdate n) := by
  have h28 := (h.bump (hl (show rAxis n 0x28 ∈ axisFlags n by simp [axisFlags]))).modAxis n fun x => { x with lastUpd := t.now }
  exact ite (h28.setBit _ _ (hl (by simp [axisFlags]))) h28

theorem axAnomaly (h : PhxOnly l s t) (b : Nat) (hl : axisFlags n ⊆ l) : PhxOnly l s (t.axAnomaly n b) :=
  (h.setBit _ _ (hl (by simp [axisFlags]))).orWord _ (hl (by simp [axisFlags]))

theorem markSteps (h : PhxOnly l s t) (n a b : Nat) (hl : rPhxIrq ∈ l) : PhxOnly l s (t.markSteps n a b) :=
  ite ((h.upd _ _).orWord _ hl) (h.upd _ _)

theorem setAxis (h : PhxOnly l s t) (v : Nat) (disc : Bool) (hl : axisWords n ⊆ l) : PhxOnly l s (t.setAxis n v disc) := by
  have hv := h.setWord64 (a := rAxis n 0x10) (v % 2 ^ 64) (hl (by simp [axisWords])) (hl (by simp [axisWords]))
  exact ite ((hv.setBit _ _ (hl (by simp [axisWords, axisFlags]))).markSteps n _ _ (hl (by simp [axisWords, axisFlags]))) hv

theorem setBacklog (h : PhxOnly l s t) (b : Nat) (hl : axisFlags n ⊆ l) : PhxOnly l s (t.setBacklog n b) :=
  (h.modAxis n _).setWord _ (hl (by simp [axisFlags]))

/-- An operation that writes the flags of an axis alone leaves its value. -/
theorem axValue (h : PhxOnly (axisFlags n) s t) : t.axValue n = s.axValue n :=
  h.word64 (by simp [axisFlags]) (by simp [axisFlags])

end PhxOnly

theorem State.axUpdate_flags {s : State} (h : regsWf s.regs = true) (n : Nat) : PhxOnly (axisFlags n) s (s.axUpdate n) :=
  (PhxOnly.refl h).axUpdate (List.Subset.refl _)

/-- An axis holds the value that it takes, modulo 2^64. -/
theorem State.axValue_setAxis {s : State} (h : regsWf s.regs = true) (n v : Nat) (disc : Bool) :
    (s.setAxis n v disc).axValue n = v % 2 ^ 64 := by
  have hv : (s.setWord64 (rAxis n 0x10) (v % 2 ^ 64)).axValue n = v % 2 ^ 64 := by
    rw [State.axValue, State.word64_setWord64_same h, Nat.mod_mod]
  cases disc with
  | false => exact hv
  | true =>
    have k : PhxOnly (axisFlags n) (s.setWord64 (rAxis n 0x10) (v % 2 ^ 64)) (s.setAxis n v true) :=
      ((PhxOnly.refl (State.setWord64_regsWf h _ _)).setBit _ _ (by simp [axisFlags])).markSteps n _ _ (by simp [axisFlags])
    rw [k.axValue, hv]

theorem State.axis_modAxis_frameOpen (s : State) (n : Nat) {f : AxisS → AxisS} (hf : ∀ x, (f x).frameOpen = x.frameOpen) :
    ((s.modAxis n f).axis n).frameOpen = (s.axis n).frameOpen := by
  simp only [State.axis, State.modAxis, modAt, List.getD_eq_getElem?_getD]
  split
  · next x hx =>
    have hlen : n < s.phx.axes.length := (List.getElem?_eq_some_iff.mp hx).1
    rw [List.getElem?_set_self hlen, hx]
    exact hf x
  · rfl

/-- An update leaves it open whether a frame is open. -/
theorem State.axUpdate_frameOpen (s : State) (n : Nat) : ((s.axUpdate n).axis n).frameOpen = (s.axis n).frameOpen := by
  have h := (s.bump (rAxis n 0x28)).axis_modAxis_frameOpen n (f := fun x => { x with lastUpd := s.now }) fun _ => rfl
  unfold State.axUpdate
  dsimp only
  split <;> exact h

theorem State.axValue_lt (s : State) (n : Nat) : s.axValue n < 2 ^ 64 := by
  have hlow := s.word_lt (rAxis n 0x10)
  have hhigh := s.word_lt (rAxis n 0x10 + 4)
  unfold State.axValue State.word64
  omega

/-! Events. -/

/-- A sample ahead of the axis by a distance that is neither a step back nor a jump (R39). -/
def State.forwardStep (s : State) (n a : Nat) : Prop :=
  (a + 2 ^ 32 - s.axValue n % 2 ^ 32) % 2 ^ 32 < 2 ^ 31 ∧ (a + 2 ^ 32 - s.axValue n % 2 ^ 32) % 2 ^ 32 ≤ s.axMax n

/-- Such a sample moves the axis by the distance. -/
theorem State.angleSample_forward {s : State} (h : regsWf s.regs = true) {n a : Nat} (hf : s.forwardStep n a) :
    s.angleSample n a =
      (s.axUpdate n).setAxis n (s.axValue n + (a + 2 ^ 32 - s.axValue n % 2 ^ 32) % 2 ^ 32) false := by
  obtain ⟨hhalf, hstep⟩ := hf
  have hu := State.axUpdate_flags h n
  have hmax : (s.axUpdate n).axMax n = s.axMax n := hu.word _ (by simp [axisFlags])
  simp only [State.angleSample, hu.axValue, hmax]
  rw [if_neg (by omega), if_neg (by omega)]

/-- A frame start writes the axis's own words alone. -/
theorem State.lineFrameStart_words {s : State} (h : regsWf s.regs = true) (n : Nat) :
    PhxOnly (axisWords n) s (s.lineFrameStart n) := by
  have hu := (PhxOnly.refl h).axUpdate (axisFlags_subset n)
  exact ((PhxOnly.ite ((hu.axAnomaly 8 (axisFlags_subset n)).setAxis _ false (List.Subset.refl _)) hu).modAxis n _).setAxis _ true
    (List.Subset.refl _)

theorem lineEndValue_frame (v : Nat) : lineEndValue v / 2 ^ 20 = v / 2 ^ 20 := by
  unfold lineEndValue
  omega

theorem lineEndValue_lt {v : Nat} (h : v < 2 ^ 64) : lineEndValue v < 2 ^ 64 := by
  unfold lineEndValue
  omega

/-- A frame start moves the axis to line 0 of the next frame, whether or not it implies the end of an open one (R42). -/
theorem State.axValue_lineFrameStart {s : State} (h : regsWf s.regs = true) (n : Nat) :
    (s.lineFrameStart n).axValue n = 2 ^ 20 * (s.axValue n / 2 ^ 20 + 1) % 2 ^ 64 := by
  have hu := State.axUpdate_flags h n
  have ha := hu.axAnomaly (n := n) 8 (List.Subset.refl _)
  unfold State.lineFrameStart
  dsimp only
  split
  · have he := ((PhxOnly.refl ha.wf).setAxis (n := n) (lineEndValue ((s.axUpdate n).axValue n)) false
      (List.Subset.refl _)).modAxis n fun x => { x with frameOpen := true }
    rw [State.axValue_setAxis he.wf, State.axValue_setAxis ha.wf, hu.axValue, Nat.mod_eq_of_lt (lineEndValue_lt (s.axValue_lt n)),
      lineEndValue_frame]
  · rw [State.axValue_setAxis (hu.modAxis n _).wf, hu.axValue]

/-- A line start ahead of the count moves the axis to that line (R42). -/
theorem State.lineLineStart_ahead {s : State} (h : regsWf s.regs = true) {n l : Nat} (hl : l ≤ 0xFFFFF)
    (hahead : s.axValue n % 2 ^ 20 < l) :
    s.lineLineStart n l = (s.axUpdate n).setAxis n (2 ^ 20 * (s.axValue n / 2 ^ 20) + l) false := by
  have hu := State.axUpdate_flags h n
  simp only [State.lineLineStart, if_neg (Nat.not_lt.mpr hl), Nat.min_eq_left hl, hu.axValue, gt_iff_lt, if_pos hahead]

/-- The end of an open frame counts one line on and closes the frame (R42). -/
theorem State.lineFrameEnd_open {s : State} (h : regsWf s.regs = true) {n : Nat} (ho : (s.axis n).frameOpen = true) :
    s.lineFrameEnd n =
      ((s.axUpdate n).modAxis n fun x => { x with frameOpen := false }).setAxis n (lineEndValue (s.axValue n)) false := by
  have hu := State.axUpdate_flags h n
  simp only [State.lineFrameEnd, s.axUpdate_frameOpen n, ho, hu.axValue, Bool.not_true, Bool.false_eq_true, if_false]

/-! The commands. -/

/-- The oldest event for an axis, when it is of the stream and kind asked for and not held, is taken. -/
theorem State.takeAxisEv_head {s : State} {stream kind : Nat} {e : AxisEv} {rest : List AxisEv} (hq : s.sfe.axisQ = e :: rest)
    (hs : e.stream = stream) (hk : e.kind = kind) (hh : e.held = none) :
    s.takeAxisEv stream kind = some (e, { s with sfe.axisQ := rest }) := by
  simp [State.takeAxisEv, hq, List.findIdx?_cons, hs, hk, hh]

theorem State.axesOf_axisQ (s : State) (q : List AxisEv) (type src sel : Nat) :
    ({ s with sfe.axisQ := q } : State).axesOf type src sel = s.axesOf type src sel := rfl

/-- What is left to show of a command that gives the oldest event to one axis. -/
theorem runs_of_axisEvent {c : Instr} {s t : State} {n v : Nat} {rest : List AxisEv} (e : exec c s = .next t)
    (h : PhxOnly (axisWords n) { s with sfe.axisQ := rest } t) (hv : t.axValue n = v) :
    Runs c s fun t => t.axValue n = v ∧ t.sfe.axisQ = rest ∧ t.mem = s.mem :=
  .of_exec e ⟨hv, by rw [h.sfe], h.mem⟩

section

variable {s : State} {stream : Fin 64} {n : Fin 16} {e : AxisEv} {rest : List AxisEv} (hq : s.sfe.axisQ = e :: rest)
  (hs : e.stream = stream.val) (hh : e.held = none)

include hq hs hh

theorem exec_angleSample_one (hk : e.kind = 3) (ha : s.axesOf 1 0 stream.val = [n.val]) :
    exec (.angleSample stream) s = .next (({ s with sfe.axisQ := rest } : State).angleSample n (e.val % 2 ^ 32)) := by
  change execAngleSample stream s = _
  unfold execAngleSample
  simp only [State.takeAxisEv_head hq hs hk hh]
  rw [State.axesOf_axisQ, ha, List.foldl_cons, List.foldl_nil]

theorem exec_lineAxisFrameStart_one (hk : e.kind = 0) (ha : s.axesOf 2 0 stream.val = [n.val]) :
    exec (.lineAxisFrameStart stream) s = .next (({ s with sfe.axisQ := rest } : State).lineFrameStart n) := by
  change execLineAxisFrameStart stream s = _
  unfold execLineAxisFrameStart
  simp only [State.takeAxisEv_head hq hs hk hh]
  rw [State.axesOf_axisQ, ha, List.foldl_cons, List.foldl_nil]

theorem exec_lineAxisLineStart_one (hk : e.kind = 1) (ha : s.axesOf 2 0 stream.val = [n.val]) :
    exec (.lineAxisLineStart stream) s = .next (({ s with sfe.axisQ := rest } : State).lineLineStart n e.val) := by
  change execLineAxisLineStart stream s = _
  unfold execLineAxisLineStart
  simp only [State.takeAxisEv_head hq hs hk hh]
  rw [State.axesOf_axisQ, ha, List.foldl_cons, List.foldl_nil]

theorem exec_lineAxisFrameEnd_one (hk : e.kind = 2) (ha : s.axesOf 2 0 stream.val = [n.val]) :
    exec (.lineAxisFrameEnd stream) s = .next (({ s with sfe.axisQ := rest } : State).lineFrameEnd n) := by
  change execLineAxisFrameEnd stream s = _
  unfold execLineAxisFrameEnd
  simp only [State.takeAxisEv_head hq hs hk hh]
  rw [State.axesOf_axisQ, ha, List.foldl_cons, List.foldl_nil]

end

theorem State.recordTime_lt (s : State) : s.recordTime.1 < 2 ^ 64 := by
  unfold State.recordTime
  split <;> exact Nat.mod_lt _ (by decide)

/-- An accepted edge on a pin: its level and stamp (R68). -/
def State.pinStamped (s : State) (p : Nat) (level : Bool) : State :=
  (s.setBit (rPhx (0x440 + p * 4)) 16 level).setWord64 (rPhx (0x480 + p * 8)) s.recordTime.1

theorem State.pinStamped_axLive {s : State} (h : regsWf s.regs = true) {p : Nat} (hp : p < 8) (level : Bool) (n : Nat) :
    (s.pinStamped p level).axLive n = s.axLive n := by
  have k : RegsOnly [rPhx (0x440 + p * 4), rPhx (0x480 + p * 8), rPhx (0x480 + p * 8) + 4] s (s.pinStamped p level) :=
    ((RegsOnly.refl h).setBit _ _ (by simp)).setWord64 _ (by simp) (by simp)
  have hn : rAxis n 0 ∉ [rPhx (0x440 + p * 4), rPhx (0x480 + p * 8), rPhx (0x480 + p * 8) + 4] := by
    simp only [List.mem_cons, List.not_mem_nil, or_false, rAxis, rPhx]
    omega
  exact congrArg (· && _) (k.bit 2 hn)

/-- An accepted edge, when no axis takes it. -/
theorem exec_phaseInEdge_noAxis {s : State} (h : regsWf s.regs = true) {pin : Fin 8} {level : Bool}
    (hen : s.bit (rPhx (0x440 + pin * 4)) 0 = true) (hedge : s.bit (rPhx (0x440 + pin * 4)) 16 = !level)
    (hlive : ∀ n < 16, s.axLive n = false) : exec (.phaseInEdge pin level) s = .next (s.pinStamped pin level) := by
  have hfold : ∀ l : List Nat, (∀ n ∈ l, n < 16) →
      l.foldl (fun u n => if u.axLive n then u.pinToAxis n pin level else u) (s.pinStamped pin level) = s.pinStamped pin level := by
    intro l hl
    induction l with
    | nil => rfl
    | cons n r ih =>
      have hdead : ¬(s.pinStamped pin level).axLive n = true := by
        rw [State.pinStamped_axLive h pin.isLt, hlive n (hl n List.mem_cons_self)]
        decide
      rw [List.foldl_cons, if_neg hdead]
      exact ih fun k hk => hl k (List.mem_cons_of_mem _ hk)
  have hgo : (!s.bit (rPhx (0x440 + pin.val * 4)) 0 || s.bit (rPhx (0x440 + pin.val * 4)) 16 == level) = false := by
    rw [hen, hedge]
    cases level <;> rfl
  change execPhaseInEdge pin level s = _
  rw [execPhaseInEdge, if_neg (by simp [hgo])]
  exact congrArg Host.Outcome.next (hfold (List.range 16) fun n hn => List.mem_range.mp hn)

/-- A permitted load sets the value (R46). -/
theorem exec_axisLoad_permitted {s : State} {m : Master} {axis : Fin 16} (v : BitVec 64) (hm : s.sysWriter m = true)
    (htype : s.axType axis ≠ 0) (hload : s.bit (rAxis axis 0) 3 = true) :
    exec (.axisLoad m none axis v) s = .next (((((if s.axType axis = 1 then s.setBacklog axis 0 else s).modAxis axis
      fun x => { x with frac := 0 }).setAxis axis v.toNat true).respOk [])) := by
  change execAxisLoad m none axis v s = _
  simp only [execAxisLoad, State.axisLoad, hm, htype, hload, Option.isSome_none, Bool.not_true, decide_false, Bool.or_self,
    Bool.false_eq_true, if_false]

/-- A stall (R45). -/
theorem exec_axisStall_due {s : State} {axis : Fin 16} (hen : s.axEn axis = true) (ht : s.fld (rAxis axis 0xC) 15 0 ≠ 0)
    (hs : s.axStalled axis = false) (hd : s.bit (rAxis axis 0xC) 16 = false) :
    exec (.axisStall axis) s = .next (((((s.timeTo ((s.axis axis).lastUpd + 4000 * s.fld (rAxis axis 0xC) 15 0)).setBit
      (rAxis axis 0x20) 0 true).setBit (rAxis axis 0x20) 1 true).orWord rPhxIrq 0x20).fault 0x1B 1 (mPhx 0) axis 0) := by
  have ht' : bitsOf (s.word (rAxis axis 0xC)) 15 0 ≠ 0 := ht
  have hd' : bitOf (s.word (rAxis axis 0xC)) 16 = false := hd
  change execAxisStall axis s = _
  simp only [execAxisStall, hen, hs, ht', hd', Bool.not_true, decide_false, Bool.or_self, Bool.false_eq_true, if_false]
  rfl

/-- A tick of a running clock that does not slew (R38). -/
theorem exec_ptpClockTick_steady {s : State} {clk : Fin 4} (hon : s.ptpOn clk = true) (hinc : (s.pclk clk).incPend = none)
    (hslew : (s.pclk clk).slewOn = false) :
    exec (.ptpClockTick clk) s = .next ((s.setPtpQ clk (s.ptpQ clk + s.word64 (rPtpClk clk 8))).timeAxes clk false) := by
  change execPtpClockTick clk s = _
  simp [execPtpClockTick, hon, hinc, hslew]

end Sys2Proof.Machine

open Sys2Proof Sys2Proof.Machine

/-- Settles O7: each event is the operation on its one axis, whose value and writes are known. -/
theorem axisEventsMoveTheirAxis : Obligations.AxisEventsMoveTheirAxis := by
  unfold Obligations.AxisEventsMoveTheirAxis
  refine ⟨?sample, ?frameStart, ?lineStart, ?frameEnd, ?edge, ?load, fun s axis hen ht hs hd => exec_axisStall_due hen ht hs hd,
    fun s clk hon hinc hslew => exec_ptpClockTick_steady hon hinc hslew⟩
  case sample =>
    intro s stream n e rest hcan hq hs hk hh hax hhalf hstep
    obtain ⟨-, hwf⟩ := State.canonical_iff.mp hcan
    have hstate := exec_angleSample_one hq hs hh hk hax
    rw [State.angleSample_forward (s := { s with sfe.axisQ := rest }) hwf ⟨hhalf, hstep⟩] at hstate
    have hu := (PhxOnly.refl (s := { s with sfe.axisQ := rest }) hwf).axUpdate (axisFlags_subset n)
    exact runs_of_axisEvent hstate (hu.setAxis _ false (List.Subset.refl _)) (State.axValue_setAxis hu.wf n _ false)
  case frameStart =>
    intro s stream n e rest hcan hq hs hk hh hax
    obtain ⟨-, hwf⟩ := State.canonical_iff.mp hcan
    exact runs_of_axisEvent (exec_lineAxisFrameStart_one hq hs hh hk hax)
      (State.lineFrameStart_words (s := { s with sfe.axisQ := rest }) hwf n)
      (State.axValue_lineFrameStart (s := { s with sfe.axisQ := rest }) hwf n)
  case lineStart =>
    intro s stream n e rest hcan hq hs hk hh hax hmax hahead
    obtain ⟨-, hwf⟩ := State.canonical_iff.mp hcan
    have hstate := exec_lineAxisLineStart_one hq hs hh hk hax
    rw [State.lineLineStart_ahead (s := { s with sfe.axisQ := rest }) hwf hmax hahead] at hstate
    have hu := (PhxOnly.refl (s := { s with sfe.axisQ := rest }) hwf).axUpdate (axisFlags_subset n)
    refine runs_of_axisEvent hstate (hu.setAxis _ false (List.Subset.refl _)) ((State.axValue_setAxis hu.wf n _ false).trans ?_)
    have := s.axValue_lt n
    exact Nat.mod_eq_of_lt (by change 2 ^ 20 * (s.axValue n / 2 ^ 20) + e.val < 2 ^ 64; omega)
  case frameEnd =>
    intro s stream n e rest hcan hq hs hk hh hax hopen
    obtain ⟨-, hwf⟩ := State.canonical_iff.mp hcan
    have hstate := exec_lineAxisFrameEnd_one hq hs hh hk hax
    rw [State.lineFrameEnd_open (s := { s with sfe.axisQ := rest }) hwf hopen] at hstate
    have hu := ((PhxOnly.refl (s := { s with sfe.axisQ := rest }) hwf).axUpdate (axisFlags_subset n)).modAxis n
      fun x => { x with frameOpen := false }
    exact runs_of_axisEvent hstate (hu.setAxis _ false (List.Subset.refl _))
      ((State.axValue_setAxis hu.wf n _ false).trans (Nat.mod_eq_of_lt (lineEndValue_lt (s.axValue_lt n))))
  case edge =>
    intro s pin level hcan hen hedge hlive
    obtain ⟨-, hwf⟩ := State.canonical_iff.mp hcan
    have hset := State.setBit_regsWf hwf (rPhx (0x440 + pin * 4)) 16 level
    refine .of_exec (exec_phaseInEdge_noAxis hwf hen hedge hlive) ⟨?_, ?_, rfl⟩
    · have hword := State.word_setWord64_other hset (a := rPhx (0x480 + pin * 8)) (b := rPhx (0x440 + pin * 4)) s.recordTime.1
        (by unfold rPhx; omega) (by unfold rPhx; omega)
      rw [State.pinStamped, State.bit, hword]
      exact State.bit_setBit_same hwf level (by decide)
    · rw [State.pinStamped, State.word64_setWord64_same hset, Nat.mod_eq_of_lt s.recordTime_lt]
  case load =>
    intro s m axis v hcan hm htype hload
    obtain ⟨-, hwf⟩ := State.canonical_iff.mp hcan
    have hb : PhxOnly (axisWords axis) s ((if s.axType axis = 1 then s.setBacklog axis 0 else s).modAxis axis
        fun x => { x with frac := 0 }) :=
      (PhxOnly.ite ((PhxOnly.refl hwf).setBacklog 0 (axisFlags_subset axis)) (PhxOnly.refl hwf)).modAxis axis _
    refine .of_exec (exec_axisLoad_permitted v hm htype hload) ⟨?_, rfl, (hb.setAxis v.toNat true (List.Subset.refl _)).mem⟩
    exact (State.axValue_setAxis hb.wf axis v.toNat true).trans (Nat.mod_eq_of_lt v.isLt)

end

section
/-! PROOF. Writes of tack entries: registers, arming and disarming (O8). -/

namespace Sys2Proof.Machine

/-! Fields of a written TACK_CFG. -/

/-- BIDIR is cleared where the axis is not a TRAVEL axis (R50). -/
theorem clear_bidir_and (v : Nat) : setBitsOf v 1 1 0 &&& 0x7FFF7F = v &&& 0x7FFF7D := by
  apply Nat.eq_of_testBit_eq
  intro k
  rw [show 0x7FFF7F = 0x7FFF7D ||| 2 ^ 1 by decide, Nat.testBit_and, Nat.testBit_and, testBit_setBitsOf _ _ _ _ _ (by omega),
    Nat.testBit_or, Nat.testBit_two_pow]
  by_cases hk : k = 1
  · subst hk
    simp only [le_refl, and_self, if_true, Nat.sub_self, Nat.zero_testBit, Bool.false_and]
    simp [Nat.testBit]
  · have hout : ¬(1 ≤ k ∧ k ≤ 1) := by omega
    simp [hout, Ne.symm hk]

theorem and_eq_zero_of_bits {x : Nat} (h0 : bitOf x 0 = false) (h6 : bitOf x 6 = false) : x &&& 0x41 = 0 := by
  rw [bitOf_eq] at h0 h6
  rw [show 0x41 = 2 ^ 0 ||| 2 ^ 6 by decide, Nat.and_or_distrib_left, Nat.and_two_pow, Nat.and_two_pow, h0, h6]
  rfl

/-- The word that an accepted write leaves in an entry that was neither armed nor locked: ARM is not in it. -/
theorem tackCfg_written (v old : Nat) (h : old &&& 0x41 = 0) :
    ((v &&& 0x7FFF7D) &&& 0x7FFF3E) ||| (old &&& 0x41) ||| ((v &&& 0x7FFF7D) &&& 0x40) = v &&& 0x7FFF7C := by
  rw [h, Nat.or_zero, Nat.and_assoc, Nat.and_assoc, ← Nat.and_or_distrib_left]
  rfl

/-- ARM set in the value written does not reach the word. -/
theorem or_arm_and (v : Nat) : (v ||| 1) &&& 0x7FFF7C = v &&& 0x7FFF7C := by
  rw [Nat.and_or_distrib_right]
  exact Nat.or_zero _

theorem bitOf_or_arm (v : Nat) : bitOf (v ||| 1) 0 = true := by
  simp [bitOf_eq]

theorem bitOf_and (x y k : Nat) : bitOf (x &&& y) k = (bitOf x k && bitOf y k) := by
  simp only [bitOf_eq, Nat.testBit_and]

/-- The axis of a value written is not changed by ARM or by the fields that are kept out. -/
theorem tackAxis_or_arm (v : Nat) : bitsOf (v ||| 1) 11 8 = bitsOf v 11 8 := by
  apply Nat.eq_of_testBit_eq
  intro k
  have hone : Nat.testBit 1 (8 + k) = false := Nat.testBit_lt_two_pow (Nat.one_lt_two_pow (by omega))
  rw [testBit_bitsOf, testBit_bitsOf, Nat.testBit_or, hone, Bool.or_false]

theorem tackAxis_and (v : Nat) : bitsOf (v &&& 0x7FFF7D) 11 8 = bitsOf v 11 8 := by
  apply Nat.eq_of_testBit_eq
  intro k
  rw [testBit_bitsOf, testBit_bitsOf, Nat.testBit_and]
  by_cases hk : k < 11 + 1 - 8
  · interval_cases k <;> simp [Nat.testBit]
  · simp [hk]

/-! Registers of an entry. -/

/-- A write of TARGET to an unlocked, disarmed entry (R54). -/
theorem exec_tackWrite_target {s : State} {m : Master} {tack : Fin 4096} (v : BitVec 64) (hm : s.sysWriter m = true)
    (hlock : s.bit (rTack tack 0x10) 6 = false) (harm : s.bit (rTack tack 0x10) 0 = false) :
    exec (.tackWrite m none tack 0 v) s = .next ((s.setWord64 (rTack tack 0) v.toNat).respOk []) := by
  change Host.Outcome.next (s.tackRegWrite m none tack 0 v.toNat) = _
  simp [State.tackRegWrite, State.tackStranger, State.tackWriter, hm, hlock, harm, tackOff, Nat.mod_eq_of_lt v.isLt]

/-- A changed TARGET of an armed entry is refused (R54). -/
theorem exec_tackWrite_target_armed {s : State} {m : Master} {tack : Fin 4096} {v : BitVec 64} (hm : s.sysWriter m = true)
    (harm : s.bit (rTack tack 0x10) 0 = true) (hv : v.toNat ≠ s.tkTarget tack) :
    exec (.tackWrite m none tack 0 v) s =
      .next (((s.setBit (rTack tack 0x28) 8 true).bump (rPhx 0x28)).ignoreWr m (rTack tack 0)) := by
  have hne : v.toNat ≠ s.word64 (rTack tack 0) := hv
  change Host.Outcome.next (s.tackRegWrite m none tack 0 v.toNat) = _
  simp [State.tackRegWrite, State.tackStranger, State.tackWriter, State.tackRefused, hm, harm, tackOff, Nat.mod_eq_of_lt v.isLt, hne]

/-! Arming. -/

/-- The entry with the settings of a write of ARM = 1 before the arming itself. -/
def State.withTackCfg (s : State) (n cfg : Nat) : State := s.setWord (rTack n 0x10) (cfg &&& 0x7FFF7C)

/-- A write of ARM = 1 to an unlocked, disarmed entry of an axis that is not a TRAVEL axis (R54, R55). -/
theorem exec_tackArm_disarmed {s : State} {m : Master} {tack : Fin 4096} {cfg : BitVec 32} (hm : s.sysWriter m = true)
    (harm : s.bit (rTack tack 0x10) 0 = false) (hlock : s.bit (rTack tack 0x10) 6 = false)
    (haxis : s.axType (bitsOf cfg.toNat 11 8) ≠ 3) :
    exec (.tackArm m none tack cfg) s = .next (if (s.withTackCfg tack cfg.toNat).armBad tack ((cfg.toNat ||| 1) &&& 0x7FFF7D) = true
      then ((s.withTackCfg tack cfg.toNat).setBit (rTack tack 0x28) 7 true).respOk []
      else ((s.withTackCfg tack cfg.toNat).armNow tack).respOk []) := by
  have harm' : bitOf (s.word (rTack tack 0x10)) 0 = false := harm
  have hlock' : bitOf (s.word (rTack tack 0x10)) 6 = false := hlock
  have hon : bitOf ((cfg.toNat ||| 1) &&& 0x7FFF7D) 0 = true := by
    rw [bitOf_and, bitOf_or_arm]
    rfl
  change Host.Outcome.next (s.tackCfgWrite m none tack (cfg.toNat ||| 1)) = _
  unfold State.withTackCfg
  simp only [State.tackCfgWrite, State.tackStranger, State.tackWriter, hm, harm', hlock', tackAxis_or_arm, haxis, decide_false,
    Bool.false_eq_true, if_false, clear_bidir_and, hon, Option.isSome_none, Option.isNone_none, Bool.not_true, Bool.and_false,
    Bool.false_and, Bool.or_self, if_true, Nat.reduceSub,
    tackCfg_written _ _ (and_eq_zero_of_bits harm' hlock'), or_arm_and]

/-- The words of an entry that an arming may write. -/
def armWords (n : Nat) : List Nat := [rTack n 0, rTack n 4, rTack n 0x10, rTack n 0x28]

/-- An accepted arming sets ARM and lists the tack, after what it may place first (R55, R61). -/
theorem State.armNow_eq {s : State} (h : regsWf s.regs = true) (n : Nat) : ∃ u k, PhxOnly (armWords n) s u ∧
    s.armNow n = { u.setBit (rTack n 0x10) 0 true with phx.tk := fmPut u.phx.tk n k } := by
  have hs := PhxOnly.refl (l := armWords n) h
  have hplace := PhxOnly.ite (p := (s.tkBidir n && s.tkStep n ≠ 0) = true)
    (hs.setWord64 (a := rTack n 0) _ (by simp [armWords]) (by simp [armWords]) : PhxOnly _ s (s.bidirPlace n (s.axValue (s.tkAxis n)))) hs
  exact ⟨_, _, .ite (hplace.setBit _ _ (by simp [armWords])) hplace, rfl⟩

theorem State.armNow_armed {s : State} (h : regsWf s.regs = true) (n : Nat) :
    PhxOnly (armWords n) s (s.armNow n) ∧ (s.armNow n).bit (rTack n 0x10) 0 = true ∧ (fmGet (s.armNow n).phx.tk n).isSome = true := by
  obtain ⟨u, k, hu, e⟩ := State.armNow_eq h n
  rw [e]
  refine ⟨(hu.setBit _ _ (by simp [armWords])).upd _ _, State.bit_setBit_same hu.wf true (by decide), ?_⟩
  change (fmGet (fmPut u.phx.tk n k) n).isSome = true
  rw [fmGet_fmPut_same]
  rfl

/-- A tack on a disabled axis is not armed (R55). -/
theorem State.armBad_disabled {s : State} {n cfg : Nat} (h : s.axEn (bitsOf cfg 11 8) = false) : s.armBad n cfg = true := by
  simp [State.armBad, h]

/-- The settings of an entry are no part of an axis. -/
theorem State.axEn_withTackCfg {s : State} (h : regsWf s.regs = true) (n cfg : Nat) {ax : Nat} (hax : ax < 16) :
    (s.withTackCfg n cfg).axEn ax = s.axEn ax := by
  rw [State.axEn, State.bit, State.withTackCfg, State.word_setWord_other h _ (rAxis_ne_rTack hax _ (by decide) n)]
  rfl

theorem State.withTackCfg_disarmed {s : State} (h : regsWf s.regs = true) (n cfg : Nat) :
    (s.withTackCfg n cfg).bit (rTack n 0x10) 0 = false := by
  rw [State.bit, State.withTackCfg, State.word_setWord_same h, bitOf_eq, Nat.testBit_mod_two_pow, Nat.testBit_and]
  simp [Nat.testBit]

/-! Disarming (R56). -/

/-- Taking ARM out of a value leaves its other settings. -/
theorem clear_arm_and (w : Nat) {m : Nat} (hm : m.testBit 0 = false) : setBitsOf w 0 0 0 &&& m = w &&& m := by
  apply Nat.eq_of_testBit_eq
  intro k
  rw [Nat.testBit_and, Nat.testBit_and, testBit_setBitsOf _ _ _ _ _ (by omega)]
  by_cases hk : k = 0
  · rw [hk, hm, Bool.and_false, Bool.and_false]
  · rw [if_neg (by omega)]

theorem bitOf_setBitsOf_arm (w m : Nat) : bitOf (setBitsOf w 0 0 0 &&& m) 0 = false := by
  rw [bitOf_and, bitOf_eq, testBit_setBitsOf _ _ _ _ _ (by omega)]
  rfl

/-- The fields of such a value that lie in a mask m are those of the word. -/
theorem clear_arm_fields (w : Nat) {m : Nat} (hm : (0x7FFF7F &&& m).testBit 0 = false) :
    (setBitsOf w 0 0 0 &&& 0x7FFF7F) &&& m = w &&& (0x7FFF7F &&& m) := by
  rw [Nat.and_assoc, clear_arm_and w hm]

/-- Settings, ARM and LOCK together are the word. -/
theorem tackCfg_parts {w : Nat} (h : w &&& 0x7FFF7F = w) : w &&& 0x7FFF3E ||| w &&& 0x41 ||| w &&& 0x40 = w := by
  rw [← Nat.and_or_distrib_left, ← Nat.and_or_distrib_left]
  exact h

/-- A write of ARM = 0 with the other settings in force disarms an armed, unlocked tack of a TRAVEL axis. -/
theorem exec_tackDisarm_travel {s : State} {m : Master} {tack : Fin 4096} (hm : s.sysWriter m = true)
    (harm : s.bit (rTack tack 0x10) 0 = true) (hlock : s.bit (rTack tack 0x10) 6 = false)
    (hflds : s.word (rTack tack 0x10) &&& 0x7FFF7F = s.word (rTack tack 0x10)) (haxis : s.axType (s.tkAxis tack) = 3) :
    exec (.tackDisarm m none tack (BitVec.ofNat 32 (s.word (rTack tack 0x10)))) s =
      .next (((s.setWord (rTack tack 0x10) (s.word (rTack tack 0x10))).disarm tack).respOk []) := by
  have hword : (BitVec.ofNat 32 (s.word (rTack tack 0x10))).toNat = s.word (rTack tack 0x10) := Nat.mod_eq_of_lt (s.word_lt _)
  change Host.Outcome.next (s.tackCfgWrite m none tack (setBitsOf (BitVec.ofNat 32 (s.word (rTack tack 0x10))).toNat 0 0 0)) = _
  obtain ⟨w, hw⟩ : ∃ w, s.word (rTack tack 0x10) = w := ⟨_, rfl⟩
  rw [State.tkAxis, State.fld, hw] at haxis
  rw [State.bit, hw] at harm hlock
  rw [hw] at hword hflds
  rw [hw, hword]
  have hax : bitsOf (setBitsOf w 0 0 0) 11 8 = bitsOf w 11 8 := bitsOf_setBitsOf_other _ _ _ _ _ _ (by omega) (by omega)
  have hother : (setBitsOf w 0 0 0 &&& 0x7FFF7F) &&& 0x7FFF3E = w &&& 0x7FFF3E := clear_arm_fields w rfl
  have hlocked : (setBitsOf w 0 0 0 &&& 0x7FFF7F) &&& 0x40 = w &&& 0x40 := clear_arm_fields w rfl
  have hoff : bitOf (setBitsOf w 0 0 0 &&& 0x7FFF7F) 0 = false := bitOf_setBitsOf_arm w _
  have hnolock : bitOf (setBitsOf w 0 0 0 &&& 0x7FFF7F) 6 = false := by
    rw [bitOf_and, bitOf_eq, testBit_setBitsOf _ _ _ _ _ (by omega), if_neg (by omega), ← bitOf_eq, hlock]
    rfl
  simp only [State.tackCfgWrite, State.tackStranger, State.tackWriter, hm, hw, harm, hlock, hax, haxis, hother, hlocked,
    tackCfg_parts hflds, hoff, hnolock, decide_true, if_true, Option.isSome_none, Option.isNone_none, Bool.not_true, Bool.and_false,
    Bool.false_and, Bool.or_self, Nat.reduceSub, Bool.false_eq_true, if_false]

end Sys2Proof.Machine

open Sys2Proof Sys2Proof.Machine

/-- Settles O8: each write is one of the outcomes of R54 to R56, whose effect on the entry is read off. -/
theorem tackWritesAndArming : Obligations.TackWritesAndArming := by
  unfold Obligations.TackWritesAndArming
  refine ⟨?target, fun s m tack v hm harm hv => exec_tackWrite_target_armed hm harm hv, ?armed, ?refused, ?disarm⟩
  case target =>
    intro s m tack v hcan hm hlock harm
    obtain ⟨-, hwf⟩ := State.canonical_iff.mp hcan
    refine .of_exec (exec_tackWrite_target v hm hlock harm) ⟨?_, rfl, rfl, fun a ha => ?_⟩
    · exact (State.word64_setWord64_same hwf _ _).trans (Nat.mod_eq_of_lt v.isLt)
    · simp only [List.mem_cons, List.not_mem_nil, or_false, not_or] at ha
      exact State.word_setWord64_other hwf v.toNat ha.1 ha.2
  case armed =>
    intro s m tack cfg hcan hm harm hlock haxis hok
    obtain ⟨-, hwf⟩ := State.canonical_iff.mp hcan
    have e := exec_tackArm_disarmed hm harm hlock haxis
    rw [State.withTackCfg, if_neg (by rw [hok]; decide)] at e
    obtain ⟨honly, hbit, hlist⟩ := State.armNow_armed (State.setWord_regsWf hwf (rTack tack 0x10) (cfg.toNat &&& 0x7FFF7C)) tack
    exact .of_exec e ⟨hbit, hlist, rfl, honly.mem⟩
  case refused =>
    intro s m tack cfg hcan hm harm hlock haxis hoff
    obtain ⟨-, hwf⟩ := State.canonical_iff.mp hcan
    have hset : regsWf (s.withTackCfg tack cfg.toNat).regs = true := State.setWord_regsWf hwf _ _
    have hax : bitsOf cfg.toNat 11 8 < 16 := Nat.mod_lt _ (by decide)
    have hbad : (s.withTackCfg tack cfg.toNat).armBad tack ((cfg.toNat ||| 1) &&& 0x7FFF7D) = true := by
      apply State.armBad_disabled
      rw [tackAxis_and, tackAxis_or_arm, State.axEn_withTackCfg hwf tack _ hax, hoff]
    have e := exec_tackArm_disarmed hm harm hlock haxis
    rw [if_pos hbad] at e
    refine .of_exec e ⟨?_, State.bit_setBit_same hset true (by decide), rfl, rfl⟩
    exact (State.bit_setBit_other hset 7 true 0 (by simp)).trans (State.withTackCfg_disarmed hwf tack _)
  case disarm =>
    intro s m tack hcan hm harm hlock hflds haxis
    obtain ⟨-, hwf⟩ := State.canonical_iff.mp hcan
    exact .of_exec (exec_tackDisarm_travel hm harm hlock hflds haxis)
      ⟨State.bit_setBit_same (State.setWord_regsWf hwf _ _) false (by decide), rfl, rfl, rfl⟩

end

section
/-! PROOF. Tacks that fire, their actions, the pins that they drive, and the event FIFO (O9). -/

namespace Sys2Proof.Machine

/-! Firing (R57, R59). -/

/-- What a firing in time writes of its entry before its action: the flags and count of the outcome, lateness and stamp (R51, R57). -/
def State.recordFiring (s : State) (n late : Nat) : State :=
  let u := ((s.outcomeFlags n false false false).setBit (rTack n 0x28) 0 true).bump (rTack n 0x38)
  (u.setWord64 (rTack n 0x20) late).setWord64 (rTack n 0x30) u.recordTime.1

/-- The words of an entry that a firing may write. -/
def fireWords (n : Nat) : List Nat :=
  [rTack n 0x20, rTack n 0x24, rTack n 0x28, rTack n 0x30, rTack n 0x34, rTack n 0x38]

/-- The settings of an entry are none of them. -/
theorem tackCfg_notMem_fireWords (n : Nat) : rTack n 0x10 ∉ fireWords n := by
  simp [fireWords]

theorem State.outcomeFlags_fired {s : State} (h : regsWf s.regs = true) (n : Nat) :
    RegsOnly (fireWords n) s ((s.outcomeFlags n false false false).setBit (rTack n 0x28) 0 true) := by
  have h28 : rTack n 0x28 ∈ fireWords n := by simp [fireWords]
  exact ((((RegsOnly.refl h).setBit 1 false h28).setBit 2 false h28).setBit 3 false h28).setBit 0 true h28

theorem State.recordFiring_words {s : State} (h : regsWf s.regs = true) (n late : Nat) :
    PhxOnly (fireWords n) s (s.recordFiring n late) :=
  ⟨s.phx, s.wpe, (((State.outcomeFlags_fired h n).bump (by simp [fireWords])).setWord64 late (by simp [fireWords])
    (by simp [fireWords])).setWord64 _ (by simp [fireWords]) (by simp [fireWords])⟩

/-- Lateness and stamp are apart from the flags and the count. -/
theorem State.recordFiring_word {s : State} (h : regsWf s.regs = true) {n o : Nat} (late : Nat)
    (ho : o ∉ [0x20, 0x24, 0x30, 0x34]) : (s.recordFiring n late).word (rTack n o) =
      (((s.outcomeFlags n false false false).setBit (rTack n 0x28) 0 true).bump (rTack n 0x38)).word (rTack n o) := by
  have hwf := ((State.outcomeFlags_fired h n).bump (a := rTack n 0x38) (by simp [fireWords])).wf
  have k : RegsOnly [rTack n 0x20, rTack n 0x24, rTack n 0x30, rTack n 0x34] _ (s.recordFiring n late) :=
    ((RegsOnly.refl hwf).setWord64 late (by simp) (by simp)).setWord64 _ (by simp) (by simp)
  exact k.word _ (by simpa using ho)

theorem State.recordFiring_fired {s : State} (h : regsWf s.regs = true) (n late : Nat) :
    (s.recordFiring n late).bit (rTack n 0x28) 0 = true := by
  have hwf : regsWf (s.outcomeFlags n false false false).regs = true :=
    State.setBit_regsWf (State.setBit_regsWf (State.setBit_regsWf h _ _ _) _ _ _) _ _ _
  rw [State.bit, State.recordFiring_word h late (by decide), State.word_bump_other (State.setBit_regsWf hwf _ _ _) (by simp)]
  exact State.bit_setBit_same hwf true (by decide)

theorem State.recordFiring_count {s : State} (h : regsWf s.regs = true) (n late : Nat) :
    (s.recordFiring n late).word (rTack n 0x38) = (s.word (rTack n 0x38) + 1) % 2 ^ 32 := by
  have k : RegsOnly [rTack n 0x28] s ((s.outcomeFlags n false false false).setBit (rTack n 0x28) 0 true) :=
    ((((RegsOnly.refl h).setBit 1 false (by simp)).setBit 2 false (by simp)).setBit 3 false (by simp)).setBit 0 true (by simp)
  rw [State.recordFiring_word h late (by decide), State.word_bump_same k.wf, k.word _ (by simp)]

theorem RegsOnly.tkBidir {s t : State} {n : Nat} (h : RegsOnly (fireWords n) s t) : t.tkBidir n = s.tkBidir n := by
  have hax : t.tkAxis n = s.tkAxis n := h.fld 11 8 (tackCfg_notMem_fireWords n)
  have hlt : s.tkAxis n < 16 := Nat.mod_lt _ (by decide)
  have hnot : rAxis (s.tkAxis n) 0 ∉ fireWords n := by
    simp [fireWords, rAxis_ne_rTack hlt _ (show 0 < 0x40 by decide)]
  rw [State.tkBidir, State.tkBidir, hax, h.bit 1 (tackCfg_notMem_fireWords n), State.axType, h.fld 1 0 hnot, State.axType]

/-- Action NONE does nothing (R52). -/
theorem State.act_none {s : State} {n : Nat} (t a : Nat) (h : s.fld (rTack n 0x10) 15 12 = 0) : s.act n t a = (s, .done) := by
  have h' : bitsOf (s.word (rTack n 0x10)) 15 12 = 0 := h
  simp [State.act, h', pinAction]

theorem bitOf_of_bitsOf_eq_zero {x hi lo k : Nat} (h : bitsOf x hi lo = 0) (hlo : lo ≤ k) (hhi : k ≤ hi) : bitOf x k = false := by
  have e := testBit_bitsOf x hi lo (k - lo)
  rw [h, Nat.zero_testBit, Nat.add_sub_cancel' hlo, decide_eq_true (by omega), Bool.true_and] at e
  rw [bitOf_eq, ← e]

/-- The notices of a firing change the tacks' own state and the planner's alone. -/
theorem PhxOnly.notices {l : List Nat} {s t : State} (h : PhxOnly l s t) (n v : Nat) :
    PhxOnly l s ((t.phxEvent 0 n).signalWpe n v false) := by
  have he : PhxOnly l s (t.phxEvent 0 n) := h.upd _ _
  unfold State.signalWpe
  exact .ite (.upd (.ite (he.upd _ _) he) _ _) (.ite (he.upd _ _) he)

theorem State.signalWpe_phx (s : State) (n v : Nat) (missed : Bool) : (s.signalWpe n v missed).phx = s.phx := by
  unfold State.signalWpe
  dsimp only
  split <;> split <;> rfl

/-- The disarming of the only armed tack leaves none. -/
theorem State.disarm_only {s : State} {n : Nat} {k : TackS} (h : s.phx.tk = [(n, k)]) : (s.disarm n).phx.tk = [] := by
  change fmDel s.phx.tk n = []
  simp [h, fmDel]

/-- The notice of a firing marks tacks, and lists no other. -/
theorem State.phxEvent_only {s : State} {n : Nat} {k : TackS} (h : s.phx.tk = [(n, k)]) (obj : Nat) :
    ∃ k', (s.phxEvent 0 obj).phx.tk = [(n, k')] := by
  simp only [State.phxEvent, h, List.map_cons, List.map_nil]
  split
  · exact ⟨_, rfl⟩
  · exact ⟨k, rfl⟩

/-- A one-shot tack without action and interrupt that fires in time: the record, the notices of the firing, and the disarming. -/
theorem State.fire_oneShot {s : State} (h : regsWf s.regs = true) {n : Nat} (t a late e : Nat) (hbi : s.tkBidir n = false)
    (hstep : s.tkStep n = 0) (hact : s.fld (rTack n 0x10) 15 12 = 0) (hirq : s.fld (rTack n 0x10) 4 2 = 0) :
    s.fire n a t late e false false false = (((s.recordFiring n late).phxEvent 0 n).signalWpe n t false).disarm n := by
  have hrec := State.recordFiring_words h n late
  have hbi' := (State.outcomeFlags_fired h n).tkBidir.trans hbi
  have hact' := State.act_none t a ((hrec.fld 15 12 (tackCfg_notMem_fireWords n)).trans hact)
  have hstep' : (((s.recordFiring n late).phxEvent 0 n).signalWpe n t false).tkStep n = 0 :=
    ((hrec.notices n t).word64 (by simp [fireWords]) (by simp [fireWords])).trans hstep
  have h3 : bitOf (s.word (rTack n 0x10)) 3 = false := bitOf_of_bitsOf_eq_zero hirq (by decide) (by decide)
  have h4 : bitOf (s.word (rTack n 0x10)) 4 = false := bitOf_of_bitsOf_eq_zero hirq (by decide) (by decide)
  unfold State.recordFiring at hact' hstep' ⊢
  simp only [State.fire, hbi', hact', h3, h4, Bool.false_eq_true, if_false, Bool.false_and, Bool.and_false, State.afterFire, hstep',
    if_true]

/-- The only armed tack, on an ANGLE axis, whose target is reached, not late, fires (R57). -/
theorem exec_tackFire_angle {s : State} {tack : Fin 4096} {k : TackS} (htk : s.phx.tk = [(tack.val, k)])
    (hon : s.bit (rPhx 0) 0 = true) (hen : s.axEn (s.tkAxis tack) = true) (htype : s.axType (s.tkAxis tack) = 1)
    (hstall : s.axStalled (s.tkAxis tack) = false) (hpause : s.phx.pausedAt = none)
    (hreach : reached (s.axValue (s.tkAxis tack)) (s.tkTarget tack) = true) (hact : s.fld (rTack tack 0x10) 15 12 = 0)
    (hlate : k.lateArm = false) (hdisc : k.disc = false) :
    exec (.tackFire tack 0) s = .next (s.fire tack (s.axValue (s.tkAxis tack)) (s.tkTarget tack)
      (sub64 (s.axValue (s.tkAxis tack)) (s.tkTarget tack)) (s.axValue (s.tkAxis tack)) false false false) := by
  have hget : fmGet s.phx.tk tack = some k := by simp [htk, fmGet]
  have hbi : s.tkBidir tack = false := by simp [State.tkBidir, htype]
  have hdue : s.tkDue tack (s.axValue (s.tkAxis tack)) = some false := by simp [State.tkDue, hbi, hreach]
  have hexact : s.firesExact tack k = false := by simp [State.firesExact, htype]
  have hact' : bitsOf (s.word (rTack tack 0x10)) 15 12 = 0 := hact
  change execTackFire tack 0 s = _
  unfold execTackFire
  simp [hget, hon, hen, hstall, hpause, hdue, hexact, hlate, hdisc, hact']

/-! Dispatch (R64). -/

/-- The only action of the queue, not held, is performed. -/
theorem exec_actionDispatch_one {s : State} {a : PhxAct} (hq : s.phx.queue = [a]) (hh : s.actHeld a = false) :
    exec .actionDispatch s = .next ((({ s with phx.queue := [] } : State).setFld (rPhx 4) 24 16 0).doAction a) := by
  change execActionDispatch s = _
  simp [execActionDispatch, hq, hh]

/-- Evaluation resumes when the queue has room, and the paused cycles are counted. -/
theorem exec_evaluationResume_room {s : State} {t0 : Nat} (hp : s.phx.pausedAt = some t0) (hroom : s.phx.queue.length < 256) :
    exec .evaluationResume s = .next ((({ s.markPaused with phx.pausedAt := none } : State).setBit (rPhx 4) 1 false).bumpBy
      (rPhx 0x1C) ((s.now - t0) / 32)) := by
  change execEvaluationResume s = _
  simp [execEvaluationResume, hp, hroom]

/-! Pins and events (R65, R68, R71). -/

/-- The only edge of an enabled pin, in the free-running domain, is driven at its time. -/
theorem exec_phaseOutEdge_one {s : State} {pin : Fin 16} {e : PinEdge} (hedges : s.phx.edges = [e]) (hpin : e.pin = pin.val)
    (hdom : e.dom = 4) (hen : s.bit (rPhx (0x400 + pin * 4)) 0 = true) :
    exec (.phaseOutEdge pin) s =
      .next (({ s.timeTo (e.time * 4) with phx.edges := [] } : State).driveOut pin e.level) := by
  have hen' : ∀ now p, ({ s with now := now, phx := p } : State).bit (rPhx (0x400 + pin * 4)) 0 = true := fun _ _ => hen
  change execPhaseOutEdge pin s = _
  simp [execPhaseOutEdge, hedges, hpin, hdom, earliest, State.timeTo, hen']

/-- A system read takes the head of the FIFO. -/
theorem exec_phxEvtDataRead_head {s : State} {m : Master} {v : Nat} {r : List Nat} (hm : sysReader m = true) (hev : s.phx.evt = v :: r) :
    exec (.phxEvtDataRead m none) s =
      .next ((({ s with phx.evt := r } : State).setWord64 (rPhx 0x10) (r.headD 0)).respOk (leBytes 8 v)) := by
  change execPhxEvtDataRead m none s = _
  simp [execPhxEvtDataRead, hm, hev, State.syncEvt]

/-- A read for an INST is refused. -/
theorem exec_phxEvtDataRead_inst (s : State) (m : Master) (i : Fin 64) :
    exec (.phxEvtDataRead m (some i)) s = .next (s.refuse m 1 (rPhx 0x10)) := rfl

end Sys2Proof.Machine

open Sys2Proof Sys2Proof.Machine

/-- Settles O9: each command is reduced to the writes of its one case, whose effects are read off. -/
theorem tacksFireAndActionsAreDispatched : Obligations.TacksFireAndActionsAreDispatched := by
  unfold Obligations.TacksFireAndActionsAreDispatched
  refine ⟨?fire, fun s a hq hh => exec_actionDispatch_one hq hh, ?resume, ?edge,
    fun s m v r hm hev => exec_phxEvtDataRead_head hm hev, exec_phxEvtDataRead_inst⟩
  case fire =>
    intro s tack k hcan htk hon hen htype hstall hpause hreach hstep hact hirq hlate hdisc
    obtain ⟨-, hwf⟩ := State.canonical_iff.mp hcan
    have e := exec_tackFire_angle htk hon hen htype hstall hpause hreach hact hlate hdisc
    generalize sub64 (s.axValue (s.tkAxis tack)) (s.tkTarget tack) = late at e
    rw [State.fire_oneShot hwf _ _ late _ (by simp [State.tkBidir, htype]) hstep hact hirq] at e
    have hrec := State.recordFiring_words hwf tack late
    have hn := (PhxOnly.refl (l := [rTack tack 0x10]) hrec.wf).notices tack (s.tkTarget tack)
    have hd : PhxOnly [rTack tack 0x10] (s.recordFiring tack late)
        ((((s.recordFiring tack late).phxEvent 0 tack).signalWpe tack (s.tkTarget tack) false).disarm tack) :=
      (hn.setBit (a := rTack tack 0x10) 0 false (by simp)).upd _ _
    obtain ⟨k', hk'⟩ := State.phxEvent_only (s := s.recordFiring tack late) htk tack
    rw [← State.signalWpe_phx _ tack (s.tkTarget tack) false] at hk'
    refine .of_exec e ⟨?_, ?_, State.bit_setBit_same hn.wf false (by decide), State.disarm_only hk', hd.mem.trans hrec.mem⟩
    · exact (hd.bit 0 (by simp)).trans (State.recordFiring_fired hwf tack late)
    · exact (hd.word _ (by simp)).trans (State.recordFiring_count hwf tack late)
  case resume =>
    intro s t0 hcan hp hroom
    obtain ⟨-, hwf⟩ := State.canonical_iff.mp hcan
    have hset : regsWf (({ s.markPaused with phx.pausedAt := none } : State).setBit (rPhx 4) 1 false).regs = true :=
      State.setBit_regsWf hwf _ _ _
    refine .of_exec (exec_evaluationResume_room hp hroom) ⟨rfl, ?_, ?_, rfl⟩
    · rw [State.bit, State.bumpBy, State.word_setWord_other hset _ (by simp)]
      exact State.bit_setBit_same (s := { s.markPaused with phx.pausedAt := none }) hwf false (by decide)
    · rw [State.bumpBy, State.word_setWord_same hset]
      rw [State.setBit, State.word_setFld_other (s := { s.markPaused with phx.pausedAt := none }) hwf _ _ _ (by simp)]
      rfl
  case edge =>
    intro s pin e hcan hedges hpin hdom hen
    obtain ⟨-, hwf⟩ := State.canonical_iff.mp hcan
    exact .of_exec (exec_phaseOutEdge_one hedges hpin hdom hen)
      ⟨State.bit_setBit_same (s := { s.timeTo (e.time * 4) with phx.edges := [] }) hwf e.level (by decide), rfl, rfl, rfl, rfl⟩

end

section
/-! PROOF. The sensor front end: its registers apart from each other, and a stream's own state. -/

namespace Sys2Proof.Machine

@[simp] theorem rSfe_inj {o p : Nat} : rSfe o = rSfe p ↔ o = p := by
  unfold rSfe
  omega

@[simp] theorem rStream_inj {n o p : Nat} : rStream n o = rStream n p ↔ o = p := by
  unfold rStream rSfe
  omega

@[simp] theorem State.stream_setStream (s : State) (n : Nat) (x : SfeStream) : (s.setStream n x).stream n = x :=
  fmGetD_fmPut_same _ _ _ _

@[simp] theorem State.setStream_regs (s : State) (n : Nat) (x : SfeStream) : (s.setStream n x).regs = s.regs := rfl

@[simp] theorem State.setStream_mem (s : State) (n : Nat) (x : SfeStream) : (s.setStream n x).mem = s.mem := rfl

@[simp] theorem State.word_setStream (s : State) (n : Nat) (x : SfeStream) (a : Nat) : (s.setStream n x).word a = s.word a := rfl

theorem State.endStall_none {s : State} {n : Nat} (h : (s.stream n).stalled = none) : s.endStall n = s := by
  simp [State.endStall, h]

end Sys2Proof.Machine
end

section
/-! PROOF. O10 is refuted: the end of a frame that lacks lines is a fault case of its stream, which the collector records. -/

namespace Sys2Proof.Machine

/-- Port 0 receives, and a frame of its camera stream 0 is open and has delivered no line. -/
def shortFrame : State :=
  { State.reset with
    regs := [(rSfePort 0 0, 1), (rSfePort 0 4, 1), (rStream 0 0, 0x40000000)]
    sfe.streams := [(0, { SfeStream.reset with frameOpen := true })] }

theorem shortFrame_premises :
    shortFrame.portReceives 0 = true ∧ shortFrame.camStream 0 0 = some 0 ∧ shortFrame.stMember 0 = false ∧
      (shortFrame.stream 0).frameOpen = true := by
  decide +kernel

/-- The frame lacks lines (R103), and the collector counts the class N fault of the case. -/
theorem shortFrame_count :
    shortFrame.word (rFlt 0x170) = 0 ∧ (shortFrame.frameEnd 0).word (rFlt 0x170) = 1 := by
  decide +kernel

/-- The end packet without error bits is the frame end of its stream. -/
theorem exec_csi2FrameEnd_shortFrame : exec (.csi2FrameEnd 0 0 0) shortFrame = .next (shortFrame.frameEnd 0) := by
  obtain ⟨hport, hcam, -, -⟩ := shortFrame_premises
  change execCsi2FrameEnd 0 0 0 shortFrame = _
  simp [execCsi2FrameEnd, State.packetErr, bitOf, hport, hcam]

end Sys2Proof.Machine

open Sys2Proof Sys2Proof.Machine

/-- Refutes O10: the end of an open frame does not leave every register as it was. When the frame lacks lines, its end is a case of R103,
and the fault collector counts it. -/
theorem not_sensorPacketsReachTheirStream : ¬ Obligations.SensorPacketsReachTheirStream := by
  unfold Obligations.SensorPacketsReachTheirStream
  rintro ⟨-, h, -⟩
  obtain ⟨hport, hcam, hlone, hopen⟩ := shortFrame_premises
  obtain ⟨hbefore, hafter⟩ := shortFrame_count
  obtain ⟨t, ht, -, -, hregs, -⟩ := h shortFrame 0 0 0 hport hcam hlone hopen
  have e : t = shortFrame.frameEnd 0 := Host.Outcome.next.inj (ht.symm.trans exec_csi2FrameEnd_shortFrame)
  have hword : t.word (rFlt 0x170) = shortFrame.word (rFlt 0x170) := State.word_congr hregs _
  rw [e, hbefore, hafter] at hword
  cases hword

end

section
/-! PROOF. The line-shift engine: what an instruction makes of its stream's context (O11). -/

namespace Sys2Proof.Machine

/-! Counting a cycle changes no stream, register or byte of memory. -/

@[simp] theorem State.lseCycle_stream (s : State) (n k : Nat) : (s.lseCycle n).stream k = s.stream k := rfl

@[simp] theorem State.lseCycle_regs (s : State) (n : Nat) : (s.lseCycle n).regs = s.regs := rfl

@[simp] theorem State.lseCycle_mem (s : State) (n : Nat) : (s.lseCycle n).mem = s.mem := rfl

/-! Past an instruction a context differs in its pc and open loops alone. -/

@[simp] theorem LseCtx.advance_a (c : LseCtx) : c.advance.a = c.a := rfl

@[simp] theorem LseCtx.advance_x (c : LseCtx) : c.advance.x = c.x := rfl

@[simp] theorem LseCtx.advance_cursor (c : LseCtx) : c.advance.cursor = c.cursor := rfl

theorem LseCtx.get_cursor (c : LseCtx) (n w : Nat) (signed : Bool) : (c.get n w signed).cursor = c.cursor + (n * w : Nat) := rfl

/-! One instruction (R92, R95). -/

theorem State.lseRun_ctx (s : State) (n : Nat) (f : LseCtx → LseCtx) :
    ((s.lseRun n f).stream n).ctx = (f (s.stream n).ctx).advance := by
  simp [State.lseRun]

@[simp] theorem State.lseRun_mem (s : State) (n : Nat) (f : LseCtx → LseCtx) : (s.lseRun n f).mem = s.mem := rfl

/-- A command that runs one instruction on the context of stream n shows what the instruction makes of the context, counts one cycle of
the engine, and leaves registers and memory. -/
theorem runs_of_lseRun {c : Instr} {s : State} {n : Nat} {f : LseCtx → LseCtx} {p : State → Prop} (e : exec c s = .next (s.lseRun n f))
    (h : ∀ t : State, (t.stream n).ctx = (f (s.stream n).ctx).advance → t.sfe.cycles = modAt s.sfe.cycles (n / 16) (· + 1) →
      t.regs = s.regs → t.mem = s.mem → p t) : Runs c s p :=
  .of_exec e (h _ (s.lseRun_ctx n f) rfl rfl rfl)

section

variable {s : State} {n : Fin 64} {w : Nat}

theorem exec_lseGet_word (h : s.lseWord n 2 = some w) : exec (.lseGet n) s =
    .next (s.lseRun n fun c => c.get (bitsOf w 26 22 + 1) (bitsOf w 21 17 + 1) (bitOf w 16)) := by
  change execLseGet n s = _
  rw [execLseGet, h]

theorem exec_lseSkip_word (h : s.lseWord n 3 = some w) : exec (.lseSkip n) s =
    .next (s.lseRun n fun c => { c with cursor := c.cursor + toSigned 24 w }) := by
  change execLseSkip n s = _
  rw [execLseSkip, h]

theorem exec_lseAlu_word (h : s.lseWord n 4 = some w) : exec (.lseAlu n) s =
    .next (s.lseRun n fun c => { c with x := c.x.map fun v => lseAlu (bitsOf w 26 24) v (toSigned 24 w) }) := by
  change execLseAlu n s = _
  rw [execLseAlu, h]

theorem exec_lseCvt_word (h : s.lseWord n 5 = some w) : exec (.lseCvt n) s =
    .next (s.lseRun n fun c =>
      { c with x := c.x.map fun v => lseCvt (bitsOf w 26 23) (bitsOf w 22 21) v (bitOf w 20) (toSigned 8 (bitsOf w 19 12)) }) := by
  change execLseCvt n s = _
  rw [execLseCvt, h]

theorem exec_lseAdda_word (h : s.lseWord n 7 = some w) : exec (.lseAdda n) s =
    .next (s.lseRun n fun c =>
      { c with a := modAt c.a (bitsOf w 26 25) fun v => ofSigned 32 ((v : Int) + toSigned 25 w) }) := by
  change execLseAdda n s = _
  rw [execLseAdda, h]

/-- The address registers after END: kept, or those of the unit's start advanced (R95). -/
def State.endAddrs (s : State) (n : Nat) : List Nat :=
  if s.bit (rActive n 12) 0 then (s.stream n).ctx.a
  else (List.range 4).map fun i => ((s.stream n).ctx.aUnit.getD i 0 + s.word (rActive n (4 + i))) % 2 ^ 32

theorem exec_lseEnd_word (h : s.lseWord n 0 = some w) : exec (.lseEnd n) s =
    .next ((s.setStream n { s.stream n with ctx := { (s.stream n).ctx with a := s.endAddrs n, running := false, loops := [] } }).lseCycle
      n) := by
  change execLseEnd n s = _
  rw [execLseEnd, h]
  rfl

theorem exec_lseLoop_word (h : s.lseWord n 1 = some w) : exec (.lseLoop n) s =
    .next ((s.setStream n { s.stream n with ctx := { (s.stream n).ctx with
      pc := (s.stream n).ctx.pc + 1
      loops := LseLoop.mk (bitsOf w 26 25) (bitsOf w 24 12 + 1) ((s.stream n).ctx.pc + 1)
        ((s.stream n).ctx.pc + 1 + bitsOf w 11 6) :: (s.stream n).ctx.loops } }).lseCycle n) := by
  change execLseLoop n s = _
  rw [execLseLoop, h]

end

/-- A started band gives its first unit to a context that is free (R94). -/
theorem exec_lseUnitStart_waiting {s : State} {n : Fin 64} {b : SfeBand} {rest : List SfeBand} {u : List Byte} {bad : Bool}
    {us : List (List Byte × Bool)} (hb : (s.stream n).bands = b :: rest) (hu : b.units = (u, bad) :: us) (hs : b.started = true)
    (hr : (s.stream n).ctx.running = false) : exec (.lseUnitStart n) s =
      .next (s.setStream n { s.stream n with
        bands := { b with units := us } :: rest
        ctx := { (s.stream n).ctx with aUnit := (s.stream n).ctx.a, unit := u, bad := bad, cursor := 0, pc := 0, loops := [],
                                       running := true } }) := by
  change execLseUnitStart n s = _
  simp [execLseUnitStart, hb, hu, hs, hr]

/-! PUT (R94, R97). -/

/-- A PUT of one lane stores at its address register. -/
theorem State.putOffsets_one {s : State} {n w : Nat} (h : bitsOf w 26 22 = 0) :
    s.putOffsets n w = [(s.stream n).ctx.a.getD (bitsOf w 19 18) 0 % 2 ^ 32] := by
  simp [State.putOffsets, h]

/-- The stores of a PUT, one for each lane, in the slot of the band in front. -/
def State.putStores (s : State) (n w : Nat) : State :=
  ((s.putOffsets n w).zip (s.stream n).ctx.x).foldl (fun u p =>
    (u.dmaWrite (mStream n) (s.word64 (rSlot n (s.curSlot n) 0) + p.1) (leBytes (2 ^ bitsOf w 21 20) p.2) (s.stream n).ctx.bad).1) s

/-- A PUT whose lanes lie in the slot, with credit and no stall, makes its stores; the rest is its stream's own state and its cycle. -/
theorem exec_lsePut_inside {s : State} {n : Fin 64} {w : Nat} (h : s.lseWord n 6 = some w) (hs : (s.stream n).stalled = none)
    (hc : s.noCredit n = false)
    (hin : ∀ o ∈ s.putOffsets n w, o + 2 ^ bitsOf w 21 20 ≤ s.word64 (rSlot n (s.curSlot n) 8)) :
    ∃ f x, exec (.lsePut n) s = .next (((s.putStores n w).lseRun n f).setStream n x) := by
  have hall : ((s.putOffsets n w).all fun o => decide (o + 2 ^ bitsOf w 21 20 ≤ s.word64 (rSlot n (s.curSlot n) 8))) = true := by
    simpa using hin
  change ∃ f x, execLsePut n s = .next (((s.putStores n w).lseRun n f).setStream n x)
  simp only [execLsePut, h, hall, hc, State.endStall_none hs, Bool.not_true, Bool.false_eq_true, if_false]
  exact ⟨_, _, rfl⟩

end Sys2Proof.Machine

open Sys2Proof Sys2Proof.Machine

/-- Settles O11: an instruction is its change of the context, past which the context moves on. -/
theorem lineShiftEngineRunsItsProgram : Obligations.LineShiftEngineRunsItsProgram := by
  unfold Obligations.LineShiftEngineRunsItsProgram
  refine ⟨?unitStart, ?stop, ?loop, ?get, ?skip, ?alu, ?cvt, ?put, ?adda⟩
  case unitStart =>
    intro s n b rest u bad us hb hu hs hr
    exact .of_exec (exec_lseUnitStart_waiting hb hu hs hr) (by simp)
  case stop =>
    intro s n w h
    exact .of_exec (exec_lseEnd_word h) (by simp +contextual [State.endAddrs])
  case loop =>
    intro s n w h
    exact .of_exec (exec_lseLoop_word h) (by simp)
  case get =>
    intro s n w h
    exact runs_of_lseRun (exec_lseGet_word h) fun t hctx _ hregs hmem =>
      ⟨by rw [hctx, LseCtx.advance_x], by rw [hctx, LseCtx.advance_cursor, LseCtx.get_cursor], hregs, hmem⟩
  case skip =>
    intro s n w h
    exact runs_of_lseRun (exec_lseSkip_word h) fun t hctx _ hregs hmem =>
      ⟨by rw [hctx, LseCtx.advance_cursor], by rw [hctx, LseCtx.advance_x], hregs, hmem⟩
  case alu =>
    intro s n w h
    exact runs_of_lseRun (exec_lseAlu_word h) fun t hctx hcyc hregs hmem => ⟨by rw [hctx, LseCtx.advance_x], hcyc, hregs, hmem⟩
  case cvt =>
    intro s n w h
    exact runs_of_lseRun (exec_lseCvt_word h) fun t hctx _ hregs hmem => ⟨by rw [hctx, LseCtx.advance_x], hregs, hmem⟩
  case put =>
    intro s n w v xs h hone hx hs hc hin
    have hoff := State.putOffsets_one (s := s) (n := n) hone
    obtain ⟨f, x, e⟩ := exec_lsePut_inside h hs hc (by simpa only [hoff, List.mem_singleton, forall_eq] using hin)
    refine .of_exec e ?_
    rw [State.setStream_mem, State.lseRun_mem, State.putStores, hoff, hx]
    rfl
  case adda =>
    intro s n w h
    exact runs_of_lseRun (exec_lseAdda_word h) fun t hctx _ hregs hmem =>
      ⟨by rw [hctx, LseCtx.advance_a], by rw [hctx, LseCtx.advance_x], hregs, hmem⟩

end

section
/-! PROOF. Slot tokens, bands, and the control registers of a sensor stream (O12). -/

namespace Sys2Proof.Machine

/-! Slot tokens (R90). -/

theorem RegsOnly.setSlot {l : List Nat} {s t : State} (h : RegsOnly l s t) {n : Nat} (k v : Nat) (ha : rStream n 0x38 ∈ l) :
    RegsOnly l s (t.setSlot n k v) := ((h.setBit _ _ ha).setBit _ _ ha).setBit _ _ ha

/-- A slot is in the state that it is set to. -/
theorem State.slotOf_setSlot_same {s : State} (h : regsWf s.regs = true) (n : Nat) {k v : Nat} (hk : k < 4)
    (hv : v = 1 ∨ v = 2 ∨ v = 3) :
    (s.setSlot n k v).slotOf n k = v := by
  have h1 := State.setBit_regsWf h (rStream n 0x38) k (decide (v = 1))
  have h2 := State.setBit_regsWf h1 (rStream n 0x38) (4 + k) (decide (v = 2))
  have free : (s.setSlot n k v).bit (rStream n 0x38) k = decide (v = 1) := by
    rw [State.setSlot, State.bit_setBit_apart h2 _ (by omega) (by omega), State.bit_setBit_apart h1 _ (by omega) (by omega),
      State.bit_setBit_same h _ (by omega)]
  have held : (s.setSlot n k v).bit (rStream n 0x38) (4 + k) = decide (v = 2) := by
    rw [State.setSlot, State.bit_setBit_apart h2 _ (by omega) (by omega), State.bit_setBit_same h1 _ (by omega)]
  have inUse : (s.setSlot n k v).bit (rStream n 0x38) (8 + k) = decide (v = 3) := by
    rw [State.setSlot, State.bit_setBit_same h2 _ (by omega)]
  unfold State.bit at free held inUse
  rw [State.slotOf, slotState, free, held, inUse]
  rcases hv with rfl | rfl | rfl <;> rfl

theorem RegsOnly.slotOf {l : List Nat} {s t : State} (h : RegsOnly l s t) {n : Nat} (k : Nat) (ha : rStream n 0x38 ∉ l) :
    t.slotOf n k = s.slotOf n k := by
  rw [State.slotOf, h.word _ ha, State.slotOf]

theorem State.stSlots_pos (s : State) (n : Nat) : 0 < s.stSlots n := Nat.succ_pos _

theorem State.stSlots_le (s : State) (n : Nat) : s.stSlots n ≤ 4 := Nat.succ_le_of_lt (Nat.mod_lt _ (by decide))

/-- The slot of a sequence number. -/
theorem State.slotIndex_lt (s : State) (n q : Nat) : q % s.stSlots n < 4 :=
  lt_of_lt_of_le (Nat.mod_lt _ (s.stSlots_pos n)) (s.stSlots_le n)

/-- The slot whose bit alone a release word names (R91). -/
theorem setBitsList_slot (k : Fin 4) : setBitsList 4 (2 ^ k.val) = [k.val] := by
  decide +revert

/-- A release by the consumer of a slot that it holds returns the slot to the pool (R91). -/
theorem exec_slotRelease_held {s : State} {m : Master} {inst : Option (Fin 64)} {n : Fin 64} {k : Fin 4}
    (hc : s.consumer m inst n = true) (hk : s.slotOf n k = 2) :
    exec (.slotRelease m inst n (BitVec.ofNat 32 (2 ^ k.val))) s = .next ((s.setSlot n k 1).respOk []) := by
  have hv : (BitVec.ofNat 32 (2 ^ k.val)).toNat = 2 ^ k.val :=
    Nat.mod_eq_of_lt (Nat.pow_lt_pow_right (by decide) (by omega))
  change execSlotRelease m inst n _ s = _
  simp only [execSlotRelease, State.slotRelease, hv, setBitsList_slot, hc]
  simp [hk]

/-! Bands (R90, R99, R101). -/

/-- A band that waits with input takes its slot, which is free (R90). -/
theorem exec_bandStart_free {s : State} {n : Fin 64} {b : SfeBand} {rest : List SfeBand} (hb : (s.stream n).bands = b :: rest)
    (hs : b.started = false) (hu : b.units ≠ []) (hk : s.slotOf n (b.seq % s.stSlots n) = 1) (hp : s.bit (rStream n 0x18) 1 = false)
    (he : (s.stream n).embWait = []) :
    exec (.bandStart n) s = .next (((s.setSlot n (b.seq % s.stSlots n) 3).setBit (rStream n 0x18) 0 true).setStream n
      { s.stream n with
        bands := { b with started := true } :: rest
        ctx := { (s.stream n).ctx with a := (List.range 4).map fun i => s.word (rActive n i), running := false }
        embWait := [] }) := by
  change execBandStart n s = _
  simp [execBandStart, hb, hs, hu, hk, hp, he, modAt]

@[simp] theorem State.word_releaseEvent (s : State) (n q a : Nat) : (s.releaseEvent n q).word a = s.word a := rfl

@[simp] theorem State.word_phxEvent (s : State) (kind obj a : Nat) : (s.phxEvent kind obj).word a = s.word a := rfl

@[simp] theorem State.releaseEvent_stream (s : State) (n q k : Nat) : (s.releaseEvent n q).stream k = s.stream k := rfl

@[simp] theorem State.phxEvent_stream (s : State) (kind obj k : Nat) : (s.phxEvent kind obj).stream k = s.stream k := rfl

@[simp] theorem State.bump_stream (s : State) (a k : Nat) : (s.bump a).stream k = s.stream k := rfl

/-- HEAD names the band whose record is written (R101). -/
theorem State.word_bandRecord_head {s : State} (h : regsWf s.regs = true) (n : Nat) (b : SfeBand) (flags : Nat) :
    (s.bandRecord n b flags).word (rStream n 0x20) = b.seq % 2 ^ 32 := by
  unfold State.bandRecord
  exact State.word_setWord_same ((State.dmaWrite_keeps (Keeps.refl s)).regs h) _ _

/-- The record of a band of the stream written, its token with the consumer, and the band gone from the stream (R90, R101). -/
def State.handOver (s : State) (n : Nat) (b : SfeBand) (rest : List SfeBand) : State :=
  (((s.bandRecord n b b.flags).setSlot n (b.seq % (s.bandRecord n b b.flags).stSlots n) 2).setBit (rStream n 0x18) 0 false).setStream n
    { s.stream n with bands := rest }

@[simp] theorem State.handOver_bands (s : State) (n : Nat) (b : SfeBand) (rest : List SfeBand) :
    ((s.handOver n b rest).stream n).bands = rest := by
  simp [State.handOver]

/-- HEAD names the band, in a register file of canonical form. -/
theorem State.handOver_head {s : State} (h : regsWf s.regs = true) (n : Nat) (b : SfeBand) (rest : List SfeBand) :
    regsWf (s.handOver n b rest).regs = true ∧ (s.handOver n b rest).word (rStream n 0x20) = b.seq % 2 ^ 32 := by
  have hrec : regsWf (s.bandRecord n b b.flags).regs = true := (State.bandRecord_keeps (Keeps.refl s)).regs h
  have hslot : RegsOnly [rStream n 0x38, rStream n 0x18] (s.bandRecord n b b.flags)
      (((s.bandRecord n b b.flags).setSlot n (b.seq % (s.bandRecord n b b.flags).stSlots n) 2).setBit (rStream n 0x18) 0 false) :=
    ((RegsOnly.refl hrec).setSlot _ _ (by simp)).setBit _ _ (by simp)
  refine ⟨hslot.wf, ?_⟩
  rw [State.handOver, State.word_setStream, hslot.word _ (by simp), State.word_bandRecord_head h]

/-- A started, closed band without units left, and without a stall, is handed over; a band that a stall has held up is counted. -/
theorem exec_bandComplete_closed {s : State} {n : Fin 64} {b : SfeBand} {rest : List SfeBand} (hb : (s.stream n).bands = b :: rest)
    (hs : b.started = true) (hc : b.closed = true) (hu : b.units = []) (hr : (s.stream n).ctx.running = false)
    (hst : (s.stream n).stalled = none) :
    exec (.bandComplete n) s = .next (((if b.flags &&& bfSTALLED ≠ 0 then (s.handOver n b rest).bump (rStream n 0x2C)
      else s.handOver n b rest).releaseEvent n b.seq).phxEvent 2 n) := by
  change execBandComplete n s = _
  simp [execBandComplete, hb, hs, hc, hu, hr, State.endStall_none hst, State.handOver]

theorem exec_streamStallTimeout_stalled {s : State} {n : Fin 64} {t0 : Nat} (h : (s.stream n).stalled = some t0) :
    exec (.streamStallTimeout n) s = .next ((s.timeTo (t0 + 4 * s.word (rStream n 0x10) + 1)).dropBand n 0) := by
  change execStreamStallTimeout n s = _
  rw [execStreamStallTimeout, h]

/-! SFE_STREAM_CTRL and the shadow slot (R98, R104, R106). -/

theorem exec_commit_consumer {s : State} {m : Master} {inst : Option (Fin 64)} {n : Fin 64} (hc : s.consumer m inst n = true)
    (hp : s.bit (rStream n 0x18) 1 = false) (hv : lseValid (s.lseProg (rShadow n 0)) = true) :
    exec (.commit m inst n) s = .next (((s.setBit (rStream n 0x18) 1 true).setBit (rStream n 0x14) 0 true).respOk []) := by
  change execCommit m inst n s = _
  simp [execCommit, State.sfeCtrl, bitOf, State.sfeCommit, hc, hp, hv]

theorem exec_cancel_consumer {s : State} {m : Master} {inst : Option (Fin 64)} {n : Fin 64} (hc : s.consumer m inst n = true) :
    exec (.cancel m inst n) s = .next (((s.setBit (rStream n 0x18) 1 false).setBit (rStream n 0x14) 0 false).respOk []) := by
  change execCancel m inst n s = _
  simp [execCancel, State.sfeCtrl, bitOf, State.sfeCancel, hc]

/-- RESTART of a stream without bands has none to drop. -/
theorem exec_restart_noBands {s : State} {m : Master} {n : Fin 64} (hm : s.sysWriter m = true) (hb : (s.stream n).bands = []) :
    exec (.restart m none n) s = .next (((s.setStream n { s.stream n with seq := 0 }).setFld (rStream n 0x18) 15 8
      (s.fld (rStream n 0x18) 15 8 + 1)).respOk []) := by
  change execRestart m none n s = _
  simp [execRestart, State.sfeCtrl, bitOf, State.sfeRestart, State.dropAll, hm, hb]

theorem exec_shadowSlotWrite_unpending {s : State} {m : Master} {n w : Fin 64} {v : BitVec 32} (hm : s.sysWriter m = true)
    (hp : s.bit (rStream n 0x18) 1 = false) :
    exec (.shadowSlotWrite m none n w v) s = .next ((s.setWord (rShadow n w) v.toNat).respOk []) := by
  change execShadowSlotWrite m none n w v s = _
  simp [execShadowSlotWrite, State.shadowWrite, hm, hp]

/-! Occupancy (R105). -/

/-- The occupancy and peak of one engine shown at the end of a window. -/
def State.showOcc (s : State) (e : Nat) : State :=
  let occ := min (s.sfe.cycles.getD e 0 / 800) 1000
  let r := rSfe (0x10 + 4 * e)
  (s.setFld r 9 0 occ).setFld r 25 16 (max occ (s.fld r 25 16))

theorem RegsOnly.showOcc {l : List Nat} {s t : State} (h : RegsOnly l s t) (e : Nat) (ha : rSfe (0x10 + 4 * e) ∈ l) :
    RegsOnly l s (t.showOcc e) := (h.setFld _ _ _ ha).setFld _ _ _ ha

theorem State.fld_showOcc_same {s : State} (h : regsWf s.regs = true) (e : Nat) :
    (s.showOcc e).fld (rSfe (0x10 + 4 * e)) 9 0 = min (s.sfe.cycles.getD e 0 / 800) 1000 := by
  rw [State.showOcc, State.fld_setFld_apart (State.setFld_regsWf h _ _ _ _) _ (by omega) (by omega) (by omega),
    State.fld_setFld_same h _ (by omega) (by omega)]
  exact Nat.mod_eq_of_lt (by omega)

/-- The registers of the first k engines. -/
def occWords (k : Nat) : List Nat := (List.range k).map fun e => rSfe (0x10 + 4 * e)

theorem RegsOnly.showOccs {s : State} (h : regsWf s.regs = true) (k : Nat) :
    RegsOnly (occWords k) s ((List.range k).foldl State.showOcc s) :=
  .foldl _ (.refl h) fun _ e he hu => hu.showOcc e (List.mem_map_of_mem he)

/-- Each engine shows its own cycles, whichever engines come after it. -/
theorem State.fld_showOccs {s : State} (h : regsWf s.regs = true) {k e : Nat} (he : e < k) :
    ((List.range k).foldl State.showOcc s).fld (rSfe (0x10 + 4 * e)) 9 0 = min (s.sfe.cycles.getD e 0 / 800) 1000 := by
  induction k with
  | zero => omega
  | succ k ih =>
    have hk := RegsOnly.showOccs h k
    rw [List.range_succ, List.foldl_append, List.foldl_cons, List.foldl_nil]
    rcases Nat.lt_succ_iff_lt_or_eq.mp he with hlt | rfl
    · have hlast : RegsOnly [rSfe (0x10 + 4 * k)] _ _ := (RegsOnly.refl hk.wf).showOcc k (by simp)
      rw [hlast.fld 9 0 (by simp; omega), ih hlt]
    · rw [State.fld_showOcc_same hk.wf]
      obtain ⟨r, e⟩ := hk.rest
      rw [e]

theorem exec_lseOccupancyWindow_eq (s : State) : exec .lseOccupancyWindow s =
    .next { (List.range 4).foldl State.showOcc (s.timeTo (4000000 * (s.now / 4000000 + 1))) with
      sfe.cycles := [0, 0, 0, 0] } := rfl

end Sys2Proof.Machine

open Sys2Proof Sys2Proof.Machine

/-- Settles O12: each command is brought to its next state, whose slots, bands and words are read off. -/
theorem bandsSlotsAndStreamControl : Obligations.BandsSlotsAndStreamControl := by
  unfold Obligations.BandsSlotsAndStreamControl
  refine ⟨?start, ?complete, fun s n t0 h => exec_streamStallTimeout_stalled h, ?release, ?commit, ?cancel, ?restart, ?shadow, ?window⟩
  case start =>
    intro s n b rest hcan hb hs hu hk hp he
    obtain ⟨-, hwf⟩ := State.canonical_iff.mp hcan
    have hslot : RegsOnly [rStream n 0x38] s (s.setSlot n (b.seq % s.stSlots n) 3) := (RegsOnly.refl hwf).setSlot _ _ (by simp)
    have hbusy := (RegsOnly.refl (l := [rStream n 0x18]) hslot.wf).setBit 0 true (List.mem_singleton_self _)
    refine .of_exec (exec_bandStart_free hb hs hu hk hp he) ⟨?_, State.bit_setBit_same hslot.wf true (by decide), by simp, hslot.mem⟩
    rw [State.slotOf, State.word_setStream, ← State.slotOf, hbusy.slotOf _ (by simp)]
    exact State.slotOf_setSlot_same hwf n (s.slotIndex_lt n b.seq) (.inr (.inr rfl))
  case complete =>
    intro s n b rest hcan hb hs hc hu hr hst
    obtain ⟨-, hwf⟩ := State.canonical_iff.mp hcan
    obtain ⟨hwf', hhead⟩ := State.handOver_head hwf n b rest
    refine .of_exec (exec_bandComplete_closed hb hs hc hu hr hst) ?_
    rw [State.phxEvent_stream, State.releaseEvent_stream, State.word_phxEvent, State.word_releaseEvent]
    split
    · rw [State.bump_stream, State.word_bump_other hwf' (by simp)]
      exact ⟨s.handOver_bands n b rest, hhead⟩
    · exact ⟨s.handOver_bands n b rest, hhead⟩
  case release =>
    intro s m inst n k hcan hc hk
    obtain ⟨-, hwf⟩ := State.canonical_iff.mp hcan
    have hslot : RegsOnly [rStream n 0x38] s (s.setSlot n k 1) := (RegsOnly.refl hwf).setSlot _ _ (by simp)
    exact .of_exec (exec_slotRelease_held hc hk)
      ⟨State.slotOf_setSlot_same hwf n k.isLt (.inl rfl), rfl, hslot.mem, hslot.word⟩
  case commit =>
    intro s m inst n hcan hc hp hv
    obtain ⟨-, hwf⟩ := State.canonical_iff.mp hcan
    have hset := State.setBit_regsWf hwf (rStream n 0x18) 1 true
    exact .of_exec (exec_commit_consumer hc hp hv)
      ⟨(State.bit_setBit_other hset 0 true 1 (by simp)).trans (State.bit_setBit_same hwf true (by decide)),
        State.bit_setBit_same hset true (by decide), rfl, rfl⟩
  case cancel =>
    intro s m inst n hcan hc
    obtain ⟨-, hwf⟩ := State.canonical_iff.mp hcan
    have hset := State.setBit_regsWf hwf (rStream n 0x18) 1 false
    exact .of_exec (exec_cancel_consumer hc)
      ⟨(State.bit_setBit_other hset 0 false 1 (by simp)).trans (State.bit_setBit_same hwf false (by decide)),
        State.bit_setBit_same hset false (by decide), rfl, rfl⟩
  case restart =>
    intro s m n hcan hm hb
    obtain ⟨-, hwf⟩ := State.canonical_iff.mp hcan
    have hinc := State.fld_setFld_same (s := s.setStream n { s.stream n with seq := 0 }) hwf (a := rStream n 0x18)
      (s.fld (rStream n 0x18) 15 8 + 1) (show 8 ≤ 15 by decide) (by decide)
    refine .of_exec (exec_restart_noBands hm hb) ⟨hinc, ?_, rfl, rfl⟩
    exact congrArg SfeStream.seq (s.stream_setStream n { s.stream n with seq := 0 })
  case shadow =>
    intro s m n w v hcan hm hp
    obtain ⟨-, hwf⟩ := State.canonical_iff.mp hcan
    have hset : RegsOnly [rShadow n w] s (s.setWord (rShadow n w) v.toNat) := (RegsOnly.refl hwf).setWord _ (by simp)
    exact .of_exec (exec_shadowSlotWrite_unpending hm hp)
      ⟨(State.word_setWord_same hwf _ _).trans (Nat.mod_eq_of_lt v.isLt), rfl, rfl, hset.word⟩
  case window =>
    intro s c0 c1 c2 c3 hcan hcyc
    obtain ⟨-, hwf⟩ := State.canonical_iff.mp hcan
    have hshow (e : Nat) (he : e < 4) := State.fld_showOccs (s := s.timeTo (4000000 * (s.now / 4000000 + 1))) hwf he
    have hmem := (RegsOnly.showOccs (s := s.timeTo (4000000 * (s.now / 4000000 + 1))) hwf 4).mem
    simp only [State.timeTo_sfe, hcyc] at hshow
    exact .of_exec (exec_lseOccupancyWindow_eq s)
      ⟨hshow 0 (by decide), hshow 1 (by decide), hshow 2 (by decide), hshow 3 (by decide), rfl, hmem⟩

end

section
/-! PROOF. O24 is refuted: END moves the PC of the group that ends past the instruction (R184). -/

namespace Sys2Proof.Machine

/-- END without operands (R211). -/
def endWord : Nat := 2 ^ 58 * 0x3F + 2 ^ 30

/-- Cell 9 is RUNNING with groups 0 and 127 live at PC 0, where END stands. -/
def endBeforeLast : State :=
  { State.reset with
    regs := [(rCell 9 0, 5)]
    cel.cells := [(9, { CellS.reset with
      desc := zeroBytes 8 ++ [8, 0, 0, 0] ++ zeroBytes 52
      code := [(0, endWord)]
      groups := [(0, { CGroup.reset with run := 1 }), (127, { CGroup.reset with run := 1 })] })] }

theorem endBeforeLast_premises :
    endBeforeLast.canonical = true ∧ endBeforeLast.atWord 9 0 endWord ∧ isSys 1 endWord = true ∧
      sysOk endWord false false 0 = .ok () ∧
      (endBeforeLast.cell 9).groups = [(0, endBeforeLast.group 9 0), (127, { CGroup.reset with run := 1 })] := by
  decide +kernel

theorem endBeforeLast_pc :
    (endBeforeLast.group 9 0).pc = 0 ∧ ((endBeforeLast.endGroup 9 0).group 9 0).pc = 8 := by
  decide +kernel

/-- END that issues is the end of its group (R211). -/
theorem exec_sysEnd_of_nextWord {s : State} {c : Fin 256} {g : Fin 128} {w : Nat} (h : s.nextWord c g (isSys 1) = some w) :
    exec (.sysEnd c g) s = .next (s.endGroup c g) := by
  change execSysEnd c g s = _
  simp [execSysEnd, h]

theorem endBeforeLast_nextWord : endBeforeLast.nextWord 9 0 (isSys 1) = some endWord := by
  decide +kernel

end Sys2Proof.Machine

open Sys2Proof Sys2Proof.Machine

/-- Refutes O24: END of a group does not leave its PC as it was while another group is live. Like every instruction that is no branch, it
leaves the PC at the next one. -/
theorem not_systemInstructionsOfCells : ¬ Obligations.SystemInstructionsOfCells := by
  unfold Obligations.SystemInstructionsOfCells
  rintro ⟨-, -, h, -⟩
  obtain ⟨hcan, hat, hsys, hok, hgroups⟩ := endBeforeLast_premises
  obtain ⟨hbefore, hafter⟩ := endBeforeLast_pc
  obtain ⟨t, ht, -, hpc, -⟩ := h endBeforeLast 9 0 endWord 127 { CGroup.reset with run := 1 } hcan hat hsys hok (by decide)
    (by decide) rfl hgroups
  have e : t = endBeforeLast.endGroup 9 0 := Host.Outcome.next.inj (ht.symm.trans (exec_sysEnd_of_nextWord endBeforeLast_nextWord))
  rw [e] at hpc
  exact absurd (hafter.symm.trans (hpc.trans hbefore)) (by decide)

end

section
/-! PROOF. Instructions that work on the registers of their own group: the issue of such an instruction, what its checks and its answer
are, and the registers of the group after a write (R180, R181, R184). -/

namespace Sys2Proof.Machine

/-! Checks (R183). -/

theorem need_ok {b : Bool} (cause : Nat) (h : b = true) : need b cause = .ok () := by
  rw [need, h]
  rfl

/-- Behind a check that passes, the rest gives the answer. -/
theorem check_ok {α : Type} {m : Except Exc Unit} {f : Unit → Except Exc α} {v : α} (h : m = .ok ()) (k : f () = .ok v) :
    (m >>= f) = .ok v := by
  rw [h]
  exact k

theorem checkIf_ok {α : Type} {c : Prop} [Decidable c] {m : Except Exc Unit} {f : Unit → Except Exc α} {v : α} (h : c → m = .ok ())
    (k : f () = .ok v) : (if c then m >>= f else f ()) = .ok v := by
  split
  case isTrue hc => exact check_ok (h hc) k
  case isFalse => exact k

/-- Whatever m answers has the property p. -/
def Yields {α : Type} (m : Except Exc α) (p : α → Prop) : Prop := ∀ r, m = .ok r → p r

namespace Yields

variable {α : Type} {p : α → Prop}

theorem answer {v : α} (h : p v) : Yields (.ok v) p := fun _ e => Except.ok.inj e ▸ h

theorem check {m : Except Exc Unit} {f : Unit → Except Exc α} (h : Yields (f ()) p) : Yields (m >>= f) p := by
  intro r e
  cases m with
  | error x => cases e
  | ok u => exact h r e

theorem checkIf {c : Prop} [Decidable c] {m : Except Exc Unit} {f : Unit → Except Exc α} (h : Yields (f ()) p) :
    Yields (if c then m >>= f else f ()) p := by
  split
  · exact check h
  · exact h

theorem checkEither {c : Prop} [Decidable c] {m n : Except Exc Unit} {f : Unit → Except Exc α} (h : Yields (f ()) p) :
    Yields (if c then m >>= f else n >>= f) p := by
  split
  · exact check h
  · exact check h

theorem ite {c : Prop} [Decidable c] {a b : Except Exc α} (ha : c → Yields a p) (hb : ¬c → Yields b p) :
    Yields (if c then a else b) p := by
  split
  case isTrue hc => exact ha hc
  case isFalse hc => exact hb hc

end Yields

/-- The group as an instruction finds it: with its registers, and no longer waiting. -/
def CGroup.issuing (q : CGroup) : CGroup := { q with wait := .none }

/-! Scalar registers. -/

/-- Writes of s0 are discarded (R181). -/
theorem CGroup.setS_zero (q : CGroup) {n : Nat} (v : Nat) (bad : Bool) (h : n % 32 = 0) : q.setS n v bad = q := by
  simp [CGroup.setS, h]

@[simp] theorem CGroup.setS_pc (q : CGroup) (n v : Nat) (bad : Bool) : (q.setS n v bad).pc = q.pc := by
  rw [CGroup.setS]
  split <;> rfl

theorem CGroup.sreg_setS_same (q : CGroup) {n : Nat} (v : Nat) (bad : Bool) (h : n % 32 ≠ 0) :
    (q.setS n v bad).sreg n = v % 2 ^ 64 := by
  simp [CGroup.setS, CGroup.sreg, h]

theorem CGroup.scalarsBut_setS (q : CGroup) (n v : Nat) (bad : Bool) : ScalarsBut n q (q.setS n v bad) := by
  intro k hk
  by_cases h0 : n % 32 = 0
  · rw [q.setS_zero v bad h0]
  · simp [CGroup.setS, CGroup.sreg, h0, fmGetD_fmPut_other _ _ _ hk]

/-! Predicates. -/

theorem CGroup.setPred_eq (q : CGroup) {n : Nat} (m : Nat) (h : n ≠ 0) : q.setPred n m = { q with p := fmPut q.p n m } := if_neg h

theorem CGroup.pred_setPred_same (q : CGroup) {n : Nat} (m : Nat) (h : n ≠ 0) : (q.setPred n m).pred n = m := by
  simp [CGroup.setPred, CGroup.pred, h]

/-- The mask of the lanes below n for which f holds. -/
def maskBelow (f : Nat → Bool) (n : Nat) : Nat := (List.range n).foldl (fun m l => if f l then m + 2 ^ l else m) 0

theorem maskBelow_succ (f : Nat → Bool) (n : Nat) :
    maskBelow f (n + 1) = if f n then maskBelow f n + 2 ^ n else maskBelow f n := by
  simp [maskBelow, List.range_succ]

theorem maskBelow_lt (f : Nat → Bool) (n : Nat) : maskBelow f n < 2 ^ n := by
  induction n with
  | zero => exact Nat.one_pos
  | succ n ih =>
    rw [maskBelow_succ, pow_succ]
    split <;> omega

theorem testBit_maskBelow (f : Nat → Bool) (n k : Nat) : (maskBelow f n).testBit k = (decide (k < n) && f k) := by
  induction n with
  | zero => simp [maskBelow]
  | succ n ih =>
    have hor : maskBelow f n + 2 ^ n = 2 ^ n ||| maskBelow f n := by
      simpa [add_comm] using Nat.two_pow_add_eq_or_of_lt (maskBelow_lt f n) 1
    rw [maskBelow_succ, hor]
    rcases eq_or_ne k n with rfl | hk
    · cases hf : f k <;> simp [ih]
    · have hlt : k < n + 1 ↔ k < n := by omega
      cases hf : f n <;> simp [ih, hlt, hk.symm]

theorem bitOf_maskOf (f : Nat → Bool) {l : Nat} (hl : l < 64) : bitOf (maskOf f) l = f l := by
  change bitOf (maskBelow f 64) l = f l
  rw [bitOf_eq, testBit_maskBelow, decide_eq_true hl, Bool.true_and]

theorem bitOf_maskMerge (old new act : Nat) {l : Nat} (hl : l < 64) :
    bitOf (maskMerge old new act) l = if bitOf act l then bitOf new l else bitOf old l := bitOf_maskOf _ hl

/-! Thread registers. -/

/-- A lane of a thread register after a write of it: active lanes hold the value, the others keep theirs (R180). -/
theorem CGroup.treg_setT_same (q : CGroup) {n : Nat} (act : Nat) {vals : List Nat} (bad : Nat) (hold : (q.treg n).length = 64)
    (hvals : vals.length = 64) {l : Nat} (hl : l < 64) :
    ((q.setT n act vals bad).treg n).getD l 0 = if bitOf act l then vals.getD l 0 % 2 ^ 32 else (q.treg n).getD l 0 := by
  have hold' : l < (q.treg n).length := hold ▸ hl
  have hvals' : l < vals.length := hvals ▸ hl
  have h : (q.setT n act vals bad).treg n =
      ((List.range 64).zip ((q.treg n).zip vals)).map fun p => if bitOf act p.1 then p.2.2 % 2 ^ 32 else p.2.1 :=
    fmGetD_fmPut_same _ _ _ _
  simp [h, hl, hold', hvals', List.getD_eq_getElem?_getD, List.zip]

/-- What an instruction gives that writes f to the active lanes of thread register n and goes on. -/
def CGroup.laneStep (q : CGroup) (n act : Nat) (f : Nat → Nat × Nat) (bad : Nat) : CGroup × Nat :=
  let r := q.writeLanes n act (lanes64 f) bad
  (r.1.past, r.2)

theorem lanes64_getD (f : Nat → Nat × Nat) {l : Nat} (hl : l < 64) : ((lanes64 f).map Prod.fst).getD l 0 = (f l).1 := by
  simp [lanes64, List.getD_eq_getElem?_getD, hl]

theorem CGroup.treg_laneStep (q : CGroup) {n : Nat} (act : Nat) (f : Nat → Nat × Nat) (bad : Nat) (hold : (q.treg n).length = 64)
    {l : Nat} (hl : l < 64) :
    ((q.laneStep n act f bad).1.treg n).getD l 0 = if bitOf act l then (f l).1 % 2 ^ 32 else (q.treg n).getD l 0 := by
  refine (q.treg_setT_same act bad hold (by simp [lanes64]) hl).trans ?_
  rw [lanes64_getD f hl]

theorem CGroup.threadsBut_laneStep (q : CGroup) (n act : Nat) (f : Nat → Nat × Nat) (bad : Nat) :
    ThreadsBut n q (q.laneStep n act f bad).1 := fun _ hk => fmGetD_fmPut_other _ _ _ hk

/-! Flags of the active lanes (R121). -/

theorem testBit_foldl_or (act : Nat) (k : Nat) (l : List (Nat × Nat × Nat)) (a : Nat) :
    (l.foldl (fun f p => if bitOf act p.1 then f ||| p.2.2 else f) a).testBit k =
      (a.testBit k || l.any fun p => bitOf act p.1 && p.2.2.testBit k) := by
  induction l generalizing a with
  | nil => simp
  | cons p r ih =>
    rw [List.foldl_cons, ih, List.any_cons]
    cases bitOf act p.1 <;> simp [Bool.or_assoc]

/-- A flag is raised when an active lane raises it. -/
theorem testBit_laneFlags (act : Nat) (f : Nat → Nat × Nat) (k : Nat) :
    (laneFlags act (lanes64 f)).testBit k = (List.range 64).any fun l => bitOf act l && (f l).2.testBit k := by
  have hzip : (List.range (lanes64 f).length).zip (lanes64 f) = (List.range 64).map fun l => (l, f l) := by
    simpa [lanes64] using List.zip_map' (f := id) (g := f) (l := List.range 64)
  rw [laneFlags, hzip, testBit_foldl_or, List.any_map, Nat.zero_testBit, Bool.false_or]
  rfl

theorem CGroup.flags_laneStep_zero (q : CGroup) (n act : Nat) {f : Nat → Nat × Nat} (bad : Nat) (h : ∀ l, (f l).2 = 0) :
    (q.laneStep n act f bad).2 = 0 := by
  refine Nat.eq_of_testBit_eq fun k => (testBit_laneFlags act f k).trans ?_
  simp [h]

theorem CGroup.bitOf_flags_laneStep (q : CGroup) (n : Nat) {act : Nat} {f : Nat → Nat × Nat} (bad : Nat) {l k : Nat} (hl : l < 64)
    (hact : bitOf act l = true) (hk : bitOf (f l).2 k = true) : bitOf (q.laneStep n act f bad).2 k = true := by
  rw [bitOf_eq] at hk ⊢
  refine (testBit_laneFlags act f k).trans (List.any_eq_true.mpr ⟨l, List.mem_range.mpr hl, ?_⟩)
  rw [hact, hk, Bool.and_true]

/-! Issue (R184). -/

/-- The state after an instruction of group g of cell c that gave the group q and raised the flags fl. -/
def State.issued (s : State) (c g : Nat) (q : CGroup) (fl : Nat) : State :=
  { (s.setGroup c g q).raiseFlags c g fl with free := s.free + 1 }

variable {s : State} {c g w : Nat} {want : Nat → Bool} {f : Ctx → CGroup → Nat → Except Exc (CGroup × Nat)}

theorem State.nextWord_of_atWord (h : s.atWord c g w) (hw : want w = true) : s.nextWord c g want = some w := by
  obtain ⟨hissue, hfetch⟩ := h
  simp [State.nextWord, hissue, hfetch, hw]

theorem State.issue_ok {r : CGroup × Nat} (h : s.atWord c g w) (hw : want w = true)
    (hf : f (s.ctx c g) (s.group c g).issuing w = .ok r) : s.issue c g want f = s.issued c g r.1 r.2 := by
  rw [State.issue, State.nextWord_of_atWord h hw]
  unfold CGroup.issuing at hf
  simp only [hf]
  rfl

theorem State.issue_error {e : Exc} (h : s.atWord c g w) (hw : want w = true)
    (hf : f (s.ctx c g) (s.group c g).issuing w = .error e) : s.issue c g want f = s.syncExc c g w e := by
  rw [State.issue, State.nextWord_of_atWord h hw]
  unfold CGroup.issuing at hf
  simp only [hf]

theorem State.raiseFlags_mem (s : State) (c g fl : Nat) : (s.raiseFlags c g fl).mem = s.mem := by
  rw [State.raiseFlags]
  split <;> rfl

theorem State.raiseFlags_cel (s : State) (c g fl : Nat) : (s.raiseFlags c g fl).cel = s.cel := by
  rw [State.raiseFlags]
  split <;> rfl

theorem State.issued_cell (s : State) (c g : Nat) (q : CGroup) (fl k : Nat) : (s.issued c g q fl).cell k = (s.setGroup c g q).cell k := by
  change fmGetD .reset ((s.setGroup c g q).raiseFlags c g fl).cel.cells k = _
  rw [State.raiseFlags_cel]
  rfl

@[simp] theorem State.issued_group (s : State) (c g : Nat) (q : CGroup) (fl : Nat) : (s.issued c g q fl).group c g = q := by
  rw [State.group, State.issued_cell, ← State.group, State.group_setGroup_same]

/-- The group that issued is all that changes, with its flags when it raises some. -/
theorem State.groupOnly_issued (q : CGroup) {fl : Nat} (h : fl = 0 ∨ regsWf s.regs = true) : GroupOnly c g s (s.issued c g q fl) := by
  refine ⟨State.raiseFlags_mem _ c g fl, fun a ha => ?_, fun k hk => ?_, fun k hk => ?_⟩
  · change ((s.setGroup c g q).raiseFlags c g fl).word a = s.word a
    rw [State.raiseFlags]
    split
    case isTrue => rfl
    case isFalse hfl => exact State.word_orWord_other (h.resolve_left hfl) _ (List.ne_of_not_mem_cons ha)
  · rw [State.issued_cell]
    exact fmGetD_fmPut_other _ _ _ hk
  · rw [State.group, State.issued_cell, State.setGroup, State.cell_modCell_same]
    exact fmGetD_fmPut_other _ _ _ hk

theorem State.bit_issued (q : CGroup) {fl k : Nat} (h : regsWf s.regs = true) (hk : k < 5) (hbit : bitOf fl k = true) :
    (s.issued c g q fl).bit (rAflags c g) k = true := by
  have hfl : fl ≠ 0 := by
    rintro rfl
    simp [bitOf] at hbit
  change ((s.setGroup c g q).raiseFlags c g fl).bit _ k = true
  have hbit' : bitOf (fl % 32) k = true := by
    rw [bitOf_eq] at hbit ⊢
    rw [Nat.testBit_mod_two_pow (j := 5), decide_eq_true hk, hbit, Bool.true_and]
  rw [State.raiseFlags, if_neg hfl, State.bit_orWord_same (s := s.setGroup c g q) h _ _ (by omega), hbit', Bool.or_true]

/-- A command that issues an instruction runs to the state that the instruction gives. -/
theorem Runs.of_issue {i : Instr} {r : CGroup × Nat} {p : State → Prop} (e : exec i s = .next (s.issue c g want f)) (h : s.atWord c g w)
    (hw : want w = true) (hf : f (s.ctx c g) (s.group c g).issuing w = .ok r) (hp : p (s.issued c g r.1 r.2)) : Runs i s p :=
  .of_exec (e.trans (congrArg _ (State.issue_ok h hw hf))) hp

/-- A command that issues an instruction that is refused raises its exception. -/
theorem exec_of_issue_error {i : Instr} {x : Exc} (e : exec i s = .next (s.issue c g want f)) (h : s.atWord c g w)
    (hw : want w = true) (hf : f (s.ctx c g) (s.group c g).issuing w = .error x) : exec i s = .next (s.syncExc c g w x) :=
  e.trans (congrArg _ (State.issue_error h hw hf))

end Sys2Proof.Machine
end

section
/-! PROOF. Thread instructions on registers (O21): what each gives when its checks pass. -/

namespace Sys2Proof.Machine

/-! What an instruction leaves in its group, by what it writes. -/

section

variable {s : State} {i : Instr} {c g w n : Nat} {want : Nat → Bool} {k : Ctx → CGroup → Nat → Except Exc (CGroup × Nat)}
  {p : State → Prop}

/-- From s to t, group g of cell c has written f to the active lanes of thread register n and gone on. -/
structure LanesWritten (c g n act : Nat) (f : Nat → Nat × Nat) (s t : State) : Prop where
  lanes : ∀ l, l < 64 → ((t.group c g).treg n).getD l 0 =
    if bitOf act l then (f l).1 % 2 ^ 32 else ((s.group c g).treg n).getD l 0
  others : ThreadsBut n (s.group c g) (t.group c g)
  pc : (t.group c g).pc = (s.group c g).pc + 8
  scalars : (t.group c g).s = (s.group c g).s
  preds : (t.group c g).p = (s.group c g).p
  only : (∀ l, (f l).2 = 0) ∨ regsWf s.regs = true → GroupOnly c g s t
  flags : regsWf s.regs = true → ∀ l, l < 64 → bitOf act l = true → ∀ j, j < 5 → bitOf (f l).2 j = true →
    t.bit (rAflags c g) j = true

theorem Runs.of_lanes {act : Nat} {f : Nat → Nat × Nat} {bad : Nat} (e : exec i s = .next (s.issue c g want k)) (h : s.atWord c g w)
    (hw : want w = true) (hk : k (s.ctx c g) (s.group c g).issuing w = .ok ((s.group c g).issuing.laneStep n act f bad))
    (hold : ((s.group c g).treg n).length = 64) (hp : ∀ t, LanesWritten c g n act f s t → p t) : Runs i s p := by
  refine .of_issue e h hw hk (hp _ ⟨fun l hl => ?lanes, ?others, ?pc, ?scalars, ?preds, fun hz => ?only,
    fun hwf l hl hact j hj hbit => ?flags⟩)
  case lanes =>
    rw [State.issued_group]
    exact CGroup.treg_laneStep _ act f bad hold hl
  case others =>
    rw [State.issued_group]
    exact CGroup.threadsBut_laneStep _ n act f bad
  case pc | scalars | preds =>
    rw [State.issued_group]
    rfl
  case only => exact State.groupOnly_issued _ (hz.imp_left (CGroup.flags_laneStep_zero _ n act bad))
  case flags => exact State.bit_issued _ hwf hj (CGroup.bitOf_flags_laneStep _ n bad hl hact hbit)

/-- What an instruction gives that writes a mask to the active lanes of predicate n and goes on. -/
def CGroup.predStep (q : CGroup) (n act new : Nat) : CGroup × Nat := ((q.setPred n (maskMerge (q.pred n) new act)).past, 0)

/-- From s to t, group g of cell c has written a mask to the active lanes of predicate n and gone on. -/
structure PredWritten (c g n act new : Nat) (s t : State) : Prop where
  lanes : ∀ l, l < 64 → bitOf ((t.group c g).pred n) l = if bitOf act l then bitOf new l else bitOf ((s.group c g).pred n) l
  threads : (t.group c g).t = (s.group c g).t
  scalars : (t.group c g).s = (s.group c g).s
  pc : (t.group c g).pc = (s.group c g).pc + 8
  only : GroupOnly c g s t

theorem Runs.of_pred {act new : Nat} (e : exec i s = .next (s.issue c g want k)) (h : s.atWord c g w) (hw : want w = true)
    (hk : k (s.ctx c g) (s.group c g).issuing w = .ok ((s.group c g).issuing.predStep n act new)) (hn : n ≠ 0)
    (hp : ∀ t, PredWritten c g n act new s t → p t) : Runs i s p := by
  refine .of_issue e h hw hk (hp _ ⟨fun l hl => ?_, ?_, ?_, ?_, State.groupOnly_issued _ (.inl rfl)⟩)
  · rw [State.issued_group]
    exact (congrArg (bitOf · l) (CGroup.pred_setPred_same _ _ hn)).trans (bitOf_maskMerge _ _ _ hl)
  all_goals
    rw [State.issued_group, CGroup.predStep, CGroup.setPred_eq _ _ hn]
    rfl

/-- What an instruction gives that writes scalar register n and goes on. -/
def CGroup.scalarStep (q : CGroup) (n v : Nat) (bad : Bool) : CGroup × Nat := ((q.setS n v bad).past, 0)

/-- From s to t, group g of cell c has written v to scalar register n and gone on. -/
structure ScalarWritten (c g n v : Nat) (s t : State) : Prop where
  value : (t.group c g).sreg n = v % 2 ^ 64
  others : ScalarsBut n (s.group c g) (t.group c g)
  pc : (t.group c g).pc = (s.group c g).pc + 8
  only : GroupOnly c g s t

theorem Runs.of_scalar {v : Nat} {bad : Bool} (e : exec i s = .next (s.issue c g want k)) (h : s.atWord c g w) (hw : want w = true)
    (hk : k (s.ctx c g) (s.group c g).issuing w = .ok ((s.group c g).issuing.scalarStep n v bad)) (hn : n % 32 ≠ 0)
    (hp : ∀ t, ScalarWritten c g n v s t → p t) : Runs i s p := by
  refine .of_issue e h hw hk (hp _ ⟨?_, ?_, ?_, State.groupOnly_issued _ (.inl rfl)⟩) <;> rw [State.issued_group]
  · exact CGroup.sreg_setS_same _ v bad hn
  · exact CGroup.scalarsBut_setS _ n v bad
  · exact congrArg (· + 8) (CGroup.setS_pc _ n v bad)

end

/-! TALU, TMOVI and FALU (R192, R193). -/

variable {x : Ctx} {q : CGroup} {w : Nat}

theorem talu_lanes (hfn : wFn w ≤ 0x16) (hp : q.predOk w = .ok ()) (ht : wType w ≤ 1) (hr : wRnd w = 0)
    (hl : layoutA w (intUsesC (wFn w) || wFn w == 0x16) = .ok ()) (hsel : wFn w = 0x16 → wC w < 8) (hd : wDst w < 32)
    (hx : x.regsA w (intUsesB (wFn w)) (intUsesC (wFn w)) = .ok ()) (hn : wDst w < x.nregs) :
    ∃ f bad, talu x q w = .ok (q.laneStep (wDst w) (q.active w) f bad) ∧ ∀ l, f l =
      if wFn w == 0x16 then
        (if bitOf (if wI w then x.free % 2 ^ 64 else q.pred (wC w % 8)) l then (q.lanes (wA w)).1.getD l 0
          else (q.srcB false w).1.getD l 0, 0)
      else
        (intFn 32 (wType w) (wFn w) ((q.lanes (wA w)).1.getD l 0) ((q.srcB false w).1.getD l 0) ((q.srcC x w).1.getD l 0), 0) := by
  unfold talu
  rcases q.lanes (wA w) with ⟨a, ba⟩
  rcases q.srcB false w with ⟨b, bb⟩
  rcases q.srcC x w with ⟨c, bc⟩
  refine ⟨_, _, check_ok (need_ok _ (decide_eq_true hfn)) <| check_ok hp <| check_ok (need_ok _ (by simp [ht, hr])) <| check_ok hl <|
    checkIf_ok (fun h => need_ok _ (decide_eq_true (hsel (by simp_all)))) <| check_ok (need_ok _ (decide_eq_true hd)) <| check_ok hx <|
    check_ok (need_ok _ (decide_eq_true hn)) rfl, fun l => rfl⟩

theorem tmovi_lanes (hp : q.predOk w = .ok ()) (hz : bitsOf w 35 32 = 0) (ha : wA w = 0) (hb : wB w = 0) (hd : wDst w < 32)
    (hn : wDst w < x.nregs) :
    ∃ f bad, tmovi x q w = .ok (q.laneStep (wDst w) (q.active w) f bad) ∧ ∀ l, f l = (w % 2 ^ 32, 0) := by
  unfold tmovi
  exact ⟨_, _, check_ok hp <| check_ok (need_ok _ (by simp only [hz, ha, hb, decide_true, Bool.and_self])) <|
    check_ok (need_ok _ (decide_eq_true hd)) <| check_ok (need_ok _ (decide_eq_true hn)) rfl, fun _ => rfl⟩

theorem falu_lanes (hfn : wFn w ≤ 0x12) (hp : q.predOk w = .ok ()) (ht : wType w = 2)
    (hr : if fpRounds (wFn w) then wRnd w ≠ 3 else wRnd w = 0) (hl : layoutA w (fpUsesC (wFn w)) = .ok ()) (hd : wDst w < 32)
    (hx : x.regsA w (fpUsesB (wFn w)) (fpUsesC (wFn w)) = .ok ()) (hn : wDst w < x.nregs) :
    ∃ f bad, falu x q w = .ok (q.laneStep (wDst w) (q.active w) f bad) ∧ ∀ l, bitOf (q.active w) l = true →
      f l = fpFn (wFn w) (wRnd w) ((q.lanes (wA w)).1.getD l 0) ((q.srcB true w).1.getD l 0) ((q.srcC x w).1.getD l 0) := by
  unfold falu
  rcases q.lanes (wA w) with ⟨a, ba⟩
  rcases q.srcB true w with ⟨b, bb⟩
  rcases q.srcC x w with ⟨c, bc⟩
  refine ⟨_, _, check_ok (need_ok _ (decide_eq_true hfn)) <| check_ok hp <| check_ok (need_ok _ (decide_eq_true ht)) <|
    check_ok (need_ok _ ?_) <| check_ok hl <| check_ok (need_ok _ (decide_eq_true hd)) <| check_ok hx <|
    check_ok (need_ok _ (decide_eq_true hn)) rfl, fun l hact => if_pos hact⟩
  split at hr <;> simp_all

/-! TCVT (R194). -/

/-- TCVT from a floating source, without the stochastic mode, rounds the element into its place. -/
theorem tcvt_lanes (hr : bitsOf w 27 26 ≠ 3) (hs : bitOf w 25 = false) (hd : bitOf w 24 = false) :
    Yields (tcvt x q w) fun r => ∃ f bad, r = q.laneStep (wDst w) (q.active w) f bad ∧ ∀ l,
      let sw := elemBits (bitsOf w 35 32)
      let dw := elemBits (bitsOf w 31 28)
      (f l).1 = setBitsOf ((q.treg (wDst w)).getD l 0) (bitsOf w 23 20 * dw + dw - 1) (bitsOf w 23 20 * dw)
        (numRound (bitsOf w 31 28) (bitsOf w 27 26) (numDecode (bitsOf w 35 32)
          (bitsOf ((q.lanes (wA w)).1.getD l 0) (bitsOf w 19 16 * sw + sw - 1) (bitsOf w 19 16 * sw))).1 0).1 := by
  unfold tcvt
  rcases q.lanes (wA w) with ⟨a, ba⟩
  refine .check <| .check <| .check <| .check <| .check <| .check <| .check <|
    .checkIf <| .check <| .answer ⟨_, _, rfl, fun l => ?_⟩
  simp [hr, hs, hd, cvtBits]

/-! Predicates (R195 to R197). -/

theorem tcmp_mask : Yields (tcmp x q w) fun r => ∃ new, r = q.predStep (wDst w) (q.active w) new ∧ ∀ l, l < 64 →
    let rel := tcmpRel (wType w) (wFn w) ((q.lanes (wA w)).1.getD l 0) ((q.srcB (wType w = 2) w).1.getD l 0)
    let old := bitOf (q.pred (wDst w)) l
    bitOf new l = if wRnd w = 0 then rel else if wRnd w = 1 then old && rel else old || rel := by
  simp only [tcmp]
  refine .check <| .check <| .check <| .check <| .check <| .check <| .checkIf <|
    .answer ⟨_, rfl, fun l hl => ?_⟩
  rw [bitOf_maskOf _ hl]
  rcases wRnd w with _ | _ | n <;> rfl

theorem plog_mask (hfn : wFn w ≤ 6) : Yields (plog x q w) fun r =>
    ∃ new, r = q.predStep (wDst w) (q.active w) new ∧ ∀ l, l < 64 →
    let a := bitOf (q.pred (wA w)) l
    let b := bitOf (q.pred (wB w)) l
    bitOf new l = if wFn w = 0 then a && b else if wFn w = 1 then a || b else if wFn w = 2 then xor a b
      else if wFn w = 4 then true else if wFn w = 5 then false else if wFn w = 6 then bitOf (q.sreg (wA w)) l
      else bitOf (2 ^ 64 - 1 - q.pred (wA w)) l := by
  unfold plog
  refine .check <| .check <| .check <| .checkIf <| .checkIf <| .checkIf <| .checkIf <| .checkIf <| .checkIf <|
    .answer ⟨_, rfl, fun l hl => ?_⟩
  have hones : bitOf (2 ^ 64 - 1) l = true := by rw [bitOf_eq, Nat.testBit_two_pow_sub_one, decide_eq_true hl]
  interval_cases wFn w
  · exact bitOf_and _ _ l
  · simp [bitOf_eq]
  · simp [bitOf_eq]
  · rfl
  · exact hones
  · simp [bitOf]
  · rfl

theorem vote_scalar (h10 : 0x10 ≤ wFn w) (h13 : wFn w ≤ 0x13) (hp : q.predOk w = .ok ()) (hz : w % 2 ^ 30 = 0) (hd : 32 ≤ wDst w)
    (ha : wA w < 8) : ∃ bad, vote x q w = .ok (q.scalarStep (wDst w)
      (let hit := q.pred (wA w) &&& q.active w
       if wFn w = 0x10 then hit else if wFn w = 0x11 then b2n (decide (hit ≠ 0))
        else if wFn w = 0x12 then b2n (decide (hit = q.active w)) else popCount 64 hit) bad) := by
  unfold vote
  refine ⟨decide (wA w ≠ 0 ∧ q.pBad &&& q.active w ≠ 0), check_ok (need_ok _ (by simp [h10, h13])) <| check_ok hp <|
    check_ok (need_ok _ (by rw [decide_eq_true hz, decide_eq_true hd, decide_eq_true ha]; rfl)) ?_⟩
  interval_cases wFn w <;> rfl

/-! TLANE (R199). -/

theorem tlane_shuffle (hfn : wFn w ≤ 4) : Yields (tlane x q w) fun r => ∃ f bad, r = q.laneStep (wDst w) (q.active w) f bad ∧
    ∀ l, f l = ((q.lanes (wA w)).1.getD
      (shufLane (wFn w) (w % 64) l (if wFn w = 0 then (q.lanes (wB w)).1.getD l 0 else 0)) 0, 0) := by
  unfold tlane
  rcases q.lanes (wA w) with ⟨a, ba⟩
  refine .check <| .check <| .check <| .checkEither <| .check <| .checkIf <| .checkIf <|
    .ite (fun hred => absurd (of_decide_eq_true hred) (by omega)) fun _ => ?_
  rcases hb : (if wFn w = 0 then q.lanes (wB w) else (List.replicate 64 0, 0)) with ⟨b, bb⟩
  have hlane (l : Nat) : b.getD l 0 = if wFn w = 0 then (q.lanes (wB w)).1.getD l 0 else 0 := by
    rw [show b = _ from (congrArg Prod.fst hb).symm]
    split
    · rfl
    · rw [List.getD_eq_getElem?_getD]
      exact List.getElem?_getD_replicate_default_eq _ _ _
  exact .answer ⟨_, _, rfl, fun l => by rw [← hlane l]⟩

theorem tlane_sum (hfn : wFn w = 0x10) (ht : wType w = 0) : Yields (tlane x q w) fun r => ∃ bad, r = q.scalarStep (wDst w)
    (((List.range 64).filter fun l => bitOf (q.active w) l).map fun l => (q.lanes (wA w)).1.getD l 0).sum bad := by
  unfold tlane
  rcases q.lanes (wA w) with ⟨a, ba⟩
  refine .check <| .check <| .check <| .checkEither <| .check <| .checkIf <| .checkIf <|
    .ite (fun _ => ?_) fun hred => absurd (decide_eq_true (show wFn w ≥ 16 by omega)) hred
  rw [hfn, ht]
  exact .answer ⟨_, by rw [List.sum_eq_foldl]; rfl⟩

/-! The commands that issue them. -/

section

variable (s : State) (c : Fin 256) (g : Fin 128)

theorem exec_talu : exec (.talu c g) s = .next (s.issue c g (fun w => wOp w == 0x10) talu) := rfl

theorem exec_tmovi : exec (.tmovi c g) s = .next (s.issue c g (fun w => wOp w == 0x11) tmovi) := rfl

theorem exec_falu : exec (.falu c g) s = .next (s.issue c g (fun w => wOp w == 0x12) falu) := rfl

theorem exec_tcvt : exec (.tcvt c g) s = .next (s.issue c g (fun w => wOp w == 0x13) tcvt) := rfl

theorem exec_tcmp : exec (.tcmp c g) s = .next (s.issue c g (fun w => wOp w == 0x14) tcmp) := rfl

theorem exec_plog : exec (.plog c g) s = .next (s.issue c g (fun w => wOp w == 0x15 && decide (wFn w < 0x10)) plog) := rfl

theorem exec_vote : exec (.vote c g) s =
    .next (s.issue c g (fun w => wOp w == 0x15 && decide (0x10 ≤ wFn w ∧ wFn w ≤ 0x13)) vote) := rfl

theorem exec_tlane : exec (.tlane c g) s = .next (s.issue c g (fun w => wOp w == 0x18) tlane) := rfl

end

end Sys2Proof.Machine

open Sys2Proof Sys2Proof.Machine

/-- Settles O21: each word that passes its checks is one write of lanes, of a predicate or of a scalar, whose value is read off. -/
theorem threadInstructionsComputeInActiveLanes : Obligations.ThreadInstructionsComputeInActiveLanes := by
  unfold Obligations.ThreadInstructionsComputeInActiveLanes
  refine ⟨?talu, ?select, ?tmovi, ?falu, ?tcvt, ?tcmp, ?plog, ?vote, ?shuffle, ?sum, ?refused⟩
  case talu =>
    intro s c g w h hop hfn hp ht hr hl hd hx hn hold
    have hsel : (wFn w == 0x16) = false := by simp; omega
    obtain ⟨f, bad, hok, hf⟩ := talu_lanes (q := (s.group c g).issuing) (by omega) hp ht hr (by rwa [hsel, Bool.or_false]) (by omega)
      hd hx hn
    simp only [hsel, Bool.false_eq_true, if_false] at hf
    refine .of_lanes (exec_talu s c g) h (beq_iff_eq.mpr hop) hok hold fun t ht =>
      ⟨fun l hl => ?_, ht.others, ht.pc, ht.scalars, ht.preds, ht.only (.inl fun l => congrArg Prod.snd (hf l))⟩
    rw [ht.lanes l hl, hf]
    rfl
  case select =>
    intro s c g w h hop hfn hp ht hr hi hz hC hd hx hn hold
    have hl : layoutA w (intUsesC (wFn w) || wFn w == 0x16) = .ok () := by
      rw [layoutA, hi]
      exact need_ok _ (by rw [decide_eq_true hz, hfn]; rfl)
    obtain ⟨f, bad, hok, hf⟩ := talu_lanes (q := (s.group c g).issuing) (by omega) hp ht hr hl (fun _ => hC) hd (by rwa [hfn]) hn
    simp only [hfn, beq_self_eq_true, if_true, hi, Bool.false_eq_true, if_false, Nat.mod_eq_of_lt hC, CGroup.srcB] at hf
    refine .of_lanes (exec_talu s c g) h (beq_iff_eq.mpr hop) hok hold fun t ht =>
      ⟨fun l hl => ?_, ht.others, ht.pc, ht.only (.inl fun l => congrArg Prod.snd (hf l))⟩
    rw [ht.lanes l hl, hf]
    rfl
  case tmovi =>
    intro s c g w h hop hp hz ha hb hd hn hold
    obtain ⟨f, bad, hok, hf⟩ := tmovi_lanes (x := s.ctx c g) (q := (s.group c g).issuing) hp hz ha hb hd hn
    refine .of_lanes (exec_tmovi s c g) h (beq_iff_eq.mpr hop) hok hold fun t ht =>
      ⟨fun l hl => ?_, ht.others, ht.pc, ht.only (.inl fun l => congrArg Prod.snd (hf l))⟩
    rw [ht.lanes l hl, hf, Nat.mod_mod]
    rfl
  case falu =>
    intro s c g w hcan h hop hfn hp ht hr hl hd hx hn hold
    obtain ⟨-, hwf⟩ := State.canonical_iff.mp hcan
    obtain ⟨f, bad, hok, hf⟩ := falu_lanes (q := (s.group c g).issuing) hfn hp ht hr hl hd hx hn
    refine .of_lanes (exec_falu s c g) h (beq_iff_eq.mpr hop) hok hold fun t ht =>
      ⟨fun l hl => ⟨?_, fun hact k hk hbit => ?_⟩, ht.others, ht.pc, ht.only (.inr hwf)⟩
    · refine (ht.lanes l hl).trans (ite_congr rfl (fun hact => ?_) fun _ => rfl)
      rw [hf l hact]
      rfl
    · refine ht.flags hwf l hl hact k hk ?_
      rw [hf l hact]
      exact hbit
  case tcvt =>
    intro s c g w r h hop hok hr hs hd hold
    obtain ⟨f, bad, rfl, hf⟩ := tcvt_lanes hr hs hd r hok
    refine .of_lanes (exec_tcvt s c g) h (beq_iff_eq.mpr hop) hok hold fun t ht => ⟨fun l hl => ?_, ht.others, ht.pc⟩
    rw [ht.lanes l hl, hf]
    rfl
  case tcmp =>
    intro s c g w r h hop hok hn
    obtain ⟨new, rfl, hnew⟩ := tcmp_mask r hok
    refine .of_pred (exec_tcmp s c g) h (beq_iff_eq.mpr hop) hok hn fun t ht =>
      ⟨fun l hl => ?_, ht.threads, ht.scalars, ht.pc, ht.only⟩
    rw [ht.lanes l hl, hnew l hl]
    rfl
  case plog =>
    intro s c g w r h hop hfn hok hn
    obtain ⟨new, rfl, hnew⟩ := plog_mask hfn r hok
    refine .of_pred (exec_plog s c g) h (by simp [hop]; omega) hok hn fun t ht =>
      ⟨fun l hl => ?_, ht.threads, ht.scalars, ht.pc, ht.only⟩
    rw [ht.lanes l hl, hnew l hl]
    rfl
  case vote =>
    intro s c g w h hop h10 h13 hp hz hd32 hd64 ha
    obtain ⟨bad, hok⟩ := vote_scalar (x := s.ctx c g) (q := (s.group c g).issuing) h10 h13 hp hz hd32.le ha
    exact .of_scalar (exec_vote s c g) h (by simp [hop, h10, h13]) hok (by omega) fun t ht => ⟨ht.value, ht.others, ht.pc, ht.only⟩
  case shuffle =>
    intro s c g w r h hop hfn hok hold
    obtain ⟨f, bad, rfl, hf⟩ := tlane_shuffle hfn r hok
    refine .of_lanes (exec_tlane s c g) h (beq_iff_eq.mpr hop) hok hold fun t ht =>
      ⟨fun l hl => ?_, ht.others, ht.pc, ht.only (.inl fun l => congrArg Prod.snd (hf l))⟩
    rw [ht.lanes l hl, hf]
    rfl
  case sum =>
    intro s c g w r h hop hfn ht hok hd32 hd64
    obtain ⟨bad, rfl⟩ := tlane_sum hfn ht r hok
    exact .of_scalar (exec_tlane s c g) h (beq_iff_eq.mpr hop) hok (by omega) fun t ht => ⟨ht.value, ht.others, ht.pc, ht.only⟩
  case refused =>
    intro s c g w e h
    exact ⟨fun hop => exec_of_issue_error (exec_talu s c g) h (beq_iff_eq.mpr hop),
      fun hop => exec_of_issue_error (exec_tmovi s c g) h (beq_iff_eq.mpr hop),
      fun hop => exec_of_issue_error (exec_falu s c g) h (beq_iff_eq.mpr hop),
      fun hop => exec_of_issue_error (exec_tcvt s c g) h (beq_iff_eq.mpr hop),
      fun hop => exec_of_issue_error (exec_tcmp s c g) h (beq_iff_eq.mpr hop),
      fun hop hfn => exec_of_issue_error (exec_plog s c g) h (by simp [hop, hfn]),
      fun hop h10 h13 => exec_of_issue_error (exec_vote s c g) h (by simp [hop, h10, h13]),
      fun hop => exec_of_issue_error (exec_tlane s c g) h (beq_iff_eq.mpr hop)⟩

end

section
/-! PROOF. Logical cells: what an operation on a cell leaves alone, entering a state, and the marks of an error or report (R157, R177). -/

namespace Sys2Proof.Machine

/-- The address of a register of CEL gives its offset. -/
theorem rCel_inj {a b : Nat} : rCel a = rCel b ↔ a = b := Nat.add_left_cancel_iff

theorem rCell_inj {c a b : Nat} : rCell c a = rCell c b ↔ a = b := by
  rw [rCell, rCell, rCel_inj, Nat.add_left_cancel_iff]

theorem rCell_add_four (c o : Nat) : rCell c o + 4 = rCell c (o + 4) := rfl

/-- A bit outside the field written. -/
theorem State.bit_setFld_apart {s : State} (h : regsWf s.regs = true) {a hi lo k : Nat} (v : Nat) (l : lo ≤ hi) (w : k < 32)
    (ap : k < lo ∨ hi < k) : (s.setFld a hi lo v).bit a k = s.bit a k := by
  have e := State.fld_setFld_apart h v l (a := a) (hi' := k) w ap
  rw [State.fld, State.fld] at e
  rw [State.bit, State.bit, bitOf_eq_bitsOf, bitOf_eq_bitsOf, e]

/-! What an operation leaves alone. -/

/-- Only registers at the addresses listed and the cells' own state differ, and the register file is in canonical form. -/
def CelOnly (l : List Nat) (s t : State) : Prop := ∃ x, RegsOnly l { s with cel := x } t

namespace CelOnly

variable {l : List Nat} {s t : State}

theorem refl (h : regsWf s.regs = true) : CelOnly l s s := ⟨s.cel, RegsOnly.refl h⟩

theorem wf (h : CelOnly l s t) : regsWf t.regs = true := let ⟨_, k⟩ := h; k.wf

theorem word (h : CelOnly l s t) : RegsBut l s t := let ⟨_, k⟩ := h; k.word

theorem mem (h : CelOnly l s t) : t.mem = s.mem := let ⟨_, k⟩ := h; k.mem

theorem bit (h : CelOnly l s t) {a : Nat} (n : Nat) (ha : a ∉ l) : t.bit a n = s.bit a n := by
  rw [State.bit, h.word a ha, State.bit]

theorem fld (h : CelOnly l s t) {a : Nat} (hi lo : Nat) (ha : a ∉ l) : t.fld a hi lo = s.fld a hi lo :=
  State.fld_congr (h.word a ha) hi lo

theorem word64 (h : CelOnly l s t) {a : Nat} (ha : a ∉ l) (ha4 : a + 4 ∉ l) : t.word64 a = s.word64 a := by
  rw [State.word64, h.word a ha, h.word _ ha4, State.word64]

theorem cellState (h : CelOnly l s t) {c : Nat} (ha : rCell c 0 ∉ l) : t.cellState c = s.cellState c := h.fld 3 0 ha

theorem setWord (h : CelOnly l s t) {a : Nat} (v : Nat) (ha : a ∈ l) : CelOnly l s (t.setWord a v) :=
  let ⟨x, k⟩ := h; ⟨x, k.setWord v ha⟩

theorem setFld (h : CelOnly l s t) {a : Nat} (hi lo v : Nat) (ha : a ∈ l) : CelOnly l s (t.setFld a hi lo v) := h.setWord _ ha

theorem setBit (h : CelOnly l s t) {a : Nat} (n : Nat) (b : Bool) (ha : a ∈ l) : CelOnly l s (t.setBit a n b) := h.setWord _ ha

theorem orWord (h : CelOnly l s t) {a : Nat} (m : Nat) (ha : a ∈ l) : CelOnly l s (t.orWord a m) := h.setWord _ ha

theorem bump (h : CelOnly l s t) {a : Nat} (ha : a ∈ l) : CelOnly l s (t.bump a) := h.setWord _ ha

theorem setWord64 (h : CelOnly l s t) {a : Nat} (v : Nat) (ha : a ∈ l) (ha4 : a + 4 ∈ l) : CelOnly l s (t.setWord64 a v) :=
  (h.setWord v ha).setWord _ ha4

/-- A change of the cells' own state. -/
theorem upd (h : CelOnly l s t) (x : CelS) : CelOnly l s { t with cel := x } := by
  obtain ⟨_, wf, word, r, rfl⟩ := h
  exact ⟨x, wf, word, r, rfl⟩

theorem modCell (h : CelOnly l s t) (c : Nat) (f : CellS → CellS) : CelOnly l s (t.modCell c f) := h.upd _

theorem report (h : CelOnly l s t) (c status : Nat) : CelOnly l s (t.report c status) := h.upd _

theorem ite {p : Prop} [Decidable p] {u : State} (h : CelOnly l s t) (k : CelOnly l s u) : CelOnly l s (if p then t else u) := by
  split
  · exact h
  · exact k

theorem cellErr (h : CelOnly l s t) {c : Nat} (bit : Nat) (ha : rCell c 0x18 ∈ l) (hirq : rCelIrq ∈ l) :
    CelOnly l s (t.cellErr c bit) := (h.setBit _ _ ha).orWord _ hirq

/-- Leaving RUNNING also counts the cycles in CEL_PERF_ACTIVE. -/
theorem enter (h : CelOnly l s t) {c : Nat} (st : Nat) (h0 : rCell c 0 ∈ l) (h40 : rCell c 0x40 ∈ l) (h44 : rCell c 0x44 ∈ l) :
    CelOnly l s (t.enter c st) := by
  unfold State.enter
  exact (ite ((h.modCell _ _).setWord64 _ h40 h44) (ite (h.modCell _ _) h)).setFld _ _ _ h0

theorem drainFor (h : CelOnly l s t) {c : Nat} (why : Nat) (h0 : rCell c 0 ∈ l) (h40 : rCell c 0x40 ∈ l) (h44 : rCell c 0x44 ∈ l) :
    CelOnly l s (t.drainFor c why) := (h.modCell _ _).enter _ h0 h40 h44

theorem showLive (h : CelOnly l s t) {c : Nat} (h0 : rCell c 0 ∈ l) : CelOnly l s (t.showLive c) := h.setFld _ _ _ h0

end CelOnly

/-! Entering a state (R157). -/

/-- Between states other than RUNNING no cycles are kept. -/
theorem State.enter_of_ne {s : State} {c st : Nat} (hold : s.cellState c ≠ csRUNNING) (hst : st ≠ csRUNNING) :
    s.enter c st = s.setFld (rCell c 0) 3 0 st := by
  simp [State.enter, hold, hst]

theorem State.cellState_setFld_same {s : State} (h : regsWf s.regs = true) (c : Nat) {st : Nat} (hst : st < 16) :
    (s.setFld (rCell c 0) 3 0 st).cellState c = st :=
  (State.fld_setFld_same h st (by omega) (by omega)).trans (Nat.mod_eq_of_lt hst)

/-- Entering a state is a write of the state's field, past what is kept of the cycles. -/
theorem State.enter_eq {s : State} (h : regsWf s.regs = true) (c st : Nat) :
    ∃ u, CelOnly [rCell c 0x40, rCell c 0x44] s u ∧ s.enter c st = u.setFld (rCell c 0) 3 0 st :=
  ⟨_, .ite (((CelOnly.refl h).modCell _ _).setWord64 _ (by simp) (by simp [rCell_add_four]))
    (.ite ((CelOnly.refl h).modCell _ _) (.refl h)), rfl⟩

/-- A cell is in the state it has entered. -/
theorem State.cellState_enter {s : State} (h : regsWf s.regs = true) (c : Nat) {st : Nat} (hst : st < 16) :
    (s.enter c st).cellState c = st := by
  obtain ⟨u, k, e⟩ := State.enter_eq h c st
  rw [e, State.cellState_setFld_same k.wf c hst]

/-- Entering a state changes nothing of the cell but the count of its cycles, and no other cell. -/
theorem State.cel_enter (s : State) (c st : Nat) :
    (s.enter c st).cel = s.cel ∨ ∃ e n, (s.enter c st).cel = (s.modCell c fun x => { x with elapsed := e, since := n }).cel := by
  unfold State.enter
  dsimp only
  split
  · exact .inr ⟨_, (s.cell c).since, rfl⟩
  · split
    · exact .inr ⟨(s.cell c).elapsed, _, rfl⟩
    · exact .inl rfl

theorem State.cell_enter (s : State) (c st : Nat) : ∃ e n, (s.enter c st).cell c = { s.cell c with elapsed := e, since := n } := by
  obtain h | ⟨e, n, h⟩ := s.cel_enter c st
  · exact ⟨(s.cell c).elapsed, (s.cell c).since, by rw [State.cell, h, ← State.cell]⟩
  · exact ⟨e, n, by rw [State.cell, h, ← State.cell, State.cell_modCell_same]⟩

theorem State.reports_enter (s : State) (c st : Nat) : (s.enter c st).cel.reports = s.cel.reports := by
  obtain h | ⟨e, n, h⟩ := s.cel_enter c st
  · rw [h]
  · rw [h]
    rfl

/-- The bit of CEL_ERR that shows an error. -/
theorem State.bit_cellErr {s : State} (h : regsWf s.regs = true) (c : Nat) {bit : Nat} (hb : bit < 32) :
    (s.cellErr c bit).bit (rCell c 0x18) bit = true := by
  have hne : rCell c 0x18 ≠ rCelIrq := by
    rw [rCell, rCelIrq, Ne, rCel_inj]
    omega
  rw [State.cellErr, State.bit, State.word_orWord_other (State.setBit_regsWf h _ _ _) _ hne]
  exact State.bit_setBit_same h true hb

end Sys2Proof.Machine
end

section
/-! PROOF. Kernel load, task end, SAVE, RESTORE, ABORT and ACK of a cell (O17). -/

namespace Sys2Proof.Machine

variable {s : State} {m : Master} {c : Fin 256}

/-! The commands, and who may write (R176). -/

/-- The meaning of a control write of a cell: done and answered for a writer of the CEL block, refused to other masters. -/
def State.celWrite (s : State) (m : Master) (a : Nat) (f : State → State) : State :=
  if s.celWriter m then (f s).respOk [] else s.refuse m 2 a

theorem State.celWrite_writer {a : Nat} {f : State → State} (h : s.celWriter m = true) : s.celWrite m a f = (f s).respOk [] := if_pos h

theorem State.celWrite_other {a : Nat} {f : State → State} (h : s.celWriter m = false) : s.celWrite m a f = s.refuse m 2 a :=
  if_neg (by simp [h])

theorem exec_kernelWrite (a : BitVec 64) :
    exec (.kernelWrite m c a) s = .next (s.celWrite m (rCell c 8) fun s => s.kernelWrite c a.toNat 1) := rfl

theorem exec_save : exec (.save m c) s = .next (s.celWrite m (rCell c 4) fun s => s.saveReq c) := rfl

theorem exec_restore : exec (.restore m c) s = .next (s.celWrite m (rCell c 4) fun s => s.restoreReq c) := rfl

theorem exec_abort : exec (.abort m c) s = .next (s.celWrite m (rCell c 4) fun s => s.abortReq c) := rfl

theorem exec_ack : exec (.ack m c) s = .next (s.celWrite m (rCell c 4) fun s => s.ackReq c) := rfl

theorem exec_kernelLoadDone : exec (.kernelLoadDone c) s = .next (s.loadDone c) := rfl

theorem exec_saveComplete : exec (.saveComplete c) s = .next (s.saveDone c) := rfl

theorem exec_restoreComplete : exec (.restoreComplete c) s = .next (s.restoreDone c) := rfl

/-- A control write by a writer of the CEL block runs to its answered effect. -/
theorem Runs.of_celWrite {i : Instr} {a : Nat} {f : State → State} {p : State → Prop} (e : exec i s = .next (s.celWrite m a f))
    (h : s.celWriter m = true) (hp : p ((f s).respOk [])) : Runs i s p :=
  .of_exec (e.trans (congrArg _ (State.celWrite_writer h))) hp

/-! Marks of a refused request. -/

/-- What a request leaves that is refused with a CEL_ERR bit. -/
theorem State.cellErr_marks (h : regsWf s.regs = true) (c : Nat) {bit : Nat} (hb : bit < 32) :
    (s.cellErr c bit).bit (rCell c 0x18) bit = true ∧ (s.cellErr c bit).cellState c = s.cellState c ∧
      RegsBut [rCell c 0x18, rCelIrq] s (s.cellErr c bit) := by
  have k : CelOnly [rCell c 0x18, rCelIrq] s (s.cellErr c bit) := (CelOnly.refl h).cellErr bit (by simp) (by simp)
  exact ⟨State.bit_cellErr h c hb, k.cellState (by simp [rCell, rCelIrq, rCel_inj]), k.word⟩

/-! Kernel writes and loads (R156). -/

theorem State.kernelWrite_accepted {c : Nat} (hst : kernelStates (s.cellState c) = true) (addr why : Nat) :
    s.kernelWrite c addr why = ((s.setWord64 (rCell c 8) (addr / 64 % 2 ^ 46 * 64)).modCell c
      fun x => { x with load := why, texs := [] }).enter c csLOADING := if_pos hst

theorem State.kernelWrite_refused {c : Nat} (hst : kernelStates (s.cellState c) = false) (addr why : Nat) :
    s.kernelWrite c addr why = s.cellErr c (if s.cellState c = csABSENT ∨ s.cellState c = csOFF then 1 else 0) := by
  rw [State.kernelWrite, if_neg (by simp [hst])]
  simp only [Bool.or_eq_true, decide_eq_true_eq]

/-- An accepted kernel write sets CEL_KERNEL and enters LOADING. -/
theorem State.kernelWrite_effect (h : regsWf s.regs = true) {c : Nat} (hst : kernelStates (s.cellState c) = true) (addr why : Nat) :
    let t := s.kernelWrite c addr why
    t.cellState c = csLOADING ∧ t.word64 (rCell c 8) = addr / 64 % 2 ^ 46 * 64 ∧ (t.cell c).load = why ∧ t.mem = s.mem ∧
      RegsBut [rCell c 0, rCell c 8, rCell c 0xC] s t := by
  rw [State.kernelWrite_accepted hst]
  generalize hv : addr / 64 % 2 ^ 46 * 64 = v
  generalize hu : (s.setWord64 (rCell c 8) v).modCell c _ = u
  have ku : CelOnly [rCell c 8, rCell c 0xC] s u := by
    rw [← hu]
    exact ((CelOnly.refl h).setWord64 v (by simp) (by simp [rCell_add_four])).modCell _ _
  have old : u.cellState c ≠ csRUNNING := by
    rw [ku.cellState (by simp [rCell_inj])]
    intro e
    rw [e] at hst
    exact absurd hst (by decide)
  have load : (u.cell c).load = why := by rw [← hu, State.cell_modCell_same]
  have addrIs : u.word64 (rCell c 8) = v := by
    rw [← hu]
    exact (State.word64_setWord64_same h _ v).trans (Nat.mod_eq_of_lt (by omega))
  rw [State.enter_of_ne old (by decide)]
  have kt : CelOnly [rCell c 0] u (u.setFld (rCell c 0) 3 0 csLOADING) := (CelOnly.refl ku.wf).setFld _ _ _ (by simp)
  refine ⟨State.cellState_setFld_same ku.wf c (by decide), ?_, load, ku.mem, fun a ha => ?_⟩
  · rw [kt.word64 (by simp [rCell_inj]) (by simp [rCell_add_four, rCell_inj]), addrIs]
  · simp only [List.mem_cons, List.not_mem_nil, or_false, not_or] at ha
    obtain ⟨h0, h8, hC⟩ := ha
    rw [kt.word a (by simp [h0]), ku.word a (by simp [h8, hC])]

/-- The end of a load whose kernel cannot be fetched. -/
theorem State.loadDone_error {c bit : Nat} {u : State} (hst : s.cellState c = csLOADING)
    (hf : s.fetchKernel c (s.word64 (rCell c 8)) = (u, .error bit)) :
    s.loadDone c = (((u.cellErr c bit).modCell c fun x => { x with load := 0, groups := [] }).enter c csIDLE).report c 3 := by
  rw [State.loadDone, if_neg (not_not.mpr hst), hf]

/-- The end of a plain load. -/
theorem State.loadDone_ok {c : Nat} {u : State} {b : List Byte} (hst : s.cellState c = csLOADING)
    (hf : s.fetchKernel c (s.word64 (rCell c 8)) = (u, .ok b)) (hplain : (u.cell c).load = 1) :
    s.loadDone c =
      ((u.takeKernel c (u.word64 (rCell c 8)) b).modCell c fun x => { x with load := 0, groups := [] }).enter c csLOADED := by
  rw [State.loadDone, if_neg (not_not.mpr hst), hf]
  simp only [hplain, OfNat.one_ne_ofNat, if_false]

/-! The end of a task (R157). -/

theorem exec_taskComplete (hst : s.cellState c = csDRAINING) (hwhy : (s.cell c).drain = 1) (hd : s.drained c = true)
    (ha : (s.cell c).async = []) :
    exec (.taskComplete c) s = .next (((s.modCell c fun x => { x with drain := 0 }).enter c csLOADED).report c 0) := by
  change execTaskComplete c s = _
  simp [execTaskComplete, hst, hwhy, hd, ha]

/-! SAVE (R160). -/

theorem State.saveReq_loaded {c : Nat} (h : s.cellState c = csLOADED) : s.saveReq c = (s.clearMagic c).enter c csSAVING := by
  simp [State.saveReq, h, csLOADED, csSUBST, csRUNNING]

theorem State.saveReq_running {c : Nat} (h : s.cellState c = csRUNNING) : s.saveReq c = (s.clearMagic c).stopTask c 2 := by
  simp [State.saveReq, h, csSUBST, csRUNNING]

theorem State.saveReq_idle {c : Nat} (h : s.cellState c = csIDLE) : s.saveReq c = s.cellErr c 1 := by
  simp [State.saveReq, h, csIDLE, csSUBST, csRUNNING, csLOADED]

/-- What follows the writing of the image: without success CEL_ERR shows it, and the cell is IDLE with no group. -/
def State.saveEnd (s : State) (c : Nat) (ok : Bool) : State :=
  (((if ok then s else s.cellErr c 3).modCell c fun x => { x with groups := [], drain := 0 }).enter c csIDLE).showLive c

theorem State.saveDone_eq {c : Nat} {u : State} {ok : Bool} (hst : s.cellState c = csSAVING) (hw : s.writeImage c = (u, ok)) :
    s.saveDone c = u.saveEnd c ok := by
  rw [State.saveDone, if_neg (not_not.mpr hst), hw]
  rfl

theorem State.saveEnd_effect (h : regsWf s.regs = true) (c : Nat) (ok : Bool) :
    let t := s.saveEnd c ok
    t.cellState c = csIDLE ∧ (t.cell c).groups = [] ∧ (t.cell c).drain = 0 ∧ t.mem = s.mem := by
  let l := [rCell c 0, rCell c 0x18, rCelIrq, rCell c 0x40, rCell c 0x44]
  have k : CelOnly l s (if ok then s else s.cellErr c 3) := .ite (.refl h) ((CelOnly.refl h).cellErr 3 (by simp [l]) (by simp [l]))
  rw [State.saveEnd]
  generalize (if ok then s else s.cellErr c 3) = u at k ⊢
  generalize hv : u.modCell c _ = v
  have kv : CelOnly l s v := hv ▸ k.modCell _ _
  have ke := kv.enter (c := c) csIDLE (by simp [l]) (by simp [l]) (by simp [l])
  obtain ⟨e, n, hcell⟩ := v.cell_enter c csIDLE
  have hc : (v.cell c).groups = [] ∧ (v.cell c).drain = 0 := by
    rw [← hv, State.cell_modCell_same]
    exact ⟨rfl, rfl⟩
  have hcell' : (((v.enter c csIDLE).showLive c).cell c) = { v.cell c with elapsed := e, since := n } := hcell
  refine ⟨?_, by rw [hcell']; exact hc.1, by rw [hcell']; exact hc.2, (ke.showLive (by simp [l])).mem⟩
  exact (State.fld_setFld_apart ke.wf _ (by omega) (by omega) (by omega)).trans (State.cellState_enter kv.wf c (by decide))

/-! RESTORE (R161). -/

theorem State.restoreReq_accepted {c : Nat} (h : s.cellState c = csIDLE ∨ s.cellState c = csLOADED) :
    s.restoreReq c = s.setFld (rCell c 0) 3 0 csRESTORING := by
  have hacc : s.restoreReq c = s.enter c csRESTORING := by
    obtain h | h := h <;> simp [State.restoreReq, h, csIDLE, csLOADED, csSUBST]
  rw [hacc]
  refine State.enter_of_ne ?_ (by decide)
  obtain h | h := h <;> rw [h] <;> decide

/-- A restore that fails leaves the cell IDLE with no group, the reason in CEL_ERR, and the report RESTORE_FAILED. -/
theorem State.restoreFail_effect (h : regsWf s.regs = true) (c : Nat) {bit : Nat} (hb : bit < 32) :
    let t := s.restoreFail c bit
    t.cellState c = csIDLE ∧ t.bit (rCell c 0x18) bit = true ∧ (t.cell c).groups = [] ∧
      t.cel.reports = s.cel.reports ++ [(c, 4)] ∧ t.mem = s.mem := by
  rw [State.restoreFail]
  generalize hv : (s.cellErr c bit).modCell c _ = v
  have kv : CelOnly [rCell c 0x18, rCelIrq] s v := hv ▸ ((CelOnly.refl h).cellErr bit (by simp) (by simp)).modCell _ _
  have ke : CelOnly [rCell c 0, rCell c 0x40, rCell c 0x44] v (v.enter c csIDLE) :=
    (CelOnly.refl kv.wf).enter _ (by simp) (by simp) (by simp)
  obtain ⟨e, n, hcell⟩ := v.cell_enter c csIDLE
  have hgroups : (v.cell c).groups = [] := by rw [← hv, State.cell_modCell_same]
  have hcell' : ((v.enter c csIDLE).report c 4).cell c = { v.cell c with elapsed := e, since := n } := hcell
  have hreports : (v.enter c csIDLE).cel.reports = s.cel.reports := (v.reports_enter c csIDLE).trans (by rw [← hv]; rfl)
  refine ⟨State.cellState_enter kv.wf c (by decide), ?_, by rw [hcell']; exact hgroups, ?_, ke.mem.trans kv.mem⟩
  · refine (ke.bit bit (by simp [rCell_inj])).trans ?_
    rw [← hv]
    exact State.bit_cellErr h c hb
  · change (v.enter c csIDLE).cel.reports ++ _ = _
    rw [hreports]

theorem State.restoreDone_unread {c : Nat} {u : State} {e : Nat × Nat} (hst : s.cellState c = csRESTORING)
    (hr : s.rdAll c false (s.word64 (rCell c 0x10)) imgSize = (u, .error e)) : s.restoreDone c = u.restoreFail c 3 := by
  rw [State.restoreDone, if_neg (not_not.mpr hst), hr]

/-- The end of a restore whose image is taken and holds no running group. -/
theorem State.restoreDone_loaded {c : Nat} {u v : State} {l : List (Byte × Bool)} {b : List Byte} (hst : s.cellState c = csRESTORING)
    (hr : s.rdAll c false (s.word64 (rCell c 0x10)) imgSize = (u, .ok l)) (hbad : imgBad l 0 0x1000 = false)
    (hmagic : imgNat l 0 4 = imgMagic) (hk : u.fetchKernel c (imgNat l 0x10 8) = (v, .ok b)) (hcheck : imgCheck l b = none)
    (hnone : (((((v.takeKernel c (imgNat l 0x10 8) b).applyImage c l).setBit (rCell c 0x1C) 31 false).cell c).groups.all
      fun p => decide (p.2.run = 0)) = true) :
    s.restoreDone c =
      ((((v.takeKernel c (imgNat l 0x10 8) b).applyImage c l).setBit (rCell c 0x1C) 31 false).enter c csLOADED).showLive c := by
  rw [State.restoreDone, if_neg (not_not.mpr hst), hr]
  simp only [hbad, hmagic, ne_eq, not_true_eq_false, decide_false, Bool.or_self, Bool.false_eq_true, if_false, hk, hcheck]
  refine if_neg ?_
  simpa using hnone

/-! ABORT and ACK (R177). -/

theorem State.abortReq_running {c : Nat} (h : s.cellState c = csRUNNING) : s.abortReq c = s.stopTask c 3 := if_pos h

theorem State.abortReq_halted {c : Nat} (h : s.cellState c = csHALTED) : s.abortReq c = s.enter c csLOADED := by
  simp [State.abortReq, h, csHALTED, csRUNNING]

theorem State.ackReq_halted {c : Nat} (h : s.cellState c = csHALTED) : s.ackReq c = s.enter c csLOADED := if_pos h

theorem State.ackReq_other {c : Nat} (h : s.cellState c ≠ csHALTED) : s.ackReq c = s.cellErr c 1 := if_neg h

/-- A halted cell that is released is LOADED, and nothing else differs. -/
theorem State.enter_loaded_of_halted (h : regsWf s.regs = true) {c : Nat} (hst : s.cellState c = csHALTED) :
    let t := s.enter c csLOADED
    t.cellState c = csLOADED ∧ t.cel = s.cel ∧ t.mem = s.mem ∧ RegsBut [rCell c 0] s t := by
  rw [State.enter_of_ne (by rw [hst]; decide) (by decide)]
  exact ⟨State.cellState_setFld_same h c (by decide), rfl, rfl, ((CelOnly.refl h).setFld _ _ _ (by simp)).word⟩

/-! Events that meet no cell in their state (log 7). -/

theorem State.ends_of_idle {c : Nat} (h : s.cellState c = csIDLE) :
    s.loadDone c = s ∧ s.saveDone c = s ∧ s.restoreDone c = s := by
  refine ⟨if_pos ?_, if_pos ?_, if_pos ?_⟩ <;> rw [h] <;> decide

theorem exec_taskComplete_of_idle (h : s.cellState c = csIDLE) : exec (.taskComplete c) s = .next s := by
  change execTaskComplete c s = _
  simp [execTaskComplete, h, csIDLE, csDRAINING]

end Sys2Proof.Machine

open Sys2Proof Sys2Proof.Machine

/-- Settles O17: each control write or event is brought to the operation of its one case, whose marks on the cell are read off. -/
theorem cellsLoadSaveAndRestore : Obligations.CellsLoadSaveAndRestore := by
  unfold Obligations.CellsLoadSaveAndRestore
  refine ⟨?write, ?writeRefused, ?others, ?loadError, ?loadOk, ?taskEnd, ?saveLoaded, ?stopRunning, ?saveIdle, ?saveEnd, ?restore,
    ?restoreUnread, ?restoreLoaded, ?halted, ?ackRefused, ?wrongState⟩
  case write =>
    intro s m c a hcan hm hst
    obtain ⟨hstate, haddr, hload, hmem, hregs⟩ := State.kernelWrite_effect (State.canonical_iff.mp hcan).2 hst a.toNat 1
    exact .of_celWrite (exec_kernelWrite a) hm ⟨hstate, haddr, hload, rfl, hmem, hregs⟩
  case writeRefused =>
    intro s m c a hcan hm hst
    refine .of_celWrite (exec_kernelWrite a) hm ?_
    rw [State.kernelWrite_refused hst]
    obtain ⟨hbit, hstate, hregs⟩ := State.cellErr_marks (State.canonical_iff.mp hcan).2 c
      (bit := if s.cellState c = csABSENT ∨ s.cellState c = csOFF then 1 else 0) (by split <;> omega)
    exact ⟨hbit, hstate, rfl, rfl, hregs⟩
  case others =>
    intro s m c a hm
    rw [exec_kernelWrite, exec_save, exec_restore, exec_abort, exec_ack]
    simp only [State.celWrite_other hm, and_self]
  case loadError =>
    intro s u c bit _ hst hf
    exact exec_kernelLoadDone.trans (congrArg _ (State.loadDone_error hst hf))
  case loadOk =>
    intro s u c b hst hf hplain
    exact exec_kernelLoadDone.trans (congrArg _ (State.loadDone_ok hst hf hplain))
  case taskEnd =>
    intro s c hcan hst hwhy hd ha
    have hwf := (State.canonical_iff.mp hcan).2
    refine .of_exec (exec_taskComplete hst hwhy hd ha) ?_
    generalize hv : s.modCell c _ = v
    have kv : CelOnly [] s v := hv ▸ (CelOnly.refl hwf).modCell _ _
    rw [State.enter_of_ne (by rw [kv.cellState (by simp), hst]; decide) (by decide)]
    have kt := (CelOnly.refl (l := [rCell c 0]) kv.wf).setFld (a := rCell c 0) 3 0 csLOADED (by simp)
    have hdrain : (v.cell c).drain = 0 := by rw [← hv, State.cell_modCell_same]
    have hreports : v.cel.reports = s.cel.reports := by rw [← hv]; rfl
    exact ⟨State.cellState_setFld_same kv.wf c (by decide), congrArg (· ++ _) hreports, hdrain, kv.mem,
      fun a h => (kt.word a h).trans (kv.word a (by simp))⟩
  case saveLoaded =>
    intro s m c hm hst
    rw [exec_save, State.celWrite_writer hm, State.saveReq_loaded hst]
  case stopRunning =>
    intro s m c hm hst
    rw [exec_save, exec_abort, State.celWrite_writer hm, State.celWrite_writer hm, State.saveReq_running hst, State.abortReq_running hst]
    exact ⟨rfl, rfl⟩
  case saveIdle =>
    intro s m c hcan hm hst
    refine .of_celWrite exec_save hm ?_
    rw [State.saveReq_idle hst]
    obtain ⟨hbit, hstate, -⟩ := State.cellErr_marks (State.canonical_iff.mp hcan).2 c (bit := 1) (by omega)
    exact ⟨hbit, hstate.trans hst, rfl, rfl⟩
  case saveEnd =>
    intro s c hcan hst
    obtain ⟨⟨u, ok⟩, hw⟩ : ∃ w, s.writeImage c = w := ⟨_, rfl⟩
    have hwf : regsWf u.regs = true := (Keeps.of_fst hw (State.writeImage_keeps (Keeps.refl s))).regs (State.canonical_iff.mp hcan).2
    rw [hw]
    exact .of_exec (exec_saveComplete.trans (congrArg _ (State.saveDone_eq hst hw))) (State.saveEnd_effect hwf c ok)
  case restore =>
    intro s m c hcan hm hst
    have hwf := (State.canonical_iff.mp hcan).2
    refine .of_celWrite exec_restore hm ?_
    rw [State.restoreReq_accepted hst]
    exact ⟨State.cellState_setFld_same hwf c (by decide), rfl, rfl, ((CelOnly.refl hwf).setFld _ _ _ (by simp)).word⟩
  case restoreUnread =>
    intro s u c e hcan hst hr
    have hwf : regsWf u.regs = true := (Keeps.of_fst hr (State.rdAll_keeps (Keeps.refl s))).regs (State.canonical_iff.mp hcan).2
    exact .of_exec (exec_restoreComplete.trans (congrArg _ (State.restoreDone_unread hst hr))) (State.restoreFail_effect hwf c (by omega))
  case restoreLoaded =>
    intro s u v c l b hst hr hbad hmagic hk hcheck hnone
    exact exec_restoreComplete.trans (congrArg _ (State.restoreDone_loaded hst hr hbad hmagic hk hcheck hnone))
  case halted =>
    intro s m c hcan hm hst
    have released := State.enter_loaded_of_halted (State.canonical_iff.mp hcan).2 hst
    refine ⟨.of_celWrite exec_ack hm ?_, .of_celWrite exec_abort hm ?_⟩
    · rw [State.ackReq_halted hst]
      exact released
    · rw [State.abortReq_halted hst]
      exact released
  case ackRefused =>
    intro s m c hcan hm hst
    refine .of_celWrite exec_ack hm ?_
    rw [State.ackReq_other hst]
    obtain ⟨hbit, hstate, hregs⟩ := State.cellErr_marks (State.canonical_iff.mp hcan).2 c (bit := 1) (by omega)
    exact ⟨hbit, hstate, rfl, hregs⟩
  case wrongState =>
    intro s c hst
    obtain ⟨hload, hsave, hrestore⟩ := State.ends_of_idle hst
    rw [exec_kernelLoadDone, exec_saveComplete, exec_restoreComplete, hload, hsave, hrestore]
    exact ⟨rfl, exec_taskComplete_of_idle hst, rfl, rfl⟩

end

section
/-! PROOF. Exceptions of a cell, the halt that follows, the watchdog, and the clear of the error counts (O18). -/

namespace Sys2Proof.Machine

variable {s : State} {c : Fin 256} {g : Fin 128}

theorem exec_syncException : exec (.syncException c g) s = .next (s.syncException c g) := rfl

theorem exec_asyncException : exec (.asyncException c) s = .next (s.raiseAsync c) := rfl

theorem exec_cellHalt : exec (.cellHalt c) s = .next (s.haltCell c) := rfl

theorem exec_watchdog : exec (.watchdog c) s = .next (s.watchdog c) := rfl

/-! SYNC_EXCEPTION (R183, R184). -/

theorem State.syncException_waiting (h : s.canIssue c g = false) : s.syncException c g = s := by
  simp [State.syncException, h]

theorem State.syncException_fetch {e : Exc} (h : s.canIssue c g = true) (hf : (s.cell c).fetch (s.group c g).pc = .error e) :
    s.syncException c g = s.syncExc c g 0 e := by
  simp [State.syncException, h, hf]

theorem State.syncException_reserved {w : Nat} (h : s.atWord c g w) (hrun : s.runWord c g w = none) :
    s.syncException c g = s.syncExc c g w (reservedWord w) := by
  obtain ⟨hissue, hf⟩ := h
  simp [State.syncException, hissue, hf, hrun]

/-- The instruction at the PC has run: its exception stands if one was seen. -/
theorem State.syncException_run {t : State} {w : Nat} (h : s.atWord c g w) (hrun : s.runWord c g w = some (.next t)) :
    s.syncException c g = if s.excSeen t c then t else s := by
  obtain ⟨hissue, hf⟩ := h
  simp [State.syncException, hissue, hf, hrun]

/-! Captures and drains (R163, R165). -/

/-- A drain that begins: the reason is held, and nothing else of the cell differs but its cycles. -/
theorem State.drainFor_effect (h : regsWf s.regs = true) (c why : Nat) :
    let t := s.drainFor c why
    t.cellState c = csDRAINING ∧ (t.cell c).drain = why ∧ (t.cell c).async = (s.cell c).async ∧ t.mem = s.mem ∧
      RegsBut [rCell c 0, rCell c 0x40, rCell c 0x44] s t := by
  have k : CelOnly [rCell c 0, rCell c 0x40, rCell c 0x44] s (s.drainFor c why) :=
    (CelOnly.refl h).drainFor why (by simp) (by simp) (by simp)
  rw [State.drainFor] at *
  generalize hv : s.modCell c _ = v at *
  have kv : CelOnly [] s v := hv ▸ (CelOnly.refl h).modCell _ _
  obtain ⟨e, n, hcell⟩ := v.cell_enter c csDRAINING
  have hc : (v.cell c).drain = why ∧ (v.cell c).async = (s.cell c).async := by
    rw [← hv, State.cell_modCell_same]
    exact ⟨rfl, rfl⟩
  exact ⟨State.cellState_enter kv.wf c (by decide), by rw [hcell]; exact hc.1, by rw [hcell]; exact hc.2, k.mem, k.word⟩

/-- With a capture held, a later exception of a running task is counted, and the cell drains for it. -/
theorem State.laterExc_effect (h : regsWf s.regs = true) {c : Nat} (hheld : s.bit (rCell c 0x1C) 31 = true)
    (hrun : s.cellState c = csRUNNING) (g pc word : Nat) (e : Exc) (async : Bool) :
    let t := (s.capture_ c g pc word e async).stopForExc c
    t.cellState c = csDRAINING ∧ (t.cell c).drain = 4 ∧ (t.cell c).async = (s.cell c).async ∧
      t.word (rCell c 0x38) = (s.word (rCell c 0x38) + 1) % 2 ^ 32 ∧ t.mem = s.mem ∧
      RegsBut [rCell c 0, rCell c 0x38, rCell c 0x40, rCell c 0x44] s t := by
  have k : CelOnly [rCell c 0x38] s (s.bump (rCell c 0x38)) := (CelOnly.refl h).bump (by simp)
  have hst : (s.bump (rCell c 0x38)).cellState c = csRUNNING := (k.cellState (by simp [rCell_inj])).trans hrun
  have hstop : (s.capture_ c g pc word e async).stopForExc c = (s.bump (rCell c 0x38)).drainFor c 4 := by
    rw [State.capture_, if_pos hheld, State.stopForExc, hst]
    rfl
  rw [hstop]
  obtain ⟨hstate, hwhy, hasync, hmem, hregs⟩ := State.drainFor_effect k.wf c 4
  refine ⟨hstate, hwhy, hasync, (hregs _ (by simp [rCell_inj])).trans (State.word_bump_same h _), hmem, fun a ha => ?_⟩
  simp only [List.mem_cons, List.not_mem_nil, or_false, not_or] at ha
  obtain ⟨h0, h38, h40, h44⟩ := ha
  rw [hregs a (by simp [h0, h40, h44]), k.word a (by simp [h38])]

theorem State.cellState_of_canIssue {c g : Nat} (h : s.canIssue c g = true) : s.cellState c = csRUNNING := by
  simp only [State.canIssue, Bool.and_eq_true, decide_eq_true_eq] at h
  exact h.1.1

/-! ASYNC_EXCEPTION and CELL_HALT (R163). -/

theorem State.raiseAsync_cons {c : Nat} {e : CellExc} {r : List CellExc} (h : (s.cell c).async = e :: r) :
    s.raiseAsync c = (s.modCell c fun x => { x with async := r }).asyncExc c e := by
  rw [State.raiseAsync, h]

theorem State.raiseAsync_nil {c : Nat} (h : (s.cell c).async = []) : s.raiseAsync c = s := by
  rw [State.raiseAsync, h]

theorem State.haltCell_drained {c : Nat} (hst : s.cellState c = csDRAINING) (hwhy : (s.cell c).drain = 4) (hd : s.drained c = true)
    (ha : (s.cell c).async = []) :
    s.haltCell c = ((s.modCell c fun x => { x with drain := 0 }).enter c csHALTED).report c 1 := by
  have hlq : (s.cell c).lq.isEmpty = true := by
    simp only [State.drained, Bool.and_eq_true] at hd
    exact hd.1.2
  simp [State.haltCell, hst, hwhy, hlq, hd, ha]

theorem State.haltCell_other {c : Nat} (h : s.cellState c ≠ csDRAINING) : s.haltCell c = s := by
  simp [State.haltCell, h]

/-! WATCHDOG (R164). -/

/-- The word shown of an instruction that the watchdog stops: 0 where it cannot be fetched. -/
def CellS.shownWord (x : CellS) (pc : Nat) : Nat := match x.fetch pc with | .ok w => w | .error _ => 0

theorem State.watchdog_fires {c g : Nat} {q : CGroup} {r : List (Nat × CGroup)} (hst : s.cellState c = csRUNNING)
    (hw : (s.cell c).wdog ≠ 0) (hf : s.panelMHz c ≠ 0) (hg : (s.cell c).groups = (g, q) :: r) (hq : q.run = 1) :
    s.watchdog c =
      (s.timeTo ((s.cell c).since + ceilDiv (4000 * (1024 * (s.cell c).wdog - (s.cell c).elapsed)) (s.panelMHz c))).asyncExc c
        ⟨excWDOG, g, q.pc, (s.cell c).shownWord q.pc, 0⟩ := by
  have hfind : (s.cell c).groups.find? (fun p => decide (p.2.run = 1)) = some (g, q) := by
    rw [hg, List.find?_cons_of_pos (by simpa using hq)]
  simp only [State.watchdog, hst, hw, hf, ne_eq, not_false_eq_true, decide_true, Bool.and_self, if_true, hfind]
  rfl

theorem State.watchdog_off {c : Nat} (h : s.cellState c ≠ csRUNNING ∨ (s.cell c).wdog = 0) : s.watchdog c = s := by
  obtain h | h := h <;> simp [State.watchdog, h]

/-! The clear of the counts (R166). -/

/-- The CE and UE counts of the first n physical cells are cleared. -/
def State.clearCounts (s : State) (n : Nat) : State := (List.range n).foldl (fun s k => s.setFld (rCel (0x200 + k * 4)) 23 8 0) s

theorem exec_errorCountClear : exec .errorCountClear s = .next (s.clearCounts 272) := rfl

theorem State.clearCounts_succ (s : State) (n : Nat) :
    s.clearCounts (n + 1) = (s.clearCounts n).setFld (rCel (0x200 + n * 4)) 23 8 0 := by
  simp [State.clearCounts, List.range_succ]

theorem State.clearCounts_only (h : regsWf s.regs = true) (n : Nat) :
    RegsOnly ((List.range n).map fun k => rCel (0x200 + k * 4)) s (s.clearCounts n) :=
  .foldl _ (.refl h) fun _ _ hk hu => hu.setFld _ _ _ (List.mem_map_of_mem hk)

/-- The counts of a cell that is cleared are 0, and the other fields of its register are the same. -/
theorem State.fld_clearCounts (h : regsWf s.regs = true) {n k : Nat} (hk : k < n) :
    let a := rCel (0x200 + k * 4)
    (s.clearCounts n).fld a 23 8 = 0 ∧ (s.clearCounts n).fld a 7 0 = s.fld a 7 0 ∧ (s.clearCounts n).fld a 31 24 = s.fld a 31 24 := by
  induction n with
  | zero => omega
  | succ n ih =>
    have kn := State.clearCounts_only h n
    rw [State.clearCounts_succ]
    rcases eq_or_ne k n with rfl | hne
    · have untouched : rCel (0x200 + k * 4) ∉ (List.range k).map fun k => rCel (0x200 + k * 4) := by
        simp only [List.mem_map, List.mem_range, rCel_inj, not_exists, not_and]
        intro j hj e
        omega
      refine ⟨State.fld_setFld_same kn.wf 0 (by omega) (by omega), ?_, ?_⟩
      · exact (State.fld_setFld_apart kn.wf 0 (by omega) (by omega) (by omega)).trans (kn.fld 7 0 untouched)
      · exact (State.fld_setFld_apart kn.wf 0 (by omega) (by omega) (by omega)).trans (kn.fld 31 24 untouched)
    · have other : rCel (0x200 + k * 4) ≠ rCel (0x200 + n * 4) := by
        rw [Ne, rCel_inj]
        omega
      simp only [State.fld_setFld_other kn.wf 23 8 0 _ _ other]
      exact ih (by omega)

end Sys2Proof.Machine

open Sys2Proof Sys2Proof.Machine

/-- Settles O18: each event is brought to its one case, and a later exception to its count and the drain it begins. -/
theorem cellExceptionsStopTheTask : Obligations.CellExceptionsStopTheTask := by
  unfold Obligations.CellExceptionsStopTheTask
  refine ⟨?waiting, ?fetch, ?reserved, ?ran, ?syncLater, ?async, ?asyncLater, ?noAsync, ?halt, ?noHalt, ?watchdog, ?watchdogOff, ?clear⟩
  case waiting => exact fun s c g h => exec_syncException.trans (congrArg _ (State.syncException_waiting h))
  case fetch => exact fun s c g e h hf => exec_syncException.trans (congrArg _ (State.syncException_fetch h hf))
  case reserved => exact fun s c g w h hf hrun => exec_syncException.trans (congrArg _ (State.syncException_reserved ⟨h, hf⟩ hrun))
  case ran =>
    intro s t c g w h hf hrun
    have e : exec (.syncException c g) s = .next (if s.excSeen t c then t else s) :=
      exec_syncException.trans (congrArg _ (State.syncException_run ⟨h, hf⟩ hrun))
    exact ⟨fun seen => by rw [e, if_pos seen], fun quiet => by rw [e, if_neg (by simp [quiet])]⟩
  case syncLater =>
    intro s c g e hcan h hf hheld
    obtain ⟨hstate, hwhy, -, hcount, hmem, hregs⟩ := State.laterExc_effect (State.canonical_iff.mp hcan).2 hheld
      (State.cellState_of_canIssue h) g (s.group c g).pc 0 e false
    exact .of_exec (exec_syncException.trans (congrArg _ (State.syncException_fetch h hf))) ⟨hstate, hwhy, hcount, hmem, hregs⟩
  case async => exact fun s c e r h => exec_asyncException.trans (congrArg _ (State.raiseAsync_cons h))
  case asyncLater =>
    intro s c e r hcan h hheld hrun
    have k : CelOnly [] s (s.modCell c fun x => { x with async := r }) := (CelOnly.refl (State.canonical_iff.mp hcan).2).modCell _ _
    obtain ⟨hstate, -, hasync, hcount, hmem, hregs⟩ := State.laterExc_effect k.wf ((k.bit 31 (by simp)).trans hheld)
      ((k.cellState (by simp)).trans hrun) e.group e.pc e.word ⟨e.cause, e.addr, none⟩ true
    refine .of_exec (exec_asyncException.trans (congrArg _ (State.raiseAsync_cons h))) ⟨hstate, hasync.trans ?_, hcount, hmem, hregs⟩
    rw [State.cell_modCell_same]
  case noAsync => exact fun s c h => exec_asyncException.trans (congrArg _ (State.raiseAsync_nil h))
  case halt =>
    intro s c hcan hst hwhy hd ha
    refine .of_exec (exec_cellHalt.trans (congrArg _ (State.haltCell_drained hst hwhy hd ha))) ?_
    generalize hv : s.modCell c _ = v
    have kv : CelOnly [] s v := hv ▸ (CelOnly.refl (State.canonical_iff.mp hcan).2).modCell _ _
    have hreports : v.cel.reports = s.cel.reports := by rw [← hv]; rfl
    rw [State.enter_of_ne (by rw [kv.cellState (by simp), hst]; decide) (by decide)]
    have kt := (CelOnly.refl (l := [rCell c 0]) kv.wf).setFld (a := rCell c 0) 3 0 csHALTED (by simp)
    exact ⟨State.cellState_setFld_same kv.wf c (by decide), congrArg (· ++ _) hreports, kv.mem,
      fun a h => (kt.word a h).trans (kv.word a (by simp))⟩
  case noHalt => exact fun s c h => exec_cellHalt.trans (congrArg _ (State.haltCell_other h))
  case watchdog => exact fun s c g q r hst hw hf hg hq => exec_watchdog.trans (congrArg _ (State.watchdog_fires hst hw hf hg hq))
  case watchdogOff => exact fun s c h => exec_watchdog.trans (congrArg _ (State.watchdog_off h))
  case clear =>
    intro s hcan
    have hwf := (State.canonical_iff.mp hcan).2
    have k := State.clearCounts_only hwf 272
    refine .of_exec exec_errorCountClear ⟨fun n hn => State.fld_clearCounts hwf hn, fun a ha => k.word a ?_, k.mem⟩
    simp only [List.mem_map, List.mem_range, not_exists, not_and]
    exact fun n hn e => ha n hn e.symm

end

section
/-! PROOF. Issue of instructions to the queues of a cell (O25): what one issue does, and the commands that issue. -/

namespace Sys2Proof.Machine

/-- The queue of its kind holds the operation op last, the group r has been counted for it, and the other queues are the same: r is past
a tensor or movement instruction and held at a long one (R148, R206, R244). -/
def EnqueuedIn (sel : QSel) (op : QOp) (x y : CellS) (q r : CGroup) : Prop :=
  match sel with
  | .tensor => y.tq = x.tq ++ [op] ∧ r.tq = q.tq + 1 ∧ r.pc = q.pc + 8 ∧ r.wait = .none ∧ y.mq = x.mq ∧ y.lq = x.lq
  | .move => y.mq = x.mq ++ [op] ∧ r.mq = q.mq + 1 ∧ r.pc = q.pc + 8 ∧ r.wait = .none ∧ y.tq = x.tq ∧ y.lq = x.lq
  | .long => y.lq = x.lq ++ [op] ∧ r.lq = q.lq + 1 ∧ r.pc = q.pc ∧ r.wait = .long ∧ y.tq = x.tq ∧ y.mq = x.mq

theorem enqueuedIn_enq (sel : QSel) (op : QOp) (x : CellS) (g : Nat) (q : CGroup) :
    EnqueuedIn sel op x ((x.setGroup g (q.issuing.queued sel)).enq op sel) q.issuing (q.issuing.queued sel) := by
  cases sel <;> exact ⟨rfl, rfl, rfl, rfl, rfl, rfl⟩

theorem CellS.group_enq (x : CellS) (op : QOp) (sel : QSel) (h : Nat) : (x.enq op sel).group h = x.group h := by
  cases sel <;> rfl

theorem CGroup.queued_s (q : CGroup) (sel : QSel) : (q.queued sel).s = q.s := by
  cases sel <;> rfl

theorem CGroup.queued_t (q : CGroup) (sel : QSel) : (q.queued sel).t = q.t := by
  cases sel <;> rfl

/-- The state after the issue of an operation to a queue. -/
def State.enqueued (s : State) (c g : Nat) (sel : QSel) (op : QOp) : State :=
  (s.setGroup c g ((s.group c g).issuing.queued sel)).modCell c fun x => x.enq op sel

section

variable {s : State} {c g w : Nat} {want : Nat → Bool} {sel : QSel} {f : CGroup → Nat → Except Exc QOp}

theorem State.enqueued_cell_same (s : State) (c g : Nat) (sel : QSel) (op : QOp) :
    (s.enqueued c g sel op).cell c = ((s.cell c).setGroup g ((s.group c g).issuing.queued sel)).enq op sel := by
  rw [State.enqueued, State.cell_modCell_same, State.setGroup, State.cell_modCell_same]

theorem State.enqueued_cell_other (s : State) (g : Nat) (sel : QSel) (op : QOp) {k : Nat} (h : k ≠ c) :
    (s.enqueued c g sel op).cell k = s.cell k :=
  (fmGetD_fmPut_other _ _ _ h).trans (fmGetD_fmPut_other _ _ _ h)

theorem State.enqueued_group_same (s : State) (c g : Nat) (sel : QSel) (op : QOp) :
    (s.enqueued c g sel op).group c g = (s.group c g).issuing.queued sel := by
  rw [State.group, State.enqueued_cell_same, CellS.group_enq]
  exact fmGetD_fmPut_same _ _ _ _

theorem State.enqueued_group_other (s : State) (c : Nat) (sel : QSel) (op : QOp) {h : Nat} (hne : h ≠ g) :
    (s.enqueued c g sel op).group c h = s.group c h := by
  rw [State.group, State.enqueued_cell_same, CellS.group_enq]
  exact fmGetD_fmPut_other _ _ _ hne

/-- The issue is the issue of the word at the group's PC. -/
theorem State.issueTo_eq (h : s.atWord c g w) (hw : want w = true) :
    s.issueTo c g want sel f =
      if (s.cell c).qFull (s.group c g).issuing sel then s
      else match f (s.group c g).issuing w with
        | .error e => s.syncExc c g w e
        | .ok op => s.enqueued c g sel op := by
  rw [State.issueTo, State.nextWord_of_atWord h hw]
  rfl

/-- What a command does that issues the word w to a queue: it waits at a full queue, raises the exception of a check that fails, or
appends its operation (R148, R183, R217). -/
theorem issues_of_issueTo {i : Instr} (e : exec i s = .next (s.issueTo c g want sel f)) (h : s.atWord c g w) (hw : want w = true) :
    ((s.cell c).qFull (s.group c g).issuing sel = true → exec i s = .next s) ∧
    ((s.cell c).qFull (s.group c g).issuing sel = false →
      (∀ x, f (s.group c g).issuing w = .error x → exec i s = .next (s.syncExc c g w x)) ∧
      ∀ op, f (s.group c g).issuing w = .ok op → Runs i s fun t =>
        EnqueuedIn sel op (s.cell c) (t.cell c) (s.group c g).issuing (t.group c g) ∧
        (t.group c g).s = (s.group c g).s ∧ (t.group c g).t = (s.group c g).t ∧ t.regs = s.regs ∧ t.mem = s.mem ∧
        (∀ k, k ≠ c → t.cell k = s.cell k) ∧ ∀ k, k ≠ g → t.group c k = s.group c k) := by
  rw [State.issueTo_eq h hw] at e
  refine ⟨fun full => by rw [e, if_pos full], fun room => ?_⟩
  rw [if_neg (by simp [room])] at e
  refine ⟨fun x hx => by rw [e, hx], fun op hop => ?_⟩
  rw [hop] at e
  refine .of_exec e ⟨?_, ?_, ?_, rfl, rfl, fun k => s.enqueued_cell_other g sel op, fun k => s.enqueued_group_other c sel op⟩
  · rw [State.enqueued_cell_same, State.enqueued_group_same]
    exact enqueuedIn_enq sel op (s.cell c) g (s.group c g)
  · rw [State.enqueued_group_same, CGroup.queued_s, CGroup.issuing]
  · rw [State.enqueued_group_same, CGroup.queued_t, CGroup.issuing]

end

end Sys2Proof.Machine

open Sys2Proof Sys2Proof.Machine

/-- Settles O25: each command is one issue of its kind of word to its queue, and an issue waits, raises or appends. -/
theorem queuedInstructionsIssueInOrder : Obligations.QueuedInstructionsIssueInOrder := by
  unfold Obligations.QueuedInstructionsIssueInOrder
  intro issues s c g w h
  have word {n : Nat} (hop : wOp w = n) : (wOp w == n) = true := beq_iff_eq.mpr hop
  exact ⟨
    fun hop _ => issues_of_issueTo rfl h (word hop),
    fun hop => issues_of_issueTo rfl h (word hop),
    fun hop => issues_of_issueTo rfl h (word hop),
    fun hop => issues_of_issueTo rfl h (word hop),
    fun hop => issues_of_issueTo rfl h (word hop),
    fun hop => issues_of_issueTo rfl h (word hop),
    fun hop => issues_of_issueTo rfl h (word hop),
    fun hop => issues_of_issueTo rfl h (word hop),
    fun hop => issues_of_issueTo rfl h hop,
    fun hop => issues_of_issueTo rfl h hop,
    fun hop => issues_of_issueTo rfl h hop,
    fun hop => issues_of_issueTo rfl h hop,
    fun hop => issues_of_issueTo rfl h hop,
    fun hop => issues_of_issueTo rfl h hop⟩

end

section
/-! PROOF. Failing and replacing a physical cell: what each operation of a substitution leaves alone (R168 to R178). -/

namespace Sys2Proof.Machine

theorem rCell_eq_rCel {c o : Nat} : rCell c o = rCel (0x10000 + 0x100 * c + o) := rfl

theorem rPhys_eq_rCel {p i : Nat} : rPhys p i = rCel (0x200 + (p * 17 + i) * 4) := rfl

theorem rPanelSt_eq_rCel {p : Nat} : rPanelSt p = rCel (0x100 + p * 4) := rfl

theorem rCelIrq_eq_rCel : rCelIrq = rCel 0 := rfl

theorem RegsOnly.cel {l : List Nat} {s t : State} (h : RegsOnly l s t) : t.cel = s.cel := by
  obtain ⟨r, rfl⟩ := h.rest
  rfl

theorem RegsOnly.celOnly {l : List Nat} {s t : State} (h : RegsOnly l s t) : CelOnly l s t := ⟨s.cel, h⟩

namespace CelOnly

variable {l : List Nat} {s t : State}

theorem trans {u : State} (h : CelOnly l s t) (k : CelOnly l t u) : CelOnly l s u := by
  obtain ⟨x, wf, word, r, rfl⟩ := h
  obtain ⟨y, wf', word', r', rfl⟩ := k
  exact ⟨y, wf', fun a ha => (word' a ha).trans (word a ha), r', rfl⟩

theorem mono {l' : List Nat} (h : CelOnly l s t) (hl : ∀ a ∈ l, a ∈ l') : CelOnly l' s t := by
  obtain ⟨x, wf, word, rest⟩ := h
  exact ⟨x, wf, fun a ha => word a fun hm => ha (hl a hm), rest⟩

theorem setPhysState (h : CelOnly l s t) {p i : Nat} (st : Nat) (ha : rPhys p i ∈ l) : CelOnly l s (t.setPhysState p i st) :=
  h.setFld _ _ _ ha

theorem raiseIncarn (h : CelOnly l s t) {c : Nat} (ha : rCell c 0 ∈ l) : CelOnly l s (t.raiseIncarn c) := h.setFld _ _ _ ha

theorem dropWork (h : CelOnly l s t) {c : Nat} (ha : rCell c 0 ∈ l) : CelOnly l s (t.dropWork c) :=
  ((h.modCell _ _).showLive ha).upd _

theorem makeAbsent (h : CelOnly l s t) {c : Nat} (h0 : rCell c 0 ∈ l) (h40 : rCell c 0x40 ∈ l) (h44 : rCell c 0x44 ∈ l)
    (hp : rPanelSt (c / 16) ∈ l) (hirq : rCelIrq ∈ l) : CelOnly l s (t.makeAbsent c) :=
  (((h.enter _ h0 h40 h44).setFld _ _ _ h0).setBit _ _ hp).orWord _ hirq

end CelOnly

/-! Fields of CEL_CELL_STATE beside the state. -/

/-- Entering a state leaves the other fields of CEL_CELL_STATE alone. -/
theorem State.fld_enter {s : State} (h : regsWf s.regs = true) (c st : Nat) {hi lo : Nat} (hlo : 3 < lo) (hhi : hi < 32) :
    (s.enter c st).fld (rCell c 0) hi lo = s.fld (rCell c 0) hi lo := by
  obtain ⟨u, k, e⟩ := State.enter_eq h c st
  rw [e]
  exact (State.fld_setFld_apart k.wf st (by omega) hhi (by omega)).trans (k.fld hi lo (by simp [rCell_inj]))

/-- Entering a state changes no part of the cells' own state but the cells. -/
theorem State.cel_enter_cells (s : State) (c st : Nat) : (s.enter c st).cel = { s.cel with cells := (s.enter c st).cel.cells } := by
  obtain h | ⟨e, n, h⟩ := s.cel_enter c st
  · rw [h]
  · rw [h]
    rfl

/-! The status of substitutions (R176). -/

theorem RegsOnly.showSubs {l : List Nat} {s t : State} (h : RegsOnly l s t) (ha : rCel 0x10 ∈ l) : RegsOnly l s t.showSubs := by
  unfold State.showSubs
  dsimp only
  split
  · exact ((h.setBit _ _ ha).setBit _ _ ha).setFld _ _ _ ha
  · exact (h.setBit _ _ ha).setBit _ _ ha

theorem CelOnly.showSubs {l : List Nat} {s t : State} (h : CelOnly l s t) (ha : rCel 0x10 ∈ l) : CelOnly l s t.showSubs :=
  h.trans ((RegsOnly.refl h.wf).showSubs ha).celOnly

theorem State.showSubs_only {s : State} (h : regsWf s.regs = true) : RegsOnly [rCel 0x10] s s.showSubs :=
  (RegsOnly.refl h).showSubs (by simp)

/-- With one substitution that copies, its cell is shown. -/
theorem State.showSubs_eq {s : State} {p : Nat} {x : CellSub} (hs : s.cel.subs = [(p, x)]) :
    s.showSubs = ((s.setBit (rCel 0x10) 0 true).setBit (rCel 0x10) 1 (decide (s.leadSubs.1.length < s.leadSubs.2))).setFld
      (rCel 0x10) 15 8 x.cell := by
  simp [State.showSubs, hs]

theorem State.showSubs_one {s : State} (h : regsWf s.regs = true) {p : Nat} {x : CellSub} (hs : s.cel.subs = [(p, x)])
    (hx : x.cell < 256) : s.showSubs.bit (rCel 0x10) 0 = true ∧ s.showSubs.fld (rCel 0x10) 15 8 = x.cell := by
  rw [State.showSubs_eq hs]
  have k0 := State.setBit_regsWf h (rCel 0x10) 0 true
  have k1 := State.setBit_regsWf k0 (rCel 0x10) 1 (decide (s.leadSubs.1.length < s.leadSubs.2))
  refine ⟨?_, (State.fld_setFld_same k1 _ (by omega) (by omega)).trans (Nat.mod_eq_of_lt hx)⟩
  rw [State.bit_setFld_apart k1 _ (by omega) (by omega) (by omega), State.bit_setBit_apart k0 _ (by omega) (by omega)]
  exact State.bit_setBit_same h true (by omega)

/-! The failure of a cell (R170, R174). -/

/-- A fault of class N, C or D leaves the cells' own state and every register outside FLT alone. -/
theorem State.faultAt_low {s : State} (h : regsWf s.regs = true) (src : Nat) {cls : Nat} (hc : 1 ≤ cls ∧ cls ≤ 3) (m : Master)
    (u i acc addr : Nat) :
    let t := s.faultAt src cls m u i acc addr
    regsWf t.regs = true ∧ t.cel = s.cel ∧ ∀ a, a < rFlt 0 ∨ rFlt 0x400 ≤ a → t.word a = s.word a := by
  have e : s.faultAt src cls m u i acc addr = s.collect ⟨src, cls, acc, m, u, i, addr, false || s.awl.inj⟩ := State.faultEv_low h hc
  have hcls : (⟨src, cls, acc, m, u, i, addr, false || s.awl.inj⟩ : FaultEv).cls ≤ 5 := by
    dsimp only
    omega
  rw [e]
  refine ⟨(State.collect_fltOnly h hcls).wf, ?_, fun a ha => State.collect_word h hcls ha⟩
  obtain ⟨_, _, _, _, _, e'⟩ := State.collect_rest h hcls
  rw [e']

theorem rCel_outside_flt {o : Nat} (h : o < 0x100000) : rCel o < rFlt 0 ∨ rFlt 0x400 ≤ rCel o := by
  left
  simp only [rCel, rFlt, blkBase, bCEL, bFLT]
  omega

/-- A cell is fenced: its physical cell is FENCED, its incarnation the next one, and its work gone. -/
def State.fence (s : State) (c p : Nat) : State := ((s.setPhysState (c / 16) p 2).raiseIncarn c).dropWork c

/-- A substitution waits, and the accesses to its cell are held. -/
def State.awaitSub (s : State) (x : CellSub) : State :=
  { s with cel.held := insertNat x.cell s.cel.held, cel.waiting := s.cel.waiting ++ [x] }

/-- A cell that fails: the fault is recorded, the cell fenced, and its substitution waits, in SUBST or, without AUTO, as ABSENT. -/
theorem State.failCell_eq {s : State} {c : Nat} (h : ¬(s.cellState c = csABSENT ∨ s.cellState c = csOFF ∨ s.cellState c = csSUBST))
    (trigger src : Nat) : ∃ (x : CellSub) (had : Bool), x.cell = c ∧ x.kind = 1 ∧ x.trigger = trigger ∧
      let u := ((s.faultAt src 3 (mCell c) c trigger 0 0).fence c (s.phys c)).awaitSub x
      (s.failCell c trigger src = (u.enter c csSUBST).showSubs ∨
        s.failCell c trigger src = (((if had then u.report c 5 else u).makeAbsent c).showSubs)) := by
  refine ⟨⟨c, 1, trigger, s.phys c, 0x1F, ((s.faultAt src 3 (mCell c) c trigger 0 0).fence c (s.phys c)).subTime, 0,
    if hadTask (s.cell c) (s.cellState c) then csRUNNING else s.cellState c, 0⟩, hadTask (s.cell c) (s.cellState c), rfl, rfl, rfl, ?_⟩
  have e : s.failCell c trigger src = _ := if_neg (show ¬_ by simpa [or_assoc] using h)
  rw [e]
  dsimp only
  cases s.bit (rCel 8) 0 || trigger == 0
  · exact .inr rfl
  · exact .inl rfl

theorem mem_insertNat {k x : Nat} {l : List Nat} : k ∈ insertNat x l ↔ k = x ∨ k ∈ l := by
  induction l with
  | nil => simp [insertNat]
  | cons y r ih =>
    rw [insertNat]
    split
    · simp
    · split
      case isTrue e => simp [e]
      case isFalse => simp [ih, or_left_comm]

/-- The registers that the failure of cell c, on physical cell p, may write beside those of the collector. -/
def failWords (c p : Nat) : List Nat :=
  [rPhys (c / 16) p, rCell c 0, rCell c 0x40, rCell c 0x44, rPanelSt (c / 16), rCelIrq, rCel 0x10]

/-- What the failure of a cell leaves: its accesses held, a substitution waiting, the next incarnation, no work, and every register but
those of the collector and of the cell's failure as it was. -/
structure CellFailed (c trigger : Nat) (s t : State) : Prop where
  wf : regsWf t.regs = true
  held : t.cel.held = insertNat c s.cel.held
  waits : ∃ x, t.cel.waiting = s.cel.waiting ++ [x] ∧ x.cell = c ∧ x.kind = 1 ∧ x.trigger = trigger
  incarn : t.fld (rCell c 0) 31 24 = (s.fld (rCell c 0) 31 24 + 1) % 256
  work : (t.cell c).groups = [] ∧ (t.cell c).tq = [] ∧ (t.cell c).mq = [] ∧ (t.cell c).lq = []
  word : ∀ a, a < rFlt 0 ∨ rFlt 0x400 ≤ a → a ∉ failWords c (s.phys c) → t.word a = s.word a

/-- The other cells stay in their states. -/
theorem CellFailed.cellState_other {c trigger : Nat} {s t : State} (h : CellFailed c trigger s t) {k : Nat} (hc : c < 256) (hk : k < 256)
    (hne : k ≠ c) : t.cellState k = s.cellState k := by
  refine State.fld_congr (h.word _ (rCel_outside_flt (by omega)) ?_) 3 0
  simp only [failWords, rCell_eq_rCel, rPhys_eq_rCel, rPanelSt_eq_rCel, rCelIrq_eq_rCel, List.mem_cons, List.not_mem_nil, or_false,
    rCel_inj]
  have hp : s.phys c < 32 := Nat.mod_lt _ (by omega)
  omega

/-- What the end of a failure keeps: the state of the substitutions, the cell but for its cycles, and its incarnation. -/
structure FailKept (c : Nat) (s t : State) : Prop where
  held : t.cel.held = s.cel.held
  waiting : t.cel.waiting = s.cel.waiting
  cell : ∃ e n, t.cell c = { s.cell c with elapsed := e, since := n }
  incarn : t.fld (rCell c 0) 31 24 = s.fld (rCell c 0) 31 24

theorem FailKept.enter {s : State} (h : regsWf s.regs = true) (c st : Nat) : FailKept c s (s.enter c st) :=
  ⟨by rw [State.cel_enter_cells], by rw [State.cel_enter_cells], s.cell_enter c st, State.fld_enter h c st (by omega) (by omega)⟩

theorem FailKept.makeAbsent {s : State} (h : regsWf s.regs = true) (c : Nat) : FailKept c s (s.makeAbsent c) := by
  have k := FailKept.enter h c csABSENT
  have he : regsWf (s.enter c csABSENT).regs = true :=
    ((CelOnly.refl (l := [rCell c 0, rCell c 0x40, rCell c 0x44]) h).enter csABSENT (by simp) (by simp) (by simp)).wf
  have ha := State.setFld_regsWf he (rCell c 0) 8 4 0x1F
  have marks : CelOnly [rPanelSt (c / 16), rCelIrq] _ (s.makeAbsent c) :=
    ((CelOnly.refl ha).setBit (a := rPanelSt (c / 16)) (16 + c % 16) true (by simp)).orWord (a := rCelIrq) 4 (by simp)
  refine ⟨k.held, k.waiting, k.cell, ?_⟩
  rw [marks.fld 31 24 (by simp only [rCell_eq_rCel, rPanelSt_eq_rCel, rCelIrq_eq_rCel, List.mem_cons, rCel_inj]; simp; omega),
    State.fld_setFld_apart he _ (by omega) (by omega) (by omega), k.incarn]

theorem FailKept.showSubs {s t : State} {c : Nat} (k : FailKept c s t) (h : regsWf t.regs = true) : FailKept c s t.showSubs := by
  have hs := State.showSubs_only h
  have hcel := hs.cel
  exact ⟨by rw [hcel, k.held], by rw [hcel, k.waiting], by rw [State.cell, hcel]; exact k.cell,
    (hs.fld 31 24 (by simp [rCell_eq_rCel, rCel_inj]; omega)).trans k.incarn⟩

theorem FailKept.trans {c : Nat} {s t u : State} (h : FailKept c s t) (k : FailKept c t u) : FailKept c s u := by
  obtain ⟨e, n, hc⟩ := h.cell
  obtain ⟨e', n', hc'⟩ := k.cell
  exact ⟨k.held.trans h.held, k.waiting.trans h.waiting, ⟨e', n', by rw [hc', hc]⟩, k.incarn.trans h.incarn⟩

/-- The fence of a cell, its held accesses and its waiting substitution. -/
theorem State.fence_awaitSub {s : State} (h : regsWf s.regs = true) {c p : Nat} (hp : p < 32) {x : CellSub} (hx : x.cell = c) :
    let u := (s.fence c p).awaitSub x
    CelOnly [rPhys (c / 16) p, rCell c 0] s u ∧ u.cel.held = insertNat c s.cel.held ∧ u.cel.waiting = s.cel.waiting ++ [x] ∧
      (u.cell c).groups = [] ∧ (u.cell c).tq = [] ∧ (u.cell c).mq = [] ∧ (u.cell c).lq = [] ∧
      u.fld (rCell c 0) 31 24 = (s.fld (rCell c 0) 31 24 + 1) % 256 := by
  have k1 : CelOnly [rPhys (c / 16) p, rCell c 0] s (s.setPhysState (c / 16) p 2) := (CelOnly.refl h).setPhysState 2 (by simp)
  have k2 := k1.raiseIncarn (c := c) (by simp)
  have k3 : CelOnly [rPhys (c / 16) p, rCell c 0] s ((s.fence c p).awaitSub x) := (k2.dropWork (by simp)).upd _
  have hcell : ((s.fence c p).awaitSub x).cell c =
      { s.cell c with groups := [], tq := [], mq := [], lq := [], async := [], drain := 0 } :=
    State.cell_modCell_same ((s.setPhysState (c / 16) p 2).raiseIncarn c) c fun x =>
      { x with groups := [], tq := [], mq := [], lq := [], async := [], drain := 0 }
  have incarn1 : (s.setPhysState (c / 16) p 2).fld (rCell c 0) 31 24 = s.fld (rCell c 0) 31 24 := by
    refine State.fld_setFld_other h _ _ _ _ _ ?_
    rw [rCell_eq_rCel, rPhys_eq_rCel, Ne, rCel_inj]
    omega
  have incarn2 : ((s.setPhysState (c / 16) p 2).raiseIncarn c).fld (rCell c 0) 31 24 = (s.fld (rCell c 0) 31 24 + 1) % 256 := by
    rw [State.raiseIncarn, State.fld_setFld_same k1.wf _ (by omega) (by omega), incarn1]
    rfl
  refine ⟨k3, ?_, rfl, by rw [hcell], by rw [hcell], by rw [hcell], by rw [hcell], ?_⟩
  · rw [← hx]
    rfl
  · exact (State.fld_setFld_apart k2.wf _ (by omega) (by omega) (by omega)).trans incarn2

/-- What the failure of a cell leaves (R170). -/
theorem State.failCell_failed {s : State} (h : regsWf s.regs = true) {c : Nat} (hc : c < 256)
    (hst : ¬(s.cellState c = csABSENT ∨ s.cellState c = csOFF ∨ s.cellState c = csSUBST)) (trigger src : Nat) :
    CellFailed c trigger s (s.failCell c trigger src) := by
  obtain ⟨x, had, hx, hkind, htrig, e⟩ := State.failCell_eq hst trigger src
  obtain ⟨hwf, hcel, hword⟩ := State.faultAt_low h src (cls := 3) (by omega) (mCell c) c trigger 0 0
  have hp : s.phys c < 32 := by
    have := Nat.mod_lt (s.word (rCell c 0) >>> 4) (show 0 < 2 ^ (8 + 1 - 4) by omega)
    exact this
  obtain ⟨ku, hheld, hwait, hgroups, htq, hmq, hlq, hincarn⟩ := State.fence_awaitSub hwf hp hx
  generalize hw : s.faultAt src 3 (mCell c) c trigger 0 0 = w at *
  generalize hu : (w.fence c (s.phys c)).awaitSub x = u at *
  have kv : CelOnly (failWords c (s.phys c)) w u := ku.mono (by simp [failWords])
  obtain ⟨kept, kt⟩ : FailKept c u (s.failCell c trigger src) ∧ CelOnly (failWords c (s.phys c)) w (s.failCell c trigger src) := by
    obtain e | e := e <;> rw [e]
    · have k := kv.enter (c := c) csSUBST (by simp [failWords]) (by simp [failWords]) (by simp [failWords])
      exact ⟨(FailKept.enter ku.wf c csSUBST).showSubs k.wf, k.showSubs (by simp [failWords])⟩
    · have kr : CelOnly (failWords c (s.phys c)) w (if had then u.report c 5 else u) := .ite (kv.report c 5) kv
      have k := kr.makeAbsent (c := c) (by simp [failWords]) (by simp [failWords]) (by simp [failWords]) (by simp [failWords])
        (by simp [failWords])
      have hr : FailKept c u (if had then u.report c 5 else u) := by
        split
        · exact ⟨rfl, rfl, ⟨_, _, rfl⟩, rfl⟩
        · exact ⟨rfl, rfl, ⟨_, _, rfl⟩, rfl⟩
      exact ⟨(hr.trans (FailKept.makeAbsent kr.wf c)).showSubs k.wf, k.showSubs (by simp [failWords])⟩
  obtain ⟨n, m, hcell⟩ := kept.cell
  have incarn : w.fld (rCell c 0) 31 24 = s.fld (rCell c 0) 31 24 :=
    State.fld_congr (hword _ (rCel_outside_flt (by omega))) 31 24
  refine ⟨kt.wf, by rw [kept.held, hheld, hcel], ⟨x, by rw [kept.waiting, hwait, hcel], hx, hkind, htrig⟩,
    by rw [kept.incarn, hincarn, incarn], ?_, fun a ha hn => (kt.word a hn).trans (hword a ha)⟩
  rw [hcell]
  exact ⟨hgroups, htq, hmq, hlq⟩

/-- A cell that is ABSENT, OFF or under substitution does not fail again. -/
theorem State.failCell_gone {s : State} {c : Nat} (h : s.cellState c = csABSENT ∨ s.cellState c = csOFF ∨ s.cellState c = csSUBST)
    (trigger src : Nat) : s.failCell c trigger src = s := by
  refine if_pos ?_
  simpa [or_assoc] using h

end Sys2Proof.Machine
end

section
/-! PROOF. Cell failures, planned and failure substitution, their completion, and maintenance tests (O19). -/

namespace Sys2Proof.Machine

variable {s : State} {c : Fin 256}

/-! Failures (R166, R170). -/

theorem exec_controlCheckerFail : exec (.controlCheckerFail c) s = .next (s.failCell c 1 0x11) := rfl

theorem exec_cellHang_stuck {g : Nat} {q : CGroup} {r : List (Nat × CGroup)} (hst : s.cellState c = csRUNNING)
    (hhang : s.fld (rCel 8) 31 24 ≠ 0) (hg : (s.cell c).groups = (g, q) :: r) (hrun : q.run = 1) (hstuck : q.stuck = true) :
    exec (.cellHang c) s = .next (s.failCell c 2 0x11) := by
  change execCellHang c s = _
  simp [execCellHang, hst, hhang, hg, hrun, hstuck]

theorem exec_cellHang_other (h : s.cellState c ≠ csRUNNING) : exec (.cellHang c) s = .next s := by
  change execCellHang c s = _
  simp [execCellHang, h]

/-! The spare that wakes (R170, R173). -/

theorem State.wakeSpare_none {x : CellSub} (h : s.fld (rPanelSt (x.cell / 16)) 4 0 ≥ 17) (wake : Bool) :
    s.wakeSpare x wake = (s.subFails x 1, none) := if_pos h

theorem State.wakeSpare_some {x : CellSub} (h : s.fld (rPanelSt (x.cell / 16)) 4 0 < 17) :
    s.wakeSpare x true = (s, some (s.fld (rPanelSt (x.cell / 16)) 4 0)) := by
  rw [State.wakeSpare]
  exact (if_neg (by omega)).trans (if_neg (by simp))

/-- A substitution copies in its panel. -/
def State.copies (s : State) (c : Nat) (x : CellSub) : State :=
  { s.dropWaiting c with cel.subs := fmPut s.cel.subs (c / 16) x }

/-! FAILURE_SUBSTITUTION (R170, R173). -/

section

variable {wake lost : Bool} {bad : List (BitVec 18)} {x : CellSub}

theorem exec_failureSubstitution_none (h : s.waitingSub c 1 = none) : exec (.failureSubstitution c wake lost bad) s = .next s := by
  change execFailureSubstitution c wake lost bad s = _
  simp only [execFailureSubstitution, h]

theorem exec_failureSubstitution_noSpare (h : s.waitingSub c 1 = some x) (hst : s.cellState c = csSUBST) (hx : x.cell = c.val)
    (hsp : s.fld (rPanelSt (c / 16)) 4 0 ≥ 17) : exec (.failureSubstitution c wake lost bad) s = .next (s.subFails x 1) := by
  change execFailureSubstitution c wake lost bad s = _
  rw [← hx] at hsp
  simp only [execFailureSubstitution, h, hst, ne_eq, not_true_eq_false, if_false, State.wakeSpare_none hsp]

theorem exec_failureSubstitution_clean (h : s.waitingSub c 1 = some x) (hst : s.cellState c = csSUBST) (hx : x.cell = c.val)
    (hsp : s.fld (rPanelSt (c / 16)) 4 0 < 17) :
    exec (.failureSubstitution c true false []) s =
      .next (s.copies c { x with newPhys := s.fld (rPanelSt (c / 16)) 4 0, poisoned := 0 }).showSubs := by
  change execFailureSubstitution c true false [] s = _
  rw [← hx] at hsp
  simp only [execFailureSubstitution, h, hst, ne_eq, not_true_eq_false, if_false, State.wakeSpare_some hsp]
  simp [State.copies, hx]

end

/-! PLANNED_SUBSTITUTION (R171). -/

theorem exec_plannedSubstitution_running {wake : Bool} {x : CellSub} (h : s.waitingSub c 2 = some x) (hst : s.cellState c = csRUNNING) :
    exec (.plannedSubstitution c wake) s = .next (s.stopTask c 5) := by
  change execPlannedSubstitution c wake s = _
  simp only [execPlannedSubstitution, h, hst, if_true]

theorem exec_plannedSubstitution_still {x : CellSub} (h : s.waitingSub c 2 = some x) (hx : x.cell = c.val)
    (hst : s.cellState c = csIDLE ∨ s.cellState c = csLOADED ∨ s.cellState c = csHALTED) (hsp : s.fld (rPanelSt (c / 16)) 4 0 < 17) :
    exec (.plannedSubstitution c true) s =
      .next (((({ s with cel.held := insertNat c.val s.cel.held } : State).copies c
        { x with was := s.cellState c, newPhys := s.fld (rPanelSt (c / 16)) 4 0, flags := x.flags + 32 }).enter c csSUBST).showSubs) := by
  change execPlannedSubstitution c true s = _
  have hsp' : s.fld (rPanelSt (({ x with was := s.cellState c } : CellSub).cell / 16)) 4 0 < 17 := by
    change s.fld (rPanelSt (x.cell / 16)) 4 0 < 17
    rw [hx]
    exact hsp
  have hrun : s.cellState c ≠ csRUNNING := by rcases hst with h | h | h <;> rw [h] <;> decide
  have hdrain : s.cellState c ≠ csDRAINING := by rcases hst with h | h | h <;> rw [h] <;> decide
  simp only [execPlannedSubstitution, h, hrun, hdrain, if_false, decide_false, Bool.false_and, Bool.false_eq_true,
    State.wakeSpare_some hsp']
  rw [if_pos (by simpa [or_assoc] using hst)]
  simp [State.copies, hx]

/-! Registers of physical cells and panels (R176). -/

theorem rPhys_inj {p i j : Nat} : rPhys p i = rPhys p j ↔ i = j := by
  rw [rPhys, rPhys, rCel_inj]
  omega

theorem State.physState_setPhysState_same (h : regsWf s.regs = true) (p i : Nat) {st : Nat} (hst : st < 8) :
    (s.setPhysState p i st).physState p i = st :=
  (State.fld_setFld_same h st (by omega) (by omega)).trans (Nat.mod_eq_of_lt hst)

theorem RegsOnly.showSpare {l : List Nat} {s t : State} (h : RegsOnly l s t) {p : Nat} (ha : rPanelSt p ∈ l) :
    RegsOnly l s (t.showSpare p) :=
  h.setFld _ _ _ ha

theorem RegsOnly.setPhysState {l : List Nat} {s t : State} (h : RegsOnly l s t) {p i : Nat} (st : Nat) (ha : rPhys p i ∈ l) :
    RegsOnly l s (t.setPhysState p i st) := h.setFld _ _ _ ha

/-! Records (R178). -/

theorem RegsOnly.setWords {l : List Nat} {s : State} (vs : List Nat) :
    ∀ {t : State} {a : Nat}, RegsOnly l s t → (∀ i, i < vs.length → a + 4 * i ∈ l) → RegsOnly l s (t.setWords a vs) := by
  induction vs with
  | nil => exact fun h _ => h
  | cons v r ih =>
    intro t a h ha
    refine ih (h.setWord v (by simpa using ha 0 (by simp))) fun i hi => ?_
    have := ha (i + 1) (by simpa using hi)
    rwa [show a + 4 + 4 * i = a + 4 * (i + 1) by omega]

/-- The registers that a substitution record writes: the ring of 16 records, its count and the newest, and the interrupt. -/
def recordWords : List Nat := (List.range 128).map (fun i => rCel (0x800 + 4 * i)) ++ [rCel 0x14, rCel 0x18, rCelIrq]

theorem rCel_not_mem_recordWords {o : Nat} (h : o < 0x800 ∨ 0xA00 ≤ o) (h0 : o ≠ 0) (h14 : o ≠ 0x14) (h18 : o ≠ 0x18) :
    rCel o ∉ recordWords := by
  simp only [recordWords, rCelIrq_eq_rCel, List.mem_append, List.mem_map, List.mem_range, List.mem_cons, List.not_mem_nil, or_false,
    rCel_inj, not_or, not_exists, not_and]
  exact ⟨fun i hi => by omega, h14, h18, h0⟩

/-- A record counts the substitutions and is shown as the newest. -/
theorem State.subRecord_effect (h : regsWf s.regs = true) (x : CellSub) (kind incarn : Nat) :
    let t := s.subRecord x kind incarn
    CelOnly recordWords s t ∧ t.cel = { s.cel with srecs := (s.cel.srecs + 1) % 2 ^ 32 } ∧
      t.word (rCel 0x14) = (s.word (rCel 0x14) + 1) % 2 ^ 32 := by
  unfold State.subRecord
  dsimp only
  generalize hr : (_ ++ leBytes 8 s.subTime : List Byte) = rcd
  have hlen : rcd.length = 32 := by
    rw [← hr]
    simp [leBytes_length]
  have hring : ∀ i, i < (wordsOf rcd).length → rCel (0x800 + s.cel.srecs % 16 * 32) + 4 * i ∈
      (List.range 128).map fun i => rCel (0x800 + 4 * i) := by
    intro i hi
    rw [wordsOf_length, hlen] at hi
    exact List.mem_map.mpr ⟨s.cel.srecs % 16 * 8 + i, List.mem_range.mpr (by omega), by simp only [rCel]; omega⟩
  have k1 : RegsOnly ((List.range 128).map fun i => rCel (0x800 + 4 * i)) s (s.setRegBytes (rCel (0x800 + s.cel.srecs % 16 * 32)) rcd) :=
    (RegsOnly.refl h).setWords _ hring
  generalize s.setRegBytes (rCel (0x800 + s.cel.srecs % 16 * 32)) rcd = u at k1 ⊢
  have hq : u.cel = s.cel := k1.cel
  have k2 : CelOnly recordWords s u := k1.celOnly.mono fun a ha => List.mem_append_left _ ha
  have k3 := (k2.setWord (a := rCel 0x18) s.cel.srecs (by simp [recordWords])).upd
    { u.cel with srecs := (s.cel.srecs + 1) % 2 ^ 32 }
  have counted : (u.setWord (rCel 0x18) s.cel.srecs).word (rCel 0x14) = s.word (rCel 0x14) := by
    rw [State.word_setWord_other k2.wf _ (by rw [Ne, rCel_inj]; omega)]
    exact k1.word _ fun hm => by
      obtain ⟨i, -, e⟩ := List.mem_map.mp hm
      rw [rCel_inj] at e
      omega
  refine ⟨(k3.bump (by simp [recordWords])).orWord _ (by simp [recordWords]), by rw [← hq]; rfl, ?_⟩
  have hirq : rCel 0x14 ≠ rCelIrq := by
    rw [rCelIrq_eq_rCel, Ne, rCel_inj]
    omega
  refine (State.word_orWord_other (State.bump_regsWf k3.wf _) _ hirq).trans ((State.word_bump_same k3.wf _).trans ?_)
  exact congrArg (fun n => (n + 1) % 2 ^ 32) counted

/-! SUBSTITUTION_COMPLETE (R171 to R173). -/

/-- The spare of a substitution serves the logical cell: it is ACTIVE under its number, and the old cell FENCED. -/
def State.serve (s : State) (c : Nat) (x : CellSub) : State :=
  (((((s.setPhysState (c / 16) x.oldPhys 2).setFld (rPhys (c / 16) x.newPhys) 7 4 (c % 16)).setPhysState (c / 16) x.newPhys 0).setFld
    (rCell c 0) 8 4 x.newPhys).setBit (rPanelSt (c / 16)) (16 + c % 16) false).showSpare (c / 16)

/-- The registers that giving a logical cell to a spare writes. -/
def serveWords (c : Nat) (x : CellSub) : List Nat :=
  [rPhys (c / 16) x.oldPhys, rPhys (c / 16) x.newPhys, rCell c 0, rPanelSt (c / 16)]

theorem State.serve_effect (h : regsWf s.regs = true) {c : Nat} {x : CellSub} (hold : x.oldPhys < 17)
    (hnew : x.newPhys < 17) (hne : x.oldPhys ≠ x.newPhys) :
    let t := s.serve c x
    RegsOnly (serveWords c x) s t ∧ t.phys c = x.newPhys ∧ t.physState (c / 16) x.oldPhys = 2 ∧
      t.physState (c / 16) x.newPhys = 0 ∧ t.fld (rPhys (c / 16) x.newPhys) 7 4 = c % 16 ∧ t.cellState c = s.cellState c := by
  have k1 := (RegsOnly.refl (l := serveWords c x) h).setPhysState (p := c / 16) (i := x.oldPhys) 2 (by simp [serveWords])
  have k2 := k1.setFld (a := rPhys (c / 16) x.newPhys) 7 4 (c % 16) (by simp [serveWords])
  have k3 := k2.setPhysState (p := c / 16) (i := x.newPhys) 0 (by simp [serveWords])
  have k4 := k3.setFld (a := rCell c 0) 8 4 x.newPhys (by simp [serveWords])
  have tail : RegsOnly [rPanelSt (c / 16)] _ (s.serve c x) :=
    ((RegsOnly.refl k4.wf).setBit _ _ (by simp)).showSpare (by simp)
  have hphysCell {i : Nat} (hi : i < 17) : rPhys (c / 16) i ≠ rCell c 0 := by
    rw [rPhys_eq_rCel, rCell_eq_rCel, Ne, rCel_inj]
    omega
  have hphysPanel {i : Nat} : rPhys (c / 16) i ∉ [rPanelSt (c / 16)] := by
    rw [List.mem_singleton, rPhys_eq_rCel, rPanelSt_eq_rCel, rCel_inj]
    omega
  have hcellPanel : rCell c 0 ∉ [rPanelSt (c / 16)] := by
    rw [List.mem_singleton, rCell_eq_rCel, rPanelSt_eq_rCel, rCel_inj]
    omega
  have holdNew : rPhys (c / 16) x.oldPhys ≠ rPhys (c / 16) x.newPhys := fun e => hne (rPhys_inj.mp e)
  refine ⟨(k4.setBit _ _ (by simp [serveWords])).showSpare (by simp [serveWords]), ?_, ?_, ?_, ?_, ?_⟩
  · rw [State.phys, tail.fld 8 4 hcellPanel, State.fld_setFld_same k3.wf _ (by omega) (by omega)]
    exact Nat.mod_eq_of_lt (by omega)
  · rw [State.physState, tail.fld 2 0 hphysPanel, State.fld_setFld_other k3.wf _ _ _ _ _ (hphysCell hold), State.setPhysState,
      State.fld_setFld_other k2.wf _ _ _ _ _ holdNew, State.fld_setFld_other k1.wf _ _ _ _ _ holdNew]
    exact State.physState_setPhysState_same h _ _ (by omega)
  · rw [State.physState, tail.fld 2 0 hphysPanel, State.fld_setFld_other k3.wf _ _ _ _ _ (hphysCell hnew)]
    exact State.physState_setPhysState_same k2.wf _ _ (by omega)
  · rw [tail.fld 7 4 hphysPanel, State.fld_setFld_other k3.wf _ _ _ _ _ (hphysCell hnew), State.setPhysState,
      State.fld_setFld_apart k2.wf _ (by omega) (by omega) (by omega), State.fld_setFld_same k1.wf _ (by omega) (by omega)]
    exact Nat.mod_eq_of_lt (by omega)
  · rw [State.cellState, tail.fld 3 0 hcellPanel, State.fld_setFld_apart k3.wf _ (by omega) (by omega) (by omega), State.setPhysState,
      State.fld_setFld_other k2.wf _ _ _ _ _ (hphysCell hnew).symm, State.fld_setFld_other k1.wf _ _ _ _ _ (hphysCell hnew).symm,
      State.setPhysState, State.fld_setFld_other h _ _ _ _ _ (hphysCell hold).symm, State.cellState]

/-- The one substitution of a panel is no longer running, and the accesses to its cell no longer held. -/
def State.subEnded (s : State) (c : Nat) : State :=
  { s with cel.subs := [], cel.held := s.cel.held.filter fun k => decide (k ≠ c) }

/-- The end of a failure substitution of a cell that was IDLE: the held requests follow. -/
theorem State.subDone_eq {c : Nat} {x : CellSub} (hs : s.cel.subs = [(c / 16, x)]) (hx : x.cell = c) (hkind : x.kind = 1)
    (hwas : x.was = csIDLE) :
    s.subDone c =
      let v := ((s.subEnded c).serve c x).enter c csIDLE
      let t := (v.subRecord x 1 (v.fld (rCell c 0) 31 24)).showSubs
      let u := t.modCell c fun k => { k with heldCtrl := 0 }
      let saved := if bitOf (t.cell c).heldCtrl 0 then u.saveReq c else u
      if bitOf (t.cell c).heldCtrl 1 then saved.restoreReq c else saved := by
  have hget : fmGet s.cel.subs (c / 16) = some x := by simp [hs, fmGet]
  have hdel : fmDel s.cel.subs (c / 16) = [] := by simp [hs, fmDel]
  have hidle : csIDLE ≠ csRUNNING := by decide
  unfold State.subDone
  rw [hget]
  simp only [hx, hkind, hwas, hdel, hidle, ne_eq, not_true_eq_false, if_false, OfNat.one_ne_ofNat]
  rfl

/-- The spare serves the cell, which enters IDLE. -/
theorem State.serve_idle (h : regsWf s.regs = true) {x : CellSub} (hold : x.oldPhys < 17) (hnew : x.newPhys < 17)
    (hne : x.oldPhys ≠ x.newPhys) (hst : s.cellState c = csSUBST) :
    let t := (s.serve c x).enter c csIDLE
    RegsOnly (serveWords c x) s t ∧ t.cellState c = csIDLE ∧ t.phys c = x.newPhys ∧ t.physState (c / 16) x.oldPhys = 2 ∧
      t.physState (c / 16) x.newPhys = 0 ∧ t.fld (rPhys (c / 16) x.newPhys) 7 4 = c.val % 16 := by
  obtain ⟨ks, hphys, hp2, hp0, hnum, hstate⟩ := State.serve_effect h (c := c) hold hnew hne
  have hv : (s.serve c x).enter c csIDLE = (s.serve c x).setFld (rCell c 0) 3 0 csIDLE :=
    State.enter_of_ne (by rw [hstate, hst]; decide) (by decide)
  have kept {i : Nat} (hi : i < 17) (a b : Nat) : ((s.serve c x).enter c csIDLE).fld (rPhys (c / 16) i) a b =
      (s.serve c x).fld (rPhys (c / 16) i) a b := by
    rw [hv]
    refine State.fld_setFld_other ks.wf _ _ _ _ _ ?_
    rw [rPhys_eq_rCel, rCell_eq_rCel, Ne, rCel_inj]
    omega
  refine ⟨?_, State.cellState_enter ks.wf c (by decide), (State.fld_enter ks.wf c _ (by omega) (by omega)).trans hphys,
    (kept hold 2 0).trans hp2, (kept hnew 2 0).trans hp0, (kept hnew 7 4).trans hnum⟩
  rw [hv]
  exact ks.setFld _ _ _ (by simp [serveWords])

/-- The record of a substitution, and the status that follows, leave every register of cells, panels and physical cells alone. -/
theorem State.subRecord_showSubs (h : regsWf s.regs = true) (x : CellSub) (kind incarn : Nat) :
    let t := (s.subRecord x kind incarn).showSubs
    t.cel = { s.cel with srecs := (s.cel.srecs + 1) % 2 ^ 32 } ∧ t.mem = s.mem ∧
      t.word (rCel 0x14) = (s.word (rCel 0x14) + 1) % 2 ^ 32 ∧
      ∀ {o : Nat} (hi lo : Nat), 0x100 ≤ o ∧ o < 0x800 ∨ 0xA00 ≤ o → t.fld (rCel o) hi lo = s.fld (rCel o) hi lo := by
  obtain ⟨kr, hcel, hcount⟩ := State.subRecord_effect h x kind incarn
  have kt := State.showSubs_only kr.wf
  refine ⟨kt.cel.trans hcel, kt.mem.trans kr.mem, (kt.word _ ?_).trans hcount, fun hi lo ho => ?_⟩
  · rw [List.mem_singleton, rCel_inj]
    omega
  · rw [kt.fld hi lo (by rw [List.mem_singleton, rCel_inj]; omega)]
    exact kr.fld hi lo (rCel_not_mem_recordWords (by omega) (by omega) (by omega) (by omega))

theorem exec_substitutionComplete : exec (.substitutionComplete c) s = .next (s.subDone c) := rfl

theorem exec_substitutionComplete_none (h : fmGet s.cel.subs (c / 16) = none) : exec (.substitutionComplete c) s = .next s := by
  rw [exec_substitutionComplete]
  simp only [State.subDone, h]

/-- What the end of a substitution leaves: the cell in IDLE on its spare, the old physical cell FENCED, and a record. -/
theorem runs_substitutionComplete {x : CellSub} (h : regsWf s.regs = true) (hs : s.cel.subs = [(c.val / 16, x)])
    (hx : x.cell = c.val) (hold : x.oldPhys < 17) (hnew : x.newPhys < 17) (hne : x.oldPhys ≠ x.newPhys) (hwas : x.was = csIDLE)
    (hctrl : (s.cell c).heldCtrl = 0) (hkind : x.kind = 1) (hst : s.cellState c = csSUBST) :
    Runs (.substitutionComplete c) s fun t =>
      t.cellState c = csIDLE ∧ t.phys c = x.newPhys ∧ t.physState (c / 16) x.oldPhys = 2 ∧ t.physState (c / 16) x.newPhys = 0 ∧
      t.fld (rPhys (c / 16) x.newPhys) 7 4 = c.val % 16 ∧ t.cel.subs = [] ∧ t.cel.held.contains c.val = false ∧
      t.cel.srecs = (s.cel.srecs + 1) % 2 ^ 32 ∧ t.word (rCel 0x14) = (s.word (rCel 0x14) + 1) % 2 ^ 32 ∧ t.mem = s.mem := by
  obtain ⟨kv, hidle, hphys, hp2, hp0, hnum⟩ := State.serve_idle (s := s.subEnded c) (c := c) h hold hnew hne hst
  have hdone := State.subDone_eq hs hx hkind hwas
  dsimp only at hdone
  generalize ((s.subEnded c).serve c x).enter c csIDLE = v at *
  obtain ⟨hcel, hmem, hcount, hkept⟩ := State.subRecord_showSubs kv.wf x 1 (v.fld (rCell c 0) 31 24)
  generalize (v.subRecord x 1 (v.fld (rCell c 0) 31 24)).showSubs = u at *
  have hcelV : v.cel = (s.subEnded c).cel := kv.cel
  have hctrlU : (u.cell c).heldCtrl = 0 := by
    rw [State.cell, hcel, hcelV]
    exact hctrl
  have hcountV : v.word (rCel 0x14) = s.word (rCel 0x14) := by
    refine kv.word _ ?_
    simp only [serveWords, rPhys_eq_rCel, rCell_eq_rCel, rPanelSt_eq_rCel, List.mem_cons, List.not_mem_nil, or_false, rCel_inj]
    omega
  refine .of_exec (t := u.modCell c fun k => { k with heldCtrl := 0 }) (exec_substitutionComplete.trans (congrArg _ ?_))
    ⟨(hkept 3 0 (by omega)).trans hidle, (hkept 8 4 (by omega)).trans hphys, (hkept 2 0 (by omega)).trans hp2,
      (hkept 2 0 (by omega)).trans hp0, (hkept 7 4 (by omega)).trans hnum, ?_, ?_, ?_, hcount.trans (by rw [hcountV]), hmem.trans kv.mem⟩
  · rw [hdone, hctrlU]
    rfl
  · change u.cel.subs = []
    rw [hcel, hcelV]
    rfl
  · change u.cel.held.contains c.val = false
    rw [hcel, hcelV]
    simp [State.subEnded]
  · change u.cel.srecs = _
    rw [hcel, hcelV]
    rfl

/-- A cell whose control checker fails is failed at once (R170). -/
theorem runs_controlCheckerFail (h : regsWf s.regs = true) (hst : s.cellState c = csIDLE) :
    Runs (.controlCheckerFail c) s fun t =>
      t.cel.held.contains c.val = true ∧ (t.cel.waiting.getLast?.map fun x => (x.cell, x.kind, x.trigger)) = some (c.val, 1, 1) ∧
      t.fld (rCell c 0) 31 24 = (s.fld (rCell c 0) 31 24 + 1) % 256 ∧
      (t.cell c).groups = [] ∧ (t.cell c).tq = [] ∧ (t.cell c).mq = [] ∧ (t.cell c).lq = [] := by
  have failed : CellFailed c 1 s (s.failCell c 1 0x11) :=
    State.failCell_failed h c.isLt (by rw [hst]; decide) 1 0x11
  obtain ⟨x, hwait, hx, hkind, htrig⟩ := failed.waits
  refine .of_exec exec_controlCheckerFail ⟨?_, ?_, failed.incarn, failed.work⟩
  · rw [failed.held, List.contains_iff_mem, mem_insertNat]
    exact .inl rfl
  · rw [hwait, List.getLast?_concat, Option.map_some, hx, hkind, htrig]

/-- A waiting failure substitution with a spare that wakes, no word lost, runs in the cell's panel (R173). -/
theorem runs_failureSubstitution {x : CellSub} (h : regsWf s.regs = true) (hw : s.waitingSub c 1 = some x) (hst : s.cellState c = csSUBST)
    (hx : x.cell = c.val) (hsp : s.fld (rPanelSt (c / 16)) 4 0 < 17) (hsubs : s.cel.subs = []) :
    Runs (.failureSubstitution c true false []) s fun t =>
      t.cel.subs = [(c.val / 16, { x with newPhys := s.fld (rPanelSt (c / 16)) 4 0, poisoned := 0 })] ∧
      t.waitingSub c 1 = none ∧ t.cellState c = csSUBST ∧ t.bit (rCel 0x10) 0 = true ∧ t.fld (rCel 0x10) 15 8 = c.val ∧
      t.mem = s.mem ∧ RegsBut [rCel 0x10] s t := by
  have hcopies : (s.copies c { x with newPhys := s.fld (rPanelSt (c / 16)) 4 0, poisoned := 0 }).cel.subs =
      [(c.val / 16, { x with newPhys := s.fld (rPanelSt (c / 16)) 4 0, poisoned := 0 })] := by
    simp [State.copies, hsubs, fmPut]
  have hwf : regsWf (s.copies c { x with newPhys := s.fld (rPanelSt (c / 16)) 4 0, poisoned := 0 }).regs = true := h
  obtain ⟨hshown, hcell⟩ := State.showSubs_one hwf hcopies (show x.cell < 256 by rw [hx]; exact c.isLt)
  have k := State.showSubs_only hwf
  refine .of_exec (exec_failureSubstitution_clean hw hst hx hsp) ⟨by rw [k.cel, hcopies], ?_, ?_, hshown, hcell.trans hx, k.mem, k.word⟩
  · rw [State.waitingSub, k.cel, hcopies]
    simp
  · exact (k.celOnly.cellState (by rw [List.mem_singleton, rCell_eq_rCel, rCel_inj]; omega)).trans hst

/-- A planned substitution of a cell that runs no task takes the panel's spare and holds the accesses to the cell (R171). -/
theorem runs_plannedSubstitution {x : CellSub} (h : regsWf s.regs = true) (hw : s.waitingSub c 2 = some x) (hx : x.cell = c.val)
    (hst : s.cellState c = csIDLE ∨ s.cellState c = csLOADED ∨ s.cellState c = csHALTED) (hsp : s.fld (rPanelSt (c / 16)) 4 0 < 17) :
    Runs (.plannedSubstitution c true) s fun t =>
      t.cellState c = csSUBST ∧ t.cel.held.contains c.val = true ∧
      fmGet t.cel.subs (c / 16) = some { x with was := s.cellState c, newPhys := s.fld (rPanelSt (c / 16)) 4 0, flags := x.flags + 32 } ∧
      t.mem = s.mem ∧ RegsBut [rCell c 0, rCel 0x10] s t := by
  have hrun : s.cellState c ≠ csRUNNING := by rcases hst with h | h | h <;> rw [h] <;> decide
  refine .of_exec (exec_plannedSubstitution_still hw hx hst hsp) ?_
  generalize hu : ({ s with cel.held := insertNat c.val s.cel.held } : State).copies c
    { x with was := s.cellState c, newPhys := s.fld (rPanelSt (c / 16)) 4 0, flags := x.flags + 32 } = u
  have ku : CelOnly [rCell c 0, rCel 0x10] s u := by
    rw [← hu]
    exact (CelOnly.refl h).upd _
  have kv : CelOnly [rCell c 0, rCel 0x10] s (u.enter c csSUBST) := by
    have hne : u.cellState c ≠ csRUNNING := by
      rw [← hu]
      exact hrun
    rw [State.enter_of_ne hne (by decide)]
    exact ku.setFld _ _ _ (by simp)
  have k := State.showSubs_only kv.wf
  have hstate := (k.celOnly.cellState (c := c) (by rw [List.mem_singleton, rCell_eq_rCel, rCel_inj]; omega)).trans
    (State.cellState_enter ku.wf c (st := csSUBST) (by decide))
  refine ⟨hstate, ?_, ?_, (kv.showSubs (by simp)).mem, (kv.showSubs (by simp)).word⟩
  · rw [k.cel, State.cel_enter_cells, ← hu, List.contains_iff_mem]
    exact mem_insertNat.mpr (.inl rfl)
  · rw [k.cel, State.cel_enter_cells, ← hu]
    exact fmGet_fmPut_same _ _ _

/-! CEL_SUB_REQ (R173, R174) and CEL_MAINT (R175). -/

section

variable {m : Master}

theorem exec_subReq_writer {force : Bool} (h : s.sysWriter m = true) :
    exec (.subReq m c force) s = .next ((s.subReq c force).respOk []) := by
  change execSubReq m c force s = _
  simp only [execSubReq, h, if_true]

theorem exec_subReq_other {force : Bool} (h : s.sysWriter m = false) : exec (.subReq m c force) s = .next (s.refuse m 2 (rCel 0xC)) := by
  change execSubReq m c force s = _
  simp [execSubReq, h]

theorem State.subReq_idle {force : Bool} (hst : s.cellState c = csIDLE) :
    s.subReq c force = if force then s.failCell c 0 0x12 else s.planSub c 0 1 := by
  have habs : csIDLE ≠ csABSENT := by decide
  have hoff : csIDLE ≠ csOFF := by decide
  simp [State.subReq, hst, habs, hoff]

theorem State.subReq_off {force : Bool} (hst : s.cellState c = csOFF) : s.subReq c force = s.cellErr c 1 := by
  have habs : csOFF ≠ csABSENT := by decide
  simp [State.subReq, hst, habs]

theorem exec_maintStart_writer {p : Fin 16} {i : Fin 32} (h : s.sysWriter m = true) :
    exec (.maintStart m p i) s = .next ((s.maintStart p i).respOk []) := by
  change execMaintStart m p i s = _
  simp only [execMaintStart, h, if_true]

theorem exec_maintStart_other {p : Fin 16} {i : Fin 32} (h : s.sysWriter m = false) :
    exec (.maintStart m p i) s = .next (s.refuse m 2 (rCel 0x1C)) := by
  change execMaintStart m p i s = _
  simp [execMaintStart, h]

end

/-- A request of maintenance shows the panel and the physical cell asked for. -/
def State.askMaint (s : State) (p i : Nat) : State := (s.setFld (rCel 0x20) 12 8 i).setFld (rCel 0x20) 7 4 p

theorem State.askMaint_effect (h : regsWf s.regs = true) {p i : Nat} (hp : p < 16) (hi : i < 32) :
    let t := s.askMaint p i
    RegsOnly [rCel 0x20] s t ∧ t.fld (rCel 0x20) 7 4 = p ∧ t.fld (rCel 0x20) 12 8 = i ∧ ∀ j, t.physState p j = s.physState p j := by
  have k := (RegsOnly.refl (l := [rCel 0x20]) h).setFld (a := rCel 0x20) 12 8 i (by simp)
  have k' : RegsOnly [rCel 0x20] s (s.askMaint p i) := k.setFld (a := rCel 0x20) 7 4 p (by simp)
  refine ⟨k', (State.fld_setFld_same k.wf _ (by omega) (by omega)).trans (Nat.mod_eq_of_lt hp), ?_, fun j => k'.fld 2 0 ?_⟩
  · rw [State.askMaint, State.fld_setFld_apart k.wf _ (by omega) (by omega) (by omega), State.fld_setFld_same h _ (by omega) (by omega)]
    exact Nat.mod_eq_of_lt hi
  · rw [List.mem_singleton, rPhys_eq_rCel, rCel_inj]
    omega

theorem State.maintStart_free (hb : s.bit (rCel 0x20) 0 = false) (p i : Nat) :
    s.maintStart p i =
      if i < 17 && (s.askMaint p i).physState p i = 2 then ((s.askMaint p i).setFld (rCel 0x20) 2 0 1).setPhysState p i 3
      else (s.askMaint p i).setFld (rCel 0x20) 2 0 4 := by
  unfold State.maintStart
  dsimp only
  rw [hb]
  rfl

theorem rPhys_ne_maint {p i : Nat} : rPhys p i ≠ rCel 0x20 := by
  rw [rPhys_eq_rCel, Ne, rCel_inj]
  omega

/-- Maintenance of a FENCED cell starts its test. -/
theorem runs_maintStart_tests {m : Master} {p : Fin 16} {i : Fin 32} (h : regsWf s.regs = true) (hm : s.sysWriter m = true)
    (hb : s.bit (rCel 0x20) 0 = false) (hi : i.val < 17) (hst : s.physState p i = 2) :
    Runs (.maintStart m p i) s fun t =>
      t.fld (rCel 0x20) 2 0 = 1 ∧ t.fld (rCel 0x20) 7 4 = p.val ∧ t.fld (rCel 0x20) 12 8 = i.val ∧ t.physState p i = 3 ∧
      t.mem = s.mem ∧ RegsBut [rCel 0x20, rPhys p i] s t := by
  obtain ⟨k, hpanel, hphys, hkept⟩ := State.askMaint_effect h p.isLt i.isLt
  have e : s.maintStart p i = ((s.askMaint p i).setFld (rCel 0x20) 2 0 1).setPhysState p i 3 := by
    rw [State.maintStart_free hb]
    refine if_pos ?_
    simp [hi, (hkept i).trans hst]
  have k' := k.setFld (a := rCel 0x20) 2 0 1 (by simp)
  have hfld (a b : Nat) : (s.maintStart p i).fld (rCel 0x20) a b = ((s.askMaint p i).setFld (rCel 0x20) 2 0 1).fld (rCel 0x20) a b := by
    rw [e]
    exact State.fld_setFld_other k'.wf _ _ _ _ _ rPhys_ne_maint.symm
  refine .of_exec (exec_maintStart_writer hm) ⟨?_, ?_, ?_, ?_, ?_, ?_⟩
  · exact (hfld 2 0).trans (State.fld_setFld_same k.wf _ (by omega) (by omega))
  · exact (hfld 7 4).trans ((State.fld_setFld_apart k.wf _ (by omega) (by omega) (by omega)).trans hpanel)
  · exact (hfld 12 8).trans ((State.fld_setFld_apart k.wf _ (by omega) (by omega) (by omega)).trans hphys)
  · rw [e]
    exact State.physState_setPhysState_same k'.wf _ _ (by omega)
  · rw [e]
    exact k'.mem
  · rw [e]
    exact (k'.celOnly.mono (l' := [rCel 0x20, rPhys p i]) (by simp)).setPhysState 3 (by simp) |>.word

/-- Maintenance of another cell records an error. -/
theorem runs_maintStart_errors {m : Master} {p : Fin 16} {i : Fin 32} (h : regsWf s.regs = true) (hm : s.sysWriter m = true)
    (hb : s.bit (rCel 0x20) 0 = false) (hno : ¬(i.val < 17 ∧ s.physState p i = 2)) :
    Runs (.maintStart m p i) s fun t => t.fld (rCel 0x20) 2 0 = 4 ∧ t.mem = s.mem ∧ RegsBut [rCel 0x20] s t := by
  obtain ⟨k, -, -, hkept⟩ := State.askMaint_effect h p.isLt i.isLt
  have e : s.maintStart p i = (s.askMaint p i).setFld (rCel 0x20) 2 0 4 := by
    rw [State.maintStart_free hb, hkept]
    refine if_neg ?_
    simpa using hno
  have k' := k.setFld (a := rCel 0x20) 2 0 4 (by simp)
  refine .of_exec (exec_maintStart_writer hm) ?_
  rw [e]
  exact ⟨State.fld_setFld_same k.wf _ (by omega) (by omega), k'.mem, k'.word⟩

/-- A request while a test runs is shown as refused. -/
theorem runs_maintStart_busy {m : Master} {p : Fin 16} {i : Fin 32} (h : regsWf s.regs = true) (hm : s.sysWriter m = true)
    (hb : s.bit (rCel 0x20) 0 = true) :
    Runs (.maintStart m p i) s fun t => t.bit (rCel 0x20) 2 = true ∧ t.mem = s.mem ∧ RegsBut [rCel 0x20] s t := by
  have e : s.maintStart p i = s.setBit (rCel 0x20) 2 true := if_pos hb
  have k := (RegsOnly.refl (l := [rCel 0x20]) h).setBit (a := rCel 0x20) 2 true (by simp)
  refine .of_exec (exec_maintStart_writer hm) ?_
  rw [e]
  exact ⟨State.bit_setBit_same h true (by omega), k.mem, k.word⟩

theorem exec_maintDone {pass : Bool} : exec (.maintDone pass) s = .next (s.maintDone pass) := rfl

theorem exec_maintDone_idle {pass : Bool} (hb : s.bit (rCel 0x20) 0 = false) : exec (.maintDone pass) s = .next s := by
  rw [exec_maintDone]
  simp [State.maintDone, hb]

/-- The end of a test is shown, with its interrupt. -/
def State.endMaint (s : State) (result : Nat) : State := (s.setFld (rCel 0x20) 2 0 result).orWord rCelIrq 0x10

theorem State.endMaint_effect (h : regsWf s.regs = true) {result : Nat} (hr : result < 8) :
    let t := s.endMaint result
    RegsOnly [rCel 0x20, rCelIrq] s t ∧ t.fld (rCel 0x20) 2 0 = result ∧ t.bit rCelIrq 4 = true := by
  have k := (RegsOnly.refl (l := [rCel 0x20, rCelIrq]) h).setFld (a := rCel 0x20) 2 0 result (by simp)
  have hne : rCel 0x20 ≠ rCelIrq := by
    rw [rCelIrq_eq_rCel, Ne, rCel_inj]
    omega
  refine ⟨k.orWord 0x10 (by simp), ?_, ?_⟩
  · exact (State.fld_congr (State.word_orWord_other k.wf _ hne) 2 0).trans
      ((State.fld_setFld_same h _ (by omega) (by omega)).trans (Nat.mod_eq_of_lt hr))
  · refine (State.bit_orWord_same k.wf _ 0x10 (by omega)).trans ?_
    rw [show bitOf 0x10 4 = true by decide, Bool.or_true]

theorem rPhys_ne_rCelIrq {p i : Nat} : rPhys p i ≠ rCelIrq := by
  rw [rPhys_eq_rCel, rCelIrq_eq_rCel, Ne, rCel_inj]
  omega

/-- A failed test marks the cell BAD. -/
theorem runs_maintDone_fail (h : regsWf s.regs = true) (hb : s.bit (rCel 0x20) 0 = true) :
    Runs (.maintDone false) s fun t =>
      t.fld (rCel 0x20) 2 0 = 4 ∧ t.bit rCelIrq 4 = true ∧ t.physState (s.fld (rCel 0x20) 7 4) (s.fld (rCel 0x20) 12 8) = 4 ∧
      t.mem = s.mem ∧ RegsBut [rCel 0x20, rCelIrq, rPhys (s.fld (rCel 0x20) 7 4) (s.fld (rCel 0x20) 12 8)] s t := by
  generalize hp : s.fld (rCel 0x20) 7 4 = p
  generalize hi : s.fld (rCel 0x20) 12 8 = i
  have e : s.maintDone false = (s.endMaint 4).setPhysState p i 4 := by
    unfold State.maintDone
    dsimp only
    rw [hb, hp, hi]
    rfl
  obtain ⟨k, hres, hirq⟩ := State.endMaint_effect h (result := 4) (by omega)
  refine .of_exec (t := (s.endMaint 4).setPhysState p i 4) (exec_maintDone.trans (congrArg _ e)) ⟨?_, ?_, ?_, k.mem, ?_⟩
  · exact (State.fld_setFld_other k.wf _ _ _ _ _ rPhys_ne_maint.symm).trans hres
  · exact (((RegsOnly.refl k.wf).setPhysState 4 (List.mem_singleton_self _)).bit 4
      (mt List.mem_singleton.mp rPhys_ne_rCelIrq.symm)).trans hirq
  · exact State.physState_setPhysState_same k.wf _ _ (by omega)
  · exact (k.celOnly.mono (l' := [rCel 0x20, rCelIrq, rPhys p i]) (by simp)).setPhysState 4 (by simp) |>.word

/-- A test that passes makes a spare where no logical cell of the panel is ABSENT. -/
theorem runs_maintDone_pass (h : regsWf s.regs = true) (hb : s.bit (rCel 0x20) 0 = true)
    (habs : ((List.range 16).all fun j => decide (s.cellState (s.fld (rCel 0x20) 7 4 * 16 + j) ≠ csABSENT)) = true) :
    Runs (.maintDone true) s fun t =>
      t.fld (rCel 0x20) 2 0 = 2 ∧ t.bit rCelIrq 4 = true ∧ t.physState (s.fld (rCel 0x20) 7 4) (s.fld (rCel 0x20) 12 8) = 1 ∧
      t.mem = s.mem := by
  generalize hp : s.fld (rCel 0x20) 7 4 = p at *
  generalize hphys : s.fld (rCel 0x20) 12 8 = i at *
  obtain ⟨k, hres, hirq⟩ := State.endMaint_effect h (result := 2) (by omega)
  have hnone : ((List.range 16).find? fun j => decide ((s.endMaint 2).cellState (p * 16 + j) = csABSENT)) = none := by
    rw [List.find?_eq_none]
    intro j hj
    have hkept : (s.endMaint 2).cellState (p * 16 + j) = s.cellState (p * 16 + j) := by
      refine k.fld 3 0 ?_
      simp only [rCell_eq_rCel, rCelIrq_eq_rCel, List.mem_cons, List.not_mem_nil, or_false, rCel_inj]
      omega
    have := List.all_eq_true.mp habs j hj
    simpa [hkept] using this
  have e : s.maintDone true = ((s.endMaint 2).setPhysState p i 1).showSpare p := by
    change (if !s.bit (rCel 0x20) 0 then s
      else match (List.range 16).find? fun j => decide ((s.endMaint 2).cellState (s.fld (rCel 0x20) 7 4 * 16 + j) = csABSENT) with
        | none => ((s.endMaint 2).setPhysState (s.fld (rCel 0x20) 7 4) (s.fld (rCel 0x20) 12 8) 1).showSpare (s.fld (rCel 0x20) 7 4)
        | some _ => _) = _
    rw [hb, hp, hphys, hnone]
    rfl
  have kp : RegsOnly [rPhys p i] (s.endMaint 2) ((s.endMaint 2).setPhysState p i 1) :=
    (RegsOnly.refl k.wf).setPhysState 1 (by simp)
  have kt : RegsOnly [rPanelSt p] _ (((s.endMaint 2).setPhysState p i 1).showSpare p) := (RegsOnly.refl kp.wf).showSpare (by simp)
  refine .of_exec (exec_maintDone.trans (congrArg _ e)) ⟨?_, ?_, ?_, kt.mem.trans (kp.mem.trans k.mem)⟩
  · rw [kt.fld 2 0 (by rw [List.mem_singleton, rPanelSt_eq_rCel, rCel_inj]; omega),
      kp.fld 2 0 (mt List.mem_singleton.mp rPhys_ne_maint.symm), hres]
  · rw [kt.bit 4 (by rw [List.mem_singleton, rPanelSt_eq_rCel, rCelIrq_eq_rCel, rCel_inj]; omega),
      kp.bit 4 (mt List.mem_singleton.mp rPhys_ne_rCelIrq.symm), hirq]
  · rw [State.physState, kt.fld 2 0 (by rw [List.mem_singleton, rPhys_eq_rCel, rPanelSt_eq_rCel, rCel_inj]; omega)]
    exact State.physState_setPhysState_same k.wf _ _ (by omega)

end Sys2Proof.Machine

open Sys2Proof Sys2Proof.Machine

/-- Settles O19: a cell fails or stays as it is, a waiting substitution fails or copies, its end gives the spare the cell, and the two
request registers and the end of a test do what the state of the cell named allows. -/
theorem failedCellsAreSubstitutedAndMaintained : Obligations.FailedCellsAreSubstitutedAndMaintained := by
  unfold Obligations.FailedCellsAreSubstitutedAndMaintained
  refine ⟨?hang, ?gone, ?fails, ?noneWaits, ?noSpare, ?copies, ?stopsTask, ?planned, ?noneCopies, ?completes, ?request, ?requestOff,
    ?refused, ?tests, ?errors, ?busy, ?idle, ?testFails, ?testPasses⟩
  case hang => exact fun s c g q r hst hhang hg hrun hstuck => exec_cellHang_stuck hst hhang hg hrun hstuck
  case gone =>
    intro s c hst
    refine ⟨exec_controlCheckerFail.trans (congrArg _ (State.failCell_gone hst 1 0x11)), exec_cellHang_other ?_⟩
    rcases hst with h | h | h <;> rw [h] <;> decide
  case fails => exact fun s c hcan hst => runs_controlCheckerFail (State.canonical_iff.mp hcan).2 hst
  case noneWaits => exact fun s c wake lost bad h => exec_failureSubstitution_none h
  case noSpare => exact fun s c wake lost bad x h hst hx hsp => exec_failureSubstitution_noSpare h hst hx hsp
  case copies =>
    exact fun s c x hcan h hst hx hsp _ hsubs => runs_failureSubstitution (State.canonical_iff.mp hcan).2 h hst hx hsp hsubs
  case stopsTask => exact fun s c wake x h hst => exec_plannedSubstitution_running h hst
  case planned => exact fun s c x hcan h hx hst hsp => runs_plannedSubstitution (State.canonical_iff.mp hcan).2 h hx hst hsp
  case noneCopies => exact fun s c h => exec_substitutionComplete_none h
  case completes =>
    intro s c x hcan hs hx hold hnew hne hwas hctrl hkind hst
    exact runs_substitutionComplete (State.canonical_iff.mp hcan).2 hs hx hold hnew hne hwas hctrl hkind hst
  case request =>
    intro s m c force hm hst
    rw [exec_subReq_writer hm, State.subReq_idle hst]
  case requestOff =>
    intro s m c force hcan hm hst
    obtain ⟨-, h⟩ := State.canonical_iff.mp hcan
    have k : RegsOnly [rCell c 0x18, rCelIrq] s (s.cellErr c 1) :=
      ((RegsOnly.refl h).setBit _ _ (by simp)).orWord _ (by simp)
    refine .of_exec (exec_subReq_writer hm) ?_
    rw [State.subReq_off hst]
    exact ⟨State.bit_cellErr h c (by omega), k.cel, k.mem, k.word⟩
  case refused => exact fun s m c force p i hm => ⟨exec_subReq_other hm, exec_maintStart_other hm⟩
  case tests => exact fun s m p i hcan hm hb hi hst => runs_maintStart_tests (State.canonical_iff.mp hcan).2 hm hb hi hst
  case errors => exact fun s m p i hcan hm hb hno => runs_maintStart_errors (State.canonical_iff.mp hcan).2 hm hb hno
  case busy => exact fun s m p i hcan hm hb => runs_maintStart_busy (State.canonical_iff.mp hcan).2 hm hb
  case idle => exact fun s pass hb => exec_maintDone_idle hb
  case testFails => exact fun s hcan hb _ => runs_maintDone_fail (State.canonical_iff.mp hcan).2 hb
  case testPasses => exact fun s hcan hb _ habs => runs_maintDone_pass (State.canonical_iff.mp hcan).2 hb habs

end

section
/-! PROOF. A fault of any class (R492 to R505): what the collector and the engagement of the heel (R354) leave alone, and the class
states after it. -/

namespace Sys2Proof.Machine

/-- Only register words of P differ, and the register file is in canonical form. -/
structure WordsIn (P : Nat → Prop) (s t : State) : Prop where
  wf : regsWf t.regs = true
  word : ∀ a, ¬P a → t.word a = s.word a

namespace WordsIn

variable {P : Nat → Prop} {s t : State}

theorem refl (h : regsWf s.regs = true) : WordsIn P s s := ⟨h, fun _ _ => rfl⟩

theorem trans {u : State} (h : WordsIn P s t) (k : WordsIn P t u) : WordsIn P s u := ⟨k.wf, fun a ha => (k.word a ha).trans (h.word a ha)⟩

/-- A state with the same registers. -/
theorem upd {u : State} (h : WordsIn P s t) (e : u.regs = t.regs) : WordsIn P s u :=
  ⟨by rw [e]; exact h.wf, fun a ha => (State.word_congr e a).trans (h.word a ha)⟩

theorem setWord (h : WordsIn P s t) {a : Nat} (v : Nat) (ha : P a) : WordsIn P s (t.setWord a v) :=
  ⟨State.setWord_regsWf h.wf a v, fun b hb => (State.word_setWord_other h.wf v fun e => hb (by rwa [e])).trans (h.word b hb)⟩

theorem setFld (h : WordsIn P s t) {a : Nat} (hi lo v : Nat) (ha : P a) : WordsIn P s (t.setFld a hi lo v) := h.setWord _ ha

theorem setBit (h : WordsIn P s t) {a : Nat} (n : Nat) (b : Bool) (ha : P a) : WordsIn P s (t.setBit a n b) := h.setWord _ ha

theorem orWord (h : WordsIn P s t) {a : Nat} (m : Nat) (ha : P a) : WordsIn P s (t.orWord a m) := h.setWord _ ha

theorem bump (h : WordsIn P s t) {a : Nat} (ha : P a) : WordsIn P s (t.bump a) := h.setWord _ ha

theorem ite {p : Prop} [Decidable p] {u : State} (h : WordsIn P s t) (k : WordsIn P s u) : WordsIn P s (if p then t else u) := by
  split
  · exact h
  · exact k

theorem setWords (vs : List Nat) : ∀ {t : State} {a : Nat}, WordsIn P s t → (∀ i, i < vs.length → P (a + 4 * i)) →
    WordsIn P s (t.setWords a vs) := by
  induction vs with
  | nil => exact fun h _ => h
  | cons v r ih =>
    intro t a h ha
    refine ih (h.setWord v (by simpa using ha 0 (by simp))) fun i hi => ?_
    have := ha (i + 1) (by simpa using hi)
    rwa [show a + 4 + 4 * i = a + 4 * (i + 1) by omega]

end WordsIn

/-! The engagement of the heel (R354, R356, R357): it writes registers of WPE and ETH only. -/

/-- Registers of WPE and ETH. -/
def heelWord (a : Nat) : Prop := rWpe 0 ≤ a ∧ a < rWpe 0x100000 ∨ rEth 0 ≤ a ∧ a < rEth 0x100000

theorem heelWord_rWpe {o : Nat} (h : o < 0x100000) : heelWord (rWpe o) := by
  simp only [heelWord, rWpe]
  omega

theorem heelWord_rEth {o : Nat} (h : o < 0x100000) : heelWord (rEth o) := by
  simp only [heelWord, rEth]
  omega

theorem sliceBytes_length (l : List Byte) (o n : Nat) : (sliceBytes l o n).length = n := by simp [sliceBytes, zeroBytes]

/-- A frame's payload has 744 bytes before its check value. -/
theorem framePayload_length (cmd flags seq cycle result : Nat) (plan : Option Traj) (heel : Traj) (tSend clock : Nat) :
    (framePayload cmd flags seq cycle result plan heel tSend clock).length = 744 := by
  unfold framePayload
  simp only [List.length_append, leBytes_length, pointSlots, sliceBytes_length, zeroBytes, List.length_replicate]

theorem State.trajToPort_words {s t : State} (h : WordsIn heelWord s t) (port : Nat) (f : EthFrame) :
    WordsIn heelWord s (t.trajToPort port f).1 := by
  unfold State.trajToPort
  split
  · exact h.upd rfl
  · exact h.bump (heelWord_rEth (by omega))

/-- The second port takes the frame only when it is duplicated. -/
theorem State.trajToSecond_words {s t : State} {p : Prop} [Decidable p] (h : WordsIn heelWord s t) (port : Nat) (f : EthFrame) :
    WordsIn heelWord s (if p then t.trajToPort port f else (t, false)).1 := by
  split
  · exact State.trajToPort_words h port f
  · exact h

theorem State.trajSend_words {s t : State} (h : WordsIn heelWord s t) (payload : List Byte) (seq : Nat) :
    WordsIn heelWord s (t.trajSend payload seq) := by
  have hsrc : WordsIn heelWord s (trajSource t).2 := h.upd rfl
  unfold State.trajSend
  dsimp only
  generalize (trajSource t).2 = u at *
  refine .ite ?_ (.orWord (.bump ?_ (heelWord_rEth (by omega))) _ (heelWord_rEth (by omega)))
  · exact State.trajToSecond_words (State.trajToPort_words hsrc _ _) _ _
  · exact State.trajToSecond_words (State.trajToPort_words hsrc _ _) _ _

theorem State.wpeFrame_words {s t : State} (h : WordsIn heelWord s t) (cmd flags result : Nat) (plan : Option Traj) (heel : Traj) :
    WordsIn heelWord s (t.wpeFrame cmd flags result plan heel) := by
  unfold State.wpeFrame
  dsimp only
  generalize hb : framePayload _ _ _ _ _ _ _ _ _ = body
  have hlen : (body ++ leBytes 4 (crc32c body)).length = 748 := by
    rw [List.length_append, leBytes_length, ← hb, framePayload_length]
  generalize body ++ leBytes 4 (crc32c body) = payload at *
  refine State.trajSend_words (WordsIn.bump (h.setWords _ fun i hi => ?_) (heelWord_rWpe (by omega))) _ _
  rw [wordsOf_length, hlen] at hi
  rw [show rWpe 0x1000 + 4 * i = rWpe (0x1000 + 4 * i) by simp only [rWpe]; omega]
  exact heelWord_rWpe (by omega)

theorem State.latchedOrFree_regs (s : State) : (s.latchedOrFree).2.regs = s.regs := by
  unfold State.latchedOrFree
  split <;> rfl

theorem State.hardHeel_regs (s : State) : (s.hardHeel).2.regs = s.regs := s.latchedOrFree_regs

/-- A heel engages: it is latched, and an extra frame goes out. -/
def State.engageWith (s : State) (h : Traj) : State :=
  ((({ s with wpe.engaged := some h } : State).setBit rWpeStatus 6 true).orWord rWpeIrq 0x200).wpeExtra h

/-- The heel that engages is taken without a write of a register. -/
theorem State.heelEngage_eq (s : State) : ∃ (h : Traj) (u : State), u.regs = s.regs ∧ s.heelEngage = u.engageWith h := by
  unfold State.heelEngage
  cases s.wpe.heel with
  | none => exact ⟨_, _, s.hardHeel_regs, rfl⟩
  | some h =>
    by_cases valid : s.heelValid h = true
    · exact ⟨h, s, rfl, by simp only [valid, if_true]; rfl⟩
    · exact ⟨_, _, s.hardHeel_regs, by simp only [valid]; rfl⟩

theorem State.heelEngage_words {s : State} (h : regsWf s.regs = true) : WordsIn heelWord s s.heelEngage := by
  obtain ⟨heel, u, hu, e⟩ := s.heelEngage_eq
  have k : WordsIn heelWord s ({ u with wpe.engaged := some heel } : State) := (WordsIn.refl h).upd hu
  rw [e, State.engageWith, State.wpeExtra]
  exact State.wpeFrame_words (((k.setBit _ _ (heelWord_rWpe (by omega))).orWord _ (heelWord_rWpe (by omega))).setFld _ _ _
    (heelWord_rWpe (by omega))) _ _ _ _ _

/-! The collector (R492 to R505). -/

/-- Words of FLT that a record and its captures may write: neither FLT_STATE nor FLT_HOLD. -/
def fltRecord (a : Nat) : Prop := fltRing a ∧ a ≠ rFltHold

theorem fltRecord_of {o : Nat} (h : o < 0x100 ∨ 0x200 ≤ o ∧ o < 0x400) (hs : o ≠ 0xC) (hh : o ≠ 0x20) : fltRecord (rFlt o) :=
  ⟨fltRing_of ⟨h, hs⟩, by unfold rFltHold rFlt; omega⟩

namespace WordsIn

variable {s t : State}

theorem putAlarm (h : WordsIn fltRecord s t) (rcd : List Byte) : WordsIn fltRecord s (t.putAlarm rcd) :=
  (((h.upd (u := t.store (t.alarmSlot (t.word (rFlt 0x30))) rcd) rfl).setWord (a := rFlt 0x30) _
    (fltRecord_of (by omega) (by omega) (by omega))).orWord (a := rFltIrq) 1 (fltRecord_of (by omega) (by omega) (by omega))).upd rfl

theorem putNotice (h : WordsIn fltRecord s t) (rcd : List Byte) : WordsIn fltRecord s (t.putNotice rcd) := by
  have k := (h.upd (u := t.store (t.noticeSlot (t.flt.noticeCnt % t.noticeSize)) rcd) rfl).setWord (a := rFlt 0x48)
    (t.store (t.noticeSlot (t.flt.noticeCnt % t.noticeSize)) rcd).flt.seq (fltRecord_of (by omega) (by omega) (by omega))
  exact (ite ((k.bump (a := rFlt 0x4C) (fltRecord_of (by omega) (by omega) (by omega))).orWord (a := rFltIrq) 0x80
    (fltRecord_of (by omega) (by omega) (by omega))) k).upd rfl

theorem recordFault (h : WordsIn fltRecord s t) (ev : FaultEv) (time tf : Nat) : WordsIn fltRecord s (t.recordFault ev time tf).1 := by
  unfold State.recordFault
  dsimp only
  split
  case isTrue =>
    split
    · exact ((h.bump (a := rFlt 0x38) (fltRecord_of (by omega) (by omega) (by omega))).orWord (a := rFltIrq) 2
        (fltRecord_of (by omega) (by omega) (by omega))).upd rfl
    · exact h.putAlarm _
  case isFalse =>
    split
    · exact h
    · dsimp only
      refine putNotice (upd h ?_) _
      rfl

theorem capture (h : WordsIn fltRecord s t) {cls : Nat} (hc : cls ≤ 5) {rcd : List Byte} (hl : rcd.length = 32) :
    WordsIn fltRecord s (t.capture cls rcd) := by
  have slot (o : Nat) (ho : 0x200 ≤ o ∧ o ≤ 0x380) (v : List Byte) (hv : v.length = 32) :
      ∀ i, i < (wordsOf v).length → fltRecord (rFlt o + 4 * i) := by
    intro i hi
    rw [wordsOf_length] at hi
    rw [show rFlt o + 4 * i = rFlt (o + 4 * i) by unfold rFlt; omega]
    exact fltRecord_of (by omega) (by omega) (by omega)
  have hset : (rcd.set 7 ((rcd.getD 7 0) ||| 0x80)).length = 32 := by simpa using hl
  exact setWords _ (ite h (setWords _ h (slot _ (by omega) _ hset))) (slot _ (by omega) _ hset)

end WordsIn

/-- What setting a class leaves in FLT_STATE: the bit of the class set, and the ring-oscillator bit and FLT_HOLD as they were. -/
structure ClassSet (cls : Nat) (s t : State) : Prop where
  wf : regsWf t.regs = true
  set : t.bit rFltState cls = true
  ring : t.bit rFltState stRing = s.bit rFltState stRing
  hold : t.word rFltHold = s.word rFltHold

theorem rFltHold_ne_rFltState : rFltHold ≠ rFltState := by
  unfold rFltHold rFltState rFlt
  omega

theorem State.word_setBit_hold {s : State} (h : regsWf s.regs = true) (k : Nat) (b : Bool) :
    (s.setBit rFltState k b).word rFltHold = s.word rFltHold := State.word_setWord_other h _ rFltHold_ne_rFltState

/-- A class becomes ACTIVE, with its interrupt when it was not. -/
theorem ClassSet.raise {s : State} (h : regsWf s.regs = true) {cls : Nat} (hc : cls ≤ 5) (irq : Nat) :
    ClassSet cls s ((if s.bit rFltState cls then s else s.orWord rFltIrq irq).setBit rFltState cls true) := by
  have k : RegsOnly [rFltIrq] s (if s.bit rFltState cls then s else s.orWord rFltIrq irq) :=
    .ite (.refl h) ((RegsOnly.refl h).orWord _ (by simp))
  have hstate : rFltState ∉ [rFltIrq] := by
    simp only [List.mem_singleton]
    unfold rFltState rFltIrq rFlt
    omega
  have hhold : rFltHold ∉ [rFltIrq] := by
    simp only [List.mem_singleton]
    unfold rFltHold rFltIrq rFlt
    omega
  refine ⟨State.setBit_regsWf k.wf _ _ _, State.bit_setBit_same k.wf true (by omega), ?_, ?_⟩
  · rw [State.bit_setBit_apart k.wf true (by decide) (by unfold stRing; omega), k.bit _ hstate]
  · rw [State.word_setBit_hold k.wf, k.word _ hhold]

/-- The pins in their safe levels. -/
theorem ClassSet.pinsSafe {cls : Nat} {s t : State} (h : ClassSet cls s t) (hc : cls ≤ 5) : ClassSet cls s t.pinsSafe := by
  have hu : (if t.bit rFltState stSafeN then t.emit (.pin ballSafeN false) else t).regs = t.regs := by
    split <;> rfl
  unfold State.pinsSafe
  dsimp only
  generalize (if t.bit rFltState stSafeN then t.emit (.pin ballSafeN false) else t) = u at *
  have wf : regsWf u.regs = true := by
    rw [hu]
    exact h.wf
  have wf1 := State.setBit_regsWf wf rFltState stSafeN false
  have hbit (k : Nat) (h6 : k ≠ stAlive) (h7 : k ≠ stSafeN) (hk : k < 32) :
      ((u.setBit rFltState stSafeN false).setBit rFltState stAlive false).bit rFltState k = t.bit rFltState k := by
    rw [State.bit_setBit_apart wf1 _ hk h6, State.bit_setBit_apart wf _ hk h7, State.bit, State.word_congr hu, State.bit]
  refine ⟨State.setBit_regsWf wf1 _ _ _, (hbit cls ?_ ?_ (by omega)).trans h.set,
    (hbit _ (by decide) (by decide) (by decide)).trans h.ring, ?_⟩
  · unfold stAlive
    omega
  · unfold stSafeN
    omega
  · rw [State.word_setBit_hold wf1, State.word_setBit_hold wf, State.word_congr hu, h.hold]

theorem ClassSet.upd {cls : Nat} {s t u : State} (h : ClassSet cls s t) (e : u.regs = t.regs) : ClassSet cls s u := by
  have hw := State.word_congr e
  refine ⟨by rw [e]; exact h.wf, ?_, ?_, (hw _).trans h.hold⟩
  · rw [State.bit, hw]
    exact h.set
  · rw [State.bit, hw]
    exact h.ring

/-- The class states after a fault of class D, S or L: the numbers of their bits are those of the classes (R492, R495, R496). -/
theorem State.classState_set {s : State} (h : regsWf s.regs = true) {ev : FaultEv} (hc : 3 ≤ ev.cls ∧ ev.cls ≤ 5) :
    ClassSet ev.cls s (s.classState ev) := by
  obtain hc | hc | hc : ev.cls = 3 ∨ ev.cls = 4 ∨ ev.cls = 5 := by omega
  all_goals
    unfold State.classState
    simp only [hc]
  · exact (ClassSet.raise h (cls := 3) (by omega) 4).upd rfl
  · refine ClassSet.pinsSafe (ClassSet.upd (ClassSet.raise h (cls := 4) (by omega) 0x10) ?_) (by omega)
    rfl
  · exact (ClassSet.raise h (cls := 5) (by omega) 0x40).pinsSafe (by omega)

/-- What a fault of class D, S or L leaves. -/
theorem State.collect_set {s : State} (h : regsWf s.regs = true) {ev : FaultEv} (hc : 3 ≤ ev.cls ∧ ev.cls ≤ 5) :
    ClassSet ev.cls s (s.collect ev) := by
  unfold State.collect State.updateFc
  dsimp only
  generalize hu : State.capture _ _ _ = u
  have hb := State.bump_regsWf h (rFlt (0x100 + ev.src % 64 * 4))
  have ku : WordsIn fltRecord (s.bump (rFlt (0x100 + ev.src % 64 * 4))) u := by
    rw [← hu]
    exact ((WordsIn.refl hb).recordFault ev _ _).capture (by omega) (recBytes_length ..)
  have hstate : u.word rFltState = s.word rFltState := by
    rw [ku.word _ fun hr => hr.1.2 rfl, State.word_bump_other h (by unfold rFltState rFlt; omega)]
  have hhold : u.word rFltHold = s.word rFltHold := by
    rw [ku.word _ fun hr => hr.2 rfl, State.word_bump_other h (by unfold rFltHold rFlt; omega)]
  have k := State.classState_set ku.wf hc
  refine ⟨State.setFld_regsWf k.wf _ _ _ _, ?_, ?_, ?_⟩
  · rw [State.bit_setFld_apart k.wf _ (by omega) (by omega) (by omega), k.set]
  · rw [State.bit_setFld_apart k.wf _ (by omega) (by decide) (by decide), k.ring, State.bit, hstate, State.bit]
  · rw [State.setFld, State.word_setWord_other k.wf _ rFltHold_ne_rFltState, k.hold, hhold]

/-- What recording a fault of class D, S or L leaves, the engagement of the heel with it: its count raised, its class ACTIVE, and every
register outside FLT, WPE and ETH as it was. -/
structure FaultShown (src cls : Nat) (s t : State) : Prop where
  shown : ClassSet cls s t
  faulted : Faulted src cls s t
  word : ∀ a, a < rFlt 0 ∨ rFlt 0x400 ≤ a → ¬heelWord a → t.word a = s.word a

theorem rFlt_not_heelWord (o : Nat) (h : o < 0x100000) : ¬heelWord (rFlt o) := by
  simp only [heelWord, rWpe, rEth, rFlt, blkBase, bWPE, bETH, bFLT]
  omega

theorem State.fault_shown {s : State} (h : regsWf s.regs = true) {src cls : Nat} (hs : src < 64) (hc : 3 ≤ cls ∧ cls ≤ 5) (m : Master)
    (u i : Nat) : FaultShown src cls s (s.fault src cls m u i) := by
  generalize he : (⟨src, cls, 0, m, u, i, 0, false || s.awl.inj⟩ : FaultEv) = ev
  have hcls : ev.cls = cls := by rw [← he]
  have hsrc : ev.src = src := by rw [← he]
  have set : ClassSet cls s (s.collect ev) := by
    rw [← hcls]
    exact State.collect_set h (by omega)
  have heel : WordsIn heelWord (s.collect ev) (s.fault src cls m u i) := by
    have e : s.fault src cls m u i = if (s.collect ev).safeActive && !s.safeActive then (s.collect ev).heelEngage else s.collect ev := by
      rw [← he]
      rfl
    rw [e]
    exact .ite (State.heelEngage_words set.wf) (.refl set.wf)
  have hflt (o : Nat) (ho : o < 0x100000) : (s.fault src cls m u i).word (rFlt o) = (s.collect ev).word (rFlt o) :=
    heel.word _ (rFlt_not_heelWord o ho)
  have hstate (k : Nat) : (s.fault src cls m u i).bit rFltState k = (s.collect ev).bit rFltState k :=
    congrArg (bitOf · k) (hflt 0xC (by omega))
  have shown : ClassSet cls s (s.fault src cls m u i) :=
    ⟨heel.wf, (hstate cls).trans set.set, (hstate stRing).trans set.ring, (hflt 0x20 (by omega)).trans set.hold⟩
  refine ⟨shown, ⟨?_, ?_, ?_, ?_⟩, fun a ha hn => (heel.word a hn).trans (State.collect_word h (by omega) ha)⟩
  · rw [hflt _ (by omega), ← hsrc]
    exact State.collect_count h (by omega) (by omega)
  · rintro rfl
    exact shown.set
  · rintro rfl
    exact shown.set
  · rintro rfl
    exact shown.set

end Sys2Proof.Machine
end

section
/-! PROOF. Failures and returns of the reference clocks, losses of PLL lock and relocks, and the sync of PHYs (O40). -/

namespace Sys2Proof.Machine

variable {s : State}

/-! Registers apart from each other. -/

theorem rCkg_inj {a b : Nat} : rCkg a = rCkg b ↔ a = b := Nat.add_left_cancel_iff

theorem rCkg_outside (o : Nat) (h : o < 0x100000) : ¬heelWord (rCkg o) ∧ rFlt 0x400 ≤ rCkg o := by
  simp only [heelWord, rWpe, rEth, rFlt, rCkg, blkBase, bWPE, bETH, bFLT, bCKG]
  omega

/-- A register of CKG keeps what it showed when the fault is recorded. -/
theorem FaultShown.bit_rCkg {src cls : Nat} {t : State} (h : FaultShown src cls s t) {o : Nat} (ho : o < 0x100000) (k : Nat) :
    t.bit (rCkg o) k = s.bit (rCkg o) k :=
  congrArg (bitOf · k) (h.word _ (.inr (rCkg_outside o ho).2) (rCkg_outside o ho).1)

/-- A fault recorded after changes that leave its count alone. -/
theorem FaultShown.faulted_after {src cls : Nat} {u t : State} (h : FaultShown src cls u t)
    (hu : u.word (rFlt (0x100 + src * 4)) = s.word (rFlt (0x100 + src * 4))) : Faulted src cls s t := by
  obtain ⟨hcount, hclass⟩ := h.faulted
  exact ⟨by rw [hcount, hu], hclass⟩

theorem State.bit_orWord_other (h : regsWf s.regs = true) {a b : Nat} (m k : Nat) (ne : b ≠ a) : (s.orWord a m).bit b k = s.bit b k := by
  rw [State.bit, State.word_orWord_other h m ne, State.bit]

/-! REFCLK_100 (R478, R603). -/

theorem exec_refclkLoss : exec .refclkLoss s =
    .next ((((s.setBit (rCkg 0x10) 0 false).orWord (rCkg 0) 2).setBit rFltHold 0 true).fault 0x0B 4 mCollector 0 0) := rfl

theorem runs_refclkLoss (h : regsWf s.regs = true) : Runs .refclkLoss s fun t =>
    t.bit (rCkg 0x10) 0 = false ∧ t.bit (rCkg 0) 1 = true ∧ t.bit rFltHold 0 = true ∧ Faulted 0x0B 4 s t := by
  have k1 := (RegsOnly.refl (l := [rCkg 0x10, rCkg 0, rFltHold]) h).setBit (a := rCkg 0x10) 0 false (by simp)
  have k2 := k1.orWord (a := rCkg 0) 2 (by simp)
  have k3 := k2.setBit (a := rFltHold) 0 true (by simp)
  have shown := State.fault_shown k3.wf (src := 0x0B) (cls := 4) (by omega) (by omega) mCollector 0 0
  refine .of_exec exec_refclkLoss ⟨?_, ?_, ?_, shown.faulted_after (k3.word _ (by decide))⟩
  · rw [shown.bit_rCkg (by omega), State.bit_setBit_other k2.wf _ _ _ (by decide), State.bit_orWord_other k1.wf _ _ (by decide)]
    exact State.bit_setBit_same h false (by omega)
  · rw [shown.bit_rCkg (by omega), State.bit_setBit_other k2.wf _ _ _ (by decide), State.bit_orWord_same k1.wf _ _ (by omega),
      show bitOf 2 1 = true by decide, Bool.or_true]
  · rw [State.bit, shown.shown.hold]
    exact State.bit_setBit_same k2.wf true (by omega)

theorem exec_refclkRecover : exec .refclkRecover s = .next ((s.setBit (rCkg 0x10) 0 true).setBit rFltHold 0 false) := rfl

theorem runs_refclkRecover (h : regsWf s.regs = true) : Runs .refclkRecover s fun t =>
    t.bit (rCkg 0x10) 0 = true ∧ t.bit rFltHold 0 = false ∧ t.fld rFltHold 2 1 = s.fld rFltHold 2 1 ∧
    RegsBut [rCkg 0x10, rFltHold] s t ∧ t.mem = s.mem := by
  have k1 := (RegsOnly.refl (l := [rCkg 0x10, rFltHold]) h).setBit (a := rCkg 0x10) 0 true (by simp)
  have k2 := k1.setBit (a := rFltHold) 0 false (by simp)
  refine .of_exec exec_refclkRecover ⟨?_, State.bit_setBit_same k1.wf false (by omega), ?_, k2.word, k2.mem⟩
  · rw [State.bit_setBit_other k1.wf _ _ _ (by decide)]
    exact State.bit_setBit_same h true (by omega)
  · exact (State.fld_setFld_apart k1.wf _ (by omega) (by omega) (by omega)).trans
      (State.fld_setFld_other h _ _ _ _ _ (by decide))

/-! PTP_REFIN and the holdover of the PTP clocks (R478, R568). -/

/-- The registers in which the PTP clocks show holdover. -/
def holdoverWords : List Nat := [rPtpClk 0 4, rPtpClk 1 4, rPtpClk 2 4, rPtpClk 3 4]

theorem rPtpClk_mem_holdoverWords {c : Nat} (h : c < 4) : rPtpClk c 4 ∈ holdoverWords := by
  obtain rfl | rfl | rfl | rfl : c = 0 ∨ c = 1 ∨ c = 2 ∨ c = 3 := by omega
  all_goals simp [holdoverWords]

theorem rPtpClk_inj {c d : Nat} : rPtpClk c 4 = rPtpClk d 4 ↔ c = d := by
  unfold rPtpClk
  omega

theorem rPtpClk_ne_blkBase {c : Nat} : rPtpClk c 4 ≠ blkBase bPTP := by
  unfold rPtpClk
  omega

/-- HOLDOVER of the first n clocks. -/
def State.holdoverOf (s : State) (b : Bool) (n : Nat) : State :=
  (List.range n).foldl (fun s c =>
    let s := s.setBit (rPtpClk c 4) 4 b
    if b then s.orWord (blkBase bPTP) (2 ^ (8 * c + 4)) else s) s

theorem State.holdover_eq (b : Bool) : s.holdover b = s.holdoverOf b 4 := rfl

theorem State.holdoverOf_succ (b : Bool) (n : Nat) :
    s.holdoverOf b (n + 1) =
      let t := (s.holdoverOf b n).setBit (rPtpClk n 4) 4 b
      if b then t.orWord (blkBase bPTP) (2 ^ (8 * n + 4)) else t := by
  rw [State.holdoverOf, List.range_succ, List.foldl_concat]
  rfl

/-- Clocks that leave holdover. -/
theorem State.holdoverOf_end (h : regsWf s.regs = true) : ∀ {n : Nat}, n ≤ 4 →
    RegsOnly holdoverWords s (s.holdoverOf false n) ∧ ∀ c, c < n → (s.holdoverOf false n).bit (rPtpClk c 4) 4 = false
  | 0, _ => ⟨.refl h, fun c hc => absurd hc (by omega)⟩
  | n + 1, hn => by
    obtain ⟨k, ih⟩ := State.holdoverOf_end h (n := n) (by omega)
    rw [State.holdoverOf_succ]
    refine ⟨k.setBit 4 false (rPtpClk_mem_holdoverWords (by omega)), fun c hc => ?_⟩
    by_cases e : c = n
    · rw [e]
      exact State.bit_setBit_same k.wf false (by omega)
    · exact (State.bit_setBit_other k.wf _ _ _ fun x => e (rPtpClk_inj.mp x)).trans (ih c (by omega))

/-- Clocks that enter holdover, each with its interrupt. -/
theorem State.holdoverOf_begin (h : regsWf s.regs = true) : ∀ {n : Nat}, n ≤ 4 →
    RegsOnly (blkBase bPTP :: holdoverWords) s (s.holdoverOf true n) ∧
      ∀ c, c < n → (s.holdoverOf true n).bit (rPtpClk c 4) 4 = true ∧ (s.holdoverOf true n).bit (blkBase bPTP) (8 * c + 4) = true
  | 0, _ => ⟨.refl h, fun c hc => absurd hc (by omega)⟩
  | n + 1, hn => by
    obtain ⟨k, ih⟩ := State.holdoverOf_begin h (n := n) (by omega)
    have k1 := k.setBit (a := rPtpClk n 4) 4 true (List.mem_cons_of_mem _ (rPtpClk_mem_holdoverWords (by omega)))
    rw [State.holdoverOf_succ]
    refine ⟨k1.orWord _ (by simp), fun c hc => ⟨?_, ?_⟩⟩
    · refine (State.bit_orWord_other k1.wf _ _ rPtpClk_ne_blkBase).trans ?_
      by_cases e : c = n
      · rw [e]
        exact State.bit_setBit_same k.wf true (by omega)
      · exact (State.bit_setBit_other k.wf _ _ _ fun x => e (rPtpClk_inj.mp x)).trans (ih c (by omega)).1
    · refine (State.bit_orWord_same k1.wf _ _ (by omega)).trans ?_
      by_cases e : c = n
      · rw [e, bitOf_eq, Nat.testBit_two_pow_self, Bool.or_true]
      · rw [State.bit_setBit_other k.wf _ _ _ rPtpClk_ne_blkBase.symm, (ih c (by omega)).2, Bool.true_or]

theorem exec_ptpRefinFail : exec .ptpRefinFail s =
    .next ((((s.setBit (rCkg 0x10) 1 false).setBit (rCkg 0x10) 3 true).orWord (rCkg 0) 4).holdover true |>.fault 0x0C 3
      mCollector 0 0) := rfl

theorem rPtpClk_outside {c : Nat} (h : c < 4) : ¬heelWord (rPtpClk c 4) ∧ rFlt 0x400 ≤ rPtpClk c 4 := by
  simp only [heelWord, rWpe, rEth, rFlt, rPtpClk, blkBase, bWPE, bETH, bFLT, bPTP]
  omega

theorem blkBase_bPTP_outside : ¬heelWord (blkBase bPTP) ∧ rFlt 0x400 ≤ blkBase bPTP := by
  simp only [heelWord, rWpe, rEth, rFlt, blkBase, bWPE, bETH, bFLT, bPTP]
  omega

theorem runs_ptpRefinFail (h : regsWf s.regs = true) : Runs .ptpRefinFail s fun t =>
    t.bit (rCkg 0x10) 1 = false ∧ t.bit (rCkg 0x10) 3 = true ∧ t.bit (rCkg 0) 2 = true ∧
    (∀ c, c < 4 → t.bit (rPtpClk c 4) 4 = true ∧ t.bit (blkBase bPTP) (8 * c + 4) = true) ∧ Faulted 0x0C 3 s t := by
  have k1 := (RegsOnly.refl (l := [rCkg 0x10, rCkg 0]) h).setBit (a := rCkg 0x10) 1 false (by simp)
  have k2 := k1.setBit (a := rCkg 0x10) 3 true (by simp)
  have k3 := k2.orWord (a := rCkg 0) 4 (by simp)
  obtain ⟨kh, hold⟩ := State.holdoverOf_begin k3.wf (n := 4) (by omega)
  have shown := State.fault_shown kh.wf (src := 0x0C) (cls := 3) (by omega) (by omega) mCollector 0 0
  refine .of_exec exec_ptpRefinFail ⟨?_, ?_, ?_, fun c hc => ⟨?_, ?_⟩,
    shown.faulted_after ((kh.word _ (by decide)).trans (k3.word _ (by decide)))⟩
  · refine (shown.bit_rCkg (by omega) _).trans ((kh.bit _ (by decide)).trans ?_)
    rw [State.bit_orWord_other k2.wf _ _ (by decide), State.bit_setBit_apart k1.wf _ (by omega) (by omega)]
    exact State.bit_setBit_same h false (by omega)
  · refine (shown.bit_rCkg (by omega) _).trans ((kh.bit _ (by decide)).trans ?_)
    rw [State.bit_orWord_other k2.wf _ _ (by decide)]
    exact State.bit_setBit_same k1.wf true (by omega)
  · refine (shown.bit_rCkg (by omega) _).trans ((kh.bit _ (by decide)).trans ?_)
    rw [State.bit_orWord_same k2.wf _ _ (by omega), show bitOf 4 2 = true by decide, Bool.or_true]
  · obtain ⟨hn, hf⟩ := rPtpClk_outside hc
    exact (congrArg (bitOf · 4) (shown.word _ (.inr hf) hn)).trans (hold c hc).1
  · obtain ⟨hn, hf⟩ := blkBase_bPTP_outside
    exact (congrArg (bitOf · (8 * c + 4)) (shown.word _ (.inr hf) hn)).trans (hold c hc).2

theorem exec_ptpRefinRecover : exec .ptpRefinRecover s =
    .next (((s.setBit (rCkg 0x10) 1 true).setBit (rCkg 0x10) 3 false).holdover false) := rfl

theorem runs_ptpRefinRecover (h : regsWf s.regs = true) : Runs .ptpRefinRecover s fun t =>
    t.bit (rCkg 0x10) 1 = true ∧ t.bit (rCkg 0x10) 3 = false ∧ (∀ c, c < 4 → t.bit (rPtpClk c 4) 4 = false) ∧
    RegsBut [rCkg 0x10, rPtpClk 0 4, rPtpClk 1 4, rPtpClk 2 4, rPtpClk 3 4] s t ∧ t.mem = s.mem := by
  have k1 := (RegsOnly.refl (l := [rCkg 0x10]) h).setBit (a := rCkg 0x10) 1 true (by simp)
  have k2 := k1.setBit (a := rCkg 0x10) 3 false (by simp)
  obtain ⟨kh, hold⟩ := State.holdoverOf_end k2.wf (n := 4) (by omega)
  refine .of_exec exec_ptpRefinRecover ⟨?_, ?_, hold, fun a ha => ?_, kh.mem.trans k2.mem⟩
  · refine (kh.bit _ (by decide)).trans ?_
    rw [State.bit_setBit_apart k1.wf _ (by omega) (by omega)]
    exact State.bit_setBit_same h true (by omega)
  · exact (kh.bit _ (by decide)).trans (State.bit_setBit_same k1.wf false (by omega))
  · rw [List.mem_cons, not_or] at ha
    exact (kh.word a ha.2).trans (k2.word a (mt List.mem_singleton.mp ha.1))

/-! SAFE_XIN (R478). -/

/-- A pair stops. -/
theorem State.setPair_halted (s : State) (n : Nat) :
    s.setPair n 3 = ((((s.setFld (rPair n 0) 2 0 3).setBit (rPair n 0) 4 false).setBit (rTwn 0) (8 + n) false).setBit (rTwn 0) (16 + n)
      false).updatePairs := rfl

theorem rPair_inj {m n : Nat} : rPair m 0 = rPair n 0 ↔ m = n := by
  unfold rPair rTwn
  omega

theorem rPair_apart {n : Nat} (h : n < 6) : rPair n 0 ≠ rTwn 0 ∧ rPair n 0 ≠ rFltHold := by
  unfold rPair rTwn rFltHold rFlt blkBase bTWN bFLT
  omega

theorem RegsOnly.after {l l' : List Nat} {u t : State} (h : RegsOnly l u t) (k : RegsOnly l' s u) (hl : ∀ a ∈ l, a ∈ l') :
    RegsOnly l' s t := by
  obtain ⟨r, rfl⟩ := k.rest
  obtain ⟨r', rfl⟩ := h.rest
  exact ⟨h.wf, fun a ha => (h.word a fun hm => ha (hl a hm)).trans (k.word a ha), _, rfl⟩

/-- What stopping a pair leaves. -/
theorem State.setPair_halted_effect (h : regsWf s.regs = true) {n : Nat} (hn : n < 6) :
    let t := s.setPair n 3
    RegsOnly [rPair n 0, rTwn 0, rFltHold] s t ∧ t.pairState n = 3 ∧ t.eligible n = false ∧
      ∀ m, m < 6 → m ≠ n → t.pairState m = s.pairState m ∧ t.eligible m = s.eligible m := by
  have k1 := (RegsOnly.refl (l := [rPair n 0, rTwn 0, rFltHold]) h).setFld (a := rPair n 0) 2 0 3 (by simp)
  have k2 := k1.setBit (a := rPair n 0) 4 false (by simp)
  have k3 := k2.setBit (a := rTwn 0) (8 + n) false (by simp)
  have k4 := k3.setBit (a := rTwn 0) (16 + n) false (by simp)
  have tail : RegsOnly [rFltHold] _ (s.setPair n 3) := (RegsOnly.refl k4.wf).setBit 2 _ (by simp)
  have hstate {m : Nat} (hm : m < 6) : (s.setPair n 3).pairState m =
      ((s.setFld (rPair n 0) 2 0 3).setBit (rPair n 0) 4 false).pairState m := by
    obtain ⟨htwn, hhold⟩ := rPair_apart hm
    rw [State.pairState, tail.fld 2 0 (mt List.mem_singleton.mp hhold)]
    exact (State.fld_setFld_other k3.wf _ _ _ _ _ htwn).trans (State.fld_setFld_other k2.wf _ _ _ _ _ htwn)
  have helig {m : Nat} (hm : m < 6) : (s.setPair n 3).eligible m =
      (((s.setFld (rPair n 0) 2 0 3).setBit (rPair n 0) 4 false).setBit (rTwn 0) (8 + n) false).eligible m :=
    (tail.bit (a := rTwn 0) (8 + m) (by decide)).trans (State.bit_setBit_apart k3.wf false (by omega) (by omega))
  refine ⟨tail.after k4 (by simp), ?_, ?_, fun m hm hne => ⟨?_, ?_⟩⟩
  · rw [hstate hn]
    exact (State.fld_setFld_apart k1.wf _ (by omega) (by omega) (by omega)).trans (State.fld_setFld_same h _ (by omega) (by omega))
  · rw [helig hn]
    exact State.bit_setBit_same k2.wf false (by omega)
  · have hp : rPair m 0 ≠ rPair n 0 := fun e => hne (rPair_inj.mp e)
    rw [hstate hm]
    exact (State.fld_setFld_other k1.wf _ _ _ _ _ hp).trans (State.fld_setFld_other h _ _ _ _ _ hp)
  · rw [helig hm]
    refine (State.bit_setBit_apart k2.wf false (by omega) (by omega)).trans ?_
    have htwn : rTwn 0 ≠ rPair n 0 := (rPair_apart hn).1.symm
    rw [State.bit_setBit_other k1.wf _ _ _ htwn, State.eligible, State.bit, State.setFld, State.word_setWord_other h _ htwn]
    rfl

/-- The registers that stopping the pairs writes. -/
def haltWords : List Nat := rTwn 0 :: rFltHold :: (List.range 6).map fun n => rPair n 0

/-- The first n pairs stop, but for those that have FAILED. -/
def State.haltPairs (s : State) (n : Nat) : State :=
  (List.range n).foldl (fun s n => if s.pairState n = 4 then s else s.setPair n 3) s

theorem State.haltPairs_succ (s : State) (n : Nat) :
    s.haltPairs (n + 1) = if (s.haltPairs n).pairState n = 4 then s.haltPairs n else (s.haltPairs n).setPair n 3 := by
  rw [State.haltPairs, List.range_succ, List.foldl_concat]
  rfl

theorem State.haltPairs_effect (h : regsWf s.regs = true) : ∀ {n : Nat}, n ≤ 6 →
    let t := s.haltPairs n
    RegsOnly haltWords s t ∧ (∀ m, m < 6 → n ≤ m → t.pairState m = s.pairState m) ∧
      ∀ m, m < n → t.pairState m = (if s.pairState m = 4 then 4 else 3) ∧ (s.pairState m ≠ 4 → t.eligible m = false)
  | 0, _ => ⟨.refl h, fun _ _ _ => rfl, fun m hm => absurd hm (by omega)⟩
  | n + 1, hn => by
    obtain ⟨k, later, done⟩ := State.haltPairs_effect h (n := n) (by omega)
    have hstate := later n (by omega) (by omega)
    rw [State.haltPairs_succ]
    by_cases failed : s.pairState n = 4
    case pos =>
      rw [hstate, if_pos failed]
      refine ⟨k, fun m hm hle => later m hm (by omega), fun m hm => ?_⟩
      by_cases e : m = n
      · rw [e, hstate, if_pos failed]
        exact ⟨failed, fun hne => absurd failed hne⟩
      · exact done m (by omega)
    case neg =>
      rw [hstate, if_neg failed]
      obtain ⟨kn, hthree, hstops, hothers⟩ := State.setPair_halted_effect k.wf (n := n) (by omega)
      have hmem : ∀ a ∈ [rPair n 0, rTwn 0, rFltHold], a ∈ haltWords := by
        simp only [List.mem_cons, List.not_mem_nil, or_false, haltWords, List.mem_map, List.mem_range]
        rintro a (rfl | rfl | rfl)
        · exact .inr (.inr ⟨n, by omega, rfl⟩)
        · exact .inl rfl
        · exact .inr (.inl rfl)
      refine ⟨kn.after k hmem, fun m hm hle => ((hothers m hm (by omega)).1).trans (later m hm (by omega)), fun m hm => ?_⟩
      by_cases e : m = n
      · rw [e, if_neg failed]
        exact ⟨hthree, fun _ => hstops⟩
      · obtain ⟨hst, hel⟩ := hothers m (by omega) e
        rw [hst, hel]
        exact done m (by omega)

theorem exec_safeXinFail : exec .safeXinFail s =
    .next ((((s.setBit (rCkg 0x10) 2 false).setBit rFltState stRing true).haltPairs 6).fault 0x0D 5 mCollector 0 0) := rfl

theorem rTwn_outside {o : Nat} (h : o < 0x100000) : ¬heelWord (rTwn o) ∧ rTwn o < rFlt 0 := by
  simp only [heelWord, rWpe, rEth, rFlt, rTwn, blkBase, bWPE, bETH, bFLT, bTWN]
  omega

/-- A pair keeps what it shows when a fault is recorded. -/
theorem FaultShown.pair {src cls : Nat} {t : State} (h : FaultShown src cls s t) {n : Nat} (hn : n < 6) :
    t.pairState n = s.pairState n ∧ t.eligible n = s.eligible n := by
  obtain ⟨hp, hlp⟩ := rTwn_outside (o := 0x100 + n * 0x20 + 0) (by omega)
  obtain ⟨ht, hlt⟩ := rTwn_outside (o := 0) (by omega)
  exact ⟨State.fld_congr (h.word _ (.inl hlp) hp) 2 0, congrArg (bitOf · (8 + n)) (h.word _ (.inl hlt) ht)⟩

theorem runs_safeXinFail (h : regsWf s.regs = true) : Runs .safeXinFail s fun t =>
    t.bit (rCkg 0x10) 2 = false ∧ t.bit rFltState stRing = true ∧
    (∀ n, n < 6 → t.pairState n = (if s.pairState n = 4 then 4 else 3) ∧ (s.pairState n ≠ 4 → t.eligible n = false)) ∧
    Faulted 0x0D 5 s t := by
  have k1 := (RegsOnly.refl (l := [rCkg 0x10, rFltState]) h).setBit (a := rCkg 0x10) 2 false (by simp)
  have k2 := k1.setBit (a := rFltState) stRing true (by simp)
  obtain ⟨kp, -, done⟩ := State.haltPairs_effect k2.wf (n := 6) (by omega)
  have shown := State.fault_shown kp.wf (src := 0x0D) (cls := 5) (by omega) (by omega) mCollector 0 0
  refine .of_exec exec_safeXinFail ⟨?_, ?_, fun n hn => ?_,
    shown.faulted_after ((kp.word _ (by decide)).trans (k2.word _ (by decide)))⟩
  · refine (shown.bit_rCkg (by omega) _).trans ((kp.bit _ (by decide)).trans ?_)
    rw [State.bit_setBit_other k1.wf _ _ _ (by decide)]
    exact State.bit_setBit_same h false (by omega)
  · exact shown.shown.ring.trans ((kp.bit _ (by decide)).trans (State.bit_setBit_same k1.wf true (by decide)))
  · have before : ((s.setBit (rCkg 0x10) 2 false).setBit rFltState stRing true).pairState n = s.pairState n := by
      refine k2.fld 2 0 ?_
      simp only [List.mem_cons, List.not_mem_nil, or_false]
      unfold rPair rTwn rCkg rFltState rFlt blkBase bTWN bCKG bFLT
      omega
    obtain ⟨hstate, helig⟩ := shown.pair hn
    rw [hstate, helig, ← before]
    exact done n hn

theorem exec_safeXinReturn : exec .safeXinReturn s = .next (s.setBit (rCkg 0x10) 2 true) := rfl

/-- A word has no bit from 32 on. -/
theorem State.bit_eq_false_of_le (s : State) (a : Nat) {k : Nat} (hk : 32 ≤ k) : s.bit a k = false := by
  rw [State.bit, bitOf_eq]
  exact Nat.testBit_lt_two_pow (Nat.lt_of_lt_of_le (s.word_lt a) (Nat.pow_le_pow_right (by omega) hk))

theorem runs_safeXinReturn (h : regsWf s.regs = true) : Runs .safeXinReturn s fun t =>
    t.bit (rCkg 0x10) 2 = true ∧ (∀ k, k ≠ 2 → t.bit (rCkg 0x10) k = s.bit (rCkg 0x10) k) ∧ RegsBut [rCkg 0x10] s t ∧ t.mem = s.mem := by
  have k1 := (RegsOnly.refl (l := [rCkg 0x10]) h).setBit (a := rCkg 0x10) 2 true (by simp)
  refine .of_exec exec_safeXinReturn ⟨State.bit_setBit_same h true (by omega), fun k hk => ?_, k1.word, k1.mem⟩
  by_cases hw : k < 32
  · exact State.bit_setBit_apart h true hw hk
  · rw [State.bit_eq_false_of_le _ _ (by omega), State.bit_eq_false_of_le _ _ (by omega)]

/-! PLLs (R595). -/

section

variable {d : Fin 48}

/-- The class that a lost lock records: D for the domains 35 to 42 and 47, else S (R595). -/
def lockClass (d : Nat) : Nat := if (35 ≤ d ∧ d ≤ 42) ∨ d = 47 then 3 else 4

theorem exec_pllLockLoss : exec (.pllLockLoss d) s =
    .next (((((s.setBit (rDom d) 16 false).setBit (rDom d) 18 true).bump (rDom d + 4)).orWord (rCkg 0) 1).fault 0x22 (lockClass d)
      mCollector d 0) := rfl

theorem rDom_eq_rCkg {d : Nat} : rDom d = rCkg (0x100 + d * 8) := rfl

theorem rDom_add_four {d : Nat} : rDom d + 4 = rCkg (0x104 + d * 8) := by
  unfold rDom rCkg
  omega

theorem runs_pllLockLoss (h : regsWf s.regs = true) : Runs (.pllLockLoss d) s fun t =>
    t.bit (rDom d) 16 = false ∧ t.bit (rDom d) 18 = true ∧ t.word (rDom d + 4) = (s.word (rDom d + 4) + 1) % 2 ^ 32 ∧
    t.bit (rCkg 0) 0 = true ∧ Faulted 0x22 (lockClass d) s t := by
  have k1 := (RegsOnly.refl (l := [rDom d, rDom d + 4, rCkg 0]) h).setBit (a := rDom d) 16 false (by simp)
  have k2 := k1.setBit (a := rDom d) 18 true (by simp)
  have k3 := k2.bump (a := rDom d + 4) (by simp)
  have k4 := k3.orWord (a := rCkg 0) 1 (by simp)
  have hcls : 3 ≤ lockClass d ∧ lockClass d ≤ 5 := by
    unfold lockClass
    split <;> omega
  have shown := State.fault_shown k4.wf (src := 0x22) (by omega) hcls mCollector d 0
  have hne : rDom d ≠ rDom d + 4 := by omega
  have h0 : rDom d ≠ rCkg 0 := by
    rw [rDom_eq_rCkg, Ne, rCkg_inj]
    omega
  have h4 : rDom d + 4 ≠ rCkg 0 := by
    rw [rDom_add_four, Ne, rCkg_inj]
    omega
  have tail : RegsOnly [rDom d + 4, rCkg 0] _ _ := ((RegsOnly.refl k2.wf).bump (a := rDom d + 4) (by simp)).orWord (a := rCkg 0) 1 (by simp)
  have hdom : rDom d ∉ [rDom d + 4, rCkg 0] := by simp [h0]
  refine .of_exec exec_pllLockLoss ⟨?_, ?_, ?_, ?_, shown.faulted_after (k4.word _ ?_)⟩
  · refine (shown.bit_rCkg (by omega) _).trans ((tail.bit 16 hdom).trans ?_)
    rw [State.bit_setBit_apart k1.wf _ (by omega) (by omega)]
    exact State.bit_setBit_same h false (by omega)
  · exact (shown.bit_rCkg (by omega) _).trans ((tail.bit 18 hdom).trans (State.bit_setBit_same k1.wf true (by omega)))
  · obtain ⟨hn, hf⟩ := rCkg_outside (0x104 + d * 8) (by omega)
    rw [← rDom_add_four] at hn hf
    rw [shown.word _ (.inr hf) hn, State.word_orWord_other k3.wf _ h4, State.word_bump_same k2.wf]
    exact congrArg (fun n => (n + 1) % 2 ^ 32) ((State.word_setWord_other k1.wf _ hne.symm).trans (State.word_setWord_other h _ hne.symm))
  · rw [shown.bit_rCkg (by omega), State.bit_orWord_same k3.wf _ _ (by omega), show bitOf 1 0 = true by decide, Bool.or_true]
  · rw [rDom_add_four, rDom_eq_rCkg]
    simp only [List.mem_cons, List.not_mem_nil, or_false]
    unfold rFlt rCkg blkBase bFLT bCKG
    omega

/-- The first n cells of panel p are treated as failed (R170). -/
def State.failCells (s : State) (p n : Nat) : State := (List.range n).foldl (fun s j => s.failCell (p * 16 + j) 1 0x11) s

theorem State.failCells_succ (s : State) (p n : Nat) : s.failCells p (n + 1) = (s.failCells p n).failCell (p * 16 + n) 1 0x11 := by
  rw [State.failCells, List.range_succ, List.foldl_concat]
  rfl

/-- A cell that works: neither absent nor off nor under substitution. -/
def State.works (s : State) (c : Nat) : Prop := ¬(s.cellState c = csABSENT ∨ s.cellState c = csOFF ∨ s.cellState c = csSUBST)

theorem rCkg_not_mem_failWords {o c p : Nat} (ho : o < 0x100000) (hc : c < 256) (hp : p < 32) : rCkg o ∉ failWords c p := by
  simp only [failWords, rPhys_eq_rCel, rCell_eq_rCel, rPanelSt_eq_rCel, rCelIrq_eq_rCel, List.mem_cons, List.not_mem_nil, or_false]
  unfold rCkg rCel blkBase bCKG bCEL
  omega

theorem State.failCells_effect (h : regsWf s.regs = true) {p : Nat} (hp : p < 16) : ∀ {n : Nat}, n ≤ 16 →
    let t := s.failCells p n
    regsWf t.regs = true ∧ (∀ o, o < 0x100000 → t.word (rCkg o) = s.word (rCkg o)) ∧
      (∀ j, j < 16 → n ≤ j → t.cellState (p * 16 + j) = s.cellState (p * 16 + j)) ∧
      ∀ j, j < n → s.works (p * 16 + j) → p * 16 + j ∈ t.cel.held
  | 0, _ => ⟨h, fun _ _ => rfl, fun _ _ _ => rfl, fun j hj => absurd hj (by omega)⟩
  | n + 1, hn => by
    obtain ⟨wf, kept, later, held⟩ := State.failCells_effect h hp (n := n) (by omega)
    have hstate := later n (by omega) (by omega)
    rw [State.failCells_succ]
    by_cases works : s.works (p * 16 + n)
    case neg =>
      rw [State.failCell_gone (by rw [hstate]; exact not_not.mp works)]
      refine ⟨wf, kept, fun j hj hle => later j hj (by omega), fun j hj hw => held j ?_ hw⟩
      have : j ≠ n := fun e => works (e ▸ hw)
      omega
    case pos =>
      have failed := State.failCell_failed wf (c := p * 16 + n) (by omega) (by rw [hstate]; exact works) 1 0x11
      refine ⟨failed.wf, fun o ho => ?_, fun j hj hle => ?_, fun j hj hw => ?_⟩
      · rw [failed.word _ (.inr (rCkg_outside o ho).2) (rCkg_not_mem_failWords ho (by omega) (Nat.mod_lt _ (by omega))), kept o ho]
      · rw [failed.cellState_other (by omega) (by omega) (by omega), later j hj (by omega)]
      · rw [failed.held, mem_insertNat]
        by_cases e : j = n
        · exact .inl (by rw [e])
        · exact .inr (held j (by omega) hw)

theorem exec_pllRelock_locked (hb : s.bit (rDom d) 18 = false) : exec (.pllRelock d) s = .next s := by
  change execPllRelock d s = _
  simp [execPllRelock, hb]

theorem exec_pllRelock_lost (hb : s.bit (rDom d) 18 = true) :
    exec (.pllRelock d) s = .next (if d.val < 16 then ((s.setBit (rDom d) 16 true).setBit (rDom d) 18 false).failCells d 16
      else (s.setBit (rDom d) 16 true).setBit (rDom d) 18 false) := by
  change execPllRelock d s = _
  simp only [execPllRelock, hb, Bool.not_true, Bool.false_eq_true, if_false]
  rfl

theorem runs_pllRelock (h : regsWf s.regs = true) (hb : s.bit (rDom d) 18 = true) : Runs (.pllRelock d) s fun t =>
    t.bit (rDom d) 16 = true ∧ t.bit (rDom d) 18 = false ∧
    (16 ≤ d.val → RegsBut [rDom d] s t ∧ t.mem = s.mem ∧ t.cel = s.cel) ∧
    (d.val < 16 → ∀ j, j < 16 → let c := d.val * 16 + j
      s.cellState c ≠ csABSENT → s.cellState c ≠ csOFF → s.cellState c ≠ csSUBST → t.cel.held.contains c = true) := by
  have k1 := (RegsOnly.refl (l := [rDom d]) h).setBit (a := rDom d) 16 true (by simp)
  have k2 := k1.setBit (a := rDom d) 18 false (by simp)
  have runs : ((s.setBit (rDom d) 16 true).setBit (rDom d) 18 false).bit (rDom d) 16 = true :=
    (State.bit_setBit_apart k1.wf _ (by omega) (by omega)).trans (State.bit_setBit_same h true (by omega))
  have locked : ((s.setBit (rDom d) 16 true).setBit (rDom d) 18 false).bit (rDom d) 18 = false :=
    State.bit_setBit_same k1.wf false (by omega)
  generalize hu : (s.setBit (rDom d) 16 true).setBit (rDom d) 18 false = u at *
  refine .of_exec (exec_pllRelock_lost hb) ?_
  rw [hu]
  by_cases hd : d.val < 16
  case neg =>
    rw [if_neg hd]
    exact ⟨runs, locked, fun _ => ⟨k2.word, k2.mem, k2.cel⟩, fun hlt => absurd hlt hd⟩
  case pos =>
    rw [if_pos hd]
    obtain ⟨-, kept, -, held⟩ := State.failCells_effect k2.wf hd (n := 16) (by omega)
    have hword : (u.failCells d 16).word (rDom d) = u.word (rDom d) := kept _ (by omega)
    refine ⟨(congrArg (bitOf · 16) hword).trans runs, (congrArg (bitOf · 18) hword).trans locked, fun hle => absurd hd (by omega), ?_⟩
    intro _ j hj c habs hoff hsub
    rw [List.contains_iff_mem]
    refine held j hj ?_
    have hstate : u.cellState (d.val * 16 + j) = s.cellState (d.val * 16 + j) := by
      refine k2.fld 3 0 ?_
      rw [List.mem_singleton]
      unfold rCell rCel rDom rCkg blkBase bCEL bCKG
      omega
    rw [State.works, hstate]
    rintro (e | e | e)
    · exact habs e
    · exact hoff e
    · exact hsub e

end

/-! Sync and deskew of a port's PHY (R103, R105). -/

theorem exec_phySyncChange_off {p : Fin 16} {x y : Bool} (hp : s.bit (rSfePort p 0) 0 = false ∨ 2 ≤ s.fld (rSfePort p 0) 2 1) :
    exec (.phySyncChange p x y) s = .next s := by
  change execPhySyncChange p x y s = _
  refine if_pos ?_
  rcases hp with hp | hp
  · simp [hp]
  · simp [show ¬s.fld (rSfePort p 0) 2 1 ≤ 1 by omega]

theorem runs_phySyncChange {p : Fin 16} {x y : Bool} (h : regsWf s.regs = true) (hon : s.bit (rSfePort p 0) 0 = true)
    (hkind : s.fld (rSfePort p 0) 2 1 ≤ 1) : Runs (.phySyncChange p x y) s fun t =>
      t.bit (rSfePort p 4) 0 = x ∧ t.bit (rSfePort p 4) 1 = y ∧ RegsBut [rSfePort p 4] s t ∧ t.mem = s.mem ∧ t.sfe = s.sfe := by
  have k1 := (RegsOnly.refl (l := [rSfePort p 4]) h).setBit (a := rSfePort p 4) 0 x (by simp)
  have k2 := k1.setBit (a := rSfePort p 4) 1 y (by simp)
  have e : exec (.phySyncChange p x y) s = .next ((s.setBit (rSfePort p 4) 0 x).setBit (rSfePort p 4) 1 y) := by
    change execPhySyncChange p x y s = _
    refine if_neg ?_
    simp [hon, hkind]
  refine .of_exec e ⟨?_, State.bit_setBit_same k1.wf y (by omega), k2.word, k2.mem, ?_⟩
  · exact (State.bit_setBit_apart k1.wf y (by omega) (by omega)).trans (State.bit_setBit_same h x (by omega))
  · obtain ⟨r, e⟩ := k2.rest
    rw [e]

end Sys2Proof.Machine

open Sys2Proof Sys2Proof.Machine

/-- Settles O40: each failure and return, each lost lock and relock, and the sync of a port, by its own lemma. -/
theorem clockFailuresAndPllsShowAndRecord : Obligations.ClockFailuresAndPllsShowAndRecord := by
  unfold Obligations.ClockFailuresAndPllsShowAndRecord
  refine ⟨?clocks, ?plls, ?phys⟩
  case clocks =>
    intro s hcan
    obtain ⟨-, h⟩ := State.canonical_iff.mp hcan
    exact ⟨runs_refclkLoss h, runs_refclkRecover h, runs_ptpRefinFail h, runs_ptpRefinRecover h, runs_safeXinFail h, runs_safeXinReturn h⟩
  case plls =>
    intro s d hcan
    obtain ⟨-, h⟩ := State.canonical_iff.mp hcan
    exact ⟨runs_pllLockLoss h, exec_pllRelock_locked, runs_pllRelock h⟩
  case phys =>
    intro s p x y hcan
    obtain ⟨-, h⟩ := State.canonical_iff.mp hcan
    exact ⟨exec_phySyncChange_off, runs_phySyncChange h⟩

end

section
/-! PROOF. Thread accesses of the tile store: the issue of an instruction that accesses memory, its lanes, and what loads and stores of
the lanes do (R184, R198, R203). -/

namespace Sys2Proof.Machine

/-! Issue (R184). -/

section

variable {s t : State} {c g w : Nat} {want : Nat → Bool} {f : State → CGroup → Nat → MemRes}

theorem State.issueMem_exc {e : Exc} (h : s.atWord c g w) (hw : want w = true) (hf : f s (s.group c g).issuing w = .exc t e) :
    s.issueMem c g want f = t.syncExc c g w e := by
  rw [State.issueMem, State.nextWord_of_atWord h hw]
  unfold CGroup.issuing at hf
  simp only [hf]

theorem State.issueMem_done (h : s.atWord c g w) (hw : want w = true) (hf : f s (s.group c g).issuing w = .done t) :
    s.issueMem c g want f = t := by
  rw [State.issueMem, State.nextWord_of_atWord h hw]
  unfold CGroup.issuing at hf
  simp only [hf]

end

/-- The group alone is written. -/
theorem State.groupOnly_setGroup (s : State) (c g : Nat) (q : CGroup) : GroupOnly c g s (s.setGroup c g q) := by
  refine ⟨rfl, fun _ _ => rfl, fun k hk => fmGetD_fmPut_other _ _ _ hk, fun k hk => ?_⟩
  rw [State.group, State.setGroup, State.cell_modCell_same]
  exact fmGetD_fmPut_other _ _ _ hk

/-! Lanes. -/

theorem mem_lanesOf {m l : Nat} : l ∈ lanesOf m ↔ l < 64 ∧ bitOf m l = true := by
  simp [lanesOf, setBitsList]

theorem lanesOf_two_pow {l : Nat} (h : l < 64) : lanesOf (2 ^ l) = [l] := by
  have hbit : (fun k => bitOf (2 ^ l) k) = fun k => k == l := by
    funext k
    rw [bitOf_eq, Nat.testBit_two_pow, Bool.beq_comm]
    rfl
  rw [lanesOf, setBitsList, hbit, List.filter_beq, List.count_eq_one_of_mem List.nodup_range (List.mem_range.mpr h)]
  rfl

theorem byLane_length (l : List (Nat × Nat)) : (byLane l).length = 64 := by simp [byLane]

theorem find?_lane (f : Nat → Nat) (k : Nat) : ∀ {l : List Nat}, k ∈ l →
    (l.map fun j => (j, f j)).find? (fun p => p.1 = k) = some (k, f k)
  | j :: r, h => by
    by_cases e : j = k
    · simp [e]
    · simp only [List.map_cons]
      rw [List.find?_cons_of_neg (by simpa using e)]
      exact find?_lane f k ((List.mem_cons.mp h).resolve_left fun x => e x.symm)

/-- A lane that is listed reads its value. -/
theorem byLane_getD {l : List Nat} {k : Nat} (h : k ∈ l) (hk : k < 64) (f : Nat → Nat) :
    (byLane (l.map fun j => (j, f j))).getD k 0 = f k := by
  rw [byLane, List.getD_eq_getElem?_getD, List.getElem?_map, List.getElem?_range hk, Option.map_some, find?_lane f k h]
  rfl

/-! The accesses of the lanes in the tile store. -/

theorem tsAddr_inj {c a b : Nat} : tsAddr c a = tsAddr c b ↔ a = b := by
  unfold tsAddr
  omega

/-- The access of a lane. -/
def CGroup.tsAcc (q : CGroup) (c w l : Nat) : LaneAcc := ⟨l, q.laneAddr false w l, tsAddr c (q.laneAddr false w l)⟩

/-- One lane's access is formed after those of the lanes below it. -/
def CGroup.tsStep (q : CGroup) (c w n : Nat) (r : State × Except Exc (List LaneAcc)) (l : Nat) : State × Except Exc (List LaneAcc) :=
  match r with
  | (s, .error e) => (s, .error e)
  | (s, .ok done) =>
    match tsAccess (q.laneAddr false w l) n with
    | .error e => (s, .error (.lane_ e (q.laneAddr false w l) l))
    | .ok _ => (s, .ok (done ++ [q.tsAcc c w l]))

section

variable {s : State} {c w n act : Nat} {q : CGroup}

theorem State.laneAccs_tile (acc : Nat) : s.laneAccs c q false w act acc n = (lanesOf act).foldl (q.tsStep c w n) (s, .ok []) := by
  unfold State.laneAccs
  congr 1

theorem CGroup.foldl_tsStep : ∀ (l : List Nat) (done : List LaneAcc), (∀ j ∈ l, tsAccess (q.laneAddr false w j) n = .ok ()) →
    l.foldl (q.tsStep c w n) (s, .ok done) = (s, .ok (done ++ l.map (q.tsAcc c w)))
  | [], done, _ => by simp
  | j :: r, done, h => by
    have step : q.tsStep c w n (s, .ok done) j = (s, .ok (done ++ [q.tsAcc c w j])) := by
      simp only [CGroup.tsStep, h j List.mem_cons_self]
    rw [List.foldl_cons, step, CGroup.foldl_tsStep r _ fun k hk => h k (List.mem_cons_of_mem _ hk)]
    simp

/-- The accesses when each active lane's address is aligned and inside. -/
theorem State.laneAccs_ok (acc : Nat) (h : ∀ l, l < 64 → bitOf act l = true → tsAccess (q.laneAddr false w l) n = .ok ()) :
    s.laneAccs c q false w act acc n = (s, .ok ((lanesOf act).map (q.tsAcc c w))) := by
  rw [State.laneAccs_tile, CGroup.foldl_tsStep _ _ fun j hj => h j (mem_lanesOf.mp hj).1 (mem_lanesOf.mp hj).2]
  rfl

/-- The one active lane's address is misaligned or outside. -/
theorem State.laneAccs_error {l e : Nat} (acc : Nat) (hl : l < 64) (h : tsAccess (q.laneAddr false w l) n = .error e) :
    s.laneAccs c q false w (2 ^ l) acc n = (s, .error (.lane_ e (q.laneAddr false w l) l)) := by
  rw [State.laneAccs_tile, lanesOf_two_pow hl]
  simp only [List.foldl_cons, List.foldl_nil, CGroup.tsStep, h]

end

/-! Loads (R203). -/

section

variable {s : State} {c n : Nat}

/-- What the loads have read so far of the tile store of cell c. -/
structure LoadsFrom (s : State) (c n : Nat) (r : LoadRun) : Prop where
  same : r.s = s
  clean : r.err = none
  read : ∀ a v, fmGet r.got (tsAddr c a) = some v → v = (s.tsNat c a n, s.tsBad c a n)

theorem LoadsFrom.load {r : LoadRun} (h : LoadsFrom s c n r) {x : LaneAcc} (hx : x.pa = tsAddr c x.addr) :
    LoadsFrom s c n (r.load c false n x) ∧ (fmGet (r.load c false n x).got x.pa).isSome = true ∧
      ∀ p, (fmGet r.got p).isSome = true → (fmGet (r.load c false n x).got p).isSome = true := by
  by_cases known : (fmGet r.got x.pa).isSome = true
  case pos =>
    have e : r.load c false n x = r := if_pos known
    rw [e]
    exact ⟨h, known, fun _ hp => hp⟩
  case neg =>
    have e : r.load c false n x = { r with got := fmPut r.got x.pa (s.tsNat c x.addr n, s.tsBad c x.addr n) } := by
      rw [← h.same]
      exact if_neg known
    rw [e]
    refine ⟨⟨h.same, h.clean, fun a v hv => ?_⟩, ?_, fun p hp => ?_⟩
    · by_cases ha : a = x.addr
      · rw [hx, ha, fmGet_fmPut_same] at hv
        rw [ha, Option.some.inj hv]
      · refine h.read a v ?_
        rwa [hx, fmGet_fmPut_other _ _ fun k => ha (tsAddr_inj.mp k)] at hv
    · rw [fmGet_fmPut_same]
      rfl
    · by_cases hpx : p = x.pa
      · rw [hpx, fmGet_fmPut_same]
        rfl
      · rwa [fmGet_fmPut_other _ _ hpx]

theorem LoadsFrom.loads : ∀ (l : List LaneAcc) {r : LoadRun}, LoadsFrom s c n r → (∀ x ∈ l, x.pa = tsAddr c x.addr) →
    LoadsFrom s c n (l.foldl (fun r x => r.load c false n x) r) ∧
      ∀ p, (fmGet r.got p).isSome = true ∨ (∃ x ∈ l, x.pa = p) →
        (fmGet (l.foldl (fun r x => r.load c false n x) r).got p).isSome = true
  | [], r, h, _ => ⟨h, fun p hp => hp.resolve_right (by simp)⟩
  | x :: l, r, h, hl => by
    obtain ⟨h1, hread, hkept⟩ := h.load (hl x List.mem_cons_self)
    obtain ⟨h2, hall⟩ := LoadsFrom.loads l h1 fun y hy => hl y (List.mem_cons_of_mem _ hy)
    refine ⟨h2, fun p hp => hall p ?_⟩
    rcases hp with hp | ⟨y, hy, rfl⟩
    · exact .inl (hkept p hp)
    · rcases List.mem_cons.mp hy with rfl | hy
      · exact .inl hread
      · exact .inr ⟨y, hy, rfl⟩

/-- The loads of the tile store of a list of lanes. -/
def State.tsLoads (s : State) (c n : Nat) (l : List LaneAcc) : LoadRun := l.foldl (fun r x => LoadRun.load r c false n x) ⟨s, [], none⟩

/-- The loads of the lanes leave the state alone, and each lane gets the bytes at its address. -/
theorem State.tsLoads_lanes (s : State) (c n w : Nat) (q : CGroup) (l : List Nat) :
    let r := s.tsLoads c n (l.map (q.tsAcc c w))
    r.s = s ∧ r.err = none ∧ ∀ j ∈ l, fmGetD (0, false) r.got (q.tsAcc c w j).pa =
      (s.tsNat c (q.laneAddr false w j) n, s.tsBad c (q.laneAddr false w j) n) := by
  have start : LoadsFrom s c n ⟨s, [], none⟩ := ⟨rfl, rfl, fun a v hv => by cases hv⟩
  obtain ⟨h, hall⟩ := LoadsFrom.loads (l.map (q.tsAcc c w)) start fun x hx => by
    obtain ⟨j, -, rfl⟩ := List.mem_map.mp hx
    rfl
  refine ⟨h.same, h.clean, fun j hj => ?_⟩
  obtain ⟨v, hv⟩ := Option.isSome_iff_exists.mp (hall _ (.inr ⟨_, List.mem_map_of_mem hj, rfl⟩))
  refine (congrArg (Option.getD · (0, false)) hv).trans ?_
  exact h.read _ v hv

end

/-! TLD. -/

section

variable {s : State} {c g w : Nat} {q : CGroup}

/-- What the active lanes load, widened to 32 bits. -/
def State.tldValue (s : State) (c : Nat) (q : CGroup) (w l : Nat) : Nat :=
  widen (wSX w) (accBytes w) 32 (s.tsNat c (q.laneAddr false w l) (accBytes w))

theorem State.tld_tile (hfab : wFab w = false) (hsize : wSize w < 3) (hchk : threadMem (s.ctx c g) false q w = .ok ())
    (hacc : ∀ l, l < 64 → bitOf (q.active w) l = true → tsAccess (q.laneAddr false w l) (accBytes w) = .ok ()) :
    ∃ bad, s.tld c g q w = .done (s.setGroup c g (q.setT (wDst w) (q.active w)
      (byLane ((lanesOf (q.active w)).map fun l => (l, s.tldValue c q w l))) bad).past) := by
  obtain ⟨hs, herr, hgot⟩ := s.tsLoads_lanes c (accBytes w) w q (lanesOf (q.active w))
  have hsize3 : ¬wSize w = 3 := by omega
  unfold State.tld
  simp only [hchk, hfab, State.laneAccs_ok _ hacc, State.accsHeld, Bool.false_and, Bool.false_eq_true, if_false, hsize3]
  generalize hr : List.foldl _ (⟨s, [], none⟩ : LoadRun) _ = r
  have hr' : s.tsLoads c (accBytes w) ((lanesOf (q.active w)).map (q.tsAcc c w)) = r := hr
  rw [hr'] at hs herr hgot
  simp only [herr, hs]
  refine ⟨_, congrArg (fun v => MemRes.done (s.setGroup c g (q.setT (wDst w) (q.active w) (byLane v) _).past)) ?_⟩
  rw [List.map_map, List.map_map]
  refine List.map_congr_left fun j hj => ?_
  exact congrArg (fun v => (j, widen (wSX w) (accBytes w) 32 v.1)) (hgot j hj)

theorem State.tld_error {l e : Nat} (hfab : wFab w = false) (hchk : threadMem (s.ctx c g) false q w = .ok ()) (hl : l < 64)
    (hact : q.active w = 2 ^ l) (hacc : tsAccess (q.laneAddr false w l) (accBytes w) = .error e) :
    s.tld c g q w = .exc s (.lane_ e (q.laneAddr false w l) l) := by
  unfold State.tld
  simp only [hchk, hfab, hact, State.laneAccs_error _ hl hacc]

end

/-! Stores of the lanes (R145). -/

/-- Only memory differs, which is in its canonical form and holds no poison. -/
structure MemOnly (s t : State) : Prop where
  wf : Memory.wf t.mem = true
  clean : t.poison = []
  rest : ∃ m, t = { s with mem := m }

namespace MemOnly

variable {s t : State}

theorem refl (h : Memory.wf s.mem = true) (hp : s.poison = []) : MemOnly s s := ⟨h, hp, _, rfl⟩

theorem regs (h : MemOnly s t) : t.regs = s.regs := by
  obtain ⟨m, rfl⟩ := h.rest
  rfl

theorem tsWrite (h : MemOnly s t) (c a : Nat) (l : List Byte) : MemOnly s (t.tsWrite c a l false) := by
  obtain ⟨m, rfl⟩ := h.rest
  have hp : s.poison = [] := h.clean
  have e : ({ s with mem := m } : State).store (tsAddr c a) l = { s with mem := stPutRun memDefault m (tsAddr c a) l } := by
    simp [State.store, hp]
  rw [State.tsWrite, State.memPut_of_nil h.clean]
  exact ⟨State.store_memWf h.wf _ _, State.store_poison_of_nil h.clean _ _, _, e⟩

theorem byte_tsWrite (h : MemOnly s t) {c a b : Nat} {l : List Byte} (hb : b < tsAddr c a ∨ tsAddr c a + l.length ≤ b) :
    (t.tsWrite c a l false).byte b = t.byte b := by
  rw [State.tsWrite, State.memPut_of_nil h.clean]
  exact State.byte_store_outside h.wf hb

theorem bytes_tsWrite_same (h : MemOnly s t) (c a : Nat) (l : List Byte) : (t.tsWrite c a l false).bytes (tsAddr c a) l.length = l := by
  rw [State.tsWrite, State.memPut_of_nil h.clean]
  exact State.bytes_store h.wf _ _

end MemOnly

theorem State.bytes_of_byte {s t : State} {a n : Nat} (h : ∀ i, i < n → t.byte (a + i) = s.byte (a + i)) : t.bytes a n = s.bytes a n :=
  List.map_congr_left fun i hi => h i (List.mem_range.mp hi)

/-- What a lane stores: its access, its bytes and their poison. -/
abbrev LaneStore := LaneAcc × List Byte × Bool

/-- The stores of a list of lanes to the tile store, in order. -/
def State.tsStores (s : State) (c : Nat) (l : List LaneStore) : State := l.foldl (fun s x => s.tsWrite c x.1.addr x.2.1 x.2.2) s

/-- No lane above stores at the address. -/
def lastLane (l : List LaneStore) (x : LaneAcc) : Bool := !l.any fun y => decide (y.1.addr = x.addr) && decide (x.lane < y.1.lane)

section

variable {s t : State} {c n : Nat}

theorem State.storeLanes_tile (s : State) (c : Nat) (l : List LaneStore) :
    s.storeLanes c false l = (s.tsStores c (l.filter fun x => lastLane l x.1), none) := by
  have fold (r : List LaneStore) (s : State) :
      r.foldl (fun (r : State × Option Nat) x => (r.1.tsWrite c x.1.addr x.2.1 x.2.2, r.2)) (s, none) = (s.tsStores c r, none) := by
    induction r generalizing s with
    | nil => rfl
    | cons x r ih => exact ih _
  exact fold (l.filter fun x => lastLane l x.1) s

/-- The lanes' bytes are clean, n for each. -/
def CleanStores (n : Nat) (l : List LaneStore) : Prop := ∀ x ∈ l, x.2.1.length = n ∧ x.2.2 = false

theorem MemOnly.tsStores : ∀ (l : List LaneStore) {t : State}, MemOnly s t → CleanStores n l → MemOnly s (t.tsStores c l)
  | [], _, h, _ => h
  | x :: l, t, h, hl => by
    obtain ⟨-, hx⟩ := hl x List.mem_cons_self
    have h1 := h.tsWrite c x.1.addr x.2.1
    rw [← hx] at h1
    exact MemOnly.tsStores l h1 fun y hy => hl y (List.mem_cons_of_mem _ hy)

/-- A byte that no lane stores. -/
theorem MemOnly.byte_tsStores {b : Nat} : ∀ (l : List LaneStore) {t : State}, MemOnly s t → CleanStores n l →
    (∀ x ∈ l, b < tsAddr c x.1.addr ∨ tsAddr c x.1.addr + n ≤ b) → (t.tsStores c l).byte b = t.byte b
  | [], _, _, _, _ => rfl
  | x :: l, t, h, hl, hb => by
    obtain ⟨hlen, hx⟩ := hl x List.mem_cons_self
    have hb' := hb x List.mem_cons_self
    rw [← hlen] at hb'
    have h1 := h.tsWrite c x.1.addr x.2.1
    have first := h.byte_tsWrite hb'
    rw [← hx] at h1 first
    exact (MemOnly.byte_tsStores l h1 (fun y hy => hl y (List.mem_cons_of_mem _ hy)) fun y hy =>
      hb y (List.mem_cons_of_mem _ hy)).trans first

/-- The bytes that a lane stores, where no other lane stores over them. -/
theorem MemOnly.bytes_tsStores {x : LaneStore} (hlen : x.2.1.length = n) : ∀ (l : List LaneStore) {t : State},
    MemOnly s t → CleanStores n l →
    (∀ y ∈ l, y = x ∨ tsAddr c y.1.addr + n ≤ tsAddr c x.1.addr ∨ tsAddr c x.1.addr + n ≤ tsAddr c y.1.addr) →
    x ∈ l ∨ t.bytes (tsAddr c x.1.addr) n = x.2.1 → (t.tsStores c l).bytes (tsAddr c x.1.addr) n = x.2.1
  | [], _, _, _, _, hx => hx.resolve_left (by simp)
  | y :: l, t, h, hl, hy, hx => by
    obtain ⟨hylen, hyclean⟩ := hl y List.mem_cons_self
    have h1 := h.tsWrite c y.1.addr y.2.1
    have next (hn : x ∈ l ∨ (t.tsWrite c y.1.addr y.2.1 false).bytes (tsAddr c x.1.addr) n = x.2.1) :
        (t.tsStores c (y :: l)).bytes (tsAddr c x.1.addr) n = x.2.1 := by
      rw [← hyclean] at h1 hn
      exact MemOnly.bytes_tsStores hlen l h1 (fun z hz => hl z (List.mem_cons_of_mem _ hz))
        (fun z hz => hy z (List.mem_cons_of_mem _ hz)) hn
    by_cases e : y = x
    case pos =>
      refine next (.inr ?_)
      have same := h.bytes_tsWrite_same c y.1.addr y.2.1
      rw [hylen, e] at same
      rw [e]
      exact same
    case neg =>
      have apart := (hy y List.mem_cons_self).resolve_left e
      rcases hx with hx | hx
      · exact next (.inl ((List.mem_cons.mp hx).resolve_left fun k => e k.symm))
      · refine next (.inr ((State.bytes_of_byte fun i hi => h.byte_tsWrite ?_).trans hx))
        omega

/-- Aligned addresses of one size are equal or apart. -/
theorem aligned_apart {a b : Nat} (ha : tsAccess a n = .ok ()) (hb : tsAccess b n = .ok ()) (hne : a ≠ b) :
    a + n ≤ b ∨ b + n ≤ a := by
  have aligned {x : Nat} (hx : tsAccess x n = .ok ()) : x % n = 0 := by
    by_contra h
    rw [tsAccess, if_pos h] at hx
    cases hx
  obtain ⟨i, rfl⟩ := Nat.dvd_of_mod_eq_zero (aligned ha)
  obtain ⟨j, rfl⟩ := Nat.dvd_of_mod_eq_zero (aligned hb)
  rcases Nat.lt_or_gt_of_ne (fun e : i = j => hne (by rw [e])) with h | h
  · exact .inl (by rw [← Nat.mul_succ]; exact Nat.mul_le_mul_left n h)
  · exact .inr (by rw [← Nat.mul_succ]; exact Nat.mul_le_mul_left n h)

/-- What lane l of a store of thread register d stores. -/
def CGroup.laneStore (q : CGroup) (c w l : Nat) : LaneStore := (q.tsAcc c w l, leBytes (accBytes w) ((q.treg (wDst w)).getD l 0), false)

/-- The stores of the active lanes. -/
def CGroup.laneStores (q : CGroup) (c w : Nat) : List LaneStore := (lanesOf (q.active w)).map (q.laneStore c w)

theorem CGroup.cleanStores (q : CGroup) (c w : Nat) : CleanStores (accBytes w) (q.laneStores c w) := by
  intro x hx
  obtain ⟨l, -, rfl⟩ := List.mem_map.mp hx
  exact ⟨leBytes_length _ _, rfl⟩

/-- The stores that a TST performs: of several lanes with one address the highest one's. -/
def CGroup.lastStores (q : CGroup) (c w : Nat) : List LaneStore :=
  (q.laneStores c w).filter fun x => lastLane (q.laneStores c w) x.1

variable {g w : Nat} {q : CGroup}

theorem State.tst_tile (hfab : wFab w = false) (hsize : wSize w < 3) (hchk : threadMem (s.ctx c g) true q w = .ok ())
    (hbad : q.tbad (wDst w) = 0)
    (hacc : ∀ l, l < 64 → bitOf (q.active w) l = true → tsAccess (q.laneAddr false w l) (accBytes w) = .ok ()) :
    s.tst c g q w = .done ((s.tsStores c (q.lastStores c w)).setGroup c g q.past) := by
  have hsize3 : ¬wSize w = 3 := by omega
  have hclean (l : Nat) : bitOf 0 l = false := by simp [bitOf_eq]
  unfold State.tst
  simp only [hchk, hfab, State.laneAccs_ok _ hacc, State.accsHeld, Bool.false_and, Bool.false_eq_true, if_false, hsize3, hbad, hclean,
    Nat.add_zero, decide_false, Bool.or_false, List.map_map]
  have hlist : (lanesOf (q.active w)).map ((fun a => (a, leBytes (accBytes w) ((q.treg (wDst w)).getD a.lane 0), false)) ∘ q.tsAcc c w) =
      q.laneStores c w := rfl
  rw [hlist, State.storeLanes_tile]
  rfl

/-- The store of a lane that no lane above shares its address with is performed. -/
theorem CGroup.laneStore_mem_lastStores {l : Nat} (hl : l < 64) (hact : bitOf (q.active w) l = true)
    (hlast : ∀ k, l < k → k < 64 → bitOf (q.active w) k = true → q.laneAddr false w k ≠ q.laneAddr false w l) :
    q.laneStore c w l ∈ q.lastStores c w := by
  refine List.mem_filter.mpr ⟨List.mem_map_of_mem (mem_lanesOf.mpr ⟨hl, hact⟩), ?_⟩
  rw [lastLane, Bool.not_eq_true', List.any_eq_false]
  intro y hy
  obtain ⟨k, hk, rfl⟩ := List.mem_map.mp hy
  obtain ⟨hk64, hkact⟩ := mem_lanesOf.mp hk
  simp only [Bool.and_eq_true, decide_eq_true_eq, not_and]
  exact fun haddr hlt => hlast k hlt hk64 hkact haddr

/-- A store performed is that of lane l, or of another address. -/
theorem CGroup.lastStores_addr {l : Nat} (hl : l < 64) (hact : bitOf (q.active w) l = true)
    (hlast : ∀ k, l < k → k < 64 → bitOf (q.active w) k = true → q.laneAddr false w k ≠ q.laneAddr false w l) {y : LaneStore}
    (hy : y ∈ q.lastStores c w) :
    y = q.laneStore c w l ∨ ∃ k, k < 64 ∧ bitOf (q.active w) k = true ∧ y.1.addr = q.laneAddr false w k ∧
      q.laneAddr false w k ≠ q.laneAddr false w l := by
  obtain ⟨hmem, hylast⟩ := List.mem_filter.mp hy
  obtain ⟨k, hk, rfl⟩ := List.mem_map.mp hmem
  obtain ⟨hk64, hkact⟩ := mem_lanesOf.mp hk
  rcases Nat.lt_trichotomy k l with hlt | rfl | hlt
  · refine .inr ⟨k, hk64, hkact, rfl, fun haddr => ?_⟩
    rw [lastLane, Bool.not_eq_true', List.any_eq_false] at hylast
    refine hylast (q.laneStore c w l) (List.mem_map_of_mem (mem_lanesOf.mpr ⟨hl, hact⟩)) ?_
    simp only [Bool.and_eq_true, decide_eq_true_eq]
    exact ⟨haddr.symm, hlt⟩
  · exact .inl rfl
  · exact .inr ⟨k, hk64, hkact, rfl, hlast k hlt hk64 hkact⟩

/-- What a TST leaves in memory. -/
theorem State.tsStores_lastStores (h : Memory.wf s.mem = true) (hp : s.poison = [])
    (hacc : ∀ l, l < 64 → bitOf (q.active w) l = true → tsAccess (q.laneAddr false w l) (accBytes w) = .ok ()) :
    let t := s.tsStores c (q.lastStores c w)
    MemOnly s t ∧
      (∀ l, l < 64 → bitOf (q.active w) l = true →
        (∀ k, l < k → k < 64 → bitOf (q.active w) k = true → q.laneAddr false w k ≠ q.laneAddr false w l) →
        t.bytes (tsAddr c (q.laneAddr false w l)) (accBytes w) = leBytes (accBytes w) ((q.treg (wDst w)).getD l 0)) ∧
      ∀ a, (∀ l, l < 64 → bitOf (q.active w) l = true →
          a < tsAddr c (q.laneAddr false w l) ∨ tsAddr c (q.laneAddr false w l) + accBytes w ≤ a) → t.byte a = s.byte a := by
  have start := MemOnly.refl h hp
  have clean : CleanStores (accBytes w) (q.lastStores c w) := fun x hx => q.cleanStores c w x (List.mem_of_mem_filter hx)
  refine ⟨start.tsStores _ clean, fun l hl hact hlast => ?_, fun a ha => start.byte_tsStores _ clean fun x hx => ?_⟩
  · refine MemOnly.bytes_tsStores (x := q.laneStore c w l) (leBytes_length _ _) _ start clean (fun y hy => ?_)
      (.inl (CGroup.laneStore_mem_lastStores hl hact hlast))
    rcases CGroup.lastStores_addr hl hact hlast hy with e | ⟨k, hk, hkact, haddr, hne⟩
    · exact .inl e
    · refine .inr ?_
      have apart := aligned_apart (hacc k hk hkact) (hacc l hl hact) hne
      change tsAddr c y.1.addr + accBytes w ≤ tsAddr c (q.laneAddr false w l) ∨
        tsAddr c (q.laneAddr false w l) + accBytes w ≤ tsAddr c y.1.addr
      rw [haddr]
      unfold tsAddr
      omega
  · obtain ⟨l, hl, rfl⟩ := List.mem_map.mp (List.mem_of_mem_filter hx)
    exact ha l (mem_lanesOf.mp hl).1 (mem_lanesOf.mp hl).2

end

end Sys2Proof.Machine
end

section
/-! PROOF. Thread loads, stores and atomics of the tile store, and texture samples (O22). -/

namespace Sys2Proof.Machine

/-! Atomics of one lane (R201). -/

theorem leNat_lt : ∀ l : List Byte, leNat l < 256 ^ l.length
  | [] => by simp [leNat]
  | b :: r => by
    have hb := b.isLt
    have hr := leNat_lt r
    rw [leNat, List.length_cons, Nat.pow_succ]
    omega

theorem State.tsNat_lt (s : State) (c a n : Nat) : s.tsNat c a n < 256 ^ n := by
  have h := leNat_lt (s.tsBytes c a n)
  rwa [State.tsBytes_length] at h

section

variable {s : State} {c g w l a : Nat} {q : CGroup}

/-- A group past an atomic of lane l that returned the word old. -/
def CGroup.atomPast (q : CGroup) (w l old : Nat) (bad : Nat) : CGroup := (q.setT (wDst w) (2 ^ l) (byLane [(l, old)]) bad).past

/-- The one access of an atomic. -/
theorem State.laneAccs_one (hl : l < 64) (ha : q.laneAddr false w l = a) (hacc : tsAccess a 4 = .ok ()) :
    s.laneAccs c q false w (2 ^ l) 4 4 = (s, .ok [⟨l, a, tsAddr c a⟩]) := by
  rw [State.laneAccs_ok, lanesOf_two_pow hl, List.map_singleton, CGroup.tsAcc, ha]
  intro k hk hbit
  have e : k = l := by
    rw [bitOf_eq, Nat.testBit_two_pow] at hbit
    exact (of_decide_eq_true hbit).symm
  rw [e, ha, hacc]

/-- An atomic other than CAS. -/
theorem State.tatom_tile (hfab : bitOf w 29 = false) (hfn : wFn w ≠ 9) (hchk : atomChecks (s.ctx c g) q w = .ok ()) (hl : l < 64)
    (hact : q.active w = 2 ^ l) (ha : q.laneAddr false w l = a) (hacc : tsAccess a 4 = .ok ()) (hp : s.poison = [])
    (hbad : q.tbad (wDst w + 1) = 0) :
    ∃ bad, s.tatom c g q w =
      .done ((s.tsWrite c a (leBytes 4 (atomFn (wFn w) (s.tsNat c a 4) ((q.treg (wDst w + 1)).getD l 0))) false).setGroup c g
        (q.atomPast w l (s.tsNat c a 4) bad)) := by
  have hclean : bitOf 0 l = false := by simp [bitOf_eq]
  have hwas : s.tsBad c a 4 = false := State.poisoned_of_nil hp _ _
  unfold State.tatom
  simp only [hchk, hfab, hact, State.laneAccs_one hl ha hacc, State.accsHeld, Bool.false_and, Bool.false_eq_true, if_false, hfn, hbad,
    List.foldl_cons, List.foldl_nil, State.atomTs, decide_false, hclean, hwas, Bool.or_self]
  exact ⟨_, rfl⟩

/-- CAS stores only when the word compares equal. -/
def State.casWrite (s : State) (c a cmp v : Nat) : State := if s.tsNat c a 4 = cmp then s.tsWrite c a (leBytes 4 v) false else s

theorem State.casWrite_effect (hwf : Memory.wf s.mem = true) (hp : s.poison = []) (c a cmp v : Nat) :
    let t := s.casWrite c a cmp v
    t.bytes (tsAddr c a) 4 = (if s.tsNat c a 4 = cmp then leBytes 4 v else s.bytes (tsAddr c a) 4) ∧
      MemoryBut (tsAddr c a) 4 s t ∧ t.regs = s.regs := by
  have start := MemOnly.refl hwf hp
  dsimp only
  unfold State.casWrite
  split
  case isTrue =>
    have stored := start.bytes_tsWrite_same c a (leBytes 4 v)
    rw [leBytes_length] at stored
    exact ⟨stored, fun b hb => start.byte_tsWrite (by rwa [leBytes_length]), (start.tsWrite _ _ _).regs⟩
  case isFalse => exact ⟨rfl, fun _ _ => rfl, rfl⟩

theorem State.tatom_cas (hfab : bitOf w 29 = false) (hfn : wFn w = 9) (hchk : atomChecks (s.ctx c g) q w = .ok ()) (hl : l < 64)
    (hact : q.active w = 2 ^ l) (ha : q.laneAddr false w l = a) (hacc : tsAccess a 4 = .ok ()) (hp : s.poison = [])
    (hcmp : q.tbad (wDst w + 2) = 0) (hbad : q.tbad (wDst w + 3) = 0) :
    ∃ bad, s.tatom c g q w = .done ((s.casWrite c a ((q.treg (wDst w + 2)).getD l 0) ((q.treg (wDst w + 3)).getD l 0)).setGroup c g
      (q.atomPast w l (s.tsNat c a 4) bad)) := by
  have hclean : bitOf 0 l = false := by simp [bitOf_eq]
  have hwas : s.tsBad c a 4 = false := State.poisoned_of_nil hp _ _
  unfold State.tatom State.casWrite
  simp only [hchk, hfab, hact, State.laneAccs_one hl ha hacc, State.accsHeld, Bool.false_and, Bool.false_eq_true, if_false, hfn, hbad,
    hcmp, List.foldl_cons, List.foldl_nil, State.atomTs, decide_true, hclean, hwas, Bool.or_self, if_true, Bool.true_and]
  by_cases equal : s.tsNat c a 4 = (q.treg (wDst w + 2)).getD l 0
  · simp only [equal, ne_eq, not_true_eq_false, decide_false, Bool.false_eq_true, if_false, if_true]
    exact ⟨_, rfl⟩
  · simp only [equal, ne_eq, not_false_eq_true, decide_true, if_true, if_false]
    exact ⟨_, rfl⟩

/-- The lanes of the register that an atomic returns its word in. -/
theorem CGroup.treg_atomPast {old bad : Nat} (hl : l < 64) (hold : (q.treg (wDst w)).length = 64) (hlt : old < 2 ^ 32) :
    (((q.atomPast w l old bad).treg (wDst w)).getD l 0 = old) ∧
      ∀ k, k < 64 → k ≠ l → ((q.atomPast w l old bad).treg (wDst w)).getD k 0 = (q.treg (wDst w)).getD k 0 := by
  have value (k : Nat) (hk : k < 64) := q.treg_setT_same (n := wDst w) (2 ^ l) (vals := byLane [(l, old)]) bad hold (byLane_length _) hk
  refine ⟨(value l hl).trans ?_, fun k hk hne => (value k hk).trans (if_neg ?_)⟩
  · rw [if_pos (by rw [bitOf_eq, Nat.testBit_two_pow_self])]
    have hlane : (byLane [(l, old)]).getD l 0 = old := byLane_getD (l := [l]) (by simp) hl fun _ => old
    rw [hlane, Nat.mod_eq_of_lt hlt]
  · rw [bitOf_eq, Nat.testBit_two_pow]
    simpa using hne.symm

theorem CGroup.threadsBut_setT (q : CGroup) (n act : Nat) (vals : List Nat) (bad : Nat) : ThreadsBut n q (q.setT n act vals bad) :=
  fun _ hk => fmGetD_fmPut_other _ _ _ hk

end

/-! The commands. -/

section

variable {s : State} {c : Fin 256} {g : Fin 128} {w : Nat}

theorem exec_tld {ix : BitVec 32} : exec (.tld c g 0 ix) s =
    .next (s.issueMem c g (fun w => wOp w == 0x16) fun s q w => s.tld c g q w) := rfl

theorem exec_tst : exec (.tst c g) s = .next (s.issueMem c g (fun w => wOp w == 0x17) fun s q w => s.tst c g q w) := rfl

theorem exec_tatom : exec (.tatom c g) s = .next (s.issueMem c g (fun w => wOp w == 0x1A) fun s q w => s.tatom c g q w) := rfl

theorem exec_tsamp : exec (.tsamp c g) s = .next (s.issueMem c g (fun w => wOp w == 0x19) fun s q w => s.tsamp c g q w) := rfl

theorem beq_of_wOp {k : Nat} (h : wOp w = k) : (wOp w == k) = true := by simpa using h

theorem runs_tld {ix : BitVec 32} (h : s.atWord c g w) (hop : wOp w = 0x16) (hfab : wFab w = false) (hsize : wSize w < 3)
    (hchk : threadMem (s.ctx c g) false (s.group c g).issuing w = .ok ()) (hlen : ((s.group c g).treg (wDst w)).length = 64)
    (hacc : ∀ l, l < 64 → bitOf ((s.group c g).active w) l = true → tsAccess ((s.group c g).laneAddr false w l) (accBytes w) = .ok ()) :
    Runs (.tld c g 0 ix) s fun t =>
      (∀ l, l < 64 → ((t.group c g).treg (wDst w)).getD l 0 = if bitOf ((s.group c g).active w) l then
          s.tldValue c (s.group c g) w l % 2 ^ 32 else ((s.group c g).treg (wDst w)).getD l 0) ∧
      ThreadsBut (wDst w) (s.group c g) (t.group c g) ∧ (t.group c g).pc = (s.group c g).pc + 8 ∧ GroupOnly c g s t := by
  obtain ⟨bad, e⟩ := State.tld_tile (s := s) (c := c) (g := g) (q := (s.group c g).issuing) hfab hsize hchk hacc
  refine .of_exec (exec_tld.trans (congrArg _ (State.issueMem_done h (beq_of_wOp hop) e))) ?_
  rw [State.group_setGroup_same]
  refine ⟨fun l hl => ?_, CGroup.threadsBut_setT (s.group c g).issuing _ _ _ bad, rfl, State.groupOnly_setGroup _ _ _ _⟩
  refine ((s.group c g).issuing.treg_setT_same _ bad hlen (byLane_length _) hl).trans ?_
  by_cases hact : bitOf ((s.group c g).active w) l = true
  · refine (if_pos hact).trans (Eq.trans ?_ (if_pos hact).symm)
    exact congrArg (· % 2 ^ 32) (byLane_getD (mem_lanesOf.mpr ⟨hl, hact⟩) hl _)
  · exact (if_neg hact).trans (if_neg hact).symm

theorem exec_tld_error {ix : BitVec 32} {l a e : Nat} (h : s.atWord c g w) (hop : wOp w = 0x16) (hfab : wFab w = false)
    (hchk : threadMem (s.ctx c g) false (s.group c g).issuing w = .ok ()) (hl : l < 64) (hact : (s.group c g).active w = 2 ^ l)
    (ha : (s.group c g).laneAddr false w l = a) (hacc : tsAccess a (accBytes w) = .error e) :
    exec (.tld c g 0 ix) s = .next (s.syncExc c g w (.lane_ e a l)) := by
  subst ha
  exact exec_tld.trans (congrArg _ (State.issueMem_exc h (beq_of_wOp hop)
    (State.tld_error (q := (s.group c g).issuing) hfab hchk hl hact hacc)))

theorem runs_tst (hwf : Memory.wf s.mem = true) (hp : s.poison = []) (h : s.atWord c g w) (hop : wOp w = 0x17) (hfab : wFab w = false)
    (hsize : wSize w < 3) (hchk : threadMem (s.ctx c g) true (s.group c g).issuing w = .ok ()) (hbad : (s.group c g).tbad (wDst w) = 0)
    (hacc : ∀ l, l < 64 → bitOf ((s.group c g).active w) l = true → tsAccess ((s.group c g).laneAddr false w l) (accBytes w) = .ok ()) :
    Runs (.tst c g) s fun t =>
      let q := s.group c g
      (∀ l, l < 64 → bitOf (q.active w) l = true →
        (∀ k, l < k → k < 64 → bitOf (q.active w) k = true → q.laneAddr false w k ≠ q.laneAddr false w l) →
        t.bytes (tsAddr c (q.laneAddr false w l)) (accBytes w) = leBytes (accBytes w) ((q.treg (wDst w)).getD l 0)) ∧
      (∀ a, (∀ l, l < 64 → bitOf (q.active w) l = true →
          a < tsAddr c (q.laneAddr false w l) ∨ tsAddr c (q.laneAddr false w l) + accBytes w ≤ a) → t.byte a = s.byte a) ∧
      t.regs = s.regs ∧ (t.group c g).t = q.t ∧ (t.group c g).s = q.s ∧ (t.group c g).pc = q.pc + 8 := by
  have e := State.tst_tile (s := s) (c := c) (g := g) (q := (s.group c g).issuing) hfab hsize hchk hbad hacc
  obtain ⟨only, stored, others⟩ := State.tsStores_lastStores (s := s) (c := c) (q := (s.group c g).issuing) (w := w) hwf hp hacc
  refine .of_exec (exec_tst.trans (congrArg _ (State.issueMem_done h (beq_of_wOp hop) e))) ?_
  rw [State.group_setGroup_same]
  exact ⟨stored, others, only.regs, rfl, rfl, rfl⟩

section

variable {l a : Nat}

theorem runs_tatom (hwf : Memory.wf s.mem = true) (hp : s.poison = []) (h : s.atWord c g w) (hop : wOp w = 0x1A) (hfab : bitOf w 29 = false)
    (hfn : wFn w ≠ 9) (hchk : atomChecks (s.ctx c g) (s.group c g).issuing w = .ok ()) (hl : l < 64)
    (hact : (s.group c g).active w = 2 ^ l) (ha : (s.group c g).laneAddr false w l = a) (hacc : tsAccess a 4 = .ok ())
    (hbad : (s.group c g).tbad (wDst w + 1) = 0) (hlen : ((s.group c g).treg (wDst w)).length = 64) :
    Runs (.tatom c g) s fun t =>
      let q := s.group c g
      t.bytes (tsAddr c a) 4 = leBytes 4 (atomFn (wFn w) (s.tsNat c a 4) ((q.treg (wDst w + 1)).getD l 0)) ∧
      MemoryBut (tsAddr c a) 4 s t ∧ ((t.group c g).treg (wDst w)).getD l 0 = s.tsNat c a 4 ∧
      (∀ k, k < 64 → k ≠ l → ((t.group c g).treg (wDst w)).getD k 0 = (q.treg (wDst w)).getD k 0) ∧
      ThreadsBut (wDst w) q (t.group c g) ∧ t.regs = s.regs ∧ (t.group c g).pc = q.pc + 8 := by
  obtain ⟨bad, e⟩ := State.tatom_tile (s := s) (c := c) (g := g) (q := (s.group c g).issuing) hfab hfn hchk hl hact ha hacc hp hbad
  obtain ⟨returned, kept⟩ := CGroup.treg_atomPast (q := (s.group c g).issuing) (w := w) (bad := bad) hl hlen (s.tsNat_lt c a 4)
  have start := MemOnly.refl hwf hp
  refine .of_exec (exec_tatom.trans (congrArg _ (State.issueMem_done h (beq_of_wOp hop) e))) ?_
  rw [State.group_setGroup_same]
  refine ⟨?_, fun b hb => start.byte_tsWrite (by rwa [leBytes_length]), returned, kept,
    CGroup.threadsBut_setT (s.group c g).issuing _ _ _ bad, (start.tsWrite _ _ _).regs, rfl⟩
  have stored := start.bytes_tsWrite_same c a (leBytes 4 (atomFn (wFn w) (s.tsNat c a 4) (((s.group c g).treg (wDst w + 1)).getD l 0)))
  rwa [leBytes_length] at stored

theorem runs_tatom_cas (hwf : Memory.wf s.mem = true) (hp : s.poison = []) (h : s.atWord c g w) (hop : wOp w = 0x1A)
    (hfab : bitOf w 29 = false) (hfn : wFn w = 9) (hchk : atomChecks (s.ctx c g) (s.group c g).issuing w = .ok ()) (hl : l < 64)
    (hact : (s.group c g).active w = 2 ^ l) (ha : (s.group c g).laneAddr false w l = a) (hacc : tsAccess a 4 = .ok ())
    (hcmp : (s.group c g).tbad (wDst w + 2) = 0) (hbad : (s.group c g).tbad (wDst w + 3) = 0)
    (hlen : ((s.group c g).treg (wDst w)).length = 64) :
    Runs (.tatom c g) s fun t =>
      let q := s.group c g
      t.bytes (tsAddr c a) 4 = (if s.tsNat c a 4 = (q.treg (wDst w + 2)).getD l 0 then leBytes 4 ((q.treg (wDst w + 3)).getD l 0)
        else s.bytes (tsAddr c a) 4) ∧
      MemoryBut (tsAddr c a) 4 s t ∧ ((t.group c g).treg (wDst w)).getD l 0 = s.tsNat c a 4 ∧
      ThreadsBut (wDst w) q (t.group c g) ∧ t.regs = s.regs ∧ (t.group c g).pc = q.pc + 8 := by
  obtain ⟨bad, e⟩ := State.tatom_cas (s := s) (c := c) (g := g) (q := (s.group c g).issuing) hfab hfn hchk hl hact ha hacc hp hcmp hbad
  obtain ⟨returned, -⟩ := CGroup.treg_atomPast (q := (s.group c g).issuing) (w := w) (bad := bad) hl hlen (s.tsNat_lt c a 4)
  have registers (n : Nat) : (s.group c g).issuing.treg n = (s.group c g).treg n := rfl
  obtain ⟨stored, others, regs⟩ := s.casWrite_effect hwf hp c a (((s.group c g).treg (wDst w + 2)).getD l 0)
    (((s.group c g).treg (wDst w + 3)).getD l 0)
  rw [registers, registers] at e
  generalize s.casWrite c a (((s.group c g).treg (wDst w + 2)).getD l 0) (((s.group c g).treg (wDst w + 3)).getD l 0) = u at *
  refine .of_exec (exec_tatom.trans (congrArg _ (State.issueMem_done h (beq_of_wOp hop) e))) ?_
  rw [State.group_setGroup_same]
  exact ⟨stored, others, returned, CGroup.threadsBut_setT (s.group c g).issuing _ _ _ bad, regs, rfl⟩

end

/-! Texture samples (R200, R374). -/

theorem State.tsamp_none {q : CGroup} (hchk : tsampChecks (s.ctx c g) q w = .ok ()) (hact : q.active w = 0) :
    s.tsamp c g q w = .done (s.setGroup c g q.past) := by
  unfold State.tsamp
  simp only [hchk, hact, if_true]

theorem State.tsamp_samples {u v : State} {q : CGroup} {d p : List Byte} (hchk : tsampChecks (s.ctx c g) q w = .ok ())
    (hact : q.active w ≠ 0) (hd : s.texDesc c (addOfs 64 (q.sreg (wB w)) (bitsOf w 23 16 * 32)) 32 = (u, .ok (d, false)))
    (htx : txOk d = true) (hs : u.texDesc c (addOfs 64 (q.sreg (wB w)) (0x2000 + bitsOf w 15 12 * 16)) 16 = (v, .ok (p, false)))
    (hsm : smOk p = true) (herr : (v.texLanes c q w (q.active w) d p).err = none) :
    s.tsamp c g q w = .done ((v.texLanes c q w (q.active w) d p).s.setGroup c g
      (q.texOut w (q.active w) (v.texLanes c q w (q.active w) d p).got).past) := by
  unfold State.tsamp
  simp only [hchk, hact, if_false, hd, htx, hs, hsm, herr, Bool.not_true, Bool.false_eq_true]

theorem runs_tsamp_none (h : s.atWord c g w) (hop : wOp w = 0x19) (hchk : tsampChecks (s.ctx c g) (s.group c g).issuing w = .ok ())
    (hact : (s.group c g).active w = 0) :
    Runs (.tsamp c g) s fun t =>
      (t.group c g).pc = (s.group c g).pc + 8 ∧ (t.group c g).t = (s.group c g).t ∧ (t.group c g).p = (s.group c g).p ∧
      GroupOnly c g s t := by
  have e := State.tsamp_none (s := s) (c := c) (g := g) (q := (s.group c g).issuing) hchk hact
  refine .of_exec (exec_tsamp.trans (congrArg _ (State.issueMem_done h (beq_of_wOp hop) e))) ?_
  rw [State.group_setGroup_same]
  exact ⟨rfl, rfl, rfl, State.groupOnly_setGroup _ _ _ _⟩

/-! Checks that fail. -/

theorem State.tld_refused {q : CGroup} {e : Exc} (h : threadMem (s.ctx c g) false q w = .error e) : s.tld c g q w = .exc s e := by
  unfold State.tld
  simp only [h]

theorem State.tst_refused {q : CGroup} {e : Exc} (h : threadMem (s.ctx c g) true q w = .error e) : s.tst c g q w = .exc s e := by
  unfold State.tst
  simp only [h]

theorem State.tatom_refused {q : CGroup} {e : Exc} (h : atomChecks (s.ctx c g) q w = .error e) : s.tatom c g q w = .exc s e := by
  unfold State.tatom
  simp only [h]

theorem State.tsamp_refused {q : CGroup} {e : Exc} (h : tsampChecks (s.ctx c g) q w = .error e) : s.tsamp c g q w = .exc s e := by
  unfold State.tsamp
  simp only [h]

end

end Sys2Proof.Machine

open Sys2Proof Sys2Proof.Machine

/-- Settles O22: loads, stores, atomics and texture samples, each by what its instruction gives for the lanes that are active. -/
theorem threadLoadsStoresAndAtomics : Obligations.ThreadLoadsStoresAndAtomics := by
  unfold Obligations.ThreadLoadsStoresAndAtomics
  refine ⟨?loads, ?loadError, ?stores, ?atomic, ?cas, ?noSample, ?samples, ?refused⟩
  case loads => exact fun s c g w ix h hop hfab hsize hchk hlen hacc => runs_tld h hop hfab hsize hchk hlen hacc
  case loadError => exact fun s c g w l a e ix h hop hfab hchk hl hact ha hacc => exec_tld_error h hop hfab hchk hl hact ha hacc
  case stores =>
    intro s c g w hcan hp h hop hfab hsize hchk hbad hacc
    exact runs_tst (State.canonical_iff.mp hcan).1 hp h hop hfab hsize hchk hbad hacc
  case atomic =>
    intro s c g w l a hcan hp h hop hfab hfn hchk hl hact ha hacc hbad hlen
    exact runs_tatom (State.canonical_iff.mp hcan).1 hp h hop hfab hfn hchk hl hact ha hacc hbad hlen
  case cas =>
    intro s c g w l a hcan hp h hop hfab hfn hchk hl hact ha hacc hcmp hbad hlen
    exact runs_tatom_cas (State.canonical_iff.mp hcan).1 hp h hop hfab hfn hchk hl hact ha hacc hcmp hbad hlen
  case noSample => exact fun s c g w h hop hchk hact => runs_tsamp_none h hop hchk hact
  case samples =>
    intro s u v c g w d p h hop q hchk hact hd htx hs hsm herr
    exact exec_tsamp.trans (congrArg _ (State.issueMem_done h (beq_of_wOp hop) (State.tsamp_samples hchk hact hd htx hs hsm herr)))
  case refused =>
    intro s c g w ix e h
    exact ⟨fun hop hchk => exec_tld.trans (congrArg _ (State.issueMem_exc h (beq_of_wOp hop) (State.tld_refused hchk))),
      fun hop hchk => exec_tst.trans (congrArg _ (State.issueMem_exc h (beq_of_wOp hop) (State.tst_refused hchk))),
      fun hop hchk => exec_tatom.trans (congrArg _ (State.issueMem_exc h (beq_of_wOp hop) (State.tatom_refused hchk))),
      fun hop hchk => exec_tsamp.trans (congrArg _ (State.issueMem_exc h (beq_of_wOp hop) (State.tsamp_refused hchk)))⟩

end

section
/-! PROOF. Scalar instructions of a cell's group (O20): what each gives when its checks pass, and the commands that issue them
(R181, R183, R184, R187, R189, R190). -/

namespace Sys2Proof.Machine

/-! Checks (R183). -/

theorem noPred_ok {w : Nat} (h : wPred w = 0) : noPred w = .ok () := need_ok _ (decide_eq_true h)

theorem scalarCode_ok {n : Nat} (h : n < 32) : scalarCode n = .ok () := need_ok _ (decide_eq_true h)

theorem CGroup.cleanS_ok {q : CGroup} {n : Nat} (h : q.sbad n = false) : q.cleanS n = .ok () := need_ok _ (by rw [h]; rfl)

theorem of_need {b : Bool} {cause : Nat} (h : need b cause = .ok ()) : b = true := by
  cases b with
  | true => rfl
  | false => cases h

theorem check_pass {α : Type} {m : Except Exc Unit} {f : Unit → Except Exc α} (h : m = .ok ()) : (m >>= f) = f () := by
  rw [h]
  rfl

theorem checkIf_pass {α : Type} {c : Prop} [Decidable c] {m : Except Exc Unit} {f : Unit → Except Exc α} (h : c → m = .ok ()) :
    (if c then m >>= f else f ()) = f () := by
  split
  case isTrue hc => exact check_pass (h hc)
  case isFalse => rfl

/-- Whatever stands behind a check, its answer tells that the check passed. -/
theorem Yields.of_check {α : Type} {p : α → Prop} {m : Except Exc Unit} {f : Unit → Except Exc α}
    (h : m = .ok () → Yields (f ()) p) : Yields (m >>= f) p := by
  intro r e
  cases m with
  | error x => cases e
  | ok u => exact h rfl r e

/-! A scalar register written, and the group at its next PC. -/

/-- The group with v in scalar register n, at a PC. -/
def CGroup.scalarAt (q : CGroup) (n v : Nat) (bad : Bool) (pc : Nat) : CGroup := { q.setS n v bad with pc := pc }

theorem CGroup.past_setS (q : CGroup) (n v : Nat) (bad : Bool) : (q.setS n v bad).past = q.scalarAt n v bad (q.pc + 8) := by
  rw [CGroup.past, CGroup.setS_pc, CGroup.scalarAt]

/-- From q to r, v has been written to scalar register n, a write of s0 being discarded (R181), and the PC set. -/
structure ScalarPut (n v pc : Nat) (q r : CGroup) : Prop where
  pc : r.pc = pc
  value : r.sreg n = if n = 0 then 0 else v % 2 ^ 64
  others : ScalarsBut n q r
  threads : r.t = q.t
  preds : r.p = q.p

theorem CGroup.scalarPut_scalarAt (q : CGroup) {n : Nat} (v : Nat) (bad : Bool) (pc : Nat) (hn : n < 32) :
    ScalarPut n v pc q (q.issuing.scalarAt n v bad pc) := by
  have others := q.issuing.scalarsBut_setS n v bad
  by_cases h0 : n = 0
  case pos =>
    have e : q.issuing.scalarAt n v bad pc = { q.issuing with pc := pc } := by
      rw [CGroup.scalarAt, CGroup.setS_zero _ v bad (by rw [h0])]
    refine ⟨rfl, ?_, others, by rw [e]; rfl, by rw [e]; rfl⟩
    rw [if_pos h0, CGroup.sreg, if_pos (by rw [h0])]
  case neg =>
    have hne : n % 32 ≠ 0 := by omega
    have e : q.issuing.setS n v bad = { q.issuing with s := fmPut q.s (n % 32) (v % 2 ^ 64), sBad := setMask q.sBad (n % 32) bad } :=
      if_neg hne
    refine ⟨rfl, ?_, others, by rw [CGroup.scalarAt, e]; rfl, by rw [CGroup.scalarAt, e]; rfl⟩
    rw [if_neg h0]
    exact CGroup.sreg_setS_same _ v bad hne

section

variable {s : State} {i : Instr} {c g w n v pc : Nat} {bad : Bool} {q : CGroup} {want : Nat → Bool}
  {k : Ctx → CGroup → Nat → Except Exc (CGroup × Nat)} {p : State → Prop}

/-- An instruction that raises no flag leaves the group that it gives, and nothing else differs. -/
theorem Runs.of_group (e : exec i s = .next (s.issue c g want k)) (h : s.atWord c g w) (hw : want w = true)
    (hk : k (s.ctx c g) (s.group c g).issuing w = .ok (q, 0)) (hp : ∀ t, t.group c g = q → GroupOnly c g s t → p t) : Runs i s p :=
  .of_issue e h hw hk (hp _ (State.issued_group s c g q 0) (State.groupOnly_issued q (.inl rfl)))

theorem Runs.of_scalarAt (e : exec i s = .next (s.issue c g want k)) (h : s.atWord c g w) (hw : want w = true)
    (hk : k (s.ctx c g) (s.group c g).issuing w = .ok ((s.group c g).issuing.scalarAt n v bad pc, 0)) (hn : n < 32)
    (hp : ∀ t, ScalarPut n v pc (s.group c g) (t.group c g) → GroupOnly c g s t → p t) : Runs i s p := by
  refine .of_group e h hw hk fun t ht only => hp t ?_ only
  rw [ht]
  exact CGroup.scalarPut_scalarAt _ v bad pc hn

theorem Runs.of_scalarStep (e : exec i s = .next (s.issue c g want k)) (h : s.atWord c g w) (hw : want w = true)
    (hk : k (s.ctx c g) (s.group c g).issuing w = .ok ((s.group c g).issuing.scalarStep n v bad)) (hn : n < 32)
    (hp : ∀ t, ScalarPut n v ((s.group c g).pc + 8) (s.group c g) (t.group c g) → GroupOnly c g s t → p t) : Runs i s p :=
  .of_scalarAt e h hw (hk.trans (by rw [CGroup.scalarStep, CGroup.past_setS]; rfl)) hn hp

end

/-! What each instruction gives. -/

section

variable {x : Ctx} {q : CGroup} {w : Nat}

theorem salu_scalar (hfn : wFn w ≤ 0x15) (hp : wPred w = 0) (ht : wType w ≤ 1) (hr : wRnd w = 0)
    (hl : layoutA w (intUsesC (wFn w)) = .ok ()) (hd : wDst w < 32) (ha : wA w < 32) (hb : wI w = false → wB w < 32)
    (hc : intUsesC (wFn w) = true → wI w = false → wC w < 32) :
    ∃ bad, salu x q w = .ok (q.scalarStep (wDst w) (intFn 64 (wType w) (wFn w) (q.sreg (wA w))
      (if wI w then immA false 64 w else q.sreg (wB w)) (if wI w then x.free % 2 ^ 64 else q.sreg (wC w))) bad) := by
  unfold salu
  exact ⟨_, check_ok (need_ok _ (decide_eq_true hfn)) <| check_ok (noPred_ok hp) <| check_ok (need_ok _ (by simp [ht, hr])) <|
    check_ok hl <| check_ok (scalarCode_ok hd) <| check_ok (scalarCode_ok ha) <|
    checkIf_ok (fun hi => scalarCode_ok (hb (by simpa using hi))) <|
    checkIf_ok (fun hi => scalarCode_ok (hc (by simp_all) (by simp_all))) rfl⟩

theorem smovi_scalar (hp : wPred w = 0) (hd : wDst w < 32) :
    smovi x q w = .ok (q.scalarStep (wDst w) (ofSigned 64 (toSigned 48 w)) false) := by
  unfold smovi
  exact check_ok (noPred_ok hp) <| check_ok (scalarCode_ok hd) rfl

theorem smovhi_scalar (hp : wPred w = 0) (hz : bitsOf w 47 16 = 0) (hd : wDst w < 32) :
    smovhi x q w = .ok (q.scalarStep (wDst w) (q.sreg (wDst w) % 2 ^ 48 + 2 ^ 48 * (w % 2 ^ 16)) (q.sbad (wDst w))) := by
  unfold smovhi
  exact check_ok (noPred_ok hp) <| check_ok (need_ok _ (decide_eq_true hz)) <| check_ok (scalarCode_ok hd) rfl

theorem srd_scalar (hp : wPred w = 0) (hfn : wFn w ≤ 3) (hz : w % 2 ^ 30 = 0) (hd : wDst w < 32) :
    srd x q w = .ok (q.scalarStep (wDst w)
      (if wFn w = 0 then x.g else if wFn w = 1 then x.ngroups else if wFn w = 2 then x.nregs else x.elapsed) false) := by
  unfold srd
  refine check_ok (noPred_ok hp) <| check_ok (need_ok _ (by rw [decide_eq_true hfn, decide_eq_true hz]; rfl)) <|
    check_ok (scalarCode_ok hd) ?_
  interval_cases wFn w <;> rfl

/-- The target of a branch that is relative to the PC. -/
def CGroup.brTarget (q : CGroup) (w : Nat) : Nat := addOfs 64 q.pc (wOff32 w * 8)

/-- The condition of a branch holds. -/
def CGroup.taken (q : CGroup) (w : Nat) : Bool := brCond (bitsOf w 35 32) (q.sreg (wA w)) (q.sreg (wB w))

theorem br_checked (hp : wPred w = 0) (hd : wDst w = 0) (ha : wA w < 32) (hb : wB w < 32)
    (hc : bitsOf w 35 32 ≤ 7 ∨ bitsOf w 35 32 = 15) (hca : bitsOf w 35 32 ≤ 7 → q.sbad (wA w) = false)
    (hcb : bitsOf w 35 32 ≤ 5 → q.sbad (wB w) = false) :
    br x q w = if q.taken w then
        if q.brTarget w % 8 = 0 then .ok ({ q with pc := q.brTarget w }, 0) else .error (.at_ excALIGN (q.brTarget w))
      else .ok (q.past, 0) := by
  unfold br
  exact (check_pass (noPred_ok hp)).trans <| (check_pass (need_ok _ (by simpa using hc))).trans <|
    (check_pass (need_ok _ (decide_eq_true hd))).trans <| (check_pass (scalarCode_ok ha)).trans <|
    (check_pass (scalarCode_ok hb)).trans <| (checkIf_pass fun h7 => CGroup.cleanS_ok (hca h7)).trans <|
    (checkIf_pass fun h5 => CGroup.cleanS_ok (hcb h5)).trans rfl

theorem jal_scalar (hp : wPred w = 0) (hd : wDst w < 32) (ht : q.brTarget w % 8 = 0) :
    jal x q w = .ok (q.scalarAt (wDst w) (q.pc + 8) false (q.brTarget w), 0) := by
  unfold jal
  exact check_ok (noPred_ok hp) <| check_ok (scalarCode_ok hd) (if_pos ht)

theorem jalr_scalar (hp : wPred w = 0) (hd : wDst w < 32) (ha : wA w < 32) (hbad : q.sbad (wA w) = false)
    (ht : addOfs 64 (q.sreg (wA w)) (wOff32 w * 8) % 8 = 0) :
    jalr x q w = .ok (q.scalarAt (wDst w) (q.pc + 8) false (addOfs 64 (q.sreg (wA w)) (wOff32 w * 8)), 0) := by
  unfold jalr
  exact check_ok (noPred_ok hp) <| check_ok (scalarCode_ok hd) <| check_ok (scalarCode_ok ha) <|
    check_ok (CGroup.cleanS_ok hbad) (if_pos ht)

end

/-! Loads and stores (R189). -/

section

variable {s t u : State} {c g w a pa : Nat} {q : CGroup}

/-- A load that passes its checks has a scalar register as destination. -/
theorem scalarMem_load_dst : Yields (scalarMem false q w) fun _ => wDst w < 32 := by
  simp only [scalarMem, Bool.false_eq_true, if_false]
  refine .check <| .check <| .check <| .of_check fun h => ?_
  have hd := of_need h
  simp only [Bool.and_eq_true, decide_eq_true_eq] at hd
  exact fun _ _ => hd.2

theorem State.sld_tile (hfab : wFab w = false) (hchk : scalarMem false q w = .ok a) :
    s.sld c g q w = .done (s.setGroup c g
      (q.setS (wDst w) (widen (wSX w) (accBytes w) 64 (s.tsNat c a (accBytes w))) (s.tsBad c a (accBytes w))).past) := by
  simp [State.sld, hchk, hfab]

theorem State.sld_fabric {l : List Byte} {bad : Bool} (hfab : wFab w = true) (hchk : scalarMem false q w = .ok a)
    (hx : s.xlat (s.cellOwn c) (mCell c) 1 a = (t, some pa)) (hheld : s.heldPa pa = false)
    (hrd : t.rdPhys (s.cellOwn c) (mCell c) pa (accBytes w) = (u, .ok (l, bad))) :
    s.sld c g q w = .done (u.setGroup c g (q.setS (wDst w) (widen (wSX w) (accBytes w) 64 (leNat l)) bad).past) := by
  simp [State.sld, hchk, hfab, hx, hheld, hrd]

theorem State.sst_tile (hfab : wFab w = false) (hchk : scalarMem true q w = .ok a) :
    s.sst c g q w = .done ((s.tsWrite c a (leBytes (accBytes w) (q.sreg (wB w))) (q.sbad (wB w))).setGroup c g q.past) := by
  simp [State.sst, hchk, hfab]

theorem State.sst_fabric (hfab : wFab w = true) (hchk : scalarMem true q w = .ok a)
    (hx : s.xlat (s.cellOwn c) (mCell c) 2 a = (t, some pa)) (hheld : s.heldPa pa = false)
    (hwr : t.wrPhys (s.cellOwn c) (mCell c) pa (leBytes (accBytes w) (q.sreg (wB w))) (q.sbad (wB w)) = (u, none)) :
    s.sst c g q w = .done (u.setGroup c g q.past) := by
  simp [State.sst, hchk, hfab, hx, hheld, hwr]

theorem State.sld_refused {e : Exc} (h : scalarMem false q w = .error e) : s.sld c g q w = .exc s e := by
  simp [State.sld, h]

theorem State.sst_refused {e : Exc} (h : scalarMem true q w = .error e) : s.sst c g q w = .exc s e := by
  simp [State.sst, h]

end

/-! A group that may not issue. -/

section

variable {s : State} {c g : Nat}

theorem State.nextWord_waiting (h : s.canIssue c g = false) (want : Nat → Bool) : s.nextWord c g want = none := by
  simp [State.nextWord, h]

theorem State.issue_waiting (h : s.canIssue c g = false) (want : Nat → Bool) (f : Ctx → CGroup → Nat → Except Exc (CGroup × Nat)) :
    s.issue c g want f = s := by
  rw [State.issue, State.nextWord_waiting h]

theorem State.issueMem_waiting (h : s.canIssue c g = false) (want : Nat → Bool) (f : State → CGroup → Nat → MemRes) :
    s.issueMem c g want f = s := by
  rw [State.issueMem, State.nextWord_waiting h]

end

/-! The commands that issue them. -/

section

variable (s : State) (c : Fin 256) (g : Fin 128)

theorem exec_salu : exec (.salu c g) s = .next (s.issue c g (fun w => wOp w == 1) salu) := rfl

theorem exec_smovi : exec (.smovi c g) s = .next (s.issue c g (fun w => wOp w == 2) smovi) := rfl

theorem exec_smovhi : exec (.smovhi c g) s = .next (s.issue c g (fun w => wOp w == 3) smovhi) := rfl

theorem exec_srd : exec (.srd c g) s = .next (s.issue c g (fun w => wOp w == 8) srd) := rfl

theorem exec_sld : exec (.sld c g) s = .next (s.issueMem c g (fun w => wOp w == 4) fun s q w => s.sld c g q w) := rfl

theorem exec_sst : exec (.sst c g) s = .next (s.issueMem c g (fun w => wOp w == 5) fun s q w => s.sst c g q w) := rfl

theorem exec_br : exec (.br c g) s = .next (s.issue c g (fun w => wOp w == 6) br) := rfl

theorem exec_jal : exec (.jal c g) s = .next (s.issue c g (fun w => wOp w == 7 && bitsOf w 35 32 == 0) jal) := rfl

theorem exec_jalr : exec (.jalr c g) s = .next (s.issue c g (fun w => wOp w == 7 && bitsOf w 35 32 == 1) jalr) := rfl

end

/-! Effects. -/

section

variable {s : State} {c : Fin 256} {g : Fin 128} {w a : Nat}

theorem runs_sld (h : s.atWord c g w) (hop : wOp w = 4) (hfab : wFab w = false) (hchk : scalarMem false (s.group c g) w = .ok a) :
    Runs (.sld c g) s fun t =>
      ScalarPut (wDst w) (widen (wSX w) (accBytes w) 64 (s.tsNat c a (accBytes w))) ((s.group c g).pc + 8) (s.group c g) (t.group c g) ∧
      GroupOnly c g s t := by
  have e := State.sld_tile (s := s) (c := c) (g := g) (q := (s.group c g).issuing) hfab hchk
  refine .of_exec ((exec_sld s c g).trans (congrArg _ (State.issueMem_done h (beq_of_wOp hop) e)))
    ⟨?_, State.groupOnly_setGroup _ _ _ _⟩
  rw [State.group_setGroup_same, CGroup.past_setS]
  exact CGroup.scalarPut_scalarAt _ _ _ _ (scalarMem_load_dst a hchk)

theorem runs_sst (hwf : Memory.wf s.mem = true) (hp : s.poison = []) (h : s.atWord c g w) (hop : wOp w = 5) (hfab : wFab w = false)
    (hchk : scalarMem true (s.group c g) w = .ok a) (hbad : (s.group c g).sbad (wB w) = false) :
    Runs (.sst c g) s fun t =>
      (t.group c g).pc = (s.group c g).pc + 8 ∧ t.bytes (tsAddr c a) (accBytes w) = leBytes (accBytes w) ((s.group c g).sreg (wB w)) ∧
      MemoryBut (tsAddr c a) (accBytes w) s t ∧ (t.group c g).s = (s.group c g).s ∧ t.regs = s.regs ∧
      (∀ h, h ≠ g.val → t.group c h = s.group c h) := by
  have start := MemOnly.refl hwf hp
  have e := State.sst_tile (s := s) (c := c) (g := g) (q := (s.group c g).issuing) hfab hchk
  rw [show (s.group c g).issuing.sbad (wB w) = false from hbad] at e
  generalize hl : leBytes (accBytes w) _ = l at e
  have hlen : l.length = accBytes w := hl ▸ leBytes_length _ _
  refine .of_exec ((exec_sst s c g).trans (congrArg _ (State.issueMem_done h (beq_of_wOp hop) e))) ?_
  rw [State.group_setGroup_same]
  have stored := start.bytes_tsWrite_same c a l
  rw [hlen] at stored
  obtain ⟨m, hm⟩ := (start.tsWrite c a l).rest
  refine ⟨rfl, stored.trans hl.symm, fun b hb => start.byte_tsWrite (by rwa [hlen]), rfl, (start.tsWrite c a l).regs,
    fun k hk => ((State.groupOnly_setGroup _ _ _ _).2.2.2 k hk).trans ?_⟩
  rw [hm]
  rfl

end

end Sys2Proof.Machine

open Sys2Proof Sys2Proof.Machine

/-- Settles O20: each word that passes its checks is one write of a scalar register, one store or one branch, and a group that may not
issue finds no word. -/
theorem scalarInstructionsComputeTheirResults : Obligations.ScalarInstructionsComputeTheirResults := by
  unfold Obligations.ScalarInstructionsComputeTheirResults
  refine ⟨?salu, ?smovi, ?smovhi, ?srd, ?load, ?store, ?loadFabric, ?storeFabric, ?branch, ?jal, ?jalr, ?refused, ?waiting⟩
  case salu =>
    intro s c g w h hop hfn hp ht hr hl hd ha hb hc
    obtain ⟨bad, hok⟩ := salu_scalar (x := s.ctx c g) (q := (s.group c g).issuing) hfn hp ht hr hl hd ha hb hc
    exact .of_scalarStep (exec_salu s c g) h (beq_of_wOp hop) hok hd fun t put only =>
      ⟨put.pc, put.value, put.others, put.threads, put.preds, only⟩
  case smovi =>
    intro s c g w h hop hp hd
    exact .of_scalarStep (exec_smovi s c g) h (beq_of_wOp hop) (smovi_scalar hp hd) hd fun t put only =>
      ⟨put.pc, put.value, put.others, only⟩
  case smovhi =>
    intro s c g w h hop hp hz hd
    refine .of_scalarStep (exec_smovhi s c g) h (beq_of_wOp hop) (smovhi_scalar hp hz hd) hd fun t put only =>
      ⟨put.pc, put.value.trans (if_congr Iff.rfl rfl (Nat.mod_eq_of_lt ?_)), put.others, only⟩
    have hlow : (s.group c g).issuing.sreg (wDst w) % 2 ^ 48 < 2 ^ 48 := Nat.mod_lt _ (by decide)
    have hhigh : w % 2 ^ 16 < 2 ^ 16 := Nat.mod_lt _ (by decide)
    omega
  case srd =>
    intro s c g w h hop hp hfn hz hd
    exact .of_scalarStep (exec_srd s c g) h (beq_of_wOp hop) (srd_scalar hp hfn hz hd) hd fun t put only =>
      ⟨put.pc, put.value, put.others, only⟩
  case load =>
    intro s c g w a h hop hfab hchk
    obtain ⟨t, e, put, only⟩ := runs_sld h hop hfab hchk
    exact .of_exec e ⟨put.pc, put.value, put.others, only⟩
  case store =>
    intro s c g w a hcan hp h hop hfab hchk hbad
    exact runs_sst (State.canonical_iff.mp hcan).1 hp h hop hfab hchk hbad
  case loadFabric =>
    intro s t u c g w a pa l bad h hop hfab hchk hx hheld hrd
    exact (exec_sld s c g).trans (congrArg _ (State.issueMem_done h (beq_of_wOp hop) (State.sld_fabric hfab hchk hx hheld hrd)))
  case storeFabric =>
    intro s t u c g w a pa h hop hfab hchk hx hheld hwr
    exact (exec_sst s c g).trans (congrArg _ (State.issueMem_done h (beq_of_wOp hop) (State.sst_fabric hfab hchk hx hheld hwr)))
  case branch =>
    intro s c g w h hop hp hd ha hb hc hca hcb taken target
    have answer := br_checked (x := s.ctx c g) (q := (s.group c g).issuing) hp hd ha hb hc hca hcb
    refine ⟨fun hgo => ?_, fun htaken hodd => ?_⟩
    · have hok : br (s.ctx c g) (s.group c g).issuing w =
          .ok ({ (s.group c g).issuing with pc := if taken then target else (s.group c g).pc + 8 }, 0) := by
        rw [answer]
        change (if taken then if target % 8 = 0 then _ else _ else _) = _
        cases htaken : taken with
        | false => rfl
        | true => exact if_pos (hgo.resolve_left (by simp [htaken]))
      refine .of_group (exec_br s c g) h (beq_of_wOp hop) hok fun t ht only => ?_
      rw [ht]
      exact ⟨rfl, rfl, only⟩
    · refine exec_of_issue_error (exec_br s c g) h (beq_of_wOp hop) (answer.trans ?_)
      exact (if_pos htaken).trans (if_neg hodd)
  case jal =>
    intro s c g w h hop hkind hp hd ht
    exact .of_scalarAt (exec_jal s c g) h (by simp [hop, hkind]) (jal_scalar hp hd ht) hd fun t put only =>
      ⟨put.pc, put.value, put.others, only⟩
  case jalr =>
    intro s c g w h hop hkind hp hd ha hbad ht
    exact .of_scalarAt (exec_jalr s c g) h (by simp [hop, hkind]) (jalr_scalar hp hd ha hbad ht) hd fun t put only =>
      ⟨put.pc, put.value, put.others, only⟩
  case refused =>
    intro s c g w e h
    exact ⟨fun hop => exec_of_issue_error (exec_salu s c g) h (beq_of_wOp hop),
      fun hop => exec_of_issue_error (exec_smovi s c g) h (beq_of_wOp hop),
      fun hop => exec_of_issue_error (exec_smovhi s c g) h (beq_of_wOp hop),
      fun hop hchk => (exec_sld s c g).trans (congrArg _ (State.issueMem_exc h (beq_of_wOp hop) (State.sld_refused hchk))),
      fun hop hchk => (exec_sst s c g).trans (congrArg _ (State.issueMem_exc h (beq_of_wOp hop) (State.sst_refused hchk))),
      fun hop => exec_of_issue_error (exec_srd s c g) h (beq_of_wOp hop)⟩
  case waiting =>
    intro s c g h
    rw [exec_salu, exec_sld, exec_sst, exec_br, exec_jal, exec_jalr]
    simp only [State.issue_waiting h, State.issueMem_waiting h, and_self]

end

section
/-! PROOF. The corners of DIV and REM (O58): the integer functions at a divisor 0 and at the least value divided by -1 (R188). -/

namespace Sys2Proof.Machine

/-! The least value and -1 in w bits. -/

section

variable {w : Nat}

theorem toSigned_least (hw : 0 < w) : toSigned w (2 ^ (w - 1)) = -(2 ^ (w - 1) : Nat) := by
  have hpos : 0 < 2 ^ (w - 1) := Nat.two_pow_pos _
  rw [toSigned, ← Nat.two_pow_pred_mul_two hw, Nat.mod_eq_of_lt (by omega), if_neg (Nat.lt_irrefl _)]
  omega

theorem toSigned_ones (hw : 0 < w) : toSigned w (2 ^ w - 1) = -1 := by
  have hpos : 0 < 2 ^ (w - 1) := Nat.two_pow_pos _
  rw [toSigned, ← Nat.two_pow_pred_mul_two hw, Nat.mod_eq_of_lt (by omega), if_neg (by omega)]
  omega

theorem ofSigned_natCast {n : Nat} (h : n < 2 ^ w) : ofSigned w (n : Int) = n := by
  rw [ofSigned, ← Int.natCast_mod, Int.toNat_natCast, Nat.mod_eq_of_lt h]

/-! DIV and REM. -/

variable {t a c : Nat}

theorem intFn_div_zero : intFn w t 0x14 a 0 c = 2 ^ w - 1 := rfl

theorem intFn_rem_zero : intFn w t 0x15 a 0 c = a := rfl

theorem ones_ne_zero (hw : 0 < w) : 2 ^ w - 1 ≠ 0 := by
  have := Nat.one_lt_two_pow hw.ne'
  omega

theorem intFn_div_least (hw : 0 < w) : intFn w 1 0x14 (2 ^ (w - 1)) (2 ^ w - 1) c = 2 ^ (w - 1) := by
  have e : intFn w 1 0x14 (2 ^ (w - 1)) (2 ^ w - 1) c =
      ofSigned w ((toSigned w (2 ^ (w - 1))).tdiv (toSigned w (2 ^ w - 1))) := if_neg (ones_ne_zero hw)
  rw [e, toSigned_least hw, toSigned_ones hw, Int.tdiv_neg, Int.tdiv_one, neg_neg]
  exact ofSigned_natCast (Nat.pow_lt_pow_right (by decide) (by omega))

theorem intFn_rem_least (hw : 0 < w) : intFn w 1 0x15 (2 ^ (w - 1)) (2 ^ w - 1) c = 0 := by
  have e : intFn w 1 0x15 (2 ^ (w - 1)) (2 ^ w - 1) c =
      ofSigned w ((toSigned w (2 ^ (w - 1))).tmod (toSigned w (2 ^ w - 1))) := if_neg (ones_ne_zero hw)
  rw [e, toSigned_ones hw, Int.tmod_neg, Int.tmod_one]
  exact ofSigned_natCast (Nat.two_pow_pos w)

/-- What a destination of w bits holds after DIV or REM at a corner. -/
structure DivCorner (w t fn a b d : Nat) : Prop where
  quotient : b = 0 → fn = 0x14 → (t = 0 → d = 2 ^ w - 1) ∧ (t = 1 → toSigned w d = -1)
  remainder : b = 0 → fn = 0x15 → d = a % 2 ^ w
  least : t = 1 → a = 2 ^ (w - 1) → b = 2 ^ w - 1 → d = if fn = 0x14 then 2 ^ (w - 1) else 0

theorem divCorner_intFn (hw : 0 < w) {fn b : Nat} (hfn : fn = 0x14 ∨ fn = 0x15) :
    DivCorner w t fn a b (intFn w t fn a b c % 2 ^ w) := by
  have hones : (2 ^ w - 1) % 2 ^ w = 2 ^ w - 1 := Nat.mod_eq_of_lt (Nat.sub_lt (Nat.two_pow_pos w) Nat.one_pos)
  have hleast : 2 ^ (w - 1) % 2 ^ w = 2 ^ (w - 1) := Nat.mod_eq_of_lt (Nat.pow_lt_pow_right (by decide) (by omega))
  refine ⟨?quotient, ?remainder, ?least⟩
  case quotient =>
    rintro rfl rfl
    rw [intFn_div_zero, hones]
    exact ⟨fun _ => rfl, fun _ => toSigned_ones hw⟩
  case remainder =>
    rintro rfl rfl
    rw [intFn_rem_zero]
  case least =>
    rintro rfl rfl rfl
    rcases hfn with rfl | rfl
    · rw [intFn_div_least hw, hleast, if_pos rfl]
    · rw [intFn_rem_least hw, Nat.zero_mod, if_neg (by decide)]

end

end Sys2Proof.Machine

open Sys2Proof Sys2Proof.Machine

/-- Settles O58: SALU and TALU put what their integer function gives, which at the corners is what R188 states. -/
theorem divisionCornersGiveTheirStatedResults : Obligations.DivisionCornersGiveTheirStatedResults := by
  unfold Obligations.DivisionCornersGiveTheirStatedResults
  have sources {w : Nat} (hfn : wFn w = 0x14 ∨ wFn w = 0x15) : intUsesB (wFn w) = true ∧ intUsesC (wFn w) = false := by
    rcases hfn with h | h <;> rw [h] <;> exact ⟨rfl, rfl⟩
  refine ⟨?scalar, ?thread⟩
  case scalar =>
    intro s c g w h hop hfn hp ht hr hl hpos hd ha hi hb a b hcorner
    obtain ⟨-, hC⟩ := sources hfn
    obtain ⟨bad, hok⟩ := salu_scalar (x := s.ctx c g) (q := (s.group c g).issuing) (by omega) hp ht hr (by rwa [hC]) hd ha
      (fun _ => hb) (fun h => absurd h (by simp [hC]))
    refine .of_scalarStep (exec_salu s c g) h (beq_of_wOp hop) hok hd fun t put _ => ?_
    have value := put.value
    rw [if_neg hpos.ne', hi] at value
    obtain ⟨quotient, remainder, least⟩ : DivCorner 64 (wType w) (wFn w) a b ((t.group c g).sreg (wDst w)) := by
      rw [value]
      exact divCorner_intFn (by decide) hfn
    refine ⟨put.pc, quotient, remainder, fun hne => ?_⟩
    obtain ⟨ht1, ha, hb⟩ := hcorner.resolve_left hne
    exact least ht1 ha hb
  case thread =>
    intro s c g w h hop hfn hp ht hr hl hi hd hx hn hold
    obtain ⟨hB, hC⟩ := sources hfn
    have hsel : (wFn w == 0x16) = false := by simp; omega
    obtain ⟨f, bad, hok, hf⟩ := talu_lanes (x := s.ctx c g) (q := (s.group c g).issuing) (by omega) hp ht hr
      (by rwa [hC, hsel]) (by omega) hd (by rwa [hB, hC]) hn
    refine .of_lanes (exec_talu s c g) h (beq_of_wOp hop) hok hold fun t written => ⟨written.pc, fun l hl hact => ?_⟩
    have value := (written.lanes l hl).trans (if_pos hact)
    rw [hf l, hsel] at value
    obtain ⟨quotient, remainder, least⟩ : DivCorner 32 (wType w) (wFn w) (((s.group c g).lanes (wA w)).1.getD l 0)
        (((s.group c g).lanes (wB w)).1.getD l 0) (((t.group c g).treg (wDst w)).getD l 0) := by
      rw [value, CGroup.srcB, hi]
      exact divCorner_intFn (by decide) hfn
    exact ⟨quotient, remainder, least⟩

end

section
/-! PROOF. Barriers, counters and phase instructions of a cell's group, and NOTIFY (O23): what each gives when its checks pass, and the
events that let a waiting group go on (R206 to R210). -/

namespace Sys2Proof.Machine

/-! Masks. -/

theorem bitOf_setMask_true (m n : Nat) : bitOf (setMask m n true) n = true := by
  simp [setMask, bitOf_eq]

theorem bitOf_setMask_false (m n : Nat) : bitOf (setMask m n false) n = false := by
  rw [setMask, if_neg (by decide)]
  split
  case isTrue h =>
    rw [bitOf_eq] at h ⊢
    have e : m = m - 2 ^ n + 2 ^ n := (Nat.sub_add_cancel (Nat.ge_two_pow_of_testBit h)).symm
    rw [e, Nat.add_comm, Nat.testBit_two_pow_add_eq] at h
    simpa using h
  case isFalse h => simpa using h

/-! What each instruction gives. -/

section

variable {x : Ctx} {q : CGroup} {w : Nat}

theorem barSync_arrives (hok : barOk w = .ok ()) :
    barSync x q w = .ok ({ q.past with arrived := setMask q.arrived (wBar w) true, wait := .barrier (wBar w) }, 0) := by
  unfold barSync
  exact check_ok hok rfl

theorem barArrive_arrives (hok : barOk w = .ok ()) (h : bitOf q.arrived (wBar w) = false) :
    barArrive x q w = .ok ({ q.past with arrived := setMask q.arrived (wBar w) true }, 0) := by
  unfold barArrive
  exact check_ok hok (if_neg (by simp [h]))

theorem barArrive_stays (hok : barOk w = .ok ()) (h : bitOf q.arrived (wBar w) = true) : barArrive x q w = .ok (q, 0) := by
  unfold barArrive
  exact check_ok hok (if_pos h)

theorem barWait_waits (hok : barOk w = .ok ()) :
    barWait x q w = .ok ({ q.past with wait := if bitOf q.arrived (wBar w) then .barrier (wBar w) else q.wait }, 0) := by
  unfold barWait
  refine check_ok hok ?_
  split
  all_goals rfl

theorem wait_waits (hp : wPred w = 0) (hc : bitsOf w 23 20 ≤ 4) (hz : bitsOf w 29 24 = 0) (hz' : bitsOf w 19 8 = 0) :
    wait_ x q w = .ok ({ q.past with wait := .counter (bitsOf w 23 20) (w % 256) }, 0) := by
  unfold wait_
  exact check_ok (noPred_ok hp) <| check_ok (need_ok _ (by rw [decide_eq_true hc, decide_eq_true hz, decide_eq_true hz']; rfl)) rfl

theorem fence_waits (hp : wPred w = 0) (hc : bitsOf w 22 20 ≠ 0) (hz : bitsOf w 29 23 = 0) (hz' : w % 2 ^ 20 = 0) :
    fence_ x q w = .ok ({ q.past with wait := .fence (bitsOf w 22 20) }, 0) := by
  unfold fence_
  exact check_ok (noPred_ok hp) <| check_ok (need_ok _ (by rw [decide_eq_true hc, decide_eq_true hz, decide_eq_true hz']; rfl)) rfl

theorem pwait_enabled {en : Nat → Bool} {val : Nat → Nat} (hp : wPred w = 0) (ha : wA w < 32) (hen : en (bitsOf w 23 20) = true)
    (hbad : q.sbad (wA w) = false) :
    pwait en val x q w = .ok (if reached (val (bitsOf w 23 20)) (q.sreg (wA w)) then q.past
      else { q with wait := .pwait (bitsOf w 23 20) (q.sreg (wA w)) }, 0) := by
  unfold pwait
  refine check_ok (noPred_ok hp) <| check_ok (scalarCode_ok ha) <| check_ok (need_ok _ hen) <| check_ok (CGroup.cleanS_ok hbad) ?_
  split
  all_goals rfl

theorem pread_scalar {en : Nat → Bool} {val : Nat → Nat} (hp : wPred w = 0) (hd : wDst w < 32) :
    pread en val x q w =
      .ok (q.scalarStep (wDst w) (if en (bitsOf w 23 20) then val (bitsOf w 23 20) else 0) false) := by
  unfold pread
  exact check_ok (noPred_ok hp) <| check_ok (scalarCode_ok hd) rfl

theorem notify_checked (hp : wPred w = 0) (hz : w % 2 ^ 36 = 0) (hd : wDst w = 0) (ha : wA w < 32) (hb : wB w < 32)
    (hbad : q.sbad (wA w) = false) : notifyOk x q w = .ok (q.past, 0) := by
  unfold notifyOk
  exact check_ok (noPred_ok hp) <| check_ok (need_ok _ (by rw [decide_eq_true hz, decide_eq_true hd]; rfl)) <|
    check_ok (scalarCode_ok ha) <| check_ok (scalarCode_ok hb) <| check_ok (CGroup.cleanS_ok hbad) rfl

end

/-! The commands that issue them. -/

section

variable (s : State) (c : Fin 256) (g : Fin 128)

theorem exec_barSync : exec (.barSync c g) s = .next (s.issue c g (fun w => wOp w == 0x38 && wFn w == 0) barSync) := rfl

theorem exec_barArrive : exec (.barArrive c g) s = .next (s.issue c g (fun w => wOp w == 0x38 && wFn w == 1) barArrive) := rfl

theorem exec_barWait : exec (.barWait c g) s = .next (s.issue c g (fun w => wOp w == 0x38 && wFn w == 2) barWait) := rfl

theorem exec_wait : exec (.wait c g) s = .next (s.issue c g (fun w => wOp w == 0x39 && wFn w == 0) wait_) := rfl

theorem exec_fence : exec (.fence c g) s = .next (s.issue c g (fun w => wOp w == 0x39 && wFn w == 1) fence_) := rfl

theorem exec_pwait : exec (.pwait c g) s =
    .next (s.issue c g (fun w => wOp w == 0x3A && wFn w == 0) (pwait s.axEn s.axValue)) := rfl

theorem exec_pread : exec (.pread c g) s =
    .next (s.issue c g (fun w => wOp w == 0x3A && wFn w == 1) (pread s.axEn s.axValue)) := rfl

theorem want_of {op fn w : Nat} (hop : wOp w = op) (hfn : wFn w = fn) : (wOp w == op && wFn w == fn) = true := by
  rw [hop, hfn, beq_self_eq_true, beq_self_eq_true, Bool.and_self]

end

/-! Events. -/

section

variable {s : State} {c : Fin 256} {g : Fin 128} {w : Nat}

theorem exec_barrierPhaseComplete_done {b : Fin 16} (h : (s.cell c).phaseDone b = true) :
    exec (.barrierPhaseComplete c b) s = .next (s.modCell c fun x => x.closePhase b) :=
  congrArg Host.Outcome.next (if_pos h)

theorem exec_barrierPhaseComplete_open {b : Fin 16} (h : (s.cell c).phaseDone b = false) :
    exec (.barrierPhaseComplete c b) s = .next s :=
  congrArg Host.Outcome.next (if_neg (by simp [h]))

/-- No group is arrived at a barrier whose phase completes, or waits there. -/
theorem CellS.closePhase_clear (x : CellS) (b : Nat) :
    ((x.closePhase b).groups.all fun p => !bitOf p.2.arrived b && decide (p.2.wait ≠ .barrier b)) = true := by
  rw [CellS.closePhase, List.all_map, List.all_eq_true]
  intro p _
  simp only [Function.comp, bitOf_setMask_false, Bool.not_false, Bool.true_and, decide_eq_true_eq]
  split
  case isTrue => simp
  case isFalse h => exact h

theorem exec_pwaitReached_waiting {ax tg : Nat} (hw : (s.group c g).wait = .pwait ax tg) :
    exec (.pwaitReached c g) s = .next (if s.cellState c = csRUNNING && (s.group c g).run = 1 && !s.axStalled ax &&
      reached (s.axValue ax) tg then s.setGroup c g { (s.group c g).past with wait := .none } else s) := by
  change execPwaitReached c g s = _
  rw [execPwaitReached, hw]

/-- A NOTIFY that issues rings the doorbell from the state that its issue leaves (R210). -/
theorem exec_notify_issued (h : s.atWord c g w) (hop : wOp w = 0x3B) (hp : wPred w = 0) (hz : w % 2 ^ 36 = 0) (hd : wDst w = 0)
    (ha : wA w < 32) (hb : wB w < 32) (hbad : (s.group c g).sbad (wA w) = false) :
    exec (.notify c g) s = .next ((s.issued c g (s.group c g).issuing.past 0).notify_ c g w (s.group c g)) := by
  have hok {q : CGroup} (hq : q.sbad (wA w) = false) : notifyOk (s.ctx c g) q w = .ok (q.past, 0) := notify_checked hp hz hd ha hb hq
  have hword : s.nextWord c g (fun w => wOp w == 0x3B) = some w := State.nextWord_of_atWord h (beq_of_wOp hop)
  have hissue : s.issue c g (fun w => wOp w == 0x3B) notifyOk = s.issued c g (s.group c g).issuing.past 0 :=
    State.issue_ok (r := (_, 0)) h (beq_of_wOp hop) (hok hbad)
  change execNotify c g s = _
  rw [execNotify, hword]
  simp only [hok hbad, hissue]

/-- The doorbell of a NOTIFY is acknowledged, or its error response is pending. -/
theorem State.notify_of_doorbell {v u : State} {q : CGroup} {err : Bool} (c g : Nat)
    (h : v.doorbell (mCell c) (asInst (v.cellInst c)) (v.instGen (v.cellInst c)) (q.sreg (wA w) % 2 ^ 19) (q.sreg (wB w) % 2 ^ 32) =
      (u, err)) :
    v.notify_ c g w q = if err then u.pendExc c ⟨excACCESS, g, q.pc, w, q.sreg (wA w) % 2 ^ 19⟩ else u := by
  rw [State.notify_]
  simp only [h]

end

end Sys2Proof.Machine

open Sys2Proof Sys2Proof.Machine

/-- Settles O23: each word that passes its checks gives the group alone, and an event changes the groups that it lets go on. -/
theorem barriersCountersAndPhaseInstructions : Obligations.BarriersCountersAndPhaseInstructions := by
  unfold Obligations.BarriersCountersAndPhaseInstructions
  refine ⟨?barriers, ?phase, ?noPhase, ?counters, ?pwait, ?reached, ?notReached, ?pread, ?notify⟩
  case barriers =>
    intro s c g w h hop hok
    refine ⟨fun hfn => ?_, fun hfn hfree => ?_, fun hfn hheld => ?_, fun hfn => ?_⟩
    · refine .of_group (exec_barSync s c g) h (want_of hop hfn) (barSync_arrives hok) fun t ht only => ?_
      rw [ht]
      exact ⟨rfl, bitOf_setMask_true _ _, rfl, only⟩
    · refine .of_group (exec_barArrive s c g) h (want_of hop hfn) (barArrive_arrives hok hfree) fun t ht only => ?_
      rw [ht]
      exact ⟨rfl, bitOf_setMask_true _ _, rfl, only⟩
    · refine .of_group (exec_barArrive s c g) h (want_of hop hfn) (barArrive_stays hok hheld) fun t ht only => ?_
      rw [ht]
      exact ⟨rfl, rfl, only⟩
    · refine .of_group (exec_barWait s c g) h (want_of hop hfn) (barWait_waits hok) fun t ht only => ?_
      rw [ht]
      exact ⟨rfl, rfl, rfl, only⟩
  case phase =>
    intro s c b h
    refine .of_exec (exec_barrierPhaseComplete_done h) ?_
    rw [State.cell_modCell_same]
    refine ⟨CellS.closePhase_clear _ _, ?_, ?_, rfl, rfl, fun k hk => fmGetD_fmPut_other _ _ _ hk⟩
    · simp [CellS.closePhase]
    · simp [CellS.closePhase]
  case noPhase => exact fun s c b h => exec_barrierPhaseComplete_open h
  case counters =>
    intro s c g w h hop hp
    refine ⟨fun hfn hc hz hz' => ?_, fun hfn hc hz hz' => ?_⟩
    · refine .of_group (exec_wait s c g) h (want_of hop hfn) (wait_waits hp hc hz hz') fun t ht only => ?_
      rw [ht]
      exact ⟨rfl, rfl, only⟩
    · refine .of_group (exec_fence s c g) h (want_of hop hfn) (fence_waits hp hc hz hz') fun t ht only => ?_
      rw [ht]
      exact ⟨rfl, rfl, only⟩
  case pwait =>
    intro s c g w h hop hfn hp ha hen hbad
    refine .of_group (exec_pwait s c g) h (want_of hop hfn) (pwait_enabled hp ha hen hbad) fun t ht only => ?_
    rw [ht]
    by_cases hr : reached (s.axValue (bitsOf w 23 20)) ((s.group c g).sreg (wA w)) = true
    · have hr' : reached (s.axValue (bitsOf w 23 20)) ((s.group c g).issuing.sreg (wA w)) = true := hr
      rw [if_pos hr, if_pos hr']
      exact ⟨⟨rfl, rfl⟩, rfl, only⟩
    · have hr' : ¬reached (s.axValue (bitsOf w 23 20)) ((s.group c g).issuing.sreg (wA w)) = true := hr
      rw [if_neg hr, if_neg hr']
      exact ⟨⟨rfl, rfl⟩, rfl, only⟩
  case reached =>
    intro s c g ax tg hw hst hrun hstall hr
    refine .of_exec ((exec_pwaitReached_waiting hw).trans (congrArg _ (if_pos (by simp [hst, hrun, hstall, hr])))) ?_
    rw [State.group_setGroup_same]
    exact ⟨rfl, rfl, State.groupOnly_setGroup _ _ _ _⟩
  case notReached =>
    intro s c g ax tg hw hno
    refine (exec_pwaitReached_waiting hw).trans (congrArg _ (if_neg ?_))
    rcases hno with h | h <;> simp [h]
  case pread =>
    intro s c g w h hop hfn hp hd
    refine .of_scalarStep (exec_pread s c g) h (want_of hop hfn) (pread_scalar hp hd) hd fun t put only =>
      ⟨put.value.trans (if_congr Iff.rfl rfl ?_), put.others, put.pc, only⟩
    split <;> rfl
  case notify =>
    intro s u c g w err h hop hp hz hd ha hb hbad q v hring
    exact (exec_notify_issued h hop hp hz hd ha hb hbad).trans (congrArg _ (State.notify_of_doorbell (q := q) c g hring))

end

section
/-! PROOF. Completion of the operations at the heads of a cell's queues (O26): what leaving a queue does to cell and group, and what
MMA, ACCLD, FILL and the long routines leave (R206, R224, R228, R242, R252). -/

namespace Sys2Proof.Machine

/-! Leaving a queue (R206). -/

/-- The group after one of its operations has left a queue. -/
def CGroup.dequeued (q : CGroup) : QSel → CGroup
  | .tensor => { q with tq := q.tq - 1 }
  | .move => { q with mq := q.mq - 1 }
  | .long => { q with lq := q.lq - 1 }

section

variable {s : State} {c g : Nat} {sel : QSel}

/-- In a running cell no drain waits for the operation. -/
theorem State.qDone_of_running (h : s.cellState c = csRUNNING) : s.qDone c g sel = s.setGroup c g ((s.group c g).dequeued sel) := by
  cases sel <;> exact State.afterDrain_of_running h

theorem State.cell_qDone (h : s.cellState c = csRUNNING) :
    (s.qDone c g sel).cell c = (s.cell c).setGroup g ((s.group c g).dequeued sel) := by
  rw [State.qDone_of_running h, State.setGroup, State.cell_modCell_same]

theorem State.group_qDone (h : s.cellState c = csRUNNING) : (s.qDone c g sel).group c g = (s.group c g).dequeued sel := by
  rw [State.qDone_of_running h, State.group_setGroup_same]

theorem State.qDone_mem (h : s.cellState c = csRUNNING) : (s.qDone c g sel).mem = s.mem := by
  rw [State.qDone_of_running h]
  rfl

theorem State.qDone_regs (h : s.cellState c = csRUNNING) : (s.qDone c g sel).regs = s.regs := by
  rw [State.qDone_of_running h]
  rfl

end

/-! Accumulator tiles. -/

theorem CellS.tile_setAt_same (x : CellS) {n : Nat} (t : AccTile) (h : n < x.acc.length) :
    ({ x with acc := setAt x.acc n t } : CellS).tile n = t := by
  simp [CellS.tile, setAt, List.getD_eq_getElem?_getD, h]

theorem CellS.tile_setAt_other (x : CellS) {n k : Nat} (t : AccTile) (h : k ≠ n) :
    ({ x with acc := setAt x.acc n t } : CellS).tile k = x.tile k := by
  simp [CellS.tile, setAt, List.getD_eq_getElem?_getD, List.getElem?_set_ne h.symm]

/-! Sticky flags (R121). -/

section

variable {s : State} {c g fl : Nat}

theorem State.raiseFlags_cell (s : State) (c g fl k : Nat) : (s.raiseFlags c g fl).cell k = s.cell k := by
  rw [State.cell, State.raiseFlags_cel, State.cell]

theorem State.word_raiseFlags_other (h : regsWf s.regs = true) {a : Nat} (ha : a ≠ rAflags c g) :
    (s.raiseFlags c g fl).word a = s.word a := by
  rw [State.raiseFlags]
  split
  · rfl
  · exact State.word_orWord_other h _ ha

theorem State.bit_raiseFlags (h : regsWf s.regs = true) {k : Nat} (hk : k < 5) (hbit : bitOf fl k = true) :
    (s.raiseFlags c g fl).bit (rAflags c g) k = true := by
  have hfl : fl ≠ 0 := by
    rintro rfl
    simp [bitOf] at hbit
  rw [bitOf_eq] at hbit
  rw [State.raiseFlags, if_neg hfl, State.bit_orWord_same h _ _ (by omega), bitOf_eq (fl % 32),
    Nat.testBit_mod_two_pow (j := 5), decide_eq_true hk, hbit, Bool.and_self, Bool.or_true]

theorem bitOf_or_left {x k : Nat} (y : Nat) (h : bitOf x k = true) : bitOf (x ||| y) k = true := by
  rw [bitOf_eq] at h ⊢
  rw [Nat.testBit_or, h, Bool.true_or]

/-- The flags of a group stand above the states of the cells. -/
theorem rCell_ne_rAflags {c g k : Nat} (hk : k < 256) : rCell k 0 ≠ rAflags c g := by
  rw [rCell_eq_rCel, rAflags, Ne, rCel_inj]
  omega

theorem State.cellState_raiseFlags (h : regsWf s.regs = true) {k : Nat} (hk : k < 256) :
    (s.raiseFlags c g fl).cellState k = s.cellState k :=
  State.fld_congr (State.word_raiseFlags_other h (rCell_ne_rAflags hk)) 3 0

end

/-! The tensor queue (R232). -/

section

variable {s : State} {c : Nat} {op : QOp} {r : List QOp}

/-- The tensor operation is performed. -/
def State.runTensor (s : State) (c : Nat) (op : QOp) : State :=
  if wOp op.word = 0x20 then s.runMma c op else if wOp op.word = 0x21 then s.runMmaw c op
  else if wOp op.word = 0x22 then s.runAccrd c op else s.runAccld c op

theorem State.tensorDone_cons (h : (s.cell c).tq = op :: r) :
    s.tensorDone c = ((s.runTensor c op).modCell c fun x => { x with tq := r }).qDone c op.group .tensor := by
  rw [State.tensorDone, State.runTensor]
  simp only [h]
  split <;> simp_all

/-- The operation has left the tensor queue of a running cell. -/
theorem State.offTensor_effect {g : Nat} (h : s.cellState c = csRUNNING) :
    let t := (s.modCell c fun x => { x with tq := r }).qDone c g .tensor
    (∀ n, (t.cell c).tile n = (s.cell c).tile n) ∧ (t.cell c).tq = r ∧ (t.group c g).tq = (s.group c g).tq - 1 ∧ t.mem = s.mem ∧
      t.regs = s.regs := by
  have hrun : (s.modCell c fun x => { x with tq := r }).cellState c = csRUNNING := h
  dsimp only
  rw [State.cell_qDone hrun, State.group_qDone hrun, State.qDone_mem hrun, State.qDone_regs hrun, State.group, State.cell_modCell_same]
  exact ⟨fun _ => rfl, rfl, rfl, rfl, rfl⟩

theorem State.tensorDone_nil (h : (s.cell c).tq = []) : s.tensorDone c = s := by
  rw [State.tensorDone, h]

/-- The state after a tensor operation of group g that put t into accumulator tile d and raised the flags fl. -/
def State.tilePut (s : State) (c g d : Nat) (t : AccTile) (fl : Nat) : State := (s.setTile c d t).raiseFlags c g fl

theorem State.tilePut_zero (s : State) (c g d : Nat) (t : AccTile) : s.tilePut c g d t 0 = s.setTile c d t := by
  rw [State.tilePut, State.raiseFlags, if_pos rfl]

theorem State.cellState_tilePut {g d fl k : Nat} {t : AccTile} (h : regsWf s.regs = true) (hk : k < 256) :
    (s.tilePut c g d t fl).cellState k = s.cellState k := State.cellState_raiseFlags (s := s.setTile c d t) h hk

theorem State.word_tilePut_other {g d fl a : Nat} {t : AccTile} (h : regsWf s.regs = true) (ha : a ≠ rAflags c g) :
    (s.tilePut c g d t fl).word a = s.word a := State.word_raiseFlags_other (s := s.setTile c d t) h ha

theorem State.bit_tilePut {g d fl k : Nat} {t : AccTile} (h : regsWf s.regs = true) (hk : k < 5) (hbit : bitOf fl k = true) :
    (s.tilePut c g d t fl).bit (rAflags c g) k = true := State.bit_raiseFlags (s := s.setTile c d t) h hk hbit

/-- What such an operation leaves when it has left its queue. -/
theorem State.tilePut_effect {g d fl : Nat} {x : AccTile} (hst : (s.tilePut c g d x fl).cellState c = csRUNNING)
    (hd : d < (s.cell c).acc.length) :
    let t := ((s.tilePut c g d x fl).modCell c fun y => { y with tq := r }).qDone c g .tensor
    (t.cell c).tile d = x ∧ (∀ n, n ≠ d → (t.cell c).tile n = (s.cell c).tile n) ∧ (t.cell c).tq = r ∧
      (t.group c g).tq = (s.group c g).tq - 1 ∧ t.mem = s.mem ∧ t.regs = (s.tilePut c g d x fl).regs := by
  have hcell : (s.tilePut c g d x fl).cell c = { s.cell c with acc := setAt (s.cell c).acc d x } := by
    rw [State.tilePut, State.raiseFlags_cell, State.setTile, State.cell_modCell_same]
  obtain ⟨htile, htq, hgroup, hmem, hregs⟩ := State.offTensor_effect (r := r) (g := g) hst
  dsimp only
  simp only [htile, hcell]
  refine ⟨CellS.tile_setAt_same _ x hd, fun n hn => CellS.tile_setAt_other _ x hn, htq, hgroup.trans ?_,
    hmem.trans (State.raiseFlags_mem _ _ _ _), hregs⟩
  rw [State.group, hcell]
  rfl

/-- The tile that an MMA leaves, and the flags of its reductions (R224). -/
def State.mmaResult (s : State) (c : Nat) (op : QOp) : AccTile × Nat :=
  mmaTile (exactFmts (tdFmt op.a) (tdFmt op.b)) op.x (blockSize (tdSmode op.a) (tdSmode op.b) op.x)
    (s.tdRowsOf c op.a op.x).1 (s.tdRowsOf c op.b op.x).1 (bitOf op.word 29) ((s.cell c).tile op.d)

theorem State.runTensor_mma (hop : wOp op.word = 0x20) :
    ∃ fl, s.runTensor c op = s.tilePut c op.group op.d (s.mmaResult c op).1 ((s.mmaResult c op).2 ||| fl) := ⟨_, if_pos hop⟩

/-- ACCLD leaves a tile of 4,096 FP32 elements and raises no flag (R228). -/
theorem State.runTensor_accld (hop : wOp op.word = 0x23) :
    ∃ els, els.length = 4096 ∧ s.runTensor c op = s.tilePut c op.group op.d ⟨2, els⟩ 0 := by
  rw [State.runTensor, hop]
  exact ⟨_, by rw [List.length_map, List.length_range], rfl⟩

end

/-! The movement queue (R243). -/

section

variable {s : State} {c : Nat} {op : QOp} {r : List QOp}

/-- The move is performed. -/
def State.runMove (s : State) (c : Nat) (op : QOp) : State :=
  if wOp op.word = 0x31 then s.runTcopy c op else if wOp op.word = 0x32 then s.runTrans c op else s.runFill c op

/-- The operation has left the movement queue of a running cell. -/
theorem State.offMove_effect {g : Nat} (h : s.cellState c = csRUNNING) :
    let t := (s.modCell c fun x => { x with mq := r }).qDone c g .move
    (t.cell c).mq = r ∧ (t.group c g).mq = (s.group c g).mq - 1 ∧ t.mem = s.mem ∧ t.regs = s.regs := by
  have hrun : (s.modCell c fun x => { x with mq := r }).cellState c = csRUNNING := h
  dsimp only
  rw [State.cell_qDone hrun, State.group_qDone hrun, State.qDone_mem hrun, State.qDone_regs hrun, State.group, State.cell_modCell_same]
  exact ⟨rfl, rfl, rfl, rfl⟩

theorem State.moveDone_nil (h : (s.cell c).mq = []) : s.moveDone c = s := by
  rw [State.moveDone, h]

theorem State.moveDone_lace (h : (s.cell c).mq = op :: r) (hop : wOp op.word = 0x30) : s.moveDone c = s := by
  rw [State.moveDone, h]
  exact if_pos hop

theorem State.moveDone_cons (h : (s.cell c).mq = op :: r) (hop : wOp op.word ≠ 0x30) :
    s.moveDone c = ((s.runMove c op).modCell c fun x => { x with mq := r }).qDone c op.group .move := by
  rw [State.moveDone, h, State.runMove]
  simp only [if_neg hop]
  split <;> simp_all

end

/-! The long queue (R252). -/

section

variable {s : State} {c : Nat} {op : QOp} {r : List QOp}

/-- The cell past the long operation at the head of its queue, its group being q. -/
def State.offLong (s : State) (c : Nat) (op : QOp) (r : List QOp) (q : CGroup) : State :=
  (s.modCell c fun x => { x with lq := r }).setGroup c op.group q

theorem State.group_modCell_lq (s : State) (c g : Nat) (r : List QOp) :
    (s.modCell c fun x => { x with lq := r }).group c g = s.group c g := by
  rw [State.group, State.cell_modCell_same]
  rfl

theorem State.longDone_nil (h : (s.cell c).lq = []) : s.longDone c = s := by
  rw [State.longDone, h]

theorem State.longDone_end {x : LRun} (h : (s.cell c).lq = op :: r) (hx : s.runLong c op (2 ^ 64) = x) (hf : x.fault = none) :
    s.longDone c =
      (x.st.offLong c op r { (x.st.group c op.group).past with resume := 0, wait := .none }).qDone c op.group .long := by
  rw [State.longDone, h]
  simp only [hx, hf, State.group_modCell_lq]
  rfl

theorem State.longDone_fault {x : LRun} {f : Nat × Nat} (h : (s.cell c).lq = op :: r) (hx : s.runLong c op (2 ^ 64) = x)
    (hf : x.fault = some f) (hop : restartableOp op.word = true) :
    s.longDone c =
      ((x.st.offLong c op r { x.st.group c op.group with resume := x.next }).opFault c op f.1 f.2).qDone c op.group .long := by
  rw [State.longDone, h]
  simp only [hx, hf, State.group_modCell_lq, hop, if_true]
  rfl

theorem State.cell_offLong (s : State) (c : Nat) (op : QOp) (r : List QOp) (q : CGroup) :
    (s.offLong c op r q).cell c = CellS.setGroup { s.cell c with lq := r } op.group q := by
  rw [State.offLong, State.setGroup, State.cell_modCell_same, State.cell_modCell_same]

theorem State.group_offLong (s : State) (c : Nat) (op : QOp) (r : List QOp) (q : CGroup) :
    (s.offLong c op r q).group c op.group = q := State.group_setGroup_same _ _ _ _

theorem State.cell_opFault (s : State) (c : Nat) (op : QOp) (cause addr : Nat) :
    (s.opFault c op cause addr).cell c =
      { s.cell c with async := (s.cell c).async ++ [⟨cause, op.group, op.pc, op.word, addr⟩] } := by
  rw [State.opFault, State.pendExc, State.cell_modCell_same]

theorem State.group_opFault (s : State) (c : Nat) (op : QOp) (cause addr g : Nat) :
    (s.opFault c op cause addr).group c g = s.group c g := by
  rw [State.group, State.cell_opFault]
  rfl

end

/-! Rows of elements (R109). -/

theorem foldl_eq_self {α β : Type} {f : β → α → β} {b : β} : ∀ {l : List α}, (∀ x ∈ l, f b x = b) → l.foldl f b = b
  | [], _ => rfl
  | x :: l, h => by
    rw [List.foldl_cons, h x List.mem_cons_self]
    exact foldl_eq_self fun y hy => h y (List.mem_cons_of_mem _ hy)

/-- A row of clean elements is one write of its bytes. -/
theorem State.tsWriteRow_clean {s : State} {c o w : Nat} {l : List (Nat × Bool)} (hne : l ≠ []) (hl : ∀ p ∈ l, p.2 = false) :
    s.tsWriteRow c o w l = s.tsWrite c o (leBytes ((l.length * w + 7) / 8)
      (setBitsOf (s.tsNat c o ((l.length * w + 7) / 8)) (l.length * w - 1) 0 (packElems w l))) false := by
  rw [State.tsWriteRow, List.isEmpty_eq_false_iff.mpr hne]
  refine foldl_eq_self fun p hp => if_neg ?_
  rw [hl p.2 (List.of_mem_zip hp).2]
  decide

/-- A field that covers the whole number replaces it. -/
theorem setBitsOf_whole {old n : Nat} (v : Nat) (hn : 0 < n) (h : old < 2 ^ n) : setBitsOf old (n - 1) 0 v = v % 2 ^ n := by
  have hz : old >>> n = 0 := Nat.shiftRight_eq_zero _ _ h
  rw [setBitsOf, Nat.sub_add_cancel hn, Nat.sub_zero, hz]
  simp [Nat.mod_one]

theorem leBytes_congr : ∀ {n x y : Nat}, x % 256 ^ n = y % 256 ^ n → leBytes n x = leBytes n y
  | 0, _, _, _ => rfl
  | n + 1, x, y, h => by
    have hdvd : 256 ∣ 256 ^ (n + 1) := dvd_pow_self 256 n.succ_ne_zero
    have low : x % 256 = y % 256 := by rw [← Nat.mod_mod_of_dvd x hdvd, h, Nat.mod_mod_of_dvd y hdvd]
    have high : x / 256 % 256 ^ n = y / 256 % 256 ^ n := by
      rw [← Nat.mod_mul_right_div_self, ← Nat.mod_mul_right_div_self, ← Nat.pow_succ', h]
    rw [leBytes, leBytes, Nat.shiftRight_eq_div_pow, Nat.shiftRight_eq_div_pow, leBytes_congr high]
    exact congrArg (· :: _) (BitVec.eq_of_toNat_eq (by simpa using low))

/-- The bytes of n words count their bits. -/
theorem pow_words (n : Nat) : 256 ^ (4 * n) = 2 ^ (n * 32) := by
  rw [show 256 = 2 ^ 8 from rfl, ← Nat.pow_mul]
  exact congrArg _ (by omega)

/-- Each element of a packed row of 32-bit elements that are all the same. -/
theorem leBytes_packElems_replicate (v : Nat) (bad : Bool) : ∀ {n k : Nat}, k < n →
    ((leBytes (4 * n) (packElems 32 (List.replicate n (v % 2 ^ 32, bad)))).drop (4 * k)).take 4 = leBytes 4 v
  | n + 1, k, hk => by
    have hrow : leBytes (4 * (n + 1)) (packElems 32 (List.replicate (n + 1) (v % 2 ^ 32, bad))) =
        leBytes 4 v ++ leBytes (4 * n) (packElems 32 (List.replicate n (v % 2 ^ 32, bad))) := by
      rw [List.replicate_succ, packElems, Nat.mul_succ, Nat.add_comm (4 * n), leBytes_append, Nat.mod_mod,
        Nat.shiftRight_eq_div_pow, Nat.add_mul_div_right _ _ (by decide), Nat.div_eq_of_lt (Nat.mod_lt _ (by decide)), Nat.zero_add]
      exact congrArg (· ++ _) (leBytes_congr (by omega))
    have hlen : (leBytes 4 v).length = 4 := leBytes_length 4 v
    rw [hrow]
    cases k with
    | zero => exact (congrArg (List.take · _) hlen.symm).trans List.take_left
    | succ k =>
      have e : 4 * (k + 1) = (leBytes 4 v).length + 4 * k := by rw [hlen]; omega
      rw [e, List.drop_append, List.drop_eq_nil_of_le (by omega)]
      simpa using leBytes_packElems_replicate v bad (Nat.lt_of_succ_lt_succ hk)

theorem State.bytes_within (s : State) (a : Nat) {n k m : Nat} (h : k + m ≤ n) :
    s.bytes (a + k) m = ((s.bytes a n).drop k).take m := by
  refine List.ext_getElem (by simp [State.bytes, stGetRun]; omega) fun i _ _ => ?_
  simp [State.bytes, stGetRun, Nat.add_assoc]

/-! FILL (R242). -/

section

variable {s : State} {c : Nat} {op : QOp}

/-- The bytes of a FILL of one row of 32-bit elements. -/
def fillBytes (op : QOp) : List Byte := leBytes (4 * op.x) (packElems 32 (List.replicate op.x (op.y % 2 ^ 32, false)))

theorem fillBytes_length (op : QOp) : (fillBytes op).length = 4 * op.x := leBytes_length _ _

theorem State.runFill_row (hbits : elemBits (tdFmt op.d) = 32) (hrows : tdRows op.d = 1) (hx : 0 < op.x) (hbad : op.bad = false) :
    s.runFill c op = s.tsWrite c (tdBase op.d) (fillBytes op) false := by
  have hne : List.replicate op.x (op.y % 2 ^ 32, false) ≠ [] := by simp [hx.ne']
  have hsize : (op.x * 32 + 7) / 8 = 4 * op.x := by omega
  have hold : s.tsNat c (tdBase op.d) (4 * op.x) < 2 ^ (op.x * 32) := (s.tsNat_lt c _ _).trans_eq (pow_words op.x)
  have hrow : s.runFill c op = s.tsWriteRow c (tdBase op.d + 0 * tdStride op.d) 32 (List.replicate op.x (op.y % 2 ^ 32, false)) := by
    rw [State.runFill, hbits, hrows, hbad]
    rfl
  rw [hrow, Nat.zero_mul, Nat.add_zero, State.tsWriteRow_clean hne (fun p hp => by rw [List.eq_of_mem_replicate hp]),
    List.length_replicate, hsize, setBitsOf_whole _ (by omega) hold, fillBytes]
  refine congrArg (State.tsWrite s c _ · false) (leBytes_congr ?_)
  rw [pow_words, Nat.mod_mod]

theorem State.fill_effect (hwf : Memory.wf s.mem = true) (hp : s.poison = []) (op : QOp) :
    let t := s.tsWrite c (tdBase op.d) (fillBytes op) false
    (∀ k, k < op.x → t.bytes (tsAddr c (tdBase op.d + 4 * k)) 4 = leBytes 4 op.y) ∧
      MemoryBut (tsAddr c (tdBase op.d)) (4 * op.x) s t ∧ t.cel = s.cel ∧ t.regs = s.regs := by
  have start := MemOnly.refl hwf hp
  obtain ⟨m, hm⟩ := (start.tsWrite c (tdBase op.d) (fillBytes op)).rest
  have stored := start.bytes_tsWrite_same c (tdBase op.d) (fillBytes op)
  rw [fillBytes_length] at stored
  refine ⟨fun k hk => ?_, fun b hb => start.byte_tsWrite (by rwa [fillBytes_length]), by rw [hm], (start.tsWrite _ _ _).regs⟩
  rw [show tsAddr c (tdBase op.d + 4 * k) = tsAddr c (tdBase op.d) + 4 * k by unfold tsAddr; omega,
    State.bytes_within _ _ (n := 4 * op.x) (by omega), stored]
  exact leBytes_packElems_replicate op.y false hk

end

/-! The commands. -/

section

variable (s : State) (c : Fin 256)

theorem exec_tensorComplete : exec (.tensorComplete c) s = .next (s.tensorDone c) := rfl

theorem exec_movementComplete : exec (.movementComplete c) s = .next (s.moveDone c) := rfl

theorem exec_longRoutineComplete : exec (.longRoutineComplete c) s = .next (s.longDone c) := rfl

end

end Sys2Proof.Machine

open Sys2Proof Sys2Proof.Machine

/-- Settles O26: each completion takes the head off its queue and performs it, in a cell that no drain waits for. -/
theorem queuedOperationsCompleteInOrder : Obligations.QueuedOperationsCompleteInOrder := by
  unfold Obligations.QueuedOperationsCompleteInOrder
  refine ⟨?tensor, ?mma, ?accld, ?noTensor, ?noMove, ?noLong, ?lace, ?move, ?fill, ?longEnd, ?longFault⟩
  case tensor => exact fun s c op r h _ => (exec_tensorComplete s c).trans (congrArg _ (State.tensorDone_cons h))
  case mma =>
    intro s c op r hcan h hst hop hd m
    have hwf := (State.canonical_iff.mp hcan).2
    obtain ⟨fl, hrun⟩ : ∃ fl, s.runTensor c op = s.tilePut c op.group op.d m.1 (m.2 ||| fl) := State.runTensor_mma hop
    obtain ⟨htile, hothers, htq, hgroup, hmem, hregs⟩ :=
      State.tilePut_effect (r := r) (x := m.1) (fl := m.2 ||| fl) (g := op.group) ((State.cellState_tilePut hwf c.isLt).trans hst) hd
    refine .of_exec ((exec_tensorComplete s c).trans (congrArg _ (State.tensorDone_cons h))) ?_
    rw [hrun]
    refine ⟨htile, hothers, htq, hgroup, fun k hk hbit => ?_, hmem, fun a ha => ?_⟩
    · rw [State.bit, State.word_congr hregs]
      exact State.bit_tilePut hwf hk (bitOf_or_left fl hbit)
    · rw [State.word_congr hregs]
      exact State.word_tilePut_other hwf (List.ne_of_not_mem_cons ha)
  case accld =>
    intro s c op r h hst hop hd
    obtain ⟨els, hlen, hrun⟩ := State.runTensor_accld (s := s) (c := c) hop
    have hzero := s.tilePut_zero c op.group op.d ⟨2, els⟩
    obtain ⟨htile, hothers, htq, -, hmem, hregs⟩ :=
      State.tilePut_effect (s := s) (c := c) (g := op.group) (r := r) (x := ⟨2, els⟩) (fl := 0) (by rw [hzero]; exact hst) hd
    refine .of_exec ((exec_tensorComplete s c).trans (congrArg _ (State.tensorDone_cons h))) ?_
    rw [hrun, htile]
    exact ⟨rfl, hlen, hothers, htq, hmem, by rw [hregs, hzero]; rfl⟩
  case noTensor => exact fun s c h => (exec_tensorComplete s c).trans (congrArg _ (State.tensorDone_nil h))
  case noMove => exact fun s c h => (exec_movementComplete s c).trans (congrArg _ (State.moveDone_nil h))
  case noLong => exact fun s c h => (exec_longRoutineComplete s c).trans (congrArg _ (State.longDone_nil h))
  case lace => exact fun s c op r h hop => (exec_movementComplete s c).trans (congrArg _ (State.moveDone_lace h hop))
  case move => exact fun s c op r h hop => (exec_movementComplete s c).trans (congrArg _ (State.moveDone_cons h hop))
  case fill =>
    intro s c op r hcan hp h hst hop hbits hrows hx hbad
    have hwf := (State.canonical_iff.mp hcan).1
    have hrun : s.runMove c op = s.tsWrite c (tdBase op.d) (fillBytes op) false := by
      rw [State.runMove, hop]
      exact State.runFill_row hbits hrows hx hbad
    obtain ⟨stored, others, cells, regs⟩ := State.fill_effect (c := c) hwf hp op
    obtain ⟨hmq, hgroup, hmem, hregs⟩ := State.offMove_effect (s := s.tsWrite c (tdBase op.d) (fillBytes op) false) (c := c) (r := r)
      (g := op.group) ((State.fld_congr (State.word_congr regs _) 3 0).trans hst)
    refine .of_exec ((exec_movementComplete s c).trans (congrArg _ (State.moveDone_cons h (by rw [hop]; decide)))) ?_
    rw [hrun]
    refine ⟨fun k hk => (State.bytes_congr hmem _ _).trans (stored k hk), fun b hb => (State.byte_congr hmem b).trans (others b hb), hmq,
      hgroup.trans ?_, hregs.trans regs⟩
    rw [State.group, State.cell, cells]
    rfl
  case longEnd =>
    intro s c op r h hf hst
    generalize hx : s.runLong c op (2 ^ 64) = x at hf hst
    refine .of_exec ((exec_longRoutineComplete s c).trans (congrArg _ (State.longDone_end h hx hf))) ?_
    generalize hq : ({ (x.st.group c op.group).past with resume := 0, wait := .none } : CGroup) = q
    have hrun : (x.st.offLong c op r q).cellState c = csRUNNING := hst
    rw [State.cell_qDone hrun, State.group_qDone hrun, State.qDone_mem hrun, State.qDone_regs hrun, State.cell_offLong, State.group_offLong,
      ← hq]
    exact ⟨rfl, rfl, rfl, rfl, rfl, rfl⟩
  case longFault =>
    intro s c op r f h hf hst hop
    generalize hx : s.runLong c op (2 ^ 64) = x at hf hst
    refine .of_exec ((exec_longRoutineComplete s c).trans (congrArg _ (State.longDone_fault h hx hf hop))) ?_
    generalize hq : ({ x.st.group c op.group with resume := x.next } : CGroup) = q
    have hrun : ((x.st.offLong c op r q).opFault c op f.1 f.2).cellState c = csRUNNING := hst
    rw [State.cell_qDone hrun, State.group_qDone hrun, State.cell_opFault, State.group_opFault, State.cell_offLong, State.group_offLong,
      ← hq]
    exact ⟨rfl, rfl, rfl⟩

end

section
/-! PROOF. Releases, task outcomes, completions and checkpoint comparisons of the Clicker (O28). -/

namespace Sys2Proof.Machine

theorem RegsOnly.clc {l : List Nat} {s t : State} (h : RegsOnly l s t) : t.clc = s.clc := by
  obtain ⟨r, rfl⟩ := h.rest
  rfl

theorem rRelSlot_inj {n o p : Nat} : rRelSlot n o = rRelSlot n p ↔ o = p := by
  unfold rRelSlot rClc
  omega

/-- The registers of the models lie in MHS, not in CLC. -/
theorem rClc_ne_rModel {m o p : Nat} (hp : p < 0x100000) : rClc p ≠ rModel m o := by
  unfold rModel rMhs rClc blkBase bMHS bCLC
  omega

variable {s : State}

/-! Releases (R289). -/

theorem exec_slotReleaseWrite_system {m : Master} {n : Fin 4096} {p : BitVec 32} (hm : s.sysWriter m = true) :
    exec (.slotReleaseWrite m none n p) s = .next ((s.release n m true p.toNat 0).1.respOk []) := by
  change execSlotReleaseWrite m none n p s = _
  simp [execSlotReleaseWrite, isInst, hm]

theorem exec_slotReleaseWrite_stranger {m : Master} {i : Fin 64} {n : Fin 4096} {p : BitVec 32}
    (h : s.bit (rRelSlot n 0) 14 = false) :
    exec (.slotReleaseWrite m (some i) n p) s = .next ((s.release n m false p.toNat 0).1.respErr) := by
  change execSlotReleaseWrite m (some i) n p s = _
  simp [execSlotReleaseWrite, h]

/-- A slot that is disabled, a master that may not, or a clicking that is not READY. -/
theorem State.release_refused {n : Nat} {may : Bool} (m : Master) (p tg : Nat)
    (h : s.bit (rRelSlot n 0) 0 = false ∨ may = false ∨ s.clickState (s.slotClick n) ≠ 2) :
    s.release n m may p tg = (s.relRefuse n m, false) := by
  unfold State.release
  exact if_pos (by simp only [Bool.or_eq_true, Bool.not_eq_true', decide_eq_true_eq]; exact .inl (or_assoc.mpr h))

/-- The release that slot n accepts next, once its count has been raised. -/
def State.relOf (s : State) (n p tg : Nat) : ClcRel :=
  ⟨n, s.word (rRelSlot n 0x20), p, tg, s.slotOwner n, s.clc.order, s.recordTime.1⟩

/-- A release is counted and is a use of its clicking's model (R289, R308). -/
def State.relCounted (s : State) (n : Nat) : State :=
  let u := s.bump (rRelSlot n 0x20)
  ({ u with clc.order := u.clc.order + 1 } : State).useModel (u.clickModel (s.slotClick n))

/-- The releases of the Clicker with one more that waits. -/
def State.pendAdd (s : State) (r : ClcRel) : State := { s with clc.pend := s.clc.pend ++ [r] }

/-- An accepted release of a slot that runs a job waits. -/
def State.relWaits (s : State) (n p tg : Nat) : State :=
  ((s.relCounted n).pendAdd ((s.bump (rRelSlot n 0x20)).relOf n p tg)).showSlot n

/-- With a job running and none waiting there is room for one. -/
theorem State.release_waits {n : Nat} {j : ClcJob} (m : Master) (p tg : Nat) (hen : s.bit (rRelSlot n 0) 0 = true)
    (hready : s.clickState (s.slotClick n) = 2) (hneed : s.word (rRelSlot n 0x34) = 0) (hj : s.jobOf n = some j)
    (hpend : s.clc.pend = []) : s.release n m true p tg = (s.relWaits n p tg, true) := by
  have hwait : s.pendOf n = [] := by rw [State.pendOf, hpend]; rfl
  have hroom : ¬s.slotDepth n ≤ 0 := by unfold State.slotDepth; omega
  simp only [State.release, hen, hready, hneed, hj, hwait, List.length_nil, ge_iff_le, hroom]
  rfl

/-- Counting a release writes its slot's count and the model's time of use. -/
theorem State.relCounted_regsOnly (h : regsWf s.regs = true) (n : Nat) : ∃ m,
    RegsOnly [rModel m 0x28, rModel m 0x2C] { s.bump (rRelSlot n 0x20) with clc.order := s.clc.order + 1 } (s.relCounted n) :=
  ⟨_, RegsOnly.setWord64 (t := { s.bump (rRelSlot n 0x20) with clc.order := s.clc.order + 1 })
    (.refl (State.bump_regsWf (a := rRelSlot n 0x20) h)) _ List.mem_cons_self (List.mem_cons_of_mem _ List.mem_cons_self)⟩

theorem RegsOnly.showSlot {l : List Nat} {t : State} (h : RegsOnly l s t) {n : Nat} (ha : rRelSlot n 0x1C ∈ l) :
    RegsOnly l s (t.showSlot n) := (h.setBit _ _ ha).setFld _ _ _ ha

theorem State.fld_showSlot (h : regsWf s.regs = true) (n : Nat) :
    (s.showSlot n).fld (rRelSlot n 0x1C) 2 0 = min 4 (s.pendOf n).length := by
  rw [State.showSlot, State.fld_setFld_same (State.setBit_regsWf h _ _ _) _ (by omega) (by omega)]
  exact Nat.mod_eq_of_lt (by omega)

/-- A release that waits: counted, numbered, and the only one that its slot shows. -/
theorem State.relWaits_effect (h : regsWf s.regs = true) {n : Nat} (hn : n < 4096) (p tg : Nat) (hpend : s.clc.pend = []) :
    ((s.relWaits n p tg).clc.pend.map fun r => (r.slot, r.seq, r.param, r.order)) =
      [(n, (s.word (rRelSlot n 0x20) + 1) % 2 ^ 32, p, s.clc.order)] ∧
    (s.relWaits n p tg).word (rRelSlot n 0x20) = (s.word (rRelSlot n 0x20) + 1) % 2 ^ 32 ∧
    (s.relWaits n p tg).clc.order = s.clc.order + 1 ∧ (s.relWaits n p tg).clc.jobs = s.clc.jobs ∧
    (s.relWaits n p tg).fld (rRelSlot n 0x1C) 2 0 = 1 ∧ (s.relWaits n p tg).mem = s.mem := by
  obtain ⟨m, hcount⟩ := State.relCounted_regsOnly h n
  have hclc : (s.relCounted n).clc = { s.clc with order := s.clc.order + 1 } := hcount.clc
  have hne (o : Nat) : rRelSlot n 0x20 ≠ rModel m o := rClc_ne_rModel (by omega)
  have hnum : (s.relCounted n).word (rRelSlot n 0x20) = (s.word (rRelSlot n 0x20) + 1) % 2 ^ 32 :=
    (hcount.word _ (by simp [hne])).trans (State.word_bump_same h _)
  unfold State.relWaits
  generalize hr : (s.bump (rRelSlot n 0x20)).relOf n p tg = r
  have hadd : ((s.relCounted n).pendAdd r).clc = { s.clc with order := s.clc.order + 1, pend := [r] } := by
    simp [State.pendAdd, hclc, hpend]
  have hshow : RegsOnly [rRelSlot n 0x1C] ((s.relCounted n).pendAdd r) (((s.relCounted n).pendAdd r).showSlot n) :=
    RegsOnly.showSlot (t := (s.relCounted n).pendAdd r) (.refl hcount.wf) List.mem_cons_self
  have hshown : ((s.relCounted n).pendAdd r).pendOf n = [r] := by
    rw [State.pendOf, hadd]
    simp [← hr, State.relOf]
  refine ⟨?_, ?_, ?_, ?_, ?_, hshow.mem.trans hcount.mem⟩
  · rw [hshow.clc, hadd]
    simp [← hr, State.relOf, State.word_bump_same h]
  · exact (hshow.word _ (by simp [rRelSlot_inj])).trans hnum
  · rw [hshow.clc, hadd]
  · rw [hshow.clc, hadd]
  · rw [State.fld_showSlot (s := (s.relCounted n).pendAdd r) hcount.wf, hshown]
    rfl

/-! Outcomes of tasks (R294). -/

/-- A task whose job is to end early, or has ended. -/
def State.taskStops (s : State) (t : ClcTask) : Bool :=
  match s.jobOf t.slot with | some j => j.stop.isSome | none => true

theorem State.taskStops_of_live {t : ClcTask} (h : ∃ j, s.jobOf t.slot = some j ∧ j.stop = none) : s.taskStops t = false := by
  obtain ⟨j, hj, hs⟩ := h
  simp [State.taskStops, hj, hs]

/-- While the job of every task goes on, no task is stopped. -/
theorem State.enforceStops_of_live (h : ∀ t ∈ s.clc.tasks, ∃ j, s.jobOf t.slot = some j ∧ j.stop = none) : s.enforceStops = s := by
  have hkeep : (s.clc.tasks.filter fun (t : ClcTask) => !s.taskStops t || decide (t.place = 1)) = s.clc.tasks :=
    List.filter_eq_self.mpr fun t ht => by simp [State.taskStops_of_live (h t ht)]
  have hnone : s.clc.tasks.filter s.taskStops = [] :=
    List.filter_eq_nil_iff.mpr fun t ht => by simp [State.taskStops_of_live (h t ht)]
  change List.foldl _ ({ s with clc.tasks := s.clc.tasks.filter fun (t : ClcTask) => !s.taskStops t || decide (t.place = 1) } : State)
    (s.clc.tasks.filter s.taskStops) = s
  rw [hkeep, hnone]
  rfl

theorem State.finishJobs_of_tasks (h : ∀ j ∈ s.clc.jobs, s.tasksOf j.rel.slot ≠ []) : s.finishJobs = s :=
  foldl_eq_self fun j hj => by simp [h j hj]

theorem exec_taskOutcome_nothing {c st : Nat} {r : List (Nat × Nat)} (hr : s.cel.reports = (c, st) :: r) (ht : s.clc.tasks = [])
    (hj : s.clc.jobs = []) (hst : st ≠ 1) : exec .taskOutcome s = .next { s with cel.reports := r } := by
  have hout : ({ s with cel.reports := r } : State).outcome c st = { s with cel.reports := r } := by
    simp [State.outcome, State.taskOn, ht, hst]
  change execTaskOutcome s = _
  simp only [execTaskOutcome, hr, hout]
  rw [State.enforceStops_of_live (by simp [ht]), State.finishJobs_of_tasks (by simp [hj])]

/-- Task k of job j is to be launched again on the spare of its cell. -/
def State.restarted (s : State) (r : List (Nat × Nat)) (k : ClcTask) (j : ClcJob) : State :=
  { s with cel.reports := r, clc.tasks := [{ k with place := 3, saved := 0 }], clc.jobs := [{ j with restarts := j.restarts + 1 }] }

theorem exec_taskOutcome_restart {c : Nat} {r : List (Nat × Nat)} {k : ClcTask} {j : ClcJob} (hr : s.cel.reports = (c, 10) :: r)
    (ht : s.clc.tasks = [k]) (hplace : k.place = 1) (hat : k.at_ = c) (hj : s.clc.jobs = [j]) (hslot : j.rel.slot = k.slot)
    (hstop : j.stop = none) : exec .taskOutcome s = .next ((s.restarted r k j).bump (rClc 0x18)) := by
  have hout : ({ s with cel.reports := r } : State).outcome c 10 = (s.restarted r k j).bump (rClc 0x18) := by
    simp [State.outcome, State.taskOn, ht, hplace, hat, State.modJob, hj, hslot, State.restarted]
  change execTaskOutcome s = _
  simp only [execTaskOutcome, hr, hout]
  rw [State.enforceStops_of_live, State.finishJobs_of_tasks]
  · simp [State.restarted, State.tasksOf, hslot]
  · simp [State.restarted, State.jobOf, hslot, hstop]

/-! The completion buffer (R296). -/

theorem State.startPending_none (h : s.clc.pend = []) : s.startPending = s := by
  rw [State.startPending, h]
  rfl

theorem exec_completionBufferDrain_empty (hp : s.clc.posts = []) (hpend : s.clc.pend = []) :
    exec .completionBufferDrain s = .next s := by
  change execCompletionBufferDrain s = _
  simp [execCompletionBufferDrain, State.drainPosts, hp, State.startPending_none hpend]

theorem exec_completionBufferDrain_one {u : State} {p : ClcPost} {r : PostResult} (hp : s.clc.posts = [p])
    (hq : s.postCq p = (u, r)) (hpend : u.clc.pend = []) :
    exec .completionBufferDrain s = .next (if r = .full then u else { u with clc.posts := [] }) := by
  change execCompletionBufferDrain s = _
  cases r <;>
    simp [execCompletionBufferDrain, State.drainPosts, hp, hq, State.startPending_none, hpend]

/-! Checkpoints (R317, R318, R490, R491). -/

theorem exec_checkpointDigest_one {u : State} {side : Bool} {c : ClcCkpt} {l : List Byte} {bad : Bool} (hc : s.clc.ckpts = [c])
    (hs : c.side = side)
    (hread : ({ s with clc.ckpts := [] } : State).dmaReadLong (mDigest (b2n side)) c.addr c.bytes = (u, some (l, bad))) :
    exec (.checkpointDigest side) s = .next { u with
      twn.digests := u.twn.digests ++ [Digest.mk c.slot c.seq c.ckpt side (digestOf l) bad false u.now] } := by
  change execCheckpointDigest side s = _
  simp [execCheckpointDigest, hc, hs, hread]

theorem exec_checkpointDigest_none {side : Bool} (h : (s.clc.ckpts.all fun c => c.side != side) = true) :
    exec (.checkpointDigest side) s = .next s := by
  have hnone : (s.clc.ckpts.find? fun (c : ClcCkpt) => c.side == side) = none := by simpa using h
  change execCheckpointDigest side s = _
  simp only [execCheckpointDigest, hnone]

variable {n : Fin 4096}

/-- Why a comparison fails, 0 when it passes: poison before a read error, and that before a difference (R491). -/
def digestCause (a b : Digest) : Nat :=
  if a.poison || b.poison then 2 else if a.readErr || b.readErr then 3 else if a.digest = b.digest then 0 else 1

theorem exec_digestCompare_pair {a b : Digest} (hd : s.twn.digests = [a, b]) (ha : a.slot = n.val) (hb : b.slot = n.val)
    (hseq : a.seq = b.seq) (hck : a.ckpt = b.ckpt) (hsa : a.side = false) (hsb : b.side = true) :
    exec (.digestCompare n) s = .next (
      if digestCause a b = 0 then ({ s with twn.digests := [] } : State).twlPass n
      else ({ s with twn.digests := [] } : State).twlFail n a.seq a.ckpt (digestCause a b) a.digest b.digest) := by
  change execDigestCompare n s = _
  simp [execDigestCompare, digestCause, hd, ha, hb, hseq, hck, hsa, hsb]

theorem exec_digestCompare_lone {d : Digest} (hd : s.twn.digests = [d]) (hs : d.slot = n.val) : exec (.digestCompare n) s = .next s := by
  change execDigestCompare n s = _
  simp [execDigestCompare, hd, hs]

theorem exec_digestLate_lone {d : Digest} (hd : s.twn.digests = [d]) (hs : d.slot = n.val) :
    exec (.digestLate n) s = .next (({ s.timeTo (d.time + 4000 * s.fld (rClc 0) 31 16) with twn.digests := [] } : State).twlFail n d.seq
      d.ckpt 4 (if d.side then 0 else d.digest) (if d.side then d.digest else 0)) := by
  change execDigestLate n s = _
  simp [execDigestLate, hd, hs]

end Sys2Proof.Machine

open Sys2Proof Sys2Proof.Machine

/-- Settles O28: each command is brought to the one case of its meaning that applies, and a waiting release and a restart to what they
write. -/
theorem releasesTasksAndComparisonsOfJobs : Obligations.ReleasesTasksAndComparisonsOfJobs := by
  unfold Obligations.ReleasesTasksAndComparisonsOfJobs
  refine ⟨fun s m n p hm hbad => ?_, fun s m i n p h => ?_, fun s m n p j hcan hm hen h14 hready hneed hj hpend => ?accepted,
    fun s h => ?_, fun s h => ?_, fun s h => ?_, fun s c st r => exec_taskOutcome_nothing,
    fun s c r k j hcan hr ht hplace hat hj hslot hstop => ?restart,
    fun s => exec_completionBufferDrain_empty, fun s u p r hp hq hpend => ?drain, fun s side => exec_checkpointDigest_none,
    fun s u side c l bad => exec_checkpointDigest_one, fun s n a b hd ha hb hseq hck hsa hsb => ?compare,
    fun s n d hd hs => ⟨exec_digestCompare_lone hd hs, exec_digestLate_lone hd hs⟩⟩
  · rw [exec_slotReleaseWrite_system hm, State.release_refused m _ _ (hbad.imp_right .inr)]
  · rw [exec_slotReleaseWrite_stranger h, State.release_refused m _ _ (.inr (.inl rfl))]
  case accepted =>
    obtain ⟨-, hwf⟩ := State.canonical_iff.mp hcan
    obtain ⟨waiting, count, order, jobs, shown, mem⟩ := State.relWaits_effect hwf n.isLt p.toNat 0 hpend
    refine .of_exec (by rw [exec_slotReleaseWrite_system hm, State.release_waits m _ _ hen hready hneed hj hpend]) ?_
    exact ⟨waiting, count, order, jobs, shown, rfl, mem⟩
  · change execTaskPlacement s = _
    simp [execTaskPlacement, h]
  · change execTaskPlacement s = _
    simp [execTaskPlacement, h]
  · change execTaskOutcome s = _
    simp [execTaskOutcome, h]
  case restart =>
    obtain ⟨-, hwf⟩ := State.canonical_iff.mp hcan
    have hregs := RegsOnly.bump (l := [rClc 0x18]) (a := rClc 0x18) (.refl (s := s.restarted r k j) hwf) (by simp)
    refine .of_exec (exec_taskOutcome_restart hr ht hplace hat hj hslot hstop) ⟨rfl, rfl, rfl, ?_, rfl, hregs.word⟩
    exact State.word_bump_same (s := s.restarted r k j) hwf _
  case drain =>
    rw [exec_completionBufferDrain_one hp hq hpend]
    cases r <;> rfl
  case compare =>
    have h := exec_digestCompare_pair hd ha hb hseq hck hsa hsb
    refine ⟨fun pa pb ra rb => ?_, fun bad => ?_, fun pa pb bad => ?_⟩
    · have hc : digestCause a b = if a.digest = b.digest then 0 else 1 := by simp [digestCause, pa, pb, ra, rb]
      rw [h, hc]
      split <;> rfl
    · rw [h, show digestCause a b = 2 by simp [digestCause, bad]]
      rfl
    · rw [h, show digestCause a b = 3 by simp [digestCause, pa, pb, bad]]
      rfl

end

section
/-! PROOF. Commands of the tongue mailboxes: a message that is ready is performed, and what it then holds (R535, R537, R538). -/

namespace Sys2Proof.Machine

variable {s t : State} {b id : Nat}

/-- A message that is ready is performed by its command. -/
theorem State.mbxRun_ready {perm : Option Nat} (f : State → State × MbxMsg) (h : s.mbxReady b id perm) :
    s.mbxRun b id perm f = .next ((f s).1.mbxPerformed b (f s).2) := by
  obtain ⟨⟨hid, hup, hnext, hknown⟩, hversion, hmay⟩ := h
  subst hid
  cases perm with
  | none => simp [State.mbxRun, hup, hnext, hknown, hversion]
  | some k =>
    have hmay : (s.mbxPerm b k || s.phase == 4) = true := hmay
    simp [State.mbxRun, hup, hnext, hknown, hversion, hmay]

/-- The message of a ready mailbox is on record. -/
theorem State.mbxReady_message {perm : Option Nat} (h : s.mbxReady b id perm) : ∃ y, fmGet s.fwp.mbx b = some y := by
  obtain ⟨⟨-, -, hnext, -⟩, -⟩ := h
  have hfound := List.find?_some hnext
  cases hy : fmGet s.fwp.mbx b with
  | none => simp [hy] at hfound
  | some y => exact ⟨y, rfl⟩

@[simp] theorem State.mbxPerformed_regs (s : State) (b : Nat) (x : MbxMsg) : (s.mbxPerformed b x).regs = s.regs := by
  unfold State.mbxPerformed
  split <;> rfl

@[simp] theorem State.mbxPerformed_mem (s : State) (b : Nat) (x : MbxMsg) : (s.mbxPerformed b x).mem = s.mem := by
  unfold State.mbxPerformed
  split <;> rfl

theorem State.word_mbxPerformed (s : State) (b : Nat) (x : MbxMsg) (a : Nat) : (s.mbxPerformed b x).word a = s.word a :=
  State.word_congr (s.mbxPerformed_regs b x) a

theorem State.mbxPerformed_mbx_congr (h : t.fwp.mbx = s.fwp.mbx) (x : MbxMsg) :
    (t.mbxPerformed b x).fwp.mbx = (s.mbxPerformed b x).fwp.mbx := by
  simp only [State.mbxPerformed, h]
  split
  · rfl
  · exact h

/-- A message performed holds its answer. -/
theorem State.answered_mbxPerformed {y x : MbxMsg} (h : fmGet s.fwp.mbx b = some y) (hx : x.performed = true) :
    Answered b x.status x.payload x.wait (s.mbxPerformed b x) := by
  simp only [State.mbxPerformed, h]
  exact ⟨_, fmGet_fmPut_same _ _ _, hx, rfl, rfl, rfl⟩

/-- A command refused for a reason that the spec does not number takes an open code and changes nothing else. -/
theorem State.refusedOpen_effect {y : MbxMsg} (h : fmGet s.fwp.mbx b = some y) :
    (∃ code, Answered b 6 (leBytes 4 code) .none (s.ansRefusedOpen.1.mbxPerformed b s.ansRefusedOpen.2)) ∧
    (s.ansRefusedOpen.1.mbxPerformed b s.ansRefusedOpen.2).regs = s.regs ∧
    (s.ansRefusedOpen.1.mbxPerformed b s.ansRefusedOpen.2).mem = s.mem :=
  ⟨⟨_, State.answered_mbxPerformed (s := s.ansRefusedOpen.1) (x := s.ansRefusedOpen.2) h rfl⟩, State.mbxPerformed_regs _ _ _,
    State.mbxPerformed_mem _ _ _⟩

end Sys2Proof.Machine
end

section
/-! PROOF. Commands of the model processor (O47): what each answers (R307, R308, R311, R541). -/

namespace Sys2Proof.Machine

variable {s : State} {b : Fin 64}

theorem rModel_inj {m a c : Nat} : rModel m a = rModel m c ↔ a = c := by
  unfold rModel rMhs
  omega

theorem rModel_add_four (m o : Nat) : rModel m o + 4 = rModel m (o + 4) := rfl

theorem leAt_lt (l : List Byte) (o n : Nat) : leAt l o n < 256 ^ n := by
  have h := leNat_lt (sliceBytes l o n)
  rwa [sliceBytes_length] at h

theorem State.word64_congr {t : State} (h : ∀ a, t.word a = s.word a) (a : Nat) : t.word64 a = s.word64 a := by
  rw [State.word64, h, h, State.word64]

theorem State.bit_congr {t : State} {a : Nat} (h : t.word a = s.word a) (n : Nat) : t.bit a n = s.bit a n := by
  rw [State.bit, h, State.bit]

theorem RegsOnly.fwp {l : List Nat} {u t : State} (h : RegsOnly l u t) : t.fwp = u.fwp := by
  obtain ⟨r, rfl⟩ := h.rest
  rfl

theorem RegsOnly.word64 {l : List Nat} {u t : State} (h : RegsOnly l u t) {a : Nat} (ha : a ∉ l) (ha4 : a + 4 ∉ l) :
    t.word64 a = u.word64 a := by
  rw [State.word64, h.word a ha, h.word _ ha4, State.word64]

theorem exec_modelInstall_ready (h : s.mbxReady b 0x501 none) :
    exec (.modelInstall b) s = .next ((s.modelInstall b).1.mbxPerformed b (s.modelInstall b).2) := by
  change s.mbxRun b 0x501 none (fun s => s.modelInstall b) = _
  exact State.mbxRun_ready _ h

theorem exec_modelEvict_ready (h : s.mbxReady b 0x502 none) :
    exec (.modelEvict b) s = .next ((s.modelEvict b).1.mbxPerformed b (s.modelEvict b).2) := by
  change s.mbxRun b 0x502 none (fun s => s.modelEvict b) = _
  exact State.mbxRun_ready _ h

theorem exec_modelPin_ready (h : s.mbxReady b 0x503 none) :
    exec (.modelPin b) s = .next ((s.modelPin b).1.mbxPerformed b (s.modelPin b).2) := by
  change s.mbxRun b 0x503 none (fun s => s.modelPin b) = _
  exact State.mbxRun_ready _ h

theorem exec_modelSwitch_ready (h : s.mbxReady b 0x504 none) :
    exec (.modelSwitch b) s = .next ((s.modelSwitch b).1.mbxPerformed b (s.modelSwitch b).2) := by
  change s.mbxRun b 0x504 none (fun s => s.modelSwitch b) = _
  exact State.mbxRun_ready _ h

theorem exec_modelStatus_ready (h : s.mbxReady b 0x505 none) :
    exec (.modelStatus b) s = .next (s.mbxPerformed b (s.modelStatus b)) := by
  change s.mbxRun b 0x505 none (fun s => (s, s.modelStatus b)) = _
  rw [State.mbxRun_ready _ h]

/-! MODEL_INSTALL (R307). -/

/-- The source of an image: a page of LPDDR, in memory that is there. -/
def State.imageSource (s : State) (a n : Nat) : Bool :=
  (match s.addrKind a with | .lpddr _ _ => true | _ => false) && decide (a % 4096 = 0) && s.inMemory a n

theorem State.imageSource_iff {a n : Nat} :
    s.imageSource a n = true ↔ (∃ r o, s.addrKind a = .lpddr r o) ∧ a % 4096 = 0 ∧ s.inMemory a n = true := by
  unfold State.imageSource
  cases s.addrKind a <;> simp

section

variable {a n : Nat}

/-- The entry of a model whose installation begins. -/
def State.installing (s : State) (m a n : Nat) (pin : Bool) : State :=
  (((s.setWord64 (rModel m 8) a).setWord64 (rModel m 0x18) n).setModelState m 1).setBit (rModel m 0) 3 pin

theorem State.modelInstall_badSource (ha : leAt (s.mbxPay b) 0 8 = a) (hn : leAt (s.mbxPay b) 8 8 = n)
    (h : s.imageSource a n = false) : s.modelInstall b = (s, ansBad 0) := by
  unfold State.imageSource at h
  unfold State.modelInstall
  cases hk : s.addrKind a <;> simp_all

variable (ha : leAt (s.mbxPay b) 0 8 = a) (hn : leAt (s.mbxPay b) 8 8 = n) (h : s.imageSource a n = true)

include ha hn h

theorem State.modelInstall_badSize (hbad : n = 0 ∨ n % 4096 ≠ 0) : s.modelInstall b = (s, ansBad 8) := by
  obtain ⟨⟨r, o, hk⟩, hpage, hin⟩ := State.imageSource_iff.mp h
  simp [State.modelInstall, ha, hn, hk, hpage, hin, hbad]

variable (h0 : n ≠ 0) (hsize : n % 4096 = 0)

include h0 hsize

theorem State.modelInstall_denied (hmem : s.mbxMemory b a n = false) : s.modelInstall b = (s, ansDenied) := by
  obtain ⟨⟨r, o, hk⟩, hpage, hin⟩ := State.imageSource_iff.mp h
  simp [State.modelInstall, ha, hn, hk, hpage, hin, h0, hsize, hmem]

variable (hmem : s.mbxMemory b a n = true) (henc : bitOf (s.mnat (a + 6) 2) 0 = false) (hfree : s.bit (rSec 0xC) 0 = false)

include hmem henc hfree

theorem State.modelInstall_noRoom {u : State} (hroom : State.makeRoom n 33 s = (u, none)) : s.modelInstall b = (u, ansOf 7 []) := by
  obtain ⟨⟨r, o, hk⟩, hpage, hin⟩ := State.imageSource_iff.mp h
  simp [State.modelInstall, ha, hn, hk, hpage, hin, h0, hsize, hmem, henc, hfree, hroom]

theorem State.modelInstall_room {u : State} {m : Nat} (hroom : State.makeRoom n 33 s = (u, some m)) :
    s.modelInstall b =
      (u.installing m a n (bitOf (leAt (s.mbxPay b) 16 1) 0), { ansOk (leBytes 1 m) with wait := .install m }) := by
  obtain ⟨⟨r, o, hk⟩, hpage, hin⟩ := State.imageSource_iff.mp h
  simp [State.modelInstall, ha, hn, hk, hpage, hin, h0, hsize, hmem, henc, hfree, hroom, State.installing]

end

theorem State.installing_effect {u : State} (hwf : regsWf u.regs = true) (m : Nat) {a n : Nat} (ha : a < 2 ^ 64) (hn : n < 2 ^ 64)
    (pin : Bool) :
    (u.installing m a n pin).modelState m = 1 ∧ (u.installing m a n pin).modelGold m = a ∧
    (u.installing m a n pin).modelBytes m = n ∧ (u.installing m a n pin).bit (rModel m 0) 3 = pin ∧
    RegsOnly [rModel m 0, rModel m 8, rModel m 0xC, rModel m 0x18, rModel m 0x1C] u (u.installing m a n pin) := by
  have hgold := State.setWord64_regsWf hwf (rModel m 8) a
  have hbytes := State.setWord64_regsWf hgold (rModel m 0x18) n
  have hstate := State.setFld_regsWf hbytes (rModel m 0) 2 0 1
  have after8 := RegsOnly.setWord64 (l := [rModel m 0x18, rModel m 0x1C]) (.refl hgold) n (a := rModel m 0x18) (by simp)
    (by simp [rModel_add_four])
  have afterAll := ((RegsOnly.refl (l := [rModel m 0]) hbytes).setFld 2 0 1 (a := rModel m 0) (by simp)).setBit 3 pin
    (a := rModel m 0) (by simp)
  refine ⟨?_, ?_, ?_, State.bit_setBit_same hstate pin (by decide), ?_⟩
  · exact (State.fld_setFld_apart hstate _ (by decide) (by decide) (by decide)).trans
      (State.fld_setFld_same hbytes 1 (by decide) (by decide))
  · calc (u.installing m a n pin).word64 (rModel m 8)
      _ = ((u.setWord64 (rModel m 8) a).setWord64 (rModel m 0x18) n).word64 (rModel m 8) :=
        afterAll.word64 (by simp [rModel_inj]) (by simp [rModel_add_four, rModel_inj])
      _ = (u.setWord64 (rModel m 8) a).word64 (rModel m 8) :=
        after8.word64 (by simp [rModel_inj]) (by simp [rModel_add_four, rModel_inj])
      _ = a := (State.word64_setWord64_same hwf _ _).trans (Nat.mod_eq_of_lt ha)
  · calc (u.installing m a n pin).word64 (rModel m 0x18)
      _ = ((u.setWord64 (rModel m 8) a).setWord64 (rModel m 0x18) n).word64 (rModel m 0x18) :=
        afterAll.word64 (by simp [rModel_inj]) (by simp [rModel_add_four, rModel_inj])
      _ = n := (State.word64_setWord64_same hgold _ _).trans (Nat.mod_eq_of_lt hn)
  · exact ((((RegsOnly.refl hwf).setWord64 a (by simp) (by simp [rModel_add_four])).setWord64 n (by simp)
      (by simp [rModel_add_four])).setFld 2 0 1 (by simp)).setBit 3 pin (by simp)

/-! MODEL_EVICT (R307). -/

section

variable {m : Nat} (hm : leAt (s.mbxPay b) 0 1 = m)

include hm

theorem State.modelEvict_badModel (h : 31 < m) : s.modelEvict b = (s, ansBad 0) := by
  simp [State.modelEvict, hm, h]

theorem State.modelEvict_denied (h : m ≤ 31) (hd : s.modelState m = 0 ∨ s.mbxModel b m = false) : s.modelEvict b = (s, ansDenied) := by
  simp [State.modelEvict, hm, h, hd]

theorem State.modelEvict_own (h : m ≤ 31) (hstate : s.modelState m ≠ 0) (hown : s.mbxModel b m = true) :
    s.modelEvict b = if s.evictable m then (s.evictModel m, ansOk []) else s.ansRefusedOpen := by
  simp [State.modelEvict, hm, h, hstate, hown]

/-! MODEL_PIN (R308). -/

theorem State.modelPin_badModel (h : 31 < m) : s.modelPin b = (s, ansBad 0) := by
  simp [State.modelPin, hm, h]

theorem State.modelPin_badPin (h : m ≤ 31) (hx : 1 < leAt (s.mbxPay b) 1 1) : s.modelPin b = (s, ansBad 1) := by
  simp [State.modelPin, hm, h, hx]

theorem State.modelPin_denied (h : m ≤ 31) (hx : leAt (s.mbxPay b) 1 1 ≤ 1) (hd : s.modelState m = 0 ∨ s.mbxModel b m = false) :
    s.modelPin b = (s, ansDenied) := by
  simp only [State.modelPin, hm]
  rw [if_neg (by omega), if_neg (by omega), if_pos (by simpa using hd)]

/-- The pin is set or taken away, unless the pinned models would then exceed the area. -/
theorem State.modelPin_own {x : Nat} (hx : leAt (s.mbxPay b) 1 1 = x) (h : m ≤ 31) (hx1 : x ≤ 1) (hstate : s.modelState m ≠ 0)
    (hown : s.mbxModel b m = true) :
    s.modelPin b =
      if (decide (x = 1) && decide (s.word64 (rMhs 0x18) < (s.setBit (rModel m 0) 3 true).pinnedBytes)) = true then s.ansRefusedOpen
      else (s.setBit (rModel m 0) 3 (decide (x = 1)), ansOk []) := by
  obtain rfl | rfl : x = 0 ∨ x = 1 := by omega
  · simp [State.modelPin, hm, hx, h, hstate, hown]
  · simp [State.modelPin, hm, hx, h, hstate, hown]

/-! MODEL_STATUS. -/

theorem State.modelStatus_badModel (h : 31 < m) : s.modelStatus b = ansBad 0 := by
  simp [State.modelStatus, hm, h]

theorem State.modelStatus_denied (h : m ≤ 31) (hstate : s.modelState m ≠ 0) (hd : s.mbxModel b m = false) :
    s.modelStatus b = ansDenied := by
  simp [State.modelStatus, hm, h, hstate, hd]

theorem State.modelStatus_words (h : m ≤ 31) (hd : s.modelState m = 0 ∨ s.mbxModel b m = true) :
    s.modelStatus b = ansOk (leBytes 4 (s.word (rModel m 0)) ++ leBytes 4 (s.word (rModel m 4)) ++ leBytes 4 (s.word (rModel m 0x24))) := by
  have hok : ¬(s.modelState m ≠ 0 ∧ s.mbxModel b m = false) := by
    rintro ⟨h0, h1⟩
    simp [h0, h1] at hd
  simp only [State.modelStatus, hm]
  rw [if_neg (by omega), if_neg (by simpa using hok)]

end

/-! MODEL_SWITCH (R311). -/

section

variable {k m : Nat} (hk : leAt (s.mbxPay b) 0 1 = k)

include hk

theorem State.modelSwitch_badClick (h : 63 < k ∨ s.clickClass k = 0) : s.modelSwitch b = (s, ansBad 0) := by
  simp [State.modelSwitch, hk, h]

variable (hm : leAt (s.mbxPay b) 1 1 = m) (h : k ≤ 63) (hclass : s.clickClass k ≠ 0)

include hm h hclass

theorem State.modelSwitch_badModel (h31 : 31 < m) : s.modelSwitch b = (s, ansBad 1) := by
  simp [State.modelSwitch, hk, hm, h, hclass, h31]

/-- The clicking is the owner's, and the model too if there is one. -/
def State.switchMine (s : State) (b k m : Nat) : Bool :=
  s.mbxOwns b (s.clickInst k) && (decide (s.modelState m = 0) || s.mbxModel b m)

theorem State.modelSwitch_denied (h31 : m ≤ 31) (hd : s.switchMine b k m = false) : s.modelSwitch b = (s, ansDenied) := by
  have hbad : (!s.mbxOwns b (s.clickInst k) || (decide (s.modelState m ≠ 0) && !s.mbxModel b m)) = true := by
    simp only [State.switchMine, Bool.and_eq_false_imp, Bool.or_eq_false_iff, decide_eq_false_iff_not] at hd
    cases hown : s.mbxOwns b (s.clickInst k)
    · rfl
    · simp [hd hown]
  simp only [State.modelSwitch, hk, hm]
  rw [if_neg (by simp [hclass, Nat.not_lt.mpr h]), if_neg (by omega), if_pos hbad]

theorem State.modelSwitch_asked (h31 : m ≤ 31) (hd : s.switchMine b k m = true) : s.modelSwitch b =
    (s.switchReq k m (bitOf (leAt (s.mbxPay b) 2 1) 0) (bitOf (leAt (s.mbxPay b) 2 1) 1) false (leAt (s.mbxPay b) 3 1),
      if s.switchCheck k m false ≠ 0 then ansRefused (s.switchCheck k m false) else { ansOk [] with wait := .switch k }) := by
  have hok : ¬(!s.mbxOwns b (s.clickInst k) || (decide (s.modelState m ≠ 0) && !s.mbxModel b m)) = true := by
    simpa [State.switchMine, or_iff_not_imp_left] using hd
  simp only [State.modelSwitch, hk, hm]
  rw [if_neg (by simp [hclass, Nat.not_lt.mpr h]), if_neg (by omega), if_neg hok]
  split <;> rfl

end

end Sys2Proof.Machine
end

section
/-! PROOF. Logs, trace windows and the self-test phase (O47): what a log entry, a write of the tail and a change of phase write (R540,
R545 to R547). -/

namespace Sys2Proof.Machine

variable {s : State}

theorem rProc_inj {p a b : Nat} : rProc p a = rProc p b ↔ a = b := by
  unfold rProc rFwp
  omega

theorem rProc_ne_rFwpIrq (p o : Nat) : rProc p o ≠ rFwpIrq := by
  unfold rProc rFwpIrq rFwp
  omega

theorem rMbx_ne_rFwp {b o p : Nat} (hp : p < 0x2000) : rMbx b o ≠ rFwp p := by
  unfold rMbx rFwp
  omega

/-! Log entries (R545, R546). -/

theorem logBytes_length (seq kind level code time : Nat) (args : List Nat) : (logBytes seq kind level code time args).length = 32 := rfl

theorem logBytes_head (seq kind level code time : Nat) (args : List Nat) :
    (logBytes seq kind level code time args).take 8 = leBytes 4 seq ++ leBytes 1 kind ++ leBytes 1 level ++ leBytes 2 code := rfl

theorem logBytes_kind (seq kind level code time : Nat) (args : List Nat) :
    ((logBytes seq kind level code time args).drop 4).take 1 = leBytes 1 kind := rfl

theorem logBytes_arg (seq kind level code time a : Nat) (args : List Nat) :
    ((logBytes seq kind level code time (a :: args)).drop 16).take 4 = leBytes 4 a := rfl

theorem logBytes_args (seq kind level code time a b : Nat) (args : List Nat) :
    ((logBytes seq kind level code time (a :: b :: args)).drop 16).take 8 = leBytes 4 a ++ leBytes 4 b := rfl

/-- Entries that the ring holds. -/
def State.logHeld (s : State) (p : Nat) : Nat := (s.word (rProc p 0x14) + 2 ^ 32 - s.word (rProc p 0x18)) % 2 ^ 32

/-- The next entry, stored in the ring with its number, and HEAD moved past it. -/
def State.logAppend (s : State) (p : Nat) (e : List Byte) : State :=
  (s.store (s.logSlot p (s.word (rProc p 0x14))) e).setWord (rProc p 0x14) (s.word (rProc p 0x14) + 1)

/-- With the ring in memory and room in it, an entry is appended. -/
theorem State.logEntry_room {p : Nat} (kind level code : Nat) (args : List Nat) (hlive : s.logLive = true)
    (hroom : s.logHeld p < s.logSize p) : s.logEntry p kind level code args =
      s.logAppend p (logBytes (s.word (rProc p 0x14)) kind level code s.recordTime.1 args) := by
  have hfull : ¬(s.word (rProc p 0x14) + 2 ^ 32 - s.word (rProc p 0x18)) % 2 ^ 32 ≥ s.logSize p := Nat.not_le.mpr hroom
  simp only [State.logEntry, State.logPut, hlive, if_true, hfull, decide_false, Bool.false_eq_true, if_false]
  rfl

theorem State.logAppend_effect (hmem : Memory.wf s.mem = true) (hwf : regsWf s.regs = true) (p : Nat) {e : List Byte}
    (he : e.length = 32) :
    (s.logAppend p e).word (rProc p 0x14) = (s.word (rProc p 0x14) + 1) % 2 ^ 32 ∧
    (∀ k m, k + m ≤ 32 → (s.logAppend p e).bytes (s.logSlot p (s.word (rProc p 0x14)) + k) m = (e.drop k).take m) ∧
    MemoryBut (s.logSlot p (s.word (rProc p 0x14))) 32 s (s.logAppend p e) ∧ RegsBut [rProc p 0x14] s (s.logAppend p e) := by
  unfold State.logAppend
  generalize s.logSlot p (s.word (rProc p 0x14)) = a
  refine ⟨State.word_setWord_same (s := s.store a e) hwf _ _, fun k m hk => ?_, fun c hc => ?_, fun c hc => ?_⟩
  · have hall : (s.store a e).bytes a 32 = e := he ▸ State.bytes_store hmem a e
    exact (State.bytes_within (s.store a e) a hk).trans (by rw [hall])
  · exact State.byte_store_outside hmem (he ▸ hc)
  · exact State.word_setWord_other (s := s.store a e) hwf _ (by simpa using hc)

/-! Events and trace points (R547). -/

/-- The four arguments that a log entry carries. -/
def logArgs (a : BitVec 128) : List Nat := [0, 1, 2, 3].map fun k => bitsOf a.toNat (32 * k + 31) (32 * k)

theorem logArgs_eq (a : BitVec 128) : ∃ r, logArgs a = a.toNat % 2 ^ 32 :: r := ⟨_, rfl⟩

theorem exec_logEntryWrite (p : Fin 6) (k v : Fin 4) (c : BitVec 16) (a : BitVec 128) :
    exec (.logEntryWrite p k v c a) s = .next (s.logWrite p k v c.toNat (logArgs a)) := rfl

/-- Only events and trace points are logged. -/
theorem State.logWrite_other {k : Nat} (p level code : Nat) (args : List Nat) (h : k = 1 ∨ k = 3) :
    s.logWrite p k level code args = s := by
  obtain rfl | rfl := h <;> rfl

/-- An event counted in its window. -/
def State.eventCounted (s : State) (p code : Nat) : State :=
  { s with fwp.events := fmPut s.fwp.events (65536 * p + code) (fmGetD 0 s.fwp.events (65536 * p + code) + 1) }

theorem State.logWrite_event (p level code : Nat) (args : List Nat) : s.logWrite p 0 level code args =
    if fmGetD 0 s.fwp.events (65536 * p + code) < 4 then (s.eventCounted p code).logEntry p 0 level code args
    else s.eventCounted p code := rfl

/-- The first four events of a code in a window are logged. -/
theorem State.logWrite_event_logged {p code : Nat} (level : Nat) (args : List Nat)
    (hn : fmGetD 0 s.fwp.events (65536 * p + code) < 4) (hlive : s.logLive = true) (hroom : s.logHeld p < s.logSize p) :
    s.logWrite p 0 level code args =
      (s.eventCounted p code).logAppend p (logBytes (s.word (rProc p 0x14)) 0 level code s.recordTime.1 args) := by
  rw [State.logWrite_event, if_pos hn, State.logEntry_room (s := s.eventCounted p code) 0 level code args hlive hroom]
  rfl

/-- A trace point that is not enabled. -/
theorem State.logWrite_traceOff {p code : Nat} (level : Nat) (args : List Nat)
    (h : 1024 ≤ code ∨ s.bit (rFwp (0x1000 + p * 0x80 + code / 32 * 4)) (code % 32) = false) : s.logWrite p 2 level code args = s :=
  if_pos (by simpa using h)

/-- A trace point past the budget is counted as dropped. -/
def State.traceDrop (s : State) (p m d f code : Nat) : State :=
  ((s.bump (rProc p 0x24)).orWord rFwpIrq 8).setTrace p (m, d + 1, if d = 0 then code else f)

theorem State.logWrite_traceDropped {p code m d f : Nat} (level : Nat) (args : List Nat) (hcode : code < 1024)
    (hon : s.bit (rFwp (0x1000 + p * 0x80 + code / 32 * 4)) (code % 32) = true) (ht : fmGet s.fwp.trace p = some (m, d, f))
    (hbudget : s.fld (rProc p 0x20) 15 0 ≤ m) : s.logWrite p 2 level code args = s.traceDrop p m d f code := by
  have htrace : fmGetD (0, 0, 0) s.fwp.trace p = (m, d, f) := by rw [fmGetD, ht]; rfl
  simp [State.logWrite, hon, Nat.not_le.mpr hcode, htrace, Nat.not_lt.mpr hbudget, State.traceDrop]

theorem State.traceDrop_effect (hwf : regsWf s.regs = true) (p m d f code : Nat) :
    (s.traceDrop p m d f code).word (rProc p 0x24) = (s.word (rProc p 0x24) + 1) % 2 ^ 32 ∧
    (s.traceDrop p m d f code).bit rFwpIrq 3 = true ∧
    fmGet (s.traceDrop p m d f code).fwp.trace p = some (m, d + 1, if d = 0 then code else f) ∧
    RegsBut [rProc p 0x24, rFwpIrq] s (s.traceDrop p m d f code) := by
  have hbump := State.bump_regsWf hwf (rProc p 0x24)
  refine ⟨?_, ?_, fmGet_fmPut_same _ _ _, ?_⟩
  · exact (State.word_orWord_other hbump 8 (rProc_ne_rFwpIrq p _)).trans (State.word_bump_same hwf _)
  · exact (State.bit_orWord_same hbump _ 8 (k := 3) (by decide)).trans (by simp [show bitOf 8 3 = true from rfl])
  · exact (((RegsOnly.refl hwf).bump (a := rProc p 0x24) (by simp)).orWord 8 (a := rFwpIrq) (by simp)).word

/-! Windows (R547). -/

/-- What a window tells of its events: those of a code beyond four in one entry. -/
def State.tellEvents (s : State) (p : Nat) : State :=
  (s.fwp.events.filter fun e => decide (e.1 / 65536 = p)).foldl
    (fun s e => if e.2 > 4 then s.logEntry p 0 0 (e.1 % 65536) [e.2 - 4] else s)
    { s with fwp.events := s.fwp.events.filter fun e => decide (e.1 / 65536 ≠ p) }

theorem State.tellEvents_none {p : Nat} (h : s.fwp.events = []) : s.tellEvents p = s := by
  have hkeep : s.fwp.events.filter (fun e => decide (e.1 / 65536 ≠ p)) = s.fwp.events := by rw [h]; rfl
  have hnone : s.fwp.events.filter (fun e => decide (e.1 / 65536 = p)) = [] := by rw [h]; rfl
  rw [State.tellEvents, hkeep, hnone]
  rfl

/-- What a window tells of the trace points it dropped, with the budget of the next window begun. -/
theorem State.traceWindow_eq {p m d f : Nat} (ht : fmGet s.fwp.trace p = some (m, d, f)) : s.traceWindow p =
    (if d ≠ 0 ∧ s.fld (rProc p 0x20) 15 0 ≥ 1 then (s.setTrace p (1, 0, 0)).logEntry p 3 0 0 [d, f]
      else s.setTrace p (0, d, f)).tellEvents p := by
  have htrace : fmGetD (0, 0, 0) s.fwp.trace p = (m, d, f) := by rw [fmGetD, ht]; rfl
  simp only [State.traceWindow, htrace, Bool.and_eq_true, decide_eq_true_eq]
  rfl

theorem exec_traceWindow (p : Fin 6) : exec (.traceWindow p) s = .next (s.traceWindow p) := rfl

theorem State.traceWindow_quiet {p m f : Nat} (ht : fmGet s.fwp.trace p = some (m, 0, f)) (he : s.fwp.events = []) :
    s.traceWindow p = s.setTrace p (0, 0, f) := by
  rw [State.traceWindow_eq ht, if_neg (by simp), State.tellEvents_none (by exact he)]

theorem State.traceWindow_dropped {p m d f : Nat} (ht : fmGet s.fwp.trace p = some (m, d, f)) (hd : d ≠ 0) (he : s.fwp.events = [])
    (hbudget : 1 ≤ s.fld (rProc p 0x20) 15 0) (hlive : s.logLive = true) (hroom : s.logHeld p < s.logSize p) :
    s.traceWindow p = (s.setTrace p (1, 0, 0)).logAppend p (logBytes (s.word (rProc p 0x14)) 3 0 0 s.recordTime.1 [d, f]) := by
  rw [State.traceWindow_eq ht, if_pos ⟨hd, hbudget⟩, State.logEntry_room (s := s.setTrace p (1, 0, 0)) 3 0 0 [d, f] hlive hroom,
    State.tellEvents_none (by exact he)]
  rfl

/-! The tail (R546). -/

theorem exec_logTailWrite_other {m : Master} {p : Fin 6} {v : BitVec 32} (h : s.sysWriter m = false) :
    exec (.logTailWrite m p v) s = .next (s.refuse m 2 (rProc p 0x18)) := by
  change execLogTailWrite m p v s = _
  simp [execLogTailWrite, h]

/-- Entries that a write of the tail consumes. -/
def State.logTaken (s : State) (p v : Nat) : Nat := (v + 2 ^ 32 - s.word (rProc p 0x18)) % 2 ^ 32

theorem exec_logTailWrite_past {m : Master} {p : Fin 6} {v : BitVec 32} (h : s.sysWriter m = true)
    (hv : s.logHeld p < s.logTaken p v.toNat) :
    exec (.logTailWrite m p v) s = .next ((s.setBit (rProc p 0x20) 16 true).respOk []) := by
  change execLogTailWrite m p v s = _
  unfold State.logHeld State.logTaken at hv
  simp only [execLogTailWrite, h]
  rw [if_neg (by decide), if_pos hv]

theorem exec_logTailWrite_taken {m : Master} {p : Fin 6} {v : BitVec 32} (h : s.sysWriter m = true)
    (hv : s.logTaken p v.toNat ≤ s.logHeld p) :
    ∃ l, exec (.logTailWrite m p v) s = .next ((({ s with fwp.held := l } : State).setWord (rProc p 0x18) v.toNat).respOk []) := by
  change ∃ l, execLogTailWrite m p v s = _
  unfold State.logHeld State.logTaken at hv
  simp only [execLogTailWrite, h]
  rw [if_neg (by decide), if_neg (Nat.not_lt.mpr hv)]
  split
  · exact ⟨s.fwp.held, rfl⟩
  · exact ⟨_, rfl⟩

/-! The self-test phase (R540). -/

/-- Words of the n first mailboxes that a change of phase clears. -/
def forgetWords (n : Nat) : List Nat := (List.range n).flatMap fun b => [rMbx b 0x18, rMbx b 0x1C, rMbx b 0x20]

theorem rMbx_mem_forgetWords {n b o : Nat} (hb : b < n) (ho : o ∈ [0x18, 0x1C, 0x20]) : rMbx b o ∈ forgetWords n := by
  simp only [forgetWords, List.mem_flatMap, List.mem_range]
  exact ⟨b, hb, by simp at ho ⊢; rcases ho with rfl | rfl | rfl <;> simp⟩

theorem rFwp_not_mem_forgetWords {n o : Nat} (ho : o < 0x2000) : rFwp o ∉ forgetWords n := by
  simp [forgetWords, (rMbx_ne_rFwp ho).symm]

theorem RegsOnly.mbxForget {l : List Nat} {t : State} (h : RegsOnly l s t) {b : Nat} (h18 : rMbx b 0x18 ∈ l) (h1C : rMbx b 0x1C ∈ l)
    (h20 : rMbx b 0x20 ∈ l) : RegsOnly l s (t.mbxForget b) := (h.setWord64 0 h18 h1C).setWord 0 h20

/-- What the n first mailboxes negotiated is cleared. -/
theorem State.mbxForget_range (hwf : regsWf s.regs = true) (n : Nat) :
    RegsOnly (forgetWords n) s ((List.range n).foldl State.mbxForget s) ∧
    ∀ b, b < n → ((List.range n).foldl State.mbxForget s).word (rMbx b 0x20) = 0 := by
  induction n with
  | zero => exact ⟨.refl hwf, fun b hb => absurd hb (by omega)⟩
  | succ n ih =>
    obtain ⟨ho, hz⟩ := ih
    rw [List.range_succ, List.foldl_append, List.foldl_cons, List.foldl_nil]
    generalize (List.range n).foldl State.mbxForget s = u at *
    have hstep := RegsOnly.mbxForget (l := [rMbx n 0x18, rMbx n 0x1C, rMbx n 0x20]) (b := n) (.refl ho.wf) (by simp) (by simp) (by simp)
    have hlast : ∀ a ∈ [rMbx n 0x18, rMbx n 0x1C, rMbx n 0x20], a ∈ forgetWords (n + 1) := by
      simp [rMbx_mem_forgetWords]
    have hfirst : ∀ a ∈ forgetWords n, a ∈ forgetWords (n + 1) := by
      intro a ha
      simp only [forgetWords, List.range_succ, List.flatMap_append, List.mem_append]
      exact .inl ha
    refine ⟨hstep.after ⟨ho.wf, fun a ha => ho.word a fun hm => ha (hfirst a hm), ho.rest⟩ hlast, fun b hb => ?_⟩
    obtain rfl | hlt : b = n ∨ b < n := by omega
    · exact State.word_setWord_same (State.setWord64_regsWf ho.wf _ _) _ _
    · refine (hstep.word _ ?_).trans (hz b hlt)
      simp only [List.mem_cons, List.not_mem_nil, or_false, rMbx, rFwp]
      omega

/-- A change of phase writes the phase and clears what the mailboxes have negotiated. -/
theorem State.setPhase_effect (hwf : regsWf s.regs = true) {v : Nat} (hv : v < 8) :
    (s.setPhase v).phase = v ∧ (∀ b, b < 64 → (s.setPhase v).word (rMbx b 0x20) = 0) ∧
    (s.setPhase v).mem = s.mem ∧ regsWf (s.setPhase v).regs = true := by
  obtain ⟨ho, hz⟩ := State.mbxForget_range (State.setFld_regsWf hwf (rFwp 0) 2 0 v) 64
  refine ⟨?_, hz, ho.mem, ho.wf⟩
  exact (ho.fld 2 0 (rFwp_not_mem_forgetWords (by decide))).trans
    ((State.fld_setFld_same hwf v (by decide) (by decide)).trans (Nat.mod_eq_of_lt hv))

theorem exec_selftest_other {m : Master} (h : s.isIsland m = false) : exec (.selftest (some m)) s = .next (s.refuse m 2 (rFwp 0xC)) := by
  change execSelftest (some m) s = _
  simp [execSelftest, h]

theorem exec_selftest_island {m : Master} (h : s.isIsland m = true) :
    exec (.selftest (some m)) s = .next ((if s.phase = 2 then s.setPhase 3 else s).respOk []) := by
  change execSelftest (some m) s = _
  simp [execSelftest, h]

theorem exec_selftest_end : exec (.selftest none) s = .next (if s.phase = 3 then (s.setPhase 2).orWord rFwpIrq 0x20 else s) := rfl

end Sys2Proof.Machine

open Sys2Proof Sys2Proof.Machine

/-- Settles O47: each message that is ready is the one case of its command, and each log entry, tail, window or phase is what its
operation writes. -/
theorem modelCommandsLogsAndSelfTest : Obligations.ModelCommandsLogsAndSelfTest := by
  unfold Obligations.ModelCommandsLogsAndSelfTest
  refine ⟨fun s b hcan h => ?install, fun s b h => ?evict, fun s b hcan h => ?pin, fun s b h => ?switch, fun s b h => ?status,
    fun s p k v c a hcan => ⟨fun hk => ?_, fun hk hlive _ hroom => ?event, fun hk hoff => ?_, fun m d f hk hc hon ht hbudget => ?drop⟩,
    fun s m p v => ⟨fun hm => exec_logTailWrite_other hm, fun hcan hm => ?tail⟩, fun s p m f ht he => ?quiet,
    fun s p m d f hcan ht hd he hbudget hlive _ hroom => ?told, fun s m hm => exec_selftest_other hm, fun s m hcan hm => ?begin,
    fun s hcan => ⟨fun h3 => ?_, fun h3 => ?finish⟩⟩
  case install =>
    intro l a n lp enc
    have ha : leAt (s.mbxPay b) 0 8 = a := rfl
    have hb : leAt (s.mbxPay b) 8 8 = n := rfl
    clear_value a n
    have hsrc : s.imageSource a n = lp := rfl
    refine ⟨fun hlp => ?_, fun hlp hbad => ?_, fun hlp h0 hn hm => ?_,
      fun hlp h0 hn hm henc hfree u => ⟨fun hroom => ?_, fun m hroom hcanu hm32 => ?_⟩⟩
    · rw [exec_modelInstall_ready h, State.modelInstall_badSource ha hb (hsrc.trans hlp)]
    · rw [exec_modelInstall_ready h, State.modelInstall_badSize ha hb (hsrc.trans hlp) hbad]
    · rw [exec_modelInstall_ready h, State.modelInstall_denied ha hb (hsrc.trans hlp) h0 hn hm]
    · rw [exec_modelInstall_ready h, State.modelInstall_noRoom ha hb (hsrc.trans hlp) h0 hn hm henc hfree hroom]
    · obtain ⟨-, hwf⟩ := State.canonical_iff.mp hcanu
      have ha64 : a < 2 ^ 64 := ha ▸ leAt_lt (s.mbxPay b) 0 8
      have hn64 : n < 2 ^ 64 := hb ▸ leAt_lt (s.mbxPay b) 8 8
      obtain ⟨state, gold, bytes, pin, only⟩ := State.installing_effect hwf m ha64 hn64 (bitOf (leAt (s.mbxPay b) 16 1) 0)
      have hw := State.word_mbxPerformed (u.installing m a n (bitOf (leAt (s.mbxPay b) 16 1) 0)) b
        { ansOk (leBytes 1 m) with wait := .install m }
      refine .of_exec (by rw [exec_modelInstall_ready h, State.modelInstall_room ha hb (hsrc.trans hlp) h0 hn hm henc hfree hroom]) ?_
      exact ⟨(State.fld_congr (hw _) 2 0).trans state, (State.word64_congr hw _).trans gold, (State.word64_congr hw _).trans bytes,
        (State.bit_congr (hw _) 3).trans pin, fun c hc => (hw c).trans (only.word c hc), (State.mbxPerformed_mem _ _ _).trans only.mem,
        State.mbxPerformed_mbx_congr (congrArg FwpS.mbx only.fwp) _⟩
  case evict =>
    refine ⟨fun hm => ?_, fun hm hd => ?_, fun hm hstate hown => ⟨fun hev => ?_, fun hev => ?_⟩⟩
    · rw [exec_modelEvict_ready h, State.modelEvict_badModel rfl hm]
    · rw [exec_modelEvict_ready h, State.modelEvict_denied rfl hm hd]
    · rw [exec_modelEvict_ready h, State.modelEvict_own rfl hm hstate hown, hev]
      rfl
    · obtain ⟨y, hy⟩ := State.mbxReady_message h
      refine .of_exec (t := s.ansRefusedOpen.1.mbxPerformed b s.ansRefusedOpen.2) ?_ (State.refusedOpen_effect hy)
      rw [exec_modelEvict_ready h, State.modelEvict_own rfl hm hstate hown, hev]
      rfl
  case pin =>
    obtain ⟨-, hwf⟩ := State.canonical_iff.mp hcan
    obtain ⟨y, hy⟩ := State.mbxReady_message h
    refine ⟨fun hm => ?_, fun hm hx => ?_, fun hm hx hd => ?_, fun hm hx hstate hown => ?_⟩
    · rw [exec_modelPin_ready h, State.modelPin_badModel rfl hm]
    · rw [exec_modelPin_ready h, State.modelPin_badPin rfl hm hx]
    · rw [exec_modelPin_ready h, State.modelPin_denied rfl hm hx hd]
    · have hpin := State.modelPin_own rfl rfl hm hx hstate hown
      refine .of_exec (exec_modelPin_ready h) ⟨fun hfull => ?_, fun hfull => ?_, ?_⟩
      · rw [hpin, if_neg (by rw [hfull]; decide)]
        have hset := RegsOnly.setBit (l := [rModel (leAt (s.mbxPay b) 0 1) 0]) (.refl hwf) 3 (decide (leAt (s.mbxPay b) 1 1 = 1))
          (List.mem_singleton_self _)
        have hw := State.word_mbxPerformed (s.setBit (rModel (leAt (s.mbxPay b) 0 1) 0) 3 (decide (leAt (s.mbxPay b) 1 1 = 1))) b (ansOk [])
        refine ⟨(State.bit_congr (hw _) 3).trans (State.bit_setBit_same hwf _ (by decide)), ?_, fun c hc => (hw c).trans (hset.word c hc),
          State.answered_mbxPerformed (x := ansOk []) hy rfl⟩
        exact (State.fld_congr (hw _) 2 0).trans (State.fld_setFld_apart hwf _ (by decide) (by decide) (by decide))
      · rw [hpin, if_pos hfull]
        obtain ⟨code, regs, -⟩ := State.refusedOpen_effect hy
        exact ⟨code, regs⟩
      · rw [State.mbxPerformed_mem, hpin]
        split <;> rfl
  case switch =>
    refine ⟨fun hbad => ?_, fun hk hclass hm => ?_, fun hk hclass hm => ⟨fun hmine => ?_, fun hmine => ?_⟩⟩
    · rw [exec_modelSwitch_ready h, State.modelSwitch_badClick rfl hbad]
    · rw [exec_modelSwitch_ready h, State.modelSwitch_badModel rfl rfl hk hclass hm]
    · rw [exec_modelSwitch_ready h, State.modelSwitch_denied rfl rfl hk hclass hm hmine]
    · refine .of_exec (by rw [exec_modelSwitch_ready h, State.modelSwitch_asked rfl rfl hk hclass hm hmine])
        ⟨fun hcode => ?_, fun hcode => ?_⟩
      · rw [if_pos hcode]
      · rw [if_neg (by simpa using hcode)]
  case status =>
    refine ⟨fun hm => ?_, fun hm hstate hd => ?_, fun hm hd => ?_⟩
    · rw [exec_modelStatus_ready h, State.modelStatus_badModel rfl hm]
    · rw [exec_modelStatus_ready h, State.modelStatus_denied rfl hm hstate hd]
    · obtain ⟨y, hy⟩ := State.mbxReady_message h
      refine .of_exec (by rw [exec_modelStatus_ready h, State.modelStatus_words rfl hm hd])
        ⟨State.answered_mbxPerformed hy rfl, State.mbxPerformed_regs _ _ _, State.mbxPerformed_mem _ _ _⟩
  · rw [exec_logEntryWrite, State.logWrite_other _ _ _ _ hk]
  case event =>
    obtain ⟨hmem, hwf⟩ := State.canonical_iff.mp hcan
    obtain ⟨r, hargs⟩ := logArgs_eq a
    intro n h
    by_cases hn : n < 4
    · obtain ⟨head, bytes, others, regs⟩ := State.logAppend_effect (s := s.eventCounted p c.toNat) hmem hwf p
        (logBytes_length (s.word (rProc p 0x14)) 0 v c.toNat s.recordTime.1 (logArgs a))
      refine .of_exec (by rw [exec_logEntryWrite, hk, State.logWrite_event_logged _ _ hn hlive hroom])
        ⟨fmGet_fmPut_same _ _ _, fun h4 => absurd hn (Nat.not_lt.mpr h4), fun _ => ⟨head, ?_, ?_, others, regs⟩⟩
      · exact (bytes 0 8 (by decide)).trans (logBytes_head _ _ _ _ _ _)
      · exact (bytes 16 4 (by decide)).trans (by rw [hargs, logBytes_arg])
    · refine .of_exec (t := s.eventCounted p c.toNat) ?_ ⟨fmGet_fmPut_same _ _ _, fun _ => ⟨rfl, rfl⟩, fun h4 => absurd h4 hn⟩
      rw [exec_logEntryWrite, hk, State.logWrite_event, if_neg hn]
  · rw [exec_logEntryWrite, hk, State.logWrite_traceOff _ _ hoff]
  case drop =>
    obtain ⟨-, hwf⟩ := State.canonical_iff.mp hcan
    obtain ⟨count, irq, trace, only⟩ := State.traceDrop_effect hwf p m d f c.toNat
    refine .of_exec (t := s.traceDrop p m d f c.toNat) ?_ ⟨count, irq, trace, only, rfl⟩
    rw [exec_logEntryWrite, hk, State.logWrite_traceDropped _ _ hc hon ht hbudget]
  case tail =>
    obtain ⟨-, hwf⟩ := State.canonical_iff.mp hcan
    by_cases hv : s.logTaken p v.toNat ≤ s.logHeld p
    · obtain ⟨l, e⟩ := exec_logTailWrite_taken hm hv
      unfold State.logTaken State.logHeld at hv
      refine .of_exec e ⟨fun hpast => absurd hv (Nat.not_le.mpr hpast), fun _ => ⟨?_, fun c hc => ?_⟩, rfl, rfl⟩
      · exact (State.word_setWord_same (s := { s with fwp.held := l }) hwf _ _).trans (Nat.mod_eq_of_lt v.isLt)
      · exact State.word_setWord_other (s := { s with fwp.held := l }) hwf _ (by simpa using hc)
    · have e := exec_logTailWrite_past hm (Nat.not_le.mp hv)
      unfold State.logTaken State.logHeld at hv
      have only : RegsOnly [rProc p 0x20] s (s.setBit (rProc p 0x20) 16 true) := RegsOnly.setBit (.refl hwf) _ _ (by simp)
      refine .of_exec e ⟨fun _ => ⟨?_, State.bit_setBit_same hwf true (by decide), only.word⟩, fun hin => absurd hin hv, rfl, rfl⟩
      exact only.word _ (by simp [rProc_inj])
  case quiet =>
    exact .of_exec (t := s.setTrace p (0, 0, f)) (by rw [exec_traceWindow, State.traceWindow_quiet ht he])
      ⟨fmGet_fmPut_same _ _ _, he, rfl, rfl⟩
  case told =>
    obtain ⟨hmem, hwf⟩ := State.canonical_iff.mp hcan
    obtain ⟨head, bytes, -, -⟩ := State.logAppend_effect (s := s.setTrace p (1, 0, 0)) hmem hwf p
      (logBytes_length (s.word (rProc p 0x14)) 3 0 0 s.recordTime.1 [d, f])
    exact .of_exec (by rw [exec_traceWindow, State.traceWindow_dropped ht hd he hbudget hlive hroom])
      ⟨fmGet_fmPut_same _ _ _, head, (bytes 4 1 (by decide)).trans (logBytes_kind _ _ _ _ _ _),
        (bytes 16 8 (by decide)).trans (logBytes_args _ _ _ _ _ _ _ _)⟩
  case begin =>
    obtain ⟨-, hwf⟩ := State.canonical_iff.mp hcan
    obtain ⟨phase, forgot, mem, -⟩ := State.setPhase_effect hwf (v := 3) (by decide)
    refine .of_exec (exec_selftest_island hm) ?_
    generalize s.setPhase 3 = u at *
    by_cases h2 : s.phase = 2
    · rw [if_pos h2, if_pos h2]
      exact ⟨phase, mem, rfl, fun _ => forgot⟩
    · rw [if_neg h2, if_neg h2]
      exact ⟨rfl, rfl, rfl, fun h => absurd h h2⟩
  · rw [exec_selftest_end, if_neg h3]
  case finish =>
    obtain ⟨-, hwf⟩ := State.canonical_iff.mp hcan
    obtain ⟨phase, forgot, mem, wf⟩ := State.setPhase_effect hwf (v := 2) (by decide)
    have hend : exec (.selftest none) s = .next ((s.setPhase 2).orWord rFwpIrq 0x20) := by rw [exec_selftest_end, if_pos h3]
    generalize s.setPhase 2 = u at *
    refine .of_exec hend ⟨?_, ?_, mem, fun b hb => ?_⟩
    · exact (State.fld_congr (State.word_orWord_other wf _ (by decide)) 2 0).trans phase
    · exact (State.bit_orWord_same wf _ _ (by decide)).trans (by rw [show bitOf 0x20 5 = true from rfl, Bool.or_true])
    · exact (State.word_orWord_other wf _ (rMbx_ne_rFwp (by decide))).trans (forgot b hb)

end

section
/-! PROOF. What a revised SLC allocation leaves alone, and the registers of a clicking (R283, R309). -/

namespace Sys2Proof.Machine

variable {s t u : State} {k m : Nat}

/-- The words that a revised allocation writes. -/
def slcWords : List Nat := rMhs 8 :: (List.range 32).flatMap fun m => [rModel m 0, rModel m 0x20]

theorem rModel_mem_slcWords {o : Nat} (hm : m < 32) (ho : o = 0 ∨ o = 0x20) : rModel m o ∈ slcWords := by
  refine List.mem_cons_of_mem _ (List.mem_flatMap.mpr ⟨m, List.mem_range.mpr hm, ?_⟩)
  obtain rfl | rfl := ho <;> simp

/-- A word of the Clicker is none of the Model Host's. -/
theorem rClick_not_mem_slcWords {o : Nat} (hk : k < 64) (ho : o < 0x80) : rClick k o ∉ slcWords := by
  simp only [slcWords, List.mem_cons, List.mem_flatMap, List.mem_range, List.not_mem_nil, or_false, rClick, not_or, not_exists, not_and]
  refine ⟨?_, fun m _ => ⟨rClc_ne_rModel (by omega), rClc_ne_rModel (by omega)⟩⟩
  unfold rClc rMhs blkBase bCLC bMHS
  omega

theorem rModel_not_mem_slcWords {o : Nat} (ho : o < 0x40) (h0 : o ≠ 0) (h20 : o ≠ 0x20) : rModel m o ∉ slcWords := by
  simp only [slcWords, List.mem_cons, List.mem_flatMap, List.mem_range, List.not_mem_nil, or_false, rModel, rMhs]
  omega

theorem rMhs_not_mem_slcWords {o : Nat} (ho : o < 0x1000) (h8 : o ≠ 8) : rMhs o ∉ slcWords := by
  simp only [slcWords, List.mem_cons, List.mem_flatMap, List.mem_range, List.not_mem_nil, or_false, rModel, rMhs]
  omega

/-- Only words that an allocation writes differ, and every model is in the state it was in. -/
def SlcOnly (s t : State) : Prop := RegsOnly slcWords s t ∧ ∀ m, t.modelState m = s.modelState m

theorem SlcOnly.setSlc (h : SlcOnly s t) (hm : m < 32) (v : Nat) (all : Bool) :
    SlcOnly s ((t.setWord (rModel m 0x20) v).setBit (rModel m 0) 4 all) := by
  obtain ⟨hregs, hstate⟩ := h
  have hset := State.setWord_regsWf hregs.wf (rModel m 0x20) v
  refine ⟨(hregs.setWord v (rModel_mem_slcWords hm (.inr rfl))).setBit 4 all (rModel_mem_slcWords hm (.inl rfl)), fun j => ?_⟩
  have hword : (t.setWord (rModel m 0x20) v).modelState j = t.modelState j :=
    State.fld_congr (State.word_setWord_other hregs.wf v (by unfold rModel rMhs; omega)) 2 0
  refine .trans ?_ (hword.trans (hstate j))
  by_cases hj : rModel j 0 = rModel m 0
  · rw [State.modelState, State.modelState, hj]
    exact State.fld_setFld_apart hset _ (by decide) (by decide) (by decide)
  · exact State.fld_setFld_other hset _ _ _ _ _ hj

/-- Every model that the allocation serves is one of the 32. -/
theorem State.slcOrder_lt (s : State) : ∀ m ∈ s.slcOrder, m < 32 := by
  have hbound (cls : Nat) : ∀ m ∈ ((List.range 64).filter fun k => decide (s.clickClass k = cls) && s.clickBound k).map fun k =>
      s.clickModel k, m < 32 := by
    intro m hm
    obtain ⟨k, -, rfl⟩ := List.mem_map.mp hm
    exact Nat.mod_lt _ (by decide)
  unfold State.slcOrder
  refine List.foldlRecOn (motive := fun l : List Nat => ∀ m ∈ l, m < 32) _ _ (by simp) fun l hl x hx m hm => ?_
  have hx32 : x < 32 := by
    simp only [List.mem_append] at hx
    obtain (hx | hx) | hx := hx
    · exact hbound 1 x hx
    · exact hbound 2 x hx
    · refine List.foldlRecOn (motive := fun l : List Nat => ∀ m ∈ l, m < 32) _ _ (by simp) (fun l hl y hy m hm => ?_) x hx
      simp only [List.mem_append, List.mem_singleton] at hm
      obtain (hm | rfl) | hm := hm
      · exact hl m ((List.takeWhile_sublist _).subset hm)
      · exact List.mem_range.mp (List.mem_filter.mp hy).1
      · exact hl m ((List.dropWhile_sublist _).subset hm)
  split at hm
  · exact hl m hm
  · obtain hm | rfl := List.mem_append.mp hm |>.imp_right List.mem_singleton.mp
    · exact hl m hm
    · exact hx32

/-- A model gives up its share. -/
def State.slcClear (s : State) (m : Nat) : State := (s.setWord (rModel m 0x20) 0).setBit (rModel m 0) 4 false

/-- A READY model gets its share of what is left. -/
def State.slcServe (acc : State × Nat) (m : Nat) : State × Nat :=
  if acc.1.modelState m ≠ 2 then acc
  else
    let p := placeHot (acc.1.segs m) acc.2 0 true
    ((acc.1.setWord (rModel m 0x20) (ceilDiv p.1 (2 ^ 20))).setBit (rModel m 0) 4 p.2.2, p.2.1)

theorem State.slcRealloc_eq (s : State) :
    s.slcRealloc =
      let u := (List.range 32).foldl State.slcClear s
      let r := u.slcOrder.foldl State.slcServe (u, 2 ^ 20 * u.fld (rMhs 8) 7 0)
      r.1.setFld (rMhs 8) 23 16 (ceilDiv (2 ^ 20 * u.fld (rMhs 8) 7 0 - r.2) (2 ^ 20)) := rfl

/-- A revised allocation writes shares of the SLC only. -/
theorem State.slcRealloc_only (hwf : regsWf s.regs = true) : SlcOnly s s.slcRealloc := by
  have hclear : SlcOnly s ((List.range 32).foldl State.slcClear s) :=
    List.foldlRecOn (motive := SlcOnly s) _ _ ⟨.refl hwf, fun _ => rfl⟩ fun u hu m hm => hu.setSlc (List.mem_range.mp hm) _ _
  have hserve (v : State) (hv : SlcOnly s v) (left : Nat) : SlcOnly s (v.slcOrder.foldl State.slcServe (v, left)).1 := by
    refine List.foldlRecOn (motive := fun acc : State × Nat => SlcOnly s acc.1) _ _ hv fun acc hacc m hm => ?_
    unfold State.slcServe
    split
    · exact hacc
    · exact hacc.setSlc (v.slcOrder_lt m hm) _ _
  obtain ⟨hregs, hstate⟩ := hserve _ hclear (2 ^ 20 * State.fld _ (rMhs 8) 7 0)
  rw [State.slcRealloc_eq]
  refine ⟨hregs.setFld 23 16 _ List.mem_cons_self, fun m => ?_⟩
  exact (State.fld_setFld_other hregs.wf _ _ _ _ _ (by unfold rModel rMhs; omega)).trans (hstate m)

end Sys2Proof.Machine
end

section
/-! PROOF. Configuration writes and switches of a clicking (R285, R311 to R313, R320). -/

namespace Sys2Proof.Machine

/-- A word is set to no reset value: any other key of the store reads as before, whether the store is in canonical form or not. -/
theorem stGet_stPut_of_ne_default {α : Type} [DecidableEq α] {d : Nat → α} {j k : Nat} {v : α} (hv : v ≠ d k) (hj : j ≠ k) :
    ∀ l : List (Nat × α), stGet d (stPut d l k v) j = stGet d l j
  | [] => by
    simp [stPut, hv, stGet, hj]
  | (k', v') :: r => by
    have ih := stGet_stPut_of_ne_default hv hj r
    rw [stPut, if_neg hv]
    by_cases hlt : k < k'
    · rw [if_pos hlt, stGet, stGet]
      by_cases hjk : j < k
      · simp [hjk, hjk.trans hlt]
      · simp [hjk, hj]
    · rw [if_neg hlt]
      by_cases he : k = k'
      · subst he
        simp [hv, hj, stGet]
      · simp [he, ih, stGet]

variable {s t u : State} {k m : Nat} {x : ClcSwitch}

theorem State.word_setWord_of_ne_reset {a b v : Nat} (hv : BitVec.ofNat 32 v ≠ regReset a) (hb : b ≠ a) :
    (s.setWord a v).word b = s.word b := by
  rw [State.word, State.setWord, stGet_stPut_of_ne_default hv hb, State.word]

theorem rClick_inj {j k a b : Nat} (ha : a < 0x80) (hb : b < 0x80) : rClick j a = rClick k b ↔ j = k ∧ a = b := by
  unfold rClick rClc
  omega

theorem rClick_ne_rClcIrq {o : Nat} : rClick k o ≠ rClcIrq := by
  unfold rClick rClcIrq rClc
  omega

/-- A clicking whose configuration says best effort, or whose state is SWITCHING, does not read as reset. -/
theorem regReset_rClick :
    ∀ k < 64, bitsOf (regReset (rClick k 0)).toNat 1 0 ≠ 2 ∧ bitsOf (regReset (rClick k 4)).toNat 3 0 ≠ 3 := by
  decide +kernel

/-- A field of a word that differs tells the words apart. -/
theorem ne_of_bitsOf_ne {v : Nat} {w : BitVec 32} {hi lo : Nat} (hhi : hi < 32) (h : bitsOf w.toNat hi lo ≠ bitsOf v hi lo) :
    BitVec.ofNat 32 v ≠ w := by
  rintro rfl
  refine h (Nat.eq_of_testBit_eq fun i => ?_)
  rw [testBit_bitsOf, testBit_bitsOf, BitVec.toNat_ofNat, Nat.testBit_mod_two_pow]
  by_cases hi' : i < hi + 1 - lo
  · simp [show lo + i < 32 by omega]
  · simp [hi']

/-! The configuration of a best-effort clicking. -/

/-- The mask of cells is in eight words. -/
theorem State.clickNow_congr (h : ∀ i < 8, t.word (rClick k (0x40 + 4 * i)) = s.word (rClick k (0x40 + 4 * i))) :
    t.clickNow k = s.clickNow k := by
  have hword : ∀ i ∈ List.range 8, leBytes 4 (t.word (rClick k 0x40 + 4 * i)) = leBytes 4 (s.word (rClick k 0x40 + 4 * i)) :=
    fun i hi => by rw [show rClick k 0x40 + 4 * i = rClick k (0x40 + 4 * i) by unfold rClick rClc; omega,
      h i (List.mem_range.mp hi)]
  exact congrArg (fun l : List Byte => leNat (l.take 32)) (List.flatMap_congr hword)

/-- The word of a configuration write. -/
def clickCfgWord (w v : Nat) : Nat :=
  setBitsOf (setBitsOf (setBitsOf w 31 28 (bitsOf v 31 28)) 24 16 (bitsOf v 24 16)) 7 0 (v % 256)

theorem bitsOf_clickCfgWord_class (w v : Nat) : bitsOf (clickCfgWord w v) 1 0 = v % 4 := by
  have h : bitsOf (bitsOf (clickCfgWord w v) 7 0) 1 0 = v % 4 := by
    rw [clickCfgWord, bitsOf_setBitsOf_same _ _ _ _ (by decide)]
    simp only [bitsOf, Nat.shiftRight_zero]
    omega
  rw [← h]
  simp only [bitsOf, Nat.shiftRight_zero]
  omega

/-- The cells of a best-effort clicking that stays so are handed out again. -/
theorem State.clickCfg_bestEffort {v : Nat} (hk : k < 64) (hclass : s.clickClass k = 2) (hv : v % 4 = 2) (hnow : s.clickNow k = 0) :
    s.clickCfg k v = (State.shrink 257 k (s.setWord (rClick k 0) (clickCfgWord (s.word (rClick k 0)) v))).handOut.showFree := by
  have hreset : BitVec.ofNat 32 (clickCfgWord (s.word (rClick k 0)) v) ≠ regReset (rClick k 0) :=
    ne_of_bitsOf_ne (hi := 1) (lo := 0) (by decide) (by rw [bitsOf_clickCfgWord_class, hv]; exact (regReset_rClick k hk).1)
  have hkeep : (s.setWord (rClick k 0) (clickCfgWord (s.word (rClick k 0)) v)).clickNow k = 0 :=
    (State.clickNow_congr fun i _ => State.word_setWord_of_ne_reset hreset (by unfold rClick rClc; omega)).trans hnow
  unfold State.clickCfg
  simp only [hclass, hv]
  rw [← clickCfgWord]
  generalize s.setWord (rClick k 0) (clickCfgWord (s.word (rClick k 0)) v) = u at hkeep ⊢
  have hfold : (List.range 256).foldl (fun s c => if bitOf (s.clickNow k) c then s.setFld (rCell c 0) 22 17 (s.clickInst k) else s) u = u :=
    foldl_eq_self fun c _ => by simp [hkeep, bitOf]
  simpa using congrArg (fun w : State => (State.shrink 257 k w).handOut.showFree) hfold

/-! A switch is asked for. -/

/-- LAST_SW fits its field. -/
theorem State.switchCheck_lt (s : State) (k m : Nat) (unbind : Bool) : s.switchCheck k m unbind < 16 := by
  unfold State.switchCheck
  dsimp only
  split_ifs <;> decide

theorem State.switchReq_refused {abort resOnly unbind : Bool} {label : Nat} (h : s.switchCheck k m unbind ≠ 0) :
    s.switchReq k m abort resOnly unbind label = (s.setLastSw k (s.switchCheck k m unbind)).orWord rClcIrq 4 := by
  unfold State.switchReq
  split
  · next h0 => exact absurd h0 h
  · rfl

theorem State.switchReq_accepted {abort resOnly unbind : Bool} {label : Nat} (h : s.switchCheck k m unbind = 0) :
    s.switchReq k m abort resOnly unbind label =
      if unbind then (s.switchStart k ⟨m, abort, resOnly, unbind, label, false⟩).drainDone k
      else s.switchStart k ⟨m, abort, resOnly, unbind, label, false⟩ := by
  simp only [State.switchReq, h]

theorem State.switchSides_alone (h : s.twlClick k = false) : s.switchSides k = [k] := by
  simp [State.switchSides, h]

theorem State.cancelPending_none (h : s.clc.pend = []) : s.cancelPending k = s := by
  have hs : ({ s with clc.pend := [] } : State) = s := by rw [← h]
  simp only [State.cancelPending, h, List.filter_nil, List.foldl_nil]
  exact hs

/-- A switch of a clicking is under way. -/
def State.switching (s : State) (k : Nat) (x : ClcSwitch) : State :=
  { s.setClickState k 3 with clc.switching := fmPut s.clc.switching k x }

theorem State.switchStart_alone (h : s.twlClick k = false) (hpend : s.clc.pend = []) (habort : x.abort = false) :
    s.switchStart k x = s.switching k x := by
  have hcancel : (s.setClickState k 3).cancelPending k = s.setClickState k 3 := State.cancelPending_none hpend
  simp only [State.switchStart, State.switchSides_alone h, List.foldl_cons, List.foldl_nil, hcancel, habort]
  rfl

/-- A clicking is alone as long as the configuration words are the same. -/
theorem State.twlClick_congr (h : ∀ j, t.word (rClick j 0) = s.word (rClick j 0)) : t.twlClick k = s.twlClick k := by
  simp only [State.twlClick, State.clickPartner, State.bit, State.fld, h]
  rfl

theorem State.twlClick_switching (hk : k < 64) : (s.switching k x).twlClick k = s.twlClick k := by
  have hword : bitsOf (setBitsOf (s.word (rClick k 4)) 3 0 3) 3 0 = 3 := bitsOf_setBitsOf_same _ _ _ _ (by decide)
  refine State.twlClick_congr fun j => State.word_setWord_of_ne_reset (s := s) (ne_of_bitsOf_ne (hi := 3) (lo := 0) (by decide) ?_) ?_
  · rw [hword]
    exact (regReset_rClick k hk).2
  · exact mt (rClick_inj (by decide) (by decide)).mp fun he => absurd he.2 (by decide)

/-! The drain ends. -/

/-- The drain of a switch is marked as done. -/
def State.drainMarked (s : State) (k : Nat) (x : ClcSwitch) : State :=
  { s with clc.switching := fmPut s.clc.switching k { x with drained := true } }

/-- The resident segments of a model are loaded into every cell of a clicking. -/
def State.loadCells (s : State) (k m : Nat) : State :=
  (List.range 256).foldl (fun s c => if bitOf (s.clickNow k) c then s.loadResident m c else s) s

theorem State.loadCells_none (h : s.clickNow k = 0) (m : Nat) : s.loadCells k m = s :=
  foldl_eq_self fun c _ => by simp [h, bitOf]

/-- The burst cells of a clicking go back. -/
def State.burstBack (s : State) (k : Nat) : State := s.clc.burst.foldl (fun s p => if p.2 = k then s.leaveCell k p.1 else s) s

theorem State.burstBack_none (h : s.clc.burst = []) : s.burstBack k = s := by rw [State.burstBack, h, List.foldl_nil]

theorem State.drainDone_switching (hx : fmGet s.clc.switching k = some x) :
    s.drainDone k =
      if x.drained || (s.switchSides k).any fun j => !(s.jobsOn j).isEmpty then s
      else if x.unbind then
        (s.switchSides k).foldl (fun s j => s.switchEnd j 1 1)
          ((s.switchSides k).foldl (fun s j => (s.burstBack j).unbindClick j) s).slcRealloc
      else
        (s.switchSides k).foldl (fun s j => (s.drainMarked j x).loadCells j x.model)
          ((s.switchSides k).foldl (fun s j => (s.burstBack j).unbindClick j) s).slcRealloc := by
  unfold State.drainDone
  rw [hx]
  rfl

/-- A clicking that is alone, switches and runs no job leaves its model. UNBIND ends; the cells of another switch load what the next
model keeps in them. -/
theorem State.drainDone_alone (hx : fmGet s.clc.switching k = some x) (h : s.twlClick k = false) (hjobs : (s.jobsOn k).isEmpty = true)
    (hdrained : x.drained = false) (hburst : s.clc.burst = []) :
    s.drainDone k =
      if x.unbind then (s.unbindClick k).slcRealloc.switchEnd k 1 1
      else ((s.unbindClick k).slcRealloc.drainMarked k x).loadCells k x.model := by
  rw [State.drainDone_switching hx, State.switchSides_alone h]
  rw [if_neg (by simp [hjobs, hdrained]), List.foldl_cons, List.foldl_nil, List.foldl_cons, List.foldl_nil, List.foldl_cons,
    List.foldl_nil, State.burstBack_none hburst]

theorem State.drainDone_waits (hx : fmGet s.clc.switching k = some x) (h : s.twlClick k = false)
    (hwait : (s.jobsOn k).isEmpty = false ∨ x.drained = true) : s.drainDone k = s := by
  rw [State.drainDone_switching hx, State.switchSides_alone h, if_pos]
  obtain hjobs | hdrained := hwait
  · simp [hjobs]
  · simp [hdrained]

/-- A clicking gives up its model: a word of the model and its own state word change. -/
theorem State.unbindClick_only (hwf : regsWf s.regs = true) :
    RegsOnly [rModel (s.clickModel k) 0, rClick k 4] s (s.unbindClick k) := by
  unfold State.unbindClick
  split
  · exact ((RegsOnly.refl hwf).setFld 15 8 _ (by simp)).setBit 27 false (by simp)
  · exact .refl hwf

theorem State.unbindClick_state (hk : k < 64) (hwf : regsWf s.regs = true) :
    (s.unbindClick k).clickBound k = false ∧ (s.unbindClick k).clickState k = s.clickState k := by
  unfold State.unbindClick
  split
  · next hbound =>
    have hset := State.setFld_regsWf hwf (rModel (s.clickModel k) 0) 15 8 (s.fld (rModel (s.clickModel k) 0) 15 8 - 1)
    refine ⟨State.bit_setBit_same hset _ (by decide), (State.fld_setFld_apart hset _ (by decide) (by decide) (by decide)).trans ?_⟩
    exact State.fld_setFld_other hwf _ _ _ _ _ (rClc_ne_rModel (by omega))
  · next hbound => exact ⟨by simpa using hbound, rfl⟩

end Sys2Proof.Machine
end

section
/-! PROOF. The warm pass of a switch that loads nothing, and what the clicking then reads as (R312, R313). -/

namespace Sys2Proof.Machine

variable {s t u : State} {k m : Nat} {x : ClcSwitch}

/-- A switch of one clicking ends with a model. -/
def State.switchBound (s : State) (k m : Nat) : State :=
  let n := s.switchCells k
  let s := (s.switchEnd k 2 1).setFld (rClick k 4) 12 4 n
  let s := (s.setFld (rClick k 4) 26 22 m).setBit (rClick k 4) 27 true
  s.setFld (rModel m 0) 15 8 (s.fld (rModel m 0) 15 8 + 1)

theorem State.switchDone_resident (hx : fmGet s.clc.switching k = some x) (h : s.twlClick k = false) (hdrained : x.drained = true)
    (hres : x.resOnly = true) (hmin : s.mdlMin x.model ≤ s.switchCells k) :
    s.switchDone k = ((s.switchBound k x.model).useModel x.model).slcRealloc := by
  have hfew : ¬ ([k].any fun j => decide (s.switchCells j < s.mdlMin x.model)) = true := by simpa using hmin
  unfold State.switchDone
  rw [hx, State.switchSides_alone h]
  dsimp only
  rw [if_neg (by simp [hdrained]), if_neg hfew, if_pos hres]
  dsimp only
  rw [if_neg (by simp), List.foldl_cons, List.foldl_nil]
  rfl

theorem State.switchDone_waits (hx : fmGet s.clc.switching k = some x) (hdrained : x.drained = false) : s.switchDone k = s := by
  simp [State.switchDone, hx, hdrained]

theorem State.drainDone_none (hx : fmGet s.clc.switching k = none) : s.drainDone k = s ∧ s.switchDone k = s := by
  simp [State.drainDone, State.switchDone, hx]

/-- A switch that ends says in which state and why. -/
theorem State.switchEnd_fields (hwf : regsWf s.regs = true) {st last : Nat} (hst : st < 16) (hlast : last < 16) :
    (s.switchEnd k st last).clickState k = st ∧ (s.switchEnd k st last).fld (rClick k 4) 31 28 = last ∧
    regsWf (s.switchEnd k st last).regs = true := by
  have hstate : regsWf (s.setClickState k st).regs = true := State.setFld_regsWf hwf ..
  have hlastwf : regsWf ((s.setClickState k st).setLastSw k last).regs = true := State.setFld_regsWf hstate ..
  have hirq (hi lo : Nat) : (s.switchEnd k st last).fld (rClick k 4) hi lo =
      ((s.setClickState k st).setLastSw k last).fld (rClick k 4) hi lo :=
    State.fld_congr (State.word_orWord_other hlastwf _ rClick_ne_rClcIrq) _ _
  refine ⟨(hirq 3 0).trans ?_, (hirq 31 28).trans ?_, State.orWord_regsWf hlastwf ..⟩
  · rw [State.setLastSw, State.fld_setFld_apart hstate _ (by decide) (by decide) (by decide), State.setClickState,
      State.fld_setFld_same hwf _ (by decide) (by decide)]
    exact Nat.mod_eq_of_lt hst
  · rw [State.setLastSw, State.fld_setFld_same hstate _ (by decide) (by decide)]
    exact Nat.mod_eq_of_lt hlast

/-- The state word of a clicking that has ended a switch: READY, LAST_SW 1, n cells and the model bound. -/
theorem State.switchBound_fields (hwf : regsWf s.regs = true) (hk : k < 64) (hn : s.switchCells k ≤ 256) (hm : m < 32) :
    let t := s.switchBound k m
    t.clickState k = 2 ∧ t.clickBound k = true ∧ t.clickModel k = m ∧ t.clickN k = s.switchCells k ∧
    t.fld (rClick k 4) 31 28 = 1 ∧ regsWf t.regs = true := by
  obtain ⟨hstate, hlast, hend⟩ := State.switchEnd_fields (k := k) hwf (show 2 < 16 by decide) (show 1 < 16 by decide)
  unfold State.switchBound
  generalize s.switchEnd k 2 1 = u at hstate hlast hend
  generalize s.switchCells k = n at hn
  have hcells := State.setFld_regsWf hend (rClick k 4) 12 4 n
  have hnum := State.setFld_regsWf hcells (rClick k 4) 26 22 m
  have hbound := State.setBit_regsWf hnum (rClick k 4) 27 true
  have hmodel : rClick k 4 ≠ rModel m 0 := rClc_ne_rModel (by omega)
  dsimp only
  generalize State.fld _ (rModel m 0) 15 8 + 1 = count
  have apart27 (hi lo : Nat) (hhi : hi < 32) (h27 : hi < 27 ∨ 27 < lo) :=
    (State.fld_setFld_other hbound 15 8 count hi lo hmodel).trans (State.fld_setFld_apart hnum (b2n true) (le_refl 27) hhi h27)
  have apart22 (hi lo : Nat) (hhi : hi < 32) (h27 : hi < 27 ∨ 27 < lo) (h22 : hi < 22 ∨ 26 < lo) :=
    (apart27 hi lo hhi h27).trans (State.fld_setFld_apart hcells m (by decide) hhi h22)
  have apart4 (hi lo : Nat) (hhi : hi < 32) (h27 : hi < 27 ∨ 27 < lo) (h22 : hi < 22 ∨ 26 < lo) (h4 : hi < 4 ∨ 12 < lo) :=
    (apart22 hi lo hhi h27 h22).trans (State.fld_setFld_apart hend n (by decide) hhi h4)
  refine ⟨(apart4 3 0 ?_ ?_ ?_ ?_).trans hstate, ?_, ?_, ?_, (apart4 31 28 ?_ ?_ ?_ ?_).trans hlast, State.setFld_regsWf hbound ..⟩
  rotate_left 4
  · exact (congrArg (bitOf · 27) (State.word_setFld_other hbound _ _ _ hmodel)).trans (State.bit_setBit_same hnum true (by decide))
  · refine ((apart27 26 22 (by decide) (by decide)).trans (State.fld_setFld_same hcells m (by decide) (by decide))).trans ?_
    exact Nat.mod_eq_of_lt hm
  · refine ((apart22 12 4 (by decide) (by decide) (by decide)).trans (State.fld_setFld_same hend n (by decide) (by decide))).trans ?_
    exact Nat.mod_eq_of_lt (by omega)
  all_goals decide

end Sys2Proof.Machine
end

section
/-! PROOF. A page of a model's copy repaired from the other copy (R310, R403). -/

namespace Sys2Proof.Machine

variable {s t u : State} {m : Nat}

/-- A granule of a page lies in the page. -/
theorem granules_page {q g : Nat} (hg : g ∈ granules (4096 * q) 4096) : 4096 * q ≤ g ∧ g + granSize g ≤ 4096 * q + 4096 := by
  obtain ⟨k, hk, rfl⟩ : ∃ k < (4096 * q + 4096 - 1) / granSize (4096 * q) - 4096 * q / granSize (4096 * q) + 1,
      (4096 * q / granSize (4096 * q) + k) * granSize (4096 * q) = g := by
    simpa [granules] using hg
  by_cases hlow : 4096 * q < 0x800000000
  · have hz : granSize (4096 * q) = 8 := if_pos hlow
    rw [hz] at hk ⊢
    rw [show granSize ((4096 * q / 8 + k) * 8) = 8 from if_pos (by omega)]
    omega
  · have hz : granSize (4096 * q) = 32 := if_neg hlow
    rw [hz] at hk ⊢
    rw [show granSize ((4096 * q / 32 + k) * 32) = 32 from if_neg (by omega)]
    omega

/-- A page stored whole meets no granule that it writes in part. -/
theorem State.memPut_page (s : State) (who : Master) (q : Nat) {l : List Byte} (hl : l.length = 4096) :
    s.memPut who (4096 * q) l false = s.store (4096 * q) l := by
  have hwhole : (granules (4096 * q) 4096).filter
      (fun g => !(decide (4096 * q ≤ g) && decide (g + granSize g ≤ 4096 * q + 4096))) = [] := by
    refine List.filter_eq_nil_iff.mpr fun g hg => ?_
    obtain ⟨hlo, hhi⟩ := granules_page hg
    simp [hlo, hhi]
  simp only [State.memPut, hl, hwhole, List.filter_nil, List.foldl_nil, Bool.false_eq_true, if_false]

/-- A page stored whole is clean. -/
theorem State.poisoned_store_page (s : State) (q : Nat) {l : List Byte} (hl : l.length = 4096) :
    (s.store (4096 * q) l).poisoned (4096 * q) 4096 = false := by
  refine List.any_eq_false.mpr fun g hg => ?_
  obtain ⟨hlo, hhi⟩ := granules_page hg
  simp [State.store, hl, hlo, hhi]

theorem State.bytes_length (s : State) (a n : Nat) : (s.bytes a n).length = n := by simp [State.bytes, stGetRun]

/-- A repair is counted, for all models and for the model. -/
def State.repairCounted (s : State) (m : Nat) : State := ((s.bump (rMhs 0x20)).bump (rModel m 0x24)).orWord (rMhs 0) 8

theorem State.repairCounted_effect (hwf : regsWf s.regs = true) :
    (s.repairCounted m).word (rModel m 0x24) = (s.word (rModel m 0x24) + 1) % 2 ^ 32 ∧ (s.repairCounted m).bit (rMhs 0) 3 = true ∧
    RegsOnly [rMhs 0x20, rModel m 0x24, rMhs 0] s (s.repairCounted m) := by
  have hall := State.bump_regsWf hwf (rMhs 0x20)
  have hone := State.bump_regsWf hall (rModel m 0x24)
  have hne : rModel m 0x24 ≠ rMhs 0 ∧ rModel m 0x24 ≠ rMhs 0x20 := by
    unfold rModel rMhs
    omega
  refine ⟨?_, ?_, (((RegsOnly.refl hwf).bump (by simp)).bump (by simp)).orWord 8 (by simp)⟩
  · rw [State.repairCounted, State.word_orWord_other hone _ hne.1, State.word_bump_same hall, State.word_bump_other hwf hne.2]
  · rw [State.repairCounted, State.bit_orWord_same hone _ _ (by decide), show bitOf 8 3 = true from rfl, Bool.or_true]

/-- The bytes of the golden page that stands for a page of the working copy. -/
def State.goldenPage (s : State) (m q : Nat) : List Byte := s.bytes (s.modelGold m + (4096 * q - s.modelWork m)) 4096

theorem exec_modelRepair_clean {a : BitVec 64} (h : s.poisoned (4096 * (a.toNat / 4096)) 4096 = false) :
    exec (.modelRepair a) s = .next s := by
  change execModelRepair a s = _
  simp [execModelRepair, h]

theorem exec_modelRepair_working {a : BitVec 64} (h : s.poisoned (4096 * (a.toNat / 4096)) 4096 = true)
    (hm : ((List.range 32).find? fun m => decide (s.modelState m = 2) && decide (s.modelWork m ≤ a.toNat) &&
      decide (a.toNat < s.modelWork m + s.modelBytes m)) = some m)
    (hgold : s.poisoned (s.modelGold m + (4096 * (a.toNat / 4096) - s.modelWork m)) 4096 = false) :
    exec (.modelRepair a) s =
      .next ((s.store (4096 * (a.toNat / 4096)) (s.goldenPage m (a.toNat / 4096))).repairCounted m) := by
  change execModelRepair a s = _
  have hput := s.memPut_page (mFwp 5) (a.toNat / 4096) (l := s.goldenPage m (a.toNat / 4096)) (s.bytes_length _ _)
  unfold State.goldenPage at hput
  simp only [execModelRepair, h, hm, State.repairPage, hgold, hput, Bool.not_true, Bool.false_eq_true, if_false]
  rfl

end Sys2Proof.Machine
end

section
/-! PROOF. The installation of a model: its image is copied, its kernel descriptors relocated, its windows opened (R303, R306, R611). -/

namespace Sys2Proof.Machine

variable {s t u : State} {m : Nat}

/-! Bytes stored in one range of a memory without poison. -/

/-- Only memory differs, and of it only the n bytes from a on. -/
def StoredIn (a n : Nat) (s t : State) : Prop := MemOnly s t ∧ MemoryBut a n s t

theorem MemOnly.memPut (h : MemOnly s t) (who : Master) (a : Nat) (l : List Byte) : MemOnly s (t.memPut who a l false) := by
  rw [State.memPut_of_nil h.clean]
  obtain ⟨r, rfl⟩ := h.rest
  have hp : s.poison = [] := h.clean
  have e : ({ s with mem := r } : State).store a l = { s with mem := stPutRun memDefault r a l } := by simp [State.store, hp]
  exact ⟨State.store_memWf h.wf _ _, State.store_poison_of_nil h.clean _ _, _, e⟩

theorem StoredIn.memPut {a n b : Nat} {l : List Byte} (h : StoredIn a n s t) (who : Master) (hlo : a ≤ b) (hhi : b + l.length ≤ a + n) :
    StoredIn a n s (t.memPut who b l false) := by
  obtain ⟨honly, hbut⟩ := h
  refine ⟨honly.memPut who b l, fun c hc => ?_⟩
  rw [State.memPut_of_nil honly.clean, State.byte_store_outside honly.wf (by omega)]
  exact hbut c hc

/-- A kernel descriptor with its two addresses in the working copy (R303). -/
def relocated (work : Nat) (d : List Byte) : List Byte :=
  leBytes 8 (leAt d 0 8 + work) ++ sliceBytes d 8 16 ++ leBytes 8 (leAt d 0x18 8 + work) ++ sliceBytes d 0x20 32

theorem relocated_length (work : Nat) (d : List Byte) : (relocated work d).length = 64 := by
  simp [relocated, leBytes_length, sliceBytes_length]

/-- The descriptor of kernel i of a model, relocated. -/
def State.relocateOne (m dst : Nat) (s : State) (i : Nat) : State :=
  s.memPut (mFwp 5) (dst + i * 64) (relocated (s.modelWork m) (s.bytes (s.modelWork m + s.hdr m 0x30 4 + i * 64) 64)) false

theorem State.relocate_eq (s : State) (m dst : Nat) :
    s.relocate m dst = (List.range (s.hdr m 0x22 2)).foldl (State.relocateOne m dst) s := rfl

/-- The relocated descriptors stand in 64 bytes each. -/
theorem State.relocate_stored (hmem : Memory.wf s.mem = true) (hp : s.poison = []) (dst : Nat) :
    StoredIn dst (s.hdr m 0x22 2 * 64) s (s.relocate m dst) := by
  rw [State.relocate_eq]
  refine List.foldlRecOn (motive := StoredIn dst (s.hdr m 0x22 2 * 64) s) _ _ ⟨.refl hmem hp, fun _ _ => rfl⟩ fun u hu i hi => ?_
  have hi : i < s.hdr m 0x22 2 := List.mem_range.mp hi
  exact hu.memPut _ (by omega) (by rw [relocated_length]; omega)

/-! Windows. -/

/-- The words of the decryption windows. -/
def secWords : List Nat := (List.range 64).flatMap fun w => (List.range 8).map fun i => rSecWin w (4 * i)

theorem rSecWin_mem_secWords {w o : Nat} (hw : w < 64) (i : Nat) (hi : i < 8) (ho : rSecWin w (4 * i) = o) : o ∈ secWords := by
  subst ho
  simp only [secWords, List.mem_flatMap, List.mem_range, List.mem_map]
  exact ⟨w, hw, i, hi, rfl⟩

theorem rMhs_not_mem_secWords {o : Nat} (ho : o < 0x100000) : rMhs o ∉ secWords := by
  simp only [secWords, List.mem_flatMap, List.mem_range, List.mem_map, not_exists, not_and, rSecWin, rMhs, blkBase, bSEC, bMHS]
  omega

/-- The lowest window that is free is opened for a segment. -/
def State.openWindow (m slot : Nat) (iv : List Byte) (s : State) (p : Nat × Seg) : State :=
  match (List.range 64).find? fun w => !s.bit (rSecWin w 0xC) 31 with
  | none => s
  | some w =>
    let s := (s.setWord64 (rSecWin w 0) (s.modelWork m + p.2.off)).setWord (rSecWin w 8) p.2.bytes
    (s.setRegBytes (rSecWin w 0x10) (beBytes 12 (segIv iv p.1))).setWord (rSecWin w 0xC) (slot % 16 + 2 ^ 31)

theorem State.openWindows_eq (s : State) (m : Nat) :
    s.openWindows m = ((List.range (s.mdlSegs m)).zip (s.segs m)).foldl
      (State.openWindow m (s.hdr m 0x26 2) (s.bytes (s.modelWork m + 0x48) 12)) s := rfl

theorem State.openWindows_only (hwf : regsWf s.regs = true) (m : Nat) : RegsOnly secWords s (s.openWindows m) := by
  rw [State.openWindows_eq]
  refine RegsOnly.foldl _ (.refl hwf) fun u p _ hu => ?_
  unfold State.openWindow
  split
  · exact hu
  · next w hfind =>
    have hw : w < 64 := List.mem_range.mp (List.mem_of_find?_eq_some hfind)
    have hin (i : Nat) (hi : i < 8) : rSecWin w (4 * i) ∈ secWords := rSecWin_mem_secWords hw i hi rfl
    have hplace := (hu.setWord64 (u.modelWork m + p.2.off) (hin 0 (by decide)) (hin 1 (by decide))).setWord p.2.bytes (hin 2 (by decide))
    refine (RegsOnly.setWords _ hplace fun i hi => ?_).setWord _ (hin 3 (by decide))
    have hi : i < 3 := by simpa [wordsOf_length, beBytes, leBytes_length] using hi
    exact rSecWin_mem_secWords hw (4 + i) (by omega) (by unfold rSecWin; omega)

/-! What is installed. -/

/-- The image of a model and its kernel descriptors get their places, and the image is copied. -/
def State.copied (s : State) (m work kern : Nat) (img : List Byte) : State :=
  let u := (s.store work img).setWord64 (rModel m 0x10) work
  { u with mhs.kbase := fmPut u.mhs.kbase m kern }

/-- The image of a model is copied, and the model's entry has its tag. -/
def State.placed (s : State) (m work kern : Nat) (img : List Byte) : State :=
  ((s.copied m work kern img).setWord (rModel m 4) (leAt img 0x10 4)).setWord (rModel m 0x30) (leAt img 0x14 4)

/-- A model that is in place becomes READY. -/
def State.installed (s : State) (m : Nat) (enc : Bool) : State :=
  let u := s.setModelState m 2
  let u := if enc then u.openWindows m else u
  ((u.useModel m).orWord (rMhs 0) 1).slcRealloc

theorem State.installDone_other (h : s.modelState m ≠ 1) (work kern : Nat) : s.installDone m work kern = s := by
  simp [State.installDone, h]

theorem State.installDone_invalid (h : s.modelState m = 1) (work kern : Nat)
    (hbad : s.poisoned (s.modelGold m) (s.modelBytes m) = true ∨
      imageOk (s.bytes (s.modelGold m) (s.modelBytes m)) (fmGet s.sec.slots) = false) :
    s.installDone m work kern = (s.setModelState m 0).orWord (rMhs 0) 2 := by
  have hif : (s.poisoned (s.modelGold m) (s.modelBytes m) ||
      !imageOk (s.bytes (s.modelGold m) (s.modelBytes m)) (fmGet s.sec.slots)) = true := by
    obtain hbad | hbad := hbad <;> simp [hbad]
  unfold State.installDone
  dsimp only
  rw [if_neg (by simpa using h), if_pos hif]

theorem State.installDone_valid {work kern : Nat} (h : s.modelState m = 1) (hp : s.poison = [])
    (hok : imageOk (s.bytes (s.modelGold m) (s.modelBytes m)) (fmGet s.sec.slots) = true) (hwork : work % 4096 = 0) (hkern : kern % 64 = 0)
    (hroom : s.mhsRoom m work (s.modelBytes m) = true)
    (hkroom : s.mhsRoom m kern (leAt (s.bytes (s.modelGold m) (s.modelBytes m)) 0x22 2 * 64) = true)
    (hapart : apart work (s.modelBytes m) kern (leAt (s.bytes (s.modelGold m) (s.modelBytes m)) 0x22 2 * 64) = true) :
    s.installDone m work kern =
      ((s.placed m work kern (s.bytes (s.modelGold m) (s.modelBytes m))).relocate m kern).installed m
        (bitOf (leAt (s.bytes (s.modelGold m) (s.modelBytes m)) 6 2) 0) := by
  unfold State.installDone
  dsimp only
  rw [if_neg (by simpa using h), if_neg (by simp [State.poisoned_of_nil hp, hok]),
    if_neg (by simp [hwork, hkern, hroom, hkroom, hapart]), State.memPut_of_nil hp]
  rfl

theorem State.installBound_none {work kern : Nat} (h : fmGet s.fwp.binds m = none) (hkeep : (s.installDone m work kern).fwp = s.fwp) :
    s.installBound m work kern = s.installDone m work kern := by
  simp [State.installBound, hkeep, h]

end Sys2Proof.Machine
end

section
/-! PROOF. What an installation leaves (R306). -/

namespace Sys2Proof.Machine

variable {s t u : State} {m : Nat}

/-- An image whose header is good holds its header. -/
theorem imageOk_length {l : List Byte} {keys : Nat → Option Nat} (h : imageOk l keys = true) : 256 ≤ l.length := by
  simp only [imageOk, headerOk, insideOf, Bool.and_eq_true, decide_eq_true_eq] at h
  omega

/-- A field of the header of a working copy is that of its image. -/
theorem State.hdr_of_bytes {img : List Byte} {o n : Nat} (h : s.bytes (s.modelWork m) img.length = img) (ho : o + n ≤ img.length) :
    s.hdr m o n = leAt img o n := by
  have hlen : ((img.drop o).take n).length = n := by simp; omega
  rw [State.hdr, State.mnat, s.bytes_within _ ho, h, leAt, sliceBytes, hlen, Nat.sub_self]
  simp [zeroBytes]

/-- A copied image is as it was, and stands where the model's entry says. -/
theorem State.copied_effect (hmem : Memory.wf s.mem = true) (hwf : regsWf s.regs = true) (hp : s.poison = []) {work : Nat}
    (hwork : work < 2 ^ 64) (kern : Nat) (img : List Byte) :
    (s.copied m work kern img).modelWork m = work ∧ (s.copied m work kern img).bytes work img.length = img ∧
    Memory.wf (s.copied m work kern img).mem = true ∧ (s.copied m work kern img).poison = [] ∧
    regsWf (s.copied m work kern img).regs = true :=
  ⟨(State.word64_setWord64_same (s := s.store work img) hwf _ _).trans (Nat.mod_eq_of_lt hwork), State.bytes_store hmem work img,
    State.store_memWf hmem work img, State.store_poison_of_nil hp work img,
    State.setWord64_regsWf (s := s.store work img) hwf (rModel m 0x10) work⟩

/-- The model's entry tells where its copies stand, and has the image's tag. -/
theorem State.placed_effect (hmem : Memory.wf s.mem = true) (hwf : regsWf s.regs = true) (hp : s.poison = []) {work : Nat}
    (hwork : work < 2 ^ 64) (kern : Nat) (img : List Byte) :
    let t := s.placed m work kern img
    t.modelWork m = work ∧ t.word (rModel m 4) = leAt img 0x10 4 ∧ fmGet t.mhs.kbase m = some kern ∧ t.bytes work img.length = img ∧
    Memory.wf t.mem = true ∧ regsWf t.regs = true ∧ t.poison = [] := by
  obtain ⟨hplace, hbytes, hcm, hcp, hcr⟩ := State.copied_effect (m := m) hmem hwf hp hwork kern img
  have hkbase : fmGet (s.copied m work kern img).mhs.kbase m = some kern := fmGet_fmPut_same _ _ _
  unfold State.placed
  generalize s.copied m work kern img = q at *
  have htag := State.setWord_regsWf hcr (rModel m 4) (leAt img 0x10 4)
  have honly : RegsOnly [rModel m 4, rModel m 0x30] q
      ((q.setWord (rModel m 4) (leAt img 0x10 4)).setWord (rModel m 0x30) (leAt img 0x14 4)) :=
    ((RegsOnly.refl hcr).setWord _ (by simp)).setWord _ (by simp)
  refine ⟨(honly.word64 (by simp [rModel_inj]) (by simp [rModel_inj, rModel_add_four])).trans hplace, ?_, hkbase, hbytes, hcm,
    honly.wf, hcp⟩
  rw [State.word_setWord_other htag _ (by simp [rModel_inj]), State.word_setWord_same hcr]
  exact Nat.mod_eq_of_lt (leAt_lt img 0x10 4)

/-- The words that a model in place writes as it becomes READY. -/
def installWords (m : Nat) : List Nat := [rModel m 0, rModel m 0x28, rModel m 0x2C, rMhs 0] ++ (secWords ++ slcWords)

theorem rModel_not_mem_installWords {o : Nat} (hm : m < 32) (ho : o ∈ [4, 0x10, 0x14]) : rModel m o ∉ installWords m := by
  have hsec : rModel m o ∉ secWords := rMhs_not_mem_secWords (by simp at ho; omega)
  have hslc : rModel m o ∉ slcWords := rModel_not_mem_slcWords (by simp at ho; omega) (by simp at ho; omega) (by simp at ho; omega)
  have hmhs : rModel m o ≠ rMhs 0 := by unfold rModel rMhs; omega
  simp only [installWords, List.mem_append, List.mem_cons, List.not_mem_nil, or_false, not_or, rModel_inj]
  exact ⟨⟨by simp at ho; omega, by simp at ho; omega, by simp at ho; omega, hmhs⟩, hsec, hslc⟩

/-- A model in place becomes READY, and the interrupt says so. -/
theorem State.installed_effect (hwf : regsWf s.regs = true) (hm : m < 32) (enc : Bool) :
    (s.installed m enc).modelState m = 2 ∧ (s.installed m enc).bit (rMhs 0) 0 = true ∧
    RegsOnly (installWords m) s (s.installed m enc) := by
  have hready : (s.setModelState m 2).modelState m = 2 := State.fld_setFld_same hwf 2 (by decide) (by decide)
  have hone : RegsOnly [rModel m 0] s (s.setModelState m 2) := (RegsOnly.refl hwf).setFld 2 0 2 (by simp)
  unfold State.installed
  generalize s.setModelState m 2 = u at hready hone
  have hwin : RegsOnly secWords u (if enc then u.openWindows m else u) := .ite (u.openWindows_only hone.wf m) (.refl hone.wf)
  dsimp only
  generalize (if enc then u.openWindows m else u) = v at hwin
  have huse : RegsOnly [rModel m 0x28, rModel m 0x2C] v (v.useModel m) :=
    (RegsOnly.refl hwin.wf).setWord64 _ (by simp) (by simp [rModel_add_four])
  generalize v.useModel m = w at huse
  have hirq : RegsOnly [rMhs 0] w (w.orWord (rMhs 0) 1) := (RegsOnly.refl huse.wf).orWord 1 (by simp)
  have hbit : (w.orWord (rMhs 0) 1).bit (rMhs 0) 0 = true := by
    rw [State.bit_orWord_same huse.wf _ _ (by decide), show bitOf 1 0 = true from rfl, Bool.or_true]
  generalize w.orWord (rMhs 0) 1 = x at hirq hbit
  obtain ⟨hslc, hstates⟩ := x.slcRealloc_only hirq.wf
  have hne : rModel m 0 ≠ rMhs 0 := by unfold rModel rMhs; omega
  refine ⟨?_, (hslc.bit 0 (rMhs_not_mem_slcWords (by decide) (by decide))).trans hbit, ?_⟩
  · calc x.slcRealloc.modelState m = x.modelState m := hstates m
      _ = w.modelState m := hirq.fld 2 0 (by simpa using hne)
      _ = v.modelState m := huse.fld 2 0 (by simp [rModel_inj])
      _ = u.modelState m := hwin.fld 2 0 (rMhs_not_mem_secWords (by omega))
      _ = 2 := hready
  · have hv := hwin.after (hone.after (.refl hwf) (l' := installWords m) (by simp [installWords])) (by simp +contextual [installWords])
    have hw := huse.after hv (by simp [installWords])
    exact hslc.after (hirq.after hw (by simp [installWords])) (by simp +contextual [installWords])

/-- An installation of a valid image: the model is READY, with its copies in their places. -/
theorem State.installDone_effect (hmem : Memory.wf s.mem = true) (hwf : regsWf s.regs = true) (hp : s.poison = []) (hm : m < 32)
    {work kern : Nat} {img : List Byte} (hwork : work < 2 ^ 64) (hlen : 256 ≤ img.length)
    (hapart : apart work img.length kern (leAt img 0x22 2 * 64) = true) (enc : Bool) :
    let t := ((s.placed m work kern img).relocate m kern).installed m enc
    t.modelState m = 2 ∧ t.modelWork m = work ∧ t.word (rModel m 4) = leAt img 0x10 4 ∧ t.bytes work img.length = img ∧
    fmGet t.mhs.kbase m = some kern ∧ t.bit (rMhs 0) 0 = true ∧ t.fwp = s.fwp := by
  obtain ⟨hwk, htag, hkbase, hbytes, hpm, hpr, hpp⟩ := State.placed_effect (m := m) hmem hwf hp hwork kern img
  have hpf : (s.placed m work kern img).fwp = s.fwp := rfl
  generalize s.placed m work kern img = p at *
  have hcount : p.hdr m 0x22 2 = leAt img 0x22 2 := State.hdr_of_bytes (by rw [hwk, hbytes]) (by omega)
  obtain ⟨honly, hbut⟩ := State.relocate_stored (m := m) hpm hpp kern
  rw [hcount] at hbut
  generalize p.relocate m kern = r at *
  obtain ⟨q, hrest⟩ := honly.rest
  have hrw (a : Nat) : r.word a = p.word a := State.word_congr honly.regs a
  have hkept : r.bytes work img.length = img := by
    refine (State.bytes_of_byte fun i hi => hbut _ ?_).trans hbytes
    simp only [apart, Bool.or_eq_true, decide_eq_true_eq] at hapart
    omega
  obtain ⟨hstate, hbit, hregs⟩ := State.installed_effect (s := r) (honly.regs ▸ hpr) hm enc
  generalize r.installed m enc = v at *
  have hmhs : v.mhs = p.mhs := by
    obtain ⟨q', hq'⟩ := hregs.rest
    rw [hq', hrest]
  have hfwp : r.fwp = s.fwp := by rw [hrest, ← hpf]
  have hentry {o : Nat} (ho : o ∈ [4, 0x10, 0x14]) : v.word (rModel m o) = p.word (rModel m o) :=
    (hregs.word _ (rModel_not_mem_installWords hm ho)).trans (hrw _)
  refine ⟨hstate, ?_, (hentry (by simp)).trans htag, (State.bytes_congr hregs.mem _ _).trans hkept, by rw [hmhs, hkbase], hbit,
    hregs.fwp.trans hfwp⟩
  rw [← hwk, State.modelWork, State.modelWork, State.word64, State.word64, rModel_add_four, hentry (by simp), hentry (by simp)]

end Sys2Proof.Machine
end

section
/-! PROOF. Clickings are configured and switched, and models repaired and installed (O29). -/

namespace Sys2Proof.Machine

variable {s : State} {m : Master} {k : Fin 64}

theorem exec_clickCfgWrite_other (v : BitVec 32) (h : s.sysWriter m = false) :
    exec (.clickCfgWrite m k v) s = .next (s.refuse m 2 (rClick k 0)) := by
  change execClickCfgWrite m k v s = _
  simp [execClickCfgWrite, h]

theorem exec_clickCfgWrite_system (v : BitVec 32) (h : s.sysWriter m = true) :
    exec (.clickCfgWrite m k v) s = .next ((s.clickCfg k v.toNat).respOk []) := by
  change execClickCfgWrite m k v s = _
  simp [execClickCfgWrite, h]

theorem exec_clickSwitch_other (v : BitVec 32) (h : s.sysWriter m = false) :
    exec (.clickSwitch m k v) s = .next (s.refuse m 2 (rClick k 8)) := by
  change execClickSwitch m k v s = _
  simp [execClickSwitch, h]

theorem exec_clickSwitch_system (v : BitVec 32) (h : s.sysWriter m = true) :
    exec (.clickSwitch m k v) s = .next ((s.switchReq k (v.toNat % 32) (bitOf v.toNat 5) (bitOf v.toNat 6) (bitOf v.toNat 7)
      (bitsOf v.toNat 15 8)).respOk []) := by
  change execClickSwitch m k v s = _
  simp [execClickSwitch, h]

theorem exec_unbind_other (b : Bool) (h : s.sysWriter m = false) : exec (.unbind m k b) s = .next (s.refuse m 2 (rClick k 8)) := by
  change execUnbind m k b s = _
  simp [execUnbind, h]

theorem exec_unbind_system (b : Bool) (h : s.sysWriter m = true) :
    exec (.unbind m k b) s = .next ((s.switchReq k 0 b false true 0).respOk []) := by
  change execUnbind m k b s = _
  simp [execUnbind, h]

theorem exec_switchDrainDone : exec (.switchDrainDone k) s = .next (s.drainDone k) := rfl

theorem exec_switchDone : exec (.switchDone k) s = .next (s.switchDone k) := rfl

theorem exec_modelInstallationDone (n : Fin 32) (w q : BitVec 52) :
    exec (.modelInstallationDone n w q) s = .next (s.installBound n w.toNat q.toNat) := rfl

/-- A configuration write of a latency-critical clicking, or one to class 1 or 3. -/
theorem State.clickCfg_kept {v : Nat} (h : s.clickClass k = 1 ∨ v % 4 = 1 ∨ v % 4 = 3) : s.clickCfg k v = s := by
  have hif : (s.clickClass k = 1 || v % 4 = 1 || v % 4 = 3) = true := by simpa [or_assoc] using h
  exact if_pos hif

/-- A switch that is refused sets LAST_SW and the interrupt. -/
theorem State.switchRefused_effect (hwf : regsWf s.regs = true) (k : Nat) {e : Nat} (he : e < 16) :
    let t := (s.setLastSw k e).orWord rClcIrq 4
    t.fld (rClick k 4) 31 28 = e ∧ t.bit rClcIrq 2 = true ∧ t.clickState k = s.clickState k ∧ RegsOnly [rClick k 4, rClcIrq] s t := by
  have hset : regsWf (s.setLastSw k e).regs = true := State.setFld_regsWf hwf ..
  have hirq (hi lo : Nat) : ((s.setLastSw k e).orWord rClcIrq 4).fld (rClick k 4) hi lo = (s.setLastSw k e).fld (rClick k 4) hi lo :=
    State.fld_congr (State.word_orWord_other hset _ rClick_ne_rClcIrq) _ _
  refine ⟨(hirq 31 28).trans ?_, ?_, (hirq 3 0).trans (State.fld_setFld_apart hwf e (by decide) (by decide) (by decide)),
    ((RegsOnly.refl hwf).setFld 31 28 e (by simp)).orWord 4 (by simp)⟩
  · exact (State.fld_setFld_same hwf e (by decide) (by decide)).trans (Nat.mod_eq_of_lt he)
  · rw [State.bit_orWord_same hset _ _ (by decide), show bitOf 4 2 = true from rfl, Bool.or_true]

/-- A model whose image is not good is EMPTY, with the interrupt. -/
theorem State.imageRefused_effect (hwf : regsWf s.regs = true) (m : Nat) :
    let t := (s.setModelState m 0).orWord (rMhs 0) 2
    t.modelState m = 0 ∧ t.bit (rMhs 0) 1 = true ∧ RegsOnly [rModel m 0, rMhs 0] s t := by
  have hset : regsWf (s.setModelState m 0).regs = true := State.setFld_regsWf hwf ..
  have hne : rModel m 0 ≠ rMhs 0 := by unfold rModel rMhs; omega
  refine ⟨?_, ?_, ((RegsOnly.refl hwf).setFld 2 0 0 (by simp)).orWord 2 (by simp)⟩
  · exact (State.fld_congr (State.word_orWord_other hset _ hne) 2 0).trans (State.fld_setFld_same hwf 0 (by decide) (by decide))
  · rw [State.bit_orWord_same hset _ _ (by decide), show bitOf 2 1 = true from rfl, Bool.or_true]

/-- A page is repaired: it has the golden bytes and no poison, and the repair is counted. -/
theorem State.repaired_effect (hmem : Memory.wf s.mem = true) (hwf : regsWf s.regs = true) (m q : Nat) :
    let t := (s.store (4096 * q) (s.goldenPage m q)).repairCounted m
    t.bytes (4096 * q) 4096 = s.goldenPage m q ∧ MemoryBut (4096 * q) 4096 s t ∧ t.poisoned (4096 * q) 4096 = false ∧
    t.word (rModel m 0x24) = (s.word (rModel m 0x24) + 1) % 2 ^ 32 ∧ t.bit (rMhs 0) 3 = true ∧
    RegsBut [rMhs 0x20, rModel m 0x24, rMhs 0] s t := by
  have hlen : (s.goldenPage m q).length = 4096 := s.bytes_length _ _
  have hsame := State.bytes_store hmem (4096 * q) (s.goldenPage m q)
  have hother (b : Nat) (hb : b < 4096 * q ∨ 4096 * q + 4096 ≤ b) : (s.store (4096 * q) (s.goldenPage m q)).byte b = s.byte b :=
    State.byte_store_outside hmem (by rwa [hlen])
  obtain ⟨hcount, hirq, honly⟩ := State.repairCounted_effect (m := m) (s := s.store (4096 * q) (s.goldenPage m q)) hwf
  rw [hlen] at hsame
  refine ⟨(State.bytes_congr honly.mem _ _).trans hsame, fun b hb => (State.byte_congr honly.mem b).trans (hother b hb),
    s.poisoned_store_page q hlen, hcount, hirq, honly.word⟩

/-- The drain of a clicking that holds no cell: its model is unbound, and its state stays. -/
theorem State.drained_effect (hwf : regsWf s.regs = true) {k : Nat} (hk : k < 64) (hnow : s.clickNow k = 0) (x : ClcSwitch) :
    let t := ((s.unbindClick k).slcRealloc.drainMarked k x).loadCells k x.model
    fmGet t.clc.switching k = some { x with drained := true } ∧ t.clickBound k = false ∧ t.clickState k = s.clickState k ∧
    t.mem = s.mem := by
  obtain ⟨hbound, hstate⟩ := State.unbindClick_state hk hwf
  have honly := State.unbindClick_only (k := k) hwf
  generalize s.unbindClick k = u at *
  obtain ⟨hslc, -⟩ := u.slcRealloc_only honly.wf
  generalize u.slcRealloc = v at *
  have hstay : v.word (rClick k 4) = u.word (rClick k 4) := hslc.word _ (rClick_not_mem_slcWords hk (by decide))
  have hcells : (v.drainMarked k x).clickNow k = 0 := by
    refine (State.clickNow_congr fun i hi => ?_).trans hnow
    have hne : rClick k (0x40 + 4 * i) ≠ rClick k 4 := mt (rClick_inj (by omega) (by decide)).mp fun he => by omega
    exact (hslc.word _ (rClick_not_mem_slcWords hk (by omega))).trans
      (honly.word _ (by simpa using ⟨rClc_ne_rModel (by omega), hne⟩))
  have hmem : v.mem = s.mem := hslc.mem.trans honly.mem
  rw [State.loadCells_none hcells]
  exact ⟨fmGet_fmPut_same _ _ _, (State.bit_congr hstay 27).trans hbound, (State.fld_congr hstay 3 0).trans hstate, hmem⟩

/-- A switch that loads nothing ends: the clicking is READY with the model bound. -/
theorem State.switched_effect (hwf : regsWf s.regs = true) {k m : Nat} (hk : k < 64) (hn : s.switchCells k ≤ 256) (hm : m < 32) :
    let t := ((s.switchBound k m).useModel m).slcRealloc
    t.clickState k = 2 ∧ t.clickBound k = true ∧ t.clickModel k = m ∧ t.clickN k = s.switchCells k ∧
    t.fld (rClick k 4) 31 28 = 1 ∧ t.clc.switching = fmDel s.clc.switching k ∧ t.mem = s.mem := by
  obtain ⟨hstate, hbound, hmodel, hcells, hlast, hb⟩ := State.switchBound_fields hwf hk hn hm
  have hclc : (s.switchBound k m).clc.switching = fmDel s.clc.switching k := rfl
  have hmem : (s.switchBound k m).mem = s.mem := rfl
  generalize s.switchBound k m = u at *
  have huse : RegsOnly [rModel m 0x28, rModel m 0x2C] u (u.useModel m) :=
    (RegsOnly.refl hb).setWord64 _ (by simp) (by simp [rModel_add_four])
  generalize u.useModel m = v at *
  obtain ⟨hslc, -⟩ := v.slcRealloc_only huse.wf
  generalize v.slcRealloc = w at *
  have hstay : w.word (rClick k 4) = u.word (rClick k 4) :=
    (hslc.word _ (rClick_not_mem_slcWords hk (by decide))).trans
      (huse.word _ (by simpa using ⟨rClc_ne_rModel (by omega), rClc_ne_rModel (by omega)⟩))
  exact ⟨(State.fld_congr hstay 3 0).trans hstate, (State.bit_congr hstay 27).trans hbound, (State.fld_congr hstay 26 22).trans hmodel,
    (State.fld_congr hstay 12 4).trans hcells, (State.fld_congr hstay 31 28).trans hlast,
    (congrArg ClcS.switching (hslc.clc.trans huse.clc)).trans hclc, (hslc.mem.trans huse.mem).trans hmem⟩

end Sys2Proof.Machine

open Sys2Proof Sys2Proof.Machine

/-- Settles O29: a request is taken apart by the checks it meets, and what is accepted writes the registers of its clicking or its model
beside the shares of the SLC, which a revised allocation alone writes. -/
theorem clickingsSwitchAndModelsInstall : Obligations.ClickingsSwitchAndModelsInstall := by
  unfold Obligations.ClickingsSwitchAndModelsInstall
  refine ⟨fun s m k v b hs => ⟨exec_clickCfgWrite_other v hs, exec_clickSwitch_other v hs, exec_unbind_other b hs⟩,
    fun s m k v hs h => ?kept, fun s m k v hs hclass hv hnow => ?cfg, fun s m k v hcan hs hcode => ?refused,
    fun s m k v hcan hs hcheck hunbind habort halone hpend => ?starts, fun s m k hs hcheck halone hpend hburst hjobs => ?unbind,
    fun s k hx => ?idle, fun s k x hx halone hwait => ?waits, fun s k x hcan hx halone hjobs hdrained hunbind hburst hnow => ?drains,
    fun s k x hx hdrained => ?undrained, fun s k x hcan hx halone hdrained hres hmin hm hn => ?resident,
    fun s a h => exec_modelRepair_clean h, fun s a m hcan hbad hm hgold => ?repair, fun s m w k hbind hm => ?notInstalling,
    fun s m w k hcan hbind hm hbad => ?invalid, fun s m w k hcan hbind hm hp => ?valid⟩
  case kept => rw [exec_clickCfgWrite_system v hs, State.clickCfg_kept h]
  case cfg =>
    rw [exec_clickCfgWrite_system v hs, State.clickCfg_bestEffort k.isLt hclass hv hnow]
    rfl
  case refused =>
    obtain ⟨-, hwf⟩ := State.canonical_iff.mp hcan
    obtain ⟨hlast, hirq, hstate, honly⟩ := State.switchRefused_effect hwf k (s.switchCheck_lt k (v.toNat % 32) (bitOf v.toNat 7))
    refine .of_exec (t := ((s.setLastSw k (s.switchCheck k (v.toNat % 32) (bitOf v.toNat 7))).orWord rClcIrq 4).respOk []) ?_
      ⟨hlast, hirq, hstate, honly.clc, rfl, honly.mem, honly.word⟩
    rw [exec_clickSwitch_system v hs, State.switchReq_refused hcode]
  case starts =>
    obtain ⟨-, hwf⟩ := State.canonical_iff.mp hcan
    have honly : RegsOnly [rClick k 4] s (s.setClickState k 3) := (RegsOnly.refl hwf).setFld 3 0 3 (by simp)
    refine .of_exec (t := (s.switching k ⟨v.toNat % 32, false, bitOf v.toNat 6, false, bitsOf v.toNat 15 8, false⟩).respOk []) ?_
      ⟨State.fld_setFld_same hwf 3 (by decide) (by decide), fmGet_fmPut_same _ _ _, rfl, rfl, honly.word⟩
    rw [exec_clickSwitch_system v hs, hunbind, State.switchReq_accepted hcheck, if_neg (by simp),
      State.switchStart_alone halone hpend habort, habort]
  case unbind =>
    have hx : fmGet (s.switching k ⟨0, false, false, true, 0, false⟩).clc.switching k = some ⟨0, false, false, true, 0, false⟩ :=
      fmGet_fmPut_same _ _ _
    have hempty : ((s.switching k ⟨0, false, false, true, 0, false⟩).jobsOn k).isEmpty = true := by
      change (List.filter _ s.clc.jobs).isEmpty = true
      rw [hjobs]
      rfl
    rw [exec_unbind_system false hs, State.switchReq_accepted hcheck, if_pos rfl, State.switchStart_alone halone hpend rfl,
      State.drainDone_alone hx ((State.twlClick_switching k.isLt).trans halone) hempty rfl hburst, if_pos rfl]
    rfl
  case idle =>
    obtain ⟨hdrain, hdone⟩ := State.drainDone_none hx
    exact ⟨exec_switchDrainDone.trans (by rw [hdrain]), exec_switchDone.trans (by rw [hdone])⟩
  case waits => rw [exec_switchDrainDone, State.drainDone_waits hx halone hwait]
  case drains =>
    obtain ⟨-, hwf⟩ := State.canonical_iff.mp hcan
    refine .of_exec (exec_switchDrainDone.trans ?_) (State.drained_effect hwf k.isLt hnow x)
    rw [State.drainDone_alone hx halone hjobs hdrained hburst, if_neg (by simp [hunbind])]
  case undrained => rw [exec_switchDone, State.switchDone_waits hx hdrained]
  case resident =>
    obtain ⟨-, hwf⟩ := State.canonical_iff.mp hcan
    obtain ⟨hstate, hbound, hmodel, hcells, hlast, hclc, hmem⟩ := State.switched_effect hwf k.isLt hn hm
    have hget : fmGet s.clc.switching k = some x := by simp [hx, fmGet]
    have hdel : fmDel s.clc.switching k = [] := by simp [hx, fmDel]
    exact .of_exec (exec_switchDone.trans (by rw [State.switchDone_resident hget halone hdrained hres hmin]))
      ⟨hstate, hbound, hmodel, hcells, hlast, hclc.trans hdel, hmem⟩
  case repair =>
    obtain ⟨hmem, hwf⟩ := State.canonical_iff.mp hcan
    exact .of_exec (exec_modelRepair_working hbad hm hgold) (State.repaired_effect hmem hwf m (a.toNat / 4096))
  case notInstalling =>
    have hkeep := State.installDone_other hm w.toNat k.toNat
    rw [exec_modelInstallationDone, State.installBound_none hbind (by rw [hkeep]), hkeep]
  case invalid =>
    obtain ⟨-, hwf⟩ := State.canonical_iff.mp hcan
    have hdone := State.installDone_invalid hm w.toNat k.toNat hbad
    obtain ⟨hstate, hirq, honly⟩ := State.imageRefused_effect hwf m
    refine .of_exec (t := (s.setModelState m 0).orWord (rMhs 0) 2) ?_ ⟨hstate, hirq, honly.mem, honly.word⟩
    rw [exec_modelInstallationDone, State.installBound_none hbind (by rw [hdone]; exact honly.fwp), hdone]
  case valid =>
    intro img hok hw hk hroom hkroom hapart
    obtain ⟨hmem, hwf⟩ := State.canonical_iff.mp hcan
    have hdone := State.installDone_valid hm hp hok hw hk hroom hkroom hapart
    have hlen : img.length = s.modelBytes m := s.bytes_length _ _
    rw [← hlen] at hapart
    obtain ⟨hstate, hwork, htag, hbytes, hkbase, hirq, hfwp⟩ := State.installDone_effect hmem hwf hp m.isLt
      (show w.toNat < 2 ^ 64 by omega) (imageOk_length hok) hapart (bitOf (leAt img 6 2) 0)
    rw [hlen] at hbytes
    refine .of_exec (exec_modelInstallationDone m w k |>.trans ?_) ⟨hstate, hwork, htag, hbytes, hkbase, hirq⟩
    rw [State.installBound_none hbind (by rw [hdone]; exact hfwp), hdone]

end

section
/-! PROOF. O31 is refuted: the choice of the plan is stated for register files of any form, and not only for canonical ones. -/

namespace Sys2Proof.Machine

/-- A run that is expanded. -/
def expandedRun : PlanRun := ⟨7, false, 0, 1, ⟨0, 0, 0, 0, 0⟩, true⟩

/-- The run goes on, and no primitive is valid. The register file is not canonical: WPE_CTRL is 1 but listed behind WPE_STATUS, whose
address is higher, so that it reads as at reset until WPE_STATUS leaves the list. -/
def ctrlBehindStatus : State :=
  { State.reset with regs := [(rWpeStatus, 0xF03D), (rWpe 0, 1)], wpe.run := some expandedRun }

/-- No candidate passes, as the primitive table is at reset (R340, R343). -/
theorem ctrlBehindStatus_noPlan :
    let s := ctrlBehindStatus
    let g : Grid := ⟨s.gridW, s.gridH, s.gridL⟩
    let h := s.epochHdr expandedRun.buf
    let shift := s.layerShift expandedRun.tRef h.tLayer0
    let q := startState h expandedRun.vs
    s.choosePlan g s.prims expandedRun h q shift (s.rankCandidates g s.prims expandedRun q shift) = (none, 0) := by
  decide +kernel

/-- The end of the run (R337) brings WPE_STATUS back to its reset value, for which the store keeps no entry. -/
theorem ctrlBehindStatus_ctrl :
    ctrlBehindStatus.word (rWpe 0) = 0 ∧ ((ctrlBehindStatus.treeErrs 0).endRun expandedRun 6).word (rWpe 0) = 1 := by
  decide +kernel

/-- A run without a candidate that passes ends with NO_PLAN (R346). -/
theorem exec_planChosen_ctrlBehindStatus :
    exec .planChosen ctrlBehindStatus = .next ((ctrlBehindStatus.treeErrs 0).endRun expandedRun 6) := by
  have hrun : ctrlBehindStatus.wpe.run = some expandedRun := rfl
  have hexp : expandedRun.expanded = true := rfl
  have hnone := ctrlBehindStatus_noPlan
  dsimp only at hnone
  change execPlanChosen ctrlBehindStatus = _
  simp only [execPlanChosen, hrun, hexp, hnone]
  rfl

end Sys2Proof.Machine

open Sys2Proof Sys2Proof.Machine

/-- Refutes O31: the end of a run with NO_PLAN is stated for any register file. Where the file is not canonical, WPE_STATUS that comes back
to its reset value leaves it and shows an entry of WPE_CTRL that stood behind it, so that WPE_CTRL does not read as before. -/
theorem not_plansHeelsAndFramesOfTheCycle : ¬ Obligations.PlansHeelsAndFramesOfTheCycle := by
  unfold Obligations.PlansHeelsAndFramesOfTheCycle
  rintro ⟨-, -, -, -, h, -⟩
  obtain ⟨hbefore, hafter⟩ := ctrlBehindStatus_ctrl
  obtain ⟨hnone, -⟩ := h ctrlBehindStatus expandedRun rfl rfl
  obtain ⟨t, ht, -, -, hregs⟩ := hnone (congrArg Prod.fst ctrlBehindStatus_noPlan)
  have e : t = (ctrlBehindStatus.treeErrs 0).endRun expandedRun 6 :=
    Host.Outcome.next.inj (ht.symm.trans exec_planChosen_ctrlBehindStatus)
  have hctrl : t.word (rWpe 0) = ctrlBehindStatus.word (rWpe 0) := hregs _ (by decide)
  rw [e, hbefore, hafter] at hctrl
  cases hctrl

end

section
/-! PROOF. Display pipes: what each operation writes (R378 to R386). -/

namespace Sys2Proof.Machine

@[simp] theorem rPipe_inj {n o p : Nat} : rPipe n o = rPipe n p ↔ o = p := by
  simp only [rPipe]
  omega

@[simp] theorem rPipe_ne_rDpyIrq {n o : Nat} : rPipe n o ≠ rDpyIrq := by
  simp only [rPipe, rDpyIrq]
  omega

namespace RegsOnly

variable {l : List Nat} {s t : State}

theorem dpy (h : RegsOnly l s t) : t.dpy = s.dpy := by obtain ⟨r, rfl⟩ := h.rest; rfl

theorem out (h : RegsOnly l s t) : t.out = s.out := by obtain ⟨r, rfl⟩ := h.rest; rfl

end RegsOnly

variable {s : State} {n : Nat}

/-- A bit of the field written. -/
theorem State.bit_setFld_inside (h : regsWf s.regs = true) {a hi lo k : Nat} (v : Nat) (hlo : lo ≤ k) (hk : k ≤ hi) (hhi : hi < 32) :
    (s.setFld a hi lo v).bit a k = bitOf v (k - lo) := by
  rw [State.bit, State.setFld, State.word_setWord_same h, bitOf_eq, bitOf_eq, Nat.testBit_mod_two_pow,
    testBit_setBitsOf _ _ _ _ _ (by omega), if_pos ⟨hlo, hk⟩]
  simp [show k < 32 by omega]

/-- A field that does not hold the bit written. -/
theorem State.fld_setBit_apart (h : regsWf s.regs = true) {a k hi lo : Nat} (b : Bool) (hhi : hi < 32) (hap : hi < k ∨ k < lo) :
    (s.setBit a k b).fld a hi lo = s.fld a hi lo :=
  State.fld_setFld_apart h _ (Nat.le_refl k) hhi hap

/-! Enable and disable (R382). -/

/-- The bits of DPY_PIPE_CTRL written as EN and EXPECT. -/
theorem bitOf_ctrl (en x : Bool) : bitOf (b2n en + 2 * b2n x) 0 = en ∧ bitOf (b2n en + 2 * b2n x) 1 = x := by
  cases en <;> cases x <;> decide

/-- DPY_PIPE_CTRL with EN and EXPECT. -/
def State.pipeCtrl (s : State) (n : Nat) (en x : Bool) : State := s.setFld (rPipe n 0) 1 0 (b2n en + 2 * b2n x)

theorem State.pipeCtrl_only (h : regsWf s.regs = true) (n : Nat) (en x : Bool) :
    RegsOnly [rPipe n 0, rPipe n 4] s (s.pipeCtrl n en x) := (RegsOnly.refl h).setFld _ _ _ (by simp)

theorem State.pipeCtrl_bits (h : regsWf s.regs = true) (n : Nat) (en x : Bool) :
    (s.pipeCtrl n en x).bit (rPipe n 0) 0 = en ∧ (s.pipeCtrl n en x).bit (rPipe n 0) 1 = x ∧
      (s.pipeCtrl n en x).pipeState n = s.pipeState n := by
  obtain ⟨hen, hx⟩ := bitOf_ctrl en x
  refine ⟨?_, ?_, State.fld_setFld_other h _ _ _ _ _ (by simp)⟩
  · exact (State.bit_setFld_inside h _ (by omega) (by omega) (by omega)).trans hen
  · exact (State.bit_setFld_inside h _ (by omega) (by omega) (by omega)).trans hx

theorem State.pipeEnable_effect (h : regsWf s.regs = true) (n : Nat) (x : Bool) :
    (s.pipeEnable n x).bit (rPipe n 0) 0 = true ∧ (s.pipeEnable n x).bit (rPipe n 0) 1 = x ∧
      (s.pipeEnable n x).pipeState n = (if s.pipeState n = 0 then 1 else s.pipeState n) ∧
      RegsOnly [rPipe n 0, rPipe n 4] s (s.pipeEnable n x) := by
  have hc := s.pipeCtrl_only h n true x
  obtain ⟨hen, hx, hst⟩ := s.pipeCtrl_bits h n true x
  have e : s.pipeEnable n x = if s.pipeState n = 0 then (s.pipeCtrl n true x).setFld (rPipe n 4) 1 0 1 else s.pipeCtrl n true x := by
    rw [← hst]
    rfl
  rw [e]
  split
  · refine ⟨?_, ?_, State.fld_setFld_same hc.wf 1 (by omega) (by omega), hc.setFld _ _ _ (by simp)⟩
    · exact (State.bit_congr (State.word_setFld_other hc.wf _ _ _ (by simp)) _).trans hen
    · exact (State.bit_congr (State.word_setFld_other hc.wf _ _ _ (by simp)) _).trans hx
  · exact ⟨hen, hx, hst, hc⟩

/-- A pipe goes OFF: only its status and its output differ (R380). -/
theorem State.dpyOff_effect (h : regsWf s.regs = true) (n : Nat) :
    (s.dpyOff n).fld (rPipe n 4) 3 0 = 0 ∧ (s.dpyOff n).pipeState n = 0 ∧ regsWf (s.dpyOff n).regs = true ∧
      RegsBut [rPipe n 4] s (s.dpyOff n) ∧ (s.dpyOff n).mem = s.mem ∧ (s.dpyOff n).dpy = s.dpy := by
  have hoff : RegsOnly [rPipe n 4] s (s.setFld (rPipe n 4) 3 0 0) := (RegsOnly.refl h).setFld _ _ _ (by simp)
  have hfld : (s.dpyOff n).fld (rPipe n 4) 3 0 = 0 := State.fld_setFld_same h 0 (by omega) (by omega)
  refine ⟨hfld, ?_, hoff.wf, hoff.word, hoff.mem, hoff.dpy⟩
  apply Nat.eq_of_testBit_eq
  intro k
  have e := congrArg (Nat.testBit · k) hfld
  simp only [State.pipeState, State.fld, testBit_bitsOf, Nat.zero_testBit] at e ⊢
  by_cases hk : k < 2
  · simpa [hk, show k < 4 by omega] using e
  · simp [hk]

theorem State.pipeDisable_effect (h : regsWf s.regs = true) (n : Nat) (x : Bool) :
    (s.pipeDisable n x).bit (rPipe n 0) 0 = false ∧ (s.pipeDisable n x).bit (rPipe n 0) 1 = x ∧
      (s.pipeDisable n x).pipeState n = (if s.pipeState n = 3 then 3 else 0) ∧ RegsBut [rPipe n 0, rPipe n 4] s (s.pipeDisable n x) ∧
      (s.pipeDisable n x).mem = s.mem ∧ (s.pipeDisable n x).dpy = s.dpy := by
  have hc := s.pipeCtrl_only h n false x
  obtain ⟨hen, hx, hst⟩ := s.pipeCtrl_bits h n false x
  have e : s.pipeDisable n x =
      if s.pipeState n = 3 then s.pipeCtrl n false x
      else if s.pipeState n = 0 then s.pipeCtrl n false x else (s.pipeCtrl n false x).dpyOff n := by
    rw [← hst, State.pipeCtrl, b2n, if_neg Bool.false_ne_true, Nat.zero_add]
    rfl
  rw [e]
  split
  · next h3 => exact ⟨hen, hx, hst.trans h3, hc.word, hc.mem, hc.dpy⟩
  · split
    · next h0 => exact ⟨hen, hx, hst.trans h0, hc.word, hc.mem, hc.dpy⟩
    · obtain ⟨-, hoff, -, hbut, hmem, hdpy⟩ := State.dpyOff_effect hc.wf n
      refine ⟨?_, ?_, hoff, fun a ha => ?_, hmem.trans hc.mem, hdpy.trans hc.dpy⟩
      · exact (State.bit_congr (hbut _ (by simp)) _).trans hen
      · exact (State.bit_congr (hbut _ (by simp)) _).trans hx
      · exact (hbut a fun hm => ha (.tail _ hm)).trans (hc.word a ha)

/-! Frames and lock (R381, R383). -/

theorem State.lockLoss_unlocked (h : s.bit (rPipe n 4) 2 = false) : s.lockLoss n = s := if_neg (by simp [h])

theorem State.lockLoss_locked (h : s.bit (rPipe n 4) 2 = true) :
    s.lockLoss n = (s.setBit (rPipe n 4) 2 false).orWord rDpyIrq (2 ^ (8 * n + 2)) := if_pos h

theorem RegsOnly.lockLoss {l : List Nat} {t : State} (h : RegsOnly l s t) (h4 : rPipe n 4 ∈ l) (hirq : rDpyIrq ∈ l) :
    RegsOnly l s (t.lockLoss n) := .ite ((h.setBit _ _ h4).orWord _ hirq) h

/-- LOCKED is clear afterwards, and every other bit of the status is as before. -/
theorem State.lockLoss_status (h : regsWf s.regs = true) (n : Nat) :
    (s.lockLoss n).bit (rPipe n 4) 2 = false ∧ ∀ k < 32, k ≠ 2 → (s.lockLoss n).bit (rPipe n 4) k = s.bit (rPipe n 4) k := by
  cases hl : s.bit (rPipe n 4) 2 with
  | false => rw [State.lockLoss_unlocked hl]; exact ⟨hl, fun _ _ _ => rfl⟩
  | true =>
    rw [State.lockLoss_locked hl]
    have hw := State.setBit_regsWf h (rPipe n 4) 2 false
    refine ⟨?_, fun k hk hne => ?_⟩
    · rw [State.bit_orWord_other hw _ _ (by simp), State.bit_setBit_same h _ (by omega)]
    · rw [State.bit_orWord_other hw _ _ (by simp), State.bit_setBit_apart h _ hk hne]

/-- The state of a pipe is its two lowest status bits. -/
theorem State.pipeState_congr {t : State} (h0 : t.bit (rPipe n 4) 0 = s.bit (rPipe n 4) 0) (h1 : t.bit (rPipe n 4) 1 = s.bit (rPipe n 4) 1) :
    t.pipeState n = s.pipeState n := by
  apply Nat.eq_of_testBit_eq
  intro k
  simp only [State.bit, bitOf_eq] at h0 h1
  simp only [State.pipeState, State.fld, testBit_bitsOf]
  rcases (by omega : k = 0 ∨ k = 1 ∨ 2 ≤ k) with rfl | rfl | hk
  · simpa using h0
  · simpa using h1
  · simp [show ¬k < 2 by omega]

/-- A set of one bit. -/
theorem State.bit_orWord_pow (h : regsWf s.regs = true) (a : Nat) {k : Nat} (hk : k < 32) : (s.orWord a (2 ^ k)).bit a k = true := by
  rw [State.bit_orWord_same h a _ hk, bitOf_eq (2 ^ k), Nat.testBit_two_pow_self, Bool.or_true]

theorem State.lockOut_congr {t : State} (h : ∀ o ∈ [0x40, 0x48, 0x50, 0x5C, 0x60], t.word (rPipe n o) = s.word (rPipe n o)) :
    t.lockOut n = s.lockOut n := by
  simp only [List.forall_mem_cons, List.not_mem_nil, false_implies, implies_true, and_true] at h
  obtain ⟨h40, h48, h50, h5C, h60⟩ := h
  unfold State.lockOut State.fld
  rw [h40, h48, h50, h5C, h60]

/-- LOCKED and LOCK_FAIL after a frame start (R383); no other status bit differs. -/
theorem State.lockFrame_effect (h : regsWf s.regs = true) (n : Nat) (x : Bool) :
    (s.lockFrame n x).bit (rPipe n 4) 2 = (s.bit (rPipe n 0x5C) 0 && x && !s.lockOut n) ∧
      (s.lockFrame n x).bit (rPipe n 4) 3 = (s.bit (rPipe n 0x5C) 0 && s.lockOut n) ∧
      (s.lockFrame n x).pipeState n = s.pipeState n ∧ RegsOnly [rPipe n 4, rDpyIrq] s (s.lockFrame n x) := by
  generalize hen : s.bit (rPipe n 0x5C) 0 = en
  generalize hout : s.lockOut n = out
  have hf : RegsOnly [rPipe n 4, rDpyIrq] s (s.setBit (rPipe n 4) 3 (en && out)) := (RegsOnly.refl h).setBit _ _ (by simp)
  have hout' : (s.setBit (rPipe n 4) 3 (en && out)).lockOut n = out :=
    (State.lockOut_congr fun o ho => hf.word _ (by simp only [List.mem_cons, List.not_mem_nil, or_false] at ho; simp; omega)).trans hout
  have h3 : (s.setBit (rPipe n 4) 3 (en && out)).bit (rPipe n 4) 3 = (en && out) := State.bit_setBit_same h _ (by omega)
  have hlow (k : Nat) (hk : k < 2) : (s.setBit (rPipe n 4) 3 (en && out)).bit (rPipe n 4) k = s.bit (rPipe n 4) k :=
    State.bit_setBit_apart h _ (by omega) (by omega)
  have e : s.lockFrame n x =
      if (en && x && !out) = true then (s.setBit (rPipe n 4) 3 (en && out)).setBit (rPipe n 4) 2 true
      else (s.setBit (rPipe n 4) 3 (en && out)).lockLoss n := by
    rw [State.lockFrame, hen, hout, hout']
  rw [e]
  generalize s.setBit (rPipe n 4) 3 (en && out) = u at *
  split
  · next hlock =>
    refine ⟨?_, ?_, State.pipeState_congr ?_ ?_, hf.setBit _ _ (by simp)⟩
    · rw [State.bit_setBit_same hf.wf _ (by omega), hlock]
    · rw [State.bit_setBit_apart hf.wf _ (by omega) (by omega), h3]
    · rw [State.bit_setBit_apart hf.wf _ (by omega) (by omega), hlow 0 (by omega)]
    · rw [State.bit_setBit_apart hf.wf _ (by omega) (by omega), hlow 1 (by omega)]
  · next hlock =>
    obtain ⟨hclear, hkeep⟩ := State.lockLoss_status hf.wf n
    refine ⟨?_, ?_, State.pipeState_congr ?_ ?_, hf.lockLoss (by simp) (by simp)⟩
    · rw [hclear, Bool.eq_false_iff.mpr hlock]
    · rw [hkeep 3 (by omega) (by omega), h3]
    · rw [hkeep 0 (by omega) (by omega), hlow 0 (by omega)]
    · rw [hkeep 1 (by omega) (by omega), hlow 1 (by omega)]

/-- A frame counted, in a pipe that scans out. -/
def State.frameCounted (s : State) (n : Nat) : State :=
  (s.setFld (rPipe n 4) 1 0 3).setWord (rPipe n 8) (65536 * ((s.fld (rPipe n 8) 31 16 + 1) % 65536))

theorem State.dpyFrame_off {late : List (Nat × Nat)} (x : Bool) (h : s.pipeState n < 2) : s.dpyFrame n x late = s := if_pos h

theorem State.dpyFrame_stops {late : List (Nat × Nat)} (x : Bool) (h : 2 ≤ s.pipeState n) (hen : s.bit (rPipe n 0) 0 = false) :
    s.dpyFrame n x late = s.dpyOff n := by
  simp only [State.dpyFrame, if_neg (Nat.not_lt.mpr h), hen, Bool.not_false, if_true]

theorem State.frameCounted_effect (h : regsWf s.regs = true) (n : Nat) :
    (s.frameCounted n).pipeState n = 3 ∧ (s.frameCounted n).word (rPipe n 8) = 65536 * ((s.fld (rPipe n 8) 31 16 + 1) % 65536) ∧
      RegsOnly [rPipe n 4, rPipe n 8] s (s.frameCounted n) := by
  have hst := State.setFld_regsWf h (rPipe n 4) 1 0 3
  have hfld : (s.setFld (rPipe n 4) 1 0 3).fld (rPipe n 8) 31 16 = s.fld (rPipe n 8) 31 16 :=
    State.fld_setFld_other h _ _ _ _ _ (by simp)
  refine ⟨?_, ?_, ((RegsOnly.refl h).setFld _ _ _ (by simp)).setWord _ (by simp)⟩
  · exact (State.fld_congr (State.word_setWord_other hst _ (by simp)) _ _).trans (State.fld_setFld_same h 3 (by omega) (by omega))
  · rw [State.frameCounted, State.word_setWord_same hst]
    omega

/-- A frame of no lines, of a buffer that no flip has just brought (R381, R384). -/
theorem State.dpyFrame_noLines {late : List (Nat × Nat)} (h : regsWf s.regs = true) (x : Bool) (hst : 2 ≤ s.pipeState n)
    (hen : s.bit (rPipe n 0) 0 = true) (hlines : s.fld (rPipe n 0x48) 15 0 = 0) (hl : (s.dpyOf n).latched = false) :
    s.dpyFrame n x late = (s.frameCounted n).lockFrame n x := by
  obtain ⟨-, -, hc⟩ := s.frameCounted_effect h n
  obtain ⟨-, -, -, hf⟩ := State.lockFrame_effect hc.wf n x
  have hlines' : ((s.frameCounted n).lockFrame n x).fld (rPipe n 0x48) 15 0 = 0 :=
    (State.fld_congr ((hf.word _ (by simp)).trans (hc.word _ (by simp))) _ _).trans hlines
  have hl' : (((s.frameCounted n).lockFrame n x).dpyOf n).latched = false := by
    rw [State.dpyOf, hf.dpy, hc.dpy]
    exact hl
  rw [State.frameCounted] at hlines' hl' ⊢
  simp only [State.dpyFrame, if_neg (Nat.not_lt.mpr hst), hen, Bool.not_true, Bool.false_eq_true, if_false, hl', hlines',
    List.range_zero, List.foldl_nil]

/-! Flips (R384). -/

theorem State.dpyOf_setDpy_same {x : DpyPipe} (h : n < s.dpy.pipes.length) : (s.setDpy n x).dpyOf n = x := by
  simp [State.dpyOf, State.setDpy, setAt, h]

theorem State.dpyOf_setDpy_other {x : DpyPipe} {k : Nat} (h : k ≠ n) : (s.setDpy n x).dpyOf k = s.dpyOf k := by
  simp [State.dpyOf, State.setDpy, setAt, h.symm]

/-- Only registers at the addresses listed and the state beside its registers of pipe n differ. -/
structure PipeOnly (l : List Nat) (n : Nat) (x : DpyPipe) (s t : State) : Prop where
  regs : RegsOnly l (s.setDpy n x) t

namespace PipeOnly

variable {l : List Nat} {x : DpyPipe} {t : State}

theorem word (h : PipeOnly l n x s t) : RegsBut l s t := fun a ha => h.regs.word a ha

theorem mem (h : PipeOnly l n x s t) : t.mem = s.mem := h.regs.mem

theorem dpyOf_same (h : PipeOnly l n x s t) (hn : n < s.dpy.pipes.length) : t.dpyOf n = x := by
  rw [State.dpyOf, h.regs.dpy]
  exact State.dpyOf_setDpy_same hn

theorem dpyOf_other (h : PipeOnly l n x s t) {k : Nat} (hk : k ≠ n) : t.dpyOf k = s.dpyOf k := by
  rw [State.dpyOf, h.regs.dpy]
  exact State.dpyOf_setDpy_other hk

end PipeOnly

/-- A count that one case raises. -/
theorem State.word_bump_if (h : regsWf s.regs = true) (a : Nat) (b : Bool) :
    (if b then s.bump a else s).word a = (s.word a + b2n b) % 2 ^ 32 := by
  cases b with
  | false => exact (Nat.mod_eq_of_lt (s.word_lt a)).symm
  | true => exact State.word_bump_same h a

/-- A flip that is pending or not when another takes its place (R384). -/
theorem State.flip_effect (h : regsWf s.regs = true) (n : Nat) {b : Nat} (hb : b < 4) :
    (s.flip n b).fld (rPipe n 0x10) 1 0 = b ∧ (s.flip n b).bit (rPipe n 0x10) 4 = true ∧
      (s.flip n b).fld (rPipe n 0x10) 9 8 = s.fld (rPipe n 0x10) 9 8 ∧
      (s.flip n b).word (rPipe n 0x78) = (s.word (rPipe n 0x78) + b2n (s.bit (rPipe n 0x10) 4)) % 2 ^ 32 ∧
      PipeOnly [rPipe n 0x10, rPipe n 0x78] n { s.dpyOf n with atDl := false } s (s.flip n b) := by
  generalize hx : ({ s.dpyOf n with atDl := false } : DpyPipe) = x
  generalize hp : s.bit (rPipe n 0x10) 4 = pend
  have h0 : RegsOnly [rPipe n 0x10, rPipe n 0x78] (s.setDpy n x) (s.setDpy n x) := .refl h
  have hu : RegsOnly [rPipe n 0x10, rPipe n 0x78] (s.setDpy n x) (if pend then (s.setDpy n x).bump (rPipe n 0x78) else s.setDpy n x) :=
    .ite (h0.bump (by simp)) h0
  have hcount : (if pend then (s.setDpy n x).bump (rPipe n 0x78) else s.setDpy n x).word (rPipe n 0x78) =
      (s.word (rPipe n 0x78) + b2n pend) % 2 ^ 32 := State.word_bump_if (s := s.setDpy n x) h _ pend
  have hflip : (if pend then (s.setDpy n x).bump (rPipe n 0x78) else s.setDpy n x).word (rPipe n 0x10) = s.word (rPipe n 0x10) := by
    split
    · exact State.word_bump_other (s := s.setDpy n x) h (by simp)
    · rfl
  have e : s.flip n b = ((if pend then (s.setDpy n x).bump (rPipe n 0x78) else s.setDpy n x).setFld (rPipe n 0x10) 1 0 b).setBit
      (rPipe n 0x10) 4 true := by
    rw [← hx, ← hp]
    rfl
  rw [e]
  generalize (if pend then (s.setDpy n x).bump (rPipe n 0x78) else s.setDpy n x) = u at *
  have hv := State.setFld_regsWf hu.wf (rPipe n 0x10) 1 0 b
  refine ⟨?_, State.bit_setBit_same hv true (by omega), ?_, ?_, ⟨(hu.setFld _ _ _ (by simp)).setBit _ _ (by simp)⟩⟩
  · rw [State.fld_setBit_apart hv _ (by omega) (by omega), State.fld_setFld_same hu.wf b (by omega) (by omega)]
    omega
  · rw [State.fld_setBit_apart hv _ (by omega) (by omega), State.fld_setFld_apart hu.wf b (by omega) (by omega) (by omega)]
    exact State.fld_congr hflip 9 8
  · rw [State.setBit, State.word_setFld_other hv _ _ _ (by simp), State.word_setFld_other hu.wf _ _ _ (by simp), hcount]

/-- The line counter of a pipe set to a line. -/
def State.atLine (s : State) (n line : Nat) : State := s.setFld (rPipe n 8) 15 0 line

theorem State.atLine_effect (h : regsWf s.regs = true) (n a : Nat) :
    (s.atLine n (s.fld a 15 0)).fld (rPipe n 8) 15 0 = s.fld a 15 0 ∧
      (s.atLine n (s.fld a 15 0)).fld (rPipe n 8) 31 16 = s.fld (rPipe n 8) 31 16 ∧
      RegsOnly [rPipe n 8] s (s.atLine n (s.fld a 15 0)) := by
  refine ⟨?_, State.fld_setFld_apart h _ (by omega) (by omega) (by omega), (RegsOnly.refl h).setFld _ _ _ (by simp)⟩
  rw [State.atLine, State.fld_setFld_same h _ (by omega) (by omega)]
  exact Nat.mod_eq_of_lt (Nat.mod_lt _ (by decide))

theorem State.lineDl_idle (h : s.pipeState n ≠ 3) : s.lineDl n = s := if_pos h

theorem State.flipLatch_idle (h : s.pipeState n ≠ 3) : s.flipLatch n = s := if_pos h

/-- The start of line DL (R384). -/
theorem State.lineDl_effect (h : regsWf s.regs = true) (hst : s.pipeState n = 3) :
    (s.lineDl n).fld (rPipe n 8) 15 0 = s.fld (rPipe n 0x54) 15 0 ∧ (s.lineDl n).fld (rPipe n 8) 31 16 = s.fld (rPipe n 8) 31 16 ∧
      (s.lineDl n).word (rPipe n 0x70) =
        (s.word (rPipe n 0x70) + b2n (!s.bit (rPipe n 0x10) 4 && s.bit (rPipe n 0) 1)) % 2 ^ 32 ∧
      PipeOnly [rPipe n 8, rPipe n 0x70, rDpyIrq] n { s.dpyOf n with atDl := s.bit (rPipe n 0x10) 4 } s (s.lineDl n) := by
  obtain ⟨hline, hframe, hl⟩ := s.atLine_effect h n (rPipe n 0x54)
  have hpend : (s.atLine n (s.fld (rPipe n 0x54) 15 0)).bit (rPipe n 0x10) 4 = s.bit (rPipe n 0x10) 4 := hl.bit _ (by simp)
  have hexp : (s.atLine n (s.fld (rPipe n 0x54) 15 0)).bit (rPipe n 0) 1 = s.bit (rPipe n 0) 1 := hl.bit _ (by simp)
  generalize hx : ({ s.dpyOf n with atDl := s.bit (rPipe n 0x10) 4 } : DpyPipe) = x
  generalize hm : (!s.bit (rPipe n 0x10) 4 && s.bit (rPipe n 0) 1) = miss
  have e : s.lineDl n =
      if miss then (((s.atLine n (s.fld (rPipe n 0x54) 15 0)).setDpy n x).bump (rPipe n 0x70)).orWord rDpyIrq (2 ^ (8 * n))
      else (s.atLine n (s.fld (rPipe n 0x54) 15 0)).setDpy n x := by
    rw [← hm, ← hx, ← hpend, ← hexp, State.lineDl, if_neg (by simp [hst])]
    rfl
  have h0 : RegsOnly [rPipe n 8, rPipe n 0x70, rDpyIrq] (s.setDpy n x) (s.setDpy n x) := .refl h
  have hu : RegsOnly [rPipe n 8, rPipe n 0x70, rDpyIrq] (s.setDpy n x) ((s.atLine n (s.fld (rPipe n 0x54) 15 0)).setDpy n x) :=
    h0.setFld _ _ _ (by simp)
  have h70 : ((s.atLine n (s.fld (rPipe n 0x54) 15 0)).setDpy n x).word (rPipe n 0x70) = s.word (rPipe n 0x70) := hl.word _ (by simp)
  have h8 : ((s.atLine n (s.fld (rPipe n 0x54) 15 0)).setDpy n x).word (rPipe n 8) =
      (s.atLine n (s.fld (rPipe n 0x54) 15 0)).word (rPipe n 8) := rfl
  rw [e]
  generalize (s.atLine n (s.fld (rPipe n 0x54) 15 0)).setDpy n x = u at *
  have hb := State.bump_regsWf hu.wf (rPipe n 0x70)
  have h8' : (if miss then (u.bump (rPipe n 0x70)).orWord rDpyIrq (2 ^ (8 * n)) else u).word (rPipe n 8) = u.word (rPipe n 8) := by
    split
    · rw [State.word_orWord_other hb _ (by simp), State.word_bump_other hu.wf (by simp)]
    · rfl
  refine ⟨?_, ?_, ?_, ⟨.ite ((hu.bump (by simp)).orWord _ (by simp)) hu⟩⟩
  · rw [State.fld_congr (h8'.trans h8), hline]
  · rw [State.fld_congr (h8'.trans h8), hframe]
  · rw [← h70, ← State.word_bump_if hu.wf]
    split
    · exact State.word_orWord_other hb _ (by simp)
    · rfl

/-- The buffer that a flip names is the one shown, and no flip is pending. -/
def State.showFlip (s : State) (n : Nat) : State :=
  (s.setFld (rPipe n 0x10) 9 8 (s.fld (rPipe n 0x10) 1 0)).setBit (rPipe n 0x10) 4 false

theorem State.showFlip_effect (h : regsWf s.regs = true) (n : Nat) :
    (s.showFlip n).fld (rPipe n 0x10) 9 8 = s.fld (rPipe n 0x10) 1 0 ∧ (s.showFlip n).bit (rPipe n 0x10) 4 = false ∧
      RegsOnly [rPipe n 0x10] s (s.showFlip n) := by
  have hv := State.setFld_regsWf h (rPipe n 0x10) 9 8 (s.fld (rPipe n 0x10) 1 0)
  refine ⟨?_, State.bit_setBit_same hv false (by omega), ((RegsOnly.refl h).setFld _ _ _ (by simp)).setBit _ _ (by simp)⟩
  rw [State.showFlip, State.fld_setBit_apart hv _ (by omega) (by omega), State.fld_setFld_same h _ (by omega) (by omega)]
  exact Nat.mod_eq_of_lt (Nat.mod_lt _ (by decide))

/-- The start of line V_ACTIVE (R384). -/
theorem State.flipLatch_eq (h : regsWf s.regs = true) (hst : s.pipeState n = 3) :
    s.flipLatch n =
      if (s.dpyOf n).atDl && s.bit (rPipe n 0x10) 4 then
        ((s.atLine n (s.fld (rPipe n 0x48) 15 0)).showFlip n).setDpy n { s.dpyOf n with atDl := false, latched := true }
      else s.atLine n (s.fld (rPipe n 0x48) 15 0) := by
  obtain ⟨-, -, hl⟩ := s.atLine_effect h n (rPipe n 0x48)
  have hpend : (s.atLine n (s.fld (rPipe n 0x48) 15 0)).bit (rPipe n 0x10) 4 = s.bit (rPipe n 0x10) 4 := hl.bit _ (by simp)
  rw [← hpend, State.flipLatch, if_neg (by simp [hst])]
  rfl

/-! The side channel (R379, R386). -/

theorem leBytes_mod_word (v : Nat) : leBytes 4 (v % 2 ^ 32) = leBytes 4 v := leBytes_congr (Nat.mod_mod _ _)

/-- The bytes of a number read from n bytes are these bytes. -/
theorem leBytes_leNat : ∀ l : List Byte, leBytes l.length (leNat l) = l
  | [] => rfl
  | b :: l => by
    have hlow : BitVec.ofNat 8 (b.toNat + 256 * leNat l) = b := by
      apply BitVec.eq_of_toNat_eq
      rw [BitVec.toNat_ofNat, Nat.add_mul_mod_self_left, Nat.mod_eq_of_lt b.isLt]
    have hrest : (b.toNat + 256 * leNat l) >>> 8 = leNat l := by
      rw [Nat.shiftRight_eq_div_pow]
      have := b.isLt
      omega
    rw [List.length_cons, leNat, leBytes, hlow, hrest, leBytes_leNat l]

/-- The words of a byte string, its first word apart. -/
theorem wordsOf_cons_four (a b c d : Byte) (l : List Byte) : wordsOf (a :: b :: c :: d :: l) = leNat [a, b, c, d] :: wordsOf l := by
  have hlen : ((a :: b :: c :: d :: l).length + 3) / 4 = (l.length + 3) / 4 + 1 := by
    simp only [List.length_cons]
    omega
  rw [wordsOf, wordsOf, hlen, List.range_succ_eq_map, List.map_cons, List.map_map]
  refine congrArg _ (List.map_congr_left fun i _ => ?_)
  simp [leAt, sliceBytes, show 4 * (i + 1) = 4 * i + 1 + 1 + 1 + 1 by omega]

/-- Whole words hold their bytes. -/
theorem flatMap_leBytes_wordsOf : ∀ {k : Nat} {l : List Byte}, l.length = 4 * k → (wordsOf l).flatMap (leBytes 4) = l
  | 0, l, h => by
    obtain rfl := List.length_eq_zero_iff.mp h
    rfl
  | k + 1, a :: b :: c :: d :: l, h => by
    have e : leBytes 4 (leNat [a, b, c, d]) = [a, b, c, d] := leBytes_leNat [a, b, c, d]
    rw [wordsOf_cons_four, List.flatMap_cons, e, flatMap_leBytes_wordsOf (k := k) (by simp only [List.length_cons] at h; omega)]
    rfl

theorem State.word_setWords_below (vs : List Nat) : ∀ {s : State} {a b : Nat}, regsWf s.regs = true → b < a →
    (s.setWords a vs).word b = s.word b := by
  induction vs with
  | nil => exact fun _ _ => rfl
  | cons v r ih =>
    intro s a b h hb
    rw [State.setWords, ih (State.setWord_regsWf h _ _) (by omega), State.word_setWord_other h _ (by omega)]

/-- Register words written read back. -/
theorem State.flatMap_word_setWords (vs : List Nat) : ∀ {s : State} {a : Nat}, regsWf s.regs = true →
    (List.range vs.length).flatMap (fun i => leBytes 4 ((s.setWords a vs).word (a + 4 * i))) = vs.flatMap (leBytes 4) := by
  induction vs with
  | nil => exact fun _ => rfl
  | cons v r ih =>
    intro s a h
    have hw := State.setWord_regsWf h a v
    have hfirst : ((s.setWord a v).setWords (a + 4) r).word a = v % 2 ^ 32 := by
      rw [State.word_setWords_below r hw (by omega), State.word_setWord_same h]
    have hrest (i : Nat) : a + 4 * (i + 1) = a + 4 + 4 * i := by omega
    rw [List.length_cons, List.range_succ_eq_map, List.flatMap_cons, List.flatMap_map, List.flatMap_cons, ← ih (a := a + 4) hw,
      State.setWords]
    simp only [Nat.succ_eq_add_one, hrest, Nat.mul_zero, Nat.add_zero, hfirst, leBytes_mod_word]

/-- Registers set from the bytes of whole words hold these bytes. -/
theorem State.regBytes_setRegBytes (h : regsWf s.regs = true) (a : Nat) {k : Nat} {l : List Byte} (hl : l.length = 4 * k) :
    (s.setRegBytes a l).regBytes a (4 * k) = l := by
  have hn : (4 * k + 3) / 4 = (wordsOf l).length := by rw [wordsOf_length, hl]
  rw [State.regBytes, State.setRegBytes, hn, State.flatMap_word_setWords _ h, flatMap_leBytes_wordsOf hl, ← hl, List.take_length]

/-- What a write of DPY_PIPE_SIDE leaves in it: its reserved bit 29 reads 0. -/
def sideWord (v : Nat) : Nat := v % 2 ^ 24 + 2 ^ 24 * bitsOf v 28 24 + 2 ^ 30 * bitsOf v 31 30

theorem sideWord_fields (v : Nat) :
    bitsOf (sideWord v % 2 ^ 32) 31 30 = bitsOf v 31 30 ∧ bitsOf (sideWord v % 2 ^ 32) 28 24 = bitsOf v 28 24 ∧
      bitsOf (sideWord v % 2 ^ 32) 23 0 = v % 2 ^ 24 := by
  simp only [sideWord, bitsOf, Nat.shiftRight_eq_div_pow]
  omega

theorem State.sideGo_effect (h : regsWf s.regs = true) (n v : Nat) :
    (s.sideGo n v).fld (rPipe n 0x80) 31 30 = bitsOf v 31 30 ∧ (s.sideGo n v).fld (rPipe n 0x80) 28 24 = bitsOf v 28 24 ∧
      (s.sideGo n v).fld (rPipe n 0x80) 23 0 = v % 2 ^ 24 ∧ RegsBut [rPipe n 0x80] s (s.sideGo n v) ∧ (s.sideGo n v).mem = s.mem ∧
      (s.sideGo n v).out.length = s.out.length + b2n (bitOf v 31) := by
  have hu : RegsOnly [rPipe n 0x80] s (s.setWord (rPipe n 0x80) (sideWord v)) := (RegsOnly.refl h).setWord _ (by simp)
  have hw : (s.setWord (rPipe n 0x80) (sideWord v)).word (rPipe n 0x80) = sideWord v % 2 ^ 32 := State.word_setWord_same h _ _
  obtain ⟨hop, hlen, haddr⟩ := sideWord_fields v
  rw [← hw] at hop hlen haddr
  rw [State.sideGo]
  cases bitOf v 31 with
  | false => exact ⟨hop, hlen, haddr, hu.word, hu.mem, rfl⟩
  | true => exact ⟨hop, hlen, haddr, hu.word, hu.mem, List.length_append⟩

/-- What a transfer leaves in the data area (R386): the bytes that a read brought. -/
def State.sideData (s : State) (n : Nat) (d : List Byte) : State :=
  if s.bit (rPipe n 0x80) 30 then
    s.setRegBytes (rPipe n 0x90) (d.take (min 16 (s.fld (rPipe n 0x80) 28 24 + 1)) ++
      (s.regBytes (rPipe n 0x90) 16).drop (min d.length (min 16 (s.fld (rPipe n 0x80) 28 24 + 1))))
  else s

theorem State.sideDone_idle {d : List Byte} (h : s.bit (rPipe n 0x80) 31 = false) : s.sideDone n d = s := if_pos (by simp [h])

theorem State.sideDone_busy {d : List Byte} (h : s.bit (rPipe n 0x80) 31 = true) :
    s.sideDone n d = ((s.sideData n d).setBit (rPipe n 0x80) 31 false).orWord rDpyIrq (2 ^ (8 * n + 4)) := by
  rw [State.sideDone, if_neg (by simp [h])]
  rfl

theorem State.regBytes_length (s : State) (a : Nat) {k : Nat} : (s.regBytes a (4 * k)).length = 4 * k := by
  have hk : k * 4 ≤ 4 * ((k * 4 + 3) / 4) := by omega
  simpa [State.regBytes, List.length_flatMap, leBytes_length, Nat.mul_comm] using hk

/-- The data area of a pipe. -/
def sideAddrs (n : Nat) : List Nat := [rPipe n 0x90, rPipe n 0x94, rPipe n 0x98, rPipe n 0x9C]

theorem State.sideData_only (h : regsWf s.regs = true) (n : Nat) (d : List Byte) : RegsOnly (sideAddrs n) s (s.sideData n d) := by
  refine .ite ((RegsOnly.refl h).setWords _ fun i hi => ?_) (.refl h)
  rw [wordsOf_length, List.length_append, List.length_take, List.length_drop, State.regBytes_length (k := 4)] at hi
  rcases (by omega : i = 0 ∨ i = 1 ∨ i = 2 ∨ i = 3) with rfl | rfl | rfl | rfl
  all_goals simp [sideAddrs, rPipe]

/-- A read of 16 bytes that brings them all. -/
theorem State.sideData_read (h : regsWf s.regs = true) {d : List Byte} (hread : s.bit (rPipe n 0x80) 30 = true) (hd : d.length = 16)
    (hlen : s.fld (rPipe n 0x80) 28 24 = 15) : (s.sideData n d).regBytes (rPipe n 0x90) 16 = d := by
  have e : s.sideData n d = s.setRegBytes (rPipe n 0x90) d := by
    have hold : (s.regBytes (rPipe n 0x90) 16).length = 16 := s.regBytes_length (rPipe n 0x90) (k := 4)
    rw [State.sideData, if_pos hread, hlen, hd, List.take_of_length_le (by omega), List.drop_of_length_le (by omega), List.append_nil]
  rw [e]
  exact State.regBytes_setRegBytes h _ (k := 4) hd

theorem State.regBytes_congr {t : State} {a n : Nat} (h : ∀ i < (n + 3) / 4, t.word (a + 4 * i) = s.word (a + 4 * i)) :
    t.regBytes a n = s.regBytes a n := by
  rw [State.regBytes, State.regBytes]
  refine congrArg (List.take n) (List.flatMap_congr fun i hi => ?_)
  rw [h i (List.mem_range.mp hi)]

/-- A transfer has ended (R379, R386). -/
theorem State.sideDone_effect (h : regsWf s.regs = true) (hn : n < 4) (d : List Byte) (hgo : s.bit (rPipe n 0x80) 31 = true) :
    (s.sideDone n d).bit (rPipe n 0x80) 31 = false ∧ (s.sideDone n d).bit rDpyIrq (8 * n + 4) = true ∧
      (s.sideDone n d).regBytes (rPipe n 0x90) 16 = (s.sideData n d).regBytes (rPipe n 0x90) 16 ∧
      RegsOnly [rPipe n 0x80, rDpyIrq] (s.sideData n d) (s.sideDone n d) := by
  have hu := s.sideData_only h n d
  rw [State.sideDone_busy hgo]
  generalize s.sideData n d = u at *
  have hv := State.setBit_regsWf hu.wf (rPipe n 0x80) 31 false
  have honly : RegsOnly [rPipe n 0x80, rDpyIrq] u ((u.setBit (rPipe n 0x80) 31 false).orWord rDpyIrq (2 ^ (8 * n + 4))) :=
    ((RegsOnly.refl hu.wf).setBit _ _ (by simp)).orWord _ (by simp)
  refine ⟨?_, State.bit_orWord_pow hv _ (by omega), State.regBytes_congr fun i hi => honly.word _ ?_, honly⟩
  · rw [State.bit_orWord_other hv _ _ (by simp), State.bit_setBit_same hu.wf _ (by omega)]
  · simp only [rPipe, rDpyIrq, List.mem_cons, List.not_mem_nil, or_false]
    omega

end Sys2Proof.Machine

open Sys2Proof Sys2Proof.Machine

/-- Settles O34: each operation of a pipe writes a few of its registers in turn, and each register written is read back. -/
theorem displayPipesScanFlipAndLock : Obligations.DisplayPipesScanFlipAndLock := by
  unfold Obligations.DisplayPipesScanFlipAndLock
  refine ⟨fun s m inst p b x v hw => ?refused, fun s m inst p x hcan hw => ?ctrl, fun s m inst p b hcan hlen hw => ?flip,
    fun s p x l h => congrArg Host.Outcome.next (State.dpyFrame_off x h), fun s p x l hcan hst hen => ?stops,
    fun s p x l hcan hst hen hlines hl => ?frame,
    fun s p h => ⟨congrArg Host.Outcome.next (State.lineDl_idle h), congrArg Host.Outcome.next (State.flipLatch_idle h)⟩,
    fun s p hcan hst hlen => ⟨?lineDl, ?latch⟩, fun s p hcan => ⟨fun h => congrArg Host.Outcome.next (State.lockLoss_unlocked h), ?loss⟩,
    fun s m inst p v hcan hw => ?sideGo,
    fun s p d hcan => ⟨fun h => congrArg Host.Outcome.next (State.sideDone_idle h), fun hgo => ?sideDone⟩, fun s p hcan => ?hpd⟩
  case refused =>
    refine ⟨?_, ?_, ?_, ?_⟩
    all_goals exact congrArg Host.Outcome.next (if_neg (by simp [hw]))
  case ctrl =>
    obtain ⟨-, hwf⟩ := State.canonical_iff.mp hcan
    obtain ⟨hen, hx, hst, honly⟩ := s.pipeEnable_effect hwf p x
    obtain ⟨hen', hx', hst', hbut, hmem, hdpy⟩ := s.pipeDisable_effect hwf p x
    exact ⟨.of_exec (congrArg Host.Outcome.next (if_pos hw)) ⟨hen, hx, hst, honly.word, honly.mem, honly.out, honly.dpy, rfl⟩,
      .of_exec (congrArg Host.Outcome.next (if_pos hw)) ⟨hen', hx', hst', hbut, hmem, hdpy, rfl⟩⟩
  case flip =>
    obtain ⟨-, hwf⟩ := State.canonical_iff.mp hcan
    obtain ⟨hbuf, hpend, hshown, hcount, honly⟩ := s.flip_effect hwf p b.isLt
    exact .of_exec (congrArg Host.Outcome.next (if_pos hw)) ⟨hbuf, hpend, hshown, hcount, honly.dpyOf_same (by omega),
      fun q hq => honly.dpyOf_other hq, honly.word, honly.mem⟩
  case stops =>
    obtain ⟨-, hwf⟩ := State.canonical_iff.mp hcan
    obtain ⟨hfld, hoff, -, hbut, hmem, hdpy⟩ := s.dpyOff_effect hwf p
    exact .of_exec (congrArg Host.Outcome.next (State.dpyFrame_stops x hst hen)) ⟨hoff, hfld, hbut, hmem, hdpy⟩
  case frame =>
    obtain ⟨-, hwf⟩ := State.canonical_iff.mp hcan
    obtain ⟨hstate, hframe, hc⟩ := s.frameCounted_effect hwf p
    obtain ⟨hlocked, hfail, hkeep, hf⟩ := State.lockFrame_effect hc.wf p x
    have hen : (s.frameCounted p).bit (rPipe p 0x5C) 0 = s.bit (rPipe p 0x5C) 0 := hc.bit _ (by simp)
    have hout : (s.frameCounted p).lockOut p = s.lockOut p :=
      State.lockOut_congr fun o ho => hc.word _ (by simp only [List.mem_cons, List.not_mem_nil, or_false] at ho; simp; omega)
    rw [hen, hout] at hlocked hfail
    refine .of_exec (congrArg Host.Outcome.next (State.dpyFrame_noLines hwf x hst ‹_› hlines hl)) ⟨hkeep.trans hstate, ?_, hlocked, hfail, ?_,
      hf.mem.trans hc.mem, hf.dpy.trans hc.dpy⟩
    · rw [hf.word _ (by simp), hframe]
    · exact fun a ha => (hf.word a (by simp at ha ⊢; tauto)).trans (hc.word a (by simp at ha ⊢; tauto))
  case lineDl =>
    obtain ⟨-, hwf⟩ := State.canonical_iff.mp hcan
    obtain ⟨hline, hframe, hmiss, honly⟩ := State.lineDl_effect hwf hst
    exact .of_exec rfl ⟨hline, hframe, honly.dpyOf_same (by omega), hmiss, honly.word, honly.mem⟩
  case latch =>
    obtain ⟨-, hwf⟩ := State.canonical_iff.mp hcan
    obtain ⟨hline, -, hl⟩ := s.atLine_effect hwf p (rPipe p 0x48)
    obtain ⟨hshown, hpend, hs⟩ := State.showFlip_effect hl.wf p
    have h10 : (s.atLine p (s.fld (rPipe p 0x48) 15 0)).word (rPipe p 0x10) = s.word (rPipe p 0x10) := hl.word _ (by simp)
    refine .of_exec (congrArg Host.Outcome.next (State.flipLatch_eq hwf hst)) ?_
    dsimp only
    cases hgo : (s.dpyOf p).atDl && s.bit (rPipe p 0x10) 4 with
    | false =>
      simp only [Bool.false_eq_true, if_false, Bool.not_false, Bool.and_true]
      exact ⟨hline, State.fld_congr h10 9 8, State.bit_congr h10 4, congrArg (fun d : DpyS => d.pipes.getD p.val ⟨false, false, 0⟩) hl.dpy,
        fun a ha => hl.word a (by simp at ha ⊢; tauto), hl.mem⟩
    | true =>
      simp only [if_true, Bool.not_true, Bool.and_false]
      refine ⟨(State.fld_congr (hs.word _ (by simp)) _ _).trans hline, hshown.trans (State.fld_congr h10 1 0), hpend,
        State.dpyOf_setDpy_same ?_, fun a ha => (hs.word a (by simp at ha ⊢; tauto)).trans (hl.word a (by simp at ha ⊢; tauto)),
        hs.mem.trans hl.mem⟩
      rw [hs.dpy, hl.dpy]
      omega
  case loss =>
    obtain ⟨-, hwf⟩ := State.canonical_iff.mp hcan
    obtain ⟨hclear, hkeep⟩ := s.lockLoss_status hwf p
    have honly : RegsOnly [rPipe p 4, rDpyIrq] s (s.lockLoss p) := (RegsOnly.refl hwf).lockLoss (by simp) (by simp)
    refine .of_exec rfl ⟨hclear, fun hl => ?_, State.pipeState_congr (hkeep 0 (by omega) (by omega)) (hkeep 1 (by omega) (by omega)),
      honly.word, honly.mem, honly.dpy⟩
    rw [State.lockLoss_locked hl]
    exact State.bit_orWord_pow (State.setBit_regsWf hwf _ _ _) _ (by omega)
  case sideGo =>
    obtain ⟨-, hwf⟩ := State.canonical_iff.mp hcan
    refine ⟨fun hbusy => congrArg Host.Outcome.next ((if_pos hw).trans (if_pos hbusy)), fun hidle => ?_⟩
    obtain ⟨hop, hlen, haddr, hbut, hmem, hout⟩ := s.sideGo_effect hwf p v.toNat
    exact .of_exec (congrArg Host.Outcome.next ((if_pos hw).trans (if_neg (by simp [hidle])))) ⟨hop, hlen, haddr, hbut, hmem, hout, rfl⟩
  case sideDone =>
    obtain ⟨-, hwf⟩ := State.canonical_iff.mp hcan
    have hdata := s.sideData_only hwf p d
    obtain ⟨hend, hirq, hbytes, honly⟩ := State.sideDone_effect hwf p.isLt d hgo
    refine .of_exec rfl ⟨hend, hirq, fun hread hd hlen => hbytes.trans (State.sideData_read hwf hread hd hlen), fun hwrite => ?_,
      honly.mem.trans hdata.mem, honly.dpy.trans hdata.dpy⟩
    rw [State.sideData, if_neg (by simp [hwrite])] at honly
    exact honly.word
  case hpd =>
    obtain ⟨-, hwf⟩ := State.canonical_iff.mp hcan
    have honly : RegsOnly [rDpyIrq] s (s.orWord rDpyIrq (2 ^ (8 * p.val + 3))) := (RegsOnly.refl hwf).orWord _ (by simp)
    exact ⟨fun h => congrArg Host.Outcome.next (if_neg (by omega)), fun h => .of_exec (congrArg Host.Outcome.next (if_pos h))
      ⟨State.bit_orWord_pow hwf _ (by omega), honly.word, honly.mem⟩⟩

end

section
/-! PROOF. What the collector, memory, translation and the queues leave alone: the raster front ends (R369, R370), in register files of
any form. A front end that stops has written its STATUS, which is then listed no later than any register behind HEAD, so that a write of
another unit cannot change what HEAD reads as. -/

namespace Sys2Proof.Machine

/-- The first key of a store from a on is at most b. -/
def Fenced {α : Type} (a b : Nat) : List (Nat × α) → Prop
  | [] => False
  | (k, _) :: r => if k < a then Fenced a b r else k ≤ b

/-- A key set to no default value is a fence for any key below it. -/
theorem fenced_stPut_same {α : Type} [DecidableEq α] {d : Nat → α} {a b : Nat} {v : α} (hab : a ≤ b) (hv : v ≠ d b) :
    ∀ l : List (Nat × α), Fenced a b (stPut d l b v)
  | [] => by simp [stPut, hv, Fenced, Nat.not_lt.mpr hab]
  | (k', v') :: r => by
    have ih := fenced_stPut_same hab hv r
    rw [stPut, if_neg hv]
    split
    · simp [Fenced, Nat.not_lt.mpr hab]
    · split
      · simp [Fenced, Nat.not_lt.mpr hab]
      · simp only [Fenced]
        split
        · exact ih
        · omega

/-- A write outside the fence keeps it, and what the key behind it reads as. -/
theorem fenced_stPut_apart {α : Type} [DecidableEq α] {d : Nat → α} {a b k : Nat} (v : α) (hk : k < a ∨ b < k) :
    ∀ l : List (Nat × α), Fenced a b l → Fenced a b (stPut d l k v) ∧ stGet d (stPut d l k v) a = stGet d l a
  | [], h => h.elim
  | (k', v') :: r, h => by
    have ih := fenced_stPut_apart (d := d) v hk r
    simp only [Fenced] at h
    simp only [stPut]
    split
    case isTrue hlt =>
      have hka : k < a := by
        split at h <;> omega
      split
      · exact ⟨h, rfl⟩
      · simp only [Fenced, if_pos hka, stGet, if_neg (show ¬a < k by omega), if_neg (show a ≠ k by omega)]
        exact ⟨h, trivial⟩
    case isFalse hge =>
      split
      case isTrue heq =>
        have hka : k' < a := by
          by_contra hna
          rw [if_neg hna] at h
          omega
        rw [if_pos hka] at h
        have hskip (x : α) : stGet d ((k', x) :: r) a = stGet d r a := by
          rw [stGet, if_neg (by omega), if_neg (by omega)]
        subst heq
        split
        · exact ⟨h, (hskip v').symm⟩
        · simp only [hskip, Fenced, if_pos hka]
          exact ⟨h, trivial⟩
      case isFalse hne =>
        simp only [Fenced, stGet]
        split at h
        · next hka =>
          obtain ⟨hf, hg⟩ := ih h
          simp only [if_pos hka, hg]
          exact ⟨hf, trivial⟩
        · next hka =>
          simp only [if_neg hka, h, true_and]
          split
          · rfl
          · rw [if_pos (by omega), if_pos (by omega)]

/-- STATUS of a front end, or a register between it and HEAD, is listed first of those from HEAD on. -/
def State.headFenced (s : State) (f : Nat) : Prop := Fenced (rFe f 0x14) (rFe f 0x18) s.regs

/-- An address that is not in HEAD to STATUS of a front end. -/
def offHead (a : Nat) : Prop := ∀ f < 2, a < rFe f 0x14 ∨ rFe f 0x18 < a

theorem offHead_block {k o : Nat} (hk : k ≠ bRAS) (ho : o < 0x100000) : offHead (blkBase k + o) := by
  intro f hf
  simp only [rFe, blkBase, csrBase, bRAS] at hk ⊢
  omega

theorem offHead_rFlt {o : Nat} (ho : o < 0x100000) : offHead (rFlt o) := offHead_block (k := bFLT) (by decide) ho

theorem offHead_rWpe {o : Nat} (ho : o < 0x100000) : offHead (rWpe o) := offHead_block (k := bWPE) (by decide) ho

theorem offHead_rEth {o : Nat} (ho : o < 0x100000) : offHead (rEth o) := offHead_block (k := bETH) (by decide) ho

theorem offHead_rMem {o : Nat} (ho : o < 0x100000) : offHead (rMem o) := offHead_block (k := bMEM) (by decide) ho

theorem offHead_rSec {o : Nat} (ho : o < 0x100000) : offHead (rSec o) := offHead_block (k := bSEC) (by decide) ho

theorem offHead_rAtu {o : Nat} (ho : o < 0x100000) : offHead (rAtu o) := offHead_block (k := bATU) (by decide) ho

theorem offHead_rHqm {o : Nat} (ho : o < 0x100000) : offHead (rHqm o) := offHead_block (k := bHQM) (by decide) ho

/-- HEAD of each front end reads the same where it is fenced, and is fenced again. -/
def HeadKept (s t : State) : Prop :=
  ∀ f < 2, s.headFenced f → t.headFenced f ∧ t.word (rFe f 0x14) = s.word (rFe f 0x14)

theorem HeadKept.trans {s t u : State} (h : HeadKept s t) (k : HeadKept t u) : HeadKept s u := fun f hf hs =>
  let ⟨ht, e⟩ := h f hf hs
  let ⟨hu, e'⟩ := k f hf ht
  ⟨hu, e'.trans e⟩

theorem HeadKept.of_regs {s t : State} (h : t.regs = s.regs) : HeadKept s t := fun f _ hf =>
  ⟨by rwa [State.headFenced, h], State.word_congr h _⟩

theorem HeadKept.setWord (s : State) {a : Nat} (v : Nat) (ha : offHead a) : HeadKept s (s.setWord a v) := fun f hf hs =>
  let ⟨hfence, hget⟩ := fenced_stPut_apart (d := regReset) (BitVec.ofNat 32 v) (ha f hf) s.regs hs
  ⟨hfence, congrArg BitVec.toNat hget⟩

/-- The state of the front ends is the same, and HEAD is kept. -/
structure RasKept (s t : State) : Prop where
  ras : t.ras = s.ras
  head : HeadKept s t

namespace RasKept

variable {s t u : State}

theorem refl (s : State) : RasKept s s := ⟨rfl, .of_regs rfl⟩

theorem trans (h : RasKept s t) (k : RasKept t u) : RasKept s u := ⟨k.ras.trans h.ras, h.head.trans k.head⟩

/-- A state with the same registers. -/
theorem upd (h : RasKept s t) (hr : u.regs = t.regs) (hs : u.ras = t.ras) : RasKept s u := h.trans ⟨hs, .of_regs hr⟩

theorem setWord (h : RasKept s t) {a : Nat} (v : Nat) (ha : offHead a) : RasKept s (t.setWord a v) := h.trans ⟨rfl, .setWord t v ha⟩

theorem setFld (h : RasKept s t) {a : Nat} (hi lo v : Nat) (ha : offHead a) : RasKept s (t.setFld a hi lo v) := h.setWord _ ha

theorem setBit (h : RasKept s t) {a : Nat} (n : Nat) (b : Bool) (ha : offHead a) : RasKept s (t.setBit a n b) := h.setWord _ ha

theorem orWord (h : RasKept s t) {a : Nat} (m : Nat) (ha : offHead a) : RasKept s (t.orWord a m) := h.setWord _ ha

theorem bump (h : RasKept s t) {a : Nat} (ha : offHead a) : RasKept s (t.bump a) := h.setWord _ ha

theorem setWord64 (h : RasKept s t) {a : Nat} (v : Nat) (ha : offHead a) (ha4 : offHead (a + 4)) : RasKept s (t.setWord64 a v) :=
  (h.setWord v ha).setWord _ ha4

theorem setWords (vs : List Nat) : ∀ {t : State} {a : Nat}, RasKept s t → (∀ i, i < vs.length → offHead (a + 4 * i)) →
    RasKept s (t.setWords a vs) := by
  induction vs with
  | nil => exact fun h _ => h
  | cons v r ih =>
    intro t a h ha
    refine ih (h.setWord v (by simpa using ha 0 (by simp))) fun i hi => ?_
    have := ha (i + 1) (by simpa using hi)
    rwa [show a + 4 + 4 * i = a + 4 * (i + 1) by omega]

/-- The registers of a block set from bytes. -/
theorem setRegBytes (h : RasKept s t) {k o : Nat} (l : List Byte) (hk : k ≠ bRAS) (ho : o + l.length + 3 < 0x100000) :
    RasKept s (t.setRegBytes (blkBase k + o) l) := by
  refine setWords _ h fun i hi => ?_
  rw [wordsOf_length] at hi
  rw [Nat.add_assoc]
  exact offHead_block hk (by omega)

theorem ite {p : Prop} [Decidable p] (h : p → RasKept s t) (k : ¬p → RasKept s u) : RasKept s (if p then t else u) := by
  split
  · next hp => exact h hp
  · next hp => exact k hp

theorem foldl {α : Type} {f : State → α → State} (hf : ∀ u x, RasKept s u → RasKept s (f u x)) :
    ∀ (l : List α) {t : State}, RasKept s t → RasKept s (l.foldl f t)
  | [], _, h => h
  | x :: r, _, h => foldl hf r (hf _ x h)

/-! The collector and the heel (R354, R492 to R505). -/

theorem putAlarm (h : RasKept s t) (rcd : List Byte) : RasKept s (t.putAlarm rcd) :=
  (((h.upd (u := t.store (t.alarmSlot (t.word (rFlt 0x30))) rcd) rfl rfl).setWord _ (offHead_rFlt (o := 0x30) (by omega))).orWord 1
    (offHead_rFlt (o := 0x10) (by omega))).upd rfl rfl

theorem putNotice (h : RasKept s t) (rcd : List Byte) : RasKept s (t.putNotice rcd) := by
  have k := (h.upd (u := t.store (t.noticeSlot (t.flt.noticeCnt % t.noticeSize)) rcd) rfl rfl).setWord (a := rFlt 0x48)
    (t.store (t.noticeSlot (t.flt.noticeCnt % t.noticeSize)) rcd).flt.seq (offHead_rFlt (by omega))
  exact (ite (fun _ => (k.bump (offHead_rFlt (o := 0x4C) (by omega))).orWord 0x80 (offHead_rFlt (o := 0x10) (by omega)))
    fun _ => k).upd rfl rfl

theorem recordFault (h : RasKept s t) (ev : FaultEv) (time tf : Nat) : RasKept s (t.recordFault ev time tf).1 := by
  unfold State.recordFault
  dsimp only
  split
  case isTrue =>
    split
    · exact ((h.bump (offHead_rFlt (o := 0x38) (by omega))).orWord 2 (offHead_rFlt (o := 0x10) (by omega))).upd rfl rfl
    · exact h.putAlarm _
  case isFalse =>
    split
    · exact h
    · exact putNotice (h.upd (u := { t with flt.noticeWin := fmPut t.flt.noticeWin ev.src (t.msWindow + 1) }) rfl rfl) _

theorem capture (h : RasKept s t) {cls : Nat} (hc : cls ≤ 5) {rcd : List Byte} (hl : rcd.length = 32) :
    RasKept s (t.capture cls rcd) := by
  have hset : (rcd.set 7 ((rcd.getD 7 0) ||| 0x80)).length = 32 := by simpa using hl
  exact (ite (fun _ => h) fun _ => h.setRegBytes (k := bFLT) _ (by decide) (by omega)).setRegBytes (k := bFLT) _ (by decide) (by omega)

theorem pinsSafe (h : RasKept s t) : RasKept s t.pinsSafe :=
  have hst : offHead rFltState := offHead_rFlt (by omega)
  have hpin : RasKept s (if t.bit rFltState stSafeN then t.emit (.pin ballSafeN false) else t) :=
    ite (fun _ => h.upd rfl rfl) fun _ => h
  (hpin.setBit _ _ hst).setBit _ _ hst

theorem classState (h : RasKept s t) (ev : FaultEv) : RasKept s (t.classState ev) := by
  have hst : offHead rFltState := offHead_rFlt (by omega)
  have raised (k m : Nat) : RasKept s (if t.bit rFltState k then t else t.orWord rFltIrq m) :=
    ite (fun _ => h) fun _ => h.orWord m (offHead_rFlt (by omega))
  unfold State.classState
  split
  · exact h.upd rfl rfl
  · exact h.upd rfl rfl
  · exact ((raised stD 4).setBit _ _ hst).upd rfl rfl
  · exact pinsSafe (((raised stS 0x10).setBit _ _ hst).upd rfl rfl)
  · exact pinsSafe ((raised stL 0x40).setBit _ _ hst)

theorem collect (h : RasKept s t) {ev : FaultEv} (hc : ev.cls ≤ 5) : RasKept s (t.collect ev) := by
  unfold State.collect State.updateFc
  dsimp only
  refine RasKept.setFld (classState (capture (recordFault (h.bump (offHead_rFlt (by omega))) ev _ _) hc (recBytes_length ..)) ev) _ _ _ ?_
  exact offHead_rFlt (by omega)

theorem trajToPort (h : RasKept s t) (port : Nat) (f : EthFrame) : RasKept s (t.trajToPort port f).1 := by
  unfold State.trajToPort
  split
  · exact h.upd rfl rfl
  · exact h.bump (offHead_rEth (by omega))

/-- The second port takes the frame only when it is duplicated. -/
theorem trajToSecond {p : Prop} [Decidable p] (h : RasKept s t) (port : Nat) (f : EthFrame) :
    RasKept s (if p then t.trajToPort port f else (t, false)).1 := by
  split
  · exact h.trajToPort port f
  · exact h

theorem trajSend (h : RasKept s t) (payload : List Byte) (seq : Nat) : RasKept s (t.trajSend payload seq) := by
  have hsrc : RasKept s (trajSource t).2 := h.upd rfl rfl
  unfold State.trajSend
  dsimp only
  generalize (trajSource t).2 = u at *
  refine ite (fun _ => ?_) fun _ => RasKept.orWord (RasKept.bump ?_ (offHead_rEth (o := 0x10) (by omega))) 8 (offHead_rEth (o := 0) (by omega))
  all_goals exact trajToSecond (hsrc.trajToPort _ _) _ _

theorem wpeFrame (h : RasKept s t) (cmd flags result : Nat) (plan : Option Traj) (heel : Traj) :
    RasKept s (t.wpeFrame cmd flags result plan heel) := by
  unfold State.wpeFrame
  dsimp only
  generalize hb : framePayload _ _ _ _ _ _ _ _ _ = body
  have hlen : (body ++ leBytes 4 (crc32c body)).length = 748 := by
    rw [List.length_append, leBytes_length, ← hb, framePayload_length]
  exact trajSend (RasKept.bump (h.setRegBytes (k := bWPE) _ (by decide) (by omega)) (offHead_rWpe (o := 0x128) (by omega))) _ _

theorem heelEngage (h : RasKept s t) : RasKept s t.heelEngage := by
  have engage (x : Traj) {u : State} (hu : RasKept s u) : RasKept s (u.engageWith x) :=
    wpeFrame ((((hu.upd (u := { u with wpe.engaged := some x }) rfl rfl).setBit 6 true (offHead_rWpe (o := 4) (by omega))).orWord 0x200
      (offHead_rWpe (o := 8) (by omega))).setFld 31 24 0 (offHead_rWpe (o := 4) (by omega))) _ _ _ _ _
  have hlatched : RasKept s t.latchedOrFree.2 := by
    unfold State.latchedOrFree
    split
    · exact h
    · exact h.upd rfl rfl
  unfold State.heelEngage
  cases t.wpe.heel with
  | none => exact engage _ hlatched
  | some x =>
    by_cases valid : t.heelValid x = true
    · simp only [valid, if_true]
      exact engage x h
    · simp only [valid]
      exact engage _ hlatched

theorem faultEv (h : RasKept s t) {ev : FaultEv} (hc : ev.cls ≤ 5) : RasKept s (t.faultEv ev) := by
  have hcollect : RasKept s (t.collect { ev with inj := ev.inj || t.awl.inj }) := h.collect hc
  exact ite (fun _ => hcollect.heelEngage) fun _ => hcollect

theorem fault (h : RasKept s t) (src : Nat) {cls : Nat} (hc : cls ≤ 5) (m : Master) (unit info : Nat) :
    RasKept s (t.fault src cls m unit info) := h.faultEv hc

theorem faultAt (h : RasKept s t) (src : Nat) {cls : Nat} (hc : cls ≤ 5) (m : Master) (unit info access addr : Nat) :
    RasKept s (t.faultAt src cls m unit info access addr) := h.faultEv hc

theorem accessFault (h : RasKept s t) (m : Master) (access addr : Nat) : RasKept s (t.accessFault m access addr) :=
  h.faultAt 0x26 (by omega) m 0 0 access addr

end RasKept

end Sys2Proof.Machine
end

section
/-! PROOF. What memory, translation, the queues and a release leave alone: the raster front ends. -/

namespace Sys2Proof.Machine

theorem State.lpCtrl_lt (s : State) (r d : Nat) : s.lpCtrl r d < 4 := by
  have hmem (ms : List Nat) (k : Nat) (hms : ∀ x ∈ ms, x < 4) : ms.getD k 0 < 4 := by
    rcases Nat.lt_or_ge k ms.length with hk | hk
    · rw [List.getD_eq_getElem _ _ hk]
      exact hms _ (List.getElem_mem hk)
    · rw [List.getD_eq_default _ _ hk]
      omega
  exact hmem _ _ fun x hx => List.mem_range.mp (List.mem_filter.mp hx).1

theorem offHead_memCntBase (kind unit : Nat) : offHead (memCntBase kind unit + 4) := by
  unfold memCntBase
  split
  all_goals exact offHead_rMem (o := _ + 4) (by omega)

namespace RasKept

variable {s t u : State}

/-! Memory (R394 to R410, R611). -/

theorem memRecord (h : RasKept s t) (type kind unit cls addr master owner flags syn : Nat) :
    RasKept s (t.memRecord type kind unit cls addr master owner flags syn) := by
  unfold State.memRecord
  dsimp only
  generalize hu : t.store _ _ = u
  have k : RasKept s u := h.upd (by rw [← hu]; rfl) (by rw [← hu]; rfl)
  exact (k.setWord _ (offHead_rMem (o := 0x30) (by omega))).upd rfl rfl

theorem memRecordAt (h : RasKept s t) (type cls a master syn : Nat) : RasKept s (t.memRecordAt type cls a master syn) :=
  h.memRecord ..

theorem poisonGran (h : RasKept s t) (a : Nat) (m : Master) : RasKept s (t.poisonGran a m) := by
  have put (p : List Nat) : RasKept s { t with poison := p } := h.upd rfl rfl
  unfold State.poisonGran
  refine ite (fun _ => h) fun _ => ?_
  dsimp only
  split
  · next r d _ =>
    have hc := t.lpCtrl_lt r d
    refine ite (fun _ => put _) fun _ => ite (fun _ => put _) fun _ => ?_
    exact ((((h.memRecordAt 8 3 a m.toNat 0).orWord 0x20 (offHead_rMem (o := 0) (by omega))).setBit 16 true (offHead_rMem (by omega))).bump
      (offHead_rMem (by omega))).faultAt 0x15 (by omega) ..
  · exact put _

theorem poisonRange (h : RasKept s t) (a n : Nat) (m : Master) : RasKept s (t.poisonRange a n m) :=
  foldl (fun _ g k => k.poisonGran g m) _ h

theorem memUE (h : RasKept s t) (type a : Nat) (m : Master) (access syn : Nat) : RasKept s (t.memUE type a m access syn) := by
  have hcls : t.ueClass a ≤ 5 := by
    unfold State.ueClass
    split <;> omega
  unfold State.memUE
  generalize t.memUnit a = ku
  obtain ⟨kind, unit⟩ := ku
  have counted : RasKept s (if kind = 4 then t.poisonGran a m else (t.poisonGran a m).bump (memCntBase kind unit + 4)) :=
    ite (fun _ => h.poisonGran a m) fun _ => (h.poisonGran a m).bump (offHead_memCntBase kind unit)
  exact ((counted.memRecordAt ..).orWord _ (offHead_rMem (o := 0) (by omega))).faultAt 0x14 hcls ..

theorem memPut (h : RasKept s t) (m : Master) (a : Nat) (l : List Byte) (bad : Bool) : RasKept s (t.memPut m a l bad) := by
  have stored : RasKept s (t.store a l) := h.upd rfl rfl
  have met (gs : List Nat) : RasKept s (gs.foldl (fun s g => s.memUE 6 g m 2 0) (t.store a l)) :=
    foldl (fun _ g k => k.memUE 6 g m 2 0) gs stored
  exact ite (fun _ => (met _).poisonRange ..) fun _ => met _

theorem winFault (h : RasKept s t) (m : Master) {cls : Nat} (hc : cls ≤ 5) (w access a : Nat) :
    RasKept s (t.winFault m cls w access a) := (h.orWord 8 (offHead_rSec (o := 4) (by omega))).faultAt 0x24 hc ..

theorem dmaWrite (h : RasKept s t) (m : Master) (a : Nat) (l : List Byte) (bad : Bool) : RasKept s (t.dmaWrite m a l bad).1 := by
  unfold State.dmaWrite
  split
  · split
    · exact h.upd rfl rfl
    · exact h.accessFault ..
    · split
      · exact h.winFault m (by omega) ..
      · exact h.memPut ..
  · exact h.accessFault ..
  · exact h.faultAt 0x0E (by omega) ..

/-! Translation (R446 to R450). -/

theorem atuFault (h : RasKept s t) {i : Nat} (hi : i < 64) (m : Master) (acc va cause stage : Nat) :
    RasKept s (t.atuFault i m acc va cause stage) := by
  unfold State.atuFault
  dsimp only
  generalize hr : leBytes 4 t.atu.frecs ++ _ ++ _ ++ _ ++ _ ++ _ ++ _ ++ _ ++ _ = rcd
  have hlen : rcd.length = 32 := by simp [← hr, leBytes_length, zeroBytes]
  have recorded : RasKept s ((t.setRegBytes (rAtu (0x1000 + t.atu.frecs % 64 * 32)) rcd).setWord (rAtu 0x24) t.atu.frecs) :=
    (h.setRegBytes (k := bATU) rcd (by decide) (by omega)).setWord _ (offHead_rAtu (by omega))
  refine RasKept.faultAt ?_ 0x19 (by split <;> omega) ..
  exact (((recorded.upd (u := { (t.setRegBytes (rAtu (0x1000 + t.atu.frecs % 64 * 32)) rcd).setWord (rAtu 0x24) t.atu.frecs with
    atu.frecs := (t.atu.frecs + 1) % 2 ^ 32 }) rfl rfl).bump (offHead_rAtu (o := 0x28) (by omega))).bump
      (offHead_rAtu (o := 0x10000 + i * 0x40 + 0x20) (by omega))).orWord _ (offHead_rAtu (o := 4) (by omega))

/-- The end of a translation: the ownership rules of its page (R449). -/
theorem ownOrFault (h : RasKept s t) {i : Nat} (hi : i < 64) (m : Master) (acc va pa : Nat) {r : State × Option Nat}
    (e : r = if t.ownOk i pa then (t, some pa) else (t.atuFault i m acc va 3 2, none)) : RasKept s r.1 := by
  rw [e]
  split
  · exact h
  · exact h.atuFault hi ..

theorem xlatBy (h : RasKept s t) {i : Nat} (hi : i < 64) (m : Master) (acc va : Nat) (s2only : Bool) :
    RasKept s (t.xlatBy i m acc va s2only).1 := by
  have drawn : RasKept s t.takeFree.2 := h.upd rfl rfl
  unfold State.xlatBy
  dsimp only
  split
  · refine ownOrFault ?_ hi m acc va _ rfl
    exact ite (fun _ => h) fun _ => h.upd rfl rfl
  · split
    · exact ownOrFault h hi m acc va _ rfl
    · split
      · exact ownOrFault drawn hi m acc va _ rfl
      · refine ownOrFault ?_ hi m acc va _ rfl
        exact drawn.upd rfl rfl
  · exact h.atuFault hi ..
  · split
    · exact ownOrFault drawn hi m acc va _ rfl
    · exact drawn.atuFault hi ..

theorem hartAccess (h : RasKept s t) {i : Nat} (hi : i < 64) (m : Master) (acc a : Nat) : RasKept s (t.hartAccess i m acc a).1 := by
  unfold State.hartAccess
  split
  · exact h.accessFault ..
  · exact ownOrFault h hi m acc a a rfl

theorem xlat (h : RasKept s t) (inst : Option (Fin 64)) (m : Master) (acc va : Nat) : RasKept s (t.xlat inst m acc va).1 := by
  unfold State.xlat
  split
  · exact h
  · next i =>
    split
    · exact h.hartAccess i.isLt ..
    · exact h.xlatBy i.isLt ..

theorem wrV (h : RasKept s t) (inst : Option (Fin 64)) (m : Master) (va : Nat) (l : List Byte) (bad : Bool) :
    RasKept s (t.wrV inst m va l bad).1 := by
  have k := h.xlat inst m 2 va
  unfold State.wrV
  split
  · next u e => rwa [e] at k
  · next u pa e =>
    rw [e] at k
    have w := k.dmaWrite m pa l bad
    split
    · next v e' => rwa [e'] at w
    · next v e' => rwa [e'] at w

/-! Queues (R460 to R468). -/

theorem setQueue (h : RasKept s t) (q : Nat) (x : HqmQ) : RasKept s (t.setQueue q x) := h.upd rfl rfl

theorem qerr (h : RasKept s t) (q row : Nat) (m : Master) (inst : Option (Fin 64)) (v : Nat) : RasKept s (t.qerr q row m inst v) := by
  have counted : RasKept s ((t.bump (rHqm 0x24)).orWord (rHqm 4) 1) :=
    (h.bump (offHead_rHqm (by omega))).orWord 1 (offHead_rHqm (by omega))
  exact (ite (fun _ => counted) fun _ => counted.setWord64 _ (offHead_rHqm (o := 0x28) (by omega))
    (offHead_rHqm (o := 0x2C) (by omega))).fault 0x1A (by omega) ..

theorem notifyDrop (h : RasKept s t) : RasKept s t.notifyDrop := h.bump (offHead_rHqm (o := 0x24) (by omega))

theorem notify (h : RasKept s t) (x : HqmQ) : RasKept s (t.notify x) := by
  unfold State.notify
  dsimp only
  split
  · exact h
  · exact ite (fun _ => h.notifyDrop) fun _ => h.upd rfl rfl
  · exact ite (fun _ => h.notifyDrop) fun _ => ite (fun _ => h.upd rfl rfl) fun _ => h.upd rfl rfl
  · exact ite (fun _ => h.notifyDrop) fun _ => h.upd rfl rfl

theorem advanceTail (h : RasKept s t) (q : Nat) (x : HqmQ) (i : Nat) : RasKept s (t.advanceTail q x i) :=
  have moved : RasKept s (t.setQueue q { x with tail := i }) := h.setQueue ..
  (ite (p := (bitOf x.flags 3 && (x.count = 0 || bitOf x.flags 4)) = true) (fun _ => moved.notify x) fun _ => moved).upd rfl rfl

theorem post (h : RasKept s t) (q gen : Nat) (data : List Byte) : RasKept s (t.post q gen data).1 := by
  unfold State.post
  split
  · exact h.qerr q 1 mHqm none 0
  · next x _ =>
    dsimp only
    split
    · exact h.bump (offHead_rHqm (by omega))
    · split
      · exact h.qerr q 5 mHqm (asInst x.owner) 0
      · split
        · exact h
        · split
          · exact h.qerr q 3 mHqm (asInst x.owner) 0
          · have w := h.wrV (asInst x.owner) mHqm (x.base + x.tail % x.size * x.entryBytes) (sliceBytes data 0 x.entryBytes) false
            split
            · next u e =>
              rw [e] at w
              exact w.advanceTail q x ((x.tail + 1) % 2 ^ 17)
            · next u _ e =>
              rw [e] at w
              exact ((w.setQueue q { x with faulted := true }).orWord 2 (offHead_rHqm (o := 4) (by omega))).qerr q 5 mHqm (asInst x.owner) 0

end RasKept

/-! A release writes registers of the Clicker and of MHS, and no state of the front ends (R289). -/

section

variable (s : State)

@[simp] theorem State.showSlot_ras (n : Nat) : (s.showSlot n).ras = s.ras := rfl

theorem State.relRefuse_ras (n : Nat) (m : Master) : (s.relRefuse n m).ras = s.ras :=
  ((RasKept.refl (((s.setBit (rRelSlot n 0x1C) 5 true).bump (rRelSlot n 0x24)).orWord rClcIrq 2)).accessFault m 2 _).ras

theorem State.complete_ras (r : ClcRel) (status stage restarts ckpts : Nat) : (s.complete r status stage restarts ckpts).ras = s.ras := by
  unfold State.complete
  dsimp only
  generalize hu : (if status = 0 || status = 6 then s.setFld (rRelSlot r.slot 0x1C) 15 8 status
    else (s.setFld (rRelSlot r.slot 0x1C) 15 8 status).orWord rClcIrq 1) = u
  have hras : u.ras = s.ras := by
    rw [← hu]
    split <;> rfl
  generalize ClcPost.mk _ _ _ = p
  have hpost : (u.postCq p).1.ras = u.ras := ((RasKept.refl u).post ..).ras
  split
  · exact hras
  · split
    · next v e => rw [e] at hpost; exact hpost.trans hras
    · next v r _ e => rw [e] at hpost; exact hpost.trans hras

theorem State.startStage_ras (slot side stage : Nat) : (s.startStage slot side stage).ras = s.ras := by
  unfold State.startStage
  split
  · rfl
  · split
    · rfl
    · split <;> rfl

theorem State.startJob_ras (r : ClcRel) : (s.startJob r).ras = s.ras := by
  unfold State.startJob
  dsimp only
  split
  · rw [State.showSlot_ras, State.complete_ras]
  · simp only [State.showSlot_ras, apply_ite State.ras, State.startStage_ras, ite_self]

theorem State.release_ras (n : Nat) (m : Master) (may : Bool) (param target : Nat) : (s.release n m may param target).1.ras = s.ras := by
  unfold State.release
  dsimp only
  split
  · exact s.relRefuse_ras n m
  · split
    · exact s.relRefuse_ras n m
    · split
      · rw [State.startJob_ras]
        rfl
      · split
        · split <;> rfl
        · rfl

end

end Sys2Proof.Machine
end

section
/-! PROOF. A read that answers bytes without poison: it leaves translations cached, requests sent to a link partner and open values
taken, and nothing else (R31, R446, R448). -/

namespace Sys2Proof.Machine

/-- Nothing differs but the translations that are cached, the outputs and the open values taken. -/
def ReadOnly (s t : State) : Prop := ∃ a o n, t = { s with atu := a, out := o, free := n }

namespace ReadOnly

variable {s t u : State}

theorem refl (s : State) : ReadOnly s s := ⟨_, _, _, rfl⟩

theorem trans (h : ReadOnly s t) (k : ReadOnly t u) : ReadOnly s u := by
  obtain ⟨_, _, _, rfl⟩ := h
  obtain ⟨_, _, _, rfl⟩ := k
  exact ⟨_, _, _, rfl⟩

theorem regs (h : ReadOnly s t) : t.regs = s.regs := by obtain ⟨_, _, _, rfl⟩ := h; rfl

theorem mem (h : ReadOnly s t) : t.mem = s.mem := by obtain ⟨_, _, _, rfl⟩ := h; rfl

theorem ras (h : ReadOnly s t) : t.ras = s.ras := by obtain ⟨_, _, _, rfl⟩ := h; rfl

/-- The end of a translation, when it gives an address. -/
theorem of_own {i : Nat} {m : Master} {acc va pa p : Nat} (h : ReadOnly s t)
    (e : (if t.ownOk i pa then (t, some pa) else (t.atuFault i m acc va 3 2, none)) = (u, some p)) : ReadOnly s u := by
  split at e
  · cases e
    exact h
  · cases e

theorem xlatBy {i : Nat} {m : Master} {acc va p : Nat} {b : Bool} (e : s.xlatBy i m acc va b = (u, some p)) : ReadOnly s u := by
  have drawn : ReadOnly s s.takeFree.2 := ⟨_, _, _, rfl⟩
  unfold State.xlatBy at e
  dsimp only at e
  split at e
  · refine of_own ?_ e
    split
    · exact .refl s
    · exact ⟨_, _, _, rfl⟩
  · split at e
    · exact of_own (.refl s) e
    · split at e
      · exact of_own drawn e
      · refine of_own ?_ e
        exact ⟨_, _, _, rfl⟩
  · cases e
  · split at e
    · exact of_own drawn e
    · cases e

theorem xlat {inst : Option (Fin 64)} {m : Master} {acc va p : Nat} (e : s.xlat inst m acc va = (u, some p)) : ReadOnly s u := by
  unfold State.xlat at e
  split at e
  · cases e
    exact .refl s
  · split at e
    · unfold State.hartAccess at e
      split at e
      · cases e
      · exact of_own (.refl s) e
    · exact xlatBy e

end ReadOnly

/-- A fold whose flag, once set, stays set, and whose steps that leave it clear leave the state, leaves the state when the flag ends clear. -/
theorem foldl_state_of_flag {α β γ : Type} {f : α × β × Bool → γ → α × β × Bool}
    (hf : ∀ x p, (f x p).2.2 = false → (f x p).1 = x.1 ∧ x.2.2 = false) :
    ∀ (l : List γ) (x : α × β × Bool), (l.foldl f x).2.2 = false → (l.foldl f x).1 = x.1 ∧ x.2.2 = false
  | [], _, h => ⟨rfl, h⟩
  | p :: r, x, h =>
    let ⟨e, hb⟩ := foldl_state_of_flag hf r (f x p) h
    let ⟨e', hb'⟩ := hf x p hb
    ⟨e.trans e', hb'⟩

/-- A decryption window that has no key gives poison (R611, R612): without it, nothing has been recorded. -/
theorem State.windowRead_clean {s u : State} {m : Master} {a n : Nat} {l : List Byte} (e : s.windowRead m a n = (u, l, false)) : u = s := by
  unfold State.windowRead at e
  dsimp only at e
  split at e
  · exact (congrArg Prod.fst e).symm
  · have hclean := congrArg (fun x => x.2.2) e
    have hstate := congrArg Prod.fst e
    refine hstate.symm.trans (foldl_state_of_flag (fun x p hp => ?_) _ _ hclean).1
    obtain ⟨v, d, b⟩ := x
    dsimp only at hp ⊢
    split
    · next hw => rw [hw] at hp; exact ⟨rfl, hp⟩
    · next w hw =>
      rw [hw] at hp
      dsimp only at hp
      split
      · next hk => rw [hk] at hp; cases hp
      · next hk => rw [hk] at hp; exact ⟨rfl, hp⟩

namespace ReadOnly

variable {s u : State} {m : Master} {a n : Nat} {l : List Byte}

theorem dmaRead (e : s.dmaRead m a n = (u, some (l, false))) : ReadOnly s u := by
  unfold State.dmaRead at e
  split at e
  · split at e
    · cases e
      exact ⟨_, _, _, rfl⟩
    · cases e
    · cases e
      exact ⟨_, _, _, rfl⟩
    · rcases hr : s.windowRead m a n with ⟨v, d⟩
      rw [hr] at e
      cases e
      rw [State.windowRead_clean hr]
      exact .refl s
  · cases e
  · cases e

theorem rdV {inst : Option (Fin 64)} {acc : Nat} (e : s.rdV inst m acc a n = (u, .ok (l, false))) : ReadOnly s u := by
  unfold State.rdV at e
  split at e
  · cases e
  · next t pa hx =>
    split at e
    · cases e
    · next v r hd =>
      cases e
      exact (xlat hx).trans (dmaRead hd)

end ReadOnly

variable {s u : State} {f want : Nat} {l : List Byte}

/-- A command that is read comes of a running front end, whose read leaves the rest of the state (R361, R362). -/
theorem State.feFetch_some (h : s.feFetch f want = (u, some l)) : ReadOnly s u := by
  unfold State.feFetch at h
  split at h
  · cases h
  · split at h
    · cases h
    · next t d bad hr =>
      dsimp only at h
      split at h
      · cases h
      · next hgood =>
        split at h
        · cases h
        · split at h
          · cases h
          · cases h
            rw [Bool.not_eq_true] at hgood
            subst hgood
            exact .rdV hr

theorem State.feFetch_idle (h : s.feRuns f = false) (want : Nat) : s.feFetch f want = (s, none) := if_pos (by simp [h])

end Sys2Proof.Machine
end

section
/-! PROOF. What the front ends do with the command at HEAD, once it is read (R361, R362, R369). -/

namespace Sys2Proof.Machine

@[simp] theorem rFe_inj {f o p : Nat} : rFe f o = rFe f p ↔ o = p := by
  simp only [rFe]
  omega

@[simp] theorem rSys_ne_rFe {f o : Nat} : rSys 4 ≠ rFe f o := by
  simp only [rFe, rSys, blkBase, bSYS, bRAS]
  omega

theorem RegsOnly.ras {l : List Nat} {s t : State} (h : RegsOnly l s t) : t.ras = s.ras := by
  obtain ⟨r, rfl⟩ := h.rest
  rfl

/-! Bytes that must be 0 (R362). -/

theorem leNat_zeroBytes (n : Nat) : leNat (zeroBytes n) = 0 := by
  induction n with
  | zero => rfl
  | succ n ih => rw [zeroBytes, List.replicate_succ, leNat, ← zeroBytes, ih]; rfl

theorem leAt_eq (l : List Byte) (o n : Nat) : leAt l o n = leNat ((l.drop o).take n) := by
  rw [leAt, sliceBytes, leNat_append, leNat_zeroBytes, Nat.mul_zero, Nat.add_zero]

/-- Neighbouring bytes are 0 together. -/
theorem zeroAt_add (l : List Byte) (o a b : Nat) : zeroAt l o (a + b) = (zeroAt l o a && zeroAt l (o + a) b) := by
  rw [zeroAt, zeroAt, zeroAt, leAt_eq, leAt_eq, leAt_eq, List.take_add, leNat_append, List.drop_drop, Bool.eq_iff_iff]
  simp

variable {s t u v : State} {f want e : Nat} {l : List Byte} {zeros : List (Nat × Nat)} {go : State → List Byte → State × Nat}

/-! Running a command. -/

theorem State.feRun_idle (h : s.feRuns f = false) : s.feRun f want zeros go = s := by
  rw [State.feRun, State.feFetch_idle h]

theorem State.feRun_badBytes (h : s.feFetch f want = (u, some l))
    (hz : (!zeroAt l 1 3 || zeros.any fun p => !zeroAt l p.1 p.2) = true) : s.feRun f want zeros go = u.feError f 2 := by
  rw [State.feRun, h]
  exact if_pos hz

theorem State.feRun_done (h : s.feFetch f want = (u, some l)) (hz : (!zeroAt l 1 3 || zeros.any fun p => !zeroAt l p.1 p.2) = false)
    (hgo : go u l = (v, 0)) : s.feRun f want zeros go = v.feNext f := by
  simp only [State.feRun, h, hz, hgo]
  rfl

theorem State.feRun_stops (h : s.feFetch f want = (u, some l)) (hz : (!zeroAt l 1 3 || zeros.any fun p => !zeroAt l p.1 p.2) = false)
    (hgo : go u l = (v, e)) (he : e ≠ 0) : s.feRun f want zeros go = v.feError f e := by
  obtain ⟨k, rfl⟩ := Nat.exists_eq_succ_of_ne_zero he
  simp only [State.feRun, h, hz, hgo]
  rfl

theorem accCode_range (x : AccErr) : 4 ≤ accCode x ∧ accCode x < 16 := by
  cases x <;> decide

/-! The next command. -/

section

variable (h : regsWf s.regs = true) (f : Nat)
include h

theorem State.feShow_word {a : Nat} (ha : a ≠ rFe f 0x18) : (s.feShow f).word a = s.word a := State.word_setFld_other h _ _ _ ha

theorem State.feShow_bit {k : Nat} (hk : k < 32) (hne : k ≠ 0) : (s.feShow f).bit (rFe f 0x18) k = s.bit (rFe f 0x18) k :=
  State.bit_setBit_apart h _ hk hne

/-- Whether a front end runs does not hang on STATUS.BUSY, which tells it. -/
theorem State.feShow_busy : (s.feShow f).bit (rFe f 0x18) 0 = (s.feShow f).feRuns f := by
  have hruns : (s.feShow f).feRuns f = s.feRuns f := by
    have word {a : Nat} (ha : a ≠ rFe f 0x18) : (s.feShow f).word a = s.word a := s.feShow_word h f ha
    rw [State.feRuns, State.feRuns, State.feShow_bit h f (by omega) (by omega), State.bit_congr (word (by simp)),
      State.fld_congr (word (by simp)), State.fld_congr (word (by simp)), State.fld_congr (word (by simp))]
  exact (State.bit_setBit_same h _ (by omega)).trans hruns.symm

end

theorem RegsOnly.feShow {l : List Nat} (h : RegsOnly l s t) (ha : rFe f 0x18 ∈ l) : RegsOnly l s (t.feShow f) := h.setBit _ _ ha

/-- HEAD and STATUS are the registers that a consumed command writes. -/
theorem State.feNext_effect (h : regsWf s.regs = true) (f : Nat) :
    (s.feNext f).fld (rFe f 0x14) 15 0 = (s.fld (rFe f 0x14) 15 0 + 1) % 65536 ∧ (s.feNext f).bit (rFe f 0x18) 1 = false ∧
      (s.feNext f).bit (rFe f 0x18) 2 = s.bit (rFe f 0x18) 2 ∧ RegsOnly [rFe f 0x14, rFe f 0x18] s (s.feNext f) := by
  rw [State.feNext]
  generalize hv : s.setFld (rFe f 0x14) 15 0 (s.fld (rFe f 0x14) 15 0 + 1) = v
  have hhead : RegsOnly [rFe f 0x14, rFe f 0x18] s v := hv ▸ (RegsOnly.refl h).setFld _ _ _ (by simp)
  have hw : RegsOnly [rFe f 0x14, rFe f 0x18] s (v.setBit (rFe f 0x18) 1 false) := hhead.setBit _ _ (by simp)
  refine ⟨?_, ?_, ?_, hw.feShow (by simp)⟩
  · rw [State.fld_congr (State.feShow_word hw.wf f (by simp)), State.setBit, State.fld_setFld_other hhead.wf _ _ _ _ _ (by simp), ← hv]
    exact State.fld_setFld_same h _ (by omega) (by omega)
  · rw [State.feShow_bit hw.wf f (by omega) (by omega), State.bit_setBit_same hhead.wf _ (by omega)]
  · rw [State.feShow_bit hw.wf f (by omega) (by omega), State.bit_setBit_apart hhead.wf _ (by omega) (by omega), ← hv]
    exact State.bit_congr (State.word_setFld_other h _ _ _ (by simp)) 2

/-- TAIL is written, and BUSY follows it. -/
theorem State.tailWrite_effect (h : regsWf s.regs = true) (f : Nat) (x : BitVec 16) :
    let t := (s.setFld (rFe f 0x10) 15 0 x.toNat).feShow f
    t.fld (rFe f 0x10) 15 0 = x.toNat ∧ t.bit (rFe f 0x18) 0 = t.feRuns f ∧ RegsOnly [rFe f 0x10, rFe f 0x18] s t := by
  have htail : RegsOnly [rFe f 0x10, rFe f 0x18] s (s.setFld (rFe f 0x10) 15 0 x.toNat) := (RegsOnly.refl h).setFld _ _ _ (by simp)
  refine ⟨?_, State.feShow_busy htail.wf f, htail.feShow (by simp)⟩
  rw [State.fld_congr (State.feShow_word htail.wf f (by simp)), State.fld_setFld_same h _ (by omega) (by omega)]
  exact Nat.mod_eq_of_lt x.isLt

/-! Restart (R369). -/

theorem State.feRestart_running (h : s.bit (rFe f 0x18) 2 = false) (head : Nat) : s.feRestart f head = s := if_pos (by simp [h])

theorem State.feRestart_stopped (h : s.bit (rFe f 0x18) 2 = true) (head : Nat) :
    s.feRestart f head = ((s.setFld (rFe f 0x14) 15 0 head).setFld (rFe f 0x18) 7 0 0).feShow f := if_neg (by simp [h])

/-- A field is 0 when its bits are. -/
theorem State.fld_eq_zero {a hi lo : Nat} (h : ∀ k, lo ≤ k → k ≤ hi → s.bit a k = false) : s.fld a hi lo = 0 := by
  refine Nat.eq_of_testBit_eq fun i => ?_
  rw [State.fld, testBit_bitsOf, Nat.zero_testBit]
  by_cases hi' : i < hi + 1 - lo
  · have e := h (lo + i) (by omega) (by omega)
    rw [State.bit, bitOf_eq] at e
    rw [e, Bool.and_false]
  · simp [hi']

/-- HEAD is where it was put, the error is cleared, and BUSY tells whether the front end runs. -/
theorem State.feRestart_effect (h : regsWf s.regs = true) (hstop : s.bit (rFe f 0x18) 2 = true) (head : Nat) :
    (s.feRestart f head).fld (rFe f 0x14) 15 0 = head % 65536 ∧ (∀ k, 1 ≤ k → k ≤ 7 → (s.feRestart f head).bit (rFe f 0x18) k = false) ∧
      (s.feRestart f head).bit (rFe f 0x18) 0 = (s.feRestart f head).feRuns f ∧
      RegsOnly [rFe f 0x14, rFe f 0x18] s (s.feRestart f head) := by
  rw [State.feRestart_stopped hstop]
  have hhead : RegsOnly [rFe f 0x14, rFe f 0x18] s (s.setFld (rFe f 0x14) 15 0 head) := (RegsOnly.refl h).setFld _ _ _ (by simp)
  have hclear := hhead.setFld 7 0 0 (a := rFe f 0x18) (by simp)
  refine ⟨?_, fun k hk hk7 => ?_, State.feShow_busy hclear.wf f, hclear.feShow (by simp)⟩
  · rw [State.fld_congr (State.feShow_word hclear.wf f (by simp)), State.fld_setFld_other hhead.wf _ _ _ _ _ (by simp)]
    exact State.fld_setFld_same h _ (by omega) (by omega)
  · rw [State.feShow_bit hclear.wf f (by omega) (by omega), State.bit_setFld_inside hhead.wf _ (by omega) hk7 (by omega), bitOf_eq,
      Nat.zero_testBit]

/-- SKIP clears the error, whatever BUSY then says. -/
theorem State.skip_effect (h : regsWf s.regs = true) (hstop : s.bit (rFe f 0x18) 2 = true) (head : Nat) :
    (s.feRestart f head).fld (rFe f 0x18) 7 1 = 0 :=
  have ⟨_, hclear, _, _⟩ := State.feRestart_effect h hstop head
  State.fld_eq_zero hclear

/-- A front end whose HEAD is TAIL does not run (R361). -/
theorem State.feRuns_drained (h : s.fld (rFe f 0x14) 15 0 = s.fld (rFe f 0x10) 15 0) : s.feRuns f = false := by
  simp [State.feRuns, h]

/-- FLUSH leaves nothing to consume. -/
theorem State.flush_effect (h : regsWf s.regs = true) (hstop : s.bit (rFe f 0x18) 2 = true) :
    (s.feRestart f (s.fld (rFe f 0x10) 15 0)).fld (rFe f 0x14) 15 0 = s.fld (rFe f 0x10) 15 0 ∧
      (s.feRestart f (s.fld (rFe f 0x10) 15 0)).fld (rFe f 0x18) 7 0 = 0 := by
  obtain ⟨hhead, hclear, hbusy, honly⟩ := State.feRestart_effect h hstop (s.fld (rFe f 0x10) 15 0)
  have hlt : s.fld (rFe f 0x10) 15 0 < 65536 := Nat.mod_lt _ (by decide)
  rw [Nat.mod_eq_of_lt hlt] at hhead
  refine ⟨hhead, State.fld_eq_zero fun k _ hk => ?_⟩
  rcases Nat.eq_zero_or_pos k with rfl | hpos
  · rw [hbusy]
    exact State.feRuns_drained (hhead.trans (honly.fld _ _ (by simp)).symm)
  · exact hclear k hpos hk

end Sys2Proof.Machine
end

section
/-! PROOF. What a front end that stops, an event and a waiting event leave (R369, R370). -/

namespace Sys2Proof.Machine

variable {s t u : State} {f : Nat}

/-! The state of one front end beside its registers. -/

theorem State.feOf_congr (h : t.ras = s.ras) (f : Nat) : t.feOf f = s.feOf f := by rw [State.feOf, h, State.feOf]

theorem State.feOf_setFe (hf : f < s.ras.fe.length) (x : RasFe) : (s.setFe f x).feOf f = x := by
  simp [State.feOf, State.setFe, setAt, hf]

/-- A front end that the machine does not have has no pass. -/
theorem State.pass_setFe_events (s : State) (f : Nat) (l : List (Nat × List Byte)) :
    ((s.setFe f { s.feOf f with events := l }).feOf f).pass = (s.feOf f).pass := by
  rcases Nat.lt_or_ge f s.ras.fe.length with hf | hf
  · rw [State.feOf_setFe hf]
  · simp [State.feOf, State.setFe, setAt, hf]

theorem State.pass_setPass_none (s : State) (f : Nat) : ((s.setPass f none).feOf f).pass = none := by
  rcases Nat.lt_or_ge f s.ras.fe.length with hf | hf
  · exact congrArg RasFe.pass (State.feOf_setFe hf _)
  · simp [State.feOf, State.setPass, State.setFe, setAt, hf]

theorem State.feOf_setPass (hf : f < s.ras.fe.length) (p : Option RasPass) : (s.setPass f p).feOf f = ⟨p, (s.feOf f).events⟩ :=
  State.feOf_setFe hf _

/-- A register of a front end past its STATUS. -/
theorem offHead_rFe {o : Nat} (ho : 0x18 < o) (ho' : o < 0x54) : offHead (rFe f o) := by
  intro g hg
  simp only [rFe]
  omega

/-! An event (R370). -/

/-- The pass of a front end and HEAD are kept. -/
structure PassKept (f : Nat) (s t : State) : Prop where
  pass : (t.feOf f).pass = (s.feOf f).pass
  head : HeadKept s t

namespace PassKept

theorem trans (h : PassKept f s t) (k : PassKept f t u) : PassKept f s u := ⟨k.pass.trans h.pass, h.head.trans k.head⟩

theorem of_ras (h : RasKept s t) : PassKept f s t := ⟨congrArg RasFe.pass (State.feOf_congr h.ras f), h.head⟩

theorem setEvents (s : State) (f : Nat) (l : List (Nat × List Byte)) : PassKept f s (s.setFe f { s.feOf f with events := l }) :=
  ⟨s.pass_setFe_events f l, .of_regs rfl⟩

theorem dropCounted (s : State) (f : Nat) : PassKept f s (s.bump (rFe f 0x38)) :=
  ⟨rfl, .setWord s _ (offHead_rFe (by omega) (by omega))⟩

theorem feEvent (s : State) (f type code id : Nat) : PassKept f s (s.feEvent f type code id) := by
  unfold State.feEvent
  dsimp only
  split
  · exact setEvents s f _
  · split
    · exact dropCounted s f
    · generalize leBytes 1 type ++ _ ++ _ ++ _ ++ _ ++ _ ++ _ ++ _ = rcd
      next q x _ =>
      have hpost : PassKept f s (s.post q x.gen rcd).1 := of_ras ((RasKept.refl s).post q x.gen rcd)
      split
      · next u e =>
        rw [e] at hpost
        exact hpost.trans (setEvents u f _)
      · next u e =>
        rwa [e] at hpost
      · next u e =>
        rw [e] at hpost
        exact hpost.trans (dropCounted u f)

end PassKept

/-! A stop (R369). -/

/-- STATUS of a front end that stops. -/
def State.feHalt (s : State) (f code : Nat) : State := (s.setFld (rFe f 0x18) 7 4 code).setFld (rFe f 0x18) 2 0 4

theorem regReset_rFe_status : ∀ f < 2, regReset (rFe f 0x18) = 0 := by decide +kernel

/-- STATUS of a front end that stops is not 0. -/
theorem ofNat_setBitsOf_ne_reset (hf : f < 2) (w : Nat) {hi lo v : Nat} (hl : lo ≤ hi) (hhi : hi < 32) (hv : v % 2 ^ (hi + 1 - lo) ≠ 0) :
    BitVec.ofNat 32 (setBitsOf w hi lo v) ≠ regReset (rFe f 0x18) := by
  refine ne_of_bitsOf_ne (lo := lo) hhi ?_
  rw [regReset_rFe_status f hf, bitsOf_setBitsOf_same _ _ _ _ hl]
  simpa [bitsOf] using hv.symm

/-- STATUS of a front end that stops fences HEAD, which reads as before. -/
theorem State.feHalt_head (hf : f < 2) (s : State) {code : Nat} (h0 : 0 < code) (h16 : code < 16) :
    (s.feHalt f code).headFenced f ∧ (s.feHalt f code).word (rFe f 0x14) = s.word (rFe f 0x14) := by
  have hcode := ofNat_setBitsOf_ne_reset hf (s.word (rFe f 0x18)) (hi := 7) (lo := 4) (v := code) (by omega) (by omega) (by omega)
  have hstop := ofNat_setBitsOf_ne_reset hf ((s.setFld (rFe f 0x18) 7 4 code).word (rFe f 0x18)) (hi := 2) (lo := 0) (v := 4) (by omega)
    (by omega) (by omega)
  refine ⟨fenced_stPut_same (by simp [rFe]) hstop _, ?_⟩
  rw [State.feHalt, State.setFld, State.word_setWord_of_ne_reset hstop (by simp), State.setFld,
    State.word_setWord_of_ne_reset hcode (by simp)]

/-- What a stop does after STATUS: the event, and from error 4 on the end of the pass. -/
theorem State.feError_shape (s : State) (f code : Nat) : ∃ t id, RasKept (s.feHalt f code) t ∧
    s.feError f code = if code ≥ 4 then (t.feEvent f 1 code id).setPass f none else t.feEvent f 1 code id := by
  refine ⟨_, _, ?_, rfl⟩
  refine RasKept.fault (RasKept.orWord (RasKept.setWord64 (.refl _) _ ?_ ?_) _ ?_) _ (by omega) ..
  · exact offHead_rFe (by omega) (by omega)
  · exact offHead_rFe (o := 0x24) (by omega) (by omega)
  · intro g _
    simp only [rRasIrq, rFe]
    omega

/-- HEAD stays at the command that stopped the front end. -/
theorem State.feError_head (hf : f < 2) (s : State) {code : Nat} (h0 : 0 < code) (h16 : code < 16) :
    (s.feError f code).word (rFe f 0x14) = s.word (rFe f 0x14) := by
  obtain ⟨t, id, hkept, e⟩ := s.feError_shape f code
  obtain ⟨hfence, hword⟩ := s.feHalt_head hf h0 h16
  obtain ⟨-, hhead⟩ := (hkept.head.trans (PassKept.feEvent t f 1 code id).head) f hf hfence
  rw [e, ← hword, ← hhead]
  split <;> rfl

/-- A stop for an order of commands leaves the pass. -/
theorem State.feError_pass_kept (s : State) (f : Nat) {code : Nat} (h : code < 4) :
    ((s.feError f code).feOf f).pass = (s.feOf f).pass := by
  obtain ⟨t, id, hkept, e⟩ := s.feError_shape f code
  have hpass : t.feOf f = s.feOf f := State.feOf_congr hkept.ras f
  rw [e, if_neg (by omega), (PassKept.feEvent t f 1 code id).pass, hpass]

/-- A failed access ends the pass. -/
theorem State.feError_pass_ended (s : State) (f : Nat) {code : Nat} (h : 4 ≤ code) : ((s.feError f code).feOf f).pass = none := by
  obtain ⟨t, id, -, e⟩ := s.feError_shape f code
  rw [e, if_pos h, State.pass_setPass_none]

/-! Waiting events (R370). -/

variable {ty : Nat} {l : List Byte}

theorem State.feRetry_none (h : (s.feOf f).events = []) : s.feRetry f = s := by rw [State.feRetry, h, List.foldl_nil]

/-- The waiting entry of a TYPE goes. -/
def State.feDrop (s : State) (f ty : Nat) : State := s.setFe f { s.feOf f with events := fmDel (s.feOf f).events ty }

/-- No queue takes the events: the entry is discarded and counted. -/
theorem State.feRetry_absent (h : (s.feOf f).events = [(ty, l)]) (hq : s.feQueue f = none) :
    s.feRetry f = (s.feDrop f ty).bump (rFe f 0x38) := by
  rw [State.feRetry, h, List.foldl_cons, List.foldl_nil, hq]
  rfl

/-- What an entry's post leaves of it. -/
def State.fePosted (f ty : Nat) : State × PostResult → State
  | (u, .full) => u
  | (u, .done) => u.feDrop f ty
  | (u, .gone) => (u.feDrop f ty).bump (rFe f 0x38)

theorem State.feRetry_posted {q : Nat} {x : HqmQ} (h : (s.feOf f).events = [(ty, l)]) (hq : s.feQueue f = some (q, x)) :
    s.feRetry f = State.fePosted f ty (s.post q x.gen l) := by
  rw [State.feRetry, h, List.foldl_cons, List.foldl_nil, hq]
  dsimp only
  rcases s.post q x.gen l with ⟨u, r⟩
  cases r <;> rfl

theorem State.feDrop_events (hf : f < s.ras.fe.length) (h : (s.feOf f).events = [(ty, l)]) : ((s.feDrop f ty).feOf f).events = [] := by
  rw [State.feDrop, State.feOf_setFe hf, h]
  simp [fmDel]

end Sys2Proof.Machine
end

section
/-! PROOF. The commands of the raster front ends (R362 to R370). -/

namespace Sys2Proof.Machine

variable {s t u v : State} {f : Fin 2} {l : List Byte}

/-- A read keeps the canonical form of the register file. -/
theorem ReadOnly.wf (h : ReadOnly s u) (hwf : regsWf s.regs = true) : regsWf u.regs = true := by rwa [h.regs]

/-- WAIT_MEM once its command and its value are read (R362). -/
theorem State.waitMem_read {waits : Bool} {d : List Byte} (hst : s.bit (rFe f 0x18) 1 = waits) (hfetch : s.feFetch f 5 = (u, some l))
    (h7 : zeroAt l 1 7 = true) (h8 : zeroAt l 0x18 8 = true) (hal : leAt l 8 8 % 8 = 0)
    (hread : u.rdV (u.feOwner f) (mRas f) 1 (leAt l 8 8) 8 = (v, .ok (d, false))) :
    s.waitMem f waits = if leNat d ≥ leAt l 0x10 8 then v.feNext f else v.setBit (rFe f 0x18) 1 true := by
  simp [State.waitMem, hst, hfetch, h7, h8, hal, hread]

theorem State.waitMem_other {polling : Bool} (h : s.bit (rFe f 0x18) 1 = !polling) : s.waitMem f polling = s := if_pos (by simp [h])

/-- A front end that waits: WAITING is the one bit written. -/
theorem State.waiting_effect (h : regsWf s.regs = true) (f : Nat) :
    (s.setBit (rFe f 0x18) 1 true).fld (rFe f 0x14) 15 0 = s.fld (rFe f 0x14) 15 0 ∧ (s.setBit (rFe f 0x18) 1 true).bit (rFe f 0x18) 1 = true ∧
      (s.setBit (rFe f 0x18) 1 true).bit (rFe f 0x18) 2 = s.bit (rFe f 0x18) 2 ∧
      RegsOnly [rFe f 0x14, rFe f 0x18] s (s.setBit (rFe f 0x18) 1 true) :=
  ⟨State.fld_setFld_other h _ _ _ _ _ (by simp), State.bit_setBit_same h _ (by omega), State.bit_setBit_apart h _ (by omega) (by omega),
    (RegsOnly.refl h).setBit _ _ (by simp)⟩

/-- A pass opened or drawn into, and the next command. -/
theorem State.setPass_feNext_effect (h : regsWf s.regs = true) (hlen : s.ras.fe.length = 2) (f : Fin 2) (q : RasPass) :
    (((s.setPass f (some q)).feNext f).feOf f).pass = some q ∧
      (((s.setPass f (some q)).feNext f).feOf f).events = (s.feOf f).events ∧
      ((s.setPass f (some q)).feNext f).fld (rFe f 0x14) 15 0 = (s.fld (rFe f 0x14) 15 0 + 1) % 65536 ∧
      RegsBut [rFe f 0x14, rFe f 0x18] s ((s.setPass f (some q)).feNext f) ∧ ((s.setPass f (some q)).feNext f).mem = s.mem := by
  obtain ⟨hhead, -, -, honly⟩ := State.feNext_effect (s := s.setPass f (some q)) h f
  have hfe := (State.feOf_congr honly.ras f).trans (State.feOf_setPass (by omega) _)
  exact ⟨by rw [hfe], by rw [hfe], hhead, honly.word, honly.mem⟩

end Sys2Proof.Machine

open Sys2Proof Sys2Proof.Machine

/-- Settles O32: a command that is read leaves the state alone, and each command then writes HEAD and STATUS in turn; a stop is
followed past its fault and its event to a HEAD that none of them reaches. -/
theorem frontEndsConsumeTheirCommandsInOrder : Obligations.FrontEndsConsumeTheirCommandsInOrder := by
  unfold Obligations.FrontEndsConsumeTheirCommandsInOrder
  refine ⟨fun s m inst f v hcan hw => ?tail, fun s m inst f v hw => ?refused, fun s f hoff => ?idle, fun s u f l hcan hfetch hz => ?nop,
    fun s u f l hfetch hz => ?badNop, fun s u f l hfetch h3 h2 h20 => ?release,
    fun s f h => congrArg Host.Outcome.next (State.waitMem_other h), fun s f h => congrArg Host.Outcome.next (State.waitMem_other h),
    fun s u v f l d waits hcan hst hfetch h7 h8 hal hread => ?wait, fun s u v f l e hcan hfetch h7 h8 hal hwrite => ?signal,
    fun s m inst f hcan hw => ⟨fun hrun => ?keeps, fun hstop => ⟨?skip, ?flush⟩⟩,
    fun s f h => congrArg Host.Outcome.next (State.feRetry_none h),
    fun s f ty l hcan hlen he => ⟨fun hq => ?absent, fun q x u r hq hp => ?posted⟩⟩
  case tail =>
    obtain ⟨-, hwf⟩ := State.canonical_iff.mp hcan
    obtain ⟨htail, hbusy, honly⟩ := s.tailWrite_effect hwf f v
    exact .of_exec (congrArg Host.Outcome.next (if_pos hw)) ⟨htail, hbusy, honly.word, honly.mem, honly.ras, rfl⟩
  case refused =>
    refine ⟨?_, ?_, ?_⟩
    all_goals exact congrArg Host.Outcome.next (if_neg (Bool.eq_false_iff.mp hw))
  case idle =>
    have hwait (polling : Bool) : s.waitMem f polling = s := by
      rw [State.waitMem, State.feFetch_idle hoff]
      exact ite_self s
    refine ⟨?_, ?_, ?_, ?_, ?_, congrArg Host.Outcome.next (hwait false), congrArg Host.Outcome.next (hwait true), ?_, ?_⟩
    all_goals exact congrArg Host.Outcome.next (State.feRun_idle hoff)
  case nop =>
    obtain ⟨-, hwf⟩ := State.canonical_iff.mp hcan
    have hread := State.feFetch_some hfetch
    rw [zeroAt_add l 1 3 28, Bool.and_eq_true] at hz
    obtain ⟨hlow, hhigh⟩ := hz
    obtain ⟨hhead, -, hstop, honly⟩ := State.feNext_effect (hread.wf hwf) f
    exact .of_exec (congrArg Host.Outcome.next (State.feRun_done hfetch (by simp [hlow, hhigh]) rfl))
      ⟨hhead, hstop, honly.word, honly.mem.trans hread.mem, honly.ras.trans hread.ras⟩
  case badNop =>
    rw [zeroAt_add l 1 3 28, Bool.and_eq_false_iff] at hz
    refine .of_exec (congrArg Host.Outcome.next (State.feRun_badBytes hfetch ?_))
      ⟨rfl, State.fld_congr (u.feError_head f.isLt (by omega) (by omega)) _ _⟩
    simpa using hz
  case release =>
    have hz : (!zeroAt l 1 3 || [(6, 2), (0xC, 20)].any fun p => !zeroAt l p.1 p.2) = false := by simp [h3, h2, h20]
    refine congrArg Host.Outcome.next ?_
    split
    · next hslot => exact State.feRun_done hfetch hz (if_neg (Nat.not_le.mpr hslot))
    · next hslot => exact State.feRun_stops hfetch hz (if_pos (Nat.not_lt.mp hslot)) (by omega)
  case wait =>
    obtain ⟨-, hwf⟩ := State.canonical_iff.mp hcan
    have hwf' := (ReadOnly.rdV hread).wf ((State.feFetch_some hfetch).wf hwf)
    have e := State.waitMem_read hst hfetch h7 h8 hal hread
    refine .of_exec (t := s.waitMem f waits) (by cases waits <;> rfl) ?_
    rw [e]
    split
    · next hreached =>
      obtain ⟨hhead, hwaits, -, honly⟩ := State.feNext_effect hwf' f
      exact ⟨fun _ => ⟨hhead, hwaits⟩, fun hlt => absurd hreached (Nat.not_le.mpr hlt), honly.word, honly.mem, honly.ras⟩
    · next hshort =>
      obtain ⟨hhead, hwaits, hstop, honly⟩ := State.waiting_effect hwf' f
      exact ⟨fun hle => absurd hle hshort, fun _ => ⟨hhead, hwaits, hstop⟩, honly.word, honly.mem, honly.ras⟩
  case signal =>
    obtain ⟨-, hwf⟩ := State.canonical_iff.mp hcan
    have hwf' := (Keeps.of_fst hwrite (State.wrV_keeps (Keeps.refl u))).regs ((State.feFetch_some hfetch).wf hwf)
    rw [zeroAt_add l 1 3 4, Bool.and_eq_true] at h7
    have hz : (!zeroAt l 1 3 || [(4, 4), (0x18, 8)].any fun p => !zeroAt l p.1 p.2) = false := by simp [h7, h8]
    cases e with
    | none =>
      obtain ⟨hhead, -, -, honly⟩ := State.feNext_effect hwf' f
      exact .of_exec (congrArg Host.Outcome.next (State.feRun_done hfetch hz (v := v) (by simp [hal, hwrite])))
        ⟨fun _ => ⟨hhead, honly.word, honly.mem, honly.ras⟩, fun x hx => (nomatch hx)⟩
    | some x =>
      have hcode := accCode_range x
      exact .of_exec (congrArg Host.Outcome.next (State.feRun_stops hfetch hz (v := v) (e := accCode x) (by simp [hal, hwrite]) (by omega)))
        ⟨fun hx => (nomatch hx), fun y hy => by cases hy; rfl⟩
  case keeps =>
    refine ⟨?_, ?_⟩
    all_goals exact congrArg Host.Outcome.next ((if_pos hw).trans (congrArg (State.respOk · []) (State.feRestart_running hrun _)))
  case skip =>
    obtain ⟨-, hwf⟩ := State.canonical_iff.mp hcan
    obtain ⟨hhead, -, -, honly⟩ := State.feRestart_effect hwf hstop (s.fld (rFe f 0x14) 15 0 + 1)
    exact .of_exec (congrArg Host.Outcome.next (if_pos hw)) ⟨hhead, State.skip_effect hwf hstop _, honly.word, honly.mem, honly.ras⟩
  case flush =>
    obtain ⟨-, hwf⟩ := State.canonical_iff.mp hcan
    obtain ⟨-, -, -, honly⟩ := State.feRestart_effect hwf hstop (s.fld (rFe f 0x10) 15 0)
    obtain ⟨hhead, hclear⟩ := State.flush_effect hwf hstop
    exact .of_exec (congrArg Host.Outcome.next (if_pos hw)) ⟨hhead, hclear, honly.word, honly.mem, honly.ras⟩
  case absent =>
    obtain ⟨-, hwf⟩ := State.canonical_iff.mp hcan
    have hdrop : ((s.feDrop f ty).feOf f).events = [] := State.feDrop_events (by omega) he
    have hwf' : regsWf (s.feDrop f ty).regs = true := hwf
    have honly := (RegsOnly.refl hwf').bump (List.mem_singleton_self (rFe f 0x38))
    refine .of_exec (congrArg Host.Outcome.next (State.feRetry_absent he hq)) ⟨?_, State.word_bump_same hwf _, honly.word, honly.mem⟩
    rw [State.feOf_congr honly.ras, hdrop]
  case posted =>
    refine congrArg Host.Outcome.next ((State.feRetry_posted he hq).trans ?_)
    rw [hp]
    cases r <;> rfl

/-- Settles O33: each command that is read comes to the state its meaning gives, which then goes on to the next command or stops. -/
theorem frontEndsDrawPassesAndSplats : Obligations.FrontEndsDrawPassesAndSplats := by
  unfold Obligations.FrontEndsDrawPassesAndSplats
  refine ⟨fun s u f l hfetch h3 h16 hal => ?begin, fun s u f l hfetch h3 h8 h1 hmax hal hst => ?draw,
    fun s u f l hfetch h3 h2 h16 hslot hal => ?finish, fun s u v f l d hfetch h7 h16 hal hread => ?splat⟩
  case begin =>
    have hz : (!zeroAt l 1 3 || [(0x10, 16)].any fun p => !zeroAt l p.1 p.2) = false := by simp [h3, h16]
    refine ⟨fun p hp => ?_, fun v d hp hread => ⟨fun hd hlen hcan => ?_, fun hd => ?_⟩⟩
    · exact .of_exec (congrArg Host.Outcome.next (State.feRun_stops hfetch hz (v := u) (e := 3) (by simp [hal, hp]) (by omega)))
        ⟨rfl, (u.feError_pass_kept f (by omega)).trans hp⟩
    · obtain ⟨-, hwf⟩ := State.canonical_iff.mp hcan
      obtain ⟨hpass, hevents, hhead, hbut, hmem⟩ := State.setPass_feNext_effect hwf hlen f ⟨leAt l 4 4, d, [], 0, false⟩
      exact .of_exec (congrArg Host.Outcome.next (State.feRun_done hfetch hz (v := v.setPass f (some ⟨leAt l 4 4, d, [], 0, false⟩))
        (by simp [hal, hp, hread, hd]))) ⟨hpass, hevents, hhead, hbut, hmem⟩
    · exact congrArg Host.Outcome.next (State.feRun_stops hfetch hz (v := v) (e := 2) (by simp [hal, hp, hread, hd]) (by omega))
  case draw =>
    have hz : (!zeroAt l 1 3 || [(0x18, 8)].any fun p => !zeroAt l p.1 p.2) = false := by simp [h3, h8]
    have hok : (decide (leAt l 4 4 = 0) || decide (leAt l 4 4 > 16777216) || decide (leAt l 8 8 % 16 ≠ 0) ||
        !drawStateOk (leAt l 0x10 4)) = false := by
      simp [hal, hst, hmax, Nat.ne_of_gt h1]
    refine ⟨fun hp => ?_, fun p v q e hp hdraw => ⟨fun he hlen hcan => ?_, fun x he hlen => ?_⟩⟩
    · exact congrArg Host.Outcome.next (State.feRun_stops hfetch hz (v := u) (e := 3) (by simp only [hok, hp]; rfl) (by omega))
    · obtain ⟨-, hwf⟩ := State.canonical_iff.mp hcan
      obtain ⟨hpass, -, hhead, hbut, hmem⟩ := State.setPass_feNext_effect hwf hlen f q
      exact .of_exec (congrArg Host.Outcome.next (State.feRun_done hfetch hz (v := v.setPass f (some q))
        (by simp only [hok, hp, hdraw, he]; rfl))) ⟨hpass, hhead, hbut, hmem⟩
    · have hcode := accCode_range x
      exact .of_exec (congrArg Host.Outcome.next (State.feRun_stops hfetch hz (v := v.setPass f (some q)) (e := accCode x)
        (by simp only [hok, hp, hdraw, he]; rfl) (by omega))) ⟨rfl, State.feError_pass_ended _ f hcode.1⟩
  case finish =>
    have hz : (!zeroAt l 1 3 || [(6, 2), (0x10, 16)].any fun p => !zeroAt l p.1 p.2) = false := by simp [h3, h2, h16]
    have hok : (decide (leAt l 4 2 ≥ 4096) || decide (leAt l 8 8 % 64 ≠ 0)) = false := by simp [hal, hslot]
    refine ⟨fun hp => ?_, fun p v w hp herr hlist hcount => ?_⟩
    · exact congrArg Host.Outcome.next (State.feRun_stops hfetch hz (v := u) (e := 3) (by simp only [hok, hp]; rfl) (by omega))
    · intro full x y hlen
      refine .of_exec (congrArg Host.Outcome.next (State.feRun_done hfetch hz (v := y.feRelease f (leAt l 4 2) p.id)
        (by simp only [hok, hp, herr, hlist, hcount]; rfl))) ⟨rfl, ?_⟩
      have hx : (x.feOf f).pass = none := w.pass_setPass_none f
      have hy : (y.feOf f).pass = none := by
        simp only [y]
        split
        · exact (PassKept.feEvent ..).pass.trans hx
        · exact hx
      have hras : ((y.feRelease f (leAt l 4 2) p.id).feNext f).ras = y.ras := State.release_ras ..
      rw [State.feOf_congr hras, hy]
  case splat =>
    rw [zeroAt_add l 1 3 4, Bool.and_eq_true] at h7
    have hz : (!zeroAt l 1 3 || [(4, 4), (0x10, 16)].any fun p => !zeroAt l p.1 p.2) = false := by simp [h7, h16]
    refine ⟨fun hd => ?_, fun w hd hpoints hcan => ?_, fun w x hd hpoints => ?_⟩
    · exact congrArg Host.Outcome.next (State.feRun_stops hfetch hz (v := v) (e := 2) (by simp [hal, hread, hd]) (by omega))
    · obtain ⟨-, hwf⟩ := State.canonical_iff.mp hcan
      obtain ⟨hhead, -, -, honly⟩ := State.feNext_effect hwf f
      exact .of_exec (congrArg Host.Outcome.next (State.feRun_done hfetch hz (v := w) (by simp [hal, hread, hd, hpoints])))
        ⟨hhead, honly.word, honly.mem, honly.ras⟩
    · have hcode := accCode_range x
      exact congrArg Host.Outcome.next (State.feRun_stops hfetch hz (v := w) (e := accCode x) (by simp [hal, hread, hd, hpoints]) (by omega))

end

section
/-! PROOF. O36 is refuted: the class of a request may spill into VALID of the record of its miss. -/

namespace Sys2Proof.Machine

/-- A request that was released at once and is late by one nanosecond. R422 knows the destination classes 0 to 4; this one is 2^15. -/
def wideClassReq : FabReq := ⟨0, 0, 64, false, 0, 0, some 0, 2 ^ 15, some 0⟩

/-- The request is the only one in the fabric, and FAB_MISS_CAPTURE is empty. -/
def wideClassMiss : State := { State.reset with fab.flight := [wideClassReq], now := 4 }

theorem wideClassMiss_canonical : wideClassMiss.canonical = true := by
  decide +kernel

/-- The request completes after its deadline: its bytes are counted, and its miss is captured and counted (R426). -/
theorem exec_requestComplete_wideClassMiss :
    let s := { wideClassMiss with fab.flight := [] }
    exec (.requestComplete 0 0 0) wideClassMiss =
      .next (((s.setWord64 (rLbl 0 0x10) (s.word64 (rLbl 0 0x10) + 64)).missCapture 0 0 0 (2 ^ 15) 0 1).countMiss 0 8) :=
  rfl

/-- The class is put at bit 16 of the capture, so 2^15 gives 2^31; VALID is added to it, and the word wraps to 0 (R434). -/
theorem wideClassMiss_valid :
    let s := { wideClassMiss with fab.flight := [] }
    (((s.setWord64 (rLbl 0 0x10) (s.word64 (rLbl 0 0x10) + 64)).missCapture 0 0 0 (2 ^ 15) 0 1).countMiss 0 8).bit (rFab 0x40) 31 =
      false := by
  decide +kernel

end Sys2Proof.Machine

open Sys2Proof Sys2Proof.Machine

/-- Refutes O36: the statement asks only for canonical memory and registers, so a request may carry a destination class that is none of
R422's; the capture of its miss then does not show VALID. -/
theorem not_fabricRequestsLinksAndAudits : ¬ Obligations.FabricRequestsLinksAndAudits := by
  unfold Obligations.FabricRequestsLinksAndAudits
  rintro ⟨-, -, -, -, h, -⟩
  obtain ⟨t, ht, -, -, -, hmiss⟩ := h wideClassMiss 0 0 0 wideClassReq [] [] wideClassMiss_canonical rfl
    (by intro r hr; cases hr) rfl rfl
  obtain ⟨-, hvalid⟩ := hmiss 0 rfl (by decide)
  rw [← Host.Outcome.next.inj (exec_requestComplete_wideClassMiss.symm.trans ht), wideClassMiss_valid] at hvalid
  cases hvalid

end

section
/-! PROOF. Every command and every step answers a next state (O1, O2). -/

namespace Sys2Proof.Machine

/-- The outcome is a next state: neither a fault nor a refusal. -/
def Answers (o : Host.Outcome State Fault Refusal) : Prop := ∃ t, o = .next t

theorem Answers.next (s : State) : Answers (.next s) := ⟨s, rfl⟩

/-! Each meaning is a tree of case distinctions whose every leaf is a next state; the families follow the files of the model. -/

theorem fabric_answers :
    (∀ port label s, Answers (execRegulatorRelease port label s)) ∧
    (∀ port label cause s, Answers (execRequestComplete port label cause s)) ∧
    (∀ port label s, Answers (execFloorWindowEnd port label s)) ∧ (∀ link s, Answers (execLinkRetrain link s)) ∧
    (∀ link s, Answers (execFabricLinkRetrainDone link s)) ∧ (∀ m inst v s, Answers (execFabMissClr m inst v s)) ∧
    (∀ m inst w s, Answers (execAtuInv m inst w s)) ∧ (∀ s, Answers (execAtuInvDone s)) ∧
    (∀ port label m inst addr bytes write deadline s, Answers (execFabricRequestIssue port label m inst addr bytes write deadline s)) ∧
    (∀ s, Answers (execAuditStart s)) ∧ (∀ s, Answers (execAuditComplete s)) ∧ (∀ s, Answers (execAuditLate s)) ∧
    (∀ m inst addr len err off syn s, Answers (execMemoryRead m inst addr len err off syn s)) ∧
    (∀ m inst addr data poison err off syn s, Answers (execMemoryWrite m inst addr data poison err off syn s)) ∧
    (∀ addr err syn s, Answers (execScrubRead addr err syn s)) ∧ (∀ kind s, Answers (execScrubLate kind s)) ∧
    (∀ m inst addr size v s, Answers (execRegisterWrite m inst addr size v s)) ∧
    (∀ m inst addr s, Answers (execWideRegisterLowerRead m inst addr s)) ∧
    (∀ m inst write addr len data poison incarn s, Answers (execFabricMemoryAccess m inst write addr len data poison incarn s)) ∧
    (∀ s, Answers (execHeldAccessRelease s)) := by
  and_intros
  all_goals intros
  all_goals dsimp only [execRegulatorRelease, execRequestComplete, execFloorWindowEnd, execLinkRetrain, execFabricLinkRetrainDone, execFabMissClr, execAtuInv,
    execAtuInvDone, execFabricRequestIssue, execAuditStart, execAuditComplete, execAuditLate, execMemoryRead, execMemoryWrite,
    execScrubRead, execScrubLate, execRegisterWrite, execWideRegisterLowerRead, execFabricMemoryAccess, execHeldAccessRelease]
  all_goals repeat' split
  all_goals exact Answers.next _

theorem phx_answers :
    (∀ tack ecc s, Answers (execTackFire tack ecc s)) ∧ (∀ s, Answers (execEvaluationResume s)) ∧
    (∀ stream s, Answers (execAngleSample stream s)) ∧ (∀ stream s, Answers (execLineAxisFrameStart stream s)) ∧
    (∀ stream s, Answers (execLineAxisLineStart stream s)) ∧ (∀ stream s, Answers (execLineAxisFrameEnd stream s)) ∧
    (∀ pin level s, Answers (execPhaseInEdge pin level s)) ∧ (∀ m inst axis v s, Answers (execAxisLoad m inst axis v s)) ∧
    (∀ axis s, Answers (execAxisStall axis s)) ∧ (∀ m inst tack reg v s, Answers (execTackWrite m inst tack reg v s)) ∧
    (∀ m inst tack cfg s, Answers (execTackArm m inst tack cfg s)) ∧ (∀ m inst tack cfg s, Answers (execTackDisarm m inst tack cfg s)) ∧
    (∀ pin s, Answers (execPhaseOutEdge pin s)) ∧ (∀ m inst s, Answers (execPhxEvtDataRead m inst s)) ∧
    (∀ s, Answers (execActionDispatch s)) := by
  and_intros
  all_goals intros
  all_goals dsimp only [execTackFire, execEvaluationResume, execAngleSample, execLineAxisFrameStart, execLineAxisLineStart, execLineAxisFrameEnd,
    execPhaseInEdge, execAxisLoad, execAxisStall, execTackWrite, execTackArm, execTackDisarm, execPhaseOutEdge, execPhxEvtDataRead,
    execActionDispatch]
  all_goals repeat' split
  all_goals exact Answers.next _

theorem hqm_answers :
    (∀ m inst gen v s, Answers (execHqmDoorbell m inst gen v s)) ∧ (∀ qid gen data s, Answers (execHqmPost qid gen data s)) ∧
    (∀ qid s, Answers (execHqmPostRetry qid s)) ∧ (∀ m inst qid s, Answers (execQcmdEnable m inst qid s)) ∧
    (∀ m inst qid s, Answers (execQcmdDisable m inst qid s)) ∧ (∀ m inst qid s, Answers (execQcmdClearFault m inst qid s)) := by
  and_intros
  all_goals intros
  all_goals dsimp only [execHqmDoorbell, execHqmPost, execHqmPostRetry, execQcmdEnable, execQcmdDisable, execQcmdClearFault]
  all_goals repeat' split
  all_goals exact Answers.next _

theorem island_answers :
    (∀ s, Answers (execRefclkLoss s)) ∧ (∀ s, Answers (execRefclkRecover s)) ∧ (∀ s, Answers (execPtpRefinFail s)) ∧
    (∀ s, Answers (execPtpRefinRecover s)) ∧ (∀ s, Answers (execSafeXinFail s)) ∧ (∀ s, Answers (execSafeXinReturn s)) ∧
    (∀ pair point bit pc s, Answers (execLockstepMismatch pair point bit pc s)) ∧
    (∀ pair pass s, Answers (execPairRetestDone pair pass s)) ∧ (∀ m pair s, Answers (execRetest m pair s)) ∧
    (∀ pair input rounds s, Answers (execInputVote pair input rounds s)) ∧ (∀ s, Answers (execStartupTest s)) ∧
    (∀ pair s, Answers (execDebugSplit pair s)) ∧ (∀ s, Answers (execClassDExit s)) ∧ (∀ s, Answers (execClassSExit s)) ∧
    (∀ m s, Answers (execSExit m s)) ∧ (∀ m s, Answers (execAliveStart m s)) ∧ (∀ s, Answers (execAliveEdge s)) ∧
    (∀ s, Answers (execFcHoldExpire s)) ∧ (∀ m s, Answers (execKick m s)) ∧ (∀ s, Answers (execIslandWatchdogExpire s)) ∧
    (∀ m s, Answers (execFwpHeartbeat m s)) ∧ (∀ m data s, Answers (execSwReport m data s)) ∧ (∀ m s, Answers (execClrFirst m s)) ∧
    (∀ m v s, Answers (execAlarmTailWrite m v s)) ∧ (∀ m data s, Answers (execAwlUnlock m data s)) ∧
    (∀ s, Answers (execAwlUnlockTimeout s)) ∧ (∀ m data s, Answers (execGo m data s)) ∧ (∀ s, Answers (execAwlRunTimeout s)) ∧
    (∀ rail src cls access m unit info addr s, Answers (execFaultEvent rail src cls access m unit info addr s)) ∧
    (∀ m addr point pc s, Answers (execAwlInjection m addr point pc s)) := by
  and_intros
  all_goals intros
  all_goals dsimp only [execRefclkLoss, execRefclkRecover, execPtpRefinFail, execPtpRefinRecover, execSafeXinFail, execSafeXinReturn, execLockstepMismatch,
    execPairRetestDone, execRetest, execInputVote, execStartupTest, execDebugSplit, execClassDExit, execClassSExit, execSExit,
    execAliveStart, execAliveEdge, execFcHoldExpire, execKick, execIslandWatchdogExpire, execFwpHeartbeat, execSwReport, execClrFirst,
    execAlarmTailWrite, execAwlUnlock, execAwlUnlockTimeout, execGo, execAwlRunTimeout, execFaultEvent, execAwlInjection]
  all_goals repeat' split
  all_goals exact Answers.next _

theorem cellAlu_answers :
    (∀ cell group s, Answers (execSalu cell group s)) ∧ (∀ cell group s, Answers (execSmovi cell group s)) ∧
    (∀ cell group s, Answers (execSmovhi cell group s)) ∧ (∀ cell group s, Answers (execSrd cell group s)) ∧
    (∀ cell group s, Answers (execBr cell group s)) ∧ (∀ cell group s, Answers (execJal cell group s)) ∧
    (∀ cell group s, Answers (execJalr cell group s)) ∧ (∀ cell group s, Answers (execTalu cell group s)) ∧
    (∀ cell group s, Answers (execTmovi cell group s)) ∧ (∀ cell group s, Answers (execFalu cell group s)) ∧
    (∀ cell group s, Answers (execTcvt cell group s)) ∧ (∀ cell group s, Answers (execTcmp cell group s)) ∧
    (∀ cell group s, Answers (execPlog cell group s)) ∧ (∀ cell group s, Answers (execVote cell group s)) ∧
    (∀ cell group s, Answers (execTlane cell group s)) ∧ (∀ cell group s, Answers (execBarSync cell group s)) ∧
    (∀ cell group s, Answers (execBarArrive cell group s)) ∧ (∀ cell group s, Answers (execBarWait cell group s)) ∧
    (∀ cell bar s, Answers (execBarrierPhaseComplete cell bar s)) ∧ (∀ cell group s, Answers (execWait cell group s)) ∧
    (∀ cell group s, Answers (execFence cell group s)) ∧ (∀ cell group s, Answers (execPwait cell group s)) ∧
    (∀ cell group s, Answers (execPwaitReached cell group s)) ∧ (∀ cell group s, Answers (execPread cell group s)) ∧
    (∀ cell group s, Answers (execNotify cell group s)) ∧ (∀ cell group s, Answers (execSysNop cell group s)) ∧
    (∀ cell group s, Answers (execSysEnd cell group s)) ∧ (∀ cell group s, Answers (execSysBreak cell group s)) ∧
    (∀ cell group s, Answers (execSysTrap cell group s)) ∧ (∀ cell group s, Answers (execRdfl cell group s)) ∧
    (∀ cell group s, Answers (execClrfl cell group s)) ∧ (∀ cell group s, Answers (execRdres cell group s)) ∧
    (∀ cell group s, Answers (execWrres cell group s)) := by
  and_intros
  all_goals intros
  all_goals dsimp only [execSalu, execSmovi, execSmovhi, execSrd, execBr, execJal, execJalr, execTalu, execTmovi, execFalu, execTcvt, execTcmp, execPlog,
    execVote, execTlane, execBarSync, execBarArrive, execBarWait, execBarrierPhaseComplete, execWait, execFence, execPwait,
    execPwaitReached, execPread, execNotify, execSysNop, execSysEnd, execSysBreak, execSysTrap, execRdfl, execClrfl, execRdres, execWrres]
  all_goals repeat' split
  all_goals exact Answers.next _

theorem cellUnit_answers :
    (∀ cell group s, Answers (execMmaw cell group s)) ∧ (∀ cell group s, Answers (execAccrd cell group s)) ∧
    (∀ cell group s, Answers (execAccld cell group s)) ∧ (∀ cell s, Answers (execTensorComplete cell s)) ∧
    (∀ cell group s, Answers (execTcopy cell group s)) ∧ (∀ cell group s, Answers (execTrans cell group s)) ∧
    (∀ cell group s, Answers (execFill cell group s)) ∧ (∀ cell s, Answers (execMovementComplete cell s)) ∧
    (∀ cell group s, Answers (execSort cell group s)) ∧ (∀ cell group s, Answers (execTopk cell group s)) ∧
    (∀ cell group s, Answers (execGather cell group s)) ∧ (∀ cell group s, Answers (execScatter cell group s)) ∧
    (∀ cell group s, Answers (execAttn cell group s)) ∧ (∀ cell group s, Answers (execNms cell group s)) ∧
    (∀ cell s, Answers (execLongRoutineComplete cell s)) ∧ (∀ cell group s, Answers (execLaceInstruction cell group s)) ∧
    (∀ cell s, Answers (execLaceListAccept cell s)) ∧ (∀ engine chan s, Answers (execLaceDescriptorExecute engine chan s)) ∧
    (∀ engine chan s, Answers (execLaceSignalWrite engine chan s)) ∧ (∀ engine chan s, Answers (execLaceListComplete engine chan s)) ∧
    (∀ cell group s, Answers (execSld cell group s)) ∧ (∀ cell group s, Answers (execSst cell group s)) ∧
    (∀ cell group err idx s, Answers (execTld cell group err idx s)) ∧ (∀ cell group s, Answers (execTst cell group s)) ∧
    (∀ cell group s, Answers (execTatom cell group s)) ∧ (∀ cell group s, Answers (execTsamp cell group s)) ∧
    (∀ cell group s, Answers (execSyncException cell group s)) := by
  and_intros
  all_goals intros
  all_goals dsimp only [execMmaw, execAccrd, execAccld, execTensorComplete, execTcopy, execTrans, execFill, execMovementComplete, execSort, execTopk,
    execGather, execScatter, execAttn, execNms, execLongRoutineComplete, execLaceInstruction, execLaceListAccept,
    execLaceDescriptorExecute, execLaceSignalWrite, execLaceListComplete, execSld, execSst, execTld, execTst, execTatom, execTsamp,
    execSyncException]
  all_goals repeat' split
  all_goals exact Answers.next _

theorem cellCtl_answers :
    (∀ m cell addr s, Answers (execKernelWrite m cell addr s)) ∧ (∀ cell s, Answers (execKernelLoadDone cell s)) ∧
    (∀ cell s, Answers (execTaskComplete cell s)) ∧ (∀ m cell s, Answers (execSave m cell s)) ∧
    (∀ cell s, Answers (execSaveComplete cell s)) ∧ (∀ m cell s, Answers (execRestore m cell s)) ∧
    (∀ cell s, Answers (execRestoreComplete cell s)) ∧ (∀ m cell s, Answers (execAbort m cell s)) ∧
    (∀ m cell s, Answers (execAck m cell s)) ∧ (∀ cell s, Answers (execAsyncException cell s)) ∧
    (∀ cell s, Answers (execCellHalt cell s)) ∧ (∀ cell s, Answers (execWatchdog cell s)) ∧ (∀ cell s, Answers (execCellHang cell s)) ∧
    (∀ cell s, Answers (execControlCheckerFail cell s)) ∧ (∀ s, Answers (execErrorCountClear s)) ∧
    (∀ cell group err idx s, Answers (execMma cell group err idx s)) ∧
    (∀ cell wake lost bad s, Answers (execFailureSubstitution cell wake lost bad s)) ∧
    (∀ cell wake s, Answers (execPlannedSubstitution cell wake s)) ∧ (∀ cell s, Answers (execSubstitutionComplete cell s)) ∧
    (∀ m cell force s, Answers (execSubReq m cell force s)) ∧ (∀ m panel phys s, Answers (execMaintStart m panel phys s)) ∧
    (∀ pass s, Answers (execMaintDone pass s)) := by
  and_intros
  all_goals intros
  all_goals dsimp only [execKernelWrite, execKernelLoadDone, execTaskComplete, execSave, execSaveComplete, execRestore, execRestoreComplete, execAbort,
    execAck, execAsyncException, execCellHalt, execWatchdog, execCellHang, execControlCheckerFail, execErrorCountClear, execMma,
    execFailureSubstitution, execPlannedSubstitution, execSubstitutionComplete, execSubReq, execMaintStart, execMaintDone]
  all_goals repeat' split
  all_goals exact Answers.next _

theorem clicking_answers :
    (∀ m inst slot param s, Answers (execSlotReleaseWrite m inst slot param s)) ∧ (∀ s, Answers (execTaskPlacement s)) ∧
    (∀ s, Answers (execTaskOutcome s)) ∧ (∀ s, Answers (execCompletionBufferDrain s)) ∧
    (∀ side s, Answers (execCheckpointDigest side s)) ∧ (∀ slot s, Answers (execDigestCompare slot s)) ∧
    (∀ slot s, Answers (execDigestLate slot s)) ∧ (∀ addr s, Answers (execModelRepair addr s)) ∧
    (∀ m click v s, Answers (execClickCfgWrite m click v s)) ∧
    (∀ model work kern s, Answers (execModelInstallationDone model work kern s)) ∧
    (∀ m click v s, Answers (execClickSwitch m click v s)) ∧ (∀ m click abort s, Answers (execUnbind m click abort s)) ∧
    (∀ click s, Answers (execSwitchDrainDone click s)) ∧ (∀ click s, Answers (execSwitchDone click s)) := by
  and_intros
  all_goals intros
  all_goals dsimp only [execSlotReleaseWrite, execTaskPlacement, execTaskOutcome, execCompletionBufferDrain, execCheckpointDigest, execDigestCompare,
    execDigestLate, execModelRepair, execClickCfgWrite, execModelInstallationDone, execClickSwitch, execUnbind, execSwitchDrainDone,
    execSwitchDone]
  all_goals repeat' split
  all_goals exact Answers.next _

theorem ras_answers :
    (∀ fe s, Answers (execRasEventRetry fe s)) ∧ (∀ m inst fe v s, Answers (execRasFeTailWrite m inst fe v s)) ∧
    (∀ fe s, Answers (execRasNop fe s)) ∧ (∀ fe s, Answers (execBeginPass fe s)) ∧ (∀ fe s, Answers (execDraw fe s)) ∧
    (∀ fe s, Answers (execEndPass fe s)) ∧ (∀ fe s, Answers (execRelease fe s)) ∧ (∀ fe s, Answers (execWaitMem fe s)) ∧
    (∀ fe s, Answers (execWaitMemPoll fe s)) ∧ (∀ fe s, Answers (execSignalMem fe s)) ∧ (∀ fe s, Answers (execSplat fe s)) ∧
    (∀ m inst fe s, Answers (execSkipCmd m inst fe s)) ∧ (∀ m inst fe s, Answers (execFlush m inst fe s)) := by
  and_intros
  all_goals intros
  all_goals dsimp only [execRasEventRetry, execRasFeTailWrite, execRasNop, execBeginPass, execDraw, execEndPass, execRelease, execWaitMem, execWaitMemPoll,
    execSignalMem, execSplat, execSkipCmd, execFlush]
  all_goals repeat' split
  all_goals exact Answers.next _

theorem dpy_answers :
    (∀ m inst pipe expect s, Answers (execDpyPipeEnable m inst pipe expect s)) ∧
    (∀ m inst pipe expect s, Answers (execDpyPipeDisable m inst pipe expect s)) ∧
    (∀ pipe onTarget late s, Answers (execDpyFrameStart pipe onTarget late s)) ∧ (∀ pipe s, Answers (execDpyLineDl pipe s)) ∧
    (∀ pipe s, Answers (execDpyFlipLatch pipe s)) ∧ (∀ m inst pipe buf s, Answers (execDpyPipeFlip m inst pipe buf s)) ∧
    (∀ pipe s, Answers (execDpyLockLoss pipe s)) ∧ (∀ m inst pipe v s, Answers (execSideGo m inst pipe v s)) ∧
    (∀ pipe data s, Answers (execSideDone pipe data s)) ∧ (∀ pipe s, Answers (execHpdEvent pipe s)) := by
  and_intros
  all_goals intros
  all_goals dsimp only [execDpyPipeEnable, execDpyPipeDisable, execDpyFrameStart, execDpyLineDl, execDpyFlipLatch, execDpyPipeFlip, execDpyLockLoss,
    execSideGo, execSideDone, execHpdEvent]
  all_goals repeat' split
  all_goals exact Answers.next _

theorem mbx_answers :
    (∀ proc kind level code args s, Answers (execLogEntryWrite proc kind level code args s)) ∧
    (∀ proc s, Answers (execTraceWindow proc s)) ∧ (∀ m proc v s, Answers (execLogTailWrite m proc v s)) ∧
    (∀ m inst mbx s, Answers (execMbxGo m inst mbx s)) ∧ (∀ m inst mbx s, Answers (execMbxDone m inst mbx s)) ∧
    (∀ proc s, Answers (execHeartbeatMiss proc s)) ∧ (∀ proc s, Answers (execFwpProcessorRestart proc s)) ∧
    (∀ proc s, Answers (execIncarnationRaise proc s)) ∧ (∀ proc pass s, Answers (execFwpRestartDone proc pass s)) ∧
    (∀ m s, Answers (execSelftest m s)) := by
  and_intros
  all_goals intros
  all_goals dsimp only [execLogEntryWrite, execTraceWindow, execLogTailWrite, execMbxGo, execMbxDone, execHeartbeatMiss, execFwpProcessorRestart,
    execIncarnationRaise, execFwpRestartDone, execSelftest]
  all_goals repeat' split
  all_goals exact Answers.next _

theorem sfe_answers :
    (∀ port vc frame err s, Answers (execCsi2FrameStart port vc frame err s)) ∧
    (∀ port vc err s, Answers (execCsi2FrameEnd port vc err s)) ∧ (∀ port vc dt err s, Answers (execCsi2ShortPacket port vc dt err s)) ∧
    (∀ port vc dt data err s, Answers (execCsi2LongPacket port vc dt data err s)) ∧
    (∀ flow full s, Answers (execFlowPacket flow full s)) ∧ (∀ port sync deskew s, Answers (execPhySyncChange port sync deskew s)) ∧
    (∀ stream s, Answers (execBandStart stream s)) ∧ (∀ stream s, Answers (execLseUnitStart stream s)) ∧
    (∀ stream s, Answers (execLseEnd stream s)) ∧ (∀ stream s, Answers (execLseLoop stream s)) ∧
    (∀ stream s, Answers (execLseGet stream s)) ∧ (∀ stream s, Answers (execLseSkip stream s)) ∧
    (∀ stream s, Answers (execLseAlu stream s)) ∧ (∀ stream s, Answers (execLseCvt stream s)) ∧
    (∀ stream s, Answers (execLsePut stream s)) ∧ (∀ stream s, Answers (execLseAdda stream s)) ∧
    (∀ stream s, Answers (execBandComplete stream s)) ∧ (∀ stream s, Answers (execStreamStallTimeout stream s)) ∧
    (∀ m inst stream v s, Answers (execSlotRelease m inst stream v s)) ∧ (∀ m inst stream s, Answers (execCommit m inst stream s)) ∧
    (∀ m inst stream s, Answers (execCancel m inst stream s)) ∧ (∀ m inst stream s, Answers (execRestart m inst stream s)) ∧
    (∀ m inst stream word v s, Answers (execShadowSlotWrite m inst stream word v s)) ∧ (∀ s, Answers (execLseOccupancyWindow s)) := by
  and_intros
  all_goals intros
  all_goals dsimp only [execCsi2FrameStart, execCsi2FrameEnd, execCsi2ShortPacket, execCsi2LongPacket, execFlowPacket, execPhySyncChange, execBandStart,
    execLseUnitStart, execLseEnd, execLseLoop, execLseGet, execLseSkip, execLseAlu, execLseCvt, execLsePut, execLseAdda, execBandComplete,
    execStreamStallTimeout, execSlotRelease, execCommit, execCancel, execRestart, execShadowSlotWrite, execLseOccupancyWindow]
  all_goals repeat' split
  all_goals exact Answers.next _

theorem wpe_answers :
    (∀ m inst s, Answers (execEpochAcqRead m inst s)) ∧ (∀ m inst buf s, Answers (execEpochPublish m inst buf s)) ∧
    (∀ m inst buf s, Answers (execEpochAbandon m inst buf s)) ∧ (∀ s, Answers (execCycleStart s)) ∧
    (∀ err s, Answers (execWavefrontExpansionDone err s)) ∧ (∀ s, Answers (execPlanChosen s)) ∧
    (∀ m addr s, Answers (execHeelSubmit m addr s)) ∧ (∀ fault s, Answers (execHeelCheckDone fault s)) ∧
    (∀ s, Answers (execHeelOutcome s)) ∧ (∀ s, Answers (execDeadlineTack s)) ∧
    (∀ m inst t s, Answers (execVehicleStateCommit m inst t s)) ∧ (∀ m inst s, Answers (execGoalSwap m inst s)) := by
  and_intros
  all_goals intros
  all_goals dsimp only [execEpochAcqRead, execEpochPublish, execEpochAbandon, execCycleStart, execWavefrontExpansionDone, execPlanChosen, execHeelSubmit,
    execHeelCheckDone, execHeelOutcome, execDeadlineTack, execVehicleStateCommit, execGoalSwap]
  all_goals repeat' split
  all_goals exact Answers.next _

theorem inst_answers :
    (∀ inst s, Answers (execResetDrainDone inst s)) ∧ (∀ m inst s, Answers (execInstanceReset m inst s)) ∧
    (∀ m inst s, Answers (execInstanceRemove m inst s)) ∧ (∀ m inst s, Answers (execInstanceAdd m inst s)) ∧
    (∀ port gen width flit s, Answers (execPcieLinkUp port gen width flit s)) ∧ (∀ port s, Answers (execPcieLinkDown port s)) ∧
    (∀ port vf s, Answers (execPcieFlr port vf s)) ∧ (∀ port enable num s, Answers (execVfEnableChange port enable num s)) ∧
    (∀ m inst port write addr len data poison s, Answers (execPcieOutboundRequest m inst port write addr len data poison s)) ∧
    (∀ port tag s, Answers (execPcieCompletionTimeout port tag s)) ∧
    (∀ port tag err ep data s, Answers (execPcieInboundCompletion port tag err ep data s)) ∧
    (∀ m port v write s, Answers (execPciCfgGo m port v write s)) ∧
    (∀ port fn rid bar kind addr len data ep tag s, Answers (execPcieInboundRequest port fn rid bar kind addr len data ep tag s)) := by
  and_intros
  all_goals intros
  all_goals dsimp only [execResetDrainDone, execInstanceReset, execInstanceRemove, execInstanceAdd, execPcieLinkUp, execPcieLinkDown, execPcieFlr,
    execVfEnableChange, execPcieOutboundRequest, execPcieCompletionTimeout, execPcieInboundCompletion, execPciCfgGo, execPcieInboundRequest]
  all_goals repeat' split
  all_goals exact Answers.next _

theorem pwr_answers :
    (∀ kind unit s, Answers (execAdmissionRequest kind unit s)) ∧ (∀ s, Answers (execAdmissionGrant s)) ∧
    (∀ s, Answers (execAdmissionWaitLong s)) ∧ (∀ kind unit s, Answers (execTokenReturn kind unit s)) ∧
    (∀ cluster st s, Answers (execClusterStateChange cluster st s)) ∧ (∀ m profile s, Answers (execProfileReq m profile s)) ∧
    (∀ wfi s, Answers (execProfileDrainDone wfi s)) ∧ (∀ s, Answers (execProfileWaitTimeout s)) ∧ (∀ s, Answers (execVoltageRampDone s)) ∧
    (∀ s, Answers (execClockSlewDone s)) ∧ (∀ stack s, Answers (execHbmRetrainDone stack s)) ∧
    (∀ panel fail s, Answers (execPanelWakeDone panel fail s)) ∧ (∀ s, Answers (execProfileDone s)) ∧
    (∀ dom s, Answers (execPllLockLoss dom s)) ∧ (∀ dom s, Answers (execPllRelock dom s)) ∧
    (∀ readings s, Answers (execThermalSample readings s)) ∧ (∀ clk s, Answers (execClockThrottleStep clk s)) ∧
    (∀ clk s, Answers (execClockRaiseStep clk s)) := by
  and_intros
  all_goals intros
  all_goals dsimp only [execAdmissionRequest, execAdmissionGrant, execAdmissionWaitLong, execTokenReturn, execClusterStateChange, execProfileReq,
    execProfileDrainDone, execProfileWaitTimeout, execVoltageRampDone, execClockSlewDone, execHbmRetrainDone, execPanelWakeDone,
    execProfileDone, execPllLockLoss, execPllRelock, execThermalSample, execClockThrottleStep, execClockRaiseStep]
  all_goals repeat' split
  all_goals exact Answers.next _

theorem ptp_answers :
    (∀ clk s, Answers (execPtpClockTick clk s)) ∧ (∀ clk s, Answers (execPtpSlewDone clk s)) ∧
    (∀ m inst clk v s, Answers (execPtpClkIncWrite m inst clk v s)) ∧ (∀ m inst clk v s, Answers (execPtpClkAdjWrite m inst clk v s)) ∧
    (∀ m inst clk v s, Answers (execPtpClkStepWrite m inst clk v s)) ∧ (∀ m inst clk ns s, Answers (execPtpClkSet m inst clk ns s)) ∧
    (∀ m inst clk both s, Answers (execAccept m inst clk both s)) ∧ (∀ m inst clk s, Answers (execReject m inst clk s)) ∧
    (∀ clk s, Answers (execPtpStepApply clk s)) ∧ (∀ s, Answers (execPpsOutPulse s)) ∧ (∀ level s, Answers (execPpsInEdge level s)) := by
  and_intros
  all_goals intros
  all_goals dsimp only [execPtpClockTick, execPtpSlewDone, execPtpClkIncWrite, execPtpClkAdjWrite, execPtpClkStepWrite, execPtpClkSet, execAccept, execReject,
    execPtpStepApply, execPpsOutPulse, execPpsInEdge]
  all_goals repeat' split
  all_goals exact Answers.next _

theorem net_answers :
    (∀ ctrl buf s, Answers (execCanFrameReceive ctrl buf s)) ∧ (∀ ctrl outcome s, Answers (execCanFrameTransmit ctrl outcome s)) ∧
    (∀ ctrl s, Answers (execCanBusOff ctrl s)) ∧ (∀ ctrl s, Answers (execCanBusOffRecovery ctrl s)) ∧
    (∀ m ctrl s, Answers (execRecover m ctrl s)) ∧ (∀ mac frame secOk pass s, Answers (execEthFrameReceive mac frame secOk pass s)) ∧
    (∀ port cls preempted s, Answers (execEthFrameTransmit port cls preempted s)) ∧ (∀ chan s, Answers (execHostChannelTx chan s)) ∧
    (∀ port s, Answers (execGateIntervalExpire port s)) ∧ (∀ m port s, Answers (execGclSwap m port s)) ∧
    (∀ port s, Answers (execGclSwapApply port s)) ∧ (∀ m port wide s, Answers (execEthPortTxtsRead m port wide s)) ∧
    (∀ mac up s, Answers (execEthLinkChange mac up s)) ∧ (∀ m v s, Answers (execMdioGo m v s)) ∧
    (∀ data s, Answers (execMdioAccessDone data s)) ∧ (∀ m table index s, Answers (execEthTblGo m table index s)) ∧
    (∀ stream s, Answers (execNtscfFrameSend stream s)) := by
  and_intros
  all_goals intros
  all_goals dsimp only [execCanFrameReceive, execCanFrameTransmit, execCanBusOff, execCanBusOffRecovery, execRecover, execEthFrameReceive,
    execEthFrameTransmit, execHostChannelTx, execGateIntervalExpire, execGclSwap, execGclSwapApply, execEthPortTxtsRead,
    execEthLinkChange, execMdioGo, execMdioAccessDone, execEthTblGo, execNtscfFrameSend]
  all_goals repeat' split
  all_goals exact Answers.next _

theorem sec_answers :
    (∀ m b readsBack s, Answers (execFuseProg m b readsBack s)) ∧ (∀ m slot s, Answers (execKeyUnwrap m slot s)) ∧
    (∀ m slot s, Answers (execKeyClear m slot s)) ∧ (∀ m w v s, Answers (execSecWinWrite m w v s)) ∧ (∀ m s, Answers (execPkClaim m s)) ∧
    (∀ m s, Answers (execPkRelease m s)) ∧ (∀ m keysrc s, Answers (execEcdsaSignP256 m keysrc s)) ∧
    (∀ m keysrc s, Answers (execEcdsaSignP384 m keysrc s)) ∧ (∀ m keysrc s, Answers (execEcdsaVerifyP256 m keysrc s)) ∧
    (∀ m keysrc s, Answers (execEcdsaVerifyP384 m keysrc s)) ∧ (∀ m keysrc s, Answers (execEcdhP256 m keysrc s)) ∧
    (∀ m keysrc s, Answers (execEcdhP384 m keysrc s)) ∧ (∀ m keysrc s, Answers (execKeygenP256 m keysrc s)) ∧
    (∀ m keysrc s, Answers (execKeygenP384 m keysrc s)) ∧ (∀ m keysrc s, Answers (execX25519 m keysrc s)) ∧
    (∀ m keysrc s, Answers (execMlDsa65Verify m keysrc s)) ∧ (∀ m keysrc s, Answers (execMlKem768Decapsulation m keysrc s)) ∧
    (∀ m op s, Answers (execBadOp m op s)) ∧ (∀ s, Answers (execPkComplete s)) ∧ (∀ m s, Answers (execNewChal m s)) ∧
    (∀ m key r sg s, Answers (execSubmit m key r sg s)) := by
  and_intros
  all_goals intros
  all_goals dsimp only [execFuseProg, execKeyUnwrap, execKeyClear, execSecWinWrite, execPkClaim, execPkRelease, execEcdsaSignP256, execEcdsaSignP384,
    execEcdsaVerifyP256, execEcdsaVerifyP384, execEcdhP256, execEcdhP384, execKeygenP256, execKeygenP384, execX25519, execMlDsa65Verify,
    execMlKem768Decapsulation, execBadOp, execPkComplete, execNewChal, execSubmit]
  all_goals repeat' split
  all_goals exact Answers.next _

theorem boot_answers :
    (∀ pass s, Answers (execStartupTestDone pass s)) ∧ (∀ s, Answers (execPowerOnReset s)) ∧ (∀ by_ s, Answers (execColdReset by_ s)) ∧
    (∀ m s, Answers (execIslandReset m s)) ∧ (∀ s, Answers (execTapReset s)) ∧ (∀ readErr s, Answers (execImageVerify readErr s)) ∧
    (∀ s, Answers (execConfigRecordCheck s)) ∧ (∀ s, Answers (execRecoveryEnter s)) ∧
    (∀ rail mv s, Answers (execRailDeparture rail mv s)) ∧ (∀ rail mv s, Answers (execRailWithinTolerance rail mv s)) ∧
    (∀ s, Answers (execGroup3RailTimeout s)) ∧ (∀ cells images s, Answers (execConfigRecordApply cells images s)) := by
  and_intros
  all_goals intros
  all_goals dsimp only [execStartupTestDone, execPowerOnReset, execColdReset, execIslandReset, execTapReset, execImageVerify, execConfigRecordCheck,
    execRecoveryEnter, execRailDeparture, execRailWithinTolerance, execGroup3RailTimeout, execConfigRecordApply]
  all_goals repeat' split
  all_goals exact Answers.next _

theorem fwpCmd_answers :
    (∀ mbx s, Answers (execHello mbx s)) ∧ (∀ mbx s, Answers (execGetInfo mbx s)) ∧ (∀ mbx s, Answers (execImageWrite mbx s)) ∧
    (∀ mbx s, Answers (execImageCommit mbx s)) ∧ (∀ mbx s, Answers (execImageConfirm mbx s)) ∧ (∀ mbx s, Answers (execFwpRestart mbx s)) ∧
    (∀ mbx s, Answers (execLogRead mbx s)) ∧ (∀ mbx s, Answers (execTraceSet mbx s)) ∧ (∀ mbx s, Answers (execProfileSet mbx s)) ∧
    (∀ mbx s, Answers (execProfileGet mbx s)) ∧ (∀ mbx s, Answers (execClickSet mbx s)) ∧ (∀ mbx s, Answers (execSlotSet mbx s)) ∧
    (∀ mbx s, Answers (execQueueCtrl mbx s)) ∧ (∀ mbx s, Answers (execS2Set mbx s)) ∧ (∀ mbx s, Answers (execInstanceCtrl mbx s)) ∧
    (∀ mbx s, Answers (execPtpStep mbx s)) ∧ (∀ mbx s, Answers (execLinkStatus mbx s)) ∧ (∀ mbx s, Answers (execFaultRead mbx s)) ∧
    (∀ mbx s, Answers (execModelInstall mbx s)) ∧ (∀ mbx s, Answers (execModelEvict mbx s)) ∧ (∀ mbx s, Answers (execModelPin mbx s)) ∧
    (∀ mbx s, Answers (execModelSwitch mbx s)) ∧ (∀ mbx s, Answers (execModelStatus mbx s)) ∧ (∀ mbx s, Answers (execMbxResponse mbx s)) := by
  and_intros
  all_goals intros
  all_goals dsimp only [execHello, execGetInfo, execImageWrite, execImageCommit, execImageConfirm, execFwpRestart, execLogRead, execTraceSet, execProfileSet,
    execProfileGet, execClickSet, execSlotSet, execQueueCtrl, execS2Set, execInstanceCtrl, execPtpStep, execLinkStatus, execFaultRead,
    execModelInstall, execModelEvict, execModelPin, execModelSwitch, execModelStatus, execMbxResponse, State.mbxRun]
  all_goals repeat' split
  all_goals exact Answers.next _

theorem per_answers :
    (∀ m unit data s, Answers (execUartTxByte m unit data s)) ∧ (∀ unit data s, Answers (execUartRxByte unit data s)) ∧
    (∀ m unit v s, Answers (execI2cCmdGo m unit v s)) ∧ (∀ unit nack data s, Answers (execI2cTransferDone unit nack data s)) ∧
    (∀ m unit v s, Answers (execSpiDataWrite m unit v s)) ∧ (∀ unit v s, Answers (execSpiTransferDone unit v s)) ∧
    (∀ pin level s, Answers (execGpioEdge pin level s)) ∧ (∀ m unit v s, Answers (execXspiCmdGo m unit v s)) ∧
    (∀ unit data s, Answers (execXspiCommandDone unit data s)) ∧ (∀ m v s, Answers (execUfsDoorbell m v s)) ∧
    (∀ slot s, Answers (execUfsCompletion slot s)) ∧ (∀ data s, Answers (execExtest data s)) ∧
    (∀ data s, Answers (execSamplePreload data s)) ∧ (∀ s, Answers (execIdcode s)) ∧ (∀ s, Answers (execClamp s)) ∧
    (∀ s, Answers (execHighz s)) ∧ (∀ data s, Answers (execExtestPulse data s)) ∧ (∀ data s, Answers (execExtestTrain data s)) ∧
    (∀ s, Answers (execEcidcode s)) ∧ (∀ data s, Answers (execDbgAuth data s)) ∧ (∀ data s, Answers (execDbgPair data s)) ∧
    (∀ op s, Answers (execBypass op s)) := by
  and_intros
  all_goals intros
  all_goals dsimp only [execUartTxByte, execUartRxByte, execI2cCmdGo, execI2cTransferDone, execSpiDataWrite, execSpiTransferDone, execGpioEdge, execXspiCmdGo,
    execXspiCommandDone, execUfsDoorbell, execUfsCompletion, execExtest, execSamplePreload, execIdcode, execClamp, execHighz,
    execExtestPulse, execExtestTrain, execEcidcode, execDbgAuth, execDbgPair, execBypass]
  all_goals repeat' split
  all_goals exact Answers.next _

theorem exec_answers (c : Instr) (s : State) : Answers (exec c s) := by
  cases c
  all_goals dsimp only [exec]
  all_goals simp only [fabric_answers, phx_answers, hqm_answers, island_answers, cellAlu_answers, cellUnit_answers, cellCtl_answers,
    clicking_answers, ras_answers, dpy_answers, mbx_answers, sfe_answers, wpe_answers, inst_answers, pwr_answers, ptp_answers, net_answers,
    sec_answers, boot_answers, fwpCmd_answers, per_answers]

/-- A step performs the front command on the queue's rest, or lets time pass. -/
theorem step_of_empty {s : State} (h : s.pending = []) : step s = .next s.idle := by
  unfold step
  rw [h]

theorem step_of_front {s : State} {c : Instr} {rest : List Instr} (h : s.pending = c :: rest) :
    step s = exec c { s with pending := rest } := by
  unfold step
  rw [h]

theorem step_answers (s : State) : Answers (step s) := by
  cases h : s.pending with
  | nil => rw [step_of_empty h]; exact .next _
  | cons c rest => rw [step_of_front h]; exact exec_answers c _

end Sys2Proof.Machine

open Sys2Proof Sys2Proof.Machine

/-- Settles O1. -/
theorem stepRunsTheFrontCommand : Obligations.StepRunsTheFrontCommand :=
  ⟨fun _ _ _ => rfl, fun _ h => step_of_empty h⟩

/-- Settles O2: every leaf of every meaning is a next state. The statement says nothing of the state reached; that exec is total is
the model's choice (log 270). -/
theorem everyCommandAnswersANextState : Obligations.EveryCommandAnswersANextState :=
  ⟨exec_answers, step_answers⟩
end

section
/-! PROOF. What a step keeps: the canonical form, blown fuses, the queue's rest, and time (O3 to O6, O59). -/

namespace Sys2Proof.Machine

/-- A step keeps what every command keeps, with the front command gone from the queue. -/
theorem step_keeps {s t : State} (h : step s = .next t) : Keeps { s with pending := s.pending.tail } t := by
  cases hp : s.pending with
  | nil =>
    rw [step_of_empty hp] at h
    cases h
    exact ⟨hp, id, id, fun _ => id, Nat.le_succ _⟩
  | cons c rest =>
    rw [step_of_front hp] at h
    exact (exec_keeps (Keeps.refl _)).of_next h

theorem State.queueOk_of_tail {s t : State} (h : t.pending = s.pending.tail) (hs : s.queueOk = true) : t.queueOk = true := by
  unfold State.queueOk at *
  rw [List.all_eq_true] at *
  rw [h]
  exact fun c hc => hs c (List.mem_of_mem_tail hc)

end Sys2Proof.Machine

open Sys2Proof Sys2Proof.Machine

/-- Settles O3. -/
theorem resetStateIsCanonical : Obligations.ResetStateIsCanonical :=
  ⟨rfl, rfl, rfl, fun _ => rfl, fun _ => rfl⟩

/-- Settles O4: a step keeps the order of both stores, because every command does. -/
theorem everyStepKeepsTheCanonicalForm : Obligations.EveryStepKeepsTheCanonicalForm := by
  intro s t hs h
  have hk := step_keeps h
  obtain ⟨hmem, hregs⟩ := State.canonical_iff.mp hs
  exact State.canonical_iff.mpr ⟨hk.mem hmem, hk.regs hregs⟩

/-- Settles O5: no command clears a fuse. -/
theorem blownFusesStayBlown : Obligations.BlownFusesStayBlown :=
  fun _ _ k hk h => (step_keeps h).fuses k hk

/-- Settles O6: a command leaves the queue's rest alone, and time does not decrease (log 7). -/
theorem stepConsumesOneCommandAndTimeNeverRunsBack : Obligations.StepConsumesOneCommandAndTimeNeverRunsBack := by
  intro s t h
  have hk := step_keeps h
  exact ⟨hk.queue, hk.now, State.queueOk_of_tail hk.queue⟩

/-- Settles O59: selecting IDCODE puts the instruction capture and then the number on TDO. -/
theorem theIdcodeIsTheStatedNumber : Obligations.TheIdcodeIsTheStatedNumber := by
  refine ⟨0x1A8D0A9B, fun s => ⟨_, rfl, rfl, ?_, rfl⟩, by decide⟩
  simp [Emitted, State.tapSelect, State.emit]
end

section
/-! PROOF. O39 is refuted: outside the canonical form, a write to the queue table moves other bytes of memory. -/

namespace Sys2Proof.Machine

/-- An empty queue of 16 entries of 16 bytes. -/
def idleQueue : HqmQ := ⟨0, 4, 0, 0, 0, 1, 0, 0, 0, 0, false⟩

/-- Queue 0 is enabled; memory lists byte 1000 before byte 3, so byte 3 reads as unlisted. -/
def unsortedMemory : State := { State.reset with mem := [(1000, 1), (3, 7)], hqm.queues := [(0, idleQueue)] }

/-- The doorbell moves HEAD of queue 0 to 0, where it stands. -/
theorem exec_doorbell_unsortedMemory :
    exec (.hqmDoorbell 0 none 0 (2 ^ 63)) unsortedMemory =
      .next ((unsortedMemory.setQueue 0 { idleQueue with head := 0 }).respOk []) :=
  congrArg Host.Outcome.next (by decide +kernel)

/-- Byte 3 reads 0, and 7 once the entry of queue 0 was written: the write puts the bytes below it first. -/
theorem byte_three_unsortedMemory :
    unsortedMemory.byte 3 = 0 ∧ ((unsortedMemory.setQueue 0 { idleQueue with head := 0 }).respOk []).byte 3 = 7 := by
  decide +kernel

end Sys2Proof.Machine

open Sys2Proof Sys2Proof.Machine

/-- Refutes O39: its first clause does not ask for canonical memory, and in a memory whose addresses do not rise the HEAD written to
the queue's table entry shows a byte below the entry that was hidden before. -/
theorem not_hardwareQueuesRingPostAndChangeState : ¬ Obligations.HardwareQueuesRingPostAndChangeState := by
  unfold Obligations.HardwareQueuesRingPostAndChangeState
  rintro ⟨hring, -⟩
  obtain ⟨-, hqueue⟩ := hring unsortedMemory 0 none 0 (2 ^ 63)
  obtain ⟨-, -, -, hgood⟩ := hqueue idleQueue (by decide +kernel)
  obtain ⟨-, hhead, -⟩ := hgood rfl (.inl rfl) (.inl rfl)
  obtain ⟨t, ht, -, -, hmem, -⟩ := hhead (by decide +kernel) (by decide +kernel)
  have hbyte := hmem 3 (by decide +kernel)
  obtain ⟨hbefore, hafter⟩ := byte_three_unsortedMemory
  rw [← Host.Outcome.next.inj (exec_doorbell_unsortedMemory.symm.trans ht), hbefore, hafter] at hbyte
  exact absurd hbyte (by decide)
end

section
/-! PROOF. O44 is refuted: outside the canonical form, a POWER_ON reset may leave COLD_COUNT as it was. -/

namespace Sys2Proof.Machine

namespace WordsIn

variable {P : Nat → Prop} {s t : State}

theorem resetBlock (h : WordsIn P s t) {k : Nat} (hP : ∀ o, o < 0x100000 → P (blkBase k + o)) : WordsIn P s (t.resetBlock k) := by
  refine ⟨fmDelRange_wf _ _ h.wf, fun a ha => ?_⟩
  rw [State.resetBlock, State.word_resetRegs h.wf, if_neg, h.word a ha]
  intro hin
  exact ha (by simpa [Nat.add_sub_cancel' hin.1] using hP (a - blkBase k) (by omega))

/-- A sequence of such operations, one for each item of a list. -/
theorem foldl {α : Type} {f : State → α → State} (items : List α) (h : WordsIn P s t)
    (hf : ∀ u x, x ∈ items → WordsIn P s u → WordsIn P s (f u x)) : WordsIn P s (items.foldl f t) := by
  induction items generalizing t with
  | nil => exact h
  | cons x r ih => exact ih (hf t x List.mem_cons_self h) fun u y hy => hf u y (List.mem_cons_of_mem _ hy)

end WordsIn

/-- Words that a reset of SEC may write: its block, the bits of fuse fields in SYS, and the ports' numbers. -/
def secWord (a : Nat) : Prop := rSec 0 ≤ a ∧ a < rSec 0x100000 ∨ a = rSys 4 ∨ ∃ n, n < 4 ∧ a = rPciPort n 8

theorem secWord_rSec {o : Nat} (h : o < 0x100000) : secWord (rSec o) := .inl (by simp only [rSec]; omega)

theorem WordsIn.setRegBytes_sec {s t : State} (h : WordsIn secWord s t) {o : Nat} {l : List Byte} (hl : o + l.length ≤ 0x80000) :
    WordsIn secWord s (t.setRegBytes (rSec o) l) := by
  refine h.setWords _ fun i hi => ?_
  rw [wordsOf_length] at hi
  rw [show rSec o + 4 * i = rSec (o + 4 * i) by simp only [rSec]; omega]
  exact secWord_rSec (by omega)

theorem WordsIn.showFuses {s t : State} (h : WordsIn secWord s t) : WordsIn secWord s t.showFuses := by
  have h0 : secWord (rSec 0) := secWord_rSec (by omega)
  unfold State.showFuses
  exact .foldl _ ((((h.setRegBytes_sec (by rw [leBytes_length]; omega)).setFld _ _ _ h0).setBit _ _ h0).setBit _ _ (.inr (.inl rfl)))
    fun u n hn hu => hu.setWord _ (.inr (.inr ⟨n, List.mem_range.mp hn, rfl⟩))

theorem beBytes_length (n x : Nat) : (beBytes n x).length = n := by
  rw [beBytes, List.length_reverse, leBytes_length]

theorem State.secReset_words {s : State} (h : regsWf s.regs = true) (pufOk : Bool) : WordsIn secWord s (s.secReset pufOk) := by
  have h0 : secWord (rSec 0) := secWord_rSec (by omega)
  unfold State.secReset
  dsimp only
  generalize hu : State.showFuses _ = u
  have hclear : WordsIn secWord s u := by
    rw [← hu]
    exact .showFuses (.upd (t := s.resetBlock bSEC) ((WordsIn.refl h).resetBlock fun o ho => secWord_rSec ho) rfl)
  have hblank := WordsIn.ite (p := u.isBlank = true) (hclear.orWord 1 h0) hclear
  split
  · split
    · refine (hblank.orWord 2 h0).setRegBytes_sec ?_
      rw [List.length_append, List.length_append, beBytes_length, beBytes_length, List.length_singleton]
      omega
    · exact hblank.orWord 2 h0
  · exact hblank.orWord 4 h0

/-- The candidates for boot go into one word of FWP. -/
theorem State.bootSelect_words {P : Nat → Prop} {s t : State} (h : WordsIn P s t) (hP : P (rFwp 0x10)) : WordsIn P s t.bootSelect :=
  (h.setWord _ hP).upd rfl

theorem secWord_not_rCkg {o : Nat} (h : o < 0x100000) : ¬secWord (rCkg o) := by
  rintro (h | h | ⟨n, hn, h⟩)
  all_goals simp only [rSec, rCkg, rSys, rPciPort, rPci, blkBase, bSEC, bCKG, bSYS, bPCI] at h; omega

/-- CKG_RESET_CAUSE after a COLD reset: its cause, and COLD_COUNT as before. -/
theorem State.coldState_cause (s : State) (cause : Nat) :
    (s.coldState cause).word (rCkg 0xC) = (cause % 16 + 2 ^ 16 * s.fld (rCkg 0xC) 31 16) % 2 ^ 32 := by
  unfold State.coldState
  dsimp only
  generalize hu : State.setWord64 _ (blkBase bPER + 0x3010) _ = u
  have hwf : regsWf u.regs = true := by
    rw [← hu]
    exact State.setWord64_regsWf (State.setWord_regsWf rfl _ _) _ _
  have hword : u.word (rCkg 0xC) = (cause % 16 + 2 ^ 16 * s.fld (rCkg 0xC) 31 16) % 2 ^ 32 := by
    rw [← hu, State.word_setWord64_other (State.setWord_regsWf rfl _ _) _ (by decide) (by decide), State.word_setWord_same rfl]
  have hstate : rFltState ≠ rCkg 0xC := by decide
  generalize hv : State.setBit _ (rCkg 0x10) _ _ = v
  have hsync : WordsIn (· ≠ rCkg 0xC) u v := by
    rw [← hv]
    refine WordsIn.setBit (t := State.updateFc _) ?_ _ _ (by decide)
    exact (((WordsIn.refl (P := fun a => a ≠ rCkg 0xC) hwf).setBit (a := rFltState) _ _ hstate).setBit (a := rFltState) _ _ hstate).setFld (a := rFltState) _ _ _ hstate
  have hsec := State.secReset_words hsync.wf (Config.pufReconstructs v.sec.powerOns)
  have hboot := State.bootSelect_words (P := fun a => a ≠ rCkg 0xC) (WordsIn.refl hsec.wf) (by decide)
  rw [hboot.word _ (not_not.mpr rfl), hsec.word _ (secWord_not_rCkg (by omega)), hsync.word _ (not_not.mpr rfl), hword]

/-- The word of COLD_COUNT is listed twice in the register file: it reads 1, and a second entry with count 5 is hidden behind. -/
def doubledColdCount : State := { State.reset with regs := [(rCkg 0xC, 1), (rCkg 0xC, 0x50000)] }

/-- The state in which the reset's writes of CKG_RESET_CAUSE and of FLT_STATE are done. -/
def uncoveredColdCount : State :=
  { ((doubledColdCount.setWord (rCkg 0xC) 0).setBit rFltState stL false).setBit rFltState stRing false with
    flt.sExits := [], tap := .reset, sec.powerOns := 1 }

theorem powerOnReset_doubledColdCount : doubledColdCount.powerOnReset 0 = uncoveredColdCount.coldState 0 := by
  have hgrp3 : doubledColdCount.bit (rPwr 4) 4 = false := by decide +kernel
  unfold State.powerOnReset
  rw [hgrp3]
  rfl

theorem count_uncoveredColdCount : uncoveredColdCount.fld (rCkg 0xC) 31 16 = 5 := by
  decide +kernel

end Sys2Proof.Machine

open Sys2Proof Sys2Proof.Machine

/-- Refutes O44: its first clause does not ask for the canonical form; with a register file that lists the word of COLD_COUNT twice,
a POWER_ON reset leaves the count of the second entry. -/
theorem not_resetsBootAndRestarts : ¬ Obligations.ResetsBootAndRestarts := by
  unfold Obligations.ResetsBootAndRestarts
  rintro ⟨hreset, -⟩
  obtain ⟨t, ht, -, -, -, -, -, -, -, -, -, -, -, -, hcount, -⟩ := hreset doubledColdCount
  rw [← Host.Outcome.next.inj ht, powerOnReset_doubledColdCount, State.fld, State.coldState_cause, count_uncoveredColdCount] at hcount
  exact absurd hcount (by decide)
end

section
/-! PROOF. O50 is refuted: outside the canonical form, ending a pending step moves the clock that the step is added to. -/

namespace Sys2Proof.Machine

/-- A step of 0 waits on clock 0. Its pending step is listed before the clock's fraction, which reads as unlisted. -/
def unsortedClock : State :=
  { State.reset with
    regs := [(rPtpClk 0 0x40, 1), (rPtpClk 0 0x10, 5)]
    ptp := { PtpS.reset with clk := PtpS.reset.clk.set 0 { PtpClk.reset with step := some 0 } } }

/-- The step that waits has been taken, and its hold has ended. -/
def unheldClock : State := (unsortedClock.modPclk 0 fun x => { x with step := none, set := none }).ptpUnhold 0

/-- The command adds the step to the time as it reads once the hold has ended. -/
theorem exec_ptpStepApply_unsortedClock :
    exec (.ptpStepApply 0) unsortedClock = .next (unheldClock.ptpApplied 0 (unheldClock.ptpQ 0 + 0 * (2 ^ 32 : Nat))) :=
  rfl

/-- The fraction of the time applied: 5, where the step added to the time before it gives 0. -/
theorem fraction_unheldClock :
    (unheldClock.ptpApplied 0 (unheldClock.ptpQ 0 + 0 * (2 ^ 32 : Nat))).word (rPtpClk 0 0x10) = 5 ∧
    (unheldClock.ptpApplied 0 (unsortedClock.ptpQ 0 + 0 * 2 ^ 32)).word (rPtpClk 0 0x10) = 0 := by
  decide +kernel

end Sys2Proof.Machine

open Sys2Proof Sys2Proof.Machine

/-- Refutes O50: its clause for a step at its edge does not ask for the canonical form; where the file lists the pending step before the
clock's fraction, clearing the pending step shows another fraction, and the step is added to that. -/
theorem not_clocksStepSlewAndPulse : ¬ Obligations.ClocksStepSlewAndPulse := by
  unfold Obligations.ClocksStepSlewAndPulse
  rintro ⟨-, -, -, -, -, -, happly, -⟩
  obtain ⟨-, hstep, -⟩ := happly unsortedClock 0
  obtain ⟨hnext, -⟩ := hstep 0 (by decide +kernel)
  have hword := congrArg (State.word · (rPtpClk 0 0x10)) (Host.Outcome.next.inj (exec_ptpStepApply_unsortedClock.symm.trans hnext))
  obtain ⟨hgot, hsaid⟩ := fraction_unheldClock
  exact absurd (hgot.symm.trans (hword.trans hsaid)) (by decide)
end

section
/-! PROOF. O49 is refuted: outside the canonical form, counting the fault of a refused table write engages the heel. -/

namespace Sys2Proof.Machine

/-- The heel in force. -/
def freshHeel : Traj := ⟨0, [], 0, 0, 0, 0, false, false⟩

/-- A table write waits, port 0 is up with its swap pending, and source 0x20 has counted up to the last value. Behind that count, out of
order, the file lists FLT_STATE with class S ACTIVE, so FLT_STATE reads as unlisted. -/
def coveredClassS : State :=
  { State.reset with
    regs := [(rFlt 0x180, 0xFFFFFFFF), (rFltState, BitVec.ofNat 32 (2 ^ stS)), (rEth 0x34, 1), (rEthPort 0 4, 1), (rEthPort 0 0x3C, 2)]
    wpe.heel := some freshHeel }

/-- What a write of an admin list does whose swap is pending: the flag and the fault. -/
def refusedTableWrite : State :=
  (((coveredClassS.setWord (rEth 0x30) 7).respOk []).orWord (rEth 0) 0x20).fault 0x20 1 (mFwp 3) 0 7

theorem exec_ethTblGo_coveredClassS : exec (.ethTblGo (mFwp 3) 7 0) coveredClassS = .next refusedTableWrite :=
  rfl

/-! The extra frame of a heel (R354, R357) is queued at port 0 when that port is up and holds no trajectory frame. -/

/-- Trajectory frames go to port 0 only, which is up and holds none. -/
structure TrajPortFree (s : State) : Prop where
  port : s.word (rWpe 0xB0) = 0
  link : s.ethLink 0 = true
  empty : s.ethQueue 0 7 = []

theorem State.ethQueue_ethEnqueue_same (s : State) (p k : Nat) (f : EthFrame) :
    (s.ethEnqueue p k f).ethQueue p k = s.ethQueue p k ++ [f] := fmGetD_fmPut_same ..

theorem TrajPortFree.trajToPort {s : State} (h : TrajPortFree s) (f : EthFrame) : s.trajToPort 0 f = (s.ethEnqueue 0 7 f, true) := by
  rw [State.trajToPort, h.link, h.empty]
  rfl

theorem TrajPortFree.trajSend {s : State} (h : TrajPortFree s) (payload : List Byte) (seq : Nat) :
    (s.trajSend payload seq).ethQueue 0 7 ≠ [] := by
  have hfree : TrajPortFree (trajSource s).2 := ⟨h.port, h.link, h.empty⟩
  have hport : bitsOf 0 4 0 = 0 := rfl
  have hdup : bitOf 0 31 = false := rfl
  unfold State.trajSend
  dsimp only
  rw [h.port, hport, hdup, hfree.trajToPort]
  simp [State.ethQueue_ethEnqueue_same]

/-- Words that a frame's payload and the shown state of the heel do not touch. -/
def besideTrajPort (a : Nat) : Prop := a ≠ rWpe 0xB0 ∧ a ≠ rEthPort 0 4

theorem TrajPortFree.of_words {s t : State} (h : TrajPortFree s) (k : WordsIn besideTrajPort s t) (heth : t.eth = s.eth) :
    TrajPortFree t := by
  have hB0 := k.word (rWpe 0xB0) fun n => n.1 rfl
  have h4 := k.word (rEthPort 0 4) fun n => n.2 rfl
  refine ⟨hB0.trans h.port, ?_, ?_⟩
  · rw [State.ethLink, State.bit_congr h4]; exact h.link
  · rw [State.ethQueue, heth]; exact h.empty

theorem besideTrajPort_rWpe {o : Nat} (h : o < 0x100000) (hne : o ≠ 0xB0) : besideTrajPort (rWpe o) := by
  simp only [besideTrajPort, rWpe, rEthPort, rEth, blkBase, bWPE, bETH]
  omega

theorem State.setWords_eth (vs : List Nat) : ∀ (s : State) (a : Nat), (s.setWords a vs).eth = s.eth := by
  induction vs with
  | nil => exact fun _ _ => rfl
  | cons v r ih => exact fun s a => ih (s.setWord a v) (a + 4)

theorem TrajPortFree.wpeFrame {s : State} (h : TrajPortFree s) (hwf : regsWf s.regs = true) (cmd flags result : Nat)
    (plan : Option Traj) (heel : Traj) : (s.wpeFrame cmd flags result plan heel).ethQueue 0 7 ≠ [] := by
  unfold State.wpeFrame
  dsimp only
  generalize hb : framePayload _ _ _ _ _ _ _ _ _ = body
  have hlen : (body ++ leBytes 4 (crc32c body)).length = 748 := by
    rw [List.length_append, leBytes_length, ← hb, framePayload_length]
  generalize body ++ leBytes 4 (crc32c body) = payload at *
  refine TrajPortFree.trajSend (h.of_words (WordsIn.bump ((WordsIn.refl hwf).setWords _ fun i hi => ?_)
    (besideTrajPort_rWpe (by omega) (by omega))) ?_) _ _
  · rw [wordsOf_length, hlen] at hi
    rw [show rWpe 0x1000 + 4 * i = rWpe (0x1000 + 4 * i) by simp only [rWpe]; omega]
    exact besideTrajPort_rWpe (by omega) (by omega)
  · exact State.setWords_eth ..

theorem TrajPortFree.engageWith {s : State} (h : TrajPortFree s) (hwf : regsWf s.regs = true) (heel : Traj) :
    (s.engageWith heel).ethQueue 0 7 ≠ [] := by
  have hbegin : WordsIn besideTrajPort s ({ s with wpe.engaged := some heel } : State) := (WordsIn.refl hwf).upd rfl
  have hstatus := ((hbegin.setBit 6 true (besideTrajPort_rWpe (o := 4) (by omega) (by omega))).orWord 0x200
    (besideTrajPort_rWpe (o := 8) (by omega) (by omega))).setFld 31 24 0 (besideTrajPort_rWpe (o := 4) (by omega) (by omega))
  exact TrajPortFree.wpeFrame (h.of_words hstatus rfl) hstatus.wf _ _ _ _ _

/-- A fault that makes class S or L ACTIVE engages a valid heel. -/
theorem State.faultEv_engages {s : State} {ev : FaultEv} {heel : Traj} (hev : ev.inj = s.awl.inj) (hbefore : s.safeActive = false)
    (hafter : (s.collect ev).safeActive = true) (hheel : (s.collect ev).wpe.heel = some heel)
    (hvalid : (s.collect ev).heelValid heel = true) : s.faultEv ev = (s.collect ev).engageWith heel := by
  have hinj : ({ ev with inj := ev.inj || s.awl.inj } : FaultEv) = ev := by rw [hev, Bool.or_self, ← hev]
  unfold State.faultEv
  rw [hinj, hbefore]
  simp only [hafter, Bool.not_false, Bool.and_self, if_true]
  unfold State.heelEngage
  rw [hheel]
  simp only [hvalid, if_true]
  rfl

/-- The state when the fault is recorded. -/
def flaggedTableWrite : State := ((coveredClassS.setWord (rEth 0x30) 7).respOk []).orWord (rEth 0) 0x20

/-- The fault as the collector takes it. -/
def tableFault : FaultEv := ⟨0x20, 1, 0, mFwp 3, 0, 7, 0, false⟩

/-- The count wraps to 0 and goes from the file, FLT_STATE shows class S, and the heel engages. -/
theorem refusedTableWrite_engages : refusedTableWrite = (flaggedTableWrite.collect tableFault).engageWith freshHeel :=
  State.faultEv_engages (s := flaggedTableWrite) (ev := tableFault) (by decide) (by decide +kernel) (by decide +kernel)
    (by decide +kernel) (by decide +kernel)

theorem ethQueue_refusedTableWrite : refusedTableWrite.ethQueue 0 7 ≠ [] := by
  rw [refusedTableWrite_engages]
  exact TrajPortFree.engageWith ⟨by decide +kernel, by decide +kernel, by decide +kernel⟩ (by decide +kernel) _

end Sys2Proof.Machine

open Sys2Proof Sys2Proof.Machine

/-- Refutes O49: its clause for an admin list whose swap is pending does not ask for the canonical form; in a file out of order the
count of the fault shows a hidden class S, and the extra frame of the heel (R354) is queued. -/
theorem not_schedulesStampsAndTablesOfTheSwitch : ¬ Obligations.SchedulesStampsAndTablesOfTheSwitch := by
  unfold Obligations.SchedulesStampsAndTablesOfTheSwitch
  rintro ⟨-, -, -, -, -, -, htable⟩
  obtain ⟨-, -, -, hwrite⟩ := htable coveredClassS (mFwp 3) 7 0
  obtain ⟨hpending, -⟩ := hwrite (by decide +kernel) (by decide +kernel) (by decide +kernel)
  obtain ⟨t, ht, heth⟩ := hpending rfl (by decide +kernel)
  rw [← Host.Outcome.next.inj (exec_ethTblGo_coveredClassS.symm.trans ht)] at heth
  refine ethQueue_refusedTableWrite ?_
  rw [State.ethQueue, heth]
  rfl
end

section
/-! PROOF. What recording a fault keeps of the collector's own state: raised interrupts, the last kick, and the time. -/

namespace Sys2Proof.Machine

/-- Interrupts of the collector stay raised; the last kick and the time are as before. -/
structure CollectorKept (s t : State) : Prop where
  wf : regsWf t.regs = true
  irq : ∀ k, k < 32 → s.bit rFltIrq k = true → t.bit rFltIrq k = true
  kick : t.flt.kickFrom = s.flt.kickFrom
  now : t.now = s.now

namespace CollectorKept

variable {s t : State}

theorem refl (h : regsWf s.regs = true) : CollectorKept s s := ⟨h, fun _ _ => id, rfl, rfl⟩

theorem trans {u : State} (h : CollectorKept s t) (k : CollectorKept t u) : CollectorKept s u :=
  ⟨k.wf, fun n hn hs => k.irq n hn (h.irq n hn hs), k.kick.trans h.kick, k.now.trans h.now⟩

theorem upd {u : State} (h : CollectorKept s t) (hr : u.regs = t.regs) (hk : u.flt.kickFrom = t.flt.kickFrom) (hn : u.now = t.now) :
    CollectorKept s u :=
  ⟨by rw [hr]; exact h.wf, fun k hk hs => by rw [State.bit_congr (State.word_congr hr _)]; exact h.irq k hk hs, hk.trans h.kick,
    hn.trans h.now⟩

theorem setWord (h : CollectorKept s t) {a : Nat} (v : Nat) (ha : a ≠ rFltIrq) : CollectorKept s (t.setWord a v) :=
  ⟨State.setWord_regsWf h.wf _ _,
    fun k hk hs => by rw [State.bit_congr (State.word_setWord_other h.wf v ha.symm)]; exact h.irq k hk hs, h.kick, h.now⟩

theorem setBit (h : CollectorKept s t) {a : Nat} (n : Nat) (b : Bool) (ha : a ≠ rFltIrq) : CollectorKept s (t.setBit a n b) :=
  h.setWord _ ha

theorem bump (h : CollectorKept s t) {a : Nat} (ha : a ≠ rFltIrq) : CollectorKept s (t.bump a) := h.setWord _ ha

theorem raise (h : CollectorKept s t) (m : Nat) : CollectorKept s (t.orWord rFltIrq m) :=
  ⟨State.orWord_regsWf h.wf _ _, fun k hk hs => by rw [State.bit_orWord_same h.wf _ _ hk, h.irq k hk hs, Bool.true_or], h.kick, h.now⟩

theorem ite {p : Prop} {_ : Decidable p} {u : State} (h : CollectorKept s t) (k : CollectorKept s u) :
    CollectorKept s (if p then t else u) := by
  split
  · exact h
  · exact k

theorem setWords (vs : List Nat) : ∀ {t : State} {a : Nat}, CollectorKept s t → (∀ i, i < vs.length → a + 4 * i ≠ rFltIrq) →
    CollectorKept s (t.setWords a vs) := by
  induction vs with
  | nil => exact fun h _ => h
  | cons v r ih =>
    intro t a h ha
    refine ih (h.setWord v (by simpa using ha 0 (by simp))) fun i hi => ?_
    have := ha (i + 1) (by simpa using hi)
    rwa [show a + 4 + 4 * i = a + 4 * (i + 1) by omega]

theorem rFlt_ne_rFltIrq {o : Nat} (h : o ≠ 0x10) : rFlt o ≠ rFltIrq := by
  unfold rFltIrq rFlt
  omega

theorem putAlarm (h : CollectorKept s t) (rcd : List Byte) : CollectorKept s (t.putAlarm rcd) :=
  (((h.upd (u := t.store _ rcd) rfl rfl rfl).setWord _ (rFlt_ne_rFltIrq (o := 0x30) (by decide))).raise 1).upd rfl rfl rfl

theorem putNotice (h : CollectorKept s t) (rcd : List Byte) : CollectorKept s (t.putNotice rcd) := by
  have hput (a : Nat) := (h.upd (u := t.store a rcd) rfl rfl rfl).setWord t.flt.seq (rFlt_ne_rFltIrq (o := 0x48) (by decide))
  unfold State.putNotice
  dsimp only
  split
  · exact (((hput _).bump (rFlt_ne_rFltIrq (o := 0x4C) (by decide))).raise 0x80).upd rfl rfl rfl
  · exact (hput _).upd rfl rfl rfl

theorem recordFault (h : CollectorKept s t) (ev : FaultEv) (time tf : Nat) : CollectorKept s (t.recordFault ev time tf).1 := by
  unfold State.recordFault
  split
  · split
    · exact ((h.bump (rFlt_ne_rFltIrq (o := 0x38) (by decide))).raise 2).upd rfl rfl rfl
    · exact h.putAlarm _
  · split
    · exact h
    · refine putNotice ?_ _
      exact h.upd rfl rfl rfl

theorem capture (h : CollectorKept s t) (cls : Nat) (rcd : List Byte) : CollectorKept s (t.capture cls rcd) := by
  have hset {u : State} (hu : CollectorKept s u) {o : Nat} (ho : 0x200 ≤ o) (l : List Byte) :
      CollectorKept s (u.setRegBytes (rFlt o) l) := by
    refine hu.setWords _ fun i _ => ?_
    rw [show rFlt o + 4 * i = rFlt (o + 4 * i) by unfold rFlt; omega]
    exact rFlt_ne_rFltIrq (by omega)
  exact hset (ite h (hset h (by omega) _)) (by omega) _

theorem pinsSafe (h : CollectorKept s t) : CollectorKept s t.pinsSafe := by
  have hstate : rFltState ≠ rFltIrq := rFlt_ne_rFltIrq (by decide)
  exact ((ite (h.upd (u := t.emit (.pin ballSafeN false)) rfl rfl rfl) h).setBit _ _ hstate).setBit _ _ hstate

theorem classState (h : CollectorKept s t) (ev : FaultEv) : CollectorKept s (t.classState ev) := by
  have hstate : rFltState ≠ rFltIrq := rFlt_ne_rFltIrq (by decide)
  unfold State.classState
  split
  · exact h.upd rfl rfl rfl
  · exact h.upd rfl rfl rfl
  · exact ((ite h (h.raise 4)).setBit _ _ hstate).upd rfl rfl rfl
  · refine pinsSafe (upd ((ite h (h.raise 0x10)).setBit stS true hstate) ?_ rfl rfl)
    rfl
  · exact ((ite h (h.raise 0x40)).setBit _ _ hstate).pinsSafe

theorem collect (h : CollectorKept s t) (ev : FaultEv) : CollectorKept s (t.collect ev) := by
  have hcount : rFlt (0x100 + ev.src % 64 * 4) ≠ rFltIrq := rFlt_ne_rFltIrq (by omega)
  exact (((((h.bump hcount).recordFault ev _ _).capture _ _).classState ev).setWord _ (rFlt_ne_rFltIrq (o := 0xC) (by decide)))

end CollectorKept

/-! The engagement of the heel (R354) changes registers, the switch's queues, the plan engine and the open values used. -/

/-- Only registers, the switch, the plan engine and the open values used differ. -/
def HeelOnly (s t : State) : Prop := ∃ r e w f, t = { s with regs := r, eth := e, wpe := w, free := f }

theorem HeelOnly.refl (s : State) : HeelOnly s s := ⟨_, _, _, _, rfl⟩

theorem HeelOnly.trans {s t u : State} (h : HeelOnly s t) (k : HeelOnly t u) : HeelOnly s u := by
  obtain ⟨_, _, _, _, rfl⟩ := h
  obtain ⟨_, _, _, _, rfl⟩ := k
  exact ⟨_, _, _, _, rfl⟩

theorem HeelOnly.ite {p : Prop} {_ : Decidable p} {s t u : State} (h : HeelOnly s t) (k : HeelOnly s u) :
    HeelOnly s (if p then t else u) := by
  split
  · exact h
  · exact k

theorem HeelOnly.bump {s t : State} (h : HeelOnly s t) (a : Nat) : HeelOnly s (t.bump a) := h.trans ⟨_, _, _, _, rfl⟩

theorem HeelOnly.orWord {s t : State} (h : HeelOnly s t) (a m : Nat) : HeelOnly s (t.orWord a m) := h.trans ⟨_, _, _, _, rfl⟩

theorem HeelOnly.setWords (vs : List Nat) : ∀ (s : State) (a : Nat), HeelOnly s (s.setWords a vs) := by
  induction vs with
  | nil => exact fun s _ => .refl s
  | cons v r ih => exact fun s a => HeelOnly.trans ⟨_, _, _, _, rfl⟩ (ih (s.setWord a v) (a + 4))

theorem HeelOnly.trajToPort (s : State) (port : Nat) (f : EthFrame) : HeelOnly s (s.trajToPort port f).1 := by
  unfold State.trajToPort
  split <;> exact ⟨_, _, _, _, rfl⟩

/-- The second port takes the frame only when it is duplicated. -/
theorem HeelOnly.trajToSecond {s t : State} (h : HeelOnly s t) {p : Prop} [Decidable p] (port : Nat) (f : EthFrame) :
    HeelOnly s (if p then t.trajToPort port f else (t, false)).1 := by
  split
  · exact h.trans (.trajToPort ..)
  · exact h

theorem HeelOnly.trajSend (s : State) (payload : List Byte) (seq : Nat) : HeelOnly s (s.trajSend payload seq) := by
  have hsrc : HeelOnly s (trajSource s).2 := ⟨_, _, _, _, rfl⟩
  unfold State.trajSend
  dsimp only
  generalize (trajSource s).2 = u at *
  refine hsrc.trans (.ite ?_ (.orWord (.bump ?_ _) _ _))
  · exact .trajToSecond (.trajToPort u _ _) _ _
  · exact .trajToSecond (.trajToPort u _ _) _ _

theorem HeelOnly.wpeFrame (s : State) (cmd flags result : Nat) (plan : Option Traj) (heel : Traj) :
    HeelOnly s (s.wpeFrame cmd flags result plan heel) :=
  ((HeelOnly.setWords _ s _).trans ⟨_, _, _, _, rfl⟩).trans (.trajSend ..)

theorem State.hardHeel_only (s : State) : HeelOnly s s.hardHeel.2 := by
  have hlatched : HeelOnly s s.latchedOrFree.2 := by
    unfold State.latchedOrFree
    split
    · exact .refl s
    · exact ⟨_, _, _, _, rfl⟩
  exact hlatched

theorem State.engageWith_only (s : State) (heel : Traj) : HeelOnly s (s.engageWith heel) :=
  HeelOnly.trans ⟨_, _, _, _, rfl⟩ (.wpeFrame ..)

theorem State.heelEngage_only (s : State) : HeelOnly s s.heelEngage := by
  have hhard : HeelOnly s (s.hardHeel.2.engageWith s.hardHeel.1) := s.hardHeel_only.trans (State.engageWith_only ..)
  unfold State.heelEngage
  cases s.wpe.heel with
  | none => exact hhard
  | some h =>
    dsimp only
    split
    · exact State.engageWith_only s h
    · exact hhard

/-! A fault of class N, C or D leaves the outputs alone. -/

theorem State.setWords_out (vs : List Nat) : ∀ (s : State) (a : Nat), (s.setWords a vs).out = s.out := by
  induction vs with
  | nil => exact fun _ _ => rfl
  | cons v r ih => exact fun s a => ih (s.setWord a v) (a + 4)

theorem State.recordFault_out (s : State) (ev : FaultEv) (time tf : Nat) : (s.recordFault ev time tf).1.out = s.out := by
  unfold State.recordFault
  split
  · split <;> rfl
  · split
    · rfl
    · unfold State.putNotice
      dsimp only
      split <;> rfl

theorem State.capture_out (s : State) (cls : Nat) (rcd : List Byte) : (s.capture cls rcd).out = s.out := by
  refine (State.setWords_out ..).trans ?_
  split
  · rfl
  · exact State.setWords_out ..

theorem State.classState_out_low {s : State} {ev : FaultEv} (hc : 1 ≤ ev.cls ∧ ev.cls ≤ 3) : (s.classState ev).out = s.out := by
  obtain hc | hc | hc : ev.cls = 1 ∨ ev.cls = 2 ∨ ev.cls = 3 := by omega
  all_goals
    unfold State.classState
    simp only [hc]
  split <;> rfl

theorem State.collect_out_low {s : State} {ev : FaultEv} (hc : 1 ≤ ev.cls ∧ ev.cls ≤ 3) : (s.collect ev).out = s.out := by
  have htail (u : State) (rcd : List Byte) : ((u.capture ev.cls rcd).classState ev).updateFc.out = u.out := by
    rw [State.updateFc, State.setFld_out, State.classState_out_low hc, State.capture_out]
  unfold State.collect
  dsimp only
  rw [htail, State.recordFault_out, State.bump_out]

/-! A fault, whole. -/

/-- What a fault of class N, C or D leaves: its count raised, class D ACTIVE for D, raised interrupts raised, and all registers outside
FLT and all parts of the state but the collector's, memory and the outputs as before. -/
structure FaultLow (src cls : Nat) (s t : State) : Prop where
  kept : CollectorKept s t
  faulted : Faulted src cls s t
  word : ∀ a, a < rFlt 0 ∨ rFlt 0x400 ≤ a → t.word a = s.word a
  rest : ∃ r x p o f, t = { s with regs := r, mem := x, poison := p, out := o, flt := f }
  out : t.out = s.out

theorem State.fault_low {s : State} (h : regsWf s.regs = true) {src cls : Nat} (hs : src < 64) (hc : 1 ≤ cls ∧ cls ≤ 3) (m : Master)
    (u i : Nat) : FaultLow src cls s (s.fault src cls m u i) := by
  have hcollect : s.fault src cls m u i = s.collect ⟨src, cls, 0, m, u, i, 0, false || s.awl.inj⟩ := State.faultEv_low h hc
  exact ⟨by rw [hcollect]; exact (CollectorKept.refl h).collect _, State.faulted_low h m u i hs hc,
    fun _ ha => State.word_fault_low h m u i hc ha, State.fault_low_rest h m u i hc,
    by rw [hcollect]; exact State.collect_out_low hc⟩

/-- A fault recorded after changes that leave its count alone. -/
theorem FaultLow.faulted_after {src cls : Nat} {s u t : State} (h : FaultLow src cls u t)
    (hu : u.word (rFlt (0x100 + src * 4)) = s.word (rFlt (0x100 + src * 4))) : Faulted src cls s t := by
  obtain ⟨hcount, hclass⟩ := h.faulted
  exact ⟨by rw [hcount, hu], hclass⟩

/-- A fault of class D, S or L: the heel may engage after the collector's work. -/
theorem State.faultEv_heel {s : State} (h : regsWf s.regs = true) (ev : FaultEv) (hc : 3 ≤ ev.cls ∧ ev.cls ≤ 5) :
    let u := s.collect { ev with inj := ev.inj || s.awl.inj }
    WordsIn heelWord u (s.faultEv ev) ∧ HeelOnly u (s.faultEv ev) := by
  have hwf := (State.collect_set h (ev := { ev with inj := ev.inj || s.awl.inj }) hc).wf
  exact ⟨.ite (State.heelEngage_words hwf) (.refl hwf), .ite (State.heelEngage_only _) (.refl _)⟩

theorem State.faultEv_faulted {s : State} (h : regsWf s.regs = true) {ev : FaultEv} (hs : ev.src < 64) (hc : 3 ≤ ev.cls ∧ ev.cls ≤ 5) :
    Faulted ev.src ev.cls s (s.faultEv ev) := by
  obtain ⟨heel, -⟩ := State.faultEv_heel h ev hc
  have hword (o : Nat) (ho : o < 0x100000) := heel.word _ (rFlt_not_heelWord o ho)
  have hset := (State.collect_set h (ev := { ev with inj := ev.inj || s.awl.inj }) hc).set
  have hbit : (s.faultEv ev).bit rFltState ev.cls = true := (State.bit_congr (hword 0xC (by omega)) _).trans hset
  refine ⟨(hword _ (by omega)).trans (State.collect_count h (by dsimp only; omega) hs), ?_, ?_, ?_⟩
  all_goals
    intro hcls
    rw [hcls] at hbit
    exact hbit

/-- The last kick and the time are as before a fault of class D, S or L. -/
theorem State.faultEv_kick {s : State} (h : regsWf s.regs = true) (ev : FaultEv) (hc : 3 ≤ ev.cls ∧ ev.cls ≤ 5) :
    (s.faultEv ev).flt.kickFrom = s.flt.kickFrom ∧ (s.faultEv ev).now = s.now := by
  obtain ⟨-, _, _, _, _, heel⟩ := State.faultEv_heel h ev hc
  have hcollect := (CollectorKept.refl h).collect { ev with inj := ev.inj || s.awl.inj }
  rw [heel]
  exact ⟨hcollect.kick, hcollect.now⟩

/-- What a fault of any class leaves: its count raised, class D, S or L ACTIVE for its own, raised interrupts raised, and what lies
outside the collector and the engagement of the heel as before. -/
structure FaultOn (src cls : Nat) (s t : State) : Prop where
  kept : CollectorKept s t
  faulted : Faulted src cls s t
  word : ∀ a, a < rFlt 0 ∨ rFlt 0x400 ≤ a → ¬heelWord a → t.word a = s.word a
  ring : t.bit rFltState stRing = s.bit rFltState stRing
  rest : ∃ r x p o f e w n, t = { s with regs := r, mem := x, poison := p, out := o, flt := f, eth := e, wpe := w, free := n }

theorem CollectorKept.heel {s t u : State} (h : CollectorKept s t) (hw : WordsIn heelWord t u) (ho : HeelOnly t u) : CollectorKept s u := by
  have hirq (k : Nat) : u.bit rFltIrq k = t.bit rFltIrq k := State.bit_congr (hw.word _ (rFlt_not_heelWord 0x10 (by omega))) k
  refine ⟨hw.wf, fun k hk hs => (hirq k).trans (h.irq k hk hs), ?_, ?_⟩
  · obtain ⟨_, _, _, _, rfl⟩ := ho
    exact h.kick
  · obtain ⟨_, _, _, _, rfl⟩ := ho
    exact h.now

theorem State.faultEv_on_low {s : State} (h : regsWf s.regs = true) {ev : FaultEv} (hs : ev.src < 64) (hc : 1 ≤ ev.cls ∧ ev.cls ≤ 3) :
    FaultOn ev.src ev.cls s (s.faultEv ev) := by
  have hkept := (CollectorKept.refl h).collect { ev with inj := ev.inj || s.awl.inj }
  have hcount := State.collect_count h (ev := { ev with inj := ev.inj || s.awl.inj }) (by dsimp only; omega) hs
  have hstate (k : Nat) (hk : 3 ≤ k ∧ k < 32) := State.collect_state h (ev := { ev with inj := ev.inj || s.awl.inj }) hc hk
  have hD := hstate stD (by decide)
  have hring := hstate stRing (by decide)
  have hword (a : Nat) (ha : a < rFlt 0 ∨ rFlt 0x400 ≤ a) :=
    State.collect_word h (ev := { ev with inj := ev.inj || s.awl.inj }) (by dsimp only; omega) ha
  obtain ⟨r, x, p, o, f, hrest⟩ := State.collect_rest h (ev := { ev with inj := ev.inj || s.awl.inj }) (by dsimp only; omega)
  rw [State.faultEv_low h hc]
  generalize s.collect { ev with inj := ev.inj || s.awl.inj } = t at *
  refine ⟨hkept, ⟨hcount, fun hcls => ?_, fun hcls => ?_, fun hcls => ?_⟩, fun a ha _ => hword a ha, ?_,
    r, x, p, o, f, s.eth, s.wpe, s.free, hrest⟩
  · rw [hD]
    simp [hcls]
  · omega
  · omega
  · rw [hring]
    simp [stRing, stD]

theorem State.faultEv_on_high {s : State} (h : regsWf s.regs = true) {ev : FaultEv} (hs : ev.src < 64) (hc : 3 ≤ ev.cls ∧ ev.cls ≤ 5) :
    FaultOn ev.src ev.cls s (s.faultEv ev) := by
  have hkept := (CollectorKept.refl h).collect { ev with inj := ev.inj || s.awl.inj }
  have hset := State.collect_set h (ev := { ev with inj := ev.inj || s.awl.inj }) hc
  have hword (a : Nat) (ha : a < rFlt 0 ∨ rFlt 0x400 ≤ a) :=
    State.collect_word h (ev := { ev with inj := ev.inj || s.awl.inj }) (by dsimp only; omega) ha
  obtain ⟨r, x, p, o, f, hrest⟩ := State.collect_rest h (ev := { ev with inj := ev.inj || s.awl.inj }) (by dsimp only; omega)
  have hfaulted := State.faultEv_faulted h hs hc
  obtain ⟨hw, ho⟩ := State.faultEv_heel h ev hc
  generalize s.collect { ev with inj := ev.inj || s.awl.inj } = u at *
  generalize s.faultEv ev = t at *
  have hstate : t.bit rFltState stRing = u.bit rFltState stRing := State.bit_congr (hw.word _ (rFlt_not_heelWord 0xC (by omega))) _
  refine ⟨hkept.heel hw ho, hfaulted, fun a ha hn => (hw.word a hn).trans (hword a ha), hstate.trans hset.ring, ?_⟩
  obtain ⟨r', e, w, n, ho⟩ := ho
  subst hrest
  exact ⟨r', x, p, o, f, e, w, n, ho⟩

theorem State.faultEv_on {s : State} (h : regsWf s.regs = true) {ev : FaultEv} (hs : ev.src < 64) (hc : 1 ≤ ev.cls ∧ ev.cls ≤ 5) :
    FaultOn ev.src ev.cls s (s.faultEv ev) := by
  by_cases hlow : ev.cls ≤ 3
  · exact State.faultEv_on_low h hs ⟨hc.1, hlow⟩
  · exact State.faultEv_on_high h hs ⟨by omega, hc.2⟩

theorem State.fault_on {s : State} (h : regsWf s.regs = true) {src cls : Nat} (hs : src < 64) (hc : 1 ≤ cls ∧ cls ≤ 5) (m : Master)
    (u i : Nat) : FaultOn src cls s (s.fault src cls m u i) := State.faultEv_on h (ev := ⟨src, cls, 0, m, u, i, 0, false⟩) hs hc

/-- A fault recorded after changes that leave its count alone. -/
theorem FaultOn.faulted_after {src cls : Nat} {s u t : State} (h : FaultOn src cls u t)
    (hu : u.word (rFlt (0x100 + src * 4)) = s.word (rFlt (0x100 + src * 4))) : Faulted src cls s t := by
  obtain ⟨hcount, hclass⟩ := h.faulted
  exact ⟨by rw [hcount, hu], hclass⟩

end Sys2Proof.Machine
end

section
/-! PROOF. ALIVE, the hold of FAULT_CLASS, kicks and heartbeats, and the Awl (O43). -/

namespace Sys2Proof.Machine

variable {s : State}

/-! Registers of the Awl lie apart from those that faults write. -/

theorem rAwl_outside (o : Nat) (h : o < 0x100000) : rAwl o < rFlt 0 ∨ rFlt 0x400 ≤ rAwl o := by
  right
  simp only [rAwl, rFlt, blkBase, bAWL, bFLT]
  omega

theorem FaultLow.bit_rAwl {src cls : Nat} {u t : State} (h : FaultLow src cls u t) {o : Nat} (ho : o < 0x100000) (k : Nat) :
    t.bit (rAwl o) k = u.bit (rAwl o) k := State.bit_congr (h.word _ (rAwl_outside o ho)) k

theorem FaultLow.fld_rAwl {src cls : Nat} {u t : State} (h : FaultLow src cls u t) {o : Nat} (ho : o < 0x100000) (hi lo : Nat) :
    t.fld (rAwl o) hi lo = u.fld (rAwl o) hi lo := State.fld_congr (h.word _ (rAwl_outside o ho)) hi lo

theorem FaultLow.awl {src cls : Nat} {u t : State} (h : FaultLow src cls u t) : t.awl = u.awl := by
  obtain ⟨_, _, _, _, _, e⟩ := h.rest
  rw [e]

theorem FaultLow.fwp {src cls : Nat} {u t : State} (h : FaultLow src cls u t) : t.fwp = u.fwp := by
  obtain ⟨_, _, _, _, _, e⟩ := h.rest
  rw [e]

/-! ALIVE (R499). -/

theorem execAliveStart_of_island {m : Master} (h : s.isIsland m = true) : exec (.aliveStart m) s = .next (s.aliveStart.respOk []) := by
  delta exec
  simp only [execAliveStart, State.fltWriter, h, if_true]

theorem execAliveStart_of_other {m : Master} (h : s.isIsland m = false) :
    exec (.aliveStart m) s = .next (s.refuse m 2 (rFlt 8)) := by
  delta exec
  simp only [execAliveStart, State.fltWriter, h, Bool.false_eq_true, if_false]

theorem State.aliveStart_refused
    (h : s.bit (blkBase bSYS + 4) 8 = false ∨ s.bit (rTwn 0) 24 = false ∨ s.safeActive = true) :
    s.aliveStart = s.setBit rFltState stRefused true := by
  unfold State.aliveStart
  rw [if_pos (by simpa [or_assoc] using h)]

theorem State.aliveStart_again (h1 : s.bit (blkBase bSYS + 4) 8 = true) (h2 : s.bit (rTwn 0) 24 = true) (h3 : s.safeActive = false)
    (h4 : s.flt.started = true) : s.aliveStart = s := by
  simp only [State.aliveStart, h1, h2, h3, h4, Bool.not_true, Bool.or_self, Bool.false_eq_true, if_false, if_true]

theorem State.aliveStart_first (h1 : s.bit (blkBase bSYS + 4) 8 = true) (h2 : s.bit (rTwn 0) 24 = true) (h3 : s.safeActive = false)
    (h4 : s.flt.started = false) : s.aliveStart =
      ((({ s with flt.started := true, flt.kickFrom := s.now } : State).setBit rFltState stSafeN true).setBit rFltState stAlive true).emit
        (.pin ballSafeN true) := by
  simp only [State.aliveStart, h1, h2, h3, h4, Bool.not_true, Bool.or_self, Bool.false_eq_true, if_false]

theorem runs_aliveStart_refused (h : regsWf s.regs = true) {m : Master} (hm : s.isIsland m = true)
    (hno : s.bit (blkBase bSYS + 4) 8 = false ∨ s.bit (rTwn 0) 24 = false ∨ s.safeActive = true) : Runs (.aliveStart m) s fun t =>
      t.bit rFltState stRefused = true ∧ t.flt = s.flt ∧ RegsBut [rFltState] s t ∧ t.out = s.out := by
  refine .of_exec (execAliveStart_of_island hm) ?_
  rw [State.aliveStart_refused hno]
  exact ⟨State.bit_setBit_same h true (by decide), rfl, ((RegsOnly.refl h).setBit _ _ (List.mem_singleton.mpr rfl)).word, rfl⟩

theorem runs_aliveStart_first (h : regsWf s.regs = true) {m : Master} (hm : s.isIsland m = true)
    (h1 : s.bit (blkBase bSYS + 4) 8 = true) (h2 : s.bit (rTwn 0) 24 = true) (h3 : s.safeActive = false)
    (h4 : s.flt.started = false) : Runs (.aliveStart m) s fun t =>
      t.flt.started = true ∧ t.flt.kickFrom = s.now ∧ t.bit rFltState stSafeN = true ∧ t.bit rFltState stAlive = true ∧
      t.out = (s.emit (.pin ballSafeN true)).out ∧ RegsBut [rFltState] s t ∧ t.mem = s.mem := by
  refine .of_exec (execAliveStart_of_island hm) ?_
  rw [State.aliveStart_first h1 h2 h3 h4]
  let u : State := { s with flt.started := true, flt.kickFrom := s.now }
  have hu : regsWf (u.setBit rFltState stSafeN true).regs = true := State.setBit_regsWf h _ _ _
  refine ⟨rfl, rfl, ?_, State.bit_setBit_same hu true (by decide), rfl, ?_, rfl⟩
  · exact (State.bit_setBit_apart hu true (by decide) (by decide)).trans (State.bit_setBit_same (s := u) h true (by decide))
  · exact (((RegsOnly.refl (s := u) h).setBit _ _ (List.mem_singleton.mpr rfl)).setBit _ _ (List.mem_singleton.mpr rfl)).word

theorem exec_aliveEdge_stopped (h : s.bit rFltState stAlive = false) : exec .aliveEdge s = .next s := by
  delta exec
  simp only [execAliveEdge, h, Bool.false_eq_true, if_false]

theorem exec_aliveEdge_running (h : s.bit rFltState stAlive = true) : exec .aliveEdge s =
    .next ((({ s with flt.aliveP := !s.flt.aliveP, flt.aliveN := !(!s.flt.aliveP) } : State).emit (.pin ballAliveP (!s.flt.aliveP))).emit
      (.pin ballAliveN (!(!s.flt.aliveP)))) := by
  delta exec
  simp only [execAliveEdge, h, if_true]

/-! The hold of FAULT_CLASS (R499). -/

theorem State.fcCode_updateFc (h : regsWf s.regs = true) : s.updateFc.fcCode = s.fcCode := by
  have hbit (k : Nat) (hk : 3 ≤ k ∧ k < 32) : s.updateFc.bit rFltState k = s.bit rFltState k :=
    State.bit_setFld_apart h _ (by omega) (by omega) (by omega)
  unfold State.fcCode
  rw [hbit stL (by decide), hbit stS (by decide), hbit stD (by decide)]
  rfl

theorem State.fcCode_le (s : State) : s.fcCode ≤ 5 := by
  unfold State.fcCode
  repeat' split
  all_goals omega

/-- With no class ACTIVE and the hold of class C over, at most class N is held. -/
theorem State.fcCode_after_hold (hcode : s.fcCode ≤ 2) {t : Nat} (ht : s.flt.cUntil ≤ max s.now t) : (s.timeTo t).fcCode ≤ 1 := by
  unfold State.fcCode at hcode
  have hL : s.bit rFltState stL = false := by
    by_contra hL
    rw [if_pos (by simpa using hL)] at hcode
    omega
  have hS : s.bit rFltState stS = false := by
    by_contra hS
    rw [hL, if_neg Bool.false_ne_true, if_pos (by simpa using hS)] at hcode
    omega
  have hD : s.bit rFltState stD = false := by
    by_contra hD
    rw [hL, hS, if_neg Bool.false_ne_true, if_neg Bool.false_ne_true, if_pos (by simpa using hD)] at hcode
    omega
  have htime : ¬(s.timeTo t).now < (s.timeTo t).flt.cUntil := Nat.not_lt.mpr ht
  have hbit (k : Nat) : (s.timeTo t).bit rFltState k = s.bit rFltState k := rfl
  unfold State.fcCode
  rw [hbit, hbit, hbit, hL, hS, hD]
  simp only [Bool.false_eq_true, if_false, htime]
  split <;> omega

theorem runs_fcHoldExpire (h : regsWf s.regs = true) : Runs .fcHoldExpire s fun t =>
    t.fld rFltState 2 0 = t.fcCode ∧ RegsBut [rFltState] s t ∧ t.mem = s.mem ∧
    (s.fld rFltState 2 0 = 2 → s.fcCode ≤ 2 → t.now = max s.now s.flt.cUntil ∧ t.fcCode ≤ 1) ∧
    (s.fld rFltState 2 0 = 1 → t.now = max s.now s.flt.nUntil) := by
  refine .of_exec (t := (s.timeTo _).updateFc) rfl ?_
  generalize ht : (if s.fld rFltState 2 0 = 2 then s.flt.cUntil else if s.fld rFltState 2 0 = 1 then s.flt.nUntil else 0) = x
  have hwf : regsWf (s.timeTo x).regs = true := h
  have hfc := State.fcCode_updateFc hwf
  refine ⟨?_, ((RegsOnly.refl hwf).setFld _ _ _ (List.mem_singleton.mpr rfl)).word, rfl, fun h2 hcode => ?_, fun h1 => ?_⟩
  · rw [hfc]
    exact (State.fld_setFld_same hwf _ (by omega) (by omega)).trans (Nat.mod_eq_of_lt (by have := (s.timeTo x).fcCode_le; omega))
  · rw [if_pos h2] at ht
    subst ht
    exact ⟨rfl, hfc ▸ State.fcCode_after_hold hcode (Nat.le_max_right ..)⟩
  · rw [if_neg (by omega), if_pos h1] at ht
    subst ht
    rfl

/-! Kicks and heartbeats (R500). -/

theorem isEligiblePair_kind {m : Master} (h : s.isEligiblePair m = true) : mKind m = 3 := by
  simp only [State.isEligiblePair, Bool.and_eq_true, beq_iff_eq] at h
  exact h.1.1

theorem isEligiblePair_of_kind {m : Master} (h : mKind m ≠ 3) : s.isEligiblePair m = false :=
  Bool.eq_false_iff.mpr fun k => h (isEligiblePair_kind k)

theorem exec_kick_eligible {m : Master} (h : s.isEligiblePair m = true) :
    exec (.kick m) s = .next ({ s with flt.kickFrom := s.now }.respOk []) := by
  delta exec
  simp only [execKick, h, if_true]

theorem exec_kick_pair {m : Master} (h : s.isEligiblePair m = false) (hk : mKind m = 3) (hi : mIdx m < 6) :
    exec (.kick m) s = .next (s.respOk []) := by
  delta exec
  simp [execKick, h, hk, hi]

theorem exec_kick_other {m : Master} (hk : mKind m ≠ 3) (hc : isCollector m = false) :
    exec (.kick m) s = .next (s.refuse m 2 (rFlt 8)) := by
  delta exec
  simp [execKick, isEligiblePair_of_kind hk, hk, hc]

theorem exec_islandWatchdogExpire_off (h : s.flt.started = false) : exec .islandWatchdogExpire s = .next s := by
  delta exec
  simp only [execIslandWatchdogExpire, h, Bool.false_eq_true, if_false]

theorem runs_islandWatchdogExpire (h : regsWf s.regs = true) (hs : s.flt.started = true) : Runs .islandWatchdogExpire s fun t =>
    t.now = max s.now (s.flt.kickFrom + s.kickLimit) ∧ t.flt.kickFrom = t.now ∧ Faulted 0x0A 4 s t := by
  let u : State := { s.timeTo (s.flt.kickFrom + s.kickLimit) with flt.kickFrom := max s.now (s.flt.kickFrom + s.kickLimit) }
  let ev : FaultEv := ⟨0x0A, 4, 6, mCollector, 0, 0, 0, false⟩
  have he : exec .islandWatchdogExpire s = .next (u.faultEv ev) := by
    delta exec
    simp only [execIslandWatchdogExpire, hs, if_true]
    rfl
  have hu : regsWf u.regs = true := h
  obtain ⟨hkick, hnow⟩ := State.faultEv_kick hu ev ⟨by decide, by decide⟩
  exact .of_exec he ⟨hnow, hkick.trans hnow.symm, State.faultEv_faulted hu (ev := ev) (by decide) ⟨by decide, by decide⟩⟩

theorem exec_fwpHeartbeat_fwp {m : Master} (h : isFwp m = true) (hi : mIdx m < 6) :
    exec (.fwpHeartbeat m) s = .next ({ s with flt.hbFrom := setAt s.flt.hbFrom (mIdx m) s.now }.respOk []) := by
  delta exec
  simp only [execFwpHeartbeat, h, hi, decide_true, Bool.and_self, if_true]

theorem exec_fwpHeartbeat_other {m : Master} (h : isFwp m = false ∨ 6 ≤ mIdx m) :
    exec (.fwpHeartbeat m) s = .next (s.refuse m 2 (rFlt 0x58)) := by
  delta exec
  simp only [execFwpHeartbeat]
  rw [if_neg]
  rcases h with h | h
  · simp [h]
  · simp [Nat.not_lt.mpr h]

theorem exec_heartbeatMiss_idle {p : Fin 6} (h : s.procState p ≠ 2) : exec (.heartbeatMiss p) s = .next s := by
  delta exec
  simp only [execHeartbeatMiss, ne_eq, h, not_false_eq_true, if_true]

theorem rFwp_outside (o : Nat) (h : o < 0x100000) : rFwp o < rFlt 0 ∨ rFlt 0x400 ≤ rFwp o := by
  right
  simp only [rFwp, rFlt, blkBase, bFWP, bFLT]
  omega

theorem FaultLow.procState {src cls : Nat} {u t : State} (h : FaultLow src cls u t) {p : Nat} (hp : p < 6) :
    t.procState p = u.procState p := State.fld_congr (h.word _ (rFwp_outside _ (by omega))) 2 0

theorem runs_heartbeatMiss (h : regsWf s.regs = true) {p : Fin 6} (hp : s.procState p = 2)
    (hd : s.fwp.dead.any (fun d => d.1 = p.val) = false) : Runs (.heartbeatMiss p) s fun t =>
      t.bit rFltIrq 8 = true ∧ t.fwp.dead = s.fwp.dead ++ [(p.val, 3)] ∧ Faulted 0x23 3 s t ∧ t.procState p = 2 := by
  let u : State := (s.timeTo (s.flt.hbFrom.getD p 0 + 4000000 * max 1 (s.fld (rFlt 4) 31 24))).orWord rFltIrq 0x100
  let v : State := { u with fwp.dead := u.fwp.dead ++ [(p.val, 3)] }
  have hu : RegsOnly [rFltIrq] (s.timeTo (s.flt.hbFrom.getD p 0 + 4000000 * max 1 (s.fld (rFlt 4) 31 24))) u :=
    (RegsOnly.refl (s := s.timeTo _) h).orWord _ (List.mem_singleton.mpr rfl)
  have hprocIrq : rProc p 0 ∉ [rFltIrq] := by
    rw [List.mem_singleton]
    simp only [rProc, rFwp, rFltIrq, rFlt, blkBase, bFWP, bFLT]
    omega
  have hup : u.procState p = 2 := (hu.fld 2 0 hprocIrq).trans hp
  have he : exec (.heartbeatMiss p) s = .next (v.fault 0x23 3 (mFwp p) p 0) := by
    have hdie : u.procDie p 3 = v.fault 0x23 3 (mFwp p) p 0 := by
      have hud : u.fwp.dead.any (fun d => d.1 = p.val) = false := hd
      unfold State.procDie
      rw [hup, hud, if_neg (by decide)]
    rw [← hdie]
    delta exec
    simp only [execHeartbeatMiss, hp, ne_eq, not_true_eq_false, if_false]
    rfl
  have hlow := State.fault_low (s := v) hu.wf (src := 0x23) (cls := 3) (by omega) (by omega) (mFwp p) p 0
  refine .of_exec he ⟨hlow.kept.irq 8 (by omega) ?_, congrArg FwpS.dead hlow.fwp, hlow.faulted_after (hu.word _ (by decide)),
    (hlow.procState p.isLt).trans hup⟩
  exact (State.bit_orWord_same (s := s.timeTo _) h rFltIrq 0x100 (by omega)).trans (by simp; right; decide)

/-! The lock of the Awl (R506). -/

theorem exec_awlUnlock_split {m : Master} {d : BitVec 32} (hk : mKind m = 3) (hb : bitOf m.toNat 3 = true) :
    exec (.awlUnlock m d) s = .next (s.refuse m 2 (rAwl 0)) := by
  delta exec
  simp [execAwlUnlock, hk, hb]

theorem exec_awlUnlock_other {m : Master} {d : BitVec 32} (hk : mKind m ≠ 3) :
    exec (.awlUnlock m d) s = .next ((s.awlBad m).refuse m 2 (rAwl 0)) := by
  delta exec
  simp [execAwlUnlock, hk, isEligiblePair_of_kind hk]

theorem exec_go_other {m : Master} {d : BitVec 32} (hk : mKind m ≠ 3) : exec (.go m d) s = .next (s.refuse m 2 (rAwl 0x10)) := by
  delta exec
  simp [execGo, isEligiblePair_of_kind hk]

section Unlock

variable {m : Master} {d : BitVec 32} (he : s.isEligiblePair m = true) (hb : bitOf m.toNat 3 = false)
include he hb

theorem exec_awlUnlock_disabled (h0 : s.bit (rAwl 4) 0 = false) : exec (.awlUnlock m d) s = .next ((s.awlBad m).respOk []) := by
  delta exec
  simp [execAwlUnlock, he, hb, h0]

theorem exec_awlUnlock_first (h0 : s.bit (rAwl 4) 0 = true) (hd : d.toNat = 0xA3C5) (hf : s.awl.first = none) :
    exec (.awlUnlock m d) s = .next ({ s with awl.first := some (m.toNat, s.now) }.respOk []) := by
  delta exec
  simp [execAwlUnlock, he, hb, h0, hd, hf]

theorem exec_awlUnlock_second (h0 : s.bit (rAwl 4) 0 = true) (hd : d.toNat = 0x5C3A) {x : Nat} (hf : s.awl.first = some (m.toNat, x))
    (ht : s.now ≤ x + 4000) : exec (.awlUnlock m d) s =
      .next (((({ s with awl := { s.awl with first := none, unlockAt := s.now, went := false } } : State).setBit (rAwl 4) 1 true).awlRecord
        1).respOk []) := by
  delta exec
  simp [execAwlUnlock, he, hb, h0, hd, hf, ht]

theorem exec_awlUnlock_bad (h0 : s.bit (rAwl 4) 0 = true) (hd : d.toNat ≠ 0xA3C5)
    (hw : d.toNat ≠ 0x5C3A ∨ ∀ x, s.awl.first ≠ some (m.toNat, x)) : exec (.awlUnlock m d) s = .next ((s.awlBad m).respOk []) := by
  cases hf : s.awl.first with
  | none =>
    delta exec
    simp [execAwlUnlock, he, hb, h0, hd, hf]
  | some w =>
    have hword : ¬(d.toNat = 0x5C3A ∧ w.1 = m.toNat) := by
      rintro ⟨hd', hm⟩
      rcases hw with hw | hw
      · exact hw hd'
      · exact hw w.2 (by rw [hf, ← hm])
    delta exec
    simp only [execAwlUnlock, he, hb, h0, hd, hf]
    simpa using fun h1 h2 => absurd ⟨h1, h2⟩ hword

end Unlock

theorem runs_awlUnlock_disabled (h : regsWf s.regs = true) {m : Master} {d : BitVec 32} (he : s.isEligiblePair m = true)
    (hb : bitOf m.toNat 3 = false) (h0 : s.bit (rAwl 4) 0 = false) : Runs (.awlUnlock m d) s fun t =>
      t.bit (rAwl 4) 1 = false ∧ t.bit (rAwl 4) 4 = true ∧ t.awl.first = none ∧ Faulted 0x25 1 s t := by
  have k1 := (RegsOnly.refl (s := { s with awl.first := none }) (l := [rAwl 4]) h).setBit 1 false (List.mem_singleton.mpr rfl)
  have k2 := k1.setBit 4 true (List.mem_singleton.mpr rfl)
  have hlow := State.fault_low k2.wf (src := 0x25) (cls := 1) (by omega) (by omega) m 0 0
  refine .of_exec (exec_awlUnlock_disabled he hb h0) ⟨(hlow.bit_rAwl (by omega) 1).trans ?_, (hlow.bit_rAwl (by omega) 4).trans ?_,
    congrArg AwlS.first hlow.awl, hlow.faulted_after (k2.word _ (by decide))⟩
  · rw [State.bit_setBit_apart k1.wf _ (by omega) (by omega)]
    exact State.bit_setBit_same (s := { s with awl.first := none }) h false (by omega)
  · exact State.bit_setBit_same k1.wf true (by omega)

theorem runs_awlUnlock_second (h : regsWf s.regs = true) {m : Master} {d : BitVec 32} (he : s.isEligiblePair m = true)
    (hb : bitOf m.toNat 3 = false) (h0 : s.bit (rAwl 4) 0 = true) (hd : d.toNat = 0x5C3A) {x : Nat}
    (hf : s.awl.first = some (m.toNat, x)) (ht : s.now ≤ x + 4000) : Runs (.awlUnlock m d) s fun t =>
      t.bit (rAwl 4) 1 = true ∧ t.awl.unlockAt = s.now ∧ t.awl.went = false ∧ t.awl.first = none ∧
      Faulted 0x25 (if s.flt.started then 3 else 1) s t := by
  let u : State := { s with awl := { s.awl with first := none, unlockAt := s.now, went := false } }
  have k := (RegsOnly.refl (s := u) (l := [rAwl 4]) h).setBit 1 true (List.mem_singleton.mpr rfl)
  have hlow := State.fault_low k.wf (src := 0x25) (cls := if s.flt.started then 3 else 1) (by omega) (by split <;> omega) mCollector 0 1
  exact .of_exec (exec_awlUnlock_second he hb h0 hd hf ht) ⟨(hlow.bit_rAwl (by omega) 1).trans
    (State.bit_setBit_same (s := u) h true (by omega)), congrArg AwlS.unlockAt hlow.awl, congrArg AwlS.went hlow.awl,
    congrArg AwlS.first hlow.awl, hlow.faulted_after (k.word _ (by decide))⟩

theorem exec_awlUnlockTimeout_idle (h : s.bit (rAwl 4) 1 = false ∨ s.awl.went = true) : exec .awlUnlockTimeout s = .next s := by
  delta exec
  simp only [execAwlUnlockTimeout]
  rw [if_neg]
  rcases h with h | h <;> simp [h]

theorem runs_awlUnlockTimeout (h : regsWf s.regs = true) (h1 : s.bit (rAwl 4) 1 = true) (hw : s.awl.went = false) :
    Runs .awlUnlockTimeout s fun t =>
      t.bit (rAwl 4) 1 = false ∧ t.now = max s.now (s.awl.unlockAt + 4000000) ∧ RegsBut [rAwl 4] s t ∧ t.mem = s.mem := by
  have hwf : regsWf (s.timeTo (s.awl.unlockAt + 4000000)).regs = true := h
  have he : exec .awlUnlockTimeout s = .next ((s.timeTo (s.awl.unlockAt + 4000000)).setBit (rAwl 4) 1 false) := by
    delta exec
    simp [execAwlUnlockTimeout, h1, hw]
  exact .of_exec he ⟨State.bit_setBit_same hwf false (by omega), rfl,
    ((RegsOnly.refl hwf).setBit _ _ (List.mem_singleton.mpr rfl)).word, rfl⟩

/-! Runs of the Awl (R507, R508, R515). -/

theorem bitsOf_lt (x hi lo : Nat) : bitsOf x hi lo < 2 ^ (hi + 1 - lo) := Nat.mod_lt _ (Nat.two_pow_pos _)

/-- AWL_CTRL takes the count and the kind that are written. -/
def State.goCtrl (s : State) (d : Nat) : State :=
  (s.setFld (rAwl 0x10) 31 16 (bitsOf d 31 16)).setFld (rAwl 0x10) 9 8 (bitsOf d 9 8)

theorem State.goCtrl_effect (h : regsWf s.regs = true) (d : Nat) :
    RegsOnly [rAwl 0x10] s (s.goCtrl d) ∧ (s.goCtrl d).fld (rAwl 0x10) 31 16 = bitsOf d 31 16 ∧
    (s.goCtrl d).fld (rAwl 0x10) 9 8 = bitsOf d 9 8 := by
  have k1 := (RegsOnly.refl (l := [rAwl 0x10]) h).setFld 31 16 (bitsOf d 31 16) (List.mem_singleton.mpr rfl)
  refine ⟨k1.setFld 9 8 (bitsOf d 9 8) (List.mem_singleton.mpr rfl), ?_, ?_⟩
  · exact (State.fld_setFld_apart k1.wf _ (by omega) (by omega) (by omega)).trans
      ((State.fld_setFld_same h _ (by omega) (by omega)).trans (Nat.mod_eq_of_lt (bitsOf_lt ..)))
  · exact (State.fld_setFld_same k1.wf _ (by omega) (by omega)).trans (Nat.mod_eq_of_lt (bitsOf_lt ..))

/-- The number of injections of a run. -/
def goCount (d : Nat) : Nat := if bitsOf d 9 8 = 0 then 1 else max 1 (bitsOf d 31 16)

theorem goCount_lt (d : Nat) : goCount d < 2 ^ 16 := by
  unfold goCount
  have := bitsOf_lt d 31 16
  split <;> omega

section Go

variable {m : Master} {d : BitVec 32} (he : s.isEligiblePair m = true)
include he

theorem exec_go_ctrl (hd : bitOf d.toNat 0 = false) : exec (.go m d) s = .next ((s.goCtrl d.toNat).respOk []) := by
  delta exec
  simp [execGo, State.goCtrl, he, hd]

theorem exec_go_locked (hd : bitOf d.toNat 0 = true)
    (hl : (s.goCtrl d.toNat).bit (rAwl 4) 1 = false ∨ (s.goCtrl d.toNat).bit (rAwl 4) 3 = true) :
    exec (.go m d) s = .next (((s.goCtrl d.toNat).setBit (rAwl 4) 4 true).respOk []) := by
  unfold State.goCtrl at hl
  delta exec
  simp only [execGo, State.goCtrl, he, hd, Bool.not_true, Bool.false_eq_true, if_false]
  rw [if_pos (by simpa using hl)]

theorem exec_go_run (hd : bitOf d.toNat 0 = true) (h1 : (s.goCtrl d.toNat).bit (rAwl 4) 1 = true)
    (h3 : (s.goCtrl d.toNat).bit (rAwl 4) 3 = false) :
    let u := (((s.goCtrl d.toNat).setBit (rAwl 4) 3 true).setFld (rAwl 4) 31 16 (goCount d.toNat)).setBit (rAwl 0x10) 0 true
    exec (.go m d) s =
      .next ((({ u with awl := { u.awl with went := true, runAt := u.now } } : State).awlRecord 2).respOk []) := by
  unfold State.goCtrl at h1 h3
  delta exec
  simp only [execGo, State.goCtrl, he, hd, h1, h3, Bool.not_true, Bool.false_eq_true, if_false, Bool.or_self]
  rfl

end Go

theorem runs_go_locked (h : regsWf s.regs = true) {m : Master} {d : BitVec 32} (he : s.isEligiblePair m = true)
    (hd : bitOf d.toNat 0 = true) (hl : s.bit (rAwl 4) 1 = false ∨ s.bit (rAwl 4) 3 = true) : Runs (.go m d) s fun t =>
      t.fld (rAwl 0x10) 31 16 = bitsOf d.toNat 31 16 ∧ t.fld (rAwl 0x10) 9 8 = bitsOf d.toNat 9 8 ∧ t.resp = ⟨false, false, []⟩ ∧
      t.bit (rAwl 4) 4 = true ∧ t.awl = s.awl ∧ RegsBut [rAwl 0x10, rAwl 4] s t := by
  obtain ⟨k, hcount, hkind⟩ := State.goCtrl_effect h d.toNat
  have hset := (RegsOnly.refl (l := [rAwl 4]) k.wf).setBit 4 true (List.mem_singleton.mpr rfl)
  have hstat (n : Nat) : (s.goCtrl d.toNat).bit (rAwl 4) n = s.bit (rAwl 4) n := k.bit n (by decide)
  exact .of_exec (exec_go_locked he hd (by rwa [hstat, hstat])) ⟨(hset.fld 31 16 (by decide)).trans hcount,
    (hset.fld 9 8 (by decide)).trans hkind, rfl, State.bit_setBit_same k.wf true (by omega), rfl,
    (hset.after (k.after (.refl h) (by simp)) (by simp)).word⟩

theorem runs_go_run (h : regsWf s.regs = true) {m : Master} {d : BitVec 32} (he : s.isEligiblePair m = true)
    (hd : bitOf d.toNat 0 = true) (h1 : s.bit (rAwl 4) 1 = true) (h3 : s.bit (rAwl 4) 3 = false) : Runs (.go m d) s fun t =>
      t.fld (rAwl 0x10) 31 16 = bitsOf d.toNat 31 16 ∧ t.fld (rAwl 0x10) 9 8 = bitsOf d.toNat 9 8 ∧ t.resp = ⟨false, false, []⟩ ∧
      t.bit (rAwl 4) 3 = true ∧ t.awl.went = true ∧ t.awl.runAt = s.now ∧ t.fld (rAwl 4) 31 16 = goCount d.toNat ∧
      t.bit (rAwl 0x10) 0 = true := by
  obtain ⟨k, hcount, hkind⟩ := State.goCtrl_effect h d.toNat
  have hstat (n : Nat) : (s.goCtrl d.toNat).bit (rAwl 4) n = s.bit (rAwl 4) n := k.bit n (by decide)
  have k1 := (RegsOnly.refl (l := [rAwl 4]) k.wf).setBit 3 true (List.mem_singleton.mpr rfl)
  have k2 := k1.setFld 31 16 (goCount d.toNat) (List.mem_singleton.mpr rfl)
  have k3 := (RegsOnly.refl (l := [rAwl 0x10]) k2.wf).setBit 0 true (List.mem_singleton.mpr rfl)
  let u : State := (((s.goCtrl d.toNat).setBit (rAwl 4) 3 true).setFld (rAwl 4) 31 16 (goCount d.toNat)).setBit (rAwl 0x10) 0 true
  have hrec := State.fault_low (s := { u with awl := { u.awl with went := true, runAt := u.now } }) k3.wf (src := 0x25)
    (cls := if s.flt.started then 3 else 1) (by omega) (by split <;> omega) mCollector 0 2
  have hctrl (hi lo : Nat) (hhi : hi < 32) (hlo : 0 < lo) : u.fld (rAwl 0x10) hi lo = (s.goCtrl d.toNat).fld (rAwl 0x10) hi lo :=
    (State.fld_setBit_apart k2.wf true hhi (.inr hlo)).trans (k2.fld hi lo (by decide))
  have hbusy : u.bit (rAwl 4) 3 = true := (k3.bit 3 (by decide)).trans
    ((State.bit_setFld_apart k1.wf _ (by omega) (by omega) (by omega)).trans (State.bit_setBit_same k.wf true (by omega)))
  have hleft : u.fld (rAwl 4) 31 16 = goCount d.toNat := (k3.fld 31 16 (by decide)).trans
    ((State.fld_setFld_same k1.wf _ (by omega) (by omega)).trans (Nat.mod_eq_of_lt (goCount_lt _)))
  exact .of_exec (exec_go_run he hd ((hstat 1).trans h1) ((hstat 3).trans h3)) ⟨
    (hrec.fld_rAwl (by omega) 31 16).trans ((hctrl 31 16 (by omega) (by omega)).trans hcount),
    (hrec.fld_rAwl (by omega) 9 8).trans ((hctrl 9 8 (by omega) (by omega)).trans hkind), rfl,
    (hrec.bit_rAwl (by omega) 3).trans hbusy, congrArg AwlS.went hrec.awl, congrArg AwlS.runAt hrec.awl,
    (hrec.fld_rAwl (by omega) 31 16).trans hleft,
    (hrec.bit_rAwl (by omega) 0).trans (State.bit_setBit_same k2.wf true (by omega))⟩

theorem runs_go (h : regsWf s.regs = true) {m : Master} {d : BitVec 32} (he : s.isEligiblePair m = true) : Runs (.go m d) s fun t =>
    t.fld (rAwl 0x10) 31 16 = bitsOf d.toNat 31 16 ∧ t.fld (rAwl 0x10) 9 8 = bitsOf d.toNat 9 8 ∧ t.resp = ⟨false, false, []⟩ ∧
    (bitOf d.toNat 0 = false → t.awl = s.awl ∧ RegsBut [rAwl 0x10] s t) ∧
    (bitOf d.toNat 0 = true → s.bit (rAwl 4) 1 = false ∨ s.bit (rAwl 4) 3 = true →
      t.bit (rAwl 4) 4 = true ∧ t.awl = s.awl ∧ RegsBut [rAwl 0x10, rAwl 4] s t) ∧
    (bitOf d.toNat 0 = true → s.bit (rAwl 4) 1 = true → s.bit (rAwl 4) 3 = false →
      t.bit (rAwl 4) 3 = true ∧ t.awl.went = true ∧ t.awl.runAt = s.now ∧
      t.fld (rAwl 4) 31 16 = (if bitsOf d.toNat 9 8 = 0 then 1 else max 1 (bitsOf d.toNat 31 16)) ∧ t.bit (rAwl 0x10) 0 = true) := by
  by_cases hd : bitOf d.toNat 0 = true
  · by_cases hl : s.bit (rAwl 4) 1 = false ∨ s.bit (rAwl 4) 3 = true
    · obtain ⟨t, ht, hcount, hkind, hresp, hlocked⟩ := runs_go_locked h he hd hl
      refine ⟨t, ht, hcount, hkind, hresp, fun hno => ?_, fun _ _ => hlocked, fun _ h1 h3 => ?_⟩
      · rw [hd] at hno; cases hno
      · rw [h1, h3] at hl; simp at hl
    · obtain ⟨h1, h3⟩ := not_or.mp hl
      obtain ⟨t, ht, hcount, hkind, hresp, hrun⟩ := runs_go_run h he hd (by simpa using h1) (by simpa using h3)
      refine ⟨t, ht, hcount, hkind, hresp, fun hno => ?_, fun _ hl' => absurd hl' hl, fun _ _ _ => hrun⟩
      rw [hd] at hno; cases hno
  · obtain ⟨k, hcount, hkind⟩ := State.goCtrl_effect h d.toNat
    exact .of_exec (exec_go_ctrl he (by simpa using hd)) ⟨hcount, hkind, rfl, fun _ => ⟨rfl, k.word⟩,
      fun hgo => absurd hgo hd, fun hgo => absurd hgo hd⟩

/-- The end of a run: BUSY, GO and the lock's opening clear, and no injection is left. -/
theorem State.awlEnd_effect (h : regsWf s.regs = true) :
    RegsOnly [rAwl 4, rAwl 0x10] s s.awlEnd ∧ s.awlEnd.bit (rAwl 4) 3 = false ∧ s.awlEnd.bit (rAwl 4) 1 = false ∧
    s.awlEnd.fld (rAwl 4) 31 16 = 0 := by
  have k1 := (RegsOnly.refl (l := [rAwl 4, rAwl 0x10]) h).setBit (a := rAwl 4) 3 false (by simp)
  have k2 := k1.setFld (a := rAwl 4) 31 16 0 (by simp)
  have k3 := k2.setBit (a := rAwl 0x10) 0 false (by simp)
  have hne : rAwl 4 ≠ rAwl 0x10 := by decide
  refine ⟨k3.setBit (a := rAwl 4) 1 false (by simp), ?_, State.bit_setBit_same k3.wf false (by omega), ?_⟩
  · refine (State.bit_setBit_apart k3.wf _ (by omega) (by omega)).trans ?_
    rw [State.bit_setBit_other k2.wf _ _ _ hne, State.bit_setFld_apart k1.wf _ (by omega) (by omega) (by omega)]
    exact State.bit_setBit_same h false (by omega)
  · refine (State.fld_setBit_apart k3.wf _ (by omega) (by omega)).trans ?_
    refine (State.fld_setFld_other k2.wf _ _ _ _ _ hne).trans ?_
    exact State.fld_setFld_same k1.wf 0 (by omega) (by omega)

theorem exec_awlRunTimeout_idle (h : s.bit (rAwl 4) 3 = false) : exec .awlRunTimeout s = .next s := by
  delta exec
  simp only [execAwlRunTimeout, h, Bool.false_eq_true, if_false]

theorem runs_awlRunTimeout (h : regsWf s.regs = true) (h3 : s.bit (rAwl 4) 3 = true) : Runs .awlRunTimeout s fun t =>
    t.bit (rAwl 4) 3 = false ∧ t.bit (rAwl 4) 1 = false ∧ t.fld (rAwl 4) 31 16 = 0 ∧ t.now = max s.now (s.awl.runAt + 4000000000) ∧
    RegsBut [rAwl 4, rAwl 0x10] s t ∧ t.mem = s.mem := by
  have he : exec .awlRunTimeout s = .next (s.timeTo (s.awl.runAt + 4000000000)).awlEnd := by
    delta exec
    simp only [execAwlRunTimeout, h3, if_true]
  obtain ⟨k, hbusy, hopen, hleft⟩ := State.awlEnd_effect (s := s.timeTo (s.awl.runAt + 4000000000)) h
  exact .of_exec he ⟨hbusy, hopen, hleft, rfl, k.word, rfl⟩

/-- An injection performed: it is counted, one less is left, and the last one ends the run. -/
theorem State.awlPerformed_effect (h : regsWf s.regs = true) :
    s.awlPerformed.word (rAwl 0x14) = (s.word (rAwl 0x14) + 1) % 2 ^ 32 ∧
    s.awlPerformed.fld (rAwl 4) 31 16 = s.fld (rAwl 4) 31 16 - 1 ∧
    (s.fld (rAwl 4) 31 16 ≤ 1 → s.awlPerformed.bit (rAwl 4) 3 = false ∧ s.awlPerformed.bit (rAwl 4) 1 = false) ∧
    s.awlPerformed.awl = s.awl := by
  have k := (RegsOnly.refl (l := [rAwl 0x14]) h).bump (List.mem_singleton.mpr rfl)
  have hrec := State.fault_low k.wf (src := 0x25) (cls := if s.flt.started then 3 else 1) (by omega) (by split <;> omega) mCollector 0 3
  have hleft : ((s.bump (rAwl 0x14)).awlRecord 3).fld (rAwl 4) 31 16 = s.fld (rAwl 4) 31 16 :=
    (hrec.fld_rAwl (by omega) 31 16).trans (k.fld 31 16 (by decide))
  have hcount : ((s.bump (rAwl 0x14)).awlRecord 3).word (rAwl 0x14) = (s.word (rAwl 0x14) + 1) % 2 ^ 32 :=
    (hrec.word _ (rAwl_outside _ (by omega))).trans (State.word_bump_same h _)
  have hset := (RegsOnly.refl (l := [rAwl 4]) hrec.kept.wf).setFld 31 16 (s.fld (rAwl 4) 31 16 - 1) (List.mem_singleton.mpr rfl)
  have hlt : s.fld (rAwl 4) 31 16 < 2 ^ 16 := bitsOf_lt ..
  unfold State.awlPerformed
  dsimp only
  rw [hleft]
  split
  · next h0 =>
    obtain ⟨hend, hbusy, hopen, hzero⟩ := State.awlEnd_effect hset.wf
    exact ⟨(hend.word _ (by decide)).trans ((hset.word _ (by decide)).trans hcount), hzero.trans h0.symm, fun _ => ⟨hbusy, hopen⟩,
      hrec.awl⟩
  · next h0 =>
    exact ⟨(hset.word _ (by decide)).trans hcount, (State.fld_setFld_same hrec.kept.wf _ (by omega) (by omega)).trans
      (Nat.mod_eq_of_lt (by omega)), fun h1 => absurd h1 (by omega), hrec.awl⟩

theorem exec_awlInjection_idle {m : Master} {a : BitVec 64} {p : Fin 4} {pc : BitVec 32} (h : s.bit (rAwl 4) 3 = false) :
    exec (.awlInjection m a p pc) s = .next s := by
  delta exec
  simp only [execAwlInjection, h, Bool.not_false, if_true]

theorem exec_awlInjection_none {m : Master} {a : BitVec 64} {p : Fin 4} {pc : BitVec 32} (h : s.bit (rAwl 4) 3 = true)
    (hv : ({ s with awl.inj := true } : State).injectTarget m a.toNat p pc.toNat = none) :
    exec (.awlInjection m a p pc) s = .next s := by
  delta exec
  simp only [execAwlInjection, h, Bool.not_true, Bool.false_eq_true, if_false, hv]

theorem exec_awlInjection_some {m : Master} {a : BitVec 64} {p : Fin 4} {pc : BitVec 32} {v : State} (h : s.bit (rAwl 4) 3 = true)
    (hv : ({ s with awl.inj := true } : State).injectTarget m a.toNat p pc.toNat = some v) :
    exec (.awlInjection m a p pc) s = .next ({ v with awl.inj := false } : State).awlPerformed := by
  delta exec
  simp only [execAwlInjection, h, Bool.not_true, Bool.false_eq_true, if_false, hv]

theorem runs_awlInjection {m : Master} {a : BitVec 64} {p : Fin 4} {pc : BitVec 32} {v : State} (h : s.bit (rAwl 4) 3 = true)
    (hv : ({ s with awl.inj := true } : State).injectTarget m a.toNat p pc.toNat = some v) (hwf : regsWf v.regs = true) :
    Runs (.awlInjection m a p pc) s fun t =>
      t.word (rAwl 0x14) = (v.word (rAwl 0x14) + 1) % 2 ^ 32 ∧ t.fld (rAwl 4) 31 16 = v.fld (rAwl 4) 31 16 - 1 ∧
      (v.fld (rAwl 4) 31 16 ≤ 1 → t.bit (rAwl 4) 3 = false ∧ t.bit (rAwl 4) 1 = false) ∧ t.awl.inj = false := by
  obtain ⟨hcount, hleft, hend, hawl⟩ := State.awlPerformed_effect (s := { v with awl.inj := false }) hwf
  exact .of_exec (exec_awlInjection_some h hv) ⟨hcount, hleft, hend, congrArg AwlS.inj hawl⟩

end Sys2Proof.Machine

open Sys2Proof Sys2Proof.Machine

/-- Settles O43: each command by its cases; faults of the Awl are of class N or D, so only the collector's registers change besides.
The times are the model's own (log 7), and its choices of logs 13 and 16 lie in the definitions used. -/
theorem aliveWatchdogsAndTheAwl : Obligations.AliveWatchdogsAndTheAwl := by
  unfold Obligations.AliveWatchdogsAndTheAwl
  refine ⟨fun _ _ h => execAliveStart_of_other h, ?aliveStart, ?aliveEdge, ?fcHold, ?kick, ?watchdog, ?heartbeat, ?miss,
    fun _ _ _ hk hb => exec_awlUnlock_split hk hb, fun _ _ _ hk => ⟨exec_awlUnlock_other hk, exec_go_other hk⟩, ?unlock, ?timeout, ?go,
    fun _ _ _ _ _ h => ⟨exec_awlInjection_idle h, exec_awlRunTimeout_idle h⟩, ?injection, ?runTimeout⟩
  case aliveStart =>
    intro s m hcan hm
    obtain ⟨-, hwf⟩ := State.canonical_iff.mp hcan
    refine ⟨runs_aliveStart_refused hwf hm, fun h1 h2 h3 h4 => ?_, runs_aliveStart_first hwf hm⟩
    rw [execAliveStart_of_island hm, State.aliveStart_again h1 h2 h3 h4]
  case aliveEdge =>
    refine fun s => ⟨exec_aliveEdge_stopped, fun h => .of_exec (exec_aliveEdge_running h) ⟨rfl, Bool.not_not _, ?_, rfl, rfl⟩⟩
    simp only [Bool.not_not]
    rfl
  case fcHold => exact fun s hcan => runs_fcHoldExpire (State.canonical_iff.mp hcan).2
  case kick => exact fun s m => ⟨exec_kick_eligible, exec_kick_pair, exec_kick_other⟩
  case watchdog =>
    exact fun s hcan => ⟨exec_islandWatchdogExpire_off, runs_islandWatchdogExpire (State.canonical_iff.mp hcan).2⟩
  case heartbeat => exact fun s m => ⟨exec_fwpHeartbeat_fwp, exec_fwpHeartbeat_other⟩
  case miss => exact fun s p hcan => ⟨exec_heartbeatMiss_idle, runs_heartbeatMiss (State.canonical_iff.mp hcan).2⟩
  case unlock =>
    intro s m d hcan he hb
    obtain ⟨-, hwf⟩ := State.canonical_iff.mp hcan
    exact ⟨runs_awlUnlock_disabled hwf he hb, exec_awlUnlock_first he hb,
      fun h0 hd x hf ht => runs_awlUnlock_second hwf he hb h0 hd hf ht, exec_awlUnlock_bad he hb⟩
  case timeout =>
    exact fun s hcan => ⟨exec_awlUnlockTimeout_idle, runs_awlUnlockTimeout (State.canonical_iff.mp hcan).2⟩
  case go => exact fun s m d hcan he => runs_go (State.canonical_iff.mp hcan).2 he
  case injection =>
    exact fun s m a p pc h => ⟨exec_awlInjection_none h, fun v hv hcan => runs_awlInjection h hv (State.canonical_iff.mp hcan).2⟩
  case runTimeout => exact fun s hcan h3 => runs_awlRunTimeout (State.canonical_iff.mp hcan).2 h3
end

section
/-! PROOF. Safety pairs: mismatches, retests, input votes, the start-up test and debug splits (O41). -/

namespace Sys2Proof.Machine

variable {s : State}

/-- The state that a pair takes: one that would run stays stopped on the ring oscillator (R478, log 276). -/
def State.pairTakes (s : State) (st : Nat) : Nat := if st = 2 && s.bit rFltState stRing then 3 else st

theorem State.pairTakes_of_ne {st : Nat} (h : st ≠ 2) : s.pairTakes st = st := by
  simp [State.pairTakes, h]

theorem State.pairTakes_run (s : State) : s.pairTakes 2 = if s.bit rFltState stRing then 3 else 2 := by
  cases h : s.bit rFltState stRing <;> simp [State.pairTakes, h]

/-- What a change of pair n to a state leaves. -/
structure PairSet (n st : Nat) (s t : State) : Prop where
  only : RegsOnly [rPair n 0, rTwn 0, rFltHold] s t
  state : t.pairState n = s.pairTakes st
  elig : t.eligible n = decide (s.pairTakes st = 2)
  others : ∀ m, m < 6 → m ≠ n → t.pairState m = s.pairState m ∧ t.eligible m = s.eligible m
  flags : ∀ k, k < 8 ∨ 22 ≤ k ∧ k < 32 → t.bit (rTwn 0) k = s.bit (rTwn 0) k

theorem State.setPair_effect (h : regsWf s.regs = true) {n st : Nat} (hn : n < 6) (hst : st < 8) : PairSet n st s (s.setPair n st) := by
  have hx : s.pairTakes st < 8 := by
    unfold State.pairTakes
    split <;> omega
  have hdef : s.setPair n st = ((((s.setFld (rPair n 0) 2 0 (s.pairTakes st)).setBit (rPair n 0) 4 (decide (s.pairTakes st = 2))).setBit
      (rTwn 0) (8 + n) (decide (s.pairTakes st = 2))).setBit (rTwn 0) (16 + n) (decide (s.pairTakes st = 4))).updatePairs := rfl
  rw [hdef]
  generalize helig : decide (s.pairTakes st = 2) = elig
  generalize decide (s.pairTakes st = 4) = failed
  generalize hx' : s.pairTakes st = x at hx helig ⊢
  have k1 := (RegsOnly.refl (l := [rPair n 0, rTwn 0, rFltHold]) h).setFld (a := rPair n 0) 2 0 x (by simp)
  have k2 := k1.setBit (a := rPair n 0) 4 elig (by simp)
  have k3 := k2.setBit (a := rTwn 0) (8 + n) elig (by simp)
  have k4 := k3.setBit (a := rTwn 0) (16 + n) failed (by simp)
  generalize hu1 : s.setFld (rPair n 0) 2 0 x = u1 at *
  generalize hu2 : u1.setBit (rPair n 0) 4 elig = u2 at *
  generalize hu3 : u2.setBit (rTwn 0) (8 + n) elig = u3 at *
  generalize hu4 : u3.setBit (rTwn 0) (16 + n) failed = u4 at *
  have tail : RegsOnly [rFltHold] u4 u4.updatePairs := (RegsOnly.refl k4.wf).setBit 2 _ (by simp)
  have htwn : rTwn 0 ≠ rPair n 0 := (rPair_apart hn).1.symm
  have hstate {m : Nat} (hm : m < 6) : u4.updatePairs.pairState m = u2.pairState m := by
    obtain ⟨ht, hh⟩ := rPair_apart hm
    rw [State.pairState, tail.fld 2 0 (mt List.mem_singleton.mp hh), ← hu4, ← hu3]
    exact (State.fld_setFld_other (by rw [hu3]; exact k3.wf) _ _ _ _ _ ht).trans (State.fld_setFld_other k2.wf _ _ _ _ _ ht)
  have hflag (k : Nat) : u4.updatePairs.bit (rTwn 0) k = u4.bit (rTwn 0) k := tail.bit k (by decide)
  have hfirst (k : Nat) : u2.bit (rTwn 0) k = s.bit (rTwn 0) k := by
    rw [← hu2, State.bit_setBit_other k1.wf _ _ _ htwn, ← hu1]
    exact State.bit_congr (State.word_setFld_other h _ _ _ htwn) k
  refine ⟨tail.after k4 (by simp), ?_, ?_, fun m hm hne => ⟨?_, ?_⟩, fun k hk => ?_⟩
  · rw [hstate hn, ← hu2, hx']
    refine (State.fld_setFld_apart k1.wf _ (by omega) (by omega) (by omega)).trans ?_
    rw [← hu1]
    exact (State.fld_setFld_same h _ (by omega) (by omega)).trans (Nat.mod_eq_of_lt hx)
  · rw [hx', helig]
    refine (hflag _).trans ?_
    rw [← hu4, State.bit_setBit_apart k3.wf _ (by omega) (by omega), ← hu3]
    exact State.bit_setBit_same k2.wf elig (by omega)
  · have hp : rPair m 0 ≠ rPair n 0 := fun e => hne (rPair_inj.mp e)
    rw [hstate hm, ← hu2]
    refine (State.fld_setFld_other k1.wf _ _ _ _ _ hp).trans ?_
    rw [← hu1]
    exact State.fld_setFld_other h _ _ _ _ _ hp
  · refine (hflag _).trans ?_
    rw [← hu4, State.bit_setBit_apart k3.wf _ (by omega) (by omega), ← hu3, State.bit_setBit_apart k2.wf _ (by omega) (by omega)]
    exact hfirst _
  · rw [hflag, ← hu4, State.bit_setBit_apart k3.wf _ (by omega) (by omega), ← hu3, State.bit_setBit_apart k2.wf _ (by omega) (by omega)]
    exact hfirst k

theorem State.setPair_twn (s : State) (n st : Nat) : (s.setPair n st).twn = s.twn := rfl

theorem State.setPair_now (s : State) (n st : Nat) : (s.setPair n st).now = s.now := rfl

/-! What recording a fault leaves of the pairs. -/

theorem FaultOn.word_rTwn {src cls : Nat} {u t : State} (h : FaultOn src cls u t) {o : Nat} (ho : o < 0x100000) :
    t.word (rTwn o) = u.word (rTwn o) := by
  obtain ⟨hn, hf⟩ := rTwn_outside ho
  exact h.word _ (.inl hf) hn

theorem FaultOn.word_rPair {src cls : Nat} {u t : State} (h : FaultOn src cls u t) {n o : Nat} (hn : n < 6) (ho : o < 0x20) :
    t.word (rPair n o) = u.word (rPair n o) := h.word_rTwn (by omega)

theorem FaultOn.pair {src cls : Nat} {u t : State} (h : FaultOn src cls u t) {n : Nat} (hn : n < 6) :
    t.pairState n = u.pairState n ∧ t.eligible n = u.eligible n :=
  ⟨State.fld_congr (h.word_rPair hn (by omega)) 2 0, congrArg (bitOf · (8 + n)) (h.word_rTwn (o := 0) (by omega))⟩

theorem FaultOn.twn {src cls : Nat} {u t : State} (h : FaultOn src cls u t) : t.twn = u.twn := by
  obtain ⟨_, _, _, _, _, _, _, _, e⟩ := h.rest
  rw [e]

/-- A state with the same registers shows the same pairs. -/
theorem State.pair_congr {t u : State} (e : u.regs = t.regs) (n : Nat) : u.pairState n = t.pairState n ∧ u.eligible n = t.eligible n :=
  ⟨State.fld_congr (State.word_congr e _) 2 0, State.bit_congr (State.word_congr e _) _⟩

/-- A register of a pair or of TWN is none of FLT. -/
theorem rFlt_ne_rTwn {a b : Nat} (hb : b < 0x100000) : rFlt a ≠ rTwn b := by
  simp only [rFlt, rTwn, blkBase, bFLT, bTWN]
  omega

/-- The count of a source is none of the registers of a pair's state. -/
theorem count_not_pairWords {n src : Nat} (hn : n < 6) (hs : src < 64) : rFlt (0x100 + src * 4) ∉ [rPair n 0, rTwn 0, rFltHold] := by
  simp only [List.mem_cons, List.not_mem_nil, or_false, not_or]
  exact ⟨rFlt_ne_rTwn (by omega), rFlt_ne_rTwn (by omega), by unfold rFltHold rFlt; omega⟩

/-! Mismatches (R481, R483). -/

theorem exec_lockstepMismatch_idle {n : Fin 6} {p : Fin 4} {b : Fin 2048} {pc : BitVec 32} (h : s.pairState n ≠ 2) :
    exec (.lockstepMismatch n p b pc) s = .next s := by
  delta exec
  simp only [execLockstepMismatch, State.mismatch, ne_eq, h, not_false_eq_true, if_true]

/-- A second mismatch within an hour. -/
def State.mismatchAgain (s : State) (n : Nat) : Bool :=
  match s.twn.mism.getD n none with | some t => decide (s.now - t < 14400000000000) | none => false

/-- The capture of a mismatch, when none is held. -/
def State.mismatchCapture (s : State) (n v : Nat) : State :=
  if s.bit (rPair n 0x18) 13 then s else s.setWord64 (rPair n 0x18) v

theorem State.word_setWord64_low (h : regsWf s.regs = true) (a v : Nat) : (s.setWord64 a v).word a = v % 2 ^ 32 := by
  rw [State.setWord64, State.word_setWord_other (State.setWord_regsWf h _ _) _ (by omega), State.word_setWord_same h]

theorem State.mismatchCapture_effect (h : regsWf s.regs = true) {n p b pc : Nat} (hp : p < 4) (hb : b < 2048) :
    let t := s.mismatchCapture n (p + b * 4 + 8192 + 2 ^ 32 * pc)
    RegsOnly [rPair n 0x18, rPair n 0x1C] s t ∧ t.bit (rPair n 0x18) 13 = true := by
  have hadd : rPair n 0x1C = rPair n 0x18 + 4 := rfl
  unfold State.mismatchCapture
  dsimp only
  split
  · next hvalid => exact ⟨.refl h, hvalid⟩
  · refine ⟨(RegsOnly.refl h).setWord64 _ (by simp) (by simp [hadd]), ?_⟩
    have hlow : (s.setWord64 (rPair n 0x18) (p + b * 4 + 8192 + 2 ^ 32 * pc)).word (rPair n 0x18) = p + b * 4 + 8192 := by
      rw [State.word_setWord64_low h]
      omega
    rw [State.bit, hlow, bitOf, Nat.shiftRight_eq_div_pow, beq_iff_eq]
    omega

/-- The interrupts of TWN and the other words of a pair are none of those that a change of its state writes. -/
theorem rTwn_not_pairWords {n o : Nat} (hn : n < 6) (h0 : o ≠ 0) (hp : o ≠ 0x100 + n * 0x20) (ho : o < 0x100000) :
    rTwn o ∉ [rPair n 0, rTwn 0, rFltHold] := by
  simp only [List.mem_cons, List.not_mem_nil, or_false, not_or]
  refine ⟨?_, ?_, (rFlt_ne_rTwn ho).symm⟩
  · unfold rPair rTwn
    omega
  · unfold rTwn
    omega

theorem rPair_not_pairWords {n o : Nat} (hn : n < 6) (h0 : o ≠ 0) (ho : o < 0x20) : rPair n o ∉ [rPair n 0, rTwn 0, rFltHold] :=
  rTwn_not_pairWords hn (by omega) (by omega) (by omega)

/-- The pair after a mismatch is counted and captured, and under test or FAILED. -/
def State.mismatched (s : State) (n v : Nat) : State :=
  let again := s.mismatchAgain n
  let u := (((s.orWord rTwnIrq 1).bump (rPair n 8)).mismatchCapture n v).setPair n (if again then 4 else 1)
  { u with twn.mism := setAt u.twn.mism n (some u.now), twn.dead := if again then setAt u.twn.dead n true else u.twn.dead }

theorem exec_lockstepMismatch_run {n : Fin 6} {p : Fin 4} {b : Fin 2048} {pc : BitVec 32} (h : s.pairState n = 2) :
    exec (.lockstepMismatch n p b pc) s =
      let u := s.mismatched n (p.val + b.val * 4 + 8192 + 2 ^ 32 * pc.toNat)
      .next (u.faultEv ⟨n, if u.pairMask n then 4 else 3, 5, mPair n, n, p.val + b.val * 4, 0, false⟩) := by
  have hp : p.val % 4 = p.val := Nat.mod_eq_of_lt p.isLt
  have hb : b.val % 2048 = b.val := Nat.mod_eq_of_lt b.isLt
  have hpc : pc.toNat % 2 ^ 32 = pc.toNat := Nat.mod_eq_of_lt pc.isLt
  delta exec
  simp only [execLockstepMismatch, State.mismatch, h, ne_eq, not_true_eq_false, if_false, hp, hb, hpc]
  rfl

theorem State.mismatched_effect (h : regsWf s.regs = true) {n p b pc : Nat} (hn : n < 6) (hp : p < 4) (hb : b < 2048)
    (hlen : s.twn.mism.length = 6) :
    let u := s.mismatched n (p + b * 4 + 8192 + 2 ^ 32 * pc)
    regsWf u.regs = true ∧ u.pairState n = (if s.mismatchAgain n then 4 else 1) ∧ u.eligible n = false ∧
    u.word (rPair n 8) = (s.word (rPair n 8) + 1) % 2 ^ 32 ∧ u.twn.mism.getD n none = some s.now ∧
    u.twn.dead = (if s.mismatchAgain n then setAt s.twn.dead n true else s.twn.dead) ∧ u.bit (rPair n 0x18) 13 = true ∧
    u.bit rTwnIrq 0 = true ∧ u.pairMask n = s.pairMask n ∧
    u.word (rFlt (0x100 + n * 4)) = s.word (rFlt (0x100 + n * 4)) := by
  have k1 := (RegsOnly.refl (l := [rTwnIrq]) h).orWord 1 (List.mem_singleton.mpr rfl)
  have k2 := (RegsOnly.refl (l := [rPair n 8]) k1.wf).bump (List.mem_singleton.mpr rfl)
  obtain ⟨k3, hcap⟩ := State.mismatchCapture_effect k2.wf (n := n) (pc := pc) hp hb
  have hst : (if s.mismatchAgain n then 4 else 1) < 8 := by split <;> omega
  have hst2 : (if s.mismatchAgain n then 4 else 1) ≠ 2 := by split <;> omega
  have k4 := State.setPair_effect k3.wf hn hst
  have htwn : (((s.orWord rTwnIrq 1).bump (rPair n 8)).mismatchCapture n (p + b * 4 + 8192 + 2 ^ 32 * pc)).twn = s.twn := by
    obtain ⟨_, e⟩ := k3.rest
    rw [e]
    rfl
  have hnow : (((s.orWord rTwnIrq 1).bump (rPair n 8)).mismatchCapture n (p + b * 4 + 8192 + 2 ^ 32 * pc)).now = s.now := by
    obtain ⟨_, e⟩ := k3.rest
    rw [e]
    rfl
  have hrPair (o o' : Nat) (ho : o ≠ o') : rPair n o ≠ rPair n o' := by
    unfold rPair rTwn
    omega
  have hcapWords {a : Nat} (h18 : a ≠ rPair n 0x18) (h1C : a ≠ rPair n 0x1C) : a ∉ [rPair n 0x18, rPair n 0x1C] := by
    simp [h18, h1C]
  have hirqPair (o o' : Nat) (ho : o' < 0x100) : rTwn o' ≠ rPair n o := by
    unfold rPair rTwn
    omega
  have hplain {a : Nat} (hpair : a ∉ [rPair n 0, rTwn 0, rFltHold]) (hcapt : a ∉ [rPair n 0x18, rPair n 0x1C]) (h8 : a ≠ rPair n 8) :
      (s.mismatched n (p + b * 4 + 8192 + 2 ^ 32 * pc)).word a = (s.orWord rTwnIrq 1).word a :=
    (k4.only.word a hpair).trans ((k3.word a hcapt).trans (k2.word a (mt List.mem_singleton.mp h8)))
  have hirq0 : rTwnIrq ∉ [rPair n 0, rTwn 0, rFltHold] := rTwn_not_pairWords (o := 4) hn (by omega) (by omega) (by omega)
  refine ⟨k4.only.wf, k4.state.trans (State.pairTakes_of_ne hst2), ?_, ?_, ?_, ?_, ?_, ?_, ?_, ?_⟩
  · refine k4.elig.trans ?_
    rw [State.pairTakes_of_ne hst2]
    exact decide_eq_false hst2
  · refine (k4.only.word _ (rPair_not_pairWords hn (by omega) (by omega))).trans
      ((k3.word _ (hcapWords (hrPair _ _ (by omega)) (hrPair _ _ (by omega)))).trans ?_)
    rw [State.word_bump_same k1.wf, k1.word _ (mt List.mem_singleton.mp (hirqPair 8 4 (by omega)).symm)]
  · have hget : (setAt s.twn.mism n (some s.now)).getD n none = some s.now := by
      simp [setAt, hlen, hn]
    simpa only [State.mismatched, State.setPair_twn, State.setPair_now, htwn, hnow] using hget
  · simp only [State.mismatched, State.setPair_twn, htwn]
  · exact (State.bit_congr (k4.only.word _ (rPair_not_pairWords hn (by omega) (by omega))) 13).trans hcap
  · refine (State.bit_congr (hplain hirq0 (hcapWords (hirqPair _ 4 (by omega)) (hirqPair _ 4 (by omega))) (hirqPair _ 4 (by omega)))
      0).trans ?_
    rw [State.bit_orWord_same h _ _ (by omega)]
    simp [bitOf]
  · refine (State.bit_congr (hplain (rTwn_not_pairWords (o := 0xC) hn (by omega) (by omega) (by omega))
      (hcapWords (hirqPair _ 0xC (by omega)) (hirqPair _ 0xC (by omega))) (hirqPair _ 0xC (by omega))) n).trans ?_
    exact State.bit_congr (k1.word _ (by decide)) n
  · refine (hplain (count_not_pairWords hn (by omega)) (hcapWords ?_ ?_) ?_).trans (k1.word _ ?_)
    · exact rFlt_ne_rTwn (by omega)
    · exact rFlt_ne_rTwn (by omega)
    · exact rFlt_ne_rTwn (by omega)
    · exact mt List.mem_singleton.mp (rFlt_ne_rTwn (b := 4) (by omega))

theorem runs_lockstepMismatch (h : regsWf s.regs = true) {n : Fin 6} {p : Fin 4} {b : Fin 2048} {pc : BitVec 32} (hrun : s.pairState n = 2)
    (hlen : s.twn.mism.length = 6) : Runs (.lockstepMismatch n p b pc) s fun t =>
      t.pairState n = (if s.mismatchAgain n then 4 else 1) ∧ t.eligible n = false ∧ t.word (rPair n 8) = (s.word (rPair n 8) + 1) % 2 ^ 32 ∧
      t.twn.mism.getD n none = some s.now ∧ t.twn.dead = (if s.mismatchAgain n then setAt s.twn.dead n true else s.twn.dead) ∧
      t.bit (rPair n 0x18) 13 = true ∧ t.bit rTwnIrq 0 = true ∧ Faulted n (if s.pairMask n then 4 else 3) s t := by
  obtain ⟨hwf, hstate, helig, hcount, hmism, hdead, hcap, hirq, hmask, hflt⟩ :=
    State.mismatched_effect h (pc := pc.toNat) n.isLt p.isLt b.isLt hlen
  have he := exec_lockstepMismatch_run (p := p) (b := b) (pc := pc) hrun
  dsimp only at he
  generalize s.mismatched n (p.val + b.val * 4 + 8192 + 2 ^ 32 * pc.toNat) = u at *
  rw [hmask] at he
  have hon := State.faultEv_on hwf (ev := ⟨n, if s.pairMask n then 4 else 3, 5, mPair n, n, p.val + b.val * 4, 0, false⟩)
    (by dsimp only; omega) (by dsimp only; split <;> omega)
  obtain ⟨hpstate, hpelig⟩ := hon.pair n.isLt
  exact .of_exec he ⟨hpstate.trans hstate, hpelig.trans helig, (hon.word_rPair n.isLt (by omega)).trans hcount,
    hon.twn ▸ hmism, hon.twn ▸ hdead, (State.bit_congr (hon.word_rPair n.isLt (by omega)) 13).trans hcap,
    (State.bit_congr (hon.word_rTwn (o := 4) (by omega)) 0).trans hirq, hon.faulted_after hflt⟩

/-! The end of a retest (R483), and its request (R513). -/

theorem exec_pairRetestDone_idle {n : Fin 6} {x : Bool} (h : s.pairState n ≠ 1) : exec (.pairRetestDone n x) s = .next s := by
  delta exec
  simp only [execPairRetestDone, ne_eq, h, not_false_eq_true, if_true]

/-- The pair after its test: it starts with a0 = 1, or it is FAILED for good. -/
def State.retested (s : State) (n : Nat) (x : Bool) : State :=
  let u := (s.orWord rTwnIrq 4).setPair n (if x then 2 else 4)
  { u with twn.a0 := if x then setAt u.twn.a0 n 1 else u.twn.a0, twn.dead := if x then u.twn.dead else setAt u.twn.dead n true }

theorem exec_pairRetestDone_test {n : Fin 6} {x : Bool} (h : s.pairState n = 1) : exec (.pairRetestDone n x) s =
    .next (((s.retested n x).fault 7 (if x then 1 else 3) (mPair n) n 0).attachNow n) := by
  delta exec
  simp only [execPairRetestDone, h, ne_eq, not_true_eq_false, if_false]
  cases x <;> rfl

theorem State.attachNow_of_none {n : Nat} (h : s.twn.attachWait.getD n false = false) : s.attachNow n = s := by
  rw [State.attachNow, h, if_neg Bool.false_ne_true]

theorem runs_pairRetestDone (h : regsWf s.regs = true) {n : Fin 6} {x : Bool} (h1 : s.pairState n = 1)
    (hw : s.twn.attachWait.getD n false = false) : Runs (.pairRetestDone n x) s fun t =>
      t.pairState n = (if x then (if s.bit rFltState stRing then 3 else 2) else 4) ∧ t.eligible n = (x && !s.bit rFltState stRing) ∧
      t.bit rTwnIrq 2 = true ∧ t.twn.a0 = (if x then setAt s.twn.a0 n 1 else s.twn.a0) ∧
      t.twn.dead = (if x then s.twn.dead else setAt s.twn.dead n true) ∧ Faulted 7 (if x then 1 else 3) s t := by
  have k1 := (RegsOnly.refl (l := [rTwnIrq]) h).orWord 4 (List.mem_singleton.mpr rfl)
  have k2 := State.setPair_effect k1.wf n.isLt (st := if x then 2 else 4) (by split <;> omega)
  have hring : (s.orWord rTwnIrq 4).bit rFltState stRing = s.bit rFltState stRing := k1.bit _ (by decide)
  have hwf : regsWf (s.retested n x).regs = true := k2.only.wf
  have hon := State.fault_on hwf (src := 7) (cls := if x then 1 else 3) (by omega) (by split <;> omega) (mPair n) n 0
  have hirqWord : rTwnIrq ∉ [rPair n 0, rTwn 0, rFltHold] := rTwn_not_pairWords (o := 4) n.isLt (by omega) (by omega) (by omega)
  obtain ⟨hpstate, hpelig⟩ := hon.pair n.isLt
  have he := exec_pairRetestDone_test (x := x) h1
  rw [State.attachNow_of_none (by rw [hon.twn]; exact hw)] at he
  refine .of_exec he ⟨hpstate.trans (k2.state.trans ?_), hpelig.trans (k2.elig.trans ?_), ?_, congrArg TwnS.a0 hon.twn,
    congrArg TwnS.dead hon.twn, hon.faulted_after ?_⟩
  · cases x
    · exact State.pairTakes_of_ne (by decide)
    · exact (State.pairTakes_run _).trans (by rw [hring, if_pos rfl])
  · cases x
    · rw [State.pairTakes_of_ne (by decide)]
      rfl
    · rw [if_pos rfl, State.pairTakes_run, hring]
      cases s.bit rFltState stRing <;> rfl
  · refine (State.bit_congr (hon.word_rTwn (o := 4) (by omega)) 2).trans ((State.bit_congr (k2.only.word _ hirqWord) 2).trans ?_)
    exact (State.bit_orWord_same h _ _ (by omega)).trans (by simp [bitOf])
  · exact (k2.only.word _ (count_not_pairWords n.isLt (by omega))).trans (k1.word _ (by decide))

theorem exec_retest_other {m : Master} {n : Fin 6} (h : s.isIsland m = false) :
    exec (.retest m n) s = .next (s.refuse m 2 (rPair n 4)) := by
  delta exec
  simp only [execRetest, State.twnWriter, h, Bool.not_false, if_true]

theorem exec_retest_island {m : Master} {n : Fin 6} (h : s.isIsland m = true) :
    exec (.retest m n) s = .next ((if s.pairState n = 2 ∨ s.pairState n = 3 then s.setPair n 1 else s).respOk []) := by
  delta exec
  simp only [execRetest, State.twnWriter, h, Bool.not_true, Bool.false_eq_true, if_false, Bool.or_eq_true, decide_eq_true_eq]

theorem runs_retest (h : regsWf s.regs = true) {m : Master} {n : Fin 6} (hm : s.isIsland m = true) : Runs (.retest m n) s fun t =>
    t.pairState n = (if s.pairState n = 2 ∨ s.pairState n = 3 then 1 else s.pairState n) ∧ t.mem = s.mem ∧ t.twn = s.twn ∧
    RegsBut [rPair n 0, rTwn 0, rFltHold] s t ∧ t.resp = ⟨false, false, []⟩ := by
  have k := State.setPair_effect h n.isLt (st := 1) (by omega)
  refine .of_exec (exec_retest_island hm) ?_
  split
  · exact ⟨k.state.trans (State.pairTakes_of_ne (by decide)), k.only.mem, rfl, k.only.word, rfl⟩
  · exact ⟨rfl, rfl, rfl, fun _ _ => rfl, rfl⟩

/-! Input votes (R485). -/

theorem exec_inputVote_agreed {n : Fin 6} {i : BitVec 16} {r : List (Bool × Bool)} {v : Bool} (h : voteValue 4 r = some v) :
    exec (.inputVote n i r) s = .next ((s.bump (rPair n 0xC)).emit (.pairInput n i.toNat v)) := by
  delta exec
  simp only [execInputVote, h]

theorem exec_inputVote_never {n : Fin 6} {i : BitVec 16} {r : List (Bool × Bool)} (h : voteValue 4 r = none) :
    exec (.inputVote n i r) s = .next (((((s.bump (rPair n 0xC)).bump (rPair n 0x10)).orWord rTwnIrq 2).emit
      (.pairInput n i.toNat false)).fault 6 3 (mPair n) n 0) := by
  delta exec
  simp only [execInputVote, h]

theorem runs_inputVote_agreed (h : regsWf s.regs = true) {n : Fin 6} {i : BitVec 16} {r : List (Bool × Bool)} {v : Bool}
    (hv : voteValue 4 r = some v) : Runs (.inputVote n i r) s fun t =>
      t.out = (s.emit (.pairInput n i.toNat v)).out ∧ t.word (rPair n 0xC) = (s.word (rPair n 0xC) + 1) % 2 ^ 32 ∧
      RegsBut [rPair n 0xC] s t ∧ t.mem = s.mem ∧ t.twn = s.twn :=
  .of_exec (exec_inputVote_agreed hv) ⟨rfl, State.word_bump_same h _, ((RegsOnly.refl h).bump (List.mem_singleton.mpr rfl)).word, rfl, rfl⟩

theorem runs_inputVote_never (h : regsWf s.regs = true) {n : Fin 6} {i : BitVec 16} {r : List (Bool × Bool)}
    (hv : voteValue 4 r = none) : Runs (.inputVote n i r) s fun t =>
      t.word (rPair n 0xC) = (s.word (rPair n 0xC) + 1) % 2 ^ 32 ∧ t.word (rPair n 0x10) = (s.word (rPair n 0x10) + 1) % 2 ^ 32 ∧
      t.bit rTwnIrq 1 = true ∧ Faulted 6 3 s t ∧ t.out = (s.emit (.pairInput n i.toNat false)).out := by
  have k1 := (RegsOnly.refl (l := [rPair n 0xC]) h).bump (List.mem_singleton.mpr rfl)
  have k2 := (RegsOnly.refl (l := [rPair n 0x10]) k1.wf).bump (List.mem_singleton.mpr rfl)
  have k3 := (RegsOnly.refl (l := [rTwnIrq]) k2.wf).orWord 2 (List.mem_singleton.mpr rfl)
  let u : State := (((s.bump (rPair n 0xC)).bump (rPair n 0x10)).orWord rTwnIrq 2).emit (.pairInput n i.toNat false)
  have hon := State.fault_on (s := u) k3.wf (src := 6) (cls := 3) (by omega) (by omega) (mPair n) n 0
  have hlow := State.fault_low (s := u) k3.wf (src := 6) (cls := 3) (by omega) (by omega) (mPair n) n 0
  have hpair (o o' : Nat) (ho : o ≠ o') : rPair n o ∉ [rPair n o'] := by
    rw [List.mem_singleton]
    unfold rPair rTwn
    omega
  have hirq (o : Nat) : rPair n o ∉ [rTwnIrq] := by
    rw [List.mem_singleton]
    unfold rPair rTwnIrq rTwn
    omega
  have hcount (o : Nat) (ho : o < 0x20) : rFlt (0x100 + 6 * 4) ∉ [rPair n o] := by
    rw [List.mem_singleton]
    exact rFlt_ne_rTwn (by omega)
  refine .of_exec (exec_inputVote_never hv) ⟨?_, ?_, ?_, hon.faulted_after ?_, hlow.out⟩
  · refine (hon.word_rPair n.isLt (by omega)).trans ((k3.word _ (hirq _)).trans ((k2.word _ (hpair _ _ (by omega))).trans ?_))
    exact State.word_bump_same h _
  · refine (hon.word_rPair n.isLt (by omega)).trans ((k3.word _ (hirq _)).trans ((State.word_bump_same k1.wf _).trans ?_))
    rw [k1.word _ (hpair _ _ (by omega))]
  · refine (State.bit_congr (hon.word_rTwn (o := 4) (by omega)) 1).trans ?_
    exact (State.bit_orWord_same k2.wf _ _ (by omega)).trans (by simp [bitOf])
  · exact (k3.word _ (by decide)).trans ((k2.word _ (hcount _ (by omega))).trans (k1.word _ (hcount _ (by omega))))

/-! The start-up test (R486, R524). -/

theorem exec_startupTest_idle (h : s.fwp.safe ≠ 1) : exec .startupTest s = .next s := by
  delta exec
  simp only [execStartupTest, ne_eq, h, not_false_eq_true, if_true]

theorem pairWords_haltWords {n : Nat} (hn : n < 6) : ∀ a ∈ [rPair n 0, rTwn 0, rFltHold], a ∈ haltWords := by
  simp only [List.mem_cons, List.not_mem_nil, or_false, haltWords, List.mem_map, List.mem_range]
  rintro a (rfl | rfl | rfl)
  · exact .inr (.inr ⟨n, hn, rfl⟩)
  · exact .inl rfl
  · exact .inr (.inl rfl)

/-- The first n pairs are tested, but for those that are FAILED for good. -/
def State.testPairs (s : State) (n : Nat) : State :=
  (List.range n).foldl (fun s n => s.setPair n (if s.twn.dead.getD n false then 4 else 1)) s

theorem State.testPairs_succ (s : State) (n : Nat) : s.testPairs (n + 1) =
    (s.testPairs n).setPair n (if (s.testPairs n).twn.dead.getD n false then 4 else 1) := by
  rw [State.testPairs, List.range_succ, List.foldl_concat]
  rfl

theorem State.testPairs_effect (h : regsWf s.regs = true) : ∀ {n : Nat}, n ≤ 6 →
    RegsOnly haltWords s (s.testPairs n) ∧ (s.testPairs n).bit (rTwn 0) 24 = s.bit (rTwn 0) 24 ∧
      ∀ m, m < n → (s.testPairs n).pairState m = (if s.twn.dead.getD m false then 4 else 1) ∧ (s.testPairs n).eligible m = false
  | 0, _ => ⟨.refl h, rfl, fun m hm => absurd hm (by omega)⟩
  | n + 1, hn => by
    obtain ⟨k, hflag, done⟩ := State.testPairs_effect h (n := n) (by omega)
    have htwn : (s.testPairs n).twn = s.twn := by
      obtain ⟨_, e⟩ := k.rest
      rw [e]
    have hst : (if s.twn.dead.getD n false then 4 else 1) < 8 := by split <;> omega
    have hst2 : (if s.twn.dead.getD n false then 4 else 1) ≠ 2 := by split <;> omega
    rw [State.testPairs_succ, htwn]
    have kn := State.setPair_effect k.wf (n := n) (by omega) hst
    have hmem : ∀ a ∈ [rPair n 0, rTwn 0, rFltHold], a ∈ haltWords := pairWords_haltWords (by omega)
    refine ⟨kn.only.after k hmem, (kn.flags 24 (by omega)).trans hflag, fun m hm => ?_⟩
    by_cases e : m = n
    · subst e
      rw [kn.state, kn.elig, State.pairTakes_of_ne hst2]
      exact ⟨rfl, decide_eq_false hst2⟩
    · obtain ⟨hstate, helig⟩ := kn.others m (by omega) e
      rw [hstate, helig]
      exact done m (by omega)

/-- The state in which the pairs are put under test: island SRAM cleared, window 0 open, and the island segment loaded. -/
def State.startupLoaded (s : State) : State :=
  let u := ({ s.clearMem sramBase (sramBase + 0x800000) with fwp.safe := 2 } : State).setBit (rTwn 0) 24 false
  let v := if u.bit rFltState stRing then u else u.setBit (rCkg 0x10) 2 true
  ((v.setWord (rTwn 0x400) 0x3F0000).setWord (rTwn 0x404) 0x80010004).store sramBase (v.fwp.segs.getD 6 [])

theorem exec_startupTest_run (h : s.fwp.safe = 1) : exec .startupTest s = .next (s.startupLoaded.testPairs 6) := by
  delta exec
  simp only [execStartupTest, ne_eq, h, not_true_eq_false, if_false]
  rfl

theorem State.startupLoaded_effect (h : regsWf s.regs = true) :
    regsWf s.startupLoaded.regs = true ∧ s.startupLoaded.fwp.safe = 2 ∧ s.startupLoaded.twn = s.twn ∧
    s.startupLoaded.mem = ((s.clearMem sramBase (sramBase + 0x800000)).store sramBase (s.fwp.segs.getD 6 [])).mem ∧
    s.startupLoaded.bit (rTwn 0) 24 = false := by
  let u : State := ({ s.clearMem sramBase (sramBase + 0x800000) with fwp.safe := 2 } : State)
  have k1 := (RegsOnly.refl (s := u) (l := [rTwn 0]) h).setBit 24 false (List.mem_singleton.mpr rfl)
  have k2 : RegsOnly [rCkg 0x10] (u.setBit (rTwn 0) 24 false)
      (if (u.setBit (rTwn 0) 24 false).bit rFltState stRing then u.setBit (rTwn 0) 24 false
        else (u.setBit (rTwn 0) 24 false).setBit (rCkg 0x10) 2 true) :=
    .ite (.refl k1.wf) ((RegsOnly.refl k1.wf).setBit 2 true (by simp))
  unfold State.startupLoaded
  dsimp only
  generalize (if (u.setBit (rTwn 0) 24 false).bit rFltState stRing then u.setBit (rTwn 0) 24 false
    else (u.setBit (rTwn 0) 24 false).setBit (rCkg 0x10) 2 true) = v at k2 ⊢
  have k3 := ((RegsOnly.refl (l := [rTwn 0x400, rTwn 0x404]) k2.wf).setWord (a := rTwn 0x400) 0x3F0000 (by simp)).setWord
    (a := rTwn 0x404) 0x80010004 (by simp)
  have hbit := (k3.bit (a := rTwn 0) 24 (by decide)).trans ((k2.bit 24 (by decide)).trans
    (State.bit_setBit_same (s := u) h false (by omega)))
  obtain ⟨r, rfl⟩ := k2.rest
  exact ⟨k3.wf, rfl, rfl, rfl, hbit⟩

theorem runs_startupTest (h : regsWf s.regs = true) (hm : Memory.wf s.mem = true) (h1 : s.fwp.safe = 1)
    (hlen : (s.fwp.segs.getD 6 []).length ≤ 0x800000) : Runs .startupTest s fun t =>
      t.fwp.safe = 2 ∧ (∀ n, n < 6 → t.pairState n = (if s.twn.dead.getD n false then 4 else 1) ∧ t.eligible n = false) ∧
      t.bytes sramBase (s.fwp.segs.getD 6 []).length = s.fwp.segs.getD 6 [] ∧
      (∀ a, a < sramBase ∨ sramBase + 0x800000 ≤ a → t.byte a = s.byte a) ∧
      (∀ a, sramBase + (s.fwp.segs.getD 6 []).length ≤ a → a < sramBase + 0x800000 → t.byte a = 0) ∧ t.bit (rTwn 0) 24 = false := by
  obtain ⟨hwf, hsafe, htwn, hmem, hbit⟩ := State.startupLoaded_effect h
  obtain ⟨k, hflag, hpairs⟩ := State.testPairs_effect hwf (n := 6) (by omega)
  have hclear := State.clearMem_memWf hm sramBase (sramBase + 0x800000)
  have hmem' := k.mem.trans hmem
  have hbyte (a : Nat) : (s.startupLoaded.testPairs 6).byte a =
      ((s.clearMem sramBase (sramBase + 0x800000)).store sramBase (s.fwp.segs.getD 6 [])).byte a := by
    rw [State.byte, hmem', State.byte]
  refine .of_exec (exec_startupTest_run h1) ⟨?_, fun n hn => ?_, ?_, fun a ha => ?_, fun a hlo hhi => ?_, hflag.trans hbit⟩
  · obtain ⟨_, e⟩ := k.rest
    rw [e]
    exact hsafe
  · rw [← htwn]
    exact hpairs n hn
  · rw [State.bytes, hmem']
    exact State.bytes_store hclear sramBase (s.fwp.segs.getD 6 [])
  · rw [hbyte, State.byte_store_outside hclear (by omega), State.byte_clearMem hm, if_neg (by omega)]
  · rw [hbyte, State.byte_store_outside hclear (by omega), State.byte_clearMem hm, if_pos (by omega)]

/-! The end of the start-up test (R486). -/

theorem exec_startupTestDone_idle {x : BitVec 6} (h : s.fwp.safe ≠ 2) : exec (.startupTestDone x) s = .next s := by
  delta exec
  simp only [execStartupTestDone, ne_eq, h, not_false_eq_true, if_true]

/-- What the end of the test makes of one pair under test. -/
def State.startPair (s : State) (n : Nat) (pass : Bool) : State :=
  if pass then { s.setPair n 2 with twn.a0 := setAt s.twn.a0 n 0 }.fault 7 1 (mPair n) n 0 else (s.setPair n 4).fault 7 3 (mPair n) n 0

/-- The first n pairs after the test. -/
def State.startPairs (s : State) (x n : Nat) : State :=
  (List.range n).foldl (fun s n => if s.pairState n ≠ 1 then s else s.startPair n (bitOf x n)) s

/-- What the end of the test of pair n leaves. -/
structure PairStarted (n : Nat) (pass : Bool) (s t : State) : Prop where
  wf : regsWf t.regs = true
  pair : t.pairState n = s.pairTakes (if pass then 2 else 4) ∧ t.eligible n = decide (s.pairTakes (if pass then 2 else 4) = 2)
  others : ∀ m, m < 6 → m ≠ n → t.pairState m = s.pairState m ∧ t.eligible m = s.eligible m
  count : t.word (rFlt (0x100 + 7 * 4)) = (s.word (rFlt (0x100 + 7 * 4)) + 1) % 2 ^ 32
  ring : t.bit rFltState stRing = s.bit rFltState stRing
  window : t.word (rTwn 0x400) = s.word (rTwn 0x400) ∧ t.word (rTwn 0x404) = s.word (rTwn 0x404)
  sys : t.word (rSys 4) = s.word (rSys 4)
  fwp : t.fwp = s.fwp
  attach : t.twn.attachWait = s.twn.attachWait

theorem rFltState_not_pairWords {n : Nat} (hn : n < 6) : rFltState ∉ [rPair n 0, rTwn 0, rFltHold] := by
  simp only [List.mem_cons, List.not_mem_nil, or_false, not_or]
  exact ⟨rFlt_ne_rTwn (b := 0x100 + n * 0x20 + 0) (by omega), by decide, by decide⟩

theorem rSys_apart {n o : Nat} (hn : n < 6) (ho : o < 0x100000) :
    rSys o ∉ [rPair n 0, rTwn 0, rFltHold] ∧ rSys o < rFlt 0 ∧ ¬heelWord (rSys o) := by
  simp only [List.mem_cons, List.not_mem_nil, or_false, heelWord, rPair, rTwn, rFltHold, rWpe, rEth, rFlt, rSys, blkBase, bTWN, bWPE, bETH,
    bFLT, bSYS]
  omega

theorem State.startPair_effect (h : regsWf s.regs = true) {n : Nat} (hn : n < 6) (pass : Bool) :
    PairStarted n pass s (s.startPair n pass) := by
  let u : State := if pass then { s.setPair n 2 with twn.a0 := setAt s.twn.a0 n 0 } else s.setPair n 4
  have hdef : s.startPair n pass = u.fault 7 (if pass then 1 else 3) (mPair n) n 0 := by cases pass <;> rfl
  have k := State.setPair_effect h hn (st := if pass then 2 else 4) (by split <;> omega)
  have hregs : u.regs = (s.setPair n (if pass then 2 else 4)).regs := by cases pass <;> rfl
  have hword (a : Nat) (ha : a ∉ [rPair n 0, rTwn 0, rFltHold]) : u.word a = s.word a :=
    (State.word_congr hregs a).trans (k.only.word a ha)
  have hon := State.fault_on (s := u) (by rw [hregs]; exact k.only.wf) (src := 7) (cls := if pass then 1 else 3) (by omega)
    (by split <;> omega) (mPair n) n 0
  rw [← hdef] at hon
  have hpair (m : Nat) (hm : m < 6) : (s.startPair n pass).pairState m = (s.setPair n (if pass then 2 else 4)).pairState m ∧
      (s.startPair n pass).eligible m = (s.setPair n (if pass then 2 else 4)).eligible m := by
    obtain ⟨h1, h2⟩ := hon.pair hm
    obtain ⟨h3, h4⟩ := State.pair_congr hregs m
    exact ⟨h1.trans h3, h2.trans h4⟩
  have hfwp : u.fwp = s.fwp := by cases pass <;> rfl
  have hattach : u.twn.attachWait = s.twn.attachWait := by cases pass <;> rfl
  refine ⟨hon.kept.wf, ?_, fun m hm hne => ?_, ?_, hon.ring.trans (State.bit_congr (hword _ ?_) _), ⟨?_, ?_⟩, ?_, ?_, ?_⟩
  · rw [(hpair n hn).1, (hpair n hn).2]
    exact ⟨k.state, k.elig⟩
  · rw [(hpair m hm).1, (hpair m hm).2]
    exact k.others m hm hne
  · obtain ⟨hcount, -⟩ := hon.faulted
    rw [hcount, hword _ (count_not_pairWords hn (by omega))]
  · exact rFltState_not_pairWords hn
  · exact (hon.word_rTwn (by omega)).trans (hword _ (rTwn_not_pairWords hn (by omega) (by omega) (by omega)))
  · exact (hon.word_rTwn (by omega)).trans (hword _ (rTwn_not_pairWords hn (by omega) (by omega) (by omega)))
  · obtain ⟨hpairs, hlow, hheel⟩ := rSys_apart (o := 4) hn (by omega)
    exact (hon.word _ (.inl hlow) hheel).trans (hword _ hpairs)
  · obtain ⟨_, _, _, _, _, _, _, _, e⟩ := hon.rest
    rw [e]
    exact hfwp
  · rw [hon.twn, hattach]

theorem State.startPairs_succ (s : State) (x n : Nat) : s.startPairs x (n + 1) =
    if (s.startPairs x n).pairState n ≠ 1 then s.startPairs x n else (s.startPairs x n).startPair n (bitOf x n) := by
  rw [State.startPairs, List.range_succ, List.foldl_concat]
  rfl

/-- What the end of the test of the first n pairs leaves. -/
structure PairsStarted (x n : Nat) (s t : State) : Prop where
  wf : regsWf t.regs = true
  done : ∀ m, m < n → t.pairState m = s.pairTakes (if bitOf x m then 2 else 4) ∧
    t.eligible m = decide (s.pairTakes (if bitOf x m then 2 else 4) = 2)
  later : ∀ m, m < 6 → n ≤ m → t.pairState m = s.pairState m
  count : t.word (rFlt (0x100 + 7 * 4)) = (s.word (rFlt (0x100 + 7 * 4)) + n) % 2 ^ 32
  ring : t.bit rFltState stRing = s.bit rFltState stRing
  window : t.word (rTwn 0x400) = s.word (rTwn 0x400) ∧ t.word (rTwn 0x404) = s.word (rTwn 0x404)
  sys : t.word (rSys 4) = s.word (rSys 4)
  fwp : t.fwp = s.fwp
  attach : t.twn.attachWait = s.twn.attachWait

theorem State.startPairs_effect (h : regsWf s.regs = true) (x : Nat) (htest : ∀ n, n < 6 → s.pairState n = 1) : ∀ {n : Nat}, n ≤ 6 →
    PairsStarted x n s (s.startPairs x n)
  | 0, _ => ⟨h, fun m hm => absurd hm (by omega), fun _ _ _ => rfl, (Nat.mod_eq_of_lt (s.word_lt _)).symm, rfl, ⟨rfl, rfl⟩, rfl, rfl, rfl⟩
  | n + 1, hn => by
    have k := State.startPairs_effect h x htest (n := n) (by omega)
    have hstate : (s.startPairs x n).pairState n = 1 := (k.later n (by omega) (by omega)).trans (htest n (by omega))
    have hdef : s.startPairs x (n + 1) = (s.startPairs x n).startPair n (bitOf x n) := by
      rw [State.startPairs_succ, hstate, if_neg (by decide)]
    have kn := State.startPair_effect k.wf (n := n) (by omega) (bitOf x n)
    rw [hdef]
    have htakes (st : Nat) : (s.startPairs x n).pairTakes st = s.pairTakes st := by
      rw [State.pairTakes, k.ring, State.pairTakes]
    refine ⟨kn.wf, fun m hm => ?_, fun m hm hle => ?_, ?_, kn.ring.trans k.ring, ⟨kn.window.1.trans k.window.1, kn.window.2.trans k.window.2⟩,
      kn.sys.trans k.sys, kn.fwp.trans k.fwp, kn.attach.trans k.attach⟩
    · by_cases e : m = n
      · subst e
        rw [kn.pair.1, kn.pair.2, htakes]
        exact ⟨rfl, rfl⟩
      · obtain ⟨h1, h2⟩ := kn.others m (by omega) e
        rw [h1, h2]
        exact k.done m (by omega)
    · exact ((kn.others m hm (by omega)).1).trans (k.later m hm (by omega))
    · rw [kn.count, k.count]
      omega

theorem State.attachNow_all {s : State} (h : s.twn.attachWait = List.replicate 6 false) : (List.range 6).foldl State.attachNow s = s := by
  have hone (n : Nat) (hn : n ∈ List.range 6) : s.attachNow n = s := by
    refine State.attachNow_of_none ?_
    rw [h, List.getD_eq_getElem?_getD, List.getElem?_replicate_of_lt (List.mem_range.mp hn)]
    rfl
  generalize List.range 6 = l at hone
  induction l with
  | nil => rfl
  | cons n r ih =>
    rw [List.foldl_cons, hone n List.mem_cons_self]
    exact ih fun m hm => hone m (List.mem_cons_of_mem _ hm)

/-- What follows the test of the pairs: the record's island entries after an ISLAND reset, attaches that waited, and the start of the
power processor in a boot. -/
def State.startupEnd (s : State) : State :=
  let w := (List.range 6).foldl State.attachNow (if s.bit (rSys 4) 8 then s.cfgReload s.cfgCopy else s)
  if w.fwp.boot = 5 then w.bootPower else w

theorem State.startupEnd_eq (hc : s.bit (rSys 4) 8 = false) (hw : s.twn.attachWait = List.replicate 6 false) (hb : s.fwp.boot ≠ 5) :
    s.startupEnd = s := by
  unfold State.startupEnd
  dsimp only
  rw [hc, if_neg Bool.false_ne_true, State.attachNow_all hw, if_neg hb]

theorem exec_startupTestDone_run {x : BitVec 6} (h : s.fwp.safe = 2) : exec (.startupTestDone x) s =
    .next (((({ s with fwp.safe := 3 }.setWord (rTwn 0x400) 0).setWord (rTwn 0x404) 0).startPairs x.toNat 6).setBit
      (rTwn 0) 24 true).startupEnd := by
  delta exec
  simp only [execStartupTestDone, ne_eq, h, not_true_eq_false, if_false]
  rfl

theorem runs_startupTestDone (h : regsWf s.regs = true) {x : BitVec 6} (hs : s.fwp.safe = 2) (hb : s.fwp.boot ≠ 5)
    (hc : s.bit (rSys 4) 8 = false) (hw : s.twn.attachWait = List.replicate 6 false) (htest : ∀ n, n < 6 → s.pairState n = 1) :
    Runs (.startupTestDone x) s fun t =>
      t.fwp.safe = 3 ∧ (∀ n, n < 6 → t.pairState n = (if bitOf x.toNat n then (if s.bit rFltState stRing then 3 else 2) else 4) ∧
        t.eligible n = (bitOf x.toNat n && !s.bit rFltState stRing)) ∧
      t.bit (rTwn 0) 24 = true ∧ t.word (rTwn 0x400) = 0 ∧ t.word (rTwn 0x404) = 0 ∧
      t.word (rFlt (0x100 + 7 * 4)) = (s.word (rFlt (0x100 + 7 * 4)) + 6) % 2 ^ 32 := by
  let u : State := ({ s with fwp.safe := 3 }.setWord (rTwn 0x400) 0).setWord (rTwn 0x404) 0
  have ku : RegsOnly [rTwn 0x400, rTwn 0x404] { s with fwp.safe := 3 } u :=
    ((RegsOnly.refl (s := { s with fwp.safe := 3 }) (l := [rTwn 0x400, rTwn 0x404]) h).setWord (a := rTwn 0x400) 0 (by simp)).setWord (a := rTwn 0x404) 0 (by simp)
  have hwindow : u.word (rTwn 0x400) = 0 ∧ u.word (rTwn 0x404) = 0 := by
    have h1 : regsWf ({ s with fwp.safe := 3 }.setWord (rTwn 0x400) 0).regs = true := State.setWord_regsWf h _ _
    exact ⟨(State.word_setWord_other h1 _ (by decide)).trans (State.word_setWord_same (s := { s with fwp.safe := 3 }) h _ _),
      State.word_setWord_same h1 _ _⟩
  have hpairWords (n : Nat) (hn : n < 6) : rPair n 0 ∉ [rTwn 0x400, rTwn 0x404] := by
    simp only [List.mem_cons, List.not_mem_nil, or_false, rPair, rTwn]
    omega
  have k := State.startPairs_effect ku.wf x.toNat (fun n hn => (ku.fld 2 0 (hpairWords n hn)).trans (htest n hn)) (n := 6) (by omega)
  have kset := (RegsOnly.refl (l := [rTwn 0]) k.wf).setBit 24 true (List.mem_singleton.mpr rfl)
  have hring : u.bit rFltState stRing = s.bit rFltState stRing := ku.bit _ (by decide)
  have he := exec_startupTestDone_run (x := x) hs
  change exec (.startupTestDone x) s = .next ((u.startPairs x.toNat 6).setBit (rTwn 0) 24 true).startupEnd at he
  have hpairs (n : Nat) (hn : n < 6) := k.done n hn
  have hfwp := k.fwp
  have hwait : (u.startPairs x.toNat 6).twn.attachWait = List.replicate 6 false := k.attach.trans hw
  have hcount := k.count
  have hsys : (u.startPairs x.toNat 6).word (rSys 4) = u.word (rSys 4) := k.sys
  obtain ⟨hw400, hw404⟩ := k.window
  have hwf := k.wf
  generalize u.startPairs x.toNat 6 = v at he hpairs hfwp hwait hcount hsys hw400 hw404 hwf
  have kset := (RegsOnly.refl (l := [rTwn 0]) hwf).setBit 24 true (List.mem_singleton.mpr rfl)
  rw [State.startupEnd_eq ((kset.bit 8 (by decide)).trans ((State.bit_congr hsys 8).trans ((ku.bit 8 (by decide)).trans hc))) hwait
    (fun hboot => hb ((congrArg FwpS.boot hfwp).symm.trans hboot))] at he
  refine .of_exec he ⟨congrArg FwpS.safe hfwp, fun n hn => ?_, State.bit_setBit_same hwf true (by omega), ?_, ?_, ?_⟩
  · obtain ⟨hstate, helig⟩ := hpairs n hn
    have hpair : (v.setBit (rTwn 0) 24 true).pairState n = v.pairState n := kset.fld 2 0 (mt List.mem_singleton.mp (rPair_apart hn).1)
    have hpelig : (v.setBit (rTwn 0) 24 true).eligible n = v.eligible n := State.bit_setBit_apart hwf true (by omega) (by omega)
    rw [hpair, hpelig, hstate, helig]
    cases bitOf x.toNat n
    · simp [State.pairTakes_of_ne]
    · simp only [if_true, State.pairTakes_run, hring]
      cases s.bit rFltState stRing <;> simp
  · exact (kset.word _ (by decide)).trans (hw400.trans hwindow.1)
  · exact (kset.word _ (by decide)).trans (hw404.trans hwindow.2)
  · exact (kset.word _ (by decide)).trans (hcount.trans (by rw [ku.word _ (by decide)]; rfl))

/-! Debug splits (R488). -/

section Split

variable {n : Fin 6}

theorem exec_debugSplit_locked (h : s.bit (blkBase bSEC) 3 = false) : exec (.debugSplit n) s = .next s := by
  delta exec
  simp only [execDebugSplit, State.attach, h, Bool.not_false, if_true]

theorem exec_debugSplit_testing (h : s.bit (blkBase bSEC) 3 = true) (h1 : s.pairState n = 1) :
    exec (.debugSplit n) s = .next { s with twn.attachWait := setAt s.twn.attachWait n true } := by
  delta exec
  simp only [execDebugSplit, State.attach, h, h1, Bool.not_true, Bool.false_eq_true, if_false, if_true]

theorem exec_debugSplit_split (h : s.bit (blkBase bSEC) 3 = true) (h5 : s.pairState n = 5) : exec (.debugSplit n) s = .next s := by
  delta exec
  simp [execDebugSplit, State.attach, State.splitPair, h, h5]

/-- The pair is split, and its split is shown. -/
def State.splitShown (s : State) (n : Nat) : State :=
  let u := ((s.setPair n 5).setBit (rPair n 0) 5 true).setBit (rTwn 0) n true
  { u.orWord rTwnIrq 8 with twn.attachWait := setAt u.twn.attachWait n false }

theorem exec_debugSplit_now (h : s.bit (blkBase bSEC) 3 = true) (h1 : s.pairState n ≠ 1) (h5 : s.pairState n ≠ 5) :
    exec (.debugSplit n) s =
      .next ((s.splitShown n).fault 0x0F (if (s.splitShown n).pairMask n then 4 else 3) mTap n 0) := by
  delta exec
  simp only [execDebugSplit, State.attach, State.splitPair, h, h1, h5, Bool.not_true, Bool.false_eq_true, if_false]
  rfl

theorem runs_debugSplit (h : regsWf s.regs = true) (hu : s.bit (blkBase bSEC) 3 = true) (h1 : s.pairState n ≠ 1)
    (h5 : s.pairState n ≠ 5) : Runs (.debugSplit n) s fun t =>
      t.pairState n = 5 ∧ t.bit (rPair n 0) 5 = true ∧ t.bit (rTwn 0) n = true ∧ t.eligible n = false ∧ t.bit rTwnIrq 3 = true ∧
      t.twn.attachWait = setAt s.twn.attachWait n false ∧ Faulted 0x0F (if s.pairMask n then 4 else 3) s t := by
  have k1 := State.setPair_effect h n.isLt (st := 5) (by omega)
  have k2 := (RegsOnly.refl (l := [rPair n 0]) k1.only.wf).setBit 5 true (List.mem_singleton.mpr rfl)
  have k3 := (RegsOnly.refl (l := [rTwn 0]) k2.wf).setBit n true (List.mem_singleton.mpr rfl)
  have k4 := (RegsOnly.refl (l := [rTwnIrq]) k3.wf).orWord 8 (List.mem_singleton.mpr rfl)
  obtain ⟨hpairTwn, -⟩ := rPair_apart n.isLt
  have hpairIrq : rPair n 0 ∉ [rTwnIrq] := by
    rw [List.mem_singleton]
    unfold rPair rTwnIrq rTwn
    omega
  have hplain {a : Nat} (ha : a ∉ [rPair n 0, rTwn 0, rFltHold]) (hirq : a ≠ rTwnIrq) : (s.splitShown n).word a = s.word a := by
    simp only [List.mem_cons, List.not_mem_nil, or_false, not_or] at ha
    exact (k4.word a (mt List.mem_singleton.mp hirq)).trans ((k3.word a (mt List.mem_singleton.mp ha.2.1)).trans
      ((k2.word a (mt List.mem_singleton.mp ha.1)).trans (k1.only.word a (by simp [ha]))))
  have hmask : (s.splitShown n).pairMask n = s.pairMask n :=
    State.bit_congr (hplain (rTwn_not_pairWords (o := 0xC) n.isLt (by omega) (by omega) (by omega)) (by decide)) n
  have hwf : regsWf (s.splitShown n).regs = true := k4.wf
  have hon := State.fault_on hwf (src := 0x0F) (cls := if s.pairMask n then 4 else 3) (by omega) (by split <;> omega) mTap n 0
  obtain ⟨hstate, helig⟩ := hon.pair n.isLt
  have he := exec_debugSplit_now hu h1 h5
  rw [hmask] at he
  refine .of_exec he ⟨hstate.trans ?_, ?_, ?_, helig.trans ?_, ?_, congrArg TwnS.attachWait hon.twn, hon.faulted_after ?_⟩
  · refine (k4.fld 2 0 hpairIrq).trans ((k3.fld 2 0 (mt List.mem_singleton.mp hpairTwn)).trans ?_)
    exact (State.fld_setBit_apart k1.only.wf true (by omega) (by omega)).trans (k1.state.trans (State.pairTakes_of_ne (by decide)))
  · refine (State.bit_congr (hon.word_rPair n.isLt (by omega)) 5).trans ((k4.bit 5 hpairIrq).trans
      ((k3.bit 5 (mt List.mem_singleton.mp hpairTwn)).trans ?_))
    exact State.bit_setBit_same k1.only.wf true (by omega)
  · refine (State.bit_congr (hon.word_rTwn (o := 0) (by omega)) n).trans ((k4.bit n (by decide)).trans ?_)
    exact State.bit_setBit_same k2.wf true (by omega)
  · refine (k4.bit (a := rTwn 0) _ (by decide)).trans ((State.bit_setBit_apart k2.wf true (by omega) (by omega)).trans
      ((k2.bit _ (mt List.mem_singleton.mp hpairTwn.symm)).trans (k1.elig.trans ?_)))
    rw [State.pairTakes_of_ne (by decide)]
    rfl
  · refine (State.bit_congr (hon.word_rTwn (o := 4) (by omega)) 3).trans ((State.bit_orWord_same k3.wf _ _ (by omega)).trans ?_)
    simp [bitOf]
  · exact hplain (count_not_pairWords n.isLt (by omega)) (rFlt_ne_rTwn (b := 4) (by omega))

end Split

end Sys2Proof.Machine

open Sys2Proof Sys2Proof.Machine

/-- Settles O41: each command by its cases. A pair's own registers lie outside what recording a fault and engaging the heel write.
That pairs stay stopped on the ring oscillator is the model's choice (log 276). -/
theorem safetyPairsTestVoteAndSplit : Obligations.SafetyPairsTestVoteAndSplit := by
  unfold Obligations.SafetyPairsTestVoteAndSplit
  refine ⟨fun _ _ _ _ _ h => exec_lockstepMismatch_idle h, ?mismatch, fun _ _ _ h => exec_pairRetestDone_idle h, ?retestDone,
    fun _ _ _ h => exec_retest_other h, ?retest, ?vote, fun _ h => exec_startupTest_idle h, ?startup,
    fun _ _ h => exec_startupTestDone_idle h, ?startupDone, ?split⟩
  case mismatch => exact fun s n p b pc hcan h2 hlen => runs_lockstepMismatch (State.canonical_iff.mp hcan).2 h2 hlen
  case retestDone => exact fun s n x hcan h1 hw => runs_pairRetestDone (State.canonical_iff.mp hcan).2 h1 hw
  case retest => exact fun s m n hcan hm => runs_retest (State.canonical_iff.mp hcan).2 hm
  case vote =>
    intro s n i r hcan
    obtain ⟨-, hwf⟩ := State.canonical_iff.mp hcan
    exact ⟨fun v hv => runs_inputVote_agreed hwf hv, runs_inputVote_never hwf⟩
  case startup =>
    intro s hcan h1 hlen
    obtain ⟨hm, hwf⟩ := State.canonical_iff.mp hcan
    exact runs_startupTest hwf hm h1 hlen
  case startupDone =>
    exact fun s x hcan hs hb hc hw htest => runs_startupTestDone (State.canonical_iff.mp hcan).2 hs hb hc hw htest
  case split =>
    exact fun s n => ⟨exec_debugSplit_locked, exec_debugSplit_testing, exec_debugSplit_split,
      fun hcan hu h1 h5 => runs_debugSplit (State.canonical_iff.mp hcan).2 hu h1 h5⟩
end

section
/-! PROOF. O52 is refuted: of two requests that precede each other in no respect, the one that came first heads the rail's queue. -/

namespace Sys2Proof.Machine

/-- A request of panel 0 (kind 0) that takes nothing from its rail. -/
def freeRequest : AdmReq := ⟨0, 0, 0, 0, 0, false, 0, false⟩

/-- The same requester's request at the same time for more tokens than the rail has. -/
def greedyRequest : AdmReq := { freeRequest with tok := 2 ^ 32 }

/-- Both requests wait, the one that takes nothing first. -/
def tiedRequests : State := { State.reset with pwr := { State.reset.pwr with queue := [freeRequest, greedyRequest] } }

/-- The grant takes the first request off the queue. -/
theorem queue_admTick_tiedRequests : tiedRequests.admTick.pwr.queue = [greedyRequest] := by
  decide +kernel

end Sys2Proof.Machine

open Sys2Proof Sys2Proof.Machine

/-- Refutes O52: its clause for two requests of a rail takes the second for the head when the first does not precede it; of two requests
with one requester, priority and arrival neither precedes the other, the first stays the head, and it is granted. -/
theorem not_railsTokensAndTemperaturesGovernPower : ¬ Obligations.RailsTokensAndTemperaturesGovernPower := by
  unfold Obligations.RailsTokensAndTemperaturesGovernPower
  rintro ⟨-, -, -, hgrant, -⟩
  obtain ⟨-, -, htwo⟩ := hgrant tiedRequests freeRequest greedyRequest
  have hsaid := htwo rfl (by decide) rfl (by decide) (by decide +kernel) (by decide +kernel) (by decide +kernel)
  have hexec : exec .admissionGrant tiedRequests = .next tiedRequests.admTick := rfl
  have hqueue := congrArg (fun t : State => t.pwr.queue) (Host.Outcome.next.inj (hexec.symm.trans hsaid))
  exact absurd (queue_admTick_tiedRequests.symm.trans hqueue) (by decide)
end

section
/-! PROOF. Areas of register words written from bytes: what each byte reads as after, and what stays. -/

namespace Sys2Proof.Machine

variable {s : State}

/-- Up to four bytes make one word. -/
theorem wordsOf_short {l : List Byte} (h0 : 0 < l.length) (h4 : l.length ≤ 4) :
    (wordsOf l).flatMap (leBytes 4) = leBytes 4 (leNat (l ++ zeroBytes (4 - l.length))) := by
  rw [wordsOf, show (l.length + 3) / 4 = 1 by omega]
  simp [leAt, sliceBytes, List.take_of_length_le h4, Nat.min_eq_right h4]

/-- The words of a byte string hold its bytes, and zeros after them. -/
theorem take_flatMap_wordsOf : ∀ l : List Byte, ((wordsOf l).flatMap (leBytes 4)).take l.length = l
  | [] => rfl
  | [a] => by rw [wordsOf_short (l := [a]) (by simp) (by simp)]; exact congrArg (List.take 1) (leBytes_leNat [a, 0, 0, 0])
  | [a, b] => by rw [wordsOf_short (l := [a, b]) (by simp) (by simp)]; exact congrArg (List.take 2) (leBytes_leNat [a, b, 0, 0])
  | [a, b, c] => by
    rw [wordsOf_short (l := [a, b, c]) (by simp) (by simp)]
    exact congrArg (List.take 3) (leBytes_leNat [a, b, c, 0])
  | a :: b :: c :: d :: l => by
    have e : leBytes 4 (leNat [a, b, c, d]) = [a, b, c, d] := leBytes_leNat [a, b, c, d]
    rw [wordsOf_cons_four, List.flatMap_cons, e]
    simpa using take_flatMap_wordsOf l

/-- Registers set from bytes hold these bytes. -/
theorem State.regBytes_setRegBytes_same (h : regsWf s.regs = true) (a : Nat) (l : List Byte) :
    (s.setRegBytes a l).regBytes a l.length = l := by
  rw [State.regBytes, State.setRegBytes, ← wordsOf_length, State.flatMap_word_setWords _ h, take_flatMap_wordsOf]

/-- The words that hold the n bytes from a on. -/
def areaWord (a n : Nat) (b : Nat) : Prop := a ≤ b ∧ b < a + 4 * ((n + 3) / 4)

theorem State.setRegBytes_words (h : regsWf s.regs = true) (a : Nat) (l : List Byte) :
    WordsIn (areaWord a l.length) s (s.setRegBytes a l) :=
  (WordsIn.refl h).setWords _ fun i hi => by
    rw [wordsOf_length] at hi
    simp only [areaWord]
    omega

theorem State.setRegBytes_rest (s : State) (a : Nat) (l : List Byte) : ∃ r, s.setRegBytes a l = { s with regs := r } := by
  suffices H : ∀ (vs : List Nat) (s : State) (a : Nat), ∃ r, s.setWords a vs = { s with regs := r } from H _ s a
  intro vs
  induction vs with
  | nil => exact fun _ _ => ⟨_, rfl⟩
  | cons v vs ih => exact fun s a => ih (s.setWord a v) (a + 4)

theorem State.word_setRegBytes_outside (h : regsWf s.regs = true) {a b : Nat} {l : List Byte}
    (hb : b < a ∨ a + 4 * ((l.length + 3) / 4) ≤ b) : (s.setRegBytes a l).word b = s.word b :=
  (s.setRegBytes_words h a l).word b fun ⟨h1, h2⟩ => by omega

/-- A byte string of n bytes is the bytes of a number. -/
theorem exists_leBytes {l : List Byte} {n : Nat} (h : l.length = n) : ∃ x, l = leBytes n x := ⟨leNat l, by rw [← h, leBytes_leNat]⟩

/-- Outputs made in order go to the end of the outbox. -/
theorem State.foldl_emit {α : Type} (f : α → Output) : ∀ (l : List α) (s : State),
    l.foldl (fun s x => s.emit (f x)) s = { s with out := s.out ++ l.map f }
  | [], s => by simp
  | x :: l, s => by
    rw [List.foldl_cons, State.foldl_emit f l]
    simp [State.emit]

end Sys2Proof.Machine
end

section
/-! PROOF. The low-speed interfaces (R626, R627): what a write of the system begins, and what the end of a transfer leaves (O57). -/

namespace Sys2Proof.Machine

variable {s : State}

/-! UART (R626). -/

theorem State.showUart_effect (h : regsWf s.regs = true) (n : Nat) :
    (s.showUart n).fld (rUart n 8) 7 0 = (s.uartRx n).length % 256 ∧ (s.showUart n).fld (rUart n 8) 15 8 = (s.uartTx n).length % 256 ∧
      RegsOnly [rUart n 8] s (s.showUart n) := by
  have k := (RegsOnly.refl (l := [rUart n 8]) h).setFld 7 0 (s.uartRx n).length (List.mem_singleton.mpr rfl)
  refine ⟨?_, State.fld_setFld_same k.wf _ (by omega) (by omega), k.setFld _ _ _ (List.mem_singleton.mpr rfl)⟩
  exact (State.fld_setFld_apart k.wf _ (by omega) (by omega) (by omega)).trans (State.fld_setFld_same h _ (by omega) (by omega))

theorem State.showUart_per (s : State) (n : Nat) : (s.showUart n).per = s.per := rfl

/-- A UART that is not enabled keeps its bytes; an enabled one has sent them all. -/
theorem State.uartSend_off {n : Nat} (h : s.bit (rUart n 4) 31 = false) : s.uartSend n = s := if_neg (by simp [h])

theorem State.uartSend_on {n : Nat} (h : s.bit (rUart n 4) 31 = true) : s.uartSend n =
    State.showUart { s with out := s.out ++ (s.uartTx n).map fun c => .serial 0 n c.toNat, per.tx := fmDel s.per.tx n } n := by
  rw [State.uartSend, if_pos h]
  simp only [State.foldl_emit]

/-- The transmit FIFO of 64 bytes after a write. -/
def txAfter (l : List Byte) (b : Byte) : List Byte := if l.length < 64 then l ++ [b] else l

theorem uartTx_after {n : Nat} {l : List Byte} {b : Byte} (hl : s.per.tx = (if l = [] then [] else [(n, l)])) :
    (if l.length < 64 then { s with per.tx := fmPut s.per.tx n (l ++ [b]) } else s : State) =
      { s with per.tx := [(n, txAfter l b)] } := by
  unfold txAfter
  by_cases h64 : l.length < 64
  · rw [if_pos h64, if_pos h64, hl]
    split <;> simp [fmPut]
  · have hne : l ≠ [] := fun e => by simp [e] at h64
    rw [if_neg hne] at hl
    rw [if_neg h64, if_neg h64, ← hl]

theorem runs_uartTxByte (h : regsWf s.regs = true) {m : Master} (n : Fin 4) (b : Byte) (hw : s.sysWriter m = true)
    (hl : s.per.tx = (if s.uartTx n = [] then [] else [(n.val, s.uartTx n)])) : Runs (.uartTxByte m n b) s fun t =>
      (s.bit (rUart n 4) 31 = true → Emitted ((txAfter (s.uartTx n) b).map fun c => .serial 0 n c.toNat) s t ∧ t.uartTx n = [] ∧
        t.fld (rUart n 8) 15 8 = 0) ∧
      (s.bit (rUart n 4) 31 = false → t.out = s.out ∧ t.uartTx n = txAfter (s.uartTx n) b ∧
        t.fld (rUart n 8) 15 8 = (txAfter (s.uartTx n) b).length % 256) ∧
      RegsBut [rUart n 8] s t ∧ t.per.rx = s.per.rx ∧ t.mem = s.mem ∧ t.resp = ⟨false, false, []⟩ := by
  generalize hk : txAfter (s.uartTx n) b = k
  have he : exec (.uartTxByte m n b) s = .next ((({ s with per.tx := [(n.val, k)] } : State).showUart n).uartSend n |>.respOk []) := by
    rw [← hk, ← uartTx_after hl]
    exact congrArg Host.Outcome.next (if_pos hw)
  obtain ⟨-, hlevel, honly⟩ := State.showUart_effect (s := { s with per.tx := [(n.val, k)] }) h n
  have hen : (State.showUart { s with per.tx := [(n.val, k)] } n).bit (rUart n 4) 31 = s.bit (rUart n 4) 31 :=
    honly.bit _ (by simp [rUart, rPer])
  have htx : (State.showUart { s with per.tx := [(n.val, k)] } n).uartTx n = k := by simp [State.uartTx, State.showUart_per, fmGetD, fmGet]
  refine .of_exec he ?_
  cases hb : s.bit (rUart n 4) 31 with
  | true =>
    rw [State.uartSend_on (hen.trans hb), htx]
    obtain ⟨-, hlevel', honly'⟩ := State.showUart_effect (s := { State.showUart { s with per.tx := [(n.val, k)] } n with
      out := s.out ++ k.map fun c => .serial 0 n c.toNat, per.tx := fmDel [(n.val, k)] n }) honly.wf n
    have hdel : fmDel [(n.val, k)] n.val = [] := by simp [fmDel]
    have hnone : fmGetD [] (fmDel [(n.val, k)] n.val) n.val = [] := by rw [hdel]; rfl
    refine ⟨fun _ => ⟨rfl, hnone, hlevel'.trans ?_⟩, nofun, fun a ha => (honly'.word a ha).trans (honly.word a ha), rfl, rfl, rfl⟩
    exact congrArg (fun l : List Byte => l.length % 256) hnone
  | false =>
    rw [State.uartSend_off (hen.trans hb)]
    refine ⟨nofun, fun _ => ⟨rfl, htx, hlevel.trans ?_⟩, honly.word, rfl, rfl, rfl⟩
    exact congrArg (fun l : List Byte => l.length % 256) htx

theorem runs_uartRxByte (h : regsWf s.regs = true) (n : Fin 4) (b : Byte) (hen : s.bit (rUart n 4) 31 = true) :
    Runs (.uartRxByte n b) s fun t =>
      (64 ≤ (s.uartRx n).length → t.bit (rUart n 8) 16 = true ∧ t.per = s.per) ∧
      ((s.uartRx n).length < 64 → t.uartRx n = s.uartRx n ++ [b] ∧ t.fld (rUart n 8) 7 0 = (s.uartRx n).length + 1 ∧
        t.per.tx = s.per.tx) ∧ RegsBut [rUart n 8] s t ∧ t.mem = s.mem := by
  have he : exec (.uartRxByte n b) s = .next (if (s.uartRx n).length ≥ 64 then s.setBit (rUart n 8) 16 true
      else ({ s with per.rx := fmPut s.per.rx n (s.uartRx n ++ [b]) } : State).showUart n) :=
    congrArg Host.Outcome.next (if_neg (by simp [hen]))
  refine .of_exec he ?_
  by_cases h64 : 64 ≤ (s.uartRx n).length
  · rw [if_pos h64]
    exact ⟨fun _ => ⟨State.bit_setBit_same h true (by omega), rfl⟩, fun hlt => absurd h64 (by omega),
      ((RegsOnly.refl h).setBit _ _ (List.mem_singleton.mpr rfl)).word, rfl⟩
  · rw [if_neg h64]
    obtain ⟨hlevel, -, honly⟩ := State.showUart_effect (s := { s with per.rx := fmPut s.per.rx n (s.uartRx n ++ [b]) }) h n
    have hrx : fmGetD [] (fmPut s.per.rx n (s.uartRx n ++ [b])) n.val = s.uartRx n ++ [b] := fmGetD_fmPut_same ..
    refine ⟨fun hge => absurd hge h64, fun _ => ⟨hrx, hlevel.trans ?_, rfl⟩, honly.word, rfl⟩
    rw [State.uartRx, hrx, List.length_append, List.length_singleton, Nat.mod_eq_of_lt (by omega)]

/-! I2C and SPI (R626). -/

theorem word_and_mask (v : BitVec 32) (k : Nat) : (v.toNat &&& k) % 2 ^ 32 = v.toNat &&& k :=
  Nat.mod_eq_of_lt (Nat.lt_of_le_of_lt Nat.and_le_left v.isLt)

theorem runs_i2cCmdGo (h : regsWf s.regs = true) {m : Master} (n : Fin 4) (v : BitVec 32) (hw : s.sysWriter m = true)
    (hb : s.bit (rI2c n 8) 0 = false) : Runs (.i2cCmdGo m n v) s fun t => t.word (rI2c n 0) = v.toNat &&& 0x80FF0FFF ∧
      t.bit (rI2c n 8) 0 = bitOf v.toNat 31 ∧ Emitted (if bitOf v.toNat 31 then [.serial 1 n (v.toNat % 2 ^ 24)] else []) s t ∧
      RegsBut [rI2c n 0, rI2c n 8] s t ∧ t.mem = s.mem ∧ t.resp = ⟨false, false, []⟩ := by
  have hne : rI2c n 8 ≠ rI2c n 0 := by simp [rI2c, rPer]
  have k := (RegsOnly.refl (l := [rI2c n 0, rI2c n 8]) h).setWord (a := rI2c n 0) (v.toNat &&& 0x80FF0FFF) (by simp)
  have hcmd : (s.setWord (rI2c n 0) (v.toNat &&& 0x80FF0FFF)).word (rI2c n 0) = v.toNat &&& 0x80FF0FFF :=
    (State.word_setWord_same h _ _).trans (word_and_mask v _)
  have he : exec (.i2cCmdGo m n v) s = .next ((if bitOf v.toNat 31 then
      ((s.setWord (rI2c n 0) (v.toNat &&& 0x80FF0FFF)).setBit (rI2c n 8) 0 true).emit (.serial 1 n (v.toNat % 2 ^ 24))
      else s.setWord (rI2c n 0) (v.toNat &&& 0x80FF0FFF)).respOk []) := by
    refine (congrArg Host.Outcome.next (if_pos hw)).trans ?_
    rw [State.i2cWrite, if_neg (by simp [hb])]
  refine .of_exec he ?_
  cases bitOf v.toNat 31 with
  | true =>
    exact ⟨(State.word_setWord_other k.wf _ hne.symm).trans hcmd, State.bit_setBit_same k.wf true (by omega), rfl,
      (k.setBit _ _ (by simp)).word, rfl, rfl⟩
  | false =>
    exact ⟨hcmd, (State.bit_congr (State.word_setWord_other h _ hne) 0).trans hb, (List.append_nil _).symm, k.word, rfl, rfl⟩

theorem runs_spiDataWrite (h : regsWf s.regs = true) {m : Master} (n : Fin 4) (v : BitVec 32) (hw : s.sysWriter m = true)
    (hb : s.bit (rSpi n 8) 0 = false) : Runs (.spiDataWrite m n v) s fun t => t.word (rSpi n 4) = v.toNat ∧
      t.bit (rSpi n 8) 0 = true ∧ Emitted [.serial 2 n (v.toNat % 2 ^ s.spiBits n)] s t ∧ RegsBut [rSpi n 4, rSpi n 8] s t ∧
      t.mem = s.mem ∧ t.resp = ⟨false, false, []⟩ := by
  have hne : rSpi n 4 ≠ rSpi n 8 := by simp [rSpi, rPer]
  have k := (RegsOnly.refl (l := [rSpi n 4, rSpi n 8]) h).setWord (a := rSpi n 4) v.toNat (by simp)
  have he : exec (.spiDataWrite m n v) s =
      .next ((((s.setWord (rSpi n 4) v.toNat).setBit (rSpi n 8) 0 true).emit (.serial 2 n (v.toNat % 2 ^ s.spiBits n))).respOk []) := by
    refine (congrArg Host.Outcome.next (if_pos hw)).trans ?_
    rw [State.spiWrite, if_neg (by simp [hb])]
  exact .of_exec he ⟨(State.word_setWord_other k.wf _ hne).trans ((State.word_setWord_same h _ _).trans (Nat.mod_eq_of_lt v.isLt)),
    State.bit_setBit_same k.wf true (by omega), rfl, (k.setBit _ _ (by simp)).word, rfl, rfl⟩

/-- The end of an I2C transfer, before its result is shown. -/
def State.i2cEnded (s : State) (n : Nat) : State := (s.setBit (rI2c n 8) 0 false).setBit (rI2c n 0) 31 false

theorem State.i2cEnded_effect (h : regsWf s.regs = true) (n : Nat) :
    (s.i2cEnded n).bit (rI2c n 8) 0 = false ∧ (s.i2cEnded n).bit (rI2c n 0) 31 = false ∧
      (s.i2cEnded n).bit (rI2c n 8) 1 = s.bit (rI2c n 8) 1 ∧ (s.i2cEnded n).bit (rI2c n 0) 11 = s.bit (rI2c n 0) 11 ∧
      (s.i2cEnded n).fld (rI2c n 0) 23 16 = s.fld (rI2c n 0) 23 16 ∧ RegsOnly [rI2c n 0, rI2c n 8] s (s.i2cEnded n) := by
  have hne : rI2c n 8 ≠ rI2c n 0 := by simp [rI2c, rPer]
  have k := (RegsOnly.refl (l := [rI2c n 0, rI2c n 8]) h).setBit (a := rI2c n 8) 0 false (by simp)
  have hcmd := State.word_setWord_other h (a := rI2c n 8) (setBitsOf (s.word (rI2c n 8)) 0 0 (b2n false)) hne.symm
  refine ⟨(State.bit_setBit_other k.wf _ _ _ hne).trans (State.bit_setBit_same h false (by omega)),
    State.bit_setBit_same k.wf false (by omega),
    (State.bit_setBit_other k.wf _ _ _ hne).trans (State.bit_setBit_apart h false (by omega) (by omega)),
    (State.bit_setBit_apart k.wf false (by omega) (by omega)).trans (State.bit_congr hcmd 11),
    (State.fld_setBit_apart k.wf false (by omega) (by omega)).trans (State.fld_congr hcmd 23 16), k.setBit _ _ (by simp)⟩

theorem runs_i2cTransferDone (h : regsWf s.regs = true) (n : Fin 4) (nack : Bool) (data : List Byte) (hb : s.bit (rI2c n 8) 0 = true) :
    Runs (.i2cTransferDone n nack data) s fun t =>
      let k := min (s.fld (rI2c n 0) 23 16 + 1) 32
      t.bit (rI2c n 8) 0 = false ∧ t.bit (rI2c n 0) 31 = false ∧ t.bit (rI2c n 8) 1 = (nack || s.bit (rI2c n 8) 1) ∧
      (nack = false → s.bit (rI2c n 0) 11 = true → t.regBytes (rI2c n 0x40) k = sliceBytes data 0 k) ∧
      (nack = true ∨ s.bit (rI2c n 0) 11 = false → RegsBut [rI2c n 0, rI2c n 8] s t) ∧
      (∀ a, a ≠ rI2c n 0 → a ≠ rI2c n 8 → a < rI2c n 0x40 ∨ rI2c n 0x60 ≤ a → t.word a = s.word a) ∧ t.mem = s.mem := by
  obtain ⟨hbusy, hgo, hnack, hread, hlen, honly⟩ := s.i2cEnded_effect h n
  have he : exec (.i2cTransferDone n nack data) s = .next (if nack then (s.i2cEnded n).setBit (rI2c n 8) 1 true
      else if (s.i2cEnded n).bit (rI2c n 0) 11 then
        (s.i2cEnded n).setRegBytes (rI2c n 0x40) (sliceBytes data 0 (min ((s.i2cEnded n).fld (rI2c n 0) 23 16 + 1) 32))
      else s.i2cEnded n) := by
    delta exec
    simp only [execI2cTransferDone, hb, Bool.not_true, Bool.false_eq_true, if_false]
    rfl
  have hmem : (s.i2cEnded n).mem = s.mem := rfl
  rw [hread, hlen] at he
  refine .of_exec he ?_
  intro k
  have hk : (sliceBytes data 0 k).length = k := sliceBytes_length ..
  have hk32 : k ≤ 32 := Nat.min_le_right ..
  have hout {a : Nat} (ha0 : a ≠ rI2c n 0) (ha8 : a ≠ rI2c n 8) : a ∉ [rI2c n 0, rI2c n 8] := by simp [ha0, ha8]
  generalize s.i2cEnded n = u at *
  cases nack with
  | true =>
    have hlast := honly.setBit (a := rI2c n 8) 1 true (by simp)
    exact ⟨(State.bit_setBit_apart honly.wf _ (by omega) (by omega)).trans hbusy,
      (State.bit_setBit_other honly.wf _ _ _ (by simp [rI2c, rPer])).trans hgo, State.bit_setBit_same honly.wf true (by omega), nofun,
      fun _ => hlast.word, fun a ha0 ha8 _ => hlast.word a (hout ha0 ha8), hmem⟩
  | false =>
    cases hr : s.bit (rI2c n 0) 11 with
    | true =>
      have hsame {b : Nat} (hb : b < rI2c n 0x40 ∨ rI2c n 0x60 ≤ b) : (u.setRegBytes (rI2c n 0x40) (sliceBytes data 0 k)).word b = u.word b :=
        State.word_setRegBytes_outside honly.wf (by rw [hk]; simp only [rI2c, rPer] at hb ⊢; omega)
      have h0 := hsame (b := rI2c n 0) (by simp only [rI2c, rPer]; omega)
      have h8 := hsame (b := rI2c n 8) (by simp only [rI2c, rPer]; omega)
      obtain ⟨r, hrest⟩ := u.setRegBytes_rest (rI2c n 0x40) (sliceBytes data 0 k)
      refine ⟨(State.bit_congr h8 0).trans hbusy, (State.bit_congr h0 31).trans hgo, (State.bit_congr h8 1).trans hnack, fun _ _ => ?_,
        by simp, fun a ha0 ha8 ha => (hsame ha).trans (honly.word a (hout ha0 ha8)), (congrArg State.mem hrest).trans hmem⟩
      have := State.regBytes_setRegBytes_same honly.wf (rI2c n 0x40) (sliceBytes data 0 k)
      rwa [hk] at this
    | false =>
      exact ⟨hbusy, hgo, hnack, by simp, fun _ => honly.word, fun a ha0 ha8 _ => honly.word a (hout ha0 ha8), hmem⟩

theorem runs_spiTransferDone (h : regsWf s.regs = true) (n : Fin 4) (v : BitVec 32) (hb : s.bit (rSpi n 8) 0 = true) :
    Runs (.spiTransferDone n v) s fun t => t.word (rSpi n 4) = v.toNat % 2 ^ s.spiBits n ∧ t.bit (rSpi n 8) 0 = false ∧
      RegsBut [rSpi n 4, rSpi n 8] s t ∧ t.mem = s.mem := by
  have k := (RegsOnly.refl (l := [rSpi n 4, rSpi n 8]) h).setWord (a := rSpi n 4) (v.toNat % 2 ^ s.spiBits n) (by simp)
  have hlt : v.toNat % 2 ^ s.spiBits n < 2 ^ 32 := Nat.lt_of_le_of_lt (Nat.mod_le ..) v.isLt
  exact .of_exec (congrArg Host.Outcome.next (if_pos hb))
    ⟨(State.word_setWord_other k.wf _ (by simp [rSpi, rPer])).trans ((State.word_setWord_same h _ _).trans (Nat.mod_eq_of_lt hlt)),
      State.bit_setBit_same k.wf false (by omega), (k.setBit _ _ (by simp)).word, rfl⟩

/-! GPIO (R626). -/

theorem runs_gpioEdge (h : regsWf s.regs = true) (k : Fin 64) (x : Bool)
    (hx : s.bit (rPer (0x3010 + k.val / 32 * 4)) (k.val % 32) ≠ x) : Runs (.gpioEdge k x) s fun t =>
      t.bit (rPer (0x3010 + k.val / 32 * 4)) (k.val % 32) = x ∧
      t.bit (rPer (0x3030 + k.val / 32 * 4)) (k.val % 32) = (s.bit (rPer (0x3030 + k.val / 32 * 4)) (k.val % 32) ||
        bitOf (s.fld (rPer (0x3020 + k.val / 16 * 4)) (2 * (k.val % 16) + 1) (2 * (k.val % 16))) (if x then 0 else 1)) ∧
      RegsBut [rPer (0x3010 + k.val / 32 * 4), rPer (0x3030 + k.val / 32 * 4)] s t ∧ t.mem = s.mem := by
  have hcfgne : rPer (0x3020 + k.val / 16 * 4) ≠ rPer (0x3010 + k.val / 32 * 4) := by simp only [rPer]; omega
  have hne : rPer (0x3030 + k.val / 32 * 4) ≠ rPer (0x3010 + k.val / 32 * 4) := by simp only [rPer]; omega
  generalize ha : rPer (0x3010 + k.val / 32 * 4) = a at *
  generalize hi : rPer (0x3030 + k.val / 32 * 4) = irq at *
  have hk32 : k.val % 32 < 32 := by omega
  have hlevel := (RegsOnly.refl (l := [a, irq]) h).setBit (a := a) (k.val % 32) x (by simp)
  have hshown : (s.setBit a (k.val % 32) x).bit a (k.val % 32) = x := State.bit_setBit_same h x hk32
  have hirq : (s.setBit a (k.val % 32) x).bit irq (k.val % 32) = s.bit irq (k.val % 32) := State.bit_setBit_other h _ _ _ hne
  generalize hc : s.fld (rPer (0x3020 + k.val / 16 * 4)) (2 * (k.val % 16) + 1) (2 * (k.val % 16)) = cfg
  have hcfg : (s.setBit a (k.val % 32) x).fld (rPer (0x3020 + k.val / 16 * 4)) (2 * (k.val % 16) + 1) (2 * (k.val % 16)) = cfg :=
    (State.fld_congr (State.word_setWord_other h _ hcfgne) _ _).trans hc
  have he : exec (.gpioEdge k x) s = .next (if (x && bitOf cfg 0) || (!x && bitOf cfg 1) then
      (s.setBit a (k.val % 32) x).setBit irq (k.val % 32) true else s.setBit a (k.val % 32) x) := by
    delta exec
    simp only [execGpioEdge, ha, hi, hcfg]
    exact if_neg (by simpa using hx)
  have hsel : ((x && bitOf cfg 0) || (!x && bitOf cfg 1)) = bitOf cfg (if x then 0 else 1) := by cases x <;> simp
  rw [hsel] at he
  refine .of_exec he ?_
  cases bitOf cfg (if x then 0 else 1) with
  | true =>
    exact ⟨(State.bit_setBit_other hlevel.wf _ _ _ hne.symm).trans hshown,
      (State.bit_setBit_same hlevel.wf true hk32).trans (Bool.or_true _).symm, (hlevel.setBit _ _ (by simp)).word, rfl⟩
  | false => exact ⟨hshown, hirq.trans (Bool.or_false _).symm, hlevel.word, rfl⟩

/-! xSPI and UFS (R627). -/

theorem runs_xspiCmdGo (h : regsWf s.regs = true) {m : Master} (n : Fin 2) (v : BitVec 32) (hw : s.sysWriter m = true)
    (hb : s.bit (rXspi n 0x10) 31 = false) : Runs (.xspiCmdGo m n v) s fun t =>
      t.word (rXspi n 0x10) = v.toNat &&& 0x8000FFFF ∧ RegsBut [rXspi n 0x10] s t ∧ t.mem = s.mem ∧ t.resp = ⟨false, false, []⟩ ∧
      Emitted (if bitOf v.toNat 31 then [.storage 0 n (v.toNat % 2 ^ 16) (s.word64 (rXspi n 8))] else []) s t := by
  have k := (RegsOnly.refl (l := [rXspi n 0x10]) h).setWord (v.toNat &&& 0x8000FFFF) (List.mem_singleton.mpr rfl)
  have hcmd : (s.setWord (rXspi n 0x10) (v.toNat &&& 0x8000FFFF)).word (rXspi n 0x10) = v.toNat &&& 0x8000FFFF :=
    (State.word_setWord_same h _ _).trans (word_and_mask v _)
  have haddr : (s.setWord (rXspi n 0x10) (v.toNat &&& 0x8000FFFF)).word64 (rXspi n 8) = s.word64 (rXspi n 8) := by
    rw [State.word64, State.word64, State.word_setWord_other h _ (by simp [rXspi, rPer]),
      State.word_setWord_other h _ (by simp only [rXspi, rPer]; omega)]
  have he : exec (.xspiCmdGo m n v) s = .next ((if bitOf v.toNat 31 then
      (s.setWord (rXspi n 0x10) (v.toNat &&& 0x8000FFFF)).emit (.storage 0 n (v.toNat % 2 ^ 16) (s.word64 (rXspi n 8)))
      else s.setWord (rXspi n 0x10) (v.toNat &&& 0x8000FFFF)).respOk []) := by
    refine (congrArg Host.Outcome.next (if_pos hw)).trans ?_
    rw [State.xspiWrite, if_neg (by simp [hb])]
    dsimp only
    rw [haddr]
  refine .of_exec he ?_
  cases bitOf v.toNat 31 with
  | true => exact ⟨hcmd, k.word, rfl, rfl, rfl⟩
  | false => exact ⟨hcmd, k.word, rfl, rfl, (List.append_nil _).symm⟩

theorem runs_xspiCommandDone (h : regsWf s.regs = true) (n : Fin 2) (data : List Byte) (hb : s.bit (rXspi n 0x10) 31 = true) :
    Runs (.xspiCommandDone n data) s fun t => t.bit (rXspi n 0x10) 31 = false ∧
      t.regBytes (rXspi n 0x100) (data.take 256).length = data.take 256 ∧
      (∀ a, a ≠ rXspi n 0x10 → a < rXspi n 0x100 ∨ rXspi n 0x200 ≤ a → t.word a = s.word a) ∧ t.mem = s.mem := by
  have hlen : (data.take 256).length ≤ 256 := by simp
  have hread := State.regBytes_setRegBytes_same h (rXspi n 0x100) (data.take 256)
  have hwords := s.setRegBytes_words h (rXspi n 0x100) (data.take 256)
  obtain ⟨r, hrest⟩ := s.setRegBytes_rest (rXspi n 0x100) (data.take 256)
  have hmem := congrArg State.mem hrest
  have he : exec (.xspiCommandDone n data) s = .next ((s.setRegBytes (rXspi n 0x100) (data.take 256)).setBit (rXspi n 0x10) 31 false) :=
    congrArg Host.Outcome.next (if_pos hb)
  refine .of_exec he ?_
  generalize s.setRegBytes (rXspi n 0x100) (data.take 256) = u at *
  refine ⟨State.bit_setBit_same hwords.wf false (by omega), (State.regBytes_congr fun i hi => ?_).trans hread, fun a ha hout => ?_, hmem⟩
  · exact State.word_setWord_other hwords.wf _ (by simp only [rXspi, rPer]; omega)
  · refine (State.word_setWord_other hwords.wf _ ha).trans (hwords.word a fun hin => ?_)
    simp only [areaWord, rXspi, rPer] at hin hout
    omega

/-- Slots submitted in order: each whose bit was not set before. -/
theorem State.foldl_submit (old : Nat) : ∀ (l : List Nat) (u : State),
    l.foldl (fun s k => if bitOf old k then s else s.emit (.storage 1 k 0 (s.word64 (rUfs 8)))) u =
      { u with out := u.out ++ (l.filter fun k => !bitOf old k).map fun k => .storage 1 k 0 (u.word64 (rUfs 8)) }
  | [], u => by simp
  | k :: l, u => by
    rw [List.foldl_cons, State.foldl_submit old l]
    cases hk : bitOf old k with
    | true => simp [hk]
    | false =>
      have hsame : (u.emit (.storage 1 k 0 (u.word64 (rUfs 8)))).word64 (rUfs 8) = u.word64 (rUfs 8) := rfl
      rw [if_neg (by simp), hsame, List.filter_cons_of_pos (by simp [hk])]
      simp [State.emit]

/-- The slots that a write of the doorbell submits. -/
theorem State.ufsRing_eq (v : Nat) : s.ufsRing v =
    { s.setWord (rUfs 0x10) (s.word (rUfs 0x10) ||| v) with
      out := s.out ++ ((List.range 32).filter fun k => bitOf v k && !bitOf (s.word (rUfs 0x10)) k).map fun k =>
        .storage 1 k 0 ((s.setWord (rUfs 0x10) (s.word (rUfs 0x10) ||| v)).word64 (rUfs 8)) } := by
  rw [State.ufsRing, State.foldl_submit, setBitsList, List.filter_filter]
  simp only [Bool.and_comm]
  rfl

theorem runs_ufsDoorbell (h : regsWf s.regs = true) {m : Master} (v : BitVec 32) (hw : s.sysWriter m = true) :
    Runs (.ufsDoorbell m v) s fun t => let old := s.word (rUfs 0x10)
      t.word (rUfs 0x10) = old ||| v.toNat ∧ RegsBut [rUfs 0x10] s t ∧ t.mem = s.mem ∧ t.resp = ⟨false, false, []⟩ ∧
      Emitted (((List.range 32).filter fun k => bitOf v.toNat k && !bitOf old k).map fun k => .storage 1 k 0 (s.word64 (rUfs 8))) s t := by
  have hlt : s.word (rUfs 0x10) ||| v.toNat < 2 ^ 32 := Nat.or_lt_two_pow (s.word_lt _) v.isLt
  have haddr : (s.setWord (rUfs 0x10) (s.word (rUfs 0x10) ||| v.toNat)).word64 (rUfs 8) = s.word64 (rUfs 8) := by
    rw [State.word64, State.word64, State.word_setWord_other h _ (by simp [rUfs, rPer]), State.word_setWord_other h _ (by simp [rUfs, rPer])]
  refine .of_exec (congrArg Host.Outcome.next (if_pos hw)) ?_
  rw [State.ufsRing_eq, haddr]
  exact ⟨(State.word_setWord_same h _ _).trans (Nat.mod_eq_of_lt hlt),
    ((RegsOnly.refl h).setWord _ (List.mem_singleton.mpr rfl)).word, rfl, rfl, rfl⟩

theorem runs_ufsCompletion (h : regsWf s.regs = true) (k : Fin 32) (hb : s.bit (rUfs 0x10) k = true) :
    Runs (.ufsCompletion k) s fun t => t.bit (rUfs 0x10) k = false ∧ t.bit (rUfs 0x14) k = true ∧
      (∀ b, b ≠ k.val → t.bit (rUfs 0x10) b = s.bit (rUfs 0x10) b) ∧ RegsBut [rUfs 0x10, rUfs 0x14] s t ∧ t.mem = s.mem := by
  have u := (RegsOnly.refl (l := [rUfs 0x10, rUfs 0x14]) h).setBit (a := rUfs 0x10) k false (by simp)
  have hne : rUfs 0x10 ≠ rUfs 0x14 := by simp [rUfs, rPer]
  refine .of_exec (congrArg Host.Outcome.next (if_pos hb)) ⟨(State.bit_setBit_other u.wf _ _ _ hne).trans
    (State.bit_setBit_same h false k.isLt), State.bit_setBit_same u.wf true k.isLt, fun b hbk => ?_, (u.setBit _ _ (by simp)).word, rfl⟩
  refine (State.bit_setBit_other u.wf _ _ _ hne).trans ?_
  by_cases hb32 : b < 32
  · exact State.bit_setBit_apart h false hb32 hbk
  · rw [State.bit_eq_false_of_le _ _ (by omega), State.bit_eq_false_of_le _ _ (by omega)]

end Sys2Proof.Machine

open Sys2Proof Sys2Proof.Machine

/-- Settles O57, interface by interface: each operation writes a few registers of its unit, and each register written is read back. -/
theorem lowSpeedInterfacesTransferAndSignal : Obligations.LowSpeedInterfacesTransferAndSignal := by
  unfold Obligations.LowSpeedInterfacesTransferAndSignal
  have wf {s : State} (h : s.canonical = true) : regsWf s.regs = true := (State.canonical_iff.mp h).2
  refine ⟨fun s m n x b v hw => ?refused, fun s m n b hcan hw hl => runs_uartTxByte (wf hcan) n b hw hl, fun s n b => ?received,
    fun s m n v hcan hw => ?goes, fun s n nack data v => ?ends, fun s k x => ?gpio, fun s m n v data hcan => ?xspi,
    fun s m v hcan hw => runs_ufsDoorbell (wf hcan) v hw, fun s k => ?ufs⟩
  case refused =>
    have hno : ¬s.sysWriter m = true := by simp [hw]
    exact ⟨congrArg Host.Outcome.next (if_neg hno), congrArg Host.Outcome.next (if_neg hno), congrArg Host.Outcome.next (if_neg hno),
      congrArg Host.Outcome.next (if_neg hno), congrArg Host.Outcome.next (if_neg hno)⟩
  case received => exact ⟨fun hen => congrArg Host.Outcome.next (if_pos (by simp [hen])), fun hcan hen => runs_uartRxByte (wf hcan) n b hen⟩
  case goes =>
    refine ⟨fun hb => ?_, fun hb => runs_i2cCmdGo (wf hcan) n v hw hb, fun hb => ?_, fun hb => runs_spiDataWrite (wf hcan) n v hw hb⟩
    · exact congrArg Host.Outcome.next ((if_pos hw).trans (congrArg (State.respOk · []) (if_pos hb)))
    · exact congrArg Host.Outcome.next ((if_pos hw).trans (congrArg (State.respOk · []) (if_pos hb)))
  case ends =>
    exact ⟨fun hb => if_pos (by simp [hb]), fun hb => congrArg Host.Outcome.next (if_neg (by simp [hb])),
      fun hcan hb => runs_i2cTransferDone (wf hcan) n nack data hb, fun hcan hb => runs_spiTransferDone (wf hcan) n v hb⟩
  case gpio =>
    exact ⟨fun hx => if_pos (by simp [hx]), fun hcan hx => runs_gpioEdge (wf hcan) k x hx⟩
  case xspi =>
    refine ⟨fun hw hb => ?_, fun hw hb => runs_xspiCmdGo (wf hcan) n v hw hb, fun hb => congrArg Host.Outcome.next (if_neg (by simp [hb])),
      fun hb => runs_xspiCommandDone (wf hcan) n data hb⟩
    exact congrArg Host.Outcome.next ((if_pos hw).trans (congrArg (State.respOk · []) (if_pos hb)))
  case ufs =>
    exact ⟨fun hb => congrArg Host.Outcome.next (if_neg (by simp [hb])), fun hcan hb => runs_ufsCompletion (wf hcan) k hb⟩
end

section
/-! PROOF. The public-key engine (R613 to R616): what a completion leaves in its registers and in the operand area. -/

namespace Sys2Proof.Machine

variable {s : State}

/-- Words of the operand area. -/
def pkArea (a : Nat) : Prop := rSec 0x4000 ≤ a ∧ a < rSec 0x8000

theorem State.word_pkClear (h : regsWf s.regs = true) (a : Nat) :
    s.pkClear.word a = if rSec 0x4000 ≤ a ∧ a < rSec 0x8000 then (regReset a).toNat else s.word a := State.word_resetRegs h _ _ _

theorem State.pkClear_words (h : regsWf s.regs = true) : WordsIn pkArea s s.pkClear :=
  ⟨fmDelRange_wf _ _ h, fun a ha => (State.word_pkClear h a).trans (if_neg ha)⟩

/-- The outputs of an operation written. -/
def State.pkOutput (s : State) (outs : List (Nat × List Byte)) : State :=
  outs.foldl (fun s p => s.setRegBytes (rSec (0x4000 + p.1)) p.2) s

theorem State.pkOutput_words (outs : List (Nat × List Byte)) : ∀ {s t : State}, WordsIn (fun a => rSec 0x4000 ≤ a) s t →
    WordsIn (fun a => rSec 0x4000 ≤ a) s (t.pkOutput outs) := by
  induction outs with
  | nil => exact fun h => h
  | cons p outs ih =>
    intro s t h
    refine ih ⟨(State.setRegBytes_words h.wf _ _).wf, fun a ha => ?_⟩
    refine (State.word_setRegBytes_outside h.wf (.inl ?_)).trans (h.word a ha)
    simp only [rSec] at ha ⊢
    omega

theorem State.pkOutput_rest (outs : List (Nat × List Byte)) : ∀ s : State, ∃ r, s.pkOutput outs = { s with regs := r } := by
  induction outs with
  | nil => exact fun s => ⟨_, rfl⟩
  | cons p outs ih =>
    intro s
    obtain ⟨r, hr⟩ := s.setRegBytes_rest (rSec (0x4000 + p.1)) p.2
    obtain ⟨r', hr'⟩ := ih (s.setRegBytes (rSec (0x4000 + p.1)) p.2)
    exact ⟨r', hr'.trans (by rw [hr])⟩

/-- What a completion has done before it shows its result: the area cleared, the outputs of a success written. -/
def State.pkWritten (s : State) (code : Nat) (outs : List (Nat × List Byte)) : State :=
  let u := ({ s with sec.op := none } : State).pkClear
  if code = 0 then u.pkOutput outs else u

theorem State.pkFinish_eq (code : Nat) (outs : List (Nat × List Byte)) : s.pkFinish code outs =
    (((((s.pkWritten code outs).setBit (rSec 0x18) 0 false).setFld (rSec 0x18) 15 8 code).setFld (rSec 0x18) 31 16
      ((((s.pkWritten code outs).setBit (rSec 0x18) 0 false).setFld (rSec 0x18) 15 8 code).fld (rSec 0x18) 31 16 + 1)).orWord (rSec 4) 1) :=
  rfl

theorem State.pkWritten_words (h : regsWf s.regs = true) (code : Nat) (outs : List (Nat × List Byte)) :
    WordsIn (fun a => rSec 0x4000 ≤ a) s (s.pkWritten code outs) := by
  have hclear := State.pkClear_words (s := { s with sec.op := none }) h
  have hu : WordsIn (fun a => rSec 0x4000 ≤ a) s ({ s with sec.op := none } : State).pkClear :=
    ⟨hclear.wf, fun a ha => hclear.word a fun hin => ha hin.1⟩
  unfold State.pkWritten
  split
  · exact State.pkOutput_words outs hu
  · exact hu

theorem State.pkWritten_rest (code : Nat) (outs : List (Nat × List Byte)) :
    ∃ r, s.pkWritten code outs = { s with sec.op := none, regs := r } := by
  unfold State.pkWritten
  split
  · obtain ⟨r, hr⟩ := State.pkOutput_rest outs ({ s with sec.op := none } : State).pkClear
    exact ⟨r, hr⟩
  · exact ⟨_, rfl⟩

/-- A completion (R615): only registers change, no operation is in progress, and the result, the count and PK_DONE show it. -/
structure PkDone (code : Nat) (outs : List (Nat × List Byte)) (s t : State) : Prop where
  wf : regsWf t.regs = true
  rest : ∃ r, t = { s with sec.op := none, regs := r }
  result : t.fld (rSec 0x18) 15 8 = code % 256
  busy : t.bit (rSec 0x18) 0 = false
  count : t.fld (rSec 0x18) 31 16 = (s.fld (rSec 0x18) 31 16 + 1) % 65536
  done : t.bit (rSec 4) 0 = true
  low : ∀ a, a < rSec 0x4000 → a ≠ rSec 0x18 → a ≠ rSec 4 → t.word a = s.word a
  area : ∀ a, rSec 0x4000 ≤ a → t.word a = (s.pkWritten code outs).word a

theorem State.pkFinish_done (h : regsWf s.regs = true) (code : Nat) (outs : List (Nat × List Byte)) :
    PkDone code outs s (s.pkFinish code outs) := by
  have hw := s.pkWritten_words h code outs
  obtain ⟨r, hr⟩ := s.pkWritten_rest code outs
  have h18 : (s.pkWritten code outs).word (rSec 0x18) = s.word (rSec 0x18) := hw.word _ (by simp [rSec])
  rw [State.pkFinish_eq]
  generalize hu : s.pkWritten code outs = u at *
  have k0 := (RegsOnly.refl (l := [rSec 0x18, rSec 4]) hw.wf).setBit (a := rSec 0x18) 0 false (by simp)
  have k1 := k0.setFld (a := rSec 0x18) 15 8 code (by simp)
  generalize hn : ((u.setBit (rSec 0x18) 0 false).setFld (rSec 0x18) 15 8 code).fld (rSec 0x18) 31 16 + 1 = n
  have k2 := k1.setFld (a := rSec 0x18) 31 16 n (by simp)
  have k3 := k2.orWord (a := rSec 4) 1 (by simp)
  have hlast := State.word_orWord_other k2.wf (b := rSec 0x18) (a := rSec 4) 1 (by simp [rSec])
  have hcount : n = s.fld (rSec 0x18) 31 16 + 1 := by
    rw [← hn, State.fld_setFld_apart k0.wf _ (by omega) (by omega) (by omega), State.fld_setBit_apart hw.wf _ (by omega) (by omega),
      State.fld_congr h18]
  refine ⟨k3.wf, ?_, (State.fld_congr hlast _ _).trans ?_, (State.bit_congr hlast _).trans ?_, (State.fld_congr hlast _ _).trans ?_,
    State.bit_orWord_pow k2.wf _ (k := 0) (by omega), fun a ha ha18 ha4 => ?_, fun a ha => ?_⟩
  · rw [hr]
    exact ⟨_, rfl⟩
  · rw [State.fld_setFld_apart k1.wf _ (by omega) (by omega) (by omega), State.fld_setFld_same k0.wf _ (by omega) (by omega)]
    rfl
  · rw [State.bit_setFld_apart k1.wf _ (by omega) (by omega) (by omega), State.bit_setFld_apart k0.wf _ (by omega) (by omega) (by omega)]
    exact State.bit_setBit_same hw.wf false (by omega)
  · rw [State.fld_setFld_same k1.wf _ (by omega) (by omega), hcount]
    rfl
  · exact (k3.word a (by simp [ha18, ha4])).trans (hw.word a (Nat.not_le.mpr ha))
  · rw [hu]
    exact k3.word a (by simp only [rSec, List.mem_cons, List.not_mem_nil, or_false] at ha ⊢; omega)

/-- After a result other than 0 the operand area reads as after reset. -/
theorem PkDone.cleared {t : State} {code : Nat} {outs : List (Nat × List Byte)} (h : PkDone code outs s t) (hs : regsWf s.regs = true)
    (hc : code ≠ 0) {a : Nat} (hlo : rSec 0x4000 ≤ a) (hhi : a < rSec 0x8000) : t.word a = (regReset a).toNat := by
  rw [h.area a hlo, State.pkWritten, if_neg hc]
  exact (State.word_pkClear (s := { s with sec.op := none }) hs a).trans (if_pos ⟨hlo, hhi⟩)

/-- An output of a success reads back, when no later output covers it. -/
theorem PkDone.output {t : State} {outs : List (Nat × List Byte)} (h : PkDone 0 outs s t) {o n : Nat}
    {l : List Byte} (hw : (s.pkWritten 0 outs).regBytes (rSec (0x4000 + o)) n = l) : t.regBytes (rSec (0x4000 + o)) n = l := by
  refine (State.regBytes_congr fun i _ => h.area _ ?_).trans hw
  simp only [rSec]
  omega

theorem State.pkWritten_single (h : regsWf s.regs = true) (o : Nat) (l : List Byte) :
    (s.pkWritten 0 [(o, l)]).regBytes (rSec (0x4000 + o)) l.length = l :=
  State.regBytes_setRegBytes_same (State.pkClear_words (s := { s with sec.op := none }) h).wf _ _

theorem State.pkWritten_pair (h : regsWf s.regs = true) {o p : Nat} {l d : List Byte} (hap : o + 4 * ((l.length + 3) / 4) ≤ p) :
    (s.pkWritten 0 [(o, l), (p, d)]).regBytes (rSec (0x4000 + o)) l.length = l ∧
      (s.pkWritten 0 [(o, l), (p, d)]).regBytes (rSec (0x4000 + p)) d.length = d := by
  have hclear := (State.pkClear_words (s := { s with sec.op := none }) h).wf
  have hfirst := State.regBytes_setRegBytes_same hclear (rSec (0x4000 + o)) l
  have hwf := (State.setRegBytes_words hclear (rSec (0x4000 + o)) l).wf
  refine ⟨(State.regBytes_congr fun i hi => ?_).trans hfirst, State.regBytes_setRegBytes_same hwf _ _⟩
  refine State.word_setRegBytes_outside hwf (.inl ?_)
  simp only [rSec]
  omega

theorem exec_pkComplete_idle (h : s.sec.op = none) : exec .pkComplete s = .next s := by
  delta exec
  simp only [execPkComplete, h]

theorem exec_pkComplete_plain {op due : Nat} {k : Bool} (h : s.sec.op = some ⟨op, k, due, false, false⟩) :
    exec .pkComplete s = .next (((s.timeTo due).pkResult ⟨op, k, due, false, false⟩).1.pkFinish
      ((s.timeTo due).pkResult ⟨op, k, due, false, false⟩).2.1 ((s.timeTo due).pkResult ⟨op, k, due, false, false⟩).2.2) := by
  delta exec
  simp only [execPkComplete, h]
  rfl

end Sys2Proof.Machine
end

section
/-! PROOF. The operations of the public-key engine: their start, their time and the results of R615 (O55). -/

namespace Sys2Proof.Machine

variable {s : State}

theorem exec_pkCmd_refused {c : Instr} {m : Master} {op : Nat} {k : Bool} (he : exec c s = .next (s.pkCmd m op k))
    (hw : (s.sysWriter m || m == mTap) = false) : exec c s = .next (s.refuse m 2 (rSec 0x14)) :=
  he.trans (congrArg Host.Outcome.next (if_pos (by simp [State.pkMaster, hw])))

/-- The master holds the engine, and the engine is idle. -/
theorem State.pkMay_iff {m : Master} : s.pkMay m = true ↔ s.sec.holder = some m.toNat ∧ s.bit (rSec 0x18) 0 = false := by
  simp [State.pkMay, State.pkBusy]

theorem exec_pkCmd_ignored {c : Instr} {m : Master} {op : Nat} {k : Bool} (he : exec c s = .next (s.pkCmd m op k))
    (hw : (s.sysWriter m || m == mTap) = true) (hm : ¬(s.sec.holder = some m.toNat ∧ s.bit (rSec 0x18) 0 = false)) :
    exec c s = .next (s.ignoreWr m (rSec 0x14)) := by
  rw [he, State.pkCmd, if_neg (by simp [State.pkMaster, hw]), if_pos (by simpa using State.pkMay_iff.not.mpr hm)]

theorem runs_pkCmd {c : Instr} {m : Master} {op cyc : Nat} {k : Bool} (he : exec c s = .next (s.pkCmd m op k))
    (hcyc : s.pkCycles op = cyc) (h : regsWf s.regs = true) (hw : (s.sysWriter m || m == mTap) = true)
    (hm : s.sec.holder = some m.toNat ∧ s.bit (rSec 0x18) 0 = false) : Runs c s fun t =>
      t.sec = { s.sec with op := some ⟨op, k, s.now + 4 * cyc, false, false⟩ } ∧ t.bit (rSec 0x18) 0 = true ∧
      (∀ b, b ≠ 0 → t.bit (rSec 0x18) b = s.bit (rSec 0x18) b) ∧ RegsBut [rSec 0x18] s t ∧ t.mem = s.mem ∧ t.now = s.now ∧
      t.resp = ⟨false, false, []⟩ := by
  rw [State.pkCmd, if_neg (by simp [State.pkMaster, hw]), if_neg (by simpa using State.pkMay_iff.mpr hm)] at he
  refine .of_exec he ⟨by rw [← hcyc]; rfl, State.bit_setBit_same h true (by omega), fun b hb => ?_,
    ((RegsOnly.refl (s := { s with sec.op := some ⟨op, k, s.now + 4 * s.pkCycles op, false, false⟩ }) h).setBit _ _
      (List.mem_singleton.mpr rfl)).word, rfl, rfl, rfl⟩
  by_cases hb32 : b < 32
  · exact State.bit_setBit_apart (s := { s with sec.op := some ⟨op, k, s.now + 4 * s.pkCycles op, false, false⟩ }) h true hb32 hb
  · rw [State.bit_eq_false_of_le _ _ (by omega), State.bit_eq_false_of_le _ _ (by omega)]

/-! Result codes. -/

theorem firstCode_eq_zero : ∀ {l : List (Bool × Nat)}, (∀ p ∈ l, p.2 ≠ 0) → (firstCode l = 0 ↔ ∀ p ∈ l, p.1 = false)
  | [], _ => by simp [firstCode]
  | (true, k) :: _, h => by simp [firstCode, h (true, k) List.mem_cons_self]
  | (false, k) :: r, h => by
    simp [firstCode, firstCode_eq_zero (l := r) fun p hp => h p (List.mem_cons_of_mem _ hp)]

theorem firstCode_lt : ∀ {l : List (Bool × Nat)} {n : Nat}, 0 < n → (∀ p ∈ l, p.2 < n) → firstCode l < n
  | [], _, h0, _ => h0
  | (true, _) :: _, _, _, h => h (true, _) List.mem_cons_self
  | (false, _) :: r, _, h0, h => firstCode_lt (l := r) h0 fun p hp => h p (List.mem_cons_of_mem _ hp)

/-! The curves: k bytes of the operand area hold a number. -/

section Curve

variable (c : Curve) (k : Nat) (b : Bool)

/-- Coordinates of the public key in the operand area. -/
def State.pkX (s : State) (k : Nat) : Nat := beNat (((s.pkData 0x80 (2 * k + 1)).drop 1).take k)
def State.pkY (s : State) (k : Nat) : Nat := beNat (((s.pkData 0x80 (2 * k + 1)).drop (k + 1)).take k)

/-- The conditions of R615 for a verification, in their order; the device key (7) has no part in it. -/
def State.verifyChecks (s : State) (c : Curve) (k : Nat) : List (Bool × Nat) :=
  [(decide ((s.pkData 0x80 (2 * k + 1)).getD 0 0 ≠ (4 : Byte)), 6),
    ((decide (c.n ≤ beNat (s.pkData 0x140 k)) || decide (c.n ≤ beNat (s.pkData 0x180 k))) ||
      (decide (c.p ≤ s.pkX k) || decide (c.p ≤ s.pkY k)), 3),
    (!c.on (s.pkX k) (s.pkY k), 4),
    (beNat (s.pkData 0x140 k) == 0 || beNat (s.pkData 0x180 k) == 0, 2), (false, 7),
    (!c.verify (beNat (s.pkData 0 k)) (beNat (s.pkData 0x140 k)) (beNat (s.pkData 0x180 k)) (s.pkX k) (s.pkY k), 1)]

theorem State.pkCurve_verify : s.pkCurve c k 1 false b = (s, firstCode (s.verifyChecks c k), []) := by
  unfold State.pkCurve
  simp only [Bool.false_and, Bool.false_or, Bool.true_or, Bool.true_and, beq_self_eq_true, bne_self_eq_false]
  change (if firstCode (s.verifyChecks c k) ≠ 0 then (s, firstCode (s.verifyChecks c k), []) else (s, 0, [])) = _
  split
  · rfl
  · next h => rw [not_not.mp h]

theorem State.verifyChecks_zero : firstCode (s.verifyChecks c k) = 0 ↔
    (s.pkData 0x80 (2 * k + 1)).getD 0 0 = 4 ∧ beNat (s.pkData 0x140 k) ≠ 0 ∧ beNat (s.pkData 0x140 k) < c.n ∧
      beNat (s.pkData 0x180 k) ≠ 0 ∧ beNat (s.pkData 0x180 k) < c.n ∧ s.pkX k < c.p ∧ s.pkY k < c.p ∧
      c.on (s.pkX k) (s.pkY k) = true ∧
      c.verify (beNat (s.pkData 0 k)) (beNat (s.pkData 0x140 k)) (beNat (s.pkData 0x180 k)) (s.pkX k) (s.pkY k) = true := by
  rw [firstCode_eq_zero (by simp [State.verifyChecks])]
  simp only [State.verifyChecks, List.forall_mem_cons, List.not_mem_nil, false_imp_iff, implies_true, and_true, true_and,
    Bool.or_eq_false_iff, decide_eq_false_iff_not, Bool.not_eq_false', not_not, beq_eq_false_iff_ne, Nat.not_le, ne_eq]
  constructor
  · rintro ⟨hq, ⟨⟨hr, hg⟩, hx, hy⟩, hon, ⟨hr0, hg0⟩, hv⟩
    exact ⟨hq, hr0, hr, hg0, hg, hx, hy, hon, hv⟩
  · rintro ⟨hq, hr0, hr, hg0, hg, hx, hy, hon, hv⟩
    exact ⟨hq, ⟨⟨hr, hg⟩, hx, hy⟩, hon, ⟨hr0, hg0⟩, hv⟩

theorem State.verifyChecks_lt : firstCode (s.verifyChecks c k) < 256 := firstCode_lt (by omega) (by simp [State.verifyChecks])

variable {c k b}

/-- The secret key in the operand area. -/
def State.pkD (s : State) (k : Nat) : Nat := beNat (s.pkData 0x40 k)

theorem State.pkCurve_keygen_large (hd : c.n ≤ s.pkD k) : s.pkCurve c k 3 false b = (s, 3, []) := by
  simp [State.pkCurve, firstCode, show c.n ≤ beNat (s.pkData 0x40 k) from hd]

theorem State.pkCurve_keygen_zero (hn : 0 < c.n) (hd : s.pkD k = 0) : s.pkCurve c k 3 false b = (s, 2, []) := by
  simp [State.pkCurve, firstCode, show beNat (s.pkData 0x40 k) = 0 from hd, Nat.not_le.mpr hn]

theorem State.pkCurve_keygen_point (hd0 : s.pkD k ≠ 0) (hd : s.pkD k < c.n) : s.pkCurve c k 3 false b =
    (s, 0, match c.mul 400 (s.pkD k) c.g with
      | some (x, y) => [(0x3080, [(4 : Byte)] ++ beBytes k x ++ beBytes k y)] | none => []) := by
  unfold State.pkD at *
  simp [State.pkCurve, firstCode, hd0, Nat.not_le.mpr hd]
  cases c.mul 400 (beNat (s.pkData 0x40 k)) c.g <;> rfl

theorem State.pkCurve_sign_large (hd : c.n ≤ s.pkD k) : s.pkCurve c k 0 false b = (s, 3, []) := by
  simp [State.pkCurve, firstCode, show c.n ≤ beNat (s.pkData 0x40 k) from hd]

theorem State.pkCurve_sign_zero (hn : 0 < c.n) (hd : s.pkD k = 0) : s.pkCurve c k 0 false b = (s, 2, []) := by
  simp [State.pkCurve, firstCode, show beNat (s.pkData 0x40 k) = 0 from hd, Nat.not_le.mpr hn]

theorem State.pkCurve_sign_done (hd0 : s.pkD k ≠ 0) (hd : s.pkD k < c.n) : s.pkCurve c k 0 false b =
    (s.takeFree.2, 0, [(0x3000, beBytes k (c.sign (beNat (s.pkData 0 k)) (s.pkD k) (s.takeFree.1 % c.n)).1),
      (0x3040, beBytes k (c.sign (beNat (s.pkData 0 k)) (s.pkD k) (s.takeFree.1 % c.n)).2)]) := by
  unfold State.pkD at *
  simp [State.pkCurve, firstCode, hd0, Nat.not_le.mpr hd]

/-- The conditions of R615 for ECDH, in their order; the device key (7) has no part in it, and nothing is verified (1). -/
def State.ecdhChecks (s : State) (c : Curve) (k : Nat) : List (Bool × Nat) :=
  [(decide ((s.pkData 0x80 (2 * k + 1)).getD 0 0 ≠ (4 : Byte)), 6),
    ((decide (c.n ≤ s.pkD k) || false) || (decide (c.p ≤ s.pkX k) || decide (c.p ≤ s.pkY k)), 3),
    (!c.on (s.pkX k) (s.pkY k), 4), (s.pkD k == 0 || false, 2), (false, 7), (false, 1)]

theorem State.pkCurve_ecdh : s.pkCurve c k 2 false b = if firstCode (s.ecdhChecks c k) ≠ 0 then (s, firstCode (s.ecdhChecks c k), [])
    else match c.mul 400 (s.pkD k) (some (s.pkX k, s.pkY k)) with | some (x, _) => (s, 0, [(0x3000, beBytes k x)]) | none => (s, 0, []) :=
  rfl

theorem State.ecdhChecks_form (hq : (s.pkData 0x80 (2 * k + 1)).getD 0 0 ≠ 4) : firstCode (s.ecdhChecks c k) = 6 := by
  rw [State.ecdhChecks, decide_eq_true hq, firstCode, if_pos rfl]

section Uncompressed

variable (hq : (s.pkData 0x80 (2 * k + 1)).getD 0 0 = 4)
include hq

theorem State.ecdhChecks_large (hl : c.n ≤ s.pkD k ∨ c.p ≤ s.pkX k ∨ c.p ≤ s.pkY k) : firstCode (s.ecdhChecks c k) = 3 := by
  rw [State.ecdhChecks, decide_eq_false (not_not.mpr hq), firstCode, firstCode]
  simp [hl]

variable (hd : s.pkD k < c.n) (hx : s.pkX k < c.p) (hy : s.pkY k < c.p)
include hd hx hy

theorem State.ecdhChecks_inRange : firstCode (s.ecdhChecks c k) =
    if c.on (s.pkX k) (s.pkY k) then (if s.pkD k = 0 then 2 else 0) else 4 := by
  rw [State.ecdhChecks, decide_eq_false (not_not.mpr hq), firstCode, firstCode]
  simp only [Nat.not_le.mpr hd, Nat.not_le.mpr hx, Nat.not_le.mpr hy, decide_false, Bool.or_false, Bool.false_eq_true, if_false,
    firstCode, beq_iff_eq]
  cases c.on (s.pkX k) (s.pkY k) <;> rfl

end Uncompressed

end Curve

/-! Completions. -/

theorem PkDone.mem {code : Nat} {outs : List (Nat × List Byte)} {t : State} (h : PkDone code outs s t) : t.mem = s.mem := by
  obtain ⟨r, rfl⟩ := h.rest
  rfl

/-- An operation that no one has abandoned ends with its result. -/
theorem runs_pkComplete_plain {p : State → Prop} {o : PkOp} {u : State} {code : Nat} {outs : List (Nat × List Byte)}
    (ho : s.sec.op = some ⟨o.op, o.keysrc, o.due, false, false⟩)
    (hres : (s.timeTo o.due).pkResult ⟨o.op, o.keysrc, o.due, false, false⟩ = (u, code, outs))
    (hu : regsWf u.regs = true) (hp : ∀ t, PkDone code outs u t → p t) : Runs .pkComplete s p := by
  have he := exec_pkComplete_plain ho
  rw [hres] at he
  exact .of_exec he (hp _ (State.pkFinish_done hu code outs))

section Results

variable {op due : Nat} (h : regsWf s.regs = true) (ho : s.sec.op = some ⟨op, false, due, false, false⟩)
include h ho

/-- A completion whose result only leaves a state with the registers and the memory of this one. -/
theorem runs_pkComplete {p : State → Prop} {u : State} {code : Nat} {outs : List (Nat × List Byte)}
    (hres : (s.timeTo due).pkResult ⟨op, false, due, false, false⟩ = (u, code, outs)) (hregs : u.regs = s.regs)
    (hmem : u.mem = s.mem) (hp : ∀ t, PkDone code outs u t → t.mem = s.mem → p t) : Runs .pkComplete s p :=
  runs_pkComplete_plain (o := ⟨op, false, due, false, false⟩) ho hres (by rw [hregs]; exact h) fun t ht => hp t ht (ht.mem.trans hmem)

variable {c : Curve} {n : Nat} {b : Bool}

theorem runs_pkComplete_verify
    (hres : (s.timeTo due).pkResult ⟨op, false, due, false, false⟩ = (s.timeTo due).pkCurve c n 1 false b) :
    Runs .pkComplete s fun t => (t.fld (rSec 0x18) 15 8 = 0 ↔ (s.pkData 0x80 (2 * n + 1)).getD 0 0 = 4 ∧
      beNat (s.pkData 0x140 n) ≠ 0 ∧ beNat (s.pkData 0x140 n) < c.n ∧ beNat (s.pkData 0x180 n) ≠ 0 ∧ beNat (s.pkData 0x180 n) < c.n ∧
      s.pkX n < c.p ∧ s.pkY n < c.p ∧ c.on (s.pkX n) (s.pkY n) = true ∧
      c.verify (beNat (s.pkData 0 n)) (beNat (s.pkData 0x140 n)) (beNat (s.pkData 0x180 n)) (s.pkX n) (s.pkY n) = true) ∧
      t.mem = s.mem := by
  rw [State.pkCurve_verify] at hres
  refine runs_pkComplete h ho hres rfl rfl fun t ht hmem => ⟨?_, hmem⟩
  rw [ht.result, Nat.mod_eq_of_lt (State.verifyChecks_lt c n)]
  exact State.verifyChecks_zero c n

/-- The engine's result when an operation ends with a code other than 0. -/
theorem runs_pkComplete_code {u : State} {code : Nat} (hc : code < 256)
    (hres : (s.timeTo due).pkResult ⟨op, false, due, false, false⟩ = (u, code, [])) (hu : u = s.timeTo due) :
    Runs .pkComplete s fun t => t.fld (rSec 0x18) 15 8 = code ∧ t.mem = s.mem := by
  subst hu
  exact runs_pkComplete h ho hres rfl rfl fun t ht hmem => ⟨ht.result.trans (Nat.mod_eq_of_lt hc), hmem⟩

variable (hn : 0 < c.n)
include hn

theorem runs_pkComplete_keygen
    (hres : (s.timeTo due).pkResult ⟨op, false, due, false, false⟩ = (s.timeTo due).pkCurve c n 3 false b) :
    Runs .pkComplete s fun t => (c.n ≤ s.pkD n → t.fld (rSec 0x18) 15 8 = 3) ∧ (s.pkD n = 0 → t.fld (rSec 0x18) 15 8 = 2) ∧
      (s.pkD n ≠ 0 → s.pkD n < c.n → t.fld (rSec 0x18) 15 8 = 0 ∧
        ∀ x y, c.mul 400 (s.pkD n) c.g = some (x, y) → t.regBytes (rSec 0x7080) (2 * n + 1) = [4] ++ beBytes n x ++ beBytes n y) ∧
      t.mem = s.mem := by
  rcases Nat.lt_or_ge (s.pkD n) c.n with hd | hd
  · by_cases hd0 : s.pkD n = 0
    · replace hres := hres.trans (State.pkCurve_keygen_zero (s := s.timeTo due) hn hd0)
      obtain ⟨t, he, hcode, hmem⟩ := runs_pkComplete_code h ho (by omega) hres rfl
      exact ⟨t, he, fun hge => by omega, fun _ => hcode, fun hne => absurd hd0 hne, hmem⟩
    · replace hres := hres.trans (State.pkCurve_keygen_point (s := s.timeTo due) hd0 hd)
      refine runs_pkComplete h ho hres rfl rfl fun t ht hmem =>
        ⟨fun hge => by omega, fun h0 => absurd h0 hd0, fun _ _ => ⟨ht.result, fun x y hxy => ?_⟩, hmem⟩
      have hmul : c.mul 400 ((s.timeTo due).pkD n) c.g = some (x, y) := hxy
      rw [hmul] at ht
      have hlen : ([(4 : Byte)] ++ beBytes n x ++ beBytes n y).length = 2 * n + 1 := by simp [beBytes_length]; omega
      have hw := State.pkWritten_single (s := s.timeTo due) h 0x3080 ([(4 : Byte)] ++ beBytes n x ++ beBytes n y)
      rw [hlen] at hw
      exact ht.output hw
  · replace hres := hres.trans (State.pkCurve_keygen_large (s := s.timeTo due) hd)
    obtain ⟨t, he, hcode, hmem⟩ := runs_pkComplete_code h ho (by omega) hres rfl
    exact ⟨t, he, fun _ => hcode, fun h0 => by omega, fun _ hlt => by omega, hmem⟩

theorem runs_pkComplete_sign (hlen : n ≤ 0x40)
    (hres : (s.timeTo due).pkResult ⟨op, false, due, false, false⟩ = (s.timeTo due).pkCurve c n 0 false b) :
    Runs .pkComplete s fun t => (c.n ≤ s.pkD n → t.fld (rSec 0x18) 15 8 = 3) ∧ (s.pkD n = 0 → t.fld (rSec 0x18) 15 8 = 2) ∧
      (s.pkD n ≠ 0 → s.pkD n < c.n → t.fld (rSec 0x18) 15 8 = 0 ∧ ∃ nonce, let g := c.sign (beNat (s.pkData 0 n)) (s.pkD n) (nonce % c.n)
        t.regBytes (rSec 0x7000) n = beBytes n g.1 ∧ t.regBytes (rSec 0x7040) n = beBytes n g.2) ∧ t.mem = s.mem := by
  rcases Nat.lt_or_ge (s.pkD n) c.n with hd | hd
  · by_cases hd0 : s.pkD n = 0
    · replace hres := hres.trans (State.pkCurve_sign_zero (s := s.timeTo due) hn hd0)
      obtain ⟨t, he, hcode, hmem⟩ := runs_pkComplete_code h ho (by omega) hres rfl
      exact ⟨t, he, fun hge => by omega, fun _ => hcode, fun hne => absurd hd0 hne, hmem⟩
    · replace hres := hres.trans (State.pkCurve_sign_done (s := s.timeTo due) hd0 hd)
      refine runs_pkComplete h ho hres rfl rfl fun t ht hmem =>
        ⟨fun hge => by omega, fun h0 => absurd h0 hd0, fun _ _ => ⟨ht.result, (s.timeTo due).takeFree.1, ?_⟩, hmem⟩
      generalize hg : c.sign (beNat ((s.timeTo due).pkData 0 n)) ((s.timeTo due).pkD n) ((s.timeTo due).takeFree.1 % c.n) = g at ht
      obtain ⟨h1, h2⟩ := State.pkWritten_pair (s := (s.timeTo due).takeFree.2) h (o := 0x3000) (p := 0x3040) (l := beBytes n g.1)
        (d := beBytes n g.2) (by rw [beBytes_length]; omega)
      rw [beBytes_length] at h1 h2
      have hg' : c.sign (beNat (s.pkData 0 n)) (s.pkD n) ((s.timeTo due).takeFree.1 % c.n) = g := hg
      rw [hg']
      exact ⟨ht.output h1, ht.output h2⟩
  · replace hres := hres.trans (State.pkCurve_sign_large (s := s.timeTo due) hd)
    obtain ⟨t, he, hcode, hmem⟩ := runs_pkComplete_code h ho (by omega) hres rfl
    exact ⟨t, he, fun _ => hcode, fun h0 => by omega, fun _ hlt => by omega, hmem⟩

omit hn in
theorem runs_pkComplete_ecdh
    (hres : (s.timeTo due).pkResult ⟨op, false, due, false, false⟩ = (s.timeTo due).pkCurve c n 2 false b) :
    Runs .pkComplete s fun t => ((s.pkData 0x80 (2 * n + 1)).getD 0 0 ≠ 4 → t.fld (rSec 0x18) 15 8 = 6) ∧
      ((s.pkData 0x80 (2 * n + 1)).getD 0 0 = 4 → c.n ≤ s.pkD n ∨ c.p ≤ s.pkX n ∨ c.p ≤ s.pkY n → t.fld (rSec 0x18) 15 8 = 3) ∧
      ((s.pkData 0x80 (2 * n + 1)).getD 0 0 = 4 → s.pkD n < c.n → s.pkX n < c.p → s.pkY n < c.p →
        (c.on (s.pkX n) (s.pkY n) = false → t.fld (rSec 0x18) 15 8 = 4) ∧ (c.on (s.pkX n) (s.pkY n) = true →
          (s.pkD n = 0 → t.fld (rSec 0x18) 15 8 = 2) ∧ (s.pkD n ≠ 0 → t.fld (rSec 0x18) 15 8 = 0 ∧
            ∀ u v, c.mul 400 (s.pkD n) (some (s.pkX n, s.pkY n)) = some (u, v) → t.regBytes (rSec 0x7000) n = beBytes n u))) ∧
      t.mem = s.mem := by
  rw [State.pkCurve_ecdh] at hres
  have hcheck : firstCode ((s.timeTo due).ecdhChecks c n) = firstCode (s.ecdhChecks c n) := rfl
  rw [hcheck] at hres
  by_cases hcode : firstCode (s.ecdhChecks c n) = 0
  · rw [if_neg (not_not.mpr hcode)] at hres
    have hshown : (s.timeTo due).pkResult ⟨op, false, due, false, false⟩ = (s.timeTo due, 0,
        match c.mul 400 (s.pkD n) (some (s.pkX n, s.pkY n)) with | some (x, _) => [(0x3000, beBytes n x)] | none => []) := by
      rw [hres]
      change (match c.mul 400 (s.pkD n) (some (s.pkX n, s.pkY n)) with
        | some (x, _) => (s.timeTo due, 0, [(0x3000, beBytes n x)]) | none => (s.timeTo due, 0, [])) = _
      cases c.mul 400 (s.pkD n) (some (s.pkX n, s.pkY n)) <;> rfl
    refine runs_pkComplete h ho hshown rfl rfl fun t ht hmem => ⟨fun hq => ?_, fun hq hl => ?_, fun hq hd hx hy => ?_, hmem⟩
    · rw [State.ecdhChecks_form hq] at hcode
      omega
    · rw [State.ecdhChecks_large hq hl] at hcode
      omega
    · rw [State.ecdhChecks_inRange hq hd hx hy] at hcode
      refine ⟨fun hon => by simp [hon] at hcode, fun hon => ⟨fun hd0 => by simp [hon, hd0] at hcode, fun _ => ⟨ht.result, fun u v huv => ?_⟩⟩⟩
      rw [huv] at ht
      have hw := State.pkWritten_single (s := s.timeTo due) h 0x3000 (beBytes n u)
      rw [beBytes_length] at hw
      exact ht.output hw
  · rw [if_pos hcode] at hres
    have hlt : firstCode (s.ecdhChecks c n) < 256 := firstCode_lt (by omega) (by simp [State.ecdhChecks])
    obtain ⟨t, he, hshown, hmem⟩ := runs_pkComplete_code h ho hlt hres rfl
    refine ⟨t, he, fun hq => hshown.trans (State.ecdhChecks_form hq), fun hq hl => hshown.trans (State.ecdhChecks_large hq hl),
      fun hq hd hx hy => ?_, hmem⟩
    rw [hshown, State.ecdhChecks_inRange hq hd hx hy]
    rw [State.ecdhChecks_inRange hq hd hx hy] at hcode
    refine ⟨fun hon => by simp [hon], fun hon => ⟨fun hd0 => by simp [hon, hd0], fun hd0 => ?_⟩⟩
    simp [hon, hd0] at hcode

omit hn in
theorem runs_pkComplete_x25519 (hop : op = 9) : Runs .pkComplete s fun t =>
    (p25519 ≤ leNat (s.pkData 0x80 32) % 2 ^ 255 → t.fld (rSec 0x18) 15 8 = 3) ∧
      (leNat (s.pkData 0x80 32) % 2 ^ 255 < p25519 →
        (x25519 (leNat (s.pkData 0x40 32)) (leNat (s.pkData 0x80 32)) = 0 → t.fld (rSec 0x18) 15 8 = 5) ∧
        (x25519 (leNat (s.pkData 0x40 32)) (leNat (s.pkData 0x80 32)) ≠ 0 → t.fld (rSec 0x18) 15 8 = 0 ∧
          t.regBytes (rSec 0x7000) 32 = leBytes 32 (x25519 (leNat (s.pkData 0x40 32)) (leNat (s.pkData 0x80 32))))) ∧
      t.mem = s.mem := by
  subst hop
  obtain ⟨code, outs, hx⟩ : ∃ code outs, s.pkX25519 false = (code, outs) := ⟨_, _, rfl⟩
  have hres : (s.timeTo due).pkResult ⟨9, false, due, false, false⟩ = (s.timeTo due, code, outs) := congrArg (Prod.mk (s.timeTo due)) hx
  simp only [State.pkX25519, firstCode, Bool.false_eq_true, if_false, Prod.mk.injEq] at hx
  obtain ⟨hcode, hout⟩ := hx
  generalize x25519 (leNat (s.pkData 0x40 32)) (leNat (s.pkData 0x80 32)) = v at *
  generalize leNat (s.pkData 0x80 32) % 2 ^ 255 = x at *
  refine runs_pkComplete h ho hres rfl rfl fun t ht hmem => ⟨fun hx => ?_, fun hx => ⟨fun hv => ?_, fun hv => ?_⟩, hmem⟩
  · rw [ht.result, ← hcode, if_pos (decide_eq_true hx)]
  · rw [ht.result, ← hcode, if_neg (by simpa using hx), if_pos (by simpa using hv)]
  · rw [if_neg (by simpa using hx), if_neg (by simpa using hv)] at hcode
    rw [← hcode, ← hout] at ht
    have hw := State.pkWritten_single (s := s.timeTo due) h 0x3000 (leBytes 32 v)
    rw [leBytes_length] at hw
    exact ⟨ht.result, ht.output hw⟩

omit hn in
theorem runs_pkComplete_dsa (hop : op = 10) {u : State} {msg : List Byte}
    (hread : (s.timeTo due).dmaReadLong (BitVec.ofNat 16 (s.sec.holder.getD 0)) (s.word64 (rSec 0x20) % 2 ^ 52) (s.word (rSec 0x28)) =
      (u, some (msg, false))) (hregs : u.regs = s.regs) : Runs .pkComplete s fun t => t.fld (rSec 0x18) 15 8 =
        if dsaVerify (s.pkData 0 1952) (s.pkData 0x800 3309) (s.pkData 0x1800 (s.fld (rSec 0x2C) 7 0)) msg then 0 else 1 := by
  subst hop
  have hdata (o n : Nat) : u.pkData o n = s.pkData o n := State.regBytes_congr fun i _ => State.word_congr hregs _
  have hlen : u.fld (rSec 0x2C) 7 0 = s.fld (rSec 0x2C) 7 0 := State.fld_congr (State.word_congr hregs _) 7 0
  have hdsa : (s.timeTo due).pkDsa (BitVec.ofNat 16 (s.sec.holder.getD 0)) false = (u, firstCode [(false, 6),
      (!dsaVerify (s.pkData 0 1952) (s.pkData 0x800 3309) (s.pkData 0x1800 (s.fld (rSec 0x2C) 7 0)) msg, 1)]) := by
    have hraw : (s.timeTo due).pkDsa (BitVec.ofNat 16 (s.sec.holder.getD 0)) false = (u, firstCode [(false, 6),
        (!dsaVerify (u.pkData 0 1952) (u.pkData 0x800 3309) (u.pkData 0x1800 (u.fld (rSec 0x2C) 7 0)) msg, 1)]) := by
      change (match (s.timeTo due).dmaReadLong (BitVec.ofNat 16 (s.sec.holder.getD 0)) (s.word64 (rSec 0x20) % 2 ^ 52) (s.word (rSec 0x28)) with
        | (u, some (msg, false)) => (u, firstCode [(false, 6),
          (!dsaVerify (u.pkData 0 1952) (u.pkData 0x800 3309) (u.pkData 0x1800 (u.fld (rSec 0x2C) 7 0)) msg, 1)])
        | (u, _) => (u, 6)) = _
      rw [hread]
    rw [hraw, hdata, hdata, hdata, hlen]
  have hres : (s.timeTo due).pkResult ⟨10, false, due, false, false⟩ = (u, firstCode [(false, 6),
      (!dsaVerify (s.pkData 0 1952) (s.pkData 0x800 3309) (s.pkData 0x1800 (s.fld (rSec 0x2C) 7 0)) msg, 1)], []) := by
    change (match (s.timeTo due).pkDsa (BitVec.ofNat 16 (s.sec.holder.getD 0)) false with | (s, c) => (s, c, [])) = _
    rw [hdsa]
  refine runs_pkComplete_plain (o := ⟨10, false, due, false, false⟩) ho hres (by rw [hregs]; exact h) fun t ht => ht.result.trans ?_
  cases dsaVerify (s.pkData 0 1952) (s.pkData 0x800 3309) (s.pkData 0x1800 (s.fld (rSec 0x2C) 7 0)) msg <;> rfl

omit hn in
theorem runs_pkComplete_kem (hop : op = 11) : Runs .pkComplete s fun t =>
    (kemKeyOk (s.pkData 0 2400) = false → t.fld (rSec 0x18) 15 8 = 6) ∧
      (kemKeyOk (s.pkData 0 2400) = true → t.fld (rSec 0x18) 15 8 = 0 ∧
        t.regBytes (rSec 0x7000) (kemDecaps (s.pkData 0 2400) (s.pkData 0x1000 1088)).length =
          kemDecaps (s.pkData 0 2400) (s.pkData 0x1000 1088)) ∧ t.mem = s.mem := by
  subst hop
  have hres : (s.timeTo due).pkResult ⟨11, false, due, false, false⟩ = (s.timeTo due, if !kemKeyOk (s.pkData 0 2400) then (6, [])
      else (0, [(0x3000, kemDecaps (s.pkData 0 2400) (s.pkData 0x1000 1088))])) := by
    have hkem : s.pkKem false = if !kemKeyOk (s.pkData 0 2400) then (6, [])
        else (0, [(0x3000, kemDecaps (s.pkData 0 2400) (s.pkData 0x1000 1088))]) := by
      simp only [State.pkKem, Bool.false_or]
    exact congrArg (Prod.mk (s.timeTo due)) hkem
  generalize kemDecaps (s.pkData 0 2400) (s.pkData 0x1000 1088) = l at *
  cases hk : kemKeyOk (s.pkData 0 2400) with
  | false =>
    rw [hk] at hres
    obtain ⟨t, he, hcode, hmem⟩ := runs_pkComplete_code h ho (by omega) hres rfl
    exact ⟨t, he, fun _ => hcode, nofun, hmem⟩
  | true =>
    rw [hk] at hres
    exact runs_pkComplete (u := s.timeTo due) h ho hres rfl rfl fun t ht hmem =>
      ⟨nofun, fun _ => ⟨ht.result, ht.output (State.pkWritten_single (s := s.timeTo due) h 0x3000 l)⟩, hmem⟩

end Results

end Sys2Proof.Machine

open Sys2Proof Sys2Proof.Machine

/-- Settles O55: a command of an operation is judged by the claim of the engine, and each operation's completion shows the first of the
conditions of R615 that holds, or writes its outputs. -/
theorem publicKeyOperationsRunAndAnswer : Obligations.PublicKeyOperationsRunAndAnswer := by
  unfold Obligations.PublicKeyOperationsRunAndAnswer
  have h256 : 0 < p256.n := by decide
  have h384 : 0 < p384.n := by decide
  refine ⟨fun s m k c op cyc hc => ?begins, fun s op due hcan ho => ?ends⟩
  case begins =>
    have hexec : exec c s = .next (s.pkCmd m op k) ∧ s.pkCycles op = cyc := by
      simp only [List.mem_cons, List.not_mem_nil, or_false, Prod.mk.injEq] at hc
      rcases hc with ⟨rfl, rfl, rfl⟩ | ⟨rfl, rfl, rfl⟩ | ⟨rfl, rfl, rfl⟩ | ⟨rfl, rfl, rfl⟩ | ⟨rfl, rfl, rfl⟩ | ⟨rfl, rfl, rfl⟩ |
        ⟨rfl, rfl, rfl⟩ | ⟨rfl, rfl, rfl⟩ | ⟨rfl, rfl, rfl⟩ | ⟨rfl, rfl, rfl⟩ | ⟨rfl, rfl, rfl⟩
      all_goals exact ⟨rfl, rfl⟩
    obtain ⟨he, hcyc⟩ := hexec
    exact ⟨fun hw => exec_pkCmd_refused he hw, fun hw hm => exec_pkCmd_ignored he hw hm,
      fun hcan hw hm => runs_pkCmd he hcyc (State.canonical_iff.mp hcan).2 hw hm⟩
  case ends =>
    have h := (State.canonical_iff.mp hcan).2
    refine ⟨fun c n hop => ?_, fun c n hop => ?_, fun c n hop => ?_, fun c n hop => ?_, fun hop => runs_pkComplete_x25519 h ho hop,
      fun hop u msg hread hregs => runs_pkComplete_dsa h ho hop hread hregs, fun hop => runs_pkComplete_kem h ho hop⟩
    · rcases hop with ⟨rfl, rfl, rfl⟩ | ⟨rfl, rfl, rfl⟩
      · exact runs_pkComplete_verify h ho (b := false) rfl
      · exact runs_pkComplete_verify h ho (b := true) rfl
    · rcases hop with ⟨rfl, rfl, rfl⟩ | ⟨rfl, rfl, rfl⟩
      · exact runs_pkComplete_keygen h ho h256 (b := false) rfl
      · exact runs_pkComplete_keygen h ho h384 (b := true) rfl
    · rcases hop with ⟨rfl, rfl, rfl⟩ | ⟨rfl, rfl, rfl⟩
      · exact runs_pkComplete_ecdh h ho (b := false) rfl
      · exact runs_pkComplete_ecdh h ho (b := true) rfl
    · rcases hop with ⟨rfl, rfl, rfl⟩ | ⟨rfl, rfl, rfl⟩
      · exact runs_pkComplete_sign h ho h256 (by omega) (b := false) rfl
      · exact runs_pkComplete_sign h ho h384 (by omega) (b := true) rfl
end

section
/-! PROOF. Fuses, key slots, decryption windows, and the claim and the end of the public-key engine (R604 to R618, O54). -/

namespace Sys2Proof.Machine

variable {s : State}

/-! Registers of SEC and the collector. -/

theorem rSec_outside (o : Nat) : rSec o < rFlt 0 ∨ rFlt 0x400 ≤ rSec o := by
  right
  simp only [rSec, rFlt, blkBase, bSEC, bFLT]
  omega

theorem FaultLow.bit_rSec {src cls : Nat} {u t : State} (h : FaultLow src cls u t) (o k : Nat) : t.bit (rSec o) k = u.bit (rSec o) k :=
  State.bit_congr (h.word _ (rSec_outside o)) k

theorem FaultLow.fld_rSec {src cls : Nat} {u t : State} (h : FaultLow src cls u t) (o hi lo : Nat) :
    t.fld (rSec o) hi lo = u.fld (rSec o) hi lo := State.fld_congr (h.word _ (rSec_outside o)) hi lo

theorem FaultLow.sec {src cls : Nat} {u t : State} (h : FaultLow src cls u t) : t.sec = u.sec := by
  obtain ⟨_, _, _, _, _, rfl⟩ := h.rest
  rfl

/-- A fault recorded after registers of SEC were written. -/
theorem FaultLow.faulted_rSec {src cls : Nat} {l : List Nat} {u v t : State} (h : FaultLow src cls v t) (hs : src < 64)
    (hl : ∀ a ∈ l, rFlt 0x400 ≤ a) (k : RegsOnly l u v) : Faulted src cls u t :=
  h.faulted_after (k.word _ fun hin => by
    have := hl _ hin
    simp only [rFlt] at this
    omega)

theorem rSec_above (o : Nat) : rFlt 0x400 ≤ rSec o := by
  simp only [rSec, rFlt, blkBase, bSEC, bFLT]
  omega

/-! Fuses (R604, R605). -/

theorem State.fuseAllowed_iff {n : Nat} : s.fuseAllowed n = true ↔
    n < 2 ∧ s.lifecycle = 0 ∧ s.rootKeyHash ≠ 0 ∧ s.debugKeyHash ≠ 0 ∨ 770 ≤ n ∧ n ≤ 834 ∨ 2 ≤ n ∧ n < 2980 ∧ s.lifecycle = 0 := by
  have hblank : s.isBlank = true ↔ s.lifecycle = 0 := beq_iff_eq
  unfold State.fuseAllowed
  split
  · simp only [Bool.and_eq_true, decide_eq_true_eq, hblank]
    omega
  · split
    · next h =>
      simp only [Bool.and_eq_true, decide_eq_true_eq] at h
      simp only [true_iff]
      omega
    · next h =>
      simp only [Bool.and_eq_true, decide_eq_true_eq] at h
      split
      · rw [hblank]
        omega
      · simp only [Bool.false_eq_true, false_iff]
        omega

theorem State.svnFloor_lt (s : State) : s.svnFloor < 128 := by
  have h : (setBitsList 64 (fuseField s.sec.fuses 770 64)).length ≤ (List.range 64).length := List.length_filter_le ..
  rw [List.length_range] at h
  exact Nat.lt_of_le_of_lt h (by omega)

/-- Words outside SEC that show fuse fields. -/
def fuseShow (a : Nat) : Prop := a = rSys 4 ∨ ∃ n, n < 4 ∧ a = rPciPort n 8

theorem fuseShow_rSec (o : Nat) : ¬fuseShow (rSec o) := by
  rintro (h | ⟨n, hn, h⟩)
  all_goals
    simp only [rSec, rSys, rPciPort, rPci, blkBase, bSEC, bSYS, bPCI] at h
    omega

/-- Register writes in order leave a state that differs in registers only. -/
theorem exists_regs_foldl {α : Type} {f : State → α → State} (hf : ∀ s x, ∃ r, f s x = { s with regs := r }) :
    ∀ (l : List α) (s : State), ∃ r, l.foldl f s = { s with regs := r }
  | [], s => ⟨s.regs, rfl⟩
  | x :: l, s => by
    obtain ⟨r, hr⟩ := hf s x
    obtain ⟨r', hr'⟩ := exists_regs_foldl hf l (f s x)
    exact ⟨r', by rw [List.foldl_cons, hr', hr]⟩

/-- The registers of SEC that show fuse fields, before those of other blocks are written. -/
def State.showSecFuses (s : State) : State :=
  ((s.setRegBytes (rSec 0x1000) (leBytes 120 (s.sec.fuses % 2 ^ 932))).setFld (rSec 0) 14 8 s.svnFloor).setBit (rSec 0) 4
    (bitOf s.sec.fuses 834)

theorem State.showSecFuses_rest (s : State) : ∃ r, s.showSecFuses = { s with regs := r } := by
  obtain ⟨r, hr⟩ := s.setRegBytes_rest (rSec 0x1000) (leBytes 120 (s.sec.fuses % 2 ^ 932))
  exact ⟨_, by rw [State.showSecFuses, hr]; rfl⟩

theorem State.showFuses_eq (s : State) : s.showFuses = (List.range 4).foldl
    (fun t n => t.setWord (rPciPort n 8) (fuseField t.sec.fuses 835 32)) (s.showSecFuses.setBit (rSys 4) 7 (bitOf s.sec.fuses 867)) := by
  obtain ⟨r, hr⟩ := s.setRegBytes_rest (rSec 0x1000) (leBytes 120 (s.sec.fuses % 2 ^ 932))
  simp only [State.showFuses, State.showSecFuses, hr]
  rfl

theorem State.showFuses_rest (s : State) : ∃ r, s.showFuses = { s with regs := r } := by
  obtain ⟨r, hr⟩ := s.showSecFuses_rest
  obtain ⟨r', hr'⟩ := exists_regs_foldl (f := fun t n => t.setWord (rPciPort n 8) (fuseField t.sec.fuses 835 32)) (fun _ _ => ⟨_, rfl⟩)
    (List.range 4) (s.showSecFuses.setBit (rSys 4) 7 (bitOf s.sec.fuses 867))
  exact ⟨r', by rw [State.showFuses_eq, hr', hr]; rfl⟩

theorem State.showSecFuses_wf (h : regsWf s.regs = true) : regsWf s.showSecFuses.regs = true :=
  State.setBit_regsWf (State.setFld_regsWf (State.setRegBytes_words h _ _).wf _ _ _ _) _ _ _

theorem State.showFuses_words (h : regsWf s.regs = true) : WordsIn fuseShow s.showSecFuses s.showFuses := by
  rw [State.showFuses_eq]
  exact .foldl _ ((WordsIn.refl (State.showSecFuses_wf h)).setBit _ _ (.inl rfl)) fun u n hn hu =>
    hu.setWord _ (.inr ⟨n, List.mem_range.mp hn, rfl⟩)

/-- What the registers of SEC show of the fuses (R604). -/
theorem State.showFuses_shown (h : regsWf s.regs = true) : s.showFuses.fld (rSec 0) 14 8 = s.svnFloor ∧
    s.showFuses.regBytes (rSec 0x1000) 120 = leBytes 120 (s.sec.fuses % 2 ^ 932) := by
  have hw := State.showFuses_words h
  have hbytes := State.regBytes_setRegBytes_same h (rSec 0x1000) (leBytes 120 (s.sec.fuses % 2 ^ 932))
  rw [leBytes_length] at hbytes
  have hwf := (State.setRegBytes_words h (rSec 0x1000) (leBytes 120 (s.sec.fuses % 2 ^ 932))).wf
  refine ⟨(State.fld_congr (hw.word _ (fuseShow_rSec 0)) 14 8).trans ?_, (State.regBytes_congr fun i hi => ?_).trans hbytes⟩
  · rw [State.showSecFuses, State.fld_setBit_apart (State.setFld_regsWf hwf _ _ _ _) _ (by omega) (by omega),
      State.fld_setFld_same hwf _ (by omega) (by omega)]
    exact Nat.mod_eq_of_lt s.svnFloor_lt
  · have hne : rSec 0x1000 + 4 * i ≠ rSec 0 := by
      simp only [rSec]
      omega
    have hsec : rSec 0x1000 + 4 * i = rSec (0x1000 + 4 * i) := by
      simp only [rSec]
      omega
    rw [hw.word _ (hsec ▸ fuseShow_rSec _), State.showSecFuses, State.setBit,
      State.word_setFld_other (State.setFld_regsWf hwf _ _ _ _) _ _ _ hne, State.word_setFld_other hwf _ _ _ hne]

section FuseProg

variable {b : BitVec 12} {x : Bool} (h : regsWf s.regs = true)
include h

/-- FUSE_ERR raised (R604). -/
theorem State.fuseErr_raised : RegsOnly [rSec 0, rSec 4] s ((s.orWord (rSec 0) 0x80).orWord (rSec 4) 0x10) ∧
    ((s.orWord (rSec 0) 0x80).orWord (rSec 4) 0x10).bit (rSec 0) 7 = true ∧
    ((s.orWord (rSec 0) 0x80).orWord (rSec 4) 0x10).bit (rSec 4) 4 = true := by
  have k := (RegsOnly.refl (l := [rSec 0, rSec 4]) h).orWord (a := rSec 0) 0x80 (by simp)
  exact ⟨k.orWord _ (by simp), (State.bit_orWord_other k.wf _ _ (by simp [rSec])).trans (State.bit_orWord_pow h _ (k := 7) (by omega)),
    State.bit_orWord_pow k.wf _ (k := 4) (by omega)⟩

theorem runs_fuseProg_protected (hf : s.fuseAllowed b.toNat = false) : Runs (.fuseProg (mFwp 0) b x) s fun t =>
    t.bit (rSec 0) 7 = true ∧ t.bit (rSec 4) 4 = true ∧ RegsBut [rSec 0, rSec 4] s t ∧ t.sec = s.sec ∧ t.mem = s.mem ∧
      t.resp = ⟨false, false, []⟩ := by
  obtain ⟨hk, h0, h4⟩ := State.fuseErr_raised h
  exact .of_exec (if_pos (by simp [hf])) ⟨h0, h4, hk.word, rfl, rfl, rfl⟩

theorem runs_fuseProg_failed (hf : s.fuseAllowed b.toNat = true) : Runs (.fuseProg (mFwp 0) b false) s fun t =>
    t.bit (rSec 0) 7 = true ∧ t.bit (rSec 4) 4 = true ∧ Faulted 0x24 3 s t ∧ t.sec = s.sec ∧ t.resp = ⟨false, false, []⟩ := by
  obtain ⟨hk, h0, h4⟩ := State.fuseErr_raised h
  have hlow := State.fault_low hk.wf (src := 0x24) (cls := 3) (by omega) (by omega) (mFwp 0) 0 b.toNat
  exact .of_exec (if_neg (by simp [hf])) ⟨(hlow.bit_rSec 0 7).trans h0, (hlow.bit_rSec 4 4).trans h4,
    hlow.faulted_rSec (by omega) (by simp [rSec_above]) hk, hlow.sec, rfl⟩

theorem runs_fuseProg_blown (hf : s.fuseAllowed b.toNat = true) : Runs (.fuseProg (mFwp 0) b true) s fun t =>
    (∀ k, bitOf t.sec.fuses k = (decide (k = b.toNat) || bitOf s.sec.fuses k)) ∧ t.fld (rSec 0) 14 8 = t.svnFloor ∧
      t.regBytes (rSec 0x1000) 120 = leBytes 120 (t.sec.fuses % 2 ^ 932) ∧ t.sec = { s.sec with fuses := t.sec.fuses } ∧
      t.mem = s.mem ∧ t.resp = ⟨false, false, []⟩ := by
  have he : exec (.fuseProg (mFwp 0) b true) s =
      .next ((({ s with sec.fuses := setBitsOf s.sec.fuses b.toNat b.toNat 1 } : State).showFuses).respOk []) :=
    if_neg (by simp [hf])
  obtain ⟨hfloor, hbytes⟩ := State.showFuses_shown (s := { s with sec.fuses := setBitsOf s.sec.fuses b.toNat b.toNat 1 }) h
  obtain ⟨r, hr⟩ := State.showFuses_rest { s with sec.fuses := setBitsOf s.sec.fuses b.toNat b.toNat 1 }
  rw [hr] at he hfloor hbytes
  exact .of_exec he ⟨bitOf_setBitsOf_one _ _, hfloor, hbytes, rfl, rfl, rfl⟩

end FuseProg

/-! Key slots (R610). -/

theorem State.keyMaster_iff {m : Master} : s.keyMaster m = true ↔ m = mFwp 5 ∨ s.isIsland m = true := by
  simp [State.keyMaster, isFwpModel]

theorem State.slotNamed_iff {k : Nat} : s.slotNamed k = true ↔
    ∃ w, w < 64 ∧ s.bit (rSecWin w 0xC) 31 = true ∧ s.fld (rSecWin w 0xC) 3 0 = k := by
  simp [State.slotNamed]

theorem runs_keyRefused (h : regsWf s.regs = true) {c : Instr} {m : Master} {k : Nat} (he : exec c s = .next (s.keyRefused m k)) :
    Runs c s fun t => t.bit (rSec 0x144) 18 = true ∧ Faulted 0x24 1 s t ∧ t.sec = s.sec ∧ t.resp = ⟨false, false, []⟩ := by
  have k18 := (RegsOnly.refl (l := [rSec 0x144]) h).orWord 0x40000 (List.mem_singleton.mpr rfl)
  have hlow := State.fault_low k18.wf (src := 0x24) (cls := 1) (by omega) (by omega) m 0 k
  exact .of_exec he ⟨(hlow.bit_rSec 0x144 18).trans (State.bit_orWord_pow h _ (k := 18) (by omega)),
    hlow.faulted_rSec (by omega) (by simp [rSec_above]) k18, hlow.sec, rfl⟩

/-- The key that the registers hold wrapped; none exists without the device's own. -/
def State.unwrapped (s : State) : Option Nat := if s.bit (rSec 0) 2 then none else keyUnwrap kek (s.regBytes (rSec 0x150) 40)

section Keys

variable {m : Master} {k : Fin 16} (hm : s.keyMaster m = true) (hk : s.slotNamed k = false)
include hm hk

theorem exec_keyUnwrap : exec (.keyUnwrap m k) s = (match s.unwrapped with
    | some key => .next ((({ s with sec.slots := fmPut s.sec.slots k key } : State).setBit (rSec 0x144) k true).respOk [])
    | none => .next ((((s.orWord (rSec 0x144) 0x20000).orWord (rSec 4) 2).fault 0x24 1 m 0 k).respOk [])) :=
  (if_neg (by simp [hm])).trans (if_neg (by simp [hk]))

variable (h : regsWf s.regs = true)
include h

theorem runs_keyClear : Runs (.keyClear m k) s fun t => t.sec = { s.sec with slots := fmDel s.sec.slots k } ∧
    t.bit (rSec 0x144) k = false ∧ RegsBut [rSec 0x144] s t ∧ t.mem = s.mem ∧ t.resp = ⟨false, false, []⟩ := by
  have he : exec (.keyClear m k) s =
      .next ((({ s with sec.slots := fmDel s.sec.slots k } : State).setBit (rSec 0x144) k false).respOk []) :=
    (if_neg (by simp [hm])).trans (if_neg (by simp [hk]))
  have hk32 : k.val < 32 := by omega
  exact .of_exec he ⟨rfl, State.bit_setBit_same (s := { s with sec.slots := fmDel s.sec.slots k }) h false hk32,
    ((RegsOnly.refl (s := { s with sec.slots := fmDel s.sec.slots k }) h).setBit _ _ (List.mem_singleton.mpr rfl)).word, rfl, rfl⟩

theorem runs_keyUnwrap_key {key : Nat} (hu : s.unwrapped = some key) : Runs (.keyUnwrap m k) s fun t =>
    fmGet t.sec.slots k = some key ∧ t.bit (rSec 0x144) k = true ∧ RegsBut [rSec 0x144] s t ∧ t.mem = s.mem ∧
      t.resp = ⟨false, false, []⟩ := by
  have he : exec (.keyUnwrap m k) s =
      .next ((({ s with sec.slots := fmPut s.sec.slots k key } : State).setBit (rSec 0x144) k true).respOk []) := by
    rw [exec_keyUnwrap hm hk, hu]
  have hk32 : k.val < 32 := by omega
  exact .of_exec he ⟨fmGet_fmPut_same .., State.bit_setBit_same (s := { s with sec.slots := fmPut s.sec.slots k key }) h true hk32,
    ((RegsOnly.refl (s := { s with sec.slots := fmPut s.sec.slots k key }) h).setBit _ _ (List.mem_singleton.mpr rfl)).word, rfl, rfl⟩

theorem runs_keyUnwrap_fails (hu : s.unwrapped = none) : Runs (.keyUnwrap m k) s fun t =>
    t.bit (rSec 0x144) 17 = true ∧ t.bit (rSec 4) 1 = true ∧ Faulted 0x24 1 s t ∧ t.sec = s.sec ∧ t.resp = ⟨false, false, []⟩ := by
  have he : exec (.keyUnwrap m k) s = .next ((((s.orWord (rSec 0x144) 0x20000).orWord (rSec 4) 2).fault 0x24 1 m 0 k).respOk []) := by
    rw [exec_keyUnwrap hm hk, hu]
  have k17 := (RegsOnly.refl (l := [rSec 0x144, rSec 4]) h).orWord (a := rSec 0x144) 0x20000 (by simp)
  have k1 := k17.orWord (a := rSec 4) 2 (by simp)
  have hlow := State.fault_low k1.wf (src := 0x24) (cls := 1) (by omega) (by omega) m 0 k
  exact .of_exec he ⟨(hlow.bit_rSec 0x144 17).trans ((State.bit_orWord_other k17.wf _ _ (by simp [rSec])).trans
    (State.bit_orWord_pow h _ (k := 17) (by omega))), (hlow.bit_rSec 4 1).trans (State.bit_orWord_pow k17.wf _ (k := 1) (by omega)),
    hlow.faulted_rSec (by omega) (by simp [rSec_above]) k1, hlow.sec, rfl⟩

end Keys

/-! Decryption windows (R611). -/

theorem State.winOk_iff {w : Fin 64} : s.winOk w = true ↔ s.word64 (rSecWin w 0) % 64 = 0 ∧ s.word (rSecWin w 8) % 64 = 0 ∧
    hbmBase ≤ s.word64 (rSecWin w 0) ∧ s.word64 (rSecWin w 0) + s.word (rSecWin w 8) ≤ hbmBase + s.hbmBytes ∧
    ∀ k, k < 64 → k ≠ w.val → s.bit (rSecWin k 0xC) 31 = true →
      s.word64 (rSecWin w 0) + s.word (rSecWin w 8) ≤ s.word64 (rSecWin k 0) ∨
        s.word64 (rSecWin k 0) + s.word (rSecWin k 8) ≤ s.word64 (rSecWin w 0) := by
  simp only [State.winOk, Bool.and_eq_true, decide_eq_true_eq, List.all_eq_true, List.mem_range, Bool.or_eq_true, beq_iff_eq,
    Bool.not_eq_true', and_assoc]
  refine and_congr_right fun _ => and_congr_right fun _ => and_congr_right fun _ => and_congr_right fun _ => forall₂_congr fun k _ => ?_
  cases s.bit (rSecWin k 0xC) 31 <;> simp [imp_iff_not_or, or_assoc]

section Windows

variable {m : Master} {w : Fin 64} {v : BitVec 32} (h : regsWf s.regs = true) (hm : s.sysWriter m = true)
include h hm

theorem runs_secWinWrite_refused (hv : bitOf v.toNat 31 = true) (hw : s.winOk w = false) : Runs (.secWinWrite m w v) s fun t =>
    t.bit (rSecWin w 0xC) 30 = true ∧ (∀ k, k ≠ 30 → t.bit (rSecWin w 0xC) k = s.bit (rSecWin w 0xC) k) ∧
      RegsBut [rSecWin w 0xC] s t ∧ t.mem = s.mem ∧ t.resp = ⟨false, false, []⟩ := by
  refine .of_exec ((if_neg (by simp [hm])).trans (if_pos (by simp [hv, hw]))) ⟨State.bit_orWord_pow h _ (k := 30) (by omega), fun k hk => ?_,
    ((RegsOnly.refl h).orWord _ (List.mem_singleton.mpr rfl)).word, rfl, rfl⟩
  by_cases hk32 : k < 32
  · refine (State.bit_orWord_same h _ 0x40000000 hk32).trans ?_
    have hbit : bitOf 0x40000000 k = false := by
      rw [bitOf_eq, show (0x40000000 : Nat) = 2 ^ 30 from rfl, Nat.testBit_two_pow]
      simp [Ne.symm hk]
    rw [hbit, Bool.or_false]
  · rw [State.bit_eq_false_of_le _ _ (by omega), State.bit_eq_false_of_le _ _ (by omega)]

theorem runs_secWinWrite (hv : (bitOf v.toNat 31 && !s.winOk w) = false) : Runs (.secWinWrite m w v) s fun t =>
    t.fld (rSecWin w 0xC) 3 0 = v.toNat % 16 ∧ t.bit (rSecWin w 0xC) 31 = bitOf v.toNat 31 ∧
      t.bit (rSecWin w 0xC) 30 = (s.bit (rSecWin w 0xC) 30 && !bitOf v.toNat 30) ∧ RegsBut [rSecWin w 0xC] s t ∧ t.mem = s.mem ∧
      t.resp = ⟨false, false, []⟩ := by
  generalize ha : rSecWin w 0xC = a
  have he : exec (.secWinWrite m w v) s = .next ((((((s.setWord a 0).setFld a 3 0 v.toNat).setBit a 31 (bitOf v.toNat 31)).setBit a 30
      (s.bit a 30 && !bitOf v.toNat 30))).respOk []) := by
    subst ha
    exact (if_neg (by simp [hm])).trans (if_neg (by simp [hv]))
  have k0 := (RegsOnly.refl (l := [a]) h).setWord 0 (List.mem_singleton.mpr rfl)
  have k1 := k0.setFld 3 0 v.toNat (List.mem_singleton.mpr rfl)
  have k2 := k1.setBit 31 (bitOf v.toNat 31) (List.mem_singleton.mpr rfl)
  refine .of_exec he ⟨?_, ?_, State.bit_setBit_same k2.wf _ (by omega), (k2.setBit _ _ (List.mem_singleton.mpr rfl)).word, rfl, rfl⟩
  · exact (State.fld_setBit_apart k2.wf _ (by omega) (by omega)).trans ((State.fld_setBit_apart k1.wf _ (by omega) (by omega)).trans
      (State.fld_setFld_same k0.wf _ (by omega) (by omega)))
  · exact (State.bit_setBit_apart k2.wf _ (by omega) (by omega)).trans (State.bit_setBit_same k1.wf _ (by omega))

end Windows

/-! The claim of the engine (R616). -/

/-- A state whose engine nobody holds: the operand area reads as after reset. -/
theorem State.pkFree_effect (h : regsWf s.regs = true) : WordsIn pkArea s s.pkFree ∧
    (∀ a, rSec 0x4000 ≤ a → a < rSec 0x8000 → s.pkFree.word a = (regReset a).toNat) ∧
    ∃ r, s.pkFree = { s with sec.holder := none, regs := r } := by
  have hclear := State.pkClear_words (s := { s with sec.holder := none }) h
  exact ⟨⟨hclear.wf, hclear.word⟩, fun a hlo hhi =>
    (State.word_pkClear (s := { s with sec.holder := none }) h a).trans (if_pos ⟨hlo, hhi⟩), _, rfl⟩

theorem exec_pkClaim_refused {m : Master} (hr : (sysReader m || m == mTap) = false) :
    exec (.pkClaim m) s = .next (s.refuse m 1 (rSec 0x10)) := if_pos (by simp [hr])

theorem exec_pkClaim_read {m : Master} (hr : (sysReader m || m == mTap) = true) : exec (.pkClaim m) s = (match s.sec.holder with
    | none => .next (({ s with sec.holder := some m.toNat } : State).respOk (leBytes 4 (1 + 65536 * m.toNat)))
    | some h => .next (s.respOk (leBytes 4 (65536 * (h % 65536))))) := if_neg (by simp [hr])

section Claim

variable {m : Master} (hw : (s.sysWriter m || m == mTap) = true)
include hw

theorem State.pkMaster_of_writer : ¬(!s.pkMaster m) = true := by simp [State.pkMaster, hw]

theorem exec_pkRelease_ignored (hm : ¬(s.sec.holder = some m.toNat ∧ s.bit (rSec 0x18) 0 = false)) :
    exec (.pkRelease m) s = .next (s.ignoreWr m (rSec 0x1C)) :=
  (if_neg (State.pkMaster_of_writer hw)).trans (if_pos (by simpa using State.pkMay_iff.not.mpr hm))

theorem runs_pkRelease (h : regsWf s.regs = true) (hm : s.sec.holder = some m.toNat ∧ s.bit (rSec 0x18) 0 = false) :
    Runs (.pkRelease m) s fun t => t.sec = { s.sec with holder := none } ∧
      (∀ a, rSec 0x4000 ≤ a → a < rSec 0x8000 → t.word a = (regReset a).toNat) ∧
      (∀ a, a < rSec 0x4000 ∨ rSec 0x8000 ≤ a → t.word a = s.word a) ∧ t.mem = s.mem ∧ t.resp = ⟨false, false, []⟩ := by
  obtain ⟨hwords, harea, -⟩ := State.pkFree_effect h
  refine .of_exec ((if_neg (State.pkMaster_of_writer hw)).trans (if_neg (by simpa using State.pkMay_iff.mpr hm)))
    ⟨rfl, harea, fun a ha => hwords.word a ?_, rfl, rfl⟩
  simp only [pkArea]
  omega

section BadOp

variable {op : BitVec 8} (hop : op.toNat = 0 ∨ 11 < op.toNat)
include hop

theorem exec_badOp_ignored (hm : ¬(s.sec.holder = some m.toNat ∧ s.bit (rSec 0x18) 0 = false)) :
    exec (.badOp m op) s = .next (s.ignoreWr m (rSec 0x14)) :=
  (if_neg (by omega)).trans ((if_neg (State.pkMaster_of_writer hw)).trans (if_pos (by simpa using State.pkMay_iff.not.mpr hm)))

theorem runs_badOp (h : regsWf s.regs = true) (hm : s.sec.holder = some m.toNat ∧ s.bit (rSec 0x18) 0 = false) :
    Runs (.badOp m op) s fun t => t.fld (rSec 0x18) 15 8 = 8 ∧ t.bit (rSec 0x18) 0 = false ∧
      t.fld (rSec 0x18) 31 16 = (s.fld (rSec 0x18) 31 16 + 1) % 65536 ∧ t.bit (rSec 4) 0 = true ∧
      (∀ a, rSec 0x4000 ≤ a → a < rSec 0x8000 → t.word a = (regReset a).toNat) ∧ t.sec.holder = s.sec.holder ∧ t.mem = s.mem ∧
      t.resp = ⟨false, false, []⟩ := by
  have hdone := State.pkFinish_done h 8 []
  have he : exec (.badOp m op) s = .next ((s.pkFinish 8 []).respOk []) :=
    (if_neg (by omega)).trans ((if_neg (State.pkMaster_of_writer hw)).trans (if_neg (by simpa using State.pkMay_iff.mpr hm)))
  exact .of_exec he ⟨hdone.result, hdone.busy, hdone.count, hdone.done, fun a hlo hhi => hdone.cleared h (by omega) hlo hhi, rfl,
    hdone.mem, rfl⟩

end BadOp

end Claim

/-! The end of an operation (R615 to R617). -/

/-- What a completion of the engine shows, whatever follows it. -/
structure PkShown (code : Nat) (u t : State) : Prop where
  op : t.sec.op = none
  now : t.now = u.now
  busy : t.bit (rSec 0x18) 0 = false
  done : t.bit (rSec 4) 0 = true
  count : t.fld (rSec 0x18) 31 16 = (u.fld (rSec 0x18) 31 16 + 1) % 65536
  result : t.fld (rSec 0x18) 15 8 = code % 256

theorem PkDone.shown {code : Nat} {outs : List (Nat × List Byte)} {u t : State} (h : PkDone code outs u t) : PkShown code u t := by
  obtain ⟨r, hr⟩ := h.rest
  exact ⟨by rw [hr], by rw [hr], h.busy, h.done, h.count, h.result⟩

/-- Changes after a completion that leave its result word alone. -/
theorem PkShown.after {code : Nat} {u v t : State} (h : PkShown code u v) (hword : t.word (rSec 0x18) = v.word (rSec 0x18))
    (hdone : t.bit (rSec 4) 0 = true) (hop : t.sec.op = v.sec.op) (hnow : t.now = v.now) : PkShown code u t :=
  ⟨hop.trans h.op, hnow.trans h.now, (State.bit_congr hword 0).trans h.busy, hdone, (State.fld_congr hword 31 16).trans h.count,
    (State.fld_congr hword 15 8).trans h.result⟩

theorem pkArea_low {o : Nat} (h : o < 0x4000) : ¬pkArea (rSec o) := fun ⟨hlo, _⟩ => by
  simp only [rSec] at hlo
  omega

/-- The claim given up after a completion. -/
theorem PkDone.freed {code : Nat} {outs : List (Nat × List Byte)} {u v : State} (h : PkDone code outs u v) :
    PkShown code u v.pkFree ∧ v.pkFree.sec.holder = none ∧
      ∀ a, rSec 0x4000 ≤ a → a < rSec 0x8000 → v.pkFree.word a = (regReset a).toNat := by
  obtain ⟨hwords, harea, r, hr⟩ := State.pkFree_effect h.wf
  refine ⟨h.shown.after (hwords.word _ (pkArea_low (by omega))) ((State.bit_congr (hwords.word _ (pkArea_low (by omega))) 0).trans h.done)
    ?_ ?_, ?_, harea⟩
  all_goals rw [hr]

/-- The outcome of a debug submission recorded (R617), after registers of SEC below the operand area were written. -/
theorem PkShown.recorded {code : Nat} {outs : List (Nat × List Byte)} {u v w : State} (hv : PkDone code outs u v)
    (k : RegsOnly [rSec 0, rSec 4] v.pkFree w) (hdone : w.bit (rSec 4) 0 = true) (i : Nat) :
    PkShown code u (w.fault 0x24 1 mTap 0 i) ∧ (w.fault 0x24 1 mTap 0 i).sec.holder = none ∧ Faulted 0x24 1 u (w.fault 0x24 1 mTap 0 i) ∧
      (∀ a, rSec 0x4000 ≤ a → a < rSec 0x8000 → (w.fault 0x24 1 mTap 0 i).word a = (regReset a).toNat) ∧
      ∀ o, (w.fault 0x24 1 mTap 0 i).word (rSec o) = w.word (rSec o) := by
  obtain ⟨hshown, hholder, harea⟩ := hv.freed
  obtain ⟨hwords, -⟩ := State.pkFree_effect hv.wf
  have hlow := State.fault_low k.wf (src := 0x24) (cls := 1) (by omega) (by omega) mTap 0 i
  have hword (o : Nat) : (w.fault 0x24 1 mTap 0 i).word (rSec o) = w.word (rSec o) := hlow.word _ (rSec_outside o)
  obtain ⟨r, hr⟩ := k.rest
  have hsec : (w.fault 0x24 1 mTap 0 i).sec = v.pkFree.sec := hlow.sec.trans (by rw [hr])
  refine ⟨hshown.after ((hword 0x18).trans (k.word _ (by simp [rSec]))) ((State.bit_congr (hword 4) 0).trans hdone) (by rw [hsec])
    (hlow.kept.now.trans (by rw [hr])), by rw [hsec, hholder], hlow.faulted_after ?_, fun a hlo hhi => ?_, hword⟩
  · rw [k.word _ (by decide), hwords.word _ (by simp only [pkArea]; decide), hv.low _ (by decide) (by decide) (by decide)]
  · have hne : a ∉ [rSec 0, rSec 4] := by
      simp only [rSec, List.mem_cons, List.not_mem_nil, or_false] at hlo ⊢
      omega
    have hout : a < rFlt 0 ∨ rFlt 0x400 ≤ a := .inr (Nat.le_trans (rSec_above _) hlo)
    rw [hlow.word a hout, k.word a hne, harea a hlo hhi]

/-- What the clauses of a completion ask. -/
structure PkEnd (o : PkOp) (u : State) (code : Nat) (outs : List (Nat × List Byte)) (t : State) : Prop where
  shown : PkShown (if o.abandon then 9 else code) u t
  abandoned : o.abandon = true → t.sec.holder = none
  plain : o.abandon = false → o.debug = false → t = u.pkFinish code outs ∧ t.sec.holder = u.sec.holder
  debug : o.abandon = false → o.debug = true → t.sec.holder = none ∧ Faulted 0x24 1 u t ∧ (code = 0 → t.bit (rSec 0) 3 = true) ∧
    (code ≠ 0 → t.bit (rSec 0) 3 = u.bit (rSec 0) 3 ∧ t.fld (rSec 0) 6 5 = min (u.fld (rSec 0) 6 5 + 1) 3 ∧ t.bit (rSec 4) 2 = true)
  area : o.abandon = true ∨ o.debug = true ∨ code ≠ 0 → ∀ a, rSec 0x4000 ≤ a → a < rSec 0x8000 → t.word a = (regReset a).toNat

section End

variable {o : PkOp} {u : State} {code : Nat} {outs : List (Nat × List Byte)} (hu : regsWf u.regs = true)
include hu

theorem PkEnd.of_abandoned (ha : o.abandon = true) : PkEnd o u code outs (u.pkFinish 9 []).pkFree := by
  obtain ⟨hshown, hholder, harea⟩ := (State.pkFinish_done hu 9 []).freed
  exact ⟨by rw [if_pos ha]; exact hshown, fun _ => hholder, by simp [ha], by simp [ha], fun _ => harea⟩

theorem PkEnd.of_plain (ha : o.abandon = false) (hd : o.debug = false) : PkEnd o u code outs (u.pkFinish code outs) := by
  have hdone := State.pkFinish_done hu code outs
  refine ⟨by simpa [ha] using hdone.shown, by simp [ha], fun _ _ => ⟨rfl, ?_⟩, by simp [hd], fun hc a hlo hhi =>
    hdone.cleared hu (by simpa [ha, hd] using hc) hlo hhi⟩
  obtain ⟨r, hr⟩ := hdone.rest
  rw [hr]

theorem PkEnd.of_opened (ha : o.abandon = false) (hd : o.debug = true) (hc : code = 0) :
    PkEnd o u code outs ((((u.pkFinish code outs).pkFree).orWord (rSec 0) 8).fault 0x24 1 mTap 0 1) := by
  have hdone := State.pkFinish_done hu code outs
  obtain ⟨hfree, -, -⟩ := hdone.freed
  have hwf := (State.pkFree_effect hdone.wf).1.wf
  have k := (RegsOnly.refl (l := [rSec 0, rSec 4]) hwf).orWord (a := rSec 0) 8 (by simp)
  obtain ⟨hshown, hholder, hfault, harea, hword⟩ := PkShown.recorded hdone k
    ((State.bit_orWord_other hwf _ _ (by simp [rSec])).trans hfree.done) 1
  refine ⟨by simpa [ha] using hshown, by simp [ha], by simp [hd], fun _ _ => ⟨hholder, hfault, fun _ => ?_, fun hne => absurd hc hne⟩,
    fun _ => harea⟩
  exact (State.bit_congr (hword 0) 3).trans (State.bit_orWord_pow hwf _ (k := 3) (by omega))

theorem PkEnd.of_failed (ha : o.abandon = false) (hd : o.debug = true) (hc : code ≠ 0) :
    PkEnd o u code outs ((u.pkFinish code outs).pkFree.dbgFail) := by
  have hdone := State.pkFinish_done hu code outs
  obtain ⟨hfree, -, -⟩ := hdone.freed
  have hwords := (State.pkFree_effect hdone.wf).1
  have hstatus : (u.pkFinish code outs).pkFree.word (rSec 0) = u.word (rSec 0) :=
    (hwords.word _ (pkArea_low (by omega))).trans (hdone.low _ (by simp [rSec]) (by simp [rSec]) (by simp [rSec]))
  have k1 := (RegsOnly.refl (l := [rSec 0, rSec 4]) hwords.wf).bumpSat (a := rSec 0) 6 5 (by simp)
  have k2 := k1.orWord (a := rSec 4) 4 (by simp)
  have hlast := State.word_orWord_other k1.wf (a := rSec 4) (b := rSec 0) 4 (by simp [rSec])
  have hirq : (((u.pkFinish code outs).pkFree.bumpSat (rSec 0) 6 5).orWord (rSec 4) 4).bit (rSec 4) 0 = true := by
    rw [State.bit_orWord_same k1.wf _ _ (by omega), State.bumpSat, State.bit,
      State.word_setFld_other hwords.wf _ _ _ (by simp [rSec])]
    exact (congrArg (· || bitOf 4 0) hfree.done).trans (Bool.true_or _)
  obtain ⟨hshown, hholder, hfault, harea, hword⟩ := PkShown.recorded hdone k2 hirq 0
  refine ⟨by rw [if_neg (by simp [ha])]; exact hshown, by simp [ha], by simp [hd], fun _ _ => ⟨hholder, hfault, fun h0 => absurd h0 hc, fun _ => ⟨?_, ?_, ?_⟩⟩,
    fun _ => harea⟩
  · refine (State.bit_congr ((hword 0).trans hlast) 3).trans ?_
    rw [State.bumpSat, State.bit_setFld_apart hwords.wf _ (by omega) (by omega) (by omega)]
    exact State.bit_congr hstatus 3
  · refine (State.fld_congr ((hword 0).trans hlast) 6 5).trans ?_
    rw [State.fld_bumpSat_same hwords.wf (by omega) (by omega), State.fld_congr hstatus]
    rfl
  · exact (State.bit_congr (hword 4) 2).trans (State.bit_orWord_pow k1.wf _ (k := 2) (by omega))

end End

theorem runs_pkComplete_end {o : PkOp} (h : regsWf s.regs = true) (ho : s.sec.op = some o) :
    Runs .pkComplete s (PkEnd o ((s.timeTo o.due).pkResult o).1 ((s.timeTo o.due).pkResult o).2.1 ((s.timeTo o.due).pkResult o).2.2) := by
  have hu : regsWf ((s.timeTo o.due).pkResult o).1.regs = true := (State.pkResult_keeps (Keeps.refl (s.timeTo o.due))).regs h
  have he : exec .pkComplete s = (if o.abandon then .next (((s.timeTo o.due).pkResult o).1.pkFinish 9 []).pkFree
      else if !o.debug then .next (((s.timeTo o.due).pkResult o).1.pkFinish ((s.timeTo o.due).pkResult o).2.1
        ((s.timeTo o.due).pkResult o).2.2)
      else if ((s.timeTo o.due).pkResult o).2.1 = 0 then
        .next ((((((s.timeTo o.due).pkResult o).1.pkFinish ((s.timeTo o.due).pkResult o).2.1
          ((s.timeTo o.due).pkResult o).2.2).pkFree).orWord (rSec 0) 8).fault 0x24 1 mTap 0 1)
      else .next ((((s.timeTo o.due).pkResult o).1.pkFinish ((s.timeTo o.due).pkResult o).2.1
          ((s.timeTo o.due).pkResult o).2.2).pkFree.dbgFail)) := by
    delta exec
    simp only [execPkComplete, ho]
  generalize (s.timeTo o.due).pkResult o = r at *
  by_cases ha : o.abandon = true
  · exact .of_exec (he.trans (if_pos ha)) (.of_abandoned hu ha)
  · replace he := he.trans (if_neg ha)
    rw [Bool.not_eq_true] at ha
    cases hd : o.debug with
    | false => exact .of_exec (he.trans (if_pos (by simp [hd]))) (.of_plain hu ha hd)
    | true =>
      replace he := he.trans (if_neg (by simp [hd]))
      by_cases hc : r.2.1 = 0
      · exact .of_exec (he.trans (if_pos hc)) (.of_opened hu ha hd hc)
      · exact .of_exec (he.trans (if_neg hc)) (.of_failed hu ha hd hc)

end Sys2Proof.Machine

open Sys2Proof Sys2Proof.Machine

/-- Settles O54: who may act is judged first, then each operation writes its registers, and its faults keep what they show. -/
theorem fusesKeysWindowsAndTheEngineAreGuarded : Obligations.FusesKeysWindowsAndTheEngineAreGuarded := by
  unfold Obligations.FusesKeysWindowsAndTheEngineAreGuarded
  have wf {s : State} (h : s.canonical = true) : regsWf s.regs = true := (State.canonical_iff.mp h).2
  refine ⟨fun s m b x => ?fuses, fun s m k => ?keys, fun s m w v => ?windows, fun s m => ?claim, fun s h => exec_pkComplete_idle h,
    fun s o hcan ho => ?ends⟩
  case fuses =>
    have hoff {P : Prop} (hP : s.fuseAllowed b.toNat = true ↔ P) (hn : ¬P) : s.fuseAllowed b.toNat = false := by
      rwa [← hP, Bool.not_eq_true] at hn
    refine ⟨fun hm => if_pos hm, fun hcan hm hok => ?_, fun hcan hm hok hx => ?_, fun hcan hm hok hx => ?_⟩
    · subst hm
      exact runs_fuseProg_protected (wf hcan) (hoff State.fuseAllowed_iff hok)
    · subst hm hx
      exact runs_fuseProg_failed (wf hcan) (State.fuseAllowed_iff.mpr hok)
    · subst hm hx
      exact runs_fuseProg_blown (wf hcan) (State.fuseAllowed_iff.mpr hok)
  case keys =>
    refine ⟨fun hm => ?_, fun hcan hm hk => ?_, fun hcan hm hk => ?_⟩
    · have hno : (!s.keyMaster m) = true := by simpa using State.keyMaster_iff.not.mpr hm
      exact ⟨if_pos hno, if_pos hno⟩
    · have hmay : ¬(!s.keyMaster m) = true := by simpa using State.keyMaster_iff.mpr hm
      have hnamed := State.slotNamed_iff.mpr hk
      exact ⟨runs_keyRefused (wf hcan) ((if_neg hmay).trans (if_pos hnamed)), runs_keyRefused (wf hcan) ((if_neg hmay).trans (if_pos hnamed))⟩
    · have hmay := State.keyMaster_iff.mpr hm
      have hfree : s.slotNamed k = false := by simpa using State.slotNamed_iff.not.mpr hk
      refine ⟨?_, runs_keyClear hmay hfree (wf hcan)⟩
      cases hu : s.unwrapped with
      | none =>
        obtain ⟨t, he, h17, h1, hfault, hsec, hresp⟩ := runs_keyUnwrap_fails hmay hfree (wf hcan) hu
        refine ⟨t, he, fun key hpuf hkey => ?_, fun _ => ⟨h17, h1, hfault, hsec⟩, hresp⟩
        rw [State.unwrapped, hpuf, if_neg Bool.false_ne_true, hkey] at hu
        exact absurd hu (by simp)
      | some key =>
        obtain ⟨t, he, hslot, hbit, hregs, hmem, hresp⟩ := runs_keyUnwrap_key hmay hfree (wf hcan) hu
        refine ⟨t, he, fun key' hpuf hkey => ?_, fun hnone => ?_, hresp⟩
        · rw [State.unwrapped, hpuf, if_neg Bool.false_ne_true, hkey] at hu
          rw [hu]
          exact ⟨hslot, hbit, hregs, hmem⟩
        · unfold State.unwrapped at hu
          split at hu
          · exact absurd hu (by simp)
          · next hpuf =>
            rcases hnone with hnone | hnone
            · exact absurd hnone hpuf
            · rw [hnone] at hu
              exact absurd hu (by simp)
  case windows =>
    have hok : s.winOk w = true ↔ _ := State.winOk_iff
    refine ⟨fun hm => if_pos (by simp [hm]), fun hcan hm hv hgood => ?_, fun hcan hm hv => ?_⟩
    · exact runs_secWinWrite_refused (wf hcan) hm hv (by rw [← Bool.not_eq_true, hok]; exact hgood)
    · refine runs_secWinWrite (wf hcan) hm ?_
      rcases hv with hv | hgood
      · rw [hv, Bool.false_and]
      · rw [hok.mpr hgood, Bool.not_true, Bool.and_false]
  case claim =>
    refine ⟨fun hr => exec_pkClaim_refused hr, fun hr hh => ?_, fun k hr hh => ?_, fun hw => ?_, fun hw hm => exec_pkRelease_ignored hw hm,
      fun hcan hw hm => runs_pkRelease hw (wf hcan) hm, fun op => ⟨fun h1 h11 => if_pos ⟨h1, h11⟩, fun hop hw => ?_,
        fun hop hw hm => exec_badOp_ignored hw hop hm, fun hop hcan hw hm => runs_badOp hw hop (wf hcan) hm⟩⟩
    · have he := exec_pkClaim_read (s := s) hr
      rw [hh] at he
      exact .of_exec he ⟨rfl, rfl, rfl, rfl⟩
    · have he := exec_pkClaim_read (s := s) hr
      rw [hh] at he
      exact he
    · exact if_pos (by simp [State.pkMaster, hw])
    · exact (if_neg (by omega)).trans (if_pos (by simp [State.pkMaster, hw]))
  case ends =>
    obtain ⟨t, he, hend⟩ := runs_pkComplete_end (wf hcan) ho
    refine ⟨t, he, hend.shown.op, hend.shown.now, hend.shown.busy, hend.shown.done, hend.shown.count, fun ha => ?_, fun ha => ?_,
      hend.plain, hend.debug, hend.area⟩
    · exact ⟨hend.shown.result.trans (by rw [if_pos ha]), hend.abandoned ha⟩
    · exact hend.shown.result.trans (by rw [if_neg (by simp [ha])])
end

section
/-! PROOF. The test access port (R632 to R636): instructions, challenges, submissions and access to a split pair (O56). -/

namespace Sys2Proof.Machine

variable {s : State}

/-! Ball-controlling instructions (R633). -/

theorem FaultOn.tap {src cls : Nat} {u t : State} (h : FaultOn src cls u t) : t.tap = u.tap := by
  obtain ⟨_, _, _, _, _, _, _, _, rfl⟩ := h.rest
  rfl

/-- The device is unlocked or BLANK. -/
theorem State.tapMay_iff : (s.unlocked || s.isBlank) = true ↔ s.bit (rSec 0) 3 = true ∨ s.lifecycle = 0 := by
  simp [State.unlocked, State.isBlank]

section Balls

variable {op : Nat}

theorem State.tapTake_refused (h : ¬(s.bit (rSec 0) 3 = true ∨ s.lifecycle = 0)) : s.tapTake op =
    ({ s.tapSelect op with tap := { s.tap with ir := op, refused := true } }, false) :=
  if_neg (by rw [← State.tapMay_iff] at h; exact h)

/-- Control of the balls taken. -/
def State.tapHolding (s : State) (op : Nat) : State :=
  { s.tapSelect op with tap := { s.tap with ir := op, refused := false, held := 1 } }

theorem State.tapTake_taken (h : s.bit (rSec 0) 3 = true ∨ s.lifecycle = 0) : s.tapTake op =
    (if s.tap.held = 1 then s.tapHolding op else (s.tapHolding op).fault 0x0F 4 mTap 0 op, true) := by
  have hraw : s.tapTake op = (if decide (s.tap.held = 1) = true then s.tapHolding op else (s.tapHolding op).fault 0x0F 4 mTap 0 op, true) :=
    if_pos (State.tapMay_iff.mpr h)
  simpa only [decide_eq_true_eq] using hraw

/-- What taking control leaves: the port's own state, and a record of class S when it was not in control. -/
theorem State.tapTake_effect (hwf : regsWf s.regs = true) (h : s.bit (rSec 0) 3 = true ∨ s.lifecycle = 0) : ∃ u, s.tapTake op = (u, true) ∧
    u.tap = { s.tap with ir := op, refused := false, held := 1 } ∧ (s.tap.held ≠ 1 → Faulted 0x0F 4 s u) ∧
    (s.tap.held = 1 → u.regs = s.regs ∧ u.mem = s.mem ∧ Emitted [.tdo s.irCapture 12] s u) := by
  rw [State.tapTake_taken h]
  by_cases hheld : s.tap.held = 1
  · rw [if_pos hheld]
    exact ⟨_, rfl, rfl, fun hne => absurd hheld hne, fun _ => ⟨rfl, rfl, rfl⟩⟩
  · rw [if_neg hheld]
    have hon := State.fault_on (s := s.tapHolding op) hwf (src := 0x0F) (cls := 4) (by omega) (by omega) mTap 0 op
    exact ⟨_, rfl, hon.tap, fun _ => hon.faulted_after rfl, fun h1 => absurd h1 hheld⟩

theorem runs_tap_refused {c : Instr} {d : Nat} (he : exec c s = .next (s.tapExtest op d) ∨ exec c s = .next (s.tapTake op).1.tapBypass)
    (h : ¬(s.bit (rSec 0) 3 = true ∨ s.lifecycle = 0)) : Runs c s fun t => Emitted [.tdo s.irCapture 12, .tdo 0 1] s t ∧
      t.tap = { s.tap with ir := op, refused := true } ∧ t.regs = s.regs ∧ t.mem = s.mem := by
  rw [State.tapExtest, State.tapTake_refused h] at he
  exact .of_exec (he.elim id id) ⟨List.append_assoc .., rfl, rfl, rfl⟩

theorem runs_extest {c : Instr} {d : BitVec 4164} (he : exec c s = .next (s.tapExtest op d.toNat)) (hwf : regsWf s.regs = true)
    (h : s.bit (rSec 0) 3 = true ∨ s.lifecycle = 0) : Runs c s fun t => t.tap.ir = op ∧ t.tap.held = 1 ∧ t.tap.refused = false ∧
      t.tap.bsr = d.toNat ∧ (s.tap.held ≠ 1 → Faulted 0x0F 4 s t) ∧ (s.tap.held = 1 → t.regs = s.regs ∧ t.mem = s.mem ∧
        ∃ x : Nat, x < 2 ^ 4164 ∧ Emitted [.tdo s.irCapture 12, .tdo x 4164] s t) := by
  obtain ⟨u, hu, htap, hfault, hheld⟩ := State.tapTake_effect (op := op) hwf h
  rw [State.tapExtest, hu] at he
  refine .of_exec he ⟨congrArg TapS.ir htap, congrArg TapS.held htap, congrArg TapS.refused htap, Nat.mod_eq_of_lt d.isLt, hfault,
    fun h1 => ?_⟩
  obtain ⟨hregs, hmem, hout⟩ := hheld h1
  exact ⟨hregs, hmem, u.takeFree.1 % 2 ^ 4164, Nat.mod_lt _ (Nat.two_pow_pos 4164),
    (congrArg (· ++ [Output.tdo (u.takeFree.1 % 2 ^ 4164) 4164]) hout).trans (List.append_assoc ..)⟩

theorem runs_tapHold {c : Instr} (he : exec c s = .next (s.tapTake op).1.tapBypass) (hwf : regsWf s.regs = true)
    (h : s.bit (rSec 0) 3 = true ∨ s.lifecycle = 0) : Runs c s fun t => t.tap.ir = op ∧ t.tap.held = 1 ∧ t.tap.refused = false ∧
      t.tap.bsr = s.tap.bsr ∧ (s.tap.held ≠ 1 → Faulted 0x0F 4 s t) ∧ (s.tap.held = 1 → t.regs = s.regs ∧ t.mem = s.mem ∧
        Emitted [.tdo s.irCapture 12, .tdo 0 1] s t) := by
  obtain ⟨u, hu, htap, hfault, hheld⟩ := State.tapTake_effect (op := op) hwf h
  rw [hu] at he
  refine .of_exec he ⟨congrArg TapS.ir htap, congrArg TapS.held htap, congrArg TapS.refused htap,
    (congrArg TapS.bsr htap).trans rfl, hfault, fun h1 => ?_⟩
  obtain ⟨hregs, hmem, hout⟩ := hheld h1
  exact ⟨hregs, hmem, (congrArg (· ++ [Output.tdo 0 1]) hout).trans (List.append_assoc ..)⟩

end Balls

/-! Challenges and submissions (R617). -/

theorem State.newChal_eq {m : Master} (hm : (s.sysWriter m || m == mTap) = true) : s.newChal m =
    { ((s.freeBytes 32).2.setRegBytes (rSec 0x100) (s.freeBytes 32).1).respOk [] with sec.chal := true } := by
  rw [State.newChal, if_neg (by simp [State.pkMaster, hm])]

theorem runs_newChal (h : regsWf s.regs = true) {m : Master} (hm : (s.sysWriter m || m == mTap) = true) : Runs (.newChal m) s fun t =>
    (∃ x, t.regBytes (rSec 0x100) 32 = leBytes 32 x) ∧ (∀ a, a < rSec 0x100 ∨ rSec 0x120 ≤ a → t.word a = s.word a) ∧
      t.sec = { s.sec with chal := true } ∧ t.mem = s.mem ∧ t.resp = ⟨false, false, []⟩ := by
  have hlen : (s.freeBytes 32).1.length = 32 := leBytes_length ..
  have hstate : (s.freeBytes 32).2 = { s with free := s.free + 1 } := rfl
  have he : exec (.newChal m) s = .next (s.newChal m) := rfl
  rw [State.newChal_eq hm, hstate] at he
  generalize (s.freeBytes 32).1 = l at *
  have hbytes := State.regBytes_setRegBytes_same (s := { s with free := s.free + 1 }) h (rSec 0x100) l
  obtain ⟨r, hr⟩ := ({ s with free := s.free + 1 } : State).setRegBytes_rest (rSec 0x100) l
  have hword := (State.setRegBytes_words (s := { s with free := s.free + 1 }) h (rSec 0x100) l).word
  obtain ⟨x, hx⟩ := exists_leBytes hlen
  rw [hlen] at hbytes hword
  rw [hr] at he hbytes hword
  refine .of_exec he ⟨⟨x, hbytes.trans hx⟩, fun a ha => hword a fun hin => ?_, rfl, rfl, rfl⟩
  simp only [areaWord, rSec] at hin ha
  omega

/-- A failed submission (R617): the count of failures, the interrupt and a record of class N. -/
theorem State.dbgFail_effect (h : regsWf s.regs = true) : s.dbgFail.sec = s.sec ∧ s.dbgFail.bit (rSec 4) 2 = true ∧
    s.dbgFail.fld (rSec 0) 6 5 = min (s.fld (rSec 0) 6 5 + 1) 3 ∧ Faulted 0x24 1 s s.dbgFail := by
  have k1 := (RegsOnly.refl (l := [rSec 0, rSec 4]) h).bumpSat (a := rSec 0) 6 5 (by simp)
  have k2 := k1.orWord (a := rSec 4) 4 (by simp)
  have hlow := State.fault_low k2.wf (src := 0x24) (cls := 1) (by omega) (by omega) mTap 0 0
  refine ⟨hlow.sec, (hlow.bit_rSec 4 2).trans (State.bit_orWord_pow k1.wf _ (k := 2) (by omega)),
    (hlow.fld_rSec 0 6 5).trans ((State.fld_congr (State.word_orWord_other k1.wf _ (by simp [rSec])) 6 5).trans ?_),
    hlow.faulted_rSec (by omega) (by simp [rSec_above]) k2⟩
  exact State.fld_bumpSat_same h (by omega) (by omega)

/-- The challenge has served its submission. -/
def State.unchallenged (s : State) : State := { s with sec.chal := false }

/-- A submission whose verification begins: the engine claimed, the hash, the key and the signature in the operand area. -/
def State.submitted (s : State) (key : List Byte) (r sg : Nat) : State :=
  let s := { s with sec.holder := some mTap.toNat, sec.dbgKey := key }
  let s := s.setRegBytes (rSec 0x4000) s.chalHash
  let s := (s.setRegBytes (rSec 0x4080) key).setRegBytes (rSec 0x4140) (beBytes 48 r)
  (s.setRegBytes (rSec 0x4180) (beBytes 48 sg)).pkStart 4 false true

theorem State.pkStart_effect (h : regsWf s.regs = true) {op : Nat} {k debug : Bool} : (s.pkStart op k debug).bit (rSec 0x18) 0 = true ∧
    (∀ a, a ≠ rSec 0x18 → (s.pkStart op k debug).word a = s.word a) ∧
    (s.pkStart op k debug).sec = { s.sec with op := some ⟨op, k, s.now + 4 * s.pkCycles op, false, debug⟩ } ∧
    (s.pkStart op k debug).mem = s.mem :=
  ⟨State.bit_setBit_same (s := { s with sec.op := some ⟨op, k, s.now + 4 * s.pkCycles op, false, debug⟩ }) h true (by omega),
    fun _ ha => State.word_setWord_other (s := { s with sec.op := some ⟨op, k, s.now + 4 * s.pkCycles op, false, debug⟩ }) h _ ha, rfl, rfl⟩

section Submit

variable {m : Master} {key : BitVec 776} {r g : BitVec 384}

theorem exec_submit_off (hm : (s.sysWriter m || m == mTap) = true) (hoff : bitOf s.sec.fuses 834 = true ∨ s.fld (rSec 0) 6 5 = 3) :
    exec (.submit m key r g) s = .next s.respErr := by
  have hno : (bitOf s.sec.fuses 834 || decide (s.fld (rSec 0) 6 5 ≥ 3)) = true := by
    rcases hoff with hoff | hoff <;> simp [hoff]
  exact congrArg Host.Outcome.next ((if_neg (by simp [State.pkMaster, hm])).trans (if_pos hno))

variable (hm : (s.sysWriter m || m == mTap) = true) (hon : ¬(bitOf s.sec.fuses 834 = true ∨ s.fld (rSec 0) 6 5 = 3))
include hm hon

/-- A submission that debugging permits waits, fails, or begins. -/
theorem exec_submit_on : exec (.submit m key r g) s = .next (if s.sec.holder.isSome then s
    else if !s.sec.chal then s.dbgFail.respOk []
    else if !s.unchallenged.isBlank && decide (beNat (sha384 (beBytes 97 key.toNat)) ≠ s.unchallenged.debugKeyHash) then
      s.unchallenged.dbgFail.respOk []
    else (s.unchallenged.submitted (beBytes 97 key.toNat) r.toNat g.toNat).respOk []) := by
  have hlt : s.fld (rSec 0) 6 5 < 2 ^ (6 + 1 - 5) := bitsOf_lt _ 6 5
  have hno : ¬(bitOf s.sec.fuses 834 || decide (s.fld (rSec 0) 6 5 ≥ 3)) = true := by
    rw [Bool.or_eq_true, decide_eq_true_eq]
    rintro (hfuse | hcount)
    · exact hon (.inl hfuse)
    · exact hon (.inr (by omega))
  exact congrArg Host.Outcome.next ((if_neg (by simp [State.pkMaster, hm])).trans (if_neg hno))

theorem runs_submit_failed (h : regsWf s.regs = true) (hh : s.sec.holder = none)
    (hbad : s.sec.chal = false ∨ s.lifecycle ≠ 0 ∧ beNat (sha384 (beBytes 97 key.toNat)) ≠ s.debugKeyHash) :
    Runs (.submit m key r g) s fun t => t.sec = { s.sec with chal := false } ∧ t.bit (rSec 4) 2 = true ∧
      t.fld (rSec 0) 6 5 = s.fld (rSec 0) 6 5 + 1 ∧ Faulted 0x24 1 s t ∧ t.resp = ⟨false, false, []⟩ := by
  have hlt : s.fld (rSec 0) 6 5 < 2 ^ (6 + 1 - 5) := bitsOf_lt _ 6 5
  have hcount : min (s.fld (rSec 0) 6 5 + 1) 3 = s.fld (rSec 0) 6 5 + 1 := by omega
  have hblank : s.unchallenged.isBlank = s.isBlank := rfl
  have hhash : s.unchallenged.debugKeyHash = s.debugKeyHash := rfl
  have he : exec (.submit m key r g) s = .next (s.unchallenged.dbgFail.respOk []) := by
    rw [exec_submit_on hm hon, if_neg (by simp [hh]), hblank, hhash]
    generalize beNat (sha384 (beBytes 97 key.toNat)) = hash at *
    cases hc : s.sec.chal with
    | false =>
      have heta : s.unchallenged = s := by rw [State.unchallenged, ← hc]
      rw [Bool.not_false, if_pos rfl, heta]
    | true =>
      obtain hbad | ⟨hlife, hkey⟩ := hbad
      · rw [hc] at hbad
        exact absurd hbad (by simp)
      · rw [Bool.not_true, if_neg Bool.false_ne_true, if_pos (by simp [State.isBlank, hlife, hkey])]
  obtain ⟨hsec, hirq, hfails, hfault⟩ := State.dbgFail_effect (s := s.unchallenged) h
  exact .of_exec he ⟨hsec, hirq, hfails.trans hcount, hfault, rfl⟩

omit hm hon in
/-- The operand area and the engine of a submission whose verification begins. -/
theorem State.submitted_effect (h : regsWf s.regs = true) {k : List Byte} (hk : k.length = 97) (x y : Nat) :
    (s.submitted k x y).sec = { s.sec with holder := some 0xE000, dbgKey := k, op := some ⟨4, false, s.now + 7840000, false, true⟩ } ∧
      (s.submitted k x y).regBytes (rSec 0x4080) 97 = k ∧ (s.submitted k x y).regBytes (rSec 0x4140) 48 = beBytes 48 x ∧
      (s.submitted k x y).regBytes (rSec 0x4180) 48 = beBytes 48 y ∧ (s.submitted k x y).bit (rSec 0x18) 0 = true ∧
      (s.submitted k x y).mem = s.mem := by
  rw [State.submitted]
  dsimp only
  generalize State.chalHash _ = hash
  have wf0 := (State.setRegBytes_words (s := { s with sec.holder := some mTap.toNat, sec.dbgKey := k }) h (rSec 0x4000) hash).wf
  obtain ⟨r0, hr0⟩ := ({ s with sec.holder := some mTap.toNat, sec.dbgKey := k } : State).setRegBytes_rest (rSec 0x4000) hash
  generalize ({ s with sec.holder := some mTap.toNat, sec.dbgKey := k } : State).setRegBytes (rSec 0x4000) hash = v at *
  have w1 := v.setRegBytes_words wf0 (rSec 0x4080) k
  have b1 := State.regBytes_setRegBytes_same wf0 (rSec 0x4080) k
  obtain ⟨r1, hr1⟩ := v.setRegBytes_rest (rSec 0x4080) k
  generalize v.setRegBytes (rSec 0x4080) k = v1 at *
  have w2 := v1.setRegBytes_words w1.wf (rSec 0x4140) (beBytes 48 x)
  have b2 := State.regBytes_setRegBytes_same w1.wf (rSec 0x4140) (beBytes 48 x)
  obtain ⟨r2, hr2⟩ := v1.setRegBytes_rest (rSec 0x4140) (beBytes 48 x)
  have hx : (beBytes 48 x).length = 48 := beBytes_length ..
  generalize beBytes 48 x = lx at *
  generalize v1.setRegBytes (rSec 0x4140) lx = v2 at *
  have w3 := v2.setRegBytes_words w2.wf (rSec 0x4180) (beBytes 48 y)
  have b3 := State.regBytes_setRegBytes_same w2.wf (rSec 0x4180) (beBytes 48 y)
  obtain ⟨r3, hr3⟩ := v2.setRegBytes_rest (rSec 0x4180) (beBytes 48 y)
  have hy : (beBytes 48 y).length = 48 := beBytes_length ..
  generalize beBytes 48 y = ly at *
  generalize v2.setRegBytes (rSec 0x4180) ly = v3 at *
  rw [hk] at b1
  rw [hx] at b2
  rw [hy] at b3
  have hrest : v3 = { s with sec.holder := some mTap.toNat, sec.dbgKey := k, regs := r3 } := by
    rw [hr3, hr2, hr1, hr0]
  have h3 (a : Nat) (ha : a < rSec 0x4180) : v3.word a = v2.word a := w3.word a fun hin => by
    simp only [areaWord] at hin
    omega
  have h2 (a : Nat) (ha : a < rSec 0x4140) : v2.word a = v1.word a := w2.word a fun hin => by
    simp only [areaWord] at hin
    omega
  have wf3 := w3.wf
  have hkey : v3.regBytes (rSec 0x4080) 97 = k := (State.regBytes_congr fun i hi => by
    rw [h3 _ (by simp only [rSec]; omega), h2 _ (by simp only [rSec]; omega)]).trans b1
  have hsig : v3.regBytes (rSec 0x4140) 48 = lx := (State.regBytes_congr fun i hi => h3 _ (by simp only [rSec]; omega)).trans b2
  clear hr0 hr1 hr2 hr3 w1 w2 w3 b1 b2 h2 h3
  obtain ⟨hbusy, hpk, hop, hmem⟩ := State.pkStart_effect (op := 4) (k := false) (debug := true) wf3
  have harea {a n : Nat} (ha : rSec 0x4000 ≤ a) : (v3.pkStart 4 false true).regBytes a n = v3.regBytes a n :=
    State.regBytes_congr fun i _ => hpk _ (by simp only [rSec] at ha ⊢; omega)
  have hcycles : v3.pkCycles 4 = 1960000 := rfl
  rw [hcycles, show 4 * 1960000 = 7840000 from rfl] at hop
  refine ⟨hop.trans ?_, (harea (by simp [rSec])).trans hkey, (harea (by simp [rSec])).trans hsig, (harea (by simp [rSec])).trans b3,
    hbusy, hmem.trans ?_⟩
  · rw [hrest, show mTap.toNat = 0xE000 from rfl]
  · rw [hrest]

theorem runs_submit_begins (h : regsWf s.regs = true) (hh : s.sec.holder = none) (hc : s.sec.chal = true)
    (hok : ¬(s.lifecycle ≠ 0 ∧ beNat (sha384 (beBytes 97 key.toNat)) ≠ s.debugKeyHash)) :
    Runs (.submit m key r g) s fun t =>
      t.sec = { s.sec with chal := false, holder := some 0xE000, dbgKey := beBytes 97 key.toNat,
                           op := some ⟨4, false, s.now + 7840000, false, true⟩ } ∧
      t.regBytes (rSec 0x4080) 97 = beBytes 97 key.toNat ∧ t.regBytes (rSec 0x4140) 48 = beBytes 48 r.toNat ∧
      t.regBytes (rSec 0x4180) 48 = beBytes 48 g.toNat ∧ t.bit (rSec 0x18) 0 = true ∧ t.mem = s.mem ∧ t.resp = ⟨false, false, []⟩ := by
  have hblank : s.unchallenged.isBlank = s.isBlank := rfl
  have hhash : s.unchallenged.debugKeyHash = s.debugKeyHash := rfl
  have hklen : (beBytes 97 key.toNat).length = 97 := beBytes_length ..
  have he : exec (.submit m key r g) s = .next ((s.unchallenged.submitted (beBytes 97 key.toNat) r.toNat g.toNat).respOk []) := by
    rw [exec_submit_on hm hon, if_neg (by simp [hh]), hblank, hhash, hc, Bool.not_true, if_neg Bool.false_ne_true]
    generalize beNat (sha384 (beBytes 97 key.toNat)) = hash at *
    rw [if_neg (by simpa [State.isBlank] using fun hl => by_contra fun hk => hok ⟨hl, hk⟩)]
  obtain ⟨hsec, hkey, hr, hg, hbusy, hmem⟩ := State.submitted_effect (s := s.unchallenged) h hklen r.toNat g.toNat
  generalize s.unchallenged.submitted (beBytes 97 key.toNat) r.toNat g.toNat = u at *
  exact .of_exec he ⟨hsec, hkey, hr, hg, hbusy, hmem, rfl⟩

end Submit

/-! The debug instructions (R634). -/

theorem State.attach_tap (h : regsWf s.regs = true) {p : Nat} (hp : p < 6) : (s.attach p).tap = s.tap := by
  unfold State.attach
  split
  · rfl
  · split
    · rfl
    · unfold State.splitPair
      split
      · rfl
      · have k := (State.setPair_effect h hp (st := 5) (by omega)).only
        obtain ⟨r, hr⟩ := k.rest
        have k4 := (((RegsOnly.refl (l := [rPair p 0, rTwn 0, rTwnIrq]) k.wf).setBit (a := rPair p 0) 5 true (by simp)).setBit
          (a := rTwn 0) p true (by simp)).orWord (a := rTwnIrq) 8 (by simp)
        refine (State.fault_on ?_ (by omega) (by split <;> omega) mTap p 0).tap.trans ?_
        · exact k4.wf
        · rw [hr]
          rfl

/-- An access to a pair that is split already (R489). -/
theorem State.attach_split {p : Nat} (h5 : s.pairState p = 5) : s.attach p = s := by
  unfold State.attach State.splitPair
  simp [h5]

theorem bitsOf_dbgPair (d : BitVec 44) : bitsOf d.toNat 43 41 = d.toNat / 2 ^ 41 := by
  have := d.isLt
  rw [bitsOf, Nat.shiftRight_eq_div_pow]
  omega

theorem runs_dbgPair (h : regsWf s.regs = true) (d : BitVec 44) : Runs (.dbgPair d) s fun t => t.tap = { s.tap with ir := 0x11 } ∧
    ∃ x : Nat, x < 2 ^ 44 ∧
      (s.bit (rSec 0) 3 = false ∨ 5 < d.toNat / 2 ^ 41 → Emitted [.tdo s.irCapture 12, .tdo x 44] s t ∧ t.regs = s.regs ∧ t.mem = s.mem) ∧
      (s.bit (rSec 0) 3 = true → d.toNat / 2 ^ 41 ≤ 5 → s.pairState (d.toNat / 2 ^ 41) = 5 →
        Emitted [.tdo s.irCapture 12, .tdo x 44, .dmi (d.toNat / 2 ^ 41) (d.toNat % 2 ^ 41)] s t ∧ t.mem = s.mem) := by
  have hp := bitsOf_dbgPair d
  generalize d.toNat / 2 ^ 41 = p at *
  have hlt : s.takeFree.1 % 2 ^ 44 < 2 ^ 44 := Nat.mod_lt _ (Nat.two_pow_pos _)
  have hraw : exec (.dbgPair d) s = .next (s.dbgPair d.toNat) := rfl
  generalize hx : s.takeFree.1 % 2 ^ 44 = x at *
  generalize hu : (s.takeFree.2.tapSelect 0x11).emit (.tdo x 44) = u
  have hout : u.out = s.out ++ [.tdo s.irCapture 12, .tdo x 44] := by
    rw [← hu]
    exact List.append_assoc ..
  have htap : u.tap = { s.tap with ir := 0x11 } := by
    rw [← hu]
    rfl
  have hregs : u.regs = s.regs := by
    rw [← hu]
    rfl
  have hmem : u.mem = s.mem := by
    rw [← hu]
    rfl
  have hpair (n : Nat) : u.pairState n = s.pairState n := State.fld_congr (State.word_congr hregs _) 2 0
  have hunl : u.unlocked = s.bit (rSec 0) 3 := State.bit_congr (State.word_congr hregs _) 3
  have he : exec (.dbgPair d) s = .next (if !u.unlocked || p > 5 then u
      else if (u.attach p).pairState p = 5 then (u.attach p).emit (.dmi p (d.toNat % 2 ^ 41)) else u.attach p) := by
    rw [hraw, ← hp, ← hu, ← hx]
    rfl
  refine .of_exec he ?_
  by_cases hno : (!u.unlocked || decide (p > 5)) = true
  · rw [if_pos hno]
    refine ⟨htap, x, hlt, fun _ => ⟨hout, hregs, hmem⟩, fun hb hp5 => ?_⟩
    rw [hunl, hb] at hno
    simp only [Bool.not_true, Bool.false_or, decide_eq_true_eq] at hno
    omega
  · rw [if_neg hno]
    rw [hunl] at hno
    simp only [Bool.or_eq_true, Bool.not_eq_true', decide_eq_true_eq, not_or, Bool.not_eq_false] at hno
    obtain ⟨hb, hp5⟩ := hno
    have hattach : (u.attach p).tap = { s.tap with ir := 0x11 } := (State.attach_tap (by rw [hregs]; exact h) (by omega)).trans htap
    refine ⟨by split <;> exact hattach, x, hlt, fun hor => ?_, fun _ _ h5 => ?_⟩
    · rcases hor with hor | hor
      · rw [hb] at hor
        exact absurd hor (by simp)
      · omega
    · have h5' : u.pairState p = 5 := (hpair p).trans h5
      rw [State.attach_split h5', if_pos h5']
      exact ⟨(congrArg (· ++ [Output.dmi p (d.toNat % 2 ^ 41)]) hout).trans (List.append_assoc ..), hmem⟩

/-- The key and the signature of a submission, as DBG_AUTH shifts them in. -/
theorem bitsOf_dbgAuth (d : BitVec 1552) : bitsOf d.toNat 783 8 = d.toNat / 2 ^ 8 % 2 ^ 776 ∧
    bitsOf d.toNat 1551 784 = d.toNat / 2 ^ 784 := by
  refine ⟨by rw [bitsOf, Nat.shiftRight_eq_div_pow], ?_⟩
  rw [bitsOf, Nat.shiftRight_eq_div_pow]
  refine Nat.mod_eq_of_lt (Nat.div_lt_of_lt_mul ?_)
  rw [← Nat.pow_add]
  exact d.isLt

theorem exec_dbgAuth (d : BitVec 1552) : exec (.dbgAuth d) s = .next { (match d.toNat % 256 with
    | 1 => ((s.tapSelect 0x10).emit (.tdo s.dbgCapture 1552)).newChal mTap
    | 2 => ((s.tapSelect 0x10).emit (.tdo s.dbgCapture 1552)).submit mTap (leBytes 97 (d.toNat / 2 ^ 8 % 2 ^ 776))
      (beNat ((leBytes 96 (d.toNat / 2 ^ 784)).take 48)) (beNat ((leBytes 96 (d.toNat / 2 ^ 784)).drop 48))
    | _ => (s.tapSelect 0x10).emit (.tdo s.dbgCapture 1552)) with resp := s.resp } := by
  obtain ⟨hkey, hsig⟩ := bitsOf_dbgAuth d
  rw [← hkey, ← hsig]
  rfl

end Sys2Proof.Machine

open Sys2Proof Sys2Proof.Machine

/-- Settles O56, instruction by instruction: what is shifted out goes to the outbox in order, and a submission is judged by the fuses,
the claim of the engine, the challenge and the key in turn. -/
theorem theTestPortSelectsShiftsAndUnlocks : Obligations.TheTestPortSelectsShiftsAndUnlocks := by
  unfold Obligations.TheTestPortSelectsShiftsAndUnlocks
  have wf {s : State} (h : s.canonical = true) : regsWf s.regs = true := (State.canonical_iff.mp h).2
  refine ⟨fun s d c op hc => ?balls, fun s d op => ?others, fun s m => ?chal, fun s m key r g => ?submit, fun s d => ?auth,
    fun s d => ?pair⟩
  case balls =>
    have hexec : op ≠ 3 ∧ op ≠ 4 ∧ exec c s = .next (s.tapExtest op d.toNat) ∨
        (op = 3 ∨ op = 4) ∧ exec c s = .next (s.tapTake op).1.tapBypass := by
      simp only [List.mem_cons, List.not_mem_nil, or_false, Prod.mk.injEq] at hc
      rcases hc with ⟨rfl, rfl⟩ | ⟨rfl, rfl⟩ | ⟨rfl, rfl⟩ | ⟨rfl, rfl⟩ | ⟨rfl, rfl⟩
      · exact .inl ⟨by omega, by omega, rfl⟩
      · exact .inl ⟨by omega, by omega, rfl⟩
      · exact .inl ⟨by omega, by omega, rfl⟩
      · exact .inr ⟨by omega, rfl⟩
      · exact .inr ⟨by omega, rfl⟩
    refine ⟨fun hno => runs_tap_refused (hexec.imp (fun h => h.2.2) fun h => h.2) hno, fun hmay hcan => ?_⟩
    rcases hexec with ⟨h3, h4, he⟩ | ⟨hop, he⟩
    · obtain ⟨t, het, hir, hheld, href, hbsr, hfault, hkept⟩ := runs_extest he (wf hcan) hmay
      refine ⟨t, het, hir, hheld, href, hbsr.trans (by simp [h3, h4]), hfault, fun h1 => ?_⟩
      obtain ⟨hregs, hmem, hout⟩ := hkept h1
      exact ⟨hregs, hmem, fun h34 => by omega, fun _ _ => hout⟩
    · obtain ⟨t, het, hir, hheld, href, hbsr, hfault, hkept⟩ := runs_tapHold he (wf hcan) hmay
      refine ⟨t, het, hir, hheld, href, hbsr.trans (if_pos hop).symm, hfault, fun h1 => ?_⟩
      obtain ⟨hregs, hmem, hout⟩ := hkept h1
      exact ⟨hregs, hmem, fun _ => hout, fun h3 h4 => by omega⟩
  case others =>
    refine ⟨.of_exec rfl ⟨⟨s.takeFree.1 % 2 ^ 4164, Nat.mod_lt _ (Nat.two_pow_pos 4164), List.append_assoc ..⟩, ?_, rfl, rfl⟩,
      .of_exec rfl ⟨List.append_assoc .., rfl, rfl, rfl⟩, .of_exec rfl ⟨?_, rfl, rfl, rfl⟩, ⟨fun hn => ?_, fun h8 h10 h11 => ?_⟩, rfl⟩
    · exact congrArg (fun x => { s.tap with ir := 1, bsr := x }) (Nat.mod_eq_of_lt d.isLt)
    · have hserial : s.devSerial = s.sec.fuses / 2 ^ 868 % 2 ^ 64 := by rw [State.devSerial, fuseField, Nat.shiftRight_eq_div_pow]
      rw [← hserial]
      exact List.append_assoc ..
    · exact congrArg Host.Outcome.next (if_pos (by simpa [or_assoc] using hn))
    · exact .of_exec (congrArg Host.Outcome.next (if_neg (by simp; omega))) ⟨List.append_assoc .., rfl, rfl, rfl⟩
  case chal =>
    exact ⟨fun hm => congrArg Host.Outcome.next (if_pos (by simp [State.pkMaster, hm])), fun hcan hm => runs_newChal (wf hcan) hm⟩
  case submit =>
    refine ⟨fun hm => congrArg Host.Outcome.next (if_pos (by simp [State.pkMaster, hm])), fun hm hoff => exec_submit_off hm hoff,
      fun hm hon hh => ?_, fun hcan hm hon hh => ?_⟩
    · exact (exec_submit_on hm hon).trans (congrArg Host.Outcome.next (if_pos (Option.isSome_iff_ne_none.mpr hh)))
    · by_cases hbad : s.sec.chal = false ∨ s.lifecycle ≠ 0 ∧ beNat (sha384 (beBytes 97 key.toNat)) ≠ s.debugKeyHash
      · obtain ⟨t, he, hsec, hirq, hfails, hfault, hresp⟩ := runs_submit_failed (r := r) (g := g) hm hon (wf hcan) hh hbad
        refine ⟨t, he, by rw [hsec], fun _ => ⟨hsec, hirq, hfails, hfault⟩, fun hc hok => ?_, hresp⟩
        rcases hbad with hbad | hbad
        · rw [hc] at hbad
          exact absurd hbad (by simp)
        · exact absurd hbad hok
      · obtain ⟨hc, hok⟩ := not_or.mp hbad
        obtain ⟨t, he, hsec, hkey, hr, hg, hbusy, hmem, hresp⟩ :=
          runs_submit_begins (r := r) (g := g) hm hon (wf hcan) hh (by simpa using hc) hok
        exact ⟨t, he, by rw [hsec], fun h => absurd h hbad, fun _ _ => ⟨hsec, hkey, hr, hg, hbusy, hmem⟩, hresp⟩
  case pair => exact fun hcan => runs_dbgPair (wf hcan) d
  case auth =>
    refine ⟨fun h1 => ?_, fun h2 => ?_, fun h1 h2 => ?_⟩
    · rw [exec_dbgAuth]
      simp only [h1]
    · rw [exec_dbgAuth]
      simp only [h2]
    · have he := exec_dbgAuth (s := s) d
      split at he
      · next h => exact absurd h h1
      · next h => exact absurd h h2
      · exact .of_exec he ⟨List.append_assoc .., rfl, rfl, rfl, rfl⟩
end

section
/-! PROOF. Mailboxes: GO and DONE, and the response that a mailbox holds once its message is answered (R535 to R537). -/

namespace Sys2Proof.Machine

variable {s t u : State} {b : Nat}

theorem rMbx_ne_rHqm (b o n : Nat) : rMbx b o ≠ rHqm n ∨ 0x100000 ≤ n := by
  unfold rMbx rFwp rHqm
  have : blkBase bHQM + 0x100000 ≤ blkBase bFWP := by decide
  omega

/-- A notification changes at most the count of those dropped, among registers, and neither memory nor the firmware's state. -/
theorem State.notify_effect (h : regsWf s.regs = true) (x : HqmQ) :
    WordsIn (· = rHqm 0x24) s (s.notify x) ∧ (s.notify x).fwp = s.fwp ∧ (s.notify x).mem = s.mem ∧ (s.notify x).resp = s.resp := by
  have drop : WordsIn (· = rHqm 0x24) s s.notifyDrop := (WordsIn.refl h).bump rfl
  unfold State.notify
  dsimp only
  split
  · exact ⟨.refl h, rfl, rfl, rfl⟩
  · split
    · exact ⟨drop, rfl, rfl, rfl⟩
    · exact ⟨(WordsIn.refl h).upd rfl, rfl, rfl, rfl⟩
  · split
    · exact ⟨drop, rfl, rfl, rfl⟩
    · split
      · exact ⟨(WordsIn.refl h).upd rfl, rfl, rfl, rfl⟩
      · exact ⟨(WordsIn.refl h).upd rfl, rfl, rfl, rfl⟩
  · split
    · exact ⟨drop, rfl, rfl, rfl⟩
    · exact ⟨(WordsIn.refl h).upd rfl, rfl, rfl, rfl⟩

/-- The mailbox's registers below its response area stand apart from it. -/
theorem rMbx_below_mbxRsp {b c o : Nat} (hb : b < 64) (ho : o < 0x40) : rMbx b o < mbxRsp c := by
  unfold rMbx mbxRsp rFwp
  omega

/-- Mailbox b holds its response: DONE with the status, its message gone; GO, OVERRUN and BUSY are as before. -/
structure MbxDone (b status : Nat) (s t : State) : Prop where
  wf : regsWf t.regs = true
  done : t.bit (rMbx b 4) 1 = true
  status : t.fld (rMbx b 4) 15 8 = status % 256
  bits : ∀ k, k < 8 → k ≠ 1 → t.bit (rMbx b 4) k = s.bit (rMbx b 4) k
  fwp : t.fwp = { s.fwp with order := s.fwp.order.filter (fun k => k ≠ b), mbx := fmDel s.fwp.mbx b }
  mem : t.mem = s.mem
  resp : t.resp = s.resp

/-- DONE and the status of a mailbox are set, and the owner notified. -/
theorem State.mbxClose_effect (h : regsWf s.regs = true) (b status : Nat) :
    let t := ((s.setBit (rMbx b 4) 1 true).setFld (rMbx b 4) 15 8 (status % 256)).mbxNotify b
    regsWf t.regs = true ∧ t.bit (rMbx b 4) 1 = true ∧ t.fld (rMbx b 4) 15 8 = status % 256 ∧
      (∀ k, k < 8 → k ≠ 1 → t.bit (rMbx b 4) k = s.bit (rMbx b 4) k) ∧ t.fwp = s.fwp ∧ t.mem = s.mem ∧ t.resp = s.resp := by
  have hd := State.setBit_regsWf h (rMbx b 4) 1 true
  have hs := State.setFld_regsWf hd (rMbx b 4) 15 8 (status % 256)
  obtain ⟨k, hfwp, hmem, hresp⟩ := State.notify_effect hs
    ⟨0, 0, 0, 0, State.mbxOwner ((s.setBit (rMbx b 4) 1 true).setFld (rMbx b 4) 15 8 (status % 256)) b, 0, 0, 0, 0,
      State.word64 ((s.setBit (rMbx b 4) 1 true).setFld (rMbx b 4) 15 8 (status % 256)) (rMbx b 0x10), false⟩
  have hw := k.word (rMbx b 4) ((rMbx_ne_rHqm b 4 0x24).resolve_right (by omega))
  refine ⟨k.wf, ?_, ?_, fun n hn h1 => ?_, hfwp, hmem, hresp⟩
  · rw [State.mbxNotify, State.bit_congr hw, State.bit_setFld_apart hd _ (by omega) (by omega) (by omega),
      State.bit_setBit_same h _ (by omega)]
  · rw [State.mbxNotify, State.fld_congr hw, State.fld_setFld_same hd _ (by omega) (by omega)]
    omega
  · rw [State.mbxNotify, State.bit_congr hw, State.bit_setFld_apart hd _ (by omega) (by omega) (by omega),
      State.bit_setBit_apart h _ (by omega) h1]

theorem State.minorFor_rest (s : State) (major : Nat) : ∃ f, (s.minorFor major).2 = { s with free := f } := by
  unfold State.minorFor
  split
  · exact ⟨_, rfl⟩
  · exact ⟨_, rfl⟩

/-- The response l of mailbox b is written, DONE set and the notification sent, as the last steps of an answer. -/
def State.mbxShow (s : State) (b status : Nat) (l : List Byte) : State :=
  let s := s.setRegBytes (mbxRsp b) l
  let s := ({ s with fwp.order := s.fwp.order.filter (fun k => k ≠ b), fwp.mbx := fmDel s.fwp.mbx b } : State)
  ((s.setBit (rMbx b 4) 1 true).setFld (rMbx b 4) 15 8 (status % 256)).mbxNotify b

/-- An answer shows some response, after it has taken at most one open value. -/
theorem State.mbxAnswer_shows (s : State) (b status : Nat) (payload : List Byte) (incarn : Nat) :
    ∃ f l, s.mbxAnswer b status payload incarn = ({ s with free := f } : State).mbxShow b status l := by
  unfold State.mbxAnswer
  dsimp only
  split
  · exact ⟨s.free, _, rfl⟩
  · obtain ⟨f, hf⟩ := s.minorFor_rest (s.reqAt b 0 2)
    rw [hf]
    exact ⟨f, _, rfl⟩

theorem State.mbxShow_done (h : regsWf s.regs = true) (hb : b < 64) (status : Nat) (l : List Byte) :
    MbxDone b status s (s.mbxShow b status l) := by
  have hout : (s.setRegBytes (mbxRsp b) l).word (rMbx b 4) = s.word (rMbx b 4) :=
    State.word_setRegBytes_outside h (.inl (rMbx_below_mbxRsp hb (by omega)))
  have hwf := (s.setRegBytes_words h (mbxRsp b) l).wf
  unfold State.mbxShow
  obtain ⟨r, hr⟩ := s.setRegBytes_rest (mbxRsp b) l
  rw [hr] at hout hwf ⊢
  dsimp only
  generalize hq : s.fwp.order.filter (fun k => k ≠ b) = order
  obtain ⟨wf, done, st, bits, fwp, mem, resp⟩ :=
    State.mbxClose_effect (s := { s with regs := r, fwp.order := order, fwp.mbx := fmDel s.fwp.mbx b }) hwf b status
  exact ⟨wf, done, st, fun k hk h1 => (bits k hk h1).trans (State.bit_congr hout k), by rw [hq]; exact fwp, mem, resp⟩

theorem State.mbxAnswer_done (h : regsWf s.regs = true) (hb : b < 64) (status : Nat) (payload : List Byte) (incarn : Nat) :
    MbxDone b status s (s.mbxAnswer b status payload incarn) := by
  obtain ⟨f, l, he⟩ := s.mbxAnswer_shows b status payload incarn
  rw [he]
  obtain ⟨wf, done, st, bits, fwp, mem, resp⟩ := State.mbxShow_done (s := { s with free := f }) h hb status l
  exact ⟨wf, done, st, bits, fwp, mem, resp⟩

/-! GO and DONE (R535, R536). -/

section
variable {m : Master} {inst : Option (Fin 64)} {b : Fin 64}

theorem exec_mbxGo (hu : s.mbxUser m inst b = true) : exec (.mbxGo m inst b) s = .next ((s.mbxGo b).respOk []) := if_pos hu

theorem exec_mbxDone (hu : s.mbxUser m inst b = true) : exec (.mbxDone m inst b) s = .next ((s.mbxFree b).respOk []) := if_pos hu

theorem runs_mbxGo_busy (h : regsWf s.regs = true) (hu : s.mbxUser m inst b = true) (hgo : s.bit (rMbx b 4) 0 = true) :
    Runs (.mbxGo m inst b) s fun t => t.bit (rMbx b 4) 2 = true ∧ t.bit rFwpIrq 4 = true ∧ t.fwp = s.fwp ∧
      RegsBut [rMbx b 4, rFwpIrq] s t ∧ t.mem = s.mem := by
  have he : s.mbxGo b = (s.setBit (rMbx b 4) 2 true).orWord rFwpIrq 0x10 := if_pos hgo
  have hb := State.setBit_regsWf h (rMbx b 4) 2 true
  have hk : RegsOnly [rMbx b 4, rFwpIrq] s ((s.setBit (rMbx b 4) 2 true).orWord rFwpIrq 0x10) :=
    ((RegsOnly.refl h).setBit 2 true (by simp)).orWord _ (by simp)
  refine .of_exec (exec_mbxGo hu) ?_
  rw [he]
  refine ⟨?_, ?_, hk.fwp, hk.word, hk.mem⟩
  · exact (State.bit_orWord_other hb _ _ (rMbx_ne_rFwp (by omega))).trans (State.bit_setBit_same h _ (by omega))
  · exact State.bit_orWord_pow hb rFwpIrq (k := 4) (by omega)

/-- GO of a free mailbox that is on: GO shows, and BUSY when the handler does not run. -/
theorem State.mbxRung_effect (h : regsWf s.regs = true) (b : Nat) (busy : Bool) :
    RegsOnly [rMbx b 4] s ((s.setBit (rMbx b 4) 0 true).setBit (rMbx b 4) 3 busy) ∧
    ((s.setBit (rMbx b 4) 0 true).setBit (rMbx b 4) 3 busy).bit (rMbx b 4) 0 = true ∧
    ((s.setBit (rMbx b 4) 0 true).setBit (rMbx b 4) 3 busy).bit (rMbx b 4) 3 = busy := by
  have hb := State.setBit_regsWf h (rMbx b 4) 0 true
  refine ⟨((RegsOnly.refl h).setBit _ _ (by simp)).setBit _ _ (by simp), ?_, State.bit_setBit_same hb _ (by omega)⟩
  rw [State.bit_setBit_apart hb _ (by omega) (by omega), State.bit_setBit_same h _ (by omega)]

/-- The mailbox as it is when its message has been rung. -/
def State.mbxRung (s : State) (b : Nat) (busy : Bool) : State := (s.setBit (rMbx b 4) 0 true).setBit (rMbx b 4) 3 busy

theorem State.mbxGo_up {b : Nat} (hgo : s.bit (rMbx b 4) 0 = false) (hon : s.mbxOn b = true)
    (hup : s.procUp (mbxHandler (s.mbxId b)) = true) : s.mbxGo b = { s.mbxRung b false with
      fwp.order := s.fwp.order ++ [b]
      fwp.mbx := fmPut s.fwp.mbx b ⟨false, 0, [], .none, false, (s.mbxRung b false).procIncarn (mbxHandler (s.mbxId b))⟩ } := by
  have hoff : ¬s.bit (rMbx b 4) 0 = true := by simp [hgo]
  have hskip : ¬(!s.mbxOn b) = true := by simp [hon]
  have he := (if_neg hoff).trans ((if_neg hskip).trans (if_pos hup)) (a := s.mbxGo b)
  rw [he, hup]
  rfl

theorem State.mbxGo_down {b : Nat} (hgo : s.bit (rMbx b 4) 0 = false) (hon : s.mbxOn b = true)
    (hup : s.procUp (mbxHandler (s.mbxId b)) = false) :
    s.mbxGo b = (s.mbxRung b true).mbxAnswer b 1 [] ((s.mbxRung b true).procIncarn (mbxHandler (s.mbxId b))) := by
  have hoff : ¬s.bit (rMbx b 4) 0 = true := by simp [hgo]
  have hskip : ¬(!s.mbxOn b) = true := by simp [hon]
  have he := (if_neg hoff).trans ((if_neg hskip).trans (if_neg (by simp [hup]))) (a := s.mbxGo b)
  rw [he, hup]
  rfl

/-- Firmware processors handle messages: at most 6. -/
theorem mbxHandler_lt (id : Nat) : mbxHandler id < 6 := by
  unfold mbxHandler
  split
  · omega
  · omega

theorem RegsOnly.procIncarn {b p : Nat} (hk : RegsOnly [rMbx b 4] s t) (hp : p < 6) : t.procIncarn p = s.procIncarn p :=
  hk.fld 15 8 fun hm => rMbx_ne_rFwp (by omega) (List.mem_singleton.mp hm).symm

theorem runs_mbxGo_free (h : regsWf s.regs = true) (hu : s.mbxUser m inst b = true) (hgo : s.bit (rMbx b 4) 0 = false)
    (hon : s.mbxOn b = true) : Runs (.mbxGo m inst b) s fun t =>
      let p := mbxHandler (s.mbxId b)
      t.bit (rMbx b 4) 0 = true ∧ t.mem = s.mem ∧ t.resp = ⟨false, false, []⟩ ∧
      (s.procUp p = true → t.bit (rMbx b 4) 3 = false ∧ t.fwp.order = s.fwp.order ++ [b.val] ∧
        fmGet t.fwp.mbx b = some ⟨false, 0, [], .none, false, s.procIncarn p⟩ ∧ RegsBut [rMbx b 4] s t) ∧
      (s.procUp p = false → t.bit (rMbx b 4) 3 = true ∧ t.bit (rMbx b 4) 1 = true ∧ t.fld (rMbx b 4) 15 8 = 1) := by
  refine .of_exec (exec_mbxGo hu) ?_
  dsimp only
  cases hup : s.procUp (mbxHandler (s.mbxId b)) with
  | true =>
    obtain ⟨hk, h0, h3⟩ := State.mbxRung_effect h b false
    rw [State.mbxGo_up hgo hon hup]
    have hi : (s.mbxRung b false).procIncarn _ = _ := hk.procIncarn (mbxHandler_lt (s.mbxId b))
    rw [hi]
    exact ⟨h0, hk.mem, rfl, fun _ => ⟨h3, rfl, fmGet_fmPut_same _ _ _, hk.word⟩, fun hn => absurd hn (by simp)⟩
  | false =>
    obtain ⟨hk, h0, h3⟩ := State.mbxRung_effect h b true
    rw [State.mbxGo_down hgo hon hup]
    have hd := State.mbxAnswer_done (s := s.mbxRung b true) hk.wf b.isLt 1 [] ((s.mbxRung b true).procIncarn (mbxHandler (s.mbxId b)))
    generalize (s.mbxRung b true).mbxAnswer b 1 [] _ = u at hd
    exact ⟨(hd.bits 0 (by omega) (by omega)).trans h0, hd.mem.trans hk.mem, rfl, fun hn => absurd hn (by simp),
      fun _ => ⟨(hd.bits 3 (by omega) (by omega)).trans h3, hd.done, hd.status⟩⟩

/-- Two bits that are 0 make a field of 0. -/
theorem State.fld_two_bits {a : Nat} (h0 : u.bit a 0 = false) (h1 : u.bit a 1 = false) : u.fld a 1 0 = 0 := by
  simp only [State.bit, bitOf, Nat.shiftRight_eq_div_pow, beq_eq_false_iff_ne] at h0 h1
  simp only [State.fld, bitsOf, Nat.shiftRight_eq_div_pow]
  omega

theorem runs_mbxDone_free (h : regsWf s.regs = true) (hu : s.mbxUser m inst b = true) (hd : s.bit (rMbx b 4) 1 = true) :
    Runs (.mbxDone m inst b) s fun t => t.fld (rMbx b 4) 1 0 = 0 ∧ t.fld (rMbx b 4) 15 2 = s.fld (rMbx b 4) 15 2 ∧
      RegsBut [rMbx b 4] s t ∧ t.mem = s.mem ∧ t.fwp = s.fwp := by
  have he : s.mbxFree b = (s.setBit (rMbx b 4) 1 false).setBit (rMbx b 4) 0 false := if_pos hd
  have h1 := State.setBit_regsWf h (rMbx b 4) 1 false
  have hk : RegsOnly [rMbx b 4] s ((s.setBit (rMbx b 4) 1 false).setBit (rMbx b 4) 0 false) :=
    ((RegsOnly.refl h).setBit _ _ (by simp)).setBit _ _ (by simp)
  refine .of_exec (exec_mbxDone hu) ?_
  rw [he]
  refine ⟨?_, ?_, hk.word, hk.mem, hk.fwp⟩
  · have hb0 := State.bit_setBit_same h1 (a := rMbx b 4) (n := 0) false (by omega)
    have hb1 : ((s.setBit (rMbx b 4) 1 false).setBit (rMbx b 4) 0 false).bit (rMbx b 4) 1 = false := by
      rw [State.bit_setBit_apart h1 _ (by omega) (by omega), State.bit_setBit_same h _ (by omega)]
    generalize (s.setBit (rMbx b 4) 1 false).setBit (rMbx b 4) 0 false = u at hb0 hb1
    exact State.fld_two_bits hb0 hb1
  · exact (State.fld_setBit_apart h1 _ (by omega) (by omega)).trans (State.fld_setBit_apart h _ (by omega) (by omega))

/-! The response (R535, R536). -/

/-- A message performed that waits for nothing is answered with what it holds. -/
theorem State.mbxRespond_final {b : Nat} {x : MbxMsg} (hx : fmGet s.fwp.mbx b = some x)
    (hup : s.procUp (mbxHandler (s.mbxId b)) = true) (hin : x.incarn = s.procIncarn (mbxHandler (s.mbxId b)))
    (hp : x.performed = true) (hw : x.wait = .none) : s.mbxRespond b =
      let t := s.mbxAnswer b x.status x.payload (s.procIncarn (mbxHandler (s.mbxId b)))
      if x.reboot then t.coldReset 3 else t := by
  have hfinal : s.mbxFinal x = (s, some x) := by rw [State.mbxFinal, hw]
  unfold State.mbxRespond
  rw [hx]
  dsimp only
  rw [if_neg (by simp [hup, hin]), if_pos hp, hfinal]

/-- A message not performed is answered only when the phase has no such command and it is the next. -/
theorem State.mbxRespond_open {b : Nat} {x : MbxMsg} (hx : fmGet s.fwp.mbx b = some x)
    (hup : s.procUp (mbxHandler (s.mbxId b)) = true) (hin : x.incarn = s.procIncarn (mbxHandler (s.mbxId b)))
    (hp : x.performed = false) : s.mbxRespond b =
      if mbxKnown s.phase (s.mbxId b) || s.mbxNext (mbxHandler (s.mbxId b)) ≠ some b then s
      else if s.mbxVersionOk b (s.mbxId b) then s.mbxAnswer b 3 [] (s.procIncarn (mbxHandler (s.mbxId b)))
      else s.mbxAnswer b 2 s.mbxVersion.payload (s.procIncarn (mbxHandler (s.mbxId b))) := by
  unfold State.mbxRespond
  rw [hx]
  dsimp only
  rw [if_neg (by simp [hup, hin]), if_neg (by simp [hp])]

theorem State.coldReset_boot (s : State) (c : Nat) : (s.coldReset c).fwp.boot = 1 := rfl

/-- A COLD reset shows its cause. -/
theorem State.coldReset_cause_low (s : State) {c : Nat} (hc : c < 16) : (s.coldReset c).fld (rCkg 0xC) 3 0 = c := by
  rw [State.coldReset, State.fld, State.coldState_cause]
  simp only [bitsOf, Nat.shiftRight_eq_div_pow]
  omega

theorem runs_mbxResponse_final (h : regsWf s.regs = true) {x : MbxMsg} (hx : fmGet s.fwp.mbx b = some x)
    (hup : s.procUp (mbxHandler (s.mbxId b)) = true) (hin : x.incarn = s.procIncarn (mbxHandler (s.mbxId b)))
    (hp : x.performed = true) (hw : x.wait = .none) (hst : x.status < 256) : Runs (.mbxResponse b) s fun t =>
      (x.reboot = false → t.bit (rMbx b 4) 1 = true ∧ t.fld (rMbx b 4) 15 8 = x.status ∧ t.fwp.mbx = fmDel s.fwp.mbx b ∧
        t.fwp.order = s.fwp.order.filter (fun k => k ≠ b.val) ∧ t.mem = s.mem) ∧
      (x.reboot = true → t.fwp.boot = 1 ∧ t.fld (rCkg 0xC) 3 0 = 3) := by
  have he : exec (.mbxResponse b) s = .next (s.mbxRespond b) := rfl
  have hd := State.mbxAnswer_done h b.isLt x.status x.payload (s.procIncarn (mbxHandler (s.mbxId b)))
  rw [State.mbxRespond_final hx hup hin hp hw] at he
  refine .of_exec he ?_
  generalize s.mbxAnswer b x.status x.payload (s.procIncarn (mbxHandler (s.mbxId b))) = t at hd
  dsimp only
  cases hr : x.reboot with
  | false =>
    rw [if_neg (by simp)]
    exact ⟨fun _ => ⟨hd.done, hd.status.trans (Nat.mod_eq_of_lt hst), by rw [hd.fwp], by rw [hd.fwp], hd.mem⟩, fun hn => absurd hn (by simp)⟩
  | true =>
    rw [if_pos rfl]
    exact ⟨fun hn => absurd hn (by simp), fun _ => ⟨State.coldReset_boot t 3, State.coldReset_cause_low t (by omega)⟩⟩

theorem runs_mbxResponse_unknown (h : regsWf s.regs = true) {x : MbxMsg} (hx : fmGet s.fwp.mbx b = some x)
    (hup : s.procUp (mbxHandler (s.mbxId b)) = true) (hin : x.incarn = s.procIncarn (mbxHandler (s.mbxId b)))
    (hp : x.performed = false) (hk : mbxKnown s.phase (s.mbxId b) = false) (hn : s.mbxNext (mbxHandler (s.mbxId b)) = some b.val) :
    Runs (.mbxResponse b) s fun t => t.bit (rMbx b 4) 1 = true ∧
      t.fld (rMbx b 4) 15 8 = (if s.mbxVersionOk b (s.mbxId b) then 3 else 2) ∧ t.fwp.mbx = fmDel s.fwp.mbx b := by
  have he : exec (.mbxResponse b) s = .next (s.mbxRespond b) := rfl
  rw [State.mbxRespond_open hx hup hin hp, if_neg (by simp [hk, hn])] at he
  refine .of_exec he ?_
  split
  · have hd := State.mbxAnswer_done h b.isLt 3 [] (s.procIncarn (mbxHandler (s.mbxId b)))
    exact ⟨hd.done, hd.status, by rw [hd.fwp]⟩
  · have hd := State.mbxAnswer_done h b.isLt 2 s.mbxVersion.payload (s.procIncarn (mbxHandler (s.mbxId b)))
    exact ⟨hd.done, hd.status, by rw [hd.fwp]⟩

theorem exec_mbxResponse_known {x : MbxMsg} (hx : fmGet s.fwp.mbx b = some x)
    (hup : s.procUp (mbxHandler (s.mbxId b)) = true) (hin : x.incarn = s.procIncarn (mbxHandler (s.mbxId b)))
    (hp : x.performed = false) (hk : mbxKnown s.phase (s.mbxId b) = true) : exec (.mbxResponse b) s = .next s := by
  have he : exec (.mbxResponse b) s = .next (s.mbxRespond b) := rfl
  rw [he, State.mbxRespond_open hx hup hin hp, if_pos (by simp [hk])]

theorem exec_mbxResponse_none (hx : fmGet s.fwp.mbx b = none) : exec (.mbxResponse b) s = .next s := by
  have he : exec (.mbxResponse b) s = .next (s.mbxRespond b) := rfl
  rw [he, State.mbxRespond, hx]

/-! A command is performed only as the next of its running handler, in an accepted version, with its permission (R537, R538,
R540). -/

/-- What a command of the table answers when it is not to be performed. -/
theorem exec_mbxRun_cases {c : Instr} {b : Fin 64} {id : Nat} {perm : Option Nat} {f : State → State × MbxMsg}
    (he : exec c s = s.mbxRun b id perm f) : (¬s.mbxHead b id → exec c s = .next s) ∧
      (s.mbxHead b id → s.mbxVersionOk b id = false → exec c s = .next (s.mbxPerformed b s.mbxVersion)) ∧
      (s.mbxHead b id → s.mbxVersionOk b id = true → ¬s.mbxMay b perm → exec c s = .next (s.mbxPerformed b ansDenied)) := by
  rw [he]
  refine ⟨fun hh => if_pos ?_, fun hh hv => ?_, fun hh hv hm => ?_⟩
  · simp only [State.mbxHead, not_and_or] at hh
    simp only [Bool.or_eq_true, Bool.not_eq_true', decide_eq_true_eq, ne_eq]
    simpa [or_assoc] using hh
  · obtain ⟨hid, hup, hnext, hknown⟩ := hh
    have hgo : ¬(s.mbxId b ≠ id || !s.procUp (mbxHandler id) || s.mbxNext (mbxHandler id) ≠ some b || !mbxKnown s.phase id) = true := by
      simp [hid, hup, hnext, hknown]
    exact (if_neg hgo).trans (if_pos (by simp [hv]))
  · obtain ⟨hid, hup, hnext, hknown⟩ := hh
    have hgo : ¬(s.mbxId b ≠ id || !s.procUp (mbxHandler id) || s.mbxNext (mbxHandler id) ≠ some b || !mbxKnown s.phase id) = true := by
      simp [hid, hup, hnext, hknown]
    refine (if_neg hgo).trans ((if_neg (by simp [hv])).trans (if_pos ?_))
    rw [Bool.not_eq_true', ← Bool.not_eq_true]
    exact hm

/-! The commands of the table, each with its message ID and the permission it needs. -/

theorem exec_hello : exec (.hello b) s = s.mbxRun b 1 none fun s => s.hello b := rfl

theorem exec_getInfo : exec (.getInfo b) s = s.mbxRun b 2 none fun s => (s, s.getInfo) := rfl

theorem exec_imageWrite : exec (.imageWrite b) s = s.mbxRun b 0x10 (some 9) fun s => s.imageWrite b := rfl

theorem exec_imageCommit : exec (.imageCommit b) s = s.mbxRun b 0x11 (some 9) fun s => s.imageCommit b := rfl

theorem exec_imageConfirm : exec (.imageConfirm b) s = s.mbxRun b 0x12 (some 9) State.imageConfirm := rfl

theorem exec_fwpRestart : exec (.fwpRestart b) s = s.mbxRun b 0x20 (some 8) fun s => s.fwpRestart b := rfl

theorem exec_logRead : exec (.logRead b) s = s.mbxRun b 0x21 (some 11) fun s => (s, s.logRead b) := rfl

theorem exec_traceSet : exec (.traceSet b) s = s.mbxRun b 0x22 (some 11) fun s => s.traceSet b := rfl

theorem exec_profileSet : exec (.profileSet b) s = s.mbxRun b 0x101 (some 8) fun s => s.profileSet b := rfl

theorem exec_profileGet : exec (.profileGet b) s = s.mbxRun b 0x102 none fun s => (s, ansOk (leBytes 4 (s.word (rSys 4)))) := rfl

theorem exec_clickSet : exec (.clickSet b) s = s.mbxRun b 0x201 none fun s => s.clickSet b := rfl

theorem exec_slotSet : exec (.slotSet b) s = s.mbxRun b 0x202 none fun s => s.slotSet b := rfl

theorem exec_queueCtrl : exec (.queueCtrl b) s = s.mbxRun b 0x203 none fun s => s.queueCtrl b := rfl

theorem exec_s2Set : exec (.s2Set b) s = s.mbxRun b 0x204 (some 10) fun s => s.s2Set b := rfl

theorem exec_instanceCtrl : exec (.instanceCtrl b) s = s.mbxRun b 0x205 none fun s => s.instanceCtrl b := rfl

theorem exec_ptpStep : exec (.ptpStep b) s = s.mbxRun b 0x301 (some 8) fun s => s.ptpStepCmd b := rfl

theorem exec_linkStatus : exec (.linkStatus b) s = s.mbxRun b 0x302 none fun s => (s, ansOk ([0, 1, 2, 3].flatMap fun n => leBytes 4 (s.word (rPciPort n 4)))) := rfl

theorem exec_faultRead : exec (.faultRead b) s = s.mbxRun b 0x401 none fun s => (s, s.faultRead b) := rfl

theorem exec_modelInstall : exec (.modelInstall b) s = s.mbxRun b 0x501 none fun s => s.modelInstall b := rfl

theorem exec_modelEvict : exec (.modelEvict b) s = s.mbxRun b 0x502 none fun s => s.modelEvict b := rfl

theorem exec_modelPin : exec (.modelPin b) s = s.mbxRun b 0x503 none fun s => s.modelPin b := rfl

theorem exec_modelSwitch : exec (.modelSwitch b) s = s.mbxRun b 0x504 none fun s => s.modelSwitch b := rfl

theorem exec_modelStatus : exec (.modelStatus b) s = s.mbxRun b 0x505 none fun s => (s, s.modelStatus b) := rfl

/-- Every command of the table is a run of the mailbox. -/
theorem exec_mbxCommand {p : Instr × Nat × Option Nat}
    (hp : p ∈ ([(.hello b, 1, none), (.getInfo b, 2, none), (.imageWrite b, 0x10, some 9),
      (.imageCommit b, 0x11, some 9), (.imageConfirm b, 0x12, some 9), (.fwpRestart b, 0x20, some 8), (.logRead b, 0x21, some 11),
      (.traceSet b, 0x22, some 11), (.profileSet b, 0x101, some 8), (.profileGet b, 0x102, none), (.clickSet b, 0x201, none),
      (.slotSet b, 0x202, none), (.queueCtrl b, 0x203, none), (.s2Set b, 0x204, some 10), (.instanceCtrl b, 0x205, none),
      (.ptpStep b, 0x301, some 8), (.linkStatus b, 0x302, none), (.faultRead b, 0x401, none), (.modelInstall b, 0x501, none),
      (.modelEvict b, 0x502, none), (.modelPin b, 0x503, none), (.modelSwitch b, 0x504, none), (.modelStatus b, 0x505, none)] :
      List (Instr × Nat × Option Nat))) : ∃ f, exec p.1 s = s.mbxRun b p.2.1 p.2.2 f := by
  simp only [List.mem_cons, List.not_mem_nil, or_false] at hp
  rcases hp with rfl | rfl | rfl | rfl | rfl | rfl | rfl | rfl | rfl | rfl | rfl | rfl | rfl | rfl | rfl | rfl | rfl | rfl | rfl | rfl |
    rfl | rfl | rfl
  · exact ⟨_, exec_hello⟩
  · exact ⟨_, exec_getInfo⟩
  · exact ⟨_, exec_imageWrite⟩
  · exact ⟨_, exec_imageCommit⟩
  · exact ⟨_, exec_imageConfirm⟩
  · exact ⟨_, exec_fwpRestart⟩
  · exact ⟨_, exec_logRead⟩
  · exact ⟨_, exec_traceSet⟩
  · exact ⟨_, exec_profileSet⟩
  · exact ⟨_, exec_profileGet⟩
  · exact ⟨_, exec_clickSet⟩
  · exact ⟨_, exec_slotSet⟩
  · exact ⟨_, exec_queueCtrl⟩
  · exact ⟨_, exec_s2Set⟩
  · exact ⟨_, exec_instanceCtrl⟩
  · exact ⟨_, exec_ptpStep⟩
  · exact ⟨_, exec_linkStatus⟩
  · exact ⟨_, exec_faultRead⟩
  · exact ⟨_, exec_modelInstall⟩
  · exact ⟨_, exec_modelEvict⟩
  · exact ⟨_, exec_modelPin⟩
  · exact ⟨_, exec_modelSwitch⟩
  · exact ⟨_, exec_modelStatus⟩

/-! HELLO and GET_INFO (R540). -/

/-- A request reads the same in a state whose request area does. -/
theorem State.reqAt_congr {b o n : Nat} (h : ∀ a, mbxReq b ≤ a → t.word a = s.word a) : t.reqAt b o n = s.reqAt b o n := by
  rw [State.reqAt, State.regBytes_congr fun i _ => h _ (by omega), State.reqAt]

theorem RegsOnly.reqAt {l : List Nat} (hk : RegsOnly l s t) {b : Nat} (hl : ∀ a ∈ l, a < mbxReq b) (o n : Nat) :
    t.reqAt b o n = s.reqAt b o n :=
  State.reqAt_congr fun a ha => hk.word a fun hm => absurd (hl a hm) (by omega)

theorem State.reqAt_lt (s : State) (b o n : Nat) : s.reqAt b o n < 256 ^ n := by
  have h := leNat_lt (sliceBytes (s.regBytes (mbxReq b + o / 4 * 4) (n + 4)) (o % 4) n)
  rwa [sliceBytes_length] at h

theorem rMbx_inj {b o n : Nat} : rMbx b o = rMbx b n ↔ o = n := by
  unfold rMbx rFwp
  omega

theorem rMbx_add_four (b o : Nat) : rMbx b o + 4 = rMbx b (o + 4) := rfl

theorem rFwp_add_four (o : Nat) : rFwp o + 4 = rFwp (o + 4) := rfl

theorem rMbx_below_mbxReq {b c o : Nat} (hb : b < 64) (ho : o < 0x40) : rMbx b o < mbxReq c := by
  unfold rMbx mbxReq rFwp
  omega

theorem State.word64_lt (s : State) (a : Nat) : s.word64 a < 2 ^ 64 := by
  have h0 := s.word_lt a
  have h4 := s.word_lt (a + 4)
  rw [State.word64]
  omega

/-- What HELLO negotiates, once the firmware's minor is known. -/
def State.negotiated (s : State) (b minor : Nat) : State :=
  let s := s.setWord (rMbx b 0x20) (s.reqAt b 0 2 + 2 ^ 16 * (minor % 2 ^ 15) + 2 ^ 31)
  s.setWord64 (rMbx b 0x18) (s.reqAt b 8 8 &&& s.word64 (rFwp 0x20))

def State.helloPayload (s : State) : List Byte :=
  leBytes 2 (s.word (rFwp 0x18)) ++ leBytes 2 (s.word (rFwp 0x14)) ++ leBytes 8 (s.word64 (rFwp 0x20))

theorem State.hello_eq (s : State) (b : Nat) :
    ∃ f minor, s.hello b = (({ s with free := f } : State).negotiated b minor,
      ansOk (({ s with free := f } : State).negotiated b minor).helloPayload) := by
  obtain ⟨f, hf⟩ := s.minorFor_rest (s.reqAt b 0 2)
  refine ⟨f, (s.minorFor (s.reqAt b 0 2)).1, ?_⟩
  rw [← hf]
  unfold State.hello State.negotiated
  dsimp only
  rw [hf]
  rfl

theorem State.negotiated_effect (h : regsWf s.regs = true) (b : Fin 64) (minor : Nat) :
    RegsOnly [rMbx b 0x18, rMbx b 0x1C, rMbx b 0x20] s (s.negotiated b minor) ∧
    (s.negotiated b minor).fld (rMbx b 0x20) 15 0 = s.reqAt b 0 2 ∧ (s.negotiated b minor).bit (rMbx b 0x20) 31 = true ∧
    (s.negotiated b minor).word64 (rMbx b 0x18) = s.reqAt b 8 8 &&& s.word64 (rFwp 0x20) := by
  have hk : RegsOnly [rMbx b 0x20] s (s.setWord (rMbx b 0x20) (s.reqAt b 0 2 + 2 ^ 16 * (minor % 2 ^ 15) + 2 ^ 31)) :=
    (RegsOnly.refl h).setWord _ (by simp)
  have hb := b.isLt
  have hreq := hk.reqAt (b := b) (fun a ha => by rw [List.mem_singleton.mp ha]; exact rMbx_below_mbxReq hb (by omega)) 8 8
  have hmajor : s.reqAt b 0 2 < 65536 := s.reqAt_lt b 0 2
  have hminor : minor % 2 ^ 15 < 2 ^ 15 := Nat.mod_lt _ (by omega)
  have hw : (s.negotiated b minor).word (rMbx b 0x20) = s.reqAt b 0 2 + 2 ^ 16 * (minor % 2 ^ 15) + 2 ^ 31 := by
    refine (State.word_setWord64_other hk.wf _ (by simp [rMbx_inj]) (by simp [rMbx_add_four, rMbx_inj])).trans ?_
    rw [State.word_setWord_same h]
    omega
  refine ⟨((RegsOnly.refl h).setWord _ (by simp)).setWord64 _ (by simp) (by simp [rMbx_add_four]), ?_, ?_, ?_⟩
  · rw [State.fld, hw]
    simp only [bitsOf, Nat.shiftRight_eq_div_pow]
    omega
  · rw [State.bit, hw]
    simp only [bitOf, Nat.shiftRight_eq_div_pow, beq_iff_eq]
    omega
  · refine (State.word64_setWord64_same hk.wf _ _).trans ?_
    rw [hreq, hk.word64 (by simp [(rMbx_ne_rFwp (p := 0x20) _).symm]) (by simp [rFwp_add_four, (rMbx_ne_rFwp (p := 0x24) _).symm])]
    exact Nat.mod_eq_of_lt (Nat.and_lt_two_pow _ (State.word64_lt _ _))

theorem runs_hello (h : regsWf s.regs = true) (hr : s.mbxReady b 1 none) : Runs (.hello b) s fun t =>
    t.fld (rMbx b 0x20) 15 0 = s.reqAt b 0 2 ∧ t.bit (rMbx b 0x20) 31 = true ∧
    t.word64 (rMbx b 0x18) = s.reqAt b 8 8 &&& s.word64 (rFwp 0x20) ∧
    Answered b 0 (leBytes 2 (s.word (rFwp 0x18)) ++ leBytes 2 (s.word (rFwp 0x14)) ++ leBytes 8 (s.word64 (rFwp 0x20))) .none t ∧
    RegsBut [rMbx b 0x18, rMbx b 0x1C, rMbx b 0x20] s t ∧ t.mem = s.mem := by
  obtain ⟨y, hy⟩ := State.mbxReady_message hr
  obtain ⟨f, minor, he⟩ := s.hello_eq b
  have hx := (exec_hello (b := b) (s := s)).trans (State.mbxRun_ready _ hr)
  rw [he] at hx
  obtain ⟨hk, hmajor, hmark, hmask⟩ := State.negotiated_effect (s := { s with free := f }) h b minor
  generalize ({ s with free := f } : State).negotiated b minor = u at *
  have hlow {o : Nat} (ho : o < 0x2000) : u.word (rFwp o) = s.word (rFwp o) := hk.word _ (by simp [(rMbx_ne_rFwp ho).symm])
  have hpay : u.helloPayload = s.helloPayload := by
    simp only [State.helloPayload, State.word64, rFwp_add_four, hlow (o := 0x18) (by omega), hlow (o := 0x14) (by omega),
      hlow (o := 0x20) (by omega), hlow (o := 0x24) (by omega)]
  refine .of_exec hx ⟨?_, ?_, ?_, ?_, fun a ha => ?_, ?_⟩
  · rw [State.fld_congr (State.word_mbxPerformed _ _ _ _)]
    exact hmajor
  · rw [State.bit_congr (State.word_mbxPerformed _ _ _ _)]
    exact hmark
  · rw [State.word64_congr (State.word_mbxPerformed _ _ _)]
    exact hmask
  · rw [hpay]
    exact State.answered_mbxPerformed (by rw [hk.fwp]; exact hy) rfl
  · rw [State.word_mbxPerformed]
    exact hk.word a ha
  · rw [State.mbxPerformed_mem]
    exact hk.mem

theorem runs_getInfo (hr : s.mbxReady b 2 none) : Runs (.getInfo b) s fun t =>
    Answered b 0 (leBytes 4 (s.word (rSys 0)) ++ leBytes 1 (s.fld (rFwp 0) 5 4) ++ leBytes 1 s.phase ++ [0, 0] ++ leBytes 4 s.fwp.build ++
      leBytes 4 s.fwp.svn ++ leBytes 4 (leAt s.fwp.record 0x10 4) ++ leBytes 4 (leAt s.fwp.record 0x14 4) ++ leBytes 4 s.fwp.seq) .none t ∧
    t.regs = s.regs ∧ t.mem = s.mem := by
  obtain ⟨y, hy⟩ := State.mbxReady_message hr
  exact .of_exec (exec_getInfo.trans (State.mbxRun_ready _ hr))
    ⟨State.answered_mbxPerformed hy rfl, State.mbxPerformed_regs _ _ _, State.mbxPerformed_mem _ _ _⟩

/-! IMAGE_WRITE and IMAGE_COMMIT (R519, R522): nothing but the flash changes. -/

/-- Nothing but the contents of the flashes differs. -/
def FlashOnly (s t : State) : Prop := ∃ l, t = { s with fwp.flash := l }

theorem FlashOnly.refl (s : State) : FlashOnly s s := ⟨_, rfl⟩

theorem FlashOnly.flashPut (h : FlashOnly s t) (k o : Nat) (l : List Byte) : FlashOnly s (t.flashPut k o l) := by
  obtain ⟨_, rfl⟩ := h
  exact ⟨_, rfl⟩

theorem FlashOnly.ctlWrite (h : FlashOnly s t) (k : Nat) (l : List Byte) : FlashOnly s (t.ctlWrite k l) :=
  (h.flashPut k 0x1000 l).flashPut k 0 l

theorem FlashOnly.ctlMark (h : FlashOnly s t) (k st tries : Nat) : FlashOnly s (t.ctlMark k st tries) := by
  unfold State.ctlMark
  split
  · exact h.ctlWrite _ _
  · exact h

theorem State.mbxPerformed_flash (s : State) (b : Nat) (x : MbxMsg) : (s.mbxPerformed b x).fwp.flash = s.fwp.flash := by
  unfold State.mbxPerformed
  split
  · rfl
  · rfl

/-- A command that changes the flashes only is performed with its answer. -/
theorem FlashOnly.performed {b : Nat} {y x : MbxMsg} (k : FlashOnly s t) (hy : fmGet s.fwp.mbx b = some y) (hx : x.performed = true) :
    Answered b x.status x.payload x.wait (t.mbxPerformed b x) ∧ (t.mbxPerformed b x).fwp.flash = t.fwp.flash ∧
      (t.mbxPerformed b x).mem = s.mem := by
  refine ⟨State.answered_mbxPerformed (y := y) ?_ hx, t.mbxPerformed_flash b x, ?_⟩
  · obtain ⟨l, rfl⟩ := k
    exact hy
  · rw [State.mbxPerformed_mem]
    obtain ⟨l, rfl⟩ := k
    rfl

/-- The state of the slot that is written: marked BAD unless it is. -/
def State.slotSpoiled (s : State) (k : Nat) : State :=
  match s.slotCtl k with | some c => if ctlState c = 3 then s else s.ctlMark k 3 0 | none => s

theorem State.slotSpoiled_flash (s : State) (k : Nat) : FlashOnly s (s.slotSpoiled k) := by
  unfold State.slotSpoiled
  split
  · split
    · exact .refl s
    · exact (FlashOnly.refl s).ctlMark _ _ _
  · exact .refl s

/-- A length that IMAGE_WRITE takes. -/
theorem imageLength_ok {l : List Byte} {n : Nat} (h1 : 1 ≤ n) (h4048 : n ≤ 4048) (hlen : 8 + n ≤ l.length) :
    ¬(n = 0 || n > 4048 || l.length < 8 + n) = true := by
  simp only [Bool.or_eq_true, decide_eq_true_eq]
  omega

theorem State.imageWrite_ok {b : Nat} (h1 : 1 ≤ leAt (s.mbxPay b) 4 4) (h4048 : leAt (s.mbxPay b) 4 4 ≤ 4048)
    (hlen : 8 + leAt (s.mbxPay b) 4 4 ≤ (s.mbxPay b).length) (hend : leAt (s.mbxPay b) 0 4 + leAt (s.mbxPay b) 4 4 ≤ 0x10000000) :
    s.imageWrite b = ((s.slotSpoiled s.updateSlot).flashPut s.updateSlot (newImageOfs + leAt (s.mbxPay b) 0 4)
      (sliceBytes (s.mbxPay b) 8 (leAt (s.mbxPay b) 4 4)), ansOk []) := by
  have hfar : ¬leAt (s.mbxPay b) 0 4 + leAt (s.mbxPay b) 4 4 > 0x10000000 := by omega
  cases hc : s.slotCtl s.updateSlot with
  | none => simp only [State.imageWrite, if_neg (imageLength_ok h1 h4048 hlen), if_neg hfar, State.slotSpoiled, hc]
  | some c => simp only [State.imageWrite, if_neg (imageLength_ok h1 h4048 hlen), if_neg hfar, State.slotSpoiled, hc]

theorem State.imageWrite_far {b : Nat} (h1 : 1 ≤ leAt (s.mbxPay b) 4 4) (h4048 : leAt (s.mbxPay b) 4 4 ≤ 4048)
    (hlen : 8 + leAt (s.mbxPay b) 4 4 ≤ (s.mbxPay b).length) (hend : 0x10000000 < leAt (s.mbxPay b) 0 4 + leAt (s.mbxPay b) 4 4) :
    s.imageWrite b = (s, ansBad 0) := by
  rw [State.imageWrite, if_neg (imageLength_ok h1 h4048 hlen), if_pos hend]

theorem runs_imageWrite (hr : s.mbxReady b 0x10 (some 9)) :
    let l := s.mbxPay b
    let o := leAt l 0 4
    let n := leAt l 4 4
    let k := s.updateSlot
    (n = 0 ∨ 4048 < n ∨ l.length < 8 + n → exec (.imageWrite b) s = .next (s.mbxPerformed b (ansBad 4))) ∧
    (1 ≤ n → n ≤ 4048 → 8 + n ≤ l.length → 0x10000000 < o + n → exec (.imageWrite b) s = .next (s.mbxPerformed b (ansBad 0))) ∧
    (1 ≤ n → n ≤ 4048 → 8 + n ≤ l.length → o + n ≤ 0x10000000 → Runs (.imageWrite b) s fun t =>
      t.fwp.flash = ((s.slotSpoiled k).flashPut k (newImageOfs + o) (sliceBytes l 8 n)).fwp.flash ∧ Answered b 0 [] .none t ∧
      t.mem = s.mem) := by
  have he := exec_imageWrite.trans (State.mbxRun_ready _ hr)
  refine ⟨fun hbad => ?_, fun h1 h4048 hlen hend => ?_, fun h1 h4048 hlen hend => ?_⟩
  · have hw : s.imageWrite b = (s, ansBad 4) := by rw [State.imageWrite, if_pos (by simpa [or_assoc] using hbad)]
    rw [he, hw]
  · rw [he, State.imageWrite_far h1 h4048 hlen hend]
  · obtain ⟨y, hy⟩ := State.mbxReady_message hr
    rw [State.imageWrite_ok h1 h4048 hlen hend] at he
    have hk := (s.slotSpoiled_flash s.updateSlot).flashPut s.updateSlot (newImageOfs + leAt (s.mbxPay b) 0 4)
      (sliceBytes (s.mbxPay b) 8 (leAt (s.mbxPay b) 4 4))
    generalize (s.slotSpoiled s.updateSlot).flashPut _ _ _ = u at hk he ⊢
    obtain ⟨ha, hf, hm⟩ := hk.performed hy (x := ansOk []) rfl
    exact .of_exec he ⟨hf, ha, hm⟩

/-- The control record that IMAGE_COMMIT would write. -/
def State.newCtl (s : State) (l : List Byte) : List Byte := ctlRecord 2 (leAt l 4 1) s.newSeq newImageOfs (leAt l 0 4)

/-- The code with which a written image is judged (R522). -/
def State.newCode (s : State) (img ctl : List Byte) : Nat :=
  if s.imgCode img ctl = 0 && s.phase ≠ 4 && (State.reset.cfgCheck (imgTarget img 7)).isSome then 10 else s.imgCode img ctl

theorem State.imageCommit_eq {b : Nat} (h1 : 1 ≤ leAt (s.mbxPay b) 4 1) (h7 : leAt (s.mbxPay b) 4 1 ≤ 7)
    (hph : s.phase ≠ 4 ∨ bitOf (leAt (s.mbxPay b) 5 1) 0 = true) :
    let ctl := s.newCtl (s.mbxPay b)
    let code := s.newCode (s.slotImage s.updateSlot ctl) ctl
    s.imageCommit b = if code ≠ 0 then (s, ansRefused code)
      else (s.ctlWrite s.updateSlot ctl, { ansOk [0] with reboot := bitOf (leAt (s.mbxPay b) 5 1) 0 }) := by
  have htries : ¬(leAt (s.mbxPay b) 4 1 = 0 || leAt (s.mbxPay b) 4 1 > 7) = true := by
    simp only [Bool.or_eq_true, decide_eq_true_eq]
    omega
  have hreboot : ¬(s.phase = 4 && !bitOf (leAt (s.mbxPay b) 5 1) 0) = true := by
    simp only [Bool.and_eq_true, decide_eq_true_eq, Bool.not_eq_true']
    rintro ⟨h4, hb⟩
    rcases hph with hph | hph
    · exact hph h4
    · simp [hph] at hb
  rw [State.imageCommit, if_neg htries, if_neg hreboot]
  dsimp only [State.newCtl, State.newCode]

theorem runs_imageCommit (hr : s.mbxReady b 0x11 (some 9)) :
    let l := s.mbxPay b
    let ctl := s.newCtl l
    let code := s.newCode (s.slotImage s.updateSlot ctl) ctl
    (leAt l 4 1 = 0 ∨ 7 < leAt l 4 1 → exec (.imageCommit b) s = .next (s.mbxPerformed b (ansBad 4))) ∧
    (1 ≤ leAt l 4 1 → leAt l 4 1 ≤ 7 → s.phase ≠ 4 ∨ bitOf (leAt l 5 1) 0 = true → Runs (.imageCommit b) s fun t =>
      (code ≠ 0 → Answered b 6 (leBytes 4 code) .none t ∧ t.fwp.flash = s.fwp.flash) ∧
      (code = 0 → Answered b 0 [0] .none t ∧ t.fwp.flash = (s.ctlWrite s.updateSlot ctl).fwp.flash) ∧ t.mem = s.mem) := by
  have he := exec_imageCommit.trans (State.mbxRun_ready _ hr)
  obtain ⟨y, hy⟩ := State.mbxReady_message hr
  refine ⟨fun hbad => ?_, fun h1 h7 hph => ?_⟩
  · have hw : s.imageCommit b = (s, ansBad 4) := by rw [State.imageCommit, if_pos (by simpa using hbad)]
    rw [he, hw]
  · rw [State.imageCommit_eq h1 h7 hph] at he
    generalize s.newCode (s.slotImage s.updateSlot (s.newCtl (s.mbxPay b))) (s.newCtl (s.mbxPay b)) = code at he ⊢
    split at he
    · next hc =>
      obtain ⟨ha, hf, hm⟩ := (FlashOnly.refl s).performed hy (x := ansRefused code) rfl
      exact .of_exec he ⟨fun _ => ⟨ha, hf⟩, fun h0 => absurd h0 hc, hm⟩
    · next hc =>
      have hk := (FlashOnly.refl s).ctlWrite s.updateSlot (s.newCtl (s.mbxPay b))
      generalize s.ctlWrite s.updateSlot (s.newCtl (s.mbxPay b)) = u at hk he ⊢
      obtain ⟨ha, hf, hm⟩ := hk.performed hy (x := { ansOk [0] with reboot := bitOf (leAt (s.mbxPay b) 5 1) 0 }) rfl
      exact .of_exec he ⟨fun h0 => absurd h0 hc, fun _ => ⟨ha, hf⟩, hm⟩

/-! IMAGE_CONFIRM (R517, R606). -/

theorem secWord_not_rFwp {o : Nat} (h : o < 0x100000) : ¬secWord (rFwp o) := by
  rintro (h | h | ⟨n, hn, h⟩)
  all_goals simp only [rSec, rFwp, rSys, rPciPort, rPci, blkBase, bSEC, bFWP, bSYS, bPCI] at h; omega

/-- Raising the floor blows fuses and shows them: nothing else of the state differs. -/
theorem State.raiseFloor_effect (h : regsWf s.regs = true) : ∀ n : Nat, WordsIn secWord s (s.raiseFloor n) ∧
    ∃ f r, s.raiseFloor n = { s with sec.fuses := f, regs := r }
  | 0 => ⟨.refl h, _, _, rfl⟩
  | n + 1 => by
    obtain ⟨hw, f, r, he⟩ := State.raiseFloor_effect h n
    unfold State.raiseFloor
    split
    · have hb : (s.raiseFloor n).blow (770 + n) true =
        ({ s.raiseFloor n with sec.fuses := setBitsOf (s.raiseFloor n).sec.fuses (770 + n) (770 + n) 1 } : State).showFuses := if_pos rfl
      obtain ⟨r', hr'⟩ := State.showFuses_rest
        { s.raiseFloor n with sec.fuses := setBitsOf (s.raiseFloor n).sec.fuses (770 + n) (770 + n) 1 }
      refine ⟨?_, ?_⟩
      · rw [hb]
        exact WordsIn.showFuses (hw.upd (by rfl))
      rw [hb, hr', he]
      exact ⟨_, r', rfl⟩
    · exact ⟨.refl h, _, _, rfl⟩

/-- The running slot is marked GOOD. -/
def State.slotGood (s : State) (k : Nat) : State :=
  match s.slotCtl (k - 1) with | some c => s.ctlMark (k - 1) 1 (ctlTries c) | none => s

theorem State.slotGood_flash (s : State) (k : Nat) : FlashOnly s (s.slotGood k) := by
  unfold State.slotGood
  split
  · exact (FlashOnly.refl s).ctlMark _ _ _
  · exact .refl s

theorem State.imageConfirm_eq (hk : s.fld (rFwp 0) 5 4 ≠ 0) : s.imageConfirm =
    (((s.slotGood (s.fld (rFwp 0) 5 4)).setBit (rFwp 0) 6 false).raiseFloor (min (s.slotGood (s.fld (rFwp 0) 5 4)).fwp.svn 64),
      ansOk []) := by
  cases hc : s.slotCtl (s.fld (rFwp 0) 5 4 - 1) with
  | none => simp only [State.imageConfirm, if_neg hk, State.slotGood, hc]
  | some c => simp only [State.imageConfirm, if_neg hk, State.slotGood, hc]

theorem runs_imageConfirm (h : regsWf s.regs = true) (hr : s.mbxReady b 0x12 (some 9)) :
    (s.fld (rFwp 0) 5 4 = 0 → Runs (.imageConfirm b) s fun t =>
      (∃ code, Answered b 6 (leBytes 4 code) .none t) ∧ t.regs = s.regs ∧ t.mem = s.mem) ∧
    (s.fld (rFwp 0) 5 4 ≠ 0 → Runs (.imageConfirm b) s fun t =>
      t.bit (rFwp 0) 6 = false ∧ Answered b 0 [] .none t ∧ t.mem = s.mem) := by
  have he := exec_imageConfirm.trans (State.mbxRun_ready _ hr)
  obtain ⟨y, hy⟩ := State.mbxReady_message hr
  refine ⟨fun hk => ?_, fun hk => ?_⟩
  · have hw : s.imageConfirm = s.ansRefusedOpen := by rw [State.imageConfirm, if_pos hk]
    rw [hw] at he
    exact .of_exec he (State.refusedOpen_effect hy)
  · rw [State.imageConfirm_eq hk] at he
    obtain ⟨l, hl⟩ := s.slotGood_flash (s.fld (rFwp 0) 5 4)
    rw [hl] at he
    have hwf := State.setBit_regsWf (s := { s with fwp.flash := l }) h (rFwp 0) 6 false
    have hbit := State.bit_setBit_same (s := { s with fwp.flash := l }) h (a := rFwp 0) (n := 6) false (by omega)
    obtain ⟨hw, f, r, hf⟩ := State.raiseFloor_effect hwf (min s.fwp.svn 64)
    have hzero := hw.word _ (secWord_not_rFwp (o := 0) (by omega))
    dsimp only at he
    rw [hf] at he hzero
    refine .of_exec he ⟨?_, State.answered_mbxPerformed (y := y) hy rfl, State.mbxPerformed_mem _ _ _⟩
    rw [State.bit_congr (State.word_mbxPerformed _ _ _ _), State.bit_congr hzero]
    exact hbit

/-! FWP_RESTART (R542, R543). -/

theorem State.setWords_fwp (vs : List Nat) : ∀ (s : State) (a : Nat), (s.setWords a vs).fwp = s.fwp := by
  induction vs with
  | nil => exact fun _ _ => rfl
  | cons v r ih => exact fun s a => ih (s.setWord a v) (a + 4)

theorem State.recordFault_fwp (s : State) (ev : FaultEv) (time tf : Nat) : (s.recordFault ev time tf).1.fwp = s.fwp := by
  unfold State.recordFault
  split
  · split
    · rfl
    · rfl
  · split
    · rfl
    · unfold State.putNotice
      dsimp only
      split
      · rfl
      · rfl

theorem State.capture_fwp (s : State) (cls : Nat) (rcd : List Byte) : (s.capture cls rcd).fwp = s.fwp := by
  refine (State.setWords_fwp ..).trans ?_
  split
  · rfl
  · exact State.setWords_fwp ..

theorem State.pinsSafe_fwp (s : State) : s.pinsSafe.fwp = s.fwp := by
  unfold State.pinsSafe
  dsimp only
  split
  · rfl
  · rfl

theorem State.classState_fwp (s : State) (ev : FaultEv) : (s.classState ev).fwp = s.fwp := by
  unfold State.classState
  split
  · rfl
  · rfl
  · dsimp only
    split
    · rfl
    · rfl
  · refine (State.pinsSafe_fwp _).trans ?_
    dsimp only
    split
    · rfl
    · rfl
  · refine (State.pinsSafe_fwp _).trans ?_
    split
    · rfl
    · rfl

/-- Recording a fault leaves the firmware's state alone, in any state. -/
theorem State.faultEv_fwp (s : State) (ev : FaultEv) : (s.faultEv ev).fwp = s.fwp := by
  have hcollect (ev : FaultEv) : (s.collect ev).fwp = s.fwp := by
    unfold State.collect
    dsimp only
    refine (State.classState_fwp _ _).trans ((State.capture_fwp _ _ _).trans (State.recordFault_fwp _ _ _ _))
  unfold State.faultEv
  dsimp only
  split
  · obtain ⟨_, _, _, _, he⟩ := State.heelEngage_only (s.collect { ev with inj := ev.inj || s.awl.inj })
    rw [he]
    exact hcollect _
  · exact hcollect _

theorem State.procDie_fwp (s : State) (p cls : Nat) : (s.procDie p cls).fwp = { s.fwp with
    dead := if s.procState p = 0 ∨ s.procState p = 3 ∨ s.procState p = 4 ∨ s.fwp.dead.any (fun d => d.1 = p) = true
      then s.fwp.dead else s.fwp.dead ++ [(p, cls)] } := by
  unfold State.procDie
  split
  · next hd => rw [if_pos (by simpa [or_assoc] using hd)]
  · next hd =>
    rw [if_neg (by simpa [or_assoc] using hd)]
    exact State.faultEv_fwp _ _

theorem State.mbxPerformed_dead (s : State) (b : Nat) (x : MbxMsg) : (s.mbxPerformed b x).fwp.dead = s.fwp.dead := by
  unfold State.mbxPerformed
  split
  · rfl
  · rfl

theorem runs_fwpRestart (hr : s.mbxReady b 0x20 (some 8)) :
    let p := leAt (s.mbxPay b) 0 1
    (p = 0 ∨ 5 < p → exec (.fwpRestart b) s = .next (s.mbxPerformed b (ansBad 0))) ∧
    (1 ≤ p → p ≤ 5 → Runs (.fwpRestart b) s fun t =>
      Answered b 0 [] .none t ∧
      t.fwp.dead = (if s.procState p = 0 ∨ s.procState p = 3 ∨ s.procState p = 4 ∨ s.fwp.dead.any (fun d => d.1 = p) = true
        then s.fwp.dead else s.fwp.dead ++ [(p, 1)])) := by
  have he := exec_fwpRestart.trans (State.mbxRun_ready _ hr)
  obtain ⟨y, hy⟩ := State.mbxReady_message hr
  refine ⟨fun hbad => ?_, fun h1 h5 => ?_⟩
  · have hw : s.fwpRestart b = (s, ansBad 0) := by rw [State.fwpRestart, if_pos (by simpa using hbad)]
    rw [he, hw]
  · have hgood : ¬(leAt (s.mbxPay b) 0 1 = 0 || leAt (s.mbxPay b) 0 1 > 5) = true := by
      simp only [Bool.or_eq_true, decide_eq_true_eq]
      omega
    have hw : s.fwpRestart b = (s.procDie (leAt (s.mbxPay b) 0 1) 1, ansOk []) := by rw [State.fwpRestart, if_neg hgood]
    rw [hw] at he
    have hfwp := s.procDie_fwp (leAt (s.mbxPay b) 0 1) 1
    generalize s.procDie (leAt (s.mbxPay b) 0 1) 1 = u at hfwp he
    refine .of_exec he ⟨State.answered_mbxPerformed (y := y) (by rw [hfwp]; exact hy) rfl, ?_⟩
    rw [State.mbxPerformed_dead, hfwp]

end

end Sys2Proof.Machine

open Sys2Proof Sys2Proof.Machine

/-- Settles O45, mailbox by mailbox: GO and DONE, the response, and each command on the firmware's own state. -/
theorem mailboxesTakeAndAnswerMessages : Obligations.MailboxesTakeAndAnswerMessages := by
  unfold Obligations.MailboxesTakeAndAnswerMessages
  have wf {s : State} (hcan : s.canonical = true) := (State.canonical_iff.mp hcan).2
  refine ⟨fun s m inst b hu => ?refused, fun s m inst b hcan hu => ?taken, fun s b hx => exec_mbxResponse_none hx,
    fun s b x hcan hx hup hin => ?response, fun s b p hp => ?commands, fun s b hcan hr => runs_hello (wf hcan) hr,
    fun s b hr => runs_getInfo hr, fun s b hr => ?write, fun s b hr => runs_imageCommit hr,
    fun s b hcan hr => runs_imageConfirm (wf hcan) hr, fun s b hr => runs_fwpRestart hr⟩
  case refused =>
    have hn : ¬s.mbxUser m inst b = true := by simp [hu]
    exact ⟨if_neg hn, if_neg hn⟩
  case taken =>
    refine ⟨fun hgo => runs_mbxGo_busy (wf hcan) hu hgo, fun hgo hoff => ?_, fun hgo hon => runs_mbxGo_free (wf hcan) hu hgo hon,
      fun hd => ?_, fun hd => runs_mbxDone_free (wf hcan) hu hd⟩
    · have he : s.mbxGo b = s := (if_neg (by simp [hgo])).trans (if_pos (by simp [hoff]))
      rw [exec_mbxGo hu, he]
    · have he : s.mbxFree b = s := if_neg (by simp [hd])
      rw [exec_mbxDone hu, he]
  case response =>
    exact ⟨fun hp hw hst => runs_mbxResponse_final (wf hcan) hx hup hin hp hw hst,
      fun hp hk hn => runs_mbxResponse_unknown (wf hcan) hx hup hin hp hk hn,
      fun hp hk => exec_mbxResponse_known hx hup hin hp hk⟩
  case commands =>
    obtain ⟨f, he⟩ := exec_mbxCommand (s := s) hp
    exact exec_mbxRun_cases he
  case write =>
    have hw := runs_imageWrite hr
    unfold State.slotSpoiled at hw
    dsimp only at hw ⊢
    generalize s.slotCtl s.updateSlot = c at hw ⊢
    cases c with
    | none => exact hw
    | some c => exact hw
end

section
/-! PROOF. Commands of the power, schedule, network and fault processors (R541, R542): what each answers and what it writes. -/

namespace Sys2Proof.Machine

variable {s t u : State} {b : Fin 64}

/-- A command that answers from what the state holds changes nothing else. -/
theorem runs_mbxAnswerOnly {c : Instr} {id : Nat} {perm : Option Nat} {f : State → State × MbxMsg} {x : MbxMsg}
    (he : exec c s = s.mbxRun b id perm f) (hr : s.mbxReady b id perm) (hf : f s = (s, x)) (hx : x.performed = true) :
    Runs c s fun t => Answered b x.status x.payload x.wait t ∧ t.regs = s.regs ∧ t.mem = s.mem := by
  obtain ⟨y, hy⟩ := State.mbxReady_message hr
  have h := he.trans (State.mbxRun_ready _ hr)
  rw [hf] at h
  exact .of_exec h ⟨State.answered_mbxPerformed hy hx, State.mbxPerformed_regs _ _ _, State.mbxPerformed_mem _ _ _⟩

/-- What a command that is ready answers. -/
theorem exec_mbxReady {c : Instr} {id : Nat} {perm : Option Nat} {f : State → State × MbxMsg} {x : MbxMsg}
    (he : exec c s = s.mbxRun b id perm f) (hr : s.mbxReady b id perm) (hf : f s = (t, x)) : exec c s = .next (t.mbxPerformed b x) := by
  rw [he, State.mbxRun_ready _ hr, hf]

/-- A command that writes registers only is performed with its answer. -/
theorem RegsOnly.performed {l : List Nat} {y x : MbxMsg} {b : Nat} (k : RegsOnly l s t) (hy : fmGet s.fwp.mbx b = some y)
    (hx : x.performed = true) : Answered b x.status x.payload x.wait (t.mbxPerformed b x) ∧ RegsBut l s (t.mbxPerformed b x) ∧
      (t.mbxPerformed b x).mem = s.mem :=
  ⟨State.answered_mbxPerformed (y := y) (by rw [k.fwp]; exact hy) hx,
    fun a ha => (State.word_mbxPerformed _ _ _ _).trans (k.word a ha), (State.mbxPerformed_mem _ _ _).trans k.mem⟩

/-! LOG_READ and TRACE_SET (R545, R547). -/

theorem runs_logRead (hr : s.mbxReady b 0x21 (some 11)) :
    let l := s.mbxPay b
    let p := leAt l 0 1
    let n := leAt l 8 2
    let t0 := s.word (rProc p 0x18)
    let k := min n ((s.word (rProc p 0x14) + 2 ^ 32 - t0) % 2 ^ 32 - (leAt l 4 4 + 2 ^ 32 - t0) % 2 ^ 32)
    (5 < p → exec (.logRead b) s = .next (s.mbxPerformed b (ansBad 0))) ∧
    (p ≤ 5 → n = 0 ∨ 126 < n → exec (.logRead b) s = .next (s.mbxPerformed b (ansBad 8))) ∧
    (p ≤ 5 → 1 ≤ n → n ≤ 126 → Runs (.logRead b) s fun t =>
      Answered b 0 (leBytes 2 k ++ [0, 0] ++ ((List.range k).flatMap fun i => sliceBytes (s.logGet p ((leAt l 4 4 + i) % 2 ^ 32)) 0 32)) .none t ∧
      t.regs = s.regs ∧ t.mem = s.mem) := by
  have hans {x : MbxMsg} (hx : s.logRead b = x) : (fun s : State => (s, s.logRead b)) s = (s, x) := by rw [← hx]
  refine ⟨fun hp => ?_, fun hp hn => ?_, fun hp h1 h126 => ?_⟩
  · exact exec_mbxReady exec_logRead hr (hans (by rw [State.logRead, if_pos hp]))
  · exact exec_mbxReady exec_logRead hr (hans (by rw [State.logRead, if_neg (by omega), if_pos (by simpa using hn)]))
  · have hn : ¬(leAt (s.mbxPay b) 8 2 = 0 || leAt (s.mbxPay b) 8 2 > 126) = true := by
      simp only [Bool.or_eq_true, decide_eq_true_eq]
      omega
    have hx := hans (x := s.logRead b) rfl
    rw [State.logRead, if_neg (by omega), if_neg hn] at hx
    exact runs_mbxAnswerOnly exec_logRead hr hx rfl

theorem runs_traceSet (h : regsWf s.regs = true) (hr : s.mbxReady b 0x22 (some 11)) :
    let l := s.mbxPay b
    let p := leAt l 0 1
    let o := leAt l 2 2
    let n := leAt l 4 2
    let a := rFwp (0x1000 + p * 0x80)
    (5 < p → exec (.traceSet b) s = .next (s.mbxPerformed b (ansBad 0))) ∧
    (p ≤ 5 → 1023 < o → exec (.traceSet b) s = .next (s.mbxPerformed b (ansBad 2))) ∧
    (p ≤ 5 → o ≤ 1023 → n = 0 ∨ 1024 < o + n → exec (.traceSet b) s = .next (s.mbxPerformed b (ansBad 4))) ∧
    (p ≤ 5 → o ≤ 1023 → 1 ≤ n → o + n ≤ 1024 → Runs (.traceSet b) s fun t =>
      t.regBytes a 128 = leBytes 128 (setBitsOf (leNat (s.regBytes a 128)) (o + n - 1) o (leNat (l.drop 8))) ∧
      (∀ x, x < a ∨ a + 128 ≤ x → t.word x = s.word x) ∧ Answered b 0 [] .none t ∧ t.mem = s.mem) := by
  refine ⟨fun hp => ?_, fun hp ho => ?_, fun hp ho hn => ?_, fun hp ho h1 hend => ?_⟩
  · exact exec_mbxReady exec_traceSet hr (by rw [State.traceSet, if_pos hp])
  · exact exec_mbxReady exec_traceSet hr (by rw [State.traceSet, if_neg (by omega), if_pos ho])
  · exact exec_mbxReady exec_traceSet hr (by rw [State.traceSet, if_neg (by omega), if_neg (by omega), if_pos (by simpa using hn)])
  · have hn : ¬(leAt (s.mbxPay b) 4 2 = 0 || leAt (s.mbxPay b) 2 2 + leAt (s.mbxPay b) 4 2 > 1024) = true := by
      simp only [Bool.or_eq_true, decide_eq_true_eq]
      omega
    have he := exec_mbxReady exec_traceSet hr (t := s.setRegBytes (rFwp (0x1000 + leAt (s.mbxPay b) 0 1 * 0x80))
      (leBytes 128 (setBitsOf (leNat (s.regBytes (rFwp (0x1000 + leAt (s.mbxPay b) 0 1 * 0x80)) 128))
        (leAt (s.mbxPay b) 2 2 + leAt (s.mbxPay b) 4 2 - 1) (leAt (s.mbxPay b) 2 2) (leNat ((s.mbxPay b).drop 8))))) (x := ansOk [])
      (by rw [State.traceSet, if_neg (by omega), if_neg (by omega), if_neg hn])
    obtain ⟨y, hy⟩ := State.mbxReady_message hr
    generalize hlen : leBytes 128 _ = bytes at he ⊢
    have hl : bytes.length = 128 := by rw [← hlen, leBytes_length]
    generalize rFwp (0x1000 + leAt (s.mbxPay b) 0 1 * 0x80) = a at he ⊢
    have hsame := State.regBytes_setRegBytes_same h a bytes
    have hout {x : Nat} (hx : x < a ∨ a + 128 ≤ x) : (s.setRegBytes a bytes).word x = s.word x :=
      State.word_setRegBytes_outside h (by rw [hl]; exact hx)
    obtain ⟨r, hreg⟩ := s.setRegBytes_rest a bytes
    rw [hl] at hsame
    rw [hreg] at he hsame hout
    refine .of_exec he ⟨?_, fun x hx => (State.word_mbxPerformed _ _ _ _).trans (hout hx), State.answered_mbxPerformed (y := y) hy rfl,
      State.mbxPerformed_mem _ _ _⟩
    rw [← hsame]
    exact State.regBytes_congr fun i _ => State.word_mbxPerformed _ _ _ _

/-! PROFILE_SET and PROFILE_GET (R591). -/

theorem runs_profileSet (hr : s.mbxReady b 0x101 (some 8)) :
    let q := leAt (s.mbxPay b) 0 1
    let code := if q = s.profile ∧ s.pwr.prof.isNone = true then 0 else s.profRefusal q
    (3 < q → exec (.profileSet b) s = .next (s.mbxPerformed b (ansBad 0))) ∧
    (q ≤ 3 → Runs (.profileSet b) s fun t =>
      (code ≠ 0 → t = (s.profReq q).mbxPerformed b (ansRefused code)) ∧
      (code = 0 → t = (s.profReq q).mbxPerformed b { ansOk (leBytes 1 q) with wait := .profile })) := by
  intro q code
  have hcode : (if (decide (q = s.profile) && s.pwr.prof.isNone) = true then 0 else s.profRefusal q) = code := by
    simp only [Bool.and_eq_true, decide_eq_true_eq, code]
  refine ⟨fun hq => exec_mbxReady exec_profileSet hr (by rw [State.profileSet, if_pos hq]), fun hq => ?_⟩
  have hx : s.profileSet b = if code ≠ 0 then (s.profReq q, ansRefused code)
      else (s.profReq q, { ansOk (leBytes 1 q) with wait := .profile }) := by
    rw [State.profileSet, if_neg (by omega)]
    dsimp only
    rw [hcode]
  by_cases hc : code = 0
  · rw [if_neg (by simp [hc])] at hx
    exact .of_exec (exec_mbxReady exec_profileSet hr hx) ⟨fun hn => absurd hc hn, fun _ => rfl⟩
  · rw [if_pos hc] at hx
    exact .of_exec (exec_mbxReady exec_profileSet hr hx) ⟨fun _ => rfl, fun hn => absurd hn hc⟩

/-! CLICK_SET and SLOT_SET (R285, R288). -/

theorem runs_clickSet (hr : s.mbxReady b 0x201 none) :
    let l := s.mbxPay b
    let k := leAt l 0 1
    (63 < k ∨ s.clickClass k ≠ 2 → exec (.clickSet b) s = .next (s.mbxPerformed b (ansBad 0))) ∧
    (k ≤ 63 → s.clickClass k = 2 → 15 < leAt l 1 1 → exec (.clickSet b) s = .next (s.mbxPerformed b (ansBad 1))) ∧
    (k ≤ 63 → s.clickClass k = 2 → leAt l 1 1 ≤ 15 → 256 < leAt l 2 2 → exec (.clickSet b) s = .next (s.mbxPerformed b (ansBad 2))) ∧
    (k ≤ 63 → s.clickClass k = 2 → leAt l 1 1 ≤ 15 → leAt l 2 2 ≤ 256 →
      (s.mbxOwns b (s.clickInst k) = false → exec (.clickSet b) s = .next (s.mbxPerformed b ansDenied)) ∧
      (s.mbxOwns b (s.clickInst k) = true → exec (.clickSet b) s =
        .next ((s.clickCfg k (setBitsOf (setBitsOf (s.word (rClick k 0)) 31 28 (leAt l 1 1)) 24 16 (leAt l 2 2))).mbxPerformed b (ansOk [])))) := by
  intro l k
  have hgood (hk : k ≤ 63) (hc : s.clickClass k = 2) : ¬(k > 63 || s.clickClass k ≠ 2) = true := by
    simp only [Bool.or_eq_true, decide_eq_true_eq]
    omega
  refine ⟨fun hbad => ?_, fun hk hc hp => ?_, fun hk hc hp hw => ?_, fun hk hc hp hw => ⟨fun ho => ?_, fun ho => ?_⟩⟩
  · exact exec_mbxReady exec_clickSet hr (by rw [State.clickSet, if_pos (by simpa using hbad)])
  · exact exec_mbxReady exec_clickSet hr (by rw [State.clickSet, if_neg (hgood hk hc), if_pos hp])
  · exact exec_mbxReady exec_clickSet hr (by rw [State.clickSet, if_neg (hgood hk hc), if_neg (Nat.not_lt.mpr hp), if_pos hw])
  · exact exec_mbxReady exec_clickSet hr (by
      rw [State.clickSet, if_neg (hgood hk hc), if_neg (Nat.not_lt.mpr hp), if_neg (Nat.not_lt.mpr hw), if_pos (by simp [k, l, ho])])
  · exact exec_mbxReady exec_clickSet hr (by
      rw [State.clickSet, if_neg (hgood hk hc), if_neg (Nat.not_lt.mpr hp), if_neg (Nat.not_lt.mpr hw), if_neg (by simp [k, l, ho])])

/-- The fields of SLOT_SET are in range. -/
def slotFieldsOk (l : List Byte) : Prop :=
  leAt l 0 2 ≤ 4095 ∧ 1 ≤ leAt l 2 1 ∧ leAt l 2 1 ≤ 4 ∧ leAt l 3 1 ≤ 1 ∧ leAt l 4 4 ≤ 0x7FFFF ∧ leAt l 8 8 % 64 = 0 ∧
    leAt l 8 8 < 2 ^ 52 ∧ leAt l 16 8 % 64 = 0 ∧ leAt l 16 8 < 2 ^ 52 ∧ leAt l 24 1 ≤ leAt l 25 1 ∧ leAt l 32 1 ≤ 1

/-- The mailbox may set release slot n. -/
def State.slotMine (s : State) (b n : Nat) : Bool := match s.slotOwner n with | some (i, _) => s.mbxOwns b i | none => s.mbxPerm b 10

/-- The words of a release slot that SLOT_SET writes. -/
def State.slotWritten (s : State) (n : Nat) (l : List Byte) : State :=
  let s := s.setFld (rRelSlot n 0) 17 15 (leAt l 2 1 - 1 + leAt l 3 1 * 4)
  let s := (s.setWord (rRelSlot n 4) (leAt l 4 4)).setWord64 (rRelSlot n 8) (leAt l 8 8)
  let s := (s.setWord64 (rRelSlot n 0x10) (leAt l 16 8)).setFld (rRelSlot n 0x30) 15 0 (leAt l 24 2)
  (s.setWord (rRelSlot n 0x34) (leAt l 28 4)).setFld (rRelSlot n 0) 0 0 (leAt l 32 1)

theorem ite_not_eq {α : Type} (c : Bool) (x y : α) : (if (!c) = true then x else y) = if c = true then y else x := by
  cases c with
  | false => rfl
  | true => rfl

theorem State.slotSet_bad {b : Nat} (hbad : ¬slotFieldsOk (s.mbxPay b)) : ∃ o, s.slotSet b = (s, ansBad o) := by
  unfold State.slotSet
  dsimp only
  refine if hslot : _ then ⟨_, if_pos hslot⟩ else ?_
  rw [if_neg hslot]
  refine if hdepth : _ then ⟨_, if_pos hdepth⟩ else ?_
  rw [if_neg hdepth]
  refine if hpolicy : _ then ⟨_, if_pos hpolicy⟩ else ?_
  rw [if_neg hpolicy]
  refine if hparam : _ then ⟨_, if_pos hparam⟩ else ?_
  rw [if_neg hparam]
  refine if hjob : _ then ⟨_, if_pos hjob⟩ else ?_
  rw [if_neg hjob]
  refine if hqueue : _ then ⟨_, if_pos hqueue⟩ else ?_
  rw [if_neg hqueue]
  refine if hstages : _ then ⟨_, if_pos hstages⟩ else ?_
  rw [if_neg hstages]
  refine if henable : _ then ⟨_, if_pos henable⟩ else ?_
  rw [if_neg henable]
  simp only [Bool.or_eq_true, decide_eq_true_eq, not_or] at hdepth hjob hqueue
  refine absurd ?_ hbad
  unfold slotFieldsOk
  omega

theorem State.slotSet_ok {b : Nat} (hok : slotFieldsOk (s.mbxPay b)) : s.slotSet b =
    if s.slotMine b (leAt (s.mbxPay b) 0 2) then (s.slotWritten (leAt (s.mbxPay b) 0 2) (s.mbxPay b), ansOk []) else (s, ansDenied) := by
  obtain ⟨hn, hd1, hd4, hm, hp, ha, hab, hc, hcb, hs, he⟩ := hok
  have hdepth : ¬(leAt (s.mbxPay b) 2 1 = 0 || leAt (s.mbxPay b) 2 1 > 4) = true := by
    simp only [Bool.or_eq_true, decide_eq_true_eq]
    omega
  have hjob : ¬(leAt (s.mbxPay b) 8 8 % 64 ≠ 0 || leAt (s.mbxPay b) 8 8 ≥ 2 ^ 52) = true := by
    simp only [Bool.or_eq_true, decide_eq_true_eq]
    omega
  have hqueue : ¬(leAt (s.mbxPay b) 16 8 % 64 ≠ 0 || leAt (s.mbxPay b) 16 8 ≥ 2 ^ 52) = true := by
    simp only [Bool.or_eq_true, decide_eq_true_eq]
    omega
  rw [State.slotSet, if_neg (by omega), if_neg hdepth, if_neg (by omega), if_neg (by omega), if_neg hjob, if_neg hqueue,
    if_neg (by omega), if_neg (by omega)]
  unfold State.slotMine State.slotWritten
  dsimp only
  generalize s.slotOwner (leAt (s.mbxPay b) 0 2) = owner
  obtain _ | ⟨i, _⟩ := owner
  · exact ite_not_eq (s.mbxPerm b 10) _ _
  · exact ite_not_eq (s.mbxOwns b i) _ _

theorem rRelSlot_add_four (n o : Nat) : rRelSlot n o + 4 = rRelSlot n (o + 4) := rfl

theorem State.slotWritten_effect (h : regsWf s.regs = true) {n : Nat} {l : List Byte} (hok : slotFieldsOk l) :
    let t := s.slotWritten n l
    t.fld (rRelSlot n 0) 17 15 = leAt l 2 1 - 1 + 4 * leAt l 3 1 ∧ t.bit (rRelSlot n 0) 0 = decide (leAt l 32 1 = 1) ∧
    t.word (rRelSlot n 4) = leAt l 4 4 ∧ t.word64 (rRelSlot n 8) = leAt l 8 8 ∧ t.word64 (rRelSlot n 0x10) = leAt l 16 8 ∧
    t.fld (rRelSlot n 0x30) 15 0 = leAt l 24 2 ∧ t.word (rRelSlot n 0x34) = leAt l 28 4 ∧
    RegsOnly [rRelSlot n 0, rRelSlot n 4, rRelSlot n 8, rRelSlot n 0xC, rRelSlot n 0x10, rRelSlot n 0x14, rRelSlot n 0x30,
        rRelSlot n 0x34] s t := by
  obtain ⟨hn, hd1, hd4, hm, hp, ha, hab, hc, hcb, hs, he⟩ := hok
  have h24 := leAt_lt l 24 2
  have h28 := leAt_lt l 28 4
  unfold State.slotWritten
  dsimp only
  generalize hs1 : s.setFld (rRelSlot n 0) 17 15 (leAt l 2 1 - 1 + leAt l 3 1 * 4) = s1
  have k1 : RegsOnly [rRelSlot n 0] s s1 := hs1 ▸ (RegsOnly.refl h).setFld _ _ _ (by simp)
  have v1 : s1.fld (rRelSlot n 0) 17 15 = leAt l 2 1 - 1 + 4 * leAt l 3 1 := by
    rw [← hs1, State.fld_setFld_same h _ (by omega) (by omega)]
    omega
  generalize hs2 : s1.setWord (rRelSlot n 4) (leAt l 4 4) = s2
  have k2 : RegsOnly [rRelSlot n 4] s1 s2 := hs2 ▸ (RegsOnly.refl k1.wf).setWord _ (by simp)
  have v2 : s2.word (rRelSlot n 4) = leAt l 4 4 := by
    rw [← hs2, State.word_setWord_same k1.wf]
    omega
  generalize hs3 : s2.setWord64 (rRelSlot n 8) (leAt l 8 8) = s3
  have k3 : RegsOnly [rRelSlot n 8, rRelSlot n 0xC] s2 s3 := hs3 ▸ (RegsOnly.refl k2.wf).setWord64 _ (by simp) (by simp [rRelSlot_add_four])
  have v3 : s3.word64 (rRelSlot n 8) = leAt l 8 8 := by
    rw [← hs3, State.word64_setWord64_same k2.wf]
    omega
  generalize hs4 : s3.setWord64 (rRelSlot n 0x10) (leAt l 16 8) = s4
  have k4 : RegsOnly [rRelSlot n 0x10, rRelSlot n 0x14] s3 s4 :=
    hs4 ▸ (RegsOnly.refl k3.wf).setWord64 _ (by simp) (by simp [rRelSlot_add_four])
  have v4 : s4.word64 (rRelSlot n 0x10) = leAt l 16 8 := by
    rw [← hs4, State.word64_setWord64_same k3.wf]
    omega
  generalize hs5 : s4.setFld (rRelSlot n 0x30) 15 0 (leAt l 24 2) = s5
  have k5 : RegsOnly [rRelSlot n 0x30] s4 s5 := hs5 ▸ (RegsOnly.refl k4.wf).setFld _ _ _ (by simp)
  have v5 : s5.fld (rRelSlot n 0x30) 15 0 = leAt l 24 2 := by
    rw [← hs5, State.fld_setFld_same k4.wf _ (by omega) (by omega)]
    omega
  generalize hs6 : s5.setWord (rRelSlot n 0x34) (leAt l 28 4) = s6
  have k6 : RegsOnly [rRelSlot n 0x34] s5 s6 := hs6 ▸ (RegsOnly.refl k5.wf).setWord _ (by simp)
  have v6 : s6.word (rRelSlot n 0x34) = leAt l 28 4 := by
    rw [← hs6, State.word_setWord_same k5.wf]
    omega
  have k7 : RegsOnly [rRelSlot n 0] s6 (s6.setFld (rRelSlot n 0) 0 0 (leAt l 32 1)) := (RegsOnly.refl k6.wf).setFld _ _ _ (by simp)
  have hbit : (s6.setFld (rRelSlot n 0) 0 0 (leAt l 32 1)).bit (rRelSlot n 0) 0 = decide (leAt l 32 1 = 1) := by
    have hf := State.fld_setFld_same k6.wf (a := rRelSlot n 0) (hi := 0) (lo := 0) (leAt l 32 1) (by omega) (by omega)
    rw [State.fld] at hf
    rw [State.bit, bitOf_eq_bitsOf, hf, Nat.mod_eq_of_lt (by omega)]
    exact Bool.beq_eq_decide_eq _ _
  have hlow : (s6.setFld (rRelSlot n 0) 0 0 (leAt l 32 1)).fld (rRelSlot n 0) 17 15 = s6.fld (rRelSlot n 0) 17 15 :=
    State.fld_setFld_apart k6.wf _ (by omega) (by omega) (by omega)
  generalize s6.setFld (rRelSlot n 0) 0 0 (leAt l 32 1) = t at k7 hbit hlow ⊢
  -- what is written later stands apart from what was written before
  have f2 : RegsOnly [rRelSlot n 0, rRelSlot n 8, rRelSlot n 0xC, rRelSlot n 0x10, rRelSlot n 0x14, rRelSlot n 0x30, rRelSlot n 0x34] s2 t :=
    k7.after (k6.after (k5.after (k4.after (k3.after (.refl k2.wf) (by simp)) (by simp)) (by simp)) (by simp)) (by simp)
  have f3 : RegsOnly [rRelSlot n 0, rRelSlot n 0x10, rRelSlot n 0x14, rRelSlot n 0x30, rRelSlot n 0x34] s3 t :=
    k7.after (k6.after (k5.after (k4.after (.refl k3.wf) (by simp)) (by simp)) (by simp)) (by simp)
  have f4 : RegsOnly [rRelSlot n 0, rRelSlot n 0x30, rRelSlot n 0x34] s4 t :=
    k7.after (k6.after (k5.after (.refl k4.wf) (by simp)) (by simp)) (by simp)
  have f5 : RegsOnly [rRelSlot n 0, rRelSlot n 0x34] s5 t := k7.after (k6.after (.refl k5.wf) (by simp)) (by simp)
  have f1 : RegsOnly [rRelSlot n 4, rRelSlot n 8, rRelSlot n 0xC, rRelSlot n 0x10, rRelSlot n 0x14, rRelSlot n 0x30, rRelSlot n 0x34] s1 s6 :=
    k6.after (k5.after (k4.after (k3.after (k2.after (.refl k1.wf) (by simp)) (by simp)) (by simp)) (by simp)) (by simp)
  refine ⟨hlow.trans ((f1.fld _ _ (by simp [rRelSlot_inj])).trans v1), hbit, (f2.word _ (by simp [rRelSlot_inj])).trans v2,
    (f3.word64 (by simp [rRelSlot_inj]) (by simp [rRelSlot_add_four, rRelSlot_inj])).trans v3,
    (f4.word64 (by simp [rRelSlot_inj]) (by simp [rRelSlot_add_four, rRelSlot_inj])).trans v4,
    (f5.fld _ _ (by simp [rRelSlot_inj])).trans v5, (k7.word _ (by simp [rRelSlot_inj])).trans v6,
    f2.after (k2.after (k1.after (.refl h) (by simp)) (by simp)) (by simp)⟩

theorem runs_slotSet (h : regsWf s.regs = true) (hr : s.mbxReady b 0x202 none) :
    let l := s.mbxPay b
    let n := leAt l 0 2
    (¬slotFieldsOk l → Runs (.slotSet b) s fun t => (∃ o, Answered b 4 (leBytes 4 (0x20 + o)) .none t) ∧ t.regs = s.regs ∧ t.mem = s.mem) ∧
    (slotFieldsOk l → s.slotMine b n = false → exec (.slotSet b) s = .next (s.mbxPerformed b ansDenied)) ∧
    (slotFieldsOk l → s.slotMine b n = true → Runs (.slotSet b) s fun t =>
      t.fld (rRelSlot n 0) 17 15 = leAt l 2 1 - 1 + 4 * leAt l 3 1 ∧ t.bit (rRelSlot n 0) 0 = decide (leAt l 32 1 = 1) ∧
      t.word (rRelSlot n 4) = leAt l 4 4 ∧ t.word64 (rRelSlot n 8) = leAt l 8 8 ∧ t.word64 (rRelSlot n 0x10) = leAt l 16 8 ∧
      t.fld (rRelSlot n 0x30) 15 0 = leAt l 24 2 ∧ t.word (rRelSlot n 0x34) = leAt l 28 4 ∧
      RegsBut [rRelSlot n 0, rRelSlot n 4, rRelSlot n 8, rRelSlot n 0xC, rRelSlot n 0x10, rRelSlot n 0x14, rRelSlot n 0x30,
        rRelSlot n 0x34] s t ∧ Answered b 0 [] .none t ∧ t.mem = s.mem) := by
  intro l n
  refine ⟨fun hbad => ?_, fun hok hmine => ?_, fun hok hmine => ?_⟩
  · obtain ⟨o, ho⟩ := State.slotSet_bad hbad
    obtain ⟨t, he, ha, hregs, hmem⟩ := runs_mbxAnswerOnly exec_slotSet hr ho rfl
    exact .of_exec he ⟨⟨o, ha⟩, hregs, hmem⟩
  · exact exec_mbxReady exec_slotSet hr (by rw [State.slotSet_ok hok, if_neg (by simp [l, n] at hmine; simp [hmine])])
  · have he := exec_mbxReady exec_slotSet hr (t := s.slotWritten n l) (x := ansOk []) (by rw [State.slotSet_ok hok, if_pos hmine])
    obtain ⟨y, hy⟩ := State.mbxReady_message hr
    obtain ⟨hfld, hbit, h4, h8, h10, h30, h34, hk⟩ := State.slotWritten_effect h (n := n) hok
    obtain ⟨ha, hbut, hmem⟩ := hk.performed hy (x := ansOk []) rfl
    generalize s.slotWritten n l = u at *
    have hw := u.word_mbxPerformed b (ansOk [])
    exact .of_exec he ⟨(State.fld_congr (hw _) _ _).trans hfld, (State.bit_congr (hw _) _).trans hbit, (hw _).trans h4,
      (State.word64_congr hw _).trans h8, (State.word64_congr hw _).trans h10, (State.fld_congr (hw _) _ _).trans h30, (hw _).trans h34,
      hbut, ha, hmem⟩

/-! QUEUE_CTRL (R460): what the writes of the table leave of the firmware's state. -/

theorem State.faultAt_fwp (s : State) (src cls : Nat) (m : Master) (u i acc a : Nat) : (s.faultAt src cls m u i acc a).fwp = s.fwp :=
  State.faultEv_fwp _ _

theorem State.poisonGran_fwp (s : State) (a : Nat) (m : Master) : (s.poisonGran a m).fwp = s.fwp := by
  unfold State.poisonGran
  dsimp only
  split
  · rfl
  · split
    · split
      · rfl
      · split
        · rfl
        · exact State.faultAt_fwp _ _ _ _ _ _ _ _
    · rfl

theorem State.memUE_fwp (s : State) (type a : Nat) (m : Master) (access syn : Nat) : (s.memUE type a m access syn).fwp = s.fwp := by
  unfold State.memUE
  dsimp only
  refine (State.faultAt_fwp _ _ _ _ _ _ _ _).trans ?_
  have hcount (k c : Nat) : (if k = 4 then s.poisonGran a m else (s.poisonGran a m).bump c).fwp = s.fwp := by
    split
    · exact State.poisonGran_fwp _ _ _
    · exact State.poisonGran_fwp _ _ _
  specialize hcount (s.memUnit a).1 (memCntBase (s.memUnit a).1 (s.memUnit a).2 + 4)
  generalize (if (s.memUnit a).1 = 4 then s.poisonGran a m else _) = u at hcount ⊢
  exact hcount

theorem State.memPut_fwp (s : State) (m : Master) (a : Nat) (l : List Byte) : (s.memPut m a l false).fwp = s.fwp := by
  have hfold (f : State → Nat → State) (hf : ∀ u g, (f u g).fwp = u.fwp) (gs : List Nat) : ∀ u : State, (gs.foldl f u).fwp = u.fwp := by
    induction gs with
    | nil => exact fun _ => rfl
    | cons g gs ih => exact fun u => (ih (f u g)).trans (hf u g)
  exact hfold _ (fun u g => State.memUE_fwp u _ _ _ _ _) _ _

theorem State.qcmd_fwp (s : State) (m : Master) (q cmd : Nat) (hm : s.sysWriter m = true) : (s.qcmd m none q cmd).fwp = s.fwp := by
  have hite {p : Prop} {_ : Decidable p} {u v : State} (hu : u.fwp = s.fwp) (hv : v.fwp = s.fwp) : (if p then u else v).fwp = s.fwp := by
    split
    · exact hu
    · exact hv
  unfold State.qcmd
  rw [if_neg (by simp [hm])]
  dsimp only
  split
  · exact hite rfl rfl
  · split
    · rfl
    · exact hite rfl rfl
  · split
    · rfl
    · rfl
  · rfl

/-- The queue's side of QUEUE_CTRL. -/
def State.queueCommanded (s : State) (q c : Nat) (e : List Byte) : State :=
  let idle := match fmGet s.hqm.queues q with | some o => decide (o.count = 0) | none => true
  (if c = 0 ∧ idle = true then s.memPut (mFwp 2) (s.qEntry q) e false else s).qcmd (mFwp 2) none q c

theorem State.sysWriter_fwpSched (s : State) : s.sysWriter (mFwp 2) = true := by
  rw [State.sysWriter, show isFwp (mFwp 2) = true by decide, Bool.or_true]

theorem State.queueCommanded_fwp (s : State) (q c : Nat) (e : List Byte) : (s.queueCommanded q c e).fwp = s.fwp := by
  have hite {p : Prop} {_ : Decidable p} : (if p then s.memPut (mFwp 2) (s.qEntry q) e false else s).fwp = s.fwp := by
    split
    · exact State.memPut_fwp _ _ _ _
    · rfl
  exact (State.qcmd_fwp _ _ _ _ (State.sysWriter_fwpSched _)).trans hite

/-- The mailbox may command queue q, and name the owner of its new entry. -/
def State.queueMine (s : State) (b q c : Nat) (e : List Byte) : Bool :=
  (match fmGet s.hqm.queues q with | some x => s.mbxOwns b x.owner | none => true) && (decide (c ≠ 0) || s.mbxOwns b (leAt e 0xB 1))

theorem State.queueCtrl_eq {b : Nat} (hq : leAt (s.mbxPay b) 0 4 ≤ 0x7FFFF) (hc : leAt (s.mbxPay b) 4 1 ≤ 2) :
    let u := s.queueCommanded (leAt (s.mbxPay b) 0 4) (leAt (s.mbxPay b) 4 1) (sliceBytes (s.mbxPay b) 8 32)
    s.queueCtrl b = if s.queueMine b (leAt (s.mbxPay b) 0 4) (leAt (s.mbxPay b) 4 1) (sliceBytes (s.mbxPay b) 8 32) then
      if u.bit (rHqm 0x1C) 1 then u.ansRefusedOpen else (u, ansOk []) else (s, ansDenied) := by
  rw [State.queueCtrl, if_neg (Nat.not_lt.mpr hq), if_neg (Nat.not_lt.mpr hc)]
  unfold State.queueMine State.queueCommanded
  dsimp only
  generalize sliceBytes (s.mbxPay b) 8 32 = e
  generalize leAt (s.mbxPay b) 4 1 = c
  generalize leAt (s.mbxPay b) 0 4 = q
  have hidle (n : Nat) : ((decide (c = 0) && !decide (n ≠ 0)) = true) = (c = 0 ∧ decide (n = 0) = true) := by simp
  have hnone : ((decide (c = 0) && !false) = true) = (c = 0 ∧ true = true) := by simp
  generalize fmGet s.hqm.queues q = old
  cases old with
  | none =>
    dsimp only
    rw [ite_not_eq]
    simp only [hnone]
  | some o =>
    dsimp only
    rw [ite_not_eq]
    simp only [hidle]

theorem runs_queueCtrl (hr : s.mbxReady b 0x203 none) :
    let l := s.mbxPay b
    let q := leAt l 0 4
    let c := leAt l 4 1
    let u := s.queueCommanded q c (sliceBytes l 8 32)
    (0x7FFFF < q → exec (.queueCtrl b) s = .next (s.mbxPerformed b (ansBad 0))) ∧
    (q ≤ 0x7FFFF → 2 < c → exec (.queueCtrl b) s = .next (s.mbxPerformed b (ansBad 4))) ∧
    (q ≤ 0x7FFFF → c ≤ 2 → s.queueMine b q c (sliceBytes l 8 32) = false → exec (.queueCtrl b) s = .next (s.mbxPerformed b ansDenied)) ∧
    (q ≤ 0x7FFFF → c ≤ 2 → s.queueMine b q c (sliceBytes l 8 32) = true → Runs (.queueCtrl b) s fun t =>
      t.hqm = u.hqm ∧ t.regs = u.regs ∧ t.mem = u.mem ∧ (u.bit (rHqm 0x1C) 1 = false → Answered b 0 [] .none t) ∧
      (u.bit (rHqm 0x1C) 1 = true → ∃ code, Answered b 6 (leBytes 4 code) .none t)) := by
  intro l q c u
  refine ⟨fun hq => exec_mbxReady exec_queueCtrl hr (by rw [State.queueCtrl, if_pos hq]),
    fun hq hc => exec_mbxReady exec_queueCtrl hr (by rw [State.queueCtrl, if_neg (Nat.not_lt.mpr hq), if_pos hc]),
    fun hq hc hmine => exec_mbxReady exec_queueCtrl hr (by rw [State.queueCtrl_eq hq hc, if_neg (by rw [hmine]; exact Bool.false_ne_true)]),
    fun hq hc hmine => ?_⟩
  obtain ⟨y, hy⟩ := State.mbxReady_message hr
  have hx := State.queueCtrl_eq (s := s) (b := b) hq hc
  dsimp only at hx
  rw [if_pos hmine] at hx
  have hu : fmGet u.fwp.mbx b = some y := by rw [State.queueCommanded_fwp]; exact hy
  change s.queueCtrl b = if u.bit (rHqm 0x1C) 1 then u.ansRefusedOpen else (u, ansOk []) at hx
  have hhqm (v : State) (x : MbxMsg) : (v.mbxPerformed b x).hqm = v.hqm := by
    unfold State.mbxPerformed
    split
    · rfl
    · rfl
  clear_value u
  cases hbit : u.bit (rHqm 0x1C) 1 with
  | true =>
    rw [if_pos hbit] at hx
    obtain ⟨ha, hregs, hmem⟩ := State.refusedOpen_effect hu
    exact .of_exec (exec_mbxReady exec_queueCtrl hr hx) ⟨hhqm _ _, hregs, hmem, fun hn => absurd hn (by simp), fun _ => ha⟩
  | false =>
    rw [if_neg (by simp [hbit])] at hx
    exact .of_exec (exec_mbxReady exec_queueCtrl hr hx) ⟨hhqm _ _, State.mbxPerformed_regs _ _ _, State.mbxPerformed_mem _ _ _,
      fun _ => State.answered_mbxPerformed hu rfl, fun hn => absurd hn (by simp)⟩

/-! S2_SET, INSTANCE_CTRL, PTP_STEP, LINK_STATUS and FAULT_READ. -/

theorem rInst_add_four (i o : Nat) : rInst i o + 4 = rInst i (o + 4) := rfl

theorem runs_s2Set (h : regsWf s.regs = true) (hr : s.mbxReady b 0x204 (some 10)) :
    let l := s.mbxPay b
    let i := leAt l 0 1
    let v := leAt l 8 8
    (63 < i → exec (.s2Set b) s = .next (s.mbxPerformed b (ansBad 0))) ∧
    (i ≤ 63 → v / 2 ^ 60 ≠ 0 → v / 2 ^ 60 ≠ 9 → exec (.s2Set b) s = .next (s.mbxPerformed b (ansBad 8))) ∧
    (i ≤ 63 → v / 2 ^ 60 = 0 ∨ v / 2 ^ 60 = 9 → Runs (.s2Set b) s fun t =>
      t.word64 (rInst i 0x10) = 1152921504606846976 * (v / 2 ^ 60) + v % 2 ^ 44 ∧ RegsBut [rInst i 0x10, rInst i 0x14] s t ∧
      Answered b 0 [] .none t ∧ t.mem = s.mem) := by
  intro l i v
  refine ⟨fun hi => exec_mbxReady exec_s2Set hr (by rw [State.s2Set, if_pos hi]), fun hi h0 h9 => ?_, fun hi hv => ?_⟩
  · exact exec_mbxReady exec_s2Set hr (by rw [State.s2Set, if_neg (Nat.not_lt.mpr hi), if_pos (by simp [v, l] at h0 h9; simp [h0, h9])])
  · have hmode : ¬(v / 2 ^ 60 ≠ 0 && v / 2 ^ 60 ≠ 9) = true := by
      simp only [Bool.and_eq_true, decide_eq_true_eq]
      omega
    have he := exec_mbxReady exec_s2Set hr (t := s.setWord64 (rInst i 0x10) (2 ^ 60 * (v / 2 ^ 60) + v % 2 ^ 44)) (x := ansOk [])
      (by rw [State.s2Set, if_neg (Nat.not_lt.mpr hi), if_neg hmode])
    obtain ⟨y, hy⟩ := State.mbxReady_message hr
    have hk : RegsOnly [rInst i 0x10, rInst i 0x14] s (s.setWord64 (rInst i 0x10) (2 ^ 60 * (v / 2 ^ 60) + v % 2 ^ 44)) :=
      (RegsOnly.refl h).setWord64 _ (by simp) (by simp [rInst_add_four])
    have hset := State.word64_setWord64_same h (rInst i 0x10) (2 ^ 60 * (v / 2 ^ 60) + v % 2 ^ 44)
    obtain ⟨ha, hbut, hmem⟩ := hk.performed hy (x := ansOk []) rfl
    refine .of_exec he ⟨(State.word64_congr (State.word_mbxPerformed _ _ _) _).trans (hset.trans ?_), hbut, ha, hmem⟩
    have hlt : v < 2 ^ 64 := leAt_lt l 8 8
    omega

theorem State.mbxOwned {i : Nat} {b : Nat} (ho : s.mbxOwns b i = true) : ¬(!s.mbxOwns b i) = true := by simp [ho]

theorem runs_instanceRefused (h : regsWf s.regs = true) (hr : s.mbxReady b 0x205 none) {i : Nat}
    (hx : s.instanceCtrl b = (s.instErr i).ansRefusedOpen) :
    Runs (.instanceCtrl b) s fun t => (∃ code, Answered b 6 (leBytes 4 code) .none t) ∧ t.bit (rInst i 8) 8 = true := by
  obtain ⟨y, hy⟩ := State.mbxReady_message hr
  obtain ⟨ha, hregs, hmem⟩ := State.refusedOpen_effect (s := s.instErr i) (b := b) (y := y) hy
  exact .of_exec (exec_mbxReady exec_instanceCtrl hr hx)
    ⟨ha, (State.bit_congr (State.word_congr hregs _) _).trans (State.bit_setBit_same h _ (by omega))⟩

theorem runs_instanceCtrl (hr : s.mbxReady b 0x205 none) :
    let l := s.mbxPay b
    let i := leAt l 0 1
    let o := leAt l 1 1
    (63 < i → exec (.instanceCtrl b) s = .next (s.mbxPerformed b (ansBad 0))) ∧
    (i ≤ 63 → 2 < o → exec (.instanceCtrl b) s = .next (s.mbxPerformed b (ansBad 1))) ∧
    (i ≤ 63 → o ≤ 2 → s.mbxOwns b i = false → exec (.instanceCtrl b) s = .next (s.mbxPerformed b ansDenied)) ∧
    (i ≤ 63 → o < 2 → s.mbxOwns b i = true → s.instState i ≠ 0 →
      exec (.instanceCtrl b) s = .next ((s.instReset i (o = 1)).mbxPerformed b { ansOk [] with wait := .inst i })) ∧
    (i ≤ 63 → o = 2 → s.mbxOwns b i = true → s.instKind i ≠ 0 →
      exec (.instanceCtrl b) s = .next ((s.instAdd i).mbxPerformed b { ansOk [] with wait := .inst i })) ∧
    (i ≤ 63 → o ≤ 2 → s.mbxOwns b i = true → o < 2 ∧ s.instState i = 0 ∨ o = 2 ∧ s.instKind i = 0 → s.canonical = true →
      Runs (.instanceCtrl b) s fun t => (∃ code, Answered b 6 (leBytes 4 code) .none t) ∧ t.bit (rInst i 8) 8 = true) := by
  intro l i o
  have hgo (hi : i ≤ 63) (ho : o ≤ 2) (hown : s.mbxOwns b i = true) : s.instanceCtrl b =
      if o < 2 then
        if s.instState i = 0 then (s.instReset i (o = 1)).ansRefusedOpen else (s.instReset i (o = 1), { ansOk [] with wait := .inst i })
      else if s.instKind i = 0 then (s.instAdd i).ansRefusedOpen
      else (s.instAdd i, { ansOk [] with wait := .inst i }) := by
    rw [State.instanceCtrl, if_neg (Nat.not_lt.mpr hi), if_neg (Nat.not_lt.mpr ho), if_neg (State.mbxOwned hown)]
  refine ⟨fun hi => exec_mbxReady exec_instanceCtrl hr (by rw [State.instanceCtrl, if_pos hi]),
    fun hi ho => exec_mbxReady exec_instanceCtrl hr (by rw [State.instanceCtrl, if_neg (Nat.not_lt.mpr hi), if_pos ho]),
    fun hi ho hown => ?_, fun hi ho hown hst => ?_, fun hi ho hown hk => ?_, fun hi ho hown hbad hcan => ?_⟩
  · have hnot : (!s.mbxOwns b (leAt (s.mbxPay b) 0 1)) = true := by rw [Bool.not_eq_true']; exact hown
    exact exec_mbxReady exec_instanceCtrl hr (by
      rw [State.instanceCtrl, if_neg (Nat.not_lt.mpr hi), if_neg (Nat.not_lt.mpr ho), if_pos hnot])
  · exact exec_mbxReady exec_instanceCtrl hr (by rw [hgo hi (by omega) hown, if_pos ho, if_neg hst])
  · exact exec_mbxReady exec_instanceCtrl hr (by rw [hgo hi (by omega) hown, if_neg (by omega), if_neg hk])
  · obtain ⟨-, hwf⟩ := State.canonical_iff.mp hcan
    refine runs_instanceRefused hwf hr ?_
    rcases hbad with ⟨ho, hst⟩ | ⟨ho, hk⟩
    · rw [hgo hi (by omega) hown, if_pos ho, if_pos hst, State.instReset, if_pos hst]
    · rw [hgo hi (by omega) hown, if_neg (by omega), if_pos hk, State.instAdd, if_pos hk]

theorem State.ptpReject_fwp (s : State) (c : Nat) : (s.ptpReject c).fwp = s.fwp := by
  unfold State.ptpReject
  split
  · rfl
  · rfl

theorem State.ptpAccept_fwp (s : State) (c : Nat) : (s.ptpAccept c).fwp = s.fwp := by
  unfold State.ptpAccept
  split
  · rfl
  · rfl

/-- The clock's side of PTP_STEP. -/
def State.ptpDecided (s : State) (c d : Nat) : State := if d = 1 then s.ptpAccept c else s.ptpReject c

theorem State.ptpDecided_fwp (s : State) (c d : Nat) : (s.ptpDecided c d).fwp = s.fwp := by
  unfold State.ptpDecided
  split
  · exact s.ptpAccept_fwp c
  · exact s.ptpReject_fwp c

theorem runs_ptpStep (hr : s.mbxReady b 0x301 (some 8)) :
    let c := leAt (s.mbxPay b) 0 1
    let d := leAt (s.mbxPay b) 1 1
    let u := s.ptpDecided c d
    (3 < c → exec (.ptpStep b) s = .next (s.mbxPerformed b (ansBad 0))) ∧
    (c ≤ 3 → 1 < d → exec (.ptpStep b) s = .next (s.mbxPerformed b (ansBad 1))) ∧
    (c ≤ 3 → d ≤ 1 → s.bit (rPtpClk c 4) 0 = true → exec (.ptpStep b) s = .next (u.mbxPerformed b (ansOk []))) ∧
    (c ≤ 3 → d ≤ 1 → s.bit (rPtpClk c 4) 0 = false → Runs (.ptpStep b) s fun t =>
      (∃ code, Answered b 6 (leBytes 4 code) .none t) ∧ t.regs = u.regs ∧ t.mem = u.mem) := by
  intro c d u
  have hgo (hc : c ≤ 3) (hd : d ≤ 1) : s.ptpStepCmd b = if s.bit (rPtpClk c 4) 0 then (u, ansOk []) else u.ansRefusedOpen := by
    rw [State.ptpStepCmd, if_neg (Nat.not_lt.mpr hc), if_neg (Nat.not_lt.mpr hd)]
    rfl
  refine ⟨fun hc => exec_mbxReady exec_ptpStep hr (by rw [State.ptpStepCmd, if_pos hc]),
    fun hc hd => exec_mbxReady exec_ptpStep hr (by rw [State.ptpStepCmd, if_neg (Nat.not_lt.mpr hc), if_pos hd]),
    fun hc hd hheld => exec_mbxReady exec_ptpStep hr (by rw [hgo hc hd, if_pos hheld]), fun hc hd hheld => ?_⟩
  obtain ⟨y, hy⟩ := State.mbxReady_message hr
  exact .of_exec (exec_mbxReady exec_ptpStep hr (by rw [hgo hc hd, if_neg (by simp [hheld])]))
    (State.refusedOpen_effect (s := u) (y := y) (by rw [State.ptpDecided_fwp]; exact hy))

theorem runs_faultRead (hr : s.mbxReady b 0x401 none) :
    let c := leAt (s.mbxPay b) 0 1
    (c = 0 ∨ 5 < c → exec (.faultRead b) s = .next (s.mbxPerformed b (ansBad 0))) ∧
    (1 ≤ c → c ≤ 5 → Runs (.faultRead b) s fun t =>
      Answered b 0 (s.regBytes (rFlt (0x200 + (c - 1) * 0x20)) 32 ++ s.regBytes (rFlt (0x300 + (c - 1) * 0x20)) 32 ++
        leBytes 4 (s.word rFltState)) .none t ∧ t.regs = s.regs ∧ t.mem = s.mem) := by
  have hans {x : MbxMsg} (hx : s.faultRead b = x) : (fun s : State => (s, s.faultRead b)) s = (s, x) := by rw [← hx]
  refine ⟨fun hc => ?_, fun h1 h5 => ?_⟩
  · exact exec_mbxReady exec_faultRead hr (hans (by rw [State.faultRead, if_pos (by simpa using hc)]))
  · have hgood : ¬(leAt (s.mbxPay b) 0 1 = 0 || leAt (s.mbxPay b) 0 1 > 5) = true := by
      simp only [Bool.or_eq_true, decide_eq_true_eq]
      omega
    have hx := hans (x := s.faultRead b) rfl
    rw [State.faultRead, if_neg hgood] at hx
    exact runs_mbxAnswerOnly exec_faultRead hr hx rfl

end Sys2Proof.Machine

open Sys2Proof Sys2Proof.Machine

/-- Settles O46, command by command: the checks in their order, what is written, and the answer. -/
theorem mailboxCommandsOfTheServicesTakeEffect : Obligations.MailboxCommandsOfTheServicesTakeEffect := by
  unfold Obligations.MailboxCommandsOfTheServicesTakeEffect
  have wf {s : State} (hcan : s.canonical = true) := (State.canonical_iff.mp hcan).2
  refine ⟨fun s b hr => runs_logRead hr, fun s b hcan hr => runs_traceSet (wf hcan) hr, fun s b hr => runs_profileSet hr,
    fun s b hr => runs_mbxAnswerOnly exec_profileGet hr rfl rfl, fun s b hr => runs_clickSet hr, fun s b hcan hr => ?slot,
    fun s b hr => ?queue, fun s b hcan hr => runs_s2Set (wf hcan) hr, fun s b hr => runs_instanceCtrl hr, fun s b hr => runs_ptpStep hr,
    fun s b hr => runs_mbxAnswerOnly exec_linkStatus hr rfl rfl, fun s b hr => runs_faultRead hr⟩
  case slot =>
    have h := runs_slotSet (wf hcan) hr
    unfold State.slotMine at h
    dsimp only at h ⊢
    generalize s.slotOwner (leAt (s.mbxPay b) 0 2) = owner at h ⊢
    obtain _ | ⟨i, _⟩ := owner
    · exact h
    · exact h
  case queue =>
    have h := runs_queueCtrl hr
    unfold State.queueMine State.queueCommanded at h
    dsimp only at h ⊢
    generalize fmGet s.hqm.queues (leAt (s.mbxPay b) 0 4) = old at h ⊢
    cases old with
    | none => exact h
    | some o => exact h
end

section
/-! PROOF. CAN controllers: reception, transmission, bus off and recovery, and the gateway's NTSCF frames (R574 to R578, R581). -/

namespace Sys2Proof.Machine

variable {s t u : State} {n : Fin 16}

theorem rCan_inj {n a c : Nat} : rCan n a = rCan n c ↔ a = c := by
  unfold rCan
  omega

theorem rCan_bounds {n o : Nat} (hn : n < 16) (ho : o < 0x100) : blkBase bCAN ≤ rCan n o ∧ rCan n o < blkBase bCAN + 0x10000 := by
  unfold rCan
  omega

/-- The registers of CAN stand apart from those of the collector, and of WPE and ETH. -/
theorem rCan_outside {n o : Nat} (hn : n < 16) (ho : o < 0x100) :
    (rCan n o < rFlt 0 ∨ rFlt 0x400 ≤ rCan n o) ∧ ¬heelWord (rCan n o) := by
  have hb := rCan_bounds hn ho
  simp only [heelWord, rFlt, rWpe, rEth, blkBase, bCAN, bFLT, bWPE, bETH] at *
  omega

/-! Reception (R575, R577). -/

/-- With no axis that follows its reports, a frame moves none. -/
theorem State.travelCan_idle (h : ∀ k, k < 16 → s.axLive k = false) (c id fmt : Nat) (ide : Bool) (data : List Byte) :
    s.travelCan c id fmt ide data = s := by
  have hnone : s.axesOf 3 0 c = [] := by
    rw [State.axesOf, List.filter_eq_nil_iff]
    intro k hk
    simp [h k (List.mem_range.mp hk)]
  rw [State.travelCan, hnone, List.foldl_nil]

theorem exec_canFrameReceive_ignored {b : List Byte} (h : s.canOn n = false ∨ s.canFmt n < cbFmt b) :
    exec (.canFrameReceive n b) s = .next s := if_pos (by simpa using h)

/-- A frame received: counted, and before the axes that follow it. -/
def State.canTaken (s : State) (n : Nat) (b : List Byte) : State :=
  (s.bump (rCan n 0x28)).travelCan n (cbId b % 2 ^ 29) (cbFmt b) (cbIde b) (cbData b)

/-- The stamp of a frame received. -/
def State.canRxStamp (u : State) (n : Nat) : List Byte :=
  u.ptpStamp (u.fld (rCan n 0) 7 6)
    (2 ^ 32 * ((u.ptpNs (u.fld (rCan n 0) 7 6) / 5 * 5 : Nat) + toSigned 32 (u.word (rCan n 0x1C)) : Int).toNat)

theorem exec_canFrameReceive {b : List Byte} (hon : s.canOn n = true) (hf : cbFmt b ≤ s.canFmt n) :
    exec (.canFrameReceive n b) s =
      match (s.canTaken n b).canFilter n b with
      | none => .next ((s.canTaken n b).canDrop n)
      | some d => if bitOf d 6 then .next ((s.canTaken n b).gateway n b ((s.canTaken n b).canRxStamp n))
        else .next ((s.canTaken n b).chanRx (d % 64) true b false n 0 ((s.canTaken n b).canRxStamp n)) := by
  have hgo : ¬(!s.canOn n || s.canFmt n < cbFmt b) = true := by simp [hon, hf]
  delta exec
  cases hc : (s.canTaken n b).canFilter n b with
  | none =>
    rw [State.canTaken] at hc
    simp only [execCanFrameReceive, if_neg hgo, State.canTaken, hc]
  | some d =>
    rw [State.canTaken] at hc
    simp only [execCanFrameReceive, if_neg hgo, State.canTaken, State.canRxStamp, hc]

theorem State.gateway_none {b stamp : List Byte} {n : Nat} (h : u.gwMatch n b = none) : u.gateway n b stamp = u.canDrop n := by
  delta State.gateway
  simp only [h]

theorem State.gateway_routes {b stamp e : List Byte} {n : Nat} (h : u.gwMatch n b = some e) (hc : bitOf (leAt e 13 1) 1 = false)
    (hg : 63 < leAt e 12 1) : u.gateway n b stamp = (setBitsList 16 (leAt e 10 2)).foldl (fun s k => s.canRoute k b) u := by
  have hsmall : ¬leAt e 12 1 < 64 := by omega
  delta State.gateway
  simp only [h]
  rw [if_pos (by simp [hc]), if_neg (by simp [hsmall])]

theorem runs_canFrameReceive_unmatched {b : List Byte} (h : regsWf s.regs = true) (hon : s.canOn n = true) (hf : cbFmt b ≤ s.canFmt n)
    (hax : ∀ k, k < 16 → s.axLive k = false) (hno : s.canFilter n b = none) : Runs (.canFrameReceive n b) s fun t =>
      t.word (rCan n 0x28) = (s.word (rCan n 0x28) + 1) % 2 ^ 32 ∧ t.word (rCan n 0x24) = (s.word (rCan n 0x24) + 1) % 2 ^ 32 ∧
      RegsBut [rCan n 0x28, rCan n 0x24] s t ∧ t.mem = s.mem ∧ t.can = s.can := by
  have hk : RegsOnly [rCan n 0x28] s (s.bump (rCan n 0x28)) := (RegsOnly.refl h).bump (by simp)
  have hn := n.isLt
  have hlive (k : Nat) (hlt : k < 16) : (s.bump (rCan n 0x28)).axLive k = false := by
    have hen : (s.bump (rCan n 0x28)).axEn k = s.axEn k := hk.bit 2 fun hm => by
      have hc := rCan_bounds (n := n) (o := 0x28) hn (by omega)
      have ha : rAxis k 0 < blkBase bCAN := by
        unfold rAxis rPhx blkBase bPHX bCAN
        omega
      rw [List.mem_singleton.mp hm] at ha
      omega
    rw [State.axLive, hen]
    exact hax k hlt
  have ht : s.canTaken n b = s.bump (rCan n 0x28) := State.travelCan_idle hlive _ _ _ _ _
  have hfilter : (s.canTaken n b).canFilter n b = none := by
    have hread (f : Nat) : (s.bump (rCan n 0x28)).regBytes (rFilter n f) 16 = s.regBytes (rFilter n f) 16 :=
      State.regBytes_congr fun i _ => hk.word _ fun hm => by
        have hc := rCan_bounds (n := n) (o := 0x28) hn (by omega)
        rw [← List.mem_singleton.mp hm] at hc
        unfold rFilter at hc
        omega
    rw [ht, State.canFilter]
    simp only [hread]
    exact hno
  have he := exec_canFrameReceive hon hf
  rw [hfilter, ht] at he
  have hd : RegsOnly [rCan n 0x28, rCan n 0x24] s ((s.bump (rCan n 0x28)).canDrop n) := ((RegsOnly.refl h).bump (by simp)).bump (by simp)
  have hw24 : (s.bump (rCan n 0x28)).word (rCan n 0x24) = s.word (rCan n 0x24) := hk.word _ (by simp [rCan_inj])
  refine .of_exec he ⟨?_, ?_, hd.word, hd.mem, rfl⟩
  · exact (State.word_bump_other hk.wf (by simp [rCan_inj])).trans (State.word_bump_same h _)
  · exact (State.word_bump_same hk.wf _).trans (by rw [hw24])

/-! Transmission (R576). -/

/-- The lowest identifier, the oldest of equal ones, is chosen. -/
theorem canBest_append {x y : List CanBuf} {b : CanBuf} (hx : ∀ c ∈ x, cbRank b.buf < cbRank c.buf)
    (hy : ∀ c ∈ y, cbRank b.buf ≤ cbRank c.buf) (i : Nat) : canBest (x ++ b :: y) i = some (i + x.length, cbRank b.buf) := by
  have hfirst (l : List CanBuf) (hl : ∀ c ∈ l, cbRank b.buf ≤ cbRank c.buf) (j : Nat) :
      ∀ p, canBest l j = some p → cbRank b.buf ≤ p.2 := by
    induction l generalizing j with
    | nil => exact fun p hp => absurd hp (by simp [canBest])
    | cons c r ih =>
      intro p hp
      have hc := hl c List.mem_cons_self
      rw [canBest] at hp
      cases hr : canBest r (j + 1) with
      | none =>
        rw [hr] at hp
        rw [← Option.some.inj hp]
        exact hc
      | some q =>
        have hq := ih (fun c hc => hl c (List.mem_cons_of_mem _ hc)) (j + 1) q hr
        rw [hr] at hp
        dsimp only at hp
        split at hp
        · rw [← Option.some.inj hp]
          exact hc
        · rw [← Option.some.inj hp]
          exact hq
  induction x generalizing i with
  | nil =>
    rw [List.nil_append, canBest]
    cases hr : canBest y (i + 1) with
    | none => rfl
    | some q =>
      dsimp only
      rw [if_pos (hfirst y hy _ q hr)]
      rfl
  | cons c x ih =>
    have hc := hx c List.mem_cons_self
    rw [List.cons_append, canBest, ih (fun c hc => hx c (List.mem_cons_of_mem _ hc))]
    dsimp only
    rw [if_neg (by omega), List.length_cons]
    congr 2
    omega

theorem exec_canFrameTransmit_idle {o : Fin 3} (h : s.canOn n = false ∨ s.canState n = 2 ∨ s.bit (rCan n 0) 3 = true ∨
    s.bit (rCan n 0) 4 = true ∨ s.canTx n = []) : exec (.canFrameTransmit n o) s = .next s := by
  delta exec
  simp only [execCanFrameTransmit]
  split
  · rfl
  · next hgo =>
    have hempty : s.canTx n = [] := by
      rcases h with h | h | h | h | h
      · simp [h] at hgo
      · simp [h] at hgo
      · simp [h] at hgo
      · simp [h] at hgo
      · exact h
    rw [hempty, canBest]

section
variable {x y : List CanBuf} {b : CanBuf}

/-- The controller may send, and b is its next buffer. -/
structure CanSends (s : State) (n : Fin 16) (x : List CanBuf) (b : CanBuf) (y : List CanBuf) : Prop where
  wf : regsWf s.regs = true
  live : s.canState n ≠ 2
  go : ¬(!s.canOn n || s.canState n = 2 || s.bit (rCan n 0) 3 || s.bit (rCan n 0) 4) = true
  tx : s.canTx n = x ++ b :: y
  best : canBest (s.canTx n) 0 = some (x.length, cbRank b.buf)

theorem CanSends.get (h : CanSends s n x b y) : (s.canTx n).getD x.length ⟨[], 0, 0⟩ = b := by
  rw [h.tx]
  simp

/-- The buffer at place i has left the queue of its controller. -/
def State.canUnqueued (s : State) (n i : Nat) : State := { s with can.tx := fmPut s.can.tx n ((s.canTx n).eraseIdx i) }

/-- The buffer at place i has been sent. -/
def State.canSent (s : State) (n : Nat) (i : Nat) : State :=
  let s := s.canUnqueued n i
  (s.bump (rCan n 0x2C)).canTec n (s.fld (rCan n 0x14) 15 8 - 1)

theorem exec_canFrameTransmit_sent (h : CanSends s n x b y) (ht : b.txIdx = 0) :
    exec (.canFrameTransmit n 0) s = .next ((s.canSent n x.length).emit (.can n b.buf)) := by
  delta exec
  simp only [execCanFrameTransmit, if_neg h.go, h.best, h.get, if_pos ht]
  rfl

theorem exec_canFrameTransmit_lost (h : CanSends s n x b y) :
    exec (.canFrameTransmit n 1) s = .next (s.bumpSat (rCan n 0x20) 31 16) := by
  delta exec
  simp only [execCanFrameTransmit, if_neg h.go, h.best, h.get]
  rfl

theorem exec_canFrameTransmit_error (h : CanSends s n x b y) :
    exec (.canFrameTransmit n 2) s = .next ((s.bumpSat (rCan n 0x20) 15 0).canTec n (s.fld (rCan n 0x14) 15 8 + 8)) := by
  delta exec
  simp only [execCanFrameTransmit, if_neg h.go, h.best]

end

/-- The error count goes to v (R576): what every outcome shares. -/
theorem State.canTec_shown (h : regsWf s.regs = true) (n v : Nat) :
    RegsOnly [rCan n 0x14] s (s.setFld (rCan n 0x14) 15 8 (min v 255)) ∧
    (s.setFld (rCan n 0x14) 15 8 (min v 255)).fld (rCan n 0x14) 15 8 = min v 255 ∧
    (s.setFld (rCan n 0x14) 15 8 (min v 255)).canState n = s.canState n ∧
    (s.setFld (rCan n 0x14) 15 8 (min v 255)).fld (rCan n 0x14) 23 16 = s.fld (rCan n 0x14) 23 16 := by
  refine ⟨(RegsOnly.refl h).setFld _ _ _ (by simp), ?_, ?_, ?_⟩
  · rw [State.fld_setFld_same h _ (by omega) (by omega)]
    omega
  · exact State.fld_setFld_apart h _ (by omega) (by omega) (by omega)
  · exact State.fld_setFld_apart h _ (by omega) (by omega) (by omega)

/-- A controller that stays below the limit is error active. -/
theorem State.canTec_active (h : regsWf s.regs = true) {n v : Nat} (hlive : s.canState n ≠ 2) (hv : v ≤ 127)
    (hrec : s.fld (rCan n 0x14) 23 16 ≤ 127) : RegsOnly [rCan n 0x14] s (s.canTec n v) ∧
      (s.canTec n v).fld (rCan n 0x14) 15 8 = v ∧ (s.canTec n v).canState n = 0 := by
  obtain ⟨hk, hcount, hstate, hrx⟩ := State.canTec_shown h n v
  have he : s.canTec n v = (s.setFld (rCan n 0x14) 15 8 (min v 255)).setFld (rCan n 0x14) 1 0 0 := by
    unfold State.canTec
    dsimp only
    rw [if_neg (by rw [hstate]; exact hlive), if_neg (by rw [hrx]; simp; omega)]
  rw [he]
  refine ⟨hk.setFld _ _ _ (by simp), ?_, ?_⟩
  · rw [State.fld_setFld_apart hk.wf _ (by omega) (by omega) (by omega), hcount]
    omega
  · exact (State.fld_setFld_same hk.wf _ (by omega) (by omega))

/-- A controller above the limit is error passive, and recorded as a fault when it was not. -/
theorem State.canTec_passive (h : regsWf s.regs = true) {n v : Nat} (hn : n < 16) (hlive : s.canState n ≠ 2)
    (hv : 127 < v ∨ 127 < s.fld (rCan n 0x14) 23 16) :
    (s.canTec n v).canState n = 1 ∧ (s.canTec n v).fld (rCan n 0x14) 15 8 = min v 255 ∧ (s.canTec n v).can = s.can ∧
      (s.canTec n v).out = s.out ∧ (s.canState n ≠ 1 → Faulted 0x21 1 s (s.canTec n v)) ∧
      ∀ o, o < 0x100 → o ≠ 0x14 → (s.canTec n v).word (rCan n o) = s.word (rCan n o) := by
  obtain ⟨hk, hcount, hstate, hrx⟩ := State.canTec_shown h n v
  obtain ⟨r, hr⟩ := hk.rest
  have hgo : s.canTec n v = if s.canState n = 1 then s.setFld (rCan n 0x14) 15 8 (min v 255)
      else ((s.setFld (rCan n 0x14) 15 8 (min v 255)).setFld (rCan n 0x14) 1 0 1).fault 0x21 1 mCollector n 0 := by
    unfold State.canTec
    dsimp only
    rw [if_neg (by rw [hstate]; exact hlive), if_pos (by rw [hrx]; simpa using hv), hstate]
  rw [hgo]
  by_cases hs : s.canState n = 1
  · rw [if_pos hs]
    exact ⟨hstate.trans hs, hcount, rfl, rfl, fun hn => absurd hs hn,
      fun o _ ho => hk.word _ (by simpa [rCan_inj] using ho)⟩
  · rw [if_neg hs]
    have hk1 := hk.setFld (a := rCan n 0x14) 1 0 1 (by simp)
    have hst1 : ((s.setFld (rCan n 0x14) 15 8 (min v 255)).setFld (rCan n 0x14) 1 0 1).canState n = 1 :=
      State.fld_setFld_same hk.wf _ (by omega) (by omega)
    have hc1 : ((s.setFld (rCan n 0x14) 15 8 (min v 255)).setFld (rCan n 0x14) 1 0 1).fld (rCan n 0x14) 15 8 = min v 255 :=
      (State.fld_setFld_apart hk.wf _ (by omega) (by omega) (by omega)).trans hcount
    have hf := State.fault_low hk1.wf (src := 0x21) (cls := 1) (by omega) (by omega) mCollector n 0
    generalize (s.setFld (rCan n 0x14) 15 8 (min v 255)).setFld (rCan n 0x14) 1 0 1 = u at *
    generalize u.fault 0x21 1 mCollector n 0 = t at *
    have hword := hf.word (rCan n 0x14) (rCan_outside hn (by omega)).1
    obtain ⟨r1, hu⟩ := hk1.rest
    obtain ⟨_, _, _, _, _, ht⟩ := hf.rest
    refine ⟨(State.fld_congr hword _ _).trans hst1, (State.fld_congr hword _ _).trans hc1, by rw [ht, hu], by rw [hf.out, hu],
      fun _ => hf.faulted_after (hk1.word _ ?_),
      fun o hlt ho => (hf.word _ (rCan_outside hn hlt).1).trans (hk1.word _ (by simpa [rCan_inj] using ho))⟩
    have hb := rCan_outside hn (show 0x14 < 0x100 by omega)
    intro hm
    rw [← List.mem_singleton.mp hm] at hb
    simp only [rFlt] at hb
    omega

section
variable {x y : List CanBuf} {b : CanBuf}

theorem runs_canFrameTransmit_sent (h : CanSends s n x b y) (ht : b.txIdx = 0) (htec : s.fld (rCan n 0x14) 15 8 ≤ 128)
    (hrec : s.fld (rCan n 0x14) 23 16 ≤ 127) : Runs (.canFrameTransmit n 0) s fun t =>
      t.canTx n = x ++ y ∧ Emitted [.can n b.buf] s t ∧ t.word (rCan n 0x2C) = (s.word (rCan n 0x2C) + 1) % 2 ^ 32 ∧
      t.fld (rCan n 0x14) 15 8 = s.fld (rCan n 0x14) 15 8 - 1 ∧ t.canState n = 0 ∧ RegsBut [rCan n 0x2C, rCan n 0x14] s t ∧ t.mem = s.mem := by
  have hwf : regsWf (s.canUnqueued n x.length).regs = true := h.wf
  have hk0 : RegsOnly [rCan n 0x2C] (s.canUnqueued n x.length) ((s.canUnqueued n x.length).bump (rCan n 0x2C)) :=
    (RegsOnly.refl hwf).bump (List.mem_singleton.mpr rfl)
  have hcount : _ = (s.word (rCan n 0x2C) + 1) % 2 ^ 32 := State.word_bump_same hwf (rCan n 0x2C)
  have hstate : ((s.canUnqueued n x.length).bump (rCan n 0x2C)).word (rCan n 0x14) = s.word (rCan n 0x14) :=
    hk0.word _ (by simp [rCan_inj])
  have htx : ((s.canUnqueued n x.length).bump (rCan n 0x2C)).canTx n = x ++ y := by
    change fmGetD [] (fmPut s.can.tx n ((s.canTx n).eraseIdx x.length)) n = _
    rw [fmGetD, fmGet_fmPut_same, h.tx]
    simp [List.eraseIdx_append_of_length_le]
  have hout : ((s.canUnqueued n x.length).bump (rCan n 0x2C)).out = s.out := rfl
  have hmem : ((s.canUnqueued n x.length).bump (rCan n 0x2C)).mem = s.mem := rfl
  have hword : RegsBut [rCan n 0x2C] s ((s.canUnqueued n x.length).bump (rCan n 0x2C)) := hk0.word
  have he : exec (.canFrameTransmit n 0) s = .next ((((s.canUnqueued n x.length).bump (rCan n 0x2C)).canTec n
    (s.fld (rCan n 0x14) 15 8 - 1)).emit (.can n b.buf)) := exec_canFrameTransmit_sent h ht
  replace hwf := hk0.wf
  clear hk0
  generalize (s.canUnqueued n x.length).bump (rCan n 0x2C) = u at *
  obtain ⟨hk, hfld, hzero⟩ := State.canTec_active hwf (n := n) (v := s.fld (rCan n 0x14) 15 8 - 1)
    (by rw [State.canState, State.fld_congr hstate]; exact h.live) (by omega) (by rw [State.fld_congr hstate]; exact hrec)
  obtain ⟨r, hr⟩ := hk.rest
  rw [hr] at hk hfld hzero he
  refine .of_exec he ⟨htx, by rw [Emitted, ← hout]; rfl, (hk.word (rCan n 0x2C) (by simp [rCan_inj])).trans hcount, hfld, hzero, fun a ha => ?_, hmem⟩
  rw [List.mem_cons, not_or] at ha
  exact (hk.word a ha.2).trans (hword a (by simpa using ha.1))

theorem runs_canFrameTransmit_lost (h : CanSends s n x b y) :
    Runs (.canFrameTransmit n 1) s fun t => t.canTx n = s.canTx n ∧ t.out = s.out ∧
      t.fld (rCan n 0x20) 31 16 = min (s.fld (rCan n 0x20) 31 16 + 1) 65535 ∧ RegsBut [rCan n 0x20] s t ∧ t.mem = s.mem := by
  have hk : RegsOnly [rCan n 0x20] s (s.bumpSat (rCan n 0x20) 31 16) := (RegsOnly.refl h.wf).bumpSat _ _ (by simp)
  exact .of_exec (exec_canFrameTransmit_lost h) ⟨rfl, rfl, State.fld_bumpSat_same h.wf (by omega) (by omega), hk.word, rfl⟩

theorem runs_canFrameTransmit_error (h : CanSends s n x b y) :
    let tec := s.fld (rCan n 0x14) 15 8
    let rec_ := s.fld (rCan n 0x14) 23 16
    Runs (.canFrameTransmit n 2) s fun t => t.canTx n = s.canTx n ∧ t.out = s.out ∧
      t.fld (rCan n 0x20) 15 0 = min (s.fld (rCan n 0x20) 15 0 + 1) 65535 ∧ t.fld (rCan n 0x14) 15 8 = min (tec + 8) 255 ∧
      (127 < tec + 8 ∨ 127 < rec_ → t.canState n = 1 ∧ (s.canState n ≠ 1 → Faulted 0x21 1 s t)) ∧
      (tec + 8 ≤ 127 → rec_ ≤ 127 → t.canState n = 0 ∧ RegsBut [rCan n 0x20, rCan n 0x14] s t ∧ t.mem = s.mem) := by
  intro tec rec_
  have hk : RegsOnly [rCan n 0x20] s (s.bumpSat (rCan n 0x20) 15 0) := (RegsOnly.refl h.wf).bumpSat _ _ (by simp)
  have hcount := State.fld_bumpSat_same h.wf (a := rCan n 0x20) (hi := 15) (lo := 0) (by omega) (by omega)
  have hw : (s.bumpSat (rCan n 0x20) 15 0).word (rCan n 0x14) = s.word (rCan n 0x14) := hk.word _ (by simp [rCan_inj])
  have hstate : (s.bumpSat (rCan n 0x20) 15 0).canState n = s.canState n := State.fld_congr hw _ _
  have hlive : (s.bumpSat (rCan n 0x20) 15 0).canState n ≠ 2 := by rw [hstate]; exact h.live
  have hrx : (s.bumpSat (rCan n 0x20) 15 0).fld (rCan n 0x14) 23 16 = rec_ := State.fld_congr hw _ _
  obtain ⟨r, hr⟩ := hk.rest
  have he := exec_canFrameTransmit_error h
  generalize s.bumpSat (rCan n 0x20) 15 0 = u at *
  have hfaulted {t : State} (hf : Faulted 0x21 1 u t) : Faulted 0x21 1 s t := by
    obtain ⟨hc, hcls⟩ := hf
    refine ⟨hc.trans ?_, hcls⟩
    rw [hk.word]
    intro hm
    have hb := rCan_outside n.isLt (show 0x20 < 0x100 by omega)
    rw [← List.mem_singleton.mp hm] at hb
    simp only [rFlt] at hb
    omega
  by_cases hlim : 127 < tec + 8 ∨ 127 < rec_
  · obtain ⟨hone, hfld, hcan, hout, hf, hother⟩ := State.canTec_passive hk.wf n.isLt hlive (by rw [hrx]; exact hlim)
    refine .of_exec he ⟨by rw [State.canTx, hcan, hr, State.canTx], by rw [hout, hr],
      (State.fld_congr (hother 0x20 (by omega) (by omega)) _ _).trans hcount, hfld,
      fun _ => ⟨hone, fun hne => hfaulted (hf (by rw [hstate]; exact hne))⟩, fun h1 h2 => absurd hlim (by omega)⟩
  · obtain ⟨hk2, hfld, hzero⟩ := State.canTec_active hk.wf hlive (v := tec + 8) (by omega) (by rw [hrx]; omega)
    obtain ⟨r2, hr2⟩ := hk2.rest
    refine .of_exec he ⟨by rw [hr2, hr]; rfl, by rw [hr2, hr], (hk2.fld _ _ (by simp [rCan_inj])).trans hcount, hfld.trans (by omega),
      fun hn => absurd hn hlim, fun _ _ => ⟨hzero, (hk2.after (hk.after (.refl h.wf) (by simp)) (by simp)).word, by rw [hr2, hr]⟩⟩

end

/-! Bus off and recovery (R576, R581). -/

theorem runs_canBusOff (h : regsWf s.regs = true) (hon : s.canOn n = true) (hlive : s.canState n ≠ 2) :
    Runs (.canBusOff n) s fun t => t.canState n = 2 ∧ t.fld (rCan n 0x14) 15 8 = 255 ∧ Faulted 0x21 3 s t ∧ t.canTx n = s.canTx n := by
  have he : exec (.canBusOff n) s = .next (((s.setFld (rCan n 0x14) 1 0 2).setFld (rCan n 0x14) 15 8 255).fault 0x21 3 mCollector n 1) :=
    if_neg (by simp [hon, hlive])
  have hk : RegsOnly [rCan n 0x14] s (s.setFld (rCan n 0x14) 1 0 2) := (RegsOnly.refl h).setFld _ _ _ (by simp)
  have hk2 := hk.setFld (a := rCan n 0x14) 15 8 255 (by simp)
  have hstate : ((s.setFld (rCan n 0x14) 1 0 2).setFld (rCan n 0x14) 15 8 255).canState n = 2 :=
    (State.fld_setFld_apart hk.wf _ (by omega) (by omega) (by omega)).trans (State.fld_setFld_same h _ (by omega) (by omega))
  have hcount : ((s.setFld (rCan n 0x14) 1 0 2).setFld (rCan n 0x14) 15 8 255).fld (rCan n 0x14) 15 8 = 255 :=
    State.fld_setFld_same hk.wf _ (by omega) (by omega)
  have hf := State.fault_on hk2.wf (src := 0x21) (cls := 3) (by omega) (by omega) mCollector n 1
  generalize (s.setFld (rCan n 0x14) 1 0 2).setFld (rCan n 0x14) 15 8 255 = u at *
  generalize u.fault 0x21 3 mCollector n 1 = t at *
  obtain ⟨r, hr⟩ := hk2.rest
  obtain ⟨_, _, _, _, _, _, _, _, ht⟩ := hf.rest
  have hb := rCan_outside n.isLt (show 0x14 < 0x100 by omega)
  have hw := hf.word (rCan n 0x14) hb.1 hb.2
  refine .of_exec he ⟨(State.fld_congr hw _ _).trans hstate, (State.fld_congr hw _ _).trans hcount, hf.faulted_after (hk2.word _ ?_),
    by rw [ht, hr]; rfl⟩
  intro hm
  rw [← List.mem_singleton.mp hm] at hb
  simp only [rFlt] at hb
  omega

theorem exec_canBusOffRecovery_idle (h : s.canState n ≠ 2 ∨ (s.bit (rCan n 0) 5 || fmGetD false s.can.recReq n) = false) :
    exec (.canBusOffRecovery n) s = .next s := by
  refine if_pos ?_
  rw [Bool.or_eq_true, decide_eq_true_eq, Bool.not_eq_true']
  exact h

theorem runs_canBusOffRecovery (h : regsWf s.regs = true) (hoff : s.canState n = 2)
    (hask : (s.bit (rCan n 0) 5 || fmGetD false s.can.recReq n) = true) : Runs (.canBusOffRecovery n) s fun t =>
      t.word (rCan n 0x14) = 0 ∧ t.can = { s.can with recReq := fmDel s.can.recReq n } ∧ RegsBut [rCan n 0x14] s t ∧ t.mem = s.mem := by
  have he : exec (.canBusOffRecovery n) s = .next (State.setWord { s with can.recReq := fmDel s.can.recReq n } (rCan n 0x14) 0) :=
    if_neg (by rw [hask]; simp [hoff])
  refine .of_exec he ⟨State.word_setWord_same (s := { s with can.recReq := fmDel s.can.recReq n }) h _ 0, rfl, fun a ha => ?_, rfl⟩
  exact State.word_setWord_other (s := { s with can.recReq := fmDel s.can.recReq n }) h 0 (by simpa using ha)

/-! The gateway's NTSCF frames (R578). -/

/-- The frame that a stream sends: its settings w, its messages, its sequence number and the open source address. -/
def ntscfFrame (w msgs : List Byte) (seq sa : Nat) : List Byte :=
  w.take 6 ++ beBytes 6 sa ++ beBytes 2 0x8100 ++
          beBytes 2 (8192 * (leAt w 6 2 / 4096 % 8) + leAt w 6 2 % 4096) ++ beBytes 2 0x22F0 ++ beBytes 1 0x82 ++
          beBytes 2 (32768 + msgs.length % 2048) ++ beBytes 1 seq ++ (w.drop 8).take 8 ++ msgs

/-- The state in which the frame of stream g reaches the switch. -/
def State.ntscfTaken (s : State) (g most : Nat) (l : List (List Byte)) : State :=
  let s := { s with free := s.free + 1 }
  let rest := l.drop most
  { s with can.acf := if rest = [] then fmDel s.can.acf g else fmPut s.can.acf g rest,
                      can.acfAt := fmPut s.can.acfAt g s.now, can.acfSeq := fmPut s.can.acfSeq g ((fmGetD 0 s.can.acfSeq g + 1) % 256) }

theorem State.ntscfTaken_effect (s : State) (g most : Nat) (l : List (List Byte)) :
    let u := s.ntscfTaken g most l
    u.regs = s.regs ∧ u.mem = s.mem ∧ u.can.acfSeq = fmPut s.can.acfSeq g ((fmGetD 0 s.can.acfSeq g + 1) % 256) ∧
      (most < l.length → u.can.acf = fmPut s.can.acf g (l.drop most)) ∧ (l.length ≤ most → u.can.acf = fmDel s.can.acf g) ∧
      u.now = s.now := by
  refine ⟨rfl, rfl, rfl, fun hlt => if_neg fun hd => ?_, fun hle => if_pos (List.drop_eq_nil_iff.mpr hle), rfl⟩
  have := List.drop_eq_nil_iff.mp hd
  omega

/-- When the frame leaves: at once when it is full, else when its first message has been held long enough. -/
def State.ntscfDue (s : State) (g n most : Nat) : State :=
  if n ≥ most then s else s.timeTo (fmGetD 0 s.can.acfAt g + 4000 * leAt (s.gws g) 19 2)

theorem State.ntscfDue_rest (s : State) (g n most : Nat) : (∃ k, s.ntscfDue g n most = { s with now := k }) ∧
    (most ≤ n → (s.ntscfDue g n most).now = s.now) ∧
    (n < most → (s.ntscfDue g n most).now = max s.now (fmGetD 0 s.can.acfAt g + 4000 * leAt (s.gws g) 19 2)) := by
  unfold State.ntscfDue
  split
  · next h => exact ⟨⟨_, rfl⟩, fun _ => rfl, fun hn => absurd hn (by omega)⟩
  · next h => exact ⟨⟨_, rfl⟩, fun hn => absurd hn h, fun _ => rfl⟩

theorem exec_ntscfFrameSend {g : Fin 64} (hl : fmGetD [] s.can.acf g ≠ []) :
    let l := fmGetD [] s.can.acf g
    let w := s.gws g
    let most := max 1 (leAt w 18 1)
    exec (.ntscfFrameSend g) s = .next (((s.ntscfDue g l.length most).ntscfTaken g most l).ethSwitch
      ⟨ntscfFrame w (l.take most).flatten (fmGetD 0 (s.ntscfDue g l.length most).can.acfSeq g)
        (Config.freeValue (s.ntscfDue g l.length most).free), zeroBytes 16, 17, 0, 0, false, false⟩) := by
  delta exec
  simp only [execNtscfFrameSend, if_neg hl, List.flatMap_id', State.ntscfDue, State.ntscfTaken, ntscfFrame, State.takeFree]

theorem runs_ntscfFrameSend {g : Fin 64} (hl : fmGetD [] s.can.acf g ≠ []) :
    let l := fmGetD [] s.can.acf g
    let w := s.gws g
    let most := max 1 (leAt w 18 1)
    Runs (.ntscfFrameSend g) s fun t =>
      ∃ sa u, t = State.ethSwitch u ⟨ntscfFrame w (l.take most).flatten (fmGetD 0 s.can.acfSeq g) sa, zeroBytes 16, 17, 0, 0, false, false⟩ ∧
        u.regs = s.regs ∧ u.mem = s.mem ∧ u.can.acfSeq = fmPut s.can.acfSeq g ((fmGetD 0 s.can.acfSeq g + 1) % 256) ∧
        (most < l.length → u.can.acf = fmPut s.can.acf g (l.drop most)) ∧ (l.length ≤ most → u.can.acf = fmDel s.can.acf g) ∧
        (most ≤ l.length → u.now = s.now) ∧ (l.length < most → u.now = max s.now (fmGetD 0 s.can.acfAt g + 4000 * leAt w 19 2)) := by
  have he := exec_ntscfFrameSend hl
  dsimp only at he ⊢
  generalize fmGetD [] s.can.acf g = l at he ⊢
  generalize max 1 (leAt (s.gws g) 18 1) = most at he ⊢
  obtain ⟨⟨k, hk⟩, hnow, hlate⟩ := s.ntscfDue_rest g l.length most
  have hseq : (s.ntscfDue g l.length most).can = s.can := by rw [hk]
  have htaken := (s.ntscfDue g l.length most).ntscfTaken_effect g most l
  dsimp only at htaken
  rw [hseq] at he htaken
  obtain ⟨hregs, hmem, hacfSeq, hmore, hall, hthen⟩ := htaken
  exact .of_exec he ⟨_, _, rfl, by rw [hregs, hk], by rw [hmem, hk], hacfSeq, hmore, hall, fun h => hthen.trans (hnow h),
    fun h => hthen.trans (hlate h)⟩

end Sys2Proof.Machine

open Sys2Proof Sys2Proof.Machine

/-- Settles O51, controller by controller: reception by the filters, the choice of the next buffer, the error states, and the stream's
frame. -/
theorem canControllersCarryFrames : Obligations.CanControllersCarryFrames := by
  unfold Obligations.CanControllersCarryFrames
  have wf {s : State} (hcan : s.canonical = true) := (State.canonical_iff.mp hcan).2
  refine ⟨fun s n b => ⟨exec_canFrameReceive_ignored, fun hon hf => ?receive⟩, fun s n o h => exec_canFrameTransmit_idle h,
    fun s n x y b hcan hon hlive h3 h4 htx hx hy => ?transmit, fun s n => ⟨fun h => if_pos (by simpa using h),
      fun hcan hon hlive => runs_canBusOff (wf hcan) hon hlive⟩,
    fun s n => ⟨exec_canBusOffRecovery_idle, fun hcan hoff hask => runs_canBusOffRecovery (wf hcan) hoff hask⟩,
    fun s m n => ⟨fun hm => if_pos (by simp [hm]), fun hm hon => (if_neg (by simp [hm])).trans (if_pos hon), fun hm hoff => ?recover⟩,
    fun s g => ⟨fun hl => if_pos hl, fun hl => runs_ntscfFrameSend hl⟩⟩
  case receive =>
    have he := exec_canFrameReceive hon hf
    refine ⟨fun hno => ?_, fun d hd h6 => ?_, fun d hd h6 => ?_, fun hcan hax hno => runs_canFrameReceive_unmatched (wf hcan) hon hf hax hno⟩
    · change (s.canTaken n b).canFilter n b = none at hno
      rw [hno] at he
      exact he
    · change (s.canTaken n b).canFilter n b = some d at hd
      rw [hd] at he
      dsimp only at he
      rw [if_pos h6] at he
      exact .of_exec he ⟨rfl, State.gateway_none, fun e hm hc hg => State.gateway_routes hm hc hg⟩
    · change (s.canTaken n b).canFilter n b = some d at hd
      rw [hd] at he
      dsimp only at he
      rw [if_neg (by simp [h6])] at he
      exact he
  case transmit =>
    have h : CanSends s n x b y := ⟨wf hcan, hlive, by simp [hon, hlive, h3, h4], htx, by rw [htx, canBest_append hx hy, Nat.zero_add]⟩
    exact ⟨fun ht htec hrec => runs_canFrameTransmit_sent h ht htec hrec, runs_canFrameTransmit_lost h, runs_canFrameTransmit_error h⟩
  case recover =>
    have he : exec (.recover m n) s = .next (State.respOk { s with can.recReq := fmPut s.can.recReq n true } []) :=
      (if_neg (by simp [hm])).trans (if_neg (by simp [hoff]))
    exact .of_exec he ⟨fmGet_fmPut_same _ _ _, rfl, rfl, rfl⟩
end

section
/-! PROOF. Frames at the MACs: reception (R551, R553, R557), transmission (R559, R562) and the link (R559). -/

namespace Sys2Proof.Machine

variable {s t u : State}

theorem rEthPort_inj {n a c : Nat} : rEthPort n a = rEthPort n c ↔ a = c := by
  unfold rEthPort rEth
  omega

theorem rEthPort_ne_rEth {n o a : Nat} (ha : a < 0x10000) : rEthPort n o ≠ rEth a := by
  unfold rEthPort rEth
  omega

/-! Reception (R551). -/

/-- A key that reads otherwise than by default reads the same after a later key is set, in any list. -/
theorem stGet_stPut_of_found {α : Type} [DecidableEq α] {d : Nat → α} {j k : Nat} {v : α} (hj : j < k) :
    ∀ l : List (Nat × α), stGet d l j ≠ d j → stGet d (stPut d l k v) j = stGet d l j
  | [], h => absurd rfl h
  | (k', v') :: r, h => by
    have ih := stGet_stPut_of_found (d := d) (v := v) hj r
    have hnot : ¬j < k' := fun hlt => h (by rw [stGet, if_pos hlt])
    by_cases he : j = k'
    · subst he
      rw [stPut, if_neg (by omega), if_neg (by omega), stGet, stGet, if_neg hnot, if_neg hnot, if_pos rfl, if_pos rfl]
    · have hr (l : List (Nat × α)) : stGet d ((k', v') :: l) j = stGet d l j := by rw [stGet, if_neg hnot, if_neg he]
      rw [hr] at h ⊢
      rw [stPut, if_neg (by omega), if_neg (by omega), hr, ih h]

theorem State.word_setWord_of_found {a b v : Nat} (hb : b < a) (hw : s.word b ≠ (regReset b).toNat) : (s.setWord a v).word b = s.word b := by
  rw [State.word, State.setWord, stGet_stPut_of_found hb _ fun h => hw (congrArg BitVec.toNat h), State.word]

theorem regReset_rEthPort_cfg : ∀ n < 16, (regReset (rEthPort n 0)).toNat = 0 := by decide +kernel

section
variable {mac : Fin 16} {frame : List Byte} {secOk pass : Bool}

/-- A frame that a MAC refuses: too short, too long, or with a wrong FCS. -/
def State.frameBad (s : State) (n : Nat) (frame : List Byte) : Prop :=
  frame.length < 64 ∨ s.fld (rEthPort n 0) 31 16 < frame.length ∨
    crcFcs (frame.take (frame.length - 4)) ≠ leAt frame (frame.length - 4) 4

theorem exec_ethFrameReceive_down (hl : s.ethLink mac = false) : exec (.ethFrameReceive mac frame secOk pass) s = .next s :=
  if_pos (by simp [hl])

theorem exec_ethFrameReceive_bad (hl : s.ethLink mac = true) (hb : s.frameBad mac frame) :
    exec (.ethFrameReceive mac frame secOk pass) s = .next (s.bump (rEthPort mac 0x88)) := by
  have hup : ¬(!s.ethLink mac) = true := by simp [hl]
  have hbad : (frame.length < 64 || s.fld (rEthPort mac 0) 31 16 < frame.length ||
      decide (crcFcs (frame.take (frame.length - 4)) ≠ leAt frame (frame.length - 4) 4)) = true := by
    rw [Bool.or_eq_true, Bool.or_eq_true, decide_eq_true_eq, decide_eq_true_eq, decide_eq_true_eq, or_assoc]
    exact hb
  exact (if_neg hup).trans (if_pos hbad)

/-- A good frame: counted, and what then becomes of it. -/
theorem exec_ethFrameReceive_good (hl : s.ethLink mac = true) (hb : ¬s.frameBad mac frame) :
    let u := s.bump (rEthPort mac 0x80)
    let f := frame.take (frame.length - 4)
    exec (.ethFrameReceive mac frame secOk pass) s =
      if fType f = 0x8808 then .next u
      else if u.macsec mac && !secOk then .next (u.bump (rEthPort mac 0x9C))
      else .next (u.ethIngress mac f false pass) := by
  have hup : ¬(!s.ethLink mac) = true := by simp [hl]
  have hgood : ¬(frame.length < 64 || s.fld (rEthPort mac 0) 31 16 < frame.length ||
      decide (crcFcs (frame.take (frame.length - 4)) ≠ leAt frame (frame.length - 4) 4)) = true := by
    rw [Bool.or_eq_true, Bool.or_eq_true, decide_eq_true_eq, decide_eq_true_eq, decide_eq_true_eq, or_assoc]
    exact hb
  exact (if_neg hup).trans (if_neg hgood)

/-- A MAC that takes frames reads its configuration as before when a frame is counted, in any state. -/
theorem State.macsec_counted (hb : ¬s.frameBad mac frame) : (s.bump (rEthPort mac 0x80)).macsec mac = s.macsec mac := by
  have hcfg : s.word (rEthPort mac 0) ≠ (regReset (rEthPort mac 0)).toNat := by
    rw [regReset_rEthPort_cfg mac mac.isLt]
    intro h0
    refine hb (if hlen : frame.length < 64 then .inl hlen else .inr (.inl ?_))
    rw [State.fld, h0, bitsOf, Nat.zero_shiftRight, Nat.zero_mod]
    omega
  have hw : (s.bump (rEthPort mac 0x80)).word (rEthPort mac 0) = s.word (rEthPort mac 0) :=
    State.word_setWord_of_found (by unfold rEthPort rEth; omega) hcfg
  rw [State.macsec, State.bit_congr hw, State.macsec]

theorem State.ptpQ_congr {c : Nat} (h : ∀ o, u.word (rPtpClk c o) = s.word (rPtpClk c o)) : u.ptpQ c = s.ptpQ c := by
  rw [State.ptpQ, State.ptpNs, State.ptpSec, State.ptpNsec, State.ptpFrac, h, h, State.fld_congr (h _), State.fld_congr (h _), State.ptpQ,
    State.ptpNs, State.ptpSec, State.ptpNsec, State.ptpFrac]

theorem State.ptpStamp_congr {c : Nat} (h : ∀ o, u.word (rPtpClk c o) = s.word (rPtpClk c o)) (q : Nat) :
    u.ptpStamp c q = s.ptpStamp c q := by
  have hon : u.ptpOn c = s.ptpOn c := State.bit_congr (h 0) 0
  rw [State.ptpStamp, State.fld_congr (h _), hon, State.ptpStamp]

/-- The stamp of a MAC does not follow the registers that count frames. -/
theorem State.macStamp_counted {n : Nat} (hn : n < 16) (hk : RegsOnly [rEthPort n 0x80] s u) (ingress : Bool) :
    u.macStamp n ingress = s.macStamp n ingress := by
  have hport (o : Nat) (ho : o ≠ 0x80) : u.word (rEthPort n o) = s.word (rEthPort n o) := hk.word _ (by simpa [rEthPort_inj] using ho)
  have hclk (c o : Nat) : u.word (rPtpClk c o) = s.word (rPtpClk c o) := hk.word _ fun hm => by
    have h := List.mem_singleton.mp hm
    simp only [rPtpClk, rEthPort, rEth, blkBase, bPTP, bETH] at h
    omega
  have h0 := hport 0 (by omega)
  have hcorr := hport (if ingress then 0xC else 8) (by split <;> omega)
  rw [State.macStamp, State.macTime, State.fld_congr h0, State.ptpQ_congr (hclk _), State.ptpStamp_congr (hclk _), hcorr, State.macStamp,
    State.macTime]

theorem runs_ethFrameReceive_ptp (h : regsWf s.regs = true) (hl : s.ethLink mac = true) (hb : ¬s.frameBad mac frame)
    (ht : fType (frame.take (frame.length - 4)) ≠ 0x8808) (hsec : s.macsec mac = false ∨ secOk = true)
    (hp : fIsPtp (frame.take (frame.length - 4)) = true) : Runs (.ethFrameReceive mac frame secOk pass) s fun t =>
      t.ethQueue 17 0 = s.ethQueue 17 0 ++ [⟨frame.take (frame.length - 4), s.macStamp mac true, mac, 0, 0, false, false⟩] ∧
      t.word (rEthPort mac 0x80) = (s.word (rEthPort mac 0x80) + 1) % 2 ^ 32 ∧ RegsBut [rEthPort mac 0x80] s t ∧ t.mem = s.mem ∧
      t.out = s.out := by
  have hk : RegsOnly [rEthPort mac 0x80] s (s.bump (rEthPort mac 0x80)) := (RegsOnly.refl h).bump (by simp)
  have he := exec_ethFrameReceive_good (secOk := secOk) (pass := pass) hl hb
  dsimp only at he
  rw [if_neg ht, if_neg (by rw [State.macsec_counted hb]; rcases hsec with hs | hs <;> simp [hs]), State.ethIngress, if_pos hp,
    State.macStamp_counted mac.isLt hk] at he
  exact .of_exec he ⟨State.ethQueue_ethEnqueue_same _ _ _ _, State.word_bump_same h _, hk.word, rfl, rfl⟩

/-- A frame at the switch (R553, R557, R578), when it is not a PTP message. -/
theorem exec_ethFrameReceive_ingress (hl : s.ethLink mac = true) (hb : ¬s.frameBad mac frame)
    (ht : fType (frame.take (frame.length - 4)) ≠ 0x8808) (hsec : s.macsec mac = false ∨ secOk = true) :
    exec (.ethFrameReceive mac frame secOk pass) s =
      .next ((s.bump (rEthPort mac 0x80)).ethIngress mac (frame.take (frame.length - 4)) false pass) := by
  have he := exec_ethFrameReceive_good (secOk := secOk) (pass := pass) hl hb
  dsimp only at he
  rwa [if_neg ht, if_neg (by rw [State.macsec_counted hb]; rcases hsec with hs | hs <;> simp [hs])] at he

section
variable {n e g : Nat} {f : List Byte}

theorem State.ethIngress_forwarded (hp : fIsPtp f = false) (hf : u.flowMatch n f = none) (hg : u.ntscfMatch f = none) :
    u.ethIngress n f false pass = if pass then u.ethSwitch ⟨f, u.macStamp n true, n, 0, 0, false, false⟩ else u := by
  rw [State.ethIngress, if_neg (by simp [hp])]
  dsimp only
  rw [hf]
  dsimp only
  rw [hg]

theorem State.ethIngress_gateway (hp : fIsPtp f = false) (hf : u.flowMatch n f = none) (hg : u.ntscfMatch f = some g) :
    u.ethIngress n f false pass = u.ntscfIn g (f.drop (fTypeOff f + 14)) := by
  rw [State.ethIngress, if_neg (by simp [hp])]
  dsimp only
  rw [hf]
  dsimp only
  rw [hg]

theorem State.ethIngress_flow (hp : fIsPtp f = false) (hf : u.flowMatch n f = some e)
    (hcopy : (u.flowGive e f).bit (rEth (0x4000 + e * 0x20)) 14 = false) : u.ethIngress n f false pass = u.flowGive e f := by
  rw [State.ethIngress, if_neg (by simp [hp])]
  dsimp only
  rw [hf]
  dsimp only
  rw [if_neg (by simp [hcopy])]

end

/-- The bucket of all flows filled to b. -/
def State.bucketed (s : State) (b : Nat) : State := { s with eth.bucketAt := s.now, eth.bucket := b }

/-- What a frame of a flow leaves when the bucket holds its bytes, and when it does not (R557). -/
theorem State.flowGive_effect (h : regsWf s.regs = true) (e : Nat) (f : List Byte) :
    ((fFlowPayload f).length ≤ s.flowBucket → (s.flowGive e f).sfe.flowQ = s.sfe.flowQ ++ [(e, fFlowPayload f)] ∧
      (s.flowGive e f).eth.bucket = s.flowBucket - (fFlowPayload f).length ∧ (s.flowGive e f).regs = s.regs) ∧
    (s.flowBucket < (fFlowPayload f).length → (s.flowGive e f).sfe = s.sfe ∧ (s.flowGive e f).eth.bucket = s.flowBucket ∧
      RegsBut [rEth 8, rEth 0] s (s.flowGive e f) ∧ (s.flowGive e f).word (rEth 8) = (s.word (rEth 8) + 1) % 2 ^ 32) ∧
    (s.flowGive e f).eth.bucketAt = s.now ∧ (s.flowGive e f).mem = s.mem ∧ (s.flowGive e f).out = s.out ∧
    (s.flowGive e f).bit (rEth (0x4000 + e * 0x20)) 14 = s.bit (rEth (0x4000 + e * 0x20)) 14 := by
  by_cases hfit : (fFlowPayload f).length ≤ s.flowBucket
  · have he : s.flowGive e f = { s with eth.bucketAt := s.now, eth.bucket := s.flowBucket - (fFlowPayload f).length,
                                        sfe.flowQ := s.sfe.flowQ ++ [(e, fFlowPayload f)] } := if_pos hfit
    rw [he]
    exact ⟨fun _ => ⟨rfl, rfl, rfl⟩, fun hn => absurd hn (by omega), rfl, rfl, rfl, rfl⟩
  · have hk : RegsOnly [rEth 8, rEth 0] (s.bucketed s.flowBucket) (((s.bucketed s.flowBucket).bump (rEth 8)).orWord (rEth 0) 0x10) :=
      ((RegsOnly.refl (s := s.bucketed s.flowBucket) h).bump (by simp)).orWord _ (by simp)
    have he : s.flowGive e f = ((s.bucketed s.flowBucket).bump (rEth 8)).orWord (rEth 0) 0x10 := if_neg hfit
    rw [he]
    have hcount := State.word_bump_same (s := s.bucketed s.flowBucket) h (rEth 8)
    refine ⟨fun hn => absurd hn hfit, fun _ => ⟨rfl, rfl, hk.word, ?_⟩, rfl, rfl, rfl, hk.bit _ ?_⟩
    · exact (State.word_orWord_other (State.bump_regsWf (s := s.bucketed s.flowBucket) h _) _ (by simp [rEth])).trans hcount
    · simp [rEth]
      omega

/-- What a frame of a flow leaves (R557). -/
theorem runs_ethFrameReceive_flow (h : regsWf s.regs = true) (hl : s.ethLink mac = true) (hb : ¬s.frameBad mac frame)
    (ht : fType (frame.take (frame.length - 4)) ≠ 0x8808) (hsec : s.macsec mac = false ∨ secOk = true)
    (hp : fIsPtp (frame.take (frame.length - 4)) = false) {e : Nat}
    (hf : (s.bump (rEthPort mac 0x80)).flowMatch mac (frame.take (frame.length - 4)) = some e)
    (hcopy : (s.bump (rEthPort mac 0x80)).bit (rEth (0x4000 + e * 0x20)) 14 = false) :
    let u := s.bump (rEthPort mac 0x80)
    let f := frame.take (frame.length - 4)
    Runs (.ethFrameReceive mac frame secOk pass) s fun t =>
      let k := (fFlowPayload f).length
      (k ≤ s.flowBucket → t.sfe.flowQ = s.sfe.flowQ ++ [(e, fFlowPayload f)] ∧ t.eth.bucket = s.flowBucket - k ∧ t.regs = u.regs) ∧
      (s.flowBucket < k → t.sfe = s.sfe ∧ t.eth.bucket = s.flowBucket ∧ RegsBut [rEthPort mac 0x80, rEth 8, rEth 0] s t ∧
        t.word (rEth 8) = (s.word (rEth 8) + 1) % 2 ^ 32) ∧
      t.eth.bucketAt = s.now ∧ t.mem = s.mem ∧ t.out = s.out := by
  have hk : RegsOnly [rEthPort mac 0x80] s (s.bump (rEthPort mac 0x80)) := (RegsOnly.refl h).bump (by simp)
  obtain ⟨hfit, hfull, hat, hmem, hout, hbit⟩ := State.flowGive_effect hk.wf e (frame.take (frame.length - 4))
  have he := exec_ethFrameReceive_ingress (secOk := secOk) (pass := pass) hl hb ht hsec
  rw [State.ethIngress_flow hp hf (hbit.trans hcopy)] at he
  have hb8 : (s.bump (rEthPort mac 0x80)).word (rEth 8) = s.word (rEth 8) :=
    hk.word _ (by simpa using (rEthPort_ne_rEth (n := mac) (o := 0x80) (a := 8) (by omega)).symm)
  refine .of_exec he ⟨hfit, fun hn => ?_, hat, hmem, hout⟩
  obtain ⟨hsfe, hbucket, hbut, h8⟩ := hfull hn
  refine ⟨hsfe, hbucket, fun a ha => ?_, h8.trans (by rw [hb8])⟩
  simp only [List.mem_cons, not_or] at ha
  exact (hbut a (by simp [ha])).trans (hk.word a (by simp [ha]))

end

/-! Transmission (R551, R559, R562). -/

section
variable {port : Fin 18} {cls : Fin 8} {pre : Bool} {fr : EthFrame} {r : List EthFrame}

theorem State.ethQueue_ethPop (hq : s.ethQueue p k = fr :: r) : (s.ethPop p k).ethQueue p k = r := by
  change fmGetD [] (fmPut s.eth.queues (p * 8 + k) ((s.ethQueue p k).drop 1)) (p * 8 + k) = r
  rw [hq]
  exact fmGetD_fmPut_same ..

/-- No open interval of the class holds its head. -/
def State.tooLong (s : State) (p k : Nat) (fr : EthFrame) : Prop := ∃ g, s.gateMax p k = some g ∧ g < s.txNs p (wireLen fr.data)

/-- A higher class may start. -/
def State.higherReady (s : State) (p k : Nat) : Prop := ∃ h, k < h ∧ h < 8 ∧ s.ethReady p h = true

theorem State.tooLong_iff {p k : Nat} :
    (match s.gateMax p k with | none => false | some t => decide (t < s.txNs p (wireLen fr.data))) = true ↔ s.tooLong p k fr := by
  unfold State.tooLong
  cases s.gateMax p k with
  | none => simp
  | some t => simp

theorem State.higherReady_iff {p k : Nat} : (List.range 8).any (fun h => k < h && s.ethReady p h) = true ↔ s.higherReady p k := by
  simp only [List.any_eq_true, List.mem_range, Bool.and_eq_true, decide_eq_true_eq, State.higherReady]
  exact ⟨fun ⟨h, h8, hk, hr⟩ => ⟨h, hk, h8, hr⟩, fun ⟨h, hk, h8, hr⟩ => ⟨h, h8, hk, hr⟩⟩

theorem exec_ethFrameTransmit_empty (hq : s.ethQueue port cls = []) : exec (.ethFrameTransmit port cls pre) s = .next s := by
  delta exec
  simp only [execEthFrameTransmit, hq, List.head?_nil]

theorem exec_ethFrameTransmit_trapped (hq : s.ethQueue port cls = fr :: r) (hp : 16 ≤ port.val) :
    exec (.ethFrameTransmit port cls pre) s = .next (s.ethPop port cls) := by
  delta exec
  simp only [execEthFrameTransmit, hq, List.head?_cons]
  exact if_pos hp

theorem exec_ethFrameTransmit_down (hq : s.ethQueue port cls = fr :: r) (hp : port.val < 16) (hl : s.ethLink port = false) :
    exec (.ethFrameTransmit port cls pre) s = .next s := by
  delta exec
  simp only [execEthFrameTransmit, hq, List.head?_cons]
  exact (if_neg (by omega)).trans (if_pos (by simp [hl]))

theorem exec_ethFrameTransmit_long (hq : s.ethQueue port cls = fr :: r) (hp : port.val < 16) (hl : s.ethLink port = true)
    (hlong : s.tooLong port cls fr) : exec (.ethFrameTransmit port cls pre) s =
      .next (if fr.txIdx = 0 then (s.ethPop port cls).bump (rEthPort port 0x90)
        else ((s.ethPop port cls).bump (rEthPort port 0x90)).chanTxDone fr.chan 4 []) := by
  delta exec
  simp only [execEthFrameTransmit, hq, List.head?_cons]
  exact (if_neg (by omega)).trans ((if_neg (by simp [hl])).trans (if_pos (State.tooLong_iff.mpr hlong)))

theorem exec_ethFrameTransmit_waits (hq : s.ethQueue port cls = fr :: r) (hp : port.val < 16) (hl : s.ethLink port = true)
    (hlong : ¬s.tooLong port cls fr) (hw : s.ethReady port cls = false ∨ s.higherReady port cls) :
    exec (.ethFrameTransmit port cls pre) s = .next s := by
  delta exec
  simp only [execEthFrameTransmit, hq, List.head?_cons]
  refine (if_neg (by omega)).trans ((if_neg (by simp [hl])).trans ((if_neg (mt State.tooLong_iff.mp hlong)).trans (if_pos ?_)))
  rw [Bool.or_eq_true, Bool.not_eq_true', State.higherReady_iff]
  exact hw

theorem exec_ethFrameTransmit_sent (hq : s.ethQueue port cls = fr :: r) (hp : port.val < 16) (hl : s.ethLink port = true)
    (hlong : ¬s.tooLong port cls fr) (hr : s.ethReady port cls = true) (hh : ¬s.higherReady port cls) :
    exec (.ethFrameTransmit port cls pre) s =
      .next (((if pre && bitOf (s.word (rEthPort port 0x48)) cls then s.bump (rEthPort port 0xA0) else s).ethPop port cls).ethSend port fr) := by
  delta exec
  simp only [execEthFrameTransmit, hq, List.head?_cons]
  refine (if_neg (by omega)).trans ((if_neg (by simp [hl])).trans ((if_neg (mt State.tooLong_iff.mp hlong)).trans (if_neg ?_)))
  rw [Bool.or_eq_true, Bool.not_eq_true', State.higherReady_iff, hr]
  simpa using hh

/-- What leaves a MAC without MACsec, when it is no PTP event: the frame padded, with its FCS, inverted for a poisoned one. -/
theorem State.ethSend_plain {p : Nat} (hsec : s.macsec p = false) (he : fEventOff (sliceBytes fr.data 0 (max 60 fr.data.length)) = none)
    (ht : fr.txIdx = 0) : s.ethSend p fr =
      (if fr.poison then (s.bump (rEthPort p 0x84)).bump (rEthPort p 0x8C) else s.bump (rEthPort p 0x84)).emit
        (.eth p (sliceBytes fr.data 0 (max 60 fr.data.length) ++
          leBytes 4 (if fr.poison then 2 ^ 32 - 1 - crcFcs (sliceBytes fr.data 0 (max 60 fr.data.length))
            else crcFcs (sliceBytes fr.data 0 (max 60 fr.data.length))))) := by
  rw [State.ethSend, if_neg (by simp [hsec])]
  simp only [he, hsec, ht, if_true, Bool.false_eq_true, if_false]

/-- The counts of a frame sent, and of a poisoned one. -/
theorem State.sentCounts (h : regsWf s.regs = true) (p : Nat) (poison : Bool) :
    let t := if poison then (s.bump (rEthPort p 0x84)).bump (rEthPort p 0x8C) else s.bump (rEthPort p 0x84)
    RegsOnly [rEthPort p 0x84, rEthPort p 0x8C] s t ∧ t.word (rEthPort p 0x84) = (s.word (rEthPort p 0x84) + 1) % 2 ^ 32 ∧
      t.word (rEthPort p 0x8C) = (s.word (rEthPort p 0x8C) + b2n poison) % 2 ^ 32 := by
  have hk : RegsOnly [rEthPort p 0x84, rEthPort p 0x8C] s (s.bump (rEthPort p 0x84)) := (RegsOnly.refl h).bump (by simp)
  have h84 := State.word_bump_same h (rEthPort p 0x84)
  have h8C : (s.bump (rEthPort p 0x84)).word (rEthPort p 0x8C) = s.word (rEthPort p 0x8C) :=
    State.word_bump_other h (by simp [rEthPort_inj])
  cases poison with
  | true =>
    exact ⟨hk.bump (by simp), (State.word_bump_other hk.wf (by simp [rEthPort_inj])).trans h84,
      (State.word_bump_same hk.wf _).trans (by rw [h8C]; rfl)⟩
  | false => exact ⟨hk, h84, h8C.trans (Nat.mod_eq_of_lt (s.word_lt _)).symm⟩

theorem runs_ethFrameTransmit_plain (h : regsWf s.regs = true) (hq : s.ethQueue port cls = fr :: r)
    (hrun : exec (.ethFrameTransmit port cls pre) s = .next ((s.ethPop port cls).ethSend port fr)) (hsec : s.macsec port = false)
    (he : fEventOff (sliceBytes fr.data 0 (max 60 fr.data.length)) = none) (ht : fr.txIdx = 0) :
    Runs (.ethFrameTransmit port cls pre) s fun t =>
      let f := sliceBytes fr.data 0 (max 60 fr.data.length)
      Emitted [.eth port (f ++ leBytes 4 (if fr.poison then 2 ^ 32 - 1 - crcFcs f else crcFcs f))] s t ∧ t.ethQueue port cls = r ∧
      t.word (rEthPort port 0x84) = (s.word (rEthPort port 0x84) + 1) % 2 ^ 32 ∧
      t.word (rEthPort port 0x8C) = (s.word (rEthPort port 0x8C) + b2n fr.poison) % 2 ^ 32 ∧
      RegsBut [rEthPort port 0x84, rEthPort port 0x8C] s t ∧ t.mem = s.mem := by
  have hpop := State.ethQueue_ethPop (s := s) hq
  have hsecp : (s.ethPop port cls).macsec port = false := hsec
  rw [State.ethSend_plain hsecp he ht] at hrun
  obtain ⟨hk, h84, h8C⟩ := State.sentCounts (s := s.ethPop port cls) h port fr.poison
  obtain ⟨x, hx⟩ := hk.rest
  generalize (if fr.poison = true then ((s.ethPop port cls).bump (rEthPort port 0x84)).bump (rEthPort port 0x8C)
    else (s.ethPop port cls).bump (rEthPort port 0x84)) = c at *
  subst hx
  exact .of_exec hrun ⟨rfl, hpop, h84, h8C, hk.word, rfl⟩

/-- A frame that no open interval holds and that wants no completion is dropped and counted. -/
theorem runs_ethFrameTransmit_long (h : regsWf s.regs = true) (hq : s.ethQueue port cls = fr :: r) (hp : port.val < 16)
    (hl : s.ethLink port = true) (hlong : s.tooLong port cls fr) (ht : fr.txIdx = 0) : Runs (.ethFrameTransmit port cls pre) s fun t =>
      t.ethQueue port cls = r ∧ t.word (rEthPort port 0x90) = (s.word (rEthPort port 0x90) + 1) % 2 ^ 32 ∧
      RegsBut [rEthPort port 0x90] s t ∧ t.mem = s.mem ∧ t.out = s.out := by
  have he := exec_ethFrameTransmit_long (pre := pre) hq hp hl hlong
  rw [if_pos ht] at he
  have hk : RegsOnly [rEthPort port 0x90] (s.ethPop port cls) ((s.ethPop port cls).bump (rEthPort port 0x90)) :=
    (RegsOnly.refl (s := s.ethPop port cls) h).bump (by simp)
  exact .of_exec he ⟨State.ethQueue_ethPop hq, State.word_bump_same (s := s.ethPop port cls) h _, hk.word, rfl, rfl⟩

end

/-! Host channels (R554, R555). -/

section
variable {c : Fin 64}

/-- A CAN buffer that host channel c has fetched: queued on its controller, or refused. -/
def State.chanCan (s : State) (c : Nat) (e f : List Byte) : Host.Outcome State Fault Refusal :=
  let n := leAt e 0xD 1
  if n ≥ 16 || !s.bit (rChan c 0x18) (n % 16) || s.canFmt (n % 16) < cbFmt f || !s.canOn (n % 16) then
    .next ((s.canDrop (n % 16)).chanTxDone c 6 [])
  else if (s.canTx n).length ≥ 32 then .next s
  else
    let s := { s with can.tx := fmPut s.can.tx n (s.canTx n ++ [CanBuf.mk f c (b2n (bitOf (leAt e 0xA 2) 0))]) }
    .next (if bitOf (leAt e 0xA 2) 0 then s else s.chanTxDone c 0 [])

/-- A frame that host channel c has fetched: forwarded, or refused. -/
def State.chanEth (s : State) (c : Nat) (e f : List Byte) : Host.Outcome State Fault Refusal :=
  let ports := s.ethPorts 16 f
  if leAt e 8 2 < 14 then .next (s.chanTxDone c 1 [])
  else if leAt e 8 2 > 9212 then .next (s.chanTxDone c 4 [])
  else if ports = 0 then .next (s.chanTxDone c 1 [])
  else if (setBitsList 16 ports).all (fun p => !s.ethLink p) && !bitOf ports 16 then .next (s.chanTxDone c 5 [])
  else
    let first := (setBitsList 16 ports).find? fun p => s.ethLink p
    let fr : EthFrame := ⟨f, zeroBytes 16, 16, c, 0, false, false⟩
    match (if bitOf (leAt e 0xA 2) 0 then first else none) with
    | none => .next ((s.ethSwitch fr).chanTxDone c 0 [])
    | some p =>
      let un := leAt (s.tblEntry 1 (fVid f)) 4 4
      let s := (s.ethLearn f 16).ethForward (setBitsOf ports p p 0) fr
      .next (s.ethEnqueue p (s.ethClass p f) { fr with data := egressTag f (bitOf un p), txIdx := 1 })

/-- Host channel c has an entry to send: x is its queue. -/
structure ChanReady (s : State) (c : Fin 64) (x : HqmQ) : Prop where
  queue : fmGet s.hqm.queues (s.word (rChan c 4) % 2 ^ 19) = some x
  go : ¬(x.count = 0 || x.faulted || s.chanWaits c || !(s.fld (rChan c 0) 7 6 == 1 || s.fld (rChan c 0) 7 6 == 2)) = true

theorem exec_hostChannelTx_none (hq : fmGet s.hqm.queues (s.word (rChan c 4) % 2 ^ 19) = none) :
    exec (.hostChannelTx c) s = .next s := by
  delta exec
  simp only [execHostChannelTx, hq]

theorem exec_hostChannelTx_idle {x : HqmQ} (hq : fmGet s.hqm.queues (s.word (rChan c 4) % 2 ^ 19) = some x)
    (h : x.count = 0 ∨ x.faulted = true ∨ s.chanWaits c = true ∨ s.fld (rChan c 0) 7 6 = 0 ∨ s.fld (rChan c 0) 7 6 = 3) :
    exec (.hostChannelTx c) s = .next s := by
  delta exec
  simp only [execHostChannelTx, hq]
  refine if_pos ?_
  rcases h with h | h | h | h | h
  all_goals simp [h]

section
variable {x : HqmQ} {u v : State} {e f : List Byte}

theorem exec_hostChannelTx_noEntry {a : AccErr} (h : ChanReady s c x)
    (hr : s.rdV (asInst (s.fld (rChan c 0) 5 0)) mHqm 1 (x.base + x.head % x.size * x.entryBytes) 32 = (u, .error a)) :
    exec (.hostChannelTx c) s = .next (u.chanTxDone c 3 []) := by
  delta exec
  simp only [execHostChannelTx, h.queue, if_neg h.go, hr]

theorem exec_hostChannelTx_poisonedEntry (h : ChanReady s c x)
    (hr : s.rdV (asInst (s.fld (rChan c 0) 5 0)) mHqm 1 (x.base + x.head % x.size * x.entryBytes) 32 = (u, .ok (e, true))) :
    exec (.hostChannelTx c) s = .next (u.chanTxDone c 2 []) := by
  delta exec
  simp only [execHostChannelTx, h.queue, if_neg h.go, hr]

theorem exec_hostChannelTx_noFrame {a : AccErr} (h : ChanReady s c x)
    (hr : s.rdV (asInst (s.fld (rChan c 0) 5 0)) mHqm 1 (x.base + x.head % x.size * x.entryBytes) 32 = (u, .ok (e, false)))
    (hf : u.rdLong (asInst (s.fld (rChan c 0) 5 0)) mHqm (leAt e 0 8) (leAt e 8 2) = (v, .error a)) :
    exec (.hostChannelTx c) s = .next (v.chanTxDone c 3 []) := by
  delta exec
  simp only [execHostChannelTx, h.queue, if_neg h.go, hr, hf]

theorem exec_hostChannelTx_poisonedFrame (h : ChanReady s c x)
    (hr : s.rdV (asInst (s.fld (rChan c 0) 5 0)) mHqm 1 (x.base + x.head % x.size * x.entryBytes) 32 = (u, .ok (e, false)))
    (hf : u.rdLong (asInst (s.fld (rChan c 0) 5 0)) mHqm (leAt e 0 8) (leAt e 8 2) = (v, .ok (f, true))) :
    exec (.hostChannelTx c) s = .next (v.chanTxDone c 2 []) := by
  delta exec
  simp only [execHostChannelTx, h.queue, if_neg h.go, hr, hf]

theorem exec_hostChannelTx_fetched (h : ChanReady s c x)
    (hr : s.rdV (asInst (s.fld (rChan c 0) 5 0)) mHqm 1 (x.base + x.head % x.size * x.entryBytes) 32 = (u, .ok (e, false)))
    (hf : u.rdLong (asInst (s.fld (rChan c 0) 5 0)) mHqm (leAt e 0 8) (leAt e 8 2) = (v, .ok (f, false))) :
    exec (.hostChannelTx c) s = if s.fld (rChan c 0) 7 6 = 2 then v.chanCan c e f else v.chanEth c e f := by
  delta exec
  simp only [execHostChannelTx, h.queue, if_neg h.go, hr, hf]
  rfl

/-! A fetched CAN buffer. -/

/-- The controller that the entry names cannot carry the buffer. -/
def State.noCan (v : State) (c : Nat) (e f : List Byte) : Prop :=
  16 ≤ leAt e 0xD 1 ∨ v.bit (rChan c 0x18) (leAt e 0xD 1) = false ∨ v.canFmt (leAt e 0xD 1) < cbFmt f ∨ v.canOn (leAt e 0xD 1) = false

theorem State.noCan_iff {c : Nat} : (leAt e 0xD 1 ≥ 16 || !v.bit (rChan c 0x18) (leAt e 0xD 1 % 16) ||
    v.canFmt (leAt e 0xD 1 % 16) < cbFmt f || !v.canOn (leAt e 0xD 1 % 16)) = true ↔ v.noCan c e f := by
  simp only [Bool.or_eq_true, decide_eq_true_eq, Bool.not_eq_true', or_assoc, State.noCan, ge_iff_le]
  by_cases hn : 16 ≤ leAt e 0xD 1
  · simp [hn]
  · rw [Nat.mod_eq_of_lt (by omega : leAt e 0xD 1 < 16)]

theorem State.chanCan_refused {c : Nat} (h : v.noCan c e f) :
    v.chanCan c e f = .next ((v.canDrop (leAt e 0xD 1 % 16)).chanTxDone c 6 []) := if_pos (State.noCan_iff.mpr h)

theorem State.chanCan_full {c : Nat} (h : ¬v.noCan c e f) (hl : 32 ≤ (v.canTx (leAt e 0xD 1)).length) : v.chanCan c e f = .next v :=
  (if_neg (mt State.noCan_iff.mp h)).trans (if_pos hl)

theorem State.chanCan_queued {c : Nat} (h : ¬v.noCan c e f) (hl : (v.canTx (leAt e 0xD 1)).length < 32) :
    v.chanCan c e f = .next (if bitOf (leAt e 0xA 2) 0 then
        { v with can.tx := fmPut v.can.tx (leAt e 0xD 1) (v.canTx (leAt e 0xD 1) ++ [CanBuf.mk f c (b2n (bitOf (leAt e 0xA 2) 0))]) }
      else State.chanTxDone
        { v with can.tx := fmPut v.can.tx (leAt e 0xD 1) (v.canTx (leAt e 0xD 1) ++ [CanBuf.mk f c (b2n (bitOf (leAt e 0xA 2) 0))]) } c 0 []) :=
  (if_neg (mt State.noCan_iff.mp h)).trans (if_neg (by omega))

/-! A fetched frame. -/

/-- No port that the frame would go to is live. -/
def State.chanDark (v : State) (f : List Byte) : Prop :=
  (∀ p, p < 16 → bitOf (v.ethPorts 16 f) p = true → v.ethLink p = false) ∧ bitOf (v.ethPorts 16 f) 16 = false

theorem mem_setBitsList {n x k : Nat} : k ∈ setBitsList n x ↔ k < n ∧ bitOf x k = true := by
  rw [setBitsList, List.mem_filter, List.mem_range]

theorem State.chanDark_iff :
    ((setBitsList 16 (v.ethPorts 16 f)).all (fun p => !v.ethLink p) && !bitOf (v.ethPorts 16 f) 16) = true ↔ v.chanDark f := by
  rw [Bool.and_eq_true, List.all_eq_true, Bool.not_eq_true', State.chanDark]
  simp only [mem_setBitsList, Bool.not_eq_true', and_imp]

section
variable {c : Nat}

theorem State.chanEth_short (h : leAt e 8 2 < 14) : v.chanEth c e f = .next (v.chanTxDone c 1 []) := if_pos h

theorem State.chanEth_long (h : 9212 < leAt e 8 2) : v.chanEth c e f = .next (v.chanTxDone c 4 []) :=
  (if_neg (by omega)).trans (if_pos h)

variable (h14 : 14 ≤ leAt e 8 2) (hmax : leAt e 8 2 ≤ 9212)

include h14 hmax

theorem State.chanEth_nowhere (hp : v.ethPorts 16 f = 0) : v.chanEth c e f = .next (v.chanTxDone c 1 []) :=
  (if_neg (by omega)).trans ((if_neg (by omega)).trans (if_pos hp))

theorem State.chanEth_dark (hp : v.ethPorts 16 f ≠ 0) (hd : v.chanDark f) : v.chanEth c e f = .next (v.chanTxDone c 5 []) :=
  (if_neg (by omega)).trans ((if_neg (by omega)).trans ((if_neg hp).trans (if_pos (State.chanDark_iff.mpr hd))))

theorem State.chanEth_switched (hp : v.ethPorts 16 f ≠ 0) (hd : ¬v.chanDark f)
    (hfirst : (if bitOf (leAt e 0xA 2) 0 then (setBitsList 16 (v.ethPorts 16 f)).find? fun p => v.ethLink p else none) = none) :
    v.chanEth c e f = .next ((v.ethSwitch ⟨f, zeroBytes 16, 16, c, 0, false, false⟩).chanTxDone c 0 []) := by
  rw [State.chanEth]
  dsimp only
  rw [if_neg (by omega), if_neg (by omega), if_neg hp, if_neg (mt State.chanDark_iff.mp hd), hfirst]

theorem State.chanEth_stamped {p : Nat} (ht : bitOf (leAt e 0xA 2) 0 = true) (hlt : p < 16) (hb : bitOf (v.ethPorts 16 f) p = true)
    (hl : v.ethLink p = true) (hlow : ∀ h, h < p → bitOf (v.ethPorts 16 f) h = true → v.ethLink h = false) :
    v.chanEth c e f =
      .next (let w := (v.ethLearn f 16).ethForward (setBitsOf (v.ethPorts 16 f) p p 0) ⟨f, zeroBytes 16, 16, c, 0, false, false⟩
        w.ethEnqueue p (w.ethClass p f)
          ⟨egressTag f (bitOf (leAt (v.tblEntry 1 (fVid f)) 4 4) p), zeroBytes 16, 16, c, 1, false, false⟩) := by
  have hp : v.ethPorts 16 f ≠ 0 := fun h0 => by
    rw [h0] at hb
    simp [bitOf] at hb
  have hd : ¬v.chanDark f := fun hd => by
    have := hd.1 p hlt hb
    rw [hl] at this
    exact absurd this (by simp)
  have hfirst : ((setBitsList 16 (v.ethPorts 16 f)).find? fun p => v.ethLink p) = some p := by
    rw [setBitsList, List.find?_filter, List.find?_range_eq_some]
    refine ⟨by simp [hb, hl], List.mem_range.mpr hlt, fun j hj => ?_⟩
    cases hbj : bitOf (v.ethPorts 16 f) j with
    | true => simp [hlow j hj hbj]
    | false => simp
  rw [State.chanEth]
  dsimp only
  rw [if_neg (by omega), if_neg (by omega), if_neg hp, if_neg (mt State.chanDark_iff.mp hd), if_pos ht, hfirst]

end

end

end

/-! The link of a MAC (R559). -/

/-- A link changes: shown, with the interrupt. -/
def State.linkShown (s : State) (n : Nat) (up : Bool) : State := (s.setBit (rEthPort n 4) 0 up).orWord (rEth 0) 1

theorem State.linkShown_effect (h : regsWf s.regs = true) (n : Nat) (up : Bool) :
    RegsOnly [rEthPort n 4, rEth 0] s (s.linkShown n up) ∧ (s.linkShown n up).ethLink n = up ∧ (s.linkShown n up).bit (rEth 0) 0 = true := by
  have hb := State.setBit_regsWf h (rEthPort n 4) 0 up
  refine ⟨((RegsOnly.refl h).setBit _ _ (by simp)).orWord _ (by simp), ?_, State.bit_orWord_pow hb (rEth 0) (k := 0) (by omega)⟩
  exact (State.bit_orWord_other hb _ _ (rEthPort_ne_rEth (by omega))).trans (State.bit_setBit_same h _ (by omega))

theorem runs_ethLinkChange_up {mac : Fin 16} (h : regsWf s.regs = true) (hl : s.ethLink mac = false) :
    Runs (.ethLinkChange mac true) s fun t => t.ethLink mac = true ∧ t.fld (rEthPort mac 4) 7 4 = s.fld (rEthPort mac 0) 7 4 ∧
      t.bit (rEth 0) 0 = true ∧ RegsBut [rEthPort mac 4, rEth 0] s t ∧ t.mem = s.mem ∧ t.eth = s.eth := by
  have he : exec (.ethLinkChange mac true) s = .next ((s.linkShown mac true).setFld (rEthPort mac 4) 7 4
    ((s.linkShown mac true).fld (rEthPort mac 0) 7 4)) := if_neg (by simp [hl])
  obtain ⟨hk, hup, hirq⟩ := State.linkShown_effect h mac true
  have heth : (s.linkShown mac true).eth = s.eth := rfl
  have hcfg : (s.linkShown mac true).fld (rEthPort mac 0) 7 4 = s.fld (rEthPort mac 0) 7 4 := hk.fld _ _ (by
    simp only [List.mem_cons, List.not_mem_nil, or_false, not_or]
    exact ⟨by simp [rEthPort_inj], rEthPort_ne_rEth (by omega)⟩)
  rw [hcfg] at he
  generalize s.linkShown mac true = u at *
  have hk2 := hk.setFld (a := rEthPort mac 4) 7 4 (s.fld (rEthPort mac 0) 7 4) (by simp)
  refine .of_exec he ⟨(State.bit_setFld_apart hk.wf _ (by omega) (by omega) (by omega)).trans hup, ?_, ?_, hk2.word, hk2.mem, heth⟩
  · rw [State.fld_setFld_same hk.wf _ (by omega) (by omega)]
    exact Nat.mod_eq_of_lt (Nat.mod_lt _ (by omega))
  · exact (State.bit_congr (State.word_setFld_other hk.wf _ _ _ (rEthPort_ne_rEth (by omega)).symm) _).trans hirq

/-- The frames queued at a class of a port whose link went down are dropped. -/
def State.linkDrop (n : Nat) (s : State) (k : Nat) : State :=
  let q := s.ethQueue n k
  let s := { s with eth.queues := fmDel s.eth.queues (n * 8 + k) }
  q.foldl (fun s f =>
    let s := s.bump (rEthPort n 0xA4)
    if f.txIdx = 0 then s else s.chanTxDone f.chan 5 []) s

/-- Frames without a stamp are only counted when they are dropped. -/
theorem State.dropCounts (n : Nat) : ∀ (q : List EthFrame) {s : State}, regsWf s.regs = true → (∀ f ∈ q, f.txIdx = 0) →
    let t := q.foldl (fun s f =>
      let s := s.bump (rEthPort n 0xA4)
      if f.txIdx = 0 then s else s.chanTxDone f.chan 5 []) s
    RegsOnly [rEthPort n 0xA4] s t ∧ t.word (rEthPort n 0xA4) = (s.word (rEthPort n 0xA4) + q.length) % 2 ^ 32
  | [], s, h, _ => ⟨.refl h, (Nat.mod_eq_of_lt (s.word_lt _)).symm⟩
  | f :: q, s, h, hq => by
    obtain ⟨hk, hw⟩ := State.dropCounts n q (s := s.bump (rEthPort n 0xA4)) (State.bump_regsWf h _) fun g hg => hq g (List.mem_cons_of_mem _ hg)
    have hb : RegsOnly [rEthPort n 0xA4] s (s.bump (rEthPort n 0xA4)) := (RegsOnly.refl h).bump (by simp)
    rw [List.foldl_cons]
    dsimp only
    rw [if_pos (hq f List.mem_cons_self)]
    refine ⟨hk.after hb fun _ ha => ha, hw.trans ?_⟩
    rw [State.word_bump_same h, List.length_cons]
    omega

theorem State.linkDrop_nothing {n k : Nat} (hq : s.ethQueue n k = []) (hd : fmDel s.eth.queues (n * 8 + k) = s.eth.queues) :
    s.linkDrop n k = s := by
  unfold State.linkDrop
  rw [hq, hd]
  rfl

/-- No class of a port without queued frames has anything to drop. -/
theorem State.linkDrop_none {n : Nat} (hq : s.eth.queues = []) : ∀ l : List Nat, l.foldl (State.linkDrop n) s = s
  | [] => rfl
  | j :: l => by
    have hj : s.linkDrop n j = s := State.linkDrop_nothing (by rw [State.ethQueue, hq]; rfl) (by rw [hq]; rfl)
    rw [List.foldl_cons, hj]
    exact State.linkDrop_none hq l

/-- A class other than the one that holds frames has nothing to drop. -/
theorem State.linkDrop_other {n j k : Nat} {q : List EthFrame} (hq : s.eth.queues = [(n * 8 + k, q)]) (hj : j ≠ k) : s.linkDrop n j = s := by
  have hne : n * 8 + j ≠ n * 8 + k := by omega
  refine State.linkDrop_nothing ?_ ?_
  · rw [State.ethQueue, hq, fmGetD, fmGet, if_neg hne, fmGet, ite_self]
    rfl
  · rw [hq, fmDel, if_neg hne, fmDel, ite_self]

/-- With one queue at the port, dropping all classes drops that queue. -/
theorem State.linkDrop_all {n k : Nat} {q : List EthFrame} (hq : s.eth.queues = [(n * 8 + k, q)]) (hnone : (s.linkDrop n k).eth.queues = []) :
    ∀ l : List Nat, k ∈ l → l.foldl (State.linkDrop n) s = s.linkDrop n k
  | [], hk => absurd hk (by simp)
  | j :: l, hk => by
    rw [List.foldl_cons]
    by_cases hj : j = k
    · rw [hj, State.linkDrop_none hnone]
    · rw [State.linkDrop_other hq hj]
      exact State.linkDrop_all hq hnone l ((List.mem_cons.mp hk).resolve_left (Ne.symm hj))

/-- The state with no frame queued at a port. -/
def State.unqueued (s : State) : State := { s with eth.queues := [] }

/-- The only queue, dropped: emptied, and each of its frames counted. -/
theorem State.linkDrop_only (h : regsWf s.regs = true) {n k : Nat} {q : List EthFrame} (hq : s.eth.queues = [(n * 8 + k, q)])
    (ht : ∀ f ∈ q, f.txIdx = 0) :
    RegsOnly [rEthPort n 0xA4] s.unqueued (s.linkDrop n k) ∧
      (s.linkDrop n k).word (rEthPort n 0xA4) = (s.word (rEthPort n 0xA4) + q.length) % 2 ^ 32 := by
  have hqk : s.ethQueue n k = q := by
    rw [State.ethQueue, hq, fmGetD, fmGet, if_neg (Nat.lt_irrefl _), if_pos rfl]
    rfl
  have hdel : fmDel s.eth.queues (n * 8 + k) = [] := by rw [hq, fmDel, if_neg (Nat.lt_irrefl _), if_pos rfl]
  have hcount := State.dropCounts n q (s := s.unqueued) h ht
  unfold State.linkDrop
  rw [hqk, hdel]
  exact hcount

/-- What a link that goes down leaves when one class has frames queued, none of them to be stamped (R559). -/
theorem runs_ethLinkChange_down {mac : Fin 16} {k : Fin 8} {q : List EthFrame} (h : regsWf s.regs = true) (hl : s.ethLink mac = true)
    (hq : s.eth.queues = [(mac.val * 8 + k.val, q)]) (ht : ∀ f ∈ q, f.txIdx = 0) : Runs (.ethLinkChange mac false) s fun t =>
      t.ethLink mac = false ∧ t.bit (rEth 0) 0 = true ∧ t.eth.queues = [] ∧
      t.word (rEthPort mac 0xA4) = (s.word (rEthPort mac 0xA4) + q.length) % 2 ^ 32 ∧
      RegsBut [rEthPort mac 4, rEthPort mac 0xA4, rEth 0] s t ∧ t.mem = s.mem ∧ t.out = s.out := by
  have he : exec (.ethLinkChange mac false) s = .next ((List.range 8).foldl (State.linkDrop mac) (s.linkShown mac false)) :=
    if_neg (by simp [hl])
  obtain ⟨hk, hdown, hirq⟩ := State.linkShown_effect h mac false
  have hA4 : (s.linkShown mac false).word (rEthPort mac 0xA4) = s.word (rEthPort mac 0xA4) := hk.word _ (by
    simp only [List.mem_cons, List.not_mem_nil, or_false, not_or]
    exact ⟨by simp [rEthPort_inj], rEthPort_ne_rEth (by omega)⟩)
  have hqu : (s.linkShown mac false).eth.queues = [(mac.val * 8 + k.val, q)] := hq
  have hmem : (s.linkShown mac false).mem = s.mem := rfl
  have hout : (s.linkShown mac false).out = s.out := rfl
  generalize s.linkShown mac false = u at *
  obtain ⟨hd, hcount⟩ := State.linkDrop_only hk.wf hqu ht
  have hnone : (u.linkDrop mac k).eth.queues = [] := by
    obtain ⟨x, hx⟩ := hd.rest
    rw [hx]
    rfl
  rw [State.linkDrop_all hqu hnone _ (List.mem_range.mpr k.isLt)] at he
  refine .of_exec he ⟨?_, ?_, hnone, hcount.trans (by rw [hA4]), fun a ha => ?_, hd.mem.trans hmem, hd.out.trans hout⟩
  · exact (hd.bit 0 (by simp [rEthPort_inj])).trans hdown
  · exact (hd.bit 0 (by simpa using (rEthPort_ne_rEth (by omega)).symm)).trans hirq
  · simp only [List.mem_cons, List.not_mem_nil, or_false, not_or] at ha
    exact (hd.word a (by simp [ha])).trans (hk.word a (by simp [ha]))

end Sys2Proof.Machine

open Sys2Proof Sys2Proof.Machine

/-- Settles O48, by what each kind of frame leaves at reception, at the head of its queue, in a host channel and at link down. -/
theorem framesEnterAndLeaveTheMacs : Obligations.FramesEnterAndLeaveTheMacs := by
  unfold Obligations.FramesEnterAndLeaveTheMacs
  have wf {s : State} (hcan : s.canonical = true) := (State.canonical_iff.mp hcan).2
  refine ⟨fun s mac frame secOk pass => ?receive, fun s port cls pre fr r => ?transmit, fun s c => ?channel,
    fun s mac up h => if_pos h, fun s mac hcan hl => runs_ethLinkChange_up (wf hcan) hl,
    fun s mac k q hcan hl hq ht => runs_ethLinkChange_down (wf hcan) hl hq ht⟩
  case receive =>
    refine ⟨exec_ethFrameReceive_down, exec_ethFrameReceive_bad, fun hl hb ht => ?control, fun hl hb ht hsec hno => ?unsecured,
      fun hl hb ht hsec => ⟨fun hcan hp => runs_ethFrameReceive_ptp (wf hcan) hl hb ht hsec hp, fun hp hf hg => ?forwarded,
        fun g hp hf hg => ?gateway, fun e hcan hp hf hcopy => runs_ethFrameReceive_flow (wf hcan) hl hb ht hsec hp hf hcopy⟩⟩
    case control => exact (exec_ethFrameReceive_good hl hb).trans (if_pos ht)
    case unsecured =>
      exact (exec_ethFrameReceive_good hl hb).trans ((if_neg ht).trans (if_pos (by rw [State.macsec_counted hb, hsec, hno]; rfl)))
    case forwarded => rw [exec_ethFrameReceive_ingress hl hb ht hsec, State.ethIngress_forwarded hp hf hg]
    case gateway => rw [exec_ethFrameReceive_ingress hl hb ht hsec, State.ethIngress_gateway hp hf hg]
  case transmit =>
    refine ⟨exec_ethFrameTransmit_empty, fun hq => ⟨fun hp => .of_exec (exec_ethFrameTransmit_trapped hq hp) ⟨rfl, State.ethQueue_ethPop hq⟩,
      exec_ethFrameTransmit_down hq, fun hcan hp hl hlong ht => runs_ethFrameTransmit_long (wf hcan) hq hp hl hlong ht,
      fun hp hl hlong ht => (exec_ethFrameTransmit_long hq hp hl hlong).trans (by rw [if_neg ht]), exec_ethFrameTransmit_waits hq,
      fun hp hl hlong hr hh => ?_⟩⟩
    have hrun := exec_ethFrameTransmit_sent (pre := pre) hq hp hl hlong hr hh
    cases pre with
    | false =>
      exact ⟨fun _ => hrun, fun hcan _ hsec he ht => runs_ethFrameTransmit_plain (wf hcan) hq hrun hsec he ht, fun h => absurd h (by simp)⟩
    | true => exact ⟨fun h => absurd h (by simp), fun _ h => absurd h (by simp), fun _ => hrun⟩
  case channel =>
    refine ⟨exec_hostChannelTx_none, fun x hq => ⟨exec_hostChannelTx_idle hq, fun hcount hfault hwait hkind u a hr => ?_⟩⟩
    have h : ChanReady s c x := ⟨hq, by rcases hkind with hk | hk <;> simp [hcount, hfault, hwait, hk]⟩
    refine ⟨fun e ha => exec_hostChannelTx_noEntry h (ha ▸ hr), fun e ha => exec_hostChannelTx_poisonedEntry h (ha ▸ hr),
      fun e v b ha hf => ?_⟩
    subst ha
    refine ⟨fun e hb => exec_hostChannelTx_noFrame h hr (hb ▸ hf), fun f hb => exec_hostChannelTx_poisonedFrame h hr (hb ▸ hf),
      fun f hb => ?_⟩
    subst hb
    have he := exec_hostChannelTx_fetched h hr hf
    have hcan (hk : s.fld (rChan c 0) 7 6 = 2) : exec (.hostChannelTx c) s = v.chanCan c e f := he.trans (if_pos hk)
    have heth (hk : s.fld (rChan c 0) 7 6 = 1) : exec (.hostChannelTx c) s = v.chanEth c e f := he.trans (if_neg (by simp [hk]))
    refine ⟨fun hk hno => (hcan hk).trans (State.chanCan_refused hno), fun hk hno hl => (hcan hk).trans (State.chanCan_full hno hl),
      fun hk hno hl hts => ?stamped, fun hk hno hl hts => ?queued, fun hk hs => (heth hk).trans (State.chanEth_short hs),
      fun hk hl => (heth hk).trans (State.chanEth_long hl), fun hk h14 hm hp => (heth hk).trans (State.chanEth_nowhere h14 hm hp),
      fun hk h14 hm hp hd => (heth hk).trans (State.chanEth_dark h14 hm hp hd), fun hk h14 hm hp hd hts => (heth hk).trans ?switched,
      fun hk h14 hm hts hdown h16 => (heth hk).trans ?hosts,
      fun p hk h14 hm hts hlt hb hl hlow => (heth hk).trans (State.chanEth_stamped h14 hm hts hlt hb hl hlow)⟩
    case stamped =>
      have hdo := (hcan hk).trans (State.chanCan_queued hno hl)
      rw [if_pos hts, hts] at hdo
      exact .of_exec hdo ⟨fmGetD_fmPut_same .., rfl, rfl⟩
    case queued =>
      have hdo := (hcan hk).trans (State.chanCan_queued hno hl)
      rwa [if_neg (by rw [hts]; simp), hts] at hdo
    case switched => exact State.chanEth_switched h14 hm hp hd (if_neg (by rw [hts]; simp))
    case hosts =>
      have hp : v.ethPorts 16 f ≠ 0 := fun h0 => by
        rw [h0] at h16
        simp [bitOf] at h16
      have hd : ¬v.chanDark f := fun hd => Bool.false_ne_true (hd.2.symm.trans h16)
      refine State.chanEth_switched h14 hm hp hd ?_
      rw [if_pos hts, List.find?_eq_none]
      intro p hmem
      obtain ⟨hlt, hb⟩ := mem_setBitsList.mp hmem
      simp [hdown p hlt hb]

end
